-- ==== Sys2Proof/Word.lean ====
section
/-! DEFINITION. The words of the model: bytes, counts, and the sparse map in which the state keeps
everything the spec numbers (dictionary objects, sessions, cells, memory). -/
namespace Sys2Proof

/-- One byte (00_scope R13 stores multi-byte fields least significant byte first). -/
abbrev Byte := BitVec 8

/-- A Timothy count in nanoseconds (00_scope R15). -/
abbrev Count := Nat

/-- A sparse map from numbers to values, in one canonical form: keys strictly rising. -/
abbrev Map (α : Type) := List (Nat × α)

/-- The four authorities of 11_states R327. -/
inductive Auth
  | facility | host | service | protection
  deriving DecidableEq, Repr

end Sys2Proof
end

