-- ==== Sys2Proof/Machine/Types.lean ====
section
/-! DEFINITION. The vocabulary of the state: every structure and enumeration that a field of State or an operand of a
command uses, chapter by chapter. -/
namespace Sys2Proof.Machine

/-! ## Dictionary entries (12 R343 to R346) -/

/-- Data types (12 Table 12.1). -/
inductive Ty
  | bool | i8 | i16 | i32 | i64 | u8 | u16 | u32 | u64 | f32 | f64 | q16 | str | domain | count
  deriving DecidableEq, Repr

/-- Persistence codes (12 Table 12.3). -/
inductive Persist
  | volatile | hardware | nor | rcb
  deriving DecidableEq, Repr

/-- The range column of an object table. -/
inductive Range
  | any
  | ints (lo hi : Int)
  | oneOf (vs : List Int)
  | intsOr (lo hi extra : Int)
  | mult (lo m : Nat)
  | multIn (lo hi m : Nat)
  | mask (bits : Nat)
  | floats (lo hi : Rat)
  | floatsOr0 (lo hi : Rat)
  | codeRate
  | len (lo hi : Nat)
  | zeroOrLen (lo hi : Nat)
  | lens (vs : List Nat)
  deriving DecidableEq, Repr

/-- One row of an object table: the indices `index + step * i` (i < count), the subindices `sub0 ..`, and the
declaration of R343. `rye` says that the object is held in Rye or Sorghum, `sat` that it saturates (R346). -/
structure Entry where
  name : String
  index : Nat
  count : Nat
  step : Nat
  sub0 : Nat
  subs : Nat
  ty : Ty
  accF : Nat
  accH : Nat
  accS : Nat
  stF : Nat
  stH : Nat
  stS : Nat
  persist : Persist
  fw : Bool
  dflt : Nat
  range : Range
  rye : Bool
  sat : Bool
  deriving DecidableEq, Repr

/-- A numeric object: its key (index * 256 + subindex) and its default (12 R343). -/
structure Obj where
  key : Nat
  dflt : Nat
  deriving DecidableEq, Repr

/-- A dictionary value: a number in the object's own bit pattern, or bytes (STR and DOMAIN). -/
inductive Value
  | num (bits : Nat)
  | bytes (bs : List Byte)
  deriving DecidableEq, Repr

/-! ## Events (02 R68 to R71, 17 R479 to R491) -/

/-- The events the spec names. `fw` is a firmware code 0xE00 + c (17 R491). -/
inductive Ev
  | recorderSuppressed | recorderCommitFailed | recorderLost | recorderPartial | accelReplaced | fruReadFailed
  | peReplaced | queueOverflow
  | timeLocked | timeUnlocked | timeStepped | timeOffsetLarge | timeHoldoverExpired | timeSourceChanged | syncRejected
  | launchMissed | launchDisarmed
  | branchFastTrip | branchCurveTrip | branchTfetTrip | branchTfetSensorTrip | branchInrushTimer | gateNoRise
  | outputWhileOff | notCleared | escalation | branchCurveWarn | tfetSensorFault | tfetSensorOk | fetTempHigh
  | fetVdsHigh | vinOv | branchPresenceLost | branchPresenceEdge | branchToggleIgnored | branchUnclearedTrip
  | vinLow | emergencyStarted | railUvFault | railOvFault | railPgLost | railUvWarn | railOvWarn | pgDeglitch | pgTimeout
  | upTimeout | railEarlyCollapse | railNoDischarge | downWaitTimeout | selfRailFault | thermtrip | branchLost | b0Off
  | offOrder | admitFailed | triggerRecorded | triggerThermtrip | triggerVinLow
  | partTempWarn | sorghumTempWarn | engineThrottle | thermalShutdown | thermalRestartAbandoned | sorghumOt
  | accelThermalRelease | accelLimitWriteFailed | fanFault | coolantFlowLow | tempSensorFault | tempSensorOk
  | leakWarn | leakFault | leakOpen
  | tileFailed | cloveUe | stagingLate | p0AdmissionFailed | sessionOpened | sessionClosed | sessionAnomaly | modelSwitched
  | modelLoadFailed | switchDiscarded | sessionReapplyFailed | ckptLost | domainLost | engineLost | arithFlags
  | aniseUe | mpcInvalid | targetClamped | predictiveFault | predictiveClear | concordDiverged
  | partDegraded | safe | mainDieReset | accelRequestChanged | accelQuarantined | bootSlotFailed | memTrainingFailed
  | fwCrash | rcbInvalid
  | hostLinkDown | hostFecUncorrectable | sbLinkFault | macsecPnLow
  | memLost | memUe | dmaDone | dmaHalted | syncWait | huskDenied | updateState | updateFailed
  | pufFailed | secRecordLost
  | fw (c : Fin 512)
  deriving DecidableEq, Repr

/-- An event record before it is numbered, and after (02 Table 2.9). `code` is the event, whose number is
`Config.evCode`; `rye` gives FLAGS bit 0. -/
structure EvRec where
  seq : Nat
  count : Count
  epoch : Nat
  code : Ev
  source : Nat
  rye : Bool
  queued : Bool
  notLocked : Bool
  overflow : Bool
  coarse : Bool
  detail : Nat
  deriving DecidableEq, Repr

/-- The event serializer, its history and Rye's queue (02 R69 to R71). `lastSeq` is the last number given, `nextSeq` the next
one; they differ by 2^32 where none was given since Rye start. -/
structure Events where
  up : Bool
  nextSeq : Nat
  lastSeq : Nat
  held : List EvRec
  queue : List EvRec
  history : List EvRec
  deriving DecidableEq, Repr

/-- The record of one code (17 Table 17.3). -/
structure CodeRec where
  count : Nat
  suppressed : Nat
  lo : Nat
  hi : Nat
  sum : Nat
  hist : List Nat
  firstS : Nat
  firstCycle : Nat
  lastS : Nat
  lastCycle : Nat
  lastCount : Count
  lastEpoch : Nat
  lastDetail : Nat
  deriving DecidableEq, Repr

/-- How a code's DETAIL yields a magnitude, and its rate (17 Table 17.2). `kind`: 0 NONE, 1 UNSIGNED, 2 SIGNED, 3 F32. -/
structure CodeInfo where
  kind : Nat
  lsb : Nat
  width : Nat
  scaleE : Int
  histE : Int
  fault : Bool
  immediate : Bool
  rate : Nat
  burst : Nat
  deriving DecidableEq, Repr

/-- The lifetime block's values that are not dictionary numbers elsewhere, and the records (17 R487). -/
structure NutData where
  epoch : Nat
  lastSeq : Nat
  nums : Map Nat
  blobs : Map (List Byte)
  energy : Map Nat
  records : Map CodeRec
  deriving DecidableEq, Repr

/-- One full copy of the recorder with its delta area (17 R487 to R490): `data` is the copy with the whole delta entries
applied in order, `deltaUsed` the bytes the entries take, `changed` the codes changed since the copy's snapshot,
each with its number and its ATTR FAULT. -/
structure NutCopy where
  generation : Nat
  valid : Bool
  data : NutData
  deltaUsed : Nat
  changed : Map (Nat × Bool)
  deriving DecidableEq, Repr

/-- An occurrence of a code: what its record takes in, and whether it was serialized (17 R482, R484). -/
structure Occ where
  code : Ev
  detail : Nat
  count : Nat
  epoch : Nat
  serialized : Bool
  deriving DecidableEq, Repr

/-- Nutmeg (17 R479 to R491). `tokens` lists only buckets that are not full, `refilled` the Rye cycle of a bucket's last token, or in
which it ceased to be full (R484), `sinceSecond` the codes suppressed since the
last whole second with their numbers. `commitTo` is the copy a running full commit writes (0 or 1), with the snapshot it
took; `lossCommit` the cycle at which a running input-loss commit began; `insPending` and `onSince` what Rye counted per
accelerator since its last insertion. `commitFailed`: the last full commit failed; `lately` is a Rye cycle with the occurrences
that fell in it so far (R486). -/
structure Nutmeg where
  info : Map CodeInfo
  records : Map CodeRec
  tokens : Map Nat
  refilled : Map Nat
  sinceSecond : Map (Nat × Nat)
  copyA : NutCopy
  copyB : NutCopy
  commitTo : Option (Nat × NutData)
  lastFullS : Nat
  lossCommit : Option Nat
  immediate : List Nat
  commitFailed : Bool
  lately : Nat × List Occ
  secondCycle : Nat
  insPending : Map Nat
  onSince : Map Nat
  deriving DecidableEq, Repr

/-! ## Time (02) -/

inductive TimeState
  | free | acquiring | locked | holdover | coarse
  deriving DecidableEq, Repr

/-- The Timothy counter and its servo (02 R43 to R57); `syncOut` is the count of the last edge on SYNC_OUT (R54). `base` is
the 64-bit count and the 32-bit fraction as one number below 2^96, `copy` the main die's copy of the count at the last Rye edge and
`sub` the fabric cycles of 1 ns that it has counted since (R44), `cycles` counts Rye cycles since Rye release (R46). -/
structure Clock where
  base : Nat
  cycles : Nat
  running : Bool
  rc : Bool
  freqPpb : Int
  slew : Int
  state : TimeState
  epoch : Nat
  offset : Int
  below : Nat
  above : Nat
  rejected : Nat
  accepted : Nat
  syncAlone : Bool
  intervalDue : Option Nat
  holdoverDue : Option Nat
  syncOut : Option Nat
  lastAccept : Nat
  copy : Nat
  sub : Nat
  deriving DecidableEq, Repr

/-! ## The tray input, the hold-up and the configuration blocks (01, 08, 18) -/

/-- The converter and hold-up phases (18 R520, R521). -/
inductive Holdup
  | off | charging | failed | released
  deriving DecidableEq, Repr

/-- One stored copy of a settings area (01 R35, 12 R346): its 32-bit sequence number, whether the CRC-32 over the copy holds
(the spec gives the copy no layout, so the CRC itself has no input to compute from), and its settings. -/
structure NorCopy where
  seq : Nat
  valid : Bool
  nums : Map Nat
  blobs : Map (List Byte)
  deriving DecidableEq, Repr

/-- The last commit to a settings area: whether to the RCB, what the two copies held before it, and its cycle (01 R35). -/
structure NorCommit where
  rcb : Bool
  a : NorCopy
  b : NorCopy
  at_ : Nat
  deriving DecidableEq, Repr

/-- The tray input, hold-up and NOR settings (01 R33 to R37, 08 R247 to R250, 18 R520). `norReleased`: the NOR serial lines
are released to the programming balls (01 R36). `vinBadAt` is the cycle in which VIN56 was last outside its window, `pumpDue` the
end of the charge pumps' start while B0 is demanded (08 R247), `trayLowAt` the first of an uninterrupted time in which the tray side
was below 40 V with B0 not ON (08 R249), `levelWas` the level settings as they stood before the writes of cycle `levelAt` (09
R299), `fracAt` and `fosterAt` the last steps of the microsecond
(08 R260, R264). -/
structure Power where
  vin : Rat
  holdup : Holdup
  vinLost : Bool
  vinLow : Bool
  vinLowAt : Nat
  vinStable : Bool
  vinBadAt : Nat
  trayLowAt : Option Nat
  levelAt : Nat
  levelWas : List (Nat × Nat)
  pumpDue : Option Nat
  pumped : Bool
  trayOnCount : Count
  trayOnCycle : Option Nat
  rcbLoaded : Bool
  rcbInvalid : Bool
  rcbA : NorCopy
  rcbB : NorCopy
  norA : NorCopy
  norB : NorCopy
  commit : Option NorCommit
  norReleased : Bool
  fracAt : Nat
  fosterAt : Nat
  nutDone : Bool
  deriving DecidableEq, Repr

/-! ## Branches (08) -/

inductive BrState
  | off | inrush | on | latched | faultFet | held
  deriving DecidableEq, Repr

/-- What the gate driver does: off, the two pull-downs, regulating to I_LIM (a pattern in amperes), charging with RAMP_UA, and
full enhancement (08 R242, R251, R253). -/
inductive Gate
  | off | pd4A | pd100mA | ilim (amps : Nat) | ramp (ua : Nat) | enhance
  deriving DecidableEq, Repr

inductive BrCause
  | none | fast | hardLimit | curve | tfet | tfetSensor | inrushTimer | escalation | upstreamFet | sorghumOt
  deriving DecidableEq, Repr

/-- One branch (08 R239 to R274). `was` is the state at the start of the Rye cycle `wasAt` (R243);
`inMode` to `inTgate` are the inrush settings taken at the entry to INRUSH (R262), `inrushLast` the cycle up to which the inrush
timer has advanced (R252); `lowAt`, `hotAt`, `outAt` and `vdsAt` are the cycles since which VDS is below 1.0 V, BRANCH_T_FET above
T_FET_MAX, the output above VOUT_OFF_MAX, and the condition of VDS_HIGH as it stands now (R251, R263, R267, R272);
`adapted` holds the received currents in force, `adaptedNext` those that wait for their frame's application (07 R214). -/
structure Branch where
  st : BrState
  was : BrState
  wasAt : Nat
  cause : BrCause
  causeAt : Nat
  demand : Bool
  gate : Gate
  en : Bool
  enLow : Bool
  enLowAt : Nat
  zeroStands : Bool
  seated : Bool
  treins : Option Nat
  cur : Rat
  vin : Rat
  vout : Rat
  pulledAt : Nat
  inrushAt : Nat
  inrushUs : Rat
  inrushDone : Bool
  inMode : Nat
  inIlim : Nat
  inTilim : Nat
  inTgate : Nat
  inRampUa : Nat
  inrushLast : Nat
  lowAt : Option Nat
  hotAt : Option Nat
  outAt : Option Nat
  vdsAt : Option Nat
  noRise : Bool
  gateDue : Option Nat
  watchDue : Option Nat
  frac : Rat
  warnArmed : Bool
  theta1 : Rat
  theta2 : Rat
  theta3 : Rat
  tModel : Rat
  tDirect : Rat
  sensorFault : Bool
  hotArmed : Bool
  fGateNoRise : Bool
  fOutputWhileOff : Bool
  fNotCleared : Bool
  fVdsHigh : Bool
  fCleared : Bool
  adapted : Option (List Nat)
  adaptedNext : Option (List Nat)
  adaptedDue : Nat
  onAt : Nat
  inrushJ : Rat
  offsetDone : Bool
  deriving DecidableEq, Repr

/-! ## Rail sequencers (09) -/

inductive SeqState
  | idle | admission | up | pgWindow | on | down | emergency | offWait | held
  deriving DecidableEq, Repr

inductive SeqList
  | none | up | down | emergency
  deriving DecidableEq, Repr

/-- The rows of 09 Table 9.6. -/
inductive LastOff
  | none | trayWide | held | other
  deriving DecidableEq, Repr

/-- The levels of 09 Table 9.1 whose deglitch can run, and THERMTRIP_An_N low, the one fault condition besides them (R292). -/
inductive Level
  | uvFault | uvWarn | ovWarn | ovFault | pgLoss | thermtrip
  deriving DecidableEq, Repr

/-- One rail position (09 R277 to R282, Table 9.11). `running` are the deglitches that run, each with the cycle in which its
condition began (R280). -/
structure Rail where
  v : Rat
  pgIn : Bool
  enabled : Bool
  uvArmed : Bool
  ovArmed : Bool
  uvWarn : Bool
  ovWarn : Bool
  uvFault : Bool
  ovFault : Bool
  earlyCollapse : Bool
  noDischarge : Bool
  collapsed : Bool
  running : List (Level × Nat)
  deriving DecidableEq, Repr

/-- A wait step in progress. -/
inductive Wait
  | pg (rail : Nat) (rising : Bool) (due : Nat)
  | time (due : Nat)
  | level (rail : Nat) (rising : Bool) (due : Nat)
  deriving DecidableEq, Repr

/-- What an accelerator's sequencer and branch held before the END of a list in this cycle: an emergency trigger of the same cycle
comes first (R289). -/
structure EndSnap where
  rails : Vector Rail 16
  out : Vector Bool 8
  br : Branch
  deriving DecidableEq, Repr

/-- One sequencer; number 8 is S_SELF (09 R283 to R297). -/
structure Seq where
  st : SeqState
  was : SeqState
  wasAt : Nat
  kind : SeqList
  list : List Nat
  step : Nat
  stepAt : Nat
  wait : Option Wait
  cause : Nat
  causeRail : Nat
  causeAt : Nat
  offCount : Count
  offCycle : Nat
  lastOff : LastOff
  heldEnd : Nat
  pgood : Bool
  out : Vector Bool 8
  rails : Vector Rail 16
  pgE0 : Nat
  pgFrom : Nat
  pgDirty : Bool
  thermtripN : Bool
  endSnap : Option EndSnap
  retainDown : Bool
  faults : List Nat
  retryDue : Option Nat
  exhausted : Bool
  afterDown : Nat
  upAfter : Bool
  deriving DecidableEq, Repr

/-! ## Accelerators, requests and caps (11, 10) -/

inductive Req
  | none | on | off
  deriving DecidableEq, Repr

/-- A write of a power limit on a management bus (10 R309): which bus and link, the PMBus address, the command and its data. -/
structure LimitWrite where
  bus : Nat
  link : Nat
  address : Nat
  cmd : Nat
  data : Nat
  deriving DecidableEq, Repr

/-- One accelerator (10 R308, R309; 11 R328 to R339). -/
structure Accel where
  reqF : Req
  reqH : Req
  reqS : Req
  reqP : Req
  effective : Bool
  thermalHold : Bool
  leakHold : Bool
  tripAt : Nat
  quarantined : Bool
  faults : List Nat
  temp : Option Rat
  tempAt : Nat
  capPct : Nat
  capW : Rat
  capSource : Nat
  limitDue : Option Rat
  limitInForce : Option Rat
  limitTries : Nat
  limitSent : Option LimitWrite
  limitRetryDue : Option Nat
  deriving DecidableEq, Repr

/-! ## Heat, cooling and leaks (10) -/

/-- The part's own temperatures and throttling (10 R300 to R307). `lastRise` and `lastChange` are the Rye cycles in which LT
last rose and last changed; `restartDue` is the end of the 60 s of R305, `restarting` a restart before reset release,
`retained` whether self rail 0 stayed on and `shut` whether a shutdown has not ended, in THERMAL_SHUTDOWN or in SAFE. -/
structure Heat where
  tMain : Rat
  tSorghum : Rat
  mainSensors : List (Option Int)
  sorghumSensors : List Int
  mainWarn : Bool
  sorghumWarn : Bool
  sorghumOt : Bool
  lt : Nat
  lLevel : Nat
  lastRise : Option Nat
  lastChange : Option Nat
  gridFrom : Nat
  crossed : Bool
  restartDue : Option Nat
  restarting : Bool
  retained : Bool
  shut : Bool
  channels : Vector (Option Rat) 32
  chFault : Vector Bool 32
  deriving DecidableEq, Repr

inductive OutState
  | follow | failsafe | leakClosed | notDriven
  deriving DecidableEq, Repr

/-- What an output's pin carries (10 R311): a 12-bit code of 0 V to 10 V or of 4 mA to 20 mA, or an open-drain PWM of 25 kHz or
1 kHz with its duty in tenths of a percent. -/
inductive OutPin
  | notDriven
  | volts (code : Nat)
  | milliamps (code : Nat)
  | pwm (khz tenths : Nat) (inverted : Bool)
  deriving DecidableEq, Repr

/-- One cooling output (01 R30, R31; 10 R311). -/
structure Output where
  st : OutState
  setPoint : Rat
  delivered : Option Rat
  fresh : Bool
  due : Nat
  applied : Rat
  pin : OutPin
  deriving DecidableEq, Repr

inductive LeakState
  | dry | warn | fault | open | disabled
  deriving DecidableEq, Repr

/-- A leak channel: its last result and how many results in a row met each condition of 10 R316 (below FAULT, below WARN,
above 9 MΩ, above 1.5 WARN, and between the last two). -/
structure LeakCh where
  r : Nat
  st : LeakState
  nFault : Nat
  nWarn : Nat
  nOpen : Nat
  nDry : Nat
  nBack : Nat
  drySince : Nat
  deriving DecidableEq, Repr

inductive ZoneState
  | clear | latched | clearable
  deriving DecidableEq, Repr

/-- Cooling outputs, fans, flows, leak channels and zones (10 R310 to R318). -/
structure Cooling where
  outs : Vector Output 24
  tach : Vector Rat 16
  fanFault : Vector Bool 16
  flow : Vector Rat 12
  flowLow : Vector Bool 12
  leaks : Vector LeakCh 8
  zones : Vector ZoneState 8
  deriving DecidableEq, Repr

/-! ## Part states (11) -/

inductive PartState
  | off | standby | boot | ready | run | safe | thermalShutdown
  deriving DecidableEq, Repr

inductive SafeCause
  | none | bootFailure | sorghumOt | warden
  deriving DecidableEq, Repr

/-- How far Cardamom and Barley have come after reset release (01 R39). -/
inductive BootStep
  | held | puf | keys | stream | train | start | done | failed
  deriving DecidableEq, Repr

/-- The part state and its recovery (11 R320 to R337). -/
structure Part where
  st : PartState
  safeCause : SafeCause
  stateCount : Count
  safeFromRun : Bool
  degraded : Nat
  boot : BootStep
  slotTried : Nat
  reset : Bool
  resetDue : Nat
  fwRestarting : Bool
  crashTimes : List Nat
  strap : Bool
  restorePending : Bool
  restored : Bool
  restoredAt : Count
  deriving DecidableEq, Repr

/-! ## Clove tiles (03) -/

/-- TILE_STATE (03 Table 3.2); `none_` is a tile before its self-test (Table 3.3). -/
inductive TileState
  | none_ | absent | spare | gated | active | failed
  deriving DecidableEq, Repr

/-- A long accumulator: the internal sum on the grid 2^-64 with its sticky flags (03 R94 to R98). -/
structure Column where
  sum : Int
  inv : Bool
  sat : Bool
  trunc : Bool
  deriving DecidableEq, Repr

/-- A burst held at a tile port (03 R88): its Millet channel, the bank, and the Rye cycle from which it waits. -/
structure HeldBurst where
  channel : Nat
  bank : Nat
  since : Nat
  deriving DecidableEq, Repr

/-- The bundle sequencer of a tile (03 R81): the address of its next bundle, the counted loops in progress with the address
of their first bundle and the passes left, the repeats left of the present bundle, and whether END has executed. -/
structure Seqr where
  pc : Nat
  loops : List (Nat × Nat)
  rep : Option Nat
  ended : Bool
  deriving DecidableEq, Repr

/-- A transfer at a tile's send port (03 R82, R83): the next words, the beats left, the logical tile it goes to and its bridge
channel. -/
structure Sending where
  pair : Nat
  word : Nat
  left : Nat
  dst : Nat
  channel : Nat
  deriving DecidableEq, Repr

/-- A beat under way on the mesh or the bridge: its arrival cycle, the physical tiles, and its 512 bits with their mark. -/
structure Beat where
  arrive : Nat
  src : Nat
  dst : Nat
  data : Nat
  bad : Bool
  deriving DecidableEq, Repr

/-- One physical tile (03 R74 to R89). `acc` lists set * 64 + column, `vreg` register * 64 + lane, `vflag` the sticky flags of
the vector lanes (R106), `sram` bank * 4096 + word, `imem` half * 4096 + bundle. `run` is the logical tile whose bundles it
executes in the frame and `seq` where it stands in them, `swaps` the exchanges of OWNER under way with the cycle in which
each takes place (R87). `ueAt` are the Rye cycles of its uncorrectable errors (R77), `beatUe` the same for beats it sent (06
R209), `beatBad` one whose beat is still to be sent, `counted` the poisoned words whose delivery UNCORRECTABLE_WORD has
counted, `log` the per-frame error log of 06 R208, `failNow` a write of TILE_RETIRED that waits for the end of the frame,
`testing` a self-test after a write of 0 (Table 3.3), `swapped` how often each pair has exchanged (R88), `full` that it holds what
was loaded into it or moved to it since it was woken (Table 3.3). -/
structure Tile where
  st : TileState
  full : Bool
  testing : Bool
  ihalf : Nat
  owner : Nat
  swaps : List (Nat × Nat)
  run : Option Nat
  seq : Seqr
  sending : Option Sending
  imemBad : List Nat
  counted : List Nat
  beatBad : Bool
  vflag : Map Nat
  swapped : Map Nat
  ueOffset : Nat
  ueFrame : Nat
  arith : Nat
  ueAt : List Nat
  beatUe : List Nat
  ceAt : List Count
  log : Bool
  failNow : Bool
  badBundle : Bool
  acc : Map Column
  vreg : Map Nat
  vbad : List Nat
  accBad : List Nat
  sram : Map Nat
  poison : List Nat
  imem : Map Nat
  held : List HeldBurst
  deriving DecidableEq, Repr

/-! ## Sessions (04) -/

inductive SesState
  | closed | pending | opened | closing
  deriving DecidableEq, Repr

/-- A descriptor (04 Table 4.2); F32 fields hold their bit patterns. -/
structure Desc where
  cls : Nat
  openBit : Bool
  replica : Bool
  delta : Bool
  notify : Bool
  kind : Nat
  source : Nat
  model : Nat
  codebook : Nat
  scale : Nat
  offset : Nat
  iscale : Nat
  ioffset : Nat
  lane : Nat
  holdF : Nat
  reduce : Nat
  limit : Nat
  switchAt : Nat
  consumer : Nat
  tag : Nat
  inject : Nat
  deriving DecidableEq, Repr

/-- A forecast record (04 Table 4.10). -/
structure Record where
  values : List Nat
  anomaly : Nat
  frameLo : Nat
  token : Nat
  model : Nat
  classcode : Nat
  flags : Nat
  session : Nat
  deriving DecidableEq, Repr

/-- A descriptor waiting for its effective frame, with its accepting count (04 R122). -/
structure Change where
  desc : Desc
  count : Count
  deriving DecidableEq, Repr

/-- A pending model switch (04 R146): `frame` is SWITCH_AT where it is not 0; `readyAt` the count from which the
switch may take effect (the accepting count when resident, the end of the load otherwise). -/
structure Switch where
  model : Nat
  frame : Nat
  count : Count
  readyAt : Option Count
  lane : Nat
  deriving DecidableEq, Repr

/-- The raw sample of a source as Teff holds it (04 R129, R130): LAST and MEAN values, F32; `nominal` is its nominal frame. -/
structure Sample where
  count : Count
  arrival : Count
  value : Nat
  mean : Nat
  late : Bool
  nominal : Nat
  deriving DecidableEq, Repr

/-- A session: descriptor, status (Table 4.3), Teff state (R134), recurrent state and records. `eff` is the descriptor in
force and `effCount` its accepting count; `stopUntil` is the frame in which it advances again after an uncorrectable error
(05 R162), `restoreBase` the checkpoint frame it is then restored from, fixed at the start of the frame after the error
(`some none`: none was committed). `fresh` says that the lane still holds other words than `state`, `copyBad` that the state
carries a poison mark. -/
structure Sess where
  st : SesState
  desc : Desc
  eff : Desc
  effCount : Count
  changes : List Change
  switch : Option Switch
  openReady : Option Count
  closeCount : Option Count
  modelActive : Nat
  lane : Nat
  ltile : Nat
  k : Nat
  phase : Nat
  opener : Option Auth
  sflags : Nat
  lastError : Nat
  openedFrame : Nat
  lastFrame : Nat
  lastToken : Nat
  gaps : Nat
  stales : Nat
  saturations : Nat
  invalids : Nat
  switches : Nat
  mismatches : Nat
  yref : Option Nat
  lastCode : Nat
  held : Nat
  state : List Byte
  fresh : Bool
  record : Option Record
  lastValid : Option Record
  stopUntil : Option Nat
  restoreBase : Option (Option Nat)
  moving : Bool
  poisoned : Bool
  copyBad : Bool
  onTwin : Bool
  satToken : Bool
  lost : Bool
  frameFlags : Nat
  deriving DecidableEq, Repr

/-- A codebook: edges and midpoints (04 R132, R133). -/
structure Codebook where
  edges : List Nat
  mids : List Nat
  deriving DecidableEq, Repr

/-- A map entry and an adapter entry of a model image (04 Table 4.12). -/
structure MapEnt where
  src : Nat
  dst : Nat
  len : Nat
  deriving DecidableEq, Repr

structure Adapter where
  fromShape : Nat
  mapMode : Bool
  entries : List MapEnt
  deriving DecidableEq, Repr

/-- A model image's header and what the part uses of it (04 Table 4.11). -/
structure Model where
  format : Nat
  contract : Nat
  kind : Nat
  shape : Nat
  weightBytes : Nat
  stateBytes : Nat
  vocab : Nat
  window : Nat
  params : Nat
  ops : Nat
  adapters : List Adapter
  init : List Byte
  weights : List Byte
  totalBytes : Nat
  sigOff : Nat
  offsetsOk : Bool
  reservedOk : Bool
  digest : List Byte
  deriving DecidableEq, Repr

inductive LibState
  | empty | verifying | valid | refused
  deriving DecidableEq, Repr

/-- One entry of the model library (04 R144). -/
structure LibEnt where
  st : LibState
  bytes : List Byte
  model : Option Model
  deriving DecidableEq, Repr

/-- A model load, in order of acceptance (04 R147). -/
structure Load where
  model : Nat
  tile : Nat
  slot : Nat
  twin : Option (Nat × Nat)
  started : Bool
  count : Count
  deriving DecidableEq, Repr

/-! ## Ledger, control records, checkpoints and rings (02 R67, 05) -/

/-- A ledger entry (02 Table 2.7). -/
structure LedgerEnt where
  source : Nat
  kind : Nat
  shift : Nat
  lateNs : Nat
  sample : Count
  deriving DecidableEq, Repr

/-- A frame's ledger (02 Table 2.6). -/
structure FrameLedger where
  frame : Nat
  start : Count
  epoch : Nat
  dropped : Nat
  skipped : Bool
  notLocked : Bool
  sliced : Bool
  uncorrectable : Bool
  gaps : Nat
  entries : List LedgerEnt
  deriving DecidableEq, Repr

/-- What a control record carries (05 Table 5.7). -/
inductive CtrlPay
  | none
  | desc (d : Desc)
  | bytes (bs : List Byte)
  deriving DecidableEq, Repr

/-- A control record (05 Table 5.6); kinds 1 DESCRIPTOR to 8 SELECT. -/
structure Ctrl where
  kind : Nat
  flags : Nat
  session : Nat
  aux : Nat
  accepted : Count
  payload : CtrlPay
  deriving DecidableEq, Repr

/-- A full-ring block (05 R169, Table 5.5). A skipped frame has no tokens. -/
structure RingBlock where
  ledger : FrameLedger
  tokens : Map Nat
  yrefs : Map Nat
  controls : List Ctrl
  recordCrc : Nat
  ckptCrc : Nat
  deriving DecidableEq, Repr

/-- A decimated-ring block (05 R171): `sel` are the sessions selected in its frame. -/
structure DecBlock where
  sel : List Nat
  frame : Nat
  flags : Nat
  recordCrc : Nat
  tokens : Map Nat
  yrefs : Map Nat
  controls : List Ctrl
  deriving DecidableEq, Repr

/-- A checkpoint entry (05 Table 5.3). -/
structure CkptEnt where
  session : Nat
  carried : Bool
  init : Bool
  stateFrame : Nat
  desc : Desc
  yref : Option Nat
  lastCode : Nat
  held : Nat
  lastRecord : Option Record
  modelActive : Nat
  k : Nat
  phase : Nat
  state : List Byte
  deriving DecidableEq, Repr

/-- A checkpoint (05 Table 5.2); `start` is the start count of its frame. -/
structure Ckpt where
  frame : Nat
  start : Count
  entries : List CkptEnt
  deriving DecidableEq, Repr

/-- A descriptor write accepted after a checkpoint, for reapplication (05 R163). -/
structure DescWrite where
  session : Nat
  desc : Desc
  auth : Auth
  count : Count
  deriving DecidableEq, Repr

inductive RingState
  | recording | frozen | replaying | idle
  deriving DecidableEq, Repr

inductive ReplayState
  | idle | running | done | mismatch | refused
  deriving DecidableEq, Repr

/-- An export as the replaying part reads it (05 R173, Table 5.10). -/
structure Export where
  crcOk : Bool
  format : Nat
  which : Nat
  contract : Nat
  nL : Nat
  period : Nat
  first : Nat
  last : Nat
  images : List (Nat × List Byte)
  models : List (Nat × List Byte)
  codebooks : Map Codebook
  base : Ckpt
  blocks : List RingBlock
  bytes : Nat
  deriving DecidableEq, Repr

/-- The capture rings and a replay (05 R168 to R179). `select` is the value of LONG_CAPTURE in force for blocks, `images` the
images in force by first frame with N_L, `kept` the checkpoints a replay keeps, `books` the codebook store while a replay uses
that of its export. -/
structure Rings where
  select : List Byte
  images : List (Nat × Nat × List Byte)
  kept : List Ckpt
  books : Map Codebook
  st : RingState
  blocks : List RingBlock
  bases : List Ckpt
  dec : List DecBlock
  decBases : List Ckpt
  trigger : Option Nat
  freezeDue : Option Nat
  trigsIgnored : Nat
  exports : List Nat
  replay : ReplayState
  exp : Option Export
  rest : List RingBlock
  deriving DecidableEq, Repr

/-! ## The engine and its frames (02, 04 R150) -/

/-- A sample whose actual frame is later than the next one. -/
structure Early where
  frame : Nat
  nominal : Nat
  source : Nat
  sample : Sample
  deriving DecidableEq, Repr

/-- What INGEST gives a lane (04 R150): its input word, the slot its selector names, and whether a session that advances
unmasks it. -/
structure LaneIn where
  token : Nat
  slot : Nat
  runs : Bool
  deriving DecidableEq, Repr

/-- The engine. `cycle` is the cycle to which the frame has run, `beats` what is on the mesh and the bridge, `inputs` what
INGEST gave the lanes, `raws` the raw output words that tiles have sent to Teff with their marks, `deriving_` the derived values
of an EMIT window that has not ended, `rawFrom` and `deriveFrom` the tiles that sent them, `derived` those on the board, `derivedOld` those before the main EMIT window that ended at
`derivedEnd`, `derivedBad` the marked ones. `samples` are the samples latched last, `reuse` those that sessions may reuse (04
R134). `ledgers` is the input ledger by frame (02 R67). `nextTokens`, `nextLedger` and `teff` are what Teff formed at the cutoff of the next frame, `nextControls` the control
records that stand in it, `cutControls` those that stand in the first frame skipped after a stop. `frame` is the frame that runs or ran last, `cutoff` the frame whose inputs are latched, `skipBase`
and `skipDiv` the S and D of 10 R303. -/
structure Engine where
  running : Bool
  stopped : Bool
  frame : Nat
  any : Bool
  cycle : Nat
  beats : List Beat
  inputs : Map LaneIn
  raws : Map (Nat × Bool)
  deriving_ : Map (Nat × Bool)
  rawFrom : Map Nat
  deriveFrom : Map Nat
  derivedOld : Map Nat
  derivedEnd : Count
  derivedBad : List Nat
  reuse : Map Sample
  cutoff : Option Nat
  next : Nat
  skipBase : Nat
  skipDiv : Nat
  p0Done : Bool
  mainDone : Bool
  tiles : Vector Tile 68
  sess : Map Sess
  books : Map Codebook
  lib : Map LibEnt
  slots : Map Nat
  loads : List Load
  samples : Map Sample
  arriving : Map Sample
  early : List Early
  cur : FrameLedger
  ledgers : Map FrameLedger
  tokens : Map Nat
  yrefs : Map Nat
  controls : List Ctrl
  nextTokens : Map Nat
  nextControls : List Ctrl
  cutControls : List Ctrl
  nextLedger : FrameLedger
  teff : Map Sess
  records : Map Record
  output : List (Nat × Nat × Record)
  derived : Map Nat
  bufA : Option Ckpt
  bufB : Option Ckpt
  newest : Nat
  writing : Option Ckpt
  ckptStale : Bool
  writes : List DescWrite
  ring : Rings
  deriving DecidableEq, Repr

/-! ## Schedule images and binding (06) -/

/-- A logical tile of an image (Table 6.4); `init` is its SRAM_INIT, pair * 4096 + word, `code` its bundles. -/
structure LTile where
  tier : Nat
  foldMax : Nat
  pairs : Nat
  ownerInit : Nat
  bundles : Nat
  lanes : Nat
  sends : Bool
  stateBytes : Nat
  init : Map Nat
  code : List Nat
  deriving DecidableEq, Repr

structure SlotEnt where
  ltile : Nat
  slot : Nat
  shape : Nat
  cap : Nat
  addr : Nat
  deriving DecidableEq, Repr

structure LaneEnt where
  ltile : Nat
  cls : Nat
  shape : Nat
  twin : Option Nat
  stateAddr : Nat
  deriving DecidableEq, Repr

structure BoardEnt where
  region : Nat
  count : Nat
  offset : Nat
  length : Nat
  deriving DecidableEq, Repr

structure CkptMapEnt where
  ltile : Nat
  lane : Nat
  pair : Nat
  bankOff : Nat
  length : Nat
  deriving DecidableEq, Repr

/-- A schedule image as the part reads it from its bytes (06 Tables 6.2 to 6.8). `fieldsOk`: the section table, the reserved
fields and the lengths; `layoutOk`: LAYOUT_DIGEST as the part computes it. -/
structure Image where
  format : Nat
  contract : Nat
  period : Nat
  nL : Nat
  n0 : Nat
  lockstep : Bool
  emitStart : Nat
  sections : Nat
  totalBytes : Nat
  opsTotal : Nat
  opsP0 : Nat
  stateTotal : Nat
  boardBytes : Nat
  p0Lanes : Nat
  layoutDigest : List Byte
  layoutOk : Bool
  fieldsOk : Bool
  sigOff : Nat
  digest : List Byte
  ltiles : List LTile
  slots : List SlotEnt
  lanes : List LaneEnt
  board : List BoardEnt
  ckptMap : List CkptMapEnt
  deriving DecidableEq, Repr

inductive ImgState
  | empty | verifying | valid | refused | armed | inForce
  deriving DecidableEq, Repr

structure ImgEnt where
  st : ImgState
  bytes : List Byte
  image : Option Image
  deriving DecidableEq, Repr

/-- The binding of a logical tile (06 Table 6.11). -/
structure Bind where
  ptile : Option Nat
  fold : Nat
  member : Nat
  hold : Bool
  tier : Nat
  deriving DecidableEq, Repr

/-- A pending plan (06 R204): its switch frame, hold, and the binding it brings. `reason`: 0 ordinary, 1 the
loss of a domain (its sessions are restored at S), 2 an activation. -/
structure Plan where
  s : Nat
  h : Nat
  held : List Nat
  binds : List Bind
  fold1 : Nat
  fold2 : Nat
  cap : Nat
  div : Nat
  lost : List Nat
  deriving DecidableEq, Repr

/-- A spare replacement (06 R206). -/
structure Repl where
  s : Nat
  h : Nat
  ltile : Nat
  old : Nat
  tile : Nat
  deriving DecidableEq, Repr

/-- What waits for an armed entry (06 R194 to R196): its loads in READY, a HOT frame E, or checkpoint frame C. -/
inductive Activation
  | none
  | ready (entry : Nat)
  | hot (entry : Nat) (loaded : Option Count)
  | coldWait (entry : Nat) (c : Nat)
  deriving DecidableEq, Repr

/-- The image store, the image in force and the binding (06). `coldStop` is a COLD activation between its frames C and J, with
its entry, C and J; `replayOf` the entry whose image a replay runs (05 R176); `cap` and `div` are USABLE_CAP and the skip
divisor that throttling asks for (10 R303), `spareAt` the tiles that were SPARE when the image took force (11 R323). -/
structure Images where
  store : Vector ImgEnt 4
  armed : Option Nat
  inForce : Option Nat
  spareAt : List Nat
  cold : Bool
  act : Activation
  coldStop : Option (Nat × Nat × Nat)
  replayOf : Option Nat
  armFrame : Nat
  binds : List Bind
  lostDom : Vector Bool 2
  fold1 : Nat
  fold2 : Nat
  cap : Nat
  div : Nat
  plan : Option Plan
  repls : List Repl
  deriving DecidableEq, Repr

/-! ## Anise (07) -/

structure WEnt where
  kind : Nat
  sel : Nat
  index : Nat
  gain : Nat
  deriving DecidableEq, Repr

structure NodeEnt where
  fixed : Bool
  derived : Option Nat
  w : Nat
  c : Nat
  deriving DecidableEq, Repr

structure EdgeEnt where
  src : Nat
  dst : Nat
  g : Nat
  deriving DecidableEq, Repr

structure HeatEnt where
  node : Nat
  w : Nat
  k : Nat
  deriving DecidableEq, Repr

/-- An MPC problem; matrices by rows, F64 patterns (07 Table 7.3). -/
structure Problem where
  n : Nat
  nu : Nat
  m : Nat
  rho : Nat
  sigma : Nat
  alpha : Nat
  q0 : List Nat
  f : List (List Nat)
  minv : List (List Nat)
  a : List (List Nat)
  l : List Nat
  h : List Nat
  rowOut : List (Option Nat)
  deriving DecidableEq, Repr

structure LoopEnt where
  meas : Nat
  ffFirst : Nat
  ffCount : Nat
  kp : Nat
  ki : Nat
  kff : Nat
  target0 : Nat
  deriving DecidableEq, Repr

/-- An output binding: `source` 0 NONE, 1 FIXED, 2 LOOP, 3 MPC. -/
structure OutEnt where
  source : Nat
  idx : Nat
  sub : Nat
  value : Nat
  deriving DecidableEq, Repr

structure RuleEnt where
  session : Nat
  accel : Nat
  component : Nat
  index : Nat
  window : Nat
  count : Nat
  clear : Nat
  limit : Nat
  classMask : Nat
  deriving DecidableEq, Repr

/-- An Anise program (07 Tables 7.2 and 7.3). `fieldsOk` stands for the fields this structure does not carry (FORMAT and the
reserved ones), `digest` for SHAKE256-512 of the bytes. -/
structure Program where
  iters : Nat
  w : List WEnt
  nodes : List NodeEnt
  edges : List EdgeEnt
  heats : List HeatEnt
  problems : List Problem
  loops : List LoopEnt
  outs : List OutEnt
  rules : List RuleEnt
  fieldsOk : Bool
  digest : List Byte
  deriving DecidableEq, Repr

/-- The warm start of a problem and its last valid u (07 R221, R222). -/
structure MpcState where
  x : List Nat
  z : List Nat
  y : List Nat
  u : Option (List Nat)
  deriving DecidableEq, Repr

/-- A rule's window of evaluated conditions, newest first, and its flag (07 R234). -/
structure RuleState where
  seen : List Bool
  clean : Nat
  flag : Bool
  deriving DecidableEq, Repr

inductive ProgState
  | none | checking | inForce | refused
  deriving DecidableEq, Repr

/-- A concord program (07 Table 7.8, 0x4860). -/
structure ConcordProg where
  trays : Nat
  index : Nat
  session : Nat
  rackCap : Nat
  floor : Nat
  margin : Nat
  weight : Nat
  group : List Byte
  deriving DecidableEq, Repr

/-- One result R(n) (07 R236): shares, digest, and whether a summary of frame n was missing. -/
structure ConcordRes where
  frame : Nat
  shares : List Nat
  digest : List Byte
  lacked : Bool
  locked : Bool
  deriving DecidableEq, Repr

/-- A concord summary as it is sent and received (07 Table 7.7); F64 patterns. -/
structure Summary where
  format : Nat
  trays : Nat
  index : Nat
  flags : Nat
  frame : Nat
  program : List Byte
  floor : Nat
  demand : Nat
  weight : Nat
  cap : Nat
  prev : List Byte
  deriving DecidableEq, Repr

inductive ConcordState
  | off | converged | diverged
  deriving DecidableEq, Repr

/-- What the frame job of unit 0 found before it ran in the frame or tick `at_`: an uncorrectable error in the job puts it
back (07 R217). -/
structure JobsBack where
  at_ : Nat
  integ : List Nat
  set : List (Option Nat)
  rules : List RuleState
  results : List ConcordRes
  cstate : ConcordState
  cap : Option Nat
  judged : Nat
  prevDiverged : Bool
  deriving DecidableEq, Repr

/-- Anise (07). `set` holds the last set point of each output, `ready` the new program that starts at the next tick, `ticking`
that a tick is in progress, `present` the PRESENT value of each class P0 session with an ANT consumer, `formed`, `curves` and
`sent` what is on its way to Rye through Straw, `words` the ANT word delivered with its frame, `antLine` what each link sent in
its last slot and `antPins` the levels of its pair in that slot, one per half bit of 5 ns (R226), `jobsBack` and `gBack` what an
uncorrectable error puts back, `jobsUe` that one was found before the job of the frame or tick ran, `reload` that the program is
read again from its copy before the next tick (R217), `antSet` the accepting count of the last change of ANT_ENABLE with the
value before it. `jobsFrame` and `antFrame` are the frames whose windows ran last, `firstRun` the Rye cycle of the first frame
after Anise started (R232), `sentFrame` the frame of the last concord summary, `judged` the results judged since it started
(R238). -/
structure Anise where
  st : ProgState
  prog : Option Program
  ready : Option Program
  ticking : Bool
  tick : Nat
  w : List Nat
  temps : List Nat
  integ : List Nat
  mpc : List MpcState
  newTemps : Option (List Nat)
  newMpc : Option (List MpcState)
  set : List (Option Nat)
  rules : List RuleState
  g : Vector Nat 12
  jobsFrame : Option Nat
  antFrame : Option Nat
  firstRun : Option Nat
  present : Map Nat
  formed : Vector (Option (Nat × Nat)) 8
  curves : Vector (Option (List Nat)) 12
  sent : Vector (Option Nat) 24
  words : Vector (Option (Nat × Nat)) 8
  antLine : Vector (Option Nat) 8
  antPins : Vector (List Bool) 8
  jobsBack : Option JobsBack
  gBack : Option (Nat × Vector Nat 12)
  jobsUe : Bool
  reload : Bool
  antSet : Vector (Option (Count × Nat)) 8
  sums : List Summary
  results : List ConcordRes
  cstate : ConcordState
  cap : Option Nat
  judged : Nat
  prevDiverged : Bool
  sentFrame : Option Nat
  deriving DecidableEq, Repr

/-! ## Power reports (17 R495 to R499) -/

/-- One channel: the running sums of its window and blocks, its energy in units of 2^-32 J, and the Rye cycle in which its
last window ended, with the count at which that window began; `fresh` while no window has ended since the last PEAK_RESET.
`whole` lists the blocks (0 second, 1 minute, 2 hour) whose present one has been summed from its start. -/
structure PowerCh where
  p : Rat
  win : Rat
  winN : Nat
  sec : Rat
  secN : Nat
  mnt : Rat
  mntN : Nat
  hour : Rat
  hourN : Nat
  peakSec : Option Nat
  energy : Nat
  winAt : Option Nat
  winFrom : Count
  fresh : Bool
  whole : List Nat
  deriving DecidableEq, Repr

/-! ## ODA (12 R351 to R380) -/

/-- What a request asks, as the replay cache compares it (12 R372). -/
inductive ReqBody
  | read (key ty : Nat) (describe : Bool)
  | write (key ty : Nat) (v : Value)
  | readMulti (items : List (Nat × Nat))
  | writeMulti (steps : List (Nat × Nat × Value))
  | subscribe (sub kind period : Nat) (items : List (Nat × Nat))
  | block (sub blockId key offset total : Nat) (data : List Byte)
  deriving DecidableEq, Repr

/-- The last answer of the dictionary engine: STATUS, COUNT, and what the payload holds (12 R359 to R361, R367); `object` is the
object of a BLOCK response. -/
structure Answer where
  sess : Nat
  txn : Nat
  status : Nat
  count : Count
  duplicate : Bool
  held : Bool
  done : Nat
  failed : Nat
  accepted : List Count
  items : List (Nat × Nat × Option Value)
  object : Nat
  deriving DecidableEq, Repr

/-- One subscription (12 R362 to R365). `kind`: 1 PERIODIC, 2 EVENTS, 3 FAULTS. -/
structure Subscr where
  kind : Nat
  period : Nat
  items : List (Nat × Nat)
  nextTxn : Nat
  held : List EvRec
  heldDue : Option Count
  sent : Option (Bool × Nat)
  deriving DecidableEq, Repr

/-- One open block transfer (12 R367 to R370). -/
structure Xfer where
  key : Nat
  write : Bool
  total : Nat
  staged : Map Byte
  snap : List Byte
  due : Nat
  deriving DecidableEq, Repr

/-- A quote and its count (16 R470). -/
structure Quote where
  state : PartState
  timeState : TimeState
  epoch : Nat
  count : Count
  nonce : List Byte
  log : List Byte
  entries : Nat
  bootCount : Nat
  generation : Nat
  counters : List Nat
  library : List Byte
  image : List Byte
  owner : List Byte
  fwVersion : Nat
  signed : Bool
  sig : List Byte
  deriving DecidableEq, Repr

/-- What a chain is rooted in: an owner key slot, or a leaf that signs itself. -/
inductive Root
  | slot (k : Nat)
  | itself
  | unknown
  deriving DecidableEq, Repr

/-- One ODA session: pending after SETUP_REPLY, or open (12 R356, 16 R471 to R475). `ss` and `h2` are the shared secret and the
digest of its setup, the keys and salts what both sides take from them (16 R473). -/
structure Session where
  pending : Bool
  setupId : Nat
  peer : List Byte
  place : Nat
  auth : Auth
  port : Nat
  redundant : Bool
  timeUnchecked : Bool
  root : Root
  chain : List (List Byte)
  outstanding : Nat
  lastRx : Nat
  txSeq : Nat
  rxHigh : Nat
  rxSeen : List Nat
  due : Nat
  subs : Map Subscr
  blocks : Map Xfer
  quote : Option Quote
  macsecReqs : Nat
  ss : List Byte
  h2 : List Byte
  keyPd : List Byte
  keyDp : List Byte
  saltPd : List Byte
  saltDp : List Byte
  deriving DecidableEq, Repr

/-- STATUS of a ledger entry (12 R376). -/
inductive TxStatus
  | notSeen | inProgress | applied | partialDone | rejected | notHeld
  deriving DecidableEq, Repr

/-- One ledger entry (12 Table 12.16), with the content against which a repeat is compared (R372); a fenced TXN has none. -/
structure Ledger where
  txn : Nat
  count : Count
  status : TxStatus
  op : Nat
  steps : Nat
  done : Nat
  code : Nat
  body : Option ReqBody
  deriving DecidableEq, Repr

/-- One replay-cache entry (12 R372): the content, none for a fenced TXN, and the recorded answer once completed. `due` is in
Rye cycles. -/
structure Cached where
  txn : Nat
  body : Option ReqBody
  answer : Option Answer
  due : Nat
  deriving DecidableEq, Repr

/-- One of the 32 peer places (12 R371 to R375). `lastAt` is the Rye cycle at which its last recorded transaction ended. -/
structure Peer where
  id : List Byte
  auth : Auth
  floor : Nat
  ledger : List Ledger
  cache : List Cached
  lastTxn : Nat
  lastCount : Count
  lastAt : Nat
  deriving DecidableEq, Repr

/-- Why a transaction in progress waits: for its commit, the firmware, a take-over, or an earlier write of the same object
(12 R352, R354, 15 R435, R450). -/
inductive Waiting
  | nor | fw (tag : Nat) | hold | behind
  deriving DecidableEq, Repr

/-- A request in progress: the steps (key, TYPE, value) not yet applied, the accepting counts so far, and the items of a read.
For a READ_MULTI the first components of `steps` are the positions of the items that wait. `arrival` numbers the requests in the
order in which the engine received them. -/
structure Pending where
  sess : Nat
  place : Nat
  auth : Auth
  txn : Nat
  op : Nat
  body : ReqBody
  steps : List (Nat × Nat × Value)
  accepted : List Count
  items : List (Nat × Nat × Option Value)
  held : Bool
  waiting : Waiting
  arrival : Nat
  deriving DecidableEq, Repr

/-- The fragments of one SETUP_INIT so far, by number (16 R472). -/
structure Setup where
  frags : Nat
  parts : Map (List Byte)
  deriving DecidableEq, Repr

/-- What the parser finds in one certificate of a chain (16 R471): that it has the form R471 asks for, that its signature
verifies under the next one or the root, the authorities its subject names, and its validity in seconds (log 22). -/
structure Cert where
  wellFormed : Bool
  sigOk : Bool
  names : List Auth
  notBefore : Nat
  notAfter : Nat
  deriving DecidableEq, Repr

/-- The dictionary engine (12). `serving`: started (01 R39). `bare`: started by Cardamom after a boot failure (11 R324).
`nextReq` numbers the requests; `landing` are the commits that Sorghum still carries out after a main-die reset (R354, R378). -/
structure Oda where
  serving : Bool
  bare : Bool
  sessions : Map Session
  nextSess : Nat
  peers : Map Peer
  waiting : List Pending
  nextTag : Nat
  nextBlock : Nat
  answer : Option Answer
  setups : Map Setup
  nextReq : Nat
  landing : List Pending
  deriving DecidableEq, Repr

/-! ## Ports (13) -/

inductive Link
  | down | training | up100 | up200
  deriving DecidableEq, Repr

/-- What the part sends. `delayReq` is a Delay_Req, or a Pdelay_Req, with its egress stamp; `tagged` is a message under an R-TAG, the
number of its stream; `announce` carries the address it goes to, 16 bytes of IPv6 or 4 of IPv4. -/
inductive Msg
  | announce (group : List Byte) (state : PartState) (port epoch seqFirst seqLast : Nat)
  | response (a : Answer)
  | notifyPeriodic (sess sub txn : Nat) (frame : Option Nat) (items : List (Nat × Option Value))
  | notifyEvents (sess sub txn : Nat) (recs : List EvRec)
  | udpGroup (group : List Byte) (port : Nat) (payload : List Byte) (rtag : Nat)
  | ptpSync (count epoch : Nat)
  | pdelayResp (rx : Count)
  | delayReq (peer : Bool) (tx : Count)
  | tagged (stream num : Nat) (m : Msg)
  | nack (first frames : Nat)
  | netReply (kind : Nat)
  | setupReply (sess id : Nat) (body : List Byte)
  | setupAbort (code : Nat)
  | setupDone (sess : Nat) (auth : Auth)
  deriving DecidableEq, Repr

/-- One entry of a gate control list (13 Table 13.3). -/
structure GateEntry where
  gates : Nat
  interval : Nat
  deriving DecidableEq, Repr

/-- A gate control list. -/
structure GateList where
  cycle : Nat
  entries : List GateEntry
  deriving DecidableEq, Repr

/-- The grandmaster a port's PTP announces, as the best-master comparison reads it (02 R53, 13 R392). -/
structure Grandmaster where
  priority1 : Nat
  clockClass : Nat
  accuracy : Nat
  variance : Nat
  priority2 : Nat
  identity : Nat
  steps : Nat
  deriving DecidableEq, Repr

/-- The stamps of a path delay exchange, if one ended with the message: the master's receipt of the part's Delay_Req, or the peer's
receipt and answer of its Pdelay_Req with the part's raw stamp of that answer and the latency of the codeword that carried it
(13 R391, R392). -/
inductive PathDelay
  | unchanged
  | request (rx : Int)
  | peer (rx answered back : Int) (decoder : Nat)
  deriving DecidableEq, Repr

/-- A PTP Sync, with its Follow_Up where it is two-step: its domain, the grandmaster in force on the port, the interval of
Sync messages in ns, the origin time in ns with its corrections, the calibrated delay of the PMA and PMD, and the decoder
latency of the codeword that carried it (13 R391). -/
structure PtpIn where
  domain : Nat
  gm : Grandmaster
  interval : Nat
  origin : Nat
  pma : Nat
  decoder : Nat
  path : PathDelay
  deriving DecidableEq, Repr

/-- What a sent frame carries round its message: the VLAN tag (13 R381), and of a protected frame the association number, the packet
number and the SCI (13 R394). -/
structure FrameTag where
  vlan : Option Nat
  sec : Option (Nat × Nat × List Byte)
  deriving DecidableEq, Repr

/-- A key as it is installed: SAK, salt, and the SSCI of the part's channel and of its link partner's (13 R395, 16 R476). -/
structure Sak where
  key : List Byte
  salt : List Byte
  ssci : Nat
  peerSsci : Nat
  deriving DecidableEq, Repr

/-- An association of before the last key, received until a Rye cycle, with its replay window. -/
structure OldAssoc where
  an : Nat
  due : Nat
  pn : Nat
  seen : List Nat
  deriving DecidableEq, Repr

/-- One host port (13 R381 to R395). `queue` holds frames behind closed gates, `line` what was sent, in order; `gm`,
`syncStamp`, `syncNs` and `pathNs` are the grandmaster, the corrected stamp of the last Sync, its interval and the mean
path delay of the port's PTP; `gmDue` ends the time in which the last Sync counts, `reqAt` is the egress stamp of the last delay
request. `tags` says of each frame of `line` how it went, `older` holds the associations before the old one that are still received,
and `gatesFrom` is the count before which a stepped count leaves the gates as they are (R387). -/
structure HostPort where
  link : Link
  longDrops : Nat
  autonegDue : Option Nat
  queue : List (Nat × Msg)
  line : List (Nat × Msg)
  gates : GateList
  gatesNext : Option (GateList × Count)
  open_ : Nat
  entry : Nat
  an : Option Nat
  txAn : Option Nat
  txDue : Option Count
  oldAn : Option Nat
  oldDue : Nat
  oldPn : Nat
  oldSeen : List Nat
  txPn : Nat
  pnLow : Bool
  rxPn : Nat
  rxSeen : List Nat
  keys : Map Sak
  gm : Option Grandmaster
  syncStamp : Int
  syncNs : Nat
  pathNs : Int
  gmDue : Nat
  reqAt : Option Count
  tags : List FrameTag
  older : List OldAssoc
  gatesFrom : Count
  deriving DecidableEq, Repr

inductive SbLink
  | down | training | up
  deriving DecidableEq, Repr

/-- One sideband port (13 R396 to R399): the last SEQ, the frames named in a NACK and not yet resent, the frames dropped for
their FCS since the last good one, and what was sent. -/
structure SbPort where
  link : SbLink
  last : Option Nat
  missing : List Nat
  spoiled : Nat
  line : List Msg
  deriving DecidableEq, Repr

/-- The vector recovery of one stream (13 R388): the highest number taken, those of the last 32 taken, and the cycle of the
last frame. -/
structure Recovery where
  num : Nat
  hist : List Nat
  at_ : Nat
  deriving DecidableEq, Repr

/-- All ports. `rtagTx` holds the next R-TAG number of each stream, 0 the concord summaries and n session n; `svcOn` is the SGMII
transmitter of the service port and SVC_PHY_RST_N (13 R388, R389, R400). -/
structure Ports where
  host : Vector HostPort 2
  sb : Vector SbPort 8
  svcOn : Bool
  svcUp : Bool
  svcLine : List (Nat × Msg)
  rtagTx : Map Nat
  recovered : Map Recovery
  followed : Option Nat
  sbSyncDue : Nat
  deriving DecidableEq, Repr

/-- A protected ODA message as the port's security engine finds it (16 R474): its SEQ, whether the tag verifies, and the message
itself, header and opened payload (12 Table 12.7). -/
structure OdaIn where
  seq : Nat
  tagOk : Bool
  msg : List Byte
  deriving DecidableEq, Repr

/-- What a received frame carries (13 R394). -/
inductive FrameKind
  | ptp | arpNd | icmp | announce | setup | other
  | oda (x : OdaIn)
  deriving DecidableEq, Repr

/-- A frame on a host port: its length, the codewords the decoder corrected and could not correct, the association number and
packet number of a protected frame with the outcome of its ICV, the R-TAG with its stream, and what it carries. -/
structure FrameIn where
  len : Nat
  corrected : Nat
  uncorrectable : Nat
  prot : Option (Nat × Nat × Bool)
  rtag : Option (Nat × Nat)
  kind : FrameKind
  deriving DecidableEq, Repr

/-! ## Memory, Millet and sync cells (14) -/

/-- STATE of a DMA channel (14 Table 14.8). -/
inductive DmaState
  | idle | ready | running | done | halted
  deriving DecidableEq, Repr

/-- A list entry of a run (14 R413). -/
structure DmaEntry where
  addr : Nat
  len : Nat
  flags : Nat
  deriving DecidableEq, Repr

/-- One burst of a run (14 R416): its stream offset and length, and on each side the entry, the address and FIXED. -/
structure Burst where
  off : Nat
  len : Nat
  srcEntry : Nat
  src : Nat
  srcFixed : Bool
  dstEntry : Nat
  dst : Nat
  dstFixed : Bool
  deriving DecidableEq, Repr

/-- One Millet channel: MA 0 to 15 are 0 to 15, MB 0 to 15 are 16 to 31 (14 Table 14.6). `src` and `dst` are the lists read at GO;
`due` the completion signals not yet released (R419). `ctl` and `compl` are CTRL and COMPL as last written, `swap` to `amount`
the values a run took at GO, `reached` the tile banks its bursts have
reached with the exchanges of their pair by then (03 R88); `jobs` are the runs that a transfer of the frame sequencer still needs,
by their bytes (R411), `startAt` the Rye cycle in which the run began, from which SHARE paces it (R417). -/
structure DmaCh where
  st : DmaState
  ctl : Nat
  compl : Nat
  enable : Bool
  irqEn : Bool
  swap : Nat
  share : Nat
  core : Nat
  srcList : Nat
  dstList : Nat
  srcCount : Nat
  dstCount : Nat
  cell : Nat
  signalEn : Bool
  amount : Nat
  bytesDone : Nat
  errAddr : Nat
  errEntry : Nat
  errCause : Nat
  errDir : Bool
  runs : Nat
  src : List DmaEntry
  dst : List DmaEntry
  due : List (Nat × Nat)
  reached : Map Nat
  jobs : List Nat
  startAt : Nat
  deriving DecidableEq, Repr

/-- A firmware image as far as the part acts on it (15 Table 15.9). `objects` is its declaration table, `layout` its
RCB_LAYOUT_DIGEST, and `trusted` holds when its signature block verifies (16 R460), `flags` the FLAGS of the entries (12
Table 12.4). -/
structure FwImage where
  version : Nat
  rollback : Nat
  handover : Nat
  acceptMin : Nat
  totalBytes : Nat
  digest : List Byte
  objects : List Entry
  flags : Map Nat
  layout : List Byte
  trusted : Bool
  deriving DecidableEq, Repr

/-- What the hardware keeps in a region of LPDDR4X (14 Table 14.1). -/
inductive Kept
  | books (m : Map Codebook)
  | program (p : Option Program)
  | history (l : List EvRec)
  | library (m : Map LibEnt)
  | images (v : Vector ImgEnt 4)
  | staging (m : Map (Map Xfer))
  | rings (dec : List DecBlock) (bases : List Ckpt)
  | full (blocks : List RingBlock) (bases : List Ckpt) (bufA bufB : Option Ckpt)
  | firmware (x : Option FwImage)
  deriving DecidableEq, Repr

/-- One wait slot (14 Table 14.12). -/
structure WaitSlot where
  cell : Nat
  arm : Bool
  fired : Bool
  irq : Bool
  event : Bool
  core : Nat
  threshold : Nat
  seen : Nat
  deriving DecidableEq, Repr

inductive MemState
  | untrained | ready | selfRefresh | failed
  deriving DecidableEq, Repr

/-- LPDDR4X, core-local SRAM, the 32 channels, the sync cells and the wait slots (14). `poison` lists the addresses of
poisoned granules, `refreshed` counts the refreshes (R404). -/
structure Mem where
  st : MemState
  ram : Map Byte
  poison : List Nat
  retained : Bool
  dma : Vector DmaCh 32
  runA : Option Nat
  runB : Option Nat
  cells : Map Nat
  slots : Map WaitSlot
  refreshed : Nat
  refreshFast : Bool
  scrubFrom : Nat
  deriving DecidableEq, Repr

/-! ## Work and inputs that commands carry -/

/-- Element formats (03 Table 3.7). -/
inductive Elem
  | int8 | int4 | mxInt8 | e4m3 | e5m2 | e3m2 | e2m3 | e2m1 | bf16
  deriving DecidableEq, Repr

/-- A block of elements in compute space: the pair, the first word of its array and the block's index, with the pair and the
first word of the scale array, where there is one (03 R91, R92). With `slotOf` the places count from the weights of the slot
that this lane's selector names (04 R150). -/
structure BlockRef where
  pair : Nat
  base : Nat
  block : Nat
  scale : Option (Nat × Nat)
  slotOf : Option Nat
  deriving DecidableEq, Repr

/-- Vector operations (03 R104, R105, R107, R116). -/
inductive VecOp
  | add | sub | mul | fma | iadd | isub | imul | toInt | exp | recip | rsqrt | log | tanh | sigmoid | expSub | norm
  deriving DecidableEq, Repr

/-- What the slots of a bundle other than CONTROL do (03 Table 3.4). Their encodings are not in the spec, so this is the form
in which `Config.decodeBundle` answers (log 22). The lane mask of a row is an operand of its operation, because R116 says only that the
row carries it, not from where (DESIGN CHOICE, log 22). `lanes` are the logical lanes whose output an operation carries (03 R98);
operands and results of the vector unit are FP32, or BF16 where their flag says so (R104). -/
inductive TileOp
  | clear (set col : Nat)
  | init (set col value : Nat)
  | initLane (set col reg lane : Nat)
  | mac (set col : Nat) (fa fb : Elem) (a b : BlockRef)
  | readOut (set col : Nat) (bf16 : Bool) (reg lane : Nat) (lanes : List Nat)
  | mxOut (set half : Nat) (fmt : Elem) (dst : BlockRef) (lanes : List Nat)
  | vec (op : VecOp) (fa fb fc fd : Bool) (d a b c : Nat) (lanes : List Nat)
  | vmaxr (fa fd : Bool) (d : Nat) (chunks masked lanes : List Nat)
  | vsumr (fa fd : Bool) (d : Nat) (chunks masked lanes : List Nat)
  | reduce (partials : List (Nat × Nat)) (d : Nat) (lanes : List Nat)
  | load (pair word reg part : Nat) (bf16 : Bool)
  | store (pair word reg part : Nat) (bf16 : Bool)
  | loadToken (lane reg at_ : Nat)
  | send (pair word beats dst channel : Nat)
  | emit (lane pair word : Nat)
  | derive (idx pair word part : Nat)
  | recvWords (pair word : Nat)
  | recvLanes (reg part : Nat)
  deriving DecidableEq, Repr

/-- What the CONTROL slot does (03 Table 3.4): END, a counted loop and its end, REPEAT, SWAP of a mask of pairs, a signal to a
sync cell. -/
inductive CtlOp
  | end_
  | loop (n : Nat)
  | endLoop
  | repeat_ (n : Nat)
  | swap (mask : Nat)
  | signal (cell amount : Nat)
  deriving DecidableEq, Repr

/-- A bundle: every slot issues in the same cycle (03 R81). -/
structure Bundle where
  ctl : List CtlOp
  ops : List TileOp
  deriving DecidableEq, Repr, Inhabited

/-- What one copy of a session's lane yields in a frame: the raw output word (04 Table 4.9) and its new recurrent state. -/
structure RawCopy where
  codes : List Nat
  anomaly : Nat
  classcode : Nat
  state : List Byte
  deriving DecidableEq, Repr

/-- A session's output of a frame, with the replica copy where one runs (06 R208). -/
structure RawOut where
  main : RawCopy
  twin : Option RawCopy
  deriving DecidableEq, Repr

/-- What SAMPLE_ARRIVAL brings (04 R129, R130): the conversions of a source of Rye with their stamps, or one integer sample with
its count. -/
inductive RawSample
  | convs (cs : List (Count × Int))
  | int (count : Count) (v : Int)
  deriving DecidableEq, Repr

/-- The Straw-fed values of 01 Table 1.2: the ANT word of a link, a branch's adapted curve, a cooling set point. -/
inductive StrawKey
  | ant (a : Fin 8)
  | curve (b : Fin 12)
  | output (o : Fin 24)
  deriving DecidableEq, Repr

/-- Which copy of a settings area, or of the security record, a lost write left torn (01 R35, 16 R464). -/
inductive Torn
  | none | rcbA | rcbB | norA | norB | secA | secB
  deriving DecidableEq, Repr

/-- The job in which an Anise error was found (07 R217). -/
inductive AniseJob
  | frame | window | summary | tick
  deriving DecidableEq, Repr

/-! ## Barley, Husk and update (15) -/

inductive Role
  | off | control | shadow | parked
  deriving DecidableEq, Repr

/-- The privilege levels of a core: RISC-V machine, supervisor and user mode (15 R430). -/
inductive Priv
  | warden | keeper | user
  deriving DecidableEq, Repr

/-- One core of a cluster (15 R430). -/
structure BarleyCore where
  mode : Priv
  mtimecmp : Nat
  deriving DecidableEq, Repr

/-- One cluster (15 R429 to R433), with its four cores. -/
structure Cluster where
  role : Role
  wdogDue : Nat
  warned : Bool
  l2Busy : Bool
  l2Due : Nat
  crashCause : Nat
  reqBase : Nat
  cmpBase : Nat
  cores : Vector BarleyCore 4
  deriving DecidableEq, Repr

/-- One Husk region (15 Table 15.7). -/
structure Region where
  base : Nat
  size : Nat
  initiators : Nat
  perm : Nat
  enable : Bool
  deriving DecidableEq, Repr

/-- One access override (15 R442). `since` is the count at which it was written. -/
structure Override where
  index : Nat
  subFirst : Nat
  subLast : Nat
  access : Nat
  stF : Nat
  stH : Nat
  stS : Nat
  enable : Bool
  since : Count
  deriving DecidableEq, Repr

/-- UPDATE_STATE (15 Table 15.12). -/
inductive UpdState
  | idle | writing | verifying | shadowBoot | shadowSync | shadowReady | takeover | trial | committed
  | pendingRestart | handedBack | failed
  deriving DecidableEq, Repr

inductive SlotState
  | empty | writing | valid | invalid
  deriving DecidableEq, Repr

/-- One firmware slot (15 R443). -/
structure FwSlot where
  st : SlotState
  image : Option FwImage
  deriving DecidableEq, Repr

/-- A journalled step of a trial (15 R453). -/
structure Journal where
  key : Nat
  value : Value
  count : Count
  deriving DecidableEq, Repr

/-- An outstanding firmware-backed step in the request ring (15 R435, R436). -/
structure FwReq where
  tag : Nat
  kind : Nat
  auth : Auth
  place : Nat
  key : Nat
  value : Value
  count : Count
  deriving DecidableEq, Repr

/-- The Barley clusters, Husk and the update (15). `updStarted`: the shadow has been released; `takeT` and `takeAt` the
take-over frame and its start count; `healthPassed`, `confirmed` what a trial has so far; `fwAlt`: the firmware in control runs
from FIRMWARE_ALT (R445); `restartTrial`: the boot selector was written in PENDING_RESTART and its trial has not passed (R447). -/
structure Barley where
  clusters : Vector Cluster 2
  outstanding : List FwReq
  reqHead : Nat
  cmpTail : Nat
  irqs : List (Nat × Nat)
  router : Map Nat
  regions : Map Region
  lastDenial : Option (Nat × Nat)
  overrides : Map Override
  control : Nat
  fwImage : Option FwImage
  fwSlot : Nat
  slotA : FwSlot
  slotB : FwSlot
  bootSlot : Nat
  upd : UpdState
  updError : Nat
  updImage : Option FwImage
  updStarted : Bool
  takeT : Option Nat
  takeAt : Count
  holdOn : Bool
  finalWritten : Bool
  acceptWritten : Bool
  healthPassed : Bool
  confirmed : Bool
  healthDue : Count
  shadowDue : Nat
  fwAlt : Bool
  journal : List Journal
  restartTrial : Bool
  deriving DecidableEq, Repr

/-! ## Cardamom (16) -/

inductive SecState
  | unowned | owned | noIdentity
  deriving DecidableEq, Repr

/-- One owner key slot (16 R461). -/
structure OwnerKey where
  digest : List Byte
  roles : Nat
  deriving DecidableEq, Repr

/-- A copy of the security record (16 R464). -/
structure SecRecord where
  valid : Bool
  generation : Nat
  keys : Map OwnerKey
  revoked : List (List Byte)
  cmdCounter : Nat
  counters : Map Nat
  bootCount : Nat
  deriving DecidableEq, Repr

/-- A measurement (16 Table 16.4). -/
structure Meas where
  seq : Nat
  kind : Nat
  count : Count
  epoch : Nat
  digest : List Byte
  extra : Nat
  deriving DecidableEq, Repr

/-- Cardamom (16). `attempt` counts PUF attempts of the present copy (0 A, 1 B). -/
structure Security where
  st : SecState
  identity : Bool
  pufCopy : Nat
  attempt : Nat
  seedHeld : Bool
  held : SecRecord
  recA : SecRecord
  recB : SecRecord
  log : List Meas
  logEntries : Nat
  logBase : List Byte
  logL : List Byte
  commit : Option (SecRecord × SecRecord × Nat)
  deriving DecidableEq, Repr

end Sys2Proof.Machine
end

