-- ==== Sys2Proof/Syntax.lean ====
section
/-! DEFINITION. The commands of the block: one constructor per row of spec/opcode_table.json, in the table's order, with
the operands the rule of the row gives it. -/
namespace Sys2Proof

open Sys2Proof.Machine

inductive Instr
  /-- RYE_RELEASE: HOLDUP reaches 10.5 V after VIN56 crosses 36 V, Rye is released, loads the RCB and the part enters STANDBY (R520). -/
  | ryeRelease (seated enabled thermtrip : Nat)
  /-- HOLDUP_FAIL: HOLDUP does not reach 10.5 V within 20 ms, so Rye stays unreleased and the gates stay held off (R521). -/
  | holdupFail
  /-- HOLDUP_END: HOLDUP falls below 6.0 V with VIN56 absent, Rye stops and the part goes OFF (R520). -/
  | holdupEnd (torn : Torn)
  /-- VIN_LOST: VIN56 falls below 28 V and the converter runs from HOLDUP (R250). -/
  | vinLost (v : Rat)
  /-- COARSE_TIMEKEEPING: Once the S_SELF down list and the Nutmeg commit are complete after input loss, Rye stops XTAL25 and counts on the RC oscillator in COARSE (R57). -/
  | coarseTimekeeping
  /-- VIN_STABLE: VIN56 has stayed within its window for VIN_STABLE_MS, so B0 is demanded by VIN56 (R247). -/
  | vinStable (v : Rat)
  /-- VIN_LOW: VIN56 stays below 40 V for 10 µs, so every accelerator starts its emergency list with cause VIN_LOW (R33). -/
  | vinLow (v : Rat) (since : Nat)
  /-- VIN_LOW_SELF_DOWN: VIN56 has stayed below 40 V for 5 ms, so S_SELF runs its down list (R33). -/
  | vinLowSelfDown
  /-- VIN_RETURN: VIN56 returns above 40 V before S_SELF acts, so S_SELF does nothing and B0 stays ON (R33). -/
  | vinReturn (v : Rat)
  /-- B0_UNDERVOLTAGE_OFF: VIN56 falls below 30 V, so B0 goes OFF before the S_SELF down list ends (R249). -/
  | b0UndervoltageOff (v : Rat)
  /-- INPUT_LOSS_COMMIT: VIN56 has been below 40 V for 100 µs, so Rye appends the lifetime block and the changed code records to the recorder delta area (R489). -/
  | inputLossCommit
  /-- INPUT_LOSS_COMMIT_END: The input-loss commit stops 12 ms after it began, and the codes left unwritten are counted in PARTIAL_CODES (R489). -/
  | inputLossCommitEnd (written : Nat)
  /-- VIN_OV: VIN56 stays above VIN_OV for 10 µs, so B0 opens with 4 A and enters OFF without latching (R248). -/
  | vinOv (v : Rat) (since : Nat)
  /-- STRAW_VALUE_RECEIVED: A fresh Straw-fed value (ANT word, adapted curve, or valve, fan or pump set point) reaches Rye, and a fallback ends (R30). -/
  | strawValueReceived (k : StrawKey)
  /-- STRAW_DEADLINE_EXPIRED: The refresh deadline of a Straw-fed value passes, and Rye applies its fallback on the next Rye cycle (R30). -/
  | strawDeadlineExpired (k : StrawKey)
  /-- CURVE_APPLY: At frame start + 8,000 ns Rye applies the delivered adapted curves and cooling set points under the tighten-only rule (R214). -/
  | curveApply
  /-- PUF_ATTEMPT_DONE: A PUF reconstruction attempt completes and is checked against the helper data check value, leading to a retry, the next copy, key derivation or PUF_FAILED (R456). -/
  | pufAttemptDone (ok : Bool)
  /-- KEY_DERIVATION_DONE: Cardamom finishes deriving its Falcon-1024 keys and record key, erases the seed and loads the security record (R458). -/
  | keyDerivationDone
  /-- FIRMWARE_STREAM_DONE: Streaming of the active firmware slot through Straw completes and Cardamom verifies the image and the RCB layout digest (R39). -/
  | firmwareStreamDone (read : Option (List Byte))
  /-- LPDDR4X_TRAINING_DONE: Barley finishes LPDDR4X training, or the training fails and the part is READY without the engine (R39). -/
  | lpddr4xTrainingDone (ok : Bool)
  /-- PART_READY: Barley has started the dictionary engine and the MACs, the part enters READY and the serializer numbers the queued events (R39). -/
  | partReady
  /-- TILE_SELF_TEST_DONE: A tile's built-in self-test completes, so the tile becomes SPARE, GATED or FAILED (R76). -/
  | tileSelfTestDone (t : Fin 68) (pass : Bool)
  /-- PTP_MEASUREMENT: A PTP Sync measurement yields an offset that drives the servo and the TIME_STATE transitions (R48). -/
  | ptpMeasurement (p : Fin 2) (x : PtpIn) (freq : Int)
  /-- SYNC_IN_EDGE: A SYNC_IN edge is assigned to its expected multiple and used as a phase measurement, or rejected (R55). -/
  | syncInEdge (count : Nat) (freq : Int)
  /-- SYNC_OUT_EDGE: SYNC_OUT emits a rising edge at a multiple of SYNC_PERIOD_US or at cycle 0 of a frame, depending on SYNC_ROLE (R54). -/
  | syncOutEdge
  /-- MEASUREMENT_TIMEOUT: No valid measurement arrives for 3 intervals, so TIME_STATE becomes HOLDOVER with the last correction held (R48). -/
  | measurementTimeout
  /-- TIME_HOLDOVER_EXPIRED: HOLDOVER_LIMIT_S elapses in HOLDOVER, so TIME_STATE becomes FREE (R48). -/
  | timeHoldoverExpired
  /-- TIME_SOURCE_CHANGED: A write of TIME_SOURCE stops the servo or starts a new measurement series (R48). -/
  | timeSourceChanged (au : Auth) (v : Nat)
  /-- TIME_SET: A write of TIME_SET steps the count in Rye within 2 µs, in READY with TIME_SOURCE FREE or SYNC only (R50). -/
  | timeSet (au : Auth) (v : Nat)
  /-- LAUNCH_AT: A write of LAUNCH_AT arms the launch at a checked count, or disarms it with 0 and records LAUNCH_DISARMED (R60). -/
  | launchAt (au : Auth) (v : Nat)
  /-- FRAME_STOP_AT: A write of FRAME_STOP_AT sets the count before which the last frame starts (R62). -/
  | frameStopAt (au : Auth) (v : Nat)
  /-- LAUNCH: The count reaches LAUNCH_AT and the part enters RUN if R322 is met (R61). -/
  | launch
  /-- FRAME_CUTOFF: The cutoff C(n) is reached, inputs are latched to frame n and Teff tokenizes every advancing session (R65). -/
  | frameCutoff
  /-- FRAME_START: Cycle 0 of a frame starts and INGEST applies tokens, descriptor changes, opens, closes, switches and lane masks (R59). -/
  | frameStart
  /-- P0_EMIT: Class P0 raw outputs reach Teff, are detokenized and are placed on the actuation board by cycle 6,400 (R138). -/
  | p0Emit
  /-- MAIN_EMIT: All other raw outputs reach Teff, and the records go to the board, the output ring and SESSION_OUTPUT (R138). -/
  | mainEmit
  /-- CHECKPOINT_COMMIT: The last entry and header of a checkpoint are written and CKPT_FRAME takes its checkpoint frame (R160). -/
  | checkpointCommit
  /-- SAMPLE_ARRIVAL: An input sample reaches Teff and is assigned its actual and nominal frame, with SHIFT, SUPERSEDED or LATE ledger entries (R65). -/
  | sampleArrival (source arrival : Nat) (kept : Bool) (x : RawSample)
  /-- EVENT_NUMBERED: An event that has been held 400 ns after its count is numbered by the serializer and queued for subscribers (R69). -/
  | eventNumbered
  /-- ENGINE_REJOIN: After a stop and the checkpoint restore, the engine rejoins at the first frame at least 1 F later, with skipped frames counted (R63). -/
  | engineRejoin
  /-- CHECKPOINT_RESTORE_DONE: Every session is restored from the last committed checkpoint and later descriptor writes are reapplied, or CKPT_LOST is raised (R163). -/
  | checkpointRestoreDone (lostNew lostOld : Bool) (badNew badOld : List Nat)
  /-- CORRECTED_ERROR: A corrected error in tile SRAM, instruction memory or a beat increments TILE_CE_COUNT, and a tile fails beyond 65,536 in 1 s (R79). -/
  | correctedError (t : Fin 68)
  /-- UNCORRECTABLE_WORD: A poisoned word is delivered, its session's output is invalidated and its state is restored under R162 (R80). -/
  | uncorrectableWord (t : Fin 68) (offset : Nat) (beat bundle : Bool)
  /-- TILE_RETIRED_SET: SERVICE writes 1 to TILE_RETIRED, and the tile fails at the end of the frame or at once in READY (R77). -/
  | tileRetiredSet (au : Auth) (t : Fin 68)
  /-- TILE_RETIRED_CLEAR: SERVICE writes 0 to TILE_RETIRED in READY and the tile is self-tested (R77). -/
  | tileRetiredClear (au : Auth) (t : Fin 68)
  /-- STAGING_TIMEOUT: A burst held at a tile port for 2 F ends in a bus error on its Millet channel (R88). -/
  | stagingTimeout (t : Fin 68)
  /-- SESSION_OPEN_REQUEST: A descriptor write with OPEN = 1 is checked and opens, changes or withdraws the close of a session (R126). -/
  | sessionOpenRequest (au : Auth) (n : Fin 10240) (d : Desc)
  /-- SESSION_CLOSE_REQUEST: A descriptor write with OPEN = 0 is checked and closes a session or is stored (R126). -/
  | sessionCloseRequest (au : Auth) (n : Fin 10240) (d : Desc)
  /-- MODEL_LOAD_DONE: A Millet model load completes into its slot (R147). -/
  | modelLoadDone (ok : Bool)
  /-- CODEBOOK_WRITE: A codebook is written, checked and stored with its midpoints (R133). -/
  | codebookWrite (au : Auth) (c : Fin 4096) (bytes : List Byte)
  /-- MODEL_IMAGE_WRITE: A model image is written by BLOCK to the library and queued for verification (R144). -/
  | modelImageWrite (au : Auth) (m : Fin 4096) (bytes : List Byte)
  /-- MODEL_VERIFIED: Verification on Barley makes a model image VALID or REFUSED (R141). -/
  | modelVerified (m : Fin 4096)
  /-- RING_FREEZE: A write of 1 to RING_FREEZE stops writing to both capture rings (R172). -/
  | ringFreeze (au : Auth)
  /-- RING_RESUME: A write of 0 to RING_FREEZE resumes the rings and discards every block and base already held (R172). -/
  | ringResume (au : Auth)
  /-- POST_TRIGGER_EXPIRY: POST_TRIGGER_MS after a trigger event selected by TRIGGER_MASK, the rings freeze (R172). -/
  | postTriggerExpiry
  /-- FREEZE_MAX_EXPIRY: FREEZE_MAX_S after a freeze, the rings resume (R172). -/
  | freezeMaxExpiry
  /-- LONG_CAPTURE_WRITE: A write of the LONG_CAPTURE bitmap selects sessions for the decimated ring and records a SELECT control record (R171). -/
  | longCaptureWrite (au : Auth) (bytes : List Byte)
  /-- REPLAY_START: A write of START to REPLAY_CTRL checks the export and starts a replay, or refuses it (R175). -/
  | replayStart (au : Auth)
  /-- REPLAY_ABORT: A write of ABORT to REPLAY_CTRL ends a replay with no session held (R179). -/
  | replayAbort (au : Auth)
  /-- REPLAY_FRAME: A recorded frame is replayed and its CRCs are compared, ending in MISMATCH or, after the last frame, DONE (R177). -/
  | replayFrame
  /-- SCHED_IMAGE_WRITE: A schedule image is written by BLOCK to an entry of the image store (R191). -/
  | schedImageWrite (au : Auth) (k : Fin 4) (bytes : List Byte)
  /-- SCHED_IMAGE_CHECKED: The load checks of a schedule image complete and the entry becomes VALID or REFUSED (R190). -/
  | schedImageChecked (k : Fin 4)
  /-- IMAGE_ARM: A write of an entry number to IMAGE_ARM arms that image and decides HOT or COLD (R192). -/
  | imageArm (au : Auth) (k : Fin 4)
  /-- IMAGE_DISARM: A write of 0xFF to IMAGE_ARM returns the armed entry to VALID (R192). -/
  | imageDisarm (au : Auth)
  /-- READY_ACTIVATION_DONE: The loads of an activation made in READY complete and the image is IN_FORCE (R194). -/
  | readyActivationDone
  /-- HOT_ACTIVATION: At frame E the new bundles of a HOT activation run and the IMAGE record is written (R195). -/
  | hotActivation
  /-- COLD_ACTIVATION_STOP: At checkpoint frame C the engine stops and the new image's sections and weights are loaded (R196). -/
  | coldActivationStop
  /-- COLD_ACTIVATION_REJOIN: At frame J the engine rejoins on the new image with RESTORE records naming checkpoint C (R196). -/
  | coldActivationRejoin
  /-- PLAN_HOLD_START: At frame S − H the logical tiles that move are held and ADVANCE records with ADVANCE_K 0 are written (R205). -/
  | planHoldStart
  /-- PLAN_SWITCH: At switch frame S the new binding takes effect with REBIND and ADVANCE records (R204). -/
  | planSwitch
  /-- BRIDGE_PORT_FAILURE: A domain's bridge port fails and the domain becomes LOST (R209). -/
  | bridgePortFailure (d : Fin 2)
  /-- DOMAIN_RETIRED_SET: SERVICE writes 1 to DOMAIN_RETIRED and the domain becomes LOST (R209). -/
  | domainRetiredSet (au : Auth) (d : Fin 2)
  /-- DOMAIN_RETIRED_CLEAR: SERVICE writes 0 to DOMAIN_RETIRED in READY and the domain's tiles are self-tested (R209). -/
  | domainRetiredClear (au : Auth) (d : Fin 2)
  /-- ANISE_FRAME_JOBS: Anise unit 0 runs fault rules and the concord computation on frame n − 1, and at a tick start the cooling loops (R213). -/
  | aniseFrameJobs
  /-- ANT_ADAPT_WINDOW: Anise unit 0 forms the ANT words and breaker adaptation from class P0 records and delivers them to Rye (R229). -/
  | antAdaptWindow
  /-- ANISE_TICK: Anise unit 1 runs a tick: the thermal solve and then the MPC problems (R220). -/
  | aniseTick
  /-- ANISE_UE: An uncorrectable error in Anise memory discards its job's results and reloads the program (R217). -/
  | aniseUe (job : AniseJob)
  /-- ANISE_PROGRAM_WRITE: An Anise program is written and checked, and takes effect at the next tick or is refused (R218). -/
  | aniseProgramWrite (au : Auth) (bytes : List Byte)
  /-- ANT_WORD_DELIVERED: An ANT word reaches Sorghum through Straw, and a late word is discarded and counted in ANT_LATE (R227). -/
  | antWordDelivered (a : Fin 8) (ns : Nat)
  /-- ANT_SLOT: At frame start + 6,080 ns Sorghum transmits the delivered ANT word or the no-forecast word, or idles (R227). -/
  | antSlot
  /-- CONCORD_SUMMARY_SEND: Anise forms the frame's concord summary and sends it on both host ports (R235). -/
  | concordSummarySend
  /-- CONCORD_SUMMARY_RECEIVED: A concord summary from another tray arrives and is kept if it matches the program (R236). -/
  | concordSummaryReceived (x : Summary) (count : Nat)
  /-- BRANCH_INRUSH_START: A branch demanded on and clear to admit enters INRUSH and its driver starts per INRUSH_MODE (R242). -/
  | branchInrushStart (b : Fin 12)
  /-- INRUSH_COMPLETE: VDS has stayed below 1.0 V for 100 µs, so the driver goes to full enhancement and t_GATE starts (R251). -/
  | inrushComplete (b : Fin 12)
  /-- BRANCH_ON: Every driven group reaches VGS ≥ 8 V before t_GATE expires and the branch enters ON (R242). -/
  | branchOn (b : Fin 12) (vgs : List Rat)
  /-- T_GATE_EXPIRY: t_GATE expires before full enhancement, so the branch enters FAULT_FET with GATE_NO_RISE (R266). -/
  | tGateExpiry (b : Fin 12)
  /-- INRUSH_TIMER_EXPIRY: The inrush timer reaches T_ILIM_MS and the inrush aborts to LATCHED or FAULT_FET (R252). -/
  | inrushTimerExpiry (b : Fin 12)
  /-- FAST_TRIP: The fast comparator crosses its threshold and the branch is latched with the 4 A pull-down (R258). -/
  | fastTrip (b : Fin 12) (uv : Rat)
  /-- TRIP_FRACTION_UPDATE: Each microsecond Rye updates each branch's trip fraction from the effective I–t curve (R260). -/
  | tripFractionUpdate (codes : List (List Int))
  /-- FOSTER_UPDATE: Each microsecond the Foster network updates T_MODEL for each branch (R264). -/
  | fosterUpdate (vin vout sense : List Rat)
  /-- TFET_TRIP: BRANCH_T_FET stays above T_FET_MAX for 10 µs, so an inrush aborts or an ON branch trips with cause TFET (R263). -/
  | tfetTrip (b : Fin 12)
  /-- TFET_SENSOR_FAULT: A DIRECT sensor reads outside its limits for 100 µs and is faulted, with a latch in DIRECT mode (R265). -/
  | tfetSensorFault (b : Fin 12) (reading : Rat) (since : Nat)
  /-- TFET_SENSOR_OK: A faulted DIRECT sensor stays within its limits for 100 µs and TFET_SENSOR_OK is recorded (R265). -/
  | tfetSensorOk (b : Fin 12) (reading : Rat) (since : Nat)
  /-- EN_LOW: EN_Bn stays low for 1 µs and the branch opens with 4 A (R241). -/
  | enLow (b : Fin 12) (since : Nat)
  /-- EN_RISE: EN_Bn rises after at least 10 µs low, a toggle that may clear a latch (R244). -/
  | enRise (b : Fin 12) (at_ : Nat)
  /-- PRESENCE_EDGE: A deglitched presence change restarts T_REINS, and a removal moves the branch and sequencer to HELD (R273). -/
  | presenceEdge (a : Fin 8) (seated : Bool) (since : Nat)
  /-- T_REINS_EXPIRY: T_REINS expires; with the module seated HELD ends and the insertion is counted (R273). -/
  | tReinsExpiry (a : Fin 8)
  /-- TRIP_NOT_CLEARED: 5 µs after a latch pull-down the current is still high, so NOT_CLEARED is set and the fault escalates (R268). -/
  | tripNotCleared (b : Fin 12) (codes : List Int)
  /-- OUTPUT_WHILE_OFF: The output of an off branch has stayed above VOUT_OFF_MAX for 50 ms, so it enters FAULT_FET and escalates (R267). -/
  | outputWhileOff (b : Fin 12) (vout : Rat)
  /-- VDS_HIGH: VDS has been above I × RDS_ON_MAX for 10 ms in ON, so VDS_HIGH is set and FET_VDS_HIGH is recorded (R272). -/
  | vdsHigh (b : Fin 12) (vds : Rat) (codes : List Int)
  /-- VDS_HIGH_CLEAR: The VDS_HIGH condition has been absent for 10 ms and the flag clears (R272). -/
  | vdsHighClear (b : Fin 12) (vds : Rat) (codes : List Int)
  /-- BRANCH_DISABLE: A write of 0 to BRANCH_ENABLE removes demand, an off order for B1 to B8, and opens a toggle (R241). -/
  | branchDisable (au : Auth) (b : Fin 12)
  /-- BRANCH_ENABLE: A write of 1 to BRANCH_ENABLE restores demand and completes a toggle that may clear a latch (R244). -/
  | branchEnable (au : Auth) (b : Fin 12)
  /-- BRANCH_FET_CLEAR: SERVICE writes BRANCH_FET_CLEAR, clearing the health flags in NOR and setting CLEARED (R271). -/
  | branchFetClear (au : Auth) (b : Fin 12)
  /-- DW440_IMPORT: A DW440 import DOMAIN is checked whole and applied as writes to the target branches (R256). -/
  | dw440Import (au : Auth) (bytes : List Byte)
  /-- BRANCH_START_OFFSET: BRANCH_START_OFFSET_MS after the tray-on event, B9 to B11 are demanded on (R241). -/
  | branchStartOffset (b : Fin 12)
  /-- SORGHUM_OT: T_SORGHUM reaches 150 °C, every branch latches with SORGHUM_OT and the part enters SAFE (R306). -/
  | sorghumOt (t : Rat) (since : Nat)
  /-- SORGHUM_OT_END: T_SORGHUM has stayed below 125 °C for 60 s, so the part leaves SAFE for STANDBY and B0 may be cleared (R307). -/
  | sorghumOtEnd (t : Rat) (since : Nat)
  /-- SEQ_ADMISSION: A sequencer in IDLE starts admission when every condition holds, demanding its branch (R287). -/
  | seqAdmission (q : Fin 9)
  /-- STEP_ENABLE: An ENABLE step drives RAIL_EN of its target high (R283). -/
  | stepEnable (q : Fin 9)
  /-- STEP_DISABLE: A DISABLE step drives RAIL_EN of its target low and disarms its UV levels (R283). -/
  | stepDisable (q : Fin 9)
  /-- STEP_WAIT_PG: A WAIT_PG step begins waiting for a power-good input to rise or fall (R284). -/
  | stepWaitPg (q : Fin 9) (pg : Bool)
  /-- STEP_WAIT_TIME: A WAIT_TIME step begins waiting its DURATION (R284). -/
  | stepWaitTime (q : Fin 9)
  /-- STEP_WAIT_LEVEL: A WAIT_LEVEL step begins waiting for a rail to reach UV_WARN or fall below OFF (R284). -/
  | stepWaitLevel (q : Fin 9) (v : Rat)
  /-- STEP_ASSERT: An ASSERT step drives SEQ_OUT of its target high (R283). -/
  | stepAssert (q : Fin 9)
  /-- STEP_DEASSERT: A DEASSERT step drives SEQ_OUT of its target low (R283). -/
  | stepDeassert (q : Fin 9)
  /-- STEP_END: END finishes a list: the PG window starts after an up list, or the outputs are driven low and demand removed after a down or emergency list (R286). -/
  | stepEnd (q : Fin 9)
  /-- WAIT_CONDITION_MET: The condition of a wait step is met and the next step begins (R284). -/
  | waitConditionMet (q : Fin 9) (v : Rat) (pg : Bool)
  /-- WAIT_TIMEOUT: A wait step times out: a fault in an up list, or RAIL_NO_DISCHARGE or DOWN_WAIT_TIMEOUT in a down list (R295). -/
  | waitTimeout (q : Fin 9)
  /-- WAIT_TIME_EXPIRY: The DURATION of a WAIT_TIME step runs out and the next step begins (R284). -/
  | waitTimeExpiry (q : Fin 9)
  /-- PG_WINDOW_CLOSE: The PG window closes clean and PGOOD rises, or the window restarts (R292). -/
  | pgWindowClose (q : Fin 9) (running : List (Fin 16 × Level × Nat)) (trip : Nat)
  /-- PG_TIMEOUT: No PG window has closed clean by PG_LIMIT_MS, so a fault with cause PG_TIMEOUT follows (R292). -/
  | pgTimeout (q : Fin 9)
  /-- LEVEL_DEGLITCH_EXPIRY: A level or power-good condition's deglitch expires, raising a warning event or a rail fault (R280). -/
  | levelDeglitchExpiry (q : Fin 9) (r : Fin 16) (l : Level) (v : Rat) (since : Nat)
  /-- LEVEL_CONDITION_END: A level condition ends before its deglitch expires, and PG_DEGLITCH is recorded where it held PGOOD back (R280). -/
  | levelConditionEnd (q : Fin 9) (r : Fin 16) (l : Level) (v : Rat)
  /-- THERMTRIP: THERMTRIP_An_N stays low for 1 µs, running the emergency list and setting the thermal hold (R308). -/
  | thermtrip (a : Fin 8) (since : Nat)
  /-- OFF_WAIT_EXPIRY: T_OFF_MIN_MS after entering OFF_WAIT the sequencer returns to IDLE (R286). -/
  | offWaitExpiry (q : Fin 9)
  /-- S_SELF_RETRY: 1 s after the S_SELF down list ends, the up list is retried (R296). -/
  | sSelfRetry
  /-- SEQ_LIST_WRITE: A sequencer list is written, checked as a whole and stored for the next start of that list (R285). -/
  | seqListWrite (au : Auth) (q : Fin 9) (which : SeqList) (bytes : List Byte)
  /-- TEMP_CONVERSION: Each 100 µs the part's temperature sensors are converted, raising the warnings of Table 10.1 (R300). -/
  | tempConversion (main : List (Option Int)) (sorghum : List Int)
  /-- THERMAL_EVAL: The main-die thermal controller evaluates every 1 ms and on each upward 100 °C crossing, changing LT (R302). -/
  | thermalEval
  /-- ENGINE_CAP_LEVEL_WRITE: A write of ENGINE_CAP_LEVEL changes the throttle level in force (R302). -/
  | engineCapLevelWrite (au : Auth) (v : Nat)
  /-- THERMAL_SHUTDOWN: The hot line is asserted for 10 µs, main-die reset is asserted and the S_SELF down list runs with retained rails (R304). -/
  | thermalShutdown (t : Rat) (kept : Bool) (since : Nat)
  /-- THERMAL_RESTART: After 10 s below 90 °C, or 60 s without retention, Rye runs the S_SELF up list to restart the main die (R305). -/
  | thermalRestart (since : Nat)
  /-- ACCEL_THERMAL_RELEASE: The conditions for ending an accelerator's thermal hold hold, so the hold is released (R308). -/
  | accelThermalRelease (a : Fin 8) (high : Bool) (t : Rat) (since : Nat)
  /-- ACCEL_CAP_STEP: Every 200 ms above the warning level, or every 1 s below it, the accelerator thermal cap falls or rises (R309). -/
  | accelCapStep (a : Fin 8) (t : Rat)
  /-- ACCEL_LIMIT_WRITE: The management bus engine writes the lowest cap to an accelerator over PMBus or AVSBus (R309). -/
  | accelLimitWrite (a : Fin 8) (ack : Bool)
  /-- ACCEL_LIMIT_RETRY: 10 ms after an unacknowledged limit write it is retried, with ACCEL_LIMIT_WRITE_FAILED after three failures (R309). -/
  | accelLimitRetry (a : Fin 8) (ack : Bool)
  /-- FAN_FAULT: A fan's speed has stayed below TACH_MIN_RPM for 2 s at 20% demand or more (R312). -/
  | fanFault (k : Fin 16) (hz : Rat) (since : Nat)
  /-- COOLANT_FLOW_LOW: A flow input has stayed below FLOW_MIN_LPM for 2 s (R312). -/
  | coolantFlowLow (k : Fin 12) (hz : Rat) (since : Nat)
  /-- TEMP_SENSOR_FAULT: A temperature channel stays outside its sensor limits for 100 µs, or returns within them for 100 µs (R313). -/
  | tempSensorFault (c : Fin 32) (reading t : Rat) (since : Nat)
  /-- LEAK_RESULT: A leak channel yields its resistance result for the millisecond (R314). -/
  | leakResult (c : Fin 8) (ohm : Nat)
  /-- LEAK_STATE_CHANGE: LEAK_DG_MS consecutive results move a leak channel between DRY, WARN, FAULT and OPEN (R316). -/
  | leakStateChange (c : Fin 8)
  /-- LEAK_ZONE_CLEARABLE: Every enabled channel of a latched zone has been DRY for 60 s, so the zone becomes clearable (R318). -/
  | leakZoneClearable (z : Fin 8)
  /-- LEAK_CLEAR: A write of a zone to LEAK_CLEAR clears a clearable zone fault and restores its valves and requests (R318). -/
  | leakClear (au : Auth) (z : Fin 8)
  /-- ACCEL_REQUEST_WRITE: An authority writes its power request for an accelerator, and Rye recomputes the effective request (R328). -/
  | accelRequestWrite (au : Auth) (a : Fin 8) (v : Nat)
  /-- QUAR_RELEASE: HOST or SERVICE writes QUAR_RELEASE, clearing QUARANTINE and the fault history (R339). -/
  | quarRelease (au : Auth) (a : Fin 8)
  /-- SERVICE_STRAP_DEASSERTED: SERVICE_EN_N is deasserted past its 10 ms deglitch, closing SERVICE sessions and clearing SERVICE requests and caps (R330). -/
  | serviceStrapDeasserted (since : Nat)
  /-- SERVICE_STRAP_ASSERTED: SERVICE_EN_N is asserted past its deglitch, enabling the service port and SERVICE sessions (R400). -/
  | serviceStrapAsserted (since : Nat)
  /-- WARDEN_SAFE: The Warden commands SAFE, freezing firmware outputs and stopping the engine at the end of the frame (R325). -/
  | wardenSafe
  /-- WARDEN_RELEASE: A Warden release returns the part from SAFE to READY, with a restore and rejoin if it came from RUN (R325). -/
  | wardenRelease
  /-- PART_RESTART: A write of 1 to PART_RESTART causes a main-die reset (R336). -/
  | partRestart (au : Auth) (kept : Bool)
  /-- KEEPALIVE_LOSS: The main die's Straw keep-alive is absent for 1 ms, so Rye asserts main-die reset (R336). -/
  | keepaliveLoss (kept : Bool)
  /-- MAIN_DIE_RESET_END: 200 ms after assertion Rye releases main-die reset with the self rails on (R336). -/
  | mainDieResetEnd
  /-- FW_RESTART: A write of 1 to FW_RESTART makes the Warden warm-restart the firmware (R335). -/
  | fwRestart (au : Auth)
  /-- WATCHDOG_EXPIRY: A cluster watchdog expires, a firmware crash that restarts the firmware or, on the fourth in 10 min, resets the main die (R335). -/
  | watchdogExpiry (c : Fin 2) (kept : Bool)
  /-- WDOG_WARN: The cluster watchdog reaches 200 ms and raises its pre-expiry interrupt (R434). -/
  | wdogWarn (c : Fin 2)
  /-- WDOG_KICK: A write of 0x0000_5A5A to WDOG_KICK restarts the watchdog (R433). -/
  | wdogKick (c : Fin 2) (v : Nat)
  /-- FIRMWARE_RESTARTED: The restarted firmware is serving again and FW_RESTARTING clears (R335). -/
  | firmwareRestarted
  /-- L2_INVALIDATE: A write of 1 to L2_INVALIDATE invalidates the cluster's whole L2 (R431). -/
  | l2Invalidate (c : Fin 2) (v : Nat)
  /-- L2_INVALIDATE_DONE: The L2 invalidation completes and L2_INVALIDATE reads 0 (R433). -/
  | l2InvalidateDone (c : Fin 2)
  /-- ODA_READ: A READ request returns one value or, with DESCRIBE, its entry descriptor (R359). -/
  | odaRead (n txn key ty : Nat) (describe : Bool)
  /-- ODA_WRITE: A WRITE request checks and applies one value (R359). -/
  | odaWrite (n txn key ty : Nat) (v : Value)
  /-- READ_MULTI: A READ_MULTI request reads up to 64 items, each checked on its own (R360). -/
  | readMulti (n txn : Nat) (items : List (Nat × Nat))
  /-- WRITE_MULTI: A WRITE_MULTI request applies up to 64 steps in order and stops at the first failure (R361). -/
  | writeMulti (n txn : Nat) (steps : List (Nat × Nat × Value))
  /-- FW_COMPLETION: The firmware posts a completion entry, which applies or answers the firmware-backed step at that count (R436). -/
  | fwCompletion (tag result : Nat) (v : Value)
  /-- NOR_COMMIT_DONE: A NOR or RCB commit completes and the written value is applied at its accepting count (R354). -/
  | norCommitDone (ok : Bool)
  /-- SUBSCRIBE: A SUBSCRIBE request creates, replaces or cancels a subscription (R362). -/
  | subscribe (n txn sub kind period : Nat) (items : List (Nat × Nat))
  /-- PERIODIC_NOTIFY: A PERIODIC subscription's NOTIFY is formed and sent after the main EMIT of a selected frame, or at its period outside RUN (R363). -/
  | periodicNotify (n sub : Nat) (vals : List (Nat × Value))
  /-- EVENT_NOTIFY: Held event records are sent to a subscription once 43 wait or 20 µs after the first (R364). -/
  | eventNotify (n sub : Nat)
  /-- BLOCK_READ_START: A BLOCK READ_START snapshots a DOMAIN value or selected frame or SEQ range for reading (R369). -/
  | blockReadStart (n txn key ty sel : Nat)
  /-- BLOCK_READ_SEG: A BLOCK READ_SEG returns a segment of the snapshot (R367). -/
  | blockReadSeg (n txn blk offset len : Nat)
  /-- BLOCK_WRITE_START: A BLOCK WRITE_START opens a block write after the checks through part state and length (R368). -/
  | blockWriteStart (n txn key ty total : Nat)
  /-- BLOCK_WRITE_SEG: A BLOCK WRITE_SEG stages a segment of a block write (R368). -/
  | blockWriteSeg (n txn blk offset : Nat) (data : List Byte)
  /-- BLOCK_WRITE_END: A BLOCK WRITE_END checks completeness and CRC and replaces the whole DOMAIN as one step (R368). -/
  | blockWriteEnd (n txn blk crc : Nat)
  /-- BLOCK_CLOSE: A BLOCK CLOSE ends a block (R368). -/
  | blockClose (n txn blk : Nat)
  /-- BLOCK_TIMEOUT: A block ends after 60 s without a message (R368). -/
  | blockTimeout (n blk : Nat)
  /-- LEDGER_QUERY: A LEDGER_QUERY reports the outcome of up to 56 TXNs and fences those never seen (R379). -/
  | ledgerQuery (n txn : Nat) (peer : List Byte) (txns : List Nat)
  /-- REPLAY_CACHE_EXPIRY: A TXN leaves a peer's replay cache after 10 s and FLOOR may rise (R372). -/
  | replayCacheExpiry (place txn : Nat)
  /-- SETUP_INIT: A SETUP_INIT fragment is received, and the reassembled message is answered with SETUP_REPLY (R472). -/
  | setupInit (p : Fin 3) (id frag frags : Nat) (data : List Byte) (cs : List Cert) (r : Root)
  /-- SETUP_FINISH: A SETUP_FINISH verifies the peer's signature, binds the session to its authority and sends SETUP_DONE (R473). -/
  | setupFinish (n : Nat) (p : Fin 3) (id : Nat) (sigOk : Bool)
  /-- SESSION_CLOSE: A CLOSE message closes a secure session with its subscriptions and blocks (R475). -/
  | sessionClose (n : Nat)
  /-- SETUP_TIMEOUT: A pending session ends 2 s after SETUP_REPLY without a valid SETUP_FINISH (R472). -/
  | setupTimeout (n : Nat)
  /-- SESSION_IDLE_TIMEOUT: A session closes after SESSION_IDLE_S without a valid message (R475). -/
  | sessionIdleTimeout (n : Nat)
  /-- HOST_LINK_UP: A host port completes auto-negotiation and becomes UP (R384). -/
  | hostLinkUp (p : Fin 2) (fast : Bool)
  /-- HOST_LINK_DOWN: A host port loses alignment or reports a fault for 100 µs, becomes DOWN and drops its queue (R384). -/
  | hostLinkDown (p : Fin 2) (since : Nat)
  /-- AUTONEG_RESTART: 10 ms after a link goes DOWN, auto-negotiation restarts (R384). -/
  | autonegRestart (p : Fin 2)
  /-- PORT_MODE: A write of PORT_MODE retrains its port, refused for FACILITY when the other port is not UP (R385). -/
  | portMode (au : Auth) (p : Fin 2) (v : Nat)
  /-- HOST_FRAME_RECEIVED: A frame arrives on a host port and passes MACsec, elimination and dispatch (R389). -/
  | hostFrameReceived (p : Fin 3) (f : FrameIn)
  /-- NETWORK_CONTROL_REQUEST: An ARP, neighbour discovery or ICMP echo request is answered (R382). -/
  | networkControlRequest (p : Fin 3) (kind : Nat) (target : List Byte)
  /-- TELEMETRY_FRAME: A telemetry frame is checked and its entries are delivered to Teff as samples (R397). -/
  | telemetryFrame (p : Fin 8) (etherType : Nat) (payload : List Byte) (bad oldEpoch : Bool) (delay : Nat)
  /-- SB_PTP_SYNC: Every 125 ms the part sends PTP Sync on each enabled sideband port as grandmaster (R393). -/
  | sbPtpSync
  /-- SB_PDELAY_REQ: A peer-delay request on a sideband port is answered (R393). -/
  | sbPdelayReq (p : Fin 8)
  /-- MACSEC_KEY_REQ: A FACILITY write of MACSEC_KEY_REQ makes Cardamom derive and install a new association (R395). -/
  | macsecKeyReq (n : Nat) (p : Fin 2)
  /-- MACSEC_TX_SWITCH: At MACSEC_TX_SWITCH_AT the port starts sending on the new association (R395). -/
  | macsecTxSwitch (p : Fin 2)
  /-- MACSEC_RX_OLD_END: 2 s after a new key, the port stops receiving on the old association (R395). -/
  | macsecRxOldEnd (p : Fin 2)
  /-- DMA_GO: A write of GO reads and checks the lists and makes the channel READY or HALTED (R415). -/
  | dmaGo (c : Fin 32) (ctrl srcList dstList srcCount dstCount compl : Nat) (src dst : List DmaEntry)
  /-- DMA_ACK: A write of ACK returns a DONE or HALTED channel to IDLE (R412). -/
  | dmaAck (c : Fin 32)
  /-- DMA_DISABLE: Clearing ENABLE drops the channel to IDLE in any state (R421). -/
  | dmaDisable (c : Fin 32)
  /-- DMA_RUN_START: When a run ends, the engine starts the lowest-numbered READY channel (R411). -/
  | dmaRunStart (mb : Bool)
  /-- DMA_RUN_COMPLETE: The last write of a run leaves the engine and the channel is DONE (R418). -/
  | dmaRunComplete (mb : Bool)
  /-- DMA_SIGNAL_RELEASE: After every write of a run is accepted, the completion SIGNAL reaches its sync cell (R419). -/
  | dmaSignalRelease (c : Fin 32)
  /-- DMA_BUS_ERROR: A bus error halts the run, latching the error fields and raising DMA_HALTED (R422). -/
  | dmaBusError (mb : Bool)
  /-- SYNC_SET: A write to the value page sets a sync cell (R424). -/
  | syncSet (cell : Fin 16384) (v : Nat)
  /-- SYNC_SIGNAL: A write to the SIGNAL page adds to a sync cell and wakes any slot whose threshold is met (R424). -/
  | syncSignal (cell : Fin 16384) (v : Nat)
  /-- WAIT_SLOT_ARM: A write setting ARM arms a wait slot, which fires at once if its condition holds (R426). -/
  | waitSlotArm (k : Fin 256) (cell : Fin 16384) (irq event : Bool) (core : Fin 8) (threshold : Nat)
  /-- WAIT_SLOT_DISARM: A write clearing ARM withdraws a wait (R426). -/
  | waitSlotDisarm (k : Fin 256)
  /-- MEM_CORRECTED_ERROR: A corrected LPDDR4X error is counted and written back (R403). -/
  | memCorrectedError
  /-- MEM_UE: An uncorrectable LPDDR4X granule is poisoned, counted and its address latched (R403). -/
  | memUe (addr : Nat)
  /-- PATROL_SCRUB_PASS: A patrol scrub pass over the 14 GiB completes (R403). -/
  | patrolScrubPass
  /-- LPDDR4X_REFRESH: The controller refreshes a bank on its schedule (R404). -/
  | lpddr4xRefresh (hot : Bool)
  /-- HUSK_REGION_WRITE: A Warden writes a Husk region, effective from the fourth fabric cycle (R441). -/
  | huskRegionWrite (c : Fin 2) (k : Fin 256) (r : Region)
  /-- ACCESS_OVERRIDE_WRITE: A Warden writes an access override that narrows declared access (R442). -/
  | accessOverrideWrite (c : Fin 2) (k : Fin 256) (o : Override)
  /-- UPDATE_IMAGE_WRITE_END: An accepted WRITE_END of UPDATE_IMAGE starts an update by programming the inactive slot (R446). -/
  | updateImageWriteEnd (au : Auth) (image : List Byte)
  /-- UPDATE_PROGRAM_DONE: Programming and read-back of the inactive slot complete or fail (R447). -/
  | updateProgramDone (ok : Bool)
  /-- UPDATE_VERIFY_DONE: Cardamom's checks of the new image complete, leading to PENDING_RESTART, SHADOW_BOOT or FAILED (R447). -/
  | updateVerifyDone
  /-- SHADOW_STREAM_DONE: The new image is streamed into the free area and the other cluster is released in SHADOW (R447). -/
  | shadowStreamDone
  /-- SHADOW_HELLO: The shadow Warden writes SHADOW_HELLO, moving the update to SHADOW_SYNC (R448). -/
  | shadowHello (c : Fin 2)
  /-- SHADOW_BOOT_TIMEOUT: 10 s pass without SHADOW_HELLO, so the shadow is turned OFF and the update fails (R447). -/
  | shadowBootTimeout
  /-- SHADOW_READY: The shadow Warden writes SHADOW_READY and the take-over frame T is chosen (R449). -/
  | shadowReady (c : Fin 2)
  /-- TAKEOVER_HOLD_START: At the start of frame T − 1 the dictionary engine holds every firmware-backed step (R450). -/
  | takeoverHoldStart
  /-- TAKEOVER_FINAL: The Warden in control writes TAKEOVER_FINAL after completing its passed steps (R448). -/
  | takeoverFinal (c : Fin 2)
  /-- TAKEOVER_ACCEPT: The shadow Warden writes TAKEOVER_ACCEPT (R448). -/
  | takeoverAccept (c : Fin 2)
  /-- TAKEOVER: At the start of frame T the shadow takes CONTROL and the held steps are released, or the update fails (R451). -/
  | takeover
  /-- HEALTH_PASS: The new firmware writes HEALTH_PASS and the update commits once any CONFIRM is present (R452). -/
  | healthPass (c : Fin 2)
  /-- HEALTH_FAIL: The new firmware writes HEALTH_FAIL and control is handed back with the journal (R453). -/
  | healthFail (c : Fin 2) (kept : Bool)
  /-- UPDATE_HEALTH_DEADLINE: UPDATE_HEALTH_DEADLINE passes without a passed trial, so control is handed back (R452). -/
  | updateHealthDeadline (kept : Bool)
  /-- UPDATE_ABORT: A write of ABORT to UPDATE_CTRL stops an update, hands back in TRIAL, or restores the boot selector (R447). -/
  | updateAbort (au : Auth) (kept : Bool)
  /-- UPDATE_CONFIRM: A write of CONFIRM to UPDATE_CTRL supplies the confirmation of a trial (R452). -/
  | updateConfirm (au : Auth)
  /-- UPDATE_COMMIT_DONE: The boot selector names the new slot and the update is COMMITTED (R447). -/
  | updateCommitDone
  /-- FW_CODE_RAISE: A core writes DETAIL on page 0x0260 and raises a firmware event code (R491). -/
  | fwCodeRaise (c : Fin 512) (detail : Nat)
  /-- OWNER_KEY_ADD: An owner key command ADD, checked and signed, installs a key in a slot (R462). -/
  | ownerKeyAdd (au : Auth) (bytes : List Byte) (sigOk : Bool)
  /-- OWNER_KEY_REMOVE: An owner key command REMOVE clears a slot (R462). -/
  | ownerKeyRemove (au : Auth) (bytes : List Byte) (sigOk : Bool)
  /-- OWNER_KEY_SET_REVOKED: An owner key command SET_REVOKED replaces the revocation list (R462). -/
  | ownerKeySetRevoked (au : Auth) (bytes : List Byte) (sigOk : Bool)
  /-- OWNER_RESET: SERVICE writes OWNER_RESET, clearing every owner slot and closing FACILITY and HOST sessions (R463). -/
  | ownerReset (au : Auth)
  /-- ROLLBACK_RAISE: A write of ROLLBACK_RAISE raises an owner rollback counter (R466). -/
  | rollbackRaise (au : Auth) (bytes : List Byte)
  /-- QUOTE_REQ: A write of a nonce to QUOTE_REQ forms a quote at its accepting count (R470). -/
  | quoteReq (n : Nat) (nonce : List Byte)
  /-- QUOTE_SIGNED: The AK signature of a requested quote completes and the quote can be read (R470). -/
  | quoteSigned (n : Nat) (sig : List Byte)
  /-- RECORDER_FULL_COMMIT: Every 600 operating seconds or when the delta area is three-quarters full, a full recorder copy is written (R488). -/
  | recorderFullCommit
  /-- RECORDER_COMMIT_DONE: A full commit completes, or fails with RECORDER_COMMIT_FAILED (R488). -/
  | recorderCommitDone (ok : Bool)
  /-- IMMEDIATE_APPEND: An IMMEDIATE code occurrence appends its record to the delta area within 100 ms (R489). -/
  | immediateAppend
  /-- TOKEN_REFILL: A code's rate bucket gains one token (R484). -/
  | tokenRefill (code : Ev)
  /-- RECORDER_SUPPRESSED: At each whole second of count, RECORDER_SUPPRESSED is raised for each code that suppressed occurrences (R485). -/
  | recorderSuppressed
  /-- RECORDER_CLEAR: SERVICE writes RECORDER_CLEAR, emptying every code record with a full commit (R486). -/
  | recorderClear (au : Auth)
  /-- OPERATING_SECOND: Rye counts another whole operating second (R483). -/
  | operatingSecond
  /-- FRU_READ: A FRU record of an accelerator or the tray is read, with FRU_READ_FAILED on failure (R492). -/
  | fruRead (pos : Fin 9) (image : Option (List Byte))
  /-- PE_SERIAL_WRITE: SERVICE writes PE_SERIAL, zeroing the pass-element record and raising PE_REPLACED (R494). -/
  | peSerialWrite (au : Auth) (b : Fin 12) (bytes : List Byte)
  /-- PEAK_RESET: A write of PEAK_RESET restarts the power peaks (R495). -/
  | peakReset (au : Auth)
  /-- POWER_SAMPLE: Each microsecond Rye forms each channel's power and adds it to the energy accumulator (R497). -/
  | powerSample (pkg : Rat)
  /-- POWER_WINDOW_END: A frame-period window ends, forming the frame average and updating the peaks (R495). -/
  | powerWindowEnd
  /-- AVG_BLOCK_END: A 1 s, 1 min or 1 h block of count completes and its average is formed (R496). -/
  | avgBlockEnd (k : Fin 3)
  /-- CONVERTER_START: VIN56 crosses 36 V rising, so the in-package converter starts charging HOLDUP at 1.0 A, VAON33 rises and Sorghum holds FAULT_N low until Rye release (R520). -/
  | converterStart (v : Rat)
  /-- VIN_RETURN_IN_HOLDUP: VIN56 returns while hold-up still lasts, so the count continues on XTAL25 from its present value in the same epoch and TIME_STATE stays COARSE (R57). -/
  | vinReturnInHoldup (v : Rat)
  /-- SB_LINK_DOWN: A sideband port loses its 25GBASE-KR link, SB_LINK goes DOWN and a sideband link fault is stamped (R396). -/
  | sbLinkDown (p : Fin 8)
  /-- SB_LINK_UP: A sideband port completes training and SB_LINK becomes UP, so telemetry and PTP can flow again (R396). -/
  | sbLinkUp (p : Fin 8)
  /-- SERVICE_LINK_UP: The service port's link to its external PHY comes up, and the part sends an ANNOUNCE on it (R366). -/
  | serviceLinkUp
  /-- GATE_ENTRY_START: At a count fixed by a host port's gate control list, the next entry opens its classes, and frames held behind closed gates are sent (R387). -/
  | gateEntryStart (p : Fin 2)
  deriving DecidableEq, Repr

end Sys2Proof
end

