-- ==== Sys2Proof/Decode.lean ====
section
/-! DEFINITION. The table of this block gives its commands no bits: no word spells one (log 1). -/
namespace Sys2Proof

/-- The command that a word spells by the table's bits: none, since spec/opcode_table.json gives no row any. -/
def decodeTableWord (_nbits _w : Nat) : Option Instr := none

end Sys2Proof
end

