-- ==== Sys2Proof/Config.lean ====
section
/-! DEFINITION. What an implementation fixes and the spec leaves open, and the free values: constants with no body, so
that nothing can be proved about their values (log 5 to log 9). -/
namespace Sys2Proof.Config

open Sys2Proof.Machine

/-- The code number of an event whose number the spec does not state (17 R479 gives ranges; log 5). -/
opaque evCode : Ev → Nat

/-- The DETAIL of an event where no rule states it (02 R68; log 6). -/
opaque detail : Ev → Nat → Nat

/-- SHAKE256 over a byte string, as many bytes as asked (16; log 7). -/
opaque shake : List Byte → Nat → List Byte

/-- A free value of the given width in bits, the n-th taken (log 8). -/
opaque free : Nat → Nat → Nat

/-- Free bytes: what a DMA read or a destination holds where the spec leaves it open (14 R421; log 8). -/
opaque freeByte : Nat → Byte

/-- The EXTRA of a measurement that holds two values, whose packing the spec does not state (16 Table 16.4; log 35). -/
opaque pair : Nat → Nat → Nat

/-- The digests of Cardamom's ROM and of the layout block of the RCB (16 Table 16.4; log 7). -/
opaque romDigest : List Byte
opaque layoutDigest : List Byte

/-- The bundle that 256 bits spell: the spec does not state the operation encodings within the slots (03 R81; log 22). -/
opaque decodeBundle : Nat → Bundle

/-- Whether a signature of a record verifies under the public key of a digest (16 R460; log 7). -/
opaque verifies : List Byte → List Byte → Bool

/-- What an object reads where the spec gives it no value: by key and position (log 41). -/
opaque openValue : Nat → Nat → Nat

/-- Bits 0, 2 and 3 of FLAGS in an entry descriptor, by key (12 Table 12.4; log 42). -/
opaque entryFlags : Nat → Nat

/-- The contents of the boot ROM, which the spec does not give (14 Table 14.3; log 8). -/
opaque romByte : Nat → Byte

/-- A byte of the NOR window as what the two devices hold makes it: the firmware slots and the boot selector, the settings,
the recorder and the security record (14 Table 14.3, 15 R443; log 8). -/
opaque norByte : Nat → List FwSlot → Nat → List NorCopy → List NutCopy → List SecRecord → Byte

/-- A byte of a region of LPDDR4X that the hardware fills, as the copy there and the byte last written over it make it: the layout of
these copies is not stated (14 Table 14.1, 04 R133; log 8). -/
opaque keptByte : Nat → Kept → Byte → Byte

/-- How many ns a frame with a message takes on a host port, at 200 Gb/s or at 100 Gb/s: the spec does not give the bytes around a
message (13 R387; log 46). -/
opaque frameNs : Bool → Msg → Nat

/-- Where a checkpoint buffer stands in the full ring (14 Table 14.1 gives no place; log 8). -/
opaque ckptBase : Nat → Nat

/-- ML-KEM-1024 encapsulation to a key with given randomness: ciphertext and shared secret (16 R472, FIPS 203; log 7). -/
opaque encaps : List Byte → List Byte → List Byte × List Byte

/-- AES-256-GCM under a key and a nonce: the ciphertext of a text with its 16-byte tag over the additional data too (16 R474; log 7). -/
opaque aesGcm : List Byte → List Byte → List Byte → List Byte → List Byte

/-- A signature of the part's identity key over a message (16 R472; log 7). -/
opaque sign : List Byte → List Byte

end Sys2Proof.Config
end

