-- ==== Sys2Proof/Machine/Float.lean ====
section
/-! DEFINITION. Exact binary floating point: decoding to a dyadic number, and ONE rounding (round to nearest
even). Used by the vector unit (03 R103 to R116), Teff (04), Anise (07, binary64) and every F32 object. -/
namespace Sys2Proof.Machine

/-- A binary interchange format: exponent width and stored mantissa width. -/
structure Fmt where
  ew : Nat
  mw : Nat
  deriving DecidableEq, Repr

def Fmt.f32 : Fmt := ⟨8, 23⟩
def Fmt.bf16 : Fmt := ⟨8, 7⟩
def Fmt.f64 : Fmt := ⟨11, 52⟩

/-- A decoded value: NaN, an infinity, or ±m · 2^e. -/
inductive FV
  | nan
  | inf (neg : Bool)
  | fin (neg : Bool) (m : Nat) (e : Int)
  deriving DecidableEq, Repr

def Fmt.bias (f : Fmt) : Int := 2 ^ (f.ew - 1) - 1

/-- The exponent of the least significant bit of a subnormal. -/
def Fmt.qmin (f : Fmt) : Int := 1 - f.bias - (f.mw : Int)

/-- The canonical NaN (03 R100, R103). -/
def Fmt.qnan (f : Fmt) : Nat := (2 ^ f.ew - 1) * 2 ^ f.mw + 2 ^ (f.mw - 1)

def Fmt.infBits (f : Fmt) (neg : Bool) : Nat :=
  (if neg then 2 ^ (f.ew + f.mw) else 0) + (2 ^ f.ew - 1) * 2 ^ f.mw

/-- Decode a bit pattern. -/
def Fmt.decode (f : Fmt) (bits : Nat) : FV :=
  let neg := (bits / 2 ^ (f.ew + f.mw)) % 2 == 1
  let ex := (bits / 2 ^ f.mw) % 2 ^ f.ew
  let ma := bits % 2 ^ f.mw
  if ex == 2 ^ f.ew - 1 then
    if ma == 0 then .inf neg else .nan
  else if ex == 0 then .fin neg ma f.qmin
  else .fin neg (ma + 2 ^ f.mw) (f.qmin + (ex : Int) - 1)

/-- Shift right by `k` with round to nearest, ties to even. -/
def rneShift (m k : Nat) : Nat :=
  let q := m / 2 ^ k
  let r := m % 2 ^ k
  if 2 * r > 2 ^ k || (2 * r == 2 ^ k && q % 2 == 1) then q + 1 else q

/-- Round ±m · 2^e once, to nearest even, into `f`. -/
def Fmt.round (f : Fmt) (neg : Bool) (m : Nat) (e : Int) : Nat :=
  let s := if neg then 2 ^ (f.ew + f.mw) else 0
  if m == 0 then s
  else
    let q := max ((Nat.log2 m : Int) + e - (f.mw : Int)) f.qmin
    let m' := if q ≤ e then m * 2 ^ (e - q).toNat else rneShift m (q - e).toNat
    let body :=
      if m' < 2 ^ f.mw then m'
      else ((q - f.qmin).toNat + 1) * 2 ^ f.mw + (m' - 2 ^ f.mw)
    if body ≥ (2 ^ f.ew - 1) * 2 ^ f.mw then f.infBits neg else s + body

/-- Pack a decoded value back (rounding once). -/
def Fmt.pack (f : Fmt) : FV → Nat
  | .nan => f.qnan
  | .inf neg => f.infBits neg
  | .fin neg m e => f.round neg m e

def FV.neg : FV → FV
  | .nan => .nan
  | .inf n => .inf (!n)
  | .fin n m e => .fin (!n) m e

def signedOf (neg : Bool) (m : Nat) : Int := if neg then -(m : Int) else m

/-- Exact sum of two dyadics; an exact zero is +0 unless both addends are −0 (R103, round to nearest). -/
def FV.add : FV → FV → FV
  | .nan, _ => .nan
  | _, .nan => .nan
  | .inf a, .inf b => if a == b then .inf a else .nan
  | .inf a, _ => .inf a
  | _, .inf b => .inf b
  | .fin na ma ea, .fin nb mb eb =>
    let e := min ea eb
    let s := signedOf na (ma * 2 ^ (ea - e).toNat) + signedOf nb (mb * 2 ^ (eb - e).toNat)
    if s == 0 then .fin (na && nb) 0 0 else .fin (s < 0) s.natAbs e

/-- Exact product. -/
def FV.mul : FV → FV → FV
  | .nan, _ => .nan
  | _, .nan => .nan
  | .inf a, .inf b => .inf (a != b)
  | .inf a, .fin b m _ => if m == 0 then .nan else .inf (a != b)
  | .fin a m _, .inf b => if m == 0 then .nan else .inf (a != b)
  | .fin a m e, .fin b n g => .fin (a != b) (m * n) (e + g)

/-- A quotient exact to 70 bits with a sticky bit, so that one rounding follows. -/
def FV.div : FV → FV → FV
  | .nan, _ => .nan
  | _, .nan => .nan
  | .inf _, .inf _ => .nan
  | .inf a, .fin b _ _ => .inf (a != b)
  | .fin a _ _, .inf b => .fin (a != b) 0 0
  | .fin a m e, .fin b n g =>
    if n == 0 then (if m == 0 then .nan else .inf (a != b))
    else
      let k := Nat.log2 n + 70
      let q := (m * 2 ^ k) / n
      let sticky := if (m * 2 ^ k) % n == 0 then 0 else 1
      .fin (a != b) (2 * q + sticky) (e - g - (k : Int) - 1)

/-- A square root exact to 70 bits with a sticky bit. -/
def FV.sqrt : FV → FV
  | .nan => .nan
  | .inf n => if n then .nan else .inf false
  | .fin n m e =>
    if m == 0 then .fin n 0 0
    else if n then .nan
    else
      let k : Nat := 140 + (if e % 2 == 0 then 0 else 1)
      let r := Nat.sqrt (m * 2 ^ k)
      let sticky := if r * r == m * 2 ^ k then 0 else 1
      .fin false (2 * r + sticky) ((e - (k : Int)) / 2 - 1)

/-- Compare: `some true` when a < b; `none` when a NaN is among them. -/
def FV.lt? : FV → FV → Option Bool
  | .nan, _ => none
  | _, .nan => none
  | .inf a, .inf b => some (a && !b)
  | .inf a, .fin _ _ _ => some a
  | .fin _ _ _, .inf b => some (!b)
  | .fin na ma ea, .fin nb mb eb =>
    let e := min ea eb
    some (decide (signedOf na (ma * 2 ^ (ea - e).toNat) < signedOf nb (mb * 2 ^ (eb - e).toNat)))

def FV.lt (a b : FV) : Bool := a.lt? b == some true
def FV.le (a b : FV) : Bool := b.lt? a == some false
def FV.isNan : FV → Bool
  | .nan => true
  | _ => false
def FV.isInf : FV → Bool
  | .inf _ => true
  | _ => false
def FV.isZero : FV → Bool
  | .fin _ m _ => m == 0
  | _ => false

/-! Operations on bit patterns, each rounded once (03 R104; 07 R216 for binary64). -/

def Fmt.add (f : Fmt) (a b : Nat) : Nat := f.pack ((f.decode a).add (f.decode b))
def Fmt.neg (f : Fmt) (a : Nat) : Nat :=
  if (a / 2 ^ (f.ew + f.mw)) % 2 == 1 then a - 2 ^ (f.ew + f.mw) else a + 2 ^ (f.ew + f.mw)
def Fmt.abs (f : Fmt) (a : Nat) : Nat := a % 2 ^ (f.ew + f.mw)
def Fmt.sub (f : Fmt) (a b : Nat) : Nat := f.add a (f.neg b)
def Fmt.mul (f : Fmt) (a b : Nat) : Nat := f.pack ((f.decode a).mul (f.decode b))
def Fmt.div (f : Fmt) (a b : Nat) : Nat := f.pack ((f.decode a).div (f.decode b))
def Fmt.sqrt (f : Fmt) (a : Nat) : Nat := f.pack (f.decode a).sqrt
def Fmt.fma (f : Fmt) (a b c : Nat) : Nat := f.pack (((f.decode a).mul (f.decode b)).add (f.decode c))
def Fmt.lt (f : Fmt) (a b : Nat) : Bool := (f.decode a).lt (f.decode b)
def Fmt.le (f : Fmt) (a b : Nat) : Bool := (f.decode a).le (f.decode b)
def Fmt.isNan (f : Fmt) (a : Nat) : Bool := (f.decode a).isNan
def Fmt.isInf (f : Fmt) (a : Nat) : Bool := (f.decode a).isInf
def Fmt.isFinite (f : Fmt) (a : Nat) : Bool := !(f.isNan a) && !(f.isInf a)
/-- max and min of two finite values (the first where they are equal). -/
def Fmt.max (f : Fmt) (a b : Nat) : Nat := if f.lt a b then b else a
def Fmt.min (f : Fmt) (a b : Nat) : Nat := if f.lt b a then b else a

/-! Between rationals and bit patterns. -/

/-- The rational value of a finite pattern (0 for NaN and infinities). -/
def Fmt.toRat (f : Fmt) (bits : Nat) : Rat :=
  match f.decode bits with
  | .fin n m e => if e < 0 then mkRat (signedOf n m) (2 ^ e.natAbs) else ((signedOf n m * 2 ^ e.natAbs : Int) : Rat)
  | _ => 0

/-- The nearest pattern to a rational, ties to even. -/
def Fmt.ofRat (f : Fmt) (q : Rat) : Nat :=
  if q.num == 0 then 0
  else f.pack ((FV.fin (q.num < 0) q.num.natAbs 0).div (.fin false q.den 0))

/-- An integer converted exactly or rounded once. -/
def Fmt.ofInt (f : Fmt) (n : Int) : Nat := f.round (n < 0) n.natAbs 0

/-- The pattern of one format converted to another (exact when it widens). -/
def Fmt.conv (f g : Fmt) (bits : Nat) : Nat := g.pack (f.decode bits)

def f32ToRat (b : Nat) : Rat := Fmt.f32.toRat b
def f32OfRat (q : Rat) : Nat := Fmt.f32.ofRat q

/-- Round a dyadic to an integer, ties to even. -/
def FV.rint : FV → Int
  | .fin n m e => if e ≥ 0 then signedOf n (m * 2 ^ e.toNat) else signedOf n (rneShift m e.natAbs)
  | _ => 0

end Sys2Proof.Machine
end

