-- ==== Sys2Proof/Machine/State.lean ====
section
/-! DEFINITION. The state of the part: everything the spec gives it, as plain data, and the state after reset. -/
namespace Sys2Proof.Machine

open Sys2Proof

/-- No command ends in a fault: every row of the table has an effect, or none where its premise does not hold. -/
inductive Fault
  deriving DecidableEq, Repr

/-- Why a command is refused. `notModelled`: raised by exec for a command without a meaning (safe: the machine stops). -/
inductive Refusal
  | notModelled (mnemonic : String)
  deriving DecidableEq, Repr

/-- The grade of the part (00 R2, Table 0.1): 64, 48 or 32 active tiles; the ABSENT and SPARE tiles chosen at
manufacture (03 R75); and the constants of the identity block. -/
structure Ident where
  active : Nat
  absent : List Nat
  spare : List Nat
  consts : Map (List Byte)
  deriving DecidableEq, Repr

/-- The state. `pending` is the queue of commands, first in, first out; `nums` the numeric dictionary objects and
`blobs` the STR and DOMAIN objects that differ from their defaults; `free` counts the free values taken. -/
structure State where
  pending : List Instr
  nums : Map Nat
  blobs : Map (List Byte)
  clk : Clock
  pow : Power
  br : Vector Branch 12
  sq : Vector Seq 9
  acc : Vector Accel 8
  heat : Heat
  cool : Cooling
  part : Part
  ev : Events
  nut : Nutmeg
  rep : Vector PowerCh 13
  pkgEnergy : Nat
  oda : Oda
  port : Ports
  eng : Engine
  img : Images
  ani : Anise
  mem : Mem
  bar : Barley
  cardamom : Security
  ident : Ident
  free : Nat
  deriving DecidableEq, Repr

/-! ## The values of the parts at reset -/

def Column.zero : Column := ⟨0, false, false, false⟩

def Tile.init : Tile where
  st := .none_
  full := false
  testing := false
  ihalf := 0
  owner := 0
  swaps := []
  run := none
  seq := ⟨0, [], none, true⟩
  sending := none
  imemBad := []
  counted := []
  beatBad := false
  vflag := []
  swapped := []
  ueOffset := 0
  ueFrame := 0
  arith := 0
  ueAt := []
  beatUe := []
  ceAt := []
  log := false
  failNow := false
  badBundle := false
  acc := []
  vreg := []
  vbad := []
  accBad := []
  sram := []
  poison := []
  imem := []
  held := []

/-- All bytes 0: the descriptor default (04 Table 4.4). -/
def Desc.zero : Desc where
  cls := 0
  openBit := false
  replica := false
  delta := false
  notify := false
  kind := 0
  source := 0
  model := 0
  codebook := 0
  scale := 0
  offset := 0
  iscale := 0
  ioffset := 0
  lane := 0
  holdF := 0
  reduce := 0
  limit := 0
  switchAt := 0
  consumer := 0
  tag := 0
  inject := 0

/-- A session that was never opened (04 R125: CLOSED). -/
def Sess.closed : Sess where
  st := .closed
  desc := Desc.zero
  eff := Desc.zero
  effCount := 0
  changes := []
  switch := none
  openReady := none
  closeCount := none
  modelActive := 0xFFFF
  lane := 0xFFFF
  ltile := 0xFF
  k := 1
  phase := 0
  opener := none
  sflags := 0
  lastError := 0
  openedFrame := 0
  lastFrame := 0
  lastToken := 0
  gaps := 0
  stales := 0
  saturations := 0
  invalids := 0
  switches := 0
  mismatches := 0
  yref := none
  lastCode := 0
  held := 0
  state := []
  fresh := false
  record := none
  lastValid := none
  stopUntil := none
  restoreBase := none
  moving := false
  poisoned := false
  copyBad := false
  onTwin := false
  satToken := false
  lost := false
  frameFlags := 0

def FrameLedger.empty : FrameLedger := ⟨0, 0, 0, 0, false, false, false, false, 0, []⟩

def Rings.init : Rings where
  select := []
  images := []
  kept := []
  books := []
  st := .idle
  blocks := []
  bases := []
  dec := []
  decBases := []
  trigger := none
  freezeDue := none
  trigsIgnored := 0
  exports := []
  replay := .idle
  exp := none
  rest := []

def Engine.init : Engine where
  running := false
  stopped := false
  frame := 0
  any := false
  cycle := 0
  beats := []
  inputs := []
  raws := []
  deriving_ := []
  rawFrom := []
  deriveFrom := []
  derivedOld := []
  derivedEnd := 0
  derivedBad := []
  reuse := []
  cutoff := none
  next := 0
  skipBase := 0
  skipDiv := 1
  p0Done := true
  mainDone := true
  tiles := Vector.replicate 68 Tile.init
  sess := []
  books := []
  lib := []
  slots := []
  loads := []
  samples := []
  arriving := []
  early := []
  cur := FrameLedger.empty
  ledgers := []
  tokens := []
  yrefs := []
  controls := []
  nextTokens := []
  nextControls := []
  cutControls := []
  nextLedger := FrameLedger.empty
  teff := []
  records := []
  output := []
  derived := []
  bufA := none
  bufB := none
  newest := 0
  writing := none
  ckptStale := false
  writes := []
  ring := Rings.init

def Images.init : Images where
  store := Vector.replicate 4 ⟨.empty, [], none⟩
  armed := none
  inForce := none
  spareAt := []
  cold := false
  act := .none
  coldStop := none
  replayOf := none
  armFrame := 0
  binds := []
  lostDom := Vector.replicate 2 false
  fold1 := 1
  fold2 := 1
  cap := 34
  div := 1
  plan := none
  repls := []

/-- 1.0 as FP32. -/
def oneF32 : Nat := 0x3F800000

def Anise.init : Anise where
  st := .none
  prog := none
  ready := none
  ticking := false
  tick := 0
  w := []
  temps := []
  integ := []
  mpc := []
  newTemps := none
  newMpc := none
  set := List.replicate 24 none
  rules := []
  g := Vector.replicate 12 oneF32
  jobsFrame := none
  antFrame := none
  firstRun := none
  present := []
  formed := Vector.replicate 8 none
  curves := Vector.replicate 12 none
  sent := Vector.replicate 24 none
  words := Vector.replicate 8 none
  antLine := Vector.replicate 8 none
  antPins := Vector.replicate 8 []
  jobsBack := none
  gBack := none
  jobsUe := false
  reload := false
  antSet := Vector.replicate 8 none
  sums := []
  results := []
  cstate := .off
  cap := none
  judged := 0
  prevDiverged := false
  sentFrame := none

def PowerCh.zero : PowerCh := ⟨0, 0, 0, 0, 0, 0, 0, 0, 0, none, 0, none, 0, false, []⟩

def Clock.init : Clock where
  base := 0
  cycles := 0
  running := false
  rc := false
  freqPpb := 0
  slew := 0
  state := .free
  epoch := 0
  offset := 0
  below := 0
  above := 0
  rejected := 0
  accepted := 0
  syncAlone := false
  intervalDue := none
  holdoverDue := none
  syncOut := none
  lastAccept := 0
  copy := 0
  sub := 0

def NorCopy.empty : NorCopy := ⟨0, true, [], []⟩

def Power.init : Power where
  vin := 0
  holdup := .off
  vinLost := true
  vinLow := false
  vinLowAt := 0
  vinStable := false
  vinBadAt := 0
  trayLowAt := none
  levelAt := 0
  levelWas := []
  pumpDue := none
  pumped := false
  trayOnCount := 0
  trayOnCycle := none
  rcbLoaded := false
  rcbInvalid := false
  rcbA := NorCopy.empty
  rcbB := NorCopy.empty
  norA := NorCopy.empty
  norB := NorCopy.empty
  commit := none
  norReleased := false
  fracAt := 0
  fosterAt := 0
  nutDone := false

def Branch.init : Branch where
  st := .off
  was := .off
  wasAt := 0
  cause := .none
  causeAt := 0
  demand := false
  gate := .off
  en := true
  enLow := false
  enLowAt := 0
  zeroStands := false
  seated := false
  treins := none
  cur := 0
  vin := 0
  vout := 0
  pulledAt := 0
  inrushAt := 0
  inrushUs := 0
  inrushDone := false
  inMode := 1
  inIlim := 0
  inTilim := 0
  inTgate := 0
  inRampUa := 0
  inrushLast := 0
  lowAt := none
  hotAt := none
  outAt := none
  vdsAt := none
  noRise := false
  gateDue := none
  watchDue := none
  frac := 0
  warnArmed := true
  theta1 := 0
  theta2 := 0
  theta3 := 0
  tModel := 25
  tDirect := 25
  sensorFault := false
  hotArmed := true
  fGateNoRise := false
  fOutputWhileOff := false
  fNotCleared := false
  fVdsHigh := false
  fCleared := false
  adapted := none
  adaptedNext := none
  adaptedDue := 0
  onAt := 0
  inrushJ := 0
  offsetDone := false

def Rail.init : Rail := ⟨0, false, false, false, false, false, false, false, false, false, false, false, []⟩

def Seq.init : Seq where
  st := .idle
  was := .idle
  wasAt := 0
  kind := .none
  list := []
  step := 0
  stepAt := 0
  wait := none
  cause := 0
  causeRail := 0xFF
  causeAt := 0
  offCount := 0
  offCycle := 0
  lastOff := .none
  heldEnd := 0
  pgood := false
  out := Vector.replicate 8 false
  rails := Vector.replicate 16 Rail.init
  pgE0 := 0
  pgFrom := 0
  pgDirty := false
  thermtripN := true
  endSnap := none
  retainDown := false
  faults := []
  retryDue := none
  exhausted := false
  afterDown := 0
  upAfter := false

def Accel.init : Accel where
  reqF := .none
  reqH := .none
  reqS := .none
  reqP := .none
  effective := false
  thermalHold := false
  leakHold := false
  tripAt := 0
  quarantined := false
  faults := []
  temp := none
  tempAt := 0
  capPct := 100
  capW := 0
  capSource := 0
  limitDue := none
  limitInForce := none
  limitTries := 0
  limitSent := none
  limitRetryDue := none

def Heat.init : Heat where
  tMain := 25
  tSorghum := 25
  mainSensors := []
  sorghumSensors := []
  mainWarn := false
  sorghumWarn := false
  sorghumOt := false
  lt := 0
  lLevel := 0
  lastRise := none
  lastChange := none
  gridFrom := 0
  crossed := false
  restartDue := none
  restarting := false
  retained := false
  shut := false
  channels := Vector.replicate 32 none
  chFault := Vector.replicate 32 false

def Output.init : Output := ⟨.failsafe, 0, none, false, 0, 0, .notDriven⟩

def Cooling.init : Cooling where
  outs := Vector.replicate 24 Output.init
  tach := Vector.replicate 16 0
  fanFault := Vector.replicate 16 false
  flow := Vector.replicate 12 0
  flowLow := Vector.replicate 12 false
  leaks := Vector.replicate 8 ⟨0, .dry, 0, 0, 0, 0, 0, 0⟩
  zones := Vector.replicate 8 .clear

def Part.init : Part where
  st := .off
  safeCause := .none
  stateCount := 0
  safeFromRun := false
  degraded := 0
  boot := .held
  slotTried := 0
  reset := true
  resetDue := 0
  fwRestarting := false
  crashTimes := []
  strap := false
  restorePending := false
  restored := false
  restoredAt := 0

def Events.init : Events := ⟨false, 0, 0, [], [], []⟩

def NutData.empty : NutData := ⟨0, 0, [], [], [], []⟩
def NutCopy.empty : NutCopy := ⟨0, true, NutData.empty, 0, []⟩

def Nutmeg.init : Nutmeg where
  info := []
  records := []
  tokens := []
  refilled := []
  sinceSecond := []
  copyA := NutCopy.empty
  copyB := NutCopy.empty
  commitTo := none
  lastFullS := 0
  lossCommit := none
  immediate := []
  secondCycle := 0
  insPending := []
  commitFailed := false
  lately := (0, [])
  onSince := []

def Oda.init : Oda := ⟨false, false, [], 0, [], [], 0, 0, none, [], 0, []⟩

def HostPort.init : HostPort where
  link := .down
  longDrops := 0
  autonegDue := none
  queue := []
  line := []
  gates := ⟨0, []⟩
  gatesNext := none
  open_ := 0xFF
  entry := 0
  an := none
  txAn := none
  txDue := none
  oldAn := none
  oldDue := 0
  keys := []
  oldPn := 0
  oldSeen := []
  txPn := 1
  pnLow := false
  rxPn := 0
  rxSeen := []
  gm := none
  syncStamp := 0
  syncNs := 0
  pathNs := 0
  gmDue := 0
  reqAt := none
  tags := []
  older := []
  gatesFrom := 0

def Ports.init : Ports where
  host := Vector.replicate 2 HostPort.init
  sb := Vector.replicate 8 ⟨.down, none, [], 0, []⟩
  svcOn := false
  svcUp := false
  svcLine := []
  rtagTx := []
  recovered := []
  followed := none
  sbSyncDue := 0

def DmaCh.init : DmaCh where
  st := .idle
  ctl := 0
  compl := 0
  enable := false
  irqEn := false
  swap := 0
  share := 0
  core := 0
  srcList := 0
  dstList := 0
  srcCount := 0
  dstCount := 0
  cell := 0
  signalEn := false
  amount := 0
  bytesDone := 0
  errAddr := 0
  errEntry := 0
  errCause := 0
  errDir := false
  runs := 0
  src := []
  dst := []
  due := []
  reached := []
  jobs := []
  startAt := 0

def Mem.init : Mem where
  st := .untrained
  ram := []
  poison := []
  retained := false
  dma := Vector.replicate 32 DmaCh.init
  runA := none
  runB := none
  cells := []
  slots := []
  refreshed := 0
  refreshFast := false
  scrubFrom := 0

/-- Cores start in the Warden (PRESUMED of RISC-V), with mtimecmp 0 (DESIGN CHOICE, log 81). -/
def Cluster.init : Cluster := ⟨.off, 0, false, false, 0, 0, 0, 0, Vector.replicate 4 ⟨.warden, 0⟩⟩

def Barley.init : Barley where
  clusters := Vector.replicate 2 Cluster.init
  outstanding := []
  reqHead := 0
  cmpTail := 0
  irqs := []
  router := []
  regions := []
  lastDenial := none
  overrides := []
  control := 0
  fwImage := none
  fwSlot := 0
  slotA := ⟨.empty, none⟩
  slotB := ⟨.empty, none⟩
  bootSlot := 0
  upd := .idle
  updError := 0
  updImage := none
  updStarted := false
  takeT := none
  takeAt := 0
  holdOn := false
  finalWritten := false
  acceptWritten := false
  healthPassed := false
  confirmed := false
  healthDue := 0
  shadowDue := 0
  fwAlt := false
  journal := []
  restartTrial := false

def SecRecord.empty : SecRecord := ⟨true, 0, [], [], 0, [], 0⟩

def Security.init : Security where
  st := .unowned
  identity := false
  pufCopy := 0
  attempt := 0
  seedHeld := false
  held := SecRecord.empty
  recA := SecRecord.empty
  recB := SecRecord.empty
  log := []
  logEntries := 0
  logBase := []
  logL := []
  commit := none

/-- A DW880-64A as the model takes it (DESIGN CHOICE, log 3): tiles T32, T33, T66 and T67 spare, none absent. -/
def Ident.dw88064A : Ident := ⟨64, [], [32, 33, 66, 67], []⟩

/-- The part right after reset: without tray power, in OFF, nothing stored and no command waiting (11 Table 11.1;
log 2). -/
def State.reset : State where
  pending := []
  nums := []
  blobs := []
  clk := Clock.init
  pow := Power.init
  br := Vector.replicate 12 Branch.init
  sq := Vector.replicate 9 Seq.init
  acc := Vector.replicate 8 Accel.init
  heat := Heat.init
  cool := Cooling.init
  part := Part.init
  ev := Events.init
  nut := Nutmeg.init
  rep := Vector.replicate 13 PowerCh.zero
  pkgEnergy := 0
  oda := Oda.init
  port := Ports.init
  eng := Engine.init
  img := Images.init
  ani := Anise.init
  mem := Mem.init
  bar := Barley.init
  cardamom := Security.init
  ident := Ident.dw88064A
  free := 0

end Sys2Proof.Machine
end

