-- ==== Sys2Proof/Machine/Objects.lean ====
section
/-! DEFINITION. The dictionary's entries (12 R343, R345, R346) as the object tables of the chapters state them, one
row per table row, and a name for every object: its key (index * 256 + subindex) and its default. -/
namespace Sys2Proof.Machine

def Obj.facilityBootReq (n : Nat) : Obj := ⟨0x113001 + n, 0⟩
def Obj.hostBootReq (n : Nat) : Obj := ⟨0x113101 + n, 0⟩
def Obj.timothyNow : Obj := ⟨0x120001, 0⟩
def Obj.timeState : Obj := ⟨0x120002, 0⟩
def Obj.timeEpoch : Obj := ⟨0x120003, 0⟩
def Obj.timeOffsetNs : Obj := ⟨0x120004, 0⟩
def Obj.timeFreqAdjPpb : Obj := ⟨0x120005, 0⟩
def Obj.timeSource : Obj := ⟨0x120101, 1⟩
def Obj.slewMaxPpm : Obj := ⟨0x120102, 100⟩
def Obj.stepThresholdNs : Obj := ⟨0x120103, 1000000⟩
def Obj.holdoverLimitS : Obj := ⟨0x120104, 10⟩
def Obj.syncRole : Obj := ⟨0x120105, 0⟩
def Obj.syncPeriodUs : Obj := ⟨0x120106, 1000⟩
def Obj.syncInDelayNs : Obj := ⟨0x120107, 0⟩
def Obj.timeSet : Obj := ⟨0x120108, 0⟩
def Obj.framePeriod : Obj := ⟨0x121001, 1⟩
def Obj.launchAt : Obj := ⟨0x121002, 0⟩
def Obj.frameStopAt : Obj := ⟨0x121003, 0⟩
def Obj.frameNumber : Obj := ⟨0x121004, 0⟩
def Obj.framesSkipped : Obj := ⟨0x121005, 0⟩
def Obj.sbLatencyNs (n : Nat) : Obj := ⟨0x121101 + n, 4000⟩
def Blob.inputLedger : Nat := 0x124000
def Blob.eventHistory : Nat := 0x126000
def Obj.engineActiveTiles : Obj := ⟨0x400001, 0⟩
def Obj.tileState (n : Nat) : Obj := ⟨0x401000 + n, 0⟩
def Obj.tileCeCount (n : Nat) : Obj := ⟨0x401100 + n, 0⟩
def Obj.tileUeCount (n : Nat) : Obj := ⟨0x401200 + n, 0⟩
def Obj.tileRetired (n : Nat) : Obj := ⟨0x401300 + n, 0⟩
def Blob.sessionDesc (n : Nat) : Nat := 0x440000 + n
def Blob.sessionStatus (n : Nat) : Nat := 0x450000 + n
def Blob.sessionOutput (n : Nat) : Nat := 0x460000 + n
def Obj.sessionsOpen : Obj := ⟨0x400002, 0⟩
def Obj.sessionsP0 : Obj := ⟨0x400003, 0⟩
def Obj.loadQueue : Obj := ⟨0x400004, 0⟩
def Blob.outputRing : Nat := 0x402000
def Obj.libImages : Obj := ⟨0x410001, 0⟩
def Obj.libBytes : Obj := ⟨0x410002, 0⟩
def Blob.modelImage (n : Nat) : Nat := 0x411000 + n
def Obj.modelState (n : Nat) : Obj := ⟨0x412000 + n, 0⟩
def Blob.codebook (n : Nat) : Nat := 0x413000 + n
def Obj.slotModel (n : Nat) : Obj := ⟨0x414000 + n, 65535⟩
def Obj.ckptFrame : Obj := ⟨0x403001, 0⟩
def Obj.ckptBytes : Obj := ⟨0x403002, 0⟩
def Obj.ckptFailures : Obj := ⟨0x403003, 0⟩
def Obj.ringState : Obj := ⟨0x403101, 0⟩
def Obj.ringOldest : Obj := ⟨0x403102, 18446744073709551615⟩
def Obj.ringNewest : Obj := ⟨0x403103, 18446744073709551615⟩
def Obj.decOldest : Obj := ⟨0x403104, 18446744073709551615⟩
def Obj.ringFreeze : Obj := ⟨0x403105, 0⟩
def Obj.triggerMask : Obj := ⟨0x403106, 3⟩
def Obj.postTriggerMs : Obj := ⟨0x403107, 500⟩
def Obj.freezeMaxS : Obj := ⟨0x403108, 300⟩
def Blob.longCapture : Nat := 0x403200
def Obj.exportFrom : Obj := ⟨0x403301, 0⟩
def Obj.exportTo : Obj := ⟨0x403302, 0⟩
def Obj.exportWhich : Obj := ⟨0x403303, 0⟩
def Blob.ringExport : Nat := 0x403400
def Blob.replayInput : Nat := 0x403500
def Obj.replayCtrl : Obj := ⟨0x403601, 0⟩
def Obj.replayState : Obj := ⟨0x403602, 0⟩
def Obj.replayFrames : Obj := ⟨0x403603, 0⟩
def Obj.replayMismatchFrame : Obj := ⟨0x403604, 18446744073709551615⟩
def Obj.replayMismatchKind : Obj := ⟨0x403605, 0⟩
def Obj.replayError : Obj := ⟨0x403606, 0⟩
def Blob.schedImage (n : Nat) : Nat := 0x404000 + n
def Obj.imageState (n : Nat) : Obj := ⟨0x404100 + n, 0⟩
def Obj.imageError (n : Nat) : Obj := ⟨0x404200 + n, 0⟩
def Obj.imageArm : Obj := ⟨0x404401, 255⟩
def Obj.activateAt : Obj := ⟨0x404402, 0⟩
def Obj.imageInForce : Obj := ⟨0x404403, 255⟩
def Obj.activationKind : Obj := ⟨0x404404, 0⟩
def Obj.imageFrame : Obj := ⟨0x404405, 0⟩
def Obj.ltileBind (n : Nat) : Obj := ⟨0x404500 + n, 65535⟩
def Obj.domainState (n : Nat) : Obj := ⟨0x404601 + n, 0⟩
def Obj.domainRetired (n : Nat) : Obj := ⟨0x404603 + n, 0⟩
def Obj.foldFactors : Obj := ⟨0x404605, 17⟩
def Obj.usableCap : Obj := ⟨0x404606, 34⟩
def Blob.aniseProgram : Nat := 0x480000
def Obj.aniseState : Obj := ⟨0x480101, 0⟩
def Obj.aniseError : Obj := ⟨0x480102, 0⟩
def Blob.aniseOutput : Nat := 0x480200
def Obj.antEnable (n : Nat) : Obj := ⟨0x481001 + n, 0⟩
def Obj.antStepMin : Obj := ⟨0x481101, 1090519040⟩
def Obj.antLastWord (n : Nat) : Obj := ⟨0x481201 + n, 0⟩
def Obj.antLate (n : Nat) : Obj := ⟨0x481301 + n, 0⟩
def Obj.adaptEnable (n : Nat) : Obj := ⟨0x482001 + n, 0⟩
def Obj.adaptMargin : Obj := ⟨0x482101, 1067450368⟩
def Obj.adaptFloor : Obj := ⟨0x482102, 1056964608⟩
def Obj.adaptFall : Obj := ⟨0x482103, 1015021568⟩
def Obj.adaptFactor (n : Nat) : Obj := ⟨0x482201 + n, 1065353216⟩
def Obj.outMin (n : Nat) : Obj := ⟨0x484001 + n, 0⟩
def Obj.outMax (n : Nat) : Obj := ⟨0x484101 + n, 1120403456⟩
def Obj.loopTarget (n : Nat) : Obj := ⟨0x484201 + n, 0⟩
def Obj.tgtMin (n : Nat) : Obj := ⟨0x484301 + n, 3296329728⟩
def Obj.tgtMax (n : Nat) : Obj := ⟨0x484401 + n, 1148846080⟩
def Obj.loopTargetEff (n : Nat) : Obj := ⟨0x484501 + n, 0⟩
def Blob.faultFlags : Nat := 0x485000
def Blob.concordProgram : Nat := 0x486000
def Obj.concordEnable : Obj := ⟨0x486101, 0⟩
def Obj.concordState : Obj := ⟨0x486102, 0⟩
def Obj.concordCapW : Obj := ⟨0x486103, 0⟩
def Obj.concordDivergences : Obj := ⟨0x486104, 0⟩
def Obj.branchState (n : Nat) : Obj := ⟨0x200001 + 0x1000 * n, 0⟩
def Obj.branchCause (n : Nat) : Obj := ⟨0x200002 + 0x1000 * n, 0⟩
def Obj.branchCurrent (n : Nat) : Obj := ⟨0x200003 + 0x1000 * n, 0⟩
def Obj.branchVin (n : Nat) : Obj := ⟨0x200004 + 0x1000 * n, 0⟩
def Obj.branchVout (n : Nat) : Obj := ⟨0x200005 + 0x1000 * n, 0⟩
def Obj.branchTripFraction (n : Nat) : Obj := ⟨0x200006 + 0x1000 * n, 0⟩
def Obj.branchTFet (n : Nat) : Obj := ⟨0x200007 + 0x1000 * n, 0⟩
def Obj.branchHealth (n : Nat) : Obj := ⟨0x200008 + 0x1000 * n, 0⟩
def Obj.branchInrushTimer (n : Nat) : Obj := ⟨0x200009 + 0x1000 * n, 0⟩
def Obj.branchEnable (n : Nat) : Obj := ⟨0x200101 + 0x1000 * n, 1⟩
def Obj.branchFetClear (n : Nat) : Obj := ⟨0x200102 + 0x1000 * n, 0⟩
def Obj.branchStartOffsetMs (n : Nat) : Obj := ⟨0x200103 + 0x1000 * n, 0⟩
def Obj.tReinsMs (n : Nat) : Obj := ⟨0x200104 + 0x1000 * n, 2000⟩
def Obj.branchShuntUohm (n : Nat) : Obj := ⟨0x200201 + 0x1000 * n, if n == 0 then 100 else if n < 9 then 500 else 2000⟩
def Obj.branchNFet (n : Nat) : Obj := ⟨0x200202 + 0x1000 * n, if n == 0 then 8 else 1⟩
def Obj.voutOffMax (n : Nat) : Obj := ⟨0x200203 + 0x1000 * n, 1077936128⟩
def Obj.offSettleMs (n : Nat) : Obj := ⟨0x200204 + 0x1000 * n, 500⟩
def Obj.rdsOnMaxUohm (n : Nat) : Obj := ⟨0x200205 + 0x1000 * n, if n == 0 then 250 else 2000⟩
def Obj.branchFastCode (n : Nat) : Obj := ⟨0x200301 + 0x1000 * n, if n == 0 then 150 else 200⟩
def Obj.branchTripMode (n : Nat) : Obj := ⟨0x200302 + 0x1000 * n, 3⟩
def Obj.tauCoolMs (n : Nat) : Obj := ⟨0x200303 + 0x1000 * n, 10000⟩
def Obj.curveWarn (n : Nat) : Obj := ⟨0x200304 + 0x1000 * n, 1056964608⟩
def Blob.branchCurve (n : Nat) : Nat := 0x200400 + 0x1000 * n
def Obj.inrushMode (n : Nat) : Obj := ⟨0x200501 + 0x1000 * n, 1⟩
def Obj.iLim (n : Nat) : Obj := ⟨0x200502 + 0x1000 * n, if n == 0 then 1109393408 else if n < 9 then 1101004800 else 1084227584⟩
def Obj.tIlimMs (n : Nat) : Obj := ⟨0x200503 + 0x1000 * n, 50⟩
def Obj.rampUa (n : Nat) : Obj := ⟨0x200504 + 0x1000 * n, 20⟩
def Obj.tGateUs (n : Nat) : Obj := ⟨0x200505 + 0x1000 * n, 5000⟩
def Obj.tfetMode (n : Nat) : Obj := ⟨0x200601 + 0x1000 * n, 2⟩
def Obj.tFetMax (n : Nat) : Obj := ⟨0x200602 + 0x1000 * n, 1125515264⟩
def Obj.tfetSensor (n : Nat) : Obj := ⟨0x200603 + 0x1000 * n, 0⟩
def Obj.ntcRes25c (n : Nat) : Obj := ⟨0x200604 + 0x1000 * n, 1176256512⟩
def Obj.ntcBeta (n : Nat) : Obj := ⟨0x200605 + 0x1000 * n, 1163309056⟩
def Obj.fosterRth1 (n : Nat) : Obj := ⟨0x200701 + 0x1000 * n, 1017370378⟩
def Obj.fosterRth2 (n : Nat) : Obj := ⟨0x200702 + 0x1000 * n, 1034147594⟩
def Obj.fosterRth3 (n : Nat) : Obj := ⟨0x200703 + 0x1000 * n, 1048576000⟩
def Obj.fosterTau1 (n : Nat) : Obj := ⟨0x200704 + 0x1000 * n, 961656599⟩
def Obj.fosterTau2 (n : Nat) : Obj := ⟨0x200705 + 0x1000 * n, 1000593162⟩
def Obj.fosterTau3 (n : Nat) : Obj := ⟨0x200706 + 0x1000 * n, 1036831949⟩
def Obj.trefSrc (n : Nat) : Obj := ⟨0x200707 + 0x1000 * n, 255⟩
def Obj.trefC (n : Nat) : Obj := ⟨0x200708 + 0x1000 * n, 1109393408⟩
def Obj.linShare (n : Nat) : Obj := ⟨0x200709 + 0x1000 * n, 0⟩
def Obj.tripsFast (n : Nat) : Obj := ⟨0x200801 + 0x1000 * n, 0⟩
def Obj.tripsCurve (n : Nat) : Obj := ⟨0x200802 + 0x1000 * n, 0⟩
def Obj.inrushAborts (n : Nat) : Obj := ⟨0x200803 + 0x1000 * n, 0⟩
def Obj.vin56V : Obj := ⟨0x210001, 0⟩
def Obj.trayOnCount : Obj := ⟨0x210002, 0⟩
def Obj.vinOv : Obj := ⟨0x210101, 1114898432⟩
def Obj.vinStableMs : Obj := ⟨0x210102, 1⟩
def Blob.dw440Import : Nat := 0x210200
def Obj.seqState (n : Nat) : Obj := ⟨0x220001 + 0x2000 * n, 0⟩
def Obj.seqStep (n : Nat) : Obj := ⟨0x220002 + 0x2000 * n, 255⟩
def Obj.seqList (n : Nat) : Obj := ⟨0x220003 + 0x2000 * n, 0⟩
def Obj.seqCause (n : Nat) : Obj := ⟨0x220004 + 0x2000 * n, 0⟩
def Obj.seqCauseRail (n : Nat) : Obj := ⟨0x220005 + 0x2000 * n, 255⟩
def Obj.seqOffCount (n : Nat) : Obj := ⟨0x220006 + 0x2000 * n, 0⟩
def Obj.seqNextAdmit (n : Nat) : Obj := ⟨0x220007 + 0x2000 * n, 0⟩
def Obj.seqPgood (n : Nat) : Obj := ⟨0x220008 + 0x2000 * n, 0⟩
def Obj.startOffsetMs (n : Nat) : Obj := ⟨0x220101 + 0x2000 * n, 0⟩
def Obj.tOffMinMs (n : Nat) : Obj := ⟨0x220102 + 0x2000 * n, 500⟩
def Obj.pgWindowUs (n : Nat) : Obj := ⟨0x220103 + 0x2000 * n, 1000⟩
def Obj.pgLimitMs (n : Nat) : Obj := ⟨0x220104 + 0x2000 * n, 100⟩
def Blob.seqUpList (n : Nat) : Nat := 0x220200 + 0x2000 * n
def Blob.seqDownList (n : Nat) : Nat := 0x220300 + 0x2000 * n
def Blob.seqEmergList (n : Nat) : Nat := 0x220400 + 0x2000 * n
def Obj.seqUpRuns (n : Nat) : Obj := ⟨0x220501 + 0x2000 * n, 0⟩
def Obj.seqEmergencies (n : Nat) : Obj := ⟨0x220502 + 0x2000 * n, 0⟩
def Obj.seqPgDeglitches (n : Nat) : Obj := ⟨0x220503 + 0x2000 * n, 0⟩
def Obj.seqRetries (n : Nat) : Obj := ⟨0x220504 + 0x2000 * n, 0⟩
def Obj.railV (n : Nat) : Obj := ⟨0x240001 + 0x100 * n, 0⟩
def Obj.railFlags (n : Nat) : Obj := ⟨0x240002 + 0x100 * n, 0⟩
def Obj.railNominalV (n : Nat) : Obj := ⟨0x240003 + 0x100 * n, 0⟩
def Obj.uvFaultR (n : Nat) : Obj := ⟨0x240004 + 0x100 * n, 1063675494⟩
def Obj.uvWarnR (n : Nat) : Obj := ⟨0x240005 + 0x100 * n, 1064514355⟩
def Obj.ovWarnR (n : Nat) : Obj := ⟨0x240006 + 0x100 * n, 1065772646⟩
def Obj.ovFaultR (n : Nat) : Obj := ⟨0x240007 + 0x100 * n, 1066192077⟩
def Obj.uvFaultDgUs (n : Nat) : Obj := ⟨0x240008 + 0x100 * n, 20⟩
def Obj.uvWarnDgUs (n : Nat) : Obj := ⟨0x240009 + 0x100 * n, 100⟩
def Obj.ovWarnDgUs (n : Nat) : Obj := ⟨0x24000A + 0x100 * n, 100⟩
def Obj.ovFaultDgUs (n : Nat) : Obj := ⟨0x24000B + 0x100 * n, 5⟩
def Obj.levelHystMv (n : Nat) : Obj := ⟨0x24000C + 0x100 * n, 10⟩
def Obj.offLevelR (n : Nat) : Obj := ⟨0x24000D + 0x100 * n, 1036831949⟩
def Obj.riseMs (n : Nat) : Obj := ⟨0x24000E + 0x100 * n, 20⟩
def Obj.dischargeMs (n : Nat) : Obj := ⟨0x24000F + 0x100 * n, 50⟩
def Obj.pgUsed (n : Nat) : Obj := ⟨0x240010 + 0x100 * n, 1⟩
def Obj.railRetain (n : Nat) : Obj := ⟨0x240011 + 0x100 * n, 0⟩
def Obj.tMainC : Obj := ⟨0x300001, 0⟩
def Obj.tSorghumC : Obj := ⟨0x300002, 0⟩
def Obj.thermalFlags : Obj := ⟨0x300003, 0⟩
def Obj.throttleLevel : Obj := ⟨0x300004, 0⟩
def Obj.throttleSkip : Obj := ⟨0x300005, 1⟩
def Obj.engineCapLevel : Obj := ⟨0x300006, 0⟩
def Obj.thermalShutdowns : Obj := ⟨0x300007, 0⟩
def Obj.sorghumOtRestart : Obj := ⟨0x300008, 0⟩
def Blob.tempMain : Nat := 0x300100
def Blob.tempSorghum : Nat := 0x300200
def Obj.tempChKind (n : Nat) : Obj := ⟨0x301001 + n, 0⟩
def Obj.tempChC (n : Nat) : Obj := ⟨0x301101 + n, 0⟩
def Obj.accelTempSource (n : Nat) : Obj := ⟨0x302001 + 0x100 * n, 65535⟩
def Obj.accelWarnC (n : Nat) : Obj := ⟨0x302002 + 0x100 * n, 1119092736⟩
def Obj.accelHystC (n : Nat) : Obj := ⟨0x302003 + 0x100 * n, 1084227584⟩
def Obj.accelRestartC (n : Nat) : Obj := ⟨0x302004 + 0x100 * n, 1118437376⟩
def Obj.accelHoldS (n : Nat) : Obj := ⟨0x302005 + 0x100 * n, 30⟩
def Obj.accelRatedW (n : Nat) : Obj := ⟨0x302006 + 0x100 * n, 1157234688⟩
def Obj.accelLimitFloorPct (n : Nat) : Obj := ⟨0x302007 + 0x100 * n, 40⟩
def Obj.accelLimitBus (n : Nat) : Obj := ⟨0x302008 + 0x100 * n, 0⟩
def Obj.accelLimitCmd (n : Nat) : Obj := ⟨0x302009 + 0x100 * n, 0⟩
def Obj.accelThermalCapPct (n : Nat) : Obj := ⟨0x30200A + 0x100 * n, 100⟩
def Obj.accelHolds (n : Nat) : Obj := ⟨0x30200B + 0x100 * n, 0⟩
def Obj.coolingType : Obj := ⟨0x310001, 1⟩
def Obj.outKind (n : Nat) : Obj := ⟨0x311001 + n, if n < 8 then 0 else 2⟩
def Obj.failsafePct (n : Nat) : Obj := ⟨0x311101 + n, 1120403456⟩
def Obj.valveClosedPct (n : Nat) : Obj := ⟨0x311201 + n, 0⟩
def Obj.outState (n : Nat) : Obj := ⟨0x311301 + n, 1⟩
def Obj.outAppliedPct (n : Nat) : Obj := ⟨0x311401 + n, 0⟩
def Obj.tachMinRpm (n : Nat) : Obj := ⟨0x312001 + n, 500⟩
def Obj.tachPulses (n : Nat) : Obj := ⟨0x312101 + n, 2⟩
def Obj.flowKPulses (n : Nat) : Obj := ⟨0x312201 + n, 1148846080⟩
def Obj.flowMinLpm (n : Nat) : Obj := ⟨0x312301 + n, 0⟩
def Obj.leakROhm (n : Nat) : Obj := ⟨0x320001 + n, 0⟩
def Obj.leakState (n : Nat) : Obj := ⟨0x320101 + n, 0⟩
def Obj.leakEnable (n : Nat) : Obj := ⟨0x320201 + n, 1⟩
def Obj.leakZone (n : Nat) : Obj := ⟨0x320301 + n, n⟩
def Obj.leakWarnOhm (n : Nat) : Obj := ⟨0x320401 + n, 1232348160⟩
def Obj.leakFaultOhm (n : Nat) : Obj := ⟨0x320501 + n, 1203982336⟩
def Obj.leakDgMs : Obj := ⟨0x320601, 3⟩
def Obj.zoneValves (n : Nat) : Obj := ⟨0x321001 + n, 0⟩
def Obj.zoneAccels (n : Nat) : Obj := ⟨0x321101 + n, 0⟩
def Obj.zoneState (n : Nat) : Obj := ⟨0x321201 + n, 0⟩
def Obj.leakClear : Obj := ⟨0x321301, 0⟩
def Obj.partState : Obj := ⟨0x110001, 0⟩
def Obj.partDegraded : Obj := ⟨0x110002, 0⟩
def Obj.safeCause : Obj := ⟨0x110003, 0⟩
def Obj.stateCount : Obj := ⟨0x110004, 0⟩
def Obj.partRestart : Obj := ⟨0x110101, 0⟩
def Obj.fwRestart : Obj := ⟨0x110102, 0⟩
def Obj.fwCrashes : Obj := ⟨0x110103, 0⟩
def Obj.mainResets : Obj := ⟨0x110104, 0⟩
def Obj.serviceStrap : Obj := ⟨0x110105, 0⟩
def Obj.protectionReq (n : Nat) : Obj := ⟨0x112001 + n, 0⟩
def Obj.facilityReq (n : Nat) : Obj := ⟨0x112101 + n, 0⟩
def Obj.hostReq (n : Nat) : Obj := ⟨0x112201 + n, 0⟩
def Obj.serviceReq (n : Nat) : Obj := ⟨0x112301 + n, 0⟩
def Obj.accelReqStatus (n : Nat) : Obj := ⟨0x112401 + n, 0⟩
def Obj.accelState (n : Nat) : Obj := ⟨0x112501 + n, 0⟩
def Obj.quarantine (n : Nat) : Obj := ⟨0x112601 + n, 0⟩
def Obj.quarRelease (n : Nat) : Obj := ⟨0x112701 + n, 0⟩
def Obj.quarFaultCount (n : Nat) : Obj := ⟨0x112801 + n, 0⟩
def Obj.quarFaults : Obj := ⟨0x112901, 3⟩
def Obj.quarWindowS : Obj := ⟨0x112902, 600⟩
def Obj.facilityCapW (n : Nat) : Obj := ⟨0x114001 + n, 0⟩
def Obj.hostCapW (n : Nat) : Obj := ⟨0x114101 + n, 0⟩
def Obj.serviceCapW (n : Nat) : Obj := ⟨0x114201 + n, 0⟩
def Obj.facilityTrayCapW : Obj := ⟨0x114301, 0⟩
def Obj.hostTrayCapW : Obj := ⟨0x114302, 0⟩
def Obj.serviceTrayCapW : Obj := ⟨0x114303, 0⟩
def Obj.trayOverheadW : Obj := ⟨0x114304, 1153138688⟩
def Obj.capInForceW (n : Nat) : Obj := ⟨0x114401 + n, 0⟩
def Obj.capSource (n : Nat) : Obj := ⟨0x114501 + n, 0⟩
def Blob.vendor : Nat := 0x100001
def Blob.partNumber : Nat := 0x100002
def Obj.stepping : Obj := ⟨0x100003, 160⟩
def Blob.serial : Nat := 0x100004
def Blob.absentTiles : Nat := 0x100005
def Obj.contractLevel : Obj := ⟨0x100006, 1⟩
def Obj.dictFormat : Obj := ⟨0x100007, 1⟩
def Obj.fwVersion : Obj := ⟨0x100008, 0⟩
def Obj.fwSlot : Obj := ⟨0x100009, 0⟩
def Blob.spareTiles : Nat := 0x10000A
def Obj.odaUdpPort : Obj := ⟨0x144001, 47201⟩
def Obj.odaMaxPayload : Obj := ⟨0x144002, 1400⟩
def Obj.odaSessions : Obj := ⟨0x144003, 0⟩
def Obj.odaAuthDrops : Obj := ⟨0x144004, 0⟩
def Obj.odaMalformed : Obj := ⟨0x144005, 0⟩
def Obj.odaNotifyDrops : Obj := ⟨0x144006, 0⟩
def Obj.odaBusy : Obj := ⟨0x144007, 0⟩
def Blob.announceGroup : Nat := 0x144100
def Blob.odaPeers : Nat := 0x144200
def Blob.txnLedger : Nat := 0x148000
def Obj.ledgerDepth : Obj := ⟨0x148101, 256⟩
def Obj.replayDepth : Obj := ⟨0x148102, 4096⟩
def Obj.replayHoldS : Obj := ⟨0x148103, 10⟩
def Obj.portMode (n : Nat) : Obj := ⟨0x140001 + n, 1⟩
def Obj.portLink (n : Nat) : Obj := ⟨0x140101 + n, 0⟩
def Obj.fecCorrected (n : Nat) : Obj := ⟨0x140201 + n, 0⟩
def Obj.fecUncorrectable (n : Nat) : Obj := ⟨0x140301 + n, 0⟩
def Obj.linkDowns (n : Nat) : Obj := ⟨0x140401 + n, 0⟩
def Blob.portMac (n : Nat) : Nat := 0x140501 + n
def Blob.portIpv4 (n : Nat) : Nat := 0x140601 + n
def Blob.portIpv6 (n : Nat) : Nat := 0x140701 + n
def Obj.portVlan (n : Nat) : Obj := ⟨0x140801 + n, 0⟩
def Blob.gateList (n : Nat) : Nat := 0x141001 + n
def Obj.sbMode (n : Nat) : Obj := ⟨0x142001 + n, 1⟩
def Obj.sbLink (n : Nat) : Obj := ⟨0x142101 + n, 0⟩
def Obj.sbNacks (n : Nat) : Obj := ⟨0x142201 + n, 0⟩
def Obj.sbLost (n : Nat) : Obj := ⟨0x142301 + n, 0⟩
def Obj.sbDrops (n : Nat) : Obj := ⟨0x142401 + n, 0⟩
def Obj.sbCountRejected (n : Nat) : Obj := ⟨0x142501 + n, 0⟩
def Obj.sbEthertype : Obj := ⟨0x142601, 34997⟩
def Obj.svcPhyAddr : Obj := ⟨0x143001, 1⟩
def Obj.ptpProfile (n : Nat) : Obj := ⟨0x145001 + n, 2⟩
def Obj.ptpDomain : Obj := ⟨0x145101, 0⟩
def Obj.ptpAsymNs (n : Nat) : Obj := ⟨0x145201 + n, 0⟩
def Obj.ptpPortFollowed : Obj := ⟨0x145301, 255⟩
def Obj.macsecMode (n : Nat) : Obj := ⟨0x146001 + n, 0⟩
def Obj.macsecKeyReq : Obj := ⟨0x146101, 0⟩
def Obj.macsecTxSwitchAt (n : Nat) : Obj := ⟨0x146201 + n, 0⟩
def Obj.macsecAn (n : Nat) : Obj := ⟨0x146301 + n, 255⟩
def Obj.macsecDrops (n : Nat) : Obj := ⟨0x146401 + n, 0⟩
def Obj.memState : Obj := ⟨0x500001, 0⟩
def Obj.memCeCount : Obj := ⟨0x500002, 0⟩
def Obj.memUeCount : Obj := ⟨0x500003, 0⟩
def Obj.memUeAddr : Obj := ⟨0x500004, 18446744073709551615⟩
def Obj.memRetained : Obj := ⟨0x500005, 0⟩
def Obj.memScrubPasses : Obj := ⟨0x500006, 0⟩
def Blob.memMap : Nat := 0x500100
def Obj.dmaState (n : Nat) : Obj := ⟨0x510001 + 0x100 * n, 0⟩
def Obj.dmaRuns (n : Nat) : Obj := ⟨0x510002 + 0x100 * n, 0⟩
def Obj.dmaHalts (n : Nat) : Obj := ⟨0x510003 + 0x100 * n, 0⟩
def Obj.dmaLastCause (n : Nat) : Obj := ⟨0x510004 + 0x100 * n, 0⟩
def Obj.milletBytesMa : Obj := ⟨0x512001, 0⟩
def Obj.milletBytesMb : Obj := ⟨0x512002, 0⟩
def Obj.syncCell (n : Nat) : Obj := ⟨0x520000 + n, 0⟩
def Obj.syncDropped : Obj := ⟨0x524001, 0⟩
def Obj.updateState : Obj := ⟨0x900001, 0⟩
def Obj.updateError : Obj := ⟨0x900002, 0⟩
def Obj.updateMode : Obj := ⟨0x900003, 0⟩
def Obj.updateAt : Obj := ⟨0x900004, 0⟩
def Obj.updateConfirmMode : Obj := ⟨0x900005, 0⟩
def Obj.updateCtrl : Obj := ⟨0x900006, 0⟩
def Obj.updateProgress : Obj := ⟨0x900007, 0⟩
def Obj.updateTakeoverFrame : Obj := ⟨0x900008, 18446744073709551615⟩
def Obj.updateHealthDeadline : Obj := ⟨0x900009, 0⟩
def Obj.updateJournalDrops : Obj := ⟨0x90000A, 0⟩
def Obj.handoverIgnored : Obj := ⟨0x90000B, 0⟩
def Blob.updateImage : Nat := 0x900100
def Obj.slotState (n : Nat) : Obj := ⟨0x900201 + n, 0⟩
def Obj.slotVersion (n : Nat) : Obj := ⟨0x900203 + n, 0⟩
def Obj.bootSlot : Obj := ⟨0x900205, 0⟩
def Obj.clusterRole (n : Nat) : Obj := ⟨0x900301 + n, if n == 0 then 1 else 0⟩
def Obj.huskDenials : Obj := ⟨0x900303, 0⟩
def Obj.overridesEnabled : Obj := ⟨0x900304, 0⟩
def Blob.deviceCert : Nat := 0x600001
def Blob.vendorCaCert : Nat := 0x600002
def Blob.akCert : Nat := 0x600003
def Blob.falconOid : Nat := 0x600004
def Blob.vendorFwKeyDigest : Nat := 0x600005
def Blob.vendorImgKeyDigest : Nat := 0x600006
def Obj.secState : Obj := ⟨0x600101, 0⟩
def Obj.setupFailures : Obj := ⟨0x600102, 0⟩
def Blob.ownerKeyDigest (n : Nat) : Nat := 0x601001 + n
def Obj.ownerKeyRoles (n : Nat) : Obj := ⟨0x601101 + n, 0⟩
def Blob.ownerKeyCmd : Nat := 0x601200
def Obj.ownerCmdCounter : Obj := ⟨0x601301, 0⟩
def Obj.ownerReset : Obj := ⟨0x601401, 0⟩
def Obj.vendorImagesOk : Obj := ⟨0x601501, 1⟩
def Blob.revoked : Nat := 0x601600
def Obj.rollbackCtr (n : Nat) : Obj := ⟨0x602001 + n, 0⟩
def Blob.rollbackRaise : Nat := 0x602100
def Obj.generation : Obj := ⟨0x602201, 0⟩
def Obj.bootCount : Obj := ⟨0x602202, 0⟩
def Blob.measLog : Nat := 0x603000
def Blob.quoteReq : Nat := 0x604000
def Blob.quote : Nat := 0x604100
def Obj.sessionIdleS : Obj := ⟨0x605001, 300⟩
def Obj.powerNowW (n : Nat) : Obj := ⟨0x280001 + n, 0⟩
def Obj.powerPeakW (n : Nat) : Obj := ⟨0x280101 + n, 0⟩
def Obj.powerPeakCount (n : Nat) : Obj := ⟨0x280201 + n, 0⟩
def Obj.avg1sW (n : Nat) : Obj := ⟨0x280301 + n, 2143289344⟩
def Obj.avg1mW (n : Nat) : Obj := ⟨0x280401 + n, 2143289344⟩
def Obj.avg1hW (n : Nat) : Obj := ⟨0x280501 + n, 2143289344⟩
def Obj.peak1sW (n : Nat) : Obj := ⟨0x280601 + n, 2143289344⟩
def Obj.energyJ (n : Nat) : Obj := ⟨0x280701 + n, 0⟩
def Obj.peakReset : Obj := ⟨0x280801, 0⟩
def Obj.pkgEnergy : Obj := ⟨0x280901, 0⟩
def Obj.recorderGeneration : Obj := ⟨0x700001, 0⟩
def Obj.recorderLastFull : Obj := ⟨0x700002, 0⟩
def Obj.recorderClear : Obj := ⟨0x700003, 0⟩
def Obj.recorderClears : Obj := ⟨0x700004, 0⟩
def Obj.partialCodes : Obj := ⟨0x700005, 0⟩
def Blob.codeInfo (n : Nat) : Nat := 0x701000 + n
def Obj.codeRate (n : Nat) : Obj := ⟨0x702000 + n, 256⟩
def Blob.codeRecord (n : Nat) : Nat := 0x710000 + n
def Blob.traySerial : Nat := 0x720001
def Blob.trayPartNumber : Nat := 0x720002
def Obj.trayFruState : Obj := ⟨0x720003, 0⟩
def Blob.accelSerial (n : Nat) : Nat := 0x721001 + n
def Blob.accelPartNumber (n : Nat) : Nat := 0x721101 + n
def Blob.accelManufacturer (n : Nat) : Nat := 0x721201 + n
def Obj.accelFruState (n : Nat) : Obj := ⟨0x721301 + n, 0⟩
def Obj.posInsertions (n : Nat) : Obj := ⟨0x721401 + n, 0⟩
def Obj.posOnS (n : Nat) : Obj := ⟨0x721501 + n, 0⟩
def Obj.serialInsertions (n : Nat) : Obj := ⟨0x721601 + n, 0⟩
def Blob.peSerial (n : Nat) : Nat := 0x722001 + n
def Obj.peOnS (n : Nat) : Obj := ⟨0x722101 + n, 0⟩
def Obj.peInrushes (n : Nat) : Obj := ⟨0x722201 + n, 0⟩
def Obj.peTrips (n : Nat) : Obj := ⟨0x722301 + n, 0⟩
def Obj.peTfetMax (n : Nat) : Obj := ⟨0x722401 + n, 3280507699⟩
def Obj.peInrushJ (n : Nat) : Obj := ⟨0x722501 + n, 0⟩
def Obj.operatingS : Obj := ⟨0x730001, 0⟩
def Obj.powerCycles : Obj := ⟨0x730002, 0⟩

/-- Rows of the object tables, part 0. -/
def entries0 : List Entry := [
  ⟨"FACILITY_BOOT_REQ", 0x1130, 1, 1, 1, 8, .u8, 3, 1, 3, 0, 0, 0, .rcb, false, 0, (.ints 0 2), true, false⟩,
  ⟨"HOST_BOOT_REQ", 0x1131, 1, 1, 1, 8, .u8, 1, 3, 3, 0, 0, 0, .rcb, false, 0, (.ints 0 2), true, false⟩,
  ⟨"TIMOTHY_NOW", 0x1200, 1, 1, 1, 1, .count, 1, 1, 1, 0, 0, 0, .volatile, false, 0, .any, true, false⟩,
  ⟨"TIME_STATE", 0x1200, 1, 1, 2, 1, .u8, 1, 1, 1, 0, 0, 0, .volatile, false, 0, (.ints 0 4), true, false⟩,
  ⟨"TIME_EPOCH", 0x1200, 1, 1, 3, 1, .u32, 1, 1, 1, 0, 0, 0, .hardware, false, 0, .any, true, false⟩,
  ⟨"TIME_OFFSET_NS", 0x1200, 1, 1, 4, 1, .i64, 1, 1, 1, 0, 0, 0, .volatile, false, 0, .any, false, false⟩,
  ⟨"TIME_FREQ_ADJ_PPB", 0x1200, 1, 1, 5, 1, .i32, 1, 1, 1, 0, 0, 0, .hardware, false, 0, (.ints (-200000) 200000), true, false⟩,
  ⟨"TIME_SOURCE", 0x1201, 1, 1, 1, 1, .u8, 3, 1, 3, 0, 0, 0, .nor, false, 1, (.ints 0 3), true, false⟩,
  ⟨"SLEW_MAX_PPM", 0x1201, 1, 1, 2, 1, .u16, 3, 1, 3, 0, 0, 0, .nor, false, 100, (.ints 1 500), true, false⟩,
  ⟨"STEP_THRESHOLD_NS", 0x1201, 1, 1, 3, 1, .u32, 3, 1, 3, 0, 0, 0, .nor, false, 1000000, (.ints 1000 1000000000), true, false⟩,
  ⟨"HOLDOVER_LIMIT_S", 0x1201, 1, 1, 4, 1, .u16, 3, 1, 3, 0, 0, 0, .nor, false, 10, (.ints 1 3600), true, false⟩,
  ⟨"SYNC_ROLE", 0x1201, 1, 1, 5, 1, .u8, 3, 1, 3, 0, 0, 0, .nor, false, 0, (.ints 0 4), true, false⟩,
  ⟨"SYNC_PERIOD_US", 0x1201, 1, 1, 6, 1, .u32, 3, 1, 3, 0, 0, 0, .nor, false, 1000, (.multIn 100 1000000 100), true, false⟩,
  ⟨"SYNC_IN_DELAY_NS", 0x1201, 1, 1, 7, 1, .u16, 3, 1, 3, 0, 0, 0, .nor, false, 0, (.ints 0 2000), true, false⟩,
  ⟨"TIME_SET", 0x1201, 1, 1, 8, 1, .count, 6, 0, 6, 8, 0, 8, .volatile, false, 0, (.mult 0 40), false, false⟩,
  ⟨"FRAME_PERIOD", 0x1210, 1, 1, 1, 1, .u8, 7, 7, 7, 8, 8, 8, .nor, false, 1, (.ints 0 3), true, false⟩,
  ⟨"LAUNCH_AT", 0x1210, 1, 1, 2, 1, .count, 7, 7, 7, 8, 8, 8, .hardware, false, 0, (.mult 0 40), true, false⟩,
  ⟨"FRAME_STOP_AT", 0x1210, 1, 1, 3, 1, .count, 7, 7, 7, 16, 16, 16, .hardware, false, 0, (.mult 0 40), true, false⟩,
  ⟨"FRAME_NUMBER", 0x1210, 1, 1, 4, 1, .u64, 1, 1, 1, 0, 0, 0, .volatile, false, 0, .any, false, false⟩,
  ⟨"FRAMES_SKIPPED", 0x1210, 1, 1, 5, 1, .u64, 1, 1, 1, 0, 0, 0, .hardware, false, 0, .any, true, false⟩,
  ⟨"SB_LATENCY_NS", 0x1211, 1, 1, 1, 8, .u32, 3, 1, 3, 0, 0, 0, .nor, false, 4000, (.ints 1000 20000), true, false⟩,
  ⟨"INPUT_LEDGER", 0x1240, 1, 1, 0, 1, .domain, 1, 1, 1, 0, 0, 0, .volatile, false, 0, .any, false, false⟩,
  ⟨"EVENT_HISTORY", 0x1260, 1, 1, 0, 1, .domain, 1, 1, 1, 0, 0, 0, .volatile, false, 0, .any, false, false⟩,
  ⟨"ENGINE_ACTIVE_TILES", 0x4000, 1, 1, 1, 1, .u8, 1, 1, 1, 0, 0, 0, .hardware, false, 0, (.oneOf [32, 48, 64]), true, false⟩,
  ⟨"TILE_STATE", 0x4010, 1, 1, 0, 68, .u8, 1, 1, 1, 0, 0, 0, .volatile, false, 0, (.ints 0 4), false, false⟩,
  ⟨"TILE_CE_COUNT", 0x4011, 1, 1, 0, 68, .u32, 1, 1, 1, 0, 0, 0, .volatile, false, 0, .any, false, true⟩,
  ⟨"TILE_UE_COUNT", 0x4012, 1, 1, 0, 68, .u32, 1, 1, 1, 0, 0, 0, .volatile, false, 0, .any, false, true⟩,
  ⟨"TILE_RETIRED", 0x4013, 1, 1, 0, 68, .bool, 1, 1, 7, 0, 0, 24, .nor, false, 0, (.ints 0 1), true, false⟩,
  ⟨"SESSION_DESC", 0x4400, 40, 1, 0, 256, .domain, 7, 7, 7, 24, 24, 24, .volatile, false, 0, (.len 64 64), false, false⟩,
  ⟨"SESSION_STATUS", 0x4500, 40, 1, 0, 256, .domain, 1, 1, 1, 0, 0, 0, .volatile, false, 0, (.len 64 64), false, false⟩]

/-- Rows of the object tables, part 1. -/
def entries1 : List Entry := [
  ⟨"SESSION_OUTPUT", 0x4600, 40, 1, 0, 256, .domain, 1, 1, 1, 0, 0, 0, .volatile, false, 0, (.len 64 64), false, false⟩,
  ⟨"SESSIONS_OPEN", 0x4000, 1, 1, 2, 1, .u16, 1, 1, 1, 0, 0, 0, .volatile, false, 0, (.ints 0 10240), false, false⟩,
  ⟨"SESSIONS_P0", 0x4000, 1, 1, 3, 1, .u16, 1, 1, 1, 0, 0, 0, .volatile, false, 0, (.ints 0 512), false, false⟩,
  ⟨"LOAD_QUEUE", 0x4000, 1, 1, 4, 1, .u16, 1, 1, 1, 0, 0, 0, .volatile, false, 0, .any, false, false⟩,
  ⟨"OUTPUT_RING", 0x4020, 1, 1, 0, 1, .domain, 1, 1, 1, 0, 0, 0, .volatile, false, 0, .any, false, false⟩,
  ⟨"LIB_IMAGES", 0x4100, 1, 1, 1, 1, .u16, 1, 1, 1, 0, 0, 0, .volatile, false, 0, (.ints 0 4096), false, false⟩,
  ⟨"LIB_BYTES", 0x4100, 1, 1, 2, 1, .u64, 1, 1, 1, 0, 0, 0, .volatile, false, 0, (.ints 0 4294967296), false, false⟩,
  ⟨"MODEL_IMAGE", 0x4110, 16, 1, 0, 256, .domain, 7, 7, 7, 24, 24, 24, .volatile, true, 0, .any, false, false⟩,
  ⟨"MODEL_STATE", 0x4120, 16, 1, 0, 256, .u8, 1, 1, 1, 0, 0, 0, .volatile, false, 0, (.ints 0 3), false, false⟩,
  ⟨"CODEBOOK", 0x4130, 16, 1, 0, 256, .domain, 7, 7, 7, 24, 24, 24, .volatile, false, 0, (.zeroOrLen 16 16392), false, false⟩,
  ⟨"SLOT_MODEL", 0x4140, 17, 1, 0, 256, .u16, 1, 1, 1, 0, 0, 0, .volatile, false, 65535, .any, false, false⟩,
  ⟨"CKPT_FRAME", 0x4030, 1, 1, 1, 1, .u64, 1, 1, 1, 0, 0, 0, .volatile, false, 0, .any, false, false⟩,
  ⟨"CKPT_BYTES", 0x4030, 1, 1, 2, 1, .u64, 1, 1, 1, 0, 0, 0, .volatile, false, 0, .any, false, false⟩,
  ⟨"CKPT_FAILURES", 0x4030, 1, 1, 3, 1, .u32, 1, 1, 1, 0, 0, 0, .volatile, false, 0, .any, false, true⟩,
  ⟨"RING_STATE", 0x4031, 1, 1, 1, 1, .u8, 1, 1, 1, 0, 0, 0, .volatile, false, 0, (.ints 0 3), false, false⟩,
  ⟨"RING_OLDEST", 0x4031, 1, 1, 2, 1, .u64, 1, 1, 1, 0, 0, 0, .volatile, false, 18446744073709551615, .any, false, false⟩,
  ⟨"RING_NEWEST", 0x4031, 1, 1, 3, 1, .u64, 1, 1, 1, 0, 0, 0, .volatile, false, 18446744073709551615, .any, false, false⟩,
  ⟨"DEC_OLDEST", 0x4031, 1, 1, 4, 1, .u64, 1, 1, 1, 0, 0, 0, .volatile, false, 18446744073709551615, .any, false, false⟩,
  ⟨"RING_FREEZE", 0x4031, 1, 1, 5, 1, .u8, 3, 3, 3, 0, 0, 0, .volatile, false, 0, (.ints 0 1), false, false⟩,
  ⟨"TRIGGER_MASK", 0x4031, 1, 1, 6, 1, .u16, 3, 1, 3, 0, 0, 0, .nor, false, 3, (.mask 0x001F), true, false⟩,
  ⟨"POST_TRIGGER_MS", 0x4031, 1, 1, 7, 1, .u16, 3, 1, 3, 0, 0, 0, .nor, false, 500, (.ints 0 1000), true, false⟩,
  ⟨"FREEZE_MAX_S", 0x4031, 1, 1, 8, 1, .u16, 3, 1, 3, 0, 0, 0, .nor, false, 300, (.ints 1 3600), true, false⟩,
  ⟨"LONG_CAPTURE", 0x4032, 1, 1, 0, 1, .domain, 3, 1, 3, 0, 0, 0, .volatile, false, 0, (.len 1280 1280), false, false⟩,
  ⟨"EXPORT_FROM", 0x4033, 1, 1, 1, 1, .u64, 3, 3, 3, 0, 0, 0, .volatile, false, 0, .any, false, false⟩,
  ⟨"EXPORT_TO", 0x4033, 1, 1, 2, 1, .u64, 3, 3, 3, 0, 0, 0, .volatile, false, 0, .any, false, false⟩,
  ⟨"EXPORT_WHICH", 0x4033, 1, 1, 3, 1, .u8, 3, 3, 3, 0, 0, 0, .volatile, false, 0, (.ints 0 1), false, false⟩,
  ⟨"RING_EXPORT", 0x4034, 1, 1, 0, 1, .domain, 1, 1, 1, 0, 0, 0, .volatile, false, 0, .any, false, false⟩,
  ⟨"REPLAY_INPUT", 0x4035, 1, 1, 0, 1, .domain, 6, 0, 6, 8, 0, 8, .volatile, false, 0, .any, false, false⟩,
  ⟨"REPLAY_CTRL", 0x4036, 1, 1, 1, 1, .u8, 7, 0, 7, 8, 0, 8, .volatile, false, 0, (.ints 0 2), false, false⟩,
  ⟨"REPLAY_STATE", 0x4036, 1, 1, 2, 1, .u8, 1, 1, 1, 0, 0, 0, .volatile, false, 0, (.ints 0 4), false, false⟩]

/-- Rows of the object tables, part 2. -/
def entries2 : List Entry := [
  ⟨"REPLAY_FRAMES", 0x4036, 1, 1, 3, 1, .u64, 1, 1, 1, 0, 0, 0, .volatile, false, 0, .any, false, false⟩,
  ⟨"REPLAY_MISMATCH_FRAME", 0x4036, 1, 1, 4, 1, .u64, 1, 1, 1, 0, 0, 0, .volatile, false, 18446744073709551615, .any, false, false⟩,
  ⟨"REPLAY_MISMATCH_KIND", 0x4036, 1, 1, 5, 1, .u8, 1, 1, 1, 0, 0, 0, .volatile, false, 0, (.ints 0 2), false, false⟩,
  ⟨"REPLAY_ERROR", 0x4036, 1, 1, 6, 1, .u32, 1, 1, 1, 0, 0, 0, .volatile, false, 0, .any, false, false⟩,
  ⟨"SCHED_IMAGE", 0x4040, 1, 1, 0, 4, .domain, 7, 1, 7, 24, 0, 24, .volatile, true, 0, .any, false, false⟩,
  ⟨"IMAGE_STATE", 0x4041, 1, 1, 0, 4, .u8, 1, 1, 1, 0, 0, 0, .volatile, false, 0, (.ints 0 5), false, false⟩,
  ⟨"IMAGE_ERROR", 0x4042, 1, 1, 0, 4, .u32, 1, 1, 1, 0, 0, 0, .volatile, false, 0, .any, false, false⟩,
  ⟨"IMAGE_ARM", 0x4044, 1, 1, 1, 1, .u8, 7, 1, 7, 24, 0, 24, .volatile, false, 255, (.intsOr 0 3 255), false, false⟩,
  ⟨"ACTIVATE_AT", 0x4044, 1, 1, 2, 1, .u64, 7, 1, 7, 24, 0, 24, .volatile, false, 0, .any, false, false⟩,
  ⟨"IMAGE_IN_FORCE", 0x4044, 1, 1, 3, 1, .u8, 1, 1, 1, 0, 0, 0, .volatile, false, 255, (.intsOr 0 3 255), false, false⟩,
  ⟨"ACTIVATION_KIND", 0x4044, 1, 1, 4, 1, .u8, 1, 1, 1, 0, 0, 0, .volatile, false, 0, (.ints 0 1), false, false⟩,
  ⟨"IMAGE_FRAME", 0x4044, 1, 1, 5, 1, .u64, 1, 1, 1, 0, 0, 0, .volatile, false, 0, .any, false, false⟩,
  ⟨"LTILE_BIND", 0x4045, 1, 1, 0, 64, .u16, 1, 1, 1, 0, 0, 0, .volatile, false, 65535, .any, false, false⟩,
  ⟨"DOMAIN_STATE", 0x4046, 1, 1, 1, 2, .u8, 1, 1, 1, 0, 0, 0, .volatile, false, 0, (.ints 0 1), false, false⟩,
  ⟨"DOMAIN_RETIRED", 0x4046, 1, 1, 3, 2, .bool, 1, 1, 7, 0, 0, 24, .nor, false, 0, (.ints 0 1), true, false⟩,
  ⟨"FOLD_FACTORS", 0x4046, 1, 1, 5, 1, .u8, 1, 1, 1, 0, 0, 0, .volatile, false, 17, (.oneOf [0x11, 0x12, 0x14, 0x21, 0x22, 0x24, 0x41, 0x42, 0x44]), false, false⟩,
  ⟨"USABLE_CAP", 0x4046, 1, 1, 6, 1, .u8, 1, 1, 1, 0, 0, 0, .volatile, false, 34, .any, false, false⟩,
  ⟨"ANISE_PROGRAM", 0x4800, 1, 1, 0, 1, .domain, 7, 1, 7, 24, 0, 24, .nor, true, 0, .any, true, false⟩,
  ⟨"ANISE_STATE", 0x4801, 1, 1, 1, 1, .u8, 1, 1, 1, 0, 0, 0, .volatile, false, 0, (.ints 0 3), false, false⟩,
  ⟨"ANISE_ERROR", 0x4801, 1, 1, 2, 1, .u32, 1, 1, 1, 0, 0, 0, .volatile, false, 0, .any, false, false⟩,
  ⟨"ANISE_OUTPUT", 0x4802, 1, 1, 0, 1, .domain, 1, 1, 1, 0, 0, 0, .volatile, false, 0, .any, false, false⟩,
  ⟨"ANT_ENABLE", 0x4810, 1, 1, 1, 8, .u8, 3, 1, 3, 0, 0, 0, .nor, false, 0, (.ints 0 1), true, false⟩,
  ⟨"ANT_STEP_MIN", 0x4811, 1, 1, 1, 1, .f32, 3, 1, 3, 0, 0, 0, .nor, false, 1090519040, (.floats 2 1000), true, false⟩,
  ⟨"ANT_LAST_WORD", 0x4812, 1, 1, 1, 8, .u64, 1, 1, 1, 0, 0, 0, .volatile, false, 0, .any, false, false⟩,
  ⟨"ANT_LATE", 0x4813, 1, 1, 1, 8, .u32, 1, 1, 1, 0, 0, 0, .volatile, false, 0, .any, false, true⟩,
  ⟨"ADAPT_ENABLE", 0x4820, 1, 1, 1, 12, .bool, 3, 1, 3, 0, 0, 0, .nor, false, 0, (.ints 0 1), true, false⟩,
  ⟨"ADAPT_MARGIN", 0x4821, 1, 1, 1, 1, .f32, 3, 1, 3, 0, 0, 0, .nor, false, 1067450368, (.floats (21/20) 4), true, false⟩,
  ⟨"ADAPT_FLOOR", 0x4821, 1, 1, 2, 1, .f32, 3, 1, 3, 0, 0, 0, .nor, false, 1056964608, (.floats (1/4) 1), true, false⟩,
  ⟨"ADAPT_FALL", 0x4821, 1, 1, 3, 1, .f32, 3, 1, 3, 0, 0, 0, .nor, false, 1015021568, (.floats (1/1000) (1/4)), true, false⟩,
  ⟨"ADAPT_FACTOR", 0x4822, 1, 1, 1, 12, .f32, 1, 1, 1, 0, 0, 0, .volatile, false, 1065353216, .any, false, false⟩]

/-- Rows of the object tables, part 3. -/
def entries3 : List Entry := [
  ⟨"OUT_MIN", 0x4840, 1, 1, 1, 24, .f32, 3, 1, 3, 0, 0, 0, .nor, false, 0, (.floats 0 100), true, false⟩,
  ⟨"OUT_MAX", 0x4841, 1, 1, 1, 24, .f32, 3, 1, 3, 0, 0, 0, .nor, false, 1120403456, (.floats 0 100), true, false⟩,
  ⟨"LOOP_TARGET", 0x4842, 1, 1, 1, 32, .f32, 1, 3, 3, 0, 0, 0, .volatile, false, 0, .any, false, false⟩,
  ⟨"TGT_MIN", 0x4843, 1, 1, 1, 32, .f32, 3, 1, 3, 0, 0, 0, .nor, false, 3296329728, .any, true, false⟩,
  ⟨"TGT_MAX", 0x4844, 1, 1, 1, 32, .f32, 3, 1, 3, 0, 0, 0, .nor, false, 1148846080, .any, true, false⟩,
  ⟨"LOOP_TARGET_EFF", 0x4845, 1, 1, 1, 32, .f32, 1, 1, 1, 0, 0, 0, .volatile, false, 0, .any, false, false⟩,
  ⟨"FAULT_FLAGS", 0x4850, 1, 1, 0, 1, .domain, 1, 1, 1, 0, 0, 0, .volatile, false, 0, (.len 32 32), false, false⟩,
  ⟨"CONCORD_PROGRAM", 0x4860, 1, 1, 0, 1, .domain, 7, 1, 7, 8, 0, 8, .nor, false, 0, (.len 56 56), true, false⟩,
  ⟨"CONCORD_ENABLE", 0x4861, 1, 1, 1, 1, .u8, 7, 1, 7, 8, 0, 8, .nor, false, 0, (.ints 0 1), true, false⟩,
  ⟨"CONCORD_STATE", 0x4861, 1, 1, 2, 1, .u8, 1, 1, 1, 0, 0, 0, .volatile, false, 0, (.ints 0 2), false, false⟩,
  ⟨"CONCORD_CAP_W", 0x4861, 1, 1, 3, 1, .f64, 1, 1, 1, 0, 0, 0, .volatile, false, 0, .any, false, false⟩,
  ⟨"CONCORD_DIVERGENCES", 0x4861, 1, 1, 4, 1, .u32, 1, 1, 1, 0, 0, 0, .volatile, false, 0, .any, false, true⟩,
  ⟨"BRANCH_STATE", 0x2000, 12, 16, 1, 1, .u8, 1, 1, 1, 0, 0, 0, .volatile, false, 0, (.ints 0 5), true, false⟩,
  ⟨"BRANCH_CAUSE", 0x2000, 12, 16, 2, 1, .u8, 1, 1, 1, 0, 0, 0, .volatile, false, 0, (.ints 0 9), true, false⟩,
  ⟨"BRANCH_CURRENT", 0x2000, 12, 16, 3, 1, .f32, 1, 1, 1, 0, 0, 0, .volatile, false, 0, .any, true, false⟩,
  ⟨"BRANCH_VIN", 0x2000, 12, 16, 4, 1, .f32, 1, 1, 1, 0, 0, 0, .volatile, false, 0, .any, true, false⟩,
  ⟨"BRANCH_VOUT", 0x2000, 12, 16, 5, 1, .f32, 1, 1, 1, 0, 0, 0, .volatile, false, 0, .any, true, false⟩,
  ⟨"BRANCH_TRIP_FRACTION", 0x2000, 12, 16, 6, 1, .f32, 1, 1, 1, 0, 0, 0, .volatile, false, 0, .any, true, false⟩,
  ⟨"BRANCH_T_FET", 0x2000, 12, 16, 7, 1, .f32, 1, 1, 1, 0, 0, 0, .volatile, false, 0, .any, true, false⟩,
  ⟨"BRANCH_HEALTH", 0x2000, 12, 16, 8, 1, .u8, 1, 1, 1, 0, 0, 0, .nor, false, 0, (.mask 31), true, false⟩,
  ⟨"BRANCH_INRUSH_TIMER", 0x2000, 12, 16, 9, 1, .f32, 1, 1, 1, 0, 0, 0, .volatile, false, 0, .any, true, false⟩,
  ⟨"BRANCH_ENABLE", 0x2001, 12, 16, 1, 1, .u8, 7, 1, 7, 24, 0, 24, .rcb, false, 1, (.ints 0 1), true, false⟩,
  ⟨"BRANCH_FET_CLEAR", 0x2001, 12, 16, 2, 1, .u8, 0, 0, 6, 0, 0, 24, .volatile, false, 0, (.ints 1 1), true, false⟩,
  ⟨"BRANCH_START_OFFSET_MS", 0x2091, 3, 16, 3, 1, .u32, 7, 1, 7, 24, 0, 24, .rcb, false, 0, (.ints 0 10000), true, false⟩,
  ⟨"T_REINS_MS", 0x2011, 8, 16, 4, 1, .u32, 7, 1, 7, 24, 0, 24, .rcb, false, 2000, (.ints 100 60000), true, false⟩,
  ⟨"BRANCH_SHUNT_UOHM", 0x2002, 1, 16, 1, 1, .u16, 7, 1, 7, 24, 0, 24, .rcb, false, 100, (.ints 50 5000), true, false⟩,
  ⟨"BRANCH_SHUNT_UOHM", 0x2012, 8, 16, 1, 1, .u16, 7, 1, 7, 24, 0, 24, .rcb, false, 500, (.ints 50 5000), true, false⟩,
  ⟨"BRANCH_SHUNT_UOHM", 0x2092, 3, 16, 1, 1, .u16, 7, 1, 7, 24, 0, 24, .rcb, false, 2000, (.ints 50 5000), true, false⟩,
  ⟨"BRANCH_N_FET", 0x2002, 1, 16, 2, 1, .u8, 7, 1, 7, 24, 0, 24, .rcb, false, 8, (.ints 1 8), true, false⟩,
  ⟨"BRANCH_N_FET", 0x2012, 11, 16, 2, 1, .u8, 7, 1, 7, 24, 0, 24, .rcb, false, 1, (.ints 1 4), true, false⟩]

/-- Rows of the object tables, part 4. -/
def entries4 : List Entry := [
  ⟨"VOUT_OFF_MAX", 0x2002, 12, 16, 3, 1, .f32, 7, 1, 7, 24, 0, 24, .rcb, false, 1077936128, (.floats 1 20), true, false⟩,
  ⟨"OFF_SETTLE_MS", 0x2002, 12, 16, 4, 1, .u16, 7, 1, 7, 24, 0, 24, .rcb, false, 500, (.ints 10 5000), true, false⟩,
  ⟨"RDS_ON_MAX_UOHM", 0x2002, 1, 16, 5, 1, .u32, 7, 1, 7, 24, 0, 24, .rcb, false, 250, (.ints 10 100000), true, false⟩,
  ⟨"RDS_ON_MAX_UOHM", 0x2012, 11, 16, 5, 1, .u32, 7, 1, 7, 24, 0, 24, .rcb, false, 2000, (.ints 10 100000), true, false⟩,
  ⟨"BRANCH_FAST_CODE", 0x2003, 1, 16, 1, 1, .u8, 7, 1, 7, 24, 0, 24, .rcb, false, 150, (.ints 1 255), true, false⟩,
  ⟨"BRANCH_FAST_CODE", 0x2013, 11, 16, 1, 1, .u8, 7, 1, 7, 24, 0, 24, .rcb, false, 200, (.ints 1 255), true, false⟩,
  ⟨"BRANCH_TRIP_MODE", 0x2003, 12, 16, 2, 1, .u8, 7, 1, 7, 24, 0, 24, .rcb, false, 3, (.ints 1 3), true, false⟩,
  ⟨"TAU_COOL_MS", 0x2003, 12, 16, 3, 1, .u32, 7, 1, 7, 24, 0, 24, .rcb, false, 10000, (.ints 100 1000000), true, false⟩,
  ⟨"CURVE_WARN", 0x2003, 12, 16, 4, 1, .f32, 7, 1, 7, 24, 0, 24, .rcb, false, 1056964608, (.floats (1/10) (19/20)), true, false⟩,
  ⟨"BRANCH_CURVE", 0x2004, 12, 16, 0, 1, .domain, 7, 1, 7, 24, 0, 24, .rcb, false, 0, (.len 72 72), true, false⟩,
  ⟨"INRUSH_MODE", 0x2005, 12, 16, 1, 1, .u8, 7, 1, 7, 24, 0, 24, .rcb, false, 1, (.ints 1 2), true, false⟩,
  ⟨"I_LIM", 0x2005, 1, 16, 2, 1, .f32, 7, 1, 7, 24, 0, 24, .rcb, false, 1109393408, (.floats 2 120), true, false⟩,
  ⟨"I_LIM", 0x2015, 8, 16, 2, 1, .f32, 7, 1, 7, 24, 0, 24, .rcb, false, 1101004800, (.floats 2 80), true, false⟩,
  ⟨"I_LIM", 0x2095, 3, 16, 2, 1, .f32, 7, 1, 7, 24, 0, 24, .rcb, false, 1084227584, (.floats 2 20), true, false⟩,
  ⟨"T_ILIM_MS", 0x2005, 12, 16, 3, 1, .u16, 7, 1, 7, 24, 0, 24, .rcb, false, 50, (.ints 1 200), true, false⟩,
  ⟨"RAMP_UA", 0x2005, 12, 16, 4, 1, .u8, 7, 1, 7, 24, 0, 24, .rcb, false, 20, (.ints 5 100), true, false⟩,
  ⟨"T_GATE_US", 0x2005, 12, 16, 5, 1, .u32, 7, 1, 7, 24, 0, 24, .rcb, false, 5000, (.ints 100 50000), true, false⟩,
  ⟨"TFET_MODE", 0x2006, 12, 16, 1, 1, .u8, 7, 1, 7, 24, 0, 24, .rcb, false, 2, (.ints 1 3), true, false⟩,
  ⟨"T_FET_MAX", 0x2006, 12, 16, 2, 1, .f32, 7, 1, 7, 24, 0, 24, .rcb, false, 1125515264, (.floats 100 175), true, false⟩,
  ⟨"TFET_SENSOR", 0x2006, 12, 16, 3, 1, .u8, 7, 1, 7, 24, 0, 24, .rcb, false, 0, (.ints 0 1), true, false⟩,
  ⟨"NTC_RES_25C", 0x2006, 12, 16, 4, 1, .f32, 7, 1, 7, 24, 0, 24, .rcb, false, 1176256512, (.floats 1000 1000000), true, false⟩,
  ⟨"NTC_BETA", 0x2006, 12, 16, 5, 1, .f32, 7, 1, 7, 24, 0, 24, .rcb, false, 1163309056, (.floats 2000 5000), true, false⟩,
  ⟨"FOSTER_RTH1", 0x2007, 12, 16, 1, 1, .f32, 7, 1, 7, 24, 0, 24, .rcb, false, 1017370378, (.floats (1/10000) 10), true, false⟩,
  ⟨"FOSTER_RTH2", 0x2007, 12, 16, 2, 1, .f32, 7, 1, 7, 24, 0, 24, .rcb, false, 1034147594, (.floats (1/10000) 10), true, false⟩,
  ⟨"FOSTER_RTH3", 0x2007, 12, 16, 3, 1, .f32, 7, 1, 7, 24, 0, 24, .rcb, false, 1048576000, (.floats (1/10000) 10), true, false⟩,
  ⟨"FOSTER_TAU1", 0x2007, 12, 16, 4, 1, .f32, 7, 1, 7, 24, 0, 24, .rcb, false, 961656599, (.floats (1/100000) 100), true, false⟩,
  ⟨"FOSTER_TAU2", 0x2007, 12, 16, 5, 1, .f32, 7, 1, 7, 24, 0, 24, .rcb, false, 1000593162, (.floats (1/100000) 100), true, false⟩,
  ⟨"FOSTER_TAU3", 0x2007, 12, 16, 6, 1, .f32, 7, 1, 7, 24, 0, 24, .rcb, false, 1036831949, (.floats (1/100000) 100), true, false⟩,
  ⟨"TREF_SRC", 0x2007, 12, 16, 7, 1, .u8, 7, 1, 7, 24, 0, 24, .rcb, false, 255, (.intsOr 0 31 255), true, false⟩,
  ⟨"TREF_C", 0x2007, 12, 16, 8, 1, .f32, 7, 1, 7, 24, 0, 24, .rcb, false, 1109393408, (.floats (-40) 125), true, false⟩]

/-- Rows of the object tables, part 5. -/
def entries5 : List Entry := [
  ⟨"LIN_SHARE", 0x2007, 1, 16, 9, 1, .f32, 7, 1, 7, 24, 0, 24, .rcb, false, 0, (.floats 1 8), true, false⟩,
  ⟨"LIN_SHARE", 0x2017, 11, 16, 9, 1, .f32, 7, 1, 7, 24, 0, 24, .rcb, false, 0, (.floats 1 4), true, false⟩,
  ⟨"TRIPS_FAST", 0x2008, 12, 16, 1, 1, .u32, 1, 1, 1, 0, 0, 0, .volatile, false, 0, .any, true, true⟩,
  ⟨"TRIPS_CURVE", 0x2008, 12, 16, 2, 1, .u32, 1, 1, 1, 0, 0, 0, .volatile, false, 0, .any, true, true⟩,
  ⟨"INRUSH_ABORTS", 0x2008, 12, 16, 3, 1, .u32, 1, 1, 1, 0, 0, 0, .volatile, false, 0, .any, true, true⟩,
  ⟨"VIN56_V", 0x2100, 1, 1, 1, 1, .f32, 1, 1, 1, 0, 0, 0, .volatile, false, 0, .any, true, false⟩,
  ⟨"TRAY_ON_COUNT", 0x2100, 1, 1, 2, 1, .count, 1, 1, 1, 0, 0, 0, .volatile, false, 0, .any, true, false⟩,
  ⟨"VIN_OV", 0x2101, 1, 1, 1, 1, .f32, 7, 1, 7, 24, 0, 24, .rcb, false, 1114898432, (.floats 58 64), true, false⟩,
  ⟨"VIN_STABLE_MS", 0x2101, 1, 1, 2, 1, .u16, 7, 1, 7, 24, 0, 24, .rcb, false, 1, (.ints 1 1000), true, false⟩,
  ⟨"DW440_IMPORT", 0x2102, 1, 1, 0, 1, .domain, 6, 0, 6, 8, 0, 8, .volatile, false, 0, (.len 16 192), true, false⟩,
  ⟨"SEQ_STATE", 0x2200, 9, 32, 1, 1, .u8, 1, 1, 1, 0, 0, 0, .volatile, false, 0, (.ints 0 8), true, false⟩,
  ⟨"SEQ_STEP", 0x2200, 9, 32, 2, 1, .u8, 1, 1, 1, 0, 0, 0, .volatile, false, 255, .any, true, false⟩,
  ⟨"SEQ_LIST", 0x2200, 9, 32, 3, 1, .u8, 1, 1, 1, 0, 0, 0, .volatile, false, 0, (.ints 0 3), true, false⟩,
  ⟨"SEQ_CAUSE", 0x2200, 9, 32, 4, 1, .u8, 1, 1, 1, 0, 0, 0, .volatile, false, 0, (.oneOf [0, 1, 2, 3, 4, 5, 6, 7, 8, 9, 16, 17, 32, 33, 34]), true, false⟩,
  ⟨"SEQ_CAUSE_RAIL", 0x2200, 9, 32, 5, 1, .u8, 1, 1, 1, 0, 0, 0, .volatile, false, 255, (.intsOr 0 15 255), true, false⟩,
  ⟨"SEQ_OFF_COUNT", 0x2200, 9, 32, 6, 1, .count, 1, 1, 1, 0, 0, 0, .volatile, false, 0, .any, true, false⟩,
  ⟨"SEQ_NEXT_ADMIT", 0x2200, 8, 32, 7, 1, .count, 1, 1, 1, 0, 0, 0, .volatile, false, 0, .any, true, false⟩,
  ⟨"SEQ_PGOOD", 0x2200, 9, 32, 8, 1, .u8, 1, 1, 1, 0, 0, 0, .volatile, false, 0, (.ints 0 1), true, false⟩,
  ⟨"START_OFFSET_MS", 0x2201, 8, 32, 1, 1, .u32, 7, 1, 7, 24, 0, 24, .rcb, false, 0, (.ints 0 10000), true, false⟩,
  ⟨"T_OFF_MIN_MS", 0x2201, 8, 32, 2, 1, .u32, 7, 1, 7, 24, 0, 24, .rcb, false, 500, (.ints 10 60000), true, false⟩,
  ⟨"PG_WINDOW_US", 0x2201, 9, 32, 3, 1, .u32, 7, 1, 7, 24, 0, 24, .rcb, false, 1000, (.ints 10 100000), true, false⟩,
  ⟨"PG_LIMIT_MS", 0x2201, 9, 32, 4, 1, .u16, 7, 1, 7, 24, 0, 24, .rcb, false, 100, (.ints 1 10000), true, false⟩,
  ⟨"SEQ_UP_LIST", 0x2202, 9, 32, 0, 1, .domain, 7, 1, 7, 24, 0, 24, .rcb, false, 0, (.len 0 128), true, false⟩,
  ⟨"SEQ_DOWN_LIST", 0x2203, 9, 32, 0, 1, .domain, 7, 1, 7, 24, 0, 24, .rcb, false, 0, (.len 0 128), true, false⟩,
  ⟨"SEQ_EMERG_LIST", 0x2204, 8, 32, 0, 1, .domain, 7, 1, 7, 24, 0, 24, .rcb, false, 0, (.len 0 64), true, false⟩,
  ⟨"SEQ_UP_RUNS", 0x2205, 9, 32, 1, 1, .u32, 1, 1, 1, 0, 0, 0, .volatile, false, 0, .any, true, true⟩,
  ⟨"SEQ_EMERGENCIES", 0x2205, 9, 32, 2, 1, .u32, 1, 1, 1, 0, 0, 0, .volatile, false, 0, .any, true, true⟩,
  ⟨"SEQ_PG_DEGLITCHES", 0x2205, 9, 32, 3, 1, .u32, 1, 1, 1, 0, 0, 0, .volatile, false, 0, .any, true, true⟩,
  ⟨"SEQ_RETRIES", 0x2305, 1, 1, 4, 1, .u8, 1, 1, 1, 0, 0, 0, .volatile, false, 0, .any, true, false⟩,
  ⟨"RAIL_V", 0x2400, 144, 1, 1, 1, .f32, 1, 1, 1, 0, 0, 0, .volatile, false, 0, .any, true, false⟩]

/-- Rows of the object tables, part 6. -/
def entries6 : List Entry := [
  ⟨"RAIL_FLAGS", 0x2400, 144, 1, 2, 1, .u16, 1, 1, 1, 0, 0, 0, .volatile, false, 0, (.mask 1023), true, false⟩,
  ⟨"RAIL_NOMINAL_V", 0x2400, 144, 1, 3, 1, .f32, 7, 1, 7, 24, 0, 24, .rcb, false, 0, (.floatsOr0 (3/10) 14), true, false⟩,
  ⟨"UV_FAULT_R", 0x2400, 144, 1, 4, 1, .f32, 7, 1, 7, 24, 0, 24, .rcb, false, 1063675494, .any, true, false⟩,
  ⟨"UV_WARN_R", 0x2400, 144, 1, 5, 1, .f32, 7, 1, 7, 24, 0, 24, .rcb, false, 1064514355, .any, true, false⟩,
  ⟨"OV_WARN_R", 0x2400, 144, 1, 6, 1, .f32, 7, 1, 7, 24, 0, 24, .rcb, false, 1065772646, .any, true, false⟩,
  ⟨"OV_FAULT_R", 0x2400, 144, 1, 7, 1, .f32, 7, 1, 7, 24, 0, 24, .rcb, false, 1066192077, .any, true, false⟩,
  ⟨"UV_FAULT_DG_US", 0x2400, 144, 1, 8, 1, .u16, 7, 1, 7, 24, 0, 24, .rcb, false, 20, (.ints 1 1000), true, false⟩,
  ⟨"UV_WARN_DG_US", 0x2400, 144, 1, 9, 1, .u16, 7, 1, 7, 24, 0, 24, .rcb, false, 100, (.ints 1 1000), true, false⟩,
  ⟨"OV_WARN_DG_US", 0x2400, 144, 1, 10, 1, .u16, 7, 1, 7, 24, 0, 24, .rcb, false, 100, (.ints 1 1000), true, false⟩,
  ⟨"OV_FAULT_DG_US", 0x2400, 144, 1, 11, 1, .u16, 7, 1, 7, 24, 0, 24, .rcb, false, 5, (.ints 1 1000), true, false⟩,
  ⟨"LEVEL_HYST_MV", 0x2400, 144, 1, 12, 1, .u16, 7, 1, 7, 24, 0, 24, .rcb, false, 10, (.ints 0 500), true, false⟩,
  ⟨"OFF_LEVEL_R", 0x2400, 144, 1, 13, 1, .f32, 7, 1, 7, 24, 0, 24, .rcb, false, 1036831949, (.floats (1/100) 1), true, false⟩,
  ⟨"RISE_MS", 0x2400, 144, 1, 14, 1, .u16, 7, 1, 7, 24, 0, 24, .rcb, false, 20, (.ints 1 4000), true, false⟩,
  ⟨"DISCHARGE_MS", 0x2400, 144, 1, 15, 1, .u16, 7, 1, 7, 24, 0, 24, .rcb, false, 50, (.ints 1 4000), true, false⟩,
  ⟨"PG_USED", 0x2400, 144, 1, 16, 1, .bool, 7, 1, 7, 24, 0, 24, .rcb, false, 1, (.ints 0 1), true, false⟩,
  ⟨"RAIL_RETAIN", 0x2480, 16, 1, 17, 1, .bool, 7, 1, 7, 24, 0, 24, .rcb, false, 0, (.ints 0 1), true, false⟩,
  ⟨"T_MAIN_C", 0x3000, 1, 1, 1, 1, .f32, 1, 1, 1, 0, 0, 0, .volatile, false, 0, .any, false, false⟩,
  ⟨"T_SORGHUM_C", 0x3000, 1, 1, 2, 1, .f32, 1, 1, 1, 0, 0, 0, .volatile, false, 0, .any, true, false⟩,
  ⟨"THERMAL_FLAGS", 0x3000, 1, 1, 3, 1, .u8, 1, 1, 1, 0, 0, 0, .volatile, false, 0, (.mask 15), true, false⟩,
  ⟨"THROTTLE_LEVEL", 0x3000, 1, 1, 4, 1, .u8, 1, 1, 1, 0, 0, 0, .volatile, false, 0, (.ints 0 7), false, false⟩,
  ⟨"THROTTLE_SKIP", 0x3000, 1, 1, 5, 1, .u8, 1, 1, 1, 0, 0, 0, .volatile, false, 1, (.oneOf [1, 2, 4, 8]), false, false⟩,
  ⟨"ENGINE_CAP_LEVEL", 0x3000, 1, 1, 6, 1, .u8, 3, 1, 3, 0, 0, 0, .nor, false, 0, (.ints 0 7), true, false⟩,
  ⟨"THERMAL_SHUTDOWNS", 0x3000, 1, 1, 7, 1, .u32, 1, 1, 1, 0, 0, 0, .volatile, false, 0, .any, true, true⟩,
  ⟨"SORGHUM_OT_RESTART", 0x3000, 1, 1, 8, 1, .u8, 3, 1, 3, 0, 0, 0, .rcb, false, 0, (.ints 0 1), true, false⟩,
  ⟨"TEMP_MAIN", 0x3001, 1, 1, 0, 1, .domain, 1, 1, 1, 0, 0, 0, .volatile, false, 0, (.len 288 288), false, false⟩,
  ⟨"TEMP_SORGHUM", 0x3002, 1, 1, 0, 1, .domain, 1, 1, 1, 0, 0, 0, .volatile, false, 0, (.len 32 32), true, false⟩,
  ⟨"TEMP_CH_KIND", 0x3010, 1, 1, 1, 32, .u8, 7, 1, 7, 24, 0, 24, .rcb, false, 0, (.ints 0 3), true, false⟩,
  ⟨"TEMP_CH_C", 0x3011, 1, 1, 1, 32, .f32, 1, 1, 1, 0, 0, 0, .volatile, false, 0, .any, true, false⟩,
  ⟨"ACCEL_TEMP_SOURCE", 0x3020, 8, 1, 1, 1, .u16, 7, 1, 7, 24, 0, 24, .rcb, false, 65535, .any, true, false⟩,
  ⟨"ACCEL_WARN_C", 0x3020, 8, 1, 2, 1, .f32, 7, 1, 7, 24, 0, 24, .rcb, false, 1119092736, (.floats 40 125), true, false⟩]

/-- Rows of the object tables, part 7. -/
def entries7 : List Entry := [
  ⟨"ACCEL_HYST_C", 0x3020, 8, 1, 3, 1, .f32, 7, 1, 7, 24, 0, 24, .rcb, false, 1084227584, (.floats 1 20), true, false⟩,
  ⟨"ACCEL_RESTART_C", 0x3020, 8, 1, 4, 1, .f32, 7, 1, 7, 24, 0, 24, .rcb, false, 1118437376, (.floats 30 120), true, false⟩,
  ⟨"ACCEL_HOLD_S", 0x3020, 8, 1, 5, 1, .u16, 7, 1, 7, 24, 0, 24, .rcb, false, 30, (.ints 1 3600), true, false⟩,
  ⟨"ACCEL_RATED_W", 0x3020, 8, 1, 6, 1, .f32, 7, 1, 7, 24, 0, 24, .rcb, false, 1157234688, (.floats 100 5000), true, false⟩,
  ⟨"ACCEL_LIMIT_FLOOR_PCT", 0x3020, 8, 1, 7, 1, .u8, 7, 1, 7, 24, 0, 24, .rcb, false, 40, (.ints 10 100), true, false⟩,
  ⟨"ACCEL_LIMIT_BUS", 0x3020, 8, 1, 8, 1, .u32, 7, 1, 7, 24, 0, 24, .nor, false, 0, (.mask 0xFF7F0000), true, false⟩,
  ⟨"ACCEL_LIMIT_CMD", 0x3020, 8, 1, 9, 1, .u8, 7, 1, 7, 24, 0, 24, .nor, false, 0, .any, true, false⟩,
  ⟨"ACCEL_THERMAL_CAP_PCT", 0x3020, 8, 1, 10, 1, .u8, 1, 1, 1, 0, 0, 0, .volatile, false, 100, (.ints 10 100), false, false⟩,
  ⟨"ACCEL_HOLDS", 0x3020, 8, 1, 11, 1, .u8, 1, 1, 1, 0, 0, 0, .volatile, false, 0, (.mask 3), true, false⟩,
  ⟨"COOLING_TYPE", 0x3100, 1, 1, 1, 1, .u8, 7, 1, 7, 8, 0, 8, .rcb, false, 1, (.ints 0 2), true, false⟩,
  ⟨"OUT_KIND", 0x3110, 1, 1, 1, 8, .u8, 7, 1, 7, 24, 0, 24, .rcb, false, 0, (.ints 0 1), true, false⟩,
  ⟨"OUT_KIND", 0x3110, 1, 1, 9, 16, .u8, 7, 1, 7, 24, 0, 24, .rcb, false, 2, (.ints 2 5), true, false⟩,
  ⟨"FAILSAFE_PCT", 0x3111, 1, 1, 1, 24, .f32, 7, 1, 7, 24, 0, 24, .rcb, false, 1120403456, (.floats 0 100), true, false⟩,
  ⟨"VALVE_CLOSED_PCT", 0x3112, 1, 1, 1, 8, .f32, 7, 1, 7, 24, 0, 24, .rcb, false, 0, (.floats 0 100), true, false⟩,
  ⟨"OUT_STATE", 0x3113, 1, 1, 1, 24, .u8, 1, 1, 1, 0, 0, 0, .volatile, false, 1, (.ints 0 3), true, false⟩,
  ⟨"OUT_APPLIED_PCT", 0x3114, 1, 1, 1, 24, .f32, 1, 1, 1, 0, 0, 0, .volatile, false, 0, (.floats 0 100), true, false⟩,
  ⟨"TACH_MIN_RPM", 0x3120, 1, 1, 1, 16, .u16, 7, 1, 7, 24, 0, 24, .nor, false, 500, (.ints 0 30000), true, false⟩,
  ⟨"TACH_PULSES", 0x3121, 1, 1, 1, 16, .u8, 7, 1, 7, 24, 0, 24, .nor, false, 2, (.ints 1 8), true, false⟩,
  ⟨"FLOW_K_PULSES", 0x3122, 1, 1, 1, 12, .f32, 7, 1, 7, 24, 0, 24, .nor, false, 1148846080, (.floats 1 100000), true, false⟩,
  ⟨"FLOW_MIN_LPM", 0x3123, 1, 1, 1, 12, .f32, 7, 1, 7, 24, 0, 24, .nor, false, 0, (.floats 0 1000), true, false⟩,
  ⟨"LEAK_R_OHM", 0x3200, 1, 1, 1, 8, .f32, 1, 1, 1, 0, 0, 0, .volatile, false, 0, .any, true, false⟩,
  ⟨"LEAK_STATE", 0x3201, 1, 1, 1, 8, .u8, 1, 1, 1, 0, 0, 0, .volatile, false, 0, (.ints 0 4), true, false⟩,
  ⟨"LEAK_ENABLE", 0x3202, 1, 1, 1, 8, .bool, 7, 1, 7, 24, 0, 24, .rcb, false, 1, (.ints 0 1), true, false⟩,
  ⟨"LEAK_ZONE", 0x3203, 1, 1, 1, 1, .u8, 7, 1, 7, 24, 0, 24, .rcb, false, 0, (.ints 0 7), true, false⟩,
  ⟨"LEAK_ZONE", 0x3203, 1, 1, 2, 1, .u8, 7, 1, 7, 24, 0, 24, .rcb, false, 1, (.ints 0 7), true, false⟩,
  ⟨"LEAK_ZONE", 0x3203, 1, 1, 3, 1, .u8, 7, 1, 7, 24, 0, 24, .rcb, false, 2, (.ints 0 7), true, false⟩,
  ⟨"LEAK_ZONE", 0x3203, 1, 1, 4, 1, .u8, 7, 1, 7, 24, 0, 24, .rcb, false, 3, (.ints 0 7), true, false⟩,
  ⟨"LEAK_ZONE", 0x3203, 1, 1, 5, 1, .u8, 7, 1, 7, 24, 0, 24, .rcb, false, 4, (.ints 0 7), true, false⟩,
  ⟨"LEAK_ZONE", 0x3203, 1, 1, 6, 1, .u8, 7, 1, 7, 24, 0, 24, .rcb, false, 5, (.ints 0 7), true, false⟩,
  ⟨"LEAK_ZONE", 0x3203, 1, 1, 7, 1, .u8, 7, 1, 7, 24, 0, 24, .rcb, false, 6, (.ints 0 7), true, false⟩]

/-- Rows of the object tables, part 8. -/
def entries8 : List Entry := [
  ⟨"LEAK_ZONE", 0x3203, 1, 1, 8, 1, .u8, 7, 1, 7, 24, 0, 24, .rcb, false, 7, (.ints 0 7), true, false⟩,
  ⟨"LEAK_WARN_OHM", 0x3204, 1, 1, 1, 8, .f32, 7, 1, 7, 24, 0, 24, .rcb, false, 1232348160, (.floats 10000 5000000), true, false⟩,
  ⟨"LEAK_FAULT_OHM", 0x3205, 1, 1, 1, 8, .f32, 7, 1, 7, 24, 0, 24, .rcb, false, 1203982336, (.floats 1000 1000000), true, false⟩,
  ⟨"LEAK_DG_MS", 0x3206, 1, 1, 1, 1, .u8, 7, 1, 7, 24, 0, 24, .rcb, false, 3, (.ints 1 100), true, false⟩,
  ⟨"ZONE_VALVES", 0x3210, 1, 1, 1, 8, .u8, 7, 1, 7, 24, 0, 24, .rcb, false, 0, .any, true, false⟩,
  ⟨"ZONE_ACCELS", 0x3211, 1, 1, 1, 8, .u8, 7, 1, 7, 24, 0, 24, .rcb, false, 0, .any, true, false⟩,
  ⟨"ZONE_STATE", 0x3212, 1, 1, 1, 8, .u8, 1, 1, 1, 0, 0, 0, .volatile, false, 0, (.ints 0 2), true, false⟩,
  ⟨"LEAK_CLEAR", 0x3213, 1, 1, 1, 1, .u8, 6, 0, 6, 24, 0, 24, .volatile, false, 0, (.ints 0 7), true, false⟩,
  ⟨"PART_STATE", 0x1100, 1, 1, 1, 1, .u8, 1, 1, 1, 0, 0, 0, .volatile, false, 0, (.ints 0 6), true, false⟩,
  ⟨"PART_DEGRADED", 0x1100, 1, 1, 2, 1, .u32, 1, 1, 1, 0, 0, 0, .volatile, false, 0, (.mask 4095), true, false⟩,
  ⟨"SAFE_CAUSE", 0x1100, 1, 1, 3, 1, .u8, 1, 1, 1, 0, 0, 0, .volatile, false, 0, (.ints 0 3), true, false⟩,
  ⟨"STATE_COUNT", 0x1100, 1, 1, 4, 1, .count, 1, 1, 1, 0, 0, 0, .volatile, false, 0, .any, true, false⟩,
  ⟨"PART_RESTART", 0x1101, 1, 1, 1, 1, .u8, 6, 0, 6, 24, 0, 56, .volatile, false, 0, (.ints 1 1), true, false⟩,
  ⟨"FW_RESTART", 0x1101, 1, 1, 2, 1, .u8, 6, 0, 6, 24, 0, 24, .volatile, false, 0, (.ints 1 1), true, false⟩,
  ⟨"FW_CRASHES", 0x1101, 1, 1, 3, 1, .u32, 1, 1, 1, 0, 0, 0, .volatile, false, 0, .any, true, true⟩,
  ⟨"MAIN_RESETS", 0x1101, 1, 1, 4, 1, .u32, 1, 1, 1, 0, 0, 0, .volatile, false, 0, .any, true, true⟩,
  ⟨"SERVICE_STRAP", 0x1101, 1, 1, 5, 1, .bool, 1, 1, 1, 0, 0, 0, .volatile, false, 0, .any, true, false⟩,
  ⟨"PROTECTION_REQ", 0x1120, 1, 1, 1, 8, .u8, 1, 1, 1, 0, 0, 0, .hardware, false, 0, (.oneOf [0, 2]), true, false⟩,
  ⟨"FACILITY_REQ", 0x1121, 1, 1, 1, 8, .u8, 7, 1, 1, 24, 0, 0, .hardware, false, 0, (.ints 0 2), true, false⟩,
  ⟨"HOST_REQ", 0x1122, 1, 1, 1, 8, .u8, 1, 7, 1, 0, 24, 0, .hardware, false, 0, (.ints 0 2), true, false⟩,
  ⟨"SERVICE_REQ", 0x1123, 1, 1, 1, 8, .u8, 1, 1, 7, 0, 0, 24, .hardware, false, 0, (.ints 0 2), true, false⟩,
  ⟨"ACCEL_REQ_STATUS", 0x1124, 1, 1, 1, 8, .u16, 1, 1, 1, 0, 0, 0, .volatile, false, 0, (.mask 479), true, false⟩,
  ⟨"ACCEL_STATE", 0x1125, 1, 1, 1, 8, .u8, 1, 1, 1, 0, 0, 0, .volatile, false, 0, (.ints 0 6), true, false⟩,
  ⟨"QUARANTINE", 0x1126, 1, 1, 1, 8, .bool, 1, 1, 1, 0, 0, 0, .rcb, false, 0, .any, true, false⟩,
  ⟨"QUAR_RELEASE", 0x1127, 1, 1, 1, 8, .u8, 0, 6, 6, 0, 24, 24, .volatile, false, 0, (.ints 1 1), true, false⟩,
  ⟨"QUAR_FAULT_COUNT", 0x1128, 1, 1, 1, 8, .u8, 1, 1, 1, 0, 0, 0, .volatile, false, 0, .any, true, false⟩,
  ⟨"QUAR_FAULTS", 0x1129, 1, 1, 1, 1, .u8, 3, 1, 3, 0, 0, 0, .rcb, false, 3, (.ints 1 10), true, false⟩,
  ⟨"QUAR_WINDOW_S", 0x1129, 1, 1, 2, 1, .u32, 3, 1, 3, 0, 0, 0, .rcb, false, 600, (.ints 60 86400), true, false⟩,
  ⟨"FACILITY_CAP_W", 0x1140, 1, 1, 1, 8, .f32, 7, 1, 1, 24, 0, 0, .hardware, false, 0, (.floatsOr0 1 10000), true, false⟩,
  ⟨"HOST_CAP_W", 0x1141, 1, 1, 1, 8, .f32, 1, 7, 1, 0, 24, 0, .hardware, false, 0, (.floatsOr0 1 10000), true, false⟩]

/-- Rows of the object tables, part 9. -/
def entries9 : List Entry := [
  ⟨"SERVICE_CAP_W", 0x1142, 1, 1, 1, 8, .f32, 1, 1, 7, 0, 0, 24, .hardware, false, 0, (.floatsOr0 1 10000), true, false⟩,
  ⟨"FACILITY_TRAY_CAP_W", 0x1143, 1, 1, 1, 1, .f32, 7, 1, 1, 24, 0, 0, .hardware, false, 0, (.floatsOr0 100 60000), true, false⟩,
  ⟨"HOST_TRAY_CAP_W", 0x1143, 1, 1, 2, 1, .f32, 1, 7, 1, 0, 24, 0, .hardware, false, 0, (.floatsOr0 100 60000), true, false⟩,
  ⟨"SERVICE_TRAY_CAP_W", 0x1143, 1, 1, 3, 1, .f32, 1, 1, 7, 0, 0, 24, .hardware, false, 0, (.floatsOr0 100 60000), true, false⟩,
  ⟨"TRAY_OVERHEAD_W", 0x1143, 1, 1, 4, 1, .f32, 3, 1, 3, 0, 0, 0, .nor, false, 1153138688, (.floats 0 10000), true, false⟩,
  ⟨"CAP_IN_FORCE_W", 0x1144, 1, 1, 1, 8, .f32, 1, 1, 1, 0, 0, 0, .volatile, false, 0, .any, true, false⟩,
  ⟨"CAP_SOURCE", 0x1145, 1, 1, 1, 8, .u8, 1, 1, 1, 0, 0, 0, .volatile, false, 0, (.ints 0 8), true, false⟩,
  ⟨"VENDOR", 0x1000, 1, 1, 1, 1, .str, 9, 9, 9, 0, 0, 0, .nor, false, 0, .any, true, false⟩,
  ⟨"PART_NUMBER", 0x1000, 1, 1, 2, 1, .str, 9, 9, 9, 0, 0, 0, .nor, false, 0, .any, true, false⟩,
  ⟨"STEPPING", 0x1000, 1, 1, 3, 1, .u8, 9, 9, 9, 0, 0, 0, .nor, false, 160, .any, true, false⟩,
  ⟨"SERIAL", 0x1000, 1, 1, 4, 1, .domain, 9, 9, 9, 0, 0, 0, .nor, false, 0, (.len 16 16), true, false⟩,
  ⟨"ABSENT_TILES", 0x1000, 1, 1, 5, 1, .domain, 9, 9, 9, 0, 0, 0, .nor, false, 0, (.len 9 9), true, false⟩,
  ⟨"CONTRACT_LEVEL", 0x1000, 1, 1, 6, 1, .u8, 9, 9, 9, 0, 0, 0, .nor, false, 1, .any, true, false⟩,
  ⟨"DICT_FORMAT", 0x1000, 1, 1, 7, 1, .u16, 9, 9, 9, 0, 0, 0, .nor, false, 1, .any, true, false⟩,
  ⟨"FW_VERSION", 0x1000, 1, 1, 8, 1, .u32, 1, 1, 1, 0, 0, 0, .volatile, false, 0, .any, false, false⟩,
  ⟨"FW_SLOT", 0x1000, 1, 1, 9, 1, .u8, 1, 1, 1, 0, 0, 0, .volatile, false, 0, (.ints 0 1), false, false⟩,
  ⟨"SPARE_TILES", 0x1000, 1, 1, 10, 1, .domain, 9, 9, 9, 0, 0, 0, .nor, false, 0, (.len 9 9), true, false⟩,
  ⟨"ODA_UDP_PORT", 0x1440, 1, 1, 1, 1, .u16, 9, 9, 9, 0, 0, 0, .nor, false, 47201, .any, true, false⟩,
  ⟨"ODA_MAX_PAYLOAD", 0x1440, 1, 1, 2, 1, .u16, 9, 9, 9, 0, 0, 0, .nor, false, 1400, .any, true, false⟩,
  ⟨"ODA_SESSIONS", 0x1440, 1, 1, 3, 1, .u8, 1, 1, 1, 0, 0, 0, .volatile, false, 0, (.ints 0 32), false, false⟩,
  ⟨"ODA_AUTH_DROPS", 0x1440, 1, 1, 4, 1, .u32, 1, 1, 1, 0, 0, 0, .volatile, false, 0, .any, false, true⟩,
  ⟨"ODA_MALFORMED", 0x1440, 1, 1, 5, 1, .u32, 1, 1, 1, 0, 0, 0, .volatile, false, 0, .any, false, true⟩,
  ⟨"ODA_NOTIFY_DROPS", 0x1440, 1, 1, 6, 1, .u32, 1, 1, 1, 0, 0, 0, .volatile, false, 0, .any, false, true⟩,
  ⟨"ODA_BUSY", 0x1440, 1, 1, 7, 1, .u32, 1, 1, 1, 0, 0, 0, .volatile, false, 0, .any, false, true⟩,
  ⟨"ANNOUNCE_GROUP", 0x1441, 1, 1, 0, 1, .domain, 3, 1, 3, 0, 0, 0, .nor, false, 0, (.len 16 16), true, false⟩,
  ⟨"ODA_PEERS", 0x1442, 1, 1, 0, 1, .domain, 1, 1, 1, 0, 0, 0, .hardware, false, 0, (.len 2048 2048), true, false⟩,
  ⟨"TXN_LEDGER", 0x1480, 1, 1, 0, 1, .domain, 1, 1, 1, 0, 0, 0, .hardware, false, 0, .any, true, false⟩,
  ⟨"LEDGER_DEPTH", 0x1481, 1, 1, 1, 1, .u16, 9, 9, 9, 0, 0, 0, .nor, false, 256, .any, true, false⟩,
  ⟨"REPLAY_DEPTH", 0x1481, 1, 1, 2, 1, .u16, 9, 9, 9, 0, 0, 0, .nor, false, 4096, .any, true, false⟩,
  ⟨"REPLAY_HOLD_S", 0x1481, 1, 1, 3, 1, .u16, 9, 9, 9, 0, 0, 0, .nor, false, 10, .any, true, false⟩]

/-- Rows of the object tables, part 10. -/
def entries10 : List Entry := [
  ⟨"PORT_MODE", 0x1400, 1, 1, 1, 2, .u8, 7, 1, 7, 24, 0, 24, .nor, false, 1, (.ints 0 5), true, false⟩,
  ⟨"PORT_LINK", 0x1401, 1, 1, 1, 2, .u8, 1, 1, 1, 0, 0, 0, .volatile, false, 0, (.ints 0 3), false, false⟩,
  ⟨"FEC_CORRECTED", 0x1402, 1, 1, 1, 2, .u64, 1, 1, 1, 0, 0, 0, .volatile, false, 0, .any, false, true⟩,
  ⟨"FEC_UNCORRECTABLE", 0x1403, 1, 1, 1, 2, .u64, 1, 1, 1, 0, 0, 0, .volatile, false, 0, .any, false, true⟩,
  ⟨"LINK_DOWNS", 0x1404, 1, 1, 1, 2, .u32, 1, 1, 1, 0, 0, 0, .volatile, false, 0, .any, false, true⟩,
  ⟨"PORT_MAC", 0x1405, 1, 1, 1, 3, .domain, 9, 9, 9, 0, 0, 0, .nor, false, 0, (.len 6 6), true, false⟩,
  ⟨"PORT_IPV4", 0x1406, 1, 1, 1, 3, .domain, 3, 1, 3, 0, 0, 0, .nor, false, 0, (.lens [0, 5]), true, false⟩,
  ⟨"PORT_IPV6", 0x1407, 1, 1, 1, 3, .domain, 3, 1, 3, 0, 0, 0, .nor, false, 0, (.lens [0, 17, 34]), true, false⟩,
  ⟨"PORT_VLAN", 0x1408, 1, 1, 1, 2, .u16, 3, 1, 3, 0, 0, 0, .nor, false, 0, (.ints 0 4094), true, false⟩,
  ⟨"GATE_LIST", 0x1410, 1, 1, 1, 2, .domain, 3, 1, 3, 0, 0, 0, .nor, false, 0, .any, true, false⟩,
  ⟨"SB_MODE", 0x1420, 1, 1, 1, 8, .u8, 7, 1, 7, 24, 0, 24, .nor, false, 1, (.ints 0 3), true, false⟩,
  ⟨"SB_LINK", 0x1421, 1, 1, 1, 8, .u8, 1, 1, 1, 0, 0, 0, .volatile, false, 0, (.ints 0 2), false, false⟩,
  ⟨"SB_NACKS", 0x1422, 1, 1, 1, 8, .u32, 1, 1, 1, 0, 0, 0, .volatile, false, 0, .any, false, true⟩,
  ⟨"SB_LOST", 0x1423, 1, 1, 1, 8, .u32, 1, 1, 1, 0, 0, 0, .volatile, false, 0, .any, false, true⟩,
  ⟨"SB_DROPS", 0x1424, 1, 1, 1, 8, .u32, 1, 1, 1, 0, 0, 0, .volatile, false, 0, .any, false, true⟩,
  ⟨"SB_COUNT_REJECTED", 0x1425, 1, 1, 1, 8, .u32, 1, 1, 1, 0, 0, 0, .volatile, false, 0, .any, false, true⟩,
  ⟨"SB_ETHERTYPE", 0x1426, 1, 1, 1, 1, .u16, 7, 1, 7, 24, 0, 24, .nor, false, 34997, (.ints 0x0600 0xFFFF), true, false⟩,
  ⟨"SVC_PHY_ADDR", 0x1430, 1, 1, 1, 1, .u8, 1, 1, 3, 0, 0, 0, .nor, false, 1, (.ints 0 31), true, false⟩,
  ⟨"PTP_PROFILE", 0x1450, 1, 1, 1, 2, .u8, 3, 1, 3, 0, 0, 0, .nor, false, 2, (.ints 0 2), true, false⟩,
  ⟨"PTP_DOMAIN", 0x1451, 1, 1, 1, 1, .u8, 3, 1, 3, 0, 0, 0, .nor, false, 0, (.ints 0 127), true, false⟩,
  ⟨"PTP_ASYM_NS", 0x1452, 1, 1, 1, 2, .i32, 3, 1, 3, 0, 0, 0, .nor, false, 0, (.ints (-10000) 10000), true, false⟩,
  ⟨"PTP_PORT_FOLLOWED", 0x1453, 1, 1, 1, 1, .u8, 1, 1, 1, 0, 0, 0, .volatile, false, 255, (.intsOr 0 1 255), false, false⟩,
  ⟨"MACSEC_MODE", 0x1460, 1, 1, 1, 2, .u8, 3, 1, 3, 0, 0, 0, .nor, false, 0, (.ints 0 2), true, false⟩,
  ⟨"MACSEC_KEY_REQ", 0x1461, 1, 1, 1, 1, .u8, 6, 0, 0, 24, 0, 0, .volatile, false, 0, (.ints 0 1), false, false⟩,
  ⟨"MACSEC_TX_SWITCH_AT", 0x1462, 1, 1, 1, 2, .count, 3, 1, 1, 0, 0, 0, .volatile, false, 0, .any, false, false⟩,
  ⟨"MACSEC_AN", 0x1463, 1, 1, 1, 2, .u8, 1, 1, 1, 0, 0, 0, .volatile, false, 255, (.intsOr 0 3 255), false, false⟩,
  ⟨"MACSEC_DROPS", 0x1464, 1, 1, 1, 2, .u64, 1, 1, 1, 0, 0, 0, .volatile, false, 0, .any, false, true⟩,
  ⟨"MEM_STATE", 0x5000, 1, 1, 1, 1, .u8, 1, 1, 1, 0, 0, 0, .volatile, false, 0, (.ints 0 3), false, false⟩,
  ⟨"MEM_CE_COUNT", 0x5000, 1, 1, 2, 1, .u64, 1, 1, 1, 0, 0, 0, .volatile, false, 0, .any, false, true⟩,
  ⟨"MEM_UE_COUNT", 0x5000, 1, 1, 3, 1, .u32, 1, 1, 1, 0, 0, 0, .volatile, false, 0, .any, false, true⟩]

/-- Rows of the object tables, part 11. -/
def entries11 : List Entry := [
  ⟨"MEM_UE_ADDR", 0x5000, 1, 1, 4, 1, .u64, 1, 1, 1, 0, 0, 0, .volatile, false, 18446744073709551615, .any, false, false⟩,
  ⟨"MEM_RETAINED", 0x5000, 1, 1, 5, 1, .bool, 1, 1, 1, 0, 0, 0, .hardware, false, 0, .any, true, false⟩,
  ⟨"MEM_SCRUB_PASSES", 0x5000, 1, 1, 6, 1, .u32, 1, 1, 1, 0, 0, 0, .volatile, false, 0, .any, false, true⟩,
  ⟨"MEM_MAP", 0x5001, 1, 1, 0, 1, .domain, 1, 1, 1, 0, 0, 0, .nor, false, 0, (.len 264 264), true, false⟩,
  ⟨"DMA_STATE", 0x5100, 32, 1, 1, 1, .u8, 1, 1, 1, 0, 0, 0, .volatile, false, 0, (.ints 0 4), false, false⟩,
  ⟨"DMA_RUNS", 0x5100, 32, 1, 2, 1, .u32, 1, 1, 1, 0, 0, 0, .volatile, false, 0, .any, false, true⟩,
  ⟨"DMA_HALTS", 0x5100, 32, 1, 3, 1, .u32, 1, 1, 1, 0, 0, 0, .volatile, false, 0, .any, false, true⟩,
  ⟨"DMA_LAST_CAUSE", 0x5100, 32, 1, 4, 1, .u8, 1, 1, 1, 0, 0, 0, .volatile, false, 0, (.ints 0 8), false, false⟩,
  ⟨"MILLET_BYTES_MA", 0x5120, 1, 1, 1, 1, .u64, 1, 1, 1, 0, 0, 0, .volatile, false, 0, .any, false, false⟩,
  ⟨"MILLET_BYTES_MB", 0x5120, 1, 1, 2, 1, .u64, 1, 1, 1, 0, 0, 0, .volatile, false, 0, .any, false, false⟩,
  ⟨"SYNC_CELL", 0x5200, 64, 1, 0, 256, .u32, 1, 1, 1, 0, 0, 0, .volatile, false, 0, .any, false, false⟩,
  ⟨"SYNC_DROPPED", 0x5240, 1, 1, 1, 1, .u32, 1, 1, 1, 0, 0, 0, .volatile, false, 0, .any, false, true⟩,
  ⟨"UPDATE_STATE", 0x9000, 1, 1, 1, 1, .u8, 1, 1, 1, 0, 0, 0, .hardware, false, 0, (.ints 0 11), true, false⟩,
  ⟨"UPDATE_ERROR", 0x9000, 1, 1, 2, 1, .u32, 1, 1, 1, 0, 0, 0, .hardware, false, 0, .any, true, false⟩,
  ⟨"UPDATE_MODE", 0x9000, 1, 1, 3, 1, .u8, 3, 1, 3, 0, 0, 0, .nor, false, 0, (.ints 0 1), true, false⟩,
  ⟨"UPDATE_AT", 0x9000, 1, 1, 4, 1, .u64, 7, 1, 7, 24, 0, 24, .volatile, false, 0, .any, false, false⟩,
  ⟨"UPDATE_CONFIRM_MODE", 0x9000, 1, 1, 5, 1, .u8, 3, 1, 3, 0, 0, 0, .nor, false, 0, (.ints 0 1), true, false⟩,
  ⟨"UPDATE_CTRL", 0x9000, 1, 1, 6, 1, .u8, 6, 0, 6, 24, 0, 24, .volatile, false, 0, (.ints 1 2), false, false⟩,
  ⟨"UPDATE_PROGRESS", 0x9000, 1, 1, 7, 1, .u32, 1, 1, 1, 0, 0, 0, .volatile, false, 0, .any, false, false⟩,
  ⟨"UPDATE_TAKEOVER_FRAME", 0x9000, 1, 1, 8, 1, .u64, 1, 1, 1, 0, 0, 0, .volatile, false, 18446744073709551615, .any, false, false⟩,
  ⟨"UPDATE_HEALTH_DEADLINE", 0x9000, 1, 1, 9, 1, .count, 1, 1, 1, 0, 0, 0, .volatile, false, 0, .any, false, false⟩,
  ⟨"UPDATE_JOURNAL_DROPS", 0x9000, 1, 1, 10, 1, .u32, 1, 1, 1, 0, 0, 0, .volatile, false, 0, .any, false, true⟩,
  ⟨"HANDOVER_IGNORED", 0x9000, 1, 1, 11, 1, .u32, 1, 1, 1, 0, 0, 0, .volatile, false, 0, .any, false, true⟩,
  ⟨"UPDATE_IMAGE", 0x9001, 1, 1, 0, 1, .domain, 6, 0, 6, 24, 0, 24, .volatile, false, 0, (.len 96 67108864), false, false⟩,
  ⟨"SLOT_STATE", 0x9002, 1, 1, 1, 2, .u8, 1, 1, 1, 0, 0, 0, .nor, false, 0, (.ints 0 3), true, false⟩,
  ⟨"SLOT_VERSION", 0x9002, 1, 1, 3, 2, .u32, 1, 1, 1, 0, 0, 0, .nor, false, 0, .any, true, false⟩,
  ⟨"BOOT_SLOT", 0x9002, 1, 1, 5, 1, .u8, 1, 1, 1, 0, 0, 0, .nor, false, 0, (.ints 0 1), true, false⟩,
  ⟨"CLUSTER_ROLE", 0x9003, 1, 1, 1, 1, .u8, 1, 1, 1, 0, 0, 0, .volatile, false, 1, (.ints 0 3), false, false⟩,
  ⟨"CLUSTER_ROLE", 0x9003, 1, 1, 2, 1, .u8, 1, 1, 1, 0, 0, 0, .volatile, false, 0, (.ints 0 3), false, false⟩,
  ⟨"HUSK_DENIALS", 0x9003, 1, 1, 3, 1, .u32, 1, 1, 1, 0, 0, 0, .volatile, false, 0, .any, false, true⟩]

/-- Rows of the object tables, part 12. -/
def entries12 : List Entry := [
  ⟨"OVERRIDES_ENABLED", 0x9003, 1, 1, 4, 1, .u16, 1, 1, 1, 0, 0, 0, .volatile, false, 0, (.ints 0 256), false, false⟩,
  ⟨"DEVICE_CERT", 0x6000, 1, 1, 1, 1, .domain, 9, 9, 9, 0, 0, 0, .nor, false, 0, .any, true, false⟩,
  ⟨"VENDOR_CA_CERT", 0x6000, 1, 1, 2, 1, .domain, 9, 9, 9, 0, 0, 0, .nor, false, 0, .any, true, false⟩,
  ⟨"AK_CERT", 0x6000, 1, 1, 3, 1, .domain, 1, 1, 1, 0, 0, 0, .volatile, false, 0, .any, false, false⟩,
  ⟨"FALCON_OID", 0x6000, 1, 1, 4, 1, .domain, 9, 9, 9, 0, 0, 0, .nor, false, 0, .any, true, false⟩,
  ⟨"VENDOR_FW_KEY_DIGEST", 0x6000, 1, 1, 5, 1, .domain, 9, 9, 9, 0, 0, 0, .nor, false, 0, (.len 32 32), true, false⟩,
  ⟨"VENDOR_IMG_KEY_DIGEST", 0x6000, 1, 1, 6, 1, .domain, 9, 9, 9, 0, 0, 0, .nor, false, 0, (.len 32 32), true, false⟩,
  ⟨"SEC_STATE", 0x6001, 1, 1, 1, 1, .u8, 1, 1, 1, 0, 0, 0, .volatile, false, 0, (.ints 0 2), false, false⟩,
  ⟨"SETUP_FAILURES", 0x6001, 1, 1, 2, 1, .u32, 1, 1, 1, 0, 0, 0, .volatile, false, 0, .any, false, true⟩,
  ⟨"OWNER_KEY_DIGEST", 0x6010, 1, 1, 1, 4, .domain, 1, 1, 1, 0, 0, 0, .nor, false, 0, (.lens [0, 32]), true, false⟩,
  ⟨"OWNER_KEY_ROLES", 0x6011, 1, 1, 1, 4, .u8, 1, 1, 1, 0, 0, 0, .nor, false, 0, (.mask 7), true, false⟩,
  ⟨"OWNER_KEY_CMD", 0x6012, 1, 1, 0, 1, .domain, 6, 0, 6, 24, 0, 24, .volatile, false, 0, .any, false, false⟩,
  ⟨"OWNER_CMD_COUNTER", 0x6013, 1, 1, 1, 1, .u32, 1, 1, 1, 0, 0, 0, .nor, false, 0, .any, true, false⟩,
  ⟨"OWNER_RESET", 0x6014, 1, 1, 1, 1, .u8, 0, 0, 6, 0, 0, 24, .volatile, false, 0, (.ints 1 1), false, false⟩,
  ⟨"VENDOR_IMAGES_OK", 0x6015, 1, 1, 1, 1, .bool, 3, 1, 3, 0, 0, 0, .nor, false, 1, (.ints 0 1), true, false⟩,
  ⟨"REVOKED", 0x6016, 1, 1, 0, 1, .domain, 1, 1, 1, 0, 0, 0, .nor, false, 0, (.len 0 8192), true, false⟩,
  ⟨"ROLLBACK_CTR", 0x6020, 1, 1, 1, 8, .u32, 1, 1, 1, 0, 0, 0, .nor, false, 0, .any, true, false⟩,
  ⟨"ROLLBACK_RAISE", 0x6021, 1, 1, 0, 1, .domain, 6, 0, 6, 24, 0, 24, .volatile, false, 0, (.len 8 8), false, false⟩,
  ⟨"GENERATION", 0x6022, 1, 1, 1, 1, .u64, 1, 1, 1, 0, 0, 0, .nor, false, 0, .any, true, false⟩,
  ⟨"BOOT_COUNT", 0x6022, 1, 1, 2, 1, .u32, 1, 1, 1, 0, 0, 0, .nor, false, 0, .any, true, false⟩,
  ⟨"MEAS_LOG", 0x6030, 1, 1, 0, 1, .domain, 1, 1, 1, 0, 0, 0, .volatile, false, 0, .any, false, false⟩,
  ⟨"QUOTE_REQ", 0x6040, 1, 1, 0, 1, .domain, 6, 6, 6, 56, 56, 56, .volatile, false, 0, (.len 32 32), false, false⟩,
  ⟨"QUOTE", 0x6041, 1, 1, 0, 1, .domain, 1, 1, 1, 0, 0, 0, .volatile, false, 0, .any, false, false⟩,
  ⟨"SESSION_IDLE_S", 0x6050, 1, 1, 1, 1, .u16, 3, 1, 3, 0, 0, 0, .nor, false, 300, (.ints 10 65535), true, false⟩,
  ⟨"POWER_NOW_W", 0x2800, 1, 1, 1, 13, .f32, 1, 1, 1, 0, 0, 0, .volatile, false, 0, .any, true, false⟩,
  ⟨"POWER_PEAK_W", 0x2801, 1, 1, 1, 13, .f32, 1, 1, 1, 0, 0, 0, .nor, false, 0, .any, true, false⟩,
  ⟨"POWER_PEAK_COUNT", 0x2802, 1, 1, 1, 13, .count, 1, 1, 1, 0, 0, 0, .nor, false, 0, .any, true, false⟩,
  ⟨"AVG_1S_W", 0x2803, 1, 1, 1, 13, .f32, 1, 1, 1, 0, 0, 0, .volatile, false, 2143289344, .any, true, false⟩,
  ⟨"AVG_1M_W", 0x2804, 1, 1, 1, 13, .f32, 1, 1, 1, 0, 0, 0, .volatile, false, 2143289344, .any, true, false⟩,
  ⟨"AVG_1H_W", 0x2805, 1, 1, 1, 13, .f32, 1, 1, 1, 0, 0, 0, .volatile, false, 2143289344, .any, true, false⟩]

/-- Rows of the object tables, part 13. -/
def entries13 : List Entry := [
  ⟨"PEAK_1S_W", 0x2806, 1, 1, 1, 13, .f32, 1, 1, 1, 0, 0, 0, .volatile, false, 2143289344, .any, true, false⟩,
  ⟨"ENERGY_J", 0x2807, 1, 1, 1, 13, .u64, 1, 1, 1, 0, 0, 0, .nor, false, 0, .any, true, false⟩,
  ⟨"PEAK_RESET", 0x2808, 1, 1, 1, 1, .u8, 2, 0, 2, 0, 0, 0, .volatile, false, 0, (.ints 1 1), true, false⟩,
  ⟨"PKG_ENERGY", 0x2809, 1, 1, 1, 1, .u32, 1, 1, 1, 0, 0, 0, .volatile, false, 0, .any, true, false⟩,
  ⟨"RECORDER_GENERATION", 0x7000, 1, 1, 1, 1, .u64, 1, 1, 1, 0, 0, 0, .volatile, false, 0, .any, true, false⟩,
  ⟨"RECORDER_LAST_FULL", 0x7000, 1, 1, 2, 1, .count, 1, 1, 1, 0, 0, 0, .volatile, false, 0, .any, true, false⟩,
  ⟨"RECORDER_CLEAR", 0x7000, 1, 1, 3, 1, .u8, 0, 0, 6, 0, 0, 24, .volatile, false, 0, (.ints 1 1), true, false⟩,
  ⟨"RECORDER_CLEARS", 0x7000, 1, 1, 4, 1, .u32, 1, 1, 1, 0, 0, 0, .nor, false, 0, .any, true, true⟩,
  ⟨"PARTIAL_CODES", 0x7000, 1, 1, 5, 1, .u16, 1, 1, 1, 0, 0, 0, .nor, false, 0, .any, true, false⟩,
  ⟨"CODE_INFO", 0x7010, 16, 1, 0, 256, .domain, 9, 9, 9, 0, 0, 0, .nor, false, 0, (.len 32 32), true, false⟩,
  ⟨"CODE_RATE", 0x7020, 16, 1, 0, 256, .u16, 3, 1, 3, 0, 0, 0, .nor, false, 256, .codeRate, true, false⟩,
  ⟨"CODE_RECORD", 0x7100, 16, 1, 0, 256, .domain, 1, 1, 1, 0, 0, 0, .nor, false, 0, (.len 128 128), true, false⟩,
  ⟨"TRAY_SERIAL", 0x7200, 1, 1, 1, 1, .str, 1, 1, 1, 0, 0, 0, .nor, false, 0, .any, true, false⟩,
  ⟨"TRAY_PART_NUMBER", 0x7200, 1, 1, 2, 1, .str, 1, 1, 1, 0, 0, 0, .nor, false, 0, .any, true, false⟩,
  ⟨"TRAY_FRU_STATE", 0x7200, 1, 1, 3, 1, .u8, 1, 1, 1, 0, 0, 0, .volatile, false, 0, (.ints 0 2), false, false⟩,
  ⟨"ACCEL_SERIAL", 0x7210, 1, 1, 1, 8, .str, 1, 1, 1, 0, 0, 0, .nor, false, 0, .any, true, false⟩,
  ⟨"ACCEL_PART_NUMBER", 0x7211, 1, 1, 1, 8, .str, 1, 1, 1, 0, 0, 0, .nor, false, 0, .any, true, false⟩,
  ⟨"ACCEL_MANUFACTURER", 0x7212, 1, 1, 1, 8, .str, 1, 1, 1, 0, 0, 0, .nor, false, 0, .any, true, false⟩,
  ⟨"ACCEL_FRU_STATE", 0x7213, 1, 1, 1, 8, .u8, 1, 1, 1, 0, 0, 0, .volatile, false, 0, (.ints 0 2), false, false⟩,
  ⟨"POS_INSERTIONS", 0x7214, 1, 1, 1, 8, .u32, 1, 1, 1, 0, 0, 0, .nor, false, 0, .any, true, true⟩,
  ⟨"POS_ON_S", 0x7215, 1, 1, 1, 8, .u32, 1, 1, 1, 0, 0, 0, .nor, false, 0, .any, true, true⟩,
  ⟨"SERIAL_INSERTIONS", 0x7216, 1, 1, 1, 8, .u64, 1, 1, 1, 0, 0, 0, .nor, false, 0, .any, true, false⟩,
  ⟨"PE_SERIAL", 0x7220, 1, 1, 1, 12, .str, 1, 1, 7, 0, 0, 24, .nor, false, 0, (.len 0 32), true, false⟩,
  ⟨"PE_ON_S", 0x7221, 1, 1, 1, 12, .u32, 1, 1, 1, 0, 0, 0, .nor, false, 0, .any, true, true⟩,
  ⟨"PE_INRUSHES", 0x7222, 1, 1, 1, 12, .u32, 1, 1, 1, 0, 0, 0, .nor, false, 0, .any, true, true⟩,
  ⟨"PE_TRIPS", 0x7223, 1, 1, 1, 12, .u32, 1, 1, 1, 0, 0, 0, .nor, false, 0, .any, true, true⟩,
  ⟨"PE_TFET_MAX", 0x7224, 1, 1, 1, 12, .f32, 1, 1, 1, 0, 0, 0, .nor, false, 3280507699, .any, true, false⟩,
  ⟨"PE_INRUSH_J", 0x7225, 1, 1, 1, 12, .f32, 1, 1, 1, 0, 0, 0, .nor, false, 0, .any, true, false⟩,
  ⟨"OPERATING_S", 0x7300, 1, 1, 1, 1, .u32, 1, 1, 1, 0, 0, 0, .nor, false, 0, .any, true, false⟩,
  ⟨"POWER_CYCLES", 0x7300, 1, 1, 2, 1, .u32, 1, 1, 1, 0, 0, 0, .nor, false, 0, .any, true, false⟩]

/-- Every entry of the dictionary (12 R343). -/
def entries : List Entry :=
  entries0 ++ entries1 ++ entries2 ++ entries3 ++ entries4 ++ entries5 ++ entries6 ++ entries7 ++ entries8 ++ entries9 ++ entries10 ++ entries11 ++ entries12 ++ entries13

end Sys2Proof.Machine
end

