-- ==== Sys2Proof/Machine/Ops.lean ====
section
/-! DEFINITION. The named operations over the state: sparse maps in one canonical form, dictionary numbers and byte
objects, the count and Rye's timers, and the accessors of the parts. -/
namespace Sys2Proof.Machine

open Sys2Proof

/-! ## Sparse maps -/

def look {α : Type} : Map α → Nat → Option α
  | [], _ => none
  | (k', v) :: t, k => if k' = k then some v else look t k

/-- Insert or replace, keeping the keys strictly rising. -/
def put {α : Type} : Map α → Nat → α → Map α
  | [], k, v => [(k, v)]
  | (k', v') :: t, k, v =>
    if k < k' then (k, v) :: (k', v') :: t
    else if k = k' then (k, v) :: t
    else (k', v') :: put t k v

def del {α : Type} : Map α → Nat → Map α
  | [], _ => []
  | (k', v') :: t, k => if k' = k then del t k else (k', v') :: del t k

/-- Keys strictly rising. -/
def Sorted {α : Type} : Map α → Bool
  | [] => true
  | [_] => true
  | (a, _) :: (b, y) :: t => decide (a < b) && Sorted ((b, y) :: t)

/-- Set a key to a value, where one value is what an unlisted key reads as. -/
def putD {α : Type} [DecidableEq α] (m : Map α) (k : Nat) (v d : α) : Map α :=
  if v = d then del m k else put m k v

def lookD {α : Type} (m : Map α) (k : Nat) (d : α) : α := (look m k).getD d

/-- The entries of one map over those of another. -/
def putAll {α : Type} (new old : Map α) : Map α := new.foldl (fun m p => put m p.1 p.2) old

/-- Update an element of a fixed array. -/
def vupd {α : Type} {n : Nat} (v : Vector α n) (i : Fin n) (f : α → α) : Vector α n :=
  v.set i.val (f (v.get i)) i.isLt

/-! ## Dictionary numbers and byte objects -/

def getN (s : State) (o : Obj) : Nat := lookD s.nums o.key o.dflt
def setN (s : State) (o : Obj) (v : Nat) : State := { s with nums := putD s.nums o.key v o.dflt }
/-- Count up to a saturation value (12 Table 12.3). -/
def incMax (s : State) (o : Obj) (n top : Nat) : State := setN s o (min (getN s o + n) top)
def u16 : Nat := 0xFFFF
def u32 : Nat := 0xFFFFFFFF
def u64 : Nat := 0xFFFFFFFFFFFFFFFF
def inc32 (s : State) (o : Obj) : State := incMax s o 1 u32
def inc64 (s : State) (o : Obj) : State := incMax s o 1 u64
/-- An F32 object as a rational. -/
def getF (s : State) (o : Obj) : Rat := f32ToRat (getN s o)

/-- The default of a byte object: ANNOUNCE_GROUP ff02::1, PORT_IPV4_SVC 169.254.88.80/16, empty otherwise (12 Table 12.18, 13
Table 13.7). -/
def blobDflt (k : Nat) : List Byte :=
  if k = 0x144100 then [0xFF, 0x02, 0, 0, 0, 0, 0, 0, 0, 0, 0, 0, 0, 0, 0, 1]
  else if k = 0x140603 then [169, 254, 88, 80, 16]
  else []

def getBlob (s : State) (k : Nat) : List Byte := lookD s.blobs k (blobDflt k)
def putBlob (m : Map (List Byte)) (k : Nat) (bs : List Byte) : Map (List Byte) := putD m k bs (blobDflt k)
def setBlob (s : State) (k : Nat) (bs : List Byte) : State := { s with blobs := putBlob s.blobs k bs }

/-! ## Little-endian fields (00 R13) -/

def leBytes : Nat → Nat → List Byte
  | 0, _ => []
  | k + 1, v => BitVec.ofNat 8 v :: leBytes k (v / 256)

def ofLe : List Byte → Nat
  | [] => 0
  | b :: t => b.toNat + 256 * ofLe t

/-- The little-endian field of n bytes at an offset. -/
def fieldAt (bs : List Byte) (off n : Nat) : Nat := ofLe ((bs.drop off).take n)

/-- Bits [lo + w - 1 : lo] of a number. -/
def bits (v lo w : Nat) : Nat := v / 2 ^ lo % 2 ^ w

def bitSet (v i : Nat) : Bool := v / 2 ^ i % 2 == 1

def boolBit (b : Bool) (i : Nat) : Nat := if b then 2 ^ i else 0

/-- One bit of a word given a value. -/
def putBit (v i : Nat) (b : Bool) : Nat :=
  if bitSet v i then (if b then v else v - 2 ^ i) else (if b then v + 2 ^ i else v)

/-! ## The count and Rye's timers (02 R43 to R46) -/

def two32 : Nat := 4294967296

/-- The count kept in Rye: the integer part of the base. -/
def now (s : State) : Count := s.clk.base / two32

/-- 2^64: counts are of 64 bits and wrap (00 R15; DEDUCED, log 10). -/
def two64 : Nat := 18446744073709551616

/-- The count as the main die has it: its own copy, which counts on in fabric cycles of 1 ns between two Rye edges, and Rye's while
it is held in reset (R44, R45). -/
def mainNow (s : State) : Count := if s.part.reset then now s else (s.clk.copy + s.clk.sub) % two64

/-- A count stamped in Rye: the largest multiple of 40 not later (R45). -/
def ryeStamp (s : State) : Count := now s / 40 * 40

def usCycles (us : Nat) : Nat := 25 * us
def msCycles (ms : Nat) : Nat := 25000 * ms
def sCycles (sec : Nat) : Nat := 25000000 * sec

/-- What one XTAL25 edge adds, in fractions: 40 ns with the frequency correction (R43; log 10). -/
def cycleStep (ppb : Int) : Nat := (40 * (two32 : Int) + 40 * (two32 : Int) * ppb / 1000000000).toNat

/-- The slew removed over n cycles: at most SLEW_MAX_PPM of the elapsed time (R49). -/
def slewOver (slew : Int) (ppm n : Nat) : Int :=
  let lim : Int := ((40 * two32 * ppm / 1000000 : Nat) : Int) * n
  max (-lim) (min lim slew)

/-- A base holds a 64-bit count and a 32-bit fraction, and wraps at 2^96 (R43; DEDUCED, log 10). -/
def two96 : Nat := 79228162514264337593543950336

/-- The main die's copy after n cycles: n times 40 ns, and corrected toward the base, the shorter way round 2^64, by at most 1 ns a
cycle (R44; log 76). -/
def copyAfter (copy count n : Nat) : Nat :=
  let x := (copy + 40 * n) % two64
  let ahead := (count % two64 + two64 - x) % two64
  if ahead < two64 / 2 then (x + min ahead n) % two64 else (x + two64 - min (two64 - ahead) n) % two64

/-- n Rye cycles pass. On the RC oscillator each edge adds 30,518 ns and stands for 762 cycles (R57; log 10). A slew that would
take the count below 0 leaves it at 0 (DESIGN CHOICE, log 10: R15 and R49 state nothing of it). -/
def Clock.run (c : Clock) (ppm n : Nat) : Clock :=
  if c.rc then
    let b := (c.base + n * 30518 * two32) % two96
    { c with base := b, cycles := c.cycles + n * 762, copy := b / two32, sub := if n = 0 then c.sub else 0 }
  else
    let d := slewOver c.slew ppm n
    let b := ((c.base : Int) + n * (cycleStep c.freqPpb : Nat) + d).toNat % two96
    { c with base := b, cycles := c.cycles + n, slew := c.slew - d, copy := copyAfter c.copy (b / two32) n
             sub := if n = 0 then c.sub else 0 }

def run (n : Nat) (s : State) : State := { s with clk := s.clk.run (getN s Obj.slewMaxPpm) n }

/-- Move the clock forward to a deadline in Rye cycles, if it is not there yet (log 11). -/
def tickTo (due : Nat) (s : State) : State :=
  if s.clk.rc then run ((due - s.clk.cycles + 761) / 762) s else run (due - s.clk.cycles) s

/-- The least number of cycles after which the count has advanced by `need` fractions: each cycle adds `step`, and the slew adds or
takes at most `lim` of what is left of it (R43, R49). -/
def cyclesFor (need step lim : Nat) (slew : Int) : Nat :=
  let up (a b : Nat) : Nat := (a + b - 1) / b
  if 0 ≤ slew then max (up need (step + lim)) (up (need - slew.natAbs) step)
  else min (up need (step - lim)) (up (need + slew.natAbs) step)

/-- Move the clock forward until the count reaches c (log 11): the number of whole cycles needed. -/
def reachCount (c : Count) (s : State) : State :=
  if s.clk.rc then run ((c - now s + 30517) / 30518) s
  else
    run (cyclesFor (c * two32 - s.clk.base) (cycleStep s.clk.freqPpb) (40 * two32 * getN s Obj.slewMaxPpm / 1000000) s.clk.slew) s

/-- One fabric cycle of 1 ns passes; with every fortieth one of Rye's does (R44; log 10). -/
def fabricCycle (s : State) : State :=
  if s.clk.rc || decide (39 ≤ s.clk.sub) then run 1 s else { s with clk := { s.clk with sub := s.clk.sub + 1 } }

/-- A new accepting count: no two steps share one (12 R352). -/
def acceptCount (s : State) : Count := max (mainNow s) (s.clk.lastAccept + 1)

/-! ## Accessors of the parts -/

def updBr (b : Fin 12) (f : Branch → Branch) (s : State) : State := { s with br := vupd s.br b f }
def updSeq (q : Fin 9) (f : Seq → Seq) (s : State) : State := { s with sq := vupd s.sq q f }
def updAcc (a : Fin 8) (f : Accel → Accel) (s : State) : State := { s with acc := vupd s.acc a f }
def updTile (t : Fin 68) (f : Tile → Tile) (s : State) : State :=
  { s with eng := { s.eng with tiles := vupd s.eng.tiles t f } }
def updRail (q : Fin 9) (r : Fin 16) (f : Rail → Rail) (s : State) : State :=
  updSeq q (fun x => { x with rails := vupd x.rails r f }) s
def updOut (o : Fin 24) (f : Output → Output) (s : State) : State :=
  { s with cool := { s.cool with outs := vupd s.cool.outs o f } }
def updHost (p : Fin 2) (f : HostPort → HostPort) (s : State) : State :=
  { s with port := { s.port with host := vupd s.port.host p f } }
def updSb (p : Fin 8) (f : SbPort → SbPort) (s : State) : State :=
  { s with port := { s.port with sb := vupd s.port.sb p f } }
def updDma (c : Fin 32) (f : DmaCh → DmaCh) (s : State) : State :=
  { s with mem := { s.mem with dma := vupd s.mem.dma c f } }
def updRep (c : Fin 13) (f : PowerCh → PowerCh) (s : State) : State := { s with rep := vupd s.rep c f }

def getSess (s : State) (n : Nat) : Sess := lookD s.eng.sess n Sess.closed
def setSess (n : Nat) (x : Sess) (s : State) : State :=
  { s with eng := { s.eng with sess := putD s.eng.sess n x Sess.closed } }
def updSess (n : Nat) (f : Sess → Sess) (s : State) : State := setSess n (f (getSess s n)) s

/-- Apply a function for every index of a finite type, in rising order. -/
def forAll (n : Nat) (f : Fin n → State → State) (s : State) : State :=
  (List.finRange n).foldl (fun acc i => f i acc) s

/-- Apply a function for every element of a list, in order. -/
def forEach {α : Type} (l : List α) (f : α → State → State) (s : State) : State := l.foldl (fun acc x => f x acc) s

/-- The main die runs: out of reset and started (11 Table 11.1). -/
def mainUp (s : State) : Bool :=
  !s.part.reset && (s.part.st == .ready || s.part.st == .run || (s.part.st == .safe && s.part.safeCause == .warden))

/-- In SAFE by a Warden command the firmware's outputs are frozen (11 Table 11.2). They are taken to be its completions and the
codes it raises (DESIGN CHOICE, log 86). -/
def fwFrozen (s : State) : Bool := s.part.st == .safe && s.part.safeCause == .warden

/-- A free value of w bits is taken (log 8). -/
def takeFree (w : Nat) (s : State) : Nat × State := (Config.free w s.free % 2 ^ w, { s with free := s.free + 1 })

/-- The accelerator of a sequencer or branch: branch Bn, n = 1 to 8, belongs to A(n-1) (08 Table 8.1). -/
def accelOfBranch (b : Fin 12) : Option (Fin 8) :=
  if h : 1 ≤ b.val ∧ b.val ≤ 8 then some ⟨b.val - 1, by omega⟩ else none
def branchOf (a : Fin 8) : Fin 12 := ⟨a.val + 1, by omega⟩
def seqOf (a : Fin 8) : Fin 9 := ⟨a.val, by omega⟩
def sSelf : Fin 9 := 8

/-- The outcome of every meaning. -/
abbrev Out := Host.Outcome State Fault Refusal

end Sys2Proof.Machine
end

