-- ==== Sys2Proof/Machine/Event.lean ====
section
/-! DEFINITION. Raising an event: the capture record of its code (17 R482), its token bucket (17 R484, R485), and its
place before the serializer or in Rye's queue (02 R69, R70). -/
namespace Sys2Proof.Machine

open Sys2Proof

/-- Whether a code's occurrences are fault events (11 R340). -/
def Ev.isFault : Ev → Bool
  | .branchFastTrip | .branchCurveTrip | .branchTfetTrip | .branchTfetSensorTrip | .branchInrushTimer | .gateNoRise
  | .outputWhileOff | .notCleared | .escalation | .branchPresenceLost | .emergencyStarted | .thermtrip | .safe
  | .thermalShutdown | .sorghumOt | .leakFault | .tileFailed | .domainLost | .accelQuarantined => true
  | _ => false

/-- The first code of the range that raises an event, and how many codes it has (17 Table 17.1). -/
def evRange : Ev → Nat × Nat
  | .timeLocked | .timeUnlocked | .timeStepped | .timeOffsetLarge | .timeHoldoverExpired | .timeSourceChanged | .syncRejected | .launchMissed
  | .launchDisarmed => (0x010, 0x0F0)
  | .branchFastTrip | .branchCurveTrip | .branchTfetTrip | .branchTfetSensorTrip | .branchInrushTimer | .gateNoRise | .outputWhileOff
  | .notCleared | .escalation | .branchCurveWarn | .tfetSensorFault | .tfetSensorOk | .fetTempHigh | .fetVdsHigh | .vinOv
  | .branchPresenceLost | .branchPresenceEdge | .branchToggleIgnored | .branchUnclearedTrip | .vinLow | .emergencyStarted => (0x100, 0x100)
  | .railUvFault | .railOvFault | .railPgLost | .railUvWarn | .railOvWarn | .pgDeglitch | .pgTimeout | .upTimeout | .railEarlyCollapse
  | .railNoDischarge | .downWaitTimeout | .selfRailFault | .thermtrip | .branchLost | .b0Off | .offOrder | .admitFailed | .triggerRecorded
  | .triggerThermtrip | .triggerVinLow => (0x200, 0x100)
  | .partTempWarn | .sorghumTempWarn | .engineThrottle | .thermalShutdown | .thermalRestartAbandoned | .sorghumOt | .accelThermalRelease
  | .accelLimitWriteFailed | .fanFault | .coolantFlowLow | .tempSensorFault | .tempSensorOk | .leakWarn | .leakFault | .leakOpen =>
    (0x300, 0x100)
  | .tileFailed | .cloveUe | .stagingLate | .p0AdmissionFailed | .sessionOpened | .sessionClosed | .sessionAnomaly | .modelSwitched
  | .modelLoadFailed | .switchDiscarded | .sessionReapplyFailed | .ckptLost | .domainLost | .engineLost | .arithFlags => (0x400, 0x200)
  | .aniseUe | .mpcInvalid | .targetClamped | .predictiveFault | .predictiveClear | .concordDiverged => (0x600, 0x100)
  | .partDegraded | .safe | .mainDieReset | .accelRequestChanged | .accelQuarantined | .bootSlotFailed | .memTrainingFailed | .fwCrash
  | .rcbInvalid => (0x700, 0x100)
  | .hostLinkDown | .hostFecUncorrectable | .sbLinkFault | .macsecPnLow => (0x800, 0x100)
  | .memLost | .memUe | .dmaDone | .dmaHalted | .syncWait | .huskDenied | .updateState | .updateFailed => (0x900, 0x100)
  | .pufFailed | .secRecordLost => (0xA00, 0x100)
  | .recorderSuppressed | .recorderCommitFailed | .recorderLost | .recorderPartial | .accelReplaced | .fruReadFailed | .peReplaced
  | .queueOverflow => (0, 16)
  | .fw _ => (0xE00, 0x200)

/-- The number of a code: the stated ones, and an open constant of its range for the others (17 Table 17.1; log 5). -/
def evNum : Ev → Nat
  | .recorderSuppressed => 1
  | .recorderCommitFailed => 2
  | .recorderLost => 3
  | .recorderPartial => 4
  | .accelReplaced => 5
  | .fruReadFailed => 6
  | .peReplaced => 7
  | .queueOverflow => 8
  | .branchFastTrip => 0x110
  | .fw c => 0xE00 + c.val
  | e => (evRange e).1 + Config.evCode e % (evRange e).2

/-- The key under which the recorder's tables list a code. -/
def evKey : Ev → Nat
  | .fw c => 0xE00 + c.val
  | e => e.ctorIdx

def CodeInfo.plain (fault : Bool) : CodeInfo := ⟨0, 0, 32, 0, 0, fault, false, 0, 1⟩

/-- CODE_INFO (17 Table 17.2): the two descriptors the spec states (R482's example, R491); the constants of the other
codes stand in the state (log 6). -/
def codeInfo (n : Nutmeg) (e : Ev) : CodeInfo :=
  match e with
  | .branchFastTrip => ⟨1, 0, 16, -2, 4, true, false, 0, 1⟩
  | .fw _ => ⟨1, 0, 32, 0, 0, false, false, 10, 20⟩
  | .recorderSuppressed => ⟨0, 0, 32, 0, 0, false, false, 0, 1⟩
  | e => { lookD n.info (evKey e) (CodeInfo.plain e.isFault) with fault := e.isFault }

/-- CODE_RATE of a code: [7:0] RATE, [15:8] BURST; it starts at the defaults of CODE_INFO (17 R484). -/
def codeRate (s : State) (e : Ev) : Nat :=
  (look s.nums (0x702000 + evNum e)).getD ((codeInfo s.nut e).rate + 256 * (codeInfo s.nut e).burst)

/-- The magnitude of an occurrence as FP32 (17 R481); none for KIND NONE and for a NaN or an infinity. -/
def magnitude (i : CodeInfo) (detail : Nat) : Option Nat :=
  let f := bits detail i.lsb i.width
  let scaled (neg : Bool) (m : Nat) : Nat := Fmt.f32.round neg m i.scaleE
  if i.kind = 1 then some (scaled false f)
  else if i.kind = 2 then
    (if bitSet f (i.width - 1) then some (scaled true (2 ^ i.width - f)) else some (scaled false f))
  else if i.kind = 3 then (if Fmt.f32.isFinite f then some f else none)
  else none

def ratPow2 (e : Int) : Rat := if e < 0 then 1 / (2 ^ e.natAbs : Rat) else (2 ^ e.natAbs : Rat)

/-- The histogram bin (17 R482): 0 below 2^e, 15 from 2^(e+14), else the octave. -/
def histBin (histE : Int) (v : Nat) : Nat :=
  let a := f32ToRat (Fmt.f32.abs v)
  if a < ratPow2 histE then 0
  else if ratPow2 (histE + 14) ≤ a then 15
  else ((List.range 15).filter (fun (b : Nat) => decide (1 ≤ b) && decide (ratPow2 (histE + (b : Int) - 1) ≤ a))).length

def nanF32 : Nat := 0x7FC00000

/-- A record that has recorded nothing (17 R482). -/
def CodeRec.empty : CodeRec := ⟨0, 0, nanF32, nanF32, 0, List.replicate 16 0, 0, 0, 0, 0, 0, 0, 0⟩

/-- RECORD of 17 R482. -/
def CodeRec.note (r : CodeRec) (i : CodeInfo) (seconds cycles epoch : Nat) (count : Count) (detail : Nat) : CodeRec :=
  let first := r.firstCycle = 0
  let r1 := { r with count := min (r.count + 1) u64,
                     firstS := if first then seconds else r.firstS,
                     firstCycle := if first then cycles else r.firstCycle,
                     lastS := seconds, lastCycle := cycles, lastCount := count, lastEpoch := epoch,
                     lastDetail := detail }
  match magnitude i detail with
  | none => r1
  | some v =>
    let b := histBin i.histE v
    { r1 with lo := if Fmt.f32.isNan r1.lo || Fmt.f32.lt v r1.lo then v else r1.lo,
              hi := if Fmt.f32.isNan r1.hi || Fmt.f32.lt r1.hi v then v else r1.hi,
              sum := Fmt.f64.add r1.sum (Fmt.f32.conv Fmt.f64 v),
              hist := r1.hist.set b (min (r1.hist.getD b 0 + 1) u32) }

/-- The tokens a code holds (17 R484); a bucket not listed is full. -/
def tokensOf (s : State) (e : Ev) : Nat := lookD s.nut.tokens (evKey e) (codeRate s e / 256)

/-- An occurrence is serialized: RATE 0, a token, or a FAULT code (17 R484, R485). -/
def serialized (s : State) (e : Ev) : Bool :=
  codeRate s e % 256 == 0 || decide (0 < tokensOf s e) || (codeInfo s.nut e).fault

def mkRec (s : State) (e : Ev) (source detail : Nat) (rye : Bool) : EvRec where
  seq := 0
  count := if rye then ryeStamp s else mainNow s
  epoch := s.clk.epoch
  code := e
  source := source
  rye := rye
  queued := false
  notLocked := s.clk.state != .locked
  overflow := false
  coarse := s.clk.state == .coarse
  detail := detail % 2 ^ 32

/-- Rye's queue takes an event while the serializer is down: the first 1,023 events, then one QUEUE_OVERFLOW record that
counts the rest (02 R70). -/
def enqueue (q : List EvRec) (r : EvRec) : List EvRec :=
  if q.length < 1023 then q ++ [r]
  else if q.length = 1023 then
    q ++ [{ r with code := .queueOverflow, source := 0x7000, rye := true, overflow := true, detail := 1 }]
  else
    q.take 1023 ++ ((q.drop 1023).map (fun x => { x with detail := min (x.detail + 1) u32 }))

/-- Where a serialized event goes. A main-die event detected while the serializer is down is lost to it (R70). -/
def pushEvent (v : Events) (r : EvRec) : Events :=
  if v.up then { v with held := v.held ++ [r] }
  else if r.rye then { v with queue := enqueue v.queue r }
  else v

/-- An occurrence as its code's record takes it in (17 R482, R484). -/
def noteOcc (s : State) (o : Occ) (n : Nutmeg) : Nutmeg :=
  let k := evKey o.code
  let rec1 := (lookD n.records k CodeRec.empty).note (codeInfo n o.code) (getN s Obj.operatingS) (getN s Obj.powerCycles) o.epoch o.count o.detail
  { n with records := put n.records k (if o.serialized then rec1 else { rec1 with suppressed := min (rec1.suppressed + 1) u32 }) }

/-- The occurrences of the present Rye cycle, with one more (17 R486). -/
def lateAfter (s : State) (o : Occ) (n : Nutmeg) : Nutmeg :=
  { n with lately := (s.clk.cycles, (if n.lately.1 = s.clk.cycles then n.lately.2 else []) ++ [o]) }

/-- The recorder's part of an occurrence (17 R482, R484, R489). -/
def capture (s : State) (e : Ev) (r : EvRec) : Nutmeg :=
  let k := evKey e
  let i := codeInfo s.nut e
  let limited := codeRate s e % 256 ≠ 0
  let had := decide (0 < tokensOf s e)
  let ok := serialized s e
  let o : Occ := ⟨e, r.detail, r.count, r.epoch, ok⟩
  let n := lateAfter s o (noteOcc s o s.nut)
  { n with
    tokens := if limited && had then put n.tokens k (tokensOf s e - 1) else n.tokens
    refilled := if limited && had && (look n.tokens k).isNone then put n.refilled k s.clk.cycles else n.refilled
    sinceSecond := if ok then n.sinceSecond else put n.sinceSecond k (evNum e, min ((lookD n.sinceSecond k (0, 0)).2 + 1) 0xFFFFF)
    immediate := if i.immediate && (had || !limited) then n.immediate ++ [k] else n.immediate
    copyA := { n.copyA with changed := put n.copyA.changed k (evNum e, i.fault) }
    copyB := { n.copyB with changed := put n.copyB.changed k (evNum e, i.fault) } }

/-- The QUEUE_OVERFLOW record is counted under its own code, when the queue `q` has come to hold it (02 R70). -/
def captureOverflow (s : State) (q : List EvRec) (m : Nutmeg) : Nutmeg :=
  let k := evKey .queueOverflow
  let i := codeInfo m .queueOverflow
  if s.ev.queue.any (fun r => r.code == .queueOverflow) then m
  else match q.find? (fun r => r.code == .queueOverflow) with
    | none => m
    | some r =>
      let o : Occ := ⟨.queueOverflow, 1, r.count, r.epoch, true⟩
      let n := lateAfter s o (noteOcc s o m)
      { n with
        copyA := { n.copyA with changed := put n.copyA.changed k (evNum .queueOverflow, i.fault) }
        copyB := { n.copyB with changed := put n.copyB.changed k (evNum .queueOverflow, i.fault) } }

/-- An event is detected. -/
def raiseRec (e : Ev) (r : EvRec) (s : State) : State :=
  let v := if serialized s e then pushEvent s.ev r else s.ev
  { s with ev := v, nut := captureOverflow s v.queue (capture s e r) }

/-- An event detected in Rye (02 R45: 40 ns stamp). -/
def raiseRye (e : Ev) (source detail : Nat) (s : State) : State := raiseRec e (mkRec s e source detail true) s

/-- An event detected on the main die. -/
def raiseMain (e : Ev) (source detail : Nat) (s : State) : State := raiseRec e (mkRec s e source detail false) s

/-- The detail of an event where the spec states none, for the thing concerned (log 6). -/
def openDetail (e : Ev) (n : Nat) : Nat := Config.detail e n % 2 ^ 32

/-- The order of numbering: RECORDER_LOST, the first event of its series, then by count, Rye first, then ascending source
(02 R69). Rye events of one count are ordered by ascending source too (DESIGN CHOICE, log 77: R69 orders main-die sources
only), and events of different epochs by their counts alone (DESIGN CHOICE, log 77: R69 is silent, and R72 compares no counts of
different epochs). -/
def recBefore (a b : EvRec) : Bool :=
  a.code == .recorderLost ||
    (b.code != .recorderLost &&
      (decide (a.count < b.count) ||
        (a.count == b.count && ((a.rye && !b.rye) || (a.rye == b.rye && decide (a.source ≤ b.source))))))

/-- Insertion by `recBefore`. Of two events of one count and one source the one detected later is numbered first (DESIGN
CHOICE, log 77: R69 is silent). -/
def insertRec (r : EvRec) : List EvRec → List EvRec
  | [] => [r]
  | x :: t => if recBefore x r then x :: insertRec r t else r :: x :: t

def sortRecs (l : List EvRec) : List EvRec := l.foldr insertRec []

/-- A main-die reset: Rye's own unnumbered events pass to the queue; the main die's are lost to serialization (R70). -/
def serializerDown (s : State) : State :=
  let q := (sortRecs (s.ev.held.filter (·.rye))).foldl enqueue s.ev.queue
  { s with ev := { s.ev with up := false, queue := q, held := [] }
           nut := captureOverflow s q s.nut }

/-- The event history keeps the last 65,536 records (02 R71). -/
def keepHistory (h : List EvRec) (r : EvRec) : List EvRec :=
  let h' := h ++ [r]
  if h'.length ≤ 65536 then h' else h'.drop (h'.length - 65536)

/-- The serializer numbers one record. -/
def numberOne (r : EvRec) (v : Events) : Events :=
  { v with nextSeq := v.nextSeq + 1, lastSeq := v.nextSeq, history := keepHistory v.history { r with seq := v.nextSeq } }

/-- The serializer restarts and numbers Rye's queue with QUEUED, in count order, before any new event (02 R70). -/
def serializerUp (s : State) : State :=
  let v := s.ev
  let v' := (sortRecs v.queue).foldl (fun acc r => numberOne { r with queued := true } acc) v
  { s with ev := { v' with up := true, queue := [] } }

/-! ## PART_DEGRADED (11 R323) -/

def partSrc : Nat := 0x1100

def Link.up : Link → Bool
  | .up100 | .up200 => true
  | _ => false

def hostUp (s : State) (p : Fin 2) : Bool := (s.port.host.get p).link.up

/-- Flags of the no-forecast word (07 Table 7.4). -/
def antNoForecast (w : Nat) : Bool := bitSet w 18

/-- UPDATING: between block write and health check (11 Table 11.3). -/
def updating (s : State) : Bool :=
  (match s.bar.upd with
   | .writing | .verifying | .shadowBoot | .shadowSync | .shadowReady | .takeover | .trial => true
   | _ => false)

/-- The word of Table 11.3. -/
def degradedWord (s : State) : Nat :=
  if s.part.st ≠ .run ∧ s.part.st ≠ .ready then 0
  else
    boolBit (s.img.binds.any (fun b => match b.ptile with | some q => s.img.spareAt.contains q | none => false)) 0 +
    boolBit (s.img.lostDom.get 0 || s.img.lostDom.get 1) 1 +
    boolBit (s.part.st == .run && s.eng.sess.any (fun p => p.2.st == .opened && (decide (s.eng.skipDiv < p.2.k) || p.2.k == 0))) 2 +
    boolBit (decide (0 < s.heat.lLevel)) 3 +
    boolBit (s.clk.state != .locked) 4 +
    boolBit (hostUp s 0 != hostUp s 1) 5 +
    boolBit (s.ani.cstate == .diverged) 6 +
    boolBit (updating s) 7 +
    boolBit s.eng.ckptStale 8 +
    boolBit (s.part.st == .run && (List.finRange 8).any (fun a => getN s (Obj.antEnable a.val) == 1 &&
      (match s.ani.antLine.get a with | some w => antNoForecast w | none => false))) 9 +
    boolBit s.part.fwRestarting 10 +
    boolBit s.part.strap 11

/-- Each change of the word raises PART_DEGRADED with the new word (R323); Rye, which keeps the part's state, sees a change that
leaves READY and RUN. -/
def noteDegraded (s : State) : State :=
  let w := degradedWord s
  let s1 := { s with part := { s.part with degraded := w } }
  if s.part.degraded = w then s
  else if s.part.st = .run ∨ s.part.st = .ready then raiseMain .partDegraded partSrc w s1
  else raiseRye .partDegraded partSrc w s1

/-- The same for what a command answers. -/
def noted (o : Host.Outcome State Fault Refusal) : Host.Outcome State Fault Refusal :=
  match o with
  | .next s => .next (noteDegraded s)
  | x => x

end Sys2Proof.Machine
end

