-- ==== Sys2Proof/Machine/Check.lean ====
section
/-! DEFINITION. How the dictionary engine checks and applies one step (12 R343 to R354): the entry of an address, the
checks of R351 in their order, the accepting count, and the outcome a writer gets. -/
namespace Sys2Proof.Machine

open Sys2Proof

/-- Whether an entry covers an index. -/
def Entry.atIndex (e : Entry) (idx : Nat) : Bool :=
  decide (e.index ≤ idx) && (idx - e.index) % e.step == 0 && decide ((idx - e.index) / e.step < e.count)

def Entry.covers (e : Entry) (idx sub : Nat) : Bool :=
  e.atIndex idx && decide (e.sub0 ≤ sub) && decide (sub < e.sub0 + e.subs)

/-- The entry of a key (index * 256 + subindex) among those of the chapters and of the firmware in control (R349). -/
def findEntry (s : State) (key : Nat) : Option Entry :=
  match entries.find? (fun e => e.covers (key / 256) (key % 256)) with
  | some e => some e
  | none =>
    match s.bar.fwImage with
    | some img => img.objects.find? (fun e => e.covers (key / 256) (key % 256))
    | none => none

def indexUsed (s : State) (idx : Nat) : Bool :=
  entries.any (fun e => e.atIndex idx) ||
    (match s.bar.fwImage with
     | some img => img.objects.any (fun e => e.atIndex idx)
     | none => false)

/-- Type codes and lengths on the wire (Table 12.1). -/
def Ty.code : Ty → Nat
  | .bool => 1 | .i8 => 2 | .i16 => 3 | .i32 => 4 | .i64 => 5 | .u8 => 6 | .u16 => 7 | .u32 => 8 | .u64 => 9
  | .f32 => 10 | .f64 => 11 | .q16 => 12 | .str => 13 | .domain => 14 | .count => 15

def Ty.width : Ty → Nat
  | .bool | .i8 | .u8 => 8
  | .i16 | .u16 => 16
  | .i32 | .u32 | .f32 | .q16 => 32
  | .i64 | .u64 | .f64 | .count => 64
  | .str | .domain => 0

def Ty.isBytes : Ty → Bool
  | .str | .domain => true
  | _ => false

def Ty.signed : Ty → Bool
  | .i8 | .i16 | .i32 | .i64 | .q16 => true
  | _ => false

/-- A pattern of w bits as the integer its type means. -/
def Ty.toInt (t : Ty) (v : Nat) : Int :=
  if t.signed && bitSet v (t.width - 1) then (v : Int) - 2 ^ t.width else v

def Entry.acc (e : Entry) : Auth → Nat
  | .facility => e.accF | .host => e.accH | .service => e.accS | .protection => 0

def Entry.stBits (e : Entry) : Auth → Nat
  | .facility => e.stF | .host => e.stH | .service => e.stS | .protection => 0

/-- An override covers an object, from 1 µs after it was written (15 R442). -/
def Override.applies (o : Override) (t : Count) (key : Nat) : Bool :=
  o.enable && o.index == key / 256 && decide (o.subFirst ≤ key % 256) && decide (key % 256 ≤ o.subLast) && decide (o.since + 1000 ≤ t)

/-- An access byte under an override: R and W of both, S of either, C as declared. -/
def narrowAcc (d o : Nat) : Nat := (d &&& o) % 4 + (d ||| o) / 4 % 2 * 4 + d / 8 % 2 * 8

/-- A state byte under an override: the AND of both, all ones for a side whose S is clear. -/
def narrowSt (da ds oa os : Nat) : Nat := (if bitSet da 2 then ds else 255) &&& (if bitSet oa 2 then os else 255)

def Entry.narrow (e : Entry) (o : Override) : Entry :=
  let f := bits o.access 0 8
  let h := bits o.access 8 8
  let v := bits o.access 16 8
  { e with
    accF := narrowAcc e.accF f, accH := narrowAcc e.accH h, accS := narrowAcc e.accS v
    stF := narrowSt e.accF e.stF f o.stF, stH := narrowSt e.accH e.stH h o.stH, stS := narrowSt e.accS e.stS v o.stS }

/-- The entry with its effective access: the lowest-numbered override in force applies (15 R442). -/
def effEntry (s : State) (key : Nat) : Option Entry :=
  match findEntry s key with
  | none => none
  | some e =>
    match s.bar.overrides.find? (fun p => p.2.applies (now s) key) with
    | some p => some (e.narrow p.2)
    | none => some e

/-- Firmware-backed objects are out of service while the firmware restarts, and in SAFE after a boot failure (11 R324, R335). -/
def fwAway (s : State) : Bool := s.part.fwRestarting || s.oda.bare

/-- Objects whose value lies in LPDDR4X (11 R324): the histories and rings, the image store, the model library. -/
def inRam (key : Nat) : Bool :=
  let i := key / 256
  i == 0x1240 || i == 0x1260 || i == 0x4020 || i == 0x4034 || i == 0x4040 || (decide (0x4110 ≤ i) && decide (i ≤ 0x411F))

/-- Part state codes (11 Table 11.1). -/
def PartState.code : PartState → Nat
  | .off => 0 | .standby => 1 | .boot => 2 | .ready => 3 | .run => 4 | .safe => 5 | .thermalShutdown => 6

/-- A bound of a range column as a number of the object's type: the nearest F32 or F64, as MIN and MAX of R348 give it. -/
def boundOf (t : Ty) (q : Rat) : Rat := if t = .f64 then Fmt.f64.toRat (Fmt.f64.ofRat q) else f32ToRat (f32OfRat q)

def floatOf (t : Ty) (n : Nat) : Rat := if t = .f64 then Fmt.f64.toRat n else f32ToRat n

/-- The range column: what is outside gives 0x0004_0001, a length outside 0x0003_0002. -/
def rangeOk (t : Ty) (r : Range) (v : Value) : Bool :=
  match v with
  | .bytes bs =>
    (match r with
     | .len lo hi => decide (lo ≤ bs.length) && decide (bs.length ≤ hi)
     | .zeroOrLen lo hi => bs.length == 0 || (decide (lo ≤ bs.length) && decide (bs.length ≤ hi))
     | .lens vs => vs.contains bs.length
     | _ => true)
  | .num n =>
    let i := t.toInt n
    (match r with
     | .any => true
     | .ints lo hi => decide (lo ≤ i) && decide (i ≤ hi)
     | .oneOf vs => vs.contains i
     | .intsOr lo hi x => (decide (lo ≤ i) && decide (i ≤ hi)) || i == x
     | .mult lo m => n == lo || n % m == 0
     | .multIn lo hi m => decide (lo ≤ n) && decide (n ≤ hi) && n % m == 0
     | .mask b => n == n &&& b
     | .floats lo hi => decide (boundOf t lo ≤ floatOf t n) && decide (floatOf t n ≤ boundOf t hi)
     | .floatsOr0 lo hi => floatOf t n == 0 || (decide (boundOf t lo ≤ floatOf t n) && decide (floatOf t n ≤ boundOf t hi))
     | .codeRate => decide (1 ≤ n / 256)
     | .len _ _ | .zeroOrLen _ _ | .lens _ => true)

/-- The value has the type's form: a pattern of its width, 0 or 1 for BOOL, finite for floats (R344, Table 12.1). -/
def formStatus (t : Ty) (r : Range) (v : Value) : Nat :=
  match v with
  | .bytes _ => if t.isBytes then (if rangeOk t r v then 0 else 0x00030002) else 0x00030002
  | .num n => if t.isBytes || decide (2 ^ t.width ≤ n) then 0x00030002 else 0

/-- Where a rule names its own code for a value that is not a multiple of 40 (02 R50, R60, R62). -/
def rangeCode (key : Nat) : Nat := if key = 0x120108 ∨ key = 0x121002 ∨ key = 0x121003 then 0x00040201 else 0x00040001

def rangeStatus (t : Ty) (r : Range) (v : Value) : Nat :=
  match v with
  | .bytes _ => 0
  | .num n =>
    if t = .bool && decide (1 < n) then 0x00040001
    else if t = .f32 && !(Fmt.f32.isFinite n) then 0x00040001
    else if t = .f64 && !(Fmt.f64.isFinite n) then 0x00040001
    else if rangeOk t r v then 0 else 0x00040001

/-- Whether the part state lets the authority write (R351 step 5; in SAFE, 11 R324 with its two exceptions). -/
def stateStatus (s : State) (au : Auth) (key : Nat) (e : Entry) : Nat :=
  let acc := e.acc au
  let st := e.stBits au
  if s.part.st = .safe then
    if key = 0x110101 && au = .service && (s.part.safeCause = .bootFailure || s.part.safeCause = .warden) then 0
    else if key = 0x604000 && s.cardamom.identity then 0
    else 0x00050000 + (if bitSet acc 2 then st else 0x18)
  else if bitSet acc 2 && !(bitSet st s.part.st.code) then 0x00050000 + st
  else 0

/-- The checks of R351 up to the range, for a write: 0, or the abort code of the first failure. `ty` is the TYPE named in
the address, 0 for none. -/
def precheck (s : State) (au : Auth) (key ty : Nat) (v : Value) : Nat :=
  match effEntry s key with
  | none => if indexUsed s (key / 256) then 0x00020002 else 0x00020001
  | some e =>
    if ty ≠ 0 ∧ ty ≠ e.ty.code then 0x00030001
    else if formStatus e.ty e.range v ≠ 0 then formStatus e.ty e.range v
    else if bitSet e.accF 3 then 0x00010003
    else if !(bitSet e.accF 1 || bitSet e.accH 1 || bitSet e.accS 1) then 0x00010001
    else if !(bitSet (e.acc au) 1) then 0x00060001
    else if stateStatus s au key e ≠ 0 then stateStatus s au key e
    else if e.fw && fwAway s then 0x00070031
    else if rangeStatus e.ty e.range v = 0x00040001 then rangeCode key
    else rangeStatus e.ty e.range v

/-- The checks of R351 for a read. -/
def readCheck (s : State) (au : Auth) (key ty : Nat) : Nat :=
  match effEntry s key with
  | none => if indexUsed s (key / 256) then 0x00020002 else 0x00020001
  | some e =>
    if ty ≠ 0 ∧ ty ≠ e.ty.code then 0x00030001
    else if !(bitSet e.accF 0 || bitSet e.accH 0 || bitSet e.accS 0) then 0x00010002
    else if !(bitSet (e.acc au) 0) then 0x00060002
    else if e.fw && fwAway s then 0x00070031
    else if inRam key && s.mem.st != .ready then 0x00070033
    else 0

def answerOf (sess txn status : Nat) (count : Count) : Answer :=
  ⟨sess, txn, status, count, false, false, if status = 0 then 1 else 0, if status = 0 then 0xFFFF else 0, if status = 0 then [count] else [], [], 0⟩

/-- The writer gets an abort code; nothing else changes (R351). -/
def refuse (code : Nat) (s : State) : State :=
  { s with oda := { s.oda with answer := some (answerOf 0 0 code 0) } }

/-- A step is applied at its accepting count (R352). -/
def accept (eff : Count → State → State) (s : State) : State :=
  let c := acceptCount s
  let s1 := { s with clk := { s.clk with lastAccept := c } }
  eff c { s1 with oda := { s1.oda with answer := some (answerOf 0 0 0 c) } }

/-- One write, from a command of the table that is a write of one object: the checks of R351, then the home chapter's
(`home`, 0 or its abort code), then the effect. With the dictionary engine down nothing happens. -/
def writeStep (au : Auth) (key : Nat) (v : Value) (home : State → Nat) (eff : Count → State → State) (s : State) : State :=
  if !s.oda.serving then s
  else if precheck s au key 0 v ≠ 0 then refuse (precheck s au key 0 v) s
  else if home s ≠ 0 then refuse (home s) s
  else accept eff s

def noHome (_ : State) : Nat := 0

/-! ## Where a NOR object's committed value lies (R346, R354, 01 R35) -/

def NorCopy.setNum (key v dflt : Nat) (c : NorCopy) : NorCopy := { c with nums := putD c.nums key v dflt }
def NorCopy.setBlob (key : Nat) (bs : List Byte) (c : NorCopy) : NorCopy := { c with blobs := putBlob c.blobs key bs }

/-- The copy Rye loads: the higher sequence number among the valid ones (01 R35). -/
def newestCopy (a b : NorCopy) : Option NorCopy :=
  if a.valid && (!b.valid || decide (b.seq ≤ a.seq)) then some a else if b.valid then some b else none

/-- What a completed commit leaves in both copies: the settings with the change, one sequence number higher (01 R35). -/
def nextCopy (f : NorCopy → NorCopy) (a b : NorCopy) : NorCopy :=
  let c := (newestCopy a b).getD a
  { f c with seq := (c.seq + 1) % 2 ^ 32, valid := true }

/-- A commit to the RCB or to the persisted-object area: copy A, then copy B. What both held before it is kept for an
interruption (01 R35). -/
def commitBoth (f : NorCopy → NorCopy) (rcb : Bool) (s : State) : State :=
  let p := s.pow
  if rcb then
    { s with pow := { p with rcbA := nextCopy f p.rcbA p.rcbB, rcbB := nextCopy f p.rcbA p.rcbB, commit := some ⟨true, p.rcbA, p.rcbB, s.clk.cycles⟩ } }
  else
    { s with pow := { p with norA := nextCopy f p.norA p.norB, norB := nextCopy f p.norA p.norB, commit := some ⟨false, p.norA, p.norB, s.clk.cycles⟩ } }

def commitNum (key v dflt : Nat) (rcb : Bool) (s : State) : State := commitBoth (NorCopy.setNum key v dflt) rcb s
def commitBlob (key : Nat) (bs : List Byte) (rcb : Bool) (s : State) : State := commitBoth (NorCopy.setBlob key bs) rcb s

/-- Objects of 17 Table 17.5, which Nutmeg keeps: they are committed under 17 R487 to R489, not here. -/
def nutHeld (key : Nat) : Bool :=
  let i := key / 256
  (decide (0x7000 ≤ i) && decide (i ≤ 0x73FF)) || i == 0x2801 || i == 0x2802 || i == 0x2807

/-- Whether a NOR object stands in the Rye configuration block: those of persistence NOR (RCB), and those of 10 Table 10.3
(10 R319). -/
def inRcb (key : Nat) (p : Persist) : Bool := p == .rcb || (p == .nor && decide (0x3000 ≤ key / 256) && decide (key / 256 < 0x3300))

/-- Store a number as the object's value and, for a NOR object, as its committed value. -/
def storeNum (o : Obj) (v : Nat) (s : State) : State :=
  match findEntry s o.key with
  | some e =>
    (match e.persist with
     | .nor | .rcb => if nutHeld o.key then setN s o v else setN (commitNum o.key v o.dflt (inRcb o.key e.persist) s) o v
     | _ => setN s o v)
  | none => setN s o v

def storeBlob (key : Nat) (bs : List Byte) (s : State) : State :=
  match findEntry s key with
  | some e =>
    (match e.persist with
     | .nor | .rcb => if nutHeld key then setBlob s key bs else setBlob (commitBlob key bs (inRcb key e.persist) s) key bs
     | _ => setBlob s key bs)
  | none => setBlob s key bs

end Sys2Proof.Machine
end

