-- ==== Sys2Proof/Machine/Flags.lean ====
section
/-! DEFINITION. The sticky arithmetic flags of the engine: INV, SAT, TRUNC and OVF as one word, and the rules that set
them (03 R95 to R98, R105, R106; 04 Table 4.3 gives the bits of SFLAGS, which ARITH_FLAGS shares: log 20). -/
namespace Sys2Proof.Machine

def flagInv : Nat := 1
def flagSat : Nat := 2
def flagTrunc : Nat := 4
def flagOvf : Nat := 8

def flagsOf (inv sat trunc ovf : Bool) : Nat :=
  (if inv then flagInv else 0) + (if sat then flagSat else 0) + (if trunc then flagTrunc else 0) +
    (if ovf then flagOvf else 0)

/-- The flags of a column (R98). -/
def Column.flags (c : Column) : Nat := flagsOf c.inv c.sat c.trunc false

/-- R106: INV when a NaN comes from inputs that are not NaN, OVF when an infinity comes from finite inputs. -/
def vecFlags (ins : List Nat) (out : Nat) : Nat :=
  flagsOf (Fmt.f32.isNan out && ins.all (fun x => !(Fmt.f32.isNan x))) false false
    (Fmt.f32.isInf out && ins.all Fmt.f32.isFinite)

end Sys2Proof.Machine
end

