-- ==== Sys2Proof/Machine/Arith.lean ====
section
/-! DEFINITION. The arithmetic of the engine to the bit: element formats and MX blocks (03 R90 to R93), the long
accumulator (R94 to R99), leaving a tile (R100, R101), and the vector unit with its transcendental operations
(R103 to R116). -/
namespace Sys2Proof.Machine

/-! ## Elements (R90, Table 3.7) -/

def Elem.bits : Elem → Nat
  | .int8 | .mxInt8 | .e4m3 | .e5m2 => 8
  | .e3m2 | .e2m3 => 6
  | .int4 | .e2m1 => 4
  | .bf16 => 16

/-- Exponent width, mantissa width and bias of the floating formats. -/
def Elem.fp : Elem → Nat × Nat × Int
  | .e4m3 => (4, 3, 7)
  | .e5m2 => (5, 2, 15)
  | .e3m2 => (3, 2, 3)
  | .e2m3 => (2, 3, 1)
  | .e2m1 => (2, 1, 1)
  | .bf16 => (8, 7, 127)
  | .int8 | .int4 | .mxInt8 => (0, 0, 0)

def Elem.isInt : Elem → Bool
  | .int8 | .int4 | .mxInt8 => true
  | _ => false

/-- The value of an element code. -/
def Elem.decode (f : Elem) (code : Nat) : FV :=
  if f.isInt then
    let w := f.bits
    let neg := decide (2 ^ (w - 1) ≤ code % 2 ^ w)
    let m := if neg then 2 ^ w - code % 2 ^ w else code % 2 ^ w
    .fin neg m (if f = .mxInt8 then -6 else 0)
  else
    let (ew, mw, bias) := f.fp
    let neg := code / 2 ^ (ew + mw) % 2 == 1
    let ex := code / 2 ^ mw % 2 ^ ew
    let ma := code % 2 ^ mw
    let top := 2 ^ ew - 1
    if f = .e4m3 && ex == top && ma == 7 then .nan
    else if (f = .e5m2 || f = .bf16) && ex == top then (if ma == 0 then .inf neg else .nan)
    else if ex == 0 then .fin neg ma (1 - bias - (mw : Int))
    else .fin neg (ma + 2 ^ mw) ((ex : Int) - bias - (mw : Int))

/-- An E8M0 scale (R91). -/
def scaleOf (code : Nat) : FV := if code = 255 then .nan else .fin false 1 ((code : Int) - 127)

/-- Whether two operand formats belong to one row of Table 3.9 (R93). -/
def pairOk (a b : Elem) : Bool :=
  let low (f : Elem) : Bool := f = .int4 || f = .e2m1
  (a = .bf16 && b = .bf16) || (a ≠ .bf16 && b ≠ .bf16 && (low a || low b || (!(low a) && !(low b))))

/-! ## The long accumulator (R94 to R99) -/

/-- One product enters a column (R95). -/
def Column.addProduct (c : Column) (p : FV) : Column :=
  match p with
  | .nan | .inf _ => { c with inv := true }
  | .fin neg m e =>
    let big := decide (2 ^ 63 * 2 ^ (-e).toNat ≤ m * 2 ^ e.toNat)
    if big then { c with sum := c.sum + signedOf neg (2 ^ 127), sat := true }
    else
      let q := e + 64
      if 0 ≤ q then { c with sum := c.sum + signedOf neg (m * 2 ^ q.toNat) }
      else
        let k := (-q).toNat
        { c with sum := c.sum + signedOf neg (m / 2 ^ k), trunc := c.trunc || m % 2 ^ k != 0 }

/-- The product (a × s_a) × (b × s_b), with any NaN or infinity among the four making it invalid (R95). -/
def productOf (a sa b sb : FV) : FV :=
  if a.isNan || sa.isNan || b.isNan || sb.isNan || a.isInf || b.isInf then .nan
  else (a.mul sa).mul (b.mul sb)

/-- R97: the clamp at read-out. -/
def Column.clamped (c : Column) : Column :=
  if 2 ^ 127 - 1 < c.sum then { c with sum := 2 ^ 127 - 1, sat := true }
  else if c.sum < -(2 ^ 127) then { c with sum := -(2 ^ 127), sat := true }
  else c

/-- READ_OUT and R100: the rounded value in a format, and the flags. -/
def Column.readOut (c : Column) (f : Fmt) : Nat × Nat :=
  let c' := c.clamped
  (if c'.inv then f.qnan else f.round (decide (c'.sum < 0)) c'.sum.natAbs (-64), c'.flags)

/-! ## MX output (R101) -/

def Elem.emax : Elem → Int
  | .e4m3 => 8
  | .e5m2 => 15
  | .e3m2 => 4
  | .e2m3 => 2
  | .e2m1 => 2
  | _ => 0

/-- The largest finite code of a format's magnitude. -/
def Elem.maxCode : Elem → Nat
  | .e4m3 => 0x7E
  | .e5m2 => 0x7B
  | .e3m2 => 0x1F
  | .e2m3 => 0x1F
  | .e2m1 => 7
  | _ => 127

/-- Round a dyadic to an element, to nearest even, clamped to the largest; a zero result is +0 (R101). -/
def Elem.encode (f : Elem) (v : FV) : Nat :=
  match v with
  | .fin neg m e =>
    if f.isInt then
      let q := e + (if f = .mxInt8 then 6 else 0)
      let i := min (if 0 ≤ q then m * 2 ^ q.toNat else rneShift m (-q).toNat) 127
      if i = 0 then 0 else if neg then 2 ^ f.bits - i else i
    else
      let (ew, mw, bias) := f.fp
      let qmin : Int := 1 - bias - (mw : Int)
      if m = 0 then 0
      else
        let q := max ((Nat.log2 m : Int) + e - (mw : Int)) qmin
        let m' := if q ≤ e then m * 2 ^ (e - q).toNat else rneShift m (q - e).toNat
        let body := if m' < 2 ^ mw then m' else ((q - qmin).toNat + 1) * 2 ^ mw + (m' - 2 ^ mw)
        let code := min body f.maxCode
        if code = 0 then 0 else if neg then code + 2 ^ (ew + mw) else code
  | _ => 0

/-- floor(log2 |x|) of a finite non-zero FP32 normal, from its exponent field. -/
def expField (x : Nat) : Int := (x / 2 ^ 23 % 256 : Nat) - (127 : Int)

/-- MX_OUT: the scale byte and the elements of 32 FP32 results. -/
def mxOut (f : Elem) (vs : List Nat) : Nat × List Nat :=
  if vs.any Fmt.f32.isNan then (0xFF, vs.map (fun _ => 0))
  else
    let big := vs.foldl (fun a v => if Fmt.f32.lt a (Fmt.f32.abs v) then Fmt.f32.abs v else a) 0
    if big = 0 then (127, vs.map (fun _ => 0))
    else
      let x := expField big - f.emax
      ((x + 127).toNat, vs.map (fun v => f.encode ((Fmt.f32.decode v).mul (.fin false 1 (-x)))))

/-! ## FP32 steps (R103, R104, R108) -/

def fAdd (a b : Nat) : Nat := Fmt.f32.add a b
def fSub (a b : Nat) : Nat := Fmt.f32.sub a b
def fMul (a b : Nat) : Nat := Fmt.f32.mul a b
def fFma (a b c : Nat) : Nat := Fmt.f32.fma a b c
def fNeg (a : Nat) : Nat := Fmt.f32.neg a
def fAbs (a : Nat) : Nat := Fmt.f32.abs a
def fLt (a b : Nat) : Bool := Fmt.f32.lt a b
def fLe (a b : Nat) : Bool := Fmt.f32.le a b
def fInt (n : Int) : Nat := Fmt.f32.ofInt n
def pow2 (n : Int) : Nat := ((n + 127).toNat) * 2 ^ 23
def fOne : Nat := 0x3F800000
def fInf : Nat := 0x7F800000
def fNegInf : Nat := 0xFF800000
def fNan : Nat := 0x7FC00000
def fSignBit : Nat := 0x80000000
def fIsNeg (x : Nat) : Bool := decide (fSignBit ≤ x)
def fWithSign (y x : Nat) : Nat := if fIsNeg x then fAbs y + fSignBit else fAbs y
def fIsZero (x : Nat) : Bool := fAbs x == 0

/-- Repeat a step a fixed number of times. -/
def iter {α : Type} (f : α → α) : Nat → α → α
  | 0, x => x
  | n + 1, x => iter f n (f x)

/-- EXP (R110). -/
def vExp (x : Nat) : Nat :=
  if Fmt.f32.isNan x then fNan
  else if fLe 0x42B20000 x then fInf
  else if fLe x 0xC2D00000 then 0
  else
    let k := (Fmt.f32.decode (fMul x 0x3FB8AA3B)).rint
    let nk := fInt (-k)
    let r1 := fFma nk 0x3F317200 x
    let r := fFma nk 0x35BFBE8E r1
    let s := fMul r r
    let q1 := fFma 0x3AB60B61 r 0x3C088889
    let q2 := fFma q1 r 0x3D2AAAAB
    let q3 := fFma q2 r 0x3E2AAAAB
    let q4 := fFma q3 r 0x3F000000
    let y := fAdd (fFma q4 s r) fOne
    if 127 < k then fMul (fMul y (pow2 127)) (pow2 (k - 127))
    else if -126 ≤ k then fMul y (pow2 k)
    else fMul (fMul y (pow2 (k + 126))) (pow2 (-126))

/-- RECIP (R111). -/
def vRecip (x : Nat) : Nat :=
  if Fmt.f32.isNan x then fNan
  else if fIsZero x then fWithSign fInf x
  else if Fmt.f32.isInf x then fWithSign 0 x
  else
    let a0 := fAbs x
    let small := fLt a0 (pow2 (-125))
    let large := fLe (pow2 125) a0
    let a := if small then fMul a0 (pow2 24) else if large then fMul a0 (pow2 (-24)) else a0
    let y0 := 0x7EF311C3 - a
    let y := iter (fun y => fFma y (fFma (fNeg a) y fOne) y) 4 y0
    fWithSign (if small then fMul y (pow2 24) else if large then fMul y (pow2 (-24)) else y) x

/-- RSQRT (R112). -/
def vRsqrt (x : Nat) : Nat :=
  if Fmt.f32.isNan x || (fIsNeg x && !(fIsZero x)) then fNan
  else if x = 0 then fInf
  else if x = fSignBit then fNegInf
  else if x = fInf then 0
  else
    let small := fLt x (pow2 (-125))
    let large := fLe (pow2 125) x
    let a := if small then fMul x (pow2 24) else if large then fMul x (pow2 (-24)) else x
    let c : Int := if small then 12 else if large then -12 else 0
    let h := fMul a 0x3F000000
    let y0 := 0x5F3759DF - a / 2
    let y := iter (fun y => fMul y (fFma (fNeg h) (fMul y y) 0x3FC00000)) 3 y0
    fMul y (pow2 c)

/-- LOG (R113). -/
def vLog (x0 : Nat) : Nat :=
  if Fmt.f32.isNan x0 || (fIsNeg x0 && !(fIsZero x0)) then fNan
  else if fIsZero x0 then fNegInf
  else if x0 = fInf then fInf
  else
    let sub := fLt x0 (pow2 (-126))
    let x := if sub then fMul x0 (pow2 23) else x0
    let e0 := expField x + (if sub then -23 else 0)
    let m0 := x % 2 ^ 23 + 127 * 2 ^ 23
    let up := fLt 0x3FB504F3 m0
    let m := if up then fMul m0 0x3F000000 else m0
    let e := fInt (if up then e0 + 1 else e0)
    let f := fSub m fOne
    let u := fMul f (vRecip (fAdd f 0x40000000))
    let w := fMul u u
    let q1 := fFma 0x3E638E39 w 0x3E924925
    let q2 := fFma q1 w 0x3ECCCCCD
    let q := fFma q2 w 0x3F2AAAAB
    let t := fMul w u
    let z1 := fFma q t (fAdd u u)
    let z := fFma e 0x35BFBE8E z1
    fFma e 0x3F317200 z

/-- TANH (R114). -/
def vTanh (x : Nat) : Nat :=
  if Fmt.f32.isNan x then fNan
  else
    let a := fAbs x
    if fLt a (pow2 (-12)) then x
    else if fLe 0x41100000 a then fWithSign fOne x
    else if fLt a 0x3E800000 then
      let w := fMul a a
      let q1 := fFma 0xBC11371B w 0x3CB327A4
      let q2 := fFma q1 w 0xBD5D0DD1
      let q3 := fFma q2 w 0x3E088889
      let q := fFma q3 w 0xBEAAAAAB
      fWithSign (fFma q (fMul w a) a) x
    else
      let t := vExp (fMul a 0xC0000000)
      fWithSign (fMul (fSub fOne t) (vRecip (fAdd fOne t))) x

/-- SIGMOID (R115). -/
def vSigmoid (x : Nat) : Nat :=
  if Fmt.f32.isNan x then fNan
  else if fLe 0 x then vRecip (fAdd fOne (vExp (fNeg x)))
  else
    let t := vExp x
    fMul t (vRecip (fAdd fOne t))

/-- VMAXR over unmasked lanes (R116): NaN wins, +0 over −0; masked lanes count as −Inf. -/
def vMaxRow (vs : List (Nat × Bool)) : Nat :=
  if vs.any (fun (v, masked) => !masked && Fmt.f32.isNan v) then fNan
  else
    vs.foldl (fun a (v, masked) =>
      let x := if masked then fNegInf else v
      if fLt a x then x else if fIsZero a && fIsZero x && fIsNeg a then x else a) fNegInf

/-- One level of the tree adds adjacent pairs (R116). -/
def pairUp : List Nat → List Nat
  | a :: b :: t => fAdd a b :: pairUp t
  | l => l

/-- The sum of one 64-element chunk by the fixed tree. -/
def chunkSum (vs : List Nat) : Nat := (iter pairUp 6 vs).headD 0

/-- VSUMR (R116): chunk sums added in ascending chunk order. -/
def vSumRow (chunks : List (List Nat)) : Nat :=
  match chunks.map chunkSum with
  | [] => 0
  | c :: t => t.foldl fAdd c

/-- int32 results wrap modulo 2^32 (R105). -/
def wrap32 (i : Int) : Nat := (i % (2 ^ 32 : Int)).toNat
def sgn32 (v : Nat) : Int := if 2 ^ 31 ≤ v then (v : Int) - 2 ^ 32 else v

/-- FP32 to int32, to nearest even and clamped; a NaN gives 0 (R105). -/
def toInt32 (x : Nat) : Nat :=
  match Fmt.f32.decode x with
  | .nan => 0
  | .inf neg => if neg then 0x80000000 else 0x7FFFFFFF
  | v => wrap32 (max (-(2 ^ 31)) (min (2 ^ 31 - 1) v.rint))

/-- One lane of a vector operation: its result and its flags (R104 to R107, R116). -/
def vecLane (op : VecOp) (a b c : Nat) : Nat × Nat :=
  match op with
  | .add => (fAdd a b, vecFlags [a, b] (fAdd a b))
  | .sub => (fSub a b, vecFlags [a, b] (fSub a b))
  | .mul => (fMul a b, vecFlags [a, b] (fMul a b))
  | .fma => (fFma a b c, vecFlags [a, b, c] (fFma a b c))
  | .iadd => (wrap32 (sgn32 a + sgn32 b), 0)
  | .isub => (wrap32 (sgn32 a - sgn32 b), 0)
  | .imul => (wrap32 (sgn32 a * sgn32 b), 0)
  | .toInt => (toInt32 a, if Fmt.f32.isNan a then flagInv else 0)
  | .exp => (vExp a, vecFlags [a] (vExp a))
  | .recip => (vRecip a, vecFlags [a] (vRecip a))
  | .rsqrt => (vRsqrt a, vecFlags [a] (vRsqrt a))
  | .log => (vLog a, vecFlags [a] (vLog a))
  | .tanh => (vTanh a, vecFlags [a] (vTanh a))
  | .sigmoid => (vSigmoid a, vecFlags [a] (vSigmoid a))
  | .expSub => (vExp (fSub a b), vecFlags [a, b] (vExp (fSub a b)))
  | .norm => (fMul a (vRecip b), vecFlags [a, b] (fMul a (vRecip b)))

/-- Integer operations take their operands as they stand; BF16 operands are widened exactly (R104). -/
def VecOp.isInt : VecOp → Bool
  | .iadd | .isub | .imul => true
  | _ => false

/-- A register lane as an FP32 value: a BF16 operand is its low half, widened exactly (R104). -/
def widen (bf16 : Bool) (x : Nat) : Nat := if bf16 then x % 2 ^ 16 * 2 ^ 16 else x

/-- An FP32 result as it stands in a lane: rounded once where a BF16 result is asked for (R104). -/
def narrow (bf16 : Bool) (x : Nat) : Nat := if bf16 then Fmt.f32.conv Fmt.bf16 x else x

/-- Whether OVF is set by the rounding to BF16 of a finite FP32 result (R106). -/
def narrowFlags (bf16 : Bool) (x : Nat) : Nat :=
  if bf16 && Fmt.f32.isFinite x && Fmt.bf16.isInf (narrow true x) then flagOvf else 0

/-- One lane of a vector operation on operands of the formats given (R104 to R107). Integer operations and results take no
format. -/
def vecLaneFmt (op : VecOp) (fa fb fc fd : Bool) (a b c : Nat) : Nat × Nat :=
  if op.isInt then vecLane op a b c
  else
    let (r, fl) := vecLane op (widen fa a) (widen fb b) (widen fc c)
    if op = .toInt then (r, fl) else (narrow fd r, fl ||| narrowFlags fd r)

end Sys2Proof.Machine
end

