-- ==== Sys2Proof/Machine/Operands.lean ====
section
/-! DEFINITION. Operand forms: how a scheduled operation names compute-bank words, MX blocks, scales, vector lanes and
columns (03 R78, R91, R92), with the poison mark of each (R79, R80). -/
namespace Sys2Proof.Machine

open Sys2Proof

/-- The compute bank of a pair (R78, Table 3.6): bank 2p + 1 when OWNER bit p is set, else bank 2p. -/
def computeBank (t : Tile) (pair : Nat) : Nat := 2 * pair + (if bitSet t.owner pair then 1 else 0)
def stagingBank (t : Tile) (pair : Nat) : Nat := 2 * pair + (if bitSet t.owner pair then 0 else 1)

def sramKey (bank word : Nat) : Nat := bank * 4096 + word

/-- A compute-bank word; SRAM that nothing has written reads 0 (log 4). -/
def rdWord (t : Tile) (pair word : Nat) : Nat := lookD t.sram (sramKey (computeBank t pair) word) 0
def wordBad (t : Tile) (pair word : Nat) : Bool := t.poison.contains (sramKey (computeBank t pair) word)

def addMark (l : List Nat) (k : Nat) (b : Bool) : List Nat :=
  if b then (if l.contains k then l else l ++ [k]) else l.filter (· ≠ k)

/-- A full-word write clears the poison of its address, or carries the mark of what is written (R80). -/
def wrBank (t : Tile) (bank word v : Nat) (bad : Bool) : Tile :=
  { t with sram := putD t.sram (sramKey bank word) (v % 2 ^ 256) 0
           poison := addMark t.poison (sramKey bank word) bad }
def wrWord (t : Tile) (pair word v : Nat) (bad : Bool) : Tile := wrBank t (computeBank t pair) word v bad

/-- Lane l of a vector register. -/
def rdLane (t : Tile) (reg lane : Nat) : Nat := lookD t.vreg (reg * 64 + lane) 0
def laneBad (t : Tile) (reg lane : Nat) : Bool := t.vbad.contains (reg * 64 + lane)
def wrLane (t : Tile) (reg lane v : Nat) (bad : Bool) : Tile :=
  { t with vreg := putD t.vreg (reg * 64 + lane) (v % 2 ^ 32) 0, vbad := addMark t.vbad (reg * 64 + lane) bad }

def colKey (set col : Nat) : Nat := set * 64 + col
def rdCol (t : Tile) (set col : Nat) : Column := lookD t.acc (colKey set col) Column.zero
def wrCol (t : Tile) (set col : Nat) (c : Column) (bad : Bool) : Tile :=
  { t with acc := putD t.acc (colKey set col) c Column.zero, accBad := addMark t.accBad (colKey set col) bad }
def colBad (t : Tile) (set col : Nat) : Bool := t.accBad.contains (colKey set col)

/-- How many elements a block reference names: an MX block, or 8 BF16 elements (Table 3.9). -/
def blockLen (f : Elem) : Nat := if f = .bf16 then 8 else 32

/-- The words that hold block j of an array, and the bit at which element 0 starts (Table 3.8). -/
def blockWords (f : Elem) (j : Nat) : List Nat × Nat :=
  match f.bits with
  | 8 => ([j], 0)
  | 6 => ([3 * (j / 4), 3 * (j / 4) + 1, 3 * (j / 4) + 2], 192 * (j % 4))
  | _ => ([j / 2], 128 * (j % 2))

/-- Where an operand's array and scales stand: from the member's first pair on, and counted from the weights of a slot where
one is named. `slotAddr` is the compute-space address a lane's slot selector gives. -/
structure BlockAt where
  pair : Nat
  base : Nat
  block : Nat
  scale : Option (Nat × Nat)
  deriving DecidableEq, Repr

/-- The pair and word of a compute-space address (06 R185), the member's pairs from `pb` on. -/
def placeAddr (pb addr : Nat) : Nat × Nat := (pb + addr / 0x20000, addr % 0x20000 / 32)

def BlockRef.place (pb : Nat) (slotAddr : Nat → Nat) (r : BlockRef) : BlockAt :=
  let off : Nat × Nat := match r.slotOf with | some k => placeAddr pb (slotAddr k) | none => (pb, 0)
  ⟨off.1 + r.pair, off.2 + r.base, r.block, r.scale.map (fun p => (off.1 + p.1, off.2 + p.2))⟩

/-- The element codes of a block. -/
def blockElems (t : Tile) (f : Elem) (r : BlockAt) : List Nat :=
  let (ws, start) := blockWords f r.block
  let all := (ws.reverse.map (fun w => rdWord t r.pair (r.base + w))).foldl (fun a w => a * 2 ^ 256 + w) 0
  (List.range (blockLen f)).map (fun i => bits all (start + f.bits * i) f.bits)

/-- The pair and word that hold a block's scale byte: byte j mod 32 of word j / 32; plain formats have none (R91, R92). -/
def scaleWord (f : Elem) (r : BlockAt) : Option (Nat × Nat) :=
  if f = .int8 || f = .int4 || f = .bf16 then none else r.scale.map (fun p => (p.1, p.2 + r.block / 32))

/-- The scale code of a block; plain int8 and int4 count as code 127 (R91). -/
def blockScale (t : Tile) (f : Elem) (r : BlockAt) : Nat :=
  match scaleWord f r with
  | none => 127
  | some p => bits (rdWord t p.1 p.2) (8 * (r.block % 32)) 8

/-- The words that hold bits of a block: of the three words of an MXFP6 group, those its 192 bits stand in (Table 3.8). -/
def blockTouched (f : Elem) (j : Nat) : List Nat :=
  let (ws, start) := blockWords f j
  ((ws.zipIdx.filter (fun p => decide (start < 256 * (p.2 + 1)) && decide (256 * p.2 < start + f.bits * blockLen f))).map (·.1))

/-- The words an operand reads, as pair and word. -/
def blockReads (f : Elem) (r : BlockAt) : List (Nat × Nat) :=
  (blockTouched f r.block).map (fun w => (r.pair, r.base + w)) ++ (scaleWord f r).toList

def blockBad (t : Tile) (f : Elem) (r : BlockAt) : Bool := (blockReads f r).any (fun p => wordBad t p.1 p.2)

/-- Bits [at, at + w) of a word replaced. -/
def putBits (old at_ w v : Nat) : Nat := old - bits old at_ w * 2 ^ at_ + v % 2 ^ w * 2 ^ at_

/-- A part of a word is written: the mark of the rest stays. -/
def wrPart (t : Tile) (pair word at_ w v : Nat) (bad : Bool) : Tile :=
  wrWord t pair word (putBits (rdWord t pair word) at_ w v) (bad || (wordBad t pair word && !(at_ == 0 && w == 256)))

/-- Block j of an array of a format takes 32 elements, at its place among the words (Table 3.8). -/
def wrBlock (t : Tile) (f : Elem) (r : BlockAt) (els : List Nat) (bad : Bool) : Tile :=
  let (ws, start) := blockWords f r.block
  let size := f.bits * blockLen f
  let body := (els.foldr (fun x a => a * 2 ^ f.bits + x % 2 ^ f.bits) 0) * 2 ^ start
  (List.range ws.length).foldl (fun t i =>
    let lo := max start (256 * i)
    let hi := min (start + size) (256 * i + 256)
    if hi ≤ lo then t else wrPart t r.pair (r.base + ws.getD i 0) (lo - 256 * i) (hi - lo) (bits body lo (hi - lo)) bad) t

/-! ## Bytes in compute space (06 R185) -/

/-- The bytes of a compute-space range, and whether any of its words carries a mark. -/
def rdSpace (t : Tile) (pb addr len : Nat) : List Byte × Bool :=
  ((List.range len).map (fun i =>
      let p := placeAddr pb (addr + i)
      BitVec.ofNat 8 (bits (rdWord t p.1 p.2) (8 * ((addr + i) % 32)) 8)),
   (List.range ((addr % 32 + len + 31) / 32)).any (fun i =>
      let p := placeAddr pb (addr / 32 * 32 + 32 * i)
      wordBad t p.1 p.2))

/-- Bytes written from a compute-space address on. With `keep` the marks of the words stay as they are. -/
def wrSpace (t : Tile) (pb addr : Nat) (bs : List Byte) (bad keep : Bool) : Tile :=
  (List.range ((addr % 32 + bs.length + 31) / 32)).foldl (fun t i =>
    let p := placeAddr pb (addr / 32 * 32 + 32 * i)
    let lo := if i = 0 then addr % 32 else 0
    let first := if i = 0 then 0 else 32 * i - addr % 32
    let part := (bs.drop first).take (32 - lo)
    let old := wordBad t p.1 p.2
    let v := putBits (rdWord t p.1 p.2) (8 * lo) (8 * part.length) (ofLe part)
    wrWord t p.1 p.2 v (if keep then old else bad || (old && decide (part.length < 32)))) t

/-- Bytes written into the staging bank of the pair that a compute-space address names (R78). -/
def wrStaging (t : Tile) (pb addr : Nat) (bs : List Byte) (bad : Bool) : Tile :=
  { wrSpace { t with owner := t.owner.xor (2 ^ (pb + addr / 0x20000)) } pb addr bs bad false with owner := t.owner }

/-- One 256-bit word made of fields of equal width, element 0 lowest. -/
def packWord (w : Nat) (xs : List Nat) : Nat := xs.foldr (fun x a => a * 2 ^ w + x % 2 ^ w) 0

end Sys2Proof.Machine
end

