-- ==== Sys2Proof/Machine/Codec.lean ====
section
/-! DEFINITION. Byte layouts the part stores, compares or sends: CRC-64 (05 R180) and CRC-8 (07 Table 7.4), descriptors,
records, control records and checkpoint entries, and codebooks. -/
namespace Sys2Proof.Machine

open Sys2Proof

/-! ## CRCs -/

def crc64Bit (c : Nat) : Nat := if c % 2 = 1 then (c / 2).xor 0xC96C5795D7870F42 else c / 2

def crc64Byte (c : Nat) (b : Byte) : Nat := iter crc64Bit 8 (c.xor b.toNat)

/-- CRC-64 of R180: polynomial 0x42F0_E1EB_A9EA_3693 reflected, initial value and final XOR all ones. -/
def crc64 (bs : List Byte) : Nat := (bs.foldl crc64Byte u64).xor u64

def crc8Bit (c : Nat) : Nat := if 128 ≤ c then (2 * c % 256).xor 0x2F else 2 * c % 256

/-- CRC-8 of the ANT word: polynomial 0x2F, initial value 0xFF, not reflected, final XOR 0xFF. -/
def crc8 (bs : List Nat) : Nat := (bs.foldl (fun c b => iter crc8Bit 8 (c.xor b)) 0xFF).xor 0xFF

/-! ## Descriptors (04 Table 4.2) -/

def Desc.ctrl (d : Desc) : Nat :=
  d.cls + boolBit d.openBit 2 + boolBit d.replica 3 + boolBit d.delta 4 + boolBit d.notify 5

def Desc.bytes (d : Desc) : List Byte :=
  leBytes 1 d.ctrl ++ leBytes 1 d.kind ++ leBytes 2 d.source ++ leBytes 2 d.model ++ leBytes 2 d.codebook ++
  leBytes 4 d.scale ++ leBytes 4 d.offset ++ leBytes 4 d.iscale ++ leBytes 4 d.ioffset ++ leBytes 2 d.lane ++
  leBytes 1 d.holdF ++ leBytes 1 d.reduce ++ leBytes 4 d.limit ++ leBytes 8 d.switchAt ++ leBytes 2 d.consumer ++
  leBytes 2 0 ++ leBytes 4 d.tag ++ leBytes 4 d.inject ++ leBytes 12 0

/-- The field of w bytes at an offset. -/
def leAt (bs : List Byte) (off w : Nat) : Nat := ofLe ((bs.drop off).take w)

/-- A written descriptor as its fields, and whether its reserved bits and bytes are 0. -/
def descOfBytes (bs : List Byte) : Desc × Bool :=
  let c := leAt bs 0 1
  ({ cls := c % 4, openBit := bitSet c 2, replica := bitSet c 3, delta := bitSet c 4, notify := bitSet c 5,
     kind := leAt bs 1 1, source := leAt bs 2 2, model := leAt bs 4 2, codebook := leAt bs 6 2,
     scale := leAt bs 8 4, offset := leAt bs 12 4, iscale := leAt bs 16 4, ioffset := leAt bs 20 4,
     lane := leAt bs 24 2, holdF := leAt bs 26 1, reduce := leAt bs 27 1, limit := leAt bs 28 4,
     switchAt := leAt bs 32 8, consumer := leAt bs 40 2, tag := leAt bs 44 4, inject := leAt bs 48 4 },
   decide (c < 64) && leAt bs 42 2 == 0 && leAt bs 52 12 == 0)

/-! ## Records (04 Table 4.10) and status (Table 4.3) -/

def Record.bytes (r : Record) : List Byte :=
  ((List.range 12).map (fun i => leBytes 4 (r.values.getD i 0))).flatten ++ leBytes 4 r.anomaly ++
  leBytes 4 r.frameLo ++ leBytes 2 r.token ++ leBytes 2 r.model ++ leBytes 1 r.classcode ++ leBytes 1 r.flags ++
  leBytes 2 r.session

def SesState.code : SesState → Nat
  | .closed => 0 | .pending => 1 | .opened => 2 | .closing => 3

def authCode : Auth → Nat
  | .facility => 1 | .host => 2 | .service => 3 | .protection => 0

def Sess.statusBytes (x : Sess) : List Byte :=
  leBytes 1 x.st.code ++ leBytes 1 x.desc.cls ++ leBytes 2 x.modelActive ++
  leBytes 2 (match x.switch with | some w => w.model | none => 0xFFFF) ++ leBytes 2 x.lane ++ leBytes 1 x.ltile ++
  leBytes 1 x.k ++ leBytes 1 (match x.opener with | some a => authCode a | none => 0) ++ leBytes 1 x.sflags ++
  leBytes 4 x.lastError ++ leBytes 8 x.openedFrame ++ leBytes 8 x.lastFrame ++ leBytes 2 x.lastToken ++ leBytes 2 0 ++
  leBytes 4 x.gaps ++ leBytes 4 x.stales ++ leBytes 4 x.saturations ++ leBytes 4 x.invalids ++ leBytes 4 x.switches ++
  leBytes 4 x.mismatches ++ leBytes 4 0

/-! ## Codebooks (04 Table 4.8) -/

def codebookOf (bs : List Byte) : List Nat := (List.range (leAt bs 0 2)).map (fun i => leAt bs (8 + 4 * i) 4)

def Codebook.bytes (c : Codebook) : List Byte :=
  if c.edges = [] then [] else leBytes 2 c.edges.length ++ leBytes 6 0 ++ (c.edges.map (leBytes 4)).flatten

/-! ## Control records and checkpoint entries (05 Tables 5.3, 5.6) -/

def ctrlPayBytes : CtrlPay → List Byte
  | .none => leBytes 64 0
  | .desc d => d.bytes
  | .bytes bs => (bs ++ List.replicate 64 0).take 64

def Ctrl.bytes (c : Ctrl) : List Byte :=
  leBytes 1 c.kind ++ leBytes 1 c.flags ++ leBytes 2 c.session ++ leBytes 4 c.aux ++ leBytes 8 c.accepted ++ ctrlPayBytes c.payload

/-- Pad with 0 to a multiple of 8 bytes. -/
def pad8 (bs : List Byte) : List Byte := bs ++ List.replicate ((8 - bs.length % 8) % 8) 0

def CkptEnt.head (e : CkptEnt) : List Byte :=
  leBytes 2 e.session ++ leBytes 1 (boolBit e.carried 0 + boolBit e.init 1) ++ leBytes 1 0 ++ leBytes 4 e.state.length ++
  leBytes 8 e.stateFrame ++ e.desc.bytes ++ leBytes 4 (e.yref.getD 0) ++ leBytes 2 e.lastCode ++ leBytes 1 e.held ++
  leBytes 1 (boolBit e.yref.isSome 0) ++ (match e.lastRecord with | some r => r.bytes | none => leBytes 64 0) ++
  leBytes 2 e.modelActive ++ leBytes 1 e.k ++ leBytes 1 e.phase ++ leBytes 4 0

def CkptEnt.bytes (e : CkptEnt) : List Byte :=
  e.head ++ leBytes 8 (crc64 (e.head ++ e.state)) ++ pad8 e.state

def Ckpt.length (c : Ckpt) : Nat := (c.entries.map (fun e => 168 + (pad8 e.state).length)).sum

def Ckpt.crc (c : Ckpt) : Nat := crc64 ((c.entries.map CkptEnt.bytes).flatten)

/-! ## Event records (02 Table 2.9) -/

def EvRec.flags (r : EvRec) : Nat :=
  boolBit r.rye 0 + boolBit r.queued 1 + boolBit r.notLocked 2 + boolBit r.overflow 3 + boolBit r.coarse 4

def EvRec.bytes (r : EvRec) : List Byte :=
  leBytes 8 r.seq ++ leBytes 8 r.count ++ leBytes 4 r.epoch ++ leBytes 2 (evNum r.code) ++ leBytes 2 r.source ++
  leBytes 2 r.flags ++ leBytes 2 0 ++ leBytes 4 r.detail

/-! ## The input ledger (02 Tables 2.6, 2.7) -/

def LedgerEnt.bytes (e : LedgerEnt) : List Byte :=
  leBytes 2 e.source ++ leBytes 1 e.kind ++ leBytes 1 e.shift ++ leBytes 4 e.lateNs ++ leBytes 8 e.sample

def FrameLedger.flags (l : FrameLedger) : Nat :=
  boolBit l.skipped 0 + boolBit l.notLocked 1 + boolBit l.sliced 2 + boolBit l.uncorrectable 3

def FrameLedger.bytes (l : FrameLedger) : List Byte :=
  leBytes 8 l.frame ++ leBytes 8 l.start ++ leBytes 4 l.epoch ++ leBytes 2 l.entries.length ++
  leBytes 2 (min l.dropped 0xFFFF) ++ leBytes 2 l.flags ++ leBytes 2 (min l.gaps 0xFFFF) ++ leBytes 4 0 ++
  (l.entries.map LedgerEnt.bytes).flatten

/-! ## Ring blocks (05 R169, R171) -/

def RingBlock.bytes (b : RingBlock) : List Byte :=
  let toks := if b.ledger.skipped then [] else ((List.range 10240).map (fun n => leBytes 2 (lookD b.tokens n 0))).flatten
  let ys := (b.yrefs.map (fun p => leBytes 4 p.2)).flatten
  let len := 64 + toks.length + ys.length + 16 * b.ledger.entries.length + 80 * b.controls.length
  leBytes 8 b.ledger.frame ++ leBytes 8 b.ledger.start ++ leBytes 4 b.ledger.epoch ++ leBytes 4 len ++
  leBytes 2 b.ledger.flags ++ leBytes 2 b.controls.length ++ leBytes 2 b.ledger.entries.length ++
  leBytes 2 (min b.ledger.dropped 0xFFFF) ++ leBytes 8 b.recordCrc ++ leBytes 8 b.ckptCrc ++ leBytes 2 b.yrefs.length ++
  leBytes 2 (min b.ledger.gaps 0xFFFF) ++ leBytes 12 0 ++ toks ++ ys ++
  (b.ledger.entries.map LedgerEnt.bytes).flatten ++ (b.controls.map Ctrl.bytes).flatten

def DecBlock.bytes (b : DecBlock) : List Byte :=
  let toks := if bitSet b.flags 0 then [] else (b.sel.map (fun n => leBytes 2 (lookD b.tokens n 0))).flatten
  let ys := (b.yrefs.map (fun p => leBytes 4 p.2)).flatten
  let len := 24 + toks.length + ys.length + 80 * b.controls.length
  leBytes 8 b.frame ++ leBytes 8 b.recordCrc ++ leBytes 4 len ++ leBytes 2 b.controls.length ++ leBytes 2 b.flags ++
  toks ++ ys ++ (b.controls.map Ctrl.bytes).flatten

end Sys2Proof.Machine
end

