-- ==== Sys2Proof/Machine/Curve.lean ====
section
/-! DEFINITION. The I–t curve of a branch: its layout and checks (08 R259, Tables 8.6 and 8.7), its currents as Anise takes
them (07 R231), and the effective points under the tighten-only rule (07 R232). -/
namespace Sys2Proof.Machine

open Sys2Proof

/-- One point: current in mA, time in µs. -/
structure CurvePt where
  ma : Nat
  us : Nat
  deriving DecidableEq, Repr

def defaultTimes : List Nat := [100000000, 10000000, 1000000, 100000, 10000]
def defaultMas (b : Nat) : List Nat :=
  if b = 0 then [528000, 600000, 720000, 840000, 900000]
  else if b ≤ 8 then [88000, 100000, 120000, 140000, 150000]
  else [22000, 25000, 30000, 35000, 37500]

/-- Table 8.7. -/
def defaultCurve (b : Nat) : List CurvePt := List.zipWith CurvePt.mk (defaultMas b) defaultTimes

def curvePt (bs : List Byte) (k : Nat) : CurvePt := ⟨leAt bs (8 + 8 * k) 4, leAt bs (12 + 8 * k) 4⟩

def curveOf (bs : List Byte) : List CurvePt := (List.range (leAt bs 0 1)).map (curvePt bs)

/-- The bytes of Table 8.6. -/
def curveBytes (ps : List CurvePt) : List Byte :=
  leBytes 1 ps.length ++ List.replicate 7 0 ++
    ((List.range 8).map (fun k => match ps[k]? with
      | some p => leBytes 4 p.ma ++ leBytes 4 p.us
      | none => List.replicate 8 0)).flatten

def risingNats : List Nat → Bool
  | a :: b :: t => decide (a < b) && risingNats (b :: t)
  | _ => true

/-- R259: 2 to 8 points, currents strictly risingNats from 1,000 mA to 2,000,000 mA, times strictly falling from
100,000,000 µs to 10 µs, unused points and reserved bytes 0. -/
def curveOk (bs : List Byte) : Bool :=
  let n := leAt bs 0 1
  let ps := curveOf bs
  bs.length == 72 && decide (2 ≤ n) && decide (n ≤ 8) && ofLe ((bs.drop 1).take 7) == 0 &&
  risingNats (ps.map (·.ma)) && risingNats (ps.reverse.map (·.us)) &&
  ps.all (fun p => decide (1000 ≤ p.ma) && decide (p.ma ≤ 2000000) && decide (10 ≤ p.us) && decide (p.us ≤ 100000000)) &&
  ofLe (bs.drop (8 + 8 * n)) == 0

/-- The configured curve: BRANCH_CURVE, or its default where nothing was written. -/
def configuredCurve (s : State) (b : Fin 12) : List CurvePt :=
  let bs := getBlob s (Blob.branchCurve b.val)
  if bs = [] then defaultCurve b.val else curveOf bs

/-- A current in amperes, as FP32. -/
def CurvePt.amps (p : CurvePt) : Nat := f32OfRat ((p.ma : Rat) / 1000)

/-- An effective point: current in amperes, time in µs. -/
structure EffPt where
  i : Rat
  us : Rat
  deriving DecidableEq, Repr

/-- R232: min(I_k, max(I'_k, ADAPT_FLOOR × I_k)) for each point, where an adapted curve is in force; adaptation does not
apply in INRUSH (08 R254). -/
def effectiveCurve (s : State) (b : Fin 12) : List EffPt :=
  let floor := getF s Obj.adaptFloor
  let x := s.br.get b
  match x.adapted, x.st with
  | some cs, .on => (List.zip (configuredCurve s b) cs).map (fun p =>
      let i : Rat := (p.1.ma : Rat) / 1000
      ⟨min i (max (f32ToRat p.2) (floor * i)), p.1.us⟩)
  | _, _ => (configuredCurve s b).map (fun p => ⟨(p.ma : Rat) / 1000, p.us⟩)

end Sys2Proof.Machine
end

