-- ==== Sys2Proof/Machine/Meas.lean ====
section
/-! DEFINITION. The measurement log of Cardamom (16 R468, R469). -/
namespace Sys2Proof.Machine

open Sys2Proof

/-- A log entry as it is folded: 64 bytes (R469). -/
def Meas.bytes (m : Meas) : List Byte :=
  leBytes 4 m.seq ++ leBytes 2 m.kind ++ leBytes 2 0 ++ leBytes 8 m.count ++ leBytes 4 m.epoch ++ leBytes 4 0 ++ m.digest ++ leBytes 8 m.extra

/-- A field of n bytes: cut, or filled with zeros. -/
def fitBytes (n : Nat) (bs : List Byte) : List Byte := (bs ++ List.replicate n 0).take n

def Security.fold (l : List Byte) (m : Meas) : List Byte := Config.shake (l ++ m.bytes) 64

/-- Append an entry; the last 1,024 are kept, and LOG_BASE takes in the one that leaves (R469). -/
def Security.note (c : Security) (m : Meas) : Security :=
  let log := c.log ++ [m]
  match log with
  | x :: t =>
    if log.length ≤ 1024 then { c with log := log, logEntries := c.logEntries + 1, logL := Security.fold c.logL m }
    else { c with log := t, logEntries := c.logEntries + 1, logBase := Security.fold c.logBase x, logL := Security.fold c.logL m }
  | [] => c

/-- A measurement of Table 16.4. A 64-byte digest is entered as its first 32 bytes. -/
def logMeas (kind : Nat) (digest : List Byte) (extra : Nat) (s : State) : State :=
  { s with cardamom := s.cardamom.note ⟨s.cardamom.logEntries, kind, mainNow s, s.clk.epoch, fitBytes 32 digest, extra⟩ }

/-- The log of a new main-die start (R469). -/
def clearMeas (s : State) : State :=
  { s with cardamom := { s.cardamom with log := [], logEntries := 0, logBase := List.replicate 64 0, logL := List.replicate 64 0 } }

end Sys2Proof.Machine
end

