-- ==== Sys2Proof/Machine/Parse.lean ====
section
/-! DEFINITION. Reading an Anise program from its bytes (07 Tables 7.2, 7.3 and 7.6), and the fields of a FRU
record (17 R492). -/
namespace Sys2Proof.Machine

open Sys2Proof

/-- Entry i of a section of entries of `size` bytes. -/
def entAt (bs : List Byte) (off size i : Nat) : List Byte := (bs.drop (off + size * i)).take size

def section_ {α : Type} (f : List Byte → α) (bs : List Byte) (off size n : Nat) : List α :=
  (List.range n).map (fun i => f (entAt bs off size i))

def wOf (b : List Byte) : WEnt := ⟨leAt b 0 1, leAt b 1 1, leAt b 2 2, leAt b 4 4⟩

def nodeOf (b : List Byte) : NodeEnt × Bool :=
  (⟨leAt b 0 1 == 1, if leAt b 2 2 = 0xFFFF then none else some (leAt b 2 2), leAt b 4 2, leAt b 8 8⟩,
   decide (leAt b 0 1 ≤ 1) && leAt b 1 1 == 0 && leAt b 6 2 == 0)

def edgeOf (b : List Byte) : EdgeEnt × Bool := (⟨leAt b 0 2, leAt b 2 2, leAt b 8 8⟩, leAt b 4 4 == 0)
def heatOf (b : List Byte) : HeatEnt × Bool := (⟨leAt b 0 2, leAt b 2 2, leAt b 8 8⟩, leAt b 4 4 == 0)

def loopOf (b : List Byte) : LoopEnt × Bool :=
  (⟨leAt b 0 2, leAt b 2 2, leAt b 4 2, leAt b 8 4, leAt b 12 4, leAt b 16 4, leAt b 20 4⟩, leAt b 6 2 == 0 && leAt b 24 8 == 0)

def outOf (b : List Byte) : OutEnt × Bool := (⟨leAt b 0 1, leAt b 1 1, leAt b 2 1, leAt b 4 4⟩, leAt b 3 1 == 0)

def ruleOf (b : List Byte) : RuleEnt :=
  ⟨leAt b 0 2, leAt b 2 1, leAt b 3 1, leAt b 4 1, leAt b 5 1, leAt b 6 1, leAt b 7 1, leAt b 8 4, leAt b 12 4⟩

def f64s (bs : List Byte) (off n : Nat) : List Nat := (List.range n).map (fun i => leAt bs (off + 8 * i) 8)
def f64Rows (bs : List Byte) (off r c : Nat) : List (List Nat) := (List.range r).map (fun i => f64s bs (off + 8 * c * i) c)

/-- One problem, its length in bytes, and whether its reserved field is 0. -/
def problemOf (wc : Nat) (bs : List Byte) : Problem × Nat × Bool :=
  let n := leAt bs 0 1
  let m := leAt bs 2 2
  let oF := 32 + 8 * n
  let oM := oF + 8 * n * wc
  let oA := oM + 8 * n * n
  let oL := oA + 8 * m * n
  let oR := oL + 16 * m
  ({ n := n, nu := leAt bs 1 1, m := m, rho := leAt bs 8 8, sigma := leAt bs 16 8, alpha := leAt bs 24 8
     q0 := f64s bs 32 n, f := f64Rows bs oF n wc, minv := f64Rows bs oM n n, a := f64Rows bs oA m n
     l := f64s bs oL m, h := f64s bs (oL + 8 * m) m
     rowOut := (List.range m).map (fun i => if leAt bs (oR + i) 1 = 0xFF then none else some (leAt bs (oR + i) 1)) },
   oR + m, leAt bs 4 4 == 0)

def problemsOf (wc : Nat) : Nat → List Byte → List Problem × Nat × Bool
  | 0, _ => ([], 0, true)
  | k + 1, bs =>
    let p := problemOf wc bs
    let r := problemsOf wc k (bs.drop p.2.1)
    (p.1 :: r.1, p.2.1 + r.2.1, p.2.2 && r.2.2)

/-- The program that a value of ANISE_PROGRAM spells. `fieldsOk`: FORMAT, reserved fields, node types and the length. -/
def parseProgram (bs : List Byte) : Program :=
  let nW := leAt bs 4 2
  let nN := leAt bs 6 2
  let nE := leAt bs 8 4
  let nH := leAt bs 12 2
  let nL := leAt bs 14 1
  let nR := leAt bs 15 1
  let oN := 32 + 8 * nW
  let oE := oN + 16 * nN
  let oH := oE + 16 * nE
  let oP := oH + 16 * nH
  let ps := problemsOf nW (leAt bs 3 1) (bs.drop oP)
  let oL := oP + ps.2.1
  let oO := oL + 32 * nL
  let oR := oO + 8 * 24
  let nodes := section_ nodeOf bs oN 16 nN
  let edges := section_ edgeOf bs oE 16 nE
  let heats := section_ heatOf bs oH 16 nH
  let loops := section_ loopOf bs oL 32 nL
  let outs := section_ outOf bs oO 8 24
  { iters := leAt bs 2 1, w := section_ wOf bs 32 8 nW, nodes := nodes.map (·.1), edges := edges.map (·.1)
    heats := heats.map (·.1), problems := ps.1, loops := loops.map (·.1), outs := outs.map (·.1)
    rules := section_ ruleOf bs oR 16 nR
    fieldsOk := leAt bs 0 2 == 1 && leAt bs 16 8 == 0 && leAt bs 24 8 == 0 && bs.length == oR + 16 * nR && nodes.all (·.2) &&
      edges.all (·.2) && heats.all (·.2) && ps.2.2 && loops.all (·.2) && outs.all (·.2)
    digest := Config.shake bs 64 }

/-! ## FRU records (17 R492; the layout is that of the IPMI FRU definition R492 names, log 82) -/

def hexAscii (b : Byte) : List Byte :=
  let digit (d : Nat) : Byte := BitVec.ofNat 8 (if d < 10 then 48 + d else 55 + d)
  [digit (b.toNat / 16), digit (b.toNat % 16)]

/-- A field as the part stores it: 8-bit (3) and 6-bit packed (2) ASCII as ASCII, BCD plus (1) and binary (0) as hex digits. -/
def fruText (kind : Nat) (bs : List Byte) : List Byte :=
  if kind = 3 then bs
  else if kind = 2 then (List.range (bs.length * 8 / 6)).map (fun i => BitVec.ofNat 8 (0x20 + ofLe bs / 64 ^ i % 64))
  else (bs.map hexAscii).flatten

/-- The first field behind its type and length byte, and what follows it; nothing after the end of fields. -/
def fruField : List Byte → List Byte × List Byte
  | [] => ([], [])
  | t :: r => if t.toNat = 0xC1 then ([], []) else (fruText (t.toNat / 64) (r.take (t.toNat % 64)), r.drop (t.toNat % 64))

def zeroSum (bs : List Byte) : Bool := bs.foldl (· + ·) 0 == 0

/-- What a FRU record gives the part. -/
structure Fru where
  maker : List Byte
  product : List Byte
  serial : List Byte
  part : List Byte
  deriving DecidableEq, Repr

/-- The Board Info Area of a FRU record; none on a checksum failure or a missing area. -/
def parseFru (bs : List Byte) : Option Fru :=
  let off := 8 * leAt bs 3 1
  let area := (bs.drop off).take (8 * leAt bs (off + 1) 1)
  if bs.length < 8 || leAt bs 0 1 % 16 ≠ 1 || !(zeroSum (bs.take 8)) || off == 0 || area.length < 8 || area.length ≠ 8 * leAt bs (off + 1) 1 ||
      leAt area 0 1 % 16 ≠ 1 || !(zeroSum area) then none
  else
    let maker := fruField (area.drop 6)
    let product := fruField maker.2
    let serial := fruField product.2
    some ⟨maker.1, product.1, serial.1, (fruField serial.2).1⟩

end Sys2Proof.Machine
end

