-- ==== Sys2Proof/Machine/Format.lean ====
section
/-! DEFINITION. Reading model images (04 Tables 4.11, 4.12) and schedule images (06 Tables 6.2 to 6.8) from their bytes, the
signature block that ends them (16 R460), and what the load checks find in an image's bundles (03 R84, R93, R96). -/
namespace Sys2Proof.Machine

open Sys2Proof

def slice (bs : List Byte) (off len : Nat) : List Byte := (bs.drop off).take len

/-! ## The signature block (16 Tables 16.2, 16.11) -/

/-- SIGLEN. -/
def sigLen (bs : List Byte) (sigOff : Nat) : Nat := leAt bs (sigOff + 66) 2

/-- DIGEST and SIG, which a key verifies together. -/
def sigBody (bs : List Byte) (sigOff : Nat) : List Byte := slice bs sigOff 64 ++ slice bs (sigOff + 68) (sigLen bs sigOff)

/-- The digest is that of the bytes before SIG_OFF, and the fields of the block are in range. -/
def sigForm (bs : List Byte) (sigOff : Nat) : Bool :=
  slice bs sigOff 64 == Config.shake (bs.take sigOff) 64 && leAt bs (sigOff + 65) 1 == 0 && decide (1 ≤ sigLen bs sigOff) &&
  decide (sigLen bs sigOff ≤ 1280)

/-- SIGNER 1: the carried vendor key has the digest that Cardamom ROM holds, and the signature verifies under it. -/
def vendorSigned (rom bs : List Byte) (sigOff : Nat) : Bool :=
  let key := slice bs (sigOff + 68 + sigLen bs sigOff) 1793
  leAt bs (sigOff + 64) 1 == 1 && bs.length == sigOff + 68 + sigLen bs sigOff + 1793 && Config.shake key 32 == rom &&
  Config.verifies (Config.shake key 32) (sigBody bs sigOff)

/-- SIGNER 2: an owner key that holds a role verifies the signature. -/
def ownerSigned (s : State) (role : Nat) (bs : List Byte) (sigOff : Nat) : Bool :=
  leAt bs (sigOff + 64) 1 == 2 && bs.length == sigOff + 68 + sigLen bs sigOff &&
  s.cardamom.held.keys.any (fun p => bitSet p.2.roles role && Config.verifies p.2.digest (sigBody bs sigOff))

/-- Whether Cardamom accepts the signature block of a schedule or model image: the vendor image key while VENDOR_IMAGES_OK is 1,
or an owner key that holds role IMAGES. -/
def signedBy (s : State) (bs : List Byte) (sigOff : Nat) : Bool :=
  sigForm bs sigOff &&
  ((getN s Obj.vendorImagesOk == 1 && vendorSigned (lookD s.ident.consts Blob.vendorImgKeyDigest []) bs sigOff) || ownerSigned s 2 bs sigOff)

/-- Barley firmware carries SIGNER 1 under the vendor firmware key. -/
def firmwareSigned (s : State) (bs : List Byte) (sigOff : Nat) : Bool :=
  sigForm bs sigOff && vendorSigned (lookD s.ident.consts Blob.vendorFwKeyDigest []) bs sigOff

/-! ## Model images -/

def mapEntOf (b : List Byte) : MapEnt := ⟨leAt b 0 4, leAt b 4 4, leAt b 8 4⟩

/-- An adapter entry, and whether its fields and its map lie in range. -/
def adapterOf (bs b : List Byte) : Adapter × Bool :=
  let n := leAt b 6 2
  let off := leAt b 8 4
  (⟨leAt b 0 4, leAt b 4 1 == 1, section_ mapEntOf bs off 12 n⟩,
   decide (leAt b 4 1 ≤ 1) && leAt b 5 1 == 0 && leAt b 12 4 == 0 && decide (off + 12 * n ≤ leAt bs 48 4))

/-- The model that the bytes of MODEL_IMAGE spell. -/
def parseModel (bs : List Byte) : Model :=
  let weights := leAt bs 8 4
  let state := leAt bs 12 4
  let n := leAt bs 28 2
  let total := leAt bs 48 4
  let ads := section_ (adapterOf bs) bs (leAt bs 40 4) 16 n
  { format := leAt bs 0 2, contract := leAt bs 2 1, kind := leAt bs 3 1, shape := leAt bs 4 4, weightBytes := weights
    stateBytes := state, vocab := leAt bs 16 2, window := leAt bs 18 2, params := leAt bs 20 4, ops := leAt bs 24 4
    adapters := ads.map (·.1), init := slice bs (leAt bs 36 4) state, weights := slice bs (leAt bs 32 4) weights
    totalBytes := total, sigOff := leAt bs 44 4
    offsetsOk := bs.length == total && decide (64 ≤ total) && decide (leAt bs 32 4 + weights ≤ total) &&
      decide (leAt bs 36 4 + state ≤ total) && decide (leAt bs 40 4 + 16 * n ≤ total) && decide (leAt bs 44 4 ≤ total)
    reservedOk := leAt bs 30 2 == 0 && leAt bs 52 12 == 0 && ads.all (·.2)
    digest := slice bs (leAt bs 44 4) 64 }

/-! ## Schedule images -/

/-- An entry of the section table (Table 6.3). -/
structure Sect where
  type : Nat
  ltile : Nat
  offset : Nat
  length : Nat
  resOk : Bool
  deriving DecidableEq, Repr

def sectOf (b : List Byte) : Sect := ⟨leAt b 0 2, leAt b 2 1, leAt b 4 4, leAt b 8 4, leAt b 3 1 == 0 && leAt b 12 4 == 0⟩

/-- The contents of the section of a type, for a logical tile or 0xFF. -/
def sectBytes (bs : List Byte) (ss : List Sect) (type l : Nat) : List Byte :=
  match ss.find? (fun e => e.type == type && e.ltile == l) with
  | some e => slice bs e.offset e.length
  | none => []

/-- The words of SRAM_INIT that are not 0, by pair * 4096 + word. -/
def initWords (bs : List Byte) : Map Nat :=
  (List.range (bs.length / 32)).filterMap (fun i => let v := ofLe (slice bs (32 * i) 32); if v = 0 then none else some (i, v))

def ltileEntOf (bs : List Byte) (ss : List Sect) (l : Nat) (b : List Byte) : LTile × Bool :=
  ({ tier := leAt b 1 1, foldMax := leAt b 2 1, pairs := leAt b 3 1, ownerInit := leAt b 4 2, bundles := leAt b 6 2
     lanes := leAt b 8 2, sends := bitSet (leAt b 10 2) 0, stateBytes := leAt b 12 4
     init := initWords (sectBytes bs ss 5 l)
     code := section_ ofLe (sectBytes bs ss 4 l) 0 32 (leAt b 6 2) },
   leAt b 0 1 == l && decide (leAt b 10 2 ≤ 1) && (sectBytes bs ss 4 l).length == leAt b 6 2 * 32 &&
     (sectBytes bs ss 5 l).length == leAt b 3 1 * 131072)

def slotEntOf (b : List Byte) : SlotEnt × Bool :=
  (⟨leAt b 0 1, leAt b 1 1, leAt b 4 4, leAt b 8 4, leAt b 12 4⟩, leAt b 2 2 == 0)

def laneEntOf (k : Nat) (b : List Byte) : LaneEnt × Bool :=
  (⟨leAt b 2 1, leAt b 3 1, leAt b 4 4, if leAt b 8 2 = 0xFFFF then none else some (leAt b 8 2), leAt b 12 4⟩,
   leAt b 0 2 == k && leAt b 10 2 == 0)

def boardEntOf (b : List Byte) : BoardEnt × Bool :=
  (⟨leAt b 0 1, leAt b 2 2, leAt b 4 4, leAt b 8 4⟩, leAt b 1 1 == 0 && leAt b 12 4 == 0)

def ckptMapEntOf (l : Nat) (b : List Byte) : CkptMapEnt × Bool :=
  (⟨l, leAt b 0 2, leAt b 2 1, leAt b 4 4, leAt b 8 4⟩,
   decide (leAt b 2 1 < 12) && leAt b 3 1 == 0 && leAt b 12 4 == 0 && decide (leAt b 4 4 + leAt b 8 4 ≤ 131072))

/-- The entries of a section of 16-byte entries. -/
def entries16 {α : Type} (f : List Byte → α) (bs : List Byte) : List α := section_ f bs 0 16 (bs.length / 16)

/-- Types 1, 2, 3 and 6 stand once, types 4, 5 and 7 once for each logical tile, and nothing else (R185). -/
def sectsOk (nL total : Nat) (ss : List Sect) : Bool :=
  let n (t l : Nat) : Nat := (ss.filter (fun e => e.type == t && e.ltile == l)).length
  ss.length == 4 + 3 * nL && ([1, 2, 3, 6] : List Nat).all (fun t => n t 0xFF == 1) &&
  (List.range nL).all (fun l => n 4 l == 1 && n 5 l == 1 && n 7 l == 1) &&
  ss.all (fun e => e.resOk && decide (e.offset + e.length ≤ total) &&
    (if ([1, 2, 3, 6, 7] : List Nat).contains e.type then e.length % 16 == 0 else true))

/-- The image that the bytes of SCHED_IMAGE spell. -/
def parseImage (bs : List Byte) : Image :=
  let nL := leAt bs 4 1
  let n := leAt bs 12 2
  let total := leAt bs 24 4
  let nLanes := leAt bs 28 2
  let so := leAt bs 16 4
  let ss := section_ sectOf bs so 16 n
  let lt := sectBytes bs ss 1 0xFF
  let lm := sectBytes bs ss 3 0xFF
  let ltiles := (List.range nL).map (fun l => ltileEntOf bs ss l (entAt lt 0 16 l))
  let slots := entries16 slotEntOf (sectBytes bs ss 2 0xFF)
  let lanes := (List.range nLanes).map (fun k => laneEntOf k (entAt lm 0 16 k))
  let board := entries16 boardEntOf (sectBytes bs ss 6 0xFF)
  let ck := ((List.range nL).map (fun l => entries16 (ckptMapEntOf l) (sectBytes bs ss 7 l))).flatten
  let layout := ((ss.filter (fun e => ([1, 2, 3, 5, 6] : List Nat).contains e.type)).map (fun e => slice bs e.offset e.length)).flatten
  { format := leAt bs 0 2, contract := leAt bs 2 1, period := leAt bs 3 1, nL := nL, n0 := leAt bs 5 1
    lockstep := bitSet (leAt bs 6 2) 0, emitStart := leAt bs 8 4, sections := n, totalBytes := total
    opsTotal := leAt bs 32 8, opsP0 := leAt bs 40 8, stateTotal := leAt bs 48 8, boardBytes := leAt bs 56 4, p0Lanes := leAt bs 30 2
    layoutDigest := slice bs 64 32, layoutOk := (Config.shake layout 64).take 32 == slice bs 64 32
    fieldsOk := bs.length == total && decide (leAt bs 6 2 ≤ 1) && leAt bs 14 2 == 0 && leAt bs 60 4 == 0 && leAt bs 104 24 == 0 &&
      decide (so + 16 * n ≤ total) && decide (leAt bs 20 4 ≤ total) && sectsOk nL total ss && lt.length == 16 * nL &&
      lm.length == 16 * nLanes && ltiles.all (·.2) && slots.all (·.2) && lanes.all (·.2) && board.all (·.2) && ck.all (·.2)
    sigOff := leAt bs 20 4, digest := slice bs (leAt bs 20 4) 64
    ltiles := ltiles.map (·.1), slots := slots.map (·.1), lanes := lanes.map (·.1), board := board.map (·.1)
    ckptMap := ck.map (·.1) }

/-! ## Bundles in sequence (03 R81) -/

def Seqr.first : Seqr := ⟨0, [], none, false⟩

/-- The next bundle after the one at `pc`: a counted loop takes the bundles after it and comes back at its end, four deep at
most. -/
def Seqr.advance (q : Seqr) (ctl : List CtlOp) : Seqr :=
  let deeper (q : Seqr) : Seqr :=
    match ctl.findSome? (fun o => match o with | .loop n => some n | _ => none) with
    | some n => if q.loops.length < 4 then { q with loops := (q.pc, n) :: q.loops } else q
    | none => q
  if ctl.contains .endLoop then
    match q.loops with
    | (start, left) :: rest =>
      if 1 < left then { q with pc := start, loops := (start, left - 1) :: rest, rep := none }
      else deeper { q with pc := q.pc + 1, loops := rest, rep := none }
    | [] => deeper { q with pc := q.pc + 1, rep := none }
  else deeper { q with pc := q.pc + 1, rep := none }

/-- Where the sequencer stands after a bundle: END stops it, REPEAT keeps it there. -/
def Seqr.after (q : Seqr) (ctl : List CtlOp) : Seqr :=
  if ctl.contains .end_ then { q with ended := true }
  else
    match q.rep, ctl.findSome? (fun o => match o with | .repeat_ n => some n | _ => none) with
    | some (k + 1), _ => { q with rep := some k }
    | none, some (k + 1) => { q with rep := some k }
    | _, _ => q.advance ctl

/-- The bundles a logical tile executes, with their cycles, up to a limit. -/
def traceFrom (code : List Nat) : Nat → Nat → Seqr → List (Nat × Bundle)
  | 0, _, _ => []
  | k + 1, c, q =>
    if q.ended || decide (code.length ≤ q.pc) then []
    else
      let b := Config.decodeBundle (code.getD q.pc 0)
      (c, b) :: traceFrom code k (c + 1) (q.after b.ctl)

def traceOf (limit : Nat) (t : LTile) : List (Nat × Bundle) := traceFrom t.code limit 0 Seqr.first

/-- The cycle of END, if the tile reaches it within the limit. -/
def endOf (tr : List (Nat × Bundle)) : Option Nat :=
  (tr.find? (fun p => p.2.ctl.contains .end_)).map (·.1)

/-- Cycles from a beat's send to its arrival: 40 in a domain, 96 across the bridge (R82, R83). -/
def beatCycles (cross : Bool) : Nat := if cross then 96 else 40

/-- The beats a trace sends: cycle, destination and channel. -/
def beatsOf (tr : List (Nat × Bundle)) : List (Nat × Nat × Nat) :=
  (tr.map (fun p => (p.2.ops.map (fun o => match o with
    | .send _ _ n dst ch => (List.range n).map (fun i => (p.1 + i, dst, ch))
    | _ => [])).flatten)).flatten

def Bundle.receives (b : Bundle) : Bool :=
  b.ops.any (fun o => match o with | .recvWords _ _ | .recvLanes _ _ => true | _ => false)

def distinct (l : List Nat) : Bool :=
  let m := l.mergeSort
  (m.zip (m.drop 1)).all (fun p => p.1 != p.2)

/-- No conflict of R84: one beat at a receive port in a cycle, each with a RECEIVE slot, and one send on a bridge channel and
direction in a cycle. -/
def noConflict (n0 : Nat) (trs : List (List (Nat × Bundle))) : Bool :=
  let sent := (trs.zipIdx.map (fun p => (beatsOf p.1).map (fun b => (p.2, b)))).flatten
  let cross (l dst : Nat) : Bool := decide (l < n0) != decide (dst < n0)
  let arrive := sent.map (fun p => (p.2.2.1, p.2.1 + beatCycles (cross p.1 p.2.2.1)))
  let bridge := (sent.filter (fun p => cross p.1 p.2.2.1)).map (fun p => (p.2.1 * 4 + p.2.2.2 % 4) * 2 + (if p.1 < n0 then 0 else 1))
  distinct (arrive.map (fun a => a.2 * 64 + a.1 % 64)) && distinct bridge &&
  arrive.all (fun a => (trs.getD a.1 []).any (fun p => p.1 == a.2 && p.2.receives))

/-- Products of a column since its clear, and whether the limit of R96 was passed. -/
def productStep (acc : Map Nat × Bool) (o : TileOp) : Map Nat × Bool :=
  match o with
  | .clear set col => (put acc.1 (colKey set col) 0, acc.2)
  | .init set col _ => (put acc.1 (colKey set col) 1, acc.2)
  | .initLane set col _ _ => (put acc.1 (colKey set col) 1, acc.2)
  | .mac set col fa _ _ _ =>
    let n := lookD acc.1 (colKey set col) 0 + blockLen fa
    (put acc.1 (colKey set col) n, acc.2 || decide (2 ^ 31 < n))
  | .readOut set col _ _ _ _ => (put acc.1 (colKey set col) 0, acc.2)
  | .mxOut set half _ _ _ => ((List.range 32).foldl (fun m i => put m (colKey set (32 * half + i)) 0) acc.1, acc.2)
  | _ => acc

/-- 0x0004_0606: a conflict of R84, an operand pair outside R93, or more products than R96 allows. -/
def scheduleOk (n0 : Nat) (trs : List (List (Nat × Bundle))) : Bool :=
  noConflict n0 trs &&
  trs.all (fun tr =>
    let ops := (tr.map (fun p => p.2.ops)).flatten
    ops.all (fun o => match o with | .mac _ _ fa fb _ _ => pairOk fa fb | _ => true) &&
    !((ops.foldl productStep ([], false)).2))

end Sys2Proof.Machine
end

