-- ==== Sys2Proof/Machine/Sync.lean ====
section
/-! DEFINITION. Sync cells and wait slots (14 R424 to R427), and the delivery of interrupts to Barley (15 R434). -/
namespace Sys2Proof.Machine

open Sys2Proof

def syncSrc : Nat := 0x5200

/-! ## Interrupts (15 R434) -/

def updCluster (c : Fin 2) (f : Cluster → Cluster) (s : State) : State :=
  { s with bar := { s.bar with clusters := vupd s.bar.clusters c f } }

def clusterOf (core : Nat) : Fin 2 := if core / 4 % 2 = 0 then 0 else 1

/-- The core a source reaches: one of a cluster that is PARKED or OFF gives way to the core of the same position in the
cluster in CONTROL. -/
def coreFor (s : State) (core : Nat) : Nat :=
  match (s.bar.clusters.get (clusterOf core)).role with
  | .parked | .off => 4 * (s.bar.control % 2) + core % 4
  | _ => core % 8

/-- An interrupt is pending at a core. -/
def raiseIrq (source core : Nat) (s : State) : State :=
  let e := (source, coreFor s core)
  if s.bar.irqs.contains e then s else { s with bar := { s.bar with irqs := s.bar.irqs ++ [e] } }

/-- A source routed by its word on page 0x0240: [2:0] the core within the cluster in control, [4] ENABLE. -/
def routeIrq (source : Nat) (s : State) : State :=
  let w := lookD s.bar.router source 0
  if bitSet w 4 then raiseIrq source (4 * (s.bar.control % 2) + w % 4) s else s

/-- The level at which a source stands before its core: Warden (true) or Keeper, by [3] of its word on page 0x0240 (15 R434). The
sources that Millet's own CORE fields route have none. -/
def irqWarden (s : State) (source : Nat) : Option Bool := if source < 288 then none else some (bitSet (lookD s.bar.router source 0) 3)

/-- A source of one cluster only. -/
def clusterIrq (source : Nat) (c : Fin 2) (s : State) : State :=
  let w := lookD s.bar.router source 0
  if bitSet w 4 then raiseIrq source (4 * c.val + w % 4) s else s

/-! ## Cells and slots (R424, R426) -/

def cellAt (s : State) (c : Nat) : Nat := lookD s.mem.cells c 0
def putCell (c v : Nat) (s : State) : State := { s with mem := { s.mem with cells := putD s.mem.cells c (v % two32) 0 } }

def WaitSlot.zero : WaitSlot := ⟨0, false, false, false, false, 0, 0, 0⟩
def slotAt (s : State) (k : Nat) : WaitSlot := lookD s.mem.slots k WaitSlot.zero
def putSlot (k : Nat) (x : WaitSlot) (s : State) : State := { s with mem := { s.mem with slots := putD s.mem.slots k x WaitSlot.zero } }

/-- (value − THRESHOLD) mod 2^32 is below 2^31. -/
def slotHolds (x : WaitSlot) (v : Nat) : Bool := decide ((v + (two32 - x.threshold % two32)) % two32 < 2147483648)

/-- An armed slot whose condition holds fires: ARM cleared, FIRED set, the value seen, the interrupt and the event. -/
def tryFire (k : Nat) (s : State) : State :=
  let x := slotAt s k
  let v := cellAt s x.cell
  if x.arm && slotHolds x v then
    let s1 := putSlot k { x with arm := false, fired := true, seen := v } s
    let s2 := if x.irq then raiseIrq (32 + k) x.core s1 else s1
    if x.event then raiseMain .syncWait syncSrc k s2 else s2
  else s

/-- Every slot armed on a cell judges its change, in slot order. -/
def cellChanged (c : Nat) (s : State) : State :=
  forEach ((s.mem.slots.filter (fun p => p.2.cell == c)).map (·.1)) tryFire s

/-- SIGNAL: (value + n) mod 2^32. -/
def signalCell (c n : Nat) (s : State) : State := cellChanged c (putCell c (cellAt s c + n) s)

/-- SET. One that moves the cell backwards fires no slot (R427). -/
def setCell (c v : Nat) (s : State) : State :=
  let s1 := putCell c v s
  if (v % two32 + (two32 - cellAt s c % two32)) % two32 < 2147483648 then cellChanged c s1 else s1

/-- The fabric and the tiles cannot move groups 0 to 7 (R425). -/
def hwCell (c : Nat) : Bool := decide (c < 512)

/-- A tile's SIGNAL: dropped and counted on a hardware cell. -/
def tileSignal (c n : Nat) (s : State) : State :=
  if hwCell c then inc32 s Obj.syncDropped else signalCell c n s

/-! ## Transfers of the frame sequencer (14 Table 14.5) -/

/-- Bytes count toward the engine's total, wrapping. -/
def milletBytes (mb : Bool) (n : Nat) (s : State) : State :=
  let o := if mb then Obj.milletBytesMb else Obj.milletBytesMa
  setN s o ((getN s o + n) % 2 ^ 64)

/-- A channel, its engine, and the channel that runs on an engine. -/
def chanAt (s : State) (c : Fin 32) : DmaCh := s.mem.dma.get c
def engineOf (c : Fin 32) : Bool := decide (16 ≤ c.val)
def dmaSrc (c : Nat) : Nat := 0x5100 + c

def running (s : State) (mb : Bool) : Option (Fin 32) :=
  match (if mb then s.mem.runB else s.mem.runA) with
  | some c => if h : c < 32 then some ⟨c, h⟩ else none
  | none => none

def setRun (mb : Bool) (c : Option Nat) (s : State) : State := { s with mem := if mb then { s.mem with runB := c } else { s.mem with runA := c } }

/-- The lowest-numbered READY channel starts, where none runs (R411). -/
def startNext (mb : Bool) (s : State) : State :=
  match running s mb with
  | some _ => s
  | none =>
    match (List.finRange 32).find? (fun c => engineOf c == mb && (chanAt s c).st == .ready) with
    | some c => updDma c (fun x => { x with st := .running, bytesDone := 0, reached := [], startAt := s.clk.cycles }) (setRun mb (some c.val) s)
    | none => s

def endRun (c : Fin 32) (s : State) : State := startNext (engineOf c) (setRun (engineOf c) none s)

/-- The fewest runs of at most 1 MiB that carry a transfer (R411). -/
def runsOf (bytes : Nat) : List Nat :=
  (List.range ((bytes + 1048575) / 1048576)).map (fun i => min 1048576 (bytes - 1048576 * i))

/-- One run of the frame sequencer is complete, with its signal (R418, Table 14.13). -/
def seqOne (c : Fin 32) (n : Nat) (s : State) : State :=
  signalCell (64 + c.val % 16 + (if engineOf c then 4 else 0)) 1
    (milletBytes (engineOf c) n (inc32 (updDma c (fun x => { x with runs := (x.runs + 1) % two32, bytesDone := n, st := .done }) s) (Obj.dmaRuns c.val)))

/-- A transfer that is complete when its command comes (DEDUCED, log 29). -/
def seqRun (c : Fin 32) (bytes : Nat) (s : State) : State := forEach (runsOf bytes) (seqOne c) s

/-- A transfer begins: its channel is READY, until the engine comes to it. -/
def seqStart (c : Fin 32) (bytes : Nat) (s : State) : State :=
  if bytes = 0 then s
  else startNext (engineOf c) (updDma c (fun x => { x with
    jobs := runsOf bytes, st := if x.st = .running then .running else .ready, errAddr := 0, errDir := false, errEntry := 0, errCause := 0 }) s)

/-- The run of a frame-sequencer channel ends; the next one of its transfer makes it READY again. -/
def seqStep (c : Fin 32) (s : State) : State :=
  match (chanAt s c).jobs with
  | [] => s
  | n :: t => endRun c (updDma c (fun x => { x with jobs := t, st := if t = [] then .done else .ready }) (seqOne c n s))

/-- The channel gives up its engine and what was left of its transfer. -/
def seqLeave (c : Fin 32) (st : DmaState) (s : State) : State :=
  let s1 := updDma c (fun x => { x with jobs := [], st := st }) s
  if running s (engineOf c) = some c then endRun c s1 else s1

/-- What was left of a transfer is complete. -/
def seqFinish (c : Fin 32) (s : State) : State :=
  if (chanAt s c).jobs = [] then s else seqLeave c .done (forEach (chanAt s c).jobs (seqOne c) s)

/-- A transfer is withdrawn. -/
def seqCancel (c : Fin 32) (s : State) : State := if (chanAt s c).jobs = [] then s else seqLeave c .idle s

/-- A bus error halts a channel of the frame sequencer (R410, R422), which acknowledges it before its next transfer. Which address and
entry failed is open (log 8). -/
def seqHalt (c : Fin 32) (cause : Nat) (s : State) : State :=
  let (a, s1) := takeFree 64 s
  let (e, s2) := takeFree 32 s1
  let s3 := updDma c (fun x => { x with errAddr := a, errEntry := e, errDir := cause == 4, errCause := cause }) s2
  seqLeave c .halted (raiseMain .dmaHalted (dmaSrc c.val) c.val (setN (inc32 s3 (Obj.dmaHalts c.val)) (Obj.dmaLastCause c.val) cause))

/-- Another channel holds the engine of a transfer that has still to run (R411). -/
def seqWaits (s : State) (c : Fin 32) : Bool :=
  (chanAt s c).jobs != [] && (match running s (engineOf c) with | some d => d != c | none => false)

end Sys2Proof.Machine
end

