-- ==== Sys2Proof/Machine/Tile.lean ====
section
/-! DEFINITION. The states of Clove's tiles (03 Table 3.3) and the bursts that wait at their ports (R88). -/
namespace Sys2Proof.Machine

open Sys2Proof

def tileSrc : Nat := 0x4010

/-- A session's output carries a poison mark in frame n: it advances again in frame n + 2 (R80, 05 R162). -/
def Sess.poison (n : Nat) (x : Sess) : Sess := { x with poisoned := true, stopUntil := some (x.stopUntil.getD (n + 2)) }

/-! ## States of a tile (Table 3.3) -/

/-- TILE_STATE. Table 3.2 gives no code for a tile that has not been tested since main-die start: it reads 0 (DESIGN CHOICE,
log 27). -/
def TileState.code : TileState → Nat
  | .none_ | .absent => 0 | .spare => 1 | .gated => 2 | .active => 3 | .failed => 4

/-- Where a passed self-test leaves a tile: SPARE or GATED as chosen at manufacture (R75). -/
def restState (s : State) (t : Fin 68) : TileState :=
  if s.ident.absent.contains t.val then .absent
  else if s.ident.spare.contains t.val then .spare
  else .gated

/-- A tile enters FAILED: TILE_RETIRED is set in NOR and TILE_FAILED is raised (Table 3.3). -/
def markFailed (t : Fin 68) (s : State) : State :=
  s |> updTile t (fun x => { x with st := .failed, failNow := false })
    |> (fun s => setN (commitNum (Obj.tileRetired t.val).key 1 0 false s) (Obj.tileRetired t.val) 1)
    |> raiseMain .tileFailed tileSrc (openDetail .tileFailed t.val)

/-- A tile's contents are lost when it is power-gated; its counts and histories stay. -/
def gateTile (st : TileState) (t : Fin 68) (s : State) : State :=
  updTile t (fun x => { Tile.init with
    st := st, ueOffset := x.ueOffset, ueFrame := x.ueFrame, arith := x.arith, ueAt := x.ueAt, beatUe := x.beatUe, ceAt := x.ceAt
    log := x.log }) s

/-- The present frame number for tile and ledger entries. -/
def curFrame (s : State) : Nat := s.eng.frame

def frameNs (s : State) : Nat := 25000 * 2 ^ (getN s Obj.framePeriod)

/-- Whether a Rye cycle lies within 64 F of the present one (R77): 64 frames of 40 ns cycles, over launches and out of them. -/
def within64 (s : State) (c : Nat) : Bool := decide (40 * s.clk.cycles ≤ 40 * c + 64 * frameNs s)

/-! ## Held bursts (R88) -/

/-- Whether a burst to a bank must be held: the bank is not the staging bank, or its pair has a SWAP pending. -/
def mustHold (x : Tile) (bank : Nat) : Bool := bank ≠ stagingBank x (bank / 2) || x.swaps.any (fun p => bitSet p.1 (bank / 2))

end Sys2Proof.Machine
end

