-- ==== Sys2Proof/Machine/Session.lean ====
section
/-! DEFINITION. Sessions (04): lanes and slots, the checks of a descriptor write (Table 4.6), opening, changing, closing
and switching, the codebook store and the model library. -/
namespace Sys2Proof.Machine

open Sys2Proof

def sessSrc : Nat := 0x4400
def modelSrc : Nat := 0x4110

/-! ## The image in force, its lanes and slots (06 R184 to R189, 04 R145) -/

def imageOf (s : State) (i : Option Nat) : Option Image :=
  match i with
  | none => none
  | some k => if h : k < 4 then (s.img.store.get ⟨k, h⟩).image else none

/-- The image whose lanes, slots and bundles the engine runs: the one in force, or in a replay the recorded one (05 R176). -/
def imageNow (s : State) : Option Image := imageOf s (match s.img.replayOf with | some k => some k | none => s.img.inForce)

def lanesNow (s : State) : List LaneEnt :=
  match imageNow s with
  | some i => i.lanes
  | none => []

/-- The physical tile of a logical tile, by the binding in force. -/
def ptileOf (s : State) (l : Nat) : Option (Fin 68) :=
  match (s.img.binds.getD l ⟨none, 1, 0, false, 0⟩).ptile with
  | some p => if h : p < 68 then some ⟨p, h⟩ else none
  | none => none

/-- A primary lane: no twin, or the lower-numbered of the two (06 R189). -/
def isPrimary (lane : Nat) (e : LaneEnt) : Bool :=
  match e.twin with
  | none => true
  | some t => decide (lane < t)

/-- A session that holds its lane (PENDING, OPEN or CLOSING). -/
def Sess.live (x : Sess) : Bool := x.st != .closed

def liveSessions (s : State) : List (Nat × Sess) := s.eng.sess.filter (fun p => p.2.live)

/-- Lanes held: a live session's lane, and the lane a pending switch will take. -/
def laneHeld (s : State) (lane : Nat) : Bool :=
  (liveSessions s).any (fun p => p.2.lane == lane ||
    (match p.2.switch with | some w => w.lane == lane | none => false))

/-- The key of slot k of the tile of a logical tile; a folded member has its share of the slots (log 21). -/
def slotKey (s : State) (l k : Nat) : Option Nat :=
  match ptileOf s l with
  | none => none
  | some p =>
    let b := s.img.binds.getD l ⟨none, 1, 0, false, 0⟩
    some (p.val * 64 + (b.member * (64 / b.fold) + k) % 64)

/-- The slots of a shape on a logical tile, lowest-numbered first. -/
def slotsOf (i : Image) (l shape : Nat) : List SlotEnt :=
  (i.slots.filter (fun e => e.ltile == l && e.shape == shape)).mergeSort (fun a b => decide (a.slot ≤ b.slot))

/-- The logical tile of a lane, and of its twin. -/
def laneTile (s : State) (lane : Nat) : Nat := ((lanesNow s)[lane]?.map (·.ltile)).getD 0xFF
def twinLane (ls : List LaneEnt) (lane : Nat) : Option Nat := ls[lane]?.bind (·.twin)
def twinTile (ls : List LaneEnt) (lane : Nat) : Option Nat := (twinLane ls lane).bind (fun t => ls[t]?.map (·.ltile))

/-- The logical tiles on which a lane's model must stand: its own, and for a replica session its twin's (06 R189, 04 R147). -/
def tilesOfLane (s : State) (lane : Nat) (replica : Bool) : List Nat :=
  laneTile s lane :: (if replica then (twinTile (lanesNow s) lane).toList else [])

/-- A load brings its model to a logical tile, and for a replica pair to the twin's as well. -/
def Load.covers (d : Load) (l : Nat) : Bool := d.tile == l || (match d.twin with | some p => p.1 == l | none => false)
def Load.takes (d : Load) (l slot : Nat) : Bool := (d.tile == l && d.slot == slot) || d.twin == some (l, slot)

def slotModelAt (s : State) (key : Nat) : Nat := lookD s.eng.slots key 0xFFFF

/-- A model is resident on a tile when one of that tile's slots holds it (R145). -/
def resident (s : State) (l model : Nat) : Bool :=
  (List.range 64).any (fun k => match slotKey s l k with | some key => slotModelAt s key == model | none => false)

/-- A model some live session on a logical tile uses, or that a pending switch or a load in the queue names there. -/
def modelUsed (s : State) (l model : Nat) : Bool :=
  (liveSessions s).any (fun p =>
    ((tilesOfLane s p.2.lane p.2.desc.replica).contains l &&
      (p.2.modelActive == model || (p.2.st == .pending && p.2.desc.model == model))) ||
      (match p.2.switch with
       | some w => w.model == model && (tilesOfLane s w.lane p.2.desc.replica).contains l
       | none => false)) ||
    s.eng.loads.any (fun d => d.covers l && d.model == model)

/-- The slot a load takes: the lowest-numbered of the shape that holds no model in use (R145). -/
def freeSlot (s : State) (i : Image) (l shape bytes : Nat) : Option Nat :=
  ((slotsOf i l shape).find? (fun e => decide (bytes ≤ e.cap) &&
    !(s.eng.loads.any (fun d => d.takes l e.slot)) &&
    (match slotKey s l e.slot with
     | some key => slotModelAt s key == 0xFFFF || !(modelUsed s l (slotModelAt s key))
     | none => false))).map (·.slot)

/-- Free primary lanes of a shape and class, in rising number; with REPLICA only lanes with a twin. -/
def freeLanes (s : State) (cls shape : Nat) (replica : Bool) : List Nat :=
  let ls := lanesNow s
  (List.range ls.length).filter (fun k =>
    match ls[k]? with
    | some e => e.cls == cls && e.shape == shape && isPrimary k e && !(laneHeld s k) && (!replica || e.twin.isSome) &&
                (ptileOf s e.ltile).isSome
    | none => false)

def modelOf (s : State) (m : Nat) : Option Model :=
  match look s.eng.lib m with
  | some e => if e.st = .valid then e.model else none
  | none => none

/-- A model is resident for a lane when it stands on each of its tiles (R145, R146). -/
def residentFor (s : State) (lane model : Nat) (replica : Bool) : Bool :=
  (tilesOfLane s lane replica).all (fun l => resident s l model)

/-- A slot for a model on each tile of a lane: it stands there, a load brings it already (a load serves every session that
asks for its image on the same tile, R147), or one is free. -/
def slotServes (s : State) (i : Image) (lane shape model bytes : Nat) (replica : Bool) : Bool :=
  (tilesOfLane s lane replica).all (fun l =>
    resident s l model || s.eng.loads.any (fun d => d.covers l && d.model == model) || (freeSlot s i l shape bytes).isSome)

/-- Where a session would go: a lane, and whether its model is resident there (R128). A lane asked for is the only
candidate; 0xFFFF takes the lowest free lane where the model is resident, else the lowest on a tile with a free slot. -/
def chooseLane (s : State) (cls shape model bytes ask : Nat) (replica : Bool) : Option (Nat × Bool) :=
  match imageNow s with
  | none => none
  | some i =>
    let free := freeLanes s cls shape replica
    let cands := if ask = 0xFFFF then free else free.filter (· == ask)
    match cands.find? (fun k => residentFor s k model replica) with
    | some k => some (k, true)
    | none => (cands.find? (fun k => slotServes s i k shape model bytes replica)).map (fun k => (k, false))

/-! ## Carrying sessions to another image (06 R192, R197) -/

/-- What a carried session needs: its number, lane, class, shape, model with its weight bytes, and whether it is a replica
session. -/
structure Need where
  n : Nat
  lane : Nat
  cls : Nat
  shape : Nat
  model : Nat
  bytes : Nat
  replica : Bool
  deriving DecidableEq, Repr

/-- The model of a session: in force, or the one asked for while PENDING. -/
def Sess.modelNow (x : Sess) : Nat := if x.st = .pending then x.desc.model else x.modelActive

def needOf (s : State) (n : Nat) (x : Sess) : Need :=
  let m := modelOf s x.modelNow
  ⟨n, x.lane, x.desc.cls, match m with | some m => m.shape | none => 0, x.modelNow,
   match m with | some m => m.weightBytes | none => 0, x.desc.replica⟩

/-- A session keeps a primary lane of its class and shape (R197). -/
def laneKeeps (i : Image) (d : Need) (k : Nat) : Bool :=
  match i.lanes[k]? with
  | some e => isPrimary k e && e.cls == d.cls && e.shape == d.shape
  | none => false

/-- A lane it takes under 04 R128; a replica session takes it with its pair. -/
def laneFits (i : Image) (d : Need) (k : Nat) : Bool := laneKeeps i d k && (!d.replica || (twinLane i.lanes k).isSome)

/-- Lanes given so far, and the slots given to models: logical tile, slot, model. -/
structure Carry where
  lanes : Map Nat
  slots : List (Nat × Nat × Nat)
  ok : Bool
  deriving DecidableEq, Repr

def ltileOfLane (i : Image) (k : Nat) : Nat := (i.lanes[k]?.map (·.ltile)).getD 0xFF

/-- The lowest free slot of a shape on a logical tile of an image that holds the weights. -/
def carrySlot (i : Image) (c : Carry) (l shape bytes : Nat) : Option Nat :=
  ((slotsOf i l shape).find? (fun e => decide (bytes ≤ e.cap) && !(c.slots.any (fun p => p.1 == l && p.2.1 == e.slot)))).map (·.slot)

/-- The tiles of a lane, in an image that is not yet in force. -/
def carryTiles (i : Image) (d : Need) (k : Nat) : List Nat :=
  ltileOfLane i k :: (if d.replica then (twinTile i.lanes k).toList else [])

def Carry.has (c : Carry) (l model : Nat) : Bool := c.slots.any (fun p => p.1 == l && p.2.2 == model)

/-- Give a session a lane, and its model a slot on each of its tiles unless it has one there. -/
def Carry.give (i : Image) (c : Carry) (d : Need) (k : Nat) : Carry :=
  (carryTiles i d k).foldl (fun c l =>
    if c.has l d.model then c
    else
      match carrySlot i c l d.shape d.bytes with
      | some sl => { c with slots := c.slots ++ [(l, sl, d.model)] }
      | none => { c with ok := false }) { c with lanes := put c.lanes d.n k }

def laneTaken (c : Carry) (k : Nat) : Bool := c.lanes.any (fun p => p.2 == k)

/-- R197: sessions that keep their lane number first, then the others in ascending number under R128. -/
def carryAll (i : Image) (ds : List Need) : Carry :=
  let keep := ds.filter (fun d => laneKeeps i d d.lane)
  let move := ds.filter (fun d => !(laneKeeps i d d.lane))
  let c0 := keep.foldl (fun c d => c.give i d d.lane) ⟨[], [], true⟩
  move.foldl (fun c d =>
    let free := (List.range i.lanes.length).filter (fun k => laneFits i d k && !(laneTaken c k))
    match free.find? (fun k => (carryTiles i d k).all (fun l => c.has l d.model)) with
    | some k => c.give i d k
    | none =>
      match free.find? (fun k => (carryTiles i d k).all (fun l => c.has l d.model || (carrySlot i c l d.shape d.bytes).isSome)) with
      | some k => c.give i d k
      | none => { c with ok := false }) c0

def liveNeeds (s : State) : List Need := (liveSessions s).map (fun p => needOf s p.1 p.2)

/-- While an entry is ARMED, an open or a switch needs a lane in that image as well (R192). -/
def armedFits (s : State) (d : Need) : Bool :=
  match imageOf s s.img.armed with
  | none => true
  | some i => (carryAll i ((liveNeeds s).filter (fun e => e.n != d.n) ++ [d])).ok

/-! ## The checks of a descriptor write -/

/-- Source IDs of 02 Table 2.5. -/
def sourceOk (n : Nat) : Bool :=
  decide (n ≤ 0x000B) || (decide (0x0010 ≤ n) && decide (n ≤ 0x0027)) || (decide (0x0100 ≤ n) && decide (n ≤ 0x01B7)) ||
  (decide (0x0200 ≤ n) && decide (n ≤ 0x020B)) || (decide (0x0210 ≤ n) && decide (n ≤ 0x021F)) ||
  (decide (0x1000 ≤ n) && decide (n < 0x5000) && decide ((n - 0x1000) % 0x800 < 1152)) ||
  (decide (0x6000 ≤ n) && decide (n < 0x6800)) || (decide (0x6800 ≤ n) && decide (n < 0x6C00)) ||
  (decide (0x6C00 ≤ n) && decide (n < 0x7000))

/-- CONSUMER (07 R233, Table 7.5). -/
def consumerOk (d : Desc) : Bool :=
  let kind := d.consumer / 4096
  let low := d.consumer % 4096
  if kind = 0 then low == 0
  else if kind = 1 then decide (low < 128) && d.cls == 0 && !d.delta
  else if kind = 2 then decide (low < 12) && d.cls == 0
  else kind == 3 && low == 0

/-- Every field within Table 4.2. -/
def descFieldsOk (d : Desc) : Bool :=
  decide (d.cls < 3) && decide (d.kind < 4) &&
  (if d.kind = 1 then sourceOk d.source else if d.kind = 2 then decide (d.source < 4096) else d.source == 0) &&
  decide (d.model < 4096) && decide (d.codebook < 4096) &&
  Fmt.f32.isFinite d.scale && Fmt.f32.isFinite d.offset && Fmt.f32.isFinite d.iscale && Fmt.f32.isFinite d.ioffset &&
  Fmt.f32.isFinite d.limit && Fmt.f32.isFinite d.inject && decide (d.holdF < 256) &&
  (d.reduce == 0 || (d.reduce == 1 && d.kind == 1 && decide (d.source ≤ 0x01B7))) && consumerOk d

def p0Count (s : State) : Nat := ((liveSessions s).filter (fun p => p.2.desc.cls == 0)).length

/-- The adapter entry that governs a switch (R142). -/
def governing (old new : Model) : Option Adapter := new.adapters.find? (fun a => a.fromShape == old.shape)

/-- Free a session's lane and slot use; its status keeps its last values (Table 4.5). -/
def Sess.release (x : Sess) : Sess :=
  { x with st := .closed, lane := 0xFFFF, ltile := 0xFF, modelActive := 0xFFFF, switch := none, changes := [], closeCount := none,
           openReady := none, yref := none, lastCode := 0, held := 0, state := [], stopUntil := none,
           restoreBase := none, moving := false, poisoned := false, copyBad := false, onTwin := false, lost := false, k := 1, phase := 0 }

/-- Loads no session waits for and that have not started are withdrawn (R126, R149). -/
def withdrawLoads (s : State) : State :=
  let wanted (d : Load) : Bool :=
    (liveSessions s).any (fun p =>
      (p.2.st == .pending && p.2.desc.model == d.model && (tilesOfLane s p.2.lane p.2.desc.replica).any d.covers) ||
      (match p.2.switch with
       | some w => w.model == d.model && (tilesOfLane s w.lane p.2.desc.replica).any d.covers
       | none => false))
  { s with eng := { s.eng with loads := s.eng.loads.filter (fun d => d.started || wanted d) } }

/-- A switch keeps its lane where the shape is the lane's, and then needs a slot on the lane's tile; otherwise it needs another
lane (R127, R128, R146). -/
def switchRoom (s : State) (n : Nat) (d : Desc) (m : Model) : Bool :=
  let x := getSess s n
  if ((lanesNow s)[x.lane]?.map (·.shape)) == some m.shape then
    match imageNow s with
    | some i => slotServes s i x.lane m.shape d.model m.weightBytes d.replica
    | none => false
  else (chooseLane s d.cls m.shape d.model m.weightBytes 0xFFFF d.replica).isSome

/-- The checks of Table 4.6 after the part state, in its order; 0 when all pass. `n` is the session, `fieldsOk` that the
reserved bits are 0. A write with OPEN = 0, also the close of an OPEN session, undergoes those of the writer, the fields and R123 alone:
it needs no model, codebook, lane or slot (DESIGN CHOICE, log 50: the table does not say which checks it undergoes). -/
def descHome (au : Auth) (n : Nat) (d : Desc) (fieldsOk : Bool) (s : State) : Nat :=
  let x := getSess s n
  let live := x.live
  if au = .host && ((d.openBit && d.cls == 0) || (live && x.desc.cls == 0)) then 0x00060101
  else if live && au ≠ .service && x.opener ≠ some au then 0x00060102
  else if !fieldsOk || !(descFieldsOk d) then 0x00040101
  else
    let book := look s.eng.books d.codebook
    let m := modelOf s d.model
    let edges := match book with | some b => b.edges.length | none => 0
    let switching := (x.st == .opened || x.st == .closing) && d.model != x.modelActive
    let opening := x.st == .closed || (x.st == .pending && d.model != x.desc.model)
    let s0 := withdrawLoads (updSess n (fun x => if x.st = .pending then x.release else { x with switch := none }) s)
    let tooSoon := d.switchAt ≠ 0 && s.part.st == .run && decide (d.switchAt < s.eng.frame + 3)
    if d.openBit && edges ≠ 0 && (match m with | some m => m.vocab + 1 != edges | none => false) then 0x00040102
    else if d.openBit && tooSoon then 0x00040103
    else if live && (d.cls != x.desc.cls || d.replica != x.desc.replica || d.delta != x.desc.delta) then 0x00040104
    else if !d.openBit then 0
    else if m.isNone || edges = 0 then 0x00020101
    else
      match m with
      | none => 0x00020101
      | some m =>
        let old := modelOf s x.modelActive
        let reads := match old with
          | some o => (match governing o m with
                       | some a => a.mapMode && a.entries.any (fun e => decide (o.stateBytes < e.src + e.len))
                       | none => false)
          | none => false
        if switching && reads then 0x00040106
        else if opening && (freeLanes s0 d.cls m.shape d.replica).filter (fun k => d.lane == 0xFFFF || k == d.lane) = [] then 0x00070101
        else if switching && laneTile s x.lane ≠ 0xFF && ((lanesNow s)[x.lane]?.map (·.shape)) ≠ some m.shape &&
            freeLanes s0 d.cls m.shape d.replica = [] then 0x00070101
        else if (opening || switching) && !(armedFits s ⟨n, x.lane, d.cls, m.shape, d.model, m.weightBytes, d.replica⟩) then 0x00070101
        else if opening && (chooseLane s0 d.cls m.shape d.model m.weightBytes d.lane d.replica).isNone then 0x00070102
        else if switching && laneTile s x.lane ≠ 0xFF && !(switchRoom s0 n d m) then 0x00070102
        else if x.st = .closed && d.cls == 0 && decide (512 ≤ p0Count s) then 0x00070103
        else 0

/-- The code is also placed in LAST_ERROR, and a class P0 admission that fails raises its event (R127). -/
def descRefused (n : Nat) (d : Desc) (code : Nat) (s : State) : State :=
  let s1 := updSess n (fun x => { x with lastError := code }) s
  let s2 := if d.cls = 0 && (code = 0x00070101 || code = 0x00070103) then raiseMain .p0AdmissionFailed sessSrc n s1 else s1
  refuse code s2

/-! ## Loads (R147) -/

/-- The tiles of a lane where a model neither stands nor is on its way, each with the slot that takes it. -/
def loadSlots (s : State) (model lane : Nat) (replica : Bool) : List (Nat × Nat) :=
  match imageNow s, modelOf s model with
  | some i, some m =>
    let ls := (tilesOfLane s lane replica).filter (fun l =>
      !(resident s l model) && !(s.eng.loads.any (fun d => d.model == model && d.covers l)))
    ls.filterMap (fun l => (freeSlot s i l m.shape m.weightBytes).map (fun k => (l, k)))
  | _, _ => []

def Load.places (d : Load) : List (Nat × Nat) := (d.tile, d.slot) :: d.twin.toList

/-- The bytes a load moves, to one tile or two. -/
def loadBytes (s : State) (d : Load) : Nat := (match modelOf s d.model with | some m => m.weightBytes | none => 0) * d.places.length

/-- Queue the load of a model to the tiles of a lane that need it; a replica pair's two tiles take one load (R147). -/
def queueLoad (model lane : Nat) (replica : Bool) (c : Count) (s : State) : State :=
  match loadSlots s model lane replica with
  | [] => s
  | (l, k) :: rest =>
    let d : Load := ⟨model, l, k, rest.head?, s.eng.loads.isEmpty, c⟩
    let s1 := { s with eng := { s.eng with loads := s.eng.loads ++ [d] } }
    if s.eng.loads.isEmpty then seqStart 17 (loadBytes s d) s1 else s1

/-! ## Effects of a descriptor write -/

def logWrite (n : Nat) (d : Desc) (au : Auth) (c : Count) (s : State) : State :=
  { s with eng := { s.eng with writes := s.eng.writes ++ [⟨n, d, au, c⟩] } }

/-- Open: lane reserved, slot reserved and its load queued, OPENER recorded (Table 4.5). -/
def openSession (au : Auth) (n : Nat) (d : Desc) (c : Count) (s : State) : State :=
  match modelOf s d.model with
  | none => s
  | some m =>
    match chooseLane s d.cls m.shape d.model m.weightBytes d.lane d.replica with
    | none => s
    | some (lane, res) =>
      s |> updSess n (fun x => { x.release with st := .pending, desc := d, eff := d, effCount := c,
                                                 openReady := if res then some c else none,
                                                 lane := lane, ltile := laneTile s lane, opener := some au })
        |> (fun s => if res then s else queueLoad d.model lane d.replica c s)

/-- The lane a switch to another shape takes; none free leaves the old one. -/
def switchLane (s : State) (d : Desc) (m : Model) (old : Nat) : Nat :=
  match chooseLane s d.cls m.shape d.model m.weightBytes 0xFFFF d.replica with
  | some (k, _) => k
  | none => old

/-- Request a switch of the model (R146, R149): the lane is kept when the shape is kept. A write that repeats the model and
the SWITCH_AT of a pending switch changes no model, and leaves it standing (DEDUCED, log 50). -/
def requestSwitch (n : Nat) (d : Desc) (c : Count) (s : State) : State :=
  let x := getSess s n
  let cleared := withdrawLoads (updSess n (fun x => { x with switch := none }) s)
  if d.model = x.modelActive then cleared
  else
    match modelOf s d.model with
    | none => s
    | some m =>
      let repeated := match x.switch with | some w => w.model == d.model | none => false
      let base := if repeated then s else cleared
      let same := ((lanesNow s)[x.lane]?.map (·.shape)) == some m.shape
      let lane := if same then x.lane
        else match x.switch with
          | some w => if w.model = d.model then w.lane else switchLane base d m x.lane
          | none => switchLane base d m x.lane
      let res := residentFor s lane d.model d.replica
      if repeated && (match x.switch with | some w => w.frame == d.switchAt | none => false) then s
      else
        base
          |> updSess n (fun x => { x with switch := some ⟨d.model, d.switchAt, c, if res then some c else none, lane⟩ })
          |> (fun s => if res then s else queueLoad d.model lane d.replica c s)

/-- The effect of an accepted descriptor write at count c (Table 4.5). Two writes have no row there (DESIGN CHOICE, log 50). With
OPEN = 1 to a PENDING session: a change of fields takes effect as R122 gives it, and one of MODEL reserves anew with the writer as
OPENER. With OPEN = 0 to a CLOSING session: the fields are stored and the close keeps the count of the first. -/
def descEffect (au : Auth) (n : Nat) (d : Desc) (c : Count) (s : State) : State :=
  let x := getSess s n
  let s := logWrite n d au c s
  match x.st with
  | .closed => if d.openBit then openSession au n d c s else updSess n (fun x => { x with desc := d }) s
  | .pending =>
    if d.openBit then
      (if d.model = x.desc.model then updSess n (fun x => { x with desc := d, changes := x.changes ++ [⟨d, c⟩] }) s
       else openSession au n d c (withdrawLoads (updSess n Sess.release s)))
    else withdrawLoads (updSess n (fun x => { x.release with desc := d }) s)
  | .opened =>
    if d.openBit then
      s |> updSess n (fun x => { x with desc := d, changes := x.changes ++ [⟨d, c⟩] }) |> requestSwitch n d c
    else
      withdrawLoads (updSess n (fun x => { x with desc := d, st := .closing, closeCount := some c, switch := none }) s)
  | .closing =>
    if d.openBit then
      s |> updSess n (fun x => { x with desc := d, st := .opened, closeCount := none, changes := x.changes ++ [⟨d, c⟩] })
        |> requestSwitch n d c
    else updSess n (fun x => { x with desc := d }) s

/-- A descriptor write, from a command or from the dictionary (R121, R127). -/
def writeDesc (au : Auth) (n : Nat) (d : Desc) (fieldsOk : Bool) (s : State) : State :=
  let key := 0x440000 + n
  let pre := precheck s au key 0 (.bytes d.bytes)
  if !s.oda.serving then s
  else if pre / 65536 = 5 then refuse pre (updSess n (fun x => { x with lastError := pre }) s)
  else if pre ≠ 0 then refuse pre s
  else if descHome au n d fieldsOk s ≠ 0 then descRefused n d (descHome au n d fieldsOk s) s
  else accept (descEffect au n d) s

/-- SESSION_OPEN_REQUEST: a write with OPEN = 1 (R126, R127). -/
def execSessionOpenRequest (au : Auth) (n : Fin 10240) (d : Desc) (s : State) : Out :=
  .next (writeDesc au n.val { d with openBit := true } true s)

/-- SESSION_CLOSE_REQUEST: a write with OPEN = 0 (R126, R127). -/
def execSessionCloseRequest (au : Auth) (n : Fin 10240) (d : Desc) (s : State) : Out :=
  .next (writeDesc au n.val { d with openBit := false } true s)

/-! ## Loads complete or fail -/

def mapSess (f : Nat → Sess → Sess) (s : State) : State :=
  forEach (s.eng.sess.map (·.1)) (fun n s => updSess n (f n) s) s

/-- A session that waits for a model becomes ready at count c once the model stands on every tile it needs. R126 names the effective
frame with the model resident: where the load ends after the write, the model takes the first frame at least 2,000 ns after its end,
as R146 states for a switch (DESIGN CHOICE, log 50). -/
def loadReady (s : State) (model : Nat) (c : Count) (x : Sess) : Sess :=
  let x1 := if x.st == .pending && x.desc.model == model && x.openReady.isNone && residentFor s x.lane model x.desc.replica then
      { x with openReady := some c } else x
  match x1.switch with
  | some w =>
    if w.model == model && w.readyAt.isNone && residentFor s w.lane model x.desc.replica then
      { x1 with switch := some { w with readyAt := some c } } else x1
  | none => x1

/-- A slot takes a model. -/
def fillSlot (model : Nat) (p : Nat × Nat) (s : State) : State :=
  match slotKey s p.1 p.2 with
  | some key => { s with eng := { s.eng with slots := putD s.eng.slots key model 0xFFFF } }
  | none => s

/-- The weights of a model stand at the ADDR of its slot (06 Table 6.5), in the compute bank of the tile that carries it. -/
def placeWeights (model : Nat) (p : Nat × Nat) (s : State) : State :=
  match imageNow s, modelOf s model, ptileOf s p.1 with
  | some i, some m, some t =>
    let b := s.img.binds.getD p.1 ⟨none, 1, 0, false, 0⟩
    (match i.slots.find? (fun e => e.ltile == p.1 && e.slot == p.2) with
     | some e => updTile t (fun x => wrSpace x (b.member * (12 / b.fold)) e.addr m.weights false false) s
     | none => s)
  | _, _, _ => s

/-- The model of a session stands in a slot of each of its tiles. -/
def seatModel (n : Nat) (s : State) : State :=
  let x := getSess s n
  match imageNow s, modelOf s x.modelActive with
  | some i, some m =>
    forEach (tilesOfLane s x.lane x.desc.replica) (fun l s =>
      if resident s l x.modelActive then s
      else match freeSlot s i l m.shape m.weightBytes with
        | some k => placeWeights x.modelActive (l, k) (fillSlot x.modelActive (l, k) s)
        | none => s) s
  | _, _ => s

/-- The tile of a place can take the load: its window is that of an ACTIVE tile (03 R89). A parked tile takes none yet. -/
def placeReached (s : State) (p : Nat × Nat) : Bool :=
  match ptileOf s p.1 with
  | some t => (s.eng.tiles.get t).st == .active || s.part.st != .run
  | none => true

/-- MODEL_LOAD_DONE: the load at the head of the queue ends, in its slot or slots or with an uncorrectable error (R147, R148;
Table 4.5). The next one starts. A load to a tile that a spare replaces starts again towards the replacement and has not ended (R149);
one that meets the window of a tile that is not ACTIVE ends in the bus error of 03 R89 and fails like one with an uncorrectable error
(DEDUCED, log 29). While a firmware channel holds MB the load waits for it and has not ended (14 R411). -/
def execModelLoadDone (done : Bool) (s : State) : Out :=
  match s.eng.loads with
  | [] => .next s
  | d :: rest =>
    if d.places.any (fun p => s.img.repls.any (fun r => r.ltile == p.1)) then .next s
    else
    let ok := done && d.places.all (placeReached s)
    if ok && seqWaits s 17 then .next s
    else
    let next := match rest with | [] => [] | e :: t => { e with started := true } :: t
    let s0 := if ok then seqFinish 17 s else seqHalt 17 (if done then 4 else 3) s
    let s1 := match rest with
      | [] => { s0 with eng := { s0.eng with loads := next } }
      | e :: _ => seqStart 17 (loadBytes s e) { s0 with eng := { s0.eng with loads := next } }
    if ok then
      let s2 := forEach d.places (fun p s => placeWeights d.model p (fillSlot d.model p s)) s1
      .next (mapSess (fun _ x => loadReady s2 d.model (mainNow s) x) s2)
    else
      let hit (lane : Nat) (replica : Bool) : Bool := (tilesOfLane s1 lane replica).any d.covers
      let opening := (liveSessions s1).filter (fun p => p.2.st == .pending && p.2.desc.model == d.model && p.2.openReady.isNone &&
        hit p.2.lane p.2.desc.replica)
      let switching := (liveSessions s1).filter (fun p => match p.2.switch with
        | some w => w.model == d.model && w.readyAt.isNone && hit w.lane p.2.desc.replica | none => false)
      let s2 := forEach opening (fun p s => raiseMain .modelLoadFailed sessSrc p.1
        (updSess p.1 (fun x => { x.release with lastError := 0x00070107 }) s)) s1
      .next (forEach switching (fun p s => raiseMain .modelLoadFailed sessSrc p.1
        (updSess p.1 (fun x => { x with switch := none, lastError := 0x00070107 }) s)) s2)

/-! ## Codebooks (R132, R133) -/

/-- Strictly increasing under IEEE comparison. -/
def rising : List Nat → Bool
  | a :: b :: t => fLt a b && rising (b :: t)
  | _ => true

def codebookUsed (s : State) (c : Nat) : Bool :=
  (liveSessions s).any (fun p => p.2.desc.codebook == c || p.2.eff.codebook == c)

def edgeTotal (s : State) : Nat := (s.eng.books.map (fun p => p.2.edges.length)).sum

def codebookHome (c : Nat) (bs : List Byte) (s : State) : Nat :=
  let n := leAt bs 0 2
  let es := codebookOf bs
  if bs ≠ [] && (bs.length ≠ 8 + 4 * n || decide (n < 2) || decide (4096 < n) || leAt bs 2 6 ≠ 0 ||
      !(es.all Fmt.f32.isFinite) || !(rising es)) then 0x00040105
  else if codebookUsed s c then 0x00070104
  else if bs ≠ [] && decide (1048576 < edgeTotal s - (match look s.eng.books c with | some b => b.edges.length | none => 0) + n) then 0x00070105
  else 0

/-- Edges and midpoints MID[c] = mul(add(EDGE[c], EDGE[c + 1]), 0.5). -/
def midpoints : List Nat → List Nat
  | a :: b :: t => fMul (fAdd a b) 0x3F000000 :: midpoints (b :: t)
  | _ => []

def codebookEffect (c : Nat) (bs : List Byte) (_ : Count) (s0 : State) : State :=
  let s := seqRun 18 bs.length s0
  if bs = [] then { s with eng := { s.eng with books := del s.eng.books c } }
  else { s with eng := { s.eng with books := put s.eng.books c ⟨codebookOf bs, midpoints (codebookOf bs)⟩ } }

/-- CODEBOOK_WRITE. -/
def execCodebookWrite (au : Auth) (c : Fin 4096) (bytes : List Byte) (s : State) : Out :=
  .next (writeStep au (0x413000 + c.val) (.bytes bytes) (codebookHome c.val bytes) (codebookEffect c.val bytes) s)

/-! ## The model library (R141, R144) -/

def modelInUse (s : State) (m : Nat) : Bool :=
  (liveSessions s).any (fun p => p.2.modelActive == m || p.2.desc.model == m ||
    (match p.2.switch with | some w => w.model == m | none => false)) ||
  s.eng.slots.any (fun p => p.2 == m)

def libBytes (s : State) : Nat := (s.eng.lib.map (fun p => p.2.bytes.length)).sum
def libImages (s : State) : Nat := s.eng.lib.length
def libRoom : Nat := 4294967296

/-- An image in use is not written over, and the images do not outgrow their region, for which R144 names no code of its own
(DESIGN CHOICE, log 31). -/
def modelHome (m len : Nat) (s : State) : Nat :=
  let old := match look s.eng.lib m with | some e => e.bytes.length | none => 0
  if modelInUse s m || decide (libRoom < libBytes s - old + len) then 0x00070104 else 0

/-- The image enters the library VERIFYING; an empty one leaves it (R144). -/
def modelEffect (m : Nat) (bs : List Byte) (_ : Count) (s : State) : State :=
  if bs = [] then { s with eng := { s.eng with lib := del s.eng.lib m } }
  else { s with eng := { s.eng with lib := put s.eng.lib m ⟨.verifying, bs, none⟩ } }

/-- MODEL_IMAGE_WRITE: an accepted BLOCK write (R144). -/
def execModelImageWrite (au : Auth) (m : Fin 4096) (bytes : List Byte) (s : State) : Out :=
  .next (writeStep au (0x411000 + m.val) (.bytes []) (modelHome m.val bytes.length) (modelEffect m.val bytes) s)

/-- TO ranges that overlap (R143). -/
def rangesOverlap : List MapEnt → Bool
  | [] => false
  | e :: t => t.any (fun g => decide (e.dst < g.dst + g.len) && decide (g.dst < e.dst + e.len)) || rangesOverlap t

def adapterOk (x : Model) (a : Adapter) : Bool :=
  if a.mapMode then
    decide (1 ≤ a.entries.length) && decide (a.entries.length ≤ 256) &&
    a.entries.all (fun e => decide (e.dst + e.len ≤ x.stateBytes)) && !(rangesOverlap a.entries)
  else a.entries.isEmpty

/-- The limits of Table 4.11 and the check of R143 at entry. -/
def modelOk (x : Model) : Bool :=
  x.format == 1 && x.contract == 1 && decide (1 ≤ x.kind) && decide (x.kind < 8) && decide (x.weightBytes ≤ 1572864) &&
  decide (x.stateBytes ≤ 65536) && decide (1 ≤ x.vocab) && decide (x.vocab ≤ 4095) &&
  (if bitSet x.kind 1 then decide (1 ≤ x.window) && decide (x.window ≤ 256) else x.window == 0) &&
  decide (x.adapters.length ≤ 64) && x.init.length == x.stateBytes && x.offsetsOk && x.reservedOk && x.adapters.all (adapterOk x)

/-- MODEL_VERIFIED: Barley's verification ends (R141, R144): the header, the digest and the signature. -/
def execModelVerified (m : Fin 4096) (s : State) : Out :=
  match look s.eng.lib m.val with
  | some e =>
    if e.st = .verifying then
      let x := parseModel e.bytes
      if modelOk x && signedBy s e.bytes x.sigOff then
        .next { s with eng := { s.eng with lib := put s.eng.lib m.val ⟨.valid, e.bytes, some x⟩ } }
      else .next { s with eng := { s.eng with lib := put s.eng.lib m.val ⟨.refused, e.bytes, none⟩ } }
    else .next s
  | none => .next s

end Sys2Proof.Machine
end

