-- ==== Sys2Proof/Machine/Teff.lean ====
section
/-! DEFINITION. Teff (04): tokenizing a sample (R131, R134), detokenizing a raw output word and forming the forecast
record (R136 to R139). -/
namespace Sys2Proof.Machine

open Sys2Proof

/-- The sample a session is given for a frame: its FP32 value, and whether it comes late (R130, R134). -/
structure Latched where
  value : Nat
  late : Bool
  deriving DecidableEq, Repr

def tokSynthetic : Nat := 0x8000
def tokStale : Nat := 0x4000
def tokSaturated : Nat := 0x2000
def tokGap : Nat := 0x1000

/-- The number of i from 1 to N − 1 with EDGE[i] at or below v. -/
def edgeCount (edges : List Nat) (v : Nat) : Nat := ((edges.drop 1).filter (fun e => fLe e v)).length

/-- TOKENIZE of R134 for a session with descriptor d and codebook b; `got` is the sample latched for the frame, `prev` the value
of the one latched earlier. The outcome is the token and the session with its Teff state and counters. -/
def tokenize (d : Desc) (edges : List Nat) (got : Option Latched) (prev : Option Nat) (x : Sess) : Nat × Sess :=
  let syn := if d.kind = 2 || d.kind = 3 then tokSynthetic else 0
  let gap (y : Sess) : Nat × Sess :=
    (syn + tokGap + y.lastCode, { y with gaps := min (y.gaps + 1) u32, satToken := false })
  let go (v : Nat) (stale : Bool) (y0 : Sess) : Nat × Sess :=
    if !(Fmt.f32.isFinite v) then gap { y0 with sflags := y0.sflags ||| flagInv }
    else
      let y := fFma v d.scale d.offset
      let dv := if d.delta then (match x.yref with | none => 0 | some r => fSub y r) else y
      let n := edges.length
      let c0 := edgeCount edges dv
      let beyond := fLt dv (edges.headD 0) || c0 == n - 1
      let c := if beyond then min c0 (n - 2) else c0
      let sat := Fmt.f32.isInf y || beyond
      (syn + (if stale then tokStale else 0) + (if sat then tokSaturated else 0) + c,
       { y0 with yref := if Fmt.f32.isFinite y then some y else y0.yref, lastCode := c, satToken := sat,
                 stales := if stale then min (y0.stales + 1) u32 else y0.stales })
  match got with
  | some l => go l.value l.late { x with held := 0 }
  | none =>
    match prev with
    | some v => if x.held < d.holdF then go v true { x with held := x.held + 1 } else gap x
    | none => gap x

/-- DETOK of R136: the physical value of a code, and whether it was clamped. -/
def detok (d : Desc) (mids : List Nat) (yref : Option Nat) (code : Nat) : Nat × Bool :=
  let n := mids.length
  let beyond := decide (n ≤ code % 4096)
  let c := if beyond then n - 1 else code % 4096
  let m := mids.getD c 0
  let m := if d.delta then fAdd m (yref.getD 0) else m
  (fFma m d.iscale d.ioffset, beyond)

/-- p10 = min(p10, p50) and p90 = max(p90, p50) in each horizon; the first is kept where they compare equal (R136). -/
def orderQuantiles : List Nat → List Nat
  | a :: b :: c :: t => (if fLt b a then b else a) :: b :: (if fLt c b then b else c) :: orderQuantiles t
  | l => l

def recValid : Nat := 1
def recHeld : Nat := 2
def recNotAdvanced : Nat := 4
def recSat : Nat := 8
def recInv : Nat := 16
def recChecked : Nat := 32

def Record.valid (r : Record) : Bool := bitSet r.flags 0

/-- The record of a frame that ran normally (R138, R139). `fl` are the arithmetic flags that reached the session in the
frame, `checked` that a replica comparison matched. -/
def formRecord (n frame token : Nat) (d : Desc) (mids : List Nat) (x : Sess) (raw : RawCopy) (fl : Nat) (checked : Bool) : Record :=
  let vs := (List.range 12).map (fun k => detok d mids x.yref (raw.codes.getD k 0))
  let sat := vs.any (·.2) || bitSet fl 1
  let inv := bitSet fl 0 || bitSet fl 3 || Fmt.f32.isNan raw.anomaly
  { values := orderQuantiles (vs.map (·.1)), anomaly := raw.anomaly, frameLo := frame % 2 ^ 32, token := token,
    model := x.modelActive, classcode := raw.classcode % 256, session := n,
    flags := recValid + (if sat then recSat else 0) + (if inv then recInv else 0) + (if checked then recChecked else 0) }

/-- A withheld record: VALID clear, HELD set, the values of the last VALID record; INV and SAT by the flags that reached the session
in the frame, and INV for an ANOMALY that is NaN (R139). -/
def heldRecord (n frame token : Nat) (x : Sess) : Record :=
  let r : Record := x.lastValid.getD ⟨List.replicate 12 0, 0, 0, 0, 0, 0, 0, 0⟩
  let inv := bitSet x.frameFlags 0 || bitSet x.frameFlags 3 || Fmt.f32.isNan r.anomaly
  { r with frameLo := frame % 2 ^ 32, token := token, model := x.modelActive, session := n
           flags := recHeld + (if bitSet x.frameFlags 1 then recSat else 0) + (if inv then recInv else 0) }

/-- The record of a session that did not advance: a copy of its last record with NOT_ADVANCED (R139). `last` is the last
record written since it entered OPEN. -/
def notAdvanced (n frame : Nat) (x : Sess) (last : Option Record) : Record :=
  match last with
  | some r => { r with frameLo := frame % 2 ^ 32, flags := (r.flags ||| recNotAdvanced) }
  | none => { values := List.replicate 12 0, anomaly := 0, frameLo := frame % 2 ^ 32, token := x.lastToken,
              model := x.modelActive, classcode := 0, flags := recNotAdvanced, session := n }

/-- The raw output word as its fields: bits [15:12] of each code are ignored (Table 4.9, R137). -/
def rawOf (w : Nat) (state : List Byte) : RawCopy :=
  ⟨(List.range 12).map (fun k => bits w (16 * k) 12), bits w 192 32, bits w 224 8, state⟩

def midsOf (s : State) (c : Nat) : List Nat := match look s.eng.books c with | some b => b.mids | none => []
def edgesOf (s : State) (c : Nat) : List Nat := match look s.eng.books c with | some b => b.edges | none => []

/-- The state a switch forms (R142, R143): carried when the shape is kept and no entry governs, mapped by the governing
entry, else the INIT of the incoming model. -/
def adaptState (old new : Option Model) (st : List Byte) : List Byte :=
  match new with
  | none => st
  | some n =>
    match old with
    | none => n.init
    | some o =>
      match governing o n with
      | some a =>
        if a.mapMode then
          a.entries.foldl (fun acc e =>
            acc.take e.dst ++ (st.drop e.src).take e.len ++ acc.drop (e.dst + ((st.drop e.src).take e.len).length)) n.init
        else n.init
      | none => if o.shape = n.shape then st else n.init

end Sys2Proof.Machine
end

