-- ==== Sys2Proof/Machine/Ring.lean ====
section
/-! DEFINITION. Control records, checkpoints, the capture rings and export (05). -/
namespace Sys2Proof.Machine

open Sys2Proof

def ringSrc : Nat := 0x4031
def ckptSrc : Nat := 0x4030

/-! ## Control records (R169, Table 5.7) -/

/-- A record of the frame in progress, and one of the next frame to start. -/
def addCtrl (c : Ctrl) (s : State) : State := { s with eng := { s.eng with controls := s.eng.controls ++ [c] } }
def addNext (c : Ctrl) (s : State) : State := { s with eng := { s.eng with nextControls := s.eng.nextControls ++ [c] } }
def ctrlDesc (n : Nat) (d : Desc) (c : Count) : Ctrl := ⟨1, 0, n, 0, c, .desc d⟩
def ctrlSwitch (n model : Nat) (c : Count) (digest : List Byte) : Ctrl := ⟨2, 0, n, model, c, .bytes (digest.take 32)⟩
def ctrlAdvance (n k phase : Nat) : Ctrl := ⟨3, 0, n, k % 256 + phase % 256 * 256, 0, .none⟩
def ctrlInvalidate (n cause : Nat) : Ctrl := ⟨4, 0, n, cause, 0, .none⟩
def ctrlRestore (n frame which : Nat) : Ctrl := ⟨5, which, n, if which = 2 then 0 else frame % 2 ^ 32, 0, .none⟩
def ctrlRebind (l p : Nat) : Ctrl := ⟨6, 0, 0xFFFF, l % 256 + p % 256 * 256, 0, .none⟩
def ctrlImage (nL : Nat) (digest : List Byte) : Ctrl := ⟨7, 0, 0xFFFF, nL, 0, .bytes (digest.take 32)⟩
/-- A change of LONG_CAPTURE. R169 gives a record 64 bytes of payload and R171's form is 1,280 bytes: the model carries it in 20
SELECT records that follow each other, each with the next 64 bytes, and gives them SESSION 0xFFFF, which Table 5.6 states for IMAGE
alone (DESIGN CHOICE, log 85). -/
def ctrlSelect (bits : List Byte) (c : Count) : List Ctrl :=
  (List.range 20).map (fun i => ⟨8, 0, 0xFFFF, 0, c, .bytes (((bits.drop (64 * i)) ++ List.replicate 64 0).take 64)⟩)

/-- The bitmap that the SELECT records of a frame leave: that of the last change among them, or the one before. -/
def selectAfter (old : List Byte) (cs : List Ctrl) : List Byte :=
  let ks := cs.filter (fun c => c.kind == 8)
  if ks = [] then old
  else
    let bs := (ks.map (fun c => match c.payload with | .bytes b => b | _ => [])).flatten
    bs.drop (bs.length - 1280)

/-- Several records of the next frame to start. -/
def addNexts (cs : List Ctrl) (s : State) : State := { s with eng := { s.eng with nextControls := s.eng.nextControls ++ cs } }

/-! ## Freezing and resuming (R172) -/

/-- The rings freeze. While a replay runs they are frozen already (DESIGN CHOICE, log 51: a write of RING_FREEZE or the end of
FREEZE_MAX_S then acts when the replay ends). A write of 1 to rings that are FROZEN begins FREEZE_MAX_S anew, where R172 is silent
(DESIGN CHOICE, log 85). -/
def freezeRing (s : State) : State :=
  let s1 := setN s Obj.ringFreeze 1
  { s1 with eng := { s1.eng with ring := { s1.eng.ring with
      st := if s1.eng.ring.st = .replaying then .replaying else .frozen
      trigger := none, freezeDue := some (s.clk.cycles + sCycles (getN s Obj.freezeMaxS)) } } }

/-- What RING_STATE is when nothing freezes it: recording while frames run, else idle (R168). -/
def ringRest (s : State) : RingState := if s.part.st = .run then .recording else .idle

/-- Nothing is held any more; of the images only the one in force still counts. -/
def Rings.discard (r : Rings) : Rings :=
  { r with blocks := [], bases := [], dec := [], decBases := [], exp := none, images := r.images.drop (r.images.length - 1) }

/-- On resuming every block and base already held is discarded, and exports in progress end (R172). Rings that are not frozen
go on as they are. -/
def resumeRing (s : State) : State :=
  let s1 := setN s Obj.ringFreeze 0
  if s.eng.ring.st = .frozen then
    let open_ := (s.oda.sessions.map (fun p => (p.2.blocks.filter (fun b => b.2.key == Blob.ringExport && !b.2.write)).map (·.1))).flatten
    { s1 with eng := { s1.eng with ring := { s1.eng.ring.discard with
        st := ringRest s, freezeDue := none, exports := s1.eng.ring.exports ++ open_ } } }
  else { s1 with eng := { s1.eng with ring := { s1.eng.ring with freezeDue := none } } }

/-- A trigger event of kind `bit` of TRIGGER_MASK (Table 5.9): it starts the post-trigger interval, or is only counted
during one or during a freeze. -/
def ringTrigger (bit : Nat) (s : State) : State :=
  let r := s.eng.ring
  let sel := bitSet (getN s Obj.triggerMask) bit
  let busy := r.trigger.isSome || r.st == .frozen || r.st == .replaying
  { s with eng := { s.eng with ring := { r with
      trigger := if sel && !busy then some (s.clk.cycles + msCycles (getN s Obj.postTriggerMs)) else r.trigger
      trigsIgnored := if sel && busy then r.trigsIgnored + 1 else r.trigsIgnored } } }

/-- During a replay every write of this chapter's objects but REPLAY_CTRL ABORT and RING_FREEZE aborts (R179). -/
def replayHome (s : State) : Nat := if s.eng.ring.replay = .running then 0x00070503 else 0

/-- RING_FREEZE: a write of 1. -/
def execRingFreeze (au : Auth) (s : State) : Out :=
  .next (writeStep au Obj.ringFreeze.key (.num 1) noHome (fun _ s => freezeRing s) s)

/-- RING_RESUME: a write of 0. -/
def execRingResume (au : Auth) (s : State) : Out :=
  .next (writeStep au Obj.ringFreeze.key (.num 0) noHome (fun _ s => resumeRing s) s)

/-- POST_TRIGGER_EXPIRY: POST_TRIGGER_MS after the trigger the rings freeze. -/
def execPostTriggerExpiry (s : State) : Out :=
  match s.eng.ring.trigger with
  | none => .next s
  | some due => .next (freezeRing (tickTo due s))

/-- FREEZE_MAX_EXPIRY: FREEZE_MAX_S after the freeze the rings resume. -/
def execFreezeMaxExpiry (s : State) : Out :=
  match s.eng.ring.freezeDue with
  | none => .next s
  | some due => .next (resumeRing (tickTo due s))

/-! ## Long capture (R171) -/

/-- The sessions a bitmap selects: bit s mod 8 of byte s / 8. -/
def selectedOf (bs : List Byte) : List Nat :=
  (bs.zipIdx.map (fun p => ((List.range 8).filter (bitSet p.1.toNat)).map (8 * p.2 + ·))).flatten

/-- The sessions selected for the blocks: a change of LONG_CAPTURE acts in the frame that carries its SELECT record. -/
def selected (s : State) : List Nat := selectedOf s.eng.ring.select

def longCaptureHome (bs : List Byte) (s : State) : Nat :=
  if replayHome s ≠ 0 then replayHome s
  else if decide (256 < (selectedOf bs).length) then 0x00040501 else 0

def longCaptureEffect (bs : List Byte) (c : Count) (s : State) : State :=
  let clean := if bs.all (· == 0) then [] else bs
  addNexts (ctrlSelect bs c) (setBlob s Blob.longCapture clean)

/-- LONG_CAPTURE_WRITE. -/
def execLongCaptureWrite (au : Auth) (bytes : List Byte) (s : State) : Out :=
  .next (writeStep au Blob.longCapture (.bytes bytes) (longCaptureHome bytes) (longCaptureEffect bytes) s)

/-! ## Writing blocks (R168 to R171) -/

/-- RECORD_CRC over every record of the frame, in ascending session order (Table 5.5). -/
def recordCrc (records : Map Record) : Nat := crc64 ((records.map (fun p => p.2.bytes)).flatten)

def blockSize (b : RingBlock) : Nat :=
  64 + (if b.ledger.skipped then 0 else 20480) + 4 * b.yrefs.length + 16 * b.ledger.entries.length + 80 * b.controls.length

/-- L of R160 for the frame period, in bytes. -/
def stateLimit (s : State) : Nat := 1638400 * (frameNs s / 1000)

/-- What the full ring has for blocks: 6,554 MiB less the two checkpoint buffers and the six bases (R160, R170, 14 R407). -/
def blockRoom (s : State) : Nat := 6554 * 1048576 - 8 * (stateLimit s + 1720352)

/-- Drop the oldest base, and the blocks before the next one, until the blocks fit; with no base left the oldest block goes
(R170). `at_` gives a block's frame and `size` its bytes. -/
def fitBlocks {α : Type} (at_ size : α → Nat) (room : Nat) : Nat → List Ckpt × List α → List Ckpt × List α
  | 0, r => r
  | k + 1, (bases, bs) =>
    if (bs.map size).sum ≤ room then (bases, bs)
    else
      match bases with
      | _ :: b :: t => fitBlocks at_ size room k (b :: t, bs.filter (fun x => decide (b.frame ≤ at_ x)))
      | _ => fitBlocks at_ size room k ([], bs.drop 1)

def decSize (b : DecBlock) : Nat := 24 + 2 * b.sel.length + 4 * b.yrefs.length + 80 * b.controls.length

/-- What the decimated ring has for blocks: 1.5 GiB less the bases it holds (R171). -/
def decRoom (r : Rings) : Nat := 1536 * 1048576 - (r.decBases.map Ckpt.length).sum

def fitRing (s : State) (r : Rings) : Rings :=
  let a := fitBlocks (·.ledger.frame) blockSize (blockRoom s) (r.blocks.length + 6) (r.bases, r.blocks)
  let b := fitBlocks (·.frame) decSize (decRoom r) (r.dec.length + 6) (r.decBases, r.dec)
  { r with bases := a.1, blocks := a.2, decBases := b.1, dec := b.2 }

def keepFor (sel : List Nat) (c : Ctrl) : Bool := sel.contains c.session || c.kind == 8

/-- The ledger of a frame is kept in LPDDR4X, one for each frame number (02 R67; log 26). -/
def noteLedger (l : FrameLedger) (s : State) : State := { s with eng := { s.eng with ledgers := put s.eng.ledgers l.frame l } }

/-- The ledger of a frame is kept, and its block enters both rings while they record (R168, R169, R171). -/
def writeBlock (b : RingBlock) (records : Map Record) (s0 : State) : State :=
  let s := noteLedger b.ledger s0
  if s.eng.ring.st ≠ .recording then s
  else
    let sel := selected s
    let r := s.eng.ring
    let d : DecBlock := ⟨sel, b.ledger.frame, b.ledger.flags, recordCrc (records.filter (fun p => sel.contains p.1)),
      b.tokens.filter (fun p => sel.contains p.1), b.yrefs.filter (fun p => sel.contains p.1), b.controls.filter (keepFor sel)⟩
    let r1 := fitRing s { r with blocks := r.blocks ++ [b], dec := if sel = [] then r.dec else r.dec ++ [d] }
    { s with eng := { s.eng with ring := r1 } }

/-! ## Checkpoints (R159 to R161) -/

def baseInterval (s : State) : Nat := 16384 / 2 ^ (getN s Obj.framePeriod)
def decInterval (s : State) : Nat := 491520 / 2 ^ (getN s Obj.framePeriod)

def newestCkpt (s : State) : Option Ckpt := if s.eng.newest = 0 then s.eng.bufA else s.eng.bufB
def otherCkpt (s : State) : Option Ckpt := if s.eng.newest = 0 then s.eng.bufB else s.eng.bufA

def entryIn (k : Option Ckpt) (n : Nat) : Option CkptEnt := k.bind (fun k => k.entries.find? (fun e => e.session == n))

/-- The INIT of a model. -/
def initOf (s : State) (model : Nat) : List Byte := match modelOf s model with | some m => m.init | none => []

/-- A session's entry for the checkpoint named by frame c (Table 5.3). A poisoned copy keeps STATE, STATE_FRAME and INIT of the
previous committed checkpoint with CARRIED set (R161); a session that has none there starts from INIT. -/
def ckptEntry (last : Option Ckpt) (s : State) (c n : Nat) (x : Sess) : CkptEnt :=
  let prev := entryIn last n
  let init := initOf s x.modelNow
  let e : CkptEnt := ⟨n, false, x.st == .pending, c, x.eff, x.yref, x.lastCode, x.held, x.lastValid, x.modelActive, x.k, x.phase,
    if x.st = .pending then init else x.state⟩
  if x.copyBad || x.lost then
    (match prev with
     | some p => { e with carried := true, init := p.init, state := p.state, stateFrame := p.stateFrame }
     | none => { e with carried := true, init := true, state := init })
  else e

/-- The checkpoint named by frame c, with `last` the one committed before it. -/
def takeCkpt (last : Option Ckpt) (s : State) (c : Nat) : Ckpt :=
  ⟨c, getN s Obj.launchAt + c * frameNs s, (liveSessions s).map (fun p => ckptEntry last s c p.1 p.2)⟩

/-- A checkpoint begins at the end of frame n, n mod 64 = 63. One still unwritten by then was not committed in time:
CKPT_STALE and CKPT_FAILURES (R160, 11 Table 11.3). -/
def beginCkpt (n : Nat) (s : State) : State :=
  let k := takeCkpt (newestCkpt s) s (n + 1)
  let late := s.eng.writing.isSome
  let s1 := seqStart 0 k.length { s with eng := { s.eng with writing := some k, ckptStale := late } }
  if late then inc32 s1 Obj.ckptFailures else s1

def keepBases (l : List Ckpt) (k : Ckpt) : List Ckpt := if l.length < 6 then l ++ [k] else l.drop 1 ++ [k]

/-- Every frame from f on that has ended stands in a ring: a replay can start at f (R170, R172). -/
def ringHolds (s : State) (frames : List Nat) (f : Nat) : Bool :=
  frames.contains f || decide ((if s.eng.mainDone then s.eng.next else s.eng.frame) ≤ f)

/-- The committed checkpoint becomes a base at the base intervals while the rings record (R170, R171), where they hold the blocks that
follow it: RING_OLDEST names a frame that can be replayed. -/
def addBases (k : Ckpt) (s : State) : State :=
  if s.eng.ring.st ≠ .recording then s
  else
    let r := s.eng.ring
    let full := k.frame % baseInterval s = 0 && ringHolds s (r.blocks.map (·.ledger.frame)) k.frame
    let dec := k.frame % decInterval s = 0 && selected s ≠ [] && ringHolds s (r.dec.map (·.frame)) k.frame
    let bases := if full then keepBases r.bases k else r.bases
    let oldest := (bases.head?.map (·.frame)).getD 0
    let sel := selected s
    let decBases := if dec then keepBases r.decBases { k with entries := k.entries.filter (fun e => sel.contains e.session) } else r.decBases
    let decOld := (decBases.head?.map (·.frame)).getD 0
    { s with eng := { s.eng with ring := { r with
        bases := bases, decBases := decBases
        blocks := r.blocks.filter (fun b => decide (oldest ≤ b.ledger.frame))
        dec := r.dec.filter (fun b => decide (decOld ≤ b.frame)) } } }

/-- The last entry and the header are written: the checkpoint is committed into the older buffer (R160), whose words are sound again.
CKPT_BYTES takes the length of the entries with their heads, as BYTES of Table 5.2; its range 0 to L of Table 5.9 would be that of the
states alone (DESIGN CHOICE, log 85). -/
def commitCkpt (s : State) : State :=
  match s.eng.writing with
  | none => s
  | some k =>
    if seqWaits s 0 then s else
    let base := Config.ckptBase (1 - s.eng.newest)
    let s1 := { s with mem := { s.mem with poison := s.mem.poison.filter (fun g => !(decide (base ≤ g) && decide (g < base + 32 + k.length))) }
                       eng := { s.eng with
      bufA := if s.eng.newest = 0 then s.eng.bufA else some k
      bufB := if s.eng.newest = 0 then some k else s.eng.bufB
      newest := 1 - s.eng.newest, writing := none, ckptStale := false
      writes := s.eng.writes.filter (fun w => decide (k.start ≤ w.count)) } }
    signalCell 4 1 (seqFinish 0 (addBases k (setN (setN s1 Obj.ckptFrame k.frame) Obj.ckptBytes k.length)))

/-- CHECKPOINT_COMMIT. -/
def execCheckpointCommit (s : State) : Out := noted <| .next (commitCkpt s)

/-! ## Restoring sessions (R162 to R164) -/

/-- Where the entry of a session stands in a buffer, from its base on: behind the header and the entries before it (Tables 5.2, 5.3). -/
def entrySpan (k : Ckpt) (n : Nat) : Nat × Nat :=
  let size (es : List CkptEnt) : Nat := (es.map (fun e => 168 + (pad8 e.state).length)).sum
  (32 + size (k.entries.takeWhile (fun e => e.session != n)), size (k.entries.filter (fun e => e.session == n)))

/-- An entry holds a word of LPDDR4X with an uncorrectable error (R164). Where the buffers stand in the full ring is open (log 8). -/
def entryBad (s : State) (buf : Nat) (k : Option Ckpt) (n : Nat) : Bool :=
  match k with
  | none => false
  | some k =>
    let p := entrySpan k n
    s.mem.poison.any (fun g => decide (Config.ckptBase buf + p.1 < g + 8) && decide (g < Config.ckptBase buf + p.1 + p.2))

def newestBad (s : State) (n : Nat) : Bool := entryBad s s.eng.newest (newestCkpt s) n
def otherBad (s : State) (n : Nat) : Bool := entryBad s (1 - s.eng.newest) (otherCkpt s) n

/-- The entry a restore uses, and which of the three happened: 0 newest buffer, 1 other buffer, 2 INIT (R164). The other buffer
serves only an entry of the newest that fails; `badNew` and `badOld` are the sessions whose entries fail, beside those that hold an
uncorrectable word. -/
def restoreEntry (s : State) (badNew badOld : List Nat) (n : Nat) : Option CkptEnt × Nat :=
  match entryIn (newestCkpt s) n with
  | none => (none, 2)
  | some e =>
    if !(badNew.contains n) && !(newestBad s n) then (some e, 0)
    else if badOld.contains n || otherBad s n then (none, 2)
    else match entryIn (otherCkpt s) n with | some e => (some e, 1) | none => (none, 2)

/-- The entry in the checkpoint committed before a given frame, where one is named (R162): the newest may have changed since. -/
def restoreEntryAt (s : State) (base : Option (Option Nat)) (n : Nat) : Option CkptEnt × Nat :=
  match base with
  | none => restoreEntry s [] [] n
  | some none => (none, 2)
  | some (some b) =>
    if (newestCkpt s).map (·.frame) = some b then restoreEntry s [] [] n
    else if (otherCkpt s).map (·.frame) = some b then
      (match entryIn (otherCkpt s) n with | some e => if otherBad s n then (none, 2) else (some e, 1) | none => (none, 2))
    else (none, 2)

/-- State and Teff state from an entry, or from INIT with a Teff state as at open. -/
def restoreState (s : State) (e : Option CkptEnt) (x : Sess) : Sess :=
  match e with
  | some e =>
    { x with state := e.state, fresh := true, yref := e.yref, lastCode := e.lastCode, held := e.held, poisoned := false, copyBad := false }
  | none => { x with state := initOf s x.modelActive, fresh := true, yref := none, lastCode := 0, held := 0, poisoned := false, copyBad := false }

/-! ## Export (R173) -/

def ringOldest (s : State) : Nat := (s.eng.ring.bases.head?.map (·.frame)).getD u64
def ringNewest (s : State) : Nat := (s.eng.ring.blocks.getLast?.map (·.ledger.frame)).getD u64
def decOldest (s : State) : Nat := (s.eng.ring.decBases.head?.map (·.frame)).getD u64

/-- The base an export begins with: the latest at or before EXPORT_FROM. -/
def exportBase (s : State) : Option Ckpt :=
  let bs := if getN s Obj.exportWhich = 1 then s.eng.ring.decBases else s.eng.ring.bases
  (bs.filter (fun b => decide (b.frame ≤ getN s Obj.exportFrom))).getLast?

/-- The range check of the first BLOCK read of RING_EXPORT. -/
def exportStatus (s : State) : Nat :=
  if s.eng.ring.st ≠ .frozen then 0x00070504
  else if ringNewest s = u64 || decide (ringNewest s < getN s Obj.exportTo) || (exportBase s).isNone then 0x00040502
  else 0

/-- The images in force from one frame to another: first frame, N_L and digest. -/
def imagesIn (s : State) (first last : Nat) : List (Nat × Nat × List Byte) :=
  let at_ := s.eng.ring.images.filter (fun p => decide (p.1 ≤ last))
  let before := (at_.filter (fun p => decide (p.1 ≤ first))).length - 1
  at_.drop before

/-- The bytes of RING_EXPORT (Table 5.10 and the six parts of R173). -/
def exportBytes (s : State) : List Byte :=
  match exportBase s with
  | none => []
  | some base =>
    let last := getN s Obj.exportTo
    let inR (f : Nat) : Bool := decide (base.frame ≤ f) && decide (f ≤ last)
    let full := s.eng.ring.blocks.filter (fun b => inR b.ledger.frame)
    let dec := s.eng.ring.dec.filter (fun b => inR b.frame)
    let which := getN s Obj.exportWhich
    let ctrls := if which = 1 then (dec.map (·.controls)).flatten else (full.map (·.controls)).flatten
    let descs := ctrls.filterMap (fun c => match c.payload with | .desc d => some d | _ => none)
    let imgs := imagesIn s base.frame last
    let ms := ((base.entries.map (fun e => if e.modelActive = 0xFFFF then e.desc.model else e.modelActive)) ++
      (ctrls.filter (fun c => c.kind == 2)).map (·.aux) ++ (descs.filter (·.openBit)).map (·.model)).eraseDups
    let mlist := ms.filterMap (fun m => (modelOf s m).map (fun x => (m, x.digest)))
    let books := ((base.entries.map (fun e => e.desc.codebook)) ++ descs.map (·.codebook)).eraseDups
    let blist := books.filterMap (fun b => (look s.eng.books b).map (fun x => (b, x)))
    let baseBytes := leBytes 8 base.frame ++ leBytes 2 base.entries.length ++ leBytes 6 0 ++ leBytes 8 base.length ++ leBytes 8 base.crc ++
      (base.entries.map CkptEnt.bytes).flatten
    let blocks := if which = 1 then (dec.map DecBlock.bytes).flatten else (full.map RingBlock.bytes).flatten
    let head (crc : Nat) : List Byte :=
      leBytes 2 1 ++ leBytes 1 which ++ leBytes 1 1 ++ leBytes 1 (imgs.head?.elim 0 (·.2.1)) ++
      leBytes 1 (getN s Obj.framePeriod) ++ leBytes 2 0 ++ leBytes 8 base.frame ++ leBytes 8 last ++ leBytes 2 imgs.length ++
      leBytes 2 mlist.length ++ leBytes 2 blist.length ++ leBytes 2 0 ++ leBytes 8 baseBytes.length ++ leBytes 8 blocks.length ++
      (((lookD s.ident.consts 0x100004 []) ++ List.replicate 8 0).take 8) ++ leBytes 8 crc
    let rest := (imgs.map (fun p => leBytes 8 p.1 ++ (p.2.2 ++ List.replicate 32 0).take 32)).flatten ++
      (mlist.map (fun p => leBytes 2 p.1 ++ leBytes 6 0 ++ (p.2 ++ List.replicate 32 0).take 32)).flatten ++
      (blist.map (fun p => leBytes 2 p.1 ++ leBytes 6 0 ++ p.2.bytes)).flatten ++ baseBytes ++ blocks
    head (crc64 (head 0 ++ rest)) ++ rest

/-! ## Footprints (10 R303) -/

def sessionsOpen (s : State) : Nat := ((liveSessions s).filter (fun p => p.2.st != .pending)).length

def ceilDiv (a b : Nat) : Nat := (a + b - 1) / b

def tierTiles (i : Image) (ls : List Nat) (t : Nat) : List Nat :=
  ls.filter (fun l => match i.ltiles[l]? with | some e => e.tier == t | none => false)

def foldMaxOf (i : Image) (ls : List Nat) (t : Nat) : Nat :=
  if t = 0 then 1
  else ((tierTiles i ls t).map (fun l => match i.ltiles[l]? with | some e => e.foldMax | none => 1)).foldl min 4

/-- The least footprint of an image's domain: tier-0 tiles and the folded tiers at their largest fold (10 R303). -/
def leastFootprint (i : Image) (ls : List Nat) : Nat :=
  (tierTiles i ls 0).length + ceilDiv (tierTiles i ls 1).length (foldMaxOf i ls 1) +
    ceilDiv (tierTiles i ls 2).length (foldMaxOf i ls 2)

def domainLtiles (i : Image) (d : Nat) : List Nat :=
  if d = 0 then List.range i.n0 else (List.range i.nL).filter (fun l => decide (i.n0 ≤ l))

/-- The usable tiles of a domain, spares aside (06 R199). -/
def usableTiles (s : State) (d : Nat) : Nat :=
  ((List.finRange 68).filter (fun t => decide (t.val / 34 = d) && !(s.eng.tiles.get t).testing &&
    ((s.eng.tiles.get t).st == .gated || (s.eng.tiles.get t).st == .active))).length

end Sys2Proof.Machine
end

