-- ==== Sys2Proof/Machine/Image.lean ====
section
/-! DEFINITION. Schedule images and the binding (06): the image store and its load checks, arming and activation, plans,
holds and switches, spare replacement, and the loss of a domain. -/
namespace Sys2Proof.Machine

open Sys2Proof

def imageSrc : Nat := 0x4044
def domainSrc : Nat := 0x4046

/-- The start count of frame n (02 R63). -/
def startOf (s : State) (n : Nat) : Count := getN s Obj.launchAt + n * frameNs s

def setImg (f : Images → Images) (s : State) : State := { s with img := f s.img }
def setEng (f : Engine → Engine) (s : State) : State := { s with eng := f s.eng }

/-! ## The image store (R190, R191) -/

def imageHome (i : Fin 4) (s : State) : Nat :=
  if (s.img.store.get i).st = .armed || (s.img.store.get i).st = .inForce then 0x00070104 else 0

def imageEffect (i : Fin 4) (bs : List Byte) (_ : Count) (s : State) : State :=
  setN (setImg (fun m => { m with store := vupd m.store i (fun _ => ⟨if bs = [] then .empty else .verifying, bs, none⟩) }) s)
    (Obj.imageError i.val) 0

/-- SCHED_IMAGE_WRITE: an accepted BLOCK write. -/
def execSchedImageWrite (au : Auth) (i : Fin 4) (bytes : List Byte) (s : State) : Out :=
  .next (writeStep au (0x404000 + i.val) (.bytes []) (imageHome i) (imageEffect i bytes) s)

def periodCycles (p : Nat) : Nat := 31250 * 2 ^ p
def guardCycles (p : Nat) : Nat := 32 * 2 ^ p

def primaryLanes (x : Image) : List Nat :=
  (List.range x.lanes.length).filter (fun k => match x.lanes[k]? with | some e => isPrimary k e | none => false)

/-- 0x0004_0601: fields in their ranges, section layout, digest of the layout, and STATE_TOTAL over the checkpoint map,
which names each primary lane once (Table 6.9). -/
def imageFields (x : Image) : Bool :=
  x.format == 1 && decide (x.period ≤ 3) && decide (1 ≤ x.nL) && decide (x.nL ≤ 64) && decide (x.n0 ≤ x.nL) &&
  decide (x.n0 ≤ 32) && decide (x.nL - x.n0 ≤ 32) && decide (1 ≤ x.sections) && decide (x.sections ≤ 512) &&
  decide (x.totalBytes ≤ 268435456) && decide (1 ≤ x.lanes.length) && decide (x.lanes.length ≤ 20480) &&
  decide (x.p0Lanes ≤ 512) && decide (x.boardBytes ≤ 2097152) && x.ltiles.length == x.nL &&
  x.ltiles.all (fun t => decide (t.tier ≤ 2) && [1, 2, 4].contains t.foldMax && decide (1 ≤ t.pairs) && decide (t.pairs ≤ 12) &&
    decide (t.ownerInit < 4096) && decide (1 ≤ t.bundles) && decide (t.bundles ≤ 4096)) &&
  x.slots.all (fun e => decide (e.ltile < x.nL) && decide (e.slot < 64)) &&
  x.lanes.all (fun e => decide (e.ltile < x.nL) && decide (e.cls < 3) && (match e.twin with | some t => decide (t < x.lanes.length) | none => true)) &&
  x.board.all (fun e => decide (1 ≤ e.region) && decide (e.region ≤ 4)) && x.fieldsOk && x.layoutOk &&
  x.stateTotal == (x.ckptMap.map (·.length)).sum && (x.ckptMap.map (·.lane)).mergeSort == primaryLanes x

/-- 0x0004_0605: STATE_TOTAL above L, or a tile above 32 bytes × period in ns (R188). -/
def imageState (s : State) (x : Image) : Bool :=
  decide (x.stateTotal ≤ stateLimit s) && x.ltiles.all (fun t => decide (t.stateBytes ≤ 32 * (25000 * 2 ^ x.period)))

/-- The tier list of the domain of a logical tile, in ascending index. -/
def tierListOf (x : Image) (l : Nat) : List Nat :=
  let t := match x.ltiles[l]? with | some e => e.tier | none => 0
  tierTiles x (domainLtiles x (if l < x.n0 then 0 else 1)) t

/-- R189 for one lane with a twin. -/
def twinOk (x : Image) (k : Nat) (e : LaneEnt) : Bool :=
  match e.twin with
  | none => !x.lockstep
  | some t =>
    match x.lanes[t]? with
    | none => false
    | some f =>
      let tier (l : Nat) : Nat := match x.ltiles[l]? with | some q => q.tier | none => 0
      let a := (tierListOf x e.ltile).idxOf e.ltile
      let b := (tierListOf x f.ltile).idxOf f.ltile
      f.twin == some k && e.ltile != f.ltile && decide (e.ltile < x.n0) == decide (f.ltile < x.n0) && tier e.ltile == tier f.ltile &&
        (tier e.ltile == 0 || (a != b && (max a b - min a b) % 4 == 0))

/-- 0x0004_0607: the rules of R187, R188 and R189, and addresses inside the tile's PAIRS. -/
def imageRules (x : Image) : Bool :=
  (List.range x.ltiles.length).all (fun l =>
    match x.ltiles[l]? with
    | none => true
    | some t =>
      let cs := (x.lanes.filter (fun e => e.ltile == l)).map (·.cls)
      let low := cs.foldl min 3
      (if cs.contains 0 then t.tier == 0 else decide (t.tier ≤ low)) && (!t.sends || t.tier == 0) &&
        (if t.tier = 0 then t.foldMax == 1 else true) && decide (t.pairs ≤ 12 / t.foldMax) && decide (t.bundles ≤ 4096 / t.foldMax)) &&
  (List.range x.lanes.length).all (fun k => match x.lanes[k]? with | some e => twinOk x k e | none => true) &&
  x.slots.all (fun e => match x.ltiles[e.ltile]? with | some t => decide (e.addr < t.pairs * 0x20000) | none => false) &&
  x.lanes.all (fun e => match x.ltiles[e.ltile]? with | some t => decide (e.stateAddr < t.pairs * 0x20000) | none => false)

def p0Primary (x : Image) : Nat :=
  ((primaryLanes x).filter (fun k => match x.lanes[k]? with | some e => e.cls == 0 | none => false)).length

/-- The load checks in the order of Table 6.9; 0 when all pass. A tile's END falls at the period in cycles minus the guard at
the latest. -/
def checkImage (s : State) (bs : List Byte) (x : Image) : Nat :=
  let limit := periodCycles x.period - guardCycles x.period
  let trs := x.ltiles.map (traceOf (limit + 1))
  if !(imageFields x) then 0x00040601
  else if x.contract ≠ 1 then 0x00040602
  else if !(signedBy s bs x.sigOff) then 0x00090601
  else if x.period ≠ getN s Obj.framePeriod then 0x00040603
  else if decide (x.emitStart < 6400) || decide (limit - 2048 < x.emitStart) || trs.any (fun tr => (endOf tr).isNone) then 0x00040604
  else if !(imageState s x) then 0x00040605
  else if !(scheduleOk x.n0 trs) then 0x00040606
  else if !(imageRules x) then 0x00040607
  else if decide (512 < p0Primary x) || x.board.any (fun e => decide (x.boardBytes < e.offset + e.length)) then 0x00040608
  else 0

/-- SCHED_IMAGE_CHECKED: the entry becomes VALID, or REFUSED with the code of the first failing check. -/
def execSchedImageChecked (i : Fin 4) (s : State) : Out :=
  let e := s.img.store.get i
  if e.st ≠ .verifying then .next s
  else
    let x := parseImage e.bytes
    let code := checkImage s e.bytes x
    .next (setN (setImg (fun m => { m with store := vupd m.store i (fun _ =>
      if code = 0 then ⟨.valid, e.bytes, some x⟩ else ⟨.refused, e.bytes, none⟩) }) s) (Obj.imageError i.val) code)

/-! ## Plans (R199 to R203) -/

/-- The SPARE tiles that stand in for failed tiles (R199): the lowest-numbered, one for each FAILED tile that no spare replaces yet. -/
def sparesDue (s : State) (d : Nat) : List (Fin 68) :=
  let ts := (List.finRange 68).filter (fun t => decide (t.val / 34 = d))
  let failed := ts.filter (fun t => (s.eng.tiles.get t).st == .failed && !(s.ident.spare.contains t.val))
  let used := ts.filter (fun t => s.ident.spare.contains t.val && ((s.eng.tiles.get t).st == .active || (s.eng.tiles.get t).st == .gated))
  (ts.filter (fun t => (s.eng.tiles.get t).st == .spare)).take (failed.length - used.length)

/-- U of a domain: SPARE tiles in place of failed ones, and all of them where the other domain is LOST. A tile whose self-test runs is
in no plan yet. -/
def usableOf (s : State) (d : Nat) (spares : Bool) : List Nat :=
  ((List.finRange 68).filter (fun t => decide (t.val / 34 = d) &&
    !(s.eng.tiles.get t).testing && ((s.eng.tiles.get t).st == .gated ||
    (s.eng.tiles.get t).st == .active || ((spares || (sparesDue s d).contains t) && (s.eng.tiles.get t).st == .spare)))).map (·.val)

/-- The logical tiles domain d carries, in list order: its own, then those of the other domain when that is LOST (R210). -/
def carried (s : State) (x : Image) (d : Fin 2) : List Nat :=
  if s.img.lostDom.get d then []
  else domainLtiles x d.val ++ (if s.img.lostDom.get (1 - d) then domainLtiles x (1 - d.val) else [])

/-- The outcome of PLAN: fold factors and the unparked tiles of the three tiers in list order. -/
structure PlanOut where
  f1 : Nat
  f2 : Nat
  t0 : List Nat
  t1 : List Nat
  t2 : List Nat
  deriving DecidableEq, Repr

/-- The list without its k highest-indexed tiles. -/
def parkHighest (k : Nat) (l : List Nat) : List Nat := l.filter (fun a => decide (k ≤ (l.filter (fun b => decide (a < b))).length))

def foldSteps (fmax : Nat) : List Nat := [1, 2, 4].filter (fun f => decide (f ≤ fmax))

/-- PLAN of R200 on three tier lists: folding towards u tiles, parking only where `room` tiles do not hold the rest. -/
def planLists (l0 l1 l2 : List Nat) (fm1 fm2 u room : Nat) : PlanOut :=
  let need (f1 f2 k0 k1 k2 : Nat) : Nat := (l0.length - k0) + ceilDiv (l1.length - k1) f1 + ceilDiv (l2.length - k2) f2
  let f2 := ((foldSteps fm2).find? (fun f => decide (need 1 f 0 0 0 ≤ u))).getD fm2
  let f1 := ((foldSteps fm1).find? (fun f => decide (need f f2 0 0 0 ≤ u))).getD fm1
  let p2 := ((List.range (l2.length + 1)).find? (fun k => decide (need f1 f2 0 0 k ≤ room))).getD l2.length
  let p1 := ((List.range (l1.length + 1)).find? (fun k => decide (need f1 f2 0 k p2 ≤ room))).getD l1.length
  let p0 := ((List.range (l0.length + 1)).find? (fun k => decide (need f1 f2 k p1 p2 ≤ room))).getD l0.length
  ⟨f1, f2, parkHighest p0 l0, parkHighest p1 l1, parkHighest p2 l2⟩

/-- Consecutive groups of f. -/
def groupsOf (f : Nat) (l : List Nat) : List (List Nat) :=
  (List.range (ceilDiv l.length f)).map (fun g => (l.drop (g * f)).take f)

def bindNone (tier : Nat) : Bind := ⟨none, 1, 0, false, tier⟩
def bindAt (bs : List Bind) (l : Nat) : Bind := bs.getD l (bindNone 0)

/-- R201 for one domain: tier-0 and unfolded tiles keep what they hold, the rest take the lowest-numbered free tiles. -/
def bindDomain (old : List Bind) (us : List Nat) (p : PlanOut) : List (Nat × Bind) :=
  let units : List (Nat × Nat × List Nat) :=
    p.t0.map (fun l => (0, 1, [l])) ++ (groupsOf p.f1 p.t1).map (fun g => (1, p.f1, g)) ++ (groupsOf p.f2 p.t2).map (fun g => (2, p.f2, g))
  let held (u : Nat × Nat × List Nat) : Option Nat :=
    if u.2.1 = 1 then (bindAt old (u.2.2.headD 0)).ptile.bind (fun q => if us.contains q then some q else none) else none
  let kept := units.foldl (fun acc u => match held u with
    | some q => if acc.any (fun a => a.2 == q) then acc else acc ++ [(u, q)]
    | none => acc) ([] : List ((Nat × Nat × List Nat) × Nat))
  let all := units.foldl (fun (acc : List ((Nat × Nat × List Nat) × Nat)) u =>
    if acc.any (fun a => a.1 == u) then acc
    else match us.find? (fun q => !(acc.any (fun a => a.2 == q))) with
      | some q => acc ++ [(u, q)]
      | none => acc) kept
  (all.map (fun a => (List.range a.1.2.2.length).map (fun j => (a.1.2.2.getD j 0, (⟨some a.2, a.1.2.1, j, false, a.1.1⟩ : Bind))))).flatten

def tierOf (x : Image) (l : Nat) : Nat := match x.ltiles[l]? with | some e => e.tier | none => 0

/-- N_t: the target of throttle level L for a domain; at L = 0 there is none (10 R303 step 1). -/
def levelTarget (s : State) (d : Fin 2) : Nat :=
  if s.heat.lLevel = 0 then 34
  else ceilDiv (s.ident.active / 2 * (if s.img.lostDom.get (1 - d) then 2 else 1) * (8 - s.heat.lLevel)) 8

/-- USABLE_CAP, the skip divisor D, and whether D cannot meet L (10 R303 steps 3 to 5), over the domains that carry tiles
(DEDUCED, log 28: the larger of the two). -/
def throttleOf (s : State) (x : Image) : Nat × Nat × Bool :=
  if s.heat.lLevel = 0 then (34, 1, false)
  else
    (List.finRange 2).foldl (fun (acc : Nat × Nat × Bool) d =>
      let nMin := leastFootprint x (carried s x d)
      let nT := levelTarget s d
      let dv := if nMin ≤ nT then 1 else (([2, 4, 8] : List Nat).find? (fun k => decide (ceilDiv nMin k ≤ nT))).getD 8
      (max acc.1 (max nT nMin), max acc.2.1 dv, acc.2.2 || decide (nT < ceilDiv nMin dv))) (0, 1, false)

/-- The cap and divisor that the throttle level asks for, with the image given. -/
def setThrottle (x : Image) (s : State) : State := setImg (fun m => { m with cap := (throttleOf s x).1, div := (throttleOf s x).2.1 }) s

/-- With no image in force no tile must run: N_min is 0, and USABLE_CAP is the target alone (10 R303). -/
def bareThrottle (s : State) : State :=
  setImg (fun m => { m with cap := max (levelTarget s 0) (levelTarget s 1), div := 1 }) s

/-- The plan of a domain with the usable tiles it has under R199. -/
def planDomain (s : State) (x : Image) (old : List Bind) (d : Fin 2) : PlanOut × List (Nat × Bind) :=
  let ls := carried s x d
  let us := usableOf s d.val (s.img.lostDom.get (1 - d))
  let tiers (t : Nat) : List Nat := tierTiles x ls t
  let p := planLists (tiers 0) (tiers 1) (tiers 2) (foldMaxOf x ls 1) (foldMaxOf x ls 2) (min us.length (levelTarget s d)) us.length
  (p, bindDomain old us p)

/-- The binding a recomputation gives, with the fold factors shown in FOLD_FACTORS: the larger of the two domains'
(DEDUCED, log 23). -/
def planAll (s : State) (x : Image) (old : List Bind) : List Bind × Nat × Nat :=
  let a := planDomain s x old 0
  let b := planDomain s x old 1
  let got := a.2 ++ b.2
  ((List.range x.nL).map (fun l => ((got.find? (fun g => g.1 == l)).map (·.2)).getD (bindNone (tierOf x l))),
    max a.1.f1 b.1.f1, max a.1.f2 b.1.f2)

/-! ## Bringing a binding into force -/

/-- ADVANCE_K and phase of a bound tile (R203, 10 R303); 0 while it is parked or unbound. -/
def kOf (b : Bind) (dv : Nat) : Nat := match b.ptile with | some _ => dv * b.fold | none => 0
def phaseOf (b : Bind) (s0 dv : Nat) : Nat := if kOf b dv = 0 then 0 else (s0 + dv * b.member) % kOf b dv

def setAdvance (n k phase : Nat) (s : State) : State :=
  addNext (ctrlAdvance n k phase) (updSess n (fun x => { x with k := k, phase := phase, moving := k == 0 }) s)

/-- Sessions on a logical tile. -/
def onTile (s : State) (l : Nat) : List Nat := ((liveSessions s).filter (fun p => p.2.ltile == l)).map (·.1)

/-- An unbound tier-0 tile fails its class P0 sessions (R202). -/
def failP0 (n : Nat) (s : State) : State :=
  raiseMain .p0AdmissionFailed sessSrc n (updSess n (fun x => { x.release with lastError := 0x00070602 }) s)

/-- The first pair and the first bundle address of a fold member (R203). -/
def firstPair (b : Bind) : Nat := b.member * (12 / b.fold)
def firstBundle (b : Bind) : Nat := b.member * (4096 / b.fold)

/-- Whether a key of the SRAM lies in n pairs from p0 on. -/
def inPairs (p0 n k : Nat) : Bool := decide (p0 ≤ k / 8192) && decide (k / 8192 < p0 + n)

/-- Pairs lose their contents and marks before others take their place. -/
def clearPairs (p0 n : Nat) (t : Tile) : Tile :=
  { t with sram := t.sram.filter (fun w => !(inPairs p0 n w.1)), poison := t.poison.filter (fun k => !(inPairs p0 n k)) }

/-- OWNER of a member's pairs, from a word that counts them from 0. -/
def setOwner (p0 n own : Nat) (t : Tile) : Tile :=
  { t with owner := (List.range n).foldl (fun o i => putBit o (p0 + i) (bitSet own i)) t.owner }

/-- Bundles written from an address of a half on, in place of those a member has there. -/
def putCode (half first room : Nat) (code : List Nat) (t : Tile) : Tile :=
  let lo := half * 4096 + first
  let keep := t.imem.filter (fun w => !(decide (lo ≤ w.1) && decide (w.1 < lo + room)))
  { t with imem := code.zipIdx.foldl (fun m w => putD m (lo + w.2) w.1 0) keep
           imemBad := t.imemBad.filter (fun k => !(decide (lo ≤ k) && decide (k < lo + room))) }

/-- The compute banks and bundles of a logical tile that move with it, marks included (R204, R206): pairs and bundle addresses are
offset by its member position, and OWNER goes along. -/
def moveContents (pairs bundles : Nat) (o n : Bind) (src dst : Tile) : Tile :=
  let po := firstPair o
  let pn := firstPair n
  let d0 := setOwner pn pairs (src.owner / 2 ^ po) (clearPairs pn pairs dst)
  let words := (List.range pairs).map (fun i =>
    ((src.sram.filter (fun w => w.1 / 4096 == computeBank src (po + i))).map (fun w => (i, w.1 % 4096, w.2))))
  let marks := (List.range pairs).map (fun i =>
    ((src.poison.filter (fun k => k / 4096 == computeBank src (po + i))).map (fun k => (i, k % 4096))))
  let d1 := words.flatten.foldl (fun d w => wrWord d (pn + w.1) w.2.1 w.2.2 false) d0
  let d2 := marks.flatten.foldl (fun d k => { d with poison := addMark d.poison (sramKey (computeBank d (pn + k.1)) k.2) true }) d1
  putCode d2.ihalf (firstBundle n) (4096 / n.fold)
    ((List.range bundles).map (fun i => lookD src.imem (src.ihalf * 4096 + firstBundle o + i) 0)) { d2 with full := true }

def bindMoved (o n : Bind) : Bool := o.ptile != n.ptile || o.fold != n.fold || o.member != n.member

def tileAt (p : Option Nat) : Option (Fin 68) :=
  match p with
  | some q => if h : q < 68 then some ⟨q, h⟩ else none
  | none => none

/-- The sections of a logical tile stand on the physical tile it is bound to: initial contents, owners and bundles (03 R87,
R185). -/
def loadTile (x : Image) (l : Nat) (s : State) : State :=
  match x.ltiles[l]?, tileAt (bindAt s.img.binds l).ptile with
  | some t, some p =>
    let b := bindAt s.img.binds l
    updTile p (fun y =>
      let y1 := setOwner (firstPair b) (12 / b.fold) t.ownerInit (clearPairs (firstPair b) (12 / b.fold) y)
      let y2 := t.init.foldl (fun y w => wrWord y (firstPair b + w.1 / 4096) (w.1 % 4096) w.2 false) y1
      putCode y2.ihalf (firstBundle b) (4096 / b.fold) t.code { y2 with full := true }) s
  | _, _ => s

/-- The weights of the models that the slots of a logical tile hold. -/
def loadWeights (x : Image) (l : Nat) (s : State) : State :=
  forEach (x.slots.filter (fun e => e.ltile == l)) (fun e s =>
    match slotKey s l e.slot with
    | some key => if slotModelAt s key = 0xFFFF then s else placeWeights (slotModelAt s key) (l, e.slot) s
    | none => s) s

/-- Bundles of an image into the inactive half of every bound tile (R195), with its bytes. -/
def loadBundles (x : Image) (s : State) : State :=
  forEach (List.range x.nL) (fun l s =>
    match x.ltiles[l]?, tileAt (bindAt s.img.binds l).ptile with
    | some t, some p => let b := bindAt s.img.binds l
                        updTile p (fun y => putCode (1 - y.ihalf) (firstBundle b) (4096 / b.fold) t.code y) s
    | _, _ => s) s

def swapHalves (s : State) : State :=
  setEng (fun g => { g with tiles := g.tiles.map (fun y => if y.st = .active then { y with ihalf := 1 - y.ihalf } else y) }) s

/-- A tile that still holds what ran on it: an ACTIVE one, or a FAILED one that a copy reads (R206). -/
def holdsContents (x : Tile) : Bool := x.full && (x.st == .active || x.st == .failed)

/-- A logical tile that stays where it is must be loaded: its tile held nothing, as after a main-die reset (03 Table 3.3). -/
def mustLoad (old new : List Bind) (src : Vector Tile 68) (l : Nat) : Bool :=
  match tileAt (bindAt new l).ptile with
  | some p => !(bindMoved (bindAt old l) (bindAt new l)) && !(src.get p).full && (src.get p).st != .failed
  | none => false

/-- Contents move from the binding `old` to the one in force; a logical tile whose contents no tile holds any more is loaded
from its image. `src` are the tiles as they were. -/
def moveAll (x : Image) (old : List Bind) (src : Vector Tile 68) (s : State) : State :=
  let new := s.img.binds
  let moved := (List.range x.nL).filter (fun l => bindMoved (bindAt old l) (bindAt new l) || mustLoad old new src l)
  forEach moved (fun l s =>
    match x.ltiles[l]?, tileAt (bindAt old l).ptile, tileAt (bindAt new l).ptile with
    | some t, some a, some b =>
      if holdsContents (src.get a) then updTile b (moveContents t.pairs t.bundles (bindAt old l) (bindAt new l) (src.get a)) s
      else loadWeights x l (loadTile x l s)
    | _, _, _ => loadWeights x l (loadTile x l s)) s

/-- Slot contents follow their logical tile. -/
def moveSlots (x : Image) (old new : List Bind) (m : Map Nat) : Map Nat :=
  let key (bs : List Bind) (l k : Nat) : Option Nat :=
    (bindAt bs l).ptile.map (fun p => p * 64 + ((bindAt bs l).member * (64 / (bindAt bs l).fold) + k) % 64)
  (x.slots.filterMap (fun e => match key old e.ltile e.slot, key new e.ltile e.slot with
    | some a, some b => (match look m a with | some v => some (b, v) | none => none)
    | _, _ => none)).foldl (fun acc p => put acc p.1 p.2) []

/-- A tile the binding maps is ACTIVE (03 Table 3.3). -/
def wakeTiles (bs : List Bind) (s : State) : State :=
  forAll 68 (fun t s =>
    let x := s.eng.tiles.get t
    if bs.any (fun b => b.ptile == some t.val) && (x.st = .gated || x.st = .spare) then updTile t (fun x => { x with st := .active }) s
    else s) s

/-- An ACTIVE tile that the binding leaves unmapped is power-gated (03 Table 3.3). -/
def gateUnmapped (bs : List Bind) (s : State) : State :=
  forAll 68 (fun t s =>
    if (s.eng.tiles.get t).st = .active && !(bs.any (fun b => b.ptile == some t.val)) then gateTile .gated t s else s) s

/-- A bound tile that is not ACTIVE, as after a main-die reset, is woken and loaded from the image. -/
def bringUp (x : Image) (s : State) : State := moveAll x s.img.binds s.eng.tiles (wakeTiles s.img.binds s)

/-- The plan that is formed next binds a logical tile: that of a lost domain whose loss an earlier plan did not know (R204, R210). -/
def rebinds (x : Image) (s : State) (l : Nat) : Bool := (bindAt (planAll s x s.img.binds).1 l).ptile.isSome

/-- The binding takes effect at frame s0 with skip divisor dv: contents and slots move, REBIND and ADVANCE records stand
in that frame, and unbound class P0 sessions fail (R202 to R205). -/
def applyBinds (x : Image) (bs : List Bind) (f1 f2 s0 dv : Nat) (s : State) : State :=
  let old := s.img.binds
  let s1 := setImg (fun m => { m with binds := bs, fold1 := f1, fold2 := f2 })
    (setEng (fun g => { g with slots := moveSlots x old bs g.slots, skipBase := s0, skipDiv := dv }) s)
  let s2 := gateUnmapped bs (moveAll x old s.eng.tiles (wakeTiles bs s1))
  let s3 := forEach (List.range x.nL) (fun l s =>
    match (bindAt bs l).ptile with
    | some p => if (bindAt old l).ptile != some p then addNext (ctrlRebind l p) s else s
    | none => s) s2
  forEach (List.range x.nL) (fun l s =>
    forEach (onTile s l) (fun n s =>
      let b := bindAt bs l
      let y := getSess s n
      if b.ptile.isNone && y.desc.cls == 0 && tierOf x l == 0 && !(y.lost && rebinds x s l) then failP0 n s
      else if y.k = kOf b dv && y.phase = phaseOf b s0 dv && !y.moving then s
      else setAdvance n (kOf b dv) (phaseOf b s0 dv) (updSess n (fun y => { y with moving := false }) s)) s) s3

/-- M of R204 over the tiles that move. -/
def moveBytes (x : Image) (old new : List Bind) : Nat :=
  ((List.range x.nL).map (fun l =>
    let o := bindAt old l
    let n := bindAt new l
    if bindMoved o n && n.ptile.isSome then
      match x.ltiles[l]? with
      | some t => if old.any (fun b => b.ptile == n.ptile) then t.pairs * 131072 + t.bundles * 32 else t.stateBytes
      | none => 0
    else 0)).sum

def holdFrames (bytes rate ns : Nat) : Nat := max 2 (1 + ceilDiv bytes (rate * ns))

/-- Sessions held for a plan. -/
def heldTiles (x : Image) (old new : List Bind) : List Nat :=
  (List.range x.nL).filter (fun l => bindMoved (bindAt old l) (bindAt new l))

/-- Sessions held for a plan that is replaced, and neither for the new one nor for a spare replacement, advance again from the next
frame (R204, R206). -/
def releaseHeld (p : Plan) (keep : List Nat) (s : State) : State :=
  forEach (p.held.filter (fun l => !(keep.contains l) && !(s.img.repls.any (fun r => r.ltile == l)))) (fun l s =>
    let b := bindAt s.img.binds l
    let s1 := setImg (fun m => { m with binds := m.binds.set l { b with hold := false } }) s
    forEach (onTile s1 l) (fun n s =>
      if (getSess s n).moving then setAdvance n (kOf b s.eng.skipDiv) (phaseOf b s.eng.skipBase s.eng.skipDiv)
        (updSess n (fun x => { x with moving := false }) s) else s) s1) s

/-- The first frame that can still be planned for. -/
def nextFrame (s : State) : Nat := s.eng.next

/-- The binding is recomputed (R204). `lost` are the sessions of a lost domain. In RUN a plan that changes something gets
a switch frame S: the earliest its hold allows and a free number of frames more, which the spec leaves to the part
(log 24); out of RUN it takes effect at once (DEDUCED, log 25). -/
def recompute (lost : List Nat) (s : State) : State :=
  match imageNow s with
  | none => bareThrottle s
  | some x =>
    let s := setThrottle x s
    let r := planAll s x s.img.binds
    let lost0 := match s.img.plan with | some p => p.lost | none => []
    let heldNow := heldTiles x s.img.binds r.1
    if heldNow = [] && s.img.div = s.eng.skipDiv && lost = [] then (if s.part.st = .run then s else bringUp x s)
    else if s.part.st ≠ .run then applyBinds x r.1 r.2.1 r.2.2 0 s.img.div s
    else
      let h := holdFrames (moveBytes x s.img.binds r.1) 32 (frameNs s)
      let (w, s1) := takeFree 8 s
      let sw := nextFrame s + h + w
      let p : Plan := ⟨sw, h, heldNow, r.1, r.2.1, r.2.2, s.img.cap, s.img.div, lost ++ lost0⟩
      match s.img.plan with
      | none => setImg (fun m => { m with plan := some p }) s1
      | some q =>
        if decide (sw < q.s) then setImg (fun m => { m with plan := some p }) (releaseHeld q heldNow s1)
        else setImg (fun m => { m with plan := some { q with lost := lost ++ q.lost } }) s1

/-- PLAN_HOLD_START: at frame S − H the tiles that move are held (R204, R205). -/
def execPlanHoldStart (s : State) : Out :=
  match s.img.plan with
  | none => .next s
  | some p =>
    if s.part.st ≠ .run || decide (s.eng.next < p.s - p.h) || decide (p.s ≤ s.eng.next) then .next s
    else
      let s1 := setImg (fun m => { m with binds := p.held.foldl (fun bs l => bs.set l { bindAt bs l with hold := true }) m.binds }) s
      .next (forEach p.held (fun l s => forEach (onTile s l) (fun n s => setAdvance n 0 0 s) s) s1)

/-- The checkpoint frame a restore names (05 Table 5.7). -/
def restoreFrame (s : State) (which : Nat) : Nat :=
  match (if which = 0 then newestCkpt s else otherCkpt s) with | some k => k.frame | none => 0

/-- A session is restored from its checkpoint entry, and the RESTORE record says which (05 R162, R164). -/
def restoreOne (n : Nat) (s : State) : State :=
  let (e, which) := restoreEntryAt s (getSess s n).restoreBase n
  addNext (ctrlRestore n (restoreFrame s which) which)
    (updSess n (fun x => { restoreState s e x with stopUntil := none, restoreBase := none, lost := false }) s)

/-- Whether the words at a lane's state address carry a mark. -/
def laneMarked (s : State) (lane len : Nat) : Bool :=
  match (lanesNow s)[lane]? with
  | some e =>
    (match tileAt (bindAt s.img.binds e.ltile).ptile with
     | some p => (rdSpace (s.eng.tiles.get p) (firstPair (bindAt s.img.binds e.ltile)) e.stateAddr len).2
     | none => false)
  | none => false

/-- The sessions on logical tiles that moved whose state the move found poisoned (R205). -/
def movedBad (s : State) (ls : List Nat) : List Nat :=
  ((liveSessions s).filter (fun p => ls.contains p.2.ltile && p.2.st != .pending && laneMarked s p.2.lane p.2.state.length)).map (·.1)

/-- A write accepted after a checkpoint is applied again as things stand (05 R163); one that fails is dropped. -/
def reapplyOne (w : DescWrite) (s : State) : State :=
  let code := descHome w.auth w.session w.desc true s
  if code ≠ 0 then
    raiseMain .sessionReapplyFailed sessSrc w.session (updSess w.session (fun x => { x with lastError := code }) s)
  else
    let ws := s.eng.writes
    let s1 := descEffect w.auth w.session w.desc w.count s
    { s1 with eng := { s1.eng with writes := ws } }

/-- The writes accepted after the start of the newest committed checkpoint frame, in order of accepting count. -/
def writesSince (s : State) : List DescWrite :=
  let c := match newestCkpt s with | some k => k.start | none => 0
  s.eng.writes.filter (fun w => decide (c ≤ w.count))

/-- The switch frame of a plan: the binding and the skip divisor take effect, sessions of a lost domain are restored as in
R163, those poisoned in the move as in R162 (R205, R210); the binding is then formed again, for a plan that had to wait. -/
def switchPlan (p : Plan) (s : State) : State :=
  match imageNow s with
  | none => setImg (fun m => { m with plan := none }) s
  | some x =>
    let s0 := seqRun 16 (moveBytes x s.img.binds p.binds) (setImg (fun m => { m with plan := none }) s)
    let s1 := applyBinds x p.binds p.fold1 p.fold2 s.eng.next p.div s0
    let lost := (liveSessions s1).filter (fun q => q.2.lost && (bindAt p.binds q.2.ltile).ptile.isSome) |>.map (·.1)
    let bad := (movedBad s1 p.held).filter (fun n => !(lost.contains n))
    let s2 := forEach (lost ++ bad) restoreOne s1
    let s3 := forEach ((writesSince s2).filter (fun w => lost.contains w.session)) reapplyOne s2
    recompute [] s3

/-- A spare replacement takes effect: its logical tile advances on the replacement, which the copy on MB 0 has filled (R206). -/
def switchRepl (r : Repl) (s : State) : State :=
  match imageNow s with
  | none => s
  | some x =>
    let old := s.img.binds
    let bs := old.set r.ltile { bindAt old r.ltile with ptile := some r.tile, hold := false }
    let bytes := match x.ltiles[r.ltile]? with | some e => e.pairs * 131072 + e.bundles * 32 | none => 0
    let s1 := setImg (fun m => { m with binds := bs }) (setEng (fun g => { g with slots := moveSlots x old bs g.slots }) (seqRun 16 bytes s))
    let s2 := addNext (ctrlRebind r.ltile r.tile) (moveAll x old s.eng.tiles s1)
    let b := bindAt bs r.ltile
    let s3 := forEach (onTile s2 r.ltile) (fun n s =>
      setAdvance n (kOf b s.eng.skipDiv) (phaseOf b s.eng.skipBase s.eng.skipDiv) s) s2
    forEach (movedBad s3 [r.ltile]) restoreOne s3

/-- PLAN_SWITCH: at frame S a replacement or a plan takes effect. -/
def execPlanSwitch (s : State) : Out := noted <|
  let due := s.img.repls.filter (fun r => decide (r.s ≤ s.eng.next))
  let s1 := forEach due switchRepl (setImg (fun m => { m with repls := m.repls.filter (fun r => !(decide (r.s ≤ s.eng.next))) }) s)
  match s1.img.plan with
  | none => .next s1
  | some p => if decide (p.s ≤ s1.eng.next) then .next (switchPlan p s1) else .next s1

/-! ## Replacing a failed tile (R206) -/

/-- The replacement of a failed tile: the lowest-numbered SPARE of its domain, else the lowest-numbered GATED tile outside
the plan. -/
def replacementOf (s : State) (t : Nat) : Option (Fin 68) :=
  let inPlan (q : Nat) : Bool := match s.img.plan with | some p => p.binds.any (fun b => b.ptile == some q) | none => false
  let cand := (List.finRange 68).filter (fun q => decide (q.val / 34 = t / 34))
  match cand.find? (fun q => (s.eng.tiles.get q).st == .spare) with
  | some q => some q
  | none => cand.find? (fun q => (s.eng.tiles.get q).st == .gated && !(inPlan q.val))

/-- A pending plan is formed again on the binding a replacement leaves: the later of its own S and the first frame its
hold, recomputed, can run after the replacement's S. One that changes nothing any more is dropped. -/
def replan (x : Image) (bs : List Bind) (sRepl : Nat) (s : State) : State :=
  match s.img.plan with
  | none => s
  | some p =>
    let r := planAll s x bs
    let h := holdFrames (moveBytes x bs r.1) 32 (frameNs s)
    let held := heldTiles x bs r.1
    let s1 := releaseHeld p held s
    if held = [] && p.div = s.eng.skipDiv && p.lost = [] then setImg (fun m => { m with plan := none }) s1
    else setImg (fun m => { m with plan := some { p with
      s := max p.s (sRepl + h), h := h, held := held, binds := r.1, fold1 := r.2.1, fold2 := r.2.2 } }) s1

/-- The logical tiles on tile t get a replacement at the end of frame n, or are planned again; those that a copy was moving to t are
replaced anew from the tile that still holds them. -/
def replaceTile (t : Fin 68) (n : Nat) (s : State) : State :=
  match imageNow s with
  | none => s
  | some x =>
    let waits := s.img.repls.filter (fun r => r.tile == t.val)
    let s := setImg (fun m => { m with repls := m.repls.filter (fun r => r.tile != t.val) }) s
    let ls := (List.range x.nL).filter (fun l => (bindAt s.img.binds l).ptile == some t.val || waits.any (fun r => r.ltile == l))
    let src (l : Nat) : Nat := match waits.find? (fun r => r.ltile == l) with | some r => r.old | none => t.val
    if ls = [] then recompute [] s
    else
      match replacementOf s t.val with
      | none => recompute [] s
      | some q =>
        let bytes := (ls.map (fun l => match x.ltiles[l]? with | some e => e.pairs * 131072 + e.bundles * 32 | none => 0)).sum
        let h := holdFrames bytes 48 (frameNs s)
        let s1 := updTile q (fun y => { y with st := .active }) s
        let after := ls.foldl (fun bs l => bs.set l { bindAt bs l with ptile := some q.val }) s.img.binds
        if s.part.st = .run then
          let s2 := setImg (fun m => { m with
            repls := m.repls ++ ls.map (fun l => ⟨n + 1 + h, h, l, src l, q.val⟩)
            binds := ls.foldl (fun bs l => bs.set l { bindAt bs l with hold := true }) m.binds }) s1
          replan x after (n + 1 + h) (forEach ls (fun l s => forEach (onTile s l) (fun k s => setAdvance k 0 0 s) s) s2)
        else
          forEach ls (fun l s => switchRepl ⟨0, 0, l, src l, q.val⟩ s) s1

/-! ## The loss of a domain (R209, R210, R211) -/

def otherDom (d : Fin 2) : Fin 2 := 1 - d

/-- Sessions whose logical tile is bound to a tile of the domain, or was never bound and belongs to it. -/
def domainSessions (s : State) (d : Fin 2) : List Nat :=
  ((liveSessions s).filter (fun p =>
    match (bindAt s.img.binds p.2.ltile).ptile with
    | some q => q / 34 == d.val
    | none => false)).map (·.1)

/-- The loss of a domain reaches a session (R210): a record of the frame that is still to come is marked invalid, and the
INVALIDATE record stands in that frame, else in the next. -/
def loseSession (n : Nat) (s : State) : State :=
  let s1 := updSess n (fun x => { x with lost := true }) s
  if s.eng.mainDone || (look s.eng.records n).isSome then addNext (ctrlInvalidate n 1) s1
  else if (look s.eng.tokens n).isSome then updSess n (fun x => { x with poisoned := true }) s1
  else addCtrl (ctrlInvalidate n 1) s1

/-- A pending plan no longer binds anything to a domain that is LOST. -/
def planWithout (d : Fin 2) (p : Plan) : Plan :=
  { p with binds := p.binds.map (fun b => match b.ptile with
      | some q => if q / 34 = d.val then { b with ptile := none } else b
      | none => b) }

/-- A domain becomes LOST. With both LOST every session is, and no plan waits any more (R211). -/
def domainLost (d : Fin 2) (s : State) : State :=
  if s.img.lostDom.get d then s
  else
    let both := s.img.lostDom.get (otherDom d)
    let hit := if s.part.st ≠ .run then []
      else if both then ((liveSessions s).filter (fun p => p.2.st != .pending && !p.2.lost)).map (·.1)
      else (domainSessions s d).filter (fun n => (getSess s n).st != .pending)
    let s1 := setImg (fun m => { m with
      lostDom := vupd m.lostDom d (fun _ => true)
      plan := if both then none else m.plan.map (planWithout d)
      repls := m.repls.filter (fun r => r.tile / 34 != d.val) }) s
    let s2 := setN (commitNum (Obj.domainRetired d.val).key 1 0 false s1) (Obj.domainRetired d.val) 1
    let s3 := forAll 68 (fun t s => if t.val / 34 = d.val && (s.eng.tiles.get t).st == .active then gateTile .gated t s else s) s2
    let s4 := raiseMain .domainLost domainSrc (openDetail .domainLost d.val) s3
    let s5 := forEach hit loseSession s4
    if both then raiseMain .engineLost domainSrc (openDetail .engineLost 0) s5
    else recompute hit s5

/-- The domain falls LOST when its usable tiles are fewer than its tier-0 tiles (R209). -/
def checkDomain (d : Fin 2) (s : State) : State :=
  match imageNow s with
  | none => s
  | some x =>
    if decide ((usableOf s d.val true).length < (tierTiles x (carried s x d) 0).length) then domainLost d s else s

/-- R209 for both domains, where tiles were tested or another image took force. -/
def checkDomains (s : State) : State := checkDomain 1 (checkDomain 0 s)

/-- BRIDGE_PORT_FAILURE. -/
def execBridgePortFailure (d : Fin 2) (s : State) : Out := noted <| .next (domainLost d s)

/-- DOMAIN_RETIRED_SET: SERVICE writes 1. -/
def execDomainRetiredSet (au : Auth) (d : Fin 2) (s : State) : Out := noted <|
  .next (writeStep au (Obj.domainRetired d.val).key (.num 1) noHome (fun _ s => domainLost d (storeNum (Obj.domainRetired d.val) 1 s)) s)

def readyOnly (s : State) : Nat := if s.part.st = .run then 0x00050008 else 0

/-- A tile waits for its self-test and keeps its state until it ends; one whose TILE_RETIRED is 1 stays FAILED (03 Table 3.3). -/
def retestTile (t : Fin 68) (s : State) : State :=
  if s.ident.absent.contains t.val then s
  else updTile t (fun x => { x with testing := x.st != .none_ && getN s (Obj.tileRetired t.val) == 0 }) s

/-- After a write of 0 the domain is UP again and its tiles are self-tested (R209). -/
def domainClear (d : Fin 2) (s : State) : State :=
  let s1 := setImg (fun m => { m with lostDom := vupd m.lostDom d (fun _ => false) }) (storeNum (Obj.domainRetired d.val) 0 s)
  forAll 68 (fun t s => if t.val / 34 = d.val then retestTile t s else s) s1

/-- DOMAIN_RETIRED_CLEAR: SERVICE writes 0, in READY only. -/
def execDomainRetiredClear (au : Auth) (d : Fin 2) (s : State) : Out := noted <|
  .next (writeStep au (Obj.domainRetired d.val).key (.num 0) readyOnly (fun _ s => domainClear d s) s)

/-! ## Arming and activation (R192 to R197) -/

/-- The least footprint of an image fits the tiles of each domain that a plan may use, spares aside and USABLE_CAP at most (R192,
R199). -/
def footprintOk (s : State) (x : Image) : Bool :=
  (List.finRange 2).all (fun d => s.img.lostDom.get d ||
    decide (leastFootprint x (carried s x d) ≤ min (usableTiles s d.val) s.img.cap))

/-- The checks of a write to IMAGE_ARM, in the order of R192. -/
def armHome (i : Fin 4) (s : State) : Nat :=
  let e := s.img.store.get i
  match e.image with
  | none => 0x00020601
  | some x =>
    if !(e.st == .valid || e.st == .armed) then 0x00020601
    else if x.period ≠ getN s Obj.framePeriod then 0x00040603
    else if !(carryAll x (liveNeeds s)).ok then 0x00070601
    else if !(footprintOk s x) then 0x00070601
    else 0

/-- The previous armed entry returns to VALID. -/
def unarm (s : State) : State :=
  setImg (fun m => { m with
    store := m.store.map (fun e => if e.st = .armed then { e with st := .valid } else e), armed := none, act := .none }) s

/-- HOT when layout, N_L and period are those of the image in force (R193). -/
def isHot (s : State) (x : Image) : Bool :=
  match imageNow s with
  | some y => y.layoutDigest == x.layoutDigest && y.nL == x.nL && y.period == x.period
  | none => false

/-- Every switch not in force is discarded (R194, R196, 04 R149). -/
def discardSwitches (s : State) : State :=
  let ns := ((liveSessions s).filter (fun p => p.2.switch.isSome)).map (·.1)
  withdrawLoads (forEach ns (fun n s => raiseMain .switchDiscarded sessSrc n (updSess n (fun x => { x with switch := none }) s)) s)

def armEffect (i : Fin 4) (_ : Count) (s : State) : State :=
  match (s.img.store.get i).image with
  | none => s
  | some x =>
    let hot := isHot s x
    let s1 := unarm s
    let s2 := setImg (fun m => { m with
      store := vupd m.store i (fun e => { e with st := .armed }), armed := some i.val, cold := !hot, armFrame := s.eng.frame
      act := if s.part.st = .run then (if hot then .hot i.val (some (mainNow s)) else .coldWait i.val 0) else .ready i.val }) s1
    if s.part.st ≠ .run && !hot then discardSwitches s2
    else if hot then seqRun 18 ((x.ltiles.map (fun t => t.bundles * 32)).sum) (loadBundles x s2)
    else s2

/-- IMAGE_ARM. -/
def execImageArm (au : Auth) (i : Fin 4) (s : State) : Out :=
  .next (writeStep au Obj.imageArm.key (.num i.val) (armHome i) (armEffect i) s)

/-- IMAGE_DISARM: a write of 0xFF. -/
def execImageDisarm (au : Auth) (s : State) : Out :=
  .next (writeStep au Obj.imageArm.key (.num 0xFF) noHome (fun _ s => unarm s) s)

/-- The measurement of the image that takes force (16 R468). -/
def measImage (i : Nat) (s : State) : State :=
  match imageOf s (some i) with
  | some x => logMeas 6 x.digest x.nL s
  | none => s

def markForce (i : Nat) (s : State) : State :=
  if h : i < 4 then setImg (fun m => { m with store := vupd m.store ⟨i, h⟩ (fun e => { e with st := .inForce }) }) s else s

/-- The entry i is IN_FORCE and the one before it VALID again; the image is measured (16 R468). -/
def takeForce (i : Nat) (frame : Nat) (s : State) : State :=
  let s1 := setImg (fun m => { m with
    store := (m.store.map (fun e => if e.st = .inForce then { e with st := .valid } else e))
    spareAt := ((List.finRange 68).filter (fun q => (s.eng.tiles.get q).st == .spare)).map (·.val)
    inForce := some i, armed := none, act := .none }) s
  signalCell 5 1 (setN (measImage i (markForce i s1)) Obj.imageFrame frame)

/-- The lanes of the carried sessions under the new image (R197). -/
def carrySessions (x : Image) (c : Carry) (s : State) : State :=
  forEach c.lanes (fun p s => updSess p.1 (fun y => { y with lane := p.2, ltile := ltileOfLane x p.2, fresh := true }) s) s

/-- The models of the carried sessions stand in the slots given to them, and no load waits. -/
def carryModels (x : Image) (c : Carry) (s : State) : State :=
  let key (e : Nat × Nat × Nat) : Option (Nat × Nat) := (slotKey s e.1 e.2.1).map (fun k => (k, e.2.2))
  let s1 := setEng (fun g => { g with slots := (c.slots.filterMap key).foldl (fun m p => put m p.1 p.2) [], loads := [] }) (seqCancel 17 s)
  let s2 := forEach (List.range x.nL) (fun l s => loadWeights x l s) s1
  mapSess (fun _ y => if y.st == .pending && y.openReady.isNone then { y with openReady := some (mainNow s) } else y) s2

/-- The image of entry i, in force, replaces the one before it from scratch, with the sessions carried (R194, R196, R197). -/
def coldLoad (i s0 : Nat) (s : State) : State :=
  match imageOf s (some i) with
  | none => s
  | some x =>
    let c := carryAll x (liveNeeds s)
    let s1 := forAll 68 (fun t s => if (s.eng.tiles.get t).st = .active then gateTile .gated t s else s) s
    let s2 := setThrottle x (carrySessions x c (setImg (fun m => { m with binds := [], plan := none, repls := [] })
      (setEng (fun g => { g with slots := [] }) s1)))
    let r := planAll s2 x []
    carryModels x c (applyBinds x r.1 r.2.1 r.2.2 s0 s2.img.div (seqRun 18 x.totalBytes s2))

def imageCtrl (i : Nat) (s : State) : State :=
  match imageOf s (some i) with
  | some x => addNext (ctrlImage x.nL x.digest) s
  | none => s

/-- READY_ACTIVATION_DONE: the loads are complete and the image is IN_FORCE; its IMAGE record stands in the first frame of
the next RUN (R194). -/
def execReadyActivationDone (s : State) : Out := noted <|
  match s.img.act with
  | .ready i =>
    if s.part.st ≠ .ready || s.img.replayOf.isSome then .next s
    else
      let hot := !s.img.cold && s.img.inForce.isSome
      let s1 := takeForce i 0 s
      .next (imageCtrl i (if hot then swapHalves (match imageOf s (some i) with | some x => loadBundles x s1 | none => s1)
        else checkDomains (coldLoad i 0 s1)))
  | _ => .next s

/-- HOT_ACTIVATION at frame E, after the end of frame E − 1: at or after ACTIVATE_AT, 2 F after the loads, in no frame from S − H to S
of a pending plan or replacement (R195). -/
def execHotActivation (s : State) : Out := noted <|
  match s.img.act with
  | .hot i (some c) =>
    let e := s.eng.next
    let clash := (match s.img.plan with | some p => decide (p.s - p.h ≤ e) && decide (e ≤ p.s) | none => false) ||
      s.img.repls.any (fun r => decide (r.s - r.h ≤ e) && decide (e ≤ r.s))
    if s.part.st ≠ .run || decide (e < getN s Obj.activateAt) || decide (startOf s e < c + 2 * frameNs s) || clash || !s.eng.mainDone then .next s
    else
      let s1 := takeForce i e s
      .next (imageCtrl i (swapHalves (match imageOf s (some i) with | some x => loadBundles x s1 | none => s1)))
  | _ => .next s

/-- T of R196 in ns: 2 ms and M at 16 bytes per ns. -/
def coldTime (s : State) (old : Option Image) (x : Image) (c : Carry) : Nat :=
  let weights := (c.slots.map (fun p => match modelOf s p.2.2 with | some m => m.weightBytes | none => 0)).sum
  let m := 2 * (match old with | some y => y.stateTotal | none => 0) + (x.ltiles.map (fun t => t.bundles * 32 + t.pairs * 131072)).sum + weights
  2000000 + ceilDiv m 16

/-- COLD_ACTIVATION_STOP at the first checkpoint frame at or after ACTIVATE_AT and the frame of arming plus 2: the engine
stops, IMAGE_IN_FORCE changes, and switches not in force are discarded (R196). -/
def execColdActivationStop (s : State) : Out := noted <|
  match s.img.act with
  | .coldWait i _ =>
    let c := s.eng.next
    if s.part.st ≠ .run || c % 64 ≠ 0 || decide (c < getN s Obj.activateAt) || decide (c < s.img.armFrame + 2) || !s.eng.mainDone then .next s
    else
      match imageOf s (some i) with
      | none => .next s
      | some x =>
        let t := coldTime s (imageNow s) x (carryAll x (liveNeeds s))
        let j := c + ceilDiv t (frameNs s)
        let s1 := discardSwitches (takeForce i j s)
        .next (setImg (fun m => { m with coldStop := some (i, c, j) }) (setEng (fun g => { g with stopped := true, nextTokens := [], teff := [], nextLedger := { g.nextLedger with gaps := 0 } }) s1))
  | _ => .next s

/-- A session as the newest checkpoint's entry gives it, on a lane of its model's shape, with the k and phase of the binding in
force; an ADVANCE record stands where they change (05 R158, R163). Its model stands in a slot again, and one that is PENDING waits for
its load anew. An entry that fails gives what the table still has of it. -/
def restoreSess (badNew badOld : List Nat) (e0 : CkptEnt) (s : State) : State :=
  let n := e0.session
  let y := getSess s n
  let got := (restoreEntry s badNew badOld n).1
  let e := got.getD e0
  let pend := e.modelActive == 0xFFFF
  let model := if pend then e.desc.model else e.modelActive
  let shape := (modelOf s model).map (·.shape)
  let stays := y.live && ((lanesNow s)[y.lane]?.map (·.shape)) == shape
  let lane := if stays then y.lane else
    match modelOf s model with
    | some m => (match chooseLane s e.desc.cls m.shape model m.weightBytes 0xFFFF e.desc.replica with | some (q, _) => q | none => 0xFFFF)
    | none => 0xFFFF
  let b := bindAt s.img.binds (laneTile s lane)
  let k := kOf b s.eng.skipDiv
  let ph := phaseOf b s.eng.skipBase s.eng.skipDiv
  let back : Sess := { y with
    st := if pend then .pending else .opened, desc := e.desc, eff := e.desc, modelActive := e.modelActive, lane := lane
    ltile := laneTile s lane, k := k, phase := ph, changes := [], switch := none, closeCount := none
    openReady := if pend && residentFor s lane model e.desc.replica then some 0 else none, lastValid := e.lastRecord, stopUntil := none, restoreBase := none, moving := false
    lost := false }
  let s0 := setSess n (restoreState s got back) s
  let s1 := if pend then (if back.openReady.isNone then queueLoad model lane e.desc.replica (mainNow s) s0 else s0) else seatModel n s0
  if pend || (y.live && y.k = k && y.phase = ph) then s1 else addNext (ctrlAdvance n k ph) s1

/-- Sessions that the newest checkpoint does not list are closed until a later write opens them again (05 R163). -/
def dropUnlisted (s : State) : State :=
  match newestCkpt s with
  | none => s
  | some k =>
    forEach (((liveSessions s).filter (fun p => !(k.entries.any (fun e => e.session == p.1)))).map (·.1)) (fun n s => updSess n Sess.release s) s

/-- Every session of the newest checkpoint gets its state back (05 R163). -/
def restoreTable (badNew badOld : List Nat) (s : State) : State :=
  match newestCkpt s with
  | none => s
  | some k => forEach k.entries (restoreSess badNew badOld) (dropUnlisted s)

/-- One RESTORE record for each session of the checkpoint (05 R163, R164). -/
def restoreRecords (badNew badOld : List Nat) (s : State) : State :=
  forEach ((liveSessions s).map (·.1)) (fun n s =>
    let (_, which) := restoreEntry s badNew badOld n
    addNext (ctrlRestore n (restoreFrame s which) which) s) s

/-- A COLD activation completes: the new image runs on the state of checkpoint C, and the writes accepted after the start of C
are reapplied; the RESTORE and IMAGE records stand in the next frame (R196). -/
def coldFinish (i : Nat) (s : State) : State :=
  let s1 := coldLoad i s.eng.next (setImg (fun m => { m with coldStop := none }) (dropUnlisted (commitCkpt s)))
  let s2 := restoreTable [] [] s1
  let s3 := forEach (writesSince s2) reapplyOne (restoreRecords [] [] s2)
  imageCtrl i (checkDomains (setN (setEng (fun g => { g with stopped := false }) s3) Obj.imageFrame s.eng.next))

/-- COLD_ACTIVATION_REJOIN at frame J. -/
def execColdActivationRejoin (s : State) : Out := noted <|
  match s.img.coldStop with
  | some (i, _, j) => if s.part.st ≠ .run || decide (s.eng.next < j) then .next s else .next (coldFinish i s)
  | none => .next s

end Sys2Proof.Machine
end

