-- ==== Sys2Proof/Machine/Clove.lean ====
section
/-! DEFINITION. Clove runs a frame (03): the bundles of each tile cycle by cycle, what each operation does, the sessions that flags
and poison reach, swaps, beats and the lane inputs of INGEST. -/
namespace Sys2Proof.Machine

open Sys2Proof

/-! ## Lanes and their sessions (04 R150, 06 R198) -/

/-- The lanes of a session: its own and, for a replica session, its twin. -/
def lanesOfSess (s : State) (x : Sess) : List Nat :=
  x.lane :: (if x.desc.replica then (twinLane (lanesNow s) x.lane).toList else [])

/-- The sessions that advance in the frame on lanes of a list. -/
def sessionsOfLanes (s : State) (lanes : List Nat) : List Nat :=
  ((liveSessions s).filter (fun p =>
    (look s.eng.tokens p.1).isSome && (lanesOfSess s p.2).any (fun k => lanes.contains k))).map (·.1)

/-- An operation that carries no lane's output, or that of a lane which is not masked. -/
def unmasked (s : State) (lanes : List Nat) : Bool :=
  lanes == [] || lanes.any (fun k => match look s.eng.inputs k with | some i => i.runs | none => false)

/-- INV and SAT are counted by Nutmeg: R98 names no event, the model raises ARITH_FLAGS once for each operation that reports them
(DESIGN CHOICE, log 5). -/
def countFlags (t : Fin 68) (fl : Nat) (s : State) : State :=
  if fl % 4 = 0 then s else raiseMain .arithFlags tileSrc (openDetail .arithFlags (t.val * 4 + fl % 4)) s

/-- Flags reach the tile's ARITH_FLAGS, the status of each session whose output is carried, and Nutmeg (03 R98, R106); a masked
lane raises none (06 R198). -/
def reachFlags (t : Fin 68) (fl : Nat) (lanes : List Nat) (s : State) : State :=
  if fl = 0 || !(unmasked s lanes) then s
  else
    countFlags t fl
      (forEach (sessionsOfLanes s lanes) (fun n => updSess n (fun x => { x with sflags := x.sflags ||| fl, frameFlags := x.frameFlags ||| fl }))
        (updTile t (fun x => { x with arith := x.arith ||| fl }) s))

def markUncorrectable (s : State) : State := setEng (fun g => { g with cur := { g.cur with uncorrectable := true } }) s

/-- A poison mark reaches the outputs of sessions (R80): marked invalid, and the ledger header flagged. -/
def reachPoison (bad : Bool) (lanes : List Nat) (s : State) : State :=
  if bad then markUncorrectable (forEach (sessionsOfLanes s lanes) (updSess · (Sess.poison s.eng.frame)) s) else s

/-- Poisoned words are delivered: each counts in TILE_UE_COUNT, but one that UNCORRECTABLE_WORD has counted (R80). -/
def noteReads (t : Fin 68) (x : Tile) (ps : List (Nat × Nat)) (s : State) : State :=
  let ks := ((ps.filter (fun p => wordBad x p.1 p.2)).map (fun p => sramKey (computeBank x p.1) p.2)).eraseDups
  match ks with
  | [] => s
  | _ =>
    let new := ks.filter (fun k => !(x.counted.contains k))
    markUncorrectable (incMax (updTile t (fun y => { y with
      log := true, counted := y.counted.filter (fun k => !(ks.contains k))
      ueOffset := (new.getLast?.map (32 * ·)).getD y.ueOffset, ueFrame := if new = [] then y.ueFrame else s.eng.frame }) s)
      (Obj.tileUeCount t.val) new.length u32)

/-! ## What the slots of a bundle do (03 Table 3.4) -/

/-- Where an operation stands: its cycle, the logical tile, its binding, and what the tile held when the cycle began. -/
structure At where
  cycle : Nat
  ltile : Nat
  bind : Bind
  tile : Tile
  deriving DecidableEq, Repr

def At.pb (a : At) : Nat := firstPair a.bind

/-- The compute-space address of the weights in the slot that a lane's selector names. -/
def slotAddr (s : State) (l lane : Nat) : Nat :=
  match imageNow s with
  | some i => ((i.slots.find? (fun e => e.ltile == l && e.slot == (match look s.eng.inputs lane with | some x => x.slot | none => 0))).map (·.addr)).getD 0
  | none => 0

/-- The flags of a column are reported at its read-out, and last until then (R98). -/
def Column.reported (c : Column) : Column := { c with inv := false, sat := false, trunc := false }

/-- The matrix unit (R91 to R101). It alone uses the accumulators, the parts of its operation in order. -/
def matrixStep (t : Fin 68) (a : At) (op : TileOp) (s : State) : State :=
  let x := a.tile
  match op with
  | .clear set col => updTile t (fun y => wrCol y set col Column.zero false) s
  | .init set col v => updTile t (fun y => wrCol y set col (Column.zero.addProduct
      (match Fmt.f32.decode v with | .inf _ => .nan | d => d)) false) s
  | .initLane set col reg lane => updTile t (fun y => wrCol y set col (Column.zero.addProduct
      (match Fmt.f32.decode (rdLane x reg lane) with | .inf _ => .nan | d => d)) (laneBad x reg lane)) s
  | .mac set col fa fb ra rb =>
    if pairOk fa fb then
      let pa := ra.place a.pb (slotAddr s a.ltile)
      let pb := rb.place a.pb (slotAddr s a.ltile)
      let sa := scaleOf (blockScale x fa pa)
      let sb := scaleOf (blockScale x fb pb)
      let ps := (blockElems x fa pa).zip (blockElems x fb pb)
      s |> updTile t (fun y =>
            wrCol y set col (ps.foldl (fun c (u, v) => c.addProduct (productOf (fa.decode u) sa (fb.decode v) sb)) (rdCol y set col))
              (colBad y set col || blockBad x fa pa || blockBad x fb pb))
        |> noteReads t x (blockReads fa pa ++ blockReads fb pb)
    else s
  | .readOut set col bf16 reg lane lanes =>
    let y := s.eng.tiles.get t
    let (v, fl) := (rdCol y set col).readOut (if bf16 then Fmt.bf16 else Fmt.f32)
    let bad := colBad y set col
    s |> updTile t (fun y => wrLane (wrCol y set col (rdCol y set col).reported bad) reg lane v bad)
      |> reachFlags t fl lanes |> reachPoison bad lanes
  | .mxOut set half fmt dst lanes =>
    let y := s.eng.tiles.get t
    let cols := (List.range 32).map (fun i => 32 * half + i)
    let outs := cols.map (fun c => (rdCol y set c).readOut Fmt.f32)
    let bad := cols.any (fun c => colBad y set c)
    let fl := outs.foldl (fun a p => a ||| p.2) 0
    let (sc, els) := mxOut fmt (outs.map (·.1))
    let d := dst.place a.pb (slotAddr s a.ltile)
    s |> updTile t (fun y =>
          let y1 := cols.foldl (fun y c => wrCol y set c (rdCol y set c).reported (colBad y set c)) y
          let y2 := wrBlock y1 fmt d els bad
          match scaleWord fmt d with
          | some w => wrPart y2 w.1 w.2 (8 * (d.block % 32)) 8 sc bad
          | none => y2)
      |> reachFlags t fl lanes |> reachPoison bad lanes
  | _ => s

/-- The sticky flags of the vector lanes (R106). -/
def stickLanes (fls : List Nat) (y : Tile) : Tile :=
  { y with vflag := fls.zipIdx.foldl (fun m p => if p.1 = 0 then m else put m p.2 (lookD m p.2 0 ||| p.1)) y.vflag }

/-- A row of chunks as values and marks, element i in lane i mod 64 of chunk i / 64. -/
def rowOf (x : Tile) (bf16 : Bool) (chunks : List Nat) : List Nat :=
  (List.range (64 * chunks.length)).map (fun i => widen bf16 (rdLane x (chunks.getD (i / 64) 0) (i % 64)))

/-- The result of a row in every lane of its register. R116 does not say where the one result stands, nor whether the mark of a
masked-off lane travels: the model writes all 64 lanes and lets it travel (DESIGN CHOICE, log 22). -/
def putRow (t : Fin 68) (x : Tile) (fd : Bool) (d v fl : Nat) (chunks lanes : List Nat) (s : State) : State :=
  let bad := (List.range (64 * chunks.length)).any (fun i => laneBad x (chunks.getD (i / 64) 0) (i % 64))
  let fl := fl ||| narrowFlags fd v
  s |> updTile t (fun y => stickLanes (List.replicate 64 fl) ((List.range 64).foldl (fun y l => wrLane y d l (narrow fd v) bad) y))
    |> reachFlags t fl lanes |> reachPoison bad lanes

/-- The vector unit (R102 to R116). A row has at most 256 elements, four chunks (R116); what an operation that names more would do is
not stated, and the model takes the first four (DESIGN CHOICE, log 22). -/
def vectorStep (t : Fin 68) (a : At) (op : TileOp) (s : State) : State :=
  let x := a.tile
  match op with
  | .vec op fa fb fc fd d ra rb rc lanes =>
    let res := (List.range 64).map (fun l => vecLaneFmt op fa fb fc fd (rdLane x ra l) (rdLane x rb l) (rdLane x rc l))
    let fl := res.foldl (fun acc p => acc ||| p.2) 0
    let badAt (l : Nat) : Bool := laneBad x ra l || laneBad x rb l || laneBad x rc l
    s |> updTile t (fun y => stickLanes (res.map (·.2)) ((List.range 64).foldl (fun y l => wrLane y d l (res.getD l (0, 0)).1 (badAt l)) y))
      |> reachFlags t fl lanes |> reachPoison ((List.range 64).any badAt) lanes
  | .vmaxr fa fd d chunks masked lanes =>
    let chunks := chunks.take 4
    let row := rowOf x fa chunks
    let v := vMaxRow (row.zipIdx.map (fun p => (p.1, masked.contains p.2)))
    putRow t x fd d v (vecFlags (row.zipIdx.map (fun p => if masked.contains p.2 then 0xFF800000 else p.1)) v) chunks lanes s
  | .vsumr fa fd d chunks masked lanes =>
    let chunks := chunks.take 4
    let row := (rowOf x fa chunks).zipIdx.map (fun p => if masked.contains p.2 then 0 else p.1)
    let v := vSumRow ((List.range chunks.length).map (fun k => (row.drop (64 * k)).take 64))
    putRow t x fd d v (vecFlags row v) chunks lanes s
  | .reduce partials d lanes =>
    let ps := (partials.mergeSort (fun p q => decide (p.1 ≤ q.1))).map (·.2)
    let sum (l : Nat) : Nat :=
      match ps with
      | [] => 0
      | p :: rest => rest.foldl (fun a q => fAdd a (rdLane x q l)) (rdLane x p l)
    let badAt (l : Nat) : Bool := ps.any (fun q => laneBad x q l)
    let fls := (List.range 64).map (fun l => vecFlags (ps.map (fun q => rdLane x q l)) (sum l))
    s |> updTile t (fun y => stickLanes fls ((List.range 64).foldl (fun y l => wrLane y d l (sum l) (badAt l)) y))
      |> reachFlags t (fls.foldl (fun acc f => acc ||| f) 0) lanes |> reachPoison ((List.range 64).any badAt) lanes
  | _ => s

/-- How many lanes a word fills, and the bits of one: 16 of BF16, 8 of 32 bits (Table 3.8). -/
def laneForm (bf16 : Bool) : Nat × Nat := if bf16 then (16, 16) else (8, 32)

/-- The beat that arrives at a tile in a cycle. -/
def arriving (s : State) (t : Fin 68) (c : Nat) : Option Beat := s.eng.beats.find? (fun b => b.arrive == c && b.dst == t.val)

/-- LOAD0, LOAD1, STORE, SEND and RECEIVE, and the words that leave for Teff and the board (R81 to R85, 04 R137). -/
def moveStep (t : Fin 68) (a : At) (op : TileOp) (s : State) : State :=
  let x := a.tile
  match op with
  | .load pair word reg part bf16 =>
    let (n, w) := laneForm bf16
    let v := rdWord x (a.pb + pair) word
    let bad := wordBad x (a.pb + pair) word
    s |> updTile t (fun y => (List.range n).foldl (fun y i => wrLane y reg (n * part + i) (bits v (w * i) w) bad) y)
      |> noteReads t x [(a.pb + pair, word)]
  | .store pair word reg part bf16 =>
    let (n, w) := laneForm bf16
    let v := packWord w ((List.range n).map (fun i => rdLane x reg (n * part + i)))
    updTile t (fun y => wrWord y (a.pb + pair) word v ((List.range n).any (fun i => laneBad x reg (n * part + i)))) s
  | .loadToken lane reg at_ => updTile t (fun y => wrLane y reg at_ (match look s.eng.inputs lane with | some i => i.token | none => 0) false) s
  | .send pair word beats dst channel => updTile t (fun y => { y with sending := some ⟨a.pb + pair, word, beats, dst, channel⟩ }) s
  | .emit lane pair word =>
    let v := (rdWord x (a.pb + pair) word, wordBad x (a.pb + pair) word || x.badBundle)
    s |> setEng (fun g => { g with raws := put g.raws lane v, rawFrom := put g.rawFrom lane t.val })
      |> noteReads t x [(a.pb + pair, word)]
  | .derive idx pair word part =>
    let v := (bits (rdWord x (a.pb + pair) word) (32 * part) 32, wordBad x (a.pb + pair) word || x.badBundle)
    s |> setEng (fun g => { g with deriving_ := put g.deriving_ (idx % 4096) v, deriveFrom := put g.deriveFrom (idx % 4096) t.val })
      |> noteReads t x [(a.pb + pair, word)]
  | .recvWords pair word =>
    (match arriving s t a.cycle with
     | some b => updTile t (fun y => wrWord (wrWord y (a.pb + pair) word (b.data % 2 ^ 256) b.bad) (a.pb + pair) (word + 1) (b.data / 2 ^ 256) b.bad) s
     | none => s)
  | .recvLanes reg part =>
    (match arriving s t a.cycle with
     | some b => updTile t (fun y => (List.range 16).foldl (fun y i => wrLane y reg (16 * part + i) (bits b.data (32 * i) 32) b.bad) y) s
     | none => s)
  | _ => s

/-- One operation of a bundle: each slot takes the operations it knows. -/
def tileStep (t : Fin 68) (a : At) (op : TileOp) (s : State) : State := moveStep t a op (vectorStep t a op (matrixStep t a op s))

/-- CONTROL: a SWAP exchanges the pairs 16 cycles later (R87), a signal moves a sync cell. -/
def ctlStep (t : Fin 68) (a : At) (op : CtlOp) (s : State) : State :=
  match op with
  | .swap mask => updTile t (fun y => { y with swaps := y.swaps ++ [(mask % 2 ^ (12 / a.bind.fold) * 2 ^ a.pb, a.cycle + 16)] }) s
  | .signal cell amount => tileSignal (cell % 16384) amount s
  | _ => s

/-! ## Cycles (R73, R81 to R87) -/

/-- The exchanges of OWNER that are due. -/
def dueSwaps (c : Nat) (y : Tile) : Tile :=
  let due := y.swaps.filter (fun p => decide (p.2 ≤ c))
  due.foldl (fun y p => { y with
    owner := y.owner.xor p.1
    swapped := (List.range 12).foldl (fun m i => if bitSet p.1 i then put m i (lookD m i 0 + 1) else m) y.swapped })
    { y with swaps := y.swaps.filter (fun p => !(decide (p.2 ≤ c))) }

/-- The bundle at a tile's sequencer: one with an uncorrectable error executes as an empty bundle (R81). -/
def bundleAt (x : Tile) (b : Bind) : Bundle × Bool :=
  let k := x.ihalf * 4096 + firstBundle b + x.seq.pc
  if x.imemBad.contains k then (⟨[], []⟩, true) else (Config.decodeBundle (lookD x.imem k 0), false)

/-- A beat leaves the send port, and arrives after 40 or 96 cycles (R82, R83). -/
def sendStep (t : Fin 68) (a : At) (s : State) : State :=
  let y := s.eng.tiles.get t
  match y.sending, imageNow s with
  | some d, some i =>
    let x := a.tile
    let bad := wordBad x d.pair d.word || wordBad x d.pair (d.word + 1) || y.beatBad || y.badBundle
    let arrive := a.cycle + beatCycles (decide (a.ltile < i.n0) != decide (d.dst < i.n0))
    let s1 := match (bindAt s.img.binds d.dst).ptile with
      | some q => setEng (fun g => { g with beats := g.beats ++
          [⟨arrive, t.val, q, rdWord x d.pair d.word + rdWord x d.pair (d.word + 1) * 2 ^ 256, bad⟩] }) s
      | none => s
    s1 |> updTile t (fun y => { y with beatBad := false, sending := if d.left ≤ 1 then none else some { d with word := d.word + 2, left := d.left - 1 } })
      |> noteReads t x [(d.pair, d.word), (d.pair, d.word + 1)]
  | _, _ => s

/-- One tile in one cycle. -/
def runTile (c : Nat) (t : Fin 68) (s : State) : State :=
  let x := s.eng.tiles.get t
  match x.run with
  | none => s
  | some l =>
    if x.st ≠ .active then s
    else
      let a : At := ⟨c, l, bindAt s.img.binds l, x⟩
      if x.seq.ended || decide (4096 / a.bind.fold ≤ x.seq.pc) then sendStep t a (updTile t (fun y => { y with seq := { y.seq with ended := true } }) s)
      else
        let (b, bad) := bundleAt x a.bind
        s |> updTile t (fun y => { y with badBundle := y.badBundle || bad, seq := y.seq.after b.ctl })
          |> forEach b.ops (tileStep t a) |> forEach b.ctl (ctlStep t a) |> sendStep t a

def Tile.busy (y : Tile) : Bool := (y.st == .active && y.run.isSome && !y.seq.ended) || y.sending.isSome || y.swaps != []

/-- Whether anything is left to do in the frame. -/
def working (s : State) : Bool := s.eng.beats != [] || s.eng.tiles.any Tile.busy

def stepCycle (c : Nat) (s : State) : State :=
  let s1 := setEng (fun g => { g with tiles := g.tiles.map (dueSwaps c) }) s
  setEng (fun g => { g with beats := g.beats.filter (fun b => decide (c < b.arrive)) }) (forAll 68 (runTile c) s1)

def runCycles : Nat → Nat → State → State
  | 0, _, s => s
  | k + 1, c, s => if working s then runCycles k (c + 1) (stepCycle c s) else s

/-- The frame runs to a cycle. -/
def runTo (c : Nat) (s : State) : State := setEng (fun g => { g with cycle := c }) (runCycles (c - s.eng.cycle) s.eng.cycle s)

/-- The last cycle of a frame is over: exchanges under way end, the tiles rest (R81). -/
def restTile (y : Tile) : Tile :=
  let y1 := dueSwaps (y.swaps.foldl (fun m p => max m p.2) 0) y
  { y1 with run := none, sending := none, seq := ⟨0, [], none, true⟩ }

def restTiles (s : State) : State := setEng (fun g => { g with tiles := g.tiles.map restTile, beats := [] }) s

/-! ## INGEST (04 R150) -/

/-- The logical tiles that run in a frame: bound, not held, and in their turn (06 R203, 10 R303). -/
def ltilesOf (s : State) (n : Nat) (x : Image) : List Nat :=
  (List.range x.nL).filter (fun l =>
    let b := bindAt s.img.binds l
    let k := kOf b s.eng.skipDiv
    b.ptile.isSome && !b.hold && decide (0 < k) && (n + k - phaseOf b s.eng.skipBase s.eng.skipDiv % k) % k == 0)

/-- Each tile that runs starts at bundle 0; every accumulator is cleared (R81, R96). -/
def startTiles (ls : List Nat) (s : State) : State :=
  let s1 := setEng (fun g => { g with cycle := 0, beats := [], raws := [], rawFrom := [], deriveFrom := [], tiles := g.tiles.map (fun y =>
    { restTile y with acc := [], accBad := [], vflag := [] }) }) s
  forEach ls (fun l s => match tileAt (bindAt s.img.binds l).ptile with
    | some p => updTile p (fun y => if y.st = .active then { y with run := some l, seq := Seqr.first } else y) s
    | none => s) s1

/-- The slot of a logical tile that holds a model. -/
def slotOfModel (s : State) (l model : Nat) : Nat :=
  ((List.range 64).find? (fun k => match slotKey s l k with | some key => slotModelAt s key == model | none => false)).getD 0

/-- A session's state stands at its lane's state address; the marks of its words stay unless other words stood there. -/
def placeState (x : Sess) (lane : Nat) (s : State) : State :=
  match (lanesNow s)[lane]? with
  | some e =>
    let b := bindAt s.img.binds e.ltile
    (match tileAt b.ptile with
     | some p => updTile p (fun y => wrSpace y (firstPair b) e.stateAddr x.state (x.fresh && x.copyBad) (!x.fresh)) s
     | none => s)
  | none => s

/-- What INGEST writes for a session that advances: input word, slot selector and mask of each of its lanes, and its state. -/
def ingestLanes (p : Nat × Nat) (s : State) : State :=
  let x := getSess s p.1
  let s1 := forEach (lanesOfSess s x) (fun k s =>
    placeState x k (setEng (fun g => { g with inputs := put g.inputs k ⟨p.2, slotOfModel s (laneTile s k) x.modelActive, true⟩ }) s)) s
  updSess p.1 (fun x => { x with fresh := false }) s1

/-- The lanes of every session that advances; the others are masked. -/
def ingestAll (s : State) : State := forEach s.eng.tokens ingestLanes (setEng (fun g => { g with inputs := [] }) s)

/-! ## What a lane yields (04 R137, 06 R208) -/

/-- A lane's output of the frame: its raw output word where a tile sent one, the mark of that word, its new state and the mark of
that. -/
structure LaneOut where
  word : Option Nat
  bad : Bool
  state : Option (List Byte)
  stateBad : Bool
  deriving DecidableEq, Repr

/-- A tile that met a bundle with an uncorrectable error in the frame: all its outputs of the frame carry the mark, those sent before
it too (R81). -/
def tileSpoilt (s : State) (t : Option Nat) : Bool := match tileAt t with | some p => (s.eng.tiles.get p).badBundle | none => false

def laneOut (s : State) (lane len : Nat) : LaneOut :=
  let raw := (look s.eng.raws lane).map (fun w => (w.1, w.2 || tileSpoilt s (look s.eng.rawFrom lane)))
  match (lanesNow s)[lane]? with
  | some e =>
    let b := bindAt s.img.binds e.ltile
    (match tileAt b.ptile with
     | some p =>
       let y := s.eng.tiles.get p
       let r := rdSpace y (firstPair b) e.stateAddr len
       ⟨raw.map (·.1), (match raw with | some w => w.2 | none => false) || y.badBundle, some r.1, r.2⟩
     | none => ⟨raw.map (·.1), false, none, false⟩)
  | none => ⟨raw.map (·.1), false, none, false⟩

/-- A raw output word as it reaches Teff. Where no tile sent one, the spec states no word: it is a free value (log 8). -/
def rawWord (o : LaneOut) (s : State) : Nat × State :=
  match o.word with
  | some w => (w, s)
  | none => takeFree 256 s

end Sys2Proof.Machine
end

