-- ==== Sys2Proof/Machine/Caps.lean ====
section
/-! DEFINITION. What follows from the state of an accelerator's sequencer, branch and requests: its accelerator state
(09 R288, 11 R326), its effective request (11 R329, R331) and the power caps (11 R332, 10 R309). -/
namespace Sys2Proof.Machine

open Sys2Proof

/-! ## Accelerator states (R288) -/

def brLatched (b : Branch) : Bool := b.st == .latched || b.st == .faultFet

/-- ACCEL_STATE: 0 A_OFF, 1 A_SEQ_UP, 2 A_ON, 3 A_SEQ_DOWN, 4 A_LATCHED, 5 A_HELD, 6 A_QUARANTINE. -/
def accelState (s : State) (a : Fin 8) : Nat :=
  match (s.sq.get (seqOf a)).st with
  | .admission | .up | .pgWindow => 1
  | .on => 2
  | .down | .emergency => 3
  | .held => 5
  | .idle | .offWait =>
    if (s.acc.get a).quarantined then 6 else if brLatched (s.br.get (branchOf a)) then 4 else 0

def accelOn (s : State) (a : Fin 8) : Bool := accelState s a == 2

/-! ## Requests (R328, R329, R331) -/

def Accel.someOn (x : Accel) : Bool := x.reqF == .on || x.reqH == .on || x.reqS == .on
def Accel.someOff (x : Accel) : Bool := x.reqP == .off || x.reqF == .off || x.reqH == .off || x.reqS == .off

/-- The effective request: on when some authority holds ON and none holds OFF (R329). -/
def Accel.wantsOn (x : Accel) : Bool := x.someOn && !x.someOff

def flagBit (b : Bool) (i : Nat) : Nat := if b then 2 ^ i else 0

/-- ACCEL_REQ_STATUS (Table 11.6). -/
def Accel.reqStatus (x : Accel) : Nat :=
  flagBit x.effective 0 + flagBit (x.reqP == .off) 1 + flagBit (x.reqF == .off) 2 + flagBit (x.reqH == .off) 3 +
    flagBit (x.reqS == .off) 4 + flagBit (x.reqF == .on) 6 + flagBit (x.reqH == .on) 7 + flagBit (x.reqS == .on) 8

/-! ## Caps (R332) -/

def ratedW (s : State) (a : Fin 8) : Rat := getF s (Obj.accelRatedW a.val)

/-- The accelerators that share a tray cap: those in A_SEQ_UP or A_ON. -/
def sharing (s : State) : List (Fin 8) := (List.finRange 8).filter (fun a => accelState s a == 1 || accelState s a == 2)

/-- The lowest of the terms that take part (0 sets no cap), with the lowest code among equals. -/
def lowestTerm (ts : List (Rat × Nat)) : Option (Rat × Nat) :=
  ts.foldl (fun m t => if t.1 = 0 then m else
    match m with
    | none => some t
    | some x => if t.1 < x.1 then some t else some x) none

/-- The concord cap, one among the caps in RUN with CONCORD_ENABLE 1; none applies otherwise (07 R238). -/
def concordTerm (s : State) : Rat :=
  match s.ani.cstate, s.ani.cap with
  | .off, _ => 0
  | _, none => 0
  | _, some v => if s.part.st = .run && getN s Obj.concordEnable = 1 then Fmt.f64.toRat v else 0

/-- The tray cap and its CAP_SOURCE code. -/
def trayCap (s : State) : Option (Rat × Nat) :=
  lowestTerm [(getF s Obj.facilityTrayCapW, 5), (getF s Obj.hostTrayCapW, 6), (getF s Obj.serviceTrayCapW, 7), (concordTerm s, 8)]

/-- The portion of the tray cap, for an accelerator that shares it. -/
def portion (s : State) (a : Fin 8) : Option (Rat × Nat) :=
  match trayCap s with
  | none => none
  | some (tc, code) =>
    if (sharing s).contains a then
      some (max 0 (tc - getF s Obj.trayOverheadW) * ratedW s a / ((sharing s).map (ratedW s)).sum, code)
    else none

def thermalCapW (s : State) (a : Fin 8) : Rat := ((s.acc.get a).capPct : Rat) * ratedW s a / 100

/-- The accelerator's cap in force and its CAP_SOURCE: a portion of 0 W is a cap, the authorities' 0 is none. -/
def capOf (s : State) (a : Fin 8) : Rat × Nat :=
  let low (m : Rat × Nat) (t : Rat × Nat) : Rat × Nat := if t.1 < m.1 then t else m
  let lowSet (m : Rat × Nat) (t : Rat × Nat) : Rat × Nat := if t.1 = 0 then m else low m t
  let m0 : Rat × Nat := (ratedW s a, 0)
  let m1 := lowSet m0 (getF s (Obj.facilityCapW a.val), 1)
  let m2 := lowSet m1 (getF s (Obj.hostCapW a.val), 2)
  let m3 := lowSet m2 (getF s (Obj.serviceCapW a.val), 3)
  let m4 := low m3 (thermalCapW s a, 4)
  match portion s a with
  | none => m4
  | some t => low m4 t

/-- The management bus engine of the main die recomputes the caps; a changed cap is due to be written (R309, R332). -/
def recomputeCap (a : Fin 8) (s : State) : State :=
  let c := capOf s a
  updAcc a (fun x => { x with
    capW := c.1, capSource := c.2
    limitDue := if x.limitInForce = some c.1 then none else some c.1
    limitTries := if x.capW = c.1 then x.limitTries else 0
    limitRetryDue := if x.capW = c.1 then x.limitRetryDue else none }) s

/-- Where a temperature stands to ACCEL_WARN_C and its hysteresis: 1 above, 2 below, 0 in between (10 R309). -/
def tempZone (s : State) (a : Fin 8) (t : Rat) : Nat :=
  let w := getF s (Obj.accelWarnC a.val)
  if w < t then 1 else if t < w - getF s (Obj.accelHystC a.val) then 2 else 0

/-- The engine reads the accelerator's temperature; a crossing starts the time to the next step. -/
def seeTemp (a : Fin 8) (t : Rat) (s : State) : State :=
  let same : Bool := match (s.acc.get a).temp with
    | some u => tempZone s a u == tempZone s a t
    | none => false
  updAcc a (fun x => { x with temp := some t, tempAt := if same then x.tempAt else s.clk.cycles }) s

def recomputeCaps (s : State) : State := if mainUp s then forAll 8 recomputeCap s else s

/-- At each change into or out of RUN, SAFE among them, the Anise tick in progress is abandoned (07 R215); outside RUN no
concord cap applies (R238). -/
def abandonTick (s : State) : State :=
  recomputeCaps { s with ani := { s.ani with
    ticking := false, newTemps := none, newMpc := none, sums := [], results := [], cstate := .off, cap := none, prevDiverged := false
    jobsBack := none, gBack := none, jobsUe := false } }

end Sys2Proof.Machine
end

