-- ==== Sys2Proof/Machine/Send.lean ====
section
/-! DEFINITION. What the part sends (13 R386 to R390, R394, 12 R366), the part state with its announcement (11 R320), and
PART_DEGRADED (11 R323). -/
namespace Sys2Proof.Machine

open Sys2Proof

/-! ## Host ports -/

/-- Classes 7 and 6 are always open; with an empty list every gate is (R387). -/
def gateOpen (h : HostPort) (cls : Nat) : Bool := decide (6 ≤ cls) || h.gates.entries == [] || bitSet h.open_ cls

/-- What bypasses MACsec: PTP, and in STRICT also ARP, neighbour discovery, SETUP messages and ANNOUNCE (R394, R395). -/
def Msg.bypass : Msg → Bool
  | .ptpSync _ _ | .pdelayResp _ | .delayReq _ _ | .announce _ _ _ _ _ _ | .setupReply _ _ _ | .setupAbort _ | .setupDone _ _ => true
  | .netReply kind => decide (kind < 2)
  | _ => false

def macsecExhausted : Nat := 2 ^ 64 - 1

/-- The VLAN tag of a frame: PCP from its traffic class and the port's VLAN; none on an untagged port (13 R381, Table
13.2; the places in the tag are PRESUMED, log 87). -/
def vlanTag (s : State) (p : Fin 2) (cls : Nat) : Option Nat :=
  let vid := getN s (Obj.portVlan p.val)
  if vid = 0 then none else some (cls * 2 ^ 13 + vid)

/-- The SCI of the part's secure channel: the port's MAC address with port identifier 1 (13 R394). -/
def sci (s : State) (p : Fin 2) : List Byte := lookD s.ident.consts (Blob.portMac p.val) [] ++ [0, 1]

/-- A frame goes on the line, with its tag. -/
def lineAdd (p : Fin 2) (cls : Nat) (m : Msg) (sec : Option (Nat × Nat × List Byte)) (s : State) : State :=
  updHost p (fun h => { h with line := h.line ++ [(cls, m)], tags := h.tags ++ [⟨vlanTag s p cls, sec⟩] }) s

/-- A frame leaves on a port that is UP. A protected frame takes the next packet number; an exhausted association sends
nothing further, and MACSEC_PN_LOW is recorded at 2^64 − 2^32 (R395). -/
def putLine (p : Fin 2) (cls : Nat) (m : Msg) (s : State) : State :=
  let h := s.port.host.get p
  let mode := getN s (Obj.macsecMode p.val)
  let assoc := mode ≠ 0 && h.txAn.isSome
  if mode = 2 && h.txAn.isNone && !m.bypass then s
  else if assoc && cls ≠ 6 && decide (macsecExhausted ≤ h.txPn) then s
  else if assoc && cls ≠ 6 then
    let low := decide (2 ^ 64 - 2 ^ 32 ≤ h.txPn) && !h.pnLow
    let s1 := updHost p (fun h => { h with txPn := h.txPn + 1, pnLow := h.pnLow || low })
      (lineAdd p cls m (h.txAn.map (fun k => (k, h.txPn, sci s p))) s)
    if low then raiseMain .macsecPnLow 0x1463 (openDetail .macsecPnLow p.val) s1 else s1
  else lineAdd p cls m none s

/-! ### Gate control lists (R387) -/

/-- The entry open at an offset into the cycle. -/
def entryAt : List GateEntry → Nat → Nat
  | [], _ => 0
  | e :: t, off => if off < e.interval then 0 else 1 + entryAt t (off - e.interval)

/-- The offset at which the entry open at an offset ends. -/
def entryEnd : List GateEntry → Nat → Nat
  | [], _ => 0
  | e :: t, off => if off < e.interval then e.interval else e.interval + entryEnd t (off - e.interval)

/-- The gates stand as the list in force has them at the present count. -/
def openGates (p : Fin 2) (s : State) : State :=
  updHost p (fun h =>
    if h.gates.entries = [] then { h with open_ := 0xFF, entry := 0 }
    else
      let k := entryAt h.gates.entries (now s % h.gates.cycle)
      { h with entry := k, open_ := (h.gates.entries.getD k ⟨0xFF, 0⟩).gates }) s

/-- How long the gate of a class stays open from an offset on; none where it never closes. -/
def openFor (es : List GateEntry) (off cls : Nat) : Option Nat :=
  let k := entryAt es off
  let rec go : List GateEntry → Nat → Option Nat
    | [], _ => none
    | e :: t, n => if bitSet e.gates cls then go t (n + e.interval) else some n
  if bitSet (es.getD k ⟨0, 0⟩).gates cls then go (es.drop (k + 1) ++ es.take k) (entryEnd es off - off) else some 0

/-- A frame completes before its class's gate closes (R387). -/
def gateFits (s : State) (p : Fin 2) (cls : Nat) (m : Msg) : Bool :=
  let h := s.port.host.get p
  if 6 ≤ cls ∨ h.gates.entries = [] then true
  else
    match openFor h.gates.entries (now s % h.gates.cycle) cls with
    | none => true
    | some n => decide (Config.frameNs (h.link == .up200) m ≤ n)

/-- A frame may start. -/
def maySend (s : State) (p : Fin 2) (cls : Nat) (m : Msg) : Bool := gateOpen (s.port.host.get p) cls && gateFits s p cls m

/-- A frame is handed to a host port: dropped while the link is not UP, queued while its gate is closed or closes before its end
(R384, R386, R387). -/
def sendHost (p : Fin 2) (cls : Nat) (m : Msg) (s : State) : State :=
  if !(hostUp s p) then s
  else if maySend s p cls m then putLine p cls m s
  else updHost p (fun h => { h with queue := h.queue ++ [(cls, m)] }) s

/-- Frames whose gate is open leave, highest class first and each class in order (R386). -/
def drainPort (p : Fin 2) (s : State) : State :=
  let h := s.port.host.get p
  let go := ((List.range 8).reverse.map (fun c => h.queue.filter (fun q => q.1 == c && maySend s p q.1 q.2))).flatten
  let s1 := updHost p (fun h => { h with queue := h.queue.filter (fun q => !(maySend s p q.1 q.2)) }) s
  forEach go (fun q s => putLine p q.1 q.2 s) s1

/-- The next R-TAG number of a stream, of 16 bits (R388). -/
def nextTagOf (s : State) (stream : Nat) : Nat := lookD s.port.rtagTx stream 0

/-- It is used. -/
def useTag (stream : Nat) (s : State) : State :=
  { s with port := { s.port with rtagTx := put s.port.rtagTx stream ((nextTagOf s stream + 1) % 65536) } }

def sendSvc (cls : Nat) (m : Msg) (s : State) : State :=
  if s.port.svcUp then { s with port := { s.port with svcLine := s.port.svcLine ++ [(cls, m)] } } else s

/-- The next SEQ of the part's direction is used; a session whose direction reaches 2^32 closes (16 R474). -/
def nextSeq (n : Nat) (s : State) : State :=
  match look s.oda.sessions n with
  | none => s
  | some x =>
    if x.txSeq + 1 < two32 then { s with oda := { s.oda with sessions := put s.oda.sessions n { x with txSeq := x.txSeq + 1 } } }
    else { s with oda := { s.oda with sessions := del s.oda.sessions n, setups := del s.oda.setups x.setupId } }

/-- A message of an ODA session: on both host ports with one R-TAG number when it is redundant, else on the port of its
last request, or on the other when that link is not UP (R389, R390). -/
def sendSession (n cls : Nat) (m : Msg) (s : State) : State :=
  match look (nextSeq n s).oda.sessions n with
  | none => nextSeq n s
  | some x =>
    let s := nextSeq n s
    if x.port = 2 then sendSvc cls m s
    else if x.redundant then
      let copy := Msg.tagged n (nextTagOf s n) m
      sendHost 1 cls copy (sendHost 0 cls copy (useTag n s))
    else
      let p : Fin 2 := if x.port = 0 then 0 else 1
      if hostUp s p then sendHost p cls m s else sendHost (1 - p) cls m s

/-- A fault beacon: as the session's other messages when redundant, else on every host port that is UP (R390). -/
def sendBeacon (n : Nat) (m : Msg) (s : State) : State :=
  match look s.oda.sessions n with
  | none => s
  | some x =>
    if x.port = 2 || x.redundant then sendSession n 7 m s
    else if ((look (nextSeq n s).oda.sessions n)).isNone then nextSeq n s
    else sendHost 1 7 m (sendHost 0 7 m (nextSeq n s))

/-- The address an announcement goes to: ANNOUNCE_GROUP, or the IPv4 address in one of the form ::ffff:a.b.c.d (12 R366). -/
def announceGroup (s : State) : List Byte :=
  let a := getBlob s Blob.announceGroup
  let g : List Byte := if a = [] then [0xFF, 0x02] ++ List.replicate 13 0 ++ [1] else a
  if g.take 12 = List.replicate 10 0 ++ [0xFF, 0xFF] then g.drop 12 else g

def announceMsg (s : State) (port : Nat) : Msg :=
  .announce (announceGroup s) s.part.st port s.clk.epoch ((s.ev.history.head?.map (·.seq)).getD 0)
    ((s.ev.history.getLast?.map (·.seq)).getD (s.ev.nextSeq - 1))

/-- ANNOUNCE on a host port, class 2 (12 R366). -/
def announceHost (p : Fin 2) (s : State) : State := sendHost p 2 (announceMsg s p.val) s
def announceSvc (s : State) : State := sendSvc 2 (announceMsg s 2) s

def announceAll (s : State) : State := announceSvc (announceHost 1 (announceHost 0 s))

/-! ## The part state -/

/-- The part changes state; a change is announced on every port (11 R320, 12 R366). -/
def enterPart (st : PartState) (s : State) : State :=
  if s.part.st = st then s
  else announceAll { s with part := { s.part with st := st, stateCount := ryeStamp s } }

end Sys2Proof.Machine
end

