-- ==== Sys2Proof/Machine/Frame.lean ====
section
/-! DEFINITION. Frames (02 R58 to R67, 04 R126 to R140, 05 R158 to R164, 06 R208): inputs and cutoffs, INGEST, the EMIT
windows, the end of a frame, launch, rejoin, and the errors of tiles that act on frames (03 R75 to R81). -/
namespace Sys2Proof.Machine

open Sys2Proof

def frameSrc : Nat := 0x1210

/-! ## Inputs (02 R65, R66) -/

/-- The cutoff of frame n: start − 2,000 ns. -/
def cutoffOf (s : State) (n : Nat) : Nat := startOf s n - 2000

/-- The frame whose cutoff interval holds a count: the least n with count ≤ C(n). A count at or before C(−1) is given frame 0, the first
of the launch, so that no shift is recorded against it (DESIGN CHOICE, log 26: R65 gives such a count no frame). -/
def frameOfCount (s : State) (c : Count) : Nat := ceilDiv (c + 2000 - getN s Obj.launchAt) (frameNs s)

/-- Nominal latency of a source (Table 2.5); `kept` says that a sideband count was carried and kept. -/
def nominalNs (s : State) (src : Nat) (kept : Bool) : Nat :=
  if src < 0x0200 then 1500
  else if src < 0x1000 then 200
  else if src < 0x6000 then
    (if kept then getN s (Obj.sbLatencyNs ((src - 0x1000) / 0x0800)) else 800)
  else 1000

def addEntry (e : LedgerEnt) (l : FrameLedger) : FrameLedger :=
  if l.entries.length < 1024 then { l with entries := l.entries ++ [e] } else { l with dropped := min (l.dropped + 1) u16 }

def noteEntry (e : LedgerEnt) (s : State) : State := setEng (fun g => { g with nextLedger := addEntry e g.nextLedger }) s

/-- LATE_NS of an entry: the arrival count minus the cutoff of the nominal frame (Table 2.7). -/
def lateNs (s : State) (x : Sample) : Nat := min (x.arrival - cutoffOf s x.nominal) u32

/-- Of two samples of one source and frame the later one stands, the other is SUPERSEDED (R66). Of two with equal sample counts,
on which R66 is silent, the first stands (DESIGN CHOICE, log 26). -/
def putSample (src : Nat) (x : Sample) (s : State) : State :=
  match look s.eng.arriving src with
  | some a =>
    if a.count < x.count then
      noteEntry ⟨src, 2, 0, lateNs s a, a.count⟩ (setEng (fun g => { g with arriving := put g.arriving src x }) s)
    else noteEntry ⟨src, 2, 0, lateNs s x, x.count⟩ s
  | none => setEng (fun g => { g with arriving := put g.arriving src x }) s

/-- A sample of the next frame is latched, superseded, or discarded as late (R66), with a SHIFT entry when its nominal
frame is earlier (R65). -/
def placeSample (src : Nat) (x : Sample) (s : State) : State :=
  let n := s.eng.next
  let s1 := if x.nominal < n then noteEntry ⟨src, 1, min (n - x.nominal) 255, lateNs s x, x.count⟩ s else s
  match look s.eng.samples src with
  | some old => if x.count ≤ old.count then noteEntry ⟨src, 3, 0, lateNs s x, x.count⟩ s1 else putSample src x s1
  | none => putSample src x s1

/-- An armed launch whose frame 0 is near enough for a count: it lies after C(−1). -/
def inLaunch (s : State) (c : Count) : Bool :=
  getN s Obj.launchAt ≠ 0 && decide (getN s Obj.launchAt < c + frameNs s + 2000)

/-- The frame a sample that arrives at a count counts for: no cutoff that has passed takes it. -/
def actualFrame (s : State) (arrival : Count) : Nat :=
  max (if s.eng.cutoff.isSome then s.eng.next + 1 else s.eng.next) (frameOfCount s arrival)

/-- A sample reaches Teff at its arrival count. Outside a launch no frame takes it and it is only the source's last
sample (DEDUCED, log 26). -/
def arriveSample (src sample arrival value mean : Nat) (kept : Bool) (s : State) : State :=
  if !(inLaunch s arrival) then
    let x : Sample := ⟨sample, arrival, value, mean, false, 0⟩
    setEng (fun g => { g with samples := put g.samples src x, reuse := put g.reuse src x }) s
  else
    let actual := actualFrame s arrival
    let nominal := frameOfCount s (sample + nominalNs s src kept)
    let x : Sample := ⟨sample, arrival, value, mean, decide (nominal < actual), nominal⟩
    if actual = s.eng.next then placeSample src x s
    else setEng (fun g => { g with early := g.early ++ [⟨actual, nominal, src, x⟩] }) s

/-- The conversions of a source of Rye that count for the frame: stamped after C(n − 1) − 1,520 ns and not after C(n) − 1,520 ns
(04 R129). Outside a launch there is no such interval, and all count. -/
def convsFor (s : State) (arrival : Count) (cs : List (Count × Int)) : List (Count × Int) :=
  if inLaunch s arrival then
    let hi := cutoffOf s (actualFrame s arrival)
    cs.filter (fun c => decide (c.1 + 1520 ≤ hi) && decide (hi < c.1 + 1520 + frameNs s))
  else cs

/-- The latest of some conversions: the last one of the highest stamp. -/
def latestConv : List (Count × Int) → Option (Count × Int)
  | [] => none
  | c :: t => some (t.foldl (fun a b => if a.1 ≤ b.1 then b else a) c)

/-- LAST and MEAN of the conversions with the count of the latest: the sum is exact, and the mean is rounded once to FP32 (04
R129, R130). None is delivered where there is no conversion. -/
def lastAndMean (cs : List (Count × Int)) : Option (Count × Nat × Nat) :=
  match latestConv cs with
  | none => none
  | some last =>
    some (last.1, fInt last.2, f32OfRat (mkRat ((cs.map (·.2)).foldl (· + ·) 0) cs.length))

/-- A channel's temperature reaches the accelerators whose source it is (10 R309). -/
def seeSource (source : Nat) (t : Rat) (s : State) : State :=
  forAll 8 (fun a s => if getN s (Obj.accelTempSource a.val) = source then seeTemp a t s else s) s

/-- RAIL_V of a rail-sense source takes its last conversion, at 0.25 mV a code (09 R278, 18 Table 18.7), and a used temperature
channel without a sensor fault its own, at 0.25 °C a code (10 R313; DEDUCED, log 26). -/
def seeConversion (source : Nat) (x : RawSample) (s : State) : State :=
  match x with
  | .int _ _ => s
  | .convs cs =>
    match latestConv cs with
    | none => s
    | some c =>
      if h : 0x100 ≤ source ∧ source < 0x180 then
        updRail ⟨(source - 0x100) / 16, by omega⟩ (Fin.ofNat 16 source) (fun y => { y with v := mkRat c.2 4000 }) s
      else if h : 0x180 ≤ source ∧ source < 0x1A0 then
        let ch : Fin 32 := ⟨source - 0x180, by omega⟩
        if getN s (Obj.tempChKind ch.val) = 0 || s.heat.chFault.get ch then s
        else seeSource source (mkRat c.2 4) { s with heat := { s.heat with channels := vupd s.heat.channels ch (fun _ => some (mkRat c.2 4)) } }
      else s

/-- The source is a temperature channel with a sensor fault: its sample has no value, and a NaN gives the gap token (10 R313, 04
R134; DEDUCED, log 26). -/
def noValue (s : State) (source : Nat) : Bool :=
  if h : 0x180 ≤ source ∧ source < 0x1A0 then s.heat.chFault.get ⟨source - 0x180, by omega⟩ else false

/-- SAMPLE_ARRIVAL: an integer sample is converted exactly (04 R129, R130). -/
def execSampleArrival (source arrival : Nat) (kept : Bool) (x : RawSample) (s : State) : Out :=
  let s0 := if s.clk.running then seeConversion source x s else s
  if (s.part.st = .ready ∨ s.part.st = .run) ∧ sourceOk source then
    match (match x with
      | .int c v => some (c, fInt v, fInt v)
      | .convs cs => lastAndMean (convsFor s arrival cs)) with
    | some (c, v, m) =>
      .next (if noValue s0 source then arriveSample source c arrival nanF32 nanF32 kept s0 else arriveSample source c arrival v m kept s0)
    | none => .next s0
  else .next s0

/-- Samples that arrived ahead of their frame's turn are placed when it comes; those of a frame that was not run are latched for
no session (05 Table 5.1). -/
def promoteEarly (s : State) : State :=
  let due := s.eng.early.filter (fun e => decide (e.frame = s.eng.next))
  forEach due (fun e s => placeSample e.source e.sample s)
    (setEng (fun g => { g with early := g.early.filter (fun e => decide (g.next < e.frame)) }) s)

/-! ## Which sessions advance (05 R158) -/

/-- (n − phase) mod k = 0. -/
def onPhase (k phase n : Nat) : Bool := decide (0 < k) && (n + k - phase % k) % k == 0

/-- The engine runs frame n: it is not stopped, and n is a run frame of the skip divisor (10 R303). -/
def runsFrame (s : State) (n : Nat) : Bool := !s.eng.stopped && onPhase s.eng.skipDiv s.eng.skipBase n

/-- A logical tile that can run: bound, not held, and its tile in a domain that is not LOST (R210, R211). -/
def tileBound (s : State) (l : Nat) : Bool :=
  match (bindAt s.img.binds l).ptile with
  | some q => !(bindAt s.img.binds l).hold && !(if q < 34 then s.img.lostDom.get 0 else s.img.lostDom.get 1)
  | none => false

/-- A change accepted at count c is effective at the start of frame n (04 R122). -/
def effectiveBy (s : State) (n : Nat) (c : Count) : Bool := decide (c + 2000 ≤ startOf s n)

def opensIn (s : State) (n : Nat) (x : Sess) : Bool :=
  x.st == .pending && (match x.openReady with | some c => effectiveBy s n c | none => false) && tileBound s x.ltile

def closesIn (s : State) (n : Nat) (x : Sess) : Bool :=
  x.st == .closing && (match x.closeCount with | some c => effectiveBy s n c | none => false)

def bindK (s : State) (x : Sess) : Nat := kOf (bindAt s.img.binds x.ltile) s.eng.skipDiv
def bindPhase (s : State) (x : Sess) : Nat := phaseOf (bindAt s.img.binds x.ltile) s.eng.skipBase s.eng.skipDiv

def advancesIn (s : State) (n : Nat) (x : Sess) : Bool :=
  if x.st = .pending then opensIn s n x && onPhase (bindK s x) (bindPhase s x) n
  else x.live && !(closesIn s n x) && !x.moving && !x.lost && tileBound s x.ltile && onPhase x.k x.phase n &&
    (match x.stopUntil with | some m => decide (m ≤ n) | none => true)

/-- The descriptor in force in frame n: the last write effective by then (04 R122). -/
def descIn (s : State) (n : Nat) (x : Sess) : Desc :=
  ((x.changes.filter (fun c => effectiveBy s n c.count)).getLast?.map (·.desc)).getD x.eff

/-- The derived values of the most recent EMIT window that ended before the cutoff (04 R130). -/
def derivedAt (s : State) (n : Nat) : Map Nat :=
  if decide (cutoffOf s n ≤ s.eng.derivedEnd) then s.eng.derivedOld else s.eng.derived

/-- The value of a sample that REDUCE names. -/
def Sample.take (x : Sample) (d : Desc) : Nat := if d.reduce = 1 then x.mean else x.value

/-- The sample a session is given for frame n (04 R129, R130). -/
def latchedFor (s : State) (n : Nat) (d : Desc) : Option Latched :=
  if d.kind = 1 then (look s.eng.arriving d.source).map (fun x => ⟨x.take d, x.late⟩)
  else if d.kind = 2 then some ⟨lookD (derivedAt s n) d.source 0, false⟩
  else if d.kind = 3 then some ⟨d.inject, false⟩
  else none

/-- The sample latched earlier that it may reuse. -/
def reusedFor (s : State) (d : Desc) : Option Nat :=
  if d.kind = 1 then (look s.eng.reuse d.source).map (fun x => x.take d) else none

/-- Teff state as at open (04 R134). -/
def Sess.freshTeff (x : Sess) : Sess := { x with yref := none, lastCode := 0, held := 0, gaps := 0, stales := 0, satToken := false, sflags := 0 }

/-- One session's token for frame n. -/
def tokenizeFor (n : Nat) (p : Nat × Sess) (s : State) : State :=
  if advancesIn s n p.2 then
    let d := descIn s n p.2
    let x := if p.2.st = .pending then p.2.freshTeff else p.2
    let r := tokenize d (edgesOf s d.codebook) (latchedFor s n d) (reusedFor s d) x
    let gap := if bitSet r.1 12 then 1 else 0
    setEng (fun g => { g with nextTokens := put g.nextTokens p.1 r.1, teff := put g.teff p.1 r.2,
                              nextLedger := { g.nextLedger with gaps := min (g.nextLedger.gaps + gap) u16 } }) s
  else s

/-- A session whose stop has run out is restored before its next token, from the checkpoint fixed at the start of the frame after
the error (05 R162). -/
def restoreDue (n : Nat) (s : State) : State :=
  forEach ((liveSessions s).filter (fun p => match p.2.stopUntil with | some m => decide (m ≤ n) && !p.2.lost && !p.2.moving | none => false))
    (fun p s => restoreOne p.1 s) s

/-- The cutoff of frame n: inputs are latched and every session that advances in it is tokenized. The samples of a frame that is
not run are latched for no session. -/
def cutoffFrame (s : State) : State :=
  let n := s.eng.next
  let runs := runsFrame s n
  let s1 := if runs then restoreDue n s else s
  let s2 := if runs then forEach (liveSessions s1) (fun p s => tokenizeFor n p s) s1 else s1
  setEng (fun g => { g with samples := putAll g.arriving g.samples, reuse := if runs then putAll g.arriving g.reuse else g.reuse
                            arriving := [], cutoff := some n }) s2

/-- FRAME_CUTOFF: the cutoff of the next frame, from an armed launch on. -/
def execFrameCutoff (s : State) : Out :=
  if getN s Obj.launchAt ≠ 0 ∧ (s.part.st = .run ∨ (s.part.st = .ready ∧ !s.eng.any)) ∧ s.eng.cutoff.isNone then
    .next (cutoffFrame (reachCount (cutoffOf s s.eng.next) s))
  else .next s

/-! ## INGEST -/

/-- A PENDING session becomes OPEN: INIT state, Teff state reset, sticky flags and counters cleared (Table 4.5, R124). Its last record is
gone: SESSION_OUTPUT reads zeros until the frame's main EMIT window ends (DESIGN CHOICE, log 50: R138 states no reading for that
time). -/
def openNow (n k : Nat) (s : State) : State :=
  let x := getSess s k
  let d := descIn s n x
  let c := ((x.changes.filter (fun c => effectiveBy s n c.count)).getLast?.map (·.count)).getD x.effCount
  let y : Sess := { x.freshTeff with
    st := .opened, eff := d, effCount := c, modelActive := d.model, k := bindK s x, phase := bindPhase s x, openReady := none
    openedFrame := n, state := initOf s d.model, fresh := true, copyBad := false, sflags := if d.replica then 16 else 0
    saturations := 0, invalids := 0, switches := 0, mismatches := 0, record := none, lastValid := none
    changes := x.changes.filter (fun c => !(effectiveBy s n c.count)) }
  let s1 := addCtrl (ctrlDesc k d c) (setSess k y s)
  let s2 := if y.k ≠ 1 then addCtrl (ctrlAdvance k y.k y.phase) s1 else s1
  raiseMain .sessionOpened sessSrc (openDetail .sessionOpened k) s2

def closeNow (k : Nat) (s : State) : State :=
  let x := getSess s k
  raiseMain .sessionClosed sessSrc (openDetail .sessionClosed k)
    (addCtrl (ctrlDesc k x.desc (x.closeCount.getD 0)) (updSess k Sess.release s))

/-- The last write effective by frame n takes effect (R122). -/
def changeNow (n k : Nat) (s : State) : State :=
  let x := getSess s k
  match (x.changes.filter (fun c => effectiveBy s n c.count)).getLast? with
  | none => s
  | some c =>
    addCtrl (ctrlDesc k c.desc c.count)
      (updSess k (fun x => { x with eff := c.desc, effCount := c.count, changes := x.changes.filter (fun c => !(effectiveBy s n c.count)) }) s)

/-- Whether the state a switch forms still holds words of the old one (R142). -/
def stateCarried (old new : Option Model) : Bool :=
  match old, new with
  | some o, some n => (match governing o n with | some a => a.mapMode | none => o.shape == n.shape)
  | _, _ => false

/-- The k and phase of the binding in force, with an ADVANCE record where they change (05 R158). -/
def alignAdvance (k : Nat) (s : State) : State :=
  let x := getSess s k
  if x.moving || (x.k = bindK s x && x.phase = bindPhase s x) then s
  else addCtrl (ctrlAdvance k (bindK s x) (bindPhase s x)) (updSess k (fun x => { x with k := bindK s x, phase := bindPhase s x }) s)

/-- A switch takes effect, or cannot and the session keeps its model (04 R146, R148). -/
def switchNow (n k : Nat) (s : State) : State :=
  let x := getSess s k
  match x.switch with
  | none => s
  | some w =>
    let ready := match w.readyAt with | some c => effectiveBy s n c | none => false
    let loaded := match w.readyAt with | some c => decide (c ≤ startOf s n) | none => false
    if (w.frame = 0 && ready) || (w.frame ≠ 0 && decide (w.frame ≤ n) && loaded) then
      let old := modelOf s x.modelActive
      let new := modelOf s w.model
      s |> updSess k (fun x => { x with
            state := adaptState old new x.state, fresh := true, copyBad := x.copyBad && stateCarried old new
            modelActive := w.model, switch := none, lane := w.lane, ltile := laneTile s w.lane, switches := min (x.switches + 1) u32 })
        |> addCtrl (ctrlSwitch k w.model w.count (match new with | some m => m.digest | none => []))
        |> alignAdvance k |> raiseMain .modelSwitched sessSrc (openDetail .modelSwitched k)
    else if w.frame ≠ 0 && decide (w.frame ≤ n) then
      raiseMain .modelLoadFailed sessSrc (openDetail .modelLoadFailed k)
        (updSess k (fun x => { x with switch := none, lastError := 0x00070106 }) s)
    else s

/-- INGEST for one session. -/
def ingestOne (n k : Nat) (s : State) : State :=
  let x := getSess s k
  if opensIn s n x then openNow n k s
  else if closesIn s n x then closeNow k s
  else if x.st = .opened || x.st = .closing then switchNow n k (changeNow n k s)
  else s

/-- The token of a session that advances comes into force with the Teff state formed at the cutoff; the sticky flags of 04 Table 4.3
join, REPLICA_ACTIVE is that of the session. One stopped since the cutoff does not advance (05 R162). -/
def takeToken (n k t : Nat) (s : State) : State :=
  let x := getSess s k
  match look s.eng.teff k with
  | none => s
  | some y =>
    if (x.st = .opened || x.st = .closing) && !x.lost && !x.moving && (match x.stopUntil with | some m => decide (m ≤ n) | none => true) then
      let bad := x.eff.kind == 2 && s.eng.derivedBad.contains x.eff.source
      let x1 := { x with yref := y.yref, lastCode := y.lastCode, held := y.held, gaps := y.gaps,
                         stales := y.stales, sflags := x.sflags ||| (y.sflags % 16), satToken := y.satToken, lastToken := t, lastFrame := n }
      let x1 := if bad then x1.poison n else x1
      setEng (fun g => { g with tokens := put g.tokens k t
                                yrefs := if x.eff.delta then put g.yrefs k (y.yref.getD 0) else g.yrefs }) (setSess k x1 s)
    else s

def slicedNow (s : State) : Bool :=
  s.eng.sess.any (fun p => p.2.st == .opened && (decide (s.eng.skipDiv < p.2.k) || p.2.k == 0))

/-- What the rings take from the control records of a frame: the images in force, and the selection of LONG_CAPTURE (05 R171,
R173). -/
def ringNotes (n : Nat) (cs : List Ctrl) (r : Rings) : Rings :=
  { r with
    images := r.images ++ cs.filterMap (fun c => match c.payload with | .bytes bs => if c.kind = 7 then some (n, c.aux, bs) else none | _ => none)
    select := selectAfter r.select cs }

/-- Frame n begins: its ledger header, and the control records that stand in it. A stop that began in the frame before it gets its
checkpoint now (05 R162). -/
def beginFrame (n : Nat) (skipped : Bool) (s : State) : State :=
  let newest := (newestCkpt s).map (·.frame)
  setEng (fun g => { g with
    frame := n, next := n + 1, cutoff := none, tokens := [], yrefs := [], records := [], controls := g.nextControls, nextControls := []
    ring := ringNotes n g.nextControls g.ring
    cur := { g.nextLedger with frame := n, start := startOf s n, epoch := s.clk.epoch, skipped := skipped
                               notLocked := s.clk.state != .locked, sliced := slicedNow s }
    nextLedger := FrameLedger.empty
    sess := g.sess.map (fun p => (p.1, { p.2 with
      frameFlags := 0, restoreBase := if p.2.stopUntil.isSome && p.2.restoreBase.isNone then some newest else p.2.restoreBase })) }) s

/-! ## The end of a frame -/

def blockOf (s : State) (ckptCrc : Nat) : RingBlock :=
  ⟨s.eng.cur, s.eng.tokens, s.eng.yrefs, s.eng.controls, recordCrc s.eng.records, ckptCrc⟩

/-- A tile that must fail at the end of the frame does (03 R77, 06 R206). -/
def failTile (t : Fin 68) (n : Nat) (s : State) : State :=
  let d : Fin 2 := if t.val < 34 then 0 else 1
  checkDomain d (replaceTile t n (markFailed t s))

/-- The bundles of the tiles that met an uncorrectable one are loaded again from the image (03 R81). -/
def reloadCode (s : State) : State :=
  match imageNow s with
  | none => s
  | some x =>
    forEach (List.range x.nL) (fun l s =>
      match x.ltiles[l]?, tileAt (bindAt s.img.binds l).ptile with
      | some e, some p =>
        if (s.eng.tiles.get p).imemBad = [] then s
        else
          let b := bindAt s.img.binds l
          updTile p (fun y => putCode y.ihalf (firstBundle b) (4096 / b.fold) e.code y) s
      | _, _ => s) s

/-- At the frame boundary: tiles fail, bundles are reloaded, the error logs are cleared (03 R81, 06 R208). -/
def boundaryTiles (n : Nat) (s : State) : State :=
  let s1 := reloadCode (forAll 68 (fun t s => if (s.eng.tiles.get t).failNow then failTile t n s else s) s)
  setEng (fun g => { g with tiles := g.tiles.map (fun x => { x with badBundle := false, log := false, imemBad := [], counted := [], beatBad := false }) }) s1

/-- Frames cease: what waited for a frame takes effect as in READY (DEDUCED, log 25); a COLD activation past its frame C
completes. -/
def settleReady (s : State) : State :=
  let s0 := match s.img.plan with | some p => releaseHeld p [] s | none => s
  let s1 := forEach s.img.repls switchRepl (setImg (fun m => { m with plan := none, repls := [] }) s0)
  let s2 := setImg (fun m => { m with act := match m.act with
    | .hot i _ => .ready i
    | .coldWait i _ => .ready i
    | a => a }) s1
  let s3 := match s2.img.coldStop with | some (i, _, _) => coldFinish i s2 | none => s2
  recompute [] (setEng (fun g => { g with
    cutoff := none, nextTokens := [], teff := [], nextLedger := FrameLedger.empty, arriving := [], early := [], stopped := false }) s3)

def stopRings (s : State) : State :=
  setEng (fun g => { g with ring := if g.ring.st = .recording then { g.ring with st := .idle } else g.ring }) s

/-- The last frame before FRAME_STOP_AT has ended: READY, with both launch objects cleared (02 R62). -/
def stopLaunch (s : State) : State :=
  let s1 := setEng (fun g => { g with running := false, any := false }) (setN (setN s Obj.launchAt 0) Obj.frameStopAt 0)
  settleReady (stopRings (abandonTick (enterPart .ready s1)))

/-- SAFE entered from RUN stops the engine at the end of the frame in progress (11 R325). -/
def stopSafe (s : State) : State := stopRings (setEng (fun g => { g with running := false, cutoff := none, nextTokens := [], teff := [] }) s)

/-- The logical tile's last frame of a checkpoint interval is n: it does not run again before the checkpoint frame (06 R203). -/
def lastRun (s : State) (l n : Nat) : Bool :=
  let k := kOf (bindAt s.img.binds l) s.eng.skipDiv
  onPhase k (phaseOf (bindAt s.img.binds l) s.eng.skipBase s.eng.skipDiv) n && decide ((n + k) / 64 ≠ n / 64)

/-- The image's checkpoint step, enabled for a logical tile in its last frame of the interval only: the state of each session stands in
the staging bank that CKPT_MAP names (06 Table 6.8, R203; that the step's bundles do no more is DEDUCED, log 84). -/
def ckptStep (n : Nat) (s : State) : State :=
  match imageNow s with
  | none => s
  | some x =>
    if s.eng.stopped then s
    else
      forEach (liveSessions s) (fun p s =>
        match x.ckptMap.find? (fun e => e.lane == p.2.lane), tileAt (bindAt s.img.binds p.2.ltile).ptile with
        | some e, some t =>
          if lastRun s p.2.ltile n && p.2.st != .pending then
            updTile t (fun y => wrStaging y (firstPair (bindAt s.img.binds p.2.ltile)) (e.pair * 0x20000 + e.bankOff)
              (p.2.state.take e.length) p.2.copyBad) s
          else s
        | _, _ => s) s

/-- The end of frame n: checkpoint, block, tile failures, and a stop that is due. -/
def endFrame (n : Nat) (s : State) : State :=
  let s := ckptStep n (restTiles s)
  let ck := n % 64 == 63 && !s.eng.stopped
  let s1 := if ck then beginCkpt n s else s
  let crc := if ck then (match s1.eng.writing with | some k => k.crc | none => 0) else 0
  let s2 := writeBlock (blockOf s1 crc) s1.eng.records s1
  let s3 := if ck then mapSess (fun _ x => if x.eff.replica then { x with sflags := x.sflags ||| 16, onTwin := false } else x) s2 else s2
  let s4 := boundaryTiles n (setEng (fun g => { g with p0Done := true, mainDone := true }) s3)
  if s4.part.st = .safe then stopSafe s4
  else if getN s4 Obj.frameStopAt ≠ 0 ∧ getN s4 Obj.frameStopAt ≤ startOf s4 (n + 1) then stopLaunch s4
  else s4

/-- A frame not run: its block has no tokens, and it is counted (02 R63). -/
def skipFrame (n : Nat) (s : State) : State :=
  let s1 := setEng (fun g => { g with nextTokens := [], teff := [] }) (beginFrame n true s)
  signalCell 3 1 (endFrame n (promoteEarly (incMax s1 Obj.framesSkipped 1 u64)))

/-- A frame that runs: INGEST to cycle 1,024 (Table 4.14). -/
def runFrame (n : Nat) (s : State) : State :=
  let toks := s.eng.nextTokens
  let s1 := signalCell 0 1 (beginFrame n false s)
  let s2 := forEach (liveSessions s1) (fun p s => ingestOne n p.1 s) s1
  let s3 := forEach toks (fun p s => takeToken n p.1 p.2 s) s2
  let s4 := setEng (fun g => { g with nextTokens := [], teff := [], p0Done := false, mainDone := false, deriving_ := [] }) s3
  let ls := match imageNow s4 with | some x => ltilesOf s4 n x | none => []
  runTo 1024 (promoteEarly (ingestAll (startTiles ls s4)))

/-- FRAME_START: cycle 0 of the frame whose inputs are latched. -/
def execFrameStart (s : State) : Out :=
  match s.eng.cutoff with
  | none => .next s
  | some n =>
    if s.part.st ≠ .run || !s.eng.mainDone || n ≠ s.eng.next then .next s
    else
      let s1 := reachCount (startOf s n) s
      .next (noteDegraded (if runsFrame s1 n then runFrame n s1 else skipFrame n s1))

/-! ## EMIT (04 R136 to R140, 06 R208) -/

/-- What one copy yields: its raw output word, its fields with the new state, and the mark of that state. -/
structure Copy where
  word : Nat
  raw : RawCopy
  stateBad : Bool
  deriving DecidableEq, Repr

/-- The two comparisons of 06 R208: the raw output words, and a CRC-64 over each updated state. -/
def sameCopy (a b : Copy) : Bool := a.word == b.word && crc64 a.raw.state == crc64 b.raw.state

/-- A copy is suspect when its tile logged an error in the frame (06 R208). -/
def suspect (s : State) (lane : Nat) : Bool :=
  match ptileOf s (laneTile s lane) with
  | some p => (s.eng.tiles.get p).log
  | none => false

/-- What a session that advanced yields: its record, its next state, and the control records and triggers it causes. -/
structure Yield where
  sess : Sess
  record : Record
  ctrl : Option Ctrl
  mismatch : Bool
  deriving DecidableEq, Repr

/-- A record marked invalid; the state is restored under 05 R162. -/
def invalidated (n k cause : Nat) (x : Sess) : Yield :=
  ⟨{ x with poisoned := false, stopUntil := some (x.stopUntil.getD (n + 2)) }, heldRecord k n x.lastToken x, some (ctrlInvalidate k cause), false⟩

/-- The session after a frame that ran: the new state of a copy, with its mark. -/
def Sess.goOn (x : Sess) (c : Copy) : Sess := { x with state := c.raw.state, copyBad := c.stateBad }

/-- The outcome of a frame for a session that advanced (04 R139, 06 Table 6.12). -/
def yieldOf (s : State) (n k : Nat) (x : Sess) (main : Copy) (twin : Option Copy) : Yield :=
  let good (c : Copy) (checked : Bool) : Yield :=
    let rec_ := formRecord k n x.lastToken x.eff (midsOf s x.eff.codebook) x c.raw x.frameFlags checked
    ⟨{ x.goOn c with lastValid := some rec_ }, rec_, none, false⟩
  if x.poisoned then { invalidated n k 1 x with sess := { (invalidated n k 1 x).sess.goOn main with copyBad := true } }
  else
    match twin with
    | none => good main false
    | some t =>
      if !(bitSet x.sflags 4) then good (if x.onTwin then t else main) false
      else if sameCopy main t then good main true
      else
        let a := suspect s x.lane
        let b := match twinLane (lanesNow s) x.lane with | some q => suspect s q | none => false
        let x1 := { x with mismatches := min (x.mismatches + 1) u32 }
        if a != b then
          ⟨{ x1.goOn (if a then t else main) with sflags := putBit x1.sflags 4 false, onTwin := a }, heldRecord k n x.lastToken x,
            some (ctrlInvalidate k 2), true⟩
        else { invalidated n k 2 (x1.goOn main) with mismatch := true }

/-- The record of a session that did not advance: withheld while its state is being restored, else a copy of its last
record (R139, 05 R162, 06 R210). -/
def idleRecord (n k : Nat) (x : Sess) : Record :=
  if x.lost || (match x.stopUntil with | some m => decide (n < m) | none => false) then heldRecord k n x.lastToken x
  else notAdvanced k n x x.record

/-- A session's record is written to the board of the frame. -/
def putYield (k : Nat) (y : Yield) (s : State) : State :=
  let s1 := setEng (fun g => { g with records := put g.records k y.record }) (setSess k y.sess s)
  let s2 := forEach y.ctrl.toList addCtrl s1
  if y.mismatch then ringTrigger 2 s2 else s2

/-- DETOK of a token's code: the PRESENT value of 07 R229. -/
def presentOf (s : State) (x : Sess) : Nat := (detok x.eff (midsOf s x.eff.codebook) x.yref (x.lastToken % 4096)).1

/-- The copy of a session that a lane yields in the frame, and whether its output is marked. -/
def copyAt (lane : Nat) (x : Sess) (s : State) : (Copy × Bool) × State :=
  let o := laneOut s lane x.state.length
  let (w, s1) := rawWord o s
  ((⟨w, rawOf w (o.state.getD x.state), if o.state.isSome then o.stateBad else x.copyBad⟩, o.bad), s1)

/-- A session that advanced gives its record. The mark of a copy counts while that copy is in use (R80, 06 R208). -/
def emitOne (p0 : Bool) (n k : Nat) (s : State) : State :=
  let x := getSess s k
  if (x.eff.cls == 0) != p0 || (look s.eng.tokens k).isNone || (look s.eng.records k).isSome then s
  else
    let ((a, badA), s1) := copyAt x.lane x s
    match (if x.eff.replica then twinLane (lanesNow s) x.lane else none) with
    | none => putYield k (yieldOf s1 n k { x with poisoned := x.poisoned || badA } a none) (if badA then markUncorrectable s1 else s1)
    | some q =>
      let ((b, badB), s2) := copyAt q x s1
      let both := bitSet x.sflags 4
      let bad := (badA && (both || !x.onTwin)) || (badB && (both || x.onTwin))
      putYield k (yieldOf s2 n k { x with poisoned := x.poisoned || bad } a (some b)) (if bad then markUncorrectable s2 else s2)

/-- Class P0 sessions that did not advance have their record with the others of the class (R138, R139). -/
def emitIdle (n k : Nat) (s : State) : State :=
  let x := getSess s k
  if x.eff.cls == 0 && (look s.eng.tokens k).isNone && (look s.eng.records k).isNone then
    setEng (fun g => { g with records := put g.records k (idleRecord n k x) }) s
  else s

/-- The derived values of an EMIT window stand on the board from its end; `main` keeps those before a main window (04 R130). -/
def putDerived (main : Bool) (end_ : Count) (s : State) : State :=
  let new := s.eng.deriving_.map (fun p => (p.1, (p.2.1, p.2.2 || tileSpoilt s (look s.eng.deriveFrom p.1))))
  setEng (fun g => { g with
    derived := putAll (new.map (fun p => (p.1, p.2.1))) g.derived
    derivedOld := if main then g.derived else putAll (new.map (fun p => (p.1, p.2.1))) g.derived
    derivedEnd := if main then end_ else g.derivedEnd
    derivedBad := (g.derivedBad.filter (fun i => (look new i).isNone)) ++ ((new.filter (fun p => p.2.2)).map (·.1)), deriving_ := [] }) s

def activeSessions (s : State) : List Nat := ((liveSessions s).filter (fun p => p.2.st != .pending)).map (·.1)

/-- PRESENT of the sessions that advance stands in region 4 (07 R229); one that does not advance keeps the value of its last token. -/
def notePresent (s : State) : State :=
  let ks := (activeSessions s).filter (fun k => (getSess s k).eff.cls == 0 && (getSess s k).eff.consumer / 4096 == 1 && (look s.eng.tokens k).isSome)
  { s with ani := { s.ani with
    present := ks.foldl (fun m k => put m k (presentOf s (getSess s k))) (s.ani.present.filter (fun p => (activeSessions s).contains p.1)) } }

/-- The count of a cycle of frame n: 0.8 ns each. -/
def cycleCount (s : State) (n c : Nat) : Count := startOf s n + ceilDiv (4 * c) 5

/-- The cycle at which the main EMIT window ends (Table 4.14). -/
def emitEnd (s : State) : Nat := (match imageNow s with | some x => x.emitStart | none => 0) + 2048

/-- Class P0 work has run to cycle 6,400. -/
def atP0Emit (s : State) : State :=
  let t := cycleCount s s.eng.frame 6400
  putDerived false t (runTo 6400 (reachCount t s))

/-- All work has run to the end of the EMIT window. -/
def atMainEmit (s : State) : State :=
  let t := cycleCount s s.eng.frame (emitEnd s)
  putDerived true t (runTo (emitEnd s) (reachCount t s))

/-- P0_EMIT: the raw output words of class P0 reach Teff, and its records stand on the board (R138). -/
def execP0Emit (s : State) : Out :=
  if !s.eng.running || s.eng.p0Done then .next s
  else
    let n := s.eng.frame
    let s1 := atP0Emit s
    let s2 := forEach (activeSessions s1) (fun k s => emitOne true n k s) s1
    let s3 := forEach (activeSessions s2) (fun k s => emitIdle n k s) s2
    .next (signalCell 1 1 (setEng (fun g => { g with p0Done := true }) (notePresent s3)))

/-- SESSION_OUTPUT, the output ring, the counters, and SESSION_ANOMALY for one session (R124, R138, R140). A NOT_ADVANCED copy keeps the
VALID bit of the record it copies and raises no SESSION_ANOMALY again (DESIGN CHOICE, log 50: R140 speaks of a VALID record and does
not say whether a copy is one). -/
def publish (n k : Nat) (s : State) : State :=
  let x := getSess s k
  let advanced := (look s.eng.tokens k).isSome
  match (match look s.eng.records k with | some r => some r | none => if advanced then none else some (idleRecord n k x)) with
  | none => s
  | some r =>
    let sat := advanced && (x.satToken || bitSet r.flags 3)
    let x1 := { x with record := some r
                       saturations := if sat then min (x.saturations + 1) u32 else x.saturations
                       invalids := if r.valid then x.invalids else min (x.invalids + 1) u32 }
    let s1 := setEng (fun g => { g with records := put g.records k r, output := g.output ++ [(n, k, r)] }) (setSess k x1 s)
    if advanced && x.eff.notify && r.valid && fLt x.eff.limit r.anomaly then
      ringTrigger 4 (raiseMain .sessionAnomaly sessSrc k s1)
    else s1

/-- MAIN_EMIT: all other raw outputs, the records of the frame, and its end. -/
def execMainEmit (s : State) : Out :=
  if !s.eng.running || !s.eng.p0Done || s.eng.mainDone then .next s
  else
    let n := s.eng.frame
    let s1 := atMainEmit s
    let s2 := forEach (activeSessions s1) (fun k s => emitOne false n k s) s1
    let s3 := forEach (activeSessions s2) (fun k s => publish n k s) s2
    let s4 := setEng (fun g => { g with output := g.output.filter (fun o => decide (n < o.1 + 256)) }) s3
    .next (noteDegraded (endFrame n (runTo (periodCycles (getN s Obj.framePeriod)) (signalCell 2 1 s4))))

/-! ## The actuation board (06 R186) -/

def boardRegion (x : Image) (r : Nat) : Option BoardEnt := x.board.find? (fun e => e.region == r)

/-- Where the record of the session that holds a lane stands: region 1 for class P0 and 2 for the others, at 64 times the rank of
the lane among the primary lanes of those classes. -/
def boardPlace (x : Image) (lane : Nat) : Option Nat :=
  match x.lanes[lane]? with
  | some e =>
    let same (k : Nat) : Bool := match x.lanes[k]? with | some f => (f.cls == 0) == (e.cls == 0) | none => false
    let rank := ((primaryLanes x).filter (fun k => same k && decide (k < lane))).length
    (boardRegion x (if e.cls = 0 then 1 else 2)).map (fun r => r.offset + 64 * rank)
  | none => none

/-- The record a session has on the board. -/
def boardRecord (s : State) (k : Nat) : Option Record :=
  match look s.eng.records k with | some r => some r | none => (getSess s k).record

/-- The bytes that stand on the board at an offset: a record, or a derived value i at region 3 OFFSET + 4i. -/
def boardAt (s : State) (x : Image) (off : Nat) : List Byte :=
  match (liveSessions s).find? (fun p => boardPlace x p.2.lane == some off) with
  | some p => (match boardRecord s p.1 with | some r => r.bytes | none => [])
  | none =>
    match boardRegion x 3 with
    | some r => if r.offset ≤ off ∧ (off - r.offset) % 4 = 0 ∧ (off - r.offset) / 4 < 4096 then
        leBytes 4 (lookD s.eng.derived ((off - r.offset) / 4) 0) else []
    | none => []

/-! ## Entering RUN and the checkpoint restore (05 R163, 11 R322) -/

/-- The conditions of R322 other than the checkpoint restore. -/
def canRun (s : State) : Bool :=
  s.part.st == .ready && s.img.inForce.isSome && s.mem.st == .ready && !(s.img.lostDom.get 0 && s.img.lostDom.get 1)

/-- The loads of an activation in READY are not complete (06 R194). -/
def activating (s : State) : Bool := match s.img.act with | .ready _ => true | _ => false

/-- The rings record again (05 R168, R172). -/
def startRings (s : State) : State :=
  setEng (fun g => { g with
    ring := if g.ring.st = .idle then { (if g.ring.exp.isSome then g.ring.discard else g.ring) with st := .recording } else g.ring }) s

/-- Frame numbers start at 0 again with a launch. A checkpoint still being written is committed, and of the rings and the input ledger
only what the new frames give is held, because EXPORT_FROM, RING_OLDEST and the ledger name a frame by its number alone; the image in
force counts from frame 0 (DESIGN CHOICE, log 85). -/
def newNumbers (s : State) : State :=
  let s1 := commitCkpt s
  setEng (fun g => { g with
    ledgers := [], nextControls := g.cutControls ++ g.nextControls, cutControls := []
    ring := { g.ring.discard with images := g.ring.discard.images.map (fun p => (0, p.2)) } }) s1

def enterRun (s : State) : State :=
  abandonTick (enterPart .run (setEng (fun g => { g with running := true, any := true, p0Done := true, mainDone := true }) (startRings s)))

/-- A buffer whose header is not valid is not used (05 R164). -/
def dropHeaders (lostNew lostOld : Bool) (s : State) : State :=
  let isA := s.eng.newest == 0
  let dropA := if isA then lostNew else lostOld
  let dropB := if isA then lostOld else lostNew
  let s1 := setEng (fun g => { g with bufA := if dropA then none else g.bufA, bufB := if dropB then none else g.bufB }) s
  if (newestCkpt s1).isNone && (otherCkpt s1).isSome then setEng (fun g => { g with newest := 1 - g.newest }) s1 else s1

/-- CHECKPOINT_RESTORE_DONE: every session from the last committed checkpoint, or CKPT_LOST (R163, R164). `badNew` and
`badOld` are the entries that fail, `lostNew` and `lostOld` headers that are not valid. -/
def execCheckpointRestoreDone (lostNew lostOld : Bool) (badNew badOld : List Nat) (s : State) : Out := noted <|
  if !s.part.restorePending || s.part.st ≠ .ready then .next s
  else
    let s1 := dropHeaders lostNew lostOld s
    let done (s : State) : State := { s with part := { s.part with restorePending := false, restored := true, restoredAt := now s } }
    match newestCkpt s1 with
    | none =>
      .next (done (raiseMain .ckptLost ckptSrc (openDetail .ckptLost 0)
        (mapSess (fun _ x => if x.live then x.release else x) s1)))
    | some _ =>
      let undone (p : Nat × Sess) : Bool := match entryIn (newestCkpt s1) p.1 with
        | some e => e.modelActive != 0xFFFF && p.2.modelActive != 0xFFFF && e.modelActive != p.2.modelActive
        | none => false
      let sw := ((liveSessions s1).filter (fun p => p.2.switch.isSome || undone p)).map (·.1)
      let s2 := forEach sw (fun k s => raiseMain .switchDiscarded sessSrc (openDetail .switchDiscarded k) s) s1
      .next (done (restoreRecords badNew badOld (restoreTable badNew badOld s2)))

/-! ## Errors in tiles (03 R76 to R81, R85) -/

/-- A tile meets a failure criterion: at the end of the frame in RUN, which a model with MAIN_EMIT done has reached, at once otherwise
(R77; DEDUCED for the error criteria, log 27). -/
def tileFails (t : Fin 68) (s : State) : State :=
  let st := (s.eng.tiles.get t).st
  if st = .spare || st = .gated || st = .active then
    if s.part.st = .run && s.eng.running && !s.eng.mainDone then updTile t (fun x => { x with failNow := true }) s
    else failTile t s.eng.frame s
  else s

/-- No tile that is not ABSENT waits for its self-test. -/
def allTested (s : State) : Bool := (List.finRange 68).all (fun t => (s.eng.tiles.get t).st != .none_ && !(s.eng.tiles.get t).testing)

/-- Capacity that a self-test returns is planned once every tile is tested (06 R204). A COLD activation that a reset caught
after its frame C is then completed (06 R196). -/
def tested (t : Fin 68) (st : TileState) (s : State) : State :=
  let s1 := updTile t (fun x => { x with st := st, testing := false }) s
  if !(allTested s1) then s1
  else
    match s1.img.coldStop with
    | some (i, _, _) => imageCtrl i (coldLoad i 0 (setImg (fun m => { m with coldStop := none }) s1))
    | none => recompute [] (checkDomains s1)

/-- TILE_SELF_TEST_DONE (Table 3.3): a tile not yet tested becomes SPARE, GATED or FAILED; one tested again keeps its state until the
test ends, and a FAILED one stays FAILED unless it passes. -/
def execTileSelfTestDone (t : Fin 68) (pass : Bool) (s : State) : Out :=
  let x := s.eng.tiles.get t
  if s.part.st = .off || s.part.st = .standby || !(x.st = .none_ || x.testing) then .next s
  else if s.ident.absent.contains t.val then .next (tested t .absent s)
  else if getN s (Obj.tileRetired t.val) = 1 then .next (tested t .failed s)
  else if !pass then .next (noteDegraded (tested t .failed (markFailed t s)))
  else .next (noteDegraded (tested t (restState s t) (gateTile .none_ t s)))

/-- CORRECTED_ERROR: counted and logged; more than 65,536 within 1 s fail the tile (R77, R79). -/
def execCorrectedError (t : Fin 68) (s : State) : Out :=
  let s1 := inc32 s (Obj.tileCeCount t.val)
  let at_ := ((s.eng.tiles.get t).ceAt.filter (fun c => decide (mainNow s < c + 1000000000))) ++ [mainNow s]
  let s2 := updTile t (fun x => { x with ceAt := at_, log := true }) s1
  .next (if decide (65536 < at_.length) then tileFails t s2 else s2)

/-- Each further error of a session moves its return on by one frame (05 R162): of one that is stopped, and of one whose state carries
a mark already and whose record of frame n is still to come. -/
def hitSession (n k : Nat) (s : State) : State :=
  updSess k (fun x => { x with stopUntil := some (x.stopUntil.getD (n + 2) + 1) }) s

/-- The sessions whose state holds a word of a tile, and that an error has stopped or marked before. -/
def stoppedAt (s : State) (t : Fin 68) (key : Nat) : List Nat :=
  ((liveSessions s).filter (fun p => (p.2.stopUntil.isSome || ((look s.eng.tokens p.1).isSome && (look s.eng.records p.1).isNone &&
    laneMarked s p.2.lane p.2.state.length)) && (lanesOfSess s p.2).any (fun k =>
    match (lanesNow s)[k]? with
    | some e =>
      let b := bindAt s.img.binds e.ltile
      b.ptile == some t.val && (List.range ((e.stateAddr % 32 + p.2.state.length + 31) / 32)).any (fun i =>
        let w := placeAddr (firstPair b) (e.stateAddr / 32 * 32 + 32 * i)
        sramKey (computeBank (s.eng.tiles.get t) w.1) w.2 == key)
    | none => false))).map (·.1)

/-- The next beat from a tile that is not marked yet: one under way, else one still to be sent (03 R85). -/
def markBeat (t : Fin 68) (s : State) : State :=
  if s.eng.beats.any (fun b => b.src == t.val && !b.bad) then
    setEng (fun g => { g with beats := (g.beats.foldl (fun (acc : List Beat × Bool) b =>
      if !acc.2 && b.src == t.val && !b.bad then (acc.1 ++ [{ b with bad := true }], true) else (acc.1 ++ [b], acc.2)) ([], false)).1 }) s
  else updTile t (fun x => { x with beatBad := true }) s

/-- The domains whose tiles sent uncorrectable beats: three or more within 64 F lose the domain (06 R209). -/
def beatCheck (t : Fin 68) (s : State) : State :=
  let bad := (List.finRange 68).filter (fun q => decide (q.val / 34 = t.val / 34) && (s.eng.tiles.get q).beatUe.any (within64 s))
  if decide (3 ≤ bad.length) then domainLost (if t.val < 34 then 0 else 1) s else s

/-- What carries the error of an UNCORRECTABLE_WORD: a beat, a bundle of the active half, or an SRAM word. -/
def markError (t : Fin 68) (offset : Nat) (beat bundle : Bool) (s : State) : State :=
  let key := offset / 32
  if beat then markBeat t s
  else if bundle then
    updTile t (fun x => { x with badBundle := x.badBundle || !s.eng.mainDone, imemBad := addMark x.imemBad (key - 0x18000) true }) s
  else if offset < 0x300000 then updTile t (fun x => { x with poison := addMark x.poison key true, counted := addMark x.counted key true }) s
  else s

/-- UNCORRECTABLE_WORD: a poisoned word, bundle or beat of tile t is delivered (R80, R81, R85). The mark travels with what the
frame computes from it, and the records and states of the sessions it reaches follow. -/
def execUncorrectableWord (t : Fin 68) (offset : Nat) (beat bundle : Bool) (s : State) : Out :=
  let n := s.eng.frame
  let near := (s.eng.tiles.get t).ueAt.filter (within64 s)
  let s1 := updTile t (fun x => { x with
    ueOffset := offset, ueFrame := n, log := true, ueAt := near ++ [s.clk.cycles]
    beatUe := if beat then x.beatUe.filter (within64 s) ++ [s.clk.cycles] else x.beatUe }) (inc32 s (Obj.tileUeCount t.val))
  let hit := if beat || bundle then [] else stoppedAt s1 t (offset / 32)
  let s2 := markUncorrectable (markError t offset beat bundle s1)
  let s3 := forEach hit (hitSession n) s2
  let s4 := ringTrigger 1 s3
  let s5 := raiseMain .cloveUe tileSrc (openDetail .cloveUe t.val) (if near = [] then s4 else tileFails t s4)
  .next (noteDegraded (if beat then beatCheck t s5 else s5))

/-- TILE_RETIRED_SET: SERVICE writes 1. -/
def execTileRetiredSet (au : Auth) (t : Fin 68) (s : State) : Out := noted <|
  .next (writeStep au (Obj.tileRetired t.val).key (.num 1) noHome (fun _ s => tileFails t (storeNum (Obj.tileRetired t.val) 1 s)) s)

/-- TILE_RETIRED_CLEAR: SERVICE writes 0, in READY only; a FAILED tile is self-tested. -/
def execTileRetiredClear (au : Auth) (t : Fin 68) (s : State) : Out := noted <|
  .next (writeStep au (Obj.tileRetired t.val).key (.num 0) readyOnly (fun _ s =>
    let s1 := storeNum (Obj.tileRetired t.val) 0 s
    if (s1.eng.tiles.get t).st = .failed then retestTile t s1 else s1) s)

end Sys2Proof.Machine
end

