-- ==== Sys2Proof/Machine/Anise.lean ====
section
/-! DEFINITION. Anise (07): the program and its check, ticks (thermal network, MPC, cooling loops, set points), ANT words,
breaker adaptation, fault rules and concord rounds; and the values on their way to Rye through Straw (01 R30). -/
namespace Sys2Proof.Machine

open Sys2Proof

def aniseSrc : Nat := 0x4801
def concordSrc : Nat := 0x4861

def setAni (f : Anise → Anise) (s : State) : State := { s with ani := f s.ani }

/-! ## Binary64 (R212, R216) -/

def dAdd (a b : Nat) : Nat := Fmt.f64.add a b
def dSub (a b : Nat) : Nat := Fmt.f64.sub a b
def dMul (a b : Nat) : Nat := Fmt.f64.mul a b
def dDiv (a b : Nat) : Nat := Fmt.f64.div a b
def dFma (a b c : Nat) : Nat := Fmt.f64.fma a b c
def dMin (a b : Nat) : Nat := Fmt.f64.min a b
def dMax (a b : Nat) : Nat := Fmt.f64.max a b
def dEq (a b : Nat) : Bool := Fmt.f64.le a b && Fmt.f64.le b a
def dOfInt (n : Int) : Nat := Fmt.f64.ofInt n
def dOfF (a : Nat) : Nat := Fmt.f32.conv Fmt.f64 a
def fOfD (a : Nat) : Nat := Fmt.f64.conv Fmt.f32 a
/-- 0.001 s. -/
def dDt : Nat := Fmt.f64.ofRat (1 / 1000)
def dOne : Nat := dOfInt 1

/-- A product row · vector: from +0, fma in ascending column order (R221). -/
def dDot (row v : List Nat) : Nat := (List.zip row v).foldl (fun a p => dFma p.1 p.2 a) 0
def dMatVec (m : List (List Nat)) (v : List Nat) : List Nat := m.map (fun r => dDot r v)
def transposeOf (n : Nat) (m : List (List Nat)) : List (List Nat) := (List.range n).map (fun i => m.map (fun r => r.getD i 0))
def zip3 (f : Nat → Nat → Nat → Nat) (a b c : List Nat) : List Nat := List.zipWith (fun x p => f x p.1 p.2) a (List.zip b c)

/-! ## The program check (R218) -/

def rowsOk (rows cols : Nat) (m : List (List Nat)) : Bool := m.length == rows && m.all (fun r => r.length == cols)

def Problem.ok (w : Nat) (p : Problem) : Bool :=
  decide (1 ≤ p.n) && decide (p.n ≤ 64) && decide (1 ≤ p.nu) && decide (p.nu ≤ p.n) && decide (1 ≤ p.m) && decide (p.m ≤ 512) &&
  Fmt.f64.le dOne p.alpha && Fmt.f64.lt p.alpha (dOfInt 2) &&
  p.q0.length == p.n && rowsOk p.n w p.f && rowsOk p.n p.n p.minv && rowsOk p.m p.n p.a && p.l.length == p.m && p.h.length == p.m &&
  p.rowOut.length == p.m && p.rowOut.all (fun o => match o with | some k => decide (k < 24) | none => true)

def WEnt.ok (p : Program) (e : WEnt) : Bool :=
  match e.kind with
  | 0 => true
  | 1 => sourceOk e.index
  | 2 => decide (e.sel ≤ 12) && decide (e.index < 10240)
  | 3 => decide (e.index < p.nodes.length)
  | 4 => decide (e.index < 4096)
  | 5 => decide (e.index < p.loops.length)
  | 6 => true
  | _ => false

def edgeLe (a b : EdgeEnt) : Bool := decide (a.src < b.src) || (a.src == b.src && decide (a.dst ≤ b.dst))
def sortedEdges : List EdgeEnt → Bool
  | a :: b :: t => edgeLe a b && sortedEdges (b :: t)
  | _ => true

def OutEnt.ok (p : Program) (o : OutEnt) : Bool :=
  match o.source with
  | 0 => true
  | 1 => true
  | 2 => decide (o.idx < p.loops.length)
  | 3 => (match p.problems[o.idx]? with | some q => decide (o.sub < q.nu) | none => false)
  | _ => false

def RuleEnt.ok (r : RuleEnt) : Bool :=
  decide (r.session < 10240) && (decide (r.accel ≤ 7) || r.accel == 0xFF) && decide (1 ≤ r.component) && decide (r.component ≤ 9) &&
  decide (1 ≤ r.window) && decide (r.window ≤ 64) && decide (1 ≤ r.count) && decide (r.count ≤ r.window) &&
  decide (1 ≤ r.clear) && decide (r.clear ≤ 255) && !(bitSet r.classMask 0)

/-- 0x0004_0701: fields, counts and indices. -/
def Program.fields (p : Program) : Bool :=
  p.fieldsOk && decide (1 ≤ p.iters) && decide (p.iters ≤ 32) && decide (p.problems.length ≤ 4) && decide (p.w.length ≤ 256) &&
  decide (p.nodes.length ≤ 4096) && decide (p.edges.length ≤ 65536) && decide (p.heats.length ≤ 16384) && decide (p.loops.length ≤ 32) &&
  decide (p.rules.length ≤ 255) && p.outs.length == 24 && p.w.all (fun e => e.ok p) &&
  p.nodes.all (fun n => (match n.derived with | some k => decide (k < 4096) | none => true) && (!n.fixed || decide (n.w < p.w.length))) &&
  p.edges.all (fun e => decide (e.src < p.nodes.length) && decide (e.dst < p.nodes.length) && Fmt.f64.lt 0 e.g) && sortedEdges p.edges &&
  p.heats.all (fun h => decide (h.node < p.nodes.length) && decide (h.w < p.w.length)) && p.problems.all (fun q => q.ok p.w.length) &&
  p.loops.all (fun l => decide (l.meas < p.w.length) && decide (l.ffFirst + l.ffCount ≤ p.w.length)) && p.outs.all (fun o => o.ok p) &&
  p.rules.all RuleEnt.ok

/-- 0x0004_0702: each edge with its reverse of equal G, and C above 0 on each FREE node. -/
def Program.network (p : Program) : Bool :=
  p.edges.all (fun e => p.edges.any (fun r => r.src == e.dst && r.dst == e.src && r.g == e.g)) &&
  p.nodes.all (fun n => n.fixed || Fmt.f64.lt 0 n.c)

/-- Eight times the tick cost in cycles. -/
def Program.cost8 (p : Program) : Nat :=
  p.iters * ((p.nodes.filter (fun n => !n.fixed)).length + p.edges.length) + p.heats.length +
  (p.problems.map (fun q => 40 * (q.n * q.n + 2 * q.m * q.n + 4 * q.m + 4 * q.n))).sum + 80000

/-- The first failing check, or 0. -/
def checkProgram (p : Program) : Nat :=
  if !p.fields then 0x00040701
  else if !p.network then 0x00040702
  else if decide (8 * 900000 < p.cost8) then 0x00040703
  else 0

def programEffect (bs : List Byte) (_ : Count) (s : State) : State :=
  let x := parseProgram bs
  let e := if bs = [] then 0 else checkProgram x
  if bs = [] then
    setN (setAni (fun a => { a with ready := none, prog := none, ticking := false, st := .none, rules := [] }) (storeBlob Blob.aniseProgram [] s)) Obj.aniseError 0
  else if e ≠ 0 then setN (setAni (fun a => { a with st := .refused }) s) Obj.aniseError e
  else setN (setAni (fun a => { a with ready := some x, st := .checking }) (storeBlob Blob.aniseProgram bs s)) Obj.aniseError 0

/-- ANISE_PROGRAM_WRITE: the program is checked while the one in force keeps running. A refused one leaves the object's
value too (log 40). -/
def execAniseProgramWrite (au : Auth) (bytes : List Byte) (s : State) : Out :=
  .next (writeStep au Blob.aniseProgram (.bytes bytes) noHome (programEffect bytes) s)

/-! ## Cooling targets (R225) -/

def clampF (lo hi v : Nat) : Nat := Fmt.f32.min (Fmt.f32.max v lo) hi

/-- The effective target of a loop, on a write of its target or limits and at an activation. TARGET_CLAMPED whenever the
clamp acts, also where the result stays the same. -/
def evalTarget (k : Nat) (s : State) : State :=
  let t := getN s (Obj.loopTarget k)
  let v := clampF (getN s (Obj.tgtMin k)) (getN s (Obj.tgtMax k)) t
  let s1 := setN s (Obj.loopTargetEff k) v
  if v = t then s1 else raiseMain .targetClamped aniseSrc (openDetail .targetClamped k) s1

/-! ## Start, restart and activation (R217, R218, R220, R221, R223) -/

def room25 : Nat := dOfInt 25

def MpcState.zero (p : Problem) : MpcState := ⟨List.replicate p.n 0, List.replicate p.m 0, List.replicate p.m 0, none⟩
def RuleState.zero : RuleState := ⟨[], 0, false⟩

/-- A program comes into force at the start of a tick: initial temperatures, integrators and warm starts, default targets,
no fault flag. -/
def activate (p : Program) (s : State) : State :=
  let s1 := setAni (fun a => { a with
    st := .inForce, prog := some p, ready := none, newTemps := none, newMpc := none
    temps := List.replicate p.nodes.length room25, integ := List.replicate p.loops.length 0, mpc := p.problems.map MpcState.zero
    set := List.replicate 24 none, rules := List.replicate p.rules.length RuleState.zero }) s
  let s2 := forEach (List.range p.loops.length) (fun k s =>
    match p.loops[k]? with | some l => evalTarget k (setN s (Obj.loopTarget k) l.target0) | none => s) s1
  logMeas 7 p.digest 0 s2

/-- Anise stops with the main die and restarts from its program with every state at its initial value (R217, R232, R238). -/
def restartAnise (s : State) : State :=
  setAni (fun a => { Anise.init with
    prog := none
    ready := (match a.ready with | some p => some p | none => a.prog)
    st := (match a.ready, a.prog with | none, none => .none | some _, _ => a.st | none, some _ => .inForce)
    words := a.words, antLine := a.antLine, antPins := a.antPins, antSet := a.antSet }) s

/-! ## A tick: what unit 0 does at its start (R219, R223, R224) -/

def recordOf (s : State) (k : Nat) : Option Record := (getSess s k).lastValid

/-- v of R219. -/
def wValue (s : State) (e : WEnt) : Nat :=
  match e.kind with
  | 0 => dOne
  | 1 => (match look s.eng.samples e.index with | some x => dOfF x.value | none => 0)
  | 2 => (match recordOf s e.index with
    | some r => dOfF (if e.sel = 12 then r.anomaly else r.values.getD e.sel 0)
    | none => 0)
  | 3 => s.ani.temps.getD e.index 0
  | 4 => dOfF (lookD s.eng.derived e.index 0)
  | 5 => dOfF (getN s (Obj.loopTargetEff e.index))
  | _ => s.ani.cap.getD 0

def snapshot (s : State) (p : Program) : List Nat := p.w.map (fun e => dMul (dOfF e.gain) (wValue s e))

/-- OUT_MIN and OUT_MAX of the output a loop drives; a loop that drives none has the whole range of an output. -/
def loopLimits (s : State) (p : Program) (k : Nat) : Nat × Nat :=
  match p.outs.findIdx? (fun o => o.source == 2 && o.idx == k) with
  | some i => (dOfF (getN s (Obj.outMin i)), dOfF (getN s (Obj.outMax i)))
  | none => (0, dOfInt 100)

/-- LOOP(k) of R223: the result and the integrator. -/
def loopStep (w : List Nat) (t i : Nat) (lim : Nat × Nat) (l : LoopEnt) : Nat × Nat :=
  let e := dSub (w.getD l.meas 0) t
  let ff := ((w.drop l.ffFirst).take l.ffCount).foldl dAdd 0
  let v := dFma (dOfF l.kff) ff (dFma (dOfF l.kp) e i)
  let u := dMin (dMax v lim.1) lim.2
  (u, if dEq u v then dFma (dMul (dOfF l.ki) e) dDt i else i)

/-- The set point of an output: rounded to FP32, clamped (R224). -/
def setPointOf (s : State) (loops : List Nat) (o : Nat) (e : OutEnt) : Option Nat :=
  let clamp (v : Nat) : Nat := clampF (getN s (Obj.outMin o)) (getN s (Obj.outMax o)) v
  match e.source with
  | 1 => some (clamp e.value)
  | 2 => some (clamp (fOfD (loops.getD e.idx 0)))
  | 3 => (match s.ani.mpc[e.idx]? with
    | some m => (match m.u with | some u => some (clamp (fOfD (u.getD e.sub 0))) | none => none)
    | none => none)
  | _ => none

/-- The program as its copy spells it, read again after an uncorrectable error (R217). -/
def reloadProgram (s : State) : State :=
  if s.ani.reload then
    setAni (fun a => { a with reload := false, prog := a.prog.map (fun _ => parseProgram (getBlob s Blob.aniseProgram)) })
      (seqRun 18 (getBlob s Blob.aniseProgram).length s)
  else s

/-- What the end of the tick before brings: a new program, or the results of that tick. -/
def tickTake (s : State) : State :=
  match s.ani.ready with
  | some p => activate p (setAni (fun a => { a with reload := false }) s)
  | none => setAni (fun a => { a with
      temps := a.newTemps.getD a.temps, mpc := a.newMpc.getD a.mpc, newTemps := none, newMpc := none }) (reloadProgram s)

/-- Tick m with the loop job discarded: no snapshot is formed. -/
def tickSkip (m : Nat) (s : State) : State := setAni (fun a => { a with tick := m, ticking := false }) s

/-- The loop job of unit 0 in tick m: the snapshot, the loops and the set points. -/
def tickRun (m : Nat) (s1 : State) : State :=
  match s1.ani.prog with
  | none => setAni (fun a => { a with tick := m }) s1
  | some p =>
    let s2 := setEng (fun g => { g with derived := (List.zip p.nodes s1.ani.temps).foldl (fun d x =>
      match x.1.derived with | some k => put d k (fOfD x.2) | none => d) g.derived }) s1
    let w := snapshot s2 p
    let res := (List.range p.loops.length).map (fun k =>
      match p.loops[k]? with
      | some l => loopStep w (dOfF (getN s2 (Obj.loopTargetEff k))) (s2.ani.integ.getD k 0) (loopLimits s2 p k) l
      | none => (0, 0))
    let pts := (List.range 24).map (fun o => match p.outs[o]? with | some e => setPointOf s2 (res.map (·.1)) o e | none => none)
    setAni (fun a => { a with
      tick := m, ticking := true, w := w, integ := res.map (·.2)
      set := List.zipWith (fun x y => match x with | some v => some v | none => y) pts a.set
      sent := Vector.ofFn (fun i => match pts.getD i.val none with | some v => some v | none => a.sent.get i) }) s2

/-! ## A tick: what unit 1 does (R220 to R222) -/

def edgesOfNode (p : Program) (i : Nat) : List EdgeEnt := p.edges.filter (fun e => e.src == i)

/-- One backward-Euler step by Jacobi iterations. -/
def thermal (p : Program) (w t0 : List Nat) : List Nat :=
  let n := p.nodes.length
  let node (i : Nat) : NodeEnt := p.nodes.getD i ⟨true, none, 0, 0⟩
  let t := (List.range n).map (fun i => if (node i).fixed then w.getD (node i).w 0 else t0.getD i 0)
  let a (i : Nat) : Nat := dDiv (node i).c dDt
  let d := (List.range n).map (fun i => (edgesOfNode p i).foldl (fun x e => dAdd x e.g) (a i))
  let b := (List.range n).map (fun i =>
    (p.heats.filter (fun h => h.node == i)).foldl (fun x h => dFma h.k (w.getD h.w 0) x) (dMul (a i) (t.getD i 0)))
  let step (x : List Nat) : List Nat := (List.range n).map (fun i =>
    if (node i).fixed then x.getD i 0
    else dDiv ((edgesOfNode p i).foldl (fun s e => dFma e.g (x.getD e.dst 0) s) (b.getD i 0)) (d.getD i 0))
  iter step p.iters t

/-- One ADMM iteration of R221, with the row limits in force. -/
def admm (p : Problem) (at_ : List (List Nat)) (q lo hi : List Nat) (m : MpcState) : MpcState :=
  let r1 := List.zipWith (fun x q => dSub (dMul p.sigma x) q) m.x q
  let v := List.zipWith (fun z y => dSub (dMul p.rho z) y) m.z m.y
  let r := List.zipWith dAdd r1 (dMatVec at_ v)
  let xt := dMatVec p.minv r
  let zt := dMatVec p.a xt
  let rest := dSub dOne p.alpha
  let x := List.zipWith (fun t x => dAdd (dMul p.alpha t) (dMul rest x)) xt m.x
  let zr := List.zipWith (fun t z => dAdd (dMul p.alpha t) (dMul rest z)) zt m.z
  let free := List.zipWith (fun z y => dAdd z (dDiv y p.rho)) zr m.y
  let zn := zip3 (fun f l h => dMin (dMax f l) h) free lo hi
  let y := zip3 (fun y a b => dAdd y (dMul p.rho (dSub a b))) m.y zr zn
  { m with x := x, z := zn, y := y }

/-- A problem's tick; none where u holds a NaN or an infinity (R222). -/
def mpcSolve (s : State) (w : List Nat) (p : Problem) (m : MpcState) : Option MpcState :=
  let q := List.zipWith dAdd p.q0 (dMatVec p.f w)
  let lo := List.zipWith (fun l o => match o with | some k => dMax l (dOfF (getN s (Obj.outMin k))) | none => l) p.l p.rowOut
  let hi := List.zipWith (fun h o => match o with | some k => dMin h (dOfF (getN s (Obj.outMax k))) | none => h) p.h p.rowOut
  let r := iter (admm p (transposeOf p.n p.a) q lo hi) 40 m
  let u := r.x.take p.nu
  if u.all Fmt.f64.isFinite then some { r with u := some u } else none

/-- ANISE_TICK: the thermal solve, then the problems in turn, on the snapshot of the present tick; the results wait for the
next one. -/
def execAniseTick (s : State) : Out :=
  match s.ani.prog with
  | none => .next s
  | some p =>
    if !s.ani.ticking || s.ani.newTemps.isSome || !(s.part.st == .run || s.part.st == .ready) then .next s
    else
      let w := s.ani.w
      let res := List.zipWith (fun q m => (mpcSolve s w q m, q, m)) p.problems s.ani.mpc
      let bad := (List.range res.length).filter (fun i => match res[i]? with | some (none, _, _) => true | _ => false)
      let next := res.map (fun x => match x with | (some m, _, _) => m | (none, q, m) => { MpcState.zero q with u := m.u })
      let s1 := setAni (fun a => { a with newTemps := some (thermal p w a.temps), newMpc := some next }) s
      .next (signalCell 192 1 (forEach bad (fun i s => raiseMain .mpcInvalid aniseSrc (openDetail .mpcInvalid i) s) s1))

/-! ## Fault rules (R234) -/

def ruleHolds (e : RuleEnt) (r : Record) : Bool := r.valid && (fLt e.limit r.anomaly || bitSet e.classMask r.classcode)

def predictiveDetail (i : Nat) (e : RuleEnt) : Nat := e.accel * 2 ^ 24 + e.component * 2 ^ 16 + e.index * 2 ^ 8 + i

/-- One rule on the record of frame n − 1, unless that record is NOT_ADVANCED. -/
def evalRule (n i : Nat) (e : RuleEnt) (s : State) : State :=
  match (getSess s e.session).record with
  | none => s
  | some r =>
    if n = 0 || r.frameLo ≠ (n - 1) % 2 ^ 32 || bitSet r.flags 2 then s
    else
      let x := s.ani.rules.getD i RuleState.zero
      let c := ruleHolds e r
      let seen := (c :: x.seen).take e.window
      let clean := if c then 0 else min (x.clean + 1) 255
      let up := !x.flag && c && decide (e.count ≤ (seen.filter id).length)
      let dn := x.flag && decide (e.clear ≤ clean)
      let s1 := setAni (fun a => { a with rules := a.rules.set i ⟨seen, clean, (x.flag || up) && !dn⟩ }) s
      if up then raiseMain .predictiveFault aniseSrc (predictiveDetail i e) s1
      else if dn then raiseMain .predictiveClear aniseSrc (predictiveDetail i e) s1
      else s1

def evalRules (n : Nat) (s : State) : State :=
  match s.ani.prog with
  | none => s
  | some p => forEach (List.range p.rules.length) (fun i s => match p.rules[i]? with | some e => evalRule n i e s | none => s) s

/-! ## Concord (R235 to R238) -/

/-- CONCORD_PROGRAM as it is laid out (Table 7.8). -/
def concordOf (s : State) : Option ConcordProg :=
  let bs := getBlob s Blob.concordProgram
  if bs.length = 56 then
    some ⟨leAt bs 2 1, leAt bs 3 1, leAt bs 4 2, leAt bs 8 8, leAt bs 16 8, leAt bs 24 8, leAt bs 32 8, bs.drop 40⟩
  else none

/-- The values of Tables 7.7 and 7.8: FORMAT 1, TRAYS 2 to 64, INDEX below it, reserved 0, WEIGHT 0.01 to 100. -/
def concordProgOk (bs : List Byte) : Bool :=
  leAt bs 0 2 == 1 && decide (2 ≤ leAt bs 2 1) && decide (leAt bs 2 1 ≤ 64) && decide (leAt bs 3 1 < leAt bs 2 1) && leAt bs 6 2 == 0 &&
  decide (leAt bs 4 2 < 10240) && [8, 16, 24, 32].all (fun o => Fmt.f64.isFinite (leAt bs o 8)) &&
  decide ((1 : Rat) / 100 ≤ Fmt.f64.toRat (leAt bs 32 8)) && decide (Fmt.f64.toRat (leAt bs 32 8) ≤ 100)

def concordOn (s : State) : Option ConcordProg :=
  if getN s Obj.concordEnable = 1 && s.part.st == .run then concordOf s else none

/-- PROGRAM: the first 8 bytes of SHAKE256 over FORMAT, TRAYS and RACK_CAP_W. -/
def concordDigest (p : ConcordProg) : List Byte := Config.shake (leBytes 2 1 ++ leBytes 1 p.trays ++ leBytes 8 p.rackCap) 8

/-- CAP_W of the summary (11 R332): the lower of the FACILITY and HOST tray caps, or what the tray can draw. -/
def summaryCapW (s : State) : Rat :=
  match lowestTerm [(getF s Obj.facilityTrayCapW, 5), (getF s Obj.hostTrayCapW, 6)] with
  | some (v, _) => v
  | none => ((List.finRange 8).map (ratedW s)).sum + getF s Obj.trayOverheadW

/-- The summary of frame n. -/
def summaryOf (s : State) (p : ConcordProg) (n : Nat) : Summary :=
  let r := match look s.eng.records p.session with | some r => some r | none => (getSess s p.session).record
  let d := match r with
    | some r => if r.valid then some (dAdd (dOfF (r.values.getD 8 0)) p.margin) else none
    | none => none
  let prev := (s.ani.results.find? (fun x => x.frame + 1 == n)).map (·.digest)
  { format := 1, trays := p.trays, index := p.index
    flags := flagBit (s.clk.state != .locked) 0 + flagBit s.ani.prevDiverged 1 + flagBit d.isNone 2
    frame := n, program := concordDigest p, floor := p.floor, demand := d.getD p.floor, weight := p.weight
    cap := Fmt.f64.ofRat (summaryCapW s), prev := prev.getD (List.replicate 8 0) }

/-- The 80 bytes of Table 7.7. -/
def Summary.bytes (x : Summary) : List Byte :=
  leBytes 2 x.format ++ leBytes 1 x.trays ++ leBytes 1 x.index ++ leBytes 2 x.flags ++ leBytes 2 0 ++ leBytes 8 x.frame ++
  (x.program ++ List.replicate 8 0).take 8 ++ leBytes 8 x.floor ++ leBytes 8 x.demand ++ leBytes 8 x.weight ++ leBytes 8 x.cap ++
  (x.prev ++ List.replicate 8 0).take 8 ++ List.replicate 16 0

/-- The UDP port of concord summaries. -/
def concordUdp : Nat := 47202

/-- A frame has begun, and the next has not. -/
def frameBegun (s : State) : Bool := s.eng.next == s.eng.frame + 1

/-- CONCORD_SUMMARY_SEND: the summary of the present frame, to the group of the concord program at UDP port 47202, on both
host ports under one R-TAG number, once per frame that runs. -/
def execConcordSummarySend (s : State) : Out :=
  match concordOn s with
  | none => .next s
  | some p =>
    let n := s.eng.frame
    if !s.eng.running || !s.eng.p0Done || s.eng.cur.skipped || !(frameBegun s) || s.ani.sentFrame = some n then .next s
    else
      let x := summaryOf s p n
      let s1 := setAni (fun a => { a with sums := a.sums ++ [x], sentFrame := some n }) s
      let msg := Msg.udpGroup p.group concordUdp x.bytes (nextTagOf s1 0)
      .next (sendHost 1 5 msg (sendHost 0 5 msg (useTag 0 s1)))

/-- CONCORD_SUMMARY_RECEIVED at a count: kept when it matches FORMAT, TRAYS and PROGRAM and arrives by the cutoff of the
next frame. -/
def execConcordSummaryReceived (x : Summary) (count : Nat) (s : State) : Out :=
  let s0 := reachCount count s
  match concordOn s0 with
  | none => .next s0
  | some p =>
    let dup := s0.ani.sums.any (fun y => y.frame == x.frame && y.index == x.index)
    if x.format ≠ 1 || x.trays ≠ p.trays || x.program ≠ concordDigest p || decide (p.trays ≤ x.index) || x.index = p.index || dup ||
        decide (cutoffOf s0 (x.frame + 1) < now s0) then .next s0
    else .next (setAni (fun a => { a with sums := a.sums ++ [x] }) s0)

def dSum (xs : List Nat) : Nat := xs.foldl dAdd 0

/-- share[0] to share[N − 1] of R236. -/
def concordShares (rack : Nat) (xs : List Summary) : List Nat :=
  let d := xs.map (fun x => dMin x.demand x.cap)
  let f := List.zipWith (fun x d => dMin x.floor d) xs d
  let wt := xs.map (·.weight)
  let sf := dSum f
  let sd := dSum d
  let sw := dSum wt
  if Fmt.f64.le rack sf then f.map (fun v => dMul v (dDiv rack sf))
  else if Fmt.f64.le sd rack then List.zipWith (fun w d => dFma (dSub rack sd) (dDiv w sw) d) wt d
  else
    let at_ (mid : Nat) : List Nat := zip3 (fun d w f => dMin d (dFma mid w f)) d wt f
    let hi0 := (zip3 (fun d w f => dDiv (dSub d f) w) d wt f).foldl dMax 0
    let half : Nat := Fmt.f64.ofRat (1 / 2)
    let r := iter (fun (p : Nat × Nat) =>
      let mid := dMul (dAdd p.1 p.2) half
      if Fmt.f64.le (dSum (at_ mid)) rack then (mid, p.2) else (p.1, mid)) 64 (0, hi0)
    at_ r.1

/-- A missing tray: FLOOR_W, DEMAND_W and CAP_W at RACK_CAP_W / N, WEIGHT 1. -/
def substitute (p : ConcordProg) (i n : Nat) : Summary :=
  let v := dDiv p.rackCap (dOfInt p.trays)
  ⟨1, p.trays, i, 0, n, concordDigest p, v, v, dOne, v, List.replicate 8 0⟩

/-- R(n) from the summaries held. -/
def concordCompute (s : State) (p : ConcordProg) (n : Nat) : ConcordRes :=
  let got (i : Nat) : Option Summary := s.ani.sums.find? (fun x => x.frame == n && x.index == i)
  let xs := (List.range p.trays).map (fun i => (got i).getD (substitute p i n))
  let shares := concordShares p.rackCap xs
  { frame := n, shares := shares
    digest := Config.shake (leBytes 8 n ++ concordDigest p ++ (shares.map (leBytes 8)).flatten) 8
    lacked := (List.range p.trays).any (fun i => (got i).isNone)
    locked := (match got p.index with | some x => !(bitSet x.flags 0) | none => false) }

/-- The judgement of R(n − 2) in frame n, and the concord cap that follows from it (R237). The first two results after a
restart are DIVERGED (R238). -/
def concordJudge (p : ConcordProg) (n : Nat) (s : State) : State :=
  match s.ani.results.find? (fun x => x.frame + 2 == n) with
  | none => s
  | some r =>
    let votes := (s.ani.sums.filter (fun x => x.frame + 1 == n && x.prev == r.digest)).length
    let good := !r.lacked && r.locked && decide (p.trays < 2 * votes) && decide (2 ≤ s.ani.judged)
    let share := r.shares.getD p.index 0
    let fac := getN s Obj.facilityTrayCapW
    let cap := if good || Fmt.f32.toRat fac = 0 then share else dMin share (dOfF fac)
    let s1 := setAni (fun a => { a with judged := a.judged + 1, prevDiverged := !good, cap := some cap, cstate := if good then .converged else .diverged }) s
    if good then s1 else raiseMain .concordDiverged concordSrc (r.frame % 2 ^ 32) (inc32 s1 Obj.concordDivergences)

/-- Unit 0's concord work in frame n: R(n − 1), and the judgement of R(n − 2). -/
def concordFrame (n : Nat) (s : State) : State :=
  match concordOn s with
  | none => s
  | some p =>
    let s1 := if n = 0 then s else setAni (fun a => { a with results := a.results ++ [concordCompute s p (n - 1)] }) (signalCell 194 1 s)
    let s2 := recomputeCaps (concordJudge p n s1)
    setAni (fun a => { a with sums := a.sums.filter (fun x => decide (n ≤ x.frame + 1)), results := a.results.filter (fun x => decide (n ≤ x.frame + 1)) }) s2

/-! ## The frame jobs (R213, R215) -/

/-- Frames of a tick (R213). -/
def tickFrames (s : State) : Nat := 1000000 / frameNs s

/-- What an uncorrectable error in the job of frame or tick n would put back. -/
def keepJobs (n : Nat) (s : State) : State :=
  setAni (fun a => { a with
    jobsBack := some ⟨n, a.integ, a.set, a.rules, a.results, a.cstate, a.cap, a.judged, a.prevDiverged⟩ }) s

/-- The results of the frame job are put back, and those still on their way to Rye are withdrawn (R217). -/
def discardJobs (b : JobsBack) (s : State) : State :=
  recomputeCaps (setAni (fun a => { a with
    integ := b.integ, set := b.set, rules := b.rules, results := b.results, cstate := b.cstate, cap := b.cap, judged := b.judged
    prevDiverged := b.prevDiverged, ticking := false, sent := Vector.replicate 24 none, jobsBack := none }) s)

/-- The frame job of unit 0 in frame n. At the start of a tick the results of the tick before take effect first, or a new program
does (R218), and no error takes them back. -/
def frameJobs (n : Nat) (s : State) : State :=
  let s0 := if n % tickFrames s = 0 then tickTake s else s
  let s1 := keepJobs n (setAni (fun a => { a with
    jobsFrame := some n, firstRun := match a.firstRun with | some c => some c | none => some s.clk.cycles }) s0)
  let tick (f : Nat → State → State) (s : State) : State := if n % tickFrames s = 0 then f (n / tickFrames s) s else s
  if s.ani.jobsUe then tick tickSkip (setAni (fun a => { a with jobsUe := false }) s1)
  else tick tickRun (concordFrame n (evalRules n s1))

/-- The loop job of tick m in READY. -/
def readyJobs (m : Nat) (s : State) : State :=
  let s1 := tickTake s
  if s.ani.jobsUe then tickSkip m (setAni (fun a => { a with jobsUe := false }) s1) else tickRun m (keepJobs m s1)

/-- ANISE_FRAME_JOBS: in RUN, once in each frame; in READY, the cooling loops at the next whole multiple of 1,000,000. -/
def execAniseFrameJobs (s : State) : Out :=
  if s.part.st = .run then
    if !(frameBegun s) || s.ani.jobsFrame = some s.eng.frame then .next s
    else .next (noteDegraded (frameJobs s.eng.frame s))
  else if s.part.st = .ready then
    let k := ceilDiv (now s) 1000000
    let due := (if k = s.ani.tick then k + 1 else k) * 1000000
    let s1 := reachCount due s
    .next (readyJobs (now s1 / 1000000) s1)
  else .next s

/-! ## ANT words (R227 to R229) -/

def horizons : List Nat := [1, 4, 16]

/-- The CRC-8 of a word's upper 56 bits, in the low byte. -/
def withCrc (w : Nat) : Nat := w * 256 + crc8 ((List.range 7).map (fun i => w / 256 ^ (6 - i) % 256))

/-- R228. -/
def noForecastWord (n : Nat) : Nat := withCrc ((n % 256) * 2 ^ 48 + 2 ^ 10)

/-- CONF of R229: 15 − min(15, floor(15 W / D)), 0 for a NaN. -/
def confOf (w d : Nat) : Nat :=
  let p := fMul (fInt 15) (fMul w (vRecip d))
  if Fmt.f32.isNan p || Fmt.f32.isInf p then 0 else 15 - min 15 (f32ToRat p).floor.toNat

/-- The forecast of a session for a link: its values, PRESENT, its rail, and whether its token was a gap or stale. -/
structure AntIn where
  sess : Nat
  values : List Nat
  present : Nat
  rail : Nat
  stale : Bool
  deriving DecidableEq, Repr

/-- C of R229: the class P0 sessions of link a whose record of the frame is VALID. -/
def antSessions (s : State) (a : Nat) : List AntIn :=
  (activeSessions s).filterMap (fun k =>
    let x := getSess s k
    if x.eff.cls = 0 && x.eff.consumer / 4096 = 1 && x.eff.consumer / 16 % 8 = a then
      match look s.eng.records k with
      | some r => if r.valid then
          some ⟨k, r.values, lookD s.ani.present k 0, x.eff.consumer % 16,
            let t := x.lastToken; (bitSet t 12 || bitSet t 14)⟩ else none
      | none => none
    else none)

/-- The candidate of a session: the first horizon whose change reaches ANT_STEP_MIN. -/
def antCandidate (step period : Nat) (x : AntIn) : Option (AntIn × Nat × Nat) :=
  ((List.range 3).findSome? (fun h =>
    let th := horizons.getD h 0 * period - 10
    let d := fSub (x.values.getD (3 * h + 1) 0) x.present
    if decide (th ≤ 1023) && fLe step (fAbs d) then some (h, d) else none)).map (fun p => (x, p.1, p.2))

/-- A decoded value rounded to an integer and clamped, and whether the clamp acted: an infinity goes to the limit of its
sign. -/
def rintClamp (lo hi : Int) (x : FV) : Int × Bool :=
  match x with
  | .inf neg => (if neg then lo else hi, true)
  | _ => let v := x.rint; let c := max lo (min hi v); (c, c != v)

/-- The word of link a in frame n. -/
def antWord (s : State) (a n : Nat) : Nat :=
  let period := frameNs s / 1000
  let step := getN s Obj.antStepMin
  match antSessions s a with
  | [] => noForecastWord n
  | x0 :: rest =>
    let base (stale clamped multi : Bool) : Nat :=
      flagBit stale 1 + flagBit clamped 2 + flagBit (s.clk.state != .locked) 3 + flagBit multi 4
    let cands := (x0 :: rest).filterMap (antCandidate step period)
    match cands with
    | [] =>
      let conf := confOf (fSub (x0.values.getD 2 0) (x0.values.getD 0 0)) step
      withCrc ((n % 256) * 2 ^ 48 + conf * 2 ^ 22 + x0.rail * 2 ^ 18 + base x0.stale false false * 2 ^ 10)
    | c0 :: cs =>
      let best := cs.foldl (fun m c => if fLt (fAbs m.2.2) (fAbs c.2.2) then c else m) c0
      let (x, h, d) := best
      let (stp, clamped) := rintClamp (-2048) 2047 (Fmt.f32.decode (fMul d 0x3F000000))
      let conf := confOf (fSub (x.values.getD (3 * h + 2) 0) (x.values.getD (3 * h) 0)) (fAbs d)
      withCrc ((n % 256) * 2 ^ 48 + (stp % 4096).toNat * 2 ^ 36 + (horizons.getD h 0 * period - 10) * 2 ^ 26 + conf * 2 ^ 22 +
        x.rail * 2 ^ 18 + base x.stale clamped (!cs.isEmpty) * 2 ^ 10)

/-! ## Breaker adaptation (R231) -/

/-- Whether a branch has been ON for 64 F, counted from the later of its entry into ON and Anise's first frame (R232). -/
def onLongEnough (s : State) (b : Fin 12) : Bool :=
  match s.ani.firstRun with
  | none => false
  | some c => (s.br.get b).st == .on && decide (max c (s.br.get b).onAt + 64 * (frameNs s / 40) ≤ s.clk.cycles)

/-- The records of the class P0 sessions that name a branch; none where one is not VALID or has SAT or INV. -/
def adaptRecords (s : State) (b : Fin 12) : Option (List Record) :=
  let ks := (activeSessions s).filter (fun k => (getSess s k).eff.cls == 0 && (getSess s k).eff.consumer == 0x2000 + b.val)
  let rs := ks.map (fun k => look s.eng.records k)
  if rs.all (fun r => match r with | some r => r.valid && !(bitSet r.flags 3) && !(bitSet r.flags 4) | none => false) then
    some (rs.filterMap id)
  else none

def maxOf (xs : List Nat) : Nat := xs.foldl Fmt.f32.max fNegInf

def adaptTarget (s : State) (b : Fin 12) : Nat :=
  let mode := getN s (Obj.branchTripMode b.val)
  match getN s (Obj.adaptEnable b.val), adaptRecords s b, configuredCurve s b with
  | 1, some (r :: rs), p :: _ =>
    if (mode = 2 || mode = 3) && onLongEnough s b then
      let e := maxOf (((r :: rs).map (fun r => [2, 5, 8].map (fun i => r.values.getD i 0))).flatten)
      Fmt.f32.min fOne (Fmt.f32.max (getN s Obj.adaptFloor) (fMul (getN s Obj.adaptMargin) (fMul e (vRecip p.amps))))
    else fOne
  | _, _, _ => fOne

/-- ADAPT(b, n): g, and the eight currents sent. -/
def adaptBranch (b : Fin 12) (s : State) : State :=
  let gt := adaptTarget s b
  let g := s.ani.g.get b
  let g' := if fLe g gt then gt else Fmt.f32.max gt (fSub g (getN s Obj.adaptFall))
  let amps := (configuredCurve s b).map CurvePt.amps
  let all := amps ++ List.replicate (8 - amps.length) 0
  setAni (fun a => { a with g := vupd a.g b (fun _ => g'), curves := vupd a.curves b (fun _ => some (all.map (fMul g'))) }) s

/-- ANT_ADAPT_WINDOW: once in each frame that runs, after the class P0 EMIT. -/
def execAntAdaptWindow (s : State) : Out :=
  let n := s.eng.frame
  if s.part.st ≠ .run || !s.eng.p0Done || s.eng.cur.skipped || !(frameBegun s) || s.ani.antFrame = some n then .next s
  else
    let s1 := setAni (fun a => { a with antFrame := some n, gBack := some (n, a.g), formed := Vector.ofFn (fun a => some (n, antWord s a.val n)) }) s
    .next (signalCell 193 1 (forAll 12 adaptBranch s1))

/-! ## Anise memory errors (R217) -/

/-- ANISE_UE: the results of the job in which it was found are discarded, for that frame or tick, and the program is read
again before the next tick. A job that has run in the present frame (in READY: the last loop job) is put back; one that
has not is discarded when it comes. A summary discarded before it was sent is not sent in that frame. -/
def execAniseUe (job : AniseJob) (s : State) : Out := noted <|
  if !(s.part.st == .run || s.part.st == .ready) then .next s
  else
    let n := s.eng.frame
    let s1 := match job with
      | .frame => (match s.ani.jobsBack with
        | some b => if s.part.st = .ready || b.at_ = n then discardJobs b s else setAni (fun a => { a with jobsUe := true }) s
        | none => setAni (fun a => { a with jobsUe := true }) s)
      | .window => setAni (fun a => { a with
          antFrame := some n, formed := Vector.replicate 8 none, curves := Vector.replicate 12 none, gBack := none
          g := match a.gBack with | some (m, g) => if m = n then g else a.g | none => a.g }) s
      | .summary => setAni (fun a => { a with
          sentFrame := some n, sums := a.sums.filter (fun x => !(x.frame == n && (match concordOf s with | some p => x.index == p.index | none => false))) }) s
      | .tick => setAni (fun a => { a with ticking := false, newTemps := none, newMpc := none }) s
    .next (raiseMain .aniseUe aniseSrc (openDetail .aniseUe 0) (setAni (fun a => { a with reload := true }) s1))

end Sys2Proof.Machine
end

