-- ==== Sys2Proof/Machine/Real.lean ====
section
/-! DEFINITION. The exponential, the logarithm and the power of the rules that write them (08 R260, R264, R265), as rationals on
the grid of 2^-96: well inside the tolerances those rules give (log 9). -/
namespace Sys2Proof.Machine

/-- One on the grid of 2^-96. -/
def fixOne : Nat := 79228162514264337593543950336

def toFix (x : Rat) : Int := (x * (fixOne : Nat)).floor
def ofFix (n : Int) : Rat := mkRat n fixOne

/-- The grid value at or below x. -/
def onGrid (x : Rat) : Rat := ofFix (toFix x)

/-- 1 − y + y²/2! − …, n terms from the k-th. -/
def expTerms : Nat → Nat → Int → Int → Int
  | 0, _, _, _ => 0
  | n + 1, k, t, y => t - expTerms n (k + 1) (t * y / (((k + 1) * fixOne : Nat) : Int)) y

/-- Square n times. -/
def fixSquare : Nat → Int → Int
  | 0, x => x
  | n + 1, x => fixSquare n (x * x / (fixOne : Int))

/-- e to the −y for y from 0: the series at y / 2^n, at most 1/16, squared n times. -/
def expNeg (y : Rat) : Int :=
  if 66 ≤ y then 0
  else
    let n := Nat.log2 (y.ceil.toNat + 1) + 5
    fixSquare n (expTerms 16 0 fixOne (toFix (y / 2 ^ n)))

def realExp (x : Rat) : Rat := if x ≤ 0 then ofFix (expNeg (-x)) else 1 / ofFix (expNeg x)

/-- z + z³/3 + z⁵/5 + …, n terms, `p` the k-th odd power. -/
def atanhTerms : Nat → Nat → Int → Int → Int
  | 0, _, _, _ => 0
  | n + 1, k, p, z2 => p / ((2 * k + 1 : Nat) : Int) + atanhTerms n (k + 1) (p * z2 / (fixOne : Int)) z2

def atanhFix (z : Rat) : Int := atanhTerms 32 0 (toFix z) (toFix (z * z))

/-- ln x for x above 0: x is 2^e times a number between 1/2 and 2. -/
def realLn (x : Rat) : Rat :=
  let e : Int := (Nat.log2 x.num.natAbs : Int) - Nat.log2 x.den
  let m := if e < 0 then x * 2 ^ e.natAbs else x / 2 ^ e.natAbs
  ofFix (2 * atanhFix ((m - 1) / (m + 1)) + 2 * e * atanhFix (1 / 3))

/-- b to the e, for b above 0. -/
def realPow (b e : Rat) : Rat := realExp (e * realLn b)

end Sys2Proof.Machine
end

