-- ==== Sys2Proof/Machine/Replay.lean ====
section
/-! DEFINITION. Replaying a run (05 R174 to R179): the export in REPLAY_INPUT, the checks at START, and the recorded frames. -/
namespace Sys2Proof.Machine

open Sys2Proof

/-! ## Reading an export (05 R169, R171, R173; Tables 5.2 to 5.10) -/

def ctrlOf (b : List Byte) : Ctrl :=
  let k := leAt b 0 1
  let pay : CtrlPay :=
    if k = 1 then .desc (descOfBytes (slice b 16 64)).1
    else if k = 2 ∨ k = 7 then .bytes (slice b 16 32)
    else if k = 8 then .bytes (slice b 16 64)
    else .none
  ⟨k, leAt b 1 1, leAt b 2 2, leAt b 4 4, leAt b 8 8, pay⟩

def ledgerEntOf (b : List Byte) : LedgerEnt := ⟨leAt b 0 2, leAt b 2 1, leAt b 3 1, leAt b 4 4, leAt b 8 8⟩

def readRecord (b : List Byte) : Record :=
  ⟨(List.range 12).map (fun i => leAt b (4 * i) 4), leAt b 48 4, leAt b 52 4, leAt b 56 2, leAt b 58 2, leAt b 60 1, leAt b 61 1, leAt b 62 2⟩

/-- A checkpoint entry at the head of some bytes, and its length. -/
def entryOf (bs : List Byte) : CkptEnt × Nat :=
  let n := leAt bs 4 4
  let last := slice bs 88 64
  (⟨leAt bs 0 2, bitSet (leAt bs 2 1) 0, bitSet (leAt bs 2 1) 1, leAt bs 8 8, (descOfBytes (slice bs 16 64)).1,
    if leAt bs 87 1 = 1 then some (leAt bs 80 4) else none, leAt bs 84 2, leAt bs 86 1,
    if last.all (· == 0) then none else some (readRecord last), leAt bs 152 2, leAt bs 154 1, leAt bs 155 1, slice bs 168 n⟩,
   168 + ceilDiv n 8 * 8)

/-- n checkpoint entries, and whether they fill the bytes and agree with their CRCs. -/
def entriesFrom : Nat → List Byte → List CkptEnt × Bool
  | 0, bs => ([], bs == [])
  | k + 1, bs =>
    let e := entryOf bs
    let r := entriesFrom k (bs.drop e.2)
    (e.1 :: r.1, r.2 && e.1.bytes == bs.take e.2)

/-- n codebooks with their indexes, their length, and whether the reserved bytes after each index are 0 (00 R14). -/
def booksFrom : Nat → List Byte → Map Codebook × Nat × Bool
  | 0, _ => ([], 0, true)
  | k + 1, bs =>
    let es := codebookOf (bs.drop 8)
    let r := booksFrom k (bs.drop (16 + 4 * es.length))
    (put r.1 (leAt bs 0 2) ⟨es, midpoints es⟩, 16 + 4 * es.length + r.2.1, r.2.2 && (slice bs 2 6).all (· == 0))

/-- A full-ring block. Of the YREF array only the order is given: its values are numbered from 0. -/
def fullBlockOf (b : List Byte) : RingBlock :=
  let fl := leAt b 24 2
  let toks := if bitSet fl 0 then 0 else 10240
  let nY := leAt b 48 2
  let oY := 64 + 2 * toks
  let oE := oY + 4 * nY
  let nE := leAt b 28 2
  let led : FrameLedger := ⟨leAt b 0 8, leAt b 8 8, leAt b 16 4, leAt b 30 2, bitSet fl 0, bitSet fl 1, bitSet fl 2, bitSet fl 3,
    leAt b 50 2, section_ ledgerEntOf b oE 16 nE⟩
  ⟨led, (List.range toks).filterMap (fun n => let t := leAt b (64 + 2 * n) 2; if t = 0 then none else some (n, t)),
    (List.range nY).map (fun i => (i, leAt b (oY + 4 * i) 4)), section_ ctrlOf b (oE + 16 * nE) 80 (leAt b 26 2), leAt b 32 8, leAt b 40 8⟩

/-- The selection after the SELECT records of a frame. -/
def selAfter (sel : List Nat) (cs : List Ctrl) : List Nat := if cs.any (fun c => c.kind == 8) then selectedOf (selectAfter [] cs) else sel

/-- A decimated-ring block, for the sessions selected before it. -/
def decBlockOf (sel : List Nat) (b : List Byte) : RingBlock × List Nat :=
  let fl := leAt b 22 2
  let nC := leAt b 20 2
  let cs := section_ ctrlOf b (b.length - 80 * nC) 80 nC
  let sel := selAfter sel cs
  let toks := if bitSet fl 0 then 0 else sel.length
  let oY := 24 + 2 * toks
  let nY := (b.length - 80 * nC - oY) / 4
  let led : FrameLedger := { FrameLedger.empty with
    frame := leAt b 0 8, skipped := bitSet fl 0, notLocked := bitSet fl 1, sliced := bitSet fl 2, uncorrectable := bitSet fl 3 }
  (⟨led, (sel.zipIdx.filterMap (fun p => let t := leAt b (24 + 2 * p.2) 2; if toks = 0 ∨ t = 0 then none else some (p.1, t))),
    (List.range nY).map (fun i => (i, leAt b (oY + 4 * i) 4)), cs, leAt b 8 8, 0⟩, sel)

/-- The reserved bytes of a full-ring block (00 R14). -/
def blockReserved (b : List Byte) : Bool := (slice b 52 12).all (· == 0)

/-- The six reserved bytes after the index of an entry of the model list or of a codebook (00 R14). -/
def listReserved (b : List Byte) : Bool := (slice b 2 6).all (· == 0)

/-- The blocks of an export, each as long as it says, and whether they fill the bytes and leave their reserved fields 0. -/
def blocksFrom (which : Nat) : Nat → List Nat → List Byte → List RingBlock × Bool
  | 0, _, bs => ([], bs == [])
  | k + 1, sel, bs =>
    let len := leAt bs (if which = 1 then 16 else 20) 4
    if bs = [] then ([], true)
    else if decide (len < 24) || decide (bs.length < len) then ([], false)
    else
      let b := if which = 1 then decBlockOf sel (bs.take len) else (fullBlockOf (bs.take len), sel)
      let r := blocksFrom which k b.2 (bs.drop len)
      (b.1 :: r.1, r.2 && (which == 1 || blockReserved bs))

/-- The export that the bytes of REPLAY_INPUT spell. `crcOk`: its CRCs, its lengths and its reserved fields. The sessions selected
before the first block of a decimated export are those of its base (DEDUCED, log 51). -/
def parseExport (bs : List Byte) : Export :=
  let which := leAt bs 2 1
  let nI := leAt bs 24 2
  let nM := leAt bs 26 2
  let oM := 64 + 40 * nI
  let oB := oM + 40 * nM
  let books := booksFrom (leAt bs 28 2) (bs.drop oB)
  let oC := oB + books.2.1
  let base := slice bs oC (leAt bs 32 8)
  let ents := entriesFrom (leAt base 8 2) (base.drop 32)
  let oX := oC + leAt bs 32 8
  let blks := slice bs oX (leAt bs 40 8)
  let bl := blocksFrom which (blks.length / 24 + 1) (ents.1.map (·.session)) blks
  { crcOk := decide (64 ≤ bs.length) && crc64 (bs.take 56 ++ leBytes 8 0 ++ bs.drop 64) == leAt bs 56 8 &&
      bs.length == oX + leAt bs 40 8 && leAt bs 6 2 == 0 && leAt bs 30 2 == 0 && leAt base 0 8 == leAt bs 8 8 &&
      leAt base 16 8 == base.length - 32 && leAt base 24 8 == crc64 (base.drop 32) && (slice base 10 6).all (· == 0) && ents.2 && bl.2 && books.2.2 &&
      (section_ listReserved bs oM 40 nM).all id
    format := leAt bs 0 2, which := which, contract := leAt bs 3 1, nL := leAt bs 4 1, period := leAt bs 5 1
    first := leAt bs 8 8, last := leAt bs 16 8
    images := section_ (fun b => (leAt b 0 8, slice b 8 32)) bs 64 40 nI
    models := section_ (fun b => (leAt b 0 2, slice b 8 32)) bs oM 40 nM
    codebooks := books.1, base := ⟨leAt base 0 8, 0, ents.1⟩, blocks := bl.1, bytes := bs.length }

/-- An export written to REPLAY_INPUT stands in the full ring, in place of what that held (R174). -/
def replayInputEffect (bs : List Byte) (s : State) : State :=
  let x := parseExport bs
  setEng (fun g => { g with ring := { g.ring with
    exp := if bs = [] then none else some x, blocks := if x.crcOk then x.blocks else [], bases := if x.crcOk then [x.base] else []
    dec := [], decBases := [] } }) s

/-! ## START (R175) -/

/-- The entry of the image store that holds the image of a digest. -/
def loadedDigest (s : State) (dg : List Byte) : Option (Nat × Image) :=
  ((List.finRange 4).filterMap (fun k => (s.img.store.get k).image.map (fun i => (k.val, i)))).find? (fun p => p.2.digest.take 32 == dg)

def exportFieldsOk (x : Export) : Bool :=
  x.crcOk && x.format == 1 && decide (x.which ≤ 1) && x.contract == 1 && decide (x.period ≤ 3) && decide (1 ≤ x.nL) &&
  decide (x.nL ≤ 64) && decide (x.first ≤ x.last)

/-- The checks at START in the order of R175; 0 when all pass. -/
def replayStatus (s : State) : Nat :=
  if s.part.st ≠ .ready || sessionsOpen s ≠ 0 || getN s Obj.launchAt ≠ 0 then 0x00050008
  else
    match s.eng.ring.exp with
    | none => 0x00040503
    | some x =>
      if !(exportFieldsOk x) then 0x00040503
      else if x.images.any (fun p => (loadedDigest s p.2).isNone) then 0x00020501
      else if x.models.any (fun p => match modelOf s p.1 with | some m => m.digest.take 32 != p.2 | none => true) then 0x00020502
      else if x.images.any (fun p => match loadedDigest s p.2 with | some (_, i) => !(footprintOk s i) | none => false) then 0x00070601
      else if decide (6554 * 1048576 < x.bytes) then 0x00070502
      else 0

/-- A session as a checkpoint gives it. -/
def sessOfEntry (e : CkptEnt) : Sess :=
  { Sess.closed with
    st := if e.modelActive = 0xFFFF then .pending else .opened, desc := e.desc, eff := e.desc, modelActive := e.modelActive
    lane := e.desc.lane, k := e.k, phase := e.phase, sflags := if e.desc.replica then 16 else 0, yref := e.yref, lastCode := e.lastCode
    held := e.held, record := e.lastRecord, lastValid := e.lastRecord, state := e.state, fresh := true }

/-- An image is brought up for the sessions of a replay: neither control records nor their k and phase come from it. -/
def replayImage (i : Nat) (s : State) : State :=
  let t := coldLoad i 0 (setImg (fun m => { m with replayOf := some i }) s)
  setEng (fun g => { g with
    nextControls := s.eng.nextControls
    sess := g.sess.map (fun p => match look s.eng.sess p.1 with
      | some y => (p.1, { p.2 with k := y.k, phase := y.phase, moving := y.moving })
      | none => p) }) t

/-- The replay starts: the rings freeze, the codebooks of the export stand, and the base checkpoint is restored on the first
image of its list (R172, R176). -/
def startReplay (x : Export) (s : State) : State :=
  let s1 := setN (setN (setN (setN s Obj.replayFrames 0) Obj.replayMismatchFrame u64) Obj.replayMismatchKind 0) Obj.replayError 0
  let s2 := seqCancel 17 (freezeRing s1)
  let s3 := setEng (fun g => { g with
    sess := x.base.entries.foldl (fun m e => put m e.session (sessOfEntry e)) [], books := x.codebooks, loads := [], output := []
    ring := { g.ring with st := .replaying, replay := .running, rest := x.blocks, kept := [x.base], books := s.eng.books } }) s2
  match (x.images.head?).bind (fun p => loadedDigest s p.2) with
  | some (i, _) => replayImage i s3
  | none => s3

def refuseReplay (code : Nat) (s : State) : State :=
  setEng (fun g => { g with ring := { g.ring with replay := .refused } }) (setN s Obj.replayError code)

/-- The image in force, if there is one, is on the tiles again, for no session. -/
def reloadForce (s : State) : State :=
  let ctrls := s.eng.nextControls
  let s1 := setImg (fun m => { m with replayOf := none }) s
  let s2 := match s1.img.inForce with
    | some i => coldLoad i 0 s1
    | none => gateUnmapped [] (setEng (fun g => { g with slots := [], loads := [] }) (setImg (fun m => { m with binds := [], plan := none, repls := [] }) s1))
  setEng (fun g => { g with nextControls := ctrls }) s2

/-- After DONE, MISMATCH or ABORT the engine holds no session and the part stays in READY (R179). The rings stay frozen unless
RING_FREEZE has been written 0 meanwhile (log 51). -/
def endReplay (r : ReplayState) (s : State) : State :=
  let s1 := reloadForce (setEng (fun g => { g with
    sess := [], books := g.ring.books, tokens := [], yrefs := [], records := [], controls := []
    ring := { g.ring with st := .frozen, replay := r, rest := [], kept := [], books := [] } }) s)
  if getN s1 Obj.ringFreeze = 0 then resumeRing s1 else s1

/-- A main-die reset ends a replay without an outcome. -/
def dropReplay (s : State) : State :=
  if s.eng.ring.replay = .running then
    setImg (fun m => { m with replayOf := none, binds := [] }) (setEng (fun g => { g with
      sess := [], books := g.ring.books, slots := []
      ring := { g.ring with replay := .idle, rest := [], kept := [], books := [] } }) s)
  else s

/-- REPLAY_CTRL: 0 only stands; 1 starts a replay of the export in the full ring, 2 ends one (R174, R179). -/
def replayCtrlEffect (v : Nat) (s : State) : State :=
  let s1 := setN s Obj.replayCtrl v
  if v = 1 then
    (if replayStatus s1 ≠ 0 then refuseReplay (replayStatus s1) s1
     else match s.eng.ring.exp with
       | some x => startReplay x s1
       | none => s1)
  else if v = 2 && s.eng.ring.replay == .running then endReplay .idle s1
  else s1

/-- REPLAY_START: a write of 1 to REPLAY_CTRL. -/
def execReplayStart (au : Auth) (s : State) : Out :=
  .next (writeStep au Obj.replayCtrl.key (.num 1) replayHome (fun _ => replayCtrlEffect 1) s)

/-- REPLAY_ABORT: a write of 2 to REPLAY_CTRL. -/
def execReplayAbort (au : Auth) (s : State) : Out :=
  .next (writeStep au Obj.replayCtrl.key (.num 2) noHome (fun _ => replayCtrlEffect 2) s)

/-! ## The control records of a recorded frame (R176) -/

/-- The lane of a shape that a session of the replay takes: the one it asks for while that is free. -/
def replayLane (d : Desc) (m : Model) (s : State) : Nat :=
  match chooseLane s d.cls m.shape d.model m.weightBytes d.lane d.replica with
  | some (k, _) => k
  | none => match chooseLane s d.cls m.shape d.model m.weightBytes 0xFFFF d.replica with | some (k, _) => k | none => 0xFFFF

/-- DESCRIPTOR: a session opens, changes or closes. -/
def replayDesc (n : Nat) (d : Desc) (s : State) : State :=
  let x := getSess s n
  if !d.openBit then updSess n Sess.release s
  else if x.live && x.st != .pending then updSess n (fun x => { x with desc := d, eff := d }) s
  else
    match modelOf s d.model with
    | none => s
    | some m =>
      let s1 := updSess n Sess.release s
      let lane := replayLane d m s1
      seatModel n (setSess n { Sess.closed with
        st := .opened, desc := d, eff := d, modelActive := d.model, lane := lane, ltile := laneTile s1 lane, k := 1, phase := 0
        state := m.init, fresh := true, sflags := if d.replica then 16 else 0 } s1)

/-- SWITCH. -/
def replaySwitch (n model : Nat) (s : State) : State :=
  let x := getSess s n
  let old := modelOf s x.modelActive
  match modelOf s model with
  | none => s
  | some m =>
    let lane := if ((lanesNow s)[x.lane]?.map (·.shape)) == some m.shape then x.lane else replayLane { x.desc with model := model, lane := 0xFFFF } m s
    seatModel n (updSess n (fun x => { x with
      state := adaptState old (some m) x.state, fresh := true, copyBad := x.copyBad && stateCarried old (some m)
      modelActive := model, lane := lane, ltile := laneTile s lane }) s)

/-- The checkpoint that a RESTORE record names, among those the replay keeps. -/
def keptCkpt (s : State) (aux : Nat) : Option Ckpt := (s.eng.ring.kept.filter (fun k => k.frame % 2 ^ 32 == aux)).getLast?

/-- RESTORE of one session: its state and its Teff state (R162). -/
def replayRestore (c : Ctrl) (s : State) : State :=
  let e := if c.flags = 2 then none else entryIn (keptCkpt s c.aux) c.session
  updSess c.session (fun x => { restoreState s e x with stopUntil := none }) s

/-- RESTORE of a session with every field, after a stop of the engine (R163). -/
def replayRestoreAll (c : Ctrl) (s : State) : State :=
  let k := if c.flags = 2 then s.eng.ring.kept.getLast? else keptCkpt s c.aux
  match entryIn k c.session with
  | none => replayRestore c s
  | some e =>
    let y := getSess s c.session
    let z := sessOfEntry e
    let back : Sess := if y.live then { z with lane := y.lane, ltile := y.ltile, k := y.k, phase := y.phase, sflags := y.sflags, record := y.record } else z
    let s1 := setSess c.session (if c.flags = 2 then restoreState s none back else back) s
    if y.live then s1
    else
      match modelOf s z.modelActive with
      | some m => let q := replayLane e.desc m s1
                  seatModel c.session (updSess c.session (fun x => { x with lane := q, ltile := laneTile s1 q }) s1)
      | none => s1

/-- Whether the RESTORE records of a frame follow a stop of the engine: one names a session that neither was stopped by an
INVALIDATE nor was held for a plan (DEDUCED, log 51). -/
def restoresAll (s : State) (cs : List Ctrl) : Bool :=
  cs.any (fun c => c.kind == 5 && (let x := getSess s c.session; x.stopUntil.isNone && (x.k != 0 || !x.live)))

/-- The RESTORE records of a frame. After a stop, sessions that none names are closed. -/
def replayRestores (cs : List Ctrl) (s : State) : State :=
  let rs := cs.filter (fun c => c.kind == 5)
  if restoresAll s rs then
    let gone := ((liveSessions s).filter (fun p => !(rs.any (fun c => c.session == p.1)))).map (·.1)
    forEach rs replayRestoreAll (forEach gone (fun n => updSess n Sess.release) s)
  else forEach rs replayRestore s

/-- Another image runs from the frame of its IMAGE record on: a HOT one in the other half (06 R195), else from scratch. -/
def replaySwitchImage (dg : List Byte) (s : State) : State :=
  match loadedDigest s dg with
  | none => s
  | some (i, x) =>
    if s.img.replayOf = some i then s
    else if isHot s x then setImg (fun m => { m with replayOf := some i }) (swapHalves (loadBundles x s))
    else replayImage i s

/-- One of the remaining control records. -/
def applyCtrl (c : Ctrl) (s : State) : State :=
  match c.kind, c.payload with
  | 1, .desc d => replayDesc c.session d s
  | 2, _ => replaySwitch c.session c.aux s
  | 3, _ => updSess c.session (fun x => { x with k := c.aux % 256, phase := c.aux / 256 % 256 }) s
  | _, _ => s

/-- The control records of a frame, as the recorded frame applied them: the image, what is restored, then the changes. -/
def replayControls (cs : List Ctrl) (s : State) : State :=
  let s1 := forEach cs (fun c s => match c.kind, c.payload with | 7, .bytes dg => replaySwitchImage dg s | _, _ => s) s
  forEach cs applyCtrl (replayRestores cs s1)

/-! ## Recorded frames (R176 to R178) -/

def causeOf (cs : List Ctrl) (n : Nat) : Nat := ((cs.find? (fun c => c.kind == 4 && c.session == n)).map (·.aux)).getD 0

/-- The session runs in the recorded frame. One whose output the frame withholds, with a token of 0, is taken as not advancing
(DEDUCED, log 51). -/
def replayAdvances (b : RingBlock) (n : Nat) (x : Sess) : Bool :=
  x.st == .opened && x.stopUntil.isNone && onPhase x.k x.phase b.ledger.frame &&
  !(causeOf b.controls n == 1 && lookD b.tokens n 0 == 0)

/-- After a frame that withheld it, the session is restored before it advances again. -/
def restoredNext (n : Nat) : List RingBlock → Bool
  | [] => false
  | b :: t =>
    if b.controls.any (fun c => c.kind == 5 && c.session == n) then true
    else if lookD b.tokens n 0 ≠ 0 then false
    else restoredNext n t

/-- The recorded token and YREF of a session that advances, with the Teff state they leave (04 R134). -/
def replayToken (b : RingBlock) (n i : Nat) (s : State) : State :=
  let t := lookD b.tokens n 0
  let x := getSess s n
  let late := x.eff.kind == 1 && b.ledger.entries.any (fun e => e.kind == 1 && e.source == x.eff.source)
  let y : Sess := { x with
    lastToken := t, lastFrame := b.ledger.frame, lastCode := t % 4096, satToken := bitSet t 13
    held := if bitSet t 12 then x.held else if bitSet t 14 && !late then x.held + 1 else 0
    yref := if x.eff.delta then (match look b.yrefs i with | some v => some v | none => x.yref) else x.yref
    gaps := if bitSet t 12 then min (x.gaps + 1) u32 else x.gaps, stales := if bitSet t 14 then min (x.stales + 1) u32 else x.stales
    poisoned := causeOf b.controls n == 1, copyBad := x.copyBad || causeOf b.controls n == 1 }
  setEng (fun g => { g with tokens := put g.tokens n t }) (setSess n y s)

/-- A session whose copies differed in the recorded frame: the record is withheld, the comparison ends, and the state goes on
unless it is restored (06 R208). -/
def withhold (f n : Nat) (stops : Bool) (before : Option Record) (s : State) : State :=
  let x := { getSess s n with lastValid := before }
  setEng (fun g => { g with records := put g.records n (heldRecord n f x.lastToken x) })
    (setSess n { x with sflags := putBit x.sflags 4 false, stopUntil := if stops then some (f + 2) else none } s)

/-- The logical tiles at one fold position run the frame, with the sessions on them; a frame takes as many passes as the binding
folds (R176). -/
def replayPass (f j : Nat) (s : State) : State :=
  match imageNow s with
  | none => s
  | some x =>
    let ls := (List.range x.nL).filter (fun l => (bindAt s.img.binds l).ptile.isSome && (bindAt s.img.binds l).member == j)
    if ls = [] then s
    else
      let mine := s.eng.tokens.filter (fun p => ls.contains (getSess s p.1).ltile)
      let emit (p0 : Bool) (s : State) : State := forEach mine (fun p s => emitOne p0 f p.1 s) s
      let s1 := forEach mine ingestLanes (setEng (fun g => { g with inputs := [] }) (startTiles ls s))
      let s2 := emit true (putDerived false 0 (runTo 6400 s1))
      let s3 := emit false (putDerived true 0 (runTo (emitEnd s2) s2))
      restTiles (runTo (periodCycles x.period) s3)

/-- The records of a recorded frame that is not a skipped one. -/
def replayRun (b : RingBlock) (rest : List RingBlock) (s : State) : State :=
  let f := b.ledger.frame
  let adv := ((liveSessions s).filter (fun p => replayAdvances b p.1 p.2)).map (·.1)
  let deltas := adv.filter (fun n => (getSess s n).eff.delta)
  let s1 := forEach adv (fun n s => replayToken b n (deltas.idxOf n) s) s
  let s2 := forEach (List.range 4) (fun j s => replayPass f j s) s1
  let s3 := forEach (adv.filter (fun n => causeOf b.controls n == 2)) (fun n s => withhold f n (restoredNext n rest) (getSess s1 n).lastValid s) s2
  forEach (activeSessions s3) (fun n s =>
    let x := getSess s n
    let lost := causeOf b.controls n == 1 && x.stopUntil.isNone
    let x1 := if lost then { x with stopUntil := some (f + 2), copyBad := true } else x
    let r := match look s.eng.records n with
      | some r => r
      | none => if x1.stopUntil.isSome then heldRecord n f x1.lastToken x1 else notAdvanced n f x1 x1.record
    setEng (fun g => { g with records := put g.records n r, output := g.output ++ [(f, n, r)] }) (setSess n { x1 with record := some r } s)) s3

/-- One recorded frame, to its end. -/
def replayFrame (b : RingBlock) (rest : List RingBlock) (s : State) : State :=
  let f := b.ledger.frame
  let s1 := setEng (fun g => { g with
    frame := f, tokens := [], yrefs := [], records := [], ring := { g.ring with rest := rest }
    sess := g.sess.map (fun p => (p.1, { p.2 with frameFlags := 0 })) }) s
  let s2 := replayControls b.controls s1
  let s3 := if b.ledger.skipped then s2 else replayRun b rest s2
  setEng (fun g => { g with controls := [], output := g.output.filter (fun o => decide (f < o.1 + 256)) }) s3

/-- The checkpoint of a recorded frame joins those the replay keeps, and replica sessions are compared again after it. -/
def replayCkpt (k : Ckpt) (s : State) : State :=
  mapSess (fun _ x => if x.eff.replica then { x with sflags := x.sflags ||| 16, onTwin := false } else x)
    (setEng (fun g => { g with ring := { g.ring with kept := g.ring.kept.drop (g.ring.kept.length - 3) ++ [k] } }) s)

/-- REPLAY_FRAME: a recorded frame is replayed and its CRCs are compared; the first difference ends in MISMATCH, the last frame
without one in DONE (R176, R177). A decimated export has no CKPT_CRC to compare. -/
def execReplayFrame (s : State) : Out :=
  if s.eng.ring.replay ≠ .running then .next s
  else
    match s.eng.ring.rest with
    | [] => .next (endReplay .done s)
    | b :: rest =>
      let f := b.ledger.frame
      let full := match s.eng.ring.exp with | some x => x.which == 0 | none => true
      let s1 := incMax (replayFrame b rest s) Obj.replayFrames 1 u64
      let ck := if (if full then b.ckptCrc != 0 else f % 64 == 63) then some (takeCkpt s1.eng.ring.kept.getLast? s1 (f + 1)) else none
      let s2 := match ck with | some k => replayCkpt k s1 | none => s1
      let badRec := recordCrc s2.eng.records != b.recordCrc
      let badCk := match ck with | some k => full && k.crc != b.ckptCrc | none => false
      if badRec || badCk then
        .next (endReplay .mismatch (setN (setN s2 Obj.replayMismatchFrame f) Obj.replayMismatchKind (if badRec then 1 else 2)))
      else if rest = [] then .next (endReplay .done s2)
      else .next s2

/-! ## Launch and rejoin (02 R61, R63, 11 R322) -/

/-- A replay that still runs when RUN is entered ends without an outcome, as after ABORT (DESIGN CHOICE, log 51). -/
def leaveReplay (s : State) : State :=
  if s.eng.ring.replay = .running then setEng (fun g => { g with nextTokens := [], teff := [] }) (endReplay .idle s) else s

/-- No frame is run: LAUNCH_AT is cleared. -/
def missLaunch (s : State) : State :=
  raiseMain .launchMissed frameSrc (openDetail .launchMissed 0)
    (setEng (fun g => { g with cutoff := none, nextTokens := [], teff := [] }) (setN s Obj.launchAt 0))

/-- LAUNCH: the count reaches LAUNCH_AT. A run that was stopped rejoins instead (R63). A READY activation that has not ended
misses it (06 R194). -/
def execLaunch (s : State) : Out :=
  if getN s Obj.launchAt = 0 || s.eng.any then .next s
  else
    let s1 := reachCount (getN s Obj.launchAt) s
    if canRun s1 && !(activating s1) then .next (noteDegraded (enterRun (newNumbers (leaveReplay s1))))
    else .next (missLaunch s1)

/-- The first frame whose start count is at least 1 F after the restore, and whose cutoff is still to come. -/
def rejoinFrame (s : State) : Nat :=
  let l := getN s Obj.launchAt
  let f := frameNs s
  max s.eng.next (max (ceilDiv (s.part.restoredAt + f - l) f) (ceilDiv (now s + 2000 - l) f))

/-- The block of a frame that was not run, with the records of what changed in the frame that a stop cut off (05 R169). -/
def skippedBlock (s : State) (n : Nat) (cs : List Ctrl) : RingBlock :=
  ⟨{ FrameLedger.empty with frame := n, start := startOf s n, epoch := s.clk.epoch, skipped := true, notLocked := s.clk.state != .locked },
    [], [], cs, recordCrc [], 0⟩

/-- The frames not run, from the first that did not complete, are counted and noted (R63). -/
def countSkipped (j : Nat) (s : State) : State :=
  let n0 := s.eng.next
  let cut := s.eng.cutControls
  if j ≤ n0 then setEng (fun g => { g with nextControls := cut ++ g.nextControls, cutControls := [] }) s
  else
    let s1 := setEng (fun g => { g with cutControls := [], ring := ringNotes n0 cut g.ring }) (incMax s Obj.framesSkipped (j - n0) u64)
    forEach (List.range (j - n0)) (fun i s => writeBlock (skippedBlock s (n0 + i) (if i = 0 then cut else [])) [] s) s1

/-- The run is over: both launch objects are cleared. -/
def clearLaunch (s : State) : State := setEng (fun g => { g with any := false }) (setN (setN s Obj.launchAt 0) Obj.frameStopAt 0)

/-- The first frame that FRAME_STOP_AT keeps from running (R62). -/
def stopFrame (s : State) : Nat := ceilDiv (getN s Obj.frameStopAt - getN s Obj.launchAt) (frameNs s)

/-- The writes after the checkpoint frame are reapplied, the frames not run up to J are counted, and J is the next one. -/
def readyRejoin (j : Nat) (s : State) : State :=
  let s1 := setEng (fun g => { g with frame := j - 1, next := j, cutoff := none }) (countSkipped j (startRings (leaveReplay s)))
  promoteEarly (forEach (writesSince s1) reapplyOne s1)

/-- ENGINE_REJOIN: the start of frame J. The writes after the checkpoint frame are reapplied before it (05 R163), the inputs of J are
latched at its cutoff, and at its start the engine enters RUN. Where FRAME_STOP_AT has passed the launch objects are cleared (11
R321), and where R322 is not met they are cleared at frame J with LAUNCH_MISSED (14 R406); the frames not run by then are counted
too (R63). A rejoin waits for an activation in READY (DESIGN CHOICE, log 51). -/
def execEngineRejoin (s : State) : Out :=
  if getN s Obj.launchAt = 0 || !s.eng.any || s.part.st ≠ .ready || s.part.restorePending || !s.part.restored || activating s then .next s
  else
    let j := rejoinFrame s
    if getN s Obj.frameStopAt ≠ 0 && decide (getN s Obj.frameStopAt ≤ startOf s j) then .next (clearLaunch (countSkipped (stopFrame s) s))
    else if !(canRun s) then .next (clearLaunch (missLaunch (reachCount (startOf s j) (countSkipped j s))))
    else
      let s1 := readyRejoin j s
      let s2 := cutoffFrame (reachCount (cutoffOf s1 j) s1)
      let s3 := enterRun (reachCount (startOf s2 j) s2)
      .next (noteDegraded { s3 with part := { s3.part with restored := false } })

end Sys2Proof.Machine
end

