-- ==== Sys2Proof/Machine/Straw.lean ====
section
/-! DEFINITION. The Straw-fed values in Rye (01 R30, R31, Table 1.2): ANT words and their slots (07 R226 to R228), adapted
curves (07 R214, R232, 20 R538) and cooling set points, with the outputs they drive (10 R310, R311). -/
namespace Sys2Proof.Machine

open Sys2Proof

/-! ## Cooling outputs -/

/-- A latched zone closes this valve (10 R317). -/
def leakCloses (s : State) (o : Fin 24) : Bool :=
  (List.finRange 8).any (fun z => s.cool.zones.get z != .clear && decide (o.val < 8) && bitSet (getN s (Obj.zoneValves z.val)) o.val)

/-- The rule of R31 that applies to an output, and the percentage it drives (R311). AIR drives no valve (R310). -/
def outRule (s : State) (o : Fin 24) : OutState × Rat :=
  let x := s.cool.outs.get o
  if o.val < 8 && getN s Obj.coolingType == 0 then (.notDriven, 0)
  else if leakCloses s o then (.leakClosed, getF s (Obj.valveClosedPct o.val))
  else if !x.fresh then (.failsafe, getF s (Obj.failsafePct o.val))
  else (.follow, x.setPoint)

/-- A percentage in steps of 1/n percent, to the nearest (DESIGN CHOICE, log 36). -/
def percentSteps (n : Rat) (p : Rat) : Nat := (p * n + 1 / 2).floor.toNat

/-- The pin of an output that carries p percent (R311). -/
def outPin (s : State) (o : Fin 24) (p : Rat) : OutPin :=
  let code := percentSteps (4095 / 100) p
  let duty := percentSteps 10 p
  match getN s (Obj.outKind o.val) with
  | 0 => .volts code
  | 1 => .milliamps code
  | 2 => .pwm 25 duty false
  | 3 => .pwm 1 duty false
  | 4 => .pwm 25 duty true
  | _ => .pwm 1 duty true

/-- In SAFE after a Sorghum over-temperature the outputs have no power (01 Table 1.3). -/
def unpowered (s : State) : Bool := s.part.st == .safe && s.part.safeCause == .sorghumOt

def settleOut (o : Fin 24) (s : State) : State :=
  let r := outRule s o
  updOut o (fun x => { x with st := r.1, applied := r.2, pin := if r.1 = .notDriven || unpowered s then .notDriven else outPin s o r.2 }) s

def settleOuts (s : State) : State := forAll 24 settleOut s

def outDeadline (s : State) : Nat := s.clk.cycles + msCycles 5

/-- A set point comes into force, and its deadline starts again. -/
def applyOut (o : Fin 24) (v : Rat) (s : State) : State :=
  settleOut o (updOut o (fun x => { x with setPoint := v, delivered := none, fresh := true, due := outDeadline s }) s)

/-- The percentage a set point names. One that is no number has no stated value: a free value within the limits. -/
def setPointRat (o : Fin 24) (v : Nat) (s : State) : Rat × State :=
  if Fmt.f32.isFinite v then (f32ToRat v, s)
  else
    let (x, s1) := takeFree 32 s
    (max (getF s (Obj.outMin o.val)) (min (getF s (Obj.outMax o.val)) (x : Rat)), s1)

/-- A set point reaches Rye: in RUN it waits for its application (R214), else it applies at once. -/
def receiveOut (o : Fin 24) (s : State) : State :=
  match s.ani.sent.get o with
  | none => s
  | some v =>
    let (p, s0) := setPointRat o v s
    let s1 := setAni (fun a => { a with sent := vupd a.sent o (fun _ => none) }) s0
    if s1.part.st = .run then updOut o (fun x => { x with delivered := some p }) s1 else applyOut o p s1

/-! ## Leak channels that are judged (10 R310, R316) -/

def updLeak (c : Fin 8) (f : LeakCh → LeakCh) (s : State) : State := { s with cool := { s.cool with leaks := vupd s.cool.leaks c f } }

/-- LEAK_ENABLE 0 disables the channel; enabled again it is DRY. -/
def enableLeak (c : Fin 8) (s : State) : State :=
  if getN s (Obj.leakEnable c.val) = 0 then updLeak c (fun x => ⟨x.r, .disabled, 0, 0, 0, 0, 0, x.drySince⟩) s
  else if (s.cool.leaks.get c).st = .disabled then updLeak c (fun x => { x with st := .dry, drySince := s.clk.cycles }) s
  else s

/-! ## Adapted curves -/

/-- A delivered curve is applied; it lapses 2 F later unless a fresh one is applied by then (R538). -/
def applyCurve (b : Fin 12) (s : State) : State :=
  match (s.br.get b).adaptedNext with
  | none => s
  | some cs =>
    updBr b (fun x => { x with adapted := some cs, adaptedNext := none, adaptedDue := s.clk.cycles + 2 * (frameNs s / 40) }) s

def receiveCurve (b : Fin 12) (s : State) : State :=
  match s.ani.curves.get b with
  | none => s
  | some cs => updBr b (fun x => { x with adaptedNext := some cs }) (setAni (fun a => { a with curves := vupd a.curves b (fun _ => none) }) s)

/-! ## ANT slots -/

/-- The frame slots Rye keeps from its own base: frame n and whether the count has come to LAUNCH_AT (R30). -/
def slotsRun (s : State) : Bool := getN s Obj.launchAt != 0 && decide (getN s Obj.launchAt ≤ now s)
def slotNow (s : State) : Nat := (now s - getN s Obj.launchAt) / frameNs s

/-- The frame whose instant `ns` after its start comes next. -/
def slotFor (ns : Nat) (s : State) : Nat := if startOf s (slotNow s) + ns < now s then slotNow s + 1 else slotNow s

/-- ANT_ENABLE as it stands for frame n: a change acts from the first frame that starts after its accepting count (R227). -/
def antEnabled (s : State) (a : Fin 8) (n : Nat) : Bool :=
  match s.ani.antSet.get a with
  | some (c, was) => if startOf s n ≤ c then was == 1 else getN s (Obj.antEnable a.val) == 1
  | none => getN s (Obj.antEnable a.val) == 1

/-- The effect of a write of ANT_ENABLE: what stood at the start of the present frame is kept for that frame. -/
def antEnableEffect (a : Fin 8) (v : Nat) (c : Count) (s : State) : State :=
  let cur := getN s (Obj.antEnable a.val)
  if v = cur then s
  else
    let was := match s.ani.antSet.get a with
      | some (c1, w) => if slotsRun s && decide (startOf s (slotNow s) ≤ c1) then w else cur
      | none => cur
    setAni (fun x => { x with antSet := vupd x.antSet a (fun _ => some (c, was)) }) (storeNum (Obj.antEnable a.val) v s)

/-- A word reaches Sorghum: in the window of its frame it is taken, later it is discarded and counted (R227). -/
def deliverAnt (a : Fin 8) (s : State) : State :=
  match s.ani.formed.get a with
  | none => s
  | some (n, w) =>
    let s1 := setAni (fun x => { x with formed := vupd x.formed a (fun _ => none) }) s
    if now s1 ≤ startOf s1 n + 5960 then setAni (fun x => { x with words := vupd x.words a (fun _ => some (n, w)) }) s1
    else inc32 s1 (Obj.antLate a.val)

/-- ANT_WORD_DELIVERED, `ns` after the start of the frame for which the word was formed. -/
def execAntWordDelivered (a : Fin 8) (ns : Nat) (s : State) : Out :=
  match s.ani.formed.get a with
  | none => .next s
  | some (n, _) => .next (deliverAnt a (reachCount (startOf s n + ns) s))

/-- What a link sends in the slot of frame n: the word delivered for it, or the no-forecast word; nothing with ANT_ENABLE
0. -/
def slotWord (s : State) (n : Nat) (a : Fin 8) : Option Nat :=
  if !(antEnabled s a n) then none
  else
    match s.ani.words.get a with
    | some (m, w) => some (if m = n && accelOn s a && mainUp s then w else noForecastWord n)
    | none => some (noForecastWord n)

/-- A bit in Manchester coding, by half bits: 1 rises and 0 falls at mid-bit (R226). -/
def manchester (b : Bool) : List Bool := [!b, b]

/-- The preamble 0b1010_1011 and the word, most significant bit first. -/
def antBits (w : Nat) : List Bool := (List.range 72).map (fun i => Nat.testBit (0xAB * 2 ^ 64 + w % 2 ^ 64) (71 - i))

/-- The levels of a link's pair through its slot, one per half bit of 5 ns, 720 ns in all; an idle line stays low. -/
def antLevels : Option Nat → List Bool
  | some w => ((antBits w).map manchester).flatten
  | none => List.replicate 144 false

/-- ANT_SLOT: at frame start + 6,080 ns. -/
def execAntSlot (s : State) : Out :=
  if !(slotsRun s) then .next (noteDegraded (setAni (fun x => { x with
      antLine := Vector.replicate 8 none, antPins := Vector.replicate 8 (antLevels none) }) s))
  else
    let n := slotFor 6080 s
    let s1 := reachCount (startOf s n + 6080) s
    let ws := Vector.ofFn (slotWord s1 n)
    let s2 := setAni (fun x => { x with antLine := ws, antPins := ws.map antLevels }) s1
    .next (noteDegraded (forAll 8 (fun a s => match ws.get a with | some w => setN s (Obj.antLastWord a.val) w | none => s) s2))

/-- CURVE_APPLY: at frame start + 8,000 ns. -/
def execCurveApply (s : State) : Out :=
  if !(slotsRun s) then .next s
  else
    let s1 := reachCount (startOf s (slotFor 8000 s) + 8000) s
    .next (forAll 24 (fun o s => match (s.cool.outs.get o).delivered with | some v => applyOut o v s | none => s) (forAll 12 applyCurve s1))

/-- STRAW_VALUE_RECEIVED: a value on its way from Anise reaches Rye. -/
def execStrawValueReceived (k : StrawKey) (s : State) : Out :=
  match k with
  | .ant a => .next (deliverAnt a s)
  | .curve b => .next (receiveCurve b s)
  | .output o => .next (receiveOut o s)

/-- STRAW_DEADLINE_EXPIRED: the fallback of Table 1.2. A curve that is applied in the same Rye cycle stays (R538). -/
def execStrawDeadlineExpired (k : StrawKey) (s : State) : Out :=
  match k with
  | .ant a =>
    if !(slotsRun s) then .next s
    else
      let n := slotFor 5960 s
      let s1 := reachCount (startOf s n + 5960) s
      let had := match s1.ani.words.get a with | some (m, _) => m == n | none => false
      if had then .next s1 else .next (setAni (fun x => { x with words := vupd x.words a (fun _ => none) }) s1)
  | .curve b =>
    if (s.br.get b).adapted.isNone then .next s
    else
      let s1 := tickTo (s.br.get b).adaptedDue s
      if (s1.br.get b).adaptedNext.isSome && slotsRun s1 && decide (startOf s1 (slotNow s1) + 8000 ≤ now s1) then .next (applyCurve b s1)
      else .next (updBr b (fun x => { x with adapted := none }) s1)
  | .output o =>
    if !(s.cool.outs.get o).fresh then .next s
    else
      .next (settleOut o (updOut o (fun x => { x with fresh := false }) (tickTo (s.cool.outs.get o).due s)))

end Sys2Proof.Machine
end

