-- ==== Sys2Proof/Machine/Time.lean ====
section
/-! DEFINITION. Disciplining the count (02 R43 to R57), SYNC wiring, and the launch objects (02 R60, R62). -/
namespace Sys2Proof.Machine

open Sys2Proof

def timeSrc : Nat := 0x1200

def setClk (f : Clock → Clock) (s : State) : State := { s with clk := f s.clk }

/-- No frames run and LAUNCH_AT is not armed (R50). -/
def mayStep (s : State) : Bool := s.part.st != .run && getN s Obj.launchAt == 0

/-- After a step, everything accepted in the epoch before lies before the new count (R50, R52): accepting counts held for
an effective frame, and those of the writes after the newest checkpoint. No sample of that epoch makes one of the new epoch late
(R66). -/
def rebase (s : State) : State :=
  let zero (c : Ckpt) : Ckpt := { c with start := 0 }
  let s1 := mapSess (fun _ x => { x with changes := x.changes.map (fun c => { c with count := 0 }), openReady := x.openReady.map (fun _ => 0)
                                         closeCount := x.closeCount.map (fun _ => 0)
                                         switch := x.switch.map (fun w => { w with count := 0, readyAt := w.readyAt.map (fun _ => 0) }) }) s
  setEng (fun g => { g with
    bufA := g.bufA.map zero, bufB := g.bufB.map zero, writes := (writesSince s).map (fun w => { w with count := 0 })
    samples := [] }) s1

/-- A step discards the power blocks in progress; the rest of their count forms no block (17 R496). -/
def dropBlocks (s : State) : State :=
  { s with rep := s.rep.map (fun c => { c with sec := 0, secN := 0, mnt := 0, mntN := 0, hour := 0, hourN := 0, peakSec := none, whole := [] }) }

/-- After a step of the count the gates stand as they are until the new count's first multiple of CYCLE_NS, and a list that waits
takes effect as much later by the new count as it would have by the old (13 R387; DESIGN CHOICE, log 46). -/
def stepGates (p : Fin 2) (old new : Count) (s : State) : State :=
  updHost p (fun h => { h with
    gatesFrom := if h.gates.cycle = 0 then 0 else ceilDiv new h.gates.cycle * h.gates.cycle
    gatesNext := h.gatesNext.map (fun x =>
      (x.1, if x.1.cycle = 0 then new + (x.2 - old) else ceilDiv (new + (x.2 - old)) x.1.cycle * x.1.cycle)) }) s

/-- The count steps, and the main die's copy with it (R50, R52): TIME_EPOCH increments and TIME_STEPPED is raised. -/
def stepCount (base : Nat) (s : State) : State :=
  let gates (p : Fin 2) (s : State) : State := stepGates p (now s) (base % two96 / two32) s
  let s1 := forAll 2 gates s |> fun s => setClk (fun c => { c with
    base := base % two96, copy := base % two96 / two32, sub := 0, epoch := (c.epoch + 1) % 2 ^ 32, slew := 0, below := 0, above := 0
    lastAccept := 0, syncOut := none }) (dropBlocks (rebase s))
  raiseMain .timeStepped timeSrc s1.clk.epoch s1

/-- The part loses its last correction's slew and keeps the frequency (R56). -/
def stopServo (c : Clock) : Clock := { c with slew := 0, below := 0, above := 0, intervalDue := none }

def clampPpb (f : Int) : Int := max (-200000) (min 200000 f)

/-- A measurement without a step: the series counts of Table 2.2. -/
def judge (off : Int) (s : State) : State :=
  let c := s.clk
  match c.state with
  | .locked =>
    if 40 < off.natAbs then
      (if 4 ≤ c.above + 1 then
        raiseMain .timeUnlocked timeSrc (openDetail .timeUnlocked 0) (setClk (fun c => { c with state := .acquiring, above := 0, below := 0 }) s)
       else setClk (fun c => { c with above := c.above + 1 }) s)
    else setClk (fun c => { c with above := 0 }) s
  | _ =>
    if off.natAbs < 10 then
      (if 16 ≤ c.below + 1 then raiseMain .timeLocked timeSrc (openDetail .timeLocked 0) (setClk (fun c => { c with state := .locked, above := 0, below := 0 }) s)
       else setClk (fun c => { c with below := c.below + 1 }) s)
    else setClk (fun c => { c with below := 0 }) s

/-- A valid phase measurement: the offset of the count from the source, in ns (R48 to R51). `due` is when three intervals
without another have passed. A step that would take the count below 0 leaves it at 0 (DESIGN CHOICE, log 10: R15 and R50
state nothing of it). -/
def measure (off : Int) (due : Nat) (s : State) : State :=
  let fresh := s.clk.state != .acquiring && s.clk.state != .locked
  let s1 := setClk (fun c => { c with
    offset := off, intervalDue := some due, holdoverDue := none
    state := if fresh then .acquiring else c.state, below := if fresh then 0 else c.below, above := if fresh then 0 else c.above }) s
  if decide (getN s Obj.stepThresholdNs < off.natAbs) then
    if mayStep s then
      setClk (fun c => { c with state := .acquiring }) (stepCount ((s1.clk.base : Int) - off * two32).toNat s1)
    else
      raiseMain .timeOffsetLarge timeSrc (openDetail .timeOffsetLarge 0)
        (setClk (fun c => { c with state := .acquiring, below := 0, above := 0, slew := -off * two32 }) s1)
  else judge off (setClk (fun c => { c with slew := -off * two32 }) s1)

/-- The source in force: PTP with no PTP_PROFILE on either port is FREE (20 Table 20.4). -/
def sourceNow (s : State) : Nat :=
  if getN s Obj.timeSource = 1 ∧ getN s (Obj.ptpProfile 0) = 0 ∧ getN s (Obj.ptpProfile 1) = 0 then 0 else getN s Obj.timeSource

/-! ## PTP (R53, 13 R391, R392) -/

/-- PTP_ASYM_NS of a host port. -/
def ptpAsym (s : State) (p : Fin 2) : Int := Ty.i32.toInt (getN s (Obj.ptpAsymNs p.val))

/-- The stamp of a message received: the raw PCS stamp less the delay of the PMA and PMD, the decoder latency and PTP_ASYM_NS
(13 R391; log 78). -/
def rxStamp (s : State) (p : Fin 2) (x : PtpIn) (raw : Int) : Int := raw - x.pma - x.decoder - ptpAsym s p

/-- The stamp of a message sent: the delay of the PMA and PMD lies ahead of it (13 R391; log 78). -/
def txStamp (s : State) (p : Fin 2) (x : PtpIn) (raw : Int) : Int := raw + x.pma - ptpAsym s p

/-- The mean path delay after a message whose Sync has the corrected stamp `t2`: half the round trip of the profile's own
mechanism (13 R392). -/
def meanPath (s : State) (p : Fin 2) (x : PtpIn) (t2 : Int) : Int :=
  match x.path, getN s (Obj.ptpProfile p.val), (s.port.host.get p).reqAt with
  | .request rx, 1, some tx => ((t2 - x.origin) + (rx - txStamp s p x tx)) / 2
  | .peer rx answered back decoder, 2, some tx => ((rxStamp s p { x with decoder := decoder } back - txStamp s p x tx) - (answered - rx)) / 2
  | _, _, _ => (s.port.host.get p).pathNs

/-- After a Sync the part asks for the path delay of its profile: a Delay_Req or a Pdelay_Req in class 6, stamped on the main-die copy
as it leaves (13 R391, R392). That one follows each Sync is a DESIGN CHOICE (log 78). As a slave only, with clockClass 255, the part
sends no Announce and no Sync there. -/
def askDelay (p : Fin 2) (s : State) : State :=
  let prof := getN s (Obj.ptpProfile p.val)
  if prof = 0 then s
  else updHost p (fun h => { h with reqAt := some (mainNow s) }) (sendHost p 6 (.delayReq (prof == 2) (mainNow s)) s)

/-- The comparison of IEEE 1588-2019: the first field that differs decides, and of one grandmaster the fewer steps removed
(R53; PRESUMED, log 78). -/
def Grandmaster.better (a b : Grandmaster) : Bool :=
  let key (g : Grandmaster) : List Nat := [g.priority1, g.clockClass, g.accuracy, g.variance, g.priority2, g.identity, g.steps]
  decide (key a < key b)

/-- A port carries PTP: its link is UP, its profile on, and its last Sync is less than three intervals old, as for the source of Table
2.2 (DESIGN CHOICE, log 78: R53 gives no time after which a port carries PTP no more). -/
def portGm (s : State) (p : Fin 2) : Option Grandmaster :=
  let h := s.port.host.get p
  if hostUp s p && getN s (Obj.ptpProfile p.val) != 0 && decide (s.clk.cycles < h.gmDue) then h.gm else none

/-- The port the servo follows: the better grandmaster's, and P0 between equal ones (R53). -/
def bestPort (s : State) : Option (Fin 2) :=
  match portGm s 0, portGm s 1 with
  | some a, some b => if b.identity ≠ a.identity ∧ b.better a then some 1 else some 0
  | some _, none => some 0
  | none, some _ => some 1
  | none, none => none

/-- The best-master comparison: a change of port begins a new measurement series. TIME_STATE stays as it is until a measurement
moves it (DESIGN CHOICE, log 78: R53 and Table 2.2 name no transition for it). -/
def follow (s : State) : State :=
  let b := (bestPort s).map Fin.val
  if s.port.followed = b then s
  else
    let moved := s.port.followed.isSome
    setClk (fun c => { c with below := if moved then 0 else c.below, above := if moved then 0 else c.above })
      { s with port := { s.port with followed := b } }

/-- The corrected stamp of a Sync, the mean path delay after it, and the offset of the count from its source. -/
def syncStamp (p : Fin 2) (x : PtpIn) (s : State) : Int := rxStamp s p x (mainNow s)
def syncPath (p : Fin 2) (x : PtpIn) (s : State) : Int := meanPath s p x (syncStamp p x s)
def ptpOffset (p : Fin 2) (x : PtpIn) (s : State) : Int := syncStamp p x s - x.origin - syncPath p x s

/-- A Sync is heard: the port keeps its grandmaster, stamp and path, and the best-master comparison follows. -/
def hearSync (p : Fin 2) (x : PtpIn) (s : State) : State :=
  follow <| askDelay p (updHost p (fun h => { h with
    gm := some x.gm, syncStamp := syncStamp p x s, syncNs := x.interval, pathNs := syncPath p x s
    gmDue := s.clk.cycles + 3 * ceilDiv x.interval 40 }) s)

/-- PTP_MEASUREMENT: a Sync on a host port, stamped on the main-die copy of the count. It takes part in the best-master
comparison; on the followed port it gives phase and frequency, or the frequency alone while SYNC supplies the phase (R48,
R53, R55). A message of another domain is ignored. -/
def execPtpMeasurement (p : Fin 2) (x : PtpIn) (freq : Int) (s : State) : Out :=
  if !(mainUp s) || !(hostUp s p) || getN s (Obj.ptpProfile p.val) = 0 || x.domain ≠ getN s Obj.ptpDomain ||
      !(sourceNow s = 1 ∨ sourceNow s = 2) then .next s
  else
    let s1 := hearSync p x s
    if s1.port.followed ≠ some p.val then .next (noteDegraded s1)
    else
      let s2 := setClk (fun c => { c with freqPpb := clampPpb freq }) s1
      if sourceNow s = 2 && !s.clk.syncAlone && (getN s Obj.syncRole == 2 || getN s Obj.syncRole == 3) then .next (noteDegraded s2)
      else .next (noteDegraded (measure (ptpOffset p x s) (s2.clk.cycles + 3 * ceilDiv x.interval 40) s2))

def syncPeriodNs (s : State) : Nat := getN s Obj.syncPeriodUs * 1000

/-- The offset of an edge from its nearest whole multiple of SYNC_PERIOD_US. -/
def edgeOffset (s : State) (count : Nat) : Int :=
  let p := syncPeriodNs s
  let x := count - getN s Obj.syncInDelayNs
  let m := (x + p / 2) / p * p
  (x : Int) - m

/-- SYNC_IN_EDGE: an edge at `count` by the part's own counter, with the frequency correction SYNC gives when it is the
only source (R55). After 3 rejections in a row with TIME_SOURCE 3 SYNC there is no PTP to use alone: the part takes no
measurement until 16 edges in a row are accepted (DESIGN CHOICE, log 79: R55 is silent). -/
def execSyncInEdge (count : Nat) (freq : Int) (s : State) : Out :=
  if !(mainUp s) || !(getN s Obj.syncRole = 2 ∨ getN s Obj.syncRole = 3) || !(sourceNow s = 2 ∨ sourceNow s = 3) then .next s
  else
    let off := edgeOffset s count
    if 100 < off.natAbs then
      let s1 := setClk (fun c => { c with rejected := c.rejected + 1, accepted := 0 }) s
      .next (if s.clk.rejected + 1 = 3 && !s.clk.syncAlone then
        raiseMain .syncRejected timeSrc (openDetail .syncRejected 0) (setClk (fun c => { c with syncAlone := true }) s1) else s1)
    else
      let n := s.clk.accepted + 1
      let alone := s.clk.syncAlone && decide (n < 16)
      let s1 := setClk (fun c => { c with rejected := 0, accepted := min n 16, syncAlone := alone }) s
      if alone then .next s1
      else
        let s2 := if sourceNow s = 3 then setClk (fun c => { c with freqPpb := clampPpb freq }) s1 else s1
        .next (noteDegraded (measure off (s2.clk.cycles + 3 * usCycles (getN s Obj.syncPeriodUs)) s2))

/-- SYNC_OUT_EDGE: at the next whole multiple of SYNC_PERIOD_US as SOURCE or RELAY, at cycle 0 of the frame as FRAME_MARK
(R54). -/
def execSyncOutEdge (s : State) : Out :=
  let role := getN s Obj.syncRole
  if !s.clk.running then .next s
  else if role = 1 ∨ role = 3 then
    let p := syncPeriodNs s
    let last := match s.clk.syncOut with | some c => c + 1 | none => 0
    let m := ceilDiv (max (now s) last) p * p
    .next (setClk (fun c => { c with syncOut := some m }) (reachCount m s))
  else if role = 4 ∧ s.part.st = .run ∧ s.eng.any then
    .next (setClk (fun c => { c with syncOut := some (startOf s s.eng.frame) }) s)
  else .next s

/-- MEASUREMENT_TIMEOUT: no valid measurement for 3 intervals (Table 2.2, R56). -/
def execMeasurementTimeout (s : State) : Out :=
  match s.clk.intervalDue with
  | none => .next s
  | some due =>
    if s.clk.state = .locked ∨ s.clk.state = .acquiring then
      let s1 := tickTo due s
      .next (noteDegraded (setClk (fun c => { stopServo c with state := .holdover, holdoverDue := some (c.cycles + sCycles (getN s Obj.holdoverLimitS)) }) s1))
    else .next s

/-- TIME_HOLDOVER_EXPIRED: HOLDOVER_LIMIT_S elapsed; the correction is kept. -/
def execTimeHoldoverExpired (s : State) : Out :=
  match s.clk.holdoverDue with
  | none => .next s
  | some due =>
    if s.clk.state = .holdover then
      .next (noteDegraded (raiseMain .timeHoldoverExpired timeSrc (openDetail .timeHoldoverExpired 0)
        (setClk (fun c => { c with state := .free, holdoverDue := none }) (tickTo due s))))
    else .next s

/-- Three measurement intervals of a source: the followed port's Sync messages, or SYNC_PERIOD_US for SYNC (Table 2.2). Where no port
carries PTP its interval is not known, and the wait is over at once (DESIGN CHOICE, log 78: the spec gives no interval for it). -/
def threeIntervals (v : Nat) (s : State) : Nat :=
  if v = 3 then 3 * usCycles (getN s Obj.syncPeriodUs)
  else match bestPort s with
    | some p => 3 * ceilDiv (s.port.host.get p).syncNs 40
    | none => 0

/-- A write has changed the source from `old` to the one in force (Table 2.2). The wait for the new source's first measurement
begins with it. -/
def sourceWritten (old : Nat) (s1 : State) : State :=
  let v := sourceNow s1
  let going := s1.clk.state == .acquiring || s1.clk.state == .locked || s1.clk.state == .holdover
  if v = 0 then
    if going then
      raiseMain .timeSourceChanged timeSrc (openDetail .timeSourceChanged v) (setClk (fun c => { stopServo c with state := .free, holdoverDue := none }) s1)
    else if s1.clk.state = .coarse then setClk (fun c => { stopServo c with state := .free }) s1
    else s1
  else if going && old != v then
    raiseMain .timeSourceChanged timeSrc (openDetail .timeSourceChanged v)
      (setClk (fun c => { c with
        state := .acquiring, below := 0, above := 0, rejected := 0, accepted := 0, syncAlone := false, holdoverDue := none
        intervalDue := some (c.cycles + threeIntervals v s1) }) s1)
  else s1

/-- A write of TIME_SOURCE. -/
def timeSourceEffect (v : Nat) (_ : Count) (s : State) : State := sourceWritten (sourceNow s) (storeNum Obj.timeSource v s)

/-- TIME_SOURCE_CHANGED: a write of TIME_SOURCE. -/
def execTimeSourceChanged (au : Auth) (v : Nat) (s : State) : Out :=
  .next (noteDegraded (writeStep au Obj.timeSource.key (.num v) noHome (timeSourceEffect v) s))

/-- TIME_SET needs TIME_SOURCE 0 or 3 and no armed launch; otherwise it aborts as for a state other than READY (R50). -/
def timeSetHome (s : State) : Nat := if (sourceNow s = 0 ∨ sourceNow s = 3) ∧ mayStep s then 0 else 0x00050008

/-- The step is carried out in Rye, and TIME_STATE is FREE (R50, Table 2.2). -/
def timeSetEffect (v : Nat) (_ : Count) (s : State) : State :=
  setClk (fun c => { stopServo c with state := .free, holdoverDue := none, rejected := 0, accepted := 0, syncAlone := false })
    (stepCount (v * two32) s)

/-- TIME_SET. -/
def execTimeSet (au : Auth) (v : Nat) (s : State) : Out :=
  .next (noteDegraded (writeStep au Obj.timeSet.key (.num v) timeSetHome (timeSetEffect v) s))

/-- A non-zero LAUNCH_AT lies at least 5 ms after the accepting count (R60). -/
def launchHome (v : Nat) (s : State) : Nat :=
  if v ≠ 0 ∧ v < acceptCount s + 5000000 then 0x00040202 else 0

/-- The launch is armed and frames are numbered from it (R63), or disarmed. No frame of it has latched a sample yet (R66). -/
def launchEffect (v : Nat) (_ : Count) (s : State) : State :=
  let s1 := setEng (fun g => { g with
    any := false, next := 0, frame := 0, cutoff := none, nextTokens := [], teff := [], nextLedger := FrameLedger.empty
    arriving := [], early := [], samples := [] }) (setN s Obj.launchAt v)
  if v = 0 then raiseMain .launchDisarmed frameSrc (openDetail .launchDisarmed 0) s1 else s1

/-- LAUNCH_AT: a write of the object. -/
def execLaunchAt (au : Auth) (v : Nat) (s : State) : Out :=
  .next (writeStep au Obj.launchAt.key (.num v) (launchHome v) (launchEffect v) s)

/-- FRAME_STOP_AT takes effect at once where the last frame has already ended (R62). -/
def frameStopEffect (v : Nat) (_ : Count) (s : State) : State :=
  let s1 := setN s Obj.frameStopAt v
  if v ≠ 0 ∧ s1.eng.running = true ∧ s1.eng.mainDone = true ∧ s1.eng.next ≠ 0 ∧ v ≤ startOf s1 s1.eng.next then stopLaunch s1 else s1

/-- FRAME_STOP_AT: a write of the object. -/
def execFrameStopAt (au : Auth) (v : Nat) (s : State) : Out :=
  .next (noteDegraded (writeStep au Obj.frameStopAt.key (.num v) noHome (frameStopEffect v) s))

end Sys2Proof.Machine
end

