-- ==== Sys2Proof/Machine/MainDie.lean ====
section
/-! DEFINITION. What stops with the main die, whatever stopped it: a main-die reset, a thermal shutdown, or a fall of the
S_SELF power-good (01 R32, 11 R336, 09 R296, 10 R304). Rye's own state is untouched. -/
namespace Sys2Proof.Machine

open Sys2Proof

/-! ## Transactions under way (12 R377, R378) -/

def dfltOf (s : State) (key : Nat) : Nat := match findEntry s key with | some e => e.dflt | none => 0

/-- A value becomes the object's, and its committed value where it is persistent. -/
def storeValue (key : Nat) (v : Value) (s : State) : State :=
  match v with
  | .num n => storeNum ⟨key, dfltOf s key⟩ n s
  | .bytes bs => storeBlob key bs s

def updPeer (i : Nat) (f : Peer → Peer) (s : State) : State :=
  match look s.oda.peers i with
  | some p => { s with oda := { s.oda with peers := put s.oda.peers i (f p) } }
  | none => s

/-- One more step of a transaction is applied, at count c; COUNT is that of step 0 (R377, Table 12.16). -/
def countStep (place txn : Nat) (c : Count) (s : State) : State :=
  updPeer place (fun p => { p with ledger := p.ledger.map (fun e =>
    if e.txn = txn && e.status == .inProgress then { e with done := e.done + 1, count := if e.done = 0 then c else e.count } else e) }) s

def Ledger.interrupt (e : Ledger) : Ledger :=
  if e.status = .inProgress then
    (if e.done = e.steps then { e with status := .applied }
     else { e with status := if e.done = 0 then .rejected else .partialDone, code := 0x00070032 })
  else e

/-- The entry of a transaction that a main-die reset cut short. -/
def interruptTxn (place txn : Nat) (s : State) : State :=
  updPeer place (fun p => { p with ledger := p.ledger.map (fun e => if e.txn = txn then e.interrupt else e) }) s

/-- A commit under way: Sorghum carries it out whatever becomes of the main die. -/
def Pending.committing (p : Pending) : Bool := p.waiting == .nor

/-- The dictionary engine stops: sessions and caches are gone and every entry IN_PROGRESS is settled, but that of a commit under
way, which completes first (R354, R375, R378, 16 R475). -/
def odaDown (s : State) : State :=
  let mine := s.oda.landing ++ s.oda.waiting.filter Pending.committing
  let settle (k : Nat) (e : Ledger) : Ledger := if mine.any (fun p => p.place == k && p.txn == e.txn) then e else e.interrupt
  { s with oda := { s.oda with
      serving := false, bare := false, sessions := [], waiting := [], answer := none, setups := [], landing := mine
      peers := s.oda.peers.map (fun p => (p.1, { p.2 with ledger := p.2.ledger.map (settle p.1), cache := [] })) } }

/-! ## Time, ports, memory, Barley, Cardamom -/

/-- LOCKED and ACQUIRING become HOLDOVER; the slew stops (02 Table 2.2, R56). -/
def timeDown (s : State) : State :=
  if s.clk.state = .locked ∨ s.clk.state = .acquiring then
    setClk (fun c => { stopServo c with state := .holdover, holdoverDue := some (c.cycles + sCycles (getN s Obj.holdoverLimitS)) }) s
  else setClk (fun c => { stopServo c with intervalDue := none }) s

/-- Ports are down, frames and keys are lost (13 R384, R395). -/
def portsDown (s : State) : State :=
  { s with port := { Ports.init with svcOn := s.port.svcOn } }

/-- Channels, sync cells and wait slots are cleared; LPDDR4X goes to self-refresh, and MEM_RETAINED says whether the
controller confirmed it (14 R405, R423, R427). -/
def memDown (kept : Bool) (s : State) : State :=
  let keep := kept && (s.mem.st == .ready || (s.mem.st == .selfRefresh && s.mem.retained))
  let s1 := { s with mem := { s.mem with
      st := if s.mem.st = .ready then .selfRefresh else if s.mem.st = .selfRefresh then .selfRefresh else .untrained
      retained := keep
      dma := Vector.replicate 32 DmaCh.init, runA := none, runB := none, cells := [], slots := [] } }
  setN (setN (setN s1 Obj.memRetained (if s1.mem.retained then 1 else 0)) Obj.milletBytesMa 0) Obj.milletBytesMb 0

/-! ## The update (15 R447) -/

def setBar (f : Barley → Barley) (s : State) : State := { s with bar := f s.bar }

def UpdState.code : UpdState → Nat
  | .idle => 0 | .writing => 1 | .verifying => 2 | .shadowBoot => 3 | .shadowSync => 4 | .shadowReady => 5 | .takeover => 6
  | .trial => 7 | .committed => 8 | .pendingRestart => 9 | .handedBack => 10 | .failed => 11

def updSrc : Nat := 0x9000

/-- UPDATE_STATE changes: the event and interrupt 293. -/
def setUpd (st : UpdState) (s : State) : State :=
  routeIrq 293 (raiseMain .updateState updSrc (openDetail .updateState st.code) (setBar (fun b => { b with upd := st }) s))

/-- A failure: UPDATE_ERROR and UPDATE_FAILED with the code in DETAIL. -/
def updError (st : UpdState) (code : Nat) (s : State) : State :=
  setUpd st (raiseMain .updateFailed updSrc code (setBar (fun b => { b with updError := code }) s))

/-- The slot that is not k. -/
def otherSlot (k : Nat) : Nat := 1 - k
def slotOf (s : State) (k : Nat) : FwSlot := if k = 0 then s.bar.slotA else s.bar.slotB
def setSlot (k : Nat) (x : FwSlot) (s : State) : State := setBar (fun b => if k = 0 then { b with slotA := x } else { b with slotB := x }) s

/-- A slot that is not yet VALID is INVALID. -/
def spoilSlot (s : State) : State :=
  let k := otherSlot s.bar.bootSlot
  if (slotOf s k).st = .writing then setSlot k ⟨.invalid, none⟩ s else s

/-- A shadow, or a parked cluster, goes to OFF. -/
def otherOff (s : State) : State :=
  setBar (fun b => { b with clusters := b.clusters.map (fun c => if c.role = .shadow ∨ c.role = .parked then Cluster.init else c) }) s

/-- WRITING to TRIAL. -/
def UpdState.running : UpdState → Bool
  | .writing | .verifying | .shadowBoot | .shadowSync | .shadowReady | .takeover | .trial => true
  | _ => false

/-- What an update holds besides its state ends. -/
def dropUpdate (s : State) : State :=
  setBar (fun b => { b with
    updImage := none, updStarted := false, takeT := none, holdOn := false, finalWritten := false, acceptWritten := false
    healthPassed := false, confirmed := false, journal := [] }) s

/-- The trial of a boot selector written in PENDING_RESTART ends without passing: the selector names the previous slot. -/
def restoreSelector (s : State) : State :=
  if s.bar.restartTrial then setBar (fun b => { b with restartTrial := false, bootSlot := otherSlot b.bootSlot }) s else s

/-- A stop ranked above an update: WRITING to TRIAL is abandoned (01 R34). -/
def updateLost (s : State) : State :=
  if s.bar.upd.running then
    let s1 := spoilSlot s
    let s2 := if s1.bar.upd = .trial then restoreSelector s1 else s1
    updError .failed 0x00071507 (dropUpdate (otherOff s2))
  else s

def barleyDown (s : State) : State :=
  let s1 := updateLost s
  { s1 with bar := { s1.bar with
      clusters := Vector.replicate 2 Cluster.init, outstanding := [], reqHead := 0, cmpTail := 0, irqs := [], router := []
      regions := [], lastDenial := none, overrides := [], control := 0, finalWritten := false, acceptWritten := false } }

/-- Cardamom restarts: its keys and the seed are derived again (16 Table 16.8). -/
def cardamomDown (s : State) : State :=
  { s with cardamom := { s.cardamom with identity := false, pufCopy := 0, attempt := 0, seedHeld := false } }

/-! ## The engine -/

/-- The control records that outlast the engine: the image, the binding and the advances that changed in a frame that was cut off or
since, and the end of the selection of LONG_CAPTURE, which is volatile (05 Table 5.1, R169, R171, R173). -/
def keepControls (s : State) : List Ctrl :=
  ((if s.eng.mainDone then [] else s.eng.controls) ++ s.eng.nextControls).filter (fun c => c.kind == 3 || c.kind == 6 || c.kind == 7) ++
    (if selected s = [] then [] else ctrlSelect [] 0)

/-- The engine stops where it is; an activation not in force, a replay and every load end; the tiles, the board and the samples
of Teff are lost, and a frame that was cut off did not run (04 R149, 05 R163, R168, 06 R192, 03 Table 3.3). -/
def engineDown (s : State) : State :=
  let s0 := dropReplay s
  let s1 := setEng (fun g => { g with
    running := false, stopped := false, cutoff := none, p0Done := true, mainDone := true, nextTokens := []
    nextControls := if g.any then [] else keepControls s
    cutControls := if g.any then g.cutControls ++ keepControls s else []
    next := if g.any && !g.mainDone then g.frame else g.next
    nextLedger := FrameLedger.empty, teff := [], samples := [], reuse := [], arriving := [], early := [], writing := none, loads := []
    beats := [], inputs := [], raws := [], records := [], deriving_ := [], rawFrom := [], deriveFrom := [], derived := [], derivedOld := [], derivedBad := []
    tiles := Vector.replicate 68 Tile.init
    ring := { g.ring with st := (match g.ring.st with | .recording => .idle | .replaying => .frozen | x => x) } }) s0
  setImg (fun m => { m with
    armed := none, act := .none, plan := none, repls := [], binds := m.binds.map (fun b => { b with hold := false })
    store := m.store.map (fun e => if e.st = .armed then { e with st := .valid } else e) }) s1

/-- The accelerators keep their last limit; the management bus engine forgets what it was about to write (10 R309). -/
def limitsDown (s : State) : State := forAll 8 (updAcc · (fun x => { x with limitDue := none, limitTries := 0, limitRetryDue := none })) s

/-- The main-die thermal controller and its sensors stop; LT and L stay mirrored in Rye (10 R303). -/
def heatDown (s : State) : State := { s with heat := { s.heat with mainSensors := [], mainWarn := false, crossed := false } }

/-- Main-die reset is asserted. Every main-die function stops; a restore is due when the part is READY again. `kept` says
that the memory controller confirmed self-refresh. -/
def mainDown (kept : Bool) (s : State) : State :=
  if s.part.reset then s
  else
    s |> odaDown |> timeDown |> portsDown |> memDown kept |> barleyDown |> cardamomDown |> engineDown |> limitsDown |> heatDown |> restartAnise
      |> serializerDown
      |> (fun s => { s with part := { s.part with
        reset := true, boot := .held, fwRestarting := false, crashTimes := [], restorePending := true, restored := false } })

/-- Volatile objects held on the main die return to their defaults at reset release; its saturating counters are mirrored in
Rye (12 R346). -/
def volatileHeld (s : State) (key : Nat) : Bool :=
  match findEntry s key with
  | some e => e.persist == .volatile && !e.rye && !e.sat
  | none => false

def volatileReset (s : State) : State :=
  { s with nums := s.nums.filter (fun p => !(volatileHeld s p.1)), blobs := s.blobs.filter (fun p => !(volatileHeld s p.1)) }

end Sys2Proof.Machine
end

