-- ==== Sys2Proof/Machine/Rye.lean ====
section
/-! DEFINITION. What Rye does when a branch or a sequencer changes state, whatever command caused it: the branch table (08
R242, R243), emergency triggers and off orders (09 R286 to R291), the fault history (11 R338), the tray-on event (01 R37) and
the loss of B0 (08 R249). -/
namespace Sys2Proof.Machine

open Sys2Proof

/-! ## Sources and details of Rye's events -/

def brSrc (b : Fin 12) : Nat := 0x2000 + 0x10 * b.val
def seqSrc (q : Fin 9) : Nat := 0x2200 + 0x20 * q.val
def railSrc (q : Fin 9) (r : Fin 16) : Nat := 0x2400 + 0x10 * q.val + r.val

def raiseBr (e : Ev) (b : Fin 12) (s : State) : State := raiseRye e (brSrc b) (openDetail e b.val) s
def raiseSeq (e : Ev) (q : Fin 9) (s : State) : State := raiseRye e (seqSrc q) (openDetail e q.val) s
def raiseRail (e : Ev) (q : Fin 9) (r : Fin 16) (s : State) : State :=
  raiseRye e (railSrc q r) (openDetail e (16 * q.val + r.val)) s

/-! ## Fault history and quarantine (R338) -/

/-- A counted fault: faults of one Rye cycle count once; QUAR_FAULTS of them within QUAR_WINDOW_S quarantine. -/
def countFault (a : Fin 8) (s : State) : State :=
  let x := s.acc.get a
  let cy := s.clk.cycles
  if x.faults.head? = some cy then s
  else
    let n := getN s Obj.quarFaults
    let fs := (cy :: x.faults).take n
    let s1 := updAcc a (fun y => { y with faults := fs }) s
    if fs.length = n && decide (cy - fs.getLastD cy ≤ sCycles (getN s Obj.quarWindowS)) && !x.quarantined then
      raiseRye .accelQuarantined 0x1126 (openDetail .accelQuarantined a.val)
        (storeNum (Obj.quarantine a.val) 1 (updAcc a (fun y => { y with quarantined := true }) s1))
    else s1

/-! ## Sequencer states -/

def accelOfSeq (q : Fin 9) : Option (Fin 8) := if h : q.val < 8 then some ⟨q.val, h⟩ else none

/-- The states in which a trigger runs the emergency list (R290). -/
def SeqState.active : SeqState → Bool
  | .up | .pgWindow | .on | .down => true
  | _ => false

/-- The state is entered; the one at the start of the Rye cycle is kept for R289. The caps follow (R332). -/
def setSeq (q : Fin 9) (st : SeqState) (s : State) : State :=
  let cy := s.clk.cycles
  recomputeCaps (updSeq q (fun x => { x with was := if x.wasAt = cy then x.was else x.st, wasAt := cy, st := st }) s)

/-- SEQ_CAUSE: the lowest code and the lowest rail among one cycle's triggers (R289). -/
def Seq.note (code rail cy : Nat) (x : Seq) : Seq :=
  if x.causeAt = cy ∧ x.cause ≠ 0 then { x with cause := min x.cause code, causeRail := min x.causeRail rail }
  else { x with cause := code, causeRail := rail, causeAt := cy }

def isUv : Level → Bool
  | .uvFault | .uvWarn | .pgLoss => true
  | _ => false

/-- The UV levels and PG loss of a rail are disarmed (R281). -/
def Rail.disarmUv (r : Rail) : Rail := { r with uvArmed := false, uvWarn := false, running := r.running.filter (fun l => !isUv l.1) }
def Rail.disarmOv (r : Rail) : Rail := { r with ovArmed := false, ovWarn := false, running := r.running.filter (fun l => isUv l.1) }

def Seq.endList (x : Seq) : Seq := { x with kind := .none, list := [], step := 0, wait := none }

/-- Every RAIL_EN and SEQ_OUT low. -/
def Seq.low (x : Seq) : Seq :=
  { x with out := Vector.replicate 8 false, rails := x.rails.map (fun r => { r with enabled := false }) }

def Seq.disarm (x : Seq) : Seq := { x with rails := x.rails.map Rail.disarmUv }

/-! ## Lists (R283) -/

/-- The step words of a list: up to its first END, which is the all-zero word. -/
def wordsOf : List Byte → List Nat
  | a :: b :: c :: d :: t => if ofLe [a, b, c, d] = 0 then [] else ofLe [a, b, c, d] :: wordsOf t
  | _ => []

def listBytes (s : State) (q : Fin 9) : SeqList → List Byte
  | .up => getBlob s (Blob.seqUpList q.val)
  | .down => getBlob s (Blob.seqDownList q.val)
  | .emergency => if q.val < 8 then getBlob s (Blob.seqEmergList q.val) else []
  | .none => []

/-- A list is copied when it starts; its first step takes the cycle `at_`. -/
def startList (q : Fin 9) (k : SeqList) (at_ : Nat) (s : State) : State :=
  let ws := wordsOf (listBytes s q k)
  updSeq q (fun x => { x with kind := k, list := ws, step := 0, stepAt := at_, wait := none }) s

/-- The first step of a down list: at once, or on the next cycle where a wait or a step of this cycle ends (R284, R286). -/
def downAt (x : Seq) (cy : Nat) : Nat := if x.wait.isSome || decide (cy < x.stepAt) then cy + 1 else cy

/-! ## Branch states -/

/-- The order of R243. -/
def BrState.rank : BrState → Nat
  | .faultFet => 0 | .latched => 1 | .held => 2 | .off => 3 | .on => 4 | .inrush => 5

def BrState.live : BrState → Bool
  | .inrush | .on => true
  | _ => false

def BrCause.code : BrCause → Nat
  | .none => 0 | .fast => 1 | .hardLimit => 2 | .curve => 3 | .tfet => 4 | .tfetSensor => 5 | .inrushTimer => 6
  | .escalation => 7 | .upstreamFet => 8 | .sorghumOt => 9

/-- Whether an event acts on a branch: from the state it is in, or, in the cycle in which that state was entered, from the
state before, where the event leads to a state that comes first in R243. -/
def brTakes (s : State) (b : Fin 12) (at_ : BrState → Bool) (dst : BrState) : Bool :=
  let x := s.br.get b
  at_ x.st || (x.wasAt == s.clk.cycles && at_ x.was && decide (dst.rank < x.st.rank))

/-- Whether an event finds the branch in a state it acts on, now or at the start of the Rye cycle. -/
def brHit (s : State) (b : Fin 12) (at_ : BrState → Bool) : Bool :=
  let x := s.br.get b
  at_ x.st || (x.wasAt == s.clk.cycles && at_ x.was)

/-- The OV levels of a rail in use are armed as its supply is on or not. -/
def armRail (q : Fin 9) (on : Bool) (r : Fin 16) (s : State) : State :=
  updRail q r (fun y =>
    if on && decide (getN s (Obj.railNominalV (16 * q.val + r.val)) ≠ 0) then { y with ovArmed := true } else y.disarmOv) s

/-- The OV levels of a rail are armed while its branch is INRUSH or ON, those of a self rail while B0 is ON (R281). -/
def armOv (b : Fin 12) (st : BrState) (s : State) : State :=
  match accelOfBranch b with
  | some a => forAll 16 (armRail (seqOf a) st.live) s
  | none => if b = 0 then forAll 16 (armRail sSelf (st == .on)) s else s

/-- The supply of a sequencer's rails is on: its branch INRUSH or ON, or B0 ON for the self rails. -/
def supplied (s : State) (q : Fin 9) : Bool :=
  match accelOfSeq q with
  | some a => (s.br.get (branchOf a)).st.live
  | none => (s.br.get 0).st == .on

def maxF32 (o : Obj) (v : Rat) (s : State) : State :=
  let w := f32OfRat v
  if Fmt.f32.lt (getN s o) w then setN s o w else s

/-- What the timer adds on one Rye cycle, in µs, at the VDS in force. -/
def inrushRate (x : Branch) : Rat := if x.inMode = 2 then 1 / 25 else max (x.vin - x.vout) 7 / 56 / 25

/-- The timer's value now, in µs. -/
def inrushNow (s : State) (b : Fin 12) : Rat :=
  let x := s.br.get b
  if x.st = .inrush && !x.inrushDone then x.inrushUs + inrushRate x * (s.clk.cycles - x.inrushLast : Nat) else x.inrushUs

/-- The timer advances to the present cycle. -/
def advInrush (b : Fin 12) (s : State) : State :=
  let v := inrushNow s b
  updBr b (fun x => { x with inrushUs := v, inrushLast := s.clk.cycles }) s

/-- The energy of an inrush is complete (17 R494). -/
def endInrush (b : Fin 12) (old new : BrState) (s : State) : State :=
  if old = .inrush ∧ new ≠ .inrush then maxF32 (Obj.peInrushJ b.val) (s.br.get b).inrushJ s else s

/-- What a branch's record counts on an entry (17 R494), with the ring trigger of a breaker trip (05 R172). -/
def noteBrEntry (b : Fin 12) (st : BrState) (s : State) : State :=
  match st with
  | .inrush => inc32 s (Obj.peInrushes b.val)
  | .latched | .faultFet => ringTrigger 0 (inc32 s (Obj.peTrips b.val))
  | _ => s

/-- The branch changes state and its driver does what the row of Table 8.3 names. A branch that leaves INRUSH or ON has
lost its demand with it, and one that leaves INRUSH has its timer brought up to the present cycle (R252). -/
def moveBr (b : Fin 12) (st : BrState) (gate : Gate) (s : State) : State :=
  let old := (s.br.get b).st
  let cy := s.clk.cycles
  let pulls := gate == .pd4A || gate == .pd100mA
  s |> advInrush b |> updBr b (fun x => { x with
        was := if x.wasAt = cy then x.was else x.st
        wasAt := cy
        st := st
        gate := gate
        pulledAt := if pulls then cy else x.pulledAt
        demand := x.demand && st.live
        onAt := if st = .on then cy else x.onAt })
    |> armOv b st |> endInrush b old st |> noteBrEntry b st

/-- The sequencer removes its branch's demand: an open branch stays open, one in INRUSH or ON goes OFF at 100 mA. -/
def dropDemand (a : Fin 8) (s : State) : State :=
  let b := branchOf a
  if (s.br.get b).st.live then moveBr b .off .pd100mA s else updBr b (fun x => { x with demand := false }) s

/-! ## Sequencer transitions (Table 9.4) -/

/-- OFF_WAIT is entered: the off count and the row of Table 9.6. -/
def enterOffWait (q : Fin 9) (s : State) : State :=
  let cy := s.clk.cycles
  let c := ryeStamp s
  setSeq q .offWait (updSeq q (fun x =>
    { x.endList with pgood := false, offCount := c, offCycle := cy, lastOff := if x.cause = 8 ∨ x.cause = 9 then .trayWide else .other }) s)

/-- Codes 1 to 7 that act count as faults (R290). -/
def countCode (q : Fin 9) (code : Nat) (s : State) : State :=
  match accelOfSeq q with
  | some a => if 1 ≤ code ∧ code ≤ 7 then countFault a s else s
  | none => s

def noteSeq (q : Fin 9) (code rail : Nat) (s : State) : State := updSeq q (Seq.note code rail s.clk.cycles) s

/-- The emergency list starts on the trigger's cycle, and PGOOD falls (R291). -/
def startEmergency (q : Fin 9) (code rail : Nat) (s : State) : State :=
  s |> setSeq q .emergency |> noteSeq q code rail |> updSeq q (fun x => { x with pgood := false })
    |> startList q .emergency s.clk.cycles |> (inc32 · (Obj.seqEmergencies q.val)) |> raiseSeq .emergencyStarted q
    |> ringTrigger 3 |> countCode q code

/-- The END of a down list in this very cycle gives way to an emergency trigger (R289): what it did is undone. -/
def undoEnd (a : Fin 8) (s : State) : State :=
  match (s.sq.get (seqOf a)).endSnap with
  | some e => updBr (branchOf a) (fun _ => e.br) (updSeq (seqOf a) (fun x => { x with rails := e.rails, out := e.out, endSnap := none }) s)
  | none => s

/-- A trigger of Table 9.5 on an accelerator's sequencer. -/
def trigger (a : Fin 8) (code rail : Nat) (s : State) : State :=
  let q := seqOf a
  let x := s.sq.get q
  if x.st.active then startEmergency q code rail s
  else if x.st = .offWait && x.wasAt = s.clk.cycles && x.was == .down && x.endSnap.isSome then
    startEmergency q code rail (undoEnd a s)
  else if x.st = .admission then
    s |> dropDemand a |> noteSeq q code rail |> enterOffWait q |> countCode q code
  else if x.wasAt = s.clk.cycles && (x.was.active || x.was == .admission) then
    let s1 := raiseSeq .triggerRecorded q (noteSeq q code rail s)
    if x.st = .held then s1 else countCode q code s1
  else raiseSeq .triggerRecorded q s

/-- An off order (R286). In ADMIT demand is removed; in EMERGENCY it is recorded. -/
def offOrder (a : Fin 8) (code : Nat) (s : State) : State :=
  let q := seqOf a
  let x := s.sq.get q
  match x.st with
  | .up | .pgWindow | .on =>
    s |> setSeq q .down |> noteSeq q code 0xFF |> updSeq q (fun y => { y with pgood := false })
      |> startList q .down (downAt x s.clk.cycles)
  | .admission => s |> dropDemand a |> noteSeq q code 0xFF |> enterOffWait q
  | .emergency => raiseSeq .offOrder q s
  | _ => s

/-- The branch enters HELD: every output low at once, the list abandoned (R273). -/
def seqHeld (a : Fin 8) (s : State) : State :=
  let q := seqOf a
  let cy := s.clk.cycles
  let c := ryeStamp s
  s |> setSeq q .held |> noteSeq q 34 0xFF
    |> updSeq q (fun x => { x.endList.low.disarm with pgood := false, offCount := c, offCycle := cy, lastOff := .held })

/-- HELD ends: IDLE. -/
def seqUnheld (a : Fin 8) (s : State) : State :=
  let q := seqOf a
  let cy := s.clk.cycles
  setSeq q .idle (updSeq q (fun x => { x.disarm with heldEnd := cy }) s)

/-- The branch latched during ADMIT: cause 33, which counts (R290). -/
def admitFailed (a : Fin 8) (s : State) : State :=
  let q := seqOf a
  s |> dropDemand a |> noteSeq q 33 0xFF |> enterOffWait q |> raiseSeq .admitFailed q |> countFault a

/-- The up list starts at step 0. -/
def startUp (q : Fin 9) (s : State) : State :=
  s |> setSeq q .up
    |> updSeq q (fun x => { x.disarm with rails := x.disarm.rails.map (fun r => { r with collapsed := false }) })
    |> startList q .up s.clk.cycles |> (inc32 · (Obj.seqUpRuns q.val))

/-- What an accelerator's sequencer does when its branch has changed state other than by its own removal of demand. -/
def seqAfterBr (b : Fin 12) (old new : BrState) (s : State) : State :=
  match accelOfBranch b with
  | none => s
  | some a =>
    let x := s.sq.get (seqOf a)
    match new with
    | .held => seqHeld a s
    | .latched | .faultFet =>
      if x.st = .admission then admitFailed a s
      else if old = .held then
        (if x.wasAt = s.clk.cycles && x.was.active then startEmergency (seqOf a) 7 0xFF s
         else if x.wasAt = s.clk.cycles && x.was == .admission then admitFailed a s
         else if x.st = .held then seqUnheld a s else s)
      else if old.live then trigger a 7 0xFF s
      else s
    | .off => if old = .held then seqUnheld a s else if old.live then trigger a 7 0xFF s else s
    | .on => if x.st = .admission then startUp (seqOf a) s else s
    | .inrush => s

/-! ## S_SELF (R296, R297) -/

/-- The up list of S_SELF, where it is idle and may run. -/
def selfUp (s : State) : State :=
  let x := s.sq.get sSelf
  if x.st = .idle && !x.exhausted && (s.br.get 0).st == .on then
    startUp sSelf (updSeq sSelf (fun y => { y with
      retryDue := none
      rails := y.rails.map (fun r => { r with uvFault := false, ovFault := false, earlyCollapse := false, noDischarge := false }) }) s)
  else s

/-- The down list of S_SELF. Every fall of its PGOOD asserts main-die reset on the same cycle. `why`: 0 a rail fault, 1 the
loss of the input, 2 a thermal shutdown, 3 the loss of B0; 1 and 3 take a running list over (R34). -/
def selfDown (why : Nat) (kept : Bool) (s : State) : State :=
  let x := s.sq.get sSelf
  match x.st with
  | .up | .pgWindow | .on =>
    let s1 := if x.pgood then mainDown kept s else s
    s1 |> setSeq sSelf .down
      |> updSeq sSelf (fun y => { y with pgood := false, afterDown := why, retainDown := why == 2 })
      |> startList sSelf .down (downAt x s.clk.cycles)
  | .down =>
    if why = 1 ∨ why = 3 then updSeq sSelf (fun y => { y with afterDown := why, retainDown := false }) s
    else if why = 2 ∧ x.afterDown = 0 then updSeq sSelf (fun y => { y with afterDown := 2 }) s
    else s
  | _ => s

def tenMin : Nat := sCycles 600

/-- SEQ_RETRIES: faults of the last 10 min. -/
def selfFaultsNow (s : State) : List Nat := (s.sq.get sSelf).faults.filter (fun t => decide (s.clk.cycles - t ≤ tenMin))

/-- The fault history of S_SELF takes a fault; faults of one cycle count once. -/
def countSelf (code rail : Nat) (s : State) : State :=
  let cy := s.clk.cycles
  let fs := if (s.sq.get sSelf).faults.getLast? = some cy then selfFaultsNow s else selfFaultsNow s ++ [cy]
  s |> noteSeq sSelf code rail |> updSeq sSelf (fun y => { y with faults := fs, exhausted := decide (4 ≤ fs.length) })

/-- A fault of causes 1 to 5 on a self rail while B0 is ON runs the down list; with VIN56 low it is the list of R33, which nothing
retries. With B0 not ON a UV_FAULT runs that list and is no counted fault (R249). -/
def selfFault (code rail : Nat) (s : State) : State :=
  let x := s.sq.get sSelf
  if (s.br.get 0).st = .on then
    (match x.st with
     | .up | .pgWindow | .on => s |> countSelf code rail |> raiseSeq .selfRailFault sSelf |> selfDown (if s.pow.vinLow && code = 1 then 1 else 0) true
     | .down => raiseSeq .selfRailFault sSelf (if x.wasAt = s.clk.cycles && x.was.active && x.was != .down then countSelf code rail s else s)
     | _ => raiseSeq .selfRailFault sSelf s)
  else if code = 1 then selfDown 3 true s
  else s

/-! ## B0 (R37, R249) -/

/-- The tray-on event: its count is stored, the START_OFFSETs count from it, and S_SELF starts with its fault history
cleared. -/
def trayOn (s : State) : State :=
  let c := ryeStamp s
  let s1 := { s with pow := { s.pow with trayOnCount := c, trayOnCycle := some s.clk.cycles } }
  let s2 := forEach [9, 10, 11] (fun (b : Fin 12) => updBr b (fun x => { x with offsetDone := false })) s1
  let s3 := updSeq sSelf (fun x => { x with exhausted := false, faults := [], retryDue := none, upAfter := x.st == .down }) s2
  selfUp s3

/-- B0 has left ON: every accelerator's trigger is 9 B0_OFF, and B1 to B11 lose their demand. -/
def b0Lost (s : State) : State :=
  let s1 := forAll 8 (fun a => trigger a 9 0xFF) s
  let open1 (b : Fin 12) (s : State) : State :=
    if b = 0 then s
    else if (s.br.get b).st.live then moveBr b .off .pd100mA s
    else updBr b (fun x => { x with demand := false }) s
  let s2 := forAll 12 open1 s1
  forEach [9, 10, 11] (fun (b : Fin 12) => updBr b (fun x => { x with offsetDone := false })) (raiseBr .b0Off 0 s2)

def afterB0 (old new : BrState) (s : State) : State :=
  if new = .on then trayOn s else if old = .on then b0Lost s else s

/-- A branch changes state, with everything that follows from it. -/
def enterBr (b : Fin 12) (st : BrState) (gate : Gate) (s : State) : State :=
  let old := (s.br.get b).st
  let s1 := seqAfterBr b old st (moveBr b st gate s)
  if b = 0 then afterB0 old st s1 else s1

/-! ## Latches, flags and escalation (R242, R268 to R270) -/

/-- BRANCH_CAUSE: the lowest code among the latching events of one cycle (R243). -/
def noteLatch (b : Fin 12) (c : BrCause) (s : State) : State :=
  let cy := s.clk.cycles
  updBr b (fun x => if x.causeAt = cy && decide (x.cause ≠ .none) && decide (x.cause.code ≤ c.code) then x else { x with cause := c, causeAt := cy }) s

/-- A latching event. Causes 1 to 6 start the trip-not-cleared watch. -/
def latchBr (b : Fin 12) (c : BrCause) (at_ : BrState → Bool) (s : State) : State :=
  if brHit s b at_ then
    let cy := s.clk.cycles
    let s1 := noteLatch b c s
    let s2 := if c.code ≤ 6 then updBr b (fun x => { x with watchDue := some (cy + usCycles 5) }) s1 else s1
    if BrState.rank .latched < (s2.br.get b).st.rank then enterBr b .latched .pd4A s2 else s2
  else s

def notLatched : BrState → Bool
  | .off | .inrush | .on | .held => true
  | _ => false

/-- BRANCH_HEALTH. -/
def Branch.health (x : Branch) : Nat :=
  flagBit x.fGateNoRise 0 + flagBit x.fOutputWhileOff 1 + flagBit x.fNotCleared 2 + flagBit x.fVdsHigh 3 + flagBit x.fCleared 4

/-- The flags are held in NOR (R269). -/
def saveHealth (b : Fin 12) (s : State) : State :=
  storeNum (Obj.branchHealth b.val) (s.br.get b).health s

/-- Escalation, in the cycle in which OUTPUT_WHILE_OFF or NOT_CLEARED is newly set (R270). -/
def escalate (b : Fin 12) (s : State) : State :=
  let s1 := raiseBr .escalation b s
  if b = 0 then forAll 12 (fun m s => if m = 0 then s else latchBr m .upstreamFet notLatched s) s1
  else latchBr 0 .escalation notLatched s1

/-- B0 is held while a branch of B1 to B11 shows its output while off or did not clear (R271). -/
def anyFlag (s : State) : Bool :=
  (List.finRange 12).any (fun b => decide (b.val ≠ 0) && ((s.br.get b).fOutputWhileOff || (s.br.get b).fNotCleared))
def b0Blocked (s : State) : Bool := anyFlag s && !s.part.strap

/-- FAULT_N is driven low by Rye (01 R42), and by Sorghum before Rye release (18 Table 18.6). -/
def faultLow (s : State) : Bool :=
  if s.clk.running then
    s.pow.rcbInvalid || brLatched (s.br.get 0) ||
      (List.finRange 12).any (fun b => (s.br.get b).fOutputWhileOff || (s.br.get b).fNotCleared) ||
      ((s.sq.get sSelf).exhausted && (s.sq.get sSelf).st == .idle)
  else s.pow.holdup != .off

/-! ## Effective requests (11 R329, R331) -/

/-- The effective request is formed again: a change is an off order, or makes admission possible. -/
def settleReq (a : Fin 8) (s : State) : State :=
  let x := s.acc.get a
  if x.wantsOn = x.effective then s
  else
    let s1 := updAcc a (fun y => { y with effective := y.wantsOn }) s
    let s2 := raiseRye .accelRequestChanged 0x1124 (a.val * 2 ^ 24 + (s1.acc.get a).reqStatus) s1
    if x.wantsOn then s2 else offOrder a 16 s2

/-! ## SAFE (R321, R324, R325) -/

/-- A sequencer in ADMIT whose branch has not yet entered INRUSH removes its demand and returns to IDLE, with no cause and no
fault (08 R246): a trigger of the same cycle finds it in IDLE. -/
def withdrawAdmit (a : Fin 8) (s : State) : State :=
  if (s.sq.get (seqOf a)).st = .admission && !(s.br.get (branchOf a)).st.live then
    updSeq (seqOf a) (fun x => { x with was := .idle }) (setSeq (seqOf a) .idle (dropDemand a s))
  else s

/-- SAFE is entered, and ends an update and every admission not under way; what comes back after it depends on whether it was
entered from RUN. Within SAFE after a Sorghum over-temperature a lower stop is recorded and changes nothing (01 R34). -/
def enterSafe (c : SafeCause) (s : State) : State :=
  let s0 := raiseRye .safe 0x1100 (openDetail .safe 0) s
  if s.part.st = .safe ∧ s.part.safeCause = .sorghumOt then s0
  else
    let s1 := { s0 with part := { s0.part with safeCause := c, safeFromRun := s.part.st == .run || (s.part.st == .safe && s.part.safeFromRun) } }
    let s2 := forAll 8 withdrawAdmit (enterPart .safe (updateLost s1))
    if s.part.st = .safe then s2 else abandonTick s2

/-! ## Rye start of the main die: reset release (01 R39) -/

/-- The main die's copy of the count starts within 101 ns of the base, a free value, so that corrections of 1 ns a cycle bring
it within 2 ns in 100 Rye cycles (02 R44; log 76). -/
def startCopy (s : State) : State :=
  let (v, s1) := takeFree 8 s
  setClk (fun c => { c with copy := (now s + two64 + v % 203 - 101) % two64 }) s1

/-- Main-die reset is released: BOOT, with Cardamom at its PUF. Volatile objects and the measurement log start anew, and a retired
domain is LOST (06 R209). SAFE, which outranks a reset and a thermal shutdown, stays through it (01 R34). -/
def releaseMain (s : State) : State :=
  let s0 := startCopy (clearMeas (volatileReset s))
  let s1 := { s0 with
    img := { s0.img with lostDom := Vector.ofFn (fun d => decide (getN s (Obj.domainRetired d.val) = 1)) }
    heat := { s0.heat with gridFrom := s0.clk.cycles } }
  let s2 := { s1 with part := { s1.part with reset := false, resetDue := 0, boot := .puf, slotTried := 0 } }
  if s1.part.st = .safe then s2 else enterPart .boot { s2 with part := { s2.part with safeCause := .none, safeFromRun := false } }

end Sys2Proof.Machine
end

