-- ==== Sys2Proof/Machine/Branch.lean ====
section
/-! DEFINITION. Branches: demand, inrush, breaking, transistor temperature, health and presence (08 R239 to R276). -/
namespace Sys2Proof.Machine

open Sys2Proof

/-! ## Ratings and settings (Table 8.1) -/

def limitA (b : Fin 12) : Nat := if b = 0 then 600 else if b.val ≤ 8 then 160 else 40

/-- min(255, floor(L × shunt / 400)) (R257). -/
def hardCode (b : Fin 12) (shunt : Nat) : Nat := min 255 (limitA b * shunt / 400)

/-- The comparator threshold in µV of shunt voltage. -/
def thresholdUv (s : State) (b : Fin 12) : Nat :=
  400 * (if getN s (Obj.branchTripMode b.val) = 2 then hardCode b (getN s (Obj.branchShuntUohm b.val)) else getN s (Obj.branchFastCode b.val))

/-- The fast-trip current in force, in amperes. -/
def fastAmps (s : State) (b : Fin 12) : Rat := (thresholdUv s b : Rat) / getN s (Obj.branchShuntUohm b.val)

/-- BRANCH_T_FET (R263). -/
def tFet (s : State) (b : Fin 12) : Rat :=
  let x := s.br.get b
  match getN s (Obj.tfetMode b.val) with
  | 1 => x.tDirect
  | 2 => x.tModel
  | _ => if x.sensorFault then x.tModel else max x.tDirect x.tModel

/-- The effective request of a branch (R241). -/
def brRequest (s : State) (b : Fin 12) : Bool :=
  match accelOfBranch b with
  | some a => (s.acc.get a).effective
  | none => true

/-- The further conditions of Table 8.2. -/
def brConditions (s : State) (b : Fin 12) : Bool :=
  if b = 0 then s.pow.rcbLoaded && s.pow.vinStable && !b0Blocked s
  else (s.br.get 0).st == .on && (if b.val ≤ 8 then (s.br.get b).demand else (s.br.get b).offsetDone)

/-- R241: demanded on. -/
def demanded (s : State) (b : Fin 12) : Bool :=
  getN s (Obj.branchEnable b.val) == 1 && (s.br.get b).en && brConditions s b

/-- Presence seated with T_REINS not running (B1 to B8). -/
def brPresent (s : State) (b : Fin 12) : Bool :=
  !(decide (1 ≤ b.val) && decide (b.val ≤ 8)) || ((s.br.get b).seated && (s.br.get b).treins.isNone)

/-- Whether an OFF branch may enter INRUSH now (R242, R246). -/
def mayInrush (s : State) (b : Fin 12) : Bool :=
  (s.br.get b).st == .off && s.part.st != .safe && demanded s b && brPresent s b && decide (tFet s b ≤ getF s (Obj.tFetMax b.val) - 20)

/-- After Rye start the charge pumps take 300 µs from the cycle in which the last condition of B0's demand is met; a condition
lost before B0 has entered INRUSH ends the wait (R247). -/
def notePump (s : State) : State :=
  if s.pow.pumped then s
  else if !demanded s 0 then { s with pow := { s.pow with pumpDue := none } }
  else if s.pow.pumpDue.isSome then s
  else { s with pow := { s.pow with pumpDue := some (s.clk.cycles + usCycles 300) } }

/-- A condition that began in the cycle `at_` stands for its deglitch or dwell: the clock moves to its end (R275; log 11). -/
def stands (at_ n : Nat) (s : State) : State := tickTo (at_ + n) s

/-- The same for a condition whose first cycle the state may hold; otherwise it begins now. -/
def standsFrom (at_ : Option Nat) (n : Nat) (s : State) : State := stands (at_.getD s.clk.cycles) n s

/-- The gate groups that are driven: on B0 as many as BRANCH_N_FET, from GATE_B0A up; the one group of the others (R240). -/
def drivenGroups (s : State) (b : Fin 12) : Nat := if b = 0 then getN s (Obj.branchNFet 0) else 1

/-- What a gate group's driver does: groups beyond the driven ones are off (R240). -/
def gateOf (s : State) (b : Fin 12) (group : Nat) : Gate := if group < drivenGroups s b then (s.br.get b).gate else .off

/-- The default of LIN_SHARE (Table 8.13). -/
def shareDefault (s : State) (b : Fin 12) : Nat := f32OfRat (min 2 (getN s (Obj.branchNFet b.val)))

/-- LIN_SHARE: its default until it is written. The number 0, outside its range, says that it was not. -/
def linShareOf (s : State) (b : Fin 12) : Nat :=
  let v := getN s (Obj.linShare b.val)
  if v = 0 then shareDefault s b else v

/-- The branch current of a microsecond's ten conversions: the mean code, 16 µV each, over the shunt (R240). Without conversions
it stays as it was. -/
def meanAmps (s : State) (b : Fin 12) (codes : List Int) : Rat :=
  if codes = [] then (s.br.get b).cur
  else ((codes.foldl (· + ·) 0 : Int) : Rat) * 16 / codes.length / getN s (Obj.branchShuntUohm b.val)

/-! ## The inrush timer (R252) -/

/-- The clock moves to the cycle in which the timer reaches T_ILIM_MS, at the VDS in force. -/
def tickInrush (b : Fin 12) (s : State) : State :=
  let x := s.br.get b
  let left : Rat := (x.inTilim : Rat) * 1000 - inrushNow s b
  if x.st = .inrush && !x.inrushDone then tickTo (s.clk.cycles + (left / inrushRate x).ceil.toNat) s else s

/-! ## Inrush (R251 to R254) -/

/-- BRANCH_INRUSH_START. -/
def execBranchInrushStart (b : Fin 12) (s : State) : Out :=
  if mayInrush s b then
    let s0 := if b = 0 && !s.pow.pumped then tickTo (s.pow.pumpDue.getD s.clk.cycles) { s with pow := { s.pow with pumped := true } } else s
    let mode := getN s0 (Obj.inrushMode b.val)
    let ilim := getN s0 (Obj.iLim b.val)
    let ua := getN s0 (Obj.rampUa b.val)
    .next (updBr b (fun x => { x with
      inrushAt := s0.clk.cycles
      inrushUs := 0
      inrushDone := false
      inMode := mode
      inIlim := ilim
      inRampUa := ua
      inrushLast := s0.clk.cycles
      lowAt := none
      inTilim := getN s0 (Obj.tIlimMs b.val)
      inTgate := getN s0 (Obj.tGateUs b.val)
      noRise := true
      gateDue := none
      watchDue := none
      inrushJ := 0 }) (enterBr b .inrush (if mode = 2 then .ramp ua else .ilim ilim) s0))
  else .next s

/-- INRUSH_COMPLETE: VDS has stayed below 1.0 V for 100 µs; full enhancement, and t_GATE starts. -/
def execInrushComplete (b : Fin 12) (s : State) : Out :=
  let x := s.br.get b
  if x.st = .inrush ∧ x.inrushDone = false then
    let s1 := advInrush b (standsFrom x.lowAt (usCycles 100) s)
    .next (updBr b (fun x => { x with inrushDone := true, gate := .enhance, gateDue := some (s1.clk.cycles + usCycles x.inTgate) }) s1)
  else .next s

/-- BRANCH_ON: every driven group at VGS ≥ 8 V before t_GATE expires; `vgs` are the groups' voltages. -/
def execBranchOn (b : Fin 12) (vgs : List Rat) (s : State) : Out :=
  let x := s.br.get b
  match x.gateDue with
  | some d =>
    if x.st = .inrush ∧ x.inrushDone ∧ s.clk.cycles ≤ d ∧ (List.range (drivenGroups s b)).all (fun g => decide (8 ≤ vgs.getD g 0)) then
      .next (enterBr b .on .enhance s)
    else .next s
  | none => .next s

/-- GATE_NO_RISE is set and the branch enters FAULT_FET (R266). -/
def gateFailed (b : Fin 12) (s : State) : State :=
  s |> updBr b (fun x => { x with fGateNoRise := true }) |> saveHealth b |> raiseBr .gateNoRise b
    |> (inc32 · (Obj.inrushAborts b.val)) |> enterBr b .faultFet .pd4A

/-- T_GATE_EXPIRY. -/
def execTGateExpiry (b : Fin 12) (s : State) : Out :=
  match (s.br.get b).gateDue with
  | none => .next s
  | some d =>
    let s0 := if (s.br.get b).st = .inrush then tickTo d s else s
    if d ≤ s0.clk.cycles && (s0.br.get b).inrushDone && brTakes s0 b (· == .inrush) .faultFet then .next (gateFailed b s0) else .next s

/-- Whether the inrush still runs its timer, or completed in this very cycle (R243). -/
def timerRuns (s : State) (b : Fin 12) : Bool :=
  let x := s.br.get b
  !x.inrushDone || x.gateDue == some (s.clk.cycles + usCycles x.inTgate)

/-- INRUSH_TIMER_EXPIRY: the timer has reached T_ILIM_MS; LATCHED, or FAULT_FET where the inrush never moved (R242, R252,
R266). -/
def execInrushTimerExpiry (b : Fin 12) (s : State) : Out :=
  let s0 := tickInrush b s
  if brHit s0 b (· == .inrush) && timerRuns s0 b then
    let s1 := updBr b (fun x => { x with inrushUs := x.inTilim * 1000, inrushLast := s0.clk.cycles }) s0
    if (s1.br.get b).noRise then .next (gateFailed b s1)
    else .next (latchBr b .inrushTimer (· == .inrush) (inc32 (raiseBr .branchInrushTimer b s1) (Obj.inrushAborts b.val)))
  else .next s

/-! ## Breaking (R257 to R261) -/

/-- FAST_TRIP: the shunt voltage, in µV, crosses the threshold. -/
def execFastTrip (b : Fin 12) (uv : Rat) (s : State) : Out :=
  let x := s.br.get b
  if uv < thresholdUv s b || !(brHit s b BrState.live || x.st == .latched) then .next s
  else
    let amps4 := (4 * uv / getN s (Obj.branchShuntUohm b.val)).floor.toNat
    let s1 := raiseRye .branchFastTrip (brSrc b) (b.val * 2 ^ 28 + min amps4 0xFFFF) s
    if brHit s b BrState.live then
      .next (latchBr b (if getN s (Obj.branchTripMode b.val) = 2 then .hardLimit else .fast) BrState.live (inc32 s1 (Obj.tripsFast b.val)))
    else .next s1

/-- The time of the curve at a current, in µs: log-log between the points (R260). -/
def curveTime : List EffPt → Rat → Rat
  | p :: q :: t, i =>
    if q.i ≤ i then curveTime (q :: t) i
    else p.us * realPow (i / p.i) (realLn (q.us / p.us) / realLn (q.i / p.i))
  | [p], _ => p.us
  | [], _ => 0

/-- The curve is evaluated in TRIP_MODE 2 and 3, in ON and in INRUSH under RAMP (R254, R257). -/
def judged (s : State) (b : Fin 12) : Bool :=
  let x := s.br.get b
  let mode := getN s (Obj.branchTripMode b.val)
  (mode == 2 || mode == 3) && (x.st == .on || (x.st == .inrush && x.inMode == 2))

/-- One microsecond of the trip fraction. At a point of the curve its time is taken as it stands. -/
def fracStep (s : State) (b : Fin 12) (cur : Rat) : Rat :=
  let x := s.br.get b
  let cooled := onGrid (x.frac * realExp (-1 / (1000 * getN s (Obj.tauCoolMs b.val))))
  if judged s b then
    match effectiveCurve s b with
    | [] => cooled
    | p :: t =>
      if cur < p.i then cooled
      else match (p :: t).find? (fun q => q.i == cur) with
        | some q => x.frac + 1 / q.us
        | none => x.frac + onGrid (1 / curveTime (p :: t) cur)
  else cooled

/-- The fraction, its warning (R261), and what it says of the inrush (R266). -/
def fracOne (b : Fin 12) (cur : Rat) (s : State) : State :=
  let x := s.br.get b
  let f := fracStep s b cur
  let warn := getF s (Obj.curveWarn b.val)
  let warns := x.warnArmed && decide (x.frac < warn) && decide (warn ≤ f)
  let moved := x.st = .inrush && decide (max 1 (f32ToRat x.inIlim / 16) < cur)
  let s1 := updBr b (fun x => { x with
    cur := cur
    frac := f
    warnArmed := if warns then false else if f < warn / 2 then true else x.warnArmed
    noRise := x.noRise && !moved }) s
  if warns then raiseBr .branchCurveWarn b s1 else s1

def curveTrip (b : Fin 12) (s : State) : State :=
  latchBr b .curve BrState.live (inc32 (raiseBr .branchCurveTrip b s) (Obj.tripsCurve b.val))

/-- TRIP_FRACTION_UPDATE, once a microsecond: `codes` holds the ten conversions of each branch's ADC; a branch without any keeps
its current. -/
def execTripFractionUpdate (codes : List (List Int)) (s : State) : Out :=
  if !s.clk.running then .next s
  else
    let s0 := tickTo (s.pow.fracAt + usCycles 1) s
    let s0 := { s0 with pow := { s0.pow with fracAt := s0.clk.cycles } }
    let s1 := forAll 12 (fun b => fracOne b (meanAmps s0 b (codes.getD b.val []))) s0
    let due := (List.finRange 12).filter (fun b => judged s0 b && decide (1 ≤ (s1.br.get b).frac))
    .next (forEach due curveTrip s1)

/-! ## Transistor temperature (R263 to R265) -/

/-- T_REF: the Fescue channel, or the fixed value. A channel without a value leaves T_REF open: a free value. -/
def tRef (b : Fin 12) (s : State) : Rat × State :=
  let src := getN s (Obj.trefSrc b.val)
  if h : src < 32 then
    match s.heat.channels.get ⟨src, h⟩ with
    | some t => (t, s)
    | none =>
      let (x, s1) := takeFree 16 s
      ((x : Rat) / 4, s1)
  else (getF s (Obj.trefC b.val), s)

/-- The power of the hottest transistor (R264). -/
def fetPower (s : State) (b : Fin 12) (vds : Rat) : Rat :=
  let x := s.br.get b
  let n : Rat := getN s (Obj.branchNFet b.val)
  match x.st with
  | .on => max 0 (vds * x.cur / n)
  | .inrush => max 0 (vds * x.cur * f32ToRat (linShareOf s b) / n)
  | _ => 0

def fosterStep (theta rth tau p : Rat) : Rat :=
  let a := realExp (-1 / (1000000 * tau))
  onGrid (a * theta + (1 - a) * rth * p)

/-- T_DIRECT from the sensor's reading: °C of a diode, Ω of an NTC (R265). The formula has no value for a resistance that is not
positive, and T_DIRECT stays as it was. -/
def directTemp (s : State) (b : Fin 12) (v : Rat) : Rat :=
  if getN s (Obj.tfetSensor b.val) = 0 then v
  else if v ≤ 0 then (s.br.get b).tDirect
  else 1 / (1 / (29815 / 100) + realLn (v / getF s (Obj.ntcRes25c b.val)) / getF s (Obj.ntcBeta b.val)) - 27315 / 100

/-- The first cycle of a condition that stands or not in the present one. -/
def sinceNow (holds : Bool) (at_ : Option Nat) (cy : Nat) : Option Nat := if holds then some (at_.getD cy) else none

def vdsOver (s : State) (b : Fin 12) (vds cur : Rat) : Bool := decide (cur * getN s (Obj.rdsOnMaxUohm b.val) / 1000000 < vds)

/-- One microsecond of a branch's Foster network and its record of the transistors; the inrush timer has advanced at the VDS in
force until now, and the conditions that must stand for a time are looked at. -/
def fosterOne (b : Fin 12) (vin vout sense : Rat) (s0 : State) : State :=
  let s := advInrush b s0
  let x := s.br.get b
  let cy := s.clk.cycles
  let vds := vin - vout
  let p := fetPower s b vds
  let (tr, s0) := tRef b s
  let t1 := fosterStep x.theta1 (getF s (Obj.fosterRth1 b.val)) (getF s (Obj.fosterTau1 b.val)) p
  let t2 := fosterStep x.theta2 (getF s (Obj.fosterRth2 b.val)) (getF s (Obj.fosterTau2 b.val)) p
  let t3 := fosterStep x.theta3 (getF s (Obj.fosterRth3 b.val)) (getF s (Obj.fosterTau3 b.val)) p
  let charging := x.st = .inrush && !x.inrushDone
  let s1 := updBr b (fun x => { x with
    vin := vin
    vout := vout
    theta1 := t1
    theta2 := t2
    theta3 := t3
    tModel := tr + t1 + t2 + t3
    tDirect := directTemp s b sense
    inrushJ := if x.st = .inrush then x.inrushJ + vds * x.cur / 1000000 else x.inrushJ
    noRise := x.noRise && !(charging && decide (vds < vin * 9 / 10))
    lowAt := sinceNow (decide (vds < 1)) x.lowAt cy
    outAt := sinceNow (decide (getF s (Obj.voutOffMax b.val) < vout)) x.outAt cy
    vdsAt := sinceNow ((x.st == .on && vdsOver s b vds x.cur) != x.fVdsHigh) x.vdsAt cy }) s0
  let t := tFet s1 b
  let s2 := updBr b (fun x => { x with
    hotArmed := x.hotArmed || decide (t ≤ getF s (Obj.tFetMax b.val) - 20)
    hotAt := sinceNow (decide (getF s (Obj.tFetMax b.val) < t)) x.hotAt cy }) s1
  maxF32 (Obj.peTfetMax b.val) t s2

/-- A DIRECT sensor fault that stands while the branch is in INRUSH or ON in TFET_MODE 1 latches it, whenever the fault, the state
or the mode came about (R262, R263). -/
def judgeSensor (b : Fin 12) (s : State) : State :=
  if (s.br.get b).sensorFault && getN s (Obj.tfetMode b.val) == 1 && brHit s b BrState.live then
    latchBr b .tfetSensor BrState.live (raiseBr .branchTfetSensorTrip b s)
  else s

/-- What the sample of B0's two sides says of VIN56 before it is stable, and of the tray side while B0 is not ON: the latest cycle
outside the window of R247, and the first of an uninterrupted time below 40 V (R249). -/
def noteTray (vin : List Rat) (s : State) : State :=
  let x := s.br.get 0
  let v := vin.headD 40
  let bad := !s.pow.vinStable && (decide (v < 40) || decide (getF s Obj.vinOv < v))
  { s with pow := { s.pow with
      vinBadAt := if bad then s.clk.cycles else s.pow.vinBadAt
      trayLowAt := sinceNow (x.st != .on && decide (x.vout < 40)) s.pow.trayLowAt s.clk.cycles } }

/-- FOSTER_UPDATE, once a microsecond: the voltages of each branch's two sides, and its sensor's reading. -/
def execFosterUpdate (vin vout sense : List Rat) (s : State) : Out :=
  if !s.clk.running then .next s
  else
    let s0 := tickTo (s.pow.fosterAt + usCycles 1) s
    let s0 := { s0 with pow := { s0.pow with fosterAt := s0.clk.cycles } }
    let s1 := forAll 12 (fun b => fosterOne b (vin.getD b.val (s0.br.get b).vin) (vout.getD b.val (s0.br.get b).vout)
      (sense.getD b.val (s0.br.get b).tDirect)) s0
    .next (forAll 12 judgeSensor (noteTray vin s1))

def fetHotDetail (b : Fin 12) (t : Rat) : Nat := b.val * 2 ^ 28 + (4 * t).floor.toNat % 2 ^ 16

/-- TFET_TRIP: BRANCH_T_FET has stayed above T_FET_MAX for 10 µs. Outside INRUSH and ON it is recorded, once an excursion. -/
def execTfetTrip (b : Fin 12) (s : State) : Out :=
  let t := tFet s b
  if !s.clk.running || decide (t ≤ getF s (Obj.tFetMax b.val)) then .next s
  else
    let s := standsFrom (s.br.get b).hotAt (usCycles 10) s
    if brHit s b BrState.live then .next (latchBr b .tfet BrState.live (raiseBr .branchTfetTrip b s))
    else if (s.br.get b).hotArmed then
      .next (raiseRye .fetTempHigh (brSrc b) (fetHotDetail b t) (updBr b (fun x => { x with hotArmed := false }) s))
    else .next s

/-- The sensor limits: 0.2 V to 0.9 V of a diode, 50 Ω to 5 MΩ of an NTC. -/
def sensorIn (ntc : Bool) (v : Rat) : Bool :=
  if ntc then decide (50 ≤ v) && decide (v ≤ 5000000) else decide (1 / 5 ≤ v) && decide (v ≤ 9 / 10)

def fetSensorIn (s : State) (b : Fin 12) (v : Rat) : Bool := sensorIn (getN s (Obj.tfetSensor b.val) == 1) v

/-- TFET_SENSOR_FAULT: outside its limits for 100 µs since the cycle `since`. In DIRECT mode a branch in INRUSH or ON latches; in
MODEL mode the sensor is not used. -/
def execTfetSensorFault (b : Fin 12) (reading : Rat) (since : Nat) (s : State) : Out :=
  if !s.clk.running || fetSensorIn s b reading || (s.br.get b).sensorFault then .next s
  else
    let s1 := updBr b (fun x => { x with sensorFault := true }) (stands since (usCycles 100) s)
    match getN s (Obj.tfetMode b.val) with
    | 1 => if brHit s1 b BrState.live then .next (judgeSensor b s1) else .next (raiseBr .tfetSensorFault b s1)
    | 2 => .next s1
    | _ => .next (raiseBr .tfetSensorFault b s1)

/-- TFET_SENSOR_OK: within its limits for 100 µs since the cycle `since`. A latch already made stays. -/
def execTfetSensorOk (b : Fin 12) (reading : Rat) (since : Nat) (s : State) : Out :=
  if (s.br.get b).sensorFault && fetSensorIn s b reading then
    .next (raiseBr .tfetSensorOk b (updBr b (fun x => { x with sensorFault := false }) (stands since (usCycles 100) s)))
  else .next s

/-! ## EN_Bn and toggles (R241, R244, R246, R271) -/

/-- EN_LOW: low for 1 µs since the cycle `since`, the branch opens with 4 A. -/
def execEnLow (b : Fin 12) (since : Nat) (s : State) : Out :=
  let x := s.br.get b
  if !s.clk.running || !x.en then .next s
  else
    let s0 := stands since (usCycles 1) s
    let s1 := updBr b (fun y => { y with en := false, enLow := true, enLowAt := since }) s0
    if brTakes s0 b BrState.live .off then .next (notePump (enterBr b .off .pd4A s1)) else .next (notePump s1)

/-- The branch leaves its latch: HELD while the module is absent or T_REINS runs, else OFF. BRANCH_CAUSE is kept. -/
def clearLatch (b : Fin 12) (s : State) : State :=
  let x := s.br.get b
  let dst : BrState := if brPresent s b then .off else .held
  match x.st with
  | .latched => enterBr b dst .off s
  | .faultFet => if x.fCleared then enterBr b dst .off (saveHealth b (updBr b (fun y => { y with fCleared := false }) s)) else s
  | _ => s

/-- A toggle: it acts with the effective request on, and not while the SORGHUM_OT condition lasts. -/
def toggle (b : Fin 12) (s : State) : State :=
  if brRequest s b && !s.heat.sorghumOt then clearLatch b s else s

/-- EN_RISE: EN_Bn rises in the cycle `at_`. After at least 10 µs low it is a toggle; after less it only enables again. -/
def execEnRise (b : Fin 12) (at_ : Nat) (s : State) : Out :=
  let x := s.br.get b
  if x.en then .next s
  else
    let s0 := tickTo at_ s
    let s1 := updBr b (fun y => { y with en := true, enLow := false }) s0
    if brLatched (s1.br.get b) && decide (x.enLowAt + usCycles 10 ≤ s0.clk.cycles) then
      if s1.part.st = .safe then .next s1
      else if b = 0 && b0Blocked s1 then .next (raiseBr .branchToggleIgnored b s1)
      else .next (notePump (toggle b s1))
    else .next (notePump s1)

/-- A 0 in BRANCH_ENABLE removes demand: an off order for B1 to B8, the opening of the others. -/
def disableEffect (b : Fin 12) (_ : Count) (s : State) : State :=
  let s1 := storeNum (Obj.branchEnable b.val) 0 (updBr b (fun x => { x with zeroStands := true }) s)
  match accelOfBranch b with
  | some a => offOrder a 17 s1
  | none => notePump (if brTakes s1 b BrState.live .off then enterBr b .off .pd100mA s1 else s1)

/-- BRANCH_DISABLE. -/
def execBranchDisable (au : Auth) (b : Fin 12) (s : State) : Out :=
  .next (writeStep au (Obj.branchEnable b.val).key (.num 0) noHome (disableEffect b) s)

/-- A toggle of B0 by BRANCH_ENABLE without the strap aborts while a branch behind it cannot open (R271). -/
def enableHome (b : Fin 12) (s : State) : Nat :=
  if b = 0 && (s.br.get b).zeroStands && brLatched (s.br.get b) && b0Blocked s then 0x00070801 else 0

def enableEffect (b : Fin 12) (_ : Count) (s : State) : State :=
  let zero := (s.br.get b).zeroStands
  let s1 := storeNum (Obj.branchEnable b.val) 1 (updBr b (fun x => { x with zeroStands := false }) s)
  let s2 := if zero then toggle b s1 else s1
  if b = 0 then notePump s2 else s2

/-- BRANCH_ENABLE. -/
def execBranchEnable (au : Auth) (b : Fin 12) (s : State) : Out :=
  .next (writeStep au (Obj.branchEnable b.val).key (.num 1) (enableHome b) (enableEffect b) s)

/-! ## Health (R266 to R272) -/

/-- OUTPUT_WHILE_OFF: OFF_SETTLE_MS after the last pull-down, and above VOUT_OFF_MAX for 50 ms. -/
def execOutputWhileOff (b : Fin 12) (vout : Rat) (s : State) : Out :=
  let x := s.br.get b
  if !s.clk.running || x.st.live || x.fOutputWhileOff || decide (x.vin < 20) || decide (vout ≤ getF s (Obj.voutOffMax b.val)) then .next s
  else
    let s0 := standsFrom x.outAt (msCycles 50) (tickTo (x.pulledAt + msCycles (getN s (Obj.offSettleMs b.val))) s)
    let s1 := raiseBr .outputWhileOff b (saveHealth b (updBr b (fun y => { y with vout := vout, fOutputWhileOff := true }) s0))
    let s2 := if x.st = .faultFet then s1 else enterBr b .faultFet x.gate s1
    .next (escalate b s2)

/-- TRIP_NOT_CLEARED: 5 µs after the pull-down of a latch the current is above a quarter of the fast-trip current. -/
def execTripNotCleared (b : Fin 12) (codes : List Int) (s : State) : Out :=
  let x := s.br.get b
  let cur := meanAmps s b codes
  match x.watchDue with
  | none => .next s
  | some d =>
    if x.st ≠ .latched then .next s
    else
      let s0 := updBr b (fun y => { y with watchDue := none, cur := cur }) (tickTo d s)
      if cur ≤ fastAmps s b / 4 then .next s0
      else if x.fNotCleared then .next (enterBr b .faultFet .pd4A (raiseBr .notCleared b s0))
      else
        let s1 := raiseBr .notCleared b (saveHealth b (updBr b (fun y => { y with fNotCleared := true }) s0))
        .next (escalate b (enterBr b .faultFet .pd4A s1))

/-- The cycle since which the condition of VDS_HIGH has stood, or been absent, as `isOver` says of the present sample. -/
def vdsFrom (x : Branch) (isOver : Bool) : Option Nat := if isOver != x.fVdsHigh then x.vdsAt else none

/-- VDS_HIGH: the condition has stood for 10 ms; a warning only (R272). -/
def execVdsHigh (b : Fin 12) (vds : Rat) (codes : List Int) (s : State) : Out :=
  let x := s.br.get b
  let cur := meanAmps s b codes
  if x.st = .on && !x.fVdsHigh && vdsOver s b vds cur then
    let s1 := standsFrom (vdsFrom x true) (msCycles 10) s
    .next (raiseBr .fetVdsHigh b (saveHealth b (updBr b (fun y => { y with fVdsHigh := true, vdsAt := none }) s1)))
  else .next s

/-- VDS_HIGH_CLEAR: the condition has been absent for 10 ms. -/
def execVdsHighClear (b : Fin 12) (vds : Rat) (codes : List Int) (s : State) : Out :=
  let x := s.br.get b
  let cur := meanAmps s b codes
  if x.fVdsHigh && !(x.st == .on && vdsOver s b vds cur) then
    let s1 := standsFrom (vdsFrom x false) (msCycles 10) s
    .next (saveHealth b (updBr b (fun y => { y with fVdsHigh := false, vdsAt := none }) s1))
  else .next s

/-- BRANCH_FET_CLEAR acts on a branch in FAULT_FET (R271). -/
def fetClearEffect (b : Fin 12) (_ : Count) (s : State) : State :=
  if (s.br.get b).st = .faultFet then
    notePump (saveHealth b (updBr b (fun x => { x with fGateNoRise := false, fOutputWhileOff := false, fNotCleared := false, fCleared := true }) s))
  else s

def execBranchFetClear (au : Auth) (b : Fin 12) (s : State) : Out :=
  .next (writeStep au (Obj.branchFetClear b.val).key (.num 1) noHome (fetClearEffect b) s)

/-! ## Settings (R255, R256) -/

/-- The settings of a branch that R255 holds together; F32 fields are patterns. -/
structure BrSet where
  fast : Nat
  shunt : Nat
  ilim : Nat
  share : Nat
  nFet : Nat
  deriving DecidableEq, Repr

def brSet (s : State) (b : Fin 12) : BrSet :=
  ⟨getN s (Obj.branchFastCode b.val), getN s (Obj.branchShuntUohm b.val), getN s (Obj.iLim b.val), linShareOf s b, getN s (Obj.branchNFet b.val)⟩

def ilimTop (b : Fin 12) : Nat := if b = 0 then 120 else if b.val ≤ 8 then 80 else 20

/-- R255. -/
def BrSet.ok (b : Fin 12) (x : BrSet) : Bool :=
  let fast : Rat := (x.fast : Rat) * 400 / x.shunt
  let il := f32ToRat x.ilim
  decide (0 < x.shunt) && decide (fast ≤ limitA b) && decide (2 ≤ il) && decide (il ≤ ilimTop b) && decide (il ≤ fast * 8 / 10) &&
    decide (f32ToRat x.share ≤ x.nFet)

/-- A DW440 record (Table 8.5). -/
structure Dw440 where
  target : Nat
  mode : Nat
  ramp : Nat
  fast : Nat
  ilimDa : Nat
  timer : Nat
  shunt : Nat
  tmax : Nat
  reserved : Nat
  deriving DecidableEq, Repr

def dwRecord (bs : List Byte) : Dw440 :=
  ⟨leAt bs 0 1, leAt bs 1 1, leAt bs 2 1, leAt bs 3 1, leAt bs 4 2, leAt bs 6 2, leAt bs 8 2, leAt bs 10 1, ofLe ((bs.drop 11).take 5)⟩

def dwRecords (bs : List Byte) : List Dw440 := (List.range (bs.length / 16)).map (fun k => dwRecord ((bs.drop (16 * k)).take 16))

def dwIlim (r : Dw440) : Nat := f32OfRat ((r.ilimDa : Rat) / 10)

/-- A record's own ranges. -/
def Dw440.ok (r : Dw440) : Bool :=
  decide (r.target ≤ 11) && decide (r.mode ≤ 1) && decide (5 ≤ r.ramp) && decide (r.ramp ≤ 100) && decide (1 ≤ r.fast) &&
  decide (1 ≤ r.timer) && decide (r.timer ≤ 200) && decide (50 ≤ r.shunt) && decide (r.shunt ≤ 5000) &&
  decide (100 ≤ r.tmax) && decide (r.tmax ≤ 175) && r.reserved == 0

/-- The writes of one record (R256). -/
def applyDw (r : Dw440) (s : State) : State :=
  let n := r.target
  s |> storeNum (Obj.inrushMode n) (if r.mode = 0 then 2 else 1) |> storeNum (Obj.rampUa n) r.ramp
    |> storeNum (Obj.branchFastCode n) r.fast |> storeNum (Obj.iLim n) (dwIlim r) |> storeNum (Obj.tIlimMs n) r.timer
    |> storeNum (Obj.branchShuntUohm n) r.shunt |> storeNum (Obj.tFetMax n) (f32OfRat r.tmax) |> storeNum (Obj.branchTripMode n) 1

def dwConsistent (s : State) (r : Dw440) : Bool :=
  if h : r.target < 12 then
    BrSet.ok ⟨r.target, h⟩ { brSet s ⟨r.target, h⟩ with fast := r.fast, shunt := r.shunt, ilim := dwIlim r }
  else false

def dwHome (bs : List Byte) (s : State) : Nat :=
  if bs.length % 16 = 0 && (dwRecords bs).all (fun r => r.ok && dwConsistent s r) then 0 else 0x00040803

/-- DW440_IMPORT: checked whole, then applied in order. -/
def execDw440Import (au : Auth) (bytes : List Byte) (s : State) : Out :=
  .next (writeStep au Blob.dw440Import (.bytes bytes) (dwHome bytes) (fun _ => forEach (dwRecords bytes) applyDw) s)

/-- BRANCH_START_OFFSET: B9 to B11 are demanded from their offset after the latest tray-on event. -/
def execBranchStartOffset (b : Fin 12) (s : State) : Out :=
  match s.pow.trayOnCycle with
  | none => .next s
  | some t =>
    if b.val < 9 || (s.br.get 0).st != .on || (s.br.get b).offsetDone then .next s
    else .next (updBr b (fun x => { x with offsetDone := true }) (tickTo (t + msCycles (getN s (Obj.branchStartOffsetMs b.val))) s))

/-- A write of BRANCH_START_OFFSET_MS: whether the offset has elapsed is judged anew, and a branch whose condition of Table 8.2
fails with it goes OFF at 100 mA (R241, R242). -/
def startOffsetEffect (b : Fin 12) (s : State) : State :=
  match s.pow.trayOnCycle with
  | none => s
  | some t =>
    if (s.br.get b).offsetDone && decide (s.clk.cycles < t + msCycles (getN s (Obj.branchStartOffsetMs b.val))) then
      let s1 := updBr b (fun x => { x with offsetDone := false }) s
      if brTakes s1 b BrState.live .off then enterBr b .off .pd100mA s1 else s1
    else s

/-! ## Presence (R273, R274) -/

/-- PRESENCE_EDGE: a change that has held for 10 µs since the cycle `since`. Every edge restarts T_REINS; a removal in OFF,
INRUSH or ON leads to HELD. With no valid RCB copy the branch stays off (01 R36). -/
def execPresenceEdge (a : Fin 8) (seated : Bool) (since : Nat) (s : State) : Out :=
  let b := branchOf a
  let x := s.br.get b
  if !s.clk.running || x.seated == seated then .next s
  else
    let s := stands since (usCycles 10) s
    let due := s.clk.cycles + msCycles (getN s (Obj.tReinsMs b.val))
    let s1 := updBr b (fun y => { y with seated := seated, treins := some due }) s
    let gone (st : BrState) : Bool := st == .off || st.live
    if !seated && !s.pow.rcbInvalid && brTakes s b gone .held then .next (enterBr b .held .pd4A (raiseBr .branchPresenceLost b s1))
    else .next (raiseBr .branchPresenceEdge b s1)

/-- An insertion is counted (17 R493). -/
def countInsertion (a : Fin 8) (s : State) : State :=
  let n := a.val
  let v := getN s (Obj.serialInsertions n)
  let s1 := setN (inc32 s (Obj.posInsertions n)) (Obj.serialInsertions n) (v / two32 * two32 + min (v % two32 + 1) u32)
  { s1 with nut := { s1.nut with insPending := put s1.nut.insPending n 1, onSince := put s1.nut.onSince n 0 } }

/-- T_REINS_EXPIRY: with the module seated HELD ends, and the insertion is counted. -/
def execTReinsExpiry (a : Fin 8) (s : State) : Out :=
  let b := branchOf a
  match (s.br.get b).treins with
  | none => .next s
  | some d =>
    let s1 := updBr b (fun y => { y with treins := none }) (tickTo d s)
    if (s.br.get b).seated && (s.br.get b).st == .held then .next (enterBr b .off .off (countInsertion a s1)) else .next s1

end Sys2Proof.Machine
end

