-- ==== Sys2Proof/Machine/Recorder.lean ====
section
/-! DEFINITION. The Nutmeg recorder: its copies, commits and rate buckets, the operating seconds, and the inventory of
accelerators and transistors (17 R479 to R494). -/
namespace Sys2Proof.Machine

open Sys2Proof

def nutSrc : Nat := 0x7000

def setNut (f : Nutmeg → Nutmeg) (s : State) : State := { s with nut := f s.nut }

/-! ## Copies (R487) -/

/-- The snapshot of a commit: the lifetime block and every record. -/
def nutSnapshot (s : State) : NutData where
  epoch := s.clk.epoch
  lastSeq := s.ev.lastSeq
  nums := s.nums.filter (fun p => nutHeld p.1)
  blobs := s.blobs.filter (fun p => nutHeld p.1)
  energy := (List.finRange 13).map (fun c => (c.val, (s.rep.get c).energy))
  records := s.nut.records

/-- The newest valid copy: 0 A, 1 B. -/
def newestNut (n : Nutmeg) : Option Nat :=
  if n.copyA.valid && (!n.copyB.valid || decide (n.copyB.generation ≤ n.copyA.generation)) then some 0
  else if n.copyB.valid then some 1 else none

def nutCopy (n : Nutmeg) (k : Nat) : NutCopy := if k = 0 then n.copyA else n.copyB
def setCopy (k : Nat) (f : NutCopy → NutCopy) (n : Nutmeg) : Nutmeg :=
  if k = 0 then { n with copyA := f n.copyA } else { n with copyB := f n.copyB }

def deltaBytes : Nat := 256 * 1024

/-- A LIFETIME entry is appended to a copy's delta area. -/
def appendLife (k : Nat) (s : State) : State :=
  let d := nutSnapshot s
  setNut (setCopy k (fun c => { c with data := { d with records := c.data.records }, deltaUsed := c.deltaUsed + 2064 })) s

/-- A RECORD entry is appended. -/
def appendRec (k code : Nat) (s : State) : State :=
  setNut (fun n => setCopy k (fun c =>
    { c with data := { c.data with records := put c.data.records code (lookD n.records code CodeRec.empty) }, deltaUsed := c.deltaUsed + 144 }) n) s

/-- A full commit starts: the copy that is not the newest valid one becomes its target (R488). -/
def startFull (s : State) : State :=
  let k := match newestNut s.nut with | some 0 => 1 | _ => 0
  let d := nutSnapshot s
  setN (setNut (fun n => setCopy k (fun c => { c with valid := false, changed := [] })
    { n with commitTo := some (k, d), commitFailed := false, lastFullS := getN s Obj.operatingS }) s) Obj.recorderLastFull (ryeStamp s)

/-- A full commit is due: 600 operating seconds after the last one began, and at once at a delta area three-quarters full, but one
that failed is retried only at the next interval (R488). -/
def fullDue (s : State) : Bool :=
  decide (s.nut.lastFullS + 600 ≤ getN s Obj.operatingS) || !s.nut.commitFailed &&
    (match newestNut s.nut with
     | some k => decide (deltaBytes * 3 / 4 ≤ (nutCopy s.nut k).deltaUsed)
     | none => false)

/-- RECORDER_FULL_COMMIT. -/
def execRecorderFullCommit (s : State) : Out :=
  if s.clk.running && s.nut.commitTo.isNone && s.nut.lossCommit.isNone && fullDue s then .next (startFull s) else .next s

/-- RECORDER_COMMIT_DONE: the target becomes the newest valid copy, or the commit failed. -/
def execRecorderCommitDone (ok : Bool) (s : State) : Out :=
  match s.nut.commitTo with
  | none => .next s
  | some (k, d) =>
    let s0 := setNut (fun n => { n with commitTo := none }) s
    if ok then
      let g := 1 + (match newestNut s.nut with | some j => (nutCopy s.nut j).generation | none => 0)
      .next (setNut (setCopy k (fun c => { c with generation := g, valid := true, data := d, deltaUsed := 0 })) s0)
    else .next (raiseRye .recorderCommitFailed nutSrc (openDetail .recorderCommitFailed k) (setNut (fun n => { n with commitFailed := true }) s0))

/-- IMMEDIATE_APPEND: the oldest waiting IMMEDIATE record goes to the newest valid copy, not while a full commit writes. -/
def execImmediateAppend (s : State) : Out :=
  match s.nut.immediate, newestNut s.nut with
  | c :: t, some k =>
    if s.nut.commitTo.isSome || decide (deltaBytes < (nutCopy s.nut k).deltaUsed + 144) then .next s
    else .next (appendRec k c (setNut (fun n => { n with immediate := t }) s))
  | _, _ => .next s

/-! ## The input-loss commit (R489) -/

/-- Insertion by ascending number. -/
def insertCode (c : Nat × Nat) : List (Nat × Nat) → List (Nat × Nat)
  | [] => [c]
  | x :: t => if c.1 < x.1 then c :: x :: t else x :: insertCode c t

def sortCodes (l : List (Nat × Nat)) : List (Nat × Nat) := l.foldr insertCode []

/-- The codes to write: FAULT codes first, then the others, each group in ascending code. -/
def lossOrder (s : State) (k : Nat) : List Nat :=
  let ch := (nutCopy s.nut k).changed
  let group (f : Bool) : List Nat := (sortCodes ((ch.filter (fun p => p.2.2 == f)).map (fun p => (p.2.1, p.1)))).map (·.2)
  group true ++ group false

/-- The commit starts: any full commit is abandoned, its target stays invalid; one LIFETIME entry is appended. -/
def startLoss (s : State) : State :=
  let s1 := setNut (fun n => { n with commitTo := none, lossCommit := some s.clk.cycles }) s
  match newestNut s1.nut with
  | some k => appendLife k s1
  | none => s1

/-- The commit stops after `written` of its RECORD entries; the others are counted for the next LIFETIME entry. -/
def endLoss (written : Nat) (s : State) : State :=
  let s1 := setNut (fun n => { n with lossCommit := none }) s
  match newestNut s1.nut with
  | none => s1
  | some k =>
    let cs := lossOrder s1 k
    setN (forEach (cs.take written) (appendRec k) s1) Obj.partialCodes (min (cs.length - written) u16)

/-! ## Rye start (R490, 02 R52, R69) -/

/-- Rye takes the newest valid copy; with none, everything starts empty and RECORDER_LOST is the first event. -/
def restoreNut (s : State) : State :=
  match newestNut s.nut with
  | some k =>
    let d := (nutCopy s.nut k).data
    let s1 := { s with
      nums := putAll d.nums s.nums
      blobs := putAll d.blobs s.blobs
      rep := Vector.ofFn (fun c => { PowerCh.zero with energy := lookD d.energy c.val 0 })
      clk := { s.clk with epoch := (d.epoch + 1) % 2 ^ 32 }
      ev := { s.ev with nextSeq := d.lastSeq + 2 ^ 32, lastSeq := d.lastSeq }
      nut := { s.nut with records := d.records } }
    let s2 := inc32 s1 Obj.powerCycles
    let s3 := setNut (fun n => { n with lastFullS := getN s2 Obj.operatingS }) s2
    let s4 := appendLife k s3
    if getN s4 Obj.partialCodes = 0 then s4 else raiseRye .recorderPartial nutSrc (getN s4 Obj.partialCodes) s4
  | none => raiseRye .recorderLost nutSrc (openDetail .recorderLost 0) (inc32 s Obj.powerCycles)

/-! ## Rate buckets (R484, R485) -/

/-- TOKEN_REFILL: one token, up to BURST, 25,000,000 / RATE Rye cycles after the one before, or after the bucket ceased to be full
(DESIGN CHOICE, log 89); a full bucket is not listed. -/
def execTokenRefill (code : Ev) (s : State) : Out :=
  let k := evKey code
  match look s.nut.tokens k with
  | none => .next s
  | some n =>
    let rate := codeRate s code
    if !s.clk.running || rate % 256 == 0 then .next s
    else
      let due := lookD s.nut.refilled k 0 + ceilDiv 25000000 (rate % 256)
      .next (setNut (fun x => { x with
        tokens := if rate / 256 ≤ n + 1 then del x.tokens k else put x.tokens k (n + 1)
        refilled := put x.refilled k due }) (tickTo due s))

/-- RECORDER_SUPPRESSED, at each whole second of count: one event for each code that suppressed an occurrence. -/
def execRecorderSuppressed (s : State) : Out :=
  if !s.clk.running then .next s
  else
    let s0 := reachCount ((now s / 1000000000 + 1) * 1000000000) s
    let s1 := setNut (fun n => { n with sinceSecond := [] }) s0
    .next (forEach (s0.nut.sinceSecond.map (·.2)) (fun p => raiseRye .recorderSuppressed nutSrc (p.1 % 4096 * 2 ^ 20 + p.2)) s1)

/-! ## Clearing (R486) -/

/-- Every record and its SUPPRESSED is empty again but for the occurrences of this Rye cycle, which count as after the clear. The
reports of suppression and the commits that wait stand (R485, R489). -/
def clearRecorder (_ : Count) (s : State) : State :=
  let n0 := { s.nut with records := [] }
  let n1 := if s.nut.lately.1 = s.clk.cycles then s.nut.lately.2.foldl (fun n o => noteOcc s o n) n0 else n0
  startFull (inc32 { s with nut := n1 } Obj.recorderClears)

/-- RECORDER_CLEAR: every record is empty again, and a full commit follows. -/
def execRecorderClear (au : Auth) (s : State) : Out :=
  .next (writeStep au Obj.recorderClear.key (.num 1) noHome clearRecorder s)

/-! ## Seconds (R483, R493, R494) -/

/-- One more second in A_ON for an accelerator's position and serial. -/
def onSecond (a : Fin 8) (s : State) : State :=
  if accelOn s a then
    let v := getN s (Obj.serialInsertions a.val)
    let s1 := setN (inc32 s (Obj.posOnS a.val)) (Obj.serialInsertions a.val) (min (v / two32 + 1) u32 * two32 + v % two32)
    setNut (fun n => { n with onSince := put n.onSince a.val (lookD n.onSince a.val 0 + 1) }) s1
  else s

def branchSecond (b : Fin 12) (s : State) : State := if (s.br.get b).st = .on then inc32 s (Obj.peOnS b.val) else s

/-- OPERATING_SECOND. -/
def execOperatingSecond (s : State) : Out :=
  if !s.clk.running then .next s
  else
    let due := s.nut.secondCycle + sCycles 1
    let s0 := setNut (fun n => { n with secondCycle := due }) (tickTo due s)
    .next (forAll 12 branchSecond (forAll 8 onSecond (inc32 s0 Obj.operatingS)))

/-! ## Inventory (R492 to R494) -/

/-- A new serial is stored, and its counts restart from what Rye counted since the last insertion. -/
def newSerial (a : Fin 8) (serial : List Byte) (s : State) : State :=
  if getBlob s (Blob.accelSerial a.val) = serial then s
  else
    let v := lookD s.nut.insPending a.val 0 + min (lookD s.nut.onSince a.val 0) u32 * two32
    setN (setBlob (raiseRye .accelReplaced 0x7210 (a.val * 2 ^ 24) s) (Blob.accelSerial a.val) serial) (Obj.serialInsertions a.val) v

/-- FRU_READ: an accelerator in A_ON (positions 0 to 7), or the tray (8). `image` is what the FRU device reads as, none without an
acknowledgement. -/
def execFruRead (pos : Fin 9) (image : Option (List Byte)) (s : State) : Out :=
  if !(s.part.st == .ready || s.part.st == .run) then .next s
  else match accelOfSeq pos, image.bind parseFru with
  | some a, some f =>
    if !accelOn s a then .next s
    else
      let s1 := setBlob (newSerial a f.serial s) (Blob.accelPartNumber a.val) f.part
      .next (setN (setBlob s1 (Blob.accelManufacturer a.val) f.maker) (Obj.accelFruState a.val) 1)
  | some a, none =>
    if !accelOn s a then .next s
    else .next (raiseMain .fruReadFailed 0x7213 (openDetail .fruReadFailed a.val) (setN s (Obj.accelFruState a.val) 2))
  | none, some f => .next (setN (setBlob (setBlob s Blob.traySerial f.serial) Blob.trayPartNumber f.part) Obj.trayFruState 1)
  | none, none => .next (raiseMain .fruReadFailed 0x7200 (openDetail .fruReadFailed 8) (setN s Obj.trayFruState 2))

/-- The pass-element record starts afresh (R494). -/
def peSerialEffect (b : Fin 12) (bytes : List Byte) (_ : Count) (s : State) : State :=
  let n := b.val
  let s0 := setN (setN (setN (setBlob s (Blob.peSerial n) bytes) (Obj.peOnS n) 0) (Obj.peInrushes n) 0) (Obj.peTrips n) 0
  let s1 := setN (setN s0 (Obj.peTfetMax n) 0) (Obj.peInrushJ n) 0
  raiseRye .peReplaced 0x7220 (openDetail .peReplaced n) s1

/-- PE_SERIAL_WRITE. -/
def execPeSerialWrite (au : Auth) (b : Fin 12) (bytes : List Byte) (s : State) : Out :=
  .next (writeStep au (Blob.peSerial b.val) (.bytes bytes) noHome (peSerialEffect b bytes) s)

end Sys2Proof.Machine
end

