-- ==== Sys2Proof/Machine/Power.lean ====
section
/-! DEFINITION. The tray input, hold-up and Rye start (01 R33 to R38, 02 R57, 08 R245 to R250, 18 R520, R521). -/
namespace Sys2Proof.Machine

open Sys2Proof

def setPow (f : Power → Power) (s : State) : State := { s with pow := f s.pow }
def vinSrc : Nat := 0x2100

/-! ## The converter and Rye release -/

/-- CONVERTER_START: VIN56 crosses 36 V rising. -/
def execConverterStart (v : Rat) (s : State) : Out :=
  if s.part.st = .off ∧ s.pow.holdup = .off ∧ 36 ≤ v then .next (setPow (fun p => { p with holdup := .charging, vin := v, vinLost := false }) s)
  else .next s

/-- HOLDUP_FAIL: Rye stays unreleased and the part OFF. -/
def execHoldupFail (s : State) : Out :=
  if s.pow.holdup = .charging then .next (setPow (fun p => { p with holdup := .failed }) s) else .next s

def loadCopy (c : Option NorCopy) (s : State) : State :=
  match c with
  | some c => { s with nums := putAll c.nums s.nums, blobs := putAll c.blobs s.blobs }
  | none => s

/-- RCB_LOAD, or RCB_INVALID, with which the NOR serial lines go to the programming balls (R36). -/
def loadRcb (s : State) : State :=
  match newestCopy s.pow.rcbA s.pow.rcbB with
  | some c => setPow (fun p => { p with rcbLoaded := true }) (loadCopy (some c) s)
  | none => raiseRye .rcbInvalid 0x1100 (openDetail .rcbInvalid 0) (setPow (fun p => { p with rcbInvalid := true, norReleased := true }) s)

/-- A branch at Rye start (R245): FAULT_FET with a health flag held, HELD with its module absent, else OFF. With no valid RCB copy
every branch is kept off (01 R36). -/
def startBr (seated enabled : Nat) (b : Fin 12) (s : State) : State :=
  let h := getN s (Obj.branchHealth b.val)
  let absent : Bool := match accelOfBranch b with
    | some a => !(bitSet seated a.val)
    | none => false
  let st : BrState := if s.pow.rcbInvalid then .off else if bitSet h 0 || bitSet h 1 || bitSet h 2 then .faultFet else if absent then .held else .off
  updBr b (fun x => { x with
    st := st
    was := st
    seated := !absent
    en := bitSet enabled b.val
    enLow := !(bitSet enabled b.val)
    fGateNoRise := bitSet h 0
    fOutputWhileOff := bitSet h 1
    fNotCleared := bitSet h 2
    fVdsHigh := bitSet h 3
    fCleared := bitSet h 4 }) s

/-- An accelerator's sequencer, quarantine and requests at Rye start (R38, R245, 09 Table 9.4). -/
def startAccel (thermtrip : Nat) (a : Fin 8) (s : State) : State :=
  let held := (s.br.get (branchOf a)).st == .held
  let req (n : Nat) : Req := if n = 1 then .on else if n = 2 then .off else .none
  let st : SeqState := if held then .held else .idle
  let s1 := updSeq (seqOf a) (fun x => { x with
    st := st
    was := st
    offCount := if held then ryeStamp s else 0
    lastOff := if held then .held else .none
    thermtripN := bitSet thermtrip a.val }) s
  updAcc a (fun x => { x with
    reqF := req (getN s (Obj.facilityBootReq a.val))
    reqH := req (getN s (Obj.hostBootReq a.val))
    quarantined := getN s (Obj.quarantine a.val) == 1 }) s1

/-- The start of Rye: the count at 0, the RCB, the recorder, branches, sequencers and requests. -/
def ryeStart (seated enabled thermtrip : Nat) (s : State) : State :=
  let s1 := setPow (fun p => { p with holdup := .released }) { s with clk := { Clock.init with running := true } }
  let s2 := restoreNut s1
  let s3 := loadCopy (newestCopy s2.pow.norA s2.pow.norB) (loadRcb s2)
  let s4 := forAll 12 (startBr seated enabled) s3
  let s5 := forAll 8 (startAccel thermtrip) s4
  let s6 := settleOuts (forAll 8 enableLeak s5)
  let s7 := forAll 8 settleReq (enterPart .standby s6)
  s7

/-- RYE_RELEASE: HOLDUP has reached 10.5 V. The operands are the pins sampled: seated modules, EN_Bn, THERMTRIP_An_N. -/
def execRyeRelease (seated enabled thermtrip : Nat) (s : State) : Out :=
  if s.pow.holdup = .charging then .next (ryeStart seated enabled thermtrip s) else .next s

/-! ## The window of VIN56 (R247, R248) -/

/-- VIN_STABLE: VIN_STABLE_MS after VIN56 was last outside its window, or after Rye release. -/
def execVinStable (v : Rat) (s : State) : Out :=
  if !s.clk.running || decide (v < 40) || decide (getF s Obj.vinOv < v) || s.pow.vinLow then .next s
  else
    let s0 := tickTo (s.pow.vinBadAt + msCycles (getN s Obj.vinStableMs)) s
    .next (notePump (setPow (fun p => { p with vinStable := true, vin := v }) s0))

/-- VIN_OV: above VIN_OV for 10 µs since the cycle `since`; B0 opens with 4 A and does not latch. -/
def execVinOv (v : Rat) (since : Nat) (s : State) : Out :=
  if !s.clk.running || decide (v ≤ getF s Obj.vinOv) then .next s
  else
    let s0 := stands since (usCycles 10) s
    let s1 := notePump (raiseRye .vinOv vinSrc (openDetail .vinOv 0) (setPow (fun p => { p with vinStable := false, vinBadAt := s0.clk.cycles, vin := v }) s0))
    if brTakes s1 0 BrState.live .off then .next (enterBr 0 .off .pd4A s1) else .next s1

/-! ## Loss of the input (R33, R249, R250) -/

/-- VIN_LOW: below 40 V for 10 µs since the cycle `since`. Every accelerator's trigger is 8; B0 stays ON, but an inrush of B0
loses its demand. -/
def execVinLow (v : Rat) (since : Nat) (s : State) : Out :=
  if !s.clk.running || decide (40 ≤ v) || s.pow.vinLow then .next s
  else
    let s0 := stands since (usCycles 10) s
    let s1 := notePump (setPow (fun p => { p with
      vinLow := true, vinLowAt := s0.clk.cycles, vinBadAt := s0.clk.cycles, vinStable := false, vin := v, nutDone := false }) s0)
    let s2 := forAll 8 (fun a => trigger a 8 0xFF) (raiseRye .vinLow vinSrc (openDetail .vinLow 0) s1)
    if (s2.br.get 0).st = .inrush then .next (enterBr 0 .off .pd100mA s2) else .next s2

/-- B0 goes OFF once S_SELF has no list to run (R249). -/
def b0Open (s : State) : State := if (s.br.get 0).st.live then enterBr 0 .off .pd100mA s else s

/-- VIN_LOW_SELF_DOWN: VIN56 has stayed below 40 V for 5 ms, or, with B0 not ON, the tray side has (R33, R249). -/
def execVinLowSelfDown (s : State) : Out := noted <|
  if (s.br.get 0).st = .on then
    if s.pow.vinLow then
      let s0 := tickTo (s.pow.vinLowAt + usCycles 4990) s
      if (s0.sq.get sSelf).st = .idle then .next (b0Open s0) else .next (selfDown 1 true s0)
    else .next s
  else if s.clk.running && decide ((s.br.get 0).vout < 40) then .next (selfDown 3 true (standsFrom s.pow.trayLowAt (msCycles 5) s))
  else .next s

/-- VIN_RETURN: above 40 V again. A list of S_SELF that has begun runs on. -/
def execVinReturn (v : Rat) (s : State) : Out :=
  if s.pow.vinLow && !s.pow.vinLost && decide (40 ≤ v) then .next (setPow (fun p => { p with vinLow := false, vinBadAt := s.clk.cycles, vin := v }) s)
  else .next s

/-- B0_UNDERVOLTAGE_OFF: below 30 V before S_SELF's list has ended. -/
def execB0UndervoltageOff (v : Rat) (s : State) : Out :=
  if s.pow.vinLow && decide (v < 30) then .next (b0Open (setPow (fun p => { p with vin := v }) s)) else .next s

/-- VIN_LOST: below 28 V the converter runs from HOLDUP, before Rye release as after it. -/
def execVinLost (v : Rat) (s : State) : Out :=
  if s.pow.holdup != .off && decide (v < 28) then .next (setPow (fun p => { p with vinLost := true, vin := v }) s) else .next s

/-- INPUT_LOSS_COMMIT: below 40 V for 100 µs. -/
def execInputLossCommit (s : State) : Out :=
  if s.pow.vinLow && !s.pow.nutDone && s.nut.lossCommit.isNone then .next (startLoss (tickTo (s.pow.vinLowAt + usCycles 90) s))
  else .next s

/-- INPUT_LOSS_COMMIT_END: the list ended, or 12 ms passed; `written` RECORD entries were appended. -/
def execInputLossCommitEnd (written : Nat) (s : State) : Out :=
  match s.nut.lossCommit with
  | none => .next s
  | some t =>
    let all := match newestNut s.nut with
      | some k => (lossOrder s k).length
      | none => 0
    let s0 := if all ≤ written then s else tickTo (t + msCycles 12) s
    .next (setPow (fun p => { p with nutDone := true }) (endLoss written s0))

/-- COARSE_TIMEKEEPING: S_SELF's down list and the Nutmeg commit are complete (02 R57). -/
def execCoarseTimekeeping (s : State) : Out :=
  if s.clk.running && s.pow.vinLost && s.pow.nutDone && (s.sq.get sSelf).st == .idle && !s.clk.rc then
    .next (setClk (fun c => { stopServo c with rc := true, state := .coarse, holdoverDue := none }) s)
  else .next s

/-- VIN_RETURN_IN_HOLDUP: the count continues on XTAL25; TIME_STATE stays COARSE. -/
def execVinReturnInHoldup (v : Rat) (s : State) : Out :=
  if s.clk.running && s.pow.vinLost && decide (28 ≤ v) then
    .next (setClk (fun c => { c with rc := false }) (setPow (fun p => { p with
      vinLost := false, vinLow := decide (v < 40) && p.vinLow, vinBadAt := s.clk.cycles, vin := v }) s))
  else .next s

/-- The step whose commit is under way. -/
def commitUnderWay (l : List Pending) : Option (Nat × Value) :=
  match l.find? Pending.committing with
  | some p => p.steps.head?.map (fun x => (x.1, x.2.2))
  | none => none

/-- Whether a key is committed to the RCB. -/
def keyInRcb (s : State) (key : Nat) : Bool := match findEntry s key with | some e => inRcb key e.persist | none => false

/-- The commit that can be under way on an area: the dictionary engine's, or the last one, for at most 25 ms (12 R354). It
gives what the two copies held before it and the copy it writes. -/
def openCommit (rcb : Bool) (s : State) : Option (NorCopy × NorCopy × NorCopy) :=
  let mine (p : Power) : NorCopy := if rcb then p.rcbA else p.norA
  let last : Option (NorCopy × NorCopy × NorCopy) := match s.pow.commit with
    | some c => if c.rcb == rcb && decide (s.clk.cycles ≤ c.at_ + msCycles 25) then some (c.a, c.b, mine s.pow) else none
    | none => none
  match commitUnderWay (s.oda.landing ++ s.oda.waiting) with
  | some (key, v) =>
    if keyInRcb s key = rcb then
      some (mine s.pow, if rcb then s.pow.rcbB else s.pow.norB, mine (storeValue key v s).pow)
    else last
  | none => last

/-- The write of copy A, or of copy B after it, is cut off. -/
def tearArea (rcb second : Bool) (s : State) : State :=
  match openCommit rcb s with
  | none => s
  | some (a, b, new) =>
    let x : NorCopy := if second then new else { a with valid := false }
    let y : NorCopy := if second then { b with valid := false } else b
    setPow (fun p => if rcb then { p with rcbA := x, rcbB := y } else { p with norA := x, norB := y }) s

/-- The same for the security record, to which the rules of R35 apply (16 R464). -/
def tearSec (second : Bool) (s : State) : State :=
  match s.cardamom.commit with
  | none => s
  | some (a, b, t) =>
    if t + msCycles 25 < s.clk.cycles then s
    else
      { s with cardamom := { s.cardamom with
          recA := if second then s.cardamom.recA else { a with valid := false }
          recB := if second then { b with valid := false } else b } }

/-- A commit that the end of hold-up cuts off, Rye's own as well as one that a write asked for, leaves one copy old and one
torn, or one new and one torn (R35). -/
def tearCommit (torn : Torn) (s : State) : State :=
  match torn with
  | .none => s
  | .rcbA => tearArea true false s
  | .rcbB => tearArea true true s
  | .norA => tearArea false false s
  | .norB => tearArea false true s
  | .secA => tearSec false s
  | .secB => tearSec true s

/-- What a part without power keeps: its NOR devices, its fused identity, and the host's waiting commands. -/
def powerOff (s : State) : State :=
  let cut (x : FwSlot) : FwSlot := if x.st = .writing then { x with st := .invalid } else x
  { State.reset with
    pending := s.pending
    pow := { Power.init with rcbA := s.pow.rcbA, rcbB := s.pow.rcbB, norA := s.pow.norA, norB := s.pow.norB }
    nut := { Nutmeg.init with info := s.nut.info, copyA := s.nut.copyA, copyB := s.nut.copyB }
    bar := { Barley.init with slotA := cut s.bar.slotA, slotB := cut s.bar.slotB, bootSlot := s.bar.bootSlot, restartTrial := s.bar.restartTrial }
    ani := { Anise.init with
      st := if s.ani.prog.isSome ∨ s.ani.ready.isSome then .inForce else .none
      ready := (match s.ani.ready with | some p => some p | none => s.ani.prog) }
    cardamom := { Security.init with recA := s.cardamom.recA, recB := s.cardamom.recB }
    ident := s.ident
    free := s.free }

/-- HOLDUP_END: HOLDUP below 6.0 V with VIN56 absent; Rye stops and the part is OFF. -/
def execHoldupEnd (torn : Torn) (s : State) : Out :=
  if s.pow.vinLost then .next (powerOff (tearCommit torn s)) else .next s

end Sys2Proof.Machine
end

