-- ==== Sys2Proof/Machine/Sequencer.lean ====
section
/-! DEFINITION. Rail sequencers: admission, steps and waits, the PG window, levels, and their lists (09 R277 to R299). -/
namespace Sys2Proof.Machine

open Sys2Proof

/-! ## Levels (R278 to R280) -/

def railNo (q : Fin 9) (r : Fin 16) : Nat := 16 * q.val + r.val

/-- A level setting as the comparators take it: one written in this cycle takes effect on the next (R299). -/
def levelN (s : State) (o : Obj) : Nat := if s.pow.levelAt = s.clk.cycles then lookD s.pow.levelWas o.key (getN s o) else getN s o

/-- A write of a level setting: what stood at the start of the cycle is kept for the rest of it. -/
def levelEffect (key v : Nat) (s : State) : State :=
  let was := if s.pow.levelAt = s.clk.cycles then s.pow.levelWas else []
  let old := getN s ⟨key, dfltOf s key⟩
  storeValue key (.num v) (setPow (fun p => { p with
    levelAt := s.clk.cycles
    levelWas := if was.any (fun x => x.1 == key) then was else put was key old }) s)

/-- A threshold: the ratio times the nominal, quantised to 1 mV. -/
def threshold (s : State) (q : Fin 9) (r : Fin 16) (ratio : Nat → Obj) : Rat :=
  ((f32ToRat (levelN s (ratio (railNo q r))) * getF s (Obj.railNominalV (railNo q r)) * 1000 + 1 / 2).floor : Rat) / 1000

def hystV (s : State) (q : Fin 9) (r : Fin 16) : Rat := (levelN s (Obj.levelHystMv (railNo q r)) : Rat) / 1000

def levelRatio : Level → Nat → Obj
  | .uvFault, n => Obj.uvFaultR n
  | .uvWarn, n => Obj.uvWarnR n
  | .ovWarn, n => Obj.ovWarnR n
  | .ovFault, n => Obj.ovFaultR n
  | .pgLoss, n | .thermtrip, n => Obj.uvFaultR n

/-- The condition of a level at a voltage; a lost power-good is judged by its input. -/
def levelShows (s : State) (q : Fin 9) (r : Fin 16) (l : Level) (v : Rat) : Bool :=
  match l with
  | .pgLoss => getN s (Obj.pgUsed (railNo q r)) == 1
  | .thermtrip => false
  | .uvFault | .uvWarn => decide (v < threshold s q r (levelRatio l))
  | .ovFault | .ovWarn => decide (threshold s q r (levelRatio l) < v)

def levelEnds (s : State) (q : Fin 9) (r : Fin 16) (l : Level) (v : Rat) : Bool :=
  match l with
  | .pgLoss | .thermtrip => true
  | .uvFault | .uvWarn => decide (threshold s q r (levelRatio l) + hystV s q r ≤ v)
  | .ovFault | .ovWarn => decide (v ≤ threshold s q r (levelRatio l) - hystV s q r)

def Rail.armed (x : Rail) (l : Level) : Bool := if isUv l then x.uvArmed else x.ovArmed

def isFault : Level → Bool
  | .uvFault | .ovFault | .pgLoss => true
  | _ => false

/-! ## Steps (R283, R284) -/

def stepType (w : Nat) : Nat := bits w 28 4
def stepTarget (w : Nat) : Nat := bits w 24 4
def stepRail (w : Nat) : Fin 16 := ⟨stepTarget w % 16, Nat.mod_lt _ (by decide)⟩
def stepOut (w : Nat) : Fin 8 := ⟨stepTarget w % 8, Nat.mod_lt _ (by decide)⟩

/-- The step a running list is at, where no wait is in progress; `some 0` is its END. -/
def stepNow (x : Seq) : Option Nat := if x.kind = .none ∨ x.wait.isSome then none else some (x.list[x.step]?.getD 0)

/-- The step ends on this cycle, and the next begins on the next. -/
def stepDone (q : Fin 9) (s : State) : State :=
  updSeq q (fun x => { x with step := x.step + 1, stepAt := s.clk.cycles + 1, wait := none }) s

/-- A step that names a retained rail ends at once in the list of a thermal shutdown (R297). -/
def passed (s : State) (q : Fin 9) (r : Fin 16) : Bool :=
  let x := s.sq.get q
  q == sSelf && x.retainDown && x.kind == .down && getN s (Obj.railRetain r.val) == 1

/-- The end of a wait arms the UV levels of its rail, in an up list after the rail's ENABLE (R281). -/
def armWaited (q : Fin 9) (r : Fin 16) (s : State) : State :=
  if (s.sq.get q).kind = .up then updRail q r (fun y => if y.enabled then { y with uvArmed := true } else y) s else s

/-- A step of the given type, taken on its cycle. -/
def atStep (q : Fin 9) (ty : Nat) (f : Nat → State → State) (s : State) : Out :=
  match stepNow (s.sq.get q) with
  | none => .next s
  | some w => if stepType w = ty ∧ w ≠ 0 then .next (f w (tickTo (s.sq.get q).stepAt s)) else .next s

/-- ENABLE drives the rail's enable high; that of a rail whose nominal is 0 stays low (R277). -/
def doEnable (q : Fin 9) (w : Nat) (s : State) : State :=
  stepDone q (updRail q (stepRail w) (fun y =>
    if y.enabled || getN s (Obj.railNominalV (railNo q (stepRail w))) == 0 then y else { y with enabled := true }) s)

def doDisable (q : Fin 9) (w : Nat) (s : State) : State :=
  if passed s q (stepRail w) then stepDone q s
  else stepDone q (updRail q (stepRail w) (fun y => { y.disarmUv with enabled := false }) s)

/-- STEP_ENABLE, STEP_DISABLE. -/
def execStepEnable (q : Fin 9) (s : State) : Out := atStep q 1 (doEnable q) s
def execStepDisable (q : Fin 9) (s : State) : Out := atStep q 2 (doDisable q) s

def waitDue (s : State) (q : Fin 9) (w : Nat) : Nat :=
  let t := bits w 0 22
  let n := railNo q (stepRail w)
  s.clk.cycles + (if t ≠ 0 then usCycles t else if bitSet w 23 then msCycles (getN s (Obj.riseMs n)) else msCycles (getN s (Obj.dischargeMs n)))

/-- A falling wait on a rail that collapsed ends at once (R295). -/
def fallsAtOnce (s : State) (q : Fin 9) (r : Fin 16) (rising : Bool) : Bool := !rising && ((s.sq.get q).rails.get r).collapsed

def pgMet (rising pg : Bool) : Bool := pg == rising

/-- WAIT_LEVEL: at or above UV_WARN, or below OFF. -/
def levelMet (s : State) (q : Fin 9) (r : Fin 16) (rising : Bool) (v : Rat) : Bool :=
  if rising then decide (threshold s q r Obj.uvWarnR ≤ v) else decide (v < threshold s q r Obj.offLevelR)

def seePg (q : Fin 9) (r : Fin 16) (pg : Bool) (s : State) : State := updRail q r (fun y => { y with pgIn := pg }) s

def doWaitPg (q : Fin 9) (pg : Bool) (w : Nat) (s : State) : State :=
  let r := stepRail w
  let up := bitSet w 23
  if passed s q r then stepDone q s
  else if pgMet up pg || fallsAtOnce s q r up then stepDone q (armWaited q r (seePg q r pg s))
  else updSeq q (fun x => { x with wait := some (.pg r.val up (waitDue s q w)) }) (seePg q r pg s)

def doWaitLevel (q : Fin 9) (v : Rat) (w : Nat) (s : State) : State :=
  let r := stepRail w
  let up := bitSet w 23
  if passed s q r then stepDone q s
  else if levelMet s q r up v || fallsAtOnce s q r up then stepDone q (armWaited q r s)
  else updSeq q (fun x => { x with wait := some (.level r.val up (waitDue s q w)) }) s

def doWaitTime (q : Fin 9) (w : Nat) (s : State) : State :=
  updSeq q (fun x => { x with wait := some (.time (s.clk.cycles + usCycles (bits w 0 24))) }) s

def doOut (q : Fin 9) (high : Bool) (w : Nat) (s : State) : State :=
  stepDone q (updSeq q (fun x => { x with out := vupd x.out (stepOut w) (fun _ => high) }) s)

/-- The wait steps; the operand is the input on the step's first cycle. -/
def execStepWaitPg (q : Fin 9) (pg : Bool) (s : State) : Out := atStep q 3 (doWaitPg q pg) s
def execStepWaitTime (q : Fin 9) (s : State) : Out := atStep q 4 (doWaitTime q) s
def execStepWaitLevel (q : Fin 9) (v : Rat) (s : State) : Out := atStep q 5 (doWaitLevel q v) s
def execStepAssert (q : Fin 9) (s : State) : Out := atStep q 6 (doOut q true) s
def execStepDeassert (q : Fin 9) (s : State) : Out := atStep q 7 (doOut q false) s

/-! ## The end of a list -/

/-- END of an up list: the PG window starts, and the rails the list did not wait on are armed (R281, R292). -/
def upEnds (q : Fin 9) (s : State) : State :=
  let cy := s.clk.cycles
  setSeq q .pgWindow (updSeq q (fun x => { x.endList with
    pgE0 := cy
    pgFrom := cy
    pgDirty := false
    rails := x.rails.map (fun r => if r.enabled then { r with uvArmed := true } else r) }) s)

/-- Every output low; a thermal shutdown keeps the retained self rails. -/
def selfLow (s : State) : State :=
  let x := s.sq.get sSelf
  let keep (r : Fin 16) : Bool := x.retainDown && getN s (Obj.railRetain r.val) == 1
  forAll 16 (fun r s => if keep r then s else updRail sSelf r (fun y => { y with enabled := false }) s) s

/-- The LPDDR4X rails are 2 and 3 (18 Table 18.8): without them its contents are gone. -/
def memAfterDown (s : State) : State :=
  let x := s.sq.get sSelf
  if (x.rails.get 2).enabled && (x.rails.get 3).enabled then s
  else setN { s with mem := { s.mem with st := .untrained, retained := false } } Obj.memRetained 0

/-- The part after S_SELF's down list (11 Table 11.2, R296): SAFE of cause 2 and THERMAL_SHUTDOWN stay, as does SAFE through the
list of a thermal shutdown, but the loss of the input (01 R34) and the fourth fault of a restart (R296) end a thermal shutdown
too. -/
def partAfterDown (why : Nat) (s : State) : State :=
  match s.part.st with
  | .boot | .ready | .run => enterPart .standby s
  | .safe =>
    if s.part.safeCause = .sorghumOt ∨ why = 2 then s
    else enterPart .standby { s with part := { s.part with safeCause := .none }, heat := { s.heat with shut := false } }
  | .thermalShutdown =>
    if why = 1 ∨ why = 3 ∨ (why = 0 ∧ (s.sq.get sSelf).exhausted = true) then
      enterPart .standby { s with heat := { s.heat with restartDue := none, restarting := false, shut := false } }
    else s
  | _ => s

/-- END of S_SELF's down list. -/
def selfDownEnd (s : State) : State :=
  let x := s.sq.get sSelf
  let why := x.afterDown
  let s1 := memAfterDown (selfLow s)
  let s2 := setSeq sSelf .idle (updSeq sSelf (fun y => { y.endList.disarm with
    afterDown := 0
    upAfter := false
    retryDue := if why = 0 ∧ x.exhausted = false then some (s.clk.cycles + sCycles 1) else none }) s1)
  let s3 := partAfterDown why s2
  let s4 := if why = 1 then b0Open s3 else s3
  if x.upAfter then selfUp s4 else s4

/-- END of a down or emergency list. -/
def downEnds (q : Fin 9) (s : State) : State :=
  match accelOfSeq q with
  | some a => enterOffWait q (dropDemand a (updSeq q (fun x => { x.low with endSnap := some ⟨x.rails, x.out, s.br.get (branchOf a)⟩ }) s))
  | none => selfDownEnd s

/-- STEP_END. -/
def execStepEnd (q : Fin 9) (s : State) : Out := noted <|
  let x := s.sq.get q
  if stepNow x = some 0 then
    let s0 := tickTo x.stepAt s
    if x.kind = .up then .next (upEnds q s0) else .next (downEnds q s0)
  else .next s

/-! ## The end of a wait (R284, R295) -/

/-- The rail a wait is on, its direction and its end. -/
def Wait.due : Wait → Nat
  | .pg _ _ d => d
  | .time d => d
  | .level _ _ d => d

def finRail (n : Nat) : Fin 16 := ⟨n % 16, Nat.mod_lt _ (by decide)⟩

/-- WAIT_CONDITION_MET: `v` and `pg` are the rail's voltage and power-good input. -/
def execWaitConditionMet (q : Fin 9) (v : Rat) (pg : Bool) (s : State) : Out :=
  match (s.sq.get q).wait with
  | some (.pg r up _) => if pgMet up pg then .next (stepDone q (armWaited q (finRail r) (seePg q (finRail r) pg s))) else .next s
  | some (.level r up _) =>
    if levelMet s q (finRail r) up v then .next (stepDone q (armWaited q (finRail r) s)) else .next s
  | _ => .next s

/-- A fault on a rail or on the sequencer itself: a trigger of an accelerator, or a fault of S_SELF. -/
def seqFault (q : Fin 9) (code rail : Nat) (s : State) : State :=
  match accelOfSeq q with
  | some a => trigger a code rail s
  | none => selfFault code rail s

/-- A rail has not fallen in its discharge time: the branch demand is removed and cause 32 counted (R295). -/
def noDischarge (q : Fin 9) (r : Fin 16) (s : State) : State :=
  let s1 := raiseRail .railNoDischarge q r (updRail q r (fun y => { y with noDischarge := true }) s)
  match accelOfSeq q with
  | none => noteSeq q 32 r.val s1
  | some a =>
    let x := s.br.get (branchOf a)
    if x.demand || x.st.live then countFault a (noteSeq q 32 r.val (dropDemand a s1)) else s1

/-- A wait timed out. -/
def timedOut (q : Fin 9) (r : Fin 16) (up : Bool) (s : State) : State :=
  match (s.sq.get q).kind with
  | .up => seqFault q 4 r.val (raiseRail .upTimeout q r s)
  | .down => stepDone q (if up then raiseRail .downWaitTimeout q r s else noDischarge q r s)
  | _ => stepDone q s

/-- WAIT_TIMEOUT. -/
def execWaitTimeout (q : Fin 9) (s : State) : Out := noted <|
  match (s.sq.get q).wait with
  | some (.pg r up d) => .next (timedOut q (finRail r) up (tickTo d s))
  | some (.level r up d) => .next (timedOut q (finRail r) up (tickTo d s))
  | _ => .next s

/-- WAIT_TIME_EXPIRY. -/
def execWaitTimeExpiry (q : Fin 9) (s : State) : Out :=
  match (s.sq.get q).wait with
  | some (.time d) => .next (stepDone q (tickTo d s))
  | _ => .next s

/-! ## The PG window (R292) -/

/-- PGOOD rises; S_SELF's is the release of main-die reset (R296). -/
def pgClose (q : Fin 9) (s : State) : State :=
  let s1 := setSeq q .on (updSeq q (fun x => { x with pgood := true }) s)
  if q = sSelf && s1.part.reset then releaseMain { s1 with heat := { s1.heat with restarting := false, shut := false } } else s1

/-- A condition held PGOOD back and has ended: the window restarts from that cycle. -/
def pgRestart (q : Fin 9) (at_ : Nat) (s : State) : State :=
  let s1 := inc32 (raiseSeq .pgDeglitch q s) (Obj.seqPgDeglitches q.val)
  updSeq q (fun x => { x with pgFrom := max x.pgFrom at_, pgDirty := (x.rails.toList.any (fun r => r.running.any (fun p => isFault p.1))) }) s1

/-- A level is judged while it is armed, on a rail in use (R277, Table 9.1). -/
def levelJudged (s : State) (q : Fin 9) (r : Fin 16) (l : Level) : Bool :=
  ((s.sq.get q).rails.get r).armed l && getN s (Obj.railNominalV (railNo q r)) != 0 &&
    (l != .pgLoss || getN s (Obj.pgUsed (railNo q r)) == 1)

/-- The conditions that run on the closing cycle and are judged. -/
def pgRunning (s : State) (q : Fin 9) (running : List (Fin 16 × Level × Nat)) : List (Fin 16 × Level × Nat) :=
  running.filter (fun p => isFault p.2.1 && levelJudged s q p.1 p.2.1)

/-- The deglitch of a condition that began in the cycle `at_` runs. -/
def startDeglitch (l : Level) (at_ : Nat) (r : Rail) : Rail :=
  { r with running := if r.running.any (fun p => p.1 == l) then r.running else r.running ++ [(l, at_)] }

/-- The length of a level's deglitch, in Rye cycles (Table 9.1). -/
def deglitchOf (s : State) (q : Fin 9) (r : Fin 16) : Level → Nat
  | .uvFault | .pgLoss | .thermtrip => usCycles (levelN s (Obj.uvFaultDgUs (railNo q r)))
  | .uvWarn => usCycles (levelN s (Obj.uvWarnDgUs (railNo q r)))
  | .ovWarn => usCycles (levelN s (Obj.ovWarnDgUs (railNo q r)))
  | .ovFault => usCycles (levelN s (Obj.ovFaultDgUs (railNo q r)))

/-- The clock moves to the end of a level's deglitch: from the cycle in which it began to run, or else from `since` (R280). -/
def tickDeglitch (q : Fin 9) (r : Fin 16) (l : Level) (since : Nat) (s : State) : State :=
  let at_ := match ((s.sq.get q).rails.get r).running.find? (fun p => p.1 == l) with
    | some p => p.2
    | none => since
  tickTo (at_ + deglitchOf s q r l) s

/-- PG_WINDOW_CLOSE: `running` are the deglitches running on the closing cycle, with the cycles they began in, `trip` the cycles
for which THERMTRIP_An_N, low then, stays low (25 and more: until its own deglitch expires). -/
def execPgWindowClose (q : Fin 9) (running : List (Fin 16 × Level × Nat)) (trip : Nat) (s : State) : Out := noted <|
  let x := s.sq.get q
  if x.st ≠ .pgWindow ∨ x.pgDirty = true then .next s
  else
    let s0 := tickTo (x.pgFrom + usCycles (getN s (Obj.pgWindowUs q.val))) s
    let run := pgRunning s0 q running
    let s1 := updSeq q (fun y => { y with pgDirty := true }) (forEach run (fun p => updRail q p.1 (startDeglitch p.2.1 p.2.2)) s0)
    if run = [] ∧ trip = 0 then .next (pgClose q s0)
    else if 0 < trip ∧ trip < 25 then .next (pgRestart q (s0.clk.cycles + trip) s1)
    else .next s1

/-- PG_TIMEOUT. -/
def execPgTimeout (q : Fin 9) (s : State) : Out := noted <|
  let x := s.sq.get q
  if x.st ≠ .pgWindow then .next s
  else .next (seqFault q 5 0xFF (raiseSeq .pgTimeout q (tickTo (x.pgE0 + msCycles (getN s (Obj.pgLimitMs q.val))) s)))

/-! ## Levels in judgement (R280, R282, R295) -/

def dropRunning (q : Fin 9) (r : Fin 16) (l : Level) (s : State) : State :=
  updRail q r (fun y => { y with running := y.running.filter (fun p => p.1 != l) }) s

/-- An early collapse in DOWN (R295). -/
def collapse (q : Fin 9) (r : Fin 16) (s : State) : State :=
  raiseRail .railEarlyCollapse q r (updRail q r (fun y => { y.disarmUv with earlyCollapse := true, collapsed := true }) s)

/-- The sequencer was in DOWN before this cycle: a fault of the cycle that brought it there comes before the off order (R289). -/
def inDown (s : State) (q : Fin 9) : Bool :=
  let x := s.sq.get q
  x.st == .down && !(x.wasAt == s.clk.cycles && x.was.active && x.was != .down)

/-- A fault level's deglitch has expired. -/
def levelFault (q : Fin 9) (r : Fin 16) (l : Level) (s : State) : State :=
  let down := inDown s q
  match l with
  | .ovFault => seqFault q 2 r.val (raiseRail .railOvFault q r (updRail q r (fun y => { y with ovFault := true }) s))
  | .pgLoss => if down then collapse q r s else seqFault q 3 r.val (raiseRail .railPgLost q r s)
  | _ => if down then collapse q r s else seqFault q 1 r.val (raiseRail .railUvFault q r (updRail q r (fun y => { y with uvFault := true }) s))

/-- LEVEL_DEGLITCH_EXPIRY: the condition has been present on every cycle of its deglitch, which began in the cycle `since` where
the state does not show it running. -/
def execLevelDeglitchExpiry (q : Fin 9) (r : Fin 16) (l : Level) (v : Rat) (since : Nat) (s : State) : Out := noted <|
  let x := (s.sq.get q).rails.get r
  if !(levelJudged s q r l) || !(levelShows s q r l v) then .next s
  else
    let s0 := tickDeglitch q r l since s
    let s1 := if l = .pgLoss then seePg q r false s0 else s0
    let s2 := dropRunning q r l s1
    match l with
    | .uvWarn => if x.uvWarn then .next s2 else .next (raiseRail .railUvWarn q r (updRail q r (fun y => { y with uvWarn := true }) s2))
    | .ovWarn => if x.ovWarn then .next s2 else .next (raiseRail .railOvWarn q r (updRail q r (fun y => { y with ovWarn := true }) s2))
    | l => .next (levelFault q r l s2)

/-- A fault condition has ended before its deglitch: in the PG window it restarts, and in ON it is a PG_DEGLITCH (R292). -/
def faultEnds (q : Fin 9) (s : State) : State :=
  match (s.sq.get q).st with
  | .pgWindow => pgRestart q s.clk.cycles s
  | .on => inc32 (raiseSeq .pgDeglitch q s) (Obj.seqPgDeglitches q.val)
  | _ => s

/-- THERMTRIP_An_N is high again: after less than 1 µs low its condition has ended as any fault condition does, after more its
trip stands (R292). -/
def tripEnds (q : Fin 9) (s : State) : State :=
  if (s.sq.get q).thermtripN then faultEnds q s else updSeq q (fun x => { x with thermtripN := true }) s

/-- LEVEL_CONDITION_END: the condition has ended; a fault condition that ended before its deglitch is a PG_DEGLITCH. With level
`thermtrip` it is THERMTRIP_An_N of the sequencer that has gone high; S_SELF has no such input. -/
def execLevelConditionEnd (q : Fin 9) (r : Fin 16) (l : Level) (v : Rat) (s : State) : Out :=
  if l = .thermtrip then .next (if s.clk.running && q != sSelf then tripEnds q s else s)
  else if !(levelJudged s q r l) || !(levelEnds s q r l v) then .next s
  else
    let s1 := dropRunning q r l (if l = .pgLoss then seePg q r true s else s)
    match l with
    | .uvWarn => .next (updRail q r (fun y => { y with uvWarn := false }) s1)
    | .ovWarn => .next (updRail q r (fun y => { y with ovWarn := false }) s1)
    | _ => .next (faultEnds q s1)

/-! ## THERMTRIP, OFF_WAIT and retries -/

/-- THERMTRIP: low for 1 µs since the cycle `since`, the emergency list and the thermal hold (10 R308). -/
def execThermtrip (a : Fin 8) (since : Nat) (s : State) : Out :=
  if !s.clk.running then .next s
  else
    let s := stands since (usCycles 1) s
    let s1 := updSeq (seqOf a) (fun x => { x with thermtripN := false }) s
    let s2 := updAcc a (fun x => { x with thermalHold := true, tripAt := s.clk.cycles }) s1
    .next (trigger a 6 0xFF (raiseSeq .thermtrip (seqOf a) s2))

/-- OFF_WAIT_EXPIRY: T_OFF_MIN_MS since the entry. -/
def execOffWaitExpiry (q : Fin 9) (s : State) : Out :=
  let x := s.sq.get q
  if x.st ≠ .offWait then .next s
  else .next (setSeq q .idle (updSeq q Seq.disarm (tickTo (x.offCycle + msCycles (getN s (Obj.tOffMinMs q.val))) s)))

/-- S_SELF_RETRY. -/
def execSSelfRetry (s : State) : Out :=
  match (s.sq.get sSelf).retryDue with
  | some d => .next (selfUp (updSeq sSelf (fun x => { x with retryDue := none }) (tickTo d s)))
  | none => .next s

/-! ## Admission (R287, Table 9.6) -/

/-- The earliest admission, in Rye cycles. -/
def earliest (s : State) (a : Fin 8) : Option Nat :=
  let x := s.sq.get (seqOf a)
  match s.pow.trayOnCycle with
  | none => none
  | some t =>
    let so := msCycles (getN s (Obj.startOffsetMs a.val))
    let tm := msCycles (getN s (Obj.tOffMinMs a.val))
    match x.lastOff with
    | .none => some (t + so)
    | .trayWide => some (max (x.offCycle + tm + so) (t + so))
    | .held => some (max (max x.heldEnd (x.offCycle + tm)) (t + so))
    | .other => some (if x.offCycle < t then t + so else x.offCycle + tm)

/-- The conditions of R287 but for the time. -/
def admissible (s : State) (a : Fin 8) : Bool :=
  let b := branchOf a
  let x := s.acc.get a
  (s.sq.get (seqOf a)).st == .idle && x.effective && getN s (Obj.branchEnable b.val) == 1 && (s.br.get b).en &&
    (s.br.get 0).st == .on && (s.br.get b).st == .off && (s.sq.get (seqOf a)).thermtripN && !x.thermalHold && !x.leakHold &&
    !x.quarantined && s.part.st != .safe

/-- Admission: the branch is demanded, sticky flags are cleared, the thermal cap starts at 100 (10 R309). -/
def admitAccel (a : Fin 8) (s : State) : State :=
  let q := seqOf a
  let s1 := updBr (branchOf a) (fun x => { x with demand := true }) s
  let s2 := updSeq q (fun x => { x with
    rails := x.rails.map (fun r => { r with uvFault := false, ovFault := false, earlyCollapse := false, noDischarge := false }) }) s1
  setSeq q .admission (updAcc a (fun x => { x with capPct := 100 }) s2)

/-- SEQ_ADMISSION. S_SELF has none. -/
def execSeqAdmission (q : Fin 9) (s : State) : Out :=
  match accelOfSeq q with
  | none => .next s
  | some a =>
    match earliest s a with
    | none => .next s
    | some e => if admissible s a then .next (admitAccel a (tickTo e s)) else .next s

/-! ## Lists as written (R285) -/

def allWords : List Byte → List Nat
  | a :: b :: c :: d :: t => ofLe [a, b, c, d] :: allWords t
  | _ => []

/-- One step word that is not END. -/
def wordOk (s : State) (q : Fin 9) (k : SeqList) (w : Nat) : Bool :=
  let t := stepType w
  let used := getN s (Obj.railNominalV (railNo q (stepRail w))) != 0
  let kindOk := match k with
    | .emergency => t == 2 || t == 4 || t == 7
    | _ => true
  kindOk &&
    (if t = 1 ∨ t = 2 then used && bits w 0 24 == 0
     else if t = 3 then used && getN s (Obj.pgUsed (railNo q (stepRail w))) == 1 && !(bitSet w 22)
     else if t = 4 then stepTarget w == 0 && decide (1 ≤ bits w 0 24) && decide (bits w 0 24 ≤ 10000000)
     else if t = 5 then used && !(bitSet w 22)
     else if t = 6 ∨ t = 7 then decide (q.val < 8) && decide (stepTarget w ≤ 7) && bits w 0 24 == 0
     else false)

/-- Words up to the first END are steps, and every word after an END is 0. -/
def listOk (s : State) (q : Fin 9) (k : SeqList) (bs : List Byte) : Bool :=
  let ws := wordsOf bs
  bs.length % 4 == 0 && ws.all (wordOk s q k) && ((allWords bs).drop ws.length).all (· == 0) &&
    (k != .emergency || decide (((ws.filter (fun w => stepType w == 4)).map (fun w => bits w 0 24)).sum ≤ 4800))

def listKey (q : Fin 9) : SeqList → Nat
  | .up => Blob.seqUpList q.val
  | .down => Blob.seqDownList q.val
  | _ => Blob.seqEmergList q.val

def listHome (q : Fin 9) (k : SeqList) (bs : List Byte) (s : State) : Nat := if listOk s q k bs then 0 else 0x00040902

/-- SEQ_LIST_WRITE: a running list keeps its copy. -/
def execSeqListWrite (au : Auth) (q : Fin 9) (which : SeqList) (bytes : List Byte) (s : State) : Out :=
  if which = .none then .next s
  else .next (writeStep au (listKey q which) (.bytes bytes) (listHome q which bytes) (fun _ => storeBlob (listKey q which) bytes) s)

end Sys2Proof.Machine
end

