-- ==== Sys2Proof/Machine/Heat.lean ====
section
/-! DEFINITION. Heat, coolant and leaks: the part's own temperature and throttling (10 R300 to R307), accelerator temperature
(R308, R309), cooling hardware (R310 to R313) and leaks (R314 to R318). -/
namespace Sys2Proof.Machine

open Sys2Proof

def heatSrc : Nat := 0x3000
def setHeat (f : Heat → Heat) (s : State) : State := { s with heat := f s.heat }

/-! ## The part's own temperature (R300, R301) -/

def maxRat (d : Rat) (l : List Rat) : Rat := l.foldl max (l.headD d)

/-- The warning of T_MAIN, judged by the thermal controller of the main die. -/
def warnMain (s : State) : State :=
  let t := s.heat.tMain
  if s.part.reset then s
  else if !s.heat.mainWarn && decide (95 < t) then
    raiseMain .partTempWarn heatSrc (openDetail .partTempWarn 0) (setHeat (fun h => { h with mainWarn := true }) s)
  else if s.heat.mainWarn && decide (t < 93) then setHeat (fun h => { h with mainWarn := false }) s
  else s

/-- The warning of T_SORGHUM, judged by Rye. -/
def warnSorghum (s : State) : State :=
  let t := s.heat.tSorghum
  if !s.heat.sorghumWarn && decide (135 < t) then
    raiseRye .sorghumTempWarn heatSrc (openDetail .sorghumTempWarn 0) (setHeat (fun h => { h with sorghumWarn := true }) s)
  else if s.heat.sorghumWarn && decide (t < 130) then setHeat (fun h => { h with sorghumWarn := false }) s
  else s

/-- °C of a reading, in quarters of a degree (R300). -/
def quarterC (q : Int) : Rat := mkRat q 4

/-- The readings of a conversion are taken: the highest powered one of each die (R301). -/
def takeReadings (main : List (Option Int)) (sorghum : List Int) (h : Heat) : Heat :=
  let t := maxRat h.tMain ((main.take 72).filterMap (·.map quarterC))
  { h with
    mainSensors := main.take 72
    sorghumSensors := sorghum.take 8
    crossed := decide (100 < t) && (h.crossed || decide (h.tMain ≤ 100))
    tMain := t
    tSorghum := maxRat h.tSorghum ((sorghum.take 8).map quarterC) }

/-- A warning of T_MAIN or T_SORGHUM begins or ends, or T_MAIN rises above 100 °C. -/
def crossesAny (s : State) : Bool :=
  let h := s.heat
  (!s.part.reset && ((!h.mainWarn && decide (95 < h.tMain)) || (h.mainWarn && decide (h.tMain < 93)) || h.crossed)) ||
    (!h.sorghumWarn && decide (135 < h.tSorghum)) || (h.sorghumWarn && decide (h.tSorghum < 130))

/-- TEMP_CONVERSION: the readings of the 72 sensors of the main die (none for one that is not powered) and of Sorghum's 8. A
threshold crossed is acted on once the reading has stood beyond it for 10 µs (R301). -/
def execTempConversion (main : List (Option Int)) (sorghum : List Int) (s : State) : Out :=
  if !s.clk.running then .next s
  else
    let s1 := setHeat (takeReadings main sorghum) s
    .next (warnSorghum (warnMain (if crossesAny s1 then stands s1.clk.cycles (usCycles 10) s1 else s1)))

/-! ## Throttling (R302, R303) -/

/-- L is formed again; a change sets the cap and the skip divisor, raises ENGINE_THROTTLE and forms a plan. -/
def settleLevel (s : State) : State :=
  let l := max s.heat.lt (getN s Obj.engineCapLevel)
  if l = s.heat.lLevel then s
  else
    let s1 := setHeat (fun h => { h with lLevel := l }) s
    let unmet := match imageNow s1 with | some x => (throttleOf s1 x).2.2 | none => false
    noteDegraded (recompute [] (raiseMain .engineThrottle heatSrc (l + flagBit unmet 8) s1))

/-- At least n cycles since a mark, or no mark yet. -/
def since (s : State) (m : Option Nat) (n : Nat) : Bool :=
  match m with
  | some c => decide (c + n ≤ s.clk.cycles)
  | none => true

/-- One evaluation of LT. -/
def evalLt (h : Heat) (rise fall : Bool) (cy : Nat) : Heat :=
  if 100 < h.tMain then
    (if rise && decide (h.lt < 7) then { h with lt := h.lt + 1, lastRise := some cy, lastChange := some cy } else h)
  else if h.tMain < 95 then
    (if fall && decide (0 < h.lt) then { h with lt := h.lt - 1, lastChange := some cy } else h)
  else h

/-- The next point of the 1 ms grid that started at main-die reset release. -/
def gridPoint (s : State) : Nat := s.heat.gridFrom + ((s.clk.cycles - s.heat.gridFrom) / msCycles 1 + 1) * msCycles 1

/-- THERMAL_EVAL: at once on an upward crossing of 100 °C, else on the 1 ms grid. -/
def execThermalEval (s : State) : Out :=
  if s.part.reset then .next s
  else
    let s0 := if s.heat.crossed then s else tickTo (gridPoint s) s
    let rise := since s0 s.heat.lastRise (msCycles 10)
    let fall := since s0 s.heat.lastChange (msCycles 100)
    .next (settleLevel (setHeat (fun h => evalLt { h with crossed := false } rise fall s0.clk.cycles) s0))

/-- ENGINE_CAP_LEVEL_WRITE. -/
def execEngineCapLevelWrite (au : Auth) (v : Nat) (s : State) : Out :=
  .next (writeStep au Obj.engineCapLevel.key (.num v) noHome (fun _ s => settleLevel (storeNum Obj.engineCapLevel v s)) s)

/-! ## Thermal shutdown and restart (R304, R305) -/

/-- The sensor ring is supplied: self rail 0 is on, or the main die runs, whichever rails its lists name. -/
def ringOn (s : State) : Bool := !s.part.reset || ((s.sq.get sSelf).rails.get 0).enabled

def minuteDue (s : State) : Option Nat := if s.heat.retained then none else some (s.clk.cycles + sCycles 60)

/-- The hot line is asserted: main-die reset, S_SELF's down list and the state. SAFE outranks it (01 R34). -/
def shutDown (t : Rat) (kept : Bool) (s : State) : State :=
  let counts := s.part.st == .boot || s.part.st == .ready || s.part.st == .run
  let s1 := raiseRye .thermalShutdown heatSrc (openDetail .thermalShutdown 0)
    (setHeat (fun h => { h with tMain := t, retained := getN s (Obj.railRetain 0) == 1, restarting := false, shut := true }) s)
  let s2 := if counts then inc32 s1 Obj.thermalShutdowns else s1
  let s3 := setHeat (fun h => { h with restartDue := minuteDue s2 }) s2
  let s4 := selfDown 2 kept (mainDown kept s3)
  if s4.part.st = .safe then s4 else enterPart .thermalShutdown s4

/-- The restart is abandoned; it is the same shutdown. -/
def abandonRestart (t : Rat) (kept : Bool) (s : State) : State :=
  let s1 := raiseRye .thermalRestartAbandoned heatSrc (openDetail .thermalRestartAbandoned 0)
    (setHeat (fun h => { h with tMain := t, restarting := false, restartDue := minuteDue s }) s)
  selfDown 2 kept s1

/-- THERMAL_SHUTDOWN: the hot line asserted for 10 µs since the cycle `since`; `kept` says that the memory controller confirmed
self-refresh. -/
def execThermalShutdown (t : Rat) (kept : Bool) (since : Nat) (s : State) : Out := noted <|
  if !s.clk.running || decide (t < 115) || !(ringOn s) then .next s
  else
    let s0 := stands since (usCycles 10) s
    if s.part.st = .thermalShutdown ∨ (s.part.st = .safe ∧ s.heat.shut = true) then .next (if s.heat.restarting then abandonRestart t kept s0 else s0)
    else .next (shutDown t kept s0)

/-- Rye waits to restart the main die after a thermal shutdown. -/
def awaitsRestart (s : State) : Bool :=
  (s.part.st == .thermalShutdown || (s.part.st == .safe && s.part.safeCause != .sorghumOt && s.heat.shut)) &&
    !s.heat.restarting && (s.sq.get sSelf).st == .idle

/-- THERMAL_RESTART: 10 s below 90 °C since the cycle `since`, or 60 s after the shutdown where self rail 0 was not retained. -/
def execThermalRestart (since : Nat) (s : State) : Out :=
  if !s.clk.running || !(awaitsRestart s) then .next s
  else
    let s0 := match s.heat.restartDue with
      | some d => tickTo d s
      | none => stands since (sCycles 10) s
    .next (selfUp (setHeat (fun h => { h with restarting := true, restartDue := none }) s0))

/-! ## Sorghum over-temperature (R306, R307) -/

/-- SORGHUM_OT: T_SORGHUM at or above 150 °C for 10 µs since the cycle `since` (R301). B1 to B11 are latched, then B0. With no
valid RCB copy the part stays in STANDBY with every branch off (01 R36), and the event alone is recorded. -/
def execSorghumOt (t : Rat) (since : Nat) (s : State) : Out := noted <|
  if !s.clk.running || s.heat.sorghumOt || decide (t < 150) then .next s
  else
    let s0 := stands since (usCycles 10) s
    let s1 := raiseRye .sorghumOt heatSrc (openDetail .sorghumOt 0) (setHeat (fun h => { h with sorghumOt := true, tSorghum := t }) s0)
    if s.pow.rcbInvalid then .next s1
    else
    let s2 := forAll 12 (fun b s => if b = 0 then s else latchBr b .sorghumOt notLatched s) (forAll 8 withdrawAdmit s1)
    let s3 := latchBr 0 .sorghumOt notLatched s2
    .next (settleOuts (enterSafe .sorghumOt s3))

/-- SORGHUM_OT_END: below 125 °C for 60 s since the cycle `since`. With SORGHUM_OT_RESTART 1 B0's latch is cleared as a toggle
would, and so not while a branch behind it cannot open (08 R271). -/
def execSorghumOtEnd (t : Rat) (since : Nat) (s : State) : Out :=
  if !s.heat.sorghumOt || decide (125 ≤ t) then .next s
  else
    let s1 := setHeat (fun h => { h with sorghumOt := false, tSorghum := t }) (stands since (sCycles 60) s)
    let s2 := if s1.part.st = .safe ∧ s1.part.safeCause = .sorghumOt then
      settleOuts (enterPart .standby { s1 with part := { s1.part with safeCause := .none, safeFromRun := false } }) else s1
    if getN s2 Obj.sorghumOtRestart ≠ 1 then .next s2
    else if b0Blocked s2 then .next (raiseBr .branchToggleIgnored 0 s2)
    else .next (clearLatch 0 s2)

/-! ## Accelerator temperature (R308, R309) -/

def accelSrc (a : Fin 8) : Nat := 0x3020 + a.val

/-- The Fescue channel that judges a thermal hold: one that is used and has no sensor fault. -/
def holdChannel (s : State) (a : Fin 8) : Option (Fin 32) :=
  let src := getN s (Obj.accelTempSource a.val)
  if h : 0x0180 ≤ src ∧ src ≤ 0x019F then
    let c : Fin 32 := ⟨src - 0x0180, by omega⟩
    if getN s (Obj.tempChKind c.val) = 0 ∨ s.heat.chFault.get c = true then none else some c
  else none

/-- ACCEL_THERMAL_RELEASE: THERMTRIP_An_N is high, and ACCEL_HOLD_S has passed since the cycle `since`, from which the channel's
reading `t` has stayed below ACCEL_RESTART_C, or, with no channel to judge, from which the pin has been high. -/
def execAccelThermalRelease (a : Fin 8) (high : Bool) (t : Rat) (since : Nat) (s : State) : Out :=
  let s1 := updSeq (seqOf a) (fun x => { x with thermtripN := high }) s
  if !(s.acc.get a).thermalHold || !high then .next s1
  else
    let free (s : State) : State :=
      raiseRye .accelThermalRelease (accelSrc a) (openDetail .accelThermalRelease a.val) (updAcc a (fun x => { x with thermalHold := false }) s)
    let held (at_ : Nat) (s : State) : State := stands at_ (sCycles (getN s (Obj.accelHoldS a.val))) s
    match holdChannel s a with
    | some c =>
      let s2 := setHeat (fun h => { h with channels := vupd h.channels c (fun _ => some t) }) s1
      if t < getF s (Obj.accelRestartC a.val) then .next (free (held since s2)) else .next s2
    | none => .next (free (held (max since (s.acc.get a).tripAt) s1))

/-- The next value of the thermal cap at temperature t, with the time its step takes; none holds it. -/
def capStep (s : State) (a : Fin 8) (t : Rat) : Option (Nat × Nat) :=
  let p := (s.acc.get a).capPct
  let w := getF s (Obj.accelWarnC a.val)
  if w < t then some (msCycles 200, min p (max (p - 4) (getN s (Obj.accelLimitFloorPct a.val))))
  else if t < w - getF s (Obj.accelHystC a.val) then some (sCycles 1, min 100 (p + 2))
  else none

/-- ACCEL_CAP_STEP: the step for which temperature t has stood since the crossing, or since the step before. A crossing that no
conversion has shown is in the present cycle. -/
def execAccelCapStep (a : Fin 8) (t : Rat) (s : State) : Out :=
  if !(mainUp s) || getN s (Obj.accelTempSource a.val) == 0xFFFF then .next s
  else
    let s1 := seeTemp a t s
    match capStep s1 a t with
    | none => .next s1
    | some (n, p) =>
      let s0 := tickTo ((s1.acc.get a).tempAt + n) s1
      .next (recomputeCap a (updAcc a (fun x => { x with tempAt := s0.clk.cycles, capPct := p }) s0))

/-- The bus that takes the limit: 0 none. -/
def limitBus (s : State) (a : Fin 8) : Nat := bits (getN s (Obj.accelLimitBus a.val)) 28 4

/-- The exponent of LINEAR11 for w: the smallest one from -16 on whose mantissa of w fits 10 bits (PRESUMED, log 36). -/
def linearExp (w : Rat) : Int :=
  match (List.range 32).find? (fun k => decide (w * 65536 / (2 ^ k : Nat) < 1023)) with
  | some k => (k : Int) - 16
  | none => 15

/-- Watts as LINEAR11: a 5-bit exponent above an 11-bit mantissa, both in two's complement. -/
def linear11 (w : Rat) : Nat :=
  let e := linearExp w
  let m := if e < 0 then w * (2 ^ (-e).toNat : Nat) else w / (2 ^ e.toNat : Nat)
  (e % 32).toNat * 2048 + (m + 1 / 2).floor.toNat % 2048

/-- A limit's write: LINEAR11 to the PMBus address of ACCEL_LIMIT_BUS, or 16-bit watts over its AVSBus link (R309). -/
def limitWord (s : State) (a : Fin 8) (w : Rat) : LimitWrite :=
  let b := getN s (Obj.accelLimitBus a.val)
  { bus := limitBus s a
    link := bits b 24 4
    address := if limitBus s a = 1 then bits b 16 7 else 0
    cmd := getN s (Obj.accelLimitCmd a.val)
    data := if limitBus s a = 1 then linear11 w else min ((w + 1 / 2).floor.toNat) u16 }

/-- The accelerator acknowledged the write, or it is due again 10 ms later; the third failure is an event. -/
def limitWritten (a : Fin 8) (w : Rat) (ack : Bool) (s0 : State) : State :=
  let s := updAcc a (fun x => { x with limitSent := some (limitWord s0 a w) }) s0
  if ack then updAcc a (fun x => { x with limitInForce := some w, limitDue := none, limitTries := 0, limitRetryDue := none }) s
  else
    let n := (s.acc.get a).limitTries + 1
    let s1 := updAcc a (fun x => { x with limitTries := n, limitRetryDue := some (s.clk.cycles + msCycles 10) }) s
    if n = 3 then raiseMain .accelLimitWriteFailed (accelSrc a) (openDetail .accelLimitWriteFailed a.val) s1 else s1

/-- ACCEL_LIMIT_WRITE. -/
def execAccelLimitWrite (a : Fin 8) (ack : Bool) (s : State) : Out :=
  match (s.acc.get a).limitDue with
  | none => .next s
  | some w => if mainUp s && limitBus s a != 0 && (s.acc.get a).limitTries == 0 then .next (limitWritten a w ack s) else .next s

/-- ACCEL_LIMIT_RETRY. -/
def execAccelLimitRetry (a : Fin 8) (ack : Bool) (s : State) : Out :=
  match (s.acc.get a).limitDue, (s.acc.get a).limitRetryDue with
  | some w, some d => if mainUp s && limitBus s a != 0 then .next (limitWritten a w ack (tickTo d s)) else .next s
  | _, _ => .next s

/-! ## Cooling hardware (R312, R313) -/

def outOfFan (i : Fin 16) : Fin 24 := ⟨8 + i.val, by omega⟩

/-- Revolutions per minute of tach pulses per second (R312). -/
def tachRpm (s : State) (i : Fin 16) (hz : Rat) : Rat := 60 * hz / (getN s (Obj.tachPulses i.val) : Rat)

/-- L/min of flow pulses per second (R312). -/
def flowLpm (s : State) (i : Fin 12) (hz : Rat) : Rat := 60 * hz / getF s (Obj.flowKPulses i.val)

/-- FAN_FAULT: 2 s below TACH_MIN_RPM since the cycle `since`, at 20% demand or more; `hz` are the tach pulses per second. -/
def execFanFault (i : Fin 16) (hz : Rat) (since : Nat) (s : State) : Out :=
  let rpm := tachRpm s i hz
  let bad := mainUp s && getN s (Obj.tachMinRpm i.val) != 0 && decide (rpm < (getN s (Obj.tachMinRpm i.val) : Rat)) &&
    decide (20 ≤ (s.cool.outs.get (outOfFan i)).applied)
  let s1 := { s with cool := { s.cool with tach := vupd s.cool.tach i (fun _ => rpm), fanFault := vupd s.cool.fanFault i (fun _ => bad) } }
  if bad && !(s.cool.fanFault.get i) then
    .next (raiseMain .fanFault (0x3120) (openDetail .fanFault i.val) (stands since (sCycles 2) s1)) else .next s1

/-- COOLANT_FLOW_LOW: 2 s below FLOW_MIN_LPM since the cycle `since`; `hz` are the flow pulses per second. -/
def execCoolantFlowLow (i : Fin 12) (hz : Rat) (since : Nat) (s : State) : Out :=
  let lpm := flowLpm s i hz
  let bad := mainUp s && getF s (Obj.flowMinLpm i.val) != 0 && decide (lpm < getF s (Obj.flowMinLpm i.val))
  let s1 := { s with cool := { s.cool with flow := vupd s.cool.flow i (fun _ => lpm), flowLow := vupd s.cool.flowLow i (fun _ => bad) } }
  if bad && !(s.cool.flowLow.get i) then
    .next (raiseMain .coolantFlowLow (0x3123) (openDetail .coolantFlowLow i.val) (stands since (sCycles 2) s1)) else .next s1

/-- °C of a channel: by R265 from the resistance of an NTC, as measured for a diode. -/
def channelC (kind : Nat) (reading t : Rat) : Rat :=
  let ntc (r beta : Rat) : Rat := 1 / (1 / (29815 / 100) + realLn (reading / r) / beta) - 27315 / 100
  if kind = 2 then ntc 10000 3435 else if kind = 3 then ntc 100000 4250 else t

/-- TEMP_SENSOR_FAULT: the reading (V of a diode, Ω of an NTC) has been outside the limits of R265 for 100 µs since the cycle
`since`, or within them again; `t` is a diode's temperature. -/
def execTempSensorFault (c : Fin 32) (reading t : Rat) (since : Nat) (s0 : State) : Out :=
  let kind := getN s0 (Obj.tempChKind c.val)
  let s := if s0.heat.chFault.get c == sensorIn (decide (2 ≤ kind)) reading then stands since (usCycles 100) s0 else s0
  if !s0.clk.running || kind == 0 then .next s0
  else if sensorIn (decide (2 ≤ kind)) reading then
    let s1 := setHeat (fun h => { h with chFault := vupd h.chFault c (fun _ => false), channels := vupd h.channels c (fun _ => some (channelC kind reading t)) }) s
    .next (if s.heat.chFault.get c then raiseRye .tempSensorOk 0x3011 (openDetail .tempSensorOk c.val) s1 else s1)
  else
    let s1 := setHeat (fun h => { h with chFault := vupd h.chFault c (fun _ => true), channels := vupd h.channels c (fun _ => none) }) s
    .next (if s.heat.chFault.get c then s1 else raiseRye .tempSensorFault 0x3011 (openDetail .tempSensorFault c.val) s1)

/-! ## Leak channels (R314 to R316) -/

def upTo255 (n : Nat) (b : Bool) : Nat := if b then min (n + 1) 255 else 0

/-- A result counts for each condition it meets. -/
def LeakCh.count (r : Nat) (warn fault : Rat) (x : LeakCh) : LeakCh :=
  let v : Rat := (r : Rat)
  { x with
    r := r
    nFault := upTo255 x.nFault (decide (v < fault))
    nWarn := upTo255 x.nWarn (decide (v < warn))
    nOpen := upTo255 x.nOpen (decide (9000000 < r))
    nDry := upTo255 x.nDry (decide (3 / 2 * warn < v))
    nBack := upTo255 x.nBack (decide (3 / 2 * warn ≤ v) && decide (r ≤ 9000000)) }

/-- The result of a resistance: the range is 1 kΩ to 10 MΩ (R314). -/
def leakRange (ohm : Nat) : Nat := max 1000 (min ohm 10000000)

/-- LEAK_RESULT: the resistance of the millisecond, in Ω; a DISABLED channel is measured and not judged. -/
def execLeakResult (c : Fin 8) (ohm : Nat) (s : State) : Out :=
  if !s.clk.running then .next s
  else
    let s1 := enableLeak c s
    let r := leakRange ohm
    if (s1.cool.leaks.get c).st = .disabled then .next (updLeak c (fun x => { x with r := r }) s1)
    else .next (updLeak c (LeakCh.count r (getF s (Obj.leakWarnOhm c.val)) (getF s (Obj.leakFaultOhm c.val))) s1)

/-- Where LEAK_DG_MS results in a row take a channel. -/
def LeakCh.next (x : LeakCh) (dg : Nat) : Option LeakState :=
  match x.st with
  | .dry => if dg ≤ x.nFault then some .fault else if dg ≤ x.nWarn then some .warn else if dg ≤ x.nOpen then some .open else none
  | .open => if dg ≤ x.nFault then some .fault else if dg ≤ x.nWarn then some .warn else if dg ≤ x.nBack then some .dry else none
  | .warn => if dg ≤ x.nFault then some .fault else if dg ≤ x.nOpen then some .open else if dg ≤ x.nDry then some .dry else none
  | .fault => if dg ≤ x.nDry then some .dry else none
  | .disabled => none

/-! ## Zones (R317, R318) -/

def setZone (z : Fin 8) (v : ZoneState) (s : State) : State := { s with cool := { s.cool with zones := vupd s.cool.zones z (fun _ => v) } }

def zoneOf (s : State) (c : Fin 8) : Fin 8 := ⟨getN s (Obj.leakZone c.val) % 8, Nat.mod_lt _ (by decide)⟩

/-- A latched zone names the accelerator. -/
def leakNames (s : State) (a : Fin 8) : Bool :=
  (List.finRange 8).any (fun z => s.cool.zones.get z != .clear && bitSet (getN s (Obj.zoneAccels z.val)) a.val)

/-- PROTECTION and the leak hold of an accelerator follow the latched zones; the effective request follows them. -/
def settleLeak (a : Fin 8) (s : State) : State :=
  let off := leakNames s a
  settleReq a (updAcc a (fun x => { x with reqP := if off then .off else .none, leakHold := off }) s)

/-- A zone's fault latches or clears: valves, requests and holds follow. -/
def settleZones (s : State) : State := forAll 8 settleLeak (settleOuts s)

/-- A channel has entered FAULT; in a latched zone that is recorded only. -/
def leakFault (c : Fin 8) (s : State) : State :=
  let z := zoneOf s c
  let s1 := raiseRye .leakFault 0x3201 (openDetail .leakFault (8 * z.val + c.val)) s
  if s.cool.zones.get z = .clear then settleZones (setZone z .latched s1) else setZone z .latched s1

/-- A channel that leaves DRY ends a latched zone's being clearable. -/
def notDry (c : Fin 8) (s : State) : State :=
  if s.cool.zones.get (zoneOf s c) = .clearable then setZone (zoneOf s c) .latched s else s

/-- LEAK_STATE_CHANGE. -/
def execLeakStateChange (c : Fin 8) (s : State) : Out :=
  match (s.cool.leaks.get c).next (getN s Obj.leakDgMs) with
  | none => .next s
  | some dst =>
    let s1 := updLeak c (fun x => { x with st := dst, drySince := if dst = .dry then s.clk.cycles else x.drySince }) s
    match dst with
    | .warn => .next (raiseRye .leakWarn 0x3201 (openDetail .leakWarn c.val) (notDry c s1))
    | .open => .next (raiseRye .leakOpen 0x3201 (openDetail .leakOpen c.val) (notDry c s1))
    | .fault => .next (leakFault c s1)
    | _ => .next s1

/-- The channels of a zone that are judged. -/
def zoneChannels (s : State) (z : Fin 8) : List LeakCh :=
  ((List.finRange 8).filter (fun c => zoneOf s c == z && (s.cool.leaks.get c).st != .disabled)).map (s.cool.leaks.get ·)

def zoneDry (s : State) (z : Fin 8) : Bool :=
  (zoneChannels s z).all (fun x => x.st == .dry && decide (x.drySince + sCycles 60 ≤ s.clk.cycles))

/-- LEAK_ZONE_CLEARABLE. -/
def execLeakZoneClearable (z : Fin 8) (s : State) : Out :=
  if s.cool.zones.get z ≠ .latched ∨ (zoneChannels s z).any (fun x => x.st != .dry) = true then .next s
  else
    let due := ((zoneChannels s z).map (fun x => x.drySince + sCycles 60)).foldl max 0
    .next (setZone z .clearable (tickTo due s))

def clearZone (z : Fin 8) (_ : Count) (s : State) : State := if s.cool.zones.get z = .clear then s else settleZones (setZone z .clear s)

/-- LEAK_CLEAR: a write of the zone's number. -/
def execLeakClear (au : Auth) (z : Fin 8) (s : State) : Out :=
  .next (writeStep au Obj.leakClear.key (.num z.val) (fun s => if zoneDry s z then 0 else 0x00071001) (clearZone z) s)

end Sys2Proof.Machine
end

