-- ==== Sys2Proof/Machine/Memory.lean ====
section
/-! DEFINITION. LPDDR4X (14 R402 to R406), the physical map (R409), Husk regions (15 R438 to R441), sync cells and wait slots as
initiators write them (14 R424 to R427). -/
namespace Sys2Proof.Machine

open Sys2Proof

def memSrc : Nat := 0x5000
def setMem (f : Mem → Mem) (s : State) : State := { s with mem := f s.mem }

/-! ## Errors and refresh (R403, R404) -/

/-- MEM_CORRECTED_ERROR: counted; the corrected word is written back, so no contents change. -/
def execMemCorrectedError (s : State) : Out := .next (if s.mem.st = .ready then inc64 s Obj.memCeCount else s)

def granule (a : Nat) : Nat := a / 8 * 8

/-- A granule is found uncorrectable: poisoned, counted, its address latched. -/
def memUe (a : Nat) (s : State) : State :=
  let g := granule a
  let s1 := setMem (fun m => { m with poison := if m.poison.contains g then m.poison else m.poison ++ [g] }) s
  routeIrq 290 (raiseMain .memUe memSrc (openDetail .memUe g) (setN (inc32 s1 Obj.memUeCount) Obj.memUeAddr g))

/-- MEM_UE. -/
def execMemUe (addr : Nat) (s : State) : Out :=
  .next (if s.mem.st = .ready && decide (0x800000000 ≤ addr) && decide (addr < 0xB80000000) then memUe addr s else s)

/-- PATROL_SCRUB_PASS: a pass ends 24 h after it began. What it corrects is counted by its own command. -/
def execPatrolScrubPass (s : State) : Out :=
  if s.mem.st = .ready then
    let s0 := tickTo (s.mem.scrubFrom + sCycles 86400) s
    .next (inc32 (setMem (fun m => { m with scrubFrom := s0.clk.cycles }) s0) Obj.memScrubPasses)
  else .next s

/-- The group of channels that holds an address of LPDDR4X: 256-byte units alternate between the two (R402). -/
def groupOf (a : Nat) : Nat := a / 256 % 2

/-- LPDDR4X_REFRESH: at the doubled rate while the devices report more than 85 °C. -/
def execLpddr4xRefresh (hot : Bool) (s : State) : Out :=
  .next (if s.mem.st = .ready then setMem (fun m => { m with refreshed := m.refreshed + 1, refreshFast := hot }) s else s)

/-! ## The physical map (R409, Table 14.3, 03 Table 3.5) -/

/-- What an address lies in; `kept` are the LPDDR4X regions that the hardware fills, in the order of Table 14.1. -/
inductive Place
  | rom | sram | ram | nor
  | kept (r : Nat)
  | bank (t : Fin 68) (b word byte : Nat)
  | half (t : Fin 68) (h bundle byte : Nat)
  | status (t : Fin 68) (off : Nat)
  | page (p off : Nat)
  | nowhere
  deriving DecidableEq, Repr

def placeInTile (t : Fin 68) (off : Nat) : Place :=
  if off < 0x300000 then .bank t (off / 0x20000) (off % 0x20000 / 32) (off % 32)
  else if off < 0x340000 then .half t ((off - 0x300000) / 0x20000) (off % 0x20000 / 32) (off % 32)
  else if off < 0x341000 then .status t (off - 0x340000)
  else .nowhere

def tileWindow : Nat := 0x100000000
def pageWindow : Nat := 0x200000000

/-- LPDDR4X below the reserved top, without the 4 MiB of Table 14.1 that are reserved. -/
def inLpddr (a : Nat) : Bool :=
  decide (0x800000000 ≤ a) && decide (a < 0xB80000000) && !(decide (0x806200000 ≤ a) && decide (a < 0x806600000))

/-- The regions with a copy that the hardware keeps: CODEBOOK_COPY, ANISE_COPY, EVENT_HISTORY, LIBRARY, IMAGE_STORE,
BLOCK_STAGING, DECIMATED_RING, FULL_RING, and FIRMWARE, which is loaded from NOR (Table 14.1). -/
def keptRegion (a : Nat) : Option Nat :=
  if a < 0x804000000 then some 8
  else if a < 0x805000000 then none
  else some (([0x805C00000, 0x806000000, 0x806200000, 0x906600000, 0x946600000, 0x986600000, 0x9E6600000] : List Nat).filter (fun b => decide (b ≤ a))).length

def placeOf (a : Nat) : Place :=
  if a < 0x40000 then .rom
  else if 0x10000000 ≤ a ∧ a < 0x10800000 then .sram
  else if h : tileWindow ≤ a ∧ (a - tileWindow) / 0x400000 < 68 then placeInTile ⟨(a - tileWindow) / 0x400000, h.2⟩ ((a - tileWindow) % 0x400000)
  else if pageWindow ≤ a ∧ a < pageWindow + 0x261000 then .page ((a - pageWindow) / 0x1000) ((a - pageWindow) % 0x1000)
  else if inLpddr a then (match keptRegion a with | some r => .kept r | none => .ram)
  else if 0x1000000000 ≤ a ∧ a < 0x1020000000 then .nor
  else .nowhere

/-- Only an ACTIVE tile is powered (03 R89, Table 3.3). -/
def TileState.reachable : TileState → Bool
  | .none_ | .absent | .spare | .gated | .failed => false
  | .active => true

def DmaState.code : DmaState → Nat
  | .idle => 0 | .ready => 1 | .running => 2 | .done => 3 | .halted => 4
def Role.code : Role → Nat
  | .off => 0 | .control => 1 | .shadow => 2 | .parked => 3

/-! ## Register pages (14 Table 14.4, 15 R433 to R448, 17 R491) -/

def valuePage (p : Nat) : Bool := decide (0x100 ≤ p) && decide (p ≤ 0x10F)
def signalPage (p : Nat) : Bool := decide (0x110 ≤ p) && decide (p ≤ 0x11F)
def cellOf (p off : Nat) : Nat := p % 16 * 1024 + off / 4
def waitPage (p : Nat) : Bool := p == 0x120
/-- The page of a Millet channel: MA 0 to 15, then MB 0 to 15. -/
def chanPage (p : Nat) : Option (Fin 32) := if h : p < 32 then some ⟨p, h⟩ else none
/-- Channels 4 to 15 of each engine belong to the firmware (Table 14.5). -/
def fwChan (c : Fin 32) : Bool := decide (4 ≤ c.val % 16)
/-- Pages that no chapter lists are reserved. -/
def pageListed (p : Nat) : Bool :=
  decide (p ≤ 0x21) || valuePage p || signalPage p || waitPage p ||
    [0x200, 0x201, 0x202, 0x210, 0x211, 0x220, 0x230, 0x240, 0x250, 0x260].contains p

/-- The pages that a Millet channel may write: the cells its owner may move, the wait slots and the firmware channels. The pages
of 15 are written by Wardens only (DEDUCED, log 32). -/
def pageWritable (p off : Nat) : Bool :=
  ((valuePage p || signalPage p) && !(hwCell (cellOf p off))) || waitPage p ||
    (match chanPage p with | some c => fwChan c | none => false)

/-- The cause of the bus error with which a read or a write of an address ends, 0 for none (Table 14.10). -/
def busCause (s : State) (write : Bool) (a : Nat) : Nat :=
  match placeOf a with
  | .rom | .nor => if write then 6 else 0
  | .sram => 0
  | .ram | .kept _ => if s.mem.st = .ready then 0 else 1
  | .bank t _ _ _ => if (s.eng.tiles.get t).st.reachable then 0 else 4
  | .half t h _ _ =>
    let x := s.eng.tiles.get t
    if !x.st.reachable || x.ihalf = h then 4 else 0
  | .status t _ => if !(s.eng.tiles.get t).st.reachable then 4 else if write then 6 else 0
  | .page p off => if !(pageListed p) then 1 else if write && !(pageWritable p off) then 6 else 0
  | .nowhere => 1

def byteOf (v i : Nat) : Nat := v / 256 ^ i % 256
/-- One half of a 64-bit register. -/
def halfOf (v off lo : Nat) : Nat := if off = lo then v % two32 else v / two32 % two32

/-- A channel's page (Tables 14.6 to 14.8). GO and ACK read 0. -/
def chanWord (x : DmaCh) (off : Nat) : Nat :=
  if off = 0 then x.enable.toNat + 8 * x.irqEn.toNat + 256 * bits x.ctl 8 3 + 65536 * bits x.ctl 16 9 + 33554432 * (x.core % 8)
  else if off = 4 then x.st.code + 256 * (x.errCause % 256) + 65536 * x.errDir.toNat
  else if off = 8 ∨ off = 12 then halfOf x.srcList off 8
  else if off = 0x10 then x.srcCount % two32
  else if off = 0x14 then x.dstCount % two32
  else if off = 0x18 ∨ off = 0x1C then halfOf x.dstList off 0x18
  else if off = 0x20 then bits x.compl 0 14 + 32768 * bits x.compl 15 1 + 65536 * bits x.compl 16 16
  else if off = 0x28 ∨ off = 0x2C then halfOf x.bytesDone off 0x28
  else if off = 0x30 ∨ off = 0x34 then halfOf x.errAddr off 0x30
  else if off = 0x38 then x.errEntry % two32
  else if off = 0x3C then x.runs
  else 0

/-- The channels of an engine in a state, as a mask. -/
def chanMask (s : State) (mb : Bool) (st : DmaState) : Nat :=
  ((List.finRange 32).filter (fun c => decide (16 ≤ c.val) == mb && (s.mem.dma.get c).st == st)).foldl (fun n c => n + 2 ^ (c.val % 16)) 0

/-- An engine's page (Table 14.9). -/
def engineWord (s : State) (mb : Bool) (off : Nat) : Nat :=
  if off = 0 then (match (if mb then s.mem.runB else s.mem.runA) with | some c => c % 16 | none => 0xFF)
  else if off = 4 then chanMask s mb .ready + 65536 * chanMask s mb .halted
  else if off = 8 ∨ off = 12 then halfOf (getN s (if mb then Obj.milletBytesMb else Obj.milletBytesMa)) off 8
  else 0

/-- A wait slot (Table 14.12), at offset 16 × k. -/
def waitWord (x : WaitSlot) (off : Nat) : Nat :=
  if off = 0 then x.cell + 65536 * (x.arm.toNat + 2 * x.fired.toNat + 4 * x.irq.toNat + 8 * x.event.toNat + 16 * (x.core % 8))
  else if off = 4 then x.threshold
  else if off = 8 then x.seen
  else 0

/-- A Husk region (15 Table 15.7); what is written to reserved bits is ignored (00 R14). -/
def regionWord (x : Region) (off : Nat) : Nat :=
  if off < 8 then halfOf x.base off 0
  else if off < 16 then halfOf x.size off 8
  else if off = 16 then x.initiators % 2 ^ 28
  else if off = 20 then x.perm % 8 + 256 * x.enable.toNat
  else 0

/-- An override (15 R442). -/
def overrideWord (x : Override) (off : Nat) : Nat :=
  if off = 0 then x.index % 65536 + 65536 * (x.subFirst % 256) + 16777216 * (x.subLast % 256)
  else if off = 4 then bits x.access 0 4 + 256 * bits x.access 8 4 + 65536 * bits x.access 16 4
  else if off = 8 then x.stF % 256 + 256 * (x.stH % 256) + 65536 * (x.stS % 256) + 16777216 * x.enable.toNat
  else 0

/-- A cluster's page (15 Table 15.3). The value that WDOG_KICK reads is open. -/
def clusterWord (s : State) (c : Fin 2) (off : Nat) : Option Nat :=
  let x := s.bar.clusters.get c
  if off = 0 then some x.role.code
  else if off = 4 then none
  else if off = 8 then some ((x.wdogDue - s.clk.cycles) / 25 % two32)
  else if off = 12 then some x.l2Busy.toNat
  else if off = 16 then some x.crashCause
  else some 0

/-- The request ring's page (15 R435). -/
def ringWord (s : State) (off : Nat) : Option Nat :=
  let x := s.bar.clusters.get (if s.bar.control % 2 = 0 then 0 else 1)
  if off < 8 then some (halfOf x.reqBase off 0)
  else if off < 16 then some (halfOf x.cmpBase off 8)
  else if off = 16 then some (s.bar.reqHead % two32)
  else if off = 24 then some (s.bar.cmpTail % two32)
  else some 0

/-- A word of a register page; none where the spec states no value (log 32). -/
def pageWord (s : State) (p off : Nat) : Option Nat :=
  match chanPage p with
  | some c => some (chanWord (s.mem.dma.get c) off)
  | none =>
    if p = 0x20 ∨ p = 0x21 then some (engineWord s (p == 0x21) off)
    else if valuePage p || signalPage p then some (cellAt s (cellOf p off))
    else if waitPage p then some (waitWord (slotAt s (off / 16)) (off % 16))
    else if p = 0x200 ∨ p = 0x201 then
      some (regionWord (lookD s.bar.regions (p % 2 * 128 + off / 32) ⟨0, 0, 0, 0, false⟩) (off % 32))
    else if p = 0x210 then clusterWord s 0 off
    else if p = 0x211 then clusterWord s 1 off
    else if p = 0x230 then ringWord s off
    else if p = 0x220 && 24 ≤ off then some 0
    else if p = 0x240 then some (lookD s.bar.router (off / 4) 0)
    else if p = 0x250 then some (overrideWord (lookD s.bar.overrides (off / 16) ⟨0, 0, 0, 0, 0, 0, 0, false, 0⟩) (off % 16))
    else none

/-- The tile status page (03 Table 3.6). -/
def statusByte (s : State) (t : Fin 68) (off : Nat) : Nat :=
  let x := s.eng.tiles.get t
  if off = 0 then x.st.code
  else if off = 1 then x.ihalf
  else if off < 4 then byteOf x.owner (off - 2)
  else if off < 8 then byteOf (getN s (Obj.tileCeCount t.val)) (off - 4)
  else if off < 12 then byteOf (getN s (Obj.tileUeCount t.val)) (off - 8)
  else if off < 16 then byteOf x.ueOffset (off - 12)
  else if off < 24 then byteOf x.ueFrame (off - 16)
  else if 24 ≤ off ∧ off < 28 then byteOf x.arith (off - 24)
  else 0

/-- A byte of the NOR window, as what the devices hold makes it (log 8). -/
def norByte (s : State) (a : Nat) : Nat :=
  (Config.norByte a [s.bar.slotA, s.bar.slotB] s.bar.bootSlot [s.pow.rcbA, s.pow.rcbB, s.pow.norA, s.pow.norB]
    [s.nut.copyA, s.nut.copyB] [s.cardamom.recA, s.cardamom.recB]).toNat

/-- What the hardware keeps in a region of LPDDR4X (04 R133, R144, 05 R168, 06 R191, 07 R217, 02 R71, 12 R370). -/
def keptOf (s : State) (r : Nat) : Kept :=
  match r with
  | 0 => .books s.eng.books
  | 1 => .program s.ani.prog
  | 2 => .history s.ev.history
  | 3 => .library s.eng.lib
  | 4 => .images s.img.store
  | 5 => .staging (s.oda.sessions.map (fun p => (p.1, p.2.blocks)))
  | 6 => .rings s.eng.ring.dec s.eng.ring.decBases
  | 7 => .full s.eng.ring.blocks s.eng.ring.bases s.eng.bufA s.eng.bufB
  | _ => .firmware (if s.bar.fwAlt then none else s.bar.fwImage)

/-- A byte as a read delivers it. In a region that the hardware fills it is what the copy there makes of it, in a layout the
spec does not state (log 8). ROM and the NOR window give open bytes (log 8), a register without a stated value open ones (log
32); RAM that nothing has written reads 0 (log 4). -/
def readByte (s : State) (a : Nat) : Nat :=
  match placeOf a with
  | .rom => (Config.romByte a).toNat
  | .nor => norByte s a
  | .sram | .ram => (lookD s.mem.ram a 0).toNat
  | .kept r => (Config.keptByte a (keptOf s r) (lookD s.mem.ram a 0)).toNat
  | .bank t b w i => byteOf (lookD (s.eng.tiles.get t).sram (sramKey b w) 0) i
  | .half t h w i => byteOf (lookD (s.eng.tiles.get t).imem (h * 4096 + w) 0) i
  | .status t off => statusByte s t off
  | .page p off => byteOf ((pageWord s p (off / 4 * 4)).getD (Config.openValue a s.free)) (off % 4)
  | .nowhere => 0

def setByte (old i v : Nat) : Nat := old - byteOf old i * 256 ^ i + v % 256 * 256 ^ i

/-- A byte as a write leaves it; register pages take whole words. -/
def writeByte (a v : Nat) (s : State) : State :=
  match placeOf a with
  | .sram | .ram | .kept _ => setMem (fun m => { m with ram := putD m.ram a (BitVec.ofNat 8 v) 0 }) s
  | .bank t b w i => updTile t (fun x => { x with sram := putD x.sram (sramKey b w) (setByte (lookD x.sram (sramKey b w) 0) i v) 0 }) s
  | .half t h w i => updTile t (fun x => { x with imem := putD x.imem (h * 4096 + w) (setByte (lookD x.imem (h * 4096 + w) 0) i v) 0 }) s
  | _ => s

/-! ## Poison (R403, 03 R80) -/

/-- Whether a byte carries a poison mark. -/
def isPoison (s : State) (a : Nat) : Bool :=
  match placeOf a with
  | .ram | .kept _ => s.mem.poison.contains (granule a)
  | .bank t b w _ => (s.eng.tiles.get t).poison.contains (sramKey b w)
  | _ => false

/-- A write of n bytes from a clears the poison of each granule or tile word it covers whole; a part of a poisoned granule
leaves it poisoned and counts again. -/
def clearPoison (a n : Nat) (s : State) : State :=
  match placeOf a with
  | .ram | .kept _ =>
    let gs := s.mem.poison.filter (fun g => decide (a < g + 8) && decide (g < a + n))
    let whole := gs.filter (fun g => decide (a ≤ g) && decide (g + 8 ≤ a + n))
    let s1 := setMem (fun m => { m with poison := m.poison.filter (fun g => !(whole.contains g)) }) s
    incMax s1 Obj.memUeCount (gs.length - whole.length) u32
  | .bank t b w i =>
    let first := if i = 0 then w else w + 1
    let last := (w * 32 + i + n) / 32
    updTile t (fun x => { x with poison := x.poison.filter (fun k => !(decide (sramKey b first ≤ k) && decide (k < sramKey b last))) }) s
  | _ => s

/-! ## Husk (15 R438 to R441) -/

/-- The initiator bit of a firmware channel (Table 15.8). -/
def huskBit (c : Nat) : Nat := if c < 16 then c else c - 4

/-- The PERM bit of a region that an access needs (Table 15.7). -/
inductive Access where
  | read
  | write
  | execute
  deriving DecidableEq, Repr

def Access.bit : Access → Nat
  | .read => 0 | .write => 1 | .execute => 2

/-- The lowest-numbered enabled region that contains the address and names the initiator decides. -/
def huskAllows (s : State) (init a : Nat) (acc : Access) : Bool :=
  match s.bar.regions.find? (fun p => p.2.enable && decide (p.2.base ≤ a) && decide (a < p.2.base + p.2.size) && bitSet p.2.initiators init) with
  | some p => bitSet p.2.perm acc.bit
  | none => false

/-- A denial: counted, latched and recorded. -/
def huskDenied (init a : Nat) (s : State) : State :=
  routeIrq 289 (raiseMain .huskDenied 0x9003 (openDetail .huskDenied init)
    (inc32 { s with bar := { s.bar with lastDenial := some (init, a) } } Obj.huskDenials))

/-- The initiator bit of core h, 0 to 7 (Table 15.8): a cluster's Warden has one of its own. -/
def coreInitiator (s : State) (h : Fin 8) : Nat :=
  let c : Fin 2 := if h.val < 4 then 0 else 1
  2 * c.val + (match ((s.bar.clusters.get c).cores.toList.getD (h.val % 4) ⟨.warden, 0⟩).mode with | .warden => 1 | _ => 0)

/-- The firmware area a cluster runs from: FIRMWARE, or FIRMWARE_ALT (R445). -/
def firmwareBase (s : State) (c : Fin 2) : Nat :=
  if s.bar.fwAlt == decide (c.val = s.bar.control) then 0x982600000 else 0x800000000

/-- What the Warden of a cluster reaches without any region (R440). -/
def wardenReaches (s : State) (c : Fin 2) (a : Nat) (acc : Access) : Bool :=
  let within (base len : Nat) : Bool := decide (base ≤ a) && decide (a < base + len)
  let code : Bool := match acc with | .write => false | _ => true
  (code && within 0 0x40000) || within (0x200000000 + 0x200 * 0x1000) (0x51 * 0x1000) || within (0x200000000 + (0x210 + c.val) * 0x1000) 0x1000 ||
  within 0x10700000 0x100000 || (code && within (firmwareBase s c) 0x4000000)

/-- An access of core h passes Husk: its Warden's own ground, or a region (R439, R440). No command is an access of a core
(log 81). -/
def coreAllows (s : State) (h : Fin 8) (a : Nat) (acc : Access) : Bool :=
  let i := coreInitiator s h
  (i % 2 == 1 && wardenReaches s (if i < 2 then 0 else 1) a acc) || huskAllows s i a acc

/-- mtime of every core: the main-die copy of the count in ns (15 R430, 02 R44). -/
def mtime (s : State) : Nat := mainNow s

/-- A core's timer interrupt is pending: mtime has reached its mtimecmp (15 R430; the condition is RISC-V's, log 81). -/
def timerPending (s : State) (h : Fin 8) : Bool :=
  let c : Fin 2 := if h.val < 4 then 0 else 1
  decide (((s.bar.clusters.get c).cores.toList.getD (h.val % 4) ⟨.warden, 0⟩).mtimecmp ≤ mtime s)

/-- A Warden writes register pages in any role except OFF and PARKED. -/
def wardenUp (s : State) (c : Fin 2) : Bool :=
  match (s.bar.clusters.get c).role with
  | .control | .shadow => true
  | _ => false

/-- HUSK_REGION_WRITE: region k. Every access of a later command is checked under it. -/
def execHuskRegionWrite (c : Fin 2) (k : Fin 256) (r : Region) (s : State) : Out :=
  if wardenUp s c then .next { s with bar := { s.bar with regions := put s.bar.regions k.val r } } else .next s

/-- OVERRIDES_ENABLED follows the table (15 Table 15.12). -/
def countOverrides (s : State) : State := setN s Obj.overridesEnabled (s.bar.overrides.filter (fun p => p.2.enable)).length

/-- ACCESS_OVERRIDE_WRITE: override k, in force for steps checked at least 1 µs later (R442). -/
def execAccessOverrideWrite (c : Fin 2) (k : Fin 256) (o : Override) (s : State) : Out :=
  if wardenUp s c then .next (countOverrides { s with bar := { s.bar with overrides := put s.bar.overrides k.val { o with since := mainNow s } } })
  else .next s

/-! ## Sync cells and wait slots (14 R424 to R426) -/

/-- The main die's fabric works: out of reset. -/
def fabricUp (s : State) : Bool := !s.part.reset && s.clk.running

/-- SYNC_SET. Groups 0 to 7 end in a bus error of the initiator. -/
def execSyncSet (cell : Fin 16384) (v : Nat) (s : State) : Out :=
  if !(fabricUp s) || hwCell cell.val then .next s else .next (setCell cell.val v s)

/-- SYNC_SIGNAL. -/
def execSyncSignal (cell : Fin 16384) (v : Nat) (s : State) : Out :=
  if !(fabricUp s) || hwCell cell.val then .next s else .next (signalCell cell.val v s)

/-- WAIT_SLOT_ARM: FIRED is cleared, and a condition that already holds fires at once. -/
def execWaitSlotArm (k : Fin 256) (cell : Fin 16384) (irq event : Bool) (core : Fin 8) (threshold : Nat) (s : State) : Out :=
  if !(fabricUp s) then .next s
  else
    let x := slotAt s k.val
    .next (tryFire k.val (putSlot k.val ⟨cell.val, true, false, irq, event, core.val, threshold % two32, x.seen⟩ s))

/-- WAIT_SLOT_DISARM: the wait is withdrawn. -/
def execWaitSlotDisarm (k : Fin 256) (s : State) : Out :=
  .next (putSlot k.val { slotAt s k.val with arm := false } s)

end Sys2Proof.Machine
end

