-- ==== Sys2Proof/Machine/Dma.lean ====
section
/-! DEFINITION. Millet: the lists and bursts of a run, what moves, what halts it, and the channel commands (14 R410 to R423, 03 R87
to R89). A run's bytes are moved when its end, an error or a staging hold is commanded (log 31). -/
namespace Sys2Proof.Machine

open Sys2Proof

/-! ## Lists and bursts (R413, R414, R416) -/

def DmaEntry.fixed (e : DmaEntry) : Bool := e.flags % 2 == 1

def totalOf (l : List DmaEntry) : Nat := l.foldl (fun n e => n + e.len) 0

/-- The address of a byte of the stream. A FIXED entry keeps its word (DEDUCED, log 31). -/
def streamAddr : List DmaEntry → Nat → Nat
  | [], _ => 0
  | e :: t, o => if o < e.len then (if e.fixed then e.addr + o % 4 else e.addr + o) else streamAddr t (o - e.len)

/-- The stream offset from which offset i takes its byte (Table of R414). -/
def swapFrom (swap i : Nat) : Nat :=
  if swap = 1 then i / 2 * 2 + (1 - i % 2)
  else if swap = 2 then i / 4 * 4 + (3 - i % 4)
  else if swap = 3 then i / 4 * 4 + (i % 4 + 2) % 4
  else i

def swapUnit (swap : Nat) : Nat := if swap = 0 then 1 else if swap = 1 then 2 else 4

/-- The bursts of a run: at most 256 bytes, crossing no 256-byte boundary of either side and no end of an entry. The fuel is
the number of stream bytes. -/
def cutBursts : Nat → List DmaEntry → List DmaEntry → Nat → Nat → Nat → Nat → Nat → List Burst
  | 0, _, _, _, _, _, _, _ => []
  | n + 1, x :: xs, y :: ys, off, xi, yi, xo, yo =>
    let a := if x.fixed then x.addr else x.addr + xo
    let d := if y.fixed then y.addr else y.addr + yo
    let room (f : Bool) (v : Nat) : Nat := if f then 256 else 256 - v % 256
    let len := min (min (x.len - xo) (y.len - yo)) (min (room x.fixed a) (room y.fixed d))
    if len = 0 then []
    else
      let xEnd := xo + len = x.len
      let yEnd := yo + len = y.len
      ⟨off, len, xi, a, x.fixed, yi, d, y.fixed⟩ ::
        cutBursts n (if xEnd then xs else x :: xs) (if yEnd then ys else y :: ys) (off + len) (if xEnd then xi + 1 else xi)
          (if yEnd then yi + 1 else yi) (if xEnd then 0 else xo + len) (if yEnd then 0 else yo + len)
  | _ + 1, _, _, _, _, _, _, _ => []

def DmaCh.bursts (x : DmaCh) : List Burst := cutBursts (totalOf x.src) x.src x.dst 0 0 0 0 0

/-! ## What stops a burst (R422, 03 R88, R89) -/

/-- A register page takes 32-bit accesses only (R409). -/
def pageSplit (a len : Nat) : Bool :=
  match placeOf a with
  | .page _ _ => a % 4 != 0 || len % 4 != 0
  | _ => false

def sideCause (s : State) (c : Fin 32) (write : Bool) (a len : Nat) : Nat :=
  if fwChan c && !(huskAllows s (huskBit c.val) a (if write then .write else .read)) then 2
  else if busCause s write a ≠ 0 then busCause s write a
  else if pageSplit a len then 1
  else 0

/-- The failing address, the side and the cause of a burst that ends in a bus error. -/
def burstCause (s : State) (c : Fin 32) (b : Burst) : Option (Nat × Bool × Nat) :=
  let r := sideCause s c false b.src b.len
  let w := sideCause s c true b.dst b.len
  if r ≠ 0 then some (b.src, false, r)
  else
    match (List.range b.len).find? (fun i => isPoison s (if b.srcFixed then b.src + i % 4 else b.src + i)) with
    | some i => some (if b.srcFixed then b.src + i % 4 else b.src + i, false, 3)
    | none => if w ≠ 0 then some (b.dst, true, w) else none

/-- The tile and bank at whose port a burst waits, with the side (03 R88). -/
def waitsAt (s : State) (b : Burst) : Option (Fin 68 × Nat × Bool) :=
  let at_ (a : Nat) (w : Bool) : Option (Fin 68 × Nat × Bool) :=
    match placeOf a with
    | .bank t k _ _ => if mustHold (s.eng.tiles.get t) k then some (t, k, w) else none
    | _ => none
  match at_ b.src false with
  | some x => some x
  | none => at_ b.dst true

def bankAt (a : Nat) : Option (Fin 68 × Nat) :=
  match placeOf a with
  | .bank t k _ _ => some (t, k)
  | _ => none

/-! ## A burst moves -/

def isStatusFlags (a : Nat) : Option (Fin 68) :=
  match placeOf a with
  | .status t off => if 24 ≤ off ∧ off < 28 then some t else none
  | _ => none

/-- The stream bytes of a burst; a reserved SWAP code gives open bytes (log 8). -/
def burstBytes (x : DmaCh) (b : Burst) (s : State) : List Nat :=
  (List.range b.len).map (fun i => if 4 ≤ x.swap then (Config.freeByte (s.free + i)).toNat else readByte s (streamAddr x.src (swapFrom x.swap (b.off + i))))

def wordsFrom : List Nat → List Nat
  | a :: b :: c :: d :: t => (a + 256 * b + 65536 * c + 16777216 * d) :: wordsFrom t
  | _ => []

/-- The bursts of a run still to come. -/
def restOf (s : State) (c : Fin 32) : List Burst := (chanAt s c).bursts.filter (fun b => decide ((chanAt s c).bytesDone ≤ b.off))

/-- A word written to a wait slot (R426). -/
def waitWrite (k off w : Nat) (s : State) : State :=
  let x := slotAt s k
  if off = 0 then
    let y := { x with cell := w % 16384, irq := bitSet w 18, event := bitSet w 19, core := bits w 20 3 }
    if bitSet w 16 then tryFire k (putSlot k { y with arm := true, fired := false } s) else putSlot k { y with arm := false } s
  else if off = 4 then putSlot k { x with threshold := w } s
  else s

/-- Words written to a cell or to a wait slot, one access each. -/
def putPlain (b : Burst) (ws : List Nat) (s : State) : State :=
  (ws.mapIdx (fun i w => (i, w))).foldl (fun s p =>
    let a := if b.dstFixed then b.dst else b.dst + 4 * p.1
    match placeOf a with
    | .page pg off =>
      if waitPage pg then waitWrite (off / 16) (off % 16) p.2 s
      else if hwCell (cellOf pg off) then s
      else if signalPage pg then signalCell (cellOf pg off) p.2 s
      else if valuePage pg then setCell (cellOf pg off) p.2 s
      else s
    | _ => s) s

/-- What a burst's bytes do where they go to memory, a tile, a cell or a wait slot. -/
def spill (c : Fin 32) (b : Burst) (s : State) : State :=
  let x := chanAt s c
  let bs := burstBytes x b s
  let s0 := if 4 ≤ x.swap then { s with free := s.free + b.len } else s
  let s1 := match isStatusFlags b.src with | some t => updTile t (fun y => { y with arith := 0 }) s0 | none => s0
  let s2 := match placeOf b.dst with
    | .page _ _ => putPlain b (wordsFrom bs) s1
    | _ => clearPoison b.dst (if b.dstFixed then 4 else b.len)
        ((bs.mapIdx (fun i v => (i, v))).foldl (fun s p => writeByte (if b.dstFixed then b.dst + p.1 % 4 else b.dst + p.1) p.2 s) s1)
  milletBytes (engineOf c) b.len s2

/-! ## The engine (R411, R418) -/

/-- The channel halts (R422); ERR fields are latched. -/
def haltChan (c : Fin 32) (addr : Nat) (dir : Bool) (entry cause : Nat) (s : State) : State :=
  let x := chanAt s c
  let s1 := updDma c (fun x => { x with st := .halted, errAddr := addr, errDir := dir, errEntry := entry, errCause := cause }) s
  let s2 := raiseMain .dmaHalted (dmaSrc c.val) c.val (setN (inc32 s1 (Obj.dmaHalts c.val)) (Obj.dmaLastCause c.val) cause)
  let s3 := if x.irqEn then raiseIrq c.val x.core s2 else s2
  if cause = 2 then huskDenied (huskBit c.val) addr s3 else s3

/-! ## GO and ENABLE (R412, R415, R421) -/

def listBad (count addr : Nat) : Bool := count == 0 || decide (4096 < count) || addr % 16 != 0

/-- Whether the channel's owner can read a list; one with an uncorrectable granule it cannot (R403; DEDUCED, log 31). -/
def listReadable (s : State) (c : Fin 32) (addr count : Nat) : Bool :=
  (List.range count).all (fun i => sideCause s c false (addr + 16 * i) 16 == 0) &&
    (List.range (2 * count)).all (fun i => !(isPoison s (addr + 8 * i)))

def DmaEntry.bad (e : DmaEntry) : Bool :=
  e.len == 0 || decide (1048576 < e.len) || decide (1 < e.flags) || (e.fixed && (e.addr % 4 != 0 || e.len % 4 != 0))

/-- The checks of R415: the cause and the address, where a check states one. -/
def goCause (s : State) (c : Fin 32) (swap srcList dstList srcCount dstCount : Nat) (src dst : List DmaEntry) : Option (Nat × Option Nat × Bool) :=
  if listBad srcCount srcList then some (7, none, false)
  else if listBad dstCount dstList then some (7, none, true)
  else if !(listReadable s c srcList srcCount) then some (7, some srcList, false)
  else if !(listReadable s c dstList dstCount) then some (7, some dstList, true)
  else if src.any DmaEntry.bad then some (7, none, false)
  else if dst.any DmaEntry.bad then some (7, none, true)
  else if totalOf src ≠ totalOf dst ∨ 1048576 < totalOf src then some (8, none, false)
  else if totalOf src % swapUnit swap ≠ 0 then some (8, none, false)
  else none

/-- The channel drops (R421): any subset of a run's bursts may have arrived, and BYTES_DONE is open (log 8); none that is still
to come writes a channel's registers (log 32). -/
def dropChan (c : Fin 32) (s : State) : State :=
  let off (s : State) : State := updDma c (fun x => { x with st := .idle, enable := false }) s
  if (chanAt s c).st = .running then
    let s1 := forEach (restOf s c) (fun b s =>
      let (v, s1) := takeFree 1 s
      if v = 1 && (burstCause s1 c b).isNone && (waitsAt s1 b).isNone then spill c b s1 else s1) s
    let (n, s2) := takeFree 64 s1
    let s3 := forAll 68 (fun t => updTile t (fun y => { y with held := y.held.filter (fun h => h.channel != c.val) })) s2
    endRun c (off (updDma c (fun x => { x with bytesDone := n }) s3))
  else off s

/-- GO in IDLE with ENABLE set: the values at GO govern the run. -/
def goChan (c : Fin 32) (swap share compl srcList dstList srcCount dstCount : Nat) (src dst : List DmaEntry) (s : State) : State :=
  let s1 := updDma c (fun x => { x with
    swap := swap, share := if share = 0 then 256 else share, srcList := srcList, dstList := dstList, srcCount := srcCount, dstCount := dstCount
    cell := compl % 16384, signalEn := bitSet compl 15, amount := bits compl 16 16
    src := src, dst := dst, bytesDone := 0, errAddr := 0, errDir := false, errEntry := 0, errCause := 0 }) s
  match goCause s c swap srcList dstList srcCount dstCount src dst with
  | none => startNext (engineOf c) (updDma c (fun x => { x with st := .ready }) s1)
  | some (cause, some a, dir) => haltChan c a dir 0xFFFFFFFF cause s1
  | some (cause, none, dir) =>
    let (a, s2) := takeFree 64 s1
    haltChan c a dir 0xFFFFFFFF cause s2

/-! ## A channel's registers (R412) -/

/-- One half of a 64-bit register written. -/
def setHalf (v : Nat) (hi : Bool) (w : Nat) : Nat := if hi then v % two32 + w * two32 else v / two32 * two32 + w

/-- The entries of a list as they stand in memory (R413). -/
def entriesAt (s : State) (addr count : Nat) : List DmaEntry :=
  let num (a n : Nat) : Nat := (List.range n).foldl (fun v i => v + readByte s (a + i) * 256 ^ i) 0
  if listBad count addr then [] else (List.range count).map (fun i => ⟨num (addr + 16 * i) 8, num (addr + 16 * i + 8) 4, num (addr + 16 * i + 12) 4⟩)

/-- A word written to CTRL: ENABLE clear drops the channel; ACK and GO act in the states that take them (Table 14.11). -/
def ctrlWrite (c : Fin 32) (w : Nat) (s : State) : State :=
  let st := (chanAt s c).st
  let s1 := updDma c (fun x => { x with ctl := w, irqEn := bitSet w 3, core := bits w 25 3 }) s
  if !(bitSet w 0) then dropChan c s1
  else
    let s2 := updDma c (fun x => { x with enable := true }) s1
    let x := chanAt s2 c
    if bitSet w 2 && (st == .done || st == .halted) then updDma c (fun x => { x with st := .idle }) s2
    else if bitSet w 1 && st == .idle then
      goChan c (bits w 8 3) (bits w 16 9) x.compl x.srcList x.dstList x.srcCount x.dstCount
        (entriesAt s2 x.srcList x.srcCount) (entriesAt s2 x.dstList x.dstCount) s2
    else s2

/-- A word written to a channel's page (Table 14.6); read-only and reserved words ignore it. -/
def chanWrite (c : Fin 32) (off w : Nat) (s : State) : State :=
  if off = 0 then ctrlWrite c w s
  else updDma c (fun x =>
    if off = 8 ∨ off = 12 then { x with srcList := setHalf x.srcList (off == 12) w }
    else if off = 0x10 then { x with srcCount := w }
    else if off = 0x14 then { x with dstCount := w }
    else if off = 0x18 ∨ off = 0x1C then { x with dstList := setHalf x.dstList (off == 0x1C) w }
    else if off = 0x20 then { x with compl := w }
    else x) s

/-- The words of a burst to a firmware channel's page, in order. -/
def putChan (b : Burst) (ws : List Nat) (s : State) : State :=
  (ws.mapIdx (fun i w => (i, w))).foldl (fun s p =>
    let a := if b.dstFixed then b.dst else b.dst + 4 * p.1
    match placeOf a with
    | .page pg off => (match chanPage pg with | some c => if fwChan c then chanWrite c off p.2 s else s | none => s)
    | _ => s) s

/-- A burst moves: its bytes go where they go to, and a burst to a firmware channel's page writes its registers. -/
def moveBurst (c : Fin 32) (b : Burst) (s : State) : State :=
  let bs := burstBytes (chanAt s c) b s
  let s1 := spill c b s
  match placeOf b.dst with
  | .page pg _ => if (chanPage pg).isSome then putChan b (wordsFrom bs) s1 else s1
  | _ => s1

/-- The side of a burst at address a reaches its bank; it waits at no port any more. STAGING_LATE where an earlier burst of the
run reached the bank in another staging period, that is with another count of exchanges of its pair (03 R88). -/
def reachBank (c : Fin 32) (a : Nat) (s : State) : State :=
  match bankAt a with
  | none => s
  | some (t, k) =>
    let key := t.val * 32 + k
    let n := lookD (s.eng.tiles.get t).swapped (k / 2) 0
    let late := match look (chanAt s c).reached key with | some m => m != n | none => false
    let s1 := updTile t (fun y => { y with held := y.held.filter (fun h => !(h.channel == c.val && h.bank == k)) }) s
    let s2 := updDma c (fun x => { x with reached := put x.reached key n }) s1
    if late then raiseMain .stagingLate tileSrc (openDetail .stagingLate t.val) s2 else s2

def reachBanks (c : Fin 32) (b : Burst) (s : State) : State := reachBank c b.dst (reachBank c b.src s)

/-- The bursts go in order until one fails or waits. -/
def goBursts (c : Fin 32) : List Burst → State → State
  | [], s => s
  | b :: t, s =>
    if (burstCause s c b).isSome || (waitsAt s b).isSome then s
    else goBursts c t (updDma c (fun x => { x with bytesDone := x.bytesDone + b.len }) (moveBurst c b (reachBanks c b s)))

/-- A burst that waits is noted at its port. -/
def noteHold (c : Fin 32) (s : State) : State :=
  match restOf s c with
  | [] => s
  | b :: _ =>
    if (burstCause s c b).isSome then s
    else
      match waitsAt s b with
      | some (t, k, _) =>
        if (s.eng.tiles.get t).held.any (fun h => h.channel == c.val && h.bank == k) then s
        else updTile t (fun y => { y with held := y.held ++ [⟨c.val, k, s.clk.cycles⟩] }) s
      | none => s

/-- Each burst of a run starts no earlier than 1,024 / SHARE ns after the one before it: the clock stands at least where the last
burst that has moved may start (R417). -/
def paced (c : Fin 32) (s : State) : State :=
  let x := chanAt s c
  let n := (x.bursts.filter (fun b => decide (b.off < x.bytesDone))).length
  tickTo (x.startAt + ceilDiv ((n - 1) * 1024) (40 * x.share)) s

def advance (c : Fin 32) (s : State) : State := noteHold c (paced c (goBursts c (restOf s c) s))

/-! ## The commands of a run and of a channel -/

/-- DMA_RUN_START. -/
def execDmaRunStart (mb : Bool) (s : State) : Out := .next (startNext mb s)

/-- R418: the last write has left the engine; the completion SIGNAL follows it (R419). -/
def completeRun (c : Fin 32) (s : State) : State :=
  let x := chanAt s c
  let s1 := updDma c (fun x => { x with st := .done, runs := (x.runs + 1) % two32, due := if x.signalEn then x.due ++ [(x.cell, x.amount)] else x.due }) s
  let s2 := inc32 s1 (Obj.dmaRuns c.val)
  endRun c (if x.irqEn then raiseIrq c.val x.core s2 else s2)

/-- DMA_RUN_COMPLETE. A run with a burst that waits or fails does not complete. A frame-sequencer channel goes on with the next run of
its transfer. -/
def execDmaRunComplete (mb : Bool) (s : State) : Out :=
  match running s mb with
  | none => .next s
  | some c =>
    if (chanAt s c).jobs ≠ [] then .next (seqStep c s)
    else
      let s1 := advance c s
      .next (if (restOf s1 c).isEmpty then completeRun c s1 else s1)

/-- DMA_BUS_ERROR: the next burst fails. -/
def execDmaBusError (mb : Bool) (s : State) : Out :=
  match running s mb with
  | none => .next s
  | some c =>
    let s1 := advance c s
    match restOf s1 c with
    | [] => .next s1
    | b :: _ =>
      match burstCause s1 c b with
      | some (a, dir, cause) => .next (endRun c (haltChan c a dir (if dir then b.dstEntry else b.srcEntry) cause s1))
      | none => .next s1

/-- The running channel that waits at a tile's port. -/
def waiterAt (s : State) (t : Fin 68) : Option (Fin 32 × HeldBurst) :=
  match (s.eng.tiles.get t).held with
  | h :: _ => if hc : h.channel < 32 then some (⟨h.channel, hc⟩, h) else none
  | [] => none

/-- STAGING_TIMEOUT: a burst held for 2 F ends in a bus error on its channel (03 R88). -/
def execStagingTimeout (t : Fin 68) (s : State) : Out :=
  match waiterAt s t with
  | none => .next s
  | some (c, h) =>
    let s1 := advance c (tickTo (h.since + 2 * frameNs s / 40) s)
    match restOf s1 c with
    | [] => .next s1
    | b :: _ =>
      match waitsAt s1 b with
      | some (t', k, w) =>
        if t' = t ∧ k = h.bank ∧ (chanAt s1 c).st = .running then
          let s2 := updTile t (fun y => { y with held := y.held.filter (fun g => !(g.channel == c.val)) }) s1
          .next (endRun c (haltChan c (if w then b.dst else b.src) w (if w then b.dstEntry else b.srcEntry) 5 s2))
        else .next s1
      | none => .next s1

/-- DMA_GO: a write of CTRL with GO, with the registers of Table 14.6 and the list entries that the channel reads. A write with
ENABLE clear drops the channel; a page of a frame-sequencer channel ends in a bus error of the writer. -/
def execDmaGo (c : Fin 32) (ctrl srcList dstList srcCount dstCount compl : Nat) (src dst : List DmaEntry) (s : State) : Out :=
  if !(fabricUp s) || !(fwChan c) then .next s
  else
    let s1 := updDma c (fun x => { x with irqEn := bitSet ctrl 3, core := bits ctrl 25 3, ctl := ctrl, compl := compl
                                          srcList := srcList, dstList := dstList, srcCount := srcCount, dstCount := dstCount }) s
    if !(bitSet ctrl 0) then .next (dropChan c s1)
    else
      let s2 := updDma c (fun x => { x with enable := true }) s1
      let lists := listBad srcCount srcList || listBad dstCount dstList || (src.length == srcCount && dst.length == dstCount)
      let st := (chanAt s2 c).st
      if bitSet ctrl 2 && (st == .done || st == .halted) then .next (updDma c (fun x => { x with st := .idle }) s2)
      else if st = .idle && lists then
        .next (goChan c (bits ctrl 8 3) (bits ctrl 16 9) compl srcList dstList srcCount dstCount src dst s2)
      else .next s2

/-- DMA_ACK. -/
def execDmaAck (c : Fin 32) (s : State) : Out :=
  let st := (chanAt s c).st
  if fwChan c && (st == .done || st == .halted) then .next (updDma c (fun x => { x with st := .idle }) s) else .next s

/-- DMA_DISABLE. -/
def execDmaDisable (c : Fin 32) (s : State) : Out := if fabricUp s && fwChan c then .next (dropChan c s) else .next s

/-- DMA_SIGNAL_RELEASE: every write of the run is accepted, and the SIGNAL reaches its cell (R419). Cells of groups 0 to 7 take
none from a firmware channel (R425). -/
def execDmaSignalRelease (c : Fin 32) (s : State) : Out :=
  match (chanAt s c).due with
  | [] => .next s
  | (cell, n) :: t =>
    let s1 := updDma c (fun x => { x with due := t }) s
    if hwCell cell then .next s1 else .next (signalCell cell n s1)

/-- The Warden of a restarting firmware clears ENABLE on every firmware channel and every wait slot (R423). -/
def dropFirmware (s : State) : State :=
  let s1 := forAll 32 (fun c s => if fwChan c then dropChan c s else s) s
  setMem (fun m => { m with slots := m.slots.filter (fun p => !p.2.arm) }) s1

end Sys2Proof.Machine
end

