-- ==== Sys2Proof/Machine/Txn.lean ====
section
/-! DEFINITION. Requests and their outcome: sessions, the ledger and the replay cache (12 R356, R357, R371 to R378), the end of a
request in progress, the request ring (15 R435, R436), and the close of sessions (16 R475). -/
namespace Sys2Proof.Machine

open Sys2Proof

def setOda (f : Oda → Oda) (s : State) : State := { s with oda := f s.oda }

/-! ## Sessions -/

def updSession (n : Nat) (f : Session → Session) (s : State) : State :=
  match look s.oda.sessions n with
  | some x => setOda (fun o => { o with sessions := put o.sessions n (f x) }) s
  | none => s

/-- An open session; one that waits for SETUP_FINISH is none. -/
def odaSession (s : State) (n : Nat) : Option Session :=
  match look s.oda.sessions n with
  | some x => if x.pending then none else some x
  | none => none

/-- The session ends, with what its setup held, its subscriptions, blocks, quote and keys (R475). -/
def closeSession (n : Nat) (s : State) : State :=
  match look s.oda.sessions n with
  | some x => setOda (fun o => { o with sessions := del o.sessions n, setups := del o.setups x.setupId }) s
  | none => s

def closeWhere (f : Session → Bool) (s : State) : State :=
  forEach ((s.oda.sessions.filter (fun p => f p.2)).map (·.1)) closeSession s

def idleDue (s : State) : Nat := s.clk.cycles + sCycles (getN s Obj.sessionIdleS)

/-- A valid message of a session: its idle time starts again. -/
def touch (n : Nat) (s : State) : State :=
  updSession n (fun x => { x with lastRx := s.clk.cycles, due := idleDue s }) s

/-! ## The form of a message (12 R355, Tables 12.7, 12.8, 12.10, 12.12) -/

/-- The AUX item or step count lies in the range of its operation; AUX is 0 where unused, as in WRITE and the messages of a setup.
A sub-operation of BLOCK has an abort of its own. -/
def auxOk (op aux : Nat) : Bool :=
  match op with
  | 1 => decide (aux ≤ 1)
  | 3 | 4 => decide (1 ≤ aux) && decide (aux ≤ 64)
  | 5 => decide (aux ≤ 64)
  | 8 => decide (1 ≤ aux) && decide (aux ≤ 56)
  | 2 => aux == 0
  | _ => if 0x20 ≤ op ∧ op ≤ 0x2F then aux == 0 else true

/-- The reserved fields in the head of a SUBSCRIBE or a BLOCK payload are 0. -/
def headOk (op : Nat) (m : List Byte) : Bool :=
  match op with
  | 5 => fieldAt m 36 4 == 0
  | 7 => fieldAt m 34 2 == 0
  | _ => true

/-- A message is well formed: VERSION 1, LENGTH that of the datagram and at most 1,400, every reserved field 0, and AUX in
range. -/
def messageOk (m : List Byte) : Bool :=
  decide (32 ≤ m.length) && decide (m.length ≤ 1432) && fieldAt m 0 1 == 1 && fieldAt m 2 2 / 16 == 0 && fieldAt m 24 2 + 32 == m.length &&
    auxOk (fieldAt m 1 1) (fieldAt m 26 2) && headOk (fieldAt m 1 1) m

/-- The operations and BLOCK sub-operations a peer may ask for; NOTIFY goes from the part only. -/
def operationKnown (m : List Byte) : Bool :=
  let op := fieldAt m 1 1
  [1, 2, 3, 4, 5, 8].contains op || (op == 7 && decide (1 ≤ fieldAt m 26 2) && decide (fieldAt m 26 2 ≤ 6)) || (decide (0x20 ≤ op) && decide (op ≤ 0x2F))

def OdaIn.sess (x : OdaIn) : Nat := fieldAt x.msg 4 4
def OdaIn.txn (x : OdaIn) : Nat := fieldAt x.msg 8 8
def OdaIn.formOk (x : OdaIn) : Bool := messageOk x.msg
def OdaIn.opKnown (x : OdaIn) : Bool := operationKnown x.msg

/-! ## Answers -/

/-- A response leaves by the egress rule of its session, class 4; BLOCK segments class 1 (13 Table 13.2). -/
def respondAs (cls n : Nat) (a : Answer) (s : State) : State :=
  sendSession n cls (.response a) (setOda (fun o => { o with answer := some a }) s)
def respond (n : Nat) (a : Answer) (s : State) : State := respondAs 4 n a s

def abortAnswer (n txn code : Nat) : Answer := ⟨n, txn, code, 0, false, false, 0, 0, [], [], 0⟩

/-- Outcomes that are neither cached nor recorded (R373, 15 R453). -/
def unrecorded (code : Nat) : Bool :=
  code == 0x00070001 || code == 0x00070011 || code == 0x00071506 || (code / 65536 == 8 && code != 0x00080008) || code / 65536 == 9

/-! ## The ledger and the cache (R372, R375) -/

def ledgerOf (s : State) (place txn : Nat) : Option Ledger :=
  match look s.oda.peers place with
  | some p => p.ledger.find? (fun e => e.txn == txn)
  | none => none

def cachedOf (s : State) (place txn : Nat) : Option Cached :=
  match look s.oda.peers place with
  | some p => p.cache.find? (fun e => e.txn == txn)
  | none => none

def floorOf (s : State) (place : Nat) : Nat := match look s.oda.peers place with | some p => p.floor | none => 0

/-- What a TXN already stands for. -/
inductive Seen
  | again (a : Answer)
  | running
  | other
  | stale
  | fresh
  deriving DecidableEq, Repr

/-- The response the ledger alone gives, after a main-die reset (DEDUCED, log 30). -/
def ledgerAnswer (n : Nat) (e : Ledger) : Answer :=
  ⟨n, e.txn, e.code, e.count, true, false, e.done, if e.code = 0 then 0xFFFF else e.done, if e.done = 0 then [] else [e.count], [], 0⟩

/-- A repeat carries other content than what is held. A fenced TXN has no content to compare (R379). -/
def otherContent (held : Option ReqBody) (body : ReqBody) : Bool := match held with | some b => b != body | none => false

def seenTxn (s : State) (n place txn : Nat) (body : ReqBody) : Seen :=
  match cachedOf s place txn with
  | some c =>
    if otherContent c.body body then .other
    else
      (match c.answer with
       | some a => .again { a with duplicate := true, sess := n }
       | none => .running)
  | none =>
    match ledgerOf s place txn with
    | some e => if otherContent e.body body then .other else if e.status = .inProgress then .running else .again (ledgerAnswer n e)
    | none => if txn ≤ floorOf s place then .stale else .fresh

/-- The cache keeps 4,096 TXNs; FLOOR is the highest ever dropped. -/
def Peer.cacheAdd (c : Cached) (p : Peer) : Peer :=
  let all := p.cache ++ [c]
  if all.length ≤ 4096 then { p with cache := all }
  else
    let old := all.take (all.length - 4096)
    { p with cache := all.drop (all.length - 4096), floor := old.foldl (fun m e => max m e.txn) p.floor }

/-- The ledger keeps the last 256 recorded transactions. -/
def Peer.ledgerAdd (e : Ledger) (p : Peer) : Peer :=
  let all := p.ledger ++ [e]
  { p with ledger := all.drop (all.length - 256) }

/-- A recorded operation begins: IN_PROGRESS. `inLedger` is false for WRITE_START and WRITE_SEG (R376). -/
def beginTxn (place txn op steps : Nat) (body : ReqBody) (inLedger : Bool) (s : State) : State :=
  updPeer place (fun p =>
    let p1 := p.cacheAdd ⟨txn, some body, none, 0⟩
    let p2 := if inLedger then p1.ledgerAdd ⟨txn, 0, .inProgress, op, steps, 0, 0, some body⟩ else p1
    { p2 with lastTxn := max p2.lastTxn txn }) s

def statusOf (a : Answer) : TxStatus := if a.status = 0 then .applied else if a.done = 0 then .rejected else .partialDone

/-- A recorded operation ends with its outcome, which is final, or leaves no trace (R373). -/
def endTxn (place : Nat) (a : Answer) (s : State) : State :=
  let hold := s.clk.cycles + sCycles 10
  updPeer place (fun p =>
    if unrecorded a.status then
      { p with cache := p.cache.filter (fun c => c.txn != a.txn), ledger := p.ledger.filter (fun e => e.txn != a.txn) }
    else
      { p with
        cache := p.cache.map (fun c => if c.txn = a.txn then { c with answer := some a, due := hold } else c)
        ledger := p.ledger.map (fun e => if e.txn = a.txn then { e with count := a.accepted.headD 0, status := statusOf a, done := a.done, code := a.status } else e)
        lastCount := if a.done = 0 then p.lastCount else a.count
        lastAt := s.clk.cycles }) s

/-- What the ledger or the cache records (12 Table 12.8): of BLOCK the write sub-operations. -/
def ReqBody.recorded : ReqBody → Bool
  | .write _ _ _ | .writeMulti _ | .subscribe _ _ _ _ => true
  | .block sub _ _ _ _ _ => sub == 3 || sub == 4 || sub == 5
  | _ => false

/-! ## A request in progress -/

def Pending.answer (p : Pending) (code count : Nat) : Answer where
  sess := p.sess
  txn := p.txn
  status := code
  count := p.accepted.headD count
  duplicate := false
  held := p.held
  done := p.accepted.length
  failed := if code = 0 then 0xFFFF else p.accepted.length
  accepted := p.accepted
  items := p.items
  object := match p.body with | .block _ _ key _ _ _ => key | _ => 0

/-- The request ends: its outcome is recorded and its response leaves. -/
def finish (p : Pending) (code : Nat) (s : State) : State :=
  let a := p.answer code (mainNow s)
  let s1 := if p.body.recorded then endTxn p.place a s else s
  respond p.sess a s1

/-- It waits, and counts as outstanding. -/
def park (p : Pending) (s : State) : State :=
  updSession p.sess (fun x => { x with outstanding := x.outstanding + 1 }) (setOda (fun o => { o with waiting := o.waiting ++ [p] }) s)

/-- It is taken out of the waiting ones. -/
def unpark (p : Pending) (s : State) : State :=
  updSession p.sess (fun x => { x with outstanding := x.outstanding - 1 }) (setOda (fun o => { o with waiting := o.waiting.erase p }) s)

/-! ## The request ring (15 R435, R436) -/

/-- A value as it stands in an entry of the ring, by the type of its object (12 Table 12.1). -/
def ringValue (s : State) (key : Nat) (v : Value) : List Byte :=
  match v with
  | .bytes bs => bs
  | .num n => leBytes (match findEntry s key with | some e => e.ty.width / 8 | none => 8) n

/-- A request entry (15 Table 15.5). `addr` is where in BLOCK_STAGING a value of more than 32 bytes stands, which the spec
leaves to the engine. -/
def FwReq.entry (r : FwReq) (ty : Nat) (val : List Byte) (addr : Nat) : List Byte :=
  leBytes 4 r.tag ++ leBytes 1 r.kind ++ leBytes 1 (authCode r.auth) ++ leBytes 1 r.place ++ leBytes 1 0 ++
  leBytes 2 (r.key / 256) ++ leBytes 1 (r.key % 256) ++ leBytes 1 ty ++ leBytes 4 val.length ++
  leBytes 8 (if 32 < val.length then addr else 0) ++ leBytes 8 r.count ++
  ((if 32 < val.length then [] else val) ++ List.replicate 32 0).take 32

/-- Bytes stored in core-local SRAM from an address on. -/
def storeSram (a : Nat) (bs : List Byte) (s : State) : State :=
  setMem (fun m => { m with ram := bs.zipIdx.foldl (fun r p => if placeOf (a + p.2) = .sram then putD r (a + p.2) p.1 0 else r) m.ram }) s

/-- The entry at REQ_HEAD of the ring of the cluster in CONTROL, of 256 entries of 64 bytes in core-local SRAM. -/
def putEntry (r : FwReq) (s : State) : State :=
  let base := (s.bar.clusters.get (if s.bar.control % 2 = 0 then 0 else 1)).reqBase
  let val := ringValue s r.key r.value
  let (addr, s1) := if 32 < val.length then takeFree 30 s else (0, s)
  let ty := match findEntry s r.key with | some e => e.ty.code | none => 0
  storeSram (base + 64 * (s.bar.reqHead % 256)) (r.entry ty val (0x946600000 + addr)) s1

/-- A step is passed to the cluster in CONTROL: an entry of the ring, cell 128, and cell 129 for a BLOCK WRITE_END. -/
def passFw (kind : Nat) (au : Auth) (place key : Nat) (v : Value) (s : State) : Nat × State :=
  let tag := s.oda.nextTag
  let s1 := setOda (fun o => { o with nextTag := (o.nextTag + 1) % two32 }) s
  let r : FwReq := ⟨tag, kind, au, place, key, v, mainNow s⟩
  let s2 := setBar (fun b => { b with outstanding := b.outstanding ++ [r], reqHead := (b.reqHead + 1) % two32 }) (putEntry r s1)
  let s3 := routeIrq 288 (signalCell 128 1 s2)
  (tag, if kind = 4 then signalCell 129 1 s3 else s3)

def isFw : Waiting → Bool
  | .fw _ => true
  | _ => false

/-- A step in the hands of the firmware is lost with it: the write aborts, the items of a read get the code (R436). -/
def loseFw (p : Pending) (s : State) : State :=
  let s1 := unpark p s
  if p.op = 3 then
    let at_ := p.steps.map (·.1)
    let items := p.items.mapIdx (fun i x => if at_.contains i then (x.1, 0x00070031, none) else x)
    finish { p with items := items } 0 s1
  else finish p 0x00070031 s1

/-- The firmware crashes, restarts or is handed back: every outstanding step aborts. -/
def abortFw (s : State) : State :=
  setBar (fun b => { b with outstanding := [] }) (forEach (s.oda.waiting.filter (fun p => isFw p.waiting)) loseFw s)

/-! ## Passing a step, and the hold of a take-over (15 R435, R450) -/

/-- The firmware step in front of a request: its object, the KIND of Table 15.5 and the value. -/
def Pending.front (p : Pending) : Option (Nat × Nat × Value) :=
  match p.body, p.steps with
  | .read key _ _, _ => some (key, 1, .num 0)
  | .readMulti _, (_, key, _) :: _ => some (key, 1, .num 0)
  | .block sub _ _ _ _ _, (key, _, v) :: _ => some (key, if sub = 5 then 4 else 5, v)
  | _, (key, _, v) :: _ => some (key, 2, v)
  | _, [] => none

/-- The step is passed to the firmware, or waits for the take-over with the steps after it. -/
def passFront (p : Pending) (s : State) : State :=
  match p.front with
  | none => finish p 0 s
  | some (key, kind, v) =>
    if s.bar.holdOn then park { p with waiting := .hold, held := true } s
    else
      let r := passFw kind p.auth p.place key v s
      park { p with waiting := .fw r.1 } r.2

def Pending.setItem (p : Pending) (i status : Nat) (v : Option Value) : Pending :=
  { p with items := p.items.mapIdx (fun j x => if j = i then (x.1, status, v) else x) }

/-- The items of a READ_MULTI that the firmware holds, one after the other (DEDUCED, log 33). -/
def runItems (p : Pending) : List (Nat × Nat × Value) → State → State
  | [], s => finish { p with steps := [] } 0 s
  | (i, key, v) :: t, s =>
    if fwAway s then runItems (p.setItem i 0x00070031 none) t s
    else if (findEntry s key).isNone then runItems (p.setItem i 0x00020001 none) t s
    else passFront { p with steps := (i, key, v) :: t } s

/-- A held request is released to the firmware then in CONTROL (R450, R451). -/
def releaseOne (p : Pending) (s : State) : State :=
  let s1 := unpark p s
  if p.op = 3 then runItems p p.steps s1
  else if fwAway s1 then finish p 0x00070031 s1
  else
    match p.front with
    | none => finish p 0 s1
    | some (key, _, _) => if (findEntry s1 key).isNone then finish p 0x00020001 s1 else passFront p s1

def isHeld : Waiting → Bool
  | .hold => true
  | _ => false

/-- The hold ends: the held steps are passed in arrival order. -/
def releaseSteps (s : State) : State :=
  let hs := s.oda.waiting.filter (fun p => isHeld p.waiting)
  forEach hs releaseOne (setBar (fun b => { b with holdOn := false }) s)

/-! ## The rebuilding of the caches (R373) -/

/-- The cache holds the ledger's transactions again, for 10 s from then, with what the ledger says of each. -/
def Ledger.cached (due : Nat) (e : Ledger) : Cached :=
  ⟨e.txn, e.body, if e.status = .inProgress then none else some { ledgerAnswer 0 e with duplicate := false }, due⟩

/-- The cache is rebuilt from the ledger; FLOOR rises to one below the ledger's lowest TXN. -/
def Peer.rebuild (due : Nat) (p : Peer) : Peer :=
  match p.ledger with
  | [] => p
  | e :: t => { p with cache := p.ledger.map (Ledger.cached due), floor := max p.floor ((t.map (·.txn)).foldl min e.txn - 1) }

/-- The dictionary engine starts: it serves requests, with each peer's cache rebuilt from its ledger. -/
def odaUp (bare : Bool) (s : State) : State :=
  setOda (fun o => { o with serving := true, bare := bare, peers := o.peers.map (fun p => (p.1, p.2.rebuild (s.clk.cycles + sCycles 10))) }) s

end Sys2Proof.Machine
end

