-- ==== Sys2Proof/Machine/Update.lean ====
section
/-! DEFINITION. Firmware and its update: main-die reset (11 R336), the crash and restart of the firmware (R335), the update and its
trial (15 R446 to R454), and the codes firmware raises (17 R491). -/
namespace Sys2Proof.Machine

open Sys2Proof

/-! ## Main-die reset (11 R336) -/

/-- Rye asserts main-die reset for 200 ms. SAFE outranks it until the release (log 36). `why`: 0 keep-alive, 1 PART_RESTART, 2
the fourth crash, 3 a failed restart trial. -/
def mainReset (why : Nat) (kept : Bool) (s : State) : State :=
  if s.part.reset then s
  else
    let s1 := raiseRye .mainDieReset partSrc (openDetail .mainDieReset why) (mainDown kept s)
    let s2 := inc32 s1 Obj.mainResets
    let s3 := { s2 with part := { s2.part with resetDue := s.clk.cycles + msCycles 200 } }
    if s3.part.st = .safe ∧ why ≠ 1 then s3 else enterPart .boot { s3 with part := { s3.part with safeCause := .none, safeFromRun := false } }

/-! ## Clusters and firmware (15 R432, R436, 11 R335) -/

def ctrl (s : State) : Fin 2 := if s.bar.control = 0 then 0 else 1
def roleOf (s : State) (c : Fin 2) : Role := (s.bar.clusters.get c).role
def wdogCycles : Nat := msCycles 250

/-- The firmware that runs is out of service until it has restarted; its steps abort, its channels and waits are dropped (14
R423). -/
def fwDown (s : State) : State :=
  dropFirmware (abortFw { s with part := { s.part with fwRestarting := true } })

/-- The Warden restarts the firmware of a cluster. `cause` is its CRASH_CAUSE. -/
def restartFw (c : Fin 2) (cause : Nat) (s : State) : State :=
  noteDegraded (updCluster c (fun x => { x with
    crashCause := cause, wdogDue := s.clk.cycles + wdogCycles, warned := false, cores := x.cores.map (fun h => { h with mode := .warden }) }) (fwDown s))

/-! ## Take-over and hand-back (15 R451, R453) -/

/-- An interrupt pending at a cluster that lost control moves with it (R434). -/
def moveIrqs (s : State) : State := setBar (fun b => { b with irqs := b.irqs.map (fun p => (p.1, coreFor s p.2)) }) s

/-- A firmware image is measured (16 Table 16.4). -/
def measureFw (kind extra : Nat) (s : State) : State :=
  match s.bar.fwImage with
  | some x => logMeas kind x.digest extra s
  | none => s

/-- The shadow takes CONTROL at the start of frame T. -/
def takeOver (s : State) : State :=
  let old := ctrl s
  let new : Fin 2 := 1 - old
  let s1 := updCluster old (fun x => { x with role := .parked }) (updCluster new (fun x => { x with role := .control }) s)
  let s2 := setBar (fun b => { b with
    control := new.val, fwImage := b.updImage, fwSlot := otherSlot b.bootSlot, fwAlt := !b.fwAlt, journal := []
    healthPassed := false, confirmed := false, healthDue := b.takeAt + 60000000000, finalWritten := false, acceptWritten := false }) s1
  let s3 := setN s2 Obj.updateHealthDeadline (s.bar.takeAt + 60000000000)
  measureFw 5 UpdState.trial.code (releaseSteps (moveIrqs (setUpd .trial s3)))

/-- Journal entries that the declaration table of the firmware in control lacks are dropped and counted (R453). -/
def keepJournal (s : State) : State :=
  let keep := s.bar.journal.filter (fun j => (findEntry s j.key).isSome)
  incMax (setBar (fun b => { b with journal := keep }) s) Obj.updateJournalDrops (s.bar.journal.length - keep.length) u32

/-- Hand-back: the parked cluster returns to CONTROL and receives the journal; it counts as a warm restart. -/
def handBack (s : State) : State :=
  let new := ctrl s
  let old : Fin 2 := 1 - new
  let s1 := fwDown (updCluster new (fun _ => Cluster.init) s)
  let s2 := updCluster old (fun x => { x with role := .control, crashCause := 3, wdogDue := s.clk.cycles + wdogCycles, warned := false }) s1
  let slot := otherSlot s.bar.fwSlot
  let s3 := setBar (fun b => { b with
    control := old.val, fwSlot := slot, fwImage := (slotOf s slot).image, fwAlt := !b.fwAlt, healthPassed := false, confirmed := false }) s2
  noteDegraded (measureFw 5 UpdState.handedBack.code (updError .handedBack 0x00071505 (moveIrqs (keepJournal s3))))

/-- A trial fails: a hand-back, or after a restart under the new boot selector its restoration and a main-die reset (R447). -/
def trialFails (kept : Bool) (s : State) : State :=
  if s.bar.restartTrial then mainReset 3 kept (updError .handedBack 0x00071505 (dropUpdate (restoreSelector s)))
  else handBack s

/-- A trial has passed its conditions (R452). -/
def trialPassed (s : State) : Bool := s.bar.healthPassed && (s.bar.confirmed || getN s Obj.updateConfirmMode == 0)

/-! ## Crashes (11 R335, 15 R447) -/

/-- An update fails with its shadow turned off. -/
def failShadow (code : Nat) (s : State) : State := noteDegraded (updError .failed code (dropUpdate (otherOff s)))

/-- The firmware in control crashes during SHADOW_BOOT to SHADOW_READY: the update fails. -/
def crashEndsShadow (s : State) : State :=
  match s.bar.upd with
  | .shadowBoot | .shadowSync | .shadowReady => failShadow 0x00071507 s
  | _ => s

/-- A watchdog has expired: a firmware crash, counted within the last 10 min (R335). -/
def countCrash (c : Fin 2) (s : State) : State :=
  let recent := s.part.crashTimes.filter (fun t => decide (s.clk.cycles - t ≤ tenMin)) ++ [s.clk.cycles]
  raiseMain .fwCrash partSrc (openDetail .fwCrash c.val) (inc32 { s with part := { s.part with crashTimes := recent } } Obj.fwCrashes)

/-- A crash of the firmware in control: counted; the fourth within 10 min resets the main die; in a trial that has not passed it
hands back; during the take-over the old firmware keeps control (01 R34; log 34). -/
def crashControl (c : Fin 2) (kept : Bool) (s : State) : State :=
  let s1 := countCrash c s
  if 4 ≤ s1.part.crashTimes.length then mainReset 2 kept s1
  else if s1.bar.upd = .trial && !(trialPassed s1) then trialFails kept s1
  else if s1.bar.upd = .takeover then
    releaseSteps (restartFw c 1 (updError .handedBack 0x00071505 (dropUpdate (otherOff s1))))
  else restartFw c 1 (crashEndsShadow s1)

/-- The watchdog of a shadow expires: a crash like any other, and what Table 15.10 says of the update. -/
def crashShadow (c : Fin 2) (kept : Bool) (s : State) : State :=
  let s1 := countCrash c s
  if 4 ≤ s1.part.crashTimes.length then mainReset 2 kept s1
  else
    match s1.bar.upd with
    | .shadowBoot | .shadowSync => failShadow 0x00071503 s1
    | .shadowReady => failShadow 0x00071507 s1
    | .takeover => releaseSteps (failShadow 0x00071504 s1)
    | _ => otherOff s1

/-! ## The start of an update (R446) -/

/-- The header of an image obeys Table 15.9. -/
def headerFine (bs : List Byte) : Bool :=
  let total := fieldAt bs 16 4
  decide (96 ≤ bs.length) && fieldAt bs 0 2 == 1 && fieldAt bs 2 1 == 1 && fieldAt bs 3 1 == 0 && decide (1 ≤ fieldAt bs 12 2) &&
  decide (fieldAt bs 14 2 ≤ fieldAt bs 12 2) && total == bs.length && decide (total ≤ 67108864) && decide (fieldAt bs 24 4 < total) &&
  decide (fieldAt bs 28 2 ≤ 4096) && fieldAt bs 30 2 == 0 && decide (fieldAt bs 32 4 < total) && fieldAt bs 36 4 == 0 &&
  fieldAt bs 80 16 == 0

def tyOf (c : Nat) : Ty :=
  match c with
  | 1 => .bool | 2 => .i8 | 3 => .i16 | 4 => .i32 | 5 => .i64 | 6 => .u8 | 7 => .u16 | 8 => .u32 | 9 => .u64
  | 10 => .f32 | 11 => .f64 | 12 => .q16 | 13 => .str | 15 => .count | _ => .domain

/-- The range a descriptor declares (12 Table 12.4). -/
def rangeOf (t : Ty) (lo hi : Nat) : Range :=
  if t.isBytes then .len lo hi
  else if t = .f32 then .floats (f32ToRat lo) (f32ToRat hi)
  else if t = .f64 then .floats (Fmt.f64.toRat lo) (Fmt.f64.toRat hi)
  else .ints (t.toInt lo) (t.toInt hi)

/-- One entry of a declaration table: an entry descriptor of 12 Table 12.4 (15 Table 15.9). Every object it may declare is
firmware-backed (12 R347). -/
def parseEntry (bs : List Byte) : Entry where
  name := String.ofList ((((bs.drop 40).take 24).filter (fun b => b != 0)).map (fun b => Char.ofNat b.toNat))
  index := fieldAt bs 0 2
  count := 1
  step := 1
  sub0 := fieldAt bs 2 1
  subs := 1
  ty := tyOf (fieldAt bs 3 1)
  accF := fieldAt bs 4 1
  accH := fieldAt bs 5 1
  accS := fieldAt bs 6 1
  stF := fieldAt bs 8 1
  stH := fieldAt bs 9 1
  stS := fieldAt bs 10 1
  persist := match fieldAt bs 11 1 with | 1 => .hardware | 2 => .nor | 3 => .rcb | _ => .volatile
  fw := true
  dflt := fieldAt bs 16 8
  range := rangeOf (tyOf (fieldAt bs 3 1)) (fieldAt bs 24 8) (fieldAt bs 32 8)
  rye := false
  sat := bitSet (fieldAt bs 13 1) 1

def parseEntries : Nat → List Byte → List Entry
  | 0, _ => []
  | k + 1, bs => parseEntry bs :: parseEntries k (bs.drop 64)

/-- The FLAGS that the declared objects state, by key (12 Table 12.4). -/
def parseFlags : Nat → List Byte → Map Nat
  | 0, _ => []
  | k + 1, bs => put (parseFlags k (bs.drop 64)) (fieldAt bs 0 2 * 256 + fieldAt bs 2 1) (fieldAt bs 13 1 % 16)

/-- The image that the bytes of a slot or of UPDATE_IMAGE spell. Entries outside 0x8000 to 0x8FFF declare nothing (log 22). -/
def parseFw (s : State) (bs : List Byte) : FwImage :=
  { version := fieldAt bs 4 4, rollback := fieldAt bs 8 4, handover := fieldAt bs 12 2, acceptMin := fieldAt bs 14 2
    totalBytes := fieldAt bs 16 4, digest := slice bs (fieldAt bs 32 4) 64
    objects := (parseEntries (fieldAt bs 28 2) (bs.drop (fieldAt bs 24 4))).filter (fun e => e.index / 4096 == 8)
    flags := parseFlags (fieldAt bs 28 2) (bs.drop (fieldAt bs 24 4)), layout := slice bs 48 32
    trusted := headerFine bs && firmwareSigned s bs (fieldAt bs 32 4) }

/-- UPDATE_STATE is WRITING to TRIAL, or PENDING_RESTART. -/
def updBusy (s : State) : Bool := s.bar.upd.running || s.bar.upd == .pendingRestart

/-- The checks of an image's WRITE_END. -/
def updateHome (bs : List Byte) (s : State) : Nat :=
  if bs.length < 96 ∨ 67108864 < bs.length then 0x00030002
  else if updBusy s then 0x00071501
  else if !(headerFine bs) then 0x00041501
  else 0

def UpdateImageKey : Nat := 0x900100

/-- The update starts: the inactive slot is erased and programmed from the image written. -/
def startUpdate (bs : List Byte) (s : State) : State :=
  let s1 := setBar (fun b => { b with updImage := some (parseFw s bs), updError := 0 }) (dropUpdate s)
  let s2 := setSlot (otherSlot s.bar.bootSlot) ⟨.writing, none⟩ (setN (setN s1 Obj.updateProgress 0) Obj.updateTakeoverFrame Obj.updateTakeoverFrame.dflt)
  noteDegraded (setUpd .writing s2)

/-- UPDATE_IMAGE_WRITE_END: `bs` is the image written through BLOCK. -/
def execUpdateImageWriteEnd (au : Auth) (bs : List Byte) (s : State) : Out :=
  .next (writeStep au UpdateImageKey (.bytes bs) (updateHome bs) (fun _ => startUpdate bs) s)

/-! ## Programming and verifying (R447) -/

/-- The slot an update writes. -/
def updSlot (s : State) : Nat := otherSlot s.bar.bootSlot

def failSlot (code : Nat) (s : State) : State :=
  noteDegraded (updError .failed code (dropUpdate (setSlot (updSlot s) ⟨.invalid, none⟩ s)))

/-- UPDATE_PROGRAM_DONE: `ok` when the read-back is equal. -/
def execUpdateProgramDone (ok : Bool) (s : State) : Out :=
  if s.bar.upd ≠ .writing then .next s
  else if ok then
    let n := match s.bar.updImage with | some x => x.totalBytes | none => 0
    .next (setUpd .verifying (setN s Obj.updateProgress n))
  else .next (failSlot 0x00071502 s)

/-- ROLLBACK_CTR_0 (16 R465). -/
def rollbackCtr (s : State) : Nat := lookD s.cardamom.held.counters 0 0

/-- The handover formats fit (Table 15.10). -/
def formatsFit (s : State) (x : FwImage) : Bool :=
  match s.bar.fwImage with
  | some y => decide (x.acceptMin ≤ y.handover) && decide (y.handover ≤ x.handover)
  | none => false

/-- UPDATE_VERIFY_DONE: Cardamom's checks of digest, signature and ROLLBACK, then RCB_LAYOUT_DIGEST (R444). -/
def execUpdateVerifyDone (s : State) : Out :=
  match s.bar.upd, s.bar.updImage with
  | .verifying, some x =>
    if !x.trusted then .next (failSlot 0x00091501 s)
    else if x.rollback < rollbackCtr s then .next (failSlot 0x00091502 s)
    else if x.layout ≠ Config.layoutDigest then .next (failSlot 0x00041502 s)
    else
      let k := updSlot s
      let s1 := setSlot k ⟨.valid, some x⟩ s
      if getN s Obj.updateMode = 1 then
        .next (noteDegraded (setUpd .pendingRestart (setBar (fun b => { b with bootSlot := k, restartTrial := true }) (dropUpdate s1))))
      else if !(formatsFit s x) then .next (noteDegraded (updError .failed 0x00041503 (dropUpdate s1)))
      else .next (setUpd .shadowBoot s1)
  | _, _ => .next s

/-! ## The shadow (R447 to R449) -/

/-- SHADOW_STREAM_DONE: the other cluster is released in SHADOW. -/
def execShadowStreamDone (s : State) : Out :=
  if s.bar.upd ≠ .shadowBoot || s.bar.updStarted then .next s
  else
    let c : Fin 2 := 1 - ctrl s
    .next (setBar (fun b => { b with updStarted := true, shadowDue := s.clk.cycles + sCycles 10 })
      (updCluster c (fun _ => { Cluster.init with role := .shadow, wdogDue := s.clk.cycles + wdogCycles }) s))

/-- A handover register written from the wrong cluster, or in another state, is ignored and counted (R448). -/
def ignored (s : State) : State := inc32 s Obj.handoverIgnored

/-- A handover register is written (R434 source 293). -/
def handover (c : Fin 2) (role : Role) (st : UpdState) (more : Bool) (f : State → State) (s : State) : State :=
  if s.part.reset then s
  else if roleOf s c = role && s.bar.upd = st && more then f (routeIrq 293 s) else ignored s

/-- SHADOW_HELLO. -/
def execShadowHello (c : Fin 2) (s : State) : Out := .next (handover c .shadow .shadowBoot true (setUpd .shadowSync) s)

/-- SHADOW_BOOT_TIMEOUT: 10 s without SHADOW_HELLO. -/
def execShadowBootTimeout (s : State) : Out :=
  if s.bar.upd = .shadowBoot && s.bar.updStarted then .next (failShadow 0x00071503 (tickTo s.bar.shadowDue s)) else .next s

/-- T and its start count: the first frame at or after UPDATE_AT that starts at least 2 F later (R449). -/
def chooseT (s : State) : Nat × Count :=
  let f := frameNs s
  let c := now s + 2 * f
  if s.part.st = .run then
    let n := max (getN s Obj.updateAt) (ceilDiv (c - getN s Obj.launchAt) f)
    (n, startOf s n)
  else
    let n := max (getN s Obj.updateAt) (ceilDiv c f)
    (n, n * f)

def beginReady (s : State) : State :=
  let t := chooseT s
  setUpd .shadowReady (setN (setBar (fun b => { b with takeT := some t.1, takeAt := t.2 }) s) Obj.updateTakeoverFrame t.1)

/-- SHADOW_READY. -/
def execShadowReady (c : Fin 2) (s : State) : Out := .next (handover c .shadow .shadowSync true beginReady s)

/-! ## Take-over (R450, R451) -/

/-- TAKEOVER_HOLD_START: the start of frame T − 1. -/
def execTakeoverHoldStart (s : State) : Out :=
  if s.bar.upd ≠ .shadowReady then .next s
  else
    let s1 := reachCount (s.bar.takeAt - frameNs s) s
    .next (setUpd .takeover (setBar (fun b => { b with holdOn := true, finalWritten := false, acceptWritten := false }) s1))

/-- TAKEOVER_FINAL. -/
def execTakeoverFinal (c : Fin 2) (s : State) : Out :=
  .next (handover c .control .takeover true (setBar (fun b => { b with finalWritten := true })) s)

/-- TAKEOVER_ACCEPT, after TAKEOVER_FINAL. -/
def execTakeoverAccept (c : Fin 2) (s : State) : Out :=
  .next (handover c .shadow .takeover s.bar.finalWritten (setBar (fun b => { b with acceptWritten := true })) s)

/-- TAKEOVER: the start of frame T. -/
def execTakeover (s : State) : Out :=
  if s.bar.upd ≠ .takeover then .next s
  else
    let s1 := reachCount s.bar.takeAt s
    if s.bar.finalWritten && s.bar.acceptWritten then .next (noteDegraded (takeOver s1))
    else .next (releaseSteps (failShadow 0x00071504 s1))

/-! ## The trial (R452, R453) -/

/-- HEALTH_PASS counts before UPDATE_HEALTH_DEADLINE (R452). -/
def execHealthPass (c : Fin 2) (s : State) : Out :=
  .next (handover c .control .trial true (setBar (fun b => { b with healthPassed := b.healthPassed || decide (now s < b.healthDue) })) s)

/-- HEALTH_FAIL. `kept` matters where a restart trial resets the main die. -/
def execHealthFail (c : Fin 2) (kept : Bool) (s : State) : Out := noted <|
  .next (handover c .control .trial (!(trialPassed s)) (trialFails kept) s)

/-- UPDATE_HEALTH_DEADLINE passes without a passed trial. -/
def execUpdateHealthDeadline (kept : Bool) (s : State) : Out := noted <|
  if s.bar.upd = .trial && !(trialPassed s) then .next (trialFails kept (reachCount s.bar.healthDue s)) else .next s

/-- ABORT (Table 15.10). -/
def abortUpdate (kept : Bool) (s : State) : State :=
  match s.bar.upd with
  | .writing | .verifying | .shadowBoot | .shadowSync | .shadowReady =>
    noteDegraded (updError .failed 0x00071508 (dropUpdate (otherOff (spoilSlot s))))
  | .pendingRestart => noteDegraded (updError .failed 0x00071508 (dropUpdate (restoreSelector s)))
  | .trial => if trialPassed s then s else trialFails kept s
  | _ => s

/-- UPDATE_ABORT: 1 written to UPDATE_CTRL. -/
def execUpdateAbort (au : Auth) (kept : Bool) (s : State) : Out := noted <|
  .next (writeStep au Obj.updateCtrl.key (.num 1) noHome (fun _ => abortUpdate kept) s)

/-- CONFIRM counts in a trial, before UPDATE_HEALTH_DEADLINE (R452). -/
def confirmUpdate (s : State) : State :=
  if s.bar.upd = .trial && decide (now s < s.bar.healthDue) then setBar (fun b => { b with confirmed := true }) s else s

/-- UPDATE_CONFIRM: 2 written to UPDATE_CTRL. -/
def execUpdateConfirm (au : Auth) (s : State) : Out :=
  .next (writeStep au Obj.updateCtrl.key (.num 2) noHome (fun _ => confirmUpdate) s)

/-! ## The security record (16 R464) -/

def setSec (f : Security → Security) (s : State) : State := { s with cardamom := f s.cardamom }

/-- The record is changed and committed to both copies, with GENERATION one higher. -/
def commitRec (f : SecRecord → SecRecord) (s : State) : State :=
  let r := f s.cardamom.held
  let r1 := { r with generation := (r.generation + 1) % 2 ^ 64, valid := true }
  setSec (fun c => { c with held := r1, recA := r1, recB := r1, commit := some (c.recA, c.recB, s.clk.cycles) }) s

/-- A rollback counter is raised, and the log notes it (16 Table 16.4; the packing of EXTRA is open, log 35). -/
def raiseCtr (k v : Nat) (s : State) : State :=
  logMeas 9 (List.replicate 32 0) (Config.pair k v) (commitRec (fun r => { r with counters := putD r.counters k v 0 }) s)

/-- UPDATE_COMMIT_DONE: the boot selector names the new slot. -/
def execUpdateCommitDone (s : State) : Out :=
  if s.bar.upd = .trial && trialPassed s then
    let s1 := setBar (fun b => { b with bootSlot := b.fwSlot, restartTrial := false }) (dropUpdate (otherOff s))
    let s2 := match s1.bar.fwImage with
      | some x => if rollbackCtr s1 < x.rollback then raiseCtr 0 x.rollback s1 else s1
      | none => s1
    .next (noteDegraded (measureFw 5 UpdState.committed.code (setUpd .committed s2)))
  else .next s

/-! ## Codes of the firmware (17 R491) -/

/-- FW_CODE_RAISE: a core writes DETAIL on page 0x0260 at the offset of code 0xE00 + c. -/
def execFwCodeRaise (c : Fin 512) (detail : Nat) (s : State) : Out :=
  if s.part.reset || s.bar.fwImage.isNone || fwFrozen s then .next s else .next (raiseMain (.fw c) 0x8000 (detail % two32) s)

end Sys2Proof.Machine
end

