-- ==== Sys2Proof/Machine/Part.lean ====
section
/-! DEFINITION. The start of the main die (01 R39 to R41, 16 R456 to R468), and the commands of states, authorities and recovery
(11 R320 to R339). -/
namespace Sys2Proof.Machine

open Sys2Proof

def setPart (f : Part → Part) (s : State) : State := { s with part := f s.part }

/-! ## What starts with the dictionary engine (R39, R324) -/

def entryFrom : List Byte → List GateEntry
  | a :: _ :: _ :: _ :: b :: c :: d :: e :: t => ⟨a.toNat, ofLe [b, c, d, e]⟩ :: entryFrom t
  | _ => []

/-- A gate control list as its bytes give it (13 Table 13.3). -/
def parseGates (bs : List Byte) : GateList := ⟨fieldAt bs 0 4, (entryFrom (bs.drop 8)).take (fieldAt bs 4 2)⟩

/-- A host port's MAC starts: its gate list is loaded, and auto-negotiation starts where PORT_MODE is not 0 (13 R384). -/
def startMac (p : Fin 2) (s : State) : State :=
  openGates p (updHost p (fun h => { h with
    gates := parseGates (getBlob s (Blob.gateList p.val))
    link := if getN s (Obj.portMode p.val) = 0 then .down else .training }) s)

def startSb (a : Fin 8) (s : State) : State :=
  updSb a (fun x => { x with link := if getN s (Obj.sbMode a.val) = 0 then .down else .training }) s

def startMacs (s : State) : State := startMac 1 (startMac 0 s)

/-- A boot failure: SAFE. With an identity Cardamom starts the dictionary engine, the serializer and the MACs in hardware. -/
def bootFails (s : State) : State :=
  let s1 := setPart (fun p => { p with boot := .failed }) s
  let s2 := if s1.cardamom.identity then startMacs (odaUp true (serializerUp s1)) else s1
  enterSafe .bootFailure s2

/-! ## Cardamom (16 R456 to R464) -/

def secSrc : Nat := 0x6001

/-- PUF_ATTEMPT_DONE: `ok` when the check value holds; three attempts for each copy of the helper data, copy A first. -/
def execPufAttemptDone (ok : Bool) (s : State) : Out := noted <|
  if s.part.reset || s.part.boot ≠ .puf then .next s
  else if ok then .next (setPart (fun p => { p with boot := .keys }) (setSec (fun c => { c with seedHeld := true }) s))
  else if s.cardamom.attempt < 2 then .next (setSec (fun c => { c with attempt := c.attempt + 1 }) s)
  else if s.cardamom.pufCopy = 0 then .next (setSec (fun c => { c with attempt := 0, pufCopy := 1 }) s)
  else .next (bootFails (raiseMain .pufFailed secSrc (openDetail .pufFailed 0) (setSec (fun c => { c with st := .noIdentity, identity := false }) s)))

/-- The valid copy of higher GENERATION (R464). -/
def newestRec (c : Security) : Option SecRecord :=
  if c.recA.valid && (!c.recB.valid || decide (c.recB.generation ≤ c.recA.generation)) then some c.recA
  else if c.recB.valid then some c.recB
  else none

/-- SEC_STATE (R461). -/
def secStateOf (r : SecRecord) : SecState := if r.keys.isEmpty then .unowned else .owned

/-- The bytes of the owner slots and the revocation list, as they are measured (Table 16.4). -/
def ownerBytes (r : SecRecord) : List Byte :=
  (r.keys.map (fun p => leBytes 1 p.1 ++ p.2.digest ++ leBytes 1 p.2.roles)).flatten ++ r.revoked.flatten

/-- KEY_DERIVATION_DONE: the seed is erased, the security record loaded, BOOT_COUNT committed, and the first measurements
made. -/
def execKeyDerivationDone (s : State) : Out := noted <|
  if s.part.reset || s.part.boot ≠ .keys then .next s
  else
    let s1 := setSec (fun c => { c with seedHeld := false, identity := true }) s
    match newestRec s1.cardamom with
    | none =>
      .next (bootFails (raiseMain .secRecordLost secSrc (openDetail .secRecordLost 0)
        (setSec (fun c => { c with st := .unowned, held := { SecRecord.empty with valid := false } }) s1)))
    | some r =>
      let s2 := commitRec (fun r => { r with bootCount := r.bootCount + 1 }) (setSec (fun c => { c with st := secStateOf r, held := r }) s1)
      .next (s2 |> logMeas 1 Config.romDigest 0 |> logMeas 2 Config.layoutDigest 0 |> logMeas 3 (Config.shake (ownerBytes r) 64) 0
        |> setPart (fun p => { p with boot := .stream }))

/-! ## The firmware of a start (R39, R41, 15 R443, R447) -/

/-- The slot that is streamed: the active one, then the other. Where a restart trial failed, BOOT_SLOT names the other one again
(SLOT_TRIED 2). -/
def streamSlot (s : State) : Nat := if s.part.slotTried = 1 then otherSlot s.bar.bootSlot else s.bar.bootSlot

/-- What a slot gives: the image Sorghum wrote there, or the bytes it was delivered with; none where it cannot be read. -/
def streamed (s : State) (read : Option (List Byte)) : Option FwImage :=
  match read with
  | none => none
  | some bs =>
    (match slotOf s (streamSlot s) with
     | ⟨.valid, some y⟩ => some y
     | _ => some (parseFw s bs))

/-- The slot fails verification: the other one is tried once. -/
def slotFails (s : State) : State :=
  let s1 := raiseMain .bootSlotFailed updSrc (openDetail .bootSlotFailed (streamSlot s)) s
  let s2 := if s1.bar.restartTrial then updError .handedBack 0x00071505 (dropUpdate (restoreSelector s1)) else s1
  if s.part.slotTried = 0 then setPart (fun p => { p with slotTried := if s.bar.restartTrial then 2 else 1 }) s2 else bootFails s2

/-- FIRMWARE holds the image that was streamed into it (14 R407), and cluster A is released with it; a boot selector written in
PENDING_RESTART begins its trial. -/
def releaseFw (x : FwImage) (s : State) : State :=
  let k := streamSlot s
  let s := setMem (fun m => { m with ram := m.ram.filter (fun p => !(decide (0x800000000 ≤ p.1) && decide (p.1 < 0x804000000))) }) s
  let s1 := logMeas 4 x.digest (Config.pair x.version x.rollback) (setSlot k ⟨.valid, some x⟩ s)
  let s2 := setBar (fun b => { b with fwImage := some x, fwSlot := k, fwAlt := false, control := 0, clusters := Vector.replicate 2 Cluster.init }) s1
  let s3 := updCluster 0 (fun c => { c with role := .control, wdogDue := s.clk.cycles + wdogCycles }) s2
  let s4 := setPart (fun p => { p with boot := .train }) s3
  if s4.bar.restartTrial && k == s4.bar.bootSlot then
    let due := now s4 + 60000000000
    setUpd .trial (setN (setBar (fun b => { b with healthDue := due, healthPassed := false, confirmed := false }) s4) Obj.updateHealthDeadline due)
  else s4

/-- FIRMWARE_STREAM_DONE: `read` is what the slot read as; Cardamom checks digest, signature, ROLLBACK and RCB_LAYOUT_DIGEST. -/
def execFirmwareStreamDone (read : Option (List Byte)) (s : State) : Out := noted <|
  if s.part.reset || s.part.boot ≠ .stream then .next s
  else
    match streamed s read with
    | none => .next (slotFails s)
    | some x =>
      if !x.trusted || decide (x.rollback < rollbackCtr s) then .next (slotFails s)
      else if x.layout ≠ Config.layoutDigest then .next (bootFails s)
      else .next (releaseFw x s)

/-! ## Barley (R39, 14 R405, R406) -/

/-- LPDDR4X holds nothing: what the hardware keeps there is gone, the records of EVENT_HISTORY among it (14 R405). -/
def memEmpty (s : State) : State :=
  let s1 := setEng (fun g => { g with
    bufA := none, bufB := none, writes := [], lib := [], books := [], output := [], ledgers := []
    ring := { Rings.init with trigsIgnored := g.ring.trigsIgnored } }) s
  let s2 := setImg (fun m => { Images.init with lostDom := m.lostDom }) { s1 with ev := { s1.ev with history := [] } }
  setMem (fun m => { m with ram := m.ram.filter (fun p => decide (p.1 < 0x800000000)), poison := [] }) s2

/-- LPDDR4X_TRAINING_DONE: what was not retained is gone. A failure is recorded and notified once the serializer runs (R41; log 80). -/
def execLpddr4xTrainingDone (ok : Bool) (s : State) : Out :=
  if s.part.reset || s.part.boot ≠ .train then .next s
  else
    let s1 := setMem (fun m => { m with st := if ok then .ready else .failed, scrubFrom := s.clk.cycles }) (if s.mem.retained then s else memEmpty s)
    .next (setPart (fun p => { p with boot := .start }) s1)

/-- Nothing held in LPDDR4X survived (R406): no session, image, library, codebook, checkpoint or ring. -/
def memLost (s : State) : State :=
  let s1 := memEmpty (mapSess (fun _ x => if x.live then x.release else x) s)
  let s2 := setEng (fun g => { g with slots := [], nextControls := [], cutControls := [] }) s1
  raiseMain .memLost memSrc (openDetail .memLost 0) (raiseMain .ckptLost ckptSrc (openDetail .ckptLost 0) s2)

/-- The services of READY. -/
def readyUp (s : State) : State :=
  let lost := s.part.restorePending && !s.mem.retained
  let s0 := serializerUp (setPart (fun p => { p with boot := .done }) s)
  let s0 := if s.mem.st = .failed then raiseMain .memTrainingFailed memSrc (openDetail .memTrainingFailed 0) s0 else s0
  let s1 := forAll 8 startSb (startMacs (odaUp false s0))
  let s2 := if s1.part.st = .safe then s1 else enterPart .ready s1
  let s3 := if lost && s2.part.st == .ready then setPart (fun p => { p with restorePending := false, restored := true, restoredAt := now s2 }) (memLost s2) else s2
  noteDegraded (settleLevel (recomputeCaps s3))

/-- PART_READY. -/
def execPartReady (s : State) : Out :=
  if s.part.reset || s.part.boot ≠ .start then .next s else .next (readyUp s)

/-! ## Requests and quarantine (R328, R339) -/

def reqOf (v : Nat) : Req := if v = 1 then .on else if v = 2 then .off else .none
def Req.code : Req → Nat
  | .none => 0 | .on => 1 | .off => 2

def reqKey (au : Auth) (a : Fin 8) : Nat :=
  match au with
  | .facility => (Obj.facilityReq a.val).key
  | .host => (Obj.hostReq a.val).key
  | .service => (Obj.serviceReq a.val).key
  | .protection => (Obj.protectionReq a.val).key

/-- A request stands in Rye, and the effective request follows. -/
def setReq (au : Auth) (a : Fin 8) (v : Nat) (s : State) : State :=
  settleReq a (updAcc a (fun x =>
    match au with
    | .facility => { x with reqF := reqOf v }
    | .host => { x with reqH := reqOf v }
    | .service => { x with reqS := reqOf v }
    | .protection => x) s)

/-- ACCEL_REQUEST_WRITE. -/
def execAccelRequestWrite (au : Auth) (a : Fin 8) (v : Nat) (s : State) : Out :=
  .next (writeStep au (reqKey au a) (.num v) noHome (fun _ => setReq au a v) s)

/-- QUARANTINE and the fault history are cleared; nothing happens to one that is not quarantined. -/
def releaseQuar (a : Fin 8) (s : State) : State :=
  if (s.acc.get a).quarantined then storeNum (Obj.quarantine a.val) 0 (updAcc a (fun x => { x with quarantined := false, faults := [] }) s) else s

/-- QUAR_RELEASE. -/
def execQuarRelease (au : Auth) (a : Fin 8) (s : State) : Out :=
  .next (writeStep au (Obj.quarRelease a.val).key (.num 1) noHome (fun _ => releaseQuar a) s)

/-! ## Service mode (R330, 13 R400) -/

/-- SERVICE_STRAP_ASSERTED: for 10 ms since the cycle `since`. It lifts the block of B0 (08 R271). -/
def execServiceStrapAsserted (since : Nat) (s : State) : Out :=
  if !s.clk.running || s.part.strap then .next s
  else
    let s0 := stands since (msCycles 10) s
    .next (noteDegraded (notePump { s0 with part := { s0.part with strap := true }, port := { s0.port with svcOn := true } }))

/-- No order of SERVICE stands. -/
def serviceOff (s : State) : State :=
  let s1 := closeWhere (fun x => x.auth == .service) s
  let s2 := forAll 8 (fun a s => setN (updAcc a (fun x => { x with reqS := .none }) s) (Obj.serviceCapW a.val) 0) s1
  recomputeCaps (forAll 8 settleReq (setN s2 Obj.serviceTrayCapW 0))

/-- B0 is demanded off as soon as the block of R271 stands again (08 R241, Table 8.2). -/
def openBlocked (s : State) : State := if b0Blocked s && brTakes s 0 BrState.live .off then enterBr 0 .off .pd100mA s else s

/-- SERVICE_STRAP_DEASSERTED: for 10 ms since the cycle `since`. On one Rye cycle SERVICE sessions close, its requests and caps
go, the port is turned off, and a B0 that only the strap let on opens. -/
def execServiceStrapDeasserted (since : Nat) (s : State) : Out :=
  if !s.part.strap then .next s
  else
    let s0 := stands since (msCycles 10) s
    .next (noteDegraded (notePump (openBlocked (serviceOff
      { s0 with part := { s0.part with strap := false }, port := { s0.port with svcOn := false, svcUp := false } }))))

/-! ## SAFE (R325) -/

def mayCommandSafe (s : State) : Bool := !s.part.reset && (s.part.st == .boot || s.part.st == .ready || s.part.st == .run) && s.bar.fwImage.isSome

/-- WARDEN_SAFE: the engine stops at the end of the frame in progress. -/
def execWardenSafe (s : State) : Out := noted <|
  if !(mayCommandSafe s) then .next s
  else
    let s1 := releaseSteps (enterSafe .warden s)
    .next (if s1.eng.running && s1.eng.mainDone then stopSafe s1 else s1)

/-- WARDEN_RELEASE: READY; after a RUN the sessions are restored from the checkpoint and Anise restarts. -/
def execWardenRelease (s : State) : Out :=
  if s.part.st ≠ .safe || s.part.safeCause ≠ .warden || s.part.reset then .next s
  else
    let run := s.part.safeFromRun
    let s1 := setPart (fun p => { p with safeCause := .none, safeFromRun := false }) s
    let s2 := if run then setPart (fun p => { p with restorePending := true, restored := false }) (restartAnise (stopSafe s1)) else s1
    if s2.part.boot = .done then .next (noteDegraded (settleReady (enterPart .ready s2)))
    else .next (readyUp (setPart (fun p => { p with st := .boot }) s2))

/-! ## Main-die reset (R336) -/

/-- PART_RESTART: a write of 1. -/
def execPartRestart (au : Auth) (kept : Bool) (s : State) : Out := noted <|
  .next (writeStep au Obj.partRestart.key (.num 1) noHome (fun _ => mainReset 1 kept) s)

/-- KEEPALIVE_LOSS; `kept` says that the memory controller confirmed self-refresh. -/
def execKeepaliveLoss (kept : Bool) (s : State) : Out := noted <| if s.clk.running then .next (mainReset 0 kept s) else .next s

/-- MAIN_DIE_RESET_END: 200 ms after assertion, with the self rails on. -/
def execMainDieResetEnd (s : State) : Out := noted <|
  if s.part.reset && decide (s.part.resetDue ≠ 0) && (s.sq.get sSelf).st == .on then .next (releaseMain (tickTo s.part.resetDue s)) else .next s

/-! ## Firmware restart and watchdogs (R335, 15 R431 to R434) -/

/-- A warm restart; a shadow of an update is lost with it. -/
def warmRestart (s : State) : State := restartFw (ctrl s) 2 (crashEndsShadow s)

/-- FW_RESTART: a write of 1. -/
def execFwRestart (au : Auth) (s : State) : Out :=
  .next (writeStep au Obj.fwRestart.key (.num 1) noHome (fun _ => warmRestart) s)

/-- WATCHDOG_EXPIRY: 250 ms without a kick. -/
def execWatchdogExpiry (c : Fin 2) (kept : Bool) (s : State) : Out :=
  let due := (s.bar.clusters.get c).wdogDue
  match roleOf s c with
  | .control => .next (noteDegraded (crashControl c kept (tickTo due s)))
  | .shadow => .next (noteDegraded (crashShadow c kept (tickTo due s)))
  | _ => .next s

/-- WDOG_WARN: 200 ms without a kick. -/
def execWdogWarn (c : Fin 2) (s : State) : Out :=
  let x := s.bar.clusters.get c
  if wardenUp s c && !x.warned then
    .next (clusterIrq 292 c (updCluster c (fun x => { x with warned := true }) (tickTo (x.wdogDue - msCycles 50) s)))
  else .next s

/-- WDOG_KICK: 0x0000_5A5A restarts the watchdog; any other value is ignored. -/
def execWdogKick (c : Fin 2) (v : Nat) (s : State) : Out :=
  if wardenUp s c && v == 0x5A5A then .next (updCluster c (fun x => { x with wdogDue := s.clk.cycles + wdogCycles, warned := false }) s) else .next s

/-- FIRMWARE_RESTARTED: the firmware serves again, with the journal of a hand-back re-applied. -/
def execFirmwareRestarted (s : State) : Out :=
  if !s.part.fwRestarting then .next s
  else
    .next (noteDegraded (setBar (fun b => { b with journal := if b.upd = .handedBack then [] else b.journal })
      (setPart (fun p => { p with fwRestarting := false }) s)))

/-- L2_INVALIDATE: a write of 1; the field reads 1 until done. -/
def execL2Invalidate (c : Fin 2) (v : Nat) (s : State) : Out :=
  if wardenUp s c && v == 1 then .next (updCluster c (fun x => { x with l2Busy := true, l2Due := s.clk.cycles + usCycles 20 }) s) else .next s

/-- L2_INVALIDATE_DONE, at its bound of 20 µs after the write (DESIGN CHOICE, log 74). -/
def execL2InvalidateDone (c : Fin 2) (s : State) : Out :=
  if (s.bar.clusters.get c).l2Busy then .next (updCluster c (fun x => { x with l2Busy := false }) (tickTo (s.bar.clusters.get c).l2Due s)) else .next s

end Sys2Proof.Machine
end

