-- ==== Sys2Proof/Machine/Read.lean ====
section
/-! DEFINITION. What a read of a dictionary object returns (12 R352): the value of every object of the tables, from the state
that holds it, and the entry descriptor of R348. -/
namespace Sys2Proof.Machine

open Sys2Proof

/-! ## The names of the codes -/

def evNames0 : List (Ev × String) :=
  [(.recorderSuppressed, "RECORDER_SUPPRESSED"), (.recorderCommitFailed, "RECORDER_COMMIT_FAILED"),
   (.recorderLost, "RECORDER_LOST"), (.recorderPartial, "RECORDER_PARTIAL"), (.accelReplaced, "ACCEL_REPLACED"),
   (.fruReadFailed, "FRU_READ_FAILED"), (.peReplaced, "PE_REPLACED"), (.queueOverflow, "QUEUE_OVERFLOW"),
   (.timeLocked, "TIME_LOCKED"), (.timeUnlocked, "TIME_UNLOCKED"), (.timeStepped, "TIME_STEPPED"),
   (.timeOffsetLarge, "TIME_OFFSET_LARGE"), (.timeHoldoverExpired, "TIME_HOLDOVER_EXPIRED"),
   (.timeSourceChanged, "TIME_SOURCE_CHANGED"), (.syncRejected, "SYNC_REJECTED"), (.launchMissed, "LAUNCH_MISSED"),
   (.launchDisarmed, "LAUNCH_DISARMED"), (.branchFastTrip, "BRANCH_FAST_TRIP"),
   (.branchCurveTrip, "BRANCH_CURVE_TRIP"), (.branchTfetTrip, "BRANCH_TFET_TRIP"),
   (.branchTfetSensorTrip, "BRANCH_TFET_SENSOR_TRIP"), (.branchInrushTimer, "BRANCH_INRUSH_TIMER"),
   (.gateNoRise, "GATE_NO_RISE"), (.outputWhileOff, "OUTPUT_WHILE_OFF"), (.notCleared, "NOT_CLEARED")]

def evNames1 : List (Ev × String) :=
  [(.escalation, "ESCALATION"), (.branchCurveWarn, "BRANCH_CURVE_WARN"), (.tfetSensorFault, "TFET_SENSOR_FAULT"),
   (.tfetSensorOk, "TFET_SENSOR_OK"), (.fetTempHigh, "FET_TEMP_HIGH"), (.fetVdsHigh, "FET_VDS_HIGH"),
   (.vinOv, "VIN_OV"), (.branchPresenceLost, "BRANCH_PRESENCE_LOST"), (.branchPresenceEdge, "BRANCH_PRESENCE_EDGE"),
   (.branchToggleIgnored, "BRANCH_TOGGLE_IGNORED"), (.branchUnclearedTrip, "BRANCH_UNCLEARED_TRIP"),
   (.vinLow, "VIN_LOW"), (.emergencyStarted, "EMERGENCY_STARTED"), (.railUvFault, "RAIL_UV_FAULT"),
   (.railOvFault, "RAIL_OV_FAULT"), (.railPgLost, "RAIL_PG_LOST"), (.railUvWarn, "RAIL_UV_WARN"),
   (.railOvWarn, "RAIL_OV_WARN"), (.pgDeglitch, "PG_DEGLITCH"), (.pgTimeout, "PG_TIMEOUT"), (.upTimeout, "UP_TIMEOUT"),
   (.railEarlyCollapse, "RAIL_EARLY_COLLAPSE"), (.railNoDischarge, "RAIL_NO_DISCHARGE"),
   (.downWaitTimeout, "DOWN_WAIT_TIMEOUT"), (.selfRailFault, "SELF_RAIL_FAULT")]

def evNames2 : List (Ev × String) :=
  [(.thermtrip, "THERMTRIP"), (.branchLost, "BRANCH_LOST"), (.b0Off, "B0_OFF"), (.offOrder, "OFF_ORDER"),
   (.admitFailed, "ADMIT_FAILED"), (.triggerRecorded, "TRIGGER_RECORDED"), (.triggerThermtrip, "TRIGGER_THERMTRIP"),
   (.triggerVinLow, "TRIGGER_VIN_LOW"), (.partTempWarn, "PART_TEMP_WARN"), (.sorghumTempWarn, "SORGHUM_TEMP_WARN"),
   (.engineThrottle, "ENGINE_THROTTLE"), (.thermalShutdown, "THERMAL_SHUTDOWN"),
   (.thermalRestartAbandoned, "THERMAL_RESTART_ABANDONED"), (.sorghumOt, "SORGHUM_OT"),
   (.accelThermalRelease, "ACCEL_THERMAL_RELEASE"), (.accelLimitWriteFailed, "ACCEL_LIMIT_WRITE_FAILED"),
   (.fanFault, "FAN_FAULT"), (.coolantFlowLow, "COOLANT_FLOW_LOW"), (.tempSensorFault, "TEMP_SENSOR_FAULT"),
   (.tempSensorOk, "TEMP_SENSOR_OK"), (.leakWarn, "LEAK_WARN"), (.leakFault, "LEAK_FAULT"), (.leakOpen, "LEAK_OPEN"),
   (.tileFailed, "TILE_FAILED"), (.cloveUe, "CLOVE_UE"), (.stagingLate, "STAGING_LATE")]

def evNames3 : List (Ev × String) :=
  [(.p0AdmissionFailed, "P0_ADMISSION_FAILED"), (.sessionOpened, "SESSION_OPENED"), (.sessionClosed, "SESSION_CLOSED"),
   (.sessionAnomaly, "SESSION_ANOMALY"), (.modelSwitched, "MODEL_SWITCHED"), (.modelLoadFailed, "MODEL_LOAD_FAILED"),
   (.switchDiscarded, "SWITCH_DISCARDED"), (.sessionReapplyFailed, "SESSION_REAPPLY_FAILED"), (.ckptLost, "CKPT_LOST"),
   (.domainLost, "DOMAIN_LOST"), (.engineLost, "ENGINE_LOST"), (.arithFlags, "ARITH_FLAGS"), (.aniseUe, "ANISE_UE"),
   (.mpcInvalid, "MPC_INVALID"), (.targetClamped, "TARGET_CLAMPED"), (.predictiveFault, "PREDICTIVE_FAULT"),
   (.predictiveClear, "PREDICTIVE_CLEAR"), (.concordDiverged, "CONCORD_DIVERGED"), (.partDegraded, "PART_DEGRADED"),
   (.safe, "SAFE"), (.mainDieReset, "MAIN_DIE_RESET"), (.accelRequestChanged, "ACCEL_REQUEST_CHANGED"),
   (.accelQuarantined, "ACCEL_QUARANTINED"), (.bootSlotFailed, "BOOT_SLOT_FAILED"),
   (.memTrainingFailed, "MEM_TRAINING_FAILED")]

/-- The events with their names (17 Table 17.1; log 5). Firmware codes are named by their number. -/
def evNames : List (Ev × String) := evNames0 ++ evNames1 ++ evNames2 ++ evNames3

/-! ## Codes of the states -/

def TimeState.code : TimeState → Nat
  | .free => 0 | .acquiring => 1 | .locked => 2 | .holdover => 3 | .coarse => 4
def LibState.code : LibState → Nat
  | .empty => 0 | .verifying => 1 | .valid => 2 | .refused => 3
def RingState.code : RingState → Nat
  | .recording => 0 | .frozen => 1 | .replaying => 2 | .idle => 3
def ReplayState.code : ReplayState → Nat
  | .idle => 0 | .running => 1 | .done => 2 | .mismatch => 3 | .refused => 4
def ImgState.code : ImgState → Nat
  | .empty => 0 | .verifying => 1 | .valid => 2 | .refused => 3 | .armed => 4 | .inForce => 5
def ProgState.code : ProgState → Nat
  | .none => 0 | .checking => 1 | .inForce => 2 | .refused => 3
def ConcordState.code : ConcordState → Nat
  | .off => 0 | .converged => 1 | .diverged => 2
def BrState.code : BrState → Nat
  | .off => 0 | .inrush => 1 | .on => 2 | .latched => 3 | .faultFet => 4 | .held => 5
def SeqState.code : SeqState → Nat
  | .idle => 0 | .admission => 1 | .up => 2 | .pgWindow => 3 | .on => 4 | .down => 5 | .emergency => 6 | .offWait => 7 | .held => 8
def SeqList.code : SeqList → Nat
  | .none => 0 | .up => 1 | .down => 2 | .emergency => 3
def OutState.code : OutState → Nat
  | .follow => 0 | .failsafe => 1 | .leakClosed => 2 | .notDriven => 3
def LeakState.code : LeakState → Nat
  | .dry => 0 | .warn => 1 | .fault => 2 | .open => 3 | .disabled => 4
def ZoneState.code : ZoneState → Nat
  | .clear => 0 | .latched => 1 | .clearable => 2
def SafeCause.code : SafeCause → Nat
  | .none => 0 | .bootFailure => 1 | .sorghumOt => 2 | .warden => 3
def Link.code : Link → Nat
  | .down => 0 | .training => 1 | .up100 => 2 | .up200 => 3
def SbLink.code : SbLink → Nat
  | .down => 0 | .training => 1 | .up => 2
def MemState.code : MemState → Nat
  | .untrained => 0 | .ready => 1 | .selfRefresh => 2 | .failed => 3
def SlotState.code : SlotState → Nat
  | .empty => 0 | .writing => 1 | .valid => 2 | .invalid => 3
def SecState.code : SecState → Nat
  | .unowned => 0 | .owned => 1 | .noIdentity => 2
def TxStatus.code : TxStatus → Nat
  | .notSeen => 0 | .inProgress => 1 | .applied => 2 | .partialDone => 3 | .rejected => 4 | .notHeld => 5

/-! ## Small encodings -/

def ascii (x : String) : List Byte := x.toList.map (fun c => BitVec.ofNat 8 c.toNat)

/-- A two's complement pattern of w bits. -/
def patOf (w : Nat) (i : Int) : Nat := (i % (2 ^ w : Int)).toNat

/-- A bit per tile of a list, in 9 bytes (12 Table 12.6). -/
def tileBytes (l : List Nat) : List Byte := leBytes 9 ((l.map (fun t => 2 ^ t)).sum)

def f32Bytes (q : Rat) : List Byte := leBytes 4 (f32OfRat q)

/-- Sensor values as F32, NaN for a sensor that is not powered. -/
def sensorBytes (n : Nat) (l : List (Option Int)) : List Byte :=
  ((List.range n).map (fun i => match (l[i]?).join with | some q => f32Bytes (quarterC q) | none => leBytes 4 nanF32)).flatten

/-- A sample of a temperature channel; NaN on a sensor fault. -/
def channelF32 (s : State) (c : Fin 32) : Nat :=
  if s.heat.chFault.get c then nanF32 else match s.heat.channels.get c with | some q => f32OfRat q | none => nanF32

def gradeCode (active : Nat) : String := if active = 64 then "DW880-64A" else if active = 48 then "DW880-48A" else "DW880-32A"

/-! ## Objects of several fields -/

/-- LTILE_BIND (06 Table 6.11). -/
def bindWord (s : State) (l : Nat) : Nat :=
  match s.img.binds[l]? with
  | none => 0xFFFF
  | some b => (match b.ptile with | some q => q | none => 0xFF) + b.fold * 256 + b.member * 2048 + boolBit b.hold 13 + b.tier * 16384

def sessionsP0 (s : State) : Nat :=
  ((liveSessions s).filter (fun p => p.2.st != .pending && p.2.desc.cls == 0)).length

/-- ANISE_OUTPUT: tick, set points, node temperatures (07 R240). -/
def aniseOutput (s : State) : List Byte :=
  leBytes 8 s.ani.tick ++
  ((List.range 24).map (fun o => leBytes 4 ((s.ani.set.getD o none).getD (Config.openValue 0x480200 o % 2 ^ 32)))).flatten ++
  (s.ani.temps.map (leBytes 8)).flatten

def faultFlags (s : State) : List Byte :=
  leBytes 32 ((s.ani.rules.mapIdx (fun i r => flagBit r.flag i)).sum)

/-- RAIL_FLAGS (09 Table 9.11). -/
def railFlags (x : Rail) : Nat :=
  flagBit x.enabled 0 + flagBit x.pgIn 1 + flagBit x.uvArmed 2 + flagBit x.ovArmed 3 + flagBit x.uvWarn 4 + flagBit x.ovWarn 5 +
  flagBit x.uvFault 6 + flagBit x.ovFault 7 + flagBit x.earlyCollapse 8 + flagBit x.noDischarge 9

/-- SEQ_NEXT_ADMIT: the present count and the Rye cycles still to run (09 R287). -/
def nextAdmit (s : State) (a : Fin 8) : Nat :=
  match earliest s a with
  | some d => now s + 40 * (d - s.clk.cycles)
  | none => Config.openValue 0x220007 a.val % 2 ^ 64

def thermalFlags (s : State) : Nat :=
  flagBit s.heat.mainWarn 0 + flagBit (decide (0 < s.heat.lLevel)) 1 + flagBit s.heat.sorghumWarn 2 + flagBit s.heat.sorghumOt 3

/-- Faults within the window (11 R338). -/
def quarCount (s : State) (a : Fin 8) : Nat :=
  ((s.acc.get a).faults.filter (fun t => decide (s.clk.cycles - t ≤ sCycles (getN s Obj.quarWindowS)))).length

/-- A ledger entry, 24 bytes (12 Table 12.16). -/
def Ledger.bytes (e : Ledger) : List Byte :=
  leBytes 8 e.txn ++ leBytes 8 e.count ++ leBytes 1 e.status.code ++ leBytes 1 e.op ++ leBytes 1 e.steps ++ leBytes 1 e.done ++ leBytes 4 e.code

def openSessions (s : State) : List (Nat × Session) := s.oda.sessions.filter (fun p => !p.2.pending)

/-- An entry of ODA_PEERS, 64 bytes (12 Table 12.18). -/
def peerBytes (s : State) (k : Nat) : List Byte :=
  match look s.oda.peers k with
  | none => leBytes 64 0
  | some p =>
    let xs := (openSessions s).filter (fun q => q.2.place == k)
    fitBytes 32 p.id ++ leBytes 1 (authCode p.auth) ++ leBytes 1 (if xs.isEmpty then 0 else 1) ++
      leBytes 1 (boolBit (xs.any (fun q => q.2.timeUnchecked)) 0 + boolBit (xs.any (fun q => q.2.redundant)) 1) ++ leBytes 5 0 ++
      leBytes 8 p.floor ++ leBytes 8 p.lastTxn ++ leBytes 8 p.lastCount

/-- Insertion by TXN. -/
def insertTxn (e : Ledger) : List Ledger → List Ledger
  | [] => [e]
  | x :: t => if e.txn < x.txn then e :: x :: t else x :: insertTxn e t

/-- TXN_LEDGER: the reading peer's entries in ascending TXN (12 R379). -/
def ledgerBytes (s : State) (place : Nat) : List Byte :=
  match look s.oda.peers place with
  | some p => ((p.ledger.foldr insertTxn []).map Ledger.bytes).flatten
  | none => []

/-- MEM_MAP (14 Table 14.1); regions are numbered in the order of the table (log 44). -/
def memRegions : List (Nat × Nat) :=
  [(0x800000000, 64), (0x804000000, 16), (0x805000000, 12), (0x805C00000, 4), (0x806000000, 2), (0x806200000, 4),
   (0x806600000, 4096), (0x906600000, 1024), (0x946600000, 1024), (0x986600000, 1536), (0x9E6600000, 6554)]

def memMap : List Byte :=
  (memRegions.mapIdx (fun i p => leBytes 1 i ++ leBytes 7 0 ++ leBytes 8 p.1 ++ leBytes 8 (p.2 * 1048576))).flatten

/-- MEAS_LOG: LOG_BASE, the entry count, the entries (16 R469). -/
def measLog (s : State) : List Byte :=
  fitBytes 64 s.cardamom.logBase ++ leBytes 4 s.cardamom.log.length ++ (s.cardamom.log.map Meas.bytes).flatten

/-- The body of a quote, 320 bytes (16 Table 16.5). -/
def Quote.body (q : Quote) (serial : List Byte) : List Byte :=
  leBytes 2 1 ++ leBytes 1 q.state.code ++ leBytes 1 q.timeState.code ++ leBytes 4 q.epoch ++ leBytes 8 q.count ++ fitBytes 32 q.nonce ++
  fitBytes 16 serial ++ fitBytes 64 q.log ++ leBytes 4 q.entries ++ leBytes 4 q.bootCount ++ leBytes 8 q.generation ++
  ((List.range 8).map (fun k => leBytes 4 (q.counters.getD k 0))).flatten ++ fitBytes 32 q.library ++
  fitBytes 32 q.image ++ fitBytes 32 q.owner ++ leBytes 4 q.fwVersion ++ leBytes 44 0

def quoteBytes (s : State) (n : Nat) : List Byte :=
  match look s.oda.sessions n with
  | some x => (match x.quote with
    | some q => q.body (lookD s.ident.consts 0x100004 []) ++ leBytes 2 q.sig.length ++ q.sig
    | none => [])
  | none => []

/-! ## Codes and their records (17 Tables 17.2, 17.3) -/

/-- The event of a code number. -/
def evOf (n : Nat) : Option Ev :=
  if h : 0xE00 ≤ n ∧ n < 0x1000 then some (.fw ⟨n - 0xE00, by omega⟩)
  else (evNames.find? (fun p => evNum p.1 == n)).map (·.1)

def hexDigit (d : Nat) : Char := if d < 10 then Char.ofNat (48 + d) else Char.ofNat (55 + d)

def evName (e : Ev) : String :=
  match e with
  | .fw c => String.ofList (['F', 'W', '_', hexDigit ((0xE00 + c.val) / 256), hexDigit ((0xE00 + c.val) / 16 % 16), hexDigit ((0xE00 + c.val) % 16)])
  | e => match evNames.find? (fun p => p.1 == e) with | some p => p.2 | none => ""

def codeInfoBytes (s : State) (n : Nat) : List Byte :=
  match evOf n with
  | none => leBytes 32 0
  | some e =>
    let i := codeInfo s.nut e
    fitBytes 24 (ascii (evName e)) ++ leBytes 1 i.kind ++ leBytes 1 i.lsb ++ leBytes 1 i.width ++ leBytes 1 (patOf 8 i.scaleE) ++
      leBytes 1 (patOf 8 i.histE) ++ leBytes 1 (flagBit i.fault 0 + flagBit i.immediate 1) ++ leBytes 1 i.rate ++ leBytes 1 i.burst

def CodeRec.bytes (r : CodeRec) : List Byte :=
  leBytes 8 r.count ++ leBytes 4 r.suppressed ++ leBytes 4 0 ++ leBytes 4 r.lo ++ leBytes 4 r.hi ++ leBytes 8 r.sum ++
  ((List.range 16).map (fun b => leBytes 4 (r.hist.getD b 0))).flatten ++ leBytes 4 r.firstS ++ leBytes 4 r.firstCycle ++
  leBytes 4 r.lastS ++ leBytes 4 r.lastCycle ++ leBytes 8 r.lastCount ++ leBytes 4 r.lastEpoch ++ leBytes 4 r.lastDetail

def codeRecordBytes (s : State) (n : Nat) : List Byte :=
  (match evOf n with
   | some e => lookD s.nut.records (evKey e) CodeRec.empty
   | none => CodeRec.empty).bytes

def codeRateOf (s : State) (n : Nat) : Nat :=
  match evOf n with
  | some e => codeRate s e
  | none => lookD s.nums (0x702000 + n) 256

/-! ## The value of an object -/

/-- Element i of a fixed array, or d. -/
def at_ {α : Type} {n : Nat} (v : Vector α n) (i : Nat) (d : α) : α := v[i]?.getD d

/-- Time, tiles, sessions, models and images: 0x1200 to 0x1210 and 0x4000 to 0x4150; none where the value is stored as a number.
-/
def engNum (s : State) (idx sub : Nat) : Option Nat :=
  match idx with
  | 0x1200 =>
    (match sub with
     | 1 => some (mainNow s)
     | 2 => some s.clk.state.code
     | 3 => some s.clk.epoch
     | 4 => some (patOf 64 s.clk.offset)
     | 5 => some (patOf 32 s.clk.freqPpb)
     | _ => none)
  | 0x1210 => if sub = 4 then some s.eng.frame else none
  | 0x4000 =>
    (match sub with
     | 1 => some s.ident.active
     | 2 => some (sessionsOpen s)
     | 3 => some (sessionsP0 s)
     | 4 => some s.eng.loads.length
     | _ => none)
  | 0x4010 => some ((at_ s.eng.tiles sub Tile.init).st.code)
  | 0x4031 =>
    (match sub with
     | 1 => some s.eng.ring.st.code
     | 2 => some (ringOldest s)
     | 3 => some (ringNewest s)
     | 4 => some (decOldest s)
     | _ => none)
  | 0x4036 => if sub = 2 then some s.eng.ring.replay.code else none
  | 0x4041 => some ((at_ s.img.store sub ⟨.empty, [], none⟩).st.code)
  | 0x4044 =>
    (match sub with
     | 1 => some (s.img.armed.getD 0xFF)
     | 3 => some (s.img.inForce.getD 0xFF)
     | 4 => some (if s.img.cold then 1 else 0)
     | _ => none)
  | 0x4045 => some (bindWord s sub)
  | 0x4046 =>
    (match sub with
     | 1 => some (if at_ s.img.lostDom 0 false then 1 else 0)
     | 2 => some (if at_ s.img.lostDom 1 false then 1 else 0)
     | 5 => some (s.img.fold1 + 16 * s.img.fold2)
     | 6 => some s.img.cap
     | _ => none)
  | 0x4100 =>
    (match sub with
     | 1 => some (libImages s)
     | 2 => some (libBytes s)
     | _ => none)
  | 0x4801 => if sub = 1 then some s.ani.st.code else none
  | 0x4822 => some (at_ s.ani.g (sub - 1) oneF32)
  | 0x4861 =>
    (match sub with
     | 2 => some s.ani.cstate.code
     | 3 => some (s.ani.cap.getD (Config.openValue 0x486103 0 % 2 ^ 64))
     | _ => none)
  | _ =>
    if 0x4120 ≤ idx ∧ idx ≤ 0x412F then
      some (match look s.eng.lib ((idx - 0x4120) * 256 + sub) with | some e => e.st.code | none => 0)
    else if 0x4140 ≤ idx ∧ idx ≤ 0x4150 then some (lookD s.eng.slots ((idx - 0x4140) * 256 + sub) 0xFFFF)
    else none

/-- Branches (08 Table 8.13). -/
def branchNum (s : State) (b : Fin 12) (sub : Nat) : Option Nat :=
  let x := s.br.get b
  match sub with
  | 1 => some x.st.code
  | 2 => some x.cause.code
  | 3 => some (f32OfRat x.cur)
  | 4 => some (f32OfRat x.vin)
  | 5 => some (f32OfRat x.vout)
  | 6 => some (f32OfRat x.frac)
  | 7 => some (f32OfRat (tFet s b))
  | 9 => some (f32OfRat (inrushNow s b / 1000))
  | _ => none

/-- Sequencers (09 Table 9.10). -/
def seqNum (s : State) (q : Fin 9) (sub : Nat) : Option Nat :=
  let x := s.sq.get q
  match sub with
  | 1 => some x.st.code
  | 2 => some (if x.kind = .none then 0xFF else x.step)
  | 3 => some x.kind.code
  | 4 => some x.cause
  | 5 => some x.causeRail
  | 6 => some x.offCount
  | 7 => if h : q.val < 8 then some (nextAdmit s ⟨q.val, h⟩) else none
  | 8 => some (if x.pgood then 1 else 0)
  | _ => none

def railNum (x : Rail) (sub : Nat) : Option Nat :=
  match sub with
  | 1 => some (f32OfRat x.v)
  | 2 => some (railFlags x)
  | _ => none

/-- The branch whose LIN_SHARE an index and a subindex name. -/
def linShareBranch (idx sub : Nat) : Option (Fin 12) :=
  if h : 0x2000 ≤ idx ∧ idx < 0x20C0 ∧ idx % 16 = 7 ∧ sub = 9 then some ⟨(idx - 0x2000) / 16, by omega⟩ else none

/-- Branches, sequencers and rails. -/
def railsNum (s : State) (idx sub : Nat) : Option Nat :=
  if idx = 0x2100 then
    (match sub with
     | 1 => some (f32OfRat s.pow.vin)
     | 2 => some s.pow.trayOnCount
     | _ => none)
  else if h : 0x2000 ≤ idx ∧ idx < 0x20C0 ∧ idx % 16 = 0 then branchNum s ⟨(idx - 0x2000) / 16, by omega⟩ sub
  else if (linShareBranch idx sub).isSome then (linShareBranch idx sub).map (linShareOf s)
  else if h : 0x2200 ≤ idx ∧ idx < 0x2320 ∧ idx % 32 = 0 then seqNum s ⟨(idx - 0x2200) / 32, by omega⟩ sub
  else if idx = 0x2305 ∧ sub = 4 then some (selfFaultsNow s).length
  else if h : 0x2400 ≤ idx ∧ idx < 0x2490 then
    railNum ((s.sq.get ⟨(idx - 0x2400) / 16, by omega⟩).rails.get ⟨(idx - 0x2400) % 16, by omega⟩) sub
  else none

/-- Heat, coolant and leaks (10 Tables 10.9 to 10.11). -/
def heatNum (s : State) (idx sub : Nat) : Option Nat :=
  match idx with
  | 0x3000 =>
    (match sub with
     | 1 => some (f32OfRat s.heat.tMain)
     | 2 => some (f32OfRat s.heat.tSorghum)
     | 3 => some (thermalFlags s)
     | 4 => some s.heat.lLevel
     | 5 => some s.img.div
     | _ => none)
  | 0x3011 => if h : sub - 1 < 32 then some (channelF32 s ⟨sub - 1, h⟩) else none
  | 0x3113 => some (at_ s.cool.outs (sub - 1) Output.init).st.code
  | 0x3114 => some (f32OfRat (at_ s.cool.outs (sub - 1) Output.init).applied)
  | 0x3200 => some (f32OfRat (at_ s.cool.leaks (sub - 1) ⟨0, .dry, 0, 0, 0, 0, 0, 0⟩).r)
  | 0x3201 => some (at_ s.cool.leaks (sub - 1) ⟨0, .dry, 0, 0, 0, 0, 0, 0⟩).st.code
  | 0x3212 => some (at_ s.cool.zones (sub - 1) .clear).code
  | _ =>
    if h : 0x3020 ≤ idx ∧ idx < 0x3028 then
      let x := s.acc.get ⟨idx - 0x3020, by omega⟩
      (match sub with
       | 10 => some x.capPct
       | 11 => some (flagBit x.thermalHold 0 + flagBit x.leakHold 1)
       | _ => none)
    else none

/-- Part state, requests, caps (11 Tables 11.12 to 11.14), and identity (12 Table 12.6). -/
def partNum (s : State) (idx sub : Nat) : Option Nat :=
  if h : sub - 1 < 8 then
    let a : Fin 8 := ⟨sub - 1, h⟩
    let x := s.acc.get a
    match idx with
    | 0x1000 =>
      (match sub with
       | 8 => some (match s.bar.fwImage with | some i => i.version | none => Config.openValue 0x100008 0 % 2 ^ 32)
       | _ => none)
    | 0x1100 =>
      (match sub with
       | 1 => some s.part.st.code
       | 2 => some (degradedWord s)
       | 3 => some s.part.safeCause.code
       | 4 => some s.part.stateCount
       | _ => none)
    | 0x1101 => if sub = 5 then some (if s.part.strap then 1 else 0) else none
    | 0x1120 => some x.reqP.code
    | 0x1121 => some x.reqF.code
    | 0x1122 => some x.reqH.code
    | 0x1123 => some x.reqS.code
    | 0x1124 => some x.reqStatus
    | 0x1125 => some (accelState s a)
    | 0x1126 => some (if x.quarantined then 1 else 0)
    | 0x1128 => some (quarCount s a)
    | 0x1144 => some (f32OfRat x.capW)
    | 0x1145 => some x.capSource
    | _ => none
  else if idx = 0x1000 ∧ sub = 9 then some s.bar.fwSlot
  else none

/-- Ports (13 Table 13.7), ODA, memory and update. -/
def portNum (s : State) (idx sub : Nat) : Option Nat :=
  match idx with
  | 0x1401 => some (at_ s.port.host (sub - 1) HostPort.init).link.code
  | 0x1421 => some (at_ s.port.sb (sub - 1) ⟨.down, none, [], 0, []⟩).link.code
  | 0x1440 => if sub = 3 then some (openSessions s).length else none
  | 0x1453 => some (s.port.followed.getD 0xFF)
  | 0x1463 => some ((at_ s.port.host (sub - 1) HostPort.init).an.getD 0xFF)
  | 0x5000 => if sub = 1 then some s.mem.st.code else none
  | 0x9000 =>
    (match sub with
     | 1 => some s.bar.upd.code
     | 2 => some s.bar.updError
     | _ => none)
  | 0x9002 =>
    (match sub with
     | 1 => some s.bar.slotA.st.code
     | 2 => some s.bar.slotB.st.code
     | 3 => some (match s.bar.slotA.image with | some i => i.version | none => Config.openValue 0x900203 0 % 2 ^ 32)
     | 4 => some (match s.bar.slotB.image with | some i => i.version | none => Config.openValue 0x900204 0 % 2 ^ 32)
     | 5 => some s.bar.bootSlot
     | _ => none)
  | 0x9003 =>
    (match sub with
     | 1 => some (at_ s.bar.clusters 0 Cluster.init).role.code
     | 2 => some (at_ s.bar.clusters 1 Cluster.init).role.code
     | _ => none)
  | _ =>
    if h : 0x5100 ≤ idx ∧ idx < 0x5120 then
      (if sub = 1 then some (s.mem.dma.get ⟨idx - 0x5100, by omega⟩).st.code else none)
    else if 0x5200 ≤ idx ∧ idx < 0x5240 then some (cellAt s ((idx - 0x5200) * 256 + sub))
    else none

/-- Security, power reports and codes. -/
def secNum (s : State) (idx sub : Nat) : Option Nat :=
  let r := s.cardamom.held
  match idx with
  | 0x6001 => if sub = 1 then some s.cardamom.st.code else none
  | 0x6011 => some (match look r.keys (sub - 1) with | some k => k.roles | none => 0)
  | 0x6013 => some r.cmdCounter
  | 0x6020 => some (lookD r.counters (sub - 1) 0)
  | 0x6022 => if sub = 1 then some r.generation else some r.bootCount
  | 0x2807 => some ((at_ s.rep (sub - 1) PowerCh.zero).energy / two32 % 2 ^ 64)
  | 0x2809 => some (s.pkgEnergy / 2 ^ 18 % 2 ^ 24)
  | 0x7000 =>
    if sub = 1 then
      some (match newestNut s.nut with | some k => (nutCopy s.nut k).generation | none => Config.openValue 0x700001 0 % 2 ^ 64)
    else none
  | _ => if 0x7020 ≤ idx ∧ idx < 0x7030 then some (codeRateOf s ((idx - 0x7020) * 256 + sub)) else none

/-- A numeric object: from the state it shows, or as stored. -/
def readNum (s : State) (key : Nat) : Nat :=
  let idx := key / 256
  let sub := key % 256
  match engNum s idx sub <|> railsNum s idx sub <|> heatNum s idx sub <|> partNum s idx sub <|> portNum s idx sub <|> secNum s idx sub with
  | some v => v
  | none => lookD s.nums key (dfltOf s key)

/-- The default of a byte object that nothing was written to, and the constants of the identity block (log 3). -/
def constBytes (s : State) (key : Nat) : List Byte :=
  match key with
  | 0x100001 => ascii "Dwentien"
  | 0x100002 => ascii (gradeCode s.ident.active)
  | 0x100004 => fitBytes 16 (lookD s.ident.consts key [])
  | 0x140501 | 0x140502 | 0x140503 => fitBytes 6 (lookD s.ident.consts key [])
  | 0x100005 => tileBytes s.ident.absent
  | 0x10000A => tileBytes s.ident.spare
  | 0x500100 => memMap
  | 0x403200 => leBytes 1280 0
  | _ => lookD s.ident.consts key []

/-- Tiles, sessions, models, images and Anise as bytes. -/
def engBytes (s : State) (idx sub : Nat) : Option (List Byte) :=
  if idx = 0x3001 then some (sensorBytes 72 s.heat.mainSensors)
  else if idx = 0x3002 then some (sensorBytes 8 (s.heat.sorghumSensors.map some))
  else if idx = 0x4034 then some (exportBytes s)
  else if idx = 0x4802 then some (aniseOutput s)
  else if idx = 0x4850 then some (faultFlags s)
  else if idx = 0x4040 then
    some (at_ s.img.store sub ⟨.empty, [], none⟩).bytes
  else if 0x4110 ≤ idx ∧ idx ≤ 0x411F then
    some (match look s.eng.lib ((idx - 0x4110) * 256 + sub) with
      | some e => e.bytes
      | none => [])
  else if 0x4130 ≤ idx ∧ idx ≤ 0x413F then
    some (match look s.eng.books ((idx - 0x4130) * 256 + sub) with | some c => c.bytes | none => [])
  else if 0x4400 ≤ idx ∧ idx ≤ 0x4427 then some (getSess s ((idx - 0x4400) * 256 + sub)).desc.bytes
  else if 0x4500 ≤ idx ∧ idx ≤ 0x4527 then some (getSess s ((idx - 0x4500) * 256 + sub)).statusBytes
  else if 0x4600 ≤ idx ∧ idx ≤ 0x4627 then
    some (match (getSess s ((idx - 0x4600) * 256 + sub)).record with | some r => r.bytes | none => leBytes 64 0)
  else none

/-- Curves, peers, the ledger, keys, quotes and codes as bytes; n is the reading session and place its peer's. -/
def partBytes (s : State) (n place idx sub : Nat) : Option (List Byte) :=
  if h : 0x2000 ≤ idx ∧ idx < 0x20C0 ∧ idx % 16 = 4 then
    some (curveBytes (configuredCurve s ⟨(idx - 0x2000) / 16, by omega⟩))
  else if idx = 0x1442 then some (((List.range 32).map (peerBytes s)).flatten)
  else if idx = 0x1480 then some (ledgerBytes s place)
  else if idx = 0x6010 then some (match look s.cardamom.held.keys (sub - 1) with | some k => k.digest | none => [])
  else if idx = 0x6016 then some s.cardamom.held.revoked.flatten
  else if idx = 0x6030 then some (measLog s)
  else if idx = 0x6041 then some (quoteBytes s n)
  else if 0x7010 ≤ idx ∧ idx < 0x7020 then some (codeInfoBytes s ((idx - 0x7010) * 256 + sub))
  else if 0x7100 ≤ idx ∧ idx < 0x7110 then some (codeRecordBytes s ((idx - 0x7100) * 256 + sub))
  else none

/-- A STR or DOMAIN object. -/
def readBytes (s : State) (n place key : Nat) : List Byte :=
  match engBytes s (key / 256) (key % 256) <|> partBytes s n place (key / 256) (key % 256) with
  | some bs => bs
  | none => if getBlob s key = [] then constBytes s key else getBlob s key

/-- The value of an object as it stands (12 R352). -/
def readValue (s : State) (n place key : Nat) : Value :=
  match findEntry s key with
  | some e => if e.ty.isBytes then .bytes (readBytes s n place key) else .num (readNum s key)
  | none => .num 0

/-! ## The entry descriptor (12 R348, Table 12.4) -/

def floatBits (t : Ty) (q : Rat) : Nat := if t = .f64 then Fmt.f64.ofRat q else f32OfRat q

/-- MIN and MAX where no range is named: what the type can hold. -/
def Ty.extremes : Ty → Nat × Nat
  | .bool => (0, 1)
  | .f32 => (0xFF7FFFFF, 0x7F7FFFFF)
  | .f64 => (0xFFEFFFFFFFFFFFFF, 0x7FEFFFFFFFFFFFFF)
  | .str => (0, 255)
  | .domain => (0, 0xFFFFFFFF)
  | t => if t.signed then (2 ^ (t.width - 1), 2 ^ (t.width - 1) - 1) else (0, 2 ^ t.width - 1)

def minOf (l : List Int) : Int := l.foldl min (l.headD 0)
def maxOfInts (l : List Int) : Int := l.foldl max (l.headD 0)

def Range.bounds (r : Range) (t : Ty) : Nat × Nat :=
  let p (i : Int) : Nat := patOf t.width i
  match r with
  | .any => t.extremes
  | .ints lo hi => (p lo, p hi)
  | .oneOf vs => (p (minOf vs), p (maxOfInts vs))
  | .intsOr lo hi x => (p (min lo x), p (max hi x))
  | .mult lo m => (lo, (2 ^ t.width - 1) / m * m)
  | .multIn lo hi _ => (lo, hi)
  | .mask b => (0, b)
  | .floats lo hi => (floatBits t lo, floatBits t hi)
  | .floatsOr0 lo hi => (floatBits t (min 0 lo), floatBits t hi)
  | .codeRate => (256, 65535)
  | .len lo hi => (lo, hi)
  | .zeroOrLen _ hi => (0, hi)
  | .lens vs => (vs.foldl min (vs.headD 0), vs.foldl max 0)

def Persist.code : Persist → Nat
  | .volatile => 0 | .hardware => 1 | .nor => 2 | .rcb => 3

/-- The length of the default of an STR or DOMAIN object. -/
def defaultLen (s : State) (key : Nat) : Nat :=
  let idx := key / 256
  if 0x2000 ≤ idx ∧ idx < 0x20C0 ∧ idx % 16 = 4 then 72
  else if (0x4400 ≤ idx ∧ idx ≤ 0x4427) ∨ (0x4600 ≤ idx ∧ idx ≤ 0x4627) then 64
  else if idx = 0x4850 then 32
  else if 0x7100 ≤ idx ∧ idx ≤ 0x710F then 128
  else if blobDflt key = [] then (constBytes s key).length
  else (blobDflt key).length

/-- A default that depends on others stands as its present value: the boot requests (11 R342) and TARGET0 (07 Table 7.8) among
them. -/
def defaultOf (s : State) (e : Entry) (key : Nat) : Nat :=
  if 0x8000 ≤ key / 256 ∧ key / 256 < 0x9000 then e.dflt
  else if e.ty.isBytes then defaultLen s key
  else if key / 256 = 0x1121 then getN s (Obj.facilityBootReq (key % 256 - 1))
  else if key / 256 = 0x1122 then getN s (Obj.hostBootReq (key % 256 - 1))
  else if key / 256 = 0x4842 then
    (match s.ani.prog with
     | some p => (match p.loops[key % 256 - 1]? with | some l => l.target0 | none => 0)
     | none => 0)
  else if 0x7020 ≤ key / 256 ∧ key / 256 < 0x7030 then
    (match evOf (key - 0x702000) with | some v => (codeInfo s.nut v).rate + 256 * (codeInfo s.nut v).burst | none => 256)
  else match linShareBranch (key / 256) (key % 256) with
    | some b => shareDefault s b
    | none => e.dflt

/-- The letters before an element's number in the names of the object tables. -/
def elementLetters : List (String × List String) :=
  [("A", ["FACILITY_BOOT_REQ", "HOST_BOOT_REQ", "ANT_ENABLE", "ANT_LAST_WORD", "ANT_LATE", "PROTECTION_REQ", "FACILITY_REQ",
     "HOST_REQ", "SERVICE_REQ", "ACCEL_REQ_STATUS", "ACCEL_STATE", "QUARANTINE", "QUAR_RELEASE", "QUAR_FAULT_COUNT",
     "FACILITY_CAP_W", "HOST_CAP_W", "SERVICE_CAP_W", "CAP_IN_FORCE_W", "CAP_SOURCE"]),
   ("SB", ["SB_LATENCY_NS", "SB_MODE", "SB_LINK", "SB_NACKS", "SB_LOST", "SB_DROPS", "SB_COUNT_REJECTED"]),
   ("S", ["SESSION_DESC", "SESSION_STATUS", "SESSION_OUTPUT"]),
   ("M", ["MODEL_IMAGE", "MODEL_STATE"]),
   ("C", ["CODEBOOK", "SYNC_CELL"]),
   ("I", ["SCHED_IMAGE", "IMAGE_STATE", "IMAGE_ERROR"]),
   ("L", ["LTILE_BIND", "LOOP_TARGET", "TGT_MIN", "TGT_MAX", "LOOP_TARGET_EFF"]),
   ("D", ["DOMAIN_STATE", "DOMAIN_RETIRED"]),
   ("B", ["ADAPT_ENABLE", "ADAPT_FACTOR"]),
   ("O", ["OUT_MIN", "OUT_MAX", "OUT_KIND", "FAILSAFE_PCT", "VALVE_CLOSED_PCT", "OUT_STATE", "OUT_APPLIED_PCT"]),
   ("", ["TEMP_CH_KIND", "TEMP_CH_C", "TACH_MIN_RPM", "TACH_PULSES", "FLOW_K_PULSES", "FLOW_MIN_LPM", "LEAK_R_OHM", "LEAK_STATE",
     "LEAK_ENABLE", "LEAK_ZONE", "LEAK_WARN_OHM", "LEAK_FAULT_OHM", "ROLLBACK_CTR"]),
   ("Z", ["ZONE_VALVES", "ZONE_ACCELS", "ZONE_STATE"]),
   ("K", ["OWNER_KEY_DIGEST", "OWNER_KEY_ROLES"])]

def tileNames : List String := ["TILE_STATE", "TILE_CE_COUNT", "TILE_UE_COUNT", "TILE_RETIRED"]
def portNames : List String :=
  ["PORT_MODE", "PORT_LINK", "FEC_CORRECTED", "FEC_UNCORRECTABLE", "LINK_DOWNS", "PORT_MAC", "PORT_IPV4", "PORT_IPV6",
     "PORT_VLAN", "GATE_LIST", "PTP_PROFILE", "PTP_ASYM_NS", "MACSEC_MODE", "MACSEC_TX_SWITCH_AT", "MACSEC_AN", "MACSEC_DROPS"]
def slotNames : List String := ["SLOT_STATE", "SLOT_VERSION", "CLUSTER_ROLE"]

/-- The name of an element as the object tables write it: TILE_STATE_T00, PORT_MAC_SVC, SLOT_STATE_A, LEAK_ZONE_3. -/
def elementName (e : Entry) (key : Nat) : String :=
  let k := (key / 256 - e.index) / e.step * e.subs + (key % 256 - e.sub0)
  if tileNames.contains e.name then e.name ++ "_T" ++ (if k < 10 then "0" else "") ++ toString k
  else if portNames.contains e.name then e.name ++ (if k = 0 then "_P0" else if k = 1 then "_P1" else "_SVC")
  else if slotNames.contains e.name then e.name ++ (if e.sub0 % 2 = 0 || k = 1 then "_B" else "_A")
  else match elementLetters.find? (fun g => g.2.contains e.name) with
    | some g => e.name ++ "_" ++ g.1 ++ toString k
    | none => e.name

/-- FLAGS: as declared for an object of the firmware, else open but for SATURATING (log 42). -/
def entryFlagsOf (s : State) (key : Nat) (e : Entry) : Nat :=
  match s.bar.fwImage.bind (fun x => look x.flags key) with
  | some f => f
  | none => (Config.entryFlags key &&& 13) + flagBit e.sat 1

def describe (s : State) (key : Nat) (e : Entry) : List Byte :=
  leBytes 2 (key / 256) ++ leBytes 1 (key % 256) ++ leBytes 1 e.ty.code ++ leBytes 1 e.accF ++ leBytes 1 e.accH ++ leBytes 1 e.accS ++
  leBytes 1 0 ++ leBytes 1 e.stF ++ leBytes 1 e.stH ++ leBytes 1 e.stS ++ leBytes 1 e.persist.code ++ leBytes 1 (if e.fw then 1 else 0) ++
  leBytes 1 (entryFlagsOf s key e) ++ leBytes 2 0 ++ leBytes 8 (defaultOf s e key) ++
  leBytes 8 (e.range.bounds e.ty).1 ++ leBytes 8 (e.range.bounds e.ty).2 ++ fitBytes 24 (ascii (elementName e key))

/-! ## The length of a value on the wire (12 Table 12.1) -/

def wireLen (t : Ty) (v : Value) : Nat :=
  match v with
  | .num _ => t.width / 8
  | .bytes bs => if t = .str then 2 + bs.length else 4 + bs.length

/-- Objects that the tables give through BLOCK only (log 43). -/
def blockOnly (key : Nat) : Bool := [0x1240, 0x1260, 0x4020, 0x4034, 0x1480, 0x6030, 0x6041].contains (key / 256)

end Sys2Proof.Machine
end

