-- ==== Sys2Proof/Machine/Secure.lean ====
section
/-! DEFINITION. Cardamom's part of the protocol: session setup and its end (16 R471 to R475), owner keys (R461 to R463), the owner's
rollback counters (R466) and quotes (R470). -/
namespace Sys2Proof.Machine

open Sys2Proof

/-! ## Ports of arrival -/

/-- A port that can carry a message: a host port that is UP, or the service port. -/
def portOpen (s : State) (p : Fin 3) : Bool :=
  if p = 0 then hostUp s 0 else if p = 1 then hostUp s 1 else s.port.svcUp

def sendPort (p : Fin 3) (cls : Nat) (m : Msg) (s : State) : State :=
  if p = 0 then sendHost 0 cls m s else if p = 1 then sendHost 1 cls m s else sendSvc cls m s

/-! ## The end of sessions (R475) -/

/-- SESSION_CLOSE: CLOSE, from either side. -/
def execSessionClose (n : Nat) (s : State) : Out :=
  if s.oda.serving && (odaSession s n).isSome then .next (closeSession n s) else .next s

/-- SETUP_TIMEOUT: 2 s after SETUP_REPLY without a valid SETUP_FINISH. -/
def execSetupTimeout (n : Nat) (s : State) : Out :=
  match look s.oda.sessions n with
  | some x => if x.pending then .next (closeSession n (tickTo x.due s)) else .next s
  | none => .next s

/-- SESSION_IDLE_TIMEOUT: SESSION_IDLE_S without a valid message. -/
def execSessionIdleTimeout (n : Nat) (s : State) : Out :=
  match odaSession s n with
  | some x => .next (closeSession n (tickTo (x.lastRx + sCycles (getN s Obj.sessionIdleS)) s))
  | none => .next s

/-! ## Setup (R471, R472) -/

/-- A failed setup is answered in clear with its code, and counted (log 45). -/
def setupFails (p : Fin 3) (code : Nat) (s : State) : State := sendPort p 4 (.setupAbort code) (inc32 s Obj.setupFailures)

/-- The certificates of a reassembled SETUP_INIT: LEN U16 and DER each. -/
def certsFrom : Nat → List Byte → Option (List (List Byte))
  | 0, [] => some []
  | 0, _ :: _ => none
  | k + 1, a :: b :: t =>
    let len := ofLe [a, b]
    if t.length < len then none else (certsFrom k (t.drop len)).map (fun r => t.take len :: r)
  | _ + 1, _ => none

/-- NONCE_P, the encapsulation key, CERTS with 3 reserved bytes, the certificates (Table 16.7). -/
def parseInit (bs : List Byte) : Option (List (List Byte)) :=
  if bs.length < 1604 ∨ fieldAt bs 1601 3 ≠ 0 then none else certsFrom (fieldAt bs 1600 1) (bs.drop 1604)

/-- The first 32 bytes of SHAKE256 of a certificate (R371, Table 16.3). -/
def certDigest (der : List Byte) : List Byte := Config.shake der 32

/-- The chain is rooted: in an owner key with role PEERS; in SEC_STATE 0, on the service port with the strap, in a single leaf
that signs itself and names SERVICE (R471). -/
def rootOk (s : State) (p : Fin 3) (cs : List Cert) (r : Root) : Bool :=
  match r with
  | .slot k => (match look s.cardamom.held.keys k with | some x => bitSet x.roles 1 | none => false)
  | .itself => s.cardamom.st == .unowned && p == 2 && s.part.strap && (cs.map (·.names) == [[Auth.service]])
  | .unknown => false

def isPeerAuth : Auth → Bool
  | .protection => false
  | _ => true

/-- The checks of a chain in the order of Table 16.9; `ders` are the certificates as received and `cs` what the parser finds
in each. -/
def chainStatus (s : State) (p : Fin 3) (ders : List (List Byte)) (cs : List Cert) (r : Root) : Nat :=
  if ders = [] ∨ 3 < ders.length ∨ cs.length ≠ ders.length ∨ !(cs.all (·.wellFormed)) ∨ !s.cardamom.held.valid ∨ !(rootOk s p cs r) then
    0x00091601
  else if !(cs.all (·.sigOk)) then 0x00091602
  else
    match cs with
    | ⟨_, _, [au], _, _⟩ :: _ =>
      if !(isPeerAuth au) then 0x00091603
      else if ders.any (fun d => s.cardamom.held.revoked.contains (certDigest d)) then 0x00091604
      else if s.clk.state = .locked && cs.any (fun c => decide (mainNow s / 1000000000 < c.notBefore) || decide (c.notAfter < mainNow s / 1000000000)) then
        0x00091605
      else 0
    | _ => 0x00091603

def leafAuth : List Cert → Auth
  | ⟨_, _, au :: _, _, _⟩ :: _ => au
  | _ => .host

/-- A certificate in a setup message: LEN U16 and DER. -/
def certField (der : List Byte) : List Byte := leBytes 2 der.length ++ der

/-- The bytes of SETUP_REPLY and the shared secret: SETUP_REPLY up to SIGLEN, the signed digest H1 with SIG_D over it (R472).
NONCE_D and the encapsulation's randomness are free values (log 7). -/
def formReply (init : List Byte) (n : Nat) (s : State) : (List Byte × List Byte) × State :=
  let (nonce, s1) := takeFree 256 s
  let (seed, s2) := takeFree 256 s1
  let (ct, ss) := Config.encaps (slice init 32 1568) (leBytes 32 seed)
  let reply := leBytes 4 n ++ leBytes 4 0 ++ leBytes 32 nonce ++ ct ++ [2, 0, 0, 0] ++
    certField (lookD s.ident.consts Blob.deviceCert []) ++ certField (lookD s.ident.consts Blob.vendorCaCert [])
  let sig := Config.sign (Config.shake (init ++ reply) 64)
  ((reply ++ leBytes 2 sig.length ++ sig, ss), s2)

/-- What a setup leaves in a session: from ss and H2 the keys and salts of both directions (R473). -/
def agreeKeys (init reply ss : List Byte) (x : Session) : Session :=
  let h2 := Config.shake (init ++ reply) 64
  let k := Config.shake (ss ++ h2 ++ ascii "DW880/ODA") 72
  { x with ss := ss, h2 := h2, keyPd := slice k 0 32, keyDp := slice k 32 32, saltPd := slice k 64 4, saltDp := slice k 68 4 }

/-- SETUP_REPLY: the session is pending for 2 s. Session numbers follow one another from 1 (log 45). -/
def replySetup (p : Fin 3) (id : Nat) (init : List Byte) (ders : List (List Byte)) (cs : List Cert) (r : Root) (s : State) : State :=
  let n := s.oda.nextSess % (two32 - 1) + 1
  let x : Session := {
    pending := true, setupId := id, peer := certDigest (ders.headD []), place := 0, auth := leafAuth cs, port := p.val
    redundant := false, timeUnchecked := s.clk.state != .locked, root := r, chain := ders.map certDigest, outstanding := 0
    lastRx := s.clk.cycles, txSeq := 0, rxHigh := 0, rxSeen := [], due := s.clk.cycles + sCycles 2, subs := [], blocks := []
    quote := none, macsecReqs := 0, ss := [], h2 := [], keyPd := [], keyDp := [], saltPd := [], saltDp := [] }
  let ((reply, ss), s1) := formReply init n s
  sendPort p 4 (.setupReply n id reply) (setOda (fun o => { o with nextSess := n, sessions := put o.sessions n (agreeKeys init reply ss x) }) s1)

/-- The reassembled SETUP_INIT is judged. -/
def beginSetup (p : Fin 3) (id : Nat) (bs : List Byte) (cs : List Cert) (r : Root) (s : State) : State :=
  let gone := setOda (fun o => { o with setups := del o.setups id }) s
  match parseInit bs with
  | none => setupFails p 0x00080001 (inc32 gone Obj.odaMalformed)
  | some ders =>
    if chainStatus s p ders cs r ≠ 0 then setupFails p (chainStatus s p ders cs r) gone
    else if 32 ≤ s.oda.sessions.length then setupFails p 0x00071601 gone
    else replySetup p id bs ders cs r s

/-- SETUP_INIT: fragment `frag` of `frags` of the message `id` arrives on port p (2 the service port). `cs` and `r` are what the
parser finds in its chain once it is whole. -/
def execSetupInit (p : Fin 3) (id frag frags : Nat) (data : List Byte) (cs : List Cert) (r : Root) (s : State) : Out :=
  if !s.oda.serving || !(portOpen s p) then .next s
  else if data = [] ∨ 1384 < data.length ∨ frags = 0 ∨ 16 < frags ∨ frags ≤ frag then .next (setupFails p 0x00080001 (inc32 s Obj.odaMalformed))
  else
    let x := lookD s.oda.setups id ⟨frags, []⟩
    if x.frags ≠ frags then .next (setupFails p 0x00081601 s)
    else
      match look x.parts frag with
      | some d => if d = data then .next s else .next (setupFails p 0x00081601 s)
      | none =>
        let y : Setup := ⟨frags, put x.parts frag data⟩
        let s1 := setOda (fun o => { o with setups := put o.setups id y }) s
        if y.parts.length < frags then .next s1 else .next (beginSetup p id ((y.parts.map (·.2)).flatten) cs r s1)

/-! ### SETUP_FINISH -/

/-- The place of a peer: its own, else a free one, else that of the peer without an open session whose last transaction is
oldest (12 R375). -/
def placeFor (s : State) (id : List Byte) : Nat :=
  match s.oda.peers.find? (fun p => p.2.id == id) with
  | some p => p.1
  | none =>
    match (List.range 32).find? (fun k => (look s.oda.peers k).isNone) with
    | some k => k
    | none =>
      let idle := s.oda.peers.filter (fun p => !((openSessions s).any (fun x => x.2.place == p.1)))
      (idle.foldl (fun (m : Option (Nat × Peer)) p => match m with
        | some q => if p.2.lastAt < q.2.lastAt then some p else some q
        | none => some p) none).elim 0 (·.1)

/-- A peer takes a place, with its entries where it held it before. -/
def takePlace (k : Nat) (id : List Byte) (au : Auth) (s : State) : State :=
  let fresh : Peer := ⟨id, au, 0, [], [], 0, 0, 0⟩
  let p := match look s.oda.peers k with
    | some p => if p.id = id then { p with auth := au } else fresh
    | none => fresh
  setOda (fun o => { o with peers := put o.peers k p }) s

/-- Which ports accept an authority (11 R327). -/
def authOnPort (s : State) (p : Fin 3) (au : Auth) : Bool :=
  match au with
  | .facility | .host => p != 2
  | .service => p == 2 && s.part.strap
  | .protection => false

/-- SETUP_FINISH of a pending session. `sigOk`: SIG_P verifies over H2. -/
def execSetupFinish (n : Nat) (p : Fin 3) (id : Nat) (sigOk : Bool) (s : State) : Out :=
  if !s.oda.serving || !(portOpen s p) then .next s
  else
    match look s.oda.sessions n with
    | none => .next (setupFails p 0x00081601 s)
    | some x =>
      if !x.pending || x.setupId ≠ id then .next (setupFails p 0x00081601 s)
      else if !sigOk then .next (setupFails p 0x00091602 s)
      else if !(authOnPort s p x.auth) then .next (setupFails p 0x00090003 s)
      else
        let k := placeFor s x.peer
        let s1 := takePlace k x.peer x.auth s
        let s2 := updSession n (fun x => { x with pending := false, place := k, port := p.val, lastRx := s.clk.cycles, txSeq := 1 }) s1
        .next (touch n (sendPort p 4 (.setupDone n x.auth) s2))

/-! ## Owner keys (R461 to R463) -/

/-- An owner key command (Table 16.3). -/
structure KeyCmd where
  op : Nat
  slot : Nat
  roles : Nat
  counter : Nat
  serial : List Byte
  sigLen : Nat
  data : List Byte
  deriving DecidableEq, Repr

/-- Step 1 of R462: the fields. -/
def parseKeyCmd (bs : List Byte) : Option KeyCmd :=
  let op := fieldAt bs 0 1
  let slot := fieldAt bs 1 1
  let roles := fieldAt bs 2 1
  let len := fieldAt bs 24 2
  let sigLen := fieldAt bs 26 2
  let shape := (op == 1 && decide (slot ≤ 3) && decide (1 ≤ roles) && decide (roles ≤ 7) && len == 1793) ||
    (op == 2 && decide (slot ≤ 3) && roles == 0 && len == 0) ||
    (op == 3 && slot == 0 && roles == 0 && len % 32 == 0 && decide (len ≤ 8192))
  if bs.length = 28 + len + sigLen && fieldAt bs 3 1 == 0 && shape then
    some ⟨op, slot, roles, fieldAt bs 4 4, (bs.drop 8).take 16, sigLen, (bs.drop 28).take len⟩
  else none

def chunk32 : Nat → List Byte → List (List Byte)
  | 0, _ => []
  | k + 1, bs => bs.take 32 :: chunk32 k (bs.drop 32)

/-- What a command makes of the record. -/
def KeyCmd.apply (c : KeyCmd) (r : SecRecord) : SecRecord :=
  let r1 := { r with cmdCounter := c.counter }
  if c.op = 1 then { r1 with keys := put r1.keys c.slot ⟨Config.shake c.data 32, c.roles⟩ }
  else if c.op = 2 then { r1 with keys := del r1.keys c.slot }
  else { r1 with revoked := chunk32 (c.data.length / 32) c.data }

def hasAdmin (r : SecRecord) : Bool := r.keys.any (fun k => bitSet k.2.roles 0)

/-- The checks of R462 in their order. `sigOk`: the signature verifies under an ADMIN owner key, which there must be. -/
def keyCmdHome (au : Auth) (bs : List Byte) (sigOk : Bool) (s : State) : Nat :=
  match parseKeyCmd bs with
  | none => 0x00040001
  | some c =>
    let r := s.cardamom.held
    let first := s.cardamom.st == .unowned && au == .service && c.op == 1 && c.sigLen == 0
    let after := c.apply r
    if c.serial ≠ fitBytes 16 (lookD s.ident.consts 0x100004 []) then 0x00091607
    else if c.counter ≤ r.cmdCounter then 0x00091606
    else if !(first || (sigOk && hasAdmin r)) then 0x00091606
    else if !after.keys.isEmpty && !(hasAdmin after) then 0x00091606
    else 0

/-- The key at a session's root is gone, or a certificate of its chain is revoked (R475). -/
def unrooted (old new : SecRecord) (x : Session) : Bool :=
  (match x.root with
   | .slot k => ((look old.keys k).map (·.digest)) != ((look new.keys k).map (·.digest))
   | _ => false) || x.chain.any (fun d => new.revoked.contains d)

/-- An accepted command: committed as one step, measured, and the sessions that lose their root or are revoked close. -/
def keyCmdEffect (bs : List Byte) (s : State) : State :=
  match parseKeyCmd bs with
  | none => s
  | some c =>
    let old := s.cardamom.held
    let s1 := commitRec c.apply s
    let s2 := setSec (fun x => { x with st := secStateOf x.held }) s1
    closeWhere (unrooted old s2.cardamom.held) (logMeas 8 (Config.shake bs 64) 0 s2)

def keyCmd (op : Nat) (au : Auth) (bs : List Byte) (sigOk : Bool) (s : State) : State :=
  if fieldAt bs 0 1 = op then
    writeStep au Blob.ownerKeyCmd (.bytes bs) (keyCmdHome au bs sigOk) (fun _ => keyCmdEffect bs) s
  else s

/-- OWNER_KEY_ADD. -/
def execOwnerKeyAdd (au : Auth) (bs : List Byte) (sigOk : Bool) (s : State) : Out := .next (keyCmd 1 au bs sigOk s)
/-- OWNER_KEY_REMOVE. -/
def execOwnerKeyRemove (au : Auth) (bs : List Byte) (sigOk : Bool) (s : State) : Out := .next (keyCmd 2 au bs sigOk s)
/-- OWNER_KEY_SET_REVOKED. -/
def execOwnerKeySetRevoked (au : Auth) (bs : List Byte) (sigOk : Bool) (s : State) : Out := .next (keyCmd 3 au bs sigOk s)

/-- OWNER_RESET: counters are kept; FACILITY and HOST sessions close, and any other rooted in an owner key (R463, R475). -/
def ownerReset (s : State) : State :=
  let old := s.cardamom.held
  let s1 := commitRec (fun r => { r with keys := [], revoked := [] }) (storeNum Obj.vendorImagesOk 1 s)
  let s2 := logMeas 8 (List.replicate 64 0) 0 (setSec (fun x => { x with st := .unowned }) s1)
  closeWhere (fun x => x.auth != .service || unrooted old s2.cardamom.held x) s2

/-- SERVICE alone may write it, with the strap. -/
def execOwnerReset (au : Auth) (s : State) : Out :=
  if au = .service && !s.part.strap then .next s
  else .next (writeStep au Obj.ownerReset.key (.num 1) noHome (fun _ => ownerReset) s)

/-! ## The owner's rollback counters (R466) -/

def raiseHome (bs : List Byte) (s : State) : Nat :=
  let k := fieldAt bs 0 1
  if k = 0 ∨ 7 < k ∨ fieldAt bs 1 3 ≠ 0 then 0x00040001
  else if fieldAt bs 4 4 ≤ lookD s.cardamom.held.counters k 0 then 0x00041601
  else 0

def raiseEffect (bs : List Byte) (s : State) : State := raiseCtr (fieldAt bs 0 1) (fieldAt bs 4 4) s

/-- ROLLBACK_RAISE. -/
def execRollbackRaise (au : Auth) (bs : List Byte) (s : State) : Out :=
  .next (writeStep au Blob.rollbackRaise (.bytes bs) (raiseHome bs) (fun _ => raiseEffect bs) s)

/-! ## Quotes (R470) -/

/-- The VALID models in ascending index: index U16 and the first 32 digest bytes. -/
def libraryBytes (s : State) : List Byte :=
  (s.eng.lib.map (fun p => match p.2.st, p.2.model with
    | .valid, some m => leBytes 2 p.1 ++ fitBytes 32 m.digest
    | _, _ => [])).flatten

/-- The quote formed at count c. -/
def formQuote (nonce : List Byte) (c : Count) (s : State) : Quote where
  state := s.part.st
  timeState := s.clk.state
  epoch := s.clk.epoch
  count := c
  nonce := nonce
  log := s.cardamom.logL
  entries := s.cardamom.logEntries
  bootCount := s.cardamom.held.bootCount
  generation := s.cardamom.held.generation
  counters := (List.range 8).map (fun k => lookD s.cardamom.held.counters k 0)
  library := Config.shake (libraryBytes s) 32
  image := match imageOf s s.img.inForce with | some x => fitBytes 32 x.digest | none => List.replicate 32 0
  owner := fitBytes 32 (Config.shake (ownerBytes s.cardamom.held) 64)
  fwVersion := match s.bar.fwImage with | some x => x.version | none => 0
  signed := false
  sig := []

/-- A quote belongs to its session, and replaces the one before. -/
def quoteEffect (n : Nat) (nonce : List Byte) (c : Count) (s : State) : State :=
  updSession n (fun x => { x with quote := some (formQuote nonce c s) }) s

/-- QUOTE_REQ: session n writes a nonce. -/
def execQuoteReq (n : Nat) (nonce : List Byte) (s : State) : Out :=
  match odaSession s n with
  | some x => .next (writeStep x.auth Blob.quoteReq (.bytes nonce) noHome (quoteEffect n nonce) s)
  | none => .next s

/-- QUOTE_SIGNED: Cardamom has signed the quote of session n. -/
def execQuoteSigned (n : Nat) (sig : List Byte) (s : State) : Out :=
  .next (updSession n (fun x => { x with quote := x.quote.map (fun q => if q.signed then q else { q with signed := true, sig := sig }) }) s)

end Sys2Proof.Machine
end

