-- ==== Sys2Proof/Machine/Port.lean ====
section
/-! DEFINITION. The ports (13): links and retraining, gate lists, what a received frame meets, PTP and telemetry on the
sideband, and the keys of MACsec. -/
namespace Sys2Proof.Machine

open Sys2Proof

/-- The MACs run, with the dictionary engine (01 R39, 11 R324). -/
def macsRun (s : State) : Bool := s.oda.serving

/-! ## Links (R384, R385) -/

def linkSrc : Nat := 0x1401

/-- A port leaves UP: counted and recorded, its queue dropped, and its grandmaster out of the comparison (R53). -/
def leaveUp (p : Fin 2) (s : State) : State :=
  if hostUp s p then
    raiseMain .hostLinkDown linkSrc (openDetail .hostLinkDown p.val)
      (follow (inc32 (updHost p (fun h => { h with link := .down, queue := [], gm := none }) s) (Obj.linkDowns p.val)))
  else s

/-- The modes of PORT_MODE and the speeds they allow (Table 13.7). -/
def speedAllowed (mode : Nat) (fast : Bool) : Bool := mode == 1 || (fast && (mode == 2 || mode == 3)) || (!fast && (mode == 4 || mode == 5))

/-- HOST_LINK_UP: `fast` for 200 Gb/s. -/
def execHostLinkUp (p : Fin 2) (fast : Bool) (s : State) : Out :=
  if macsRun s && (s.port.host.get p).link == .training && speedAllowed (getN s (Obj.portMode p.val)) fast then
    .next (noteDegraded (announceHost p (updHost p (fun h => { h with link := if fast then .up200 else .up100 }) s)))
  else .next s

/-- HOST_LINK_DOWN: alignment lost or a fault reported for 100 µs since the cycle `since`; auto-negotiation restarts 10 ms
later. -/
def execHostLinkDown (p : Fin 2) (since : Nat) (s : State) : Out :=
  if hostUp s p then
    let s0 := stands since (usCycles 100) s
    .next (noteDegraded (updHost p (fun h => { h with autonegDue := some (s0.clk.cycles + msCycles 10) }) (leaveUp p s0)))
  else .next s

/-- AUTONEG_RESTART. -/
def execAutonegRestart (p : Fin 2) (s : State) : Out :=
  match (s.port.host.get p).autonegDue with
  | some d => .next (updHost p (fun h => { h with autonegDue := none, link := .training }) (tickTo d s))
  | none => .next s

/-- FACILITY may not retrain the only host link. -/
def portModeHome (au : Auth) (p : Fin 2) (s : State) : Nat := if au = .facility && !(hostUp s (1 - p)) then 0x00071301 else 0

/-- The port retrains at once, or stays DOWN under mode 0. -/
def portModeEffect (p : Fin 2) (v : Nat) (s : State) : State :=
  noteDegraded (updHost p (fun h => { h with autonegDue := none, link := if v = 0 then .down else .training })
    (leaveUp p (storeNum (Obj.portMode p.val) v s)))

/-- PORT_MODE. -/
def execPortMode (au : Auth) (p : Fin 2) (v : Nat) (s : State) : Out :=
  .next (writeStep au (Obj.portMode p.val).key (.num v) (portModeHome au p) (fun _ => portModeEffect p v) s)

/-- SERVICE_LINK_UP: while the strap holds the port on. -/
def execServiceLinkUp (s : State) : Out :=
  if macsRun s && s.port.svcOn && !s.port.svcUp then .next (announceSvc { s with port := { s.port with svcUp := true } }) else .next s

/-- The Clause 22 address at which the part manages the service port's PHY, over SVC_MDC and SVC_MDIO (R400). What it writes there is
not stated. -/
def svcPhy (s : State) : Nat := getN s Obj.svcPhyAddr

/-- SVC_PHY_RST_N: low while SERVICE_EN_N is deasserted, as the SGMII transmitter is off (R400). -/
def svcPhyRstN (s : State) : Bool := s.port.svcOn

/-! ## Gates (R387) -/

/-- A list that breaks R387 gives 0x0004_1302; fields outside Table 13.3 give 0x0004_0001. -/
def gateListHome (bs : List Byte) (_ : State) : Nat :=
  if bs = [] then 0
  else
    let n := fieldAt bs 4 2
    let g := parseGates bs
    if 64 < n ∨ bs.length ≠ 8 + 8 * n ∨ fieldAt bs 6 2 ≠ 0 ∨ (List.range n).any (fun i => fieldAt bs (9 + 8 * i) 3 != 0) ∨ g.entries.any (fun e => decide (e.interval < 100)) then 0x00040001
    else if g.cycle < 1000 ∨ 1000000000 < g.cycle then 0x00041302
    else if n ≠ 0 ∧ (g.entries.map (·.interval)).foldl (· + ·) 0 ≠ g.cycle then 0x00041302
    else 0

/-- The list takes effect at the first cycle start at least 1 ms after its accepting count. -/
def gateListEffect (p : Fin 2) (bs : List Byte) (c : Count) (s : State) : State :=
  let g := parseGates bs
  let at_ := if g.entries = [] then c + 1000000 else ceilDiv (c + 1000000) g.cycle * g.cycle
  updHost p (fun h => { h with gatesNext := some (g, at_) }) (storeBlob (Blob.gateList p.val) bs s)

/-- The next entry opens its classes, and the frames they held leave. Where the present count already lies in another
entry than the one that stands open, that one opens at once. A transmission takes no time here (log 46). -/
def nextEntry (p : Fin 2) (s : State) : State :=
  let h := s.port.host.get p
  if h.gates.entries = [] then s
  else if now s < h.gatesFrom then drainPort p (openGates p (reachCount h.gatesFrom s))
  else
    let off := now s % h.gates.cycle
    let s1 := if entryAt h.gates.entries off = h.entry then reachCount (now s - off + entryEnd h.gates.entries off) s else s
    drainPort p (openGates p s1)

/-- GATE_ENTRY_START. -/
def execGateEntryStart (p : Fin 2) (s : State) : Out :=
  if !(macsRun s) then .next s
  else
    let h := s.port.host.get p
    let off := now s % h.gates.cycle
    match h.gatesNext with
    | some (g, c) =>
      if h.gates.entries = [] ∨ c ≤ now s - off + entryEnd h.gates.entries off then
        let s1 := updHost p (fun h => { h with gates := g, gatesNext := none, gatesFrom := 0 }) (reachCount c s)
        .next (drainPort p (openGates p s1))
      else .next (nextEntry p s)
    | none => .next (nextEntry p s)

/-! ## Network control (R382) -/

/-- The IPv6 link-local address formed from a MAC address: fe80::/64 and its modified EUI-64 (PRESUMED, log 46). -/
def linkLocal : List Byte → List Byte
  | [a, b, c, d, e, f] => [0xFE, 0x80, 0, 0, 0, 0, 0, 0, a ^^^ 2, b, c, 0xFF, 0xFE, d, e, f]
  | _ => []

/-- The addresses of a port: its static IPv4 address, and the link-local and static IPv6 addresses. -/
def addresses4 (s : State) (p : Fin 3) : List (List Byte) :=
  match getBlob s (Blob.portIpv4 p.val) with
  | [] => []
  | bs => [bs.take 4]

def addresses6 (s : State) (p : Fin 3) : List (List Byte) :=
  let bs := getBlob s (Blob.portIpv6 p.val)
  linkLocal (readBytes s 0 0 (Blob.portMac p.val)) :: (if 17 ≤ bs.length then [bs.take 16] else []) ++ (if 34 ≤ bs.length then [(bs.drop 17).take 16] else [])

/-- NETWORK_CONTROL_REQUEST: `kind` 0 ARP, 1 neighbour discovery, 2 ICMP echo, 3 ICMPv6 echo, for the address `target`, which is
answered where it is the port's own. -/
def execNetworkControlRequest (p : Fin 3) (kind : Nat) (target : List Byte) (s : State) : Out :=
  if !(macsRun s) || !(portOpen s p) || decide (3 < kind) then .next s
  else if (if kind % 2 = 0 then addresses4 s p else addresses6 s p).contains target then .next (sendPort p 0 (.netReply kind) s)
  else .next s

/-! ## A received frame (R382, R383, R388, R389, R394) -/

def dropMacsec (p : Fin 2) (s : State) : State := inc64 s (Obj.macsecDrops p.val)

/-- A packet number within the replay window of 64, once (R394). -/
def pnFresh (high : Nat) (seen : List Nat) (pn : Nat) : Bool := decide (high < pn + 64) && !(seen.contains pn)
def pnTake (high pn : Nat) (seen : List Nat) : Nat × List Nat :=
  let h := max high pn
  (h, (pn :: seen).filter (fun x => decide (h < x + 64)))

/-- What STRICT accepts unprotected. -/
def FrameKind.bypass : FrameKind → Bool
  | .ptp | .arpNd | .announce | .setup => true
  | _ => false

/-- MACsec: none where the frame is dropped. -/
def macsecIn (p : Fin 2) (f : FrameIn) (s : State) : Option State :=
  let h := s.port.host.get p
  let mode := getN s (Obj.macsecMode p.val)
  match f.prot with
  | none => if mode = 2 && !f.kind.bypass then none else some s
  | some (an, pn, icvOk) =>
    if mode = 0 || !icvOk then none
    else if h.an = some an then
      (if pnFresh h.rxPn h.rxSeen pn then
        some (updHost p (fun h => { h with rxPn := (pnTake h.rxPn pn h.rxSeen).1, rxSeen := (pnTake h.rxPn pn h.rxSeen).2 }) s)
       else none)
    else if h.oldAn = some an then
      (if pnFresh h.oldPn h.oldSeen pn then
        some (updHost p (fun h => { h with oldPn := (pnTake h.oldPn pn h.oldSeen).1, oldSeen := (pnTake h.oldPn pn h.oldSeen).2 }) s)
       else none)
    else
      match h.older.find? (fun x => x.an == an) with
      | none => none
      | some x =>
        if pnFresh x.pn x.seen pn then
          some (updHost p (fun h => { h with older := h.older.map (fun y =>
            if y.an = an then { y with pn := (pnTake y.pn pn y.seen).1, seen := (pnTake y.pn pn y.seen).2 } else y) }) s)
        else none

/-- The vector recovery algorithm of IEEE 802.1CB, history 32: whether a 16-bit number passes, and what is remembered then. -/
def recover (r : Recovery) (cycles seq : Nat) : Option Recovery :=
  if r.at_ + msCycles 100 < cycles then some ⟨seq, [seq], cycles⟩
  else
    let ahead := (seq + 65536 - r.num) % 65536
    if ahead = 0 then none
    else if ahead < 32 then
      some ⟨seq, (seq :: r.hist).filter (fun x => decide ((seq + 65536 - x) % 65536 < 32)), cycles⟩
    else if 65536 - ahead < 32 && !(r.hist.contains seq) then some { r with hist := seq :: r.hist, at_ := cycles }
    else none

/-- Elimination: none where the frame is a copy. -/
def eliminate (f : FrameIn) (s : State) : Option State :=
  match f.rtag with
  | none => some s
  | some (stream, q) =>
    let seq := q % 65536
    let r := match look s.port.recovered stream with
      | some r => recover r s.clk.cycles seq
      | none => some ⟨seq, [seq], s.clk.cycles⟩
    r.map (fun r => { s with port := { s.port with recovered := put s.port.recovered stream r } })

/-- A SEQ within the window of the last 1,024, once (16 R474). -/
def seqFresh (x : Session) (seq : Nat) : Bool := decide (1 ≤ seq) && decide (x.rxHigh < seq + 1024) && !(x.rxSeen.contains seq)

def takeSeq (seq : Nat) (x : Session) : Session :=
  let h := max x.rxHigh seq
  { x with rxHigh := h, rxSeen := (seq :: x.rxSeen).filter (fun q => decide (h < q + 1024)) }

/-- A message without a session that is malformed, or asks for an operation that is none, aborts in clear (12 R355, R356). -/
def odaBare (x : OdaIn) (s : State) : State :=
  if !s.oda.serving then s
  else if !x.formOk then setOda (fun o => { o with answer := some (abortAnswer 0 x.txn 0x00080001) }) (inc32 s Obj.odaMalformed)
  else if !x.opKnown then setOda (fun o => { o with answer := some (abortAnswer 0 x.txn 0x00080004) }) s
  else s

/-- A message reaches its session: the tag and SEQ are checked, the session's port and redundancy follow it, and a malformed message
or unknown operation aborts (12 R356, Table 12.14). A message of SESSION 0 carries no tag. -/
def odaIn (p : Nat) (tagged : Bool) (x : OdaIn) (s : State) : State :=
  match odaSession s x.sess with
  | none => if x.sess = 0 then odaBare x s else s
  | some y =>
    if !x.tagOk || !(seqFresh y x.seq) then inc32 s Obj.odaAuthDrops
    else if two32 ≤ x.seq then closeSession x.sess s
    else
      let s1 := touch x.sess (updSession x.sess (fun y => { takeSeq x.seq y with port := p, redundant := y.redundant || tagged }) s)
      if !x.formOk then respond x.sess (abortAnswer x.sess x.txn 0x00080001) (inc32 s1 Obj.odaMalformed)
      else if !x.opKnown then respond x.sess (abortAnswer x.sess x.txn 0x00080004) s1
      else s1

/-- A frame on a host port. -/
def hostFrame (p : Fin 2) (f : FrameIn) (s : State) : State :=
  if !(hostUp s p) then s
  else
    let s1 := incMax (incMax s (Obj.fecCorrected p.val) f.corrected u64) (Obj.fecUncorrectable p.val) f.uncorrectable u64
    if 0 < f.uncorrectable then raiseMain .hostFecUncorrectable 0x1403 (openDetail .hostFecUncorrectable p.val) s1
    else if 9216 < f.len then updHost p (fun h => { h with longDrops := h.longDrops + 1 }) s1
    else
      match macsecIn p f s1 with
      | none => dropMacsec p s1
      | some s2 =>
        match eliminate f s2 with
        | none => s2
        | some s3 =>
          match f.kind with
          | .oda x => odaIn p.val f.rtag.isSome x s3
          | _ => s3

/-- A frame on the service port, which has no MACsec, no elimination and no FEC counters (13 R400). -/
def svcFrame (f : FrameIn) (s : State) : State :=
  if !s.port.svcUp then s
  else
    match f.kind with
    | .oda x => odaIn 2 false x s
    | _ => s

/-- HOST_FRAME_RECEIVED, on port p (2 the service port). What the message asks is done by its own command. -/
def execHostFrameReceived (p : Fin 3) (f : FrameIn) (s : State) : Out :=
  if h : p.val < 2 then .next (hostFrame ⟨p.val, h⟩ f s) else .next (svcFrame f s)

/-! ## The sideband ports (R393, R396 to R399) -/

def sbUp (s : State) (a : Fin 8) : Bool := (s.port.sb.get a).link == .up
def sendSb (a : Fin 8) (m : Msg) (s : State) : State := updSb a (fun x => { x with line := x.line ++ [m] }) s

/-- SB_LINK_UP. -/
def execSbLinkUp (a : Fin 8) (s : State) : Out :=
  if macsRun s && !s.oda.bare && !(sbUp s a) && getN s (Obj.sbMode a.val) ≠ 0 then .next (updSb a (fun x => { x with link := .up }) s) else .next s

/-- SB_LINK_DOWN. -/
def execSbLinkDown (a : Fin 8) (s : State) : Out :=
  if sbUp s a then .next (raiseMain .sbLinkFault 0x1421 (openDetail .sbLinkFault a.val) (updSb a (fun x => { x with link := .down }) s)) else .next s

/-- SB_MODE retrains its port (log 46). -/
def sbModeEffect (a : Fin 8) (v : Nat) (s : State) : State :=
  updSb a (fun x => { x with link := if v = 0 then .down else .training }) (storeNum (Obj.sbMode a.val) v s)

/-- SB_PTP_SYNC: every 125 ms the count and its epoch, on each sideband port with SB_MODE not 0. -/
def execSbPtpSync (s : State) : Out :=
  let s0 := tickTo s.port.sbSyncDue s
  let s1 := forAll 8 (fun a s => if sbUp s a && getN s (Obj.sbMode a.val) ≠ 0 then sendSb a (.ptpSync (mainNow s) s.clk.epoch) s else s) s0
  .next { s1 with port := { s1.port with sbSyncDue := s0.clk.cycles + msCycles 125 } }

/-- A range of missing frames is named in one NACK: at most the newest 16; the older ones are lost. -/
def nackRange (a : Fin 8) (first n : Nat) (s : State) : State :=
  if n = 0 then s
  else
    let k := min n 16
    let start := (first + (n - k)) % two32
    let s1 := incMax (inc32 s (Obj.sbNacks a.val)) (Obj.sbLost a.val) (n - k) u32
    sendSb a (.nack start k) (updSb a (fun x => { x with missing := x.missing ++ (List.range k).map (fun i => (start + i) % two32) }) s1)

/-- A frame spoiled by its FCS or FEC and followed by any frame is missing: named in a NACK where the SEQ before it is known (R399). -/
def noticeSpoiled (a : Fin 8) (s : State) : State :=
  let x := s.port.sb.get a
  match x.last with
  | none => s
  | some l =>
    if x.spoiled = 0 then s
    else nackRange a (l + 1) x.spoiled (updSb a (fun y => { y with last := some ((l + y.spoiled) % two32), spoiled := 0 }) s)

/-- SB_PDELAY_REQ. -/
def execSbPdelayReq (a : Fin 8) (s : State) : Out :=
  if sbUp s a then .next (sendSb a (.pdelayResp (mainNow s)) (noticeSpoiled a s)) else .next s

/-- The SEQ of a good frame: gaps are detected, and whether it is new. SEQ counts modulo 2^32 (log 47). -/
def takeSbSeq (a : Fin 8) (q : Nat) (s : State) : Bool × State :=
  let x := s.port.sb.get a
  match x.last with
  | none => (true, updSb a (fun x => { x with last := some q, spoiled := 0 }) s)
  | some l =>
    let ahead := (q + two32 - l) % two32
    if 0 < ahead ∧ ahead < 2 ^ 31 then
      (true, nackRange a (l + 1) (ahead - 1) (updSb a (fun x => { x with last := some q, spoiled := 0 }) s))
    else
      let s1 := noticeSpoiled a s
      if x.missing.contains q then (true, updSb a (fun y => { y with missing := y.missing.filter (· != q) }) s1)
      else (false, s1)

/-- VALUE in its FORMAT as FP32 (R398); none for a FORMAT the table does not list. -/
def pointValue (format v : Nat) : Option Nat :=
  let neg := decide (2 ^ 31 ≤ v)
  let mag := if neg then two32 - v else v
  if format = 0 then some v
  else if format = 1 then some (Fmt.f32.round neg mag 0)
  else if format = 2 then some (Fmt.f32.round false v 0)
  else if format = 3 then some (Fmt.f32.round neg mag (-16))
  else none

/-- One entry gives a sample, unless it is INVALID. `ingress` is the count at which the frame's last byte was received and
`base` BASE_COUNT where HAS_COUNT is set; an earlier epoch or more than 1 ms replaces it. -/
def telemetryEntry (a : Fin 8) (ingress : Count) (delay : Nat) (base : Option Count) (oldEpoch : Bool) (e : List Byte) (s : State) : State :=
  let point := fieldAt e 0 2
  match pointValue (fieldAt e 2 1) (fieldAt e 8 4) with
  | none => s
  | some v =>
    if bitSet (fieldAt e 3 1) 0 || decide (1151 < point) then s
    else
      let src := 0x1000 + a.val * 0x0800 + point
      let deliver (sample : Count) (kept : Bool) (s : State) : State :=
        if s.part.st = .ready ∨ s.part.st = .run then arriveSample src sample (ingress + delay) v v kept s else s
      match base with
      | none => deliver ingress false s
      | some b =>
        let off := fieldAt e 4 4
        if oldEpoch || decide (b < off) || decide (ingress + 1000000 < b - off) || decide (b - off + 1000000 < ingress) then
          deliver ingress false (inc32 s (Obj.sbCountRejected a.val))
        else deliver (b - off) true s

def chunk12 : Nat → List Byte → List (List Byte)
  | 0, _ => []
  | k + 1, bs => bs.take 12 :: chunk12 k (bs.drop 12)

/-- TELEMETRY_FRAME: a frame on a sideband port. `bad` is a frame that fails its FCS or its FEC, `oldEpoch` says that its counts
are of an earlier epoch, and `delay` is what passes until its samples reach Teff, at most 600 ns. -/
def execTelemetryFrame (a : Fin 8) (etherType : Nat) (payload : List Byte) (bad oldEpoch : Bool) (delay : Nat) (s : State) : Out :=
  if !(sbUp s a) || decide (600 < delay) then .next s
  else if bad then .next (updSb a (fun x => { x with spoiled := x.spoiled + 1 }) s)
  else
    let points := fieldAt payload 16 2
    if etherType ≠ getN s Obj.sbEthertype ∨ payload.length < 32 ∨ fieldAt payload 0 1 ≠ 1 ∨ fieldAt payload 1 1 ≠ a.val ∨ points = 0 ∨
        747 < points ∨ payload.length ≠ 32 + 12 * points then
      .next (inc32 (noticeSpoiled a s) (Obj.sbDrops a.val))
    else
      let r := takeSbSeq a (fieldAt payload 4 4) s
      if !r.1 then .next r.2
      else
        let base := if bitSet (fieldAt payload 2 2) 0 then some (fieldAt payload 8 8) else none
        let s1 := signalCell (136 + a.val) 1 r.2
        .next (forEach (chunk12 points (payload.drop 32)) (telemetryEntry a (mainNow s) delay base oldEpoch) s1)

/-! ## MACsec keys (R395, 16 R476) -/

/-- MACSEC_MODE 0 leaves no port for a key. -/
def macsecHome (p : Fin 2) (s : State) : Nat := if getN s (Obj.macsecMode p.val) = 0 then 0x00071302 else 0

/-- SAK and salt of request r of a session for port p (16 R476). The SSCI is 1 for the part's secure channel and 2 for the link
partner's. -/
def macsecSak (x : Session) (p r : Nat) : Sak :=
  let k := Config.shake (x.ss ++ x.h2 ++ ascii "DW880/MACSEC" ++ leBytes 1 p ++ leBytes 4 r) 44
  ⟨k.take 32, k.drop 32, 1, 2⟩

/-- Only the associations in use keep their keys. -/
def dropSaks (h : HostPort) : HostPort :=
  let used := h.an.toList ++ h.txAn.toList ++ h.oldAn.toList ++ h.older.map (·.an)
  { h with keys := h.keys.filter (fun k => used.contains k.1) }

/-- The port sends on the new association. -/
def txSwitch (p : Fin 2) (s : State) : State :=
  updHost p (fun h => dropSaks { h with txAn := h.an, txDue := none, txPn := 1, pnLow := false }) s

/-- The new key is installed in the next association number; the old one is received for 2 s, and so is an older one whose 2 s have
not passed. -/
def macsecKey (n : Nat) (p : Fin 2) (s : State) : State :=
  let due := s.clk.cycles + sCycles 2
  let at_ := getN s (Obj.macsecTxSwitchAt p.val)
  let key := match look s.oda.sessions n with | some x => macsecSak x p.val x.macsecReqs | none => ⟨[], [], 1, 2⟩
  let s1 := updSession n (fun x => { x with macsecReqs := x.macsecReqs + 1 }) s
  let s2 := updHost p (fun h => { h with
    keys := put h.keys (match h.an with | some k => (k + 1) % 4 | none => 0) key
    older := h.older ++ (h.oldAn.map (fun k => OldAssoc.mk k h.oldDue h.oldPn h.oldSeen)).toList
    oldAn := h.an, oldDue := due, oldPn := h.rxPn, oldSeen := h.rxSeen
    an := some (match h.an with | some k => (k + 1) % 4 | none => 0), rxPn := 0, rxSeen := [] }) s1
  if at_ ≤ now s then txSwitch p s2 else updHost p (fun h => { h with txDue := some at_ }) s2

/-- MACSEC_KEY_REQ: session n writes the port. -/
def execMacsecKeyReq (n : Nat) (p : Fin 2) (s : State) : Out :=
  match odaSession s n with
  | some x => .next (writeStep x.auth Obj.macsecKeyReq.key (.num p.val) (macsecHome p) (fun _ => macsecKey n p) s)
  | none => if s.oda.serving then .next (refuse (if n = 0 then 0x00090001 else 0x00090002) s) else .next s

/-- A later write of MACSEC_TX_SWITCH_AT moves a switch that is pending (log 46). -/
def switchAtEffect (p : Fin 2) (v : Nat) (s : State) : State :=
  let s1 := storeNum (Obj.macsecTxSwitchAt p.val) v s
  if (s.port.host.get p).txDue.isSome then
    (if v ≤ now s then txSwitch p s1 else updHost p (fun h => { h with txDue := some v }) s1)
  else s1

/-- MACSEC_TX_SWITCH. -/
def execMacsecTxSwitch (p : Fin 2) (s : State) : Out :=
  match (s.port.host.get p).txDue with
  | some c => .next (txSwitch p (reachCount c s))
  | none => .next s

/-- MACSEC_RX_OLD_END: of the oldest association still received. A key on which the port still sends stays until the switch. -/
def execMacsecRxOldEnd (p : Fin 2) (s : State) : Out :=
  let h := s.port.host.get p
  match h.older with
  | x :: _ => .next (updHost p (fun h => dropSaks { h with older := h.older.tail }) (tickTo x.due s))
  | [] =>
    if h.oldAn.isSome then .next (updHost p (fun h => dropSaks { h with oldAn := none, oldPn := 0, oldSeen := [] }) (tickTo h.oldDue s))
    else .next s

end Sys2Proof.Machine
end

