-- ==== Sys2Proof/Machine/Report.lean ====
section
/-! DEFINITION. Power reports: samples, frame averages and peaks, block averages, energy (17 R495 to R499). -/
namespace Sys2Proof.Machine

open Sys2Proof

/-- The power of a channel now: VOUT × I of a branch, VIN56 × the current of B0 for TRAY (R495). -/
def chPower (s : State) (c : Fin 13) : Rat :=
  if h : c.val < 12 then (s.br.get ⟨c.val, h⟩).vout * (s.br.get ⟨c.val, h⟩).cur else s.pow.vin * (s.br.get 0).cur

/-- Energy in units of 2^-32 J, as a number that wraps with ENERGY_J (R497). -/
def addEnergy (e : Nat) (p : Rat) : Nat := (((e : Int) + (p * two32 / 1000000).floor) % 2 ^ 96).toNat

/-- POWER_SAMPLE, each microsecond; `pkg` is the package's own draw. -/
def execPowerSample (pkg : Rat) (s : State) : Out :=
  if !s.clk.running then .next s
  else
    let one (c : Fin 13) (s : State) : State :=
      let p := chPower s c
      updRep c (fun x => { x with
        p := p
        win := x.win + p
        winN := x.winN + 1
        sec := x.sec + p
        secN := x.secN + 1
        mnt := x.mnt + p
        mntN := x.mntN + 1
        hour := x.hour + p
        hourN := x.hourN + 1
        energy := addEnergy x.energy p }) s
    let s1 := forAll 13 one s
    .next { s1 with pkgEnergy := addEnergy s1.pkgEnergy pkg % 2 ^ 42 }

/-- The next window boundary: of the frame slots while LAUNCH_AT is armed, else a whole multiple of the period. -/
def windowEnd (s : State) : Nat :=
  let f := frameNs s
  let l := getN s Obj.launchAt
  if l = 0 then (now s / f + 1) * f else if now s < l then l - ((l - now s - 1) / f) * f else l + ((now s - l) / f + 1) * f

/-- POWER_WINDOW_END: the frame average, and the peaks it makes. -/
def execPowerWindowEnd (s : State) : Out :=
  if !s.clk.running then .next s
  else
    let e := windowEnd s
    let s0 := reachCount e s
    let one (c : Fin 13) (s : State) : State :=
      let x := s.rep.get c
      if x.winN = 0 then s
      else
        let avg := f32OfRat (x.win / x.winN)
        let s1 := setN s (Obj.powerNowW c.val) avg
        let s2 := if x.fresh || Fmt.f32.lt (getN s1 (Obj.powerPeakW c.val)) avg then
            setN (setN s1 (Obj.powerPeakW c.val) avg) (Obj.powerPeakCount c.val) (e - frameNs s1) else s1
        let pk := match x.peakSec with | some v => if Fmt.f32.lt v avg then avg else v | none => avg
        updRep c (fun y => { y with win := 0, winN := 0, peakSec := some pk, winAt := some s.clk.cycles, winFrom := e - frameNs s1, fresh := false }) s2
    .next (forAll 13 one s0)

/-- AVG_BLOCK_END: a second (0), minute (1) or hour (2) of count is over. A block of which a part passed before Rye started, or before
a step of the count, is no completed one: its averages stay as they were (R496; DEDUCED, log 88). -/
def execAvgBlockEnd (k : Fin 3) (s : State) : Out :=
  if !s.clk.running then .next s
  else
    let len := if k = 0 then 1000000000 else if k = 1 then 60000000000 else 3600000000000
    let s0 := reachCount ((now s / len + 1) * len) s
    let mean (sum : Rat) (n : Nat) : Nat := if n = 0 then nanF32 else f32OfRat (sum / n)
    let one (c : Fin 13) (s : State) : State :=
      let x := s.rep.get c
      let show' (o : Obj) (v : Nat) (s : State) : State := if x.whole.contains k.val then setN s o v else s
      let from' : List Nat := if x.whole.contains k.val then x.whole else x.whole ++ [k.val]
      if k = 0 then
        updRep c (fun y => { y with sec := 0, secN := 0, peakSec := none, whole := from' })
          (show' (Obj.peak1sW c.val) (x.peakSec.getD nanF32) (show' (Obj.avg1sW c.val) (mean x.sec x.secN) s))
      else if k = 1 then updRep c (fun y => { y with mnt := 0, mntN := 0, whole := from' }) (show' (Obj.avg1mW c.val) (mean x.mnt x.mntN) s)
      else updRep c (fun y => { y with hour := 0, hourN := 0, whole := from' }) (show' (Obj.avg1hW c.val) (mean x.hour x.hourN) s)
    .next (forAll 13 one s0)

/-- The peaks restart; a window that ended in this Rye cycle is the first after the reset (R495). -/
def peakReset (_ : Count) (s : State) : State :=
  forAll 13 (fun c s =>
    let x := s.rep.get c
    if x.winAt = some s.clk.cycles then setN (setN s (Obj.powerPeakW c.val) (getN s (Obj.powerNowW c.val))) (Obj.powerPeakCount c.val) x.winFrom
    else updRep c (fun y => { y with fresh := true }) (setN (setN s (Obj.powerPeakW c.val) 0) (Obj.powerPeakCount c.val) 0)) s

/-- PEAK_RESET. -/
def execPeakReset (au : Auth) (s : State) : Out := .next (writeStep au Obj.peakReset.key (.num 1) noHome peakReset s)

end Sys2Proof.Machine
end

