-- ==== Sys2Proof/Machine/Write.lean ====
section
/-! DEFINITION. A write of any object (12 R351, R359): the checks its home chapter adds, and its effect at the accepting
count. An object without a rule of its own takes the value. -/
namespace Sys2Proof.Machine

open Sys2Proof

/-- A function of an index within its range. -/
def onFin {α : Type} (n k : Nat) (f : Fin n → α) (d : α) : α := if h : k < n then f ⟨k, h⟩ else d

/-! ## The checks of the home chapters -/

/-- R255 with one setting of the branch changed. -/
def branchHome (b : Nat) (f : BrSet → BrSet) (s : State) : Nat :=
  onFin 12 b (fun b => if BrSet.ok b (f (brSet s b)) then 0 else 0x00040801) 0

/-- R279: the ratios of a rail, with one changed. -/
structure Ratios where
  off : Rat
  uvF : Rat
  uvW : Rat
  ovW : Rat
  ovF : Rat
  nominal : Rat
  deriving DecidableEq, Repr

def ratiosOf (s : State) (k : Nat) : Ratios :=
  ⟨getF s (Obj.offLevelR k), getF s (Obj.uvFaultR k), getF s (Obj.uvWarnR k), getF s (Obj.ovWarnR k), getF s (Obj.ovFaultR k),
   getF s (Obj.railNominalV k)⟩

def Ratios.ok (x : Ratios) : Bool :=
  decide (0 < x.off) && decide (x.off < x.uvF) && decide (x.uvF < x.uvW) && decide (x.uvW < 1) && decide (1 < x.ovW) &&
    decide (x.ovW < x.ovF) && decide (x.ovF ≤ 3 / 2) && decide (x.ovF * x.nominal ≤ 16)

def ratioHome (k : Nat) (f : Ratios → Ratios) (s : State) : Nat := if (f (ratiosOf s k)).ok then 0 else 0x00040901

/-- The step words of the three stored lists of a sequencer. -/
def storedWords (s : State) (q : Fin 9) : List Nat :=
  wordsOf (listBytes s q .up) ++ wordsOf (listBytes s q .down) ++ wordsOf (listBytes s q .emergency)

/-- A stored list names a rail: in any step that has one, or in a WAIT_PG (R285). -/
def listNames (s : State) (k : Nat) (pgOnly : Bool) : Bool :=
  onFin 9 (k / 16) (fun q => (storedWords s q).any (fun w =>
    (stepRail w).val == k % 16 && (stepType w == 3 || (!pgOnly && (stepType w == 1 || stepType w == 2 || stepType w == 5))))) false

def railEnabled (s : State) (k : Nat) : Bool :=
  onFin 9 (k / 16) (fun q => onFin 16 (k % 16) (fun r => ((s.sq.get q).rails.get r).enabled) false) false

/-- RAIL_NOMINAL_V and PG_USED (R279, R285, R299). -/
def nominalHome (k v : Nat) (s : State) : Nat :=
  if !(Ratios.ok { ratiosOf s k with nominal := f32ToRat v }) then 0x00040901
  else if f32ToRat v = 0 && listNames s k false then 0x00040903
  else if railEnabled s k then 0x00070901
  else 0

def pgUsedHome (k v : Nat) (s : State) : Nat :=
  if v = 0 && listNames s k true then 0x00040903 else if railEnabled s k then 0x00070901 else 0

def railHome (k sub v : Nat) (s : State) : Nat :=
  let q := f32ToRat v
  if sub = 3 then nominalHome k v s
  else if sub = 4 then ratioHome k (fun x => { x with uvF := q }) s
  else if sub = 5 then ratioHome k (fun x => { x with uvW := q }) s
  else if sub = 6 then ratioHome k (fun x => { x with ovW := q }) s
  else if sub = 7 then ratioHome k (fun x => { x with ovF := q }) s
  else if sub = 13 then ratioHome k (fun x => { x with off := q }) s
  else if sub = 16 then pgUsedHome k v s
  else 0

def branchFieldHome (field b sub v : Nat) (s : State) : Nat :=
  if field = 1 ∧ sub = 1 ∧ v = 1 then onFin 12 b (fun b => enableHome b s) 0
  else if field = 2 ∧ sub = 1 then branchHome b (fun x => { x with shunt := v }) s
  else if field = 2 ∧ sub = 2 then branchHome b (fun x => { x with nFet := v, share := if getN s (Obj.linShare b) = 0 then f32OfRat (min 2 v) else x.share }) s
  else if field = 3 ∧ sub = 1 then branchHome b (fun x => { x with fast := v }) s
  else if field = 5 ∧ sub = 2 then branchHome b (fun x => { x with ilim := v }) s
  else if field = 7 ∧ sub = 9 then branchHome b (fun x => { x with share := v }) s
  else 0

/-- A minimum above its maximum (07 R225). -/
def pairHome (lo hi : Nat) : Nat := if Fmt.f32.lt hi lo then 0x00040704 else 0

/-- LEAK_WARN_OHM stands above LEAK_FAULT_OHM (10 Table 10.3). -/
def leakOhmHome (lo hi : Nat) : Nat := if Fmt.f32.lt lo hi then 0 else 0x00040001

/-- PG_LIMIT_MS stands above PG_WINDOW_US (09 Table 9.10). -/
def pgLimitHome (q n : Nat) (s : State) : Nat := if getN s (Obj.pgWindowUs q) < 1000 * n then 0 else 0x00040001

def seqHome (idx sub n : Nat) (bs : List Byte) (s : State) : Nat :=
  let q := (idx - 0x2200) / 0x20
  let f := (idx - 0x2200) % 0x20
  if f = 1 then (if sub = 4 then pgLimitHome q n s else 0)
  else onFin 9 q (fun q => if f = 2 then listHome q .up bs s else if f = 3 then listHome q .down bs s else if f = 4 then listHome q .emergency bs s else 0) 0

/-- What the home chapter of an object checks once the range holds; 0, or its code. `sub` counts from 1 in arrays. -/
def writeHome (au : Auth) (key : Nat) (v : Value) (s : State) : Nat :=
  let idx := key / 256
  let sub := key % 256
  let n := match v with | .num n => n | .bytes _ => 0
  let bs := match v with | .bytes bs => bs | .num _ => []
  if idx = 0x1201 ∧ sub = 8 then timeSetHome s
  else if idx = 0x1210 ∧ sub = 2 then launchHome n s
  else if 0x2000 ≤ idx ∧ idx < 0x20C0 then
    (if idx % 16 = 4 then (if curveOk bs then 0 else 0x00040802) else branchFieldHome (idx % 16) ((idx - 0x2000) / 16) sub n s)
  else if idx = 0x2102 then dwHome bs s
  else if 0x2200 ≤ idx ∧ idx < 0x2320 then seqHome idx sub n bs s
  else if 0x2400 ≤ idx ∧ idx < 0x2490 then railHome (idx - 0x2400) sub n s
  else if 0x3020 ≤ idx ∧ idx < 0x3028 ∧ sub = 1 then (if n = 0xFFFF ∨ sourceOk n then 0 else 0x00040001)
  else if 0x3020 ≤ idx ∧ idx < 0x3028 ∧ sub = 8 then (if 2 < n / 2 ^ 28 then 0x00040001 else 0)
  else if idx = 0x3204 then leakOhmHome (getN s (Obj.leakFaultOhm (sub - 1))) n
  else if idx = 0x3205 then leakOhmHome n (getN s (Obj.leakWarnOhm (sub - 1)))
  else if idx = 0x3213 then onFin 8 n (fun z => if zoneDry s z then 0 else 0x00071001) 0
  else if idx = 0x4013 then (if n = 0 then readyOnly s else 0)
  else if idx = 0x4031 then (if sub = 5 then 0 else replayHome s)
  else if idx = 0x4032 then longCaptureHome bs s
  else if idx = 0x4033 ∨ idx = 0x4035 then replayHome s
  else if idx = 0x4036 then (if n = 2 then 0 else replayHome s)
  else if idx = 0x4040 then onFin 4 sub (fun i => imageHome i s) 0
  else if idx = 0x4044 ∧ sub = 1 then onFin 4 n (fun i => armHome i s) 0
  else if idx = 0x4046 then (if n = 0 then readyOnly s else 0)
  else if 0x4110 ≤ idx ∧ idx < 0x4120 then modelHome (key - 0x411000) bs.length s
  else if 0x4130 ≤ idx ∧ idx < 0x4140 then codebookHome (key - 0x413000) bs s
  else if 0x4400 ≤ idx ∧ idx < 0x4428 then descHome au (key - 0x440000) (descOfBytes bs).1 (descOfBytes bs).2 s
  else if idx = 0x4840 then pairHome n (getN s (Obj.outMax (sub - 1)))
  else if idx = 0x4841 then pairHome (getN s (Obj.outMin (sub - 1))) n
  else if idx = 0x4843 then pairHome n (getN s (Obj.tgtMax (sub - 1)))
  else if idx = 0x4844 then pairHome (getN s (Obj.tgtMin (sub - 1))) n
  else if idx = 0x4860 then (if concordProgOk bs then 0 else 0x00040001)
  else if idx = 0x1400 then onFin 2 (sub - 1) (fun p => portModeHome au p s) 0
  else if idx = 0x1410 then gateListHome bs s
  else if idx = 0x1461 then onFin 2 n (fun p => macsecHome p s) 0
  else if idx = 0x6012 then
    keyCmdHome au bs (s.cardamom.held.keys.any (fun k => bitSet k.2.roles 0 && Config.verifies k.2.digest bs)) s
  else if idx = 0x6021 then raiseHome bs s
  else if idx = 0x9001 then updateHome bs s
  else 0

/-! ## The effects -/

/-- CODE_RATE: a bucket is never fuller than its BURST (17 R484). The value stands whatever the code's default is. -/
def codeRateEffect (code v : Nat) (s : State) : State :=
  let s1 := { s with nums := put s.nums (0x702000 + code) v }
  match evOf code with
  | some e => { s1 with nut := { s1.nut with tokens := if decide (v / 256 ≤ lookD s1.nut.tokens (evKey e) u32) then del s1.nut.tokens (evKey e) else s1.nut.tokens } }
  | none => s1

/-- Objects of the security record that take ordinary values: each write is a commit of the record (16 R464, R478). -/
def secNumEffect (key v : Nat) (s : State) : State := commitRec id (storeValue key (.num v) s)

/-- Zone, valve and cooling settings act at once: closures, holds and failsafe values follow them. -/
def coolingEffect (key : Nat) (v : Value) (s : State) : State := settleZones (storeValue key v s)

/-- A write of a rail's settings: RAIL_NOMINAL_V arms or disarms its OV levels at once (09 R281), the levels act from the next
Rye cycle (09 R299). -/
def railEffect (key v : Nat) (s : State) : State :=
  let k := key / 256 - 0x2400
  if key % 256 = 3 then
    let s1 := storeValue key (.num v) s
    onFin 9 (k / 16) (fun q => onFin 16 (k % 16) (fun r => armRail q (supplied s1 q) r s1) s1) s1
  else if key % 256 = 16 then storeValue key (.num v) s
  else levelEffect key v s

def branchEffect (key b sub v : Nat) (c : Count) (s : State) : State :=
  if sub = 1 then
    onFin 12 b (fun b => if v = 0 then disableEffect b c s else enableEffect b c s) s
  else if sub = 2 then onFin 12 b (fun b => fetClearEffect b c s) s
  else if sub = 3 then onFin 12 b (fun b => startOffsetEffect b (storeValue key (.num v) s)) s
  else storeValue key (.num v) s

/-- A write of PTP_PROFILE, which can leave TIME_SOURCE 1 without a source or give it one. -/
def ptpProfileEffect (key : Nat) (v : Value) (s : State) : State := follow (sourceWritten (sourceNow s) (storeValue key v s))

/-- Engine, time and Anise objects. -/
def engineWrite (au : Auth) (key : Nat) (v : Value) (c : Count) (s : State) : Option State :=
  let idx := key / 256
  let sub := key % 256
  let n := match v with | .num n => n | .bytes _ => 0
  let bs := match v with | .bytes bs => bs | .num _ => []
  if idx = 0x1201 ∧ sub = 1 then some (timeSourceEffect n c s)
  else if idx = 0x1201 ∧ sub = 8 then some (timeSetEffect n c s)
  else if idx = 0x1450 then some (ptpProfileEffect key v s)
  else if idx = 0x1210 ∧ sub = 2 then some (launchEffect n c s)
  else if idx = 0x1210 ∧ sub = 3 then some (frameStopEffect n c s)
  else if idx = 0x4013 then
    some (onFin 68 sub (fun t =>
      let s1 := storeValue key v s
      if n = 1 then tileFails t s1 else if (s1.eng.tiles.get t).st = .failed then retestTile t s1 else s1) s)
  else if idx = 0x4031 ∧ sub = 5 then some (if n = 1 then freezeRing s else resumeRing s)
  else if idx = 0x4032 then some (longCaptureEffect bs c s)
  else if idx = 0x4035 then some (replayInputEffect bs (storeValue key v s))
  else if idx = 0x4036 then some (replayCtrlEffect n s)
  else if idx = 0x4040 then some (onFin 4 sub (fun i => imageEffect i bs c s) s)
  else if idx = 0x4044 ∧ sub = 1 then some (if n = 0xFF then unarm s else onFin 4 n (fun i => armEffect i c s) s)
  else if idx = 0x4046 then
    some (onFin 2 (sub - 3) (fun d => if n = 1 then domainLost d (storeValue key v s) else domainClear d s) s)
  else if 0x4110 ≤ idx ∧ idx < 0x4120 then some (modelEffect (key - 0x411000) bs c s)
  else if 0x4130 ≤ idx ∧ idx < 0x4140 then some (codebookEffect (key - 0x413000) bs c s)
  else if 0x4400 ≤ idx ∧ idx < 0x4428 then some (descEffect au (key - 0x440000) (descOfBytes bs).1 c s)
  else if idx = 0x4800 then some (programEffect bs c s)
  else if idx = 0x4810 then some (onFin 8 (sub - 1) (fun a => antEnableEffect a n c s) s)
  else if idx = 0x4842 ∨ idx = 0x4843 ∨ idx = 0x4844 then some (evalTarget (sub - 1) (storeValue key v s))
  else none

/-- Rye's objects: branches, heat, cooling, requests and caps. -/
def ryeWrite (key : Nat) (v : Value) (kept : Bool) (c : Count) (s : State) : Option State :=
  let idx := key / 256
  let sub := key % 256
  let n := match v with | .num n => n | .bytes _ => 0
  let bs := match v with | .bytes bs => bs | .num _ => []
  if 0x2000 ≤ idx ∧ idx < 0x20C0 ∧ idx % 16 = 1 then some (branchEffect key ((idx - 0x2000) / 16) sub n c s)
  else if 0x2400 ≤ idx ∧ idx < 0x2490 then some (railEffect key n s)
  else if idx = 0x2102 then some (forEach (dwRecords bs) applyDw s)
  else if idx = 0x2808 then some (peakReset c s)
  else if idx = 0x3000 ∧ sub = 6 then some (settleLevel (storeValue key v s))
  else if 0x3020 ≤ idx ∧ idx < 0x3028 ∧ (sub = 6 ∨ sub = 7) then some (recomputeCaps (storeValue key v s))
  else if idx = 0x3100 ∨ idx = 0x3110 ∨ idx = 0x3111 ∨ idx = 0x3112 ∨ idx = 0x3203 ∨ idx = 0x3210 ∨ idx = 0x3211 then some (coolingEffect key v s)
  else if idx = 0x3202 then some (onFin 8 (sub - 1) (fun k => enableLeak k (storeValue key v s)) s)
  else if idx = 0x3213 then some (onFin 8 n (fun z => clearZone z c s) s)
  else if idx = 0x1101 then some (if sub = 1 then mainReset 1 kept s else warmRestart s)
  else if idx = 0x1121 then some (onFin 8 (sub - 1) (fun a => setReq .facility a n s) s)
  else if idx = 0x1122 then some (onFin 8 (sub - 1) (fun a => setReq .host a n s) s)
  else if idx = 0x1123 then some (onFin 8 (sub - 1) (fun a => setReq .service a n s) s)
  else if idx = 0x1127 then some (onFin 8 (sub - 1) (fun a => releaseQuar a s) s)
  else if 0x1140 ≤ idx ∧ idx < 0x1144 then some (recomputeCaps (storeValue key v s))
  else none

/-- Ports, Cardamom, the update and the recorder. `n` is the session that writes. -/
def sideWrite (sess key : Nat) (v : Value) (kept : Bool) (c : Count) (s : State) : Option State :=
  let idx := key / 256
  let sub := key % 256
  let n := match v with | .num n => n | .bytes _ => 0
  let bs := match v with | .bytes bs => bs | .num _ => []
  if idx = 0x1400 then some (onFin 2 (sub - 1) (fun p => portModeEffect p n s) s)
  else if idx = 0x1410 then some (onFin 2 (sub - 1) (fun p => gateListEffect p bs c s) s)
  else if idx = 0x1420 then some (onFin 8 (sub - 1) (fun a => sbModeEffect a n s) s)
  else if idx = 0x1461 then some (onFin 2 n (fun p => macsecKey sess p s) s)
  else if idx = 0x1462 then some (onFin 2 (sub - 1) (fun p => switchAtEffect p n s) s)
  else if idx = 0x6012 then some (keyCmdEffect bs s)
  else if idx = 0x6014 then some (ownerReset s)
  else if idx = 0x6015 ∨ idx = 0x6050 then some (secNumEffect key n s)
  else if idx = 0x6021 then some (raiseEffect bs s)
  else if idx = 0x6040 then some (quoteEffect sess bs c s)
  else if idx = 0x7000 ∧ sub = 3 then some (clearRecorder c s)
  else if 0x7020 ≤ idx ∧ idx < 0x7030 then some (codeRateEffect (key - 0x702000) n s)
  else if idx = 0x7220 then some (onFin 12 (sub - 1) (fun b => peSerialEffect b bs c s) s)
  else if idx = 0x9000 ∧ sub = 6 then some (if n = 1 then abortUpdate kept s else confirmUpdate s)
  else if idx = 0x9001 then some (startUpdate bs s)
  else none

/-- What a written value does at its accepting count. -/
def writeEffect (au : Auth) (sess key : Nat) (v : Value) (kept : Bool) (c : Count) (s : State) : State :=
  match engineWrite au key v c s with
  | some t => t
  | none =>
    match ryeWrite key v kept c s with
    | some t => t
    | none =>
      match sideWrite sess key v kept c s with
      | some t => t
      | none => storeValue key v s

end Sys2Proof.Machine
end

