-- ==== Sys2Proof/Machine/Oda.lean ====
section
/-! DEFINITION. ODA requests (12): reads, writes and their steps (R351 to R361), the firmware's completions (15 R436), NOR commits
(R354), subscriptions and notifications (R362 to R365, 02 R69), and the ledger query (R379). -/
namespace Sys2Proof.Machine

open Sys2Proof

/-! ## A request and its gate (R355 to R357, R372) -/

/-- The outcome of a request that belongs to no session: sent unsecured, with no payload (R356). -/
def answerBare (a : Answer) (s : State) : State := setOda (fun o => { o with answer := some a }) s

/-- A session has 16 requests outstanding, or the engine's queue of 256 is full. -/
def busy (s : State) (x : Session) : Bool := decide (16 ≤ x.outstanding) || decide (256 ≤ s.oda.waiting.length)

/-- A request of session n: its session, its form, the room for it, and for a recorded one its TXN; then `go`. -/
def request (n txn op steps : Nat) (body : ReqBody) (formOk recorded inLedger : Bool) (go : Pending → State → State) (s : State) : State :=
  if !s.oda.serving then s
  else if n = 0 then answerBare (abortAnswer 0 txn 0x00090001) s
  else
    match odaSession s n with
    | none => answerBare (abortAnswer n txn 0x00090002) s
    | some x =>
      let s1 := setOda (fun o => { o with nextReq := o.nextReq + 1 }) (touch n s)
      let p : Pending := ⟨n, x.place, x.auth, txn, op, body, [], [], [], false, .hold, s.oda.nextReq⟩
      if !formOk then respond n (abortAnswer n txn 0x00080001) (inc32 s1 Obj.odaMalformed)
      else if busy s x then respond n (abortAnswer n txn 0x00070001) (inc32 s1 Obj.odaBusy)
      else if !recorded then go p s1
      else
        match seenTxn s n x.place txn body with
        | .again a => respond n a s1
        | .running => s1
        | .other => respond n (abortAnswer n txn 0x00080003) s1
        | .stale => respond n (abortAnswer n txn 0x00080002) s1
        | .fresh => go p (beginTxn x.place txn op steps body inLedger s1)

/-! ## Reads (R356, R358 to R360) -/

/-- What a request without a session may read. -/
def publicKey (key : Nat) : Bool := (decide (0x100000 ≤ key) && decide (key < 0x110000)) || key == 0x110001

def existCode (s : State) (key : Nat) : Nat := if indexUsed s (key / 256) then 0x00020002 else 0x00020001

/-- One read of a hardware-backed object: its status and its value. -/
def readOne (s : State) (n place : Nat) (au : Auth) (key ty : Nat) : Nat × Option Value :=
  let c := readCheck s au key ty
  if c ≠ 0 then (c, none) else (0, some (readValue s n place key))

def lenAt (s : State) (key : Nat) (v : Value) : Nat := match findEntry s key with | some e => wireLen e.ty v | none => 0

def isFwKey (s : State) (key : Nat) : Bool := match findEntry s key with | some e => e.fw | none => false

/-- A value that fits one message, or its abort (R359, log 43). -/
def readFits (s : State) (key : Nat) (v : Value) : Nat := if blockOnly key || decide (1400 < lenAt s key v + 4) then 0x00040011 else 0

/-- A READ of a value. -/
def readGo (key ty : Nat) (p : Pending) (s : State) : State :=
  if readCheck s p.auth key ty ≠ 0 then finish p (readCheck s p.auth key ty) s
  else if isFwKey s key then passFront p s
  else
    let v := readValue s p.sess p.place key
    if readFits s key v ≠ 0 then finish p (readFits s key v) s else finish { p with items := [(key, 0, some v)] } 0 s

/-- A READ of a descriptor needs no access bit (R348). -/
def describeGo (key ty : Nat) (p : Pending) (s : State) : State :=
  match effEntry s key with
  | none => finish p (existCode s key) s
  | some e => if ty ≠ 0 ∧ ty ≠ e.ty.code then finish p 0x00030001 s else finish { p with items := [(key, 0, some (.bytes (describe s key e)))] } 0 s

def barePending (txn op : Nat) (body : ReqBody) : Pending := ⟨0, 0, .host, txn, op, body, [], [], [], false, .hold, 0⟩

/-- A read without a session finds room in the engine's queue, or is turned away (R357). -/
def bareRequest (txn : Nat) (go : State → State) (s : State) : State :=
  if 256 ≤ s.oda.waiting.length then answerBare (abortAnswer 0 txn 0x00070001) (inc32 s Obj.odaBusy) else go s

/-- ODA_READ. Without a session it answers for what R356 lists; those objects are readable by every authority. -/
def execOdaRead (n txn key ty : Nat) (desc : Bool) (s : State) : Out :=
  let body := ReqBody.read key ty desc
  let go := if desc then describeGo key ty else readGo key ty
  if n = 0 && s.oda.serving && publicKey key then .next (bareRequest txn (go (barePending txn 1 body)) s)
  else .next (request n txn 1 0 body true false false go s)

/-- The items of a READ_MULTI that hardware holds, each read on its own; a value that would take the response beyond 1,400
bytes is left out. `used` counts the bytes so far. -/
def readItems (s : State) (p : Pending) : List (Nat × Nat) → Nat → List (Nat × Nat × Option Value)
  | [], _ => []
  | (key, ty) :: t, used =>
    if readCheck s p.auth key ty ≠ 0 then (key, readCheck s p.auth key ty, none) :: readItems s p t used
    else if isFwKey s key then (key, 0, none) :: readItems s p t used
    else
      let v := readValue s p.sess p.place key
      let len := lenAt s key v
      if blockOnly key || decide (1400 < used + len) then (key, 0x00040011, none) :: readItems s p t used
      else (key, 0, some v) :: readItems s p t (used + len)

/-- The positions that wait for the firmware. -/
def fwItems (s : State) (p : Pending) (items : List (Nat × Nat)) : List (Nat × Nat × Value) :=
  (items.mapIdx (fun i x => (i, x))).filterMap (fun q =>
    if readCheck s p.auth q.2.1 q.2.2 = 0 && isFwKey s q.2.1 then some (q.1, q.2.1, Value.num 0) else none)

def multiGo (items : List (Nat × Nat)) (p : Pending) (s : State) : State :=
  let p1 := { p with items := readItems s p items (8 * items.length) }
  runItems { p1 with steps := fwItems s p items } (fwItems s p items) s

def countOk (n : Nat) : Bool := decide (1 ≤ n) && decide (n ≤ 64)

/-- READ_MULTI of 1 to 64 items. -/
def execReadMulti (n txn : Nat) (items : List (Nat × Nat)) (s : State) : Out :=
  let body := ReqBody.readMulti items
  if n = 0 && s.oda.serving && !(countOk items.length) then .next (answerBare (abortAnswer 0 txn 0x00080001) (inc32 s Obj.odaMalformed))
  else if n = 0 && s.oda.serving && items.all (fun x => publicKey x.1) then
    .next (bareRequest txn (multiGo items (barePending txn 3 body)) s)
  else .next (request n txn 3 0 body (countOk items.length) false false (multiGo items) s)

/-! ## Steps of a write (R351 to R354, R361) -/

/-- The checks of one hardware-backed step, in the order of R351. -/
def stepStatus (s : State) (au : Auth) (key ty : Nat) (v : Value) : Nat :=
  if precheck s au key ty v ≠ 0 then precheck s au key ty v
  else if writeHome au key v s ≠ 0 then writeHome au key v s
  else if inRam key && s.mem.st != .ready then 0x00070033
  else 0

/-- What the engine checks of a firmware-backed step before it passes it: steps 1 to 6 of R351, and the journal of a trial
(R347, 15 Table 15.6, R453; log 49). -/
def fwStatus (s : State) (au : Auth) (key ty : Nat) (v : Value) : Nat :=
  let c := precheck s au key ty v
  if c ≠ 0 ∧ c / 65536 ≠ 4 then c
  else if s.bar.upd = .trial && decide (4096 ≤ s.bar.journal.length) then 0x00071506
  else 0

/-- A refused descriptor write leaves its code in LAST_ERROR (04 R127); nothing else leaves a trace. -/
def stepRefused (s0 : State) (au : Auth) (key : Nat) (v : Value) (code : Nat) (s : State) : State :=
  let idx := key / 256
  if 0x4400 ≤ idx ∧ idx < 0x4428 then
    let n := key - 0x440000
    if code / 65536 = 5 then updSess n (fun x => { x with lastError := code }) s
    else if precheck s0 au key 0 v ≠ 0 then s
    else
      let d := (descOfBytes (match v with | .bytes bs => bs | .num _ => [])).1
      let s1 := updSess n (fun x => { x with lastError := code }) s
      if d.cls = 0 && (code = 0x00070101 || code = 0x00070103) then raiseMain .p0AdmissionFailed sessSrc n s1 else s1
  else s

/-- Objects whose write is a commit to NOR (R354): by their persistence, and the commands that change the security record. -/
def commits (key : Nat) (e : Entry) : Bool := e.persist == .nor || e.persist == .rcb || [0x601200, 0x601401, 0x602100].contains key

/-- Whether the controller confirms self-refresh at a reset that a write begins is a free value. -/
def keptFor (key : Nat) (s : State) : Bool × State :=
  if key = 0x110101 ∨ key = 0x900006 then ((takeFree 1 s).1 == 1, (takeFree 1 s).2) else (false, s)

/-- A step is applied at its accepting count: counted and effective together (R352, R377). -/
def applyStep (p : Pending) (key : Nat) (v : Value) (s : State) : Pending × State :=
  let c := acceptCount s
  let k := keptFor key { s with clk := { s.clk with lastAccept := c } }
  ({ p with accepted := p.accepted ++ [c] }, noteDegraded (writeEffect p.auth p.sess key v k.1 c (countStep p.place p.txn c k.2)))

/-- The objects a waiting write has still to write. -/
def Pending.writes (p : Pending) : List Nat :=
  match p.body with
  | .write _ _ _ | .writeMulti _ => p.steps.map (·.1)
  | .block 5 _ _ _ _ _ => p.steps.map (·.1)
  | _ => []

/-- A write that the engine received earlier has still to be applied to the object (R352). -/
def overtakes (p : Pending) (key : Nat) (s : State) : Bool :=
  s.oda.waiting.any (fun q => decide (q.arrival < p.arrival) && q.writes.contains key)

/-- The steps of a transaction, in order: each is applied, waits for its turn, for its commit or for the firmware, or ends the
request. -/
def runSteps (p : Pending) : List (Nat × Nat × Value) → State → State
  | [], s => finish { p with steps := [] } 0 s
  | (key, ty, v) :: t, s =>
    match findEntry s key with
    | none => finish { p with steps := [] } (existCode s key) s
    | some e =>
      if overtakes p key s then park { p with steps := (key, ty, v) :: t, waiting := .behind } s
      else if e.fw then
        (if fwStatus s p.auth key ty v ≠ 0 then finish { p with steps := [] } (fwStatus s p.auth key ty v) s
         else passFront { p with steps := (key, ty, v) :: t } s)
      else if stepStatus s p.auth key ty v ≠ 0 then
        finish { p with steps := [] } (stepStatus s p.auth key ty v) (stepRefused s p.auth key v (stepStatus s p.auth key ty v) s)
      else if commits key e then park { p with steps := (key, ty, v) :: t, waiting := .nor } s
      else
        let r := applyStep p key v s
        if r.2.oda.serving then runSteps r.1 t r.2 else r.2

/-- ODA_WRITE. -/
def execOdaWrite (n txn key ty : Nat) (v : Value) (s : State) : Out :=
  .next (request n txn 2 1 (.write key ty v) true true true (fun p => runSteps p [(key, ty, v)]) s)

/-- WRITE_MULTI of 1 to 64 steps. -/
def execWriteMulti (n txn : Nat) (steps : List (Nat × Nat × Value)) (s : State) : Out :=
  .next (request n txn 4 steps.length (.writeMulti steps) (countOk steps.length) true true (fun p => runSteps p steps) s)

/-- Sorted by arrival. -/
def insertPending (p : Pending) : List Pending → List Pending
  | [] => [p]
  | q :: t => if p.arrival ≤ q.arrival then p :: q :: t else q :: insertPending p t

/-- A write behind an earlier one goes on when none stands before it any more. -/
def advanceOne (p : Pending) (s : State) : State :=
  match p.steps with
  | (key, _, _) :: _ => if overtakes p key s || !s.oda.serving then s else runSteps p p.steps (unpark p s)
  | [] => s

/-- After a write has ended, those behind it go on, in the order in which they arrived. -/
def goOn (s : State) : State :=
  forEach ((s.oda.waiting.filter (fun p => p.waiting == .behind)).foldr insertPending []) advanceOne s

/-- What a commit that outlives a main-die reset does when it completes: Rye's objects and the security record take the value at
once, the main die loads its own at its next start (R346, R354). -/
def landEffect (p : Pending) (key : Nat) (v : Value) (c : Count) (s : State) : State :=
  match ryeWrite key v false c s with
  | some t => t
  | none => if [0x601200, 0x601401, 0x602100].contains key then writeEffect p.auth p.sess key v false c s else storeValue key v s

/-- It completes first and counts in DONE; then its entry is settled (R378). -/
def land (ok : Bool) (p : Pending) (s : State) : State :=
  let s1 := setOda (fun o => { o with landing := o.landing.erase p }) s
  match p.steps with
  | (key, _, v) :: _ =>
    if ok then
      let c := acceptCount s1
      interruptTxn p.place p.txn (noteDegraded (landEffect p key v c (countStep p.place p.txn c { s1 with clk := { s1.clk with lastAccept := c } })))
    else interruptTxn p.place p.txn s1
  | [] => interruptTxn p.place p.txn s1

/-- No command waits: one fabric cycle of 1 ns passes where Rye runs (02 R43, R44; log 10), and a write whose turn has come goes on. -/
def idle (s : State) : State := if s.clk.running then goOn (fabricCycle s) else s

/-- NOR_COMMIT_DONE: the oldest commit under way ends; `ok` is its outcome. -/
def execNorCommitDone (ok : Bool) (s : State) : Out :=
  match s.oda.landing with
  | q :: _ => .next (land ok q s)
  | [] =>
    match s.oda.waiting.find? (fun p => p.waiting == .nor) with
    | none => .next s
    | some p =>
      let s1 := unpark p s
      match p.steps with
      | [] => .next (finish p 0 s1)
      | (key, _, v) :: t =>
        if ok then
          let r := applyStep p key v s1
          if r.2.oda.serving then .next (goOn (runSteps r.1 t r.2)) else .next r.2
        else .next (goOn (finish { p with steps := [] } 0x00070041 s1))

/-! ## Completions of the firmware (15 R436, R453) -/

/-- In a trial an applied step is journalled. -/
def journal (key : Nat) (v : Value) (c : Count) (s : State) : State :=
  if s.bar.upd = .trial then setBar (fun b => { b with journal := b.journal ++ [⟨key, v, c⟩] }) s else s

/-- What Barley's checks give for a step: the firmware's own result, and the checks of the home chapter for the objects of this
manual that firmware serves. -/
def fwResult (s : State) (au : Auth) (key result : Nat) (v : Value) : Nat :=
  if result ≠ 0 then result
  else if precheck s au key 0 v ≠ 0 then precheck s au key 0 v
  else writeHome au key v s

/-- The value a firmware read returns: what the state holds for an object of this manual, what firmware gives for its own. -/
def fwValue (s : State) (p : Pending) (key : Nat) (v : Value) : Value := if key < 0x800000 then readValue s p.sess p.place key else v

/-- The bytes that the items of a READ_MULTI take so far. -/
def usedBytes (s : State) (p : Pending) : Nat :=
  8 * p.items.length + (p.items.map (fun x => match x.2.2 with | some v => lenAt s x.1 v | none => 0)).sum

/-- A completed item of a READ_MULTI. -/
def fwItem (p : Pending) (i key result : Nat) (v : Value) (s : State) : Pending :=
  let w := fwValue s p key v
  if result ≠ 0 then p.setItem i result none
  else if 1400 < usedBytes s p + lenAt s key w then p.setItem i 0x00040011 none
  else p.setItem i 0 (some w)

/-- A block that holds a value read from the firmware (R369). -/
def openBlock (n key : Nat) (write : Bool) (total : Nat) (snap : List Byte) (s : State) : Nat × State :=
  let id := s.oda.nextBlock % 65535 + 1
  let x : Xfer := ⟨key, write, total, [], snap, s.clk.cycles + sCycles 60⟩
  (id, updSession n (fun y => { y with blocks := put y.blocks id x }) (setOda (fun o => { o with nextBlock := id }) s))

/-- The bytes staged for all sessions; an export is read from the ring itself (R370, 05 R173). -/
def stagedBytes (s : State) : Nat :=
  (s.oda.sessions.map (fun p => (p.2.blocks.map (fun b => if b.2.key = Blob.ringExport then 0 else b.2.total)).sum)).sum

/-- Block staging: 1 GiB, or 960 MiB while its top holds an image, of the firmware in control or of a shadow that is streamed there
or runs from there (15 R445). -/
def stagingBytes (s : State) : Nat := if s.bar.fwAlt || s.bar.updStarted || s.bar.upd == .shadowBoot then 960 * 1048576 else 1073741824

/-- A session's four blocks, and the staging of all (R370). -/
def blockFits (s : State) (n total : Nat) : Bool :=
  match odaSession s n with
  | some x => decide (x.blocks.length < 4) && decide (stagedBytes s + total ≤ stagingBytes s)
  | none => false

/-- A snapshot is taken and its BLOCK_ID and length answered. -/
def startRead (key : Nat) (bs : List Byte) (p : Pending) (s : State) : State :=
  let room := if key = Blob.ringExport then 0 else bs.length
  if !(blockFits s p.sess room) then finish p 0x00070011 s
  else
    let r := openBlock p.sess key false bs.length bs s
    finish { p with items := [(r.1, bs.length, none)] } 0 r.2

def valueBytes : Value → List Byte
  | .bytes bs => bs
  | .num _ => []

/-- FW_COMPLETION: an entry of the completion ring (15 Table 15.6); a TAG that names no outstanding step is ignored. -/
def execFwCompletion (tag result : Nat) (v : Value) (s : State) : Out :=
  if fwFrozen s || !(s.bar.outstanding.any (fun r => r.tag == tag)) then .next s
  else
    let s1 := setBar (fun b => { b with outstanding := b.outstanding.filter (fun r => r.tag != tag), cmpTail := (b.cmpTail + 1) % two32 }) s
    match s.oda.waiting.find? (fun p => p.waiting == .fw tag) with
    | none => .next s1
    | some p =>
      let s2 := unpark p s1
      match p.op, p.body, p.steps with
      | 3, _, (i, key, _) :: t => .next (runItems (fwItem p i key result v s2) t s2)
      | 1, .read key _ _, _ =>
        let w := fwValue s2 p key v
        let code := if result ≠ 0 then result else readFits s2 key w
        .next (finish (if code = 0 then { p with items := [(key, 0, some w)] } else p) code s2)
      | 7, .block 1 _ key _ _ _, _ =>
        if result ≠ 0 then .next (finish p result s2) else .next (startRead key (valueBytes (fwValue s2 p key v)) p s2)
      | _, _, (key, _, w) :: t =>
        let code := fwResult s2 p.auth key result w
        if code ≠ 0 then .next (goOn (finish { p with steps := [] } code s2))
        else
          let r := applyStep p key w s2
          .next (goOn (runSteps r.1 t (journal key w (r.1.accepted.getLastD 0) r.2)))
      | _, _, [] => .next (finish p result s2)

/-! ## Subscriptions (R362 to R365) -/

def updSub (n k : Nat) (f : Subscr → Subscr) (s : State) : State :=
  updSession n (fun x => match look x.subs k with | some y => { x with subs := put x.subs k (f y) } | none => x) s

/-- The longest value an object can have on the wire. -/
def maxWire (e : Entry) : Nat :=
  if e.ty.isBytes then
    (if e.ty = .str then 2 else 4) + (match e.range with | .len _ hi => hi | .zeroOrLen _ hi => hi | .lens vs => vs.foldl max 0 | _ => if e.ty = .str then 255 else 65536)
  else e.ty.width / 8

/-- Existence, access and authority of an item; its availability is judged when it is sent. -/
def subCheck (s : State) (au : Auth) (x : Nat × Nat) : Nat :=
  let c := readCheck s au x.1 x.2
  if c / 65536 = 7 then 0 else c

def subSize (s : State) (items : List (Nat × Nat)) : Nat :=
  (items.map (fun x => 4 + (match findEntry s x.1 with | some e => maxWire e | none => 0))).sum

def subStatus (s : State) (au : Auth) (sub kind period : Nat) (items : List (Nat × Nat)) : Nat :=
  if 15 < sub then 0x00040001
  else if period = 0 then 0
  else if kind = 0 ∨ 3 < kind then 0x00040001
  else
    match items.find? (fun x => subCheck s au x != 0) with
    | some x => subCheck s au x
    | none => if kind = 1 ∧ 1384 < subSize s items then 0x00040011 else 0

def subscribeGo (sub kind period : Nat) (items : List (Nat × Nat)) (p : Pending) (s : State) : State :=
  let code := subStatus s p.auth sub kind period items
  if code ≠ 0 then finish p code s
  else
    let c := acceptCount s
    let s1 := countStep p.place p.txn c { s with clk := { s.clk with lastAccept := c } }
    let s2 := updSession p.sess (fun x => { x with
      subs := if period = 0 then del x.subs sub else put x.subs sub ⟨kind, period, items, 0, [], none, none⟩ }) s1
    finish { p with accepted := [c] } 0 s2

/-- SUBSCRIBE creates, replaces or cancels a subscription. -/
def execSubscribe (n txn sub kind period : Nat) (items : List (Nat × Nat)) (s : State) : Out :=
  .next (request n txn 5 1 (.subscribe sub kind period items) (decide (items.length ≤ 64)) true true (subscribeGo sub kind period items) s)

/-- Some port can take a session's message. -/
def routeUp (s : State) (x : Session) : Bool := if x.port = 2 then s.port.svcUp else hostUp s 0 || hostUp s 1

/-- The messages that the host ports and the service port have queued or sent. -/
def framesHeld (s : State) : Nat :=
  s.port.svcLine.length + ((List.finRange 2).map (fun p => (s.port.host.get p).queue.length + (s.port.host.get p).line.length)).sum

/-- A NOTIFY uses a number of its subscription, and is counted where no port takes it (R365). -/
def notify (n k : Nat) (beacon : Bool) (m : Msg) (s : State) : State :=
  match look s.oda.sessions n with
  | none => s
  | some x =>
    let s1 := updSub n k (fun y => { y with nextTxn := y.nextTxn + 1 }) s
    let s2 := if beacon then sendBeacon n m s1 else sendSession n 3 m s1
    if routeUp s x && decide (framesHeld s1 < framesHeld s2) then s2 else inc32 s2 Obj.odaNotifyDrops

/-- One item of a PERIODIC message. `vals` are the values firmware gives for its own objects. -/
def notifyItem (s : State) (n place : Nat) (au : Auth) (vals : List (Nat × Value)) (x : Nat × Nat) : Nat × Option Value :=
  let c := readCheck s au x.1 x.2
  if c ≠ 0 then (c, none)
  else if x.1 < 0x800000 then (0, some (readValue s n place x.1))
  else
    match vals.find? (fun q => q.1 == x.1) with
    | some q => (0, some q.2)
    | none => (0x00070031, none)

/-- PERIODIC_NOTIFY: in RUN after the main EMIT window of a frame n with n mod PERIOD_F = 0, else at each multiple of PERIOD_F
frame periods; none during a take-over's hold, when it is formed at the release (15 R450). One message is formed for each frame or
multiple. -/
def execPeriodicNotify (n k : Nat) (vals : List (Nat × Value)) (s : State) : Out :=
  match odaSession s n with
  | none => .next s
  | some x =>
    match look x.subs k with
    | none => .next s
    | some y =>
      if y.kind ≠ 1 || s.bar.holdOn || !s.oda.serving then .next s
      else if s.part.st = .run then
        if s.eng.any && s.eng.mainDone && s.eng.frame % y.period == 0 && y.sent != some (true, s.eng.frame) then
          .next (notify n k false (.notifyPeriodic n k y.nextTxn (some s.eng.frame) (y.items.map (notifyItem s n x.place x.auth vals)))
            (updSub n k (fun y => { y with sent := some (true, s.eng.frame) }) s))
        else .next s
      else
        let step := y.period * frameNs s
        let due := ceilDiv (now s) step * step
        let at_ := if y.sent = some (false, due) then due + step else due
        let s1 := reachCount at_ s
        .next (notify n k false (.notifyPeriodic n k y.nextTxn none (y.items.map (notifyItem s1 n x.place x.auth vals)))
          (updSub n k (fun y => { y with sent := some (false, at_) }) s1))

/-- The records held for a subscription leave, as a beacon where a fault event is among them (R364). -/
def sendHeld (n k : Nat) (beacon : Bool) (s : State) : State :=
  match odaSession s n with
  | none => s
  | some x =>
    match look x.subs k with
    | none => s
    | some y =>
      if y.held = [] then s
      else notify n k beacon (.notifyEvents n k y.nextTxn y.held) (updSub n k (fun y => { y with held := [], heldDue := none }) s)

/-- EVENT_NOTIFY: 20 µs after the first held record was numbered. -/
def execEventNotify (n k : Nat) (s : State) : Out :=
  match odaSession s n with
  | none => .next s
  | some x =>
    match look x.subs k with
    | none => .next s
    | some y => match y.heldDue with
      | some c => .next (sendHeld n k false (reachCount c s))
      | none => .next s

def subTakes (y : Subscr) (r : EvRec) : Bool := y.kind == 2 || (y.kind == 3 && r.code.isFault)

/-- A numbered record reaches one subscription: a fault event leaves at once with what is held, 43 records fill a message. -/
def deliverRec (r : EvRec) (n k : Nat) (s : State) : State :=
  match odaSession s n with
  | none => s
  | some x =>
    match look x.subs k with
    | none => s
    | some y =>
      if !(subTakes y r) then s
      else
        let due := match y.heldDue with | some c => some c | none => some (now s + 20000)
        let s1 := updSub n k (fun y => { y with held := y.held ++ [r], heldDue := due }) s
        if r.code.isFault then sendHeld n k true s1
        else if 43 ≤ y.held.length + 1 then sendHeld n k false s1
        else s1

def allSubs (s : State) : List (Nat × Nat) := (s.oda.sessions.map (fun p => p.2.subs.map (fun q => (p.1, q.1)))).flatten

/-- EVENT_NUMBERED: the earliest held event, 400 ns after its count (02 R69). -/
def execEventNumbered (s : State) : Out :=
  if !s.ev.up then .next s
  else
    match sortRecs s.ev.held with
    | [] => .next s
    | r :: t =>
      let s1 := reachCount (r.count + 400) s
      let q := { r with seq := s1.ev.nextSeq }
      let s2 := { s1 with ev := numberOne r { s1.ev with held := t } }
      .next (forEach (allSubs s2) (fun x s => deliverRec q x.1 x.2 s) s2)

/-! ## The ledger query and the cache (R372, R379) -/

def ReqBody.op : ReqBody → Nat
  | .read _ _ _ => 1 | .write _ _ _ => 2 | .readMulti _ => 3 | .writeMulti _ => 4 | .subscribe _ _ _ _ => 5 | .block _ _ _ _ _ _ => 7

def ReqBody.stepCount : ReqBody → Nat
  | .writeMulti l => l.length
  | _ => 1

def opOf (b : Option ReqBody) : Nat := (b.map ReqBody.op).getD 0
def stepsOf (b : Option ReqBody) : Nat := (b.map ReqBody.stepCount).getD 0

/-- An entry of a TXN that was never executed. -/
def blankEntry (txn : Nat) (st : TxStatus) (code : Nat) : Ledger := ⟨txn, 0, st, 0, 0, 0, code, none⟩

/-- A TXN of a place: from the ledger, then from the cache, else by FLOOR; whether it is to be fenced. -/
def queryTxn (s : State) (place txn : Nat) : Ledger × Bool :=
  match ledgerOf s place txn with
  | some e => (e, false)
  | none =>
    match cachedOf s place txn with
    | some c =>
      (match c.answer with
       | some a => (⟨txn, a.accepted.headD 0, statusOf a, opOf c.body, stepsOf c.body, a.done, a.status, c.body⟩, false)
       | none => (⟨txn, 0, .inProgress, opOf c.body, stepsOf c.body, 0, 0, c.body⟩, false))
    | none => if txn ≤ floorOf s place then (blankEntry txn .notHeld 0, false) else (blankEntry txn .notSeen 0, true)

/-- A NOT_SEEN TXN is fenced: recorded in the ledger and in the cache as REJECTED, so that a copy that arrives later is not
executed while either holds it, nor below FLOOR after that. -/
def fence (place txn : Nat) (s : State) : State :=
  if (queryTxn s place txn).2 then
    let e := blankEntry txn .rejected 0x00080008
    updPeer place (fun p => (p.ledgerAdd e).cacheAdd (e.cached (s.clk.cycles + sCycles 10))) s
  else s

def peerPlace (s : State) (id : List Byte) : Option Nat := (s.oda.peers.find? (fun p => p.2.id == id)).map (·.1)

/-- The response: the peer's FLOOR, and one entry per TXN. -/
def queryGo (peer : List Byte) (txns : List Nat) (p : Pending) (s : State) : State :=
  let own := peer.all (· == 0)
  let place := if own then some p.place else peerPlace s peer
  let other := !own && place != some p.place
  if other && p.auth != .service then finish p 0x00060003 s
  else
    match place with
    | none => finish { p with items := (0, 0, none) :: txns.map (fun t => (t, 0, some (.bytes (blankEntry t .notSeen 0).bytes))) } 0 s
    | some k =>
      let items := (floorOf s k, 0, none) :: txns.map (fun t => (t, (queryTxn s k t).1.status.code, some (Value.bytes (Ledger.bytes (queryTxn s k t).1))))
      finish { p with items := items } 0 (forEach txns (fence k) s)

/-- LEDGER_QUERY of 1 to 56 TXNs; `peer` is a PEER_ID, all zero for the asking peer. -/
def execLedgerQuery (n txn : Nat) (peer : List Byte) (txns : List Nat) (s : State) : Out :=
  .next (request n txn 8 0 (.readMulti []) (decide (1 ≤ txns.length) && decide (txns.length ≤ 56) && peer.length == 32) false false (queryGo peer txns) s)

/-- REPLAY_CACHE_EXPIRY: 10 s after its outcome a TXN leaves the cache, and FLOOR rises. -/
def execReplayCacheExpiry (place txn : Nat) (s : State) : Out :=
  match cachedOf s place txn with
  | some c =>
    if c.answer.isNone then .next s
    else .next (updPeer place (fun p => { p with cache := p.cache.filter (fun d => d.txn != txn), floor := max p.floor txn }) (tickTo c.due s))
  | none => .next s

end Sys2Proof.Machine
end

