-- ==== Sys2Proof/Machine/Block.lean ====
section
/-! DEFINITION. Block transfers (12 R367 to R370). -/
namespace Sys2Proof.Machine

open Sys2Proof

/-- The frames OUTPUT_RING holds. -/
def outHeld (s : State) (f : Nat) : Bool :=
  s.eng.output.any (fun o => o.1 == f) || (s.eng.any && decide (f ≤ s.eng.frame) && decide (s.eng.frame < f + 256))

/-- Whether a SELECT key names what is held (R367). -/
def selectStatus (s : State) (key sel : Nat) : Nat :=
  let idx := key / 256
  if idx = 0x1240 then (if (look s.eng.ledgers sel).isSome then 0 else 0x00040012)
  else if idx = 0x4020 then (if outHeld s sel then 0 else 0x00040012)
  else if idx = 0x1260 then (if s.ev.history.any (fun r => r.seq == sel) then 0 else 0x00040012)
  else if sel ≠ 0 then 0x00040001
  else 0

/-- What a READ_START adds for a quote and for an export (16 R470, 05 R173). -/
def startHome (s : State) (n key : Nat) : Nat :=
  if key = Blob.quote then
    (match odaSession s n with
     | some x => (match x.quote with | some q => if q.signed then 0 else 0x00071603 | none => 0x00071602)
     | none => 0x00071602)
  else if key = Blob.ringExport then exportStatus s
  else 0

/-- The value a READ_START snapshots: a frame's ledger or records, the events from a SEQ, or the whole object. -/
def blockValue (s : State) (n place key sel : Nat) : List Byte :=
  let idx := key / 256
  if idx = 0x1240 then (match look s.eng.ledgers sel with | some l => l.bytes | none => [])
  else if idx = 0x4020 then ((s.eng.output.filter (fun o => o.1 == sel)).map (fun o => o.2.2.bytes)).flatten
  else if idx = 0x1260 then ((s.ev.history.filter (fun r => decide (sel ≤ r.seq))).map EvRec.bytes).flatten
  else readBytes s n place key

def isDomain (s : State) (key : Nat) : Bool := match findEntry s key with | some e => e.ty == .domain | none => false

/-- READ_START: the checks of R351, then the SELECT key, then the room. -/
def readStartGo (key ty sel : Nat) (p : Pending) (s : State) : State :=
  if readCheck s p.auth key ty / 65536 = 2 then finish p (readCheck s p.auth key ty) s
  else if !(isDomain s key) then finish p 0x00030001 s
  else if readCheck s p.auth key ty ≠ 0 then finish p (readCheck s p.auth key ty) s
  else if selectStatus s key sel ≠ 0 then finish p (selectStatus s key sel) s
  else if startHome s p.sess key ≠ 0 then finish p (startHome s p.sess key) s
  else if isFwKey s key then passFront { p with steps := [(key, ty, .num 0)] } s
  else startRead key (blockValue s p.sess p.place key sel) p s

/-- BLOCK_READ_START. -/
def execBlockReadStart (n txn key ty sel : Nat) (s : State) : Out :=
  .next (request n txn 7 0 (.block 1 0 key sel 0 []) true false false (readStartGo key ty sel) s)

def xferOf (s : State) (n blk : Nat) : Option Xfer :=
  match odaSession s n with
  | some x => look x.blocks blk
  | none => none

/-- A message of a block keeps it open for another 60 s. -/
def touchBlock (n blk : Nat) (s : State) : State :=
  updSession n (fun x => match look x.blocks blk with
    | some y => { x with blocks := put x.blocks blk { y with due := s.clk.cycles + sCycles 60 } }
    | none => x) s

def endBlock (n blk : Nat) (s : State) : State :=
  setEng (fun g => { g with ring := { g.ring with exports := g.ring.exports.filter (· != blk) } })
    (updSession n (fun x => { x with blocks := del x.blocks blk }) s)

/-- The object of a block, for the head of a response (Table 12.12). -/
def ReqBody.about (key : Nat) : ReqBody → ReqBody
  | .block sub blk _ offset total data => .block sub blk key offset total data
  | b => b

/-- A segment of a read leaves in class 1 (13 Table 13.2). -/
def readSegGo (blk offset len : Nat) (p : Pending) (s : State) : State :=
  match xferOf s p.sess blk with
  | none => finish p 0x00080005 s
  | some x =>
    if x.write then finish p 0x00080005 s
    else if s.eng.ring.exports.contains blk then finish p 0x00070501 (endBlock p.sess blk s)
    else if len = 0 ∨ 1376 < len ∨ x.total < offset + len then finish p 0x00080006 (touchBlock p.sess blk s)
    else
      let bs := (x.snap.drop offset).take len
      let a := Pending.answer { p with body := p.body.about x.key, items := [(blk, offset, some (.bytes bs))] } 0 (mainNow s)
      respondAs 1 p.sess a (touchBlock p.sess blk s)

/-- BLOCK_READ_SEG. -/
def execBlockReadSeg (n txn blk offset len : Nat) (s : State) : Out :=
  .next (request n txn 7 0 (.block 2 blk 0 offset len []) true false false (readSegGo blk offset len) s)

/-- A length within the range column. -/
def lenOk (r : Range) (n : Nat) : Bool :=
  match r with
  | .len lo hi => decide (lo ≤ n) && decide (n ≤ hi)
  | .zeroOrLen lo hi => n == 0 || (decide (lo ≤ n) && decide (n ≤ hi))
  | .lens vs => vs.contains n
  | _ => true

/-- The checks of R351 through part state, with the length range (R368). -/
def writeStartStatus (s : State) (au : Auth) (key ty total : Nat) : Nat :=
  match effEntry s key with
  | none => existCode s key
  | some e =>
    if (ty ≠ 0 ∧ ty ≠ e.ty.code) ∨ e.ty ≠ .domain then 0x00030001
    else if !(lenOk e.range total) then 0x00030002
    else if bitSet e.accF 3 then 0x00010003
    else if !(bitSet e.accF 1 || bitSet e.accH 1 || bitSet e.accS 1) then 0x00010001
    else if !(bitSet (e.acc au) 1) then 0x00060001
    else stateStatus s au key e

def writeStartGo (key ty total : Nat) (p : Pending) (s : State) : State :=
  if writeStartStatus s p.auth key ty total ≠ 0 then finish p (writeStartStatus s p.auth key ty total) s
  else if !(blockFits s p.sess total) then finish p 0x00070011 s
  else
    let r := openBlock p.sess key true total [] s
    finish { p with items := [(r.1, total, none)] } 0 r.2

/-- BLOCK_WRITE_START: recorded in the replay cache only (R376). -/
def execBlockWriteStart (n txn key ty total : Nat) (s : State) : Out :=
  .next (request n txn 7 1 (.block 3 0 key ty total []) true true false (writeStartGo key ty total) s)

def stage (offset : Nat) : List Byte → Map Byte → Map Byte
  | [], m => m
  | b :: t, m => stage (offset + 1) t (put m offset b)

def writeSegGo (blk offset : Nat) (data : List Byte) (p : Pending) (s : State) : State :=
  match xferOf s p.sess blk with
  | none => finish p 0x00080005 s
  | some x =>
    if !x.write then finish p 0x00080005 s
    else if 1376 < data.length ∨ x.total < offset + data.length then finish p 0x00080006 (touchBlock p.sess blk s)
    else
      finish { p with body := p.body.about x.key } 0
        (touchBlock p.sess blk (updSession p.sess (fun y => { y with blocks := put y.blocks blk { x with staged := stage offset data x.staged } }) s))

/-- BLOCK_WRITE_SEG. -/
def execBlockWriteSeg (n txn blk offset : Nat) (data : List Byte) (s : State) : Out :=
  .next (request n txn 7 1 (.block 4 blk 0 offset data.length data) true true false (writeSegGo blk offset data) s)

/-- WRITE_END is the one step of the write; the block ends with it. -/
def writeEndGo (blk crc : Nat) (p : Pending) (s : State) : State :=
  match xferOf s p.sess blk with
  | none => finish p 0x00080005 s
  | some x =>
    if !x.write then finish p 0x00080005 s
    else
      let bs := x.staged.map (·.2)
      let s1 := endBlock p.sess blk s
      if bs.length ≠ x.total ∨ crc64 bs ≠ crc then finish p 0x00080007 s1
      else runSteps { p with body := p.body.about x.key, items := [(blk, x.total, none)] } [(x.key, 0, .bytes bs)] s1

/-- BLOCK_WRITE_END. -/
def execBlockWriteEnd (n txn blk crc : Nat) (s : State) : Out :=
  .next (request n txn 7 1 (.block 5 blk 0 crc 0 []) true true true (writeEndGo blk crc) s)

def closeGo (blk : Nat) (p : Pending) (s : State) : State :=
  match xferOf s p.sess blk with
  | none => finish p 0x00080005 s
  | some x => finish { p with body := p.body.about x.key } 0 (endBlock p.sess blk s)

/-- BLOCK_CLOSE. -/
def execBlockClose (n txn blk : Nat) (s : State) : Out :=
  .next (request n txn 7 0 (.block 6 blk 0 0 0 []) true false false (closeGo blk) s)

/-- BLOCK_TIMEOUT: 60 s without a message of the block. -/
def execBlockTimeout (n blk : Nat) (s : State) : Out :=
  match xferOf s n blk with
  | some x => .next (endBlock n blk (tickTo x.due s))
  | none => .next s

end Sys2Proof.Machine
end

