-- ==== Sys2Proof/Machine/Dispatch.lean ====
section
/-! DEFINITION. Dispatch: one arm per command, each a direct call of its meaning. -/
namespace Sys2Proof.Machine

open Sys2Proof

def exec (i : Instr) (s : State) : Host.Outcome State Fault Refusal :=
  match i with
  | .ryeRelease seated enabled thermtrip => Sys2Proof.Machine.execRyeRelease seated enabled thermtrip s
  | .holdupFail => Sys2Proof.Machine.execHoldupFail s
  | .holdupEnd torn => Sys2Proof.Machine.execHoldupEnd torn s
  | .vinLost v => Sys2Proof.Machine.execVinLost v s
  | .coarseTimekeeping => Sys2Proof.Machine.execCoarseTimekeeping s
  | .vinStable v => Sys2Proof.Machine.execVinStable v s
  | .vinLow v since => Sys2Proof.Machine.execVinLow v since s
  | .vinLowSelfDown => Sys2Proof.Machine.execVinLowSelfDown s
  | .vinReturn v => Sys2Proof.Machine.execVinReturn v s
  | .b0UndervoltageOff v => Sys2Proof.Machine.execB0UndervoltageOff v s
  | .inputLossCommit => Sys2Proof.Machine.execInputLossCommit s
  | .inputLossCommitEnd written => Sys2Proof.Machine.execInputLossCommitEnd written s
  | .vinOv v since => Sys2Proof.Machine.execVinOv v since s
  | .strawValueReceived k => Sys2Proof.Machine.execStrawValueReceived k s
  | .strawDeadlineExpired k => Sys2Proof.Machine.execStrawDeadlineExpired k s
  | .curveApply => Sys2Proof.Machine.execCurveApply s
  | .pufAttemptDone ok => Sys2Proof.Machine.execPufAttemptDone ok s
  | .keyDerivationDone => Sys2Proof.Machine.execKeyDerivationDone s
  | .firmwareStreamDone read => Sys2Proof.Machine.execFirmwareStreamDone read s
  | .lpddr4xTrainingDone ok => Sys2Proof.Machine.execLpddr4xTrainingDone ok s
  | .partReady => Sys2Proof.Machine.execPartReady s
  | .tileSelfTestDone t pass => Sys2Proof.Machine.execTileSelfTestDone t pass s
  | .ptpMeasurement p x freq => Sys2Proof.Machine.execPtpMeasurement p x freq s
  | .syncInEdge count freq => Sys2Proof.Machine.execSyncInEdge count freq s
  | .syncOutEdge => Sys2Proof.Machine.execSyncOutEdge s
  | .measurementTimeout => Sys2Proof.Machine.execMeasurementTimeout s
  | .timeHoldoverExpired => Sys2Proof.Machine.execTimeHoldoverExpired s
  | .timeSourceChanged au v => Sys2Proof.Machine.execTimeSourceChanged au v s
  | .timeSet au v => Sys2Proof.Machine.execTimeSet au v s
  | .launchAt au v => Sys2Proof.Machine.execLaunchAt au v s
  | .frameStopAt au v => Sys2Proof.Machine.execFrameStopAt au v s
  | .launch => Sys2Proof.Machine.execLaunch s
  | .frameCutoff => Sys2Proof.Machine.execFrameCutoff s
  | .frameStart => Sys2Proof.Machine.execFrameStart s
  | .p0Emit => Sys2Proof.Machine.execP0Emit s
  | .mainEmit => Sys2Proof.Machine.execMainEmit s
  | .checkpointCommit => Sys2Proof.Machine.execCheckpointCommit s
  | .sampleArrival source arrival kept x => Sys2Proof.Machine.execSampleArrival source arrival kept x s
  | .eventNumbered => Sys2Proof.Machine.execEventNumbered s
  | .engineRejoin => Sys2Proof.Machine.execEngineRejoin s
  | .checkpointRestoreDone lostNew lostOld badNew badOld => Sys2Proof.Machine.execCheckpointRestoreDone lostNew lostOld badNew badOld s
  | .correctedError t => Sys2Proof.Machine.execCorrectedError t s
  | .uncorrectableWord t offset beat bundle => Sys2Proof.Machine.execUncorrectableWord t offset beat bundle s
  | .tileRetiredSet au t => Sys2Proof.Machine.execTileRetiredSet au t s
  | .tileRetiredClear au t => Sys2Proof.Machine.execTileRetiredClear au t s
  | .stagingTimeout t => Sys2Proof.Machine.execStagingTimeout t s
  | .sessionOpenRequest au n d => Sys2Proof.Machine.execSessionOpenRequest au n d s
  | .sessionCloseRequest au n d => Sys2Proof.Machine.execSessionCloseRequest au n d s
  | .modelLoadDone ok => Sys2Proof.Machine.execModelLoadDone ok s
  | .codebookWrite au c bytes => Sys2Proof.Machine.execCodebookWrite au c bytes s
  | .modelImageWrite au m bytes => Sys2Proof.Machine.execModelImageWrite au m bytes s
  | .modelVerified m => Sys2Proof.Machine.execModelVerified m s
  | .ringFreeze au => Sys2Proof.Machine.execRingFreeze au s
  | .ringResume au => Sys2Proof.Machine.execRingResume au s
  | .postTriggerExpiry => Sys2Proof.Machine.execPostTriggerExpiry s
  | .freezeMaxExpiry => Sys2Proof.Machine.execFreezeMaxExpiry s
  | .longCaptureWrite au bytes => Sys2Proof.Machine.execLongCaptureWrite au bytes s
  | .replayStart au => Sys2Proof.Machine.execReplayStart au s
  | .replayAbort au => Sys2Proof.Machine.execReplayAbort au s
  | .replayFrame => Sys2Proof.Machine.execReplayFrame s
  | .schedImageWrite au k bytes => Sys2Proof.Machine.execSchedImageWrite au k bytes s
  | .schedImageChecked k => Sys2Proof.Machine.execSchedImageChecked k s
  | .imageArm au k => Sys2Proof.Machine.execImageArm au k s
  | .imageDisarm au => Sys2Proof.Machine.execImageDisarm au s
  | .readyActivationDone => Sys2Proof.Machine.execReadyActivationDone s
  | .hotActivation => Sys2Proof.Machine.execHotActivation s
  | .coldActivationStop => Sys2Proof.Machine.execColdActivationStop s
  | .coldActivationRejoin => Sys2Proof.Machine.execColdActivationRejoin s
  | .planHoldStart => Sys2Proof.Machine.execPlanHoldStart s
  | .planSwitch => Sys2Proof.Machine.execPlanSwitch s
  | .bridgePortFailure d => Sys2Proof.Machine.execBridgePortFailure d s
  | .domainRetiredSet au d => Sys2Proof.Machine.execDomainRetiredSet au d s
  | .domainRetiredClear au d => Sys2Proof.Machine.execDomainRetiredClear au d s
  | .aniseFrameJobs => Sys2Proof.Machine.execAniseFrameJobs s
  | .antAdaptWindow => Sys2Proof.Machine.execAntAdaptWindow s
  | .aniseTick => Sys2Proof.Machine.execAniseTick s
  | .aniseUe job => Sys2Proof.Machine.execAniseUe job s
  | .aniseProgramWrite au bytes => Sys2Proof.Machine.execAniseProgramWrite au bytes s
  | .antWordDelivered a ns => Sys2Proof.Machine.execAntWordDelivered a ns s
  | .antSlot => Sys2Proof.Machine.execAntSlot s
  | .concordSummarySend => Sys2Proof.Machine.execConcordSummarySend s
  | .concordSummaryReceived x count => Sys2Proof.Machine.execConcordSummaryReceived x count s
  | .branchInrushStart b => Sys2Proof.Machine.execBranchInrushStart b s
  | .inrushComplete b => Sys2Proof.Machine.execInrushComplete b s
  | .branchOn b vgs => Sys2Proof.Machine.execBranchOn b vgs s
  | .tGateExpiry b => Sys2Proof.Machine.execTGateExpiry b s
  | .inrushTimerExpiry b => Sys2Proof.Machine.execInrushTimerExpiry b s
  | .fastTrip b uv => Sys2Proof.Machine.execFastTrip b uv s
  | .tripFractionUpdate codes => Sys2Proof.Machine.execTripFractionUpdate codes s
  | .fosterUpdate vin vout sense => Sys2Proof.Machine.execFosterUpdate vin vout sense s
  | .tfetTrip b => Sys2Proof.Machine.execTfetTrip b s
  | .tfetSensorFault b reading since => Sys2Proof.Machine.execTfetSensorFault b reading since s
  | .tfetSensorOk b reading since => Sys2Proof.Machine.execTfetSensorOk b reading since s
  | .enLow b since => Sys2Proof.Machine.execEnLow b since s
  | .enRise b at_ => Sys2Proof.Machine.execEnRise b at_ s
  | .presenceEdge a seated since => Sys2Proof.Machine.execPresenceEdge a seated since s
  | .tReinsExpiry a => Sys2Proof.Machine.execTReinsExpiry a s
  | .tripNotCleared b codes => Sys2Proof.Machine.execTripNotCleared b codes s
  | .outputWhileOff b vout => Sys2Proof.Machine.execOutputWhileOff b vout s
  | .vdsHigh b vds codes => Sys2Proof.Machine.execVdsHigh b vds codes s
  | .vdsHighClear b vds codes => Sys2Proof.Machine.execVdsHighClear b vds codes s
  | .branchDisable au b => Sys2Proof.Machine.execBranchDisable au b s
  | .branchEnable au b => Sys2Proof.Machine.execBranchEnable au b s
  | .branchFetClear au b => Sys2Proof.Machine.execBranchFetClear au b s
  | .dw440Import au bytes => Sys2Proof.Machine.execDw440Import au bytes s
  | .branchStartOffset b => Sys2Proof.Machine.execBranchStartOffset b s
  | .sorghumOt t since => Sys2Proof.Machine.execSorghumOt t since s
  | .sorghumOtEnd t since => Sys2Proof.Machine.execSorghumOtEnd t since s
  | .seqAdmission q => Sys2Proof.Machine.execSeqAdmission q s
  | .stepEnable q => Sys2Proof.Machine.execStepEnable q s
  | .stepDisable q => Sys2Proof.Machine.execStepDisable q s
  | .stepWaitPg q pg => Sys2Proof.Machine.execStepWaitPg q pg s
  | .stepWaitTime q => Sys2Proof.Machine.execStepWaitTime q s
  | .stepWaitLevel q v => Sys2Proof.Machine.execStepWaitLevel q v s
  | .stepAssert q => Sys2Proof.Machine.execStepAssert q s
  | .stepDeassert q => Sys2Proof.Machine.execStepDeassert q s
  | .stepEnd q => Sys2Proof.Machine.execStepEnd q s
  | .waitConditionMet q v pg => Sys2Proof.Machine.execWaitConditionMet q v pg s
  | .waitTimeout q => Sys2Proof.Machine.execWaitTimeout q s
  | .waitTimeExpiry q => Sys2Proof.Machine.execWaitTimeExpiry q s
  | .pgWindowClose q running trip => Sys2Proof.Machine.execPgWindowClose q running trip s
  | .pgTimeout q => Sys2Proof.Machine.execPgTimeout q s
  | .levelDeglitchExpiry q r l v since => Sys2Proof.Machine.execLevelDeglitchExpiry q r l v since s
  | .levelConditionEnd q r l v => Sys2Proof.Machine.execLevelConditionEnd q r l v s
  | .thermtrip a since => Sys2Proof.Machine.execThermtrip a since s
  | .offWaitExpiry q => Sys2Proof.Machine.execOffWaitExpiry q s
  | .sSelfRetry => Sys2Proof.Machine.execSSelfRetry s
  | .seqListWrite au q which bytes => Sys2Proof.Machine.execSeqListWrite au q which bytes s
  | .tempConversion main sorghum => Sys2Proof.Machine.execTempConversion main sorghum s
  | .thermalEval => Sys2Proof.Machine.execThermalEval s
  | .engineCapLevelWrite au v => Sys2Proof.Machine.execEngineCapLevelWrite au v s
  | .thermalShutdown t kept since => Sys2Proof.Machine.execThermalShutdown t kept since s
  | .thermalRestart since => Sys2Proof.Machine.execThermalRestart since s
  | .accelThermalRelease a high t since => Sys2Proof.Machine.execAccelThermalRelease a high t since s
  | .accelCapStep a t => Sys2Proof.Machine.execAccelCapStep a t s
  | .accelLimitWrite a ack => Sys2Proof.Machine.execAccelLimitWrite a ack s
  | .accelLimitRetry a ack => Sys2Proof.Machine.execAccelLimitRetry a ack s
  | .fanFault k hz since => Sys2Proof.Machine.execFanFault k hz since s
  | .coolantFlowLow k hz since => Sys2Proof.Machine.execCoolantFlowLow k hz since s
  | .tempSensorFault c reading t since => Sys2Proof.Machine.execTempSensorFault c reading t since s
  | .leakResult c ohm => Sys2Proof.Machine.execLeakResult c ohm s
  | .leakStateChange c => Sys2Proof.Machine.execLeakStateChange c s
  | .leakZoneClearable z => Sys2Proof.Machine.execLeakZoneClearable z s
  | .leakClear au z => Sys2Proof.Machine.execLeakClear au z s
  | .accelRequestWrite au a v => Sys2Proof.Machine.execAccelRequestWrite au a v s
  | .quarRelease au a => Sys2Proof.Machine.execQuarRelease au a s
  | .serviceStrapDeasserted since => Sys2Proof.Machine.execServiceStrapDeasserted since s
  | .serviceStrapAsserted since => Sys2Proof.Machine.execServiceStrapAsserted since s
  | .wardenSafe => Sys2Proof.Machine.execWardenSafe s
  | .wardenRelease => Sys2Proof.Machine.execWardenRelease s
  | .partRestart au kept => Sys2Proof.Machine.execPartRestart au kept s
  | .keepaliveLoss kept => Sys2Proof.Machine.execKeepaliveLoss kept s
  | .mainDieResetEnd => Sys2Proof.Machine.execMainDieResetEnd s
  | .fwRestart au => Sys2Proof.Machine.execFwRestart au s
  | .watchdogExpiry c kept => Sys2Proof.Machine.execWatchdogExpiry c kept s
  | .wdogWarn c => Sys2Proof.Machine.execWdogWarn c s
  | .wdogKick c v => Sys2Proof.Machine.execWdogKick c v s
  | .firmwareRestarted => Sys2Proof.Machine.execFirmwareRestarted s
  | .l2Invalidate c v => Sys2Proof.Machine.execL2Invalidate c v s
  | .l2InvalidateDone c => Sys2Proof.Machine.execL2InvalidateDone c s
  | .odaRead n txn key ty describe => Sys2Proof.Machine.execOdaRead n txn key ty describe s
  | .odaWrite n txn key ty v => Sys2Proof.Machine.execOdaWrite n txn key ty v s
  | .readMulti n txn items => Sys2Proof.Machine.execReadMulti n txn items s
  | .writeMulti n txn steps => Sys2Proof.Machine.execWriteMulti n txn steps s
  | .fwCompletion tag result v => Sys2Proof.Machine.execFwCompletion tag result v s
  | .norCommitDone ok => Sys2Proof.Machine.execNorCommitDone ok s
  | .subscribe n txn sub kind period items => Sys2Proof.Machine.execSubscribe n txn sub kind period items s
  | .periodicNotify n sub vals => Sys2Proof.Machine.execPeriodicNotify n sub vals s
  | .eventNotify n sub => Sys2Proof.Machine.execEventNotify n sub s
  | .blockReadStart n txn key ty sel => Sys2Proof.Machine.execBlockReadStart n txn key ty sel s
  | .blockReadSeg n txn blk offset len => Sys2Proof.Machine.execBlockReadSeg n txn blk offset len s
  | .blockWriteStart n txn key ty total => Sys2Proof.Machine.execBlockWriteStart n txn key ty total s
  | .blockWriteSeg n txn blk offset data => Sys2Proof.Machine.execBlockWriteSeg n txn blk offset data s
  | .blockWriteEnd n txn blk crc => Sys2Proof.Machine.execBlockWriteEnd n txn blk crc s
  | .blockClose n txn blk => Sys2Proof.Machine.execBlockClose n txn blk s
  | .blockTimeout n blk => Sys2Proof.Machine.execBlockTimeout n blk s
  | .ledgerQuery n txn peer txns => Sys2Proof.Machine.execLedgerQuery n txn peer txns s
  | .replayCacheExpiry place txn => Sys2Proof.Machine.execReplayCacheExpiry place txn s
  | .setupInit p id frag frags data cs r => Sys2Proof.Machine.execSetupInit p id frag frags data cs r s
  | .setupFinish n p id sigOk => Sys2Proof.Machine.execSetupFinish n p id sigOk s
  | .sessionClose n => Sys2Proof.Machine.execSessionClose n s
  | .setupTimeout n => Sys2Proof.Machine.execSetupTimeout n s
  | .sessionIdleTimeout n => Sys2Proof.Machine.execSessionIdleTimeout n s
  | .hostLinkUp p fast => Sys2Proof.Machine.execHostLinkUp p fast s
  | .hostLinkDown p since => Sys2Proof.Machine.execHostLinkDown p since s
  | .autonegRestart p => Sys2Proof.Machine.execAutonegRestart p s
  | .portMode au p v => Sys2Proof.Machine.execPortMode au p v s
  | .hostFrameReceived p f => Sys2Proof.Machine.execHostFrameReceived p f s
  | .networkControlRequest p kind target => Sys2Proof.Machine.execNetworkControlRequest p kind target s
  | .telemetryFrame p etherType payload bad oldEpoch delay => Sys2Proof.Machine.execTelemetryFrame p etherType payload bad oldEpoch delay s
  | .sbPtpSync => Sys2Proof.Machine.execSbPtpSync s
  | .sbPdelayReq p => Sys2Proof.Machine.execSbPdelayReq p s
  | .macsecKeyReq n p => Sys2Proof.Machine.execMacsecKeyReq n p s
  | .macsecTxSwitch p => Sys2Proof.Machine.execMacsecTxSwitch p s
  | .macsecRxOldEnd p => Sys2Proof.Machine.execMacsecRxOldEnd p s
  | .dmaGo c ctrl srcList dstList srcCount dstCount compl src dst => Sys2Proof.Machine.execDmaGo c ctrl srcList dstList srcCount dstCount compl src dst s
  | .dmaAck c => Sys2Proof.Machine.execDmaAck c s
  | .dmaDisable c => Sys2Proof.Machine.execDmaDisable c s
  | .dmaRunStart mb => Sys2Proof.Machine.execDmaRunStart mb s
  | .dmaRunComplete mb => Sys2Proof.Machine.execDmaRunComplete mb s
  | .dmaSignalRelease c => Sys2Proof.Machine.execDmaSignalRelease c s
  | .dmaBusError mb => Sys2Proof.Machine.execDmaBusError mb s
  | .syncSet cell v => Sys2Proof.Machine.execSyncSet cell v s
  | .syncSignal cell v => Sys2Proof.Machine.execSyncSignal cell v s
  | .waitSlotArm k cell irq event core threshold => Sys2Proof.Machine.execWaitSlotArm k cell irq event core threshold s
  | .waitSlotDisarm k => Sys2Proof.Machine.execWaitSlotDisarm k s
  | .memCorrectedError => Sys2Proof.Machine.execMemCorrectedError s
  | .memUe addr => Sys2Proof.Machine.execMemUe addr s
  | .patrolScrubPass => Sys2Proof.Machine.execPatrolScrubPass s
  | .lpddr4xRefresh hot => Sys2Proof.Machine.execLpddr4xRefresh hot s
  | .huskRegionWrite c k r => Sys2Proof.Machine.execHuskRegionWrite c k r s
  | .accessOverrideWrite c k o => Sys2Proof.Machine.execAccessOverrideWrite c k o s
  | .updateImageWriteEnd au image => Sys2Proof.Machine.execUpdateImageWriteEnd au image s
  | .updateProgramDone ok => Sys2Proof.Machine.execUpdateProgramDone ok s
  | .updateVerifyDone => Sys2Proof.Machine.execUpdateVerifyDone s
  | .shadowStreamDone => Sys2Proof.Machine.execShadowStreamDone s
  | .shadowHello c => Sys2Proof.Machine.execShadowHello c s
  | .shadowBootTimeout => Sys2Proof.Machine.execShadowBootTimeout s
  | .shadowReady c => Sys2Proof.Machine.execShadowReady c s
  | .takeoverHoldStart => Sys2Proof.Machine.execTakeoverHoldStart s
  | .takeoverFinal c => Sys2Proof.Machine.execTakeoverFinal c s
  | .takeoverAccept c => Sys2Proof.Machine.execTakeoverAccept c s
  | .takeover => Sys2Proof.Machine.execTakeover s
  | .healthPass c => Sys2Proof.Machine.execHealthPass c s
  | .healthFail c kept => Sys2Proof.Machine.execHealthFail c kept s
  | .updateHealthDeadline kept => Sys2Proof.Machine.execUpdateHealthDeadline kept s
  | .updateAbort au kept => Sys2Proof.Machine.execUpdateAbort au kept s
  | .updateConfirm au => Sys2Proof.Machine.execUpdateConfirm au s
  | .updateCommitDone => Sys2Proof.Machine.execUpdateCommitDone s
  | .fwCodeRaise c detail => Sys2Proof.Machine.execFwCodeRaise c detail s
  | .ownerKeyAdd au bytes sigOk => Sys2Proof.Machine.execOwnerKeyAdd au bytes sigOk s
  | .ownerKeyRemove au bytes sigOk => Sys2Proof.Machine.execOwnerKeyRemove au bytes sigOk s
  | .ownerKeySetRevoked au bytes sigOk => Sys2Proof.Machine.execOwnerKeySetRevoked au bytes sigOk s
  | .ownerReset au => Sys2Proof.Machine.execOwnerReset au s
  | .rollbackRaise au bytes => Sys2Proof.Machine.execRollbackRaise au bytes s
  | .quoteReq n nonce => Sys2Proof.Machine.execQuoteReq n nonce s
  | .quoteSigned n sig => Sys2Proof.Machine.execQuoteSigned n sig s
  | .recorderFullCommit => Sys2Proof.Machine.execRecorderFullCommit s
  | .recorderCommitDone ok => Sys2Proof.Machine.execRecorderCommitDone ok s
  | .immediateAppend => Sys2Proof.Machine.execImmediateAppend s
  | .tokenRefill code => Sys2Proof.Machine.execTokenRefill code s
  | .recorderSuppressed => Sys2Proof.Machine.execRecorderSuppressed s
  | .recorderClear au => Sys2Proof.Machine.execRecorderClear au s
  | .operatingSecond => Sys2Proof.Machine.execOperatingSecond s
  | .fruRead pos image => Sys2Proof.Machine.execFruRead pos image s
  | .peSerialWrite au b bytes => Sys2Proof.Machine.execPeSerialWrite au b bytes s
  | .peakReset au => Sys2Proof.Machine.execPeakReset au s
  | .powerSample pkg => Sys2Proof.Machine.execPowerSample pkg s
  | .powerWindowEnd => Sys2Proof.Machine.execPowerWindowEnd s
  | .avgBlockEnd k => Sys2Proof.Machine.execAvgBlockEnd k s
  | .converterStart v => Sys2Proof.Machine.execConverterStart v s
  | .vinReturnInHoldup v => Sys2Proof.Machine.execVinReturnInHoldup v s
  | .sbLinkDown p => Sys2Proof.Machine.execSbLinkDown p s
  | .sbLinkUp p => Sys2Proof.Machine.execSbLinkUp p s
  | .serviceLinkUp => Sys2Proof.Machine.execServiceLinkUp s
  | .gateEntryStart p => Sys2Proof.Machine.execGateEntryStart p s

end Sys2Proof.Machine
end

