-- ==== Sys2Proof/WellFormed.lean ====
section
/-! DEFINITION. Which commands are well formed: every operand within the width or the count that the spec gives its field
(00 R13, 12 R343, 14 Table 14.8, 10 R300). The meanings are total on the others too. -/
namespace Sys2Proof

open Sys2Proof.Machine

/-- A value that a field of w bits can hold. -/
def isU (w v : Nat) : Bool := decide (v < 2 ^ w)

/-- The ten conversions of a microsecond: 14-bit codes (08 R240). -/
def adcMicro (codes : List Int) : Bool := codes.length == 10 && codes.all (fun c => decide (-8192 ≤ c) && decide (c ≤ 8191))

def wellFormed (i : Instr) : Bool :=
  match i with
  | .ryeRelease seated enabled thermtrip => isU 8 seated && isU 12 enabled && isU 8 thermtrip
  | .holdupFail => true
  | .holdupEnd _ => true
  | .vinLost _ => true
  | .coarseTimekeeping => true
  | .vinStable _ => true
  | .vinLow _ _ => true
  | .vinLowSelfDown => true
  | .vinReturn _ => true
  | .b0UndervoltageOff _ => true
  | .inputLossCommit => true
  | .inputLossCommitEnd _ => true
  | .vinOv _ _ => true
  | .strawValueReceived _ => true
  | .strawDeadlineExpired _ => true
  | .curveApply => true
  | .pufAttemptDone _ => true
  | .keyDerivationDone => true
  | .firmwareStreamDone _ => true
  | .lpddr4xTrainingDone _ => true
  | .partReady => true
  | .tileSelfTestDone _ _ => true
  | .ptpMeasurement _ x _ => isU 8 x.domain && isU 64 x.origin
  | .syncInEdge count _ => isU 64 count
  | .syncOutEdge => true
  | .measurementTimeout => true
  | .timeHoldoverExpired => true
  | .timeSourceChanged _ v => isU 64 v
  | .timeSet _ v => isU 64 v
  | .launchAt _ v => isU 64 v
  | .frameStopAt _ v => isU 64 v
  | .launch => true
  | .frameCutoff => true
  | .frameStart => true
  | .p0Emit => true
  | .mainEmit => true
  | .checkpointCommit => true
  | .sampleArrival source arrival _ _ => isU 32 source && isU 64 arrival
  | .eventNumbered => true
  | .engineRejoin => true
  | .checkpointRestoreDone _ _ badNew badOld => badNew.all (fun x => decide (x < 10240)) && badOld.all (fun x => decide (x < 10240))
  | .correctedError _ => true
  | .uncorrectableWord _ offset _ _ => isU 64 offset
  | .tileRetiredSet _ _ => true
  | .tileRetiredClear _ _ => true
  | .stagingTimeout _ => true
  | .sessionOpenRequest _ _ _ => true
  | .sessionCloseRequest _ _ _ => true
  | .modelLoadDone _ => true
  | .codebookWrite _ _ _ => true
  | .modelImageWrite _ _ _ => true
  | .modelVerified _ => true
  | .ringFreeze _ => true
  | .ringResume _ => true
  | .postTriggerExpiry => true
  | .freezeMaxExpiry => true
  | .longCaptureWrite _ _ => true
  | .replayStart _ => true
  | .replayAbort _ => true
  | .replayFrame => true
  | .schedImageWrite _ _ _ => true
  | .schedImageChecked _ => true
  | .imageArm _ _ => true
  | .imageDisarm _ => true
  | .readyActivationDone => true
  | .hotActivation => true
  | .coldActivationStop => true
  | .coldActivationRejoin => true
  | .planHoldStart => true
  | .planSwitch => true
  | .bridgePortFailure _ => true
  | .domainRetiredSet _ _ => true
  | .domainRetiredClear _ _ => true
  | .aniseFrameJobs => true
  | .antAdaptWindow => true
  | .aniseTick => true
  | .aniseUe _ => true
  | .aniseProgramWrite _ _ => true
  | .antWordDelivered _ _ => true
  | .antSlot => true
  | .concordSummarySend => true
  | .concordSummaryReceived _ count => isU 64 count
  | .branchInrushStart _ => true
  | .inrushComplete _ => true
  | .branchOn _ vgs => decide (vgs.length ≤ 8)
  | .tGateExpiry _ => true
  | .inrushTimerExpiry _ => true
  | .fastTrip _ _ => true
  | .tripFractionUpdate codes => codes.length == 12 && codes.all (fun c => c == [] || adcMicro c)
  | .fosterUpdate vin vout sense => vin.length == 12 && vout.length == 12 && sense.length == 12
  | .tfetTrip _ => true
  | .tfetSensorFault _ _ _ => true
  | .tfetSensorOk _ _ _ => true
  | .enLow _ _ => true
  | .enRise _ _ => true
  | .presenceEdge _ _ _ => true
  | .tReinsExpiry _ => true
  | .tripNotCleared _ codes => codes == [] || adcMicro codes
  | .outputWhileOff _ _ => true
  | .vdsHigh _ _ codes => codes == [] || adcMicro codes
  | .vdsHighClear _ _ codes => codes == [] || adcMicro codes
  | .branchDisable _ _ => true
  | .branchEnable _ _ => true
  | .branchFetClear _ _ => true
  | .dw440Import _ _ => true
  | .branchStartOffset _ => true
  | .sorghumOt _ _ => true
  | .sorghumOtEnd _ _ => true
  | .seqAdmission _ => true
  | .stepEnable _ => true
  | .stepDisable _ => true
  | .stepWaitPg _ _ => true
  | .stepWaitTime _ => true
  | .stepWaitLevel _ _ => true
  | .stepAssert _ => true
  | .stepDeassert _ => true
  | .stepEnd _ => true
  | .waitConditionMet _ _ _ => true
  | .waitTimeout _ => true
  | .waitTimeExpiry _ => true
  | .pgWindowClose _ _ _ => true
  | .pgTimeout _ => true
  | .levelDeglitchExpiry _ _ _ _ _ => true
  | .levelConditionEnd _ _ _ _ => true
  | .thermtrip _ _ => true
  | .offWaitExpiry _ => true
  | .sSelfRetry => true
  | .seqListWrite _ _ which _ => which != .none
  | .tempConversion main sorghum => main.length == 72 && sorghum.length == 8
  | .thermalEval => true
  | .engineCapLevelWrite _ v => isU 64 v
  | .thermalShutdown _ _ _ => true
  | .thermalRestart _ => true
  | .accelThermalRelease _ _ _ _ => true
  | .accelCapStep _ _ => true
  | .accelLimitWrite _ _ => true
  | .accelLimitRetry _ _ => true
  | .fanFault _ _ _ => true
  | .coolantFlowLow _ _ _ => true
  | .tempSensorFault _ _ _ _ => true
  | .leakResult _ _ => true
  | .leakStateChange _ => true
  | .leakZoneClearable _ => true
  | .leakClear _ _ => true
  | .accelRequestWrite _ _ v => isU 64 v
  | .quarRelease _ _ => true
  | .serviceStrapDeasserted _ => true
  | .serviceStrapAsserted _ => true
  | .wardenSafe => true
  | .wardenRelease => true
  | .partRestart _ _ => true
  | .keepaliveLoss _ => true
  | .mainDieResetEnd => true
  | .fwRestart _ => true
  | .watchdogExpiry _ _ => true
  | .wdogWarn _ => true
  | .wdogKick _ v => isU 64 v
  | .firmwareRestarted => true
  | .l2Invalidate _ v => isU 64 v
  | .l2InvalidateDone _ => true
  | .odaRead n txn key ty _ => isU 32 n && isU 64 txn && isU 32 key && isU 8 ty
  | .odaWrite n txn key ty _ => isU 32 n && isU 64 txn && isU 32 key && isU 8 ty
  | .readMulti n txn items => isU 32 n && isU 64 txn && items.all (fun x => isU 32 x.1 && isU 8 x.2)
  | .writeMulti n txn steps => isU 32 n && isU 64 txn && steps.all (fun x => isU 32 x.1 && isU 8 x.2.1)
  | .fwCompletion tag result _ => isU 32 tag && isU 32 result
  | .norCommitDone _ => true
  | .subscribe n txn sub kind period items => isU 32 n && isU 64 txn && isU 8 sub && isU 8 kind && isU 32 period && items.all (fun x => isU 32 x.1 && isU 8 x.2)
  | .periodicNotify n sub _ => isU 32 n && isU 8 sub
  | .eventNotify n sub => isU 32 n && isU 8 sub
  | .blockReadStart n txn key ty _ => isU 32 n && isU 64 txn && isU 32 key && isU 8 ty
  | .blockReadSeg n txn blk offset len => isU 32 n && isU 64 txn && isU 32 blk && isU 64 offset && isU 64 len
  | .blockWriteStart n txn key ty total => isU 32 n && isU 64 txn && isU 32 key && isU 8 ty && isU 64 total
  | .blockWriteSeg n txn blk offset _ => isU 32 n && isU 64 txn && isU 32 blk && isU 64 offset
  | .blockWriteEnd n txn blk crc => isU 32 n && isU 64 txn && isU 32 blk && isU 64 crc
  | .blockClose n txn blk => isU 32 n && isU 64 txn && isU 32 blk
  | .blockTimeout n blk => isU 32 n && isU 32 blk
  | .ledgerQuery n txn peer txns => isU 32 n && isU 64 txn && peer.length == 32 && txns.all (isU 64)
  | .replayCacheExpiry place txn => decide (place < 32) && isU 64 txn
  | .setupInit _ id frag frags _ _ _ => isU 64 id && isU 8 frag && isU 8 frags
  | .setupFinish n _ id _ => isU 32 n && isU 64 id
  | .sessionClose n => isU 32 n
  | .setupTimeout n => isU 32 n
  | .sessionIdleTimeout n => isU 32 n
  | .hostLinkUp _ _ => true
  | .hostLinkDown _ _ => true
  | .autonegRestart _ => true
  | .portMode _ _ v => isU 64 v
  | .hostFrameReceived _ _ => true
  | .networkControlRequest _ kind target => isU 8 kind && decide (target.length ≤ 16)
  | .telemetryFrame _ etherType _ _ _ _ => isU 16 etherType
  | .sbPtpSync => true
  | .sbPdelayReq _ => true
  | .macsecKeyReq n _ => isU 32 n
  | .macsecTxSwitch _ => true
  | .macsecRxOldEnd _ => true
  | .dmaGo _ ctrl srcList dstList srcCount dstCount compl _ _ => isU 32 ctrl && isU 64 srcList && isU 64 dstList && isU 32 srcCount && isU 32 dstCount && isU 64 compl
  | .dmaAck _ => true
  | .dmaDisable _ => true
  | .dmaRunStart _ => true
  | .dmaRunComplete _ => true
  | .dmaSignalRelease _ => true
  | .dmaBusError _ => true
  | .syncSet _ v => isU 64 v
  | .syncSignal _ v => isU 64 v
  | .waitSlotArm _ _ _ _ _ threshold => isU 64 threshold
  | .waitSlotDisarm _ => true
  | .memCorrectedError => true
  | .memUe addr => isU 64 addr
  | .patrolScrubPass => true
  | .lpddr4xRefresh _ => true
  | .huskRegionWrite _ _ _ => true
  | .accessOverrideWrite _ _ _ => true
  | .updateImageWriteEnd _ _ => true
  | .updateProgramDone _ => true
  | .updateVerifyDone => true
  | .shadowStreamDone => true
  | .shadowHello _ => true
  | .shadowBootTimeout => true
  | .shadowReady _ => true
  | .takeoverHoldStart => true
  | .takeoverFinal _ => true
  | .takeoverAccept _ => true
  | .takeover => true
  | .healthPass _ => true
  | .healthFail _ _ => true
  | .updateHealthDeadline _ => true
  | .updateAbort _ _ => true
  | .updateConfirm _ => true
  | .updateCommitDone => true
  | .fwCodeRaise _ detail => isU 32 detail
  | .ownerKeyAdd _ _ _ => true
  | .ownerKeyRemove _ _ _ => true
  | .ownerKeySetRevoked _ _ _ => true
  | .ownerReset _ => true
  | .rollbackRaise _ _ => true
  | .quoteReq n nonce => isU 32 n && nonce.length == 32
  | .quoteSigned n _ => isU 32 n
  | .recorderFullCommit => true
  | .recorderCommitDone _ => true
  | .immediateAppend => true
  | .tokenRefill _ => true
  | .recorderSuppressed => true
  | .recorderClear _ => true
  | .operatingSecond => true
  | .fruRead _ _ => true
  | .peSerialWrite _ _ _ => true
  | .peakReset _ => true
  | .powerSample _ => true
  | .powerWindowEnd => true
  | .avgBlockEnd _ => true
  | .converterStart _ => true
  | .vinReturnInHoldup _ => true
  | .sbLinkDown _ => true
  | .sbLinkUp _ => true
  | .serviceLinkUp => true
  | .gateEntryStart _ => true

end Sys2Proof
end

