-- ==== Sys2Proof/Safety.lean ====
section
/-! DEFINITION. The terms in which claims speak: what a command ends in, which parts of the state stay as they were, and
the canonical form of the sparse maps. -/
namespace Sys2Proof

open Sys2Proof.Machine

/-- The command completes in a next state with the property. -/
def Ends (c : Instr) (s : State) (P : State → Prop) : Prop :=
  ∃ t, exec c s = .next t ∧ P t

/-- The parts of the state, one for each field. -/
inductive Area
  | pending | nums | blobs | clk | pow | br | sq | acc | heat | cool | part | ev | nut | rep | pkgEnergy | oda | port
  | eng | img | ani | mem | bar | cardamom | ident | free
  deriving DecidableEq, Repr

/-- One part of the state is the same in both. -/
def sameIn (s t : State) : Area → Prop
  | .pending => t.pending = s.pending
  | .nums => t.nums = s.nums
  | .blobs => t.blobs = s.blobs
  | .clk => t.clk = s.clk
  | .pow => t.pow = s.pow
  | .br => t.br = s.br
  | .sq => t.sq = s.sq
  | .acc => t.acc = s.acc
  | .heat => t.heat = s.heat
  | .cool => t.cool = s.cool
  | .part => t.part = s.part
  | .ev => t.ev = s.ev
  | .nut => t.nut = s.nut
  | .rep => t.rep = s.rep
  | .pkgEnergy => t.pkgEnergy = s.pkgEnergy
  | .oda => t.oda = s.oda
  | .port => t.port = s.port
  | .eng => t.eng = s.eng
  | .img => t.img = s.img
  | .ani => t.ani = s.ani
  | .mem => t.mem = s.mem
  | .bar => t.bar = s.bar
  | .cardamom => t.cardamom = s.cardamom
  | .ident => t.ident = s.ident
  | .free => t.free = s.free

/-- The frame: every part of the state that is not listed is the same in t as in s. -/
def Only (l : List Area) (s t : State) : Prop := ∀ a, a ∉ l → sameIn s t a

/-- Every dictionary number that is not listed reads the same. -/
def NumsOnly (l : List Obj) (s t : State) : Prop := ∀ k, (∀ o ∈ l, o.key ≠ k) → look t.nums k = look s.nums k

/-- The LPDDR4X map in its canonical form: addresses strictly rising, no byte listed that reads as an unlisted one does. -/
def Machine.Mem.wf (m : Mem) : Bool := Sorted m.ram && m.ram.all (fun x => x.2 != 0)

/-- The parts of the state that a command may change, whatever the state it meets. -/
def touches (i : Instr) : List Area :=
  match i with
  | .ryeRelease _ _ _ => [.nums, .blobs, .clk, .pow, .br, .sq, .acc, .cool, .part, .ev, .nut, .rep, .port, .eng]
  | .holdupFail => [.pow]
  | .holdupEnd _ => [.nums, .blobs, .clk, .pow, .br, .sq, .acc, .heat, .cool, .part, .ev, .nut, .rep, .pkgEnergy, .oda, .port, .eng, .img, .ani, .mem, .bar, .cardamom]
  | .vinLost _ => [.pow]
  | .coarseTimekeeping => [.clk]
  | .vinStable _ => [.clk, .pow]
  | .vinLow _ _ => [.nums, .clk, .pow, .br, .sq, .acc, .ev, .nut, .eng]
  | .vinLowSelfDown => [.nums, .clk, .pow, .br, .sq, .acc, .heat, .part, .ev, .nut, .oda, .port, .eng, .img, .ani, .mem, .bar, .cardamom]
  | .vinReturn _ => [.pow]
  | .b0UndervoltageOff _ => [.nums, .pow, .br, .sq, .acc, .ev, .nut, .eng]
  | .inputLossCommit => [.nums, .blobs, .clk, .nut]
  | .inputLossCommitEnd _ => [.nums, .clk, .pow, .nut]
  | .vinOv _ _ => [.nums, .clk, .pow, .br, .sq, .acc, .ev, .nut, .eng]
  | .strawValueReceived _ => [.nums, .br, .cool, .ani, .free]
  | .strawDeadlineExpired _ => [.clk, .br, .cool, .ani]
  | .curveApply => [.clk, .br, .cool]
  | .pufAttemptDone _ => [.nums, .br, .sq, .acc, .part, .ev, .nut, .oda, .port, .eng, .ani, .bar, .cardamom]
  | .keyDerivationDone => [.nums, .br, .sq, .acc, .part, .ev, .nut, .oda, .port, .eng, .ani, .bar, .cardamom]
  | .firmwareStreamDone _ => [.nums, .br, .sq, .acc, .part, .ev, .nut, .oda, .port, .eng, .ani, .mem, .bar, .cardamom]
  | .lpddr4xTrainingDone _ => [.part, .ev, .eng, .img, .mem]
  | .partReady => [.acc, .heat, .part, .ev, .nut, .oda, .port, .eng, .img, .mem, .free]
  | .tileSelfTestDone _ _ => [.nums, .pow, .part, .ev, .nut, .eng, .img, .mem, .bar, .free]
  | .ptpMeasurement _ _ _ => [.clk, .part, .ev, .nut, .rep, .port, .eng]
  | .syncInEdge _ _ => [.clk, .part, .ev, .nut, .rep, .port, .eng]
  | .syncOutEdge => [.clk]
  | .measurementTimeout => [.clk, .part, .ev, .nut]
  | .timeHoldoverExpired => [.clk, .part, .ev, .nut]
  | .timeSourceChanged _ _ => [.nums, .clk, .pow, .part, .ev, .nut, .oda]
  | .timeSet _ _ => [.clk, .part, .ev, .nut, .rep, .oda, .port, .eng]
  | .launchAt _ _ => [.nums, .clk, .ev, .nut, .oda, .eng]
  | .frameStopAt _ _ => [.nums, .clk, .pow, .acc, .part, .ev, .nut, .oda, .port, .eng, .img, .ani, .mem, .bar, .free]
  | .launch => [.nums, .clk, .acc, .part, .ev, .nut, .port, .eng, .img, .ani, .mem, .bar]
  | .frameCutoff => [.clk, .eng]
  | .frameStart => [.nums, .clk, .pow, .acc, .part, .ev, .nut, .rep, .port, .eng, .img, .ani, .mem, .bar, .free]
  | .p0Emit => [.nums, .clk, .ev, .nut, .rep, .eng, .ani, .mem, .bar, .free]
  | .mainEmit => [.nums, .clk, .pow, .acc, .part, .ev, .nut, .rep, .port, .eng, .img, .ani, .mem, .bar, .free]
  | .checkpointCommit => [.nums, .part, .ev, .nut, .eng, .mem, .bar]
  | .sampleArrival _ _ _ _ => [.sq, .acc, .heat, .eng]
  | .eventNumbered => [.nums, .clk, .ev, .nut, .oda, .port]
  | .engineRejoin => [.nums, .clk, .acc, .part, .ev, .nut, .port, .eng, .img, .ani, .mem, .bar]
  | .checkpointRestoreDone _ _ _ _ => [.part, .ev, .nut, .eng, .mem]
  | .correctedError _ => [.nums, .pow, .ev, .nut, .eng, .img, .mem, .bar, .free]
  | .uncorrectableWord _ _ _ _ => [.nums, .pow, .part, .ev, .nut, .eng, .img, .mem, .bar, .free]
  | .tileRetiredSet _ _ => [.nums, .clk, .pow, .part, .ev, .nut, .oda, .eng, .img, .mem, .bar, .free]
  | .tileRetiredClear _ _ => [.nums, .clk, .pow, .part, .ev, .nut, .oda, .eng]
  | .stagingTimeout _ => [.nums, .clk, .ev, .nut, .eng, .mem, .bar, .free]
  | .sessionOpenRequest _ _ _ => [.clk, .ev, .nut, .oda, .eng, .mem]
  | .sessionCloseRequest _ _ _ => [.clk, .ev, .nut, .oda, .eng, .mem]
  | .modelLoadDone _ => [.nums, .ev, .nut, .eng, .mem, .bar, .free]
  | .codebookWrite _ _ _ => [.nums, .clk, .ev, .nut, .oda, .eng, .mem, .bar]
  | .modelImageWrite _ _ _ => [.clk, .oda, .eng]
  | .modelVerified _ => [.eng]
  | .ringFreeze _ => [.nums, .clk, .oda, .eng]
  | .ringResume _ => [.nums, .clk, .oda, .eng]
  | .postTriggerExpiry => [.nums, .clk, .eng]
  | .freezeMaxExpiry => [.nums, .clk, .eng]
  | .longCaptureWrite _ _ => [.blobs, .clk, .oda, .eng]
  | .replayStart _ => [.nums, .clk, .ev, .nut, .oda, .eng, .img, .mem, .bar]
  | .replayAbort _ => [.nums, .clk, .ev, .nut, .oda, .eng, .img, .mem, .bar]
  | .replayFrame => [.nums, .acc, .ev, .nut, .rep, .eng, .img, .mem, .bar, .free]
  | .schedImageWrite _ _ _ => [.nums, .clk, .oda, .img]
  | .schedImageChecked _ => [.nums, .rep, .img]
  | .imageArm _ _ => [.nums, .clk, .ev, .nut, .oda, .eng, .img, .mem, .bar]
  | .imageDisarm _ => [.clk, .oda, .img]
  | .readyActivationDone => [.nums, .pow, .part, .ev, .nut, .eng, .img, .mem, .bar, .cardamom, .free]
  | .hotActivation => [.nums, .part, .ev, .nut, .eng, .img, .mem, .bar, .cardamom]
  | .coldActivationStop => [.nums, .part, .ev, .nut, .eng, .img, .mem, .bar, .cardamom]
  | .coldActivationRejoin => [.nums, .pow, .part, .ev, .nut, .eng, .img, .mem, .bar, .free]
  | .planHoldStart => [.eng, .img]
  | .planSwitch => [.nums, .part, .ev, .nut, .eng, .img, .mem, .bar, .free]
  | .bridgePortFailure _ => [.nums, .pow, .part, .ev, .nut, .eng, .img, .free]
  | .domainRetiredSet _ _ => [.nums, .clk, .pow, .part, .ev, .nut, .oda, .eng, .img, .free]
  | .domainRetiredClear _ _ => [.nums, .clk, .pow, .part, .ev, .nut, .oda, .eng, .img]
  | .aniseFrameJobs => [.nums, .clk, .acc, .part, .ev, .nut, .eng, .ani, .mem, .bar, .cardamom]
  | .antAdaptWindow => [.ev, .nut, .ani, .mem, .bar]
  | .aniseTick => [.ev, .nut, .ani, .mem, .bar]
  | .aniseUe _ => [.acc, .part, .ev, .nut, .ani]
  | .aniseProgramWrite _ _ => [.nums, .blobs, .clk, .pow, .oda, .ani]
  | .antWordDelivered _ _ => [.nums, .clk, .ani]
  | .antSlot => [.nums, .clk, .part, .ev, .nut, .ani]
  | .concordSummarySend => [.ev, .nut, .port, .ani]
  | .concordSummaryReceived _ _ => [.clk, .ani]
  | .branchInrushStart _ => [.nums, .clk, .pow, .br, .sq, .acc, .ev, .nut, .eng]
  | .inrushComplete _ => [.clk, .br]
  | .branchOn _ _ => [.nums, .pow, .br, .sq, .acc, .ev, .nut, .eng]
  | .tGateExpiry _ => [.nums, .clk, .pow, .br, .sq, .acc, .ev, .nut, .eng]
  | .inrushTimerExpiry _ => [.nums, .clk, .pow, .br, .sq, .acc, .ev, .nut, .eng]
  | .fastTrip _ _ => [.nums, .pow, .br, .sq, .acc, .ev, .nut, .eng]
  | .tripFractionUpdate _ => [.nums, .clk, .pow, .br, .sq, .acc, .ev, .nut, .eng]
  | .fosterUpdate _ _ _ => [.nums, .clk, .pow, .br, .sq, .acc, .ev, .nut, .eng, .free]
  | .tfetTrip _ => [.nums, .clk, .pow, .br, .sq, .acc, .ev, .nut, .eng]
  | .tfetSensorFault _ _ _ => [.nums, .clk, .pow, .br, .sq, .acc, .ev, .nut, .eng]
  | .tfetSensorOk _ _ _ => [.clk, .br, .ev, .nut]
  | .enLow _ _ => [.nums, .clk, .pow, .br, .sq, .acc, .ev, .nut, .eng]
  | .enRise _ _ => [.nums, .clk, .pow, .br, .sq, .acc, .ev, .nut, .eng]
  | .presenceEdge _ _ _ => [.nums, .clk, .pow, .br, .sq, .acc, .ev, .nut, .eng]
  | .tReinsExpiry _ => [.nums, .clk, .pow, .br, .sq, .acc, .ev, .nut, .eng]
  | .tripNotCleared _ _ => [.nums, .clk, .pow, .br, .sq, .acc, .ev, .nut, .eng]
  | .outputWhileOff _ _ => [.nums, .clk, .pow, .br, .sq, .acc, .ev, .nut, .eng]
  | .vdsHigh _ _ _ => [.nums, .clk, .pow, .br, .ev, .nut]
  | .vdsHighClear _ _ _ => [.nums, .clk, .pow, .br]
  | .branchDisable _ _ => [.nums, .clk, .pow, .br, .sq, .acc, .ev, .nut, .oda, .eng]
  | .branchEnable _ _ => [.nums, .clk, .pow, .br, .sq, .acc, .ev, .nut, .oda, .eng]
  | .branchFetClear _ _ => [.nums, .clk, .pow, .br, .oda]
  | .dw440Import _ _ => [.nums, .clk, .pow, .oda]
  | .branchStartOffset _ => [.clk, .br]
  | .sorghumOt _ _ => [.nums, .clk, .pow, .br, .sq, .acc, .heat, .cool, .part, .ev, .nut, .port, .eng, .ani, .bar]
  | .sorghumOtEnd _ _ => [.nums, .clk, .pow, .br, .sq, .acc, .heat, .cool, .part, .ev, .nut, .port, .eng]
  | .seqAdmission _ => [.clk, .br, .sq, .acc]
  | .stepEnable _ => [.clk, .sq]
  | .stepDisable _ => [.clk, .sq]
  | .stepWaitPg _ _ => [.clk, .sq]
  | .stepWaitTime _ => [.clk, .sq]
  | .stepWaitLevel _ _ => [.clk, .sq]
  | .stepAssert _ => [.clk, .sq]
  | .stepDeassert _ => [.clk, .sq]
  | .stepEnd _ => [.nums, .clk, .pow, .br, .sq, .acc, .heat, .part, .ev, .nut, .port, .eng, .mem]
  | .waitConditionMet _ _ _ => [.sq]
  | .waitTimeout _ => [.nums, .clk, .pow, .br, .sq, .acc, .heat, .part, .ev, .nut, .oda, .port, .eng, .img, .ani, .mem, .bar, .cardamom]
  | .waitTimeExpiry _ => [.clk, .sq]
  | .pgWindowClose _ _ _ => [.nums, .blobs, .clk, .sq, .acc, .heat, .part, .ev, .nut, .port, .img, .cardamom, .free]
  | .pgTimeout _ => [.nums, .clk, .pow, .br, .sq, .acc, .heat, .part, .ev, .nut, .oda, .port, .eng, .img, .ani, .mem, .bar, .cardamom]
  | .levelDeglitchExpiry _ _ _ _ _ => [.nums, .clk, .pow, .br, .sq, .acc, .heat, .part, .ev, .nut, .oda, .port, .eng, .img, .ani, .mem, .bar, .cardamom]
  | .levelConditionEnd _ _ _ _ => [.nums, .sq, .ev, .nut]
  | .thermtrip _ _ => [.nums, .clk, .pow, .br, .sq, .acc, .ev, .nut, .eng]
  | .offWaitExpiry _ => [.clk, .sq, .acc]
  | .sSelfRetry => [.nums, .clk, .sq, .acc]
  | .seqListWrite _ _ _ _ => [.blobs, .clk, .pow, .oda]
  | .tempConversion _ _ => [.clk, .heat, .ev, .nut]
  | .thermalEval => [.clk, .heat, .part, .ev, .nut, .eng, .img, .free]
  | .engineCapLevelWrite _ _ => [.nums, .clk, .pow, .heat, .part, .ev, .nut, .oda, .eng, .img, .free]
  | .thermalShutdown _ _ _ => [.nums, .clk, .sq, .acc, .heat, .part, .ev, .nut, .oda, .port, .eng, .img, .ani, .mem, .bar, .cardamom]
  | .thermalRestart _ => [.nums, .clk, .sq, .acc, .heat]
  | .accelThermalRelease _ _ _ _ => [.clk, .sq, .acc, .heat, .ev, .nut]
  | .accelCapStep _ _ => [.clk, .acc]
  | .accelLimitWrite _ _ => [.acc, .ev, .nut]
  | .accelLimitRetry _ _ => [.clk, .acc, .ev, .nut]
  | .fanFault _ _ _ => [.clk, .cool, .ev, .nut]
  | .coolantFlowLow _ _ _ => [.clk, .cool, .ev, .nut]
  | .tempSensorFault _ _ _ _ => [.clk, .heat, .ev, .nut]
  | .leakResult _ _ => [.cool]
  | .leakStateChange _ => [.nums, .br, .sq, .acc, .cool, .ev, .nut, .eng]
  | .leakZoneClearable _ => [.clk, .cool]
  | .leakClear _ _ => [.nums, .clk, .br, .sq, .acc, .cool, .ev, .nut, .oda, .eng]
  | .accelRequestWrite _ _ _ => [.nums, .clk, .br, .sq, .acc, .ev, .nut, .oda, .eng]
  | .quarRelease _ _ => [.nums, .clk, .pow, .acc, .oda]
  | .serviceStrapDeasserted _ => [.nums, .clk, .pow, .br, .sq, .acc, .part, .ev, .nut, .oda, .port, .eng]
  | .serviceStrapAsserted _ => [.clk, .pow, .part, .ev, .nut, .port]
  | .wardenSafe => [.nums, .br, .sq, .acc, .part, .ev, .nut, .oda, .port, .eng, .ani, .mem, .bar, .free]
  | .wardenRelease => [.nums, .clk, .pow, .acc, .heat, .part, .ev, .nut, .oda, .port, .eng, .img, .ani, .mem, .bar, .free]
  | .partRestart _ _ => [.nums, .clk, .acc, .heat, .part, .ev, .nut, .oda, .port, .eng, .img, .ani, .mem, .bar, .cardamom]
  | .keepaliveLoss _ => [.nums, .clk, .acc, .heat, .part, .ev, .nut, .oda, .port, .eng, .img, .ani, .mem, .bar, .cardamom]
  | .mainDieResetEnd => [.nums, .blobs, .clk, .heat, .part, .ev, .nut, .port, .img, .cardamom, .free]
  | .fwRestart _ => [.nums, .clk, .part, .ev, .nut, .oda, .port, .eng, .mem, .bar, .free]
  | .watchdogExpiry _ _ => [.nums, .clk, .acc, .heat, .part, .ev, .nut, .oda, .port, .eng, .img, .ani, .mem, .bar, .cardamom, .free]
  | .wdogWarn _ => [.clk, .bar]
  | .wdogKick _ _ => [.bar]
  | .firmwareRestarted => [.part, .ev, .nut, .bar]
  | .l2Invalidate _ _ => [.bar]
  | .l2InvalidateDone _ => [.clk, .bar]
  | .odaRead _ _ _ _ _ => [.nums, .ev, .nut, .oda, .port, .mem, .bar, .free]
  | .odaWrite _ _ _ _ _ => [.nums, .blobs, .clk, .pow, .br, .sq, .acc, .heat, .cool, .part, .ev, .nut, .rep, .oda, .port, .eng, .img, .ani, .mem, .bar, .cardamom, .free]
  | .readMulti _ _ _ => [.nums, .ev, .nut, .oda, .port, .mem, .bar, .free]
  | .writeMulti _ _ _ => [.nums, .blobs, .clk, .pow, .br, .sq, .acc, .heat, .cool, .part, .ev, .nut, .rep, .oda, .port, .eng, .img, .ani, .mem, .bar, .cardamom, .free]
  | .fwCompletion _ _ _ => [.nums, .blobs, .clk, .pow, .br, .sq, .acc, .heat, .cool, .part, .ev, .nut, .rep, .oda, .port, .eng, .img, .ani, .mem, .bar, .cardamom, .free]
  | .norCommitDone _ => [.nums, .blobs, .clk, .pow, .br, .sq, .acc, .heat, .cool, .part, .ev, .nut, .rep, .oda, .port, .eng, .img, .ani, .mem, .bar, .cardamom, .free]
  | .subscribe _ _ _ _ _ _ => [.nums, .clk, .ev, .nut, .oda, .port]
  | .periodicNotify _ _ _ => [.nums, .clk, .ev, .nut, .oda, .port]
  | .eventNotify _ _ => [.nums, .clk, .ev, .nut, .oda, .port]
  | .blockReadStart _ _ _ _ _ => [.nums, .ev, .nut, .oda, .port, .mem, .bar, .free]
  | .blockReadSeg _ _ _ _ _ => [.nums, .ev, .nut, .oda, .port, .eng]
  | .blockWriteStart _ _ _ _ _ => [.nums, .ev, .nut, .oda, .port]
  | .blockWriteSeg _ _ _ _ _ => [.nums, .ev, .nut, .oda, .port]
  | .blockWriteEnd _ _ _ _ => [.nums, .blobs, .clk, .pow, .br, .sq, .acc, .heat, .cool, .part, .ev, .nut, .rep, .oda, .port, .eng, .img, .ani, .mem, .bar, .cardamom, .free]
  | .blockClose _ _ _ => [.nums, .ev, .nut, .oda, .port, .eng]
  | .blockTimeout _ _ => [.clk, .oda, .eng]
  | .ledgerQuery _ _ _ _ => [.nums, .ev, .nut, .oda, .port]
  | .replayCacheExpiry _ _ => [.clk, .oda]
  | .setupInit _ _ _ _ _ _ _ => [.nums, .ev, .nut, .oda, .port, .free]
  | .setupFinish _ _ _ _ => [.nums, .ev, .nut, .oda, .port]
  | .sessionClose _ => [.oda]
  | .setupTimeout _ => [.clk, .oda]
  | .sessionIdleTimeout _ => [.clk, .oda]
  | .hostLinkUp _ _ => [.part, .ev, .nut, .port]
  | .hostLinkDown _ _ => [.nums, .clk, .part, .ev, .nut, .port]
  | .autonegRestart _ => [.clk, .port]
  | .portMode _ _ _ => [.nums, .clk, .pow, .part, .ev, .nut, .oda, .port]
  | .hostFrameReceived _ _ => [.nums, .ev, .nut, .oda, .port]
  | .networkControlRequest _ _ _ => [.ev, .nut, .port]
  | .telemetryFrame _ _ _ _ _ _ => [.nums, .ev, .nut, .port, .eng, .mem, .bar]
  | .sbPtpSync => [.clk, .port]
  | .sbPdelayReq _ => [.nums, .port]
  | .macsecKeyReq _ _ => [.clk, .oda, .port]
  | .macsecTxSwitch _ => [.clk, .port]
  | .macsecRxOldEnd _ => [.clk, .port]
  | .dmaGo _ _ _ _ _ _ _ _ _ => [.nums, .ev, .nut, .eng, .mem, .bar, .free]
  | .dmaAck _ => [.mem]
  | .dmaDisable _ => [.nums, .ev, .nut, .eng, .mem, .bar, .free]
  | .dmaRunStart _ => [.mem]
  | .dmaRunComplete _ => [.nums, .clk, .ev, .nut, .eng, .mem, .bar, .free]
  | .dmaSignalRelease _ => [.ev, .nut, .mem, .bar]
  | .dmaBusError _ => [.nums, .clk, .ev, .nut, .eng, .mem, .bar, .free]
  | .syncSet _ _ => [.ev, .nut, .mem, .bar]
  | .syncSignal _ _ => [.ev, .nut, .mem, .bar]
  | .waitSlotArm _ _ _ _ _ _ => [.ev, .nut, .mem, .bar]
  | .waitSlotDisarm _ => [.mem]
  | .memCorrectedError => [.nums]
  | .memUe _ => [.nums, .ev, .nut, .mem, .bar]
  | .patrolScrubPass => [.nums, .clk, .mem]
  | .lpddr4xRefresh _ => [.mem]
  | .huskRegionWrite _ _ _ => [.bar]
  | .accessOverrideWrite _ _ _ => [.nums, .bar]
  | .updateImageWriteEnd _ _ => [.nums, .clk, .part, .ev, .nut, .oda, .bar]
  | .updateProgramDone _ => [.nums, .part, .ev, .nut, .bar]
  | .updateVerifyDone => [.part, .ev, .nut, .bar]
  | .shadowStreamDone => [.bar]
  | .shadowHello _ => [.nums, .ev, .nut, .bar]
  | .shadowBootTimeout => [.clk, .part, .ev, .nut, .bar]
  | .shadowReady _ => [.nums, .ev, .nut, .bar]
  | .takeoverHoldStart => [.clk, .ev, .nut, .bar]
  | .takeoverFinal _ => [.nums, .bar]
  | .takeoverAccept _ => [.nums, .bar]
  | .takeover => [.nums, .clk, .part, .ev, .nut, .oda, .port, .mem, .bar, .cardamom, .free]
  | .healthPass _ => [.nums, .bar]
  | .healthFail _ _ => [.nums, .clk, .acc, .heat, .part, .ev, .nut, .oda, .port, .eng, .img, .ani, .mem, .bar, .cardamom, .free]
  | .updateHealthDeadline _ => [.nums, .clk, .acc, .heat, .part, .ev, .nut, .oda, .port, .eng, .img, .ani, .mem, .bar, .cardamom, .free]
  | .updateAbort _ _ => [.nums, .clk, .acc, .heat, .part, .ev, .nut, .oda, .port, .eng, .img, .ani, .mem, .bar, .cardamom, .free]
  | .updateConfirm _ => [.clk, .oda, .bar]
  | .updateCommitDone => [.part, .ev, .nut, .bar, .cardamom]
  | .fwCodeRaise _ _ => [.ev, .nut]
  | .ownerKeyAdd _ _ _ => [.clk, .oda, .cardamom]
  | .ownerKeyRemove _ _ _ => [.clk, .oda, .cardamom]
  | .ownerKeySetRevoked _ _ _ => [.clk, .oda, .cardamom]
  | .ownerReset _ => [.nums, .clk, .pow, .oda, .cardamom]
  | .rollbackRaise _ _ => [.clk, .oda, .cardamom]
  | .quoteReq _ _ => [.clk, .oda]
  | .quoteSigned _ _ => [.oda]
  | .recorderFullCommit => [.nums, .blobs, .nut]
  | .recorderCommitDone _ => [.ev, .nut]
  | .immediateAppend => [.nut]
  | .tokenRefill _ => [.clk, .nut]
  | .recorderSuppressed => [.clk, .ev, .nut]
  | .recorderClear _ => [.nums, .blobs, .clk, .nut, .oda]
  | .operatingSecond => [.nums, .clk, .nut]
  | .fruRead _ _ => [.nums, .blobs, .ev, .nut]
  | .peSerialWrite _ _ _ => [.nums, .blobs, .clk, .ev, .nut, .oda]
  | .peakReset _ => [.nums, .clk, .rep, .oda]
  | .powerSample _ => [.rep, .pkgEnergy]
  | .powerWindowEnd => [.nums, .clk, .rep]
  | .avgBlockEnd _ => [.nums, .clk, .rep]
  | .converterStart _ => [.pow]
  | .vinReturnInHoldup _ => [.clk, .pow]
  | .sbLinkDown _ => [.ev, .nut, .port]
  | .sbLinkUp _ => [.port]
  | .serviceLinkUp => [.port]
  | .gateEntryStart _ => [.clk, .ev, .nut, .port]

end Sys2Proof
end

