-- ==== Sys2Proof/Certificates/Slice0/Obligations.lean ====
section
/-! DEFINITION. The statements about the model, family by family in the order of the command table. -/
open Sys2Proof Sys2Proof.Machine

/-- A step takes the command at the front of the queue and runs it on the state with the rest of the queue (log 1). -/
def Obligations.StepRunsFrontCommand : Prop :=
  ∀ (c : Instr) (rest : List Instr) (s : State), step { s with pending := c :: rest } = exec c { s with pending := rest }

/-- A step on an empty queue passes one fabric cycle of 1 ns (R43, R44, R57; log 10), every fortieth one a Rye cycle of 40 ns; on the RC oscillator one edge of 30,518 ns or 762 cycles. -/
def Obligations.IdleStepAdvancesTheCount : Prop :=
  (∀ s : State, s.pending = [] → ∃ t, step s = .next t ∧ t.pending = [] ∧ (s.clk.running = false → t = s)) ∧
  (∀ s : State, s.pending = [] → s.clk.running = true → (∀ q ∈ s.oda.waiting, q.waiting ≠ .behind) → ∃ t, step s = .next t ∧ Only [.clk] s t ∧
    (s.clk.rc = true → t.clk.cycles = s.clk.cycles + 762 ∧ t.clk.base = (s.clk.base + 30518 * 4294967296) % 2 ^ 96) ∧
    (s.clk.rc = false → s.clk.sub < 39 → t.clk = { s.clk with sub := s.clk.sub + 1 } ∧ (s.part.reset = false → mainNow t = (mainNow s + 1) % 2 ^ 64)) ∧
    (s.clk.rc = false → 39 ≤ s.clk.sub → t.clk.cycles = s.clk.cycles + 1 ∧ t.clk.sub = 0 ∧
      (s.clk.freqPpb = 0 → s.clk.slew = 0 → now t = (s.clk.base + 40 * 4294967296) % 2 ^ 96 / 4294967296)))

/-- Every command of the table answers a next state and leaves every part outside `touches` as it was: the queue and the identity in every case, the branches, sequencers and power requests for every command of the engine, the memory, the ports and the dictionary reads. -/
def Obligations.EveryCommandCompletesInItsFrame : Prop :=
  ∀ (c : Instr) (s : State), Ends c s (Only (touches c) s) ∧ Area.pending ∉ touches c ∧ Area.ident ∉ touches c

/-- The grade and the tiles chosen at manufacture (R2, R75) are the same after every step, and a step only takes the front command. -/
def Obligations.StepKeepsIdentityAndRestOfQueue : Prop :=
  ∀ (s : State) (i : Ident), s.ident = i → ∃ t, step s = .next t ∧ t.ident = i ∧ t.pending = s.pending.tail

/-- Whatever command runs, the memory keeps its canonical form: addresses strictly rising and no zero byte listed (the form of the model, log 4). -/
def Obligations.StepKeepsMemoryCanonical : Prop :=
  ∀ s t : State, s.mem.wf = true → step s = .next t → t.mem.wf = true

/-- The reset state (log 2): OFF, nothing driven, nothing listed in memory. -/
def Obligations.ResetIsOffAndCanonical : Prop :=
  State.reset.part.st = .off ∧ State.reset.clk.running = false ∧ State.reset.pending = [] ∧ State.reset.mem.wf = true ∧
    (∀ b : Fin 12, (State.reset.br.get b).st = .off ∧ (State.reset.br.get b).gate = .off) ∧
    (∀ q : Fin 9, (State.reset.sq.get q).st = .idle ∧ (State.reset.sq.get q).pgood = false ∧
      ∀ r : Fin 16, ((State.reset.sq.get q).rails.get r).enabled = false)

/-- The hold-up phases (R520, R521), Rye start with the RCB or without one (R35, R36, R38), and the end of Rye. -/
def Obligations.HoldupConverterAndRyeRelease : Prop :=
  (∀ (v : Rat) (s : State), s.part.st = .off → s.pow.holdup = .off → 36 ≤ v →
      Ends (.converterStart v) s (fun t => t.pow.holdup = .charging ∧ t.pow.vin = v ∧ t.pow.vinLost = false)) ∧
  (∀ (s : State), s.pow.holdup = .charging → s.clk.running = false →
      Ends (.holdupFail) s (fun t => t.pow.holdup = .failed ∧ t.clk.running = false ∧ faultLow t = true)) ∧
  (∀ (seated enabled thermtrip : Nat) (s : State), s.pow.holdup = .charging →
      Ends (.ryeRelease seated enabled thermtrip) s (fun t => t.part.st = .standby ∧ t.clk.running = true ∧ t.clk.rc = false ∧ now t = 0 ∧ t.pow.holdup = .released ∧
      (∀ b : Fin 12, (t.br.get b).st.live = false) ∧ (∀ a : Fin 8, (t.acc.get a).reqS = (s.acc.get a).reqS ∧ (t.acc.get a).reqP = (s.acc.get a).reqP ∧
        (getN t (Obj.facilityBootReq a.val) = 1 → (t.acc.get a).reqF = .on) ∧ (getN t (Obj.facilityBootReq a.val) = 2 → (t.acc.get a).reqF = .off) ∧
        (getN t (Obj.hostBootReq a.val) = 1 → (t.acc.get a).reqH = .on) ∧ (getN t (Obj.hostBootReq a.val) = 2 → (t.acc.get a).reqH = .off)) ∧
      (s.pow.rcbA.valid = false → s.pow.rcbB.valid = false → t.pow.rcbInvalid = true ∧ faultLow t = true))) ∧
  (∀ (s : State), s.pow.vinLost = true →
      Ends (.holdupEnd .none) s (fun t => t.part.st = .off ∧ t.clk.running = false ∧ t.pow.holdup = .off ∧ t.pow.rcbA = s.pow.rcbA ∧ t.pow.rcbB = s.pow.rcbB ∧ t.pow.norA = s.pow.norA ∧
      t.pow.norB = s.pow.norB ∧ t.nut.copyA = s.nut.copyA ∧ t.nut.copyB = s.nut.copyB ∧ t.cardamom.recA = s.cardamom.recA ∧ t.cardamom.recB = s.cardamom.recB ∧
      (∀ b : Fin 12, (t.br.get b).st = .off ∧ (t.br.get b).gate = .off))) ∧
  (∀ (v : Rat) (s : State), s.pow.holdup ≠ .off → v < 28 →
      Ends (.vinLost v) s (fun t => t.pow.vinLost = true ∧ t.pow.vin = v)) ∧
  (∀ (v : Rat) (s : State), s.clk.running = true → s.pow.vinLost = true → 28 ≤ v →
      Ends (.vinReturnInHoldup v) s (fun t => t.pow.vinLost = false ∧ t.pow.vin = v ∧ t.clk.rc = false ∧ t.clk.state = s.clk.state ∧ t.clk.base = s.clk.base))

/-- The loss of the input and its return (R33, R57, R247 to R250, R489). -/
def Obligations.InputLossAndReturn : Prop :=
  (∀ (v : Rat) (since : Nat) (a : Fin 8) (s : State), s.clk.running = true → v < 40 → s.pow.vinLow = false → (s.sq.get (seqOf a)).st.active = true → (s.sq.get (seqOf a)).causeAt ≠ (stands since (usCycles 10) s).clk.cycles →
      Ends (.vinLow v since) s (fun t => t.pow.vinLow = true ∧ t.pow.vinLowAt = t.clk.cycles ∧ t.clk.cycles = (stands since (usCycles 10) s).clk.cycles ∧ t.pow.vinStable = false ∧ (t.sq.get (seqOf a)).st = .emergency ∧
      (t.sq.get (seqOf a)).cause = 8 ∧ (t.sq.get (seqOf a)).pgood = false ∧ ((s.br.get 0).st = .on → (t.br.get 0).st = .on))) ∧
  (∀ (s : State), s.pow.vinLow = true → (s.br.get 0).st = .on → (s.sq.get sSelf).st = .on →
      Ends (.vinLowSelfDown) s (fun t => t.clk = (tickTo (s.pow.vinLowAt + usCycles 4990) s).clk ∧ (t.sq.get sSelf).st = .down ∧ (t.sq.get sSelf).kind = .down ∧ (t.sq.get sSelf).pgood = false ∧ (t.sq.get sSelf).afterDown = 1)) ∧
  (∀ (s : State), s.clk.running = true → (s.br.get 0).st ≠ .on → (s.br.get 0).vout < 40 → (s.sq.get sSelf).st = .on →
      Ends (.vinLowSelfDown) s (fun t => (t.sq.get sSelf).st = .down ∧ (t.sq.get sSelf).kind = .down ∧ (t.sq.get sSelf).pgood = false ∧ (t.sq.get sSelf).afterDown = 3 ∧ t.clk.cycles = (standsFrom s.pow.trayLowAt (msCycles 5) s).clk.cycles)) ∧
  (∀ (v : Rat) (s : State), s.pow.vinLow = true → v < 30 → (s.br.get 0).st.live = true →
      Ends (.b0UndervoltageOff v) s (fun t => (t.br.get 0).st = .off ∧ (t.br.get 0).gate = .pd100mA ∧ t.pow.vin = v)) ∧
  (∀ (s : State), s.pow.vinLow = true → s.pow.nutDone = false → s.nut.lossCommit = none →
      Ends (.inputLossCommit) s (fun t => t.nut.lossCommit.isSome = true ∧ t.nut.commitTo = none)) ∧
  (∀ (written t0 : Nat) (s : State), s.nut.lossCommit = some t0 →
      Ends (.inputLossCommitEnd written) s (fun t => t.nut.lossCommit = none ∧ t.pow.nutDone = true)) ∧
  (∀ (s : State), s.clk.running = true → s.pow.vinLost = true → s.pow.nutDone = true → (s.sq.get sSelf).st = .idle → s.clk.rc = false →
      Ends (.coarseTimekeeping) s (fun t => t.clk.rc = true ∧ t.clk.state = .coarse ∧ t.clk.base = s.clk.base ∧ t.clk.running = true)) ∧
  (∀ (v : Rat) (s : State), s.pow.vinLow = true → s.pow.vinLost = false → 40 ≤ v →
      Ends (.vinReturn v) s (fun t => t.pow.vinLow = false ∧ t.pow.vin = v)) ∧
  (∀ (v : Rat) (since : Nat) (s : State), s.clk.running = true → getF s Obj.vinOv < v → (s.br.get 0).st.live = true →
      Ends (.vinOv v since) s (fun t => (t.br.get 0).st = .off ∧ (t.br.get 0).gate = .pd4A ∧ (t.br.get 0).cause = (s.br.get 0).cause ∧ t.pow.vinStable = false ∧ t.pow.vin = v)) ∧
  (∀ (v : Rat) (s : State), s.clk.running = true → s.clk.rc = false → 40 ≤ v → v ≤ getF s Obj.vinOv → s.pow.vinLow = false →
      Ends (.vinStable v) s (fun t => t.pow.vinStable = true ∧ t.pow.vin = v ∧ t.clk.cycles = max s.clk.cycles (s.pow.vinBadAt + msCycles (getN s Obj.vinStableMs))))

/-- The boot steps of R39 to R41 with their failures, in Cardamom (R456 to R464) and Barley. -/
def Obligations.MainDieBoot : Prop :=
  (∀ (s : State), s.part.reset = false → s.part.boot = .puf →
      Ends (.pufAttemptDone true) s (fun t => t.part.boot = .keys ∧ t.cardamom.seedHeld = true)) ∧
  (∀ (s : State), s.part.reset = false → s.part.boot = .puf → s.cardamom.attempt < 2 →
      Ends (.pufAttemptDone false) s (fun t => t.cardamom.attempt = s.cardamom.attempt + 1 ∧ t.cardamom.pufCopy = s.cardamom.pufCopy ∧ t.part.boot = .puf)) ∧
  (∀ (s : State), s.part.reset = false → s.part.boot = .puf → s.cardamom.attempt = 2 → s.cardamom.pufCopy = 1 →
      Ends (.pufAttemptDone false) s (fun t => t.part.st = .safe ∧ t.part.safeCause = .bootFailure ∧ t.cardamom.st = .noIdentity ∧ t.oda.serving = s.oda.serving)) ∧
  (∀ (r : SecRecord) (s : State), s.part.reset = false → s.part.boot = .keys → newestRec s.cardamom = some r →
      Ends (.keyDerivationDone) s (fun t => t.part.boot = .stream ∧ t.cardamom.seedHeld = false ∧ t.cardamom.identity = true ∧ t.cardamom.held.bootCount = r.bootCount + 1 ∧
      t.cardamom.recA = t.cardamom.held ∧ t.cardamom.recB = t.cardamom.held ∧ t.cardamom.logEntries = s.cardamom.logEntries + 3)) ∧
  (∀ (s : State), s.part.reset = false → s.part.boot = .keys → newestRec s.cardamom = none →
      Ends (.keyDerivationDone) s (fun t => t.part.st = .safe ∧ t.part.safeCause = .bootFailure ∧ t.cardamom.identity = true ∧ t.oda.serving = true ∧ t.ev.up = true)) ∧
  (∀ (read : Option (List Byte)) (x : FwImage) (s : State), s.part.reset = false → s.part.boot = .stream → streamed s read = some x → x.trusted = true → x.layout = Config.layoutDigest → rollbackCtr s ≤ x.rollback →
      Ends (.firmwareStreamDone read) s (fun t => t.part.boot = .train ∧ t.bar.fwImage = some x ∧ t.bar.fwSlot = streamSlot s ∧ (t.bar.clusters.get 0).role = .control ∧ (t.bar.clusters.get 1).role = .off)) ∧
  (∀ (s : State), s.part.reset = false → s.part.boot = .stream → s.part.slotTried = 0 → s.bar.restartTrial = false →
      Ends (.firmwareStreamDone none) s (fun t => t.part.slotTried = 1 ∧ t.part.boot = .stream ∧ t.part.st = s.part.st)) ∧
  (∀ (s : State), s.part.reset = false → s.part.boot = .stream → s.part.slotTried ≠ 0 →
      Ends (.firmwareStreamDone none) s (fun t => t.part.st = .safe ∧ t.part.safeCause = .bootFailure ∧ t.part.boot = .failed)) ∧
  (∀ (ok : Bool) (s : State), s.part.reset = false → s.part.boot = .train →
      Ends (.lpddr4xTrainingDone ok) s (fun t => t.part.boot = .start ∧ t.mem.st = (if ok then .ready else .failed) ∧ (s.mem.retained = true → t.mem.ram = s.mem.ram ∧ t.eng = s.eng ∧ t.ev = s.ev) ∧ (s.mem.retained = false → (∀ p ∈ t.mem.ram, p.1 < 0x800000000) ∧ t.eng.lib = [] ∧ t.eng.bufA = none ∧ t.eng.bufB = none ∧ t.ev.history = []))) ∧
  (∀ (s : State), s.part.reset = false → s.part.boot = .start → s.part.st ≠ .safe →
      Ends (.partReady) s (fun t => t.part.st = .ready ∧ t.part.boot = .done ∧ t.oda.serving = true ∧ t.oda.bare = false ∧ t.ev.queue = [])) ∧
  (∀ (n : Fin 68) (s : State), (s.eng.tiles.get n).st = .none_ → s.part.st = .ready → n.val ∉ s.ident.absent → getN s (Obj.tileRetired n.val) ≠ 1 → imageNow s = none →
      Ends (.tileSelfTestDone n true) s (fun t => (t.eng.tiles.get n).st = restState s n ∧ ∀ m : Fin 68, m ≠ n → t.eng.tiles.get m = s.eng.tiles.get m)) ∧
  (∀ (n : Fin 68) (pass : Bool) (s : State), (s.eng.tiles.get n).st = .none_ → s.part.st = .ready →
      Ends (.tileSelfTestDone n pass) s (fun t => (n.val ∈ s.ident.absent → (t.eng.tiles.get n).st = .absent) ∧
      (n.val ∉ s.ident.absent → getN s (Obj.tileRetired n.val) = 1 ∨ pass = false → (t.eng.tiles.get n).st = .failed)))

/-- Table 11.2 for SAFE and main-die reset, and the end of service mode (R321, R325, R330, R336). -/
def Obligations.PartStatesAndRestarts : Prop :=
  (∀ (s : State), mayCommandSafe s = true →
      Ends (.wardenSafe) s (fun t => t.part.st = .safe ∧ t.part.safeCause = .warden ∧ t.part.safeFromRun = (s.part.st == .run) ∧ t.bar.holdOn = false)) ∧
  (∀ (s : State), s.part.st = .safe → s.part.safeCause = .warden → s.part.reset = false →
      Ends (.wardenRelease) s (fun t => t.part.st = .ready ∧ t.part.safeCause = .none ∧ t.part.safeFromRun = false ∧ t.part.boot = .done)) ∧
  (∀ (au : Auth) (kept : Bool) (s : State), s.oda.serving = true → precheck s au Obj.partRestart.key 0 (.num 1) = 0 → s.part.reset = false →
      Ends (.partRestart au kept) s (fun t => t.part.reset = true ∧ t.part.resetDue = s.clk.cycles + msCycles 200 ∧ t.part.st = .boot ∧ t.part.safeCause = .none ∧ t.oda.serving = false ∧ t.ev.up = false)) ∧
  (∀ (kept : Bool) (s : State), s.clk.running = true → s.part.reset = false → s.part.st ≠ .safe →
      Ends (.keepaliveLoss kept) s (fun t => t.part.reset = true ∧ t.part.resetDue = s.clk.cycles + msCycles 200 ∧ t.part.st = .boot ∧ t.oda.serving = false ∧ t.ev.up = false ∧ t.eng.running = false)) ∧
  (∀ (s : State), s.part.reset = true → s.part.resetDue ≠ 0 → (s.sq.get sSelf).st = .on → s.part.safeCause ≠ .sorghumOt →
      Ends (.mainDieResetEnd) s (fun t => t.part.reset = false ∧ t.part.boot = .puf ∧ t.part.st = (if s.part.st = .safe then .safe else .boot) ∧ t.part.resetDue = 0)) ∧
  (∀ (since : Nat) (s : State), s.clk.running = true → s.part.strap = false →
      Ends (.serviceStrapAsserted since) s (fun t => t.part.strap = true ∧ t.port.svcOn = true)) ∧
  (∀ (since : Nat) (s : State), s.part.strap = true →
      Ends (.serviceStrapDeasserted since) s (fun t => t.part.strap = false ∧ t.port.svcOn = false ∧ (∀ p ∈ t.oda.sessions, p.2.auth ≠ .service) ∧
      (∀ a : Fin 8, (t.acc.get a).reqS = .none ∧ getN t (Obj.serviceCapW a.val) = 0) ∧ getN t Obj.serviceTrayCapW = 0))

/-- R3 over the commands of resets, crashes, updates and thermal shutdown: branches, accelerator sequencers and power requests are untouched. S_SELF, which feeds the main die, is no part of it: R297 lets a thermal shutdown run its down list. -/
def Obligations.RyeHoldsThroughMainDieStops : Prop :=
  ∀ (c : Instr) (s : State), (match c with
      | .partRestart _ _ | .keepaliveLoss _ | .mainDieResetEnd | .fwRestart _ | .watchdogExpiry _ _ | .firmwareRestarted
      | .thermalShutdown _ _ _ | .updateImageWriteEnd _ _ | .updateProgramDone _ | .updateVerifyDone | .shadowStreamDone | .shadowHello _
      | .shadowBootTimeout | .shadowReady _ | .takeoverHoldStart | .takeoverFinal _ | .takeoverAccept _ | .takeover | .healthPass _
      | .healthFail _ _ | .updateHealthDeadline _ | .updateAbort _ _ | .updateConfirm _ | .updateCommitDone => True
      | _ => False) →
    Ends c s (fun t => t.br = s.br ∧ ∀ a : Fin 8, t.sq.get (seqOf a) = s.sq.get (seqOf a) ∧
      (t.acc.get a).reqF = (s.acc.get a).reqF ∧ (t.acc.get a).reqH = (s.acc.get a).reqH ∧ (t.acc.get a).reqS = (s.acc.get a).reqS ∧
      (t.acc.get a).reqP = (s.acc.get a).reqP ∧ (t.acc.get a).effective = (s.acc.get a).effective ∧ (t.acc.get a).quarantined = (s.acc.get a).quarantined ∧
      (t.acc.get a).thermalHold = (s.acc.get a).thermalHold ∧ (t.acc.get a).leakHold = (s.acc.get a).leakHold)

/-- The watchdogs and restarts of R335 and R431 to R434. -/
def Obligations.FirmwareRestartsAndWatchdogs : Prop :=
  (∀ (c : Fin 2) (s : State), wardenUp s c = true →
      Ends (.wdogKick c 0x5A5A) s (fun t => (t.bar.clusters.get c).wdogDue = s.clk.cycles + wdogCycles ∧ (t.bar.clusters.get c).warned = false ∧ (t.bar.clusters.get c).role = (s.bar.clusters.get c).role)) ∧
  (∀ (c : Fin 2) (v : Nat) (s : State), v ≠ 0x5A5A →
      Ends (.wdogKick c v) s (fun t => t = s)) ∧
  (∀ (c : Fin 2) (s : State), wardenUp s c = true → (s.bar.clusters.get c).warned = false →
      Ends (.wdogWarn c) s (fun t => (t.bar.clusters.get c).warned = true ∧ (t.bar.clusters.get c).wdogDue = (s.bar.clusters.get c).wdogDue)) ∧
  (∀ (au : Auth) (s : State), s.oda.serving = true → precheck s au Obj.fwRestart.key 0 (.num 1) = 0 → s.bar.upd = .idle →
      Ends (.fwRestart au) s (fun t => t.part.fwRestarting = true ∧ (t.bar.clusters.get (ctrl s)).crashCause = 2 ∧ getN t Obj.fwCrashes = getN s Obj.fwCrashes ∧ t.part.st = s.part.st)) ∧
  (∀ (c : Fin 2) (kept : Bool) (s : State), roleOf s c = .control → s.part.reset = false → s.part.crashTimes = [] → s.bar.upd = .idle →
      Ends (.watchdogExpiry c kept) s (fun t => t.part.fwRestarting = true ∧ (t.bar.clusters.get c).crashCause = 1 ∧ getN t Obj.fwCrashes = min (getN s Obj.fwCrashes + 1) 0xFFFFFFFF ∧ t.part.st = s.part.st ∧ t.part.reset = false)) ∧
  (∀ (c : Fin 2) (kept : Bool) (s : State), roleOf s c = .control → s.part.reset = false → s.part.st ≠ .safe → (s.part.crashTimes.filter (fun x => decide ((tickTo (s.bar.clusters.get c).wdogDue s).clk.cycles - x ≤ tenMin))).length = 3 →
      Ends (.watchdogExpiry c kept) s (fun t => t.part.reset = true ∧ t.part.st = .boot ∧ t.part.crashTimes = [])) ∧
  (∀ (s : State), s.part.fwRestarting = true →
      Ends (.firmwareRestarted) s (fun t => t.part.fwRestarting = false ∧ t.part.st = s.part.st)) ∧
  (∀ (c : Fin 2) (s : State), wardenUp s c = true →
      Ends (.l2Invalidate c 1) s (fun t => (t.bar.clusters.get c).l2Busy = true ∧ (t.bar.clusters.get c).l2Due = s.clk.cycles + usCycles 20)) ∧
  (∀ (c : Fin 2) (s : State), 
      Ends (.l2InvalidateDone c) s (fun t => (t.bar.clusters.get c).l2Busy = false ∧ (t.bar.clusters.get c).role = (s.bar.clusters.get c).role))

/-- R328 and R329: what a request write does to the requests and to the effective request. -/
def Obligations.PowerRequests : Prop :=
  (∀ (a : Fin 8) (v : Nat) (s : State), s.oda.serving = true → precheck s .facility (Obj.facilityReq a.val).key 0 (.num v) = 0 →
      Ends (.accelRequestWrite .facility a v) s (fun t => (t.acc.get a).reqF = reqOf v ∧ (t.acc.get a).reqH = (s.acc.get a).reqH ∧ (t.acc.get a).reqS = (s.acc.get a).reqS ∧ (t.acc.get a).reqP = (s.acc.get a).reqP ∧
      (t.acc.get a).effective = (t.acc.get a).wantsOn ∧ ∀ b : Fin 8, b ≠ a → (t.acc.get b).reqF = (s.acc.get b).reqF ∧ (t.acc.get b).effective = (s.acc.get b).effective)) ∧
  (∀ (a : Fin 8) (v : Nat) (s : State), s.oda.serving = true → precheck s .host (Obj.hostReq a.val).key 0 (.num v) = 0 →
      Ends (.accelRequestWrite .host a v) s (fun t => (t.acc.get a).reqH = reqOf v ∧ (t.acc.get a).reqF = (s.acc.get a).reqF ∧ (t.acc.get a).reqS = (s.acc.get a).reqS ∧ (t.acc.get a).effective = (t.acc.get a).wantsOn)) ∧
  (∀ (a : Fin 8) (v : Nat) (s : State), s.oda.serving = true → precheck s .service (Obj.serviceReq a.val).key 0 (.num v) = 0 →
      Ends (.accelRequestWrite .service a v) s (fun t => (t.acc.get a).reqS = reqOf v ∧ (t.acc.get a).reqF = (s.acc.get a).reqF ∧ (t.acc.get a).reqH = (s.acc.get a).reqH ∧ (t.acc.get a).effective = (t.acc.get a).wantsOn))

/-- The refresh and the fallbacks of R30 and R31 for the three kinds of Straw-fed values, with the slots of R226 to R228 and the application of R214. That set points outside RUN apply on receipt is the model's choice (log 71). -/
def Obligations.StrawValuesAndFallbacks : Prop :=
  (∀ (a : Fin 8) (n w : Nat) (s : State), s.ani.formed.get a = some (n, w) → now s ≤ startOf s n + 5960 →
      Ends (.strawValueReceived (.ant a)) s (fun t => t.ani.words.get a = some (n, w) ∧ t.ani.formed.get a = none ∧ t.nums = s.nums ∧ ∀ b : Fin 8, b ≠ a → t.ani.words.get b = s.ani.words.get b)) ∧
  (∀ (a : Fin 8) (n w : Nat) (s : State), s.ani.formed.get a = some (n, w) → startOf s n + 5960 < now s →
      Ends (.strawValueReceived (.ant a)) s (fun t => t.ani.words = s.ani.words ∧ getN t (Obj.antLate a.val) = min (getN s (Obj.antLate a.val) + 1) 0xFFFFFFFF)) ∧
  (∀ (b : Fin 12) (cs : List Nat) (s : State), s.ani.curves.get b = some cs →
      Ends (.strawValueReceived (.curve b)) s (fun t => (t.br.get b).adaptedNext = some cs ∧ (t.br.get b).adapted = (s.br.get b).adapted ∧ t.ani.curves.get b = none ∧ ∀ x : Fin 12, x ≠ b → t.br.get x = s.br.get x)) ∧
  (∀ (o : Fin 24) (v : Nat) (s : State), s.ani.sent.get o = some v → Fmt.f32.isFinite v = true → s.part.st ≠ .run →
      Ends (.strawValueReceived (.output o)) s (fun t => (t.cool.outs.get o).setPoint = f32ToRat v ∧ (t.cool.outs.get o).fresh = true ∧ (t.cool.outs.get o).due = s.clk.cycles + msCycles 5 ∧
      ((t.cool.outs.get o).st, (t.cool.outs.get o).applied) = outRule t o ∧ ∀ x : Fin 24, x ≠ o → t.cool.outs.get x = s.cool.outs.get x)) ∧
  (∀ (o : Fin 24) (v : Nat) (s : State), s.ani.sent.get o = some v → Fmt.f32.isFinite v = true → s.part.st = .run →
      Ends (.strawValueReceived (.output o)) s (fun t => (t.cool.outs.get o).delivered = some (f32ToRat v) ∧ (t.cool.outs.get o).applied = (s.cool.outs.get o).applied ∧ t.ani.sent.get o = none)) ∧
  (∀ (s : State), slotsRun s = true →
      Ends (.curveApply) s (fun t => (∀ b : Fin 12, (s.br.get b).adaptedNext.isSome = true →
        (t.br.get b).adapted = (s.br.get b).adaptedNext ∧ (t.br.get b).adaptedNext = none ∧ (t.br.get b).adaptedDue = t.clk.cycles + 2 * (frameNs s / 40)) ∧
      ∀ (o : Fin 24), (s.cool.outs.get o).delivered.isSome = true →
        some (t.cool.outs.get o).setPoint = (s.cool.outs.get o).delivered ∧ (t.cool.outs.get o).delivered = none ∧ (t.cool.outs.get o).fresh = true)) ∧
  (∀ (a : Fin 8) (s : State), slotsRun s = true → (s.ani.words.get a).map Prod.fst ≠ some (slotFor 5960 s) →
      Ends (.strawDeadlineExpired (.ant a)) s (fun t => t.ani.words.get a = none ∧ ∀ b : Fin 8, b ≠ a → t.ani.words.get b = s.ani.words.get b)) ∧
  (∀ (b : Fin 12) (cs : List Nat) (s : State), (s.br.get b).adapted = some cs → (s.br.get b).adaptedNext = none →
      Ends (.strawDeadlineExpired (.curve b)) s (fun t => (t.br.get b).adapted = none ∧ ∀ x : Fin 12, x ≠ b → t.br.get x = s.br.get x)) ∧
  (∀ (o : Fin 24) (s : State), (s.cool.outs.get o).fresh = true →
      Ends (.strawDeadlineExpired (.output o)) s (fun t => (t.cool.outs.get o).fresh = false ∧ ((t.cool.outs.get o).st, (t.cool.outs.get o).applied) = outRule t o ∧ ∀ x : Fin 24, x ≠ o → t.cool.outs.get x = s.cool.outs.get x)) ∧
  (∀ (a : Fin 8) (ns n w : Nat) (s : State), s.ani.formed.get a = some (n, w) → now (reachCount (startOf s n + ns) s) ≤ startOf s n + 5960 →
      Ends (.antWordDelivered a ns) s (fun t => t.ani.words.get a = some (n, w) ∧ t.ani.formed.get a = none)) ∧
  (∀ (a : Fin 8) (s : State), slotsRun s = true → antEnabled (reachCount (startOf s (slotFor 6080 s) + 6080) s) a (slotFor 6080 s) = false →
      Ends (.antSlot) s (fun t => t.ani.antLine.get a = none)) ∧
  (∀ (a : Fin 8) (s : State), slotsRun s = true → antEnabled (reachCount (startOf s (slotFor 6080 s) + 6080) s) a (slotFor 6080 s) = true → s.ani.words.get a = none →
      Ends (.antSlot) s (fun t => t.ani.antLine.get a = some (noForecastWord (slotFor 6080 s)) ∧ getN t (Obj.antLastWord a.val) = noForecastWord (slotFor 6080 s))) ∧
  (∀ (a : Fin 8) (w : Nat) (s : State), slotsRun s = true → antEnabled (reachCount (startOf s (slotFor 6080 s) + 6080) s) a (slotFor 6080 s) = true → s.ani.words.get a = some (slotFor 6080 s, w) → accelOn s a = true → mainUp s = true →
      Ends (.antSlot) s (fun t => t.ani.antLine.get a = some w ∧ getN t (Obj.antLastWord a.val) = w))

/-- Table 2.2 with R48 to R52, R55 and R56: every transition of TIME_STATE and every step of the count. -/
def Obligations.TimeServoAndState : Prop :=
  (∀ (p : Fin 2) (x : PtpIn) (freq : Int) (s : State), mainUp s = true → hostUp s p = true → getN s (Obj.ptpProfile p.val) ≠ 0 → x.domain = getN s Obj.ptpDomain → sourceNow s = 1 → s.port.followed = some p.val → (hearSync p x s).port.followed = some p.val → s.clk.state = .acquiring → s.clk.below = 15 → (ptpOffset p x s).natAbs < 10 → (ptpOffset p x s).natAbs ≤ getN s Obj.stepThresholdNs →
      Ends (.ptpMeasurement p x freq) s (fun t => t.clk.state = .locked ∧ t.clk.offset = ptpOffset p x s ∧ t.clk.freqPpb = clampPpb freq ∧ t.clk.slew = -(ptpOffset p x s) * two32 ∧ t.clk.epoch = s.clk.epoch ∧ t.clk.base = s.clk.base)) ∧
  (∀ (p : Fin 2) (x : PtpIn) (freq : Int) (s : State), mainUp s = true → hostUp s p = true → getN s (Obj.ptpProfile p.val) ≠ 0 → x.domain = getN s Obj.ptpDomain → sourceNow s = 1 → s.port.followed = some p.val → (hearSync p x s).port.followed = some p.val → s.clk.state = .locked → s.clk.above = 3 → 40 < (ptpOffset p x s).natAbs → (ptpOffset p x s).natAbs ≤ getN s Obj.stepThresholdNs →
      Ends (.ptpMeasurement p x freq) s (fun t => t.clk.state = .acquiring ∧ t.clk.above = 0 ∧ t.clk.epoch = s.clk.epoch ∧ t.clk.base = s.clk.base)) ∧
  (∀ (p : Fin 2) (x : PtpIn) (freq : Int) (s : State), mainUp s = true → hostUp s p = true → getN s (Obj.ptpProfile p.val) ≠ 0 → x.domain = getN s Obj.ptpDomain → sourceNow s = 1 → (hearSync p x s).port.followed = some p.val → getN s Obj.stepThresholdNs < (ptpOffset p x s).natAbs → mayStep s = true →
      Ends (.ptpMeasurement p x freq) s (fun t => t.clk.state = .acquiring ∧ t.clk.epoch = (s.clk.epoch + 1) % 2 ^ 32 ∧ t.clk.base = ((s.clk.base : Int) - ptpOffset p x s * two32).toNat % 2 ^ 96 ∧ t.clk.slew = 0)) ∧
  (∀ (p : Fin 2) (x : PtpIn) (freq : Int) (s : State), mainUp s = true → hostUp s p = true → getN s (Obj.ptpProfile p.val) ≠ 0 → x.domain = getN s Obj.ptpDomain → sourceNow s = 1 → (hearSync p x s).port.followed = some p.val → getN s Obj.stepThresholdNs < (ptpOffset p x s).natAbs → mayStep s = false →
      Ends (.ptpMeasurement p x freq) s (fun t => t.clk.state = .acquiring ∧ t.clk.epoch = s.clk.epoch ∧ t.clk.base = s.clk.base ∧ t.clk.slew = -(ptpOffset p x s) * two32)) ∧
  (∀ (count : Nat) (freq : Int) (s : State), mainUp s = true → getN s Obj.syncRole = 2 → sourceNow s = 3 → 100 < (edgeOffset s count).natAbs →
      Ends (.syncInEdge count freq) s (fun t => t.clk.rejected = s.clk.rejected + 1 ∧ t.clk.accepted = 0 ∧ t.clk.slew = s.clk.slew ∧ t.clk.freqPpb = s.clk.freqPpb ∧ t.clk.state = s.clk.state ∧ (s.clk.rejected = 2 → t.clk.syncAlone = true))) ∧
  (∀ (count : Nat) (freq : Int) (s : State), mainUp s = true → getN s Obj.syncRole = 2 → sourceNow s = 3 → (edgeOffset s count).natAbs ≤ 100 → s.clk.syncAlone = false → (edgeOffset s count).natAbs ≤ getN s Obj.stepThresholdNs →
      Ends (.syncInEdge count freq) s (fun t => t.clk.rejected = 0 ∧ t.clk.offset = edgeOffset s count ∧ t.clk.freqPpb = clampPpb freq ∧ t.clk.slew = -(edgeOffset s count) * two32 ∧ t.clk.base = s.clk.base)) ∧
  (∀ (due : Nat) (s : State), s.clk.intervalDue = some due → (s.clk.state = .locked ∨ s.clk.state = .acquiring) →
      Ends (.measurementTimeout) s (fun t => t.clk.state = .holdover ∧ t.clk.freqPpb = s.clk.freqPpb ∧ t.clk.slew = 0 ∧ t.clk.intervalDue = none ∧ t.clk.holdoverDue = some (t.clk.cycles + sCycles (getN s Obj.holdoverLimitS)))) ∧
  (∀ (due : Nat) (s : State), s.clk.holdoverDue = some due → s.clk.state = .holdover →
      Ends (.timeHoldoverExpired) s (fun t => t.clk.state = .free ∧ t.clk.holdoverDue = none ∧ t.clk.freqPpb = s.clk.freqPpb)) ∧
  (∀ (au : Auth) (s : State), s.oda.serving = true → precheck s au Obj.timeSource.key 0 (.num 0) = 0 →
      Ends (.timeSourceChanged au 0) s (fun t => getN t Obj.timeSource = 0 ∧ (s.clk.state ≠ .free → t.clk.state = .free ∧ t.clk.slew = 0 ∧ t.clk.intervalDue = none) ∧ t.clk.base = s.clk.base ∧ t.clk.epoch = s.clk.epoch)) ∧
  (∀ (au : Auth) (v : Nat) (s : State), s.oda.serving = true → v ≠ 0 → precheck s au Obj.timeSource.key 0 (.num v) = 0 → s.clk.state = .locked → sourceNow s ≠ v → (v = 1 → getN s (Obj.ptpProfile 0) ≠ 0 ∨ getN s (Obj.ptpProfile 1) ≠ 0) →
      Ends (.timeSourceChanged au v) s (fun t => getN t Obj.timeSource = v ∧ t.clk.state = .acquiring ∧ t.clk.below = 0 ∧ t.clk.above = 0 ∧ t.clk.base = s.clk.base)) ∧
  (∀ (au : Auth) (v : Nat) (s : State), s.oda.serving = true → precheck s au Obj.timeSet.key 0 (.num v) = 0 → sourceNow s = 0 → mayStep s = true →
      Ends (.timeSet au v) s (fun t => t.clk.base = v * two32 ∧ now t = v ∧ t.clk.epoch = (s.clk.epoch + 1) % 2 ^ 32 ∧ t.clk.state = .free ∧ t.clk.slew = 0)) ∧
  (∀ (au : Auth) (v : Nat) (s : State), s.oda.serving = true → precheck s au Obj.timeSet.key 0 (.num v) = 0 → timeSetHome s ≠ 0 →
      Ends (.timeSet au v) s (fun t => t.clk = s.clk ∧ (t.oda.answer.map (fun x => x.status)) = some 0x00050008))

/-- R54, R60 and R62 in terms of the count: where an edge falls, and what the two launch objects change. -/
def Obligations.SyncOutAndLaunchObjects : Prop :=
  (∀ (s : State), s.clk.running = true → (getN s Obj.syncRole = 1 ∨ getN s Obj.syncRole = 3) → s.clk.syncOut = none →
      Ends (.syncOutEdge) s (fun t => t.clk.syncOut = some (ceilDiv (now s) (syncPeriodNs s) * syncPeriodNs s) ∧ t.clk.epoch = s.clk.epoch ∧ t.clk.state = s.clk.state)) ∧
  (∀ (s : State), s.clk.running = true → getN s Obj.syncRole = 4 → s.part.st = .run → s.eng.any = true →
      Ends (.syncOutEdge) s (fun t => t.clk.syncOut = some (getN s Obj.launchAt + s.eng.frame * frameNs s) ∧ t.clk.base = s.clk.base)) ∧
  (∀ (au : Auth) (v : Nat) (s : State), s.oda.serving = true → precheck s au Obj.launchAt.key 0 (.num v) = 0 → v ≠ 0 → acceptCount s + 5000000 ≤ v →
      Ends (.launchAt au v) s (fun t => getN t Obj.launchAt = v ∧ t.eng.next = 0 ∧ t.eng.any = false ∧ t.eng.cutoff = none ∧ t.clk.lastAccept = acceptCount s ∧ t.ev = s.ev)) ∧
  (∀ (au : Auth) (v : Nat) (s : State), s.oda.serving = true → precheck s au Obj.launchAt.key 0 (.num v) = 0 → v ≠ 0 → v < acceptCount s + 5000000 →
      Ends (.launchAt au v) s (fun t => t.nums = s.nums ∧ t.eng = s.eng ∧ (t.oda.answer.map (fun x => x.status)) = some 0x00040202)) ∧
  (∀ (au : Auth) (s : State), s.oda.serving = true → precheck s au Obj.launchAt.key 0 (.num 0) = 0 →
      Ends (.launchAt au 0) s (fun t => getN t Obj.launchAt = 0 ∧ t.part = s.part ∧ t.eng.next = 0)) ∧
  (∀ (au : Auth) (v : Nat) (s : State), s.oda.serving = true → precheck s au Obj.frameStopAt.key 0 (.num v) = 0 → startOf s s.eng.next < v →
      Ends (.frameStopAt au v) s (fun t => getN t Obj.frameStopAt = v ∧ getN t Obj.launchAt = getN s Obj.launchAt ∧ t.part.st = s.part.st ∧ t.eng = s.eng)) ∧
  (∀ (au : Auth) (v : Nat) (s : State), s.oda.serving = true → precheck s au Obj.frameStopAt.key 0 (.num v) = 0 → v ≠ 0 → s.eng.running = true → s.eng.mainDone = true → s.eng.next ≠ 0 → v ≤ startOf s s.eng.next →
      Ends (.frameStopAt au v) s (fun t => t.part.st = .ready ∧ t.eng.running = false ∧ getN t Obj.launchAt = 0 ∧ getN t Obj.frameStopAt = 0))

/-- R59 to R65 and R163 with the condition of R322: which frame runs, and with what. -/
def Obligations.LaunchCutoffAndRejoin : Prop :=
  (∀ (s : State), getN s Obj.launchAt ≠ 0 → s.eng.any = false → canRun s = true → activating s = false → s.eng.ring.replay ≠ .running →
      Ends (.launch) s (fun t => t.part.st = .run ∧ t.eng.running = true ∧ t.eng.any = true ∧ t.eng.next = s.eng.next ∧ t.img = s.img)) ∧
  (∀ (s : State), getN s Obj.launchAt ≠ 0 → s.eng.any = false → canRun s = false →
      Ends (.launch) s (fun t => getN t Obj.launchAt = 0 ∧ t.part = s.part ∧ t.eng.cutoff = none ∧ t.eng.running = s.eng.running)) ∧
  (∀ (s : State), getN s Obj.launchAt ≠ 0 → s.part.st = .run → s.eng.cutoff = none →
      Ends (.frameCutoff) s (fun t => t.eng.cutoff = some s.eng.next ∧ t.eng.arriving = [] ∧ t.eng.next = s.eng.next ∧ t.part = s.part)) ∧
  (∀ (s : State), s.eng.cutoff = some s.eng.next → s.part.st = .run → s.eng.mainDone = true → runsFrame s s.eng.next = true →
      Ends (.frameStart) s (fun t => t.eng.frame = s.eng.next ∧ t.eng.next = s.eng.next + 1 ∧ t.eng.cutoff = none ∧ t.eng.p0Done = false ∧ t.eng.mainDone = false ∧ t.part.st = .run ∧ t.eng.cur.frame = s.eng.next ∧ t.eng.cur.skipped = false)) ∧
  (∀ (s : State), s.eng.cutoff = some s.eng.next → s.part.st = .run → s.eng.mainDone = true → runsFrame s s.eng.next = false →
      Ends (.frameStart) s (fun t => t.eng.frame = s.eng.next ∧ t.eng.next = s.eng.next + 1 ∧ t.eng.mainDone = true ∧ getN t Obj.framesSkipped = min (getN s Obj.framesSkipped + 1) 0xFFFFFFFFFFFFFFFF)) ∧
  (∀ (lostNew lostOld : Bool) (badNew badOld : List Nat) (s : State), s.part.restorePending = true → s.part.st = .ready →
      Ends (.checkpointRestoreDone lostNew lostOld badNew badOld) s (fun t => t.part.restorePending = false ∧ t.part.restored = true ∧ t.part.restoredAt = now s ∧ t.clk = s.clk ∧ t.nums = s.nums)) ∧
  (∀ (badNew badOld : List Nat) (k : Nat) (s : State), s.part.restorePending = true → s.part.st = .ready →
      Ends (.checkpointRestoreDone true true badNew badOld) s (fun t => (getSess t k).live = false)) ∧
  (∀ (s : State), getN s Obj.launchAt ≠ 0 → s.eng.any = true → canRun s = true → activating s = false → s.part.restorePending = false → s.part.restored = true → getN s Obj.frameStopAt = 0 →
      Ends (.engineRejoin) s (fun t => t.part.st = .run ∧ t.eng.running = true ∧ t.eng.next = rejoinFrame s ∧ t.eng.cutoff = some (rejoinFrame s) ∧ t.part.restored = false))

/-- R65, R66, R138, R139 and R160 for one sample, one session and one checkpoint. That a sample outside an armed launch stands only as the last one is deduced (log 26). -/
def Obligations.FrameInputsAndOutputs : Prop :=
  (∀ (src sample arrival : Nat) (v : Int) (kept : Bool) (s : State), s.part.st = .ready → sourceOk src = true → noValue s src = false → getN s Obj.launchAt = 0 →
      Ends (.sampleArrival src arrival kept (.int sample v)) s (fun t => look t.eng.samples src = some ⟨sample, arrival, fInt v, fInt v, false, 0⟩ ∧ t.eng.arriving = s.eng.arriving ∧ t.eng.sess = s.eng.sess)) ∧
  (∀ (src sample arrival : Nat) (v : Int) (kept : Bool) (s : State), s.part.st = .run → sourceOk src = true → noValue s src = false → inLaunch s arrival = true → actualFrame s arrival = s.eng.next → look s.eng.samples src = none → look s.eng.arriving src = none →
      Ends (.sampleArrival src arrival kept (.int sample v)) s (fun t => look t.eng.arriving src = some ⟨sample, arrival, fInt v, fInt v, decide (frameOfCount s (sample + nominalNs s src kept) < s.eng.next), frameOfCount s (sample + nominalNs s src kept)⟩ ∧ t.eng.samples = s.eng.samples)) ∧
  (∀ (src sample arrival : Nat) (v : Int) (kept : Bool) (old : Sample) (s : State), s.part.st = .run → sourceOk src = true → noValue s src = false → inLaunch s arrival = true → actualFrame s arrival = s.eng.next → look s.eng.samples src = some old → sample ≤ old.count →
      Ends (.sampleArrival src arrival kept (.int sample v)) s (fun t => t.eng.arriving = s.eng.arriving ∧ t.eng.samples = s.eng.samples ∧ t.eng.early = s.eng.early)) ∧
  (∀ (k w : Nat) (x : Sess) (o : LaneOut) (s : State), s.eng.running = true → s.eng.p0Done = false → k ∈ activeSessions (atP0Emit s) → getSess (atP0Emit s) k = x → laneOut (atP0Emit s) x.lane x.state.length = o → o.word = some w → o.bad = false → x.eff.cls = 0 → x.eff.replica = false → x.poisoned = false → (look (atP0Emit s).eng.tokens k).isSome = true → look (atP0Emit s).eng.records k = none →
      Ends (.p0Emit) s (fun t => t.eng.p0Done = true ∧ t.eng.mainDone = s.eng.mainDone ∧ (getSess t k).state = o.state.getD x.state ∧
      look t.eng.records k = some (formRecord k s.eng.frame x.lastToken x.eff (midsOf (atP0Emit s) x.eff.codebook) x (rawOf w (o.state.getD x.state)) x.frameFlags false))) ∧
  (∀ (k w : Nat) (x : Sess) (o : LaneOut) (s : State), s.eng.running = true → s.eng.p0Done = true → s.eng.mainDone = false → k ∈ activeSessions (atMainEmit s) → getSess (atMainEmit s) k = x → laneOut (atMainEmit s) x.lane x.state.length = o → o.word = some w → o.bad = false → x.eff.cls ≠ 0 → x.eff.replica = false → x.poisoned = false → (look (atMainEmit s).eng.tokens k).isSome = true → look (atMainEmit s).eng.records k = none →
      Ends (.mainEmit) s (fun t => t.eng.mainDone = true ∧ (s.eng.frame, k, formRecord k s.eng.frame x.lastToken x.eff (midsOf (atMainEmit s) x.eff.codebook) x (rawOf w (o.state.getD x.state)) x.frameFlags false) ∈ t.eng.output)) ∧
  (∀ (k : Ckpt) (s : State), s.eng.writing = some k → seqWaits s 0 = false →
      Ends (.checkpointCommit) s (fun t => newestCkpt t = some k ∧ otherCkpt t = newestCkpt s ∧ t.eng.writing = none ∧ t.eng.ckptStale = false ∧ getN t Obj.ckptFrame = k.frame ∧ getN t Obj.ckptBytes = k.length ∧ t.eng.sess = s.eng.sess)) ∧
  (∀ (r : EvRec) (l : List EvRec) (s : State), s.ev.up = true → sortRecs s.ev.held = r :: l →
      Ends (.eventNumbered) s (fun t => t.ev.nextSeq = s.ev.nextSeq + 1 ∧ t.ev.history = keepHistory s.ev.history { r with seq := s.ev.nextSeq } ∧ t.ev.queue = s.ev.queue))

/-- R76 to R81 and R88 for one tile; the tiles the statement does not name may change only through a replacement. That an error criterion acts at the end of the frame is deduced (log 27). -/
def Obligations.TileErrorsAndRetirement : Prop :=
  (∀ (n : Fin 68) (s : State), ((s.eng.tiles.get n).ceAt.filter (fun c => decide (mainNow s < c + 1000000000))).length < 65536 →
      Ends (.correctedError n) s (fun t => getN t (Obj.tileCeCount n.val) = min (getN s (Obj.tileCeCount n.val) + 1) 0xFFFFFFFF ∧ (t.eng.tiles.get n).log = true ∧ (t.eng.tiles.get n).st = (s.eng.tiles.get n).st ∧ ∀ m : Fin 68, m ≠ n → t.eng.tiles.get m = s.eng.tiles.get m)) ∧
  (∀ (n : Fin 68) (offset : Nat) (s : State), offset < 0x300000 → (s.eng.tiles.get n).ueAt.filter (fun f => within64 s f) = [] →
      Ends (.uncorrectableWord n offset false false) s (fun t => getN t (Obj.tileUeCount n.val) = min (getN s (Obj.tileUeCount n.val) + 1) 0xFFFFFFFF ∧ (t.eng.tiles.get n).ueOffset = offset ∧ (t.eng.tiles.get n).ueFrame = s.eng.frame ∧ s.clk.cycles ∈ (t.eng.tiles.get n).ueAt ∧
      offset / 32 ∈ (t.eng.tiles.get n).poison ∧ (t.eng.tiles.get n).st = (s.eng.tiles.get n).st ∧ t.eng.cur.uncorrectable = true)) ∧
  (∀ (n : Fin 68) (offset k u : Nat) (s : State), (s.eng.tiles.get n).ueAt.filter (fun f => within64 s f) = [] → (getSess s k).live = true → (getSess s k).stopUntil = some u → stoppedAt s n (offset / 32) = [k] →
      Ends (.uncorrectableWord n offset false false) s (fun t => (getSess t k).stopUntil = some (u + 1) ∧ (getSess t k).state = (getSess s k).state)) ∧
  (∀ (n : Fin 68) (offset : Nat) (s : State), (s.eng.tiles.get n).ueAt.filter (fun f => within64 s f) ≠ [] → (s.eng.tiles.get n).st = .active → s.part.st = .run → s.eng.running = true → s.eng.mainDone = false →
      Ends (.uncorrectableWord n offset false false) s (fun t => (t.eng.tiles.get n).failNow = true ∧ (t.eng.tiles.get n).st = .active)) ∧
  (∀ (au : Auth) (n : Fin 68) (s : State), s.oda.serving = true → precheck s au (Obj.tileRetired n.val).key 0 (.num 1) = 0 → s.part.st = .run → s.eng.running = true → s.eng.mainDone = false → (s.eng.tiles.get n).st = .gated →
      Ends (.tileRetiredSet au n) s (fun t => getN t (Obj.tileRetired n.val) = 1 ∧ (t.eng.tiles.get n).failNow = true ∧ (t.eng.tiles.get n).st = .gated)) ∧
  (∀ (au : Auth) (n : Fin 68) (s : State), s.oda.serving = true → precheck s au (Obj.tileRetired n.val).key 0 (.num 1) = 0 → s.part.st = .ready → (s.eng.tiles.get n).st = .gated →
      Ends (.tileRetiredSet au n) s (fun t => getN t (Obj.tileRetired n.val) = 1 ∧ (t.eng.tiles.get n).st = .failed)) ∧
  (∀ (au : Auth) (n : Fin 68) (s : State), s.oda.serving = true → precheck s au (Obj.tileRetired n.val).key 0 (.num 0) = 0 → s.part.st = .ready → n.val ∉ s.ident.absent → (s.eng.tiles.get n).st = .failed →
      Ends (.tileRetiredClear au n) s (fun t => getN t (Obj.tileRetired n.val) = 0 ∧ (t.eng.tiles.get n).st = .failed ∧ (t.eng.tiles.get n).testing = true ∧ ∀ m : Fin 68, m ≠ n → t.eng.tiles.get m = s.eng.tiles.get m)) ∧
  (∀ (n : Fin 68) (c : Fin 32) (h : HeldBurst) (b : Burst) (rest : List Burst) (w : Bool) (s : State), waiterAt s n = some (c, h) → restOf (advance c (tickTo (h.since + 2 * frameNs s / 40) s)) c = b :: rest → waitsAt (advance c (tickTo (h.since + 2 * frameNs s / 40) s)) b = some (n, h.bank, w) → (chanAt (advance c (tickTo (h.since + 2 * frameNs s / 40) s)) c).st = .running →
      Ends (.stagingTimeout n) s (fun t => (t.mem.dma.get c).st = .halted ∧ (t.mem.dma.get c).errCause = 5 ∧ (t.mem.dma.get c).errDir = w ∧ (t.mem.dma.get c).errAddr = (if w then b.dst else b.src)))

/-- Table 4.5 and R126 to R128 for opening, closing and refusing, with the loads of R147 and R148. -/
def Obligations.SessionsOpenAndClose : Prop :=
  (∀ (au : Auth) (n : Fin 10240) (d : Desc) (s : State), s.oda.serving = true → precheck s au (0x440000 + n.val) 0 (.bytes ({ d with openBit := true } : Desc).bytes) = 0 → descHome au n.val { d with openBit := true } true s = 0 → (getSess s n.val).st = .closed →
      Ends (.sessionOpenRequest au n d) s (fun t => (getSess t n.val).st = .pending ∧ (getSess t n.val).desc = { d with openBit := true } ∧ (getSess t n.val).opener = some au ∧ (getSess t n.val).lane ∈ freeLanes s d.cls ((modelOf s d.model).map (fun m => m.shape) |>.getD 0) d.replica ∧
      t.part = s.part ∧ ∀ k : Fin 10240, k ≠ n → getSess t k.val = getSess s k.val)) ∧
  (∀ (au : Auth) (n : Fin 10240) (d : Desc) (s : State), s.oda.serving = true → precheck s au (0x440000 + n.val) 0 (.bytes ({ d with openBit := true } : Desc).bytes) = 0 → descHome au n.val { d with openBit := true } true s ≠ 0 →
      Ends (.sessionOpenRequest au n d) s (fun t => (getSess t n.val).st = (getSess s n.val).st ∧ (getSess t n.val).desc = (getSess s n.val).desc ∧ (getSess t n.val).lastError = descHome au n.val { d with openBit := true } true s ∧
      (t.oda.answer.map (fun x => x.status)) = some (descHome au n.val { d with openBit := true } true s) ∧ ∀ k : Fin 10240, k ≠ n → getSess t k.val = getSess s k.val)) ∧
  (∀ (au : Auth) (n : Fin 10240) (d : Desc) (s : State), s.oda.serving = true → precheck s au (0x440000 + n.val) 0 (.bytes ({ d with openBit := false } : Desc).bytes) = 0 → descHome au n.val { d with openBit := false } true s = 0 → (getSess s n.val).st = .opened →
      Ends (.sessionCloseRequest au n d) s (fun t => (getSess t n.val).st = .closing ∧ (getSess t n.val).closeCount = some (acceptCount s) ∧ (getSess t n.val).switch = none ∧ (getSess t n.val).desc = { d with openBit := false } ∧
      (getSess t n.val).state = (getSess s n.val).state ∧ ∀ k : Fin 10240, k ≠ n → getSess t k.val = getSess s k.val)) ∧
  (∀ (d : Load) (rest : List Load) (k : Nat) (s : State), s.eng.loads = d :: rest → (getSess s k).st = .pending → laneTile s (getSess s k).lane = d.tile → (getSess s k).desc.model = d.model → (getSess s k).desc.replica = false → (getSess s k).openReady = none → d.slot < 64 → (slotKey s d.tile d.slot).isSome = true → d.twin = none → s.img.repls = [] → seqWaits s 17 = false → (∀ p ∈ d.places, placeReached s p = true) →
      Ends (.modelLoadDone true) s (fun t => (getSess t k).openReady = some (mainNow s) ∧ (getSess t k).st = .pending ∧ t.eng.loads.map (fun x => x.model) = rest.map (fun x => x.model))) ∧
  (∀ (d : Load) (rest : List Load) (k : Nat) (s : State), s.eng.loads = d :: rest → (getSess s k).st = .pending → laneTile s (getSess s k).lane = d.tile → (getSess s k).desc.model = d.model → (getSess s k).openReady = none → (getSess s k).switch = none → s.img.repls = [] →
      Ends (.modelLoadDone false) s (fun t => (getSess t k).st = .closed ∧ (getSess t k).lastError = 0x00070107))

/-- R133, R141 and R144: the codebook store and the model library. -/
def Obligations.CodebooksAndModels : Prop :=
  (∀ (au : Auth) (c : Fin 4096) (bytes : List Byte) (s : State), s.oda.serving = true → precheck s au (0x413000 + c.val) 0 (.bytes bytes) = 0 → codebookHome c.val bytes s = 0 → bytes ≠ [] →
      Ends (.codebookWrite au c bytes) s (fun t => look t.eng.books c.val = some ⟨codebookOf bytes, midpoints (codebookOf bytes)⟩ ∧ (∀ k : Fin 4096, k ≠ c → look t.eng.books k.val = look s.eng.books k.val) ∧ t.eng.sess = s.eng.sess)) ∧
  (∀ (au : Auth) (c : Fin 4096) (s : State), s.oda.serving = true → precheck s au (0x413000 + c.val) 0 (.bytes []) = 0 → codebookHome c.val [] s = 0 →
      Ends (.codebookWrite au c []) s (fun t => look t.eng.books c.val = none ∧ ∀ k : Fin 4096, k ≠ c → look t.eng.books k.val = look s.eng.books k.val)) ∧
  (∀ (au : Auth) (m : Fin 4096) (bytes : List Byte) (s : State), s.oda.serving = true → precheck s au (0x411000 + m.val) 0 (.bytes []) = 0 → modelHome m.val bytes.length s = 0 →
      Ends (.modelImageWrite au m bytes) s (fun t => look t.eng.lib m.val = (if bytes = [] then none else some ⟨.verifying, bytes, none⟩) ∧ ∀ k : Fin 4096, k ≠ m → look t.eng.lib k.val = look s.eng.lib k.val)) ∧
  (∀ (m : Fin 4096) (bytes : List Byte) (old : Option Model) (s : State), look s.eng.lib m.val = some ⟨.verifying, bytes, old⟩ →
      Ends (.modelVerified m) s (fun t => look t.eng.lib m.val = some (if modelOk (parseModel bytes) && signedBy s bytes (parseModel bytes).sigOff then ⟨.valid, bytes, some (parseModel bytes)⟩ else ⟨.refused, bytes, none⟩) ∧ t.eng.books = s.eng.books ∧ t.acc = s.acc))

/-- R171, R172 and R174 to R179. -/
def Obligations.RingsFreezeResumeReplay : Prop :=
  (∀ (au : Auth) (s : State), s.oda.serving = true → precheck s au Obj.ringFreeze.key 0 (.num 1) = 0 →
      Ends (.ringFreeze au) s (fun t => t.eng.ring.st = (if s.eng.ring.st = .replaying then .replaying else .frozen) ∧ t.eng.ring.blocks = s.eng.ring.blocks ∧ t.eng.ring.bases = s.eng.ring.bases ∧ t.eng.ring.dec = s.eng.ring.dec ∧ t.eng.ring.decBases = s.eng.ring.decBases ∧ t.eng.ring.freezeDue = some (s.clk.cycles + sCycles (getN s Obj.freezeMaxS)) ∧ t.eng.ring.trigger = none ∧ getN t Obj.ringFreeze = 1 ∧ t.eng.sess = s.eng.sess)) ∧
  (∀ (au : Auth) (s : State), s.oda.serving = true → precheck s au Obj.ringFreeze.key 0 (.num 0) = 0 → s.eng.ring.st = .frozen →
      Ends (.ringResume au) s (fun t => t.eng.ring.st = (if s.part.st = .run then .recording else .idle) ∧ t.eng.ring.blocks = [] ∧ t.eng.ring.bases = [] ∧ t.eng.ring.dec = [] ∧ t.eng.ring.decBases = [] ∧ getN t Obj.ringFreeze = 0)) ∧
  (∀ (au : Auth) (s : State), s.oda.serving = true → precheck s au Obj.ringFreeze.key 0 (.num 0) = 0 → s.eng.ring.st ≠ .frozen →
      Ends (.ringResume au) s (fun t => t.eng.ring = { s.eng.ring with freezeDue := none } ∧ getN t Obj.ringFreeze = 0 ∧ t.eng.sess = s.eng.sess)) ∧
  (∀ (due : Nat) (s : State), s.eng.ring.trigger = some due →
      Ends (.postTriggerExpiry) s (fun t => t.eng.ring.st = (if s.eng.ring.st = .replaying then .replaying else .frozen) ∧ t.eng.ring.blocks = s.eng.ring.blocks ∧ t.eng.ring.bases = s.eng.ring.bases ∧ t.eng.ring.dec = s.eng.ring.dec ∧ t.eng.ring.decBases = s.eng.ring.decBases ∧ t.clk = (tickTo due s).clk ∧ t.eng.ring.trigger = none ∧ t.eng.ring.freezeDue = some (t.clk.cycles + sCycles (getN s Obj.freezeMaxS)))) ∧
  (∀ (due : Nat) (s : State), s.eng.ring.freezeDue = some due → s.eng.ring.st = .frozen →
      Ends (.freezeMaxExpiry) s (fun t => t.eng.ring.st = (if s.part.st = .run then .recording else .idle) ∧ t.eng.ring.blocks = [] ∧ t.eng.ring.bases = [] ∧ t.eng.ring.dec = [] ∧ t.eng.ring.decBases = [] ∧ t.eng.ring.freezeDue = none ∧ t.clk = (tickTo due s).clk)) ∧
  (∀ (au : Auth) (bytes : List Byte) (s : State), s.oda.serving = true → precheck s au Blob.longCapture 0 (.bytes bytes) = 0 → longCaptureHome bytes s = 0 → bytes.all (· == 0) = false →
      Ends (.longCaptureWrite au bytes) s (fun t => getBlob t Blob.longCapture = bytes ∧ t.eng.ring = s.eng.ring ∧ t.nums = s.nums)) ∧
  (∀ (au : Auth) (x : Export) (s : State), s.oda.serving = true → precheck s au Obj.replayCtrl.key 0 (.num 1) = 0 → s.eng.ring.replay ≠ .running → s.eng.ring.exp = some x → replayStatus s = 0 →
      Ends (.replayStart au) s (fun t => t.eng.ring.st = .replaying ∧ t.eng.ring.replay = .running ∧ t.eng.ring.rest = x.blocks ∧ t.eng.ring.kept = [x.base] ∧ t.eng.books = x.codebooks ∧ t.eng.output = [] ∧
      ((x.images.head?).bind (fun p => loadedDigest s p.2) = none → t.eng.sess = x.base.entries.foldl (fun m e => put m e.session (sessOfEntry e)) []) ∧ t.eng.bufA = s.eng.bufA ∧ t.eng.bufB = s.eng.bufB ∧ getN t Obj.replayFrames = 0 ∧ getN t Obj.replayError = 0)) ∧
  (∀ (au : Auth) (s : State), s.oda.serving = true → precheck s au Obj.replayCtrl.key 0 (.num 1) = 0 → s.eng.ring.replay ≠ .running → replayStatus s ≠ 0 →
      Ends (.replayStart au) s (fun t => t.eng.ring.replay = .refused ∧ getN t Obj.replayError = replayStatus s ∧ t.eng.sess = s.eng.sess ∧ t.eng.ring.st = s.eng.ring.st)) ∧
  (∀ (au : Auth) (s : State), s.oda.serving = true → precheck s au Obj.replayCtrl.key 0 (.num 2) = 0 → s.eng.ring.replay = .running →
      Ends (.replayAbort au) s (fun t => t.eng.ring.replay = .idle ∧ t.eng.ring.st = (if getN s Obj.ringFreeze = 0 then (if s.part.st = .run then .recording else .idle) else .frozen) ∧ t.eng.sess = [] ∧ t.part = s.part)) ∧
  (∀ (b : RingBlock) (l : List RingBlock) (s : State), s.eng.ring.replay = .running → s.eng.ring.rest = b :: l → b.ledger.skipped = true → b.recordCrc = recordCrc [] → b.ckptCrc = 0 → s.eng.ring.exp = none →
      Ends (.replayFrame) s (fun t => getN t Obj.replayFrames = min (getN s Obj.replayFrames + 1) 0xFFFFFFFFFFFFFFFF ∧ t.eng.ring.replay = (if l = [] then .done else .running) ∧ t.eng.ring.rest = l)) ∧
  (∀ (b : RingBlock) (l : List RingBlock) (s : State), s.eng.ring.replay = .running → s.eng.ring.rest = b :: l → s.eng.sess = [] → b.controls = [] → b.ledger.skipped = false → b.recordCrc ≠ recordCrc [] →
      Ends (.replayFrame) s (fun t => t.eng.ring.replay = .mismatch ∧ getN t Obj.replayMismatchFrame = b.ledger.frame ∧ getN t Obj.replayMismatchKind = 1 ∧ t.eng.sess = [])) ∧
  (∀ (b : RingBlock) (l : List RingBlock) (s : State), s.eng.ring.replay = .running → s.eng.ring.rest = b :: l → recordCrc (replayFrame b l s).eng.records ≠ b.recordCrc →
      Ends (.replayFrame) s (fun t => t.eng.ring.replay = .mismatch ∧ getN t Obj.replayMismatchFrame = b.ledger.frame ∧ getN t Obj.replayMismatchKind = 1 ∧ t.eng.sess = [])) ∧
  (∀ (b : RingBlock) (l : List RingBlock) (s : State), s.eng.ring.replay = .running → s.eng.ring.rest = b :: l → s.eng.ring.exp = none → recordCrc (replayFrame b l s).eng.records = b.recordCrc → b.ckptCrc ≠ 0 → (takeCkpt (replayFrame b l s).eng.ring.kept.getLast? (incMax (replayFrame b l s) Obj.replayFrames 1 u64) (b.ledger.frame + 1)).crc ≠ b.ckptCrc →
      Ends (.replayFrame) s (fun t => t.eng.ring.replay = .mismatch ∧ getN t Obj.replayMismatchFrame = b.ledger.frame ∧ getN t Obj.replayMismatchKind = 2 ∧ t.eng.sess = [])) ∧
  (∀ (b : RingBlock) (l : List RingBlock) (s : State), s.eng.ring.replay = .running → s.eng.ring.rest = b :: l → s.eng.ring.exp = none → recordCrc (replayFrame b l s).eng.records = b.recordCrc → (b.ckptCrc ≠ 0 → (takeCkpt (replayFrame b l s).eng.ring.kept.getLast? (incMax (replayFrame b l s) Obj.replayFrames 1 u64) (b.ledger.frame + 1)).crc = b.ckptCrc) →
      Ends (.replayFrame) s (fun t => t.eng.ring.replay = (if l = [] then .done else .running) ∧ t.eng.ring.rest = l))

/-- R190 to R196, with Table 6.9. -/
def Obligations.ImagesArmAndActivate : Prop :=
  (∀ (au : Auth) (i : Fin 4) (bytes : List Byte) (s : State), s.oda.serving = true → precheck s au (0x404000 + i.val) 0 (.bytes []) = 0 → imageHome i s = 0 →
      Ends (.schedImageWrite au i bytes) s (fun t => t.img.store.get i = ⟨if bytes = [] then .empty else .verifying, bytes, none⟩ ∧ getN t (Obj.imageError i.val) = 0 ∧ (∀ k : Fin 4, k ≠ i → t.img.store.get k = s.img.store.get k) ∧ t.img.inForce = s.img.inForce)) ∧
  (∀ (i : Fin 4) (bytes : List Byte) (s : State), (s.img.store.get i).st = .verifying → (s.img.store.get i).bytes = bytes →
      Ends (.schedImageChecked i) s (fun t => t.img.store.get i = (if checkImage s bytes (parseImage bytes) = 0 then ⟨.valid, bytes, some (parseImage bytes)⟩ else ⟨.refused, bytes, none⟩) ∧ getN t (Obj.imageError i.val) = checkImage s bytes (parseImage bytes) ∧ ∀ k : Fin 4, k ≠ i → t.img.store.get k = s.img.store.get k)) ∧
  (∀ (au : Auth) (i : Fin 4) (s : State), s.oda.serving = true → precheck s au Obj.imageArm.key 0 (.num i.val) = 0 → armHome i s = 0 →
      Ends (.imageArm au i) s (fun t => (t.img.store.get i).st = .armed ∧ t.img.armed = some i.val ∧ t.img.inForce = s.img.inForce ∧ t.img.binds = s.img.binds ∧ t.part = s.part)) ∧
  (∀ (au : Auth) (s : State), s.oda.serving = true → precheck s au Obj.imageArm.key 0 (.num 0xFF) = 0 →
      Ends (.imageDisarm au) s (fun t => t.img.armed = none ∧ t.img.act = .none ∧ t.img.inForce = s.img.inForce ∧ ∀ i : Fin 4, (t.img.store.get i).st ≠ .armed)) ∧
  (∀ (i : Fin 4) (s : State), s.img.act = .ready i.val → s.part.st = .ready → s.img.replayOf = none →
      Ends (.readyActivationDone) s (fun t => t.img.inForce = some i.val ∧ (t.img.store.get i).st = .inForce ∧ t.img.armed = none ∧ t.img.act = .none ∧ getN t Obj.imageFrame = 0 ∧ ∀ k : Fin 4, k ≠ i → (t.img.store.get k).st ≠ .inForce)) ∧
  (∀ (i : Fin 4) (c : Count) (s : State), s.img.act = .hot i.val (some c) → s.part.st = .run → getN s Obj.activateAt ≤ s.eng.next → c + 2 * frameNs s ≤ startOf s s.eng.next → s.img.plan = none → s.img.repls = [] → s.eng.mainDone = true →
      Ends (.hotActivation) s (fun t => t.img.inForce = some i.val ∧ (t.img.store.get i).st = .inForce ∧ t.img.armed = none ∧ t.img.act = .none ∧ getN t Obj.imageFrame = s.eng.next ∧ t.img.binds = s.img.binds ∧
      ∀ n : Fin 68, (s.eng.tiles.get n).st = .active → (t.eng.tiles.get n).ihalf = 1 - (s.eng.tiles.get n).ihalf)) ∧
  (∀ (i : Fin 4) (k : Nat) (x : Image) (s : State), s.img.act = .coldWait i.val k → s.part.st = .run → s.eng.next % 64 = 0 → getN s Obj.activateAt ≤ s.eng.next → s.img.armFrame + 2 ≤ s.eng.next → s.eng.mainDone = true → (s.img.store.get i).image = some x →
      Ends (.coldActivationStop) s (fun t => t.eng.stopped = true ∧ t.img.inForce = some i.val ∧ t.part.st = .run ∧ t.img.act = .none ∧
      t.img.coldStop = some (i.val, s.eng.next, s.eng.next + ceilDiv (coldTime s (imageNow s) x (carryAll x (liveNeeds s))) (frameNs s)))) ∧
  (∀ (i : Fin 4) (c j : Nat) (s : State), s.img.coldStop = some (i.val, c, j) → s.part.st = .run → j ≤ s.eng.next →
      Ends (.coldActivationRejoin) s (fun t => t.eng.stopped = false ∧ t.img.coldStop = none ∧ t.img.act = s.img.act ∧ getN t Obj.imageFrame = s.eng.next ∧ t.eng.next = s.eng.next ∧ t.part.st = .run))

/-- R204 to R206 and R209. -/
def Obligations.PlansAndDomains : Prop :=
  (∀ (p : Plan) (l : Nat) (s : State), s.img.plan = some p → s.part.st = .run → p.s - p.h ≤ s.eng.next → s.eng.next < p.s → l ∈ p.held → l < s.img.binds.length →
      Ends (.planHoldStart) s (fun t => (bindAt t.img.binds l).hold = true ∧ (bindAt t.img.binds l).ptile = (bindAt s.img.binds l).ptile ∧ t.img.plan = some p ∧ t.eng.tiles = s.eng.tiles)) ∧
  (∀ (r : Repl) (x : Image) (s : State), s.img.repls = [r] → r.s ≤ s.eng.next → s.img.plan = none → imageNow s = some x → r.ltile < s.img.binds.length →
      Ends (.planSwitch) s (fun t => (bindAt t.img.binds r.ltile).ptile = some r.tile ∧ (bindAt t.img.binds r.ltile).hold = false ∧ t.img.repls = [] ∧ t.part.st = s.part.st)) ∧
  (∀ (d : Fin 2) (s : State), s.img.lostDom.get d = false →
      Ends (.bridgePortFailure d) s (fun t => t.img.lostDom.get d = true ∧ t.img.lostDom.get (otherDom d) = s.img.lostDom.get (otherDom d) ∧ getN t (Obj.domainRetired d.val) = 1 ∧ ∀ n : Fin 68, n.val / 34 = d.val → (t.eng.tiles.get n).st ≠ .active)) ∧
  (∀ (d : Fin 2) (s : State), s.img.lostDom.get d = true →
      Ends (.bridgePortFailure d) s (fun t => t = noteDegraded s ∧ t.img = s.img ∧ t.eng = s.eng ∧ t.mem = s.mem)) ∧
  (∀ (au : Auth) (d : Fin 2) (s : State), s.oda.serving = true → precheck s au (Obj.domainRetired d.val).key 0 (.num 1) = 0 →
      Ends (.domainRetiredSet au d) s (fun t => t.img.lostDom.get d = true ∧ getN t (Obj.domainRetired d.val) = 1)) ∧
  (∀ (au : Auth) (d : Fin 2) (s : State), s.oda.serving = true → precheck s au (Obj.domainRetired d.val).key 0 (.num 0) = 0 → s.part.st = .ready →
      Ends (.domainRetiredClear au d) s (fun t => t.img.lostDom.get d = false ∧ getN t (Obj.domainRetired d.val) = 0 ∧
      ∀ n : Fin 68, n.val / 34 = d.val → n.val ∉ s.ident.absent → (t.eng.tiles.get n).st = (s.eng.tiles.get n).st ∧
        ((s.eng.tiles.get n).st ≠ .none_ → getN s (Obj.tileRetired n.val) = 0 → (t.eng.tiles.get n).testing = true)))

/-- R213, R215, R217 to R220, R224, R229 and R231 without an active concord. The frame jobs of a frame run once (DEDUCED, log 73). -/
def Obligations.AniseJobsAndTicks : Prop :=
  (∀ (s : State), s.part.st = .run → frameBegun s = true → s.ani.jobsFrame ≠ some s.eng.frame → concordOn s = none → s.eng.frame % tickFrames s ≠ 0 →
      Ends (.aniseFrameJobs) s (fun t => t.ani.jobsFrame = some s.eng.frame ∧ t.ani.tick = s.ani.tick ∧ t.ani.temps = s.ani.temps ∧ t.ani.sent = s.ani.sent ∧ t.cool = s.cool)) ∧
  (∀ (p : Program) (o : Fin 24) (i j v : Nat) (s : State), s.part.st = .run → frameBegun s = true → s.ani.jobsFrame ≠ some s.eng.frame → concordOn s = none → s.eng.frame % tickFrames s = 0 → s.ani.prog = some p → s.ani.ready = none → s.ani.jobsUe = false → s.ani.reload = false → p.outs[o.val]? = some ⟨1, i, j, v⟩ →
      Ends (.aniseFrameJobs) s (fun t => t.ani.ticking = true ∧ t.ani.tick = s.eng.frame / tickFrames s ∧ t.ani.temps = s.ani.newTemps.getD s.ani.temps ∧ t.ani.newTemps = none ∧ t.ani.prog = some p ∧
      t.ani.sent.get o = some (clampF (getN s (Obj.outMin o.val)) (getN s (Obj.outMax o.val)) v))) ∧
  (∀ (p : Program) (s : State), s.part.st = .ready → s.ani.prog = some p → s.ani.ready = none → s.ani.jobsUe = false →
      Ends (.aniseFrameJobs) s (fun t => t.ani.ticking = true ∧ t.ani.tick = now t / 1000000 ∧ t.ani.newTemps = none ∧ t.part.st = .ready)) ∧
  (∀ (p : Program) (s : State), s.part.st = .ready → s.ani.ready = some p →
      Ends (.aniseFrameJobs) s (fun t => t.ani.prog = some p ∧ t.ani.st = .inForce ∧ t.ani.ready = none ∧ t.ani.temps = List.replicate p.nodes.length room25)) ∧
  (∀ (p : Program) (s : State), s.ani.prog = some p → s.ani.ticking = true → s.ani.newTemps = none → s.part.st = .run →
      Ends (.aniseTick) s (fun t => t.ani.newTemps = some (thermal p s.ani.w s.ani.temps) ∧ t.ani.temps = s.ani.temps ∧ t.ani.tick = s.ani.tick ∧ t.ani.mpc = s.ani.mpc ∧ t.ani.sent = s.ani.sent)) ∧
  (∀ (a : Fin 8) (b : Fin 12) (s : State), s.part.st = .run → s.eng.p0Done = true → s.eng.cur.skipped = false → frameBegun s = true → s.ani.antFrame ≠ some s.eng.frame →
      Ends (.antAdaptWindow) s (fun t => t.ani.formed.get a = some (s.eng.frame, antWord s a.val s.eng.frame) ∧ (antSessions s a.val = [] → t.ani.formed.get a = some (s.eng.frame, noForecastWord s.eng.frame)) ∧
      t.ani.g.get b = (if fLe (s.ani.g.get b) (adaptTarget s b) then adaptTarget s b else Fmt.f32.max (adaptTarget s b) (fSub (s.ani.g.get b) (getN s Obj.adaptFall))) ∧ t.br = s.br)) ∧
  (∀ (s : State), s.part.st = .run →
      Ends (.aniseUe .tick) s (fun t => t.ani.ticking = false ∧ t.ani.newTemps = none ∧ t.ani.newMpc = none ∧ t.ani.temps = s.ani.temps ∧ t.ani.sent = s.ani.sent)) ∧
  (∀ (s : State), s.part.st = .run →
      Ends (.aniseUe .window) s (fun t => t.ani.formed = Vector.replicate 8 none ∧ t.ani.curves = Vector.replicate 12 none ∧ t.ani.words = s.ani.words ∧ (s.ani.gBack = none → t.ani.g = s.ani.g) ∧ t.br = s.br)) ∧
  (∀ (g : Vector Nat 12) (s : State), s.part.st = .run → s.ani.gBack = some (s.eng.frame, g) →
      Ends (.aniseUe .window) s (fun t => t.ani.formed = Vector.replicate 8 none ∧ t.ani.g = g ∧ t.br = s.br)) ∧
  (∀ (k : JobsBack) (s : State), s.part.st = .run → s.ani.jobsBack = some k → k.at_ = s.eng.frame →
      Ends (.aniseUe .frame) s (fun t => t.ani.sent = Vector.replicate 24 none ∧ t.ani.integ = k.integ ∧ t.ani.rules = k.rules ∧ t.ani.cap = k.cap ∧ t.ani.ticking = false ∧ t.ani.formed = s.ani.formed ∧ t.cool = s.cool)) ∧
  (∀ (s : State), s.part.st = .run → s.ani.jobsBack = none →
      Ends (.aniseUe .frame) s (fun t => t.ani.jobsUe = true ∧ t.ani.sent = s.ani.sent ∧ t.ani.formed = s.ani.formed ∧ t.cool = s.cool)) ∧
  (∀ (s : State), s.part.st = .run → frameBegun s = true → s.ani.jobsFrame ≠ some s.eng.frame → s.ani.jobsUe = true → s.eng.frame % tickFrames s ≠ 0 →
      Ends (.aniseFrameJobs) s (fun t => t.ani.jobsFrame = some s.eng.frame ∧ t.ani.jobsUe = false ∧ t.ani.rules = s.ani.rules ∧ t.ani.integ = s.ani.integ ∧ t.ani.sent = s.ani.sent ∧ t.cool = s.cool)) ∧
  (∀ (au : Auth) (s : State), s.oda.serving = true → precheck s au Blob.aniseProgram 0 (.bytes []) = 0 →
      Ends (.aniseProgramWrite au []) s (fun t => t.ani.st = .none ∧ t.ani.prog = none ∧ t.ani.ready = none ∧ getN t Obj.aniseError = 0 ∧ t.cool = s.cool)) ∧
  (∀ (au : Auth) (bytes : List Byte) (s : State), s.oda.serving = true → precheck s au Blob.aniseProgram 0 (.bytes bytes) = 0 → bytes ≠ [] → checkProgram (parseProgram bytes) ≠ 0 →
      Ends (.aniseProgramWrite au bytes) s (fun t => t.ani.st = .refused ∧ t.ani.prog = s.ani.prog ∧ t.ani.ready = s.ani.ready ∧ getN t Obj.aniseError = checkProgram (parseProgram bytes) ∧ t.blobs = s.blobs)) ∧
  (∀ (au : Auth) (bytes : List Byte) (s : State), s.oda.serving = true → precheck s au Blob.aniseProgram 0 (.bytes bytes) = 0 → bytes ≠ [] → checkProgram (parseProgram bytes) = 0 →
      Ends (.aniseProgramWrite au bytes) s (fun t => t.ani.st = .checking ∧ t.ani.prog = s.ani.prog ∧ t.ani.ready = some (parseProgram bytes) ∧ getN t Obj.aniseError = 0 ∧ getBlob t Blob.aniseProgram = bytes))

/-- R235 and R236: what a summary needs to be counted. -/
def Obligations.ConcordSummaries : Prop :=
  (∀ (p : ConcordProg) (s : State), concordOn s = some p → s.eng.running = true → s.eng.p0Done = true → s.eng.cur.skipped = false → frameBegun s = true → s.ani.sentFrame ≠ some s.eng.frame →
      Ends (.concordSummarySend) s (fun t => t.ani.sums = s.ani.sums ++ [summaryOf s p s.eng.frame] ∧ t.ani.sentFrame = some s.eng.frame ∧ nextTagOf t 0 = (nextTagOf s 0 + 1) % 65536 ∧ t.ani.results = s.ani.results)) ∧
  (∀ (x : Summary) (count : Nat) (p : ConcordProg) (s : State), concordOn s = some p → x.format = 1 → x.trays = p.trays → x.program = concordDigest p → x.index < p.trays → x.index ≠ p.index → s.ani.sums.any (fun y => y.frame == x.frame && y.index == x.index) = false → now (reachCount count s) ≤ cutoffOf s (x.frame + 1) →
      Ends (.concordSummaryReceived x count) s (fun t => t.ani.sums = s.ani.sums ++ [x] ∧ t.ani.results = s.ani.results ∧ t.acc = s.acc)) ∧
  (∀ (x : Summary) (count : Nat) (p : ConcordProg) (s : State), concordOn s = some p → (x.format ≠ 1 ∨ x.trays ≠ p.trays ∨ x.index = p.index ∨ p.trays ≤ x.index) →
      Ends (.concordSummaryReceived x count) s (fun t => t.ani = s.ani ∧ t.port = s.port)) ∧
  (∀ (x : Summary) (count : Nat) (s : State), concordOn s = none →
      Ends (.concordSummaryReceived x count) s (fun t => t.ani = s.ani ∧ t.nums = s.nums))

/-- R241, R242, R246, R251 to R254 and R266 for one branch. -/
def Obligations.BranchInrushToOn : Prop :=
  (∀ (b : Fin 12) (s : State), mayInrush s b = true →
      Ends (.branchInrushStart b) s (fun t => (t.br.get b).st = .inrush ∧ (t.br.get b).gate = (if getN s (Obj.inrushMode b.val) = 2 then .ramp (getN s (Obj.rampUa b.val)) else .ilim (getN s (Obj.iLim b.val))) ∧ (t.br.get b).inMode = getN s (Obj.inrushMode b.val) ∧ (t.br.get b).inIlim = getN s (Obj.iLim b.val) ∧
      (t.br.get b).inTgate = getN s (Obj.tGateUs b.val) ∧ (t.br.get b).inrushUs = 0 ∧ (t.br.get b).inrushDone = false ∧ (t.br.get b).noRise = true ∧ ∀ x : Fin 12, x ≠ b → t.br.get x = s.br.get x)) ∧
  (∀ (b : Fin 12) (s : State), (s.br.get b).st = .inrush → (s.br.get b).inrushDone = false →
      Ends (.inrushComplete b) s (fun t => (t.br.get b).inrushDone = true ∧ (t.br.get b).gate = .enhance ∧ (t.br.get b).gateDue = some (t.clk.cycles + usCycles (s.br.get b).inTgate) ∧ (t.br.get b).st = .inrush ∧ ∀ x : Fin 12, x ≠ b → t.br.get x = s.br.get x)) ∧
  (∀ (b : Fin 12) (d : Nat) (vgs : List Rat) (s : State), (s.br.get b).st = .inrush → (s.br.get b).inrushDone = true → (s.br.get b).gateDue = some d → s.clk.cycles ≤ d → (∀ g : Fin 4, g.val < drivenGroups s b → 8 ≤ vgs.getD g.val 0) → drivenGroups s b ≤ 4 →
      Ends (.branchOn b vgs) s (fun t => (t.br.get b).st = .on ∧ (t.br.get b).gate = .enhance ∧ (t.br.get b).onAt = s.clk.cycles ∧ (t.br.get b).cause = (s.br.get b).cause ∧ ∀ a : Fin 8, b = branchOf a → (s.sq.get (seqOf a)).st = .admission → (t.sq.get (seqOf a)).st = .up ∧ (t.sq.get (seqOf a)).step = 0)) ∧
  (∀ (b : Fin 12) (d : Nat) (s : State), (s.br.get b).st = .inrush → (s.br.get b).inrushDone = true → (s.br.get b).gateDue = some d →
      Ends (.tGateExpiry b) s (fun t => (t.br.get b).st = .faultFet ∧ (t.br.get b).fGateNoRise = true ∧ (t.br.get b).gate = .pd4A ∧ getN t (Obj.inrushAborts b.val) = min (getN s (Obj.inrushAborts b.val) + 1) 0xFFFFFFFF ∧ (b ≠ 0 → ∀ x : Fin 12, x ≠ b → t.br.get x = s.br.get x))) ∧
  (∀ (b : Fin 12) (s : State), (s.br.get b).st = .inrush → (s.br.get b).inMode ≠ 2 → (s.br.get b).inrushDone = false → (s.br.get b).noRise = false → (s.br.get b).causeAt ≠ (tickInrush b s).clk.cycles →
      Ends (.inrushTimerExpiry b) s (fun t => (t.br.get b).st = .latched ∧ (t.br.get b).cause = .inrushTimer ∧ (t.br.get b).gate = .pd4A ∧ t.clk.cycles = (tickInrush b s).clk.cycles ∧ (t.br.get b).watchDue = some (t.clk.cycles + usCycles 5) ∧ getN t (Obj.inrushAborts b.val) = min (getN s (Obj.inrushAborts b.val) + 1) 0xFFFFFFFF ∧ (b ≠ 0 → ∀ x : Fin 12, x ≠ b → t.br.get x = s.br.get x))) ∧
  (∀ (b : Fin 12) (s : State), (s.br.get b).st = .inrush → (s.br.get b).inMode ≠ 2 → (s.br.get b).inrushDone = false → (s.br.get b).noRise = true →
      Ends (.inrushTimerExpiry b) s (fun t => (t.br.get b).st = .faultFet ∧ (t.br.get b).fGateNoRise = true ∧ (t.br.get b).gate = .pd4A)) ∧
  (∀ (b : Fin 12) (c : Nat) (s : State), s.pow.trayOnCycle = some c → 9 ≤ b.val → (s.br.get 0).st = .on → (s.br.get b).offsetDone = false →
      Ends (.branchStartOffset b) s (fun t => (t.br.get b).offsetDone = true ∧ (t.br.get b).st = (s.br.get b).st ∧ ∀ x : Fin 12, x ≠ b → t.br.get x = s.br.get x))

/-- R242, R243, R257 to R260, R263 to R265 and R272. -/
def Obligations.BranchTripsAndSensors : Prop :=
  (∀ (b : Fin 12) (uv : Rat) (s : State), (thresholdUv s b : Rat) ≤ uv → (s.br.get b).st.live = true → (s.br.get b).causeAt ≠ s.clk.cycles →
      Ends (.fastTrip b uv) s (fun t => (t.br.get b).st = .latched ∧ (t.br.get b).gate = .pd4A ∧ (t.br.get b).cause = (if getN s (Obj.branchTripMode b.val) = 2 then .hardLimit else .fast) ∧ (t.br.get b).watchDue = some (s.clk.cycles + usCycles 5) ∧
      getN t (Obj.tripsFast b.val) = min (getN s (Obj.tripsFast b.val) + 1) 0xFFFFFFFF ∧ (b ≠ 0 → ∀ x : Fin 12, x ≠ b → t.br.get x = s.br.get x))) ∧
  (∀ (a : Fin 8) (uv : Rat) (s : State), (thresholdUv s (branchOf a) : Rat) ≤ uv → (s.br.get (branchOf a)).st.live = true → (s.sq.get (seqOf a)).st.active = true → (s.sq.get (seqOf a)).causeAt ≠ s.clk.cycles →
      Ends (.fastTrip (branchOf a) uv) s (fun t => (t.sq.get (seqOf a)).st = .emergency ∧ (t.sq.get (seqOf a)).cause = 7 ∧ (t.sq.get (seqOf a)).kind = .emergency ∧ (t.sq.get (seqOf a)).pgood = false ∧ ∀ b : Fin 8, b ≠ a → t.sq.get (seqOf b) = s.sq.get (seqOf b))) ∧
  (∀ (b : Fin 12) (uv : Rat) (s : State), uv < (thresholdUv s b : Rat) →
      Ends (.fastTrip b uv) s (fun t => t = s)) ∧
  (∀ (codes : List (List Int)) (b : Fin 12) (s : State), s.clk.running = true →
      Ends (.tripFractionUpdate codes) s (fun t => (t.br.get b).frac = fracStep s b (meanAmps s b (codes.getD b.val [])) ∧ (t.br.get b).cur = meanAmps s b (codes.getD b.val []))) ∧
  (∀ (codes : List (List Int)) (b : Fin 12) (s : State), s.clk.running = true → judged s b = true → (b = 0 ∨ judged s 0 = false) → 1 ≤ fracStep s b (meanAmps s b (codes.getD b.val [])) →
      Ends (.tripFractionUpdate codes) s (fun t => (t.br.get b).st = .latched ∧ (t.br.get b).gate = .pd4A ∧ getN t (Obj.tripsCurve b.val) = min (getN s (Obj.tripsCurve b.val) + 1) 0xFFFFFFFF)) ∧
  (∀ (vin vout sense : List Rat) (b : Fin 12) (s : State), s.clk.running = true →
      Ends (.fosterUpdate vin vout sense) s (fun t => (t.br.get b).vin = vin.getD b.val (s.br.get b).vin ∧ (t.br.get b).vout = vout.getD b.val (s.br.get b).vout ∧ (t.br.get b).st = (s.br.get b).st ∧ (t.br.get b).tDirect = directTemp s b (sense.getD b.val (s.br.get b).tDirect) ∧
      (t.br.get b).theta1 = fosterStep (s.br.get b).theta1 (getF s (Obj.fosterRth1 b.val)) (getF s (Obj.fosterTau1 b.val)) (fetPower s b (vin.getD b.val (s.br.get b).vin - vout.getD b.val (s.br.get b).vout)))) ∧
  (∀ (b : Fin 12) (s : State), s.clk.running = true → getF s (Obj.tFetMax b.val) < tFet s b → (s.br.get b).st.live = true → (s.br.get b).causeAt < s.clk.cycles →
      Ends (.tfetTrip b) s (fun t => (t.br.get b).st = .latched ∧ (t.br.get b).cause = .tfet ∧ (t.br.get b).gate = .pd4A ∧ (b ≠ 0 → ∀ x : Fin 12, x ≠ b → t.br.get x = s.br.get x))) ∧
  (∀ (b : Fin 12) (s : State), s.clk.running = true → getF s (Obj.tFetMax b.val) < tFet s b → (s.br.get b).st.live = false → (s.br.get b).wasAt < s.clk.cycles → (s.br.get b).hotArmed = true →
      Ends (.tfetTrip b) s (fun t => (t.br.get b).hotArmed = false ∧ (t.br.get b).st = (s.br.get b).st ∧ ∀ x : Fin 12, x ≠ b → t.br.get x = s.br.get x)) ∧
  (∀ (b : Fin 12) (reading : Rat) (since : Nat) (s : State), s.clk.running = true → fetSensorIn s b reading = false → (s.br.get b).sensorFault = false → getN s (Obj.tfetMode b.val) = 1 → (s.br.get b).st.live = true → (s.br.get b).causeAt < s.clk.cycles →
      Ends (.tfetSensorFault b reading since) s (fun t => (t.br.get b).sensorFault = true ∧ (t.br.get b).st = .latched ∧ (t.br.get b).cause = .tfetSensor)) ∧
  (∀ (b : Fin 12) (reading : Rat) (since : Nat) (s : State), s.clk.running = true → fetSensorIn s b reading = false → (s.br.get b).sensorFault = false → getN s (Obj.tfetMode b.val) ≠ 1 →
      Ends (.tfetSensorFault b reading since) s (fun t => (t.br.get b).sensorFault = true ∧ (t.br.get b).st = (s.br.get b).st ∧ ∀ x : Fin 12, x ≠ b → t.br.get x = s.br.get x)) ∧
  (∀ (b : Fin 12) (reading : Rat) (since : Nat) (s : State), (s.br.get b).sensorFault = true → fetSensorIn s b reading = true →
      Ends (.tfetSensorOk b reading since) s (fun t => (t.br.get b).sensorFault = false ∧ (t.br.get b).st = (s.br.get b).st ∧ (t.br.get b).cause = (s.br.get b).cause)) ∧
  (∀ (b : Fin 12) (vds : Rat) (codes : List Int) (s : State), (s.br.get b).st = .on → (s.br.get b).fVdsHigh = false → vdsOver s b vds (meanAmps s b codes) = true →
      Ends (.vdsHigh b vds codes) s (fun t => (t.br.get b).fVdsHigh = true ∧ (t.br.get b).st = .on ∧ getN t (Obj.branchHealth b.val) % 16 / 8 = 1)) ∧
  (∀ (b : Fin 12) (vds : Rat) (codes : List Int) (s : State), (s.br.get b).fVdsHigh = true → vdsOver s b vds (meanAmps s b codes) = false →
      Ends (.vdsHighClear b vds codes) s (fun t => (t.br.get b).fVdsHigh = false ∧ (t.br.get b).st = (s.br.get b).st))

/-- R241, R244, R255, R256, R266 to R274 and R286. -/
def Obligations.BranchHealthAndControl : Prop :=
  (∀ (b : Fin 12) (vout : Rat) (s : State), s.clk.running = true → (s.br.get b).st = .off → (s.br.get b).fOutputWhileOff = false → 20 ≤ (s.br.get b).vin → getF s (Obj.voutOffMax b.val) < vout →
      Ends (.outputWhileOff b vout) s (fun t => (t.br.get b).st = .faultFet ∧ (t.br.get b).fOutputWhileOff = true ∧ (b ≠ 0 → notLatched (s.br.get 0).st = true → (t.br.get 0).st = .latched))) ∧
  (∀ (b : Fin 12) (codes : List Int) (d : Nat) (s : State), (s.br.get b).st = .latched → (s.br.get b).watchDue = some d → fastAmps s b / 4 < meanAmps s b codes → (s.br.get b).fNotCleared = false →
      Ends (.tripNotCleared b codes) s (fun t => (t.br.get b).st = .faultFet ∧ (t.br.get b).fNotCleared = true ∧ (t.br.get b).gate = .pd4A ∧ (t.br.get b).watchDue = none ∧ (b ≠ 0 → notLatched (s.br.get 0).st = true → (t.br.get 0).st = .latched))) ∧
  (∀ (b : Fin 12) (codes : List Int) (d : Nat) (s : State), (s.br.get b).st = .latched → (s.br.get b).watchDue = some d → meanAmps s b codes ≤ fastAmps s b / 4 →
      Ends (.tripNotCleared b codes) s (fun t => (t.br.get b).st = .latched ∧ (t.br.get b).watchDue = none ∧ (t.br.get b).fNotCleared = (s.br.get b).fNotCleared)) ∧
  (∀ (b : Fin 12) (since : Nat) (s : State), s.clk.running = true → (s.br.get b).en = true → (s.br.get b).st.live = true →
      Ends (.enLow b since) s (fun t => (t.br.get b).st = .off ∧ (t.br.get b).gate = .pd4A ∧ (t.br.get b).en = false ∧ (t.br.get b).cause = (s.br.get b).cause ∧ (b ≠ 0 → ∀ x : Fin 12, x ≠ b → t.br.get x = s.br.get x))) ∧
  (∀ (b : Fin 12) (at_ : Nat) (s : State), (s.br.get b).en = false → (s.br.get b).enLowAt + usCycles 10 ≤ s.clk.cycles → (s.br.get b).st = .latched → s.part.st ≠ .safe → b ≠ 0 → brRequest s b = true → s.heat.sorghumOt = false → brPresent s b = true →
      Ends (.enRise b at_) s (fun t => (t.br.get b).en = true ∧ (t.br.get b).st = .off ∧ (t.br.get b).cause = (s.br.get b).cause ∧ (b ≠ 0 → ∀ x : Fin 12, x ≠ b → t.br.get x = s.br.get x))) ∧
  (∀ (b : Fin 12) (at_ : Nat) (s : State), (s.br.get b).en = false → brLatched (s.br.get b) = false →
      Ends (.enRise b at_) s (fun t => (t.br.get b).en = true ∧ (t.br.get b).st = (s.br.get b).st ∧ ∀ x : Fin 12, x ≠ b → t.br.get x = s.br.get x)) ∧
  (∀ (a : Fin 8) (since : Nat) (s : State), s.clk.running = true → s.pow.rcbInvalid = false → (s.br.get (branchOf a)).seated = true → ((s.br.get (branchOf a)).st = .off ∨ (s.br.get (branchOf a)).st.live = true) →
      Ends (.presenceEdge a false since) s (fun t => (t.br.get (branchOf a)).st = .held ∧ (t.br.get (branchOf a)).gate = .pd4A ∧ (t.br.get (branchOf a)).seated = false ∧ (t.sq.get (seqOf a)).st = .held ∧ (t.sq.get (seqOf a)).pgood = false ∧
      (t.br.get (branchOf a)).treins = some (t.clk.cycles + msCycles (getN s (Obj.tReinsMs (branchOf a).val))))) ∧
  (∀ (a : Fin 8) (since : Nat) (s : State), s.clk.running = true → (s.br.get (branchOf a)).seated = false →
      Ends (.presenceEdge a true since) s (fun t => (t.br.get (branchOf a)).seated = true ∧ (t.br.get (branchOf a)).st = (s.br.get (branchOf a)).st ∧ (t.br.get (branchOf a)).treins = some (t.clk.cycles + msCycles (getN s (Obj.tReinsMs (branchOf a).val))) ∧ t.sq = s.sq)) ∧
  (∀ (a : Fin 8) (d : Nat) (s : State), (s.br.get (branchOf a)).treins = some d → (s.br.get (branchOf a)).seated = true → (s.br.get (branchOf a)).st = .held →
      Ends (.tReinsExpiry a) s (fun t => (t.br.get (branchOf a)).st = .off ∧ (t.br.get (branchOf a)).treins = none ∧ (t.sq.get (seqOf a)).st = .idle ∧ getN t (Obj.posInsertions a.val) = min (getN s (Obj.posInsertions a.val) + 1) 0xFFFFFFFF)) ∧
  (∀ (au : Auth) (a : Fin 8) (s : State), s.oda.serving = true → precheck s au (Obj.branchEnable (branchOf a).val).key 0 (.num 0) = 0 → (s.sq.get (seqOf a)).st = .on →
      Ends (.branchDisable au (branchOf a)) s (fun t => getN t (Obj.branchEnable (branchOf a).val) = 0 ∧ (t.br.get (branchOf a)).zeroStands = true ∧ (t.br.get (branchOf a)).st = (s.br.get (branchOf a)).st ∧ (t.sq.get (seqOf a)).st = .down ∧ (t.sq.get (seqOf a)).kind = .down ∧ (t.sq.get (seqOf a)).pgood = false)) ∧
  (∀ (au : Auth) (b : Fin 12) (s : State), s.oda.serving = true → precheck s au (Obj.branchEnable b.val).key 0 (.num 0) = 0 → 9 ≤ b.val → (s.br.get b).st.live = true →
      Ends (.branchDisable au b) s (fun t => getN t (Obj.branchEnable b.val) = 0 ∧ (t.br.get b).st = .off ∧ (t.br.get b).gate = .pd100mA ∧ (b ≠ 0 → ∀ x : Fin 12, x ≠ b → t.br.get x = s.br.get x))) ∧
  (∀ (au : Auth) (b : Fin 12) (s : State), s.oda.serving = true → precheck s au (Obj.branchEnable b.val).key 0 (.num 1) = 0 → (s.br.get b).zeroStands = false →
      Ends (.branchEnable au b) s (fun t => getN t (Obj.branchEnable b.val) = 1 ∧ t.br.get b = s.br.get b ∧ t.sq = s.sq)) ∧
  (∀ (au : Auth) (b : Fin 12) (s : State), s.oda.serving = true → precheck s au (Obj.branchEnable b.val).key 0 (.num 1) = 0 → (s.br.get b).zeroStands = true → (s.br.get b).st = .latched → b ≠ 0 → brRequest s b = true → s.heat.sorghumOt = false → brPresent s b = true →
      Ends (.branchEnable au b) s (fun t => getN t (Obj.branchEnable b.val) = 1 ∧ (t.br.get b).zeroStands = false ∧ (t.br.get b).st = .off ∧ (t.br.get b).cause = (s.br.get b).cause)) ∧
  (∀ (au : Auth) (b : Fin 12) (s : State), s.oda.serving = true → precheck s au (Obj.branchFetClear b.val).key 0 (.num 1) = 0 → (s.br.get b).st = .faultFet →
      Ends (.branchFetClear au b) s (fun t => (t.br.get b).fGateNoRise = false ∧ (t.br.get b).fOutputWhileOff = false ∧ (t.br.get b).fNotCleared = false ∧ (t.br.get b).fCleared = true ∧ (t.br.get b).st = .faultFet ∧ getN t (Obj.branchHealth b.val) = (if (s.br.get b).fVdsHigh then 24 else 16))) ∧
  (∀ (au : Auth) (b : Fin 12) (s : State), s.oda.serving = true → precheck s au (Obj.branchFetClear b.val).key 0 (.num 1) = 0 → (s.br.get b).st ≠ .faultFet →
      Ends (.branchFetClear au b) s (fun t => t.br = s.br ∧ t.nums = s.nums)) ∧
  (∀ (au : Auth) (bytes : List Byte) (s : State), s.oda.serving = true → precheck s au Blob.dw440Import 0 (.bytes bytes) = 0 → dwHome bytes s = 0 → bytes.length = 16 →
      Ends (.dw440Import au bytes) s (fun t => getN t (Obj.branchFastCode (dwRecord bytes).target) = (dwRecord bytes).fast ∧ getN t (Obj.branchShuntUohm (dwRecord bytes).target) = (dwRecord bytes).shunt ∧ getN t (Obj.tIlimMs (dwRecord bytes).target) = (dwRecord bytes).timer ∧
      getN t (Obj.inrushMode (dwRecord bytes).target) = (if (dwRecord bytes).mode = 0 then 2 else 1) ∧ getN t (Obj.branchTripMode (dwRecord bytes).target) = 1 ∧ t.br = s.br))

/-- R281 to R287, R292 and R293 for one sequencer. -/
def Obligations.SequencerAdmissionAndSteps : Prop :=
  (∀ (a : Fin 8) (e : Nat) (s : State), earliest s a = some e → admissible s a = true →
      Ends (.seqAdmission (seqOf a)) s (fun t => (t.sq.get (seqOf a)).st = .admission ∧ (t.br.get (branchOf a)).demand = true ∧ (t.br.get (branchOf a)).st = .off ∧ (t.acc.get a).capPct = 100 ∧
      (∀ r : Fin 16, ((t.sq.get (seqOf a)).rails.get r).uvFault = false ∧ ((t.sq.get (seqOf a)).rails.get r).noDischarge = false) ∧ ∀ b : Fin 8, b ≠ a → t.sq.get (seqOf b) = s.sq.get (seqOf b))) ∧
  (∀ (q : Fin 9) (w : Nat) (s : State), stepNow (s.sq.get q) = some w → w ≠ 0 → stepType w = 1 → getN s (Obj.railNominalV (railNo q (stepRail w))) ≠ 0 →
      Ends (.stepEnable q) s (fun t => ((t.sq.get q).rails.get (stepRail w)).enabled = true ∧ (t.sq.get q).step = (s.sq.get q).step + 1 ∧ (t.sq.get q).stepAt = t.clk.cycles + 1 ∧ (t.sq.get q).wait = none ∧ (∀ x : Fin 9, x ≠ q → t.sq.get x = s.sq.get x))) ∧
  (∀ (q : Fin 9) (w : Nat) (s : State), stepNow (s.sq.get q) = some w → w ≠ 0 → stepType w = 1 → getN s (Obj.railNominalV (railNo q (stepRail w))) = 0 →
      Ends (.stepEnable q) s (fun t => ((t.sq.get q).rails.get (stepRail w)).enabled = ((s.sq.get q).rails.get (stepRail w)).enabled ∧ (t.sq.get q).step = (s.sq.get q).step + 1 ∧ (t.sq.get q).stepAt = t.clk.cycles + 1 ∧ (t.sq.get q).wait = none ∧ (∀ x : Fin 9, x ≠ q → t.sq.get x = s.sq.get x))) ∧
  (∀ (q : Fin 9) (w : Nat) (s : State), stepNow (s.sq.get q) = some w → w ≠ 0 → stepType w = 2 → passed s q (stepRail w) = false →
      Ends (.stepDisable q) s (fun t => ((t.sq.get q).rails.get (stepRail w)).enabled = false ∧ ((t.sq.get q).rails.get (stepRail w)).uvArmed = false ∧ (t.sq.get q).step = (s.sq.get q).step + 1 ∧ (t.sq.get q).stepAt = t.clk.cycles + 1 ∧ (t.sq.get q).wait = none ∧ (∀ x : Fin 9, x ≠ q → t.sq.get x = s.sq.get x))) ∧
  (∀ (q : Fin 9) (w : Nat) (pg : Bool) (s : State), stepNow (s.sq.get q) = some w → w ≠ 0 → stepType w = 3 → pg = bitSet w 23 → passed s q (stepRail w) = false →
      Ends (.stepWaitPg q pg) s (fun t => (t.sq.get q).step = (s.sq.get q).step + 1 ∧ (t.sq.get q).stepAt = t.clk.cycles + 1 ∧ (t.sq.get q).wait = none ∧ ((t.sq.get q).rails.get (stepRail w)).pgIn = pg ∧ (∀ x : Fin 9, x ≠ q → t.sq.get x = s.sq.get x))) ∧
  (∀ (q : Fin 9) (w : Nat) (pg : Bool) (s : State), stepNow (s.sq.get q) = some w → w ≠ 0 → stepType w = 3 → pg ≠ bitSet w 23 → passed s q (stepRail w) = false → fallsAtOnce s q (stepRail w) (bitSet w 23) = false →
      Ends (.stepWaitPg q pg) s (fun t => (t.sq.get q).wait = some (.pg (stepRail w).val (bitSet w 23) (waitDue t q w)) ∧ (t.sq.get q).step = (s.sq.get q).step ∧ (∀ x : Fin 9, x ≠ q → t.sq.get x = s.sq.get x))) ∧
  (∀ (q : Fin 9) (w : Nat) (s : State), stepNow (s.sq.get q) = some w → w ≠ 0 → stepType w = 4 →
      Ends (.stepWaitTime q) s (fun t => (t.sq.get q).wait = some (.time (t.clk.cycles + usCycles (bits w 0 24))) ∧ (t.sq.get q).step = (s.sq.get q).step ∧ (∀ x : Fin 9, x ≠ q → t.sq.get x = s.sq.get x))) ∧
  (∀ (q : Fin 9) (w : Nat) (v : Rat) (s : State), stepNow (s.sq.get q) = some w → w ≠ 0 → stepType w = 5 → levelMet s q (stepRail w) (bitSet w 23) v = true → passed s q (stepRail w) = false →
      Ends (.stepWaitLevel q v) s (fun t => (t.sq.get q).step = (s.sq.get q).step + 1 ∧ (t.sq.get q).stepAt = t.clk.cycles + 1 ∧ (t.sq.get q).wait = none ∧ ((t.sq.get q).rails.get (stepRail w)).v = ((s.sq.get q).rails.get (stepRail w)).v ∧ (∀ x : Fin 9, x ≠ q → t.sq.get x = s.sq.get x))) ∧
  (∀ (q : Fin 9) (w : Nat) (v : Rat) (s : State), stepNow (s.sq.get q) = some w → w ≠ 0 → stepType w = 5 → levelMet s q (stepRail w) (bitSet w 23) v = false → passed s q (stepRail w) = false → fallsAtOnce s q (stepRail w) (bitSet w 23) = false →
      Ends (.stepWaitLevel q v) s (fun t => (t.sq.get q).wait = some (.level (stepRail w).val (bitSet w 23) (waitDue t q w)) ∧ (t.sq.get q).step = (s.sq.get q).step)) ∧
  (∀ (q : Fin 9) (w : Nat) (s : State), stepNow (s.sq.get q) = some w → w ≠ 0 → stepType w = 6 →
      Ends (.stepAssert q) s (fun t => (t.sq.get q).out.get (stepOut w) = true ∧ (t.sq.get q).step = (s.sq.get q).step + 1 ∧ (t.sq.get q).stepAt = t.clk.cycles + 1 ∧ (t.sq.get q).wait = none ∧ (∀ x : Fin 9, x ≠ q → t.sq.get x = s.sq.get x))) ∧
  (∀ (q : Fin 9) (w : Nat) (s : State), stepNow (s.sq.get q) = some w → w ≠ 0 → stepType w = 7 →
      Ends (.stepDeassert q) s (fun t => (t.sq.get q).out.get (stepOut w) = false ∧ (t.sq.get q).step = (s.sq.get q).step + 1 ∧ (t.sq.get q).stepAt = t.clk.cycles + 1 ∧ (t.sq.get q).wait = none ∧ (∀ x : Fin 9, x ≠ q → t.sq.get x = s.sq.get x))) ∧
  (∀ (q : Fin 9) (s : State), stepNow (s.sq.get q) = some 0 → (s.sq.get q).kind = .up →
      Ends (.stepEnd q) s (fun t => (t.sq.get q).st = .pgWindow ∧ (t.sq.get q).kind = .none ∧ (t.sq.get q).pgE0 = t.clk.cycles ∧ (t.sq.get q).pgFrom = t.clk.cycles ∧ (t.sq.get q).pgDirty = false ∧ (∀ x : Fin 9, x ≠ q → t.sq.get x = s.sq.get x))) ∧
  (∀ (a : Fin 8) (s : State), stepNow (s.sq.get (seqOf a)) = some 0 → (s.sq.get (seqOf a)).kind ≠ .up →
      Ends (.stepEnd (seqOf a)) s (fun t => (t.sq.get (seqOf a)).st = .offWait ∧ (t.sq.get (seqOf a)).kind = .none ∧ (∀ r : Fin 16, ((t.sq.get (seqOf a)).rails.get r).enabled = false) ∧ (t.br.get (branchOf a)).st.live = false ∧ (t.br.get (branchOf a)).demand = false ∧
      (t.sq.get (seqOf a)).offCycle = t.clk.cycles))

/-- R278 to R285, R288 to R296 and R308. -/
def Obligations.SequencerWaitsWindowsAndFaults : Prop :=
  (∀ (q : Fin 9) (v : Rat) (r d : Nat) (up : Bool) (s : State), (s.sq.get q).wait = some (.pg r up d) →
      Ends (.waitConditionMet q v up) s (fun t => (t.sq.get q).step = (s.sq.get q).step + 1 ∧ (t.sq.get q).stepAt = s.clk.cycles + 1 ∧ (t.sq.get q).wait = none ∧ (∀ x : Fin 9, x ≠ q → t.sq.get x = s.sq.get x))) ∧
  (∀ (a : Fin 8) (r d : Nat) (up : Bool) (s : State), (s.sq.get (seqOf a)).wait = some (.pg r up d) → (s.sq.get (seqOf a)).kind = .up → (s.sq.get (seqOf a)).st = .up → (s.sq.get (seqOf a)).causeAt < s.clk.cycles →
      Ends (.waitTimeout (seqOf a)) s (fun t => (t.sq.get (seqOf a)).st = .emergency ∧ (t.sq.get (seqOf a)).cause = 4 ∧ (t.sq.get (seqOf a)).causeRail = r % 16 ∧ (t.sq.get (seqOf a)).kind = .emergency)) ∧
  (∀ (q : Fin 9) (r d : Nat) (up : Bool) (s : State), (s.sq.get q).wait = some (.pg r up d) → (s.sq.get q).kind = .down →
      Ends (.waitTimeout q) s (fun t => (t.sq.get q).step = (s.sq.get q).step + 1 ∧ (t.sq.get q).wait = none ∧ (t.sq.get q).st = (s.sq.get q).st)) ∧
  (∀ (q : Fin 9) (d : Nat) (s : State), (s.sq.get q).wait = some (.time d) →
      Ends (.waitTimeExpiry q) s (fun t => (t.sq.get q).step = (s.sq.get q).step + 1 ∧ (t.sq.get q).stepAt = t.clk.cycles + 1 ∧ (t.sq.get q).wait = none ∧ (∀ x : Fin 9, x ≠ q → t.sq.get x = s.sq.get x))) ∧
  (∀ (q : Fin 9) (s : State), (s.sq.get q).st = .pgWindow → (s.sq.get q).pgDirty = false →
      Ends (.pgWindowClose q [] 0) s (fun t => (t.sq.get q).st = .on ∧ (t.sq.get q).pgood = true ∧ (∀ x : Fin 9, x ≠ q → t.sq.get x = s.sq.get x))) ∧
  (∀ (q : Fin 9) (trip : Nat) (s : State), (s.sq.get q).st = .pgWindow → (s.sq.get q).pgDirty = false → trip ≠ 0 → trip < 25 →
      Ends (.pgWindowClose q [] trip) s (fun t => (t.sq.get q).st = .pgWindow ∧ (t.sq.get q).pgood = (s.sq.get q).pgood ∧ (t.sq.get q).pgFrom = t.clk.cycles + trip ∧ getN t (Obj.seqPgDeglitches q.val) = min (getN s (Obj.seqPgDeglitches q.val) + 1) 0xFFFFFFFF)) ∧
  (∀ (a : Fin 8) (s : State), (s.sq.get (seqOf a)).st = .pgWindow → (s.sq.get (seqOf a)).causeAt < s.clk.cycles →
      Ends (.pgTimeout (seqOf a)) s (fun t => (t.sq.get (seqOf a)).st = .emergency ∧ (t.sq.get (seqOf a)).cause = 5 ∧ (t.sq.get (seqOf a)).pgood = false ∧ getN t (Obj.seqEmergencies (seqOf a).val) = min (getN s (Obj.seqEmergencies (seqOf a).val) + 1) 0xFFFFFFFF)) ∧
  (∀ (a : Fin 8) (r : Fin 16) (v : Rat) (began : Nat) (s : State), ((s.sq.get (seqOf a)).rails.get r).uvArmed = true → getN s (Obj.railNominalV (railNo (seqOf a) r)) ≠ 0 → levelShows s (seqOf a) r .uvFault v = true → (s.sq.get (seqOf a)).st = .on → (s.sq.get (seqOf a)).causeAt < s.clk.cycles →
      Ends (.levelDeglitchExpiry (seqOf a) r .uvFault v began) s (fun t => (t.sq.get (seqOf a)).st = .emergency ∧ (t.sq.get (seqOf a)).cause = 1 ∧ (t.sq.get (seqOf a)).causeRail = r.val ∧ ((t.sq.get (seqOf a)).rails.get r).uvFault = true ∧ (t.sq.get (seqOf a)).pgood = false)) ∧
  (∀ (q : Fin 9) (r : Fin 16) (v : Rat) (began : Nat) (s : State), ((s.sq.get q).rails.get r).uvArmed = true → getN s (Obj.railNominalV (railNo q r)) ≠ 0 → levelShows s q r .uvWarn v = true →
      Ends (.levelDeglitchExpiry q r .uvWarn v began) s (fun t => (((s.sq.get q).rails.get r).uvWarn = false → ((t.sq.get q).rails.get r).uvWarn = true) ∧ (t.sq.get q).st = (s.sq.get q).st ∧ ((t.sq.get q).rails.get r).v = ((s.sq.get q).rails.get r).v ∧ (∀ x : Fin 9, x ≠ q → t.sq.get x = s.sq.get x))) ∧
  (∀ (q : Fin 9) (r : Fin 16) (v : Rat) (s : State), ((s.sq.get q).rails.get r).uvArmed = true → getN s (Obj.railNominalV (railNo q r)) ≠ 0 → levelEnds s q r .uvFault v = true → (s.sq.get q).st = .pgWindow →
      Ends (.levelConditionEnd q r .uvFault v) s (fun t => (t.sq.get q).pgFrom = max (s.sq.get q).pgFrom s.clk.cycles ∧ (t.sq.get q).st = .pgWindow ∧ ((t.sq.get q).rails.get r).v = ((s.sq.get q).rails.get r).v ∧ getN t (Obj.seqPgDeglitches q.val) = min (getN s (Obj.seqPgDeglitches q.val) + 1) 0xFFFFFFFF)) ∧
  (∀ (a : Fin 8) (began : Nat) (s : State), s.clk.running = true → (s.sq.get (seqOf a)).st.active = true → (s.sq.get (seqOf a)).causeAt < s.clk.cycles →
      Ends (.thermtrip a began) s (fun t => (t.acc.get a).thermalHold = true ∧ (t.acc.get a).tripAt = t.clk.cycles ∧ (t.sq.get (seqOf a)).thermtripN = false ∧ (t.sq.get (seqOf a)).st = .emergency ∧ (t.sq.get (seqOf a)).cause = 6 ∧ ∀ b : Fin 8, b ≠ a → t.sq.get (seqOf b) = s.sq.get (seqOf b))) ∧
  (∀ (q : Fin 9) (s : State), (s.sq.get q).st = .offWait →
      Ends (.offWaitExpiry q) s (fun t => (t.sq.get q).st = .idle ∧ (∀ x : Fin 9, x ≠ q → t.sq.get x = s.sq.get x) ∧ ∀ r : Fin 16, ((t.sq.get q).rails.get r).uvArmed = false)) ∧
  (∀ (d : Nat) (s : State), (s.sq.get sSelf).retryDue = some d → (s.sq.get sSelf).st = .idle → (s.sq.get sSelf).exhausted = false → (s.br.get 0).st = .on →
      Ends (.sSelfRetry) s (fun t => (t.sq.get sSelf).st = .up ∧ (t.sq.get sSelf).kind = .up ∧ (t.sq.get sSelf).step = 0 ∧ (t.sq.get sSelf).retryDue = none)) ∧
  (∀ (au : Auth) (q : Fin 9) (which : SeqList) (bytes : List Byte) (s : State), s.oda.serving = true → which ≠ .none → precheck s au (listKey q which) 0 (.bytes bytes) = 0 → listOk s q which bytes = true →
      Ends (.seqListWrite au q which bytes) s (fun t => getBlob t (listKey q which) = bytes ∧ t.sq = s.sq ∧ t.nums = s.nums ∧ t.br = s.br))

/-- R300 to R307. -/
def Obligations.PartHeatAndThrottling : Prop :=
  (∀ (m : List (Option Int)) (g : List Int) (s : State), s.clk.running = true →
      Ends (.tempConversion m g) s (fun t => t.heat.tMain = maxRat s.heat.tMain ((m.take 72).filterMap (·.map quarterC)) ∧ t.heat.tSorghum = maxRat s.heat.tSorghum ((g.take 8).map quarterC) ∧ (135 < maxRat s.heat.tSorghum ((g.take 8).map quarterC) → t.heat.sorghumWarn = true) ∧ (maxRat s.heat.tSorghum ((g.take 8).map quarterC) < 130 → t.heat.sorghumWarn = false) ∧
      (s.part.reset = false → (95 < maxRat s.heat.tMain ((m.take 72).filterMap (·.map quarterC)) → t.heat.mainWarn = true) ∧ (maxRat s.heat.tMain ((m.take 72).filterMap (·.map quarterC)) < 93 → t.heat.mainWarn = false)) ∧ t.heat.lt = s.heat.lt)) ∧
  (∀ (s : State), s.part.reset = false → 100 < s.heat.tMain → since s s.heat.lastRise (msCycles 10) = true → s.heat.lt < 7 →
      Ends (.thermalEval) s (fun t => t.heat.lt = s.heat.lt + 1 ∧ t.heat.lastRise = some t.clk.cycles ∧ t.heat.lLevel = max (s.heat.lt + 1) (getN s Obj.engineCapLevel))) ∧
  (∀ (s : State), s.part.reset = false → s.heat.tMain < 95 → since s s.heat.lastChange (msCycles 100) = true → 0 < s.heat.lt →
      Ends (.thermalEval) s (fun t => t.heat.lt = s.heat.lt - 1 ∧ t.heat.lastChange = some t.clk.cycles ∧ t.heat.lLevel = max (s.heat.lt - 1) (getN s Obj.engineCapLevel))) ∧
  (∀ (s : State), s.part.reset = false → 95 ≤ s.heat.tMain → s.heat.tMain ≤ 100 →
      Ends (.thermalEval) s (fun t => t.heat.lt = s.heat.lt ∧ t.heat.lastChange = s.heat.lastChange)) ∧
  (∀ (au : Auth) (v : Nat) (s : State), s.oda.serving = true → precheck s au Obj.engineCapLevel.key 0 (.num v) = 0 →
      Ends (.engineCapLevelWrite au v) s (fun t => getN t Obj.engineCapLevel = v ∧ t.heat.lt = s.heat.lt ∧ t.heat.lLevel = max s.heat.lt v)) ∧
  (∀ (x : Rat) (kept : Bool) (began : Nat) (s : State), s.clk.running = true → 115 ≤ x → ringOn s = true → (s.part.st = .run ∨ s.part.st = .ready ∨ s.part.st = .boot) → s.part.reset = false → (s.sq.get sSelf).st = .on →
      Ends (.thermalShutdown x kept began) s (fun t => t.part.st = .thermalShutdown ∧ t.part.reset = true ∧ t.heat.tMain = x ∧ (t.sq.get sSelf).st = .down ∧ (t.sq.get sSelf).afterDown = 2 ∧ t.oda.serving = false ∧ t.br = s.br)) ∧
  (∀ (x : Rat) (kept : Bool) (began : Nat) (s : State), s.clk.running = true → 115 ≤ x → ringOn s = true → s.part.st = .safe → s.heat.shut = false → s.part.reset = false →
      Ends (.thermalShutdown x kept began) s (fun t => t.part.st = .safe ∧ t.part.reset = true ∧ t.heat.tMain = x)) ∧
  (∀ (began : Nat) (s : State), s.clk.running = true → awaitsRestart s = true → (s.sq.get sSelf).exhausted = false → (s.br.get 0).st = .on →
      Ends (.thermalRestart began) s (fun t => (t.sq.get sSelf).st = .up ∧ t.heat.restarting = true ∧ t.heat.restartDue = none ∧ t.part.st = s.part.st)) ∧
  (∀ (x : Rat) (began : Nat) (s : State), s.clk.running = true → s.heat.sorghumOt = false → 150 ≤ x → s.pow.rcbInvalid = false →
      Ends (.sorghumOt x began) s (fun t => t.part.st = .safe ∧ t.part.safeCause = .sorghumOt ∧ t.heat.sorghumOt = true ∧ t.heat.tSorghum = x ∧ ∀ b : Fin 12, (t.br.get b).st.live = false ∧ (t.br.get b).st ≠ .off ∧ (t.br.get b).st ≠ .held)) ∧
  (∀ (x : Rat) (began : Nat) (s : State), s.heat.sorghumOt = true → x < 125 → s.part.st = .safe → s.part.safeCause = .sorghumOt →
      Ends (.sorghumOtEnd x began) s (fun t => t.part.st = .standby ∧ t.part.safeCause = .none ∧ t.heat.sorghumOt = false ∧ t.heat.tSorghum = x))

/-- R308, R309, R312 and R313 for one accelerator, fan, flow and channel. -/
def Obligations.AcceleratorHeatAndCooling : Prop :=
  (∀ (a : Fin 8) (x : Rat) (began : Nat) (s : State), (s.acc.get a).thermalHold = true → holdChannel s a = none →
      Ends (.accelThermalRelease a true x began) s (fun t => (t.acc.get a).thermalHold = false ∧ (t.sq.get (seqOf a)).thermtripN = true ∧ (t.sq.get (seqOf a)).st = (s.sq.get (seqOf a)).st ∧ ∀ b : Fin 8, b ≠ a → t.acc.get b = s.acc.get b)) ∧
  (∀ (a : Fin 8) (c : Fin 32) (x : Rat) (began : Nat) (s : State), (s.acc.get a).thermalHold = true → holdChannel s a = some c →
      Ends (.accelThermalRelease a true x began) s (fun t => (t.acc.get a).thermalHold = decide (getF s (Obj.accelRestartC a.val) ≤ x) ∧ t.heat.channels.get c = some x ∧ (t.sq.get (seqOf a)).thermtripN = true)) ∧
  (∀ (a : Fin 8) (x : Rat) (began : Nat) (s : State), 
      Ends (.accelThermalRelease a false x began) s (fun t => (t.sq.get (seqOf a)).thermtripN = false ∧ t.acc = s.acc ∧ t.heat = s.heat)) ∧
  (∀ (a : Fin 8) (x : Rat) (n p : Nat) (s : State), mainUp s = true → getN s (Obj.accelTempSource a.val) ≠ 0xFFFF → capStep s a x = some (n, p) →
      Ends (.accelCapStep a x) s (fun t => (t.acc.get a).capPct = p ∧ (t.acc.get a).temp = some x ∧ (t.acc.get a).tempAt = t.clk.cycles ∧ ((t.acc.get a).capW, (t.acc.get a).capSource) = capOf t a ∧ ∀ b : Fin 8, b ≠ a → t.acc.get b = s.acc.get b)) ∧
  (∀ (a : Fin 8) (w : Rat) (s : State), (s.acc.get a).limitDue = some w → mainUp s = true → limitBus s a ≠ 0 → (s.acc.get a).limitTries = 0 →
      Ends (.accelLimitWrite a true) s (fun t => (t.acc.get a).limitInForce = some w ∧ (t.acc.get a).limitDue = none ∧ (t.acc.get a).limitRetryDue = none ∧ t.ev = s.ev)) ∧
  (∀ (a : Fin 8) (w : Rat) (s : State), (s.acc.get a).limitDue = some w → mainUp s = true → limitBus s a ≠ 0 → (s.acc.get a).limitTries = 0 →
      Ends (.accelLimitWrite a false) s (fun t => (t.acc.get a).limitTries = 1 ∧ (t.acc.get a).limitRetryDue = some (s.clk.cycles + msCycles 10) ∧ (t.acc.get a).limitInForce = (s.acc.get a).limitInForce ∧ t.ev = s.ev)) ∧
  (∀ (a : Fin 8) (w : Rat) (d : Nat) (ack : Bool) (s : State), (s.acc.get a).limitDue = some w → (s.acc.get a).limitRetryDue = some d → mainUp s = true → limitBus s a ≠ 0 →
      Ends (.accelLimitRetry a ack) s (fun t => (ack = true → (t.acc.get a).limitInForce = some w ∧ (t.acc.get a).limitDue = none) ∧ (ack = false → (t.acc.get a).limitTries = (s.acc.get a).limitTries + 1 ∧ (t.acc.get a).limitRetryDue = some (t.clk.cycles + msCycles 10)))) ∧
  (∀ (i : Fin 16) (hz : Rat) (began : Nat) (s : State), mainUp s = true → getN s (Obj.tachMinRpm i.val) ≠ 0 → 20 ≤ (s.cool.outs.get (outOfFan i)).applied →
      Ends (.fanFault i hz began) s (fun t => t.cool.fanFault.get i = decide (tachRpm s i hz < (getN s (Obj.tachMinRpm i.val) : Rat)) ∧ t.cool.tach.get i = tachRpm s i hz ∧ t.cool.outs = s.cool.outs ∧ ∀ k : Fin 16, k ≠ i → t.cool.fanFault.get k = s.cool.fanFault.get k)) ∧
  (∀ (i : Fin 12) (hz : Rat) (began : Nat) (s : State), mainUp s = true → getF s (Obj.flowMinLpm i.val) ≠ 0 →
      Ends (.coolantFlowLow i hz began) s (fun t => t.cool.flowLow.get i = decide (flowLpm s i hz < getF s (Obj.flowMinLpm i.val)) ∧ t.cool.flow.get i = flowLpm s i hz ∧ t.cool.zones = s.cool.zones ∧ ∀ k : Fin 12, k ≠ i → t.cool.flowLow.get k = s.cool.flowLow.get k)) ∧
  (∀ (c : Fin 32) (reading x : Rat) (began : Nat) (s : State), s.clk.running = true → getN s (Obj.tempChKind c.val) ≠ 0 → sensorIn (decide (2 ≤ getN s (Obj.tempChKind c.val))) reading = false →
      Ends (.tempSensorFault c reading x began) s (fun t => t.heat.chFault.get c = true ∧ t.heat.channels.get c = none ∧ ∀ k : Fin 32, k ≠ c → t.heat.channels.get k = s.heat.channels.get k)) ∧
  (∀ (c : Fin 32) (reading x : Rat) (began : Nat) (s : State), s.clk.running = true → getN s (Obj.tempChKind c.val) = 1 → sensorIn false reading = true →
      Ends (.tempSensorFault c reading x began) s (fun t => t.heat.chFault.get c = false ∧ t.heat.channels.get c = some x))

/-- R315 to R318 and R331. -/
def Obligations.LeaksAndZones : Prop :=
  (∀ (c : Fin 8) (ohm : Nat) (s : State), s.clk.running = true → getN s (Obj.leakEnable c.val) ≠ 0 → (s.cool.leaks.get c).st ≠ .disabled →
      Ends (.leakResult c ohm) s (fun t => t.cool.leaks.get c = LeakCh.count ohm (getF s (Obj.leakWarnOhm c.val)) (getF s (Obj.leakFaultOhm c.val)) (s.cool.leaks.get c) ∧ (t.cool.leaks.get c).r = ohm ∧ (∀ k : Fin 8, k ≠ c → t.cool.leaks.get k = s.cool.leaks.get k) ∧ t.cool.zones = s.cool.zones)) ∧
  (∀ (c : Fin 8) (dst : LeakState) (s : State), (s.cool.leaks.get c).next (getN s Obj.leakDgMs) = some dst →
      Ends (.leakStateChange c) s (fun t => (t.cool.leaks.get c).st = dst ∧ (∀ k : Fin 8, k ≠ c → t.cool.leaks.get k = s.cool.leaks.get k) ∧ (dst ≠ .fault → t.acc = s.acc))) ∧
  (∀ (c a : Fin 8) (s : State), (s.cool.leaks.get c).next (getN s Obj.leakDgMs) = some .fault → s.cool.zones.get (zoneOf s c) = .clear → bitSet (getN s (Obj.zoneAccels (zoneOf s c).val)) a.val = true →
      Ends (.leakStateChange c) s (fun t => t.cool.zones.get (zoneOf s c) = .latched ∧ (t.acc.get a).reqP = .off ∧ (t.acc.get a).leakHold = true ∧ (t.acc.get a).effective = false ∧
      ∀ o : Fin 24, o.val < 8 → getN s Obj.coolingType ≠ 0 → bitSet (getN s (Obj.zoneValves (zoneOf s c).val)) o.val = true → (t.cool.outs.get o).st = .leakClosed ∧ (t.cool.outs.get o).applied = getF s (Obj.valveClosedPct o.val))) ∧
  (∀ (z : Fin 8) (s : State), s.cool.zones.get z = .latched → (zoneChannels s z).any (fun x => x.st != .dry) = false →
      Ends (.leakZoneClearable z) s (fun t => t.cool.zones.get z = .clearable ∧ t.acc = s.acc ∧ ∀ k : Fin 8, k ≠ z → t.cool.zones.get k = s.cool.zones.get k)) ∧
  (∀ (au : Auth) (z a : Fin 8) (s : State), s.oda.serving = true → precheck s au Obj.leakClear.key 0 (.num z.val) = 0 → zoneDry s z = true → s.cool.zones.get z ≠ .clear →
      Ends (.leakClear au z) s (fun t => t.cool.zones.get z = .clear ∧ ((∀ k : Fin 8, k ≠ z → s.cool.zones.get k = .clear) → (t.acc.get a).reqP = .none ∧ (t.acc.get a).leakHold = false) ∧ ∀ k : Fin 8, k ≠ z → t.cool.zones.get k = s.cool.zones.get k)) ∧
  (∀ (au : Auth) (z : Fin 8) (s : State), s.oda.serving = true → precheck s au Obj.leakClear.key 0 (.num z.val) = 0 → zoneDry s z = false →
      Ends (.leakClear au z) s (fun t => t.cool = s.cool ∧ t.acc = s.acc ∧ (t.oda.answer.map (fun x => x.status)) = some 0x00071001))

/-- R348, R356, R358 to R360, and the limits of R357. -/
def Obligations.OdaReads : Prop :=
  (∀ (n txn : Nat) (x : Session) (key ty : Nat) (w s : State), s.oda.serving = true → n ≠ 0 → odaSession s n = some x → busy s x = false → w = touch n s → readCheck w x.auth key ty = 0 → isFwKey w key = false → readFits w key (readValue w n x.place key) = 0 →
      Ends (.odaRead n txn key ty false) s (fun t => t.oda.answer = some ⟨n, txn, 0, mainNow s, false, false, 0, 0xFFFF, [], [(key, 0, some (readValue w n x.place key))], 0⟩ ∧ t.nums = s.nums ∧ t.oda.peers = s.oda.peers ∧ t.oda.waiting = s.oda.waiting)) ∧
  (∀ (n txn : Nat) (x : Session) (key ty : Nat) (w s : State), s.oda.serving = true → n ≠ 0 → odaSession s n = some x → busy s x = false → w = touch n s → readCheck w x.auth key ty ≠ 0 →
      Ends (.odaRead n txn key ty false) s (fun t => t.oda.answer = some ⟨n, txn, readCheck w x.auth key ty, mainNow s, false, false, 0, 0, [], [], 0⟩ ∧ t.nums = s.nums ∧ t.oda.peers = s.oda.peers ∧ t.oda.waiting = s.oda.waiting)) ∧
  (∀ (n txn : Nat) (x : Session) (key ty : Nat) (e : Entry) (w s : State), s.oda.serving = true → n ≠ 0 → odaSession s n = some x → busy s x = false → w = touch n s → effEntry w key = some e → (ty = 0 ∨ ty = e.ty.code) →
      Ends (.odaRead n txn key ty true) s (fun t => t.oda.answer = some ⟨n, txn, 0, mainNow s, false, false, 0, 0xFFFF, [], [(key, 0, some (.bytes (describe w key e)))], 0⟩ ∧ t.nums = s.nums ∧ t.oda.peers = s.oda.peers ∧ t.oda.waiting = s.oda.waiting)) ∧
  (∀ (n txn : Nat) (x : Session) (items : List (Nat × Nat)) (w s : State), s.oda.serving = true → n ≠ 0 → odaSession s n = some x → busy s x = false → w = touch n s → 1 ≤ items.length → items.length ≤ 64 → (∀ y ∈ items, isFwKey w y.1 = false) →
      Ends (.readMulti n txn items) s (fun t => t.oda.answer.map (fun a => (a.txn, a.status, a.done, a.accepted)) = some (txn, 0, 0, []) ∧ t.oda.answer.map (fun a => a.items.map (·.1)) = some (items.map (·.1)) ∧
      (∀ z ∈ (t.oda.answer.map (·.items)).getD [], z.2.1 = 0 → z.2.2 = some (readValue w n x.place z.1)) ∧ (∀ z ∈ (t.oda.answer.map (·.items)).getD [], z.2.1 ≠ 0 → z.2.2 = none) ∧
      (∀ y ∈ items, readCheck w x.auth y.1 y.2 ≠ 0 → (y.1, readCheck w x.auth y.1 y.2, none) ∈ (t.oda.answer.map (·.items)).getD []) ∧ t.nums = s.nums ∧ t.oda.peers = s.oda.peers ∧ t.oda.waiting = s.oda.waiting)) ∧
  (∀ (n txn key ty : Nat) (x : Session) (s : State), s.oda.serving = true → n ≠ 0 → odaSession s n = some x → busy s x = true →
      Ends (.odaRead n txn key ty false) s (fun t => t.oda.answer = some ⟨n, txn, 0x00070001, 0, false, false, 0, 0, [], [], 0⟩ ∧ t.oda.peers = s.oda.peers ∧ t.oda.waiting = s.oda.waiting ∧ t.nums = (inc32 s Obj.odaBusy).nums)) ∧
  (∀ (txn key ty : Nat) (s : State), s.oda.serving = true → publicKey key = true → readCheck s .host key ty = 0 → isFwKey s key = false → readFits s key (readValue s 0 0 key) = 0 → s.oda.waiting.length < 256 →
      Ends (.odaRead 0 txn key ty false) s (fun t => t.oda.answer.map (fun a => (a.status, a.items)) = some (0, [(key, 0, some (readValue s 0 0 key))]) ∧ t.nums = s.nums ∧ t.oda.peers = s.oda.peers ∧ t.oda.waiting = s.oda.waiting)) ∧
  (∀ (txn key ty : Nat) (d : Bool) (s : State), s.oda.serving = true → publicKey key = false →
      Ends (.odaRead 0 txn key ty d) s (fun t => t.oda.answer = some ⟨0, txn, 0x00090001, 0, false, false, 0, 0, [], [], 0⟩ ∧ t.nums = s.nums ∧ t.oda.peers = s.oda.peers ∧ t.oda.waiting = s.oda.waiting ∧ t.oda.sessions = s.oda.sessions))

/-- R351, R352, R359, R361, R372, R376 and R377, for ACTIVATE_AT and UPDATE_AT as plain objects. -/
def Obligations.OdaWritesAndLedger : Prop :=
  (∀ (n txn : Nat) (x : Session) (v : Nat) (s : State), s.oda.serving = true → n ≠ 0 → odaSession s n = some x → busy s x = false → seenTxn s n x.place txn (.write Obj.activateAt.key 0 (.num v)) = .fresh → precheck s x.auth Obj.activateAt.key 0 (.num v) = 0 → (∀ q ∈ s.oda.waiting, q.writes.contains Obj.activateAt.key = false) →
      Ends (.odaWrite n txn Obj.activateAt.key 0 (.num v)) s (fun t => getN t Obj.activateAt = v ∧ t.clk.lastAccept = acceptCount s ∧ s.clk.lastAccept < t.clk.lastAccept ∧ mainNow s ≤ t.clk.lastAccept ∧ t.oda.answer.map (fun a => (a.txn, a.status, a.done, a.accepted)) = some (txn, 0, 1, [acceptCount s]) ∧
      (ledgerOf t x.place txn).map (fun e => (e.status, e.done, e.code, e.count)) = (look s.oda.peers x.place).map (fun _ => (.applied, 1, 0, acceptCount s)))) ∧
  (∀ (n txn : Nat) (x : Session) (key ty : Nat) (v : Value) (e : Entry) (s : State), s.oda.serving = true → n ≠ 0 → odaSession s n = some x → busy s x = false → seenTxn s n x.place txn (.write key ty v) = .fresh → findEntry s key = some e → e.fw = false → precheck s x.auth key ty v ≠ 0 → ¬(0x4400 ≤ key / 256 ∧ key / 256 < 0x4428) → (∀ q ∈ s.oda.waiting, q.writes.contains key = false) →
      Ends (.odaWrite n txn key ty v) s (fun t => t.nums = s.nums ∧ t.blobs = s.blobs ∧ t.eng = s.eng ∧ t.clk = s.clk ∧ t.oda.answer.map (fun a => (a.txn, a.status, a.done, a.accepted)) = some (txn, precheck s x.auth key ty v, 0, []) ∧
      (unrecorded (precheck s x.auth key ty v) = false → (ledgerOf t x.place txn).map (fun e => (e.status, e.done, e.code, e.count)) = (look s.oda.peers x.place).map (fun _ => (.rejected, 0, precheck s x.auth key ty v, 0))))) ∧
  (∀ (n txn : Nat) (x : Session) (u v : Nat) (s : State), s.oda.serving = true → n ≠ 0 → odaSession s n = some x → busy s x = false → seenTxn s n x.place txn (.writeMulti [(Obj.activateAt.key, 0, .num u), (Obj.updateAt.key, 0, .num v)]) = .fresh → precheck s x.auth Obj.activateAt.key 0 (.num u) = 0 → precheck s x.auth Obj.updateAt.key 0 (.num v) = 0 → (∀ q ∈ s.oda.waiting, q.writes.contains Obj.activateAt.key = false ∧ q.writes.contains Obj.updateAt.key = false) →
      Ends (.writeMulti n txn [(Obj.activateAt.key, 0, .num u), (Obj.updateAt.key, 0, .num v)]) s (fun t => getN t Obj.activateAt = u ∧ getN t Obj.updateAt = v ∧ t.clk.lastAccept = acceptCount s + 1 ∧ t.oda.answer.map (fun a => (a.txn, a.status, a.done, a.accepted)) = some (txn, 0, 2, [acceptCount s, acceptCount s + 1]) ∧
      (ledgerOf t x.place txn).map (fun e => (e.status, e.done, e.code, e.count)) = (look s.oda.peers x.place).map (fun _ => (.applied, 2, 0, acceptCount s)))) ∧
  (∀ (n txn : Nat) (x : Session) (u key ty : Nat) (v : Value) (s : State), s.oda.serving = true → n ≠ 0 → odaSession s n = some x → busy s x = false → seenTxn s n x.place txn (.writeMulti [(Obj.activateAt.key, 0, .num u), (key, ty, v)]) = .fresh → precheck s x.auth Obj.activateAt.key 0 (.num u) = 0 → findEntry s key = none → (∀ q ∈ s.oda.waiting, q.writes.contains Obj.activateAt.key = false) →
      Ends (.writeMulti n txn [(Obj.activateAt.key, 0, .num u), (key, ty, v)]) s (fun t => getN t Obj.activateAt = u ∧ t.oda.answer.map (fun a => (a.txn, a.status, a.done, a.accepted)) = some (txn, existCode s key, 1, [acceptCount s]) ∧ t.oda.answer.map (·.failed) = some 1 ∧
      (ledgerOf t x.place txn).map (fun e => (e.status, e.done, e.code, e.count)) = (look s.oda.peers x.place).map (fun _ => (.partialDone, 1, existCode s key, acceptCount s)))) ∧
  (∀ (n txn : Nat) (x : Session) (key ty : Nat) (v : Value) (a : Answer) (s : State), s.oda.serving = true → n ≠ 0 → odaSession s n = some x → busy s x = false → seenTxn s n x.place txn (.write key ty v) = .again a →
      Ends (.odaWrite n txn key ty v) s (fun t => t.oda.answer = some a ∧ a.duplicate = true ∧ t.nums = s.nums ∧ t.oda.peers = s.oda.peers ∧ t.oda.waiting = s.oda.waiting)) ∧
  (∀ (n txn : Nat) (x : Session) (key ty : Nat) (v : Value) (s : State), s.oda.serving = true → n ≠ 0 → odaSession s n = some x → busy s x = false → seenTxn s n x.place txn (.write key ty v) = .running →
      Ends (.odaWrite n txn key ty v) s (fun t => t.oda.answer = s.oda.answer ∧ t.nums = s.nums ∧ t.oda.peers = s.oda.peers ∧ t.oda.waiting = s.oda.waiting)) ∧
  (∀ (n txn : Nat) (x : Session) (key ty : Nat) (v : Value) (s : State), s.oda.serving = true → n ≠ 0 → odaSession s n = some x → busy s x = false → seenTxn s n x.place txn (.write key ty v) = .other →
      Ends (.odaWrite n txn key ty v) s (fun t => t.oda.answer = some ⟨n, txn, 0x00080003, 0, false, false, 0, 0, [], [], 0⟩ ∧ t.nums = s.nums ∧ t.oda.peers = s.oda.peers ∧ t.oda.waiting = s.oda.waiting)) ∧
  (∀ (n txn : Nat) (x : Session) (key ty : Nat) (v : Value) (s : State), s.oda.serving = true → n ≠ 0 → odaSession s n = some x → busy s x = false → seenTxn s n x.place txn (.write key ty v) = .stale →
      Ends (.odaWrite n txn key ty v) s (fun t => t.oda.answer = some ⟨n, txn, 0x00080002, 0, false, false, 0, 0, [], [], 0⟩ ∧ t.nums = s.nums ∧ t.oda.peers = s.oda.peers ∧ t.oda.waiting = s.oda.waiting))

/-- R354 and R436, for SLEW_MAX_PPM as a NOR object and for firmware objects. -/
def Obligations.OdaCommitsAndCompletions : Prop :=
  (∀ (n txn : Nat) (x : Session) (v : Nat) (s : State), s.oda.serving = true → n ≠ 0 → odaSession s n = some x → busy s x = false → seenTxn s n x.place txn (.write Obj.slewMaxPpm.key 0 (.num v)) = .fresh → precheck s x.auth Obj.slewMaxPpm.key 0 (.num v) = 0 → (∀ q ∈ s.oda.waiting, q.writes.contains Obj.slewMaxPpm.key = false) →
      Ends (.odaWrite n txn Obj.slewMaxPpm.key 0 (.num v)) s (fun t => t.nums = s.nums ∧ t.clk = s.clk ∧ t.oda.answer = s.oda.answer ∧ t.oda.waiting = s.oda.waiting ++ [⟨n, x.place, x.auth, txn, 2, .write Obj.slewMaxPpm.key 0 (.num v), [(Obj.slewMaxPpm.key, 0, .num v)], [], [], false, .nor, s.oda.nextReq⟩])) ∧
  (∀ (p : Pending) (v ty : Nat) (s : State), s.oda.landing = [] → (∀ q ∈ s.oda.waiting, q.waiting ≠ .behind) → s.oda.waiting.find? (fun p => p.waiting == .nor) = some p → p.steps = [(Obj.slewMaxPpm.key, ty, .num v)] → s.oda.serving = true →
      Ends (.norCommitDone true) s (fun t => getN t Obj.slewMaxPpm = v ∧ t.oda.waiting = s.oda.waiting.erase p ∧ t.oda.answer.map (fun a => (a.txn, a.status, a.accepted)) = some (p.txn, 0, p.accepted ++ [acceptCount s]))) ∧
  (∀ (p : Pending) (y : Nat × Nat × Value) (l : List (Nat × Nat × Value)) (s : State), s.oda.landing = [] → (∀ q ∈ s.oda.waiting, q.waiting ≠ .behind) → s.oda.waiting.find? (fun p => p.waiting == .nor) = some p → p.steps = y :: l →
      Ends (.norCommitDone false) s (fun t => t.nums = s.nums ∧ t.blobs = s.blobs ∧ t.oda.waiting = s.oda.waiting.erase p ∧ t.oda.answer.map (fun a => (a.txn, a.status, a.accepted)) = some (p.txn, 0x00070041, p.accepted))) ∧
  (∀ (tag result : Nat) (v : Value) (s : State), (∀ r ∈ s.bar.outstanding, r.tag ≠ tag) →
      Ends (.fwCompletion tag result v) s (fun t => t = s)) ∧
  (∀ (tag result : Nat) (v : Value) (r : FwReq) (p : Pending) (s : State), fwFrozen s = false → (∀ q ∈ s.oda.waiting, q.waiting ≠ .behind) → r ∈ s.bar.outstanding → r.tag = tag → s.oda.waiting.find? (fun p => p.waiting == .fw tag) = some p → p.op = 2 → p.steps ≠ [] → result ≠ 0 →
      Ends (.fwCompletion tag result v) s (fun t => t.nums = s.nums ∧ t.oda.waiting = s.oda.waiting.erase p ∧ (∀ q ∈ t.bar.outstanding, q.tag ≠ tag) ∧ t.oda.answer.map (fun a => (a.txn, a.status, a.accepted)) = some (p.txn, result, p.accepted))) ∧
  (∀ (tag key ty : Nat) (d : Bool) (v : Value) (r : FwReq) (p : Pending) (s : State), fwFrozen s = false → r ∈ s.bar.outstanding → r.tag = tag → s.oda.waiting.find? (fun p => p.waiting == .fw tag) = some p → p.op = 1 → p.body = .read key ty d → 0x800000 ≤ key → readFits s key v = 0 →
      Ends (.fwCompletion tag 0 v) s (fun t => t.nums = s.nums ∧ t.oda.waiting = s.oda.waiting.erase p ∧ (∀ q ∈ t.bar.outstanding, q.tag ≠ tag) ∧ t.oda.answer.map (fun a => (a.txn, a.status, a.items)) = some (p.txn, 0, [(key, 0, some v)])))

/-- R362 to R365, on the service port. -/
def Obligations.SubscriptionsAndNotifications : Prop :=
  (∀ (n txn : Nat) (x : Session) (k j kind period : Nat) (items : List (Nat × Nat)) (s : State), s.oda.serving = true → n ≠ 0 → odaSession s n = some x → busy s x = false → x.txSeq + 1 < two32 → items.length ≤ 64 → seenTxn s n x.place txn (.subscribe k kind period items) = .fresh → subStatus s x.auth k kind period items = 0 → period ≠ 0 → j ≠ k →
      Ends (.subscribe n txn k kind period items) s (fun t => (look t.oda.sessions n).map (fun z => look z.subs k) = some (some ⟨kind, period, items, 0, [], none, none⟩) ∧ (look t.oda.sessions n).map (fun z => look z.subs j) = some (look x.subs j) ∧ t.nums = s.nums ∧ t.oda.answer.map (fun a => (a.txn, a.status, a.done, a.accepted)) = some (txn, 0, 1, [acceptCount s]))) ∧
  (∀ (n txn : Nat) (x : Session) (k j kind : Nat) (items : List (Nat × Nat)) (s : State), s.oda.serving = true → n ≠ 0 → odaSession s n = some x → busy s x = false → x.txSeq + 1 < two32 → items.length ≤ 64 → seenTxn s n x.place txn (.subscribe k kind 0 items) = .fresh → k ≤ 15 → j ≠ k →
      Ends (.subscribe n txn k kind 0 items) s (fun t => (look t.oda.sessions n).map (fun z => look z.subs k) = some (none) ∧ (look t.oda.sessions n).map (fun z => look z.subs j) = some (look x.subs j) ∧ t.oda.answer.map (fun a => (a.txn, a.status, a.done, a.accepted)) = some (txn, 0, 1, [acceptCount s]))) ∧
  (∀ (n txn : Nat) (x : Session) (k kind period : Nat) (items : List (Nat × Nat)) (s : State), s.oda.serving = true → n ≠ 0 → odaSession s n = some x → busy s x = false → x.txSeq + 1 < two32 → items.length ≤ 64 → seenTxn s n x.place txn (.subscribe k kind period items) = .fresh → subStatus s x.auth k kind period items ≠ 0 →
      Ends (.subscribe n txn k kind period items) s (fun t => (look t.oda.sessions n).map (·.subs) = some x.subs ∧ t.oda.answer.map (fun a => (a.txn, a.status, a.done, a.accepted)) = some (txn, subStatus s x.auth k kind period items, 0, []))) ∧
  (∀ (n k : Nat) (vals : List (Nat × Value)) (x : Session) (y : Subscr) (s : State), odaSession s n = some x → look x.subs k = some y → y.kind = 1 → s.bar.holdOn = false → s.oda.serving = true → s.part.st = .run → s.eng.any = true → s.eng.mainDone = true → s.eng.frame % y.period = 0 → y.sent ≠ some (true, s.eng.frame) → x.port = 2 → s.port.svcUp = true → x.txSeq + 1 < two32 →
      Ends (.periodicNotify n k vals) s (fun t => t.port.svcLine = s.port.svcLine ++ [(3, .notifyPeriodic n k y.nextTxn (some s.eng.frame) (y.items.map (notifyItem s n x.place x.auth vals)))] ∧ (look t.oda.sessions n).map (fun z => (look z.subs k).map (·.nextTxn)) = some (some (y.nextTxn + 1)) ∧ t.nums = s.nums ∧ t.clk = s.clk)) ∧
  (∀ (n k : Nat) (vals : List (Nat × Value)) (x : Session) (y : Subscr) (w s : State), odaSession s n = some x → look x.subs k = some y → y.kind = 1 → s.bar.holdOn = false → s.oda.serving = true → s.part.st ≠ .run → w = reachCount (ceilDiv (now s) (y.period * frameNs s) * (y.period * frameNs s)) s → y.sent ≠ some (false, ceilDiv (now s) (y.period * frameNs s) * (y.period * frameNs s)) → x.port = 2 → s.port.svcUp = true → x.txSeq + 1 < two32 →
      Ends (.periodicNotify n k vals) s (fun t => t.clk = w.clk ∧ t.port.svcLine = s.port.svcLine ++ [(3, .notifyPeriodic n k y.nextTxn none (y.items.map (notifyItem w n x.place x.auth vals)))] ∧ (look t.oda.sessions n).map (fun z => (look z.subs k).map (·.nextTxn)) = some (some (y.nextTxn + 1)))) ∧
  (∀ (n k : Nat) (x : Session) (y : Subscr) (c : Count) (s : State), odaSession s n = some x → look x.subs k = some y → y.heldDue = some c → y.held ≠ [] → x.port = 2 → s.port.svcUp = true → x.txSeq + 1 < two32 →
      Ends (.eventNotify n k) s (fun t => t.port.svcLine = s.port.svcLine ++ [(3, .notifyEvents n k y.nextTxn y.held)] ∧ (look t.oda.sessions n).map (fun z => look z.subs k) = some (some { y with nextTxn := y.nextTxn + 1, held := [], heldDue := none }) ∧ t.clk = (reachCount c s).clk ∧ t.ev = s.ev)) ∧
  (∀ (n k : Nat) (x : Session) (y : Subscr) (c : Count) (s : State), odaSession s n = some x → look x.subs k = some y → y.heldDue = some c → y.held ≠ [] → x.port = 2 → s.port.svcUp = false →
      Ends (.eventNotify n k) s (fun t => t.port = s.port ∧ (look t.oda.sessions n).map (fun z => look z.subs k) = some (some { y with nextTxn := y.nextTxn + 1, held := [], heldDue := none }) ∧ t.nums = (inc32 s Obj.odaNotifyDrops).nums))

/-- R367 to R370. -/
def Obligations.BlockTransfers : Prop :=
  (∀ (n txn : Nat) (x : Session) (key ty : Nat) (w s : State), s.oda.serving = true → n ≠ 0 → odaSession s n = some x → busy s x = false → x.txSeq + 1 < two32 → w = touch n s → isDomain w key = true → readCheck w x.auth key ty = 0 → selectStatus w key 0 = 0 → startHome w n key = 0 → isFwKey w key = false → key ≠ Blob.ringExport → blockFits s n (blockValue w n x.place key 0).length = true →
      Ends (.blockReadStart n txn key ty 0) s (fun t => (look t.oda.sessions n).map (fun z => (look z.blocks (s.oda.nextBlock % 65535 + 1))) = some (some ⟨key, false, (blockValue w n x.place key 0).length, [], blockValue w n x.place key 0, s.clk.cycles + sCycles 60⟩) ∧ t.oda.answer.map (fun a => (a.txn, a.status, a.items)) = some (txn, 0, [(s.oda.nextBlock % 65535 + 1, (blockValue w n x.place key 0).length, none)]) ∧ t.nums = s.nums ∧ t.oda.peers = s.oda.peers ∧ t.oda.waiting = s.oda.waiting)) ∧
  (∀ (n txn blk : Nat) (x : Session) (y : Xfer) (offset len : Nat) (s : State), s.oda.serving = true → n ≠ 0 → odaSession s n = some x → busy s x = false → look x.blocks blk = some y → y.write = false → s.eng.ring.exports.contains blk = false → 1 ≤ len → len ≤ 1376 → offset + len ≤ y.total →
      Ends (.blockReadSeg n txn blk offset len) s (fun t => t.oda.answer = some ⟨n, txn, 0, mainNow s, false, false, 0, 0xFFFF, [], [(blk, offset, some (.bytes ((y.snap.drop offset).take len)))], y.key⟩ ∧ t.nums = s.nums ∧ t.oda.peers = s.oda.peers ∧ t.oda.waiting = s.oda.waiting)) ∧
  (∀ (n txn blk : Nat) (x : Session) (y : Xfer) (offset len : Nat) (s : State), s.oda.serving = true → n ≠ 0 → odaSession s n = some x → busy s x = false → look x.blocks blk = some y → y.write = false → s.eng.ring.exports.contains blk = false → y.total < offset + len →
      Ends (.blockReadSeg n txn blk offset len) s (fun t => t.oda.answer = some ⟨n, txn, 0x00080006, mainNow s, false, false, 0, 0, [], [], 0⟩ ∧ t.nums = s.nums ∧ t.oda.peers = s.oda.peers ∧ t.oda.waiting = s.oda.waiting)) ∧
  (∀ (n txn : Nat) (x : Session) (key ty total : Nat) (s : State), s.oda.serving = true → n ≠ 0 → odaSession s n = some x → busy s x = false → x.txSeq + 1 < two32 → seenTxn s n x.place txn (.block 3 0 key ty total []) = .fresh → writeStartStatus s x.auth key ty total = 0 → blockFits s n total = true →
      Ends (.blockWriteStart n txn key ty total) s (fun t => (look t.oda.sessions n).map (fun z => (look z.blocks (s.oda.nextBlock % 65535 + 1))) = some (some ⟨key, true, total, [], [], s.clk.cycles + sCycles 60⟩) ∧ t.oda.answer.map (fun a => (a.txn, a.status, a.items)) = some (txn, 0, [(s.oda.nextBlock % 65535 + 1, total, none)]) ∧ t.blobs = s.blobs ∧ ledgerOf t x.place txn = ledgerOf s x.place txn)) ∧
  (∀ (n txn blk : Nat) (x : Session) (y : Xfer) (offset : Nat) (data : List Byte) (s : State), s.oda.serving = true → n ≠ 0 → odaSession s n = some x → busy s x = false → x.txSeq + 1 < two32 → look x.blocks blk = some y → y.write = true → data.length ≤ 1376 → offset + data.length ≤ y.total → seenTxn s n x.place txn (.block 4 blk 0 offset data.length data) = .fresh →
      Ends (.blockWriteSeg n txn blk offset data) s (fun t => (look t.oda.sessions n).map (fun z => (look z.blocks blk)) = some (some { y with staged := stage offset data y.staged, due := s.clk.cycles + sCycles 60 }) ∧ t.nums = s.nums ∧ t.blobs = s.blobs ∧ t.eng = s.eng ∧ t.oda.answer.map (fun a => (a.txn, a.status)) = some (txn, 0))) ∧
  (∀ (n txn blk : Nat) (x : Session) (y : Xfer) (offset : Nat) (data : List Byte) (s : State), s.oda.serving = true → n ≠ 0 → odaSession s n = some x → busy s x = false → look x.blocks blk = some y → y.write = true → y.total < offset + data.length → seenTxn s n x.place txn (.block 4 blk 0 offset data.length data) = .fresh →
      Ends (.blockWriteSeg n txn blk offset data) s (fun t => t.nums = s.nums ∧ t.blobs = s.blobs ∧ t.oda.answer.map (fun a => (a.txn, a.status)) = some (txn, 0x00080006))) ∧
  (∀ (n txn blk : Nat) (x : Session) (y : Xfer) (c : Fin 4096) (s : State), s.oda.serving = true → n ≠ 0 → odaSession s n = some x → busy s x = false → x.txSeq + 1 < two32 → look x.blocks blk = some y → y.write = true → y.key = 0x413000 + c.val → seenTxn s n x.place txn (.block 5 blk 0 (crc64 (y.staged.map (·.2))) 0 []) = .fresh → (y.staged.map (·.2)).length = y.total → precheck s x.auth y.key 0 (.bytes (y.staged.map (·.2))) = 0 → codebookHome c.val (y.staged.map (·.2)) s = 0 → (∀ q ∈ s.oda.waiting, q.writes.contains y.key = false) →
      Ends (.blockWriteEnd n txn blk (crc64 (y.staged.map (·.2)))) s (fun t => look t.eng.books c.val = look (codebookEffect c.val (y.staged.map (·.2)) (acceptCount s) s).eng.books c.val ∧ (look t.oda.sessions n).map (fun z => (look z.blocks blk)) = some (none) ∧ t.oda.answer.map (fun a => (a.txn, a.status, a.done, a.accepted)) = some (txn, 0, 1, [acceptCount s]))) ∧
  (∀ (n txn blk : Nat) (x : Session) (y : Xfer) (crc : Nat) (s : State), s.oda.serving = true → n ≠ 0 → odaSession s n = some x → busy s x = false → x.txSeq + 1 < two32 → look x.blocks blk = some y → y.write = true → seenTxn s n x.place txn (.block 5 blk 0 crc 0 []) = .fresh → ((y.staged.map (·.2)).length ≠ y.total ∨ crc64 (y.staged.map (·.2)) ≠ crc) →
      Ends (.blockWriteEnd n txn blk crc) s (fun t => t.nums = s.nums ∧ t.blobs = s.blobs ∧ (look t.oda.sessions n).map (fun z => (look z.blocks blk)) = some (none) ∧ t.oda.answer.map (fun a => (a.txn, a.status)) = some (txn, 0x00080007))) ∧
  (∀ (n txn blk : Nat) (x : Session) (j : Nat) (y : Xfer) (s : State), s.oda.serving = true → n ≠ 0 → odaSession s n = some x → busy s x = false → x.txSeq + 1 < two32 → look x.blocks blk = some y → j ≠ blk →
      Ends (.blockClose n txn blk) s (fun t => (look t.oda.sessions n).map (fun z => (look z.blocks blk)) = some (none) ∧ (look t.oda.sessions n).map (fun z => (look z.blocks j)) = some (look x.blocks j) ∧ t.oda.answer.map (fun a => (a.txn, a.status)) = some (txn, 0) ∧ t.nums = s.nums ∧ t.oda.peers = s.oda.peers ∧ t.oda.waiting = s.oda.waiting)) ∧
  (∀ (n txn blk : Nat) (x : Session) (s : State), s.oda.serving = true → n ≠ 0 → odaSession s n = some x → busy s x = false → look x.blocks blk = none →
      Ends (.blockClose n txn blk) s (fun t => t.oda.answer = some ⟨n, txn, 0x00080005, mainNow s, false, false, 0, 0, [], [], 0⟩ ∧ t.nums = s.nums ∧ t.oda.peers = s.oda.peers ∧ t.oda.waiting = s.oda.waiting)) ∧
  (∀ (n blk j : Nat) (x : Session) (y : Xfer) (s : State), odaSession s n = some x → look x.blocks blk = some y → j ≠ blk →
      Ends (.blockTimeout n blk) s (fun t => (look t.oda.sessions n).map (fun z => (look z.blocks blk)) = some (none) ∧ (look t.oda.sessions n).map (fun z => (look z.blocks j)) = some (look x.blocks j) ∧ t.clk = (tickTo y.due s).clk ∧ t.oda.answer = s.oda.answer ∧ t.nums = s.nums ∧ t.oda.peers = s.oda.peers ∧ t.oda.waiting = s.oda.waiting))

/-- R372, R375, R376 and R379. -/
def Obligations.LedgerQueriesAndCache : Prop :=
  (∀ (n txn : Nat) (x : Session) (peer : List Byte) (txns : List Nat) (s : State), s.oda.serving = true → n ≠ 0 → odaSession s n = some x → busy s x = false → peer.length = 32 → (∀ b ∈ peer, b = 0) → 1 ≤ txns.length → txns.length ≤ 56 → (∀ e, look s.oda.peers x.place = some e → e.cache.length + txns.length ≤ 4096) →
      Ends (.ledgerQuery n txn peer txns) s (fun t => t.oda.answer.map (fun a => (a.txn, a.status, a.items)) = some (txn, 0, (floorOf s x.place, 0, none) :: txns.map (fun q => (q, (queryTxn s x.place q).1.status.code, some (.bytes (Ledger.bytes (queryTxn s x.place q).1))))) ∧
      (∀ q ∈ txns, (queryTxn s x.place q).2 = true → (look s.oda.peers x.place).isSome = true → ledgerOf t x.place q = some ⟨q, 0, .rejected, 0, 0, 0, 0x00080008, none⟩) ∧ t.nums = s.nums ∧ t.oda.waiting = s.oda.waiting)) ∧
  (∀ (n txn : Nat) (x : Session) (peer : List Byte) (txns : List Nat) (s : State), s.oda.serving = true → n ≠ 0 → odaSession s n = some x → busy s x = false → peer.length = 32 → peer.any (· != 0) = true → peerPlace s peer ≠ some x.place → x.auth ≠ .service → 1 ≤ txns.length → txns.length ≤ 56 →
      Ends (.ledgerQuery n txn peer txns) s (fun t => t.oda.answer = some ⟨n, txn, 0x00060003, mainNow s, false, false, 0, 0, [], [], 0⟩ ∧ t.nums = s.nums ∧ t.oda.peers = s.oda.peers ∧ t.oda.waiting = s.oda.waiting)) ∧
  (∀ (place txn q : Nat) (c : Cached) (a : Answer) (s : State), cachedOf s place txn = some c → c.answer = some a →
      Ends (.replayCacheExpiry place txn) s (fun t => cachedOf t place txn = none ∧ floorOf t place = max (floorOf s place) txn ∧ ledgerOf t place q = ledgerOf s place q ∧ t.clk = (tickTo c.due s).clk ∧ t.nums = s.nums))

/-- R327, R471, R472 and R475 on the service port. The numbering of sessions from 1 is the model's choice (log 45). -/
def Obligations.SessionSetupAndEnd : Prop :=
  (∀ (id frag frags : Nat) (data : List Byte) (cs : List Cert) (r : Root) (parts : Map (List Byte)) (s : State), s.oda.serving = true → portOpen s 2 = true → data ≠ [] → data.length ≤ 1384 → frags ≤ 16 → frag < frags → lookD s.oda.setups id ⟨frags, []⟩ = ⟨frags, parts⟩ → look parts frag = none → (put parts frag data).length < frags →
      Ends (.setupInit 2 id frag frags data cs r) s (fun t => look t.oda.setups id = some ⟨frags, (put parts frag data)⟩ ∧ t.oda.sessions = s.oda.sessions ∧ t.port = s.port ∧ t.nums = s.nums ∧ t.oda.peers = s.oda.peers)) ∧
  (∀ (id frag frags : Nat) (data : List Byte) (cs : List Cert) (r : Root) (parts : Map (List Byte)) (ders : List (List Byte)) (s : State), s.oda.serving = true → portOpen s 2 = true → data ≠ [] → data.length ≤ 1384 → frags ≤ 16 → frag < frags → lookD s.oda.setups id ⟨frags, []⟩ = ⟨frags, parts⟩ → look parts frag = none → frags ≤ (put parts frag data).length → parseInit (((put parts frag data).map (·.2)).flatten) = some ders → chainStatus s 2 ders cs r = 0 → s.oda.sessions.length < 32 →
      Ends (.setupInit 2 id frag frags data cs r) s (fun t => (look t.oda.sessions (s.oda.nextSess % (two32 - 1) + 1)).map (fun x => (x.pending, x.setupId, x.auth, x.port, x.due)) = some (true, id, leafAuth cs, 2, s.clk.cycles + sCycles 2) ∧ t.port.svcLine = s.port.svcLine ++ [(4, .setupReply (s.oda.nextSess % (two32 - 1) + 1) id (formReply (((put parts frag data).map (·.2)).flatten) (s.oda.nextSess % (two32 - 1) + 1) s).1.1)] ∧ t.oda.nextSess = (s.oda.nextSess % (two32 - 1) + 1) ∧ t.nums = s.nums ∧ t.oda.peers = s.oda.peers)) ∧
  (∀ (id frag frags : Nat) (data : List Byte) (cs : List Cert) (r : Root) (parts : Map (List Byte)) (ders : List (List Byte)) (s : State), s.oda.serving = true → portOpen s 2 = true → data ≠ [] → data.length ≤ 1384 → frags ≤ 16 → frag < frags → lookD s.oda.setups id ⟨frags, []⟩ = ⟨frags, parts⟩ → look parts frag = none → frags ≤ (put parts frag data).length → parseInit (((put parts frag data).map (·.2)).flatten) = some ders → chainStatus s 2 ders cs r ≠ 0 →
      Ends (.setupInit 2 id frag frags data cs r) s (fun t => t.oda.sessions = s.oda.sessions ∧ t.port.svcLine = s.port.svcLine ++ [(4, .setupAbort (chainStatus s 2 ders cs r))] ∧ t.nums = (inc32 s Obj.setupFailures).nums ∧ look t.oda.setups id = none)) ∧
  (∀ (n id : Nat) (x : Session) (s : State), s.oda.serving = true → portOpen s 2 = true → look s.oda.sessions n = some x → x.pending = true → x.setupId = id → authOnPort s 2 x.auth = true →
      Ends (.setupFinish n 2 id true) s (fun t => (odaSession t n).map (fun y => (y.auth, y.peer, y.place, y.port, y.lastRx, y.due)) = some (x.auth, x.peer, placeFor s x.peer, 2, s.clk.cycles, idleDue s) ∧ (look t.oda.peers (placeFor s x.peer)).map (fun p => (p.id, p.auth)) = some (x.peer, x.auth) ∧ t.port.svcLine = s.port.svcLine ++ [(4, .setupDone n x.auth)] ∧ t.nums = s.nums)) ∧
  (∀ (n id : Nat) (x : Session) (s : State), s.oda.serving = true → portOpen s 2 = true → look s.oda.sessions n = some x → x.pending = true → x.setupId = id →
      Ends (.setupFinish n 2 id false) s (fun t => t.oda.sessions = s.oda.sessions ∧ t.oda.peers = s.oda.peers ∧ t.port.svcLine = s.port.svcLine ++ [(4, .setupAbort 0x00091602)] ∧ t.nums = (inc32 s Obj.setupFailures).nums)) ∧
  (∀ (n j : Nat) (x : Session) (s : State), s.oda.serving = true → odaSession s n = some x → j ≠ n →
      Ends (.sessionClose n) s (fun t => look t.oda.sessions n = none ∧ look t.oda.sessions j = look s.oda.sessions j ∧ t.oda.waiting = s.oda.waiting ∧ t.nums = s.nums ∧ t.oda.peers = s.oda.peers)) ∧
  (∀ (n j : Nat) (x : Session) (s : State), look s.oda.sessions n = some x → x.pending = true → j ≠ n →
      Ends (.setupTimeout n) s (fun t => look t.oda.sessions n = none ∧ look t.oda.sessions j = look s.oda.sessions j ∧ t.clk = (tickTo x.due s).clk ∧ t.nums = s.nums ∧ t.oda.peers = s.oda.peers)) ∧
  (∀ (n j : Nat) (x : Session) (s : State), odaSession s n = some x → j ≠ n →
      Ends (.sessionIdleTimeout n) s (fun t => look t.oda.sessions n = none ∧ look t.oda.sessions j = look s.oda.sessions j ∧ t.clk = (tickTo (x.lastRx + sCycles (getN s Obj.sessionIdleS)) s).clk ∧ t.nums = s.nums ∧ t.oda.peers = s.oda.peers))

/-- R461 to R464, R466, R470 and R475. -/
def Obligations.OwnerKeysCountersAndQuotes : Prop :=
  (∀ (au : Auth) (bs : List Byte) (sigOk : Bool) (j : Nat) (c : KeyCmd) (s : State), s.oda.serving = true → fieldAt bs 0 1 = 1 → precheck s au Blob.ownerKeyCmd 0 (.bytes bs) = 0 → parseKeyCmd bs = some c → keyCmdHome au bs sigOk s = 0 → j ≠ c.slot →
      Ends (.ownerKeyAdd au bs sigOk) s (fun t => look t.cardamom.held.keys c.slot = some ⟨Config.shake c.data 32, c.roles⟩ ∧ look t.cardamom.held.keys j = look s.cardamom.held.keys j ∧ t.cardamom.held.revoked = s.cardamom.held.revoked ∧ t.cardamom.st = .owned ∧ t.cardamom.held.cmdCounter = c.counter ∧ t.cardamom.held.generation = s.cardamom.held.generation + 1 ∧ t.cardamom.held.counters = s.cardamom.held.counters ∧ t.cardamom.held.bootCount = s.cardamom.held.bootCount ∧ t.cardamom.logEntries = s.cardamom.logEntries + 1 ∧ t.cardamom.recA = t.cardamom.held ∧ t.cardamom.recB = t.cardamom.held)) ∧
  (∀ (au : Auth) (bs : List Byte) (sigOk : Bool) (j : Nat) (c : KeyCmd) (s : State), s.oda.serving = true → fieldAt bs 0 1 = 2 → precheck s au Blob.ownerKeyCmd 0 (.bytes bs) = 0 → parseKeyCmd bs = some c → keyCmdHome au bs sigOk s = 0 → j ≠ c.slot →
      Ends (.ownerKeyRemove au bs sigOk) s (fun t => look t.cardamom.held.keys c.slot = none ∧ look t.cardamom.held.keys j = look s.cardamom.held.keys j ∧ t.cardamom.held.revoked = s.cardamom.held.revoked ∧ t.cardamom.held.cmdCounter = c.counter ∧ t.cardamom.held.generation = s.cardamom.held.generation + 1 ∧ t.cardamom.held.counters = s.cardamom.held.counters ∧ t.cardamom.held.bootCount = s.cardamom.held.bootCount ∧ t.cardamom.logEntries = s.cardamom.logEntries + 1 ∧ t.cardamom.recA = t.cardamom.held ∧ t.cardamom.recB = t.cardamom.held)) ∧
  (∀ (au : Auth) (bs : List Byte) (sigOk : Bool) (c : KeyCmd) (s : State), s.oda.serving = true → fieldAt bs 0 1 = 3 → precheck s au Blob.ownerKeyCmd 0 (.bytes bs) = 0 → parseKeyCmd bs = some c → keyCmdHome au bs sigOk s = 0 →
      Ends (.ownerKeySetRevoked au bs sigOk) s (fun t => t.cardamom.held.revoked = chunk32 (c.data.length / 32) c.data ∧ t.cardamom.held.keys = s.cardamom.held.keys ∧ t.cardamom.held.cmdCounter = c.counter ∧ t.cardamom.held.generation = s.cardamom.held.generation + 1 ∧ t.cardamom.held.counters = s.cardamom.held.counters ∧ t.cardamom.held.bootCount = s.cardamom.held.bootCount ∧ t.cardamom.logEntries = s.cardamom.logEntries + 1 ∧ t.cardamom.recA = t.cardamom.held ∧ t.cardamom.recB = t.cardamom.held)) ∧
  (∀ (au : Auth) (bs : List Byte) (sigOk : Bool) (s : State), s.oda.serving = true → fieldAt bs 0 1 = 1 → precheck s au Blob.ownerKeyCmd 0 (.bytes bs) = 0 → keyCmdHome au bs sigOk s ≠ 0 →
      Ends (.ownerKeyAdd au bs sigOk) s (fun t => t.cardamom = s.cardamom ∧ t.oda.sessions = s.oda.sessions ∧ t.oda.answer.map (·.status) = some (keyCmdHome au bs sigOk s))) ∧
  (∀ (au : Auth) (s : State), s.oda.serving = true → (au = .service → s.part.strap = true) → precheck s au Obj.ownerReset.key 0 (.num 1) = 0 →
      Ends (.ownerReset au) s (fun t => t.cardamom.held.keys = [] ∧ t.cardamom.held.revoked = [] ∧ t.cardamom.held.counters = s.cardamom.held.counters ∧ t.cardamom.held.cmdCounter = s.cardamom.held.cmdCounter ∧ t.cardamom.st = .unowned ∧ (∀ p ∈ t.oda.sessions, p.2.auth = .service) ∧ t.cardamom.logEntries = s.cardamom.logEntries + 1)) ∧
  (∀ (au : Auth) (bs : List Byte) (j : Nat) (s : State), s.oda.serving = true → precheck s au Blob.rollbackRaise 0 (.bytes bs) = 0 → raiseHome bs s = 0 → j ≠ fieldAt bs 0 1 →
      Ends (.rollbackRaise au bs) s (fun t => lookD t.cardamom.held.counters (fieldAt bs 0 1) 0 = fieldAt bs 4 4 ∧ lookD t.cardamom.held.counters j 0 = lookD s.cardamom.held.counters j 0 ∧ lookD s.cardamom.held.counters (fieldAt bs 0 1) 0 < fieldAt bs 4 4 ∧ t.cardamom.held.keys = s.cardamom.held.keys ∧ t.cardamom.logEntries = s.cardamom.logEntries + 1)) ∧
  (∀ (n : Nat) (nonce : List Byte) (x : Session) (s : State), s.oda.serving = true → odaSession s n = some x → precheck s x.auth Blob.quoteReq 0 (.bytes nonce) = 0 →
      Ends (.quoteReq n nonce) s (fun t => (look t.oda.sessions n).map (·.quote) = some (some (formQuote nonce (acceptCount s) s)) ∧ t.clk.lastAccept = acceptCount s ∧ t.cardamom = s.cardamom)) ∧
  (∀ (n : Nat) (sig : List Byte) (x : Session) (q : Quote) (s : State), look s.oda.sessions n = some x → x.quote = some q → q.signed = false →
      Ends (.quoteSigned n sig) s (fun t => (look t.oda.sessions n).map (·.quote) = some (some { q with signed := true, sig := sig }) ∧ t.cardamom = s.cardamom ∧ t.clk = s.clk))

/-- R382, R384 to R387 and R391. -/
def Obligations.HostLinksAndGates : Prop :=
  (∀ (p : Fin 2) (fast : Bool) (s : State), s.oda.serving = true → (s.port.host.get p).link = .training → speedAllowed (getN s (Obj.portMode p.val)) fast = true →
      Ends (.hostLinkUp p fast) s (fun t => (t.port.host.get p).link = (if fast then .up200 else .up100) ∧ ∀ q : Fin 2, q ≠ p → t.port.host.get q = s.port.host.get q ∧ t.nums = s.nums ∧ t.oda = s.oda)) ∧
  (∀ (p : Fin 2) (began : Nat) (s : State), hostUp s p = true →
      Ends (.hostLinkDown p began) s (fun t => (t.port.host.get p).link = .down ∧ (t.port.host.get p).queue = [] ∧ (t.port.host.get p).autonegDue = some (t.clk.cycles + msCycles 10) ∧ getN t (Obj.linkDowns p.val) = getN (inc32 s (Obj.linkDowns p.val)) (Obj.linkDowns p.val) ∧ (t.port.host.get p).line = (s.port.host.get p).line)) ∧
  (∀ (p : Fin 2) (d : Nat) (s : State), (s.port.host.get p).autonegDue = some d →
      Ends (.autonegRestart p) s (fun t => t.port.host.get p = { s.port.host.get p with autonegDue := none, link := .training } ∧ ∀ q : Fin 2, q ≠ p → t.port.host.get q = s.port.host.get q ∧ t.clk = (tickTo d s).clk)) ∧
  (∀ (au : Auth) (p : Fin 2) (v : Nat) (s : State), s.oda.serving = true → precheck s au (Obj.portMode p.val).key 0 (.num v) = 0 → portModeHome au p s = 0 →
      Ends (.portMode au p v) s (fun t => (t.port.host.get p).link = (if v = 0 then .down else .training) ∧ getN t (Obj.portMode p.val) = v ∧ (hostUp s p = true → (t.port.host.get p).queue = []) ∧ t.port.svcLine = s.port.svcLine)) ∧
  (∀ (p : Fin 2) (v : Nat) (s : State), s.oda.serving = true → precheck s .facility (Obj.portMode p.val).key 0 (.num v) = 0 → hostUp s (1 - p) = false →
      Ends (.portMode .facility p v) s (fun t => t.port = s.port ∧ t.nums = s.nums ∧ t.oda.answer.map (·.status) = some 0x00071301)) ∧
  (∀ (s : State), s.oda.serving = true → s.port.svcOn = true → s.port.svcUp = false →
      Ends (.serviceLinkUp) s (fun t => t.port.svcUp = true ∧ t.port.svcLine = s.port.svcLine ++ [(2, announceMsg s 2)] ∧ t.port.host = s.port.host)) ∧
  (∀ (p : Fin 2) (g : GateList) (c : Count) (s : State), s.oda.serving = true → (s.port.host.get p).gatesNext = some (g, c) → (s.port.host.get p).gates.entries = [] →
      Ends (.gateEntryStart p) s (fun t => (t.port.host.get p).gates = g ∧ (t.port.host.get p).gatesNext = none ∧ t.clk = (reachCount c s).clk ∧ (∀ q ∈ (t.port.host.get p).queue, maySend t p q.1 q.2 = false) ∧ ∀ q : Fin 2, q ≠ p → t.port.host.get q = s.port.host.get q)) ∧
  (∀ (p : Fin 2) (s : State), s.oda.serving = true → (s.port.host.get p).gatesNext = none → (s.port.host.get p).gates.entries ≠ [] →
      Ends (.gateEntryStart p) s (fun t => (t.port.host.get p).gates = (s.port.host.get p).gates ∧ (t.port.host.get p).entry = entryAt (s.port.host.get p).gates.entries (now t % (s.port.host.get p).gates.cycle) ∧ (∀ q ∈ (t.port.host.get p).queue, maySend t p q.1 q.2 = false) ∧ ∀ q : Fin 2, q ≠ p → t.port.host.get q = s.port.host.get q)) ∧
  (∀ (kind : Nat) (target : List Byte) (s : State), s.oda.serving = true → portOpen s 2 = true → kind ≤ 3 → (if kind % 2 = 0 then addresses4 s 2 else addresses6 s 2).contains target = true →
      Ends (.networkControlRequest 2 kind target) s (fun t => t.port.svcLine = s.port.svcLine ++ [(0, .netReply kind)] ∧ t.port.host = s.port.host ∧ t.oda = s.oda)) ∧
  (∀ (kind : Nat) (target : List Byte) (s : State), (if kind % 2 = 0 then addresses4 s 2 else addresses6 s 2).contains target = false →
      Ends (.networkControlRequest 2 kind target) s (fun t => t = s))

/-- R382, R383, R388, R389, R394, R395, R474 and R476. -/
def Obligations.HostFramesAndMacsec : Prop :=
  (∀ (p : Fin 2) (f : FrameIn) (s : State), hostUp s p = true → 0 < f.uncorrectable →
      Ends (.hostFrameReceived p.castSucc f) s (fun t => t.oda = s.oda ∧ t.port = s.port ∧ getN t (Obj.fecUncorrectable p.val) = getN (incMax s (Obj.fecUncorrectable p.val) f.uncorrectable u64) (Obj.fecUncorrectable p.val))) ∧
  (∀ (p : Fin 2) (f : FrameIn) (s : State), hostUp s p = true → f.uncorrectable = 0 → f.len ≤ 9216 → f.prot = none → getN s (Obj.macsecMode p.val) = 2 → f.kind.bypass = false →
      Ends (.hostFrameReceived p.castSucc f) s (fun t => t.oda = s.oda ∧ t.port = s.port ∧ getN t (Obj.macsecDrops p.val) = getN (inc64 s (Obj.macsecDrops p.val)) (Obj.macsecDrops p.val))) ∧
  (∀ (p : Fin 2) (f : FrameIn) (x : OdaIn) (y : Session) (s : State), hostUp s p = true → f.uncorrectable = 0 → f.corrected = 0 → f.len ≤ 9216 → f.prot = none → getN s (Obj.macsecMode p.val) ≠ 2 → f.rtag = none → f.kind = .oda x → odaSession s x.sess = some y → x.tagOk = true → seqFresh y x.seq = true → x.seq < two32 → x.formOk = true → x.opKnown = true →
      Ends (.hostFrameReceived p.castSucc f) s (fun t => (look t.oda.sessions x.sess).map (fun z => (z.port, z.lastRx, z.rxHigh, z.redundant)) = some (p.val, s.clk.cycles, max y.rxHigh x.seq, y.redundant) ∧ x.seq ∈ ((look t.oda.sessions x.sess).map (·.rxSeen)).getD [] ∧ t.oda.answer = s.oda.answer ∧ t.nums = s.nums)) ∧
  (∀ (p : Fin 2) (f : FrameIn) (x : OdaIn) (y : Session) (s : State), hostUp s p = true → f.uncorrectable = 0 → f.corrected = 0 → f.len ≤ 9216 → f.prot = none → getN s (Obj.macsecMode p.val) ≠ 2 → f.rtag = none → f.kind = .oda x → odaSession s x.sess = some y → (x.tagOk = false ∨ seqFresh y x.seq = false) →
      Ends (.hostFrameReceived p.castSucc f) s (fun t => t.oda = s.oda ∧ t.port = s.port ∧ t.nums = (inc32 s Obj.odaAuthDrops).nums)) ∧
  (∀ (p : Fin 2) (f : FrameIn) (stream q : Nat) (r : Recovery) (s : State), hostUp s p = true → f.uncorrectable = 0 → f.corrected = 0 → f.len ≤ 9216 → f.prot = none → getN s (Obj.macsecMode p.val) ≠ 2 → f.rtag = some (stream, q) → look s.port.recovered stream = some r → r.num = q % 65536 → s.clk.cycles ≤ r.at_ + msCycles 100 →
      Ends (.hostFrameReceived p.castSucc f) s (fun t => t.oda = s.oda ∧ t.port = s.port ∧ t.nums = s.nums)) ∧
  (∀ (n : Nat) (p : Fin 2) (x : Session) (s : State), s.oda.serving = true → odaSession s n = some x → precheck s x.auth Obj.macsecKeyReq.key 0 (.num p.val) = 0 → getN s (Obj.macsecMode p.val) ≠ 0 →
      Ends (.macsecKeyReq n p) s (fun t => (t.port.host.get p).an = some (match (s.port.host.get p).an with | some k => (k + 1) % 4 | none => 0) ∧ (t.port.host.get p).oldAn = (s.port.host.get p).an ∧ (t.port.host.get p).oldDue = s.clk.cycles + sCycles 2 ∧ (t.port.host.get p).rxPn = 0 ∧
      (if getN s (Obj.macsecTxSwitchAt p.val) ≤ now s then (t.port.host.get p).txAn = (t.port.host.get p).an ∧ (t.port.host.get p).txPn = 1 else (t.port.host.get p).txAn = (s.port.host.get p).txAn ∧ (t.port.host.get p).txDue = some (getN s (Obj.macsecTxSwitchAt p.val))) ∧ ∀ q : Fin 2, q ≠ p → t.port.host.get q = s.port.host.get q)) ∧
  (∀ (p : Fin 2) (c : Count) (s : State), (s.port.host.get p).txDue = some c →
      Ends (.macsecTxSwitch p) s (fun t => (t.port.host.get p).txAn = (s.port.host.get p).an ∧ (t.port.host.get p).txDue = none ∧ (t.port.host.get p).txPn = 1 ∧ t.clk = (reachCount c s).clk ∧ ∀ q : Fin 2, q ≠ p → t.port.host.get q = s.port.host.get q)) ∧
  (∀ (p : Fin 2) (k : Nat) (s : State), (s.port.host.get p).older = [] → (s.port.host.get p).oldAn = some k →
      Ends (.macsecRxOldEnd p) s (fun t => (t.port.host.get p).oldAn = none ∧ (t.port.host.get p).an = (s.port.host.get p).an ∧ t.clk = (tickTo (s.port.host.get p).oldDue s).clk ∧ ∀ q : Fin 2, q ≠ p → t.port.host.get q = s.port.host.get q)) ∧
  (∀ (p : Fin 2) (x : OldAssoc) (l : List OldAssoc) (s : State), (s.port.host.get p).older = x :: l →
      Ends (.macsecRxOldEnd p) s (fun t => (t.port.host.get p).older = l ∧ (t.port.host.get p).oldAn = (s.port.host.get p).oldAn ∧ (t.port.host.get p).an = (s.port.host.get p).an ∧ t.clk = (tickTo x.due s).clk ∧ ∀ q : Fin 2, q ≠ p → t.port.host.get q = s.port.host.get q)) ∧
  (∀ (f : FrameIn) (x : OdaIn) (y : Session) (s : State), s.port.svcUp = true → f.kind = .oda x → odaSession s x.sess = some y → x.tagOk = true → seqFresh y x.seq = true → x.seq < two32 → x.formOk = true → x.opKnown = true →
      Ends (.hostFrameReceived 2 f) s (fun t => (look t.oda.sessions x.sess).map (fun z => (z.port, z.lastRx, z.rxHigh, z.redundant)) = some (2, s.clk.cycles, max y.rxHigh x.seq, y.redundant) ∧ x.seq ∈ ((look t.oda.sessions x.sess).map (·.rxSeen)).getD [] ∧ t.oda.answer = s.oda.answer ∧ t.nums = s.nums)) ∧
  (∀ (f : FrameIn) (x : OdaIn) (y : Session) (s : State), s.port.svcUp = true → f.kind = .oda x → odaSession s x.sess = some y → (x.tagOk = false ∨ seqFresh y x.seq = false) →
      Ends (.hostFrameReceived 2 f) s (fun t => t.oda = s.oda ∧ t.port = s.port ∧ t.nums = (inc32 s Obj.odaAuthDrops).nums))

/-- R393, R396 to R399. -/
def Obligations.SidebandPorts : Prop :=
  (∀ (a : Fin 8) (s : State), s.oda.serving = true → s.oda.bare = false → sbUp s a = false → getN s (Obj.sbMode a.val) ≠ 0 →
      Ends (.sbLinkUp a) s (fun t => (t.port.sb.get a).link = .up ∧ t.nums = s.nums ∧ t.port.host = s.port.host ∧ ∀ b : Fin 8, b ≠ a → t.port.sb.get b = s.port.sb.get b)) ∧
  (∀ (a : Fin 8) (s : State), sbUp s a = true →
      Ends (.sbLinkDown a) s (fun t => (t.port.sb.get a).link = .down ∧ ∀ b : Fin 8, b ≠ a → t.port.sb.get b = s.port.sb.get b)) ∧
  (∀ (s : State), 
      Ends (.sbPtpSync) s (fun t => ∀ a : Fin 8, t.port.sb.get a = if sbUp s a = true ∧ getN s (Obj.sbMode a.val) ≠ 0 then { s.port.sb.get a with line := (s.port.sb.get a).line ++ [.ptpSync (mainNow t) t.clk.epoch] } else s.port.sb.get a)) ∧
  (∀ (a : Fin 8) (s : State), sbUp s a = true →
      Ends (.sbPdelayReq a) s (fun t => (t.port.sb.get a).line = (s.port.sb.get a).line ++ [.pdelayResp (mainNow s)] ∧ t.nums = s.nums ∧ ∀ b : Fin 8, b ≠ a → t.port.sb.get b = s.port.sb.get b)) ∧
  (∀ (a : Fin 8) (ether : Nat) (payload : List Byte) (old : Bool) (delay : Nat) (s : State), sbUp s a = true → delay ≤ 600 → ether ≠ getN s Obj.sbEthertype →
      Ends (.telemetryFrame a ether payload false old delay) s (fun t => t.nums = (inc32 s (Obj.sbDrops a.val)).nums ∧ t.port = s.port ∧ t.eng = s.eng ∧ t.mem = s.mem)) ∧
  (∀ (a : Fin 8) (ether : Nat) (payload : List Byte) (old : Bool) (delay : Nat) (s : State), sbUp s a = true → delay ≤ 600 →
      Ends (.telemetryFrame a ether payload true old delay) s (fun t => (t.port.sb.get a).spoiled = (s.port.sb.get a).spoiled + 1 ∧ (t.port.sb.get a).last = (s.port.sb.get a).last ∧ t.nums = s.nums ∧ t.eng = s.eng ∧ ∀ b : Fin 8, b ≠ a → t.port.sb.get b = s.port.sb.get b)) ∧
  (∀ (a : Fin 8) (ether : Nat) (payload : List Byte) (old : Bool) (delay : Nat) (s : State), sbUp s a = true → delay ≤ 600 → ether = getN s Obj.sbEthertype → payload.length = 32 + 12 * fieldAt payload 16 2 → 1 ≤ fieldAt payload 16 2 → fieldAt payload 16 2 ≤ 747 → fieldAt payload 0 1 = 1 → fieldAt payload 1 1 = a.val → ((s.port.sb.get a).last = none ∨ (s.port.sb.get a).last.map (fun l => (l + 1) % two32) = some (fieldAt payload 4 4)) → fieldAt payload 4 4 < two32 →
      Ends (.telemetryFrame a ether payload false old delay) s (fun t => (t.port.sb.get a).last = some (fieldAt payload 4 4) ∧ (t.port.sb.get a).line = (s.port.sb.get a).line ∧ (t.port.sb.get a).missing = (s.port.sb.get a).missing ∧ t.mem.cells = (signalCell (136 + a.val) 1 s).mem.cells ∧ ∀ b : Fin 8, b ≠ a → t.port.sb.get b = s.port.sb.get b)) ∧
  (∀ (a : Fin 8) (ether : Nat) (payload : List Byte) (old : Bool) (delay l : Nat) (s : State), sbUp s a = true → delay ≤ 600 → ether = getN s Obj.sbEthertype → payload.length = 32 + 12 * fieldAt payload 16 2 → 1 ≤ fieldAt payload 16 2 → fieldAt payload 16 2 ≤ 747 → fieldAt payload 0 1 = 1 → fieldAt payload 1 1 = a.val → (s.port.sb.get a).last = some l → l + 1 < fieldAt payload 4 4 → fieldAt payload 4 4 ≤ l + 17 → fieldAt payload 4 4 < two32 →
      Ends (.telemetryFrame a ether payload false old delay) s (fun t => (t.port.sb.get a).line = (s.port.sb.get a).line ++ [.nack (l + 1) (fieldAt payload 4 4 - l - 1)] ∧ (t.port.sb.get a).last = some (fieldAt payload 4 4) ∧ getN t (Obj.sbNacks a.val) = getN (inc32 s (Obj.sbNacks a.val)) (Obj.sbNacks a.val) ∧ getN t (Obj.sbLost a.val) = getN s (Obj.sbLost a.val) ∧ (l + 1) ∈ (t.port.sb.get a).missing ∧ ∀ b : Fin 8, b ≠ a → t.port.sb.get b = s.port.sb.get b)) ∧
  (∀ (a : Fin 8) (ether : Nat) (payload : List Byte) (old : Bool) (delay : Nat) (s : State), sbUp s a = true → delay ≤ 600 → ether = getN s Obj.sbEthertype → payload.length = 32 + 12 * fieldAt payload 16 2 → 1 ≤ fieldAt payload 16 2 → fieldAt payload 16 2 ≤ 747 → fieldAt payload 0 1 = 1 → fieldAt payload 1 1 = a.val → (s.port.sb.get a).last = some (fieldAt payload 4 4) → (s.port.sb.get a).spoiled = 0 → (s.port.sb.get a).missing.contains (fieldAt payload 4 4) = false → fieldAt payload 4 4 < two32 →
      Ends (.telemetryFrame a ether payload false old delay) s (fun t => t.port.sb.get a = s.port.sb.get a ∧ t.nums = s.nums ∧ t.mem = s.mem ∧ t.eng = s.eng))

/-- R403, R404, R424 to R427, R438, R441 and R442. -/
def Obligations.MemoryErrorsCellsAndRegions : Prop :=
  (∀ (s : State), s.mem.st = .ready →
      Ends (.memCorrectedError) s (fun t => getN t Obj.memCeCount = getN (inc64 s Obj.memCeCount) Obj.memCeCount ∧ t.mem = s.mem ∧ t.eng = s.eng)) ∧
  (∀ (addr : Nat) (s : State), s.mem.st = .ready → 0x800000000 ≤ addr → addr < 0xB80000000 →
      Ends (.memUe addr) s (fun t => granule addr ∈ t.mem.poison ∧ getN t Obj.memUeAddr = granule addr ∧ getN t Obj.memUeCount = getN (inc32 s Obj.memUeCount) Obj.memUeCount ∧ t.mem.ram = s.mem.ram ∧ (∀ g ∈ s.mem.poison, g ∈ t.mem.poison))) ∧
  (∀ (s : State), s.mem.st = .ready →
      Ends (.patrolScrubPass) s (fun t => getN t Obj.memScrubPasses = getN (inc32 s Obj.memScrubPasses) Obj.memScrubPasses ∧ t.mem = { s.mem with scrubFrom := t.clk.cycles })) ∧
  (∀ (hot : Bool) (s : State), s.mem.st = .ready →
      Ends (.lpddr4xRefresh hot) s (fun t => t.mem = { s.mem with refreshed := s.mem.refreshed + 1, refreshFast := hot } ∧ t.nums = s.nums)) ∧
  (∀ (cell : Fin 16384) (v : Nat) (d : Nat) (s : State), fabricUp s = true → 512 ≤ cell.val → d ≠ cell.val →
      Ends (.syncSet cell v) s (fun t => cellAt t cell.val = v % two32 ∧ cellAt t d = cellAt s d ∧ t.mem.ram = s.mem.ram)) ∧
  (∀ (cell : Fin 16384) (v : Nat) (d : Nat) (s : State), fabricUp s = true → 512 ≤ cell.val → d ≠ cell.val →
      Ends (.syncSignal cell v) s (fun t => cellAt t cell.val = (cellAt s cell.val + v) % two32 ∧ cellAt t d = cellAt s d ∧ t.mem.ram = s.mem.ram)) ∧
  (∀ (cell : Fin 16384) (v : Nat) (k : Nat) (x : WaitSlot) (s : State), fabricUp s = true → 512 ≤ cell.val → slotAt s k = x → x.arm = true → x.cell = cell.val →
      Ends (.syncSignal cell v) s (fun t => slotAt t k = if slotHolds x ((cellAt s cell.val + v) % two32) then { x with arm := false, fired := true, seen := (cellAt s cell.val + v) % two32 } else x)) ∧
  (∀ (cell : Fin 16384) (v : Nat) (k : Nat) (x : WaitSlot) (s : State), fabricUp s = true → slotAt s k = x → (x.arm = false ∨ x.cell ≠ cell.val) →
      Ends (.syncSet cell v) s (fun t => slotAt t k = x)) ∧
  (∀ (cell : Fin 16384) (v : Nat) (s : State), cell.val < 512 →
      Ends (.syncSignal cell v) s (fun t => t = s)) ∧
  (∀ (k : Fin 256) (cell : Fin 16384) (irq event : Bool) (core : Fin 8) (threshold : Nat) (s : State), fabricUp s = true → threshold < two32 →
      Ends (.waitSlotArm k cell irq event core threshold) s (fun t => (slotAt t k.val).cell = cell.val ∧ (slotAt t k.val).threshold = threshold ∧ (slotAt t k.val).fired = decide ((cellAt s cell.val + (two32 - threshold % two32)) % two32 < 2147483648) ∧ (slotAt t k.val).arm = !(slotAt t k.val).fired ∧ ((slotAt t k.val).fired = true → (slotAt t k.val).seen = cellAt s cell.val) ∧ t.mem.cells = s.mem.cells)) ∧
  (∀ (k : Fin 256) (j : Nat) (s : State), j ≠ k.val →
      Ends (.waitSlotDisarm k) s (fun t => slotAt t k.val = { slotAt s k.val with arm := false } ∧ slotAt t j = slotAt s j ∧ t.mem.cells = s.mem.cells)) ∧
  (∀ (c : Fin 2) (k : Fin 256) (r : Region) (j : Nat) (s : State), wardenUp s c = true → j ≠ k.val →
      Ends (.huskRegionWrite c k r) s (fun t => look t.bar.regions k.val = some r ∧ look t.bar.regions j = look s.bar.regions j ∧ t.bar.overrides = s.bar.overrides)) ∧
  (∀ (c : Fin 2) (k : Fin 256) (o : Override) (j : Nat) (s : State), wardenUp s c = true → j ≠ k.val →
      Ends (.accessOverrideWrite c k o) s (fun t => look t.bar.overrides k.val = some { o with since := mainNow s } ∧ look t.bar.overrides j = look s.bar.overrides j ∧ t.bar.regions = s.bar.regions)) ∧
  (∀ (c : Fin 2) (k : Fin 256) (r : Region) (s : State), wardenUp s c = false →
      Ends (.huskRegionWrite c k r) s (fun t => t = s))

/-- R411, R412, R415 to R419, R421 and R422. -/
def Obligations.MilletRuns : Prop :=
  (∀ (c : Fin 32) (ctrl srcList dstList srcCount dstCount compl : Nat) (src dst : List DmaEntry) (s : State), fabricUp s = true → fwChan c = true → bitSet ctrl 0 = true → (chanAt s c).st = .idle → src.length = srcCount → dst.length = dstCount → goCause s c (bits ctrl 8 3) srcList dstList srcCount dstCount src dst = none → running s (engineOf c) = none → (∀ d : Fin 32, engineOf d = engineOf c → (chanAt s d).st ≠ .ready) →
      Ends (.dmaGo c ctrl srcList dstList srcCount dstCount compl src dst) s (fun t => (chanAt t c).st = .running ∧ running t (engineOf c) = some c ∧ (chanAt t c).bytesDone = 0 ∧ (chanAt t c).src = src ∧ (chanAt t c).dst = dst ∧ (chanAt t c).irqEn = bitSet ctrl 3 ∧ (chanAt t c).signalEn = bitSet compl 15 ∧ (chanAt t c).amount = bits compl 16 16 ∧ t.mem.ram = s.mem.ram ∧ ∀ d : Fin 32, d ≠ c → t.mem.dma.get d = s.mem.dma.get d)) ∧
  (∀ (c : Fin 32) (ctrl srcList dstList srcCount dstCount compl : Nat) (src dst : List DmaEntry) (d : Fin 32) (s : State), fabricUp s = true → fwChan c = true → bitSet ctrl 0 = true → (chanAt s c).st = .idle → src.length = srcCount → dst.length = dstCount → goCause s c (bits ctrl 8 3) srcList dstList srcCount dstCount src dst = none → running s (engineOf c) = some d →
      Ends (.dmaGo c ctrl srcList dstList srcCount dstCount compl src dst) s (fun t => (chanAt t c).st = .ready ∧ running t (engineOf c) = some d ∧ t.mem.ram = s.mem.ram ∧ ∀ d : Fin 32, d ≠ c → t.mem.dma.get d = s.mem.dma.get d)) ∧
  (∀ (c : Fin 32) (ctrl srcList dstList srcCount dstCount compl : Nat) (src dst : List DmaEntry) (cause a : Nat) (dir : Bool) (s : State), fabricUp s = true → fwChan c = true → bitSet ctrl 0 = true → (chanAt s c).st = .idle → src.length = srcCount → dst.length = dstCount → goCause s c (bits ctrl 8 3) srcList dstList srcCount dstCount src dst = some (cause, some a, dir) →
      Ends (.dmaGo c ctrl srcList dstList srcCount dstCount compl src dst) s (fun t => (chanAt t c).st = .halted ∧ (chanAt t c).errCause = cause ∧ (chanAt t c).errAddr = a ∧ (chanAt t c).errDir = dir ∧ (chanAt t c).errEntry = 0xFFFFFFFF ∧ getN t (Obj.dmaLastCause c.val) = cause ∧ t.mem.ram = s.mem.ram ∧ ∀ d : Fin 32, d ≠ c → t.mem.dma.get d = s.mem.dma.get d)) ∧
  (∀ (mb : Bool) (c : Fin 32) (s : State), running s mb = none → (List.finRange 32).find? (fun c => engineOf c == mb && (chanAt s c).st == .ready) = some c →
      Ends (.dmaRunStart mb) s (fun t => (chanAt t c).st = .running ∧ (chanAt t c).bytesDone = 0 ∧ running t mb = some c ∧ running t (!mb) = running s (!mb) ∧ ∀ d : Fin 32, d ≠ c → t.mem.dma.get d = s.mem.dma.get d)) ∧
  (∀ (mb : Bool) (c : Fin 32) (a d len b : Nat) (s : State), running s mb = some c → engineOf c = mb → (chanAt s c).jobs = [] → s.mem.st = .ready → (chanAt s c).src = [⟨a, len, 0⟩] → (chanAt s c).dst = [⟨d, len, 0⟩] → (chanAt s c).swap = 0 → (chanAt s c).bytesDone = 0 → 1 ≤ len → a % 256 + len ≤ 256 → d % 256 + len ≤ 256 → (∀ i, i < len → placeOf (a + i) = .ram) → (∀ i, i < len → placeOf (d + i) = .ram) → burstCause s c ⟨0, len, 0, a, false, 0, d, false⟩ = none → (b < d ∨ d + len ≤ b) →
      Ends (.dmaRunComplete mb) s (fun t => (∀ i, i < len → readByte t (d + i) = readByte s (a + i)) ∧ readByte t b = readByte s b ∧ (chanAt t c).st = .done ∧ (chanAt t c).bytesDone = len ∧ (chanAt t c).runs = ((chanAt s c).runs + 1) % two32 ∧ running t mb ≠ some c ∧ (chanAt t c).due = (if (chanAt s c).signalEn then (chanAt s c).due ++ [((chanAt s c).cell, (chanAt s c).amount)] else (chanAt s c).due) ∧ ((chanAt s c).irqEn = true → (c.val, coreFor s (chanAt s c).core) ∈ t.bar.irqs))) ∧
  (∀ (mb : Bool) (c : Fin 32) (a d len : Nat) (s : State), running s mb = some c → engineOf c = mb → s.clk.rc = false → (chanAt s c).jobs = [] → s.mem.st = .ready → (chanAt s c).src = [⟨a, len, 0⟩] → (chanAt s c).dst = [⟨d, len, 0⟩] → (chanAt s c).swap = 0 → (chanAt s c).bytesDone = 0 → 1 ≤ len → (∀ i, i < len → placeOf (a + i) = .ram) → (∀ i, i < len → placeOf (d + i) = .ram) → (∀ b ∈ (chanAt s c).bursts, burstCause s c b = none) →
      Ends (.dmaRunComplete mb) s (fun t => (chanAt t c).st = .done ∧ (chanAt t c).bytesDone = len ∧ (chanAt s c).startAt + ceilDiv (((chanAt s c).bursts.length - 1) * 1024) (40 * (chanAt s c).share) ≤ t.clk.cycles)) ∧
  (∀ (mb : Bool) (c : Fin 32) (n : Nat) (l : List Nat) (s : State), running s mb = some c → engineOf c = mb → (chanAt s c).jobs = n :: l →
      Ends (.dmaRunComplete mb) s (fun t => (chanAt t c).jobs = l ∧ (chanAt t c).runs = ((chanAt s c).runs + 1) % two32 ∧ (l = [] → (chanAt t c).st = .done ∧ running t mb ≠ some c) ∧ t.mem.ram = s.mem.ram)) ∧
  (∀ (mb : Bool) (c : Fin 32) (b : Burst) (rest : List Burst) (a cause : Nat) (dir : Bool) (s : State), running s mb = some c → engineOf c = mb → restOf (advance c s) c = b :: rest → burstCause (advance c s) c b = some (a, dir, cause) →
      Ends (.dmaBusError mb) s (fun t => (chanAt t c).st = .halted ∧ (chanAt t c).errAddr = a ∧ (chanAt t c).errDir = dir ∧ (chanAt t c).errCause = cause ∧ (chanAt t c).errEntry = (if dir then b.dstEntry else b.srcEntry) ∧ (chanAt t c).bytesDone = (chanAt (advance c s) c).bytesDone ∧ t.mem.ram = (advance c s).mem.ram ∧ (chanAt t c).due = (chanAt s c).due ∧ running t mb ≠ some c)) ∧
  (∀ (c : Fin 32) (s : State), fwChan c = true → ((chanAt s c).st = .done ∨ (chanAt s c).st = .halted) →
      Ends (.dmaAck c) s (fun t => t.mem.dma.get c = { s.mem.dma.get c with st := .idle } ∧ ∀ d : Fin 32, d ≠ c → t.mem.dma.get d = s.mem.dma.get d)) ∧
  (∀ (c : Fin 32) (s : State), fabricUp s = true → fwChan c = true → (chanAt s c).st ≠ .running →
      Ends (.dmaDisable c) s (fun t => t.mem.dma.get c = { s.mem.dma.get c with st := .idle, enable := false } ∧ ∀ d : Fin 32, d ≠ c → t.mem.dma.get d = s.mem.dma.get d)) ∧
  (∀ (c : Fin 32) (cell n d : Nat) (rest : List (Nat × Nat)) (s : State), (chanAt s c).due = (cell, n) :: rest → 512 ≤ cell → d ≠ cell →
      Ends (.dmaSignalRelease c) s (fun t => cellAt t cell = (cellAt s cell + n) % two32 ∧ cellAt t d = cellAt s d ∧ (chanAt t c).due = rest ∧ ∀ d : Fin 32, d ≠ c → t.mem.dma.get d = s.mem.dma.get d))

/-- R421 for the command DMA_DISABLE. Firmware channels are 4 to 15 of each engine (Table 14.5). -/
def Obligations.DisableDropsTheChannel : Prop :=
  (∀ (c : Fin 32) (s : State), fabricUp s = true → fwChan c = true → ((chanAt s c).st = .running → running s (engineOf c) = some c) →
      Ends (.dmaDisable c) s (fun t => (chanAt t c).st = .idle ∧ (chanAt t c).enable = false ∧ (chanAt t c).due = (chanAt s c).due ∧ (∀ k : Fin 8, (c.val, k.val) ∈ t.bar.irqs → (c.val, k.val) ∈ s.bar.irqs) ∧ (chanAt t c).errAddr = (chanAt s c).errAddr ∧ (chanAt t c).errDir = (chanAt s c).errDir ∧ (chanAt t c).errEntry = (chanAt s c).errEntry ∧ (chanAt t c).errCause = (chanAt s c).errCause ∧
      ((chanAt s c).st = .running → running t (engineOf c) = (List.finRange 32).find? (fun d => d != c && engineOf d == engineOf c && (chanAt s d).st == .ready)) ∧
      ((chanAt s c).st ≠ .running → running t (engineOf c) = running s (engineOf c))))

/-- R446 to R449 with Table 15.10. -/
def Obligations.UpdateToShadowReady : Prop :=
  (∀ (au : Auth) (image : List Byte) (s : State), s.oda.serving = true → precheck s au UpdateImageKey 0 (.bytes image) = 0 → updateHome image s = 0 →
      Ends (.updateImageWriteEnd au image) s (fun t => t.bar.upd = .writing ∧ t.bar.updImage = some (parseFw s image) ∧ t.bar.updError = 0 ∧ slotOf t (otherSlot s.bar.bootSlot) = ⟨.writing, none⟩ ∧ t.bar.bootSlot = s.bar.bootSlot ∧ t.bar.fwImage = s.bar.fwImage ∧ t.bar.control = s.bar.control)) ∧
  (∀ (s : State), s.bar.upd = .writing →
      Ends (.updateProgramDone true) s (fun t => t.bar = { s.bar with upd := .verifying, irqs := t.bar.irqs } ∧ t.part = s.part)) ∧
  (∀ (s : State), s.bar.upd = .writing →
      Ends (.updateProgramDone false) s (fun t => t.bar.upd = .failed ∧ t.bar.updError = 0x00071502 ∧ t.bar.control = s.bar.control ∧ t.bar.fwImage = s.bar.fwImage ∧ t.bar.bootSlot = s.bar.bootSlot ∧ slotOf t (otherSlot s.bar.bootSlot) = ⟨.invalid, none⟩)) ∧
  (∀ (x : FwImage) (s : State), s.bar.upd = .verifying → s.bar.updImage = some x → x.trusted = true → x.layout = Config.layoutDigest → rollbackCtr s ≤ x.rollback → getN s Obj.updateMode = 1 →
      Ends (.updateVerifyDone) s (fun t => t.bar.upd = .pendingRestart ∧ t.bar.bootSlot = otherSlot s.bar.bootSlot ∧ slotOf t t.bar.bootSlot = ⟨.valid, some x⟩ ∧ t.bar.restartTrial = true ∧ t.bar.fwImage = s.bar.fwImage ∧ t.bar.control = s.bar.control)) ∧
  (∀ (x : FwImage) (s : State), s.bar.upd = .verifying → s.bar.updImage = some x → x.trusted = true → x.layout = Config.layoutDigest → rollbackCtr s ≤ x.rollback → getN s Obj.updateMode ≠ 1 → formatsFit s x = true →
      Ends (.updateVerifyDone) s (fun t => t.bar.upd = .shadowBoot ∧ slotOf t (otherSlot s.bar.bootSlot) = ⟨.valid, some x⟩ ∧ t.bar.bootSlot = s.bar.bootSlot ∧ t.bar.fwImage = s.bar.fwImage)) ∧
  (∀ (x : FwImage) (s : State), s.bar.upd = .verifying → s.bar.updImage = some x → x.trusted = true → x.layout = Config.layoutDigest → rollbackCtr s ≤ x.rollback → getN s Obj.updateMode ≠ 1 → formatsFit s x = false →
      Ends (.updateVerifyDone) s (fun t => t.bar.upd = .failed ∧ t.bar.updError = 0x00041503 ∧ t.bar.control = s.bar.control ∧ t.bar.fwImage = s.bar.fwImage ∧ t.bar.bootSlot = s.bar.bootSlot ∧ slotOf t (otherSlot s.bar.bootSlot) = ⟨.valid, some x⟩)) ∧
  (∀ (x : FwImage) (s : State), s.bar.upd = .verifying → s.bar.updImage = some x → (x.trusted = false ∨ x.rollback < rollbackCtr s ∨ x.layout ≠ Config.layoutDigest) →
      Ends (.updateVerifyDone) s (fun t => t.bar.upd = .failed ∧ t.bar.updError = (if x.trusted = false then 0x00091501 else if x.rollback < rollbackCtr s then 0x00091502 else 0x00041502) ∧ slotOf t (otherSlot s.bar.bootSlot) = ⟨.invalid, none⟩ ∧ t.bar.fwImage = s.bar.fwImage ∧ t.bar.bootSlot = s.bar.bootSlot)) ∧
  (∀ (s : State), s.bar.upd = .shadowBoot → s.bar.updStarted = false →
      Ends (.shadowStreamDone) s (fun t => roleOf t (1 - ctrl s) = .shadow ∧ roleOf t (ctrl s) = roleOf s (ctrl s) ∧ t.bar.updStarted = true ∧ t.bar.shadowDue = s.clk.cycles + sCycles 10 ∧ t.bar.upd = .shadowBoot)) ∧
  (∀ (c : Fin 2) (s : State), s.part.reset = false → roleOf s c = .shadow → s.bar.upd = .shadowBoot →
      Ends (.shadowHello c) s (fun t => t.bar.upd = .shadowSync ∧ t.bar.clusters = s.bar.clusters ∧ t.bar.fwImage = s.bar.fwImage)) ∧
  (∀ (c : Fin 2) (s : State), s.part.reset = false → (roleOf s c ≠ .shadow ∨ s.bar.upd ≠ .shadowBoot) →
      Ends (.shadowHello c) s (fun t => t.bar = s.bar ∧ getN t Obj.handoverIgnored = getN (inc32 s Obj.handoverIgnored) Obj.handoverIgnored ∧ t.part = s.part)) ∧
  (∀ (s : State), s.bar.upd = .shadowBoot → s.bar.updStarted = true →
      Ends (.shadowBootTimeout) s (fun t => t.bar.upd = .failed ∧ t.bar.updError = 0x00071503 ∧ t.bar.control = s.bar.control ∧ t.bar.fwImage = s.bar.fwImage ∧ t.bar.bootSlot = s.bar.bootSlot ∧ (∀ c : Fin 2, roleOf t c ≠ .shadow) ∧ t.clk = (tickTo s.bar.shadowDue s).clk)) ∧
  (∀ (c : Fin 2) (s : State), s.part.reset = false → roleOf s c = .shadow → s.bar.upd = .shadowSync →
      Ends (.shadowReady c) s (fun t => t.bar.upd = .shadowReady ∧ t.bar.takeT = some (chooseT s).1 ∧ t.bar.takeAt = (chooseT s).2 ∧ getN t Obj.updateTakeoverFrame = (chooseT s).1 ∧ getN s Obj.updateAt ≤ (chooseT s).1 ∧ (s.part.st ≠ .run → frameNs s ≠ 0 → now s + 2 * frameNs s ≤ t.bar.takeAt ∧ t.bar.takeAt = (chooseT s).1 * frameNs s)))

/-- R450 to R453, R465 with Table 15.10, and R491 for the codes of the firmware. -/
def Obligations.UpdateTakeoverAndTrial : Prop :=
  (∀ (s : State), s.bar.upd = .shadowReady →
      Ends (.takeoverHoldStart) s (fun t => t.bar.upd = .takeover ∧ t.bar.holdOn = true ∧ t.bar.finalWritten = false ∧ t.bar.acceptWritten = false ∧ t.clk = (reachCount (s.bar.takeAt - frameNs s) s).clk ∧ t.bar.clusters = s.bar.clusters)) ∧
  (∀ (c : Fin 2) (s : State), s.part.reset = false → roleOf s c = .control → s.bar.upd = .takeover →
      Ends (.takeoverFinal c) s (fun t => t.bar.finalWritten = true ∧ t.bar.acceptWritten = s.bar.acceptWritten ∧ t.bar.upd = .takeover ∧ t.bar.clusters = s.bar.clusters)) ∧
  (∀ (c : Fin 2) (s : State), s.part.reset = false → roleOf s c = .shadow → s.bar.upd = .takeover → s.bar.finalWritten = true →
      Ends (.takeoverAccept c) s (fun t => t.bar.acceptWritten = true ∧ t.bar.finalWritten = true ∧ t.bar.upd = .takeover ∧ t.bar.clusters = s.bar.clusters)) ∧
  (∀ (c : Fin 2) (s : State), s.part.reset = false → s.bar.finalWritten = false →
      Ends (.takeoverAccept c) s (fun t => t.bar = s.bar ∧ getN t Obj.handoverIgnored = getN (inc32 s Obj.handoverIgnored) Obj.handoverIgnored)) ∧
  (∀ (s : State), s.bar.upd = .takeover → s.bar.finalWritten = true → s.bar.acceptWritten = true →
      Ends (.takeover) s (fun t => t.bar.upd = .trial ∧ roleOf t (1 - ctrl s) = .control ∧ roleOf t (ctrl s) = .parked ∧ t.bar.control = (1 - ctrl s).val ∧ t.bar.fwImage = s.bar.updImage ∧ t.bar.fwSlot = otherSlot s.bar.bootSlot ∧ t.bar.holdOn = false ∧ t.bar.healthDue = s.bar.takeAt + 60000000000 ∧ getN t Obj.updateHealthDeadline = s.bar.takeAt + 60000000000 ∧ t.bar.bootSlot = s.bar.bootSlot ∧ t.clk = (reachCount s.bar.takeAt s).clk)) ∧
  (∀ (s : State), s.bar.upd = .takeover → (s.bar.finalWritten = false ∨ s.bar.acceptWritten = false) →
      Ends (.takeover) s (fun t => t.bar.upd = .failed ∧ t.bar.updError = 0x00071504 ∧ t.bar.control = s.bar.control ∧ t.bar.fwImage = s.bar.fwImage ∧ t.bar.bootSlot = s.bar.bootSlot ∧ t.bar.holdOn = false ∧ (∀ c : Fin 2, roleOf t c ≠ .shadow))) ∧
  (∀ (c : Fin 2) (s : State), s.part.reset = false → roleOf s c = .control → s.bar.upd = .trial →
      Ends (.healthPass c) s (fun t => t.bar.healthPassed = (s.bar.healthPassed || decide (now s < s.bar.healthDue)) ∧ t.bar.upd = .trial ∧ t.bar.clusters = s.bar.clusters ∧ t.bar.bootSlot = s.bar.bootSlot)) ∧
  (∀ (c : Fin 2) (kept : Bool) (s : State), s.part.reset = false → roleOf s c = .control → s.bar.upd = .trial → trialPassed s = false → s.bar.restartTrial = false →
      Ends (.healthFail c kept) s (fun t => t.bar.upd = .handedBack ∧ t.bar.updError = 0x00071505 ∧ roleOf t (1 - ctrl s) = .control ∧ roleOf t (ctrl s) = .off ∧ t.bar.control = (1 - ctrl s).val ∧ t.bar.outstanding = [] ∧ t.part.fwRestarting = true ∧ t.bar.bootSlot = s.bar.bootSlot)) ∧
  (∀ (c : Fin 2) (kept : Bool) (s : State), s.part.reset = false → roleOf s c = .control → s.bar.upd = .trial → trialPassed s = false → s.bar.restartTrial = true →
      Ends (.healthFail c kept) s (fun t => t.bar.upd = .handedBack ∧ t.bar.updError = 0x00071505 ∧ t.bar.bootSlot = otherSlot s.bar.bootSlot ∧ t.part.reset = true ∧ t.part.resetDue = s.clk.cycles + msCycles 200)) ∧
  (∀ (kept : Bool) (s : State), s.bar.upd = .trial → trialPassed s = false → s.bar.restartTrial = false →
      Ends (.updateHealthDeadline kept) s (fun t => t.bar.upd = .handedBack ∧ t.bar.updError = 0x00071505 ∧ roleOf t (1 - ctrl s) = .control ∧ roleOf t (ctrl s) = .off ∧ t.bar.control = (1 - ctrl s).val ∧ t.bar.outstanding = [] ∧ t.part.fwRestarting = true ∧ t.bar.bootSlot = s.bar.bootSlot ∧ t.clk.cycles = (reachCount s.bar.healthDue s).clk.cycles)) ∧
  (∀ (au : Auth) (kept : Bool) (s : State), s.oda.serving = true → precheck s au Obj.updateCtrl.key 0 (.num 1) = 0 → (s.bar.upd = .writing ∨ s.bar.upd = .verifying ∨ s.bar.upd = .shadowBoot ∨ s.bar.upd = .shadowSync ∨ s.bar.upd = .shadowReady) →
      Ends (.updateAbort au kept) s (fun t => t.bar.upd = .failed ∧ t.bar.updError = 0x00071508 ∧ t.bar.control = s.bar.control ∧ t.bar.fwImage = s.bar.fwImage ∧ t.bar.bootSlot = s.bar.bootSlot ∧ (∀ c : Fin 2, roleOf t c ≠ .shadow) ∧ (slotOf t (otherSlot s.bar.bootSlot)).st ≠ .writing)) ∧
  (∀ (au : Auth) (kept : Bool) (s : State), s.oda.serving = true → precheck s au Obj.updateCtrl.key 0 (.num 1) = 0 → s.bar.upd = .pendingRestart → s.bar.restartTrial = true →
      Ends (.updateAbort au kept) s (fun t => t.bar.upd = .failed ∧ t.bar.updError = 0x00071508 ∧ t.bar.bootSlot = otherSlot s.bar.bootSlot ∧ t.bar.slotA = s.bar.slotA ∧ t.bar.slotB = s.bar.slotB)) ∧
  (∀ (au : Auth) (kept : Bool) (s : State), s.oda.serving = true → precheck s au Obj.updateCtrl.key 0 (.num 1) = 0 → s.bar.upd = .trial → trialPassed s = false → s.bar.restartTrial = false →
      Ends (.updateAbort au kept) s (fun t => t.bar.upd = .handedBack ∧ t.bar.updError = 0x00071505 ∧ roleOf t (1 - ctrl s) = .control ∧ roleOf t (ctrl s) = .off ∧ t.bar.control = (1 - ctrl s).val ∧ t.bar.outstanding = [] ∧ t.part.fwRestarting = true ∧ t.bar.bootSlot = s.bar.bootSlot)) ∧
  (∀ (au : Auth) (s : State), s.oda.serving = true → precheck s au Obj.updateCtrl.key 0 (.num 2) = 0 → s.bar.upd = .trial →
      Ends (.updateConfirm au) s (fun t => t.bar = { s.bar with confirmed := s.bar.confirmed || decide (now s < s.bar.healthDue), irqs := t.bar.irqs } ∧ t.clk.lastAccept = acceptCount s)) ∧
  (∀ (x : FwImage) (s : State), s.bar.upd = .trial → trialPassed s = true → s.bar.fwImage = some x →
      Ends (.updateCommitDone) s (fun t => t.bar.upd = .committed ∧ t.bar.bootSlot = s.bar.fwSlot ∧ rollbackCtr t = max (rollbackCtr s) x.rollback ∧ (∀ c : Fin 2, roleOf t c ≠ .parked) ∧ t.bar.journal = [] ∧ t.bar.control = s.bar.control ∧ t.bar.fwImage = s.bar.fwImage)) ∧
  (∀ (c : Fin 512) (detail : Nat) (s : State), s.part.reset = false → s.bar.fwImage ≠ none → s.ev.up = true → fwFrozen s = false →
      Ends (.fwCodeRaise c detail) s (fun t => t.ev.held = (if serialized s (.fw c) then s.ev.held ++ [{ mkRec s (.fw c) 0x8000 (detail % two32) false with seq := 0 }] else s.ev.held) ∧ (lookD t.nut.records (evKey (.fw c)) CodeRec.empty).lastDetail = detail % two32 ∧ (lookD t.nut.records (evKey (.fw c)) CodeRec.empty).count = min ((lookD s.nut.records (evKey (.fw c)) CodeRec.empty).count + 1) u64 ∧ t.bar = s.bar))

/-- R484 to R489. That a bucket counts its period from its last token, or from where it ceased to be full, is the model's choice (log 89). -/
def Obligations.RecorderCommitsAndClear : Prop :=
  (∀ (s : State), s.clk.running = true → s.nut.commitTo = none → s.nut.lossCommit = none → fullDue s = true →
      Ends (.recorderFullCommit) s (fun t => t.nut.commitTo = some (if newestNut s.nut = some 0 then 1 else 0, nutSnapshot s) ∧ (nutCopy t.nut (if newestNut s.nut = some 0 then 1 else 0)).valid = false ∧ (newestNut s.nut = some 0 → t.nut.copyA = s.nut.copyA) ∧ (newestNut s.nut = some 1 → t.nut.copyB = s.nut.copyB) ∧ t.nut.lastFullS = getN s Obj.operatingS ∧ getN t Obj.recorderLastFull = ryeStamp s ∧ t.nut.records = s.nut.records)) ∧
  (∀ (k : Fin 2) (d : NutData) (s : State), s.nut.commitTo = some (k.val, d) →
      Ends (.recorderCommitDone true) s (fun t => (nutCopy t.nut k.val).valid = true ∧ (nutCopy t.nut k.val).data = d ∧ (nutCopy t.nut k.val).deltaUsed = 0 ∧ nutCopy t.nut (1 - k).val = nutCopy s.nut (1 - k).val ∧ ((nutCopy s.nut (1 - k).val).valid = true → (nutCopy t.nut (1 - k).val).generation < (nutCopy t.nut k.val).generation) ∧ newestNut t.nut = some k.val ∧ t.nut.commitTo = none ∧ t.ev = s.ev)) ∧
  (∀ (k : Fin 2) (d : NutData) (s : State), s.nut.commitTo = some (k.val, d) →
      Ends (.recorderCommitDone false) s (fun t => (nutCopy t.nut 0).valid = (nutCopy s.nut 0).valid ∧ (nutCopy t.nut 1).valid = (nutCopy s.nut 1).valid ∧ (nutCopy t.nut 0).data = (nutCopy s.nut 0).data ∧ (nutCopy t.nut 1).data = (nutCopy s.nut 1).data ∧ t.nut.commitTo = none)) ∧
  (∀ (c k : Nat) (l : List Nat) (s : State), s.nut.immediate = c :: l → newestNut s.nut = some k → s.nut.commitTo = none → (nutCopy s.nut k).deltaUsed + 144 ≤ deltaBytes →
      Ends (.immediateAppend) s (fun t => t.nut.immediate = l ∧ look (nutCopy t.nut k).data.records c = some (lookD s.nut.records c CodeRec.empty) ∧ (nutCopy t.nut k).deltaUsed = (nutCopy s.nut k).deltaUsed + 144 ∧ (nutCopy t.nut k).generation = (nutCopy s.nut k).generation ∧ t.nut.records = s.nut.records)) ∧
  (∀ (code : Ev) (n : Nat) (s : State), s.clk.running = true → look s.nut.tokens (evKey code) = some n → codeRate s code % 256 ≠ 0 →
      Ends (.tokenRefill code) s (fun t => tokensOf t code = (if codeRate s code / 256 ≤ n + 1 then codeRate s code / 256 else n + 1) ∧ t.clk = (tickTo (lookD s.nut.refilled (evKey code) 0 + ceilDiv 25000000 (codeRate s code % 256)) s).clk ∧ t.nut.records = s.nut.records ∧ t.ev = s.ev)) ∧
  (∀ (s : State), s.clk.running = true → s.nut.sinceSecond = [] →
      Ends (.recorderSuppressed) s (fun t => t.clk = (reachCount ((now s / 1000000000 + 1) * 1000000000) s).clk ∧ t.ev = s.ev ∧ t.nut = s.nut)) ∧
  (∀ (x : Nat × Nat × Nat) (s : State), s.clk.running = true → s.nut.sinceSecond = [x] → s.ev.up = true → codeRate s .recorderSuppressed % 256 = 0 →
      Ends (.recorderSuppressed) s (fun t => t.nut.sinceSecond = [] ∧ (t.ev.held.map (fun r => (r.code, r.detail))) = s.ev.held.map (fun r => (r.code, r.detail)) ++ [(.recorderSuppressed, (x.2.1 % 4096 * 2 ^ 20 + x.2.2) % 2 ^ 32)])) ∧
  (∀ (au : Auth) (s : State), s.oda.serving = true → precheck s au Obj.recorderClear.key 0 (.num 1) = 0 →
      Ends (.recorderClear au) s (fun t => t.nut.records = [] ∧ t.nut.sinceSecond = [] ∧ getN t Obj.operatingS = getN s Obj.operatingS ∧ getN t Obj.powerCycles = getN s Obj.powerCycles ∧ t.rep = s.rep ∧ (∀ a : Fin 8, getN t (Obj.posOnS a.val) = getN s (Obj.posOnS a.val)) ∧ (∀ b : Fin 12, getN t (Obj.peOnS b.val) = getN s (Obj.peOnS b.val)) ∧ getN t Obj.recorderClears = getN (inc32 s Obj.recorderClears) Obj.recorderClears ∧ t.nut.commitTo.isSome = true ∧ (t.nut.commitTo.map (fun x => x.2.records)) = some []))

/-- R483, R492 to R494. -/
def Obligations.InventoryAndSeconds : Prop :=
  (∀ (b : Fin 12) (s : State), s.clk.running = true →
      Ends (.operatingSecond) s (fun t => getN t Obj.operatingS = getN (inc32 s Obj.operatingS) Obj.operatingS ∧ t.nut.secondCycle = s.nut.secondCycle + sCycles 1 ∧ t.clk = (tickTo (s.nut.secondCycle + sCycles 1) s).clk ∧ getN t (Obj.peOnS b.val) = (if (s.br.get b).st = .on then getN (inc32 s (Obj.peOnS b.val)) (Obj.peOnS b.val) else getN s (Obj.peOnS b.val)))) ∧
  (∀ (a : Fin 8) (s : State), s.clk.running = true →
      Ends (.operatingSecond) s (fun t => getN t (Obj.posOnS a.val) = (if accelOn s a = true then getN (inc32 s (Obj.posOnS a.val)) (Obj.posOnS a.val) else getN s (Obj.posOnS a.val)) ∧ lookD t.nut.onSince a.val 0 = lookD s.nut.onSince a.val 0 + (if accelOn s a = true then 1 else 0))) ∧
  (∀ (a : Fin 8) (image : List Byte) (f : Fru) (s : State), (s.part.st = .ready ∨ s.part.st = .run) → accelOn s a = true → parseFru image = some f →
      Ends (.fruRead ⟨a.val, Nat.lt_succ_of_lt a.isLt⟩ (some image)) s (fun t => getBlob t (Blob.accelSerial a.val) = f.serial ∧ getBlob t (Blob.accelManufacturer a.val) = f.maker ∧ getBlob t (Blob.accelPartNumber a.val) = f.part ∧ getN t (Obj.accelFruState a.val) = 1 ∧ (getBlob s (Blob.accelSerial a.val) ≠ f.serial → getN t (Obj.serialInsertions a.val) = lookD s.nut.insPending a.val 0 + min (lookD s.nut.onSince a.val 0) u32 * two32) ∧ (getBlob s (Blob.accelSerial a.val) = f.serial → getN t (Obj.serialInsertions a.val) = getN s (Obj.serialInsertions a.val)))) ∧
  (∀ (a : Fin 8) (image : Option (List Byte)) (s : State), (s.part.st = .ready ∨ s.part.st = .run) → accelOn s a = true → image.bind parseFru = none →
      Ends (.fruRead ⟨a.val, Nat.lt_succ_of_lt a.isLt⟩ image) s (fun t => t.blobs = s.blobs ∧ getN t (Obj.accelFruState a.val) = 2 ∧ getN t (Obj.serialInsertions a.val) = getN s (Obj.serialInsertions a.val))) ∧
  (∀ (image : Option (List Byte)) (s : State), (s.part.st = .ready ∨ s.part.st = .run) →
      Ends (.fruRead 8 image) s (fun t => getN t Obj.trayFruState = (if (image.bind parseFru).isSome then 1 else 2) ∧ getBlob t Blob.traySerial = (match image.bind parseFru with | some f => f.serial | none => getBlob s Blob.traySerial))) ∧
  (∀ (au : Auth) (b k : Fin 12) (bytes : List Byte) (s : State), s.oda.serving = true → precheck s au (Blob.peSerial b.val) 0 (.bytes bytes) = 0 → k ≠ b →
      Ends (.peSerialWrite au b bytes) s (fun t => getBlob t (Blob.peSerial b.val) = bytes ∧ getN t (Obj.peOnS b.val) = 0 ∧ getN t (Obj.peInrushes b.val) = 0 ∧ getN t (Obj.peTrips b.val) = 0 ∧ getN t (Obj.peInrushJ b.val) = 0 ∧ getN t (Obj.peOnS k.val) = getN s (Obj.peOnS k.val) ∧ getBlob t (Blob.peSerial k.val) = getBlob s (Blob.peSerial k.val)))

/-- R495 to R499. That a partial block publishes nothing is deduced (log 88). -/
def Obligations.PowerReports : Prop :=
  (∀ (pkg : Rat) (c : Fin 13) (s : State), s.clk.running = true →
      Ends (.powerSample pkg) s (fun t => (t.rep.get c).win = (s.rep.get c).win + chPower s c ∧ (t.rep.get c).winN = (s.rep.get c).winN + 1 ∧ (t.rep.get c).sec = (s.rep.get c).sec + chPower s c ∧ (t.rep.get c).energy = addEnergy (s.rep.get c).energy (chPower s c) ∧ t.pkgEnergy = addEnergy s.pkgEnergy pkg % 2 ^ 42 ∧ t.br = s.br)) ∧
  (∀ (c : Fin 13) (s : State), s.clk.running = true → (s.rep.get c).winN ≠ 0 →
      Ends (.powerWindowEnd) s (fun t => getN t (Obj.powerNowW c.val) = f32OfRat ((s.rep.get c).win / (s.rep.get c).winN) ∧ (t.rep.get c).win = 0 ∧ (t.rep.get c).winN = 0 ∧ t.clk = (reachCount (windowEnd s) s).clk ∧ (t.rep.get c).sec = (s.rep.get c).sec ∧
      (if (s.rep.get c).fresh = true ∨ Fmt.f32.lt (getN s (Obj.powerPeakW c.val)) (f32OfRat ((s.rep.get c).win / (s.rep.get c).winN)) = true then getN t (Obj.powerPeakW c.val) = getN t (Obj.powerNowW c.val) ∧ getN t (Obj.powerPeakCount c.val) = windowEnd s - frameNs s else getN t (Obj.powerPeakW c.val) = getN s (Obj.powerPeakW c.val) ∧ getN t (Obj.powerPeakCount c.val) = getN s (Obj.powerPeakCount c.val)) ∧ (t.rep.get c).winFrom = windowEnd s - frameNs s ∧ (t.rep.get c).fresh = false)) ∧
  (∀ (c : Fin 13) (s : State), s.clk.running = true → 0 ∈ (s.rep.get c).whole →
      Ends (.avgBlockEnd 0) s (fun t => getN t (Obj.avg1sW c.val) = (if (s.rep.get c).secN = 0 then nanF32 else f32OfRat ((s.rep.get c).sec / (s.rep.get c).secN)) ∧ getN t (Obj.peak1sW c.val) = (s.rep.get c).peakSec.getD nanF32 ∧ (t.rep.get c).sec = 0 ∧ (t.rep.get c).secN = 0 ∧ (t.rep.get c).mnt = (s.rep.get c).mnt ∧ t.clk = (reachCount ((now s / 1000000000 + 1) * 1000000000) s).clk)) ∧
  (∀ (c : Fin 13) (s : State), s.clk.running = true → 1 ∈ (s.rep.get c).whole →
      Ends (.avgBlockEnd 1) s (fun t => getN t (Obj.avg1mW c.val) = (if (s.rep.get c).mntN = 0 then nanF32 else f32OfRat ((s.rep.get c).mnt / (s.rep.get c).mntN)) ∧ (t.rep.get c).mnt = 0 ∧ (t.rep.get c).mntN = 0 ∧ (t.rep.get c).hour = (s.rep.get c).hour)) ∧
  (∀ (c : Fin 13) (s : State), s.clk.running = true → 2 ∈ (s.rep.get c).whole →
      Ends (.avgBlockEnd 2) s (fun t => getN t (Obj.avg1hW c.val) = (if (s.rep.get c).hourN = 0 then nanF32 else f32OfRat ((s.rep.get c).hour / (s.rep.get c).hourN)) ∧ (t.rep.get c).hour = 0 ∧ (t.rep.get c).hourN = 0 ∧ (t.rep.get c).sec = (s.rep.get c).sec)) ∧
  (∀ (c : Fin 13) (s : State), s.clk.running = true → 1 ∉ (s.rep.get c).whole →
      Ends (.avgBlockEnd 1) s (fun t => getN t (Obj.avg1mW c.val) = getN s (Obj.avg1mW c.val) ∧ (t.rep.get c).mnt = 0 ∧ (t.rep.get c).mntN = 0 ∧ 1 ∈ (t.rep.get c).whole ∧ (t.rep.get c).hour = (s.rep.get c).hour)) ∧
  (∀ (au : Auth) (c : Fin 13) (s : State), s.oda.serving = true → precheck s au Obj.peakReset.key 0 (.num 1) = 0 →
      Ends (.peakReset au) s (fun t => (if (s.rep.get c).winAt = some s.clk.cycles then getN t (Obj.powerPeakW c.val) = getN s (Obj.powerNowW c.val) ∧ getN t (Obj.powerPeakCount c.val) = (s.rep.get c).winFrom ∧ t.rep.get c = s.rep.get c else getN t (Obj.powerPeakW c.val) = 0 ∧ getN t (Obj.powerPeakCount c.val) = 0 ∧ t.rep.get c = { s.rep.get c with fresh := true })))

/-- R339. -/
def Obligations.QuarantineRelease : Prop :=
  (∀ (au : Auth) (a : Fin 8) (s : State), s.oda.serving = true → (au = .host ∨ au = .service) → precheck s au (Obj.quarRelease a.val).key 0 (.num 1) = 0 → (s.acc.get a).quarantined = true →
      Ends (.quarRelease au a) s (fun t => t.acc.get a = { s.acc.get a with quarantined := false, faults := [] } ∧ getN t (Obj.quarantine a.val) = 0 ∧ t.sq = s.sq ∧ (admissible t a = admissible { s with acc := vupd s.acc a (fun x => { x with quarantined := false }) } a) ∧ ((s.acc.get a).reqF = .off → (t.acc.get a).wantsOn = false) ∧ (∀ b : Fin 8, b ≠ a → t.acc.get b = s.acc.get b) ∧ (t.oda.answer.map (fun x => x.status)) = some 0)) ∧
  (∀ (au : Auth) (a : Fin 8) (s : State), s.oda.serving = true → (au = .host ∨ au = .service) → precheck s au (Obj.quarRelease a.val).key 0 (.num 1) = 0 → (s.acc.get a).quarantined = false →
      Ends (.quarRelease au a) s (fun t => t.acc = s.acc ∧ t.sq = s.sq ∧ t.br = s.br ∧ t.nums = s.nums ∧ (t.oda.answer.map (fun x => x.status)) = some 0)) ∧
  (∀ (a : Fin 8) (s : State), s.oda.serving = true → s.bar.overrides = [] →
      Ends (.quarRelease .facility a) s (fun t => t.acc = s.acc ∧ t.nums = s.nums ∧ t.br = s.br ∧ t.sq = s.sq ∧ (t.oda.answer.map (fun x => x.status)) = some 0x00060001)) ∧
  (∀ (a b : Fin 8) (seated : Bool) (began : Nat) (s : State), 
      Ends (.presenceEdge a seated began) s (fun t => (t.acc.get b).quarantined = (s.acc.get b).quarantined ∧ getN t (Obj.quarantine b.val) = getN s (Obj.quarantine b.val)))

/-- R61, with the conditions of R322 written out. -/
def Obligations.RunAtLaunchOrMissed : Prop :=
  (∀ (s : State), getN s Obj.launchAt ≠ 0 → s.eng.any = false → (s.part.st = .ready ∧ s.img.inForce ≠ none ∧ activating s = false ∧ s.mem.st = .ready ∧ (s.img.lostDom.get 0 = false ∨ s.img.lostDom.get 1 = false)) →
      Ends (.launch) s (fun t => t.part.st = .run ∧ t.eng.running = true ∧ t.eng.any = true ∧ getN t Obj.launchAt = getN s Obj.launchAt ∧ t.clk = (reachCount (getN s Obj.launchAt) s).clk)) ∧
  (∀ (s : State), getN s Obj.launchAt ≠ 0 → s.eng.any = false → (¬(s.part.st = .ready ∧ s.img.inForce ≠ none ∧ activating s = false ∧ s.mem.st = .ready ∧ (s.img.lostDom.get 0 = false ∨ s.img.lostDom.get 1 = false))) →
      Ends (.launch) s (fun t => getN t Obj.launchAt = 0 ∧ t.part.st = s.part.st ∧ t.eng.running = s.eng.running ∧ t.clk = (reachCount (getN s Obj.launchAt) s).clk ∧
      (lookD t.nut.records (evKey .launchMissed) CodeRec.empty).count = min ((lookD s.nut.records (evKey .launchMissed) CodeRec.empty).count + 1) u64 ∧
      (s.ev.up = true → serialized s .launchMissed = true → t.ev.held.map (·.code) = s.ev.held.map (·.code) ++ [.launchMissed])))

/-- The charge of HOLDUP (R520, R521) and Rye start (R35, R36, R38). -/
def Obligations.RyeReleaseWithAndWithoutTheRcb : Prop :=
  (∀ (v : Rat) (s : State), s.part.st = .off → s.pow.holdup = .off → 36 ≤ v →
      Ends (.converterStart v) s (fun t => t = { s with pow := { s.pow with holdup := .charging, vin := v, vinLost := false } })) ∧
  (∀ (s : State), s.pow.holdup = .charging →
      Ends (.holdupFail) s (fun t => t = { s with pow := { s.pow with holdup := .failed } })) ∧
  (∀ (seated enabled thermtrip : Nat) (c : NorCopy) (s : State), s.pow.holdup = .charging → newestCopy s.pow.rcbA s.pow.rcbB = some c →
      Ends (.ryeRelease seated enabled thermtrip) s (fun t => t.part.st = .standby ∧ t.clk.running = true ∧ t.clk.rc = false ∧ t.pow.holdup = .released ∧ t.pow.rcbLoaded = true ∧ t.pow.rcbA = s.pow.rcbA ∧ t.pow.rcbB = s.pow.rcbB ∧
      (∀ b : Fin 12, (t.br.get b).st.live = false ∧ (t.br.get b).en = bitSet enabled b.val) ∧
      (∀ a : Fin 8, (t.br.get (branchOf a)).seated = bitSet seated a.val ∧ (t.sq.get (seqOf a)).thermtripN = bitSet thermtrip a.val ∧
        (getN t (Obj.facilityBootReq a.val) = 1 → (t.acc.get a).reqF = .on) ∧ (getN t (Obj.facilityBootReq a.val) = 2 → (t.acc.get a).reqF = .off) ∧
        (getN t (Obj.hostBootReq a.val) = 1 → (t.acc.get a).reqH = .on) ∧ (getN t (Obj.hostBootReq a.val) = 2 → (t.acc.get a).reqH = .off)))) ∧
  (∀ (seated enabled thermtrip : Nat) (s : State), s.pow.holdup = .charging → newestCopy s.pow.rcbA s.pow.rcbB = none →
      Ends (.ryeRelease seated enabled thermtrip) s (fun t => t.part.st = .standby ∧ t.clk.running = true ∧ t.clk.rc = false ∧ t.pow.holdup = .released ∧ t.pow.rcbInvalid = true ∧ t.pow.norReleased = true ∧ faultLow t = true ∧
      ∀ b : Fin 12, (t.br.get b).st = .off))

/-- The loss of the input in hold-up and its end (R57, R250, R520), with the two copies of R35 and R464. -/
def Obligations.InputLostReturnedAndHoldupEnd : Prop :=
  (∀ (v : Rat) (s : State), s.pow.holdup ≠ .off → v < 28 →
      Ends (.vinLost v) s (fun t => t = { s with pow := { s.pow with vinLost := true, vin := v } })) ∧
  (∀ (v : Rat) (s : State), s.clk.running = true → s.pow.vinLost = true → 28 ≤ v →
      Ends (.vinReturnInHoldup v) s (fun t => t.pow.vinLost = false ∧ t.pow.vin = v ∧ t.clk = { s.clk with rc := false } ∧ t.part = s.part ∧ t.br = s.br ∧ t.sq = s.sq ∧ t.nums = s.nums)) ∧
  (∀ (torn : Torn) (s : State), s.pow.vinLost = true →
      Ends (.holdupEnd torn) s (fun t => t.part.st = .off ∧ t.clk.running = false ∧ t.pow.holdup = .off ∧ t.pending = s.pending ∧ t.ident = s.ident ∧ t.nut.copyA = s.nut.copyA ∧ t.nut.copyB = s.nut.copyB ∧ (∀ b : Fin 12, (t.br.get b).st = .off ∧ (t.br.get b).gate = .off))) ∧
  (∀ (s : State), s.pow.vinLost = true →
      Ends (.holdupEnd .none) s (fun t => t.pow.rcbA = s.pow.rcbA ∧ t.pow.rcbB = s.pow.rcbB ∧ t.pow.norA = s.pow.norA ∧ t.pow.norB = s.pow.norB ∧ t.cardamom.recA = s.cardamom.recA ∧ t.cardamom.recB = s.cardamom.recB)) ∧
  (∀ (torn : Torn) (s : State), s.pow.vinLost = true → openCommit true s = none → openCommit false s = none → s.cardamom.commit = none →
      Ends (.holdupEnd torn) s (fun t => t.pow.rcbA = s.pow.rcbA ∧ t.pow.rcbB = s.pow.rcbB ∧ t.pow.norA = s.pow.norA ∧ t.pow.norB = s.pow.norB ∧ t.cardamom.recA = s.cardamom.recA ∧ t.cardamom.recB = s.cardamom.recB)) ∧
  (∀ (a b new : NorCopy) (s : State), s.pow.vinLost = true → openCommit true s = some (a, b, new) →
      Ends (.holdupEnd .rcbA) s (fun t => t.pow.rcbA = { a with valid := false } ∧ t.pow.rcbB = b ∧ t.pow.norA = s.pow.norA ∧ t.pow.norB = s.pow.norB ∧ t.cardamom.recA = s.cardamom.recA ∧ t.cardamom.recB = s.cardamom.recB)) ∧
  (∀ (a b new : NorCopy) (s : State), s.pow.vinLost = true → openCommit true s = some (a, b, new) →
      Ends (.holdupEnd .rcbB) s (fun t => t.pow.rcbA = new ∧ t.pow.rcbB = { b with valid := false } ∧ t.pow.norA = s.pow.norA ∧ t.pow.norB = s.pow.norB ∧ t.cardamom.recA = s.cardamom.recA ∧ t.cardamom.recB = s.cardamom.recB)) ∧
  (∀ (a b new : NorCopy) (s : State), s.pow.vinLost = true → openCommit false s = some (a, b, new) →
      Ends (.holdupEnd .norA) s (fun t => t.pow.norA = { a with valid := false } ∧ t.pow.norB = b ∧ t.pow.rcbA = s.pow.rcbA ∧ t.pow.rcbB = s.pow.rcbB ∧ t.cardamom.recA = s.cardamom.recA ∧ t.cardamom.recB = s.cardamom.recB)) ∧
  (∀ (a b new : NorCopy) (s : State), s.pow.vinLost = true → openCommit false s = some (a, b, new) →
      Ends (.holdupEnd .norB) s (fun t => t.pow.norA = new ∧ t.pow.norB = { b with valid := false } ∧ t.pow.rcbA = s.pow.rcbA ∧ t.pow.rcbB = s.pow.rcbB ∧ t.cardamom.recA = s.cardamom.recA ∧ t.cardamom.recB = s.cardamom.recB)) ∧
  (∀ (a b : SecRecord) (at_ : Nat) (s : State), s.pow.vinLost = true → s.cardamom.commit = some (a, b, at_) → s.clk.cycles ≤ at_ + msCycles 25 →
      Ends (.holdupEnd .secA) s (fun t => t.cardamom.recA = { a with valid := false } ∧ t.cardamom.recB = b ∧ t.pow.rcbA = s.pow.rcbA ∧ t.pow.rcbB = s.pow.rcbB ∧ t.pow.norA = s.pow.norA ∧ t.pow.norB = s.pow.norB)) ∧
  (∀ (a b : SecRecord) (at_ : Nat) (s : State), s.pow.vinLost = true → s.cardamom.commit = some (a, b, at_) → s.clk.cycles ≤ at_ + msCycles 25 →
      Ends (.holdupEnd .secB) s (fun t => t.cardamom.recA = s.cardamom.recA ∧ t.cardamom.recB = { b with valid := false } ∧ t.pow.rcbA = s.pow.rcbA ∧ t.pow.rcbB = s.pow.rcbB ∧ t.pow.norA = s.pow.norA ∧ t.pow.norB = s.pow.norB))

/-- R61 with R322 and R194, the cutoff of R65, and the frames of R63. -/
def Obligations.LaunchToFrameStart : Prop :=
  (∀ (s : State), getN s Obj.launchAt ≠ 0 → s.eng.any = false → (s.part.st = .ready ∧ s.img.inForce ≠ none ∧ activating s = false ∧ s.mem.st = .ready ∧ (s.img.lostDom.get 0 = false ∨ s.img.lostDom.get 1 = false)) →
      Ends (.launch) s (fun t => t.part.st = .run ∧ t.eng.running = true ∧ t.eng.any = true ∧ t.eng.next = s.eng.next ∧ getN t Obj.launchAt = getN s Obj.launchAt)) ∧
  (∀ (s : State), getN s Obj.launchAt ≠ 0 → s.eng.any = false → (¬(s.part.st = .ready ∧ s.img.inForce ≠ none ∧ activating s = false ∧ s.mem.st = .ready ∧ (s.img.lostDom.get 0 = false ∨ s.img.lostDom.get 1 = false))) →
      Ends (.launch) s (fun t => getN t Obj.launchAt = 0 ∧ t.part = s.part ∧ t.eng.running = s.eng.running ∧ t.eng.cutoff = none)) ∧
  (∀ (s : State), (s.eng.any = true ∨ getN s Obj.launchAt = 0) →
      Ends (.launch) s (fun t => t = s)) ∧
  (∀ (s : State), getN s Obj.launchAt ≠ 0 → (s.part.st = .run ∨ (s.part.st = .ready ∧ s.eng.any = false)) → s.eng.cutoff = none →
      Ends (.frameCutoff) s (fun t => t.eng.cutoff = some s.eng.next ∧ t.eng.arriving = [] ∧ t.eng.next = s.eng.next ∧ t.part = s.part ∧ t.clk = (reachCount (cutoffOf s s.eng.next) s).clk)) ∧
  (∀ (s : State), s.eng.cutoff = some s.eng.next → s.part.st = .run → s.eng.mainDone = true → runsFrame s s.eng.next = true →
      Ends (.frameStart) s (fun t => t.eng.frame = s.eng.next ∧ t.eng.next = s.eng.next + 1 ∧ t.eng.cutoff = none ∧ t.eng.p0Done = false ∧ t.eng.mainDone = false ∧ t.part.st = .run ∧ t.eng.cur.frame = s.eng.next ∧ t.eng.cur.skipped = false ∧ getN t Obj.framesSkipped = getN s Obj.framesSkipped)) ∧
  (∀ (s : State), s.eng.cutoff = some s.eng.next → s.part.st = .run → s.eng.mainDone = true → runsFrame s s.eng.next = false →
      Ends (.frameStart) s (fun t => t.eng.frame = s.eng.next ∧ t.eng.next = s.eng.next + 1 ∧ t.eng.mainDone = true ∧ t.eng.cur.skipped = true ∧ getN t Obj.framesSkipped = min (getN s Obj.framesSkipped + 1) 0xFFFFFFFFFFFFFFFF))

/-- R63, R163 and R164 with the conditions of R322, and what R321 and R406 say of a launch that cannot be rejoined. -/
def Obligations.RestoreAndRejoin : Prop :=
  (∀ (lostNew lostOld : Bool) (badNew badOld : List Nat) (s : State), s.part.restorePending = true → s.part.st = .ready →
      Ends (.checkpointRestoreDone lostNew lostOld badNew badOld) s (fun t => t.part.restorePending = false ∧ t.part.restored = true ∧ t.part.restoredAt = now s ∧ t.part.st = .ready ∧ t.part.safeCause = s.part.safeCause ∧ t.clk = s.clk ∧ t.nums = s.nums)) ∧
  (∀ (lostNew lostOld : Bool) (badNew badOld : List Nat) (n : Nat) (c : Ckpt) (s : State), s.part.restorePending = true → s.part.st = .ready → newestCkpt (dropHeaders lostNew lostOld s) = some c → c.entries.any (fun e => e.session == n) = false →
      Ends (.checkpointRestoreDone lostNew lostOld badNew badOld) s (fun t => (getSess t n).live = false)) ∧
  (∀ (lostNew lostOld : Bool) (badNew badOld : List Nat) (n : Nat) (s : State), s.part.restorePending = true → s.part.st = .ready → newestCkpt (dropHeaders lostNew lostOld s) = none →
      Ends (.checkpointRestoreDone lostNew lostOld badNew badOld) s (fun t => (getSess t n).live = false)) ∧
  (∀ (s : State), getN s Obj.launchAt ≠ 0 → s.eng.any = true → s.part.st = .ready → s.part.restorePending = false → s.part.restored = true → activating s = false → canRun s = true → (getN s Obj.frameStopAt = 0 ∨ startOf s (rejoinFrame s) < getN s Obj.frameStopAt) →
      Ends (.engineRejoin) s (fun t => t.part.st = .run ∧ t.eng.running = true ∧ t.eng.any = true ∧ t.eng.next = rejoinFrame s ∧ t.eng.cutoff = some (rejoinFrame s) ∧ t.part.restored = false ∧
      getN t Obj.framesSkipped = min (getN s Obj.framesSkipped + (rejoinFrame s - s.eng.next)) 0xFFFFFFFFFFFFFFFF)) ∧
  (∀ (s : State), getN s Obj.launchAt ≠ 0 → s.eng.any = true → s.part.st = .ready → s.part.restorePending = false → s.part.restored = true → activating s = false → getN s Obj.frameStopAt ≠ 0 → getN s Obj.frameStopAt ≤ startOf s (rejoinFrame s) →
      Ends (.engineRejoin) s (fun t => t.part = s.part ∧ getN t Obj.launchAt = 0 ∧ getN t Obj.frameStopAt = 0 ∧ t.eng.any = false ∧ t.eng.running = s.eng.running)) ∧
  (∀ (s : State), getN s Obj.launchAt ≠ 0 → s.eng.any = true → s.part.st = .ready → s.part.restorePending = false → s.part.restored = true → activating s = false → canRun s = false → (getN s Obj.frameStopAt = 0 ∨ startOf s (rejoinFrame s) < getN s Obj.frameStopAt) →
      Ends (.engineRejoin) s (fun t => t.part = s.part ∧ getN t Obj.launchAt = 0 ∧ getN t Obj.frameStopAt = 0 ∧ t.eng.any = false ∧ t.eng.running = s.eng.running ∧ t.clk = (reachCount (startOf s (rejoinFrame s)) s).clk))

/-- The release of R339 through the dictionary. -/
def Obligations.QuarantineReleaseOutcomes : Prop :=
  (∀ (au : Auth) (a : Fin 8) (s : State), s.oda.serving = true → precheck s au (Obj.quarRelease a.val).key 0 (.num 1) = 0 → (s.acc.get a).quarantined = true →
      Ends (.quarRelease au a) s (fun t => t.acc = vupd s.acc a (fun x => { x with quarantined := false, faults := [] }) ∧ getN t (Obj.quarantine a.val) = 0 ∧ t.sq = s.sq ∧ t.br = s.br ∧ t.part = s.part ∧ (t.oda.answer.map (fun x => x.status)) = some 0)) ∧
  (∀ (au : Auth) (a : Fin 8) (s : State), s.oda.serving = true → precheck s au (Obj.quarRelease a.val).key 0 (.num 1) = 0 → (s.acc.get a).quarantined = false →
      Ends (.quarRelease au a) s (fun t => t.acc = s.acc ∧ t.sq = s.sq ∧ t.br = s.br ∧ t.part = s.part ∧ t.nums = s.nums ∧ (t.oda.answer.map (fun x => x.status)) = some 0)) ∧
  (∀ (au : Auth) (a : Fin 8) (s : State), s.oda.serving = true → precheck s au (Obj.quarRelease a.val).key 0 (.num 1) ≠ 0 →
      Ends (.quarRelease au a) s (fun t => t.acc = s.acc ∧ t.sq = s.sq ∧ t.br = s.br ∧ t.part = s.part ∧ t.nums = s.nums ∧ (t.oda.answer.map (fun x => x.status)) = some (precheck s au (Obj.quarRelease a.val).key 0 (.num 1)))) ∧
  (∀ (a : Fin 8) (s : State), s.oda.serving = true → s.bar.overrides = [] →
      Ends (.quarRelease .facility a) s (fun t => t.acc = s.acc ∧ t.nums = s.nums ∧ (t.oda.answer.map (fun x => x.status)) = some 0x00060001))
end

