-- ==== Sys2Proof/Laws/Only.lean ====
section
/-! SUPPORT. The frame of an operation: the rules by which `Only` is carried through updates, loops and choices. -/
namespace Sys2Proof.Laws

open Sys2Proof.Machine

/-- Every listed part is allowed. -/
def Covers (l L : List Area) : Prop := ∀ a, a ∈ l → a ∈ L

theorem covers_sub {l m L : List Area} (h : Covers l L) (hm : ∀ a, a ∈ m → a ∈ l) : Covers m L :=
  fun a ha => h a (hm a ha)

theorem covers_refl (l : List Area) : Covers l l := fun _ h => h

theorem only_refl (L : List Area) (s : State) : Only L s s := fun a _ => by cases a <;> rfl

theorem only_mono {l L : List Area} {s t : State} (h : Only l s t) (hL : Covers l L) : Only L s t :=
  fun a ha => h a (fun x => ha (hL a x))

theorem only_trans {L : List Area} {s t u : State} (h : Only L s t) (k : Only L t u) : Only L s u :=
  fun a ha => by
    have x := h a ha
    have y := k a ha
    cases a <;> exact y.trans x

theorem only_forEach {α : Type} {L : List Area} {s0 : State} (l : List α) (f : α → State → State) {s : State}
    (hf : ∀ x u, Only L s0 u → Only L s0 (f x u)) (h : Only L s0 s) : Only L s0 (forEach l f s) := by
  unfold forEach
  induction l generalizing s with
  | nil => exact h
  | cons x t ih => exact ih (hf x s h)

theorem only_foldl {α : Type} {L : List Area} {s0 : State} (l : List α) (f : State → α → State) {s : State}
    (hf : ∀ x u, Only L s0 u → Only L s0 (f u x)) (h : Only L s0 s) : Only L s0 (l.foldl f s) := by
  induction l generalizing s with
  | nil => exact h
  | cons x t ih => exact ih (hf x s h)

theorem only_forAll {L : List Area} {s0 : State} (n : Nat) (f : Fin n → State → State) {s : State}
    (hf : ∀ x u, Only L s0 u → Only L s0 (f x u)) (h : Only L s0 s) : Only L s0 (forAll n f s) :=
  only_foldl _ _ hf h

/-- A later state that is another with listed parts replaced. -/
theorem only_upd {L : List Area} {s t u : State} (h : Only L s t) (k : ∀ a, a ∉ L → sameIn t u a) : Only L s u :=
  only_trans h k

theorem only_ite {L : List Area} {s0 a b : State} {c : Prop} [Decidable c] (ha : c → Only L s0 a) (hb : ¬c → Only L s0 b) :
    Only L s0 (if c then a else b) := by
  by_cases h : c
  · rw [if_pos h]; exact ha h
  · rw [if_neg h]; exact hb h

theorem some_or {c : Prop} [Decidable c] {x t : State} {o : Option State} (e : (if c then some x else o) = some t) :
    x = t ∨ o = some t := by
  by_cases h : c
  · rw [if_pos h] at e; exact .inl (Option.some.inj e)
  · rw [if_neg h] at e; exact .inr e

theorem only_onFin {L : List Area} {s0 s : State} (n k : Nat) (f : Fin n → State)
    (hf : ∀ x, Only L s0 (f x)) (h : Only L s0 s) : Only L s0 (onFin n k f s) := by
  unfold onFin
  split
  · exact hf _
  · exact h

/-! ## One part replaced -/

theorem keep_mk_pending {L : List Area} {s0 s : State} (v : List Instr) (hL : Covers [.pending] L) (h : Only L s0 s) :
    Only L s0 { s with pending := v } :=
  only_upd h (fun a ha => by cases a <;> first | exact absurd (hL _ (by decide)) ha | rfl)

theorem keep_mk_nums {L : List Area} {s0 s : State} (v : Map Nat) (hL : Covers [.nums] L) (h : Only L s0 s) :
    Only L s0 { s with nums := v } :=
  only_upd h (fun a ha => by cases a <;> first | exact absurd (hL _ (by decide)) ha | rfl)

theorem keep_mk_blobs {L : List Area} {s0 s : State} (v : Map (List Byte)) (hL : Covers [.blobs] L) (h : Only L s0 s) :
    Only L s0 { s with blobs := v } :=
  only_upd h (fun a ha => by cases a <;> first | exact absurd (hL _ (by decide)) ha | rfl)

theorem keep_mk_clk {L : List Area} {s0 s : State} (v : Clock) (hL : Covers [.clk] L) (h : Only L s0 s) :
    Only L s0 { s with clk := v } :=
  only_upd h (fun a ha => by cases a <;> first | exact absurd (hL _ (by decide)) ha | rfl)

theorem keep_mk_pow {L : List Area} {s0 s : State} (v : Power) (hL : Covers [.pow] L) (h : Only L s0 s) :
    Only L s0 { s with pow := v } :=
  only_upd h (fun a ha => by cases a <;> first | exact absurd (hL _ (by decide)) ha | rfl)

theorem keep_mk_br {L : List Area} {s0 s : State} (v : Vector Branch 12) (hL : Covers [.br] L) (h : Only L s0 s) :
    Only L s0 { s with br := v } :=
  only_upd h (fun a ha => by cases a <;> first | exact absurd (hL _ (by decide)) ha | rfl)

theorem keep_mk_sq {L : List Area} {s0 s : State} (v : Vector Seq 9) (hL : Covers [.sq] L) (h : Only L s0 s) :
    Only L s0 { s with sq := v } :=
  only_upd h (fun a ha => by cases a <;> first | exact absurd (hL _ (by decide)) ha | rfl)

theorem keep_mk_acc {L : List Area} {s0 s : State} (v : Vector Accel 8) (hL : Covers [.acc] L) (h : Only L s0 s) :
    Only L s0 { s with acc := v } :=
  only_upd h (fun a ha => by cases a <;> first | exact absurd (hL _ (by decide)) ha | rfl)

theorem keep_mk_heat {L : List Area} {s0 s : State} (v : Heat) (hL : Covers [.heat] L) (h : Only L s0 s) :
    Only L s0 { s with heat := v } :=
  only_upd h (fun a ha => by cases a <;> first | exact absurd (hL _ (by decide)) ha | rfl)

theorem keep_mk_cool {L : List Area} {s0 s : State} (v : Cooling) (hL : Covers [.cool] L) (h : Only L s0 s) :
    Only L s0 { s with cool := v } :=
  only_upd h (fun a ha => by cases a <;> first | exact absurd (hL _ (by decide)) ha | rfl)

theorem keep_mk_part {L : List Area} {s0 s : State} (v : Part) (hL : Covers [.part] L) (h : Only L s0 s) :
    Only L s0 { s with part := v } :=
  only_upd h (fun a ha => by cases a <;> first | exact absurd (hL _ (by decide)) ha | rfl)

theorem keep_mk_ev {L : List Area} {s0 s : State} (v : Events) (hL : Covers [.ev] L) (h : Only L s0 s) :
    Only L s0 { s with ev := v } :=
  only_upd h (fun a ha => by cases a <;> first | exact absurd (hL _ (by decide)) ha | rfl)

theorem keep_mk_nut {L : List Area} {s0 s : State} (v : Nutmeg) (hL : Covers [.nut] L) (h : Only L s0 s) :
    Only L s0 { s with nut := v } :=
  only_upd h (fun a ha => by cases a <;> first | exact absurd (hL _ (by decide)) ha | rfl)

theorem keep_mk_rep {L : List Area} {s0 s : State} (v : Vector PowerCh 13) (hL : Covers [.rep] L) (h : Only L s0 s) :
    Only L s0 { s with rep := v } :=
  only_upd h (fun a ha => by cases a <;> first | exact absurd (hL _ (by decide)) ha | rfl)

theorem keep_mk_pkgEnergy {L : List Area} {s0 s : State} (v : Nat) (hL : Covers [.pkgEnergy] L) (h : Only L s0 s) :
    Only L s0 { s with pkgEnergy := v } :=
  only_upd h (fun a ha => by cases a <;> first | exact absurd (hL _ (by decide)) ha | rfl)

theorem keep_mk_oda {L : List Area} {s0 s : State} (v : Oda) (hL : Covers [.oda] L) (h : Only L s0 s) :
    Only L s0 { s with oda := v } :=
  only_upd h (fun a ha => by cases a <;> first | exact absurd (hL _ (by decide)) ha | rfl)

theorem keep_mk_port {L : List Area} {s0 s : State} (v : Ports) (hL : Covers [.port] L) (h : Only L s0 s) :
    Only L s0 { s with port := v } :=
  only_upd h (fun a ha => by cases a <;> first | exact absurd (hL _ (by decide)) ha | rfl)

theorem keep_mk_eng {L : List Area} {s0 s : State} (v : Engine) (hL : Covers [.eng] L) (h : Only L s0 s) :
    Only L s0 { s with eng := v } :=
  only_upd h (fun a ha => by cases a <;> first | exact absurd (hL _ (by decide)) ha | rfl)

theorem keep_mk_img {L : List Area} {s0 s : State} (v : Images) (hL : Covers [.img] L) (h : Only L s0 s) :
    Only L s0 { s with img := v } :=
  only_upd h (fun a ha => by cases a <;> first | exact absurd (hL _ (by decide)) ha | rfl)

theorem keep_mk_ani {L : List Area} {s0 s : State} (v : Anise) (hL : Covers [.ani] L) (h : Only L s0 s) :
    Only L s0 { s with ani := v } :=
  only_upd h (fun a ha => by cases a <;> first | exact absurd (hL _ (by decide)) ha | rfl)

theorem keep_mk_mem {L : List Area} {s0 s : State} (v : Mem) (hL : Covers [.mem] L) (h : Only L s0 s) :
    Only L s0 { s with mem := v } :=
  only_upd h (fun a ha => by cases a <;> first | exact absurd (hL _ (by decide)) ha | rfl)

theorem keep_mk_bar {L : List Area} {s0 s : State} (v : Barley) (hL : Covers [.bar] L) (h : Only L s0 s) :
    Only L s0 { s with bar := v } :=
  only_upd h (fun a ha => by cases a <;> first | exact absurd (hL _ (by decide)) ha | rfl)

theorem keep_mk_cardamom {L : List Area} {s0 s : State} (v : Security) (hL : Covers [.cardamom] L) (h : Only L s0 s) :
    Only L s0 { s with cardamom := v } :=
  only_upd h (fun a ha => by cases a <;> first | exact absurd (hL _ (by decide)) ha | rfl)

theorem keep_mk_ident {L : List Area} {s0 s : State} (v : Ident) (hL : Covers [.ident] L) (h : Only L s0 s) :
    Only L s0 { s with ident := v } :=
  only_upd h (fun a ha => by cases a <;> first | exact absurd (hL _ (by decide)) ha | rfl)

theorem keep_mk_free {L : List Area} {s0 s : State} (v : Nat) (hL : Covers [.free] L) (h : Only L s0 s) :
    Only L s0 { s with free := v } :=
  only_upd h (fun a ha => by cases a <;> first | exact absurd (hL _ (by decide)) ha | rfl)

end Sys2Proof.Laws
end

