-- ==== Sys2Proof/Laws/FrameOps.lean ====
section
/-! SUPPORT. What the operations of Machine/Ops.lean may change: an operation keeps a frame that allows the parts it lists. -/
namespace Sys2Proof.Laws

open Sys2Proof.Machine

theorem keep_updAcc {L : List Area} {u0 : State} (a : Fin 8) (f : Accel → Accel) {s : State} (hL : Covers [.acc] L) (h : Only L u0 s) :
    Only L u0 (updAcc a f s) := by
  unfold updAcc
  repeat' first
    | with_reducible exact h
    | with_reducible assumption
    | extract_lets
    | with_reducible refine keep_mk_acc _ (covers_sub hL (by decide)) ?_
    | exact only_upd (by assumption) (fun a ha => by cases a <;> first | exact absurd (hL _ (by decide)) ha | rfl)

theorem keep_setSess {L : List Area} {u0 : State} (n : Nat) (x : Sess) {s : State} (hL : Covers [.eng] L) (h : Only L u0 s) :
    Only L u0 (setSess n x s) := by
  unfold setSess
  repeat' first
    | with_reducible exact h
    | with_reducible assumption
    | extract_lets
    | with_reducible refine keep_mk_eng _ (covers_sub hL (by decide)) ?_
    | exact only_upd (by assumption) (fun a ha => by cases a <;> first | exact absurd (hL _ (by decide)) ha | rfl)

theorem keep_updSess {L : List Area} {u0 : State} (n : Nat) (f : Sess → Sess) {s : State} (hL : Covers [.eng] L) (h : Only L u0 s) :
    Only L u0 (updSess n f s) := by
  unfold updSess
  repeat' first
    | with_reducible exact h
    | with_reducible assumption
    | extract_lets
    | with_reducible refine keep_setSess _ _ (covers_sub hL (by decide)) ?_

theorem keep_updHost {L : List Area} {u0 : State} (p : Fin 2) (f : HostPort → HostPort) {s : State} (hL : Covers [.port] L) (h : Only L u0 s) :
    Only L u0 (updHost p f s) := by
  unfold updHost
  repeat' first
    | with_reducible exact h
    | with_reducible assumption
    | extract_lets
    | with_reducible refine keep_mk_port _ (covers_sub hL (by decide)) ?_
    | exact only_upd (by assumption) (fun a ha => by cases a <;> first | exact absurd (hL _ (by decide)) ha | rfl)

theorem keep_run {L : List Area} {u0 : State} (n : Nat) {s : State} (hL : Covers [.clk] L) (h : Only L u0 s) :
    Only L u0 (run n s) := by
  unfold run
  repeat' first
    | with_reducible exact h
    | with_reducible assumption
    | extract_lets
    | with_reducible refine keep_mk_clk _ (covers_sub hL (by decide)) ?_
    | exact only_upd (by assumption) (fun a ha => by cases a <;> first | exact absurd (hL _ (by decide)) ha | rfl)

theorem keep_reachCount {L : List Area} {u0 : State} (c : Count) {s : State} (hL : Covers [.clk] L) (h : Only L u0 s) :
    Only L u0 (reachCount c s) := by
  unfold reachCount
  repeat' first
    | with_reducible exact h
    | with_reducible assumption
    | extract_lets
    | with_reducible refine keep_run _ (covers_sub hL (by decide)) ?_
    | split
    | with_reducible refine only_ite (fun _ => ?_) (fun _ => ?_)

theorem keep_tickTo {L : List Area} {u0 : State} (due : Nat) {s : State} (hL : Covers [.clk] L) (h : Only L u0 s) :
    Only L u0 (tickTo due s) := by
  unfold tickTo
  repeat' first
    | with_reducible exact h
    | with_reducible assumption
    | extract_lets
    | with_reducible refine keep_run _ (covers_sub hL (by decide)) ?_
    | split
    | with_reducible refine only_ite (fun _ => ?_) (fun _ => ?_)

theorem keep_setN {L : List Area} {u0 : State} (o : Obj) (v : Nat) {s : State} (hL : Covers [.nums] L) (h : Only L u0 s) :
    Only L u0 (setN s o v) := by
  unfold setN
  repeat' first
    | with_reducible exact h
    | with_reducible assumption
    | extract_lets
    | with_reducible refine keep_mk_nums _ (covers_sub hL (by decide)) ?_
    | exact only_upd (by assumption) (fun a ha => by cases a <;> first | exact absurd (hL _ (by decide)) ha | rfl)

theorem keep_updTile {L : List Area} {u0 : State} (t : Fin 68) (f : Tile → Tile) {s : State} (hL : Covers [.eng] L) (h : Only L u0 s) :
    Only L u0 (updTile t f s) := by
  unfold updTile
  repeat' first
    | with_reducible exact h
    | with_reducible assumption
    | extract_lets
    | with_reducible refine keep_mk_eng _ (covers_sub hL (by decide)) ?_
    | exact only_upd (by assumption) (fun a ha => by cases a <;> first | exact absurd (hL _ (by decide)) ha | rfl)

theorem keep_takeFree {L : List Area} {u0 : State} (w : Nat) {s : State} (hL : Covers [.free] L) (h : Only L u0 s) :
    Only L u0 (takeFree w s).2 := by
  unfold takeFree
  repeat' first
    | with_reducible exact h
    | with_reducible assumption
    | extract_lets
    | with_reducible refine keep_mk_free _ (covers_sub hL (by decide)) ?_
    | exact only_upd (by assumption) (fun a ha => by cases a <;> first | exact absurd (hL _ (by decide)) ha | rfl)
    | dsimp -zeta only

theorem keep_takeFree_eq {L : List Area} {u0 : State} {w : Nat} {s : State} {r : _} {t : State} (e : takeFree w s = (r, t)) (hL : Covers [.free] L) (h : Only L u0 s) :
    Only L u0 t := by
  have k := keep_takeFree w hL h
  rw [e] at k
  exact k

theorem keep_updDma {L : List Area} {u0 : State} (c : Fin 32) (f : DmaCh → DmaCh) {s : State} (hL : Covers [.mem] L) (h : Only L u0 s) :
    Only L u0 (updDma c f s) := by
  unfold updDma
  repeat' first
    | with_reducible exact h
    | with_reducible assumption
    | extract_lets
    | with_reducible refine keep_mk_mem _ (covers_sub hL (by decide)) ?_
    | exact only_upd (by assumption) (fun a ha => by cases a <;> first | exact absurd (hL _ (by decide)) ha | rfl)

theorem keep_incMax {L : List Area} {u0 : State} (o : Obj) (n : Nat) (top : Nat) {s : State} (hL : Covers [.nums] L) (h : Only L u0 s) :
    Only L u0 (incMax s o n top) := by
  unfold incMax
  repeat' first
    | with_reducible exact h
    | with_reducible assumption
    | extract_lets
    | with_reducible refine keep_setN _ _ (covers_sub hL (by decide)) ?_

theorem keep_inc32 {L : List Area} {u0 : State} (o : Obj) {s : State} (hL : Covers [.nums] L) (h : Only L u0 s) :
    Only L u0 (inc32 s o) := by
  unfold inc32
  repeat' first
    | with_reducible exact h
    | with_reducible assumption
    | extract_lets
    | with_reducible refine keep_incMax _ _ _ (covers_sub hL (by decide)) ?_

theorem keep_setBlob {L : List Area} {u0 : State} (k : Nat) (bs : List Byte) {s : State} (hL : Covers [.blobs] L) (h : Only L u0 s) :
    Only L u0 (setBlob s k bs) := by
  unfold setBlob
  repeat' first
    | with_reducible exact h
    | with_reducible assumption
    | extract_lets
    | with_reducible refine keep_mk_blobs _ (covers_sub hL (by decide)) ?_
    | exact only_upd (by assumption) (fun a ha => by cases a <;> first | exact absurd (hL _ (by decide)) ha | rfl)

theorem keep_updBr {L : List Area} {u0 : State} (b : Fin 12) (f : Branch → Branch) {s : State} (hL : Covers [.br] L) (h : Only L u0 s) :
    Only L u0 (updBr b f s) := by
  unfold updBr
  repeat' first
    | with_reducible exact h
    | with_reducible assumption
    | extract_lets
    | with_reducible refine keep_mk_br _ (covers_sub hL (by decide)) ?_
    | exact only_upd (by assumption) (fun a ha => by cases a <;> first | exact absurd (hL _ (by decide)) ha | rfl)

theorem keep_updSeq {L : List Area} {u0 : State} (q : Fin 9) (f : Seq → Seq) {s : State} (hL : Covers [.sq] L) (h : Only L u0 s) :
    Only L u0 (updSeq q f s) := by
  unfold updSeq
  repeat' first
    | with_reducible exact h
    | with_reducible assumption
    | extract_lets
    | with_reducible refine keep_mk_sq _ (covers_sub hL (by decide)) ?_
    | exact only_upd (by assumption) (fun a ha => by cases a <;> first | exact absurd (hL _ (by decide)) ha | rfl)

theorem keep_updRail {L : List Area} {u0 : State} (q : Fin 9) (r : Fin 16) (f : Rail → Rail) {s : State} (hL : Covers [.sq] L) (h : Only L u0 s) :
    Only L u0 (updRail q r f s) := by
  unfold updRail
  repeat' first
    | with_reducible exact h
    | with_reducible assumption
    | extract_lets
    | with_reducible refine keep_updSeq _ _ (covers_sub hL (by decide)) ?_

theorem keep_updOut {L : List Area} {u0 : State} (o : Fin 24) (f : Output → Output) {s : State} (hL : Covers [.cool] L) (h : Only L u0 s) :
    Only L u0 (updOut o f s) := by
  unfold updOut
  repeat' first
    | with_reducible exact h
    | with_reducible assumption
    | extract_lets
    | with_reducible refine keep_mk_cool _ (covers_sub hL (by decide)) ?_
    | exact only_upd (by assumption) (fun a ha => by cases a <;> first | exact absurd (hL _ (by decide)) ha | rfl)

theorem keep_updRep {L : List Area} {u0 : State} (c : Fin 13) (f : PowerCh → PowerCh) {s : State} (hL : Covers [.rep] L) (h : Only L u0 s) :
    Only L u0 (updRep c f s) := by
  unfold updRep
  repeat' first
    | with_reducible exact h
    | with_reducible assumption
    | extract_lets
    | with_reducible refine keep_mk_rep _ (covers_sub hL (by decide)) ?_
    | exact only_upd (by assumption) (fun a ha => by cases a <;> first | exact absurd (hL _ (by decide)) ha | rfl)

theorem keep_updSb {L : List Area} {u0 : State} (p : Fin 8) (f : SbPort → SbPort) {s : State} (hL : Covers [.port] L) (h : Only L u0 s) :
    Only L u0 (updSb p f s) := by
  unfold updSb
  repeat' first
    | with_reducible exact h
    | with_reducible assumption
    | extract_lets
    | with_reducible refine keep_mk_port _ (covers_sub hL (by decide)) ?_
    | exact only_upd (by assumption) (fun a ha => by cases a <;> first | exact absurd (hL _ (by decide)) ha | rfl)

theorem keep_fabricCycle {L : List Area} {u0 : State} {s : State} (hL : Covers [.clk] L) (h : Only L u0 s) :
    Only L u0 (fabricCycle s) := by
  unfold fabricCycle
  repeat' first
    | with_reducible exact h
    | with_reducible assumption
    | extract_lets
    | with_reducible refine keep_run _ (covers_sub hL (by decide)) ?_
    | split
    | with_reducible refine only_ite (fun _ => ?_) (fun _ => ?_)
    | with_reducible refine keep_mk_clk _ (covers_sub hL (by decide)) ?_
    | exact only_upd (by assumption) (fun a ha => by cases a <;> first | exact absurd (hL _ (by decide)) ha | rfl)

theorem keep_inc64 {L : List Area} {u0 : State} (o : Obj) {s : State} (hL : Covers [.nums] L) (h : Only L u0 s) :
    Only L u0 (inc64 s o) := by
  unfold inc64
  repeat' first
    | with_reducible exact h
    | with_reducible assumption
    | extract_lets
    | with_reducible refine keep_incMax _ _ _ (covers_sub hL (by decide)) ?_

end Sys2Proof.Laws
end

