-- ==== Sys2Proof/Laws/FrameEvent.lean ====
section
/-! SUPPORT. What the operations of Machine/Event.lean may change: an operation keeps a frame that allows the parts it lists. -/
namespace Sys2Proof.Laws

open Sys2Proof.Machine

theorem keep_raiseRec {L : List Area} {u0 : State} (e : Ev) (r : EvRec) {s : State} (hL : Covers [.ev, .nut] L) (h : Only L u0 s) :
    Only L u0 (raiseRec e r s) := by
  unfold raiseRec
  repeat' first
    | with_reducible exact h
    | with_reducible assumption
    | extract_lets
    | split
    | with_reducible refine only_ite (fun _ => ?_) (fun _ => ?_)
    | with_reducible refine keep_mk_ev _ (covers_sub hL (by decide)) ?_
    | with_reducible refine keep_mk_nut _ (covers_sub hL (by decide)) ?_
    | exact only_upd (by assumption) (fun a ha => by cases a <;> first | exact absurd (hL _ (by decide)) ha | rfl)
    | dsimp -zeta +zetaDelta only

theorem keep_raiseMain {L : List Area} {u0 : State} (e : Ev) (source : Nat) (detail : Nat) {s : State} (hL : Covers [.ev, .nut] L) (h : Only L u0 s) :
    Only L u0 (raiseMain e source detail s) := by
  unfold raiseMain
  repeat' first
    | with_reducible exact h
    | with_reducible assumption
    | extract_lets
    | with_reducible refine keep_raiseRec _ _ (covers_sub hL (by decide)) ?_

theorem keep_raiseRye {L : List Area} {u0 : State} (e : Ev) (source : Nat) (detail : Nat) {s : State} (hL : Covers [.ev, .nut] L) (h : Only L u0 s) :
    Only L u0 (raiseRye e source detail s) := by
  unfold raiseRye
  repeat' first
    | with_reducible exact h
    | with_reducible assumption
    | extract_lets
    | with_reducible refine keep_raiseRec _ _ (covers_sub hL (by decide)) ?_

theorem keep_noteDegraded {L : List Area} {u0 : State} {s : State} (hL : Covers [.part, .ev, .nut] L) (h : Only L u0 s) :
    Only L u0 (noteDegraded s) := by
  unfold noteDegraded
  repeat' first
    | with_reducible exact h
    | with_reducible assumption
    | extract_lets
    | with_reducible refine keep_raiseMain _ _ _ (covers_sub hL (by decide)) ?_
    | with_reducible refine keep_raiseRye _ _ _ (covers_sub hL (by decide)) ?_
    | split
    | with_reducible refine only_ite (fun _ => ?_) (fun _ => ?_)
    | with_reducible refine keep_mk_part _ (covers_sub hL (by decide)) ?_
    | exact only_upd (by assumption) (fun a ha => by cases a <;> first | exact absurd (hL _ (by decide)) ha | rfl)
    | dsimp -zeta +zetaDelta only

theorem keep_serializerDown {L : List Area} {u0 : State} {s : State} (hL : Covers [.ev, .nut] L) (h : Only L u0 s) :
    Only L u0 (serializerDown s) := by
  unfold serializerDown
  repeat' first
    | with_reducible exact h
    | with_reducible assumption
    | extract_lets
    | with_reducible refine only_foldl _ _ (fun _ _ _ => ?_) ?_
    | with_reducible refine keep_mk_ev _ (covers_sub hL (by decide)) ?_
    | with_reducible refine keep_mk_nut _ (covers_sub hL (by decide)) ?_
    | exact only_upd (by assumption) (fun a ha => by cases a <;> first | exact absurd (hL _ (by decide)) ha | rfl)
    | dsimp -zeta +zetaDelta only

theorem keep_serializerUp {L : List Area} {u0 : State} {s : State} (hL : Covers [.ev] L) (h : Only L u0 s) :
    Only L u0 (serializerUp s) := by
  unfold serializerUp
  repeat' first
    | with_reducible exact h
    | with_reducible assumption
    | extract_lets
    | with_reducible refine only_foldl _ _ (fun _ _ _ => ?_) ?_
    | with_reducible refine keep_mk_ev _ (covers_sub hL (by decide)) ?_
    | exact only_upd (by assumption) (fun a ha => by cases a <;> first | exact absurd (hL _ (by decide)) ha | rfl)
    | dsimp -zeta +zetaDelta only

end Sys2Proof.Laws
end

