-- ==== Sys2Proof/Laws/FrameSync.lean ====
section
/-! SUPPORT. What the operations of Machine/Sync.lean may change: an operation keeps a frame that allows the parts it lists. -/
namespace Sys2Proof.Laws

open Sys2Proof.Machine

theorem keep_setRun {L : List Area} {u0 : State} (mb : Bool) (c : Option Nat) {s : State} (hL : Covers [.mem] L) (h : Only L u0 s) :
    Only L u0 (setRun mb c s) := by
  unfold setRun
  repeat' first
    | with_reducible exact h
    | with_reducible assumption
    | extract_lets
    | split
    | with_reducible refine only_ite (fun _ => ?_) (fun _ => ?_)
    | with_reducible refine keep_mk_mem _ (covers_sub hL (by decide)) ?_
    | exact only_upd (by assumption) (fun a ha => by cases a <;> first | exact absurd (hL _ (by decide)) ha | rfl)

theorem keep_startNext {L : List Area} {u0 : State} (mb : Bool) {s : State} (hL : Covers [.mem] L) (h : Only L u0 s) :
    Only L u0 (startNext mb s) := by
  unfold startNext
  repeat' first
    | with_reducible exact h
    | with_reducible assumption
    | extract_lets
    | with_reducible refine keep_setRun _ _ (covers_sub hL (by decide)) ?_
    | with_reducible refine keep_updDma _ _ (covers_sub hL (by decide)) ?_
    | split

theorem keep_endRun {L : List Area} {u0 : State} (c : Fin 32) {s : State} (hL : Covers [.mem] L) (h : Only L u0 s) :
    Only L u0 (endRun c s) := by
  unfold endRun
  repeat' first
    | with_reducible exact h
    | with_reducible assumption
    | extract_lets
    | with_reducible refine keep_setRun _ _ (covers_sub hL (by decide)) ?_
    | with_reducible refine keep_startNext _ (covers_sub hL (by decide)) ?_

theorem keep_seqLeave {L : List Area} {u0 : State} (c : Fin 32) (st : DmaState) {s : State} (hL : Covers [.mem] L) (h : Only L u0 s) :
    Only L u0 (seqLeave c st s) := by
  unfold seqLeave
  repeat' first
    | with_reducible exact h
    | with_reducible assumption
    | extract_lets
    | with_reducible refine keep_endRun _ (covers_sub hL (by decide)) ?_
    | with_reducible refine keep_updDma _ _ (covers_sub hL (by decide)) ?_
    | split
    | with_reducible refine only_ite (fun _ => ?_) (fun _ => ?_)
    | dsimp -zeta +zetaDelta only

theorem keep_seqCancel {L : List Area} {u0 : State} (c : Fin 32) {s : State} (hL : Covers [.mem] L) (h : Only L u0 s) :
    Only L u0 (seqCancel c s) := by
  unfold seqCancel
  repeat' first
    | with_reducible exact h
    | with_reducible assumption
    | extract_lets
    | with_reducible refine keep_seqLeave _ _ (covers_sub hL (by decide)) ?_
    | split
    | with_reducible refine only_ite (fun _ => ?_) (fun _ => ?_)

theorem keep_milletBytes {L : List Area} {u0 : State} (mb : Bool) (n : Nat) {s : State} (hL : Covers [.nums] L) (h : Only L u0 s) :
    Only L u0 (milletBytes mb n s) := by
  unfold milletBytes
  repeat' first
    | with_reducible exact h
    | with_reducible assumption
    | extract_lets
    | with_reducible refine keep_setN _ _ (covers_sub hL (by decide)) ?_
    | split
    | with_reducible refine only_ite (fun _ => ?_) (fun _ => ?_)
    | dsimp -zeta +zetaDelta only

theorem keep_putSlot {L : List Area} {u0 : State} (k : Nat) (x : WaitSlot) {s : State} (hL : Covers [.mem] L) (h : Only L u0 s) :
    Only L u0 (putSlot k x s) := by
  unfold putSlot
  repeat' first
    | with_reducible exact h
    | with_reducible assumption
    | extract_lets
    | with_reducible refine keep_mk_mem _ (covers_sub hL (by decide)) ?_
    | exact only_upd (by assumption) (fun a ha => by cases a <;> first | exact absurd (hL _ (by decide)) ha | rfl)

theorem keep_raiseIrq {L : List Area} {u0 : State} (source : Nat) (core : Nat) {s : State} (hL : Covers [.bar] L) (h : Only L u0 s) :
    Only L u0 (raiseIrq source core s) := by
  unfold raiseIrq
  repeat' first
    | with_reducible exact h
    | with_reducible assumption
    | extract_lets
    | split
    | with_reducible refine only_ite (fun _ => ?_) (fun _ => ?_)
    | with_reducible refine keep_mk_bar _ (covers_sub hL (by decide)) ?_
    | exact only_upd (by assumption) (fun a ha => by cases a <;> first | exact absurd (hL _ (by decide)) ha | rfl)
    | dsimp -zeta +zetaDelta only

theorem keep_tryFire {L : List Area} {u0 : State} (k : Nat) {s : State} (hL : Covers [.ev, .nut, .mem, .bar] L) (h : Only L u0 s) :
    Only L u0 (tryFire k s) := by
  unfold tryFire
  repeat' first
    | with_reducible exact h
    | with_reducible assumption
    | extract_lets
    | with_reducible refine keep_putSlot _ _ (covers_sub hL (by decide)) ?_
    | with_reducible refine keep_raiseIrq _ _ (covers_sub hL (by decide)) ?_
    | with_reducible refine keep_raiseMain _ _ _ (covers_sub hL (by decide)) ?_
    | split
    | with_reducible refine only_ite (fun _ => ?_) (fun _ => ?_)
    | dsimp -zeta +zetaDelta only

theorem keep_cellChanged {L : List Area} {u0 : State} (c : Nat) {s : State} (hL : Covers [.ev, .nut, .mem, .bar] L) (h : Only L u0 s) :
    Only L u0 (cellChanged c s) := by
  unfold cellChanged
  repeat' first
    | with_reducible exact h
    | with_reducible assumption
    | extract_lets
    | with_reducible refine keep_tryFire _ (covers_sub hL (by decide)) ?_
    | with_reducible refine only_forEach _ _ (fun _ _ _ => ?_) ?_

theorem keep_putCell {L : List Area} {u0 : State} (c : Nat) (v : Nat) {s : State} (hL : Covers [.mem] L) (h : Only L u0 s) :
    Only L u0 (putCell c v s) := by
  unfold putCell
  repeat' first
    | with_reducible exact h
    | with_reducible assumption
    | extract_lets
    | with_reducible refine keep_mk_mem _ (covers_sub hL (by decide)) ?_
    | exact only_upd (by assumption) (fun a ha => by cases a <;> first | exact absurd (hL _ (by decide)) ha | rfl)

theorem keep_signalCell {L : List Area} {u0 : State} (c : Nat) (n : Nat) {s : State} (hL : Covers [.ev, .nut, .mem, .bar] L) (h : Only L u0 s) :
    Only L u0 (signalCell c n s) := by
  unfold signalCell
  repeat' first
    | with_reducible exact h
    | with_reducible assumption
    | extract_lets
    | with_reducible refine keep_cellChanged _ (covers_sub hL (by decide)) ?_
    | with_reducible refine keep_putCell _ _ (covers_sub hL (by decide)) ?_

theorem keep_seqOne {L : List Area} {u0 : State} (c : Fin 32) (n : Nat) {s : State} (hL : Covers [.nums, .ev, .nut, .mem, .bar] L) (h : Only L u0 s) :
    Only L u0 (seqOne c n s) := by
  unfold seqOne
  repeat' first
    | with_reducible exact h
    | with_reducible assumption
    | extract_lets
    | with_reducible refine keep_inc32 _ (covers_sub hL (by decide)) ?_
    | with_reducible refine keep_milletBytes _ _ (covers_sub hL (by decide)) ?_
    | with_reducible refine keep_signalCell _ _ (covers_sub hL (by decide)) ?_
    | with_reducible refine keep_updDma _ _ (covers_sub hL (by decide)) ?_
    | split
    | with_reducible refine only_ite (fun _ => ?_) (fun _ => ?_)

theorem keep_seqRun {L : List Area} {u0 : State} (c : Fin 32) (bytes : Nat) {s : State} (hL : Covers [.nums, .ev, .nut, .mem, .bar] L) (h : Only L u0 s) :
    Only L u0 (seqRun c bytes s) := by
  unfold seqRun
  repeat' first
    | with_reducible exact h
    | with_reducible assumption
    | extract_lets
    | with_reducible refine keep_seqOne _ _ (covers_sub hL (by decide)) ?_
    | with_reducible refine only_forEach _ _ (fun _ _ _ => ?_) ?_

theorem keep_seqFinish {L : List Area} {u0 : State} (c : Fin 32) {s : State} (hL : Covers [.nums, .ev, .nut, .mem, .bar] L) (h : Only L u0 s) :
    Only L u0 (seqFinish c s) := by
  unfold seqFinish
  repeat' first
    | with_reducible exact h
    | with_reducible assumption
    | extract_lets
    | with_reducible refine keep_seqLeave _ _ (covers_sub hL (by decide)) ?_
    | with_reducible refine keep_seqOne _ _ (covers_sub hL (by decide)) ?_
    | with_reducible refine only_forEach _ _ (fun _ _ _ => ?_) ?_
    | split
    | with_reducible refine only_ite (fun _ => ?_) (fun _ => ?_)

theorem keep_seqStart {L : List Area} {u0 : State} (c : Fin 32) (bytes : Nat) {s : State} (hL : Covers [.mem] L) (h : Only L u0 s) :
    Only L u0 (seqStart c bytes s) := by
  unfold seqStart
  repeat' first
    | with_reducible exact h
    | with_reducible assumption
    | extract_lets
    | with_reducible refine keep_startNext _ (covers_sub hL (by decide)) ?_
    | with_reducible refine keep_updDma _ _ (covers_sub hL (by decide)) ?_
    | split
    | with_reducible refine only_ite (fun _ => ?_) (fun _ => ?_)

theorem keep_routeIrq {L : List Area} {u0 : State} (source : Nat) {s : State} (hL : Covers [.bar] L) (h : Only L u0 s) :
    Only L u0 (routeIrq source s) := by
  unfold routeIrq
  repeat' first
    | with_reducible exact h
    | with_reducible assumption
    | extract_lets
    | with_reducible refine keep_raiseIrq _ _ (covers_sub hL (by decide)) ?_
    | split
    | with_reducible refine only_ite (fun _ => ?_) (fun _ => ?_)
    | dsimp -zeta +zetaDelta only

theorem keep_setCell {L : List Area} {u0 : State} (c : Nat) (v : Nat) {s : State} (hL : Covers [.ev, .nut, .mem, .bar] L) (h : Only L u0 s) :
    Only L u0 (setCell c v s) := by
  unfold setCell
  repeat' first
    | with_reducible exact h
    | with_reducible assumption
    | extract_lets
    | with_reducible refine keep_cellChanged _ (covers_sub hL (by decide)) ?_
    | with_reducible refine keep_putCell _ _ (covers_sub hL (by decide)) ?_
    | split
    | with_reducible refine only_ite (fun _ => ?_) (fun _ => ?_)
    | dsimp -zeta +zetaDelta only

theorem keep_updCluster {L : List Area} {u0 : State} (c : Fin 2) (f : Cluster → Cluster) {s : State} (hL : Covers [.bar] L) (h : Only L u0 s) :
    Only L u0 (updCluster c f s) := by
  unfold updCluster
  repeat' first
    | with_reducible exact h
    | with_reducible assumption
    | extract_lets
    | with_reducible refine keep_mk_bar _ (covers_sub hL (by decide)) ?_
    | exact only_upd (by assumption) (fun a ha => by cases a <;> first | exact absurd (hL _ (by decide)) ha | rfl)

theorem keep_tileSignal {L : List Area} {u0 : State} (c : Nat) (n : Nat) {s : State} (hL : Covers [.nums, .ev, .nut, .mem, .bar] L) (h : Only L u0 s) :
    Only L u0 (tileSignal c n s) := by
  unfold tileSignal
  repeat' first
    | with_reducible exact h
    | with_reducible assumption
    | extract_lets
    | with_reducible refine keep_inc32 _ (covers_sub hL (by decide)) ?_
    | with_reducible refine keep_signalCell _ _ (covers_sub hL (by decide)) ?_
    | split
    | with_reducible refine only_ite (fun _ => ?_) (fun _ => ?_)

theorem keep_seqHalt {L : List Area} {u0 : State} (c : Fin 32) (cause : Nat) {s : State} (hL : Covers [.nums, .ev, .nut, .mem, .free] L) (h : Only L u0 s) :
    Only L u0 (seqHalt c cause s) := by
  unfold seqHalt
  repeat' first
    | with_reducible exact h
    | with_reducible assumption
    | extract_lets
    | with_reducible refine keep_inc32 _ (covers_sub hL (by decide)) ?_
    | with_reducible refine keep_raiseMain _ _ _ (covers_sub hL (by decide)) ?_
    | with_reducible refine keep_seqLeave _ _ (covers_sub hL (by decide)) ?_
    | with_reducible refine keep_setN _ _ (covers_sub hL (by decide)) ?_
    | with_reducible refine keep_takeFree _ (covers_sub hL (by decide)) ?_
    | with_reducible refine keep_takeFree_eq (by assumption) (covers_sub hL (by decide)) ?_
    | with_reducible refine keep_updDma _ _ (covers_sub hL (by decide)) ?_
    | split
    | dsimp -zeta +zetaDelta only

theorem keep_seqStep {L : List Area} {u0 : State} (c : Fin 32) {s : State} (hL : Covers [.nums, .ev, .nut, .mem, .bar] L) (h : Only L u0 s) :
    Only L u0 (seqStep c s) := by
  unfold seqStep
  repeat' first
    | with_reducible exact h
    | with_reducible assumption
    | extract_lets
    | with_reducible refine keep_endRun _ (covers_sub hL (by decide)) ?_
    | with_reducible refine keep_seqOne _ _ (covers_sub hL (by decide)) ?_
    | with_reducible refine keep_updDma _ _ (covers_sub hL (by decide)) ?_
    | split
    | with_reducible refine only_ite (fun _ => ?_) (fun _ => ?_)

theorem keep_clusterIrq {L : List Area} {u0 : State} (source : Nat) (c : Fin 2) {s : State} (hL : Covers [.bar] L) (h : Only L u0 s) :
    Only L u0 (clusterIrq source c s) := by
  unfold clusterIrq
  repeat' first
    | with_reducible exact h
    | with_reducible assumption
    | extract_lets
    | with_reducible refine keep_raiseIrq _ _ (covers_sub hL (by decide)) ?_
    | split
    | with_reducible refine only_ite (fun _ => ?_) (fun _ => ?_)
    | dsimp -zeta +zetaDelta only

end Sys2Proof.Laws
end

