-- ==== Sys2Proof/Laws/FrameCaps.lean ====
section
/-! SUPPORT. What the operations of Machine/Caps.lean may change: an operation keeps a frame that allows the parts it lists. -/
namespace Sys2Proof.Laws

open Sys2Proof.Machine

theorem keep_recomputeCap {L : List Area} {u0 : State} (a : Fin 8) {s : State} (hL : Covers [.acc] L) (h : Only L u0 s) :
    Only L u0 (recomputeCap a s) := by
  unfold recomputeCap
  repeat' first
    | with_reducible exact h
    | with_reducible assumption
    | extract_lets
    | with_reducible refine keep_updAcc _ _ (covers_sub hL (by decide)) ?_
    | split
    | with_reducible refine only_ite (fun _ => ?_) (fun _ => ?_)
    | dsimp -zeta +zetaDelta only

theorem keep_seeTemp {L : List Area} {u0 : State} (a : Fin 8) (t : Rat) {s : State} (hL : Covers [.acc] L) (h : Only L u0 s) :
    Only L u0 (seeTemp a t s) := by
  unfold seeTemp
  repeat' first
    | with_reducible exact h
    | with_reducible assumption
    | extract_lets
    | with_reducible refine keep_updAcc _ _ (covers_sub hL (by decide)) ?_
    | split
    | with_reducible refine only_ite (fun _ => ?_) (fun _ => ?_)
    | dsimp -zeta +zetaDelta only

theorem keep_recomputeCaps {L : List Area} {u0 : State} {s : State} (hL : Covers [.acc] L) (h : Only L u0 s) :
    Only L u0 (recomputeCaps s) := by
  unfold recomputeCaps
  repeat' first
    | with_reducible exact h
    | with_reducible assumption
    | extract_lets
    | with_reducible refine keep_recomputeCap _ (covers_sub hL (by decide)) ?_
    | with_reducible refine only_forAll _ _ (fun _ _ _ => ?_) ?_
    | split
    | with_reducible refine only_ite (fun _ => ?_) (fun _ => ?_)

theorem keep_abandonTick {L : List Area} {u0 : State} {s : State} (hL : Covers [.acc, .ani] L) (h : Only L u0 s) :
    Only L u0 (abandonTick s) := by
  unfold abandonTick
  repeat' first
    | with_reducible exact h
    | with_reducible assumption
    | extract_lets
    | with_reducible refine keep_recomputeCaps (covers_sub hL (by decide)) ?_
    | with_reducible refine keep_mk_ani _ (covers_sub hL (by decide)) ?_
    | exact only_upd (by assumption) (fun a ha => by cases a <;> first | exact absurd (hL _ (by decide)) ha | rfl)

end Sys2Proof.Laws
end

