-- ==== Sys2Proof/Laws/FrameCheck.lean ====
section
/-! SUPPORT. What the operations of Machine/Check.lean may change: an operation keeps a frame that allows the parts it lists. -/
namespace Sys2Proof.Laws

open Sys2Proof.Machine

theorem keep_commitBoth {L : List Area} {u0 : State} (f : NorCopy → NorCopy) (rcb : Bool) {s : State} (hL : Covers [.pow] L) (h : Only L u0 s) :
    Only L u0 (commitBoth f rcb s) := by
  unfold commitBoth
  repeat' first
    | with_reducible exact h
    | with_reducible assumption
    | extract_lets
    | split
    | with_reducible refine only_ite (fun _ => ?_) (fun _ => ?_)
    | with_reducible refine keep_mk_pow _ (covers_sub hL (by decide)) ?_
    | exact only_upd (by assumption) (fun a ha => by cases a <;> first | exact absurd (hL _ (by decide)) ha | rfl)
    | dsimp -zeta +zetaDelta only

theorem keep_commitNum {L : List Area} {u0 : State} (key : Nat) (v : Nat) (dflt : Nat) (rcb : Bool) {s : State} (hL : Covers [.nums, .pow] L) (h : Only L u0 s) :
    Only L u0 (commitNum key v dflt rcb s) := by
  unfold commitNum
  repeat' first
    | with_reducible exact h
    | with_reducible assumption
    | extract_lets
    | with_reducible refine keep_commitBoth _ _ (covers_sub hL (by decide)) ?_

theorem keep_storeNum {L : List Area} {u0 : State} (o : Obj) (v : Nat) {s : State} (hL : Covers [.nums, .pow] L) (h : Only L u0 s) :
    Only L u0 (storeNum o v s) := by
  unfold storeNum
  repeat' first
    | with_reducible exact h
    | with_reducible assumption
    | extract_lets
    | with_reducible refine keep_commitNum _ _ _ _ (covers_sub hL (by decide)) ?_
    | with_reducible refine keep_setN _ _ (covers_sub hL (by decide)) ?_
    | split
    | with_reducible refine only_ite (fun _ => ?_) (fun _ => ?_)

theorem keep_accept {L : List Area} {u0 : State} (eff : Count → State → State) {s : State}
    (he : ∀ c u, Only L u0 u → Only L u0 (eff c u)) (hL : Covers [.clk, .oda] L) (h : Only L u0 s) : Only L u0 (accept eff s) :=
  he _ _ (keep_mk_oda _ (covers_sub hL (by decide)) (keep_mk_clk _ (covers_sub hL (by decide)) h))

theorem keep_refuse {L : List Area} {u0 : State} (code : Nat) {s : State} (hL : Covers [.oda] L) (h : Only L u0 s) :
    Only L u0 (refuse code s) := by
  unfold refuse
  repeat' first
    | with_reducible exact h
    | with_reducible assumption
    | extract_lets
    | with_reducible refine keep_mk_oda _ (covers_sub hL (by decide)) ?_
    | exact only_upd (by assumption) (fun a ha => by cases a <;> first | exact absurd (hL _ (by decide)) ha | rfl)

theorem keep_writeStep {L : List Area} {u0 : State} (au : Auth) (key : Nat) (v : Value) (home : State → Nat)
    (eff : Count → State → State) {s : State} (he : ∀ c u, Only L u0 u → Only L u0 (eff c u)) (hL : Covers [.clk, .oda] L)
    (h : Only L u0 s) : Only L u0 (writeStep au key v home eff s) := by
  unfold writeStep
  repeat' first
    | with_reducible exact h
    | extract_lets
    | with_reducible refine keep_refuse _ (covers_sub hL (by decide)) ?_
    | with_reducible refine keep_accept _ (fun _ _ _ => ?_) (covers_sub hL (by decide)) ?_
    | with_reducible (apply he; assumption)
    | split

theorem keep_commitBlob {L : List Area} {u0 : State} (key : Nat) (bs : List Byte) (rcb : Bool) {s : State} (hL : Covers [.blobs, .pow] L) (h : Only L u0 s) :
    Only L u0 (commitBlob key bs rcb s) := by
  unfold commitBlob
  repeat' first
    | with_reducible exact h
    | with_reducible assumption
    | extract_lets
    | with_reducible refine keep_commitBoth _ _ (covers_sub hL (by decide)) ?_

theorem keep_storeBlob {L : List Area} {u0 : State} (key : Nat) (bs : List Byte) {s : State} (hL : Covers [.blobs, .pow] L) (h : Only L u0 s) :
    Only L u0 (storeBlob key bs s) := by
  unfold storeBlob
  repeat' first
    | with_reducible exact h
    | with_reducible assumption
    | extract_lets
    | with_reducible refine keep_commitBlob _ _ _ (covers_sub hL (by decide)) ?_
    | with_reducible refine keep_setBlob _ _ (covers_sub hL (by decide)) ?_
    | split
    | with_reducible refine only_ite (fun _ => ?_) (fun _ => ?_)

end Sys2Proof.Laws
end

