-- ==== Sys2Proof/Laws/FrameMeas.lean ====
section
/-! SUPPORT. What the operations of Machine/Meas.lean may change: an operation keeps a frame that allows the parts it lists. -/
namespace Sys2Proof.Laws

open Sys2Proof.Machine

theorem keep_logMeas {L : List Area} {u0 : State} (kind : Nat) (digest : List Byte) (extra : Nat) {s : State} (hL : Covers [.cardamom] L) (h : Only L u0 s) :
    Only L u0 (logMeas kind digest extra s) := by
  unfold logMeas
  repeat' first
    | with_reducible exact h
    | with_reducible assumption
    | extract_lets
    | with_reducible refine keep_mk_cardamom _ (covers_sub hL (by decide)) ?_
    | exact only_upd (by assumption) (fun a ha => by cases a <;> first | exact absurd (hL _ (by decide)) ha | rfl)

theorem keep_clearMeas {L : List Area} {u0 : State} {s : State} (hL : Covers [.cardamom] L) (h : Only L u0 s) :
    Only L u0 (clearMeas s) := by
  unfold clearMeas
  repeat' first
    | with_reducible exact h
    | with_reducible assumption
    | extract_lets
    | with_reducible refine keep_mk_cardamom _ (covers_sub hL (by decide)) ?_
    | exact only_upd (by assumption) (fun a ha => by cases a <;> first | exact absurd (hL _ (by decide)) ha | rfl)

end Sys2Proof.Laws
end

