-- ==== Sys2Proof/Laws/FrameTile.lean ====
section
/-! SUPPORT. What the operations of Machine/Tile.lean may change: an operation keeps a frame that allows the parts it lists. -/
namespace Sys2Proof.Laws

open Sys2Proof.Machine

theorem keep_gateTile {L : List Area} {u0 : State} (st : TileState) (t : Fin 68) {s : State} (hL : Covers [.eng] L) (h : Only L u0 s) :
    Only L u0 (gateTile st t s) := by
  unfold gateTile
  repeat' first
    | with_reducible exact h
    | with_reducible assumption
    | extract_lets
    | with_reducible refine keep_updTile _ _ (covers_sub hL (by decide)) ?_

theorem keep_markFailed {L : List Area} {u0 : State} (t : Fin 68) {s : State} (hL : Covers [.nums, .pow, .ev, .nut, .eng] L) (h : Only L u0 s) :
    Only L u0 (markFailed t s) := by
  unfold markFailed
  repeat' first
    | with_reducible exact h
    | with_reducible assumption
    | extract_lets
    | with_reducible refine keep_commitNum _ _ _ _ (covers_sub hL (by decide)) ?_
    | with_reducible refine keep_raiseMain _ _ _ (covers_sub hL (by decide)) ?_
    | with_reducible refine keep_setN _ _ (covers_sub hL (by decide)) ?_
    | with_reducible refine keep_updTile _ _ (covers_sub hL (by decide)) ?_

end Sys2Proof.Laws
end

