-- ==== Sys2Proof/Laws/FrameSession.lean ====
section
/-! SUPPORT. What the operations of Machine/Session.lean may change: an operation keeps a frame that allows the parts it lists. -/
namespace Sys2Proof.Laws

open Sys2Proof.Machine

theorem keep_mapSess {L : List Area} {u0 : State} (f : Nat → Sess → Sess) {s : State} (hL : Covers [.eng] L) (h : Only L u0 s) :
    Only L u0 (mapSess f s) := by
  unfold mapSess
  repeat' first
    | with_reducible exact h
    | with_reducible assumption
    | extract_lets
    | with_reducible refine keep_updSess _ _ (covers_sub hL (by decide)) ?_
    | with_reducible refine only_forEach _ _ (fun _ _ _ => ?_) ?_

theorem keep_placeWeights {L : List Area} {u0 : State} (model : Nat) (p : Nat × Nat) {s : State} (hL : Covers [.eng] L) (h : Only L u0 s) :
    Only L u0 (placeWeights model p s) := by
  unfold placeWeights
  repeat' first
    | with_reducible exact h
    | with_reducible assumption
    | extract_lets
    | with_reducible refine keep_updTile _ _ (covers_sub hL (by decide)) ?_
    | split
    | dsimp -zeta +zetaDelta only

theorem keep_logWrite {L : List Area} {u0 : State} (n : Nat) (d : Desc) (au : Auth) (c : Count) {s : State} (hL : Covers [.eng] L) (h : Only L u0 s) :
    Only L u0 (logWrite n d au c s) := by
  unfold logWrite
  repeat' first
    | with_reducible exact h
    | with_reducible assumption
    | extract_lets
    | with_reducible refine keep_mk_eng _ (covers_sub hL (by decide)) ?_
    | exact only_upd (by assumption) (fun a ha => by cases a <;> first | exact absurd (hL _ (by decide)) ha | rfl)

theorem keep_queueLoad {L : List Area} {u0 : State} (model : Nat) (lane : Nat) (replica : Bool) (c : Count) {s : State} (hL : Covers [.eng, .mem] L) (h : Only L u0 s) :
    Only L u0 (queueLoad model lane replica c s) := by
  unfold queueLoad
  repeat' first
    | with_reducible exact h
    | with_reducible assumption
    | extract_lets
    | with_reducible refine keep_seqStart _ _ (covers_sub hL (by decide)) ?_
    | split
    | with_reducible refine only_ite (fun _ => ?_) (fun _ => ?_)
    | with_reducible refine keep_mk_eng _ (covers_sub hL (by decide)) ?_
    | exact only_upd (by assumption) (fun a ha => by cases a <;> first | exact absurd (hL _ (by decide)) ha | rfl)
    | dsimp -zeta +zetaDelta only

theorem keep_openSession {L : List Area} {u0 : State} (au : Auth) (n : Nat) (d : Desc) (c : Count) {s : State} (hL : Covers [.eng, .mem] L) (h : Only L u0 s) :
    Only L u0 (openSession au n d c s) := by
  unfold openSession
  repeat' first
    | with_reducible exact h
    | with_reducible assumption
    | extract_lets
    | with_reducible refine keep_queueLoad _ _ _ _ (covers_sub hL (by decide)) ?_
    | with_reducible refine keep_updSess _ _ (covers_sub hL (by decide)) ?_
    | split
    | with_reducible refine only_ite (fun _ => ?_) (fun _ => ?_)

theorem keep_withdrawLoads {L : List Area} {u0 : State} {s : State} (hL : Covers [.eng] L) (h : Only L u0 s) :
    Only L u0 (withdrawLoads s) := by
  unfold withdrawLoads
  repeat' first
    | with_reducible exact h
    | with_reducible assumption
    | extract_lets
    | split
    | with_reducible refine keep_mk_eng _ (covers_sub hL (by decide)) ?_
    | exact only_upd (by assumption) (fun a ha => by cases a <;> first | exact absurd (hL _ (by decide)) ha | rfl)
    | dsimp -zeta +zetaDelta only

theorem keep_requestSwitch {L : List Area} {u0 : State} (n : Nat) (d : Desc) (c : Count) {s : State} (hL : Covers [.eng, .mem] L) (h : Only L u0 s) :
    Only L u0 (requestSwitch n d c s) := by
  unfold requestSwitch
  repeat' first
    | with_reducible exact h
    | with_reducible assumption
    | extract_lets
    | with_reducible refine keep_queueLoad _ _ _ _ (covers_sub hL (by decide)) ?_
    | with_reducible refine keep_updSess _ _ (covers_sub hL (by decide)) ?_
    | with_reducible refine keep_withdrawLoads (covers_sub hL (by decide)) ?_
    | split
    | with_reducible refine only_ite (fun _ => ?_) (fun _ => ?_)
    | dsimp -zeta +zetaDelta only

theorem keep_descEffect {L : List Area} {u0 : State} (au : Auth) (n : Nat) (d : Desc) (c : Count) {s : State} (hL : Covers [.eng, .mem] L) (h : Only L u0 s) :
    Only L u0 (descEffect au n d c s) := by
  unfold descEffect
  repeat' first
    | with_reducible exact h
    | with_reducible assumption
    | extract_lets
    | with_reducible refine keep_logWrite _ _ _ _ (covers_sub hL (by decide)) ?_
    | with_reducible refine keep_openSession _ _ _ _ (covers_sub hL (by decide)) ?_
    | with_reducible refine keep_requestSwitch _ _ _ (covers_sub hL (by decide)) ?_
    | with_reducible refine keep_updSess _ _ (covers_sub hL (by decide)) ?_
    | with_reducible refine keep_withdrawLoads (covers_sub hL (by decide)) ?_
    | split
    | with_reducible refine only_ite (fun _ => ?_) (fun _ => ?_)
    | dsimp -zeta +zetaDelta only

theorem keep_fillSlot {L : List Area} {u0 : State} (model : Nat) (p : Nat × Nat) {s : State} (hL : Covers [.eng] L) (h : Only L u0 s) :
    Only L u0 (fillSlot model p s) := by
  unfold fillSlot
  repeat' first
    | with_reducible exact h
    | with_reducible assumption
    | extract_lets
    | split
    | with_reducible refine keep_mk_eng _ (covers_sub hL (by decide)) ?_
    | exact only_upd (by assumption) (fun a ha => by cases a <;> first | exact absurd (hL _ (by decide)) ha | rfl)

theorem keep_seatModel {L : List Area} {u0 : State} (n : Nat) {s : State} (hL : Covers [.eng] L) (h : Only L u0 s) :
    Only L u0 (seatModel n s) := by
  unfold seatModel
  repeat' first
    | with_reducible exact h
    | with_reducible assumption
    | extract_lets
    | with_reducible refine keep_fillSlot _ _ (covers_sub hL (by decide)) ?_
    | with_reducible refine keep_placeWeights _ _ (covers_sub hL (by decide)) ?_
    | with_reducible refine only_forEach _ _ (fun _ _ _ => ?_) ?_
    | split
    | with_reducible refine only_ite (fun _ => ?_) (fun _ => ?_)
    | dsimp -zeta +zetaDelta only

theorem keep_codebookEffect {L : List Area} {u0 : State} (c : Nat) (bs : List Byte) (z2 : Count) {s0 : State} (hL : Covers [.nums, .ev, .nut, .eng, .mem, .bar] L) (h : Only L u0 s0) :
    Only L u0 (codebookEffect c bs z2 s0) := by
  unfold codebookEffect
  repeat' first
    | with_reducible exact h
    | with_reducible assumption
    | extract_lets
    | with_reducible refine keep_seqRun _ _ (covers_sub hL (by decide)) ?_
    | split
    | with_reducible refine only_ite (fun _ => ?_) (fun _ => ?_)
    | with_reducible refine keep_mk_eng _ (covers_sub hL (by decide)) ?_
    | exact only_upd (by assumption) (fun a ha => by cases a <;> first | exact absurd (hL _ (by decide)) ha | rfl)
    | dsimp -zeta +zetaDelta only

theorem keep_modelEffect {L : List Area} {u0 : State} (m : Nat) (bs : List Byte) (z2 : Count) {s : State} (hL : Covers [.eng] L) (h : Only L u0 s) :
    Only L u0 (modelEffect m bs z2 s) := by
  unfold modelEffect
  repeat' first
    | with_reducible exact h
    | with_reducible assumption
    | extract_lets
    | split
    | with_reducible refine only_ite (fun _ => ?_) (fun _ => ?_)
    | with_reducible refine keep_mk_eng _ (covers_sub hL (by decide)) ?_
    | exact only_upd (by assumption) (fun a ha => by cases a <;> first | exact absurd (hL _ (by decide)) ha | rfl)

theorem keep_descRefused {L : List Area} {u0 : State} (n : Nat) (d : Desc) (code : Nat) {s : State} (hL : Covers [.ev, .nut, .oda, .eng] L) (h : Only L u0 s) :
    Only L u0 (descRefused n d code s) := by
  unfold descRefused
  repeat' first
    | with_reducible exact h
    | with_reducible assumption
    | extract_lets
    | with_reducible refine keep_raiseMain _ _ _ (covers_sub hL (by decide)) ?_
    | with_reducible refine keep_refuse _ (covers_sub hL (by decide)) ?_
    | with_reducible refine keep_updSess _ _ (covers_sub hL (by decide)) ?_
    | split
    | with_reducible refine only_ite (fun _ => ?_) (fun _ => ?_)
    | dsimp -zeta +zetaDelta only

theorem keep_writeDesc {L : List Area} {u0 : State} (au : Auth) (n : Nat) (d : Desc) (fieldsOk : Bool) {s : State} (hL : Covers [.clk, .ev, .nut, .oda, .eng, .mem] L) (h : Only L u0 s) :
    Only L u0 (writeDesc au n d fieldsOk s) := by
  unfold writeDesc
  repeat' first
    | with_reducible exact h
    | with_reducible assumption
    | extract_lets
    | with_reducible refine keep_accept _ (fun _ _ _ => ?_) (covers_sub hL (by decide)) ?_
    | with_reducible refine keep_descEffect _ _ _ _ (covers_sub hL (by decide)) ?_
    | with_reducible refine keep_descRefused _ _ _ (covers_sub hL (by decide)) ?_
    | with_reducible refine keep_refuse _ (covers_sub hL (by decide)) ?_
    | with_reducible refine keep_updSess _ _ (covers_sub hL (by decide)) ?_
    | split
    | with_reducible refine only_ite (fun _ => ?_) (fun _ => ?_)
    | dsimp -zeta +zetaDelta only

end Sys2Proof.Laws
end

