-- ==== Sys2Proof/Laws/FrameRing.lean ====
section
/-! SUPPORT. What the operations of Machine/Ring.lean may change: an operation keeps a frame that allows the parts it lists. -/
namespace Sys2Proof.Laws

open Sys2Proof.Machine

theorem keep_addCtrl {L : List Area} {u0 : State} (c : Ctrl) {s : State} (hL : Covers [.eng] L) (h : Only L u0 s) :
    Only L u0 (addCtrl c s) := by
  unfold addCtrl
  repeat' first
    | with_reducible exact h
    | with_reducible assumption
    | extract_lets
    | with_reducible refine keep_mk_eng _ (covers_sub hL (by decide)) ?_
    | exact only_upd (by assumption) (fun a ha => by cases a <;> first | exact absurd (hL _ (by decide)) ha | rfl)

theorem keep_addNext {L : List Area} {u0 : State} (c : Ctrl) {s : State} (hL : Covers [.eng] L) (h : Only L u0 s) :
    Only L u0 (addNext c s) := by
  unfold addNext
  repeat' first
    | with_reducible exact h
    | with_reducible assumption
    | extract_lets
    | with_reducible refine keep_mk_eng _ (covers_sub hL (by decide)) ?_
    | exact only_upd (by assumption) (fun a ha => by cases a <;> first | exact absurd (hL _ (by decide)) ha | rfl)

theorem keep_addBases {L : List Area} {u0 : State} (k : Ckpt) {s : State} (hL : Covers [.eng] L) (h : Only L u0 s) :
    Only L u0 (addBases k s) := by
  unfold addBases
  repeat' first
    | with_reducible exact h
    | with_reducible assumption
    | extract_lets
    | split
    | with_reducible refine only_ite (fun _ => ?_) (fun _ => ?_)
    | with_reducible refine keep_mk_eng _ (covers_sub hL (by decide)) ?_
    | exact only_upd (by assumption) (fun a ha => by cases a <;> first | exact absurd (hL _ (by decide)) ha | rfl)
    | dsimp -zeta +zetaDelta only

theorem keep_commitCkpt {L : List Area} {u0 : State} {s : State} (hL : Covers [.nums, .ev, .nut, .eng, .mem, .bar] L) (h : Only L u0 s) :
    Only L u0 (commitCkpt s) := by
  unfold commitCkpt
  repeat' first
    | with_reducible exact h
    | with_reducible assumption
    | extract_lets
    | with_reducible refine keep_addBases _ (covers_sub hL (by decide)) ?_
    | with_reducible refine keep_seqFinish _ (covers_sub hL (by decide)) ?_
    | with_reducible refine keep_setN _ _ (covers_sub hL (by decide)) ?_
    | with_reducible refine keep_signalCell _ _ (covers_sub hL (by decide)) ?_
    | split
    | with_reducible refine only_ite (fun _ => ?_) (fun _ => ?_)
    | with_reducible refine keep_mk_eng _ (covers_sub hL (by decide)) ?_
    | with_reducible refine keep_mk_mem _ (covers_sub hL (by decide)) ?_
    | exact only_upd (by assumption) (fun a ha => by cases a <;> first | exact absurd (hL _ (by decide)) ha | rfl)
    | dsimp -zeta +zetaDelta only

theorem keep_freezeRing {L : List Area} {u0 : State} {s : State} (hL : Covers [.nums, .eng] L) (h : Only L u0 s) :
    Only L u0 (freezeRing s) := by
  unfold freezeRing
  repeat' first
    | with_reducible exact h
    | with_reducible assumption
    | extract_lets
    | with_reducible refine keep_setN _ _ (covers_sub hL (by decide)) ?_
    | split
    | with_reducible refine only_ite (fun _ => ?_) (fun _ => ?_)
    | with_reducible refine keep_mk_eng _ (covers_sub hL (by decide)) ?_
    | exact only_upd (by assumption) (fun a ha => by cases a <;> first | exact absurd (hL _ (by decide)) ha | rfl)
    | dsimp -zeta +zetaDelta only

theorem keep_addNexts {L : List Area} {u0 : State} (cs : List Ctrl) {s : State} (hL : Covers [.eng] L) (h : Only L u0 s) :
    Only L u0 (addNexts cs s) := by
  unfold addNexts
  repeat' first
    | with_reducible exact h
    | with_reducible assumption
    | extract_lets
    | with_reducible refine keep_mk_eng _ (covers_sub hL (by decide)) ?_
    | exact only_upd (by assumption) (fun a ha => by cases a <;> first | exact absurd (hL _ (by decide)) ha | rfl)

theorem keep_longCaptureEffect {L : List Area} {u0 : State} (bs : List Byte) (c : Count) {s : State} (hL : Covers [.blobs, .eng] L) (h : Only L u0 s) :
    Only L u0 (longCaptureEffect bs c s) := by
  unfold longCaptureEffect
  repeat' first
    | with_reducible exact h
    | with_reducible assumption
    | extract_lets
    | with_reducible refine keep_addNexts _ (covers_sub hL (by decide)) ?_
    | with_reducible refine keep_setBlob _ _ (covers_sub hL (by decide)) ?_
    | split
    | with_reducible refine only_ite (fun _ => ?_) (fun _ => ?_)
    | dsimp -zeta +zetaDelta only

theorem keep_resumeRing {L : List Area} {u0 : State} {s : State} (hL : Covers [.nums, .eng] L) (h : Only L u0 s) :
    Only L u0 (resumeRing s) := by
  unfold resumeRing
  repeat' first
    | with_reducible exact h
    | with_reducible assumption
    | extract_lets
    | with_reducible refine keep_setN _ _ (covers_sub hL (by decide)) ?_
    | split
    | with_reducible refine only_ite (fun _ => ?_) (fun _ => ?_)
    | with_reducible refine keep_mk_eng _ (covers_sub hL (by decide)) ?_
    | exact only_upd (by assumption) (fun a ha => by cases a <;> first | exact absurd (hL _ (by decide)) ha | rfl)
    | dsimp -zeta +zetaDelta only

theorem keep_ringTrigger {L : List Area} {u0 : State} (bit : Nat) {s : State} (hL : Covers [.eng] L) (h : Only L u0 s) :
    Only L u0 (ringTrigger bit s) := by
  unfold ringTrigger
  repeat' first
    | with_reducible exact h
    | with_reducible assumption
    | extract_lets
    | split
    | with_reducible refine only_ite (fun _ => ?_) (fun _ => ?_)
    | with_reducible refine keep_mk_eng _ (covers_sub hL (by decide)) ?_
    | exact only_upd (by assumption) (fun a ha => by cases a <;> first | exact absurd (hL _ (by decide)) ha | rfl)
    | dsimp -zeta +zetaDelta only

theorem keep_noteLedger {L : List Area} {u0 : State} (l : FrameLedger) {s : State} (hL : Covers [.eng] L) (h : Only L u0 s) :
    Only L u0 (noteLedger l s) := by
  unfold noteLedger
  repeat' first
    | with_reducible exact h
    | with_reducible assumption
    | extract_lets
    | with_reducible refine keep_mk_eng _ (covers_sub hL (by decide)) ?_
    | exact only_upd (by assumption) (fun a ha => by cases a <;> first | exact absurd (hL _ (by decide)) ha | rfl)

theorem keep_writeBlock {L : List Area} {u0 : State} (b : RingBlock) (records : Map Record) {s0 : State} (hL : Covers [.eng] L) (h : Only L u0 s0) :
    Only L u0 (writeBlock b records s0) := by
  unfold writeBlock
  repeat' first
    | with_reducible exact h
    | with_reducible assumption
    | extract_lets
    | with_reducible refine keep_noteLedger _ (covers_sub hL (by decide)) ?_
    | split
    | with_reducible refine only_ite (fun _ => ?_) (fun _ => ?_)
    | with_reducible refine keep_mk_eng _ (covers_sub hL (by decide)) ?_
    | exact only_upd (by assumption) (fun a ha => by cases a <;> first | exact absurd (hL _ (by decide)) ha | rfl)
    | dsimp -zeta +zetaDelta only

theorem keep_beginCkpt {L : List Area} {u0 : State} (n : Nat) {s : State} (hL : Covers [.nums, .eng, .mem] L) (h : Only L u0 s) :
    Only L u0 (beginCkpt n s) := by
  unfold beginCkpt
  repeat' first
    | with_reducible exact h
    | with_reducible assumption
    | extract_lets
    | with_reducible refine keep_inc32 _ (covers_sub hL (by decide)) ?_
    | with_reducible refine keep_seqStart _ _ (covers_sub hL (by decide)) ?_
    | split
    | with_reducible refine only_ite (fun _ => ?_) (fun _ => ?_)
    | with_reducible refine keep_mk_eng _ (covers_sub hL (by decide)) ?_
    | exact only_upd (by assumption) (fun a ha => by cases a <;> first | exact absurd (hL _ (by decide)) ha | rfl)
    | dsimp -zeta +zetaDelta only

end Sys2Proof.Laws
end

