-- ==== Sys2Proof/Laws/FrameImage.lean ====
section
/-! SUPPORT. What the operations of Machine/Image.lean may change: an operation keeps a frame that allows the parts it lists. -/
namespace Sys2Proof.Laws

open Sys2Proof.Machine

theorem keep_setEng {L : List Area} {u0 : State} (f : Engine → Engine) {s : State} (hL : Covers [.eng] L) (h : Only L u0 s) :
    Only L u0 (setEng f s) := by
  unfold setEng
  repeat' first
    | with_reducible exact h
    | with_reducible assumption
    | extract_lets
    | with_reducible refine keep_mk_eng _ (covers_sub hL (by decide)) ?_
    | exact only_upd (by assumption) (fun a ha => by cases a <;> first | exact absurd (hL _ (by decide)) ha | rfl)

theorem keep_loseSession {L : List Area} {u0 : State} (n : Nat) {s : State} (hL : Covers [.eng] L) (h : Only L u0 s) :
    Only L u0 (loseSession n s) := by
  unfold loseSession
  repeat' first
    | with_reducible exact h
    | with_reducible assumption
    | extract_lets
    | with_reducible refine keep_addCtrl _ (covers_sub hL (by decide)) ?_
    | with_reducible refine keep_addNext _ (covers_sub hL (by decide)) ?_
    | with_reducible refine keep_updSess _ _ (covers_sub hL (by decide)) ?_
    | split
    | with_reducible refine only_ite (fun _ => ?_) (fun _ => ?_)
    | dsimp -zeta +zetaDelta only

theorem keep_failP0 {L : List Area} {u0 : State} (n : Nat) {s : State} (hL : Covers [.ev, .nut, .eng] L) (h : Only L u0 s) :
    Only L u0 (failP0 n s) := by
  unfold failP0
  repeat' first
    | with_reducible exact h
    | with_reducible assumption
    | extract_lets
    | with_reducible refine keep_raiseMain _ _ _ (covers_sub hL (by decide)) ?_
    | with_reducible refine keep_updSess _ _ (covers_sub hL (by decide)) ?_

theorem keep_gateUnmapped {L : List Area} {u0 : State} (bs : List Bind) {s : State} (hL : Covers [.eng] L) (h : Only L u0 s) :
    Only L u0 (gateUnmapped bs s) := by
  unfold gateUnmapped
  repeat' first
    | with_reducible exact h
    | with_reducible assumption
    | extract_lets
    | with_reducible refine keep_gateTile _ _ (covers_sub hL (by decide)) ?_
    | with_reducible refine only_forAll _ _ (fun _ _ _ => ?_) ?_
    | split
    | with_reducible refine only_ite (fun _ => ?_) (fun _ => ?_)

theorem keep_loadTile {L : List Area} {u0 : State} (x : Image) (l : Nat) {s : State} (hL : Covers [.eng] L) (h : Only L u0 s) :
    Only L u0 (loadTile x l s) := by
  unfold loadTile
  repeat' first
    | with_reducible exact h
    | with_reducible assumption
    | extract_lets
    | with_reducible refine keep_updTile _ _ (covers_sub hL (by decide)) ?_
    | with_reducible refine only_foldl _ _ (fun _ _ _ => ?_) ?_
    | split
    | dsimp -zeta +zetaDelta only

theorem keep_loadWeights {L : List Area} {u0 : State} (x : Image) (l : Nat) {s : State} (hL : Covers [.eng] L) (h : Only L u0 s) :
    Only L u0 (loadWeights x l s) := by
  unfold loadWeights
  repeat' first
    | with_reducible exact h
    | with_reducible assumption
    | extract_lets
    | with_reducible refine keep_placeWeights _ _ (covers_sub hL (by decide)) ?_
    | with_reducible refine only_forEach _ _ (fun _ _ _ => ?_) ?_
    | split
    | with_reducible refine only_ite (fun _ => ?_) (fun _ => ?_)

theorem keep_moveAll {L : List Area} {u0 : State} (x : Image) (old : List Bind) (src : Vector Tile 68) {s : State} (hL : Covers [.eng] L) (h : Only L u0 s) :
    Only L u0 (moveAll x old src s) := by
  unfold moveAll
  repeat' first
    | with_reducible exact h
    | with_reducible assumption
    | extract_lets
    | with_reducible refine keep_loadTile _ _ (covers_sub hL (by decide)) ?_
    | with_reducible refine keep_loadWeights _ _ (covers_sub hL (by decide)) ?_
    | with_reducible refine keep_updTile _ _ (covers_sub hL (by decide)) ?_
    | with_reducible refine only_forEach _ _ (fun _ _ _ => ?_) ?_
    | split
    | with_reducible refine only_ite (fun _ => ?_) (fun _ => ?_)
    | dsimp -zeta +zetaDelta only

theorem keep_setAdvance {L : List Area} {u0 : State} (n : Nat) (k : Nat) (phase : Nat) {s : State} (hL : Covers [.eng] L) (h : Only L u0 s) :
    Only L u0 (setAdvance n k phase s) := by
  unfold setAdvance
  repeat' first
    | with_reducible exact h
    | with_reducible assumption
    | extract_lets
    | with_reducible refine keep_addNext _ (covers_sub hL (by decide)) ?_
    | with_reducible refine keep_updSess _ _ (covers_sub hL (by decide)) ?_

theorem keep_setImg {L : List Area} {u0 : State} (f : Images → Images) {s : State} (hL : Covers [.img] L) (h : Only L u0 s) :
    Only L u0 (setImg f s) := by
  unfold setImg
  repeat' first
    | with_reducible exact h
    | with_reducible assumption
    | extract_lets
    | with_reducible refine keep_mk_img _ (covers_sub hL (by decide)) ?_
    | exact only_upd (by assumption) (fun a ha => by cases a <;> first | exact absurd (hL _ (by decide)) ha | rfl)

theorem keep_wakeTiles {L : List Area} {u0 : State} (bs : List Bind) {s : State} (hL : Covers [.eng] L) (h : Only L u0 s) :
    Only L u0 (wakeTiles bs s) := by
  unfold wakeTiles
  repeat' first
    | with_reducible exact h
    | with_reducible assumption
    | extract_lets
    | with_reducible refine keep_updTile _ _ (covers_sub hL (by decide)) ?_
    | with_reducible refine only_forAll _ _ (fun _ _ _ => ?_) ?_
    | split
    | with_reducible refine only_ite (fun _ => ?_) (fun _ => ?_)
    | dsimp -zeta +zetaDelta only

theorem keep_applyBinds {L : List Area} {u0 : State} (x : Image) (bs : List Bind) (f1 : Nat) (f2 : Nat) (s0 : Nat) (dv : Nat) {s : State} (hL : Covers [.ev, .nut, .eng, .img] L) (h : Only L u0 s) :
    Only L u0 (applyBinds x bs f1 f2 s0 dv s) := by
  unfold applyBinds
  repeat' first
    | with_reducible exact h
    | with_reducible assumption
    | extract_lets
    | with_reducible refine keep_addNext _ (covers_sub hL (by decide)) ?_
    | with_reducible refine keep_failP0 _ (covers_sub hL (by decide)) ?_
    | with_reducible refine keep_gateUnmapped _ (covers_sub hL (by decide)) ?_
    | with_reducible refine keep_moveAll _ _ _ (covers_sub hL (by decide)) ?_
    | with_reducible refine keep_setAdvance _ _ _ (covers_sub hL (by decide)) ?_
    | with_reducible refine keep_setEng _ (covers_sub hL (by decide)) ?_
    | with_reducible refine keep_setImg _ (covers_sub hL (by decide)) ?_
    | with_reducible refine keep_updSess _ _ (covers_sub hL (by decide)) ?_
    | with_reducible refine keep_wakeTiles _ (covers_sub hL (by decide)) ?_
    | with_reducible refine only_forEach _ _ (fun _ _ _ => ?_) ?_
    | split
    | with_reducible refine only_ite (fun _ => ?_) (fun _ => ?_)
    | dsimp -zeta +zetaDelta only

theorem keep_bareThrottle {L : List Area} {u0 : State} {s : State} (hL : Covers [.img] L) (h : Only L u0 s) :
    Only L u0 (bareThrottle s) := by
  unfold bareThrottle
  repeat' first
    | with_reducible exact h
    | with_reducible assumption
    | extract_lets
    | with_reducible refine keep_setImg _ (covers_sub hL (by decide)) ?_

theorem keep_bringUp {L : List Area} {u0 : State} (x : Image) {s : State} (hL : Covers [.eng] L) (h : Only L u0 s) :
    Only L u0 (bringUp x s) := by
  unfold bringUp
  repeat' first
    | with_reducible exact h
    | with_reducible assumption
    | extract_lets
    | with_reducible refine keep_moveAll _ _ _ (covers_sub hL (by decide)) ?_
    | with_reducible refine keep_wakeTiles _ (covers_sub hL (by decide)) ?_

theorem keep_releaseHeld {L : List Area} {u0 : State} (p : Plan) (keep : List Nat) {s : State} (hL : Covers [.eng, .img] L) (h : Only L u0 s) :
    Only L u0 (releaseHeld p keep s) := by
  unfold releaseHeld
  repeat' first
    | with_reducible exact h
    | with_reducible assumption
    | extract_lets
    | with_reducible refine keep_setAdvance _ _ _ (covers_sub hL (by decide)) ?_
    | with_reducible refine keep_setImg _ (covers_sub hL (by decide)) ?_
    | with_reducible refine keep_updSess _ _ (covers_sub hL (by decide)) ?_
    | with_reducible refine only_forEach _ _ (fun _ _ _ => ?_) ?_
    | split
    | with_reducible refine only_ite (fun _ => ?_) (fun _ => ?_)
    | dsimp -zeta +zetaDelta only

theorem keep_setThrottle {L : List Area} {u0 : State} (x : Image) {s : State} (hL : Covers [.img] L) (h : Only L u0 s) :
    Only L u0 (setThrottle x s) := by
  unfold setThrottle
  repeat' first
    | with_reducible exact h
    | with_reducible assumption
    | extract_lets
    | with_reducible refine keep_setImg _ (covers_sub hL (by decide)) ?_

theorem keep_recompute {L : List Area} {u0 : State} (lost : List Nat) {s : State} (hL : Covers [.ev, .nut, .eng, .img, .free] L) (h : Only L u0 s) :
    Only L u0 (recompute lost s) := by
  unfold recompute
  repeat' first
    | with_reducible exact h
    | with_reducible assumption
    | extract_lets
    | with_reducible refine keep_applyBinds _ _ _ _ _ _ (covers_sub hL (by decide)) ?_
    | with_reducible refine keep_bareThrottle (covers_sub hL (by decide)) ?_
    | with_reducible refine keep_bringUp _ (covers_sub hL (by decide)) ?_
    | with_reducible refine keep_releaseHeld _ _ (covers_sub hL (by decide)) ?_
    | with_reducible refine keep_setImg _ (covers_sub hL (by decide)) ?_
    | with_reducible refine keep_setThrottle _ (covers_sub hL (by decide)) ?_
    | with_reducible refine keep_takeFree _ (covers_sub hL (by decide)) ?_
    | with_reducible refine keep_takeFree_eq (by assumption) (covers_sub hL (by decide)) ?_
    | split
    | with_reducible refine only_ite (fun _ => ?_) (fun _ => ?_)
    | dsimp -zeta +zetaDelta only

theorem keep_domainLost {L : List Area} {u0 : State} (d : Fin 2) {s : State} (hL : Covers [.nums, .pow, .ev, .nut, .eng, .img, .free] L) (h : Only L u0 s) :
    Only L u0 (domainLost d s) := by
  unfold domainLost
  repeat' first
    | with_reducible exact h
    | with_reducible assumption
    | extract_lets
    | with_reducible refine keep_commitNum _ _ _ _ (covers_sub hL (by decide)) ?_
    | with_reducible refine keep_gateTile _ _ (covers_sub hL (by decide)) ?_
    | with_reducible refine keep_loseSession _ (covers_sub hL (by decide)) ?_
    | with_reducible refine keep_raiseMain _ _ _ (covers_sub hL (by decide)) ?_
    | with_reducible refine keep_recompute _ (covers_sub hL (by decide)) ?_
    | with_reducible refine keep_setImg _ (covers_sub hL (by decide)) ?_
    | with_reducible refine keep_setN _ _ (covers_sub hL (by decide)) ?_
    | with_reducible refine only_forAll _ _ (fun _ _ _ => ?_) ?_
    | with_reducible refine only_forEach _ _ (fun _ _ _ => ?_) ?_
    | split
    | with_reducible refine only_ite (fun _ => ?_) (fun _ => ?_)
    | dsimp -zeta +zetaDelta only

theorem keep_checkDomain {L : List Area} {u0 : State} (d : Fin 2) {s : State} (hL : Covers [.nums, .pow, .ev, .nut, .eng, .img, .free] L) (h : Only L u0 s) :
    Only L u0 (checkDomain d s) := by
  unfold checkDomain
  repeat' first
    | with_reducible exact h
    | with_reducible assumption
    | extract_lets
    | with_reducible refine keep_domainLost _ (covers_sub hL (by decide)) ?_
    | split
    | with_reducible refine only_ite (fun _ => ?_) (fun _ => ?_)

theorem keep_checkDomains {L : List Area} {u0 : State} {s : State} (hL : Covers [.nums, .pow, .ev, .nut, .eng, .img, .free] L) (h : Only L u0 s) :
    Only L u0 (checkDomains s) := by
  unfold checkDomains
  repeat' first
    | with_reducible exact h
    | with_reducible assumption
    | extract_lets
    | with_reducible refine keep_checkDomain _ (covers_sub hL (by decide)) ?_

theorem keep_carryModels {L : List Area} {u0 : State} (x : Image) (c : Carry) {s : State} (hL : Covers [.eng, .mem] L) (h : Only L u0 s) :
    Only L u0 (carryModels x c s) := by
  unfold carryModels
  repeat' first
    | with_reducible exact h
    | with_reducible assumption
    | extract_lets
    | with_reducible refine keep_loadWeights _ _ (covers_sub hL (by decide)) ?_
    | with_reducible refine keep_mapSess _ (covers_sub hL (by decide)) ?_
    | with_reducible refine keep_seqCancel _ (covers_sub hL (by decide)) ?_
    | with_reducible refine keep_setEng _ (covers_sub hL (by decide)) ?_
    | with_reducible refine only_forEach _ _ (fun _ _ _ => ?_) ?_
    | with_reducible refine only_foldl _ _ (fun _ _ _ => ?_) ?_
    | split
    | with_reducible refine only_ite (fun _ => ?_) (fun _ => ?_)
    | dsimp -zeta +zetaDelta only

theorem keep_carrySessions {L : List Area} {u0 : State} (x : Image) (c : Carry) {s : State} (hL : Covers [.eng] L) (h : Only L u0 s) :
    Only L u0 (carrySessions x c s) := by
  unfold carrySessions
  repeat' first
    | with_reducible exact h
    | with_reducible assumption
    | extract_lets
    | with_reducible refine keep_updSess _ _ (covers_sub hL (by decide)) ?_
    | with_reducible refine only_forEach _ _ (fun _ _ _ => ?_) ?_

theorem keep_coldLoad {L : List Area} {u0 : State} (i : Nat) (s0 : Nat) {s : State} (hL : Covers [.nums, .ev, .nut, .eng, .img, .mem, .bar] L) (h : Only L u0 s) :
    Only L u0 (coldLoad i s0 s) := by
  unfold coldLoad
  repeat' first
    | with_reducible exact h
    | with_reducible assumption
    | extract_lets
    | with_reducible refine keep_applyBinds _ _ _ _ _ _ (covers_sub hL (by decide)) ?_
    | with_reducible refine keep_carryModels _ _ (covers_sub hL (by decide)) ?_
    | with_reducible refine keep_carrySessions _ _ (covers_sub hL (by decide)) ?_
    | with_reducible refine keep_gateTile _ _ (covers_sub hL (by decide)) ?_
    | with_reducible refine keep_seqRun _ _ (covers_sub hL (by decide)) ?_
    | with_reducible refine keep_setEng _ (covers_sub hL (by decide)) ?_
    | with_reducible refine keep_setImg _ (covers_sub hL (by decide)) ?_
    | with_reducible refine keep_setThrottle _ (covers_sub hL (by decide)) ?_
    | with_reducible refine only_forAll _ _ (fun _ _ _ => ?_) ?_
    | split
    | with_reducible refine only_ite (fun _ => ?_) (fun _ => ?_)
    | dsimp -zeta +zetaDelta only

theorem keep_dropUnlisted {L : List Area} {u0 : State} {s : State} (hL : Covers [.eng] L) (h : Only L u0 s) :
    Only L u0 (dropUnlisted s) := by
  unfold dropUnlisted
  repeat' first
    | with_reducible exact h
    | with_reducible assumption
    | extract_lets
    | with_reducible refine keep_updSess _ _ (covers_sub hL (by decide)) ?_
    | with_reducible refine only_forEach _ _ (fun _ _ _ => ?_) ?_
    | split

theorem keep_imageCtrl {L : List Area} {u0 : State} (i : Nat) {s : State} (hL : Covers [.eng] L) (h : Only L u0 s) :
    Only L u0 (imageCtrl i s) := by
  unfold imageCtrl
  repeat' first
    | with_reducible exact h
    | with_reducible assumption
    | extract_lets
    | with_reducible refine keep_addNext _ (covers_sub hL (by decide)) ?_
    | split

theorem keep_reapplyOne {L : List Area} {u0 : State} (w : DescWrite) {s : State} (hL : Covers [.ev, .nut, .eng, .mem] L) (h : Only L u0 s) :
    Only L u0 (reapplyOne w s) := by
  unfold reapplyOne
  repeat' first
    | with_reducible exact h
    | with_reducible assumption
    | extract_lets
    | with_reducible refine keep_descEffect _ _ _ _ (covers_sub hL (by decide)) ?_
    | with_reducible refine keep_raiseMain _ _ _ (covers_sub hL (by decide)) ?_
    | with_reducible refine keep_updSess _ _ (covers_sub hL (by decide)) ?_
    | split
    | with_reducible refine only_ite (fun _ => ?_) (fun _ => ?_)
    | with_reducible refine keep_mk_eng _ (covers_sub hL (by decide)) ?_
    | exact only_upd (by assumption) (fun a ha => by cases a <;> first | exact absurd (hL _ (by decide)) ha | rfl)
    | dsimp -zeta +zetaDelta only

theorem keep_restoreRecords {L : List Area} {u0 : State} (badNew : List Nat) (badOld : List Nat) {s : State} (hL : Covers [.eng] L) (h : Only L u0 s) :
    Only L u0 (restoreRecords badNew badOld s) := by
  unfold restoreRecords
  repeat' first
    | with_reducible exact h
    | with_reducible assumption
    | extract_lets
    | with_reducible refine keep_addNext _ (covers_sub hL (by decide)) ?_
    | with_reducible refine only_forEach _ _ (fun _ _ _ => ?_) ?_
    | split
    | dsimp -zeta +zetaDelta only

theorem keep_restoreSess {L : List Area} {u0 : State} (badNew : List Nat) (badOld : List Nat) (e0 : CkptEnt) {s : State} (hL : Covers [.eng, .mem] L) (h : Only L u0 s) :
    Only L u0 (restoreSess badNew badOld e0 s) := by
  unfold restoreSess
  repeat' first
    | with_reducible exact h
    | with_reducible assumption
    | extract_lets
    | with_reducible refine keep_addNext _ (covers_sub hL (by decide)) ?_
    | with_reducible refine keep_queueLoad _ _ _ _ (covers_sub hL (by decide)) ?_
    | with_reducible refine keep_seatModel _ (covers_sub hL (by decide)) ?_
    | with_reducible refine keep_setSess _ _ (covers_sub hL (by decide)) ?_
    | split
    | with_reducible refine only_ite (fun _ => ?_) (fun _ => ?_)
    | dsimp -zeta +zetaDelta only

theorem keep_restoreTable {L : List Area} {u0 : State} (badNew : List Nat) (badOld : List Nat) {s : State} (hL : Covers [.eng, .mem] L) (h : Only L u0 s) :
    Only L u0 (restoreTable badNew badOld s) := by
  unfold restoreTable
  repeat' first
    | with_reducible exact h
    | with_reducible assumption
    | extract_lets
    | with_reducible refine keep_dropUnlisted (covers_sub hL (by decide)) ?_
    | with_reducible refine keep_restoreSess _ _ _ (covers_sub hL (by decide)) ?_
    | with_reducible refine only_forEach _ _ (fun _ _ _ => ?_) ?_
    | split

theorem keep_coldFinish {L : List Area} {u0 : State} (i : Nat) {s : State} (hL : Covers [.nums, .pow, .ev, .nut, .eng, .img, .mem, .bar, .free] L) (h : Only L u0 s) :
    Only L u0 (coldFinish i s) := by
  unfold coldFinish
  repeat' first
    | with_reducible exact h
    | with_reducible assumption
    | extract_lets
    | with_reducible refine keep_checkDomains (covers_sub hL (by decide)) ?_
    | with_reducible refine keep_coldLoad _ _ (covers_sub hL (by decide)) ?_
    | with_reducible refine keep_commitCkpt (covers_sub hL (by decide)) ?_
    | with_reducible refine keep_dropUnlisted (covers_sub hL (by decide)) ?_
    | with_reducible refine keep_imageCtrl _ (covers_sub hL (by decide)) ?_
    | with_reducible refine keep_reapplyOne _ (covers_sub hL (by decide)) ?_
    | with_reducible refine keep_restoreRecords _ _ (covers_sub hL (by decide)) ?_
    | with_reducible refine keep_restoreTable _ _ (covers_sub hL (by decide)) ?_
    | with_reducible refine keep_setEng _ (covers_sub hL (by decide)) ?_
    | with_reducible refine keep_setImg _ (covers_sub hL (by decide)) ?_
    | with_reducible refine keep_setN _ _ (covers_sub hL (by decide)) ?_
    | with_reducible refine only_forEach _ _ (fun _ _ _ => ?_) ?_
    | dsimp -zeta +zetaDelta only

theorem keep_restoreOne {L : List Area} {u0 : State} (n : Nat) {s : State} (hL : Covers [.eng] L) (h : Only L u0 s) :
    Only L u0 (restoreOne n s) := by
  unfold restoreOne
  repeat' first
    | with_reducible exact h
    | with_reducible assumption
    | extract_lets
    | with_reducible refine keep_addNext _ (covers_sub hL (by decide)) ?_
    | with_reducible refine keep_updSess _ _ (covers_sub hL (by decide)) ?_
    | split
    | dsimp -zeta +zetaDelta only

theorem keep_switchRepl {L : List Area} {u0 : State} (r : Repl) {s : State} (hL : Covers [.nums, .ev, .nut, .eng, .img, .mem, .bar] L) (h : Only L u0 s) :
    Only L u0 (switchRepl r s) := by
  unfold switchRepl
  repeat' first
    | with_reducible exact h
    | with_reducible assumption
    | extract_lets
    | with_reducible refine keep_addNext _ (covers_sub hL (by decide)) ?_
    | with_reducible refine keep_moveAll _ _ _ (covers_sub hL (by decide)) ?_
    | with_reducible refine keep_restoreOne _ (covers_sub hL (by decide)) ?_
    | with_reducible refine keep_seqRun _ _ (covers_sub hL (by decide)) ?_
    | with_reducible refine keep_setAdvance _ _ _ (covers_sub hL (by decide)) ?_
    | with_reducible refine keep_setEng _ (covers_sub hL (by decide)) ?_
    | with_reducible refine keep_setImg _ (covers_sub hL (by decide)) ?_
    | with_reducible refine only_forEach _ _ (fun _ _ _ => ?_) ?_
    | split
    | dsimp -zeta +zetaDelta only

theorem keep_discardSwitches {L : List Area} {u0 : State} {s : State} (hL : Covers [.ev, .nut, .eng] L) (h : Only L u0 s) :
    Only L u0 (discardSwitches s) := by
  unfold discardSwitches
  repeat' first
    | with_reducible exact h
    | with_reducible assumption
    | extract_lets
    | with_reducible refine keep_raiseMain _ _ _ (covers_sub hL (by decide)) ?_
    | with_reducible refine keep_updSess _ _ (covers_sub hL (by decide)) ?_
    | with_reducible refine keep_withdrawLoads (covers_sub hL (by decide)) ?_
    | with_reducible refine only_forEach _ _ (fun _ _ _ => ?_) ?_
    | dsimp -zeta +zetaDelta only

theorem keep_loadBundles {L : List Area} {u0 : State} (x : Image) {s : State} (hL : Covers [.eng] L) (h : Only L u0 s) :
    Only L u0 (loadBundles x s) := by
  unfold loadBundles
  repeat' first
    | with_reducible exact h
    | with_reducible assumption
    | extract_lets
    | with_reducible refine keep_updTile _ _ (covers_sub hL (by decide)) ?_
    | with_reducible refine only_forEach _ _ (fun _ _ _ => ?_) ?_
    | split
    | dsimp -zeta +zetaDelta only

theorem keep_unarm {L : List Area} {u0 : State} {s : State} (hL : Covers [.img] L) (h : Only L u0 s) :
    Only L u0 (unarm s) := by
  unfold unarm
  repeat' first
    | with_reducible exact h
    | with_reducible assumption
    | extract_lets
    | with_reducible refine keep_setImg _ (covers_sub hL (by decide)) ?_
    | split
    | with_reducible refine only_ite (fun _ => ?_) (fun _ => ?_)

theorem keep_armEffect {L : List Area} {u0 : State} (i : Fin 4) (z1 : Count) {s : State} (hL : Covers [.nums, .ev, .nut, .eng, .img, .mem, .bar] L) (h : Only L u0 s) :
    Only L u0 (armEffect i z1 s) := by
  unfold armEffect
  repeat' first
    | with_reducible exact h
    | with_reducible assumption
    | extract_lets
    | with_reducible refine keep_discardSwitches (covers_sub hL (by decide)) ?_
    | with_reducible refine keep_loadBundles _ (covers_sub hL (by decide)) ?_
    | with_reducible refine keep_seqRun _ _ (covers_sub hL (by decide)) ?_
    | with_reducible refine keep_setImg _ (covers_sub hL (by decide)) ?_
    | with_reducible refine keep_unarm (covers_sub hL (by decide)) ?_
    | split
    | with_reducible refine only_ite (fun _ => ?_) (fun _ => ?_)
    | dsimp -zeta +zetaDelta only

theorem keep_retestTile {L : List Area} {u0 : State} (t : Fin 68) {s : State} (hL : Covers [.eng] L) (h : Only L u0 s) :
    Only L u0 (retestTile t s) := by
  unfold retestTile
  repeat' first
    | with_reducible exact h
    | with_reducible assumption
    | extract_lets
    | with_reducible refine keep_updTile _ _ (covers_sub hL (by decide)) ?_
    | split
    | with_reducible refine only_ite (fun _ => ?_) (fun _ => ?_)

theorem keep_domainClear {L : List Area} {u0 : State} (d : Fin 2) {s : State} (hL : Covers [.nums, .pow, .eng, .img] L) (h : Only L u0 s) :
    Only L u0 (domainClear d s) := by
  unfold domainClear
  repeat' first
    | with_reducible exact h
    | with_reducible assumption
    | extract_lets
    | with_reducible refine keep_retestTile _ (covers_sub hL (by decide)) ?_
    | with_reducible refine keep_setImg _ (covers_sub hL (by decide)) ?_
    | with_reducible refine keep_storeNum _ _ (covers_sub hL (by decide)) ?_
    | with_reducible refine only_forAll _ _ (fun _ _ _ => ?_) ?_
    | split
    | with_reducible refine only_ite (fun _ => ?_) (fun _ => ?_)
    | dsimp -zeta +zetaDelta only

theorem keep_imageEffect {L : List Area} {u0 : State} (i : Fin 4) (bs : List Byte) (z2 : Count) {s : State} (hL : Covers [.nums, .img] L) (h : Only L u0 s) :
    Only L u0 (imageEffect i bs z2 s) := by
  unfold imageEffect
  repeat' first
    | with_reducible exact h
    | with_reducible assumption
    | extract_lets
    | with_reducible refine keep_setImg _ (covers_sub hL (by decide)) ?_
    | with_reducible refine keep_setN _ _ (covers_sub hL (by decide)) ?_
    | split
    | with_reducible refine only_ite (fun _ => ?_) (fun _ => ?_)

theorem keep_replan {L : List Area} {u0 : State} (x : Image) (bs : List Bind) (sRepl : Nat) {s : State} (hL : Covers [.eng, .img] L) (h : Only L u0 s) :
    Only L u0 (replan x bs sRepl s) := by
  unfold replan
  repeat' first
    | with_reducible exact h
    | with_reducible assumption
    | extract_lets
    | with_reducible refine keep_releaseHeld _ _ (covers_sub hL (by decide)) ?_
    | with_reducible refine keep_setImg _ (covers_sub hL (by decide)) ?_
    | split
    | with_reducible refine only_ite (fun _ => ?_) (fun _ => ?_)
    | dsimp -zeta +zetaDelta only

theorem keep_replaceTile {L : List Area} {u0 : State} (t : Fin 68) (n : Nat) {s : State} (hL : Covers [.nums, .ev, .nut, .eng, .img, .mem, .bar, .free] L) (h : Only L u0 s) :
    Only L u0 (replaceTile t n s) := by
  unfold replaceTile
  repeat' first
    | with_reducible exact h
    | with_reducible assumption
    | extract_lets
    | with_reducible refine keep_recompute _ (covers_sub hL (by decide)) ?_
    | with_reducible refine keep_replan _ _ _ (covers_sub hL (by decide)) ?_
    | with_reducible refine keep_setAdvance _ _ _ (covers_sub hL (by decide)) ?_
    | with_reducible refine keep_setImg _ (covers_sub hL (by decide)) ?_
    | with_reducible refine keep_switchRepl _ (covers_sub hL (by decide)) ?_
    | with_reducible refine keep_updTile _ _ (covers_sub hL (by decide)) ?_
    | with_reducible refine only_forEach _ _ (fun _ _ _ => ?_) ?_
    | with_reducible refine only_foldl _ _ (fun _ _ _ => ?_) ?_
    | split
    | with_reducible refine only_ite (fun _ => ?_) (fun _ => ?_)
    | dsimp -zeta +zetaDelta only

theorem keep_swapHalves {L : List Area} {u0 : State} {s : State} (hL : Covers [.eng] L) (h : Only L u0 s) :
    Only L u0 (swapHalves s) := by
  unfold swapHalves
  repeat' first
    | with_reducible exact h
    | with_reducible assumption
    | extract_lets
    | with_reducible refine keep_setEng _ (covers_sub hL (by decide)) ?_
    | split
    | with_reducible refine only_ite (fun _ => ?_) (fun _ => ?_)

theorem keep_switchPlan {L : List Area} {u0 : State} (p : Plan) {s : State} (hL : Covers [.nums, .ev, .nut, .eng, .img, .mem, .bar, .free] L) (h : Only L u0 s) :
    Only L u0 (switchPlan p s) := by
  unfold switchPlan
  repeat' first
    | with_reducible exact h
    | with_reducible assumption
    | extract_lets
    | with_reducible refine keep_applyBinds _ _ _ _ _ _ (covers_sub hL (by decide)) ?_
    | with_reducible refine keep_reapplyOne _ (covers_sub hL (by decide)) ?_
    | with_reducible refine keep_recompute _ (covers_sub hL (by decide)) ?_
    | with_reducible refine keep_restoreOne _ (covers_sub hL (by decide)) ?_
    | with_reducible refine keep_seqRun _ _ (covers_sub hL (by decide)) ?_
    | with_reducible refine keep_setImg _ (covers_sub hL (by decide)) ?_
    | with_reducible refine only_forEach _ _ (fun _ _ _ => ?_) ?_
    | split
    | dsimp -zeta +zetaDelta only

theorem keep_measImage {L : List Area} {u0 : State} (i : Nat) {s : State} (hL : Covers [.cardamom] L) (h : Only L u0 s) :
    Only L u0 (measImage i s) := by
  unfold measImage
  repeat' first
    | with_reducible exact h
    | with_reducible assumption
    | extract_lets
    | with_reducible refine keep_logMeas _ _ _ (covers_sub hL (by decide)) ?_
    | split

theorem keep_markForce {L : List Area} {u0 : State} (i : Nat) {s : State} (hL : Covers [.img] L) (h : Only L u0 s) :
    Only L u0 (markForce i s) := by
  unfold markForce
  repeat' first
    | with_reducible exact h
    | with_reducible assumption
    | extract_lets
    | with_reducible refine keep_setImg _ (covers_sub hL (by decide)) ?_
    | split
    | with_reducible refine only_ite (fun _ => ?_) (fun _ => ?_)

set_option tactic.hygienic false in
theorem keep_takeForce {L : List Area} {u0 : State} (i : Nat) (frame : Nat) {s : State} (hL : Covers [.nums, .ev, .nut, .img, .mem, .bar, .cardamom] L) (h : Only L u0 s) :
    Only L u0 (takeForce i frame s) := by
  unfold takeForce
  repeat' first
    | with_reducible exact h
    | with_reducible assumption
    | extract_lets
    | with_reducible refine keep_markForce _ (covers_sub hL (by decide)) ?_
    | with_reducible refine keep_measImage _ (covers_sub hL (by decide)) ?_
    | with_reducible refine keep_setImg _ (covers_sub hL (by decide)) ?_
    | with_reducible refine keep_setN _ _ (covers_sub hL (by decide)) ?_
    | with_reducible refine keep_signalCell _ _ (covers_sub hL (by decide)) ?_
    | split
    | with_reducible refine only_ite (fun _ => ?_) (fun _ => ?_)
    | dsimp -zeta +zetaDelta only
    | unfold s3
    | unfold s2
    | unfold s1

end Sys2Proof.Laws
end

