-- ==== Sys2Proof/Laws/FrameClove.lean ====
section
/-! SUPPORT. What the operations of Machine/Clove.lean may change: an operation keeps a frame that allows the parts it lists. -/
namespace Sys2Proof.Laws

open Sys2Proof.Machine

theorem keep_rawWord {L : List Area} {u0 : State} (o : LaneOut) {s : State} (hL : Covers [.free] L) (h : Only L u0 s) :
    Only L u0 (rawWord o s).2 := by
  unfold rawWord
  repeat' first
    | with_reducible exact h
    | with_reducible assumption
    | extract_lets
    | with_reducible refine keep_takeFree _ (covers_sub hL (by decide)) ?_
    | with_reducible refine keep_takeFree_eq (by assumption) (covers_sub hL (by decide)) ?_
    | split
    | dsimp -zeta only

theorem keep_rawWord_eq {L : List Area} {u0 : State} {o : LaneOut} {s : State} {r : _} {t : State} (e : rawWord o s = (r, t)) (hL : Covers [.free] L) (h : Only L u0 s) :
    Only L u0 t := by
  have k := keep_rawWord o hL h
  rw [e] at k
  exact k

theorem keep_markUncorrectable {L : List Area} {u0 : State} {s : State} (hL : Covers [.eng] L) (h : Only L u0 s) :
    Only L u0 (markUncorrectable s) := by
  unfold markUncorrectable
  repeat' first
    | with_reducible exact h
    | with_reducible assumption
    | extract_lets
    | with_reducible refine keep_setEng _ (covers_sub hL (by decide)) ?_

theorem keep_placeState {L : List Area} {u0 : State} (x : Sess) (lane : Nat) {s : State} (hL : Covers [.eng] L) (h : Only L u0 s) :
    Only L u0 (placeState x lane s) := by
  unfold placeState
  repeat' first
    | with_reducible exact h
    | with_reducible assumption
    | extract_lets
    | with_reducible refine keep_updTile _ _ (covers_sub hL (by decide)) ?_
    | split
    | dsimp -zeta +zetaDelta only

theorem keep_ingestLanes {L : List Area} {u0 : State} (p : Nat × Nat) {s : State} (hL : Covers [.eng] L) (h : Only L u0 s) :
    Only L u0 (ingestLanes p s) := by
  unfold ingestLanes
  repeat' first
    | with_reducible exact h
    | with_reducible assumption
    | extract_lets
    | with_reducible refine keep_placeState _ _ (covers_sub hL (by decide)) ?_
    | with_reducible refine keep_setEng _ (covers_sub hL (by decide)) ?_
    | with_reducible refine keep_updSess _ _ (covers_sub hL (by decide)) ?_
    | with_reducible refine only_forEach _ _ (fun _ _ _ => ?_) ?_
    | dsimp -zeta +zetaDelta only

theorem keep_restTiles {L : List Area} {u0 : State} {s : State} (hL : Covers [.eng] L) (h : Only L u0 s) :
    Only L u0 (restTiles s) := by
  unfold restTiles
  repeat' first
    | with_reducible exact h
    | with_reducible assumption
    | extract_lets
    | with_reducible refine keep_setEng _ (covers_sub hL (by decide)) ?_

theorem keep_ctlStep {L : List Area} {u0 : State} (t : Fin 68) (a : At) (op : CtlOp) {s : State} (hL : Covers [.nums, .ev, .nut, .eng, .mem, .bar] L) (h : Only L u0 s) :
    Only L u0 (ctlStep t a op s) := by
  unfold ctlStep
  repeat' first
    | with_reducible exact h
    | with_reducible assumption
    | extract_lets
    | with_reducible refine keep_tileSignal _ _ (covers_sub hL (by decide)) ?_
    | with_reducible refine keep_updTile _ _ (covers_sub hL (by decide)) ?_
    | split

theorem keep_noteReads {L : List Area} {u0 : State} (t : Fin 68) (x : Tile) (ps : List (Nat × Nat)) {s : State} (hL : Covers [.nums, .eng] L) (h : Only L u0 s) :
    Only L u0 (noteReads t x ps s) := by
  unfold noteReads
  extract_lets ks new
  clear_value ks
  split
  · exact h
  · exact keep_markUncorrectable (covers_sub hL (by decide)) (keep_incMax _ _ _ (covers_sub hL (by decide))
      (keep_updTile _ _ (covers_sub hL (by decide)) h))

theorem keep_sendStep {L : List Area} {u0 : State} (t : Fin 68) (a : At) {s : State} (hL : Covers [.nums, .eng] L) (h : Only L u0 s) :
    Only L u0 (sendStep t a s) := by
  unfold sendStep
  extract_lets y
  split
  · extract_lets bad arrive s1
    refine keep_noteReads _ _ _ (covers_sub hL (by decide)) (keep_updTile _ _ (covers_sub hL (by decide)) ?_)
    unfold s1
    split
    · exact keep_setEng _ (covers_sub hL (by decide)) h
    · exact h
  · exact h

theorem keep_countFlags {L : List Area} {u0 : State} (t : Fin 68) (fl : Nat) {s : State} (hL : Covers [.ev, .nut] L) (h : Only L u0 s) :
    Only L u0 (countFlags t fl s) := by
  unfold countFlags
  repeat' first
    | with_reducible exact h
    | with_reducible assumption
    | extract_lets
    | with_reducible refine keep_raiseMain _ _ _ (covers_sub hL (by decide)) ?_
    | split
    | with_reducible refine only_ite (fun _ => ?_) (fun _ => ?_)

theorem keep_reachFlags {L : List Area} {u0 : State} (t : Fin 68) (fl : Nat) (lanes : List Nat) {s : State} (hL : Covers [.ev, .nut, .eng] L) (h : Only L u0 s) :
    Only L u0 (reachFlags t fl lanes s) := by
  unfold reachFlags
  repeat' first
    | with_reducible exact h
    | with_reducible assumption
    | extract_lets
    | with_reducible refine keep_countFlags _ _ (covers_sub hL (by decide)) ?_
    | with_reducible refine keep_updSess _ _ (covers_sub hL (by decide)) ?_
    | with_reducible refine keep_updTile _ _ (covers_sub hL (by decide)) ?_
    | with_reducible refine only_forEach _ _ (fun _ _ _ => ?_) ?_
    | split
    | with_reducible refine only_ite (fun _ => ?_) (fun _ => ?_)

theorem keep_reachPoison {L : List Area} {u0 : State} (bad : Bool) (lanes : List Nat) {s : State} (hL : Covers [.eng] L) (h : Only L u0 s) :
    Only L u0 (reachPoison bad lanes s) := by
  unfold reachPoison
  repeat' first
    | with_reducible exact h
    | with_reducible assumption
    | extract_lets
    | with_reducible refine keep_markUncorrectable (covers_sub hL (by decide)) ?_
    | with_reducible refine keep_updSess _ _ (covers_sub hL (by decide)) ?_
    | with_reducible refine only_forEach _ _ (fun _ _ _ => ?_) ?_
    | split
    | with_reducible refine only_ite (fun _ => ?_) (fun _ => ?_)

theorem keep_matrixStep {L : List Area} {u0 : State} (t : Fin 68) (a : At) (op : TileOp) {s : State} (hL : Covers [.nums, .ev, .nut, .eng] L) (h : Only L u0 s) :
    Only L u0 (matrixStep t a op s) := by
  unfold matrixStep
  repeat' first
    | with_reducible exact h
    | with_reducible assumption
    | extract_lets
    | with_reducible refine keep_noteReads _ _ _ (covers_sub hL (by decide)) ?_
    | with_reducible refine keep_reachFlags _ _ _ (covers_sub hL (by decide)) ?_
    | with_reducible refine keep_reachPoison _ _ (covers_sub hL (by decide)) ?_
    | with_reducible refine keep_updTile _ _ (covers_sub hL (by decide)) ?_
    | with_reducible refine only_foldl _ _ (fun _ _ _ => ?_) ?_
    | split
    | with_reducible refine only_ite (fun _ => ?_) (fun _ => ?_)
    | dsimp -zeta +zetaDelta only

theorem keep_moveStep {L : List Area} {u0 : State} (t : Fin 68) (a : At) (op : TileOp) {s : State} (hL : Covers [.nums, .eng] L) (h : Only L u0 s) :
    Only L u0 (moveStep t a op s) := by
  unfold moveStep
  repeat' first
    | with_reducible exact h
    | with_reducible assumption
    | extract_lets
    | with_reducible refine keep_noteReads _ _ _ (covers_sub hL (by decide)) ?_
    | with_reducible refine keep_setEng _ (covers_sub hL (by decide)) ?_
    | with_reducible refine keep_updTile _ _ (covers_sub hL (by decide)) ?_
    | with_reducible refine only_foldl _ _ (fun _ _ _ => ?_) ?_
    | split
    | dsimp -zeta +zetaDelta only

theorem keep_putRow {L : List Area} {u0 : State} (t : Fin 68) (x : Tile) (fd : Bool) (d : Nat) (v : Nat) (fl : Nat) (chunks : List Nat) (lanes : List Nat) {s : State} (hL : Covers [.ev, .nut, .eng] L) (h : Only L u0 s) :
    Only L u0 (putRow t x fd d v fl chunks lanes s) := by
  unfold putRow
  repeat' first
    | with_reducible exact h
    | with_reducible assumption
    | extract_lets
    | with_reducible refine keep_reachFlags _ _ _ (covers_sub hL (by decide)) ?_
    | with_reducible refine keep_reachPoison _ _ (covers_sub hL (by decide)) ?_
    | with_reducible refine keep_updTile _ _ (covers_sub hL (by decide)) ?_
    | with_reducible refine only_foldl _ _ (fun _ _ _ => ?_) ?_
    | dsimp -zeta +zetaDelta only

theorem keep_vectorStep {L : List Area} {u0 : State} (t : Fin 68) (a : At) (op : TileOp) {s : State} (hL : Covers [.ev, .nut, .eng] L) (h : Only L u0 s) :
    Only L u0 (vectorStep t a op s) := by
  unfold vectorStep
  repeat' first
    | with_reducible exact h
    | with_reducible assumption
    | extract_lets
    | with_reducible refine keep_putRow _ _ _ _ _ _ _ _ (covers_sub hL (by decide)) ?_
    | with_reducible refine keep_reachFlags _ _ _ (covers_sub hL (by decide)) ?_
    | with_reducible refine keep_reachPoison _ _ (covers_sub hL (by decide)) ?_
    | with_reducible refine keep_updTile _ _ (covers_sub hL (by decide)) ?_
    | with_reducible refine only_foldl _ _ (fun _ _ _ => ?_) ?_
    | split
    | with_reducible refine only_ite (fun _ => ?_) (fun _ => ?_)
    | dsimp -zeta +zetaDelta only

theorem keep_tileStep {L : List Area} {u0 : State} (t : Fin 68) (a : At) (op : TileOp) {s : State} (hL : Covers [.nums, .ev, .nut, .eng] L) (h : Only L u0 s) :
    Only L u0 (tileStep t a op s) := by
  unfold tileStep
  repeat' first
    | with_reducible exact h
    | with_reducible assumption
    | extract_lets
    | with_reducible refine keep_matrixStep _ _ _ (covers_sub hL (by decide)) ?_
    | with_reducible refine keep_moveStep _ _ _ (covers_sub hL (by decide)) ?_
    | with_reducible refine keep_vectorStep _ _ _ (covers_sub hL (by decide)) ?_

theorem keep_runTile {L : List Area} {u0 : State} (c : Nat) (t : Fin 68) {s : State} (hL : Covers [.nums, .ev, .nut, .rep, .eng, .mem, .bar] L) (h : Only L u0 s) :
    Only L u0 (runTile c t s) := by
  unfold runTile
  repeat' first
    | with_reducible exact h
    | with_reducible assumption
    | extract_lets
    | with_reducible refine keep_ctlStep _ _ _ (covers_sub hL (by decide)) ?_
    | with_reducible refine keep_sendStep _ _ (covers_sub hL (by decide)) ?_
    | with_reducible refine keep_tileStep _ _ _ (covers_sub hL (by decide)) ?_
    | with_reducible refine keep_updTile _ _ (covers_sub hL (by decide)) ?_
    | with_reducible refine only_forEach _ _ (fun _ _ _ => ?_) ?_
    | split
    | with_reducible refine only_ite (fun _ => ?_) (fun _ => ?_)
    | dsimp -zeta +zetaDelta only

theorem keep_stepCycle {L : List Area} {u0 : State} (c : Nat) {s : State} (hL : Covers [.nums, .ev, .nut, .rep, .eng, .mem, .bar] L) (h : Only L u0 s) :
    Only L u0 (stepCycle c s) := by
  unfold stepCycle
  repeat' first
    | with_reducible exact h
    | with_reducible assumption
    | extract_lets
    | with_reducible refine keep_runTile _ _ (covers_sub hL (by decide)) ?_
    | with_reducible refine keep_setEng _ (covers_sub hL (by decide)) ?_
    | with_reducible refine only_forAll _ _ (fun _ _ _ => ?_) ?_
    | dsimp -zeta +zetaDelta only

theorem keep_runCycles {L : List Area} {u0 : State} (k c : Nat) {s : State} (hL : Covers [.nums, .ev, .nut, .rep, .eng, .mem, .bar] L) (h : Only L u0 s) :
    Only L u0 (runCycles k c s) := by
  induction k generalizing c s with
  | zero => exact h
  | succ k ih =>
    simp only [runCycles]
    split
    · exact ih _ (keep_stepCycle _ (covers_sub hL (by decide)) h)
    · exact h

theorem keep_runTo {L : List Area} {u0 : State} (c : Nat) {s : State} (hL : Covers [.nums, .ev, .nut, .rep, .eng, .mem, .bar] L) (h : Only L u0 s) :
    Only L u0 (runTo c s) := by
  unfold runTo
  repeat' first
    | with_reducible exact h
    | with_reducible assumption
    | extract_lets
    | with_reducible refine keep_runCycles _ _ (covers_sub hL (by decide)) ?_
    | with_reducible refine keep_setEng _ (covers_sub hL (by decide)) ?_

theorem keep_startTiles {L : List Area} {u0 : State} (ls : List Nat) {s : State} (hL : Covers [.acc, .eng] L) (h : Only L u0 s) :
    Only L u0 (startTiles ls s) := by
  unfold startTiles
  repeat' first
    | with_reducible exact h
    | with_reducible assumption
    | extract_lets
    | with_reducible refine keep_setEng _ (covers_sub hL (by decide)) ?_
    | with_reducible refine keep_updTile _ _ (covers_sub hL (by decide)) ?_
    | with_reducible refine only_forEach _ _ (fun _ _ _ => ?_) ?_
    | split
    | with_reducible refine only_ite (fun _ => ?_) (fun _ => ?_)
    | with_reducible refine keep_mk_acc _ (covers_sub hL (by decide)) ?_
    | exact only_upd (by assumption) (fun a ha => by cases a <;> first | exact absurd (hL _ (by decide)) ha | rfl)
    | dsimp -zeta +zetaDelta only

theorem keep_ingestAll {L : List Area} {u0 : State} {s : State} (hL : Covers [.eng] L) (h : Only L u0 s) :
    Only L u0 (ingestAll s) := by
  unfold ingestAll
  repeat' first
    | with_reducible exact h
    | with_reducible assumption
    | extract_lets
    | with_reducible refine keep_ingestLanes _ (covers_sub hL (by decide)) ?_
    | with_reducible refine keep_setEng _ (covers_sub hL (by decide)) ?_
    | with_reducible refine only_forEach _ _ (fun _ _ _ => ?_) ?_

end Sys2Proof.Laws
end

