-- ==== Sys2Proof/Laws/FrameSend.lean ====
section
/-! SUPPORT. What the operations of Machine/Send.lean may change: an operation keeps a frame that allows the parts it lists. -/
namespace Sys2Proof.Laws

open Sys2Proof.Machine

theorem keep_lineAdd {L : List Area} {u0 : State} (p : Fin 2) (cls : Nat) (m : Msg) (sec : Option (Nat × Nat × List Byte)) {s : State} (hL : Covers [.port] L) (h : Only L u0 s) :
    Only L u0 (lineAdd p cls m sec s) := by
  unfold lineAdd
  repeat' first
    | with_reducible exact h
    | with_reducible assumption
    | extract_lets
    | with_reducible refine keep_updHost _ _ (covers_sub hL (by decide)) ?_

theorem keep_putLine {L : List Area} {u0 : State} (p : Fin 2) (cls : Nat) (m : Msg) {s : State} (hL : Covers [.ev, .nut, .port] L) (h : Only L u0 s) :
    Only L u0 (putLine p cls m s) := by
  unfold putLine
  repeat' first
    | with_reducible exact h
    | with_reducible assumption
    | extract_lets
    | with_reducible refine keep_lineAdd _ _ _ _ (covers_sub hL (by decide)) ?_
    | with_reducible refine keep_raiseMain _ _ _ (covers_sub hL (by decide)) ?_
    | with_reducible refine keep_updHost _ _ (covers_sub hL (by decide)) ?_
    | split
    | with_reducible refine only_ite (fun _ => ?_) (fun _ => ?_)
    | dsimp -zeta +zetaDelta only

theorem keep_sendHost {L : List Area} {u0 : State} (p : Fin 2) (cls : Nat) (m : Msg) {s : State} (hL : Covers [.ev, .nut, .port] L) (h : Only L u0 s) :
    Only L u0 (sendHost p cls m s) := by
  unfold sendHost
  repeat' first
    | with_reducible exact h
    | with_reducible assumption
    | extract_lets
    | with_reducible refine keep_putLine _ _ _ (covers_sub hL (by decide)) ?_
    | with_reducible refine keep_updHost _ _ (covers_sub hL (by decide)) ?_
    | split
    | with_reducible refine only_ite (fun _ => ?_) (fun _ => ?_)

theorem keep_announceHost {L : List Area} {u0 : State} (p : Fin 2) {s : State} (hL : Covers [.ev, .nut, .port] L) (h : Only L u0 s) :
    Only L u0 (announceHost p s) := by
  unfold announceHost
  repeat' first
    | with_reducible exact h
    | with_reducible assumption
    | extract_lets
    | with_reducible refine keep_sendHost _ _ _ (covers_sub hL (by decide)) ?_

theorem keep_sendSvc {L : List Area} {u0 : State} (cls : Nat) (m : Msg) {s : State} (hL : Covers [.port] L) (h : Only L u0 s) :
    Only L u0 (sendSvc cls m s) := by
  unfold sendSvc
  repeat' first
    | with_reducible exact h
    | with_reducible assumption
    | extract_lets
    | split
    | with_reducible refine only_ite (fun _ => ?_) (fun _ => ?_)
    | with_reducible refine keep_mk_port _ (covers_sub hL (by decide)) ?_
    | exact only_upd (by assumption) (fun a ha => by cases a <;> first | exact absurd (hL _ (by decide)) ha | rfl)

theorem keep_announceSvc {L : List Area} {u0 : State} {s : State} (hL : Covers [.port] L) (h : Only L u0 s) :
    Only L u0 (announceSvc s) := by
  unfold announceSvc
  repeat' first
    | with_reducible exact h
    | with_reducible assumption
    | extract_lets
    | with_reducible refine keep_sendSvc _ _ (covers_sub hL (by decide)) ?_

theorem keep_announceAll {L : List Area} {u0 : State} {s : State} (hL : Covers [.ev, .nut, .port] L) (h : Only L u0 s) :
    Only L u0 (announceAll s) := by
  unfold announceAll
  repeat' first
    | with_reducible exact h
    | with_reducible assumption
    | extract_lets
    | with_reducible refine keep_announceHost _ (covers_sub hL (by decide)) ?_
    | with_reducible refine keep_announceSvc (covers_sub hL (by decide)) ?_

theorem keep_enterPart {L : List Area} {u0 : State} (st : PartState) {s : State} (hL : Covers [.part, .ev, .nut, .port] L) (h : Only L u0 s) :
    Only L u0 (enterPart st s) := by
  unfold enterPart
  repeat' first
    | with_reducible exact h
    | with_reducible assumption
    | extract_lets
    | with_reducible refine keep_announceAll (covers_sub hL (by decide)) ?_
    | split
    | with_reducible refine only_ite (fun _ => ?_) (fun _ => ?_)
    | with_reducible refine keep_mk_part _ (covers_sub hL (by decide)) ?_
    | exact only_upd (by assumption) (fun a ha => by cases a <;> first | exact absurd (hL _ (by decide)) ha | rfl)

theorem keep_nextSeq {L : List Area} {u0 : State} (n : Nat) {s : State} (hL : Covers [.oda] L) (h : Only L u0 s) :
    Only L u0 (nextSeq n s) := by
  unfold nextSeq
  repeat' first
    | with_reducible exact h
    | with_reducible assumption
    | extract_lets
    | split
    | with_reducible refine only_ite (fun _ => ?_) (fun _ => ?_)
    | with_reducible refine keep_mk_oda _ (covers_sub hL (by decide)) ?_
    | exact only_upd (by assumption) (fun a ha => by cases a <;> first | exact absurd (hL _ (by decide)) ha | rfl)

theorem keep_useTag {L : List Area} {u0 : State} (stream : Nat) {s : State} (hL : Covers [.port] L) (h : Only L u0 s) :
    Only L u0 (useTag stream s) := by
  unfold useTag
  repeat' first
    | with_reducible exact h
    | with_reducible assumption
    | extract_lets
    | with_reducible refine keep_mk_port _ (covers_sub hL (by decide)) ?_
    | exact only_upd (by assumption) (fun a ha => by cases a <;> first | exact absurd (hL _ (by decide)) ha | rfl)

theorem keep_sendSession {L : List Area} {u0 : State} (n : Nat) (cls : Nat) (m : Msg) {s : State} (hL : Covers [.ev, .nut, .oda, .port] L) (h : Only L u0 s) :
    Only L u0 (sendSession n cls m s) := by
  unfold sendSession
  repeat' first
    | with_reducible exact h
    | with_reducible assumption
    | extract_lets
    | with_reducible refine keep_nextSeq _ (covers_sub hL (by decide)) ?_
    | with_reducible refine keep_sendHost _ _ _ (covers_sub hL (by decide)) ?_
    | with_reducible refine keep_sendSvc _ _ (covers_sub hL (by decide)) ?_
    | with_reducible refine keep_useTag _ (covers_sub hL (by decide)) ?_
    | split
    | with_reducible refine only_ite (fun _ => ?_) (fun _ => ?_)
    | dsimp -zeta +zetaDelta only

theorem keep_sendBeacon {L : List Area} {u0 : State} (n : Nat) (m : Msg) {s : State} (hL : Covers [.ev, .nut, .oda, .port] L) (h : Only L u0 s) :
    Only L u0 (sendBeacon n m s) := by
  unfold sendBeacon
  repeat' first
    | with_reducible exact h
    | with_reducible assumption
    | extract_lets
    | with_reducible refine keep_nextSeq _ (covers_sub hL (by decide)) ?_
    | with_reducible refine keep_sendHost _ _ _ (covers_sub hL (by decide)) ?_
    | with_reducible refine keep_sendSession _ _ _ (covers_sub hL (by decide)) ?_
    | split
    | with_reducible refine only_ite (fun _ => ?_) (fun _ => ?_)

theorem keep_openGates {L : List Area} {u0 : State} (p : Fin 2) {s : State} (hL : Covers [.port] L) (h : Only L u0 s) :
    Only L u0 (openGates p s) := by
  unfold openGates
  repeat' first
    | with_reducible exact h
    | with_reducible assumption
    | extract_lets
    | with_reducible refine keep_updHost _ _ (covers_sub hL (by decide)) ?_
    | split
    | with_reducible refine only_ite (fun _ => ?_) (fun _ => ?_)
    | dsimp -zeta +zetaDelta only

theorem keep_drainPort {L : List Area} {u0 : State} (p : Fin 2) {s : State} (hL : Covers [.ev, .nut, .port] L) (h : Only L u0 s) :
    Only L u0 (drainPort p s) := by
  unfold drainPort
  repeat' first
    | with_reducible exact h
    | with_reducible assumption
    | extract_lets
    | with_reducible refine keep_putLine _ _ _ (covers_sub hL (by decide)) ?_
    | with_reducible refine keep_updHost _ _ (covers_sub hL (by decide)) ?_
    | with_reducible refine only_forEach _ _ (fun _ _ _ => ?_) ?_
    | dsimp -zeta +zetaDelta only

end Sys2Proof.Laws
end

