-- ==== Sys2Proof/Laws/FrameFrame.lean ====
section
/-! SUPPORT. What the operations of Machine/Frame.lean may change: an operation keeps a frame that allows the parts it lists. -/
namespace Sys2Proof.Laws

open Sys2Proof.Machine

theorem keep_settleReady {L : List Area} {u0 : State} {s : State} (hL : Covers [.nums, .pow, .ev, .nut, .eng, .img, .mem, .bar, .free] L) (h : Only L u0 s) :
    Only L u0 (settleReady s) := by
  unfold settleReady
  repeat' first
    | with_reducible exact h
    | with_reducible assumption
    | extract_lets
    | with_reducible refine keep_coldFinish _ (covers_sub hL (by decide)) ?_
    | with_reducible refine keep_recompute _ (covers_sub hL (by decide)) ?_
    | with_reducible refine keep_releaseHeld _ _ (covers_sub hL (by decide)) ?_
    | with_reducible refine keep_setEng _ (covers_sub hL (by decide)) ?_
    | with_reducible refine keep_setImg _ (covers_sub hL (by decide)) ?_
    | with_reducible refine keep_switchRepl _ (covers_sub hL (by decide)) ?_
    | with_reducible refine only_forEach _ _ (fun _ _ _ => ?_) ?_
    | split
    | dsimp -zeta +zetaDelta only

theorem keep_stopRings {L : List Area} {u0 : State} {s : State} (hL : Covers [.eng] L) (h : Only L u0 s) :
    Only L u0 (stopRings s) := by
  unfold stopRings
  repeat' first
    | with_reducible exact h
    | with_reducible assumption
    | extract_lets
    | with_reducible refine keep_setEng _ (covers_sub hL (by decide)) ?_
    | split
    | with_reducible refine only_ite (fun _ => ?_) (fun _ => ?_)

theorem keep_stopLaunch {L : List Area} {u0 : State} {s : State} (hL : Covers [.nums, .pow, .acc, .part, .ev, .nut, .port, .eng, .img, .ani, .mem, .bar, .free] L) (h : Only L u0 s) :
    Only L u0 (stopLaunch s) := by
  unfold stopLaunch
  repeat' first
    | with_reducible exact h
    | with_reducible assumption
    | extract_lets
    | with_reducible refine keep_abandonTick (covers_sub hL (by decide)) ?_
    | with_reducible refine keep_enterPart _ (covers_sub hL (by decide)) ?_
    | with_reducible refine keep_setEng _ (covers_sub hL (by decide)) ?_
    | with_reducible refine keep_setN _ _ (covers_sub hL (by decide)) ?_
    | with_reducible refine keep_settleReady (covers_sub hL (by decide)) ?_
    | with_reducible refine keep_stopRings (covers_sub hL (by decide)) ?_
    | dsimp -zeta +zetaDelta only

theorem keep_failTile {L : List Area} {u0 : State} (t : Fin 68) (n : Nat) {s : State} (hL : Covers [.nums, .pow, .ev, .nut, .eng, .img, .mem, .bar, .free] L) (h : Only L u0 s) :
    Only L u0 (failTile t n s) := by
  unfold failTile
  repeat' first
    | with_reducible exact h
    | with_reducible assumption
    | extract_lets
    | with_reducible refine keep_checkDomain _ (covers_sub hL (by decide)) ?_
    | with_reducible refine keep_markFailed _ (covers_sub hL (by decide)) ?_
    | with_reducible refine keep_replaceTile _ _ (covers_sub hL (by decide)) ?_
    | split
    | with_reducible refine only_ite (fun _ => ?_) (fun _ => ?_)
    | dsimp -zeta +zetaDelta only

theorem keep_tileFails {L : List Area} {u0 : State} (t : Fin 68) {s : State} (hL : Covers [.nums, .pow, .ev, .nut, .eng, .img, .mem, .bar, .free] L) (h : Only L u0 s) :
    Only L u0 (tileFails t s) := by
  unfold tileFails
  repeat' first
    | with_reducible exact h
    | with_reducible assumption
    | extract_lets
    | with_reducible refine keep_failTile _ _ (covers_sub hL (by decide)) ?_
    | with_reducible refine keep_updTile _ _ (covers_sub hL (by decide)) ?_
    | split
    | with_reducible refine only_ite (fun _ => ?_) (fun _ => ?_)
    | dsimp -zeta +zetaDelta only

theorem keep_copyAt {L : List Area} {u0 : State} (lane : Nat) (x : Sess) {s : State} (hL : Covers [.free] L) (h : Only L u0 s) :
    Only L u0 (copyAt lane x s).2 := by
  unfold copyAt
  repeat' first
    | with_reducible exact h
    | with_reducible assumption
    | extract_lets
    | with_reducible refine keep_rawWord _ (covers_sub hL (by decide)) ?_
    | with_reducible refine keep_rawWord_eq (by assumption) (covers_sub hL (by decide)) ?_
    | split
    | with_reducible refine only_ite (fun _ => ?_) (fun _ => ?_)
    | dsimp -zeta only
    | dsimp -zeta +zetaDelta only

theorem keep_copyAt_eq {L : List Area} {u0 : State} {lane : Nat} {x : Sess} {s : State} {r : _} {t : State} (e : copyAt lane x s = (r, t)) (hL : Covers [.free] L) (h : Only L u0 s) :
    Only L u0 t := by
  have k := keep_copyAt lane x hL h
  rw [e] at k
  exact k

set_option tactic.hygienic false in
theorem keep_putYield {L : List Area} {u0 : State} (k : Nat) (y : Yield) {s : State} (hL : Covers [.eng] L) (h : Only L u0 s) :
    Only L u0 (putYield k y s) := by
  unfold putYield
  repeat' first
    | with_reducible exact h
    | with_reducible assumption
    | extract_lets
    | with_reducible refine keep_addCtrl _ (covers_sub hL (by decide)) ?_
    | with_reducible refine keep_ringTrigger _ (covers_sub hL (by decide)) ?_
    | with_reducible refine keep_setEng _ (covers_sub hL (by decide)) ?_
    | with_reducible refine keep_setSess _ _ (covers_sub hL (by decide)) ?_
    | with_reducible refine only_forEach _ _ (fun _ _ _ => ?_) ?_
    | split
    | with_reducible refine only_ite (fun _ => ?_) (fun _ => ?_)
    | dsimp -zeta +zetaDelta only
    | unfold s2
    | unfold s1

theorem keep_emitOne {L : List Area} {u0 : State} (p0 : Bool) (n : Nat) (k : Nat) {s : State} (hL : Covers [.eng, .free] L) (h : Only L u0 s) :
    Only L u0 (emitOne p0 n k s) := by
  unfold emitOne
  repeat' first
    | with_reducible exact h
    | with_reducible assumption
    | extract_lets
    | with_reducible refine keep_copyAt _ _ (covers_sub hL (by decide)) ?_
    | with_reducible refine keep_copyAt_eq (by assumption) (covers_sub hL (by decide)) ?_
    | with_reducible refine keep_markUncorrectable (covers_sub hL (by decide)) ?_
    | with_reducible refine keep_putYield _ _ (covers_sub hL (by decide)) ?_
    | split
    | with_reducible refine only_ite (fun _ => ?_) (fun _ => ?_)
    | dsimp -zeta +zetaDelta only

theorem keep_putDerived {L : List Area} {u0 : State} (main : Bool) (end_ : Count) {s : State} (hL : Covers [.eng] L) (h : Only L u0 s) :
    Only L u0 (putDerived main end_ s) := by
  unfold putDerived
  repeat' first
    | with_reducible exact h
    | with_reducible assumption
    | extract_lets
    | with_reducible refine keep_setEng _ (covers_sub hL (by decide)) ?_
    | split
    | with_reducible refine only_ite (fun _ => ?_) (fun _ => ?_)
    | dsimp -zeta +zetaDelta only

theorem keep_startRings {L : List Area} {u0 : State} {s : State} (hL : Covers [.eng] L) (h : Only L u0 s) :
    Only L u0 (startRings s) := by
  unfold startRings
  repeat' first
    | with_reducible exact h
    | with_reducible assumption
    | extract_lets
    | with_reducible refine keep_setEng _ (covers_sub hL (by decide)) ?_
    | split
    | with_reducible refine only_ite (fun _ => ?_) (fun _ => ?_)

theorem keep_enterRun {L : List Area} {u0 : State} {s : State} (hL : Covers [.acc, .part, .ev, .nut, .port, .eng, .ani] L) (h : Only L u0 s) :
    Only L u0 (enterRun s) := by
  unfold enterRun
  repeat' first
    | with_reducible exact h
    | with_reducible assumption
    | extract_lets
    | with_reducible refine keep_abandonTick (covers_sub hL (by decide)) ?_
    | with_reducible refine keep_enterPart _ (covers_sub hL (by decide)) ?_
    | with_reducible refine keep_setEng _ (covers_sub hL (by decide)) ?_
    | with_reducible refine keep_startRings (covers_sub hL (by decide)) ?_

theorem keep_newNumbers {L : List Area} {u0 : State} {s : State} (hL : Covers [.nums, .ev, .nut, .eng, .mem, .bar] L) (h : Only L u0 s) :
    Only L u0 (newNumbers s) := by
  unfold newNumbers
  repeat' first
    | with_reducible exact h
    | with_reducible assumption
    | extract_lets
    | with_reducible refine keep_commitCkpt (covers_sub hL (by decide)) ?_
    | with_reducible refine keep_setEng _ (covers_sub hL (by decide)) ?_
    | dsimp -zeta +zetaDelta only

theorem keep_noteEntry {L : List Area} {u0 : State} (e : LedgerEnt) {s : State} (hL : Covers [.eng] L) (h : Only L u0 s) :
    Only L u0 (noteEntry e s) := by
  unfold noteEntry
  repeat' first
    | with_reducible exact h
    | with_reducible assumption
    | extract_lets
    | with_reducible refine keep_setEng _ (covers_sub hL (by decide)) ?_

theorem keep_putSample {L : List Area} {u0 : State} (src : Nat) (x : Sample) {s : State} (hL : Covers [.eng] L) (h : Only L u0 s) :
    Only L u0 (putSample src x s) := by
  unfold putSample
  repeat' first
    | with_reducible exact h
    | with_reducible assumption
    | extract_lets
    | with_reducible refine keep_noteEntry _ (covers_sub hL (by decide)) ?_
    | with_reducible refine keep_setEng _ (covers_sub hL (by decide)) ?_
    | split
    | with_reducible refine only_ite (fun _ => ?_) (fun _ => ?_)

set_option tactic.hygienic false in
theorem keep_placeSample {L : List Area} {u0 : State} (src : Nat) (x : Sample) {s : State} (hL : Covers [.eng] L) (h : Only L u0 s) :
    Only L u0 (placeSample src x s) := by
  unfold placeSample
  repeat' first
    | with_reducible exact h
    | with_reducible assumption
    | extract_lets
    | with_reducible refine keep_noteEntry _ (covers_sub hL (by decide)) ?_
    | with_reducible refine keep_putSample _ _ (covers_sub hL (by decide)) ?_
    | split
    | with_reducible refine only_ite (fun _ => ?_) (fun _ => ?_)
    | dsimp -zeta +zetaDelta only
    | unfold s1

theorem keep_promoteEarly {L : List Area} {u0 : State} {s : State} (hL : Covers [.eng] L) (h : Only L u0 s) :
    Only L u0 (promoteEarly s) := by
  unfold promoteEarly
  repeat' first
    | with_reducible exact h
    | with_reducible assumption
    | extract_lets
    | with_reducible refine keep_placeSample _ _ (covers_sub hL (by decide)) ?_
    | with_reducible refine keep_setEng _ (covers_sub hL (by decide)) ?_
    | with_reducible refine only_forEach _ _ (fun _ _ _ => ?_) ?_
    | dsimp -zeta +zetaDelta only

theorem keep_restoreDue {L : List Area} {u0 : State} (n : Nat) {s : State} (hL : Covers [.eng] L) (h : Only L u0 s) :
    Only L u0 (restoreDue n s) := by
  unfold restoreDue
  repeat' first
    | with_reducible exact h
    | with_reducible assumption
    | extract_lets
    | with_reducible refine keep_restoreOne _ (covers_sub hL (by decide)) ?_
    | with_reducible refine only_forEach _ _ (fun _ _ _ => ?_) ?_
    | split

theorem keep_tokenizeFor {L : List Area} {u0 : State} (n : Nat) (p : Nat × Sess) {s : State} (hL : Covers [.eng] L) (h : Only L u0 s) :
    Only L u0 (tokenizeFor n p s) := by
  unfold tokenizeFor
  repeat' first
    | with_reducible exact h
    | with_reducible assumption
    | extract_lets
    | with_reducible refine keep_setEng _ (covers_sub hL (by decide)) ?_
    | split
    | with_reducible refine only_ite (fun _ => ?_) (fun _ => ?_)
    | dsimp -zeta +zetaDelta only

theorem keep_cutoffFrame {L : List Area} {u0 : State} {s : State} (hL : Covers [.eng] L) (h : Only L u0 s) :
    Only L u0 (cutoffFrame s) := by
  unfold cutoffFrame
  repeat' first
    | with_reducible exact h
    | with_reducible assumption
    | extract_lets
    | with_reducible refine keep_restoreDue _ (covers_sub hL (by decide)) ?_
    | with_reducible refine keep_setEng _ (covers_sub hL (by decide)) ?_
    | with_reducible refine keep_tokenizeFor _ _ (covers_sub hL (by decide)) ?_
    | with_reducible refine only_forEach _ _ (fun _ _ _ => ?_) ?_
    | split
    | with_reducible refine only_ite (fun _ => ?_) (fun _ => ?_)
    | dsimp -zeta +zetaDelta only

theorem keep_arriveSample {L : List Area} {u0 : State} (src : Nat) (sample : Nat) (arrival : Nat) (value : Nat) (mean : Nat) (kept : Bool) {s : State} (hL : Covers [.eng] L) (h : Only L u0 s) :
    Only L u0 (arriveSample src sample arrival value mean kept s) := by
  unfold arriveSample
  repeat' first
    | with_reducible exact h
    | with_reducible assumption
    | extract_lets
    | with_reducible refine keep_placeSample _ _ (covers_sub hL (by decide)) ?_
    | with_reducible refine keep_setEng _ (covers_sub hL (by decide)) ?_
    | split
    | with_reducible refine only_ite (fun _ => ?_) (fun _ => ?_)
    | dsimp -zeta +zetaDelta only

theorem keep_stopSafe {L : List Area} {u0 : State} {s : State} (hL : Covers [.eng] L) (h : Only L u0 s) :
    Only L u0 (stopSafe s) := by
  unfold stopSafe
  repeat' first
    | with_reducible exact h
    | with_reducible assumption
    | extract_lets
    | with_reducible refine keep_setEng _ (covers_sub hL (by decide)) ?_
    | with_reducible refine keep_stopRings (covers_sub hL (by decide)) ?_

theorem keep_seeSource {L : List Area} {u0 : State} (source : Nat) (t : Rat) {s : State} (hL : Covers [.acc] L) (h : Only L u0 s) :
    Only L u0 (seeSource source t s) := by
  unfold seeSource
  repeat' first
    | with_reducible exact h
    | with_reducible assumption
    | extract_lets
    | with_reducible refine keep_seeTemp _ _ (covers_sub hL (by decide)) ?_
    | with_reducible refine only_forAll _ _ (fun _ _ _ => ?_) ?_
    | split
    | with_reducible refine only_ite (fun _ => ?_) (fun _ => ?_)

theorem keep_seeConversion {L : List Area} {u0 : State} (source : Nat) (x : RawSample) {s : State} (hL : Covers [.sq, .acc, .heat] L) (h : Only L u0 s) :
    Only L u0 (seeConversion source x s) := by
  unfold seeConversion
  repeat' first
    | with_reducible exact h
    | with_reducible assumption
    | extract_lets
    | with_reducible refine keep_seeSource _ _ (covers_sub hL (by decide)) ?_
    | with_reducible refine keep_updRail _ _ _ (covers_sub hL (by decide)) ?_
    | split
    | with_reducible refine only_ite (fun _ => ?_) (fun _ => ?_)
    | with_reducible refine keep_mk_heat _ (covers_sub hL (by decide)) ?_
    | exact only_upd (by assumption) (fun a ha => by cases a <;> first | exact absurd (hL _ (by decide)) ha | rfl)
    | dsimp -zeta +zetaDelta only

theorem keep_openNow {L : List Area} {u0 : State} (n : Nat) (k : Nat) {s : State} (hL : Covers [.ev, .nut, .eng] L) (h : Only L u0 s) :
    Only L u0 (openNow n k s) := by
  unfold openNow
  repeat' first
    | with_reducible exact h
    | with_reducible assumption
    | extract_lets
    | with_reducible refine keep_addCtrl _ (covers_sub hL (by decide)) ?_
    | with_reducible refine keep_raiseMain _ _ _ (covers_sub hL (by decide)) ?_
    | with_reducible refine keep_setSess _ _ (covers_sub hL (by decide)) ?_
    | split
    | with_reducible refine only_ite (fun _ => ?_) (fun _ => ?_)
    | dsimp -zeta +zetaDelta only

theorem keep_closeNow {L : List Area} {u0 : State} (k : Nat) {s : State} (hL : Covers [.ev, .nut, .eng] L) (h : Only L u0 s) :
    Only L u0 (closeNow k s) := by
  unfold closeNow
  repeat' first
    | with_reducible exact h
    | with_reducible assumption
    | extract_lets
    | with_reducible refine keep_addCtrl _ (covers_sub hL (by decide)) ?_
    | with_reducible refine keep_raiseMain _ _ _ (covers_sub hL (by decide)) ?_
    | with_reducible refine keep_updSess _ _ (covers_sub hL (by decide)) ?_
    | dsimp -zeta +zetaDelta only

theorem keep_changeNow {L : List Area} {u0 : State} (n : Nat) (k : Nat) {s : State} (hL : Covers [.eng] L) (h : Only L u0 s) :
    Only L u0 (changeNow n k s) := by
  unfold changeNow
  repeat' first
    | with_reducible exact h
    | with_reducible assumption
    | extract_lets
    | with_reducible refine keep_addCtrl _ (covers_sub hL (by decide)) ?_
    | with_reducible refine keep_updSess _ _ (covers_sub hL (by decide)) ?_
    | split
    | dsimp -zeta +zetaDelta only

theorem keep_alignAdvance {L : List Area} {u0 : State} (k : Nat) {s : State} (hL : Covers [.eng] L) (h : Only L u0 s) :
    Only L u0 (alignAdvance k s) := by
  unfold alignAdvance
  repeat' first
    | with_reducible exact h
    | with_reducible assumption
    | extract_lets
    | with_reducible refine keep_addCtrl _ (covers_sub hL (by decide)) ?_
    | with_reducible refine keep_updSess _ _ (covers_sub hL (by decide)) ?_
    | split
    | with_reducible refine only_ite (fun _ => ?_) (fun _ => ?_)
    | dsimp -zeta +zetaDelta only

theorem keep_switchNow {L : List Area} {u0 : State} (n : Nat) (k : Nat) {s : State} (hL : Covers [.ev, .nut, .eng] L) (h : Only L u0 s) :
    Only L u0 (switchNow n k s) := by
  unfold switchNow
  repeat' first
    | with_reducible exact h
    | with_reducible assumption
    | extract_lets
    | with_reducible refine keep_addCtrl _ (covers_sub hL (by decide)) ?_
    | with_reducible refine keep_alignAdvance _ (covers_sub hL (by decide)) ?_
    | with_reducible refine keep_raiseMain _ _ _ (covers_sub hL (by decide)) ?_
    | with_reducible refine keep_updSess _ _ (covers_sub hL (by decide)) ?_
    | split
    | with_reducible refine only_ite (fun _ => ?_) (fun _ => ?_)
    | dsimp -zeta +zetaDelta only

theorem keep_ingestOne {L : List Area} {u0 : State} (n : Nat) (k : Nat) {s : State} (hL : Covers [.ev, .nut, .eng] L) (h : Only L u0 s) :
    Only L u0 (ingestOne n k s) := by
  unfold ingestOne
  repeat' first
    | with_reducible exact h
    | with_reducible assumption
    | extract_lets
    | with_reducible refine keep_changeNow _ _ (covers_sub hL (by decide)) ?_
    | with_reducible refine keep_closeNow _ (covers_sub hL (by decide)) ?_
    | with_reducible refine keep_openNow _ _ (covers_sub hL (by decide)) ?_
    | with_reducible refine keep_switchNow _ _ (covers_sub hL (by decide)) ?_
    | split
    | with_reducible refine only_ite (fun _ => ?_) (fun _ => ?_)
    | dsimp -zeta +zetaDelta only

theorem keep_takeToken {L : List Area} {u0 : State} (n : Nat) (k : Nat) (t : Nat) {s : State} (hL : Covers [.eng] L) (h : Only L u0 s) :
    Only L u0 (takeToken n k t s) := by
  unfold takeToken
  repeat' first
    | with_reducible exact h
    | with_reducible assumption
    | extract_lets
    | with_reducible refine keep_setEng _ (covers_sub hL (by decide)) ?_
    | with_reducible refine keep_setSess _ _ (covers_sub hL (by decide)) ?_
    | split
    | with_reducible refine only_ite (fun _ => ?_) (fun _ => ?_)
    | dsimp -zeta +zetaDelta only

theorem keep_beginFrame {L : List Area} {u0 : State} (n : Nat) (skipped : Bool) {s : State} (hL : Covers [.eng] L) (h : Only L u0 s) :
    Only L u0 (beginFrame n skipped s) := by
  unfold beginFrame
  repeat' first
    | with_reducible exact h
    | with_reducible assumption
    | extract_lets
    | with_reducible refine keep_setEng _ (covers_sub hL (by decide)) ?_
    | split
    | with_reducible refine only_ite (fun _ => ?_) (fun _ => ?_)
    | dsimp -zeta +zetaDelta only

theorem keep_reloadCode {L : List Area} {u0 : State} {s : State} (hL : Covers [.eng] L) (h : Only L u0 s) :
    Only L u0 (reloadCode s) := by
  unfold reloadCode
  repeat' first
    | with_reducible exact h
    | with_reducible assumption
    | extract_lets
    | with_reducible refine keep_updTile _ _ (covers_sub hL (by decide)) ?_
    | with_reducible refine only_forEach _ _ (fun _ _ _ => ?_) ?_
    | split
    | with_reducible refine only_ite (fun _ => ?_) (fun _ => ?_)
    | dsimp -zeta +zetaDelta only

theorem keep_boundaryTiles {L : List Area} {u0 : State} (n : Nat) {s : State} (hL : Covers [.nums, .pow, .ev, .nut, .eng, .img, .mem, .bar, .free] L) (h : Only L u0 s) :
    Only L u0 (boundaryTiles n s) := by
  unfold boundaryTiles
  repeat' first
    | with_reducible exact h
    | with_reducible assumption
    | extract_lets
    | with_reducible refine keep_failTile _ _ (covers_sub hL (by decide)) ?_
    | with_reducible refine keep_reloadCode (covers_sub hL (by decide)) ?_
    | with_reducible refine keep_setEng _ (covers_sub hL (by decide)) ?_
    | with_reducible refine only_forAll _ _ (fun _ _ _ => ?_) ?_
    | split
    | with_reducible refine only_ite (fun _ => ?_) (fun _ => ?_)
    | dsimp -zeta +zetaDelta only

theorem keep_ckptStep {L : List Area} {u0 : State} (n : Nat) {s : State} (hL : Covers [.eng] L) (h : Only L u0 s) :
    Only L u0 (ckptStep n s) := by
  unfold ckptStep
  repeat' first
    | with_reducible exact h
    | with_reducible assumption
    | extract_lets
    | with_reducible refine keep_updTile _ _ (covers_sub hL (by decide)) ?_
    | with_reducible refine only_forEach _ _ (fun _ _ _ => ?_) ?_
    | split
    | with_reducible refine only_ite (fun _ => ?_) (fun _ => ?_)

theorem keep_endFrame {L : List Area} {u0 : State} (n : Nat) {s : State} (hL : Covers [.nums, .pow, .acc, .part, .ev, .nut, .port, .eng, .img, .ani, .mem, .bar, .free] L) (h : Only L u0 s) :
    Only L u0 (endFrame n s) := by
  unfold endFrame
  repeat' first
    | with_reducible exact h
    | with_reducible assumption
    | extract_lets
    | with_reducible refine keep_beginCkpt _ (covers_sub hL (by decide)) ?_
    | with_reducible refine keep_boundaryTiles _ (covers_sub hL (by decide)) ?_
    | with_reducible refine keep_ckptStep _ (covers_sub hL (by decide)) ?_
    | with_reducible refine keep_mapSess _ (covers_sub hL (by decide)) ?_
    | with_reducible refine keep_restTiles (covers_sub hL (by decide)) ?_
    | with_reducible refine keep_setEng _ (covers_sub hL (by decide)) ?_
    | with_reducible refine keep_stopLaunch (covers_sub hL (by decide)) ?_
    | with_reducible refine keep_stopSafe (covers_sub hL (by decide)) ?_
    | with_reducible refine keep_writeBlock _ _ (covers_sub hL (by decide)) ?_
    | split
    | with_reducible refine only_ite (fun _ => ?_) (fun _ => ?_)
    | dsimp -zeta +zetaDelta only

theorem keep_skipFrame {L : List Area} {u0 : State} (n : Nat) {s : State} (hL : Covers [.nums, .pow, .acc, .part, .ev, .nut, .port, .eng, .img, .ani, .mem, .bar, .free] L) (h : Only L u0 s) :
    Only L u0 (skipFrame n s) := by
  unfold skipFrame
  repeat' first
    | with_reducible exact h
    | with_reducible assumption
    | extract_lets
    | with_reducible refine keep_beginFrame _ _ (covers_sub hL (by decide)) ?_
    | with_reducible refine keep_endFrame _ (covers_sub hL (by decide)) ?_
    | with_reducible refine keep_incMax _ _ _ (covers_sub hL (by decide)) ?_
    | with_reducible refine keep_promoteEarly (covers_sub hL (by decide)) ?_
    | with_reducible refine keep_setEng _ (covers_sub hL (by decide)) ?_
    | with_reducible refine keep_signalCell _ _ (covers_sub hL (by decide)) ?_
    | dsimp -zeta +zetaDelta only

theorem keep_runFrame {L : List Area} {u0 : State} (n : Nat) {s : State} (hL : Covers [.nums, .acc, .ev, .nut, .rep, .eng, .mem, .bar] L) (h : Only L u0 s) :
    Only L u0 (runFrame n s) := by
  unfold runFrame
  repeat' first
    | with_reducible exact h
    | with_reducible assumption
    | extract_lets
    | with_reducible refine keep_beginFrame _ _ (covers_sub hL (by decide)) ?_
    | with_reducible refine keep_ingestAll (covers_sub hL (by decide)) ?_
    | with_reducible refine keep_ingestOne _ _ (covers_sub hL (by decide)) ?_
    | with_reducible refine keep_promoteEarly (covers_sub hL (by decide)) ?_
    | with_reducible refine keep_runTo _ (covers_sub hL (by decide)) ?_
    | with_reducible refine keep_setEng _ (covers_sub hL (by decide)) ?_
    | with_reducible refine keep_signalCell _ _ (covers_sub hL (by decide)) ?_
    | with_reducible refine keep_startTiles _ (covers_sub hL (by decide)) ?_
    | with_reducible refine keep_takeToken _ _ _ (covers_sub hL (by decide)) ?_
    | with_reducible refine only_forEach _ _ (fun _ _ _ => ?_) ?_
    | split
    | dsimp -zeta +zetaDelta only

theorem keep_emitIdle {L : List Area} {u0 : State} (n : Nat) (k : Nat) {s : State} (hL : Covers [.eng] L) (h : Only L u0 s) :
    Only L u0 (emitIdle n k s) := by
  unfold emitIdle
  repeat' first
    | with_reducible exact h
    | with_reducible assumption
    | extract_lets
    | with_reducible refine keep_setEng _ (covers_sub hL (by decide)) ?_
    | split
    | with_reducible refine only_ite (fun _ => ?_) (fun _ => ?_)
    | dsimp -zeta +zetaDelta only

theorem keep_notePresent {L : List Area} {u0 : State} {s : State} (hL : Covers [.ani] L) (h : Only L u0 s) :
    Only L u0 (notePresent s) := by
  unfold notePresent
  repeat' first
    | with_reducible exact h
    | with_reducible assumption
    | extract_lets
    | with_reducible refine only_foldl _ _ (fun _ _ _ => ?_) ?_
    | with_reducible refine keep_mk_ani _ (covers_sub hL (by decide)) ?_
    | exact only_upd (by assumption) (fun a ha => by cases a <;> first | exact absurd (hL _ (by decide)) ha | rfl)
    | dsimp -zeta +zetaDelta only

theorem keep_atP0Emit {L : List Area} {u0 : State} {s : State} (hL : Covers [.nums, .clk, .ev, .nut, .rep, .eng, .mem, .bar] L) (h : Only L u0 s) :
    Only L u0 (atP0Emit s) := by
  unfold atP0Emit
  repeat' first
    | with_reducible exact h
    | with_reducible assumption
    | extract_lets
    | with_reducible refine keep_putDerived _ _ (covers_sub hL (by decide)) ?_
    | with_reducible refine keep_reachCount _ (covers_sub hL (by decide)) ?_
    | with_reducible refine keep_runTo _ (covers_sub hL (by decide)) ?_
    | dsimp -zeta +zetaDelta only

theorem keep_atMainEmit {L : List Area} {u0 : State} {s : State} (hL : Covers [.nums, .clk, .ev, .nut, .rep, .eng, .mem, .bar] L) (h : Only L u0 s) :
    Only L u0 (atMainEmit s) := by
  unfold atMainEmit
  repeat' first
    | with_reducible exact h
    | with_reducible assumption
    | extract_lets
    | with_reducible refine keep_putDerived _ _ (covers_sub hL (by decide)) ?_
    | with_reducible refine keep_reachCount _ (covers_sub hL (by decide)) ?_
    | with_reducible refine keep_runTo _ (covers_sub hL (by decide)) ?_
    | dsimp -zeta +zetaDelta only

theorem keep_publish {L : List Area} {u0 : State} (n : Nat) (k : Nat) {s : State} (hL : Covers [.ev, .nut, .eng] L) (h : Only L u0 s) :
    Only L u0 (publish n k s) := by
  unfold publish
  repeat' first
    | with_reducible exact h
    | with_reducible assumption
    | extract_lets
    | with_reducible refine keep_raiseMain _ _ _ (covers_sub hL (by decide)) ?_
    | with_reducible refine keep_ringTrigger _ (covers_sub hL (by decide)) ?_
    | with_reducible refine keep_setEng _ (covers_sub hL (by decide)) ?_
    | with_reducible refine keep_setSess _ _ (covers_sub hL (by decide)) ?_
    | split
    | with_reducible refine only_ite (fun _ => ?_) (fun _ => ?_)
    | dsimp -zeta +zetaDelta only

theorem keep_dropHeaders {L : List Area} {u0 : State} (lostNew : Bool) (lostOld : Bool) {s : State} (hL : Covers [.eng] L) (h : Only L u0 s) :
    Only L u0 (dropHeaders lostNew lostOld s) := by
  unfold dropHeaders
  repeat' first
    | with_reducible exact h
    | with_reducible assumption
    | extract_lets
    | with_reducible refine keep_setEng _ (covers_sub hL (by decide)) ?_
    | split
    | with_reducible refine only_ite (fun _ => ?_) (fun _ => ?_)
    | dsimp -zeta +zetaDelta only

theorem keep_tested {L : List Area} {u0 : State} (t : Fin 68) (st : TileState) {s : State} (hL : Covers [.nums, .pow, .ev, .nut, .eng, .img, .mem, .bar, .free] L) (h : Only L u0 s) :
    Only L u0 (tested t st s) := by
  unfold tested
  repeat' first
    | with_reducible exact h
    | with_reducible assumption
    | extract_lets
    | with_reducible refine keep_checkDomains (covers_sub hL (by decide)) ?_
    | with_reducible refine keep_coldLoad _ _ (covers_sub hL (by decide)) ?_
    | with_reducible refine keep_imageCtrl _ (covers_sub hL (by decide)) ?_
    | with_reducible refine keep_recompute _ (covers_sub hL (by decide)) ?_
    | with_reducible refine keep_setImg _ (covers_sub hL (by decide)) ?_
    | with_reducible refine keep_updTile _ _ (covers_sub hL (by decide)) ?_
    | split
    | with_reducible refine only_ite (fun _ => ?_) (fun _ => ?_)
    | dsimp -zeta +zetaDelta only

theorem keep_hitSession {L : List Area} {u0 : State} (n : Nat) (k : Nat) {s : State} (hL : Covers [.eng] L) (h : Only L u0 s) :
    Only L u0 (hitSession n k s) := by
  unfold hitSession
  repeat' first
    | with_reducible exact h
    | with_reducible assumption
    | extract_lets
    | with_reducible refine keep_updSess _ _ (covers_sub hL (by decide)) ?_

theorem keep_markBeat {L : List Area} {u0 : State} (t : Fin 68) {s : State} (hL : Covers [.eng] L) (h : Only L u0 s) :
    Only L u0 (markBeat t s) := by
  unfold markBeat
  repeat' first
    | with_reducible exact h
    | with_reducible assumption
    | extract_lets
    | with_reducible refine keep_setEng _ (covers_sub hL (by decide)) ?_
    | with_reducible refine keep_updTile _ _ (covers_sub hL (by decide)) ?_
    | with_reducible refine only_foldl _ _ (fun _ _ _ => ?_) ?_
    | split
    | with_reducible refine only_ite (fun _ => ?_) (fun _ => ?_)

theorem keep_beatCheck {L : List Area} {u0 : State} (t : Fin 68) {s : State} (hL : Covers [.nums, .pow, .ev, .nut, .eng, .img, .free] L) (h : Only L u0 s) :
    Only L u0 (beatCheck t s) := by
  unfold beatCheck
  repeat' first
    | with_reducible exact h
    | with_reducible assumption
    | extract_lets
    | with_reducible refine keep_domainLost _ (covers_sub hL (by decide)) ?_
    | split
    | with_reducible refine only_ite (fun _ => ?_) (fun _ => ?_)
    | dsimp -zeta +zetaDelta only

theorem keep_markError {L : List Area} {u0 : State} (t : Fin 68) (offset : Nat) (beat : Bool) (bundle : Bool) {s : State} (hL : Covers [.eng] L) (h : Only L u0 s) :
    Only L u0 (markError t offset beat bundle s) := by
  unfold markError
  repeat' first
    | with_reducible exact h
    | with_reducible assumption
    | extract_lets
    | with_reducible refine keep_markBeat _ (covers_sub hL (by decide)) ?_
    | with_reducible refine keep_updTile _ _ (covers_sub hL (by decide)) ?_
    | split
    | with_reducible refine only_ite (fun _ => ?_) (fun _ => ?_)
    | dsimp -zeta +zetaDelta only

end Sys2Proof.Laws
end

