-- ==== Sys2Proof/Laws/FrameReplay.lean ====
section
/-! SUPPORT. What the operations of Machine/Replay.lean may change: an operation keeps a frame that allows the parts it lists. -/
namespace Sys2Proof.Laws

open Sys2Proof.Machine

theorem keep_reloadForce {L : List Area} {u0 : State} {s : State} (hL : Covers [.nums, .ev, .nut, .eng, .img, .mem, .bar] L) (h : Only L u0 s) :
    Only L u0 (reloadForce s) := by
  unfold reloadForce
  repeat' first
    | with_reducible exact h
    | with_reducible assumption
    | extract_lets
    | with_reducible refine keep_coldLoad _ _ (covers_sub hL (by decide)) ?_
    | with_reducible refine keep_gateUnmapped _ (covers_sub hL (by decide)) ?_
    | with_reducible refine keep_setEng _ (covers_sub hL (by decide)) ?_
    | with_reducible refine keep_setImg _ (covers_sub hL (by decide)) ?_
    | split
    | dsimp -zeta +zetaDelta only

theorem keep_endReplay {L : List Area} {u0 : State} (r : ReplayState) {s : State} (hL : Covers [.nums, .ev, .nut, .eng, .img, .mem, .bar] L) (h : Only L u0 s) :
    Only L u0 (endReplay r s) := by
  unfold endReplay
  repeat' first
    | with_reducible exact h
    | with_reducible assumption
    | extract_lets
    | with_reducible refine keep_reloadForce (covers_sub hL (by decide)) ?_
    | with_reducible refine keep_resumeRing (covers_sub hL (by decide)) ?_
    | with_reducible refine keep_setEng _ (covers_sub hL (by decide)) ?_
    | split
    | with_reducible refine only_ite (fun _ => ?_) (fun _ => ?_)
    | dsimp -zeta +zetaDelta only

theorem keep_refuseReplay {L : List Area} {u0 : State} (code : Nat) {s : State} (hL : Covers [.nums, .eng] L) (h : Only L u0 s) :
    Only L u0 (refuseReplay code s) := by
  unfold refuseReplay
  repeat' first
    | with_reducible exact h
    | with_reducible assumption
    | extract_lets
    | with_reducible refine keep_setEng _ (covers_sub hL (by decide)) ?_
    | with_reducible refine keep_setN _ _ (covers_sub hL (by decide)) ?_

theorem keep_replayImage {L : List Area} {u0 : State} (i : Nat) {s : State} (hL : Covers [.nums, .ev, .nut, .eng, .img, .mem, .bar] L) (h : Only L u0 s) :
    Only L u0 (replayImage i s) := by
  unfold replayImage
  repeat' first
    | with_reducible exact h
    | with_reducible assumption
    | extract_lets
    | with_reducible refine keep_coldLoad _ _ (covers_sub hL (by decide)) ?_
    | with_reducible refine keep_setEng _ (covers_sub hL (by decide)) ?_
    | with_reducible refine keep_setImg _ (covers_sub hL (by decide)) ?_
    | split
    | dsimp -zeta +zetaDelta only

theorem keep_startReplay {L : List Area} {u0 : State} (x : Export) {s : State} (hL : Covers [.nums, .ev, .nut, .eng, .img, .mem, .bar] L) (h : Only L u0 s) :
    Only L u0 (startReplay x s) := by
  unfold startReplay
  repeat' first
    | with_reducible exact h
    | with_reducible assumption
    | extract_lets
    | with_reducible refine keep_freezeRing (covers_sub hL (by decide)) ?_
    | with_reducible refine keep_replayImage _ (covers_sub hL (by decide)) ?_
    | with_reducible refine keep_seqCancel _ (covers_sub hL (by decide)) ?_
    | with_reducible refine keep_setEng _ (covers_sub hL (by decide)) ?_
    | with_reducible refine keep_setN _ _ (covers_sub hL (by decide)) ?_
    | with_reducible refine only_foldl _ _ (fun _ _ _ => ?_) ?_
    | split
    | dsimp -zeta +zetaDelta only

theorem keep_replayCtrlEffect {L : List Area} {u0 : State} (v : Nat) {s : State} (hL : Covers [.nums, .ev, .nut, .eng, .img, .mem, .bar] L) (h : Only L u0 s) :
    Only L u0 (replayCtrlEffect v s) := by
  unfold replayCtrlEffect
  repeat' first
    | with_reducible exact h
    | with_reducible assumption
    | extract_lets
    | with_reducible refine keep_endReplay _ (covers_sub hL (by decide)) ?_
    | with_reducible refine keep_refuseReplay _ (covers_sub hL (by decide)) ?_
    | with_reducible refine keep_setN _ _ (covers_sub hL (by decide)) ?_
    | with_reducible refine keep_startReplay _ (covers_sub hL (by decide)) ?_
    | split
    | with_reducible refine only_ite (fun _ => ?_) (fun _ => ?_)
    | dsimp -zeta +zetaDelta only

theorem keep_replayInputEffect {L : List Area} {u0 : State} (bs : List Byte) {s : State} (hL : Covers [.eng] L) (h : Only L u0 s) :
    Only L u0 (replayInputEffect bs s) := by
  unfold replayInputEffect
  repeat' first
    | with_reducible exact h
    | with_reducible assumption
    | extract_lets
    | with_reducible refine keep_setEng _ (covers_sub hL (by decide)) ?_
    | split
    | with_reducible refine only_ite (fun _ => ?_) (fun _ => ?_)
    | dsimp -zeta +zetaDelta only

theorem keep_dropReplay {L : List Area} {u0 : State} {s : State} (hL : Covers [.eng, .img] L) (h : Only L u0 s) :
    Only L u0 (dropReplay s) := by
  unfold dropReplay
  repeat' first
    | with_reducible exact h
    | with_reducible assumption
    | extract_lets
    | with_reducible refine keep_setEng _ (covers_sub hL (by decide)) ?_
    | with_reducible refine keep_setImg _ (covers_sub hL (by decide)) ?_
    | split
    | with_reducible refine only_ite (fun _ => ?_) (fun _ => ?_)

theorem keep_replayDesc {L : List Area} {u0 : State} (n : Nat) (d : Desc) {s : State} (hL : Covers [.eng] L) (h : Only L u0 s) :
    Only L u0 (replayDesc n d s) := by
  unfold replayDesc
  repeat' first
    | with_reducible exact h
    | with_reducible assumption
    | extract_lets
    | with_reducible refine keep_seatModel _ (covers_sub hL (by decide)) ?_
    | with_reducible refine keep_setSess _ _ (covers_sub hL (by decide)) ?_
    | with_reducible refine keep_updSess _ _ (covers_sub hL (by decide)) ?_
    | split
    | with_reducible refine only_ite (fun _ => ?_) (fun _ => ?_)
    | dsimp -zeta +zetaDelta only

theorem keep_replaySwitch {L : List Area} {u0 : State} (n : Nat) (model : Nat) {s : State} (hL : Covers [.eng] L) (h : Only L u0 s) :
    Only L u0 (replaySwitch n model s) := by
  unfold replaySwitch
  repeat' first
    | with_reducible exact h
    | with_reducible assumption
    | extract_lets
    | with_reducible refine keep_seatModel _ (covers_sub hL (by decide)) ?_
    | with_reducible refine keep_updSess _ _ (covers_sub hL (by decide)) ?_
    | split
    | with_reducible refine only_ite (fun _ => ?_) (fun _ => ?_)
    | dsimp -zeta +zetaDelta only

theorem keep_replayRestore {L : List Area} {u0 : State} (c : Ctrl) {s : State} (hL : Covers [.eng] L) (h : Only L u0 s) :
    Only L u0 (replayRestore c s) := by
  unfold replayRestore
  repeat' first
    | with_reducible exact h
    | with_reducible assumption
    | extract_lets
    | with_reducible refine keep_updSess _ _ (covers_sub hL (by decide)) ?_
    | split
    | with_reducible refine only_ite (fun _ => ?_) (fun _ => ?_)
    | dsimp -zeta +zetaDelta only

theorem keep_replayRestoreAll {L : List Area} {u0 : State} (c : Ctrl) {s : State} (hL : Covers [.eng] L) (h : Only L u0 s) :
    Only L u0 (replayRestoreAll c s) := by
  unfold replayRestoreAll
  repeat' first
    | with_reducible exact h
    | with_reducible assumption
    | extract_lets
    | with_reducible refine keep_replayRestore _ (covers_sub hL (by decide)) ?_
    | with_reducible refine keep_seatModel _ (covers_sub hL (by decide)) ?_
    | with_reducible refine keep_setSess _ _ (covers_sub hL (by decide)) ?_
    | with_reducible refine keep_updSess _ _ (covers_sub hL (by decide)) ?_
    | split
    | with_reducible refine only_ite (fun _ => ?_) (fun _ => ?_)
    | dsimp -zeta +zetaDelta only

theorem keep_replayRestores {L : List Area} {u0 : State} (cs : List Ctrl) {s : State} (hL : Covers [.eng] L) (h : Only L u0 s) :
    Only L u0 (replayRestores cs s) := by
  unfold replayRestores
  repeat' first
    | with_reducible exact h
    | with_reducible assumption
    | extract_lets
    | with_reducible refine keep_replayRestore _ (covers_sub hL (by decide)) ?_
    | with_reducible refine keep_replayRestoreAll _ (covers_sub hL (by decide)) ?_
    | with_reducible refine keep_updSess _ _ (covers_sub hL (by decide)) ?_
    | with_reducible refine only_forEach _ _ (fun _ _ _ => ?_) ?_
    | split
    | with_reducible refine only_ite (fun _ => ?_) (fun _ => ?_)
    | dsimp -zeta +zetaDelta only

theorem keep_replaySwitchImage {L : List Area} {u0 : State} (dg : List Byte) {s : State} (hL : Covers [.nums, .ev, .nut, .eng, .img, .mem, .bar] L) (h : Only L u0 s) :
    Only L u0 (replaySwitchImage dg s) := by
  unfold replaySwitchImage
  repeat' first
    | with_reducible exact h
    | with_reducible assumption
    | extract_lets
    | with_reducible refine keep_loadBundles _ (covers_sub hL (by decide)) ?_
    | with_reducible refine keep_replayImage _ (covers_sub hL (by decide)) ?_
    | with_reducible refine keep_setImg _ (covers_sub hL (by decide)) ?_
    | with_reducible refine keep_swapHalves (covers_sub hL (by decide)) ?_
    | split
    | with_reducible refine only_ite (fun _ => ?_) (fun _ => ?_)

theorem keep_applyCtrl {L : List Area} {u0 : State} (c : Ctrl) {s : State} (hL : Covers [.eng] L) (h : Only L u0 s) :
    Only L u0 (applyCtrl c s) := by
  unfold applyCtrl
  repeat' first
    | with_reducible exact h
    | with_reducible assumption
    | extract_lets
    | with_reducible refine keep_replayDesc _ _ (covers_sub hL (by decide)) ?_
    | with_reducible refine keep_replaySwitch _ _ (covers_sub hL (by decide)) ?_
    | with_reducible refine keep_updSess _ _ (covers_sub hL (by decide)) ?_
    | split

theorem keep_replayControls {L : List Area} {u0 : State} (cs : List Ctrl) {s : State} (hL : Covers [.nums, .ev, .nut, .eng, .img, .mem, .bar] L) (h : Only L u0 s) :
    Only L u0 (replayControls cs s) := by
  unfold replayControls
  repeat' first
    | with_reducible exact h
    | with_reducible assumption
    | extract_lets
    | with_reducible refine keep_applyCtrl _ (covers_sub hL (by decide)) ?_
    | with_reducible refine keep_replayRestores _ (covers_sub hL (by decide)) ?_
    | with_reducible refine keep_replaySwitchImage _ (covers_sub hL (by decide)) ?_
    | with_reducible refine only_forEach _ _ (fun _ _ _ => ?_) ?_
    | split
    | dsimp -zeta +zetaDelta only

theorem keep_replayToken {L : List Area} {u0 : State} (b : RingBlock) (n : Nat) (i : Nat) {s : State} (hL : Covers [.eng] L) (h : Only L u0 s) :
    Only L u0 (replayToken b n i s) := by
  unfold replayToken
  repeat' first
    | with_reducible exact h
    | with_reducible assumption
    | extract_lets
    | with_reducible refine keep_setEng _ (covers_sub hL (by decide)) ?_
    | with_reducible refine keep_setSess _ _ (covers_sub hL (by decide)) ?_
    | split
    | with_reducible refine only_ite (fun _ => ?_) (fun _ => ?_)
    | dsimp -zeta +zetaDelta only

theorem keep_withhold {L : List Area} {u0 : State} (f : Nat) (n : Nat) (stops : Bool) (before : Option Record) {s : State} (hL : Covers [.eng] L) (h : Only L u0 s) :
    Only L u0 (withhold f n stops before s) := by
  unfold withhold
  repeat' first
    | with_reducible exact h
    | with_reducible assumption
    | extract_lets
    | with_reducible refine keep_setEng _ (covers_sub hL (by decide)) ?_
    | with_reducible refine keep_setSess _ _ (covers_sub hL (by decide)) ?_
    | split
    | with_reducible refine only_ite (fun _ => ?_) (fun _ => ?_)
    | dsimp -zeta +zetaDelta only

set_option tactic.hygienic false in
theorem keep_replayPass {L : List Area} {u0 : State} (f : Nat) (j : Nat) {s : State} (hL : Covers [.nums, .acc, .ev, .nut, .rep, .eng, .mem, .bar, .free] L) (h : Only L u0 s) :
    Only L u0 (replayPass f j s) := by
  unfold replayPass
  repeat' first
    | with_reducible exact h
    | with_reducible assumption
    | extract_lets
    | with_reducible refine keep_emitOne _ _ _ (covers_sub hL (by decide)) ?_
    | with_reducible refine keep_ingestLanes _ (covers_sub hL (by decide)) ?_
    | with_reducible refine keep_putDerived _ _ (covers_sub hL (by decide)) ?_
    | with_reducible refine keep_restTiles (covers_sub hL (by decide)) ?_
    | with_reducible refine keep_runTo _ (covers_sub hL (by decide)) ?_
    | with_reducible refine keep_setEng _ (covers_sub hL (by decide)) ?_
    | with_reducible refine keep_startTiles _ (covers_sub hL (by decide)) ?_
    | with_reducible refine only_forEach _ _ (fun _ _ _ => ?_) ?_
    | split
    | with_reducible refine only_ite (fun _ => ?_) (fun _ => ?_)
    | dsimp -zeta +zetaDelta only
    | unfold emit

theorem keep_replayRun {L : List Area} {u0 : State} (b : RingBlock) (rest : List RingBlock) {s : State} (hL : Covers [.nums, .acc, .ev, .nut, .rep, .eng, .mem, .bar, .free] L) (h : Only L u0 s) :
    Only L u0 (replayRun b rest s) := by
  unfold replayRun
  repeat' first
    | with_reducible exact h
    | with_reducible assumption
    | extract_lets
    | with_reducible refine keep_replayPass _ _ (covers_sub hL (by decide)) ?_
    | with_reducible refine keep_replayToken _ _ _ (covers_sub hL (by decide)) ?_
    | with_reducible refine keep_setEng _ (covers_sub hL (by decide)) ?_
    | with_reducible refine keep_setSess _ _ (covers_sub hL (by decide)) ?_
    | with_reducible refine keep_withhold _ _ _ _ (covers_sub hL (by decide)) ?_
    | with_reducible refine only_forEach _ _ (fun _ _ _ => ?_) ?_
    | split
    | with_reducible refine only_ite (fun _ => ?_) (fun _ => ?_)
    | dsimp -zeta +zetaDelta only

theorem keep_replayFrame {L : List Area} {u0 : State} (b : RingBlock) (rest : List RingBlock) {s : State} (hL : Covers [.nums, .acc, .ev, .nut, .rep, .eng, .img, .mem, .bar, .free] L) (h : Only L u0 s) :
    Only L u0 (replayFrame b rest s) := by
  unfold replayFrame
  repeat' first
    | with_reducible exact h
    | with_reducible assumption
    | extract_lets
    | with_reducible refine keep_replayControls _ (covers_sub hL (by decide)) ?_
    | with_reducible refine keep_replayRun _ _ (covers_sub hL (by decide)) ?_
    | with_reducible refine keep_setEng _ (covers_sub hL (by decide)) ?_
    | split
    | with_reducible refine only_ite (fun _ => ?_) (fun _ => ?_)
    | dsimp -zeta +zetaDelta only

theorem keep_replayCkpt {L : List Area} {u0 : State} (k : Ckpt) {s : State} (hL : Covers [.eng] L) (h : Only L u0 s) :
    Only L u0 (replayCkpt k s) := by
  unfold replayCkpt
  repeat' first
    | with_reducible exact h
    | with_reducible assumption
    | extract_lets
    | with_reducible refine keep_mapSess _ (covers_sub hL (by decide)) ?_
    | with_reducible refine keep_setEng _ (covers_sub hL (by decide)) ?_
    | split
    | with_reducible refine only_ite (fun _ => ?_) (fun _ => ?_)

theorem keep_leaveReplay {L : List Area} {u0 : State} {s : State} (hL : Covers [.nums, .ev, .nut, .eng, .img, .mem, .bar] L) (h : Only L u0 s) :
    Only L u0 (leaveReplay s) := by
  unfold leaveReplay
  repeat' first
    | with_reducible exact h
    | with_reducible assumption
    | extract_lets
    | with_reducible refine keep_endReplay _ (covers_sub hL (by decide)) ?_
    | with_reducible refine keep_setEng _ (covers_sub hL (by decide)) ?_
    | split
    | with_reducible refine only_ite (fun _ => ?_) (fun _ => ?_)

theorem keep_missLaunch {L : List Area} {u0 : State} {s : State} (hL : Covers [.nums, .ev, .nut, .eng] L) (h : Only L u0 s) :
    Only L u0 (missLaunch s) := by
  unfold missLaunch
  repeat' first
    | with_reducible exact h
    | with_reducible assumption
    | extract_lets
    | with_reducible refine keep_raiseMain _ _ _ (covers_sub hL (by decide)) ?_
    | with_reducible refine keep_setEng _ (covers_sub hL (by decide)) ?_
    | with_reducible refine keep_setN _ _ (covers_sub hL (by decide)) ?_

theorem keep_countSkipped {L : List Area} {u0 : State} (j : Nat) {s : State} (hL : Covers [.nums, .eng] L) (h : Only L u0 s) :
    Only L u0 (countSkipped j s) := by
  unfold countSkipped
  repeat' first
    | with_reducible exact h
    | with_reducible assumption
    | extract_lets
    | with_reducible refine keep_incMax _ _ _ (covers_sub hL (by decide)) ?_
    | with_reducible refine keep_setEng _ (covers_sub hL (by decide)) ?_
    | with_reducible refine keep_writeBlock _ _ (covers_sub hL (by decide)) ?_
    | with_reducible refine only_forEach _ _ (fun _ _ _ => ?_) ?_
    | split
    | with_reducible refine only_ite (fun _ => ?_) (fun _ => ?_)
    | dsimp -zeta +zetaDelta only

theorem keep_clearLaunch {L : List Area} {u0 : State} {s : State} (hL : Covers [.nums, .eng] L) (h : Only L u0 s) :
    Only L u0 (clearLaunch s) := by
  unfold clearLaunch
  repeat' first
    | with_reducible exact h
    | with_reducible assumption
    | extract_lets
    | with_reducible refine keep_setEng _ (covers_sub hL (by decide)) ?_
    | with_reducible refine keep_setN _ _ (covers_sub hL (by decide)) ?_

theorem keep_readyRejoin {L : List Area} {u0 : State} (j : Nat) {s : State} (hL : Covers [.nums, .ev, .nut, .eng, .img, .mem, .bar] L) (h : Only L u0 s) :
    Only L u0 (readyRejoin j s) := by
  unfold readyRejoin
  repeat' first
    | with_reducible exact h
    | with_reducible assumption
    | extract_lets
    | with_reducible refine keep_countSkipped _ (covers_sub hL (by decide)) ?_
    | with_reducible refine keep_leaveReplay (covers_sub hL (by decide)) ?_
    | with_reducible refine keep_promoteEarly (covers_sub hL (by decide)) ?_
    | with_reducible refine keep_reapplyOne _ (covers_sub hL (by decide)) ?_
    | with_reducible refine keep_setEng _ (covers_sub hL (by decide)) ?_
    | with_reducible refine keep_startRings (covers_sub hL (by decide)) ?_
    | with_reducible refine only_forEach _ _ (fun _ _ _ => ?_) ?_
    | dsimp -zeta +zetaDelta only

end Sys2Proof.Laws
end

