-- ==== Sys2Proof/Laws/FrameTime.lean ====
section
/-! SUPPORT. What the operations of Machine/Time.lean may change: an operation keeps a frame that allows the parts it lists. -/
namespace Sys2Proof.Laws

open Sys2Proof.Machine

theorem keep_setClk {L : List Area} {u0 : State} (f : Clock → Clock) {s : State} (hL : Covers [.clk] L) (h : Only L u0 s) :
    Only L u0 (setClk f s) := by
  unfold setClk
  repeat' first
    | with_reducible exact h
    | with_reducible assumption
    | extract_lets
    | with_reducible refine keep_mk_clk _ (covers_sub hL (by decide)) ?_
    | exact only_upd (by assumption) (fun a ha => by cases a <;> first | exact absurd (hL _ (by decide)) ha | rfl)

theorem keep_rebase {L : List Area} {u0 : State} {s : State} (hL : Covers [.eng] L) (h : Only L u0 s) :
    Only L u0 (rebase s) := by
  unfold rebase
  repeat' first
    | with_reducible exact h
    | with_reducible assumption
    | extract_lets
    | with_reducible refine keep_mapSess _ (covers_sub hL (by decide)) ?_
    | with_reducible refine keep_setEng _ (covers_sub hL (by decide)) ?_
    | dsimp -zeta +zetaDelta only

theorem keep_dropBlocks {L : List Area} {u0 : State} {s : State} (hL : Covers [.rep] L) (h : Only L u0 s) :
    Only L u0 (dropBlocks s) := by
  unfold dropBlocks
  repeat' first
    | with_reducible exact h
    | with_reducible assumption
    | extract_lets
    | with_reducible refine keep_mk_rep _ (covers_sub hL (by decide)) ?_
    | exact only_upd (by assumption) (fun a ha => by cases a <;> first | exact absurd (hL _ (by decide)) ha | rfl)

theorem keep_stepGates {L : List Area} {u0 : State} (p : Fin 2) (old : Count) (new : Count) {s : State} (hL : Covers [.port] L) (h : Only L u0 s) :
    Only L u0 (stepGates p old new s) := by
  unfold stepGates
  repeat' first
    | with_reducible exact h
    | with_reducible assumption
    | extract_lets
    | with_reducible refine keep_updHost _ _ (covers_sub hL (by decide)) ?_
    | split
    | with_reducible refine only_ite (fun _ => ?_) (fun _ => ?_)

set_option tactic.hygienic false in
theorem keep_stepCount {L : List Area} {u0 : State} (base : Nat) {s : State} (hL : Covers [.clk, .ev, .nut, .rep, .port, .eng] L) (h : Only L u0 s) :
    Only L u0 (stepCount base s) := by
  unfold stepCount
  repeat' first
    | with_reducible exact h
    | with_reducible assumption
    | extract_lets
    | with_reducible refine keep_dropBlocks (covers_sub hL (by decide)) ?_
    | with_reducible refine keep_raiseMain _ _ _ (covers_sub hL (by decide)) ?_
    | with_reducible refine keep_rebase (covers_sub hL (by decide)) ?_
    | with_reducible refine keep_setClk _ (covers_sub hL (by decide)) ?_
    | with_reducible refine keep_stepGates _ _ _ (covers_sub hL (by decide)) ?_
    | with_reducible refine only_forAll _ _ (fun _ _ _ => ?_) ?_
    | dsimp -zeta +zetaDelta only
    | unfold gates

theorem keep_judge {L : List Area} {u0 : State} (off : Int) {s : State} (hL : Covers [.clk, .ev, .nut] L) (h : Only L u0 s) :
    Only L u0 (judge off s) := by
  unfold judge
  repeat' first
    | with_reducible exact h
    | with_reducible assumption
    | extract_lets
    | with_reducible refine keep_raiseMain _ _ _ (covers_sub hL (by decide)) ?_
    | with_reducible refine keep_setClk _ (covers_sub hL (by decide)) ?_
    | split
    | with_reducible refine only_ite (fun _ => ?_) (fun _ => ?_)
    | dsimp -zeta +zetaDelta only

theorem keep_measure {L : List Area} {u0 : State} (off : Int) (due : Nat) {s : State} (hL : Covers [.clk, .ev, .nut, .rep, .port, .eng] L) (h : Only L u0 s) :
    Only L u0 (Sys2Proof.Machine.measure off due s) := by
  unfold Sys2Proof.Machine.measure
  repeat' first
    | with_reducible exact h
    | with_reducible assumption
    | extract_lets
    | with_reducible refine keep_judge _ (covers_sub hL (by decide)) ?_
    | with_reducible refine keep_raiseMain _ _ _ (covers_sub hL (by decide)) ?_
    | with_reducible refine keep_setClk _ (covers_sub hL (by decide)) ?_
    | with_reducible refine keep_stepCount _ (covers_sub hL (by decide)) ?_
    | split
    | with_reducible refine only_ite (fun _ => ?_) (fun _ => ?_)
    | dsimp -zeta +zetaDelta only

theorem keep_askDelay {L : List Area} {u0 : State} (p : Fin 2) {s : State} (hL : Covers [.ev, .nut, .port] L) (h : Only L u0 s) :
    Only L u0 (askDelay p s) := by
  unfold askDelay
  repeat' first
    | with_reducible exact h
    | with_reducible assumption
    | extract_lets
    | with_reducible refine keep_sendHost _ _ _ (covers_sub hL (by decide)) ?_
    | with_reducible refine keep_updHost _ _ (covers_sub hL (by decide)) ?_
    | split
    | with_reducible refine only_ite (fun _ => ?_) (fun _ => ?_)
    | dsimp -zeta +zetaDelta only

theorem keep_follow {L : List Area} {u0 : State} {s : State} (hL : Covers [.clk, .port] L) (h : Only L u0 s) :
    Only L u0 (follow s) := by
  unfold follow
  repeat' first
    | with_reducible exact h
    | with_reducible assumption
    | extract_lets
    | with_reducible refine keep_setClk _ (covers_sub hL (by decide)) ?_
    | split
    | with_reducible refine only_ite (fun _ => ?_) (fun _ => ?_)
    | with_reducible refine keep_mk_port _ (covers_sub hL (by decide)) ?_
    | exact only_upd (by assumption) (fun a ha => by cases a <;> first | exact absurd (hL _ (by decide)) ha | rfl)
    | dsimp -zeta +zetaDelta only

theorem keep_hearSync {L : List Area} {u0 : State} (p : Fin 2) (x : PtpIn) {s : State} (hL : Covers [.clk, .ev, .nut, .port] L) (h : Only L u0 s) :
    Only L u0 (hearSync p x s) := by
  unfold hearSync
  repeat' first
    | with_reducible exact h
    | with_reducible assumption
    | extract_lets
    | with_reducible refine keep_askDelay _ (covers_sub hL (by decide)) ?_
    | with_reducible refine keep_follow (covers_sub hL (by decide)) ?_
    | with_reducible refine keep_updHost _ _ (covers_sub hL (by decide)) ?_

theorem keep_sourceWritten {L : List Area} {u0 : State} (old : Nat) {s1 : State} (hL : Covers [.clk, .ev, .nut] L) (h : Only L u0 s1) :
    Only L u0 (sourceWritten old s1) := by
  unfold sourceWritten
  repeat' first
    | with_reducible exact h
    | with_reducible assumption
    | extract_lets
    | with_reducible refine keep_raiseMain _ _ _ (covers_sub hL (by decide)) ?_
    | with_reducible refine keep_setClk _ (covers_sub hL (by decide)) ?_
    | split
    | with_reducible refine only_ite (fun _ => ?_) (fun _ => ?_)
    | dsimp -zeta +zetaDelta only

theorem keep_timeSourceEffect {L : List Area} {u0 : State} (v : Nat) (z1 : Count) {s : State} (hL : Covers [.nums, .clk, .pow, .ev, .nut] L) (h : Only L u0 s) :
    Only L u0 (timeSourceEffect v z1 s) := by
  unfold timeSourceEffect
  repeat' first
    | with_reducible exact h
    | with_reducible assumption
    | extract_lets
    | with_reducible refine keep_sourceWritten _ (covers_sub hL (by decide)) ?_
    | with_reducible refine keep_storeNum _ _ (covers_sub hL (by decide)) ?_

theorem keep_timeSetEffect {L : List Area} {u0 : State} (v : Nat) (z1 : Count) {s : State} (hL : Covers [.clk, .ev, .nut, .rep, .port, .eng] L) (h : Only L u0 s) :
    Only L u0 (timeSetEffect v z1 s) := by
  unfold timeSetEffect
  repeat' first
    | with_reducible exact h
    | with_reducible assumption
    | extract_lets
    | with_reducible refine keep_setClk _ (covers_sub hL (by decide)) ?_
    | with_reducible refine keep_stepCount _ (covers_sub hL (by decide)) ?_

theorem keep_launchEffect {L : List Area} {u0 : State} (v : Nat) (z1 : Count) {s : State} (hL : Covers [.nums, .ev, .nut, .eng] L) (h : Only L u0 s) :
    Only L u0 (launchEffect v z1 s) := by
  unfold launchEffect
  repeat' first
    | with_reducible exact h
    | with_reducible assumption
    | extract_lets
    | with_reducible refine keep_raiseMain _ _ _ (covers_sub hL (by decide)) ?_
    | with_reducible refine keep_setEng _ (covers_sub hL (by decide)) ?_
    | with_reducible refine keep_setN _ _ (covers_sub hL (by decide)) ?_
    | split
    | with_reducible refine only_ite (fun _ => ?_) (fun _ => ?_)
    | dsimp -zeta +zetaDelta only

theorem keep_frameStopEffect {L : List Area} {u0 : State} (v : Nat) (z1 : Count) {s : State} (hL : Covers [.nums, .pow, .acc, .part, .ev, .nut, .port, .eng, .img, .ani, .mem, .bar, .free] L) (h : Only L u0 s) :
    Only L u0 (frameStopEffect v z1 s) := by
  unfold frameStopEffect
  repeat' first
    | with_reducible exact h
    | with_reducible assumption
    | extract_lets
    | with_reducible refine keep_setN _ _ (covers_sub hL (by decide)) ?_
    | with_reducible refine keep_stopLaunch (covers_sub hL (by decide)) ?_
    | split
    | with_reducible refine only_ite (fun _ => ?_) (fun _ => ?_)
    | dsimp -zeta +zetaDelta only

end Sys2Proof.Laws
end

