-- ==== Sys2Proof/Laws/FrameAnise.lean ====
section
/-! SUPPORT. What the operations of Machine/Anise.lean may change: an operation keeps a frame that allows the parts it lists. -/
namespace Sys2Proof.Laws

open Sys2Proof.Machine

theorem keep_setAni {L : List Area} {u0 : State} (f : Anise → Anise) {s : State} (hL : Covers [.ani] L) (h : Only L u0 s) :
    Only L u0 (setAni f s) := by
  unfold setAni
  repeat' first
    | with_reducible exact h
    | with_reducible assumption
    | extract_lets
    | with_reducible refine keep_mk_ani _ (covers_sub hL (by decide)) ?_
    | exact only_upd (by assumption) (fun a ha => by cases a <;> first | exact absurd (hL _ (by decide)) ha | rfl)

theorem keep_evalTarget {L : List Area} {u0 : State} (k : Nat) {s : State} (hL : Covers [.nums, .ev, .nut] L) (h : Only L u0 s) :
    Only L u0 (evalTarget k s) := by
  unfold evalTarget
  repeat' first
    | with_reducible exact h
    | with_reducible assumption
    | extract_lets
    | with_reducible refine keep_raiseMain _ _ _ (covers_sub hL (by decide)) ?_
    | with_reducible refine keep_setN _ _ (covers_sub hL (by decide)) ?_
    | split
    | with_reducible refine only_ite (fun _ => ?_) (fun _ => ?_)
    | dsimp -zeta +zetaDelta only

theorem keep_programEffect {L : List Area} {u0 : State} (bs : List Byte) (z1 : Count) {s : State} (hL : Covers [.nums, .blobs, .pow, .ani] L) (h : Only L u0 s) :
    Only L u0 (programEffect bs z1 s) := by
  unfold programEffect
  repeat' first
    | with_reducible exact h
    | with_reducible assumption
    | extract_lets
    | with_reducible refine keep_setAni _ (covers_sub hL (by decide)) ?_
    | with_reducible refine keep_setN _ _ (covers_sub hL (by decide)) ?_
    | with_reducible refine keep_storeBlob _ _ (covers_sub hL (by decide)) ?_
    | split
    | with_reducible refine only_ite (fun _ => ?_) (fun _ => ?_)
    | dsimp -zeta +zetaDelta only

theorem keep_restartAnise {L : List Area} {u0 : State} {s : State} (hL : Covers [.ani] L) (h : Only L u0 s) :
    Only L u0 (restartAnise s) := by
  unfold restartAnise
  repeat' first
    | with_reducible exact h
    | with_reducible assumption
    | extract_lets
    | with_reducible refine keep_setAni _ (covers_sub hL (by decide)) ?_
    | split

theorem keep_activate {L : List Area} {u0 : State} (p : Program) {s : State} (hL : Covers [.nums, .ev, .nut, .ani, .cardamom] L) (h : Only L u0 s) :
    Only L u0 (activate p s) := by
  unfold activate
  repeat' first
    | with_reducible exact h
    | with_reducible assumption
    | extract_lets
    | with_reducible refine keep_evalTarget _ (covers_sub hL (by decide)) ?_
    | with_reducible refine keep_logMeas _ _ _ (covers_sub hL (by decide)) ?_
    | with_reducible refine keep_setAni _ (covers_sub hL (by decide)) ?_
    | with_reducible refine keep_setN _ _ (covers_sub hL (by decide)) ?_
    | with_reducible refine only_forEach _ _ (fun _ _ _ => ?_) ?_
    | split
    | dsimp -zeta +zetaDelta only

theorem keep_reloadProgram {L : List Area} {u0 : State} {s : State} (hL : Covers [.nums, .ev, .nut, .ani, .mem, .bar] L) (h : Only L u0 s) :
    Only L u0 (reloadProgram s) := by
  unfold reloadProgram
  repeat' first
    | with_reducible exact h
    | with_reducible assumption
    | extract_lets
    | with_reducible refine keep_seqRun _ _ (covers_sub hL (by decide)) ?_
    | with_reducible refine keep_setAni _ (covers_sub hL (by decide)) ?_
    | split
    | with_reducible refine only_ite (fun _ => ?_) (fun _ => ?_)

theorem keep_tickTake {L : List Area} {u0 : State} {s : State} (hL : Covers [.nums, .ev, .nut, .ani, .mem, .bar, .cardamom] L) (h : Only L u0 s) :
    Only L u0 (tickTake s) := by
  unfold tickTake
  repeat' first
    | with_reducible exact h
    | with_reducible assumption
    | extract_lets
    | with_reducible refine keep_activate _ (covers_sub hL (by decide)) ?_
    | with_reducible refine keep_reloadProgram (covers_sub hL (by decide)) ?_
    | with_reducible refine keep_setAni _ (covers_sub hL (by decide)) ?_
    | split

theorem keep_tickSkip {L : List Area} {u0 : State} (m : Nat) {s : State} (hL : Covers [.ani] L) (h : Only L u0 s) :
    Only L u0 (tickSkip m s) := by
  unfold tickSkip
  repeat' first
    | with_reducible exact h
    | with_reducible assumption
    | extract_lets
    | with_reducible refine keep_setAni _ (covers_sub hL (by decide)) ?_

theorem keep_tickRun {L : List Area} {u0 : State} (m : Nat) {s1 : State} (hL : Covers [.eng, .ani] L) (h : Only L u0 s1) :
    Only L u0 (tickRun m s1) := by
  unfold tickRun
  repeat' first
    | with_reducible exact h
    | with_reducible assumption
    | extract_lets
    | with_reducible refine keep_setAni _ (covers_sub hL (by decide)) ?_
    | with_reducible refine keep_setEng _ (covers_sub hL (by decide)) ?_
    | with_reducible refine only_foldl _ _ (fun _ _ _ => ?_) ?_
    | split
    | dsimp -zeta +zetaDelta only

theorem keep_evalRule {L : List Area} {u0 : State} (n : Nat) (i : Nat) (e : RuleEnt) {s : State} (hL : Covers [.ev, .nut, .ani] L) (h : Only L u0 s) :
    Only L u0 (evalRule n i e s) := by
  unfold evalRule
  repeat' first
    | with_reducible exact h
    | with_reducible assumption
    | extract_lets
    | with_reducible refine keep_raiseMain _ _ _ (covers_sub hL (by decide)) ?_
    | with_reducible refine keep_setAni _ (covers_sub hL (by decide)) ?_
    | split
    | with_reducible refine only_ite (fun _ => ?_) (fun _ => ?_)
    | dsimp -zeta +zetaDelta only

theorem keep_evalRules {L : List Area} {u0 : State} (n : Nat) {s : State} (hL : Covers [.ev, .nut, .ani] L) (h : Only L u0 s) :
    Only L u0 (evalRules n s) := by
  unfold evalRules
  repeat' first
    | with_reducible exact h
    | with_reducible assumption
    | extract_lets
    | with_reducible refine keep_evalRule _ _ _ (covers_sub hL (by decide)) ?_
    | with_reducible refine only_forEach _ _ (fun _ _ _ => ?_) ?_
    | split

theorem keep_concordJudge {L : List Area} {u0 : State} (p : ConcordProg) (n : Nat) {s : State} (hL : Covers [.nums, .ev, .nut, .ani] L) (h : Only L u0 s) :
    Only L u0 (concordJudge p n s) := by
  unfold concordJudge
  repeat' first
    | with_reducible exact h
    | with_reducible assumption
    | extract_lets
    | with_reducible refine keep_inc32 _ (covers_sub hL (by decide)) ?_
    | with_reducible refine keep_raiseMain _ _ _ (covers_sub hL (by decide)) ?_
    | with_reducible refine keep_setAni _ (covers_sub hL (by decide)) ?_
    | split
    | with_reducible refine only_ite (fun _ => ?_) (fun _ => ?_)
    | dsimp -zeta +zetaDelta only

theorem keep_concordFrame {L : List Area} {u0 : State} (n : Nat) {s : State} (hL : Covers [.nums, .acc, .ev, .nut, .ani, .mem, .bar] L) (h : Only L u0 s) :
    Only L u0 (concordFrame n s) := by
  unfold concordFrame
  repeat' first
    | with_reducible exact h
    | with_reducible assumption
    | extract_lets
    | with_reducible refine keep_concordJudge _ _ (covers_sub hL (by decide)) ?_
    | with_reducible refine keep_recomputeCaps (covers_sub hL (by decide)) ?_
    | with_reducible refine keep_setAni _ (covers_sub hL (by decide)) ?_
    | with_reducible refine keep_signalCell _ _ (covers_sub hL (by decide)) ?_
    | split
    | with_reducible refine only_ite (fun _ => ?_) (fun _ => ?_)
    | dsimp -zeta +zetaDelta only

theorem keep_keepJobs {L : List Area} {u0 : State} (n : Nat) {s : State} (hL : Covers [.ani] L) (h : Only L u0 s) :
    Only L u0 (keepJobs n s) := by
  unfold keepJobs
  repeat' first
    | with_reducible exact h
    | with_reducible assumption
    | extract_lets
    | with_reducible refine keep_setAni _ (covers_sub hL (by decide)) ?_

theorem keep_discardJobs {L : List Area} {u0 : State} (b : JobsBack) {s : State} (hL : Covers [.acc, .ani] L) (h : Only L u0 s) :
    Only L u0 (discardJobs b s) := by
  unfold discardJobs
  repeat' first
    | with_reducible exact h
    | with_reducible assumption
    | extract_lets
    | with_reducible refine keep_recomputeCaps (covers_sub hL (by decide)) ?_
    | with_reducible refine keep_setAni _ (covers_sub hL (by decide)) ?_

set_option tactic.hygienic false in
theorem keep_frameJobs {L : List Area} {u0 : State} (n : Nat) {s : State} (hL : Covers [.nums, .acc, .ev, .nut, .eng, .ani, .mem, .bar, .cardamom] L) (h : Only L u0 s) :
    Only L u0 (frameJobs n s) := by
  unfold frameJobs
  repeat' first
    | with_reducible exact h
    | with_reducible assumption
    | extract_lets
    | with_reducible refine keep_concordFrame _ (covers_sub hL (by decide)) ?_
    | with_reducible refine keep_evalRules _ (covers_sub hL (by decide)) ?_
    | with_reducible refine keep_keepJobs _ (covers_sub hL (by decide)) ?_
    | with_reducible refine keep_setAni _ (covers_sub hL (by decide)) ?_
    | with_reducible refine keep_tickRun _ (covers_sub hL (by decide)) ?_
    | with_reducible refine keep_tickSkip _ (covers_sub hL (by decide)) ?_
    | with_reducible refine keep_tickTake (covers_sub hL (by decide)) ?_
    | split
    | with_reducible refine only_ite (fun _ => ?_) (fun _ => ?_)
    | dsimp -zeta +zetaDelta only
    | unfold tick

theorem keep_readyJobs {L : List Area} {u0 : State} (m : Nat) {s : State} (hL : Covers [.nums, .ev, .nut, .eng, .ani, .mem, .bar, .cardamom] L) (h : Only L u0 s) :
    Only L u0 (readyJobs m s) := by
  unfold readyJobs
  repeat' first
    | with_reducible exact h
    | with_reducible assumption
    | extract_lets
    | with_reducible refine keep_keepJobs _ (covers_sub hL (by decide)) ?_
    | with_reducible refine keep_setAni _ (covers_sub hL (by decide)) ?_
    | with_reducible refine keep_tickRun _ (covers_sub hL (by decide)) ?_
    | with_reducible refine keep_tickSkip _ (covers_sub hL (by decide)) ?_
    | with_reducible refine keep_tickTake (covers_sub hL (by decide)) ?_
    | split
    | with_reducible refine only_ite (fun _ => ?_) (fun _ => ?_)
    | dsimp -zeta +zetaDelta only

theorem keep_adaptBranch {L : List Area} {u0 : State} (b : Fin 12) {s : State} (hL : Covers [.ani] L) (h : Only L u0 s) :
    Only L u0 (adaptBranch b s) := by
  unfold adaptBranch
  repeat' first
    | with_reducible exact h
    | with_reducible assumption
    | extract_lets
    | with_reducible refine keep_setAni _ (covers_sub hL (by decide)) ?_
    | split
    | with_reducible refine only_ite (fun _ => ?_) (fun _ => ?_)
    | dsimp -zeta +zetaDelta only

end Sys2Proof.Laws
end

