-- ==== Sys2Proof/Laws/FrameStraw.lean ====
section
/-! SUPPORT. What the operations of Machine/Straw.lean may change: an operation keeps a frame that allows the parts it lists. -/
namespace Sys2Proof.Laws

open Sys2Proof.Machine

theorem keep_antEnableEffect {L : List Area} {u0 : State} (a : Fin 8) (v : Nat) (c : Count) {s : State} (hL : Covers [.nums, .pow, .ani] L) (h : Only L u0 s) :
    Only L u0 (antEnableEffect a v c s) := by
  unfold antEnableEffect
  repeat' first
    | with_reducible exact h
    | with_reducible assumption
    | extract_lets
    | with_reducible refine keep_setAni _ (covers_sub hL (by decide)) ?_
    | with_reducible refine keep_storeNum _ _ (covers_sub hL (by decide)) ?_
    | split
    | with_reducible refine only_ite (fun _ => ?_) (fun _ => ?_)
    | dsimp -zeta +zetaDelta only

theorem keep_settleOut {L : List Area} {u0 : State} (o : Fin 24) {s : State} (hL : Covers [.cool] L) (h : Only L u0 s) :
    Only L u0 (settleOut o s) := by
  unfold settleOut
  repeat' first
    | with_reducible exact h
    | with_reducible assumption
    | extract_lets
    | with_reducible refine keep_updOut _ _ (covers_sub hL (by decide)) ?_
    | split
    | with_reducible refine only_ite (fun _ => ?_) (fun _ => ?_)
    | dsimp -zeta +zetaDelta only

theorem keep_settleOuts {L : List Area} {u0 : State} {s : State} (hL : Covers [.cool] L) (h : Only L u0 s) :
    Only L u0 (settleOuts s) := by
  unfold settleOuts
  repeat' first
    | with_reducible exact h
    | with_reducible assumption
    | extract_lets
    | with_reducible refine keep_settleOut _ (covers_sub hL (by decide)) ?_
    | with_reducible refine only_forAll _ _ (fun _ _ _ => ?_) ?_

theorem keep_updLeak {L : List Area} {u0 : State} (c : Fin 8) (f : LeakCh → LeakCh) {s : State} (hL : Covers [.cool] L) (h : Only L u0 s) :
    Only L u0 (updLeak c f s) := by
  unfold updLeak
  repeat' first
    | with_reducible exact h
    | with_reducible assumption
    | extract_lets
    | with_reducible refine keep_mk_cool _ (covers_sub hL (by decide)) ?_
    | exact only_upd (by assumption) (fun a ha => by cases a <;> first | exact absurd (hL _ (by decide)) ha | rfl)

theorem keep_enableLeak {L : List Area} {u0 : State} (c : Fin 8) {s : State} (hL : Covers [.cool] L) (h : Only L u0 s) :
    Only L u0 (enableLeak c s) := by
  unfold enableLeak
  repeat' first
    | with_reducible exact h
    | with_reducible assumption
    | extract_lets
    | with_reducible refine keep_updLeak _ _ (covers_sub hL (by decide)) ?_
    | split
    | with_reducible refine only_ite (fun _ => ?_) (fun _ => ?_)

theorem keep_applyOut {L : List Area} {u0 : State} (o : Fin 24) (v : Rat) {s : State} (hL : Covers [.cool] L) (h : Only L u0 s) :
    Only L u0 (applyOut o v s) := by
  unfold applyOut
  repeat' first
    | with_reducible exact h
    | with_reducible assumption
    | extract_lets
    | with_reducible refine keep_settleOut _ (covers_sub hL (by decide)) ?_
    | with_reducible refine keep_updOut _ _ (covers_sub hL (by decide)) ?_

theorem keep_setPointRat {L : List Area} {u0 : State} (o : Fin 24) (v : Nat) {s : State} (hL : Covers [.free] L) (h : Only L u0 s) :
    Only L u0 (setPointRat o v s).2 := by
  unfold setPointRat
  repeat' first
    | with_reducible exact h
    | with_reducible assumption
    | extract_lets
    | with_reducible refine keep_takeFree _ (covers_sub hL (by decide)) ?_
    | with_reducible refine keep_takeFree_eq (by assumption) (covers_sub hL (by decide)) ?_
    | split
    | with_reducible refine only_ite (fun _ => ?_) (fun _ => ?_)
    | dsimp -zeta only
    | dsimp -zeta +zetaDelta only

theorem keep_setPointRat_eq {L : List Area} {u0 : State} {o : Fin 24} {v : Nat} {s : State} {r : _} {t : State} (e : setPointRat o v s = (r, t)) (hL : Covers [.free] L) (h : Only L u0 s) :
    Only L u0 t := by
  have k := keep_setPointRat o v hL h
  rw [e] at k
  exact k

theorem keep_receiveOut {L : List Area} {u0 : State} (o : Fin 24) {s : State} (hL : Covers [.cool, .ani, .free] L) (h : Only L u0 s) :
    Only L u0 (receiveOut o s) := by
  unfold receiveOut
  repeat' first
    | with_reducible exact h
    | with_reducible assumption
    | extract_lets
    | with_reducible refine keep_applyOut _ _ (covers_sub hL (by decide)) ?_
    | with_reducible refine keep_setAni _ (covers_sub hL (by decide)) ?_
    | with_reducible refine keep_setPointRat _ _ (covers_sub hL (by decide)) ?_
    | with_reducible refine keep_setPointRat_eq (by assumption) (covers_sub hL (by decide)) ?_
    | with_reducible refine keep_updOut _ _ (covers_sub hL (by decide)) ?_
    | split
    | with_reducible refine only_ite (fun _ => ?_) (fun _ => ?_)
    | dsimp -zeta +zetaDelta only

theorem keep_applyCurve {L : List Area} {u0 : State} (b : Fin 12) {s : State} (hL : Covers [.br] L) (h : Only L u0 s) :
    Only L u0 (applyCurve b s) := by
  unfold applyCurve
  repeat' first
    | with_reducible exact h
    | with_reducible assumption
    | extract_lets
    | with_reducible refine keep_updBr _ _ (covers_sub hL (by decide)) ?_
    | split

theorem keep_receiveCurve {L : List Area} {u0 : State} (b : Fin 12) {s : State} (hL : Covers [.br, .ani] L) (h : Only L u0 s) :
    Only L u0 (receiveCurve b s) := by
  unfold receiveCurve
  repeat' first
    | with_reducible exact h
    | with_reducible assumption
    | extract_lets
    | with_reducible refine keep_setAni _ (covers_sub hL (by decide)) ?_
    | with_reducible refine keep_updBr _ _ (covers_sub hL (by decide)) ?_
    | split

theorem keep_deliverAnt {L : List Area} {u0 : State} (a : Fin 8) {s : State} (hL : Covers [.nums, .ani] L) (h : Only L u0 s) :
    Only L u0 (deliverAnt a s) := by
  unfold deliverAnt
  repeat' first
    | with_reducible exact h
    | with_reducible assumption
    | extract_lets
    | with_reducible refine keep_inc32 _ (covers_sub hL (by decide)) ?_
    | with_reducible refine keep_setAni _ (covers_sub hL (by decide)) ?_
    | split
    | with_reducible refine only_ite (fun _ => ?_) (fun _ => ?_)
    | dsimp -zeta +zetaDelta only

end Sys2Proof.Laws
end

