-- ==== Sys2Proof/Laws/FrameMainDie.lean ====
section
/-! SUPPORT. What the operations of Machine/MainDie.lean may change: an operation keeps a frame that allows the parts it lists. -/
namespace Sys2Proof.Laws

open Sys2Proof.Machine

theorem keep_updPeer {L : List Area} {u0 : State} (i : Nat) (f : Peer → Peer) {s : State} (hL : Covers [.oda] L) (h : Only L u0 s) :
    Only L u0 (updPeer i f s) := by
  unfold updPeer
  repeat' first
    | with_reducible exact h
    | with_reducible assumption
    | extract_lets
    | split
    | with_reducible refine keep_mk_oda _ (covers_sub hL (by decide)) ?_
    | exact only_upd (by assumption) (fun a ha => by cases a <;> first | exact absurd (hL _ (by decide)) ha | rfl)

theorem keep_setBar {L : List Area} {u0 : State} (f : Barley → Barley) {s : State} (hL : Covers [.bar] L) (h : Only L u0 s) :
    Only L u0 (setBar f s) := by
  unfold setBar
  repeat' first
    | with_reducible exact h
    | with_reducible assumption
    | extract_lets
    | with_reducible refine keep_mk_bar _ (covers_sub hL (by decide)) ?_
    | exact only_upd (by assumption) (fun a ha => by cases a <;> first | exact absurd (hL _ (by decide)) ha | rfl)

theorem keep_countStep {L : List Area} {u0 : State} (place : Nat) (txn : Nat) (c : Count) {s : State} (hL : Covers [.oda] L) (h : Only L u0 s) :
    Only L u0 (countStep place txn c s) := by
  unfold countStep
  repeat' first
    | with_reducible exact h
    | with_reducible assumption
    | extract_lets
    | with_reducible refine keep_updPeer _ _ (covers_sub hL (by decide)) ?_
    | split
    | with_reducible refine only_ite (fun _ => ?_) (fun _ => ?_)

theorem keep_storeValue {L : List Area} {u0 : State} (key : Nat) (v : Value) {s : State} (hL : Covers [.nums, .blobs, .pow] L) (h : Only L u0 s) :
    Only L u0 (storeValue key v s) := by
  unfold storeValue
  repeat' first
    | with_reducible exact h
    | with_reducible assumption
    | extract_lets
    | with_reducible refine keep_storeBlob _ _ (covers_sub hL (by decide)) ?_
    | with_reducible refine keep_storeNum _ _ (covers_sub hL (by decide)) ?_
    | split

theorem keep_dropUpdate {L : List Area} {u0 : State} {s : State} (hL : Covers [.bar] L) (h : Only L u0 s) :
    Only L u0 (dropUpdate s) := by
  unfold dropUpdate
  repeat' first
    | with_reducible exact h
    | with_reducible assumption
    | extract_lets
    | with_reducible refine keep_setBar _ (covers_sub hL (by decide)) ?_

theorem keep_otherOff {L : List Area} {u0 : State} {s : State} (hL : Covers [.bar] L) (h : Only L u0 s) :
    Only L u0 (otherOff s) := by
  unfold otherOff
  repeat' first
    | with_reducible exact h
    | with_reducible assumption
    | extract_lets
    | with_reducible refine keep_setBar _ (covers_sub hL (by decide)) ?_
    | split
    | with_reducible refine only_ite (fun _ => ?_) (fun _ => ?_)

theorem keep_restoreSelector {L : List Area} {u0 : State} {s : State} (hL : Covers [.bar] L) (h : Only L u0 s) :
    Only L u0 (restoreSelector s) := by
  unfold restoreSelector
  repeat' first
    | with_reducible exact h
    | with_reducible assumption
    | extract_lets
    | with_reducible refine keep_setBar _ (covers_sub hL (by decide)) ?_
    | split
    | with_reducible refine only_ite (fun _ => ?_) (fun _ => ?_)

theorem keep_setSlot {L : List Area} {u0 : State} (k : Nat) (x : FwSlot) {s : State} (hL : Covers [.bar] L) (h : Only L u0 s) :
    Only L u0 (setSlot k x s) := by
  unfold setSlot
  repeat' first
    | with_reducible exact h
    | with_reducible assumption
    | extract_lets
    | with_reducible refine keep_setBar _ (covers_sub hL (by decide)) ?_
    | split
    | with_reducible refine only_ite (fun _ => ?_) (fun _ => ?_)

theorem keep_spoilSlot {L : List Area} {u0 : State} {s : State} (hL : Covers [.bar] L) (h : Only L u0 s) :
    Only L u0 (spoilSlot s) := by
  unfold spoilSlot
  repeat' first
    | with_reducible exact h
    | with_reducible assumption
    | extract_lets
    | with_reducible refine keep_setSlot _ _ (covers_sub hL (by decide)) ?_
    | split
    | with_reducible refine only_ite (fun _ => ?_) (fun _ => ?_)
    | dsimp -zeta +zetaDelta only

theorem keep_setUpd {L : List Area} {u0 : State} (st : UpdState) {s : State} (hL : Covers [.ev, .nut, .bar] L) (h : Only L u0 s) :
    Only L u0 (setUpd st s) := by
  unfold setUpd
  repeat' first
    | with_reducible exact h
    | with_reducible assumption
    | extract_lets
    | with_reducible refine keep_raiseMain _ _ _ (covers_sub hL (by decide)) ?_
    | with_reducible refine keep_routeIrq _ (covers_sub hL (by decide)) ?_
    | with_reducible refine keep_setBar _ (covers_sub hL (by decide)) ?_

theorem keep_updError {L : List Area} {u0 : State} (st : UpdState) (code : Nat) {s : State} (hL : Covers [.ev, .nut, .bar] L) (h : Only L u0 s) :
    Only L u0 (updError st code s) := by
  unfold updError
  repeat' first
    | with_reducible exact h
    | with_reducible assumption
    | extract_lets
    | with_reducible refine keep_raiseMain _ _ _ (covers_sub hL (by decide)) ?_
    | with_reducible refine keep_setBar _ (covers_sub hL (by decide)) ?_
    | with_reducible refine keep_setUpd _ (covers_sub hL (by decide)) ?_

theorem keep_updateLost {L : List Area} {u0 : State} {s : State} (hL : Covers [.ev, .nut, .bar] L) (h : Only L u0 s) :
    Only L u0 (updateLost s) := by
  unfold updateLost
  repeat' first
    | with_reducible exact h
    | with_reducible assumption
    | extract_lets
    | with_reducible refine keep_dropUpdate (covers_sub hL (by decide)) ?_
    | with_reducible refine keep_otherOff (covers_sub hL (by decide)) ?_
    | with_reducible refine keep_restoreSelector (covers_sub hL (by decide)) ?_
    | with_reducible refine keep_spoilSlot (covers_sub hL (by decide)) ?_
    | with_reducible refine keep_updError _ _ (covers_sub hL (by decide)) ?_
    | split
    | with_reducible refine only_ite (fun _ => ?_) (fun _ => ?_)
    | dsimp -zeta +zetaDelta only

theorem keep_barleyDown {L : List Area} {u0 : State} {s : State} (hL : Covers [.ev, .nut, .bar] L) (h : Only L u0 s) :
    Only L u0 (barleyDown s) := by
  unfold barleyDown
  repeat' first
    | with_reducible exact h
    | with_reducible assumption
    | extract_lets
    | with_reducible refine keep_updateLost (covers_sub hL (by decide)) ?_
    | with_reducible refine keep_mk_bar _ (covers_sub hL (by decide)) ?_
    | exact only_upd (by assumption) (fun a ha => by cases a <;> first | exact absurd (hL _ (by decide)) ha | rfl)
    | dsimp -zeta +zetaDelta only

theorem keep_cardamomDown {L : List Area} {u0 : State} {s : State} (hL : Covers [.cardamom] L) (h : Only L u0 s) :
    Only L u0 (cardamomDown s) := by
  unfold cardamomDown
  repeat' first
    | with_reducible exact h
    | with_reducible assumption
    | extract_lets
    | with_reducible refine keep_mk_cardamom _ (covers_sub hL (by decide)) ?_
    | exact only_upd (by assumption) (fun a ha => by cases a <;> first | exact absurd (hL _ (by decide)) ha | rfl)

theorem keep_engineDown {L : List Area} {u0 : State} {s : State} (hL : Covers [.eng, .img] L) (h : Only L u0 s) :
    Only L u0 (engineDown s) := by
  unfold engineDown
  repeat' first
    | with_reducible exact h
    | with_reducible assumption
    | extract_lets
    | with_reducible refine keep_dropReplay (covers_sub hL (by decide)) ?_
    | with_reducible refine keep_setEng _ (covers_sub hL (by decide)) ?_
    | with_reducible refine keep_setImg _ (covers_sub hL (by decide)) ?_
    | split
    | with_reducible refine only_ite (fun _ => ?_) (fun _ => ?_)
    | dsimp -zeta +zetaDelta only

theorem keep_heatDown {L : List Area} {u0 : State} {s : State} (hL : Covers [.heat] L) (h : Only L u0 s) :
    Only L u0 (heatDown s) := by
  unfold heatDown
  repeat' first
    | with_reducible exact h
    | with_reducible assumption
    | extract_lets
    | with_reducible refine keep_mk_heat _ (covers_sub hL (by decide)) ?_
    | exact only_upd (by assumption) (fun a ha => by cases a <;> first | exact absurd (hL _ (by decide)) ha | rfl)

theorem keep_limitsDown {L : List Area} {u0 : State} {s : State} (hL : Covers [.acc] L) (h : Only L u0 s) :
    Only L u0 (limitsDown s) := by
  unfold limitsDown
  repeat' first
    | with_reducible exact h
    | with_reducible assumption
    | extract_lets
    | with_reducible refine keep_updAcc _ _ (covers_sub hL (by decide)) ?_
    | with_reducible refine only_forAll _ _ (fun _ _ _ => ?_) ?_

theorem keep_memDown {L : List Area} {u0 : State} (kept : Bool) {s : State} (hL : Covers [.nums, .mem] L) (h : Only L u0 s) :
    Only L u0 (memDown kept s) := by
  unfold memDown
  repeat' first
    | with_reducible exact h
    | with_reducible assumption
    | extract_lets
    | with_reducible refine keep_setN _ _ (covers_sub hL (by decide)) ?_
    | split
    | with_reducible refine only_ite (fun _ => ?_) (fun _ => ?_)
    | with_reducible refine keep_mk_mem _ (covers_sub hL (by decide)) ?_
    | exact only_upd (by assumption) (fun a ha => by cases a <;> first | exact absurd (hL _ (by decide)) ha | rfl)
    | dsimp -zeta +zetaDelta only

theorem keep_odaDown {L : List Area} {u0 : State} {s : State} (hL : Covers [.oda] L) (h : Only L u0 s) :
    Only L u0 (odaDown s) := by
  unfold odaDown
  repeat' first
    | with_reducible exact h
    | with_reducible assumption
    | extract_lets
    | split
    | with_reducible refine only_ite (fun _ => ?_) (fun _ => ?_)
    | with_reducible refine keep_mk_oda _ (covers_sub hL (by decide)) ?_
    | exact only_upd (by assumption) (fun a ha => by cases a <;> first | exact absurd (hL _ (by decide)) ha | rfl)
    | dsimp -zeta +zetaDelta only

theorem keep_portsDown {L : List Area} {u0 : State} {s : State} (hL : Covers [.port] L) (h : Only L u0 s) :
    Only L u0 (portsDown s) := by
  unfold portsDown
  repeat' first
    | with_reducible exact h
    | with_reducible assumption
    | extract_lets
    | with_reducible refine keep_mk_port _ (covers_sub hL (by decide)) ?_
    | exact only_upd (by assumption) (fun a ha => by cases a <;> first | exact absurd (hL _ (by decide)) ha | rfl)

theorem keep_timeDown {L : List Area} {u0 : State} {s : State} (hL : Covers [.clk] L) (h : Only L u0 s) :
    Only L u0 (timeDown s) := by
  unfold timeDown
  repeat' first
    | with_reducible exact h
    | with_reducible assumption
    | extract_lets
    | with_reducible refine keep_setClk _ (covers_sub hL (by decide)) ?_
    | split
    | with_reducible refine only_ite (fun _ => ?_) (fun _ => ?_)

theorem keep_mainDown {L : List Area} {u0 : State} (kept : Bool) {s : State} (hL : Covers [.nums, .clk, .acc, .heat, .part, .ev, .nut, .oda, .port, .eng, .img, .ani, .mem, .bar, .cardamom] L) (h : Only L u0 s) :
    Only L u0 (mainDown kept s) := by
  unfold mainDown
  repeat' first
    | with_reducible exact h
    | with_reducible assumption
    | extract_lets
    | with_reducible refine keep_barleyDown (covers_sub hL (by decide)) ?_
    | with_reducible refine keep_cardamomDown (covers_sub hL (by decide)) ?_
    | with_reducible refine keep_engineDown (covers_sub hL (by decide)) ?_
    | with_reducible refine keep_heatDown (covers_sub hL (by decide)) ?_
    | with_reducible refine keep_limitsDown (covers_sub hL (by decide)) ?_
    | with_reducible refine keep_memDown _ (covers_sub hL (by decide)) ?_
    | with_reducible refine keep_odaDown (covers_sub hL (by decide)) ?_
    | with_reducible refine keep_portsDown (covers_sub hL (by decide)) ?_
    | with_reducible refine keep_restartAnise (covers_sub hL (by decide)) ?_
    | with_reducible refine keep_serializerDown (covers_sub hL (by decide)) ?_
    | with_reducible refine keep_timeDown (covers_sub hL (by decide)) ?_
    | split
    | with_reducible refine only_ite (fun _ => ?_) (fun _ => ?_)
    | with_reducible refine keep_mk_part _ (covers_sub hL (by decide)) ?_
    | exact only_upd (by assumption) (fun a ha => by cases a <;> first | exact absurd (hL _ (by decide)) ha | rfl)

theorem keep_interruptTxn {L : List Area} {u0 : State} (place : Nat) (txn : Nat) {s : State} (hL : Covers [.oda] L) (h : Only L u0 s) :
    Only L u0 (interruptTxn place txn s) := by
  unfold interruptTxn
  repeat' first
    | with_reducible exact h
    | with_reducible assumption
    | extract_lets
    | with_reducible refine keep_updPeer _ _ (covers_sub hL (by decide)) ?_
    | split
    | with_reducible refine only_ite (fun _ => ?_) (fun _ => ?_)

theorem keep_volatileReset {L : List Area} {u0 : State} {s : State} (hL : Covers [.nums, .blobs] L) (h : Only L u0 s) :
    Only L u0 (volatileReset s) := by
  unfold volatileReset
  repeat' first
    | with_reducible exact h
    | with_reducible assumption
    | extract_lets
    | with_reducible refine keep_mk_blobs _ (covers_sub hL (by decide)) ?_
    | with_reducible refine keep_mk_nums _ (covers_sub hL (by decide)) ?_
    | exact only_upd (by assumption) (fun a ha => by cases a <;> first | exact absurd (hL _ (by decide)) ha | rfl)

end Sys2Proof.Laws
end

