-- ==== Sys2Proof/Laws/FrameRye.lean ====
section
/-! SUPPORT. What the operations of Machine/Rye.lean may change: an operation keeps a frame that allows the parts it lists. -/
namespace Sys2Proof.Laws

open Sys2Proof.Machine

theorem keep_advInrush {L : List Area} {u0 : State} (b : Fin 12) {s : State} (hL : Covers [.br] L) (h : Only L u0 s) :
    Only L u0 (advInrush b s) := by
  unfold advInrush
  repeat' first
    | with_reducible exact h
    | with_reducible assumption
    | extract_lets
    | with_reducible refine keep_updBr _ _ (covers_sub hL (by decide)) ?_
    | dsimp -zeta +zetaDelta only

theorem keep_armRail {L : List Area} {u0 : State} (q : Fin 9) (on : Bool) (r : Fin 16) {s : State} (hL : Covers [.sq] L) (h : Only L u0 s) :
    Only L u0 (armRail q on r s) := by
  unfold armRail
  repeat' first
    | with_reducible exact h
    | with_reducible assumption
    | extract_lets
    | with_reducible refine keep_updRail _ _ _ (covers_sub hL (by decide)) ?_
    | split
    | with_reducible refine only_ite (fun _ => ?_) (fun _ => ?_)

theorem keep_armOv {L : List Area} {u0 : State} (b : Fin 12) (st : BrState) {s : State} (hL : Covers [.sq] L) (h : Only L u0 s) :
    Only L u0 (armOv b st s) := by
  unfold armOv
  repeat' first
    | with_reducible exact h
    | with_reducible assumption
    | extract_lets
    | with_reducible refine keep_armRail _ _ _ (covers_sub hL (by decide)) ?_
    | with_reducible refine only_forAll _ _ (fun _ _ _ => ?_) ?_
    | split
    | with_reducible refine only_ite (fun _ => ?_) (fun _ => ?_)

theorem keep_maxF32 {L : List Area} {u0 : State} (o : Obj) (v : Rat) {s : State} (hL : Covers [.nums] L) (h : Only L u0 s) :
    Only L u0 (maxF32 o v s) := by
  unfold maxF32
  repeat' first
    | with_reducible exact h
    | with_reducible assumption
    | extract_lets
    | with_reducible refine keep_setN _ _ (covers_sub hL (by decide)) ?_
    | split
    | with_reducible refine only_ite (fun _ => ?_) (fun _ => ?_)
    | dsimp -zeta +zetaDelta only

theorem keep_endInrush {L : List Area} {u0 : State} (b : Fin 12) (old : BrState) (new : BrState) {s : State} (hL : Covers [.nums] L) (h : Only L u0 s) :
    Only L u0 (endInrush b old new s) := by
  unfold endInrush
  repeat' first
    | with_reducible exact h
    | with_reducible assumption
    | extract_lets
    | with_reducible refine keep_maxF32 _ _ (covers_sub hL (by decide)) ?_
    | split
    | with_reducible refine only_ite (fun _ => ?_) (fun _ => ?_)

theorem keep_noteBrEntry {L : List Area} {u0 : State} (b : Fin 12) (st : BrState) {s : State} (hL : Covers [.nums, .eng] L) (h : Only L u0 s) :
    Only L u0 (noteBrEntry b st s) := by
  unfold noteBrEntry
  repeat' first
    | with_reducible exact h
    | with_reducible assumption
    | extract_lets
    | with_reducible refine keep_inc32 _ (covers_sub hL (by decide)) ?_
    | with_reducible refine keep_ringTrigger _ (covers_sub hL (by decide)) ?_
    | split

theorem keep_moveBr {L : List Area} {u0 : State} (b : Fin 12) (st : BrState) (gate : Gate) {s : State} (hL : Covers [.nums, .br, .sq, .eng] L) (h : Only L u0 s) :
    Only L u0 (moveBr b st gate s) := by
  unfold moveBr
  repeat' first
    | with_reducible exact h
    | with_reducible assumption
    | extract_lets
    | with_reducible refine keep_advInrush _ (covers_sub hL (by decide)) ?_
    | with_reducible refine keep_armOv _ _ (covers_sub hL (by decide)) ?_
    | with_reducible refine keep_endInrush _ _ _ (covers_sub hL (by decide)) ?_
    | with_reducible refine keep_noteBrEntry _ _ (covers_sub hL (by decide)) ?_
    | with_reducible refine keep_updBr _ _ (covers_sub hL (by decide)) ?_
    | split
    | with_reducible refine only_ite (fun _ => ?_) (fun _ => ?_)
    | dsimp -zeta +zetaDelta only

theorem keep_raiseBr {L : List Area} {u0 : State} (e : Ev) (b : Fin 12) {s : State} (hL : Covers [.ev, .nut] L) (h : Only L u0 s) :
    Only L u0 (raiseBr e b s) := by
  unfold raiseBr
  repeat' first
    | with_reducible exact h
    | with_reducible assumption
    | extract_lets
    | with_reducible refine keep_raiseRye _ _ _ (covers_sub hL (by decide)) ?_

theorem keep_countFault {L : List Area} {u0 : State} (a : Fin 8) {s : State} (hL : Covers [.nums, .pow, .acc, .ev, .nut] L) (h : Only L u0 s) :
    Only L u0 (countFault a s) := by
  unfold countFault
  repeat' first
    | with_reducible exact h
    | with_reducible assumption
    | extract_lets
    | with_reducible refine keep_raiseRye _ _ _ (covers_sub hL (by decide)) ?_
    | with_reducible refine keep_storeNum _ _ (covers_sub hL (by decide)) ?_
    | with_reducible refine keep_updAcc _ _ (covers_sub hL (by decide)) ?_
    | split
    | with_reducible refine only_ite (fun _ => ?_) (fun _ => ?_)
    | dsimp -zeta +zetaDelta only

theorem keep_countCode {L : List Area} {u0 : State} (q : Fin 9) (code : Nat) {s : State} (hL : Covers [.nums, .pow, .acc, .ev, .nut] L) (h : Only L u0 s) :
    Only L u0 (countCode q code s) := by
  unfold countCode
  repeat' first
    | with_reducible exact h
    | with_reducible assumption
    | extract_lets
    | with_reducible refine keep_countFault _ (covers_sub hL (by decide)) ?_
    | split
    | with_reducible refine only_ite (fun _ => ?_) (fun _ => ?_)

theorem keep_dropDemand {L : List Area} {u0 : State} (a : Fin 8) {s : State} (hL : Covers [.nums, .br, .sq, .eng] L) (h : Only L u0 s) :
    Only L u0 (dropDemand a s) := by
  unfold dropDemand
  repeat' first
    | with_reducible exact h
    | with_reducible assumption
    | extract_lets
    | with_reducible refine keep_moveBr _ _ _ (covers_sub hL (by decide)) ?_
    | with_reducible refine keep_updBr _ _ (covers_sub hL (by decide)) ?_
    | split
    | with_reducible refine only_ite (fun _ => ?_) (fun _ => ?_)
    | dsimp -zeta +zetaDelta only

theorem keep_setSeq {L : List Area} {u0 : State} (q : Fin 9) (st : SeqState) {s : State} (hL : Covers [.sq, .acc] L) (h : Only L u0 s) :
    Only L u0 (setSeq q st s) := by
  unfold setSeq
  repeat' first
    | with_reducible exact h
    | with_reducible assumption
    | extract_lets
    | with_reducible refine keep_recomputeCaps (covers_sub hL (by decide)) ?_
    | with_reducible refine keep_updSeq _ _ (covers_sub hL (by decide)) ?_
    | split
    | with_reducible refine only_ite (fun _ => ?_) (fun _ => ?_)
    | dsimp -zeta +zetaDelta only

theorem keep_enterOffWait {L : List Area} {u0 : State} (q : Fin 9) {s : State} (hL : Covers [.sq, .acc] L) (h : Only L u0 s) :
    Only L u0 (enterOffWait q s) := by
  unfold enterOffWait
  repeat' first
    | with_reducible exact h
    | with_reducible assumption
    | extract_lets
    | with_reducible refine keep_setSeq _ _ (covers_sub hL (by decide)) ?_
    | with_reducible refine keep_updSeq _ _ (covers_sub hL (by decide)) ?_
    | split
    | with_reducible refine only_ite (fun _ => ?_) (fun _ => ?_)
    | dsimp -zeta +zetaDelta only

theorem keep_noteSeq {L : List Area} {u0 : State} (q : Fin 9) (code : Nat) (rail : Nat) {s : State} (hL : Covers [.sq] L) (h : Only L u0 s) :
    Only L u0 (noteSeq q code rail s) := by
  unfold noteSeq
  repeat' first
    | with_reducible exact h
    | with_reducible assumption
    | extract_lets
    | with_reducible refine keep_updSeq _ _ (covers_sub hL (by decide)) ?_

theorem keep_raiseSeq {L : List Area} {u0 : State} (e : Ev) (q : Fin 9) {s : State} (hL : Covers [.ev, .nut] L) (h : Only L u0 s) :
    Only L u0 (raiseSeq e q s) := by
  unfold raiseSeq
  repeat' first
    | with_reducible exact h
    | with_reducible assumption
    | extract_lets
    | with_reducible refine keep_raiseRye _ _ _ (covers_sub hL (by decide)) ?_

theorem keep_startList {L : List Area} {u0 : State} (q : Fin 9) (k : SeqList) (at_ : Nat) {s : State} (hL : Covers [.sq] L) (h : Only L u0 s) :
    Only L u0 (startList q k at_ s) := by
  unfold startList
  repeat' first
    | with_reducible exact h
    | with_reducible assumption
    | extract_lets
    | with_reducible refine keep_updSeq _ _ (covers_sub hL (by decide)) ?_
    | dsimp -zeta +zetaDelta only

theorem keep_startEmergency {L : List Area} {u0 : State} (q : Fin 9) (code : Nat) (rail : Nat) {s : State} (hL : Covers [.nums, .pow, .sq, .acc, .ev, .nut, .eng] L) (h : Only L u0 s) :
    Only L u0 (startEmergency q code rail s) := by
  unfold startEmergency
  repeat' first
    | with_reducible exact h
    | with_reducible assumption
    | extract_lets
    | with_reducible refine keep_countCode _ _ (covers_sub hL (by decide)) ?_
    | with_reducible refine keep_inc32 _ (covers_sub hL (by decide)) ?_
    | with_reducible refine keep_noteSeq _ _ _ (covers_sub hL (by decide)) ?_
    | with_reducible refine keep_raiseSeq _ _ (covers_sub hL (by decide)) ?_
    | with_reducible refine keep_ringTrigger _ (covers_sub hL (by decide)) ?_
    | with_reducible refine keep_setSeq _ _ (covers_sub hL (by decide)) ?_
    | with_reducible refine keep_startList _ _ _ (covers_sub hL (by decide)) ?_
    | with_reducible refine keep_updSeq _ _ (covers_sub hL (by decide)) ?_

theorem keep_undoEnd {L : List Area} {u0 : State} (a : Fin 8) {s : State} (hL : Covers [.br, .sq] L) (h : Only L u0 s) :
    Only L u0 (undoEnd a s) := by
  unfold undoEnd
  repeat' first
    | with_reducible exact h
    | with_reducible assumption
    | extract_lets
    | with_reducible refine keep_updBr _ _ (covers_sub hL (by decide)) ?_
    | with_reducible refine keep_updSeq _ _ (covers_sub hL (by decide)) ?_
    | split

theorem keep_trigger {L : List Area} {u0 : State} (a : Fin 8) (code : Nat) (rail : Nat) {s : State} (hL : Covers [.nums, .pow, .br, .sq, .acc, .ev, .nut, .eng] L) (h : Only L u0 s) :
    Only L u0 (trigger a code rail s) := by
  unfold trigger
  repeat' first
    | with_reducible exact h
    | with_reducible assumption
    | extract_lets
    | with_reducible refine keep_countCode _ _ (covers_sub hL (by decide)) ?_
    | with_reducible refine keep_dropDemand _ (covers_sub hL (by decide)) ?_
    | with_reducible refine keep_enterOffWait _ (covers_sub hL (by decide)) ?_
    | with_reducible refine keep_noteSeq _ _ _ (covers_sub hL (by decide)) ?_
    | with_reducible refine keep_raiseSeq _ _ (covers_sub hL (by decide)) ?_
    | with_reducible refine keep_startEmergency _ _ _ (covers_sub hL (by decide)) ?_
    | with_reducible refine keep_undoEnd _ (covers_sub hL (by decide)) ?_
    | split
    | with_reducible refine only_ite (fun _ => ?_) (fun _ => ?_)
    | dsimp -zeta +zetaDelta only

set_option tactic.hygienic false in
theorem keep_b0Lost {L : List Area} {u0 : State} {s : State} (hL : Covers [.nums, .pow, .br, .sq, .acc, .ev, .nut, .eng] L) (h : Only L u0 s) :
    Only L u0 (b0Lost s) := by
  unfold b0Lost
  repeat' first
    | with_reducible exact h
    | with_reducible assumption
    | extract_lets
    | with_reducible refine keep_moveBr _ _ _ (covers_sub hL (by decide)) ?_
    | with_reducible refine keep_raiseBr _ _ (covers_sub hL (by decide)) ?_
    | with_reducible refine keep_trigger _ _ _ (covers_sub hL (by decide)) ?_
    | with_reducible refine keep_updBr _ _ (covers_sub hL (by decide)) ?_
    | with_reducible refine only_forAll _ _ (fun _ _ _ => ?_) ?_
    | with_reducible refine only_forEach _ _ (fun _ _ _ => ?_) ?_
    | split
    | with_reducible refine only_ite (fun _ => ?_) (fun _ => ?_)
    | dsimp -zeta +zetaDelta only
    | unfold open1

theorem keep_startUp {L : List Area} {u0 : State} (q : Fin 9) {s : State} (hL : Covers [.nums, .sq, .acc] L) (h : Only L u0 s) :
    Only L u0 (startUp q s) := by
  unfold startUp
  repeat' first
    | with_reducible exact h
    | with_reducible assumption
    | extract_lets
    | with_reducible refine keep_inc32 _ (covers_sub hL (by decide)) ?_
    | with_reducible refine keep_setSeq _ _ (covers_sub hL (by decide)) ?_
    | with_reducible refine keep_startList _ _ _ (covers_sub hL (by decide)) ?_
    | with_reducible refine keep_updSeq _ _ (covers_sub hL (by decide)) ?_

theorem keep_selfUp {L : List Area} {u0 : State} {s : State} (hL : Covers [.nums, .sq, .acc] L) (h : Only L u0 s) :
    Only L u0 (selfUp s) := by
  unfold selfUp
  repeat' first
    | with_reducible exact h
    | with_reducible assumption
    | extract_lets
    | with_reducible refine keep_startUp _ (covers_sub hL (by decide)) ?_
    | with_reducible refine keep_updSeq _ _ (covers_sub hL (by decide)) ?_
    | split
    | with_reducible refine only_ite (fun _ => ?_) (fun _ => ?_)
    | dsimp -zeta +zetaDelta only

theorem keep_trayOn {L : List Area} {u0 : State} {s : State} (hL : Covers [.nums, .pow, .br, .sq, .acc] L) (h : Only L u0 s) :
    Only L u0 (trayOn s) := by
  unfold trayOn
  repeat' first
    | with_reducible exact h
    | with_reducible assumption
    | extract_lets
    | with_reducible refine keep_selfUp (covers_sub hL (by decide)) ?_
    | with_reducible refine keep_updBr _ _ (covers_sub hL (by decide)) ?_
    | with_reducible refine keep_updSeq _ _ (covers_sub hL (by decide)) ?_
    | with_reducible refine only_forEach _ _ (fun _ _ _ => ?_) ?_
    | with_reducible refine keep_mk_pow _ (covers_sub hL (by decide)) ?_
    | exact only_upd (by assumption) (fun a ha => by cases a <;> first | exact absurd (hL _ (by decide)) ha | rfl)
    | dsimp -zeta +zetaDelta only

theorem keep_afterB0 {L : List Area} {u0 : State} (old : BrState) (new : BrState) {s : State} (hL : Covers [.nums, .pow, .br, .sq, .acc, .ev, .nut, .eng] L) (h : Only L u0 s) :
    Only L u0 (afterB0 old new s) := by
  unfold afterB0
  repeat' first
    | with_reducible exact h
    | with_reducible assumption
    | extract_lets
    | with_reducible refine keep_b0Lost (covers_sub hL (by decide)) ?_
    | with_reducible refine keep_trayOn (covers_sub hL (by decide)) ?_
    | split
    | with_reducible refine only_ite (fun _ => ?_) (fun _ => ?_)

theorem keep_admitFailed {L : List Area} {u0 : State} (a : Fin 8) {s : State} (hL : Covers [.nums, .pow, .br, .sq, .acc, .ev, .nut, .eng] L) (h : Only L u0 s) :
    Only L u0 (admitFailed a s) := by
  unfold admitFailed
  repeat' first
    | with_reducible exact h
    | with_reducible assumption
    | extract_lets
    | with_reducible refine keep_countFault _ (covers_sub hL (by decide)) ?_
    | with_reducible refine keep_dropDemand _ (covers_sub hL (by decide)) ?_
    | with_reducible refine keep_enterOffWait _ (covers_sub hL (by decide)) ?_
    | with_reducible refine keep_noteSeq _ _ _ (covers_sub hL (by decide)) ?_
    | with_reducible refine keep_raiseSeq _ _ (covers_sub hL (by decide)) ?_
    | dsimp -zeta +zetaDelta only

theorem keep_seqHeld {L : List Area} {u0 : State} (a : Fin 8) {s : State} (hL : Covers [.sq, .acc] L) (h : Only L u0 s) :
    Only L u0 (seqHeld a s) := by
  unfold seqHeld
  repeat' first
    | with_reducible exact h
    | with_reducible assumption
    | extract_lets
    | with_reducible refine keep_noteSeq _ _ _ (covers_sub hL (by decide)) ?_
    | with_reducible refine keep_setSeq _ _ (covers_sub hL (by decide)) ?_
    | with_reducible refine keep_updSeq _ _ (covers_sub hL (by decide)) ?_
    | dsimp -zeta +zetaDelta only

theorem keep_seqUnheld {L : List Area} {u0 : State} (a : Fin 8) {s : State} (hL : Covers [.sq, .acc] L) (h : Only L u0 s) :
    Only L u0 (seqUnheld a s) := by
  unfold seqUnheld
  repeat' first
    | with_reducible exact h
    | with_reducible assumption
    | extract_lets
    | with_reducible refine keep_setSeq _ _ (covers_sub hL (by decide)) ?_
    | with_reducible refine keep_updSeq _ _ (covers_sub hL (by decide)) ?_
    | dsimp -zeta +zetaDelta only

theorem keep_seqAfterBr {L : List Area} {u0 : State} (b : Fin 12) (old : BrState) (new : BrState) {s : State} (hL : Covers [.nums, .pow, .br, .sq, .acc, .ev, .nut, .eng] L) (h : Only L u0 s) :
    Only L u0 (seqAfterBr b old new s) := by
  unfold seqAfterBr
  repeat' first
    | with_reducible exact h
    | with_reducible assumption
    | extract_lets
    | with_reducible refine keep_admitFailed _ (covers_sub hL (by decide)) ?_
    | with_reducible refine keep_seqHeld _ (covers_sub hL (by decide)) ?_
    | with_reducible refine keep_seqUnheld _ (covers_sub hL (by decide)) ?_
    | with_reducible refine keep_startEmergency _ _ _ (covers_sub hL (by decide)) ?_
    | with_reducible refine keep_startUp _ (covers_sub hL (by decide)) ?_
    | with_reducible refine keep_trigger _ _ _ (covers_sub hL (by decide)) ?_
    | split
    | with_reducible refine only_ite (fun _ => ?_) (fun _ => ?_)
    | dsimp -zeta +zetaDelta only

theorem keep_enterBr {L : List Area} {u0 : State} (b : Fin 12) (st : BrState) (gate : Gate) {s : State} (hL : Covers [.nums, .pow, .br, .sq, .acc, .ev, .nut, .eng] L) (h : Only L u0 s) :
    Only L u0 (enterBr b st gate s) := by
  unfold enterBr
  repeat' first
    | with_reducible exact h
    | with_reducible assumption
    | extract_lets
    | with_reducible refine keep_afterB0 _ _ (covers_sub hL (by decide)) ?_
    | with_reducible refine keep_moveBr _ _ _ (covers_sub hL (by decide)) ?_
    | with_reducible refine keep_seqAfterBr _ _ _ (covers_sub hL (by decide)) ?_
    | split
    | with_reducible refine only_ite (fun _ => ?_) (fun _ => ?_)
    | dsimp -zeta +zetaDelta only

theorem keep_offOrder {L : List Area} {u0 : State} (a : Fin 8) (code : Nat) {s : State} (hL : Covers [.nums, .br, .sq, .acc, .ev, .nut, .eng] L) (h : Only L u0 s) :
    Only L u0 (offOrder a code s) := by
  unfold offOrder
  repeat' first
    | with_reducible exact h
    | with_reducible assumption
    | extract_lets
    | with_reducible refine keep_dropDemand _ (covers_sub hL (by decide)) ?_
    | with_reducible refine keep_enterOffWait _ (covers_sub hL (by decide)) ?_
    | with_reducible refine keep_noteSeq _ _ _ (covers_sub hL (by decide)) ?_
    | with_reducible refine keep_raiseSeq _ _ (covers_sub hL (by decide)) ?_
    | with_reducible refine keep_setSeq _ _ (covers_sub hL (by decide)) ?_
    | with_reducible refine keep_startList _ _ _ (covers_sub hL (by decide)) ?_
    | with_reducible refine keep_updSeq _ _ (covers_sub hL (by decide)) ?_
    | split
    | dsimp -zeta +zetaDelta only

theorem keep_saveHealth {L : List Area} {u0 : State} (b : Fin 12) {s : State} (hL : Covers [.nums, .pow] L) (h : Only L u0 s) :
    Only L u0 (saveHealth b s) := by
  unfold saveHealth
  repeat' first
    | with_reducible exact h
    | with_reducible assumption
    | extract_lets
    | with_reducible refine keep_storeNum _ _ (covers_sub hL (by decide)) ?_

theorem keep_settleReq {L : List Area} {u0 : State} (a : Fin 8) {s : State} (hL : Covers [.nums, .br, .sq, .acc, .ev, .nut, .eng] L) (h : Only L u0 s) :
    Only L u0 (settleReq a s) := by
  unfold settleReq
  repeat' first
    | with_reducible exact h
    | with_reducible assumption
    | extract_lets
    | with_reducible refine keep_offOrder _ _ (covers_sub hL (by decide)) ?_
    | with_reducible refine keep_raiseRye _ _ _ (covers_sub hL (by decide)) ?_
    | with_reducible refine keep_updAcc _ _ (covers_sub hL (by decide)) ?_
    | split
    | with_reducible refine only_ite (fun _ => ?_) (fun _ => ?_)
    | dsimp -zeta +zetaDelta only

theorem keep_selfDown {L : List Area} {u0 : State} (why : Nat) (kept : Bool) {s : State} (hL : Covers [.nums, .clk, .sq, .acc, .heat, .part, .ev, .nut, .oda, .port, .eng, .img, .ani, .mem, .bar, .cardamom] L) (h : Only L u0 s) :
    Only L u0 (selfDown why kept s) := by
  unfold selfDown
  repeat' first
    | with_reducible exact h
    | with_reducible assumption
    | extract_lets
    | with_reducible refine keep_mainDown _ (covers_sub hL (by decide)) ?_
    | with_reducible refine keep_setSeq _ _ (covers_sub hL (by decide)) ?_
    | with_reducible refine keep_startList _ _ _ (covers_sub hL (by decide)) ?_
    | with_reducible refine keep_updSeq _ _ (covers_sub hL (by decide)) ?_
    | split
    | with_reducible refine only_ite (fun _ => ?_) (fun _ => ?_)
    | dsimp -zeta +zetaDelta only

theorem keep_withdrawAdmit {L : List Area} {u0 : State} (a : Fin 8) {s : State} (hL : Covers [.nums, .br, .sq, .acc, .eng] L) (h : Only L u0 s) :
    Only L u0 (withdrawAdmit a s) := by
  unfold withdrawAdmit
  repeat' first
    | with_reducible exact h
    | with_reducible assumption
    | extract_lets
    | with_reducible refine keep_dropDemand _ (covers_sub hL (by decide)) ?_
    | with_reducible refine keep_setSeq _ _ (covers_sub hL (by decide)) ?_
    | with_reducible refine keep_updSeq _ _ (covers_sub hL (by decide)) ?_
    | split
    | with_reducible refine only_ite (fun _ => ?_) (fun _ => ?_)

theorem keep_enterSafe {L : List Area} {u0 : State} (c : SafeCause) {s : State} (hL : Covers [.nums, .br, .sq, .acc, .part, .ev, .nut, .port, .eng, .ani, .bar] L) (h : Only L u0 s) :
    Only L u0 (enterSafe c s) := by
  unfold enterSafe
  repeat' first
    | with_reducible exact h
    | with_reducible assumption
    | extract_lets
    | with_reducible refine keep_abandonTick (covers_sub hL (by decide)) ?_
    | with_reducible refine keep_enterPart _ (covers_sub hL (by decide)) ?_
    | with_reducible refine keep_raiseRye _ _ _ (covers_sub hL (by decide)) ?_
    | with_reducible refine keep_updateLost (covers_sub hL (by decide)) ?_
    | with_reducible refine keep_withdrawAdmit _ (covers_sub hL (by decide)) ?_
    | with_reducible refine only_forAll _ _ (fun _ _ _ => ?_) ?_
    | split
    | with_reducible refine only_ite (fun _ => ?_) (fun _ => ?_)
    | with_reducible refine keep_mk_part _ (covers_sub hL (by decide)) ?_
    | exact only_upd (by assumption) (fun a ha => by cases a <;> first | exact absurd (hL _ (by decide)) ha | rfl)
    | dsimp -zeta +zetaDelta only

theorem keep_noteLatch {L : List Area} {u0 : State} (b : Fin 12) (c : BrCause) {s : State} (hL : Covers [.br] L) (h : Only L u0 s) :
    Only L u0 (noteLatch b c s) := by
  unfold noteLatch
  repeat' first
    | with_reducible exact h
    | with_reducible assumption
    | extract_lets
    | with_reducible refine keep_updBr _ _ (covers_sub hL (by decide)) ?_
    | split
    | with_reducible refine only_ite (fun _ => ?_) (fun _ => ?_)
    | dsimp -zeta +zetaDelta only

theorem keep_latchBr {L : List Area} {u0 : State} (b : Fin 12) (c : BrCause) (at_ : BrState → Bool) {s : State} (hL : Covers [.nums, .pow, .br, .sq, .acc, .ev, .nut, .eng] L) (h : Only L u0 s) :
    Only L u0 (latchBr b c at_ s) := by
  unfold latchBr
  repeat' first
    | with_reducible exact h
    | with_reducible assumption
    | extract_lets
    | with_reducible refine keep_enterBr _ _ _ (covers_sub hL (by decide)) ?_
    | with_reducible refine keep_noteLatch _ _ (covers_sub hL (by decide)) ?_
    | with_reducible refine keep_updBr _ _ (covers_sub hL (by decide)) ?_
    | split
    | with_reducible refine only_ite (fun _ => ?_) (fun _ => ?_)
    | dsimp -zeta +zetaDelta only

theorem keep_countSelf {L : List Area} {u0 : State} (code : Nat) (rail : Nat) {s : State} (hL : Covers [.sq] L) (h : Only L u0 s) :
    Only L u0 (countSelf code rail s) := by
  unfold countSelf
  repeat' first
    | with_reducible exact h
    | with_reducible assumption
    | extract_lets
    | with_reducible refine keep_noteSeq _ _ _ (covers_sub hL (by decide)) ?_
    | with_reducible refine keep_updSeq _ _ (covers_sub hL (by decide)) ?_
    | split
    | with_reducible refine only_ite (fun _ => ?_) (fun _ => ?_)
    | dsimp -zeta +zetaDelta only

theorem keep_selfFault {L : List Area} {u0 : State} (code : Nat) (rail : Nat) {s : State} (hL : Covers [.nums, .clk, .sq, .acc, .heat, .part, .ev, .nut, .oda, .port, .eng, .img, .ani, .mem, .bar, .cardamom] L) (h : Only L u0 s) :
    Only L u0 (selfFault code rail s) := by
  unfold selfFault
  repeat' first
    | with_reducible exact h
    | with_reducible assumption
    | extract_lets
    | with_reducible refine keep_countSelf _ _ (covers_sub hL (by decide)) ?_
    | with_reducible refine keep_raiseSeq _ _ (covers_sub hL (by decide)) ?_
    | with_reducible refine keep_selfDown _ _ (covers_sub hL (by decide)) ?_
    | split
    | with_reducible refine only_ite (fun _ => ?_) (fun _ => ?_)
    | dsimp -zeta +zetaDelta only

theorem keep_raiseRail {L : List Area} {u0 : State} (e : Ev) (q : Fin 9) (r : Fin 16) {s : State} (hL : Covers [.ev, .nut] L) (h : Only L u0 s) :
    Only L u0 (raiseRail e q r s) := by
  unfold raiseRail
  repeat' first
    | with_reducible exact h
    | with_reducible assumption
    | extract_lets
    | with_reducible refine keep_raiseRye _ _ _ (covers_sub hL (by decide)) ?_

theorem keep_startCopy {L : List Area} {u0 : State} {s : State} (hL : Covers [.clk, .free] L) (h : Only L u0 s) :
    Only L u0 (startCopy s) := by
  unfold startCopy
  repeat' first
    | with_reducible exact h
    | with_reducible assumption
    | extract_lets
    | with_reducible refine keep_setClk _ (covers_sub hL (by decide)) ?_
    | with_reducible refine keep_takeFree _ (covers_sub hL (by decide)) ?_
    | with_reducible refine keep_takeFree_eq (by assumption) (covers_sub hL (by decide)) ?_
    | split
    | dsimp -zeta +zetaDelta only

theorem keep_releaseMain {L : List Area} {u0 : State} {s : State} (hL : Covers [.nums, .blobs, .clk, .heat, .part, .ev, .nut, .port, .img, .cardamom, .free] L) (h : Only L u0 s) :
    Only L u0 (releaseMain s) := by
  unfold releaseMain
  repeat' first
    | with_reducible exact h
    | with_reducible assumption
    | extract_lets
    | with_reducible refine keep_clearMeas (covers_sub hL (by decide)) ?_
    | with_reducible refine keep_enterPart _ (covers_sub hL (by decide)) ?_
    | with_reducible refine keep_startCopy (covers_sub hL (by decide)) ?_
    | with_reducible refine keep_volatileReset (covers_sub hL (by decide)) ?_
    | split
    | with_reducible refine only_ite (fun _ => ?_) (fun _ => ?_)
    | with_reducible refine keep_mk_heat _ (covers_sub hL (by decide)) ?_
    | with_reducible refine keep_mk_img _ (covers_sub hL (by decide)) ?_
    | with_reducible refine keep_mk_part _ (covers_sub hL (by decide)) ?_
    | exact only_upd (by assumption) (fun a ha => by cases a <;> first | exact absurd (hL _ (by decide)) ha | rfl)
    | dsimp -zeta +zetaDelta only

theorem keep_escalate {L : List Area} {u0 : State} (b : Fin 12) {s : State} (hL : Covers [.nums, .pow, .br, .sq, .acc, .ev, .nut, .eng] L) (h : Only L u0 s) :
    Only L u0 (escalate b s) := by
  unfold escalate
  repeat' first
    | with_reducible exact h
    | with_reducible assumption
    | extract_lets
    | with_reducible refine keep_latchBr _ _ _ (covers_sub hL (by decide)) ?_
    | with_reducible refine keep_raiseBr _ _ (covers_sub hL (by decide)) ?_
    | with_reducible refine only_forAll _ _ (fun _ _ _ => ?_) ?_
    | split
    | with_reducible refine only_ite (fun _ => ?_) (fun _ => ?_)
    | dsimp -zeta +zetaDelta only

end Sys2Proof.Laws
end

