-- ==== Sys2Proof/Laws/FrameBranch.lean ====
section
/-! SUPPORT. What the operations of Machine/Branch.lean may change: an operation keeps a frame that allows the parts it lists. -/
namespace Sys2Proof.Laws

open Sys2Proof.Machine

theorem keep_applyDw {L : List Area} {u0 : State} (r : Dw440) {s : State} (hL : Covers [.nums, .pow] L) (h : Only L u0 s) :
    Only L u0 (applyDw r s) := by
  unfold applyDw
  repeat' first
    | with_reducible exact h
    | with_reducible assumption
    | extract_lets
    | with_reducible refine keep_storeNum _ _ (covers_sub hL (by decide)) ?_
    | split
    | with_reducible refine only_ite (fun _ => ?_) (fun _ => ?_)
    | dsimp -zeta +zetaDelta only

theorem keep_notePump {L : List Area} {u0 : State} {s : State} (hL : Covers [.pow] L) (h : Only L u0 s) :
    Only L u0 (notePump s) := by
  unfold notePump
  repeat' first
    | with_reducible exact h
    | with_reducible assumption
    | extract_lets
    | split
    | with_reducible refine only_ite (fun _ => ?_) (fun _ => ?_)
    | with_reducible refine keep_mk_pow _ (covers_sub hL (by decide)) ?_
    | exact only_upd (by assumption) (fun a ha => by cases a <;> first | exact absurd (hL _ (by decide)) ha | rfl)

theorem keep_disableEffect {L : List Area} {u0 : State} (b : Fin 12) (z1 : Count) {s : State} (hL : Covers [.nums, .pow, .br, .sq, .acc, .ev, .nut, .eng] L) (h : Only L u0 s) :
    Only L u0 (disableEffect b z1 s) := by
  unfold disableEffect
  repeat' first
    | with_reducible exact h
    | with_reducible assumption
    | extract_lets
    | with_reducible refine keep_enterBr _ _ _ (covers_sub hL (by decide)) ?_
    | with_reducible refine keep_notePump (covers_sub hL (by decide)) ?_
    | with_reducible refine keep_offOrder _ _ (covers_sub hL (by decide)) ?_
    | with_reducible refine keep_storeNum _ _ (covers_sub hL (by decide)) ?_
    | with_reducible refine keep_updBr _ _ (covers_sub hL (by decide)) ?_
    | split
    | with_reducible refine only_ite (fun _ => ?_) (fun _ => ?_)
    | dsimp -zeta +zetaDelta only

theorem keep_clearLatch {L : List Area} {u0 : State} (b : Fin 12) {s : State} (hL : Covers [.nums, .pow, .br, .sq, .acc, .ev, .nut, .eng] L) (h : Only L u0 s) :
    Only L u0 (clearLatch b s) := by
  unfold clearLatch
  repeat' first
    | with_reducible exact h
    | with_reducible assumption
    | extract_lets
    | with_reducible refine keep_enterBr _ _ _ (covers_sub hL (by decide)) ?_
    | with_reducible refine keep_saveHealth _ (covers_sub hL (by decide)) ?_
    | with_reducible refine keep_updBr _ _ (covers_sub hL (by decide)) ?_
    | split
    | with_reducible refine only_ite (fun _ => ?_) (fun _ => ?_)
    | dsimp -zeta +zetaDelta only

theorem keep_toggle {L : List Area} {u0 : State} (b : Fin 12) {s : State} (hL : Covers [.nums, .pow, .br, .sq, .acc, .ev, .nut, .eng] L) (h : Only L u0 s) :
    Only L u0 (toggle b s) := by
  unfold toggle
  repeat' first
    | with_reducible exact h
    | with_reducible assumption
    | extract_lets
    | with_reducible refine keep_clearLatch _ (covers_sub hL (by decide)) ?_
    | split
    | with_reducible refine only_ite (fun _ => ?_) (fun _ => ?_)

theorem keep_enableEffect {L : List Area} {u0 : State} (b : Fin 12) (z1 : Count) {s : State} (hL : Covers [.nums, .pow, .br, .sq, .acc, .ev, .nut, .eng] L) (h : Only L u0 s) :
    Only L u0 (enableEffect b z1 s) := by
  unfold enableEffect
  repeat' first
    | with_reducible exact h
    | with_reducible assumption
    | extract_lets
    | with_reducible refine keep_notePump (covers_sub hL (by decide)) ?_
    | with_reducible refine keep_storeNum _ _ (covers_sub hL (by decide)) ?_
    | with_reducible refine keep_toggle _ (covers_sub hL (by decide)) ?_
    | with_reducible refine keep_updBr _ _ (covers_sub hL (by decide)) ?_
    | split
    | with_reducible refine only_ite (fun _ => ?_) (fun _ => ?_)
    | dsimp -zeta +zetaDelta only

theorem keep_fetClearEffect {L : List Area} {u0 : State} (b : Fin 12) (z1 : Count) {s : State} (hL : Covers [.nums, .pow, .br] L) (h : Only L u0 s) :
    Only L u0 (fetClearEffect b z1 s) := by
  unfold fetClearEffect
  repeat' first
    | with_reducible exact h
    | with_reducible assumption
    | extract_lets
    | with_reducible refine keep_notePump (covers_sub hL (by decide)) ?_
    | with_reducible refine keep_saveHealth _ (covers_sub hL (by decide)) ?_
    | with_reducible refine keep_updBr _ _ (covers_sub hL (by decide)) ?_
    | split
    | with_reducible refine only_ite (fun _ => ?_) (fun _ => ?_)

theorem keep_startOffsetEffect {L : List Area} {u0 : State} (b : Fin 12) {s : State} (hL : Covers [.nums, .pow, .br, .sq, .acc, .ev, .nut, .eng] L) (h : Only L u0 s) :
    Only L u0 (startOffsetEffect b s) := by
  unfold startOffsetEffect
  repeat' first
    | with_reducible exact h
    | with_reducible assumption
    | extract_lets
    | with_reducible refine keep_enterBr _ _ _ (covers_sub hL (by decide)) ?_
    | with_reducible refine keep_updBr _ _ (covers_sub hL (by decide)) ?_
    | split
    | with_reducible refine only_ite (fun _ => ?_) (fun _ => ?_)
    | dsimp -zeta +zetaDelta only

theorem keep_stands {L : List Area} {u0 : State} (at_ : Nat) (n : Nat) {s : State} (hL : Covers [.clk] L) (h : Only L u0 s) :
    Only L u0 (stands at_ n s) := by
  unfold stands
  repeat' first
    | with_reducible exact h
    | with_reducible assumption
    | extract_lets
    | with_reducible refine keep_tickTo _ (covers_sub hL (by decide)) ?_

theorem keep_standsFrom {L : List Area} {u0 : State} (at_ : Option Nat) (n : Nat) {s : State} (hL : Covers [.clk] L) (h : Only L u0 s) :
    Only L u0 (standsFrom at_ n s) := by
  unfold standsFrom
  repeat' first
    | with_reducible exact h
    | with_reducible assumption
    | extract_lets
    | with_reducible refine keep_stands _ _ (covers_sub hL (by decide)) ?_

theorem keep_tickInrush {L : List Area} {u0 : State} (b : Fin 12) {s : State} (hL : Covers [.clk] L) (h : Only L u0 s) :
    Only L u0 (tickInrush b s) := by
  unfold tickInrush
  repeat' first
    | with_reducible exact h
    | with_reducible assumption
    | extract_lets
    | with_reducible refine keep_tickTo _ (covers_sub hL (by decide)) ?_
    | split
    | with_reducible refine only_ite (fun _ => ?_) (fun _ => ?_)
    | dsimp -zeta +zetaDelta only

theorem keep_gateFailed {L : List Area} {u0 : State} (b : Fin 12) {s : State} (hL : Covers [.nums, .pow, .br, .sq, .acc, .ev, .nut, .eng] L) (h : Only L u0 s) :
    Only L u0 (gateFailed b s) := by
  unfold gateFailed
  repeat' first
    | with_reducible exact h
    | with_reducible assumption
    | extract_lets
    | with_reducible refine keep_enterBr _ _ _ (covers_sub hL (by decide)) ?_
    | with_reducible refine keep_inc32 _ (covers_sub hL (by decide)) ?_
    | with_reducible refine keep_raiseBr _ _ (covers_sub hL (by decide)) ?_
    | with_reducible refine keep_saveHealth _ (covers_sub hL (by decide)) ?_
    | with_reducible refine keep_updBr _ _ (covers_sub hL (by decide)) ?_

theorem keep_fracOne {L : List Area} {u0 : State} (b : Fin 12) (cur : Rat) {s : State} (hL : Covers [.br, .ev, .nut] L) (h : Only L u0 s) :
    Only L u0 (fracOne b cur s) := by
  unfold fracOne
  repeat' first
    | with_reducible exact h
    | with_reducible assumption
    | extract_lets
    | with_reducible refine keep_raiseBr _ _ (covers_sub hL (by decide)) ?_
    | with_reducible refine keep_updBr _ _ (covers_sub hL (by decide)) ?_
    | split
    | with_reducible refine only_ite (fun _ => ?_) (fun _ => ?_)
    | dsimp -zeta +zetaDelta only

theorem keep_curveTrip {L : List Area} {u0 : State} (b : Fin 12) {s : State} (hL : Covers [.nums, .pow, .br, .sq, .acc, .ev, .nut, .eng] L) (h : Only L u0 s) :
    Only L u0 (curveTrip b s) := by
  unfold curveTrip
  repeat' first
    | with_reducible exact h
    | with_reducible assumption
    | extract_lets
    | with_reducible refine keep_inc32 _ (covers_sub hL (by decide)) ?_
    | with_reducible refine keep_latchBr _ _ _ (covers_sub hL (by decide)) ?_
    | with_reducible refine keep_raiseBr _ _ (covers_sub hL (by decide)) ?_

theorem keep_tRef {L : List Area} {u0 : State} (b : Fin 12) {s : State} (hL : Covers [.free] L) (h : Only L u0 s) :
    Only L u0 (tRef b s).2 := by
  unfold tRef
  repeat' first
    | with_reducible exact h
    | with_reducible assumption
    | extract_lets
    | with_reducible refine keep_takeFree _ (covers_sub hL (by decide)) ?_
    | with_reducible refine keep_takeFree_eq (by assumption) (covers_sub hL (by decide)) ?_
    | split
    | with_reducible refine only_ite (fun _ => ?_) (fun _ => ?_)
    | dsimp -zeta only
    | dsimp -zeta +zetaDelta only

theorem keep_tRef_eq {L : List Area} {u0 : State} {b : Fin 12} {s : State} {r : _} {t : State} (e : tRef b s = (r, t)) (hL : Covers [.free] L) (h : Only L u0 s) :
    Only L u0 t := by
  have k := keep_tRef b hL h
  rw [e] at k
  exact k

theorem keep_fosterOne {L : List Area} {u0 : State} (b : Fin 12) (vin : Rat) (vout : Rat) (sense : Rat) {s0 : State} (hL : Covers [.nums, .br, .free] L) (h : Only L u0 s0) :
    Only L u0 (fosterOne b vin vout sense s0) := by
  unfold fosterOne
  repeat' first
    | with_reducible exact h
    | with_reducible assumption
    | extract_lets
    | with_reducible refine keep_advInrush _ (covers_sub hL (by decide)) ?_
    | with_reducible refine keep_maxF32 _ _ (covers_sub hL (by decide)) ?_
    | with_reducible refine keep_tRef _ (covers_sub hL (by decide)) ?_
    | with_reducible refine keep_tRef_eq (by assumption) (covers_sub hL (by decide)) ?_
    | with_reducible refine keep_updBr _ _ (covers_sub hL (by decide)) ?_
    | split
    | with_reducible refine only_ite (fun _ => ?_) (fun _ => ?_)
    | dsimp -zeta +zetaDelta only

theorem keep_judgeSensor {L : List Area} {u0 : State} (b : Fin 12) {s : State} (hL : Covers [.nums, .pow, .br, .sq, .acc, .ev, .nut, .eng] L) (h : Only L u0 s) :
    Only L u0 (judgeSensor b s) := by
  unfold judgeSensor
  repeat' first
    | with_reducible exact h
    | with_reducible assumption
    | extract_lets
    | with_reducible refine keep_latchBr _ _ _ (covers_sub hL (by decide)) ?_
    | with_reducible refine keep_raiseBr _ _ (covers_sub hL (by decide)) ?_
    | split
    | with_reducible refine only_ite (fun _ => ?_) (fun _ => ?_)

theorem keep_noteTray {L : List Area} {u0 : State} (vin : List Rat) {s : State} (hL : Covers [.pow] L) (h : Only L u0 s) :
    Only L u0 (noteTray vin s) := by
  unfold noteTray
  repeat' first
    | with_reducible exact h
    | with_reducible assumption
    | extract_lets
    | split
    | with_reducible refine only_ite (fun _ => ?_) (fun _ => ?_)
    | with_reducible refine keep_mk_pow _ (covers_sub hL (by decide)) ?_
    | exact only_upd (by assumption) (fun a ha => by cases a <;> first | exact absurd (hL _ (by decide)) ha | rfl)
    | dsimp -zeta +zetaDelta only

theorem keep_countInsertion {L : List Area} {u0 : State} (a : Fin 8) {s : State} (hL : Covers [.nums, .nut] L) (h : Only L u0 s) :
    Only L u0 (countInsertion a s) := by
  unfold countInsertion
  repeat' first
    | with_reducible exact h
    | with_reducible assumption
    | extract_lets
    | with_reducible refine keep_inc32 _ (covers_sub hL (by decide)) ?_
    | with_reducible refine keep_setN _ _ (covers_sub hL (by decide)) ?_
    | with_reducible refine keep_mk_nut _ (covers_sub hL (by decide)) ?_
    | exact only_upd (by assumption) (fun a ha => by cases a <;> first | exact absurd (hL _ (by decide)) ha | rfl)
    | dsimp -zeta +zetaDelta only

end Sys2Proof.Laws
end

