-- ==== Sys2Proof/Laws/FrameRecorder.lean ====
section
/-! SUPPORT. What the operations of Machine/Recorder.lean may change: an operation keeps a frame that allows the parts it lists. -/
namespace Sys2Proof.Laws

open Sys2Proof.Machine

theorem keep_setNut {L : List Area} {u0 : State} (f : Nutmeg → Nutmeg) {s : State} (hL : Covers [.nut] L) (h : Only L u0 s) :
    Only L u0 (setNut f s) := by
  unfold setNut
  repeat' first
    | with_reducible exact h
    | with_reducible assumption
    | extract_lets
    | with_reducible refine keep_mk_nut _ (covers_sub hL (by decide)) ?_
    | exact only_upd (by assumption) (fun a ha => by cases a <;> first | exact absurd (hL _ (by decide)) ha | rfl)

theorem keep_startFull {L : List Area} {u0 : State} {s : State} (hL : Covers [.nums, .blobs, .nut] L) (h : Only L u0 s) :
    Only L u0 (startFull s) := by
  unfold startFull
  repeat' first
    | with_reducible exact h
    | with_reducible assumption
    | extract_lets
    | with_reducible refine keep_setN _ _ (covers_sub hL (by decide)) ?_
    | with_reducible refine keep_setNut _ (covers_sub hL (by decide)) ?_
    | split
    | dsimp -zeta +zetaDelta only

theorem keep_clearRecorder {L : List Area} {u0 : State} (z0 : Count) {s : State} (hL : Covers [.nums, .blobs, .nut] L) (h : Only L u0 s) :
    Only L u0 (clearRecorder z0 s) := by
  unfold clearRecorder
  repeat' first
    | with_reducible exact h
    | with_reducible assumption
    | extract_lets
    | with_reducible refine keep_inc32 _ (covers_sub hL (by decide)) ?_
    | with_reducible refine keep_startFull (covers_sub hL (by decide)) ?_
    | with_reducible refine only_foldl _ _ (fun _ _ _ => ?_) ?_
    | split
    | with_reducible refine only_ite (fun _ => ?_) (fun _ => ?_)
    | with_reducible refine keep_mk_nut _ (covers_sub hL (by decide)) ?_
    | exact only_upd (by assumption) (fun a ha => by cases a <;> first | exact absurd (hL _ (by decide)) ha | rfl)
    | dsimp -zeta +zetaDelta only

theorem keep_peSerialEffect {L : List Area} {u0 : State} (b : Fin 12) (bytes : List Byte) (z2 : Count) {s : State} (hL : Covers [.nums, .blobs, .ev, .nut] L) (h : Only L u0 s) :
    Only L u0 (peSerialEffect b bytes z2 s) := by
  unfold peSerialEffect
  repeat' first
    | with_reducible exact h
    | with_reducible assumption
    | extract_lets
    | with_reducible refine keep_raiseRye _ _ _ (covers_sub hL (by decide)) ?_
    | with_reducible refine keep_setBlob _ _ (covers_sub hL (by decide)) ?_
    | with_reducible refine keep_setN _ _ (covers_sub hL (by decide)) ?_
    | dsimp -zeta +zetaDelta only

theorem keep_appendLife {L : List Area} {u0 : State} (k : Nat) {s : State} (hL : Covers [.nums, .blobs, .nut] L) (h : Only L u0 s) :
    Only L u0 (appendLife k s) := by
  unfold appendLife
  repeat' first
    | with_reducible exact h
    | with_reducible assumption
    | extract_lets
    | with_reducible refine keep_setNut _ (covers_sub hL (by decide)) ?_
    | dsimp -zeta +zetaDelta only

theorem keep_restoreNut {L : List Area} {u0 : State} {s : State} (hL : Covers [.nums, .blobs, .clk, .ev, .nut, .rep] L) (h : Only L u0 s) :
    Only L u0 (restoreNut s) := by
  unfold restoreNut
  repeat' first
    | with_reducible exact h
    | with_reducible assumption
    | extract_lets
    | with_reducible refine keep_appendLife _ (covers_sub hL (by decide)) ?_
    | with_reducible refine keep_inc32 _ (covers_sub hL (by decide)) ?_
    | with_reducible refine keep_raiseRye _ _ _ (covers_sub hL (by decide)) ?_
    | with_reducible refine keep_setNut _ (covers_sub hL (by decide)) ?_
    | split
    | with_reducible refine only_ite (fun _ => ?_) (fun _ => ?_)
    | with_reducible refine keep_mk_blobs _ (covers_sub hL (by decide)) ?_
    | with_reducible refine keep_mk_clk _ (covers_sub hL (by decide)) ?_
    | with_reducible refine keep_mk_ev _ (covers_sub hL (by decide)) ?_
    | with_reducible refine keep_mk_nums _ (covers_sub hL (by decide)) ?_
    | with_reducible refine keep_mk_nut _ (covers_sub hL (by decide)) ?_
    | with_reducible refine keep_mk_rep _ (covers_sub hL (by decide)) ?_
    | exact only_upd (by assumption) (fun a ha => by cases a <;> first | exact absurd (hL _ (by decide)) ha | rfl)
    | dsimp -zeta +zetaDelta only

theorem keep_startLoss {L : List Area} {u0 : State} {s : State} (hL : Covers [.nums, .blobs, .nut] L) (h : Only L u0 s) :
    Only L u0 (startLoss s) := by
  unfold startLoss
  repeat' first
    | with_reducible exact h
    | with_reducible assumption
    | extract_lets
    | with_reducible refine keep_appendLife _ (covers_sub hL (by decide)) ?_
    | with_reducible refine keep_setNut _ (covers_sub hL (by decide)) ?_
    | split
    | dsimp -zeta +zetaDelta only

theorem keep_appendRec {L : List Area} {u0 : State} (k : Nat) (code : Nat) {s : State} (hL : Covers [.nut] L) (h : Only L u0 s) :
    Only L u0 (appendRec k code s) := by
  unfold appendRec
  repeat' first
    | with_reducible exact h
    | with_reducible assumption
    | extract_lets
    | with_reducible refine keep_setNut _ (covers_sub hL (by decide)) ?_

theorem keep_endLoss {L : List Area} {u0 : State} (written : Nat) {s : State} (hL : Covers [.nums, .nut] L) (h : Only L u0 s) :
    Only L u0 (endLoss written s) := by
  unfold endLoss
  repeat' first
    | with_reducible exact h
    | with_reducible assumption
    | extract_lets
    | with_reducible refine keep_appendRec _ _ (covers_sub hL (by decide)) ?_
    | with_reducible refine keep_setN _ _ (covers_sub hL (by decide)) ?_
    | with_reducible refine keep_setNut _ (covers_sub hL (by decide)) ?_
    | with_reducible refine only_forEach _ _ (fun _ _ _ => ?_) ?_
    | split
    | dsimp -zeta +zetaDelta only

theorem keep_onSecond {L : List Area} {u0 : State} (a : Fin 8) {s : State} (hL : Covers [.nums, .nut] L) (h : Only L u0 s) :
    Only L u0 (onSecond a s) := by
  unfold onSecond
  repeat' first
    | with_reducible exact h
    | with_reducible assumption
    | extract_lets
    | with_reducible refine keep_inc32 _ (covers_sub hL (by decide)) ?_
    | with_reducible refine keep_setN _ _ (covers_sub hL (by decide)) ?_
    | with_reducible refine keep_setNut _ (covers_sub hL (by decide)) ?_
    | split
    | with_reducible refine only_ite (fun _ => ?_) (fun _ => ?_)
    | dsimp -zeta +zetaDelta only

theorem keep_branchSecond {L : List Area} {u0 : State} (b : Fin 12) {s : State} (hL : Covers [.nums] L) (h : Only L u0 s) :
    Only L u0 (branchSecond b s) := by
  unfold branchSecond
  repeat' first
    | with_reducible exact h
    | with_reducible assumption
    | extract_lets
    | with_reducible refine keep_inc32 _ (covers_sub hL (by decide)) ?_
    | split
    | with_reducible refine only_ite (fun _ => ?_) (fun _ => ?_)

theorem keep_newSerial {L : List Area} {u0 : State} (a : Fin 8) (serial : List Byte) {s : State} (hL : Covers [.nums, .blobs, .ev, .nut] L) (h : Only L u0 s) :
    Only L u0 (newSerial a serial s) := by
  unfold newSerial
  repeat' first
    | with_reducible exact h
    | with_reducible assumption
    | extract_lets
    | with_reducible refine keep_raiseRye _ _ _ (covers_sub hL (by decide)) ?_
    | with_reducible refine keep_setBlob _ _ (covers_sub hL (by decide)) ?_
    | with_reducible refine keep_setN _ _ (covers_sub hL (by decide)) ?_
    | split
    | with_reducible refine only_ite (fun _ => ?_) (fun _ => ?_)
    | dsimp -zeta +zetaDelta only

end Sys2Proof.Laws
end

