-- ==== Sys2Proof/Laws/FrameReport.lean ====
section
/-! SUPPORT. What the operations of Machine/Report.lean may change: an operation keeps a frame that allows the parts it lists. -/
namespace Sys2Proof.Laws

open Sys2Proof.Machine

theorem keep_peakReset {L : List Area} {u0 : State} (z0 : Count) {s : State} (hL : Covers [.nums, .rep] L) (h : Only L u0 s) :
    Only L u0 (peakReset z0 s) := by
  unfold peakReset
  repeat' first
    | with_reducible exact h
    | with_reducible assumption
    | extract_lets
    | with_reducible refine keep_setN _ _ (covers_sub hL (by decide)) ?_
    | with_reducible refine keep_updRep _ _ (covers_sub hL (by decide)) ?_
    | with_reducible refine only_forAll _ _ (fun _ _ _ => ?_) ?_
    | split
    | with_reducible refine only_ite (fun _ => ?_) (fun _ => ?_)
    | dsimp -zeta +zetaDelta only

end Sys2Proof.Laws
end

