-- ==== Sys2Proof/Laws/FramePower.lean ====
section
/-! SUPPORT. What the operations of Machine/Power.lean may change: an operation keeps a frame that allows the parts it lists. -/
namespace Sys2Proof.Laws

open Sys2Proof.Machine

theorem keep_setPow {L : List Area} {u0 : State} (f : Power → Power) {s : State} (hL : Covers [.pow] L) (h : Only L u0 s) :
    Only L u0 (setPow f s) := by
  unfold setPow
  repeat' first
    | with_reducible exact h
    | with_reducible assumption
    | extract_lets
    | with_reducible refine keep_mk_pow _ (covers_sub hL (by decide)) ?_
    | exact only_upd (by assumption) (fun a ha => by cases a <;> first | exact absurd (hL _ (by decide)) ha | rfl)

theorem keep_loadCopy {L : List Area} {u0 : State} (c : Option NorCopy) {s : State} (hL : Covers [.nums, .blobs] L) (h : Only L u0 s) :
    Only L u0 (loadCopy c s) := by
  unfold loadCopy
  repeat' first
    | with_reducible exact h
    | with_reducible assumption
    | extract_lets
    | split
    | with_reducible refine keep_mk_blobs _ (covers_sub hL (by decide)) ?_
    | with_reducible refine keep_mk_nums _ (covers_sub hL (by decide)) ?_
    | exact only_upd (by assumption) (fun a ha => by cases a <;> first | exact absurd (hL _ (by decide)) ha | rfl)

theorem keep_loadRcb {L : List Area} {u0 : State} {s : State} (hL : Covers [.nums, .blobs, .pow, .ev, .nut] L) (h : Only L u0 s) :
    Only L u0 (loadRcb s) := by
  unfold loadRcb
  repeat' first
    | with_reducible exact h
    | with_reducible assumption
    | extract_lets
    | with_reducible refine keep_loadCopy _ (covers_sub hL (by decide)) ?_
    | with_reducible refine keep_raiseRye _ _ _ (covers_sub hL (by decide)) ?_
    | with_reducible refine keep_setPow _ (covers_sub hL (by decide)) ?_
    | split

theorem keep_startBr {L : List Area} {u0 : State} (seated : Nat) (enabled : Nat) (b : Fin 12) {s : State} (hL : Covers [.br] L) (h : Only L u0 s) :
    Only L u0 (startBr seated enabled b s) := by
  unfold startBr
  repeat' first
    | with_reducible exact h
    | with_reducible assumption
    | extract_lets
    | with_reducible refine keep_updBr _ _ (covers_sub hL (by decide)) ?_
    | split
    | with_reducible refine only_ite (fun _ => ?_) (fun _ => ?_)
    | dsimp -zeta +zetaDelta only

theorem keep_startAccel {L : List Area} {u0 : State} (thermtrip : Nat) (a : Fin 8) {s : State} (hL : Covers [.sq, .acc] L) (h : Only L u0 s) :
    Only L u0 (startAccel thermtrip a s) := by
  unfold startAccel
  repeat' first
    | with_reducible exact h
    | with_reducible assumption
    | extract_lets
    | with_reducible refine keep_updAcc _ _ (covers_sub hL (by decide)) ?_
    | with_reducible refine keep_updSeq _ _ (covers_sub hL (by decide)) ?_
    | split
    | with_reducible refine only_ite (fun _ => ?_) (fun _ => ?_)
    | dsimp -zeta +zetaDelta only

theorem keep_ryeStart {L : List Area} {u0 : State} (seated : Nat) (enabled : Nat) (thermtrip : Nat) {s : State} (hL : Covers [.nums, .blobs, .clk, .pow, .br, .sq, .acc, .cool, .part, .ev, .nut, .rep, .port, .eng] L) (h : Only L u0 s) :
    Only L u0 (ryeStart seated enabled thermtrip s) := by
  unfold ryeStart
  repeat' first
    | with_reducible exact h
    | with_reducible assumption
    | extract_lets
    | with_reducible refine keep_enableLeak _ (covers_sub hL (by decide)) ?_
    | with_reducible refine keep_enterPart _ (covers_sub hL (by decide)) ?_
    | with_reducible refine keep_loadCopy _ (covers_sub hL (by decide)) ?_
    | with_reducible refine keep_loadRcb (covers_sub hL (by decide)) ?_
    | with_reducible refine keep_restoreNut (covers_sub hL (by decide)) ?_
    | with_reducible refine keep_setPow _ (covers_sub hL (by decide)) ?_
    | with_reducible refine keep_settleOuts (covers_sub hL (by decide)) ?_
    | with_reducible refine keep_settleReq _ (covers_sub hL (by decide)) ?_
    | with_reducible refine keep_startAccel _ _ (covers_sub hL (by decide)) ?_
    | with_reducible refine keep_startBr _ _ _ (covers_sub hL (by decide)) ?_
    | with_reducible refine only_forAll _ _ (fun _ _ _ => ?_) ?_
    | with_reducible refine keep_mk_clk _ (covers_sub hL (by decide)) ?_
    | exact only_upd (by assumption) (fun a ha => by cases a <;> first | exact absurd (hL _ (by decide)) ha | rfl)
    | dsimp -zeta +zetaDelta only

theorem keep_b0Open {L : List Area} {u0 : State} {s : State} (hL : Covers [.nums, .pow, .br, .sq, .acc, .ev, .nut, .eng] L) (h : Only L u0 s) :
    Only L u0 (b0Open s) := by
  unfold b0Open
  repeat' first
    | with_reducible exact h
    | with_reducible assumption
    | extract_lets
    | with_reducible refine keep_enterBr _ _ _ (covers_sub hL (by decide)) ?_
    | split
    | with_reducible refine only_ite (fun _ => ?_) (fun _ => ?_)

theorem keep_tearArea {L : List Area} {u0 : State} (rcb : Bool) (second : Bool) {s : State} (hL : Covers [.nums, .blobs, .pow] L) (h : Only L u0 s) :
    Only L u0 (tearArea rcb second s) := by
  unfold tearArea
  repeat' first
    | with_reducible exact h
    | with_reducible assumption
    | extract_lets
    | with_reducible refine keep_setPow _ (covers_sub hL (by decide)) ?_
    | split
    | with_reducible refine only_ite (fun _ => ?_) (fun _ => ?_)
    | dsimp -zeta +zetaDelta only

theorem keep_tearSec {L : List Area} {u0 : State} (second : Bool) {s : State} (hL : Covers [.cardamom] L) (h : Only L u0 s) :
    Only L u0 (tearSec second s) := by
  unfold tearSec
  repeat' first
    | with_reducible exact h
    | with_reducible assumption
    | extract_lets
    | split
    | with_reducible refine only_ite (fun _ => ?_) (fun _ => ?_)
    | with_reducible refine keep_mk_cardamom _ (covers_sub hL (by decide)) ?_
    | exact only_upd (by assumption) (fun a ha => by cases a <;> first | exact absurd (hL _ (by decide)) ha | rfl)

theorem keep_tearCommit {L : List Area} {u0 : State} (torn : Torn) {s : State} (hL : Covers [.nums, .blobs, .pow, .cardamom] L) (h : Only L u0 s) :
    Only L u0 (tearCommit torn s) := by
  unfold tearCommit
  repeat' first
    | with_reducible exact h
    | with_reducible assumption
    | extract_lets
    | with_reducible refine keep_tearArea _ _ (covers_sub hL (by decide)) ?_
    | with_reducible refine keep_tearSec _ (covers_sub hL (by decide)) ?_
    | split

theorem keep_powerOff {L : List Area} {u0 : State} {s : State} (hL : Covers [.nums, .blobs, .clk, .pow, .br, .sq, .acc, .heat, .cool, .part, .ev, .nut, .rep, .pkgEnergy, .oda, .port, .eng, .img, .ani, .mem, .bar, .cardamom] L) (h : Only L u0 s) :
    Only L u0 (powerOff s) := by
  unfold powerOff
  repeat' first
    | with_reducible exact h
    | with_reducible assumption
    | extract_lets
    | split
    | with_reducible refine only_ite (fun _ => ?_) (fun _ => ?_)
    | with_reducible refine keep_mk_acc _ (covers_sub hL (by decide)) ?_
    | with_reducible refine keep_mk_ani _ (covers_sub hL (by decide)) ?_
    | with_reducible refine keep_mk_bar _ (covers_sub hL (by decide)) ?_
    | with_reducible refine keep_mk_blobs _ (covers_sub hL (by decide)) ?_
    | with_reducible refine keep_mk_br _ (covers_sub hL (by decide)) ?_
    | with_reducible refine keep_mk_cardamom _ (covers_sub hL (by decide)) ?_
    | with_reducible refine keep_mk_clk _ (covers_sub hL (by decide)) ?_
    | with_reducible refine keep_mk_cool _ (covers_sub hL (by decide)) ?_
    | with_reducible refine keep_mk_eng _ (covers_sub hL (by decide)) ?_
    | with_reducible refine keep_mk_ev _ (covers_sub hL (by decide)) ?_
    | with_reducible refine keep_mk_heat _ (covers_sub hL (by decide)) ?_
    | with_reducible refine keep_mk_img _ (covers_sub hL (by decide)) ?_
    | with_reducible refine keep_mk_mem _ (covers_sub hL (by decide)) ?_
    | with_reducible refine keep_mk_nums _ (covers_sub hL (by decide)) ?_
    | with_reducible refine keep_mk_nut _ (covers_sub hL (by decide)) ?_
    | with_reducible refine keep_mk_oda _ (covers_sub hL (by decide)) ?_
    | with_reducible refine keep_mk_part _ (covers_sub hL (by decide)) ?_
    | with_reducible refine keep_mk_pkgEnergy _ (covers_sub hL (by decide)) ?_
    | with_reducible refine keep_mk_port _ (covers_sub hL (by decide)) ?_
    | with_reducible refine keep_mk_pow _ (covers_sub hL (by decide)) ?_
    | with_reducible refine keep_mk_rep _ (covers_sub hL (by decide)) ?_
    | with_reducible refine keep_mk_sq _ (covers_sub hL (by decide)) ?_
    | exact only_upd (by assumption) (fun a ha => by cases a <;> first | exact absurd (hL _ (by decide)) ha | rfl)
    | dsimp -zeta +zetaDelta only

end Sys2Proof.Laws
end

