-- ==== Sys2Proof/Laws/FrameSequencer.lean ====
section
/-! SUPPORT. What the operations of Machine/Sequencer.lean may change: an operation keeps a frame that allows the parts it lists. -/
namespace Sys2Proof.Laws

open Sys2Proof.Machine

theorem keep_levelEffect {L : List Area} {u0 : State} (key : Nat) (v : Nat) {s : State} (hL : Covers [.nums, .blobs, .pow] L) (h : Only L u0 s) :
    Only L u0 (levelEffect key v s) := by
  unfold levelEffect
  repeat' first
    | with_reducible exact h
    | with_reducible assumption
    | extract_lets
    | with_reducible refine keep_setPow _ (covers_sub hL (by decide)) ?_
    | with_reducible refine keep_storeValue _ _ (covers_sub hL (by decide)) ?_
    | split
    | with_reducible refine only_ite (fun _ => ?_) (fun _ => ?_)
    | dsimp -zeta +zetaDelta only

theorem keep_stepDone {L : List Area} {u0 : State} (q : Fin 9) {s : State} (hL : Covers [.sq] L) (h : Only L u0 s) :
    Only L u0 (stepDone q s) := by
  unfold stepDone
  repeat' first
    | with_reducible exact h
    | with_reducible assumption
    | extract_lets
    | with_reducible refine keep_updSeq _ _ (covers_sub hL (by decide)) ?_

theorem keep_armWaited {L : List Area} {u0 : State} (q : Fin 9) (r : Fin 16) {s : State} (hL : Covers [.sq] L) (h : Only L u0 s) :
    Only L u0 (armWaited q r s) := by
  unfold armWaited
  repeat' first
    | with_reducible exact h
    | with_reducible assumption
    | extract_lets
    | with_reducible refine keep_updRail _ _ _ (covers_sub hL (by decide)) ?_
    | split
    | with_reducible refine only_ite (fun _ => ?_) (fun _ => ?_)

theorem keep_doEnable {L : List Area} {u0 : State} (q : Fin 9) (w : Nat) {s : State} (hL : Covers [.sq] L) (h : Only L u0 s) :
    Only L u0 (doEnable q w s) := by
  unfold doEnable
  repeat' first
    | with_reducible exact h
    | with_reducible assumption
    | extract_lets
    | with_reducible refine keep_stepDone _ (covers_sub hL (by decide)) ?_
    | with_reducible refine keep_updRail _ _ _ (covers_sub hL (by decide)) ?_
    | split
    | with_reducible refine only_ite (fun _ => ?_) (fun _ => ?_)

theorem keep_doDisable {L : List Area} {u0 : State} (q : Fin 9) (w : Nat) {s : State} (hL : Covers [.sq] L) (h : Only L u0 s) :
    Only L u0 (doDisable q w s) := by
  unfold doDisable
  repeat' first
    | with_reducible exact h
    | with_reducible assumption
    | extract_lets
    | with_reducible refine keep_stepDone _ (covers_sub hL (by decide)) ?_
    | with_reducible refine keep_updRail _ _ _ (covers_sub hL (by decide)) ?_
    | split
    | with_reducible refine only_ite (fun _ => ?_) (fun _ => ?_)

theorem keep_seePg {L : List Area} {u0 : State} (q : Fin 9) (r : Fin 16) (pg : Bool) {s : State} (hL : Covers [.sq] L) (h : Only L u0 s) :
    Only L u0 (seePg q r pg s) := by
  unfold seePg
  repeat' first
    | with_reducible exact h
    | with_reducible assumption
    | extract_lets
    | with_reducible refine keep_updRail _ _ _ (covers_sub hL (by decide)) ?_

theorem keep_doWaitPg {L : List Area} {u0 : State} (q : Fin 9) (pg : Bool) (w : Nat) {s : State} (hL : Covers [.sq] L) (h : Only L u0 s) :
    Only L u0 (doWaitPg q pg w s) := by
  unfold doWaitPg
  repeat' first
    | with_reducible exact h
    | with_reducible assumption
    | extract_lets
    | with_reducible refine keep_armWaited _ _ (covers_sub hL (by decide)) ?_
    | with_reducible refine keep_seePg _ _ _ (covers_sub hL (by decide)) ?_
    | with_reducible refine keep_stepDone _ (covers_sub hL (by decide)) ?_
    | with_reducible refine keep_updSeq _ _ (covers_sub hL (by decide)) ?_
    | split
    | with_reducible refine only_ite (fun _ => ?_) (fun _ => ?_)
    | dsimp -zeta +zetaDelta only

theorem keep_doWaitLevel {L : List Area} {u0 : State} (q : Fin 9) (v : Rat) (w : Nat) {s : State} (hL : Covers [.sq] L) (h : Only L u0 s) :
    Only L u0 (doWaitLevel q v w s) := by
  unfold doWaitLevel
  repeat' first
    | with_reducible exact h
    | with_reducible assumption
    | extract_lets
    | with_reducible refine keep_armWaited _ _ (covers_sub hL (by decide)) ?_
    | with_reducible refine keep_stepDone _ (covers_sub hL (by decide)) ?_
    | with_reducible refine keep_updSeq _ _ (covers_sub hL (by decide)) ?_
    | split
    | with_reducible refine only_ite (fun _ => ?_) (fun _ => ?_)
    | dsimp -zeta +zetaDelta only

theorem keep_doWaitTime {L : List Area} {u0 : State} (q : Fin 9) (w : Nat) {s : State} (hL : Covers [.sq] L) (h : Only L u0 s) :
    Only L u0 (doWaitTime q w s) := by
  unfold doWaitTime
  repeat' first
    | with_reducible exact h
    | with_reducible assumption
    | extract_lets
    | with_reducible refine keep_updSeq _ _ (covers_sub hL (by decide)) ?_

theorem keep_doOut {L : List Area} {u0 : State} (q : Fin 9) (high : Bool) (w : Nat) {s : State} (hL : Covers [.sq] L) (h : Only L u0 s) :
    Only L u0 (doOut q high w s) := by
  unfold doOut
  repeat' first
    | with_reducible exact h
    | with_reducible assumption
    | extract_lets
    | with_reducible refine keep_stepDone _ (covers_sub hL (by decide)) ?_
    | with_reducible refine keep_updSeq _ _ (covers_sub hL (by decide)) ?_

theorem keep_upEnds {L : List Area} {u0 : State} (q : Fin 9) {s : State} (hL : Covers [.sq, .acc] L) (h : Only L u0 s) :
    Only L u0 (upEnds q s) := by
  unfold upEnds
  repeat' first
    | with_reducible exact h
    | with_reducible assumption
    | extract_lets
    | with_reducible refine keep_setSeq _ _ (covers_sub hL (by decide)) ?_
    | with_reducible refine keep_updSeq _ _ (covers_sub hL (by decide)) ?_
    | split
    | with_reducible refine only_ite (fun _ => ?_) (fun _ => ?_)
    | dsimp -zeta +zetaDelta only

theorem keep_selfLow {L : List Area} {u0 : State} {s : State} (hL : Covers [.sq] L) (h : Only L u0 s) :
    Only L u0 (selfLow s) := by
  unfold selfLow
  repeat' first
    | with_reducible exact h
    | with_reducible assumption
    | extract_lets
    | with_reducible refine keep_updRail _ _ _ (covers_sub hL (by decide)) ?_
    | with_reducible refine only_forAll _ _ (fun _ _ _ => ?_) ?_
    | split
    | with_reducible refine only_ite (fun _ => ?_) (fun _ => ?_)
    | dsimp -zeta +zetaDelta only

theorem keep_memAfterDown {L : List Area} {u0 : State} {s : State} (hL : Covers [.nums, .mem] L) (h : Only L u0 s) :
    Only L u0 (memAfterDown s) := by
  unfold memAfterDown
  repeat' first
    | with_reducible exact h
    | with_reducible assumption
    | extract_lets
    | with_reducible refine keep_setN _ _ (covers_sub hL (by decide)) ?_
    | split
    | with_reducible refine only_ite (fun _ => ?_) (fun _ => ?_)
    | with_reducible refine keep_mk_mem _ (covers_sub hL (by decide)) ?_
    | exact only_upd (by assumption) (fun a ha => by cases a <;> first | exact absurd (hL _ (by decide)) ha | rfl)
    | dsimp -zeta +zetaDelta only

theorem keep_partAfterDown {L : List Area} {u0 : State} (why : Nat) {s : State} (hL : Covers [.heat, .part, .ev, .nut, .port] L) (h : Only L u0 s) :
    Only L u0 (partAfterDown why s) := by
  unfold partAfterDown
  repeat' first
    | with_reducible exact h
    | with_reducible assumption
    | extract_lets
    | with_reducible refine keep_enterPart _ (covers_sub hL (by decide)) ?_
    | split
    | with_reducible refine only_ite (fun _ => ?_) (fun _ => ?_)
    | with_reducible refine keep_mk_heat _ (covers_sub hL (by decide)) ?_
    | with_reducible refine keep_mk_part _ (covers_sub hL (by decide)) ?_
    | exact only_upd (by assumption) (fun a ha => by cases a <;> first | exact absurd (hL _ (by decide)) ha | rfl)

theorem keep_selfDownEnd {L : List Area} {u0 : State} {s : State} (hL : Covers [.nums, .pow, .br, .sq, .acc, .heat, .part, .ev, .nut, .port, .eng, .mem] L) (h : Only L u0 s) :
    Only L u0 (selfDownEnd s) := by
  unfold selfDownEnd
  repeat' first
    | with_reducible exact h
    | with_reducible assumption
    | extract_lets
    | with_reducible refine keep_b0Open (covers_sub hL (by decide)) ?_
    | with_reducible refine keep_memAfterDown (covers_sub hL (by decide)) ?_
    | with_reducible refine keep_partAfterDown _ (covers_sub hL (by decide)) ?_
    | with_reducible refine keep_selfLow (covers_sub hL (by decide)) ?_
    | with_reducible refine keep_selfUp (covers_sub hL (by decide)) ?_
    | with_reducible refine keep_setSeq _ _ (covers_sub hL (by decide)) ?_
    | with_reducible refine keep_updSeq _ _ (covers_sub hL (by decide)) ?_
    | split
    | with_reducible refine only_ite (fun _ => ?_) (fun _ => ?_)
    | dsimp -zeta +zetaDelta only

theorem keep_downEnds {L : List Area} {u0 : State} (q : Fin 9) {s : State} (hL : Covers [.nums, .pow, .br, .sq, .acc, .heat, .part, .ev, .nut, .port, .eng, .mem] L) (h : Only L u0 s) :
    Only L u0 (downEnds q s) := by
  unfold downEnds
  repeat' first
    | with_reducible exact h
    | with_reducible assumption
    | extract_lets
    | with_reducible refine keep_dropDemand _ (covers_sub hL (by decide)) ?_
    | with_reducible refine keep_enterOffWait _ (covers_sub hL (by decide)) ?_
    | with_reducible refine keep_selfDownEnd (covers_sub hL (by decide)) ?_
    | with_reducible refine keep_updSeq _ _ (covers_sub hL (by decide)) ?_
    | split

theorem keep_seqFault {L : List Area} {u0 : State} (q : Fin 9) (code : Nat) (rail : Nat) {s : State} (hL : Covers [.nums, .clk, .pow, .br, .sq, .acc, .heat, .part, .ev, .nut, .oda, .port, .eng, .img, .ani, .mem, .bar, .cardamom] L) (h : Only L u0 s) :
    Only L u0 (seqFault q code rail s) := by
  unfold seqFault
  repeat' first
    | with_reducible exact h
    | with_reducible assumption
    | extract_lets
    | with_reducible refine keep_selfFault _ _ (covers_sub hL (by decide)) ?_
    | with_reducible refine keep_trigger _ _ _ (covers_sub hL (by decide)) ?_
    | split

theorem keep_noDischarge {L : List Area} {u0 : State} (q : Fin 9) (r : Fin 16) {s : State} (hL : Covers [.nums, .pow, .br, .sq, .acc, .ev, .nut, .eng] L) (h : Only L u0 s) :
    Only L u0 (noDischarge q r s) := by
  unfold noDischarge
  repeat' first
    | with_reducible exact h
    | with_reducible assumption
    | extract_lets
    | with_reducible refine keep_countFault _ (covers_sub hL (by decide)) ?_
    | with_reducible refine keep_dropDemand _ (covers_sub hL (by decide)) ?_
    | with_reducible refine keep_noteSeq _ _ _ (covers_sub hL (by decide)) ?_
    | with_reducible refine keep_raiseRail _ _ _ (covers_sub hL (by decide)) ?_
    | with_reducible refine keep_updRail _ _ _ (covers_sub hL (by decide)) ?_
    | split
    | with_reducible refine only_ite (fun _ => ?_) (fun _ => ?_)
    | dsimp -zeta +zetaDelta only

theorem keep_timedOut {L : List Area} {u0 : State} (q : Fin 9) (r : Fin 16) (up : Bool) {s : State} (hL : Covers [.nums, .clk, .pow, .br, .sq, .acc, .heat, .part, .ev, .nut, .oda, .port, .eng, .img, .ani, .mem, .bar, .cardamom] L) (h : Only L u0 s) :
    Only L u0 (timedOut q r up s) := by
  unfold timedOut
  repeat' first
    | with_reducible exact h
    | with_reducible assumption
    | extract_lets
    | with_reducible refine keep_noDischarge _ _ (covers_sub hL (by decide)) ?_
    | with_reducible refine keep_raiseRail _ _ _ (covers_sub hL (by decide)) ?_
    | with_reducible refine keep_seqFault _ _ _ (covers_sub hL (by decide)) ?_
    | with_reducible refine keep_stepDone _ (covers_sub hL (by decide)) ?_
    | split
    | with_reducible refine only_ite (fun _ => ?_) (fun _ => ?_)

theorem keep_pgClose {L : List Area} {u0 : State} (q : Fin 9) {s : State} (hL : Covers [.nums, .blobs, .clk, .sq, .acc, .heat, .part, .ev, .nut, .port, .img, .cardamom, .free] L) (h : Only L u0 s) :
    Only L u0 (pgClose q s) := by
  unfold pgClose
  repeat' first
    | with_reducible exact h
    | with_reducible assumption
    | extract_lets
    | with_reducible refine keep_releaseMain (covers_sub hL (by decide)) ?_
    | with_reducible refine keep_setSeq _ _ (covers_sub hL (by decide)) ?_
    | with_reducible refine keep_updSeq _ _ (covers_sub hL (by decide)) ?_
    | split
    | with_reducible refine only_ite (fun _ => ?_) (fun _ => ?_)
    | with_reducible refine keep_mk_heat _ (covers_sub hL (by decide)) ?_
    | exact only_upd (by assumption) (fun a ha => by cases a <;> first | exact absurd (hL _ (by decide)) ha | rfl)
    | dsimp -zeta +zetaDelta only

theorem keep_pgRestart {L : List Area} {u0 : State} (q : Fin 9) (at_ : Nat) {s : State} (hL : Covers [.nums, .sq, .ev, .nut] L) (h : Only L u0 s) :
    Only L u0 (pgRestart q at_ s) := by
  unfold pgRestart
  repeat' first
    | with_reducible exact h
    | with_reducible assumption
    | extract_lets
    | with_reducible refine keep_inc32 _ (covers_sub hL (by decide)) ?_
    | with_reducible refine keep_raiseSeq _ _ (covers_sub hL (by decide)) ?_
    | with_reducible refine keep_updSeq _ _ (covers_sub hL (by decide)) ?_
    | dsimp -zeta +zetaDelta only

theorem keep_tickDeglitch {L : List Area} {u0 : State} (q : Fin 9) (r : Fin 16) (l : Level) (since : Nat) {s : State} (hL : Covers [.clk] L) (h : Only L u0 s) :
    Only L u0 (tickDeglitch q r l since s) := by
  unfold tickDeglitch
  repeat' first
    | with_reducible exact h
    | with_reducible assumption
    | extract_lets
    | with_reducible refine keep_tickTo _ (covers_sub hL (by decide)) ?_
    | split
    | dsimp -zeta +zetaDelta only

theorem keep_dropRunning {L : List Area} {u0 : State} (q : Fin 9) (r : Fin 16) (l : Level) {s : State} (hL : Covers [.sq] L) (h : Only L u0 s) :
    Only L u0 (dropRunning q r l s) := by
  unfold dropRunning
  repeat' first
    | with_reducible exact h
    | with_reducible assumption
    | extract_lets
    | with_reducible refine keep_updRail _ _ _ (covers_sub hL (by decide)) ?_

theorem keep_collapse {L : List Area} {u0 : State} (q : Fin 9) (r : Fin 16) {s : State} (hL : Covers [.sq, .ev, .nut] L) (h : Only L u0 s) :
    Only L u0 (collapse q r s) := by
  unfold collapse
  repeat' first
    | with_reducible exact h
    | with_reducible assumption
    | extract_lets
    | with_reducible refine keep_raiseRail _ _ _ (covers_sub hL (by decide)) ?_
    | with_reducible refine keep_updRail _ _ _ (covers_sub hL (by decide)) ?_

theorem keep_levelFault {L : List Area} {u0 : State} (q : Fin 9) (r : Fin 16) (l : Level) {s : State} (hL : Covers [.nums, .clk, .pow, .br, .sq, .acc, .heat, .part, .ev, .nut, .oda, .port, .eng, .img, .ani, .mem, .bar, .cardamom] L) (h : Only L u0 s) :
    Only L u0 (levelFault q r l s) := by
  unfold levelFault
  repeat' first
    | with_reducible exact h
    | with_reducible assumption
    | extract_lets
    | with_reducible refine keep_collapse _ _ (covers_sub hL (by decide)) ?_
    | with_reducible refine keep_raiseRail _ _ _ (covers_sub hL (by decide)) ?_
    | with_reducible refine keep_seqFault _ _ _ (covers_sub hL (by decide)) ?_
    | with_reducible refine keep_updRail _ _ _ (covers_sub hL (by decide)) ?_
    | split
    | with_reducible refine only_ite (fun _ => ?_) (fun _ => ?_)
    | dsimp -zeta +zetaDelta only

theorem keep_faultEnds {L : List Area} {u0 : State} (q : Fin 9) {s : State} (hL : Covers [.nums, .sq, .ev, .nut] L) (h : Only L u0 s) :
    Only L u0 (faultEnds q s) := by
  unfold faultEnds
  repeat' first
    | with_reducible exact h
    | with_reducible assumption
    | extract_lets
    | with_reducible refine keep_inc32 _ (covers_sub hL (by decide)) ?_
    | with_reducible refine keep_pgRestart _ _ (covers_sub hL (by decide)) ?_
    | with_reducible refine keep_raiseSeq _ _ (covers_sub hL (by decide)) ?_
    | split

theorem keep_tripEnds {L : List Area} {u0 : State} (q : Fin 9) {s : State} (hL : Covers [.nums, .sq, .ev, .nut] L) (h : Only L u0 s) :
    Only L u0 (tripEnds q s) := by
  unfold tripEnds
  repeat' first
    | with_reducible exact h
    | with_reducible assumption
    | extract_lets
    | with_reducible refine keep_faultEnds _ (covers_sub hL (by decide)) ?_
    | with_reducible refine keep_updSeq _ _ (covers_sub hL (by decide)) ?_
    | split
    | with_reducible refine only_ite (fun _ => ?_) (fun _ => ?_)

theorem keep_admitAccel {L : List Area} {u0 : State} (a : Fin 8) {s : State} (hL : Covers [.br, .sq, .acc] L) (h : Only L u0 s) :
    Only L u0 (admitAccel a s) := by
  unfold admitAccel
  repeat' first
    | with_reducible exact h
    | with_reducible assumption
    | extract_lets
    | with_reducible refine keep_setSeq _ _ (covers_sub hL (by decide)) ?_
    | with_reducible refine keep_updAcc _ _ (covers_sub hL (by decide)) ?_
    | with_reducible refine keep_updBr _ _ (covers_sub hL (by decide)) ?_
    | with_reducible refine keep_updSeq _ _ (covers_sub hL (by decide)) ?_
    | dsimp -zeta +zetaDelta only

end Sys2Proof.Laws
end

