-- ==== Sys2Proof/Laws/FrameHeat.lean ====
section
/-! SUPPORT. What the operations of Machine/Heat.lean may change: an operation keeps a frame that allows the parts it lists. -/
namespace Sys2Proof.Laws

open Sys2Proof.Machine

theorem keep_setZone {L : List Area} {u0 : State} (z : Fin 8) (v : ZoneState) {s : State} (hL : Covers [.cool] L) (h : Only L u0 s) :
    Only L u0 (setZone z v s) := by
  unfold setZone
  repeat' first
    | with_reducible exact h
    | with_reducible assumption
    | extract_lets
    | with_reducible refine keep_mk_cool _ (covers_sub hL (by decide)) ?_
    | exact only_upd (by assumption) (fun a ha => by cases a <;> first | exact absurd (hL _ (by decide)) ha | rfl)

theorem keep_settleLeak {L : List Area} {u0 : State} (a : Fin 8) {s : State} (hL : Covers [.nums, .br, .sq, .acc, .ev, .nut, .eng] L) (h : Only L u0 s) :
    Only L u0 (settleLeak a s) := by
  unfold settleLeak
  repeat' first
    | with_reducible exact h
    | with_reducible assumption
    | extract_lets
    | with_reducible refine keep_settleReq _ (covers_sub hL (by decide)) ?_
    | with_reducible refine keep_updAcc _ _ (covers_sub hL (by decide)) ?_
    | split
    | with_reducible refine only_ite (fun _ => ?_) (fun _ => ?_)
    | dsimp -zeta +zetaDelta only

theorem keep_settleZones {L : List Area} {u0 : State} {s : State} (hL : Covers [.nums, .br, .sq, .acc, .cool, .ev, .nut, .eng] L) (h : Only L u0 s) :
    Only L u0 (settleZones s) := by
  unfold settleZones
  repeat' first
    | with_reducible exact h
    | with_reducible assumption
    | extract_lets
    | with_reducible refine keep_settleLeak _ (covers_sub hL (by decide)) ?_
    | with_reducible refine keep_settleOuts (covers_sub hL (by decide)) ?_
    | with_reducible refine only_forAll _ _ (fun _ _ _ => ?_) ?_

theorem keep_clearZone {L : List Area} {u0 : State} (z : Fin 8) (z1 : Count) {s : State} (hL : Covers [.nums, .br, .sq, .acc, .cool, .ev, .nut, .eng] L) (h : Only L u0 s) :
    Only L u0 (clearZone z z1 s) := by
  unfold clearZone
  repeat' first
    | with_reducible exact h
    | with_reducible assumption
    | extract_lets
    | with_reducible refine keep_setZone _ _ (covers_sub hL (by decide)) ?_
    | with_reducible refine keep_settleZones (covers_sub hL (by decide)) ?_
    | split
    | with_reducible refine only_ite (fun _ => ?_) (fun _ => ?_)

theorem keep_setHeat {L : List Area} {u0 : State} (f : Heat → Heat) {s : State} (hL : Covers [.heat] L) (h : Only L u0 s) :
    Only L u0 (setHeat f s) := by
  unfold setHeat
  repeat' first
    | with_reducible exact h
    | with_reducible assumption
    | extract_lets
    | with_reducible refine keep_mk_heat _ (covers_sub hL (by decide)) ?_
    | exact only_upd (by assumption) (fun a ha => by cases a <;> first | exact absurd (hL _ (by decide)) ha | rfl)

theorem keep_settleLevel {L : List Area} {u0 : State} {s : State} (hL : Covers [.heat, .part, .ev, .nut, .eng, .img, .free] L) (h : Only L u0 s) :
    Only L u0 (settleLevel s) := by
  unfold settleLevel
  repeat' first
    | with_reducible exact h
    | with_reducible assumption
    | extract_lets
    | with_reducible refine keep_noteDegraded (covers_sub hL (by decide)) ?_
    | with_reducible refine keep_raiseMain _ _ _ (covers_sub hL (by decide)) ?_
    | with_reducible refine keep_recompute _ (covers_sub hL (by decide)) ?_
    | with_reducible refine keep_setHeat _ (covers_sub hL (by decide)) ?_
    | split
    | with_reducible refine only_ite (fun _ => ?_) (fun _ => ?_)
    | dsimp -zeta +zetaDelta only

theorem keep_warnMain {L : List Area} {u0 : State} {s : State} (hL : Covers [.heat, .ev, .nut] L) (h : Only L u0 s) :
    Only L u0 (warnMain s) := by
  unfold warnMain
  repeat' first
    | with_reducible exact h
    | with_reducible assumption
    | extract_lets
    | with_reducible refine keep_raiseMain _ _ _ (covers_sub hL (by decide)) ?_
    | with_reducible refine keep_setHeat _ (covers_sub hL (by decide)) ?_
    | split
    | with_reducible refine only_ite (fun _ => ?_) (fun _ => ?_)
    | dsimp -zeta +zetaDelta only

theorem keep_warnSorghum {L : List Area} {u0 : State} {s : State} (hL : Covers [.heat, .ev, .nut] L) (h : Only L u0 s) :
    Only L u0 (warnSorghum s) := by
  unfold warnSorghum
  repeat' first
    | with_reducible exact h
    | with_reducible assumption
    | extract_lets
    | with_reducible refine keep_raiseRye _ _ _ (covers_sub hL (by decide)) ?_
    | with_reducible refine keep_setHeat _ (covers_sub hL (by decide)) ?_
    | split
    | with_reducible refine only_ite (fun _ => ?_) (fun _ => ?_)
    | dsimp -zeta +zetaDelta only

theorem keep_shutDown {L : List Area} {u0 : State} (t : Rat) (kept : Bool) {s : State} (hL : Covers [.nums, .clk, .sq, .acc, .heat, .part, .ev, .nut, .oda, .port, .eng, .img, .ani, .mem, .bar, .cardamom] L) (h : Only L u0 s) :
    Only L u0 (shutDown t kept s) := by
  unfold shutDown
  repeat' first
    | with_reducible exact h
    | with_reducible assumption
    | extract_lets
    | with_reducible refine keep_enterPart _ (covers_sub hL (by decide)) ?_
    | with_reducible refine keep_inc32 _ (covers_sub hL (by decide)) ?_
    | with_reducible refine keep_mainDown _ (covers_sub hL (by decide)) ?_
    | with_reducible refine keep_raiseRye _ _ _ (covers_sub hL (by decide)) ?_
    | with_reducible refine keep_selfDown _ _ (covers_sub hL (by decide)) ?_
    | with_reducible refine keep_setHeat _ (covers_sub hL (by decide)) ?_
    | split
    | with_reducible refine only_ite (fun _ => ?_) (fun _ => ?_)
    | dsimp -zeta +zetaDelta only

theorem keep_abandonRestart {L : List Area} {u0 : State} (t : Rat) (kept : Bool) {s : State} (hL : Covers [.nums, .clk, .sq, .acc, .heat, .part, .ev, .nut, .oda, .port, .eng, .img, .ani, .mem, .bar, .cardamom] L) (h : Only L u0 s) :
    Only L u0 (abandonRestart t kept s) := by
  unfold abandonRestart
  repeat' first
    | with_reducible exact h
    | with_reducible assumption
    | extract_lets
    | with_reducible refine keep_raiseRye _ _ _ (covers_sub hL (by decide)) ?_
    | with_reducible refine keep_selfDown _ _ (covers_sub hL (by decide)) ?_
    | with_reducible refine keep_setHeat _ (covers_sub hL (by decide)) ?_
    | dsimp -zeta +zetaDelta only

theorem keep_limitWritten {L : List Area} {u0 : State} (a : Fin 8) (w : Rat) (ack : Bool) {s0 : State} (hL : Covers [.acc, .ev, .nut] L) (h : Only L u0 s0) :
    Only L u0 (limitWritten a w ack s0) := by
  unfold limitWritten
  repeat' first
    | with_reducible exact h
    | with_reducible assumption
    | extract_lets
    | with_reducible refine keep_raiseMain _ _ _ (covers_sub hL (by decide)) ?_
    | with_reducible refine keep_updAcc _ _ (covers_sub hL (by decide)) ?_
    | split
    | with_reducible refine only_ite (fun _ => ?_) (fun _ => ?_)
    | dsimp -zeta +zetaDelta only

theorem keep_leakFault {L : List Area} {u0 : State} (c : Fin 8) {s : State} (hL : Covers [.nums, .br, .sq, .acc, .cool, .ev, .nut, .eng] L) (h : Only L u0 s) :
    Only L u0 (leakFault c s) := by
  unfold leakFault
  repeat' first
    | with_reducible exact h
    | with_reducible assumption
    | extract_lets
    | with_reducible refine keep_raiseRye _ _ _ (covers_sub hL (by decide)) ?_
    | with_reducible refine keep_setZone _ _ (covers_sub hL (by decide)) ?_
    | with_reducible refine keep_settleZones (covers_sub hL (by decide)) ?_
    | split
    | with_reducible refine only_ite (fun _ => ?_) (fun _ => ?_)
    | dsimp -zeta +zetaDelta only

theorem keep_notDry {L : List Area} {u0 : State} (c : Fin 8) {s : State} (hL : Covers [.cool] L) (h : Only L u0 s) :
    Only L u0 (notDry c s) := by
  unfold notDry
  repeat' first
    | with_reducible exact h
    | with_reducible assumption
    | extract_lets
    | with_reducible refine keep_setZone _ _ (covers_sub hL (by decide)) ?_
    | split
    | with_reducible refine only_ite (fun _ => ?_) (fun _ => ?_)

end Sys2Proof.Laws
end

