-- ==== Sys2Proof/Laws/FrameMemory.lean ====
section
/-! SUPPORT. What the operations of Machine/Memory.lean may change: an operation keeps a frame that allows the parts it lists. -/
namespace Sys2Proof.Laws

open Sys2Proof.Machine

theorem keep_setMem {L : List Area} {u0 : State} (f : Mem → Mem) {s : State} (hL : Covers [.mem] L) (h : Only L u0 s) :
    Only L u0 (setMem f s) := by
  unfold setMem
  repeat' first
    | with_reducible exact h
    | with_reducible assumption
    | extract_lets
    | with_reducible refine keep_mk_mem _ (covers_sub hL (by decide)) ?_
    | exact only_upd (by assumption) (fun a ha => by cases a <;> first | exact absurd (hL _ (by decide)) ha | rfl)

theorem keep_clearPoison {L : List Area} {u0 : State} (a : Nat) (n : Nat) {s : State} (hL : Covers [.nums, .eng, .mem] L) (h : Only L u0 s) :
    Only L u0 (clearPoison a n s) := by
  unfold clearPoison
  repeat' first
    | with_reducible exact h
    | with_reducible assumption
    | extract_lets
    | with_reducible refine keep_incMax _ _ _ (covers_sub hL (by decide)) ?_
    | with_reducible refine keep_setMem _ (covers_sub hL (by decide)) ?_
    | with_reducible refine keep_updTile _ _ (covers_sub hL (by decide)) ?_
    | split
    | with_reducible refine only_ite (fun _ => ?_) (fun _ => ?_)
    | dsimp -zeta +zetaDelta only

theorem keep_writeByte {L : List Area} {u0 : State} (a : Nat) (v : Nat) {s : State} (hL : Covers [.eng, .mem] L) (h : Only L u0 s) :
    Only L u0 (writeByte a v s) := by
  unfold writeByte
  repeat' first
    | with_reducible exact h
    | with_reducible assumption
    | extract_lets
    | with_reducible refine keep_setMem _ (covers_sub hL (by decide)) ?_
    | with_reducible refine keep_updTile _ _ (covers_sub hL (by decide)) ?_
    | split

theorem keep_memUe {L : List Area} {u0 : State} (a : Nat) {s : State} (hL : Covers [.nums, .ev, .nut, .mem, .bar] L) (h : Only L u0 s) :
    Only L u0 (memUe a s) := by
  unfold memUe
  repeat' first
    | with_reducible exact h
    | with_reducible assumption
    | extract_lets
    | with_reducible refine keep_inc32 _ (covers_sub hL (by decide)) ?_
    | with_reducible refine keep_raiseMain _ _ _ (covers_sub hL (by decide)) ?_
    | with_reducible refine keep_routeIrq _ (covers_sub hL (by decide)) ?_
    | with_reducible refine keep_setMem _ (covers_sub hL (by decide)) ?_
    | with_reducible refine keep_setN _ _ (covers_sub hL (by decide)) ?_
    | split
    | with_reducible refine only_ite (fun _ => ?_) (fun _ => ?_)
    | dsimp -zeta +zetaDelta only

theorem keep_huskDenied {L : List Area} {u0 : State} (init : Nat) (a : Nat) {s : State} (hL : Covers [.nums, .ev, .nut, .bar] L) (h : Only L u0 s) :
    Only L u0 (huskDenied init a s) := by
  unfold huskDenied
  repeat' first
    | with_reducible exact h
    | with_reducible assumption
    | extract_lets
    | with_reducible refine keep_inc32 _ (covers_sub hL (by decide)) ?_
    | with_reducible refine keep_raiseMain _ _ _ (covers_sub hL (by decide)) ?_
    | with_reducible refine keep_routeIrq _ (covers_sub hL (by decide)) ?_
    | with_reducible refine keep_mk_bar _ (covers_sub hL (by decide)) ?_
    | exact only_upd (by assumption) (fun a ha => by cases a <;> first | exact absurd (hL _ (by decide)) ha | rfl)

theorem keep_countOverrides {L : List Area} {u0 : State} {s : State} (hL : Covers [.nums] L) (h : Only L u0 s) :
    Only L u0 (countOverrides s) := by
  unfold countOverrides
  repeat' first
    | with_reducible exact h
    | with_reducible assumption
    | extract_lets
    | with_reducible refine keep_setN _ _ (covers_sub hL (by decide)) ?_

end Sys2Proof.Laws
end

