-- ==== Sys2Proof/Laws/FrameDma.lean ====
section
/-! SUPPORT. What the operations of Machine/Dma.lean may change: an operation keeps a frame that allows the parts it lists. -/
namespace Sys2Proof.Laws

open Sys2Proof.Machine

theorem keep_waitWrite {L : List Area} {u0 : State} (k : Nat) (off : Nat) (w : Nat) {s : State} (hL : Covers [.ev, .nut, .mem, .bar] L) (h : Only L u0 s) :
    Only L u0 (waitWrite k off w s) := by
  unfold waitWrite
  repeat' first
    | with_reducible exact h
    | with_reducible assumption
    | extract_lets
    | with_reducible refine keep_putSlot _ _ (covers_sub hL (by decide)) ?_
    | with_reducible refine keep_tryFire _ (covers_sub hL (by decide)) ?_
    | split
    | with_reducible refine only_ite (fun _ => ?_) (fun _ => ?_)
    | dsimp -zeta +zetaDelta only

theorem keep_putPlain {L : List Area} {u0 : State} (b : Burst) (ws : List Nat) {s : State} (hL : Covers [.ev, .nut, .mem, .bar] L) (h : Only L u0 s) :
    Only L u0 (putPlain b ws s) := by
  unfold putPlain
  repeat' first
    | with_reducible exact h
    | with_reducible assumption
    | extract_lets
    | with_reducible refine keep_setCell _ _ (covers_sub hL (by decide)) ?_
    | with_reducible refine keep_signalCell _ _ (covers_sub hL (by decide)) ?_
    | with_reducible refine keep_waitWrite _ _ _ (covers_sub hL (by decide)) ?_
    | with_reducible refine only_foldl _ _ (fun _ _ _ => ?_) ?_
    | split
    | with_reducible refine only_ite (fun _ => ?_) (fun _ => ?_)
    | dsimp -zeta +zetaDelta only

theorem keep_spill {L : List Area} {u0 : State} (c : Fin 32) (b : Burst) {s : State} (hL : Covers [.nums, .ev, .nut, .eng, .mem, .bar, .free] L) (h : Only L u0 s) :
    Only L u0 (spill c b s) := by
  unfold spill
  repeat' first
    | with_reducible exact h
    | with_reducible assumption
    | extract_lets
    | with_reducible refine keep_clearPoison _ _ (covers_sub hL (by decide)) ?_
    | with_reducible refine keep_milletBytes _ _ (covers_sub hL (by decide)) ?_
    | with_reducible refine keep_putPlain _ _ (covers_sub hL (by decide)) ?_
    | with_reducible refine keep_updTile _ _ (covers_sub hL (by decide)) ?_
    | with_reducible refine keep_writeByte _ _ (covers_sub hL (by decide)) ?_
    | with_reducible refine only_foldl _ _ (fun _ _ _ => ?_) ?_
    | split
    | with_reducible refine only_ite (fun _ => ?_) (fun _ => ?_)
    | with_reducible refine keep_mk_free _ (covers_sub hL (by decide)) ?_
    | exact only_upd (by assumption) (fun a ha => by cases a <;> first | exact absurd (hL _ (by decide)) ha | rfl)
    | dsimp -zeta +zetaDelta only

set_option tactic.hygienic false in
theorem keep_dropChan {L : List Area} {u0 : State} (c : Fin 32) {s : State} (hL : Covers [.nums, .ev, .nut, .eng, .mem, .bar, .free] L) (h : Only L u0 s) :
    Only L u0 (dropChan c s) := by
  unfold dropChan
  repeat' first
    | with_reducible exact h
    | with_reducible assumption
    | extract_lets
    | with_reducible refine keep_endRun _ (covers_sub hL (by decide)) ?_
    | with_reducible refine keep_spill _ _ (covers_sub hL (by decide)) ?_
    | with_reducible refine keep_takeFree _ (covers_sub hL (by decide)) ?_
    | with_reducible refine keep_takeFree_eq (by assumption) (covers_sub hL (by decide)) ?_
    | with_reducible refine keep_updDma _ _ (covers_sub hL (by decide)) ?_
    | with_reducible refine keep_updTile _ _ (covers_sub hL (by decide)) ?_
    | with_reducible refine only_forAll _ _ (fun _ _ _ => ?_) ?_
    | with_reducible refine only_forEach _ _ (fun _ _ _ => ?_) ?_
    | split
    | with_reducible refine only_ite (fun _ => ?_) (fun _ => ?_)
    | dsimp -zeta +zetaDelta only
    | unfold off

theorem keep_dropFirmware {L : List Area} {u0 : State} {s : State} (hL : Covers [.nums, .ev, .nut, .eng, .mem, .bar, .free] L) (h : Only L u0 s) :
    Only L u0 (dropFirmware s) := by
  unfold dropFirmware
  repeat' first
    | with_reducible exact h
    | with_reducible assumption
    | extract_lets
    | with_reducible refine keep_dropChan _ (covers_sub hL (by decide)) ?_
    | with_reducible refine keep_setMem _ (covers_sub hL (by decide)) ?_
    | with_reducible refine only_forAll _ _ (fun _ _ _ => ?_) ?_
    | split
    | with_reducible refine only_ite (fun _ => ?_) (fun _ => ?_)
    | dsimp -zeta +zetaDelta only

theorem keep_haltChan {L : List Area} {u0 : State} (c : Fin 32) (addr : Nat) (dir : Bool) (entry : Nat) (cause : Nat) {s : State} (hL : Covers [.nums, .ev, .nut, .mem, .bar] L) (h : Only L u0 s) :
    Only L u0 (haltChan c addr dir entry cause s) := by
  unfold haltChan
  repeat' first
    | with_reducible exact h
    | with_reducible assumption
    | extract_lets
    | with_reducible refine keep_huskDenied _ _ (covers_sub hL (by decide)) ?_
    | with_reducible refine keep_inc32 _ (covers_sub hL (by decide)) ?_
    | with_reducible refine keep_raiseIrq _ _ (covers_sub hL (by decide)) ?_
    | with_reducible refine keep_raiseMain _ _ _ (covers_sub hL (by decide)) ?_
    | with_reducible refine keep_setN _ _ (covers_sub hL (by decide)) ?_
    | with_reducible refine keep_updDma _ _ (covers_sub hL (by decide)) ?_
    | split
    | with_reducible refine only_ite (fun _ => ?_) (fun _ => ?_)
    | dsimp -zeta +zetaDelta only

theorem keep_goChan {L : List Area} {u0 : State} (c : Fin 32) (swap : Nat) (share : Nat) (compl : Nat) (srcList : Nat) (dstList : Nat) (srcCount : Nat) (dstCount : Nat) (src : List DmaEntry) (dst : List DmaEntry) {s : State} (hL : Covers [.nums, .ev, .nut, .mem, .bar, .free] L) (h : Only L u0 s) :
    Only L u0 (goChan c swap share compl srcList dstList srcCount dstCount src dst s) := by
  unfold goChan
  repeat' first
    | with_reducible exact h
    | with_reducible assumption
    | extract_lets
    | with_reducible refine keep_haltChan _ _ _ _ _ (covers_sub hL (by decide)) ?_
    | with_reducible refine keep_startNext _ (covers_sub hL (by decide)) ?_
    | with_reducible refine keep_takeFree _ (covers_sub hL (by decide)) ?_
    | with_reducible refine keep_takeFree_eq (by assumption) (covers_sub hL (by decide)) ?_
    | with_reducible refine keep_updDma _ _ (covers_sub hL (by decide)) ?_
    | split
    | with_reducible refine only_ite (fun _ => ?_) (fun _ => ?_)
    | dsimp -zeta +zetaDelta only

theorem keep_ctrlWrite {L : List Area} {u0 : State} (c : Fin 32) (w : Nat) {s : State} (hL : Covers [.nums, .ev, .nut, .eng, .mem, .bar, .free] L) (h : Only L u0 s) :
    Only L u0 (ctrlWrite c w s) := by
  unfold ctrlWrite
  repeat' first
    | with_reducible exact h
    | with_reducible assumption
    | extract_lets
    | with_reducible refine keep_dropChan _ (covers_sub hL (by decide)) ?_
    | with_reducible refine keep_goChan _ _ _ _ _ _ _ _ _ _ (covers_sub hL (by decide)) ?_
    | with_reducible refine keep_updDma _ _ (covers_sub hL (by decide)) ?_
    | split
    | with_reducible refine only_ite (fun _ => ?_) (fun _ => ?_)
    | dsimp -zeta +zetaDelta only

theorem keep_chanWrite {L : List Area} {u0 : State} (c : Fin 32) (off : Nat) (w : Nat) {s : State} (hL : Covers [.nums, .ev, .nut, .eng, .mem, .bar, .free] L) (h : Only L u0 s) :
    Only L u0 (chanWrite c off w s) := by
  unfold chanWrite
  repeat' first
    | with_reducible exact h
    | with_reducible assumption
    | extract_lets
    | with_reducible refine keep_ctrlWrite _ _ (covers_sub hL (by decide)) ?_
    | with_reducible refine keep_updDma _ _ (covers_sub hL (by decide)) ?_
    | split
    | with_reducible refine only_ite (fun _ => ?_) (fun _ => ?_)

theorem keep_putChan {L : List Area} {u0 : State} (b : Burst) (ws : List Nat) {s : State} (hL : Covers [.nums, .ev, .nut, .eng, .mem, .bar, .free] L) (h : Only L u0 s) :
    Only L u0 (putChan b ws s) := by
  unfold putChan
  repeat' first
    | with_reducible exact h
    | with_reducible assumption
    | extract_lets
    | with_reducible refine keep_chanWrite _ _ _ (covers_sub hL (by decide)) ?_
    | with_reducible refine only_foldl _ _ (fun _ _ _ => ?_) ?_
    | split
    | with_reducible refine only_ite (fun _ => ?_) (fun _ => ?_)
    | dsimp -zeta +zetaDelta only

theorem keep_moveBurst {L : List Area} {u0 : State} (c : Fin 32) (b : Burst) {s : State} (hL : Covers [.nums, .ev, .nut, .eng, .mem, .bar, .free] L) (h : Only L u0 s) :
    Only L u0 (moveBurst c b s) := by
  unfold moveBurst
  repeat' first
    | with_reducible exact h
    | with_reducible assumption
    | extract_lets
    | with_reducible refine keep_putChan _ _ (covers_sub hL (by decide)) ?_
    | with_reducible refine keep_spill _ _ (covers_sub hL (by decide)) ?_
    | split
    | with_reducible refine only_ite (fun _ => ?_) (fun _ => ?_)
    | dsimp -zeta +zetaDelta only

theorem keep_reachBank {L : List Area} {u0 : State} (c : Fin 32) (a : Nat) {s : State} (hL : Covers [.ev, .nut, .eng, .mem] L) (h : Only L u0 s) :
    Only L u0 (reachBank c a s) := by
  unfold reachBank
  repeat' first
    | with_reducible exact h
    | with_reducible assumption
    | extract_lets
    | with_reducible refine keep_raiseMain _ _ _ (covers_sub hL (by decide)) ?_
    | with_reducible refine keep_updDma _ _ (covers_sub hL (by decide)) ?_
    | with_reducible refine keep_updTile _ _ (covers_sub hL (by decide)) ?_
    | split
    | with_reducible refine only_ite (fun _ => ?_) (fun _ => ?_)
    | dsimp -zeta +zetaDelta only

theorem keep_reachBanks {L : List Area} {u0 : State} (c : Fin 32) (b : Burst) {s : State} (hL : Covers [.ev, .nut, .eng, .mem] L) (h : Only L u0 s) :
    Only L u0 (reachBanks c b s) := by
  unfold reachBanks
  repeat' first
    | with_reducible exact h
    | with_reducible assumption
    | extract_lets
    | with_reducible refine keep_reachBank _ _ (covers_sub hL (by decide)) ?_

theorem keep_goBursts {L : List Area} {u0 : State} (c : Fin 32) (l : List Burst) {s : State}
    (hL : Covers [.nums, .ev, .nut, .eng, .mem, .bar, .free] L) (h : Only L u0 s) : Only L u0 (goBursts c l s) := by
  induction l generalizing s with
  | nil => exact h
  | cons b t ih =>
    simp only [goBursts]
    split
    · exact h
    · exact ih (keep_updDma _ _ (covers_sub hL (by decide)) (keep_moveBurst _ _ (covers_sub hL (by decide))
        (keep_reachBanks _ _ (covers_sub hL (by decide)) h)))

theorem keep_noteHold {L : List Area} {u0 : State} (c : Fin 32) {s : State} (hL : Covers [.eng] L) (h : Only L u0 s) :
    Only L u0 (noteHold c s) := by
  unfold noteHold
  repeat' first
    | with_reducible exact h
    | with_reducible assumption
    | extract_lets
    | with_reducible refine keep_updTile _ _ (covers_sub hL (by decide)) ?_
    | split
    | with_reducible refine only_ite (fun _ => ?_) (fun _ => ?_)

theorem keep_paced {L : List Area} {u0 : State} (c : Fin 32) {s : State} (hL : Covers [.clk] L) (h : Only L u0 s) :
    Only L u0 (paced c s) := by
  unfold paced
  repeat' first
    | with_reducible exact h
    | with_reducible assumption
    | extract_lets
    | with_reducible refine keep_tickTo _ (covers_sub hL (by decide)) ?_
    | dsimp -zeta +zetaDelta only

theorem keep_advance {L : List Area} {u0 : State} (c : Fin 32) {s : State} (hL : Covers [.nums, .clk, .ev, .nut, .eng, .mem, .bar, .free] L) (h : Only L u0 s) :
    Only L u0 (advance c s) := by
  unfold advance
  repeat' first
    | with_reducible exact h
    | with_reducible assumption
    | extract_lets
    | with_reducible refine keep_goBursts _ _ (covers_sub hL (by decide)) ?_
    | with_reducible refine keep_noteHold _ (covers_sub hL (by decide)) ?_
    | with_reducible refine keep_paced _ (covers_sub hL (by decide)) ?_

theorem keep_completeRun {L : List Area} {u0 : State} (c : Fin 32) {s : State} (hL : Covers [.nums, .mem, .bar] L) (h : Only L u0 s) :
    Only L u0 (completeRun c s) := by
  unfold completeRun
  repeat' first
    | with_reducible exact h
    | with_reducible assumption
    | extract_lets
    | with_reducible refine keep_endRun _ (covers_sub hL (by decide)) ?_
    | with_reducible refine keep_inc32 _ (covers_sub hL (by decide)) ?_
    | with_reducible refine keep_raiseIrq _ _ (covers_sub hL (by decide)) ?_
    | with_reducible refine keep_updDma _ _ (covers_sub hL (by decide)) ?_
    | split
    | with_reducible refine only_ite (fun _ => ?_) (fun _ => ?_)
    | dsimp -zeta +zetaDelta only

end Sys2Proof.Laws
end

