-- ==== Sys2Proof/Laws/FrameTxn.lean ====
section
/-! SUPPORT. What the operations of Machine/Txn.lean may change: an operation keeps a frame that allows the parts it lists. -/
namespace Sys2Proof.Laws

open Sys2Proof.Machine

theorem keep_setOda {L : List Area} {u0 : State} (f : Oda → Oda) {s : State} (hL : Covers [.oda] L) (h : Only L u0 s) :
    Only L u0 (setOda f s) := by
  unfold setOda
  repeat' first
    | with_reducible exact h
    | with_reducible assumption
    | extract_lets
    | with_reducible refine keep_mk_oda _ (covers_sub hL (by decide)) ?_
    | exact only_upd (by assumption) (fun a ha => by cases a <;> first | exact absurd (hL _ (by decide)) ha | rfl)

theorem keep_beginTxn {L : List Area} {u0 : State} (place : Nat) (txn : Nat) (op : Nat) (steps : Nat) (body : ReqBody) (inLedger : Bool) {s : State} (hL : Covers [.oda] L) (h : Only L u0 s) :
    Only L u0 (beginTxn place txn op steps body inLedger s) := by
  unfold beginTxn
  repeat' first
    | with_reducible exact h
    | with_reducible assumption
    | extract_lets
    | with_reducible refine keep_updPeer _ _ (covers_sub hL (by decide)) ?_
    | split
    | with_reducible refine only_ite (fun _ => ?_) (fun _ => ?_)
    | dsimp -zeta +zetaDelta only

theorem keep_respondAs {L : List Area} {u0 : State} (cls : Nat) (n : Nat) (a : Answer) {s : State} (hL : Covers [.ev, .nut, .oda, .port] L) (h : Only L u0 s) :
    Only L u0 (respondAs cls n a s) := by
  unfold respondAs
  repeat' first
    | with_reducible exact h
    | with_reducible assumption
    | extract_lets
    | with_reducible refine keep_sendSession _ _ _ (covers_sub hL (by decide)) ?_
    | with_reducible refine keep_setOda _ (covers_sub hL (by decide)) ?_

theorem keep_respond {L : List Area} {u0 : State} (n : Nat) (a : Answer) {s : State} (hL : Covers [.ev, .nut, .oda, .port] L) (h : Only L u0 s) :
    Only L u0 (respond n a s) := by
  unfold respond
  repeat' first
    | with_reducible exact h
    | with_reducible assumption
    | extract_lets
    | with_reducible refine keep_respondAs _ _ _ (covers_sub hL (by decide)) ?_

theorem keep_updSession {L : List Area} {u0 : State} (n : Nat) (f : Session → Session) {s : State} (hL : Covers [.oda] L) (h : Only L u0 s) :
    Only L u0 (updSession n f s) := by
  unfold updSession
  repeat' first
    | with_reducible exact h
    | with_reducible assumption
    | extract_lets
    | with_reducible refine keep_setOda _ (covers_sub hL (by decide)) ?_
    | split

theorem keep_touch {L : List Area} {u0 : State} (n : Nat) {s : State} (hL : Covers [.oda] L) (h : Only L u0 s) :
    Only L u0 (touch n s) := by
  unfold touch
  repeat' first
    | with_reducible exact h
    | with_reducible assumption
    | extract_lets
    | with_reducible refine keep_updSession _ _ (covers_sub hL (by decide)) ?_

theorem keep_endTxn {L : List Area} {u0 : State} (place : Nat) (a : Answer) {s : State} (hL : Covers [.oda] L) (h : Only L u0 s) :
    Only L u0 (endTxn place a s) := by
  unfold endTxn
  repeat' first
    | with_reducible exact h
    | with_reducible assumption
    | extract_lets
    | with_reducible refine keep_updPeer _ _ (covers_sub hL (by decide)) ?_
    | split
    | with_reducible refine only_ite (fun _ => ?_) (fun _ => ?_)
    | dsimp -zeta +zetaDelta only

theorem keep_finish {L : List Area} {u0 : State} (p : Pending) (code : Nat) {s : State} (hL : Covers [.ev, .nut, .oda, .port] L) (h : Only L u0 s) :
    Only L u0 (finish p code s) := by
  unfold finish
  repeat' first
    | with_reducible exact h
    | with_reducible assumption
    | extract_lets
    | with_reducible refine keep_endTxn _ _ (covers_sub hL (by decide)) ?_
    | with_reducible refine keep_respond _ _ (covers_sub hL (by decide)) ?_
    | split
    | with_reducible refine only_ite (fun _ => ?_) (fun _ => ?_)
    | dsimp -zeta +zetaDelta only

theorem keep_park {L : List Area} {u0 : State} (p : Pending) {s : State} (hL : Covers [.oda] L) (h : Only L u0 s) :
    Only L u0 (park p s) := by
  unfold park
  repeat' first
    | with_reducible exact h
    | with_reducible assumption
    | extract_lets
    | with_reducible refine keep_setOda _ (covers_sub hL (by decide)) ?_
    | with_reducible refine keep_updSession _ _ (covers_sub hL (by decide)) ?_

theorem keep_storeSram {L : List Area} {u0 : State} (a : Nat) (bs : List Byte) {s : State} (hL : Covers [.mem] L) (h : Only L u0 s) :
    Only L u0 (storeSram a bs s) := by
  unfold storeSram
  repeat' first
    | with_reducible exact h
    | with_reducible assumption
    | extract_lets
    | with_reducible refine keep_setMem _ (covers_sub hL (by decide)) ?_
    | with_reducible refine only_foldl _ _ (fun _ _ _ => ?_) ?_
    | split
    | with_reducible refine only_ite (fun _ => ?_) (fun _ => ?_)

theorem keep_putEntry {L : List Area} {u0 : State} (r : FwReq) {s : State} (hL : Covers [.mem, .free] L) (h : Only L u0 s) :
    Only L u0 (putEntry r s) := by
  unfold putEntry
  repeat' first
    | with_reducible exact h
    | with_reducible assumption
    | extract_lets
    | with_reducible refine keep_storeSram _ _ (covers_sub hL (by decide)) ?_
    | with_reducible refine keep_takeFree _ (covers_sub hL (by decide)) ?_
    | with_reducible refine keep_takeFree_eq (by assumption) (covers_sub hL (by decide)) ?_
    | split
    | with_reducible refine only_ite (fun _ => ?_) (fun _ => ?_)
    | dsimp -zeta +zetaDelta only

theorem keep_passFw {L : List Area} {u0 : State} (kind : Nat) (au : Auth) (place : Nat) (key : Nat) (v : Value) {s : State} (hL : Covers [.ev, .nut, .oda, .mem, .bar, .free] L) (h : Only L u0 s) :
    Only L u0 (passFw kind au place key v s).2 := by
  unfold passFw
  repeat' first
    | with_reducible exact h
    | with_reducible assumption
    | extract_lets
    | with_reducible refine keep_putEntry _ (covers_sub hL (by decide)) ?_
    | with_reducible refine keep_routeIrq _ (covers_sub hL (by decide)) ?_
    | with_reducible refine keep_setBar _ (covers_sub hL (by decide)) ?_
    | with_reducible refine keep_setOda _ (covers_sub hL (by decide)) ?_
    | with_reducible refine keep_signalCell _ _ (covers_sub hL (by decide)) ?_
    | split
    | with_reducible refine only_ite (fun _ => ?_) (fun _ => ?_)
    | dsimp -zeta only
    | dsimp -zeta +zetaDelta only

theorem keep_passFw_eq {L : List Area} {u0 : State} {kind : Nat} {au : Auth} {place : Nat} {key : Nat} {v : Value} {s : State} {r : _} {t : State} (e : passFw kind au place key v s = (r, t)) (hL : Covers [.ev, .nut, .oda, .mem, .bar, .free] L) (h : Only L u0 s) :
    Only L u0 t := by
  have k := keep_passFw kind au place key v hL h
  rw [e] at k
  exact k

theorem keep_passFront {L : List Area} {u0 : State} (p : Pending) {s : State} (hL : Covers [.ev, .nut, .oda, .port, .mem, .bar, .free] L) (h : Only L u0 s) :
    Only L u0 (passFront p s) := by
  unfold passFront
  repeat' first
    | with_reducible exact h
    | with_reducible assumption
    | extract_lets
    | with_reducible refine keep_finish _ _ (covers_sub hL (by decide)) ?_
    | with_reducible refine keep_park _ (covers_sub hL (by decide)) ?_
    | with_reducible refine keep_passFw _ _ _ _ _ (covers_sub hL (by decide)) ?_
    | with_reducible refine keep_passFw_eq (by assumption) (covers_sub hL (by decide)) ?_
    | split
    | with_reducible refine only_ite (fun _ => ?_) (fun _ => ?_)
    | dsimp -zeta +zetaDelta only

theorem keep_runItems {L : List Area} {u0 : State} (p : Pending) (l : List (Nat × Nat × Value)) {s : State}
    (hL : Covers [.ev, .nut, .oda, .port, .mem, .bar, .free] L) (h : Only L u0 s) : Only L u0 (runItems p l s) := by
  induction l generalizing p with
  | nil => exact keep_finish _ _ (covers_sub hL (by decide)) h
  | cons x t ih =>
    obtain ⟨i, key, v⟩ := x
    simp only [runItems]
    split
    · exact ih _
    · split
      · exact ih _
      · exact keep_passFront _ (covers_sub hL (by decide)) h

theorem keep_unpark {L : List Area} {u0 : State} (p : Pending) {s : State} (hL : Covers [.oda] L) (h : Only L u0 s) :
    Only L u0 (unpark p s) := by
  unfold unpark
  repeat' first
    | with_reducible exact h
    | with_reducible assumption
    | extract_lets
    | with_reducible refine keep_setOda _ (covers_sub hL (by decide)) ?_
    | with_reducible refine keep_updSession _ _ (covers_sub hL (by decide)) ?_

theorem keep_loseFw {L : List Area} {u0 : State} (p : Pending) {s : State} (hL : Covers [.ev, .nut, .oda, .port] L) (h : Only L u0 s) :
    Only L u0 (loseFw p s) := by
  unfold loseFw
  repeat' first
    | with_reducible exact h
    | with_reducible assumption
    | extract_lets
    | with_reducible refine keep_finish _ _ (covers_sub hL (by decide)) ?_
    | with_reducible refine keep_unpark _ (covers_sub hL (by decide)) ?_
    | split
    | with_reducible refine only_ite (fun _ => ?_) (fun _ => ?_)
    | dsimp -zeta +zetaDelta only

theorem keep_abortFw {L : List Area} {u0 : State} {s : State} (hL : Covers [.ev, .nut, .oda, .port, .bar] L) (h : Only L u0 s) :
    Only L u0 (abortFw s) := by
  unfold abortFw
  repeat' first
    | with_reducible exact h
    | with_reducible assumption
    | extract_lets
    | with_reducible refine keep_loseFw _ (covers_sub hL (by decide)) ?_
    | with_reducible refine keep_setBar _ (covers_sub hL (by decide)) ?_
    | with_reducible refine only_forEach _ _ (fun _ _ _ => ?_) ?_

theorem keep_closeSession {L : List Area} {u0 : State} (n : Nat) {s : State} (hL : Covers [.oda] L) (h : Only L u0 s) :
    Only L u0 (closeSession n s) := by
  unfold closeSession
  repeat' first
    | with_reducible exact h
    | with_reducible assumption
    | extract_lets
    | with_reducible refine keep_setOda _ (covers_sub hL (by decide)) ?_
    | split

theorem keep_closeWhere {L : List Area} {u0 : State} (f : Session → Bool) {s : State} (hL : Covers [.oda] L) (h : Only L u0 s) :
    Only L u0 (closeWhere f s) := by
  unfold closeWhere
  repeat' first
    | with_reducible exact h
    | with_reducible assumption
    | extract_lets
    | with_reducible refine keep_closeSession _ (covers_sub hL (by decide)) ?_
    | with_reducible refine only_forEach _ _ (fun _ _ _ => ?_) ?_

set_option tactic.hygienic false in
theorem keep_releaseOne {L : List Area} {u0 : State} (p : Pending) {s : State} (hL : Covers [.ev, .nut, .oda, .port, .mem, .bar, .free] L) (h : Only L u0 s) :
    Only L u0 (releaseOne p s) := by
  unfold releaseOne
  repeat' first
    | with_reducible exact h
    | with_reducible assumption
    | extract_lets
    | with_reducible refine keep_finish _ _ (covers_sub hL (by decide)) ?_
    | with_reducible refine keep_passFront _ (covers_sub hL (by decide)) ?_
    | with_reducible refine keep_runItems _ _ (covers_sub hL (by decide)) ?_
    | with_reducible refine keep_unpark _ (covers_sub hL (by decide)) ?_
    | split
    | with_reducible refine only_ite (fun _ => ?_) (fun _ => ?_)
    | dsimp -zeta +zetaDelta only
    | unfold s1

theorem keep_releaseSteps {L : List Area} {u0 : State} {s : State} (hL : Covers [.ev, .nut, .oda, .port, .mem, .bar, .free] L) (h : Only L u0 s) :
    Only L u0 (releaseSteps s) := by
  unfold releaseSteps
  repeat' first
    | with_reducible exact h
    | with_reducible assumption
    | extract_lets
    | with_reducible refine keep_releaseOne _ (covers_sub hL (by decide)) ?_
    | with_reducible refine keep_setBar _ (covers_sub hL (by decide)) ?_
    | with_reducible refine only_forEach _ _ (fun _ _ _ => ?_) ?_
    | dsimp -zeta +zetaDelta only

theorem keep_odaUp {L : List Area} {u0 : State} (bare : Bool) {s : State} (hL : Covers [.oda] L) (h : Only L u0 s) :
    Only L u0 (odaUp bare s) := by
  unfold odaUp
  repeat' first
    | with_reducible exact h
    | with_reducible assumption
    | extract_lets
    | with_reducible refine keep_setOda _ (covers_sub hL (by decide)) ?_

end Sys2Proof.Laws
end

