-- ==== Sys2Proof/Laws/FrameUpdate.lean ====
section
/-! SUPPORT. What the operations of Machine/Update.lean may change: an operation keeps a frame that allows the parts it lists. -/
namespace Sys2Proof.Laws

open Sys2Proof.Machine

theorem keep_mainReset {L : List Area} {u0 : State} (why : Nat) (kept : Bool) {s : State} (hL : Covers [.nums, .clk, .acc, .heat, .part, .ev, .nut, .oda, .port, .eng, .img, .ani, .mem, .bar, .cardamom] L) (h : Only L u0 s) :
    Only L u0 (mainReset why kept s) := by
  unfold mainReset
  repeat' first
    | with_reducible exact h
    | with_reducible assumption
    | extract_lets
    | with_reducible refine keep_enterPart _ (covers_sub hL (by decide)) ?_
    | with_reducible refine keep_inc32 _ (covers_sub hL (by decide)) ?_
    | with_reducible refine keep_mainDown _ (covers_sub hL (by decide)) ?_
    | with_reducible refine keep_raiseRye _ _ _ (covers_sub hL (by decide)) ?_
    | split
    | with_reducible refine only_ite (fun _ => ?_) (fun _ => ?_)
    | with_reducible refine keep_mk_part _ (covers_sub hL (by decide)) ?_
    | exact only_upd (by assumption) (fun a ha => by cases a <;> first | exact absurd (hL _ (by decide)) ha | rfl)
    | dsimp -zeta +zetaDelta only

theorem keep_failShadow {L : List Area} {u0 : State} (code : Nat) {s : State} (hL : Covers [.part, .ev, .nut, .bar] L) (h : Only L u0 s) :
    Only L u0 (failShadow code s) := by
  unfold failShadow
  repeat' first
    | with_reducible exact h
    | with_reducible assumption
    | extract_lets
    | with_reducible refine keep_dropUpdate (covers_sub hL (by decide)) ?_
    | with_reducible refine keep_noteDegraded (covers_sub hL (by decide)) ?_
    | with_reducible refine keep_otherOff (covers_sub hL (by decide)) ?_
    | with_reducible refine keep_updError _ _ (covers_sub hL (by decide)) ?_

theorem keep_crashEndsShadow {L : List Area} {u0 : State} {s : State} (hL : Covers [.part, .ev, .nut, .bar] L) (h : Only L u0 s) :
    Only L u0 (crashEndsShadow s) := by
  unfold crashEndsShadow
  repeat' first
    | with_reducible exact h
    | with_reducible assumption
    | extract_lets
    | with_reducible refine keep_failShadow _ (covers_sub hL (by decide)) ?_
    | split

theorem keep_fwDown {L : List Area} {u0 : State} {s : State} (hL : Covers [.nums, .part, .ev, .nut, .oda, .port, .eng, .mem, .bar, .free] L) (h : Only L u0 s) :
    Only L u0 (fwDown s) := by
  unfold fwDown
  repeat' first
    | with_reducible exact h
    | with_reducible assumption
    | extract_lets
    | with_reducible refine keep_abortFw (covers_sub hL (by decide)) ?_
    | with_reducible refine keep_dropFirmware (covers_sub hL (by decide)) ?_
    | with_reducible refine keep_mk_part _ (covers_sub hL (by decide)) ?_
    | exact only_upd (by assumption) (fun a ha => by cases a <;> first | exact absurd (hL _ (by decide)) ha | rfl)

theorem keep_restartFw {L : List Area} {u0 : State} (c : Fin 2) (cause : Nat) {s : State} (hL : Covers [.nums, .part, .ev, .nut, .oda, .port, .eng, .mem, .bar, .free] L) (h : Only L u0 s) :
    Only L u0 (restartFw c cause s) := by
  unfold restartFw
  repeat' first
    | with_reducible exact h
    | with_reducible assumption
    | extract_lets
    | with_reducible refine keep_fwDown (covers_sub hL (by decide)) ?_
    | with_reducible refine keep_noteDegraded (covers_sub hL (by decide)) ?_
    | with_reducible refine keep_updCluster _ _ (covers_sub hL (by decide)) ?_

theorem keep_keepJournal {L : List Area} {u0 : State} {s : State} (hL : Covers [.nums, .bar] L) (h : Only L u0 s) :
    Only L u0 (keepJournal s) := by
  unfold keepJournal
  repeat' first
    | with_reducible exact h
    | with_reducible assumption
    | extract_lets
    | with_reducible refine keep_incMax _ _ _ (covers_sub hL (by decide)) ?_
    | with_reducible refine keep_setBar _ (covers_sub hL (by decide)) ?_
    | dsimp -zeta +zetaDelta only

theorem keep_measureFw {L : List Area} {u0 : State} (kind : Nat) (extra : Nat) {s : State} (hL : Covers [.cardamom] L) (h : Only L u0 s) :
    Only L u0 (measureFw kind extra s) := by
  unfold measureFw
  repeat' first
    | with_reducible exact h
    | with_reducible assumption
    | extract_lets
    | with_reducible refine keep_logMeas _ _ _ (covers_sub hL (by decide)) ?_
    | split

theorem keep_moveIrqs {L : List Area} {u0 : State} {s : State} (hL : Covers [.bar] L) (h : Only L u0 s) :
    Only L u0 (moveIrqs s) := by
  unfold moveIrqs
  repeat' first
    | with_reducible exact h
    | with_reducible assumption
    | extract_lets
    | with_reducible refine keep_setBar _ (covers_sub hL (by decide)) ?_

theorem keep_handBack {L : List Area} {u0 : State} {s : State} (hL : Covers [.nums, .part, .ev, .nut, .oda, .port, .eng, .mem, .bar, .cardamom, .free] L) (h : Only L u0 s) :
    Only L u0 (handBack s) := by
  unfold handBack
  repeat' first
    | with_reducible exact h
    | with_reducible assumption
    | extract_lets
    | with_reducible refine keep_fwDown (covers_sub hL (by decide)) ?_
    | with_reducible refine keep_keepJournal (covers_sub hL (by decide)) ?_
    | with_reducible refine keep_measureFw _ _ (covers_sub hL (by decide)) ?_
    | with_reducible refine keep_moveIrqs (covers_sub hL (by decide)) ?_
    | with_reducible refine keep_noteDegraded (covers_sub hL (by decide)) ?_
    | with_reducible refine keep_setBar _ (covers_sub hL (by decide)) ?_
    | with_reducible refine keep_updCluster _ _ (covers_sub hL (by decide)) ?_
    | with_reducible refine keep_updError _ _ (covers_sub hL (by decide)) ?_
    | dsimp -zeta +zetaDelta only

theorem keep_trialFails {L : List Area} {u0 : State} (kept : Bool) {s : State} (hL : Covers [.nums, .clk, .acc, .heat, .part, .ev, .nut, .oda, .port, .eng, .img, .ani, .mem, .bar, .cardamom, .free] L) (h : Only L u0 s) :
    Only L u0 (trialFails kept s) := by
  unfold trialFails
  repeat' first
    | with_reducible exact h
    | with_reducible assumption
    | extract_lets
    | with_reducible refine keep_dropUpdate (covers_sub hL (by decide)) ?_
    | with_reducible refine keep_handBack (covers_sub hL (by decide)) ?_
    | with_reducible refine keep_mainReset _ _ (covers_sub hL (by decide)) ?_
    | with_reducible refine keep_restoreSelector (covers_sub hL (by decide)) ?_
    | with_reducible refine keep_updError _ _ (covers_sub hL (by decide)) ?_
    | split
    | with_reducible refine only_ite (fun _ => ?_) (fun _ => ?_)

theorem keep_abortUpdate {L : List Area} {u0 : State} (kept : Bool) {s : State} (hL : Covers [.nums, .clk, .acc, .heat, .part, .ev, .nut, .oda, .port, .eng, .img, .ani, .mem, .bar, .cardamom, .free] L) (h : Only L u0 s) :
    Only L u0 (abortUpdate kept s) := by
  unfold abortUpdate
  repeat' first
    | with_reducible exact h
    | with_reducible assumption
    | extract_lets
    | with_reducible refine keep_dropUpdate (covers_sub hL (by decide)) ?_
    | with_reducible refine keep_noteDegraded (covers_sub hL (by decide)) ?_
    | with_reducible refine keep_otherOff (covers_sub hL (by decide)) ?_
    | with_reducible refine keep_restoreSelector (covers_sub hL (by decide)) ?_
    | with_reducible refine keep_spoilSlot (covers_sub hL (by decide)) ?_
    | with_reducible refine keep_trialFails _ (covers_sub hL (by decide)) ?_
    | with_reducible refine keep_updError _ _ (covers_sub hL (by decide)) ?_
    | split
    | with_reducible refine only_ite (fun _ => ?_) (fun _ => ?_)

theorem keep_confirmUpdate {L : List Area} {u0 : State} {s : State} (hL : Covers [.bar] L) (h : Only L u0 s) :
    Only L u0 (confirmUpdate s) := by
  unfold confirmUpdate
  repeat' first
    | with_reducible exact h
    | with_reducible assumption
    | extract_lets
    | with_reducible refine keep_setBar _ (covers_sub hL (by decide)) ?_
    | split
    | with_reducible refine only_ite (fun _ => ?_) (fun _ => ?_)

theorem keep_setSec {L : List Area} {u0 : State} (f : Security → Security) {s : State} (hL : Covers [.cardamom] L) (h : Only L u0 s) :
    Only L u0 (setSec f s) := by
  unfold setSec
  repeat' first
    | with_reducible exact h
    | with_reducible assumption
    | extract_lets
    | with_reducible refine keep_mk_cardamom _ (covers_sub hL (by decide)) ?_
    | exact only_upd (by assumption) (fun a ha => by cases a <;> first | exact absurd (hL _ (by decide)) ha | rfl)

theorem keep_commitRec {L : List Area} {u0 : State} (f : SecRecord → SecRecord) {s : State} (hL : Covers [.cardamom] L) (h : Only L u0 s) :
    Only L u0 (commitRec f s) := by
  unfold commitRec
  repeat' first
    | with_reducible exact h
    | with_reducible assumption
    | extract_lets
    | with_reducible refine keep_setSec _ (covers_sub hL (by decide)) ?_
    | dsimp -zeta +zetaDelta only

theorem keep_raiseCtr {L : List Area} {u0 : State} (k : Nat) (v : Nat) {s : State} (hL : Covers [.cardamom] L) (h : Only L u0 s) :
    Only L u0 (raiseCtr k v s) := by
  unfold raiseCtr
  repeat' first
    | with_reducible exact h
    | with_reducible assumption
    | extract_lets
    | with_reducible refine keep_commitRec _ (covers_sub hL (by decide)) ?_
    | with_reducible refine keep_logMeas _ _ _ (covers_sub hL (by decide)) ?_

theorem keep_startUpdate {L : List Area} {u0 : State} (bs : List Byte) {s : State} (hL : Covers [.nums, .part, .ev, .nut, .bar] L) (h : Only L u0 s) :
    Only L u0 (startUpdate bs s) := by
  unfold startUpdate
  repeat' first
    | with_reducible exact h
    | with_reducible assumption
    | extract_lets
    | with_reducible refine keep_dropUpdate (covers_sub hL (by decide)) ?_
    | with_reducible refine keep_noteDegraded (covers_sub hL (by decide)) ?_
    | with_reducible refine keep_setBar _ (covers_sub hL (by decide)) ?_
    | with_reducible refine keep_setN _ _ (covers_sub hL (by decide)) ?_
    | with_reducible refine keep_setSlot _ _ (covers_sub hL (by decide)) ?_
    | with_reducible refine keep_setUpd _ (covers_sub hL (by decide)) ?_
    | dsimp -zeta +zetaDelta only

theorem keep_takeOver {L : List Area} {u0 : State} {s : State} (hL : Covers [.nums, .ev, .nut, .oda, .port, .mem, .bar, .cardamom, .free] L) (h : Only L u0 s) :
    Only L u0 (takeOver s) := by
  unfold takeOver
  repeat' first
    | with_reducible exact h
    | with_reducible assumption
    | extract_lets
    | with_reducible refine keep_measureFw _ _ (covers_sub hL (by decide)) ?_
    | with_reducible refine keep_moveIrqs (covers_sub hL (by decide)) ?_
    | with_reducible refine keep_releaseSteps (covers_sub hL (by decide)) ?_
    | with_reducible refine keep_setBar _ (covers_sub hL (by decide)) ?_
    | with_reducible refine keep_setN _ _ (covers_sub hL (by decide)) ?_
    | with_reducible refine keep_setUpd _ (covers_sub hL (by decide)) ?_
    | with_reducible refine keep_updCluster _ _ (covers_sub hL (by decide)) ?_
    | dsimp -zeta +zetaDelta only

theorem keep_countCrash {L : List Area} {u0 : State} (c : Fin 2) {s : State} (hL : Covers [.nums, .part, .ev, .nut] L) (h : Only L u0 s) :
    Only L u0 (countCrash c s) := by
  unfold countCrash
  repeat' first
    | with_reducible exact h
    | with_reducible assumption
    | extract_lets
    | with_reducible refine keep_inc32 _ (covers_sub hL (by decide)) ?_
    | with_reducible refine keep_raiseMain _ _ _ (covers_sub hL (by decide)) ?_
    | with_reducible refine keep_mk_part _ (covers_sub hL (by decide)) ?_
    | exact only_upd (by assumption) (fun a ha => by cases a <;> first | exact absurd (hL _ (by decide)) ha | rfl)
    | dsimp -zeta +zetaDelta only

theorem keep_crashControl {L : List Area} {u0 : State} (c : Fin 2) (kept : Bool) {s : State} (hL : Covers [.nums, .clk, .acc, .heat, .part, .ev, .nut, .oda, .port, .eng, .img, .ani, .mem, .bar, .cardamom, .free] L) (h : Only L u0 s) :
    Only L u0 (crashControl c kept s) := by
  unfold crashControl
  repeat' first
    | with_reducible exact h
    | with_reducible assumption
    | extract_lets
    | with_reducible refine keep_countCrash _ (covers_sub hL (by decide)) ?_
    | with_reducible refine keep_crashEndsShadow (covers_sub hL (by decide)) ?_
    | with_reducible refine keep_dropUpdate (covers_sub hL (by decide)) ?_
    | with_reducible refine keep_mainReset _ _ (covers_sub hL (by decide)) ?_
    | with_reducible refine keep_otherOff (covers_sub hL (by decide)) ?_
    | with_reducible refine keep_releaseSteps (covers_sub hL (by decide)) ?_
    | with_reducible refine keep_restartFw _ _ (covers_sub hL (by decide)) ?_
    | with_reducible refine keep_trialFails _ (covers_sub hL (by decide)) ?_
    | with_reducible refine keep_updError _ _ (covers_sub hL (by decide)) ?_
    | split
    | with_reducible refine only_ite (fun _ => ?_) (fun _ => ?_)
    | dsimp -zeta +zetaDelta only

theorem keep_crashShadow {L : List Area} {u0 : State} (c : Fin 2) (kept : Bool) {s : State} (hL : Covers [.nums, .clk, .acc, .heat, .part, .ev, .nut, .oda, .port, .eng, .img, .ani, .mem, .bar, .cardamom, .free] L) (h : Only L u0 s) :
    Only L u0 (crashShadow c kept s) := by
  unfold crashShadow
  repeat' first
    | with_reducible exact h
    | with_reducible assumption
    | extract_lets
    | with_reducible refine keep_countCrash _ (covers_sub hL (by decide)) ?_
    | with_reducible refine keep_failShadow _ (covers_sub hL (by decide)) ?_
    | with_reducible refine keep_mainReset _ _ (covers_sub hL (by decide)) ?_
    | with_reducible refine keep_otherOff (covers_sub hL (by decide)) ?_
    | with_reducible refine keep_releaseSteps (covers_sub hL (by decide)) ?_
    | split
    | with_reducible refine only_ite (fun _ => ?_) (fun _ => ?_)
    | dsimp -zeta +zetaDelta only

theorem keep_failSlot {L : List Area} {u0 : State} (code : Nat) {s : State} (hL : Covers [.part, .ev, .nut, .bar] L) (h : Only L u0 s) :
    Only L u0 (failSlot code s) := by
  unfold failSlot
  repeat' first
    | with_reducible exact h
    | with_reducible assumption
    | extract_lets
    | with_reducible refine keep_dropUpdate (covers_sub hL (by decide)) ?_
    | with_reducible refine keep_noteDegraded (covers_sub hL (by decide)) ?_
    | with_reducible refine keep_setSlot _ _ (covers_sub hL (by decide)) ?_
    | with_reducible refine keep_updError _ _ (covers_sub hL (by decide)) ?_

theorem keep_ignored {L : List Area} {u0 : State} {s : State} (hL : Covers [.nums] L) (h : Only L u0 s) :
    Only L u0 (ignored s) := by
  unfold ignored
  repeat' first
    | with_reducible exact h
    | with_reducible assumption
    | extract_lets
    | with_reducible refine keep_inc32 _ (covers_sub hL (by decide)) ?_

theorem keep_handover {L : List Area} {u0 : State} (c : Fin 2) (role : Role) (st : UpdState) (more : Bool)
    (f : State → State) {s : State} (hf : ∀ u, Only L u0 u → Only L u0 (f u)) (hL : Covers [.nums, .bar] L) (h : Only L u0 s) :
    Only L u0 (handover c role st more f s) := by
  unfold handover
  split
  · exact h
  · split
    · exact hf _ (keep_routeIrq _ (covers_sub hL (by decide)) h)
    · exact keep_ignored (covers_sub hL (by decide)) h

theorem keep_beginReady {L : List Area} {u0 : State} {s : State} (hL : Covers [.nums, .ev, .nut, .bar] L) (h : Only L u0 s) :
    Only L u0 (beginReady s) := by
  unfold beginReady
  repeat' first
    | with_reducible exact h
    | with_reducible assumption
    | extract_lets
    | with_reducible refine keep_setBar _ (covers_sub hL (by decide)) ?_
    | with_reducible refine keep_setN _ _ (covers_sub hL (by decide)) ?_
    | with_reducible refine keep_setUpd _ (covers_sub hL (by decide)) ?_
    | dsimp -zeta +zetaDelta only

end Sys2Proof.Laws
end

