-- ==== Sys2Proof/Laws/FramePart.lean ====
section
/-! SUPPORT. What the operations of Machine/Part.lean may change: an operation keeps a frame that allows the parts it lists. -/
namespace Sys2Proof.Laws

open Sys2Proof.Machine

theorem keep_releaseQuar {L : List Area} {u0 : State} (a : Fin 8) {s : State} (hL : Covers [.nums, .pow, .acc] L) (h : Only L u0 s) :
    Only L u0 (releaseQuar a s) := by
  unfold releaseQuar
  repeat' first
    | with_reducible exact h
    | with_reducible assumption
    | extract_lets
    | with_reducible refine keep_storeNum _ _ (covers_sub hL (by decide)) ?_
    | with_reducible refine keep_updAcc _ _ (covers_sub hL (by decide)) ?_
    | split
    | with_reducible refine only_ite (fun _ => ?_) (fun _ => ?_)

theorem keep_setReq {L : List Area} {u0 : State} (au : Auth) (a : Fin 8) (v : Nat) {s : State} (hL : Covers [.nums, .br, .sq, .acc, .ev, .nut, .eng] L) (h : Only L u0 s) :
    Only L u0 (setReq au a v s) := by
  unfold setReq
  repeat' first
    | with_reducible exact h
    | with_reducible assumption
    | extract_lets
    | with_reducible refine keep_settleReq _ (covers_sub hL (by decide)) ?_
    | with_reducible refine keep_updAcc _ _ (covers_sub hL (by decide)) ?_
    | split

theorem keep_warmRestart {L : List Area} {u0 : State} {s : State} (hL : Covers [.nums, .part, .ev, .nut, .oda, .port, .eng, .mem, .bar, .free] L) (h : Only L u0 s) :
    Only L u0 (warmRestart s) := by
  unfold warmRestart
  repeat' first
    | with_reducible exact h
    | with_reducible assumption
    | extract_lets
    | with_reducible refine keep_crashEndsShadow (covers_sub hL (by decide)) ?_
    | with_reducible refine keep_restartFw _ _ (covers_sub hL (by decide)) ?_

theorem keep_setPart {L : List Area} {u0 : State} (f : Part → Part) {s : State} (hL : Covers [.part] L) (h : Only L u0 s) :
    Only L u0 (setPart f s) := by
  unfold setPart
  repeat' first
    | with_reducible exact h
    | with_reducible assumption
    | extract_lets
    | with_reducible refine keep_mk_part _ (covers_sub hL (by decide)) ?_
    | exact only_upd (by assumption) (fun a ha => by cases a <;> first | exact absurd (hL _ (by decide)) ha | rfl)

theorem keep_startMac {L : List Area} {u0 : State} (p : Fin 2) {s : State} (hL : Covers [.port] L) (h : Only L u0 s) :
    Only L u0 (startMac p s) := by
  unfold startMac
  repeat' first
    | with_reducible exact h
    | with_reducible assumption
    | extract_lets
    | with_reducible refine keep_openGates _ (covers_sub hL (by decide)) ?_
    | with_reducible refine keep_updHost _ _ (covers_sub hL (by decide)) ?_
    | split
    | with_reducible refine only_ite (fun _ => ?_) (fun _ => ?_)

theorem keep_startSb {L : List Area} {u0 : State} (a : Fin 8) {s : State} (hL : Covers [.port] L) (h : Only L u0 s) :
    Only L u0 (startSb a s) := by
  unfold startSb
  repeat' first
    | with_reducible exact h
    | with_reducible assumption
    | extract_lets
    | with_reducible refine keep_updSb _ _ (covers_sub hL (by decide)) ?_
    | split
    | with_reducible refine only_ite (fun _ => ?_) (fun _ => ?_)

theorem keep_startMacs {L : List Area} {u0 : State} {s : State} (hL : Covers [.port] L) (h : Only L u0 s) :
    Only L u0 (startMacs s) := by
  unfold startMacs
  repeat' first
    | with_reducible exact h
    | with_reducible assumption
    | extract_lets
    | with_reducible refine keep_startMac _ (covers_sub hL (by decide)) ?_

theorem keep_bootFails {L : List Area} {u0 : State} {s : State} (hL : Covers [.nums, .br, .sq, .acc, .part, .ev, .nut, .oda, .port, .eng, .ani, .bar] L) (h : Only L u0 s) :
    Only L u0 (bootFails s) := by
  unfold bootFails
  repeat' first
    | with_reducible exact h
    | with_reducible assumption
    | extract_lets
    | with_reducible refine keep_enterSafe _ (covers_sub hL (by decide)) ?_
    | with_reducible refine keep_odaUp _ (covers_sub hL (by decide)) ?_
    | with_reducible refine keep_serializerUp (covers_sub hL (by decide)) ?_
    | with_reducible refine keep_setPart _ (covers_sub hL (by decide)) ?_
    | with_reducible refine keep_startMacs (covers_sub hL (by decide)) ?_
    | split
    | with_reducible refine only_ite (fun _ => ?_) (fun _ => ?_)
    | dsimp -zeta +zetaDelta only

theorem keep_slotFails {L : List Area} {u0 : State} {s : State} (hL : Covers [.nums, .br, .sq, .acc, .part, .ev, .nut, .oda, .port, .eng, .ani, .bar] L) (h : Only L u0 s) :
    Only L u0 (slotFails s) := by
  unfold slotFails
  repeat' first
    | with_reducible exact h
    | with_reducible assumption
    | extract_lets
    | with_reducible refine keep_bootFails (covers_sub hL (by decide)) ?_
    | with_reducible refine keep_dropUpdate (covers_sub hL (by decide)) ?_
    | with_reducible refine keep_raiseMain _ _ _ (covers_sub hL (by decide)) ?_
    | with_reducible refine keep_restoreSelector (covers_sub hL (by decide)) ?_
    | with_reducible refine keep_setPart _ (covers_sub hL (by decide)) ?_
    | with_reducible refine keep_updError _ _ (covers_sub hL (by decide)) ?_
    | split
    | with_reducible refine only_ite (fun _ => ?_) (fun _ => ?_)
    | dsimp -zeta +zetaDelta only

theorem keep_releaseFw {L : List Area} {u0 : State} (x : FwImage) {s : State} (hL : Covers [.nums, .part, .ev, .nut, .mem, .bar, .cardamom] L) (h : Only L u0 s) :
    Only L u0 (releaseFw x s) := by
  unfold releaseFw
  repeat' first
    | with_reducible exact h
    | with_reducible assumption
    | extract_lets
    | with_reducible refine keep_logMeas _ _ _ (covers_sub hL (by decide)) ?_
    | with_reducible refine keep_setBar _ (covers_sub hL (by decide)) ?_
    | with_reducible refine keep_setMem _ (covers_sub hL (by decide)) ?_
    | with_reducible refine keep_setN _ _ (covers_sub hL (by decide)) ?_
    | with_reducible refine keep_setPart _ (covers_sub hL (by decide)) ?_
    | with_reducible refine keep_setSlot _ _ (covers_sub hL (by decide)) ?_
    | with_reducible refine keep_setUpd _ (covers_sub hL (by decide)) ?_
    | with_reducible refine keep_updCluster _ _ (covers_sub hL (by decide)) ?_
    | split
    | with_reducible refine only_ite (fun _ => ?_) (fun _ => ?_)
    | dsimp -zeta +zetaDelta only

theorem keep_memEmpty {L : List Area} {u0 : State} {s : State} (hL : Covers [.ev, .eng, .img, .mem] L) (h : Only L u0 s) :
    Only L u0 (memEmpty s) := by
  unfold memEmpty
  repeat' first
    | with_reducible exact h
    | with_reducible assumption
    | extract_lets
    | with_reducible refine keep_setEng _ (covers_sub hL (by decide)) ?_
    | with_reducible refine keep_setImg _ (covers_sub hL (by decide)) ?_
    | with_reducible refine keep_setMem _ (covers_sub hL (by decide)) ?_
    | with_reducible refine keep_mk_ev _ (covers_sub hL (by decide)) ?_
    | exact only_upd (by assumption) (fun a ha => by cases a <;> first | exact absurd (hL _ (by decide)) ha | rfl)
    | dsimp -zeta +zetaDelta only

theorem keep_memLost {L : List Area} {u0 : State} {s : State} (hL : Covers [.ev, .nut, .eng, .img, .mem] L) (h : Only L u0 s) :
    Only L u0 (memLost s) := by
  unfold memLost
  repeat' first
    | with_reducible exact h
    | with_reducible assumption
    | extract_lets
    | with_reducible refine keep_mapSess _ (covers_sub hL (by decide)) ?_
    | with_reducible refine keep_memEmpty (covers_sub hL (by decide)) ?_
    | with_reducible refine keep_raiseMain _ _ _ (covers_sub hL (by decide)) ?_
    | with_reducible refine keep_setEng _ (covers_sub hL (by decide)) ?_
    | split
    | with_reducible refine only_ite (fun _ => ?_) (fun _ => ?_)
    | dsimp -zeta +zetaDelta only

theorem keep_readyUp {L : List Area} {u0 : State} {s : State} (hL : Covers [.acc, .heat, .part, .ev, .nut, .oda, .port, .eng, .img, .mem, .free] L) (h : Only L u0 s) :
    Only L u0 (readyUp s) := by
  unfold readyUp
  repeat' first
    | with_reducible exact h
    | with_reducible assumption
    | extract_lets
    | with_reducible refine keep_enterPart _ (covers_sub hL (by decide)) ?_
    | with_reducible refine keep_memLost (covers_sub hL (by decide)) ?_
    | with_reducible refine keep_noteDegraded (covers_sub hL (by decide)) ?_
    | with_reducible refine keep_odaUp _ (covers_sub hL (by decide)) ?_
    | with_reducible refine keep_raiseMain _ _ _ (covers_sub hL (by decide)) ?_
    | with_reducible refine keep_recomputeCaps (covers_sub hL (by decide)) ?_
    | with_reducible refine keep_serializerUp (covers_sub hL (by decide)) ?_
    | with_reducible refine keep_setPart _ (covers_sub hL (by decide)) ?_
    | with_reducible refine keep_settleLevel (covers_sub hL (by decide)) ?_
    | with_reducible refine keep_startMacs (covers_sub hL (by decide)) ?_
    | with_reducible refine keep_startSb _ (covers_sub hL (by decide)) ?_
    | with_reducible refine only_forAll _ _ (fun _ _ _ => ?_) ?_
    | split
    | with_reducible refine only_ite (fun _ => ?_) (fun _ => ?_)
    | dsimp -zeta +zetaDelta only

theorem keep_serviceOff {L : List Area} {u0 : State} {s : State} (hL : Covers [.nums, .br, .sq, .acc, .ev, .nut, .oda, .eng] L) (h : Only L u0 s) :
    Only L u0 (serviceOff s) := by
  unfold serviceOff
  repeat' first
    | with_reducible exact h
    | with_reducible assumption
    | extract_lets
    | with_reducible refine keep_closeWhere _ (covers_sub hL (by decide)) ?_
    | with_reducible refine keep_recomputeCaps (covers_sub hL (by decide)) ?_
    | with_reducible refine keep_setN _ _ (covers_sub hL (by decide)) ?_
    | with_reducible refine keep_settleReq _ (covers_sub hL (by decide)) ?_
    | with_reducible refine keep_updAcc _ _ (covers_sub hL (by decide)) ?_
    | with_reducible refine only_forAll _ _ (fun _ _ _ => ?_) ?_
    | dsimp -zeta +zetaDelta only

theorem keep_openBlocked {L : List Area} {u0 : State} {s : State} (hL : Covers [.nums, .pow, .br, .sq, .acc, .ev, .nut, .eng] L) (h : Only L u0 s) :
    Only L u0 (openBlocked s) := by
  unfold openBlocked
  repeat' first
    | with_reducible exact h
    | with_reducible assumption
    | extract_lets
    | with_reducible refine keep_enterBr _ _ _ (covers_sub hL (by decide)) ?_
    | split
    | with_reducible refine only_ite (fun _ => ?_) (fun _ => ?_)

end Sys2Proof.Laws
end

