-- ==== Sys2Proof/Laws/FrameSecure.lean ====
section
/-! SUPPORT. What the operations of Machine/Secure.lean may change: an operation keeps a frame that allows the parts it lists. -/
namespace Sys2Proof.Laws

open Sys2Proof.Machine

theorem keep_keyCmdEffect {L : List Area} {u0 : State} (bs : List Byte) {s : State} (hL : Covers [.oda, .cardamom] L) (h : Only L u0 s) :
    Only L u0 (keyCmdEffect bs s) := by
  unfold keyCmdEffect
  repeat' first
    | with_reducible exact h
    | with_reducible assumption
    | extract_lets
    | with_reducible refine keep_closeWhere _ (covers_sub hL (by decide)) ?_
    | with_reducible refine keep_commitRec _ (covers_sub hL (by decide)) ?_
    | with_reducible refine keep_logMeas _ _ _ (covers_sub hL (by decide)) ?_
    | with_reducible refine keep_setSec _ (covers_sub hL (by decide)) ?_
    | split
    | dsimp -zeta +zetaDelta only

theorem keep_ownerReset {L : List Area} {u0 : State} {s : State} (hL : Covers [.nums, .pow, .oda, .cardamom] L) (h : Only L u0 s) :
    Only L u0 (ownerReset s) := by
  unfold ownerReset
  repeat' first
    | with_reducible exact h
    | with_reducible assumption
    | extract_lets
    | with_reducible refine keep_closeWhere _ (covers_sub hL (by decide)) ?_
    | with_reducible refine keep_commitRec _ (covers_sub hL (by decide)) ?_
    | with_reducible refine keep_logMeas _ _ _ (covers_sub hL (by decide)) ?_
    | with_reducible refine keep_setSec _ (covers_sub hL (by decide)) ?_
    | with_reducible refine keep_storeNum _ _ (covers_sub hL (by decide)) ?_
    | dsimp -zeta +zetaDelta only

theorem keep_quoteEffect {L : List Area} {u0 : State} (n : Nat) (nonce : List Byte) (c : Count) {s : State} (hL : Covers [.oda] L) (h : Only L u0 s) :
    Only L u0 (quoteEffect n nonce c s) := by
  unfold quoteEffect
  repeat' first
    | with_reducible exact h
    | with_reducible assumption
    | extract_lets
    | with_reducible refine keep_updSession _ _ (covers_sub hL (by decide)) ?_

theorem keep_raiseEffect {L : List Area} {u0 : State} (bs : List Byte) {s : State} (hL : Covers [.cardamom] L) (h : Only L u0 s) :
    Only L u0 (raiseEffect bs s) := by
  unfold raiseEffect
  repeat' first
    | with_reducible exact h
    | with_reducible assumption
    | extract_lets
    | with_reducible refine keep_raiseCtr _ _ (covers_sub hL (by decide)) ?_

theorem keep_sendPort {L : List Area} {u0 : State} (p : Fin 3) (cls : Nat) (m : Msg) {s : State} (hL : Covers [.ev, .nut, .port] L) (h : Only L u0 s) :
    Only L u0 (sendPort p cls m s) := by
  unfold sendPort
  repeat' first
    | with_reducible exact h
    | with_reducible assumption
    | extract_lets
    | with_reducible refine keep_sendHost _ _ _ (covers_sub hL (by decide)) ?_
    | with_reducible refine keep_sendSvc _ _ (covers_sub hL (by decide)) ?_
    | split
    | with_reducible refine only_ite (fun _ => ?_) (fun _ => ?_)

theorem keep_setupFails {L : List Area} {u0 : State} (p : Fin 3) (code : Nat) {s : State} (hL : Covers [.nums, .ev, .nut, .port] L) (h : Only L u0 s) :
    Only L u0 (setupFails p code s) := by
  unfold setupFails
  repeat' first
    | with_reducible exact h
    | with_reducible assumption
    | extract_lets
    | with_reducible refine keep_inc32 _ (covers_sub hL (by decide)) ?_
    | with_reducible refine keep_sendPort _ _ _ (covers_sub hL (by decide)) ?_

theorem keep_formReply {L : List Area} {u0 : State} (init : List Byte) (n : Nat) {s : State} (hL : Covers [.free] L) (h : Only L u0 s) :
    Only L u0 (formReply init n s).2 := by
  unfold formReply
  repeat' first
    | with_reducible exact h
    | with_reducible assumption
    | extract_lets
    | with_reducible refine keep_takeFree _ (covers_sub hL (by decide)) ?_
    | with_reducible refine keep_takeFree_eq (by assumption) (covers_sub hL (by decide)) ?_
    | split
    | dsimp -zeta only
    | dsimp -zeta +zetaDelta only

theorem keep_formReply_eq {L : List Area} {u0 : State} {init : List Byte} {n : Nat} {s : State} {r : _} {t : State} (e : formReply init n s = (r, t)) (hL : Covers [.free] L) (h : Only L u0 s) :
    Only L u0 t := by
  have k := keep_formReply init n hL h
  rw [e] at k
  exact k

theorem keep_replySetup {L : List Area} {u0 : State} (p : Fin 3) (id : Nat) (init : List Byte) (ders : List (List Byte)) (cs : List Cert) (r : Root) {s : State} (hL : Covers [.ev, .nut, .oda, .port, .free] L) (h : Only L u0 s) :
    Only L u0 (replySetup p id init ders cs r s) := by
  unfold replySetup
  repeat' first
    | with_reducible exact h
    | with_reducible assumption
    | extract_lets
    | with_reducible refine keep_formReply _ _ (covers_sub hL (by decide)) ?_
    | with_reducible refine keep_formReply_eq (by assumption) (covers_sub hL (by decide)) ?_
    | with_reducible refine keep_sendPort _ _ _ (covers_sub hL (by decide)) ?_
    | with_reducible refine keep_setOda _ (covers_sub hL (by decide)) ?_
    | split
    | dsimp -zeta +zetaDelta only

theorem keep_beginSetup {L : List Area} {u0 : State} (p : Fin 3) (id : Nat) (bs : List Byte) (cs : List Cert) (r : Root) {s : State} (hL : Covers [.nums, .ev, .nut, .oda, .port, .free] L) (h : Only L u0 s) :
    Only L u0 (beginSetup p id bs cs r s) := by
  unfold beginSetup
  repeat' first
    | with_reducible exact h
    | with_reducible assumption
    | extract_lets
    | with_reducible refine keep_inc32 _ (covers_sub hL (by decide)) ?_
    | with_reducible refine keep_replySetup _ _ _ _ _ _ (covers_sub hL (by decide)) ?_
    | with_reducible refine keep_setOda _ (covers_sub hL (by decide)) ?_
    | with_reducible refine keep_setupFails _ _ (covers_sub hL (by decide)) ?_
    | split
    | with_reducible refine only_ite (fun _ => ?_) (fun _ => ?_)
    | dsimp -zeta +zetaDelta only

theorem keep_takePlace {L : List Area} {u0 : State} (k : Nat) (id : List Byte) (au : Auth) {s : State} (hL : Covers [.oda] L) (h : Only L u0 s) :
    Only L u0 (takePlace k id au s) := by
  unfold takePlace
  repeat' first
    | with_reducible exact h
    | with_reducible assumption
    | extract_lets
    | with_reducible refine keep_setOda _ (covers_sub hL (by decide)) ?_
    | split
    | with_reducible refine only_ite (fun _ => ?_) (fun _ => ?_)
    | dsimp -zeta +zetaDelta only

theorem keep_keyCmd {L : List Area} {u0 : State} (op : Nat) (au : Auth) (bs : List Byte) (sigOk : Bool) {s : State} (hL : Covers [.clk, .oda, .cardamom] L) (h : Only L u0 s) :
    Only L u0 (keyCmd op au bs sigOk s) := by
  unfold keyCmd
  repeat' first
    | with_reducible exact h
    | with_reducible assumption
    | extract_lets
    | with_reducible refine keep_keyCmdEffect _ (covers_sub hL (by decide)) ?_
    | with_reducible refine keep_writeStep _ _ _ _ _ (fun _ _ _ => ?_) (covers_sub hL (by decide)) ?_
    | split
    | with_reducible refine only_ite (fun _ => ?_) (fun _ => ?_)

end Sys2Proof.Laws
end

