-- ==== Sys2Proof/Laws/FramePort.lean ====
section
/-! SUPPORT. What the operations of Machine/Port.lean may change: an operation keeps a frame that allows the parts it lists. -/
namespace Sys2Proof.Laws

open Sys2Proof.Machine

theorem keep_gateListEffect {L : List Area} {u0 : State} (p : Fin 2) (bs : List Byte) (c : Count) {s : State} (hL : Covers [.blobs, .pow, .port] L) (h : Only L u0 s) :
    Only L u0 (gateListEffect p bs c s) := by
  unfold gateListEffect
  repeat' first
    | with_reducible exact h
    | with_reducible assumption
    | extract_lets
    | with_reducible refine keep_storeBlob _ _ (covers_sub hL (by decide)) ?_
    | with_reducible refine keep_updHost _ _ (covers_sub hL (by decide)) ?_
    | split
    | with_reducible refine only_ite (fun _ => ?_) (fun _ => ?_)
    | dsimp -zeta +zetaDelta only

theorem keep_txSwitch {L : List Area} {u0 : State} (p : Fin 2) {s : State} (hL : Covers [.port] L) (h : Only L u0 s) :
    Only L u0 (txSwitch p s) := by
  unfold txSwitch
  repeat' first
    | with_reducible exact h
    | with_reducible assumption
    | extract_lets
    | with_reducible refine keep_updHost _ _ (covers_sub hL (by decide)) ?_

theorem keep_macsecKey {L : List Area} {u0 : State} (n : Nat) (p : Fin 2) {s : State} (hL : Covers [.oda, .port] L) (h : Only L u0 s) :
    Only L u0 (macsecKey n p s) := by
  unfold macsecKey
  repeat' first
    | with_reducible exact h
    | with_reducible assumption
    | extract_lets
    | with_reducible refine keep_txSwitch _ (covers_sub hL (by decide)) ?_
    | with_reducible refine keep_updHost _ _ (covers_sub hL (by decide)) ?_
    | with_reducible refine keep_updSession _ _ (covers_sub hL (by decide)) ?_
    | split
    | with_reducible refine only_ite (fun _ => ?_) (fun _ => ?_)
    | dsimp -zeta +zetaDelta only

theorem keep_leaveUp {L : List Area} {u0 : State} (p : Fin 2) {s : State} (hL : Covers [.nums, .clk, .ev, .nut, .port] L) (h : Only L u0 s) :
    Only L u0 (leaveUp p s) := by
  unfold leaveUp
  repeat' first
    | with_reducible exact h
    | with_reducible assumption
    | extract_lets
    | with_reducible refine keep_follow (covers_sub hL (by decide)) ?_
    | with_reducible refine keep_inc32 _ (covers_sub hL (by decide)) ?_
    | with_reducible refine keep_raiseMain _ _ _ (covers_sub hL (by decide)) ?_
    | with_reducible refine keep_updHost _ _ (covers_sub hL (by decide)) ?_
    | split
    | with_reducible refine only_ite (fun _ => ?_) (fun _ => ?_)

theorem keep_portModeEffect {L : List Area} {u0 : State} (p : Fin 2) (v : Nat) {s : State} (hL : Covers [.nums, .clk, .pow, .part, .ev, .nut, .port] L) (h : Only L u0 s) :
    Only L u0 (portModeEffect p v s) := by
  unfold portModeEffect
  repeat' first
    | with_reducible exact h
    | with_reducible assumption
    | extract_lets
    | with_reducible refine keep_leaveUp _ (covers_sub hL (by decide)) ?_
    | with_reducible refine keep_noteDegraded (covers_sub hL (by decide)) ?_
    | with_reducible refine keep_storeNum _ _ (covers_sub hL (by decide)) ?_
    | with_reducible refine keep_updHost _ _ (covers_sub hL (by decide)) ?_
    | split
    | with_reducible refine only_ite (fun _ => ?_) (fun _ => ?_)

theorem keep_sbModeEffect {L : List Area} {u0 : State} (a : Fin 8) (v : Nat) {s : State} (hL : Covers [.nums, .pow, .port] L) (h : Only L u0 s) :
    Only L u0 (sbModeEffect a v s) := by
  unfold sbModeEffect
  repeat' first
    | with_reducible exact h
    | with_reducible assumption
    | extract_lets
    | with_reducible refine keep_storeNum _ _ (covers_sub hL (by decide)) ?_
    | with_reducible refine keep_updSb _ _ (covers_sub hL (by decide)) ?_
    | split
    | with_reducible refine only_ite (fun _ => ?_) (fun _ => ?_)

theorem keep_switchAtEffect {L : List Area} {u0 : State} (p : Fin 2) (v : Nat) {s : State} (hL : Covers [.nums, .pow, .port] L) (h : Only L u0 s) :
    Only L u0 (switchAtEffect p v s) := by
  unfold switchAtEffect
  repeat' first
    | with_reducible exact h
    | with_reducible assumption
    | extract_lets
    | with_reducible refine keep_storeNum _ _ (covers_sub hL (by decide)) ?_
    | with_reducible refine keep_txSwitch _ (covers_sub hL (by decide)) ?_
    | with_reducible refine keep_updHost _ _ (covers_sub hL (by decide)) ?_
    | split
    | with_reducible refine only_ite (fun _ => ?_) (fun _ => ?_)
    | dsimp -zeta +zetaDelta only

theorem keep_nextEntry {L : List Area} {u0 : State} (p : Fin 2) {s : State} (hL : Covers [.clk, .ev, .nut, .port] L) (h : Only L u0 s) :
    Only L u0 (nextEntry p s) := by
  unfold nextEntry
  repeat' first
    | with_reducible exact h
    | with_reducible assumption
    | extract_lets
    | with_reducible refine keep_drainPort _ (covers_sub hL (by decide)) ?_
    | with_reducible refine keep_openGates _ (covers_sub hL (by decide)) ?_
    | with_reducible refine keep_reachCount _ (covers_sub hL (by decide)) ?_
    | split
    | with_reducible refine only_ite (fun _ => ?_) (fun _ => ?_)
    | dsimp -zeta +zetaDelta only

theorem keep_dropMacsec {L : List Area} {u0 : State} (p : Fin 2) {s : State} (hL : Covers [.nums] L) (h : Only L u0 s) :
    Only L u0 (dropMacsec p s) := by
  unfold dropMacsec
  repeat' first
    | with_reducible exact h
    | with_reducible assumption
    | extract_lets
    | with_reducible refine keep_inc64 _ (covers_sub hL (by decide)) ?_

theorem keep_macsecIn {L : List Area} {u0 : State} (p : Fin 2) (f : FrameIn) {s : State} (hL : Covers [.port] L) (h : Only L u0 s) :
    Only L u0 ((macsecIn p f s).getD s) := by
  unfold macsecIn
  repeat' first
    | with_reducible exact h
    | with_reducible assumption
    | extract_lets
    | with_reducible refine keep_updHost _ _ (covers_sub hL (by decide)) ?_
    | split
    | with_reducible refine only_ite (fun _ => ?_) (fun _ => ?_)
    | dsimp -zeta only [Option.getD]
    | dsimp -zeta +zetaDelta only

theorem keep_macsecIn_eq {L : List Area} {u0 : State} {p : Fin 2} {f : FrameIn} {s : State} {t : State} (e : macsecIn p f s = some t) (hL : Covers [.port] L) (h : Only L u0 s) :
    Only L u0 t := by
  have k := keep_macsecIn p f hL h
  rw [e] at k
  exact k

theorem keep_eliminate_eq {L : List Area} {u0 : State} {f : FrameIn} {s t : State} (e : eliminate f s = some t)
    (hL : Covers [.port] L) (h : Only L u0 s) : Only L u0 t := by
  unfold eliminate at e
  split at e
  · cases e; exact h
  · rw [Option.map_eq_some_iff] at e
    obtain ⟨r, -, rfl⟩ := e
    exact keep_mk_port _ (covers_sub hL (by decide)) h

theorem keep_odaBare {L : List Area} {u0 : State} (x : OdaIn) {s : State} (hL : Covers [.nums, .oda] L) (h : Only L u0 s) :
    Only L u0 (odaBare x s) := by
  unfold odaBare
  repeat' first
    | with_reducible exact h
    | with_reducible assumption
    | extract_lets
    | with_reducible refine keep_inc32 _ (covers_sub hL (by decide)) ?_
    | with_reducible refine keep_setOda _ (covers_sub hL (by decide)) ?_
    | split
    | with_reducible refine only_ite (fun _ => ?_) (fun _ => ?_)

theorem keep_odaIn {L : List Area} {u0 : State} (p : Nat) (tagged : Bool) (x : OdaIn) {s : State} (hL : Covers [.nums, .ev, .nut, .oda, .port] L) (h : Only L u0 s) :
    Only L u0 (odaIn p tagged x s) := by
  unfold odaIn
  repeat' first
    | with_reducible exact h
    | with_reducible assumption
    | extract_lets
    | with_reducible refine keep_closeSession _ (covers_sub hL (by decide)) ?_
    | with_reducible refine keep_inc32 _ (covers_sub hL (by decide)) ?_
    | with_reducible refine keep_odaBare _ (covers_sub hL (by decide)) ?_
    | with_reducible refine keep_respond _ _ (covers_sub hL (by decide)) ?_
    | with_reducible refine keep_touch _ (covers_sub hL (by decide)) ?_
    | with_reducible refine keep_updSession _ _ (covers_sub hL (by decide)) ?_
    | split
    | with_reducible refine only_ite (fun _ => ?_) (fun _ => ?_)
    | with_reducible refine keep_mk_port _ (covers_sub hL (by decide)) ?_
    | exact only_upd (by assumption) (fun a ha => by cases a <;> first | exact absurd (hL _ (by decide)) ha | rfl)
    | dsimp -zeta +zetaDelta only

theorem keep_hostFrame {L : List Area} {u0 : State} (p : Fin 2) (f : FrameIn) {s : State} (hL : Covers [.nums, .ev, .nut, .oda, .port] L) (h : Only L u0 s) :
    Only L u0 (hostFrame p f s) := by
  unfold hostFrame
  repeat' first
    | with_reducible exact h
    | with_reducible assumption
    | extract_lets
    | with_reducible refine keep_dropMacsec _ (covers_sub hL (by decide)) ?_
    | with_reducible refine keep_eliminate_eq (by assumption) (covers_sub hL (by decide)) ?_
    | with_reducible refine keep_incMax _ _ _ (covers_sub hL (by decide)) ?_
    | with_reducible refine keep_macsecIn_eq (by assumption) (covers_sub hL (by decide)) ?_
    | with_reducible refine keep_odaIn _ _ _ (covers_sub hL (by decide)) ?_
    | with_reducible refine keep_raiseMain _ _ _ (covers_sub hL (by decide)) ?_
    | with_reducible refine keep_updHost _ _ (covers_sub hL (by decide)) ?_
    | split
    | with_reducible refine only_ite (fun _ => ?_) (fun _ => ?_)
    | dsimp -zeta +zetaDelta only

theorem keep_svcFrame {L : List Area} {u0 : State} (f : FrameIn) {s : State} (hL : Covers [.nums, .ev, .nut, .oda, .port] L) (h : Only L u0 s) :
    Only L u0 (svcFrame f s) := by
  unfold svcFrame
  repeat' first
    | with_reducible exact h
    | with_reducible assumption
    | extract_lets
    | with_reducible refine keep_odaIn _ _ _ (covers_sub hL (by decide)) ?_
    | split
    | with_reducible refine only_ite (fun _ => ?_) (fun _ => ?_)

theorem keep_sendSb {L : List Area} {u0 : State} (a : Fin 8) (m : Msg) {s : State} (hL : Covers [.port] L) (h : Only L u0 s) :
    Only L u0 (sendSb a m s) := by
  unfold sendSb
  repeat' first
    | with_reducible exact h
    | with_reducible assumption
    | extract_lets
    | with_reducible refine keep_updSb _ _ (covers_sub hL (by decide)) ?_

theorem keep_nackRange {L : List Area} {u0 : State} (a : Fin 8) (first : Nat) (n : Nat) {s : State} (hL : Covers [.nums, .port] L) (h : Only L u0 s) :
    Only L u0 (nackRange a first n s) := by
  unfold nackRange
  repeat' first
    | with_reducible exact h
    | with_reducible assumption
    | extract_lets
    | with_reducible refine keep_inc32 _ (covers_sub hL (by decide)) ?_
    | with_reducible refine keep_incMax _ _ _ (covers_sub hL (by decide)) ?_
    | with_reducible refine keep_sendSb _ _ (covers_sub hL (by decide)) ?_
    | with_reducible refine keep_updSb _ _ (covers_sub hL (by decide)) ?_
    | split
    | with_reducible refine only_ite (fun _ => ?_) (fun _ => ?_)
    | dsimp -zeta +zetaDelta only

theorem keep_noticeSpoiled {L : List Area} {u0 : State} (a : Fin 8) {s : State} (hL : Covers [.nums, .port] L) (h : Only L u0 s) :
    Only L u0 (noticeSpoiled a s) := by
  unfold noticeSpoiled
  repeat' first
    | with_reducible exact h
    | with_reducible assumption
    | extract_lets
    | with_reducible refine keep_nackRange _ _ _ (covers_sub hL (by decide)) ?_
    | with_reducible refine keep_updSb _ _ (covers_sub hL (by decide)) ?_
    | split
    | with_reducible refine only_ite (fun _ => ?_) (fun _ => ?_)
    | dsimp -zeta +zetaDelta only

theorem keep_takeSbSeq {L : List Area} {u0 : State} (a : Fin 8) (q : Nat) {s : State} (hL : Covers [.nums, .port] L) (h : Only L u0 s) :
    Only L u0 (takeSbSeq a q s).2 := by
  unfold takeSbSeq
  repeat' first
    | with_reducible exact h
    | with_reducible assumption
    | extract_lets
    | with_reducible refine keep_nackRange _ _ _ (covers_sub hL (by decide)) ?_
    | with_reducible refine keep_noticeSpoiled _ (covers_sub hL (by decide)) ?_
    | with_reducible refine keep_updSb _ _ (covers_sub hL (by decide)) ?_
    | split
    | with_reducible refine only_ite (fun _ => ?_) (fun _ => ?_)
    | dsimp -zeta only
    | dsimp -zeta +zetaDelta only

theorem keep_takeSbSeq_eq {L : List Area} {u0 : State} {a : Fin 8} {q : Nat} {s : State} {r : _} {t : State} (e : takeSbSeq a q s = (r, t)) (hL : Covers [.nums, .port] L) (h : Only L u0 s) :
    Only L u0 t := by
  have k := keep_takeSbSeq a q hL h
  rw [e] at k
  exact k

set_option tactic.hygienic false in
theorem keep_telemetryEntry {L : List Area} {u0 : State} (a : Fin 8) (ingress : Count) (delay : Nat) (base : Option Count) (oldEpoch : Bool) (e : List Byte) {s : State} (hL : Covers [.nums, .eng] L) (h : Only L u0 s) :
    Only L u0 (telemetryEntry a ingress delay base oldEpoch e s) := by
  unfold telemetryEntry
  repeat' first
    | with_reducible exact h
    | with_reducible assumption
    | extract_lets
    | with_reducible refine keep_arriveSample _ _ _ _ _ _ (covers_sub hL (by decide)) ?_
    | with_reducible refine keep_inc32 _ (covers_sub hL (by decide)) ?_
    | split
    | with_reducible refine only_ite (fun _ => ?_) (fun _ => ?_)
    | dsimp -zeta +zetaDelta only
    | unfold deliver

end Sys2Proof.Laws
end

