-- ==== Sys2Proof/Laws/FrameWrite.lean ====
section
/-! SUPPORT. What the operations of Machine/Write.lean may change: an operation keeps a frame that allows the parts it lists. -/
namespace Sys2Proof.Laws

open Sys2Proof.Machine

theorem keep_ptpProfileEffect {L : List Area} {u0 : State} (key : Nat) (v : Value) {s : State} (hL : Covers [.nums, .blobs, .clk, .pow, .ev, .nut, .port] L) (h : Only L u0 s) :
    Only L u0 (ptpProfileEffect key v s) := by
  unfold ptpProfileEffect
  repeat' first
    | with_reducible exact h
    | with_reducible assumption
    | extract_lets
    | with_reducible refine keep_follow (covers_sub hL (by decide)) ?_
    | with_reducible refine keep_sourceWritten _ (covers_sub hL (by decide)) ?_
    | with_reducible refine keep_storeValue _ _ (covers_sub hL (by decide)) ?_

theorem keep_engineWrite_eq {L : List Area} {u0 : State} {au : Auth} {key : Nat} {v : Value} {c : Count} {s t : State} (e : engineWrite au key v c s = some t) (hL : Covers [.nums, .blobs, .clk, .pow, .acc, .part, .ev, .nut, .rep, .port, .eng, .img, .ani, .mem, .bar, .free] L)
    (h : Only L u0 s) : Only L u0 t := by
  unfold engineWrite at e
  extract_lets idx sub n bs at e
  clear_value idx sub n bs
  rcases some_or e with rfl | e
  · repeat' first
      | with_reducible exact h
      | with_reducible assumption
      | with_reducible refine keep_antEnableEffect _ _ _ (covers_sub hL (by decide)) ?_
      | with_reducible refine keep_armEffect _ _ (covers_sub hL (by decide)) ?_
      | with_reducible refine keep_codebookEffect _ _ _ (covers_sub hL (by decide)) ?_
      | with_reducible refine keep_descEffect _ _ _ _ (covers_sub hL (by decide)) ?_
      | with_reducible refine keep_domainClear _ (covers_sub hL (by decide)) ?_
      | with_reducible refine keep_domainLost _ (covers_sub hL (by decide)) ?_
      | with_reducible refine keep_evalTarget _ (covers_sub hL (by decide)) ?_
      | with_reducible refine keep_frameStopEffect _ _ (covers_sub hL (by decide)) ?_
      | with_reducible refine keep_freezeRing (covers_sub hL (by decide)) ?_
      | with_reducible refine keep_imageEffect _ _ _ (covers_sub hL (by decide)) ?_
      | with_reducible refine keep_launchEffect _ _ (covers_sub hL (by decide)) ?_
      | with_reducible refine keep_longCaptureEffect _ _ (covers_sub hL (by decide)) ?_
      | with_reducible refine keep_modelEffect _ _ _ (covers_sub hL (by decide)) ?_
      | with_reducible refine keep_programEffect _ _ (covers_sub hL (by decide)) ?_
      | with_reducible refine keep_ptpProfileEffect _ _ (covers_sub hL (by decide)) ?_
      | with_reducible refine keep_replayCtrlEffect _ (covers_sub hL (by decide)) ?_
      | with_reducible refine keep_replayInputEffect _ (covers_sub hL (by decide)) ?_
      | with_reducible refine keep_resumeRing (covers_sub hL (by decide)) ?_
      | with_reducible refine keep_retestTile _ (covers_sub hL (by decide)) ?_
      | with_reducible refine keep_storeValue _ _ (covers_sub hL (by decide)) ?_
      | with_reducible refine keep_tileFails _ (covers_sub hL (by decide)) ?_
      | with_reducible refine keep_timeSetEffect _ _ (covers_sub hL (by decide)) ?_
      | with_reducible refine keep_timeSourceEffect _ _ (covers_sub hL (by decide)) ?_
      | with_reducible refine keep_unarm (covers_sub hL (by decide)) ?_
      | with_reducible refine only_onFin _ _ _ (fun _ => ?_) ?_
      | extract_lets
      | split
  rcases some_or e with rfl | e
  · repeat' first
      | with_reducible exact h
      | with_reducible assumption
      | with_reducible refine keep_antEnableEffect _ _ _ (covers_sub hL (by decide)) ?_
      | with_reducible refine keep_armEffect _ _ (covers_sub hL (by decide)) ?_
      | with_reducible refine keep_codebookEffect _ _ _ (covers_sub hL (by decide)) ?_
      | with_reducible refine keep_descEffect _ _ _ _ (covers_sub hL (by decide)) ?_
      | with_reducible refine keep_domainClear _ (covers_sub hL (by decide)) ?_
      | with_reducible refine keep_domainLost _ (covers_sub hL (by decide)) ?_
      | with_reducible refine keep_evalTarget _ (covers_sub hL (by decide)) ?_
      | with_reducible refine keep_frameStopEffect _ _ (covers_sub hL (by decide)) ?_
      | with_reducible refine keep_freezeRing (covers_sub hL (by decide)) ?_
      | with_reducible refine keep_imageEffect _ _ _ (covers_sub hL (by decide)) ?_
      | with_reducible refine keep_launchEffect _ _ (covers_sub hL (by decide)) ?_
      | with_reducible refine keep_longCaptureEffect _ _ (covers_sub hL (by decide)) ?_
      | with_reducible refine keep_modelEffect _ _ _ (covers_sub hL (by decide)) ?_
      | with_reducible refine keep_programEffect _ _ (covers_sub hL (by decide)) ?_
      | with_reducible refine keep_ptpProfileEffect _ _ (covers_sub hL (by decide)) ?_
      | with_reducible refine keep_replayCtrlEffect _ (covers_sub hL (by decide)) ?_
      | with_reducible refine keep_replayInputEffect _ (covers_sub hL (by decide)) ?_
      | with_reducible refine keep_resumeRing (covers_sub hL (by decide)) ?_
      | with_reducible refine keep_retestTile _ (covers_sub hL (by decide)) ?_
      | with_reducible refine keep_storeValue _ _ (covers_sub hL (by decide)) ?_
      | with_reducible refine keep_tileFails _ (covers_sub hL (by decide)) ?_
      | with_reducible refine keep_timeSetEffect _ _ (covers_sub hL (by decide)) ?_
      | with_reducible refine keep_timeSourceEffect _ _ (covers_sub hL (by decide)) ?_
      | with_reducible refine keep_unarm (covers_sub hL (by decide)) ?_
      | with_reducible refine only_onFin _ _ _ (fun _ => ?_) ?_
      | extract_lets
      | split
  rcases some_or e with rfl | e
  · repeat' first
      | with_reducible exact h
      | with_reducible assumption
      | with_reducible refine keep_antEnableEffect _ _ _ (covers_sub hL (by decide)) ?_
      | with_reducible refine keep_armEffect _ _ (covers_sub hL (by decide)) ?_
      | with_reducible refine keep_codebookEffect _ _ _ (covers_sub hL (by decide)) ?_
      | with_reducible refine keep_descEffect _ _ _ _ (covers_sub hL (by decide)) ?_
      | with_reducible refine keep_domainClear _ (covers_sub hL (by decide)) ?_
      | with_reducible refine keep_domainLost _ (covers_sub hL (by decide)) ?_
      | with_reducible refine keep_evalTarget _ (covers_sub hL (by decide)) ?_
      | with_reducible refine keep_frameStopEffect _ _ (covers_sub hL (by decide)) ?_
      | with_reducible refine keep_freezeRing (covers_sub hL (by decide)) ?_
      | with_reducible refine keep_imageEffect _ _ _ (covers_sub hL (by decide)) ?_
      | with_reducible refine keep_launchEffect _ _ (covers_sub hL (by decide)) ?_
      | with_reducible refine keep_longCaptureEffect _ _ (covers_sub hL (by decide)) ?_
      | with_reducible refine keep_modelEffect _ _ _ (covers_sub hL (by decide)) ?_
      | with_reducible refine keep_programEffect _ _ (covers_sub hL (by decide)) ?_
      | with_reducible refine keep_ptpProfileEffect _ _ (covers_sub hL (by decide)) ?_
      | with_reducible refine keep_replayCtrlEffect _ (covers_sub hL (by decide)) ?_
      | with_reducible refine keep_replayInputEffect _ (covers_sub hL (by decide)) ?_
      | with_reducible refine keep_resumeRing (covers_sub hL (by decide)) ?_
      | with_reducible refine keep_retestTile _ (covers_sub hL (by decide)) ?_
      | with_reducible refine keep_storeValue _ _ (covers_sub hL (by decide)) ?_
      | with_reducible refine keep_tileFails _ (covers_sub hL (by decide)) ?_
      | with_reducible refine keep_timeSetEffect _ _ (covers_sub hL (by decide)) ?_
      | with_reducible refine keep_timeSourceEffect _ _ (covers_sub hL (by decide)) ?_
      | with_reducible refine keep_unarm (covers_sub hL (by decide)) ?_
      | with_reducible refine only_onFin _ _ _ (fun _ => ?_) ?_
      | extract_lets
      | split
  rcases some_or e with rfl | e
  · repeat' first
      | with_reducible exact h
      | with_reducible assumption
      | with_reducible refine keep_antEnableEffect _ _ _ (covers_sub hL (by decide)) ?_
      | with_reducible refine keep_armEffect _ _ (covers_sub hL (by decide)) ?_
      | with_reducible refine keep_codebookEffect _ _ _ (covers_sub hL (by decide)) ?_
      | with_reducible refine keep_descEffect _ _ _ _ (covers_sub hL (by decide)) ?_
      | with_reducible refine keep_domainClear _ (covers_sub hL (by decide)) ?_
      | with_reducible refine keep_domainLost _ (covers_sub hL (by decide)) ?_
      | with_reducible refine keep_evalTarget _ (covers_sub hL (by decide)) ?_
      | with_reducible refine keep_frameStopEffect _ _ (covers_sub hL (by decide)) ?_
      | with_reducible refine keep_freezeRing (covers_sub hL (by decide)) ?_
      | with_reducible refine keep_imageEffect _ _ _ (covers_sub hL (by decide)) ?_
      | with_reducible refine keep_launchEffect _ _ (covers_sub hL (by decide)) ?_
      | with_reducible refine keep_longCaptureEffect _ _ (covers_sub hL (by decide)) ?_
      | with_reducible refine keep_modelEffect _ _ _ (covers_sub hL (by decide)) ?_
      | with_reducible refine keep_programEffect _ _ (covers_sub hL (by decide)) ?_
      | with_reducible refine keep_ptpProfileEffect _ _ (covers_sub hL (by decide)) ?_
      | with_reducible refine keep_replayCtrlEffect _ (covers_sub hL (by decide)) ?_
      | with_reducible refine keep_replayInputEffect _ (covers_sub hL (by decide)) ?_
      | with_reducible refine keep_resumeRing (covers_sub hL (by decide)) ?_
      | with_reducible refine keep_retestTile _ (covers_sub hL (by decide)) ?_
      | with_reducible refine keep_storeValue _ _ (covers_sub hL (by decide)) ?_
      | with_reducible refine keep_tileFails _ (covers_sub hL (by decide)) ?_
      | with_reducible refine keep_timeSetEffect _ _ (covers_sub hL (by decide)) ?_
      | with_reducible refine keep_timeSourceEffect _ _ (covers_sub hL (by decide)) ?_
      | with_reducible refine keep_unarm (covers_sub hL (by decide)) ?_
      | with_reducible refine only_onFin _ _ _ (fun _ => ?_) ?_
      | extract_lets
      | split
  rcases some_or e with rfl | e
  · repeat' first
      | with_reducible exact h
      | with_reducible assumption
      | with_reducible refine keep_antEnableEffect _ _ _ (covers_sub hL (by decide)) ?_
      | with_reducible refine keep_armEffect _ _ (covers_sub hL (by decide)) ?_
      | with_reducible refine keep_codebookEffect _ _ _ (covers_sub hL (by decide)) ?_
      | with_reducible refine keep_descEffect _ _ _ _ (covers_sub hL (by decide)) ?_
      | with_reducible refine keep_domainClear _ (covers_sub hL (by decide)) ?_
      | with_reducible refine keep_domainLost _ (covers_sub hL (by decide)) ?_
      | with_reducible refine keep_evalTarget _ (covers_sub hL (by decide)) ?_
      | with_reducible refine keep_frameStopEffect _ _ (covers_sub hL (by decide)) ?_
      | with_reducible refine keep_freezeRing (covers_sub hL (by decide)) ?_
      | with_reducible refine keep_imageEffect _ _ _ (covers_sub hL (by decide)) ?_
      | with_reducible refine keep_launchEffect _ _ (covers_sub hL (by decide)) ?_
      | with_reducible refine keep_longCaptureEffect _ _ (covers_sub hL (by decide)) ?_
      | with_reducible refine keep_modelEffect _ _ _ (covers_sub hL (by decide)) ?_
      | with_reducible refine keep_programEffect _ _ (covers_sub hL (by decide)) ?_
      | with_reducible refine keep_ptpProfileEffect _ _ (covers_sub hL (by decide)) ?_
      | with_reducible refine keep_replayCtrlEffect _ (covers_sub hL (by decide)) ?_
      | with_reducible refine keep_replayInputEffect _ (covers_sub hL (by decide)) ?_
      | with_reducible refine keep_resumeRing (covers_sub hL (by decide)) ?_
      | with_reducible refine keep_retestTile _ (covers_sub hL (by decide)) ?_
      | with_reducible refine keep_storeValue _ _ (covers_sub hL (by decide)) ?_
      | with_reducible refine keep_tileFails _ (covers_sub hL (by decide)) ?_
      | with_reducible refine keep_timeSetEffect _ _ (covers_sub hL (by decide)) ?_
      | with_reducible refine keep_timeSourceEffect _ _ (covers_sub hL (by decide)) ?_
      | with_reducible refine keep_unarm (covers_sub hL (by decide)) ?_
      | with_reducible refine only_onFin _ _ _ (fun _ => ?_) ?_
      | extract_lets
      | split
  rcases some_or e with rfl | e
  · repeat' first
      | with_reducible exact h
      | with_reducible assumption
      | with_reducible refine keep_antEnableEffect _ _ _ (covers_sub hL (by decide)) ?_
      | with_reducible refine keep_armEffect _ _ (covers_sub hL (by decide)) ?_
      | with_reducible refine keep_codebookEffect _ _ _ (covers_sub hL (by decide)) ?_
      | with_reducible refine keep_descEffect _ _ _ _ (covers_sub hL (by decide)) ?_
      | with_reducible refine keep_domainClear _ (covers_sub hL (by decide)) ?_
      | with_reducible refine keep_domainLost _ (covers_sub hL (by decide)) ?_
      | with_reducible refine keep_evalTarget _ (covers_sub hL (by decide)) ?_
      | with_reducible refine keep_frameStopEffect _ _ (covers_sub hL (by decide)) ?_
      | with_reducible refine keep_freezeRing (covers_sub hL (by decide)) ?_
      | with_reducible refine keep_imageEffect _ _ _ (covers_sub hL (by decide)) ?_
      | with_reducible refine keep_launchEffect _ _ (covers_sub hL (by decide)) ?_
      | with_reducible refine keep_longCaptureEffect _ _ (covers_sub hL (by decide)) ?_
      | with_reducible refine keep_modelEffect _ _ _ (covers_sub hL (by decide)) ?_
      | with_reducible refine keep_programEffect _ _ (covers_sub hL (by decide)) ?_
      | with_reducible refine keep_ptpProfileEffect _ _ (covers_sub hL (by decide)) ?_
      | with_reducible refine keep_replayCtrlEffect _ (covers_sub hL (by decide)) ?_
      | with_reducible refine keep_replayInputEffect _ (covers_sub hL (by decide)) ?_
      | with_reducible refine keep_resumeRing (covers_sub hL (by decide)) ?_
      | with_reducible refine keep_retestTile _ (covers_sub hL (by decide)) ?_
      | with_reducible refine keep_storeValue _ _ (covers_sub hL (by decide)) ?_
      | with_reducible refine keep_tileFails _ (covers_sub hL (by decide)) ?_
      | with_reducible refine keep_timeSetEffect _ _ (covers_sub hL (by decide)) ?_
      | with_reducible refine keep_timeSourceEffect _ _ (covers_sub hL (by decide)) ?_
      | with_reducible refine keep_unarm (covers_sub hL (by decide)) ?_
      | with_reducible refine only_onFin _ _ _ (fun _ => ?_) ?_
      | extract_lets
      | split
  rcases some_or e with rfl | e
  · repeat' first
      | with_reducible exact h
      | with_reducible assumption
      | with_reducible refine keep_antEnableEffect _ _ _ (covers_sub hL (by decide)) ?_
      | with_reducible refine keep_armEffect _ _ (covers_sub hL (by decide)) ?_
      | with_reducible refine keep_codebookEffect _ _ _ (covers_sub hL (by decide)) ?_
      | with_reducible refine keep_descEffect _ _ _ _ (covers_sub hL (by decide)) ?_
      | with_reducible refine keep_domainClear _ (covers_sub hL (by decide)) ?_
      | with_reducible refine keep_domainLost _ (covers_sub hL (by decide)) ?_
      | with_reducible refine keep_evalTarget _ (covers_sub hL (by decide)) ?_
      | with_reducible refine keep_frameStopEffect _ _ (covers_sub hL (by decide)) ?_
      | with_reducible refine keep_freezeRing (covers_sub hL (by decide)) ?_
      | with_reducible refine keep_imageEffect _ _ _ (covers_sub hL (by decide)) ?_
      | with_reducible refine keep_launchEffect _ _ (covers_sub hL (by decide)) ?_
      | with_reducible refine keep_longCaptureEffect _ _ (covers_sub hL (by decide)) ?_
      | with_reducible refine keep_modelEffect _ _ _ (covers_sub hL (by decide)) ?_
      | with_reducible refine keep_programEffect _ _ (covers_sub hL (by decide)) ?_
      | with_reducible refine keep_ptpProfileEffect _ _ (covers_sub hL (by decide)) ?_
      | with_reducible refine keep_replayCtrlEffect _ (covers_sub hL (by decide)) ?_
      | with_reducible refine keep_replayInputEffect _ (covers_sub hL (by decide)) ?_
      | with_reducible refine keep_resumeRing (covers_sub hL (by decide)) ?_
      | with_reducible refine keep_retestTile _ (covers_sub hL (by decide)) ?_
      | with_reducible refine keep_storeValue _ _ (covers_sub hL (by decide)) ?_
      | with_reducible refine keep_tileFails _ (covers_sub hL (by decide)) ?_
      | with_reducible refine keep_timeSetEffect _ _ (covers_sub hL (by decide)) ?_
      | with_reducible refine keep_timeSourceEffect _ _ (covers_sub hL (by decide)) ?_
      | with_reducible refine keep_unarm (covers_sub hL (by decide)) ?_
      | with_reducible refine only_onFin _ _ _ (fun _ => ?_) ?_
      | extract_lets
      | split
  rcases some_or e with rfl | e
  · repeat' first
      | with_reducible exact h
      | with_reducible assumption
      | with_reducible refine keep_antEnableEffect _ _ _ (covers_sub hL (by decide)) ?_
      | with_reducible refine keep_armEffect _ _ (covers_sub hL (by decide)) ?_
      | with_reducible refine keep_codebookEffect _ _ _ (covers_sub hL (by decide)) ?_
      | with_reducible refine keep_descEffect _ _ _ _ (covers_sub hL (by decide)) ?_
      | with_reducible refine keep_domainClear _ (covers_sub hL (by decide)) ?_
      | with_reducible refine keep_domainLost _ (covers_sub hL (by decide)) ?_
      | with_reducible refine keep_evalTarget _ (covers_sub hL (by decide)) ?_
      | with_reducible refine keep_frameStopEffect _ _ (covers_sub hL (by decide)) ?_
      | with_reducible refine keep_freezeRing (covers_sub hL (by decide)) ?_
      | with_reducible refine keep_imageEffect _ _ _ (covers_sub hL (by decide)) ?_
      | with_reducible refine keep_launchEffect _ _ (covers_sub hL (by decide)) ?_
      | with_reducible refine keep_longCaptureEffect _ _ (covers_sub hL (by decide)) ?_
      | with_reducible refine keep_modelEffect _ _ _ (covers_sub hL (by decide)) ?_
      | with_reducible refine keep_programEffect _ _ (covers_sub hL (by decide)) ?_
      | with_reducible refine keep_ptpProfileEffect _ _ (covers_sub hL (by decide)) ?_
      | with_reducible refine keep_replayCtrlEffect _ (covers_sub hL (by decide)) ?_
      | with_reducible refine keep_replayInputEffect _ (covers_sub hL (by decide)) ?_
      | with_reducible refine keep_resumeRing (covers_sub hL (by decide)) ?_
      | with_reducible refine keep_retestTile _ (covers_sub hL (by decide)) ?_
      | with_reducible refine keep_storeValue _ _ (covers_sub hL (by decide)) ?_
      | with_reducible refine keep_tileFails _ (covers_sub hL (by decide)) ?_
      | with_reducible refine keep_timeSetEffect _ _ (covers_sub hL (by decide)) ?_
      | with_reducible refine keep_timeSourceEffect _ _ (covers_sub hL (by decide)) ?_
      | with_reducible refine keep_unarm (covers_sub hL (by decide)) ?_
      | with_reducible refine only_onFin _ _ _ (fun _ => ?_) ?_
      | extract_lets
      | split
  rcases some_or e with rfl | e
  · repeat' first
      | with_reducible exact h
      | with_reducible assumption
      | with_reducible refine keep_antEnableEffect _ _ _ (covers_sub hL (by decide)) ?_
      | with_reducible refine keep_armEffect _ _ (covers_sub hL (by decide)) ?_
      | with_reducible refine keep_codebookEffect _ _ _ (covers_sub hL (by decide)) ?_
      | with_reducible refine keep_descEffect _ _ _ _ (covers_sub hL (by decide)) ?_
      | with_reducible refine keep_domainClear _ (covers_sub hL (by decide)) ?_
      | with_reducible refine keep_domainLost _ (covers_sub hL (by decide)) ?_
      | with_reducible refine keep_evalTarget _ (covers_sub hL (by decide)) ?_
      | with_reducible refine keep_frameStopEffect _ _ (covers_sub hL (by decide)) ?_
      | with_reducible refine keep_freezeRing (covers_sub hL (by decide)) ?_
      | with_reducible refine keep_imageEffect _ _ _ (covers_sub hL (by decide)) ?_
      | with_reducible refine keep_launchEffect _ _ (covers_sub hL (by decide)) ?_
      | with_reducible refine keep_longCaptureEffect _ _ (covers_sub hL (by decide)) ?_
      | with_reducible refine keep_modelEffect _ _ _ (covers_sub hL (by decide)) ?_
      | with_reducible refine keep_programEffect _ _ (covers_sub hL (by decide)) ?_
      | with_reducible refine keep_ptpProfileEffect _ _ (covers_sub hL (by decide)) ?_
      | with_reducible refine keep_replayCtrlEffect _ (covers_sub hL (by decide)) ?_
      | with_reducible refine keep_replayInputEffect _ (covers_sub hL (by decide)) ?_
      | with_reducible refine keep_resumeRing (covers_sub hL (by decide)) ?_
      | with_reducible refine keep_retestTile _ (covers_sub hL (by decide)) ?_
      | with_reducible refine keep_storeValue _ _ (covers_sub hL (by decide)) ?_
      | with_reducible refine keep_tileFails _ (covers_sub hL (by decide)) ?_
      | with_reducible refine keep_timeSetEffect _ _ (covers_sub hL (by decide)) ?_
      | with_reducible refine keep_timeSourceEffect _ _ (covers_sub hL (by decide)) ?_
      | with_reducible refine keep_unarm (covers_sub hL (by decide)) ?_
      | with_reducible refine only_onFin _ _ _ (fun _ => ?_) ?_
      | extract_lets
      | split
  rcases some_or e with rfl | e
  · repeat' first
      | with_reducible exact h
      | with_reducible assumption
      | with_reducible refine keep_antEnableEffect _ _ _ (covers_sub hL (by decide)) ?_
      | with_reducible refine keep_armEffect _ _ (covers_sub hL (by decide)) ?_
      | with_reducible refine keep_codebookEffect _ _ _ (covers_sub hL (by decide)) ?_
      | with_reducible refine keep_descEffect _ _ _ _ (covers_sub hL (by decide)) ?_
      | with_reducible refine keep_domainClear _ (covers_sub hL (by decide)) ?_
      | with_reducible refine keep_domainLost _ (covers_sub hL (by decide)) ?_
      | with_reducible refine keep_evalTarget _ (covers_sub hL (by decide)) ?_
      | with_reducible refine keep_frameStopEffect _ _ (covers_sub hL (by decide)) ?_
      | with_reducible refine keep_freezeRing (covers_sub hL (by decide)) ?_
      | with_reducible refine keep_imageEffect _ _ _ (covers_sub hL (by decide)) ?_
      | with_reducible refine keep_launchEffect _ _ (covers_sub hL (by decide)) ?_
      | with_reducible refine keep_longCaptureEffect _ _ (covers_sub hL (by decide)) ?_
      | with_reducible refine keep_modelEffect _ _ _ (covers_sub hL (by decide)) ?_
      | with_reducible refine keep_programEffect _ _ (covers_sub hL (by decide)) ?_
      | with_reducible refine keep_ptpProfileEffect _ _ (covers_sub hL (by decide)) ?_
      | with_reducible refine keep_replayCtrlEffect _ (covers_sub hL (by decide)) ?_
      | with_reducible refine keep_replayInputEffect _ (covers_sub hL (by decide)) ?_
      | with_reducible refine keep_resumeRing (covers_sub hL (by decide)) ?_
      | with_reducible refine keep_retestTile _ (covers_sub hL (by decide)) ?_
      | with_reducible refine keep_storeValue _ _ (covers_sub hL (by decide)) ?_
      | with_reducible refine keep_tileFails _ (covers_sub hL (by decide)) ?_
      | with_reducible refine keep_timeSetEffect _ _ (covers_sub hL (by decide)) ?_
      | with_reducible refine keep_timeSourceEffect _ _ (covers_sub hL (by decide)) ?_
      | with_reducible refine keep_unarm (covers_sub hL (by decide)) ?_
      | with_reducible refine only_onFin _ _ _ (fun _ => ?_) ?_
      | extract_lets
      | split
  rcases some_or e with rfl | e
  · repeat' first
      | with_reducible exact h
      | with_reducible assumption
      | with_reducible refine keep_antEnableEffect _ _ _ (covers_sub hL (by decide)) ?_
      | with_reducible refine keep_armEffect _ _ (covers_sub hL (by decide)) ?_
      | with_reducible refine keep_codebookEffect _ _ _ (covers_sub hL (by decide)) ?_
      | with_reducible refine keep_descEffect _ _ _ _ (covers_sub hL (by decide)) ?_
      | with_reducible refine keep_domainClear _ (covers_sub hL (by decide)) ?_
      | with_reducible refine keep_domainLost _ (covers_sub hL (by decide)) ?_
      | with_reducible refine keep_evalTarget _ (covers_sub hL (by decide)) ?_
      | with_reducible refine keep_frameStopEffect _ _ (covers_sub hL (by decide)) ?_
      | with_reducible refine keep_freezeRing (covers_sub hL (by decide)) ?_
      | with_reducible refine keep_imageEffect _ _ _ (covers_sub hL (by decide)) ?_
      | with_reducible refine keep_launchEffect _ _ (covers_sub hL (by decide)) ?_
      | with_reducible refine keep_longCaptureEffect _ _ (covers_sub hL (by decide)) ?_
      | with_reducible refine keep_modelEffect _ _ _ (covers_sub hL (by decide)) ?_
      | with_reducible refine keep_programEffect _ _ (covers_sub hL (by decide)) ?_
      | with_reducible refine keep_ptpProfileEffect _ _ (covers_sub hL (by decide)) ?_
      | with_reducible refine keep_replayCtrlEffect _ (covers_sub hL (by decide)) ?_
      | with_reducible refine keep_replayInputEffect _ (covers_sub hL (by decide)) ?_
      | with_reducible refine keep_resumeRing (covers_sub hL (by decide)) ?_
      | with_reducible refine keep_retestTile _ (covers_sub hL (by decide)) ?_
      | with_reducible refine keep_storeValue _ _ (covers_sub hL (by decide)) ?_
      | with_reducible refine keep_tileFails _ (covers_sub hL (by decide)) ?_
      | with_reducible refine keep_timeSetEffect _ _ (covers_sub hL (by decide)) ?_
      | with_reducible refine keep_timeSourceEffect _ _ (covers_sub hL (by decide)) ?_
      | with_reducible refine keep_unarm (covers_sub hL (by decide)) ?_
      | with_reducible refine only_onFin _ _ _ (fun _ => ?_) ?_
      | extract_lets
      | split
  rcases some_or e with rfl | e
  · repeat' first
      | with_reducible exact h
      | with_reducible assumption
      | with_reducible refine keep_antEnableEffect _ _ _ (covers_sub hL (by decide)) ?_
      | with_reducible refine keep_armEffect _ _ (covers_sub hL (by decide)) ?_
      | with_reducible refine keep_codebookEffect _ _ _ (covers_sub hL (by decide)) ?_
      | with_reducible refine keep_descEffect _ _ _ _ (covers_sub hL (by decide)) ?_
      | with_reducible refine keep_domainClear _ (covers_sub hL (by decide)) ?_
      | with_reducible refine keep_domainLost _ (covers_sub hL (by decide)) ?_
      | with_reducible refine keep_evalTarget _ (covers_sub hL (by decide)) ?_
      | with_reducible refine keep_frameStopEffect _ _ (covers_sub hL (by decide)) ?_
      | with_reducible refine keep_freezeRing (covers_sub hL (by decide)) ?_
      | with_reducible refine keep_imageEffect _ _ _ (covers_sub hL (by decide)) ?_
      | with_reducible refine keep_launchEffect _ _ (covers_sub hL (by decide)) ?_
      | with_reducible refine keep_longCaptureEffect _ _ (covers_sub hL (by decide)) ?_
      | with_reducible refine keep_modelEffect _ _ _ (covers_sub hL (by decide)) ?_
      | with_reducible refine keep_programEffect _ _ (covers_sub hL (by decide)) ?_
      | with_reducible refine keep_ptpProfileEffect _ _ (covers_sub hL (by decide)) ?_
      | with_reducible refine keep_replayCtrlEffect _ (covers_sub hL (by decide)) ?_
      | with_reducible refine keep_replayInputEffect _ (covers_sub hL (by decide)) ?_
      | with_reducible refine keep_resumeRing (covers_sub hL (by decide)) ?_
      | with_reducible refine keep_retestTile _ (covers_sub hL (by decide)) ?_
      | with_reducible refine keep_storeValue _ _ (covers_sub hL (by decide)) ?_
      | with_reducible refine keep_tileFails _ (covers_sub hL (by decide)) ?_
      | with_reducible refine keep_timeSetEffect _ _ (covers_sub hL (by decide)) ?_
      | with_reducible refine keep_timeSourceEffect _ _ (covers_sub hL (by decide)) ?_
      | with_reducible refine keep_unarm (covers_sub hL (by decide)) ?_
      | with_reducible refine only_onFin _ _ _ (fun _ => ?_) ?_
      | extract_lets
      | split
  rcases some_or e with rfl | e
  · repeat' first
      | with_reducible exact h
      | with_reducible assumption
      | with_reducible refine keep_antEnableEffect _ _ _ (covers_sub hL (by decide)) ?_
      | with_reducible refine keep_armEffect _ _ (covers_sub hL (by decide)) ?_
      | with_reducible refine keep_codebookEffect _ _ _ (covers_sub hL (by decide)) ?_
      | with_reducible refine keep_descEffect _ _ _ _ (covers_sub hL (by decide)) ?_
      | with_reducible refine keep_domainClear _ (covers_sub hL (by decide)) ?_
      | with_reducible refine keep_domainLost _ (covers_sub hL (by decide)) ?_
      | with_reducible refine keep_evalTarget _ (covers_sub hL (by decide)) ?_
      | with_reducible refine keep_frameStopEffect _ _ (covers_sub hL (by decide)) ?_
      | with_reducible refine keep_freezeRing (covers_sub hL (by decide)) ?_
      | with_reducible refine keep_imageEffect _ _ _ (covers_sub hL (by decide)) ?_
      | with_reducible refine keep_launchEffect _ _ (covers_sub hL (by decide)) ?_
      | with_reducible refine keep_longCaptureEffect _ _ (covers_sub hL (by decide)) ?_
      | with_reducible refine keep_modelEffect _ _ _ (covers_sub hL (by decide)) ?_
      | with_reducible refine keep_programEffect _ _ (covers_sub hL (by decide)) ?_
      | with_reducible refine keep_ptpProfileEffect _ _ (covers_sub hL (by decide)) ?_
      | with_reducible refine keep_replayCtrlEffect _ (covers_sub hL (by decide)) ?_
      | with_reducible refine keep_replayInputEffect _ (covers_sub hL (by decide)) ?_
      | with_reducible refine keep_resumeRing (covers_sub hL (by decide)) ?_
      | with_reducible refine keep_retestTile _ (covers_sub hL (by decide)) ?_
      | with_reducible refine keep_storeValue _ _ (covers_sub hL (by decide)) ?_
      | with_reducible refine keep_tileFails _ (covers_sub hL (by decide)) ?_
      | with_reducible refine keep_timeSetEffect _ _ (covers_sub hL (by decide)) ?_
      | with_reducible refine keep_timeSourceEffect _ _ (covers_sub hL (by decide)) ?_
      | with_reducible refine keep_unarm (covers_sub hL (by decide)) ?_
      | with_reducible refine only_onFin _ _ _ (fun _ => ?_) ?_
      | extract_lets
      | split
  rcases some_or e with rfl | e
  · repeat' first
      | with_reducible exact h
      | with_reducible assumption
      | with_reducible refine keep_antEnableEffect _ _ _ (covers_sub hL (by decide)) ?_
      | with_reducible refine keep_armEffect _ _ (covers_sub hL (by decide)) ?_
      | with_reducible refine keep_codebookEffect _ _ _ (covers_sub hL (by decide)) ?_
      | with_reducible refine keep_descEffect _ _ _ _ (covers_sub hL (by decide)) ?_
      | with_reducible refine keep_domainClear _ (covers_sub hL (by decide)) ?_
      | with_reducible refine keep_domainLost _ (covers_sub hL (by decide)) ?_
      | with_reducible refine keep_evalTarget _ (covers_sub hL (by decide)) ?_
      | with_reducible refine keep_frameStopEffect _ _ (covers_sub hL (by decide)) ?_
      | with_reducible refine keep_freezeRing (covers_sub hL (by decide)) ?_
      | with_reducible refine keep_imageEffect _ _ _ (covers_sub hL (by decide)) ?_
      | with_reducible refine keep_launchEffect _ _ (covers_sub hL (by decide)) ?_
      | with_reducible refine keep_longCaptureEffect _ _ (covers_sub hL (by decide)) ?_
      | with_reducible refine keep_modelEffect _ _ _ (covers_sub hL (by decide)) ?_
      | with_reducible refine keep_programEffect _ _ (covers_sub hL (by decide)) ?_
      | with_reducible refine keep_ptpProfileEffect _ _ (covers_sub hL (by decide)) ?_
      | with_reducible refine keep_replayCtrlEffect _ (covers_sub hL (by decide)) ?_
      | with_reducible refine keep_replayInputEffect _ (covers_sub hL (by decide)) ?_
      | with_reducible refine keep_resumeRing (covers_sub hL (by decide)) ?_
      | with_reducible refine keep_retestTile _ (covers_sub hL (by decide)) ?_
      | with_reducible refine keep_storeValue _ _ (covers_sub hL (by decide)) ?_
      | with_reducible refine keep_tileFails _ (covers_sub hL (by decide)) ?_
      | with_reducible refine keep_timeSetEffect _ _ (covers_sub hL (by decide)) ?_
      | with_reducible refine keep_timeSourceEffect _ _ (covers_sub hL (by decide)) ?_
      | with_reducible refine keep_unarm (covers_sub hL (by decide)) ?_
      | with_reducible refine only_onFin _ _ _ (fun _ => ?_) ?_
      | extract_lets
      | split
  rcases some_or e with rfl | e
  · repeat' first
      | with_reducible exact h
      | with_reducible assumption
      | with_reducible refine keep_antEnableEffect _ _ _ (covers_sub hL (by decide)) ?_
      | with_reducible refine keep_armEffect _ _ (covers_sub hL (by decide)) ?_
      | with_reducible refine keep_codebookEffect _ _ _ (covers_sub hL (by decide)) ?_
      | with_reducible refine keep_descEffect _ _ _ _ (covers_sub hL (by decide)) ?_
      | with_reducible refine keep_domainClear _ (covers_sub hL (by decide)) ?_
      | with_reducible refine keep_domainLost _ (covers_sub hL (by decide)) ?_
      | with_reducible refine keep_evalTarget _ (covers_sub hL (by decide)) ?_
      | with_reducible refine keep_frameStopEffect _ _ (covers_sub hL (by decide)) ?_
      | with_reducible refine keep_freezeRing (covers_sub hL (by decide)) ?_
      | with_reducible refine keep_imageEffect _ _ _ (covers_sub hL (by decide)) ?_
      | with_reducible refine keep_launchEffect _ _ (covers_sub hL (by decide)) ?_
      | with_reducible refine keep_longCaptureEffect _ _ (covers_sub hL (by decide)) ?_
      | with_reducible refine keep_modelEffect _ _ _ (covers_sub hL (by decide)) ?_
      | with_reducible refine keep_programEffect _ _ (covers_sub hL (by decide)) ?_
      | with_reducible refine keep_ptpProfileEffect _ _ (covers_sub hL (by decide)) ?_
      | with_reducible refine keep_replayCtrlEffect _ (covers_sub hL (by decide)) ?_
      | with_reducible refine keep_replayInputEffect _ (covers_sub hL (by decide)) ?_
      | with_reducible refine keep_resumeRing (covers_sub hL (by decide)) ?_
      | with_reducible refine keep_retestTile _ (covers_sub hL (by decide)) ?_
      | with_reducible refine keep_storeValue _ _ (covers_sub hL (by decide)) ?_
      | with_reducible refine keep_tileFails _ (covers_sub hL (by decide)) ?_
      | with_reducible refine keep_timeSetEffect _ _ (covers_sub hL (by decide)) ?_
      | with_reducible refine keep_timeSourceEffect _ _ (covers_sub hL (by decide)) ?_
      | with_reducible refine keep_unarm (covers_sub hL (by decide)) ?_
      | with_reducible refine only_onFin _ _ _ (fun _ => ?_) ?_
      | extract_lets
      | split
  rcases some_or e with rfl | e
  · repeat' first
      | with_reducible exact h
      | with_reducible assumption
      | with_reducible refine keep_antEnableEffect _ _ _ (covers_sub hL (by decide)) ?_
      | with_reducible refine keep_armEffect _ _ (covers_sub hL (by decide)) ?_
      | with_reducible refine keep_codebookEffect _ _ _ (covers_sub hL (by decide)) ?_
      | with_reducible refine keep_descEffect _ _ _ _ (covers_sub hL (by decide)) ?_
      | with_reducible refine keep_domainClear _ (covers_sub hL (by decide)) ?_
      | with_reducible refine keep_domainLost _ (covers_sub hL (by decide)) ?_
      | with_reducible refine keep_evalTarget _ (covers_sub hL (by decide)) ?_
      | with_reducible refine keep_frameStopEffect _ _ (covers_sub hL (by decide)) ?_
      | with_reducible refine keep_freezeRing (covers_sub hL (by decide)) ?_
      | with_reducible refine keep_imageEffect _ _ _ (covers_sub hL (by decide)) ?_
      | with_reducible refine keep_launchEffect _ _ (covers_sub hL (by decide)) ?_
      | with_reducible refine keep_longCaptureEffect _ _ (covers_sub hL (by decide)) ?_
      | with_reducible refine keep_modelEffect _ _ _ (covers_sub hL (by decide)) ?_
      | with_reducible refine keep_programEffect _ _ (covers_sub hL (by decide)) ?_
      | with_reducible refine keep_ptpProfileEffect _ _ (covers_sub hL (by decide)) ?_
      | with_reducible refine keep_replayCtrlEffect _ (covers_sub hL (by decide)) ?_
      | with_reducible refine keep_replayInputEffect _ (covers_sub hL (by decide)) ?_
      | with_reducible refine keep_resumeRing (covers_sub hL (by decide)) ?_
      | with_reducible refine keep_retestTile _ (covers_sub hL (by decide)) ?_
      | with_reducible refine keep_storeValue _ _ (covers_sub hL (by decide)) ?_
      | with_reducible refine keep_tileFails _ (covers_sub hL (by decide)) ?_
      | with_reducible refine keep_timeSetEffect _ _ (covers_sub hL (by decide)) ?_
      | with_reducible refine keep_timeSourceEffect _ _ (covers_sub hL (by decide)) ?_
      | with_reducible refine keep_unarm (covers_sub hL (by decide)) ?_
      | with_reducible refine only_onFin _ _ _ (fun _ => ?_) ?_
      | extract_lets
      | split
  rcases some_or e with rfl | e
  · repeat' first
      | with_reducible exact h
      | with_reducible assumption
      | with_reducible refine keep_antEnableEffect _ _ _ (covers_sub hL (by decide)) ?_
      | with_reducible refine keep_armEffect _ _ (covers_sub hL (by decide)) ?_
      | with_reducible refine keep_codebookEffect _ _ _ (covers_sub hL (by decide)) ?_
      | with_reducible refine keep_descEffect _ _ _ _ (covers_sub hL (by decide)) ?_
      | with_reducible refine keep_domainClear _ (covers_sub hL (by decide)) ?_
      | with_reducible refine keep_domainLost _ (covers_sub hL (by decide)) ?_
      | with_reducible refine keep_evalTarget _ (covers_sub hL (by decide)) ?_
      | with_reducible refine keep_frameStopEffect _ _ (covers_sub hL (by decide)) ?_
      | with_reducible refine keep_freezeRing (covers_sub hL (by decide)) ?_
      | with_reducible refine keep_imageEffect _ _ _ (covers_sub hL (by decide)) ?_
      | with_reducible refine keep_launchEffect _ _ (covers_sub hL (by decide)) ?_
      | with_reducible refine keep_longCaptureEffect _ _ (covers_sub hL (by decide)) ?_
      | with_reducible refine keep_modelEffect _ _ _ (covers_sub hL (by decide)) ?_
      | with_reducible refine keep_programEffect _ _ (covers_sub hL (by decide)) ?_
      | with_reducible refine keep_ptpProfileEffect _ _ (covers_sub hL (by decide)) ?_
      | with_reducible refine keep_replayCtrlEffect _ (covers_sub hL (by decide)) ?_
      | with_reducible refine keep_replayInputEffect _ (covers_sub hL (by decide)) ?_
      | with_reducible refine keep_resumeRing (covers_sub hL (by decide)) ?_
      | with_reducible refine keep_retestTile _ (covers_sub hL (by decide)) ?_
      | with_reducible refine keep_storeValue _ _ (covers_sub hL (by decide)) ?_
      | with_reducible refine keep_tileFails _ (covers_sub hL (by decide)) ?_
      | with_reducible refine keep_timeSetEffect _ _ (covers_sub hL (by decide)) ?_
      | with_reducible refine keep_timeSourceEffect _ _ (covers_sub hL (by decide)) ?_
      | with_reducible refine keep_unarm (covers_sub hL (by decide)) ?_
      | with_reducible refine only_onFin _ _ _ (fun _ => ?_) ?_
      | extract_lets
      | split
  rcases some_or e with rfl | e
  · repeat' first
      | with_reducible exact h
      | with_reducible assumption
      | with_reducible refine keep_antEnableEffect _ _ _ (covers_sub hL (by decide)) ?_
      | with_reducible refine keep_armEffect _ _ (covers_sub hL (by decide)) ?_
      | with_reducible refine keep_codebookEffect _ _ _ (covers_sub hL (by decide)) ?_
      | with_reducible refine keep_descEffect _ _ _ _ (covers_sub hL (by decide)) ?_
      | with_reducible refine keep_domainClear _ (covers_sub hL (by decide)) ?_
      | with_reducible refine keep_domainLost _ (covers_sub hL (by decide)) ?_
      | with_reducible refine keep_evalTarget _ (covers_sub hL (by decide)) ?_
      | with_reducible refine keep_frameStopEffect _ _ (covers_sub hL (by decide)) ?_
      | with_reducible refine keep_freezeRing (covers_sub hL (by decide)) ?_
      | with_reducible refine keep_imageEffect _ _ _ (covers_sub hL (by decide)) ?_
      | with_reducible refine keep_launchEffect _ _ (covers_sub hL (by decide)) ?_
      | with_reducible refine keep_longCaptureEffect _ _ (covers_sub hL (by decide)) ?_
      | with_reducible refine keep_modelEffect _ _ _ (covers_sub hL (by decide)) ?_
      | with_reducible refine keep_programEffect _ _ (covers_sub hL (by decide)) ?_
      | with_reducible refine keep_ptpProfileEffect _ _ (covers_sub hL (by decide)) ?_
      | with_reducible refine keep_replayCtrlEffect _ (covers_sub hL (by decide)) ?_
      | with_reducible refine keep_replayInputEffect _ (covers_sub hL (by decide)) ?_
      | with_reducible refine keep_resumeRing (covers_sub hL (by decide)) ?_
      | with_reducible refine keep_retestTile _ (covers_sub hL (by decide)) ?_
      | with_reducible refine keep_storeValue _ _ (covers_sub hL (by decide)) ?_
      | with_reducible refine keep_tileFails _ (covers_sub hL (by decide)) ?_
      | with_reducible refine keep_timeSetEffect _ _ (covers_sub hL (by decide)) ?_
      | with_reducible refine keep_timeSourceEffect _ _ (covers_sub hL (by decide)) ?_
      | with_reducible refine keep_unarm (covers_sub hL (by decide)) ?_
      | with_reducible refine only_onFin _ _ _ (fun _ => ?_) ?_
      | extract_lets
      | split
  rcases some_or e with rfl | e
  · repeat' first
      | with_reducible exact h
      | with_reducible assumption
      | with_reducible refine keep_antEnableEffect _ _ _ (covers_sub hL (by decide)) ?_
      | with_reducible refine keep_armEffect _ _ (covers_sub hL (by decide)) ?_
      | with_reducible refine keep_codebookEffect _ _ _ (covers_sub hL (by decide)) ?_
      | with_reducible refine keep_descEffect _ _ _ _ (covers_sub hL (by decide)) ?_
      | with_reducible refine keep_domainClear _ (covers_sub hL (by decide)) ?_
      | with_reducible refine keep_domainLost _ (covers_sub hL (by decide)) ?_
      | with_reducible refine keep_evalTarget _ (covers_sub hL (by decide)) ?_
      | with_reducible refine keep_frameStopEffect _ _ (covers_sub hL (by decide)) ?_
      | with_reducible refine keep_freezeRing (covers_sub hL (by decide)) ?_
      | with_reducible refine keep_imageEffect _ _ _ (covers_sub hL (by decide)) ?_
      | with_reducible refine keep_launchEffect _ _ (covers_sub hL (by decide)) ?_
      | with_reducible refine keep_longCaptureEffect _ _ (covers_sub hL (by decide)) ?_
      | with_reducible refine keep_modelEffect _ _ _ (covers_sub hL (by decide)) ?_
      | with_reducible refine keep_programEffect _ _ (covers_sub hL (by decide)) ?_
      | with_reducible refine keep_ptpProfileEffect _ _ (covers_sub hL (by decide)) ?_
      | with_reducible refine keep_replayCtrlEffect _ (covers_sub hL (by decide)) ?_
      | with_reducible refine keep_replayInputEffect _ (covers_sub hL (by decide)) ?_
      | with_reducible refine keep_resumeRing (covers_sub hL (by decide)) ?_
      | with_reducible refine keep_retestTile _ (covers_sub hL (by decide)) ?_
      | with_reducible refine keep_storeValue _ _ (covers_sub hL (by decide)) ?_
      | with_reducible refine keep_tileFails _ (covers_sub hL (by decide)) ?_
      | with_reducible refine keep_timeSetEffect _ _ (covers_sub hL (by decide)) ?_
      | with_reducible refine keep_timeSourceEffect _ _ (covers_sub hL (by decide)) ?_
      | with_reducible refine keep_unarm (covers_sub hL (by decide)) ?_
      | with_reducible refine only_onFin _ _ _ (fun _ => ?_) ?_
      | extract_lets
      | split
  cases e

theorem keep_branchEffect {L : List Area} {u0 : State} (key : Nat) (b : Nat) (sub : Nat) (v : Nat) (c : Count) {s : State} (hL : Covers [.nums, .blobs, .pow, .br, .sq, .acc, .ev, .nut, .eng] L) (h : Only L u0 s) :
    Only L u0 (branchEffect key b sub v c s) := by
  unfold branchEffect
  repeat' first
    | with_reducible exact h
    | with_reducible assumption
    | extract_lets
    | with_reducible refine keep_disableEffect _ _ (covers_sub hL (by decide)) ?_
    | with_reducible refine keep_enableEffect _ _ (covers_sub hL (by decide)) ?_
    | with_reducible refine keep_fetClearEffect _ _ (covers_sub hL (by decide)) ?_
    | with_reducible refine keep_startOffsetEffect _ (covers_sub hL (by decide)) ?_
    | with_reducible refine keep_storeValue _ _ (covers_sub hL (by decide)) ?_
    | with_reducible refine only_onFin _ _ _ (fun _ => ?_) ?_
    | split
    | with_reducible refine only_ite (fun _ => ?_) (fun _ => ?_)

theorem keep_coolingEffect {L : List Area} {u0 : State} (key : Nat) (v : Value) {s : State} (hL : Covers [.nums, .blobs, .pow, .br, .sq, .acc, .cool, .ev, .nut, .eng] L) (h : Only L u0 s) :
    Only L u0 (coolingEffect key v s) := by
  unfold coolingEffect
  repeat' first
    | with_reducible exact h
    | with_reducible assumption
    | extract_lets
    | with_reducible refine keep_settleZones (covers_sub hL (by decide)) ?_
    | with_reducible refine keep_storeValue _ _ (covers_sub hL (by decide)) ?_

theorem keep_railEffect {L : List Area} {u0 : State} (key : Nat) (v : Nat) {s : State} (hL : Covers [.nums, .blobs, .pow, .sq] L) (h : Only L u0 s) :
    Only L u0 (railEffect key v s) := by
  unfold railEffect
  repeat' first
    | with_reducible exact h
    | with_reducible assumption
    | extract_lets
    | with_reducible refine keep_armRail _ _ _ (covers_sub hL (by decide)) ?_
    | with_reducible refine keep_levelEffect _ _ (covers_sub hL (by decide)) ?_
    | with_reducible refine keep_storeValue _ _ (covers_sub hL (by decide)) ?_
    | with_reducible refine only_onFin _ _ _ (fun _ => ?_) ?_
    | split
    | with_reducible refine only_ite (fun _ => ?_) (fun _ => ?_)
    | dsimp -zeta +zetaDelta only

theorem keep_ryeWrite_eq {L : List Area} {u0 : State} {key : Nat} {v : Value} {kept : Bool} {c : Count} {s t : State} (e : ryeWrite key v kept c s = some t) (hL : Covers [.nums, .blobs, .clk, .pow, .br, .sq, .acc, .heat, .cool, .part, .ev, .nut, .rep, .oda, .port, .eng, .img, .ani, .mem, .bar, .cardamom, .free] L)
    (h : Only L u0 s) : Only L u0 t := by
  unfold ryeWrite at e
  extract_lets idx sub n bs at e
  clear_value idx sub n bs
  rcases some_or e with rfl | e
  · repeat' first
      | with_reducible exact h
      | with_reducible assumption
      | with_reducible refine keep_applyDw _ (covers_sub hL (by decide)) ?_
      | with_reducible refine keep_branchEffect _ _ _ _ _ (covers_sub hL (by decide)) ?_
      | with_reducible refine keep_clearZone _ _ (covers_sub hL (by decide)) ?_
      | with_reducible refine keep_coolingEffect _ _ (covers_sub hL (by decide)) ?_
      | with_reducible refine keep_enableLeak _ (covers_sub hL (by decide)) ?_
      | with_reducible refine keep_forEach _ _ (covers_sub hL (by decide)) ?_
      | with_reducible refine keep_mainReset _ _ (covers_sub hL (by decide)) ?_
      | with_reducible refine keep_peakReset _ (covers_sub hL (by decide)) ?_
      | with_reducible refine keep_railEffect _ _ (covers_sub hL (by decide)) ?_
      | with_reducible refine keep_recomputeCaps (covers_sub hL (by decide)) ?_
      | with_reducible refine keep_releaseQuar _ (covers_sub hL (by decide)) ?_
      | with_reducible refine keep_setReq _ _ _ (covers_sub hL (by decide)) ?_
      | with_reducible refine keep_settleLevel (covers_sub hL (by decide)) ?_
      | with_reducible refine keep_storeValue _ _ (covers_sub hL (by decide)) ?_
      | with_reducible refine keep_warmRestart (covers_sub hL (by decide)) ?_
      | with_reducible refine only_forEach _ _ (fun _ _ _ => ?_) ?_
      | with_reducible refine only_onFin _ _ _ (fun _ => ?_) ?_
      | extract_lets
      | split
  rcases some_or e with rfl | e
  · repeat' first
      | with_reducible exact h
      | with_reducible assumption
      | with_reducible refine keep_applyDw _ (covers_sub hL (by decide)) ?_
      | with_reducible refine keep_branchEffect _ _ _ _ _ (covers_sub hL (by decide)) ?_
      | with_reducible refine keep_clearZone _ _ (covers_sub hL (by decide)) ?_
      | with_reducible refine keep_coolingEffect _ _ (covers_sub hL (by decide)) ?_
      | with_reducible refine keep_enableLeak _ (covers_sub hL (by decide)) ?_
      | with_reducible refine keep_forEach _ _ (covers_sub hL (by decide)) ?_
      | with_reducible refine keep_mainReset _ _ (covers_sub hL (by decide)) ?_
      | with_reducible refine keep_peakReset _ (covers_sub hL (by decide)) ?_
      | with_reducible refine keep_railEffect _ _ (covers_sub hL (by decide)) ?_
      | with_reducible refine keep_recomputeCaps (covers_sub hL (by decide)) ?_
      | with_reducible refine keep_releaseQuar _ (covers_sub hL (by decide)) ?_
      | with_reducible refine keep_setReq _ _ _ (covers_sub hL (by decide)) ?_
      | with_reducible refine keep_settleLevel (covers_sub hL (by decide)) ?_
      | with_reducible refine keep_storeValue _ _ (covers_sub hL (by decide)) ?_
      | with_reducible refine keep_warmRestart (covers_sub hL (by decide)) ?_
      | with_reducible refine only_forEach _ _ (fun _ _ _ => ?_) ?_
      | with_reducible refine only_onFin _ _ _ (fun _ => ?_) ?_
      | extract_lets
      | split
  rcases some_or e with rfl | e
  · repeat' first
      | with_reducible exact h
      | with_reducible assumption
      | with_reducible refine keep_applyDw _ (covers_sub hL (by decide)) ?_
      | with_reducible refine keep_branchEffect _ _ _ _ _ (covers_sub hL (by decide)) ?_
      | with_reducible refine keep_clearZone _ _ (covers_sub hL (by decide)) ?_
      | with_reducible refine keep_coolingEffect _ _ (covers_sub hL (by decide)) ?_
      | with_reducible refine keep_enableLeak _ (covers_sub hL (by decide)) ?_
      | with_reducible refine keep_forEach _ _ (covers_sub hL (by decide)) ?_
      | with_reducible refine keep_mainReset _ _ (covers_sub hL (by decide)) ?_
      | with_reducible refine keep_peakReset _ (covers_sub hL (by decide)) ?_
      | with_reducible refine keep_railEffect _ _ (covers_sub hL (by decide)) ?_
      | with_reducible refine keep_recomputeCaps (covers_sub hL (by decide)) ?_
      | with_reducible refine keep_releaseQuar _ (covers_sub hL (by decide)) ?_
      | with_reducible refine keep_setReq _ _ _ (covers_sub hL (by decide)) ?_
      | with_reducible refine keep_settleLevel (covers_sub hL (by decide)) ?_
      | with_reducible refine keep_storeValue _ _ (covers_sub hL (by decide)) ?_
      | with_reducible refine keep_warmRestart (covers_sub hL (by decide)) ?_
      | with_reducible refine only_forEach _ _ (fun _ _ _ => ?_) ?_
      | with_reducible refine only_onFin _ _ _ (fun _ => ?_) ?_
      | extract_lets
      | split
  rcases some_or e with rfl | e
  · repeat' first
      | with_reducible exact h
      | with_reducible assumption
      | with_reducible refine keep_applyDw _ (covers_sub hL (by decide)) ?_
      | with_reducible refine keep_branchEffect _ _ _ _ _ (covers_sub hL (by decide)) ?_
      | with_reducible refine keep_clearZone _ _ (covers_sub hL (by decide)) ?_
      | with_reducible refine keep_coolingEffect _ _ (covers_sub hL (by decide)) ?_
      | with_reducible refine keep_enableLeak _ (covers_sub hL (by decide)) ?_
      | with_reducible refine keep_forEach _ _ (covers_sub hL (by decide)) ?_
      | with_reducible refine keep_mainReset _ _ (covers_sub hL (by decide)) ?_
      | with_reducible refine keep_peakReset _ (covers_sub hL (by decide)) ?_
      | with_reducible refine keep_railEffect _ _ (covers_sub hL (by decide)) ?_
      | with_reducible refine keep_recomputeCaps (covers_sub hL (by decide)) ?_
      | with_reducible refine keep_releaseQuar _ (covers_sub hL (by decide)) ?_
      | with_reducible refine keep_setReq _ _ _ (covers_sub hL (by decide)) ?_
      | with_reducible refine keep_settleLevel (covers_sub hL (by decide)) ?_
      | with_reducible refine keep_storeValue _ _ (covers_sub hL (by decide)) ?_
      | with_reducible refine keep_warmRestart (covers_sub hL (by decide)) ?_
      | with_reducible refine only_forEach _ _ (fun _ _ _ => ?_) ?_
      | with_reducible refine only_onFin _ _ _ (fun _ => ?_) ?_
      | extract_lets
      | split
  rcases some_or e with rfl | e
  · repeat' first
      | with_reducible exact h
      | with_reducible assumption
      | with_reducible refine keep_applyDw _ (covers_sub hL (by decide)) ?_
      | with_reducible refine keep_branchEffect _ _ _ _ _ (covers_sub hL (by decide)) ?_
      | with_reducible refine keep_clearZone _ _ (covers_sub hL (by decide)) ?_
      | with_reducible refine keep_coolingEffect _ _ (covers_sub hL (by decide)) ?_
      | with_reducible refine keep_enableLeak _ (covers_sub hL (by decide)) ?_
      | with_reducible refine keep_forEach _ _ (covers_sub hL (by decide)) ?_
      | with_reducible refine keep_mainReset _ _ (covers_sub hL (by decide)) ?_
      | with_reducible refine keep_peakReset _ (covers_sub hL (by decide)) ?_
      | with_reducible refine keep_railEffect _ _ (covers_sub hL (by decide)) ?_
      | with_reducible refine keep_recomputeCaps (covers_sub hL (by decide)) ?_
      | with_reducible refine keep_releaseQuar _ (covers_sub hL (by decide)) ?_
      | with_reducible refine keep_setReq _ _ _ (covers_sub hL (by decide)) ?_
      | with_reducible refine keep_settleLevel (covers_sub hL (by decide)) ?_
      | with_reducible refine keep_storeValue _ _ (covers_sub hL (by decide)) ?_
      | with_reducible refine keep_warmRestart (covers_sub hL (by decide)) ?_
      | with_reducible refine only_forEach _ _ (fun _ _ _ => ?_) ?_
      | with_reducible refine only_onFin _ _ _ (fun _ => ?_) ?_
      | extract_lets
      | split
  rcases some_or e with rfl | e
  · repeat' first
      | with_reducible exact h
      | with_reducible assumption
      | with_reducible refine keep_applyDw _ (covers_sub hL (by decide)) ?_
      | with_reducible refine keep_branchEffect _ _ _ _ _ (covers_sub hL (by decide)) ?_
      | with_reducible refine keep_clearZone _ _ (covers_sub hL (by decide)) ?_
      | with_reducible refine keep_coolingEffect _ _ (covers_sub hL (by decide)) ?_
      | with_reducible refine keep_enableLeak _ (covers_sub hL (by decide)) ?_
      | with_reducible refine keep_forEach _ _ (covers_sub hL (by decide)) ?_
      | with_reducible refine keep_mainReset _ _ (covers_sub hL (by decide)) ?_
      | with_reducible refine keep_peakReset _ (covers_sub hL (by decide)) ?_
      | with_reducible refine keep_railEffect _ _ (covers_sub hL (by decide)) ?_
      | with_reducible refine keep_recomputeCaps (covers_sub hL (by decide)) ?_
      | with_reducible refine keep_releaseQuar _ (covers_sub hL (by decide)) ?_
      | with_reducible refine keep_setReq _ _ _ (covers_sub hL (by decide)) ?_
      | with_reducible refine keep_settleLevel (covers_sub hL (by decide)) ?_
      | with_reducible refine keep_storeValue _ _ (covers_sub hL (by decide)) ?_
      | with_reducible refine keep_warmRestart (covers_sub hL (by decide)) ?_
      | with_reducible refine only_forEach _ _ (fun _ _ _ => ?_) ?_
      | with_reducible refine only_onFin _ _ _ (fun _ => ?_) ?_
      | extract_lets
      | split
  rcases some_or e with rfl | e
  · repeat' first
      | with_reducible exact h
      | with_reducible assumption
      | with_reducible refine keep_applyDw _ (covers_sub hL (by decide)) ?_
      | with_reducible refine keep_branchEffect _ _ _ _ _ (covers_sub hL (by decide)) ?_
      | with_reducible refine keep_clearZone _ _ (covers_sub hL (by decide)) ?_
      | with_reducible refine keep_coolingEffect _ _ (covers_sub hL (by decide)) ?_
      | with_reducible refine keep_enableLeak _ (covers_sub hL (by decide)) ?_
      | with_reducible refine keep_forEach _ _ (covers_sub hL (by decide)) ?_
      | with_reducible refine keep_mainReset _ _ (covers_sub hL (by decide)) ?_
      | with_reducible refine keep_peakReset _ (covers_sub hL (by decide)) ?_
      | with_reducible refine keep_railEffect _ _ (covers_sub hL (by decide)) ?_
      | with_reducible refine keep_recomputeCaps (covers_sub hL (by decide)) ?_
      | with_reducible refine keep_releaseQuar _ (covers_sub hL (by decide)) ?_
      | with_reducible refine keep_setReq _ _ _ (covers_sub hL (by decide)) ?_
      | with_reducible refine keep_settleLevel (covers_sub hL (by decide)) ?_
      | with_reducible refine keep_storeValue _ _ (covers_sub hL (by decide)) ?_
      | with_reducible refine keep_warmRestart (covers_sub hL (by decide)) ?_
      | with_reducible refine only_forEach _ _ (fun _ _ _ => ?_) ?_
      | with_reducible refine only_onFin _ _ _ (fun _ => ?_) ?_
      | extract_lets
      | split
  rcases some_or e with rfl | e
  · repeat' first
      | with_reducible exact h
      | with_reducible assumption
      | with_reducible refine keep_applyDw _ (covers_sub hL (by decide)) ?_
      | with_reducible refine keep_branchEffect _ _ _ _ _ (covers_sub hL (by decide)) ?_
      | with_reducible refine keep_clearZone _ _ (covers_sub hL (by decide)) ?_
      | with_reducible refine keep_coolingEffect _ _ (covers_sub hL (by decide)) ?_
      | with_reducible refine keep_enableLeak _ (covers_sub hL (by decide)) ?_
      | with_reducible refine keep_forEach _ _ (covers_sub hL (by decide)) ?_
      | with_reducible refine keep_mainReset _ _ (covers_sub hL (by decide)) ?_
      | with_reducible refine keep_peakReset _ (covers_sub hL (by decide)) ?_
      | with_reducible refine keep_railEffect _ _ (covers_sub hL (by decide)) ?_
      | with_reducible refine keep_recomputeCaps (covers_sub hL (by decide)) ?_
      | with_reducible refine keep_releaseQuar _ (covers_sub hL (by decide)) ?_
      | with_reducible refine keep_setReq _ _ _ (covers_sub hL (by decide)) ?_
      | with_reducible refine keep_settleLevel (covers_sub hL (by decide)) ?_
      | with_reducible refine keep_storeValue _ _ (covers_sub hL (by decide)) ?_
      | with_reducible refine keep_warmRestart (covers_sub hL (by decide)) ?_
      | with_reducible refine only_forEach _ _ (fun _ _ _ => ?_) ?_
      | with_reducible refine only_onFin _ _ _ (fun _ => ?_) ?_
      | extract_lets
      | split
  rcases some_or e with rfl | e
  · repeat' first
      | with_reducible exact h
      | with_reducible assumption
      | with_reducible refine keep_applyDw _ (covers_sub hL (by decide)) ?_
      | with_reducible refine keep_branchEffect _ _ _ _ _ (covers_sub hL (by decide)) ?_
      | with_reducible refine keep_clearZone _ _ (covers_sub hL (by decide)) ?_
      | with_reducible refine keep_coolingEffect _ _ (covers_sub hL (by decide)) ?_
      | with_reducible refine keep_enableLeak _ (covers_sub hL (by decide)) ?_
      | with_reducible refine keep_forEach _ _ (covers_sub hL (by decide)) ?_
      | with_reducible refine keep_mainReset _ _ (covers_sub hL (by decide)) ?_
      | with_reducible refine keep_peakReset _ (covers_sub hL (by decide)) ?_
      | with_reducible refine keep_railEffect _ _ (covers_sub hL (by decide)) ?_
      | with_reducible refine keep_recomputeCaps (covers_sub hL (by decide)) ?_
      | with_reducible refine keep_releaseQuar _ (covers_sub hL (by decide)) ?_
      | with_reducible refine keep_setReq _ _ _ (covers_sub hL (by decide)) ?_
      | with_reducible refine keep_settleLevel (covers_sub hL (by decide)) ?_
      | with_reducible refine keep_storeValue _ _ (covers_sub hL (by decide)) ?_
      | with_reducible refine keep_warmRestart (covers_sub hL (by decide)) ?_
      | with_reducible refine only_forEach _ _ (fun _ _ _ => ?_) ?_
      | with_reducible refine only_onFin _ _ _ (fun _ => ?_) ?_
      | extract_lets
      | split
  rcases some_or e with rfl | e
  · repeat' first
      | with_reducible exact h
      | with_reducible assumption
      | with_reducible refine keep_applyDw _ (covers_sub hL (by decide)) ?_
      | with_reducible refine keep_branchEffect _ _ _ _ _ (covers_sub hL (by decide)) ?_
      | with_reducible refine keep_clearZone _ _ (covers_sub hL (by decide)) ?_
      | with_reducible refine keep_coolingEffect _ _ (covers_sub hL (by decide)) ?_
      | with_reducible refine keep_enableLeak _ (covers_sub hL (by decide)) ?_
      | with_reducible refine keep_forEach _ _ (covers_sub hL (by decide)) ?_
      | with_reducible refine keep_mainReset _ _ (covers_sub hL (by decide)) ?_
      | with_reducible refine keep_peakReset _ (covers_sub hL (by decide)) ?_
      | with_reducible refine keep_railEffect _ _ (covers_sub hL (by decide)) ?_
      | with_reducible refine keep_recomputeCaps (covers_sub hL (by decide)) ?_
      | with_reducible refine keep_releaseQuar _ (covers_sub hL (by decide)) ?_
      | with_reducible refine keep_setReq _ _ _ (covers_sub hL (by decide)) ?_
      | with_reducible refine keep_settleLevel (covers_sub hL (by decide)) ?_
      | with_reducible refine keep_storeValue _ _ (covers_sub hL (by decide)) ?_
      | with_reducible refine keep_warmRestart (covers_sub hL (by decide)) ?_
      | with_reducible refine only_forEach _ _ (fun _ _ _ => ?_) ?_
      | with_reducible refine only_onFin _ _ _ (fun _ => ?_) ?_
      | extract_lets
      | split
  rcases some_or e with rfl | e
  · repeat' first
      | with_reducible exact h
      | with_reducible assumption
      | with_reducible refine keep_applyDw _ (covers_sub hL (by decide)) ?_
      | with_reducible refine keep_branchEffect _ _ _ _ _ (covers_sub hL (by decide)) ?_
      | with_reducible refine keep_clearZone _ _ (covers_sub hL (by decide)) ?_
      | with_reducible refine keep_coolingEffect _ _ (covers_sub hL (by decide)) ?_
      | with_reducible refine keep_enableLeak _ (covers_sub hL (by decide)) ?_
      | with_reducible refine keep_forEach _ _ (covers_sub hL (by decide)) ?_
      | with_reducible refine keep_mainReset _ _ (covers_sub hL (by decide)) ?_
      | with_reducible refine keep_peakReset _ (covers_sub hL (by decide)) ?_
      | with_reducible refine keep_railEffect _ _ (covers_sub hL (by decide)) ?_
      | with_reducible refine keep_recomputeCaps (covers_sub hL (by decide)) ?_
      | with_reducible refine keep_releaseQuar _ (covers_sub hL (by decide)) ?_
      | with_reducible refine keep_setReq _ _ _ (covers_sub hL (by decide)) ?_
      | with_reducible refine keep_settleLevel (covers_sub hL (by decide)) ?_
      | with_reducible refine keep_storeValue _ _ (covers_sub hL (by decide)) ?_
      | with_reducible refine keep_warmRestart (covers_sub hL (by decide)) ?_
      | with_reducible refine only_forEach _ _ (fun _ _ _ => ?_) ?_
      | with_reducible refine only_onFin _ _ _ (fun _ => ?_) ?_
      | extract_lets
      | split
  rcases some_or e with rfl | e
  · repeat' first
      | with_reducible exact h
      | with_reducible assumption
      | with_reducible refine keep_applyDw _ (covers_sub hL (by decide)) ?_
      | with_reducible refine keep_branchEffect _ _ _ _ _ (covers_sub hL (by decide)) ?_
      | with_reducible refine keep_clearZone _ _ (covers_sub hL (by decide)) ?_
      | with_reducible refine keep_coolingEffect _ _ (covers_sub hL (by decide)) ?_
      | with_reducible refine keep_enableLeak _ (covers_sub hL (by decide)) ?_
      | with_reducible refine keep_forEach _ _ (covers_sub hL (by decide)) ?_
      | with_reducible refine keep_mainReset _ _ (covers_sub hL (by decide)) ?_
      | with_reducible refine keep_peakReset _ (covers_sub hL (by decide)) ?_
      | with_reducible refine keep_railEffect _ _ (covers_sub hL (by decide)) ?_
      | with_reducible refine keep_recomputeCaps (covers_sub hL (by decide)) ?_
      | with_reducible refine keep_releaseQuar _ (covers_sub hL (by decide)) ?_
      | with_reducible refine keep_setReq _ _ _ (covers_sub hL (by decide)) ?_
      | with_reducible refine keep_settleLevel (covers_sub hL (by decide)) ?_
      | with_reducible refine keep_storeValue _ _ (covers_sub hL (by decide)) ?_
      | with_reducible refine keep_warmRestart (covers_sub hL (by decide)) ?_
      | with_reducible refine only_forEach _ _ (fun _ _ _ => ?_) ?_
      | with_reducible refine only_onFin _ _ _ (fun _ => ?_) ?_
      | extract_lets
      | split
  rcases some_or e with rfl | e
  · repeat' first
      | with_reducible exact h
      | with_reducible assumption
      | with_reducible refine keep_applyDw _ (covers_sub hL (by decide)) ?_
      | with_reducible refine keep_branchEffect _ _ _ _ _ (covers_sub hL (by decide)) ?_
      | with_reducible refine keep_clearZone _ _ (covers_sub hL (by decide)) ?_
      | with_reducible refine keep_coolingEffect _ _ (covers_sub hL (by decide)) ?_
      | with_reducible refine keep_enableLeak _ (covers_sub hL (by decide)) ?_
      | with_reducible refine keep_forEach _ _ (covers_sub hL (by decide)) ?_
      | with_reducible refine keep_mainReset _ _ (covers_sub hL (by decide)) ?_
      | with_reducible refine keep_peakReset _ (covers_sub hL (by decide)) ?_
      | with_reducible refine keep_railEffect _ _ (covers_sub hL (by decide)) ?_
      | with_reducible refine keep_recomputeCaps (covers_sub hL (by decide)) ?_
      | with_reducible refine keep_releaseQuar _ (covers_sub hL (by decide)) ?_
      | with_reducible refine keep_setReq _ _ _ (covers_sub hL (by decide)) ?_
      | with_reducible refine keep_settleLevel (covers_sub hL (by decide)) ?_
      | with_reducible refine keep_storeValue _ _ (covers_sub hL (by decide)) ?_
      | with_reducible refine keep_warmRestart (covers_sub hL (by decide)) ?_
      | with_reducible refine only_forEach _ _ (fun _ _ _ => ?_) ?_
      | with_reducible refine only_onFin _ _ _ (fun _ => ?_) ?_
      | extract_lets
      | split
  rcases some_or e with rfl | e
  · repeat' first
      | with_reducible exact h
      | with_reducible assumption
      | with_reducible refine keep_applyDw _ (covers_sub hL (by decide)) ?_
      | with_reducible refine keep_branchEffect _ _ _ _ _ (covers_sub hL (by decide)) ?_
      | with_reducible refine keep_clearZone _ _ (covers_sub hL (by decide)) ?_
      | with_reducible refine keep_coolingEffect _ _ (covers_sub hL (by decide)) ?_
      | with_reducible refine keep_enableLeak _ (covers_sub hL (by decide)) ?_
      | with_reducible refine keep_forEach _ _ (covers_sub hL (by decide)) ?_
      | with_reducible refine keep_mainReset _ _ (covers_sub hL (by decide)) ?_
      | with_reducible refine keep_peakReset _ (covers_sub hL (by decide)) ?_
      | with_reducible refine keep_railEffect _ _ (covers_sub hL (by decide)) ?_
      | with_reducible refine keep_recomputeCaps (covers_sub hL (by decide)) ?_
      | with_reducible refine keep_releaseQuar _ (covers_sub hL (by decide)) ?_
      | with_reducible refine keep_setReq _ _ _ (covers_sub hL (by decide)) ?_
      | with_reducible refine keep_settleLevel (covers_sub hL (by decide)) ?_
      | with_reducible refine keep_storeValue _ _ (covers_sub hL (by decide)) ?_
      | with_reducible refine keep_warmRestart (covers_sub hL (by decide)) ?_
      | with_reducible refine only_forEach _ _ (fun _ _ _ => ?_) ?_
      | with_reducible refine only_onFin _ _ _ (fun _ => ?_) ?_
      | extract_lets
      | split
  rcases some_or e with rfl | e
  · repeat' first
      | with_reducible exact h
      | with_reducible assumption
      | with_reducible refine keep_applyDw _ (covers_sub hL (by decide)) ?_
      | with_reducible refine keep_branchEffect _ _ _ _ _ (covers_sub hL (by decide)) ?_
      | with_reducible refine keep_clearZone _ _ (covers_sub hL (by decide)) ?_
      | with_reducible refine keep_coolingEffect _ _ (covers_sub hL (by decide)) ?_
      | with_reducible refine keep_enableLeak _ (covers_sub hL (by decide)) ?_
      | with_reducible refine keep_forEach _ _ (covers_sub hL (by decide)) ?_
      | with_reducible refine keep_mainReset _ _ (covers_sub hL (by decide)) ?_
      | with_reducible refine keep_peakReset _ (covers_sub hL (by decide)) ?_
      | with_reducible refine keep_railEffect _ _ (covers_sub hL (by decide)) ?_
      | with_reducible refine keep_recomputeCaps (covers_sub hL (by decide)) ?_
      | with_reducible refine keep_releaseQuar _ (covers_sub hL (by decide)) ?_
      | with_reducible refine keep_setReq _ _ _ (covers_sub hL (by decide)) ?_
      | with_reducible refine keep_settleLevel (covers_sub hL (by decide)) ?_
      | with_reducible refine keep_storeValue _ _ (covers_sub hL (by decide)) ?_
      | with_reducible refine keep_warmRestart (covers_sub hL (by decide)) ?_
      | with_reducible refine only_forEach _ _ (fun _ _ _ => ?_) ?_
      | with_reducible refine only_onFin _ _ _ (fun _ => ?_) ?_
      | extract_lets
      | split
  cases e

theorem keep_codeRateEffect {L : List Area} {u0 : State} (code : Nat) (v : Nat) {s : State} (hL : Covers [.nums, .nut] L) (h : Only L u0 s) :
    Only L u0 (codeRateEffect code v s) := by
  unfold codeRateEffect
  repeat' first
    | with_reducible exact h
    | with_reducible assumption
    | extract_lets
    | split
    | with_reducible refine only_ite (fun _ => ?_) (fun _ => ?_)
    | with_reducible refine keep_mk_nums _ (covers_sub hL (by decide)) ?_
    | with_reducible refine keep_mk_nut _ (covers_sub hL (by decide)) ?_
    | exact only_upd (by assumption) (fun a ha => by cases a <;> first | exact absurd (hL _ (by decide)) ha | rfl)
    | dsimp -zeta +zetaDelta only

theorem keep_secNumEffect {L : List Area} {u0 : State} (key : Nat) (v : Nat) {s : State} (hL : Covers [.nums, .blobs, .pow, .cardamom] L) (h : Only L u0 s) :
    Only L u0 (secNumEffect key v s) := by
  unfold secNumEffect
  repeat' first
    | with_reducible exact h
    | with_reducible assumption
    | extract_lets
    | with_reducible refine keep_commitRec _ (covers_sub hL (by decide)) ?_
    | with_reducible refine keep_storeValue _ _ (covers_sub hL (by decide)) ?_

theorem keep_sideWrite_eq {L : List Area} {u0 : State} {sess : Nat} {key : Nat} {v : Value} {kept : Bool} {c : Count} {s t : State} (e : sideWrite sess key v kept c s = some t) (hL : Covers [.nums, .blobs, .clk, .pow, .acc, .heat, .part, .ev, .nut, .oda, .port, .eng, .img, .ani, .mem, .bar, .cardamom, .free] L)
    (h : Only L u0 s) : Only L u0 t := by
  unfold sideWrite at e
  extract_lets idx sub n bs at e
  clear_value idx sub n bs
  rcases some_or e with rfl | e
  · repeat' first
      | with_reducible exact h
      | with_reducible assumption
      | with_reducible refine keep_abortUpdate _ (covers_sub hL (by decide)) ?_
      | with_reducible refine keep_clearRecorder _ (covers_sub hL (by decide)) ?_
      | with_reducible refine keep_codeRateEffect _ _ (covers_sub hL (by decide)) ?_
      | with_reducible refine keep_confirmUpdate (covers_sub hL (by decide)) ?_
      | with_reducible refine keep_gateListEffect _ _ _ (covers_sub hL (by decide)) ?_
      | with_reducible refine keep_keyCmdEffect _ (covers_sub hL (by decide)) ?_
      | with_reducible refine keep_macsecKey _ _ (covers_sub hL (by decide)) ?_
      | with_reducible refine keep_ownerReset (covers_sub hL (by decide)) ?_
      | with_reducible refine keep_peSerialEffect _ _ _ (covers_sub hL (by decide)) ?_
      | with_reducible refine keep_portModeEffect _ _ (covers_sub hL (by decide)) ?_
      | with_reducible refine keep_quoteEffect _ _ _ (covers_sub hL (by decide)) ?_
      | with_reducible refine keep_raiseEffect _ (covers_sub hL (by decide)) ?_
      | with_reducible refine keep_sbModeEffect _ _ (covers_sub hL (by decide)) ?_
      | with_reducible refine keep_secNumEffect _ _ (covers_sub hL (by decide)) ?_
      | with_reducible refine keep_startUpdate _ (covers_sub hL (by decide)) ?_
      | with_reducible refine keep_switchAtEffect _ _ (covers_sub hL (by decide)) ?_
      | with_reducible refine only_onFin _ _ _ (fun _ => ?_) ?_
      | extract_lets
      | split
  rcases some_or e with rfl | e
  · repeat' first
      | with_reducible exact h
      | with_reducible assumption
      | with_reducible refine keep_abortUpdate _ (covers_sub hL (by decide)) ?_
      | with_reducible refine keep_clearRecorder _ (covers_sub hL (by decide)) ?_
      | with_reducible refine keep_codeRateEffect _ _ (covers_sub hL (by decide)) ?_
      | with_reducible refine keep_confirmUpdate (covers_sub hL (by decide)) ?_
      | with_reducible refine keep_gateListEffect _ _ _ (covers_sub hL (by decide)) ?_
      | with_reducible refine keep_keyCmdEffect _ (covers_sub hL (by decide)) ?_
      | with_reducible refine keep_macsecKey _ _ (covers_sub hL (by decide)) ?_
      | with_reducible refine keep_ownerReset (covers_sub hL (by decide)) ?_
      | with_reducible refine keep_peSerialEffect _ _ _ (covers_sub hL (by decide)) ?_
      | with_reducible refine keep_portModeEffect _ _ (covers_sub hL (by decide)) ?_
      | with_reducible refine keep_quoteEffect _ _ _ (covers_sub hL (by decide)) ?_
      | with_reducible refine keep_raiseEffect _ (covers_sub hL (by decide)) ?_
      | with_reducible refine keep_sbModeEffect _ _ (covers_sub hL (by decide)) ?_
      | with_reducible refine keep_secNumEffect _ _ (covers_sub hL (by decide)) ?_
      | with_reducible refine keep_startUpdate _ (covers_sub hL (by decide)) ?_
      | with_reducible refine keep_switchAtEffect _ _ (covers_sub hL (by decide)) ?_
      | with_reducible refine only_onFin _ _ _ (fun _ => ?_) ?_
      | extract_lets
      | split
  rcases some_or e with rfl | e
  · repeat' first
      | with_reducible exact h
      | with_reducible assumption
      | with_reducible refine keep_abortUpdate _ (covers_sub hL (by decide)) ?_
      | with_reducible refine keep_clearRecorder _ (covers_sub hL (by decide)) ?_
      | with_reducible refine keep_codeRateEffect _ _ (covers_sub hL (by decide)) ?_
      | with_reducible refine keep_confirmUpdate (covers_sub hL (by decide)) ?_
      | with_reducible refine keep_gateListEffect _ _ _ (covers_sub hL (by decide)) ?_
      | with_reducible refine keep_keyCmdEffect _ (covers_sub hL (by decide)) ?_
      | with_reducible refine keep_macsecKey _ _ (covers_sub hL (by decide)) ?_
      | with_reducible refine keep_ownerReset (covers_sub hL (by decide)) ?_
      | with_reducible refine keep_peSerialEffect _ _ _ (covers_sub hL (by decide)) ?_
      | with_reducible refine keep_portModeEffect _ _ (covers_sub hL (by decide)) ?_
      | with_reducible refine keep_quoteEffect _ _ _ (covers_sub hL (by decide)) ?_
      | with_reducible refine keep_raiseEffect _ (covers_sub hL (by decide)) ?_
      | with_reducible refine keep_sbModeEffect _ _ (covers_sub hL (by decide)) ?_
      | with_reducible refine keep_secNumEffect _ _ (covers_sub hL (by decide)) ?_
      | with_reducible refine keep_startUpdate _ (covers_sub hL (by decide)) ?_
      | with_reducible refine keep_switchAtEffect _ _ (covers_sub hL (by decide)) ?_
      | with_reducible refine only_onFin _ _ _ (fun _ => ?_) ?_
      | extract_lets
      | split
  rcases some_or e with rfl | e
  · repeat' first
      | with_reducible exact h
      | with_reducible assumption
      | with_reducible refine keep_abortUpdate _ (covers_sub hL (by decide)) ?_
      | with_reducible refine keep_clearRecorder _ (covers_sub hL (by decide)) ?_
      | with_reducible refine keep_codeRateEffect _ _ (covers_sub hL (by decide)) ?_
      | with_reducible refine keep_confirmUpdate (covers_sub hL (by decide)) ?_
      | with_reducible refine keep_gateListEffect _ _ _ (covers_sub hL (by decide)) ?_
      | with_reducible refine keep_keyCmdEffect _ (covers_sub hL (by decide)) ?_
      | with_reducible refine keep_macsecKey _ _ (covers_sub hL (by decide)) ?_
      | with_reducible refine keep_ownerReset (covers_sub hL (by decide)) ?_
      | with_reducible refine keep_peSerialEffect _ _ _ (covers_sub hL (by decide)) ?_
      | with_reducible refine keep_portModeEffect _ _ (covers_sub hL (by decide)) ?_
      | with_reducible refine keep_quoteEffect _ _ _ (covers_sub hL (by decide)) ?_
      | with_reducible refine keep_raiseEffect _ (covers_sub hL (by decide)) ?_
      | with_reducible refine keep_sbModeEffect _ _ (covers_sub hL (by decide)) ?_
      | with_reducible refine keep_secNumEffect _ _ (covers_sub hL (by decide)) ?_
      | with_reducible refine keep_startUpdate _ (covers_sub hL (by decide)) ?_
      | with_reducible refine keep_switchAtEffect _ _ (covers_sub hL (by decide)) ?_
      | with_reducible refine only_onFin _ _ _ (fun _ => ?_) ?_
      | extract_lets
      | split
  rcases some_or e with rfl | e
  · repeat' first
      | with_reducible exact h
      | with_reducible assumption
      | with_reducible refine keep_abortUpdate _ (covers_sub hL (by decide)) ?_
      | with_reducible refine keep_clearRecorder _ (covers_sub hL (by decide)) ?_
      | with_reducible refine keep_codeRateEffect _ _ (covers_sub hL (by decide)) ?_
      | with_reducible refine keep_confirmUpdate (covers_sub hL (by decide)) ?_
      | with_reducible refine keep_gateListEffect _ _ _ (covers_sub hL (by decide)) ?_
      | with_reducible refine keep_keyCmdEffect _ (covers_sub hL (by decide)) ?_
      | with_reducible refine keep_macsecKey _ _ (covers_sub hL (by decide)) ?_
      | with_reducible refine keep_ownerReset (covers_sub hL (by decide)) ?_
      | with_reducible refine keep_peSerialEffect _ _ _ (covers_sub hL (by decide)) ?_
      | with_reducible refine keep_portModeEffect _ _ (covers_sub hL (by decide)) ?_
      | with_reducible refine keep_quoteEffect _ _ _ (covers_sub hL (by decide)) ?_
      | with_reducible refine keep_raiseEffect _ (covers_sub hL (by decide)) ?_
      | with_reducible refine keep_sbModeEffect _ _ (covers_sub hL (by decide)) ?_
      | with_reducible refine keep_secNumEffect _ _ (covers_sub hL (by decide)) ?_
      | with_reducible refine keep_startUpdate _ (covers_sub hL (by decide)) ?_
      | with_reducible refine keep_switchAtEffect _ _ (covers_sub hL (by decide)) ?_
      | with_reducible refine only_onFin _ _ _ (fun _ => ?_) ?_
      | extract_lets
      | split
  rcases some_or e with rfl | e
  · repeat' first
      | with_reducible exact h
      | with_reducible assumption
      | with_reducible refine keep_abortUpdate _ (covers_sub hL (by decide)) ?_
      | with_reducible refine keep_clearRecorder _ (covers_sub hL (by decide)) ?_
      | with_reducible refine keep_codeRateEffect _ _ (covers_sub hL (by decide)) ?_
      | with_reducible refine keep_confirmUpdate (covers_sub hL (by decide)) ?_
      | with_reducible refine keep_gateListEffect _ _ _ (covers_sub hL (by decide)) ?_
      | with_reducible refine keep_keyCmdEffect _ (covers_sub hL (by decide)) ?_
      | with_reducible refine keep_macsecKey _ _ (covers_sub hL (by decide)) ?_
      | with_reducible refine keep_ownerReset (covers_sub hL (by decide)) ?_
      | with_reducible refine keep_peSerialEffect _ _ _ (covers_sub hL (by decide)) ?_
      | with_reducible refine keep_portModeEffect _ _ (covers_sub hL (by decide)) ?_
      | with_reducible refine keep_quoteEffect _ _ _ (covers_sub hL (by decide)) ?_
      | with_reducible refine keep_raiseEffect _ (covers_sub hL (by decide)) ?_
      | with_reducible refine keep_sbModeEffect _ _ (covers_sub hL (by decide)) ?_
      | with_reducible refine keep_secNumEffect _ _ (covers_sub hL (by decide)) ?_
      | with_reducible refine keep_startUpdate _ (covers_sub hL (by decide)) ?_
      | with_reducible refine keep_switchAtEffect _ _ (covers_sub hL (by decide)) ?_
      | with_reducible refine only_onFin _ _ _ (fun _ => ?_) ?_
      | extract_lets
      | split
  rcases some_or e with rfl | e
  · repeat' first
      | with_reducible exact h
      | with_reducible assumption
      | with_reducible refine keep_abortUpdate _ (covers_sub hL (by decide)) ?_
      | with_reducible refine keep_clearRecorder _ (covers_sub hL (by decide)) ?_
      | with_reducible refine keep_codeRateEffect _ _ (covers_sub hL (by decide)) ?_
      | with_reducible refine keep_confirmUpdate (covers_sub hL (by decide)) ?_
      | with_reducible refine keep_gateListEffect _ _ _ (covers_sub hL (by decide)) ?_
      | with_reducible refine keep_keyCmdEffect _ (covers_sub hL (by decide)) ?_
      | with_reducible refine keep_macsecKey _ _ (covers_sub hL (by decide)) ?_
      | with_reducible refine keep_ownerReset (covers_sub hL (by decide)) ?_
      | with_reducible refine keep_peSerialEffect _ _ _ (covers_sub hL (by decide)) ?_
      | with_reducible refine keep_portModeEffect _ _ (covers_sub hL (by decide)) ?_
      | with_reducible refine keep_quoteEffect _ _ _ (covers_sub hL (by decide)) ?_
      | with_reducible refine keep_raiseEffect _ (covers_sub hL (by decide)) ?_
      | with_reducible refine keep_sbModeEffect _ _ (covers_sub hL (by decide)) ?_
      | with_reducible refine keep_secNumEffect _ _ (covers_sub hL (by decide)) ?_
      | with_reducible refine keep_startUpdate _ (covers_sub hL (by decide)) ?_
      | with_reducible refine keep_switchAtEffect _ _ (covers_sub hL (by decide)) ?_
      | with_reducible refine only_onFin _ _ _ (fun _ => ?_) ?_
      | extract_lets
      | split
  rcases some_or e with rfl | e
  · repeat' first
      | with_reducible exact h
      | with_reducible assumption
      | with_reducible refine keep_abortUpdate _ (covers_sub hL (by decide)) ?_
      | with_reducible refine keep_clearRecorder _ (covers_sub hL (by decide)) ?_
      | with_reducible refine keep_codeRateEffect _ _ (covers_sub hL (by decide)) ?_
      | with_reducible refine keep_confirmUpdate (covers_sub hL (by decide)) ?_
      | with_reducible refine keep_gateListEffect _ _ _ (covers_sub hL (by decide)) ?_
      | with_reducible refine keep_keyCmdEffect _ (covers_sub hL (by decide)) ?_
      | with_reducible refine keep_macsecKey _ _ (covers_sub hL (by decide)) ?_
      | with_reducible refine keep_ownerReset (covers_sub hL (by decide)) ?_
      | with_reducible refine keep_peSerialEffect _ _ _ (covers_sub hL (by decide)) ?_
      | with_reducible refine keep_portModeEffect _ _ (covers_sub hL (by decide)) ?_
      | with_reducible refine keep_quoteEffect _ _ _ (covers_sub hL (by decide)) ?_
      | with_reducible refine keep_raiseEffect _ (covers_sub hL (by decide)) ?_
      | with_reducible refine keep_sbModeEffect _ _ (covers_sub hL (by decide)) ?_
      | with_reducible refine keep_secNumEffect _ _ (covers_sub hL (by decide)) ?_
      | with_reducible refine keep_startUpdate _ (covers_sub hL (by decide)) ?_
      | with_reducible refine keep_switchAtEffect _ _ (covers_sub hL (by decide)) ?_
      | with_reducible refine only_onFin _ _ _ (fun _ => ?_) ?_
      | extract_lets
      | split
  rcases some_or e with rfl | e
  · repeat' first
      | with_reducible exact h
      | with_reducible assumption
      | with_reducible refine keep_abortUpdate _ (covers_sub hL (by decide)) ?_
      | with_reducible refine keep_clearRecorder _ (covers_sub hL (by decide)) ?_
      | with_reducible refine keep_codeRateEffect _ _ (covers_sub hL (by decide)) ?_
      | with_reducible refine keep_confirmUpdate (covers_sub hL (by decide)) ?_
      | with_reducible refine keep_gateListEffect _ _ _ (covers_sub hL (by decide)) ?_
      | with_reducible refine keep_keyCmdEffect _ (covers_sub hL (by decide)) ?_
      | with_reducible refine keep_macsecKey _ _ (covers_sub hL (by decide)) ?_
      | with_reducible refine keep_ownerReset (covers_sub hL (by decide)) ?_
      | with_reducible refine keep_peSerialEffect _ _ _ (covers_sub hL (by decide)) ?_
      | with_reducible refine keep_portModeEffect _ _ (covers_sub hL (by decide)) ?_
      | with_reducible refine keep_quoteEffect _ _ _ (covers_sub hL (by decide)) ?_
      | with_reducible refine keep_raiseEffect _ (covers_sub hL (by decide)) ?_
      | with_reducible refine keep_sbModeEffect _ _ (covers_sub hL (by decide)) ?_
      | with_reducible refine keep_secNumEffect _ _ (covers_sub hL (by decide)) ?_
      | with_reducible refine keep_startUpdate _ (covers_sub hL (by decide)) ?_
      | with_reducible refine keep_switchAtEffect _ _ (covers_sub hL (by decide)) ?_
      | with_reducible refine only_onFin _ _ _ (fun _ => ?_) ?_
      | extract_lets
      | split
  rcases some_or e with rfl | e
  · repeat' first
      | with_reducible exact h
      | with_reducible assumption
      | with_reducible refine keep_abortUpdate _ (covers_sub hL (by decide)) ?_
      | with_reducible refine keep_clearRecorder _ (covers_sub hL (by decide)) ?_
      | with_reducible refine keep_codeRateEffect _ _ (covers_sub hL (by decide)) ?_
      | with_reducible refine keep_confirmUpdate (covers_sub hL (by decide)) ?_
      | with_reducible refine keep_gateListEffect _ _ _ (covers_sub hL (by decide)) ?_
      | with_reducible refine keep_keyCmdEffect _ (covers_sub hL (by decide)) ?_
      | with_reducible refine keep_macsecKey _ _ (covers_sub hL (by decide)) ?_
      | with_reducible refine keep_ownerReset (covers_sub hL (by decide)) ?_
      | with_reducible refine keep_peSerialEffect _ _ _ (covers_sub hL (by decide)) ?_
      | with_reducible refine keep_portModeEffect _ _ (covers_sub hL (by decide)) ?_
      | with_reducible refine keep_quoteEffect _ _ _ (covers_sub hL (by decide)) ?_
      | with_reducible refine keep_raiseEffect _ (covers_sub hL (by decide)) ?_
      | with_reducible refine keep_sbModeEffect _ _ (covers_sub hL (by decide)) ?_
      | with_reducible refine keep_secNumEffect _ _ (covers_sub hL (by decide)) ?_
      | with_reducible refine keep_startUpdate _ (covers_sub hL (by decide)) ?_
      | with_reducible refine keep_switchAtEffect _ _ (covers_sub hL (by decide)) ?_
      | with_reducible refine only_onFin _ _ _ (fun _ => ?_) ?_
      | extract_lets
      | split
  rcases some_or e with rfl | e
  · repeat' first
      | with_reducible exact h
      | with_reducible assumption
      | with_reducible refine keep_abortUpdate _ (covers_sub hL (by decide)) ?_
      | with_reducible refine keep_clearRecorder _ (covers_sub hL (by decide)) ?_
      | with_reducible refine keep_codeRateEffect _ _ (covers_sub hL (by decide)) ?_
      | with_reducible refine keep_confirmUpdate (covers_sub hL (by decide)) ?_
      | with_reducible refine keep_gateListEffect _ _ _ (covers_sub hL (by decide)) ?_
      | with_reducible refine keep_keyCmdEffect _ (covers_sub hL (by decide)) ?_
      | with_reducible refine keep_macsecKey _ _ (covers_sub hL (by decide)) ?_
      | with_reducible refine keep_ownerReset (covers_sub hL (by decide)) ?_
      | with_reducible refine keep_peSerialEffect _ _ _ (covers_sub hL (by decide)) ?_
      | with_reducible refine keep_portModeEffect _ _ (covers_sub hL (by decide)) ?_
      | with_reducible refine keep_quoteEffect _ _ _ (covers_sub hL (by decide)) ?_
      | with_reducible refine keep_raiseEffect _ (covers_sub hL (by decide)) ?_
      | with_reducible refine keep_sbModeEffect _ _ (covers_sub hL (by decide)) ?_
      | with_reducible refine keep_secNumEffect _ _ (covers_sub hL (by decide)) ?_
      | with_reducible refine keep_startUpdate _ (covers_sub hL (by decide)) ?_
      | with_reducible refine keep_switchAtEffect _ _ (covers_sub hL (by decide)) ?_
      | with_reducible refine only_onFin _ _ _ (fun _ => ?_) ?_
      | extract_lets
      | split
  rcases some_or e with rfl | e
  · repeat' first
      | with_reducible exact h
      | with_reducible assumption
      | with_reducible refine keep_abortUpdate _ (covers_sub hL (by decide)) ?_
      | with_reducible refine keep_clearRecorder _ (covers_sub hL (by decide)) ?_
      | with_reducible refine keep_codeRateEffect _ _ (covers_sub hL (by decide)) ?_
      | with_reducible refine keep_confirmUpdate (covers_sub hL (by decide)) ?_
      | with_reducible refine keep_gateListEffect _ _ _ (covers_sub hL (by decide)) ?_
      | with_reducible refine keep_keyCmdEffect _ (covers_sub hL (by decide)) ?_
      | with_reducible refine keep_macsecKey _ _ (covers_sub hL (by decide)) ?_
      | with_reducible refine keep_ownerReset (covers_sub hL (by decide)) ?_
      | with_reducible refine keep_peSerialEffect _ _ _ (covers_sub hL (by decide)) ?_
      | with_reducible refine keep_portModeEffect _ _ (covers_sub hL (by decide)) ?_
      | with_reducible refine keep_quoteEffect _ _ _ (covers_sub hL (by decide)) ?_
      | with_reducible refine keep_raiseEffect _ (covers_sub hL (by decide)) ?_
      | with_reducible refine keep_sbModeEffect _ _ (covers_sub hL (by decide)) ?_
      | with_reducible refine keep_secNumEffect _ _ (covers_sub hL (by decide)) ?_
      | with_reducible refine keep_startUpdate _ (covers_sub hL (by decide)) ?_
      | with_reducible refine keep_switchAtEffect _ _ (covers_sub hL (by decide)) ?_
      | with_reducible refine only_onFin _ _ _ (fun _ => ?_) ?_
      | extract_lets
      | split
  rcases some_or e with rfl | e
  · repeat' first
      | with_reducible exact h
      | with_reducible assumption
      | with_reducible refine keep_abortUpdate _ (covers_sub hL (by decide)) ?_
      | with_reducible refine keep_clearRecorder _ (covers_sub hL (by decide)) ?_
      | with_reducible refine keep_codeRateEffect _ _ (covers_sub hL (by decide)) ?_
      | with_reducible refine keep_confirmUpdate (covers_sub hL (by decide)) ?_
      | with_reducible refine keep_gateListEffect _ _ _ (covers_sub hL (by decide)) ?_
      | with_reducible refine keep_keyCmdEffect _ (covers_sub hL (by decide)) ?_
      | with_reducible refine keep_macsecKey _ _ (covers_sub hL (by decide)) ?_
      | with_reducible refine keep_ownerReset (covers_sub hL (by decide)) ?_
      | with_reducible refine keep_peSerialEffect _ _ _ (covers_sub hL (by decide)) ?_
      | with_reducible refine keep_portModeEffect _ _ (covers_sub hL (by decide)) ?_
      | with_reducible refine keep_quoteEffect _ _ _ (covers_sub hL (by decide)) ?_
      | with_reducible refine keep_raiseEffect _ (covers_sub hL (by decide)) ?_
      | with_reducible refine keep_sbModeEffect _ _ (covers_sub hL (by decide)) ?_
      | with_reducible refine keep_secNumEffect _ _ (covers_sub hL (by decide)) ?_
      | with_reducible refine keep_startUpdate _ (covers_sub hL (by decide)) ?_
      | with_reducible refine keep_switchAtEffect _ _ (covers_sub hL (by decide)) ?_
      | with_reducible refine only_onFin _ _ _ (fun _ => ?_) ?_
      | extract_lets
      | split
  rcases some_or e with rfl | e
  · repeat' first
      | with_reducible exact h
      | with_reducible assumption
      | with_reducible refine keep_abortUpdate _ (covers_sub hL (by decide)) ?_
      | with_reducible refine keep_clearRecorder _ (covers_sub hL (by decide)) ?_
      | with_reducible refine keep_codeRateEffect _ _ (covers_sub hL (by decide)) ?_
      | with_reducible refine keep_confirmUpdate (covers_sub hL (by decide)) ?_
      | with_reducible refine keep_gateListEffect _ _ _ (covers_sub hL (by decide)) ?_
      | with_reducible refine keep_keyCmdEffect _ (covers_sub hL (by decide)) ?_
      | with_reducible refine keep_macsecKey _ _ (covers_sub hL (by decide)) ?_
      | with_reducible refine keep_ownerReset (covers_sub hL (by decide)) ?_
      | with_reducible refine keep_peSerialEffect _ _ _ (covers_sub hL (by decide)) ?_
      | with_reducible refine keep_portModeEffect _ _ (covers_sub hL (by decide)) ?_
      | with_reducible refine keep_quoteEffect _ _ _ (covers_sub hL (by decide)) ?_
      | with_reducible refine keep_raiseEffect _ (covers_sub hL (by decide)) ?_
      | with_reducible refine keep_sbModeEffect _ _ (covers_sub hL (by decide)) ?_
      | with_reducible refine keep_secNumEffect _ _ (covers_sub hL (by decide)) ?_
      | with_reducible refine keep_startUpdate _ (covers_sub hL (by decide)) ?_
      | with_reducible refine keep_switchAtEffect _ _ (covers_sub hL (by decide)) ?_
      | with_reducible refine only_onFin _ _ _ (fun _ => ?_) ?_
      | extract_lets
      | split
  rcases some_or e with rfl | e
  · repeat' first
      | with_reducible exact h
      | with_reducible assumption
      | with_reducible refine keep_abortUpdate _ (covers_sub hL (by decide)) ?_
      | with_reducible refine keep_clearRecorder _ (covers_sub hL (by decide)) ?_
      | with_reducible refine keep_codeRateEffect _ _ (covers_sub hL (by decide)) ?_
      | with_reducible refine keep_confirmUpdate (covers_sub hL (by decide)) ?_
      | with_reducible refine keep_gateListEffect _ _ _ (covers_sub hL (by decide)) ?_
      | with_reducible refine keep_keyCmdEffect _ (covers_sub hL (by decide)) ?_
      | with_reducible refine keep_macsecKey _ _ (covers_sub hL (by decide)) ?_
      | with_reducible refine keep_ownerReset (covers_sub hL (by decide)) ?_
      | with_reducible refine keep_peSerialEffect _ _ _ (covers_sub hL (by decide)) ?_
      | with_reducible refine keep_portModeEffect _ _ (covers_sub hL (by decide)) ?_
      | with_reducible refine keep_quoteEffect _ _ _ (covers_sub hL (by decide)) ?_
      | with_reducible refine keep_raiseEffect _ (covers_sub hL (by decide)) ?_
      | with_reducible refine keep_sbModeEffect _ _ (covers_sub hL (by decide)) ?_
      | with_reducible refine keep_secNumEffect _ _ (covers_sub hL (by decide)) ?_
      | with_reducible refine keep_startUpdate _ (covers_sub hL (by decide)) ?_
      | with_reducible refine keep_switchAtEffect _ _ (covers_sub hL (by decide)) ?_
      | with_reducible refine only_onFin _ _ _ (fun _ => ?_) ?_
      | extract_lets
      | split
  cases e

theorem keep_writeEffect {L : List Area} {u0 : State} (au : Auth) (sess : Nat) (key : Nat) (v : Value) (kept : Bool) (c : Count) {s : State} (hL : Covers [.nums, .blobs, .clk, .pow, .br, .sq, .acc, .heat, .cool, .part, .ev, .nut, .rep, .oda, .port, .eng, .img, .ani, .mem, .bar, .cardamom, .free] L) (h : Only L u0 s) :
    Only L u0 (writeEffect au sess key v kept c s) := by
  unfold writeEffect
  repeat' first
    | with_reducible exact h
    | with_reducible assumption
    | extract_lets
    | with_reducible refine keep_engineWrite_eq (by assumption) (covers_sub hL (by decide)) ?_
    | with_reducible refine keep_ryeWrite_eq (by assumption) (covers_sub hL (by decide)) ?_
    | with_reducible refine keep_sideWrite_eq (by assumption) (covers_sub hL (by decide)) ?_
    | with_reducible refine keep_storeValue _ _ (covers_sub hL (by decide)) ?_
    | split

end Sys2Proof.Laws
end

