-- ==== Sys2Proof/Laws/FrameOda.lean ====
section
/-! SUPPORT. What the operations of Machine/Oda.lean may change: an operation keeps a frame that allows the parts it lists. -/
namespace Sys2Proof.Laws

open Sys2Proof.Machine

theorem keep_answerBare {L : List Area} {u0 : State} (a : Answer) {s : State} (hL : Covers [.oda] L) (h : Only L u0 s) :
    Only L u0 (answerBare a s) := by
  unfold answerBare
  repeat' first
    | with_reducible exact h
    | with_reducible assumption
    | extract_lets
    | with_reducible refine keep_setOda _ (covers_sub hL (by decide)) ?_

theorem keep_request {L : List Area} {u0 : State} (n txn op steps : Nat) (body : ReqBody) (formOk recorded inLedger : Bool)
    (go : Pending → State → State) {s : State} (hg : ∀ p u, Only L u0 u → Only L u0 (go p u)) (hL : Covers [.nums, .ev, .nut, .oda, .port] L)
    (h : Only L u0 s) : Only L u0 (request n txn op steps body formOk recorded inLedger go s) := by
  unfold request
  repeat' first
    | with_reducible exact h
    | with_reducible assumption
    | extract_lets
    | with_reducible refine hg _ _ ?_
    | with_reducible refine keep_touch _ (covers_sub hL (by decide)) ?_
    | with_reducible refine keep_answerBare _ (covers_sub hL (by decide)) ?_
    | with_reducible refine keep_respond _ _ (covers_sub hL (by decide)) ?_
    | with_reducible refine keep_inc32 _ (covers_sub hL (by decide)) ?_
    | with_reducible refine keep_beginTxn _ _ _ _ _ _ (covers_sub hL (by decide)) ?_
    | with_reducible refine keep_setOda _ (covers_sub hL (by decide)) ?_
    | split
    | dsimp -zeta +zetaDelta only

theorem keep_readGo {L : List Area} {u0 : State} (key : Nat) (ty : Nat) (p : Pending) {s : State} (hL : Covers [.ev, .nut, .oda, .port, .mem, .bar, .free] L) (h : Only L u0 s) :
    Only L u0 (readGo key ty p s) := by
  unfold readGo
  repeat' first
    | with_reducible exact h
    | with_reducible assumption
    | extract_lets
    | with_reducible refine keep_finish _ _ (covers_sub hL (by decide)) ?_
    | with_reducible refine keep_passFront _ (covers_sub hL (by decide)) ?_
    | split
    | with_reducible refine only_ite (fun _ => ?_) (fun _ => ?_)
    | dsimp -zeta +zetaDelta only

theorem keep_describeGo {L : List Area} {u0 : State} (key : Nat) (ty : Nat) (p : Pending) {s : State} (hL : Covers [.ev, .nut, .oda, .port] L) (h : Only L u0 s) :
    Only L u0 (describeGo key ty p s) := by
  unfold describeGo
  repeat' first
    | with_reducible exact h
    | with_reducible assumption
    | extract_lets
    | with_reducible refine keep_finish _ _ (covers_sub hL (by decide)) ?_
    | split
    | with_reducible refine only_ite (fun _ => ?_) (fun _ => ?_)

theorem keep_bareRequest {L : List Area} {u0 : State} (txn : Nat) (go : State → State) {s : State}
    (hg : ∀ u, Only L u0 u → Only L u0 (go u)) (hL : Covers [.nums, .oda] L) (h : Only L u0 s) : Only L u0 (bareRequest txn go s) := by
  unfold bareRequest
  split
  · exact keep_answerBare _ (covers_sub hL (by decide)) (keep_inc32 _ (covers_sub hL (by decide)) h)
  · exact hg _ h

theorem keep_multiGo {L : List Area} {u0 : State} (items : List (Nat × Nat)) (p : Pending) {s : State} (hL : Covers [.ev, .nut, .oda, .port, .mem, .bar, .free] L) (h : Only L u0 s) :
    Only L u0 (multiGo items p s) := by
  unfold multiGo
  repeat' first
    | with_reducible exact h
    | with_reducible assumption
    | extract_lets
    | with_reducible refine keep_runItems _ _ (covers_sub hL (by decide)) ?_
    | dsimp -zeta +zetaDelta only

theorem keep_stepRefused {L : List Area} {u0 : State} (s0 : State) (au : Auth) (key : Nat) (v : Value) (code : Nat) {s : State} (hL : Covers [.ev, .nut, .eng] L) (h : Only L u0 s) :
    Only L u0 (stepRefused s0 au key v code s) := by
  unfold stepRefused
  repeat' first
    | with_reducible exact h
    | with_reducible assumption
    | extract_lets
    | with_reducible refine keep_raiseMain _ _ _ (covers_sub hL (by decide)) ?_
    | with_reducible refine keep_updSess _ _ (covers_sub hL (by decide)) ?_
    | split
    | with_reducible refine only_ite (fun _ => ?_) (fun _ => ?_)
    | dsimp -zeta +zetaDelta only

theorem keep_keptFor {L : List Area} {u0 : State} (key : Nat) {s : State} (hL : Covers [.free] L) (h : Only L u0 s) :
    Only L u0 (keptFor key s).2 := by
  unfold keptFor
  repeat' first
    | with_reducible exact h
    | with_reducible assumption
    | extract_lets
    | with_reducible refine keep_takeFree _ (covers_sub hL (by decide)) ?_
    | with_reducible refine keep_takeFree_eq (by assumption) (covers_sub hL (by decide)) ?_
    | split
    | with_reducible refine only_ite (fun _ => ?_) (fun _ => ?_)
    | dsimp -zeta only

theorem keep_keptFor_eq {L : List Area} {u0 : State} {key : Nat} {s : State} {r : _} {t : State} (e : keptFor key s = (r, t)) (hL : Covers [.free] L) (h : Only L u0 s) :
    Only L u0 t := by
  have k := keep_keptFor key hL h
  rw [e] at k
  exact k

theorem keep_applyStep {L : List Area} {u0 : State} (p : Pending) (key : Nat) (v : Value) {s : State} (hL : Covers [.nums, .blobs, .clk, .pow, .br, .sq, .acc, .heat, .cool, .part, .ev, .nut, .rep, .oda, .port, .eng, .img, .ani, .mem, .bar, .cardamom, .free] L) (h : Only L u0 s) :
    Only L u0 (applyStep p key v s).2 := by
  unfold applyStep
  repeat' first
    | with_reducible exact h
    | with_reducible assumption
    | extract_lets
    | with_reducible refine keep_countStep _ _ _ (covers_sub hL (by decide)) ?_
    | with_reducible refine keep_keptFor _ (covers_sub hL (by decide)) ?_
    | with_reducible refine keep_keptFor_eq (by assumption) (covers_sub hL (by decide)) ?_
    | with_reducible refine keep_noteDegraded (covers_sub hL (by decide)) ?_
    | with_reducible refine keep_writeEffect _ _ _ _ _ _ (covers_sub hL (by decide)) ?_
    | with_reducible refine keep_mk_clk _ (covers_sub hL (by decide)) ?_
    | exact only_upd (by assumption) (fun a ha => by cases a <;> first | exact absurd (hL _ (by decide)) ha | rfl)
    | dsimp -zeta only
    | dsimp -zeta +zetaDelta only

theorem keep_applyStep_eq {L : List Area} {u0 : State} {p : Pending} {key : Nat} {v : Value} {s : State} {r : _} {t : State} (e : applyStep p key v s = (r, t)) (hL : Covers [.nums, .blobs, .clk, .pow, .br, .sq, .acc, .heat, .cool, .part, .ev, .nut, .rep, .oda, .port, .eng, .img, .ani, .mem, .bar, .cardamom, .free] L) (h : Only L u0 s) :
    Only L u0 t := by
  have k := keep_applyStep p key v hL h
  rw [e] at k
  exact k

theorem keep_runSteps {L : List Area} {u0 : State} (p : Pending) (l : List (Nat × Nat × Value)) {s : State}
    (hL : Covers [.nums, .blobs, .clk, .pow, .br, .sq, .acc, .heat, .cool, .part, .ev, .nut, .rep, .oda, .port, .eng, .img, .ani, .mem, .bar, .cardamom, .free] L) (h : Only L u0 s) : Only L u0 (runSteps p l s) := by
  induction l generalizing p s with
  | nil => exact keep_finish _ _ (covers_sub hL (by decide)) h
  | cons x t ih =>
    obtain ⟨key, ty, v⟩ := x
    simp only [runSteps]
    have k := keep_applyStep p key v (covers_sub hL (by decide)) h
    repeat' first
      | with_reducible exact h
      | with_reducible exact k
      | with_reducible exact ih _ k
      | with_reducible refine keep_finish _ _ (covers_sub hL (by decide)) ?_
      | with_reducible refine keep_passFront _ (covers_sub hL (by decide)) ?_
      | with_reducible refine keep_stepRefused _ _ _ _ _ (covers_sub hL (by decide)) ?_
      | with_reducible refine keep_park _ (covers_sub hL (by decide)) ?_
      | split

theorem keep_advanceOne {L : List Area} {u0 : State} (p : Pending) {s : State} (hL : Covers [.nums, .blobs, .clk, .pow, .br, .sq, .acc, .heat, .cool, .part, .ev, .nut, .rep, .oda, .port, .eng, .img, .ani, .mem, .bar, .cardamom, .free] L) (h : Only L u0 s) :
    Only L u0 (advanceOne p s) := by
  unfold advanceOne
  repeat' first
    | with_reducible exact h
    | with_reducible assumption
    | extract_lets
    | with_reducible refine keep_runSteps _ _ (covers_sub hL (by decide)) ?_
    | with_reducible refine keep_unpark _ (covers_sub hL (by decide)) ?_
    | split
    | with_reducible refine only_ite (fun _ => ?_) (fun _ => ?_)

theorem keep_goOn {L : List Area} {u0 : State} {s : State} (hL : Covers [.nums, .blobs, .clk, .pow, .br, .sq, .acc, .heat, .cool, .part, .ev, .nut, .rep, .oda, .port, .eng, .img, .ani, .mem, .bar, .cardamom, .free] L) (h : Only L u0 s) :
    Only L u0 (goOn s) := by
  unfold goOn
  repeat' first
    | with_reducible exact h
    | with_reducible assumption
    | extract_lets
    | with_reducible refine keep_advanceOne _ (covers_sub hL (by decide)) ?_
    | with_reducible refine only_forEach _ _ (fun _ _ _ => ?_) ?_

theorem keep_landEffect {L : List Area} {u0 : State} (p : Pending) (key : Nat) (v : Value) (c : Count) {s : State} (hL : Covers [.nums, .blobs, .clk, .pow, .br, .sq, .acc, .heat, .cool, .part, .ev, .nut, .rep, .oda, .port, .eng, .img, .ani, .mem, .bar, .cardamom, .free] L) (h : Only L u0 s) :
    Only L u0 (landEffect p key v c s) := by
  unfold landEffect
  repeat' first
    | with_reducible exact h
    | with_reducible assumption
    | extract_lets
    | with_reducible refine keep_ryeWrite_eq (by assumption) (covers_sub hL (by decide)) ?_
    | with_reducible refine keep_storeValue _ _ (covers_sub hL (by decide)) ?_
    | with_reducible refine keep_writeEffect _ _ _ _ _ _ (covers_sub hL (by decide)) ?_
    | split
    | with_reducible refine only_ite (fun _ => ?_) (fun _ => ?_)

theorem keep_land {L : List Area} {u0 : State} (ok : Bool) (p : Pending) {s : State} (hL : Covers [.nums, .blobs, .clk, .pow, .br, .sq, .acc, .heat, .cool, .part, .ev, .nut, .rep, .oda, .port, .eng, .img, .ani, .mem, .bar, .cardamom, .free] L) (h : Only L u0 s) :
    Only L u0 (land ok p s) := by
  unfold land
  repeat' first
    | with_reducible exact h
    | with_reducible assumption
    | extract_lets
    | with_reducible refine keep_countStep _ _ _ (covers_sub hL (by decide)) ?_
    | with_reducible refine keep_interruptTxn _ _ (covers_sub hL (by decide)) ?_
    | with_reducible refine keep_landEffect _ _ _ _ (covers_sub hL (by decide)) ?_
    | with_reducible refine keep_noteDegraded (covers_sub hL (by decide)) ?_
    | with_reducible refine keep_setOda _ (covers_sub hL (by decide)) ?_
    | split
    | with_reducible refine only_ite (fun _ => ?_) (fun _ => ?_)
    | with_reducible refine keep_mk_clk _ (covers_sub hL (by decide)) ?_
    | exact only_upd (by assumption) (fun a ha => by cases a <;> first | exact absurd (hL _ (by decide)) ha | rfl)
    | dsimp -zeta +zetaDelta only

theorem keep_idle {L : List Area} {u0 : State} {s : State} (hL : Covers [.nums, .blobs, .clk, .pow, .br, .sq, .acc, .heat, .cool, .part, .ev, .nut, .rep, .oda, .port, .eng, .img, .ani, .mem, .bar, .cardamom, .free] L) (h : Only L u0 s) :
    Only L u0 (idle s) := by
  unfold idle
  repeat' first
    | with_reducible exact h
    | with_reducible assumption
    | extract_lets
    | with_reducible refine keep_fabricCycle (covers_sub hL (by decide)) ?_
    | with_reducible refine keep_goOn (covers_sub hL (by decide)) ?_
    | split
    | with_reducible refine only_ite (fun _ => ?_) (fun _ => ?_)

theorem keep_journal {L : List Area} {u0 : State} (key : Nat) (v : Value) (c : Count) {s : State} (hL : Covers [.bar] L) (h : Only L u0 s) :
    Only L u0 (journal key v c s) := by
  unfold journal
  repeat' first
    | with_reducible exact h
    | with_reducible assumption
    | extract_lets
    | with_reducible refine keep_setBar _ (covers_sub hL (by decide)) ?_
    | split
    | with_reducible refine only_ite (fun _ => ?_) (fun _ => ?_)

theorem keep_openBlock {L : List Area} {u0 : State} (n : Nat) (key : Nat) (write : Bool) (total : Nat) (snap : List Byte) {s : State} (hL : Covers [.oda] L) (h : Only L u0 s) :
    Only L u0 (openBlock n key write total snap s).2 := by
  unfold openBlock
  repeat' first
    | with_reducible exact h
    | with_reducible assumption
    | extract_lets
    | with_reducible refine keep_setOda _ (covers_sub hL (by decide)) ?_
    | with_reducible refine keep_updSession _ _ (covers_sub hL (by decide)) ?_
    | dsimp -zeta only
    | dsimp -zeta +zetaDelta only

theorem keep_openBlock_eq {L : List Area} {u0 : State} {n : Nat} {key : Nat} {write : Bool} {total : Nat} {snap : List Byte} {s : State} {r : _} {t : State} (e : openBlock n key write total snap s = (r, t)) (hL : Covers [.oda] L) (h : Only L u0 s) :
    Only L u0 t := by
  have k := keep_openBlock n key write total snap hL h
  rw [e] at k
  exact k

theorem keep_startRead {L : List Area} {u0 : State} (key : Nat) (bs : List Byte) (p : Pending) {s : State} (hL : Covers [.ev, .nut, .oda, .port] L) (h : Only L u0 s) :
    Only L u0 (startRead key bs p s) := by
  unfold startRead
  repeat' first
    | with_reducible exact h
    | with_reducible assumption
    | extract_lets
    | with_reducible refine keep_finish _ _ (covers_sub hL (by decide)) ?_
    | with_reducible refine keep_openBlock _ _ _ _ _ (covers_sub hL (by decide)) ?_
    | with_reducible refine keep_openBlock_eq (by assumption) (covers_sub hL (by decide)) ?_
    | split
    | with_reducible refine only_ite (fun _ => ?_) (fun _ => ?_)
    | dsimp -zeta +zetaDelta only

theorem keep_updSub {L : List Area} {u0 : State} (n : Nat) (k : Nat) (f : Subscr → Subscr) {s : State} (hL : Covers [.oda] L) (h : Only L u0 s) :
    Only L u0 (updSub n k f s) := by
  unfold updSub
  repeat' first
    | with_reducible exact h
    | with_reducible assumption
    | extract_lets
    | with_reducible refine keep_updSession _ _ (covers_sub hL (by decide)) ?_
    | split

theorem keep_subscribeGo {L : List Area} {u0 : State} (sub : Nat) (kind : Nat) (period : Nat) (items : List (Nat × Nat)) (p : Pending) {s : State} (hL : Covers [.clk, .ev, .nut, .oda, .port] L) (h : Only L u0 s) :
    Only L u0 (subscribeGo sub kind period items p s) := by
  unfold subscribeGo
  repeat' first
    | with_reducible exact h
    | with_reducible assumption
    | extract_lets
    | with_reducible refine keep_countStep _ _ _ (covers_sub hL (by decide)) ?_
    | with_reducible refine keep_finish _ _ (covers_sub hL (by decide)) ?_
    | with_reducible refine keep_updSession _ _ (covers_sub hL (by decide)) ?_
    | split
    | with_reducible refine only_ite (fun _ => ?_) (fun _ => ?_)
    | with_reducible refine keep_mk_clk _ (covers_sub hL (by decide)) ?_
    | exact only_upd (by assumption) (fun a ha => by cases a <;> first | exact absurd (hL _ (by decide)) ha | rfl)
    | dsimp -zeta +zetaDelta only

theorem keep_notify {L : List Area} {u0 : State} (n : Nat) (k : Nat) (beacon : Bool) (m : Msg) {s : State} (hL : Covers [.nums, .ev, .nut, .oda, .port] L) (h : Only L u0 s) :
    Only L u0 (notify n k beacon m s) := by
  unfold notify
  repeat' first
    | with_reducible exact h
    | with_reducible assumption
    | extract_lets
    | with_reducible refine keep_inc32 _ (covers_sub hL (by decide)) ?_
    | with_reducible refine keep_sendBeacon _ _ (covers_sub hL (by decide)) ?_
    | with_reducible refine keep_sendSession _ _ _ (covers_sub hL (by decide)) ?_
    | with_reducible refine keep_updSub _ _ _ (covers_sub hL (by decide)) ?_
    | split
    | with_reducible refine only_ite (fun _ => ?_) (fun _ => ?_)
    | dsimp -zeta +zetaDelta only

theorem keep_sendHeld {L : List Area} {u0 : State} (n : Nat) (k : Nat) (beacon : Bool) {s : State} (hL : Covers [.nums, .ev, .nut, .oda, .port] L) (h : Only L u0 s) :
    Only L u0 (sendHeld n k beacon s) := by
  unfold sendHeld
  repeat' first
    | with_reducible exact h
    | with_reducible assumption
    | extract_lets
    | with_reducible refine keep_notify _ _ _ _ (covers_sub hL (by decide)) ?_
    | with_reducible refine keep_updSub _ _ _ (covers_sub hL (by decide)) ?_
    | split
    | with_reducible refine only_ite (fun _ => ?_) (fun _ => ?_)

theorem keep_deliverRec {L : List Area} {u0 : State} (r : EvRec) (n : Nat) (k : Nat) {s : State} (hL : Covers [.nums, .ev, .nut, .oda, .port] L) (h : Only L u0 s) :
    Only L u0 (deliverRec r n k s) := by
  unfold deliverRec
  repeat' first
    | with_reducible exact h
    | with_reducible assumption
    | extract_lets
    | with_reducible refine keep_sendHeld _ _ _ (covers_sub hL (by decide)) ?_
    | with_reducible refine keep_updSub _ _ _ (covers_sub hL (by decide)) ?_
    | split
    | with_reducible refine only_ite (fun _ => ?_) (fun _ => ?_)
    | dsimp -zeta +zetaDelta only

theorem keep_fence {L : List Area} {u0 : State} (place : Nat) (txn : Nat) {s : State} (hL : Covers [.oda] L) (h : Only L u0 s) :
    Only L u0 (fence place txn s) := by
  unfold fence
  repeat' first
    | with_reducible exact h
    | with_reducible assumption
    | extract_lets
    | with_reducible refine keep_updPeer _ _ (covers_sub hL (by decide)) ?_
    | split
    | with_reducible refine only_ite (fun _ => ?_) (fun _ => ?_)
    | dsimp -zeta +zetaDelta only

theorem keep_queryGo {L : List Area} {u0 : State} (peer : List Byte) (txns : List Nat) (p : Pending) {s : State} (hL : Covers [.ev, .nut, .oda, .port] L) (h : Only L u0 s) :
    Only L u0 (queryGo peer txns p s) := by
  unfold queryGo
  extract_lets own place other
  clear_value other place
  repeat' first
    | with_reducible exact h
    | with_reducible assumption
    | extract_lets
    | with_reducible refine keep_finish _ _ (covers_sub hL (by decide)) ?_
    | with_reducible refine only_forEach _ _ (fun _ _ _ => ?_) ?_
    | with_reducible refine keep_fence _ _ (covers_sub hL (by decide)) ?_
    | split

end Sys2Proof.Laws
end

