-- ==== Sys2Proof/Laws/FrameBlock.lean ====
section
/-! SUPPORT. What the operations of Machine/Block.lean may change: an operation keeps a frame that allows the parts it lists. -/
namespace Sys2Proof.Laws

open Sys2Proof.Machine

theorem keep_readStartGo {L : List Area} {u0 : State} (key : Nat) (ty : Nat) (sel : Nat) (p : Pending) {s : State} (hL : Covers [.ev, .nut, .oda, .port, .mem, .bar, .free] L) (h : Only L u0 s) :
    Only L u0 (readStartGo key ty sel p s) := by
  unfold readStartGo
  repeat' first
    | with_reducible exact h
    | with_reducible assumption
    | extract_lets
    | with_reducible refine keep_finish _ _ (covers_sub hL (by decide)) ?_
    | with_reducible refine keep_passFront _ (covers_sub hL (by decide)) ?_
    | with_reducible refine keep_startRead _ _ _ (covers_sub hL (by decide)) ?_
    | split
    | with_reducible refine only_ite (fun _ => ?_) (fun _ => ?_)

theorem keep_touchBlock {L : List Area} {u0 : State} (n : Nat) (blk : Nat) {s : State} (hL : Covers [.oda] L) (h : Only L u0 s) :
    Only L u0 (touchBlock n blk s) := by
  unfold touchBlock
  repeat' first
    | with_reducible exact h
    | with_reducible assumption
    | extract_lets
    | with_reducible refine keep_updSession _ _ (covers_sub hL (by decide)) ?_
    | split

theorem keep_endBlock {L : List Area} {u0 : State} (n : Nat) (blk : Nat) {s : State} (hL : Covers [.oda, .eng] L) (h : Only L u0 s) :
    Only L u0 (endBlock n blk s) := by
  unfold endBlock
  repeat' first
    | with_reducible exact h
    | with_reducible assumption
    | extract_lets
    | with_reducible refine keep_setEng _ (covers_sub hL (by decide)) ?_
    | with_reducible refine keep_updSession _ _ (covers_sub hL (by decide)) ?_

theorem keep_readSegGo {L : List Area} {u0 : State} (blk : Nat) (offset : Nat) (len : Nat) (p : Pending) {s : State} (hL : Covers [.ev, .nut, .oda, .port, .eng] L) (h : Only L u0 s) :
    Only L u0 (readSegGo blk offset len p s) := by
  unfold readSegGo
  repeat' first
    | with_reducible exact h
    | with_reducible assumption
    | extract_lets
    | with_reducible refine keep_endBlock _ _ (covers_sub hL (by decide)) ?_
    | with_reducible refine keep_finish _ _ (covers_sub hL (by decide)) ?_
    | with_reducible refine keep_respondAs _ _ _ (covers_sub hL (by decide)) ?_
    | with_reducible refine keep_touchBlock _ _ (covers_sub hL (by decide)) ?_
    | split
    | with_reducible refine only_ite (fun _ => ?_) (fun _ => ?_)
    | dsimp -zeta +zetaDelta only

theorem keep_writeStartGo {L : List Area} {u0 : State} (key : Nat) (ty : Nat) (total : Nat) (p : Pending) {s : State} (hL : Covers [.ev, .nut, .oda, .port] L) (h : Only L u0 s) :
    Only L u0 (writeStartGo key ty total p s) := by
  unfold writeStartGo
  repeat' first
    | with_reducible exact h
    | with_reducible assumption
    | extract_lets
    | with_reducible refine keep_finish _ _ (covers_sub hL (by decide)) ?_
    | with_reducible refine keep_openBlock _ _ _ _ _ (covers_sub hL (by decide)) ?_
    | with_reducible refine keep_openBlock_eq (by assumption) (covers_sub hL (by decide)) ?_
    | split
    | with_reducible refine only_ite (fun _ => ?_) (fun _ => ?_)
    | dsimp -zeta +zetaDelta only

theorem keep_writeSegGo {L : List Area} {u0 : State} (blk : Nat) (offset : Nat) (data : List Byte) (p : Pending) {s : State} (hL : Covers [.ev, .nut, .oda, .port] L) (h : Only L u0 s) :
    Only L u0 (writeSegGo blk offset data p s) := by
  unfold writeSegGo
  repeat' first
    | with_reducible exact h
    | with_reducible assumption
    | extract_lets
    | with_reducible refine keep_finish _ _ (covers_sub hL (by decide)) ?_
    | with_reducible refine keep_touchBlock _ _ (covers_sub hL (by decide)) ?_
    | with_reducible refine keep_updSession _ _ (covers_sub hL (by decide)) ?_
    | split
    | with_reducible refine only_ite (fun _ => ?_) (fun _ => ?_)

set_option tactic.hygienic false in
theorem keep_writeEndGo {L : List Area} {u0 : State} (blk : Nat) (crc : Nat) (p : Pending) {s : State} (hL : Covers [.nums, .blobs, .clk, .pow, .br, .sq, .acc, .heat, .cool, .part, .ev, .nut, .rep, .oda, .port, .eng, .img, .ani, .mem, .bar, .cardamom, .free] L) (h : Only L u0 s) :
    Only L u0 (writeEndGo blk crc p s) := by
  unfold writeEndGo
  repeat' first
    | with_reducible exact h
    | with_reducible assumption
    | extract_lets
    | with_reducible refine keep_endBlock _ _ (covers_sub hL (by decide)) ?_
    | with_reducible refine keep_finish _ _ (covers_sub hL (by decide)) ?_
    | with_reducible refine keep_runSteps _ _ (covers_sub hL (by decide)) ?_
    | split
    | with_reducible refine only_ite (fun _ => ?_) (fun _ => ?_)
    | dsimp -zeta +zetaDelta only

theorem keep_closeGo {L : List Area} {u0 : State} (blk : Nat) (p : Pending) {s : State} (hL : Covers [.ev, .nut, .oda, .port, .eng] L) (h : Only L u0 s) :
    Only L u0 (closeGo blk p s) := by
  unfold closeGo
  repeat' first
    | with_reducible exact h
    | with_reducible assumption
    | extract_lets
    | with_reducible refine keep_endBlock _ _ (covers_sub hL (by decide)) ?_
    | with_reducible refine keep_finish _ _ (covers_sub hL (by decide)) ?_
    | split

end Sys2Proof.Laws
end

