-- ==== Sys2Proof/Laws/Maps.lean ====
section
/-! SUPPORT. The sparse maps: what a read gives after a write, and that every operation keeps the keys strictly rising and
lists no entry that reads as an unlisted one. -/
namespace Sys2Proof.Machine

open Sys2Proof

/-- Every key of the map is above k. -/
def Above {α : Type} (k : Nat) (m : Map α) : Prop := ∀ p ∈ m, k < p.1

theorem sorted_cons {α : Type} (k : Nat) (v : α) (m : Map α) : Sorted ((k, v) :: m) = true ↔ Above k m ∧ Sorted m = true := by
  induction m generalizing k v with
  | nil => simp [Sorted, Above]
  | cons p t ih =>
    obtain ⟨k', v'⟩ := p
    constructor
    · intro h
      have hk : k < k' ∧ Sorted ((k', v') :: t) = true := by simpa [Sorted] using h
      refine ⟨?_, hk.2⟩
      intro q hq
      rcases List.mem_cons.mp hq with rfl | hq
      · exact hk.1
      · exact Nat.lt_trans hk.1 (((ih k' v').mp hk.2).1 q hq)
    · rintro ⟨ha, hs⟩
      have : k < k' := ha (k', v') (by simp)
      simp [Sorted, this, hs]

theorem look_put_same {α : Type} (m : Map α) (k : Nat) (v : α) : look (put m k v) k = some v := by
  induction m with
  | nil => simp [put, look]
  | cons p t ih =>
    obtain ⟨k', v'⟩ := p
    unfold put
    split
    · simp [look]
    · split
      · simp [look]
      · rename_i h1 h2
        have : k' ≠ k := fun e => h2 e.symm
        simp [look, this, ih]

theorem look_put_other {α : Type} (m : Map α) (k j : Nat) (v : α) (h : k ≠ j) : look (put m k v) j = look m j := by
  induction m with
  | nil => simp [put, look, h]
  | cons p t ih =>
    obtain ⟨k', v'⟩ := p
    unfold put
    split
    · simp [look, h]
    · split
      · rename_i h1 h2
        subst h2
        simp [look, h]
      · simp [look, ih]

theorem look_del_same {α : Type} (m : Map α) (k : Nat) : look (del m k) k = none := by
  induction m with
  | nil => rfl
  | cons p t ih =>
    obtain ⟨k', v'⟩ := p
    unfold del
    split
    · exact ih
    · rename_i h
      simp [look, h, ih]

theorem look_del_other {α : Type} (m : Map α) (k j : Nat) (h : k ≠ j) : look (del m k) j = look m j := by
  induction m with
  | nil => rfl
  | cons p t ih =>
    obtain ⟨k', v'⟩ := p
    unfold del
    split
    · rename_i e
      subst e
      simp [look, h, ih]
    · simp [look, ih]

@[simp] theorem lookD_putD_same {α : Type} [DecidableEq α] (m : Map α) (k : Nat) (v d : α) : lookD (putD m k v d) k d = v := by
  unfold lookD putD
  split
  · rename_i h
    simp [look_del_same, h]
  · simp [look_put_same]

theorem look_putD_other {α : Type} [DecidableEq α] (m : Map α) (k j : Nat) (v d : α) (h : k ≠ j) :
    look (putD m k v d) j = look m j := by
  unfold putD
  split
  · exact look_del_other m k j h
  · exact look_put_other m k j v h

theorem lookD_putD_other {α : Type} [DecidableEq α] (m : Map α) (k j : Nat) (v d e : α) (h : k ≠ j) :
    lookD (putD m k v d) j e = lookD m j e := by
  unfold lookD
  rw [look_putD_other m k j v d h]

theorem mem_put {α : Type} (m : Map α) (k : Nat) (v : α) (p : Nat × α) (h : p ∈ put m k v) : p = (k, v) ∨ p ∈ m := by
  induction m with
  | nil => exact .inl (by simpa [put] using h)
  | cons q t ih =>
    obtain ⟨k', v'⟩ := q
    unfold put at h
    split at h
    · rcases List.mem_cons.mp h with h | h
      · exact .inl h
      · exact .inr h
    · split at h
      · rcases List.mem_cons.mp h with h | h
        · exact .inl h
        · exact .inr (List.mem_cons_of_mem _ h)
      · rcases List.mem_cons.mp h with h | h
        · exact .inr (h ▸ List.mem_cons_self)
        · exact (ih h).imp id (List.mem_cons_of_mem _)

theorem mem_del {α : Type} (m : Map α) (k : Nat) (p : Nat × α) (h : p ∈ del m k) : p ∈ m := by
  induction m with
  | nil => exact h
  | cons q t ih =>
    obtain ⟨k', v'⟩ := q
    unfold del at h
    split at h
    · exact List.mem_cons_of_mem _ (ih h)
    · rcases List.mem_cons.mp h with h | h
      · exact h ▸ List.mem_cons_self
      · exact List.mem_cons_of_mem _ (ih h)

theorem sorted_put {α : Type} (m : Map α) (k : Nat) (v : α) (h : Sorted m = true) : Sorted (put m k v) = true := by
  induction m with
  | nil => rfl
  | cons q t ih =>
    obtain ⟨k', v'⟩ := q
    have hq := (sorted_cons k' v' t).mp h
    unfold put
    split
    · rename_i hk
      refine (sorted_cons k v _).mpr ⟨?_, h⟩
      intro p hp
      rcases List.mem_cons.mp hp with rfl | hp
      · exact hk
      · exact Nat.lt_trans hk (hq.1 p hp)
    · split
      · rename_i e
        subst e
        exact (sorted_cons k v t).mpr hq
      · rename_i h1 h2
        refine (sorted_cons k' v' _).mpr ⟨?_, ih hq.2⟩
        intro p hp
        rcases mem_put t k v p hp with rfl | hp
        · exact Nat.lt_of_le_of_ne (Nat.le_of_not_lt h1) (fun e => h2 e.symm)
        · exact hq.1 p hp

theorem sorted_del {α : Type} (m : Map α) (k : Nat) (h : Sorted m = true) : Sorted (del m k) = true := by
  induction m with
  | nil => rfl
  | cons q t ih =>
    obtain ⟨k', v'⟩ := q
    have hq := (sorted_cons k' v' t).mp h
    unfold del
    split
    · exact ih hq.2
    · exact (sorted_cons k' v' _).mpr ⟨fun p hp => hq.1 p (mem_del t k p hp), ih hq.2⟩

theorem sorted_putD {α : Type} [DecidableEq α] (m : Map α) (k : Nat) (v d : α) (h : Sorted m = true) :
    Sorted (putD m k v d) = true := by
  unfold putD
  split
  · exact sorted_del m k h
  · exact sorted_put m k v h

/-- An entry of a map written with `putD` is never the value that an unlisted key reads as. -/
theorem proper_putD {α : Type} [DecidableEq α] (m : Map α) (k : Nat) (v d : α) (h : ∀ p ∈ m, p.2 ≠ d) :
    ∀ p ∈ putD m k v d, p.2 ≠ d := by
  intro p hp
  unfold putD at hp
  split at hp
  · exact h p (mem_del m k p hp)
  · rename_i hv
    rcases mem_put m k v p hp with rfl | hp
    · exact hv
    · exact h p hp

/-! ## Dictionary numbers and byte objects -/

@[simp] theorem getN_setN_same (s : State) (o : Obj) (v : Nat) : getN (setN s o v) o = v := by
  simp [getN, setN]

theorem getN_setN_other (s : State) (o q : Obj) (v : Nat) (h : o.key ≠ q.key) : getN (setN s o v) q = getN s q := by
  simp only [getN, setN]
  exact lookD_putD_other _ _ _ _ _ _ h

@[simp] theorem getBlob_setBlob_same (s : State) (k : Nat) (bs : List Byte) : getBlob (setBlob s k bs) k = bs := by
  simp [getBlob, setBlob, putBlob]

theorem getBlob_setBlob_other (s : State) (k j : Nat) (bs : List Byte) (h : k ≠ j) :
    getBlob (setBlob s k bs) j = getBlob s j := by
  simp only [getBlob, setBlob, putBlob]
  exact lookD_putD_other _ _ _ _ _ _ h

@[simp] theorem getSess_setSess_same (n : Nat) (x : Sess) (s : State) : getSess (setSess n x s) n = x := by
  simp [getSess, setSess]

theorem getSess_setSess_other (n k : Nat) (x : Sess) (s : State) (h : n ≠ k) : getSess (setSess n x s) k = getSess s k := by
  simp only [getSess, setSess]
  exact lookD_putD_other _ _ _ _ _ _ h

@[simp] theorem cellAt_putCell_same (c v : Nat) (s : State) : cellAt (putCell c v s) c = v % two32 := by
  simp [cellAt, putCell]

theorem cellAt_putCell_other (c k v : Nat) (s : State) (h : c ≠ k) : cellAt (putCell c v s) k = cellAt s k := by
  simp only [cellAt, putCell]
  exact lookD_putD_other _ _ _ _ _ _ h

/-! ## The LPDDR4X map -/

theorem wf_iff (m : Mem) : m.wf = true ↔ Sorted m.ram = true ∧ ∀ p ∈ m.ram, p.2 ≠ 0 := by
  simp [Mem.wf, List.all_eq_true]

/-- A store of one byte keeps the canonical form. -/
theorem wf_ram_putD (m : Mem) (a : Nat) (b : Byte) (h : m.wf = true) : Mem.wf { m with ram := putD m.ram a b 0 } = true := by
  obtain ⟨hs, hp⟩ := (wf_iff m).mp h
  exact (wf_iff _).mpr ⟨sorted_putD _ _ _ _ hs, proper_putD _ _ _ _ hp⟩

theorem wf_setMem_same (f : Mem → Mem) (s : State) (hf : ∀ m, (f m).ram = m.ram) (h : s.mem.wf = true) :
    (setMem f s).mem.wf = true := by
  have : (f s.mem).wf = s.mem.wf := by simp [Mem.wf, hf]
  exact this.trans h

/-- A write of one byte, wherever it goes, keeps the canonical form. -/
theorem wf_writeByte (a v : Nat) (s : State) (h : s.mem.wf = true) : (writeByte a v s).mem.wf = true := by
  unfold writeByte
  split
  · exact wf_ram_putD _ _ _ h
  · exact wf_ram_putD _ _ _ h
  · exact wf_ram_putD _ _ _ h
  · exact h
  · exact h
  · exact h

/-- The entries of the request ring, stored in the core-local SRAM, keep the canonical form. -/
theorem wf_storeSram (a : Nat) (bs : List Byte) (s : State) (h : s.mem.wf = true) : (storeSram a bs s).mem.wf = true := by
  have fold : ∀ (l : List (Byte × Nat)) (r : Map Byte), Sorted r = true → (∀ p ∈ r, p.2 ≠ 0) →
      Sorted (l.foldl (fun r p => if placeOf (a + p.2) = .sram then putD r (a + p.2) p.1 0 else r) r) = true ∧
        ∀ p ∈ l.foldl (fun r p => if placeOf (a + p.2) = .sram then putD r (a + p.2) p.1 0 else r) r, p.2 ≠ 0 := by
    intro l
    induction l with
    | nil => exact fun r hs hp => ⟨hs, hp⟩
    | cons x t ih =>
      intro r hs hp
      simp only [List.foldl_cons]
      split
      · exact ih _ (sorted_putD _ _ _ _ hs) (proper_putD _ _ _ _ hp)
      · exact ih _ hs hp
  obtain ⟨hs, hp⟩ := (wf_iff s.mem).mp h
  exact (wf_iff _).mpr (fold bs.zipIdx s.mem.ram hs hp)

/-- Dropping the listed bytes of a region keeps the canonical form. -/
theorem wf_filter (m : Mem) (f : Nat × Byte → Bool) (h : m.wf = true) : Mem.wf { m with ram := m.ram.filter f } = true := by
  obtain ⟨hs, hp⟩ := (wf_iff m).mp h
  refine (wf_iff _).mpr ⟨?_, fun p hm => hp p (List.mem_filter.mp hm).1⟩
  show Sorted (m.ram.filter f) = true
  generalize m.ram = r at hs
  clear hp h
  induction r with
  | nil => rfl
  | cons q t ih =>
    obtain ⟨k, v⟩ := q
    have hq := (sorted_cons k v t).mp hs
    rw [List.filter_cons]
    split
    · exact (sorted_cons k v _).mpr ⟨fun p hm => hq.1 p (List.mem_filter.mp hm).1, ih hq.2⟩
    · exact ih hq.2

theorem wf_putCell (c v : Nat) (s : State) (h : s.mem.wf = true) : (putCell c v s).mem.wf = true := h

theorem wf_putSlot (k : Nat) (x : WaitSlot) (s : State) (h : s.mem.wf = true) : (putSlot k x s).mem.wf = true := h

theorem wf_updDma (c : Fin 32) (f : DmaCh → DmaCh) (s : State) (h : s.mem.wf = true) : (updDma c f s).mem.wf = true := h

/-- A byte of the core-local SRAM or the LPDDR4X reads as what was written to it. -/
theorem readByte_writeByte_ram (a v : Nat) (s : State) (h : placeOf a = .ram) : readByte (writeByte a v s) a = v % 256 := by
  simp [readByte, writeByte, setMem, h]

theorem readByte_writeByte_other (a b v : Nat) (s : State) (h : placeOf a = .ram) (hb : placeOf b = .ram) (hab : a ≠ b) :
    readByte (writeByte a v s) b = readByte s b := by
  simp [readByte, writeByte, setMem, h, hb, lookD_putD_other _ _ _ _ _ _ hab]

end Sys2Proof.Machine
end

