-- ==== Sys2Proof/Laws/State.lean ====
section
/-! SUPPORT. What one update of the state does to each field: one lemma per field per update, and what a read of a field
of fixed size gives after an update of it. -/
namespace Sys2Proof.Machine

set_option Elab.async false

/-! ## Arrays of fixed size -/

@[simp] theorem vupd_get_same {α : Type} {n : Nat} (v : Vector α n) (i : Fin n) (f : α → α) : (vupd v i f).get i = f (v.get i) := by
  show (v.set i.val (f (v.get i)) i.isLt)[i.val] = f (v.get i)
  exact Vector.getElem_set_self _

theorem vupd_get_other {α : Type} {n : Nat} (v : Vector α n) (i j : Fin n) (f : α → α) (h : i ≠ j) :
    (vupd v i f).get j = v.get j := by
  have : i.val ≠ j.val := fun e => h (Fin.ext e)
  show (v.set i.val (f (v.get i)) i.isLt)[j.val] = v[j.val]
  exact Vector.getElem_set_ne _ _ this

/-! ## updBr -/

@[simp] theorem updBr_br (b : Fin 12) (f : Branch → Branch) (s : State) : (updBr b f s).br = vupd s.br b f := rfl
@[simp] theorem updBr_pending (b : Fin 12) (f : Branch → Branch) (s : State) : (updBr b f s).pending = s.pending := rfl
@[simp] theorem updBr_nums (b : Fin 12) (f : Branch → Branch) (s : State) : (updBr b f s).nums = s.nums := rfl
@[simp] theorem updBr_blobs (b : Fin 12) (f : Branch → Branch) (s : State) : (updBr b f s).blobs = s.blobs := rfl
@[simp] theorem updBr_clk (b : Fin 12) (f : Branch → Branch) (s : State) : (updBr b f s).clk = s.clk := rfl
@[simp] theorem updBr_pow (b : Fin 12) (f : Branch → Branch) (s : State) : (updBr b f s).pow = s.pow := rfl
@[simp] theorem updBr_sq (b : Fin 12) (f : Branch → Branch) (s : State) : (updBr b f s).sq = s.sq := rfl
@[simp] theorem updBr_acc (b : Fin 12) (f : Branch → Branch) (s : State) : (updBr b f s).acc = s.acc := rfl
@[simp] theorem updBr_heat (b : Fin 12) (f : Branch → Branch) (s : State) : (updBr b f s).heat = s.heat := rfl
@[simp] theorem updBr_cool (b : Fin 12) (f : Branch → Branch) (s : State) : (updBr b f s).cool = s.cool := rfl
@[simp] theorem updBr_part (b : Fin 12) (f : Branch → Branch) (s : State) : (updBr b f s).part = s.part := rfl
@[simp] theorem updBr_ev (b : Fin 12) (f : Branch → Branch) (s : State) : (updBr b f s).ev = s.ev := rfl
@[simp] theorem updBr_nut (b : Fin 12) (f : Branch → Branch) (s : State) : (updBr b f s).nut = s.nut := rfl
@[simp] theorem updBr_rep (b : Fin 12) (f : Branch → Branch) (s : State) : (updBr b f s).rep = s.rep := rfl
@[simp] theorem updBr_pkgEnergy (b : Fin 12) (f : Branch → Branch) (s : State) : (updBr b f s).pkgEnergy = s.pkgEnergy := rfl
@[simp] theorem updBr_oda (b : Fin 12) (f : Branch → Branch) (s : State) : (updBr b f s).oda = s.oda := rfl
@[simp] theorem updBr_port (b : Fin 12) (f : Branch → Branch) (s : State) : (updBr b f s).port = s.port := rfl
@[simp] theorem updBr_eng (b : Fin 12) (f : Branch → Branch) (s : State) : (updBr b f s).eng = s.eng := rfl
@[simp] theorem updBr_img (b : Fin 12) (f : Branch → Branch) (s : State) : (updBr b f s).img = s.img := rfl
@[simp] theorem updBr_ani (b : Fin 12) (f : Branch → Branch) (s : State) : (updBr b f s).ani = s.ani := rfl
@[simp] theorem updBr_mem (b : Fin 12) (f : Branch → Branch) (s : State) : (updBr b f s).mem = s.mem := rfl
@[simp] theorem updBr_bar (b : Fin 12) (f : Branch → Branch) (s : State) : (updBr b f s).bar = s.bar := rfl
@[simp] theorem updBr_cardamom (b : Fin 12) (f : Branch → Branch) (s : State) : (updBr b f s).cardamom = s.cardamom := rfl
@[simp] theorem updBr_ident (b : Fin 12) (f : Branch → Branch) (s : State) : (updBr b f s).ident = s.ident := rfl
@[simp] theorem updBr_free (b : Fin 12) (f : Branch → Branch) (s : State) : (updBr b f s).free = s.free := rfl
theorem updBr_get_same (b : Fin 12) (f : Branch → Branch) (s : State) : (updBr b f s).br.get b = f (s.br.get b) := vupd_get_same _ _ _
theorem updBr_get_other (b : Fin 12) (f : Branch → Branch) (j : Fin 12) (s : State) (h : b ≠ j) : (updBr b f s).br.get j = s.br.get j :=
  vupd_get_other _ _ _ _ h

/-! ## updSeq -/

@[simp] theorem updSeq_sq (q : Fin 9) (f : Seq → Seq) (s : State) : (updSeq q f s).sq = vupd s.sq q f := rfl
@[simp] theorem updSeq_pending (q : Fin 9) (f : Seq → Seq) (s : State) : (updSeq q f s).pending = s.pending := rfl
@[simp] theorem updSeq_nums (q : Fin 9) (f : Seq → Seq) (s : State) : (updSeq q f s).nums = s.nums := rfl
@[simp] theorem updSeq_blobs (q : Fin 9) (f : Seq → Seq) (s : State) : (updSeq q f s).blobs = s.blobs := rfl
@[simp] theorem updSeq_clk (q : Fin 9) (f : Seq → Seq) (s : State) : (updSeq q f s).clk = s.clk := rfl
@[simp] theorem updSeq_pow (q : Fin 9) (f : Seq → Seq) (s : State) : (updSeq q f s).pow = s.pow := rfl
@[simp] theorem updSeq_br (q : Fin 9) (f : Seq → Seq) (s : State) : (updSeq q f s).br = s.br := rfl
@[simp] theorem updSeq_acc (q : Fin 9) (f : Seq → Seq) (s : State) : (updSeq q f s).acc = s.acc := rfl
@[simp] theorem updSeq_heat (q : Fin 9) (f : Seq → Seq) (s : State) : (updSeq q f s).heat = s.heat := rfl
@[simp] theorem updSeq_cool (q : Fin 9) (f : Seq → Seq) (s : State) : (updSeq q f s).cool = s.cool := rfl
@[simp] theorem updSeq_part (q : Fin 9) (f : Seq → Seq) (s : State) : (updSeq q f s).part = s.part := rfl
@[simp] theorem updSeq_ev (q : Fin 9) (f : Seq → Seq) (s : State) : (updSeq q f s).ev = s.ev := rfl
@[simp] theorem updSeq_nut (q : Fin 9) (f : Seq → Seq) (s : State) : (updSeq q f s).nut = s.nut := rfl
@[simp] theorem updSeq_rep (q : Fin 9) (f : Seq → Seq) (s : State) : (updSeq q f s).rep = s.rep := rfl
@[simp] theorem updSeq_pkgEnergy (q : Fin 9) (f : Seq → Seq) (s : State) : (updSeq q f s).pkgEnergy = s.pkgEnergy := rfl
@[simp] theorem updSeq_oda (q : Fin 9) (f : Seq → Seq) (s : State) : (updSeq q f s).oda = s.oda := rfl
@[simp] theorem updSeq_port (q : Fin 9) (f : Seq → Seq) (s : State) : (updSeq q f s).port = s.port := rfl
@[simp] theorem updSeq_eng (q : Fin 9) (f : Seq → Seq) (s : State) : (updSeq q f s).eng = s.eng := rfl
@[simp] theorem updSeq_img (q : Fin 9) (f : Seq → Seq) (s : State) : (updSeq q f s).img = s.img := rfl
@[simp] theorem updSeq_ani (q : Fin 9) (f : Seq → Seq) (s : State) : (updSeq q f s).ani = s.ani := rfl
@[simp] theorem updSeq_mem (q : Fin 9) (f : Seq → Seq) (s : State) : (updSeq q f s).mem = s.mem := rfl
@[simp] theorem updSeq_bar (q : Fin 9) (f : Seq → Seq) (s : State) : (updSeq q f s).bar = s.bar := rfl
@[simp] theorem updSeq_cardamom (q : Fin 9) (f : Seq → Seq) (s : State) : (updSeq q f s).cardamom = s.cardamom := rfl
@[simp] theorem updSeq_ident (q : Fin 9) (f : Seq → Seq) (s : State) : (updSeq q f s).ident = s.ident := rfl
@[simp] theorem updSeq_free (q : Fin 9) (f : Seq → Seq) (s : State) : (updSeq q f s).free = s.free := rfl
theorem updSeq_get_same (q : Fin 9) (f : Seq → Seq) (s : State) : (updSeq q f s).sq.get q = f (s.sq.get q) := vupd_get_same _ _ _
theorem updSeq_get_other (q : Fin 9) (f : Seq → Seq) (j : Fin 9) (s : State) (h : q ≠ j) : (updSeq q f s).sq.get j = s.sq.get j :=
  vupd_get_other _ _ _ _ h

/-! ## updAcc -/

@[simp] theorem updAcc_acc (a : Fin 8) (f : Accel → Accel) (s : State) : (updAcc a f s).acc = vupd s.acc a f := rfl
@[simp] theorem updAcc_pending (a : Fin 8) (f : Accel → Accel) (s : State) : (updAcc a f s).pending = s.pending := rfl
@[simp] theorem updAcc_nums (a : Fin 8) (f : Accel → Accel) (s : State) : (updAcc a f s).nums = s.nums := rfl
@[simp] theorem updAcc_blobs (a : Fin 8) (f : Accel → Accel) (s : State) : (updAcc a f s).blobs = s.blobs := rfl
@[simp] theorem updAcc_clk (a : Fin 8) (f : Accel → Accel) (s : State) : (updAcc a f s).clk = s.clk := rfl
@[simp] theorem updAcc_pow (a : Fin 8) (f : Accel → Accel) (s : State) : (updAcc a f s).pow = s.pow := rfl
@[simp] theorem updAcc_br (a : Fin 8) (f : Accel → Accel) (s : State) : (updAcc a f s).br = s.br := rfl
@[simp] theorem updAcc_sq (a : Fin 8) (f : Accel → Accel) (s : State) : (updAcc a f s).sq = s.sq := rfl
@[simp] theorem updAcc_heat (a : Fin 8) (f : Accel → Accel) (s : State) : (updAcc a f s).heat = s.heat := rfl
@[simp] theorem updAcc_cool (a : Fin 8) (f : Accel → Accel) (s : State) : (updAcc a f s).cool = s.cool := rfl
@[simp] theorem updAcc_part (a : Fin 8) (f : Accel → Accel) (s : State) : (updAcc a f s).part = s.part := rfl
@[simp] theorem updAcc_ev (a : Fin 8) (f : Accel → Accel) (s : State) : (updAcc a f s).ev = s.ev := rfl
@[simp] theorem updAcc_nut (a : Fin 8) (f : Accel → Accel) (s : State) : (updAcc a f s).nut = s.nut := rfl
@[simp] theorem updAcc_rep (a : Fin 8) (f : Accel → Accel) (s : State) : (updAcc a f s).rep = s.rep := rfl
@[simp] theorem updAcc_pkgEnergy (a : Fin 8) (f : Accel → Accel) (s : State) : (updAcc a f s).pkgEnergy = s.pkgEnergy := rfl
@[simp] theorem updAcc_oda (a : Fin 8) (f : Accel → Accel) (s : State) : (updAcc a f s).oda = s.oda := rfl
@[simp] theorem updAcc_port (a : Fin 8) (f : Accel → Accel) (s : State) : (updAcc a f s).port = s.port := rfl
@[simp] theorem updAcc_eng (a : Fin 8) (f : Accel → Accel) (s : State) : (updAcc a f s).eng = s.eng := rfl
@[simp] theorem updAcc_img (a : Fin 8) (f : Accel → Accel) (s : State) : (updAcc a f s).img = s.img := rfl
@[simp] theorem updAcc_ani (a : Fin 8) (f : Accel → Accel) (s : State) : (updAcc a f s).ani = s.ani := rfl
@[simp] theorem updAcc_mem (a : Fin 8) (f : Accel → Accel) (s : State) : (updAcc a f s).mem = s.mem := rfl
@[simp] theorem updAcc_bar (a : Fin 8) (f : Accel → Accel) (s : State) : (updAcc a f s).bar = s.bar := rfl
@[simp] theorem updAcc_cardamom (a : Fin 8) (f : Accel → Accel) (s : State) : (updAcc a f s).cardamom = s.cardamom := rfl
@[simp] theorem updAcc_ident (a : Fin 8) (f : Accel → Accel) (s : State) : (updAcc a f s).ident = s.ident := rfl
@[simp] theorem updAcc_free (a : Fin 8) (f : Accel → Accel) (s : State) : (updAcc a f s).free = s.free := rfl
theorem updAcc_get_same (a : Fin 8) (f : Accel → Accel) (s : State) : (updAcc a f s).acc.get a = f (s.acc.get a) := vupd_get_same _ _ _
theorem updAcc_get_other (a : Fin 8) (f : Accel → Accel) (j : Fin 8) (s : State) (h : a ≠ j) : (updAcc a f s).acc.get j = s.acc.get j :=
  vupd_get_other _ _ _ _ h

/-! ## updTile -/

@[simp] theorem updTile_eng (k : Fin 68) (f : Tile → Tile) (s : State) : (updTile k f s).eng = { s.eng with tiles := vupd s.eng.tiles k f } := rfl
@[simp] theorem updTile_pending (k : Fin 68) (f : Tile → Tile) (s : State) : (updTile k f s).pending = s.pending := rfl
@[simp] theorem updTile_nums (k : Fin 68) (f : Tile → Tile) (s : State) : (updTile k f s).nums = s.nums := rfl
@[simp] theorem updTile_blobs (k : Fin 68) (f : Tile → Tile) (s : State) : (updTile k f s).blobs = s.blobs := rfl
@[simp] theorem updTile_clk (k : Fin 68) (f : Tile → Tile) (s : State) : (updTile k f s).clk = s.clk := rfl
@[simp] theorem updTile_pow (k : Fin 68) (f : Tile → Tile) (s : State) : (updTile k f s).pow = s.pow := rfl
@[simp] theorem updTile_br (k : Fin 68) (f : Tile → Tile) (s : State) : (updTile k f s).br = s.br := rfl
@[simp] theorem updTile_sq (k : Fin 68) (f : Tile → Tile) (s : State) : (updTile k f s).sq = s.sq := rfl
@[simp] theorem updTile_acc (k : Fin 68) (f : Tile → Tile) (s : State) : (updTile k f s).acc = s.acc := rfl
@[simp] theorem updTile_heat (k : Fin 68) (f : Tile → Tile) (s : State) : (updTile k f s).heat = s.heat := rfl
@[simp] theorem updTile_cool (k : Fin 68) (f : Tile → Tile) (s : State) : (updTile k f s).cool = s.cool := rfl
@[simp] theorem updTile_part (k : Fin 68) (f : Tile → Tile) (s : State) : (updTile k f s).part = s.part := rfl
@[simp] theorem updTile_ev (k : Fin 68) (f : Tile → Tile) (s : State) : (updTile k f s).ev = s.ev := rfl
@[simp] theorem updTile_nut (k : Fin 68) (f : Tile → Tile) (s : State) : (updTile k f s).nut = s.nut := rfl
@[simp] theorem updTile_rep (k : Fin 68) (f : Tile → Tile) (s : State) : (updTile k f s).rep = s.rep := rfl
@[simp] theorem updTile_pkgEnergy (k : Fin 68) (f : Tile → Tile) (s : State) : (updTile k f s).pkgEnergy = s.pkgEnergy := rfl
@[simp] theorem updTile_oda (k : Fin 68) (f : Tile → Tile) (s : State) : (updTile k f s).oda = s.oda := rfl
@[simp] theorem updTile_port (k : Fin 68) (f : Tile → Tile) (s : State) : (updTile k f s).port = s.port := rfl
@[simp] theorem updTile_img (k : Fin 68) (f : Tile → Tile) (s : State) : (updTile k f s).img = s.img := rfl
@[simp] theorem updTile_ani (k : Fin 68) (f : Tile → Tile) (s : State) : (updTile k f s).ani = s.ani := rfl
@[simp] theorem updTile_mem (k : Fin 68) (f : Tile → Tile) (s : State) : (updTile k f s).mem = s.mem := rfl
@[simp] theorem updTile_bar (k : Fin 68) (f : Tile → Tile) (s : State) : (updTile k f s).bar = s.bar := rfl
@[simp] theorem updTile_cardamom (k : Fin 68) (f : Tile → Tile) (s : State) : (updTile k f s).cardamom = s.cardamom := rfl
@[simp] theorem updTile_ident (k : Fin 68) (f : Tile → Tile) (s : State) : (updTile k f s).ident = s.ident := rfl
@[simp] theorem updTile_free (k : Fin 68) (f : Tile → Tile) (s : State) : (updTile k f s).free = s.free := rfl
theorem updTile_get_same (k : Fin 68) (f : Tile → Tile) (s : State) : (updTile k f s).eng.tiles.get k = f (s.eng.tiles.get k) := vupd_get_same _ _ _
theorem updTile_get_other (k : Fin 68) (f : Tile → Tile) (j : Fin 68) (s : State) (h : k ≠ j) : (updTile k f s).eng.tiles.get j = s.eng.tiles.get j :=
  vupd_get_other _ _ _ _ h

/-! ## updRail -/

@[simp] theorem updRail_sq (q : Fin 9) (r : Fin 16) (f : Rail → Rail) (s : State) : (updRail q r f s).sq = vupd s.sq q (fun x => { x with rails := vupd x.rails r f }) := rfl
@[simp] theorem updRail_pending (q : Fin 9) (r : Fin 16) (f : Rail → Rail) (s : State) : (updRail q r f s).pending = s.pending := rfl
@[simp] theorem updRail_nums (q : Fin 9) (r : Fin 16) (f : Rail → Rail) (s : State) : (updRail q r f s).nums = s.nums := rfl
@[simp] theorem updRail_blobs (q : Fin 9) (r : Fin 16) (f : Rail → Rail) (s : State) : (updRail q r f s).blobs = s.blobs := rfl
@[simp] theorem updRail_clk (q : Fin 9) (r : Fin 16) (f : Rail → Rail) (s : State) : (updRail q r f s).clk = s.clk := rfl
@[simp] theorem updRail_pow (q : Fin 9) (r : Fin 16) (f : Rail → Rail) (s : State) : (updRail q r f s).pow = s.pow := rfl
@[simp] theorem updRail_br (q : Fin 9) (r : Fin 16) (f : Rail → Rail) (s : State) : (updRail q r f s).br = s.br := rfl
@[simp] theorem updRail_acc (q : Fin 9) (r : Fin 16) (f : Rail → Rail) (s : State) : (updRail q r f s).acc = s.acc := rfl
@[simp] theorem updRail_heat (q : Fin 9) (r : Fin 16) (f : Rail → Rail) (s : State) : (updRail q r f s).heat = s.heat := rfl
@[simp] theorem updRail_cool (q : Fin 9) (r : Fin 16) (f : Rail → Rail) (s : State) : (updRail q r f s).cool = s.cool := rfl
@[simp] theorem updRail_part (q : Fin 9) (r : Fin 16) (f : Rail → Rail) (s : State) : (updRail q r f s).part = s.part := rfl
@[simp] theorem updRail_ev (q : Fin 9) (r : Fin 16) (f : Rail → Rail) (s : State) : (updRail q r f s).ev = s.ev := rfl
@[simp] theorem updRail_nut (q : Fin 9) (r : Fin 16) (f : Rail → Rail) (s : State) : (updRail q r f s).nut = s.nut := rfl
@[simp] theorem updRail_rep (q : Fin 9) (r : Fin 16) (f : Rail → Rail) (s : State) : (updRail q r f s).rep = s.rep := rfl
@[simp] theorem updRail_pkgEnergy (q : Fin 9) (r : Fin 16) (f : Rail → Rail) (s : State) : (updRail q r f s).pkgEnergy = s.pkgEnergy := rfl
@[simp] theorem updRail_oda (q : Fin 9) (r : Fin 16) (f : Rail → Rail) (s : State) : (updRail q r f s).oda = s.oda := rfl
@[simp] theorem updRail_port (q : Fin 9) (r : Fin 16) (f : Rail → Rail) (s : State) : (updRail q r f s).port = s.port := rfl
@[simp] theorem updRail_eng (q : Fin 9) (r : Fin 16) (f : Rail → Rail) (s : State) : (updRail q r f s).eng = s.eng := rfl
@[simp] theorem updRail_img (q : Fin 9) (r : Fin 16) (f : Rail → Rail) (s : State) : (updRail q r f s).img = s.img := rfl
@[simp] theorem updRail_ani (q : Fin 9) (r : Fin 16) (f : Rail → Rail) (s : State) : (updRail q r f s).ani = s.ani := rfl
@[simp] theorem updRail_mem (q : Fin 9) (r : Fin 16) (f : Rail → Rail) (s : State) : (updRail q r f s).mem = s.mem := rfl
@[simp] theorem updRail_bar (q : Fin 9) (r : Fin 16) (f : Rail → Rail) (s : State) : (updRail q r f s).bar = s.bar := rfl
@[simp] theorem updRail_cardamom (q : Fin 9) (r : Fin 16) (f : Rail → Rail) (s : State) : (updRail q r f s).cardamom = s.cardamom := rfl
@[simp] theorem updRail_ident (q : Fin 9) (r : Fin 16) (f : Rail → Rail) (s : State) : (updRail q r f s).ident = s.ident := rfl
@[simp] theorem updRail_free (q : Fin 9) (r : Fin 16) (f : Rail → Rail) (s : State) : (updRail q r f s).free = s.free := rfl

/-! ## updOut -/

@[simp] theorem updOut_cool (o : Fin 24) (f : Output → Output) (s : State) : (updOut o f s).cool = { s.cool with outs := vupd s.cool.outs o f } := rfl
@[simp] theorem updOut_pending (o : Fin 24) (f : Output → Output) (s : State) : (updOut o f s).pending = s.pending := rfl
@[simp] theorem updOut_nums (o : Fin 24) (f : Output → Output) (s : State) : (updOut o f s).nums = s.nums := rfl
@[simp] theorem updOut_blobs (o : Fin 24) (f : Output → Output) (s : State) : (updOut o f s).blobs = s.blobs := rfl
@[simp] theorem updOut_clk (o : Fin 24) (f : Output → Output) (s : State) : (updOut o f s).clk = s.clk := rfl
@[simp] theorem updOut_pow (o : Fin 24) (f : Output → Output) (s : State) : (updOut o f s).pow = s.pow := rfl
@[simp] theorem updOut_br (o : Fin 24) (f : Output → Output) (s : State) : (updOut o f s).br = s.br := rfl
@[simp] theorem updOut_sq (o : Fin 24) (f : Output → Output) (s : State) : (updOut o f s).sq = s.sq := rfl
@[simp] theorem updOut_acc (o : Fin 24) (f : Output → Output) (s : State) : (updOut o f s).acc = s.acc := rfl
@[simp] theorem updOut_heat (o : Fin 24) (f : Output → Output) (s : State) : (updOut o f s).heat = s.heat := rfl
@[simp] theorem updOut_part (o : Fin 24) (f : Output → Output) (s : State) : (updOut o f s).part = s.part := rfl
@[simp] theorem updOut_ev (o : Fin 24) (f : Output → Output) (s : State) : (updOut o f s).ev = s.ev := rfl
@[simp] theorem updOut_nut (o : Fin 24) (f : Output → Output) (s : State) : (updOut o f s).nut = s.nut := rfl
@[simp] theorem updOut_rep (o : Fin 24) (f : Output → Output) (s : State) : (updOut o f s).rep = s.rep := rfl
@[simp] theorem updOut_pkgEnergy (o : Fin 24) (f : Output → Output) (s : State) : (updOut o f s).pkgEnergy = s.pkgEnergy := rfl
@[simp] theorem updOut_oda (o : Fin 24) (f : Output → Output) (s : State) : (updOut o f s).oda = s.oda := rfl
@[simp] theorem updOut_port (o : Fin 24) (f : Output → Output) (s : State) : (updOut o f s).port = s.port := rfl
@[simp] theorem updOut_eng (o : Fin 24) (f : Output → Output) (s : State) : (updOut o f s).eng = s.eng := rfl
@[simp] theorem updOut_img (o : Fin 24) (f : Output → Output) (s : State) : (updOut o f s).img = s.img := rfl
@[simp] theorem updOut_ani (o : Fin 24) (f : Output → Output) (s : State) : (updOut o f s).ani = s.ani := rfl
@[simp] theorem updOut_mem (o : Fin 24) (f : Output → Output) (s : State) : (updOut o f s).mem = s.mem := rfl
@[simp] theorem updOut_bar (o : Fin 24) (f : Output → Output) (s : State) : (updOut o f s).bar = s.bar := rfl
@[simp] theorem updOut_cardamom (o : Fin 24) (f : Output → Output) (s : State) : (updOut o f s).cardamom = s.cardamom := rfl
@[simp] theorem updOut_ident (o : Fin 24) (f : Output → Output) (s : State) : (updOut o f s).ident = s.ident := rfl
@[simp] theorem updOut_free (o : Fin 24) (f : Output → Output) (s : State) : (updOut o f s).free = s.free := rfl
theorem updOut_get_same (o : Fin 24) (f : Output → Output) (s : State) : (updOut o f s).cool.outs.get o = f (s.cool.outs.get o) := vupd_get_same _ _ _
theorem updOut_get_other (o : Fin 24) (f : Output → Output) (j : Fin 24) (s : State) (h : o ≠ j) : (updOut o f s).cool.outs.get j = s.cool.outs.get j :=
  vupd_get_other _ _ _ _ h

/-! ## updLeak -/

@[simp] theorem updLeak_cool (c : Fin 8) (f : LeakCh → LeakCh) (s : State) : (updLeak c f s).cool = { s.cool with leaks := vupd s.cool.leaks c f } := rfl
@[simp] theorem updLeak_pending (c : Fin 8) (f : LeakCh → LeakCh) (s : State) : (updLeak c f s).pending = s.pending := rfl
@[simp] theorem updLeak_nums (c : Fin 8) (f : LeakCh → LeakCh) (s : State) : (updLeak c f s).nums = s.nums := rfl
@[simp] theorem updLeak_blobs (c : Fin 8) (f : LeakCh → LeakCh) (s : State) : (updLeak c f s).blobs = s.blobs := rfl
@[simp] theorem updLeak_clk (c : Fin 8) (f : LeakCh → LeakCh) (s : State) : (updLeak c f s).clk = s.clk := rfl
@[simp] theorem updLeak_pow (c : Fin 8) (f : LeakCh → LeakCh) (s : State) : (updLeak c f s).pow = s.pow := rfl
@[simp] theorem updLeak_br (c : Fin 8) (f : LeakCh → LeakCh) (s : State) : (updLeak c f s).br = s.br := rfl
@[simp] theorem updLeak_sq (c : Fin 8) (f : LeakCh → LeakCh) (s : State) : (updLeak c f s).sq = s.sq := rfl
@[simp] theorem updLeak_acc (c : Fin 8) (f : LeakCh → LeakCh) (s : State) : (updLeak c f s).acc = s.acc := rfl
@[simp] theorem updLeak_heat (c : Fin 8) (f : LeakCh → LeakCh) (s : State) : (updLeak c f s).heat = s.heat := rfl
@[simp] theorem updLeak_part (c : Fin 8) (f : LeakCh → LeakCh) (s : State) : (updLeak c f s).part = s.part := rfl
@[simp] theorem updLeak_ev (c : Fin 8) (f : LeakCh → LeakCh) (s : State) : (updLeak c f s).ev = s.ev := rfl
@[simp] theorem updLeak_nut (c : Fin 8) (f : LeakCh → LeakCh) (s : State) : (updLeak c f s).nut = s.nut := rfl
@[simp] theorem updLeak_rep (c : Fin 8) (f : LeakCh → LeakCh) (s : State) : (updLeak c f s).rep = s.rep := rfl
@[simp] theorem updLeak_pkgEnergy (c : Fin 8) (f : LeakCh → LeakCh) (s : State) : (updLeak c f s).pkgEnergy = s.pkgEnergy := rfl
@[simp] theorem updLeak_oda (c : Fin 8) (f : LeakCh → LeakCh) (s : State) : (updLeak c f s).oda = s.oda := rfl
@[simp] theorem updLeak_port (c : Fin 8) (f : LeakCh → LeakCh) (s : State) : (updLeak c f s).port = s.port := rfl
@[simp] theorem updLeak_eng (c : Fin 8) (f : LeakCh → LeakCh) (s : State) : (updLeak c f s).eng = s.eng := rfl
@[simp] theorem updLeak_img (c : Fin 8) (f : LeakCh → LeakCh) (s : State) : (updLeak c f s).img = s.img := rfl
@[simp] theorem updLeak_ani (c : Fin 8) (f : LeakCh → LeakCh) (s : State) : (updLeak c f s).ani = s.ani := rfl
@[simp] theorem updLeak_mem (c : Fin 8) (f : LeakCh → LeakCh) (s : State) : (updLeak c f s).mem = s.mem := rfl
@[simp] theorem updLeak_bar (c : Fin 8) (f : LeakCh → LeakCh) (s : State) : (updLeak c f s).bar = s.bar := rfl
@[simp] theorem updLeak_cardamom (c : Fin 8) (f : LeakCh → LeakCh) (s : State) : (updLeak c f s).cardamom = s.cardamom := rfl
@[simp] theorem updLeak_ident (c : Fin 8) (f : LeakCh → LeakCh) (s : State) : (updLeak c f s).ident = s.ident := rfl
@[simp] theorem updLeak_free (c : Fin 8) (f : LeakCh → LeakCh) (s : State) : (updLeak c f s).free = s.free := rfl
theorem updLeak_get_same (c : Fin 8) (f : LeakCh → LeakCh) (s : State) : (updLeak c f s).cool.leaks.get c = f (s.cool.leaks.get c) := vupd_get_same _ _ _
theorem updLeak_get_other (c : Fin 8) (f : LeakCh → LeakCh) (j : Fin 8) (s : State) (h : c ≠ j) : (updLeak c f s).cool.leaks.get j = s.cool.leaks.get j :=
  vupd_get_other _ _ _ _ h

/-! ## setZone -/

@[simp] theorem setZone_cool (z : Fin 8) (v : ZoneState) (s : State) : (setZone z v s).cool = { s.cool with zones := vupd s.cool.zones z (fun _ => v) } := rfl
@[simp] theorem setZone_pending (z : Fin 8) (v : ZoneState) (s : State) : (setZone z v s).pending = s.pending := rfl
@[simp] theorem setZone_nums (z : Fin 8) (v : ZoneState) (s : State) : (setZone z v s).nums = s.nums := rfl
@[simp] theorem setZone_blobs (z : Fin 8) (v : ZoneState) (s : State) : (setZone z v s).blobs = s.blobs := rfl
@[simp] theorem setZone_clk (z : Fin 8) (v : ZoneState) (s : State) : (setZone z v s).clk = s.clk := rfl
@[simp] theorem setZone_pow (z : Fin 8) (v : ZoneState) (s : State) : (setZone z v s).pow = s.pow := rfl
@[simp] theorem setZone_br (z : Fin 8) (v : ZoneState) (s : State) : (setZone z v s).br = s.br := rfl
@[simp] theorem setZone_sq (z : Fin 8) (v : ZoneState) (s : State) : (setZone z v s).sq = s.sq := rfl
@[simp] theorem setZone_acc (z : Fin 8) (v : ZoneState) (s : State) : (setZone z v s).acc = s.acc := rfl
@[simp] theorem setZone_heat (z : Fin 8) (v : ZoneState) (s : State) : (setZone z v s).heat = s.heat := rfl
@[simp] theorem setZone_part (z : Fin 8) (v : ZoneState) (s : State) : (setZone z v s).part = s.part := rfl
@[simp] theorem setZone_ev (z : Fin 8) (v : ZoneState) (s : State) : (setZone z v s).ev = s.ev := rfl
@[simp] theorem setZone_nut (z : Fin 8) (v : ZoneState) (s : State) : (setZone z v s).nut = s.nut := rfl
@[simp] theorem setZone_rep (z : Fin 8) (v : ZoneState) (s : State) : (setZone z v s).rep = s.rep := rfl
@[simp] theorem setZone_pkgEnergy (z : Fin 8) (v : ZoneState) (s : State) : (setZone z v s).pkgEnergy = s.pkgEnergy := rfl
@[simp] theorem setZone_oda (z : Fin 8) (v : ZoneState) (s : State) : (setZone z v s).oda = s.oda := rfl
@[simp] theorem setZone_port (z : Fin 8) (v : ZoneState) (s : State) : (setZone z v s).port = s.port := rfl
@[simp] theorem setZone_eng (z : Fin 8) (v : ZoneState) (s : State) : (setZone z v s).eng = s.eng := rfl
@[simp] theorem setZone_img (z : Fin 8) (v : ZoneState) (s : State) : (setZone z v s).img = s.img := rfl
@[simp] theorem setZone_ani (z : Fin 8) (v : ZoneState) (s : State) : (setZone z v s).ani = s.ani := rfl
@[simp] theorem setZone_mem (z : Fin 8) (v : ZoneState) (s : State) : (setZone z v s).mem = s.mem := rfl
@[simp] theorem setZone_bar (z : Fin 8) (v : ZoneState) (s : State) : (setZone z v s).bar = s.bar := rfl
@[simp] theorem setZone_cardamom (z : Fin 8) (v : ZoneState) (s : State) : (setZone z v s).cardamom = s.cardamom := rfl
@[simp] theorem setZone_ident (z : Fin 8) (v : ZoneState) (s : State) : (setZone z v s).ident = s.ident := rfl
@[simp] theorem setZone_free (z : Fin 8) (v : ZoneState) (s : State) : (setZone z v s).free = s.free := rfl

/-! ## updHost -/

@[simp] theorem updHost_port (p : Fin 2) (f : HostPort → HostPort) (s : State) : (updHost p f s).port = { s.port with host := vupd s.port.host p f } := rfl
@[simp] theorem updHost_pending (p : Fin 2) (f : HostPort → HostPort) (s : State) : (updHost p f s).pending = s.pending := rfl
@[simp] theorem updHost_nums (p : Fin 2) (f : HostPort → HostPort) (s : State) : (updHost p f s).nums = s.nums := rfl
@[simp] theorem updHost_blobs (p : Fin 2) (f : HostPort → HostPort) (s : State) : (updHost p f s).blobs = s.blobs := rfl
@[simp] theorem updHost_clk (p : Fin 2) (f : HostPort → HostPort) (s : State) : (updHost p f s).clk = s.clk := rfl
@[simp] theorem updHost_pow (p : Fin 2) (f : HostPort → HostPort) (s : State) : (updHost p f s).pow = s.pow := rfl
@[simp] theorem updHost_br (p : Fin 2) (f : HostPort → HostPort) (s : State) : (updHost p f s).br = s.br := rfl
@[simp] theorem updHost_sq (p : Fin 2) (f : HostPort → HostPort) (s : State) : (updHost p f s).sq = s.sq := rfl
@[simp] theorem updHost_acc (p : Fin 2) (f : HostPort → HostPort) (s : State) : (updHost p f s).acc = s.acc := rfl
@[simp] theorem updHost_heat (p : Fin 2) (f : HostPort → HostPort) (s : State) : (updHost p f s).heat = s.heat := rfl
@[simp] theorem updHost_cool (p : Fin 2) (f : HostPort → HostPort) (s : State) : (updHost p f s).cool = s.cool := rfl
@[simp] theorem updHost_part (p : Fin 2) (f : HostPort → HostPort) (s : State) : (updHost p f s).part = s.part := rfl
@[simp] theorem updHost_ev (p : Fin 2) (f : HostPort → HostPort) (s : State) : (updHost p f s).ev = s.ev := rfl
@[simp] theorem updHost_nut (p : Fin 2) (f : HostPort → HostPort) (s : State) : (updHost p f s).nut = s.nut := rfl
@[simp] theorem updHost_rep (p : Fin 2) (f : HostPort → HostPort) (s : State) : (updHost p f s).rep = s.rep := rfl
@[simp] theorem updHost_pkgEnergy (p : Fin 2) (f : HostPort → HostPort) (s : State) : (updHost p f s).pkgEnergy = s.pkgEnergy := rfl
@[simp] theorem updHost_oda (p : Fin 2) (f : HostPort → HostPort) (s : State) : (updHost p f s).oda = s.oda := rfl
@[simp] theorem updHost_eng (p : Fin 2) (f : HostPort → HostPort) (s : State) : (updHost p f s).eng = s.eng := rfl
@[simp] theorem updHost_img (p : Fin 2) (f : HostPort → HostPort) (s : State) : (updHost p f s).img = s.img := rfl
@[simp] theorem updHost_ani (p : Fin 2) (f : HostPort → HostPort) (s : State) : (updHost p f s).ani = s.ani := rfl
@[simp] theorem updHost_mem (p : Fin 2) (f : HostPort → HostPort) (s : State) : (updHost p f s).mem = s.mem := rfl
@[simp] theorem updHost_bar (p : Fin 2) (f : HostPort → HostPort) (s : State) : (updHost p f s).bar = s.bar := rfl
@[simp] theorem updHost_cardamom (p : Fin 2) (f : HostPort → HostPort) (s : State) : (updHost p f s).cardamom = s.cardamom := rfl
@[simp] theorem updHost_ident (p : Fin 2) (f : HostPort → HostPort) (s : State) : (updHost p f s).ident = s.ident := rfl
@[simp] theorem updHost_free (p : Fin 2) (f : HostPort → HostPort) (s : State) : (updHost p f s).free = s.free := rfl
theorem updHost_get_same (p : Fin 2) (f : HostPort → HostPort) (s : State) : (updHost p f s).port.host.get p = f (s.port.host.get p) := vupd_get_same _ _ _
theorem updHost_get_other (p : Fin 2) (f : HostPort → HostPort) (j : Fin 2) (s : State) (h : p ≠ j) : (updHost p f s).port.host.get j = s.port.host.get j :=
  vupd_get_other _ _ _ _ h

/-! ## updSb -/

@[simp] theorem updSb_port (p : Fin 8) (f : SbPort → SbPort) (s : State) : (updSb p f s).port = { s.port with sb := vupd s.port.sb p f } := rfl
@[simp] theorem updSb_pending (p : Fin 8) (f : SbPort → SbPort) (s : State) : (updSb p f s).pending = s.pending := rfl
@[simp] theorem updSb_nums (p : Fin 8) (f : SbPort → SbPort) (s : State) : (updSb p f s).nums = s.nums := rfl
@[simp] theorem updSb_blobs (p : Fin 8) (f : SbPort → SbPort) (s : State) : (updSb p f s).blobs = s.blobs := rfl
@[simp] theorem updSb_clk (p : Fin 8) (f : SbPort → SbPort) (s : State) : (updSb p f s).clk = s.clk := rfl
@[simp] theorem updSb_pow (p : Fin 8) (f : SbPort → SbPort) (s : State) : (updSb p f s).pow = s.pow := rfl
@[simp] theorem updSb_br (p : Fin 8) (f : SbPort → SbPort) (s : State) : (updSb p f s).br = s.br := rfl
@[simp] theorem updSb_sq (p : Fin 8) (f : SbPort → SbPort) (s : State) : (updSb p f s).sq = s.sq := rfl
@[simp] theorem updSb_acc (p : Fin 8) (f : SbPort → SbPort) (s : State) : (updSb p f s).acc = s.acc := rfl
@[simp] theorem updSb_heat (p : Fin 8) (f : SbPort → SbPort) (s : State) : (updSb p f s).heat = s.heat := rfl
@[simp] theorem updSb_cool (p : Fin 8) (f : SbPort → SbPort) (s : State) : (updSb p f s).cool = s.cool := rfl
@[simp] theorem updSb_part (p : Fin 8) (f : SbPort → SbPort) (s : State) : (updSb p f s).part = s.part := rfl
@[simp] theorem updSb_ev (p : Fin 8) (f : SbPort → SbPort) (s : State) : (updSb p f s).ev = s.ev := rfl
@[simp] theorem updSb_nut (p : Fin 8) (f : SbPort → SbPort) (s : State) : (updSb p f s).nut = s.nut := rfl
@[simp] theorem updSb_rep (p : Fin 8) (f : SbPort → SbPort) (s : State) : (updSb p f s).rep = s.rep := rfl
@[simp] theorem updSb_pkgEnergy (p : Fin 8) (f : SbPort → SbPort) (s : State) : (updSb p f s).pkgEnergy = s.pkgEnergy := rfl
@[simp] theorem updSb_oda (p : Fin 8) (f : SbPort → SbPort) (s : State) : (updSb p f s).oda = s.oda := rfl
@[simp] theorem updSb_eng (p : Fin 8) (f : SbPort → SbPort) (s : State) : (updSb p f s).eng = s.eng := rfl
@[simp] theorem updSb_img (p : Fin 8) (f : SbPort → SbPort) (s : State) : (updSb p f s).img = s.img := rfl
@[simp] theorem updSb_ani (p : Fin 8) (f : SbPort → SbPort) (s : State) : (updSb p f s).ani = s.ani := rfl
@[simp] theorem updSb_mem (p : Fin 8) (f : SbPort → SbPort) (s : State) : (updSb p f s).mem = s.mem := rfl
@[simp] theorem updSb_bar (p : Fin 8) (f : SbPort → SbPort) (s : State) : (updSb p f s).bar = s.bar := rfl
@[simp] theorem updSb_cardamom (p : Fin 8) (f : SbPort → SbPort) (s : State) : (updSb p f s).cardamom = s.cardamom := rfl
@[simp] theorem updSb_ident (p : Fin 8) (f : SbPort → SbPort) (s : State) : (updSb p f s).ident = s.ident := rfl
@[simp] theorem updSb_free (p : Fin 8) (f : SbPort → SbPort) (s : State) : (updSb p f s).free = s.free := rfl
theorem updSb_get_same (p : Fin 8) (f : SbPort → SbPort) (s : State) : (updSb p f s).port.sb.get p = f (s.port.sb.get p) := vupd_get_same _ _ _
theorem updSb_get_other (p : Fin 8) (f : SbPort → SbPort) (j : Fin 8) (s : State) (h : p ≠ j) : (updSb p f s).port.sb.get j = s.port.sb.get j :=
  vupd_get_other _ _ _ _ h

/-! ## updDma -/

@[simp] theorem updDma_mem (c : Fin 32) (f : DmaCh → DmaCh) (s : State) : (updDma c f s).mem = { s.mem with dma := vupd s.mem.dma c f } := rfl
@[simp] theorem updDma_pending (c : Fin 32) (f : DmaCh → DmaCh) (s : State) : (updDma c f s).pending = s.pending := rfl
@[simp] theorem updDma_nums (c : Fin 32) (f : DmaCh → DmaCh) (s : State) : (updDma c f s).nums = s.nums := rfl
@[simp] theorem updDma_blobs (c : Fin 32) (f : DmaCh → DmaCh) (s : State) : (updDma c f s).blobs = s.blobs := rfl
@[simp] theorem updDma_clk (c : Fin 32) (f : DmaCh → DmaCh) (s : State) : (updDma c f s).clk = s.clk := rfl
@[simp] theorem updDma_pow (c : Fin 32) (f : DmaCh → DmaCh) (s : State) : (updDma c f s).pow = s.pow := rfl
@[simp] theorem updDma_br (c : Fin 32) (f : DmaCh → DmaCh) (s : State) : (updDma c f s).br = s.br := rfl
@[simp] theorem updDma_sq (c : Fin 32) (f : DmaCh → DmaCh) (s : State) : (updDma c f s).sq = s.sq := rfl
@[simp] theorem updDma_acc (c : Fin 32) (f : DmaCh → DmaCh) (s : State) : (updDma c f s).acc = s.acc := rfl
@[simp] theorem updDma_heat (c : Fin 32) (f : DmaCh → DmaCh) (s : State) : (updDma c f s).heat = s.heat := rfl
@[simp] theorem updDma_cool (c : Fin 32) (f : DmaCh → DmaCh) (s : State) : (updDma c f s).cool = s.cool := rfl
@[simp] theorem updDma_part (c : Fin 32) (f : DmaCh → DmaCh) (s : State) : (updDma c f s).part = s.part := rfl
@[simp] theorem updDma_ev (c : Fin 32) (f : DmaCh → DmaCh) (s : State) : (updDma c f s).ev = s.ev := rfl
@[simp] theorem updDma_nut (c : Fin 32) (f : DmaCh → DmaCh) (s : State) : (updDma c f s).nut = s.nut := rfl
@[simp] theorem updDma_rep (c : Fin 32) (f : DmaCh → DmaCh) (s : State) : (updDma c f s).rep = s.rep := rfl
@[simp] theorem updDma_pkgEnergy (c : Fin 32) (f : DmaCh → DmaCh) (s : State) : (updDma c f s).pkgEnergy = s.pkgEnergy := rfl
@[simp] theorem updDma_oda (c : Fin 32) (f : DmaCh → DmaCh) (s : State) : (updDma c f s).oda = s.oda := rfl
@[simp] theorem updDma_port (c : Fin 32) (f : DmaCh → DmaCh) (s : State) : (updDma c f s).port = s.port := rfl
@[simp] theorem updDma_eng (c : Fin 32) (f : DmaCh → DmaCh) (s : State) : (updDma c f s).eng = s.eng := rfl
@[simp] theorem updDma_img (c : Fin 32) (f : DmaCh → DmaCh) (s : State) : (updDma c f s).img = s.img := rfl
@[simp] theorem updDma_ani (c : Fin 32) (f : DmaCh → DmaCh) (s : State) : (updDma c f s).ani = s.ani := rfl
@[simp] theorem updDma_bar (c : Fin 32) (f : DmaCh → DmaCh) (s : State) : (updDma c f s).bar = s.bar := rfl
@[simp] theorem updDma_cardamom (c : Fin 32) (f : DmaCh → DmaCh) (s : State) : (updDma c f s).cardamom = s.cardamom := rfl
@[simp] theorem updDma_ident (c : Fin 32) (f : DmaCh → DmaCh) (s : State) : (updDma c f s).ident = s.ident := rfl
@[simp] theorem updDma_free (c : Fin 32) (f : DmaCh → DmaCh) (s : State) : (updDma c f s).free = s.free := rfl
theorem updDma_get_same (c : Fin 32) (f : DmaCh → DmaCh) (s : State) : (updDma c f s).mem.dma.get c = f (s.mem.dma.get c) := vupd_get_same _ _ _
theorem updDma_get_other (c : Fin 32) (f : DmaCh → DmaCh) (j : Fin 32) (s : State) (h : c ≠ j) : (updDma c f s).mem.dma.get j = s.mem.dma.get j :=
  vupd_get_other _ _ _ _ h

/-! ## updRep -/

@[simp] theorem updRep_rep (c : Fin 13) (f : PowerCh → PowerCh) (s : State) : (updRep c f s).rep = vupd s.rep c f := rfl
@[simp] theorem updRep_pending (c : Fin 13) (f : PowerCh → PowerCh) (s : State) : (updRep c f s).pending = s.pending := rfl
@[simp] theorem updRep_nums (c : Fin 13) (f : PowerCh → PowerCh) (s : State) : (updRep c f s).nums = s.nums := rfl
@[simp] theorem updRep_blobs (c : Fin 13) (f : PowerCh → PowerCh) (s : State) : (updRep c f s).blobs = s.blobs := rfl
@[simp] theorem updRep_clk (c : Fin 13) (f : PowerCh → PowerCh) (s : State) : (updRep c f s).clk = s.clk := rfl
@[simp] theorem updRep_pow (c : Fin 13) (f : PowerCh → PowerCh) (s : State) : (updRep c f s).pow = s.pow := rfl
@[simp] theorem updRep_br (c : Fin 13) (f : PowerCh → PowerCh) (s : State) : (updRep c f s).br = s.br := rfl
@[simp] theorem updRep_sq (c : Fin 13) (f : PowerCh → PowerCh) (s : State) : (updRep c f s).sq = s.sq := rfl
@[simp] theorem updRep_acc (c : Fin 13) (f : PowerCh → PowerCh) (s : State) : (updRep c f s).acc = s.acc := rfl
@[simp] theorem updRep_heat (c : Fin 13) (f : PowerCh → PowerCh) (s : State) : (updRep c f s).heat = s.heat := rfl
@[simp] theorem updRep_cool (c : Fin 13) (f : PowerCh → PowerCh) (s : State) : (updRep c f s).cool = s.cool := rfl
@[simp] theorem updRep_part (c : Fin 13) (f : PowerCh → PowerCh) (s : State) : (updRep c f s).part = s.part := rfl
@[simp] theorem updRep_ev (c : Fin 13) (f : PowerCh → PowerCh) (s : State) : (updRep c f s).ev = s.ev := rfl
@[simp] theorem updRep_nut (c : Fin 13) (f : PowerCh → PowerCh) (s : State) : (updRep c f s).nut = s.nut := rfl
@[simp] theorem updRep_pkgEnergy (c : Fin 13) (f : PowerCh → PowerCh) (s : State) : (updRep c f s).pkgEnergy = s.pkgEnergy := rfl
@[simp] theorem updRep_oda (c : Fin 13) (f : PowerCh → PowerCh) (s : State) : (updRep c f s).oda = s.oda := rfl
@[simp] theorem updRep_port (c : Fin 13) (f : PowerCh → PowerCh) (s : State) : (updRep c f s).port = s.port := rfl
@[simp] theorem updRep_eng (c : Fin 13) (f : PowerCh → PowerCh) (s : State) : (updRep c f s).eng = s.eng := rfl
@[simp] theorem updRep_img (c : Fin 13) (f : PowerCh → PowerCh) (s : State) : (updRep c f s).img = s.img := rfl
@[simp] theorem updRep_ani (c : Fin 13) (f : PowerCh → PowerCh) (s : State) : (updRep c f s).ani = s.ani := rfl
@[simp] theorem updRep_mem (c : Fin 13) (f : PowerCh → PowerCh) (s : State) : (updRep c f s).mem = s.mem := rfl
@[simp] theorem updRep_bar (c : Fin 13) (f : PowerCh → PowerCh) (s : State) : (updRep c f s).bar = s.bar := rfl
@[simp] theorem updRep_cardamom (c : Fin 13) (f : PowerCh → PowerCh) (s : State) : (updRep c f s).cardamom = s.cardamom := rfl
@[simp] theorem updRep_ident (c : Fin 13) (f : PowerCh → PowerCh) (s : State) : (updRep c f s).ident = s.ident := rfl
@[simp] theorem updRep_free (c : Fin 13) (f : PowerCh → PowerCh) (s : State) : (updRep c f s).free = s.free := rfl
theorem updRep_get_same (c : Fin 13) (f : PowerCh → PowerCh) (s : State) : (updRep c f s).rep.get c = f (s.rep.get c) := vupd_get_same _ _ _
theorem updRep_get_other (c : Fin 13) (f : PowerCh → PowerCh) (j : Fin 13) (s : State) (h : c ≠ j) : (updRep c f s).rep.get j = s.rep.get j :=
  vupd_get_other _ _ _ _ h

/-! ## updCluster -/

@[simp] theorem updCluster_bar (c : Fin 2) (f : Cluster → Cluster) (s : State) : (updCluster c f s).bar = { s.bar with clusters := vupd s.bar.clusters c f } := rfl
@[simp] theorem updCluster_pending (c : Fin 2) (f : Cluster → Cluster) (s : State) : (updCluster c f s).pending = s.pending := rfl
@[simp] theorem updCluster_nums (c : Fin 2) (f : Cluster → Cluster) (s : State) : (updCluster c f s).nums = s.nums := rfl
@[simp] theorem updCluster_blobs (c : Fin 2) (f : Cluster → Cluster) (s : State) : (updCluster c f s).blobs = s.blobs := rfl
@[simp] theorem updCluster_clk (c : Fin 2) (f : Cluster → Cluster) (s : State) : (updCluster c f s).clk = s.clk := rfl
@[simp] theorem updCluster_pow (c : Fin 2) (f : Cluster → Cluster) (s : State) : (updCluster c f s).pow = s.pow := rfl
@[simp] theorem updCluster_br (c : Fin 2) (f : Cluster → Cluster) (s : State) : (updCluster c f s).br = s.br := rfl
@[simp] theorem updCluster_sq (c : Fin 2) (f : Cluster → Cluster) (s : State) : (updCluster c f s).sq = s.sq := rfl
@[simp] theorem updCluster_acc (c : Fin 2) (f : Cluster → Cluster) (s : State) : (updCluster c f s).acc = s.acc := rfl
@[simp] theorem updCluster_heat (c : Fin 2) (f : Cluster → Cluster) (s : State) : (updCluster c f s).heat = s.heat := rfl
@[simp] theorem updCluster_cool (c : Fin 2) (f : Cluster → Cluster) (s : State) : (updCluster c f s).cool = s.cool := rfl
@[simp] theorem updCluster_part (c : Fin 2) (f : Cluster → Cluster) (s : State) : (updCluster c f s).part = s.part := rfl
@[simp] theorem updCluster_ev (c : Fin 2) (f : Cluster → Cluster) (s : State) : (updCluster c f s).ev = s.ev := rfl
@[simp] theorem updCluster_nut (c : Fin 2) (f : Cluster → Cluster) (s : State) : (updCluster c f s).nut = s.nut := rfl
@[simp] theorem updCluster_rep (c : Fin 2) (f : Cluster → Cluster) (s : State) : (updCluster c f s).rep = s.rep := rfl
@[simp] theorem updCluster_pkgEnergy (c : Fin 2) (f : Cluster → Cluster) (s : State) : (updCluster c f s).pkgEnergy = s.pkgEnergy := rfl
@[simp] theorem updCluster_oda (c : Fin 2) (f : Cluster → Cluster) (s : State) : (updCluster c f s).oda = s.oda := rfl
@[simp] theorem updCluster_port (c : Fin 2) (f : Cluster → Cluster) (s : State) : (updCluster c f s).port = s.port := rfl
@[simp] theorem updCluster_eng (c : Fin 2) (f : Cluster → Cluster) (s : State) : (updCluster c f s).eng = s.eng := rfl
@[simp] theorem updCluster_img (c : Fin 2) (f : Cluster → Cluster) (s : State) : (updCluster c f s).img = s.img := rfl
@[simp] theorem updCluster_ani (c : Fin 2) (f : Cluster → Cluster) (s : State) : (updCluster c f s).ani = s.ani := rfl
@[simp] theorem updCluster_mem (c : Fin 2) (f : Cluster → Cluster) (s : State) : (updCluster c f s).mem = s.mem := rfl
@[simp] theorem updCluster_cardamom (c : Fin 2) (f : Cluster → Cluster) (s : State) : (updCluster c f s).cardamom = s.cardamom := rfl
@[simp] theorem updCluster_ident (c : Fin 2) (f : Cluster → Cluster) (s : State) : (updCluster c f s).ident = s.ident := rfl
@[simp] theorem updCluster_free (c : Fin 2) (f : Cluster → Cluster) (s : State) : (updCluster c f s).free = s.free := rfl
theorem updCluster_get_same (c : Fin 2) (f : Cluster → Cluster) (s : State) : (updCluster c f s).bar.clusters.get c = f (s.bar.clusters.get c) := vupd_get_same _ _ _
theorem updCluster_get_other (c : Fin 2) (f : Cluster → Cluster) (j : Fin 2) (s : State) (h : c ≠ j) : (updCluster c f s).bar.clusters.get j = s.bar.clusters.get j :=
  vupd_get_other _ _ _ _ h

/-! ## setSess -/

@[simp] theorem setSess_eng (n : Nat) (x : Sess) (s : State) : (setSess n x s).eng = { s.eng with sess := putD s.eng.sess n x Sess.closed } := rfl
@[simp] theorem setSess_pending (n : Nat) (x : Sess) (s : State) : (setSess n x s).pending = s.pending := rfl
@[simp] theorem setSess_nums (n : Nat) (x : Sess) (s : State) : (setSess n x s).nums = s.nums := rfl
@[simp] theorem setSess_blobs (n : Nat) (x : Sess) (s : State) : (setSess n x s).blobs = s.blobs := rfl
@[simp] theorem setSess_clk (n : Nat) (x : Sess) (s : State) : (setSess n x s).clk = s.clk := rfl
@[simp] theorem setSess_pow (n : Nat) (x : Sess) (s : State) : (setSess n x s).pow = s.pow := rfl
@[simp] theorem setSess_br (n : Nat) (x : Sess) (s : State) : (setSess n x s).br = s.br := rfl
@[simp] theorem setSess_sq (n : Nat) (x : Sess) (s : State) : (setSess n x s).sq = s.sq := rfl
@[simp] theorem setSess_acc (n : Nat) (x : Sess) (s : State) : (setSess n x s).acc = s.acc := rfl
@[simp] theorem setSess_heat (n : Nat) (x : Sess) (s : State) : (setSess n x s).heat = s.heat := rfl
@[simp] theorem setSess_cool (n : Nat) (x : Sess) (s : State) : (setSess n x s).cool = s.cool := rfl
@[simp] theorem setSess_part (n : Nat) (x : Sess) (s : State) : (setSess n x s).part = s.part := rfl
@[simp] theorem setSess_ev (n : Nat) (x : Sess) (s : State) : (setSess n x s).ev = s.ev := rfl
@[simp] theorem setSess_nut (n : Nat) (x : Sess) (s : State) : (setSess n x s).nut = s.nut := rfl
@[simp] theorem setSess_rep (n : Nat) (x : Sess) (s : State) : (setSess n x s).rep = s.rep := rfl
@[simp] theorem setSess_pkgEnergy (n : Nat) (x : Sess) (s : State) : (setSess n x s).pkgEnergy = s.pkgEnergy := rfl
@[simp] theorem setSess_oda (n : Nat) (x : Sess) (s : State) : (setSess n x s).oda = s.oda := rfl
@[simp] theorem setSess_port (n : Nat) (x : Sess) (s : State) : (setSess n x s).port = s.port := rfl
@[simp] theorem setSess_img (n : Nat) (x : Sess) (s : State) : (setSess n x s).img = s.img := rfl
@[simp] theorem setSess_ani (n : Nat) (x : Sess) (s : State) : (setSess n x s).ani = s.ani := rfl
@[simp] theorem setSess_mem (n : Nat) (x : Sess) (s : State) : (setSess n x s).mem = s.mem := rfl
@[simp] theorem setSess_bar (n : Nat) (x : Sess) (s : State) : (setSess n x s).bar = s.bar := rfl
@[simp] theorem setSess_cardamom (n : Nat) (x : Sess) (s : State) : (setSess n x s).cardamom = s.cardamom := rfl
@[simp] theorem setSess_ident (n : Nat) (x : Sess) (s : State) : (setSess n x s).ident = s.ident := rfl
@[simp] theorem setSess_free (n : Nat) (x : Sess) (s : State) : (setSess n x s).free = s.free := rfl

/-! ## putCell -/

@[simp] theorem putCell_mem (c v : Nat) (s : State) : (putCell c v s).mem = { s.mem with cells := putD s.mem.cells c (v % two32) 0 } := rfl
@[simp] theorem putCell_pending (c v : Nat) (s : State) : (putCell c v s).pending = s.pending := rfl
@[simp] theorem putCell_nums (c v : Nat) (s : State) : (putCell c v s).nums = s.nums := rfl
@[simp] theorem putCell_blobs (c v : Nat) (s : State) : (putCell c v s).blobs = s.blobs := rfl
@[simp] theorem putCell_clk (c v : Nat) (s : State) : (putCell c v s).clk = s.clk := rfl
@[simp] theorem putCell_pow (c v : Nat) (s : State) : (putCell c v s).pow = s.pow := rfl
@[simp] theorem putCell_br (c v : Nat) (s : State) : (putCell c v s).br = s.br := rfl
@[simp] theorem putCell_sq (c v : Nat) (s : State) : (putCell c v s).sq = s.sq := rfl
@[simp] theorem putCell_acc (c v : Nat) (s : State) : (putCell c v s).acc = s.acc := rfl
@[simp] theorem putCell_heat (c v : Nat) (s : State) : (putCell c v s).heat = s.heat := rfl
@[simp] theorem putCell_cool (c v : Nat) (s : State) : (putCell c v s).cool = s.cool := rfl
@[simp] theorem putCell_part (c v : Nat) (s : State) : (putCell c v s).part = s.part := rfl
@[simp] theorem putCell_ev (c v : Nat) (s : State) : (putCell c v s).ev = s.ev := rfl
@[simp] theorem putCell_nut (c v : Nat) (s : State) : (putCell c v s).nut = s.nut := rfl
@[simp] theorem putCell_rep (c v : Nat) (s : State) : (putCell c v s).rep = s.rep := rfl
@[simp] theorem putCell_pkgEnergy (c v : Nat) (s : State) : (putCell c v s).pkgEnergy = s.pkgEnergy := rfl
@[simp] theorem putCell_oda (c v : Nat) (s : State) : (putCell c v s).oda = s.oda := rfl
@[simp] theorem putCell_port (c v : Nat) (s : State) : (putCell c v s).port = s.port := rfl
@[simp] theorem putCell_eng (c v : Nat) (s : State) : (putCell c v s).eng = s.eng := rfl
@[simp] theorem putCell_img (c v : Nat) (s : State) : (putCell c v s).img = s.img := rfl
@[simp] theorem putCell_ani (c v : Nat) (s : State) : (putCell c v s).ani = s.ani := rfl
@[simp] theorem putCell_bar (c v : Nat) (s : State) : (putCell c v s).bar = s.bar := rfl
@[simp] theorem putCell_cardamom (c v : Nat) (s : State) : (putCell c v s).cardamom = s.cardamom := rfl
@[simp] theorem putCell_ident (c v : Nat) (s : State) : (putCell c v s).ident = s.ident := rfl
@[simp] theorem putCell_free (c v : Nat) (s : State) : (putCell c v s).free = s.free := rfl

/-! ## putSlot -/

@[simp] theorem putSlot_mem (k : Nat) (x : WaitSlot) (s : State) : (putSlot k x s).mem = { s.mem with slots := putD s.mem.slots k x WaitSlot.zero } := rfl
@[simp] theorem putSlot_pending (k : Nat) (x : WaitSlot) (s : State) : (putSlot k x s).pending = s.pending := rfl
@[simp] theorem putSlot_nums (k : Nat) (x : WaitSlot) (s : State) : (putSlot k x s).nums = s.nums := rfl
@[simp] theorem putSlot_blobs (k : Nat) (x : WaitSlot) (s : State) : (putSlot k x s).blobs = s.blobs := rfl
@[simp] theorem putSlot_clk (k : Nat) (x : WaitSlot) (s : State) : (putSlot k x s).clk = s.clk := rfl
@[simp] theorem putSlot_pow (k : Nat) (x : WaitSlot) (s : State) : (putSlot k x s).pow = s.pow := rfl
@[simp] theorem putSlot_br (k : Nat) (x : WaitSlot) (s : State) : (putSlot k x s).br = s.br := rfl
@[simp] theorem putSlot_sq (k : Nat) (x : WaitSlot) (s : State) : (putSlot k x s).sq = s.sq := rfl
@[simp] theorem putSlot_acc (k : Nat) (x : WaitSlot) (s : State) : (putSlot k x s).acc = s.acc := rfl
@[simp] theorem putSlot_heat (k : Nat) (x : WaitSlot) (s : State) : (putSlot k x s).heat = s.heat := rfl
@[simp] theorem putSlot_cool (k : Nat) (x : WaitSlot) (s : State) : (putSlot k x s).cool = s.cool := rfl
@[simp] theorem putSlot_part (k : Nat) (x : WaitSlot) (s : State) : (putSlot k x s).part = s.part := rfl
@[simp] theorem putSlot_ev (k : Nat) (x : WaitSlot) (s : State) : (putSlot k x s).ev = s.ev := rfl
@[simp] theorem putSlot_nut (k : Nat) (x : WaitSlot) (s : State) : (putSlot k x s).nut = s.nut := rfl
@[simp] theorem putSlot_rep (k : Nat) (x : WaitSlot) (s : State) : (putSlot k x s).rep = s.rep := rfl
@[simp] theorem putSlot_pkgEnergy (k : Nat) (x : WaitSlot) (s : State) : (putSlot k x s).pkgEnergy = s.pkgEnergy := rfl
@[simp] theorem putSlot_oda (k : Nat) (x : WaitSlot) (s : State) : (putSlot k x s).oda = s.oda := rfl
@[simp] theorem putSlot_port (k : Nat) (x : WaitSlot) (s : State) : (putSlot k x s).port = s.port := rfl
@[simp] theorem putSlot_eng (k : Nat) (x : WaitSlot) (s : State) : (putSlot k x s).eng = s.eng := rfl
@[simp] theorem putSlot_img (k : Nat) (x : WaitSlot) (s : State) : (putSlot k x s).img = s.img := rfl
@[simp] theorem putSlot_ani (k : Nat) (x : WaitSlot) (s : State) : (putSlot k x s).ani = s.ani := rfl
@[simp] theorem putSlot_bar (k : Nat) (x : WaitSlot) (s : State) : (putSlot k x s).bar = s.bar := rfl
@[simp] theorem putSlot_cardamom (k : Nat) (x : WaitSlot) (s : State) : (putSlot k x s).cardamom = s.cardamom := rfl
@[simp] theorem putSlot_ident (k : Nat) (x : WaitSlot) (s : State) : (putSlot k x s).ident = s.ident := rfl
@[simp] theorem putSlot_free (k : Nat) (x : WaitSlot) (s : State) : (putSlot k x s).free = s.free := rfl

/-! ## setN -/

@[simp] theorem setN_nums (o : Obj) (v : Nat) (s : State) : (setN s o v).nums = putD s.nums o.key v o.dflt := rfl
@[simp] theorem setN_pending (o : Obj) (v : Nat) (s : State) : (setN s o v).pending = s.pending := rfl
@[simp] theorem setN_blobs (o : Obj) (v : Nat) (s : State) : (setN s o v).blobs = s.blobs := rfl
@[simp] theorem setN_clk (o : Obj) (v : Nat) (s : State) : (setN s o v).clk = s.clk := rfl
@[simp] theorem setN_pow (o : Obj) (v : Nat) (s : State) : (setN s o v).pow = s.pow := rfl
@[simp] theorem setN_br (o : Obj) (v : Nat) (s : State) : (setN s o v).br = s.br := rfl
@[simp] theorem setN_sq (o : Obj) (v : Nat) (s : State) : (setN s o v).sq = s.sq := rfl
@[simp] theorem setN_acc (o : Obj) (v : Nat) (s : State) : (setN s o v).acc = s.acc := rfl
@[simp] theorem setN_heat (o : Obj) (v : Nat) (s : State) : (setN s o v).heat = s.heat := rfl
@[simp] theorem setN_cool (o : Obj) (v : Nat) (s : State) : (setN s o v).cool = s.cool := rfl
@[simp] theorem setN_part (o : Obj) (v : Nat) (s : State) : (setN s o v).part = s.part := rfl
@[simp] theorem setN_ev (o : Obj) (v : Nat) (s : State) : (setN s o v).ev = s.ev := rfl
@[simp] theorem setN_nut (o : Obj) (v : Nat) (s : State) : (setN s o v).nut = s.nut := rfl
@[simp] theorem setN_rep (o : Obj) (v : Nat) (s : State) : (setN s o v).rep = s.rep := rfl
@[simp] theorem setN_pkgEnergy (o : Obj) (v : Nat) (s : State) : (setN s o v).pkgEnergy = s.pkgEnergy := rfl
@[simp] theorem setN_oda (o : Obj) (v : Nat) (s : State) : (setN s o v).oda = s.oda := rfl
@[simp] theorem setN_port (o : Obj) (v : Nat) (s : State) : (setN s o v).port = s.port := rfl
@[simp] theorem setN_eng (o : Obj) (v : Nat) (s : State) : (setN s o v).eng = s.eng := rfl
@[simp] theorem setN_img (o : Obj) (v : Nat) (s : State) : (setN s o v).img = s.img := rfl
@[simp] theorem setN_ani (o : Obj) (v : Nat) (s : State) : (setN s o v).ani = s.ani := rfl
@[simp] theorem setN_mem (o : Obj) (v : Nat) (s : State) : (setN s o v).mem = s.mem := rfl
@[simp] theorem setN_bar (o : Obj) (v : Nat) (s : State) : (setN s o v).bar = s.bar := rfl
@[simp] theorem setN_cardamom (o : Obj) (v : Nat) (s : State) : (setN s o v).cardamom = s.cardamom := rfl
@[simp] theorem setN_ident (o : Obj) (v : Nat) (s : State) : (setN s o v).ident = s.ident := rfl
@[simp] theorem setN_free (o : Obj) (v : Nat) (s : State) : (setN s o v).free = s.free := rfl

/-! ## setBlob -/

@[simp] theorem setBlob_blobs (k : Nat) (bs : List Byte) (s : State) : (setBlob s k bs).blobs = putBlob s.blobs k bs := rfl
@[simp] theorem setBlob_pending (k : Nat) (bs : List Byte) (s : State) : (setBlob s k bs).pending = s.pending := rfl
@[simp] theorem setBlob_nums (k : Nat) (bs : List Byte) (s : State) : (setBlob s k bs).nums = s.nums := rfl
@[simp] theorem setBlob_clk (k : Nat) (bs : List Byte) (s : State) : (setBlob s k bs).clk = s.clk := rfl
@[simp] theorem setBlob_pow (k : Nat) (bs : List Byte) (s : State) : (setBlob s k bs).pow = s.pow := rfl
@[simp] theorem setBlob_br (k : Nat) (bs : List Byte) (s : State) : (setBlob s k bs).br = s.br := rfl
@[simp] theorem setBlob_sq (k : Nat) (bs : List Byte) (s : State) : (setBlob s k bs).sq = s.sq := rfl
@[simp] theorem setBlob_acc (k : Nat) (bs : List Byte) (s : State) : (setBlob s k bs).acc = s.acc := rfl
@[simp] theorem setBlob_heat (k : Nat) (bs : List Byte) (s : State) : (setBlob s k bs).heat = s.heat := rfl
@[simp] theorem setBlob_cool (k : Nat) (bs : List Byte) (s : State) : (setBlob s k bs).cool = s.cool := rfl
@[simp] theorem setBlob_part (k : Nat) (bs : List Byte) (s : State) : (setBlob s k bs).part = s.part := rfl
@[simp] theorem setBlob_ev (k : Nat) (bs : List Byte) (s : State) : (setBlob s k bs).ev = s.ev := rfl
@[simp] theorem setBlob_nut (k : Nat) (bs : List Byte) (s : State) : (setBlob s k bs).nut = s.nut := rfl
@[simp] theorem setBlob_rep (k : Nat) (bs : List Byte) (s : State) : (setBlob s k bs).rep = s.rep := rfl
@[simp] theorem setBlob_pkgEnergy (k : Nat) (bs : List Byte) (s : State) : (setBlob s k bs).pkgEnergy = s.pkgEnergy := rfl
@[simp] theorem setBlob_oda (k : Nat) (bs : List Byte) (s : State) : (setBlob s k bs).oda = s.oda := rfl
@[simp] theorem setBlob_port (k : Nat) (bs : List Byte) (s : State) : (setBlob s k bs).port = s.port := rfl
@[simp] theorem setBlob_eng (k : Nat) (bs : List Byte) (s : State) : (setBlob s k bs).eng = s.eng := rfl
@[simp] theorem setBlob_img (k : Nat) (bs : List Byte) (s : State) : (setBlob s k bs).img = s.img := rfl
@[simp] theorem setBlob_ani (k : Nat) (bs : List Byte) (s : State) : (setBlob s k bs).ani = s.ani := rfl
@[simp] theorem setBlob_mem (k : Nat) (bs : List Byte) (s : State) : (setBlob s k bs).mem = s.mem := rfl
@[simp] theorem setBlob_bar (k : Nat) (bs : List Byte) (s : State) : (setBlob s k bs).bar = s.bar := rfl
@[simp] theorem setBlob_cardamom (k : Nat) (bs : List Byte) (s : State) : (setBlob s k bs).cardamom = s.cardamom := rfl
@[simp] theorem setBlob_ident (k : Nat) (bs : List Byte) (s : State) : (setBlob s k bs).ident = s.ident := rfl
@[simp] theorem setBlob_free (k : Nat) (bs : List Byte) (s : State) : (setBlob s k bs).free = s.free := rfl

/-! ## run -/

@[simp] theorem run_clk (n : Nat) (s : State) : (run n s).clk = s.clk.run (getN s Obj.slewMaxPpm) n := rfl
@[simp] theorem run_pending (n : Nat) (s : State) : (run n s).pending = s.pending := rfl
@[simp] theorem run_nums (n : Nat) (s : State) : (run n s).nums = s.nums := rfl
@[simp] theorem run_blobs (n : Nat) (s : State) : (run n s).blobs = s.blobs := rfl
@[simp] theorem run_pow (n : Nat) (s : State) : (run n s).pow = s.pow := rfl
@[simp] theorem run_br (n : Nat) (s : State) : (run n s).br = s.br := rfl
@[simp] theorem run_sq (n : Nat) (s : State) : (run n s).sq = s.sq := rfl
@[simp] theorem run_acc (n : Nat) (s : State) : (run n s).acc = s.acc := rfl
@[simp] theorem run_heat (n : Nat) (s : State) : (run n s).heat = s.heat := rfl
@[simp] theorem run_cool (n : Nat) (s : State) : (run n s).cool = s.cool := rfl
@[simp] theorem run_part (n : Nat) (s : State) : (run n s).part = s.part := rfl
@[simp] theorem run_ev (n : Nat) (s : State) : (run n s).ev = s.ev := rfl
@[simp] theorem run_nut (n : Nat) (s : State) : (run n s).nut = s.nut := rfl
@[simp] theorem run_rep (n : Nat) (s : State) : (run n s).rep = s.rep := rfl
@[simp] theorem run_pkgEnergy (n : Nat) (s : State) : (run n s).pkgEnergy = s.pkgEnergy := rfl
@[simp] theorem run_oda (n : Nat) (s : State) : (run n s).oda = s.oda := rfl
@[simp] theorem run_port (n : Nat) (s : State) : (run n s).port = s.port := rfl
@[simp] theorem run_eng (n : Nat) (s : State) : (run n s).eng = s.eng := rfl
@[simp] theorem run_img (n : Nat) (s : State) : (run n s).img = s.img := rfl
@[simp] theorem run_ani (n : Nat) (s : State) : (run n s).ani = s.ani := rfl
@[simp] theorem run_mem (n : Nat) (s : State) : (run n s).mem = s.mem := rfl
@[simp] theorem run_bar (n : Nat) (s : State) : (run n s).bar = s.bar := rfl
@[simp] theorem run_cardamom (n : Nat) (s : State) : (run n s).cardamom = s.cardamom := rfl
@[simp] theorem run_ident (n : Nat) (s : State) : (run n s).ident = s.ident := rfl
@[simp] theorem run_free (n : Nat) (s : State) : (run n s).free = s.free := rfl

/-! ## setClk -/

@[simp] theorem setClk_clk (f : Clock → Clock) (s : State) : (setClk f s).clk = f s.clk := rfl
@[simp] theorem setClk_pending (f : Clock → Clock) (s : State) : (setClk f s).pending = s.pending := rfl
@[simp] theorem setClk_nums (f : Clock → Clock) (s : State) : (setClk f s).nums = s.nums := rfl
@[simp] theorem setClk_blobs (f : Clock → Clock) (s : State) : (setClk f s).blobs = s.blobs := rfl
@[simp] theorem setClk_pow (f : Clock → Clock) (s : State) : (setClk f s).pow = s.pow := rfl
@[simp] theorem setClk_br (f : Clock → Clock) (s : State) : (setClk f s).br = s.br := rfl
@[simp] theorem setClk_sq (f : Clock → Clock) (s : State) : (setClk f s).sq = s.sq := rfl
@[simp] theorem setClk_acc (f : Clock → Clock) (s : State) : (setClk f s).acc = s.acc := rfl
@[simp] theorem setClk_heat (f : Clock → Clock) (s : State) : (setClk f s).heat = s.heat := rfl
@[simp] theorem setClk_cool (f : Clock → Clock) (s : State) : (setClk f s).cool = s.cool := rfl
@[simp] theorem setClk_part (f : Clock → Clock) (s : State) : (setClk f s).part = s.part := rfl
@[simp] theorem setClk_ev (f : Clock → Clock) (s : State) : (setClk f s).ev = s.ev := rfl
@[simp] theorem setClk_nut (f : Clock → Clock) (s : State) : (setClk f s).nut = s.nut := rfl
@[simp] theorem setClk_rep (f : Clock → Clock) (s : State) : (setClk f s).rep = s.rep := rfl
@[simp] theorem setClk_pkgEnergy (f : Clock → Clock) (s : State) : (setClk f s).pkgEnergy = s.pkgEnergy := rfl
@[simp] theorem setClk_oda (f : Clock → Clock) (s : State) : (setClk f s).oda = s.oda := rfl
@[simp] theorem setClk_port (f : Clock → Clock) (s : State) : (setClk f s).port = s.port := rfl
@[simp] theorem setClk_eng (f : Clock → Clock) (s : State) : (setClk f s).eng = s.eng := rfl
@[simp] theorem setClk_img (f : Clock → Clock) (s : State) : (setClk f s).img = s.img := rfl
@[simp] theorem setClk_ani (f : Clock → Clock) (s : State) : (setClk f s).ani = s.ani := rfl
@[simp] theorem setClk_mem (f : Clock → Clock) (s : State) : (setClk f s).mem = s.mem := rfl
@[simp] theorem setClk_bar (f : Clock → Clock) (s : State) : (setClk f s).bar = s.bar := rfl
@[simp] theorem setClk_cardamom (f : Clock → Clock) (s : State) : (setClk f s).cardamom = s.cardamom := rfl
@[simp] theorem setClk_ident (f : Clock → Clock) (s : State) : (setClk f s).ident = s.ident := rfl
@[simp] theorem setClk_free (f : Clock → Clock) (s : State) : (setClk f s).free = s.free := rfl

/-! ## setPow -/

@[simp] theorem setPow_pow (f : Power → Power) (s : State) : (setPow f s).pow = f s.pow := rfl
@[simp] theorem setPow_pending (f : Power → Power) (s : State) : (setPow f s).pending = s.pending := rfl
@[simp] theorem setPow_nums (f : Power → Power) (s : State) : (setPow f s).nums = s.nums := rfl
@[simp] theorem setPow_blobs (f : Power → Power) (s : State) : (setPow f s).blobs = s.blobs := rfl
@[simp] theorem setPow_clk (f : Power → Power) (s : State) : (setPow f s).clk = s.clk := rfl
@[simp] theorem setPow_br (f : Power → Power) (s : State) : (setPow f s).br = s.br := rfl
@[simp] theorem setPow_sq (f : Power → Power) (s : State) : (setPow f s).sq = s.sq := rfl
@[simp] theorem setPow_acc (f : Power → Power) (s : State) : (setPow f s).acc = s.acc := rfl
@[simp] theorem setPow_heat (f : Power → Power) (s : State) : (setPow f s).heat = s.heat := rfl
@[simp] theorem setPow_cool (f : Power → Power) (s : State) : (setPow f s).cool = s.cool := rfl
@[simp] theorem setPow_part (f : Power → Power) (s : State) : (setPow f s).part = s.part := rfl
@[simp] theorem setPow_ev (f : Power → Power) (s : State) : (setPow f s).ev = s.ev := rfl
@[simp] theorem setPow_nut (f : Power → Power) (s : State) : (setPow f s).nut = s.nut := rfl
@[simp] theorem setPow_rep (f : Power → Power) (s : State) : (setPow f s).rep = s.rep := rfl
@[simp] theorem setPow_pkgEnergy (f : Power → Power) (s : State) : (setPow f s).pkgEnergy = s.pkgEnergy := rfl
@[simp] theorem setPow_oda (f : Power → Power) (s : State) : (setPow f s).oda = s.oda := rfl
@[simp] theorem setPow_port (f : Power → Power) (s : State) : (setPow f s).port = s.port := rfl
@[simp] theorem setPow_eng (f : Power → Power) (s : State) : (setPow f s).eng = s.eng := rfl
@[simp] theorem setPow_img (f : Power → Power) (s : State) : (setPow f s).img = s.img := rfl
@[simp] theorem setPow_ani (f : Power → Power) (s : State) : (setPow f s).ani = s.ani := rfl
@[simp] theorem setPow_mem (f : Power → Power) (s : State) : (setPow f s).mem = s.mem := rfl
@[simp] theorem setPow_bar (f : Power → Power) (s : State) : (setPow f s).bar = s.bar := rfl
@[simp] theorem setPow_cardamom (f : Power → Power) (s : State) : (setPow f s).cardamom = s.cardamom := rfl
@[simp] theorem setPow_ident (f : Power → Power) (s : State) : (setPow f s).ident = s.ident := rfl
@[simp] theorem setPow_free (f : Power → Power) (s : State) : (setPow f s).free = s.free := rfl

/-! ## setHeat -/

@[simp] theorem setHeat_heat (f : Heat → Heat) (s : State) : (setHeat f s).heat = f s.heat := rfl
@[simp] theorem setHeat_pending (f : Heat → Heat) (s : State) : (setHeat f s).pending = s.pending := rfl
@[simp] theorem setHeat_nums (f : Heat → Heat) (s : State) : (setHeat f s).nums = s.nums := rfl
@[simp] theorem setHeat_blobs (f : Heat → Heat) (s : State) : (setHeat f s).blobs = s.blobs := rfl
@[simp] theorem setHeat_clk (f : Heat → Heat) (s : State) : (setHeat f s).clk = s.clk := rfl
@[simp] theorem setHeat_pow (f : Heat → Heat) (s : State) : (setHeat f s).pow = s.pow := rfl
@[simp] theorem setHeat_br (f : Heat → Heat) (s : State) : (setHeat f s).br = s.br := rfl
@[simp] theorem setHeat_sq (f : Heat → Heat) (s : State) : (setHeat f s).sq = s.sq := rfl
@[simp] theorem setHeat_acc (f : Heat → Heat) (s : State) : (setHeat f s).acc = s.acc := rfl
@[simp] theorem setHeat_cool (f : Heat → Heat) (s : State) : (setHeat f s).cool = s.cool := rfl
@[simp] theorem setHeat_part (f : Heat → Heat) (s : State) : (setHeat f s).part = s.part := rfl
@[simp] theorem setHeat_ev (f : Heat → Heat) (s : State) : (setHeat f s).ev = s.ev := rfl
@[simp] theorem setHeat_nut (f : Heat → Heat) (s : State) : (setHeat f s).nut = s.nut := rfl
@[simp] theorem setHeat_rep (f : Heat → Heat) (s : State) : (setHeat f s).rep = s.rep := rfl
@[simp] theorem setHeat_pkgEnergy (f : Heat → Heat) (s : State) : (setHeat f s).pkgEnergy = s.pkgEnergy := rfl
@[simp] theorem setHeat_oda (f : Heat → Heat) (s : State) : (setHeat f s).oda = s.oda := rfl
@[simp] theorem setHeat_port (f : Heat → Heat) (s : State) : (setHeat f s).port = s.port := rfl
@[simp] theorem setHeat_eng (f : Heat → Heat) (s : State) : (setHeat f s).eng = s.eng := rfl
@[simp] theorem setHeat_img (f : Heat → Heat) (s : State) : (setHeat f s).img = s.img := rfl
@[simp] theorem setHeat_ani (f : Heat → Heat) (s : State) : (setHeat f s).ani = s.ani := rfl
@[simp] theorem setHeat_mem (f : Heat → Heat) (s : State) : (setHeat f s).mem = s.mem := rfl
@[simp] theorem setHeat_bar (f : Heat → Heat) (s : State) : (setHeat f s).bar = s.bar := rfl
@[simp] theorem setHeat_cardamom (f : Heat → Heat) (s : State) : (setHeat f s).cardamom = s.cardamom := rfl
@[simp] theorem setHeat_ident (f : Heat → Heat) (s : State) : (setHeat f s).ident = s.ident := rfl
@[simp] theorem setHeat_free (f : Heat → Heat) (s : State) : (setHeat f s).free = s.free := rfl

/-! ## setPart -/

@[simp] theorem setPart_part (f : Part → Part) (s : State) : (setPart f s).part = f s.part := rfl
@[simp] theorem setPart_pending (f : Part → Part) (s : State) : (setPart f s).pending = s.pending := rfl
@[simp] theorem setPart_nums (f : Part → Part) (s : State) : (setPart f s).nums = s.nums := rfl
@[simp] theorem setPart_blobs (f : Part → Part) (s : State) : (setPart f s).blobs = s.blobs := rfl
@[simp] theorem setPart_clk (f : Part → Part) (s : State) : (setPart f s).clk = s.clk := rfl
@[simp] theorem setPart_pow (f : Part → Part) (s : State) : (setPart f s).pow = s.pow := rfl
@[simp] theorem setPart_br (f : Part → Part) (s : State) : (setPart f s).br = s.br := rfl
@[simp] theorem setPart_sq (f : Part → Part) (s : State) : (setPart f s).sq = s.sq := rfl
@[simp] theorem setPart_acc (f : Part → Part) (s : State) : (setPart f s).acc = s.acc := rfl
@[simp] theorem setPart_heat (f : Part → Part) (s : State) : (setPart f s).heat = s.heat := rfl
@[simp] theorem setPart_cool (f : Part → Part) (s : State) : (setPart f s).cool = s.cool := rfl
@[simp] theorem setPart_ev (f : Part → Part) (s : State) : (setPart f s).ev = s.ev := rfl
@[simp] theorem setPart_nut (f : Part → Part) (s : State) : (setPart f s).nut = s.nut := rfl
@[simp] theorem setPart_rep (f : Part → Part) (s : State) : (setPart f s).rep = s.rep := rfl
@[simp] theorem setPart_pkgEnergy (f : Part → Part) (s : State) : (setPart f s).pkgEnergy = s.pkgEnergy := rfl
@[simp] theorem setPart_oda (f : Part → Part) (s : State) : (setPart f s).oda = s.oda := rfl
@[simp] theorem setPart_port (f : Part → Part) (s : State) : (setPart f s).port = s.port := rfl
@[simp] theorem setPart_eng (f : Part → Part) (s : State) : (setPart f s).eng = s.eng := rfl
@[simp] theorem setPart_img (f : Part → Part) (s : State) : (setPart f s).img = s.img := rfl
@[simp] theorem setPart_ani (f : Part → Part) (s : State) : (setPart f s).ani = s.ani := rfl
@[simp] theorem setPart_mem (f : Part → Part) (s : State) : (setPart f s).mem = s.mem := rfl
@[simp] theorem setPart_bar (f : Part → Part) (s : State) : (setPart f s).bar = s.bar := rfl
@[simp] theorem setPart_cardamom (f : Part → Part) (s : State) : (setPart f s).cardamom = s.cardamom := rfl
@[simp] theorem setPart_ident (f : Part → Part) (s : State) : (setPart f s).ident = s.ident := rfl
@[simp] theorem setPart_free (f : Part → Part) (s : State) : (setPart f s).free = s.free := rfl

/-! ## setNut -/

@[simp] theorem setNut_nut (f : Nutmeg → Nutmeg) (s : State) : (setNut f s).nut = f s.nut := rfl
@[simp] theorem setNut_pending (f : Nutmeg → Nutmeg) (s : State) : (setNut f s).pending = s.pending := rfl
@[simp] theorem setNut_nums (f : Nutmeg → Nutmeg) (s : State) : (setNut f s).nums = s.nums := rfl
@[simp] theorem setNut_blobs (f : Nutmeg → Nutmeg) (s : State) : (setNut f s).blobs = s.blobs := rfl
@[simp] theorem setNut_clk (f : Nutmeg → Nutmeg) (s : State) : (setNut f s).clk = s.clk := rfl
@[simp] theorem setNut_pow (f : Nutmeg → Nutmeg) (s : State) : (setNut f s).pow = s.pow := rfl
@[simp] theorem setNut_br (f : Nutmeg → Nutmeg) (s : State) : (setNut f s).br = s.br := rfl
@[simp] theorem setNut_sq (f : Nutmeg → Nutmeg) (s : State) : (setNut f s).sq = s.sq := rfl
@[simp] theorem setNut_acc (f : Nutmeg → Nutmeg) (s : State) : (setNut f s).acc = s.acc := rfl
@[simp] theorem setNut_heat (f : Nutmeg → Nutmeg) (s : State) : (setNut f s).heat = s.heat := rfl
@[simp] theorem setNut_cool (f : Nutmeg → Nutmeg) (s : State) : (setNut f s).cool = s.cool := rfl
@[simp] theorem setNut_part (f : Nutmeg → Nutmeg) (s : State) : (setNut f s).part = s.part := rfl
@[simp] theorem setNut_ev (f : Nutmeg → Nutmeg) (s : State) : (setNut f s).ev = s.ev := rfl
@[simp] theorem setNut_rep (f : Nutmeg → Nutmeg) (s : State) : (setNut f s).rep = s.rep := rfl
@[simp] theorem setNut_pkgEnergy (f : Nutmeg → Nutmeg) (s : State) : (setNut f s).pkgEnergy = s.pkgEnergy := rfl
@[simp] theorem setNut_oda (f : Nutmeg → Nutmeg) (s : State) : (setNut f s).oda = s.oda := rfl
@[simp] theorem setNut_port (f : Nutmeg → Nutmeg) (s : State) : (setNut f s).port = s.port := rfl
@[simp] theorem setNut_eng (f : Nutmeg → Nutmeg) (s : State) : (setNut f s).eng = s.eng := rfl
@[simp] theorem setNut_img (f : Nutmeg → Nutmeg) (s : State) : (setNut f s).img = s.img := rfl
@[simp] theorem setNut_ani (f : Nutmeg → Nutmeg) (s : State) : (setNut f s).ani = s.ani := rfl
@[simp] theorem setNut_mem (f : Nutmeg → Nutmeg) (s : State) : (setNut f s).mem = s.mem := rfl
@[simp] theorem setNut_bar (f : Nutmeg → Nutmeg) (s : State) : (setNut f s).bar = s.bar := rfl
@[simp] theorem setNut_cardamom (f : Nutmeg → Nutmeg) (s : State) : (setNut f s).cardamom = s.cardamom := rfl
@[simp] theorem setNut_ident (f : Nutmeg → Nutmeg) (s : State) : (setNut f s).ident = s.ident := rfl
@[simp] theorem setNut_free (f : Nutmeg → Nutmeg) (s : State) : (setNut f s).free = s.free := rfl

/-! ## setOda -/

@[simp] theorem setOda_oda (f : Oda → Oda) (s : State) : (setOda f s).oda = f s.oda := rfl
@[simp] theorem setOda_pending (f : Oda → Oda) (s : State) : (setOda f s).pending = s.pending := rfl
@[simp] theorem setOda_nums (f : Oda → Oda) (s : State) : (setOda f s).nums = s.nums := rfl
@[simp] theorem setOda_blobs (f : Oda → Oda) (s : State) : (setOda f s).blobs = s.blobs := rfl
@[simp] theorem setOda_clk (f : Oda → Oda) (s : State) : (setOda f s).clk = s.clk := rfl
@[simp] theorem setOda_pow (f : Oda → Oda) (s : State) : (setOda f s).pow = s.pow := rfl
@[simp] theorem setOda_br (f : Oda → Oda) (s : State) : (setOda f s).br = s.br := rfl
@[simp] theorem setOda_sq (f : Oda → Oda) (s : State) : (setOda f s).sq = s.sq := rfl
@[simp] theorem setOda_acc (f : Oda → Oda) (s : State) : (setOda f s).acc = s.acc := rfl
@[simp] theorem setOda_heat (f : Oda → Oda) (s : State) : (setOda f s).heat = s.heat := rfl
@[simp] theorem setOda_cool (f : Oda → Oda) (s : State) : (setOda f s).cool = s.cool := rfl
@[simp] theorem setOda_part (f : Oda → Oda) (s : State) : (setOda f s).part = s.part := rfl
@[simp] theorem setOda_ev (f : Oda → Oda) (s : State) : (setOda f s).ev = s.ev := rfl
@[simp] theorem setOda_nut (f : Oda → Oda) (s : State) : (setOda f s).nut = s.nut := rfl
@[simp] theorem setOda_rep (f : Oda → Oda) (s : State) : (setOda f s).rep = s.rep := rfl
@[simp] theorem setOda_pkgEnergy (f : Oda → Oda) (s : State) : (setOda f s).pkgEnergy = s.pkgEnergy := rfl
@[simp] theorem setOda_port (f : Oda → Oda) (s : State) : (setOda f s).port = s.port := rfl
@[simp] theorem setOda_eng (f : Oda → Oda) (s : State) : (setOda f s).eng = s.eng := rfl
@[simp] theorem setOda_img (f : Oda → Oda) (s : State) : (setOda f s).img = s.img := rfl
@[simp] theorem setOda_ani (f : Oda → Oda) (s : State) : (setOda f s).ani = s.ani := rfl
@[simp] theorem setOda_mem (f : Oda → Oda) (s : State) : (setOda f s).mem = s.mem := rfl
@[simp] theorem setOda_bar (f : Oda → Oda) (s : State) : (setOda f s).bar = s.bar := rfl
@[simp] theorem setOda_cardamom (f : Oda → Oda) (s : State) : (setOda f s).cardamom = s.cardamom := rfl
@[simp] theorem setOda_ident (f : Oda → Oda) (s : State) : (setOda f s).ident = s.ident := rfl
@[simp] theorem setOda_free (f : Oda → Oda) (s : State) : (setOda f s).free = s.free := rfl

/-! ## setEng -/

@[simp] theorem setEng_eng (f : Engine → Engine) (s : State) : (setEng f s).eng = f s.eng := rfl
@[simp] theorem setEng_pending (f : Engine → Engine) (s : State) : (setEng f s).pending = s.pending := rfl
@[simp] theorem setEng_nums (f : Engine → Engine) (s : State) : (setEng f s).nums = s.nums := rfl
@[simp] theorem setEng_blobs (f : Engine → Engine) (s : State) : (setEng f s).blobs = s.blobs := rfl
@[simp] theorem setEng_clk (f : Engine → Engine) (s : State) : (setEng f s).clk = s.clk := rfl
@[simp] theorem setEng_pow (f : Engine → Engine) (s : State) : (setEng f s).pow = s.pow := rfl
@[simp] theorem setEng_br (f : Engine → Engine) (s : State) : (setEng f s).br = s.br := rfl
@[simp] theorem setEng_sq (f : Engine → Engine) (s : State) : (setEng f s).sq = s.sq := rfl
@[simp] theorem setEng_acc (f : Engine → Engine) (s : State) : (setEng f s).acc = s.acc := rfl
@[simp] theorem setEng_heat (f : Engine → Engine) (s : State) : (setEng f s).heat = s.heat := rfl
@[simp] theorem setEng_cool (f : Engine → Engine) (s : State) : (setEng f s).cool = s.cool := rfl
@[simp] theorem setEng_part (f : Engine → Engine) (s : State) : (setEng f s).part = s.part := rfl
@[simp] theorem setEng_ev (f : Engine → Engine) (s : State) : (setEng f s).ev = s.ev := rfl
@[simp] theorem setEng_nut (f : Engine → Engine) (s : State) : (setEng f s).nut = s.nut := rfl
@[simp] theorem setEng_rep (f : Engine → Engine) (s : State) : (setEng f s).rep = s.rep := rfl
@[simp] theorem setEng_pkgEnergy (f : Engine → Engine) (s : State) : (setEng f s).pkgEnergy = s.pkgEnergy := rfl
@[simp] theorem setEng_oda (f : Engine → Engine) (s : State) : (setEng f s).oda = s.oda := rfl
@[simp] theorem setEng_port (f : Engine → Engine) (s : State) : (setEng f s).port = s.port := rfl
@[simp] theorem setEng_img (f : Engine → Engine) (s : State) : (setEng f s).img = s.img := rfl
@[simp] theorem setEng_ani (f : Engine → Engine) (s : State) : (setEng f s).ani = s.ani := rfl
@[simp] theorem setEng_mem (f : Engine → Engine) (s : State) : (setEng f s).mem = s.mem := rfl
@[simp] theorem setEng_bar (f : Engine → Engine) (s : State) : (setEng f s).bar = s.bar := rfl
@[simp] theorem setEng_cardamom (f : Engine → Engine) (s : State) : (setEng f s).cardamom = s.cardamom := rfl
@[simp] theorem setEng_ident (f : Engine → Engine) (s : State) : (setEng f s).ident = s.ident := rfl
@[simp] theorem setEng_free (f : Engine → Engine) (s : State) : (setEng f s).free = s.free := rfl

/-! ## setImg -/

@[simp] theorem setImg_img (f : Images → Images) (s : State) : (setImg f s).img = f s.img := rfl
@[simp] theorem setImg_pending (f : Images → Images) (s : State) : (setImg f s).pending = s.pending := rfl
@[simp] theorem setImg_nums (f : Images → Images) (s : State) : (setImg f s).nums = s.nums := rfl
@[simp] theorem setImg_blobs (f : Images → Images) (s : State) : (setImg f s).blobs = s.blobs := rfl
@[simp] theorem setImg_clk (f : Images → Images) (s : State) : (setImg f s).clk = s.clk := rfl
@[simp] theorem setImg_pow (f : Images → Images) (s : State) : (setImg f s).pow = s.pow := rfl
@[simp] theorem setImg_br (f : Images → Images) (s : State) : (setImg f s).br = s.br := rfl
@[simp] theorem setImg_sq (f : Images → Images) (s : State) : (setImg f s).sq = s.sq := rfl
@[simp] theorem setImg_acc (f : Images → Images) (s : State) : (setImg f s).acc = s.acc := rfl
@[simp] theorem setImg_heat (f : Images → Images) (s : State) : (setImg f s).heat = s.heat := rfl
@[simp] theorem setImg_cool (f : Images → Images) (s : State) : (setImg f s).cool = s.cool := rfl
@[simp] theorem setImg_part (f : Images → Images) (s : State) : (setImg f s).part = s.part := rfl
@[simp] theorem setImg_ev (f : Images → Images) (s : State) : (setImg f s).ev = s.ev := rfl
@[simp] theorem setImg_nut (f : Images → Images) (s : State) : (setImg f s).nut = s.nut := rfl
@[simp] theorem setImg_rep (f : Images → Images) (s : State) : (setImg f s).rep = s.rep := rfl
@[simp] theorem setImg_pkgEnergy (f : Images → Images) (s : State) : (setImg f s).pkgEnergy = s.pkgEnergy := rfl
@[simp] theorem setImg_oda (f : Images → Images) (s : State) : (setImg f s).oda = s.oda := rfl
@[simp] theorem setImg_port (f : Images → Images) (s : State) : (setImg f s).port = s.port := rfl
@[simp] theorem setImg_eng (f : Images → Images) (s : State) : (setImg f s).eng = s.eng := rfl
@[simp] theorem setImg_ani (f : Images → Images) (s : State) : (setImg f s).ani = s.ani := rfl
@[simp] theorem setImg_mem (f : Images → Images) (s : State) : (setImg f s).mem = s.mem := rfl
@[simp] theorem setImg_bar (f : Images → Images) (s : State) : (setImg f s).bar = s.bar := rfl
@[simp] theorem setImg_cardamom (f : Images → Images) (s : State) : (setImg f s).cardamom = s.cardamom := rfl
@[simp] theorem setImg_ident (f : Images → Images) (s : State) : (setImg f s).ident = s.ident := rfl
@[simp] theorem setImg_free (f : Images → Images) (s : State) : (setImg f s).free = s.free := rfl

/-! ## setAni -/

@[simp] theorem setAni_ani (f : Anise → Anise) (s : State) : (setAni f s).ani = f s.ani := rfl
@[simp] theorem setAni_pending (f : Anise → Anise) (s : State) : (setAni f s).pending = s.pending := rfl
@[simp] theorem setAni_nums (f : Anise → Anise) (s : State) : (setAni f s).nums = s.nums := rfl
@[simp] theorem setAni_blobs (f : Anise → Anise) (s : State) : (setAni f s).blobs = s.blobs := rfl
@[simp] theorem setAni_clk (f : Anise → Anise) (s : State) : (setAni f s).clk = s.clk := rfl
@[simp] theorem setAni_pow (f : Anise → Anise) (s : State) : (setAni f s).pow = s.pow := rfl
@[simp] theorem setAni_br (f : Anise → Anise) (s : State) : (setAni f s).br = s.br := rfl
@[simp] theorem setAni_sq (f : Anise → Anise) (s : State) : (setAni f s).sq = s.sq := rfl
@[simp] theorem setAni_acc (f : Anise → Anise) (s : State) : (setAni f s).acc = s.acc := rfl
@[simp] theorem setAni_heat (f : Anise → Anise) (s : State) : (setAni f s).heat = s.heat := rfl
@[simp] theorem setAni_cool (f : Anise → Anise) (s : State) : (setAni f s).cool = s.cool := rfl
@[simp] theorem setAni_part (f : Anise → Anise) (s : State) : (setAni f s).part = s.part := rfl
@[simp] theorem setAni_ev (f : Anise → Anise) (s : State) : (setAni f s).ev = s.ev := rfl
@[simp] theorem setAni_nut (f : Anise → Anise) (s : State) : (setAni f s).nut = s.nut := rfl
@[simp] theorem setAni_rep (f : Anise → Anise) (s : State) : (setAni f s).rep = s.rep := rfl
@[simp] theorem setAni_pkgEnergy (f : Anise → Anise) (s : State) : (setAni f s).pkgEnergy = s.pkgEnergy := rfl
@[simp] theorem setAni_oda (f : Anise → Anise) (s : State) : (setAni f s).oda = s.oda := rfl
@[simp] theorem setAni_port (f : Anise → Anise) (s : State) : (setAni f s).port = s.port := rfl
@[simp] theorem setAni_eng (f : Anise → Anise) (s : State) : (setAni f s).eng = s.eng := rfl
@[simp] theorem setAni_img (f : Anise → Anise) (s : State) : (setAni f s).img = s.img := rfl
@[simp] theorem setAni_mem (f : Anise → Anise) (s : State) : (setAni f s).mem = s.mem := rfl
@[simp] theorem setAni_bar (f : Anise → Anise) (s : State) : (setAni f s).bar = s.bar := rfl
@[simp] theorem setAni_cardamom (f : Anise → Anise) (s : State) : (setAni f s).cardamom = s.cardamom := rfl
@[simp] theorem setAni_ident (f : Anise → Anise) (s : State) : (setAni f s).ident = s.ident := rfl
@[simp] theorem setAni_free (f : Anise → Anise) (s : State) : (setAni f s).free = s.free := rfl

/-! ## setMem -/

@[simp] theorem setMem_mem (f : Mem → Mem) (s : State) : (setMem f s).mem = f s.mem := rfl
@[simp] theorem setMem_pending (f : Mem → Mem) (s : State) : (setMem f s).pending = s.pending := rfl
@[simp] theorem setMem_nums (f : Mem → Mem) (s : State) : (setMem f s).nums = s.nums := rfl
@[simp] theorem setMem_blobs (f : Mem → Mem) (s : State) : (setMem f s).blobs = s.blobs := rfl
@[simp] theorem setMem_clk (f : Mem → Mem) (s : State) : (setMem f s).clk = s.clk := rfl
@[simp] theorem setMem_pow (f : Mem → Mem) (s : State) : (setMem f s).pow = s.pow := rfl
@[simp] theorem setMem_br (f : Mem → Mem) (s : State) : (setMem f s).br = s.br := rfl
@[simp] theorem setMem_sq (f : Mem → Mem) (s : State) : (setMem f s).sq = s.sq := rfl
@[simp] theorem setMem_acc (f : Mem → Mem) (s : State) : (setMem f s).acc = s.acc := rfl
@[simp] theorem setMem_heat (f : Mem → Mem) (s : State) : (setMem f s).heat = s.heat := rfl
@[simp] theorem setMem_cool (f : Mem → Mem) (s : State) : (setMem f s).cool = s.cool := rfl
@[simp] theorem setMem_part (f : Mem → Mem) (s : State) : (setMem f s).part = s.part := rfl
@[simp] theorem setMem_ev (f : Mem → Mem) (s : State) : (setMem f s).ev = s.ev := rfl
@[simp] theorem setMem_nut (f : Mem → Mem) (s : State) : (setMem f s).nut = s.nut := rfl
@[simp] theorem setMem_rep (f : Mem → Mem) (s : State) : (setMem f s).rep = s.rep := rfl
@[simp] theorem setMem_pkgEnergy (f : Mem → Mem) (s : State) : (setMem f s).pkgEnergy = s.pkgEnergy := rfl
@[simp] theorem setMem_oda (f : Mem → Mem) (s : State) : (setMem f s).oda = s.oda := rfl
@[simp] theorem setMem_port (f : Mem → Mem) (s : State) : (setMem f s).port = s.port := rfl
@[simp] theorem setMem_eng (f : Mem → Mem) (s : State) : (setMem f s).eng = s.eng := rfl
@[simp] theorem setMem_img (f : Mem → Mem) (s : State) : (setMem f s).img = s.img := rfl
@[simp] theorem setMem_ani (f : Mem → Mem) (s : State) : (setMem f s).ani = s.ani := rfl
@[simp] theorem setMem_bar (f : Mem → Mem) (s : State) : (setMem f s).bar = s.bar := rfl
@[simp] theorem setMem_cardamom (f : Mem → Mem) (s : State) : (setMem f s).cardamom = s.cardamom := rfl
@[simp] theorem setMem_ident (f : Mem → Mem) (s : State) : (setMem f s).ident = s.ident := rfl
@[simp] theorem setMem_free (f : Mem → Mem) (s : State) : (setMem f s).free = s.free := rfl

/-! ## setBar -/

@[simp] theorem setBar_bar (f : Barley → Barley) (s : State) : (setBar f s).bar = f s.bar := rfl
@[simp] theorem setBar_pending (f : Barley → Barley) (s : State) : (setBar f s).pending = s.pending := rfl
@[simp] theorem setBar_nums (f : Barley → Barley) (s : State) : (setBar f s).nums = s.nums := rfl
@[simp] theorem setBar_blobs (f : Barley → Barley) (s : State) : (setBar f s).blobs = s.blobs := rfl
@[simp] theorem setBar_clk (f : Barley → Barley) (s : State) : (setBar f s).clk = s.clk := rfl
@[simp] theorem setBar_pow (f : Barley → Barley) (s : State) : (setBar f s).pow = s.pow := rfl
@[simp] theorem setBar_br (f : Barley → Barley) (s : State) : (setBar f s).br = s.br := rfl
@[simp] theorem setBar_sq (f : Barley → Barley) (s : State) : (setBar f s).sq = s.sq := rfl
@[simp] theorem setBar_acc (f : Barley → Barley) (s : State) : (setBar f s).acc = s.acc := rfl
@[simp] theorem setBar_heat (f : Barley → Barley) (s : State) : (setBar f s).heat = s.heat := rfl
@[simp] theorem setBar_cool (f : Barley → Barley) (s : State) : (setBar f s).cool = s.cool := rfl
@[simp] theorem setBar_part (f : Barley → Barley) (s : State) : (setBar f s).part = s.part := rfl
@[simp] theorem setBar_ev (f : Barley → Barley) (s : State) : (setBar f s).ev = s.ev := rfl
@[simp] theorem setBar_nut (f : Barley → Barley) (s : State) : (setBar f s).nut = s.nut := rfl
@[simp] theorem setBar_rep (f : Barley → Barley) (s : State) : (setBar f s).rep = s.rep := rfl
@[simp] theorem setBar_pkgEnergy (f : Barley → Barley) (s : State) : (setBar f s).pkgEnergy = s.pkgEnergy := rfl
@[simp] theorem setBar_oda (f : Barley → Barley) (s : State) : (setBar f s).oda = s.oda := rfl
@[simp] theorem setBar_port (f : Barley → Barley) (s : State) : (setBar f s).port = s.port := rfl
@[simp] theorem setBar_eng (f : Barley → Barley) (s : State) : (setBar f s).eng = s.eng := rfl
@[simp] theorem setBar_img (f : Barley → Barley) (s : State) : (setBar f s).img = s.img := rfl
@[simp] theorem setBar_ani (f : Barley → Barley) (s : State) : (setBar f s).ani = s.ani := rfl
@[simp] theorem setBar_mem (f : Barley → Barley) (s : State) : (setBar f s).mem = s.mem := rfl
@[simp] theorem setBar_cardamom (f : Barley → Barley) (s : State) : (setBar f s).cardamom = s.cardamom := rfl
@[simp] theorem setBar_ident (f : Barley → Barley) (s : State) : (setBar f s).ident = s.ident := rfl
@[simp] theorem setBar_free (f : Barley → Barley) (s : State) : (setBar f s).free = s.free := rfl

/-! ## setSec -/

@[simp] theorem setSec_cardamom (f : Security → Security) (s : State) : (setSec f s).cardamom = f s.cardamom := rfl
@[simp] theorem setSec_pending (f : Security → Security) (s : State) : (setSec f s).pending = s.pending := rfl
@[simp] theorem setSec_nums (f : Security → Security) (s : State) : (setSec f s).nums = s.nums := rfl
@[simp] theorem setSec_blobs (f : Security → Security) (s : State) : (setSec f s).blobs = s.blobs := rfl
@[simp] theorem setSec_clk (f : Security → Security) (s : State) : (setSec f s).clk = s.clk := rfl
@[simp] theorem setSec_pow (f : Security → Security) (s : State) : (setSec f s).pow = s.pow := rfl
@[simp] theorem setSec_br (f : Security → Security) (s : State) : (setSec f s).br = s.br := rfl
@[simp] theorem setSec_sq (f : Security → Security) (s : State) : (setSec f s).sq = s.sq := rfl
@[simp] theorem setSec_acc (f : Security → Security) (s : State) : (setSec f s).acc = s.acc := rfl
@[simp] theorem setSec_heat (f : Security → Security) (s : State) : (setSec f s).heat = s.heat := rfl
@[simp] theorem setSec_cool (f : Security → Security) (s : State) : (setSec f s).cool = s.cool := rfl
@[simp] theorem setSec_part (f : Security → Security) (s : State) : (setSec f s).part = s.part := rfl
@[simp] theorem setSec_ev (f : Security → Security) (s : State) : (setSec f s).ev = s.ev := rfl
@[simp] theorem setSec_nut (f : Security → Security) (s : State) : (setSec f s).nut = s.nut := rfl
@[simp] theorem setSec_rep (f : Security → Security) (s : State) : (setSec f s).rep = s.rep := rfl
@[simp] theorem setSec_pkgEnergy (f : Security → Security) (s : State) : (setSec f s).pkgEnergy = s.pkgEnergy := rfl
@[simp] theorem setSec_oda (f : Security → Security) (s : State) : (setSec f s).oda = s.oda := rfl
@[simp] theorem setSec_port (f : Security → Security) (s : State) : (setSec f s).port = s.port := rfl
@[simp] theorem setSec_eng (f : Security → Security) (s : State) : (setSec f s).eng = s.eng := rfl
@[simp] theorem setSec_img (f : Security → Security) (s : State) : (setSec f s).img = s.img := rfl
@[simp] theorem setSec_ani (f : Security → Security) (s : State) : (setSec f s).ani = s.ani := rfl
@[simp] theorem setSec_mem (f : Security → Security) (s : State) : (setSec f s).mem = s.mem := rfl
@[simp] theorem setSec_bar (f : Security → Security) (s : State) : (setSec f s).bar = s.bar := rfl
@[simp] theorem setSec_ident (f : Security → Security) (s : State) : (setSec f s).ident = s.ident := rfl
@[simp] theorem setSec_free (f : Security → Security) (s : State) : (setSec f s).free = s.free := rfl

/-! ## takeFree -/

@[simp] theorem takeFree_free (w : Nat) (s : State) : ((takeFree w s).2).free = s.free + 1 := rfl
@[simp] theorem takeFree_pending (w : Nat) (s : State) : ((takeFree w s).2).pending = s.pending := rfl
@[simp] theorem takeFree_nums (w : Nat) (s : State) : ((takeFree w s).2).nums = s.nums := rfl
@[simp] theorem takeFree_blobs (w : Nat) (s : State) : ((takeFree w s).2).blobs = s.blobs := rfl
@[simp] theorem takeFree_clk (w : Nat) (s : State) : ((takeFree w s).2).clk = s.clk := rfl
@[simp] theorem takeFree_pow (w : Nat) (s : State) : ((takeFree w s).2).pow = s.pow := rfl
@[simp] theorem takeFree_br (w : Nat) (s : State) : ((takeFree w s).2).br = s.br := rfl
@[simp] theorem takeFree_sq (w : Nat) (s : State) : ((takeFree w s).2).sq = s.sq := rfl
@[simp] theorem takeFree_acc (w : Nat) (s : State) : ((takeFree w s).2).acc = s.acc := rfl
@[simp] theorem takeFree_heat (w : Nat) (s : State) : ((takeFree w s).2).heat = s.heat := rfl
@[simp] theorem takeFree_cool (w : Nat) (s : State) : ((takeFree w s).2).cool = s.cool := rfl
@[simp] theorem takeFree_part (w : Nat) (s : State) : ((takeFree w s).2).part = s.part := rfl
@[simp] theorem takeFree_ev (w : Nat) (s : State) : ((takeFree w s).2).ev = s.ev := rfl
@[simp] theorem takeFree_nut (w : Nat) (s : State) : ((takeFree w s).2).nut = s.nut := rfl
@[simp] theorem takeFree_rep (w : Nat) (s : State) : ((takeFree w s).2).rep = s.rep := rfl
@[simp] theorem takeFree_pkgEnergy (w : Nat) (s : State) : ((takeFree w s).2).pkgEnergy = s.pkgEnergy := rfl
@[simp] theorem takeFree_oda (w : Nat) (s : State) : ((takeFree w s).2).oda = s.oda := rfl
@[simp] theorem takeFree_port (w : Nat) (s : State) : ((takeFree w s).2).port = s.port := rfl
@[simp] theorem takeFree_eng (w : Nat) (s : State) : ((takeFree w s).2).eng = s.eng := rfl
@[simp] theorem takeFree_img (w : Nat) (s : State) : ((takeFree w s).2).img = s.img := rfl
@[simp] theorem takeFree_ani (w : Nat) (s : State) : ((takeFree w s).2).ani = s.ani := rfl
@[simp] theorem takeFree_mem (w : Nat) (s : State) : ((takeFree w s).2).mem = s.mem := rfl
@[simp] theorem takeFree_bar (w : Nat) (s : State) : ((takeFree w s).2).bar = s.bar := rfl
@[simp] theorem takeFree_cardamom (w : Nat) (s : State) : ((takeFree w s).2).cardamom = s.cardamom := rfl
@[simp] theorem takeFree_ident (w : Nat) (s : State) : ((takeFree w s).2).ident = s.ident := rfl

/-! ## The clock -/

/-- Moving the clock to a deadline changes nothing but the clock. -/
@[simp] theorem tickTo_pending (due : Nat) (s : State) : (tickTo due s).pending = s.pending := by unfold tickTo; split <;> rfl
@[simp] theorem tickTo_nums (due : Nat) (s : State) : (tickTo due s).nums = s.nums := by unfold tickTo; split <;> rfl
@[simp] theorem tickTo_blobs (due : Nat) (s : State) : (tickTo due s).blobs = s.blobs := by unfold tickTo; split <;> rfl
@[simp] theorem tickTo_pow (due : Nat) (s : State) : (tickTo due s).pow = s.pow := by unfold tickTo; split <;> rfl
@[simp] theorem tickTo_br (due : Nat) (s : State) : (tickTo due s).br = s.br := by unfold tickTo; split <;> rfl
@[simp] theorem tickTo_sq (due : Nat) (s : State) : (tickTo due s).sq = s.sq := by unfold tickTo; split <;> rfl
@[simp] theorem tickTo_acc (due : Nat) (s : State) : (tickTo due s).acc = s.acc := by unfold tickTo; split <;> rfl
@[simp] theorem tickTo_heat (due : Nat) (s : State) : (tickTo due s).heat = s.heat := by unfold tickTo; split <;> rfl
@[simp] theorem tickTo_cool (due : Nat) (s : State) : (tickTo due s).cool = s.cool := by unfold tickTo; split <;> rfl
@[simp] theorem tickTo_part (due : Nat) (s : State) : (tickTo due s).part = s.part := by unfold tickTo; split <;> rfl
@[simp] theorem tickTo_ev (due : Nat) (s : State) : (tickTo due s).ev = s.ev := by unfold tickTo; split <;> rfl
@[simp] theorem tickTo_nut (due : Nat) (s : State) : (tickTo due s).nut = s.nut := by unfold tickTo; split <;> rfl
@[simp] theorem tickTo_rep (due : Nat) (s : State) : (tickTo due s).rep = s.rep := by unfold tickTo; split <;> rfl
@[simp] theorem tickTo_pkgEnergy (due : Nat) (s : State) : (tickTo due s).pkgEnergy = s.pkgEnergy := by unfold tickTo; split <;> rfl
@[simp] theorem tickTo_oda (due : Nat) (s : State) : (tickTo due s).oda = s.oda := by unfold tickTo; split <;> rfl
@[simp] theorem tickTo_port (due : Nat) (s : State) : (tickTo due s).port = s.port := by unfold tickTo; split <;> rfl
@[simp] theorem tickTo_eng (due : Nat) (s : State) : (tickTo due s).eng = s.eng := by unfold tickTo; split <;> rfl
@[simp] theorem tickTo_img (due : Nat) (s : State) : (tickTo due s).img = s.img := by unfold tickTo; split <;> rfl
@[simp] theorem tickTo_ani (due : Nat) (s : State) : (tickTo due s).ani = s.ani := by unfold tickTo; split <;> rfl
@[simp] theorem tickTo_mem (due : Nat) (s : State) : (tickTo due s).mem = s.mem := by unfold tickTo; split <;> rfl
@[simp] theorem tickTo_bar (due : Nat) (s : State) : (tickTo due s).bar = s.bar := by unfold tickTo; split <;> rfl
@[simp] theorem tickTo_cardamom (due : Nat) (s : State) : (tickTo due s).cardamom = s.cardamom := by unfold tickTo; split <;> rfl
@[simp] theorem tickTo_ident (due : Nat) (s : State) : (tickTo due s).ident = s.ident := by unfold tickTo; split <;> rfl
@[simp] theorem tickTo_free (due : Nat) (s : State) : (tickTo due s).free = s.free := by unfold tickTo; split <;> rfl
/-- Moving the clock to a count changes nothing but the clock. -/
@[simp] theorem reachCount_pending (c : Count) (s : State) : (reachCount c s).pending = s.pending := by unfold reachCount; split <;> rfl
@[simp] theorem reachCount_nums (c : Count) (s : State) : (reachCount c s).nums = s.nums := by unfold reachCount; split <;> rfl
@[simp] theorem reachCount_blobs (c : Count) (s : State) : (reachCount c s).blobs = s.blobs := by unfold reachCount; split <;> rfl
@[simp] theorem reachCount_pow (c : Count) (s : State) : (reachCount c s).pow = s.pow := by unfold reachCount; split <;> rfl
@[simp] theorem reachCount_br (c : Count) (s : State) : (reachCount c s).br = s.br := by unfold reachCount; split <;> rfl
@[simp] theorem reachCount_sq (c : Count) (s : State) : (reachCount c s).sq = s.sq := by unfold reachCount; split <;> rfl
@[simp] theorem reachCount_acc (c : Count) (s : State) : (reachCount c s).acc = s.acc := by unfold reachCount; split <;> rfl
@[simp] theorem reachCount_heat (c : Count) (s : State) : (reachCount c s).heat = s.heat := by unfold reachCount; split <;> rfl
@[simp] theorem reachCount_cool (c : Count) (s : State) : (reachCount c s).cool = s.cool := by unfold reachCount; split <;> rfl
@[simp] theorem reachCount_part (c : Count) (s : State) : (reachCount c s).part = s.part := by unfold reachCount; split <;> rfl
@[simp] theorem reachCount_ev (c : Count) (s : State) : (reachCount c s).ev = s.ev := by unfold reachCount; split <;> rfl
@[simp] theorem reachCount_nut (c : Count) (s : State) : (reachCount c s).nut = s.nut := by unfold reachCount; split <;> rfl
@[simp] theorem reachCount_rep (c : Count) (s : State) : (reachCount c s).rep = s.rep := by unfold reachCount; split <;> rfl
@[simp] theorem reachCount_pkgEnergy (c : Count) (s : State) : (reachCount c s).pkgEnergy = s.pkgEnergy := by unfold reachCount; split <;> rfl
@[simp] theorem reachCount_oda (c : Count) (s : State) : (reachCount c s).oda = s.oda := by unfold reachCount; split <;> rfl
@[simp] theorem reachCount_port (c : Count) (s : State) : (reachCount c s).port = s.port := by unfold reachCount; split <;> rfl
@[simp] theorem reachCount_eng (c : Count) (s : State) : (reachCount c s).eng = s.eng := by unfold reachCount; split <;> rfl
@[simp] theorem reachCount_img (c : Count) (s : State) : (reachCount c s).img = s.img := by unfold reachCount; split <;> rfl
@[simp] theorem reachCount_ani (c : Count) (s : State) : (reachCount c s).ani = s.ani := by unfold reachCount; split <;> rfl
@[simp] theorem reachCount_mem (c : Count) (s : State) : (reachCount c s).mem = s.mem := by unfold reachCount; split <;> rfl
@[simp] theorem reachCount_bar (c : Count) (s : State) : (reachCount c s).bar = s.bar := by unfold reachCount; split <;> rfl
@[simp] theorem reachCount_cardamom (c : Count) (s : State) : (reachCount c s).cardamom = s.cardamom := by unfold reachCount; split <;> rfl
@[simp] theorem reachCount_ident (c : Count) (s : State) : (reachCount c s).ident = s.ident := by unfold reachCount; split <;> rfl
@[simp] theorem reachCount_free (c : Count) (s : State) : (reachCount c s).free = s.free := by unfold reachCount; split <;> rfl

end Sys2Proof.Machine
end

