-- ==== Sys2Proof/Machine/Message.lean ====
section
/-! DEFINITION. ODA messages as they leave the part (12 Tables 12.7 to 12.13): what the bytes of a response, a NOTIFY and an
announcement hold, before 16 R474 protects them, and what the bytes of a request say (12 R358). -/
namespace Sys2Proof.Machine

open Sys2Proof

/-! ## The header (R355) -/

/-- The header of Table 12.7. -/
def odaHeader (op flags sess txn count len aux status : Nat) : List Byte :=
  leBytes 1 1 ++ leBytes 1 op ++ leBytes 2 flags ++ leBytes 4 sess ++ leBytes 8 txn ++ leBytes 8 count ++ leBytes 2 len ++ leBytes 2 aux ++
    leBytes 4 status

/-- FLAGS of a response. -/
def Answer.flags (a : Answer) : Nat := 1 + flagBit (a.status ≠ 0) 1 + flagBit a.duplicate 2 + flagBit a.held 3

/-! ## Addresses and values (R358) -/

def typeOf (s : State) (key : Nat) : Ty := match findEntry s key with | some e => e.ty | none => .u64

def addressBytes (s : State) (key : Nat) : List Byte := leBytes 2 (key / 256) ++ leBytes 1 (key % 256) ++ leBytes 1 (typeOf s key).code

/-- A value in the encoding of Table 12.1. -/
def valueWire (t : Ty) : Value → List Byte
  | .num n => leBytes (t.width / 8) n
  | .bytes bs => leBytes (if t = .str then 2 else 4) bs.length ++ bs

/-! ## Requests (R358, R359 to R362, R367, R379) -/

/-- An address: INDEX, SUB and TYPE; key and TYPE. -/
def addressAt (bs : List Byte) : Nat × Nat := (fieldAt bs 0 2 * 256 + fieldAt bs 2 1, fieldAt bs 3 1)

/-- n addresses, without padding. -/
def addressesAt : Nat → List Byte → List (Nat × Nat)
  | 0, _ => []
  | n + 1, bs => addressAt bs :: addressesAt n (bs.drop 4)

/-- A value in the encoding of Table 12.1, and the bytes after it. -/
def valueAt (t : Ty) (bs : List Byte) : Value × List Byte :=
  let lead := if t = .str then 2 else 4
  if t.isBytes then (.bytes (slice bs lead (fieldAt bs 0 lead)), bs.drop (lead + fieldAt bs 0 lead))
  else (.num (fieldAt bs 0 (t.width / 8)), bs.drop (t.width / 8))

/-- n steps, each an address and a value; a value has the type of its object. -/
def stepsAt (s : State) : Nat → List Byte → List (Nat × Nat × Value)
  | 0, _ => []
  | n + 1, bs =>
    let a := addressAt bs
    let v := valueAt (typeOf s a.1) (bs.drop 4)
    (a.1, a.2, v.1) :: stepsAt s n v.2

/-- What the message of a request asks. -/
def requestOf (s : State) (message : List Byte) : Option ReqBody :=
  let aux := fieldAt message 26 2
  let p := message.drop 32
  match fieldAt message 1 1 with
  | 1 => some (.read (addressAt p).1 (addressAt p).2 (aux == 1))
  | 2 => (stepsAt s 1 p).head?.map (fun x => .write x.1 x.2.1 x.2.2)
  | 3 => some (.readMulti (addressesAt aux p))
  | 4 => some (.writeMulti (stepsAt s aux p))
  | 5 => some (.subscribe (fieldAt p 0 1) (fieldAt p 1 1) (fieldAt p 2 2) (addressesAt aux (p.drop 8)))
  | 7 => some (.block aux (fieldAt p 0 2) (addressAt (p.drop 4)).1 (fieldAt p 8 8) (fieldAt p 16 8) (p.drop 24))
  | _ => none

/-! ## Responses (R359 to R361, R367, R379) -/

/-- One item of a READ_MULTI response. -/
def itemBytes (s : State) (x : Nat × Nat × Option Value) : List Byte :=
  leBytes 4 x.2.1 ++ addressBytes s x.1 ++ (match x.2.2 with | some v => valueWire (typeOf s x.1) v | none => [])

/-- The payload of a READ response: the address with the value, or with the descriptor. -/
def readPayload (s : State) (desc : Bool) : List (Nat × Nat × Option Value) → List Byte
  | (key, _, some (.bytes bs)) :: _ => addressBytes s key ++ (if desc then bs else valueWire (typeOf s key) (.bytes bs))
  | (key, _, some v) :: _ => addressBytes s key ++ valueWire (typeOf s key) v
  | _ => []

/-- The payload of a WRITE_MULTI response (Table 12.9). -/
def multiPayload (a : Answer) : List Byte := leBytes 2 a.done ++ leBytes 2 a.failed ++ leBytes 4 0 ++ (a.accepted.map (leBytes 8)).flatten

/-- The head of a BLOCK message (Table 12.12). -/
def blockHead (s : State) (id key offset total : Nat) : List Byte :=
  leBytes 2 id ++ leBytes 2 0 ++ addressBytes s key ++ leBytes 8 offset ++ leBytes 8 total

/-- The payload of a BLOCK response: the BLOCK_ID and length of a START, the data of a READ_SEG, the CRC and length of a
WRITE_END. -/
def blockPayload (s : State) (sub id offset total : Nat) (a : Answer) : List Byte :=
  match a.items with
  | (_, _, some (.bytes bs)) :: _ => blockHead s id a.object offset bs.length ++ bs
  | (blk, len, none) :: _ => blockHead s blk a.object (if sub = 1 ∨ sub = 5 then offset else 0) len
  | _ => blockHead s id a.object offset total

/-- The payload of a response to a request. -/
def payload (s : State) (body : ReqBody) (a : Answer) : List Byte :=
  match body with
  | .writeMulti _ => multiPayload a
  | .readMulti _ => (a.items.map (itemBytes s)).flatten
  | .read _ _ desc => if a.status = 0 then readPayload s desc a.items else []
  | .block sub id _ offset total _ => if a.status = 0 then blockPayload s sub id offset total a else []
  | .write _ _ _ | .subscribe _ _ _ _ => []

/-- The payload of a LEDGER_QUERY response: FLOOR, then one entry for each TXN. -/
def queryPayload (a : Answer) : List Byte :=
  match a.items with
  | (floor, _, _) :: t => leBytes 8 floor ++ (t.map (fun x => match x.2.2 with | some (.bytes bs) => bs | _ => [])).flatten
  | [] => []

/-- A response: `op` and `aux` are those of its request. -/
def responseMessage (op aux : Nat) (body : List Byte) (a : Answer) : List Byte :=
  odaHeader op a.flags a.sess a.txn a.count body.length aux a.status ++ body

/-! ## NOTIFY and announcements (R365, R366) -/

/-- A NOTIFY: `count` is the count at which it was formed, `frame` all ones outside RUN (Table 12.11). -/
def notifyMessage (sess txn count sub kind items : Nat) (frame : Option Nat) (body : List Byte) : List Byte :=
  odaHeader 6 0 sess txn count (16 + body.length) 0 0 ++
    leBytes 1 sub ++ leBytes 1 kind ++ leBytes 2 items ++ leBytes 4 0 ++ leBytes 8 (frame.getD u64) ++ body

/-- The body of a PERIODIC message: each item's STATUS, and its value where that is 0. -/
def periodicBody (s : State) (keys : List (Nat × Nat)) (items : List (Nat × Option Value)) : List Byte :=
  ((keys.zip items).map (fun x => leBytes 4 x.2.1 ++ (match x.2.2 with | some v => valueWire (typeOf s x.1.1) v | none => []))).flatten

/-- The items of a subscription, which give the values of its messages their types. -/
def subItems (s : State) (sess sub : Nat) : List (Nat × Nat) :=
  match odaSession s sess with
  | some x => (match look x.subs sub with | some y => y.items | none => [])
  | none => []

/-- The body of Table 12.13. -/
def announceBody (s : State) (st : PartState) (port epoch seqFirst seqLast : Nat) : List Byte :=
  readBytes s 0 0 Blob.serial ++ leBytes 1 st.code ++ leBytes 1 port ++ leBytes 2 0 ++ leBytes 4 epoch ++ leBytes 8 seqFirst ++ leBytes 8 seqLast

/-- A message the part sends of its own accord, as it is formed in this state; none where ODA is not what it carries. -/
def sentMessage (s : State) : Msg → Option (List Byte)
  | .announce _ st port epoch first last =>
    some (notifyMessage 0 0 (mainNow s) 0xFF 3 1 none (announceBody s st port epoch first last))
  | .notifyPeriodic sess sub txn frame items =>
    some (notifyMessage sess txn (mainNow s) sub 1 items.length frame (periodicBody s (subItems s sess sub) items))
  | .notifyEvents sess sub txn recs =>
    some (notifyMessage sess txn (mainNow s) sub 2 recs.length (if s.part.st = .run then some s.eng.frame else none) ((recs.map EvRec.bytes).flatten))
  | _ => none

/-! ## Setup messages (16 R472) -/

/-- The fragments of a message under SETUP_ID, at most 1,384 bytes each, behind the header of Table 16.6. -/
def setupFragments (op sess id : Nat) (body : List Byte) : List (List Byte) :=
  let frags := ceilDiv body.length 1384
  (List.range frags).map (fun k =>
    let part := slice body (1384 * k) 1384
    odaHeader op 1 sess 0 0 (16 + part.length) 0 0 ++ leBytes 8 id ++ leBytes 2 k ++ leBytes 2 frags ++ leBytes 4 0 ++ part)

/-- The messages of SETUP_REPLY, and of SETUP_DONE before its protection. -/
def setupMessages : Msg → List (List Byte)
  | .setupReply n id body => setupFragments 0x21 n id body
  | .setupDone n au => [odaHeader 0x23 1 n 0 0 0 (authCode au) 0]
  | _ => []

/-! ## Protection (16 R474) -/

/-- A message as a session protects it: the header, SEQ in clear, the ciphertext and the tag, under the keys from part to peer. -/
def protectedMessage (x : Session) (seq : Nat) (message : List Byte) : List Byte :=
  let head := message.take 32
  head ++ leBytes 8 seq ++ Config.aesGcm x.keyDp (x.saltDp ++ leBytes 8 seq) (head ++ leBytes 8 seq) (message.drop 32)

/-- Whether a protected message of the peer carries the tag that its own keys give its text. -/
def tagHolds (x : Session) (seq : Nat) (message received : List Byte) : Bool :=
  let head := message.take 32
  received == head ++ leBytes 8 seq ++ Config.aesGcm x.keyPd (x.saltPd ++ leBytes 8 seq) (head ++ leBytes 8 seq) (message.drop 32)

end Sys2Proof.Machine
end

