-- ==== Sys2Proof/Machine/Package.lean ====
section
/-! DEFINITION. The part as a body: its balls (18 R501 to R506), its electrical, thermal and mechanical data (R507 to R525), its stated
rates and latencies (19 R526 to R533), and the pairs of modes that touch (20 R534 to R540). No command depends on them. -/
namespace Sys2Proof.Machine

open Sys2Proof

/-! ## The ball grid (18 R501) -/

/-- The letters of rows: I, O, Q, R, S, X and Z are left out. -/
def rowLetters : List Char :=
  ['A', 'B', 'C', 'D', 'E', 'F', 'G', 'H', 'J', 'K', 'L', 'M', 'N', 'P', 'T', 'U', 'V', 'W', 'Y']

/-- The name of the row of index i, 1 to 56: A to Y, AA to AY, BA to BW. -/
def rowName (i : Nat) : String :=
  let c := rowLetters.getD ((i - 1) % 19) 'A'
  String.ofList (if i ≤ 19 then [c] else if i ≤ 38 then ['A', c] else ['B', c])

/-- A position of the grid, by row index and column. -/
structure Pos where
  row : Nat
  col : Nat
  deriving DecidableEq, Repr

def Pos.onGrid (p : Pos) : Bool := decide (1 ≤ p.row) && decide (p.row ≤ 56) && decide (1 ≤ p.col) && decide (p.col ≤ 56)

/-- Row and column, as in A1 or BW56. -/
def Pos.name (p : Pos) : String := rowName p.row ++ toString p.col

/-- The positions of a rectangle in reading order. -/
def rect (r0 r1 c0 c1 : Nat) : List Pos :=
  (List.range (r1 + 1 - r0)).flatMap (fun i => (List.range (c1 + 1 - c0)).map (fun j => ⟨r0 + i, c0 + j⟩))

/-- What a ball carries. Sequencers 0 to 7 are A0 to A7, and 8 is S_SELF. -/
inductive Net where
  | vin56
  | vinB (n : Nat) | snsP (n : Nat) | snsN (n : Nat) | voutB (n : Nat) | gateB (n : Nat)
  | gateB0 (x : Nat)
  | railEn (q k : Nat) | railPg (q k : Nat) | rsns (q k : Nat) | rsnsRtn (q : Nat)
  | seqOut (a k : Nat) | pgood (a : Nat) | thermtripN (a : Nat)
  | enB (n : Nat) | prsntN (a : Nat) | tfet (n : Nat)
  | faultN | serviceEnN | xtal25In | xtal25Out
  | norIspEnN | norIspSck | norIspCsN (k : Nat) | norIspIo (k : Nat)
  | temp (k : Nat) | tempRtn (g : Nat) | proc (k : Nat) | procRtn (g : Nat)
  | leakExc (k : Nat) | leakSns (k : Nat) | valve (k : Nat) | pwm (k : Nat)
  | antP (a : Nat) | antN (a : Nat)
  | holdup | vaon33
  | i3cScl (b : Nat) | i3cSda (b : Nat)
  | pmScl (b : Nat) | pmSda (b : Nat) | pmAlertN (b : Nat)
  | avsClk (b : Nat) | avsMdata (b : Nat) | avsSdata (b : Nat)
  | flow (k : Nat) | tach (k : Nat)
  | svcMdc | svcMdio | svcPhyRstN
  | tck | tms | tdi | tdo | trstN
  | vioI3c | vioPm | vioFt | vioMisc
  | hpTxp (p : Nat) | hpTxn (p : Nat) | hpRxp (p : Nat) | hpRxn (p : Nat)
  | refclkP | refclkN
  | sbTxp (a : Nat) | sbTxn (a : Nat) | sbRxp (a : Nat) | sbRxn (a : Nat)
  | svcTxp | svcTxn | svcRxp | svcRxn
  | syncInP | syncInN | syncOutP | syncOutN
  | avddSd09 | avddSd12
  | vddCore | vddSram | vdd1 | vdd2 | vddqLp
  | nc | vss
  deriving DecidableEq, Repr

def each (n : Nat) (f : Nat → Net) : List Net := (List.range n).map f

/-! ### The high-voltage field (R502 to R504, Table 18.1) -/

/-- The 71 balls of the field in site order. -/
def hvNets : List Net :=
  List.replicate 4 .vin56 ++ [.vinB 0, .snsP 0, .snsN 0, .voutB 0] ++ each 8 .gateB0 ++
    (List.range 11).flatMap (fun i => [.snsP (i + 1), .snsN (i + 1), .vinB (i + 1), .voutB (i + 1), .gateB (i + 1)])

/-- The field with its ring: rows A to W, columns 1 to 18. -/
def inField (p : Pos) : Bool := decide (p.row ≤ 18) && decide (p.col ≤ 18)

/-- The site of a position of the field, 1 to 81; none where an index is even. -/
def siteOf (p : Pos) : Option Nat :=
  if p.row % 2 = 1 ∧ p.col % 2 = 1 then some (p.row / 2 * 9 + p.col / 2 + 1) else none

/-- What stands at a position of the field; sites 72 to 81 are depopulated. -/
def hvNet (p : Pos) : Option Net :=
  match siteOf p with
  | some n => hvNets[n - 1]?
  | none => none

/-- Spacing in mm that copper of a high-voltage ball keeps from other nets on the outer layers (R504). -/
def hvClearance : Rat := 2

/-! ### The low-voltage regions (R505, R506, Table 18.2) -/

inductive BallRegion where
  | s1 | s2 | s3 | m1 | m2 | m3
  deriving DecidableEq, Repr

/-- First and last row and column of a region. -/
def BallRegion.bounds : BallRegion → Nat × Nat × Nat × Nat
  | .s1 => (1, 18, 19, 46)
  | .s2 => (1, 18, 47, 56)
  | .s3 => (19, 38, 1, 18)
  | .m1 => (39, 56, 1, 18)
  | .m2 => (19, 56, 47, 56)
  | .m3 => (19, 56, 19, 46)

def BallRegion.has (r : BallRegion) (p : Pos) : Bool :=
  let (r0, r1, c0, c1) := r.bounds
  decide (r0 ≤ p.row) && decide (p.row ≤ r1) && decide (c0 ≤ p.col) && decide (p.col ≤ c1)

def regionOfPos (p : Pos) : Option BallRegion := [BallRegion.s1, .s2, .s3, .m1, .m2, .m3].find? (fun r => r.has p)

def seqNets (q : Nat) : List Net := each 16 (.railEn q) ++ each 16 (.railPg q) ++ each 16 (.rsns q) ++ [.rsnsRtn q]

/-- The signals of a region in order. -/
def BallRegion.signals : BallRegion → List Net
  | .s1 => (List.range 8).flatMap (fun a => seqNets a ++ each 8 (.seqOut a) ++ [.pgood a, .thermtripN a])
  | .s2 => seqNets 8 ++ each 12 .enB ++ each 8 .prsntN ++ each 12 .tfet ++
      [.faultN, .serviceEnN, .xtal25In, .xtal25Out, .norIspEnN, .norIspSck, .norIspCsN 0, .norIspCsN 1] ++ each 4 .norIspIo
  | .s3 => each 32 .temp ++ each 4 .tempRtn ++ each 16 .proc ++ each 4 .procRtn ++
      (List.range 8).flatMap (fun k => [.leakExc k, .leakSns k]) ++ each 8 .valve ++ each 16 (fun k => .pwm (k + 8)) ++
      (List.range 8).flatMap (fun a => [.antP a, .antN a]) ++ List.replicate 4 .holdup ++ List.replicate 2 .vaon33
  | .m1 => (List.range 8).flatMap (fun b => [.i3cScl b, .i3cSda b]) ++ (List.range 4).flatMap (fun b => [.pmScl b, .pmSda b, .pmAlertN b]) ++
      (List.range 8).flatMap (fun b => [.avsClk b, .avsMdata b, .avsSdata b]) ++ each 12 .flow ++ each 16 .tach ++
      [.svcMdc, .svcMdio, .svcPhyRstN, .tck, .tms, .tdi, .tdo, .trstN] ++
      List.replicate 8 .vioI3c ++ List.replicate 8 .vioPm ++ List.replicate 8 .vioFt ++ List.replicate 8 .vioMisc
  | .m2 => (List.range 2).flatMap (fun p => [.hpTxp p, .hpTxn p, .hpRxp p, .hpRxn p]) ++ [.refclkP, .refclkN] ++
      (List.range 8).flatMap (fun a => [.sbTxp a, .sbTxn a, .sbRxp a, .sbRxn a]) ++
      [.svcTxp, .svcTxn, .svcRxp, .svcRxn, .syncInP, .syncInN, .syncOutP, .syncOutN] ++
      List.replicate 40 .avddSd09 ++ List.replicate 24 .avddSd12
  | .m3 => List.replicate 320 .vddCore ++ List.replicate 64 .vddSram ++ List.replicate 24 .vdd1 ++ List.replicate 48 .vdd2 ++
      List.replicate 48 .vddqLp ++ List.replicate 10 .nc

/-- The place of a position in its region's list. In M3 every other position is VSS, those with an odd sum of indices (R506). -/
def placeInRegion (r : BallRegion) (p : Pos) : Option Nat :=
  let (r0, _, c0, c1) := r.bounds
  let w := c1 + 1 - c0
  let n := (p.row - r0) * w + (p.col - c0)
  match r with
  | .m3 => if (p.row + p.col) % 2 = 0 then some (n / 2) else none
  | _ => some n

/-- What a position carries: none where no ball is. Every position that is left over is VSS. -/
def netAt (p : Pos) : Option Net :=
  if !p.onGrid then none
  else if inField p then hvNet p
  else
    match regionOfPos p with
    | none => none
    | some r =>
      match placeInRegion r p with
      | none => some .vss
      | some n => some ((r.signals[n]?).getD .vss)

/-! ## Electrical limits (R507 to R512) -/

/-- A stated range; none where a table gives no limit on that side. -/
structure Rating where
  item : String
  low : Option Rat
  high : Option Rat
  deriving DecidableEq, Repr

def Rating.holds (r : Rating) (v : Rat) : Bool :=
  (match r.low with | some l => decide (l ≤ v) | none => true) && (match r.high with | some h => decide (v ≤ h) | none => true)

/-- Table 18.3, in V, °C, kV. -/
def maximumRatings : List Rating :=
  [⟨"VIN56, VIN_Bn, VOUT_Bn, SNS_Bn_P, SNS_Bn_N", some (-3 / 10), some 80⟩, ⟨"SNS_Bn_P to SNS_Bn_N", some (-1), some 1⟩,
    ⟨"GATE_Bn, GATE_B0x", some (-3 / 10), some 95⟩, ⟨"GATE to its branch's VOUT_Bn", some (-3 / 10), some 20⟩,
    ⟨"HOLDUP", some (-3 / 10), some 16⟩, ⟨"RSNS_Aa_k, RSNS_SELF_k", some (-3 / 10), some (33 / 2)⟩,
    ⟨"PROC_k, TFET_Bn, TEMP_k", some (-3 / 10), some 12⟩, ⟨"LEAK_k_EXC, LEAK_k_SNS", some (-5), some 5⟩,
    ⟨"VALVE_O0 to _O7, PWM_O8 to _O23", some (-3 / 10), some 14⟩, ⟨"Other Sorghum signals, VAON33", some (-3 / 10), some (18 / 5)⟩,
    ⟨"VDD_CORE", some (-3 / 10), some (9 / 10)⟩, ⟨"VDD_SRAM, AVDD_SD09", some (-3 / 10), some (21 / 20)⟩,
    ⟨"VDD2, AVDD_SD12", some (-3 / 10), some (7 / 5)⟩, ⟨"VDDQ_LP", some (-3 / 10), some (4 / 5)⟩, ⟨"VDD1", some (-3 / 10), some (21 / 10)⟩,
    ⟨"VIO banks, and main-die signals", some (-3 / 10), some (19 / 5)⟩] ++
  [⟨"Main-die junction", none, some 125⟩, ⟨"Sorghum junction", none, some 160⟩, ⟨"Storage", some (-55), some 150⟩,
    ⟨"ESD, HBM (ANSI/ESDA/JEDEC JS-001)", none, some 2⟩, ⟨"ESD, CDM (ANSI/ESDA/JEDEC JS-002)", none, some (1 / 4)⟩]

/-- A main-die signal is not above its bank's VIO + 0.3 V either. -/
def mainSignalOk (vio v : Rat) : Bool := decide (-3 / 10 ≤ v) && decide (v ≤ 19 / 5) && decide (v ≤ vio + 3 / 10)

/-- A supply with its least, nominal and greatest operating value (Table 18.4). -/
structure Supply where
  item : String
  low : Rat
  nominal : Option Rat
  high : Rat
  deriving DecidableEq, Repr

def operatingConditions : List Supply :=
  [⟨"VIN56", 40, some 56, 60⟩, ⟨"VDD_CORE", 291 / 400, some (3 / 4), 309 / 400⟩, ⟨"VDD_SRAM", 1649 / 2000, some (17 / 20), 1751 / 2000⟩,
    ⟨"VDD1", 17 / 10, some (9 / 5), 39 / 20⟩, ⟨"VDD2", 53 / 50, some (11 / 10), 117 / 100⟩, ⟨"VDDQ_LP", 57 / 100, some (3 / 5), 13 / 20⟩,
    ⟨"AVDD_SD09", 873 / 1000, some (9 / 10), 927 / 1000⟩, ⟨"AVDD_SD12", 291 / 250, some (6 / 5), 309 / 250⟩,
    ⟨"VIO at 1.8 V", 171 / 100, some (9 / 5), 189 / 100⟩, ⟨"VIO at 3.3 V", 627 / 200, some (33 / 10), 693 / 200⟩,
    ⟨"Main-die junction, T_MAIN", -40, none, 105⟩, ⟨"Sorghum junction, T_SORGHUM", -40, none, 125⟩]

/-- VDD_SRAM is never more than 0.05 V below VDD_CORE. -/
def sramFollows (core sram : Rat) : Bool := decide (core ≤ sram + 1 / 20)

/-- A row of Table 18.5, in A. -/
structure SupplyCurrent where
  supply : String
  ready : Rat
  run : Rat
  sustained : Rat
  peak : Rat
  deriving DecidableEq, Repr

def supplyCurrents : List SupplyCurrent :=
  [⟨"VIN56", 8 / 1000, 8 / 1000, 15 / 1000, 6 / 5⟩, ⟨"VDD_CORE", 4, 38, 88, 110⟩, ⟨"VDD_SRAM", 3 / 2, 5, 8, 20⟩,
    ⟨"VDD1", 1 / 20, 3 / 20, 3 / 10, 2 / 5⟩, ⟨"VDD2", 2 / 5, 6 / 5, 2, 5 / 2⟩, ⟨"VDDQ_LP", 1 / 5, 9 / 10, 3 / 2, 2⟩,
    ⟨"AVDD_SD09", 9 / 10, 7 / 5, 8 / 5, 9 / 5⟩, ⟨"AVDD_SD12", 1 / 2, 4 / 5, 9 / 10, 1⟩, ⟨"Each VIO bank", 1 / 100, 1 / 50, 1 / 20, 1 / 10⟩]

/-- The TDP in W. -/
def tdpW : Rat := 80

/-- The load steps of VDD_CORE that its regulator carries, in A and A/µs (R510). -/
def coreStep : Rat × Rat := (60, 100)

/-- What a digital input of Sorghum reads at a voltage; between the levels it is open (Table 18.6). -/
def sorghumInput (v : Rat) : Option Bool := if 13 / 10 ≤ v then some true else if v ≤ 1 / 2 then some false else none

/-- What an unconnected input reads: RAIL_PG has a pull-down, the others a pull-up (Table 18.6). -/
def unconnected : Net → Option Bool
  | .railPg _ _ => some false
  | .enB _ | .prsntN _ | .thermtripN _ | .serviceEnN | .norIspEnN => some true
  | _ => none

/-- What an input of a main-die bank reads, from VIO (R512). -/
def mainInput (vio v : Rat) : Option Bool := if 7 / 10 * vio ≤ v then some true else if v ≤ 3 / 10 * vio then some false else none

/-! ## Analog characteristics (R513 to R518) -/

/-- Differential swing of an LVDS driver and its offset, in V (R513). -/
def lvdsSwing : Rating := ⟨"LVDS differential swing", some (1 / 4), some (9 / 20)⟩
def lvdsOffset : Rating := ⟨"LVDS offset", some (9 / 8), some (11 / 8)⟩

/-- What VALVE_Ok drives for a share of full scale: V for OUT_KIND 0, mA for OUT_KIND 1 (R514). -/
def valveDrive (kind : Nat) (x : Rat) : Rat := if kind = 0 then 10 * x else 4 + 16 * x

/-- Total tolerance of XTAL25 and of REFCLK in ppm (R515, R516). -/
def xtalPpm : Nat := 50
def refclkPpm : Nat := 100

/-- Accuracy as a part of the reading and an offset (Table 18.7). -/
structure Accuracy where
  item : String
  ofReading : Rat
  offset : Rat
  deriving DecidableEq, Repr

/-- A reading of a true value lies within the accuracy. -/
def Accuracy.allows (a : Accuracy) (true_ read : Rat) : Bool :=
  let size (x : Rat) : Rat := max x (-x)
  decide (size (read - true_) ≤ a.ofReading * size true_ + a.offset)

/-- Table 18.7: offsets in mV of the sense input for the comparator and the current ADC, in V for the rest, in °C for sensors. -/
def analogAccuracy : List Accuracy :=
  [⟨"Fast comparator threshold", 15 / 1000, 2 / 5⟩, ⟨"Branch current ADC", 2 / 1000, 1 / 50⟩, ⟨"Branch voltage channels", 25 / 10000, 1 / 50⟩,
    ⟨"VIN56 measurement", 25 / 10000, 1 / 50⟩, ⟨"Rail-sense converter", 1 / 1000, 1 / 1000⟩, ⟨"Rail-level comparators", 5 / 1000, 2 / 1000⟩,
    ⟨"Temperature, DIODE", 0, 1⟩, ⟨"Temperature, NTC resistance", 5 / 1000, 0⟩, ⟨"Main-die sensors, 0 °C to 125 °C", 0, 2⟩,
    ⟨"Main-die sensors below 0 °C", 0, 3⟩, ⟨"Main-die 115 °C and 90 °C comparators", 0, 2⟩, ⟨"Sorghum sensors", 0, 3⟩]

/-- The threshold of the fast comparator in mV (Table 18.7). -/
def fastThresholdMv (code : Nat) : Rat := code * (2 / 5)

/-- The code of the branch current ADC: 14 bits of 16 µV over ±131.072 mV (Table 18.7). -/
def currentCode (microvolt : Rat) : Int := max (-8192) (min 8191 (microvolt / 16).floor)

/-- The code of the rail-sense converter: 16 bits over 0 V to 16.384 V (Table 18.7). -/
def railCode (volt : Rat) : Int := max 0 (min 65535 (volt * 4000).floor)

/-- The voltage on PROC_k of a loop current in mA, over 500 Ω (R518). -/
def loopVolt (ma : Rat) : Rat := ma / 2

/-! ## Input and hold-up (R519 to R521) -/

/-- The series resistor in Ω and the HOLDUP capacitance in µF that the board fits. -/
def boardInput : Rating := ⟨"VIN56 series resistor", some (47 / 10), some 10⟩
def boardHoldup : Rating := ⟨"HOLDUP capacitance", some 150, some 330⟩

/-- The latest release of Rye after VIN56 crosses 36 V, in ms, with the capacitance in µF (R520). -/
def releaseMs (c : Rat) : Rat := 3 / 10 + c * (21 / 2) / (8 / 10) / 1000

/-- Usable hold-up energy in mJ, and the time that 0.35 W takes to use it, in ms (R520). -/
def holdupMj (c : Rat) : Rat := c * (144 - 36) / 2 / 1000
def holdupMs (c : Rat) : Rat := holdupMj c / (7 / 20)

/-- HOLDUP must reach 10.5 V within 20 ms (R521). -/
def holdupLimitMs : Nat := 20

/-! ## The main-die rails (R522) -/

/-- A self rail's place in the up order, 1 first, and its RAIL_RETAIN (Table 18.8); rails 11 to 15 are free. -/
def selfRail : Nat → Option (Nat × Nat)
  | 0 => some (1, 1)
  | 1 => some (2, 0)
  | 2 => some (1, 1)
  | 3 => some (2, 1)
  | 4 => some (3, 0)
  | 5 => some (3, 0)
  | 6 => some (4, 0)
  | 7 | 8 | 9 | 10 => some (5, 0)
  | _ => none

/-- An up list, as the rails it enables in turn, keeps the order of Table 18.8. -/
def selfOrderOk (l : List Nat) : Bool :=
  let p := l.filterMap (fun r => (selfRail r).map (·.1))
  (p.zip (p.drop 1)).all (fun x => decide (x.1 ≤ x.2))

/-- The whole up list completes within 20 ms; a rail rises in 0.1 ms to 10 ms. -/
def selfUpMs : Nat := 20

/-! ## Thermal, mechanical and ordering data (R523 to R525) -/

/-- T_MAIN over the lid centre at a package power, and T_SORGHUM at Sorghum's (Table 18.9). -/
def tMainOf (lid watts : Rat) : Rat := lid + watts / 20
def tSorghumOf (lid watts : Rat) : Rat := lid + watts * (4 / 5)

/-- The hottest lid centre that keeps T_MAIN at or below 95 °C (R523). -/
def lidLimit (watts : Rat) : Rat := 95 - watts / 20

/-- Table 18.10, in mm. -/
def bodyMm : Rat := 115 / 2
def lidMm : Rat := 52
def arrayMm : Rat := 55

/-- The ball array is centred on the body: the margin to each edge (R524). -/
def edgeMargin : Rat := (bodyMm - arrayMm) / 2

/-- A byte as two upper-case hex digits. -/
def hexByte (b : Byte) : List Char := [Nat.digitChar (b.toNat / 16), Nat.digitChar (b.toNat % 16)].map Char.toUpper

/-- Lines 1, 2, 3 and 5 of the lid (Table 18.11), from the grade code and SERIAL. -/
def lidLines (grade : String) (serial : List Byte) : List String :=
  ["DWENTIEN", "STELAS 880", grade, String.ofList (serial.reverse.flatMap hexByte)]

/-! ## Rates (19 R526, R527) -/

/-- The peak rate of Clove in operations a second, of a MAC rate per cycle and tile, at throttle level L (R526). -/
def peakOps (macs tiles level : Nat) : Rat := macs * tiles * 1250000000 * 2 * (8 - level) / 8

/-- The tokens a second of a session at frame period code p: 25 µs, 50 µs, 100 µs or 200 µs (R527). -/
def tokenRate (p k : Nat) : Rat := 1000000000 / (25000 * 2 ^ p) / k

/-! ## Latencies and waits (R528 to R530) -/

/-- Class P1 or P2 sample to record, in ns (R528). -/
def p1LatencyNs (emitStart : Nat) : Rat := 3520 + (emitStart + 2048) * (4 / 5)

/-- The longest run of 1 MiB in µs on MA or MB, one slot or two of the port for 256 bytes (R530). -/
def maximalRunUs (mb both : Bool) : Rat := (if mb then 223 / 5 else 387 / 10) * (if both then 2 else 1)

/-- The start wait of a channel that becomes READY: what the run in progress still needs, and the runs that go before (R530). -/
def startWait (left : Rat) (ahead : List Rat) : Rat := left + ahead.sum

/-! ## Power and physical limits (R532, R533) -/

/-- Typical package power in W of n open F-96 sessions, at 50 µs (R532). -/
def typicalPower (n : Nat) : Rat := 9 + n * (283 / 100000)

/-- A quantity of Table 19.5: the limit that the technology sets, and the part's figure. -/
structure PhysicalLimit where
  item : String
  limit : Rat
  part : Rat
  deriving DecidableEq, Repr

def PhysicalLimit.factor (x : PhysicalLimit) : Rat := x.part / x.limit

/-- Table 19.5, in ns, µV, pJ and ns. -/
def physicalLimits : List PhysicalLimit :=
  [⟨"Fast-trip gate discharge", 250, 625⟩, ⟨"Branch current noise", 84 / 25, 6⟩, ⟨"Engine energy per int8 MAC", 59 / 1000, 95 / 1000⟩,
    ⟨"Frame alignment, PTP", 10, 20⟩]

/-- The least time in ns in which a pull-down current in A removes a gate charge in nC (R533). -/
def dischargeNs (charge current : Rat) : Rat := charge / current

/-! ## Pairs of modes (20 R534 to R537) -/

/-- The dimensions of Table 20.1. -/
inductive Dim where
  | fp | ls | dm | br | ct | pt | ms | ts | th | up | ah | sv | nl
  deriving DecidableEq, Repr

/-- The upper half of Table 20.2: the row of Table 20.3 for a pair, none where it holds a dot. -/
def upperRule : Dim → Dim → Option Nat
  | .fp, .ls => some 1
  | .fp, .dm => some 2
  | .fp, .br => some 3
  | .fp, .pt => some 4
  | .fp, .ts => some 21
  | .fp, .th => some 5
  | .fp, .up => some 22
  | .fp, .nl => some 23
  | .ls, .dm => some 6
  | .ls, .br => some 7
  | .ls, .th => some 6
  | .ls, .nl => some 6
  | .dm, .br => some 7
  | .dm, .th => some 8
  | .dm, .nl => some 9
  | .br, .th => some 5
  | .br, .up => some 12
  | .br, .ah => some 10
  | .br, .sv => some 11
  | .ct, .ah => some 13
  | .pt, .ms => some 14
  | .pt, .ts => some 15
  | .pt, .sv => some 20
  | .ms, .ts => some 15
  | .ms, .sv => some 20
  | .ts, .sv => some 20
  | .th, .up => some 16
  | .th, .ah => some 17
  | .th, .nl => some 9
  | .up, .ah => some 18
  | .up, .sv => some 18
  | .ah, .sv => some 19
  | _, _ => none

/-- The matrix is symmetric (R536). -/
def pairRule (a b : Dim) : Option Nat :=
  match upperRule a b with
  | some n => some n
  | none => upperRule b a

end Sys2Proof.Machine
end

