-- ==== Sys2Proof/Tests/Slice0.lean ====
section
/-! SUPPORT. Our own tests: the ill-formed commands that the check refuses, single steps whose results stand in the spec,
and for every statement with hypotheses a state and operands that meet them. -/
namespace Sys2Proof.Tests

open Sys2Proof.Machine

set_option Elab.async false

/-! ## States that the tests start from -/

/-- Rye runs on XTAL25 in STANDBY. -/
def ryeOn : State := { State.reset with
  clk := { Clock.init with running := true }
  pow := { Power.init with holdup := .released, vin := 54, vinLost := false }
  part := { Part.init with st := .standby } }

/-- The main die is up, in READY. -/
def readyOn : State := { ryeOn with
  part := { Part.init with st := .ready, reset := false, boot := .done }
  oda := { Oda.init with serving := true }
  ev := { Events.init with up := true } }

/-- Frames run, from LAUNCH_AT 1 on. -/
def runOn : State := { readyOn with
  part := { readyOn.part with st := .run }
  clk := { readyOn.clk with base := 40 * two32 }
  eng := { Engine.init with running := true }
  nums := [(Obj.launchAt.key, 1)] }

def withBr (b : Fin 12) (f : Branch → Branch) (s : State) : State := updBr b f s
def withSq (q : Fin 9) (f : Seq → Seq) (s : State) : State := updSeq q f s


/-- A model of shape 5 with two bytes of state. -/
def tinyModel : Model where
  format := 1
  contract := 1
  kind := 1
  shape := 5
  weightBytes := 0
  stateBytes := 2
  vocab := 2
  window := 0
  params := 0
  ops := 0
  adapters := []
  init := [1, 2]
  weights := []
  totalBytes := 0
  sigOff := 0
  offsetsOk := true
  reservedOk := true
  digest := [7]

/-- An image of one tier-0 tile with one lane and one slot of shape 5. -/
def tinyImage : Image where
  format := 1
  contract := 1
  period := 1
  nL := 1
  n0 := 1
  lockstep := false
  emitStart := 6400
  sections := 1
  totalBytes := 0
  opsTotal := 0
  opsP0 := 0
  stateTotal := 0
  boardBytes := 0
  p0Lanes := 1
  layoutDigest := []
  layoutOk := true
  fieldsOk := true
  sigOff := 0
  digest := [9]
  ltiles := [⟨0, 1, 1, 0, 1, 1, false, 0, [], []⟩]
  slots := [⟨0, 0, 5, 100, 0⟩]
  lanes := [⟨0, 1, 5, none, 0⟩]
  board := []
  ckptMap := [⟨0, 0, 0, 0, 0⟩]

/-- A descriptor of class 1 with model 2 and codebook 1. -/
def tinyDesc : Desc := { Desc.zero with cls := 1, openBit := true, kind := 3, model := 2, codebook := 1, lane := 0xFFFF }

/-- The image is in force on tile T0, its model in the library, its codebook stored. -/
def imgOn : State := { readyOn with
  img := { Images.init with
    store := vupd Images.init.store 0 (fun _ => ⟨.inForce, [], some tinyImage⟩)
    inForce := some 0
    binds := [⟨some 0, 1, 0, false, 0⟩] }
  eng := { Engine.init with
    tiles := vupd Engine.init.tiles 0 (fun x => { x with st := .active })
    lib := [(2, ⟨.valid, [], some tinyModel⟩)]
    books := [(1, ⟨[0, 0x3F800000, 0x40000000], [0, 0]⟩)] } }

/-- The same in RUN. -/
def imgRun : State := { imgOn with
  part := { imgOn.part with st := .run }
  eng := { imgOn.eng with running := true, any := true, next := 64, frame := 63 }
  nums := [(Obj.launchAt.key, 1)] }

/-- An export of one frame without blocks, and the full ring that holds it. -/
def anExport : Export := ⟨true, 1, 0, 1, 1, 0, 0, 0, [], [], [], ⟨0, 0, []⟩, [], 0⟩
def withExport (x : Export) (s : State) : State := { s with eng := { s.eng with ring := { s.eng.ring with exp := some x } } }

def withSess (k : Nat) (x : Sess) (s : State) : State := setSess k x s

/-- Session 2 has two bytes of state on lane 0 of that image, and is stopped until frame 66. -/
def stoppedOn : State := withSess 2 { Sess.closed with st := .opened, lane := 0, state := [1, 2], stopUntil := some 66 } imgRun

/-- An ODA session of SERVICE on the service port, of the peer at place 0, as session 1. -/
def odaSess : Session where
  pending := false
  setupId := 4
  peer := [1]
  place := 0
  auth := .service
  port := 2
  redundant := false
  timeUnchecked := false
  root := .slot 0
  chain := []
  outstanding := 0
  lastRx := 0
  txSeq := 5
  rxHigh := 3
  rxSeen := []
  due := 999999
  subs := [(2, ⟨1, 4, [(0x121002, 0)], 8, [], none, none⟩)]
  blocks := [(3, ⟨0x404000, true, 2, [], [], 999999⟩), (5, ⟨0x7000, false, 4, [], [9, 8, 7, 6], 999999⟩)]
  quote := none
  macsecReqs := 0
  ss := []
  h2 := []
  keyPd := []
  keyDp := []
  saltPd := []
  saltDp := []

def peer0 : Peer := ⟨[1], .service, 3, [⟨4, 77, .applied, 2, 1, 1, 0, some (.write 0x120102 0 (.num 9))⟩], [⟨4, some (.write 0x120102 0 (.num 9)), some ⟨1, 4, 0, 77, false, false, 1, 0xFFFF, [77], [], 0⟩, 888⟩], 4, 77, 0⟩

/-- The dictionary engine serves that session on a service link that is up. -/
def odaOn : State := { readyOn with
  part := { readyOn.part with strap := true }
  port := { readyOn.port with svcOn := true, svcUp := true }
  oda := { Oda.init with serving := true, sessions := [(1, odaSess)], nextSess := 2, nextBlock := 5, nextTag := 4, peers := [(0, peer0)] } }

def withOdaSess (f : Session → Session) (s : State) : State := { s with oda := { s.oda with sessions := [(1, f odaSess)] } }

/-! ## WellFormed: for each command with a check, a term it accepts and, for each of its checks, one it refuses -/

theorem test_wf_rye_release : wellFormed (.ryeRelease 0 0 0) = true ∧
    [.ryeRelease 256 0 0,
      .ryeRelease 0 4096 0,
      .ryeRelease 0 0 256].all (fun i => !(wellFormed i)) = true := by decide
theorem test_wf_sync_in_edge : wellFormed (.syncInEdge 0 0) = true ∧
    [.syncInEdge 18446744073709551616 0].all (fun i => !(wellFormed i)) = true := by decide
theorem test_wf_time_source_changed : wellFormed (.timeSourceChanged .facility 0) = true ∧
    [.timeSourceChanged .facility 18446744073709551616].all (fun i => !(wellFormed i)) = true := by decide
theorem test_wf_time_set : wellFormed (.timeSet .facility 0) = true ∧
    [.timeSet .facility 18446744073709551616].all (fun i => !(wellFormed i)) = true := by decide
theorem test_wf_launch_at : wellFormed (.launchAt .facility 0) = true ∧
    [.launchAt .facility 18446744073709551616].all (fun i => !(wellFormed i)) = true := by decide
theorem test_wf_frame_stop_at : wellFormed (.frameStopAt .facility 0) = true ∧
    [.frameStopAt .facility 18446744073709551616].all (fun i => !(wellFormed i)) = true := by decide
theorem test_wf_sample_arrival : wellFormed (.sampleArrival 0 0 false (.int 0 0)) = true ∧
    [.sampleArrival 4294967296 0 false (.int 0 0),
      .sampleArrival 0 18446744073709551616 false (.int 0 0)].all (fun i => !(wellFormed i)) = true := by decide
theorem test_wf_checkpoint_restore_done : wellFormed (.checkpointRestoreDone false false [] []) = true ∧
    [.checkpointRestoreDone false false [10240] [],
      .checkpointRestoreDone false false [] [10240]].all (fun i => !(wellFormed i)) = true := by decide
theorem test_wf_uncorrectable_word : wellFormed (.uncorrectableWord 0 0 false false) = true ∧
    [.uncorrectableWord 0 18446744073709551616 false false].all (fun i => !(wellFormed i)) = true := by decide
theorem test_wf_concord_summary_received : wellFormed (.concordSummaryReceived (Summary.mk 1 0 0 0 0 [] 0 0 0 0 []) 0) = true ∧
    [.concordSummaryReceived (Summary.mk 1 0 0 0 0 [] 0 0 0 0 []) 18446744073709551616].all (fun i => !(wellFormed i)) = true := by decide
theorem test_wf_branch_on : wellFormed (.branchOn 0 []) = true ∧
    [.branchOn 0 (List.replicate 9 0)].all (fun i => !(wellFormed i)) = true := by decide
theorem test_wf_trip_fraction_update : wellFormed (.tripFractionUpdate (List.replicate 12 (List.replicate 10 8191))) = true ∧
    [.tripFractionUpdate [],
      .tripFractionUpdate (List.replicate 12 [1]),
      .tripFractionUpdate (List.replicate 12 (List.replicate 10 8192)),
      .tripFractionUpdate (List.replicate 12 (List.replicate 10 (-8193)))].all (fun i => !(wellFormed i)) = true := by decide
theorem test_wf_trip_not_cleared : wellFormed (.tripNotCleared 0 []) = true ∧
    [.tripNotCleared 0 [1]].all (fun i => !(wellFormed i)) = true := by decide
theorem test_wf_vds_high : wellFormed (.vdsHigh 0 0 []) = true ∧
    [.vdsHigh 0 0 [1]].all (fun i => !(wellFormed i)) = true := by decide
theorem test_wf_vds_high_clear : wellFormed (.vdsHighClear 0 0 []) = true ∧
    [.vdsHighClear 0 0 [1]].all (fun i => !(wellFormed i)) = true := by decide
theorem test_wf_foster_update : wellFormed (.fosterUpdate (List.replicate 12 0) (List.replicate 12 0) (List.replicate 12 0)) = true ∧
    [.fosterUpdate [] (List.replicate 12 0) (List.replicate 12 0),
      .fosterUpdate (List.replicate 12 0) [] (List.replicate 12 0),
      .fosterUpdate (List.replicate 12 0) (List.replicate 12 0) []].all (fun i => !(wellFormed i)) = true := by decide
theorem test_wf_seq_list_write : wellFormed (.seqListWrite .facility 0 .up []) = true ∧
    [.seqListWrite .facility 0 .none []].all (fun i => !(wellFormed i)) = true := by decide
theorem test_wf_temp_conversion : wellFormed (.tempConversion (List.replicate 72 none) (List.replicate 8 0)) = true ∧
    [.tempConversion [] (List.replicate 8 0),
      .tempConversion (List.replicate 72 none) []].all (fun i => !(wellFormed i)) = true := by decide
theorem test_wf_engine_cap_level_write : wellFormed (.engineCapLevelWrite .facility 0) = true ∧
    [.engineCapLevelWrite .facility 18446744073709551616].all (fun i => !(wellFormed i)) = true := by decide
theorem test_wf_accel_request_write : wellFormed (.accelRequestWrite .facility 0 0) = true ∧
    [.accelRequestWrite .facility 0 18446744073709551616].all (fun i => !(wellFormed i)) = true := by decide
theorem test_wf_wdog_kick : wellFormed (.wdogKick 0 0) = true ∧
    [.wdogKick 0 18446744073709551616].all (fun i => !(wellFormed i)) = true := by decide
theorem test_wf_l2_invalidate : wellFormed (.l2Invalidate 0 0) = true ∧
    [.l2Invalidate 0 18446744073709551616].all (fun i => !(wellFormed i)) = true := by decide
theorem test_wf_oda_read : wellFormed (.odaRead 0 0 0 0 false) = true ∧
    [.odaRead 4294967296 0 0 0 false,
      .odaRead 0 18446744073709551616 0 0 false,
      .odaRead 0 0 4294967296 0 false,
      .odaRead 0 0 0 256 false].all (fun i => !(wellFormed i)) = true := by decide
theorem test_wf_oda_write : wellFormed (.odaWrite 0 0 0 0 (.num 0)) = true ∧
    [.odaWrite 4294967296 0 0 0 (.num 0),
      .odaWrite 0 18446744073709551616 0 0 (.num 0),
      .odaWrite 0 0 4294967296 0 (.num 0),
      .odaWrite 0 0 0 256 (.num 0)].all (fun i => !(wellFormed i)) = true := by decide
theorem test_wf_read_multi : wellFormed (.readMulti 0 0 []) = true ∧
    [.readMulti 4294967296 0 [],
      .readMulti 0 18446744073709551616 [],
      .readMulti 0 0 [(4294967296, 0)],
      .readMulti 0 0 [(0, 256)]].all (fun i => !(wellFormed i)) = true := by decide
theorem test_wf_write_multi : wellFormed (.writeMulti 0 0 []) = true ∧
    [.writeMulti 4294967296 0 [],
      .writeMulti 0 18446744073709551616 [],
      .writeMulti 0 0 [(4294967296, 0, .num 0)],
      .writeMulti 0 0 [(0, 256, .num 0)]].all (fun i => !(wellFormed i)) = true := by decide
theorem test_wf_fw_completion : wellFormed (.fwCompletion 0 0 (.num 0)) = true ∧
    [.fwCompletion 4294967296 0 (.num 0),
      .fwCompletion 0 4294967296 (.num 0)].all (fun i => !(wellFormed i)) = true := by decide
theorem test_wf_subscribe : wellFormed (.subscribe 0 0 0 0 0 []) = true ∧
    [.subscribe 4294967296 0 0 0 0 [],
      .subscribe 0 18446744073709551616 0 0 0 [],
      .subscribe 0 0 256 0 0 [],
      .subscribe 0 0 0 256 0 [],
      .subscribe 0 0 0 0 4294967296 [],
      .subscribe 0 0 0 0 0 [(4294967296, 0)],
      .subscribe 0 0 0 0 0 [(0, 256)]].all (fun i => !(wellFormed i)) = true := by decide
theorem test_wf_periodic_notify : wellFormed (.periodicNotify 0 0 []) = true ∧
    [.periodicNotify 4294967296 0 [],
      .periodicNotify 0 256 []].all (fun i => !(wellFormed i)) = true := by decide
theorem test_wf_event_notify : wellFormed (.eventNotify 0 0) = true ∧
    [.eventNotify 4294967296 0,
      .eventNotify 0 256].all (fun i => !(wellFormed i)) = true := by decide
theorem test_wf_block_read_start : wellFormed (.blockReadStart 0 0 0 0 0) = true ∧
    [.blockReadStart 4294967296 0 0 0 0,
      .blockReadStart 0 18446744073709551616 0 0 0,
      .blockReadStart 0 0 4294967296 0 0,
      .blockReadStart 0 0 0 256 0].all (fun i => !(wellFormed i)) = true := by decide
theorem test_wf_block_read_seg : wellFormed (.blockReadSeg 0 0 0 0 0) = true ∧
    [.blockReadSeg 4294967296 0 0 0 0,
      .blockReadSeg 0 18446744073709551616 0 0 0,
      .blockReadSeg 0 0 4294967296 0 0,
      .blockReadSeg 0 0 0 18446744073709551616 0,
      .blockReadSeg 0 0 0 0 18446744073709551616].all (fun i => !(wellFormed i)) = true := by decide
theorem test_wf_block_write_start : wellFormed (.blockWriteStart 0 0 0 0 0) = true ∧
    [.blockWriteStart 4294967296 0 0 0 0,
      .blockWriteStart 0 18446744073709551616 0 0 0,
      .blockWriteStart 0 0 4294967296 0 0,
      .blockWriteStart 0 0 0 256 0,
      .blockWriteStart 0 0 0 0 18446744073709551616].all (fun i => !(wellFormed i)) = true := by decide
theorem test_wf_block_write_seg : wellFormed (.blockWriteSeg 0 0 0 0 []) = true ∧
    [.blockWriteSeg 4294967296 0 0 0 [],
      .blockWriteSeg 0 18446744073709551616 0 0 [],
      .blockWriteSeg 0 0 4294967296 0 [],
      .blockWriteSeg 0 0 0 18446744073709551616 []].all (fun i => !(wellFormed i)) = true := by decide
theorem test_wf_block_write_end : wellFormed (.blockWriteEnd 0 0 0 0) = true ∧
    [.blockWriteEnd 4294967296 0 0 0,
      .blockWriteEnd 0 18446744073709551616 0 0,
      .blockWriteEnd 0 0 4294967296 0,
      .blockWriteEnd 0 0 0 18446744073709551616].all (fun i => !(wellFormed i)) = true := by decide
theorem test_wf_block_close : wellFormed (.blockClose 0 0 0) = true ∧
    [.blockClose 4294967296 0 0,
      .blockClose 0 18446744073709551616 0,
      .blockClose 0 0 4294967296].all (fun i => !(wellFormed i)) = true := by decide
theorem test_wf_block_timeout : wellFormed (.blockTimeout 0 0) = true ∧
    [.blockTimeout 4294967296 0,
      .blockTimeout 0 4294967296].all (fun i => !(wellFormed i)) = true := by decide
theorem test_wf_ledger_query : wellFormed (.ledgerQuery 0 0 (List.replicate 32 0) []) = true ∧
    [.ledgerQuery 4294967296 0 (List.replicate 32 0) [],
      .ledgerQuery 0 18446744073709551616 (List.replicate 32 0) [],
      .ledgerQuery 0 0 [] [],
      .ledgerQuery 0 0 (List.replicate 32 0) [18446744073709551616]].all (fun i => !(wellFormed i)) = true := by decide
theorem test_wf_replay_cache_expiry : wellFormed (.replayCacheExpiry 0 0) = true ∧
    [.replayCacheExpiry 32 0,
      .replayCacheExpiry 0 18446744073709551616].all (fun i => !(wellFormed i)) = true := by decide
theorem test_wf_setup_init : wellFormed (.setupInit 0 0 0 0 [] [] .itself) = true ∧
    [.setupInit 0 18446744073709551616 0 0 [] [] .itself,
      .setupInit 0 0 256 0 [] [] .itself,
      .setupInit 0 0 0 256 [] [] .itself].all (fun i => !(wellFormed i)) = true := by decide
theorem test_wf_setup_finish : wellFormed (.setupFinish 0 0 0 false) = true ∧
    [.setupFinish 4294967296 0 0 false,
      .setupFinish 0 0 18446744073709551616 false].all (fun i => !(wellFormed i)) = true := by decide
theorem test_wf_session_close : wellFormed (.sessionClose 0) = true ∧
    [.sessionClose 4294967296].all (fun i => !(wellFormed i)) = true := by decide
theorem test_wf_setup_timeout : wellFormed (.setupTimeout 0) = true ∧
    [.setupTimeout 4294967296].all (fun i => !(wellFormed i)) = true := by decide
theorem test_wf_session_idle_timeout : wellFormed (.sessionIdleTimeout 0) = true ∧
    [.sessionIdleTimeout 4294967296].all (fun i => !(wellFormed i)) = true := by decide
theorem test_wf_port_mode : wellFormed (.portMode .facility 0 0) = true ∧
    [.portMode .facility 0 18446744073709551616].all (fun i => !(wellFormed i)) = true := by decide
theorem test_wf_network_control_request : wellFormed (.networkControlRequest 0 0 []) = true ∧
    [.networkControlRequest 0 256 [],
      .networkControlRequest 0 0 (List.replicate 17 0)].all (fun i => !(wellFormed i)) = true := by decide
theorem test_wf_telemetry_frame : wellFormed (.telemetryFrame 0 0 [] false false 0) = true ∧
    [.telemetryFrame 0 65536 [] false false 0].all (fun i => !(wellFormed i)) = true := by decide
theorem test_wf_macsec_key_req : wellFormed (.macsecKeyReq 0 0) = true ∧
    [.macsecKeyReq 4294967296 0].all (fun i => !(wellFormed i)) = true := by decide
theorem test_wf_dma_go : wellFormed (.dmaGo 0 0 0 0 0 0 0 [] []) = true ∧
    [.dmaGo 0 4294967296 0 0 0 0 0 [] [],
      .dmaGo 0 0 18446744073709551616 0 0 0 0 [] [],
      .dmaGo 0 0 0 18446744073709551616 0 0 0 [] [],
      .dmaGo 0 0 0 0 4294967296 0 0 [] [],
      .dmaGo 0 0 0 0 0 4294967296 0 [] [],
      .dmaGo 0 0 0 0 0 0 18446744073709551616 [] []].all (fun i => !(wellFormed i)) = true := by decide
theorem test_wf_sync_set : wellFormed (.syncSet 0 0) = true ∧
    [.syncSet 0 18446744073709551616].all (fun i => !(wellFormed i)) = true := by decide
theorem test_wf_sync_signal : wellFormed (.syncSignal 0 0) = true ∧
    [.syncSignal 0 18446744073709551616].all (fun i => !(wellFormed i)) = true := by decide
theorem test_wf_wait_slot_arm : wellFormed (.waitSlotArm 0 0 false false 0 0) = true ∧
    [.waitSlotArm 0 0 false false 0 18446744073709551616].all (fun i => !(wellFormed i)) = true := by decide
theorem test_wf_mem_ue : wellFormed (.memUe 0) = true ∧
    [.memUe 18446744073709551616].all (fun i => !(wellFormed i)) = true := by decide
theorem test_wf_fw_code_raise : wellFormed (.fwCodeRaise 0 0) = true ∧
    [.fwCodeRaise 0 4294967296].all (fun i => !(wellFormed i)) = true := by decide
theorem test_wf_quote_req : wellFormed (.quoteReq 0 (List.replicate 32 0)) = true ∧
    [.quoteReq 4294967296 (List.replicate 32 0),
      .quoteReq 0 []].all (fun i => !(wellFormed i)) = true := by decide
theorem test_wf_quote_signed : wellFormed (.quoteSigned 0 []) = true ∧
    [.quoteSigned 4294967296 []].all (fun i => !(wellFormed i)) = true := by decide

/-! ## The spec's own worked examples -/

/-- 05 R180: the check value of the CRC. -/
theorem test_crc64_check_value : crc64 [0x31, 0x32, 0x33, 0x34, 0x35, 0x36, 0x37, 0x38, 0x39] = 0x995DC9BBDF1939FA := by decide +kernel

/-- 00: with LAUNCH_AT 1,000,000,000 frame 4 starts at 1,000,200,000, and a sample stamped at 1,000,198,500 enters frame 5. -/
theorem test_worked_latch : let s := { runOn with nums := [(Obj.launchAt.key, 1000000000)] }
    startOf s 4 = 1000200000 ∧ frameOfCount s 1000198500 = 5 ∧ frameOfCount s 1000198000 = 4 := by decide +kernel

/-- 04: code 2,662 at 25/1,024 A per code is 64.990234375 A, token 129 of edges at 0.5 A. -/
theorem test_worked_token :
    (tokenize { Desc.zero with scale := 0x3CC80000 } ((List.range 256).map (fun (i : Nat) => f32OfRat ((i : Rat) / 2))) (some ⟨f32OfRat 2662, false⟩)
      none Sess.closed).1 = 129 ∧
    fFma (f32OfRat 2662) 0x3CC80000 0 = f32OfRat 64.990234375 := by decide +kernel

def lossPlan : PlanOut :=
  planLists ((List.range' 0 4) ++ List.range' 32 4) (List.range' 4 20 ++ List.range' 36 20) (List.range' 24 8 ++ List.range' 56 8) 2 4 34 34

/-- 06: the plan of domain 0 after domain 1 is lost folds tier 1 by 2 and tier 2 by 4. -/
theorem test_worked_plan : lossPlan.f1 = 2 ∧ lossPlan.f2 = 4 := by decide +kernel

/-- 06: which tiles the groups take. -/
theorem test_worked_binding :
    let b := bindDomain ((List.range 64).map (fun l => ⟨some (if l < 32 then l else l + 2), 1, 0, false, 0⟩)) (List.range 34) lossPlan
    (b.lookup 3).map (·.ptile) = some (some 3) ∧ (b.lookup 32).map (·.ptile) = some (some 4) ∧
    (b.lookup 5).map (fun x => (x.ptile, x.fold, x.member)) = some (some 8, 2, 1) ∧
    (b.lookup 62).map (fun x => (x.ptile, x.fold, x.member)) = some (some 31, 4, 2) := by decide +kernel

/-- 06: the length of the hold. -/
theorem test_worked_hold : holdFrames 47710208 32 50000 = 31 := by decide

/-- 10 Table 10.2: the fold factors of tiers 1 and 2 at throttle levels 1, 2 and 5. -/
theorem test_worked_throttle :
    ([28, 24, 16].map (fun u => let p := planLists (List.range' 0 4) (List.range' 4 20) (List.range' 24 8) 2 4 u 34
      (p.f1, p.f2))) = [(1, 2), (2, 4), (2, 4)] := by decide +kernel

/-- A state in which the branch b is ON at 70 A with a demand, as 08 Table 8.10 begins. -/
def shorted : State := withBr 4 (fun x => { x with st := .latched, watchDue := some 130 })
  (withBr 0 (fun x => { x with st := .on }) { readyOn with nums := [(Obj.branchFastCode 4 |>.key, 200)] })

/-- 08 Table 8.10: at 310 A, above 40 A, B4 goes to FAULT_FET and B0 latches. -/
theorem test_worked_escalation : (match execTripNotCleared 4 (List.replicate 10 3875) shorted with
    | .next t => ((t.br.get 4).st, (t.br.get 0).st, (t.br.get 0).cause)
    | _ => (.off, .off, .none)) = (.faultFet, .latched, .escalation) := by decide +kernel

/-- 08 Table 8.11: a removal edge puts B6 into HELD and starts T_REINS from its full value. -/
theorem test_worked_removal : (match execPresenceEdge 5 false 0 (withBr 6 (fun x => { x with st := .on, seated := true })
      { readyOn with clk := { readyOn.clk with cycles := 250 } }) with
    | .next t => ((t.br.get 6).st, (t.br.get 6).treins)
    | _ => (.off, none)) = (.held, some (250 + msCycles 2000)) := by decide +kernel

/-- 09 Table 9.7: with nothing running on the closing cycle PGOOD rises, and with a deglitch running it does not. -/
theorem test_worked_pg_window :
    let s := withSq 4 (fun x => { x with st := .pgWindow, rails := vupd x.rails 5 (fun r => { r with enabled := true, uvArmed := true }) })
      (setN readyOn (Obj.railNominalV (railNo 4 5)) 0x3F800000)
    ([[], [((5 : Fin 16), Level.uvFault, 0)]].map (fun run => match execPgWindowClose 4 run 0 s with
      | .next t => (t.sq.get 4).pgood
      | _ => false)) = [true, false] := by decide +kernel

/-- 12 Table 12.7 and R358: a WRITE of LAUNCH_AT (0x1210.02, COUNT) and a READ_MULTI of it and VENDOR, addresses and values
packed without padding, least significant byte first. -/
theorem test_request_bytes :
    let head (op aux len : Byte) : List Byte := [1, op, 0, 0, 7, 0, 0, 0] ++ List.replicate 16 0 ++ [len, 0, aux, 0, 0, 0, 0, 0]
    requestOf readyOn (head 2 0 12 ++ [0x10, 0x12, 0x02, 0x0F, 0xE8, 0x03, 0, 0, 0, 0, 0, 0]) = some (.write 0x121002 15 (.num 1000)) ∧
    requestOf readyOn (head 3 2 8 ++ [0x10, 0x12, 0x02, 0x0F, 0x00, 0x10, 0x01, 0x0D]) = some (.readMulti [(0x121002, 15), (0x100001, 13)]) := by
  decide +kernel

/-! ## The ball map (18 R501 to R506, with the positions of its example) -/

theorem test_row_names : ([1, 19, 20, 38, 39, 56].map rowName) = ["A", "Y", "AA", "AY", "BA", "BW"] := by decide

theorem test_region_signals :
    hvNets.length = 71 ∧ ([BallRegion.s1, .s2, .s3, .m1, .m2, .m3].map (fun r => r.signals.length)) = [472, 93, 118, 120, 114, 514] := by
  decide +kernel

theorem test_ball_positions :
    netAt ⟨1, 1⟩ = some .vin56 ∧ netAt ⟨15, 17⟩ = none ∧ netAt ⟨1, 19⟩ = some (.railEn 0 0) ∧ netAt ⟨2, 46⟩ = some (.seqOut 0 6) ∧
    netAt ⟨17, 42⟩ = some (.thermtripN 7) ∧ netAt ⟨17, 43⟩ = some .vss := by
  decide +kernel

/-! ## Hold-up and latency (18 R520, 19 R528, with their examples) -/

theorem test_release_time : releaseMs 264 = 3765 / 1000 ∧ holdupMj 150 = 81 / 10 := by decide +kernel

theorem test_p1_latency : p1LatencyNs 51052 = 46000 ∧ p1LatencyNs 6400 = 102784 / 10 := by decide +kernel

/-! ## For every statement with hypotheses, a state and operands that meet them -/

theorem witness_idle_rc : ∃ s : State, s.pending = [] ∧ s.clk.running = true ∧ (∀ q ∈ s.oda.waiting, q.waiting ≠ .behind) ∧ s.clk.rc = true :=
  ⟨{ ryeOn with clk := { ryeOn.clk with rc := true } }, by decide⟩
theorem witness_idle_fabric : ∃ s : State, s.pending = [] ∧ s.clk.running = true ∧ (∀ q ∈ s.oda.waiting, q.waiting ≠ .behind) ∧
    s.clk.rc = false ∧ s.clk.sub < 39 ∧ s.part.reset = false := ⟨readyOn, by decide⟩
theorem witness_idle_xtal : ∃ s : State, s.pending = [] ∧ s.clk.running = true ∧ (∀ q ∈ s.oda.waiting, q.waiting ≠ .behind) ∧
    s.clk.rc = false ∧ 39 ≤ s.clk.sub ∧ s.clk.freqPpb = 0 ∧ s.clk.slew = 0 :=
  ⟨{ ryeOn with clk := { ryeOn.clk with sub := 39 } }, by decide⟩
theorem witness_idle_stopped : ∃ s : State, s.pending = [] ∧ s.clk.running = false := ⟨State.reset, by decide⟩

theorem witness_identity : ∃ (s : State) (i : Ident), s.ident = i := ⟨State.reset, Ident.dw88064A, by decide⟩

theorem witness_memory : ∃ s t : State, s.mem.wf = true ∧ step s = .next t := ⟨State.reset, State.reset, by decide, rfl⟩

theorem witness_HoldupConverterAndRyeRelease_1 : ∃ (v : Rat) (s : State), s.part.st = .off ∧ s.pow.holdup = .off ∧ 36 ≤ v :=
  ⟨54, State.reset, by decide +kernel⟩
theorem witness_HoldupConverterAndRyeRelease_2 : ∃ (s : State), s.pow.holdup = .charging ∧ s.clk.running = false :=
  ⟨{ State.reset with pow := { Power.init with holdup := .charging } }, by decide +kernel⟩
theorem witness_HoldupConverterAndRyeRelease_3 : ∃ (seated enabled thermtrip : Nat) (s : State), s.pow.holdup = .charging :=
  ⟨0xFF, 0xFFF, 0xFF, { State.reset with pow := { Power.init with holdup := .charging, rcbA := ⟨0, false, [], []⟩, rcbB := ⟨0, false, [], []⟩ } }, by decide +kernel⟩
theorem witness_HoldupConverterAndRyeRelease_4 : ∃ (s : State), s.pow.vinLost = true :=
  ⟨{ ryeOn with pow := { ryeOn.pow with vinLost := true } }, by decide +kernel⟩
theorem witness_HoldupConverterAndRyeRelease_5 : ∃ (v : Rat) (s : State), s.pow.holdup ≠ .off ∧ v < 28 :=
  ⟨20, ryeOn, by decide +kernel⟩
theorem witness_HoldupConverterAndRyeRelease_6 : ∃ (v : Rat) (s : State), s.clk.running = true ∧ s.pow.vinLost = true ∧ 28 ≤ v :=
  ⟨28, { ryeOn with pow := { ryeOn.pow with vinLost := true } }, by decide +kernel⟩

theorem witness_InputLossAndReturn_1 : ∃ (v : Rat) (since : Nat) (a : Fin 8) (s : State), s.clk.running = true ∧ v < 40 ∧ s.pow.vinLow = false ∧ (s.sq.get (seqOf a)).st.active = true ∧ (s.sq.get (seqOf a)).causeAt ≠ (stands since (usCycles 10) s).clk.cycles :=
  ⟨39, 0, 3, withSq 3 (fun x => { x with st := .on, pgood := true, causeAt := 7 }) ryeOn, by decide +kernel⟩
theorem witness_InputLossAndReturn_2 : ∃ (s : State), s.pow.vinLow = true ∧ (s.br.get 0).st = .on ∧ (s.sq.get sSelf).st = .on :=
  ⟨withBr 0 (fun x => { x with st := .on }) (withSq sSelf (fun x => { x with st := .on }) { ryeOn with pow := { ryeOn.pow with vinLow := true } }), by decide +kernel⟩
theorem witness_InputLossAndReturn_3 : ∃ (s : State), s.clk.running = true ∧ (s.br.get 0).st ≠ .on ∧ (s.br.get 0).vout < 40 ∧ (s.sq.get sSelf).st = .on :=
  ⟨withBr 0 (fun x => { x with st := .off }) (withSq sSelf (fun x => { x with st := .on }) ryeOn), by decide +kernel⟩
theorem witness_InputLossAndReturn_4 : ∃ (v : Rat) (s : State), s.pow.vinLow = true ∧ v < 30 ∧ (s.br.get 0).st.live = true :=
  ⟨29, withBr 0 (fun x => { x with st := .on }) { ryeOn with pow := { ryeOn.pow with vinLow := true } }, by decide +kernel⟩
theorem witness_InputLossAndReturn_5 : ∃ (s : State), s.pow.vinLow = true ∧ s.pow.nutDone = false ∧ s.nut.lossCommit = none :=
  ⟨{ ryeOn with pow := { ryeOn.pow with vinLow := true } }, by decide +kernel⟩
theorem witness_InputLossAndReturn_6 : ∃ (written t0 : Nat) (s : State), s.nut.lossCommit = some t0 :=
  ⟨3, 5, { ryeOn with nut := { Nutmeg.init with lossCommit := some 5 } }, by decide +kernel⟩
theorem witness_InputLossAndReturn_7 : ∃ (s : State), s.clk.running = true ∧ s.pow.vinLost = true ∧ s.pow.nutDone = true ∧ (s.sq.get sSelf).st = .idle ∧ s.clk.rc = false :=
  ⟨{ ryeOn with pow := { ryeOn.pow with vinLost := true, nutDone := true } }, by decide +kernel⟩
theorem witness_InputLossAndReturn_8 : ∃ (v : Rat) (s : State), s.pow.vinLow = true ∧ s.pow.vinLost = false ∧ 40 ≤ v :=
  ⟨40, { ryeOn with pow := { ryeOn.pow with vinLow := true } }, by decide +kernel⟩
theorem witness_InputLossAndReturn_9 : ∃ (v : Rat) (since : Nat) (s : State), s.clk.running = true ∧ getF s Obj.vinOv < v ∧ (s.br.get 0).st.live = true :=
  ⟨100, 0, withBr 0 (fun x => { x with st := .on }) ryeOn, by decide +kernel⟩
theorem witness_InputLossAndReturn_10 : ∃ (v : Rat) (s : State), s.clk.running = true ∧ s.clk.rc = false ∧ 40 ≤ v ∧ v ≤ getF s Obj.vinOv ∧ s.pow.vinLow = false :=
  ⟨54, ryeOn, by decide +kernel⟩

theorem witness_MainDieBoot_1 : ∃ (s : State), s.part.reset = false ∧ s.part.boot = .puf :=
  ⟨{ readyOn with part := { readyOn.part with st := .boot, boot := .puf } }, by decide +kernel⟩
theorem witness_MainDieBoot_2 : ∃ (s : State), s.part.reset = false ∧ s.part.boot = .puf ∧ s.cardamom.attempt < 2 :=
  ⟨{ readyOn with part := { readyOn.part with st := .boot, boot := .puf } }, by decide +kernel⟩
theorem witness_MainDieBoot_3 : ∃ (s : State), s.part.reset = false ∧ s.part.boot = .puf ∧ s.cardamom.attempt = 2 ∧ s.cardamom.pufCopy = 1 :=
  ⟨{ readyOn with part := { readyOn.part with st := .boot, boot := .puf }, cardamom := { Security.init with attempt := 2, pufCopy := 1 } }, by decide +kernel⟩
theorem witness_MainDieBoot_4 : ∃ (r : SecRecord) (s : State), s.part.reset = false ∧ s.part.boot = .keys ∧ newestRec s.cardamom = some r :=
  ⟨SecRecord.empty, { readyOn with part := { readyOn.part with st := .boot, boot := .keys } }, by decide +kernel⟩
theorem witness_MainDieBoot_5 : ∃ (s : State), s.part.reset = false ∧ s.part.boot = .keys ∧ newestRec s.cardamom = none :=
  ⟨{ readyOn with part := { readyOn.part with st := .boot, boot := .keys }, cardamom := { Security.init with recA := { SecRecord.empty with valid := false }, recB := { SecRecord.empty with valid := false } } }, by decide +kernel⟩
theorem witness_MainDieBoot_6 : ∃ (read : Option (List Byte)) (x : FwImage) (s : State), s.part.reset = false ∧ s.part.boot = .stream ∧ streamed s read = some x ∧ x.trusted = true ∧ x.layout = Config.layoutDigest ∧ rollbackCtr s ≤ x.rollback :=
  ⟨some [], ⟨1, 0, 1, 1, 4096, [], [], [], Config.layoutDigest, true⟩, { readyOn with part := { readyOn.part with st := .boot, boot := .stream }, bar := { Barley.init with slotA := ⟨.valid, some ⟨1, 0, 1, 1, 4096, [], [], [], Config.layoutDigest, true⟩⟩ } }, ⟨rfl, rfl, rfl, rfl, rfl, by decide⟩⟩
theorem witness_MainDieBoot_7 : ∃ (s : State), s.part.reset = false ∧ s.part.boot = .stream ∧ s.part.slotTried = 0 ∧ s.bar.restartTrial = false :=
  ⟨{ readyOn with part := { readyOn.part with st := .boot, boot := .stream } }, by decide +kernel⟩
theorem witness_MainDieBoot_8 : ∃ (s : State), s.part.reset = false ∧ s.part.boot = .stream ∧ s.part.slotTried ≠ 0 :=
  ⟨{ readyOn with part := { readyOn.part with st := .boot, boot := .stream, slotTried := 1 } }, by decide +kernel⟩
theorem witness_MainDieBoot_9 : ∃ (ok : Bool) (s : State), s.part.reset = false ∧ s.part.boot = .train :=
  ⟨false, { readyOn with part := { readyOn.part with st := .boot, boot := .train } }, by decide +kernel⟩
theorem witness_MainDieBoot_10 : ∃ (s : State), s.part.reset = false ∧ s.part.boot = .start ∧ s.part.st ≠ .safe :=
  ⟨{ readyOn with part := { readyOn.part with st := .boot, boot := .start } }, by decide +kernel⟩
theorem witness_MainDieBoot_11 : ∃ (n : Fin 68) (s : State), (s.eng.tiles.get n).st = .none_ ∧ s.part.st = .ready ∧ n.val ∉ s.ident.absent ∧ getN s (Obj.tileRetired n.val) ≠ 1 ∧ imageNow s = none :=
  ⟨5, readyOn, by decide +kernel⟩
theorem witness_MainDieBoot_12 : ∃ (n : Fin 68) (pass : Bool) (s : State), (s.eng.tiles.get n).st = .none_ ∧ s.part.st = .ready :=
  ⟨5, false, readyOn, by decide +kernel⟩

theorem witness_PartStatesAndRestarts_1 : ∃ (s : State), mayCommandSafe s = true :=
  ⟨{ readyOn with bar := { Barley.init with fwImage := some ⟨1, 0, 1, 1, 4096, [], [], [], [], true⟩ } }, by decide +kernel⟩
theorem witness_PartStatesAndRestarts_2 : ∃ (s : State), s.part.st = .safe ∧ s.part.safeCause = .warden ∧ s.part.reset = false :=
  ⟨{ readyOn with part := { readyOn.part with st := .safe, safeCause := .warden } }, by decide +kernel⟩
theorem witness_PartStatesAndRestarts_3 : ∃ (au : Auth) (kept : Bool) (s : State), s.oda.serving = true ∧ precheck s au Obj.partRestart.key 0 (.num 1) = 0 ∧ s.part.reset = false :=
  ⟨.service, true, readyOn, by decide +kernel⟩
theorem witness_PartStatesAndRestarts_4 : ∃ (kept : Bool) (s : State), s.clk.running = true ∧ s.part.reset = false ∧ s.part.st ≠ .safe :=
  ⟨true, runOn, by decide +kernel⟩
theorem witness_PartStatesAndRestarts_5 : ∃ (s : State), s.part.reset = true ∧ s.part.resetDue ≠ 0 ∧ (s.sq.get sSelf).st = .on ∧ s.part.safeCause ≠ .sorghumOt :=
  ⟨withSq sSelf (fun x => { x with st := .on }) { readyOn with part := { readyOn.part with reset := true, resetDue := 5000000, st := .boot } }, by decide +kernel⟩
theorem witness_PartStatesAndRestarts_6 : ∃ (since : Nat) (s : State), s.clk.running = true ∧ s.part.strap = false :=
  ⟨0, readyOn, by decide +kernel⟩
theorem witness_PartStatesAndRestarts_7 : ∃ (since : Nat) (s : State), s.part.strap = true :=
  ⟨0, { readyOn with part := { readyOn.part with strap := true } }, by decide +kernel⟩

theorem witness_RyeHoldsThroughMainDieStops : ∃ c : Instr, (match c with | .takeover => True | _ => False) := ⟨.takeover, trivial⟩

theorem witness_FirmwareRestartsAndWatchdogs_1 : ∃ (c : Fin 2) (s : State), wardenUp s c = true :=
  ⟨0, updCluster 0 (fun x => { x with role := .control }) readyOn, by decide +kernel⟩
theorem witness_FirmwareRestartsAndWatchdogs_2 : ∃ (c : Fin 2) (v : Nat) (s : State), v ≠ 0x5A5A :=
  ⟨0, 1, readyOn, by decide +kernel⟩
theorem witness_FirmwareRestartsAndWatchdogs_3 : ∃ (c : Fin 2) (s : State), wardenUp s c = true ∧ (s.bar.clusters.get c).warned = false :=
  ⟨0, updCluster 0 (fun x => { x with role := .control, wdogDue := 6250000 }) readyOn, by decide +kernel⟩
theorem witness_FirmwareRestartsAndWatchdogs_4 : ∃ (au : Auth) (s : State), s.oda.serving = true ∧ precheck s au Obj.fwRestart.key 0 (.num 1) = 0 ∧ s.bar.upd = .idle :=
  ⟨.service, readyOn, by decide +kernel⟩
theorem witness_FirmwareRestartsAndWatchdogs_5 : ∃ (c : Fin 2) (kept : Bool) (s : State), roleOf s c = .control ∧ s.part.reset = false ∧ s.part.crashTimes = [] ∧ s.bar.upd = .idle :=
  ⟨0, true, updCluster 0 (fun x => { x with role := .control, wdogDue := 6250000 }) readyOn, by decide +kernel⟩
theorem witness_FirmwareRestartsAndWatchdogs_6 : ∃ (c : Fin 2) (kept : Bool) (s : State), roleOf s c = .control ∧ s.part.reset = false ∧ s.part.st ≠ .safe ∧ (s.part.crashTimes.filter (fun x => decide ((tickTo (s.bar.clusters.get c).wdogDue s).clk.cycles - x ≤ tenMin))).length = 3 :=
  ⟨0, true, updCluster 0 (fun x => { x with role := .control, wdogDue := 6250000 }) { readyOn with part := { readyOn.part with crashTimes := [1, 2, 3] } }, by decide +kernel⟩
theorem witness_FirmwareRestartsAndWatchdogs_7 : ∃ (s : State), s.part.fwRestarting = true :=
  ⟨{ readyOn with part := { readyOn.part with fwRestarting := true } }, by decide +kernel⟩
theorem witness_FirmwareRestartsAndWatchdogs_8 : ∃ (c : Fin 2) (s : State), wardenUp s c = true :=
  ⟨1, updCluster 1 (fun x => { x with role := .shadow }) readyOn, by decide +kernel⟩

theorem witness_PowerRequests_1 : ∃ (a : Fin 8) (v : Nat) (s : State), s.oda.serving = true ∧ precheck s .facility (Obj.facilityReq a.val).key 0 (.num v) = 0 :=
  ⟨2, 1, readyOn, by decide +kernel⟩
theorem witness_PowerRequests_2 : ∃ (a : Fin 8) (v : Nat) (s : State), s.oda.serving = true ∧ precheck s .host (Obj.hostReq a.val).key 0 (.num v) = 0 :=
  ⟨2, 1, readyOn, by decide +kernel⟩
theorem witness_PowerRequests_3 : ∃ (a : Fin 8) (v : Nat) (s : State), s.oda.serving = true ∧ precheck s .service (Obj.serviceReq a.val).key 0 (.num v) = 0 :=
  ⟨2, 1, readyOn, by decide +kernel⟩

theorem witness_StrawValuesAndFallbacks_1 : ∃ (a : Fin 8) (n w : Nat) (s : State), s.ani.formed.get a = some (n, w) ∧ now s ≤ startOf s n + 5960 :=
  ⟨2, 0, 77, { runOn with ani := { Anise.init with formed := Vector.replicate 8 (some (0, 77)) } }, by decide +kernel⟩
theorem witness_StrawValuesAndFallbacks_2 : ∃ (a : Fin 8) (n w : Nat) (s : State), s.ani.formed.get a = some (n, w) ∧ startOf s n + 5960 < now s :=
  ⟨2, 0, 77, { runOn with clk := { runOn.clk with base := 9000 * two32 }, ani := { Anise.init with formed := Vector.replicate 8 (some (0, 77)) } }, by decide +kernel⟩
theorem witness_StrawValuesAndFallbacks_3 : ∃ (b : Fin 12) (cs : List Nat) (s : State), s.ani.curves.get b = some cs :=
  ⟨3, [1, 2], { runOn with ani := { Anise.init with curves := Vector.replicate 12 (some [1, 2]) } }, by decide +kernel⟩
theorem witness_StrawValuesAndFallbacks_4 : ∃ (o : Fin 24) (v : Nat) (s : State), s.ani.sent.get o = some v ∧ Fmt.f32.isFinite v = true ∧ s.part.st ≠ .run :=
  ⟨9, 0x42480000, { readyOn with ani := { Anise.init with sent := Vector.replicate 24 (some 0x42480000) } }, by decide +kernel⟩
theorem witness_StrawValuesAndFallbacks_5 : ∃ (o : Fin 24) (v : Nat) (s : State), s.ani.sent.get o = some v ∧ Fmt.f32.isFinite v = true ∧ s.part.st = .run :=
  ⟨9, 0x42480000, { runOn with ani := { Anise.init with sent := Vector.replicate 24 (some 0x42480000) } }, by decide +kernel⟩
theorem witness_StrawValuesAndFallbacks_6 : ∃ (s : State), slotsRun s = true :=
  ⟨withBr 3 (fun x => { x with adaptedNext := some [1, 2] }) { runOn with cool := { Cooling.init with outs := Vector.replicate 24 { Output.init with delivered := some 50 } } }, by decide +kernel⟩
theorem witness_StrawValuesAndFallbacks_7 : ∃ (a : Fin 8) (s : State), slotsRun s = true ∧ (s.ani.words.get a).map Prod.fst ≠ some (slotFor 5960 s) :=
  ⟨3, runOn, by decide +kernel⟩
theorem witness_StrawValuesAndFallbacks_8 : ∃ (b : Fin 12) (cs : List Nat) (s : State), (s.br.get b).adapted = some cs ∧ (s.br.get b).adaptedNext = none :=
  ⟨3, [1], withBr 3 (fun x => { x with adapted := some [1] }) runOn, by decide +kernel⟩
theorem witness_StrawValuesAndFallbacks_9 : ∃ (o : Fin 24) (s : State), (s.cool.outs.get o).fresh = true :=
  ⟨9, { readyOn with cool := { Cooling.init with outs := Vector.replicate 24 { Output.init with fresh := true, st := .follow } } }, by decide +kernel⟩
theorem witness_StrawValuesAndFallbacks_10 : ∃ (a : Fin 8) (ns n w : Nat) (s : State), s.ani.formed.get a = some (n, w) ∧ now (reachCount (startOf s n + ns) s) ≤ startOf s n + 5960 :=
  ⟨2, 3000, 0, 77, { runOn with ani := { Anise.init with formed := Vector.replicate 8 (some (0, 77)) } }, by decide +kernel⟩
theorem witness_StrawValuesAndFallbacks_11 : ∃ (a : Fin 8) (s : State), slotsRun s = true ∧ antEnabled (reachCount (startOf s (slotFor 6080 s) + 6080) s) a (slotFor 6080 s) = false :=
  ⟨2, runOn, by decide +kernel⟩
theorem witness_StrawValuesAndFallbacks_12 : ∃ (a : Fin 8) (s : State), slotsRun s = true ∧ antEnabled (reachCount (startOf s (slotFor 6080 s) + 6080) s) a (slotFor 6080 s) = true ∧ s.ani.words.get a = none :=
  ⟨2, setN runOn (Obj.antEnable 2) 1, by decide +kernel⟩
theorem witness_StrawValuesAndFallbacks_13 : ∃ (a : Fin 8) (w : Nat) (s : State), slotsRun s = true ∧ antEnabled (reachCount (startOf s (slotFor 6080 s) + 6080) s) a (slotFor 6080 s) = true ∧ s.ani.words.get a = some (slotFor 6080 s, w) ∧ accelOn s a = true ∧ mainUp s = true :=
  ⟨2, 77, withSq 2 (fun x => { x with st := .on }) (setN { runOn with ani := { Anise.init with words := Vector.replicate 8 (some (0, 77)) } } (Obj.antEnable 2) 1), by decide +kernel⟩

theorem witness_TimeServoAndState_1 : ∃ (p : Fin 2) (x : PtpIn) (freq : Int) (s : State), mainUp s = true ∧ hostUp s p = true ∧ getN s (Obj.ptpProfile p.val) ≠ 0 ∧ x.domain = getN s Obj.ptpDomain ∧ sourceNow s = 1 ∧ s.port.followed = some p.val ∧ (hearSync p x s).port.followed = some p.val ∧ s.clk.state = .acquiring ∧ s.clk.below = 15 ∧ (ptpOffset p x s).natAbs < 10 ∧ (ptpOffset p x s).natAbs ≤ getN s Obj.stepThresholdNs :=
  ⟨1, ⟨0, ⟨128, 6, 0x21, 100, 128, 9, 1⟩, 125000000, 3, 0, 0, .unchanged⟩, 120, { setN (setN readyOn Obj.timeSource 1) (Obj.ptpProfile 1) 1 with clk := { readyOn.clk with state := .acquiring, below := 15 }, port := { Ports.init with host := Vector.replicate 2 { HostPort.init with link := .up200 }, followed := some 1 } }, by decide +kernel⟩
theorem witness_TimeServoAndState_2 : ∃ (p : Fin 2) (x : PtpIn) (freq : Int) (s : State), mainUp s = true ∧ hostUp s p = true ∧ getN s (Obj.ptpProfile p.val) ≠ 0 ∧ x.domain = getN s Obj.ptpDomain ∧ sourceNow s = 1 ∧ s.port.followed = some p.val ∧ (hearSync p x s).port.followed = some p.val ∧ s.clk.state = .locked ∧ s.clk.above = 3 ∧ 40 < (ptpOffset p x s).natAbs ∧ (ptpOffset p x s).natAbs ≤ getN s Obj.stepThresholdNs :=
  ⟨1, ⟨0, ⟨128, 6, 0x21, 100, 128, 9, 1⟩, 125000000, 50, 0, 0, .unchanged⟩, 120, { setN (setN (setN readyOn Obj.timeSource 1) (Obj.ptpProfile 1) 1) Obj.stepThresholdNs 1000 with clk := { readyOn.clk with state := .locked, above := 3 }, port := { Ports.init with host := Vector.replicate 2 { HostPort.init with link := .up200 }, followed := some 1 } }, by decide +kernel⟩
theorem witness_TimeServoAndState_3 : ∃ (p : Fin 2) (x : PtpIn) (freq : Int) (s : State), mainUp s = true ∧ hostUp s p = true ∧ getN s (Obj.ptpProfile p.val) ≠ 0 ∧ x.domain = getN s Obj.ptpDomain ∧ sourceNow s = 1 ∧ (hearSync p x s).port.followed = some p.val ∧ getN s Obj.stepThresholdNs < (ptpOffset p x s).natAbs ∧ mayStep s = true :=
  ⟨0, ⟨0, ⟨128, 6, 0x21, 100, 128, 9, 1⟩, 125000000, 2000000, 0, 0, .unchanged⟩, 0, { setN (setN (setN readyOn Obj.timeSource 1) (Obj.ptpProfile 0) 1) Obj.stepThresholdNs 1000 with port := { Ports.init with host := Vector.replicate 2 { HostPort.init with link := .up200 } } }, by decide +kernel⟩
theorem witness_TimeServoAndState_4 : ∃ (p : Fin 2) (x : PtpIn) (freq : Int) (s : State), mainUp s = true ∧ hostUp s p = true ∧ getN s (Obj.ptpProfile p.val) ≠ 0 ∧ x.domain = getN s Obj.ptpDomain ∧ sourceNow s = 1 ∧ (hearSync p x s).port.followed = some p.val ∧ getN s Obj.stepThresholdNs < (ptpOffset p x s).natAbs ∧ mayStep s = false :=
  ⟨0, ⟨0, ⟨128, 6, 0x21, 100, 128, 9, 1⟩, 125000000, 2000000, 0, 0, .unchanged⟩, 0, { setN (setN (setN runOn Obj.timeSource 1) (Obj.ptpProfile 0) 1) Obj.stepThresholdNs 1000 with port := { Ports.init with host := Vector.replicate 2 { HostPort.init with link := .up200 } } }, by decide +kernel⟩
theorem witness_TimeServoAndState_5 : ∃ (count : Nat) (freq : Int) (s : State), mainUp s = true ∧ getN s Obj.syncRole = 2 ∧ sourceNow s = 3 ∧ 100 < (edgeOffset s count).natAbs :=
  ⟨400, 7, setN (setN (setN readyOn Obj.timeSource 3) Obj.syncRole 2) Obj.syncPeriodUs 1000, by decide +kernel⟩
theorem witness_TimeServoAndState_6 : ∃ (count : Nat) (freq : Int) (s : State), mainUp s = true ∧ getN s Obj.syncRole = 2 ∧ sourceNow s = 3 ∧ (edgeOffset s count).natAbs ≤ 100 ∧ s.clk.syncAlone = false ∧ (edgeOffset s count).natAbs ≤ getN s Obj.stepThresholdNs :=
  ⟨50, 7, setN (setN (setN readyOn Obj.timeSource 3) Obj.syncRole 2) Obj.syncPeriodUs 1000, by decide +kernel⟩
theorem witness_TimeServoAndState_7 : ∃ (due : Nat) (s : State), s.clk.intervalDue = some due ∧ (s.clk.state = .locked ∨ s.clk.state = .acquiring) :=
  ⟨900, { readyOn with clk := { readyOn.clk with state := .locked, intervalDue := some 900 } }, by decide +kernel⟩
theorem witness_TimeServoAndState_8 : ∃ (due : Nat) (s : State), s.clk.holdoverDue = some due ∧ s.clk.state = .holdover :=
  ⟨900, { readyOn with clk := { readyOn.clk with state := .holdover, holdoverDue := some 900 } }, by decide +kernel⟩
theorem witness_TimeServoAndState_9 : ∃ (au : Auth) (s : State), s.oda.serving = true ∧ precheck s au Obj.timeSource.key 0 (.num 0) = 0 :=
  ⟨.service, { readyOn with clk := { readyOn.clk with state := .locked } }, by decide +kernel⟩
theorem witness_TimeServoAndState_10 : ∃ (au : Auth) (v : Nat) (s : State), s.oda.serving = true ∧ v ≠ 0 ∧ precheck s au Obj.timeSource.key 0 (.num v) = 0 ∧ s.clk.state = .locked ∧ sourceNow s ≠ v ∧ (v = 1 → getN s (Obj.ptpProfile 0) ≠ 0 ∨ getN s (Obj.ptpProfile 1) ≠ 0) :=
  ⟨.service, 3, { setN readyOn Obj.timeSource 1 with clk := { readyOn.clk with state := .locked } }, by decide +kernel⟩
theorem witness_TimeServoAndState_11 : ∃ (au : Auth) (v : Nat) (s : State), s.oda.serving = true ∧ precheck s au Obj.timeSet.key 0 (.num v) = 0 ∧ sourceNow s = 0 ∧ mayStep s = true :=
  ⟨.service, 5000, setN readyOn Obj.timeSource 0, by decide +kernel⟩
theorem witness_TimeServoAndState_12 : ∃ (au : Auth) (v : Nat) (s : State), s.oda.serving = true ∧ precheck s au Obj.timeSet.key 0 (.num v) = 0 ∧ timeSetHome s ≠ 0 :=
  ⟨.service, 5000, setN readyOn Obj.timeSource 1, by decide +kernel⟩

theorem witness_SyncOutAndLaunchObjects_1 : ∃ (s : State), s.clk.running = true ∧ (getN s Obj.syncRole = 1 ∨ getN s Obj.syncRole = 3) ∧ s.clk.syncOut = none :=
  ⟨setN (setN readyOn Obj.syncRole 1) Obj.syncPeriodUs 1000, by decide +kernel⟩
theorem witness_SyncOutAndLaunchObjects_2 : ∃ (s : State), s.clk.running = true ∧ getN s Obj.syncRole = 4 ∧ s.part.st = .run ∧ s.eng.any = true :=
  ⟨{ setN runOn Obj.syncRole 4 with eng := { Engine.init with running := true, any := true, frame := 7 } }, by decide +kernel⟩
theorem witness_SyncOutAndLaunchObjects_3 : ∃ (au : Auth) (v : Nat) (s : State), s.oda.serving = true ∧ precheck s au Obj.launchAt.key 0 (.num v) = 0 ∧ v ≠ 0 ∧ acceptCount s + 5000000 ≤ v :=
  ⟨.host, 8000000, readyOn, by decide +kernel⟩
theorem witness_SyncOutAndLaunchObjects_4 : ∃ (au : Auth) (v : Nat) (s : State), s.oda.serving = true ∧ precheck s au Obj.launchAt.key 0 (.num v) = 0 ∧ v ≠ 0 ∧ v < acceptCount s + 5000000 :=
  ⟨.host, 4000000, readyOn, by decide +kernel⟩
theorem witness_SyncOutAndLaunchObjects_5 : ∃ (au : Auth) (s : State), s.oda.serving = true ∧ precheck s au Obj.launchAt.key 0 (.num 0) = 0 :=
  ⟨.host, setN readyOn Obj.launchAt 90000000, by decide +kernel⟩
theorem witness_SyncOutAndLaunchObjects_6 : ∃ (au : Auth) (v : Nat) (s : State), s.oda.serving = true ∧ precheck s au Obj.frameStopAt.key 0 (.num v) = 0 ∧ startOf s s.eng.next < v :=
  ⟨.host, 9000000, runOn, by decide +kernel⟩
theorem witness_SyncOutAndLaunchObjects_7 : ∃ (au : Auth) (v : Nat) (s : State), s.oda.serving = true ∧ precheck s au Obj.frameStopAt.key 0 (.num v) = 0 ∧ v ≠ 0 ∧ s.eng.running = true ∧ s.eng.mainDone = true ∧ s.eng.next ≠ 0 ∧ v ≤ startOf s s.eng.next :=
  ⟨.host, 40000, { runOn with eng := { Engine.init with running := true, any := true, next := 12 } }, by decide +kernel⟩

theorem witness_LaunchCutoffAndRejoin_1 : ∃ (s : State), getN s Obj.launchAt ≠ 0 ∧ s.eng.any = false ∧ canRun s = true ∧ activating s = false ∧ s.eng.ring.replay ≠ .running :=
  ⟨{ readyOn with nums := [(Obj.launchAt.key, 9)], img := { Images.init with inForce := some 0 }, mem := { Mem.init with st := .ready } }, by decide +kernel⟩
theorem witness_LaunchCutoffAndRejoin_2 : ∃ (s : State), getN s Obj.launchAt ≠ 0 ∧ s.eng.any = false ∧ canRun s = false :=
  ⟨{ readyOn with nums := [(Obj.launchAt.key, 9)] }, by decide +kernel⟩
theorem witness_LaunchCutoffAndRejoin_3 : ∃ (s : State), getN s Obj.launchAt ≠ 0 ∧ s.part.st = .run ∧ s.eng.cutoff = none :=
  ⟨{ runOn with eng := { Engine.init with running := true, any := true, next := 5, frame := 4 } }, by decide +kernel⟩
theorem witness_LaunchCutoffAndRejoin_4 : ∃ (s : State), s.eng.cutoff = some s.eng.next ∧ s.part.st = .run ∧ s.eng.mainDone = true ∧ runsFrame s s.eng.next = true :=
  ⟨{ runOn with eng := { Engine.init with running := true, any := true, next := 5, frame := 4, cutoff := some 5 } }, by decide +kernel⟩
theorem witness_LaunchCutoffAndRejoin_5 : ∃ (s : State), s.eng.cutoff = some s.eng.next ∧ s.part.st = .run ∧ s.eng.mainDone = true ∧ runsFrame s s.eng.next = false :=
  ⟨{ runOn with eng := { Engine.init with running := true, any := true, next := 5, frame := 4, cutoff := some 5, stopped := true } }, by decide +kernel⟩
theorem witness_LaunchCutoffAndRejoin_6 : ∃ (lostNew lostOld : Bool) (badNew badOld : List Nat) (s : State), s.part.restorePending = true ∧ s.part.st = .ready :=
  ⟨false, false, [], [], { readyOn with part := { readyOn.part with restorePending := true }, eng := { Engine.init with bufA := some ⟨64, 0, []⟩ } }, by decide +kernel⟩
theorem witness_LaunchCutoffAndRejoin_7 : ∃ (badNew badOld : List Nat) (k : Nat) (s : State), s.part.restorePending = true ∧ s.part.st = .ready :=
  ⟨[], [], 3, { readyOn with part := { readyOn.part with restorePending := true }, eng := { Engine.init with bufA := some ⟨64, 0, []⟩, sess := [(3, { Sess.closed with st := .opened })] } }, by decide +kernel⟩
theorem witness_LaunchCutoffAndRejoin_8 : ∃ (s : State), getN s Obj.launchAt ≠ 0 ∧ s.eng.any = true ∧ canRun s = true ∧ activating s = false ∧ s.part.restorePending = false ∧ s.part.restored = true ∧ getN s Obj.frameStopAt = 0 :=
  ⟨{ readyOn with nums := [(Obj.launchAt.key, 9)], img := { Images.init with inForce := some 0 }, mem := { Mem.init with st := .ready }, part := { readyOn.part with restored := true }, eng := { Engine.init with any := true, frame := 7 } }, by decide +kernel⟩

theorem witness_FrameInputsAndOutputs_1 : ∃ (src sample arrival : Nat) (v : Int) (kept : Bool) (s : State), s.part.st = .ready ∧ sourceOk src = true ∧ noValue s src = false ∧ getN s Obj.launchAt = 0 :=
  ⟨3, 100, 150, 5, false, readyOn, by decide +kernel⟩
theorem witness_FrameInputsAndOutputs_2 : ∃ (src sample arrival : Nat) (v : Int) (kept : Bool) (s : State), s.part.st = .run ∧ sourceOk src = true ∧ noValue s src = false ∧ inLaunch s arrival = true ∧ actualFrame s arrival = s.eng.next ∧ look s.eng.samples src = none ∧ look s.eng.arriving src = none :=
  ⟨3, 100, 150, 5, false, { runOn with eng := { Engine.init with running := true, any := true, next := 5, frame := 4 } }, by decide +kernel⟩
theorem witness_FrameInputsAndOutputs_3 : ∃ (src sample arrival : Nat) (v : Int) (kept : Bool) (old : Sample) (s : State), s.part.st = .run ∧ sourceOk src = true ∧ noValue s src = false ∧ inLaunch s arrival = true ∧ actualFrame s arrival = s.eng.next ∧ look s.eng.samples src = some old ∧ sample ≤ old.count :=
  ⟨3, 100, 150, 5, false, ⟨120, 130, 1, 1, false, 0⟩, { runOn with eng := { Engine.init with running := true, any := true, next := 5, frame := 4, samples := [(3, ⟨120, 130, 1, 1, false, 0⟩)] } }, by decide +kernel⟩
theorem witness_FrameInputsAndOutputs_4 : ∃ (k w : Nat) (x : Sess) (o : LaneOut) (s : State), s.eng.running = true ∧ s.eng.p0Done = false ∧ k ∈ activeSessions (atP0Emit s) ∧ getSess (atP0Emit s) k = x ∧ laneOut (atP0Emit s) x.lane x.state.length = o ∧ o.word = some w ∧ o.bad = false ∧ x.eff.cls = 0 ∧ x.eff.replica = false ∧ x.poisoned = false ∧ (look (atP0Emit s).eng.tokens k).isSome = true ∧ look (atP0Emit s).eng.records k = none :=
  ⟨2, 0x12345, { Sess.closed with st := .opened, lane := 1 }, ⟨some 0x12345, false, none, false⟩, { runOn with eng := { Engine.init with running := true, any := true, next := 5, frame := 4, p0Done := false, mainDone := false, cycle := 6400, tokens := [(2, 9)], raws := [(1, (0x12345, false))], sess := [(2, { Sess.closed with st := .opened, lane := 1 })] } }, by decide +kernel⟩
theorem witness_FrameInputsAndOutputs_5 : ∃ (k w : Nat) (x : Sess) (o : LaneOut) (s : State), s.eng.running = true ∧ s.eng.p0Done = true ∧ s.eng.mainDone = false ∧ k ∈ activeSessions (atMainEmit s) ∧ getSess (atMainEmit s) k = x ∧ laneOut (atMainEmit s) x.lane x.state.length = o ∧ o.word = some w ∧ o.bad = false ∧ x.eff.cls ≠ 0 ∧ x.eff.replica = false ∧ x.poisoned = false ∧ (look (atMainEmit s).eng.tokens k).isSome = true ∧ look (atMainEmit s).eng.records k = none :=
  ⟨2, 0x12345, { Sess.closed with st := .opened, lane := 1, eff := { Desc.zero with cls := 1 } }, ⟨some 0x12345, false, none, false⟩, { runOn with eng := { Engine.init with running := true, any := true, next := 5, frame := 4, mainDone := false, p0Done := true, tokens := [(2, 9)], raws := [(1, (0x12345, false))], sess := [(2, { Sess.closed with st := .opened, lane := 1, eff := { Desc.zero with cls := 1 } })] } }, by decide +kernel⟩
theorem witness_FrameInputsAndOutputs_6 : ∃ (k : Ckpt) (s : State), s.eng.writing = some k ∧ seqWaits s 0 = false :=
  ⟨⟨64, 9, []⟩, { runOn with eng := { Engine.init with writing := some ⟨64, 9, []⟩, bufA := some ⟨0, 1, []⟩ } }, by decide +kernel⟩
theorem witness_FrameInputsAndOutputs_7 : ∃ (r : EvRec) (l : List EvRec) (s : State), s.ev.up = true ∧ sortRecs s.ev.held = r :: l :=
  ⟨⟨0, 100, 0, .vinLow, 0x7000, true, false, false, false, false, 7⟩, [], { readyOn with ev := { Events.init with up := true, held := [⟨0, 100, 0, .vinLow, 0x7000, true, false, false, false, false, 7⟩] } }, by decide +kernel⟩

theorem witness_TileErrorsAndRetirement_1 : ∃ (n : Fin 68) (s : State), ((s.eng.tiles.get n).ceAt.filter (fun c => decide (mainNow s < c + 1000000000))).length < 65536 :=
  ⟨5, runOn, by decide +kernel⟩
theorem witness_TileErrorsAndRetirement_2 : ∃ (n : Fin 68) (offset : Nat) (s : State), offset < 0x300000 ∧ (s.eng.tiles.get n).ueAt.filter (fun f => within64 s f) = [] :=
  ⟨5, 0x20040, { runOn with eng := { Engine.init with running := true, any := true, next := 5, frame := 4 } }, by decide +kernel⟩
theorem witness_TileErrorsAndRetirement_3 : ∃ (n : Fin 68) (offset k u : Nat) (s : State), (s.eng.tiles.get n).ueAt.filter (fun f => within64 s f) = [] ∧ (getSess s k).live = true ∧ (getSess s k).stopUntil = some u ∧ stoppedAt s n (offset / 32) = [k] :=
  ⟨0, 0, 2, 66, stoppedOn, by decide +kernel⟩
theorem witness_TileErrorsAndRetirement_4 : ∃ (n : Fin 68) (offset : Nat) (s : State), (s.eng.tiles.get n).ueAt.filter (fun f => within64 s f) ≠ [] ∧ (s.eng.tiles.get n).st = .active ∧ s.part.st = .run ∧ s.eng.running = true ∧ s.eng.mainDone = false :=
  ⟨5, 0x20040, updTile 5 (fun x => { x with st := .active, ueAt := [3] }) { runOn with eng := { Engine.init with running := true, any := true, next := 5, frame := 4, mainDone := false } }, by decide +kernel⟩
theorem witness_TileErrorsAndRetirement_5 : ∃ (au : Auth) (n : Fin 68) (s : State), s.oda.serving = true ∧ precheck s au (Obj.tileRetired n.val).key 0 (.num 1) = 0 ∧ s.part.st = .run ∧ s.eng.running = true ∧ s.eng.mainDone = false ∧ (s.eng.tiles.get n).st = .gated :=
  ⟨.service, 5, updTile 5 (fun x => { x with st := .gated }) { runOn with eng := { runOn.eng with mainDone := false } }, by decide +kernel⟩
theorem witness_TileErrorsAndRetirement_6 : ∃ (au : Auth) (n : Fin 68) (s : State), s.oda.serving = true ∧ precheck s au (Obj.tileRetired n.val).key 0 (.num 1) = 0 ∧ s.part.st = .ready ∧ (s.eng.tiles.get n).st = .gated :=
  ⟨.service, 5, updTile 5 (fun x => { x with st := .gated }) readyOn, by decide +kernel⟩
theorem witness_TileErrorsAndRetirement_7 : ∃ (au : Auth) (n : Fin 68) (s : State), s.oda.serving = true ∧ precheck s au (Obj.tileRetired n.val).key 0 (.num 0) = 0 ∧ s.part.st = .ready ∧ n.val ∉ s.ident.absent ∧ (s.eng.tiles.get n).st = .failed :=
  ⟨.service, 5, updTile 5 (fun x => { x with st := .failed }) readyOn, by decide +kernel⟩
theorem witness_TileErrorsAndRetirement_8 : ∃ (n : Fin 68) (c : Fin 32) (h : HeldBurst) (b : Burst) (rest : List Burst) (w : Bool) (s : State), waiterAt s n = some (c, h) ∧ restOf (advance c (tickTo (h.since + 2 * frameNs s / 40) s)) c = b :: rest ∧ waitsAt (advance c (tickTo (h.since + 2 * frameNs s / 40) s)) b = some (n, h.bank, w) ∧ (chanAt (advance c (tickTo (h.since + 2 * frameNs s / 40) s)) c).st = .running :=
  ⟨5, 0, ⟨0, 0, 10⟩, ⟨0, 64, 0, 0x800000000, false, 0, tileWindow + 5 * 0x400000, false⟩, [], true, updTile 5 (fun x => { x with st := .active, held := [⟨0, 0, 10⟩] }) { runOn with mem := { Mem.init with st := .ready, runA := some 0, dma := Vector.replicate 32 { DmaCh.init with st := .running, src := [⟨0x800000000, 64, 0⟩], dst := [⟨tileWindow + 5 * 0x400000, 64, 0⟩] } } }, by decide +kernel⟩

theorem witness_SessionsOpenAndClose_1 : ∃ (au : Auth) (n : Fin 10240) (d : Desc) (s : State), s.oda.serving = true ∧ precheck s au (0x440000 + n.val) 0 (.bytes ({ d with openBit := true } : Desc).bytes) = 0 ∧ descHome au n.val { d with openBit := true } true s = 0 ∧ (getSess s n.val).st = .closed :=
  ⟨.host, 4, tinyDesc, imgOn, by decide +kernel⟩
theorem witness_SessionsOpenAndClose_2 : ∃ (au : Auth) (n : Fin 10240) (d : Desc) (s : State), s.oda.serving = true ∧ precheck s au (0x440000 + n.val) 0 (.bytes ({ d with openBit := true } : Desc).bytes) = 0 ∧ descHome au n.val { d with openBit := true } true s ≠ 0 :=
  ⟨.host, 4, { tinyDesc with model := 9 }, imgOn, by decide +kernel⟩
theorem witness_SessionsOpenAndClose_3 : ∃ (au : Auth) (n : Fin 10240) (d : Desc) (s : State), s.oda.serving = true ∧ precheck s au (0x440000 + n.val) 0 (.bytes ({ d with openBit := false } : Desc).bytes) = 0 ∧ descHome au n.val { d with openBit := false } true s = 0 ∧ (getSess s n.val).st = .opened :=
  ⟨.host, 4, tinyDesc, withSess 4 { Sess.closed with st := .opened, desc := tinyDesc, eff := tinyDesc, opener := some .host, lane := 0, ltile := 0, modelActive := 2 } imgOn, by decide +kernel⟩
theorem witness_SessionsOpenAndClose_4 : ∃ (d : Load) (rest : List Load) (k : Nat) (s : State), s.eng.loads = d :: rest ∧ (getSess s k).st = .pending ∧ laneTile s (getSess s k).lane = d.tile ∧ (getSess s k).desc.model = d.model ∧ (getSess s k).desc.replica = false ∧ (getSess s k).openReady = none ∧ d.slot < 64 ∧ (slotKey s d.tile d.slot).isSome = true ∧ d.twin = none ∧ s.img.repls = [] ∧ seqWaits s 17 = false ∧ (∀ p ∈ d.places, placeReached s p = true) :=
  ⟨⟨2, 0, 0, none, true, 5⟩, [], 4, withSess 4 { Sess.closed with st := .pending, desc := tinyDesc, eff := tinyDesc, lane := 0, ltile := 0 } { imgOn with eng := { imgOn.eng with loads := [⟨2, 0, 0, none, true, 5⟩] } }, by decide +kernel⟩
theorem witness_SessionsOpenAndClose_5 : ∃ (d : Load) (rest : List Load) (k : Nat) (s : State), s.eng.loads = d :: rest ∧ (getSess s k).st = .pending ∧ laneTile s (getSess s k).lane = d.tile ∧ (getSess s k).desc.model = d.model ∧ (getSess s k).openReady = none ∧ (getSess s k).switch = none ∧ s.img.repls = [] :=
  ⟨⟨2, 0, 0, none, true, 5⟩, [], 4, withSess 4 { Sess.closed with st := .pending, desc := tinyDesc, eff := tinyDesc, lane := 0, ltile := 0 } { imgOn with eng := { imgOn.eng with loads := [⟨2, 0, 0, none, true, 5⟩] } }, by decide +kernel⟩

theorem witness_CodebooksAndModels_1 : ∃ (au : Auth) (c : Fin 4096) (bytes : List Byte) (s : State), s.oda.serving = true ∧ precheck s au (0x413000 + c.val) 0 (.bytes bytes) = 0 ∧ codebookHome c.val bytes s = 0 ∧ bytes ≠ [] :=
  ⟨.host, 7, [2, 0, 0, 0, 0, 0, 0, 0, 0, 0, 0, 0, 0, 0, 0x80, 0x3F], readyOn, by decide +kernel⟩
theorem witness_CodebooksAndModels_2 : ∃ (au : Auth) (c : Fin 4096) (s : State), s.oda.serving = true ∧ precheck s au (0x413000 + c.val) 0 (.bytes []) = 0 ∧ codebookHome c.val [] s = 0 :=
  ⟨.host, 1, imgOn, by decide +kernel⟩
theorem witness_CodebooksAndModels_3 : ∃ (au : Auth) (m : Fin 4096) (bytes : List Byte) (s : State), s.oda.serving = true ∧ precheck s au (0x411000 + m.val) 0 (.bytes []) = 0 ∧ modelHome m.val bytes.length s = 0 :=
  ⟨.host, 7, [1, 2, 3], imgOn, by decide +kernel⟩
theorem witness_CodebooksAndModels_4 : ∃ (m : Fin 4096) (bytes : List Byte) (old : Option Model) (s : State), look s.eng.lib m.val = some ⟨.verifying, bytes, old⟩ :=
  ⟨7, [1, 2, 3], none, { imgOn with eng := { imgOn.eng with lib := [(7, ⟨.verifying, [1, 2, 3], none⟩)] } }, by decide +kernel⟩

theorem witness_RingsFreezeResumeReplay_1 : ∃ (au : Auth) (s : State), s.oda.serving = true ∧ precheck s au Obj.ringFreeze.key 0 (.num 1) = 0 :=
  ⟨.host, runOn, by decide +kernel⟩
theorem witness_RingsFreezeResumeReplay_2 : ∃ (au : Auth) (s : State), s.oda.serving = true ∧ precheck s au Obj.ringFreeze.key 0 (.num 0) = 0 ∧ s.eng.ring.st = .frozen :=
  ⟨.host, { runOn with eng := { runOn.eng with ring := { Rings.init with st := .frozen } } }, by decide +kernel⟩
theorem witness_RingsFreezeResumeReplay_3 : ∃ (au : Auth) (s : State), s.oda.serving = true ∧ precheck s au Obj.ringFreeze.key 0 (.num 0) = 0 ∧ s.eng.ring.st ≠ .frozen :=
  ⟨.host, runOn, by decide +kernel⟩
theorem witness_RingsFreezeResumeReplay_4 : ∃ (due : Nat) (s : State), s.eng.ring.trigger = some due :=
  ⟨400, { runOn with eng := { Engine.init with ring := { Rings.init with st := .recording, trigger := some 400 } } }, by decide +kernel⟩
theorem witness_RingsFreezeResumeReplay_5 : ∃ (due : Nat) (s : State), s.eng.ring.freezeDue = some due ∧ s.eng.ring.st = .frozen :=
  ⟨400, { runOn with eng := { Engine.init with ring := { Rings.init with st := .frozen, freezeDue := some 400 } } }, by decide +kernel⟩
theorem witness_RingsFreezeResumeReplay_6 : ∃ (au : Auth) (bytes : List Byte) (s : State), s.oda.serving = true ∧ precheck s au Blob.longCapture 0 (.bytes bytes) = 0 ∧ longCaptureHome bytes s = 0 ∧ bytes.all (· == 0) = false :=
  ⟨.service, 1 :: List.replicate 1279 0, readyOn, by decide +kernel⟩
theorem witness_RingsFreezeResumeReplay_7 : ∃ (au : Auth) (x : Export) (s : State), s.oda.serving = true ∧ precheck s au Obj.replayCtrl.key 0 (.num 1) = 0 ∧ s.eng.ring.replay ≠ .running ∧ s.eng.ring.exp = some x ∧ replayStatus s = 0 :=
  ⟨.service, anExport, withExport anExport readyOn, by decide +kernel⟩
theorem witness_RingsFreezeResumeReplay_8 : ∃ (au : Auth) (s : State), s.oda.serving = true ∧ precheck s au Obj.replayCtrl.key 0 (.num 1) = 0 ∧ s.eng.ring.replay ≠ .running ∧ replayStatus s ≠ 0 :=
  ⟨.service, withExport { anExport with crcOk := false } readyOn, by decide +kernel⟩
theorem witness_RingsFreezeResumeReplay_9 : ∃ (au : Auth) (s : State), s.oda.serving = true ∧ precheck s au Obj.replayCtrl.key 0 (.num 2) = 0 ∧ s.eng.ring.replay = .running :=
  ⟨.service, { readyOn with eng := { Engine.init with ring := { Rings.init with replay := .running } } }, by decide +kernel⟩
theorem witness_RingsFreezeResumeReplay_10 : ∃ (b : RingBlock) (l : List RingBlock) (s : State), s.eng.ring.replay = .running ∧ s.eng.ring.rest = b :: l ∧ b.ledger.skipped = true ∧ b.recordCrc = recordCrc [] ∧ b.ckptCrc = 0 ∧ s.eng.ring.exp = none :=
  ⟨⟨{ FrameLedger.empty with frame := 5, skipped := true }, [], [], [], recordCrc [], 0⟩, [], { readyOn with eng := { Engine.init with ring := { Rings.init with replay := .running, rest := [⟨{ FrameLedger.empty with frame := 5, skipped := true }, [], [], [], recordCrc [], 0⟩] } } }, by decide +kernel⟩
theorem witness_RingsFreezeResumeReplay_11 : ∃ (b : RingBlock) (l : List RingBlock) (s : State), s.eng.ring.replay = .running ∧ s.eng.ring.rest = b :: l ∧ s.eng.sess = [] ∧ b.controls = [] ∧ b.ledger.skipped = false ∧ b.recordCrc ≠ recordCrc [] :=
  ⟨⟨{ FrameLedger.empty with frame := 5 }, [], [], [], 99, 0⟩, [], { readyOn with eng := { Engine.init with ring := { Rings.init with replay := .running, rest := [⟨{ FrameLedger.empty with frame := 5 }, [], [], [], 99, 0⟩] } } }, by decide +kernel⟩
theorem witness_RingsFreezeResumeReplay_12 : ∃ (b : RingBlock) (l : List RingBlock) (s : State), s.eng.ring.replay = .running ∧ s.eng.ring.rest = b :: l ∧ recordCrc (replayFrame b l s).eng.records ≠ b.recordCrc :=
  ⟨⟨{ FrameLedger.empty with frame := 5 }, [], [], [], 99, 0⟩, [], { readyOn with eng := { Engine.init with ring := { Rings.init with replay := .running, kept := [⟨0, 0, []⟩], rest := [⟨{ FrameLedger.empty with frame := 5 }, [], [], [], 99, 0⟩] } } }, by decide +kernel⟩
theorem witness_RingsFreezeResumeReplay_13 : ∃ (b : RingBlock) (l : List RingBlock) (s : State), s.eng.ring.replay = .running ∧ s.eng.ring.rest = b :: l ∧ s.eng.ring.exp = none ∧ recordCrc (replayFrame b l s).eng.records = b.recordCrc ∧ b.ckptCrc ≠ 0 ∧ (takeCkpt (replayFrame b l s).eng.ring.kept.getLast? (incMax (replayFrame b l s) Obj.replayFrames 1 u64) (b.ledger.frame + 1)).crc ≠ b.ckptCrc :=
  ⟨⟨{ FrameLedger.empty with frame := 5 }, [], [], [], recordCrc [], 77⟩, [], { readyOn with eng := { Engine.init with ring := { Rings.init with replay := .running, kept := [⟨0, 0, []⟩], rest := [⟨{ FrameLedger.empty with frame := 5 }, [], [], [], recordCrc [], 77⟩] } } }, by decide +kernel⟩
theorem witness_RingsFreezeResumeReplay_14 : ∃ (b : RingBlock) (l : List RingBlock) (s : State), s.eng.ring.replay = .running ∧ s.eng.ring.rest = b :: l ∧ s.eng.ring.exp = none ∧ recordCrc (replayFrame b l s).eng.records = b.recordCrc ∧ (b.ckptCrc ≠ 0 → (takeCkpt (replayFrame b l s).eng.ring.kept.getLast? (incMax (replayFrame b l s) Obj.replayFrames 1 u64) (b.ledger.frame + 1)).crc = b.ckptCrc) :=
  ⟨⟨{ FrameLedger.empty with frame := 5 }, [], [], [], recordCrc [], 0⟩, [], { readyOn with eng := { Engine.init with ring := { Rings.init with replay := .running, kept := [⟨0, 0, []⟩], rest := [⟨{ FrameLedger.empty with frame := 5 }, [], [], [], recordCrc [], 0⟩] } } }, by decide +kernel⟩

theorem witness_ImagesArmAndActivate_1 : ∃ (au : Auth) (i : Fin 4) (bytes : List Byte) (s : State), s.oda.serving = true ∧ precheck s au (0x404000 + i.val) 0 (.bytes []) = 0 ∧ imageHome i s = 0 :=
  ⟨.service, 2, [1, 2, 3], readyOn, by decide +kernel⟩
theorem witness_ImagesArmAndActivate_2 : ∃ (i : Fin 4) (bytes : List Byte) (s : State), (s.img.store.get i).st = .verifying ∧ (s.img.store.get i).bytes = bytes :=
  ⟨1, [], { readyOn with img := { readyOn.img with store := vupd readyOn.img.store 1 (fun _ => ⟨.verifying, [], some tinyImage⟩) } }, by decide +kernel⟩
theorem witness_ImagesArmAndActivate_3 : ∃ (au : Auth) (i : Fin 4) (s : State), s.oda.serving = true ∧ precheck s au Obj.imageArm.key 0 (.num i.val) = 0 ∧ armHome i s = 0 :=
  ⟨.service, 1, { imgOn with img := { imgOn.img with store := vupd imgOn.img.store 1 (fun _ => ⟨.valid, [], some tinyImage⟩) } }, by decide +kernel⟩
theorem witness_ImagesArmAndActivate_4 : ∃ (au : Auth) (s : State), s.oda.serving = true ∧ precheck s au Obj.imageArm.key 0 (.num 0xFF) = 0 :=
  ⟨.service, { imgOn with img := { imgOn.img with store := vupd imgOn.img.store 1 (fun _ => ⟨.armed, [], some tinyImage⟩), armed := some 1, act := .ready 1 } }, by decide +kernel⟩
theorem witness_ImagesArmAndActivate_5 : ∃ (i : Fin 4) (s : State), s.img.act = .ready i.val ∧ s.part.st = .ready ∧ s.img.replayOf = none :=
  ⟨1, { imgOn with img := { imgOn.img with store := vupd imgOn.img.store 1 (fun _ => ⟨.armed, [], some tinyImage⟩), armed := some 1, act := .ready 1 } }, by decide +kernel⟩
theorem witness_ImagesArmAndActivate_6 : ∃ (i : Fin 4) (c : Count) (s : State), s.img.act = .hot i.val (some c) ∧ s.part.st = .run ∧ getN s Obj.activateAt ≤ s.eng.next ∧ c + 2 * frameNs s ≤ startOf s s.eng.next ∧ s.img.plan = none ∧ s.img.repls = [] ∧ s.eng.mainDone = true :=
  ⟨1, 9, { imgRun with img := { imgRun.img with store := vupd imgRun.img.store 1 (fun _ => ⟨.armed, [], some tinyImage⟩), armed := some 1, act := .hot 1 (some 9) } }, by decide +kernel⟩
theorem witness_ImagesArmAndActivate_7 : ∃ (i : Fin 4) (k : Nat) (x : Image) (s : State), s.img.act = .coldWait i.val k ∧ s.part.st = .run ∧ s.eng.next % 64 = 0 ∧ getN s Obj.activateAt ≤ s.eng.next ∧ s.img.armFrame + 2 ≤ s.eng.next ∧ s.eng.mainDone = true ∧ (s.img.store.get i).image = some x :=
  ⟨1, 0, tinyImage, { imgRun with img := { imgRun.img with store := vupd imgRun.img.store 1 (fun _ => ⟨.armed, [], some tinyImage⟩), armed := some 1, act := .coldWait 1 0 } }, by decide +kernel⟩
theorem witness_ImagesArmAndActivate_8 : ∃ (i : Fin 4) (c j : Nat) (s : State), s.img.coldStop = some (i.val, c, j) ∧ s.part.st = .run ∧ j ≤ s.eng.next :=
  ⟨1, 64, 64, { imgRun with img := { imgRun.img with store := vupd imgRun.img.store 1 (fun _ => ⟨.inForce, [], some tinyImage⟩), inForce := some 1, coldStop := some (1, 64, 64) }, eng := { imgRun.eng with stopped := true } }, by decide +kernel⟩

theorem witness_PlansAndDomains_1 : ∃ (p : Plan) (l : Nat) (s : State), s.img.plan = some p ∧ s.part.st = .run ∧ p.s - p.h ≤ s.eng.next ∧ s.eng.next < p.s ∧ l ∈ p.held ∧ l < s.img.binds.length :=
  ⟨⟨66, 2, [0], [⟨some 1, 1, 0, false, 0⟩], 1, 1, 34, 1, []⟩, 0, { imgRun with img := { imgRun.img with plan := some ⟨66, 2, [0], [⟨some 1, 1, 0, false, 0⟩], 1, 1, 34, 1, []⟩ } }, by decide +kernel⟩
theorem witness_PlansAndDomains_2 : ∃ (r : Repl) (x : Image) (s : State), s.img.repls = [r] ∧ r.s ≤ s.eng.next ∧ s.img.plan = none ∧ imageNow s = some x ∧ r.ltile < s.img.binds.length :=
  ⟨⟨64, 2, 0, 0, 1⟩, tinyImage, { imgRun with img := { imgRun.img with repls := [⟨64, 2, 0, 0, 1⟩] } }, by decide +kernel⟩
theorem witness_PlansAndDomains_3 : ∃ (d : Fin 2) (s : State), s.img.lostDom.get d = false :=
  ⟨0, imgOn, by decide +kernel⟩
theorem witness_PlansAndDomains_4 : ∃ (d : Fin 2) (s : State), s.img.lostDom.get d = true :=
  ⟨0, { readyOn with img := { Images.init with lostDom := Vector.replicate 2 true } }, by decide +kernel⟩
theorem witness_PlansAndDomains_5 : ∃ (au : Auth) (d : Fin 2) (s : State), s.oda.serving = true ∧ precheck s au (Obj.domainRetired d.val).key 0 (.num 1) = 0 :=
  ⟨.service, 1, imgOn, by decide +kernel⟩
theorem witness_PlansAndDomains_6 : ∃ (au : Auth) (d : Fin 2) (s : State), s.oda.serving = true ∧ precheck s au (Obj.domainRetired d.val).key 0 (.num 0) = 0 ∧ s.part.st = .ready :=
  ⟨.service, 1, imgOn, by decide +kernel⟩

theorem witness_AniseJobsAndTicks_1 : ∃ (s : State), s.part.st = .run ∧ frameBegun s = true ∧ s.ani.jobsFrame ≠ some s.eng.frame ∧ concordOn s = none ∧ s.eng.frame % tickFrames s ≠ 0 :=
  ⟨{ runOn with eng := { Engine.init with running := true, any := true, next := 42, frame := 41 } }, by decide +kernel⟩
theorem witness_AniseJobsAndTicks_2 : ∃ (p : Program) (o : Fin 24) (i j v : Nat) (s : State), s.part.st = .run ∧ frameBegun s = true ∧ s.ani.jobsFrame ≠ some s.eng.frame ∧ concordOn s = none ∧ s.eng.frame % tickFrames s = 0 ∧ s.ani.prog = some p ∧ s.ani.ready = none ∧ s.ani.jobsUe = false ∧ s.ani.reload = false ∧ p.outs[o.val]? = some ⟨1, i, j, v⟩ :=
  ⟨⟨1, [], [], [], [], [], [], ⟨1, 0, 0, 0x42480000⟩ :: List.replicate 23 ⟨0, 0, 0, 0⟩, [], true, [5]⟩, 0, 0, 0, 0x42480000, { runOn with eng := { Engine.init with running := true, any := true, next := 41, frame := 40 }, ani := { Anise.init with prog := some ⟨1, [], [], [], [], [], [], ⟨1, 0, 0, 0x42480000⟩ :: List.replicate 23 ⟨0, 0, 0, 0⟩, [], true, [5]⟩ } }, by decide +kernel⟩
theorem witness_AniseJobsAndTicks_3 : ∃ (p : Program) (s : State), s.part.st = .ready ∧ s.ani.prog = some p ∧ s.ani.ready = none ∧ s.ani.jobsUe = false :=
  ⟨⟨1, [], [], [], [], [], [], ⟨1, 0, 0, 0x42480000⟩ :: List.replicate 23 ⟨0, 0, 0, 0⟩, [], true, [5]⟩, { readyOn with ani := { Anise.init with prog := some ⟨1, [], [], [], [], [], [], ⟨1, 0, 0, 0x42480000⟩ :: List.replicate 23 ⟨0, 0, 0, 0⟩, [], true, [5]⟩ } }, by decide +kernel⟩
theorem witness_AniseJobsAndTicks_4 : ∃ (p : Program) (s : State), s.part.st = .ready ∧ s.ani.ready = some p :=
  ⟨⟨1, [], [], [], [], [], [], ⟨1, 0, 0, 0x42480000⟩ :: List.replicate 23 ⟨0, 0, 0, 0⟩, [], true, [5]⟩, { readyOn with ani := { Anise.init with ready := some ⟨1, [], [], [], [], [], [], ⟨1, 0, 0, 0x42480000⟩ :: List.replicate 23 ⟨0, 0, 0, 0⟩, [], true, [5]⟩ } }, by decide +kernel⟩
theorem witness_AniseJobsAndTicks_5 : ∃ (p : Program) (s : State), s.ani.prog = some p ∧ s.ani.ticking = true ∧ s.ani.newTemps = none ∧ s.part.st = .run :=
  ⟨⟨1, [], [], [], [], [], [], ⟨1, 0, 0, 0x42480000⟩ :: List.replicate 23 ⟨0, 0, 0, 0⟩, [], true, [5]⟩, { runOn with eng := { Engine.init with running := true, any := true, next := 41, frame := 40 }, ani := { Anise.init with ticking := true, prog := some ⟨1, [], [], [], [], [], [], ⟨1, 0, 0, 0x42480000⟩ :: List.replicate 23 ⟨0, 0, 0, 0⟩, [], true, [5]⟩ } }, by decide +kernel⟩
theorem witness_AniseJobsAndTicks_6 : ∃ (a : Fin 8) (b : Fin 12) (s : State), s.part.st = .run ∧ s.eng.p0Done = true ∧ s.eng.cur.skipped = false ∧ frameBegun s = true ∧ s.ani.antFrame ≠ some s.eng.frame :=
  ⟨2, 3, { runOn with eng := { Engine.init with running := true, any := true, next := 41, frame := 40 } }, by decide +kernel⟩
theorem witness_AniseJobsAndTicks_7 : ∃ (s : State), s.part.st = .run :=
  ⟨{ runOn with eng := { Engine.init with running := true, any := true, next := 41, frame := 40 } }, by decide +kernel⟩
theorem witness_AniseJobsAndTicks_8 : ∃ (s : State), s.part.st = .run :=
  ⟨{ runOn with eng := { Engine.init with running := true, any := true, next := 41, frame := 40 } }, by decide +kernel⟩
theorem witness_AniseJobsAndTicks_9 : ∃ (g : Vector Nat 12) (s : State), s.part.st = .run ∧ s.ani.gBack = some (s.eng.frame, g) :=
  ⟨Vector.replicate 12 5, { runOn with eng := { Engine.init with running := true, any := true, next := 41, frame := 40 }, ani := { Anise.init with gBack := some (40, Vector.replicate 12 5) } }, by decide +kernel⟩
theorem witness_AniseJobsAndTicks_10 : ∃ (k : JobsBack) (s : State), s.part.st = .run ∧ s.ani.jobsBack = some k ∧ k.at_ = s.eng.frame :=
  ⟨⟨40, [1], [some 3], [], [], .diverged, some 4, 2, true⟩, { runOn with eng := { Engine.init with running := true, any := true, next := 41, frame := 40 }, ani := { Anise.init with jobsBack := some ⟨40, [1], [some 3], [], [], .diverged, some 4, 2, true⟩ } }, by decide +kernel⟩
theorem witness_AniseJobsAndTicks_11 : ∃ (s : State), s.part.st = .run ∧ s.ani.jobsBack = none :=
  ⟨{ runOn with eng := { Engine.init with running := true, any := true, next := 41, frame := 40 } }, by decide +kernel⟩
theorem witness_AniseJobsAndTicks_12 : ∃ (s : State), s.part.st = .run ∧ frameBegun s = true ∧ s.ani.jobsFrame ≠ some s.eng.frame ∧ s.ani.jobsUe = true ∧ s.eng.frame % tickFrames s ≠ 0 :=
  ⟨{ runOn with eng := { Engine.init with running := true, any := true, next := 42, frame := 41 }, ani := { Anise.init with jobsUe := true } }, by decide +kernel⟩
theorem witness_AniseJobsAndTicks_13 : ∃ (au : Auth) (s : State), s.oda.serving = true ∧ precheck s au Blob.aniseProgram 0 (.bytes []) = 0 :=
  ⟨.service, readyOn, by decide +kernel⟩
theorem witness_AniseJobsAndTicks_14 : ∃ (au : Auth) (bytes : List Byte) (s : State), s.oda.serving = true ∧ precheck s au Blob.aniseProgram 0 (.bytes bytes) = 0 ∧ bytes ≠ [] ∧ checkProgram (parseProgram bytes) ≠ 0 :=
  ⟨.service, List.replicate 512 0, readyOn, by decide +kernel⟩
theorem witness_AniseJobsAndTicks_15 : ∃ (au : Auth) (bytes : List Byte) (s : State), s.oda.serving = true ∧ precheck s au Blob.aniseProgram 0 (.bytes bytes) = 0 ∧ bytes ≠ [] ∧ checkProgram (parseProgram bytes) = 0 :=
  ⟨.service, [1, 0, 1] ++ List.replicate 221 0, readyOn, by decide +kernel⟩

theorem witness_ConcordSummaries_1 : ∃ (p : ConcordProg) (s : State), concordOn s = some p ∧ s.eng.running = true ∧ s.eng.p0Done = true ∧ s.eng.cur.skipped = false ∧ frameBegun s = true ∧ s.ani.sentFrame ≠ some s.eng.frame :=
  ⟨⟨2, 0, 0, 0, 0, 0, 0, List.replicate 16 0⟩, { runOn with eng := { Engine.init with running := true, any := true, next := 41, frame := 40 }, blobs := [(Blob.concordProgram, [1, 0, 2, 0] ++ List.replicate 52 0)], nums := [(Obj.launchAt.key, 1), (Obj.concordEnable.key, 1)] }, by decide +kernel⟩
theorem witness_ConcordSummaries_2 : ∃ (x : Summary) (count : Nat) (p : ConcordProg) (s : State), concordOn s = some p ∧ x.format = 1 ∧ x.trays = p.trays ∧ x.program = concordDigest p ∧ x.index < p.trays ∧ x.index ≠ p.index ∧ s.ani.sums.any (fun y => y.frame == x.frame && y.index == x.index) = false ∧ now (reachCount count s) ≤ cutoffOf s (x.frame + 1) :=
  ⟨⟨1, 2, 1, 0, 40, concordDigest ⟨2, 0, 0, 0, 0, 0, 0, List.replicate 16 0⟩, 0, 0, 0, 0, []⟩, 100, ⟨2, 0, 0, 0, 0, 0, 0, List.replicate 16 0⟩, { runOn with eng := { Engine.init with running := true, any := true, next := 41, frame := 40 }, blobs := [(Blob.concordProgram, [1, 0, 2, 0] ++ List.replicate 52 0)], nums := [(Obj.launchAt.key, 1), (Obj.concordEnable.key, 1)] }, by decide +kernel, rfl, rfl, rfl, by decide +kernel, by decide +kernel, by decide +kernel, by decide +kernel⟩
theorem witness_ConcordSummaries_3 : ∃ (x : Summary) (count : Nat) (p : ConcordProg) (s : State), concordOn s = some p ∧ (x.format ≠ 1 ∨ x.trays ≠ p.trays ∨ x.index = p.index ∨ p.trays ≤ x.index) :=
  ⟨⟨1, 3, 1, 0, 40, [], 0, 0, 0, 0, []⟩, 100, ⟨2, 0, 0, 0, 0, 0, 0, List.replicate 16 0⟩, { runOn with eng := { Engine.init with running := true, any := true, next := 41, frame := 40 }, blobs := [(Blob.concordProgram, [1, 0, 2, 0] ++ List.replicate 52 0)], nums := [(Obj.launchAt.key, 1), (Obj.concordEnable.key, 1)] }, by decide +kernel⟩
theorem witness_ConcordSummaries_4 : ∃ (x : Summary) (count : Nat) (s : State), concordOn s = none :=
  ⟨⟨1, 3, 1, 0, 40, [], 0, 0, 0, 0, []⟩, 100, readyOn, by decide +kernel⟩

theorem witness_BranchInrushToOn_1 : ∃ (b : Fin 12) (s : State), mayInrush s b = true :=
  ⟨2, setN (withBr 0 (fun x => { x with st := .on }) (withBr 2 (fun x => { x with demand := true, seated := true }) readyOn)) (Obj.branchEnable 2) 1, by decide +kernel⟩
theorem witness_BranchInrushToOn_2 : ∃ (b : Fin 12) (s : State), (s.br.get b).st = .inrush ∧ (s.br.get b).inrushDone = false :=
  ⟨2, withBr 2 (fun x => { x with st := .inrush, inTgate := 40 }) readyOn, by decide +kernel⟩
theorem witness_BranchInrushToOn_3 : ∃ (b : Fin 12) (d : Nat) (vgs : List Rat) (s : State), (s.br.get b).st = .inrush ∧ (s.br.get b).inrushDone = true ∧ (s.br.get b).gateDue = some d ∧ s.clk.cycles ≤ d ∧ (∀ g : Fin 4, g.val < drivenGroups s b → 8 ≤ vgs.getD g.val 0) ∧ drivenGroups s b ≤ 4 :=
  ⟨2, 60, [9], withSq 1 (fun x => { x with st := .admission }) (withBr 2 (fun x => { x with st := .inrush, inrushDone := true, gateDue := some 60 }) readyOn), by decide +kernel⟩
theorem witness_BranchInrushToOn_4 : ∃ (b : Fin 12) (d : Nat) (s : State), (s.br.get b).st = .inrush ∧ (s.br.get b).inrushDone = true ∧ (s.br.get b).gateDue = some d :=
  ⟨2, 60, withBr 2 (fun x => { x with st := .inrush, inrushDone := true, gateDue := some 60 }) readyOn, by decide +kernel⟩
theorem witness_BranchInrushToOn_5 : ∃ (b : Fin 12) (s : State), (s.br.get b).st = .inrush ∧ (s.br.get b).inMode ≠ 2 ∧ (s.br.get b).inrushDone = false ∧ (s.br.get b).noRise = false ∧ (s.br.get b).causeAt ≠ (tickInrush b s).clk.cycles :=
  ⟨2, withBr 2 (fun x => { x with st := .inrush, causeAt := 3 }) readyOn, by decide +kernel⟩
theorem witness_BranchInrushToOn_6 : ∃ (b : Fin 12) (s : State), (s.br.get b).st = .inrush ∧ (s.br.get b).inMode ≠ 2 ∧ (s.br.get b).inrushDone = false ∧ (s.br.get b).noRise = true :=
  ⟨2, withBr 2 (fun x => { x with st := .inrush, noRise := true }) readyOn, by decide +kernel⟩
theorem witness_BranchInrushToOn_7 : ∃ (b : Fin 12) (c : Nat) (s : State), s.pow.trayOnCycle = some c ∧ 9 ≤ b.val ∧ (s.br.get 0).st = .on ∧ (s.br.get b).offsetDone = false :=
  ⟨10, 7, withBr 0 (fun x => { x with st := .on }) { readyOn with pow := { readyOn.pow with trayOnCycle := some 7 } }, by decide +kernel⟩

theorem witness_BranchTripsAndSensors_1 : ∃ (b : Fin 12) (uv : Rat) (s : State), (thresholdUv s b : Rat) ≤ uv ∧ (s.br.get b).st.live = true ∧ (s.br.get b).causeAt ≠ s.clk.cycles :=
  ⟨2, 200000, withBr 2 (fun x => { x with st := .on, causeAt := 3 }) readyOn, by decide +kernel⟩
theorem witness_BranchTripsAndSensors_2 : ∃ (a : Fin 8) (uv : Rat) (s : State), (thresholdUv s (branchOf a) : Rat) ≤ uv ∧ (s.br.get (branchOf a)).st.live = true ∧ (s.sq.get (seqOf a)).st.active = true ∧ (s.sq.get (seqOf a)).causeAt ≠ s.clk.cycles :=
  ⟨1, 200000, withSq 1 (fun x => { x with st := .on, causeAt := 3 }) (withBr 2 (fun x => { x with st := .on, causeAt := 3 }) readyOn), by decide +kernel⟩
theorem witness_BranchTripsAndSensors_3 : ∃ (b : Fin 12) (uv : Rat) (s : State), uv < (thresholdUv s b : Rat) :=
  ⟨2, 1, readyOn, by decide +kernel⟩
theorem witness_BranchTripsAndSensors_4 : ∃ (codes : List (List Int)) (b : Fin 12) (s : State), s.clk.running = true :=
  ⟨[[], [], [2, 4]], 2, withBr 2 (fun x => { x with st := .on }) readyOn, by decide +kernel⟩
theorem witness_BranchTripsAndSensors_5 : ∃ (codes : List (List Int)) (b : Fin 12) (s : State), s.clk.running = true ∧ judged s b = true ∧ (b = 0 ∨ judged s 0 = false) ∧ 1 ≤ fracStep s b (meanAmps s b (codes.getD b.val [])) :=
  ⟨[[], [], [1100]], 2, withBr 2 (fun x => { x with st := .on, frac := 2 }) readyOn, by decide +kernel⟩
theorem witness_BranchTripsAndSensors_6 : ∃ (vin vout sense : List Rat) (b : Fin 12) (s : State), s.clk.running = true :=
  ⟨[54], [1], [30], 2, readyOn, by decide +kernel⟩
theorem witness_BranchTripsAndSensors_7 : ∃ (b : Fin 12) (s : State), s.clk.running = true ∧ getF s (Obj.tFetMax b.val) < tFet s b ∧ (s.br.get b).st.live = true ∧ (s.br.get b).causeAt < s.clk.cycles :=
  ⟨2, withBr 2 (fun x => { x with st := .on, causeAt := 3, tDirect := 200, tModel := 200 }) { readyOn with clk := { readyOn.clk with cycles := 50 } }, by decide +kernel⟩
theorem witness_BranchTripsAndSensors_8 : ∃ (b : Fin 12) (s : State), s.clk.running = true ∧ getF s (Obj.tFetMax b.val) < tFet s b ∧ (s.br.get b).st.live = false ∧ (s.br.get b).wasAt < s.clk.cycles ∧ (s.br.get b).hotArmed = true :=
  ⟨2, withBr 2 (fun x => { x with tDirect := 200, tModel := 200, wasAt := 1 }) { readyOn with clk := { readyOn.clk with cycles := 50 } }, by decide +kernel⟩
theorem witness_BranchTripsAndSensors_9 : ∃ (b : Fin 12) (reading : Rat) (since : Nat) (s : State), s.clk.running = true ∧ fetSensorIn s b reading = false ∧ (s.br.get b).sensorFault = false ∧ getN s (Obj.tfetMode b.val) = 1 ∧ (s.br.get b).st.live = true ∧ (s.br.get b).causeAt < s.clk.cycles :=
  ⟨2, 7, 4, setN (withBr 2 (fun x => { x with st := .on, causeAt := 3 }) { readyOn with clk := { readyOn.clk with cycles := 50 } }) (Obj.tfetMode 2) 1, by decide +kernel⟩
theorem witness_BranchTripsAndSensors_10 : ∃ (b : Fin 12) (reading : Rat) (since : Nat) (s : State), s.clk.running = true ∧ fetSensorIn s b reading = false ∧ (s.br.get b).sensorFault = false ∧ getN s (Obj.tfetMode b.val) ≠ 1 :=
  ⟨2, 7, 4, setN readyOn (Obj.tfetMode 2) 2, by decide +kernel⟩
theorem witness_BranchTripsAndSensors_11 : ∃ (b : Fin 12) (reading : Rat) (since : Nat) (s : State), (s.br.get b).sensorFault = true ∧ fetSensorIn s b reading = true :=
  ⟨2, 1/2, 4, withBr 2 (fun x => { x with sensorFault := true, st := .latched }) readyOn, by decide +kernel⟩
theorem witness_BranchTripsAndSensors_12 : ∃ (b : Fin 12) (vds : Rat) (codes : List Int) (s : State), (s.br.get b).st = .on ∧ (s.br.get b).fVdsHigh = false ∧ vdsOver s b vds (meanAmps s b codes) = true :=
  ⟨2, 50, [], withBr 2 (fun x => { x with st := .on }) readyOn, by decide +kernel⟩
theorem witness_BranchTripsAndSensors_13 : ∃ (b : Fin 12) (vds : Rat) (codes : List Int) (s : State), (s.br.get b).fVdsHigh = true ∧ vdsOver s b vds (meanAmps s b codes) = false :=
  ⟨2, 0, [], withBr 2 (fun x => { x with st := .on, fVdsHigh := true }) readyOn, by decide +kernel⟩

theorem witness_BranchHealthAndControl_1 : ∃ (b : Fin 12) (vout : Rat) (s : State), s.clk.running = true ∧ (s.br.get b).st = .off ∧ (s.br.get b).fOutputWhileOff = false ∧ 20 ≤ (s.br.get b).vin ∧ getF s (Obj.voutOffMax b.val) < vout :=
  ⟨2, 30, withBr 2 (fun x => { x with vin := 54 }) readyOn, by decide +kernel⟩
theorem witness_BranchHealthAndControl_2 : ∃ (b : Fin 12) (codes : List Int) (d : Nat) (s : State), (s.br.get b).st = .latched ∧ (s.br.get b).watchDue = some d ∧ fastAmps s b / 4 < meanAmps s b codes ∧ (s.br.get b).fNotCleared = false :=
  ⟨2, [8191], 9, withBr 2 (fun x => { x with st := .latched, watchDue := some 9 }) readyOn, by decide +kernel⟩
theorem witness_BranchHealthAndControl_3 : ∃ (b : Fin 12) (codes : List Int) (d : Nat) (s : State), (s.br.get b).st = .latched ∧ (s.br.get b).watchDue = some d ∧ meanAmps s b codes ≤ fastAmps s b / 4 :=
  ⟨2, [0], 9, withBr 2 (fun x => { x with st := .latched, watchDue := some 9 }) readyOn, by decide +kernel⟩
theorem witness_BranchHealthAndControl_4 : ∃ (b : Fin 12) (since : Nat) (s : State), s.clk.running = true ∧ (s.br.get b).en = true ∧ (s.br.get b).st.live = true :=
  ⟨2, 4, withBr 2 (fun x => { x with st := .on }) readyOn, by decide +kernel⟩
theorem witness_BranchHealthAndControl_5 : ∃ (b : Fin 12) (at_ : Nat) (s : State), (s.br.get b).en = false ∧ (s.br.get b).enLowAt + usCycles 10 ≤ s.clk.cycles ∧ (s.br.get b).st = .latched ∧ s.part.st ≠ .safe ∧ b ≠ 0 ∧ brRequest s b = true ∧ s.heat.sorghumOt = false ∧ brPresent s b = true :=
  ⟨10, 4, withBr 10 (fun x => { x with st := .latched, en := false }) { readyOn with clk := { readyOn.clk with cycles := 500 } }, by decide +kernel⟩
theorem witness_BranchHealthAndControl_6 : ∃ (b : Fin 12) (at_ : Nat) (s : State), (s.br.get b).en = false ∧ brLatched (s.br.get b) = false :=
  ⟨2, 4, withBr 2 (fun x => { x with en := false }) readyOn, by decide +kernel⟩
theorem witness_BranchHealthAndControl_7 : ∃ (a : Fin 8) (since : Nat) (s : State), s.clk.running = true ∧ s.pow.rcbInvalid = false ∧ (s.br.get (branchOf a)).seated = true ∧ ((s.br.get (branchOf a)).st = .off ∨ (s.br.get (branchOf a)).st.live = true) :=
  ⟨1, 4, withBr 2 (fun x => { x with st := .on, seated := true }) readyOn, by decide +kernel⟩
theorem witness_BranchHealthAndControl_8 : ∃ (a : Fin 8) (since : Nat) (s : State), s.clk.running = true ∧ (s.br.get (branchOf a)).seated = false :=
  ⟨1, 4, withBr 2 (fun x => { x with st := .held }) readyOn, by decide +kernel⟩
theorem witness_BranchHealthAndControl_9 : ∃ (a : Fin 8) (d : Nat) (s : State), (s.br.get (branchOf a)).treins = some d ∧ (s.br.get (branchOf a)).seated = true ∧ (s.br.get (branchOf a)).st = .held :=
  ⟨1, 90, withSq 1 (fun x => { x with st := .held }) (withBr 2 (fun x => { x with st := .held, seated := true, treins := some 90 }) readyOn), by decide +kernel⟩
theorem witness_BranchHealthAndControl_10 : ∃ (au : Auth) (a : Fin 8) (s : State), s.oda.serving = true ∧ precheck s au (Obj.branchEnable (branchOf a).val).key 0 (.num 0) = 0 ∧ (s.sq.get (seqOf a)).st = .on :=
  ⟨.service, 1, withSq 1 (fun x => { x with st := .on }) (withBr 2 (fun x => { x with st := .on }) readyOn), by decide +kernel⟩
theorem witness_BranchHealthAndControl_11 : ∃ (au : Auth) (b : Fin 12) (s : State), s.oda.serving = true ∧ precheck s au (Obj.branchEnable b.val).key 0 (.num 0) = 0 ∧ 9 ≤ b.val ∧ (s.br.get b).st.live = true :=
  ⟨.service, 10, withBr 10 (fun x => { x with st := .on }) readyOn, by decide +kernel⟩
theorem witness_BranchHealthAndControl_12 : ∃ (au : Auth) (b : Fin 12) (s : State), s.oda.serving = true ∧ precheck s au (Obj.branchEnable b.val).key 0 (.num 1) = 0 ∧ (s.br.get b).zeroStands = false :=
  ⟨.service, 2, readyOn, by decide +kernel⟩
theorem witness_BranchHealthAndControl_13 : ∃ (au : Auth) (b : Fin 12) (s : State), s.oda.serving = true ∧ precheck s au (Obj.branchEnable b.val).key 0 (.num 1) = 0 ∧ (s.br.get b).zeroStands = true ∧ (s.br.get b).st = .latched ∧ b ≠ 0 ∧ brRequest s b = true ∧ s.heat.sorghumOt = false ∧ brPresent s b = true :=
  ⟨.service, 10, withBr 10 (fun x => { x with st := .latched, zeroStands := true }) readyOn, by decide +kernel⟩
theorem witness_BranchHealthAndControl_14 : ∃ (au : Auth) (b : Fin 12) (s : State), s.oda.serving = true ∧ precheck s au (Obj.branchFetClear b.val).key 0 (.num 1) = 0 ∧ (s.br.get b).st = .faultFet :=
  ⟨.service, 2, withBr 2 (fun x => { x with st := .faultFet, fNotCleared := true }) readyOn, by decide +kernel⟩
theorem witness_BranchHealthAndControl_15 : ∃ (au : Auth) (b : Fin 12) (s : State), s.oda.serving = true ∧ precheck s au (Obj.branchFetClear b.val).key 0 (.num 1) = 0 ∧ (s.br.get b).st ≠ .faultFet :=
  ⟨.service, 2, readyOn, by decide +kernel⟩
theorem witness_BranchHealthAndControl_16 : ∃ (au : Auth) (bytes : List Byte) (s : State), s.oda.serving = true ∧ precheck s au Blob.dw440Import 0 (.bytes bytes) = 0 ∧ dwHome bytes s = 0 ∧ bytes.length = 16 :=
  ⟨.service, [2, 1, 20, 50, 200, 0, 10, 0, 200, 0, 125, 0, 0, 0, 0, 0], { readyOn with part := { readyOn.part with strap := true } }, by decide +kernel⟩

theorem witness_SequencerAdmissionAndSteps_1 : ∃ (a : Fin 8) (e : Nat) (s : State), earliest s a = some e ∧ admissible s a = true :=
  ⟨1, 7, withBr 0 (fun x => { x with st := .on }) (updAcc 1 (fun x => { x with effective := true }) (setN { readyOn with pow := { readyOn.pow with trayOnCycle := some 7 } } (Obj.startOffsetMs 1) 0)), by decide +kernel⟩
theorem witness_SequencerAdmissionAndSteps_2 : ∃ (q : Fin 9) (w : Nat) (s : State), stepNow (s.sq.get q) = some w ∧ w ≠ 0 ∧ stepType w = 1 ∧ getN s (Obj.railNominalV (railNo q (stepRail w))) ≠ 0 :=
  ⟨2, 0x13000000, setN (withSq 2 (fun x => { x with st := .up, kind := .up, list := [0x13000000, 0x11000000] }) readyOn) (Obj.railNominalV 35) 0x3F800000, by decide +kernel⟩
theorem witness_SequencerAdmissionAndSteps_3 : ∃ (q : Fin 9) (w : Nat) (s : State), stepNow (s.sq.get q) = some w ∧ w ≠ 0 ∧ stepType w = 1 ∧ getN s (Obj.railNominalV (railNo q (stepRail w))) = 0 :=
  ⟨2, 0x13000000, withSq 2 (fun x => { x with st := .up, kind := .up, list := [0x13000000, 0x11000000] }) readyOn, by decide +kernel⟩
theorem witness_SequencerAdmissionAndSteps_4 : ∃ (q : Fin 9) (w : Nat) (s : State), stepNow (s.sq.get q) = some w ∧ w ≠ 0 ∧ stepType w = 2 ∧ passed s q (stepRail w) = false :=
  ⟨2, 0x23000000, withSq 2 (fun x => { x with st := .up, kind := .up, list := [0x23000000, 0x11000000] }) readyOn, by decide +kernel⟩
theorem witness_SequencerAdmissionAndSteps_5 : ∃ (q : Fin 9) (w : Nat) (pg : Bool) (s : State), stepNow (s.sq.get q) = some w ∧ w ≠ 0 ∧ stepType w = 3 ∧ pg = bitSet w 23 ∧ passed s q (stepRail w) = false :=
  ⟨2, 0x33800000, true, withSq 2 (fun x => { x with st := .up, kind := .up, list := [0x33800000, 0x11000000] }) readyOn, by decide +kernel⟩
theorem witness_SequencerAdmissionAndSteps_6 : ∃ (q : Fin 9) (w : Nat) (pg : Bool) (s : State), stepNow (s.sq.get q) = some w ∧ w ≠ 0 ∧ stepType w = 3 ∧ pg ≠ bitSet w 23 ∧ passed s q (stepRail w) = false ∧ fallsAtOnce s q (stepRail w) (bitSet w 23) = false :=
  ⟨2, 0x33800000, false, withSq 2 (fun x => { x with st := .up, kind := .up, list := [0x33800000, 0x11000000] }) readyOn, by decide +kernel⟩
theorem witness_SequencerAdmissionAndSteps_7 : ∃ (q : Fin 9) (w : Nat) (s : State), stepNow (s.sq.get q) = some w ∧ w ≠ 0 ∧ stepType w = 4 :=
  ⟨2, 0x40000064, withSq 2 (fun x => { x with st := .up, kind := .up, list := [0x40000064, 0x11000000] }) readyOn, by decide +kernel⟩
theorem witness_SequencerAdmissionAndSteps_8 : ∃ (q : Fin 9) (w : Nat) (v : Rat) (s : State), stepNow (s.sq.get q) = some w ∧ w ≠ 0 ∧ stepType w = 5 ∧ levelMet s q (stepRail w) (bitSet w 23) v = true ∧ passed s q (stepRail w) = false :=
  ⟨2, 0x53800000, 5, withSq 2 (fun x => { x with st := .up, kind := .up, list := [0x53800000, 0x11000000] }) readyOn, by decide +kernel⟩
theorem witness_SequencerAdmissionAndSteps_9 : ∃ (q : Fin 9) (w : Nat) (v : Rat) (s : State), stepNow (s.sq.get q) = some w ∧ w ≠ 0 ∧ stepType w = 5 ∧ levelMet s q (stepRail w) (bitSet w 23) v = false ∧ passed s q (stepRail w) = false ∧ fallsAtOnce s q (stepRail w) (bitSet w 23) = false :=
  ⟨2, 0x53000000, 5, withSq 2 (fun x => { x with st := .up, kind := .up, list := [0x53000000, 0x11000000] }) readyOn, by decide +kernel⟩
theorem witness_SequencerAdmissionAndSteps_10 : ∃ (q : Fin 9) (w : Nat) (s : State), stepNow (s.sq.get q) = some w ∧ w ≠ 0 ∧ stepType w = 6 :=
  ⟨2, 0x63000000, withSq 2 (fun x => { x with st := .up, kind := .up, list := [0x63000000, 0x11000000] }) readyOn, by decide +kernel⟩
theorem witness_SequencerAdmissionAndSteps_11 : ∃ (q : Fin 9) (w : Nat) (s : State), stepNow (s.sq.get q) = some w ∧ w ≠ 0 ∧ stepType w = 7 :=
  ⟨2, 0x73000000, withSq 2 (fun x => { x with st := .up, kind := .up, list := [0x73000000, 0x11000000] }) readyOn, by decide +kernel⟩
theorem witness_SequencerAdmissionAndSteps_12 : ∃ (q : Fin 9) (s : State), stepNow (s.sq.get q) = some 0 ∧ (s.sq.get q).kind = .up :=
  ⟨2, withSq 2 (fun x => { x with st := .up, kind := .up, list := [], step := 0 }) readyOn, by decide +kernel⟩
theorem witness_SequencerAdmissionAndSteps_13 : ∃ (a : Fin 8) (s : State), stepNow (s.sq.get (seqOf a)) = some 0 ∧ (s.sq.get (seqOf a)).kind ≠ .up :=
  ⟨2, withBr 3 (fun x => { x with st := .on }) (withSq 2 (fun x => { x with st := .down, kind := .down, list := [], step := 0 }) readyOn), by decide +kernel⟩

theorem witness_SequencerWaitsWindowsAndFaults_1 : ∃ (q : Fin 9) (v : Rat) (r d : Nat) (up : Bool) (s : State), (s.sq.get q).wait = some (.pg r up d) :=
  ⟨2, 0, 3, 900, true, withSq 2 (fun x => { x with st := .up, kind := .up, wait := some (.pg 3 true 900) }) readyOn, by decide +kernel⟩
theorem witness_SequencerWaitsWindowsAndFaults_2 : ∃ (a : Fin 8) (r d : Nat) (up : Bool) (s : State), (s.sq.get (seqOf a)).wait = some (.pg r up d) ∧ (s.sq.get (seqOf a)).kind = .up ∧ (s.sq.get (seqOf a)).st = .up ∧ (s.sq.get (seqOf a)).causeAt < s.clk.cycles :=
  ⟨2, 3, 900, true, withSq 2 (fun x => { x with st := .up, kind := .up, wait := some (.pg 3 true 900) }) { readyOn with clk := { readyOn.clk with cycles := 50 } }, by decide +kernel⟩
theorem witness_SequencerWaitsWindowsAndFaults_3 : ∃ (q : Fin 9) (r d : Nat) (up : Bool) (s : State), (s.sq.get q).wait = some (.pg r up d) ∧ (s.sq.get q).kind = .down :=
  ⟨2, 3, 900, false, withSq 2 (fun x => { x with st := .down, kind := .down, wait := some (.pg 3 false 900) }) readyOn, by decide +kernel⟩
theorem witness_SequencerWaitsWindowsAndFaults_4 : ∃ (q : Fin 9) (d : Nat) (s : State), (s.sq.get q).wait = some (.time d) :=
  ⟨2, 900, withSq 2 (fun x => { x with st := .up, kind := .up, wait := some (.time 900) }) readyOn, by decide +kernel⟩
theorem witness_SequencerWaitsWindowsAndFaults_5 : ∃ (q : Fin 9) (s : State), (s.sq.get q).st = .pgWindow ∧ (s.sq.get q).pgDirty = false :=
  ⟨2, withSq 2 (fun x => { x with st := .pgWindow }) readyOn, by decide +kernel⟩
theorem witness_SequencerWaitsWindowsAndFaults_6 : ∃ (q : Fin 9) (trip : Nat) (s : State), (s.sq.get q).st = .pgWindow ∧ (s.sq.get q).pgDirty = false ∧ trip ≠ 0 ∧ trip < 25 :=
  ⟨2, 7, withSq 2 (fun x => { x with st := .pgWindow }) readyOn, by decide +kernel⟩
theorem witness_SequencerWaitsWindowsAndFaults_7 : ∃ (a : Fin 8) (s : State), (s.sq.get (seqOf a)).st = .pgWindow ∧ (s.sq.get (seqOf a)).causeAt < s.clk.cycles :=
  ⟨2, withSq 2 (fun x => { x with st := .pgWindow }) { readyOn with clk := { readyOn.clk with cycles := 50 } }, by decide +kernel⟩
theorem witness_SequencerWaitsWindowsAndFaults_8 : ∃ (a : Fin 8) (r : Fin 16) (v : Rat) (began : Nat) (s : State), ((s.sq.get (seqOf a)).rails.get r).uvArmed = true ∧ getN s (Obj.railNominalV (railNo (seqOf a) r)) ≠ 0 ∧ levelShows s (seqOf a) r .uvFault v = true ∧ (s.sq.get (seqOf a)).st = .on ∧ (s.sq.get (seqOf a)).causeAt < s.clk.cycles :=
  ⟨2, 3, 0, 4, withSq 2 (fun x => { x with st := .on, causeAt := 5, rails := Vector.replicate 16 { Rail.init with uvArmed := true, enabled := true } }) (setN (setN { readyOn with clk := { readyOn.clk with cycles := 50 } } (Obj.railNominalV 35) 0x3F800000) (Obj.uvFaultR 35) 0x3F400000), by decide +kernel⟩
theorem witness_SequencerWaitsWindowsAndFaults_9 : ∃ (q : Fin 9) (r : Fin 16) (v : Rat) (began : Nat) (s : State), ((s.sq.get q).rails.get r).uvArmed = true ∧ getN s (Obj.railNominalV (railNo q r)) ≠ 0 ∧ levelShows s q r .uvWarn v = true :=
  ⟨2, 3, 0, 4, withSq 2 (fun x => { x with st := .on, rails := Vector.replicate 16 { Rail.init with uvArmed := true, enabled := true } }) (setN (setN readyOn (Obj.railNominalV 35) 0x3F800000) (Obj.uvWarnR 35) 0x3F400000), by decide +kernel⟩
theorem witness_SequencerWaitsWindowsAndFaults_10 : ∃ (q : Fin 9) (r : Fin 16) (v : Rat) (s : State), ((s.sq.get q).rails.get r).uvArmed = true ∧ getN s (Obj.railNominalV (railNo q r)) ≠ 0 ∧ levelEnds s q r .uvFault v = true ∧ (s.sq.get q).st = .pgWindow :=
  ⟨2, 3, 5, withSq 2 (fun x => { x with st := .pgWindow, rails := Vector.replicate 16 { Rail.init with uvArmed := true, enabled := true } }) (setN readyOn (Obj.railNominalV 35) 0x3F800000), by decide +kernel⟩
theorem witness_SequencerWaitsWindowsAndFaults_11 : ∃ (a : Fin 8) (began : Nat) (s : State), s.clk.running = true ∧ (s.sq.get (seqOf a)).st.active = true ∧ (s.sq.get (seqOf a)).causeAt < s.clk.cycles :=
  ⟨2, 4, withSq 2 (fun x => { x with st := .on, causeAt := 5 }) { readyOn with clk := { readyOn.clk with cycles := 50 } }, by decide +kernel⟩
theorem witness_SequencerWaitsWindowsAndFaults_12 : ∃ (q : Fin 9) (s : State), (s.sq.get q).st = .offWait :=
  ⟨2, withSq 2 (fun x => { x with st := .offWait }) readyOn, by decide +kernel⟩
theorem witness_SequencerWaitsWindowsAndFaults_13 : ∃ (d : Nat) (s : State), (s.sq.get sSelf).retryDue = some d ∧ (s.sq.get sSelf).st = .idle ∧ (s.sq.get sSelf).exhausted = false ∧ (s.br.get 0).st = .on :=
  ⟨77, withBr 0 (fun x => { x with st := .on }) (withSq sSelf (fun x => { x with retryDue := some 77 }) readyOn), by decide +kernel⟩
theorem witness_SequencerWaitsWindowsAndFaults_14 : ∃ (au : Auth) (q : Fin 9) (which : SeqList) (bytes : List Byte) (s : State), s.oda.serving = true ∧ which ≠ .none ∧ precheck s au (listKey q which) 0 (.bytes bytes) = 0 ∧ listOk s q which bytes = true :=
  ⟨.service, 2, .up, [0, 0, 0, 0], readyOn, by decide +kernel⟩

theorem witness_PartHeatAndThrottling_1 : ∃ (m : List (Option Int)) (g : List Int) (s : State), s.clk.running = true :=
  ⟨[some 384, none, some 160], [80], readyOn, by decide +kernel⟩
theorem witness_PartHeatAndThrottling_2 : ∃ (s : State), s.part.reset = false ∧ 100 < s.heat.tMain ∧ since s s.heat.lastRise (msCycles 10) = true ∧ s.heat.lt < 7 :=
  ⟨{ readyOn with heat := { Heat.init with tMain := 101 } }, by decide +kernel⟩
theorem witness_PartHeatAndThrottling_3 : ∃ (s : State), s.part.reset = false ∧ s.heat.tMain < 95 ∧ since s s.heat.lastChange (msCycles 100) = true ∧ 0 < s.heat.lt :=
  ⟨{ readyOn with heat := { Heat.init with tMain := 94, lt := 3, lLevel := 3 } }, by decide +kernel⟩
theorem witness_PartHeatAndThrottling_4 : ∃ (s : State), s.part.reset = false ∧ 95 ≤ s.heat.tMain ∧ s.heat.tMain ≤ 100 :=
  ⟨{ readyOn with heat := { Heat.init with tMain := 97, lt := 3 } }, by decide +kernel⟩
theorem witness_PartHeatAndThrottling_5 : ∃ (au : Auth) (v : Nat) (s : State), s.oda.serving = true ∧ precheck s au Obj.engineCapLevel.key 0 (.num v) = 0 :=
  ⟨.facility, 3, readyOn, by decide +kernel⟩
theorem witness_PartHeatAndThrottling_6 : ∃ (x : Rat) (kept : Bool) (began : Nat) (s : State), s.clk.running = true ∧ 115 ≤ x ∧ ringOn s = true ∧ (s.part.st = .run ∨ s.part.st = .ready ∨ s.part.st = .boot) ∧ s.part.reset = false ∧ (s.sq.get sSelf).st = .on :=
  ⟨116, true, 4, withSq sSelf (fun x => { x with st := .on, pgood := true, rails := Vector.replicate 16 { Rail.init with enabled := true } }) readyOn, by decide +kernel⟩
theorem witness_PartHeatAndThrottling_7 : ∃ (x : Rat) (kept : Bool) (began : Nat) (s : State), s.clk.running = true ∧ 115 ≤ x ∧ ringOn s = true ∧ s.part.st = .safe ∧ s.heat.shut = false ∧ s.part.reset = false :=
  ⟨116, true, 4, withSq sSelf (fun x => { x with rails := Vector.replicate 16 { Rail.init with enabled := true } }) { readyOn with part := { readyOn.part with st := .safe } }, by decide +kernel⟩
theorem witness_PartHeatAndThrottling_8 : ∃ (began : Nat) (s : State), s.clk.running = true ∧ awaitsRestart s = true ∧ (s.sq.get sSelf).exhausted = false ∧ (s.br.get 0).st = .on :=
  ⟨4, withBr 0 (fun x => { x with st := .on }) { { readyOn with part := { readyOn.part with st := .thermalShutdown, reset := true } } with heat := { Heat.init with restartDue := some 900 } }, by decide +kernel⟩
theorem witness_PartHeatAndThrottling_9 : ∃ (x : Rat) (began : Nat) (s : State), s.clk.running = true ∧ s.heat.sorghumOt = false ∧ 150 ≤ x ∧ s.pow.rcbInvalid = false :=
  ⟨151, 4, withBr 2 (fun x => { x with st := .on }) readyOn, by decide +kernel⟩
theorem witness_PartHeatAndThrottling_10 : ∃ (x : Rat) (began : Nat) (s : State), s.heat.sorghumOt = true ∧ x < 125 ∧ s.part.st = .safe ∧ s.part.safeCause = .sorghumOt :=
  ⟨120, 4, { { readyOn with part := { readyOn.part with st := .safe, safeCause := .sorghumOt } } with heat := { Heat.init with sorghumOt := true } }, by decide +kernel⟩

theorem witness_AcceleratorHeatAndCooling_1 : ∃ (a : Fin 8) (x : Rat) (began : Nat) (s : State), (s.acc.get a).thermalHold = true ∧ holdChannel s a = none :=
  ⟨1, 0, 4, updAcc 1 (fun x => { x with thermalHold := true }) readyOn, by decide +kernel⟩
theorem witness_AcceleratorHeatAndCooling_2 : ∃ (a : Fin 8) (c : Fin 32) (x : Rat) (began : Nat) (s : State), (s.acc.get a).thermalHold = true ∧ holdChannel s a = some c :=
  ⟨1, 0, 20, 4, setN (setN (updAcc 1 (fun x => { x with thermalHold := true }) readyOn) (Obj.accelTempSource 1) 0x0180) (Obj.tempChKind 0) 1, by decide +kernel⟩
theorem witness_AcceleratorHeatAndCooling_4 : ∃ (a : Fin 8) (x : Rat) (n p : Nat) (s : State), mainUp s = true ∧ getN s (Obj.accelTempSource a.val) ≠ 0xFFFF ∧ capStep s a x = some (n, p) :=
  ⟨1, 99, 5000000, 96, setN (setN readyOn (Obj.accelTempSource 1) 0x0180) (Obj.accelWarnC 1) 0x42A00000, by decide +kernel⟩
theorem witness_AcceleratorHeatAndCooling_5 : ∃ (a : Fin 8) (w : Rat) (s : State), (s.acc.get a).limitDue = some w ∧ mainUp s = true ∧ limitBus s a ≠ 0 ∧ (s.acc.get a).limitTries = 0 :=
  ⟨1, 300, updAcc 1 (fun x => { x with limitDue := some 300 }) (setN readyOn (Obj.accelLimitBus 1) 0x10000000), by decide +kernel⟩
theorem witness_AcceleratorHeatAndCooling_6 : ∃ (a : Fin 8) (w : Rat) (s : State), (s.acc.get a).limitDue = some w ∧ mainUp s = true ∧ limitBus s a ≠ 0 ∧ (s.acc.get a).limitTries = 0 :=
  ⟨1, 300, updAcc 1 (fun x => { x with limitDue := some 300 }) (setN readyOn (Obj.accelLimitBus 1) 0x10000000), by decide +kernel⟩
theorem witness_AcceleratorHeatAndCooling_7 : ∃ (a : Fin 8) (w : Rat) (d : Nat) (ack : Bool) (s : State), (s.acc.get a).limitDue = some w ∧ (s.acc.get a).limitRetryDue = some d ∧ mainUp s = true ∧ limitBus s a ≠ 0 :=
  ⟨1, 300, 90, false, updAcc 1 (fun x => { x with limitDue := some 300, limitTries := 2, limitRetryDue := some 90 }) (setN readyOn (Obj.accelLimitBus 1) 0x10000000), by decide +kernel⟩
theorem witness_AcceleratorHeatAndCooling_8 : ∃ (i : Fin 16) (hz : Rat) (began : Nat) (s : State), mainUp s = true ∧ getN s (Obj.tachMinRpm i.val) ≠ 0 ∧ 20 ≤ (s.cool.outs.get (outOfFan i)).applied :=
  ⟨3, 100, 4, setN { readyOn with cool := { Cooling.init with outs := Vector.replicate 24 { Output.init with applied := 50 } } } (Obj.tachMinRpm 3) 900, by decide +kernel⟩
theorem witness_AcceleratorHeatAndCooling_9 : ∃ (i : Fin 12) (hz : Rat) (began : Nat) (s : State), mainUp s = true ∧ getF s (Obj.flowMinLpm i.val) ≠ 0 :=
  ⟨3, 1, 4, setN readyOn (Obj.flowMinLpm 3) 0x40A00000, by decide +kernel⟩
theorem witness_AcceleratorHeatAndCooling_10 : ∃ (c : Fin 32) (reading x : Rat) (began : Nat) (s : State), s.clk.running = true ∧ getN s (Obj.tempChKind c.val) ≠ 0 ∧ sensorIn (decide (2 ≤ getN s (Obj.tempChKind c.val))) reading = false :=
  ⟨3, 7, 20, 4, setN readyOn (Obj.tempChKind 3) 1, by decide +kernel⟩
theorem witness_AcceleratorHeatAndCooling_11 : ∃ (c : Fin 32) (reading x : Rat) (began : Nat) (s : State), s.clk.running = true ∧ getN s (Obj.tempChKind c.val) = 1 ∧ sensorIn false reading = true :=
  ⟨3, 1/2, 20, 4, setN readyOn (Obj.tempChKind 3) 1, by decide +kernel⟩

theorem witness_LeaksAndZones_1 : ∃ (c : Fin 8) (ohm : Nat) (s : State), s.clk.running = true ∧ getN s (Obj.leakEnable c.val) ≠ 0 ∧ (s.cool.leaks.get c).st ≠ .disabled :=
  ⟨3, 5000, setN readyOn (Obj.leakEnable 3) 1, by decide +kernel⟩
theorem witness_LeaksAndZones_2 : ∃ (c : Fin 8) (dst : LeakState) (s : State), (s.cool.leaks.get c).next (getN s Obj.leakDgMs) = some dst :=
  ⟨3, .warn, { readyOn with cool := { Cooling.init with leaks := Vector.replicate 8 ⟨9, .dry, 0, 255, 0, 0, 0, 0⟩ } }, by decide +kernel⟩
theorem witness_LeaksAndZones_3 : ∃ (c a : Fin 8) (s : State), (s.cool.leaks.get c).next (getN s Obj.leakDgMs) = some .fault ∧ s.cool.zones.get (zoneOf s c) = .clear ∧ bitSet (getN s (Obj.zoneAccels (zoneOf s c).val)) a.val = true :=
  ⟨3, 1, setN (setN { readyOn with cool := { Cooling.init with leaks := Vector.replicate 8 ⟨9, .dry, 255, 255, 0, 0, 0, 0⟩ } } (Obj.leakZone 3) 2) (Obj.zoneAccels 2) 2, by decide +kernel⟩
theorem witness_LeaksAndZones_4 : ∃ (z : Fin 8) (s : State), s.cool.zones.get z = .latched ∧ (zoneChannels s z).any (fun x => x.st != .dry) = false :=
  ⟨2, { readyOn with cool := { Cooling.init with zones := Vector.replicate 8 .latched } }, by decide +kernel⟩
theorem witness_LeaksAndZones_5 : ∃ (au : Auth) (z a : Fin 8) (s : State), s.oda.serving = true ∧ precheck s au Obj.leakClear.key 0 (.num z.val) = 0 ∧ zoneDry s z = true ∧ s.cool.zones.get z ≠ .clear :=
  ⟨.service, 2, 1, { readyOn with clk := { readyOn.clk with cycles := 2000000000 }, part := { readyOn.part with strap := true }, cool := { Cooling.init with zones := Vector.replicate 8 .latched } }, by decide +kernel⟩
theorem witness_LeaksAndZones_6 : ∃ (au : Auth) (z : Fin 8) (s : State), s.oda.serving = true ∧ precheck s au Obj.leakClear.key 0 (.num z.val) = 0 ∧ zoneDry s z = false :=
  ⟨.service, 0, { readyOn with part := { readyOn.part with strap := true } }, by decide +kernel⟩

theorem witness_OdaReads_1 : ∃ (n txn : Nat) (x : Session) (key ty : Nat) (w s : State), s.oda.serving = true ∧ n ≠ 0 ∧ odaSession s n = some x ∧ busy s x = false ∧ w = touch n s ∧ readCheck w x.auth key ty = 0 ∧ isFwKey w key = false ∧ readFits w key (readValue w n x.place key) = 0 :=
  ⟨1, 80, odaSess, 0x120102, 0, touch 1 odaOn, odaOn, by decide +kernel⟩
theorem witness_OdaReads_2 : ∃ (n txn : Nat) (x : Session) (key ty : Nat) (w s : State), s.oda.serving = true ∧ n ≠ 0 ∧ odaSession s n = some x ∧ busy s x = false ∧ w = touch n s ∧ readCheck w x.auth key ty ≠ 0 :=
  ⟨1, 80, odaSess, 0x120102, 1, touch 1 odaOn, odaOn, by decide +kernel⟩
theorem witness_OdaReads_3 : ∃ (n txn : Nat) (x : Session) (key ty : Nat) (e : Entry) (w s : State), s.oda.serving = true ∧ n ≠ 0 ∧ odaSession s n = some x ∧ busy s x = false ∧ w = touch n s ∧ effEntry w key = some e ∧ (ty = 0 ∨ ty = e.ty.code) :=
  ⟨1, 80, odaSess, 0x120102, 0, (entries.find? (fun e => e.covers 0x1201 2)).get (by decide +kernel), touch 1 odaOn, odaOn, by decide +kernel⟩
theorem witness_OdaReads_4 : ∃ (n txn : Nat) (x : Session) (items : List (Nat × Nat)) (w s : State), s.oda.serving = true ∧ n ≠ 0 ∧ odaSession s n = some x ∧ busy s x = false ∧ w = touch n s ∧ 1 ≤ items.length ∧ items.length ≤ 64 ∧ (∀ y ∈ items, isFwKey w y.1 = false) :=
  ⟨1, 80, odaSess, [(0x120102, 0), (0x999999, 0), (0x120103, 3)], touch 1 odaOn, odaOn, by decide +kernel⟩
theorem witness_OdaReads_5 : ∃ (n txn key ty : Nat) (x : Session) (s : State), s.oda.serving = true ∧ n ≠ 0 ∧ odaSession s n = some x ∧ busy s x = true :=
  ⟨1, 80, 0x120102, 0, { odaSess with outstanding := 16 }, withOdaSess (fun x => { x with outstanding := 16 }) odaOn, by decide +kernel⟩
theorem witness_OdaReads_6 : ∃ (txn key ty : Nat) (s : State), s.oda.serving = true ∧ publicKey key = true ∧ readCheck s .host key ty = 0 ∧ isFwKey s key = false ∧ readFits s key (readValue s 0 0 key) = 0 ∧ s.oda.waiting.length < 256 :=
  ⟨80, 0x100001, 0, odaOn, by decide +kernel⟩
theorem witness_OdaReads_7 : ∃ (txn key ty : Nat) (d : Bool) (s : State), s.oda.serving = true ∧ publicKey key = false :=
  ⟨80, 0x120102, 0, false, odaOn, by decide +kernel⟩

theorem witness_OdaWritesAndLedger_1 : ∃ (n txn : Nat) (x : Session) (v : Nat) (s : State), s.oda.serving = true ∧ n ≠ 0 ∧ odaSession s n = some x ∧ busy s x = false ∧ seenTxn s n x.place txn (.write Obj.activateAt.key 0 (.num v)) = .fresh ∧ precheck s x.auth Obj.activateAt.key 0 (.num v) = 0 ∧ (∀ q ∈ s.oda.waiting, q.writes.contains Obj.activateAt.key = false) :=
  ⟨1, 80, odaSess, 12, odaOn, by decide +kernel⟩
theorem witness_OdaWritesAndLedger_2 : ∃ (n txn : Nat) (x : Session) (key ty : Nat) (v : Value) (e : Entry) (s : State), s.oda.serving = true ∧ n ≠ 0 ∧ odaSession s n = some x ∧ busy s x = false ∧ seenTxn s n x.place txn (.write key ty v) = .fresh ∧ findEntry s key = some e ∧ e.fw = false ∧ precheck s x.auth key ty v ≠ 0 ∧ ¬(0x4400 ≤ key / 256 ∧ key / 256 < 0x4428) ∧ (∀ q ∈ s.oda.waiting, q.writes.contains key = false) :=
  ⟨1, 80, odaSess, 0x120102, 5, .num 1, (entries.find? (fun e => e.covers 0x1201 2)).get (by decide +kernel), odaOn, by decide +kernel⟩
theorem witness_OdaWritesAndLedger_3 : ∃ (n txn : Nat) (x : Session) (u v : Nat) (s : State), s.oda.serving = true ∧ n ≠ 0 ∧ odaSession s n = some x ∧ busy s x = false ∧ seenTxn s n x.place txn (.writeMulti [(Obj.activateAt.key, 0, .num u), (Obj.updateAt.key, 0, .num v)]) = .fresh ∧ precheck s x.auth Obj.activateAt.key 0 (.num u) = 0 ∧ precheck s x.auth Obj.updateAt.key 0 (.num v) = 0 ∧ (∀ q ∈ s.oda.waiting, q.writes.contains Obj.activateAt.key = false ∧ q.writes.contains Obj.updateAt.key = false) :=
  ⟨1, 80, odaSess, 12, 13, odaOn, by decide +kernel⟩
theorem witness_OdaWritesAndLedger_4 : ∃ (n txn : Nat) (x : Session) (u key ty : Nat) (v : Value) (s : State), s.oda.serving = true ∧ n ≠ 0 ∧ odaSession s n = some x ∧ busy s x = false ∧ seenTxn s n x.place txn (.writeMulti [(Obj.activateAt.key, 0, .num u), (key, ty, v)]) = .fresh ∧ precheck s x.auth Obj.activateAt.key 0 (.num u) = 0 ∧ findEntry s key = none ∧ (∀ q ∈ s.oda.waiting, q.writes.contains Obj.activateAt.key = false) :=
  ⟨1, 80, odaSess, 12, 0xFFFF01, 0, .num 3, odaOn, by decide +kernel⟩
theorem witness_OdaWritesAndLedger_5 : ∃ (n txn : Nat) (x : Session) (key ty : Nat) (v : Value) (a : Answer) (s : State), s.oda.serving = true ∧ n ≠ 0 ∧ odaSession s n = some x ∧ busy s x = false ∧ seenTxn s n x.place txn (.write key ty v) = .again a :=
  ⟨1, 4, odaSess, 0x120102, 0, .num 9, ⟨1, 4, 0, 77, true, false, 1, 0xFFFF, [77], [], 0⟩, odaOn, by decide +kernel⟩
theorem witness_OdaWritesAndLedger_6 : ∃ (n txn : Nat) (x : Session) (key ty : Nat) (v : Value) (s : State), s.oda.serving = true ∧ n ≠ 0 ∧ odaSession s n = some x ∧ busy s x = false ∧ seenTxn s n x.place txn (.write key ty v) = .running :=
  ⟨1, 80, odaSess, 0x120102, 0, .num 9, { odaOn with oda := { odaOn.oda with peers := [(0, { peer0 with cache := [⟨80, some (.write 0x120102 0 (.num 9)), none, 0⟩] })] } }, by decide +kernel⟩
theorem witness_OdaWritesAndLedger_7 : ∃ (n txn : Nat) (x : Session) (key ty : Nat) (v : Value) (s : State), s.oda.serving = true ∧ n ≠ 0 ∧ odaSession s n = some x ∧ busy s x = false ∧ seenTxn s n x.place txn (.write key ty v) = .other :=
  ⟨1, 4, odaSess, 0x120102, 0, .num 8, odaOn, by decide +kernel⟩
theorem witness_OdaWritesAndLedger_8 : ∃ (n txn : Nat) (x : Session) (key ty : Nat) (v : Value) (s : State), s.oda.serving = true ∧ n ≠ 0 ∧ odaSession s n = some x ∧ busy s x = false ∧ seenTxn s n x.place txn (.write key ty v) = .stale :=
  ⟨1, 2, odaSess, 0x120102, 0, .num 8, odaOn, by decide +kernel⟩

theorem witness_OdaCommitsAndCompletions_1 : ∃ (n txn : Nat) (x : Session) (v : Nat) (s : State), s.oda.serving = true ∧ n ≠ 0 ∧ odaSession s n = some x ∧ busy s x = false ∧ seenTxn s n x.place txn (.write Obj.slewMaxPpm.key 0 (.num v)) = .fresh ∧ precheck s x.auth Obj.slewMaxPpm.key 0 (.num v) = 0 ∧ (∀ q ∈ s.oda.waiting, q.writes.contains Obj.slewMaxPpm.key = false) :=
  ⟨1, 80, odaSess, 120, odaOn, by decide +kernel⟩
theorem witness_OdaCommitsAndCompletions_2 : ∃ (p : Pending) (v ty : Nat) (s : State), s.oda.landing = [] ∧ (∀ q ∈ s.oda.waiting, q.waiting ≠ .behind) ∧ s.oda.waiting.find? (fun p => p.waiting == .nor) = some p ∧ p.steps = [(Obj.slewMaxPpm.key, ty, .num v)] ∧ s.oda.serving = true :=
  ⟨⟨1, 0, .service, 80, 2, .write 0x120102 0 (.num 120), [(0x120102, 0, .num 120)], [], [], false, .nor, 0⟩, 120, 0, { odaOn with oda := { odaOn.oda with waiting := [⟨1, 0, .service, 80, 2, .write 0x120102 0 (.num 120), [(0x120102, 0, .num 120)], [], [], false, .nor, 0⟩] } }, by decide +kernel⟩
theorem witness_OdaCommitsAndCompletions_3 : ∃ (p : Pending) (y : Nat × Nat × Value) (l : List (Nat × Nat × Value)) (s : State), s.oda.landing = [] ∧ (∀ q ∈ s.oda.waiting, q.waiting ≠ .behind) ∧ s.oda.waiting.find? (fun p => p.waiting == .nor) = some p ∧ p.steps = y :: l :=
  ⟨⟨1, 0, .service, 80, 2, .write 0x120102 0 (.num 120), [(0x120102, 0, .num 120)], [], [], false, .nor, 0⟩, (0x120102, 0, .num 120), [], { odaOn with oda := { odaOn.oda with waiting := [⟨1, 0, .service, 80, 2, .write 0x120102 0 (.num 120), [(0x120102, 0, .num 120)], [], [], false, .nor, 0⟩] } }, by decide +kernel⟩
theorem witness_OdaCommitsAndCompletions_4 : ∃ (tag result : Nat) (v : Value) (s : State), (∀ r ∈ s.bar.outstanding, r.tag ≠ tag) :=
  ⟨9, 0, .num 0, { odaOn with oda := { odaOn.oda with waiting := [⟨1, 0, .service, 80, 2, .write 0x800000 0 (.num 120), [(0x800000, 0, .num 120)], [], [], false, .fw 3, 0⟩] }, bar := { odaOn.bar with outstanding := [⟨3, 2, .service, 0, 0x800000, .num 120, 0⟩] } }, by decide +kernel⟩
theorem witness_OdaCommitsAndCompletions_5 : ∃ (tag result : Nat) (v : Value) (r : FwReq) (p : Pending) (s : State), fwFrozen s = false ∧ (∀ q ∈ s.oda.waiting, q.waiting ≠ .behind) ∧ r ∈ s.bar.outstanding ∧ r.tag = tag ∧ s.oda.waiting.find? (fun p => p.waiting == .fw tag) = some p ∧ p.op = 2 ∧ p.steps ≠ [] ∧ result ≠ 0 :=
  ⟨3, 0x00040001, .num 0, ⟨3, 2, .service, 0, 0x800000, .num 120, 0⟩, ⟨1, 0, .service, 80, 2, .write 0x800000 0 (.num 120), [(0x800000, 0, .num 120)], [], [], false, .fw 3, 0⟩, { odaOn with oda := { odaOn.oda with waiting := [⟨1, 0, .service, 80, 2, .write 0x800000 0 (.num 120), [(0x800000, 0, .num 120)], [], [], false, .fw 3, 0⟩] }, bar := { odaOn.bar with outstanding := [⟨3, 2, .service, 0, 0x800000, .num 120, 0⟩] } }, by decide +kernel⟩
theorem witness_OdaCommitsAndCompletions_6 : ∃ (tag key ty : Nat) (d : Bool) (v : Value) (r : FwReq) (p : Pending) (s : State), fwFrozen s = false ∧ r ∈ s.bar.outstanding ∧ r.tag = tag ∧ s.oda.waiting.find? (fun p => p.waiting == .fw tag) = some p ∧ p.op = 1 ∧ p.body = .read key ty d ∧ 0x800000 ≤ key ∧ readFits s key v = 0 :=
  ⟨3, 0x800000, 0, false, .num 6, ⟨3, 2, .service, 0, 0x800000, .num 120, 0⟩, ⟨1, 0, .service, 80, 1, .read 0x800000 0 false, [], [], [], false, .fw 3, 0⟩, { odaOn with oda := { odaOn.oda with waiting := [⟨1, 0, .service, 80, 1, .read 0x800000 0 false, [], [], [], false, .fw 3, 0⟩] }, bar := { odaOn.bar with outstanding := [⟨3, 2, .service, 0, 0x800000, .num 120, 0⟩] } }, by decide +kernel⟩

theorem witness_SubscriptionsAndNotifications_1 : ∃ (n txn : Nat) (x : Session) (k j kind period : Nat) (items : List (Nat × Nat)) (s : State), s.oda.serving = true ∧ n ≠ 0 ∧ odaSession s n = some x ∧ busy s x = false ∧ x.txSeq + 1 < two32 ∧ items.length ≤ 64 ∧ seenTxn s n x.place txn (.subscribe k kind period items) = .fresh ∧ subStatus s x.auth k kind period items = 0 ∧ period ≠ 0 ∧ j ≠ k :=
  ⟨1, 80, odaSess, 7, 2, 2, 1, [], odaOn, by decide +kernel⟩
theorem witness_SubscriptionsAndNotifications_2 : ∃ (n txn : Nat) (x : Session) (k j kind : Nat) (items : List (Nat × Nat)) (s : State), s.oda.serving = true ∧ n ≠ 0 ∧ odaSession s n = some x ∧ busy s x = false ∧ x.txSeq + 1 < two32 ∧ items.length ≤ 64 ∧ seenTxn s n x.place txn (.subscribe k kind 0 items) = .fresh ∧ k ≤ 15 ∧ j ≠ k :=
  ⟨1, 80, odaSess, 2, 3, 1, [], odaOn, by decide +kernel⟩
theorem witness_SubscriptionsAndNotifications_3 : ∃ (n txn : Nat) (x : Session) (k kind period : Nat) (items : List (Nat × Nat)) (s : State), s.oda.serving = true ∧ n ≠ 0 ∧ odaSession s n = some x ∧ busy s x = false ∧ x.txSeq + 1 < two32 ∧ items.length ≤ 64 ∧ seenTxn s n x.place txn (.subscribe k kind period items) = .fresh ∧ subStatus s x.auth k kind period items ≠ 0 :=
  ⟨1, 80, odaSess, 7, 1, 5, [(0x999900, 0)], odaOn, by decide +kernel⟩
theorem witness_SubscriptionsAndNotifications_4 : ∃ (n k : Nat) (vals : List (Nat × Value)) (x : Session) (y : Subscr) (s : State), odaSession s n = some x ∧ look x.subs k = some y ∧ y.kind = 1 ∧ s.bar.holdOn = false ∧ s.oda.serving = true ∧ s.part.st = .run ∧ s.eng.any = true ∧ s.eng.mainDone = true ∧ s.eng.frame % y.period = 0 ∧ y.sent ≠ some (true, s.eng.frame) ∧ x.port = 2 ∧ s.port.svcUp = true ∧ x.txSeq + 1 < two32 :=
  ⟨1, 2, [], odaSess, ⟨1, 4, [(0x121002, 0)], 8, [], none, none⟩, { odaOn with part := { odaOn.part with st := .run }, eng := { odaOn.eng with running := true, any := true, mainDone := true, frame := 8 } }, by decide +kernel⟩
theorem witness_SubscriptionsAndNotifications_5 : ∃ (n k : Nat) (vals : List (Nat × Value)) (x : Session) (y : Subscr) (w s : State), odaSession s n = some x ∧ look x.subs k = some y ∧ y.kind = 1 ∧ s.bar.holdOn = false ∧ s.oda.serving = true ∧ s.part.st ≠ .run ∧ w = reachCount (ceilDiv (now s) (y.period * frameNs s) * (y.period * frameNs s)) s ∧ y.sent ≠ some (false, ceilDiv (now s) (y.period * frameNs s) * (y.period * frameNs s)) ∧ x.port = 2 ∧ s.port.svcUp = true ∧ x.txSeq + 1 < two32 :=
  ⟨1, 2, [], odaSess, ⟨1, 4, [(0x121002, 0)], 8, [], none, none⟩, reachCount (ceilDiv (now odaOn) (4 * frameNs odaOn) * (4 * frameNs odaOn)) odaOn, odaOn, by decide +kernel⟩
theorem witness_SubscriptionsAndNotifications_6 : ∃ (n k : Nat) (x : Session) (y : Subscr) (c : Count) (s : State), odaSession s n = some x ∧ look x.subs k = some y ∧ y.heldDue = some c ∧ y.held ≠ [] ∧ x.port = 2 ∧ s.port.svcUp = true ∧ x.txSeq + 1 < two32 :=
  ⟨1, 2, { odaSess with subs := [(2, ⟨2, 1, [], 8, [⟨5, 1005, 0, .vinLow, 0x5005, false, false, false, false, false, 7⟩], some 4000, none⟩)] }, ⟨2, 1, [], 8, [⟨5, 1005, 0, .vinLow, 0x5005, false, false, false, false, false, 7⟩], some 4000, none⟩, 4000, withOdaSess (fun x => { x with subs := [(2, ⟨2, 1, [], 8, [⟨5, 1005, 0, .vinLow, 0x5005, false, false, false, false, false, 7⟩], some 4000, none⟩)] }) odaOn, by decide +kernel⟩
theorem witness_SubscriptionsAndNotifications_7 : ∃ (n k : Nat) (x : Session) (y : Subscr) (c : Count) (s : State), odaSession s n = some x ∧ look x.subs k = some y ∧ y.heldDue = some c ∧ y.held ≠ [] ∧ x.port = 2 ∧ s.port.svcUp = false :=
  ⟨1, 2, { odaSess with subs := [(2, ⟨2, 1, [], 8, [⟨5, 1005, 0, .vinLow, 0x5005, false, false, false, false, false, 7⟩], some 4000, none⟩)] }, ⟨2, 1, [], 8, [⟨5, 1005, 0, .vinLow, 0x5005, false, false, false, false, false, 7⟩], some 4000, none⟩, 4000, withOdaSess (fun x => { x with subs := [(2, ⟨2, 1, [], 8, [⟨5, 1005, 0, .vinLow, 0x5005, false, false, false, false, false, 7⟩], some 4000, none⟩)] }) { odaOn with port := { odaOn.port with svcUp := false } }, by decide +kernel⟩

theorem witness_BlockTransfers_1 : ∃ (n txn : Nat) (x : Session) (key ty : Nat) (w s : State), s.oda.serving = true ∧ n ≠ 0 ∧ odaSession s n = some x ∧ busy s x = false ∧ x.txSeq + 1 < two32 ∧ w = touch n s ∧ isDomain w key = true ∧ readCheck w x.auth key ty = 0 ∧ selectStatus w key 0 = 0 ∧ startHome w n key = 0 ∧ isFwKey w key = false ∧ key ≠ Blob.ringExport ∧ blockFits s n (blockValue w n x.place key 0).length = true :=
  ⟨1, 80, odaSess, 0x141001, 0, touch 1 odaOn, odaOn, by decide +kernel⟩
theorem witness_BlockTransfers_2 : ∃ (n txn blk : Nat) (x : Session) (y : Xfer) (offset len : Nat) (s : State), s.oda.serving = true ∧ n ≠ 0 ∧ odaSession s n = some x ∧ busy s x = false ∧ look x.blocks blk = some y ∧ y.write = false ∧ s.eng.ring.exports.contains blk = false ∧ 1 ≤ len ∧ len ≤ 1376 ∧ offset + len ≤ y.total :=
  ⟨1, 80, 5, odaSess, ⟨0x7000, false, 4, [], [9, 8, 7, 6], 999999⟩, 1, 2, odaOn, by decide +kernel⟩
theorem witness_BlockTransfers_3 : ∃ (n txn blk : Nat) (x : Session) (y : Xfer) (offset len : Nat) (s : State), s.oda.serving = true ∧ n ≠ 0 ∧ odaSession s n = some x ∧ busy s x = false ∧ look x.blocks blk = some y ∧ y.write = false ∧ s.eng.ring.exports.contains blk = false ∧ y.total < offset + len :=
  ⟨1, 80, 5, odaSess, ⟨0x7000, false, 4, [], [9, 8, 7, 6], 999999⟩, 3, 2, odaOn, by decide +kernel⟩
theorem witness_BlockTransfers_4 : ∃ (n txn : Nat) (x : Session) (key ty total : Nat) (s : State), s.oda.serving = true ∧ n ≠ 0 ∧ odaSession s n = some x ∧ busy s x = false ∧ x.txSeq + 1 < two32 ∧ seenTxn s n x.place txn (.block 3 0 key ty total []) = .fresh ∧ writeStartStatus s x.auth key ty total = 0 ∧ blockFits s n total = true :=
  ⟨1, 80, odaSess, 0x413005, 0, 16, odaOn, by decide +kernel⟩
theorem witness_BlockTransfers_5 : ∃ (n txn blk : Nat) (x : Session) (y : Xfer) (offset : Nat) (data : List Byte) (s : State), s.oda.serving = true ∧ n ≠ 0 ∧ odaSession s n = some x ∧ busy s x = false ∧ x.txSeq + 1 < two32 ∧ look x.blocks blk = some y ∧ y.write = true ∧ data.length ≤ 1376 ∧ offset + data.length ≤ y.total ∧ seenTxn s n x.place txn (.block 4 blk 0 offset data.length data) = .fresh :=
  ⟨1, 80, 3, odaSess, ⟨0x404000, true, 2, [], [], 999999⟩, 1, [7], odaOn, by decide +kernel⟩
theorem witness_BlockTransfers_6 : ∃ (n txn blk : Nat) (x : Session) (y : Xfer) (offset : Nat) (data : List Byte) (s : State), s.oda.serving = true ∧ n ≠ 0 ∧ odaSession s n = some x ∧ busy s x = false ∧ look x.blocks blk = some y ∧ y.write = true ∧ y.total < offset + data.length ∧ seenTxn s n x.place txn (.block 4 blk 0 offset data.length data) = .fresh :=
  ⟨1, 80, 3, odaSess, ⟨0x404000, true, 2, [], [], 999999⟩, 1, [7, 8], odaOn, by decide +kernel⟩
theorem witness_BlockTransfers_7 : ∃ (n txn blk : Nat) (x : Session) (y : Xfer) (c : Fin 4096) (s : State), s.oda.serving = true ∧ n ≠ 0 ∧ odaSession s n = some x ∧ busy s x = false ∧ x.txSeq + 1 < two32 ∧ look x.blocks blk = some y ∧ y.write = true ∧ y.key = 0x413000 + c.val ∧ seenTxn s n x.place txn (.block 5 blk 0 (crc64 (y.staged.map (·.2))) 0 []) = .fresh ∧ (y.staged.map (·.2)).length = y.total ∧ precheck s x.auth y.key 0 (.bytes (y.staged.map (·.2))) = 0 ∧ codebookHome c.val (y.staged.map (·.2)) s = 0 ∧ (∀ q ∈ s.oda.waiting, q.writes.contains y.key = false) :=
  ⟨1, 80, 3, { odaSess with blocks := [(3, ⟨0x413005, true, 16, [(0, 2), (1, 0), (2, 0), (3, 0), (4, 0), (5, 0), (6, 0), (7, 0), (8, 0), (9, 0), (10, 0), (11, 0), (12, 0), (13, 0), (14, 128), (15, 63)], [], 999999⟩)] }, ⟨0x413005, true, 16, [(0, 2), (1, 0), (2, 0), (3, 0), (4, 0), (5, 0), (6, 0), (7, 0), (8, 0), (9, 0), (10, 0), (11, 0), (12, 0), (13, 0), (14, 128), (15, 63)], [], 999999⟩, 5, withOdaSess (fun x => { x with blocks := [(3, ⟨0x413005, true, 16, [(0, 2), (1, 0), (2, 0), (3, 0), (4, 0), (5, 0), (6, 0), (7, 0), (8, 0), (9, 0), (10, 0), (11, 0), (12, 0), (13, 0), (14, 128), (15, 63)], [], 999999⟩)] }) odaOn, by decide +kernel⟩
theorem witness_BlockTransfers_8 : ∃ (n txn blk : Nat) (x : Session) (y : Xfer) (crc : Nat) (s : State), s.oda.serving = true ∧ n ≠ 0 ∧ odaSession s n = some x ∧ busy s x = false ∧ x.txSeq + 1 < two32 ∧ look x.blocks blk = some y ∧ y.write = true ∧ seenTxn s n x.place txn (.block 5 blk 0 crc 0 []) = .fresh ∧ ((y.staged.map (·.2)).length ≠ y.total ∨ crc64 (y.staged.map (·.2)) ≠ crc) :=
  ⟨1, 80, 3, odaSess, ⟨0x404000, true, 2, [], [], 999999⟩, 0, odaOn, by decide +kernel⟩
theorem witness_BlockTransfers_9 : ∃ (n txn blk : Nat) (x : Session) (j : Nat) (y : Xfer) (s : State), s.oda.serving = true ∧ n ≠ 0 ∧ odaSession s n = some x ∧ busy s x = false ∧ x.txSeq + 1 < two32 ∧ look x.blocks blk = some y ∧ j ≠ blk :=
  ⟨1, 80, 3, odaSess, 5, ⟨0x404000, true, 2, [], [], 999999⟩, odaOn, by decide +kernel⟩
theorem witness_BlockTransfers_10 : ∃ (n txn blk : Nat) (x : Session) (s : State), s.oda.serving = true ∧ n ≠ 0 ∧ odaSession s n = some x ∧ busy s x = false ∧ look x.blocks blk = none :=
  ⟨1, 80, 4, odaSess, odaOn, by decide +kernel⟩
theorem witness_BlockTransfers_11 : ∃ (n blk j : Nat) (x : Session) (y : Xfer) (s : State), odaSession s n = some x ∧ look x.blocks blk = some y ∧ j ≠ blk :=
  ⟨1, 3, 5, odaSess, ⟨0x404000, true, 2, [], [], 999999⟩, odaOn, by decide +kernel⟩

theorem witness_LedgerQueriesAndCache_1 : ∃ (n txn : Nat) (x : Session) (peer : List Byte) (txns : List Nat) (s : State), s.oda.serving = true ∧ n ≠ 0 ∧ odaSession s n = some x ∧ busy s x = false ∧ peer.length = 32 ∧ (∀ b ∈ peer, b = 0) ∧ 1 ≤ txns.length ∧ txns.length ≤ 56 ∧ (∀ e, look s.oda.peers x.place = some e → e.cache.length + txns.length ≤ 4096) :=
  ⟨1, 80, odaSess, List.replicate 32 0, [4, 90, 2], odaOn, by decide +kernel⟩
theorem witness_LedgerQueriesAndCache_2 : ∃ (n txn : Nat) (x : Session) (peer : List Byte) (txns : List Nat) (s : State), s.oda.serving = true ∧ n ≠ 0 ∧ odaSession s n = some x ∧ busy s x = false ∧ peer.length = 32 ∧ peer.any (· != 0) = true ∧ peerPlace s peer ≠ some x.place ∧ x.auth ≠ .service ∧ 1 ≤ txns.length ∧ txns.length ≤ 56 :=
  ⟨1, 80, { odaSess with auth := .host }, List.replicate 32 7, [4], withOdaSess (fun x => { x with auth := .host }) odaOn, by decide +kernel⟩
theorem witness_LedgerQueriesAndCache_3 : ∃ (place txn q : Nat) (c : Cached) (a : Answer) (s : State), cachedOf s place txn = some c ∧ c.answer = some a :=
  ⟨0, 4, 4, ⟨4, some (.write 0x120102 0 (.num 9)), some ⟨1, 4, 0, 77, false, false, 1, 0xFFFF, [77], [], 0⟩, 888⟩, ⟨1, 4, 0, 77, false, false, 1, 0xFFFF, [77], [], 0⟩, odaOn, by decide +kernel⟩

theorem witness_SessionSetupAndEnd_1 : ∃ (id frag frags : Nat) (data : List Byte) (cs : List Cert) (r : Root) (parts : Map (List Byte)) (s : State), s.oda.serving = true ∧ portOpen s 2 = true ∧ data ≠ [] ∧ data.length ≤ 1384 ∧ frags ≤ 16 ∧ frag < frags ∧ lookD s.oda.setups id ⟨frags, []⟩ = ⟨frags, parts⟩ ∧ look parts frag = none ∧ (put parts frag data).length < frags :=
  ⟨8, 1, 3, [5, 6], [], .unknown, [], odaOn, by decide +kernel⟩
theorem witness_SessionSetupAndEnd_2 : ∃ (id frag frags : Nat) (data : List Byte) (cs : List Cert) (r : Root) (parts : Map (List Byte)) (ders : List (List Byte)) (s : State), s.oda.serving = true ∧ portOpen s 2 = true ∧ data ≠ [] ∧ data.length ≤ 1384 ∧ frags ≤ 16 ∧ frag < frags ∧ lookD s.oda.setups id ⟨frags, []⟩ = ⟨frags, parts⟩ ∧ look parts frag = none ∧ frags ≤ (put parts frag data).length ∧ parseInit (((put parts frag data).map (·.2)).flatten) = some ders ∧ chainStatus s 2 ders cs r = 0 ∧ s.oda.sessions.length < 32 :=
  ⟨9, 1, 2, List.replicate 216 0 ++ [1, 0, 0, 0, 2, 0, 7, 7], [⟨true, true, [.service], 0, 9⟩], .itself, [(0, List.replicate 1384 0)], [[7, 7]], { odaOn with oda := { odaOn.oda with setups := [(9, ⟨2, [(0, List.replicate 1384 0)]⟩)] }, cardamom := { odaOn.cardamom with st := .unowned, held := { odaOn.cardamom.held with valid := true } } }, by decide +kernel⟩
theorem witness_SessionSetupAndEnd_3 : ∃ (id frag frags : Nat) (data : List Byte) (cs : List Cert) (r : Root) (parts : Map (List Byte)) (ders : List (List Byte)) (s : State), s.oda.serving = true ∧ portOpen s 2 = true ∧ data ≠ [] ∧ data.length ≤ 1384 ∧ frags ≤ 16 ∧ frag < frags ∧ lookD s.oda.setups id ⟨frags, []⟩ = ⟨frags, parts⟩ ∧ look parts frag = none ∧ frags ≤ (put parts frag data).length ∧ parseInit (((put parts frag data).map (·.2)).flatten) = some ders ∧ chainStatus s 2 ders cs r ≠ 0 :=
  ⟨9, 1, 2, List.replicate 216 0 ++ [1, 0, 0, 0, 2, 0, 7, 7], [], .itself, [(0, List.replicate 1384 0)], [[7, 7]], { odaOn with oda := { odaOn.oda with setups := [(9, ⟨2, [(0, List.replicate 1384 0)]⟩)] }, cardamom := { odaOn.cardamom with st := .unowned, held := { odaOn.cardamom.held with valid := true } } }, by decide +kernel⟩
theorem witness_SessionSetupAndEnd_4 : ∃ (n id : Nat) (x : Session) (s : State), s.oda.serving = true ∧ portOpen s 2 = true ∧ look s.oda.sessions n = some x ∧ x.pending = true ∧ x.setupId = id ∧ authOnPort s 2 x.auth = true :=
  ⟨1, 4, { odaSess with pending := true }, withOdaSess (fun x => { x with pending := true }) odaOn, by decide +kernel⟩
theorem witness_SessionSetupAndEnd_5 : ∃ (n id : Nat) (x : Session) (s : State), s.oda.serving = true ∧ portOpen s 2 = true ∧ look s.oda.sessions n = some x ∧ x.pending = true ∧ x.setupId = id :=
  ⟨1, 4, { odaSess with pending := true }, withOdaSess (fun x => { x with pending := true }) odaOn, by decide +kernel⟩
theorem witness_SessionSetupAndEnd_6 : ∃ (n j : Nat) (x : Session) (s : State), s.oda.serving = true ∧ odaSession s n = some x ∧ j ≠ n :=
  ⟨1, 2, odaSess, odaOn, by decide +kernel⟩
theorem witness_SessionSetupAndEnd_7 : ∃ (n j : Nat) (x : Session) (s : State), look s.oda.sessions n = some x ∧ x.pending = true ∧ j ≠ n :=
  ⟨1, 2, { odaSess with pending := true }, withOdaSess (fun x => { x with pending := true }) odaOn, by decide +kernel⟩
theorem witness_SessionSetupAndEnd_8 : ∃ (n j : Nat) (x : Session) (s : State), odaSession s n = some x ∧ j ≠ n :=
  ⟨1, 2, odaSess, odaOn, by decide +kernel⟩

theorem witness_OwnerKeysCountersAndQuotes_1 : ∃ (au : Auth) (bs : List Byte) (sigOk : Bool) (j : Nat) (c : KeyCmd) (s : State), s.oda.serving = true ∧ fieldAt bs 0 1 = 1 ∧ precheck s au Blob.ownerKeyCmd 0 (.bytes bs) = 0 ∧ parseKeyCmd bs = some c ∧ keyCmdHome au bs sigOk s = 0 ∧ j ≠ c.slot :=
  ⟨.service, [1, 0, 1, 0, 1, 0, 0, 0] ++ fitBytes 16 (lookD readyOn.ident.consts 0x100004 []) ++ [1, 7, 0, 0] ++ List.replicate 1793 0, false, 2, (parseKeyCmd ([1, 0, 1, 0, 1, 0, 0, 0] ++ fitBytes 16 (lookD readyOn.ident.consts 0x100004 []) ++ [1, 7, 0, 0] ++ List.replicate 1793 0)).get (by decide +kernel), odaOn, by decide +kernel⟩
theorem witness_OwnerKeysCountersAndQuotes_2 : ∃ (au : Auth) (bs : List Byte) (sigOk : Bool) (j : Nat) (c : KeyCmd) (s : State), s.oda.serving = true ∧ fieldAt bs 0 1 = 2 ∧ precheck s au Blob.ownerKeyCmd 0 (.bytes bs) = 0 ∧ parseKeyCmd bs = some c ∧ keyCmdHome au bs sigOk s = 0 ∧ j ≠ c.slot :=
  ⟨.service, [2, 1, 0, 0, 1, 0, 0, 0] ++ fitBytes 16 (lookD readyOn.ident.consts 0x100004 []) ++ [0, 0, 0, 0] ++ [], true, 0, (parseKeyCmd ([2, 1, 0, 0, 1, 0, 0, 0] ++ fitBytes 16 (lookD readyOn.ident.consts 0x100004 []) ++ [0, 0, 0, 0] ++ [])).get (by decide +kernel), { odaOn with cardamom := { odaOn.cardamom with st := .owned, held := { odaOn.cardamom.held with valid := true, keys := [(0, ⟨[1], 3⟩), (1, ⟨[2], 1⟩)] } } }, by decide +kernel⟩
theorem witness_OwnerKeysCountersAndQuotes_3 : ∃ (au : Auth) (bs : List Byte) (sigOk : Bool) (c : KeyCmd) (s : State), s.oda.serving = true ∧ fieldAt bs 0 1 = 3 ∧ precheck s au Blob.ownerKeyCmd 0 (.bytes bs) = 0 ∧ parseKeyCmd bs = some c ∧ keyCmdHome au bs sigOk s = 0 :=
  ⟨.service, [3, 0, 0, 0, 1, 0, 0, 0] ++ fitBytes 16 (lookD readyOn.ident.consts 0x100004 []) ++ [64, 0, 0, 0] ++ List.replicate 64 3, true, (parseKeyCmd ([3, 0, 0, 0, 1, 0, 0, 0] ++ fitBytes 16 (lookD readyOn.ident.consts 0x100004 []) ++ [64, 0, 0, 0] ++ List.replicate 64 3)).get (by decide +kernel), { odaOn with cardamom := { odaOn.cardamom with st := .owned, held := { odaOn.cardamom.held with valid := true, keys := [(0, ⟨[1], 3⟩), (1, ⟨[2], 1⟩)] } } }, by decide +kernel⟩
theorem witness_OwnerKeysCountersAndQuotes_4 : ∃ (au : Auth) (bs : List Byte) (sigOk : Bool) (s : State), s.oda.serving = true ∧ fieldAt bs 0 1 = 1 ∧ precheck s au Blob.ownerKeyCmd 0 (.bytes bs) = 0 ∧ keyCmdHome au bs sigOk s ≠ 0 :=
  ⟨.service, [1, 0, 1, 0, 1, 0, 0, 0] ++ fitBytes 16 (lookD readyOn.ident.consts 0x100004 []) ++ [1, 7, 0, 0] ++ List.replicate 1793 0, false, { odaOn with cardamom := { odaOn.cardamom with st := .owned, held := { odaOn.cardamom.held with valid := true, keys := [(0, ⟨[1], 3⟩), (1, ⟨[2], 1⟩)] } } }, by decide +kernel⟩
theorem witness_OwnerKeysCountersAndQuotes_5 : ∃ (au : Auth) (s : State), s.oda.serving = true ∧ (au = .service → s.part.strap = true) ∧ precheck s au Obj.ownerReset.key 0 (.num 1) = 0 :=
  ⟨.service, { odaOn with cardamom := { odaOn.cardamom with st := .owned, held := { odaOn.cardamom.held with valid := true, keys := [(0, ⟨[1], 3⟩), (1, ⟨[2], 1⟩)] } } }, by decide +kernel⟩
theorem witness_OwnerKeysCountersAndQuotes_6 : ∃ (au : Auth) (bs : List Byte) (j : Nat) (s : State), s.oda.serving = true ∧ precheck s au Blob.rollbackRaise 0 (.bytes bs) = 0 ∧ raiseHome bs s = 0 ∧ j ≠ fieldAt bs 0 1 :=
  ⟨.service, [2, 0, 0, 0, 5, 0, 0, 0], 0, odaOn, by decide +kernel⟩
theorem witness_OwnerKeysCountersAndQuotes_7 : ∃ (n : Nat) (nonce : List Byte) (x : Session) (s : State), s.oda.serving = true ∧ odaSession s n = some x ∧ precheck s x.auth Blob.quoteReq 0 (.bytes nonce) = 0 :=
  ⟨1, List.replicate 32 6, odaSess, odaOn, by decide +kernel⟩
theorem witness_OwnerKeysCountersAndQuotes_8 : ∃ (n : Nat) (sig : List Byte) (x : Session) (q : Quote) (s : State), look s.oda.sessions n = some x ∧ x.quote = some q ∧ q.signed = false :=
  ⟨1, [4], { odaSess with quote := some (formQuote [] 5 odaOn) }, formQuote [] 5 odaOn, withOdaSess (fun x => { x with quote := some (formQuote [] 5 odaOn) }) odaOn, rfl, rfl, rfl⟩

theorem witness_HostLinksAndGates_1 : ∃ (p : Fin 2) (fast : Bool) (s : State), s.oda.serving = true ∧ (s.port.host.get p).link = .training ∧ speedAllowed (getN s (Obj.portMode p.val)) fast = true :=
  ⟨1, true, { odaOn with port := { odaOn.port with host := Vector.replicate 2 { HostPort.init with link := .training } } }, by decide +kernel⟩
theorem witness_HostLinksAndGates_2 : ∃ (p : Fin 2) (began : Nat) (s : State), hostUp s p = true :=
  ⟨1, 4, { odaOn with port := { odaOn.port with host := Vector.replicate 2 { HostPort.init with link := .up200, queue := [(3, .netReply 0)] } } }, by decide +kernel⟩
theorem witness_HostLinksAndGates_3 : ∃ (p : Fin 2) (d : Nat) (s : State), (s.port.host.get p).autonegDue = some d :=
  ⟨1, 555, { odaOn with port := { odaOn.port with host := Vector.replicate 2 { HostPort.init with autonegDue := some 555 } } }, by decide +kernel⟩
theorem witness_HostLinksAndGates_4 : ∃ (au : Auth) (p : Fin 2) (v : Nat) (s : State), s.oda.serving = true ∧ precheck s au (Obj.portMode p.val).key 0 (.num v) = 0 ∧ portModeHome au p s = 0 :=
  ⟨.service, 1, 2, { odaOn with port := { odaOn.port with host := Vector.replicate 2 { HostPort.init with link := .up200 } } }, by decide +kernel⟩
theorem witness_HostLinksAndGates_5 : ∃ (p : Fin 2) (v : Nat) (s : State), s.oda.serving = true ∧ precheck s .facility (Obj.portMode p.val).key 0 (.num v) = 0 ∧ hostUp s (1 - p) = false :=
  ⟨1, 2, { odaOn with port := { odaOn.port with host := Vector.replicate 2 { HostPort.init with link := .down } } }, by decide +kernel⟩
theorem witness_HostLinksAndGates_6 : ∃ (s : State), s.oda.serving = true ∧ s.port.svcOn = true ∧ s.port.svcUp = false :=
  ⟨{ odaOn with port := { odaOn.port with svcUp := false } }, by decide +kernel⟩
theorem witness_HostLinksAndGates_7 : ∃ (p : Fin 2) (g : GateList) (c : Count) (s : State), s.oda.serving = true ∧ (s.port.host.get p).gatesNext = some (g, c) ∧ (s.port.host.get p).gates.entries = [] :=
  ⟨1, ⟨2000, [⟨1, 1000⟩, ⟨254, 1000⟩]⟩, 4000, { odaOn with port := { odaOn.port with host := Vector.replicate 2 { HostPort.init with link := .up200, gatesNext := some (⟨2000, [⟨1, 1000⟩, ⟨254, 1000⟩]⟩, 4000), queue := [(3, .netReply 0), (0, .netReply 1)] } } }, by decide +kernel⟩
theorem witness_HostLinksAndGates_8 : ∃ (p : Fin 2) (s : State), s.oda.serving = true ∧ (s.port.host.get p).gatesNext = none ∧ (s.port.host.get p).gates.entries ≠ [] :=
  ⟨1, { odaOn with port := { odaOn.port with host := Vector.replicate 2 { HostPort.init with link := .up200, gates := ⟨2000, [⟨1, 1000⟩, ⟨254, 1000⟩]⟩, open_ := 1, queue := [(3, .netReply 0)] } } }, by decide +kernel⟩
theorem witness_HostLinksAndGates_9 : ∃ (kind : Nat) (target : List Byte) (s : State), s.oda.serving = true ∧ portOpen s 2 = true ∧ kind ≤ 3 ∧ (if kind % 2 = 0 then addresses4 s 2 else addresses6 s 2).contains target = true :=
  ⟨1, linkLocal (readBytes odaOn 0 0 (Blob.portMac 2)), odaOn, by decide +kernel⟩
theorem witness_HostLinksAndGates_10 : ∃ (kind : Nat) (target : List Byte) (s : State), (if kind % 2 = 0 then addresses4 s 2 else addresses6 s 2).contains target = false :=
  ⟨0, [1, 2, 3, 4], odaOn, by decide +kernel⟩

theorem witness_HostFramesAndMacsec_1 : ∃ (p : Fin 2) (f : FrameIn) (s : State), hostUp s p = true ∧ 0 < f.uncorrectable :=
  ⟨1, ⟨80, 0, 2, none, none, .arpNd⟩, { odaOn with port := { odaOn.port with host := Vector.replicate 2 { HostPort.init with link := .up200 } } }, by decide +kernel⟩
theorem witness_HostFramesAndMacsec_2 : ∃ (p : Fin 2) (f : FrameIn) (s : State), hostUp s p = true ∧ f.uncorrectable = 0 ∧ f.len ≤ 9216 ∧ f.prot = none ∧ getN s (Obj.macsecMode p.val) = 2 ∧ f.kind.bypass = false :=
  ⟨1, ⟨80, 0, 0, none, none, .icmp⟩, setN ({ odaOn with port := { odaOn.port with host := Vector.replicate 2 { HostPort.init with link := .up200 } } }) (Obj.macsecMode 1) 2, by decide +kernel⟩
theorem witness_HostFramesAndMacsec_3 : ∃ (p : Fin 2) (f : FrameIn) (x : OdaIn) (y : Session) (s : State), hostUp s p = true ∧ f.uncorrectable = 0 ∧ f.corrected = 0 ∧ f.len ≤ 9216 ∧ f.prot = none ∧ getN s (Obj.macsecMode p.val) ≠ 2 ∧ f.rtag = none ∧ f.kind = .oda x ∧ odaSession s x.sess = some y ∧ x.tagOk = true ∧ seqFresh y x.seq = true ∧ x.seq < two32 ∧ x.formOk = true ∧ x.opKnown = true :=
  ⟨1, ⟨80, 0, 0, none, none, .oda ⟨80, true, [1, 1, 0, 0, 1, 0, 0, 0, 5, 0, 0, 0, 0, 0, 0, 0] ++ List.replicate 16 0⟩⟩, ⟨80, true, [1, 1, 0, 0, 1, 0, 0, 0, 5, 0, 0, 0, 0, 0, 0, 0] ++ List.replicate 16 0⟩, odaSess, { odaOn with port := { odaOn.port with host := Vector.replicate 2 { HostPort.init with link := .up200 } } }, by decide +kernel⟩
theorem witness_HostFramesAndMacsec_4 : ∃ (p : Fin 2) (f : FrameIn) (x : OdaIn) (y : Session) (s : State), hostUp s p = true ∧ f.uncorrectable = 0 ∧ f.corrected = 0 ∧ f.len ≤ 9216 ∧ f.prot = none ∧ getN s (Obj.macsecMode p.val) ≠ 2 ∧ f.rtag = none ∧ f.kind = .oda x ∧ odaSession s x.sess = some y ∧ (x.tagOk = false ∨ seqFresh y x.seq = false) :=
  ⟨1, ⟨80, 0, 0, none, none, .oda ⟨80, false, [1, 1, 0, 0, 1, 0, 0, 0, 5, 0, 0, 0, 0, 0, 0, 0] ++ List.replicate 16 0⟩⟩, ⟨80, false, [1, 1, 0, 0, 1, 0, 0, 0, 5, 0, 0, 0, 0, 0, 0, 0] ++ List.replicate 16 0⟩, odaSess, { odaOn with port := { odaOn.port with host := Vector.replicate 2 { HostPort.init with link := .up200 } } }, by decide +kernel⟩
theorem witness_HostFramesAndMacsec_5 : ∃ (p : Fin 2) (f : FrameIn) (stream q : Nat) (r : Recovery) (s : State), hostUp s p = true ∧ f.uncorrectable = 0 ∧ f.corrected = 0 ∧ f.len ≤ 9216 ∧ f.prot = none ∧ getN s (Obj.macsecMode p.val) ≠ 2 ∧ f.rtag = some (stream, q) ∧ look s.port.recovered stream = some r ∧ r.num = q % 65536 ∧ s.clk.cycles ≤ r.at_ + msCycles 100 :=
  ⟨1, ⟨80, 0, 0, none, some (4, 77), .icmp⟩, 4, 77, ⟨77, [77], 10⟩, { odaOn with port := { odaOn.port with recovered := [(4, ⟨77, [77], 10⟩)], host := Vector.replicate 2 { HostPort.init with link := .up200 } } }, by decide +kernel⟩
theorem witness_HostFramesAndMacsec_6 : ∃ (n : Nat) (p : Fin 2) (x : Session) (s : State), s.oda.serving = true ∧ odaSession s n = some x ∧ precheck s x.auth Obj.macsecKeyReq.key 0 (.num p.val) = 0 ∧ getN s (Obj.macsecMode p.val) ≠ 0 :=
  ⟨1, 1, { odaSess with auth := .facility }, setN (withOdaSess (fun x => { x with auth := .facility }) odaOn) (Obj.macsecMode 1) 1, by decide +kernel⟩
theorem witness_HostFramesAndMacsec_7 : ∃ (p : Fin 2) (c : Count) (s : State), (s.port.host.get p).txDue = some c :=
  ⟨1, 4000, { odaOn with port := { odaOn.port with host := Vector.replicate 2 { HostPort.init with an := some 1, txDue := some 4000 } } }, by decide +kernel⟩
theorem witness_HostFramesAndMacsec_8 : ∃ (p : Fin 2) (k : Nat) (s : State), (s.port.host.get p).older = [] ∧ (s.port.host.get p).oldAn = some k :=
  ⟨1, 2, { odaOn with port := { odaOn.port with host := Vector.replicate 2 { HostPort.init with an := some 3, oldAn := some 2, oldDue := 600 } } }, by decide +kernel⟩
theorem witness_HostFramesAndMacsec_9 : ∃ (p : Fin 2) (x : OldAssoc) (l : List OldAssoc) (s : State), (s.port.host.get p).older = x :: l :=
  ⟨1, ⟨0, 600, 9, []⟩, [], { odaOn with port := { odaOn.port with host := Vector.replicate 2 { HostPort.init with an := some 2, oldAn := some 1, oldDue := 900, older := [⟨0, 600, 9, []⟩] } } }, by decide +kernel⟩
theorem witness_HostFramesAndMacsec_10 : ∃ (f : FrameIn) (x : OdaIn) (y : Session) (s : State), s.port.svcUp = true ∧ f.kind = .oda x ∧ odaSession s x.sess = some y ∧ x.tagOk = true ∧ seqFresh y x.seq = true ∧ x.seq < two32 ∧ x.formOk = true ∧ x.opKnown = true :=
  ⟨⟨80, 0, 0, none, none, .oda ⟨80, true, [1, 1, 0, 0, 1, 0, 0, 0, 5, 0, 0, 0, 0, 0, 0, 0] ++ List.replicate 16 0⟩⟩, ⟨80, true, [1, 1, 0, 0, 1, 0, 0, 0, 5, 0, 0, 0, 0, 0, 0, 0] ++ List.replicate 16 0⟩, odaSess, odaOn, by decide +kernel⟩
theorem witness_HostFramesAndMacsec_11 : ∃ (f : FrameIn) (x : OdaIn) (y : Session) (s : State), s.port.svcUp = true ∧ f.kind = .oda x ∧ odaSession s x.sess = some y ∧ (x.tagOk = false ∨ seqFresh y x.seq = false) :=
  ⟨⟨80, 0, 0, none, none, .oda ⟨80, false, [1, 1, 0, 0, 1, 0, 0, 0, 5, 0, 0, 0, 0, 0, 0, 0] ++ List.replicate 16 0⟩⟩, ⟨80, false, [1, 1, 0, 0, 1, 0, 0, 0, 5, 0, 0, 0, 0, 0, 0, 0] ++ List.replicate 16 0⟩, odaSess, odaOn, by decide +kernel⟩

theorem witness_SidebandPorts_1 : ∃ (a : Fin 8) (s : State), s.oda.serving = true ∧ s.oda.bare = false ∧ sbUp s a = false ∧ getN s (Obj.sbMode a.val) ≠ 0 :=
  ⟨1, setN ({ odaOn with port := { odaOn.port with sb := Vector.replicate 8 ⟨.training, none, [], 0, []⟩ } }) (Obj.sbMode 1) 1, by decide +kernel⟩
theorem witness_SidebandPorts_2 : ∃ (a : Fin 8) (s : State), sbUp s a = true :=
  ⟨1, { odaOn with port := { odaOn.port with sb := Vector.replicate 8 ⟨.up, none, [], 0, []⟩ } }, by decide +kernel⟩
theorem witness_SidebandPorts_4 : ∃ (a : Fin 8) (s : State), sbUp s a = true :=
  ⟨1, { odaOn with port := { odaOn.port with sb := Vector.replicate 8 ⟨.up, none, [], 0, []⟩ } }, by decide +kernel⟩
theorem witness_SidebandPorts_5 : ∃ (a : Fin 8) (ether : Nat) (payload : List Byte) (old : Bool) (delay : Nat) (s : State), sbUp s a = true ∧ delay ≤ 600 ∧ ether ≠ getN s Obj.sbEthertype :=
  ⟨1, 5, [], false, 0, { odaOn with port := { odaOn.port with sb := Vector.replicate 8 ⟨.up, none, [], 0, []⟩ } }, by decide +kernel⟩
theorem witness_SidebandPorts_6 : ∃ (a : Fin 8) (ether : Nat) (payload : List Byte) (old : Bool) (delay : Nat) (s : State), sbUp s a = true ∧ delay ≤ 600 :=
  ⟨1, 5, [], false, 0, { odaOn with port := { odaOn.port with sb := Vector.replicate 8 ⟨.up, none, [], 0, []⟩ } }, by decide +kernel⟩
theorem witness_SidebandPorts_7 : ∃ (a : Fin 8) (ether : Nat) (payload : List Byte) (old : Bool) (delay : Nat) (s : State), sbUp s a = true ∧ delay ≤ 600 ∧ ether = getN s Obj.sbEthertype ∧ payload.length = 32 + 12 * fieldAt payload 16 2 ∧ 1 ≤ fieldAt payload 16 2 ∧ fieldAt payload 16 2 ≤ 747 ∧ fieldAt payload 0 1 = 1 ∧ fieldAt payload 1 1 = a.val ∧ ((s.port.sb.get a).last = none ∨ (s.port.sb.get a).last.map (fun l => (l + 1) % two32) = some (fieldAt payload 4 4)) ∧ fieldAt payload 4 4 < two32 :=
  ⟨1, 0x88B5, [1, 1, 0, 0, 8, 0, 0, 0, 0, 0, 0, 0, 0, 0, 0, 0, 1, 0] ++ List.replicate 14 0 ++ [5, 0, 0, 0, 0, 0, 0, 0, 0, 0, 0x80, 0x3F], false, 0, { odaOn with port := { odaOn.port with sb := Vector.replicate 8 ⟨.up, some 7, [], 0, []⟩ } }, by decide +kernel⟩
theorem witness_SidebandPorts_8 : ∃ (a : Fin 8) (ether : Nat) (payload : List Byte) (old : Bool) (delay l : Nat) (s : State), sbUp s a = true ∧ delay ≤ 600 ∧ ether = getN s Obj.sbEthertype ∧ payload.length = 32 + 12 * fieldAt payload 16 2 ∧ 1 ≤ fieldAt payload 16 2 ∧ fieldAt payload 16 2 ≤ 747 ∧ fieldAt payload 0 1 = 1 ∧ fieldAt payload 1 1 = a.val ∧ (s.port.sb.get a).last = some l ∧ l + 1 < fieldAt payload 4 4 ∧ fieldAt payload 4 4 ≤ l + 17 ∧ fieldAt payload 4 4 < two32 :=
  ⟨1, 0x88B5, [1, 1, 0, 0, 12, 0, 0, 0, 0, 0, 0, 0, 0, 0, 0, 0, 1, 0] ++ List.replicate 14 0 ++ [5, 0, 0, 0, 0, 0, 0, 0, 0, 0, 0x80, 0x3F], false, 0, 7, { odaOn with port := { odaOn.port with sb := Vector.replicate 8 ⟨.up, some 7, [], 0, []⟩ } }, by decide +kernel⟩
theorem witness_SidebandPorts_9 : ∃ (a : Fin 8) (ether : Nat) (payload : List Byte) (old : Bool) (delay : Nat) (s : State), sbUp s a = true ∧ delay ≤ 600 ∧ ether = getN s Obj.sbEthertype ∧ payload.length = 32 + 12 * fieldAt payload 16 2 ∧ 1 ≤ fieldAt payload 16 2 ∧ fieldAt payload 16 2 ≤ 747 ∧ fieldAt payload 0 1 = 1 ∧ fieldAt payload 1 1 = a.val ∧ (s.port.sb.get a).last = some (fieldAt payload 4 4) ∧ (s.port.sb.get a).spoiled = 0 ∧ (s.port.sb.get a).missing.contains (fieldAt payload 4 4) = false ∧ fieldAt payload 4 4 < two32 :=
  ⟨1, 0x88B5, [1, 1, 0, 0, 7, 0, 0, 0, 0, 0, 0, 0, 0, 0, 0, 0, 1, 0] ++ List.replicate 14 0 ++ [5, 0, 0, 0, 0, 0, 0, 0, 0, 0, 0x80, 0x3F], false, 0, { odaOn with port := { odaOn.port with sb := Vector.replicate 8 ⟨.up, some 7, [], 0, []⟩ } }, by decide +kernel⟩

theorem witness_MemoryErrorsCellsAndRegions_1 : ∃ (s : State), s.mem.st = .ready :=
  ⟨{ readyOn with mem := { Mem.init with st := .ready } }, by decide +kernel⟩
theorem witness_MemoryErrorsCellsAndRegions_2 : ∃ (addr : Nat) (s : State), s.mem.st = .ready ∧ 0x800000000 ≤ addr ∧ addr < 0xB80000000 :=
  ⟨0x800000013, { readyOn with mem := { Mem.init with st := .ready } }, by decide +kernel⟩
theorem witness_MemoryErrorsCellsAndRegions_3 : ∃ (s : State), s.mem.st = .ready :=
  ⟨{ readyOn with mem := { Mem.init with st := .ready } }, by decide +kernel⟩
theorem witness_MemoryErrorsCellsAndRegions_4 : ∃ (hot : Bool) (s : State), s.mem.st = .ready :=
  ⟨true, { readyOn with mem := { Mem.init with st := .ready } }, by decide +kernel⟩
theorem witness_MemoryErrorsCellsAndRegions_5 : ∃ (cell : Fin 16384) (v : Nat) (d : Nat) (s : State), fabricUp s = true ∧ 512 ≤ cell.val ∧ d ≠ cell.val :=
  ⟨700, 9, 2, { readyOn with mem := { Mem.init with st := .ready, cells := [(700, 4)], slots := [(3, ⟨700, true, false, true, false, 5, 8, 0⟩)] } }, by decide +kernel⟩
theorem witness_MemoryErrorsCellsAndRegions_6 : ∃ (cell : Fin 16384) (v : Nat) (d : Nat) (s : State), fabricUp s = true ∧ 512 ≤ cell.val ∧ d ≠ cell.val :=
  ⟨700, 5, 2, { readyOn with mem := { Mem.init with st := .ready, cells := [(700, 4)], slots := [(3, ⟨700, true, false, true, false, 5, 8, 0⟩)] } }, by decide +kernel⟩
theorem witness_MemoryErrorsCellsAndRegions_7 : ∃ (cell : Fin 16384) (v : Nat) (k : Nat) (x : WaitSlot) (s : State), fabricUp s = true ∧ 512 ≤ cell.val ∧ slotAt s k = x ∧ x.arm = true ∧ x.cell = cell.val :=
  ⟨700, 5, 3, ⟨700, true, false, true, false, 5, 8, 0⟩, { readyOn with mem := { Mem.init with st := .ready, cells := [(700, 4)], slots := [(3, ⟨700, true, false, true, false, 5, 8, 0⟩)] } }, by decide +kernel⟩
theorem witness_MemoryErrorsCellsAndRegions_8 : ∃ (cell : Fin 16384) (v : Nat) (k : Nat) (x : WaitSlot) (s : State), fabricUp s = true ∧ slotAt s k = x ∧ (x.arm = false ∨ x.cell ≠ cell.val) :=
  ⟨700, 5, 3, ⟨701, true, false, true, false, 5, 8, 0⟩, { readyOn with mem := { Mem.init with st := .ready, cells := [(700, 4)], slots := [(3, ⟨701, true, false, true, false, 5, 8, 0⟩)] } }, by decide +kernel⟩
theorem witness_MemoryErrorsCellsAndRegions_9 : ∃ (cell : Fin 16384) (v : Nat) (s : State), cell.val < 512 :=
  ⟨64, 1, { readyOn with mem := { Mem.init with st := .ready } }, by decide +kernel⟩
theorem witness_MemoryErrorsCellsAndRegions_10 : ∃ (k : Fin 256) (cell : Fin 16384) (irq event : Bool) (core : Fin 8) (threshold : Nat) (s : State), fabricUp s = true ∧ threshold < two32 :=
  ⟨3, 700, true, false, 5, 8, { readyOn with mem := { Mem.init with st := .ready, cells := [(700, 4)] } }, by decide +kernel⟩
theorem witness_MemoryErrorsCellsAndRegions_11 : ∃ (k : Fin 256) (j : Nat) (s : State), j ≠ k.val :=
  ⟨3, 4, { readyOn with mem := { Mem.init with st := .ready, slots := [(3, ⟨700, true, false, true, false, 5, 8, 0⟩)] } }, by decide +kernel⟩
theorem witness_MemoryErrorsCellsAndRegions_12 : ∃ (c : Fin 2) (k : Fin 256) (r : Region) (j : Nat) (s : State), wardenUp s c = true ∧ j ≠ k.val :=
  ⟨0, 7, ⟨0x800000000, 4096, 16, 3, true⟩, 8, { readyOn with bar := { readyOn.bar with clusters := Vector.replicate 2 { Cluster.init with role := .control } } }, by decide +kernel⟩
theorem witness_MemoryErrorsCellsAndRegions_13 : ∃ (c : Fin 2) (k : Fin 256) (o : Override) (j : Nat) (s : State), wardenUp s c = true ∧ j ≠ k.val :=
  ⟨0, 7, ⟨0x1201, 0, 9, 0, 0, 0, 0, true, 0⟩, 8, { readyOn with bar := { readyOn.bar with clusters := Vector.replicate 2 { Cluster.init with role := .control } } }, by decide +kernel⟩
theorem witness_MemoryErrorsCellsAndRegions_14 : ∃ (c : Fin 2) (k : Fin 256) (r : Region) (s : State), wardenUp s c = false :=
  ⟨0, 7, ⟨0x800000000, 4096, 16, 3, true⟩, readyOn, by decide +kernel⟩

theorem witness_MilletRuns_1 : ∃ (c : Fin 32) (ctrl srcList dstList srcCount dstCount compl : Nat) (src dst : List DmaEntry) (s : State), fabricUp s = true ∧ fwChan c = true ∧ bitSet ctrl 0 = true ∧ (chanAt s c).st = .idle ∧ src.length = srcCount ∧ dst.length = dstCount ∧ goCause s c (bits ctrl 8 3) srcList dstList srcCount dstCount src dst = none ∧ running s (engineOf c) = none ∧ (∀ d : Fin 32, engineOf d = engineOf c → (chanAt s d).st ≠ .ready) :=
  ⟨4, 0x08000001, 0x800000100, 0x800000200, 1, 1, 0x00058300, [⟨0x804001000, 8, 0⟩], [⟨0x804002000, 8, 0⟩], { readyOn with bar := { readyOn.bar with regions := [(1, ⟨0x800000000, 0x10000000, 0xFFFFFFFF, 3, true⟩)] }, mem := { Mem.init with st := .ready, dma := vupd Mem.init.dma 4 (fun x => { x with st := .idle }) } }, by decide +kernel⟩
theorem witness_MilletRuns_2 : ∃ (c : Fin 32) (ctrl srcList dstList srcCount dstCount compl : Nat) (src dst : List DmaEntry) (d : Fin 32) (s : State), fabricUp s = true ∧ fwChan c = true ∧ bitSet ctrl 0 = true ∧ (chanAt s c).st = .idle ∧ src.length = srcCount ∧ dst.length = dstCount ∧ goCause s c (bits ctrl 8 3) srcList dstList srcCount dstCount src dst = none ∧ running s (engineOf c) = some d :=
  ⟨4, 0x08000001, 0x800000100, 0x800000200, 1, 1, 0x00058300, [⟨0x804001000, 8, 0⟩], [⟨0x804002000, 8, 0⟩], 5, { readyOn with bar := { readyOn.bar with regions := [(1, ⟨0x800000000, 0x10000000, 0xFFFFFFFF, 3, true⟩)] }, mem := { Mem.init with st := .ready, dma := vupd Mem.init.dma 4 (fun x => { x with st := .idle }), runA := some 5 } }, by decide +kernel⟩
theorem witness_MilletRuns_3 : ∃ (c : Fin 32) (ctrl srcList dstList srcCount dstCount compl : Nat) (src dst : List DmaEntry) (cause a : Nat) (dir : Bool) (s : State), fabricUp s = true ∧ fwChan c = true ∧ bitSet ctrl 0 = true ∧ (chanAt s c).st = .idle ∧ src.length = srcCount ∧ dst.length = dstCount ∧ goCause s c (bits ctrl 8 3) srcList dstList srcCount dstCount src dst = some (cause, some a, dir) :=
  ⟨4, 0x08000001, 0x900000100, 0x800000200, 1, 1, 0x00058300, [⟨0x804001000, 8, 0⟩], [⟨0x804002000, 8, 0⟩], 7, 0x900000100, false, { readyOn with bar := { readyOn.bar with regions := [(1, ⟨0x800000000, 0x10000000, 0xFFFFFFFF, 3, true⟩)] }, mem := { Mem.init with st := .ready, dma := vupd Mem.init.dma 4 (fun x => { x with st := .idle }) } }, by decide +kernel⟩
theorem witness_MilletRuns_4 : ∃ (mb : Bool) (c : Fin 32) (s : State), running s mb = none ∧ (List.finRange 32).find? (fun c => engineOf c == mb && (chanAt s c).st == .ready) = some c :=
  ⟨false, 4, { readyOn with bar := { readyOn.bar with regions := [(1, ⟨0x800000000, 0x10000000, 0xFFFFFFFF, 3, true⟩)] }, mem := { Mem.init with st := .ready, dma := vupd Mem.init.dma 4 (fun x => { x with st := .ready, enable := true, src := [⟨0x804001000, 8, 0⟩], dst := [⟨0x804002000, 8, 0⟩] }) } }, by decide +kernel⟩
theorem witness_MilletRuns_5 : ∃ (mb : Bool) (c : Fin 32) (a d len b : Nat) (s : State), running s mb = some c ∧ engineOf c = mb ∧ (chanAt s c).jobs = [] ∧ s.mem.st = .ready ∧ (chanAt s c).src = [⟨a, len, 0⟩] ∧ (chanAt s c).dst = [⟨d, len, 0⟩] ∧ (chanAt s c).swap = 0 ∧ (chanAt s c).bytesDone = 0 ∧ 1 ≤ len ∧ a % 256 + len ≤ 256 ∧ d % 256 + len ≤ 256 ∧ (∀ i, i < len → placeOf (a + i) = .ram) ∧ (∀ i, i < len → placeOf (d + i) = .ram) ∧ burstCause s c ⟨0, len, 0, a, false, 0, d, false⟩ = none ∧ (b < d ∨ d + len ≤ b) :=
  ⟨false, 4, 0x804001000, 0x804002000, 8, 0x804002008, { readyOn with bar := { readyOn.bar with regions := [(1, ⟨0x800000000, 0x10000000, 0xFFFFFFFF, 3, true⟩)] }, mem := { Mem.init with st := .ready, dma := vupd Mem.init.dma 4 (fun x => { x with st := .running, enable := true, src := [⟨0x804001000, 8, 0⟩], dst := [⟨0x804002000, 8, 0⟩], irqEn := true, signalEn := true, cell := 768, amount := 5 }), ram := [(0x804001000, 7), (0x800001001, 9), (0x804002008, 3)], runA := some 4 } }, by decide +kernel⟩
theorem witness_MilletRuns_6 : ∃ (mb : Bool) (c : Fin 32) (a d len : Nat) (s : State), running s mb = some c ∧ engineOf c = mb ∧ s.clk.rc = false ∧ (chanAt s c).jobs = [] ∧ s.mem.st = .ready ∧ (chanAt s c).src = [⟨a, len, 0⟩] ∧ (chanAt s c).dst = [⟨d, len, 0⟩] ∧ (chanAt s c).swap = 0 ∧ (chanAt s c).bytesDone = 0 ∧ 1 ≤ len ∧ (∀ i, i < len → placeOf (a + i) = .ram) ∧ (∀ i, i < len → placeOf (d + i) = .ram) ∧ (∀ b ∈ (chanAt s c).bursts, burstCause s c b = none) :=
  ⟨false, 4, 0x8040010FC, 0x804002000, 8, { readyOn with bar := { readyOn.bar with regions := [(1, ⟨0x800000000, 0x10000000, 0xFFFFFFFF, 3, true⟩)] }, mem := { Mem.init with st := .ready, dma := vupd Mem.init.dma 4 (fun x => { x with st := .running, enable := true, src := [⟨0x8040010FC, 8, 0⟩], dst := [⟨0x804002000, 8, 0⟩], share := 4 }), runA := some 4 } }, by decide +kernel⟩
theorem witness_MilletRuns_7 : ∃ (mb : Bool) (c : Fin 32) (n : Nat) (l : List Nat) (s : State), running s mb = some c ∧ engineOf c = mb ∧ (chanAt s c).jobs = n :: l :=
  ⟨true, 17, 4096, [], { readyOn with mem := { Mem.init with st := .ready, runB := some 17, dma := vupd Mem.init.dma 17 (fun x => { x with st := .running, jobs := [4096] }) } }, by decide +kernel⟩
theorem witness_MilletRuns_8 : ∃ (mb : Bool) (c : Fin 32) (b : Burst) (rest : List Burst) (a cause : Nat) (dir : Bool) (s : State), running s mb = some c ∧ engineOf c = mb ∧ restOf (advance c s) c = b :: rest ∧ burstCause (advance c s) c b = some (a, dir, cause) :=
  ⟨false, 4, ⟨0, 8, 0, 0x804001000, false, 0, 0x804002000, false⟩, [], 0x804001000, 3, false, { readyOn with bar := { readyOn.bar with regions := [(1, ⟨0x800000000, 0x10000000, 0xFFFFFFFF, 3, true⟩)] }, mem := { Mem.init with st := .ready, dma := vupd Mem.init.dma 4 (fun x => { x with st := .running, enable := true, src := [⟨0x804001000, 8, 0⟩], dst := [⟨0x804002000, 8, 0⟩] }), runA := some 4, poison := [0x804001000] } }, by decide +kernel⟩
theorem witness_MilletRuns_9 : ∃ (c : Fin 32) (s : State), fwChan c = true ∧ ((chanAt s c).st = .done ∨ (chanAt s c).st = .halted) :=
  ⟨4, { readyOn with bar := { readyOn.bar with regions := [(1, ⟨0x800000000, 0x10000000, 0xFFFFFFFF, 3, true⟩)] }, mem := { Mem.init with st := .ready, dma := vupd Mem.init.dma 4 (fun x => { x with st := .done }) } }, by decide +kernel⟩
theorem witness_MilletRuns_10 : ∃ (c : Fin 32) (s : State), fabricUp s = true ∧ fwChan c = true ∧ (chanAt s c).st ≠ .running :=
  ⟨4, { readyOn with bar := { readyOn.bar with regions := [(1, ⟨0x800000000, 0x10000000, 0xFFFFFFFF, 3, true⟩)] }, mem := { Mem.init with st := .ready, dma := vupd Mem.init.dma 4 (fun x => { x with st := .ready, enable := true }) } }, by decide +kernel⟩
theorem witness_MilletRuns_11 : ∃ (c : Fin 32) (cell n d : Nat) (rest : List (Nat × Nat)) (s : State), (chanAt s c).due = (cell, n) :: rest ∧ 512 ≤ cell ∧ d ≠ cell :=
  ⟨4, 768, 5, 9, [], { readyOn with bar := { readyOn.bar with regions := [(1, ⟨0x800000000, 0x10000000, 0xFFFFFFFF, 3, true⟩)] }, mem := { Mem.init with st := .ready, dma := vupd Mem.init.dma 4 (fun x => { x with st := .done, due := [(768, 5)] }) } }, by decide +kernel⟩

theorem witness_DisableDropsTheChannel_1 : ∃ (c : Fin 32) (s : State), fabricUp s = true ∧ fwChan c = true ∧ ((chanAt s c).st = .running → running s (engineOf c) = some c) :=
  ⟨4, { readyOn with bar := { readyOn.bar with regions := [(1, ⟨0x800000000, 0x10000000, 0xFFFFFFFF, 3, true⟩)] }, mem := { Mem.init with st := .ready, dma := vupd Mem.init.dma 4 (fun x => { x with st := .running, enable := true, src := [⟨0x804001000, 8, 0⟩], dst := [⟨0x804002000, 8, 0⟩] }), runA := some 4, poison := [0x804001000] } }, by decide +kernel⟩

theorem witness_UpdateToShadowReady_1 : ∃ (au : Auth) (image : List Byte) (s : State), s.oda.serving = true ∧ precheck s au UpdateImageKey 0 (.bytes image) = 0 ∧ updateHome image s = 0 :=
  ⟨.service, [1, 0, 1, 0, 2, 0, 0, 0, 3, 0, 0, 0, 2, 0, 1, 0, 120, 0, 0, 0, 0, 0, 0, 0, 96, 0, 0, 0, 0, 0, 0, 0, 110, 0, 0, 0, 0, 0, 0, 0] ++ List.replicate 80 0, { odaOn with bar := { odaOn.bar with fwImage := some ⟨1, 0, 2, 1, 100, [1], [], [], [], true⟩, slotA := ⟨.valid, some ⟨1, 0, 2, 1, 100, [1], [], [], [], true⟩⟩, clusters := vupd (vupd (Vector.replicate 2 Cluster.init) 0 (fun x => { x with role := .control })) 1 (fun x => { x with role := .off }), upd := .idle, updImage := some ⟨2, 3, 2, 1, 200, [2], [], [], Config.layoutDigest, true⟩ } }, by decide +kernel⟩
theorem witness_UpdateToShadowReady_2 : ∃ (s : State), s.bar.upd = .writing :=
  ⟨{ odaOn with bar := { odaOn.bar with fwImage := some ⟨1, 0, 2, 1, 100, [1], [], [], [], true⟩, slotA := ⟨.valid, some ⟨1, 0, 2, 1, 100, [1], [], [], [], true⟩⟩, clusters := vupd (vupd (Vector.replicate 2 Cluster.init) 0 (fun x => { x with role := .control })) 1 (fun x => { x with role := .off }), upd := .writing, updImage := some ⟨2, 3, 2, 1, 200, [2], [], [], Config.layoutDigest, true⟩ } }, by decide +kernel⟩
theorem witness_UpdateToShadowReady_3 : ∃ (s : State), s.bar.upd = .writing :=
  ⟨{ odaOn with bar := { odaOn.bar with fwImage := some ⟨1, 0, 2, 1, 100, [1], [], [], [], true⟩, slotA := ⟨.valid, some ⟨1, 0, 2, 1, 100, [1], [], [], [], true⟩⟩, clusters := vupd (vupd (Vector.replicate 2 Cluster.init) 0 (fun x => { x with role := .control })) 1 (fun x => { x with role := .off }), upd := .writing, updImage := some ⟨2, 3, 2, 1, 200, [2], [], [], Config.layoutDigest, true⟩ } }, by decide +kernel⟩
theorem witness_UpdateToShadowReady_4 : ∃ (x : FwImage) (s : State), s.bar.upd = .verifying ∧ s.bar.updImage = some x ∧ x.trusted = true ∧ x.layout = Config.layoutDigest ∧ rollbackCtr s ≤ x.rollback ∧ getN s Obj.updateMode = 1 :=
  ⟨⟨2, 3, 2, 1, 200, [2], [], [], Config.layoutDigest, true⟩, setN ({ odaOn with bar := { odaOn.bar with fwImage := some ⟨1, 0, 2, 1, 100, [1], [], [], [], true⟩, slotA := ⟨.valid, some ⟨1, 0, 2, 1, 100, [1], [], [], [], true⟩⟩, clusters := vupd (vupd (Vector.replicate 2 Cluster.init) 0 (fun x => { x with role := .control })) 1 (fun x => { x with role := .off }), upd := .verifying, updImage := some ⟨2, 3, 2, 1, 200, [2], [], [], Config.layoutDigest, true⟩ } }) Obj.updateMode 1, by refine ⟨?_, ?_, ?_, ?_, ?_, ?_⟩ <;> first | rfl | decide +kernel⟩
theorem witness_UpdateToShadowReady_5 : ∃ (x : FwImage) (s : State), s.bar.upd = .verifying ∧ s.bar.updImage = some x ∧ x.trusted = true ∧ x.layout = Config.layoutDigest ∧ rollbackCtr s ≤ x.rollback ∧ getN s Obj.updateMode ≠ 1 ∧ formatsFit s x = true :=
  ⟨⟨2, 3, 2, 1, 200, [2], [], [], Config.layoutDigest, true⟩, { odaOn with bar := { odaOn.bar with fwImage := some ⟨1, 0, 2, 1, 100, [1], [], [], [], true⟩, slotA := ⟨.valid, some ⟨1, 0, 2, 1, 100, [1], [], [], [], true⟩⟩, clusters := vupd (vupd (Vector.replicate 2 Cluster.init) 0 (fun x => { x with role := .control })) 1 (fun x => { x with role := .off }), upd := .verifying, updImage := some ⟨2, 3, 2, 1, 200, [2], [], [], Config.layoutDigest, true⟩ } }, by refine ⟨?_, ?_, ?_, ?_, ?_, ?_, ?_⟩ <;> first | rfl | decide +kernel⟩
theorem witness_UpdateToShadowReady_6 : ∃ (x : FwImage) (s : State), s.bar.upd = .verifying ∧ s.bar.updImage = some x ∧ x.trusted = true ∧ x.layout = Config.layoutDigest ∧ rollbackCtr s ≤ x.rollback ∧ getN s Obj.updateMode ≠ 1 ∧ formatsFit s x = false :=
  ⟨⟨2, 3, 5, 4, 200, [2], [], [], Config.layoutDigest, true⟩, { odaOn with bar := { odaOn.bar with fwImage := some ⟨1, 0, 2, 1, 100, [1], [], [], [], true⟩, slotA := ⟨.valid, some ⟨1, 0, 2, 1, 100, [1], [], [], [], true⟩⟩, clusters := vupd (vupd (Vector.replicate 2 Cluster.init) 0 (fun x => { x with role := .control })) 1 (fun x => { x with role := .off }), upd := .verifying, updImage := some ⟨2, 3, 5, 4, 200, [2], [], [], Config.layoutDigest, true⟩ } }, by refine ⟨?_, ?_, ?_, ?_, ?_, ?_, ?_⟩ <;> first | rfl | decide +kernel⟩
theorem witness_UpdateToShadowReady_7 : ∃ (x : FwImage) (s : State), s.bar.upd = .verifying ∧ s.bar.updImage = some x ∧ (x.trusted = false ∨ x.rollback < rollbackCtr s ∨ x.layout ≠ Config.layoutDigest) :=
  ⟨⟨2, 3, 2, 1, 200, [2], [], [], Config.layoutDigest, false⟩, { odaOn with bar := { odaOn.bar with fwImage := some ⟨1, 0, 2, 1, 100, [1], [], [], [], true⟩, slotA := ⟨.valid, some ⟨1, 0, 2, 1, 100, [1], [], [], [], true⟩⟩, clusters := vupd (vupd (Vector.replicate 2 Cluster.init) 0 (fun x => { x with role := .control })) 1 (fun x => { x with role := .off }), upd := .verifying, updImage := some ⟨2, 3, 2, 1, 200, [2], [], [], Config.layoutDigest, false⟩ } }, ⟨by decide +kernel, rfl, Or.inl rfl⟩⟩
theorem witness_UpdateToShadowReady_8 : ∃ (s : State), s.bar.upd = .shadowBoot ∧ s.bar.updStarted = false :=
  ⟨{ odaOn with bar := { odaOn.bar with fwImage := some ⟨1, 0, 2, 1, 100, [1], [], [], [], true⟩, slotA := ⟨.valid, some ⟨1, 0, 2, 1, 100, [1], [], [], [], true⟩⟩, clusters := vupd (vupd (Vector.replicate 2 Cluster.init) 0 (fun x => { x with role := .control })) 1 (fun x => { x with role := .off }), upd := .shadowBoot, updImage := some ⟨2, 3, 2, 1, 200, [2], [], [], Config.layoutDigest, true⟩ } }, by decide +kernel⟩
theorem witness_UpdateToShadowReady_9 : ∃ (c : Fin 2) (s : State), s.part.reset = false ∧ roleOf s c = .shadow ∧ s.bar.upd = .shadowBoot :=
  ⟨1, { odaOn with bar := { odaOn.bar with fwImage := some ⟨1, 0, 2, 1, 100, [1], [], [], [], true⟩, slotA := ⟨.valid, some ⟨1, 0, 2, 1, 100, [1], [], [], [], true⟩⟩, clusters := vupd (vupd (Vector.replicate 2 Cluster.init) 0 (fun x => { x with role := .control })) 1 (fun x => { x with role := .shadow }), upd := .shadowBoot, updImage := some ⟨2, 3, 2, 1, 200, [2], [], [], Config.layoutDigest, true⟩, updStarted := true } }, by decide +kernel⟩
theorem witness_UpdateToShadowReady_10 : ∃ (c : Fin 2) (s : State), s.part.reset = false ∧ (roleOf s c ≠ .shadow ∨ s.bar.upd ≠ .shadowBoot) :=
  ⟨0, { odaOn with bar := { odaOn.bar with fwImage := some ⟨1, 0, 2, 1, 100, [1], [], [], [], true⟩, slotA := ⟨.valid, some ⟨1, 0, 2, 1, 100, [1], [], [], [], true⟩⟩, clusters := vupd (vupd (Vector.replicate 2 Cluster.init) 0 (fun x => { x with role := .control })) 1 (fun x => { x with role := .shadow }), upd := .shadowBoot, updImage := some ⟨2, 3, 2, 1, 200, [2], [], [], Config.layoutDigest, true⟩ } }, by decide +kernel⟩
theorem witness_UpdateToShadowReady_11 : ∃ (s : State), s.bar.upd = .shadowBoot ∧ s.bar.updStarted = true :=
  ⟨{ odaOn with bar := { odaOn.bar with fwImage := some ⟨1, 0, 2, 1, 100, [1], [], [], [], true⟩, slotA := ⟨.valid, some ⟨1, 0, 2, 1, 100, [1], [], [], [], true⟩⟩, clusters := vupd (vupd (Vector.replicate 2 Cluster.init) 0 (fun x => { x with role := .control })) 1 (fun x => { x with role := .shadow }), upd := .shadowBoot, updImage := some ⟨2, 3, 2, 1, 200, [2], [], [], Config.layoutDigest, true⟩, updStarted := true, shadowDue := 700 } }, by decide +kernel⟩
theorem witness_UpdateToShadowReady_12 : ∃ (c : Fin 2) (s : State), s.part.reset = false ∧ roleOf s c = .shadow ∧ s.bar.upd = .shadowSync :=
  ⟨1, { odaOn with bar := { odaOn.bar with fwImage := some ⟨1, 0, 2, 1, 100, [1], [], [], [], true⟩, slotA := ⟨.valid, some ⟨1, 0, 2, 1, 100, [1], [], [], [], true⟩⟩, clusters := vupd (vupd (Vector.replicate 2 Cluster.init) 0 (fun x => { x with role := .control })) 1 (fun x => { x with role := .shadow }), upd := .shadowSync, updImage := some ⟨2, 3, 2, 1, 200, [2], [], [], Config.layoutDigest, true⟩, updStarted := true } }, by decide +kernel⟩

theorem witness_UpdateTakeoverAndTrial_1 : ∃ (s : State), s.bar.upd = .shadowReady :=
  ⟨{ odaOn with bar := { odaOn.bar with fwImage := some ⟨1, 0, 2, 1, 100, [1], [], [], [], true⟩, slotA := ⟨.valid, some ⟨1, 0, 2, 1, 100, [1], [], [], [], true⟩⟩, clusters := vupd (vupd (Vector.replicate 2 Cluster.init) 0 (fun x => { x with role := .control })) 1 (fun x => { x with role := .shadow }), upd := .shadowReady, updImage := some ⟨2, 3, 2, 1, 200, [2], [], [], Config.layoutDigest, true⟩, takeT := some 9, takeAt := 450000 } }, by decide +kernel⟩
theorem witness_UpdateTakeoverAndTrial_2 : ∃ (c : Fin 2) (s : State), s.part.reset = false ∧ roleOf s c = .control ∧ s.bar.upd = .takeover :=
  ⟨0, { odaOn with bar := { odaOn.bar with fwImage := some ⟨1, 0, 2, 1, 100, [1], [], [], [], true⟩, slotA := ⟨.valid, some ⟨1, 0, 2, 1, 100, [1], [], [], [], true⟩⟩, clusters := vupd (vupd (Vector.replicate 2 Cluster.init) 0 (fun x => { x with role := .control })) 1 (fun x => { x with role := .shadow }), upd := .takeover, updImage := some ⟨2, 3, 2, 1, 200, [2], [], [], Config.layoutDigest, true⟩, holdOn := true } }, by decide +kernel⟩
theorem witness_UpdateTakeoverAndTrial_3 : ∃ (c : Fin 2) (s : State), s.part.reset = false ∧ roleOf s c = .shadow ∧ s.bar.upd = .takeover ∧ s.bar.finalWritten = true :=
  ⟨1, { odaOn with bar := { odaOn.bar with fwImage := some ⟨1, 0, 2, 1, 100, [1], [], [], [], true⟩, slotA := ⟨.valid, some ⟨1, 0, 2, 1, 100, [1], [], [], [], true⟩⟩, clusters := vupd (vupd (Vector.replicate 2 Cluster.init) 0 (fun x => { x with role := .control })) 1 (fun x => { x with role := .shadow }), upd := .takeover, updImage := some ⟨2, 3, 2, 1, 200, [2], [], [], Config.layoutDigest, true⟩, holdOn := true, finalWritten := true } }, by decide +kernel⟩
theorem witness_UpdateTakeoverAndTrial_4 : ∃ (c : Fin 2) (s : State), s.part.reset = false ∧ s.bar.finalWritten = false :=
  ⟨1, { odaOn with bar := { odaOn.bar with fwImage := some ⟨1, 0, 2, 1, 100, [1], [], [], [], true⟩, slotA := ⟨.valid, some ⟨1, 0, 2, 1, 100, [1], [], [], [], true⟩⟩, clusters := vupd (vupd (Vector.replicate 2 Cluster.init) 0 (fun x => { x with role := .control })) 1 (fun x => { x with role := .shadow }), upd := .takeover, updImage := some ⟨2, 3, 2, 1, 200, [2], [], [], Config.layoutDigest, true⟩, holdOn := true } }, by decide +kernel⟩
theorem witness_UpdateTakeoverAndTrial_5 : ∃ (s : State), s.bar.upd = .takeover ∧ s.bar.finalWritten = true ∧ s.bar.acceptWritten = true :=
  ⟨{ odaOn with bar := { odaOn.bar with fwImage := some ⟨1, 0, 2, 1, 100, [1], [], [], [], true⟩, slotA := ⟨.valid, some ⟨1, 0, 2, 1, 100, [1], [], [], [], true⟩⟩, clusters := vupd (vupd (Vector.replicate 2 Cluster.init) 0 (fun x => { x with role := .control })) 1 (fun x => { x with role := .shadow }), upd := .takeover, updImage := some ⟨2, 3, 2, 1, 200, [2], [], [], Config.layoutDigest, true⟩, holdOn := true, finalWritten := true, acceptWritten := true, takeAt := 450000 } }, by decide +kernel⟩
theorem witness_UpdateTakeoverAndTrial_6 : ∃ (s : State), s.bar.upd = .takeover ∧ (s.bar.finalWritten = false ∨ s.bar.acceptWritten = false) :=
  ⟨{ odaOn with bar := { odaOn.bar with fwImage := some ⟨1, 0, 2, 1, 100, [1], [], [], [], true⟩, slotA := ⟨.valid, some ⟨1, 0, 2, 1, 100, [1], [], [], [], true⟩⟩, clusters := vupd (vupd (Vector.replicate 2 Cluster.init) 0 (fun x => { x with role := .control })) 1 (fun x => { x with role := .shadow }), upd := .takeover, updImage := some ⟨2, 3, 2, 1, 200, [2], [], [], Config.layoutDigest, true⟩, holdOn := true, finalWritten := true, takeAt := 450000 } }, by decide +kernel⟩
theorem witness_UpdateTakeoverAndTrial_7 : ∃ (c : Fin 2) (s : State), s.part.reset = false ∧ roleOf s c = .control ∧ s.bar.upd = .trial :=
  ⟨1, { odaOn with bar := { odaOn.bar with fwImage := some ⟨1, 0, 2, 1, 100, [1], [], [], [], true⟩, slotA := ⟨.valid, some ⟨1, 0, 2, 1, 100, [1], [], [], [], true⟩⟩, clusters := vupd (vupd (Vector.replicate 2 Cluster.init) 0 (fun x => { x with role := .parked })) 1 (fun x => { x with role := .control }), upd := .trial, updImage := some ⟨2, 3, 2, 1, 200, [2], [], [], Config.layoutDigest, true⟩, control := 1, fwSlot := 1 } }, by decide +kernel⟩
theorem witness_UpdateTakeoverAndTrial_8 : ∃ (c : Fin 2) (kept : Bool) (s : State), s.part.reset = false ∧ roleOf s c = .control ∧ s.bar.upd = .trial ∧ trialPassed s = false ∧ s.bar.restartTrial = false :=
  ⟨1, true, { odaOn with bar := { odaOn.bar with fwImage := some ⟨1, 0, 2, 1, 100, [1], [], [], [], true⟩, slotA := ⟨.valid, some ⟨1, 0, 2, 1, 100, [1], [], [], [], true⟩⟩, clusters := vupd (vupd (Vector.replicate 2 Cluster.init) 0 (fun x => { x with role := .parked })) 1 (fun x => { x with role := .control }), upd := .trial, updImage := some ⟨2, 3, 2, 1, 200, [2], [], [], Config.layoutDigest, true⟩, control := 1, fwSlot := 1 } }, by decide +kernel⟩
theorem witness_UpdateTakeoverAndTrial_9 : ∃ (c : Fin 2) (kept : Bool) (s : State), s.part.reset = false ∧ roleOf s c = .control ∧ s.bar.upd = .trial ∧ trialPassed s = false ∧ s.bar.restartTrial = true :=
  ⟨1, true, { odaOn with bar := { odaOn.bar with fwImage := some ⟨1, 0, 2, 1, 100, [1], [], [], [], true⟩, slotA := ⟨.valid, some ⟨1, 0, 2, 1, 100, [1], [], [], [], true⟩⟩, clusters := vupd (vupd (Vector.replicate 2 Cluster.init) 0 (fun x => { x with role := .parked })) 1 (fun x => { x with role := .control }), upd := .trial, updImage := some ⟨2, 3, 2, 1, 200, [2], [], [], Config.layoutDigest, true⟩, control := 1, fwSlot := 1, restartTrial := true } }, by decide +kernel⟩
theorem witness_UpdateTakeoverAndTrial_10 : ∃ (kept : Bool) (s : State), s.bar.upd = .trial ∧ trialPassed s = false ∧ s.bar.restartTrial = false :=
  ⟨true, { odaOn with bar := { odaOn.bar with fwImage := some ⟨1, 0, 2, 1, 100, [1], [], [], [], true⟩, slotA := ⟨.valid, some ⟨1, 0, 2, 1, 100, [1], [], [], [], true⟩⟩, clusters := vupd (vupd (Vector.replicate 2 Cluster.init) 0 (fun x => { x with role := .parked })) 1 (fun x => { x with role := .control }), upd := .trial, updImage := some ⟨2, 3, 2, 1, 200, [2], [], [], Config.layoutDigest, true⟩, control := 1, fwSlot := 1, healthDue := 9000 } }, by decide +kernel⟩
theorem witness_UpdateTakeoverAndTrial_11 : ∃ (au : Auth) (kept : Bool) (s : State), s.oda.serving = true ∧ precheck s au Obj.updateCtrl.key 0 (.num 1) = 0 ∧ (s.bar.upd = .writing ∨ s.bar.upd = .verifying ∨ s.bar.upd = .shadowBoot ∨ s.bar.upd = .shadowSync ∨ s.bar.upd = .shadowReady) :=
  ⟨.service, true, { odaOn with bar := { odaOn.bar with fwImage := some ⟨1, 0, 2, 1, 100, [1], [], [], [], true⟩, slotA := ⟨.valid, some ⟨1, 0, 2, 1, 100, [1], [], [], [], true⟩⟩, clusters := vupd (vupd (Vector.replicate 2 Cluster.init) 0 (fun x => { x with role := .control })) 1 (fun x => { x with role := .shadow }), upd := .shadowSync, updImage := some ⟨2, 3, 2, 1, 200, [2], [], [], Config.layoutDigest, true⟩, updStarted := true } }, by decide +kernel⟩
theorem witness_UpdateTakeoverAndTrial_12 : ∃ (au : Auth) (kept : Bool) (s : State), s.oda.serving = true ∧ precheck s au Obj.updateCtrl.key 0 (.num 1) = 0 ∧ s.bar.upd = .pendingRestart ∧ s.bar.restartTrial = true :=
  ⟨.service, true, { odaOn with bar := { odaOn.bar with fwImage := some ⟨1, 0, 2, 1, 100, [1], [], [], [], true⟩, slotA := ⟨.valid, some ⟨1, 0, 2, 1, 100, [1], [], [], [], true⟩⟩, clusters := vupd (vupd (Vector.replicate 2 Cluster.init) 0 (fun x => { x with role := .control })) 1 (fun x => { x with role := .off }), upd := .pendingRestart, updImage := some ⟨2, 3, 2, 1, 200, [2], [], [], Config.layoutDigest, true⟩, restartTrial := true, bootSlot := 1 } }, by decide +kernel⟩
theorem witness_UpdateTakeoverAndTrial_13 : ∃ (au : Auth) (kept : Bool) (s : State), s.oda.serving = true ∧ precheck s au Obj.updateCtrl.key 0 (.num 1) = 0 ∧ s.bar.upd = .trial ∧ trialPassed s = false ∧ s.bar.restartTrial = false :=
  ⟨.service, true, { odaOn with bar := { odaOn.bar with fwImage := some ⟨1, 0, 2, 1, 100, [1], [], [], [], true⟩, slotA := ⟨.valid, some ⟨1, 0, 2, 1, 100, [1], [], [], [], true⟩⟩, clusters := vupd (vupd (Vector.replicate 2 Cluster.init) 0 (fun x => { x with role := .parked })) 1 (fun x => { x with role := .control }), upd := .trial, updImage := some ⟨2, 3, 2, 1, 200, [2], [], [], Config.layoutDigest, true⟩, control := 1, fwSlot := 1 } }, by decide +kernel⟩
theorem witness_UpdateTakeoverAndTrial_14 : ∃ (au : Auth) (s : State), s.oda.serving = true ∧ precheck s au Obj.updateCtrl.key 0 (.num 2) = 0 ∧ s.bar.upd = .trial :=
  ⟨.service, { odaOn with bar := { odaOn.bar with fwImage := some ⟨1, 0, 2, 1, 100, [1], [], [], [], true⟩, slotA := ⟨.valid, some ⟨1, 0, 2, 1, 100, [1], [], [], [], true⟩⟩, clusters := vupd (vupd (Vector.replicate 2 Cluster.init) 0 (fun x => { x with role := .parked })) 1 (fun x => { x with role := .control }), upd := .trial, updImage := some ⟨2, 3, 2, 1, 200, [2], [], [], Config.layoutDigest, true⟩, control := 1, fwSlot := 1 } }, by decide +kernel⟩
theorem witness_UpdateTakeoverAndTrial_15 : ∃ (x : FwImage) (s : State), s.bar.upd = .trial ∧ trialPassed s = true ∧ s.bar.fwImage = some x :=
  ⟨⟨1, 0, 2, 1, 100, [1], [], [], [], true⟩, { odaOn with bar := { odaOn.bar with fwImage := some ⟨1, 0, 2, 1, 100, [1], [], [], [], true⟩, slotA := ⟨.valid, some ⟨1, 0, 2, 1, 100, [1], [], [], [], true⟩⟩, clusters := vupd (vupd (Vector.replicate 2 Cluster.init) 0 (fun x => { x with role := .parked })) 1 (fun x => { x with role := .control }), upd := .trial, updImage := some ⟨2, 3, 2, 1, 200, [2], [], [], Config.layoutDigest, true⟩, control := 1, fwSlot := 1, healthPassed := true } }, by decide +kernel⟩
theorem witness_UpdateTakeoverAndTrial_16 : ∃ (c : Fin 512) (detail : Nat) (s : State), s.part.reset = false ∧ s.bar.fwImage ≠ none ∧ s.ev.up = true ∧ fwFrozen s = false :=
  ⟨5, 77, { odaOn with bar := { odaOn.bar with fwImage := some ⟨1, 0, 2, 1, 100, [1], [], [], [], true⟩, slotA := ⟨.valid, some ⟨1, 0, 2, 1, 100, [1], [], [], [], true⟩⟩, clusters := vupd (vupd (Vector.replicate 2 Cluster.init) 0 (fun x => { x with role := .control })) 1 (fun x => { x with role := .off }), upd := .idle, updImage := some ⟨2, 3, 2, 1, 200, [2], [], [], Config.layoutDigest, true⟩ } }, by decide +kernel⟩

theorem witness_RecorderCommitsAndClear_1 : ∃ (s : State), s.clk.running = true ∧ s.nut.commitTo = none ∧ s.nut.lossCommit = none ∧ fullDue s = true :=
  ⟨setN ({ odaOn with nut := { odaOn.nut with copyA := ⟨3, true, ⟨4, 9, [], [], [], []⟩, 100, []⟩ } }) Obj.operatingS 700, by decide +kernel⟩
theorem witness_RecorderCommitsAndClear_2 : ∃ (k : Fin 2) (d : NutData) (s : State), s.nut.commitTo = some (k.val, d) :=
  ⟨1, ⟨4, 9, [], [], [], []⟩, { odaOn with nut := { odaOn.nut with copyA := ⟨3, true, ⟨4, 9, [], [], [], []⟩, 100, []⟩, commitTo := some (1, ⟨4, 9, [], [], [], []⟩) } }, by decide +kernel⟩
theorem witness_RecorderCommitsAndClear_3 : ∃ (k : Fin 2) (d : NutData) (s : State), s.nut.commitTo = some (k.val, d) :=
  ⟨1, ⟨4, 9, [], [], [], []⟩, { odaOn with nut := { odaOn.nut with copyA := ⟨3, true, ⟨4, 9, [], [], [], []⟩, 100, []⟩, commitTo := some (1, ⟨4, 9, [], [], [], []⟩) } }, by decide +kernel⟩
theorem witness_RecorderCommitsAndClear_4 : ∃ (c k : Nat) (l : List Nat) (s : State), s.nut.immediate = c :: l ∧ newestNut s.nut = some k ∧ s.nut.commitTo = none ∧ (nutCopy s.nut k).deltaUsed + 144 ≤ deltaBytes :=
  ⟨5, 0, [], { odaOn with nut := { odaOn.nut with copyA := ⟨3, true, ⟨4, 9, [], [], [], []⟩, 100, []⟩, immediate := [5] } }, by decide +kernel⟩
theorem witness_RecorderCommitsAndClear_5 : ∃ (code : Ev) (n : Nat) (s : State), s.clk.running = true ∧ look s.nut.tokens (evKey code) = some n ∧ codeRate s code % 256 ≠ 0 :=
  ⟨.fw 3, 2, { odaOn with nut := { odaOn.nut with tokens := [(evKey (.fw 3), 2)] } }, by decide +kernel⟩
theorem witness_RecorderCommitsAndClear_6 : ∃ (s : State), s.clk.running = true ∧ s.nut.sinceSecond = [] :=
  ⟨odaOn, by decide +kernel⟩
theorem witness_RecorderCommitsAndClear_7 : ∃ (x : Nat × Nat × Nat) (s : State), s.clk.running = true ∧ s.nut.sinceSecond = [x] ∧ s.ev.up = true ∧ codeRate s .recorderSuppressed % 256 = 0 :=
  ⟨(8, 0x123, 4), { odaOn with nut := { odaOn.nut with sinceSecond := [(8, 0x123, 4)] } }, by decide +kernel⟩
theorem witness_RecorderCommitsAndClear_8 : ∃ (au : Auth) (s : State), s.oda.serving = true ∧ precheck s au Obj.recorderClear.key 0 (.num 1) = 0 :=
  ⟨.service, { odaOn with nut := { odaOn.nut with records := [(5, CodeRec.empty)] } }, by decide +kernel⟩

theorem witness_InventoryAndSeconds_1 : ∃ (b : Fin 12) (s : State), s.clk.running = true :=
  ⟨2, withBr 2 (fun x => { x with st := .on }) odaOn, by decide +kernel⟩
theorem witness_InventoryAndSeconds_2 : ∃ (a : Fin 8) (s : State), s.clk.running = true :=
  ⟨1, withSq 1 (fun x => { x with st := .on }) odaOn, by decide +kernel⟩
theorem witness_InventoryAndSeconds_3 : ∃ (a : Fin 8) (image : List Byte) (f : Fru) (s : State), (s.part.st = .ready ∨ s.part.st = .run) ∧ accelOn s a = true ∧ parseFru image = some f :=
  ⟨1, [1, 0, 0, 1, 0, 0, 0, 0xFE, 1, 3, 0, 0, 0, 0, 0xC2, 0x41, 0x41, 0xC2, 0x42, 0x42, 0xC2, 0x43, 0x43, 0xC2, 0x44, 0x44, 0xC1, 0, 0, 0, 0, 0x1F], ⟨[0x41, 0x41], [0x42, 0x42], [0x43, 0x43], [0x44, 0x44]⟩, withSq 1 (fun x => { x with st := .on }) (withBr 2 (fun x => { x with st := .on }) odaOn), by decide +kernel⟩
theorem witness_InventoryAndSeconds_4 : ∃ (a : Fin 8) (image : Option (List Byte)) (s : State), (s.part.st = .ready ∨ s.part.st = .run) ∧ accelOn s a = true ∧ image.bind parseFru = none :=
  ⟨1, some [1, 2], withSq 1 (fun x => { x with st := .on }) (withBr 2 (fun x => { x with st := .on }) odaOn), by decide +kernel⟩
theorem witness_InventoryAndSeconds_5 : ∃ (image : Option (List Byte)) (s : State), (s.part.st = .ready ∨ s.part.st = .run) :=
  ⟨none, odaOn, by decide +kernel⟩
theorem witness_InventoryAndSeconds_6 : ∃ (au : Auth) (b k : Fin 12) (bytes : List Byte) (s : State), s.oda.serving = true ∧ precheck s au (Blob.peSerial b.val) 0 (.bytes bytes) = 0 ∧ k ≠ b :=
  ⟨.service, 2, 3, [65, 66], setN odaOn (Obj.peOnS 2) 9, by decide +kernel⟩

theorem witness_PowerReports_1 : ∃ (pkg : Rat) (c : Fin 13) (s : State), s.clk.running = true :=
  ⟨60, 2, withBr 2 (fun x => { x with vout := 54, cur := 20 }) odaOn, by decide +kernel⟩
theorem witness_PowerReports_2 : ∃ (c : Fin 13) (s : State), s.clk.running = true ∧ (s.rep.get c).winN ≠ 0 :=
  ⟨2, { odaOn with rep := Vector.replicate 13 { PowerCh.zero with win := 300, winN := 3, sec := 900, secN := 9 } }, by decide +kernel⟩
theorem witness_PowerReports_3 : ∃ (c : Fin 13) (s : State), s.clk.running = true ∧ 0 ∈ (s.rep.get c).whole :=
  ⟨2, { odaOn with rep := Vector.replicate 13 { PowerCh.zero with sec := 900, secN := 9, peakSec := some 5, whole := [0] } }, by decide +kernel⟩
theorem witness_PowerReports_4 : ∃ (c : Fin 13) (s : State), s.clk.running = true ∧ 1 ∈ (s.rep.get c).whole :=
  ⟨2, { odaOn with rep := Vector.replicate 13 { PowerCh.zero with mnt := 900, mntN := 9, whole := [0, 1] } }, by decide +kernel⟩
theorem witness_PowerReports_5 : ∃ (c : Fin 13) (s : State), s.clk.running = true ∧ 2 ∈ (s.rep.get c).whole :=
  ⟨2, { odaOn with rep := Vector.replicate 13 { PowerCh.zero with hour := 900, hourN := 9, whole := [2] } }, by decide +kernel⟩
theorem witness_PowerReports_6 : ∃ (c : Fin 13) (s : State), s.clk.running = true ∧ 1 ∉ (s.rep.get c).whole :=
  ⟨2, { odaOn with rep := Vector.replicate 13 { PowerCh.zero with mnt := 900, mntN := 9 } }, by decide +kernel⟩
theorem witness_PowerReports_7 : ∃ (au : Auth) (c : Fin 13) (s : State), s.oda.serving = true ∧ precheck s au Obj.peakReset.key 0 (.num 1) = 0 :=
  ⟨.service, 2, setN odaOn (Obj.powerPeakW 2) 9, by decide +kernel⟩

theorem witness_QuarantineRelease_1 : ∃ (au : Auth) (a : Fin 8) (s : State), s.oda.serving = true ∧ (au = .host ∨ au = .service) ∧ precheck s au (Obj.quarRelease a.val).key 0 (.num 1) = 0 ∧ (s.acc.get a).quarantined = true :=
  ⟨.host, 2, updAcc 2 (fun x => { x with quarantined := true, faults := [4, 9], reqF := .off }) readyOn, by decide +kernel⟩
theorem witness_QuarantineRelease_2 : ∃ (au : Auth) (a : Fin 8) (s : State), s.oda.serving = true ∧ (au = .host ∨ au = .service) ∧ precheck s au (Obj.quarRelease a.val).key 0 (.num 1) = 0 ∧ (s.acc.get a).quarantined = false :=
  ⟨.host, 2, readyOn, by decide +kernel⟩
theorem witness_QuarantineRelease_3 : ∃ (a : Fin 8) (s : State), s.oda.serving = true ∧ s.bar.overrides = [] :=
  ⟨2, updAcc 2 (fun x => { x with quarantined := true, faults := [4, 9], reqF := .off }) readyOn, by decide +kernel⟩

theorem witness_RunAtLaunchOrMissed_1 : ∃ (s : State), getN s Obj.launchAt ≠ 0 ∧ s.eng.any = false ∧ (s.part.st = .ready ∧ s.img.inForce ≠ none ∧ activating s = false ∧ s.mem.st = .ready ∧ (s.img.lostDom.get 0 = false ∨ s.img.lostDom.get 1 = false)) :=
  ⟨{ readyOn with nums := [(Obj.launchAt.key, 9)], img := { Images.init with inForce := some 0 }, mem := { Mem.init with st := .ready } }, by decide +kernel⟩
theorem witness_RunAtLaunchOrMissed_2 : ∃ (s : State), getN s Obj.launchAt ≠ 0 ∧ s.eng.any = false ∧ (¬(s.part.st = .ready ∧ s.img.inForce ≠ none ∧ activating s = false ∧ s.mem.st = .ready ∧ (s.img.lostDom.get 0 = false ∨ s.img.lostDom.get 1 = false))) :=
  ⟨{ readyOn with nums := [(Obj.launchAt.key, 9)] }, by decide +kernel⟩

theorem witness_RyeReleaseWithAndWithoutTheRcb_1 : ∃ (v : Rat) (s : State), s.part.st = .off ∧ s.pow.holdup = .off ∧ 36 ≤ v :=
  ⟨54, State.reset, by decide +kernel⟩
theorem witness_RyeReleaseWithAndWithoutTheRcb_2 : ∃ (s : State), s.pow.holdup = .charging :=
  ⟨{ State.reset with pow := { Power.init with holdup := .charging } }, by decide +kernel⟩
theorem witness_RyeReleaseWithAndWithoutTheRcb_3 : ∃ (seated enabled thermtrip : Nat) (c : NorCopy) (s : State), s.pow.holdup = .charging ∧ newestCopy s.pow.rcbA s.pow.rcbB = some c :=
  ⟨0xFE, 0xFFE, 0x7F, ⟨4, true, [], []⟩, { State.reset with pow := { Power.init with holdup := .charging, rcbA := ⟨4, true, [], []⟩, rcbB := ⟨3, true, [], []⟩ } }, by decide +kernel⟩
theorem witness_RyeReleaseWithAndWithoutTheRcb_4 : ∃ (seated enabled thermtrip : Nat) (s : State), s.pow.holdup = .charging ∧ newestCopy s.pow.rcbA s.pow.rcbB = none :=
  ⟨0xFF, 0xFFF, 0xFF, { State.reset with pow := { Power.init with holdup := .charging, rcbA := ⟨0, false, [], []⟩, rcbB := ⟨0, false, [], []⟩ } }, by decide +kernel⟩

theorem witness_InputLostReturnedAndHoldupEnd_1 : ∃ (v : Rat) (s : State), s.pow.holdup ≠ .off ∧ v < 28 :=
  ⟨20, ryeOn, by decide +kernel⟩
theorem witness_InputLostReturnedAndHoldupEnd_2 : ∃ (v : Rat) (s : State), s.clk.running = true ∧ s.pow.vinLost = true ∧ 28 ≤ v :=
  ⟨28, { ryeOn with pow := { ryeOn.pow with vinLost := true } }, by decide +kernel⟩
theorem witness_InputLostReturnedAndHoldupEnd_3 : ∃ (torn : Torn) (s : State), s.pow.vinLost = true :=
  ⟨.secB, { ryeOn with pow := { ryeOn.pow with vinLost := true } }, by decide +kernel⟩
theorem witness_InputLostReturnedAndHoldupEnd_4 : ∃ (s : State), s.pow.vinLost = true :=
  ⟨{ ryeOn with pow := { ryeOn.pow with vinLost := true } }, by decide +kernel⟩
theorem witness_InputLostReturnedAndHoldupEnd_5 : ∃ (torn : Torn) (s : State), s.pow.vinLost = true ∧ openCommit true s = none ∧ openCommit false s = none ∧ s.cardamom.commit = none :=
  ⟨.rcbA, { ryeOn with pow := { ryeOn.pow with vinLost := true } }, by decide +kernel⟩
theorem witness_InputLostReturnedAndHoldupEnd_6 : ∃ (a b new : NorCopy) (s : State), s.pow.vinLost = true ∧ openCommit true s = some (a, b, new) :=
  ⟨⟨3, true, [], []⟩, ⟨2, true, [], []⟩, ⟨4, true, [], []⟩, { ryeOn with pow := { ryeOn.pow with vinLost := true, rcbA := ⟨4, true, [], []⟩, commit := some ⟨true, ⟨3, true, [], []⟩, ⟨2, true, [], []⟩, 0⟩ } }, by decide +kernel⟩
theorem witness_InputLostReturnedAndHoldupEnd_7 : ∃ (a b new : NorCopy) (s : State), s.pow.vinLost = true ∧ openCommit true s = some (a, b, new) :=
  ⟨⟨3, true, [], []⟩, ⟨2, true, [], []⟩, ⟨4, true, [], []⟩, { ryeOn with pow := { ryeOn.pow with vinLost := true, rcbA := ⟨4, true, [], []⟩, commit := some ⟨true, ⟨3, true, [], []⟩, ⟨2, true, [], []⟩, 0⟩ } }, by decide +kernel⟩
theorem witness_InputLostReturnedAndHoldupEnd_8 : ∃ (a b new : NorCopy) (s : State), s.pow.vinLost = true ∧ openCommit false s = some (a, b, new) :=
  ⟨⟨3, true, [], []⟩, ⟨2, true, [], []⟩, ⟨4, true, [], []⟩, { ryeOn with pow := { ryeOn.pow with vinLost := true, norA := ⟨4, true, [], []⟩, commit := some ⟨false, ⟨3, true, [], []⟩, ⟨2, true, [], []⟩, 0⟩ } }, by decide +kernel⟩
theorem witness_InputLostReturnedAndHoldupEnd_9 : ∃ (a b new : NorCopy) (s : State), s.pow.vinLost = true ∧ openCommit false s = some (a, b, new) :=
  ⟨⟨3, true, [], []⟩, ⟨2, true, [], []⟩, ⟨4, true, [], []⟩, { ryeOn with pow := { ryeOn.pow with vinLost := true, norA := ⟨4, true, [], []⟩, commit := some ⟨false, ⟨3, true, [], []⟩, ⟨2, true, [], []⟩, 0⟩ } }, by decide +kernel⟩
theorem witness_InputLostReturnedAndHoldupEnd_10 : ∃ (a b : SecRecord) (at_ : Nat) (s : State), s.pow.vinLost = true ∧ s.cardamom.commit = some (a, b, at_) ∧ s.clk.cycles ≤ at_ + msCycles 25 :=
  ⟨ryeOn.cardamom.recA, ryeOn.cardamom.recB, 0, { ryeOn with pow := { ryeOn.pow with vinLost := true }, cardamom := { ryeOn.cardamom with commit := some (ryeOn.cardamom.recA, ryeOn.cardamom.recB, 0) } }, by decide +kernel⟩
theorem witness_InputLostReturnedAndHoldupEnd_11 : ∃ (a b : SecRecord) (at_ : Nat) (s : State), s.pow.vinLost = true ∧ s.cardamom.commit = some (a, b, at_) ∧ s.clk.cycles ≤ at_ + msCycles 25 :=
  ⟨ryeOn.cardamom.recA, ryeOn.cardamom.recB, 0, { ryeOn with pow := { ryeOn.pow with vinLost := true }, cardamom := { ryeOn.cardamom with commit := some (ryeOn.cardamom.recA, ryeOn.cardamom.recB, 0) } }, by decide +kernel⟩

theorem witness_LaunchToFrameStart_1 : ∃ (s : State), getN s Obj.launchAt ≠ 0 ∧ s.eng.any = false ∧ (s.part.st = .ready ∧ s.img.inForce ≠ none ∧ activating s = false ∧ s.mem.st = .ready ∧ (s.img.lostDom.get 0 = false ∨ s.img.lostDom.get 1 = false)) :=
  ⟨{ readyOn with nums := [(Obj.launchAt.key, 9)], img := { Images.init with inForce := some 0 }, mem := { Mem.init with st := .ready } }, by decide +kernel⟩
theorem witness_LaunchToFrameStart_2 : ∃ (s : State), getN s Obj.launchAt ≠ 0 ∧ s.eng.any = false ∧ (¬(s.part.st = .ready ∧ s.img.inForce ≠ none ∧ activating s = false ∧ s.mem.st = .ready ∧ (s.img.lostDom.get 0 = false ∨ s.img.lostDom.get 1 = false))) :=
  ⟨{ readyOn with nums := [(Obj.launchAt.key, 9)] }, by decide +kernel⟩
theorem witness_LaunchToFrameStart_3 : ∃ (s : State), (s.eng.any = true ∨ getN s Obj.launchAt = 0) :=
  ⟨{ runOn with eng := { Engine.init with running := true, any := true, next := 5, frame := 4 } }, by decide +kernel⟩
theorem witness_LaunchToFrameStart_4 : ∃ (s : State), getN s Obj.launchAt ≠ 0 ∧ (s.part.st = .run ∨ (s.part.st = .ready ∧ s.eng.any = false)) ∧ s.eng.cutoff = none :=
  ⟨{ readyOn with nums := [(Obj.launchAt.key, 9000)] }, by decide +kernel⟩
theorem witness_LaunchToFrameStart_5 : ∃ (s : State), s.eng.cutoff = some s.eng.next ∧ s.part.st = .run ∧ s.eng.mainDone = true ∧ runsFrame s s.eng.next = true :=
  ⟨{ runOn with eng := { Engine.init with running := true, any := true, next := 5, frame := 4, cutoff := some 5 } }, by decide +kernel⟩
theorem witness_LaunchToFrameStart_6 : ∃ (s : State), s.eng.cutoff = some s.eng.next ∧ s.part.st = .run ∧ s.eng.mainDone = true ∧ runsFrame s s.eng.next = false :=
  ⟨{ runOn with eng := { Engine.init with running := true, any := true, next := 5, frame := 4, cutoff := some 5, stopped := true } }, by decide +kernel⟩

theorem witness_RestoreAndRejoin_1 : ∃ (lostNew lostOld : Bool) (badNew badOld : List Nat) (s : State), s.part.restorePending = true ∧ s.part.st = .ready :=
  ⟨false, true, [3], [], { readyOn with part := { readyOn.part with restorePending := true }, eng := { Engine.init with bufA := some ⟨64, 0, []⟩ } }, by decide +kernel⟩
theorem witness_RestoreAndRejoin_2 : ∃ (lostNew lostOld : Bool) (badNew badOld : List Nat) (n : Nat) (c : Ckpt) (s : State), s.part.restorePending = true ∧ s.part.st = .ready ∧ newestCkpt (dropHeaders lostNew lostOld s) = some c ∧ c.entries.any (fun e => e.session == n) = false :=
  ⟨false, true, [], [], 3, ⟨64, 0, []⟩, { readyOn with part := { readyOn.part with restorePending := true }, eng := { Engine.init with bufA := some ⟨64, 0, []⟩, sess := [(3, { Sess.closed with st := .opened })] } }, by decide +kernel⟩
theorem witness_RestoreAndRejoin_3 : ∃ (lostNew lostOld : Bool) (badNew badOld : List Nat) (n : Nat) (s : State), s.part.restorePending = true ∧ s.part.st = .ready ∧ newestCkpt (dropHeaders lostNew lostOld s) = none :=
  ⟨true, true, [], [], 3, { readyOn with part := { readyOn.part with restorePending := true }, eng := { Engine.init with bufA := some ⟨64, 0, []⟩, sess := [(3, { Sess.closed with st := .opened })] } }, by decide +kernel⟩
theorem witness_RestoreAndRejoin_4 : ∃ (s : State), getN s Obj.launchAt ≠ 0 ∧ s.eng.any = true ∧ s.part.st = .ready ∧ s.part.restorePending = false ∧ s.part.restored = true ∧ activating s = false ∧ canRun s = true ∧ (getN s Obj.frameStopAt = 0 ∨ startOf s (rejoinFrame s) < getN s Obj.frameStopAt) :=
  ⟨{ readyOn with nums := [(Obj.launchAt.key, 9)], img := { Images.init with inForce := some 0 }, mem := { Mem.init with st := .ready }, part := { readyOn.part with restored := true }, eng := { Engine.init with any := true, frame := 7, next := 8 } }, by decide +kernel⟩
theorem witness_RestoreAndRejoin_5 : ∃ (s : State), getN s Obj.launchAt ≠ 0 ∧ s.eng.any = true ∧ s.part.st = .ready ∧ s.part.restorePending = false ∧ s.part.restored = true ∧ activating s = false ∧ getN s Obj.frameStopAt ≠ 0 ∧ getN s Obj.frameStopAt ≤ startOf s (rejoinFrame s) :=
  ⟨setN ({ readyOn with nums := [(Obj.launchAt.key, 9)], img := { Images.init with inForce := some 0 }, mem := { Mem.init with st := .ready }, part := { readyOn.part with restored := true }, eng := { Engine.init with any := true, frame := 7, next := 8 } }) Obj.frameStopAt 40, by decide +kernel⟩
theorem witness_RestoreAndRejoin_6 : ∃ (s : State), getN s Obj.launchAt ≠ 0 ∧ s.eng.any = true ∧ s.part.st = .ready ∧ s.part.restorePending = false ∧ s.part.restored = true ∧ activating s = false ∧ canRun s = false ∧ (getN s Obj.frameStopAt = 0 ∨ startOf s (rejoinFrame s) < getN s Obj.frameStopAt) :=
  ⟨{ readyOn with nums := [(Obj.launchAt.key, 9)], part := { readyOn.part with restored := true }, eng := { Engine.init with any := true, frame := 7, next := 8 } }, by decide +kernel⟩

theorem witness_QuarantineReleaseOutcomes_1 : ∃ (au : Auth) (a : Fin 8) (s : State), s.oda.serving = true ∧ precheck s au (Obj.quarRelease a.val).key 0 (.num 1) = 0 ∧ (s.acc.get a).quarantined = true :=
  ⟨.service, 2, updAcc 2 (fun x => { x with quarantined := true, faults := [4, 9], reqF := .off }) odaOn, by decide +kernel⟩
theorem witness_QuarantineReleaseOutcomes_2 : ∃ (au : Auth) (a : Fin 8) (s : State), s.oda.serving = true ∧ precheck s au (Obj.quarRelease a.val).key 0 (.num 1) = 0 ∧ (s.acc.get a).quarantined = false :=
  ⟨.host, 2, readyOn, by decide +kernel⟩
theorem witness_QuarantineReleaseOutcomes_3 : ∃ (au : Auth) (a : Fin 8) (s : State), s.oda.serving = true ∧ precheck s au (Obj.quarRelease a.val).key 0 (.num 1) ≠ 0 :=
  ⟨.facility, 2, updAcc 2 (fun x => { x with quarantined := true, faults := [4, 9], reqF := .off }) readyOn, by decide +kernel⟩
theorem witness_QuarantineReleaseOutcomes_4 : ∃ (a : Fin 8) (s : State), s.oda.serving = true ∧ s.bar.overrides = [] :=
  ⟨2, updAcc 2 (fun x => { x with quarantined := true, faults := [4, 9], reqF := .off }) readyOn, by decide +kernel⟩

end Sys2Proof.Tests
end

namespace Sys2Proof.Laws

open Sys2Proof.Machine

/-! ## What a command may change

An outcome within a frame is a next state that differs only in the listed parts. Its rules follow the forms in which the
model writes an outcome: a next state, a choice, the note of degradation, a dictionary write, a request, a step of a
rail sequencer. The frames of the operations inside it are the laws `keep_…`; with them, `.of_all rfl` checks by
computation that the parts an operation may change are listed. -/

/-- The outcome is a next state with the property. -/
def EndsIn (P : State → Prop) (o : Out) : Prop := ∃ t, o = .next t ∧ P t

/-- The outcome is a next state in which only the listed parts may differ from s. -/
def EndsWithin (L : List Area) (s : State) (o : Out) : Prop := EndsIn (Only L s) o

theorem Covers.of_all {l L : List Area} (h : l.all (fun a => decide (a ∈ L)) = true) : Covers l L :=
  fun a ha => of_decide_eq_true (List.all_eq_true.mp h a ha)

theorem keep_part_port {L : List Area} {s0 s : State} (x : Part) (p : Ports) (hL : Covers [.part, .port] L)
    (h : Only L s0 s) : Only L s0 { s with part := x, port := p } :=
  keep_mk_port (s := { s with part := x }) p (covers_sub hL (by decide)) (keep_mk_part x (covers_sub hL (by decide)) h)

theorem EndsIn.next {P : State → Prop} {t : State} (h : P t) : EndsIn P (.next t) := ⟨t, rfl, h⟩

theorem EndsIn.ite {P : State → Prop} {c : Prop} [Decidable c] {a b : Out} (ha : EndsIn P a) (hb : EndsIn P b) :
    EndsIn P (if c then a else b) := by
  split
  · exact ha
  · exact hb

theorem EndsIn.noted {P : State → Prop} {o : Out} (hP : ∀ t, P t → P (noteDegraded t)) (h : EndsIn P o) :
    EndsIn P (noted o) := by
  obtain ⟨t, rfl, ht⟩ := h
  exact .next (hP t ht)

theorem EndsWithin.next {L : List Area} {s t : State} (h : Only L s t) : EndsWithin L s (.next t) := EndsIn.next h

theorem EndsWithin.same {L : List Area} {s : State} : EndsWithin L s (.next s) := .next (only_refl L s)

theorem EndsWithin.ite {L : List Area} {s : State} {c : Prop} [Decidable c] {a b : Out} (ha : EndsWithin L s a)
    (hb : EndsWithin L s b) : EndsWithin L s (if c then a else b) := EndsIn.ite ha hb

theorem EndsWithin.noted {L : List Area} {s : State} {o : Out} (hL : Covers [.part, .ev, .nut] L)
    (h : EndsWithin L s o) : EndsWithin L s (noted o) := EndsIn.noted (fun _ => keep_noteDegraded hL) h

theorem EndsWithin.writeStep {L : List Area} {s : State} {au : Auth} {key : Nat} {v : Value} {home : State → Nat}
    {eff : Count → State → State} (he : ∀ c u, Only L s u → Only L s (eff c u)) (hL : Covers [.clk, .oda] L) :
    EndsWithin L s (.next (writeStep au key v home eff s)) :=
  .next (keep_writeStep au key v home eff he hL (only_refl L s))

theorem EndsWithin.request {L : List Area} {s : State} {n txn op steps : Nat} {body : ReqBody}
    {formOk recorded inLedger : Bool} {go : Pending → State → State}
    (hg : ∀ p u, Only L s u → Only L s (go p u)) (hL : Covers [.nums, .ev, .nut, .oda, .port] L) :
    EndsWithin L s (.next (request n txn op steps body formOk recorded inLedger go s)) :=
  .next (keep_request n txn op steps body formOk recorded inLedger go hg hL (only_refl L s))

theorem EndsWithin.atStep {L : List Area} {s : State} {q : Fin 9} {ty : Nat} {f : Nat → State → State}
    (hf : ∀ w u, Only L s u → Only L s (f w u)) (hL : Covers [.clk] L) : EndsWithin L s (atStep q ty f s) := by
  unfold Machine.atStep
  split
  · exact .same
  · exact .ite (.next (hf _ _ (keep_tickTo _ hL (only_refl L s)))) .same

/-! ## The frame of each command, in the order of the table -/

/-! ### The input power and the Straw values (chapters 01, 07) -/

theorem execRyeRelease_endsWithin (seated enabled thermtrip : Nat) (s : State) :
    EndsWithin (touches (.ryeRelease seated enabled thermtrip)) s (execRyeRelease seated enabled thermtrip s) :=
  .ite (.next (keep_ryeStart _ _ _ (.of_all rfl) (only_refl _ _))) .same

theorem execHoldupFail_endsWithin (s : State) : EndsWithin (touches .holdupFail) s (execHoldupFail s) :=
  .ite (.next (keep_setPow _ (.of_all rfl) (only_refl _ _))) .same

theorem execHoldupEnd_endsWithin (torn : Torn) (s : State) :
    EndsWithin (touches (.holdupEnd torn)) s (execHoldupEnd torn s) :=
  .ite (.next (keep_powerOff (.of_all rfl) (keep_tearCommit _ (.of_all rfl) (only_refl _ _)))) .same

theorem execVinLost_endsWithin (v : Rat) (s : State) : EndsWithin (touches (.vinLost v)) s (execVinLost v s) :=
  .ite (.next (keep_setPow _ (.of_all rfl) (only_refl _ _))) .same

theorem execCoarseTimekeeping_endsWithin (s : State) :
    EndsWithin (touches .coarseTimekeeping) s (execCoarseTimekeeping s) :=
  .ite (.next (keep_setClk _ (.of_all rfl) (only_refl _ _))) .same

theorem execVinStable_endsWithin (v : Rat) (s : State) : EndsWithin (touches (.vinStable v)) s (execVinStable v s) :=
  .ite .same (.next (keep_notePump (.of_all rfl) (keep_setPow _ (.of_all rfl)
    (keep_tickTo _ (.of_all rfl) (only_refl _ _)))))

theorem execVinLow_endsWithin (v : Rat) (since : Nat) (s : State) :
    EndsWithin (touches (.vinLow v since)) s (execVinLow v since s) := by
  unfold execVinLow
  refine .ite .same ?_
  extract_lets +onlyGivenNames s0 s1 s2
  have hs2 : Only (touches (.vinLow v since)) s s2 := only_forAll _ _ (fun _ _ => keep_trigger _ _ _ (.of_all rfl))
    (keep_raiseRye _ _ _ (.of_all rfl) (keep_notePump (.of_all rfl)
    (keep_setPow _ (.of_all rfl) (keep_stands _ _ (.of_all rfl) (only_refl _ _)))))
  exact .ite (.next (keep_enterBr _ _ _ (.of_all rfl) hs2)) (.next hs2)

theorem execVinLowSelfDown_endsWithin (s : State) : EndsWithin (touches .vinLowSelfDown) s
    (execVinLowSelfDown s) := by
  unfold execVinLowSelfDown
  refine .noted (.of_all rfl) ?_
  refine .ite ?_ (.ite (.next (keep_selfDown _ _ (.of_all rfl)
    (keep_standsFrom _ _ (.of_all rfl) (only_refl _ _)))) .same)
  refine .ite ?_ .same
  extract_lets +onlyGivenNames s0
  have hs0 : Only (touches .vinLowSelfDown) s s0 := keep_tickTo _ (.of_all rfl) (only_refl _ _)
  exact .ite (.next (keep_b0Open (.of_all rfl) hs0)) (.next (keep_selfDown _ _ (.of_all rfl) hs0))

theorem execVinReturn_endsWithin (v : Rat) (s : State) : EndsWithin (touches (.vinReturn v)) s (execVinReturn v s) :=
  .ite (.next (keep_setPow _ (.of_all rfl) (only_refl _ _))) .same

theorem execB0UndervoltageOff_endsWithin (v : Rat) (s : State) :
    EndsWithin (touches (.b0UndervoltageOff v)) s (execB0UndervoltageOff v s) :=
  .ite (.next (keep_b0Open (.of_all rfl) (keep_setPow _ (.of_all rfl) (only_refl _ _)))) .same

theorem execInputLossCommit_endsWithin (s : State) : EndsWithin (touches .inputLossCommit) s
    (execInputLossCommit s) :=
  .ite (.next (keep_startLoss (.of_all rfl) (keep_tickTo _ (.of_all rfl) (only_refl _ _)))) .same

theorem execInputLossCommitEnd_endsWithin (written : Nat) (s : State) :
    EndsWithin (touches (.inputLossCommitEnd written)) s (execInputLossCommitEnd written s) := by
  unfold execInputLossCommitEnd
  split
  · exact .same
  · exact .next (keep_setPow _ (.of_all rfl) (keep_endLoss _ (.of_all rfl)
      (only_ite (fun _ => only_refl _ _) (fun _ => keep_tickTo _ (.of_all rfl) (only_refl _ _)))))

theorem execVinOv_endsWithin (v : Rat) (since : Nat) (s : State) :
    EndsWithin (touches (.vinOv v since)) s (execVinOv v since s) := by
  unfold execVinOv
  refine .ite .same ?_
  extract_lets +onlyGivenNames s0 s1
  have hs1 : Only (touches (.vinOv v since)) s s1 := keep_notePump (.of_all rfl)
    (keep_raiseRye _ _ _ (.of_all rfl) (keep_setPow _ (.of_all rfl) (keep_stands _ _ (.of_all rfl) (only_refl _ _))))
  exact .ite (.next (keep_enterBr _ _ _ (.of_all rfl) hs1)) (.next hs1)

theorem execStrawValueReceived_endsWithin (k : StrawKey) (s : State) :
    EndsWithin (touches (.strawValueReceived k)) s (execStrawValueReceived k s) := by
  unfold execStrawValueReceived
  split
  · exact .next (keep_deliverAnt _ (.of_all rfl) (only_refl _ _))
  · exact .next (keep_receiveCurve _ (.of_all rfl) (only_refl _ _))
  · exact .next (keep_receiveOut _ (.of_all rfl) (only_refl _ _))

theorem execStrawDeadlineExpired_endsWithin (k : StrawKey) (s : State) :
    EndsWithin (touches (.strawDeadlineExpired k)) s (execStrawDeadlineExpired k s) :=
  match k with
  | .ant _ => .ite .same (.ite (.next (keep_reachCount _ (.of_all rfl) (only_refl _ _)))
    (.next (keep_setAni _ (.of_all rfl) (keep_reachCount _ (.of_all rfl) (only_refl _ _)))))
  | .curve _ => .ite .same (.ite (.next (keep_applyCurve _ (.of_all rfl)
    (keep_tickTo _ (.of_all rfl) (only_refl _ _)))) (.next (keep_updBr _ _ (.of_all rfl)
    (keep_tickTo _ (.of_all rfl) (only_refl _ _)))))
  | .output _ => .ite .same (.next (keep_settleOut _ (.of_all rfl)
    (keep_updOut _ _ (.of_all rfl) (keep_tickTo _ (.of_all rfl) (only_refl _ _)))))

theorem execCurveApply_endsWithin (s : State) : EndsWithin (touches .curveApply) s (execCurveApply s) := by
  unfold execCurveApply
  refine .ite .same ?_
  refine .next (only_forAll _ _ (fun o u h => ?_) (only_forAll _ _ (fun _ _ => keep_applyCurve _ (.of_all rfl))
    (keep_reachCount _ (.of_all rfl) (only_refl _ _))))
  split
  · exact keep_applyOut _ _ (.of_all rfl) h
  · exact h

/-! ### The start of the part -/

theorem execPufAttemptDone_endsWithin (ok : Bool) (s : State) :
    EndsWithin (touches (.pufAttemptDone ok)) s (execPufAttemptDone ok s) := by
  unfold execPufAttemptDone
  refine .noted (.of_all rfl) ?_
  refine .ite .same ?_
  refine .ite (.next (keep_setPart _ (.of_all rfl) (keep_setSec _ (.of_all rfl) (only_refl _ _)))) ?_
  refine .ite (.next (keep_setSec _ (.of_all rfl) (only_refl _ _))) ?_
  refine .ite (.next (keep_setSec _ (.of_all rfl) (only_refl _ _))) ?_
  exact .next (keep_bootFails (.of_all rfl) (keep_raiseMain _ _ _ (.of_all rfl)
    (keep_setSec _ (.of_all rfl) (only_refl _ _))))

theorem execKeyDerivationDone_endsWithin (s : State) :
    EndsWithin (touches .keyDerivationDone) s (execKeyDerivationDone s) := by
  unfold execKeyDerivationDone
  refine .noted (.of_all rfl) ?_
  refine .ite .same ?_
  extract_lets +onlyGivenNames s1
  have hs1 : Only (touches .keyDerivationDone) s s1 := keep_setSec _ (.of_all rfl) (only_refl _ _)
  split
  · exact .next (keep_bootFails (.of_all rfl) (keep_raiseMain _ _ _ (.of_all rfl) (keep_setSec _ (.of_all rfl) hs1)))
  · exact .next (keep_setPart _ (.of_all rfl) (keep_logMeas _ _ _ (.of_all rfl)
      (keep_logMeas _ _ _ (.of_all rfl) (keep_logMeas _ _ _ (.of_all rfl)
      (keep_commitRec _ (.of_all rfl) (keep_setSec _ (.of_all rfl) hs1))))))

theorem execFirmwareStreamDone_endsWithin (read : Option (List Byte)) (s : State) :
    EndsWithin (touches (.firmwareStreamDone read)) s (execFirmwareStreamDone read s) := by
  unfold execFirmwareStreamDone
  refine .noted (.of_all rfl) ?_
  refine .ite .same ?_
  split
  · exact .next (keep_slotFails (.of_all rfl) (only_refl _ _))
  · refine .ite (.next (keep_slotFails (.of_all rfl) (only_refl _ _))) ?_
    exact .ite (.next (keep_bootFails (.of_all rfl) (only_refl _ _)))
      (.next (keep_releaseFw _ (.of_all rfl) (only_refl _ _)))

theorem execLpddr4xTrainingDone_endsWithin (ok : Bool) (s : State) :
    EndsWithin (touches (.lpddr4xTrainingDone ok)) s (execLpddr4xTrainingDone ok s) := by
  unfold execLpddr4xTrainingDone
  refine .ite .same ?_
  exact .next (keep_setPart _ (.of_all rfl) (keep_setMem _ (.of_all rfl)
    (only_ite (fun _ => only_refl _ _) (fun _ => keep_memEmpty (.of_all rfl) (only_refl _ _)))))

theorem execPartReady_endsWithin (s : State) : EndsWithin (touches .partReady) s (execPartReady s) :=
  .ite .same (.next (keep_readyUp (.of_all rfl) (only_refl _ _)))

theorem execTileSelfTestDone_endsWithin (t : Fin 68) (pass : Bool) (s : State) :
    EndsWithin (touches (.tileSelfTestDone t pass)) s (execTileSelfTestDone t pass s) := by
  unfold execTileSelfTestDone
  refine .ite .same ?_
  refine .ite (.next (keep_tested _ _ (.of_all rfl) (only_refl _ _))) ?_
  refine .ite (.next (keep_tested _ _ (.of_all rfl) (only_refl _ _))) ?_
  refine .ite (.next (keep_noteDegraded (.of_all rfl) (keep_tested _ _ (.of_all rfl)
    (keep_markFailed _ (.of_all rfl) (only_refl _ _))))) ?_
  exact .next (keep_noteDegraded (.of_all rfl) (keep_tested _ _ (.of_all rfl)
    (keep_gateTile _ _ (.of_all rfl) (only_refl _ _))))

/-! ### The counter (chapter 02) -/

theorem execPtpMeasurement_endsWithin (p : Fin 2) (x : PtpIn) (freq : Int) (s : State) :
    EndsWithin (touches (.ptpMeasurement p x freq)) s (execPtpMeasurement p x freq s) := by
  unfold execPtpMeasurement
  refine .ite .same ?_
  extract_lets +onlyGivenNames s1
  have hs1 : Only (touches (.ptpMeasurement p x freq)) s s1 := keep_hearSync _ _ (.of_all rfl) (only_refl _ _)
  refine .ite (.next (keep_noteDegraded (.of_all rfl) hs1)) ?_
  extract_lets +onlyGivenNames s2
  have hs2 : Only (touches (.ptpMeasurement p x freq)) s s2 := keep_setClk _ (.of_all rfl) hs1
  exact .ite (.next (keep_noteDegraded (.of_all rfl) hs2)) (.next
    (keep_noteDegraded (.of_all rfl) (keep_measure _ _ (.of_all rfl) hs2)))

theorem execSyncInEdge_endsWithin (count : Nat) (freq : Int) (s : State) :
    EndsWithin (touches (.syncInEdge count freq)) s (execSyncInEdge count freq s) := by
  unfold execSyncInEdge
  refine .ite .same ?_
  refine .ite ?_ ?_
  · extract_lets +onlyGivenNames s1
    have hs1 : Only (touches (.syncInEdge count freq)) s s1 := keep_setClk _ (.of_all rfl) (only_refl _ _)
    exact .next (only_ite (fun _ => keep_raiseMain _ _ _ (.of_all rfl) (keep_setClk _ (.of_all rfl) hs1))
      (fun _ => hs1))
  · extract_lets +onlyGivenNames n alone s1
    have hs1 : Only (touches (.syncInEdge count freq)) s s1 := keep_setClk _ (.of_all rfl) (only_refl _ _)
    refine .ite (.next hs1) ?_
    exact .next (keep_noteDegraded (.of_all rfl) (keep_measure _ _ (.of_all rfl)
      (only_ite (fun _ => keep_setClk _ (.of_all rfl) hs1) (fun _ => hs1))))

theorem execSyncOutEdge_endsWithin (s : State) : EndsWithin (touches .syncOutEdge) s (execSyncOutEdge s) := by
  unfold execSyncOutEdge
  refine .ite .same ?_
  exact .ite (.next (keep_setClk _ (.of_all rfl) (keep_reachCount _ (.of_all rfl) (only_refl _ _))))
    (.ite (.next (keep_setClk _ (.of_all rfl) (only_refl _ _))) .same)

theorem execMeasurementTimeout_endsWithin (s : State) :
    EndsWithin (touches .measurementTimeout) s (execMeasurementTimeout s) := by
  unfold execMeasurementTimeout
  split
  · exact .same
  · exact .ite (.next (keep_noteDegraded (.of_all rfl) (keep_setClk _ (.of_all rfl)
      (keep_tickTo _ (.of_all rfl) (only_refl _ _))))) .same

theorem execTimeHoldoverExpired_endsWithin (s : State) :
    EndsWithin (touches .timeHoldoverExpired) s (execTimeHoldoverExpired s) := by
  unfold execTimeHoldoverExpired
  split
  · exact .same
  · refine .ite ?_ .same
    exact .next (keep_noteDegraded (.of_all rfl) (keep_raiseMain _ _ _ (.of_all rfl)
      (keep_setClk _ (.of_all rfl) (keep_tickTo _ (.of_all rfl) (only_refl _ _)))))

theorem execTimeSourceChanged_endsWithin (au : Auth) (v : Nat) (s : State) :
    EndsWithin (touches (.timeSourceChanged au v)) s (execTimeSourceChanged au v s) :=
  .next (keep_noteDegraded (.of_all rfl) (keep_writeStep _ _ _ _ _
    (fun _ _ => keep_timeSourceEffect _ _ (.of_all rfl)) (.of_all rfl) (only_refl _ _)))

theorem execTimeSet_endsWithin (au : Auth) (v : Nat) (s : State) :
    EndsWithin (touches (.timeSet au v)) s (execTimeSet au v s) :=
  .next (keep_noteDegraded (.of_all rfl) (keep_writeStep _ _ _ _ _
    (fun _ _ => keep_timeSetEffect _ _ (.of_all rfl)) (.of_all rfl) (only_refl _ _)))

/-! ### Frames and the engine (chapters 02 to 04) -/

theorem execLaunchAt_endsWithin (au : Auth) (v : Nat) (s : State) :
    EndsWithin (touches (.launchAt au v)) s (execLaunchAt au v s) :=
  .writeStep (fun _ _ => keep_launchEffect _ _ (.of_all rfl)) (.of_all rfl)

theorem execFrameStopAt_endsWithin (au : Auth) (v : Nat) (s : State) :
    EndsWithin (touches (.frameStopAt au v)) s (execFrameStopAt au v s) :=
  .next (keep_noteDegraded (.of_all rfl) (keep_writeStep _ _ _ _ _
    (fun _ _ => keep_frameStopEffect _ _ (.of_all rfl)) (.of_all rfl) (only_refl _ _)))

theorem execLaunch_endsWithin (s : State) : EndsWithin (touches .launch) s (execLaunch s) := by
  unfold execLaunch
  refine .ite .same ?_
  extract_lets +onlyGivenNames s1
  have hs1 : Only (touches .launch) s s1 := keep_reachCount _ (.of_all rfl) (only_refl _ _)
  refine .ite (.next (keep_noteDegraded (.of_all rfl) (keep_enterRun (.of_all rfl)
    (keep_newNumbers (.of_all rfl) (keep_leaveReplay (.of_all rfl) hs1))))) ?_
  exact .next (keep_missLaunch (.of_all rfl) hs1)

theorem execFrameCutoff_endsWithin (s : State) : EndsWithin (touches .frameCutoff) s (execFrameCutoff s) :=
  .ite (.next (keep_cutoffFrame (.of_all rfl) (keep_reachCount _ (.of_all rfl) (only_refl _ _)))) .same

theorem execFrameStart_endsWithin (s : State) : EndsWithin (touches .frameStart) s (execFrameStart s) := by
  unfold execFrameStart
  split
  · exact .same
  · refine .ite .same ?_
    extract_lets +onlyGivenNames s1
    have hs1 : Only (touches .frameStart) s s1 := keep_reachCount _ (.of_all rfl) (only_refl _ _)
    exact .next (keep_noteDegraded (.of_all rfl) (only_ite (fun _ => keep_runFrame _ (.of_all rfl) hs1)
      (fun _ => keep_skipFrame _ (.of_all rfl) hs1)))

theorem execP0Emit_endsWithin (s : State) : EndsWithin (touches .p0Emit) s (execP0Emit s) := by
  unfold execP0Emit
  refine .ite .same ?_
  exact .next (keep_signalCell _ _ (.of_all rfl) (keep_setEng _ (.of_all rfl)
    (keep_notePresent (.of_all rfl) (only_forEach _ _ (fun _ _ => keep_emitIdle _ _ (.of_all rfl))
    (only_forEach _ _ (fun _ _ => keep_emitOne _ _ _ (.of_all rfl)) (keep_atP0Emit (.of_all rfl) (only_refl _ _)))))))

theorem execMainEmit_endsWithin (s : State) : EndsWithin (touches .mainEmit) s (execMainEmit s) := by
  unfold execMainEmit
  refine .ite .same ?_
  exact .next (keep_noteDegraded (.of_all rfl) (keep_endFrame _ (.of_all rfl)
    (keep_runTo _ (.of_all rfl) (keep_signalCell _ _ (.of_all rfl)
    (keep_setEng _ (.of_all rfl) (only_forEach _ _ (fun _ _ => keep_publish _ _ (.of_all rfl))
    (only_forEach _ _ (fun _ _ => keep_emitOne _ _ _ (.of_all rfl))
    (keep_atMainEmit (.of_all rfl) (only_refl _ _)))))))))

theorem execCheckpointCommit_endsWithin (s : State) :
    EndsWithin (touches .checkpointCommit) s (execCheckpointCommit s) :=
  .noted (.of_all rfl) (.next (keep_commitCkpt (.of_all rfl) (only_refl _ _)))

theorem execSampleArrival_endsWithin (source arrival : Nat) (kept : Bool) (x : RawSample) (s : State) :
    EndsWithin (touches (.sampleArrival source arrival kept x)) s (execSampleArrival source arrival kept x s) := by
  unfold execSampleArrival
  extract_lets +onlyGivenNames s0
  have hs0 : Only (touches (.sampleArrival source arrival kept x)) s s0 := only_ite
    (fun _ => keep_seeConversion _ _ (.of_all rfl) (only_refl _ _)) (fun _ => only_refl _ _)
  refine .ite ?_ (.next hs0)
  split
  · exact .next (only_ite (fun _ => keep_arriveSample _ _ _ _ _ _ (.of_all rfl) hs0)
      (fun _ => keep_arriveSample _ _ _ _ _ _ (.of_all rfl) hs0))
  · exact .next hs0

theorem execEventNumbered_endsWithin (s : State) : EndsWithin (touches .eventNumbered) s (execEventNumbered s) := by
  unfold execEventNumbered
  refine .ite .same ?_
  split
  · exact .same
  · extract_lets +onlyGivenNames s1 q _ s2
    have hs2 : Only (touches .eventNumbered) s s2 := keep_mk_ev _ (.of_all rfl)
      (keep_reachCount _ (.of_all rfl) (only_refl _ _))
    exact .next (only_forEach _ _ (fun _ _ => keep_deliverRec _ _ _ (.of_all rfl)) hs2)

theorem execEngineRejoin_endsWithin (s : State) : EndsWithin (touches .engineRejoin) s (execEngineRejoin s) := by
  unfold execEngineRejoin
  refine .ite .same ?_
  refine .ite (.next (keep_clearLaunch (.of_all rfl) (keep_countSkipped _ (.of_all rfl) (only_refl _ _)))) ?_
  refine .ite (.next (keep_clearLaunch (.of_all rfl) (keep_missLaunch (.of_all rfl)
    (keep_reachCount _ (.of_all rfl) (keep_countSkipped _ (.of_all rfl) (only_refl _ _)))))) ?_
  exact .next (keep_noteDegraded (.of_all rfl) (keep_mk_part _ (.of_all rfl)
    (keep_enterRun (.of_all rfl) (keep_reachCount _ (.of_all rfl)
    (keep_cutoffFrame (.of_all rfl) (keep_reachCount _ (.of_all rfl)
    (keep_readyRejoin _ (.of_all rfl) (only_refl _ _))))))))

theorem execCheckpointRestoreDone_endsWithin (lostNew lostOld : Bool) (badNew badOld : List Nat) (s : State) :
    EndsWithin (touches (.checkpointRestoreDone lostNew lostOld badNew badOld)) s
      (execCheckpointRestoreDone lostNew lostOld badNew badOld s) := by
  unfold execCheckpointRestoreDone
  refine .noted (.of_all rfl) ?_
  refine .ite .same ?_
  extract_lets +onlyGivenNames s1
  have hs1 : Only (touches (.checkpointRestoreDone lostNew lostOld badNew badOld)) s s1 :=
    keep_dropHeaders _ _ (.of_all rfl) (only_refl _ _)
  split
  · exact .next (keep_mk_part _ (.of_all rfl) (keep_raiseMain _ _ _ (.of_all rfl) (keep_mapSess _ (.of_all rfl) hs1)))
  · exact .next (keep_mk_part _ (.of_all rfl) (keep_restoreRecords _ _ (.of_all rfl)
      (keep_restoreTable _ _ (.of_all rfl) (only_forEach _ _ (fun _ _ => keep_raiseMain _ _ _ (.of_all rfl)) hs1))))

theorem execCorrectedError_endsWithin (t : Fin 68) (s : State) :
    EndsWithin (touches (.correctedError t)) s (execCorrectedError t s) := by
  unfold execCorrectedError
  extract_lets +onlyGivenNames s1 at_ s2
  have hs2 : Only (touches (.correctedError t)) s s2 := keep_updTile _ _ (.of_all rfl)
    (keep_inc32 _ (.of_all rfl) (only_refl _ _))
  exact .next (only_ite (fun _ => keep_tileFails _ (.of_all rfl) hs2) (fun _ => hs2))

theorem execUncorrectableWord_endsWithin (t : Fin 68) (offset : Nat) (beat bundle : Bool) (s : State) :
    EndsWithin (touches (.uncorrectableWord t offset beat bundle)) s
      (execUncorrectableWord t offset beat bundle s) := by
  unfold execUncorrectableWord
  extract_lets +onlyGivenNames n near s1 hit s2 s3 s4 s5
  have hs4 : Only (touches (.uncorrectableWord t offset beat bundle)) s s4 := keep_ringTrigger _ (.of_all rfl)
    (only_forEach _ _ (fun _ _ => keep_hitSession _ _ (.of_all rfl))
    (keep_markUncorrectable (.of_all rfl) (keep_markError _ _ _ _ (.of_all rfl)
    (keep_updTile _ _ (.of_all rfl) (keep_inc32 _ (.of_all rfl) (only_refl _ _))))))
  have hs5 : Only (touches (.uncorrectableWord t offset beat bundle)) s s5 := keep_raiseMain _ _ _ (.of_all rfl)
    (only_ite (fun _ => hs4) (fun _ => keep_tileFails _ (.of_all rfl) hs4))
  exact .next (keep_noteDegraded (.of_all rfl) (only_ite (fun _ => keep_beatCheck _ (.of_all rfl) hs5)
    (fun _ => hs5)))

theorem execTileRetiredSet_endsWithin (au : Auth) (t : Fin 68) (s : State) :
    EndsWithin (touches (.tileRetiredSet au t)) s (execTileRetiredSet au t s) :=
  .noted (.of_all rfl) (.writeStep (fun _ _ h => keep_tileFails _ (.of_all rfl)
    (keep_storeNum _ _ (.of_all rfl) h)) (.of_all rfl))

theorem execTileRetiredClear_endsWithin (au : Auth) (t : Fin 68) (s : State) :
    EndsWithin (touches (.tileRetiredClear au t)) s (execTileRetiredClear au t s) :=
  .noted (.of_all rfl) (.writeStep (fun _ _ h => only_ite (fun _ => keep_retestTile _ (.of_all rfl)
    (keep_storeNum _ _ (.of_all rfl) h)) (fun _ => keep_storeNum _ _ (.of_all rfl) h)) (.of_all rfl))

theorem execStagingTimeout_endsWithin (t : Fin 68) (s : State) :
    EndsWithin (touches (.stagingTimeout t)) s (execStagingTimeout t s) := by
  unfold execStagingTimeout
  split
  · exact .same
  · extract_lets +onlyGivenNames s1
    have hs1 : Only (touches (.stagingTimeout t)) s s1 := keep_advance _ (.of_all rfl)
      (keep_tickTo _ (.of_all rfl) (only_refl _ _))
    split
    · exact .next hs1
    · split
      · exact .ite (.next (keep_endRun _ (.of_all rfl) (keep_haltChan _ _ _ _ _ (.of_all rfl)
          (keep_updTile _ _ (.of_all rfl) hs1)))) (.next hs1)
      · exact .next hs1

/-! ### Sessions, models and the ring (chapters 04, 05) -/

theorem execSessionOpenRequest_endsWithin (au : Auth) (n : Fin 10240) (d : Desc) (s : State) :
    EndsWithin (touches (.sessionOpenRequest au n d)) s (execSessionOpenRequest au n d s) :=
  .next (keep_writeDesc _ _ _ _ (.of_all rfl) (only_refl _ _))

theorem execSessionCloseRequest_endsWithin (au : Auth) (n : Fin 10240) (d : Desc) (s : State) :
    EndsWithin (touches (.sessionCloseRequest au n d)) s (execSessionCloseRequest au n d s) :=
  .next (keep_writeDesc _ _ _ _ (.of_all rfl) (only_refl _ _))

theorem execModelLoadDone_endsWithin (done : Bool) (s : State) :
    EndsWithin (touches (.modelLoadDone done)) s (execModelLoadDone done s) := by
  unfold execModelLoadDone
  split
  · exact .same
  · refine .ite .same ?_
    refine .ite .same ?_
    extract_lets +onlyGivenNames next s0 _ s1
    have hs0 : Only (touches (.modelLoadDone done)) s s0 := only_ite
      (fun _ => keep_seqFinish _ (.of_all rfl) (only_refl _ _))
      (fun _ => keep_seqHalt _ _ (.of_all rfl) (only_refl _ _))
    have hs1 : Only (touches (.modelLoadDone done)) s s1 := by
      unfold s1
      split
      · exact keep_mk_eng _ (.of_all rfl) hs0
      · exact keep_seqStart _ _ (.of_all rfl) (keep_mk_eng _ (.of_all rfl) hs0)
    refine .ite (.next (keep_mapSess _ (.of_all rfl) (only_forEach _ _
      (fun _ _ h => keep_placeWeights _ _ (.of_all rfl) (keep_fillSlot _ _ (.of_all rfl) h)) hs1))) ?_
    exact .next (only_forEach _ _ (fun _ _ h => keep_raiseMain _ _ _ (.of_all rfl) (keep_updSess _ _ (.of_all rfl) h))
      (only_forEach _ _ (fun _ _ h => keep_raiseMain _ _ _ (.of_all rfl) (keep_updSess _ _ (.of_all rfl) h)) hs1))

theorem execCodebookWrite_endsWithin (au : Auth) (c : Fin 4096) (bytes : List Byte) (s : State) :
    EndsWithin (touches (.codebookWrite au c bytes)) s (execCodebookWrite au c bytes s) :=
  .writeStep (fun _ _ => keep_codebookEffect _ _ _ (.of_all rfl)) (.of_all rfl)

theorem execModelImageWrite_endsWithin (au : Auth) (m : Fin 4096) (bytes : List Byte) (s : State) :
    EndsWithin (touches (.modelImageWrite au m bytes)) s (execModelImageWrite au m bytes s) :=
  .writeStep (fun _ _ => keep_modelEffect _ _ _ (.of_all rfl)) (.of_all rfl)

theorem execModelVerified_endsWithin (m : Fin 4096) (s : State) :
    EndsWithin (touches (.modelVerified m)) s (execModelVerified m s) := by
  unfold execModelVerified
  split
  · exact .ite (.ite (.next (keep_mk_eng _ (.of_all rfl) (only_refl _ _)))
      (.next (keep_mk_eng _ (.of_all rfl) (only_refl _ _)))) .same
  · exact .same

theorem execRingFreeze_endsWithin (au : Auth) (s : State) :
    EndsWithin (touches (.ringFreeze au)) s (execRingFreeze au s) :=
  .writeStep (fun _ _ => keep_freezeRing (.of_all rfl)) (.of_all rfl)

theorem execRingResume_endsWithin (au : Auth) (s : State) :
    EndsWithin (touches (.ringResume au)) s (execRingResume au s) :=
  .writeStep (fun _ _ => keep_resumeRing (.of_all rfl)) (.of_all rfl)

theorem execPostTriggerExpiry_endsWithin (s : State) :
    EndsWithin (touches .postTriggerExpiry) s (execPostTriggerExpiry s) := by
  unfold execPostTriggerExpiry
  split
  · exact .same
  · exact .next (keep_freezeRing (.of_all rfl) (keep_tickTo _ (.of_all rfl) (only_refl _ _)))

theorem execFreezeMaxExpiry_endsWithin (s : State) :
    EndsWithin (touches .freezeMaxExpiry) s (execFreezeMaxExpiry s) := by
  unfold execFreezeMaxExpiry
  split
  · exact .same
  · exact .next (keep_resumeRing (.of_all rfl) (keep_tickTo _ (.of_all rfl) (only_refl _ _)))

theorem execLongCaptureWrite_endsWithin (au : Auth) (bytes : List Byte) (s : State) :
    EndsWithin (touches (.longCaptureWrite au bytes)) s (execLongCaptureWrite au bytes s) :=
  .writeStep (fun _ _ => keep_longCaptureEffect _ _ (.of_all rfl)) (.of_all rfl)

theorem execReplayStart_endsWithin (au : Auth) (s : State) :
    EndsWithin (touches (.replayStart au)) s (execReplayStart au s) :=
  .writeStep (fun _ _ => keep_replayCtrlEffect _ (.of_all rfl)) (.of_all rfl)

theorem execReplayAbort_endsWithin (au : Auth) (s : State) :
    EndsWithin (touches (.replayAbort au)) s (execReplayAbort au s) :=
  .writeStep (fun _ _ => keep_replayCtrlEffect _ (.of_all rfl)) (.of_all rfl)

theorem execReplayFrame_endsWithin (s : State) : EndsWithin (touches .replayFrame) s (execReplayFrame s) := by
  unfold execReplayFrame
  refine .ite .same ?_
  split
  · exact .next (keep_endReplay _ (.of_all rfl) (only_refl _ _))
  · extract_lets +onlyGivenNames f full s1 ck s2
    have hs1 : Only (touches .replayFrame) s s1 := keep_incMax _ _ _ (.of_all rfl)
      (keep_replayFrame _ _ (.of_all rfl) (only_refl _ _))
    have hs2 : Only (touches .replayFrame) s s2 := by
      unfold s2
      cases ck with
      | some k => exact keep_replayCkpt _ (.of_all rfl) hs1
      | none => exact hs1
    exact .ite (.next (keep_endReplay _ (.of_all rfl) (keep_setN _ _ (.of_all rfl)
      (keep_setN _ _ (.of_all rfl) hs2)))) (.ite (.next (keep_endReplay _ (.of_all rfl) hs2)) (.next hs2))

/-! ### Schedule images (chapter 06) -/

theorem execSchedImageWrite_endsWithin (au : Auth) (i : Fin 4) (bytes : List Byte) (s : State) :
    EndsWithin (touches (.schedImageWrite au i bytes)) s (execSchedImageWrite au i bytes s) :=
  .writeStep (fun _ _ => keep_imageEffect _ _ _ (.of_all rfl)) (.of_all rfl)

theorem execSchedImageChecked_endsWithin (i : Fin 4) (s : State) :
    EndsWithin (touches (.schedImageChecked i)) s (execSchedImageChecked i s) :=
  .ite .same (.next (keep_setN _ _ (.of_all rfl) (keep_setImg _ (.of_all rfl) (only_refl _ _))))

theorem execImageArm_endsWithin (au : Auth) (i : Fin 4) (s : State) :
    EndsWithin (touches (.imageArm au i)) s (execImageArm au i s) :=
  .writeStep (fun _ _ => keep_armEffect _ _ (.of_all rfl)) (.of_all rfl)

theorem execImageDisarm_endsWithin (au : Auth) (s : State) :
    EndsWithin (touches (.imageDisarm au)) s (execImageDisarm au s) :=
  .writeStep (fun _ _ => keep_unarm (.of_all rfl)) (.of_all rfl)

theorem execReadyActivationDone_endsWithin (s : State) :
    EndsWithin (touches .readyActivationDone) s (execReadyActivationDone s) := by
  unfold execReadyActivationDone
  refine .noted (.of_all rfl) ?_
  split
  · refine .ite .same ?_
    extract_lets +onlyGivenNames hot s1
    have hs1 : Only (touches .readyActivationDone) s s1 := keep_takeForce _ _ (.of_all rfl) (only_refl _ _)
    refine .next (keep_imageCtrl _ (.of_all rfl) (only_ite (fun _ => keep_swapHalves (.of_all rfl) ?_)
      (fun _ => keep_checkDomains (.of_all rfl) (keep_coldLoad _ _ (.of_all rfl) hs1))))
    split
    · exact keep_loadBundles _ (.of_all rfl) hs1
    · exact hs1
  · exact .same

theorem execHotActivation_endsWithin (s : State) : EndsWithin (touches .hotActivation) s (execHotActivation s) := by
  unfold execHotActivation
  refine .noted (.of_all rfl) ?_
  split
  · refine .ite .same ?_
    extract_lets +onlyGivenNames s1
    have hs1 : Only (touches .hotActivation) s s1 := keep_takeForce _ _ (.of_all rfl) (only_refl _ _)
    refine .next (keep_imageCtrl _ (.of_all rfl) (keep_swapHalves (.of_all rfl) ?_))
    split
    · exact keep_loadBundles _ (.of_all rfl) hs1
    · exact hs1
  · exact .same

theorem execColdActivationStop_endsWithin (s : State) :
    EndsWithin (touches .coldActivationStop) s (execColdActivationStop s) := by
  unfold execColdActivationStop
  refine .noted (.of_all rfl) ?_
  split
  · refine .ite .same ?_
    split
    · exact .same
    · exact .next (keep_setImg _ (.of_all rfl) (keep_setEng _ (.of_all rfl)
        (keep_discardSwitches (.of_all rfl) (keep_takeForce _ _ (.of_all rfl) (only_refl _ _)))))
  · exact .same

theorem execColdActivationRejoin_endsWithin (s : State) :
    EndsWithin (touches .coldActivationRejoin) s (execColdActivationRejoin s) := by
  unfold execColdActivationRejoin
  refine .noted (.of_all rfl) ?_
  split
  · exact .ite .same (.next (keep_coldFinish _ (.of_all rfl) (only_refl _ _)))
  · exact .same

theorem execPlanHoldStart_endsWithin (s : State) : EndsWithin (touches .planHoldStart) s (execPlanHoldStart s) := by
  unfold execPlanHoldStart
  split
  · exact .same
  · refine .ite .same ?_
    extract_lets +onlyGivenNames s1
    have hs1 : Only (touches .planHoldStart) s s1 := keep_setImg _ (.of_all rfl) (only_refl _ _)
    exact .next (only_forEach _ _ (fun _ _ h => only_forEach _ _
      (fun _ _ => keep_setAdvance _ _ _ (.of_all rfl)) h) hs1)

theorem execPlanSwitch_endsWithin (s : State) : EndsWithin (touches .planSwitch) s (execPlanSwitch s) := by
  unfold execPlanSwitch
  refine .noted (.of_all rfl) ?_
  extract_lets +onlyGivenNames due s1
  have hs1 : Only (touches .planSwitch) s s1 := only_forEach _ _ (fun _ _ => keep_switchRepl _ (.of_all rfl))
    (keep_setImg _ (.of_all rfl) (only_refl _ _))
  split
  · exact .next hs1
  · exact .ite (.next (keep_switchPlan _ (.of_all rfl) hs1)) (.next hs1)

theorem execBridgePortFailure_endsWithin (d : Fin 2) (s : State) :
    EndsWithin (touches (.bridgePortFailure d)) s (execBridgePortFailure d s) :=
  .noted (.of_all rfl) (.next (keep_domainLost _ (.of_all rfl) (only_refl _ _)))

theorem execDomainRetiredSet_endsWithin (au : Auth) (d : Fin 2) (s : State) :
    EndsWithin (touches (.domainRetiredSet au d)) s (execDomainRetiredSet au d s) :=
  .noted (.of_all rfl) (.writeStep (fun _ _ h => keep_domainLost _ (.of_all rfl)
    (keep_storeNum _ _ (.of_all rfl) h)) (.of_all rfl))

theorem execDomainRetiredClear_endsWithin (au : Auth) (d : Fin 2) (s : State) :
    EndsWithin (touches (.domainRetiredClear au d)) s (execDomainRetiredClear au d s) :=
  .noted (.of_all rfl) (.writeStep (fun _ _ => keep_domainClear _ (.of_all rfl)) (.of_all rfl))

/-! ### Anise (chapter 07) -/

theorem execAniseFrameJobs_endsWithin (s : State) : EndsWithin (touches .aniseFrameJobs) s
    (execAniseFrameJobs s) := by
  unfold execAniseFrameJobs
  refine .ite (.ite .same (.next (keep_noteDegraded (.of_all rfl) (keep_frameJobs _ (.of_all rfl) (only_refl _ _)))))
    ?_
  exact .ite (.next (keep_readyJobs _ (.of_all rfl) (keep_reachCount _ (.of_all rfl) (only_refl _ _)))) .same

theorem execAntAdaptWindow_endsWithin (s : State) : EndsWithin (touches .antAdaptWindow) s
    (execAntAdaptWindow s) := by
  unfold execAntAdaptWindow
  refine .ite .same ?_
  exact .next (keep_signalCell _ _ (.of_all rfl) (only_forAll _ _ (fun _ _ => keep_adaptBranch _ (.of_all rfl))
    (keep_setAni _ (.of_all rfl) (only_refl _ _))))

theorem execAniseTick_endsWithin (s : State) : EndsWithin (touches .aniseTick) s (execAniseTick s) := by
  unfold execAniseTick
  split
  · exact .same
  · refine .ite .same ?_
    exact .next (keep_signalCell _ _ (.of_all rfl) (only_forEach _ _ (fun _ _ => keep_raiseMain _ _ _ (.of_all rfl))
      (keep_setAni _ (.of_all rfl) (only_refl _ _))))

theorem execAniseUe_endsWithin (job : AniseJob) (s : State) :
    EndsWithin (touches (.aniseUe job)) s (execAniseUe job s) := by
  unfold execAniseUe
  refine .noted (.of_all rfl) (.ite .same (.next (keep_raiseMain _ _ _ (.of_all rfl)
    (keep_setAni _ (.of_all rfl) ?_))))
  split
  · split
    · exact only_ite (fun _ => keep_discardJobs _ (.of_all rfl) (only_refl _ _))
        (fun _ => keep_setAni _ (.of_all rfl) (only_refl _ _))
    · exact keep_setAni _ (.of_all rfl) (only_refl _ _)
  all_goals exact keep_setAni _ (.of_all rfl) (only_refl _ _)

theorem execAniseProgramWrite_endsWithin (au : Auth) (bytes : List Byte) (s : State) :
    EndsWithin (touches (.aniseProgramWrite au bytes)) s (execAniseProgramWrite au bytes s) :=
  .writeStep (fun _ _ => keep_programEffect _ _ (.of_all rfl)) (.of_all rfl)

theorem execAntWordDelivered_endsWithin (a : Fin 8) (ns : Nat) (s : State) :
    EndsWithin (touches (.antWordDelivered a ns)) s (execAntWordDelivered a ns s) := by
  unfold execAntWordDelivered
  split
  · exact .same
  · exact .next (keep_deliverAnt _ (.of_all rfl) (keep_reachCount _ (.of_all rfl) (only_refl _ _)))

theorem execAntSlot_endsWithin (s : State) : EndsWithin (touches .antSlot) s (execAntSlot s) := by
  unfold execAntSlot
  refine .ite (.next (keep_noteDegraded (.of_all rfl) (keep_setAni _ (.of_all rfl) (only_refl _ _)))) ?_
  refine .next (keep_noteDegraded (.of_all rfl) (only_forAll _ _ (fun a u h => ?_)
    (keep_setAni _ (.of_all rfl) (keep_reachCount _ (.of_all rfl) (only_refl _ _)))))
  split
  · exact keep_setN _ _ (.of_all rfl) h
  · exact h

theorem execConcordSummarySend_endsWithin (s : State) :
    EndsWithin (touches .concordSummarySend) s (execConcordSummarySend s) := by
  unfold execConcordSummarySend
  split
  · exact .same
  · refine .ite .same ?_
    exact .next (keep_sendHost _ _ _ (.of_all rfl) (keep_sendHost _ _ _ (.of_all rfl)
      (keep_useTag _ (.of_all rfl) (keep_setAni _ (.of_all rfl) (only_refl _ _)))))

theorem execConcordSummaryReceived_endsWithin (x : Summary) (count : Nat) (s : State) :
    EndsWithin (touches (.concordSummaryReceived x count)) s (execConcordSummaryReceived x count s) := by
  unfold execConcordSummaryReceived
  extract_lets +onlyGivenNames s0
  have hs0 : Only (touches (.concordSummaryReceived x count)) s s0 := keep_reachCount _ (.of_all rfl) (only_refl _ _)
  split
  · exact .next hs0
  · exact .ite (.next hs0) (.next (keep_setAni _ (.of_all rfl) hs0))

/-! ### Branches (chapter 08) -/

theorem execBranchInrushStart_endsWithin (b : Fin 12) (s : State) :
    EndsWithin (touches (.branchInrushStart b)) s (execBranchInrushStart b s) := by
  unfold execBranchInrushStart
  refine .ite ?_ .same
  extract_lets +onlyGivenNames _ s0
  have hs0 : Only (touches (.branchInrushStart b)) s s0 := only_ite
    (fun _ => keep_tickTo _ (.of_all rfl) (keep_mk_pow _ (.of_all rfl) (only_refl _ _))) (fun _ => only_refl _ _)
  exact .next (keep_updBr _ _ (.of_all rfl) (keep_enterBr _ _ _ (.of_all rfl) hs0))

theorem execInrushComplete_endsWithin (b : Fin 12) (s : State) :
    EndsWithin (touches (.inrushComplete b)) s (execInrushComplete b s) :=
  .ite (.next (keep_updBr _ _ (.of_all rfl) (keep_advInrush _ (.of_all rfl)
    (keep_standsFrom _ _ (.of_all rfl) (only_refl _ _))))) .same

theorem execBranchOn_endsWithin (b : Fin 12) (vgs : List Rat) (s : State) :
    EndsWithin (touches (.branchOn b vgs)) s (execBranchOn b vgs s) := by
  unfold execBranchOn
  extract_lets +onlyGivenNames x
  split
  · exact .ite (.next (keep_enterBr _ _ _ (.of_all rfl) (only_refl _ _))) .same
  · exact .same

theorem execTGateExpiry_endsWithin (b : Fin 12) (s : State) :
    EndsWithin (touches (.tGateExpiry b)) s (execTGateExpiry b s) := by
  unfold execTGateExpiry
  split
  · exact .same
  · exact .ite (.next (keep_gateFailed _ (.of_all rfl) (only_ite
      (fun _ => keep_tickTo _ (.of_all rfl) (only_refl _ _)) (fun _ => only_refl _ _)))) .same

theorem execInrushTimerExpiry_endsWithin (b : Fin 12) (s : State) :
    EndsWithin (touches (.inrushTimerExpiry b)) s (execInrushTimerExpiry b s) := by
  unfold execInrushTimerExpiry
  refine .ite ?_ .same
  extract_lets +onlyGivenNames s1
  have hs1 : Only (touches (.inrushTimerExpiry b)) s s1 := keep_updBr _ _ (.of_all rfl)
    (keep_tickInrush _ (.of_all rfl) (only_refl _ _))
  exact .ite (.next (keep_gateFailed _ (.of_all rfl) hs1)) (.next
    (keep_latchBr _ _ _ (.of_all rfl) (keep_inc32 _ (.of_all rfl) (keep_raiseBr _ _ (.of_all rfl) hs1))))

theorem execFastTrip_endsWithin (b : Fin 12) (uv : Rat) (s : State) :
    EndsWithin (touches (.fastTrip b uv)) s (execFastTrip b uv s) := by
  unfold execFastTrip
  refine .ite .same ?_
  extract_lets +onlyGivenNames amps4 s1
  have hs1 : Only (touches (.fastTrip b uv)) s s1 := keep_raiseRye _ _ _ (.of_all rfl) (only_refl _ _)
  exact .ite (.next (keep_latchBr _ _ _ (.of_all rfl) (keep_inc32 _ (.of_all rfl) hs1))) (.next hs1)

theorem execTripFractionUpdate_endsWithin (codes : List (List Int)) (s : State) :
    EndsWithin (touches (.tripFractionUpdate codes)) s (execTripFractionUpdate codes s) := by
  unfold execTripFractionUpdate
  refine .ite .same ?_
  extract_lets +onlyGivenNames s0 _ s0'
  have hs0' : Only (touches (.tripFractionUpdate codes)) s s0' := keep_mk_pow _ (.of_all rfl)
    (keep_tickTo _ (.of_all rfl) (only_refl _ _))
  exact .next (only_forEach _ _ (fun _ _ => keep_curveTrip _ (.of_all rfl))
    (only_forAll _ _ (fun _ _ => keep_fracOne _ _ (.of_all rfl)) hs0'))

theorem execFosterUpdate_endsWithin (vin vout sense : List Rat) (s : State) :
    EndsWithin (touches (.fosterUpdate vin vout sense)) s (execFosterUpdate vin vout sense s) := by
  unfold execFosterUpdate
  refine .ite .same ?_
  extract_lets +onlyGivenNames s0 _ s0'
  have hs0' : Only (touches (.fosterUpdate vin vout sense)) s s0' := keep_mk_pow _ (.of_all rfl)
    (keep_tickTo _ (.of_all rfl) (only_refl _ _))
  exact .next (only_forAll _ _ (fun _ _ => keep_judgeSensor _ (.of_all rfl))
    (keep_noteTray _ (.of_all rfl) (only_forAll _ _ (fun _ _ => keep_fosterOne _ _ _ _ (.of_all rfl)) hs0')))

theorem execTfetTrip_endsWithin (b : Fin 12) (s : State) : EndsWithin (touches (.tfetTrip b)) s
    (execTfetTrip b s) := by
  unfold execTfetTrip
  refine .ite .same ?_
  extract_lets +onlyGivenNames s'
  have hs' : Only (touches (.tfetTrip b)) s s' := keep_standsFrom _ _ (.of_all rfl) (only_refl _ _)
  refine .ite (.next (keep_latchBr _ _ _ (.of_all rfl) (keep_raiseBr _ _ (.of_all rfl) hs'))) ?_
  exact .ite (.next (keep_raiseRye _ _ _ (.of_all rfl) (keep_updBr _ _ (.of_all rfl) hs'))) (.next hs')

theorem execTfetSensorFault_endsWithin (b : Fin 12) (reading : Rat) (since : Nat) (s : State) :
    EndsWithin (touches (.tfetSensorFault b reading since)) s (execTfetSensorFault b reading since s) := by
  unfold execTfetSensorFault
  refine .ite .same ?_
  extract_lets +onlyGivenNames s1
  have hs1 : Only (touches (.tfetSensorFault b reading since)) s s1 := keep_updBr _ _ (.of_all rfl)
    (keep_stands _ _ (.of_all rfl) (only_refl _ _))
  split
  · exact .ite (.next (keep_judgeSensor _ (.of_all rfl) hs1)) (.next (keep_raiseBr _ _ (.of_all rfl) hs1))
  · exact .next hs1
  · exact .next (keep_raiseBr _ _ (.of_all rfl) hs1)

theorem execTfetSensorOk_endsWithin (b : Fin 12) (reading : Rat) (since : Nat) (s : State) :
    EndsWithin (touches (.tfetSensorOk b reading since)) s (execTfetSensorOk b reading since s) :=
  .ite (.next (keep_raiseBr _ _ (.of_all rfl) (keep_updBr _ _ (.of_all rfl)
    (keep_stands _ _ (.of_all rfl) (only_refl _ _))))) .same

theorem execEnLow_endsWithin (b : Fin 12) (since : Nat) (s : State) :
    EndsWithin (touches (.enLow b since)) s (execEnLow b since s) := by
  unfold execEnLow
  refine .ite .same ?_
  extract_lets +onlyGivenNames s0 s1
  have hs1 : Only (touches (.enLow b since)) s s1 := keep_updBr _ _ (.of_all rfl)
    (keep_stands _ _ (.of_all rfl) (only_refl _ _))
  exact .ite (.next (keep_notePump (.of_all rfl) (keep_enterBr _ _ _ (.of_all rfl) hs1)))
    (.next (keep_notePump (.of_all rfl) hs1))

theorem execEnRise_endsWithin (b : Fin 12) (at_ : Nat) (s : State) :
    EndsWithin (touches (.enRise b at_)) s (execEnRise b at_ s) := by
  unfold execEnRise
  refine .ite .same ?_
  extract_lets +onlyGivenNames s0 s1
  have hs1 : Only (touches (.enRise b at_)) s s1 := keep_updBr _ _ (.of_all rfl)
    (keep_tickTo _ (.of_all rfl) (only_refl _ _))
  refine .ite (.ite (.next hs1) (.ite (.next (keep_raiseBr _ _ (.of_all rfl) hs1))
    (.next (keep_notePump (.of_all rfl) (keep_toggle _ (.of_all rfl) hs1))))) ?_
  exact .next (keep_notePump (.of_all rfl) hs1)

theorem execPresenceEdge_endsWithin (a : Fin 8) (seated : Bool) (since : Nat) (s : State) :
    EndsWithin (touches (.presenceEdge a seated since)) s (execPresenceEdge a seated since s) := by
  unfold execPresenceEdge
  refine .ite .same ?_
  extract_lets +onlyGivenNames s' due s1
  have hs1 : Only (touches (.presenceEdge a seated since)) s s1 := keep_updBr _ _ (.of_all rfl)
    (keep_stands _ _ (.of_all rfl) (only_refl _ _))
  exact .ite (.next (keep_enterBr _ _ _ (.of_all rfl) (keep_raiseBr _ _ (.of_all rfl) hs1)))
    (.next (keep_raiseBr _ _ (.of_all rfl) hs1))

theorem execTReinsExpiry_endsWithin (a : Fin 8) (s : State) :
    EndsWithin (touches (.tReinsExpiry a)) s (execTReinsExpiry a s) := by
  unfold execTReinsExpiry
  extract_lets +onlyGivenNames b
  split
  · exact .same
  · extract_lets +onlyGivenNames s1
    have hs1 : Only (touches (.tReinsExpiry a)) s s1 := keep_updBr _ _ (.of_all rfl)
      (keep_tickTo _ (.of_all rfl) (only_refl _ _))
    exact .ite (.next (keep_enterBr _ _ _ (.of_all rfl) (keep_countInsertion _ (.of_all rfl) hs1))) (.next hs1)

theorem execTripNotCleared_endsWithin (b : Fin 12) (codes : List Int) (s : State) :
    EndsWithin (touches (.tripNotCleared b codes)) s (execTripNotCleared b codes s) := by
  unfold execTripNotCleared
  extract_lets +onlyGivenNames x cur
  split
  · exact .same
  · refine .ite .same ?_
    extract_lets +onlyGivenNames s0
    have hs0 : Only (touches (.tripNotCleared b codes)) s s0 := keep_updBr _ _ (.of_all rfl)
      (keep_tickTo _ (.of_all rfl) (only_refl _ _))
    refine .ite (.next hs0) ?_
    refine .ite (.next (keep_enterBr _ _ _ (.of_all rfl) (keep_raiseBr _ _ (.of_all rfl) hs0))) ?_
    exact .next (keep_escalate _ (.of_all rfl) (keep_enterBr _ _ _ (.of_all rfl)
      (keep_raiseBr _ _ (.of_all rfl) (keep_saveHealth _ (.of_all rfl) (keep_updBr _ _ (.of_all rfl) hs0)))))

theorem execOutputWhileOff_endsWithin (b : Fin 12) (vout : Rat) (s : State) :
    EndsWithin (touches (.outputWhileOff b vout)) s (execOutputWhileOff b vout s) := by
  unfold execOutputWhileOff
  refine .ite .same ?_
  extract_lets +onlyGivenNames s0 s1
  have hs1 : Only (touches (.outputWhileOff b vout)) s s1 := keep_raiseBr _ _ (.of_all rfl)
    (keep_saveHealth _ (.of_all rfl) (keep_updBr _ _ (.of_all rfl)
    (keep_standsFrom _ _ (.of_all rfl) (keep_tickTo _ (.of_all rfl) (only_refl _ _)))))
  exact .next (keep_escalate _ (.of_all rfl) (only_ite (fun _ => hs1)
    (fun _ => keep_enterBr _ _ _ (.of_all rfl) hs1)))

theorem execVdsHigh_endsWithin (b : Fin 12) (vds : Rat) (codes : List Int) (s : State) :
    EndsWithin (touches (.vdsHigh b vds codes)) s (execVdsHigh b vds codes s) := by
  unfold execVdsHigh
  refine .ite ?_ .same
  exact .next (keep_raiseBr _ _ (.of_all rfl) (keep_saveHealth _ (.of_all rfl)
    (keep_updBr _ _ (.of_all rfl) (keep_standsFrom _ _ (.of_all rfl) (only_refl _ _)))))

theorem execVdsHighClear_endsWithin (b : Fin 12) (vds : Rat) (codes : List Int) (s : State) :
    EndsWithin (touches (.vdsHighClear b vds codes)) s (execVdsHighClear b vds codes s) :=
  .ite (.next (keep_saveHealth _ (.of_all rfl) (keep_updBr _ _ (.of_all rfl)
    (keep_standsFrom _ _ (.of_all rfl) (only_refl _ _))))) .same

theorem execBranchDisable_endsWithin (au : Auth) (b : Fin 12) (s : State) :
    EndsWithin (touches (.branchDisable au b)) s (execBranchDisable au b s) :=
  .writeStep (fun _ _ => keep_disableEffect _ _ (.of_all rfl)) (.of_all rfl)

theorem execBranchEnable_endsWithin (au : Auth) (b : Fin 12) (s : State) :
    EndsWithin (touches (.branchEnable au b)) s (execBranchEnable au b s) :=
  .writeStep (fun _ _ => keep_enableEffect _ _ (.of_all rfl)) (.of_all rfl)

theorem execBranchFetClear_endsWithin (au : Auth) (b : Fin 12) (s : State) :
    EndsWithin (touches (.branchFetClear au b)) s (execBranchFetClear au b s) :=
  .writeStep (fun _ _ => keep_fetClearEffect _ _ (.of_all rfl)) (.of_all rfl)

theorem execDw440Import_endsWithin (au : Auth) (bytes : List Byte) (s : State) :
    EndsWithin (touches (.dw440Import au bytes)) s (execDw440Import au bytes s) :=
  .writeStep (fun _ _ h => only_forEach _ _ (fun _ _ => keep_applyDw _ (.of_all rfl)) h) (.of_all rfl)

theorem execBranchStartOffset_endsWithin (b : Fin 12) (s : State) :
    EndsWithin (touches (.branchStartOffset b)) s (execBranchStartOffset b s) := by
  unfold execBranchStartOffset
  split
  · exact .same
  · exact .ite .same (.next (keep_updBr _ _ (.of_all rfl) (keep_tickTo _ (.of_all rfl) (only_refl _ _))))

theorem execSorghumOt_endsWithin (t : Rat) (since : Nat) (s : State) :
    EndsWithin (touches (.sorghumOt t since)) s (execSorghumOt t since s) := by
  unfold execSorghumOt
  refine .noted (.of_all rfl) ?_
  refine .ite .same ?_
  extract_lets +onlyGivenNames s0 s1
  have hs1 : Only (touches (.sorghumOt t since)) s s1 := keep_raiseRye _ _ _ (.of_all rfl)
    (keep_setHeat _ (.of_all rfl) (keep_stands _ _ (.of_all rfl) (only_refl _ _)))
  refine .ite (.next hs1) ?_
  exact .next (keep_settleOuts (.of_all rfl) (keep_enterSafe _ (.of_all rfl)
    (keep_latchBr _ _ _ (.of_all rfl) (only_forAll _ _ (fun _ _ h => only_ite (fun _ => h)
    (fun _ => keep_latchBr _ _ _ (.of_all rfl) h)) (only_forAll _ _
    (fun _ _ => keep_withdrawAdmit _ (.of_all rfl)) hs1)))))

theorem execSorghumOtEnd_endsWithin (t : Rat) (since : Nat) (s : State) :
    EndsWithin (touches (.sorghumOtEnd t since)) s (execSorghumOtEnd t since s) := by
  unfold execSorghumOtEnd
  refine .ite .same ?_
  extract_lets +onlyGivenNames s1 _ s2
  have hs1 : Only (touches (.sorghumOtEnd t since)) s s1 := keep_setHeat _ (.of_all rfl)
    (keep_stands _ _ (.of_all rfl) (only_refl _ _))
  have hs2 : Only (touches (.sorghumOtEnd t since)) s s2 := only_ite
    (fun _ => keep_settleOuts (.of_all rfl) (keep_enterPart _ (.of_all rfl) (keep_mk_part _ (.of_all rfl) hs1)))
    (fun _ => hs1)
  exact .ite (.next hs2) (.ite (.next (keep_raiseBr _ _ (.of_all rfl) hs2))
    (.next (keep_clearLatch _ (.of_all rfl) hs2)))

/-! ### Rail sequencers (chapter 09) -/

theorem execSeqAdmission_endsWithin (q : Fin 9) (s : State) :
    EndsWithin (touches (.seqAdmission q)) s (execSeqAdmission q s) := by
  unfold execSeqAdmission
  split
  · exact .same
  · split
    · exact .same
    · exact .ite (.next (keep_admitAccel _ (.of_all rfl) (keep_tickTo _ (.of_all rfl) (only_refl _ _)))) .same

theorem execStepEnable_endsWithin (q : Fin 9) (s : State) :
    EndsWithin (touches (.stepEnable q)) s (execStepEnable q s) :=
  .atStep (fun _ _ => keep_doEnable _ _ (.of_all rfl)) (.of_all rfl)

theorem execStepDisable_endsWithin (q : Fin 9) (s : State) :
    EndsWithin (touches (.stepDisable q)) s (execStepDisable q s) :=
  .atStep (fun _ _ => keep_doDisable _ _ (.of_all rfl)) (.of_all rfl)

theorem execStepWaitPg_endsWithin (q : Fin 9) (pg : Bool) (s : State) :
    EndsWithin (touches (.stepWaitPg q pg)) s (execStepWaitPg q pg s) :=
  .atStep (fun _ _ => keep_doWaitPg _ _ _ (.of_all rfl)) (.of_all rfl)

theorem execStepWaitTime_endsWithin (q : Fin 9) (s : State) :
    EndsWithin (touches (.stepWaitTime q)) s (execStepWaitTime q s) :=
  .atStep (fun _ _ => keep_doWaitTime _ _ (.of_all rfl)) (.of_all rfl)

theorem execStepWaitLevel_endsWithin (q : Fin 9) (v : Rat) (s : State) :
    EndsWithin (touches (.stepWaitLevel q v)) s (execStepWaitLevel q v s) :=
  .atStep (fun _ _ => keep_doWaitLevel _ _ _ (.of_all rfl)) (.of_all rfl)

theorem execStepAssert_endsWithin (q : Fin 9) (s : State) :
    EndsWithin (touches (.stepAssert q)) s (execStepAssert q s) :=
  .atStep (fun _ _ => keep_doOut _ _ _ (.of_all rfl)) (.of_all rfl)

theorem execStepDeassert_endsWithin (q : Fin 9) (s : State) :
    EndsWithin (touches (.stepDeassert q)) s (execStepDeassert q s) :=
  .atStep (fun _ _ => keep_doOut _ _ _ (.of_all rfl)) (.of_all rfl)

theorem execStepEnd_endsWithin (q : Fin 9) (s : State) : EndsWithin (touches (.stepEnd q)) s (execStepEnd q s) := by
  unfold execStepEnd
  refine .noted (.of_all rfl) ?_
  refine .ite ?_ .same
  extract_lets +onlyGivenNames s0
  have hs0 : Only (touches (.stepEnd q)) s s0 := keep_tickTo _ (.of_all rfl) (only_refl _ _)
  exact .ite (.next (keep_upEnds _ (.of_all rfl) hs0)) (.next (keep_downEnds _ (.of_all rfl) hs0))

theorem execWaitConditionMet_endsWithin (q : Fin 9) (v : Rat) (pg : Bool) (s : State) :
    EndsWithin (touches (.waitConditionMet q v pg)) s (execWaitConditionMet q v pg s) := by
  unfold execWaitConditionMet
  split
  · exact .ite (.next (keep_stepDone _ (.of_all rfl) (keep_armWaited _ _ (.of_all rfl)
      (keep_seePg _ _ _ (.of_all rfl) (only_refl _ _))))) .same
  · exact .ite (.next (keep_stepDone _ (.of_all rfl) (keep_armWaited _ _ (.of_all rfl) (only_refl _ _)))) .same
  · exact .same

theorem execWaitTimeout_endsWithin (q : Fin 9) (s : State) :
    EndsWithin (touches (.waitTimeout q)) s (execWaitTimeout q s) := by
  unfold execWaitTimeout
  refine .noted (.of_all rfl) ?_
  split
  · exact .next (keep_timedOut _ _ _ (.of_all rfl) (keep_tickTo _ (.of_all rfl) (only_refl _ _)))
  · exact .next (keep_timedOut _ _ _ (.of_all rfl) (keep_tickTo _ (.of_all rfl) (only_refl _ _)))
  · exact .same

theorem execWaitTimeExpiry_endsWithin (q : Fin 9) (s : State) :
    EndsWithin (touches (.waitTimeExpiry q)) s (execWaitTimeExpiry q s) := by
  unfold execWaitTimeExpiry
  split
  · exact .next (keep_stepDone _ (.of_all rfl) (keep_tickTo _ (.of_all rfl) (only_refl _ _)))
  · exact .same

theorem execPgWindowClose_endsWithin (q : Fin 9) (running : List (Fin 16 × Level × Nat)) (trip : Nat) (s : State) :
    EndsWithin (touches (.pgWindowClose q running trip)) s (execPgWindowClose q running trip s) := by
  unfold execPgWindowClose
  refine .noted (.of_all rfl) ?_
  refine .ite .same ?_
  extract_lets +onlyGivenNames s0 run s1
  have hs0 : Only (touches (.pgWindowClose q running trip)) s s0 := keep_tickTo _ (.of_all rfl) (only_refl _ _)
  have hs1 : Only (touches (.pgWindowClose q running trip)) s s1 := keep_updSeq _ _ (.of_all rfl)
    (only_forEach _ _ (fun _ _ => keep_updRail _ _ _ (.of_all rfl)) hs0)
  exact .ite (.next (keep_pgClose _ (.of_all rfl) hs0)) (.ite (.next (keep_pgRestart _ _ (.of_all rfl) hs1))
    (.next hs1))

theorem execPgTimeout_endsWithin (q : Fin 9) (s : State) : EndsWithin (touches (.pgTimeout q)) s
    (execPgTimeout q s) :=
  .noted (.of_all rfl) (.ite .same (.next (keep_seqFault _ _ _ (.of_all rfl)
    (keep_raiseSeq _ _ (.of_all rfl) (keep_tickTo _ (.of_all rfl) (only_refl _ _))))))

theorem execLevelDeglitchExpiry_endsWithin (q : Fin 9) (r : Fin 16) (l : Level) (v : Rat) (since : Nat) (s : State) :
    EndsWithin (touches (.levelDeglitchExpiry q r l v since)) s (execLevelDeglitchExpiry q r l v since s) := by
  unfold execLevelDeglitchExpiry
  refine .noted (.of_all rfl) ?_
  refine .ite .same ?_
  extract_lets +onlyGivenNames s0 s1 s2
  have hs0 : Only (touches (.levelDeglitchExpiry q r l v since)) s s0 := keep_tickDeglitch _ _ _ _ (.of_all rfl)
    (only_refl _ _)
  have hs2 : Only (touches (.levelDeglitchExpiry q r l v since)) s s2 := keep_dropRunning _ _ _ (.of_all rfl)
    (only_ite (fun _ => keep_seePg _ _ _ (.of_all rfl) hs0) (fun _ => hs0))
  split
  · exact .ite (.next hs2) (.next (keep_raiseRail _ _ _ (.of_all rfl) (keep_updRail _ _ _ (.of_all rfl) hs2)))
  · exact .ite (.next hs2) (.next (keep_raiseRail _ _ _ (.of_all rfl) (keep_updRail _ _ _ (.of_all rfl) hs2)))
  · exact .next (keep_levelFault _ _ _ (.of_all rfl) hs2)

theorem execLevelConditionEnd_endsWithin (q : Fin 9) (r : Fin 16) (l : Level) (v : Rat) (s : State) :
    EndsWithin (touches (.levelConditionEnd q r l v)) s (execLevelConditionEnd q r l v s) := by
  unfold execLevelConditionEnd
  refine .ite (.next (only_ite (fun _ => keep_tripEnds _ (.of_all rfl) (only_refl _ _)) (fun _ => only_refl _ _))) ?_
  refine .ite .same ?_
  extract_lets +onlyGivenNames s1
  have hs1 : Only (touches (.levelConditionEnd q r l v)) s s1 := keep_dropRunning _ _ _ (.of_all rfl)
    (only_ite (fun _ => keep_seePg _ _ _ (.of_all rfl) (only_refl _ _)) (fun _ => only_refl _ _))
  split
  · exact .next (keep_updRail _ _ _ (.of_all rfl) hs1)
  · exact .next (keep_updRail _ _ _ (.of_all rfl) hs1)
  · exact .next (keep_faultEnds _ (.of_all rfl) hs1)

theorem execThermtrip_endsWithin (a : Fin 8) (since : Nat) (s : State) :
    EndsWithin (touches (.thermtrip a since)) s (execThermtrip a since s) := by
  unfold execThermtrip
  refine .ite .same ?_
  exact .next (keep_trigger _ _ _ (.of_all rfl) (keep_raiseSeq _ _ (.of_all rfl)
    (keep_updAcc _ _ (.of_all rfl) (keep_updSeq _ _ (.of_all rfl) (keep_stands _ _ (.of_all rfl) (only_refl _ _))))))

theorem execOffWaitExpiry_endsWithin (q : Fin 9) (s : State) :
    EndsWithin (touches (.offWaitExpiry q)) s (execOffWaitExpiry q s) :=
  .ite .same (.next (keep_setSeq _ _ (.of_all rfl) (keep_updSeq _ _ (.of_all rfl)
    (keep_tickTo _ (.of_all rfl) (only_refl _ _)))))

theorem execSSelfRetry_endsWithin (s : State) : EndsWithin (touches .sSelfRetry) s (execSSelfRetry s) := by
  unfold execSSelfRetry
  split
  · exact .next (keep_selfUp (.of_all rfl) (keep_updSeq _ _ (.of_all rfl)
      (keep_tickTo _ (.of_all rfl) (only_refl _ _))))
  · exact .same

theorem execSeqListWrite_endsWithin (au : Auth) (q : Fin 9) (which : SeqList) (bytes : List Byte) (s : State) :
    EndsWithin (touches (.seqListWrite au q which bytes)) s (execSeqListWrite au q which bytes s) :=
  .ite .same (.writeStep (fun _ _ => keep_storeBlob _ _ (.of_all rfl)) (.of_all rfl))

/-! ### Heat, coolant and leaks (chapter 10) -/

theorem execTempConversion_endsWithin (main : List (Option Int)) (sorghum : List Int) (s : State) :
    EndsWithin (touches (.tempConversion main sorghum)) s (execTempConversion main sorghum s) := by
  unfold execTempConversion
  refine .ite .same ?_
  extract_lets +onlyGivenNames s1
  have hs1 : Only (touches (.tempConversion main sorghum)) s s1 := keep_setHeat _ (.of_all rfl) (only_refl _ _)
  exact .next (keep_warnSorghum (.of_all rfl) (keep_warnMain (.of_all rfl)
    (only_ite (fun _ => keep_stands _ _ (.of_all rfl) hs1) (fun _ => hs1))))

theorem execThermalEval_endsWithin (s : State) : EndsWithin (touches .thermalEval) s (execThermalEval s) := by
  unfold execThermalEval
  refine .ite .same ?_
  exact .next (keep_settleLevel (.of_all rfl) (keep_setHeat _ (.of_all rfl)
    (only_ite (fun _ => only_refl _ _) (fun _ => keep_tickTo _ (.of_all rfl) (only_refl _ _)))))

theorem execEngineCapLevelWrite_endsWithin (au : Auth) (v : Nat) (s : State) :
    EndsWithin (touches (.engineCapLevelWrite au v)) s (execEngineCapLevelWrite au v s) :=
  .writeStep (fun _ _ h => keep_settleLevel (.of_all rfl) (keep_storeNum _ _ (.of_all rfl) h)) (.of_all rfl)

theorem execThermalShutdown_endsWithin (t : Rat) (kept : Bool) (since : Nat) (s : State) :
    EndsWithin (touches (.thermalShutdown t kept since)) s (execThermalShutdown t kept since s) := by
  unfold execThermalShutdown
  refine .noted (.of_all rfl) ?_
  refine .ite .same ?_
  extract_lets +onlyGivenNames s0
  have hs0 : Only (touches (.thermalShutdown t kept since)) s s0 := keep_stands _ _ (.of_all rfl) (only_refl _ _)
  exact .ite (.next (only_ite (fun _ => keep_abandonRestart _ _ (.of_all rfl) hs0) (fun _ => hs0)))
    (.next (keep_shutDown _ _ (.of_all rfl) hs0))

theorem execThermalRestart_endsWithin (since : Nat) (s : State) :
    EndsWithin (touches (.thermalRestart since)) s (execThermalRestart since s) := by
  unfold execThermalRestart
  refine .ite .same ?_
  extract_lets +onlyGivenNames s0
  have hs0 : Only (touches (.thermalRestart since)) s s0 := by
    unfold s0
    split
    · exact keep_tickTo _ (.of_all rfl) (only_refl _ _)
    · exact keep_stands _ _ (.of_all rfl) (only_refl _ _)
  exact .next (keep_selfUp (.of_all rfl) (keep_setHeat _ (.of_all rfl) hs0))

theorem execAccelThermalRelease_endsWithin (a : Fin 8) (high : Bool) (t : Rat) (since : Nat) (s : State) :
    EndsWithin (touches (.accelThermalRelease a high t since)) s (execAccelThermalRelease a high t since s) := by
  unfold execAccelThermalRelease
  extract_lets +onlyGivenNames s1
  have hs1 : Only (touches (.accelThermalRelease a high t since)) s s1 := keep_updSeq _ _ (.of_all rfl)
    (only_refl _ _)
  refine .ite (.next hs1) ?_
  extract_lets +onlyGivenNames free held
  split
  · refine .ite (.next (keep_raiseRye _ _ _ (.of_all rfl) (keep_updAcc _ _ (.of_all rfl)
      (keep_stands _ _ (.of_all rfl) (keep_setHeat _ (.of_all rfl) hs1))))) ?_
    exact .next (keep_setHeat _ (.of_all rfl) hs1)
  · exact .next (keep_raiseRye _ _ _ (.of_all rfl) (keep_updAcc _ _ (.of_all rfl)
      (keep_stands _ _ (.of_all rfl) hs1)))

theorem execAccelCapStep_endsWithin (a : Fin 8) (t : Rat) (s : State) :
    EndsWithin (touches (.accelCapStep a t)) s (execAccelCapStep a t s) := by
  unfold execAccelCapStep
  refine .ite .same ?_
  extract_lets +onlyGivenNames s1
  have hs1 : Only (touches (.accelCapStep a t)) s s1 := keep_seeTemp _ _ (.of_all rfl) (only_refl _ _)
  split
  · exact .next hs1
  · exact .next (keep_recomputeCap _ (.of_all rfl) (keep_updAcc _ _ (.of_all rfl) (keep_tickTo _ (.of_all rfl) hs1)))

theorem execAccelLimitWrite_endsWithin (a : Fin 8) (ack : Bool) (s : State) :
    EndsWithin (touches (.accelLimitWrite a ack)) s (execAccelLimitWrite a ack s) := by
  unfold execAccelLimitWrite
  split
  · exact .same
  · exact .ite (.next (keep_limitWritten _ _ _ (.of_all rfl) (only_refl _ _))) .same

theorem execAccelLimitRetry_endsWithin (a : Fin 8) (ack : Bool) (s : State) :
    EndsWithin (touches (.accelLimitRetry a ack)) s (execAccelLimitRetry a ack s) := by
  unfold execAccelLimitRetry
  split
  · exact .ite (.next (keep_limitWritten _ _ _ (.of_all rfl) (keep_tickTo _ (.of_all rfl) (only_refl _ _)))) .same
  · exact .same

theorem execFanFault_endsWithin (i : Fin 16) (hz : Rat) (since : Nat) (s : State) :
    EndsWithin (touches (.fanFault i hz since)) s (execFanFault i hz since s) := by
  unfold execFanFault
  extract_lets +onlyGivenNames rpm bad _ s1
  have hs1 : Only (touches (.fanFault i hz since)) s s1 := keep_mk_cool _ (.of_all rfl) (only_refl _ _)
  exact .ite (.next (keep_raiseMain _ _ _ (.of_all rfl) (keep_stands _ _ (.of_all rfl) hs1))) (.next hs1)

theorem execCoolantFlowLow_endsWithin (i : Fin 12) (hz : Rat) (since : Nat) (s : State) :
    EndsWithin (touches (.coolantFlowLow i hz since)) s (execCoolantFlowLow i hz since s) := by
  unfold execCoolantFlowLow
  extract_lets +onlyGivenNames lpm bad _ s1
  have hs1 : Only (touches (.coolantFlowLow i hz since)) s s1 := keep_mk_cool _ (.of_all rfl) (only_refl _ _)
  exact .ite (.next (keep_raiseMain _ _ _ (.of_all rfl) (keep_stands _ _ (.of_all rfl) hs1))) (.next hs1)

theorem execTempSensorFault_endsWithin (c : Fin 32) (reading t : Rat) (since : Nat) (s : State) :
    EndsWithin (touches (.tempSensorFault c reading t since)) s (execTempSensorFault c reading t since s) := by
  unfold execTempSensorFault
  extract_lets +onlyGivenNames kind s'
  have hs' : Only (touches (.tempSensorFault c reading t since)) s s' := only_ite
    (fun _ => keep_stands _ _ (.of_all rfl) (only_refl _ _)) (fun _ => only_refl _ _)
  refine .ite .same ?_
  refine .ite ?_ ?_
  · extract_lets +onlyGivenNames s1
    have hs1 : Only (touches (.tempSensorFault c reading t since)) s s1 := keep_setHeat _ (.of_all rfl) hs'
    exact .next (only_ite (fun _ => keep_raiseRye _ _ _ (.of_all rfl) hs1) (fun _ => hs1))
  · extract_lets +onlyGivenNames s1
    have hs1 : Only (touches (.tempSensorFault c reading t since)) s s1 := keep_setHeat _ (.of_all rfl) hs'
    exact .next (only_ite (fun _ => hs1) (fun _ => keep_raiseRye _ _ _ (.of_all rfl) hs1))

theorem execLeakResult_endsWithin (c : Fin 8) (ohm : Nat) (s : State) :
    EndsWithin (touches (.leakResult c ohm)) s (execLeakResult c ohm s) := by
  unfold execLeakResult
  refine .ite .same ?_
  extract_lets +onlyGivenNames s1
  have hs1 : Only (touches (.leakResult c ohm)) s s1 := keep_enableLeak _ (.of_all rfl) (only_refl _ _)
  exact .ite (.next (keep_updLeak _ _ (.of_all rfl) hs1)) (.next (keep_updLeak _ _ (.of_all rfl) hs1))

theorem execLeakStateChange_endsWithin (c : Fin 8) (s : State) :
    EndsWithin (touches (.leakStateChange c)) s (execLeakStateChange c s) := by
  unfold execLeakStateChange
  split
  · exact .same
  · extract_lets +onlyGivenNames s1
    have hs1 : Only (touches (.leakStateChange c)) s s1 := keep_updLeak _ _ (.of_all rfl) (only_refl _ _)
    split
    · exact .next (keep_raiseRye _ _ _ (.of_all rfl) (keep_notDry _ (.of_all rfl) hs1))
    · exact .next (keep_raiseRye _ _ _ (.of_all rfl) (keep_notDry _ (.of_all rfl) hs1))
    · exact .next (keep_leakFault _ (.of_all rfl) hs1)
    · exact .next hs1

theorem execLeakZoneClearable_endsWithin (z : Fin 8) (s : State) :
    EndsWithin (touches (.leakZoneClearable z)) s (execLeakZoneClearable z s) :=
  .ite .same (.next (keep_setZone _ _ (.of_all rfl) (keep_tickTo _ (.of_all rfl) (only_refl _ _))))

theorem execLeakClear_endsWithin (au : Auth) (z : Fin 8) (s : State) :
    EndsWithin (touches (.leakClear au z)) s (execLeakClear au z s) :=
  .writeStep (fun _ _ => keep_clearZone _ _ (.of_all rfl)) (.of_all rfl)

/-! ### Authority and recovery (chapter 11) -/

theorem execAccelRequestWrite_endsWithin (au : Auth) (a : Fin 8) (v : Nat) (s : State) :
    EndsWithin (touches (.accelRequestWrite au a v)) s (execAccelRequestWrite au a v s) :=
  .writeStep (fun _ _ => keep_setReq _ _ _ (.of_all rfl)) (.of_all rfl)

theorem execQuarRelease_endsWithin (au : Auth) (a : Fin 8) (s : State) :
    EndsWithin (touches (.quarRelease au a)) s (execQuarRelease au a s) :=
  .writeStep (fun _ _ => keep_releaseQuar _ (.of_all rfl)) (.of_all rfl)

theorem execServiceStrapDeasserted_endsWithin (since : Nat) (s : State) :
    EndsWithin (touches (.serviceStrapDeasserted since)) s (execServiceStrapDeasserted since s) :=
  .ite .same (.next (keep_noteDegraded (.of_all rfl) (keep_notePump (.of_all rfl)
    (keep_openBlocked (.of_all rfl) (keep_serviceOff (.of_all rfl)
    (keep_part_port _ _ (.of_all rfl) (keep_stands _ _ (.of_all rfl) (only_refl _ _))))))))

theorem execServiceStrapAsserted_endsWithin (since : Nat) (s : State) :
    EndsWithin (touches (.serviceStrapAsserted since)) s (execServiceStrapAsserted since s) :=
  .ite .same (.next (keep_noteDegraded (.of_all rfl) (keep_notePump (.of_all rfl)
    (keep_part_port _ _ (.of_all rfl) (keep_stands _ _ (.of_all rfl) (only_refl _ _))))))

theorem execWardenSafe_endsWithin (s : State) : EndsWithin (touches .wardenSafe) s (execWardenSafe s) := by
  unfold execWardenSafe
  refine .noted (.of_all rfl) ?_
  refine .ite .same ?_
  extract_lets +onlyGivenNames s1
  have hs1 : Only (touches .wardenSafe) s s1 := keep_releaseSteps (.of_all rfl)
    (keep_enterSafe _ (.of_all rfl) (only_refl _ _))
  exact .next (only_ite (fun _ => keep_stopSafe (.of_all rfl) hs1) (fun _ => hs1))

theorem execWardenRelease_endsWithin (s : State) : EndsWithin (touches .wardenRelease) s (execWardenRelease s) := by
  unfold execWardenRelease
  refine .ite .same ?_
  extract_lets +onlyGivenNames run s1 s2
  have hs1 : Only (touches .wardenRelease) s s1 := keep_setPart _ (.of_all rfl) (only_refl _ _)
  have hs2 : Only (touches .wardenRelease) s s2 := only_ite (fun _ => keep_setPart _ (.of_all rfl)
    (keep_restartAnise (.of_all rfl) (keep_stopSafe (.of_all rfl) hs1))) (fun _ => hs1)
  refine .ite (.next (keep_noteDegraded (.of_all rfl) (keep_settleReady (.of_all rfl)
    (keep_enterPart _ (.of_all rfl) hs2)))) ?_
  exact .next (keep_readyUp (.of_all rfl) (keep_setPart _ (.of_all rfl) hs2))

theorem execPartRestart_endsWithin (au : Auth) (kept : Bool) (s : State) :
    EndsWithin (touches (.partRestart au kept)) s (execPartRestart au kept s) :=
  .noted (.of_all rfl) (.writeStep (fun _ _ => keep_mainReset _ _ (.of_all rfl)) (.of_all rfl))

theorem execKeepaliveLoss_endsWithin (kept : Bool) (s : State) :
    EndsWithin (touches (.keepaliveLoss kept)) s (execKeepaliveLoss kept s) :=
  .noted (.of_all rfl) (.ite (.next (keep_mainReset _ _ (.of_all rfl) (only_refl _ _))) .same)

theorem execMainDieResetEnd_endsWithin (s : State) : EndsWithin (touches .mainDieResetEnd) s
    (execMainDieResetEnd s) :=
  .noted (.of_all rfl) (.ite (.next (keep_releaseMain (.of_all rfl)
    (keep_tickTo _ (.of_all rfl) (only_refl _ _)))) .same)

theorem execFwRestart_endsWithin (au : Auth) (s : State) :
    EndsWithin (touches (.fwRestart au)) s (execFwRestart au s) :=
  .writeStep (fun _ _ => keep_warmRestart (.of_all rfl)) (.of_all rfl)

theorem execWatchdogExpiry_endsWithin (c : Fin 2) (kept : Bool) (s : State) :
    EndsWithin (touches (.watchdogExpiry c kept)) s (execWatchdogExpiry c kept s) := by
  unfold execWatchdogExpiry
  extract_lets +onlyGivenNames due
  split
  · exact .next (keep_noteDegraded (.of_all rfl) (keep_crashControl _ _ (.of_all rfl)
      (keep_tickTo _ (.of_all rfl) (only_refl _ _))))
  · exact .next (keep_noteDegraded (.of_all rfl) (keep_crashShadow _ _ (.of_all rfl)
      (keep_tickTo _ (.of_all rfl) (only_refl _ _))))
  · exact .same

theorem execWdogWarn_endsWithin (c : Fin 2) (s : State) : EndsWithin (touches (.wdogWarn c)) s (execWdogWarn c s) :=
  .ite (.next (keep_clusterIrq _ _ (.of_all rfl) (keep_updCluster _ _ (.of_all rfl)
    (keep_tickTo _ (.of_all rfl) (only_refl _ _))))) .same

theorem execWdogKick_endsWithin (c : Fin 2) (v : Nat) (s : State) :
    EndsWithin (touches (.wdogKick c v)) s (execWdogKick c v s) :=
  .ite (.next (keep_updCluster _ _ (.of_all rfl) (only_refl _ _))) .same

theorem execFirmwareRestarted_endsWithin (s : State) :
    EndsWithin (touches .firmwareRestarted) s (execFirmwareRestarted s) :=
  .ite .same (.next (keep_noteDegraded (.of_all rfl) (keep_setBar _ (.of_all rfl)
    (keep_setPart _ (.of_all rfl) (only_refl _ _)))))

theorem execL2Invalidate_endsWithin (c : Fin 2) (v : Nat) (s : State) :
    EndsWithin (touches (.l2Invalidate c v)) s (execL2Invalidate c v s) :=
  .ite (.next (keep_updCluster _ _ (.of_all rfl) (only_refl _ _))) .same

theorem execL2InvalidateDone_endsWithin (c : Fin 2) (s : State) :
    EndsWithin (touches (.l2InvalidateDone c)) s (execL2InvalidateDone c s) :=
  .ite (.next (keep_updCluster _ _ (.of_all rfl) (keep_tickTo _ (.of_all rfl) (only_refl _ _)))) .same

/-! ### The dictionary engine (chapter 12) -/

theorem execOdaRead_endsWithin (n txn key ty : Nat) (desc : Bool) (s : State) :
    EndsWithin (touches (.odaRead n txn key ty desc)) s (execOdaRead n txn key ty desc s) := by
  unfold execOdaRead
  extract_lets body go
  have hgo (p : Pending) (u : State) (h : Only (touches (.odaRead n txn key ty desc)) s u) :
      Only (touches (.odaRead n txn key ty desc)) s (go p u) := by
    unfold go
    split
    · exact keep_describeGo _ _ _ (.of_all rfl) h
    · exact keep_readGo _ _ _ (.of_all rfl) h
  exact .ite (.next (keep_bareRequest _ _ (hgo _) (.of_all rfl) (only_refl _ _))) (.request hgo (.of_all rfl))

theorem execOdaWrite_endsWithin (n txn key ty : Nat) (v : Value) (s : State) :
    EndsWithin (touches (.odaWrite n txn key ty v)) s (execOdaWrite n txn key ty v s) :=
  .request (fun _ _ => keep_runSteps _ _ (.of_all rfl)) (.of_all rfl)

theorem execReadMulti_endsWithin (n txn : Nat) (items : List (Nat × Nat)) (s : State) :
    EndsWithin (touches (.readMulti n txn items)) s (execReadMulti n txn items s) := by
  unfold execReadMulti
  refine .ite (.next (keep_answerBare _ (.of_all rfl) (keep_inc32 _ (.of_all rfl) (only_refl _ _)))) ?_
  refine .ite (.next (keep_bareRequest _ _ (fun _ => keep_multiGo _ _ (.of_all rfl)) (.of_all rfl) (only_refl _ _)))
    ?_
  exact .request (fun _ _ => keep_multiGo _ _ (.of_all rfl)) (.of_all rfl)

theorem execWriteMulti_endsWithin (n txn : Nat) (steps : List (Nat × Nat × Value)) (s : State) :
    EndsWithin (touches (.writeMulti n txn steps)) s (execWriteMulti n txn steps s) :=
  .request (fun _ _ => keep_runSteps _ _ (.of_all rfl)) (.of_all rfl)

theorem execFwCompletion_endsWithin (tag result : Nat) (v : Value) (s : State) :
    EndsWithin (touches (.fwCompletion tag result v)) s (execFwCompletion tag result v s) := by
  unfold execFwCompletion
  refine .ite .same ?_
  extract_lets +onlyGivenNames s1
  have hs1 : Only (touches (.fwCompletion tag result v)) s s1 := keep_setBar _ (.of_all rfl) (only_refl _ _)
  split
  · exact .next hs1
  · extract_lets +onlyGivenNames s2
    have hs2 : Only (touches (.fwCompletion tag result v)) s s2 := keep_unpark _ (.of_all rfl) hs1
    split
    · exact .next (keep_runItems _ _ (.of_all rfl) hs2)
    · exact .next (keep_finish _ _ (.of_all rfl) hs2)
    · exact .ite (.next (keep_finish _ _ (.of_all rfl) hs2)) (.next (keep_startRead _ _ _ (.of_all rfl) hs2))
    · refine .ite (.next (keep_goOn (.of_all rfl) (keep_finish _ _ (.of_all rfl) hs2))) ?_
      exact .next (keep_goOn (.of_all rfl) (keep_runSteps _ _ (.of_all rfl)
        (keep_journal _ _ _ (.of_all rfl) (keep_applyStep _ _ _ (.of_all rfl) hs2))))
    · exact .next (keep_finish _ _ (.of_all rfl) hs2)

theorem execNorCommitDone_endsWithin (ok : Bool) (s : State) :
    EndsWithin (touches (.norCommitDone ok)) s (execNorCommitDone ok s) := by
  unfold execNorCommitDone
  split
  · exact .next (keep_land _ _ (.of_all rfl) (only_refl _ _))
  · split
    · exact .same
    · extract_lets +onlyGivenNames s1
      have hs1 : Only (touches (.norCommitDone ok)) s s1 := keep_unpark _ (.of_all rfl) (only_refl _ _)
      split
      · exact .next (keep_finish _ _ (.of_all rfl) hs1)
      · refine .ite ?_ (.next (keep_goOn (.of_all rfl) (keep_finish _ _ (.of_all rfl) hs1)))
        refine .ite (.next (keep_goOn (.of_all rfl) (keep_runSteps _ _ (.of_all rfl)
          (keep_applyStep _ _ _ (.of_all rfl) hs1)))) ?_
        exact .next (keep_applyStep _ _ _ (.of_all rfl) hs1)

theorem execSubscribe_endsWithin (n txn sub kind period : Nat) (items : List (Nat × Nat)) (s : State) :
    EndsWithin (touches (.subscribe n txn sub kind period items)) s (execSubscribe n txn sub kind period items s) :=
  .request (fun _ _ => keep_subscribeGo _ _ _ _ _ (.of_all rfl)) (.of_all rfl)

theorem execPeriodicNotify_endsWithin (n k : Nat) (vals : List (Nat × Value)) (s : State) :
    EndsWithin (touches (.periodicNotify n k vals)) s (execPeriodicNotify n k vals s) := by
  unfold execPeriodicNotify
  split
  · exact .same
  · split
    · exact .same
    · refine .ite .same ?_
      refine .ite (.ite (.next (keep_notify _ _ _ _ (.of_all rfl)
        (keep_updSub _ _ _ (.of_all rfl) (only_refl _ _)))) .same) ?_
      exact .next (keep_notify _ _ _ _ (.of_all rfl) (keep_updSub _ _ _ (.of_all rfl)
        (keep_reachCount _ (.of_all rfl) (only_refl _ _))))

theorem execEventNotify_endsWithin (n k : Nat) (s : State) :
    EndsWithin (touches (.eventNotify n k)) s (execEventNotify n k s) := by
  unfold execEventNotify
  split
  · exact .same
  · split
    · exact .same
    · split
      · exact .next (keep_sendHeld _ _ _ (.of_all rfl) (keep_reachCount _ (.of_all rfl) (only_refl _ _)))
      · exact .same

theorem execBlockReadStart_endsWithin (n txn key ty sel : Nat) (s : State) :
    EndsWithin (touches (.blockReadStart n txn key ty sel)) s (execBlockReadStart n txn key ty sel s) :=
  .request (fun _ _ => keep_readStartGo _ _ _ _ (.of_all rfl)) (.of_all rfl)

theorem execBlockReadSeg_endsWithin (n txn blk offset len : Nat) (s : State) :
    EndsWithin (touches (.blockReadSeg n txn blk offset len)) s (execBlockReadSeg n txn blk offset len s) :=
  .request (fun _ _ => keep_readSegGo _ _ _ _ (.of_all rfl)) (.of_all rfl)

theorem execBlockWriteStart_endsWithin (n txn key ty total : Nat) (s : State) :
    EndsWithin (touches (.blockWriteStart n txn key ty total)) s (execBlockWriteStart n txn key ty total s) :=
  .request (fun _ _ => keep_writeStartGo _ _ _ _ (.of_all rfl)) (.of_all rfl)

theorem execBlockWriteSeg_endsWithin (n txn blk offset : Nat) (data : List Byte) (s : State) :
    EndsWithin (touches (.blockWriteSeg n txn blk offset data)) s (execBlockWriteSeg n txn blk offset data s) :=
  .request (fun _ _ => keep_writeSegGo _ _ _ _ (.of_all rfl)) (.of_all rfl)

theorem execBlockWriteEnd_endsWithin (n txn blk crc : Nat) (s : State) :
    EndsWithin (touches (.blockWriteEnd n txn blk crc)) s (execBlockWriteEnd n txn blk crc s) :=
  .request (fun _ _ => keep_writeEndGo _ _ _ (.of_all rfl)) (.of_all rfl)

theorem execBlockClose_endsWithin (n txn blk : Nat) (s : State) :
    EndsWithin (touches (.blockClose n txn blk)) s (execBlockClose n txn blk s) :=
  .request (fun _ _ => keep_closeGo _ _ (.of_all rfl)) (.of_all rfl)

theorem execBlockTimeout_endsWithin (n blk : Nat) (s : State) :
    EndsWithin (touches (.blockTimeout n blk)) s (execBlockTimeout n blk s) := by
  unfold execBlockTimeout
  split
  · exact .next (keep_endBlock _ _ (.of_all rfl) (keep_tickTo _ (.of_all rfl) (only_refl _ _)))
  · exact .same

theorem execLedgerQuery_endsWithin (n txn : Nat) (peer : List Byte) (txns : List Nat) (s : State) :
    EndsWithin (touches (.ledgerQuery n txn peer txns)) s (execLedgerQuery n txn peer txns s) :=
  .request (fun _ _ => keep_queryGo _ _ _ (.of_all rfl)) (.of_all rfl)

theorem execReplayCacheExpiry_endsWithin (place txn : Nat) (s : State) :
    EndsWithin (touches (.replayCacheExpiry place txn)) s (execReplayCacheExpiry place txn s) := by
  unfold execReplayCacheExpiry
  split
  · exact .ite .same (.next (keep_updPeer _ _ (.of_all rfl) (keep_tickTo _ (.of_all rfl) (only_refl _ _))))
  · exact .same

theorem execSetupInit_endsWithin (p : Fin 3) (id frag frags : Nat) (data : List Byte) (cs : List Cert) (r : Root)
    (s : State) :
    EndsWithin (touches (.setupInit p id frag frags data cs r)) s (execSetupInit p id frag frags data cs r s) := by
  unfold execSetupInit
  refine .ite .same ?_
  refine .ite (.next (keep_setupFails _ _ (.of_all rfl) (keep_inc32 _ (.of_all rfl) (only_refl _ _)))) ?_
  refine .ite (.next (keep_setupFails _ _ (.of_all rfl) (only_refl _ _))) ?_
  split
  · exact .ite .same (.next (keep_setupFails _ _ (.of_all rfl) (only_refl _ _)))
  · extract_lets +onlyGivenNames y s1
    have hs1 : Only (touches (.setupInit p id frag frags data cs r)) s s1 := keep_setOda _ (.of_all rfl)
      (only_refl _ _)
    exact .ite (.next hs1) (.next (keep_beginSetup _ _ _ _ _ (.of_all rfl) hs1))

theorem execSetupFinish_endsWithin (n : Nat) (p : Fin 3) (id : Nat) (sigOk : Bool) (s : State) :
    EndsWithin (touches (.setupFinish n p id sigOk)) s (execSetupFinish n p id sigOk s) := by
  unfold execSetupFinish
  refine .ite .same ?_
  split
  · exact .next (keep_setupFails _ _ (.of_all rfl) (only_refl _ _))
  · refine .ite (.next (keep_setupFails _ _ (.of_all rfl) (only_refl _ _))) ?_
    refine .ite (.next (keep_setupFails _ _ (.of_all rfl) (only_refl _ _))) ?_
    refine .ite (.next (keep_setupFails _ _ (.of_all rfl) (only_refl _ _))) ?_
    exact .next (keep_touch _ (.of_all rfl) (keep_sendPort _ _ _ (.of_all rfl)
      (keep_updSession _ _ (.of_all rfl) (keep_takePlace _ _ _ (.of_all rfl) (only_refl _ _)))))

theorem execSessionClose_endsWithin (n : Nat) (s : State) :
    EndsWithin (touches (.sessionClose n)) s (execSessionClose n s) :=
  .ite (.next (keep_closeSession _ (.of_all rfl) (only_refl _ _))) .same

theorem execSetupTimeout_endsWithin (n : Nat) (s : State) :
    EndsWithin (touches (.setupTimeout n)) s (execSetupTimeout n s) := by
  unfold execSetupTimeout
  split
  · exact .ite (.next (keep_closeSession _ (.of_all rfl) (keep_tickTo _ (.of_all rfl) (only_refl _ _)))) .same
  · exact .same

theorem execSessionIdleTimeout_endsWithin (n : Nat) (s : State) :
    EndsWithin (touches (.sessionIdleTimeout n)) s (execSessionIdleTimeout n s) := by
  unfold execSessionIdleTimeout
  split
  · exact .next (keep_closeSession _ (.of_all rfl) (keep_tickTo _ (.of_all rfl) (only_refl _ _)))
  · exact .same

/-! ### The Ethernet ports (chapter 13) -/

theorem execHostLinkUp_endsWithin (p : Fin 2) (fast : Bool) (s : State) :
    EndsWithin (touches (.hostLinkUp p fast)) s (execHostLinkUp p fast s) :=
  .ite (.next (keep_noteDegraded (.of_all rfl) (keep_announceHost _ (.of_all rfl)
    (keep_updHost _ _ (.of_all rfl) (only_refl _ _))))) .same

theorem execHostLinkDown_endsWithin (p : Fin 2) (since : Nat) (s : State) :
    EndsWithin (touches (.hostLinkDown p since)) s (execHostLinkDown p since s) := by
  unfold execHostLinkDown
  refine .ite ?_ .same
  exact .next (keep_noteDegraded (.of_all rfl) (keep_updHost _ _ (.of_all rfl)
    (keep_leaveUp _ (.of_all rfl) (keep_stands _ _ (.of_all rfl) (only_refl _ _)))))

theorem execAutonegRestart_endsWithin (p : Fin 2) (s : State) :
    EndsWithin (touches (.autonegRestart p)) s (execAutonegRestart p s) := by
  unfold execAutonegRestart
  split
  · exact .next (keep_updHost _ _ (.of_all rfl) (keep_tickTo _ (.of_all rfl) (only_refl _ _)))
  · exact .same

theorem execPortMode_endsWithin (au : Auth) (p : Fin 2) (v : Nat) (s : State) :
    EndsWithin (touches (.portMode au p v)) s (execPortMode au p v s) :=
  .writeStep (fun _ _ => keep_portModeEffect _ _ (.of_all rfl)) (.of_all rfl)

theorem execHostFrameReceived_endsWithin (p : Fin 3) (f : FrameIn) (s : State) :
    EndsWithin (touches (.hostFrameReceived p f)) s (execHostFrameReceived p f s) := by
  unfold execHostFrameReceived
  split
  · exact .next (keep_hostFrame _ _ (.of_all rfl) (only_refl _ _))
  · exact .next (keep_svcFrame _ (.of_all rfl) (only_refl _ _))

theorem execNetworkControlRequest_endsWithin (p : Fin 3) (kind : Nat) (target : List Byte) (s : State) :
    EndsWithin (touches (.networkControlRequest p kind target)) s (execNetworkControlRequest p kind target s) :=
  .ite .same (.ite (.next (keep_sendPort _ _ _ (.of_all rfl) (only_refl _ _))) .same)

theorem execTelemetryFrame_endsWithin (a : Fin 8) (etherType : Nat) (payload : List Byte) (bad oldEpoch : Bool)
    (delay : Nat) (s : State) :
    EndsWithin (touches (.telemetryFrame a etherType payload bad oldEpoch delay)) s
      (execTelemetryFrame a etherType payload bad oldEpoch delay s) := by
  unfold execTelemetryFrame
  refine .ite .same ?_
  refine .ite (.next (keep_updSb _ _ (.of_all rfl) (only_refl _ _))) ?_
  refine .ite (.next (keep_inc32 _ (.of_all rfl) (keep_noticeSpoiled _ (.of_all rfl) (only_refl _ _)))) ?_
  refine .ite (.next (keep_takeSbSeq _ _ (.of_all rfl) (only_refl _ _))) ?_
  exact .next (only_forEach _ _ (fun _ _ => keep_telemetryEntry _ _ _ _ _ _ (.of_all rfl))
    (keep_signalCell _ _ (.of_all rfl) (keep_takeSbSeq _ _ (.of_all rfl) (only_refl _ _))))

theorem execSbPtpSync_endsWithin (s : State) : EndsWithin (touches .sbPtpSync) s (execSbPtpSync s) :=
  .next (keep_mk_port _ (.of_all rfl) (only_forAll _ _ (fun _ _ h => only_ite
    (fun _ => keep_sendSb _ _ (.of_all rfl) h) (fun _ => h)) (keep_tickTo _ (.of_all rfl) (only_refl _ _))))

theorem execSbPdelayReq_endsWithin (a : Fin 8) (s : State) :
    EndsWithin (touches (.sbPdelayReq a)) s (execSbPdelayReq a s) :=
  .ite (.next (keep_sendSb _ _ (.of_all rfl) (keep_noticeSpoiled _ (.of_all rfl) (only_refl _ _)))) .same

theorem execMacsecKeyReq_endsWithin (n : Nat) (p : Fin 2) (s : State) :
    EndsWithin (touches (.macsecKeyReq n p)) s (execMacsecKeyReq n p s) := by
  unfold execMacsecKeyReq
  split
  · exact .writeStep (fun _ _ => keep_macsecKey _ _ (.of_all rfl)) (.of_all rfl)
  · exact .ite (.next (keep_refuse _ (.of_all rfl) (only_refl _ _))) .same

theorem execMacsecTxSwitch_endsWithin (p : Fin 2) (s : State) :
    EndsWithin (touches (.macsecTxSwitch p)) s (execMacsecTxSwitch p s) := by
  unfold execMacsecTxSwitch
  split
  · exact .next (keep_txSwitch _ (.of_all rfl) (keep_reachCount _ (.of_all rfl) (only_refl _ _)))
  · exact .same

theorem execMacsecRxOldEnd_endsWithin (p : Fin 2) (s : State) :
    EndsWithin (touches (.macsecRxOldEnd p)) s (execMacsecRxOldEnd p s) := by
  unfold execMacsecRxOldEnd
  extract_lets +onlyGivenNames h
  split
  · exact .next (keep_updHost _ _ (.of_all rfl) (keep_tickTo _ (.of_all rfl) (only_refl _ _)))
  · exact .ite (.next (keep_updHost _ _ (.of_all rfl) (keep_tickTo _ (.of_all rfl) (only_refl _ _)))) .same

/-! ### Memory, DMA and the sync cells (chapter 14) -/

theorem execDmaGo_endsWithin (c : Fin 32) (ctrl srcList dstList srcCount dstCount compl : Nat)
    (src dst : List DmaEntry) (s : State) :
    EndsWithin (touches (.dmaGo c ctrl srcList dstList srcCount dstCount compl src dst)) s
      (execDmaGo c ctrl srcList dstList srcCount dstCount compl src dst s) := by
  unfold execDmaGo
  refine .ite .same ?_
  extract_lets +onlyGivenNames s1
  have hs1 : Only (touches (.dmaGo c ctrl srcList dstList srcCount dstCount compl src dst)) s s1 :=
    keep_updDma _ _ (.of_all rfl) (only_refl _ _)
  refine .ite (.next (keep_dropChan _ (.of_all rfl) hs1)) ?_
  extract_lets +onlyGivenNames s2
  have hs2 : Only (touches (.dmaGo c ctrl srcList dstList srcCount dstCount compl src dst)) s s2 :=
    keep_updDma _ _ (.of_all rfl) hs1
  exact .ite (.next (keep_updDma _ _ (.of_all rfl) hs2)) (.ite
    (.next (keep_goChan _ _ _ _ _ _ _ _ _ _ (.of_all rfl) hs2)) (.next hs2))

theorem execDmaAck_endsWithin (c : Fin 32) (s : State) : EndsWithin (touches (.dmaAck c)) s (execDmaAck c s) :=
  .ite (.next (keep_updDma _ _ (.of_all rfl) (only_refl _ _))) .same

theorem execDmaDisable_endsWithin (c : Fin 32) (s : State) :
    EndsWithin (touches (.dmaDisable c)) s (execDmaDisable c s) :=
  .ite (.next (keep_dropChan _ (.of_all rfl) (only_refl _ _))) .same

theorem execDmaRunStart_endsWithin (mb : Bool) (s : State) :
    EndsWithin (touches (.dmaRunStart mb)) s (execDmaRunStart mb s) :=
  .next (keep_startNext _ (.of_all rfl) (only_refl _ _))

theorem execDmaRunComplete_endsWithin (mb : Bool) (s : State) :
    EndsWithin (touches (.dmaRunComplete mb)) s (execDmaRunComplete mb s) := by
  unfold execDmaRunComplete
  split
  · exact .same
  · refine .ite (.next (keep_seqStep _ (.of_all rfl) (only_refl _ _))) ?_
    extract_lets +onlyGivenNames s1
    have hs1 : Only (touches (.dmaRunComplete mb)) s s1 := keep_advance _ (.of_all rfl) (only_refl _ _)
    exact .next (only_ite (fun _ => keep_completeRun _ (.of_all rfl) hs1) (fun _ => hs1))

theorem execDmaSignalRelease_endsWithin (c : Fin 32) (s : State) :
    EndsWithin (touches (.dmaSignalRelease c)) s (execDmaSignalRelease c s) := by
  unfold execDmaSignalRelease
  split
  · exact .same
  · extract_lets +onlyGivenNames s1
    have hs1 : Only (touches (.dmaSignalRelease c)) s s1 := keep_updDma _ _ (.of_all rfl) (only_refl _ _)
    exact .ite (.next hs1) (.next (keep_signalCell _ _ (.of_all rfl) hs1))

theorem execDmaBusError_endsWithin (mb : Bool) (s : State) :
    EndsWithin (touches (.dmaBusError mb)) s (execDmaBusError mb s) := by
  unfold execDmaBusError
  split
  · exact .same
  · extract_lets +onlyGivenNames s1
    have hs1 : Only (touches (.dmaBusError mb)) s s1 := keep_advance _ (.of_all rfl) (only_refl _ _)
    split
    · exact .next hs1
    · split
      · exact .next (keep_endRun _ (.of_all rfl) (keep_haltChan _ _ _ _ _ (.of_all rfl) hs1))
      · exact .next hs1

theorem execSyncSet_endsWithin (cell : Fin 16384) (v : Nat) (s : State) :
    EndsWithin (touches (.syncSet cell v)) s (execSyncSet cell v s) :=
  .ite .same (.next (keep_setCell _ _ (.of_all rfl) (only_refl _ _)))

theorem execSyncSignal_endsWithin (cell : Fin 16384) (v : Nat) (s : State) :
    EndsWithin (touches (.syncSignal cell v)) s (execSyncSignal cell v s) :=
  .ite .same (.next (keep_signalCell _ _ (.of_all rfl) (only_refl _ _)))

theorem execWaitSlotArm_endsWithin (k : Fin 256) (cell : Fin 16384) (irq event : Bool) (core : Fin 8)
    (threshold : Nat) (s : State) :
    EndsWithin (touches (.waitSlotArm k cell irq event core threshold)) s
      (execWaitSlotArm k cell irq event core threshold s) :=
  .ite .same (.next (keep_tryFire _ (.of_all rfl) (keep_putSlot _ _ (.of_all rfl) (only_refl _ _))))

theorem execWaitSlotDisarm_endsWithin (k : Fin 256) (s : State) :
    EndsWithin (touches (.waitSlotDisarm k)) s (execWaitSlotDisarm k s) :=
  .next (keep_putSlot _ _ (.of_all rfl) (only_refl _ _))

theorem execMemCorrectedError_endsWithin (s : State) :
    EndsWithin (touches .memCorrectedError) s (execMemCorrectedError s) :=
  .next (only_ite (fun _ => keep_inc64 _ (.of_all rfl) (only_refl _ _)) (fun _ => only_refl _ _))

theorem execMemUe_endsWithin (addr : Nat) (s : State) : EndsWithin (touches (.memUe addr)) s (execMemUe addr s) :=
  .next (only_ite (fun _ => keep_memUe _ (.of_all rfl) (only_refl _ _)) (fun _ => only_refl _ _))

theorem execPatrolScrubPass_endsWithin (s : State) : EndsWithin (touches .patrolScrubPass) s
    (execPatrolScrubPass s) :=
  .ite (.next (keep_inc32 _ (.of_all rfl) (keep_setMem _ (.of_all rfl)
    (keep_tickTo _ (.of_all rfl) (only_refl _ _))))) .same

theorem execLpddr4xRefresh_endsWithin (hot : Bool) (s : State) :
    EndsWithin (touches (.lpddr4xRefresh hot)) s (execLpddr4xRefresh hot s) :=
  .next (only_ite (fun _ => keep_setMem _ (.of_all rfl) (only_refl _ _)) (fun _ => only_refl _ _))

/-! ### Barley, Husk and the update (chapter 15) -/

theorem execHuskRegionWrite_endsWithin (c : Fin 2) (k : Fin 256) (r : Region) (s : State) :
    EndsWithin (touches (.huskRegionWrite c k r)) s (execHuskRegionWrite c k r s) :=
  .ite (.next (keep_mk_bar _ (.of_all rfl) (only_refl _ _))) .same

theorem execAccessOverrideWrite_endsWithin (c : Fin 2) (k : Fin 256) (o : Override) (s : State) :
    EndsWithin (touches (.accessOverrideWrite c k o)) s (execAccessOverrideWrite c k o s) :=
  .ite (.next (keep_countOverrides (.of_all rfl) (keep_mk_bar _ (.of_all rfl) (only_refl _ _)))) .same

theorem execUpdateImageWriteEnd_endsWithin (au : Auth) (bs : List Byte) (s : State) :
    EndsWithin (touches (.updateImageWriteEnd au bs)) s (execUpdateImageWriteEnd au bs s) :=
  .writeStep (fun _ _ => keep_startUpdate _ (.of_all rfl)) (.of_all rfl)

theorem execUpdateProgramDone_endsWithin (ok : Bool) (s : State) :
    EndsWithin (touches (.updateProgramDone ok)) s (execUpdateProgramDone ok s) :=
  .ite .same (.ite (.next (keep_setUpd _ (.of_all rfl) (keep_setN _ _ (.of_all rfl) (only_refl _ _))))
    (.next (keep_failSlot _ (.of_all rfl) (only_refl _ _))))

theorem execUpdateVerifyDone_endsWithin (s : State) :
    EndsWithin (touches .updateVerifyDone) s (execUpdateVerifyDone s) := by
  unfold execUpdateVerifyDone
  split
  · refine .ite (.next (keep_failSlot _ (.of_all rfl) (only_refl _ _))) ?_
    refine .ite (.next (keep_failSlot _ (.of_all rfl) (only_refl _ _))) ?_
    refine .ite (.next (keep_failSlot _ (.of_all rfl) (only_refl _ _))) ?_
    extract_lets +onlyGivenNames k s1
    have hs1 : Only (touches .updateVerifyDone) s s1 := keep_setSlot _ _ (.of_all rfl) (only_refl _ _)
    refine .ite (.next (keep_noteDegraded (.of_all rfl) (keep_setUpd _ (.of_all rfl)
      (keep_setBar _ (.of_all rfl) (keep_dropUpdate (.of_all rfl) hs1))))) ?_
    exact .ite (.next (keep_noteDegraded (.of_all rfl) (keep_updError _ _ (.of_all rfl)
      (keep_dropUpdate (.of_all rfl) hs1)))) (.next (keep_setUpd _ (.of_all rfl) hs1))
  · exact .same

theorem execShadowStreamDone_endsWithin (s : State) :
    EndsWithin (touches .shadowStreamDone) s (execShadowStreamDone s) :=
  .ite .same (.next (keep_setBar _ (.of_all rfl) (keep_updCluster _ _ (.of_all rfl) (only_refl _ _))))

theorem execShadowHello_endsWithin (c : Fin 2) (s : State) :
    EndsWithin (touches (.shadowHello c)) s (execShadowHello c s) :=
  .next (keep_handover _ _ _ _ _ (fun _ => keep_setUpd _ (.of_all rfl)) (.of_all rfl) (only_refl _ _))

theorem execShadowBootTimeout_endsWithin (s : State) :
    EndsWithin (touches .shadowBootTimeout) s (execShadowBootTimeout s) :=
  .ite (.next (keep_failShadow _ (.of_all rfl) (keep_tickTo _ (.of_all rfl) (only_refl _ _)))) .same

theorem execShadowReady_endsWithin (c : Fin 2) (s : State) :
    EndsWithin (touches (.shadowReady c)) s (execShadowReady c s) :=
  .next (keep_handover _ _ _ _ _ (fun _ => keep_beginReady (.of_all rfl)) (.of_all rfl) (only_refl _ _))

theorem execTakeoverHoldStart_endsWithin (s : State) :
    EndsWithin (touches .takeoverHoldStart) s (execTakeoverHoldStart s) :=
  .ite .same (.next (keep_setUpd _ (.of_all rfl) (keep_setBar _ (.of_all rfl)
    (keep_reachCount _ (.of_all rfl) (only_refl _ _)))))

theorem execTakeoverFinal_endsWithin (c : Fin 2) (s : State) :
    EndsWithin (touches (.takeoverFinal c)) s (execTakeoverFinal c s) :=
  .next (keep_handover _ _ _ _ _ (fun _ => keep_setBar _ (.of_all rfl)) (.of_all rfl) (only_refl _ _))

theorem execTakeoverAccept_endsWithin (c : Fin 2) (s : State) :
    EndsWithin (touches (.takeoverAccept c)) s (execTakeoverAccept c s) :=
  .next (keep_handover _ _ _ _ _ (fun _ => keep_setBar _ (.of_all rfl)) (.of_all rfl) (only_refl _ _))

theorem execTakeover_endsWithin (s : State) : EndsWithin (touches .takeover) s (execTakeover s) := by
  unfold execTakeover
  refine .ite .same ?_
  extract_lets +onlyGivenNames s1
  have hs1 : Only (touches .takeover) s s1 := keep_reachCount _ (.of_all rfl) (only_refl _ _)
  refine .ite (.next (keep_noteDegraded (.of_all rfl) (keep_takeOver (.of_all rfl) hs1))) ?_
  exact .next (keep_releaseSteps (.of_all rfl) (keep_failShadow _ (.of_all rfl) hs1))

theorem execHealthPass_endsWithin (c : Fin 2) (s : State) :
    EndsWithin (touches (.healthPass c)) s (execHealthPass c s) :=
  .next (keep_handover _ _ _ _ _ (fun _ => keep_setBar _ (.of_all rfl)) (.of_all rfl) (only_refl _ _))

theorem execHealthFail_endsWithin (c : Fin 2) (kept : Bool) (s : State) :
    EndsWithin (touches (.healthFail c kept)) s (execHealthFail c kept s) :=
  .noted (.of_all rfl) (.next (keep_handover _ _ _ _ _ (fun _ => keep_trialFails _ (.of_all rfl)) (.of_all rfl)
    (only_refl _ _)))

theorem execUpdateHealthDeadline_endsWithin (kept : Bool) (s : State) :
    EndsWithin (touches (.updateHealthDeadline kept)) s (execUpdateHealthDeadline kept s) :=
  .noted (.of_all rfl) (.ite (.next (keep_trialFails _ (.of_all rfl)
    (keep_reachCount _ (.of_all rfl) (only_refl _ _)))) .same)

theorem execUpdateAbort_endsWithin (au : Auth) (kept : Bool) (s : State) :
    EndsWithin (touches (.updateAbort au kept)) s (execUpdateAbort au kept s) :=
  .noted (.of_all rfl) (.writeStep (fun _ _ => keep_abortUpdate _ (.of_all rfl)) (.of_all rfl))

theorem execUpdateConfirm_endsWithin (au : Auth) (s : State) :
    EndsWithin (touches (.updateConfirm au)) s (execUpdateConfirm au s) :=
  .writeStep (fun _ _ => keep_confirmUpdate (.of_all rfl)) (.of_all rfl)

theorem execUpdateCommitDone_endsWithin (s : State) :
    EndsWithin (touches .updateCommitDone) s (execUpdateCommitDone s) := by
  unfold execUpdateCommitDone
  refine .ite ?_ .same
  extract_lets +onlyGivenNames s1 s2
  have hs1 : Only (touches .updateCommitDone) s s1 := keep_setBar _ (.of_all rfl)
    (keep_dropUpdate (.of_all rfl) (keep_otherOff (.of_all rfl) (only_refl _ _)))
  have hs2 : Only (touches .updateCommitDone) s s2 := by
    unfold s2
    split
    · exact only_ite (fun _ => keep_raiseCtr _ _ (.of_all rfl) hs1) (fun _ => hs1)
    · exact hs1
  exact .next (keep_noteDegraded (.of_all rfl) (keep_measureFw _ _ (.of_all rfl) (keep_setUpd _ (.of_all rfl) hs2)))

theorem execFwCodeRaise_endsWithin (c : Fin 512) (detail : Nat) (s : State) :
    EndsWithin (touches (.fwCodeRaise c detail)) s (execFwCodeRaise c detail s) :=
  .ite .same (.next (keep_raiseMain _ _ _ (.of_all rfl) (only_refl _ _)))

/-! ### Cardamom (chapter 16) -/

theorem execOwnerKeyAdd_endsWithin (au : Auth) (bs : List Byte) (sigOk : Bool) (s : State) :
    EndsWithin (touches (.ownerKeyAdd au bs sigOk)) s (execOwnerKeyAdd au bs sigOk s) :=
  .next (keep_keyCmd _ _ _ _ (.of_all rfl) (only_refl _ _))

theorem execOwnerKeyRemove_endsWithin (au : Auth) (bs : List Byte) (sigOk : Bool) (s : State) :
    EndsWithin (touches (.ownerKeyRemove au bs sigOk)) s (execOwnerKeyRemove au bs sigOk s) :=
  .next (keep_keyCmd _ _ _ _ (.of_all rfl) (only_refl _ _))

theorem execOwnerKeySetRevoked_endsWithin (au : Auth) (bs : List Byte) (sigOk : Bool) (s : State) :
    EndsWithin (touches (.ownerKeySetRevoked au bs sigOk)) s (execOwnerKeySetRevoked au bs sigOk s) :=
  .next (keep_keyCmd _ _ _ _ (.of_all rfl) (only_refl _ _))

theorem execOwnerReset_endsWithin (au : Auth) (s : State) :
    EndsWithin (touches (.ownerReset au)) s (execOwnerReset au s) :=
  .ite .same (.writeStep (fun _ _ => keep_ownerReset (.of_all rfl)) (.of_all rfl))

theorem execRollbackRaise_endsWithin (au : Auth) (bs : List Byte) (s : State) :
    EndsWithin (touches (.rollbackRaise au bs)) s (execRollbackRaise au bs s) :=
  .writeStep (fun _ _ => keep_raiseEffect _ (.of_all rfl)) (.of_all rfl)

theorem execQuoteReq_endsWithin (n : Nat) (nonce : List Byte) (s : State) :
    EndsWithin (touches (.quoteReq n nonce)) s (execQuoteReq n nonce s) := by
  unfold execQuoteReq
  split
  · exact .writeStep (fun _ _ => keep_quoteEffect _ _ _ (.of_all rfl)) (.of_all rfl)
  · exact .same

theorem execQuoteSigned_endsWithin (n : Nat) (sig : List Byte) (s : State) :
    EndsWithin (touches (.quoteSigned n sig)) s (execQuoteSigned n sig s) :=
  .next (keep_updSession _ _ (.of_all rfl) (only_refl _ _))

/-! ### Nutmeg, inventory and reports (chapter 17) -/

theorem execRecorderFullCommit_endsWithin (s : State) :
    EndsWithin (touches .recorderFullCommit) s (execRecorderFullCommit s) :=
  .ite (.next (keep_startFull (.of_all rfl) (only_refl _ _))) .same

theorem execRecorderCommitDone_endsWithin (ok : Bool) (s : State) :
    EndsWithin (touches (.recorderCommitDone ok)) s (execRecorderCommitDone ok s) := by
  unfold execRecorderCommitDone
  split
  · exact .same
  · extract_lets +onlyGivenNames s0
    have hs0 : Only (touches (.recorderCommitDone ok)) s s0 := keep_setNut _ (.of_all rfl) (only_refl _ _)
    exact .ite (.next (keep_setNut _ (.of_all rfl) hs0)) (.next
      (keep_raiseRye _ _ _ (.of_all rfl) (keep_setNut _ (.of_all rfl) hs0)))

theorem execImmediateAppend_endsWithin (s : State) :
    EndsWithin (touches .immediateAppend) s (execImmediateAppend s) := by
  unfold execImmediateAppend
  split
  · exact .ite .same (.next (keep_appendRec _ _ (.of_all rfl) (keep_setNut _ (.of_all rfl) (only_refl _ _))))
  · exact .same

theorem execTokenRefill_endsWithin (code : Ev) (s : State) :
    EndsWithin (touches (.tokenRefill code)) s (execTokenRefill code s) := by
  unfold execTokenRefill
  extract_lets +onlyGivenNames k
  split
  · exact .same
  · exact .ite .same (.next (keep_setNut _ (.of_all rfl) (keep_tickTo _ (.of_all rfl) (only_refl _ _))))

theorem execRecorderSuppressed_endsWithin (s : State) :
    EndsWithin (touches .recorderSuppressed) s (execRecorderSuppressed s) := by
  unfold execRecorderSuppressed
  refine .ite .same ?_
  exact .next (only_forEach _ _ (fun _ _ => keep_raiseRye _ _ _ (.of_all rfl))
    (keep_setNut _ (.of_all rfl) (keep_reachCount _ (.of_all rfl) (only_refl _ _))))

theorem execRecorderClear_endsWithin (au : Auth) (s : State) :
    EndsWithin (touches (.recorderClear au)) s (execRecorderClear au s) :=
  .writeStep (fun _ _ => keep_clearRecorder _ (.of_all rfl)) (.of_all rfl)

theorem execOperatingSecond_endsWithin (s : State) :
    EndsWithin (touches .operatingSecond) s (execOperatingSecond s) := by
  unfold execOperatingSecond
  refine .ite .same ?_
  exact .next (only_forAll _ _ (fun _ _ => keep_branchSecond _ (.of_all rfl))
    (only_forAll _ _ (fun _ _ => keep_onSecond _ (.of_all rfl))
    (keep_inc32 _ (.of_all rfl) (keep_setNut _ (.of_all rfl) (keep_tickTo _ (.of_all rfl) (only_refl _ _))))))

theorem execFruRead_endsWithin (pos : Fin 9) (image : Option (List Byte)) (s : State) :
    EndsWithin (touches (.fruRead pos image)) s (execFruRead pos image s) := by
  unfold execFruRead
  refine .ite .same ?_
  split
  · refine .ite .same ?_
    exact .next (keep_setN _ _ (.of_all rfl) (keep_setBlob _ _ (.of_all rfl)
      (keep_setBlob _ _ (.of_all rfl) (keep_newSerial _ _ (.of_all rfl) (only_refl _ _)))))
  · exact .ite .same (.next (keep_raiseMain _ _ _ (.of_all rfl) (keep_setN _ _ (.of_all rfl) (only_refl _ _))))
  · exact .next (keep_setN _ _ (.of_all rfl) (keep_setBlob _ _ (.of_all rfl)
      (keep_setBlob _ _ (.of_all rfl) (only_refl _ _))))
  · exact .next (keep_raiseMain _ _ _ (.of_all rfl) (keep_setN _ _ (.of_all rfl) (only_refl _ _)))

theorem execPeSerialWrite_endsWithin (au : Auth) (b : Fin 12) (bytes : List Byte) (s : State) :
    EndsWithin (touches (.peSerialWrite au b bytes)) s (execPeSerialWrite au b bytes s) :=
  .writeStep (fun _ _ => keep_peSerialEffect _ _ _ (.of_all rfl)) (.of_all rfl)

theorem execPeakReset_endsWithin (au : Auth) (s : State) :
    EndsWithin (touches (.peakReset au)) s (execPeakReset au s) :=
  .writeStep (fun _ _ => keep_peakReset _ (.of_all rfl)) (.of_all rfl)

theorem execPowerSample_endsWithin (pkg : Rat) (s : State) :
    EndsWithin (touches (.powerSample pkg)) s (execPowerSample pkg s) :=
  .ite .same (.next (keep_mk_pkgEnergy _ (.of_all rfl) (only_forAll _ _ (fun _ _ => keep_updRep _ _ (.of_all rfl))
    (only_refl _ _))))

theorem execPowerWindowEnd_endsWithin (s : State) : EndsWithin (touches .powerWindowEnd) s
    (execPowerWindowEnd s) := by
  unfold execPowerWindowEnd
  refine .ite .same ?_
  exact .next (only_forAll _ _ (fun _ _ h => only_ite (fun _ => h)
    (fun _ => keep_updRep _ _ (.of_all rfl) (only_ite (fun _ => keep_setN _ _ (.of_all rfl)
    (keep_setN _ _ (.of_all rfl) (keep_setN _ _ (.of_all rfl) h))) (fun _ => keep_setN _ _ (.of_all rfl) h))))
    (keep_reachCount _ (.of_all rfl) (only_refl _ _)))

theorem execAvgBlockEnd_endsWithin (k : Fin 3) (s : State) :
    EndsWithin (touches (.avgBlockEnd k)) s (execAvgBlockEnd k s) := by
  unfold execAvgBlockEnd
  refine .ite .same ?_
  exact .next (only_forAll _ _ (fun _ _ h => only_ite (fun _ => keep_updRep _ _ (.of_all rfl)
    (only_ite (fun _ => keep_setN _ _ (.of_all rfl) (only_ite (fun _ => keep_setN _ _ (.of_all rfl) h) (fun _ => h)))
    (fun _ => only_ite (fun _ => keep_setN _ _ (.of_all rfl) h) (fun _ => h))))
    (fun _ => only_ite (fun _ => keep_updRep _ _ (.of_all rfl)
    (only_ite (fun _ => keep_setN _ _ (.of_all rfl) h) (fun _ => h)))
    (fun _ => keep_updRep _ _ (.of_all rfl) (only_ite (fun _ => keep_setN _ _ (.of_all rfl) h) (fun _ => h)))))
    (keep_reachCount _ (.of_all rfl) (only_refl _ _)))

/-! ### Converter and links -/

theorem execConverterStart_endsWithin (v : Rat) (s : State) :
    EndsWithin (touches (.converterStart v)) s (execConverterStart v s) :=
  .ite (.next (keep_setPow _ (.of_all rfl) (only_refl _ _))) .same

theorem execVinReturnInHoldup_endsWithin (v : Rat) (s : State) :
    EndsWithin (touches (.vinReturnInHoldup v)) s (execVinReturnInHoldup v s) :=
  .ite (.next (keep_setClk _ (.of_all rfl) (keep_setPow _ (.of_all rfl) (only_refl _ _)))) .same

theorem execSbLinkDown_endsWithin (a : Fin 8) (s : State) :
    EndsWithin (touches (.sbLinkDown a)) s (execSbLinkDown a s) :=
  .ite (.next (keep_raiseMain _ _ _ (.of_all rfl) (keep_updSb _ _ (.of_all rfl) (only_refl _ _)))) .same

theorem execSbLinkUp_endsWithin (a : Fin 8) (s : State) : EndsWithin (touches (.sbLinkUp a)) s (execSbLinkUp a s) :=
  .ite (.next (keep_updSb _ _ (.of_all rfl) (only_refl _ _))) .same

theorem execServiceLinkUp_endsWithin (s : State) : EndsWithin (touches .serviceLinkUp) s (execServiceLinkUp s) :=
  .ite (.next (keep_announceSvc (.of_all rfl) (keep_mk_port _ (.of_all rfl) (only_refl _ _)))) .same

theorem execGateEntryStart_endsWithin (p : Fin 2) (s : State) :
    EndsWithin (touches (.gateEntryStart p)) s (execGateEntryStart p s) := by
  unfold execGateEntryStart
  refine .ite .same ?_
  extract_lets +onlyGivenNames h off
  split
  · refine .ite (.next (keep_drainPort _ (.of_all rfl) (keep_openGates _ (.of_all rfl)
      (keep_updHost _ _ (.of_all rfl) (keep_reachCount _ (.of_all rfl) (only_refl _ _)))))) ?_
    exact .next (keep_nextEntry _ (.of_all rfl) (only_refl _ _))
  · exact .next (keep_nextEntry _ (.of_all rfl) (only_refl _ _))

/-! ## All commands -/

/-- Every command completes within its frame: one command of the table, one lemma. -/
theorem exec_endsWithin (c : Instr) (s : State) : EndsWithin (touches c) s (exec c s) :=
  match c with
  | .ryeRelease .. => execRyeRelease_endsWithin ..
  | .holdupFail .. => execHoldupFail_endsWithin ..
  | .holdupEnd .. => execHoldupEnd_endsWithin ..
  | .vinLost .. => execVinLost_endsWithin ..
  | .coarseTimekeeping .. => execCoarseTimekeeping_endsWithin ..
  | .vinStable .. => execVinStable_endsWithin ..
  | .vinLow .. => execVinLow_endsWithin ..
  | .vinLowSelfDown .. => execVinLowSelfDown_endsWithin ..
  | .vinReturn .. => execVinReturn_endsWithin ..
  | .b0UndervoltageOff .. => execB0UndervoltageOff_endsWithin ..
  | .inputLossCommit .. => execInputLossCommit_endsWithin ..
  | .inputLossCommitEnd .. => execInputLossCommitEnd_endsWithin ..
  | .vinOv .. => execVinOv_endsWithin ..
  | .strawValueReceived .. => execStrawValueReceived_endsWithin ..
  | .strawDeadlineExpired .. => execStrawDeadlineExpired_endsWithin ..
  | .curveApply .. => execCurveApply_endsWithin ..
  | .pufAttemptDone .. => execPufAttemptDone_endsWithin ..
  | .keyDerivationDone .. => execKeyDerivationDone_endsWithin ..
  | .firmwareStreamDone .. => execFirmwareStreamDone_endsWithin ..
  | .lpddr4xTrainingDone .. => execLpddr4xTrainingDone_endsWithin ..
  | .partReady .. => execPartReady_endsWithin ..
  | .tileSelfTestDone .. => execTileSelfTestDone_endsWithin ..
  | .ptpMeasurement .. => execPtpMeasurement_endsWithin ..
  | .syncInEdge .. => execSyncInEdge_endsWithin ..
  | .syncOutEdge .. => execSyncOutEdge_endsWithin ..
  | .measurementTimeout .. => execMeasurementTimeout_endsWithin ..
  | .timeHoldoverExpired .. => execTimeHoldoverExpired_endsWithin ..
  | .timeSourceChanged .. => execTimeSourceChanged_endsWithin ..
  | .timeSet .. => execTimeSet_endsWithin ..
  | .launchAt .. => execLaunchAt_endsWithin ..
  | .frameStopAt .. => execFrameStopAt_endsWithin ..
  | .launch .. => execLaunch_endsWithin ..
  | .frameCutoff .. => execFrameCutoff_endsWithin ..
  | .frameStart .. => execFrameStart_endsWithin ..
  | .p0Emit .. => execP0Emit_endsWithin ..
  | .mainEmit .. => execMainEmit_endsWithin ..
  | .checkpointCommit .. => execCheckpointCommit_endsWithin ..
  | .sampleArrival .. => execSampleArrival_endsWithin ..
  | .eventNumbered .. => execEventNumbered_endsWithin ..
  | .engineRejoin .. => execEngineRejoin_endsWithin ..
  | .checkpointRestoreDone .. => execCheckpointRestoreDone_endsWithin ..
  | .correctedError .. => execCorrectedError_endsWithin ..
  | .uncorrectableWord .. => execUncorrectableWord_endsWithin ..
  | .tileRetiredSet .. => execTileRetiredSet_endsWithin ..
  | .tileRetiredClear .. => execTileRetiredClear_endsWithin ..
  | .stagingTimeout .. => execStagingTimeout_endsWithin ..
  | .sessionOpenRequest .. => execSessionOpenRequest_endsWithin ..
  | .sessionCloseRequest .. => execSessionCloseRequest_endsWithin ..
  | .modelLoadDone .. => execModelLoadDone_endsWithin ..
  | .codebookWrite .. => execCodebookWrite_endsWithin ..
  | .modelImageWrite .. => execModelImageWrite_endsWithin ..
  | .modelVerified .. => execModelVerified_endsWithin ..
  | .ringFreeze .. => execRingFreeze_endsWithin ..
  | .ringResume .. => execRingResume_endsWithin ..
  | .postTriggerExpiry .. => execPostTriggerExpiry_endsWithin ..
  | .freezeMaxExpiry .. => execFreezeMaxExpiry_endsWithin ..
  | .longCaptureWrite .. => execLongCaptureWrite_endsWithin ..
  | .replayStart .. => execReplayStart_endsWithin ..
  | .replayAbort .. => execReplayAbort_endsWithin ..
  | .replayFrame .. => execReplayFrame_endsWithin ..
  | .schedImageWrite .. => execSchedImageWrite_endsWithin ..
  | .schedImageChecked .. => execSchedImageChecked_endsWithin ..
  | .imageArm .. => execImageArm_endsWithin ..
  | .imageDisarm .. => execImageDisarm_endsWithin ..
  | .readyActivationDone .. => execReadyActivationDone_endsWithin ..
  | .hotActivation .. => execHotActivation_endsWithin ..
  | .coldActivationStop .. => execColdActivationStop_endsWithin ..
  | .coldActivationRejoin .. => execColdActivationRejoin_endsWithin ..
  | .planHoldStart .. => execPlanHoldStart_endsWithin ..
  | .planSwitch .. => execPlanSwitch_endsWithin ..
  | .bridgePortFailure .. => execBridgePortFailure_endsWithin ..
  | .domainRetiredSet .. => execDomainRetiredSet_endsWithin ..
  | .domainRetiredClear .. => execDomainRetiredClear_endsWithin ..
  | .aniseFrameJobs .. => execAniseFrameJobs_endsWithin ..
  | .antAdaptWindow .. => execAntAdaptWindow_endsWithin ..
  | .aniseTick .. => execAniseTick_endsWithin ..
  | .aniseUe .. => execAniseUe_endsWithin ..
  | .aniseProgramWrite .. => execAniseProgramWrite_endsWithin ..
  | .antWordDelivered .. => execAntWordDelivered_endsWithin ..
  | .antSlot .. => execAntSlot_endsWithin ..
  | .concordSummarySend .. => execConcordSummarySend_endsWithin ..
  | .concordSummaryReceived .. => execConcordSummaryReceived_endsWithin ..
  | .branchInrushStart .. => execBranchInrushStart_endsWithin ..
  | .inrushComplete .. => execInrushComplete_endsWithin ..
  | .branchOn .. => execBranchOn_endsWithin ..
  | .tGateExpiry .. => execTGateExpiry_endsWithin ..
  | .inrushTimerExpiry .. => execInrushTimerExpiry_endsWithin ..
  | .fastTrip .. => execFastTrip_endsWithin ..
  | .tripFractionUpdate .. => execTripFractionUpdate_endsWithin ..
  | .fosterUpdate .. => execFosterUpdate_endsWithin ..
  | .tfetTrip .. => execTfetTrip_endsWithin ..
  | .tfetSensorFault .. => execTfetSensorFault_endsWithin ..
  | .tfetSensorOk .. => execTfetSensorOk_endsWithin ..
  | .enLow .. => execEnLow_endsWithin ..
  | .enRise .. => execEnRise_endsWithin ..
  | .presenceEdge .. => execPresenceEdge_endsWithin ..
  | .tReinsExpiry .. => execTReinsExpiry_endsWithin ..
  | .tripNotCleared .. => execTripNotCleared_endsWithin ..
  | .outputWhileOff .. => execOutputWhileOff_endsWithin ..
  | .vdsHigh .. => execVdsHigh_endsWithin ..
  | .vdsHighClear .. => execVdsHighClear_endsWithin ..
  | .branchDisable .. => execBranchDisable_endsWithin ..
  | .branchEnable .. => execBranchEnable_endsWithin ..
  | .branchFetClear .. => execBranchFetClear_endsWithin ..
  | .dw440Import .. => execDw440Import_endsWithin ..
  | .branchStartOffset .. => execBranchStartOffset_endsWithin ..
  | .sorghumOt .. => execSorghumOt_endsWithin ..
  | .sorghumOtEnd .. => execSorghumOtEnd_endsWithin ..
  | .seqAdmission .. => execSeqAdmission_endsWithin ..
  | .stepEnable .. => execStepEnable_endsWithin ..
  | .stepDisable .. => execStepDisable_endsWithin ..
  | .stepWaitPg .. => execStepWaitPg_endsWithin ..
  | .stepWaitTime .. => execStepWaitTime_endsWithin ..
  | .stepWaitLevel .. => execStepWaitLevel_endsWithin ..
  | .stepAssert .. => execStepAssert_endsWithin ..
  | .stepDeassert .. => execStepDeassert_endsWithin ..
  | .stepEnd .. => execStepEnd_endsWithin ..
  | .waitConditionMet .. => execWaitConditionMet_endsWithin ..
  | .waitTimeout .. => execWaitTimeout_endsWithin ..
  | .waitTimeExpiry .. => execWaitTimeExpiry_endsWithin ..
  | .pgWindowClose .. => execPgWindowClose_endsWithin ..
  | .pgTimeout .. => execPgTimeout_endsWithin ..
  | .levelDeglitchExpiry .. => execLevelDeglitchExpiry_endsWithin ..
  | .levelConditionEnd .. => execLevelConditionEnd_endsWithin ..
  | .thermtrip .. => execThermtrip_endsWithin ..
  | .offWaitExpiry .. => execOffWaitExpiry_endsWithin ..
  | .sSelfRetry .. => execSSelfRetry_endsWithin ..
  | .seqListWrite .. => execSeqListWrite_endsWithin ..
  | .tempConversion .. => execTempConversion_endsWithin ..
  | .thermalEval .. => execThermalEval_endsWithin ..
  | .engineCapLevelWrite .. => execEngineCapLevelWrite_endsWithin ..
  | .thermalShutdown .. => execThermalShutdown_endsWithin ..
  | .thermalRestart .. => execThermalRestart_endsWithin ..
  | .accelThermalRelease .. => execAccelThermalRelease_endsWithin ..
  | .accelCapStep .. => execAccelCapStep_endsWithin ..
  | .accelLimitWrite .. => execAccelLimitWrite_endsWithin ..
  | .accelLimitRetry .. => execAccelLimitRetry_endsWithin ..
  | .fanFault .. => execFanFault_endsWithin ..
  | .coolantFlowLow .. => execCoolantFlowLow_endsWithin ..
  | .tempSensorFault .. => execTempSensorFault_endsWithin ..
  | .leakResult .. => execLeakResult_endsWithin ..
  | .leakStateChange .. => execLeakStateChange_endsWithin ..
  | .leakZoneClearable .. => execLeakZoneClearable_endsWithin ..
  | .leakClear .. => execLeakClear_endsWithin ..
  | .accelRequestWrite .. => execAccelRequestWrite_endsWithin ..
  | .quarRelease .. => execQuarRelease_endsWithin ..
  | .serviceStrapDeasserted .. => execServiceStrapDeasserted_endsWithin ..
  | .serviceStrapAsserted .. => execServiceStrapAsserted_endsWithin ..
  | .wardenSafe .. => execWardenSafe_endsWithin ..
  | .wardenRelease .. => execWardenRelease_endsWithin ..
  | .partRestart .. => execPartRestart_endsWithin ..
  | .keepaliveLoss .. => execKeepaliveLoss_endsWithin ..
  | .mainDieResetEnd .. => execMainDieResetEnd_endsWithin ..
  | .fwRestart .. => execFwRestart_endsWithin ..
  | .watchdogExpiry .. => execWatchdogExpiry_endsWithin ..
  | .wdogWarn .. => execWdogWarn_endsWithin ..
  | .wdogKick .. => execWdogKick_endsWithin ..
  | .firmwareRestarted .. => execFirmwareRestarted_endsWithin ..
  | .l2Invalidate .. => execL2Invalidate_endsWithin ..
  | .l2InvalidateDone .. => execL2InvalidateDone_endsWithin ..
  | .odaRead .. => execOdaRead_endsWithin ..
  | .odaWrite .. => execOdaWrite_endsWithin ..
  | .readMulti .. => execReadMulti_endsWithin ..
  | .writeMulti .. => execWriteMulti_endsWithin ..
  | .fwCompletion .. => execFwCompletion_endsWithin ..
  | .norCommitDone .. => execNorCommitDone_endsWithin ..
  | .subscribe .. => execSubscribe_endsWithin ..
  | .periodicNotify .. => execPeriodicNotify_endsWithin ..
  | .eventNotify .. => execEventNotify_endsWithin ..
  | .blockReadStart .. => execBlockReadStart_endsWithin ..
  | .blockReadSeg .. => execBlockReadSeg_endsWithin ..
  | .blockWriteStart .. => execBlockWriteStart_endsWithin ..
  | .blockWriteSeg .. => execBlockWriteSeg_endsWithin ..
  | .blockWriteEnd .. => execBlockWriteEnd_endsWithin ..
  | .blockClose .. => execBlockClose_endsWithin ..
  | .blockTimeout .. => execBlockTimeout_endsWithin ..
  | .ledgerQuery .. => execLedgerQuery_endsWithin ..
  | .replayCacheExpiry .. => execReplayCacheExpiry_endsWithin ..
  | .setupInit .. => execSetupInit_endsWithin ..
  | .setupFinish .. => execSetupFinish_endsWithin ..
  | .sessionClose .. => execSessionClose_endsWithin ..
  | .setupTimeout .. => execSetupTimeout_endsWithin ..
  | .sessionIdleTimeout .. => execSessionIdleTimeout_endsWithin ..
  | .hostLinkUp .. => execHostLinkUp_endsWithin ..
  | .hostLinkDown .. => execHostLinkDown_endsWithin ..
  | .autonegRestart .. => execAutonegRestart_endsWithin ..
  | .portMode .. => execPortMode_endsWithin ..
  | .hostFrameReceived .. => execHostFrameReceived_endsWithin ..
  | .networkControlRequest .. => execNetworkControlRequest_endsWithin ..
  | .telemetryFrame .. => execTelemetryFrame_endsWithin ..
  | .sbPtpSync .. => execSbPtpSync_endsWithin ..
  | .sbPdelayReq .. => execSbPdelayReq_endsWithin ..
  | .macsecKeyReq .. => execMacsecKeyReq_endsWithin ..
  | .macsecTxSwitch .. => execMacsecTxSwitch_endsWithin ..
  | .macsecRxOldEnd .. => execMacsecRxOldEnd_endsWithin ..
  | .dmaGo .. => execDmaGo_endsWithin ..
  | .dmaAck .. => execDmaAck_endsWithin ..
  | .dmaDisable .. => execDmaDisable_endsWithin ..
  | .dmaRunStart .. => execDmaRunStart_endsWithin ..
  | .dmaRunComplete .. => execDmaRunComplete_endsWithin ..
  | .dmaSignalRelease .. => execDmaSignalRelease_endsWithin ..
  | .dmaBusError .. => execDmaBusError_endsWithin ..
  | .syncSet .. => execSyncSet_endsWithin ..
  | .syncSignal .. => execSyncSignal_endsWithin ..
  | .waitSlotArm .. => execWaitSlotArm_endsWithin ..
  | .waitSlotDisarm .. => execWaitSlotDisarm_endsWithin ..
  | .memCorrectedError .. => execMemCorrectedError_endsWithin ..
  | .memUe .. => execMemUe_endsWithin ..
  | .patrolScrubPass .. => execPatrolScrubPass_endsWithin ..
  | .lpddr4xRefresh .. => execLpddr4xRefresh_endsWithin ..
  | .huskRegionWrite .. => execHuskRegionWrite_endsWithin ..
  | .accessOverrideWrite .. => execAccessOverrideWrite_endsWithin ..
  | .updateImageWriteEnd .. => execUpdateImageWriteEnd_endsWithin ..
  | .updateProgramDone .. => execUpdateProgramDone_endsWithin ..
  | .updateVerifyDone .. => execUpdateVerifyDone_endsWithin ..
  | .shadowStreamDone .. => execShadowStreamDone_endsWithin ..
  | .shadowHello .. => execShadowHello_endsWithin ..
  | .shadowBootTimeout .. => execShadowBootTimeout_endsWithin ..
  | .shadowReady .. => execShadowReady_endsWithin ..
  | .takeoverHoldStart .. => execTakeoverHoldStart_endsWithin ..
  | .takeoverFinal .. => execTakeoverFinal_endsWithin ..
  | .takeoverAccept .. => execTakeoverAccept_endsWithin ..
  | .takeover .. => execTakeover_endsWithin ..
  | .healthPass .. => execHealthPass_endsWithin ..
  | .healthFail .. => execHealthFail_endsWithin ..
  | .updateHealthDeadline .. => execUpdateHealthDeadline_endsWithin ..
  | .updateAbort .. => execUpdateAbort_endsWithin ..
  | .updateConfirm .. => execUpdateConfirm_endsWithin ..
  | .updateCommitDone .. => execUpdateCommitDone_endsWithin ..
  | .fwCodeRaise .. => execFwCodeRaise_endsWithin ..
  | .ownerKeyAdd .. => execOwnerKeyAdd_endsWithin ..
  | .ownerKeyRemove .. => execOwnerKeyRemove_endsWithin ..
  | .ownerKeySetRevoked .. => execOwnerKeySetRevoked_endsWithin ..
  | .ownerReset .. => execOwnerReset_endsWithin ..
  | .rollbackRaise .. => execRollbackRaise_endsWithin ..
  | .quoteReq .. => execQuoteReq_endsWithin ..
  | .quoteSigned .. => execQuoteSigned_endsWithin ..
  | .recorderFullCommit .. => execRecorderFullCommit_endsWithin ..
  | .recorderCommitDone .. => execRecorderCommitDone_endsWithin ..
  | .immediateAppend .. => execImmediateAppend_endsWithin ..
  | .tokenRefill .. => execTokenRefill_endsWithin ..
  | .recorderSuppressed .. => execRecorderSuppressed_endsWithin ..
  | .recorderClear .. => execRecorderClear_endsWithin ..
  | .operatingSecond .. => execOperatingSecond_endsWithin ..
  | .fruRead .. => execFruRead_endsWithin ..
  | .peSerialWrite .. => execPeSerialWrite_endsWithin ..
  | .peakReset .. => execPeakReset_endsWithin ..
  | .powerSample .. => execPowerSample_endsWithin ..
  | .powerWindowEnd .. => execPowerWindowEnd_endsWithin ..
  | .avgBlockEnd .. => execAvgBlockEnd_endsWithin ..
  | .converterStart .. => execConverterStart_endsWithin ..
  | .vinReturnInHoldup .. => execVinReturnInHoldup_endsWithin ..
  | .sbLinkDown .. => execSbLinkDown_endsWithin ..
  | .sbLinkUp .. => execSbLinkUp_endsWithin ..
  | .serviceLinkUp .. => execServiceLinkUp_endsWithin ..
  | .gateEntryStart .. => execGateEntryStart_endsWithin ..

theorem touches_excludes_queue_and_identity (c : Instr) :
    (touches c).all (fun a => decide (a ≠ .pending ∧ a ≠ .ident)) = true := by
  cases c <;> rfl

theorem pending_not_mem_touches (c : Instr) : Area.pending ∉ touches c := fun h =>
  (of_decide_eq_true (List.all_eq_true.mp (touches_excludes_queue_and_identity c) _ h)).1 rfl

theorem ident_not_mem_touches (c : Instr) : Area.ident ∉ touches c := fun h =>
  (of_decide_eq_true (List.all_eq_true.mp (touches_excludes_queue_and_identity c) _ h)).2 rfl

/-- Settles O3: each command's outcome is built of operations that keep its frame. -/
theorem everyCommandCompletesInItsFrame : Obligations.EveryCommandCompletesInItsFrame := by
  unfold Obligations.EveryCommandCompletesInItsFrame
  exact fun c s => ⟨exec_endsWithin c s, pending_not_mem_touches c, ident_not_mem_touches c⟩

/-! ## A step and the queue -/

/-- The parts that a fabric cycle with an empty queue may change: all but the queue, the identity and the package
energy. -/
def idleTouches : List Area := [.nums, .blobs, .clk, .pow, .br, .sq, .acc, .heat, .cool, .part, .ev, .nut, .rep, .oda,
  .port, .eng, .img, .ani, .mem, .bar, .cardamom, .free]

theorem idle_only (s : State) : Only idleTouches s (idle s) :=
  only_ite (fun _ => keep_goOn (.of_all rfl) (keep_fabricCycle (.of_all rfl) (only_refl _ _))) (fun _ => only_refl _ _)

theorem step_of_pending_nil {s : State} (h : s.pending = []) : step s = .next (idle s) := by
  unfold step
  rw [h]

theorem step_of_pending_cons {s : State} {c : Instr} {rest : List Instr} (h : s.pending = c :: rest) :
    step s = exec c { s with pending := rest } := by
  unfold step
  rw [h]

/-- Settles O4: an idle cycle and every command leave the identity and the remaining queue alone. -/
theorem stepKeepsIdentityAndRestOfQueue : Obligations.StepKeepsIdentityAndRestOfQueue := by
  unfold Obligations.StepKeepsIdentityAndRestOfQueue
  rintro s i rfl
  cases hq : s.pending with
  | nil =>
    have hident : (idle s).ident = s.ident := idle_only s .ident (by decide)
    have hpending : (idle s).pending = s.pending := idle_only s .pending (by decide)
    exact ⟨idle s, step_of_pending_nil hq, hident, hpending.trans hq⟩
  | cons c rest =>
    obtain ⟨t, ht, hframe⟩ := exec_endsWithin c { s with pending := rest }
    have hident : t.ident = s.ident := hframe .ident (ident_not_mem_touches c)
    have hpending : t.pending = rest := hframe .pending (pending_not_mem_touches c)
    exact ⟨t, (step_of_pending_cons hq).trans ht, hident, hpending⟩


/-! ## What the stops of the main die leave to Rye (R3)

The branches, the accelerators' rail sequencers and the power demands of the accelerators are in parts of the state that
a stop of the main die does write: it drops the limit writes under way in `acc`, and S_SELF runs its down list in `sq`.
So the relation below looks inside these parts, and each operation on the way to a stop is shown to keep it. -/

/-- What decides the power of an accelerator: the four requests, the effective one, quarantine and the two holds. -/
def demand (x : Accel) : Req × Req × Req × Req × Bool × Bool × Bool × Bool :=
  (x.reqF, x.reqH, x.reqS, x.reqP, x.effective, x.quarantined, x.thermalHold, x.leakHold)

/-- Branches, accelerator sequencers and power demands are the same in both states. -/
structure RyeHeld (s t : State) : Prop where
  branches : t.br = s.br
  sequencers : ∀ a : Fin 8, t.sq.get (seqOf a) = s.sq.get (seqOf a)
  demands : ∀ a : Fin 8, demand (t.acc.get a) = demand (s.acc.get a)

theorem RyeHeld.refl (s : State) : RyeHeld s s := ⟨rfl, fun _ => rfl, fun _ => rfl⟩

theorem RyeHeld.trans {s t u : State} (h : RyeHeld s t) (k : RyeHeld t u) : RyeHeld s u :=
  ⟨k.branches.trans h.branches, fun a => (k.sequencers a).trans (h.sequencers a),
    fun a => (k.demands a).trans (h.demands a)⟩

/-- Every part but the branches, the sequencers, the accelerators, the queue and the identity. -/
def besideRye : List Area := [.nums, .blobs, .clk, .pow, .heat, .cool, .part, .ev, .nut, .rep, .pkgEnergy, .oda, .port,
  .eng, .img, .ani, .mem, .bar, .cardamom, .free]

theorem RyeHeld.of_only {s t : State} (h : Only besideRye s t) : RyeHeld s t := by
  have hbr : t.br = s.br := h .br (by decide)
  have hsq : t.sq = s.sq := h .sq (by decide)
  have hacc : t.acc = s.acc := h .acc (by decide)
  exact ⟨hbr, fun _ => by rw [hsq], fun _ => by rw [hacc]⟩

theorem RyeHeld.after {s t u : State} (h : RyeHeld s t) (k : Only besideRye t u) : RyeHeld s u :=
  h.trans (.of_only k)

/-! ### The operations that write the accelerators and the sequencers -/

theorem updAcc_ryeHeld (a : Fin 8) {f : Accel → Accel} (hf : ∀ x, demand (f x) = demand x) (s : State) :
    RyeHeld s (updAcc a f s) := by
  refine ⟨rfl, fun _ => rfl, fun b => ?_⟩
  by_cases hab : a = b
  · rw [← hab, updAcc_get_same, hf]
  · rw [updAcc_get_other _ _ _ _ hab]

theorem sSelf_ne_seqOf (a : Fin 8) : sSelf ≠ seqOf a := fun h => by
  have hv : (8 : Nat) = a.val := congrArg Fin.val h
  omega

theorem updSeq_sSelf_ryeHeld (f : Seq → Seq) (s : State) : RyeHeld s (updSeq sSelf f s) :=
  ⟨rfl, fun a => updSeq_get_other _ _ _ _ (sSelf_ne_seqOf a), fun _ => rfl⟩

theorem forAll_ryeHeld (n : Nat) {f : Fin n → State → State} (hf : ∀ i u, RyeHeld u (f i u)) (s : State) :
    RyeHeld s (forAll n f s) := by
  unfold forAll
  induction List.finRange n generalizing s with
  | nil => exact .refl s
  | cons i l ih => exact (hf i s).trans (ih (f i s))

theorem limitsDown_ryeHeld (s : State) : RyeHeld s (limitsDown s) := by
  refine forAll_ryeHeld 8 (fun a u => updAcc_ryeHeld a ?_ u) s
  exact fun _ => rfl

theorem recomputeCap_ryeHeld (a : Fin 8) (s : State) : RyeHeld s (recomputeCap a s) := by
  refine updAcc_ryeHeld a ?_ s
  exact fun _ => rfl

theorem recomputeCaps_ryeHeld (s : State) : RyeHeld s (recomputeCaps s) := by
  unfold recomputeCaps
  split
  · exact forAll_ryeHeld 8 recomputeCap_ryeHeld s
  · exact .refl s

theorem setSeq_sSelf_ryeHeld (st : SeqState) (s : State) : RyeHeld s (setSeq sSelf st s) :=
  (updSeq_sSelf_ryeHeld _ s).trans (recomputeCaps_ryeHeld _)

/-! ### The ways in which the main die stops -/

theorem mainDown_ryeHeld (kept : Bool) (s : State) : RyeHeld s (mainDown kept s) := by
  unfold mainDown
  split
  · exact .refl s
  · have hbefore : RyeHeld s
        (s |> odaDown |> timeDown |> portsDown |> memDown kept |> barleyDown |> cardamomDown |> engineDown) :=
      .of_only (keep_engineDown (.of_all rfl) (keep_cardamomDown (.of_all rfl) (keep_barleyDown (.of_all rfl)
        (keep_memDown _ (.of_all rfl) (keep_portsDown (.of_all rfl) (keep_timeDown (.of_all rfl)
        (keep_odaDown (.of_all rfl) (only_refl _ _))))))))
    exact (hbefore.trans (limitsDown_ryeHeld _)).after (keep_mk_part _ (.of_all rfl) (keep_serializerDown (.of_all rfl)
      (keep_restartAnise (.of_all rfl) (keep_heatDown (.of_all rfl) (only_refl _ _)))))

theorem mainReset_ryeHeld (why : Nat) (kept : Bool) (s : State) : RyeHeld s (mainReset why kept s) := by
  unfold mainReset
  split
  · exact .refl s
  · extract_lets s1 s2 _ s3
    have h3 : Only besideRye (mainDown kept s) s3 := keep_mk_part _ (.of_all rfl) (keep_inc32 _ (.of_all rfl)
      (keep_raiseRye _ _ _ (.of_all rfl) (only_refl _ _)))
    exact (mainDown_ryeHeld kept s).after
      (only_ite (fun _ => h3) (fun _ => keep_enterPart _ (.of_all rfl) (keep_mk_part _ (.of_all rfl) h3)))

theorem trialFails_ryeHeld (kept : Bool) (s : State) : RyeHeld s (trialFails kept s) := by
  unfold trialFails
  split
  · exact .trans (.of_only (keep_updError _ _ (.of_all rfl) (keep_dropUpdate (.of_all rfl)
      (keep_restoreSelector (.of_all rfl) (only_refl _ _))))) (mainReset_ryeHeld 3 kept _)
  · exact .of_only (keep_handBack (.of_all rfl) (only_refl _ _))

theorem countCrash_ryeHeld (c : Fin 2) (s : State) : RyeHeld s (countCrash c s) :=
  .of_only (keep_countCrash _ (.of_all rfl) (only_refl _ _))

theorem crashControl_ryeHeld (c : Fin 2) (kept : Bool) (s : State) : RyeHeld s (crashControl c kept s) := by
  unfold crashControl
  refine (countCrash_ryeHeld c s).trans ?_
  extract_lets s1
  split
  · exact mainReset_ryeHeld 2 kept s1
  · split
    · exact trialFails_ryeHeld kept s1
    · refine .of_only (only_ite (fun _ => ?_) (fun _ => ?_))
      · exact keep_releaseSteps (.of_all rfl) (keep_restartFw _ _ (.of_all rfl) (keep_updError _ _ (.of_all rfl)
          (keep_dropUpdate (.of_all rfl) (keep_otherOff (.of_all rfl) (only_refl _ _)))))
      · exact keep_restartFw _ _ (.of_all rfl) (keep_crashEndsShadow (.of_all rfl) (only_refl _ _))

theorem crashShadow_ryeHeld (c : Fin 2) (kept : Bool) (s : State) : RyeHeld s (crashShadow c kept s) := by
  unfold crashShadow
  refine (countCrash_ryeHeld c s).trans ?_
  extract_lets s1
  split
  · exact mainReset_ryeHeld 2 kept s1
  · refine .of_only ?_
    split
    · exact keep_failShadow _ (.of_all rfl) (only_refl _ _)
    · exact keep_failShadow _ (.of_all rfl) (only_refl _ _)
    · exact keep_failShadow _ (.of_all rfl) (only_refl _ _)
    · exact keep_releaseSteps (.of_all rfl) (keep_failShadow _ (.of_all rfl) (only_refl _ _))
    · exact keep_otherOff (.of_all rfl) (only_refl _ _)

theorem abortUpdate_ryeHeld (kept : Bool) (s : State) : RyeHeld s (abortUpdate kept s) := by
  unfold abortUpdate
  have hslot : RyeHeld s (noteDegraded (updError .failed 0x00071508 (dropUpdate (otherOff (spoilSlot s))))) :=
    .of_only (keep_noteDegraded (.of_all rfl) (keep_updError _ _ (.of_all rfl) (keep_dropUpdate (.of_all rfl)
      (keep_otherOff (.of_all rfl) (keep_spoilSlot (.of_all rfl) (only_refl _ _))))))
  split
  any_goals exact hslot
  · exact .of_only (keep_noteDegraded (.of_all rfl) (keep_updError _ _ (.of_all rfl) (keep_dropUpdate (.of_all rfl)
      (keep_restoreSelector (.of_all rfl) (only_refl _ _)))))
  · split
    · exact .refl s
    · exact trialFails_ryeHeld kept s
  · exact .refl s

theorem selfDown_ryeHeld (why : Nat) (kept : Bool) (s : State) : RyeHeld s (selfDown why kept s) := by
  have hlist (u : State) (at_ : Nat) (f : Seq → Seq) :
      RyeHeld u (startList sSelf .down at_ (updSeq sSelf f (setSeq sSelf .down u))) :=
    ((setSeq_sSelf_ryeHeld .down u).trans (updSeq_sSelf_ryeHeld f _)).trans (updSeq_sSelf_ryeHeld _ _)
  have hdown : RyeHeld s (if (s.sq.get sSelf).pgood then mainDown kept s else s) := by
    split
    · exact mainDown_ryeHeld kept s
    · exact .refl s
  unfold selfDown
  extract_lets x
  split
  any_goals exact hdown.trans (hlist _ _ _)
  · split
    · exact updSeq_sSelf_ryeHeld _ s
    · split
      · exact updSeq_sSelf_ryeHeld _ s
      · exact .refl s
  · exact .refl s

theorem shutDown_ryeHeld (t : Rat) (kept : Bool) (s : State) : RyeHeld s (shutDown t kept s) := by
  unfold shutDown
  extract_lets counts s1 s2 s3 s4
  have h1 : Only besideRye s s1 := keep_raiseRye _ _ _ (.of_all rfl) (keep_setHeat _ (.of_all rfl) (only_refl _ _))
  have h3 : RyeHeld s s3 := .of_only (keep_setHeat _ (.of_all rfl)
    (only_ite (fun _ => keep_inc32 _ (.of_all rfl) h1) (fun _ => h1)))
  have h4 : RyeHeld s s4 := (h3.trans (mainDown_ryeHeld kept s3)).trans (selfDown_ryeHeld 2 kept _)
  exact h4.after (only_ite (fun _ => only_refl _ _) (fun _ => keep_enterPart _ (.of_all rfl) (only_refl _ _)))

theorem abandonRestart_ryeHeld (t : Rat) (kept : Bool) (s : State) : RyeHeld s (abandonRestart t kept s) :=
  .trans (.of_only (keep_raiseRye _ _ _ (.of_all rfl) (keep_setHeat _ (.of_all rfl) (only_refl _ _))))
    (selfDown_ryeHeld 2 kept _)

/-! ### The dictionary write and the handover of Barley around an effect -/

theorem writeStep_ryeHeld {au : Auth} {key : Nat} {v : Value} {home : State → Nat} {eff : Count → State → State}
    (he : ∀ c u, RyeHeld u (eff c u)) (s : State) : RyeHeld s (writeStep au key v home eff s) := by
  have hrefuse (code : Nat) : RyeHeld s (refuse code s) :=
    .of_only (keep_refuse _ (.of_all rfl) (only_refl _ _))
  have haccept : RyeHeld s (accept eff s) :=
    .trans (.of_only (keep_mk_oda _ (.of_all rfl) (keep_mk_clk _ (.of_all rfl) (only_refl _ _)))) (he _ _)
  unfold writeStep
  split
  · exact .refl s
  · split
    · exact hrefuse _
    · split
      · exact hrefuse _
      · exact haccept

theorem handover_ryeHeld {c : Fin 2} {role : Role} {st : UpdState} {more : Bool} {f : State → State}
    (hf : ∀ u, RyeHeld u (f u)) (s : State) : RyeHeld s (handover c role st more f s) := by
  unfold handover
  split
  · exact .refl s
  · split
    · exact .trans (.of_only (keep_routeIrq _ (.of_all rfl) (only_refl _ _))) (hf _)
    · exact .of_only (keep_ignored (.of_all rfl) (only_refl _ _))

/-! ### The commands -/

theorem RyeHeld.noteDegraded {s t : State} (h : RyeHeld s t) : RyeHeld s (noteDegraded t) :=
  h.after (keep_noteDegraded (.of_all rfl) (only_refl _ _))

theorem EndsIn.noted_ryeHeld {s : State} {o : Out} (h : EndsIn (RyeHeld s) o) : EndsIn (RyeHeld s) (Machine.noted o) :=
  .noted (fun _ => RyeHeld.noteDegraded) h

theorem tickTo_ryeHeld (due : Nat) (s : State) : RyeHeld s (tickTo due s) :=
  .of_only (keep_tickTo _ (.of_all rfl) (only_refl _ _))

/-- A command whose frame lists neither branches nor sequencers nor accelerators holds for Rye. -/
theorem exec_ryeHeld_of_touches {c : Instr} (s : State)
    (h : (touches c).all (fun a => decide (a ∈ besideRye)) = true) : EndsIn (RyeHeld s) (exec c s) := by
  obtain ⟨t, ht, hframe⟩ := exec_endsWithin c s
  exact ⟨t, ht, .of_only (only_mono hframe (.of_all h))⟩

theorem execPartRestart_ryeHeld (au : Auth) (kept : Bool) (s : State) :
    EndsIn (RyeHeld s) (execPartRestart au kept s) :=
  .noted_ryeHeld (.next (writeStep_ryeHeld (fun _ => mainReset_ryeHeld 1 kept) s))

theorem execKeepaliveLoss_ryeHeld (kept : Bool) (s : State) : EndsIn (RyeHeld s) (execKeepaliveLoss kept s) :=
  .noted_ryeHeld (.ite (.next (mainReset_ryeHeld 0 kept s)) (.next (.refl s)))

theorem execWatchdogExpiry_ryeHeld (c : Fin 2) (kept : Bool) (s : State) :
    EndsIn (RyeHeld s) (execWatchdogExpiry c kept s) := by
  unfold execWatchdogExpiry
  extract_lets due
  split
  · exact .next ((tickTo_ryeHeld due s).trans (crashControl_ryeHeld c kept _)).noteDegraded
  · exact .next ((tickTo_ryeHeld due s).trans (crashShadow_ryeHeld c kept _)).noteDegraded
  · exact .next (.refl s)

theorem execThermalShutdown_ryeHeld (t : Rat) (kept : Bool) (since : Nat) (s : State) :
    EndsIn (RyeHeld s) (execThermalShutdown t kept since s) := by
  unfold execThermalShutdown
  refine .noted_ryeHeld (.ite (.next (.refl s)) ?_)
  extract_lets s0
  have h0 : RyeHeld s s0 := .of_only (keep_stands _ _ (.of_all rfl) (only_refl _ _))
  refine .ite (.next ?_) (.next (h0.trans (shutDown_ryeHeld t kept s0)))
  split
  · exact h0.trans (abandonRestart_ryeHeld t kept s0)
  · exact h0

theorem execHealthFail_ryeHeld (c : Fin 2) (kept : Bool) (s : State) : EndsIn (RyeHeld s) (execHealthFail c kept s) :=
  .noted_ryeHeld (.next (handover_ryeHeld (trialFails_ryeHeld kept) s))

theorem execUpdateHealthDeadline_ryeHeld (kept : Bool) (s : State) :
    EndsIn (RyeHeld s) (execUpdateHealthDeadline kept s) :=
  .noted_ryeHeld (.ite (.next (.trans (.of_only (keep_reachCount _ (.of_all rfl) (only_refl _ _)))
    (trialFails_ryeHeld kept _))) (.next (.refl s)))

theorem execUpdateAbort_ryeHeld (au : Auth) (kept : Bool) (s : State) :
    EndsIn (RyeHeld s) (execUpdateAbort au kept s) :=
  .noted_ryeHeld (.next (writeStep_ryeHeld (fun _ => abortUpdate_ryeHeld kept) s))

/-- Settles O11: seven of the commands reach parts that Rye also uses and keep what is Rye's in them; the others do not
list such a part. -/
theorem ryeHoldsThroughMainDieStops : Obligations.RyeHoldsThroughMainDieStops := by
  unfold Obligations.RyeHoldsThroughMainDieStops
  intro c s hc
  have hheld : EndsIn (RyeHeld s) (exec c s) := by
    cases c with
    | partRestart au kept => exact execPartRestart_ryeHeld au kept s
    | keepaliveLoss kept => exact execKeepaliveLoss_ryeHeld kept s
    | watchdogExpiry k kept => exact execWatchdogExpiry_ryeHeld k kept s
    | thermalShutdown v kept since => exact execThermalShutdown_ryeHeld v kept since s
    | healthFail k kept => exact execHealthFail_ryeHeld k kept s
    | updateHealthDeadline kept => exact execUpdateHealthDeadline_ryeHeld kept s
    | updateAbort au kept => exact execUpdateAbort_ryeHeld au kept s
    | mainDieResetEnd | fwRestart | firmwareRestarted | updateImageWriteEnd | updateProgramDone | updateVerifyDone
    | shadowStreamDone | shadowHello | shadowBootTimeout | shadowReady | takeoverHoldStart | takeoverFinal
    | takeoverAccept | takeover | healthPass | updateConfirm | updateCommitDone =>
      exact exec_ryeHeld_of_touches s rfl
    | _ => exact hc.elim
  obtain ⟨t, ht, hr⟩ := hheld
  have hdemand (a : Fin 8) := hr.demands a
  simp only [demand, Prod.mk.injEq] at hdemand
  exact ⟨t, ht, hr.branches, fun a => ⟨hr.sequencers a, hdemand a⟩⟩

end Sys2Proof.Laws

namespace Sys2Proof.Laws

open Sys2Proof.Machine

/-! ## Loops over every index -/

/-- What every turn of the loop keeps holds at its end. -/
theorem forAll_keeps {n : Nat} {f : Fin n → State → State} {P : State → Prop} (hf : ∀ j u, P u → P (f j u)) {s : State}
    (hs : P s) : P (forAll n f s) :=
  List.foldlRecOn _ _ hs (fun u hu j _ => hf j u hu)

/-- The turn of index i comes once: what the turns before it keep, it makes into what the turns after it keep. -/
theorem forAll_at {n : Nat} (i : Fin n) {f : Fin n → State → State} {P Q : State → Prop}
    (hpre : ∀ j, j ≠ i → ∀ u, P u → P (f j u)) (hat : ∀ u, P u → Q (f i u))
    (hpost : ∀ j, j ≠ i → ∀ u, Q u → Q (f j u)) {s : State} (hs : P s) : Q (forAll n f s) := by
  obtain ⟨before, after, hsplit⟩ := List.append_of_mem (List.mem_finRange i)
  have hnodup : (before ++ i :: after).Nodup := hsplit ▸ List.nodup_finRange n
  obtain ⟨-, hcons, hdisj⟩ := List.nodup_append.mp hnodup
  have hbefore : ∀ j ∈ before, j ≠ i := fun j hj => hdisj j hj i List.mem_cons_self
  have hafter : ∀ j ∈ after, j ≠ i := fun j hj e => (List.nodup_cons.mp hcons).1 (e ▸ hj)
  unfold forAll
  rw [hsplit, List.foldl_append, List.foldl_cons]
  have hP := List.foldlRecOn before (fun u j => f j u) hs (fun u hu j hj => hpre j (hbefore j hj) u hu)
  exact List.foldlRecOn after _ (hat _ hP) (fun u hu j hj => hpost j (hafter j hj) u hu)

/-! ## Outcomes -/

theorem ends_mono {c : Instr} {s : State} {P Q : State → Prop} (h : Ends c s P) (hPQ : ∀ t, P t → Q t) : Ends c s Q :=
  let ⟨t, ht, hP⟩ := h
  ⟨t, ht, hPQ t hP⟩

/-! ## Moves of the clock -/

/-- Moving the clock to a deadline replaces the clock alone. -/
theorem tickTo_eq_with_clk (due : Nat) (s : State) : ∃ k, tickTo due s = { s with clk := k } := by
  unfold tickTo
  split
  · exact ⟨_, rfl⟩
  · exact ⟨_, rfl⟩

/-- Moving the clock until the count is reached replaces the clock alone. -/
theorem reachCount_eq_with_clk (c : Count) (s : State) : ∃ k, reachCount c s = { s with clk := k } := by
  unfold reachCount
  split
  · exact ⟨_, rfl⟩
  · exact ⟨_, rfl⟩

/-! ## What a note of degradation leaves, and what a read depends on -/

theorem noteDegraded_clk (s : State) : (noteDegraded s).clk = s.clk :=
  keep_noteDegraded (L := [.part, .ev, .nut]) (.of_all rfl) (only_refl _ s) .clk (by decide)

theorem noteDegraded_ani (s : State) : (noteDegraded s).ani = s.ani :=
  keep_noteDegraded (L := [.part, .ev, .nut]) (.of_all rfl) (only_refl _ s) .ani (by decide)

theorem noteDegraded_nums (s : State) : (noteDegraded s).nums = s.nums :=
  keep_noteDegraded (L := [.part, .ev, .nut]) (.of_all rfl) (only_refl _ s) .nums (by decide)

theorem getN_of_nums_eq {s t : State} (h : t.nums = s.nums) (o : Obj) : getN t o = getN s o := by
  unfold getN
  rw [h]

theorem frameNs_of_nums_eq {s t : State} (h : t.nums = s.nums) : frameNs t = frameNs s := by
  unfold frameNs
  rw [getN_of_nums_eq h]

/-! ## The end of hold-up and the commit it cuts off (R35, R250, R464, R520) -/

theorem holdupEnd_ends {torn : Torn} {s : State} {P : State → Prop} (hlost : s.pow.vinLost = true)
    (h : P (powerOff (tearCommit torn s))) : Ends (.holdupEnd torn) s P := ⟨_, if_pos hlost, h⟩

@[simp] theorem powerOff_rcbA (s : State) : (powerOff s).pow.rcbA = s.pow.rcbA := rfl
@[simp] theorem powerOff_rcbB (s : State) : (powerOff s).pow.rcbB = s.pow.rcbB := rfl
@[simp] theorem powerOff_norA (s : State) : (powerOff s).pow.norA = s.pow.norA := rfl
@[simp] theorem powerOff_norB (s : State) : (powerOff s).pow.norB = s.pow.norB := rfl
@[simp] theorem powerOff_recA (s : State) : (powerOff s).cardamom.recA = s.cardamom.recA := rfl
@[simp] theorem powerOff_recB (s : State) : (powerOff s).cardamom.recB = s.cardamom.recB := rfl

theorem powerOff_br_get (s : State) (b : Fin 12) : (powerOff s).br.get b = Branch.init :=
  Vector.getElem_replicate b.isLt

theorem tearArea_of_none {rcb : Bool} {s : State} (second : Bool) (h : openCommit rcb s = none) :
    tearArea rcb second s = s := by
  unfold tearArea
  rw [h]

theorem tearSec_of_none {s : State} (second : Bool) (h : s.cardamom.commit = none) : tearSec second s = s := by
  unfold tearSec
  rw [h]

/-- With no commit under way there is nothing to tear. -/
theorem tearCommit_of_none {s : State} (torn : Torn) (hrcb : openCommit true s = none)
    (hnor : openCommit false s = none) (hsec : s.cardamom.commit = none) : tearCommit torn s = s := by
  cases torn with
  | none => rfl
  | rcbA | rcbB => exact tearArea_of_none _ hrcb
  | norA | norB => exact tearArea_of_none _ hnor
  | secA | secB => exact tearSec_of_none _ hsec

/-- A commit under way on an area leaves copy A torn beside the old copy B, or the new copy A beside a torn copy B. -/
theorem tearArea_of_some {rcb : Bool} {a b new : NorCopy} {s : State} (second : Bool)
    (h : openCommit rcb s = some (a, b, new)) :
    tearArea rcb second s = setPow (fun p =>
      let x := if second then new else { a with valid := false }
      let y := if second then { b with valid := false } else b
      if rcb then { p with rcbA := x, rcbB := y } else { p with norA := x, norB := y }) s := by
  unfold tearArea
  rw [h]

theorem tearSec_of_some {a b : SecRecord} {at_ : Nat} {s : State} (second : Bool)
    (h : s.cardamom.commit = some (a, b, at_)) (hopen : s.clk.cycles ≤ at_ + msCycles 25) :
    tearSec second s = { s with cardamom := { s.cardamom with
      recA := if second then s.cardamom.recA else { a with valid := false }
      recB := if second then { b with valid := false } else b } } := by
  unfold tearSec
  rw [h]
  exact if_neg (Nat.not_lt.mpr hopen)

/-- The end of hold-up leaves an OFF part with no branch driven, and what does not depend on its power. -/
theorem holdupEnd_powers_off {torn : Torn} {s : State} (hlost : s.pow.vinLost = true) :
    Ends (.holdupEnd torn) s (fun t => t.part.st = .off ∧ t.clk.running = false ∧ t.pow.holdup = .off ∧
      t.pending = s.pending ∧ t.ident = s.ident ∧ t.nut.copyA = s.nut.copyA ∧ t.nut.copyB = s.nut.copyB ∧
      (∀ b : Fin 12, (t.br.get b).st = .off ∧ (t.br.get b).gate = .off)) := by
  have hframe : Only [.nums, .blobs, .pow, .cardamom] s (tearCommit torn s) :=
    keep_tearCommit torn (.of_all rfl) (only_refl _ _)
  have hpending : (tearCommit torn s).pending = s.pending := hframe .pending (by decide)
  have hident : (tearCommit torn s).ident = s.ident := hframe .ident (by decide)
  have hnut : (tearCommit torn s).nut = s.nut := hframe .nut (by decide)
  refine holdupEnd_ends hlost ⟨rfl, rfl, rfl, hpending, hident, congrArg (·.copyA) hnut, congrArg (·.copyB) hnut, ?_⟩
  intro b
  rw [powerOff_br_get]
  exact ⟨rfl, rfl⟩

/-- Settles O57: below 28 V only the input's loss is noted; the end of hold-up tears the one commit named, where it is
under way, and Rye stops. -/
theorem inputLostReturnedAndHoldupEnd : Obligations.InputLostReturnedAndHoldupEnd := by
  unfold Obligations.InputLostReturnedAndHoldupEnd
  refine ⟨?_, ?_, ?_, ?_, ?_, ?_, ?_, ?_, ?_, ?_, ?_⟩
  · intro v s hrun hv
    exact ⟨_, if_pos (by simp [hrun, hv]), rfl⟩
  · intro v s hrun hlost hv
    exact ⟨_, if_pos (by simp [hrun, hlost, hv]), rfl, rfl, rfl, rfl, rfl, rfl, rfl⟩
  · exact fun _ _ hlost => holdupEnd_powers_off hlost
  · exact fun _ hlost => holdupEnd_ends hlost ⟨rfl, rfl, rfl, rfl, rfl, rfl⟩
  · intro torn s hlost hrcb hnor hsec
    refine holdupEnd_ends hlost ?_
    rw [tearCommit_of_none torn hrcb hnor hsec]
    exact ⟨rfl, rfl, rfl, rfl, rfl, rfl⟩
  · exact fun a b new s hlost hopen => holdupEnd_ends hlost (by simp [tearCommit, tearArea_of_some _ hopen, setPow])
  · exact fun a b new s hlost hopen => holdupEnd_ends hlost (by simp [tearCommit, tearArea_of_some _ hopen, setPow])
  · exact fun a b new s hlost hopen => holdupEnd_ends hlost (by simp [tearCommit, tearArea_of_some _ hopen, setPow])
  · exact fun a b new s hlost hopen => holdupEnd_ends hlost (by simp [tearCommit, tearArea_of_some _ hopen, setPow])
  · exact fun a b at_ s hlost hopen hin => holdupEnd_ends hlost (by simp [tearCommit, tearSec_of_some _ hopen hin])
  · exact fun a b at_ s hlost hopen hin => holdupEnd_ends hlost (by simp [tearCommit, tearSec_of_some _ hopen hin])

/-! ## ANT words (R227) -/

/-- The word of a link leaves the way to Sorghum. -/
def tookAnt (a : Fin 8) (s : State) : State := setAni (fun x => { x with formed := vupd x.formed a (fun _ => none) }) s

theorem deliverAnt_in_window {a : Fin 8} {n w : Nat} {s : State} (hf : s.ani.formed.get a = some (n, w))
    (hin : now s ≤ startOf s n + 5960) :
    deliverAnt a s = setAni (fun x => { x with words := vupd x.words a (fun _ => some (n, w)) }) (tookAnt a s) := by
  unfold deliverAnt
  rw [hf]
  exact if_pos hin

theorem deliverAnt_late {a : Fin 8} {n w : Nat} {s : State} (hf : s.ani.formed.get a = some (n, w))
    (hlate : startOf s n + 5960 < now s) : deliverAnt a s = inc32 (tookAnt a s) (Obj.antLate a.val) := by
  unfold deliverAnt
  rw [hf]
  exact if_neg (Nat.not_le.mpr hlate)

theorem antReceived_in_window {a : Fin 8} {n w : Nat} {s : State} (hf : s.ani.formed.get a = some (n, w))
    (hin : now s ≤ startOf s n + 5960) :
    Ends (.strawValueReceived (.ant a)) s (fun t => t.ani.words.get a = some (n, w) ∧ t.ani.formed.get a = none ∧
      t.nums = s.nums ∧ ∀ b : Fin 8, b ≠ a → t.ani.words.get b = s.ani.words.get b) := by
  refine ⟨_, congrArg Host.Outcome.next (deliverAnt_in_window hf hin), ?_, ?_, rfl, fun b hb => ?_⟩
  · exact vupd_get_same _ _ _
  · exact vupd_get_same _ _ _
  · exact vupd_get_other _ _ _ _ hb.symm

theorem antReceived_late {a : Fin 8} {n w : Nat} {s : State} (hf : s.ani.formed.get a = some (n, w))
    (hlate : startOf s n + 5960 < now s) :
    Ends (.strawValueReceived (.ant a)) s (fun t => t.ani.words = s.ani.words ∧
      getN t (Obj.antLate a.val) = min (getN s (Obj.antLate a.val) + 1) 0xFFFFFFFF) :=
  ⟨_, congrArg Host.Outcome.next (deliverAnt_late hf hlate), rfl, getN_setN_same _ _ _⟩

theorem antDelivered_in_window {a : Fin 8} {ns n w : Nat} {s : State} (hf : s.ani.formed.get a = some (n, w))
    (hin : now (reachCount (startOf s n + ns) s) ≤ startOf s n + 5960) :
    Ends (.antWordDelivered a ns) s (fun t => t.ani.words.get a = some (n, w) ∧ t.ani.formed.get a = none) := by
  have hexec : exec (.antWordDelivered a ns) s = .next (deliverAnt a (reachCount (startOf s n + ns) s)) := by
    show execAntWordDelivered a ns s = _
    unfold execAntWordDelivered
    rw [hf]
  obtain ⟨k, hk⟩ := reachCount_eq_with_clk (startOf s n + ns) s
  rw [hk] at hexec hin
  refine ⟨_, hexec, ?_⟩
  have hf' : ({ s with clk := k } : State).ani.formed.get a = some (n, w) := hf
  have hin' : now { s with clk := k } ≤ startOf { s with clk := k } n + 5960 := hin
  rw [deliverAnt_in_window hf' hin']
  exact ⟨vupd_get_same _ _ _, vupd_get_same _ _ _⟩

/-- A word that is not for the frame whose window ends is dropped. -/
theorem antDeadline_drops {a : Fin 8} {s : State} (hrun : slotsRun s = true)
    (hw : (s.ani.words.get a).map Prod.fst ≠ some (slotFor 5960 s)) :
    Ends (.strawDeadlineExpired (.ant a)) s (fun t => t.ani.words.get a = none ∧
      ∀ b : Fin 8, b ≠ a → t.ani.words.get b = s.ani.words.get b) := by
  obtain ⟨k, hk⟩ := reachCount_eq_with_clk (startOf s (slotFor 5960 s) + 5960) s
  have hexec : exec (.strawDeadlineExpired (.ant a)) s =
      .next (setAni (fun x => { x with words := vupd x.words a (fun _ => none) }) { s with clk := k }) := by
    show execStrawDeadlineExpired (.ant a) s = _
    simp only [execStrawDeadlineExpired, hrun, hk]
    cases hword : s.ani.words.get a with
    | none => rfl
    | some p =>
      have hother : p.1 ≠ slotFor 5960 s := fun e => hw (by rw [hword, ← e]; rfl)
      simp [hother]
  exact ⟨_, hexec, vupd_get_same _ _ _, fun b hb => vupd_get_other _ _ _ _ hb.symm⟩

/-! ## ANT slots (R226 to R228) -/

theorem antLastWord_key_ne {a b : Fin 8} (h : b ≠ a) : (Obj.antLastWord b.val).key ≠ (Obj.antLastWord a.val).key := by
  intro e
  simp only [Obj.antLastWord] at e
  omega

/-- In its slot every link carries what the slot gives it, and a word that is sent is shown in ANT_LAST_WORD. -/
theorem antSlot_sends {s : State} (hrun : slotsRun s = true) :
    Ends .antSlot s (fun t => ∀ (a : Fin 8) (word : Option Nat),
      slotWord (reachCount (startOf s (slotFor 6080 s) + 6080) s) (slotFor 6080 s) a = word →
      t.ani.antLine.get a = word ∧ ∀ w, word = some w → getN t (Obj.antLastWord a.val) = w) := by
  refine ⟨_, if_neg (by simp [hrun]), ?_⟩
  intro a word hword
  have hws : (Vector.ofFn (slotWord (reachCount (startOf s (slotFor 6080 s) + 6080) s) (slotFor 6080 s))).get a = word :=
    (Vector.getElem_ofFn a.isLt).trans hword
  refine ⟨?_, fun w hw => ?_⟩
  · rw [noteDegraded_ani]
    refine forAll_keeps (P := fun u => u.ani.antLine.get a = word) (fun j u hu => ?_) hws
    split <;> exact hu
  · rw [getN_of_nums_eq (noteDegraded_nums _)]
    refine forAll_at a (P := fun _ => True) (Q := fun u => getN u (Obj.antLastWord a.val) = w)
      (fun _ _ _ _ => trivial) (fun u _ => ?_) (fun j hj u hu => ?_) trivial
    · rw [hws, hw]
      exact getN_setN_same _ _ _
    · split
      · exact (getN_setN_other _ _ _ _ (antLastWord_key_ne hj)).trans hu
      · exact hu

theorem slotWord_of_disabled {s : State} {n : Nat} {a : Fin 8} (h : antEnabled s a n = false) : slotWord s n a = none := by
  simp [slotWord, h]

theorem slotWord_of_no_word {s : State} {n : Nat} {a : Fin 8} (h : antEnabled s a n = true)
    (hw : s.ani.words.get a = none) : slotWord s n a = some (noForecastWord n) := by
  simp [slotWord, h, hw]

theorem slotWord_of_word {s : State} {n w : Nat} {a : Fin 8} (h : antEnabled s a n = true)
    (hw : s.ani.words.get a = some (n, w)) (hon : accelOn s a = true) (hup : mainUp s = true) :
    slotWord s n a = some w := by
  simp [slotWord, h, hw, hon, hup]

theorem antSlot_silent {a : Fin 8} {s : State} (hrun : slotsRun s = true)
    (hen : antEnabled (reachCount (startOf s (slotFor 6080 s) + 6080) s) a (slotFor 6080 s) = false) :
    Ends .antSlot s (fun t => t.ani.antLine.get a = none) :=
  ends_mono (antSlot_sends hrun) fun _ h => (h a _ (slotWord_of_disabled hen)).1

theorem antSlot_no_forecast {a : Fin 8} {s : State} (hrun : slotsRun s = true)
    (hen : antEnabled (reachCount (startOf s (slotFor 6080 s) + 6080) s) a (slotFor 6080 s) = true)
    (hw : s.ani.words.get a = none) :
    Ends .antSlot s (fun t => t.ani.antLine.get a = some (noForecastWord (slotFor 6080 s)) ∧
      getN t (Obj.antLastWord a.val) = noForecastWord (slotFor 6080 s)) := by
  refine ends_mono (antSlot_sends hrun) fun t h => ?_
  obtain ⟨hline, hlast⟩ := h a _ (slotWord_of_no_word hen (by rw [reachCount_ani, hw]))
  exact ⟨hline, hlast _ rfl⟩

theorem antSlot_forecast {a : Fin 8} {w : Nat} {s : State} (hrun : slotsRun s = true)
    (hen : antEnabled (reachCount (startOf s (slotFor 6080 s) + 6080) s) a (slotFor 6080 s) = true)
    (hw : s.ani.words.get a = some (slotFor 6080 s, w)) (hon : accelOn s a = true) (hup : mainUp s = true) :
    Ends .antSlot s (fun t => t.ani.antLine.get a = some w ∧ getN t (Obj.antLastWord a.val) = w) := by
  refine ends_mono (antSlot_sends hrun) fun t h => ?_
  obtain ⟨k, hk⟩ := reachCount_eq_with_clk (startOf s (slotFor 6080 s) + 6080) s
  rw [hk] at hen h
  obtain ⟨hline, hlast⟩ := h a _ (slotWord_of_word hen hw hon hup)
  exact ⟨hline, hlast _ rfl⟩

/-! ## Adapted curves (R214) -/

theorem curveReceived {b : Fin 12} {cs : List Nat} {s : State} (h : s.ani.curves.get b = some cs) :
    Ends (.strawValueReceived (.curve b)) s (fun t => (t.br.get b).adaptedNext = some cs ∧
      (t.br.get b).adapted = (s.br.get b).adapted ∧ t.ani.curves.get b = none ∧
      ∀ x : Fin 12, x ≠ b → t.br.get x = s.br.get x) := by
  have hexec : receiveCurve b s = updBr b (fun x => { x with adaptedNext := some cs })
      (setAni (fun a => { a with curves := vupd a.curves b (fun _ => none) }) s) := by
    unfold receiveCurve
    rw [h]
  refine ⟨_, congrArg Host.Outcome.next hexec, ?_, ?_, vupd_get_same _ _ _, fun x hx => vupd_get_other _ _ _ _ hx.symm⟩
  · rw [updBr_get_same]
  · rw [updBr_get_same]
    rfl

theorem applyCurve_of_none {b : Fin 12} {s : State} (h : (s.br.get b).adaptedNext = none) : applyCurve b s = s := by
  unfold applyCurve
  rw [h]

theorem applyCurve_of_some {b : Fin 12} {cs : List Nat} {s : State} (h : (s.br.get b).adaptedNext = some cs) :
    applyCurve b s = updBr b (fun x => { x with
      adapted := some cs, adaptedNext := none, adaptedDue := s.clk.cycles + 2 * (frameNs s / 40) }) s := by
  unfold applyCurve
  rw [h]

theorem applyCurve_get_other {b x : Fin 12} (s : State) (h : x ≠ b) : (applyCurve b s).br.get x = s.br.get x := by
  unfold applyCurve
  split
  · rfl
  · exact updBr_get_other _ _ _ _ h.symm

/-- Every branch with a delivered curve comes to hold it, for two frames from now. -/
theorem applyCurves_get {b : Fin 12} {cs : List Nat} {s : State} (h : (s.br.get b).adaptedNext = some cs) :
    (forAll 12 applyCurve s).br.get b = { s.br.get b with
      adapted := some cs, adaptedNext := none, adaptedDue := s.clk.cycles + 2 * (frameNs s / 40) } := by
  have hkeep (j : Fin 12) (u : State) (hu : Only [.br] s u) : Only [.br] s (applyCurve j u) :=
    keep_applyCurve j (.of_all rfl) hu
  refine forAll_at b (P := fun u => Only [.br] s u ∧ u.br.get b = s.br.get b)
    (Q := fun u => u.br.get b = { s.br.get b with
      adapted := some cs, adaptedNext := none, adaptedDue := s.clk.cycles + 2 * (frameNs s / 40) })
    (fun j hj u hu => ⟨hkeep j u hu.1, (applyCurve_get_other u hj.symm).trans hu.2⟩) (fun u hu => ?_)
    (fun j hj u hu => (applyCurve_get_other u hj.symm).trans hu) ⟨only_refl _ s, rfl⟩
  obtain ⟨hframe, hbr⟩ := hu
  have hclk : u.clk = s.clk := hframe .clk (by decide)
  rw [applyCurve_of_some (hbr ▸ h), updBr_get_same, hbr, hclk, frameNs_of_nums_eq (hframe .nums (by decide))]

theorem curveDeadline_drops {b : Fin 12} {cs : List Nat} {s : State} (hc : (s.br.get b).adapted = some cs)
    (hnext : (s.br.get b).adaptedNext = none) :
    Ends (.strawDeadlineExpired (.curve b)) s (fun t => (t.br.get b).adapted = none ∧
      ∀ x : Fin 12, x ≠ b → t.br.get x = s.br.get x) := by
  obtain ⟨k, hk⟩ := tickTo_eq_with_clk (s.br.get b).adaptedDue s
  have hexec : exec (.strawDeadlineExpired (.curve b)) s =
      .next (updBr b (fun x => { x with adapted := none }) { s with clk := k }) := by
    show execStrawDeadlineExpired (.curve b) s = _
    simp [execStrawDeadlineExpired, hc, hk, hnext]
  refine ⟨_, hexec, ?_, fun x hx => vupd_get_other _ _ _ _ hx.symm⟩
  rw [updBr_get_same]

/-! ## Cooling set points (R30, R31, R214, R311) -/

theorem settleOut_get_other {o x : Fin 24} (s : State) (h : x ≠ o) :
    (settleOut o s).cool.outs.get x = s.cool.outs.get x := updOut_get_other _ _ _ _ h.symm

/-- The rule of an output looks at its set point, at whether it is fresh, and at what is outside the outputs. -/
theorem outRule_settleOut (o : Fin 24) (s : State) : outRule (settleOut o s) o = outRule s o := by
  have hclose : leakCloses (settleOut o s) o = leakCloses s o := rfl
  have hget : (settleOut o s).cool.outs.get o = _ := updOut_get_same _ _ _
  unfold outRule
  rw [hclose, hget]
  rfl

/-- A settled output follows its rule. -/
theorem settleOut_follows (o : Fin 24) (s : State) :
    (((settleOut o s).cool.outs.get o).st, ((settleOut o s).cool.outs.get o).applied) = outRule (settleOut o s) o := by
  rw [outRule_settleOut]
  unfold settleOut
  rw [updOut_get_same]

/-- An output as a set point leaves it whose deadline is `due`. -/
def SetPointTaken (v : Rat) (due : Nat) (x : Output) : Prop :=
  x.setPoint = v ∧ x.delivered = none ∧ x.fresh = true ∧ x.due = due

theorem applyOut_takes (o : Fin 24) (v : Rat) (s : State) :
    SetPointTaken v (s.clk.cycles + msCycles 5) ((applyOut o v s).cool.outs.get o) := by
  unfold applyOut settleOut
  rw [updOut_get_same, updOut_get_same]
  exact ⟨rfl, rfl, rfl, rfl⟩

theorem applyOut_get_other {o x : Fin 24} (v : Rat) (s : State) (h : x ≠ o) :
    (applyOut o v s).cool.outs.get x = s.cool.outs.get x :=
  (settleOut_get_other _ h).trans (updOut_get_other _ _ _ _ h.symm)

/-- The set point of an output leaves the way to Rye. -/
def tookSent (o : Fin 24) (s : State) : State := setAni (fun a => { a with sent := vupd a.sent o (fun _ => none) }) s

theorem receiveOut_of_finite {o : Fin 24} {v : Nat} {s : State} (hsent : s.ani.sent.get o = some v)
    (hfin : Fmt.f32.isFinite v = true) :
    receiveOut o s = if s.part.st = .run then updOut o (fun x => { x with delivered := some (f32ToRat v) }) (tookSent o s)
      else applyOut o (f32ToRat v) (tookSent o s) := by
  unfold receiveOut setPointRat
  rw [hsent]
  simp only [hfin]
  rfl

theorem setPointReceived_outside_run {o : Fin 24} {v : Nat} {s : State} (hsent : s.ani.sent.get o = some v)
    (hfin : Fmt.f32.isFinite v = true) (hrun : s.part.st ≠ .run) :
    Ends (.strawValueReceived (.output o)) s (fun t => (t.cool.outs.get o).setPoint = f32ToRat v ∧
      (t.cool.outs.get o).fresh = true ∧ (t.cool.outs.get o).due = s.clk.cycles + msCycles 5 ∧
      ((t.cool.outs.get o).st, (t.cool.outs.get o).applied) = outRule t o ∧
      ∀ x : Fin 24, x ≠ o → t.cool.outs.get x = s.cool.outs.get x) := by
  refine ⟨_, congrArg Host.Outcome.next ((receiveOut_of_finite hsent hfin).trans (if_neg hrun)), ?_⟩
  obtain ⟨hpoint, -, hfresh, hdue⟩ := applyOut_takes o (f32ToRat v) (tookSent o s)
  exact ⟨hpoint, hfresh, hdue, settleOut_follows o _, fun x hx => applyOut_get_other _ (tookSent o s) hx⟩

theorem setPointReceived_in_run {o : Fin 24} {v : Nat} {s : State} (hsent : s.ani.sent.get o = some v)
    (hfin : Fmt.f32.isFinite v = true) (hrun : s.part.st = .run) :
    Ends (.strawValueReceived (.output o)) s (fun t => (t.cool.outs.get o).delivered = some (f32ToRat v) ∧
      (t.cool.outs.get o).applied = (s.cool.outs.get o).applied ∧ t.ani.sent.get o = none) := by
  refine ⟨_, congrArg Host.Outcome.next ((receiveOut_of_finite hsent hfin).trans (if_pos hrun)), ?_⟩
  have hget := updOut_get_same o (fun x => { x with delivered := some (f32ToRat v) }) (tookSent o s)
  exact ⟨congrArg (·.delivered) hget, congrArg (·.applied) hget, vupd_get_same _ _ _⟩

theorem setPointDeadline_falls_back {o : Fin 24} {s : State} (hfresh : (s.cool.outs.get o).fresh = true) :
    Ends (.strawDeadlineExpired (.output o)) s (fun t => (t.cool.outs.get o).fresh = false ∧
      ((t.cool.outs.get o).st, (t.cool.outs.get o).applied) = outRule t o ∧
      ∀ x : Fin 24, x ≠ o → t.cool.outs.get x = s.cool.outs.get x) := by
  obtain ⟨k, hk⟩ := tickTo_eq_with_clk (s.cool.outs.get o).due s
  have hexec : exec (.strawDeadlineExpired (.output o)) s =
      .next (settleOut o (updOut o (fun x => { x with fresh := false }) { s with clk := k })) := by
    show execStrawDeadlineExpired (.output o) s = _
    simp [execStrawDeadlineExpired, hfresh, hk]
  refine ⟨_, hexec, ?_, settleOut_follows o _, fun x hx => ?_⟩
  · unfold settleOut
    rw [updOut_get_same, updOut_get_same]
  · exact (settleOut_get_other _ hx).trans (updOut_get_other _ _ _ _ hx.symm)

/-! ## The application of what was delivered (R214) -/

/-- The turn of an output in CURVE_APPLY. -/
def applyDelivered (o : Fin 24) (s : State) : State :=
  match (s.cool.outs.get o).delivered with
  | some v => applyOut o v s
  | none => s

theorem curveApply_eq {s : State} (hrun : slotsRun s = true) :
    exec .curveApply s = .next (forAll 24 applyDelivered
      (forAll 12 applyCurve (reachCount (startOf s (slotFor 8000 s) + 8000) s))) := if_neg (by simp [hrun])

theorem applyDelivered_of_some {o : Fin 24} {v : Rat} {s : State} (h : (s.cool.outs.get o).delivered = some v) :
    applyDelivered o s = applyOut o v s := by
  unfold applyDelivered
  rw [h]

theorem applyDelivered_only (o : Fin 24) (s : State) : Only [.cool] s (applyDelivered o s) := by
  unfold applyDelivered
  split
  · exact keep_applyOut _ _ (.of_all rfl) (only_refl _ s)
  · exact only_refl _ s

theorem applyDelivered_get_other {o x : Fin 24} (s : State) (h : x ≠ o) :
    (applyDelivered o s).cool.outs.get x = s.cool.outs.get x := by
  unfold applyDelivered
  split
  · exact applyOut_get_other _ _ h
  · rfl

theorem applyDelivereds_only (s : State) : Only [.cool] s (forAll 24 applyDelivered s) :=
  forAll_keeps (fun o u hu => only_trans hu (applyDelivered_only o u)) (only_refl _ s)

/-- Every output with a delivered set point comes to hold it. -/
theorem applyDelivereds_take {o : Fin 24} {v : Rat} {s : State} (h : (s.cool.outs.get o).delivered = some v) :
    ∃ due, SetPointTaken v due ((forAll 24 applyDelivered s).cool.outs.get o) := by
  refine forAll_at o (P := fun u => (u.cool.outs.get o).delivered = some v)
    (Q := fun u => ∃ due, SetPointTaken v due (u.cool.outs.get o)) (fun j hj u hu => ?_) (fun u hu => ?_)
    (fun j hj u hu => ?_) h
  · rw [applyDelivered_get_other u hj.symm]
    exact hu
  · rw [applyDelivered_of_some hu]
    exact ⟨_, applyOut_takes o v u⟩
  · rw [applyDelivered_get_other u hj.symm]
    exact hu

theorem applyCurves_only (s : State) : Only [.br] s (forAll 12 applyCurve s) :=
  forAll_keeps (fun b _ hu => keep_applyCurve b (.of_all rfl) hu) (only_refl _ s)

/-- CURVE_APPLY puts every delivered curve and every delivered set point in force. -/
theorem curveApply_applies {s : State} (hrun : slotsRun s = true) :
    Ends .curveApply s (fun t => (∀ b : Fin 12, (s.br.get b).adaptedNext.isSome = true →
        (t.br.get b).adapted = (s.br.get b).adaptedNext ∧ (t.br.get b).adaptedNext = none ∧
        (t.br.get b).adaptedDue = t.clk.cycles + 2 * (frameNs s / 40)) ∧
      ∀ (o : Fin 24), (s.cool.outs.get o).delivered.isSome = true →
        some (t.cool.outs.get o).setPoint = (s.cool.outs.get o).delivered ∧ (t.cool.outs.get o).delivered = none ∧
        (t.cool.outs.get o).fresh = true) := by
  obtain ⟨k, hk⟩ := reachCount_eq_with_clk (startOf s (slotFor 8000 s) + 8000) s
  have hcurves := applyCurves_only { s with clk := k }
  have houts := applyDelivereds_only (forAll 12 applyCurve { s with clk := k })
  refine ⟨_, curveApply_eq hrun, ?_⟩
  rw [hk]
  refine ⟨fun b hb => ?_, fun o ho => ?_⟩
  · obtain ⟨cs, hcs⟩ := Option.isSome_iff_exists.mp hb
    have hclk : (forAll 24 applyDelivered (forAll 12 applyCurve { s with clk := k })).clk = k :=
      (houts .clk (by decide) : _ = _).trans (hcurves .clk (by decide))
    have hbr : (forAll 24 applyDelivered (forAll 12 applyCurve { s with clk := k })).br = _ := houts .br (by decide)
    rw [hclk, hbr, applyCurves_get (s := { s with clk := k }) hcs, hcs]
    exact ⟨rfl, rfl, rfl⟩
  · obtain ⟨v, hv⟩ := Option.isSome_iff_exists.mp ho
    have hcool : (forAll 12 applyCurve { s with clk := k }).cool = s.cool := hcurves .cool (by decide)
    have hv' : ((forAll 12 applyCurve { s with clk := k }).cool.outs.get o).delivered = some v := by rw [hcool, hv]
    obtain ⟨due, hpoint, hdelivered, hfresh, -⟩ := applyDelivereds_take hv'
    exact ⟨by rw [hv, hpoint], hdelivered, hfresh⟩

/-- Settles O14: a value that arrives in time is taken and applied, one that does not falls back, each by the lemma of its
kind. -/
theorem strawValuesAndFallbacks : Obligations.StrawValuesAndFallbacks := by
  unfold Obligations.StrawValuesAndFallbacks
  exact ⟨fun _ _ _ _ => antReceived_in_window, fun _ _ _ _ => antReceived_late, fun _ _ _ => curveReceived,
    fun _ _ _ => setPointReceived_outside_run, fun _ _ _ => setPointReceived_in_run, fun _ => curveApply_applies,
    fun _ _ => antDeadline_drops, fun _ _ _ => curveDeadline_drops, fun _ _ => setPointDeadline_falls_back,
    fun _ _ _ _ _ => antDelivered_in_window, fun _ _ => antSlot_silent, fun _ _ => antSlot_no_forecast,
    fun _ _ _ => antSlot_forecast⟩

/-! ## The start of Rye (R35 to R38, R245)

Rye start loads the clock and the NOR copies first, then sets each branch, then each accelerator with its sequencer. What
comes after that settles outputs, part state and effective requests, and leaves those settings as they stand. -/

/-! ### What is loaded -/

/-- The count starts at 0, the converter has released Rye, and Nutmeg's newest copy is restored. -/
def ryeRestored (s : State) : State :=
  restoreNut (setPow (fun p => { p with holdup := .released }) { s with clk := { Clock.init with running := true } })

/-- The RCB and the persisted objects are loaded: the state from which the branches start. -/
def ryeLoaded (s : State) : State :=
  loadCopy (newestCopy (ryeRestored s).pow.norA (ryeRestored s).pow.norB) (loadRcb (ryeRestored s))

/-- Nutmeg's restore replaces nothing of the clock but the epoch. -/
theorem restoreNut_clk (s : State) : (restoreNut s).clk.running = s.clk.running ∧ (restoreNut s).clk.rc = s.clk.rc := by
  unfold restoreNut
  split
  · extract_lets d life counted marked appended
    split
    · exact ⟨rfl, rfl⟩
    · exact ⟨rfl, rfl⟩
  · exact ⟨rfl, rfl⟩

theorem loadRcb_of_copy {c : NorCopy} {s : State} (h : newestCopy s.pow.rcbA s.pow.rcbB = some c) :
    (loadRcb s).pow = { s.pow with rcbLoaded := true } := by
  unfold loadRcb
  rw [h]
  rfl

theorem loadRcb_of_no_copy {s : State} (h : newestCopy s.pow.rcbA s.pow.rcbB = none) :
    (loadRcb s).pow = { s.pow with rcbInvalid := true, norReleased := true } := by
  unfold loadRcb
  rw [h]
  rfl

theorem restoreNut_pow (s : State) : (restoreNut s).pow = s.pow :=
  keep_restoreNut (L := [.nums, .blobs, .clk, .ev, .nut, .rep]) (.of_all rfl) (only_refl _ s) .pow (by decide)

theorem loadCopy_only (c : Option NorCopy) (s : State) : Only [.nums, .blobs] s (loadCopy c s) :=
  keep_loadCopy c (.of_all rfl) (only_refl _ s)

theorem ryeRestored_pow (s : State) : (ryeRestored s).pow = { s.pow with holdup := .released } := restoreNut_pow _

theorem ryeLoaded_pow (s : State) : (ryeLoaded s).pow = (loadRcb (ryeRestored s)).pow :=
  loadCopy_only _ _ .pow (by decide)

theorem ryeLoaded_pow_of_copy {c : NorCopy} {s : State} (h : newestCopy s.pow.rcbA s.pow.rcbB = some c) :
    (ryeLoaded s).pow = { s.pow with holdup := .released, rcbLoaded := true } := by
  rw [ryeLoaded_pow, loadRcb_of_copy (c := c) (by rw [ryeRestored_pow]; exact h), ryeRestored_pow]

theorem ryeLoaded_pow_of_no_copy {s : State} (h : newestCopy s.pow.rcbA s.pow.rcbB = none) :
    (ryeLoaded s).pow = { s.pow with holdup := .released, rcbInvalid := true, norReleased := true } := by
  rw [ryeLoaded_pow, loadRcb_of_no_copy (by rw [ryeRestored_pow]; exact h), ryeRestored_pow]

theorem ryeLoaded_clk (s : State) : (ryeLoaded s).clk.running = true ∧ (ryeLoaded s).clk.rc = false := by
  have hload : (ryeLoaded s).clk = (ryeRestored s).clk :=
    keep_loadCopy (L := [.nums, .blobs, .pow, .ev, .nut]) _ (.of_all rfl) (keep_loadRcb (.of_all rfl) (only_refl _ _))
      .clk (by decide)
  rw [hload]
  exact restoreNut_clk _

/-! ### The branches -/

/-- A branch as Rye start leaves it: not live, with its sampled pins, and OFF with no valid RCB copy. -/
structure BranchStarted (seated enabled : Nat) (b : Fin 12) (s : State) : Prop where
  dead : (s.br.get b).st.live = false
  enabledPin : (s.br.get b).en = bitSet enabled b.val
  seatedPin : ∀ a : Fin 8, b = branchOf a → (s.br.get b).seated = bitSet seated a.val
  offWithoutRcb : s.pow.rcbInvalid = true → (s.br.get b).st = .off

theorem accelOfBranch_branchOf (a : Fin 8) : accelOfBranch (branchOf a) = some a := by
  have hrange : 1 ≤ a.val + 1 ∧ a.val + 1 ≤ 8 := by omega
  simp [accelOfBranch, branchOf, hrange]

/-- None of the states in which a branch can start is live. -/
theorem startState_dead (noRcb flagged absent : Prop) [Decidable noRcb] [Decidable flagged] [Decidable absent] :
    (if noRcb then BrState.off else if flagged then .faultFet else if absent then .held else .off).live = false := by
  by_cases hrcb : noRcb
  · rw [if_pos hrcb]
    rfl
  · rw [if_neg hrcb]
    by_cases hflag : flagged
    · rw [if_pos hflag]
      rfl
    · rw [if_neg hflag]
      by_cases habsent : absent
      · rw [if_pos habsent]
        rfl
      · rw [if_neg habsent]
        rfl

theorem startBr_starts (seated enabled : Nat) (b : Fin 12) (s : State) :
    BranchStarted seated enabled b (startBr seated enabled b s) := by
  unfold startBr
  extract_lets h absent st
  have hseated (a : Fin 8) (ha : b = branchOf a) : (!absent) = bitSet seated a.val := by
    have habsent : absent = !(bitSet seated a.val) := by
      show (match accelOfBranch b with | some a => !(bitSet seated a.val) | none => false) = _
      rw [ha, accelOfBranch_branchOf]
    rw [habsent, Bool.not_not]
  exact {
    dead := (congrArg (fun x : Branch => x.st.live) (updBr_get_same _ _ _)).trans (startState_dead _ _ _)
    enabledPin := congrArg Branch.en (updBr_get_same _ _ _)
    seatedPin := fun a ha => (congrArg Branch.seated (updBr_get_same _ _ _)).trans (hseated a ha)
    offWithoutRcb := fun hinv => (congrArg Branch.st (updBr_get_same _ _ _)).trans (if_pos hinv) }

theorem startBr_get_other {b j : Fin 12} (seated enabled : Nat) (s : State) (h : j ≠ b) :
    (startBr seated enabled j s).br.get b = s.br.get b := updBr_get_other _ _ _ _ h

theorem BranchStarted.congr {seated enabled : Nat} {b : Fin 12} {s t : State} (h : BranchStarted seated enabled b s)
    (hbr : t.br.get b = s.br.get b) (hpow : t.pow = s.pow) : BranchStarted seated enabled b t :=
  ⟨hbr ▸ h.dead, hbr ▸ h.enabledPin, hbr ▸ h.seatedPin, by rw [hbr, hpow]; exact h.offWithoutRcb⟩

theorem startBrs_start (seated enabled : Nat) (s : State) (b : Fin 12) :
    BranchStarted seated enabled b (forAll 12 (startBr seated enabled) s) :=
  forAll_at b (P := fun _ => True) (Q := BranchStarted seated enabled b) (fun _ _ _ _ => trivial)
    (fun u _ => startBr_starts seated enabled b u)
    (fun _ hj u hu => hu.congr (startBr_get_other seated enabled u hj) rfl) trivial

/-! ### The accelerators -/

/-- An accelerator as Rye start leaves it: its sequencer at rest with the sampled pin, its requests the boot requests. -/
structure AccelStarted (thermtrip : Nat) (a : Fin 8) (s : State) : Prop where
  resting : (s.sq.get (seqOf a)).st = .idle ∨ (s.sq.get (seqOf a)).st = .held
  thermtripPin : (s.sq.get (seqOf a)).thermtripN = bitSet thermtrip a.val
  facilityBoot : (s.acc.get a).reqF = reqOf (getN s (Obj.facilityBootReq a.val))
  hostBoot : (s.acc.get a).reqH = reqOf (getN s (Obj.hostBootReq a.val))

theorem startAccel_starts (thermtrip : Nat) (a : Fin 8) (s : State) :
    AccelStarted thermtrip a (startAccel thermtrip a s) := by
  unfold startAccel
  extract_lets held req st s1
  have hsq : s1.sq.get (seqOf a) = _ := updSeq_get_same _ _ _
  refine ⟨?_, congrArg Seq.thermtripN hsq, congrArg Accel.reqF (updAcc_get_same _ _ _),
    congrArg Accel.reqH (updAcc_get_same _ _ _)⟩
  have hst : (s1.sq.get (seqOf a)).st = st := congrArg Seq.st hsq
  show (s1.sq.get (seqOf a)).st = .idle ∨ (s1.sq.get (seqOf a)).st = .held
  rw [hst]
  by_cases hheld : held
  · exact .inr (if_pos hheld)
  · exact .inl (if_neg hheld)

theorem seqOf_ne {a j : Fin 8} (h : j ≠ a) : seqOf j ≠ seqOf a := fun e =>
  h (Fin.ext (congrArg Fin.val e :))

theorem AccelStarted.congr {thermtrip : Nat} {a : Fin 8} {s t : State} (h : AccelStarted thermtrip a s)
    (hsq : t.sq.get (seqOf a) = s.sq.get (seqOf a)) (hf : (t.acc.get a).reqF = (s.acc.get a).reqF)
    (hh : (t.acc.get a).reqH = (s.acc.get a).reqH) (hnums : t.nums = s.nums) : AccelStarted thermtrip a t :=
  ⟨hsq ▸ h.resting, hsq ▸ h.thermtripPin, by rw [hf, getN_of_nums_eq hnums]; exact h.facilityBoot,
    by rw [hh, getN_of_nums_eq hnums]; exact h.hostBoot⟩

theorem startAccels_start (thermtrip : Nat) (s : State) (a : Fin 8) :
    AccelStarted thermtrip a (forAll 8 (startAccel thermtrip) s) := by
  refine forAll_at a (P := fun _ => True) (Q := AccelStarted thermtrip a) (fun _ _ _ _ => trivial)
    (fun u _ => startAccel_starts thermtrip a u) (fun j hj u hu => ?_) trivial
  have hacc : (startAccel thermtrip j u).acc.get a = u.acc.get a := updAcc_get_other _ _ _ _ hj
  exact hu.congr (updSeq_get_other _ _ _ _ (seqOf_ne hj)) (by rw [hacc]) (by rw [hacc]) rfl

/-! ### What comes after them -/

theorem enterPart_st (st : PartState) (s : State) : (enterPart st s).part.st = st := by
  unfold enterPart
  split
  · assumption
  · exact congrArg Part.st (keep_announceAll (L := [.ev, .nut, .port]) (.of_all rfl) (only_refl _ _) .part (by decide))

theorem offOrder_of_resting {a : Fin 8} {s : State} (code : Nat)
    (h : (s.sq.get (seqOf a)).st = .idle ∨ (s.sq.get (seqOf a)).st = .held) : offOrder a code s = s := by
  unfold offOrder
  obtain e | e := h <;> simp only [e]

/-- The effective request of an accelerator whose sequencer rests changes neither a request nor another part. -/
theorem settleReq_of_resting {a : Fin 8} {s : State}
    (h : (s.sq.get (seqOf a)).st = .idle ∨ (s.sq.get (seqOf a)).st = .held) :
    Only [.acc, .ev, .nut] s (settleReq a s) ∧ ∀ b : Fin 8,
      ((settleReq a s).acc.get b).reqF = (s.acc.get b).reqF ∧ ((settleReq a s).acc.get b).reqH = (s.acc.get b).reqH := by
  unfold settleReq
  extract_lets x s1 s2
  have hoff : offOrder a 16 s2 = s2 := offOrder_of_resting 16 h
  rw [hoff, ite_self]
  split
  · exact ⟨only_refl _ s, fun _ => ⟨rfl, rfl⟩⟩
  · have hacc : s2.acc = s1.acc := rfl
    refine ⟨keep_raiseRye _ _ _ (.of_all rfl) (keep_updAcc a _ (.of_all rfl) (only_refl _ s)), fun b => ?_⟩
    rw [hacc]
    by_cases hab : a = b
    · subst hab
      have hget : s1.acc.get a = _ := updAcc_get_same _ _ _
      rw [hget]
      exact ⟨rfl, rfl⟩
    · have hget : s1.acc.get b = s.acc.get b := updAcc_get_other _ _ _ _ hab
      rw [hget]
      exact ⟨rfl, rfl⟩

/-- Settling the effective requests of accelerators that have just started leaves them as they started. -/
theorem settleReqs_of_started {thermtrip : Nat} {s : State} (h : ∀ a, AccelStarted thermtrip a s) :
    Only [.acc, .ev, .nut] s (forAll 8 settleReq s) ∧ ∀ a, AccelStarted thermtrip a (forAll 8 settleReq s) := by
  refine forAll_keeps (P := fun u => Only [.acc, .ev, .nut] s u ∧ ∀ a, AccelStarted thermtrip a u)
    (fun j u hu => ?_) ⟨only_refl _ s, h⟩
  obtain ⟨honly, hstarted⟩ := hu
  obtain ⟨hframe, hreq⟩ := settleReq_of_resting (hstarted j).resting
  have hsq : (settleReq j u).sq = u.sq := hframe .sq (by decide)
  exact ⟨only_trans honly hframe, fun a => (hstarted a).congr (by rw [hsq]) (hreq a).1 (hreq a).2
    (hframe .nums (by decide))⟩

/-! ### The whole start -/

/-- Every branch is started. -/
def branchesUp (seated enabled : Nat) (s : State) : State := forAll 12 (startBr seated enabled) (ryeLoaded s)

/-- Every accelerator is started after them. -/
def accelsUp (seated enabled thermtrip : Nat) (s : State) : State :=
  forAll 8 (startAccel thermtrip) (branchesUp seated enabled s)

/-- The outputs are settled and the part is in STANDBY. -/
def standbyUp (seated enabled thermtrip : Nat) (s : State) : State :=
  enterPart .standby (settleOuts (forAll 8 enableLeak (accelsUp seated enabled thermtrip s)))

theorem ryeStart_eq (seated enabled thermtrip : Nat) (s : State) :
    ryeStart seated enabled thermtrip s = forAll 8 settleReq (standbyUp seated enabled thermtrip s) := rfl

theorem branchesUp_only (seated enabled : Nat) (s : State) : Only [.br] (ryeLoaded s) (branchesUp seated enabled s) :=
  forAll_keeps (fun b _ hu => keep_startBr _ _ b (.of_all rfl) hu) (only_refl _ _)

theorem accelsUp_only (seated enabled thermtrip : Nat) (s : State) :
    Only [.sq, .acc] (branchesUp seated enabled s) (accelsUp seated enabled thermtrip s) :=
  forAll_keeps (fun a _ hu => keep_startAccel _ a (.of_all rfl) hu) (only_refl _ _)

theorem standbyUp_only (seated enabled thermtrip : Nat) (s : State) :
    Only [.cool, .part, .ev, .nut, .port] (accelsUp seated enabled thermtrip s) (standbyUp seated enabled thermtrip s) :=
  keep_enterPart _ (.of_all rfl) (keep_settleOuts (.of_all rfl)
    (forAll_keeps (fun c _ hu => keep_enableLeak c (.of_all rfl) hu) (only_refl _ _)))

theorem branchesUp_starts (seated enabled : Nat) (s : State) (b : Fin 12) :
    BranchStarted seated enabled b (branchesUp seated enabled s) := startBrs_start seated enabled (ryeLoaded s) b

theorem standbyUp_st (seated enabled thermtrip : Nat) (s : State) :
    (standbyUp seated enabled thermtrip s).part.st = .standby := by
  unfold standbyUp
  exact enterPart_st _ _

theorem standbyUp_accels (seated enabled thermtrip : Nat) (s : State) (a : Fin 8) :
    AccelStarted thermtrip a (standbyUp seated enabled thermtrip s) := by
  have hframe := standbyUp_only seated enabled thermtrip s
  have hsq : (standbyUp seated enabled thermtrip s).sq = (accelsUp seated enabled thermtrip s).sq :=
    hframe .sq (by decide)
  have hacc : (standbyUp seated enabled thermtrip s).acc = (accelsUp seated enabled thermtrip s).acc :=
    hframe .acc (by decide)
  exact (startAccels_start thermtrip (branchesUp seated enabled s) a).congr (congrArg (·.get (seqOf a)) hsq)
    (congrArg (fun v => (v.get a).reqF) hacc) (congrArg (fun v => (v.get a).reqH) hacc) (hframe .nums (by decide))

/-- What Rye start sets stands at its end: the clock and the supply as they were loaded, every branch and every accelerator
as it was started. -/
structure RyeStarted (seated enabled thermtrip : Nat) (s t : State) : Prop where
  standby : t.part.st = .standby
  running : t.clk.running = true
  onCrystal : t.clk.rc = false
  loaded : t.pow = (ryeLoaded s).pow
  branches : ∀ b, BranchStarted seated enabled b t
  accels : ∀ a, AccelStarted thermtrip a t

theorem ryeStart_started (seated enabled thermtrip : Nat) (s : State) :
    RyeStarted seated enabled thermtrip s (ryeStart seated enabled thermtrip s) := by
  rw [ryeStart_eq]
  obtain ⟨hreqs, haccels⟩ := settleReqs_of_started (standbyUp_accels seated enabled thermtrip s)
  have hafterBranches := only_trans (L := [.sq, .acc, .cool, .part, .ev, .nut, .port])
    (only_mono (accelsUp_only seated enabled thermtrip s) (.of_all rfl))
    (only_trans (only_mono (standbyUp_only seated enabled thermtrip s) (.of_all rfl)) (only_mono hreqs (.of_all rfl)))
  have hafterLoad := only_trans (L := [.br, .sq, .acc, .cool, .part, .ev, .nut, .port])
    (only_mono (branchesUp_only seated enabled s) (.of_all rfl)) (only_mono hafterBranches (.of_all rfl))
  have hpart : (forAll 8 settleReq (standbyUp seated enabled thermtrip s)).part = _ := hreqs .part (by decide)
  have hclk : (forAll 8 settleReq (standbyUp seated enabled thermtrip s)).clk = _ := hafterLoad .clk (by decide)
  have hbr : (forAll 8 settleReq (standbyUp seated enabled thermtrip s)).br = _ := hafterBranches .br (by decide)
  exact {
    standby := (congrArg Part.st hpart).trans (standbyUp_st seated enabled thermtrip s)
    running := (congrArg Clock.running hclk).trans (ryeLoaded_clk s).1
    onCrystal := (congrArg Clock.rc hclk).trans (ryeLoaded_clk s).2
    loaded := hafterLoad .pow (by decide)
    branches := fun b => (branchesUp_starts seated enabled s b).congr (congrArg (·.get b) hbr)
      (hafterBranches .pow (by decide))
    accels := haccels }

theorem ryeRelease_ends {seated enabled thermtrip : Nat} {s : State} (h : s.pow.holdup = .charging) {P : State → Prop}
    (hP : ∀ t, RyeStarted seated enabled thermtrip s t → P t) : Ends (.ryeRelease seated enabled thermtrip) s P :=
  ⟨_, if_pos h, hP _ (ryeStart_started seated enabled thermtrip s)⟩

/-- Rye without a valid RCB copy pulls FAULT_N low (R42). -/
theorem faultLow_of_rcbInvalid {s : State} (hrun : s.clk.running = true) (h : s.pow.rcbInvalid = true) :
    faultLow s = true := by
  simp [faultLow, hrun, h]

/-- Settles O56: the converter's start and its failure change the supply alone; Rye's release ends with everything as
started, on top of what the RCB copies gave. -/
theorem ryeReleaseWithAndWithoutTheRcb : Obligations.RyeReleaseWithAndWithoutTheRcb := by
  unfold Obligations.RyeReleaseWithAndWithoutTheRcb
  refine ⟨fun v s hoff hup hv => ⟨_, if_pos ⟨hoff, hup, hv⟩, rfl⟩, fun s hcharging => ⟨_, if_pos hcharging, rfl⟩, ?_, ?_⟩
  · intro seated enabled thermtrip c s hcharging hcopy
    refine ryeRelease_ends hcharging fun t ht => ?_
    have hpow := ht.loaded.trans (ryeLoaded_pow_of_copy hcopy)
    refine ⟨ht.standby, ht.running, ht.onCrystal, by rw [hpow], by rw [hpow], by rw [hpow], by rw [hpow],
      fun b => ⟨(ht.branches b).dead, (ht.branches b).enabledPin⟩, fun a => ?_⟩
    have ha := ht.accels a
    exact ⟨(ht.branches _).seatedPin a rfl, ha.thermtripPin, fun hn => by rw [ha.facilityBoot, hn]; rfl,
      fun hn => by rw [ha.facilityBoot, hn]; rfl, fun hn => by rw [ha.hostBoot, hn]; rfl,
      fun hn => by rw [ha.hostBoot, hn]; rfl⟩
  · intro seated enabled thermtrip s hcharging hnone
    refine ryeRelease_ends hcharging fun t ht => ?_
    have hpow := ht.loaded.trans (ryeLoaded_pow_of_no_copy hnone)
    have hinvalid : t.pow.rcbInvalid = true := by rw [hpow]
    exact ⟨ht.standby, ht.running, ht.onCrystal, by rw [hpow], hinvalid, by rw [hpow],
      faultLow_of_rcbInvalid ht.running hinvalid, fun b => (ht.branches b).offWithoutRcb hinvalid⟩

/-! ## The stop of S_SELF and the clock (R33, R56, R296) -/

theorem clock_run_state (c : Clock) (ppm n : Nat) : (c.run ppm n).state = c.state := by
  unfold Clock.run
  extract_lets _ _ b
  split
  · rfl
  · rfl

theorem tickTo_clk_state (due : Nat) (s : State) : (tickTo due s).clk.state = s.clk.state := by
  unfold tickTo
  split
  · exact clock_run_state _ _ _
  · exact clock_run_state _ _ _

theorem timeDown_of_locked {s : State} (h : s.clk.state = .locked) : (timeDown s).clk.state = .holdover := by
  unfold timeDown
  rw [if_pos (.inl h)]
  rfl

/-- A main die that stops while the count is LOCKED leaves it in HOLDOVER. -/
theorem mainDown_of_locked {s : State} (kept : Bool) (hup : s.part.reset = false) (hlocked : s.clk.state = .locked) :
    (mainDown kept s).clk.state = .holdover := by
  have hafter : Only [.nums, .acc, .heat, .part, .ev, .nut, .port, .eng, .img, .ani, .mem, .bar, .cardamom]
      (timeDown (odaDown s)) (mainDown kept s) := by
    unfold mainDown
    rw [if_neg (by simp [hup])]
    exact keep_mk_part _ (.of_all rfl) (keep_serializerDown (.of_all rfl) (keep_restartAnise (.of_all rfl)
      (keep_heatDown (.of_all rfl) (keep_limitsDown (.of_all rfl) (keep_engineDown (.of_all rfl)
      (keep_cardamomDown (.of_all rfl) (keep_barleyDown (.of_all rfl) (keep_memDown kept (.of_all rfl)
      (keep_portsDown (.of_all rfl) (only_refl _ _))))))))))
  have hclk : (mainDown kept s).clk = (timeDown (odaDown s)).clk := hafter .clk (by decide)
  rw [hclk]
  exact timeDown_of_locked hlocked

/-- The down list of an S_SELF that is ON with PGOOD high takes the main die down with it, and so the count out of LOCKED. -/
theorem selfDown_of_locked {s : State} (why : Nat) (kept : Bool) (hon : (s.sq.get sSelf).st = .on)
    (hgood : (s.sq.get sSelf).pgood = true) (hup : s.part.reset = false) (hlocked : s.clk.state = .locked) :
    (selfDown why kept s).clk.state = .holdover := by
  have hafter : Only [.sq, .acc] (mainDown kept s) (selfDown why kept s) := by
    unfold selfDown
    simp only [hon, hgood, if_true]
    exact keep_startList _ _ _ (.of_all rfl) (keep_updSeq _ _ (.of_all rfl) (keep_setSeq _ _ (.of_all rfl) (only_refl _ _)))
  have hclk : (selfDown why kept s).clk = (mainDown kept s).clk := hafter .clk (by decide)
  rw [hclk]
  exact mainDown_of_locked kept hup hlocked

theorem vinLowSelfDown_of_locked {s : State} (hlow : s.pow.vinLow = true) (hb0 : (s.br.get 0).st = .on)
    (hon : (s.sq.get sSelf).st = .on) (hgood : (s.sq.get sSelf).pgood = true) (hup : s.part.reset = false)
    (hlocked : s.clk.state = .locked) : Ends .vinLowSelfDown s (fun t => t.clk.state = .holdover) := by
  have hexec : exec .vinLowSelfDown s =
      .next (noteDegraded (selfDown 1 true (tickTo (s.pow.vinLowAt + usCycles 4990) s))) := by
    show execVinLowSelfDown s = _
    simp [execVinLowSelfDown, hb0, hlow, hon, noted]
  refine ⟨_, hexec, ?_⟩
  exact (congrArg Clock.state (noteDegraded_clk _)).trans (selfDown_of_locked 1 true (by rw [tickTo_sq, hon])
    (by rw [tickTo_sq, hgood]) (by rw [tickTo_part, hup]) ((tickTo_clk_state _ s).trans hlocked))

/-- VIN56 has fallen below 40 V on a part that is up and LOCKED: B0 and S_SELF are ON, its PGOOD is high and the main die
out of reset. -/
def lockedInputLoss : State := updBr 0 (fun x => { x with st := .on, gate := .enhance })
  (updSeq sSelf (fun x => { x with st := .on, pgood := true }) { State.reset with
    clk := { Clock.init with running := true, state := .locked }
    pow := { Power.init with holdup := .released, vin := 38, vinLow := true }
    part := { Part.init with st := .ready, reset := false, boot := .done } })

/-- Refutes O8: VIN_LOW_SELF_DOWN does more to the clock than bring it to the 5 ms. The fall of the S_SELF PGOOD stops the
main die, and with it the servo: a count that was LOCKED is in HOLDOVER after the command, where the statement has the clock
of the wait alone, which is still LOCKED. -/
theorem not_inputLossAndReturn : ¬ Obligations.InputLossAndReturn := by
  unfold Obligations.InputLossAndReturn
  intro h
  obtain ⟨-, hselfDown, -⟩ := h
  obtain ⟨t, ht, hclk, -⟩ := hselfDown lockedInputLoss rfl rfl rfl
  obtain ⟨u, hu, hholdover⟩ := vinLowSelfDown_of_locked (s := lockedInputLoss) rfl rfl rfl rfl rfl rfl
  obtain rfl : t = u := Host.Outcome.next.inj (ht.symm.trans hu)
  rw [hclk, tickTo_clk_state] at hholdover
  exact absurd hholdover (by decide)

/-! ## A boot failure in SAFE after a Sorghum over-temperature (R34) -/

/-- Within SAFE after a Sorghum over-temperature a lower stop changes nothing of the part's state. -/
theorem enterSafe_of_sorghumOt {s : State} (c : SafeCause) (hsafe : s.part.st = .safe)
    (hcause : s.part.safeCause = .sorghumOt) : (enterSafe c s).part = s.part := by
  unfold enterSafe
  extract_lets s0
  rw [if_pos ⟨hsafe, hcause⟩]
  rfl

theorem bootFails_of_sorghumOt {s : State} (hsafe : s.part.st = .safe) (hcause : s.part.safeCause = .sorghumOt) :
    (bootFails s).part.safeCause = .sorghumOt := by
  unfold bootFails
  extract_lets s1 s2
  have hpart : s2.part = s1.part := only_ite (L := [.ev, .oda, .port])
    (fun _ => keep_startMacs (.of_all rfl) (keep_odaUp _ (.of_all rfl) (keep_serializerUp (.of_all rfl) (only_refl _ _))))
    (fun _ => only_refl _ _) .part (by decide)
  rw [enterSafe_of_sorghumOt _ (by rw [hpart]; exact hsafe) (by rw [hpart]; exact hcause), hpart]
  exact hcause

theorem noteDegraded_safeCause (s : State) : (noteDegraded s).part.safeCause = s.part.safeCause := by
  unfold noteDegraded
  extract_lets w s1
  split
  · rfl
  · split
    · rfl
    · rfl

/-- The last PUF attempt that fails in SAFE after a Sorghum over-temperature leaves the cause as it is. -/
theorem pufAttemptFailed_of_sorghumOt {s : State} (hup : s.part.reset = false) (hboot : s.part.boot = .puf)
    (hattempt : s.cardamom.attempt = 2) (hcopy : s.cardamom.pufCopy = 1) (hsafe : s.part.st = .safe)
    (hcause : s.part.safeCause = .sorghumOt) :
    Ends (.pufAttemptDone false) s (fun t => t.part.safeCause = .sorghumOt) := by
  have hexec : exec (.pufAttemptDone false) s = .next (noteDegraded (bootFails (raiseMain .pufFailed secSrc
      (openDetail .pufFailed 0) (setSec (fun c => { c with st := .noIdentity, identity := false }) s)))) := by
    show execPufAttemptDone false s = _
    simp [execPufAttemptDone, hup, hboot, hattempt, hcopy, noted]
  refine ⟨_, hexec, ?_⟩
  exact (noteDegraded_safeCause _).trans (bootFails_of_sorghumOt hsafe hcause)

/-- A Sorghum over-temperature has put a starting part in SAFE; the last attempt at its PUF is under way. -/
def sorghumOtInBoot : State := { State.reset with
  clk := { Clock.init with running := true }
  part := { Part.init with st := .safe, safeCause := .sorghumOt, reset := false, boot := .puf }
  cardamom := { Security.init with attempt := 2, pufCopy := 1 } }

/-- Refutes O9: a boot that fails in SAFE after a Sorghum over-temperature does not get the cause BOOT_FAILURE. The
over-temperature is the more severe stop of R34, and the part keeps SORGHUM_OT. -/
theorem not_mainDieBoot : ¬ Obligations.MainDieBoot := by
  unfold Obligations.MainDieBoot
  intro h
  obtain ⟨-, -, hlastFails, -⟩ := h
  obtain ⟨t, ht, -, hcause, -⟩ := hlastFails sorghumOtInBoot rfl rfl rfl rfl
  obtain ⟨u, hu, hkept⟩ := pufAttemptFailed_of_sorghumOt (s := sorghumOtInBoot) rfl rfl rfl rfl rfl rfl
  obtain rfl : t = u := Host.Outcome.next.inj (ht.symm.trans hu)
  exact absurd (hcause.symm.trans hkept) (by decide)

end Sys2Proof.Laws

namespace Sys2Proof.Laws

open Sys2Proof.Machine

/-! ## Errors and retirement of a tile (R76 to R81, R88) -/

theorem noteDegraded_eng (s : State) : (noteDegraded s).eng = s.eng :=
  keep_noteDegraded (L := [.part, .ev, .nut]) (.of_all rfl) (only_refl _ s) .eng (by decide)

/-- What every turn of the loop keeps holds at its end. -/
theorem forEach_keeps {α : Type} {l : List α} {f : α → State → State} {P : State → Prop}
    (hf : ∀ x u, P u → P (f x u)) {s : State} (hs : P s) : P (forEach l f s) :=
  List.foldlRecOn _ _ hs (fun u hu x _ => hf x u hu)

/-! ### A corrected error (R77, R79) -/

/-- A corrected error that leaves at most 65,536 within 1 s is counted and logged, and changes no tile's state. -/
theorem correctedError_counted {n : Fin 68} {s : State}
    (hfew : ((s.eng.tiles.get n).ceAt.filter (fun c => decide (mainNow s < c + 1000000000))).length < 65536) :
    Ends (.correctedError n) s (fun t =>
      getN t (Obj.tileCeCount n.val) = min (getN s (Obj.tileCeCount n.val) + 1) 0xFFFFFFFF ∧
      (t.eng.tiles.get n).log = true ∧ (t.eng.tiles.get n).st = (s.eng.tiles.get n).st ∧
      ∀ m : Fin 68, m ≠ n → t.eng.tiles.get m = s.eng.tiles.get m) := by
  refine ⟨_, congrArg Host.Outcome.next (if_neg ?_), getN_setN_same _ _ _, ?_, ?_, fun m hm => ?_⟩
  · have hlen : ((s.eng.tiles.get n).ceAt.filter (fun c => decide (mainNow s < c + 1000000000)) ++
        [mainNow s]).length ≤ 65536 := by
      rw [List.length_append]
      exact Nat.succ_le_of_lt hfew
    exact fun hmany => absurd (of_decide_eq_true hmany) (Nat.not_lt.mpr hlen)
  · rw [updTile_get_same]
  · rw [updTile_get_same]
    rfl
  · exact updTile_get_other _ _ _ _ hm.symm

/-! ### An uncorrectable word (R77, R80, R81) -/

/-- The tile's counts and log take in an uncorrectable word. -/
def wordCounted (n : Fin 68) (offset : Nat) (s : State) : State :=
  updTile n (fun x => { x with
    ueOffset := offset, ueFrame := s.eng.frame, log := true
    ueAt := (s.eng.tiles.get n).ueAt.filter (within64 s) ++ [s.clk.cycles] }) (inc32 s (Obj.tileUeCount n.val))

/-- The word, the frame, the sessions that an error has stopped before and the rings take it in. -/
def wordReached (n : Fin 68) (offset : Nat) (s : State) : State :=
  ringTrigger 1 (forEach (stoppedAt (wordCounted n offset s) n (offset / 32)) (hitSession s.eng.frame)
    (markUncorrectable (markError n offset false false (wordCounted n offset s))))

/-- The first such word within 64 frames leaves the tile; a further one is a failure criterion. -/
def wordJudged (n : Fin 68) (offset : Nat) (s : State) : State :=
  if (s.eng.tiles.get n).ueAt.filter (within64 s) = [] then wordReached n offset s
  else tileFails n (wordReached n offset s)

/-- What follows the judgement, CLOVE_UE and the note of degradation, leaves the engine and the numbers. -/
theorem uncorrectableWord_ends {n : Fin 68} {offset : Nat} {s : State} {P : State → Prop}
    (hP : ∀ t, t.eng = (wordJudged n offset s).eng → t.nums = (wordJudged n offset s).nums → P t) :
    Ends (.uncorrectableWord n offset false false) s P :=
  ⟨_, rfl, hP _ (noteDegraded_eng _) (noteDegraded_nums _)⟩

/-- Moving the return of sessions on replaces the sessions alone. -/
theorem hitSessions_eq_with_sess (l : List Nat) (frame : Nat) (s : State) :
    ∃ m, forEach l (hitSession frame) s = { s with eng := { s.eng with sess := m } } := by
  refine forEach_keeps (P := fun u => ∃ m, u = { s with eng := { s.eng with sess := m } }) ?_ ⟨s.eng.sess, rfl⟩
  rintro k _ ⟨m, rfl⟩
  exact ⟨_, rfl⟩

theorem updTile_eq_self {n : Fin 68} {f : Tile → Tile} {s : State} (h : f (s.eng.tiles.get n) = s.eng.tiles.get n) :
    updTile n f s = s := by
  have hv : vupd s.eng.tiles n f = s.eng.tiles := by
    unfold vupd
    rw [h]
    exact Vector.set_getElem_self _
  unfold updTile
  rw [hv]

/-- The mark of a word of the tile's SRAM, and that it is counted; other offsets carry none. -/
def markWord (offset : Nat) (x : Tile) : Tile :=
  if offset < 0x300000 then
    { x with poison := addMark x.poison (offset / 32) true, counted := addMark x.counted (offset / 32) true }
  else x

theorem markError_word (n : Fin 68) (offset : Nat) (s : State) :
    markError n offset false false s = updTile n (markWord offset) s := by
  by_cases hsram : offset < 0x300000
  · have hmark : markWord offset = _ := funext fun _ => if_pos hsram
    rw [hmark]
    exact if_pos hsram
  · have hmark : markWord offset = id := funext fun _ => if_neg hsram
    rw [hmark, updTile_eq_self rfl]
    exact if_neg hsram

theorem mem_addMark (l : List Nat) (k : Nat) : k ∈ addMark l k true := by
  by_cases hk : l.contains k = true <;> simp_all [addMark]

theorem markWord_eq_with_marks (offset : Nat) (x : Tile) :
    ∃ p c, markWord offset x = { x with poison := p, counted := c } ∧ (offset < 0x300000 → offset / 32 ∈ p) := by
  by_cases hsram : offset < 0x300000
  · exact ⟨_, _, if_pos hsram, fun _ => mem_addMark _ _⟩
  · exact ⟨x.poison, x.counted, if_neg hsram, fun h => absurd h hsram⟩

theorem wordReached_eq_with_sess_ring (n : Fin 68) (offset : Nat) (s : State) :
    ∃ m r, wordReached n offset s = setEng (fun g => { g with sess := m, ring := r })
      (markUncorrectable (updTile n (markWord offset) (wordCounted n offset s))) := by
  unfold wordReached
  rw [markError_word]
  obtain ⟨m, hm⟩ := hitSessions_eq_with_sess (stoppedAt (wordCounted n offset s) n (offset / 32)) s.eng.frame
    (markUncorrectable (updTile n (markWord offset) (wordCounted n offset s)))
  rw [hm]
  exact ⟨m, _, rfl⟩

/-- An uncorrectable word leaves the part's state and the progress of the frame. -/
theorem wordReached_frame (n : Fin 68) (offset : Nat) (s : State) : (wordReached n offset s).part = s.part ∧
    (wordReached n offset s).eng.running = s.eng.running ∧ (wordReached n offset s).eng.mainDone = s.eng.mainDone := by
  obtain ⟨m, r, h⟩ := wordReached_eq_with_sess_ring n offset s
  simp [h, markUncorrectable, wordCounted, inc32, incMax]

theorem wordReached_tile (n : Fin 68) (offset : Nat) (s : State) :
    ∃ p c, (wordReached n offset s).eng.tiles.get n = { s.eng.tiles.get n with
      ueOffset := offset, ueFrame := s.eng.frame, log := true, poison := p, counted := c
      ueAt := (s.eng.tiles.get n).ueAt.filter (within64 s) ++ [s.clk.cycles] } ∧
      (offset < 0x300000 → offset / 32 ∈ p) := by
  obtain ⟨m, r, h⟩ := wordReached_eq_with_sess_ring n offset s
  obtain ⟨p, c, hmark, hmem⟩ := markWord_eq_with_marks offset ((wordCounted n offset s).eng.tiles.get n)
  refine ⟨p, c, ?_, hmem⟩
  rw [h, setEng_eng]
  refine (updTile_get_same _ _ _).trans (hmark.trans ?_)
  unfold wordCounted
  rw [updTile_get_same]
  rfl

/-- The first uncorrectable word within 64 frames is counted, named and poisoned, and leaves the tile's state. -/
theorem firstUncorrectableWord_counted {n : Fin 68} {offset : Nat} {s : State} (hsram : offset < 0x300000)
    (hfirst : (s.eng.tiles.get n).ueAt.filter (fun f => within64 s f) = []) :
    Ends (.uncorrectableWord n offset false false) s (fun t =>
      getN t (Obj.tileUeCount n.val) = min (getN s (Obj.tileUeCount n.val) + 1) 0xFFFFFFFF ∧
      (t.eng.tiles.get n).ueOffset = offset ∧ (t.eng.tiles.get n).ueFrame = s.eng.frame ∧
      s.clk.cycles ∈ (t.eng.tiles.get n).ueAt ∧ offset / 32 ∈ (t.eng.tiles.get n).poison ∧
      (t.eng.tiles.get n).st = (s.eng.tiles.get n).st ∧ t.eng.cur.uncorrectable = true) := by
  refine uncorrectableWord_ends fun t heng hnums => ?_
  rw [wordJudged, if_pos hfirst] at heng hnums
  obtain ⟨p, c, htile, hmem⟩ := wordReached_tile n offset s
  rw [← heng] at htile
  obtain ⟨m, r, hreached⟩ := wordReached_eq_with_sess_ring n offset s
  rw [hreached] at heng hnums
  rw [getN_of_nums_eq (s := inc32 s (Obj.tileUeCount n.val)) hnums, htile]
  have hin : s.clk.cycles ∈ (s.eng.tiles.get n).ueAt.filter (within64 s) ++ [s.clk.cycles] :=
    List.mem_append_right _ (List.mem_singleton_self _)
  refine ⟨getN_setN_same _ _ _, rfl, rfl, hin, hmem hsram, rfl, ?_⟩
  rw [heng]
  rfl

/-! #### The sessions that an error has stopped before (05 R162) -/

/-- Counting an uncorrectable word changes nothing of a tile but its counts and log. -/
theorem wordCounted_get_eq_with_counts (n p : Fin 68) (offset : Nat) (s : State) :
    ∃ o f l u, (wordCounted n offset s).eng.tiles.get p =
      { s.eng.tiles.get p with ueOffset := o, ueFrame := f, log := l, ueAt := u } := by
  unfold wordCounted
  by_cases hp : n = p
  · subst hp
    exact ⟨_, _, _, _, updTile_get_same _ _ _⟩
  · exact ⟨_, _, _, _, updTile_get_other _ _ _ _ hp⟩

/-- Which sessions an error has stopped at a word depends on the tiles' owners, words and marks, not on their counts. -/
theorem stoppedAt_wordCounted (n : Fin 68) (offset key : Nat) (s : State) :
    stoppedAt (wordCounted n offset s) n key = stoppedAt s n key := by
  have hown (p : Fin 68) (pair : Nat) : computeBank ((wordCounted n offset s).eng.tiles.get p) pair =
      computeBank (s.eng.tiles.get p) pair := by
    obtain ⟨_, _, _, _, h⟩ := wordCounted_get_eq_with_counts n p offset s
    rw [h]
    rfl
  have hread (p : Fin 68) (pb addr len : Nat) : rdSpace ((wordCounted n offset s).eng.tiles.get p) pb addr len =
      rdSpace (s.eng.tiles.get p) pb addr len := by
    obtain ⟨_, _, _, _, h⟩ := wordCounted_get_eq_with_counts n p offset s
    rw [h]
    rfl
  unfold stoppedAt laneMarked
  simp only [hown, hread]
  rfl

/-- A session that an error has stopped before, and whose state holds the word, returns one frame later. -/
theorem uncorrectableWord_moves_return {n : Fin 68} {offset k u : Nat} {s : State}
    (hfirst : (s.eng.tiles.get n).ueAt.filter (fun f => within64 s f) = [])
    (hstop : (getSess s k).stopUntil = some u) (hholds : stoppedAt s n (offset / 32) = [k]) :
    Ends (.uncorrectableWord n offset false false) s (fun t =>
      (getSess t k).stopUntil = some (u + 1) ∧ (getSess t k).state = (getSess s k).state) := by
  refine uncorrectableWord_ends fun t heng _ => ?_
  have hsess : getSess t k = { getSess s k with stopUntil := some (u + 1) } := by
    rw [wordJudged, if_pos hfirst, wordReached, stoppedAt_wordCounted, hholds, markError_word] at heng
    have hget : getSess t k =
        { getSess s k with stopUntil := some ((getSess s k).stopUntil.getD (s.eng.frame + 2) + 1) } := by
      unfold getSess
      rw [heng]
      exact lookD_putD_same _ _ _ _
    rw [hget, hstop]
    rfl
  rw [hsess]
  exact ⟨rfl, rfl⟩

/-! ### A tile meets a failure criterion (R77) -/

/-- In RUN, with the frame's outputs still to come, a tile in service fails at the end of the frame. -/
theorem tileFails_in_frame {n : Fin 68} {s : State}
    (hserves : (s.eng.tiles.get n).st = .gated ∨ (s.eng.tiles.get n).st = .active) (hrun : s.part.st = .run)
    (hframes : s.eng.running = true) (hmain : s.eng.mainDone = false) :
    tileFails n s = updTile n (fun x => { x with failNow := true }) s := by
  unfold tileFails
  rw [if_pos (by simp [or_assoc, hserves]), if_pos (by simp [hrun, hframes, hmain])]

/-- Out of RUN a tile in service fails at once. -/
theorem tileFails_at_once {n : Fin 68} {s : State}
    (hserves : (s.eng.tiles.get n).st = .gated ∨ (s.eng.tiles.get n).st = .active) (hrun : s.part.st ≠ .run) :
    tileFails n s = failTile n s.eng.frame s := by
  unfold tileFails
  rw [if_pos (by simp [or_assoc, hserves]), if_neg (by simp [hrun])]

/-- A second uncorrectable word within 64 frames has an ACTIVE tile fail at the end of the frame. -/
theorem secondUncorrectableWord_fails {n : Fin 68} {offset : Nat} {s : State}
    (hsecond : (s.eng.tiles.get n).ueAt.filter (fun f => within64 s f) ≠ []) (hactive : (s.eng.tiles.get n).st = .active)
    (hrun : s.part.st = .run) (hframes : s.eng.running = true) (hmain : s.eng.mainDone = false) :
    Ends (.uncorrectableWord n offset false false) s (fun t =>
      (t.eng.tiles.get n).failNow = true ∧ (t.eng.tiles.get n).st = .active) := by
  refine uncorrectableWord_ends fun t heng _ => ?_
  obtain ⟨p, c, htile, -⟩ := wordReached_tile n offset s
  have hst : ((wordReached n offset s).eng.tiles.get n).st = .active := by rw [htile, hactive]
  obtain ⟨hpart, hrunning, hdone⟩ := wordReached_frame n offset s
  rw [wordJudged, if_neg hsecond,
    tileFails_in_frame (.inr hst) (hpart ▸ hrun) (hrunning.trans hframes) (hdone.trans hmain)] at heng
  rw [heng, updTile_get_same]
  exact ⟨rfl, hst⟩

/-! ### A write of TILE_RETIRED (R77) -/

theorem writeStep_of_accepted {s : State} {au : Auth} {key : Nat} {v : Value} {home : State → Nat}
    (eff : Count → State → State) (hup : s.oda.serving = true) (hcheck : precheck s au key 0 v = 0)
    (hhome : home s = 0) : writeStep au key v home eff s = accept eff s := by
  unfold writeStep
  rw [if_neg (by simp [hup]), if_neg (fun hne => hne hcheck), if_neg (fun hne => hne hhome)]

/-- The effect of an accepted write meets the state as it was, but for the accepting count and the answer. -/
theorem accept_eq_eff (eff : Count → State → State) (s : State) :
    ∃ u, accept eff s = eff (acceptCount s) u ∧ Only [.clk, .oda] s u :=
  ⟨_, rfl, keep_mk_oda _ (.of_all rfl) (keep_mk_clk _ (.of_all rfl) (only_refl _ s))⟩

@[simp] theorem getN_storeNum_same (o : Obj) (v : Nat) (s : State) : getN (storeNum o v s) o = v := by
  unfold storeNum
  split
  · split
    · split <;> exact getN_setN_same _ _ _
    · split <;> exact getN_setN_same _ _ _
    · exact getN_setN_same _ _ _
  · exact getN_setN_same _ _ _

/-- A write of a number that passes its checks: its effect meets the engine, the part and the identity as they were, with
the number stored. -/
theorem numWrite_ends {s : State} {au : Auth} {o : Obj} {v : Nat} {home : State → Nat} {eff : State → State}
    {P : State → Prop} (hup : s.oda.serving = true) (hcheck : precheck s au o.key 0 (.num v) = 0) (hhome : home s = 0)
    (hP : ∀ u t : State, u.eng = s.eng → u.part = s.part → u.ident = s.ident → getN u o = v →
      t.eng = (eff u).eng → t.nums = (eff u).nums → P t) :
    EndsIn P (noted (.next (writeStep au o.key (.num v) home (fun _ u => eff (storeNum o v u)) s))) := by
  obtain ⟨u, haccept, hu⟩ := accept_eq_eff (fun _ u => eff (storeNum o v u)) s
  rw [writeStep_of_accepted _ hup hcheck hhome, haccept]
  have hstored : Only [.clk, .oda, .nums, .pow] s (storeNum o v u) := keep_storeNum o v (.of_all rfl)
    (only_mono hu (.of_all rfl))
  exact ⟨_, rfl, hP _ _ (hstored .eng (by decide)) (hstored .part (by decide)) (hstored .ident (by decide))
    (getN_storeNum_same o v u) (noteDegraded_eng _) (noteDegraded_nums _)⟩

/-- TILE_RETIRED set in RUN fails a GATED tile at the end of the frame. -/
theorem tileRetiredSet_in_frame {au : Auth} {n : Fin 68} {s : State} (hup : s.oda.serving = true)
    (hcheck : precheck s au (Obj.tileRetired n.val).key 0 (.num 1) = 0) (hrun : s.part.st = .run)
    (hframes : s.eng.running = true) (hmain : s.eng.mainDone = false) (hgated : (s.eng.tiles.get n).st = .gated) :
    Ends (.tileRetiredSet au n) s (fun t => getN t (Obj.tileRetired n.val) = 1 ∧
      (t.eng.tiles.get n).failNow = true ∧ (t.eng.tiles.get n).st = .gated) := by
  refine numWrite_ends (home := noHome) (eff := tileFails n) hup hcheck rfl fun u t hu hpart _ hnum heng hnums => ?_
  rw [tileFails_in_frame (.inl (hu ▸ hgated)) (hpart ▸ hrun) (hu ▸ hframes) (hu ▸ hmain)] at heng hnums
  rw [getN_of_nums_eq hnums, heng, updTile_get_same, hu]
  exact ⟨hnum, rfl, hgated⟩

/-- TILE_RETIRED cleared on a FAILED tile has it wait for its self-test, and touches no other tile. -/
theorem tileRetiredClear_waits {au : Auth} {n : Fin 68} {s : State} (hup : s.oda.serving = true)
    (hcheck : precheck s au (Obj.tileRetired n.val).key 0 (.num 0) = 0) (hready : s.part.st = .ready)
    (hhere : n.val ∉ s.ident.absent) (hfailed : (s.eng.tiles.get n).st = .failed) :
    Ends (.tileRetiredClear au n) s (fun t => getN t (Obj.tileRetired n.val) = 0 ∧
      (t.eng.tiles.get n).st = .failed ∧ (t.eng.tiles.get n).testing = true ∧
      ∀ m : Fin 68, m ≠ n → t.eng.tiles.get m = s.eng.tiles.get m) := by
  refine numWrite_ends (home := readyOnly) (eff := fun u => if (u.eng.tiles.get n).st = .failed then retestTile n u else u)
    hup hcheck (if_neg (by simp [hready])) fun u t hu _ hident hnum heng hnums => ?_
  have hretest : retestTile n u = _ := if_neg (by simp [hident, hhere])
  rw [if_pos (hu ▸ hfailed), hretest] at heng hnums
  rw [getN_of_nums_eq hnums, heng, updTile_get_same, hu]
  refine ⟨hnum, hfailed, by simp [hfailed, hnum], fun m hm => ?_⟩
  rw [updTile_get_other _ _ _ _ hm.symm, hu]

/-! ### A retired tile stays FAILED while its logical tiles find another place (R77, R204, R206, R209)

Out of RUN a tile that fails is replaced at once: contents move, tiles wake and are power-gated, the domain may fall LOST.
Each operation on that way is shown to leave a FAILED tile FAILED and its TILE_RETIRED 1. -/

/-- Tile n is FAILED, and TILE_RETIRED says so. -/
structure Retired (n : Fin 68) (s : State) : Prop where
  failed : (s.eng.tiles.get n).st = .failed
  flag : getN s (Obj.tileRetired n.val) = 1

section
variable {n : Fin 68} {s u : State}

/-- What leaves the tiles and the numbers as they are keeps a tile retired. -/
theorem Retired.of_same (h : Retired n s) (htiles : u.eng.tiles = s.eng.tiles) (hnums : u.nums = s.nums) :
    Retired n u :=
  ⟨by rw [htiles, h.failed], by rw [getN_of_nums_eq hnums, h.flag]⟩

theorem tileRetired_key_lt (n : Fin 68) : (Obj.tileRetired n.val).key < 0x401344 := Nat.add_lt_add_left n.isLt 0x401300

/-- A number whose key lies past those of TILE_RETIRED. -/
theorem retired_setN {o : Obj} {v : Nat} (ho : 0x401344 ≤ o.key) (h : Retired n s) : Retired n (setN s o v) := by
  have hne : o.key ≠ (Obj.tileRetired n.val).key :=
    Nat.ne_of_gt (Nat.lt_of_lt_of_le (tileRetired_key_lt n) ho)
  exact ⟨h.failed, by rw [getN_setN_other _ _ _ _ hne, h.flag]⟩

theorem retired_updTile {t : Fin 68} {f : Tile → Tile} (hf : t = n → (f (s.eng.tiles.get n)).st = .failed)
    (h : Retired n s) : Retired n (updTile t f s) := by
  refine ⟨?_, h.flag⟩
  by_cases ht : t = n
  · subst ht
    rw [updTile_get_same, hf rfl]
  · rw [updTile_get_other _ _ _ _ ht, h.failed]

/-- An update that leaves the state of every tile. -/
theorem retired_updTile_st {t : Fin 68} {f : Tile → Tile} (hf : ∀ x, (f x).st = x.st) (h : Retired n s) :
    Retired n (updTile t f s) := retired_updTile (fun _ => (hf _).trans h.failed) h

/-! #### Operations that leave tiles and numbers -/

theorem retired_raiseMain {e : Ev} {source detail : Nat} (h : Retired n s) : Retired n (raiseMain e source detail s) :=
  h.of_same rfl rfl

theorem retired_addNext {c : Ctrl} (h : Retired n s) : Retired n (addNext c s) := h.of_same rfl rfl

theorem retired_updSess {k : Nat} {f : Sess → Sess} (h : Retired n s) : Retired n (updSess k f s) := h.of_same rfl rfl

theorem retired_setImg {f : Images → Images} (h : Retired n s) : Retired n (setImg f s) := h.of_same rfl rfl

theorem retired_setEng {f : Engine → Engine} (hf : ∀ g, (f g).tiles = g.tiles) (h : Retired n s) :
    Retired n (setEng f s) := h.of_same (hf _) rfl

theorem retired_setAdvance {k a b : Nat} (h : Retired n s) : Retired n (setAdvance k a b s) := h.of_same rfl rfl

theorem retired_failP0 {k : Nat} (h : Retired n s) : Retired n (failP0 k s) := h.of_same rfl rfl

theorem retired_restoreOne {k : Nat} (h : Retired n s) : Retired n (restoreOne k s) := h.of_same rfl rfl

theorem retired_loseSession {k : Nat} (h : Retired n s) : Retired n (loseSession k s) := by
  unfold loseSession
  split
  · exact h.of_same rfl rfl
  · split
    · exact h.of_same rfl rfl
    · exact h.of_same rfl rfl

/-- A signal to a cell changes cells, wait slots, interrupts and events. -/
theorem retired_signalCell {c k : Nat} (h : Retired n s) : Retired n (signalCell c k s) := by
  have hframe : Only [.mem, .bar, .ev, .nut] s (signalCell c k s) := keep_signalCell c k (.of_all rfl) (only_refl _ s)
  exact h.of_same (congrArg (·.tiles) (hframe .eng (by decide))) (hframe .nums (by decide))

theorem retired_takeFree {k w : Nat} (hfree : takeFree k s = (w, u)) (h : Retired n s) : Retired n u := by
  obtain ⟨-, rfl⟩ := Prod.mk.inj hfree
  exact h.of_same rfl rfl

theorem retired_commitNum {key v dflt : Nat} {rcb : Bool} (h : Retired n s) :
    Retired n (commitNum key v dflt rcb s) := by
  cases rcb
  · exact h.of_same rfl rfl
  · exact h.of_same rfl rfl

/-! #### The runs of a copy (R411) -/

theorem retired_milletBytes {mb : Bool} {k : Nat} (h : Retired n s) : Retired n (milletBytes mb k s) := by
  unfold milletBytes
  refine retired_setN ?_ h
  cases mb
  · decide
  · decide

theorem retired_seqOne {c : Fin 32} {k : Nat} (h : Retired n s) : Retired n (seqOne c k s) :=
  retired_signalCell (retired_milletBytes (retired_setN (Nat.le_add_right_of_le (by decide)) (h.of_same rfl rfl)))

theorem retired_seqRun {c : Fin 32} {bytes : Nat} (h : Retired n s) : Retired n (seqRun c bytes s) :=
  forEach_keeps (fun _ _ => retired_seqOne) h

/-! #### Contents that move -/

theorem foldl_st {α : Type} {l : List α} {f : Tile → α → Tile} (hf : ∀ x a, (f x a).st = x.st) (x : Tile) :
    (l.foldl f x).st = x.st :=
  List.foldlRecOn l f (motive := fun y => y.st = x.st) rfl (fun y hy a _ => (hf y a).trans hy)

theorem wrSpace_st (x : Tile) (pb addr : Nat) (bs : List Byte) (bad keep : Bool) :
    (wrSpace x pb addr bs bad keep).st = x.st := by
  refine foldl_st (fun y i => ?_) x
  rfl

theorem moveContents_st (pairs bundles : Nat) (o b : Bind) (src dst : Tile) :
    (moveContents pairs bundles o b src dst).st = dst.st := by
  unfold moveContents
  extract_lets po pn d0 words marks d1 d2
  have hd1 : d1.st = d0.st := by
    refine foldl_st (fun y w => ?_) d0
    rfl
  have hd2 : d2.st = d1.st := by
    refine foldl_st (fun y k => ?_) d1
    rfl
  exact hd2.trans hd1

theorem retired_loadTile {x : Image} {l : Nat} (h : Retired n s) : Retired n (loadTile x l s) := by
  unfold loadTile
  split
  · refine retired_updTile_st (fun y => ?_) h
    extract_lets y1 y2
    have hy2 : y2.st = y1.st := by
      refine foldl_st (fun z w => ?_) y1
      rfl
    exact hy2
  · exact h

theorem retired_placeWeights {m : Nat} {p : Nat × Nat} (h : Retired n s) : Retired n (placeWeights m p s) := by
  unfold placeWeights
  split
  · split
    · exact retired_updTile_st (fun _ => wrSpace_st _ _ _ _ _ _) h
    · exact h
  · exact h

theorem retired_loadWeights {x : Image} {l : Nat} (h : Retired n s) : Retired n (loadWeights x l s) := by
  refine forEach_keeps (fun e u hu => ?_) h
  split
  · split
    · exact hu
    · exact retired_placeWeights hu
  · exact hu

theorem retired_moveAll {x : Image} {old : List Bind} {src : Vector Tile 68} (h : Retired n s) :
    Retired n (moveAll x old src s) := by
  refine forEach_keeps (fun l u hu => ?_) h
  split
  · split
    · exact retired_updTile_st (fun _ => moveContents_st _ _ _ _ _ _) hu
    · exact retired_loadWeights (retired_loadTile hu)
  · exact retired_loadWeights (retired_loadTile hu)

/-! #### Tiles that wake or are power-gated -/

theorem retired_wakeTiles {bs : List Bind} (h : Retired n s) : Retired n (wakeTiles bs s) := by
  refine forAll_keeps (fun t u hu => ?_) h
  dsimp only
  split
  · next hwakes =>
    refine retired_updTile (fun ht => ?_) hu
    subst ht
    simp [hu.failed] at hwakes
  · exact hu

/-- A power-gated tile was ACTIVE, so it is not the FAILED one. -/
theorem retired_gateTile {st : TileState} {t : Fin 68} (hactive : (s.eng.tiles.get t).st = .active) (h : Retired n s) :
    Retired n (gateTile st t s) := by
  refine retired_updTile (fun ht => ?_) h
  rw [ht, h.failed] at hactive
  exact absurd hactive (by decide)

theorem retired_gateUnmapped {bs : List Bind} (h : Retired n s) : Retired n (gateUnmapped bs s) := by
  refine forAll_keeps (fun t u hu => ?_) h
  split
  · next hgates => exact retired_gateTile (of_decide_eq_true (Bool.and_eq_true_iff.mp hgates).1) hu
  · exact hu

/-! #### The binding and its recomputation (R201, R204) -/

theorem retired_bringUp {x : Image} (h : Retired n s) : Retired n (bringUp x s) := retired_moveAll (retired_wakeTiles h)

theorem retired_applyBinds {x : Image} {bs : List Bind} {f1 f2 s0 dv : Nat} (h : Retired n s) :
    Retired n (applyBinds x bs f1 f2 s0 dv s) := by
  unfold applyBinds
  extract_lets old s1 s2 s3
  have hs2 : Retired n s2 := retired_gateUnmapped (retired_moveAll (retired_wakeTiles (h.of_same rfl rfl)))
  have hs3 : Retired n s3 := forEach_keeps (fun l u hu => by
    split
    · split
      · exact retired_addNext hu
      · exact hu
    · exact hu) hs2
  refine forEach_keeps (fun l u hu => forEach_keeps (fun k v hv => ?_) hu) hs3
  dsimp only
  split
  · exact retired_failP0 hv
  · split
    · exact hv
    · exact retired_setAdvance (retired_updSess hv)

theorem retired_releaseHeld {p : Plan} {keep : List Nat} (h : Retired n s) : Retired n (releaseHeld p keep s) := by
  refine forEach_keeps (fun l u hu => ?_) h
  refine forEach_keeps (fun k v hv => ?_) (retired_setImg hu)
  split
  · exact retired_setAdvance (retired_updSess hv)
  · exact hv

theorem retired_recompute {lost : List Nat} (h : Retired n s) : Retired n (recompute lost s) := by
  unfold recompute
  split
  · exact retired_setImg h
  · next x _ =>
    extract_lets s1 r lost0 heldNow
    have hs1 : Retired n s1 := retired_setImg h
    split
    · split
      · exact hs1
      · exact retired_bringUp hs1
    · split
      · exact retired_applyBinds hs1
      · split
        next w s2 hfree =>
        have hs2 : Retired n s2 := retired_takeFree hfree hs1
        extract_lets sw p
        split
        · exact retired_setImg hs2
        · split
          · exact retired_setImg (retired_releaseHeld hs2)
          · exact retired_setImg hs2

/-! #### The replacement of the tile and the loss of its domain (R206, R209, R210) -/

theorem retired_switchRepl {r : Repl} (h : Retired n s) : Retired n (switchRepl r s) := by
  unfold switchRepl
  split
  · exact h
  · next x _ =>
    extract_lets +onlyGivenNames old src bs bytes s1 s2 b s3
    have hs1 : Retired n s1 := retired_setImg (retired_setEng (fun _ => rfl) (retired_seqRun h))
    have hs2 : Retired n s2 := retired_addNext (retired_moveAll hs1)
    have hs3 : Retired n s3 := forEach_keeps (fun _ _ => retired_setAdvance) hs2
    exact forEach_keeps (fun _ _ => retired_restoreOne) hs3

theorem retired_replan {x : Image} {bs : List Bind} {sRepl : Nat} (h : Retired n s) :
    Retired n (replan x bs sRepl s) := by
  unfold replan
  split
  · exact h
  · extract_lets r hold held s1
    have hs1 : Retired n s1 := retired_releaseHeld h
    split
    · exact retired_setImg hs1
    · exact retired_setImg hs1

/-- A replacement is SPARE or GATED, so it is not the FAILED tile. -/
theorem replacementOf_ne {t : Nat} {q : Fin 68} (h : Retired n s) (hq : replacementOf s t = some q) : q ≠ n := by
  rintro rfl
  unfold replacementOf at hq
  extract_lets inPlan cand at hq
  split at hq
  · next q' hspare =>
    obtain rfl := Option.some.inj hq
    have := List.find?_some hspare
    simp [h.failed] at this
  · have := List.find?_some hq
    simp [h.failed] at this

theorem retired_replaceTile {t : Fin 68} {frame : Nat} (h : Retired n s) : Retired n (replaceTile t frame s) := by
  unfold replaceTile
  split
  · exact h
  · next x _ =>
    extract_lets waits s1 ls src
    have hs1 : Retired n s1 := retired_setImg h
    split
    · exact retired_recompute hs1
    · split
      · exact retired_recompute hs1
      · next q hq =>
        extract_lets +onlyGivenNames s2 after
        have hs2 : Retired n s2 := retired_updTile (fun e => absurd e (replacementOf_ne hs1 hq)) hs1
        split
        · exact retired_replan (forEach_keeps (fun l u hu => forEach_keeps (fun _ _ => retired_setAdvance) hu)
            (retired_setImg hs2))
        · exact forEach_keeps (fun _ _ => retired_switchRepl) hs2

theorem retired_domainLost {d : Fin 2} (h : Retired n s) : Retired n (domainLost d s) := by
  unfold domainLost
  split
  · exact h
  · extract_lets both hit s1 s2 s3 s4 s5
    have hs2 : Retired n s2 :=
      retired_setN (Nat.le_add_right_of_le (by decide)) (retired_commitNum (retired_setImg h))
    have hs3 : Retired n s3 := forAll_keeps (fun t u hu => by
      split
      · next hgates => exact retired_gateTile (by simpa using (Bool.and_eq_true_iff.mp hgates).2) hu
      · exact hu) hs2
    have hs5 : Retired n s5 := forEach_keeps (fun _ _ => retired_loseSession) (retired_raiseMain hs3)
    split
    · exact retired_raiseMain hs5
    · exact retired_recompute hs5

theorem retired_checkDomain {d : Fin 2} (h : Retired n s) : Retired n (checkDomain d s) := by
  unfold checkDomain
  split
  · exact h
  · split
    · exact retired_domainLost h
    · exact h

theorem retired_markFailed (n : Fin 68) (s : State) : Retired n (markFailed n s) := by
  refine retired_raiseMain ⟨?_, getN_setN_same _ _ _⟩
  show ((updTile n _ s).eng.tiles.get n).st = .failed
  rw [updTile_get_same]

/-- A tile that fails is FAILED, with TILE_RETIRED 1. -/
theorem retired_failTile (n : Fin 68) (frame : Nat) (s : State) : Retired n (failTile n frame s) :=
  retired_checkDomain (retired_replaceTile (retired_markFailed n s))

end

/-- TILE_RETIRED set out of RUN fails a GATED tile at once. -/
theorem tileRetiredSet_at_once {au : Auth} {n : Fin 68} {s : State} (hup : s.oda.serving = true)
    (hcheck : precheck s au (Obj.tileRetired n.val).key 0 (.num 1) = 0) (hready : s.part.st = .ready)
    (hgated : (s.eng.tiles.get n).st = .gated) :
    Ends (.tileRetiredSet au n) s (fun t => getN t (Obj.tileRetired n.val) = 1 ∧ (t.eng.tiles.get n).st = .failed) := by
  refine numWrite_ends (home := noHome) (eff := tileFails n) hup hcheck rfl fun u t hu hpart _ _ heng hnums => ?_
  have hnotrun : u.part.st ≠ .run := by simp [hpart, hready]
  rw [tileFails_at_once (.inl (hu ▸ hgated)) hnotrun] at heng hnums
  have ht : Retired n t := (retired_failTile n _ u).of_same (congrArg (·.tiles) heng) hnums
  exact ⟨ht.flag, ht.failed⟩

/-! ### A burst held for two frames (R88, R422) -/

theorem setRun_dma (mb : Bool) (r : Option Nat) (s : State) : (setRun mb r s).mem.dma = s.mem.dma := by
  cases mb <;> rfl

/-- A channel that is not READY stays as it is when its engine takes up the next run. -/
theorem endRun_keeps {c : Fin 32} {s : State} (h : (s.mem.dma.get c).st ≠ .ready) :
    (endRun c s).mem.dma.get c = s.mem.dma.get c := by
  unfold endRun startNext
  split
  · rw [setRun_dma]
  · split
    · next d hfind =>
      have hready := List.find?_some hfind
      have hd : d ≠ c := by
        rintro rfl
        exact h (by simpa [chanAt, setRun_dma] using hready)
      rw [updDma_get_other _ _ _ _ hd, setRun_dma, setRun_dma]
    · rw [setRun_dma]

/-- A halted channel names the address, the side, the entry and the cause. -/
theorem haltChan_get (c : Fin 32) (addr : Nat) (dir : Bool) (entry cause : Nat) (s : State) :
    (haltChan c addr dir entry cause s).mem.dma.get c = { s.mem.dma.get c with
      st := .halted, errAddr := addr, errDir := dir, errEntry := entry, errCause := cause } := by
  unfold haltChan
  extract_lets x s1 s2 s3
  have hafter : Only [.nums, .ev, .nut, .bar] s1 (if cause = 2 then huskDenied (huskBit c.val) addr s3 else s3) := by
    have hs2 : Only [.nums, .ev, .nut, .bar] s1 s2 := keep_raiseMain _ _ _ (.of_all rfl)
      (keep_setN _ _ (.of_all rfl) (keep_inc32 _ (.of_all rfl) (only_refl _ _)))
    have hs3 : Only [.nums, .ev, .nut, .bar] s1 s3 :=
      only_ite (fun _ => keep_raiseIrq _ _ (.of_all rfl) hs2) (fun _ => hs2)
    exact only_ite (fun _ => keep_huskDenied _ _ (.of_all rfl) hs3) (fun _ => hs3)
  have hmem : (if cause = 2 then huskDenied (huskBit c.val) addr s3 else s3).mem = s1.mem := hafter .mem (by decide)
  rw [hmem]
  exact updDma_get_same _ _ _

/-- A burst that has waited for two frames at a tile's port halts its channel with cause 5. -/
theorem stagingTimeout_halts {n : Fin 68} {c : Fin 32} {h : HeldBurst} {b : Burst} {rest : List Burst} {w : Bool}
    {s : State} (hwaiter : waiterAt s n = some (c, h))
    (hrest : restOf (advance c (tickTo (h.since + 2 * frameNs s / 40) s)) c = b :: rest)
    (hwaits : waitsAt (advance c (tickTo (h.since + 2 * frameNs s / 40) s)) b = some (n, h.bank, w))
    (hruns : (chanAt (advance c (tickTo (h.since + 2 * frameNs s / 40) s)) c).st = .running) :
    Ends (.stagingTimeout n) s (fun t => (t.mem.dma.get c).st = .halted ∧ (t.mem.dma.get c).errCause = 5 ∧
      (t.mem.dma.get c).errDir = w ∧ (t.mem.dma.get c).errAddr = (if w then b.dst else b.src)) := by
  obtain ⟨u, entry, hexec⟩ : ∃ u entry, exec (.stagingTimeout n) s =
      .next (endRun c (haltChan c (if w then b.dst else b.src) w entry 5 u)) := by
    show ∃ u entry, execStagingTimeout n s = _
    simp only [execStagingTimeout, hwaiter, hrest, hwaits, hruns, and_self, if_true]
    exact ⟨_, _, rfl⟩
  have hhalted := haltChan_get c (if w then b.dst else b.src) w entry 5 u
  have hkept := endRun_keeps (c := c) (s := haltChan c (if w then b.dst else b.src) w entry 5 u)
    (by simp [hhalted])
  refine ⟨_, hexec, ?_⟩
  dsimp only
  rw [hkept, hhalted]
  exact ⟨rfl, rfl, rfl, rfl⟩

/-- Settles O19: an error counts and marks, a second one within 64 frames or TILE_RETIRED fails the tile, and a burst held
too long halts its channel, each by the lemma of its case. -/
theorem tileErrorsAndRetirement : Obligations.TileErrorsAndRetirement := by
  unfold Obligations.TileErrorsAndRetirement
  exact ⟨fun _ _ => correctedError_counted, fun _ _ _ => firstUncorrectableWord_counted,
    fun _ _ _ _ _ hfirst _ => uncorrectableWord_moves_return hfirst, fun _ _ _ => secondUncorrectableWord_fails,
    fun _ _ _ => tileRetiredSet_in_frame, fun _ _ _ => tileRetiredSet_at_once, fun _ _ _ => tileRetiredClear_waits,
    fun _ _ _ _ _ _ _ => stagingTimeout_halts⟩

end Sys2Proof.Laws

namespace Sys2Proof.Laws

open Sys2Proof.Machine

/-! ## The codebook store and the model library (R133, R141, R144) -/

/-- A write that passes its checks: its effect meets the engine as it was. -/
theorem write_ends {s : State} {au : Auth} {key : Nat} {v : Value} {home : State → Nat}
    {eff : Count → State → State} {P : State → Prop} (hup : s.oda.serving = true) (hcheck : precheck s au key 0 v = 0)
    (hhome : home s = 0) (hP : ∀ c u, u.eng = s.eng → P (eff c u)) :
    EndsIn P (.next (writeStep au key v home eff s)) := by
  obtain ⟨u, haccept, hu⟩ := accept_eq_eff eff s
  rw [writeStep_of_accepted eff hup hcheck hhome, haccept]
  exact .next (hP _ u (hu .eng (by decide)))

/-- What a write of c leaves in the codebook store. -/
def booksAfter (c : Nat) (bytes : List Byte) (books : Map Codebook) : Map Codebook :=
  if bytes = [] then del books c else put books c ⟨codebookOf bytes, midpoints (codebookOf bytes)⟩

theorem look_booksAfter_same {bytes : List Byte} (h : bytes ≠ []) (c : Nat) (books : Map Codebook) :
    look (booksAfter c bytes books) c = some ⟨codebookOf bytes, midpoints (codebookOf bytes)⟩ := by
  rw [booksAfter, if_neg h, look_put_same]

theorem look_booksAfter_empty (c : Nat) (books : Map Codebook) : look (booksAfter c [] books) c = none :=
  look_del_same books c

theorem look_booksAfter_other {c k : Nat} (bytes : List Byte) (books : Map Codebook) (h : c ≠ k) :
    look (booksAfter c bytes books) k = look books k := by
  unfold booksAfter
  split
  · exact look_del_other _ _ _ h
  · exact look_put_other _ _ _ _ h

/-- The transfer of the bytes leaves the engine alone; the write changes the codebook store and nothing else of it. -/
theorem codebookEffect_eng (c : Nat) (bytes : List Byte) (at_ : Count) (s : State) :
    (codebookEffect c bytes at_ s).eng = { s.eng with books := booksAfter c bytes s.eng.books } := by
  have hrun : (seqRun 18 bytes.length s).eng = s.eng :=
    keep_seqRun (L := [.nums, .ev, .nut, .mem, .bar]) 18 _ (.of_all rfl) (only_refl _ s) .eng (by decide)
  unfold codebookEffect booksAfter
  rw [← hrun]
  split <;> rfl

theorem codebookWrite_ends {au : Auth} {c : Fin 4096} {bytes : List Byte} {s : State} (hup : s.oda.serving = true)
    (hcheck : precheck s au (0x413000 + c.val) 0 (.bytes bytes) = 0) (hhome : codebookHome c.val bytes s = 0) :
    Ends (.codebookWrite au c bytes) s (fun t =>
      t.eng.books = booksAfter c.val bytes s.eng.books ∧ t.eng.sess = s.eng.sess) :=
  write_ends hup hcheck hhome fun at_ u hu => by
    rw [codebookEffect_eng, hu]
    exact ⟨rfl, rfl⟩

theorem codebookWrite_stores {au : Auth} {c : Fin 4096} {bytes : List Byte} {s : State} (hup : s.oda.serving = true)
    (hcheck : precheck s au (0x413000 + c.val) 0 (.bytes bytes) = 0) (hhome : codebookHome c.val bytes s = 0)
    (hbytes : bytes ≠ []) :
    Ends (.codebookWrite au c bytes) s (fun t =>
      look t.eng.books c.val = some ⟨codebookOf bytes, midpoints (codebookOf bytes)⟩ ∧
      (∀ k : Fin 4096, k ≠ c → look t.eng.books k.val = look s.eng.books k.val) ∧ t.eng.sess = s.eng.sess) := by
  refine ends_mono (codebookWrite_ends hup hcheck hhome) fun t ⟨hbooks, hsess⟩ => ?_
  rw [hbooks]
  exact ⟨look_booksAfter_same hbytes _ _, fun k hk => look_booksAfter_other _ _ (Fin.val_ne_of_ne hk.symm), hsess⟩

theorem codebookWrite_removes {au : Auth} {c : Fin 4096} {s : State} (hup : s.oda.serving = true)
    (hcheck : precheck s au (0x413000 + c.val) 0 (.bytes []) = 0) (hhome : codebookHome c.val [] s = 0) :
    Ends (.codebookWrite au c []) s (fun t => look t.eng.books c.val = none ∧
      ∀ k : Fin 4096, k ≠ c → look t.eng.books k.val = look s.eng.books k.val) := by
  refine ends_mono (codebookWrite_ends hup hcheck hhome) fun t ⟨hbooks, _⟩ => ?_
  rw [hbooks]
  exact ⟨look_booksAfter_empty _ _, fun k hk => look_booksAfter_other _ _ (Fin.val_ne_of_ne hk.symm)⟩

theorem look_lib_modelEffect_same (m : Nat) (bytes : List Byte) (at_ : Count) (s : State) :
    look (modelEffect m bytes at_ s).eng.lib m = if bytes = [] then none else some ⟨.verifying, bytes, none⟩ := by
  unfold modelEffect
  split
  · exact look_del_same _ _
  · exact look_put_same _ _ _

theorem look_lib_modelEffect_other {m k : Nat} (bytes : List Byte) (at_ : Count) (s : State) (h : m ≠ k) :
    look (modelEffect m bytes at_ s).eng.lib k = look s.eng.lib k := by
  unfold modelEffect
  split
  · exact look_del_other _ _ _ h
  · exact look_put_other _ _ _ _ h

theorem modelImageWrite_updates_library {au : Auth} {m : Fin 4096} {bytes : List Byte} {s : State}
    (hup : s.oda.serving = true) (hcheck : precheck s au (0x411000 + m.val) 0 (.bytes []) = 0)
    (hhome : modelHome m.val bytes.length s = 0) :
    Ends (.modelImageWrite au m bytes) s (fun t =>
      look t.eng.lib m.val = (if bytes = [] then none else some ⟨.verifying, bytes, none⟩) ∧
      ∀ k : Fin 4096, k ≠ m → look t.eng.lib k.val = look s.eng.lib k.val) :=
  write_ends hup hcheck hhome fun _ _ hu => ⟨look_lib_modelEffect_same _ _ _ _,
    fun _ hk => (look_lib_modelEffect_other _ _ _ (Fin.val_ne_of_ne hk.symm)).trans (hu ▸ rfl)⟩

/-- A VERIFYING image whose header, digest, signature and signer pass becomes VALID, any other REFUSED. -/
theorem modelVerified_judges {m : Fin 4096} {bytes : List Byte} {old : Option Model} {s : State}
    (hverifying : look s.eng.lib m.val = some ⟨.verifying, bytes, old⟩) :
    Ends (.modelVerified m) s (fun t => look t.eng.lib m.val =
        some (if modelOk (parseModel bytes) && signedBy s bytes (parseModel bytes).sigOff
          then ⟨.valid, bytes, some (parseModel bytes)⟩ else ⟨.refused, bytes, none⟩) ∧
      t.eng.books = s.eng.books ∧ t.acc = s.acc) := by
  show EndsIn _ (execModelVerified m s)
  simp only [execModelVerified, hverifying, if_true]
  split
  · exact .next ⟨look_put_same _ _ _, rfl, rfl⟩
  · exact .next ⟨look_put_same _ _ _, rfl, rfl⟩

/-- Settles O21: a codebook write and a model image write each change their own entry of the map, and the end of the
verification replaces the image's entry alone. -/
theorem codebooksAndModels : Obligations.CodebooksAndModels := by
  unfold Obligations.CodebooksAndModels
  exact ⟨fun _ _ _ _ => codebookWrite_stores, fun _ _ _ => codebookWrite_removes,
    fun _ _ _ _ => modelImageWrite_updates_library, fun _ _ _ _ => modelVerified_judges⟩

/-! ## An open that passes its checks and finds no lane (R126, R128, R147)

The checks of a descriptor write judge the slots as they are once the loads that no session waits for and that have not
started are withdrawn. The effect then chooses the lane with those loads still in the queue. MODEL_LOAD_DONE leaves such a
load there when it fails a replica session whose other tile had a load of its own further back. -/

theorem writeDesc_of_accepted {au : Auth} {n : Nat} {d : Desc} {s : State} (hup : s.oda.serving = true)
    (hcheck : precheck s au (0x440000 + n) 0 (.bytes d.bytes) = 0) (hhome : descHome au n d true s = 0) :
    writeDesc au n d true s = accept (descEffect au n d) s := by
  simp [writeDesc, hup, hcheck, hhome]

theorem openSession_of_no_lane {au : Auth} {n : Nat} {d : Desc} {c : Count} {m : Model} {s : State}
    (hmodel : modelOf s d.model = some m)
    (hlane : chooseLane s d.cls m.shape d.model m.weightBytes d.lane d.replica = none) :
    openSession au n d c s = s := by
  simp only [openSession, hmodel, hlane]

theorem descEffect_open_of_closed {au : Auth} {n : Nat} {d : Desc} {c : Count} {s : State} (hopen : d.openBit = true)
    (hclosed : (getSess s n).st = .closed) :
    descEffect au n d c s = openSession au n d c (logWrite n d au c s) := by
  simp only [descEffect, hclosed, hopen, if_true]

/-- Without a lane in the queue's present state, an open does no more than enter the log of writes. -/
theorem descEffect_open_without_lane {au : Auth} {n : Nat} {d : Desc} {c : Count} {m : Model} {s : State}
    (hopen : d.openBit = true) (hclosed : (getSess s n).st = .closed) (hmodel : modelOf s d.model = some m)
    (hlane : chooseLane s d.cls m.shape d.model m.weightBytes d.lane d.replica = none) :
    descEffect au n d c s = logWrite n d au c s :=
  (descEffect_open_of_closed hopen hclosed).trans
    (openSession_of_no_lane (s := logWrite n d au c s) (m := m) hmodel hlane)

/-- Where the queue as it stands leaves no lane, an accepted open leaves the session CLOSED. -/
theorem sessionOpenRequest_without_lane {au : Auth} {n : Fin 10240} {d : Desc} {m : Model} {s : State}
    (hup : s.oda.serving = true) (hopen : d.openBit = true)
    (hcheck : precheck s au (0x440000 + n.val) 0 (.bytes d.bytes) = 0) (hhome : descHome au n.val d true s = 0)
    (hclosed : (getSess s n.val).st = .closed) (hmodel : modelOf s d.model = some m)
    (hlane : chooseLane s d.cls m.shape d.model m.weightBytes d.lane d.replica = none) :
    Ends (.sessionOpenRequest au n d) s (fun t => (getSess t n.val).st = .closed) := by
  have hd : { d with openBit := true } = d := by rw [← hopen]
  refine ⟨_, congrArg (fun x => Host.Outcome.next (writeDesc au n.val x true s)) hd, ?_⟩
  obtain ⟨k, o, haccept⟩ : ∃ k o, accept (descEffect au n.val d) s =
      descEffect au n.val d (acceptCount s) { s with clk := k, oda := o } := ⟨_, _, rfl⟩
  rw [writeDesc_of_accepted hup hcheck hhome, haccept,
    descEffect_open_without_lane (s := { s with clk := k, oda := o }) hopen hclosed hmodel hlane]
  exact hclosed

/-- A model of shape 5 without weights, state or adapters. -/
def plainModel : Model where
  format := 1
  contract := 1
  kind := 1
  shape := 5
  weightBytes := 0
  stateBytes := 0
  vocab := 2
  window := 0
  params := 0
  ops := 0
  adapters := []
  init := []
  weights := []
  totalBytes := 0
  sigOff := 0
  offsetsOk := true
  reservedOk := true
  digest := []

/-- An image of two tiles with one slot of shape 5 each and a lane on the first. -/
def twoTileImage : Image where
  format := 1
  contract := 1
  period := 1
  nL := 2
  n0 := 2
  lockstep := false
  emitStart := 6400
  sections := 1
  totalBytes := 0
  opsTotal := 0
  opsP0 := 0
  stateTotal := 0
  boardBytes := 0
  p0Lanes := 0
  layoutDigest := []
  layoutOk := true
  fieldsOk := true
  sigOff := 0
  digest := []
  ltiles := [⟨0, 1, 1, 0, 1, 1, false, 0, [], []⟩, ⟨0, 1, 1, 0, 1, 1, false, 0, [], []⟩]
  slots := [⟨0, 0, 5, 100, 0⟩, ⟨1, 0, 5, 100, 0⟩]
  lanes := [⟨0, 1, 5, none, 0⟩]
  board := []
  ckptMap := []

/-- Class 1, model 2, codebook 1, any lane. -/
def openDesc : Desc := { Desc.zero with cls := 1, openBit := true, kind := 3, model := 2, codebook := 1, lane := 0xFFFF }

/-- READY with that image in force. Behind a load that has started stands one, of model 4 to the lane's only slot, that no
session waits for and that has not started. -/
def orphanLoadQueued : State := { State.reset with
  clk := { Clock.init with running := true }
  part := { Part.init with st := .ready, reset := false, boot := .done }
  oda := { Oda.init with serving := true }
  img := { Images.init with
    store := vupd Images.init.store 0 (fun _ => ⟨.inForce, [], some twoTileImage⟩)
    inForce := some 0
    binds := [⟨some 0, 1, 0, false, 0⟩, ⟨some 1, 1, 0, false, 0⟩] }
  eng := { Engine.init with
    lib := [(2, ⟨.valid, [], some plainModel⟩)]
    books := [(1, ⟨[0, 0x3F800000, 0x40000000], [0, 0]⟩)]
    loads := [⟨3, 1, 0, none, true, 5⟩, ⟨4, 0, 0, none, false, 6⟩] } }

/-- Refutes O20: an accepted open can leave its session CLOSED. The checks count a slot as free that only a withdrawn load
would take, while the effect still finds that load in the queue, no slot, and so no lane. -/
theorem not_sessionsOpenAndClose : ¬ Obligations.SessionsOpenAndClose := by
  unfold Obligations.SessionsOpenAndClose
  intro h
  obtain ⟨hopens, -⟩ := h
  have hcheck : precheck orphanLoadQueued .service 0x440000 0 (.bytes openDesc.bytes) = 0 := by decide +kernel
  have hhome : descHome .service 0 openDesc true orphanLoadQueued = 0 := by decide +kernel
  have hlane : chooseLane orphanLoadQueued 1 5 2 0 0xFFFF false = none := by decide +kernel
  obtain ⟨t, ht, hpending, -⟩ := hopens .service 0 openDesc orphanLoadQueued rfl hcheck hhome rfl
  obtain ⟨u, hu, hclosed⟩ := sessionOpenRequest_without_lane (n := 0) (m := plainModel) rfl rfl hcheck hhome rfl rfl hlane
  obtain rfl : t = u := Host.Outcome.next.inj (ht.symm.trans hu)
  exact absurd (hpending.symm.trans hclosed) (by decide)

end Sys2Proof.Laws

namespace Sys2Proof.Laws

open Sys2Proof.Machine

/-! ## Schedule images: the store, arming and the three activations (R190 to R196) -/

theorem noteDegraded_img (s : State) : (noteDegraded s).img = s.img :=
  keep_noteDegraded (L := [.part, .ev, .nut]) (.of_all rfl) (only_refl _ s) .img (by decide)

theorem noteDegraded_st (s : State) : (noteDegraded s).part.st = s.part.st := by
  unfold noteDegraded
  extract_lets w s1
  split
  · rfl
  · split
    · rfl
    · rfl

/-- A note of degradation leaves the engine, the images, the numbers and the part's state. -/
theorem noted_ends {P : State → Prop} {u : State}
    (hP : ∀ t, t.eng = u.eng → t.img = u.img → t.nums = u.nums → t.part.st = u.part.st → P t) :
    EndsIn P (noted (.next u)) :=
  .next (hP _ (noteDegraded_eng u) (noteDegraded_img u) (noteDegraded_nums u) (noteDegraded_st u))

/-- A write that passes its checks: its effect meets the state as it was, but for the accepting count and the answer. -/
theorem write_ends_of_only {s : State} {au : Auth} {key : Nat} {v : Value} {home : State → Nat}
    {eff : Count → State → State} {P : State → Prop} (hup : s.oda.serving = true) (hcheck : precheck s au key 0 v = 0)
    (hhome : home s = 0) (hP : ∀ c u, Only [.clk, .oda] s u → P (eff c u)) :
    EndsIn P (.next (writeStep au key v home eff s)) := by
  obtain ⟨u, haccept, hu⟩ := accept_eq_eff eff s
  rw [writeStep_of_accepted eff hup hcheck hhome, haccept]
  exact .next (hP _ u hu)

/-! ### The entries of the store (R190, R191) -/

/-- A write makes its entry VERIFYING, or EMPTY for no bytes, and leaves the others and the image in force. -/
theorem schedImageWrite_stores {au : Auth} {i : Fin 4} {bytes : List Byte} {s : State} (hup : s.oda.serving = true)
    (hcheck : precheck s au (0x404000 + i.val) 0 (.bytes []) = 0) (hhome : imageHome i s = 0) :
    Ends (.schedImageWrite au i bytes) s (fun t =>
      t.img.store.get i = ⟨if bytes = [] then .empty else .verifying, bytes, none⟩ ∧
      getN t (Obj.imageError i.val) = 0 ∧ (∀ k : Fin 4, k ≠ i → t.img.store.get k = s.img.store.get k) ∧
      t.img.inForce = s.img.inForce) := by
  refine write_ends_of_only (eff := imageEffect i bytes) hup hcheck hhome fun c u hu => ?_
  have himg : u.img = s.img := hu .img (by decide)
  exact ⟨vupd_get_same _ _ _, getN_setN_same _ _ _,
    fun k hk => (vupd_get_other _ _ _ _ hk.symm).trans (by rw [himg]), congrArg (·.inForce) himg⟩

/-- The check of a VERIFYING entry makes it VALID, or REFUSED with the code of the first check that fails. -/
theorem schedImageChecked_judges {i : Fin 4} {bytes : List Byte} {s : State}
    (hverifying : (s.img.store.get i).st = .verifying) (hbytes : (s.img.store.get i).bytes = bytes) :
    Ends (.schedImageChecked i) s (fun t =>
      t.img.store.get i = (if checkImage s bytes (parseImage bytes) = 0
        then ⟨.valid, bytes, some (parseImage bytes)⟩ else ⟨.refused, bytes, none⟩) ∧
      getN t (Obj.imageError i.val) = checkImage s bytes (parseImage bytes) ∧
      ∀ k : Fin 4, k ≠ i → t.img.store.get k = s.img.store.get k) := by
  subst hbytes
  exact ⟨_, if_neg (not_not_intro hverifying), vupd_get_same _ _ _, getN_setN_same _ _ _,
    fun k hk => vupd_get_other _ _ _ _ hk.symm⟩

/-! ### Arming (R192, R193) -/

theorem get_map_store (f : ImgEnt → ImgEnt) (v : Vector ImgEnt 4) (i : Fin 4) : (v.map f).get i = f (v.get i) :=
  Vector.getElem_map f i.isLt

theorem unarm_store_ne_armed (s : State) (i : Fin 4) : ((unarm s).img.store.get i).st ≠ .armed := by
  have hget : (unarm s).img.store.get i =
      if (s.img.store.get i).st = .armed then { s.img.store.get i with st := .valid } else s.img.store.get i :=
    get_map_store _ _ _
  rw [hget]
  split
  · exact nofun
  · assumption

/-- What follows the arming itself, the discard of switches or the load of the bundles, leaves the images and the part. -/
theorem armEffect_arms {i : Fin 4} {x : Image} (c : Count) {s : State} (himage : (s.img.store.get i).image = some x) :
    ((armEffect i c s).img.store.get i).st = .armed ∧ (armEffect i c s).img.armed = some i.val ∧
      (armEffect i c s).img.inForce = s.img.inForce ∧ (armEffect i c s).img.binds = s.img.binds ∧
      (armEffect i c s).part = s.part := by
  unfold armEffect
  rw [himage]
  dsimp -zeta only
  extract_lets hot s1 s2
  have hafter : Only [.nums, .ev, .nut, .eng, .mem, .bar] s2
      (if s.part.st ≠ .run && !hot then discardSwitches s2
       else if hot then seqRun 18 ((x.ltiles.map (fun t => t.bundles * 32)).sum) (loadBundles x s2) else s2) :=
    only_ite (fun _ => keep_discardSwitches (.of_all rfl) (only_refl _ _)) (fun _ =>
      only_ite (fun _ => keep_seqRun _ _ (.of_all rfl) (keep_loadBundles _ (.of_all rfl) (only_refl _ _)))
        (fun _ => only_refl _ _))
  rw [hafter .img (by decide), hafter .part (by decide)]
  refine ⟨?_, rfl, rfl, rfl, rfl⟩
  show ((vupd s1.img.store i _).get i).st = .armed
  rw [vupd_get_same]

/-- The checks of arming refuse an entry that holds no image. -/
theorem image_of_armHome {i : Fin 4} {s : State} (h : armHome i s = 0) : ∃ x, (s.img.store.get i).image = some x := by
  unfold armHome at h
  extract_lets e at h
  split at h
  · exact absurd h (by decide)
  · next x himage => exact ⟨x, himage⟩

theorem imageArm_arms {au : Auth} {i : Fin 4} {s : State} (hup : s.oda.serving = true)
    (hcheck : precheck s au Obj.imageArm.key 0 (.num i.val) = 0) (hhome : armHome i s = 0) :
    Ends (.imageArm au i) s (fun t => (t.img.store.get i).st = .armed ∧ t.img.armed = some i.val ∧
      t.img.inForce = s.img.inForce ∧ t.img.binds = s.img.binds ∧ t.part = s.part) := by
  obtain ⟨x, himage⟩ := image_of_armHome hhome
  refine write_ends_of_only (eff := armEffect i) hup hcheck hhome fun c u hu => ?_
  have himg : u.img = s.img := hu .img (by decide)
  have hpart : u.part = s.part := hu .part (by decide)
  rw [← himg] at himage ⊢
  rw [← hpart]
  exact armEffect_arms c himage

theorem imageDisarm_disarms {au : Auth} {s : State} (hup : s.oda.serving = true)
    (hcheck : precheck s au Obj.imageArm.key 0 (.num 0xFF) = 0) :
    Ends (.imageDisarm au) s (fun t => t.img.armed = none ∧ t.img.act = .none ∧ t.img.inForce = s.img.inForce ∧
      ∀ i : Fin 4, (t.img.store.get i).st ≠ .armed) :=
  write_ends_of_only (eff := fun _ s => unarm s) hup hcheck rfl fun _ u hu =>
    ⟨rfl, rfl, congrArg (·.inForce) (hu .img (by decide)), unarm_store_ne_armed u⟩

/-! ### What the parts of a COLD activation leave (R196, R197)

The image of the entry in force is loaded from scratch: contents move, tiles wake and are power-gated, sessions are carried
and restored, and a domain may fall LOST. Each operation on that way is shown to leave the store, the entry in force, what
is armed, a COLD stop, the next frame, the stop of the engine, and IMAGE_FRAME. -/

/-- The entries and the activations, the next frame and the engine's stop, and IMAGE_FRAME are the same in both. -/
structure ForceKept (s u : State) : Prop where
  store : u.img.store = s.img.store
  inForce : u.img.inForce = s.img.inForce
  armed : u.img.armed = s.img.armed
  act : u.img.act = s.img.act
  coldStop : u.img.coldStop = s.img.coldStop
  next : u.eng.next = s.eng.next
  stopped : u.eng.stopped = s.eng.stopped
  frame : getN u Obj.imageFrame = getN s Obj.imageFrame

section
variable {r s u : State}

theorem ForceKept.refl (s : State) : ForceKept s s := ⟨rfl, rfl, rfl, rfl, rfl, rfl, rfl, rfl⟩

theorem ForceKept.trans (h : ForceKept r s) (k : ForceKept s u) : ForceKept r u :=
  ⟨k.store.trans h.store, k.inForce.trans h.inForce, k.armed.trans h.armed, k.act.trans h.act,
    k.coldStop.trans h.coldStop, k.next.trans h.next, k.stopped.trans h.stopped, k.frame.trans h.frame⟩

/-- What leaves the images and the numbers leaves these where it leaves the next frame and the stop. -/
theorem ForceKept.of_same (h : ForceKept r s) (himg : u.img = s.img) (hnums : u.nums = s.nums)
    (hnext : u.eng.next = s.eng.next) (hstopped : u.eng.stopped = s.eng.stopped) : ForceKept r u :=
  h.trans ⟨congrArg (·.store) himg, congrArg (·.inForce) himg, congrArg (·.armed) himg, congrArg (·.act) himg,
    congrArg (·.coldStop) himg, hnext, hstopped, getN_of_nums_eq hnums _⟩

/-- What changes memory, interrupts, events or the free values alone leaves these. -/
theorem ForceKept.of_only (h : ForceKept r s) (hu : Only [.mem, .bar, .ev, .nut, .free] s u) : ForceKept r u :=
  h.of_same (hu .img (by decide)) (hu .nums (by decide)) (congrArg (·.next) (hu .eng (by decide)))
    (congrArg (·.stopped) (hu .eng (by decide)))

theorem forceKept_ite {c : Prop} [Decidable c] {a b : State} (ha : ForceKept r a) (hb : ForceKept r b) :
    ForceKept r (if c then a else b) := by
  split
  · exact ha
  · exact hb

theorem forceKept_setN {o : Obj} {v : Nat} (ho : o.key ≠ Obj.imageFrame.key) (h : ForceKept r s) :
    ForceKept r (setN s o v) :=
  h.trans ⟨rfl, rfl, rfl, rfl, rfl, rfl, rfl, getN_setN_other _ _ _ _ ho⟩

/-- Another binding, plan, throttle or loss of a domain. -/
theorem forceKept_setImg {f : Images → Images} (h : ForceKept r s) (hstore : (f s.img).store = s.img.store := by rfl)
    (hforce : (f s.img).inForce = s.img.inForce := by rfl) (harmed : (f s.img).armed = s.img.armed := by rfl)
    (hact : (f s.img).act = s.img.act := by rfl) (hcold : (f s.img).coldStop = s.img.coldStop := by rfl) :
    ForceKept r (setImg f s) :=
  h.trans ⟨hstore, hforce, harmed, hact, hcold, rfl, rfl, rfl⟩

theorem forceKept_raiseMain {e : Ev} {source detail : Nat} (h : ForceKept r s) :
    ForceKept r (raiseMain e source detail s) := h.of_same rfl rfl rfl rfl

theorem forceKept_noteDegraded (h : ForceKept r s) : ForceKept r (noteDegraded s) :=
  h.of_same (noteDegraded_img s) (noteDegraded_nums s) (congrArg (·.next) (noteDegraded_eng s))
    (congrArg (·.stopped) (noteDegraded_eng s))

theorem forceKept_addNext {c : Ctrl} (h : ForceKept r s) : ForceKept r (addNext c s) := h.of_same rfl rfl rfl rfl

theorem forceKept_setSess {n : Nat} {x : Sess} (h : ForceKept r s) : ForceKept r (setSess n x s) :=
  h.of_same rfl rfl rfl rfl

theorem forceKept_updSess {n : Nat} {f : Sess → Sess} (h : ForceKept r s) : ForceKept r (updSess n f s) :=
  forceKept_setSess h

theorem forceKept_updTile {t : Fin 68} {f : Tile → Tile} (h : ForceKept r s) : ForceKept r (updTile t f s) :=
  h.of_same rfl rfl rfl rfl

/-- A step of the engine that leaves its frames as they are. -/
theorem forceKept_setEng {f : Engine → Engine} (h : ForceKept r s) (hnext : (f s.eng).next = s.eng.next := by rfl)
    (hstopped : (f s.eng).stopped = s.eng.stopped := by rfl) : ForceKept r (setEng f s) :=
  h.of_same rfl rfl hnext hstopped

theorem forceKept_setAdvance {n k phase : Nat} (h : ForceKept r s) : ForceKept r (setAdvance n k phase s) :=
  forceKept_addNext (forceKept_updSess h)

/-! #### The runs of the frame sequencer (R411) -/

theorem forceKept_seqOne {c : Fin 32} {k : Nat} (h : ForceKept r s) : ForceKept r (seqOne c k s) := by
  refine ForceKept.of_only ?_ (keep_signalCell _ _ (.of_all rfl) (only_refl _ _))
  unfold milletBytes
  refine forceKept_setN ?_ (forceKept_setN (Nat.ne_of_gt (Nat.lt_add_right _ (by decide))) (h.of_same rfl rfl rfl rfl))
  cases engineOf c
  · decide
  · decide

theorem forceKept_seqRun {c : Fin 32} {bytes : Nat} (h : ForceKept r s) : ForceKept r (seqRun c bytes s) :=
  forEach_keeps (fun _ _ => forceKept_seqOne) h

theorem forceKept_seqCancel {c : Fin 32} (h : ForceKept r s) : ForceKept r (seqCancel c s) :=
  h.of_only (keep_seqCancel c (.of_all rfl) (only_refl _ s))

theorem forceKept_seqStart {c : Fin 32} {bytes : Nat} (h : ForceKept r s) : ForceKept r (seqStart c bytes s) :=
  h.of_only (keep_seqStart c bytes (.of_all rfl) (only_refl _ s))

theorem forceKept_seqFinish {c : Fin 32} (h : ForceKept r s) : ForceKept r (seqFinish c s) := by
  unfold seqFinish
  split
  · exact h
  · exact (forEach_keeps (fun _ _ => forceKept_seqOne) h).of_only (keep_seqLeave _ _ (.of_all rfl) (only_refl _ _))

/-! #### Contents and tiles -/

theorem forceKept_placeWeights {m : Nat} {p : Nat × Nat} (h : ForceKept r s) : ForceKept r (placeWeights m p s) := by
  unfold placeWeights
  split
  · split
    · exact forceKept_updTile h
    · exact h
  · exact h

theorem forceKept_loadWeights {x : Image} {l : Nat} (h : ForceKept r s) : ForceKept r (loadWeights x l s) := by
  refine forEach_keeps (fun e v hv => ?_) h
  split
  · split
    · exact hv
    · exact forceKept_placeWeights hv
  · exact hv

theorem forceKept_loadTile {x : Image} {l : Nat} (h : ForceKept r s) : ForceKept r (loadTile x l s) := by
  unfold loadTile
  split
  · exact forceKept_updTile h
  · exact h

theorem forceKept_moveAll {x : Image} {old : List Bind} {src : Vector Tile 68} (h : ForceKept r s) :
    ForceKept r (moveAll x old src s) := by
  refine forEach_keeps (fun l v hv => ?_) h
  split
  · split
    · exact forceKept_updTile hv
    · exact forceKept_loadWeights (forceKept_loadTile hv)
  · exact forceKept_loadWeights (forceKept_loadTile hv)

theorem forceKept_wakeTiles {bs : List Bind} (h : ForceKept r s) : ForceKept r (wakeTiles bs s) :=
  forAll_keeps (fun _ _ hv => forceKept_ite (forceKept_updTile hv) hv) h

theorem forceKept_gateUnmapped {bs : List Bind} (h : ForceKept r s) : ForceKept r (gateUnmapped bs s) :=
  forAll_keeps (fun _ _ hv => forceKept_ite (forceKept_updTile hv) hv) h

/-! #### The binding and its recomputation (R201, R204) -/

theorem forceKept_applyBinds {x : Image} {bs : List Bind} {f1 f2 s0 dv : Nat} (h : ForceKept r s) :
    ForceKept r (applyBinds x bs f1 f2 s0 dv s) := by
  unfold applyBinds
  extract_lets old s1 s2 s3
  have hs1 : ForceKept r s1 := forceKept_setImg (forceKept_setEng h)
  have hs2 : ForceKept r s2 := forceKept_gateUnmapped (forceKept_moveAll (forceKept_wakeTiles hs1))
  have hs3 : ForceKept r s3 := forEach_keeps (fun l v hv => by
    split
    · exact forceKept_ite (forceKept_addNext hv) hv
    · exact hv) hs2
  exact forEach_keeps (fun l v hv => forEach_keeps (fun k w hw =>
    forceKept_ite (forceKept_raiseMain (forceKept_updSess hw))
      (forceKept_ite hw (forceKept_setAdvance (forceKept_updSess hw)))) hv) hs3

theorem forceKept_releaseHeld {p : Plan} {keep : List Nat} (h : ForceKept r s) : ForceKept r (releaseHeld p keep s) := by
  refine forEach_keeps (fun l v hv => ?_) h
  exact forEach_keeps (fun _ _ hw => forceKept_ite (forceKept_setAdvance (forceKept_updSess hw)) hw) (forceKept_setImg hv)

theorem forceKept_recompute {lost : List Nat} (h : ForceKept r s) : ForceKept r (recompute lost s) := by
  unfold recompute
  split
  · exact forceKept_setImg h
  · next x _ =>
    extract_lets s1 plan lost0 heldNow
    have hs1 : ForceKept r s1 := forceKept_setImg h
    split
    · exact forceKept_ite hs1 (forceKept_moveAll (forceKept_wakeTiles hs1))
    · split
      · exact forceKept_applyBinds hs1
      · split
        next w s2 hfree =>
        have hs2 : ForceKept r s2 := hs1.of_only (keep_takeFree_eq hfree (.of_all rfl) (only_refl _ _))
        extract_lets sw p
        split
        · exact forceKept_setImg hs2
        · exact forceKept_ite (forceKept_setImg (forceKept_releaseHeld hs2)) (forceKept_setImg hs2)

/-! #### The loss of a domain (R209, R210) -/

theorem forceKept_loseSession {n : Nat} (h : ForceKept r s) : ForceKept r (loseSession n s) := by
  unfold loseSession
  extract_lets s1
  have hs1 : ForceKept r s1 := forceKept_updSess h
  exact forceKept_ite (forceKept_addNext hs1)
    (forceKept_ite (forceKept_updSess hs1) (hs1.of_same rfl rfl rfl rfl))

theorem forceKept_commitNum {key v dflt : Nat} {rcb : Bool} (h : ForceKept r s) :
    ForceKept r (commitNum key v dflt rcb s) := by
  cases rcb
  · exact h.of_same rfl rfl rfl rfl
  · exact h.of_same rfl rfl rfl rfl

theorem forceKept_domainLost {d : Fin 2} (h : ForceKept r s) : ForceKept r (domainLost d s) := by
  unfold domainLost
  split
  · exact h
  · extract_lets both hit s1 s2 s3 s4 s5
    have hs2 : ForceKept r s2 := forceKept_setN (Nat.ne_of_gt (Nat.lt_add_right _ (by decide)))
      (forceKept_commitNum (forceKept_setImg h))
    have hs3 : ForceKept r s3 := forAll_keeps (fun _ _ hv => forceKept_ite (forceKept_updTile hv) hv) hs2
    have hs5 : ForceKept r s5 := forEach_keeps (fun _ _ => forceKept_loseSession) (forceKept_raiseMain hs3)
    exact forceKept_ite (forceKept_raiseMain hs5) (forceKept_recompute hs5)

theorem forceKept_checkDomain {d : Fin 2} (h : ForceKept r s) : ForceKept r (checkDomain d s) := by
  unfold checkDomain
  split
  · exact h
  · exact forceKept_ite (forceKept_domainLost h) h

theorem forceKept_checkDomains (h : ForceKept r s) : ForceKept r (checkDomains s) :=
  forceKept_checkDomain (forceKept_checkDomain h)

/-! #### The image from scratch, with the sessions carried (R197) -/

theorem forceKept_mapSess {f : Nat → Sess → Sess} (h : ForceKept r s) : ForceKept r (mapSess f s) :=
  forEach_keeps (fun _ _ => forceKept_updSess) h

theorem forceKept_carryModels {x : Image} {c : Carry} (h : ForceKept r s) : ForceKept r (carryModels x c s) := by
  unfold carryModels
  extract_lets key s1 s2
  have hs1 : ForceKept r s1 := forceKept_setEng (forceKept_seqCancel h)
  exact forceKept_mapSess (forEach_keeps (fun _ _ => forceKept_loadWeights) hs1)

theorem forceKept_carrySessions {x : Image} {c : Carry} (h : ForceKept r s) : ForceKept r (carrySessions x c s) :=
  forEach_keeps (fun _ _ => forceKept_updSess) h

theorem forceKept_coldLoad {i s0 : Nat} (h : ForceKept r s) : ForceKept r (coldLoad i s0 s) := by
  unfold coldLoad
  split
  · exact h
  · next x _ =>
    extract_lets c s1 s2 plan
    have hs1 : ForceKept r s1 := forAll_keeps (fun _ _ hv => forceKept_ite (forceKept_updTile hv) hv) h
    clear_value s1
    have hs2 : ForceKept r s2 :=
      forceKept_setImg (forceKept_carrySessions (forceKept_setImg (forceKept_setEng hs1)))
    exact forceKept_carryModels (forceKept_applyBinds (forceKept_seqRun hs2))

theorem forceKept_imageCtrl {i : Nat} (h : ForceKept r s) : ForceKept r (imageCtrl i s) := by
  unfold imageCtrl
  split
  · exact forceKept_addNext h
  · exact h

/-! #### Checkpoints and the sessions they restore (R160, R163) -/

theorem forceKept_addBases {k : Ckpt} (h : ForceKept r s) : ForceKept r (addBases k s) := by
  unfold addBases
  exact forceKept_ite h (h.of_same rfl rfl rfl rfl)

theorem forceKept_commitCkpt (h : ForceKept r s) : ForceKept r (commitCkpt s) := by
  unfold commitCkpt
  split
  · exact h
  · split
    · exact h
    · next k _ _ =>
      extract_lets base eng mem s1
      have hs1 : ForceKept r s1 := h.of_same rfl rfl rfl rfl
      have hnoted : ForceKept r (setN (setN s1 Obj.ckptFrame k.frame) Obj.ckptBytes k.length) :=
        forceKept_setN (by decide) (forceKept_setN (by decide) hs1)
      exact (forceKept_seqFinish (forceKept_addBases hnoted)).of_only
        (keep_signalCell _ _ (.of_all rfl) (only_refl _ _))

theorem forceKept_dropUnlisted (h : ForceKept r s) : ForceKept r (dropUnlisted s) := by
  unfold dropUnlisted
  split
  · exact h
  · exact forEach_keeps (fun _ _ => forceKept_updSess) h

theorem forceKept_queueLoad {model lane : Nat} {replica : Bool} {c : Count} (h : ForceKept r s) :
    ForceKept r (queueLoad model lane replica c s) := by
  unfold queueLoad
  split
  · exact h
  · extract_lets d eng s1
    have hs1 : ForceKept r s1 := h.of_same rfl rfl rfl rfl
    exact forceKept_ite (forceKept_seqStart hs1) hs1

theorem forceKept_fillSlot {m : Nat} {p : Nat × Nat} (h : ForceKept r s) : ForceKept r (fillSlot m p s) := by
  unfold fillSlot
  split
  · exact h.of_same rfl rfl rfl rfl
  · exact h

theorem forceKept_seatModel {n : Nat} (h : ForceKept r s) : ForceKept r (seatModel n s) := by
  unfold seatModel
  extract_lets x
  split
  · refine forEach_keeps (fun l v hv => ?_) h
    refine forceKept_ite hv ?_
    split
    · exact forceKept_placeWeights (forceKept_fillSlot hv)
    · exact hv
  · exact h

theorem forceKept_restoreSess {badNew badOld : List Nat} {e : CkptEnt} (h : ForceKept r s) :
    ForceKept r (restoreSess badNew badOld e s) := by
  unfold restoreSess
  extract_lets +onlyGivenNames n y got e1 pend model shape stays lane b k ph back s0 s1
  have hs0 : ForceKept r s0 := forceKept_setSess h
  have hs1 : ForceKept r s1 := forceKept_ite (forceKept_ite (forceKept_queueLoad hs0) hs0) (forceKept_seatModel hs0)
  exact forceKept_ite hs1 (forceKept_addNext hs1)

theorem forceKept_restoreTable {badNew badOld : List Nat} (h : ForceKept r s) :
    ForceKept r (restoreTable badNew badOld s) := by
  unfold restoreTable
  split
  · exact h
  · exact forEach_keeps (fun _ _ => forceKept_restoreSess) (forceKept_dropUnlisted h)

theorem forceKept_restoreRecords {badNew badOld : List Nat} (h : ForceKept r s) :
    ForceKept r (restoreRecords badNew badOld s) :=
  forEach_keeps (fun _ _ => forceKept_addNext) h

/-! #### Descriptor writes that are applied again (R163) -/

theorem forceKept_withdrawLoads (h : ForceKept r s) : ForceKept r (withdrawLoads s) := h.of_same rfl rfl rfl rfl

theorem forceKept_openSession {au : Auth} {n : Nat} {d : Desc} {c : Count} (h : ForceKept r s) :
    ForceKept r (openSession au n d c s) := by
  unfold openSession
  split
  · exact h
  · split
    · exact h
    · exact forceKept_ite (forceKept_updSess h) (forceKept_queueLoad (forceKept_updSess h))

theorem forceKept_requestSwitch {n : Nat} {d : Desc} {c : Count} (h : ForceKept r s) :
    ForceKept r (requestSwitch n d c s) := by
  unfold requestSwitch
  extract_lets x cleared repeated base
  have hcleared : ForceKept r cleared := forceKept_withdrawLoads (forceKept_updSess h)
  have hbase : ForceKept r base := forceKept_ite h hcleared
  split
  · exact hcleared
  · split
    · exact h
    · extract_lets same lane res
      exact forceKept_ite h (forceKept_ite (forceKept_updSess hbase) (forceKept_queueLoad (forceKept_updSess hbase)))

theorem forceKept_descEffect {au : Auth} {n : Nat} {d : Desc} {c : Count} (h : ForceKept r s) :
    ForceKept r (descEffect au n d c s) := by
  unfold descEffect
  extract_lets x s1
  have hs1 : ForceKept r s1 := h.of_same rfl rfl rfl rfl
  split
  · exact forceKept_ite (forceKept_openSession hs1) (forceKept_updSess hs1)
  · exact forceKept_ite
      (forceKept_ite (forceKept_updSess hs1)
        (forceKept_openSession (forceKept_withdrawLoads (forceKept_updSess hs1))))
      (forceKept_withdrawLoads (forceKept_updSess hs1))
  · exact forceKept_ite (forceKept_requestSwitch (forceKept_updSess hs1))
      (forceKept_withdrawLoads (forceKept_updSess hs1))
  · exact forceKept_ite (forceKept_requestSwitch (forceKept_updSess hs1)) (forceKept_updSess hs1)

theorem forceKept_reapplyOne {w : DescWrite} (h : ForceKept r s) : ForceKept r (reapplyOne w s) := by
  unfold reapplyOne
  extract_lets code ws s1
  exact forceKept_ite (forceKept_raiseMain (forceKept_updSess h)) ((forceKept_descEffect h).of_same rfl rfl rfl rfl)

end

/-! ### An entry takes force (R194 to R196) -/

/-- The store once entry i is IN_FORCE and the one before it VALID again. -/
def storeInForce (i : Fin 4) (store : Vector ImgEnt 4) : Vector ImgEnt 4 :=
  vupd (store.map (fun e => if e.st = .inForce then { e with st := .valid } else e)) i (fun e => { e with st := .inForce })

theorem storeInForce_same (i : Fin 4) (store : Vector ImgEnt 4) : ((storeInForce i store).get i).st = .inForce := by
  rw [storeInForce, vupd_get_same]

theorem storeInForce_other {i k : Fin 4} (store : Vector ImgEnt 4) (h : k ≠ i) :
    ((storeInForce i store).get k).st ≠ .inForce := by
  rw [storeInForce, vupd_get_other _ _ _ _ h.symm, get_map_store]
  split
  · exact nofun
  · assumption

/-- Entry i is in force and nothing is armed; the measurement and the signal leave the images. -/
theorem takeForce_img (i : Fin 4) (frame : Nat) (s : State) : ∃ spares, (takeForce i.val frame s).img =
    { s.img with
      store := storeInForce i s.img.store, spareAt := spares, inForce := some i.val, armed := none, act := .none } := by
  unfold takeForce
  extract_lets s1
  have hsignal : (signalCell 5 1 (setN (measImage i.val (markForce i.val s1)) Obj.imageFrame frame)).img =
      (measImage i.val (markForce i.val s1)).img :=
    keep_signalCell (L := [.ev, .nut, .mem, .bar]) 5 1 (.of_all rfl) (only_refl _ _) .img (by decide)
  have hmeas : (measImage i.val (markForce i.val s1)).img = (markForce i.val s1).img :=
    keep_measImage (L := [.cardamom]) _ (.of_all rfl) (only_refl _ _) .img (by decide)
  rw [hsignal, hmeas, markForce, dif_pos i.isLt]
  exact ⟨_, rfl⟩

theorem takeForce_frame (i frame : Nat) (s : State) : getN (takeForce i frame s) Obj.imageFrame = frame := by
  unfold takeForce
  extract_lets s1
  have hsignal : (signalCell 5 1 (setN (measImage i (markForce i s1)) Obj.imageFrame frame)).nums =
      (setN (measImage i (markForce i s1)) Obj.imageFrame frame).nums :=
    keep_signalCell (L := [.ev, .nut, .mem, .bar]) 5 1 (.of_all rfl) (only_refl _ _) .nums (by decide)
  rw [getN_of_nums_eq hsignal, getN_setN_same]

theorem takeForce_only (i frame : Nat) (s : State) :
    Only [.nums, .ev, .nut, .img, .mem, .bar, .cardamom] s (takeForce i frame s) :=
  keep_takeForce i frame (.of_all rfl) (only_refl _ s)

/-- Entry i is in force since the frame that IMAGE_FRAME gives, and nothing is armed. -/
structure TookForce (i : Fin 4) (frame : Nat) (t : State) : Prop where
  inForce : t.img.inForce = some i.val
  entry : (t.img.store.get i).st = .inForce
  armed : t.img.armed = none
  act : t.img.act = .none
  others : ∀ k : Fin 4, k ≠ i → (t.img.store.get k).st ≠ .inForce
  frame : getN t Obj.imageFrame = frame

theorem tookForce_takeForce (i : Fin 4) (frame : Nat) (s : State) : TookForce i frame (takeForce i.val frame s) := by
  obtain ⟨spares, himg⟩ := takeForce_img i frame s
  refine ⟨?_, ?_, ?_, ?_, fun k hk => ?_, takeForce_frame _ _ _⟩
  · rw [himg]
  · rw [himg]
    exact storeInForce_same _ _
  · rw [himg]
  · rw [himg]
  · rw [himg]
    exact storeInForce_other _ hk

theorem TookForce.of_kept {i : Fin 4} {frame : Nat} {s t : State} (h : TookForce i frame s) (hkept : ForceKept s t) :
    TookForce i frame t := by
  obtain ⟨hforce, hentry, harmed, hact, hothers, hframe⟩ := h
  refine ⟨hkept.inForce.trans hforce, ?_, hkept.armed.trans harmed, hkept.act.trans hact, ?_, hkept.frame.trans hframe⟩
  · rwa [hkept.store]
  · rwa [hkept.store]

/-! ### A HOT activation (R195) -/

/-- Bundles loaded into the inactive halves leave each tile's state and the half it runs from. -/
theorem loadBundles_tile (x : Image) (n : Fin 68) (s : State) :
    ((loadBundles x s).eng.tiles.get n).st = (s.eng.tiles.get n).st ∧
      ((loadBundles x s).eng.tiles.get n).ihalf = (s.eng.tiles.get n).ihalf := by
  refine forEach_keeps (P := fun u => (u.eng.tiles.get n).st = (s.eng.tiles.get n).st ∧
    (u.eng.tiles.get n).ihalf = (s.eng.tiles.get n).ihalf) (fun l u hu => ?_) ⟨rfl, rfl⟩
  split
  · next t p _ _ =>
    dsimp only
    by_cases hp : p = n
    · subst hp
      rw [updTile_get_same]
      exact hu
    · rw [updTile_get_other _ _ _ _ hp]
      exact hu
  · exact hu

theorem swapHalves_tile {n : Fin 68} {s : State} (h : (s.eng.tiles.get n).st = .active) :
    ((swapHalves s).eng.tiles.get n).ihalf = 1 - (s.eng.tiles.get n).ihalf := by
  have hget : (swapHalves s).eng.tiles.get n = if (s.eng.tiles.get n).st = .active
      then { s.eng.tiles.get n with ihalf := 1 - (s.eng.tiles.get n).ihalf } else s.eng.tiles.get n :=
    Vector.getElem_map _ n.isLt
  rw [hget, if_pos h]

/-- The bundles of an image are loaded and the halves swapped. -/
def hotLoad (image : Option Image) (s : State) : State :=
  swapHalves (match image with | some x => loadBundles x s | none => s)

theorem hotLoad_tile {n : Fin 68} (image : Option Image) {s : State} (h : (s.eng.tiles.get n).st = .active) :
    ((hotLoad image s).eng.tiles.get n).ihalf = 1 - (s.eng.tiles.get n).ihalf := by
  unfold hotLoad
  split
  · next x =>
    obtain ⟨hst, hhalf⟩ := loadBundles_tile x n s
    rw [swapHalves_tile (hst.trans h), hhalf]
  · exact swapHalves_tile h

theorem hotLoad_only (image : Option Image) (s : State) : Only [.eng] s (hotLoad image s) := by
  refine keep_swapHalves (.of_all rfl) ?_
  split
  · exact keep_loadBundles _ (.of_all rfl) (only_refl _ s)
  · exact only_refl _ s

theorem forceKept_swapHalves {r s : State} (h : ForceKept r s) : ForceKept r (swapHalves s) := forceKept_setEng h

theorem forceKept_hotLoad {image : Option Image} {r s : State} (h : ForceKept r s) : ForceKept r (hotLoad image s) := by
  refine forceKept_swapHalves ?_
  split
  · refine forEach_keeps (fun l u hu => ?_) h
    split
    · exact forceKept_updTile hu
    · exact hu
  · exact h

theorem imageCtrl_tiles (i : Nat) (s : State) : (imageCtrl i s).eng.tiles = s.eng.tiles := by
  unfold imageCtrl
  split
  · rfl
  · rfl

/-- At or after ACTIVATE_AT and 2 F after its loads, with no plan or replacement pending, the armed entry takes force. -/
theorem execHotActivation_of_due {i : Fin 4} {c : Count} {s : State} (hact : s.img.act = .hot i.val (some c))
    (hrun : s.part.st = .run) (hat : getN s Obj.activateAt ≤ s.eng.next)
    (hloaded : c + 2 * frameNs s ≤ startOf s s.eng.next) (hplan : s.img.plan = none) (hrepls : s.img.repls = [])
    (hmain : s.eng.mainDone = true) :
    execHotActivation s =
      noted (.next (imageCtrl i.val (hotLoad (imageOf s (some i.val)) (takeForce i.val s.eng.next s)))) := by
  unfold execHotActivation
  rw [hact]
  refine congrArg noted ?_
  dsimp only
  rw [if_neg (by simp [hrun, hat, hloaded, hplan, hrepls, hmain])]
  rfl

theorem hotActivation_switches {i : Fin 4} {c : Count} {s : State} (hact : s.img.act = .hot i.val (some c))
    (hrun : s.part.st = .run) (hat : getN s Obj.activateAt ≤ s.eng.next)
    (hloaded : c + 2 * frameNs s ≤ startOf s s.eng.next) (hplan : s.img.plan = none) (hrepls : s.img.repls = [])
    (hmain : s.eng.mainDone = true) :
    Ends .hotActivation s (fun t => t.img.inForce = some i.val ∧ (t.img.store.get i).st = .inForce ∧
      t.img.armed = none ∧ t.img.act = .none ∧ getN t Obj.imageFrame = s.eng.next ∧ t.img.binds = s.img.binds ∧
      ∀ n : Fin 68, (s.eng.tiles.get n).st = .active → (t.eng.tiles.get n).ihalf = 1 - (s.eng.tiles.get n).ihalf) := by
  show EndsIn _ (execHotActivation s)
  rw [execHotActivation_of_due hact hrun hat hloaded hplan hrepls hmain]
  refine noted_ends fun t heng himg hnums _ => ?_
  have hforce : TookForce i s.eng.next t := (tookForce_takeForce i s.eng.next s).of_kept
    ((forceKept_imageCtrl (forceKept_hotLoad (.refl _))).of_same himg hnums (congrArg (·.next) heng)
      (congrArg (·.stopped) heng))
  have hload : Only [.eng] (takeForce i.val s.eng.next s) _ :=
    keep_imageCtrl i.val (.of_all rfl) (hotLoad_only (imageOf s (some i.val)) _)
  obtain ⟨spares, htake⟩ := takeForce_img i s.eng.next s
  have hengine : (takeForce i.val s.eng.next s).eng = s.eng := takeForce_only _ _ _ .eng (by decide)
  refine ⟨hforce.inForce, hforce.entry, hforce.armed, hforce.act, hforce.frame, ?_, fun n hn => ?_⟩
  · rw [himg, hload .img (by decide), htake]
  · rw [heng, imageCtrl_tiles, hotLoad_tile _ (by rwa [hengine]), hengine]

/-! ### Activations that load the image from scratch (R194, R196) -/

/-- In READY, outside a replay, the entry whose loads are complete takes force. -/
theorem execReadyActivationDone_of_ready {i : Fin 4} {s : State} (hact : s.img.act = .ready i.val)
    (hready : s.part.st = .ready) (hreplay : s.img.replayOf = none) :
    execReadyActivationDone s = noted (.next (imageCtrl i.val (if !s.img.cold && s.img.inForce.isSome
      then hotLoad (imageOf s (some i.val)) (takeForce i.val 0 s)
      else checkDomains (coldLoad i.val 0 (takeForce i.val 0 s))))) := by
  unfold execReadyActivationDone
  rw [hact]
  refine congrArg noted ?_
  dsimp only
  rw [if_neg (by simp [hready, hreplay])]
  rfl

theorem readyActivationDone_takes_force {i : Fin 4} {s : State} (hact : s.img.act = .ready i.val)
    (hready : s.part.st = .ready) (hreplay : s.img.replayOf = none) :
    Ends .readyActivationDone s (TookForce i 0) := by
  show EndsIn _ (execReadyActivationDone s)
  rw [execReadyActivationDone_of_ready hact hready hreplay]
  have htook := tookForce_takeForce i 0 s
  have hkept := ForceKept.refl (takeForce i.val 0 s)
  have hloaded := htook.of_kept (forceKept_imageCtrl (i := i.val) (forceKept_ite
    (c := (!s.img.cold && s.img.inForce.isSome) = true) (forceKept_hotLoad (image := imageOf s (some i.val)) hkept)
    (forceKept_checkDomains (forceKept_coldLoad (i := i.val) (s0 := 0) hkept))))
  exact ⟨_, rfl, hloaded.of_kept (forceKept_noteDegraded (.refl _))⟩

/-- Between its frames C and J a COLD activation has the engine stopped. -/
def stopCold (i c j : Nat) (s : State) : State :=
  setImg (fun m => { m with coldStop := some (i, c, j) })
    (setEng (fun g => { g with
      stopped := true, nextTokens := [], teff := [], nextLedger := { g.nextLedger with gaps := 0 } }) s)

theorem execColdActivationStop_of_due {i : Fin 4} {k : Nat} {x : Image} {s : State}
    (hact : s.img.act = .coldWait i.val k) (hrun : s.part.st = .run) (hckpt : s.eng.next % 64 = 0)
    (hat : getN s Obj.activateAt ≤ s.eng.next) (harmed : s.img.armFrame + 2 ≤ s.eng.next)
    (hmain : s.eng.mainDone = true) (himage : (s.img.store.get i).image = some x) {j : Nat}
    (hj : s.eng.next + ceilDiv (coldTime s (imageNow s) x (carryAll x (liveNeeds s))) (frameNs s) = j) :
    execColdActivationStop s =
      noted (.next (stopCold i.val s.eng.next j (discardSwitches (takeForce i.val j s)))) := by
  have hentry : imageOf s (some i.val) = some x := (dif_pos i.isLt).trans himage
  subst hj
  unfold execColdActivationStop
  rw [hact]
  refine congrArg noted ?_
  dsimp only
  rw [if_neg (by simp [hrun, hckpt, hat, harmed, hmain]), hentry]
  rfl

theorem coldActivationStop_stops {i : Fin 4} {k : Nat} {x : Image} {s : State}
    (hact : s.img.act = .coldWait i.val k) (hrun : s.part.st = .run) (hckpt : s.eng.next % 64 = 0)
    (hat : getN s Obj.activateAt ≤ s.eng.next) (harmed : s.img.armFrame + 2 ≤ s.eng.next)
    (hmain : s.eng.mainDone = true) (himage : (s.img.store.get i).image = some x) :
    Ends .coldActivationStop s (fun t => t.eng.stopped = true ∧ t.img.inForce = some i.val ∧ t.part.st = .run ∧
      t.img.act = .none ∧ t.img.coldStop = some (i.val, s.eng.next,
        s.eng.next + ceilDiv (coldTime s (imageNow s) x (carryAll x (liveNeeds s))) (frameNs s))) := by
  show EndsIn _ (execColdActivationStop s)
  generalize hj : s.eng.next + ceilDiv (coldTime s (imageNow s) x (carryAll x (liveNeeds s))) (frameNs s) = j
  rw [execColdActivationStop_of_due hact hrun hckpt hat harmed hmain himage hj]
  refine noted_ends fun t heng himg _ hst => ?_
  have hdiscard : Only [.ev, .nut, .eng] (takeForce i.val j s) (discardSwitches (takeForce i.val j s)) :=
    keep_discardSwitches (.of_all rfl) (only_refl _ _)
  have himg' : t.img = { (takeForce i.val j s).img with coldStop := some (i.val, s.eng.next, j) } := by
    rw [himg, ← hdiscard .img (by decide)]
    rfl
  have hpart : (discardSwitches (takeForce i.val j s)).part = s.part :=
    (hdiscard .part (by decide)).trans (takeForce_only _ _ _ .part (by decide))
  obtain ⟨hforce, -, -, hact', -, -⟩ := tookForce_takeForce i j s
  rw [heng, himg']
  exact ⟨rfl, hforce, hst.trans ((congrArg (·.st) hpart).trans hrun), hact', rfl⟩

/-- At the frame of the rejoin the image runs on the state of checkpoint C: every step on the way to the restart of the
engine leaves the next frame and what is armed, and every step after it leaves the engine running. -/
theorem coldFinish_restarts (i : Nat) (s : State) : (coldFinish i s).eng.stopped = false ∧
    (coldFinish i s).img.coldStop = none ∧ (coldFinish i s).img.act = s.img.act ∧
    getN (coldFinish i s) Obj.imageFrame = s.eng.next ∧ (coldFinish i s).eng.next = s.eng.next ∧
    (coldFinish i s).part = s.part := by
  have hpart : (coldFinish i s).part = s.part :=
    keep_coldFinish (L := [.nums, .pow, .ev, .nut, .eng, .img, .mem, .bar, .free]) i (.of_all rfl) (only_refl _ s)
      .part (by decide)
  have hbefore : ForceKept s (dropUnlisted (commitCkpt s)) := forceKept_dropUnlisted (forceKept_commitCkpt (.refl s))
  revert hpart
  unfold coldFinish
  extract_lets s1 s2 s3
  intro hpart
  have hs1 : ForceKept (setImg (fun m => { m with coldStop := none }) (dropUnlisted (commitCkpt s))) s1 :=
    forceKept_coldLoad (.refl _)
  have hs3 : ForceKept (setImg (fun m => { m with coldStop := none }) (dropUnlisted (commitCkpt s))) s3 :=
    forEach_keeps (fun _ _ => forceKept_reapplyOne) (forceKept_restoreRecords (forceKept_restoreTable hs1))
  have hend : ForceKept (setN (setEng (fun g => { g with stopped := false }) s3) Obj.imageFrame s.eng.next) _ :=
    forceKept_imageCtrl (i := i) (forceKept_checkDomains (.refl _))
  exact ⟨hend.stopped, hend.coldStop.trans hs3.coldStop, hend.act.trans (hs3.act.trans hbefore.act),
    hend.frame.trans (getN_setN_same _ _ _), hend.next.trans (hs3.next.trans hbefore.next), hpart⟩

theorem coldActivationRejoin_restarts {i : Fin 4} {c j : Nat} {s : State} (hcold : s.img.coldStop = some (i.val, c, j))
    (hrun : s.part.st = .run) (hj : j ≤ s.eng.next) :
    Ends .coldActivationRejoin s (fun t => t.eng.stopped = false ∧ t.img.coldStop = none ∧ t.img.act = s.img.act ∧
      getN t Obj.imageFrame = s.eng.next ∧ t.eng.next = s.eng.next ∧ t.part.st = .run) := by
  have hexec : execColdActivationRejoin s = noted (.next (coldFinish i.val s)) := by
    unfold execColdActivationRejoin
    rw [hcold]
    exact congrArg noted (if_neg (by simp [hrun, hj]))
  show EndsIn _ (execColdActivationRejoin s)
  rw [hexec]
  refine noted_ends fun t heng himg hnums hst => ?_
  obtain ⟨hstopped, hstop, hact, hframe, hnext, hpart⟩ := coldFinish_restarts i.val s
  rw [heng, himg, getN_of_nums_eq hnums, hst, hpart]
  exact ⟨hstopped, hstop, hact, hframe, hnext, hrun⟩

/-- Settles O23: a write, a check, an arming and a disarming each change the store by their own lemma; an activation puts its
entry in force by `tookForce_takeForce`, and what the load, the restore and the checks of the domains do after it keeps it. -/
theorem imagesArmAndActivate : Obligations.ImagesArmAndActivate := by
  unfold Obligations.ImagesArmAndActivate
  exact ⟨fun _ _ _ _ => schedImageWrite_stores, fun _ _ _ => schedImageChecked_judges, fun _ _ _ => imageArm_arms,
    fun _ _ => imageDisarm_disarms,
    fun _ _ hact hready hreplay => ends_mono (readyActivationDone_takes_force hact hready hreplay)
      fun _ ⟨hforce, hentry, harmed, hact, hothers, hframe⟩ => ⟨hforce, hentry, harmed, hact, hframe, hothers⟩,
    fun _ _ _ => hotActivation_switches, fun _ _ _ _ => coldActivationStop_stops,
    fun _ _ _ _ => coldActivationRejoin_restarts⟩

/-! ## A domain lost in the middle of a COLD activation (R196, R209, R325)

COLD_ACTIVATION_STOP changes the image in force at frame C, while the binding stays that of the image before it until frame
J. A Warden command that takes the part to SAFE in between leaves both as they are. The loss of a domain then recomputes the
binding out of RUN: it compares the logical tiles of the new image alone, finds none that moves, and brings up every entry
of the old binding, the ones beyond the new image's N_L among them. -/

/-- The state a command ends in, or the one it met where it has no next state. -/
def stateAfter (c : Instr) (s : State) : State :=
  match exec c s with
  | .next t => t
  | _ => s

/-- Two logical tiles, the second of them in domain 1. -/
def bothDomainsImage : Image := { twoTileImage with n0 := 1 }

/-- The first of them alone. -/
def oneTileImage : Image := { bothDomainsImage with
  nL := 1, ltiles := bothDomainsImage.ltiles.take 1, slots := bothDomainsImage.slots.take 1 }

/-- RUN at checkpoint frame 64, with the image of two tiles in force on tiles 0 and 34 and a COLD activation of the other
due. -/
def coldActivationDue : State := { State.reset with
  clk := { Clock.init with running := true }
  part := { Part.init with st := .run, reset := false, boot := .done }
  bar := { Barley.init with fwImage := some ⟨1, 0, 1, 1, 4096, [], [], [], [], true⟩ }
  img := { Images.init with
    store := vupd (vupd Images.init.store 0 (fun _ => ⟨.inForce, [], some bothDomainsImage⟩))
      1 (fun _ => ⟨.armed, [], some oneTileImage⟩)
    inForce := some 0
    armed := some 1
    cold := true
    act := .coldWait 1 0
    binds := [⟨some 0, 1, 0, false, 0⟩, ⟨some 34, 1, 0, false, 0⟩] }
  eng := { Engine.init with
    running := true, any := true, mainDone := true, frame := 63, next := 64
    tiles := vupd (vupd Engine.init.tiles 0 (fun x => { x with st := .active, full := true }))
      34 (fun x => { x with st := .active, full := true }) } }

/-- SAFE by the Warden, with the engine stopped for the COLD activation: the image of one tile is in force, and the binding
still maps tiles 0 and 34. -/
def safeInColdActivation : State := stateAfter .wardenSafe (stateAfter .coldActivationStop coldActivationDue)

/-- Refutes O24: a domain that becomes LOST can have an active tile again at once. In SAFE between the frames C and J of a
COLD activation to an image of fewer logical tiles, the loss of domain 1 power-gates tile 34 and then wakes it for the
binding of the image before. -/
theorem not_plansAndDomains : ¬ Obligations.PlansAndDomains := by
  unfold Obligations.PlansAndDomains
  intro h
  obtain ⟨-, -, hlost, -⟩ := h
  obtain ⟨t, ht, -, -, -, hgated⟩ := hlost 1 safeInColdActivation (by decide +kernel)
  have hexec : exec (.bridgePortFailure 1) safeInColdActivation =
      .next (noteDegraded (domainLost 1 safeInColdActivation)) := rfl
  obtain rfl := Host.Outcome.next.inj (ht.symm.trans hexec)
  have hactive : ((domainLost 1 safeInColdActivation).eng.tiles.get 34).st = .active := by decide +kernel
  rw [noteDegraded_eng] at hgated
  exact hgated 34 rfl hactive

end Sys2Proof.Laws

namespace Sys2Proof.Laws

open Sys2Proof.Machine

/-! ## Concord summaries (R235, R236, R238) -/

/-- The concord program, its enable and the part's state lie outside the clock, the events and Anise's own state. -/
theorem concordOn_of_only {s u : State} (h : Only [.clk, .ani, .ev, .nut] s u) : concordOn u = concordOn s := by
  have hpart : u.part = s.part := h .part (by decide)
  have hblobs : u.blobs = s.blobs := h .blobs (by decide)
  unfold concordOn concordOf getBlob
  rw [getN_of_nums_eq (h .nums (by decide)), hpart, hblobs]

theorem reachCount_concordOn (c : Count) (s : State) : concordOn (reachCount c s) = concordOn s :=
  concordOn_of_only (keep_reachCount c (.of_all rfl) (only_refl _ s))

theorem reachCount_cutoffOf (c : Count) (s : State) (n : Nat) : cutoffOf (reachCount c s) n = cutoffOf s n := by
  obtain ⟨k, hk⟩ := reachCount_eq_with_clk c s
  rw [hk]
  rfl

/-! ### The R-TAG series (R388) -/

theorem nextTagOf_useTag_same (stream : Nat) (s : State) :
    nextTagOf (useTag stream s) stream = (nextTagOf s stream + 1) % 65536 :=
  congrArg (·.getD 0) (look_put_same _ _ _)

theorem putLine_rtagTx (p : Fin 2) (cls : Nat) (m : Msg) (s : State) :
    (putLine p cls m s).port.rtagTx = s.port.rtagTx := by
  unfold putLine
  extract_lets h mode assoc low s1
  split
  · rfl
  · split
    · rfl
    · split
      · split
        · rfl
        · rfl
      · rfl

/-- A frame takes no R-TAG number by leaving: it carries the one in it. -/
theorem nextTagOf_sendHost (p : Fin 2) (cls : Nat) (m : Msg) (s : State) (stream : Nat) :
    nextTagOf (sendHost p cls m s) stream = nextTagOf s stream := by
  unfold sendHost
  split
  · rfl
  · split
    · exact congrArg (fun tags => lookD tags stream 0) (putLine_rtagTx p cls m s)
    · rfl

/-! ### A summary is sent -/

/-- The frame's own summary is kept among those received. -/
def keepSummary (p : ConcordProg) (s : State) : State :=
  setAni (fun a => { a with sums := a.sums ++ [summaryOf s p s.eng.frame], sentFrame := some s.eng.frame }) s

/-- The message leaves on both host ports under one number. -/
def sendBoth (m : Msg) (s : State) : State := sendHost 1 5 m (sendHost 0 5 m (useTag 0 s))

theorem sendBoth_ani (m : Msg) (s : State) : (sendBoth m s).ani = s.ani :=
  keep_sendHost (L := [.ev, .nut, .port]) _ _ _ (.of_all rfl) (keep_sendHost _ _ _ (.of_all rfl)
    (keep_useTag _ (.of_all rfl) (only_refl _ s))) .ani (by decide)

theorem nextTagOf_sendBoth (m : Msg) (s : State) : nextTagOf (sendBoth m s) 0 = (nextTagOf s 0 + 1) % 65536 := by
  unfold sendBoth
  rw [nextTagOf_sendHost, nextTagOf_sendHost, nextTagOf_useTag_same]

theorem concordSummarySend_sends_once {p : ConcordProg} {s : State} (hon : concordOn s = some p)
    (hrunning : s.eng.running = true) (hp0 : s.eng.p0Done = true) (hskipped : s.eng.cur.skipped = false)
    (hbegun : frameBegun s = true) (hsent : s.ani.sentFrame ≠ some s.eng.frame) :
    Ends .concordSummarySend s (fun t => t.ani.sums = s.ani.sums ++ [summaryOf s p s.eng.frame] ∧
      t.ani.sentFrame = some s.eng.frame ∧ nextTagOf t 0 = (nextTagOf s 0 + 1) % 65536 ∧
      t.ani.results = s.ani.results) := by
  have hexec : ∃ m, execConcordSummarySend s = .next (sendBoth m (keepSummary p s)) := by
    unfold execConcordSummarySend
    rw [hon]
    exact ⟨_, if_neg (by simp [hrunning, hp0, hskipped, hbegun, hsent])⟩
  obtain ⟨m, hexec⟩ := hexec
  refine ⟨_, hexec, ?_⟩
  dsimp only
  rw [sendBoth_ani, nextTagOf_sendBoth]
  exact ⟨rfl, rfl, rfl, rfl⟩

/-! ### A summary is received -/

/-- A summary is one more of those kept. -/
def addSummary (x : Summary) (s : State) : State := setAni (fun a => { a with sums := a.sums ++ [x] }) s

theorem concordSummaryReceived_keeps {x : Summary} {count : Nat} {p : ConcordProg} {s : State}
    (hon : concordOn s = some p) (hformat : x.format = 1) (htrays : x.trays = p.trays)
    (hprogram : x.program = concordDigest p) (hbelow : x.index < p.trays) (hother : x.index ≠ p.index)
    (hnew : s.ani.sums.any (fun y => y.frame == x.frame && y.index == x.index) = false)
    (hintime : now (reachCount count s) ≤ cutoffOf s (x.frame + 1)) :
    Ends (.concordSummaryReceived x count) s (fun t =>
      t.ani.sums = s.ani.sums ++ [x] ∧ t.ani.results = s.ani.results ∧ t.acc = s.acc) := by
  have hexec : execConcordSummaryReceived x count s = .next (addSummary x (reachCount count s)) := by
    unfold execConcordSummaryReceived
    dsimp only
    rw [reachCount_concordOn, hon, reachCount_ani, hnew, reachCount_cutoffOf]
    refine if_neg ?_
    simp [hformat, htrays, hprogram, hbelow, hother, hintime]
  obtain ⟨k, hk⟩ := reachCount_eq_with_clk count s
  rw [hk] at hexec
  exact ⟨_, hexec, rfl, rfl, rfl⟩

/-- What does not match the program is dropped once the count is reached. -/
theorem concordSummaryReceived_of_mismatch {x : Summary} {count : Nat} {p : ConcordProg} {s : State}
    (hon : concordOn s = some p)
    (hdiffers : x.format ≠ 1 ∨ x.trays ≠ p.trays ∨ x.index = p.index ∨ p.trays ≤ x.index) :
    exec (.concordSummaryReceived x count) s = .next (reachCount count s) := by
  show execConcordSummaryReceived x count s = _
  unfold execConcordSummaryReceived
  dsimp only
  rw [reachCount_concordOn, hon]
  refine if_pos ?_
  rcases hdiffers with hformat | htrays | hindex | hbeyond
  · simp only [hformat, ne_eq, not_false_eq_true, decide_true, Bool.true_or]
  · simp only [htrays, ne_eq, not_false_eq_true, decide_true, Bool.or_true, Bool.true_or]
  · simp only [hindex, decide_true, Bool.or_true, Bool.true_or]
  · simp only [hbeyond, decide_true, Bool.or_true, Bool.true_or]

theorem concordSummaryReceived_of_off {x : Summary} {count : Nat} {s : State} (hoff : concordOn s = none) :
    exec (.concordSummaryReceived x count) s = .next (reachCount count s) := by
  show execConcordSummaryReceived x count s = _
  unfold execConcordSummaryReceived
  dsimp only
  rw [reachCount_concordOn, hoff]

/-- Settles O26: a summary is sent under one number of the R-TAG series and kept, a received one that matches is kept, and
whatever else is received only moves the clock. -/
theorem concordSummaries : Obligations.ConcordSummaries := by
  unfold Obligations.ConcordSummaries
  exact ⟨fun _ _ => concordSummarySend_sends_once, fun _ _ _ _ => concordSummaryReceived_keeps,
    fun _ _ _ _ hon hdiffers =>
      ⟨_, concordSummaryReceived_of_mismatch hon hdiffers, reachCount_ani _ _, reachCount_port _ _⟩,
    fun _ _ _ hoff => ⟨_, concordSummaryReceived_of_off hoff, reachCount_ani _ _, reachCount_nums _ _⟩⟩

/-! ## The frame jobs, the tick and Anise's memory errors (R213 to R231) -/

theorem noteDegraded_cool (s : State) : (noteDegraded s).cool = s.cool :=
  keep_noteDegraded (L := [.part, .ev, .nut]) (.of_all rfl) (only_refl _ s) .cool (by decide)

theorem noteDegraded_br (s : State) : (noteDegraded s).br = s.br :=
  keep_noteDegraded (L := [.part, .ev, .nut]) (.of_all rfl) (only_refl _ s) .br (by decide)

theorem tickFrames_of_nums_eq {s t : State} (h : t.nums = s.nums) : tickFrames t = tickFrames s := by
  unfold tickFrames
  rw [frameNs_of_nums_eq h]

/-! ### The parts of the frame job

Fault rules and the concord work come before the loops. With no active concord only the rules' own state differs when the
loops start. -/

theorem evalRule_ani (n i : Nat) (e : RuleEnt) (s : State) :
    ∃ rules, (evalRule n i e s).ani = { s.ani with rules := rules } := by
  unfold evalRule
  split
  · exact ⟨_, rfl⟩
  · split
    · exact ⟨_, rfl⟩
    · extract_lets x c seen clean up dn s1
      split
      · exact ⟨_, rfl⟩
      · split
        · exact ⟨_, rfl⟩
        · exact ⟨_, rfl⟩

theorem evalRules_ani (n : Nat) (s : State) : ∃ rules, (evalRules n s).ani = { s.ani with rules := rules } := by
  unfold evalRules
  split
  · exact ⟨_, rfl⟩
  · refine forEach_keeps (P := fun u => ∃ rules, u.ani = { s.ani with rules := rules }) (fun i u hu => ?_) ⟨_, rfl⟩
    split
    · next e _ =>
      obtain ⟨before, hbefore⟩ := hu
      obtain ⟨rules, hrules⟩ := evalRule_ani n i e u
      exact ⟨rules, by rw [hrules, hbefore]⟩
    · exact hu

theorem concordFrame_of_off {s : State} (n : Nat) (h : concordOn s = none) : concordFrame n s = s := by
  unfold concordFrame
  rw [h]

/-- The frame job of frame n is noted as run, with what an error in it would put back. -/
def beginJobs (n cycles : Nat) (s : State) : State :=
  keepJobs n (setAni (fun a => { a with
    jobsFrame := some n, firstRun := match a.firstRun with | some c => some c | none => some cycles }) s)

/-- The frame job up to the loops: the fault rules and the concord work. -/
def beforeLoops (n cycles : Nat) (s : State) : State := concordFrame n (evalRules n (beginJobs n cycles s))

theorem beforeLoops_eq_evalRules {n cycles : Nat} {s : State} (hoff : concordOn s = none) :
    beforeLoops n cycles s = evalRules n (beginJobs n cycles s) :=
  concordFrame_of_off n ((concordOn_of_only (keep_evalRules n (.of_all rfl) (keep_keepJobs n (.of_all rfl)
    (keep_setAni _ (.of_all rfl) (only_refl _ s))))).trans hoff)

theorem beforeLoops_ani {n cycles : Nat} {s : State} (hoff : concordOn s = none) :
    ∃ rules, (beforeLoops n cycles s).ani = { (beginJobs n cycles s).ani with rules := rules } := by
  rw [beforeLoops_eq_evalRules hoff]
  exact evalRules_ani n _

theorem beforeLoops_nums {n cycles : Nat} {s : State} (hoff : concordOn s = none) :
    (beforeLoops n cycles s).nums = s.nums := by
  rw [beforeLoops_eq_evalRules hoff]
  exact keep_evalRules (L := [.ani, .ev, .nut]) n (.of_all rfl) (keep_keepJobs n (.of_all rfl)
    (keep_setAni _ (.of_all rfl) (only_refl _ s))) .nums (by decide)

/-- An error found before the job ran discards it. -/
def dropJobs (s : State) : State := setAni (fun a => { a with jobsUe := false }) s

theorem frameJobs_of_error {n : Nat} {s : State} (hue : s.ani.jobsUe = true) (hn : n % tickFrames s ≠ 0) :
    frameJobs n s = dropJobs (beginJobs n s.clk.cycles s) := by
  have hframes : tickFrames (dropJobs (beginJobs n s.clk.cycles s)) = tickFrames s := rfl
  unfold frameJobs
  rw [if_neg hn, if_pos hue]
  exact if_neg (hframes ▸ hn)

theorem frameJobs_between_ticks {n : Nat} {s : State} (hue : s.ani.jobsUe = false) (hoff : concordOn s = none)
    (hn : n % tickFrames s ≠ 0) : frameJobs n s = beforeLoops n s.clk.cycles s := by
  have hframes : tickFrames (beforeLoops n s.clk.cycles s) = tickFrames s :=
    tickFrames_of_nums_eq (beforeLoops_nums hoff)
  unfold frameJobs
  rw [if_neg hn, if_neg (by simp [hue])]
  exact if_neg (hframes ▸ hn)

theorem frameJobs_at_tick {n : Nat} {s : State} (hue : s.ani.jobsUe = false) (hn : n % tickFrames s = 0)
    (hoff : concordOn (tickTake s) = none) (hnums : (tickTake s).nums = s.nums) :
    frameJobs n s = tickRun (n / tickFrames s) (beforeLoops n s.clk.cycles (tickTake s)) := by
  have hframes : tickFrames (beforeLoops n s.clk.cycles (tickTake s)) = tickFrames s :=
    tickFrames_of_nums_eq ((beforeLoops_nums hoff).trans hnums)
  unfold frameJobs
  rw [if_pos hn, if_neg (by simp [hue]), ← hframes]
  exact if_pos (hframes ▸ hn)

/-! ### The start of a tick (R213, R217, R218, R224) -/

/-- The results of the tick before take effect. -/
def takeResults (a : Anise) : Anise :=
  { a with temps := a.newTemps.getD a.temps, mpc := a.newMpc.getD a.mpc, newTemps := none, newMpc := none }

theorem tickTake_of_no_program {s : State} (h : s.ani.ready = none) :
    tickTake s = setAni takeResults (reloadProgram s) := by
  unfold tickTake
  rw [h]
  rfl

theorem reloadProgram_of_intact {s : State} (h : s.ani.reload = false) : reloadProgram s = s := by
  unfold reloadProgram
  exact if_neg (by simp [h])

theorem reloadProgram_prog {p : Program} {s : State} (h : s.ani.prog = some p) :
    ∃ q, (reloadProgram s).ani.prog = some q := by
  unfold reloadProgram
  split
  · have hrun : (seqRun 18 (getBlob s Blob.aniseProgram).length s).ani = s.ani :=
      keep_seqRun (L := [.nums, .ev, .nut, .mem, .bar]) 18 _ (.of_all rfl) (only_refl _ s) .ani (by decide)
    refine ⟨parseProgram (getBlob s Blob.aniseProgram), ?_⟩
    show Option.map _ (seqRun 18 (getBlob s Blob.aniseProgram).length s).ani.prog = _
    rw [hrun, h]
    rfl
  · exact ⟨p, h⟩

/-- A program in force, every state at its initial value. -/
def install (p : Program) (a : Anise) : Anise :=
  { a with
    st := .inForce, prog := some p, ready := none, newTemps := none, newMpc := none
    temps := List.replicate p.nodes.length room25, integ := List.replicate p.loops.length 0
    mpc := p.problems.map MpcState.zero, set := List.replicate 24 none
    rules := List.replicate p.rules.length RuleState.zero }

theorem activate_ani (p : Program) (s : State) : (activate p s).ani = install p s.ani := by
  have hrest : Only [.nums, .ev, .nut, .cardamom] (setAni (install p) s) (activate p s) := by
    refine keep_logMeas _ _ _ (.of_all rfl) (only_forEach _ _ (fun k u hu => ?_) (only_refl _ _))
    split
    · exact keep_evalTarget _ (.of_all rfl) (keep_setN _ _ (.of_all rfl) hu)
    · exact hu
  exact hrest .ani (by decide)

theorem tickTake_ani_of_program {p : Program} {s : State} (h : s.ani.ready = some p) :
    (tickTake s).ani = install p { s.ani with reload := false } := by
  unfold tickTake
  rw [h]
  exact activate_ani p _

/-- The loops move the integrators and form set points; the temperatures and the program stay. -/
theorem tickRun_ani {p : Program} {s : State} (m : Nat) (hprog : s.ani.prog = some p) :
    ∃ w integ set sent, (tickRun m s).ani =
      { s.ani with tick := m, ticking := true, w := w, integ := integ, set := set, sent := sent } := by
  unfold tickRun
  rw [hprog]
  exact ⟨_, _, _, _, rfl⟩

/-- A FIXED output is sent its value, clamped to its limits. -/
theorem tickRun_sends_fixed {p : Program} {o : Fin 24} {i j v : Nat} {s : State} (m : Nat)
    (hprog : s.ani.prog = some p) (hout : p.outs[o.val]? = some ⟨1, i, j, v⟩) :
    (tickRun m s).ani.sent.get o = some (clampF (getN s (Obj.outMin o.val)) (getN s (Obj.outMax o.val)) v) := by
  unfold tickRun
  rw [hprog]
  dsimp -zeta only
  extract_lets s2 w res pts
  have hpoint : pts.getD o.val none = some (clampF (getN s (Obj.outMin o.val)) (getN s (Obj.outMax o.val)) v) := by
    simp only [pts, List.getD_eq_getElem?_getD, List.getElem?_map, List.getElem?_range o.isLt, Option.map_some,
      Option.getD_some, hout]
    rfl
  refine (Vector.getElem_ofFn o.isLt).trans ?_
  rw [hpoint]

/-! ### ANISE_FRAME_JOBS -/

/-- A frame's jobs run once after the frame has begun; the note of degradation after them leaves Anise and the outputs. -/
theorem aniseFrameJobs_ends_in_run {s : State} {P : State → Prop} (hrun : s.part.st = .run)
    (hbegun : frameBegun s = true) (hjobs : s.ani.jobsFrame ≠ some s.eng.frame)
    (hP : ∀ t, t.ani = (frameJobs s.eng.frame s).ani → t.cool = s.cool → P t) : Ends .aniseFrameJobs s P := by
  have hexec : execAniseFrameJobs s = .next (noteDegraded (frameJobs s.eng.frame s)) := by
    unfold execAniseFrameJobs
    rw [if_pos hrun, if_neg (by simp [hbegun, hjobs])]
  have hcool : (frameJobs s.eng.frame s).cool = s.cool :=
    keep_frameJobs (L := [.nums, .acc, .ev, .nut, .eng, .ani, .mem, .bar, .cardamom]) _ (.of_all rfl) (only_refl _ s)
      .cool (by decide)
  exact ⟨_, hexec, hP _ (noteDegraded_ani _) ((noteDegraded_cool _).trans hcool)⟩

theorem aniseFrameJobs_between_ticks {s : State} (hrun : s.part.st = .run) (hbegun : frameBegun s = true)
    (hjobs : s.ani.jobsFrame ≠ some s.eng.frame) (hoff : concordOn s = none) (hn : s.eng.frame % tickFrames s ≠ 0) :
    Ends .aniseFrameJobs s (fun t => t.ani.jobsFrame = some s.eng.frame ∧ t.ani.tick = s.ani.tick ∧
      t.ani.temps = s.ani.temps ∧ t.ani.sent = s.ani.sent ∧ t.cool = s.cool) := by
  refine aniseFrameJobs_ends_in_run hrun hbegun hjobs fun t hani hcool => ?_
  cases hue : s.ani.jobsUe with
  | true =>
    rw [hani, frameJobs_of_error hue hn]
    exact ⟨rfl, rfl, rfl, rfl, hcool⟩
  | false =>
    obtain ⟨rules, hrules⟩ := beforeLoops_ani (n := s.eng.frame) (cycles := s.clk.cycles) hoff
    rw [hani, frameJobs_between_ticks hue hoff hn, hrules]
    exact ⟨rfl, rfl, rfl, rfl, hcool⟩

theorem aniseFrameJobs_drops_jobs {s : State} (hrun : s.part.st = .run) (hbegun : frameBegun s = true)
    (hjobs : s.ani.jobsFrame ≠ some s.eng.frame) (hue : s.ani.jobsUe = true) (hn : s.eng.frame % tickFrames s ≠ 0) :
    Ends .aniseFrameJobs s (fun t => t.ani.jobsFrame = some s.eng.frame ∧ t.ani.jobsUe = false ∧
      t.ani.rules = s.ani.rules ∧ t.ani.integ = s.ani.integ ∧ t.ani.sent = s.ani.sent ∧ t.cool = s.cool) := by
  refine aniseFrameJobs_ends_in_run hrun hbegun hjobs fun t hani hcool => ?_
  rw [hani, frameJobs_of_error hue hn]
  exact ⟨rfl, rfl, rfl, rfl, rfl, hcool⟩

theorem aniseFrameJobs_at_tick {p : Program} {o : Fin 24} {i j v : Nat} {s : State} (hrun : s.part.st = .run)
    (hbegun : frameBegun s = true) (hjobs : s.ani.jobsFrame ≠ some s.eng.frame) (hoff : concordOn s = none)
    (hn : s.eng.frame % tickFrames s = 0) (hprog : s.ani.prog = some p) (hready : s.ani.ready = none)
    (hue : s.ani.jobsUe = false) (hreload : s.ani.reload = false) (hout : p.outs[o.val]? = some ⟨1, i, j, v⟩) :
    Ends .aniseFrameJobs s (fun t => t.ani.ticking = true ∧ t.ani.tick = s.eng.frame / tickFrames s ∧
      t.ani.temps = s.ani.newTemps.getD s.ani.temps ∧ t.ani.newTemps = none ∧ t.ani.prog = some p ∧
      t.ani.sent.get o = some (clampF (getN s (Obj.outMin o.val)) (getN s (Obj.outMax o.val)) v)) := by
  refine aniseFrameJobs_ends_in_run hrun hbegun hjobs fun t hani _ => ?_
  have htake : tickTake s = setAni takeResults s := by rw [tickTake_of_no_program hready, reloadProgram_of_intact hreload]
  have hoff' : concordOn (setAni takeResults s) = none := hoff
  have hnums : (beforeLoops s.eng.frame s.clk.cycles (setAni takeResults s)).nums = s.nums := beforeLoops_nums hoff'
  obtain ⟨rules, hrules⟩ := beforeLoops_ani (n := s.eng.frame) (cycles := s.clk.cycles) hoff'
  have hprog' : (beforeLoops s.eng.frame s.clk.cycles (setAni takeResults s)).ani.prog = some p := by
    rw [hrules]
    exact hprog
  have hsent := tickRun_sends_fixed (s.eng.frame / tickFrames s) hprog' hout
  rw [getN_of_nums_eq hnums, getN_of_nums_eq hnums] at hsent
  rw [frameJobs_at_tick hue hn (by rw [htake, hoff']) (by rw [htake]; rfl), htake] at hani
  obtain ⟨w, integ, set, sent, htick⟩ := tickRun_ani (s.eng.frame / tickFrames s) hprog'
  rw [← hani] at hsent htick
  rw [hrules] at htick
  exact ⟨congrArg (·.ticking) htick, congrArg (·.tick) htick, congrArg (·.temps) htick, congrArg (·.newTemps) htick,
    (congrArg (·.prog) htick).trans hprog, hsent⟩

/-- In READY the loop job of the next tick runs at its count. -/
theorem aniseFrameJobs_ends_in_ready {s : State} {P : State → Prop} (hst : s.part.st = .ready)
    (hP : ∀ k u, u = { s with clk := k } → P (readyJobs (now u / 1000000) u)) : Ends .aniseFrameJobs s P := by
  have hexec : ∃ c, execAniseFrameJobs s = .next (readyJobs (now (reachCount c s) / 1000000) (reachCount c s)) := by
    unfold execAniseFrameJobs
    rw [if_neg (by simp [hst]), if_pos hst]
    exact ⟨_, rfl⟩
  obtain ⟨c, hexec⟩ := hexec
  obtain ⟨k, hk⟩ := reachCount_eq_with_clk c s
  exact ⟨_, hexec, hP k _ hk⟩

theorem readyJobs_clk (m : Nat) (s : State) : (readyJobs m s).clk = s.clk :=
  keep_readyJobs (L := [.nums, .ev, .nut, .eng, .ani, .mem, .bar, .cardamom]) m (.of_all rfl) (only_refl _ s)
    .clk (by decide)

theorem readyJobs_part (m : Nat) (s : State) : (readyJobs m s).part = s.part :=
  keep_readyJobs (L := [.nums, .ev, .nut, .eng, .ani, .mem, .bar, .cardamom]) m (.of_all rfl) (only_refl _ s)
    .part (by decide)

theorem readyJobs_starts_tick {p : Program} {s : State} (m : Nat) (hprog : s.ani.prog = some p)
    (hready : s.ani.ready = none) (hue : s.ani.jobsUe = false) : (readyJobs m s).ani.ticking = true ∧
      (readyJobs m s).ani.tick = m ∧ (readyJobs m s).ani.newTemps = none := by
  obtain ⟨q, hq⟩ := reloadProgram_prog hprog
  have hjobs : readyJobs m s = tickRun m (keepJobs m (setAni takeResults (reloadProgram s))) := by
    unfold readyJobs
    rw [if_neg (by simp [hue]), tickTake_of_no_program hready]
  obtain ⟨w, integ, set, sent, htick⟩ :=
    tickRun_ani (s := keepJobs m (setAni takeResults (reloadProgram s))) m hq
  rw [hjobs, htick]
  exact ⟨rfl, rfl, rfl⟩

/-- The program is in force, with every node at 25 °C and no other one waiting. -/
structure InForce (p : Program) (a : Anise) : Prop where
  prog : a.prog = some p
  st : a.st = .inForce
  ready : a.ready = none
  temps : a.temps = List.replicate p.nodes.length room25

theorem tickTake_puts_in_force {p : Program} {s : State} (h : s.ani.ready = some p) : InForce p (tickTake s).ani := by
  rw [tickTake_ani_of_program h]
  exact ⟨rfl, rfl, rfl, rfl⟩

theorem readyJobs_puts_in_force {p : Program} {s : State} (m : Nat) (hready : s.ani.ready = some p) :
    InForce p (readyJobs m s).ani := by
  obtain ⟨hprog, hst, hnone, htemps⟩ := tickTake_puts_in_force hready
  unfold readyJobs
  dsimp only
  split
  · exact ⟨hprog, hst, hnone, htemps⟩
  · obtain ⟨w, integ, set, sent, htick⟩ := tickRun_ani (s := keepJobs m (tickTake s)) m hprog
    rw [htick]
    exact ⟨hprog, hst, hnone, htemps⟩

theorem aniseFrameJobs_ticks_in_ready {p : Program} {s : State} (hst : s.part.st = .ready) (hprog : s.ani.prog = some p)
    (hready : s.ani.ready = none) (hue : s.ani.jobsUe = false) :
    Ends .aniseFrameJobs s (fun t => t.ani.ticking = true ∧ t.ani.tick = now t / 1000000 ∧ t.ani.newTemps = none ∧
      t.part.st = .ready) := by
  refine aniseFrameJobs_ends_in_ready hst fun k u hu => ?_
  have hnow : now (readyJobs (now u / 1000000) u) = now u := congrArg (·.base / two32) (readyJobs_clk _ u)
  subst hu
  obtain ⟨hticking, htick, htemps⟩ :=
    readyJobs_starts_tick (s := { s with clk := k }) (now { s with clk := k } / 1000000) hprog hready hue
  exact ⟨hticking, by rw [htick, hnow], htemps, (congrArg (·.st) (readyJobs_part _ { s with clk := k })).trans hst⟩

theorem aniseFrameJobs_puts_in_force {p : Program} {s : State} (hst : s.part.st = .ready)
    (hready : s.ani.ready = some p) : Ends .aniseFrameJobs s (fun t => InForce p t.ani) :=
  aniseFrameJobs_ends_in_ready hst fun _ _ hu => readyJobs_puts_in_force _ (hu ▸ hready)

/-! ### ANISE_TICK (R220) -/

theorem aniseTick_computes {p : Program} {s : State} (hprog : s.ani.prog = some p) (hticking : s.ani.ticking = true)
    (hnew : s.ani.newTemps = none) (hrun : s.part.st = .run) :
    Ends .aniseTick s (fun t => t.ani.newTemps = some (thermal p s.ani.w s.ani.temps) ∧ t.ani.temps = s.ani.temps ∧
      t.ani.tick = s.ani.tick ∧ t.ani.mpc = s.ani.mpc ∧ t.ani.sent = s.ani.sent) := by
  have hexec : ∃ t next, execAniseTick s = .next t ∧ Only [.ev, .nut, .mem, .bar] (setAni (fun a => { a with
      newTemps := some (thermal p s.ani.w a.temps), newMpc := next }) s) t := by
    unfold execAniseTick
    rw [hprog]
    exact ⟨_, _, if_neg (by simp [hticking, hnew, hrun]), keep_signalCell _ _ (.of_all rfl)
      (only_forEach _ _ (fun _ _ => keep_raiseMain _ _ _ (.of_all rfl)) (only_refl _ _))⟩
  obtain ⟨t, next, hexec, ht⟩ := hexec
  have hani : t.ani = _ := ht .ani (by decide)
  refine ⟨t, hexec, ?_⟩
  dsimp only
  rw [hani]
  exact ⟨rfl, rfl, rfl, rfl, rfl⟩

/-! ### ANT_ADAPT_WINDOW (R229, R231) -/

/-- The window of a frame: the words are formed, and the factors kept as they were. -/
def beginWindow (s : State) : State :=
  setAni (fun a => { a with
    antFrame := some s.eng.frame, gBack := some (s.eng.frame, a.g)
    formed := Vector.ofFn (fun a => some (s.eng.frame, antWord s a.val s.eng.frame)) }) s

/-- The factor of a branch after the window: at once up to its target, downwards by at most ADAPT_FALL. -/
def adaptedFactor (s : State) (b : Fin 12) : Nat :=
  if fLe (s.ani.g.get b) (adaptTarget s b) then adaptTarget s b
  else Fmt.f32.max (adaptTarget s b) (fSub (s.ani.g.get b) (getN s Obj.adaptFall))

theorem adaptBranch_g (b : Fin 12) (s : State) :
    (adaptBranch b s).ani.g = vupd s.ani.g b (fun _ => adaptedFactor s b) := rfl

/-- The turns of the other branches: nothing but Anise's own state differs, and of it neither the first frame, nor the
words formed, nor the factor of branch b. -/
structure WindowKept (b : Fin 12) (s u : State) : Prop where
  eq : u = { s with ani := u.ani }
  firstRun : u.ani.firstRun = s.ani.firstRun
  formed : u.ani.formed = (beginWindow s).ani.formed
  factor : u.ani.g.get b = s.ani.g.get b

theorem WindowKept.beginWindow (b : Fin 12) (s : State) : WindowKept b s (beginWindow s) := ⟨rfl, rfl, rfl, rfl⟩

theorem WindowKept.adaptBranch {b j : Fin 12} {s u : State} (h : WindowKept b s u) (hj : j ≠ b) :
    WindowKept b s (adaptBranch j u) := by
  obtain ⟨heq, hfirst, hformed, hfactor⟩ := h
  refine ⟨?_, hfirst, hformed, ?_⟩
  · rw [heq]
    rfl
  · rw [adaptBranch_g, vupd_get_other _ _ _ _ hj, hfactor]

theorem adaptTarget_with_ani {s : State} {a : Anise} (b : Fin 12) (h : a.firstRun = s.ani.firstRun) :
    adaptTarget { s with ani := a } b = adaptTarget s b := by
  have hlong : onLongEnough { s with ani := a } b = onLongEnough s b := by
    unfold onLongEnough
    rw [h]
    rfl
  unfold adaptTarget
  rw [hlong]
  rfl

theorem WindowKept.adaptedFactor_eq {b : Fin 12} {s u : State} (h : WindowKept b s u) :
    adaptedFactor u b = adaptedFactor s b := by
  obtain ⟨heq, hfirst, -, hfactor⟩ := h
  have htarget : adaptTarget u b = adaptTarget s b := by
    rw [heq]
    exact adaptTarget_with_ani b hfirst
  have hfall : getN u Obj.adaptFall = getN s Obj.adaptFall := by
    rw [heq]
    rfl
  unfold adaptedFactor
  rw [htarget, hfactor, hfall]

theorem adaptBranches_g (b : Fin 12) (s : State) :
    (forAll 12 adaptBranch (beginWindow s)).ani.g.get b = adaptedFactor s b := by
  refine forAll_at b (P := WindowKept b s) (Q := fun u => u.ani.g.get b = adaptedFactor s b)
    (fun j hj u hu => hu.adaptBranch hj) (fun u hu => ?_) (fun j hj u hu => ?_) (.beginWindow b s)
  · rw [adaptBranch_g, vupd_get_same, hu.adaptedFactor_eq]
  · rw [adaptBranch_g, vupd_get_other _ _ _ _ hj, hu]

theorem adaptBranches_formed (a : Fin 8) (s : State) :
    (forAll 12 adaptBranch (beginWindow s)).ani.formed.get a = some (s.eng.frame, antWord s a.val s.eng.frame) :=
  forAll_keeps (f := adaptBranch) (P := fun u => u.ani.formed.get a = some (s.eng.frame, antWord s a.val s.eng.frame))
    (fun _ _ hu => hu) (Vector.getElem_ofFn a.isLt)

theorem adaptBranches_br (s : State) : (forAll 12 adaptBranch (beginWindow s)).br = s.br :=
  forAll_keeps (f := adaptBranch) (P := fun u => u.br = s.br) (fun _ _ hu => hu) rfl

theorem antWord_of_no_session {s : State} {a n : Nat} (h : antSessions s a = []) : antWord s a n = noForecastWord n := by
  unfold antWord
  rw [h]

theorem antAdaptWindow_forms_and_adapts {a : Fin 8} {b : Fin 12} {s : State} (hrun : s.part.st = .run)
    (hp0 : s.eng.p0Done = true) (hskipped : s.eng.cur.skipped = false) (hbegun : frameBegun s = true)
    (honce : s.ani.antFrame ≠ some s.eng.frame) :
    Ends .antAdaptWindow s (fun t => t.ani.formed.get a = some (s.eng.frame, antWord s a.val s.eng.frame) ∧
      (antSessions s a.val = [] → t.ani.formed.get a = some (s.eng.frame, noForecastWord s.eng.frame)) ∧
      t.ani.g.get b = adaptedFactor s b ∧ t.br = s.br) := by
  have hexec : execAntAdaptWindow s = .next (signalCell 193 1 (forAll 12 adaptBranch (beginWindow s))) :=
    if_neg (by simp [hrun, hp0, hskipped, hbegun, honce])
  have hsignal := keep_signalCell (L := [.ev, .nut, .mem, .bar]) 193 1 (.of_all rfl)
    (only_refl _ (forAll 12 adaptBranch (beginWindow s)))
  have hani : (signalCell 193 1 (forAll 12 adaptBranch (beginWindow s))).ani = _ := hsignal .ani (by decide)
  have hbr : (signalCell 193 1 (forAll 12 adaptBranch (beginWindow s))).br = _ := hsignal .br (by decide)
  refine ⟨_, hexec, ?_⟩
  dsimp only
  rw [hani, hbr, adaptBranches_formed, adaptBranches_g, adaptBranches_br]
  exact ⟨rfl, fun hnone => by rw [antWord_of_no_session hnone], rfl, rfl⟩

/-! ### ANISE_UE (R217) -/

/-- The program is to be read again, and the event is raised. -/
def reportUe (s : State) : State :=
  raiseMain .aniseUe aniseSrc (openDetail .aniseUe 0) (setAni (fun a => { a with reload := true }) s)

/-- After what the job's results are discarded to, only the reload, the event and the note of degradation follow. -/
theorem aniseUe_ends {job : AniseJob} {s u : State} {P : State → Prop}
    (hexec : execAniseUe job s = noted (.next (reportUe u)))
    (hP : ∀ t, t.ani = { u.ani with reload := true } → t.cool = u.cool → t.br = u.br → P t) :
    Ends (.aniseUe job) s P :=
  ⟨_, hexec, hP _ (noteDegraded_ani _) (noteDegraded_cool _) (noteDegraded_br _)⟩

theorem aniseUe_discards_tick {s : State} (hrun : s.part.st = .run) :
    Ends (.aniseUe .tick) s (fun t => t.ani.ticking = false ∧ t.ani.newTemps = none ∧ t.ani.newMpc = none ∧
      t.ani.temps = s.ani.temps ∧ t.ani.sent = s.ani.sent) := by
  refine aniseUe_ends (congrArg noted (if_neg (by simp [hrun]))) fun t hani _ _ => ?_
  rw [hani]
  exact ⟨rfl, rfl, rfl, rfl, rfl⟩

/-- The factors that an error in the window of frame n leaves. -/
def factorsBack (n : Nat) (a : Anise) : Vector Nat 12 :=
  match a.gBack with
  | some (m, g) => if m = n then g else a.g
  | none => a.g

theorem aniseUe_discards_window {s : State} (hrun : s.part.st = .run) :
    Ends (.aniseUe .window) s (fun t => t.ani.formed = Vector.replicate 8 none ∧
      t.ani.curves = Vector.replicate 12 none ∧ t.ani.words = s.ani.words ∧
      t.ani.g = factorsBack s.eng.frame s.ani ∧ t.br = s.br) := by
  refine aniseUe_ends (congrArg noted (if_neg (by simp [hrun]))) fun t hani _ hbr => ?_
  rw [hani]
  exact ⟨rfl, rfl, rfl, rfl, hbr⟩

theorem factorsBack_of_none {n : Nat} {a : Anise} (h : a.gBack = none) : factorsBack n a = a.g := by
  unfold factorsBack
  rw [h]

theorem factorsBack_of_some {n : Nat} {g : Vector Nat 12} {a : Anise} (h : a.gBack = some (n, g)) :
    factorsBack n a = g := by
  unfold factorsBack
  rw [h]
  exact if_pos rfl

/-- What the frame job found before it ran, with no set point left on its way to Rye. -/
def putBack (k : JobsBack) (a : Anise) : Anise :=
  { a with
    integ := k.integ, set := k.set, rules := k.rules, results := k.results, cstate := k.cstate, cap := k.cap
    judged := k.judged, prevDiverged := k.prevDiverged, ticking := false, sent := Vector.replicate 24 none
    jobsBack := none }

theorem discardJobs_only (k : JobsBack) (s : State) : Only [.acc] (setAni (putBack k) s) (discardJobs k s) :=
  keep_recomputeCaps (.of_all rfl) (only_refl _ _)

theorem aniseUe_puts_jobs_back {k : JobsBack} {s : State} (hrun : s.part.st = .run) (hback : s.ani.jobsBack = some k)
    (hframe : k.at_ = s.eng.frame) :
    Ends (.aniseUe .frame) s (fun t => t.ani.sent = Vector.replicate 24 none ∧ t.ani.integ = k.integ ∧
      t.ani.rules = k.rules ∧ t.ani.cap = k.cap ∧ t.ani.ticking = false ∧ t.ani.formed = s.ani.formed ∧
      t.cool = s.cool) := by
  have hexec : execAniseUe .frame s = noted (.next (reportUe (discardJobs k s))) := by
    refine congrArg noted ((if_neg (by simp [hrun])).trans ?_)
    dsimp only
    rw [hback]
    dsimp only
    rw [if_pos (by simp [hframe])]
    rfl
  refine aniseUe_ends hexec fun t hani hcool _ => ?_
  have hdiscard : (discardJobs k s).ani = _ := discardJobs_only k s .ani (by decide)
  rw [hani, hdiscard]
  exact ⟨rfl, rfl, rfl, rfl, rfl, rfl, hcool.trans (discardJobs_only k s .cool (by decide))⟩

theorem aniseUe_waits_for_jobs {s : State} (hrun : s.part.st = .run) (hback : s.ani.jobsBack = none) :
    Ends (.aniseUe .frame) s (fun t => t.ani.jobsUe = true ∧ t.ani.sent = s.ani.sent ∧
      t.ani.formed = s.ani.formed ∧ t.cool = s.cool) := by
  have hexec : execAniseUe .frame s = noted (.next (reportUe (setAni (fun a => { a with jobsUe := true }) s))) := by
    refine congrArg noted ((if_neg (by simp [hrun])).trans ?_)
    dsimp only
    rw [hback]
    rfl
  refine aniseUe_ends hexec fun t hani hcool _ => ?_
  rw [hani]
  exact ⟨rfl, rfl, rfl, hcool⟩

/-! ### ANISE_PROGRAM_WRITE (R218) -/

theorem getBlob_storeBlob_same (key : Nat) (bs : List Byte) (s : State) : getBlob (storeBlob key bs s) key = bs := by
  unfold storeBlob
  split
  · split
    · split <;> exact getBlob_setBlob_same _ _ _
    · split <;> exact getBlob_setBlob_same _ _ _
    · exact getBlob_setBlob_same _ _ _
  · exact getBlob_setBlob_same _ _ _

theorem storeBlob_only (key : Nat) (bs : List Byte) (s : State) : Only [.blobs, .pow] s (storeBlob key bs s) :=
  keep_storeBlob key bs (.of_all rfl) (only_refl _ s)

theorem programEffect_of_refused {bytes : List Byte} (c : Count) (s : State) (hbytes : bytes ≠ [])
    (hcheck : checkProgram (parseProgram bytes) ≠ 0) : programEffect bytes c s =
      setN (setAni (fun a => { a with st := .refused }) s) Obj.aniseError (checkProgram (parseProgram bytes)) := by
  unfold programEffect
  dsimp only
  rw [if_neg hbytes, if_neg hbytes, if_pos hcheck]

theorem programEffect_of_accepted {bytes : List Byte} (c : Count) (s : State) (hbytes : bytes ≠ [])
    (hcheck : checkProgram (parseProgram bytes) = 0) : programEffect bytes c s =
      setN (setAni (fun a => { a with ready := some (parseProgram bytes), st := .checking })
        (storeBlob Blob.aniseProgram bytes s)) Obj.aniseError 0 := by
  unfold programEffect
  dsimp only
  rw [if_neg hbytes, if_neg hbytes, if_neg (not_not_intro hcheck)]

theorem aniseProgramWrite_removes {au : Auth} {s : State} (hup : s.oda.serving = true)
    (hpre : precheck s au Blob.aniseProgram 0 (.bytes []) = 0) :
    Ends (.aniseProgramWrite au []) s (fun t => t.ani.st = .none ∧ t.ani.prog = none ∧ t.ani.ready = none ∧
      getN t Obj.aniseError = 0 ∧ t.cool = s.cool) := by
  refine write_ends_of_only (eff := programEffect []) (home := noHome) hup hpre rfl fun c u hu => ?_
  exact ⟨rfl, rfl, rfl, getN_setN_same _ _ _,
    (storeBlob_only Blob.aniseProgram [] u .cool (by decide)).trans (hu .cool (by decide))⟩

theorem aniseProgramWrite_refuses {au : Auth} {bytes : List Byte} {s : State} (hup : s.oda.serving = true)
    (hpre : precheck s au Blob.aniseProgram 0 (.bytes bytes) = 0) (hbytes : bytes ≠ [])
    (hcheck : checkProgram (parseProgram bytes) ≠ 0) :
    Ends (.aniseProgramWrite au bytes) s (fun t => t.ani.st = .refused ∧ t.ani.prog = s.ani.prog ∧
      t.ani.ready = s.ani.ready ∧ getN t Obj.aniseError = checkProgram (parseProgram bytes) ∧ t.blobs = s.blobs) := by
  refine write_ends_of_only (eff := programEffect bytes) (home := noHome) hup hpre rfl fun c u hu => ?_
  have hani : u.ani = s.ani := hu .ani (by decide)
  rw [programEffect_of_refused c u hbytes hcheck]
  exact ⟨rfl, congrArg (·.prog) hani, congrArg (·.ready) hani, getN_setN_same _ _ _, hu .blobs (by decide)⟩

theorem aniseProgramWrite_accepts {au : Auth} {bytes : List Byte} {s : State} (hup : s.oda.serving = true)
    (hpre : precheck s au Blob.aniseProgram 0 (.bytes bytes) = 0) (hbytes : bytes ≠ [])
    (hcheck : checkProgram (parseProgram bytes) = 0) :
    Ends (.aniseProgramWrite au bytes) s (fun t => t.ani.st = .checking ∧ t.ani.prog = s.ani.prog ∧
      t.ani.ready = some (parseProgram bytes) ∧ getN t Obj.aniseError = 0 ∧ getBlob t Blob.aniseProgram = bytes) := by
  refine write_ends_of_only (eff := programEffect bytes) (home := noHome) hup hpre rfl fun c u hu => ?_
  have hani : (storeBlob Blob.aniseProgram bytes u).ani = s.ani :=
    (storeBlob_only Blob.aniseProgram bytes u .ani (by decide)).trans (hu .ani (by decide))
  rw [programEffect_of_accepted c u hbytes hcheck]
  exact ⟨rfl, congrArg (·.prog) hani, rfl, getN_setN_same _ _ _, getBlob_storeBlob_same _ _ u⟩

/-- Settles O25: the frame job, the loop job in READY, the tick, the window, the three errors and the three outcomes of a
program write, each by its lemma. -/
theorem aniseJobsAndTicks : Obligations.AniseJobsAndTicks := by
  unfold Obligations.AniseJobsAndTicks
  exact ⟨fun _ => aniseFrameJobs_between_ticks, fun _ _ _ _ _ _ => aniseFrameJobs_at_tick,
    fun _ _ => aniseFrameJobs_ticks_in_ready,
    fun _ _ hst hready => ends_mono (aniseFrameJobs_puts_in_force hst hready)
      fun _ ⟨hprog, hinForce, hnone, htemps⟩ => ⟨hprog, hinForce, hnone, htemps⟩,
    fun _ _ => aniseTick_computes,
    fun _ _ _ => antAdaptWindow_forms_and_adapts, fun _ => aniseUe_discards_tick,
    fun _ hrun => ends_mono (aniseUe_discards_window hrun) fun _ ⟨hformed, hcurves, hwords, hg, hbr⟩ =>
      ⟨hformed, hcurves, hwords, fun hnone => hg.trans (factorsBack_of_none hnone), hbr⟩,
    fun _ _ hrun hback => ends_mono (aniseUe_discards_window hrun) fun _ ⟨hformed, _, _, hg, hbr⟩ =>
      ⟨hformed, hg.trans (factorsBack_of_some hback), hbr⟩,
    fun _ _ => aniseUe_puts_jobs_back, fun _ => aniseUe_waits_for_jobs, fun _ => aniseFrameJobs_drops_jobs,
    fun _ _ => aniseProgramWrite_removes, fun _ _ _ => aniseProgramWrite_refuses,
    fun _ _ _ => aniseProgramWrite_accepts⟩

end Sys2Proof.Laws

namespace Sys2Proof.Laws

open Sys2Proof.Machine

/-! ## A trigger in the cycle of a list's END gives the branch back as it was before the END (R289)

An emergency trigger of the same Rye cycle comes before the END of a down list, so `undoEnd` replaces the whole record of
the branch by the one kept at the END. Whatever else the cycle has written there is lost: a measurement taken after the
END, or the very change of state that the trigger follows. -/

/-- What a command ends in holds of the state after it. -/
theorem ends_stateAfter {c : Instr} {s : State} {P : State → Prop} (h : Ends c s P) : P (stateAfter c s) := by
  obtain ⟨t, ht, hP⟩ := h
  rwa [stateAfter, ht]

/-! ### A curve trip of B0 beside the END of a down list (R257, R260, R289) -/

/-- B0 and the branch of A1 are ON. B0 carries 900 A, the last point of its curve, with its trip fraction just below 1;
the down list of A1 has its END in this cycle, and the next microsecond's update of the fractions is due in it. -/
def downListEnds : State := { State.reset with
  clk := { Clock.init with running := true, cycles := 100 }
  pow := { Power.init with fracAt := 75 }
  part := { Part.init with st := .standby }
  br := vupd (vupd State.reset.br 0 (fun x => { x with st := .on, gate := .enhance, cur := 900, frac := 19999 / 20000 }))
    2 (fun x => { x with st := .on, gate := .enhance, demand := true, seated := true })
  sq := vupd State.reset.sq 1 (fun x => { x with st := .down, kind := .down, stepAt := 100 }) }

/-- The list has ended: A1 is in OFF_WAIT and its branch OFF, in the cycle in which it was DOWN. -/
def downListEnded : State := stateAfter (.stepEnd 1) downListEnds

/-- B0 keeps its current; the branch of A1 reads 1,000 codes of 16 µV over 500 µΩ. -/
def currentOnA1 : List (List Int) := [[], [], [1000]]

/-- Refutes O28: TRIP_FRACTION_UPDATE does not set the current of every branch. In the cycle in which the down list of A1
ends, the update takes 32 A on its branch, but the curve trip of B0 in the same update triggers A1's emergency list, and
the branch comes back with the 0 A of before. -/
theorem not_branchTripsAndSensors : ¬ Obligations.BranchTripsAndSensors := by
  unfold Obligations.BranchTripsAndSensors
  intro h
  obtain ⟨-, -, -, hupdate, -⟩ := h
  obtain ⟨-, hset⟩ := ends_stateAfter (hupdate currentOnA1 2 downListEnded (by decide +kernel))
  have hread : meanAmps downListEnded 2 (currentOnA1.getD (2 : Fin 12).val []) = 32 := by decide +kernel
  have hcur : ((stateAfter (.tripFractionUpdate currentOnA1) downListEnded).br.get 2).cur = 0 := by decide +kernel
  exact absurd (hcur.symm.trans (hset.trans hread)) (by decide)

/-! ### A branch in INRUSH whose sequencer ended its down list in this cycle

The END of a down list opens the branch, and its sequencer demands it again only after T_OFF_MIN_MS: no run is known to build
this state. But the statements take every state, and ask nothing of the sequencer of the branch. -/

/-- What the END kept: the branch ON, every rail and output low. -/
def keptAtEnd : EndSnap :=
  ⟨Vector.replicate 16 Rail.init, Vector.replicate 8 false, { Branch.init with st := .on, gate := .enhance }⟩

/-- The branch of A1 is in INRUSH with t_GATE at its end, and A1 entered OFF_WAIT from DOWN in this very cycle. -/
def inrushAtListEnd : State := { State.reset with
  clk := { Clock.init with running := true, cycles := 100 }
  br := vupd State.reset.br 2 (fun x => { x with st := .inrush, inrushDone := true, gateDue := some 100, en := true })
  sq := vupd State.reset.sq 1 (fun x => { x with st := .offWait, was := .down, wasAt := 100, endSnap := some keptAtEnd }) }

/-- Refutes O27: T_GATE_EXPIRY does not lead to FAULT_FET from every state. Leaving INRUSH is a trigger of the sequencer,
and where that ended its down list in the same cycle, the branch comes back as the END found it: ON. -/
theorem not_branchInrushToOn : ¬ Obligations.BranchInrushToOn := by
  unfold Obligations.BranchInrushToOn
  intro h
  obtain ⟨-, -, -, hexpiry, -⟩ := h
  obtain ⟨hfault, -⟩ := ends_stateAfter
    (hexpiry 2 100 inrushAtListEnd (by decide +kernel) (by decide +kernel) (by decide +kernel))
  have hon : ((stateAfter (.tGateExpiry 2) inrushAtListEnd).br.get 2).st = .on := by decide +kernel
  exact absurd (hon.symm.trans hfault) (by decide)

/-- Refutes O29: EN_LOW does not open every branch in INRUSH or ON. The opening is a trigger of the sequencer, and where
that ended its down list in the same cycle, the branch comes back as the END found it: ON. -/
theorem not_branchHealthAndControl : ¬ Obligations.BranchHealthAndControl := by
  unfold Obligations.BranchHealthAndControl
  intro h
  obtain ⟨-, -, -, hlow, -⟩ := h
  obtain ⟨hoff, -⟩ := ends_stateAfter
    (hlow 2 75 inrushAtListEnd (by decide +kernel) (by decide +kernel) (by decide +kernel))
  have hon : ((stateAfter (.enLow 2 75) inrushAtListEnd).br.get 2).st = .on := by decide +kernel
  exact absurd (hon.symm.trans hoff) (by decide)

end Sys2Proof.Laws

namespace Sys2Proof.Laws

open Sys2Proof.Machine

/-! ## A level setting written in the cycle before a WAIT_LEVEL (R284, R299)

A level write takes effect on the next Rye cycle. Where it comes in the cycle in which the step before a WAIT_LEVEL ends, the
threshold that the wait's first cycle takes is the new one, while the state before that step still shows the old one. -/

/-- The up list of A1 at its first step, an ENABLE of rail 0 of 1 V; a rising WAIT_LEVEL on the same rail follows. -/
def enableThenWaitLevel : State :=
  setN { State.reset with
    clk := { Clock.init with running := true, cycles := 100 }
    sq := vupd State.reset.sq 1 (fun x => { x with st := .up, kind := .up, list := [0x10000000, 0x50800000], stepAt := 100 }) }
    (Obj.railNominalV 16) 0x3F800000

/-- In the cycle of the ENABLE, UV_WARN_R of the rail is written from 0.95 to 0.97. -/
def warnRaisedBeforeWait : State := levelEffect (Obj.uvWarnR 16).key 0x3F7851EC (stateAfter (.stepEnable 1) enableThenWaitLevel)

/-- Refutes O30: a WAIT_LEVEL does not end at once wherever the state before it shows its condition. At 0.96 V the rail is
above the UV_WARN of the cycle before, but the step acts a cycle later, when UV_WARN is 0.97 V, and waits. -/
theorem not_sequencerAdmissionAndSteps : ¬ Obligations.SequencerAdmissionAndSteps := by
  unfold Obligations.SequencerAdmissionAndSteps
  intro h
  obtain ⟨-, -, -, -, -, -, -, hlevel, -⟩ := h
  obtain ⟨hpassed, -⟩ := ends_stateAfter (hlevel 1 0x50800000 (96 / 100) warnRaisedBeforeWait
    (by decide +kernel) (by decide) (by decide) (by decide +kernel) (by decide +kernel))
  have hwaits : ((stateAfter (.stepWaitLevel 1 (96 / 100)) warnRaisedBeforeWait).sq.get 1).step =
      (warnRaisedBeforeWait.sq.get 1).step := by decide +kernel
  exact absurd (hwaits.symm.trans hpassed) (Nat.ne_of_lt (Nat.lt_succ_self _))

end Sys2Proof.Laws

namespace Sys2Proof.Laws

open Sys2Proof.Machine

/-! ## Waits, the PG window, levels and THERMTRIP of the rail sequencers (R280 to R296, R308)

The rules of the operations come first: what each leaves of its sequencer, of the others, of the counts and of the accelerator's
thermal hold. The commands are assembled from them. -/

theorem ends_of_next {c : Instr} {s t : State} {P : State → Prop} (h : exec c s = .next t) (hP : P t) : Ends c s P :=
  ⟨t, h, hP⟩

/-! ### The clock -/

/-- A deadline is reached, and the clock does not go back. -/
theorem tickTo_cycles (due : Nat) (s : State) :
    due ≤ (tickTo due s).clk.cycles ∧ s.clk.cycles ≤ (tickTo due s).clk.cycles := by
  unfold tickTo
  split
  case isTrue hrc =>
    have hrun (n : Nat) : (run n s).clk.cycles = s.clk.cycles + n * 762 := by simp [run, Clock.run, hrc]
    have := hrun ((due - s.clk.cycles + 761) / 762)
    omega
  case isFalse hrc =>
    have hrun (n : Nat) : (run n s).clk.cycles = s.clk.cycles + n := by simp [run, Clock.run, hrc]
    have := hrun (due - s.clk.cycles)
    omega

@[simp] theorem getN_tickTo (due : Nat) (s : State) (o : Obj) : getN (tickTo due s) o = getN s o :=
  getN_of_nums_eq (tickTo_nums due s) o

/-! ### Events and notes leave the sequencers -/

@[simp] theorem raiseSeq_sq (e : Ev) (q : Fin 9) (s : State) : (raiseSeq e q s).sq = s.sq := rfl
@[simp] theorem raiseRail_sq (e : Ev) (q : Fin 9) (r : Fin 16) (s : State) : (raiseRail e q r s).sq = s.sq := rfl

@[simp] theorem noteDegraded_sq (s : State) : (noteDegraded s).sq = s.sq :=
  keep_noteDegraded (L := [.part, .ev, .nut]) (.of_all rfl) (only_refl _ s) .sq (by decide)

theorem noteDegraded_acc (s : State) : (noteDegraded s).acc = s.acc :=
  keep_noteDegraded (L := [.part, .ev, .nut]) (.of_all rfl) (only_refl _ s) .acc (by decide)

theorem getN_inc32_same (s : State) (o : Obj) : getN (inc32 s o) o = min (getN s o + 1) 0xFFFFFFFF :=
  getN_setN_same _ _ _

/-! ### One sequencer, one rail -/

theorem updRail_get_same (q : Fin 9) (r : Fin 16) (f : Rail → Rail) (s : State) :
    (updRail q r f s).sq.get q = { s.sq.get q with rails := vupd (s.sq.get q).rails r f } := updSeq_get_same _ _ _

theorem updRail_get_other {q x : Fin 9} (r : Fin 16) (f : Rail → Rail) (s : State) (h : x ≠ q) :
    (updRail q r f s).sq.get x = s.sq.get x := updSeq_get_other _ _ _ _ h.symm

/-- A sequencer that has entered a state in the given cycle. -/
def entered (st : SeqState) (cy : Nat) (x : Seq) : Seq :=
  { x with was := if x.wasAt = cy then x.was else x.st, wasAt := cy, st := st }

theorem setSeq_only (q : Fin 9) (st : SeqState) (s : State) :
    Only [.acc] (updSeq q (entered st s.clk.cycles) s) (setSeq q st s) :=
  keep_recomputeCaps (.of_all rfl) (only_refl _ _)

theorem setSeq_get_same (q : Fin 9) (st : SeqState) (s : State) :
    (setSeq q st s).sq.get q = entered st s.clk.cycles (s.sq.get q) := by
  have hsq : (setSeq q st s).sq = _ := setSeq_only q st s .sq (by decide)
  rw [hsq, updSeq_get_same]

theorem setSeq_get_other {q x : Fin 9} (st : SeqState) (s : State) (h : x ≠ q) : (setSeq q st s).sq.get x = s.sq.get x := by
  have hsq : (setSeq q st s).sq = _ := setSeq_only q st s .sq (by decide)
  rw [hsq, updSeq_get_other _ _ _ _ h.symm]

@[simp] theorem setSeq_clk (q : Fin 9) (st : SeqState) (s : State) : (setSeq q st s).clk = s.clk :=
  setSeq_only q st s .clk (by decide)

@[simp] theorem setSeq_nums (q : Fin 9) (st : SeqState) (s : State) : (setSeq q st s).nums = s.nums :=
  setSeq_only q st s .nums (by decide)

theorem accelOfSeq_seqOf (a : Fin 8) : accelOfSeq (seqOf a) = some a := dif_pos a.isLt

/-! ### What a counted fault leaves (R338) -/

/-- The thermal hold of an accelerator and the cycle of its trip. -/
def tripOf (x : Accel) : Bool × Nat := (x.thermalHold, x.tripAt)

theorem tripOf_updAcc (a b : Fin 8) {f : Accel → Accel} (hf : ∀ x, tripOf (f x) = tripOf x) (s : State) :
    tripOf ((updAcc a f s).acc.get b) = tripOf (s.acc.get b) := by
  by_cases hab : a = b
  · rw [hab, updAcc_get_same, hf]
  · rw [updAcc_get_other _ _ _ _ hab]

theorem tripOf_recomputeCap (a b : Fin 8) (s : State) : tripOf ((recomputeCap a s).acc.get b) = tripOf (s.acc.get b) := by
  refine tripOf_updAcc a b ?_ s
  exact fun _ => rfl

theorem tripOf_recomputeCaps (b : Fin 8) (s : State) : tripOf ((recomputeCaps s).acc.get b) = tripOf (s.acc.get b) := by
  unfold recomputeCaps
  split
  · exact forAll_keeps (P := fun u => tripOf (u.acc.get b) = tripOf (s.acc.get b))
      (fun a u hu => (tripOf_recomputeCap a b u).trans hu) rfl
  · rfl

theorem tripOf_setSeq (q : Fin 9) (st : SeqState) (b : Fin 8) (s : State) :
    tripOf ((setSeq q st s).acc.get b) = tripOf (s.acc.get b) := tripOf_recomputeCaps b _

theorem storeNum_acc (o : Obj) (v : Nat) (s : State) : (storeNum o v s).acc = s.acc :=
  keep_storeNum (L := [.nums, .pow]) o v (.of_all rfl) (only_refl _ s) .acc (by decide)

theorem tripOf_countFault (a b : Fin 8) (s : State) : tripOf ((countFault a s).acc.get b) = tripOf (s.acc.get b) := by
  unfold countFault
  extract_lets _ _ _ fs s1
  have hfaults : tripOf (s1.acc.get b) = tripOf (s.acc.get b) := tripOf_updAcc a b (by exact fun _ => rfl) s
  split
  · rfl
  · split
    · refine Eq.trans (congrArg (fun v => tripOf (v.get b)) (storeNum_acc _ _ _)) (Eq.trans ?_ hfaults)
      refine tripOf_updAcc a b ?_ s1
      exact fun _ => rfl
    · exact hfaults

theorem getN_storeNum_other {o p : Obj} (v : Nat) (s : State) (h : o.key ≠ p.key) : getN (storeNum o v s) p = getN s p := by
  have hcommit (rcb : Bool) : getN (setN (commitNum o.key v o.dflt rcb s) o v) p = getN s p := by
    rw [getN_setN_other _ _ _ _ h]
    cases rcb <;> rfl
  unfold storeNum
  split
  · split
    · split
      · exact getN_setN_other _ _ _ _ h
      · exact hcommit _
    · split
      · exact getN_setN_other _ _ _ _ h
      · exact hcommit _
    · exact getN_setN_other _ _ _ _ h
  · exact getN_setN_other _ _ _ _ h

/-- Of the numbers a counted fault writes QUARANTINE alone. -/
theorem getN_countFault (a : Fin 8) (s : State) {o : Obj} (h : (Obj.quarantine a.val).key ≠ o.key) :
    getN (countFault a s) o = getN s o := by
  unfold countFault
  extract_lets
  split
  · rfl
  · split
    · exact getN_storeNum_other _ _ h
    · rfl

theorem getN_countCode (q : Fin 9) (code : Nat) (s : State) {o : Obj}
    (h : ∀ a : Fin 8, (Obj.quarantine a.val).key ≠ o.key) :
    getN (countCode q code s) o = getN s o := by
  unfold countCode
  split
  · split
    · exact getN_countFault _ _ (h _)
    · rfl
  · rfl

theorem tripOf_countCode (q : Fin 9) (code : Nat) (b : Fin 8) (s : State) :
    tripOf ((countCode q code s).acc.get b) = tripOf (s.acc.get b) := by
  unfold countCode
  split
  · split
    · exact tripOf_countFault _ _ _
    · rfl
  · rfl

theorem quarantine_key_ne_seqEmergencies (a : Fin 8) (q : Fin 9) :
    (Obj.quarantine a.val).key ≠ (Obj.seqEmergencies q.val).key := by
  show 0x112601 + a.val ≠ 0x220502 + 0x2000 * q.val
  omega

/-! ### An emergency list starts (R289 to R291) -/

theorem note_of_earlier {x : Seq} {cy : Nat} (code rail : Nat) (h : x.causeAt < cy) :
    Seq.note code rail cy x = { x with cause := code, causeRail := rail, causeAt := cy } :=
  if_neg fun hsame => absurd hsame.1 (Nat.ne_of_lt h)

/-- The state of the trigger after the sequencer has taken it: what follows are counts, the event and the fault history. -/
def emergencyEntered (q : Fin 9) (code rail : Nat) (s : State) : State :=
  startList q .emergency s.clk.cycles
    (updSeq q (fun x => { x with pgood := false }) (noteSeq q code rail (setSeq q .emergency s)))

/-- The list is counted in SEQ_EMERGENCIES, reported and a trigger of the rings. -/
def emergencyNoted (q : Fin 9) (s : State) : State :=
  ringTrigger 3 (raiseSeq .emergencyStarted q (inc32 s (Obj.seqEmergencies q.val)))

theorem startEmergency_eq (q : Fin 9) (code rail : Nat) (s : State) :
    startEmergency q code rail s = countCode q code (emergencyNoted q (emergencyEntered q code rail s)) := rfl

theorem startEmergency_only (q : Fin 9) (code rail : Nat) (s : State) :
    Only [.nums, .pow, .acc, .ev, .nut, .eng] (emergencyEntered q code rail s) (startEmergency q code rail s) :=
  keep_countCode _ _ (.of_all rfl) (keep_ringTrigger _ (.of_all rfl) (keep_raiseSeq _ _ (.of_all rfl)
    (keep_inc32 _ (.of_all rfl) (only_refl _ _))))

theorem getN_emergencyNoted (q : Fin 9) (s : State) :
    getN (emergencyNoted q s) (Obj.seqEmergencies q.val) = min (getN s (Obj.seqEmergencies q.val) + 1) 0xFFFFFFFF :=
  getN_inc32_same s _

theorem getN_emergencyEntered (q : Fin 9) (code rail : Nat) (s : State) (o : Obj) :
    getN (emergencyEntered q code rail s) o = getN s o := getN_of_nums_eq (setSeq_nums q .emergency s) o

theorem emergencyNoted_acc (q : Fin 9) (s : State) : (emergencyNoted q s).acc = s.acc := rfl

theorem emergencyEntered_acc (q : Fin 9) (code rail : Nat) (s : State) :
    (emergencyEntered q code rail s).acc = (setSeq q .emergency s).acc := by
  unfold emergencyEntered startList noteSeq
  rw [updSeq_acc, updSeq_acc, updSeq_acc]

theorem tripOf_startEmergency (q : Fin 9) (code rail : Nat) (b : Fin 8) (s : State) :
    tripOf ((startEmergency q code rail s).acc.get b) = tripOf (s.acc.get b) := by
  rw [startEmergency_eq, tripOf_countCode, emergencyNoted_acc, emergencyEntered_acc, tripOf_setSeq]

theorem counted_startEmergency (q : Fin 9) (code rail : Nat) (s : State) :
    getN (startEmergency q code rail s) (Obj.seqEmergencies q.val) =
      min (getN s (Obj.seqEmergencies q.val) + 1) 0xFFFFFFFF := by
  rw [startEmergency_eq, getN_countCode _ _ _ fun a => quarantine_key_ne_seqEmergencies a q, getN_emergencyNoted,
    getN_emergencyEntered]

/-- A sequencer at the first step of its emergency list `ws`, which the trigger of the given cause has started. -/
def emergencyBegun (code rail cy : Nat) (ws : List Nat) (x : Seq) : Seq :=
  { entered .emergency cy x with
    cause := code, causeRail := rail, causeAt := cy, pgood := false, kind := .emergency, list := ws, step := 0, stepAt := cy
    wait := none }

theorem startList_get_same (q : Fin 9) (k : SeqList) (at_ : Nat) (s : State) :
    ∃ ws, (startList q k at_ s).sq.get q =
      { s.sq.get q with kind := k, list := ws, step := 0, stepAt := at_, wait := none } :=
  ⟨_, updSeq_get_same _ _ _⟩

theorem emergencyEntered_get_same {q : Fin 9} (code rail : Nat) {s : State} (h : (s.sq.get q).causeAt < s.clk.cycles) :
    ∃ ws, (emergencyEntered q code rail s).sq.get q = emergencyBegun code rail s.clk.cycles ws (s.sq.get q) := by
  have hnoted : (noteSeq q code rail (setSeq q .emergency s)).sq.get q =
      { entered .emergency s.clk.cycles (s.sq.get q) with cause := code, causeRail := rail, causeAt := s.clk.cycles } := by
    rw [noteSeq, updSeq_get_same, setSeq_get_same, setSeq_clk]
    exact note_of_earlier _ _ h
  obtain ⟨ws, hlist⟩ := startList_get_same q .emergency s.clk.cycles
    (updSeq q (fun x => { x with pgood := false }) (noteSeq q code rail (setSeq q .emergency s)))
  rw [updSeq_get_same, hnoted] at hlist
  exact ⟨ws, hlist⟩

theorem emergencyEntered_get_other {q x : Fin 9} (code rail : Nat) (s : State) (h : x ≠ q) :
    (emergencyEntered q code rail s).sq.get x = s.sq.get x := by
  unfold emergencyEntered startList noteSeq
  rw [updSeq_get_other _ _ _ _ h.symm, updSeq_get_other _ _ _ _ h.symm, updSeq_get_other _ _ _ _ h.symm,
    setSeq_get_other _ _ h]

/-- The emergency list has started on a trigger of the given cause. -/
structure EmergencyStarted (q : Fin 9) (code rail : Nat) (s t : State) : Prop where
  st : (t.sq.get q).st = .emergency
  cause : (t.sq.get q).cause = code
  causeRail : (t.sq.get q).causeRail = rail
  kind : (t.sq.get q).kind = .emergency
  pgood : (t.sq.get q).pgood = false
  rails : (t.sq.get q).rails = (s.sq.get q).rails
  thermtripN : (t.sq.get q).thermtripN = (s.sq.get q).thermtripN
  others : ∀ x : Fin 9, x ≠ q → t.sq.get x = s.sq.get x
  counted : getN t (Obj.seqEmergencies q.val) = min (getN s (Obj.seqEmergencies q.val) + 1) 0xFFFFFFFF
  trips : ∀ b : Fin 8, tripOf (t.acc.get b) = tripOf (s.acc.get b)
  clk : t.clk = s.clk

theorem startEmergency_starts (q : Fin 9) (code rail : Nat) {s : State} (h : (s.sq.get q).causeAt < s.clk.cycles) :
    EmergencyStarted q code rail s (startEmergency q code rail s) := by
  have hsq : (startEmergency q code rail s).sq = (emergencyEntered q code rail s).sq :=
    startEmergency_only q code rail s .sq (by decide)
  have hclk : (startEmergency q code rail s).clk = (emergencyEntered q code rail s).clk :=
    startEmergency_only q code rail s .clk (by decide)
  obtain ⟨ws, hget⟩ := emergencyEntered_get_same code rail h
  rw [← hsq] at hget
  exact {
    st := by rw [hget]; rfl
    cause := by rw [hget]; rfl
    causeRail := by rw [hget]; rfl
    kind := by rw [hget]; rfl
    pgood := by rw [hget]; rfl
    rails := by rw [hget]; rfl
    thermtripN := by rw [hget]; rfl
    others := fun x hx => by rw [hsq, emergencyEntered_get_other _ _ _ hx]
    counted := counted_startEmergency q code rail s
    trips := fun b => tripOf_startEmergency q code rail b s
    clk := hclk.trans (setSeq_clk q .emergency s) }

theorem trigger_starts {a : Fin 8} (code rail : Nat) {s : State} (hactive : (s.sq.get (seqOf a)).st.active = true)
    (h : (s.sq.get (seqOf a)).causeAt < s.clk.cycles) :
    EmergencyStarted (seqOf a) code rail s (trigger a code rail s) := by
  unfold trigger
  rw [if_pos hactive]
  exact startEmergency_starts _ _ _ h

/-! ### Steps and the ends of waits (R284, R295) -/

/-- The step has ended: the next one follows a cycle later, and no other sequencer has changed. -/
structure StepPassed (q : Fin 9) (s t : State) : Prop where
  step : (t.sq.get q).step = (s.sq.get q).step + 1
  stepAt : (t.sq.get q).stepAt = t.clk.cycles + 1
  wait : (t.sq.get q).wait = none
  others : ∀ x : Fin 9, x ≠ q → t.sq.get x = s.sq.get x

theorem stepDone_get_same (q : Fin 9) (s : State) :
    (stepDone q s).sq.get q = { s.sq.get q with step := (s.sq.get q).step + 1, stepAt := s.clk.cycles + 1, wait := none } :=
  updSeq_get_same _ _ _

theorem stepDone_passes {q : Fin 9} {s u : State} (hstep : (u.sq.get q).step = (s.sq.get q).step)
    (hothers : ∀ x : Fin 9, x ≠ q → u.sq.get x = s.sq.get x) : StepPassed q s (stepDone q u) where
  step := by rw [stepDone_get_same, hstep]
  stepAt := by rw [stepDone_get_same]; rfl
  wait := by rw [stepDone_get_same]
  others x hx := (updSeq_get_other _ _ _ _ hx.symm).trans (hothers x hx)

/-- Of its sequencer the arming of a rail leaves the step, and it leaves the others. -/
theorem armWaited_keeps (q : Fin 9) (r : Fin 16) (s : State) :
    ((armWaited q r s).sq.get q).step = (s.sq.get q).step ∧
      ∀ x : Fin 9, x ≠ q → (armWaited q r s).sq.get x = s.sq.get x := by
  unfold armWaited
  split
  · exact ⟨by rw [updRail_get_same], fun x hx => updRail_get_other _ _ _ hx⟩
  · exact ⟨rfl, fun _ _ => rfl⟩

theorem armWaited_clk (q : Fin 9) (r : Fin 16) (s : State) : (armWaited q r s).clk = s.clk :=
  keep_armWaited (L := [.sq]) q r (.of_all rfl) (only_refl _ s) .clk (by decide)

/-- The condition of a WAIT_PG is met. -/
theorem waitConditionMet_passes {q : Fin 9} {v : Rat} {r d : Nat} {up : Bool} {s : State}
    (hwait : (s.sq.get q).wait = some (.pg r up d)) :
    Ends (.waitConditionMet q v up) s (fun t => StepPassed q s t ∧ t.clk = s.clk) := by
  have hexec : exec (.waitConditionMet q v up) s =
      .next (stepDone q (armWaited q (finRail r) (seePg q (finRail r) up s))) := by
    show execWaitConditionMet q v up s = _
    unfold execWaitConditionMet
    rw [hwait]
    exact if_pos (beq_self_eq_true up)
  obtain ⟨hstep, hothers⟩ := armWaited_keeps q (finRail r) (seePg q (finRail r) up s)
  refine ⟨_, hexec, stepDone_passes (hstep.trans ?_) (fun x hx => (hothers x hx).trans ?_), armWaited_clk _ _ _⟩
  · rw [seePg, updRail_get_same]
  · exact updRail_get_other _ _ _ hx

theorem waitTimeExpiry_passes {q : Fin 9} {d : Nat} {s : State} (hwait : (s.sq.get q).wait = some (.time d)) :
    Ends (.waitTimeExpiry q) s (StepPassed q s) := by
  have hexec : exec (.waitTimeExpiry q) s = .next (stepDone q (tickTo d s)) := by
    show execWaitTimeExpiry q s = _
    unfold execWaitTimeExpiry
    rw [hwait]
  exact ⟨_, hexec, stepDone_passes (by rw [tickTo_sq]) (fun _ _ => by rw [tickTo_sq])⟩

theorem waitTimeout_eq {q : Fin 9} {r d : Nat} {up : Bool} {s : State} (hwait : (s.sq.get q).wait = some (.pg r up d)) :
    exec (.waitTimeout q) s = .next (noteDegraded (timedOut q (finRail r) up (tickTo d s))) := by
  show execWaitTimeout q s = _
  unfold execWaitTimeout
  rw [hwait]
  rfl

theorem seqFault_seqOf (a : Fin 8) (code rail : Nat) (s : State) : seqFault (seqOf a) code rail s = trigger a code rail s := by
  unfold seqFault
  rw [accelOfSeq_seqOf]

theorem EmergencyStarted.noteDegraded {q : Fin 9} {code rail : Nat} {s t : State} (h : EmergencyStarted q code rail s t) :
    EmergencyStarted q code rail s (noteDegraded t) where
  st := by rw [noteDegraded_sq, h.st]
  cause := by rw [noteDegraded_sq, h.cause]
  causeRail := by rw [noteDegraded_sq, h.causeRail]
  kind := by rw [noteDegraded_sq, h.kind]
  pgood := by rw [noteDegraded_sq, h.pgood]
  rails := by rw [noteDegraded_sq, h.rails]
  thermtripN := by rw [noteDegraded_sq, h.thermtripN]
  others x hx := by rw [noteDegraded_sq, h.others x hx]
  counted := by rw [getN_of_nums_eq (noteDegraded_nums t), h.counted]
  trips b := by rw [noteDegraded_acc, h.trips b]
  clk := by rw [noteDegraded_clk, h.clk]

/-- A fault of a running accelerator's sequencer, in a cycle in which no other trigger has acted on it. -/
theorem seqFault_starts {a : Fin 8} (code rail : Nat) {s : State} (hactive : (s.sq.get (seqOf a)).st.active = true)
    (hearlier : (s.sq.get (seqOf a)).causeAt < s.clk.cycles) :
    EmergencyStarted (seqOf a) code rail s (noteDegraded (seqFault (seqOf a) code rail s)) := by
  rw [seqFault_seqOf]
  exact (trigger_starts code rail hactive hearlier).noteDegraded

theorem waitTimeout_starts_emergency {a : Fin 8} {r d : Nat} {up : Bool} {s : State}
    (hwait : (s.sq.get (seqOf a)).wait = some (.pg r up d)) (hkind : (s.sq.get (seqOf a)).kind = .up)
    (hst : (s.sq.get (seqOf a)).st = .up) (hearlier : (s.sq.get (seqOf a)).causeAt < s.clk.cycles) :
    Ends (.waitTimeout (seqOf a)) s (fun t => ∃ u, EmergencyStarted (seqOf a) 4 (r % 16) u t) := by
  have hup : timedOut (seqOf a) (finRail r) up (tickTo d s) =
      seqFault (seqOf a) 4 (r % 16) (raiseRail .upTimeout (seqOf a) (finRail r) (tickTo d s)) := by
    unfold timedOut
    rw [tickTo_sq, hkind]
    rfl
  refine ⟨_, waitTimeout_eq hwait, _, hup ▸ seqFault_starts 4 (r % 16) ?_ ?_⟩
  · rw [raiseRail_sq, tickTo_sq, hst]
    rfl
  · rw [raiseRail_sq, tickTo_sq]
    exact Nat.lt_of_lt_of_le hearlier (tickTo_cycles d s).2

/-! ### What a rail that has not fallen does to its sequencer (R295) -/

/-- A sequencer without its rails and its cause. -/
def listOf (x : Seq) : Seq := { x with rails := Vector.replicate 16 Rail.init, cause := 0, causeRail := 0, causeAt := 0 }

/-- A sequencer keeps its list, its step and its state where all but its rails and its cause are kept. -/
theorem listOf_updSeq (q x : Fin 9) {f : Seq → Seq} (hf : ∀ y, listOf (f y) = listOf y) (s : State) :
    listOf ((updSeq q f s).sq.get x) = listOf (s.sq.get x) := by
  by_cases hqx : q = x
  · rw [hqx, updSeq_get_same, hf]
  · rw [updSeq_get_other _ _ _ _ hqx]

theorem listOf_updRail (q x : Fin 9) (r : Fin 16) (f : Rail → Rail) (s : State) :
    listOf ((updRail q r f s).sq.get x) = listOf (s.sq.get x) := by
  refine listOf_updSeq q x ?_ s
  exact fun _ => rfl

theorem listOf_noteSeq (q x : Fin 9) (code rail : Nat) (s : State) :
    listOf ((noteSeq q code rail s).sq.get x) = listOf (s.sq.get x) := by
  refine listOf_updSeq q x (fun y => ?_) s
  unfold Seq.note
  split <;> rfl

theorem listOf_armOv (x : Fin 9) (b : Fin 12) (st : BrState) (s : State) :
    listOf ((armOv b st s).sq.get x) = listOf (s.sq.get x) := by
  have hrails (q : Fin 9) (on : Bool) : listOf ((forAll 16 (armRail q on) s).sq.get x) = listOf (s.sq.get x) :=
    forAll_keeps (P := fun u => listOf (u.sq.get x) = listOf (s.sq.get x))
      (fun r u hu => (listOf_updRail q x r _ u).trans hu) rfl
  unfold armOv
  split
  · exact hrails _ _
  · split
    · exact hrails _ _
    · rfl

theorem listOf_moveBr (x : Fin 9) (b : Fin 12) (st : BrState) (gate : Gate) (s : State) :
    listOf ((moveBr b st gate s).sq.get x) = listOf (s.sq.get x) := by
  unfold moveBr
  extract_lets old cy pulls
  have hsq (u : State) : (noteBrEntry b st (endInrush b old st u)).sq = u.sq :=
    keep_noteBrEntry (L := [.nums, .eng]) b st (.of_all rfl)
      (keep_endInrush b old st (.of_all rfl) (only_refl _ u)) .sq (by decide)
  rw [hsq]
  exact listOf_armOv x b st _

theorem listOf_dropDemand (x : Fin 9) (a : Fin 8) (s : State) :
    listOf ((dropDemand a s).sq.get x) = listOf (s.sq.get x) := by
  unfold dropDemand
  extract_lets b
  split
  · exact listOf_moveBr x b .off .pd100mA s
  · rfl

theorem listOf_noDischarge (x q : Fin 9) (r : Fin 16) (s : State) :
    listOf ((noDischarge q r s).sq.get x) = listOf (s.sq.get x) := by
  unfold noDischarge
  extract_lets s1
  have hs1 : listOf (s1.sq.get x) = listOf (s.sq.get x) := listOf_updRail q x r _ s
  split
  · exact (listOf_noteSeq q x _ _ s1).trans hs1
  next a _ =>
    extract_lets
    split
    · have hcount (u : State) : (countFault a u).sq = u.sq :=
        keep_countFault (L := [.nums, .pow, .acc, .ev, .nut]) a (.of_all rfl) (only_refl _ u) .sq (by decide)
      rw [hcount]
      exact (listOf_noteSeq q x _ _ _).trans ((listOf_dropDemand x a s1).trans hs1)
    · exact hs1

/-- A wait of a down list that times out passes on, whatever it finds of the rail. -/
theorem waitTimeout_passes_down {q : Fin 9} {r d : Nat} {up : Bool} {s : State}
    (hwait : (s.sq.get q).wait = some (.pg r up d)) (hkind : (s.sq.get q).kind = .down) :
    Ends (.waitTimeout q) s (fun t => (t.sq.get q).step = (s.sq.get q).step + 1 ∧ (t.sq.get q).wait = none ∧
      (t.sq.get q).st = (s.sq.get q).st) := by
  refine ends_of_next (waitTimeout_eq hwait) ?_
  have hlist (u : State) (hu : listOf (u.sq.get q) = listOf (s.sq.get q)) :
      ((stepDone q u).sq.get q).step = (s.sq.get q).step + 1 ∧ ((stepDone q u).sq.get q).wait = none ∧
        ((stepDone q u).sq.get q).st = (s.sq.get q).st := by
    have hstep : (u.sq.get q).step = (s.sq.get q).step := (congrArg Seq.step hu :)
    have hst : (u.sq.get q).st = (s.sq.get q).st := (congrArg Seq.st hu :)
    rw [stepDone_get_same, hstep, hst]
    exact ⟨rfl, rfl, rfl⟩
  have hdown : timedOut q (finRail r) up (tickTo d s) = stepDone q (if up then
      raiseRail .downWaitTimeout q (finRail r) (tickTo d s) else noDischarge q (finRail r) (tickTo d s)) := by
    unfold timedOut
    rw [tickTo_sq, hkind]
  rw [noteDegraded_sq, hdown]
  cases up with
  | true => exact hlist _ (by rw [if_pos rfl, raiseRail_sq, tickTo_sq])
  | false =>
    refine hlist _ ?_
    rw [if_neg Bool.false_ne_true, listOf_noDischarge, tickTo_sq]

/-! ### The PG window (R292) -/

/-- The release of main-die reset that may follow leaves the sequencers. -/
theorem pgClose_sq (q : Fin 9) (s : State) :
    (pgClose q s).sq = (setSeq q .on (updSeq q (fun x => { x with pgood := true }) s)).sq := by
  unfold pgClose
  extract_lets s1
  split
  · exact keep_releaseMain (L := [.nums, .blobs, .clk, .heat, .part, .ev, .nut, .port, .img, .cardamom, .free])
      (.of_all rfl) (keep_mk_heat _ (.of_all rfl) (only_refl _ s1)) .sq (by decide)
  · rfl

theorem pgWindowClose_closes {q : Fin 9} {s : State} (hst : (s.sq.get q).st = .pgWindow)
    (hclean : (s.sq.get q).pgDirty = false) :
    Ends (.pgWindowClose q [] 0) s (fun t => (t.sq.get q).st = .on ∧ (t.sq.get q).pgood = true ∧
      ∀ x : Fin 9, x ≠ q → t.sq.get x = s.sq.get x) := by
  refine ends_of_next (congrArg noted (if_neg (by simp [hst, hclean]))) ?_
  rw [noteDegraded_sq, pgClose_sq, setSeq_get_same, updSeq_get_same]
  refine ⟨rfl, rfl, fun x hx => ?_⟩
  rw [setSeq_get_other _ _ hx, updSeq_get_other _ _ _ _ hx.symm, tickTo_sq]

/-- The window of a sequencer has been set back to the given cycle, and the PG_DEGLITCH counted. -/
structure WindowRestarted (q : Fin 9) (at_ : Nat) (s t : State) : Prop where
  pgFrom : (t.sq.get q).pgFrom = max (s.sq.get q).pgFrom at_
  st : (t.sq.get q).st = (s.sq.get q).st
  pgood : (t.sq.get q).pgood = (s.sq.get q).pgood
  rails : (t.sq.get q).rails = (s.sq.get q).rails
  counted : getN t (Obj.seqPgDeglitches q.val) = min (getN s (Obj.seqPgDeglitches q.val) + 1) 0xFFFFFFFF

theorem pgRestart_restarts (q : Fin 9) (at_ : Nat) (s : State) : WindowRestarted q at_ s (pgRestart q at_ s) := by
  unfold pgRestart
  extract_lets s1
  have hcounted : getN s1 (Obj.seqPgDeglitches q.val) = min (getN s (Obj.seqPgDeglitches q.val) + 1) 0xFFFFFFFF :=
    getN_inc32_same _ _
  constructor
  case counted => exact hcounted
  all_goals
    rw [updSeq_get_same]
    rfl

/-- The state in the last cycle of the PG window. -/
def windowEnd (q : Fin 9) (s : State) : State := tickTo ((s.sq.get q).pgFrom + usCycles (getN s (Obj.pgWindowUs q.val))) s

/-- The same with the window held back by a condition that runs. -/
def windowHeld (q : Fin 9) (s : State) : State := updSeq q (fun y => { y with pgDirty := true }) (windowEnd q s)

theorem windowHeld_get_same (q : Fin 9) (s : State) : (windowHeld q s).sq.get q = { s.sq.get q with pgDirty := true } := by
  rw [windowHeld, updSeq_get_same, windowEnd, tickTo_sq]

theorem pgWindowClose_restarts {q : Fin 9} {trip : Nat} {s : State} (hst : (s.sq.get q).st = .pgWindow)
    (hclean : (s.sq.get q).pgDirty = false) (hlow : trip ≠ 0) (hshort : trip < 25) :
    Ends (.pgWindowClose q [] trip) s (fun t => (t.sq.get q).st = .pgWindow ∧ (t.sq.get q).pgood = (s.sq.get q).pgood ∧
      (t.sq.get q).pgFrom = t.clk.cycles + trip ∧
      getN t (Obj.seqPgDeglitches q.val) = min (getN s (Obj.seqPgDeglitches q.val) + 1) 0xFFFFFFFF) := by
  have hexec : exec (.pgWindowClose q [] trip) s =
      .next (noteDegraded (pgRestart q ((windowEnd q s).clk.cycles + trip) (windowHeld q s))) := by
    refine congrArg noted ((if_neg (by simp [hst, hclean])).trans ((if_neg fun h => hlow h.2).trans (if_pos ?_)))
    exact ⟨Nat.pos_of_ne_zero hlow, hshort⟩
  have hclosed : (s.sq.get q).pgFrom ≤ (windowEnd q s).clk.cycles := Nat.le_trans (Nat.le_add_right _ _) (tickTo_cycles _ s).1
  have hclk (at_ : Nat) : (pgRestart q at_ (windowHeld q s)).clk = (windowEnd q s).clk := rfl
  have hcount : getN (windowHeld q s) (Obj.seqPgDeglitches q.val) = getN s (Obj.seqPgDeglitches q.val) := getN_tickTo _ s _
  obtain ⟨hfrom, hst1, hgood, -, hcounted⟩ := pgRestart_restarts q ((windowEnd q s).clk.cycles + trip) (windowHeld q s)
  refine ends_of_next hexec ?_
  rw [noteDegraded_sq, getN_of_nums_eq (noteDegraded_nums _), noteDegraded_clk, hclk, hst1, hgood, hfrom, hcounted, hcount,
    windowHeld_get_same]
  exact ⟨hst, rfl, Nat.max_eq_right (Nat.le_trans hclosed (Nat.le_add_right _ _)), rfl⟩

theorem pgTimeout_starts_emergency {a : Fin 8} {s : State} (hst : (s.sq.get (seqOf a)).st = .pgWindow)
    (hearlier : (s.sq.get (seqOf a)).causeAt < s.clk.cycles) :
    Ends (.pgTimeout (seqOf a)) s (fun t => ∃ u, u.nums = s.nums ∧ EmergencyStarted (seqOf a) 5 0xFF u t) := by
  refine ⟨_, congrArg noted (if_neg (not_not_intro hst)), _, ?_, seqFault_starts 5 0xFF ?_ ?_⟩
  · exact tickTo_nums _ s
  · rw [raiseSeq_sq, tickTo_sq, hst]
    rfl
  · rw [raiseSeq_sq, tickTo_sq]
    exact Nat.lt_of_lt_of_le hearlier (tickTo_cycles _ s).2

/-! ### Levels (R280 to R282, R289) -/

theorem levelJudged_of_uvArmed {s : State} {q : Fin 9} {r : Fin 16} {l : Level} (hl : l = .uvFault ∨ l = .uvWarn)
    (harmed : ((s.sq.get q).rails.get r).uvArmed = true) (hused : getN s (Obj.railNominalV (railNo q r)) ≠ 0) :
    levelJudged s q r l = true := by
  rcases hl with rfl | rfl <;> simp [levelJudged, Rail.armed, isUv, harmed, hused]

/-- The end of a deglitch: the clock has moved to it, and it no longer runs. -/
def deglitchEnded (q : Fin 9) (r : Fin 16) (l : Level) (began : Nat) (s : State) : State :=
  dropRunning q r l (tickDeglitch q r l began s)

theorem tickDeglitch_sq (q : Fin 9) (r : Fin 16) (l : Level) (began : Nat) (s : State) :
    (tickDeglitch q r l began s).sq = s.sq := tickTo_sq _ s

theorem deglitchEnded_get_same (q : Fin 9) (r : Fin 16) (l : Level) (began : Nat) (s : State) :
    (deglitchEnded q r l began s).sq.get q = { s.sq.get q with
      rails := vupd (s.sq.get q).rails r (fun y => { y with running := y.running.filter (fun p => p.1 != l) }) } := by
  unfold deglitchEnded dropRunning
  rw [updRail_get_same, tickDeglitch_sq]

theorem deglitchEnded_get_other {q x : Fin 9} (r : Fin 16) (l : Level) (began : Nat) (s : State) (h : x ≠ q) :
    (deglitchEnded q r l began s).sq.get x = s.sq.get x := by
  unfold deglitchEnded dropRunning
  rw [updRail_get_other _ _ _ h, tickDeglitch_sq]

theorem deglitchEnded_cycles (q : Fin 9) (r : Fin 16) (l : Level) (began : Nat) (s : State) :
    s.clk.cycles ≤ (deglitchEnded q r l began s).clk.cycles := (tickTo_cycles _ s).2

/-- An under-voltage fault outside DOWN. -/
theorem levelFault_uvFault {q : Fin 9} (r : Fin 16) {s : State} (hst : (s.sq.get q).st ≠ .down) :
    levelFault q r .uvFault s =
      seqFault q 1 r.val (raiseRail .railUvFault q r (updRail q r (fun y => { y with uvFault := true }) s)) := by
  have hdown : inDown s q = false := by simp [inDown, hst]
  unfold levelFault
  rw [hdown]
  rfl

theorem uvFault_starts_emergency {a : Fin 8} {r : Fin 16} {v : Rat} {began : Nat} {s : State}
    (harmed : ((s.sq.get (seqOf a)).rails.get r).uvArmed = true)
    (hused : getN s (Obj.railNominalV (railNo (seqOf a) r)) ≠ 0) (hshows : levelShows s (seqOf a) r .uvFault v = true)
    (hst : (s.sq.get (seqOf a)).st = .on) (hearlier : (s.sq.get (seqOf a)).causeAt < s.clk.cycles) :
    Ends (.levelDeglitchExpiry (seqOf a) r .uvFault v began) s (fun t =>
      ∃ u, ((u.sq.get (seqOf a)).rails.get r).uvFault = true ∧ EmergencyStarted (seqOf a) 1 r.val u t) := by
  have hjudged := levelJudged_of_uvArmed (.inl rfl) harmed hused
  have hended := deglitchEnded_get_same (seqOf a) r .uvFault began s
  have hexec : exec (.levelDeglitchExpiry (seqOf a) r .uvFault v began) s =
      .next (noteDegraded (levelFault (seqOf a) r .uvFault (deglitchEnded (seqOf a) r .uvFault began s))) :=
    congrArg noted (if_neg (by simp [hjudged, hshows]))
  rw [levelFault_uvFault r (by rw [hended]; simp [hst])] at hexec
  refine ⟨_, hexec, _, ?_, seqFault_starts 1 r.val ?_ ?_⟩
  · rw [raiseRail_sq, updRail_get_same, vupd_get_same]
  · rw [raiseRail_sq, updRail_get_same, hended]
    exact congrArg SeqState.active hst
  · rw [raiseRail_sq, updRail_get_same, hended]
    exact Nat.lt_of_lt_of_le hearlier (deglitchEnded_cycles _ _ _ _ _)

/-- A warning sets its flag and leaves all else of the sequencer but the deglitch. -/
theorem uvWarn_sets_flag {q : Fin 9} {r : Fin 16} {v : Rat} {began : Nat} {s : State}
    (harmed : ((s.sq.get q).rails.get r).uvArmed = true) (hused : getN s (Obj.railNominalV (railNo q r)) ≠ 0)
    (hshows : levelShows s q r .uvWarn v = true) :
    Ends (.levelDeglitchExpiry q r .uvWarn v began) s (fun t =>
      (((s.sq.get q).rails.get r).uvWarn = false → ((t.sq.get q).rails.get r).uvWarn = true) ∧
      (t.sq.get q).st = (s.sq.get q).st ∧ ((t.sq.get q).rails.get r).v = ((s.sq.get q).rails.get r).v ∧
      ∀ x : Fin 9, x ≠ q → t.sq.get x = s.sq.get x) := by
  have hjudged := levelJudged_of_uvArmed (.inr rfl) harmed hused
  have hended := deglitchEnded_get_same q r .uvWarn began s
  cases hwarn : ((s.sq.get q).rails.get r).uvWarn with
  | true =>
    have hexec : exec (.levelDeglitchExpiry q r .uvWarn v began) s = .next (noteDegraded (deglitchEnded q r .uvWarn began s)) :=
      congrArg noted ((if_neg (by simp [hjudged, hshows])).trans (if_pos hwarn))
    refine ends_of_next hexec ?_
    rw [noteDegraded_sq, hended, vupd_get_same]
    exact ⟨fun hset => absurd hset (by decide), rfl, rfl, fun x hx => deglitchEnded_get_other _ _ _ _ hx⟩
  | false =>
    have hexec : exec (.levelDeglitchExpiry q r .uvWarn v began) s = .next (noteDegraded (raiseRail .railUvWarn q r
        (updRail q r (fun y => { y with uvWarn := true }) (deglitchEnded q r .uvWarn began s)))) :=
      congrArg noted ((if_neg (by simp [hjudged, hshows])).trans (if_neg (by simp [hwarn])))
    refine ends_of_next hexec ?_
    rw [noteDegraded_sq, raiseRail_sq, updRail_get_same, hended, vupd_get_same, vupd_get_same]
    exact ⟨fun _ => rfl, rfl, rfl, fun x hx =>
      (updRail_get_other _ _ _ hx).trans (deglitchEnded_get_other _ _ _ _ hx)⟩

/-- A fault condition that ends in the PG window restarts it. -/
theorem uvFault_end_restarts_window {q : Fin 9} {r : Fin 16} {v : Rat} {s : State}
    (harmed : ((s.sq.get q).rails.get r).uvArmed = true) (hused : getN s (Obj.railNominalV (railNo q r)) ≠ 0)
    (hends : levelEnds s q r .uvFault v = true) (hst : (s.sq.get q).st = .pgWindow) :
    Ends (.levelConditionEnd q r .uvFault v) s (WindowRestarted q s.clk.cycles (dropRunning q r .uvFault s)) := by
  have hjudged := levelJudged_of_uvArmed (.inl rfl) harmed hused
  have hrestart : faultEnds q (dropRunning q r .uvFault s) = pgRestart q s.clk.cycles (dropRunning q r .uvFault s) := by
    unfold faultEnds
    rw [dropRunning, updRail_get_same, hst]
    rfl
  have hexec : exec (.levelConditionEnd q r .uvFault v) s = .next (faultEnds q (dropRunning q r .uvFault s)) :=
    if_neg (by simp [hjudged, hends])
  exact ⟨_, hexec, hrestart ▸ pgRestart_restarts q s.clk.cycles _⟩

/-! ### THERMTRIP, OFF_WAIT, the retry of S_SELF and the lists (R285, R296, R308) -/

/-- THERMTRIP has stood low for 1 µs: the input and the thermal hold are noted, the trigger has not yet acted. -/
def tripNoted (a : Fin 8) (began : Nat) (s : State) : State :=
  raiseSeq .thermtrip (seqOf a) (updAcc a (fun x => { x with
    thermalHold := true, tripAt := (stands began (usCycles 1) s).clk.cycles })
    (updSeq (seqOf a) (fun x => { x with thermtripN := false }) (stands began (usCycles 1) s)))

theorem tripNoted_get_same (a : Fin 8) (began : Nat) (s : State) :
    (tripNoted a began s).sq.get (seqOf a) = { s.sq.get (seqOf a) with thermtripN := false } := by
  rw [tripNoted, raiseSeq_sq, updAcc_sq, updSeq_get_same, stands, tickTo_sq]

theorem tripNoted_get_other {a : Fin 8} {x : Fin 9} (began : Nat) (s : State) (h : x ≠ seqOf a) :
    (tripNoted a began s).sq.get x = s.sq.get x := by
  rw [tripNoted, raiseSeq_sq, updAcc_sq, updSeq_get_other _ _ _ _ h.symm, stands, tickTo_sq]

theorem tripOf_tripNoted (a : Fin 8) (began : Nat) (s : State) :
    tripOf ((tripNoted a began s).acc.get a) = (true, (tripNoted a began s).clk.cycles) :=
  congrArg tripOf (updAcc_get_same a _ _)

theorem thermtrip_starts_emergency {a : Fin 8} {began : Nat} {s : State} (hrun : s.clk.running = true)
    (hactive : (s.sq.get (seqOf a)).st.active = true) (hearlier : (s.sq.get (seqOf a)).causeAt < s.clk.cycles) :
    Ends (.thermtrip a began) s (EmergencyStarted (seqOf a) 6 0xFF (tripNoted a began s)) := by
  refine ⟨_, if_neg (by simp [hrun]), trigger_starts 6 0xFF ?_ ?_⟩
  · exact (congrArg (fun x => x.st.active) (tripNoted_get_same a began s)).trans hactive
  · rw [tripNoted_get_same]
    exact Nat.lt_of_lt_of_le hearlier (tickTo_cycles _ s).2

theorem disarm_uvArmed (x : Seq) (r : Fin 16) : (x.disarm.rails.get r).uvArmed = false :=
  congrArg Rail.uvArmed (Vector.getElem_map Rail.disarmUv r.isLt)

theorem offWaitExpiry_idles {q : Fin 9} {s : State} (hst : (s.sq.get q).st = .offWait) :
    Ends (.offWaitExpiry q) s (fun t => (t.sq.get q).st = .idle ∧ (∀ x : Fin 9, x ≠ q → t.sq.get x = s.sq.get x) ∧
      ∀ r : Fin 16, ((t.sq.get q).rails.get r).uvArmed = false) := by
  refine ends_of_next (if_neg (not_not_intro hst)) ?_
  rw [setSeq_get_same, updSeq_get_same]
  refine ⟨rfl, fun x hx => ?_, fun r => disarm_uvArmed _ r⟩
  rw [setSeq_get_other _ _ hx, updSeq_get_other _ _ _ _ hx.symm, tickTo_sq]

/-- A sequencer that has entered UP, with its rails disarmed. -/
def upEntered (q : Fin 9) (s : State) : State :=
  updSeq q (fun x => { x.disarm with rails := x.disarm.rails.map (fun r => { r with collapsed := false }) }) (setSeq q .up s)

/-- The up list starts at its first step, and a retry of S_SELF that was due stays as it is. -/
theorem startUp_starts (q : Fin 9) (s : State) :
    ((startUp q s).sq.get q).st = .up ∧ ((startUp q s).sq.get q).kind = .up ∧ ((startUp q s).sq.get q).step = 0 ∧
      ((startUp q s).sq.get q).retryDue = (s.sq.get q).retryDue := by
  have hsq : (startUp q s).sq = (startList q .up s.clk.cycles (upEntered q s)).sq := rfl
  obtain ⟨ws, hlist⟩ := startList_get_same q .up s.clk.cycles (upEntered q s)
  rw [hsq, hlist, upEntered, updSeq_get_same, setSeq_get_same]
  exact ⟨rfl, rfl, rfl, rfl⟩

/-- The cycle in which the retry of S_SELF is due has come. -/
def retryTaken (d : Nat) (s : State) : State := updSeq sSelf (fun x => { x with retryDue := none }) (tickTo d s)

theorem retryTaken_get (d : Nat) (s : State) :
    (retryTaken d s).sq.get sSelf = { s.sq.get sSelf with retryDue := none } := by
  rw [retryTaken, updSeq_get_same, tickTo_sq]

theorem sSelfRetry_starts {d : Nat} {s : State} (hdue : (s.sq.get sSelf).retryDue = some d)
    (hst : (s.sq.get sSelf).st = .idle) (hmore : (s.sq.get sSelf).exhausted = false) (hb0 : (s.br.get 0).st = .on) :
    Ends .sSelfRetry s (fun t => (t.sq.get sSelf).st = .up ∧ (t.sq.get sSelf).kind = .up ∧ (t.sq.get sSelf).step = 0 ∧
      (t.sq.get sSelf).retryDue = none) := by
  have hexec : exec .sSelfRetry s = .next (selfUp (retryTaken d s)) := by
    show execSSelfRetry s = _
    unfold execSSelfRetry
    rw [hdue]
    rfl
  have hbr : (retryTaken d s).br = s.br := tickTo_br d s
  refine ends_of_next hexec ?_
  unfold selfUp
  rw [if_pos (by simp [retryTaken_get, hbr, hst, hmore, hb0])]
  obtain ⟨hup, hkind, hstep, hretry⟩ := startUp_starts sSelf _
  exact ⟨hup, hkind, hstep, hretry.trans (congrArg Seq.retryDue (updSeq_get_same _ _ _))⟩

theorem seqListWrite_stores {au : Auth} {q : Fin 9} {which : SeqList} {bytes : List Byte} {s : State}
    (hup : s.oda.serving = true) (hlist : which ≠ .none) (hcheck : precheck s au (listKey q which) 0 (.bytes bytes) = 0)
    (hok : listOk s q which bytes = true) :
    Ends (.seqListWrite au q which bytes) s (fun t =>
      getBlob t (listKey q which) = bytes ∧ t.sq = s.sq ∧ t.nums = s.nums ∧ t.br = s.br) := by
  have hwrite : EndsIn (fun t => getBlob t (listKey q which) = bytes ∧ t.sq = s.sq ∧ t.nums = s.nums ∧ t.br = s.br)
      (.next (writeStep au (listKey q which) (.bytes bytes) (listHome q which bytes)
        (fun _ => storeBlob (listKey q which) bytes) s)) := by
    refine write_ends_of_only hup hcheck (if_pos hok) fun _ u hu => ?_
    have hstored : Only [.clk, .oda, .blobs, .pow] s (storeBlob (listKey q which) bytes u) :=
      keep_storeBlob _ _ (.of_all rfl) (only_mono hu (.of_all rfl))
    exact ⟨getBlob_storeBlob_same _ _ _, hstored .sq (by decide), hstored .nums (by decide), hstored .br (by decide)⟩
  obtain ⟨t, ht, hP⟩ := hwrite
  exact ⟨t, (if_neg hlist).trans ht, hP⟩

/-- Settles O31: the commands of this section, one by one. -/
theorem sequencerWaitsWindowsAndFaults : Obligations.SequencerWaitsWindowsAndFaults := by
  unfold Obligations.SequencerWaitsWindowsAndFaults
  refine ⟨?waitMet, ?upTimeout, fun _ _ _ _ _ => waitTimeout_passes_down, ?timeExpiry, fun _ _ => pgWindowClose_closes,
    fun _ _ _ => pgWindowClose_restarts, ?pgTimeout, ?uvFault, fun _ _ _ _ _ => uvWarn_sets_flag, ?uvFaultEnd, ?thermtrip,
    fun _ _ => offWaitExpiry_idles, fun _ _ => sSelfRetry_starts, fun _ _ _ _ _ => seqListWrite_stores⟩
  case waitMet =>
    intro q v r d up s hwait
    refine ends_mono (waitConditionMet_passes hwait) fun t ⟨hpassed, hclk⟩ => ?_
    exact ⟨hpassed.step, hclk ▸ hpassed.stepAt, hpassed.wait, hpassed.others⟩
  case upTimeout =>
    intro a r d up s hwait hkind hst hearlier
    refine ends_mono (waitTimeout_starts_emergency hwait hkind hst hearlier) fun t ⟨_, hstarted⟩ => ?_
    exact ⟨hstarted.st, hstarted.cause, hstarted.causeRail, hstarted.kind⟩
  case timeExpiry =>
    intro q d s hwait
    refine ends_mono (waitTimeExpiry_passes hwait) fun t hpassed => ?_
    exact ⟨hpassed.step, hpassed.stepAt, hpassed.wait, hpassed.others⟩
  case pgTimeout =>
    intro a s hst hearlier
    refine ends_mono (pgTimeout_starts_emergency hst hearlier) fun t ⟨u, hnums, hstarted⟩ => ?_
    exact ⟨hstarted.st, hstarted.cause, hstarted.pgood, getN_of_nums_eq hnums _ ▸ hstarted.counted⟩
  case uvFault =>
    intro a r v began s harmed hused hshows hst hearlier
    refine ends_mono (uvFault_starts_emergency harmed hused hshows hst hearlier) fun t ⟨u, hflag, hstarted⟩ => ?_
    exact ⟨hstarted.st, hstarted.cause, hstarted.causeRail, hstarted.rails ▸ hflag, hstarted.pgood⟩
  case uvFaultEnd =>
    intro q r v s harmed hused hends hst
    refine ends_mono (uvFault_end_restarts_window harmed hused hends hst) fun t hrestarted => ?_
    obtain ⟨hfrom, hst1, -, hrails, hcounted⟩ := hrestarted
    rw [dropRunning, updRail_get_same] at hfrom hst1 hrails
    rw [hrails, vupd_get_same]
    exact ⟨hfrom, hst1.trans hst, rfl, hcounted⟩
  case thermtrip =>
    intro a began s hrun hactive hearlier
    refine ends_mono (thermtrip_starts_emergency hrun hactive hearlier) fun t hstarted => ?_
    have htrip : tripOf (t.acc.get a) = (true, t.clk.cycles) := by
      rw [hstarted.trips a, tripOf_tripNoted, hstarted.clk]
    have hinput : (t.sq.get (seqOf a)).thermtripN = false := by rw [hstarted.thermtripN, tripNoted_get_same]
    refine ⟨congrArg Prod.fst htrip, congrArg Prod.snd htrip, hinput, hstarted.st, hstarted.cause, fun b hb => ?_⟩
    rw [hstarted.others _ (seqOf_ne hb), tripNoted_get_other _ _ (seqOf_ne hb)]

end Sys2Proof.Laws

namespace Sys2Proof.Laws

open Sys2Proof.Machine

/-! ## What a Sorghum over-temperature and a leak result leave (R306, R314) -/

/-! ### SORGHUM_OT in the cycle of a down list's END (R289, R306)

SORGHUM_OT latches B1 to B11 first and B0 last. The latch of B0 takes it out of ON, which is a trigger of every sequencer.
Where one has ended its down list in the same cycle, `undoEnd` replaces the branch just latched by the one kept at the END,
and that one is opened with B0: it stands at OFF. -/

/-- The state of `downListEnds` late enough for a temperature to have stood 10 µs: B0 and the branch of A1 are ON, and the
down list of A1 has its END in this cycle. -/
def downListEndsLater : State := { downListEnds with
  clk := { downListEnds.clk with cycles := 1000 }
  sq := vupd downListEnds.sq 1 (fun x => { x with stepAt := 1000 }) }

/-- The list has ended: A1 is in OFF_WAIT and its branch OFF. -/
def downListEndedLater : State := stateAfter (.stepEnd 1) downListEndsLater

/-- Refutes O32: SORGHUM_OT does not latch every branch. T_SORGHUM has stood at 151 °C since cycle 750 when the down list of
A1 ends; the latch of B0 triggers A1's emergency list, and the branch of A1, latched before, is OFF at the end. -/
theorem not_partHeatAndThrottling : ¬ Obligations.PartHeatAndThrottling := by
  unfold Obligations.PartHeatAndThrottling
  intro h
  obtain ⟨-, -, -, -, -, -, -, -, hot, -⟩ := h
  obtain ⟨-, -, -, -, hlatched⟩ := ends_stateAfter (hot 151 750 downListEndedLater
    (by decide +kernel) (by decide +kernel) (by decide +kernel) (by decide +kernel))
  obtain ⟨-, hnotOff, -⟩ := hlatched 2
  have hoff : ((stateAfter (.sorghumOt 151 750) downListEndedLater).br.get 2).st = .off := by decide +kernel
  exact hnotOff hoff

/-! ### A leak resistance outside the range of a channel (R314)

A channel measures from 1 kΩ to 10 MΩ, and a resistance outside that reads as the end of the range (log 63). -/

/-- Rye runs, and every leak channel is enabled and DRY. -/
def ryeRunning : State := { State.reset with clk := { Clock.init with running := true } }

/-- Refutes O34: LEAK_RESULT does not store every resistance as it is. The 500 Ω of a cable under water read as 1 kΩ, the
low end of the range. -/
theorem not_leaksAndZones : ¬ Obligations.LeaksAndZones := by
  unfold Obligations.LeaksAndZones
  intro h
  obtain ⟨hresult, -⟩ := h
  obtain ⟨-, hstored, -⟩ := ends_stateAfter
    (hresult 0 500 ryeRunning (by decide +kernel) (by decide +kernel) (by decide +kernel))
  have hread : ((stateAfter (.leakResult 0 500) ryeRunning).cool.leaks.get 0).r = 1000 := by decide +kernel
  exact absurd (hread.symm.trans hstored) (by decide)

end Sys2Proof.Laws

namespace Sys2Proof.Laws

open Sys2Proof.Machine

/-! ## The LPDDR4X map stays canonical

Memory bytes are written by `writeByte` and `storeSram` and dropped by `releaseFw` and `memEmpty`; every other
  operation leaves
the list of bytes as it was. The lemmas `canonical_…` carry the form through each operation that may change the
  memory at
all, and `Canonical.frame` through the others by their frames. -/

/-- The LPDDR4X map of the state is in its canonical form. -/
def Canonical (s : State) : Prop := s.mem.wf = true

/-- Every part beside the memory, the queue and the identity. -/
def besideMem : List Area := [.nums, .blobs, .clk, .pow, .br, .sq, .acc, .heat, .cool, .part, .ev, .nut, .rep,
  .pkgEnergy,
  .oda, .port, .eng, .img, .ani, .bar, .cardamom, .free]

theorem Canonical.of_ram {s t : State} (h : Canonical s) (hram : t.mem.ram = s.mem.ram) : Canonical t := by
  unfold Canonical Mem.wf at *
  rwa [hram]

theorem Canonical.frame {s t : State} (h : Canonical s) (k : Only besideMem s t) : Canonical t :=
  h.of_ram (congrArg Mem.ram (k .mem (by decide)))

theorem canonical_with_eng {s : State} (g : Engine) (h : Canonical s) : Canonical { s with eng := g } := h

theorem canonical_ite {c : Prop} [Decidable c] {a b : State} (ha : Canonical a) (hb : Canonical b) :
    Canonical (if c then a else b) := by
  split
  · exact ha
  · exact hb

theorem canonical_forEach {α : Type} (l : List α) {f : α → State → State} {s : State}
    (hf : ∀ x u, Canonical u → Canonical (f x u)) (h : Canonical s) : Canonical (forEach l f s) :=
  forEach_keeps hf h

theorem canonical_forAll (n : Nat) {f : Fin n → State → State} {s : State}
    (hf : ∀ i u, Canonical u → Canonical (f i u)) (h : Canonical s) : Canonical (forAll n f s) :=
  forAll_keeps hf h

theorem canonical_foldl {α : Type} (l : List α) {f : State → α → State} {s : State}
    (hf : ∀ x u, Canonical u → Canonical (f u x)) (h : Canonical s) : Canonical (l.foldl f s) := by
  induction l generalizing s with
  | nil => exact h
  | cons x t ih => exact ih (hf x s h)

/-! ### Millet's channels, wait slots and sync cells -/

section
variable {s : State}

theorem canonical_updDma (c : Fin 32) (f : DmaCh → DmaCh) (h : Canonical s) : Canonical (updDma c f s) := h.of_ram rfl

theorem canonical_putSlot (k : Nat) (x : WaitSlot) (h : Canonical s) : Canonical (putSlot k x s) := h.of_ram rfl

theorem canonical_putCell (c v : Nat) (h : Canonical s) : Canonical (putCell c v s) := h.of_ram rfl

theorem canonical_setRun (mb : Bool) (c : Option Nat) (h : Canonical s) : Canonical (setRun mb c s) :=
  h.of_ram (by unfold setRun; split <;> rfl)

theorem canonical_startNext (mb : Bool) (h : Canonical s) : Canonical (startNext mb s) := by
  unfold startNext
  split
  · exact h
  · split
    · exact canonical_updDma _ _ (canonical_setRun _ _ h)
    · exact h

theorem canonical_endRun (c : Fin 32) (h : Canonical s) : Canonical (endRun c s) :=
  canonical_startNext _ (canonical_setRun _ _ h)

theorem canonical_seqLeave (c : Fin 32) (st : DmaState) (h : Canonical s) : Canonical (seqLeave c st s) :=
  canonical_ite (canonical_endRun _ (canonical_updDma _ _ h)) (canonical_updDma _ _ h)

theorem canonical_seqCancel (c : Fin 32) (h : Canonical s) : Canonical (seqCancel c s) :=
  canonical_ite h (canonical_seqLeave _ _ h)

theorem canonical_tryFire (k : Nat) (h : Canonical s) : Canonical (tryFire k s) := by
  unfold tryFire
  refine canonical_ite ?_ h
  extract_lets s1 s2
  have hs2 : Canonical s2 := (canonical_putSlot _ _ h).frame
    (only_ite (fun _ => keep_raiseIrq _ _ (.of_all rfl) (only_refl _ _)) (fun _ => only_refl _ _))
  exact canonical_ite (hs2.frame (keep_raiseMain _ _ _ (.of_all rfl) (only_refl _ _))) hs2

theorem canonical_cellChanged (c : Nat) (h : Canonical s) : Canonical (cellChanged c s) :=
  canonical_forEach _ (fun _ _ => canonical_tryFire _) h

theorem canonical_signalCell (c n : Nat) (h : Canonical s) : Canonical (signalCell c n s) :=
  canonical_cellChanged _ (canonical_putCell _ _ h)

theorem canonical_setCell (c v : Nat) (h : Canonical s) : Canonical (setCell c v s) :=
  canonical_ite (canonical_cellChanged _ (canonical_putCell _ _ h)) (canonical_putCell _ _ h)

theorem canonical_tileSignal (c n : Nat) (h : Canonical s) : Canonical (tileSignal c n s) :=
  canonical_ite (h.of_ram rfl) (canonical_signalCell _ _ h)

theorem canonical_seqOne (c : Fin 32) (n : Nat) (h : Canonical s) : Canonical (seqOne c n s) :=
  canonical_signalCell _ _ ((canonical_updDma _ _ h).frame
    (keep_milletBytes _ _ (.of_all rfl) (keep_inc32 _ (.of_all rfl) (only_refl _ _))))

theorem canonical_seqRun (c : Fin 32) (bytes : Nat) (h : Canonical s) : Canonical (seqRun c bytes s) :=
  canonical_forEach _ (fun _ _ => canonical_seqOne _ _) h

theorem canonical_seqFinish (c : Fin 32) (h : Canonical s) : Canonical (seqFinish c s) :=
  canonical_ite h (canonical_seqLeave _ _ (canonical_forEach _ (fun _ _ => canonical_seqOne _ _) h))

theorem canonical_seqStart (c : Fin 32) (bytes : Nat) (h : Canonical s) : Canonical (seqStart c bytes s) :=
  canonical_ite h (canonical_startNext _ (canonical_updDma _ _ h))

theorem canonical_seqStep (c : Fin 32) (h : Canonical s) : Canonical (seqStep c s) := by
  unfold seqStep
  split
  · exact h
  · exact canonical_endRun _ (canonical_updDma _ _ (canonical_seqOne _ _ h))

theorem canonical_seqHalt (c : Fin 32) (cause : Nat) (h : Canonical s) : Canonical (seqHalt c cause s) := by
  unfold seqHalt takeFree
  refine canonical_seqLeave _ _ (Canonical.frame ?_ (keep_raiseMain _ _ _ (.of_all rfl)
    (keep_setN _ _ (.of_all rfl) (keep_inc32 _ (.of_all rfl) (only_refl _ _)))))
  exact canonical_updDma _ _ (h.of_ram rfl)

/-! ### Sessions, images and frames -/

theorem canonical_queueLoad (model lane : Nat) (replica : Bool) (c : Count) (h : Canonical s) :
    Canonical (queueLoad model lane replica c s) := by
  unfold queueLoad
  split
  · exact h
  · exact canonical_ite (canonical_seqStart _ _ (h.of_ram rfl)) (h.of_ram rfl)

theorem canonical_openSession (au : Auth) (n : Nat) (d : Desc) (c : Count) (h : Canonical s) :
    Canonical (openSession au n d c s) := by
  unfold openSession
  split
  · exact h
  · split
    · exact h
    · exact canonical_ite (h.of_ram rfl) (canonical_queueLoad _ _ _ _ (h.of_ram rfl))

theorem canonical_withdrawLoads (h : Canonical s) : Canonical (withdrawLoads s) :=
  h.frame (keep_withdrawLoads (.of_all rfl) (only_refl _ _))

theorem canonical_requestSwitch (n : Nat) (d : Desc) (c : Count) (h : Canonical s) :
    Canonical (requestSwitch n d c s) := by
  unfold requestSwitch
  extract_lets +onlyGivenNames x cleared
  have hcleared : Canonical cleared := canonical_withdrawLoads (h.of_ram rfl)
  refine canonical_ite hcleared ?_
  split
  · exact h
  · extract_lets repeated base same lane res
    refine canonical_ite h ?_
    have hbase : Canonical base := canonical_ite h hcleared
    exact canonical_ite (hbase.of_ram rfl) (canonical_queueLoad _ _ _ _ (hbase.of_ram rfl))

theorem canonical_descEffect (au : Auth) (n : Nat) (d : Desc) (c : Count) (h : Canonical s) :
    Canonical (descEffect au n d c s) := by
  unfold descEffect
  extract_lets x s1
  have hs1 : Canonical s1 := h.frame (keep_logWrite _ _ _ _ (.of_all rfl) (only_refl _ _))
  split
  · exact canonical_ite (canonical_openSession _ _ _ _ hs1) (hs1.of_ram rfl)
  · exact canonical_ite (canonical_ite (hs1.of_ram rfl)
      (canonical_openSession _ _ _ _ (canonical_withdrawLoads (hs1.of_ram rfl))))
      (canonical_withdrawLoads (hs1.of_ram rfl))
  · exact canonical_ite (canonical_requestSwitch _ _ _ (hs1.of_ram rfl)) (canonical_withdrawLoads (hs1.of_ram rfl))
  · exact canonical_ite (canonical_requestSwitch _ _ _ (hs1.of_ram rfl)) (hs1.of_ram rfl)

theorem canonical_codebookEffect (c : Nat) (bs : List Byte) (at_ : Count) (h : Canonical s) :
    Canonical (codebookEffect c bs at_ s) := by
  unfold codebookEffect
  exact canonical_ite (canonical_with_eng _ (canonical_seqRun _ _ h)) (canonical_with_eng _ (canonical_seqRun _ _ h))

theorem canonical_commitCkpt (h : Canonical s) : Canonical (commitCkpt s) := by
  unfold commitCkpt
  split
  · exact h
  · refine canonical_ite h ?_
    extract_lets base e m s1
    have hs1 : Canonical s1 := h.of_ram rfl
    exact canonical_signalCell _ _ (canonical_seqFinish _ (hs1.frame (keep_addBases _ (.of_all rfl)
      (keep_setN _ _ (.of_all rfl) (keep_setN _ _ (.of_all rfl) (only_refl _ _))))))

theorem canonical_beginCkpt (n : Nat) (h : Canonical s) : Canonical (beginCkpt n s) :=
  have hs1 := canonical_seqStart 0 (takeCkpt (newestCkpt s) s (n + 1)).length (h.of_ram (t := { s with eng :=
    { s.eng with writing := some (takeCkpt (newestCkpt s) s (n + 1)), ckptStale := s.eng.writing.isSome } }) rfl)
  canonical_ite (hs1.of_ram rfl) hs1

theorem canonical_carryModels (x : Image) (c : Carry) (h : Canonical s) : Canonical (carryModels x c s) :=
  (canonical_seqCancel 17 h).frame (keep_mapSess _ (.of_all rfl)
    (only_forEach _ _ (fun _ _ => keep_loadWeights _ _ (.of_all rfl)) (keep_setEng _ (.of_all rfl) (only_refl _ _))))

theorem canonical_coldLoad (i s0 : Nat) (h : Canonical s) : Canonical (coldLoad i s0 s) := by
  unfold coldLoad
  split
  · exact h
  · rename_i x _
    extract_lets c s1 s2 r
    have hs2 : Canonical s2 := h.frame (keep_setThrottle _ (.of_all rfl) (keep_carrySessions _ _ (.of_all rfl)
      (keep_setImg _ (.of_all rfl) (keep_setEng _ (.of_all rfl) (only_forAll _ _ (fun _ _ k =>
        only_ite (fun _ => keep_gateTile _ _ (.of_all rfl) k) (fun _ => k)) (only_refl _ _))))))
    exact canonical_carryModels _ _ ((canonical_seqRun _ _ hs2).frame (keep_applyBinds _ _ _ _ _ _ (.of_all rfl)
      (only_refl _ _)))

theorem canonical_reapplyOne (w : DescWrite) (h : Canonical s) : Canonical (reapplyOne w s) :=
  canonical_ite (h.frame (keep_raiseMain _ _ _ (.of_all rfl) (keep_updSess _ _ (.of_all rfl) (only_refl _ _))))
    (canonical_with_eng _ (canonical_descEffect _ _ _ _ h))

end

section
variable {s : State}

theorem canonical_restoreSess (badNew badOld : List Nat) (e0 : CkptEnt) (h : Canonical s) :
    Canonical (restoreSess badNew badOld e0 s) := by
  unfold restoreSess
  extract_lets n y got e pend model shape stays lane b k ph back s0 s1
  have hs0 : Canonical s0 := h.frame (keep_setSess _ _ (.of_all rfl) (only_refl _ _))
  have hs1 : Canonical s1 := canonical_ite (canonical_ite (canonical_queueLoad _ _ _ _ hs0) hs0)
    (hs0.frame (keep_seatModel _ (.of_all rfl) (only_refl _ _)))
  exact canonical_ite hs1 (hs1.frame (keep_addNext _ (.of_all rfl) (only_refl _ _)))

theorem canonical_restoreTable (badNew badOld : List Nat) (h : Canonical s) :
    Canonical (restoreTable badNew badOld s) := by
  unfold restoreTable
  split
  · exact h
  · exact canonical_forEach _ (fun _ _ => canonical_restoreSess _ _ _)
      (h.frame (keep_dropUnlisted (.of_all rfl) (only_refl _ _)))

theorem canonical_coldFinish (i : Nat) (h : Canonical s) : Canonical (coldFinish i s) := by
  unfold coldFinish
  extract_lets s1 s2 s3
  have hs1 : Canonical s1 := canonical_coldLoad _ _ ((canonical_commitCkpt h).frame
    (keep_setImg _ (.of_all rfl) (keep_dropUnlisted (.of_all rfl) (only_refl _ _))))
  have hs2 : Canonical s2 := canonical_restoreTable _ _ hs1
  have hs3 : Canonical s3 := canonical_forEach _ (fun _ _ => canonical_reapplyOne _)
    (hs2.frame (keep_restoreRecords _ _ (.of_all rfl) (only_refl _ _)))
  exact hs3.frame (keep_imageCtrl _ (.of_all rfl) (keep_checkDomains (.of_all rfl) (keep_setN _ _ (.of_all rfl)
    (keep_setEng _ (.of_all rfl) (only_refl _ _)))))

theorem canonical_switchRepl (r : Repl) (h : Canonical s) : Canonical (switchRepl r s) := by
  unfold switchRepl
  split
  · exact h
  · exact (canonical_seqRun _ _ h).frame (only_forEach _ _ (fun _ _ => keep_restoreOne _ (.of_all rfl))
      (only_forEach _ _ (fun _ _ => keep_setAdvance _ _ _ (.of_all rfl)) (keep_addNext _ (.of_all rfl)
      (keep_moveAll _ _ _ (.of_all rfl) (keep_setImg _ (.of_all rfl) (keep_setEng _ (.of_all rfl) (only_refl _
        _)))))))

theorem canonical_armEffect (i : Fin 4) (c : Count) (h : Canonical s) : Canonical (armEffect i c s) := by
  unfold armEffect
  split
  · exact h
  · extract_lets hot s1 s2
    have hs2 : Canonical s2 := h.frame (keep_setImg _ (.of_all rfl) (keep_unarm (.of_all rfl) (only_refl _ _)))
    refine canonical_ite (hs2.frame (keep_discardSwitches (.of_all rfl) (only_refl _ _))) (canonical_ite ?_ hs2)
    exact canonical_seqRun _ _ (hs2.frame (keep_loadBundles _ (.of_all rfl) (only_refl _ _)))

theorem canonical_replaceTile (t : Fin 68) (n : Nat) (h : Canonical s) : Canonical (replaceTile t n s) := by
  unfold replaceTile
  split
  · exact h
  · extract_lets waits s1 ls src
    have hs1 : Canonical s1 := h.frame (keep_setImg _ (.of_all rfl) (only_refl _ _))
    have hlost : Canonical (recompute [] s1) := hs1.frame (keep_recompute _ (.of_all rfl) (only_refl _ _))
    refine canonical_ite hlost ?_
    split
    · exact hlost
    · extract_lets s2 after s3
      have hs2 : Canonical s2 := hs1.frame (keep_updTile _ _ (.of_all rfl) (only_refl _ _))
      refine canonical_ite (hs2.frame ?_) (canonical_forEach _ (fun _ _ => canonical_switchRepl _) hs2)
      exact keep_replan _ _ _ (.of_all rfl) (only_forEach _ _ (fun _ _ => only_forEach _ _
        (fun _ _ => keep_setAdvance _ _ _ (.of_all rfl))) (keep_setImg _ (.of_all rfl) (only_refl _ _)))

theorem canonical_switchPlan (p : Plan) (h : Canonical s) : Canonical (switchPlan p s) := by
  unfold switchPlan
  split
  · exact h.frame (keep_setImg _ (.of_all rfl) (only_refl _ _))
  · extract_lets s0 s1 lost bad s2 s3
    have hs0 : Canonical s0 := canonical_seqRun _ _ (h.frame (keep_setImg _ (.of_all rfl) (only_refl _ _)))
    have hs2 : Canonical s2 := hs0.frame (only_forEach _ _ (fun _ _ => keep_restoreOne _ (.of_all rfl))
      (keep_applyBinds _ _ _ _ _ _ (.of_all rfl) (only_refl _ _)))
    have hs3 : Canonical s3 := canonical_forEach _ (fun _ _ => canonical_reapplyOne _) hs2
    exact hs3.frame (keep_recompute _ (.of_all rfl) (only_refl _ _))

theorem canonical_takeForce (i frame : Nat) (h : Canonical s) : Canonical (takeForce i frame s) :=
  canonical_signalCell _ _ (h.frame (keep_setN _ _ (.of_all rfl) (keep_measImage _ (.of_all rfl)
    (keep_markForce _ (.of_all rfl) (keep_setImg _ (.of_all rfl) (only_refl _ _))))))

theorem canonical_ctlStep (t : Fin 68) (a : At) (op : CtlOp) (h : Canonical s) : Canonical (ctlStep t a op s) := by
  unfold ctlStep
  split
  · exact h.frame (keep_updTile _ _ (.of_all rfl) (only_refl _ _))
  · exact canonical_tileSignal _ _ h
  · exact h

theorem canonical_runTile (c : Nat) (t : Fin 68) (h : Canonical s) : Canonical (runTile c t s) := by
  unfold runTile
  extract_lets x
  split
  · exact h
  · refine canonical_ite h ?_
    extract_lets a
    refine canonical_ite (h.frame (keep_sendStep _ _ (.of_all rfl) (keep_updTile _ _ (.of_all rfl) (only_refl _ _))))
      ?_
    split
    exact (canonical_forEach _ (fun _ _ => canonical_ctlStep _ _ _) (h.frame (only_forEach _ _
      (fun _ _ => keep_tileStep _ _ _ (.of_all rfl)) (keep_updTile _ _ (.of_all rfl) (only_refl _ _))))).frame
      (keep_sendStep _ _ (.of_all rfl) (only_refl _ _))

theorem canonical_stepCycle (c : Nat) (h : Canonical s) : Canonical (stepCycle c s) := by
  unfold stepCycle
  extract_lets s1
  have hs1 : Canonical s1 := h.frame (keep_setEng _ (.of_all rfl) (only_refl _ _))
  exact (canonical_forAll 68 (fun t _ => canonical_runTile c t) hs1).frame (keep_setEng _ (.of_all rfl) (only_refl _
    _))

theorem canonical_runCycles (k c : Nat) (h : Canonical s) : Canonical (runCycles k c s) := by
  induction k generalizing c s with
  | zero => exact h
  | succ k ih => exact canonical_ite (ih _ (canonical_stepCycle _ h)) h

theorem canonical_runTo (c : Nat) (h : Canonical s) : Canonical (runTo c s) :=
  (canonical_runCycles _ _ h).frame (keep_setEng _ (.of_all rfl) (only_refl _ _))

theorem canonical_settleReady (h : Canonical s) : Canonical (settleReady s) := by
  unfold settleReady
  extract_lets s0 s1 s2 s3
  have hs0 : Canonical s0 := by
    unfold s0
    split
    · exact h.frame (keep_releaseHeld _ _ (.of_all rfl) (only_refl _ _))
    · exact h
  have hs1 : Canonical s1 := canonical_forEach _ (fun _ _ => canonical_switchRepl _)
    (hs0.frame (keep_setImg _ (.of_all rfl) (only_refl _ _)))
  have hs2 : Canonical s2 := hs1.frame (keep_setImg _ (.of_all rfl) (only_refl _ _))
  have hs3 : Canonical s3 := by
    unfold s3
    split
    · exact canonical_coldFinish _ hs2
    · exact hs2
  exact hs3.frame (keep_recompute _ (.of_all rfl) (keep_setEng _ (.of_all rfl) (only_refl _ _)))

theorem canonical_stopLaunch (h : Canonical s) : Canonical (stopLaunch s) :=
  canonical_settleReady (h.frame (keep_stopRings (.of_all rfl) (keep_abandonTick (.of_all rfl)
    (keep_enterPart _ (.of_all rfl) (keep_setEng _ (.of_all rfl) (keep_setN _ _ (.of_all rfl)
    (keep_setN _ _ (.of_all rfl) (only_refl _ _))))))))

theorem canonical_failTile (t : Fin 68) (n : Nat) (h : Canonical s) : Canonical (failTile t n s) :=
  (canonical_replaceTile _ _ (h.frame (keep_markFailed _ (.of_all rfl) (only_refl _ _)))).frame
    (keep_checkDomain _ (.of_all rfl) (only_refl _ _))

theorem canonical_tileFails (t : Fin 68) (h : Canonical s) : Canonical (tileFails t s) :=
  canonical_ite (canonical_ite (h.frame (keep_updTile _ _ (.of_all rfl) (only_refl _ _))) (canonical_failTile _ _ h))
    h

theorem canonical_newNumbers (h : Canonical s) : Canonical (newNumbers s) :=
  (canonical_commitCkpt h).frame (keep_setEng _ (.of_all rfl) (only_refl _ _))

theorem canonical_boundaryTiles (n : Nat) (h : Canonical s) : Canonical (boundaryTiles n s) := by
  unfold boundaryTiles
  extract_lets s1
  have hs1 : Canonical s1 := (canonical_forAll 68 (fun t _ k => canonical_ite (canonical_failTile t n k) k) h).frame
    (keep_reloadCode (.of_all rfl) (only_refl _ _))
  exact hs1.frame (keep_setEng _ (.of_all rfl) (only_refl _ _))

theorem canonical_endFrame (n : Nat) (h : Canonical s) : Canonical (endFrame n s) := by
  unfold endFrame
  extract_lets s0 ck s1 crc s2 s3 s4
  have hs0 : Canonical s0 := h.frame (keep_ckptStep _ (.of_all rfl) (keep_restTiles (.of_all rfl) (only_refl _ _)))
  have hs1 : Canonical s1 := canonical_ite (canonical_beginCkpt _ hs0) hs0
  have hs2 : Canonical s2 := hs1.frame (keep_writeBlock _ _ (.of_all rfl) (only_refl _ _))
  have hs3 : Canonical s3 := canonical_ite (hs2.frame (keep_mapSess _ (.of_all rfl) (only_refl _ _))) hs2
  have hs4 : Canonical s4 := canonical_boundaryTiles _ (hs3.frame (keep_setEng _ (.of_all rfl) (only_refl _ _)))
  exact canonical_ite (hs4.frame (keep_stopSafe (.of_all rfl) (only_refl _ _)))
    (canonical_ite (canonical_stopLaunch hs4) hs4)

theorem canonical_skipFrame (n : Nat) (h : Canonical s) : Canonical (skipFrame n s) :=
  canonical_signalCell _ _ (canonical_endFrame _ (h.frame (keep_promoteEarly (.of_all rfl) (keep_incMax _ _ _
    (.of_all rfl)
    (keep_setEng _ (.of_all rfl) (keep_beginFrame _ _ (.of_all rfl) (only_refl _ _)))))))

theorem canonical_runFrame (n : Nat) (h : Canonical s) : Canonical (runFrame n s) := by
  unfold runFrame
  extract_lets toks s1 s2 s3 s4 ls
  have hs1 : Canonical s1 := canonical_signalCell _ _ (h.frame (keep_beginFrame _ _ (.of_all rfl) (only_refl _ _)))
  exact canonical_runTo _ (hs1.frame (keep_promoteEarly (.of_all rfl) (keep_ingestAll (.of_all rfl)
    (keep_startTiles _ (.of_all rfl) (keep_setEng _ (.of_all rfl) (only_forEach _ _ (fun _ _ => keep_takeToken _ _ _
      (.of_all rfl))
    (only_forEach _ _ (fun _ _ => keep_ingestOne _ _ (.of_all rfl)) (only_refl _ _))))))))

theorem canonical_atP0Emit (h : Canonical s) : Canonical (atP0Emit s) :=
  (canonical_runTo _ (h.frame (keep_reachCount _ (.of_all rfl) (only_refl _ _)))).frame
    (keep_putDerived _ _ (.of_all rfl) (only_refl _ _))

theorem canonical_atMainEmit (h : Canonical s) : Canonical (atMainEmit s) :=
  (canonical_runTo _ (h.frame (keep_reachCount _ (.of_all rfl) (only_refl _ _)))).frame
    (keep_putDerived _ _ (.of_all rfl) (only_refl _ _))

theorem canonical_tested (t : Fin 68) (st : TileState) (h : Canonical s) : Canonical (tested t st s) := by
  unfold tested
  extract_lets s1
  have hs1 : Canonical s1 := h.frame (keep_updTile _ _ (.of_all rfl) (only_refl _ _))
  refine canonical_ite hs1 ?_
  split
  · exact (canonical_coldLoad _ _ (hs1.frame (keep_setImg _ (.of_all rfl) (only_refl _ _)))).frame
      (keep_imageCtrl _ (.of_all rfl) (only_refl _ _))
  · exact hs1.frame (keep_recompute _ (.of_all rfl) (keep_checkDomains (.of_all rfl) (only_refl _ _)))

/-! ### Replay, Anise and the stops of the main die -/

theorem canonical_reloadForce (h : Canonical s) : Canonical (reloadForce s) := by
  unfold reloadForce
  extract_lets ctrls s1 s2
  have hs1 : Canonical s1 := h.frame (keep_setImg _ (.of_all rfl) (only_refl _ _))
  have hs2 : Canonical s2 := by
    unfold s2
    split
    · exact canonical_coldLoad _ _ hs1
    · exact hs1.frame (keep_gateUnmapped _ (.of_all rfl) (keep_setEng _ (.of_all rfl) (keep_setImg _ (.of_all rfl)
        (only_refl _ _))))
  exact hs2.frame (keep_setEng _ (.of_all rfl) (only_refl _ _))

theorem canonical_endReplay (r : ReplayState) (h : Canonical s) : Canonical (endReplay r s) :=
  have hs1 := canonical_reloadForce (h.frame (keep_setEng _ (.of_all rfl) (only_refl _ _)))
  canonical_ite (hs1.frame (keep_resumeRing (.of_all rfl) (only_refl _ _))) hs1

theorem canonical_replayImage (i : Nat) (h : Canonical s) : Canonical (replayImage i s) :=
  (canonical_coldLoad i 0 (h.frame (keep_setImg _ (.of_all rfl) (only_refl _ _)))).frame
    (keep_setEng _ (.of_all rfl) (only_refl _ _))

theorem canonical_startReplay (x : Export) (h : Canonical s) : Canonical (startReplay x s) := by
  unfold startReplay
  extract_lets s1 s2 s3
  have hs2 : Canonical s2 := canonical_seqCancel _ (h.frame (keep_freezeRing (.of_all rfl) (keep_setN _ _ (.of_all
    rfl)
    (keep_setN _ _ (.of_all rfl) (keep_setN _ _ (.of_all rfl) (keep_setN _ _ (.of_all rfl) (only_refl _ _)))))))
  have hs3 : Canonical s3 := hs2.frame (keep_setEng _ (.of_all rfl) (only_refl _ _))
  split
  · exact canonical_replayImage _ hs3
  · exact hs3

theorem canonical_replayCtrlEffect (v : Nat) (h : Canonical s) : Canonical (replayCtrlEffect v s) := by
  unfold replayCtrlEffect
  extract_lets s1
  have hs1 : Canonical s1 := h.frame (keep_setN _ _ (.of_all rfl) (only_refl _ _))
  refine canonical_ite (canonical_ite (hs1.frame (keep_refuseReplay _ (.of_all rfl) (only_refl _ _))) ?_)
    (canonical_ite (canonical_endReplay _ hs1) hs1)
  split
  · exact canonical_startReplay _ hs1
  · exact hs1

theorem canonical_replaySwitchImage (dg : List Byte) (h : Canonical s) : Canonical (replaySwitchImage dg s) := by
  unfold replaySwitchImage
  split
  · exact h
  · refine canonical_ite h (canonical_ite (h.frame ?_) (canonical_replayImage _ h))
    exact keep_setImg _ (.of_all rfl) (keep_swapHalves (.of_all rfl) (keep_loadBundles _ (.of_all rfl) (only_refl _
      _)))

theorem canonical_replayControls (cs : List Ctrl) (h : Canonical s) : Canonical (replayControls cs s) := by
  unfold replayControls
  extract_lets s1
  have hs1 : Canonical s1 := canonical_forEach _ (fun c u k => by
    split
    · exact canonical_replaySwitchImage _ k
    · exact k) h
  exact hs1.frame (only_forEach _ _ (fun _ _ => keep_applyCtrl _ (.of_all rfl)) (keep_replayRestores _ (.of_all rfl)
    (only_refl _ _)))

theorem canonical_replayPass (f j : Nat) (h : Canonical s) : Canonical (replayPass f j s) := by
  unfold replayPass
  split
  · exact h
  · extract_lets ls mine emit s1 s2 s3
    refine canonical_ite h ?_
    have hemit (p0 : Bool) (u : State) (k : Canonical u) : Canonical (emit p0 u) :=
      k.frame (only_forEach _ _ (fun _ _ => keep_emitOne _ _ _ (.of_all rfl)) (only_refl _ _))
    have hs1 : Canonical s1 := h.frame (only_forEach _ _ (fun _ _ => keep_ingestLanes _ (.of_all rfl))
      (keep_setEng _ (.of_all rfl) (keep_startTiles _ (.of_all rfl) (only_refl _ _))))
    have hs2 : Canonical s2 := hemit _ _ ((canonical_runTo _ hs1).frame (keep_putDerived _ _ (.of_all rfl) (only_refl
      _ _)))
    have hs3 : Canonical s3 := hemit _ _ ((canonical_runTo _ hs2).frame (keep_putDerived _ _ (.of_all rfl) (only_refl
      _ _)))
    exact (canonical_runTo _ hs3).frame (keep_restTiles (.of_all rfl) (only_refl _ _))

theorem canonical_replayRun (b : RingBlock) (rest : List RingBlock) (h : Canonical s) : Canonical (replayRun b rest
    s) := by
  unfold replayRun
  extract_lets f adv deltas s1 s2 s3
  have hs1 : Canonical s1 := h.frame (only_forEach _ _ (fun _ _ => keep_replayToken _ _ _ (.of_all rfl)) (only_refl _
    _))
  have hs2 : Canonical s2 := canonical_forEach _ (fun _ _ => canonical_replayPass _ _) hs1
  exact hs2.frame (only_forEach _ _ (fun _ _ k => keep_setEng _ (.of_all rfl) (keep_setSess _ _ (.of_all rfl) k))
    (only_forEach _ _ (fun _ _ => keep_withhold _ _ _ _ (.of_all rfl)) (only_refl _ _)))

theorem canonical_replayFrame (b : RingBlock) (rest : List RingBlock) (h : Canonical s) :
    Canonical (replayFrame b rest s) :=
  have hs2 := canonical_replayControls b.controls (h.frame (keep_setEng _ (.of_all rfl) (only_refl _ _)))
  (canonical_ite hs2 (canonical_replayRun _ _ hs2)).frame (keep_setEng _ (.of_all rfl) (only_refl _ _))

theorem canonical_leaveReplay (h : Canonical s) : Canonical (leaveReplay s) :=
  canonical_ite ((canonical_endReplay _ h).frame (keep_setEng _ (.of_all rfl) (only_refl _ _))) h

theorem canonical_readyRejoin (j : Nat) (h : Canonical s) : Canonical (readyRejoin j s) :=
  (canonical_forEach _ (fun _ _ => canonical_reapplyOne _) ((canonical_leaveReplay h).frame (keep_setEng _ (.of_all
    rfl)
    (keep_countSkipped _ (.of_all rfl) (keep_startRings (.of_all rfl) (only_refl _ _)))))).frame
    (keep_promoteEarly (.of_all rfl) (only_refl _ _))

theorem canonical_frameStopEffect (v : Nat) (c : Count) (h : Canonical s) : Canonical (frameStopEffect v c s) :=
  have hs1 : Canonical (setN s Obj.frameStopAt v) := h.frame (keep_setN _ _ (.of_all rfl) (only_refl _ _))
  canonical_ite (canonical_stopLaunch hs1) hs1

theorem canonical_reloadProgram (h : Canonical s) : Canonical (reloadProgram s) :=
  canonical_ite ((canonical_seqRun _ _ h).frame (keep_setAni _ (.of_all rfl) (only_refl _ _))) h

theorem canonical_tickTake (h : Canonical s) : Canonical (tickTake s) := by
  unfold tickTake
  split
  · exact h.frame (keep_activate _ (.of_all rfl) (keep_setAni _ (.of_all rfl) (only_refl _ _)))
  · exact (canonical_reloadProgram h).frame (keep_setAni _ (.of_all rfl) (only_refl _ _))

theorem canonical_concordFrame (n : Nat) (h : Canonical s) : Canonical (concordFrame n s) := by
  unfold concordFrame
  split
  · exact h
  · extract_lets s1 s2
    have hs1 : Canonical s1 := canonical_ite h ((canonical_signalCell _ _ h).frame
      (keep_setAni _ (.of_all rfl) (only_refl _ _)))
    exact hs1.frame (keep_setAni _ (.of_all rfl) (keep_recomputeCaps (.of_all rfl) (keep_concordJudge _ _ (.of_all
      rfl) (only_refl _ _))))

theorem canonical_frameJobs (n : Nat) (h : Canonical s) : Canonical (frameJobs n s) := by
  unfold frameJobs
  extract_lets s0 s1 tick
  have hs0 : Canonical s0 := canonical_ite (canonical_tickTake h) h
  have hs1 : Canonical s1 := hs0.frame (keep_keepJobs _ (.of_all rfl) (keep_setAni _ (.of_all rfl) (only_refl _ _)))
  refine canonical_ite ?_ ?_
  · have hs2 := hs1.frame (keep_setAni (fun a => { a with jobsUe := false }) (.of_all rfl) (only_refl _ _))
    exact canonical_ite (hs2.frame (keep_tickSkip _ (.of_all rfl) (only_refl _ _))) hs2
  · have hs2 := canonical_concordFrame n (hs1.frame (keep_evalRules n (.of_all rfl) (only_refl _ _)))
    exact canonical_ite (hs2.frame (keep_tickRun _ (.of_all rfl) (only_refl _ _))) hs2

theorem canonical_readyJobs (m : Nat) (h : Canonical s) : Canonical (readyJobs m s) :=
  have hs1 := canonical_tickTake h
  canonical_ite (hs1.frame (keep_tickSkip _ (.of_all rfl) (keep_setAni _ (.of_all rfl) (only_refl _ _))))
    (hs1.frame (keep_tickRun _ (.of_all rfl) (keep_keepJobs _ (.of_all rfl) (only_refl _ _))))

theorem canonical_memDown (kept : Bool) (h : Canonical s) : Canonical (memDown kept s) := h.of_ram rfl

theorem canonical_mainDown (kept : Bool) (h : Canonical s) : Canonical (mainDown kept s) :=
  canonical_ite h ((canonical_memDown kept (h.frame (keep_portsDown (.of_all rfl) (keep_timeDown (.of_all rfl)
    (keep_odaDown (.of_all rfl) (only_refl _ _)))))).frame (keep_mk_part _ (.of_all rfl) (keep_serializerDown
      (.of_all rfl)
    (keep_restartAnise (.of_all rfl) (keep_heatDown (.of_all rfl) (keep_limitsDown (.of_all rfl) (keep_engineDown
      (.of_all rfl)
    (keep_cardamomDown (.of_all rfl) (keep_barleyDown (.of_all rfl) (only_refl _ _))))))))))

theorem canonical_selfDown (why : Nat) (kept : Bool) (h : Canonical s) : Canonical (selfDown why kept s) := by
  unfold selfDown
  extract_lets x
  have stop : Canonical (startList sSelf .down (downAt x s.clk.cycles) (updSeq sSelf
      (fun y => { y with pgood := false, afterDown := why, retainDown := why == 2 })
      (setSeq sSelf .down (if x.pgood then mainDown kept s else s)))) :=
    (canonical_ite (canonical_mainDown _ h) h).frame (keep_startList _ _ _ (.of_all rfl) (keep_updSeq _ _ (.of_all
      rfl)
      (keep_setSeq _ _ (.of_all rfl) (only_refl _ _))))
  split
  · exact stop
  · exact stop
  · exact stop
  · exact canonical_ite (h.frame (keep_updSeq _ _ (.of_all rfl) (only_refl _ _)))
      (canonical_ite (h.frame (keep_updSeq _ _ (.of_all rfl) (only_refl _ _))) h)
  · exact h

theorem canonical_selfFault (code rail : Nat) (h : Canonical s) : Canonical (selfFault code rail s) := by
  unfold selfFault
  extract_lets x
  have stop (why : Nat) : Canonical (selfDown why true (raiseSeq .selfRailFault sSelf (countSelf code rail s))) :=
    canonical_selfDown _ _ (h.frame (keep_raiseSeq _ _ (.of_all rfl) (keep_countSelf _ _ (.of_all rfl) (only_refl _
      _))))
  refine canonical_ite ?_ (canonical_ite (canonical_selfDown _ _ h) h)
  split
  · exact stop _
  · exact stop _
  · exact stop _
  · exact h.frame (keep_raiseSeq _ _ (.of_all rfl) (only_ite (fun _ => keep_countSelf _ _ (.of_all rfl) (only_refl _
      _))
      (fun _ => only_refl _ _)))
  · exact h.frame (keep_raiseSeq _ _ (.of_all rfl) (only_refl _ _))

theorem canonical_powerOff (s : State) : Canonical (powerOff s) := rfl

theorem canonical_memAfterDown (h : Canonical s) : Canonical (memAfterDown s) := canonical_ite h (h.of_ram rfl)

theorem canonical_selfDownEnd (h : Canonical s) : Canonical (selfDownEnd s) := by
  unfold selfDownEnd
  extract_lets x why s1 s2 s3 s4
  have hs1 : Canonical s1 := canonical_memAfterDown (h.frame (keep_selfLow (.of_all rfl) (only_refl _ _)))
  have hs3 : Canonical s3 := hs1.frame (keep_partAfterDown _ (.of_all rfl) (keep_setSeq _ _ (.of_all rfl)
    (keep_updSeq _ _ (.of_all rfl) (only_refl _ _))))
  have hs4 : Canonical s4 := canonical_ite (hs3.frame (keep_b0Open (.of_all rfl) (only_refl _ _))) hs3
  exact canonical_ite (hs4.frame (keep_selfUp (.of_all rfl) (only_refl _ _))) hs4

theorem canonical_downEnds (q : Fin 9) (h : Canonical s) : Canonical (downEnds q s) := by
  unfold downEnds
  split
  · exact h.frame (keep_enterOffWait _ (.of_all rfl) (keep_dropDemand _ (.of_all rfl) (keep_updSeq _ _ (.of_all rfl)
      (only_refl _ _))))
  · exact canonical_selfDownEnd h

theorem canonical_seqFault (q : Fin 9) (code rail : Nat) (h : Canonical s) : Canonical (seqFault q code rail s) := by
  unfold seqFault
  split
  · exact h.frame (keep_trigger _ _ _ (.of_all rfl) (only_refl _ _))
  · exact canonical_selfFault _ _ h

theorem canonical_timedOut (q : Fin 9) (r : Fin 16) (up : Bool) (h : Canonical s) : Canonical (timedOut q r up s) :=
    by
  unfold timedOut
  split
  · exact canonical_seqFault _ _ _ (h.frame (keep_raiseRail _ _ _ (.of_all rfl) (only_refl _ _)))
  · exact h.frame (keep_stepDone _ (.of_all rfl) (only_ite (fun _ => keep_raiseRail _ _ _ (.of_all rfl) (only_refl _
      _))
      (fun _ => keep_noDischarge _ _ (.of_all rfl) (only_refl _ _))))
  · exact h.frame (keep_stepDone _ (.of_all rfl) (only_refl _ _))

theorem canonical_levelFault (q : Fin 9) (r : Fin 16) (l : Level) (h : Canonical s) : Canonical (levelFault q r l s)
    := by
  unfold levelFault
  extract_lets down
  have hcollapse : Canonical (collapse q r s) := h.frame (keep_collapse _ _ (.of_all rfl) (only_refl _ _))
  split
  · exact canonical_seqFault _ _ _ (h.frame (keep_raiseRail _ _ _ (.of_all rfl) (keep_updRail _ _ _ (.of_all rfl)
      (only_refl _ _))))
  · exact canonical_ite hcollapse (canonical_seqFault _ _ _ (h.frame (keep_raiseRail _ _ _ (.of_all rfl) (only_refl _
      _))))
  · exact canonical_ite hcollapse (canonical_seqFault _ _ _ (h.frame (keep_raiseRail _ _ _ (.of_all rfl)
      (keep_updRail _ _ _ (.of_all rfl) (only_refl _ _)))))

theorem canonical_shutDown (t : Rat) (kept : Bool) (h : Canonical s) : Canonical (shutDown t kept s) := by
  unfold shutDown
  extract_lets counts s1 s2 s3 s4
  have hs1 : Canonical s1 := h.frame (keep_raiseRye _ _ _ (.of_all rfl) (keep_setHeat _ (.of_all rfl) (only_refl _
    _)))
  have hs2 : Canonical s2 := canonical_ite (hs1.frame (keep_inc32 _ (.of_all rfl) (only_refl _ _))) hs1
  have hs4 : Canonical s4 := canonical_selfDown _ _ (canonical_mainDown _ (hs2.frame
    (keep_setHeat _ (.of_all rfl) (only_refl _ _))))
  exact canonical_ite hs4 (hs4.frame (keep_enterPart _ (.of_all rfl) (only_refl _ _)))

theorem canonical_abandonRestart (t : Rat) (kept : Bool) (h : Canonical s) : Canonical (abandonRestart t kept s) :=
  canonical_selfDown _ _ (h.frame (keep_raiseRye _ _ _ (.of_all rfl) (keep_setHeat _ (.of_all rfl) (only_refl _ _))))

end

section
variable {s : State}

/-! ### Bytes of memory and the registers behind a burst -/

theorem canonical_setMem {f : Mem → Mem} (hf : ∀ m, (f m).ram = m.ram) (h : Canonical s) : Canonical (setMem f s) :=
  h.of_ram (hf s.mem)

theorem canonical_clearPoison (a n : Nat) (h : Canonical s) : Canonical (clearPoison a n s) := by
  have drop (f : Nat → Bool) (k : Nat) :
      Canonical (incMax (setMem (fun m => { m with poison := m.poison.filter f }) s) Obj.memUeCount k u32) :=
    Canonical.frame (canonical_setMem (f := fun m => { m with poison := m.poison.filter f }) (fun _ => rfl) h)
      (keep_incMax _ _ _ (.of_all rfl) (only_refl _ _))
  unfold clearPoison
  split
  · exact drop _ _
  · exact drop _ _
  · exact h.frame (keep_updTile _ _ (.of_all rfl) (only_refl _ _))
  · exact h

theorem canonical_writeByte (a v : Nat) (h : Canonical s) : Canonical (writeByte a v s) := wf_writeByte a v s h

theorem canonical_memUe (a : Nat) (h : Canonical s) : Canonical (memUe a s) := by
  refine Canonical.frame ?_ (keep_routeIrq _ (.of_all rfl) (keep_raiseMain _ _ _ (.of_all rfl)
    (keep_setN _ _ (.of_all rfl) (keep_inc32 _ (.of_all rfl) (only_refl _ _)))))
  exact canonical_setMem (fun _ => rfl) h

theorem canonical_waitWrite (k off w : Nat) (h : Canonical s) : Canonical (waitWrite k off w s) :=
  canonical_ite (canonical_ite (canonical_tryFire _ (canonical_putSlot _ _ h)) (canonical_putSlot _ _ h))
    (canonical_ite (canonical_putSlot _ _ h) h)

theorem canonical_putPlain (b : Burst) (ws : List Nat) (h : Canonical s) : Canonical (putPlain b ws s) := by
  refine canonical_foldl _ (fun p u k => ?_) h
  extract_lets a
  split
  · exact canonical_ite (canonical_waitWrite _ _ _ k) (canonical_ite k (canonical_ite (canonical_signalCell _ _ k)
      (canonical_ite (canonical_setCell _ _ k) k)))
  · exact k

theorem canonical_spill (c : Fin 32) (b : Burst) (h : Canonical s) : Canonical (spill c b s) := by
  unfold spill
  extract_lets x bs s0 s1 s2
  have hs0 : Canonical s0 := canonical_ite (h.of_ram rfl) h
  have hs1 : Canonical s1 := by
    unfold s1
    split
    · exact hs0.frame (keep_updTile _ _ (.of_all rfl) (only_refl _ _))
    · exact hs0
  have hs2 : Canonical s2 := by
    unfold s2
    split
    · exact canonical_putPlain _ _ hs1
    · exact canonical_clearPoison _ _ (canonical_foldl _ (fun _ _ => canonical_writeByte _ _) hs1)
  exact hs2.frame (keep_milletBytes _ _ (.of_all rfl) (only_refl _ _))

theorem canonical_takeFree (w : Nat) (h : Canonical s) : Canonical (takeFree w s).2 :=
  h.frame (keep_takeFree _ (.of_all rfl) (only_refl _ _))

theorem canonical_dropChan (c : Fin 32) (h : Canonical s) : Canonical (dropChan c s) := by
  unfold dropChan
  extract_lets off s1
  refine canonical_ite ?_ (canonical_updDma _ _ h)
  have hs1 : Canonical s1 := canonical_forEach _ (fun b u k => by
    have hu := canonical_takeFree 1 k
    exact canonical_ite (canonical_spill _ _ hu) hu) h
  have hs2 := canonical_takeFree 64 hs1
  exact canonical_endRun _ (canonical_updDma _ _ (canonical_updDma _ _ (hs2.frame
    (only_forAll _ _ (fun _ _ => keep_updTile _ _ (.of_all rfl)) (only_refl _ _)))))

theorem canonical_dropFirmware (h : Canonical s) : Canonical (dropFirmware s) := by
  unfold dropFirmware
  extract_lets s1
  have hs1 : Canonical s1 := canonical_forAll 32 (fun c _ k => canonical_ite (canonical_dropChan c k) k) h
  exact canonical_setMem (fun _ => rfl) hs1

theorem canonical_haltChan (c : Fin 32) (addr : Nat) (dir : Bool) (entry cause : Nat) (h : Canonical s) :
    Canonical (haltChan c addr dir entry cause s) := by
  unfold haltChan
  extract_lets x s1 s2 s3
  have hs2 : Canonical s2 := (canonical_updDma c _ h).frame (keep_raiseMain _ _ _ (.of_all rfl)
    (keep_setN _ _ (.of_all rfl) (keep_inc32 _ (.of_all rfl) (only_refl _ _))))
  have hs3 : Canonical s3 := canonical_ite (hs2.frame (keep_raiseIrq _ _ (.of_all rfl) (only_refl _ _))) hs2
  exact canonical_ite (hs3.frame (keep_huskDenied _ _ (.of_all rfl) (only_refl _ _))) hs3

theorem canonical_goChan (c : Fin 32) (swap share compl srcList dstList srcCount dstCount : Nat) (src dst : List
    DmaEntry)
    (h : Canonical s) : Canonical (goChan c swap share compl srcList dstList srcCount dstCount src dst s) := by
  unfold goChan
  extract_lets s1
  have hs1 : Canonical s1 := canonical_updDma _ _ h
  split
  · exact canonical_startNext _ (canonical_updDma _ _ hs1)
  · exact canonical_haltChan _ _ _ _ _ hs1
  · exact canonical_haltChan _ _ _ _ _ (canonical_takeFree 64 hs1)

theorem canonical_ctrlWrite (c : Fin 32) (w : Nat) (h : Canonical s) : Canonical (ctrlWrite c w s) := by
  unfold ctrlWrite
  extract_lets st s1 s2 x
  have hs1 : Canonical s1 := canonical_updDma _ _ h
  have hs2 : Canonical s2 := canonical_updDma _ _ hs1
  exact canonical_ite (canonical_dropChan _ hs1) (canonical_ite (canonical_updDma _ _ hs2)
    (canonical_ite (canonical_goChan _ _ _ _ _ _ _ _ _ _ hs2) hs2))

theorem canonical_chanWrite (c : Fin 32) (off w : Nat) (h : Canonical s) : Canonical (chanWrite c off w s) :=
  canonical_ite (canonical_ctrlWrite _ _ h) (canonical_updDma _ _ h)

theorem canonical_putChan (b : Burst) (ws : List Nat) (h : Canonical s) : Canonical (putChan b ws s) := by
  refine canonical_foldl _ (fun p u k => ?_) h
  extract_lets a
  split
  · split
    · exact canonical_ite (canonical_chanWrite _ _ _ k) k
    · exact k
  · exact k

theorem canonical_moveBurst (c : Fin 32) (b : Burst) (h : Canonical s) : Canonical (moveBurst c b s) := by
  unfold moveBurst
  extract_lets bs s1
  have hs1 : Canonical s1 := canonical_spill _ _ h
  split
  · exact canonical_ite (canonical_putChan _ _ hs1) hs1
  · exact hs1

theorem canonical_reachBank (c : Fin 32) (a : Nat) (h : Canonical s) : Canonical (reachBank c a s) := by
  unfold reachBank
  split
  · exact h
  · extract_lets key n late s1 s2
    have hs2 : Canonical s2 := canonical_updDma _ _ (h.frame (keep_updTile _ _ (.of_all rfl) (only_refl _ _)))
    exact canonical_ite (hs2.frame (keep_raiseMain _ _ _ (.of_all rfl) (only_refl _ _))) hs2

theorem canonical_reachBanks (c : Fin 32) (b : Burst) (h : Canonical s) : Canonical (reachBanks c b s) :=
  canonical_reachBank _ _ (canonical_reachBank _ _ h)

theorem canonical_goBursts (c : Fin 32) (l : List Burst) (h : Canonical s) : Canonical (goBursts c l s) := by
  induction l generalizing s with
  | nil => exact h
  | cons b t ih => exact canonical_ite h (ih (canonical_updDma _ _ (canonical_moveBurst _ _ (canonical_reachBanks _ _
    h))))

theorem canonical_advance (c : Fin 32) (h : Canonical s) : Canonical (advance c s) :=
  (canonical_goBursts _ _ h).frame (keep_noteHold _ (.of_all rfl) (keep_paced _ (.of_all rfl) (only_refl _ _)))

theorem canonical_completeRun (c : Fin 32) (h : Canonical s) : Canonical (completeRun c s) := by
  unfold completeRun
  extract_lets x s1 s2
  have hs2 : Canonical s2 := (canonical_updDma c _ h).frame (keep_inc32 _ (.of_all rfl) (only_refl _ _))
  exact canonical_endRun _ (canonical_ite (hs2.frame (keep_raiseIrq _ _ (.of_all rfl) (only_refl _ _))) hs2)

/-! ### Requests passed to the firmware -/

theorem canonical_storeSram (a : Nat) (bs : List Byte) (h : Canonical s) : Canonical (storeSram a bs s) :=
  wf_storeSram a bs s h

theorem canonical_putEntry (r : FwReq) (h : Canonical s) : Canonical (putEntry r s) := by
  unfold putEntry
  extract_lets base val ty
  by_cases hlen : 32 < val.length
  · rw [if_pos hlen]
    exact canonical_storeSram _ _ (canonical_takeFree 30 h)
  · rw [if_neg hlen]
    exact canonical_storeSram _ _ h

theorem canonical_passFw (kind : Nat) (au : Auth) (place key : Nat) (v : Value) (h : Canonical s) :
    Canonical (passFw kind au place key v s).2 := by
  unfold passFw
  extract_lets tag s1 r s2 s3
  have hs2 : Canonical s2 := (canonical_putEntry _ (h.frame (keep_setOda _ (.of_all rfl) (only_refl _ _)))).frame
    (keep_setBar _ (.of_all rfl) (only_refl _ _))
  have hs3 : Canonical s3 := (canonical_signalCell _ _ hs2).frame (keep_routeIrq _ (.of_all rfl) (only_refl _ _))
  exact canonical_ite (canonical_signalCell _ _ hs3) hs3

theorem canonical_finish (p : Pending) (code : Nat) (h : Canonical s) : Canonical (finish p code s) :=
  h.frame (keep_finish _ _ (.of_all rfl) (only_refl _ _))

theorem canonical_park (p : Pending) (h : Canonical s) : Canonical (park p s) :=
  h.frame (keep_park _ (.of_all rfl) (only_refl _ _))

theorem canonical_passFront (p : Pending) (h : Canonical s) : Canonical (passFront p s) := by
  unfold passFront
  split
  · exact canonical_finish _ _ h
  · exact canonical_ite (canonical_park _ h) (canonical_park _ (canonical_passFw _ _ _ _ _ h))

theorem canonical_runItems (p : Pending) (l : List (Nat × Nat × Value)) (h : Canonical s) : Canonical (runItems p l
    s) := by
  induction l generalizing p with
  | nil => exact canonical_finish _ _ h
  | cons x t ih => exact canonical_ite (ih _) (canonical_ite (ih _) (canonical_passFront _ h))

theorem canonical_releaseOne (p : Pending) (h : Canonical s) : Canonical (releaseOne p s) := by
  unfold releaseOne
  extract_lets s1
  have hs1 : Canonical s1 := h.frame (keep_unpark _ (.of_all rfl) (only_refl _ _))
  refine canonical_ite (canonical_runItems _ _ hs1) (canonical_ite (canonical_finish _ _ hs1) ?_)
  split
  · exact canonical_finish _ _ hs1
  · exact canonical_ite (canonical_finish _ _ hs1) (canonical_passFront _ hs1)

theorem canonical_releaseSteps (h : Canonical s) : Canonical (releaseSteps s) :=
  canonical_forEach _ (fun _ _ => canonical_releaseOne _) (h.frame (keep_setBar _ (.of_all rfl) (only_refl _ _)))

/-! ### Restarts of the main die and of the firmware, and the update -/

theorem canonical_mainReset (why : Nat) (kept : Bool) (h : Canonical s) : Canonical (mainReset why kept s) := by
  unfold mainReset
  extract_lets s1 s2 p s3
  have hs3 : Canonical s3 := (canonical_mainDown kept h).frame (keep_mk_part _ (.of_all rfl) (keep_inc32 _ (.of_all
    rfl)
    (keep_raiseRye _ _ _ (.of_all rfl) (only_refl _ _))))
  exact canonical_ite h (canonical_ite hs3 (hs3.frame (keep_enterPart _ (.of_all rfl) (keep_mk_part _ (.of_all rfl)
    (only_refl _ _)))))

theorem canonical_fwDown (h : Canonical s) : Canonical (fwDown s) :=
  canonical_dropFirmware (h.frame (keep_abortFw (.of_all rfl) (keep_mk_part _ (.of_all rfl) (only_refl _ _))))

theorem canonical_restartFw (c : Fin 2) (cause : Nat) (h : Canonical s) : Canonical (restartFw c cause s) :=
  (canonical_fwDown h).frame (keep_noteDegraded (.of_all rfl) (keep_updCluster _ _ (.of_all rfl) (only_refl _ _)))

theorem canonical_handBack (h : Canonical s) : Canonical (handBack s) :=
  (canonical_fwDown (h.frame (keep_updCluster (ctrl s) (fun _ => Cluster.init) (.of_all rfl) (only_refl _ _)))).frame
    (keep_noteDegraded (.of_all rfl) (keep_measureFw _ _ (.of_all rfl) (keep_updError _ _ (.of_all rfl)
    (keep_moveIrqs (.of_all rfl) (keep_keepJournal (.of_all rfl) (keep_setBar _ (.of_all rfl)
    (keep_updCluster _ _ (.of_all rfl) (only_refl _ _))))))))

theorem canonical_trialFails (kept : Bool) (h : Canonical s) : Canonical (trialFails kept s) :=
  canonical_ite (canonical_mainReset _ _ (h.frame (keep_updError _ _ (.of_all rfl) (keep_dropUpdate (.of_all rfl)
    (keep_restoreSelector (.of_all rfl) (only_refl _ _)))))) (canonical_handBack h)

theorem canonical_abortUpdate (kept : Bool) (h : Canonical s) : Canonical (abortUpdate kept s) := by
  have dropped : Canonical (noteDegraded (updError .failed 0x00071508 (dropUpdate (otherOff (spoilSlot s))))) :=
    h.frame (keep_noteDegraded (.of_all rfl) (keep_updError _ _ (.of_all rfl) (keep_dropUpdate (.of_all rfl)
      (keep_otherOff (.of_all rfl) (keep_spoilSlot (.of_all rfl) (only_refl _ _))))))
  unfold abortUpdate
  split
  · exact dropped
  · exact dropped
  · exact dropped
  · exact dropped
  · exact dropped
  · exact h.frame (keep_noteDegraded (.of_all rfl) (keep_updError _ _ (.of_all rfl) (keep_dropUpdate (.of_all rfl)
      (keep_restoreSelector (.of_all rfl) (only_refl _ _)))))
  · exact canonical_ite h (canonical_trialFails _ h)
  · exact h

theorem canonical_takeOver (h : Canonical s) : Canonical (takeOver s) := by
  unfold takeOver
  extract_lets old new s1 s2 s3
  have hs3 : Canonical s3 := h.frame (keep_setN _ _ (.of_all rfl) (keep_setBar _ (.of_all rfl)
    (keep_updCluster _ _ (.of_all rfl) (keep_updCluster _ _ (.of_all rfl) (only_refl _ _)))))
  exact (canonical_releaseSteps (hs3.frame (keep_moveIrqs (.of_all rfl) (keep_setUpd _ (.of_all rfl) (only_refl _
    _))))).frame
    (keep_measureFw _ _ (.of_all rfl) (only_refl _ _))

theorem canonical_crashControl (c : Fin 2) (kept : Bool) (h : Canonical s) : Canonical (crashControl c kept s) := by
  unfold crashControl
  extract_lets s1
  have hs1 : Canonical s1 := h.frame (keep_countCrash _ (.of_all rfl) (only_refl _ _))
  refine canonical_ite (canonical_mainReset _ _ hs1) (canonical_ite (canonical_trialFails _ hs1) (canonical_ite ?_
    ?_))
  · exact canonical_releaseSteps (canonical_restartFw _ _ (hs1.frame (keep_updError _ _ (.of_all rfl)
      (keep_dropUpdate (.of_all rfl) (keep_otherOff (.of_all rfl) (only_refl _ _))))))
  · exact canonical_restartFw _ _ (hs1.frame (keep_crashEndsShadow (.of_all rfl) (only_refl _ _)))

theorem canonical_crashShadow (c : Fin 2) (kept : Bool) (h : Canonical s) : Canonical (crashShadow c kept s) := by
  unfold crashShadow
  extract_lets s1
  have hs1 : Canonical s1 := h.frame (keep_countCrash _ (.of_all rfl) (only_refl _ _))
  have hfail (code : Nat) : Canonical (failShadow code s1) := hs1.frame (keep_failShadow _ (.of_all rfl) (only_refl _
    _))
  refine canonical_ite (canonical_mainReset _ _ hs1) ?_
  split
  · exact hfail _
  · exact hfail _
  · exact hfail _
  · exact canonical_releaseSteps (hfail _)
  · exact hs1.frame (keep_otherOff (.of_all rfl) (only_refl _ _))

theorem canonical_warmRestart (h : Canonical s) : Canonical (warmRestart s) :=
  canonical_restartFw _ _ (h.frame (keep_crashEndsShadow (.of_all rfl) (only_refl _ _)))

theorem canonical_releaseFw (x : FwImage) (h : Canonical s) : Canonical (releaseFw x s) := by
  unfold releaseFw
  extract_lets k s0 s1 s2 s3 s4 due
  have hs0 : Canonical s0 := wf_filter _ _ h
  have hs4 : Canonical s4 := hs0.frame (keep_setPart _ (.of_all rfl) (keep_updCluster _ _ (.of_all rfl)
    (keep_setBar _ (.of_all rfl) (keep_logMeas _ _ _ (.of_all rfl) (keep_setSlot _ _ (.of_all rfl) (only_refl _
      _))))))
  exact canonical_ite (hs4.frame (keep_setUpd _ (.of_all rfl) (keep_setN _ _ (.of_all rfl)
    (keep_setBar _ (.of_all rfl) (only_refl _ _))))) hs4

theorem canonical_memEmpty (h : Canonical s) : Canonical (memEmpty s) := wf_filter s.mem _ h

theorem canonical_memLost (h : Canonical s) : Canonical (memLost s) :=
  (canonical_memEmpty (h.frame (keep_mapSess (fun _ x => if x.live then x.release else x) (.of_all rfl) (only_refl _
    _)))).frame
    (keep_raiseMain _ _ _ (.of_all rfl) (keep_raiseMain _ _ _ (.of_all rfl) (keep_setEng _ (.of_all rfl) (only_refl _
      _))))

theorem canonical_readyUp (h : Canonical s) : Canonical (readyUp s) := by
  unfold readyUp
  extract_lets lost s0 s0' s1 s2 s3
  have hs0 : Canonical s0 := h.frame (keep_serializerUp (.of_all rfl) (keep_setPart _ (.of_all rfl) (only_refl _ _)))
  have hs0' : Canonical s0' := canonical_ite (hs0.frame (keep_raiseMain _ _ _ (.of_all rfl) (only_refl _ _))) hs0
  have hs1 : Canonical s1 := hs0'.frame (only_forAll _ _ (fun _ _ => keep_startSb _ (.of_all rfl))
    (keep_startMacs (.of_all rfl) (keep_odaUp _ (.of_all rfl) (only_refl _ _))))
  have hs2 : Canonical s2 := canonical_ite hs1 (hs1.frame (keep_enterPart _ (.of_all rfl) (only_refl _ _)))
  have hs3 : Canonical s3 := canonical_ite ((canonical_memLost hs2).frame (keep_setPart _ (.of_all rfl) (only_refl _
    _))) hs2
  exact hs3.frame (keep_noteDegraded (.of_all rfl) (keep_settleLevel (.of_all rfl) (keep_recomputeCaps (.of_all rfl)
    (only_refl _ _))))

/-! ### Dictionary writes -/

/-- Where an effect is chosen, it leaves the memory canonical. -/
def CanonicalIfSome (o : Option State) : Prop := ∀ t, o = some t → Canonical t

theorem CanonicalIfSome.branch {c : Prop} [Decidable c] {t : State} {o : Option State} (ht : Canonical t)
    (ho : CanonicalIfSome o) : CanonicalIfSome (if c then some t else o) := fun _ e => by
  rcases some_or e with rfl | e
  · exact ht
  · exact ho _ e

theorem CanonicalIfSome.none : CanonicalIfSome none := fun _ e => nomatch e

theorem canonical_onFin {n : Nat} (k : Nat) {f : Fin n → State} (hf : ∀ i, Canonical (f i)) (h : Canonical s) :
    Canonical (onFin n k f s) := by
  unfold onFin
  split
  · exact hf _
  · exact h

theorem canonical_storeValue (key : Nat) (v : Value) (h : Canonical s) : Canonical (storeValue key v s) :=
  h.frame (keep_storeValue _ _ (.of_all rfl) (only_refl _ _))

theorem canonical_engineWrite (au : Auth) (key : Nat) (v : Value) (c : Count) (h : Canonical s) :
    CanonicalIfSome (engineWrite au key v c s) := by
  unfold engineWrite
  extract_lets idx sub n bs
  refine .branch (h.frame (keep_timeSourceEffect _ _ (.of_all rfl) (only_refl _ _))) ?_
  refine .branch (h.frame (keep_timeSetEffect _ _ (.of_all rfl) (only_refl _ _))) ?_
  refine .branch (h.frame (keep_ptpProfileEffect _ _ (.of_all rfl) (only_refl _ _))) ?_
  refine .branch (h.frame (keep_launchEffect _ _ (.of_all rfl) (only_refl _ _))) ?_
  refine .branch (canonical_frameStopEffect _ _ h) ?_
  refine .branch (canonical_onFin _ (fun t => canonical_ite (canonical_tileFails _ (canonical_storeValue _ _ h))
    (canonical_ite ((canonical_storeValue _ _ h).frame (keep_retestTile _ (.of_all rfl) (only_refl _ _)))
    (canonical_storeValue _ _ h))) h) ?_
  refine .branch (canonical_ite (h.frame (keep_freezeRing (.of_all rfl) (only_refl _ _)))
    (h.frame (keep_resumeRing (.of_all rfl) (only_refl _ _)))) ?_
  refine .branch (h.frame (keep_longCaptureEffect _ _ (.of_all rfl) (only_refl _ _))) ?_
  refine .branch ((canonical_storeValue _ _ h).frame (keep_replayInputEffect _ (.of_all rfl) (only_refl _ _))) ?_
  refine .branch (canonical_replayCtrlEffect _ h) ?_
  refine .branch (canonical_onFin _ (fun _ => h.frame (keep_imageEffect _ _ _ (.of_all rfl) (only_refl _ _))) h) ?_
  refine .branch (canonical_ite (h.frame (keep_unarm (.of_all rfl) (only_refl _ _)))
    (canonical_onFin _ (fun _ => canonical_armEffect _ _ h) h)) ?_
  refine .branch (canonical_onFin _ (fun _ => canonical_ite
    ((canonical_storeValue _ _ h).frame (keep_domainLost _ (.of_all rfl) (only_refl _ _)))
    (h.frame (keep_domainClear _ (.of_all rfl) (only_refl _ _)))) h) ?_
  refine .branch (h.frame (keep_modelEffect _ _ _ (.of_all rfl) (only_refl _ _))) ?_
  refine .branch (canonical_codebookEffect _ _ _ h) ?_
  refine .branch (canonical_descEffect _ _ _ _ h) ?_
  refine .branch (h.frame (keep_programEffect _ _ (.of_all rfl) (only_refl _ _))) ?_
  refine .branch (canonical_onFin _ (fun _ => h.frame (keep_antEnableEffect _ _ _ (.of_all rfl) (only_refl _ _))) h)
    ?_
  exact .branch ((canonical_storeValue _ _ h).frame (keep_evalTarget _ (.of_all rfl) (only_refl _ _))) .none

theorem canonical_setReq (au : Auth) (a : Fin 8) (v : Nat) (h : Canonical s) : Canonical (setReq au a v s) :=
  h.frame (keep_setReq _ _ _ (.of_all rfl) (only_refl _ _))

theorem canonical_ryeWrite (key : Nat) (v : Value) (kept : Bool) (c : Count) (h : Canonical s) :
    CanonicalIfSome (ryeWrite key v kept c s) := by
  unfold ryeWrite
  extract_lets idx sub n bs
  have hv := canonical_storeValue key v h
  refine .branch (h.frame (keep_branchEffect _ _ _ _ _ (.of_all rfl) (only_refl _ _))) ?_
  refine .branch (h.frame (keep_railEffect _ _ (.of_all rfl) (only_refl _ _))) ?_
  refine .branch (h.frame (only_forEach _ _ (fun _ _ => keep_applyDw _ (.of_all rfl)) (only_refl _ _))) ?_
  refine .branch (h.frame (keep_peakReset _ (.of_all rfl) (only_refl _ _))) ?_
  refine .branch (hv.frame (keep_settleLevel (.of_all rfl) (only_refl _ _))) ?_
  refine .branch (hv.frame (keep_recomputeCaps (.of_all rfl) (only_refl _ _))) ?_
  refine .branch (h.frame (keep_coolingEffect _ _ (.of_all rfl) (only_refl _ _))) ?_
  refine .branch (canonical_onFin _ (fun _ => hv.frame (keep_enableLeak _ (.of_all rfl) (only_refl _ _))) h) ?_
  refine .branch (canonical_onFin _ (fun _ => h.frame (keep_clearZone _ _ (.of_all rfl) (only_refl _ _))) h) ?_
  refine .branch (canonical_ite (canonical_mainReset _ _ h) (canonical_warmRestart h)) ?_
  refine .branch (canonical_onFin _ (fun _ => canonical_setReq _ _ _ h) h) ?_
  refine .branch (canonical_onFin _ (fun _ => canonical_setReq _ _ _ h) h) ?_
  refine .branch (canonical_onFin _ (fun _ => canonical_setReq _ _ _ h) h) ?_
  refine .branch (canonical_onFin _ (fun _ => h.frame (keep_releaseQuar _ (.of_all rfl) (only_refl _ _))) h) ?_
  exact .branch (hv.frame (keep_recomputeCaps (.of_all rfl) (only_refl _ _))) .none

theorem canonical_sideWrite (sess key : Nat) (v : Value) (kept : Bool) (c : Count) (h : Canonical s) :
    CanonicalIfSome (sideWrite sess key v kept c s) := by
  unfold sideWrite
  extract_lets idx sub n bs
  refine .branch (canonical_onFin _ (fun _ => h.frame (keep_portModeEffect _ _ (.of_all rfl) (only_refl _ _))) h) ?_
  refine .branch (canonical_onFin _ (fun _ => h.frame (keep_gateListEffect _ _ _ (.of_all rfl) (only_refl _ _))) h) ?_
  refine .branch (canonical_onFin _ (fun _ => h.frame (keep_sbModeEffect _ _ (.of_all rfl) (only_refl _ _))) h) ?_
  refine .branch (canonical_onFin _ (fun _ => h.frame (keep_macsecKey _ _ (.of_all rfl) (only_refl _ _))) h) ?_
  refine .branch (canonical_onFin _ (fun _ => h.frame (keep_switchAtEffect _ _ (.of_all rfl) (only_refl _ _))) h) ?_
  refine .branch (h.frame (keep_keyCmdEffect _ (.of_all rfl) (only_refl _ _))) ?_
  refine .branch (h.frame (keep_ownerReset (.of_all rfl) (only_refl _ _))) ?_
  refine .branch (h.frame (keep_secNumEffect _ _ (.of_all rfl) (only_refl _ _))) ?_
  refine .branch (h.frame (keep_raiseEffect _ (.of_all rfl) (only_refl _ _))) ?_
  refine .branch (h.frame (keep_quoteEffect _ _ _ (.of_all rfl) (only_refl _ _))) ?_
  refine .branch (h.frame (keep_clearRecorder _ (.of_all rfl) (only_refl _ _))) ?_
  refine .branch (h.frame (keep_codeRateEffect _ _ (.of_all rfl) (only_refl _ _))) ?_
  refine .branch (canonical_onFin _ (fun _ => h.frame (keep_peSerialEffect _ _ _ (.of_all rfl) (only_refl _ _))) h) ?_
  refine .branch (canonical_ite (canonical_abortUpdate _ h)
    (h.frame (keep_confirmUpdate (.of_all rfl) (only_refl _ _)))) ?_
  exact .branch (h.frame (keep_startUpdate _ (.of_all rfl) (only_refl _ _))) .none

theorem canonical_writeEffect (au : Auth) (sess key : Nat) (v : Value) (kept : Bool) (c : Count) (h : Canonical s) :
    Canonical (writeEffect au sess key v kept c s) := by
  unfold writeEffect
  split
  · exact canonical_engineWrite _ _ _ _ h _ ‹_›
  · split
    · exact canonical_ryeWrite _ _ _ _ h _ ‹_›
    · split
      · exact canonical_sideWrite _ _ _ _ _ h _ ‹_›
      · exact canonical_storeValue _ _ h

theorem canonical_keptFor (key : Nat) (h : Canonical s) : Canonical (keptFor key s).2 :=
  h.frame (keep_keptFor _ (.of_all rfl) (only_refl _ _))

theorem canonical_applyStep (p : Pending) (key : Nat) (v : Value) (h : Canonical s) : Canonical (applyStep p key v
    s).2 :=
  (canonical_writeEffect _ _ _ _ _ _ ((canonical_keptFor key (h.frame (keep_mk_clk _ (.of_all rfl) (only_refl _
    _)))).frame
    (keep_countStep _ _ _ (.of_all rfl) (only_refl _ _)))).frame (keep_noteDegraded (.of_all rfl) (only_refl _ _))

theorem canonical_runSteps (p : Pending) (l : List (Nat × Nat × Value)) (h : Canonical s) : Canonical (runSteps p l
    s) := by
  induction l generalizing p s with
  | nil => exact canonical_finish _ _ h
  | cons x t ih =>
    obtain ⟨key, ty, v⟩ := x
    have happlied := canonical_applyStep p key v h
    unfold runSteps
    split
    · exact canonical_finish _ _ h
    · refine canonical_ite (canonical_park _ h) (canonical_ite ?_ (canonical_ite ?_ (canonical_ite (canonical_park _
        h) ?_)))
      · exact canonical_ite (canonical_finish _ _ h) (canonical_passFront _ h)
      · exact canonical_finish _ _ (h.frame (keep_stepRefused _ _ _ _ _ (.of_all rfl) (only_refl _ _)))
      · exact canonical_ite (ih _ happlied) happlied

theorem canonical_readGo (key ty : Nat) (p : Pending) (h : Canonical s) : Canonical (readGo key ty p s) :=
  canonical_ite (canonical_finish _ _ h) (canonical_ite (canonical_passFront _ h)
    (canonical_ite (canonical_finish _ _ h) (canonical_finish _ _ h)))

theorem canonical_multiGo (items : List (Nat × Nat)) (p : Pending) (h : Canonical s) : Canonical (multiGo items p s)
    :=
  canonical_runItems _ _ h

theorem canonical_advanceOne (p : Pending) (h : Canonical s) : Canonical (advanceOne p s) := by
  unfold advanceOne
  split
  · exact canonical_ite h (canonical_runSteps _ _ (h.frame (keep_unpark _ (.of_all rfl) (only_refl _ _))))
  · exact h

theorem canonical_goOn (h : Canonical s) : Canonical (goOn s) := canonical_forEach _ (fun _ _ => canonical_advanceOne
    _) h

theorem canonical_landEffect (p : Pending) (key : Nat) (v : Value) (c : Count) (h : Canonical s) :
    Canonical (landEffect p key v c s) := by
  unfold landEffect
  split
  · exact canonical_ryeWrite _ _ _ _ h _ ‹_›
  · exact canonical_ite (canonical_writeEffect _ _ _ _ _ _ h) (canonical_storeValue _ _ h)

theorem canonical_land (ok : Bool) (p : Pending) (h : Canonical s) : Canonical (land ok p s) := by
  unfold land
  extract_lets s1
  have hs1 : Canonical s1 := h.frame (keep_setOda _ (.of_all rfl) (only_refl _ _))
  have hstop : Canonical (interruptTxn p.place p.txn s1) := hs1.frame (keep_interruptTxn _ _ (.of_all rfl) (only_refl
    _ _))
  split
  · refine canonical_ite ?_ hstop
    exact (canonical_landEffect _ _ _ _ (hs1.frame (keep_countStep _ _ _ (.of_all rfl) (keep_mk_clk _ (.of_all rfl)
      (only_refl _ _))))).frame (keep_interruptTxn _ _ (.of_all rfl) (keep_noteDegraded (.of_all rfl) (only_refl _
        _)))
  · exact hstop

theorem canonical_idle (h : Canonical s) : Canonical (idle s) :=
  canonical_ite (canonical_goOn (h.frame (keep_fabricCycle (.of_all rfl) (only_refl _ _)))) h

theorem canonical_readStartGo (key ty sel : Nat) (p : Pending) (h : Canonical s) : Canonical (readStartGo key ty sel
    p s) :=
  have hf (code : Nat) : Canonical (finish p code s) := canonical_finish _ _ h
  canonical_ite (hf _) (canonical_ite (hf _) (canonical_ite (hf _) (canonical_ite (hf _) (canonical_ite (hf _)
    (canonical_ite (canonical_passFront _ h) (h.frame (keep_startRead _ _ _ (.of_all rfl) (only_refl _ _))))))))

theorem canonical_writeEndGo (blk crc : Nat) (p : Pending) (h : Canonical s) : Canonical (writeEndGo blk crc p s) :=
    by
  unfold writeEndGo
  split
  · exact canonical_finish _ _ h
  · refine canonical_ite (canonical_finish _ _ h) ?_
    extract_lets bs s1
    have hs1 : Canonical s1 := h.frame (keep_endBlock _ _ (.of_all rfl) (only_refl _ _))
    exact canonical_ite (canonical_finish _ _ hs1) (canonical_runSteps _ _ hs1)

theorem canonical_request {n txn op steps : Nat} {body : ReqBody} {formOk recorded inLedger : Bool}
    {go : Pending → State → State} (hgo : ∀ p u, Canonical u → Canonical (go p u)) (h : Canonical s) :
    Canonical (request n txn op steps body formOk recorded inLedger go s) := by
  have hbare (a : Answer) : Canonical (answerBare a s) := h.frame (keep_answerBare _ (.of_all rfl) (only_refl _ _))
  unfold request
  refine canonical_ite h (canonical_ite (hbare _) ?_)
  split
  · exact hbare _
  · extract_lets s1 p
    have hs1 : Canonical s1 := h.frame (keep_setOda _ (.of_all rfl) (keep_touch _ (.of_all rfl) (only_refl _ _)))
    have hanswer (a : Answer) : Canonical (respond n a s1) := hs1.frame (keep_respond _ _ (.of_all rfl) (only_refl _
      _))
    have hcounted (o : Obj) (a : Answer) : Canonical (respond n a (inc32 s1 o)) :=
      hs1.frame (keep_respond _ _ (.of_all rfl) (keep_inc32 _ (.of_all rfl) (only_refl _ _)))
    refine canonical_ite (hcounted _ _) (canonical_ite (hcounted _ _) (canonical_ite (hgo _ _ hs1) ?_))
    split
    · exact hanswer _
    · exact hs1
    · exact hanswer _
    · exact hanswer _
    · exact hgo _ _ (hs1.frame (keep_beginTxn _ _ _ _ _ _ (.of_all rfl) (only_refl _ _)))

theorem canonical_bareRequest {txn : Nat} {go : State → State} (hgo : ∀ u, Canonical u → Canonical (go u))
    (h : Canonical s) : Canonical (bareRequest txn go s) :=
  canonical_ite (h.frame (keep_answerBare _ (.of_all rfl) (keep_inc32 _ (.of_all rfl) (only_refl _ _)))) (hgo _ h)

theorem canonical_writeStep {au : Auth} {key : Nat} {v : Value} {home : State → Nat} {eff : Count → State → State}
    (heff : ∀ c u, Canonical u → Canonical (eff c u)) (h : Canonical s) : Canonical (writeStep au key v home eff s)
      := by
  have hrefused (code : Nat) : Canonical (refuse code s) := h.frame (keep_refuse _ (.of_all rfl) (only_refl _ _))
  unfold writeStep accept
  refine canonical_ite h (canonical_ite (hrefused _) (canonical_ite (hrefused _) ?_))
  exact heff _ _ (h.of_ram rfl)

end

section
variable {s : State}

theorem canonical_noteDegraded (h : Canonical s) : Canonical (noteDegraded s) :=
  h.frame (keep_noteDegraded (.of_all rfl) (only_refl _ _))

theorem endsIn_canonical_writeStep {au : Auth} {key : Nat} {v : Value} {home : State → Nat} {eff : Count → State →
    State}
    (he : ∀ c u, Canonical u → Canonical (eff c u)) (h : Canonical s) :
    EndsIn Canonical (.next (writeStep au key v home eff s)) :=
  .next (canonical_writeStep he h)

theorem endsIn_canonical_request {n txn op steps : Nat} {body : ReqBody} {formOk recorded inLedger : Bool}
    {go : Pending → State → State} (hgo : ∀ p u, Canonical u → Canonical (go p u)) (h : Canonical s) :
    EndsIn Canonical (.next (request n txn op steps body formOk recorded inLedger go s)) :=
  .next (canonical_request hgo h)

theorem canonical_writeDesc (au : Auth) (n : Nat) (d : Desc) (fieldsOk : Bool) (h : Canonical s) :
    Canonical (writeDesc au n d fieldsOk s) := by
  have hrefused (code : Nat) : Canonical (refuse code s) := h.frame (keep_refuse _ (.of_all rfl) (only_refl _ _))
  unfold writeDesc accept
  extract_lets key pre c s1
  refine canonical_ite h (canonical_ite ?_ (canonical_ite (hrefused _) (canonical_ite ?_ ?_)))
  · exact h.frame (keep_refuse _ (.of_all rfl) (keep_updSess _ _ (.of_all rfl) (only_refl _ _)))
  · exact h.frame (keep_descRefused _ _ _ (.of_all rfl) (only_refl _ _))
  · exact canonical_descEffect _ _ _ _ (h.of_ram rfl)

theorem canonical_handover {c : Fin 2} {role : Role} {st : UpdState} {more : Bool} {f : State → State}
    (hf : ∀ u, Canonical u → Canonical (f u)) (h : Canonical s) : Canonical (handover c role st more f s) :=
  canonical_ite h (canonical_ite (hf _ (h.frame (keep_routeIrq _ (.of_all rfl) (only_refl _ _))))
    (h.frame (keep_ignored (.of_all rfl) (only_refl _ _))))

theorem execHoldupEnd_canonical (torn : Torn) (h : Canonical s) : EndsIn Canonical (execHoldupEnd torn s) :=
  .ite (.next (canonical_powerOff _)) (.next h)

theorem execVinLowSelfDown_canonical (h : Canonical s) : EndsIn Canonical (execVinLowSelfDown s) := by
  unfold execVinLowSelfDown
  refine .noted (fun _ => canonical_noteDegraded) ?_
  refine .ite ?_ (.ite (.next (canonical_selfDown _ _ (h.frame (keep_standsFrom _ _ (.of_all rfl) (only_refl _ _)))))
    (.next h))
  refine .ite ?_ (.next h)
  extract_lets +onlyGivenNames s0
  have hs0 : Canonical s0 := h.frame (keep_tickTo _ (.of_all rfl) (only_refl _ _))
  exact .ite (.next (hs0.frame (keep_b0Open (.of_all rfl) (only_refl _ _)))) (.next (canonical_selfDown _ _ hs0))

theorem execFirmwareStreamDone_canonical (read : Option (List Byte)) (h : Canonical s) :
    EndsIn Canonical (execFirmwareStreamDone read s) := by
  unfold execFirmwareStreamDone
  refine .noted (fun _ => canonical_noteDegraded) ?_
  refine .ite (.next h) ?_
  split
  · exact .next (h.frame (keep_slotFails (.of_all rfl) (only_refl _ _)))
  · refine .ite (.next (h.frame (keep_slotFails (.of_all rfl) (only_refl _ _)))) ?_
    exact .ite (.next (h.frame (keep_bootFails (.of_all rfl) (only_refl _ _)))) (.next (canonical_releaseFw _ h))

theorem execLpddr4xTrainingDone_canonical (ok : Bool) (h : Canonical s) :
    EndsIn Canonical (execLpddr4xTrainingDone ok s) := by
  unfold execLpddr4xTrainingDone
  refine .ite (.next h) (.next (Canonical.frame ?_ (keep_setPart _ (.of_all rfl) (only_refl _ _))))
  exact canonical_setMem (fun _ => rfl) (canonical_ite h (canonical_memEmpty h))

theorem execPartReady_canonical (h : Canonical s) : EndsIn Canonical (execPartReady s) :=
  .ite (.next h) (.next (canonical_readyUp h))

theorem execTileSelfTestDone_canonical (t : Fin 68) (pass : Bool) (h : Canonical s) :
    EndsIn Canonical (execTileSelfTestDone t pass s) := by
  unfold execTileSelfTestDone
  refine .ite (.next h) ?_
  refine .ite (.next (canonical_tested _ _ h)) ?_
  refine .ite (.next (canonical_tested _ _ h)) ?_
  refine .ite (.next (Canonical.frame (canonical_tested _ _ (h.frame (keep_markFailed _ (.of_all rfl) (only_refl _
    _)))) (keep_noteDegraded (.of_all rfl) (only_refl _ _)))) ?_
  exact .next (Canonical.frame (canonical_tested _ _ (h.frame (keep_gateTile _ _ (.of_all rfl) (only_refl _ _))))
    (keep_noteDegraded (.of_all rfl) (only_refl _ _)))

theorem execFrameStopAt_canonical (au : Auth) (v : Nat) (h : Canonical s) :
    EndsIn Canonical (execFrameStopAt au v s) :=
  .next (Canonical.frame (canonical_writeStep (fun _ _ => canonical_frameStopEffect _ _) h) (keep_noteDegraded
    (.of_all rfl) (only_refl _ _)))

theorem execLaunch_canonical (h : Canonical s) : EndsIn Canonical (execLaunch s) := by
  unfold execLaunch
  refine .ite (.next h) ?_
  extract_lets +onlyGivenNames s1
  have hs1 : Canonical s1 := h.frame (keep_reachCount _ (.of_all rfl) (only_refl _ _))
  refine .ite (.next (Canonical.frame (canonical_newNumbers (canonical_leaveReplay hs1)) (keep_noteDegraded (.of_all
    rfl) (keep_enterRun (.of_all rfl) (only_refl _ _))))) ?_
  exact .next (hs1.frame (keep_missLaunch (.of_all rfl) (only_refl _ _)))

theorem execFrameStart_canonical (h : Canonical s) : EndsIn Canonical (execFrameStart s) := by
  unfold execFrameStart
  split
  · exact .next h
  · refine .ite (.next h) ?_
    extract_lets +onlyGivenNames s1
    have hs1 : Canonical s1 := h.frame (keep_reachCount _ (.of_all rfl) (only_refl _ _))
    exact .next (Canonical.frame (canonical_ite (canonical_runFrame _ hs1) (canonical_skipFrame _ hs1))
      (keep_noteDegraded (.of_all rfl) (only_refl _ _)))

theorem execP0Emit_canonical (h : Canonical s) : EndsIn Canonical (execP0Emit s) := by
  unfold execP0Emit
  refine .ite (.next h) ?_
  exact .next (canonical_signalCell _ _ (Canonical.frame (canonical_atP0Emit h) (keep_setEng _ (.of_all rfl)
    (keep_notePresent (.of_all rfl) (only_forEach _ _ (fun _ _ => keep_emitIdle _ _ (.of_all rfl)) (only_forEach _ _
    (fun _ _ => keep_emitOne _ _ _ (.of_all rfl)) (only_refl _ _)))))))

theorem execMainEmit_canonical (h : Canonical s) : EndsIn Canonical (execMainEmit s) := by
  unfold execMainEmit
  refine .ite (.next h) ?_
  exact .next (Canonical.frame (canonical_endFrame _ (canonical_runTo _ (canonical_signalCell _ _ (Canonical.frame
    (canonical_atMainEmit h) (keep_setEng _ (.of_all rfl) (only_forEach _ _ (fun _ _ => keep_publish _ _ (.of_all
    rfl)) (only_forEach _ _ (fun _ _ => keep_emitOne _ _ _ (.of_all rfl)) (only_refl _ _)))))))) (keep_noteDegraded
    (.of_all rfl) (only_refl _ _)))

theorem execCheckpointCommit_canonical (h : Canonical s) : EndsIn Canonical (execCheckpointCommit s) :=
  .noted (fun _ => canonical_noteDegraded) (.next (canonical_commitCkpt h))

theorem execEngineRejoin_canonical (h : Canonical s) : EndsIn Canonical (execEngineRejoin s) := by
  unfold execEngineRejoin
  refine .ite (.next h) ?_
  refine .ite (.next (h.frame (keep_clearLaunch (.of_all rfl) (keep_countSkipped _ (.of_all rfl) (only_refl _ _)))))
    ?_
  refine .ite (.next (h.frame (keep_clearLaunch (.of_all rfl) (keep_missLaunch (.of_all rfl) (keep_reachCount _
    (.of_all rfl) (keep_countSkipped _ (.of_all rfl) (only_refl _ _))))))) ?_
  exact .next (Canonical.frame (canonical_readyRejoin _ h) (keep_noteDegraded (.of_all rfl) (keep_mk_part _ (.of_all
    rfl) (keep_enterRun (.of_all rfl) (keep_reachCount _ (.of_all rfl) (keep_cutoffFrame (.of_all rfl)
    (keep_reachCount _ (.of_all rfl) (only_refl _ _))))))))

theorem execCheckpointRestoreDone_canonical (lostNew lostOld : Bool) (badNew badOld : List Nat) (h : Canonical s) :
    EndsIn Canonical (execCheckpointRestoreDone lostNew lostOld badNew badOld s) := by
  unfold execCheckpointRestoreDone
  refine .noted (fun _ => canonical_noteDegraded) ?_
  refine .ite (.next h) ?_
  extract_lets +onlyGivenNames s1
  have hs1 : Canonical s1 := h.frame (keep_dropHeaders _ _ (.of_all rfl) (only_refl _ _))
  split
  · exact .next (hs1.frame (keep_mk_part _ (.of_all rfl) (keep_raiseMain _ _ _ (.of_all rfl) (keep_mapSess _ (.of_all
      rfl) (only_refl _ _)))))
  · exact .next (Canonical.frame (canonical_restoreTable _ _ (hs1.frame (only_forEach _ _ (fun _ _ => keep_raiseMain
      _ _ _ (.of_all rfl)) (only_refl _ _)))) (keep_mk_part _ (.of_all rfl) (keep_restoreRecords _ _ (.of_all rfl)
      (only_refl _ _))))

theorem execCorrectedError_canonical (t : Fin 68) (h : Canonical s) : EndsIn Canonical (execCorrectedError t s) := by
  unfold execCorrectedError
  extract_lets +onlyGivenNames s1 at_ s2
  have hs2 : Canonical s2 := h.frame (keep_updTile _ _ (.of_all rfl) (keep_inc32 _ (.of_all rfl) (only_refl _ _)))
  exact .next (canonical_ite (canonical_tileFails _ hs2) hs2)

theorem execUncorrectableWord_canonical (t : Fin 68) (offset : Nat) (beat bundle : Bool) (h : Canonical s) :
    EndsIn Canonical (execUncorrectableWord t offset beat bundle s) := by
  unfold execUncorrectableWord
  extract_lets +onlyGivenNames n near s1 hit s2 s3 s4 s5
  have hs4 : Canonical s4 := h.frame (keep_ringTrigger _ (.of_all rfl) (only_forEach _ _ (fun _ _ => keep_hitSession
    _ _ (.of_all rfl)) (keep_markUncorrectable (.of_all rfl) (keep_markError _ _ _ _ (.of_all rfl) (keep_updTile _ _
    (.of_all rfl) (keep_inc32 _ (.of_all rfl) (only_refl _ _)))))))
  have hs5 : Canonical s5 := Canonical.frame (canonical_ite hs4 (canonical_tileFails _ hs4)) (keep_raiseMain _ _ _
    (.of_all rfl) (only_refl _ _))
  exact .next (Canonical.frame (canonical_ite (hs5.frame (keep_beatCheck _ (.of_all rfl) (only_refl _ _))) hs5)
    (keep_noteDegraded (.of_all rfl) (only_refl _ _)))

theorem execTileRetiredSet_canonical (au : Auth) (t : Fin 68) (h : Canonical s) :
    EndsIn Canonical (execTileRetiredSet au t s) :=
  .noted (fun _ => canonical_noteDegraded) (endsIn_canonical_writeStep (fun _ _ h => canonical_tileFails _ (h.frame
    (keep_storeNum _ _ (.of_all rfl) (only_refl _ _)))) h)

theorem execStagingTimeout_canonical (t : Fin 68) (h : Canonical s) : EndsIn Canonical (execStagingTimeout t s) := by
  unfold execStagingTimeout
  split
  · exact .next h
  · extract_lets +onlyGivenNames s1
    have hs1 : Canonical s1 := canonical_advance _ (h.frame (keep_tickTo _ (.of_all rfl) (only_refl _ _)))
    split
    · exact .next hs1
    · split
      · exact .ite (.next (canonical_endRun _ (canonical_haltChan _ _ _ _ _ (hs1.frame (keep_updTile _ _ (.of_all
          rfl) (only_refl _ _)))))) (.next hs1)
      · exact .next hs1

theorem execSessionOpenRequest_canonical (au : Auth) (n : Fin 10240) (d : Desc) (h : Canonical s) :
    EndsIn Canonical (execSessionOpenRequest au n d s) :=
  .next (canonical_writeDesc _ _ _ _ h)

theorem execSessionCloseRequest_canonical (au : Auth) (n : Fin 10240) (d : Desc) (h : Canonical s) :
    EndsIn Canonical (execSessionCloseRequest au n d s) :=
  .next (canonical_writeDesc _ _ _ _ h)

theorem execModelLoadDone_canonical (done : Bool) (h : Canonical s) :
    EndsIn Canonical (execModelLoadDone done s) := by
  unfold execModelLoadDone
  split
  · exact .next h
  · refine .ite (.next h) ?_
    refine .ite (.next h) ?_
    extract_lets +onlyGivenNames next s0 _ s1
    have hs0 : Canonical s0 := canonical_ite (canonical_seqFinish _ h) (canonical_seqHalt _ _ h)
    have hs1 : Canonical s1 := by
      unfold s1
      split
      · exact hs0.frame (keep_mk_eng _ (.of_all rfl) (only_refl _ _))
      · exact canonical_seqStart _ _ (hs0.frame (keep_mk_eng _ (.of_all rfl) (only_refl _ _)))
    refine .ite (.next (hs1.frame (keep_mapSess _ (.of_all rfl) (only_forEach _ _ (fun _ _ h => keep_placeWeights _ _
      (.of_all rfl) (keep_fillSlot _ _ (.of_all rfl) h)) (only_refl _ _))))) ?_
    exact .next (hs1.frame (only_forEach _ _ (fun _ _ h => keep_raiseMain _ _ _ (.of_all rfl) (keep_updSess _ _
      (.of_all rfl) h)) (only_forEach _ _ (fun _ _ h => keep_raiseMain _ _ _ (.of_all rfl) (keep_updSess _ _ (.of_all
      rfl) h)) (only_refl _ _))))

theorem execCodebookWrite_canonical (au : Auth) (c : Fin 4096) (bytes : List Byte) (h : Canonical s) :
    EndsIn Canonical (execCodebookWrite au c bytes s) :=
  endsIn_canonical_writeStep (fun _ _ => canonical_codebookEffect _ _ _) h

theorem execReplayStart_canonical (au : Auth) (h : Canonical s) : EndsIn Canonical (execReplayStart au s) :=
  endsIn_canonical_writeStep (fun _ _ => canonical_replayCtrlEffect _) h

theorem execReplayAbort_canonical (au : Auth) (h : Canonical s) : EndsIn Canonical (execReplayAbort au s) :=
  endsIn_canonical_writeStep (fun _ _ => canonical_replayCtrlEffect _) h

theorem execReplayFrame_canonical (h : Canonical s) : EndsIn Canonical (execReplayFrame s) := by
  unfold execReplayFrame
  refine .ite (.next h) ?_
  split
  · exact .next (canonical_endReplay _ h)
  · extract_lets +onlyGivenNames f full s1 ck s2
    have hs1 : Canonical s1 := Canonical.frame (canonical_replayFrame _ _ h) (keep_incMax _ _ _ (.of_all rfl)
      (only_refl _ _))
    have hs2 : Canonical s2 := by
      unfold s2
      cases ck with
      | some k => exact hs1.frame (keep_replayCkpt _ (.of_all rfl) (only_refl _ _))
      | none => exact hs1
    exact .ite (.next (canonical_endReplay _ (hs2.frame (keep_setN _ _ (.of_all rfl) (keep_setN _ _ (.of_all rfl)
      (only_refl _ _)))))) (.ite (.next (canonical_endReplay _ hs2)) (.next hs2))

theorem execImageArm_canonical (au : Auth) (i : Fin 4) (h : Canonical s) : EndsIn Canonical (execImageArm au i s) :=
  endsIn_canonical_writeStep (fun _ _ => canonical_armEffect _ _) h

theorem execReadyActivationDone_canonical (h : Canonical s) : EndsIn Canonical (execReadyActivationDone s) := by
  unfold execReadyActivationDone
  refine .noted (fun _ => canonical_noteDegraded) ?_
  split
  · refine .ite (.next h) ?_
    extract_lets +onlyGivenNames hot s1
    have hs1 : Canonical s1 := canonical_takeForce _ _ h
    refine .next (Canonical.frame (canonical_ite (Canonical.frame (?_) (keep_swapHalves (.of_all rfl) (only_refl _
      _))) (Canonical.frame (canonical_coldLoad _ _ hs1) (keep_checkDomains (.of_all rfl) (only_refl _ _))))
      (keep_imageCtrl _ (.of_all rfl) (only_refl _ _)))
    split
    · exact hs1.frame (keep_loadBundles _ (.of_all rfl) (only_refl _ _))
    · exact hs1
  · exact .next h

theorem execHotActivation_canonical (h : Canonical s) : EndsIn Canonical (execHotActivation s) := by
  unfold execHotActivation
  refine .noted (fun _ => canonical_noteDegraded) ?_
  split
  · refine .ite (.next h) ?_
    extract_lets +onlyGivenNames s1
    have hs1 : Canonical s1 := canonical_takeForce _ _ h
    refine .next (Canonical.frame (?_) (keep_imageCtrl _ (.of_all rfl) (keep_swapHalves (.of_all rfl) (only_refl _
      _))))
    split
    · exact hs1.frame (keep_loadBundles _ (.of_all rfl) (only_refl _ _))
    · exact hs1
  · exact .next h

theorem execColdActivationStop_canonical (h : Canonical s) : EndsIn Canonical (execColdActivationStop s) := by
  unfold execColdActivationStop
  refine .noted (fun _ => canonical_noteDegraded) ?_
  split
  · refine .ite (.next h) ?_
    split
    · exact .next h
    · exact .next (Canonical.frame (canonical_takeForce _ _ h) (keep_setImg _ (.of_all rfl) (keep_setEng _ (.of_all
        rfl) (keep_discardSwitches (.of_all rfl) (only_refl _ _)))))
  · exact .next h

theorem execColdActivationRejoin_canonical (h : Canonical s) : EndsIn Canonical (execColdActivationRejoin s) := by
  unfold execColdActivationRejoin
  refine .noted (fun _ => canonical_noteDegraded) ?_
  split
  · exact .ite (.next h) (.next (canonical_coldFinish _ h))
  · exact .next h

theorem execPlanSwitch_canonical (h : Canonical s) : EndsIn Canonical (execPlanSwitch s) := by
  unfold execPlanSwitch
  refine .noted (fun _ => canonical_noteDegraded) ?_
  extract_lets +onlyGivenNames due s1
  have hs1 : Canonical s1 := canonical_forEach _ (fun _ _ => canonical_switchRepl _) (h.frame (keep_setImg _ (.of_all
    rfl) (only_refl _ _)))
  split
  · exact .next hs1
  · exact .ite (.next (canonical_switchPlan _ hs1)) (.next hs1)

theorem execAniseFrameJobs_canonical (h : Canonical s) : EndsIn Canonical (execAniseFrameJobs s) := by
  unfold execAniseFrameJobs
  refine .ite (.ite (.next h) (.next (Canonical.frame (canonical_frameJobs _ h) (keep_noteDegraded (.of_all rfl)
    (only_refl _ _))))) ?_
  exact .ite (.next (canonical_readyJobs _ (h.frame (keep_reachCount _ (.of_all rfl) (only_refl _ _))))) (.next h)

theorem execAntAdaptWindow_canonical (h : Canonical s) : EndsIn Canonical (execAntAdaptWindow s) := by
  unfold execAntAdaptWindow
  refine .ite (.next h) ?_
  exact .next (canonical_signalCell _ _ (h.frame (only_forAll _ _ (fun _ _ => keep_adaptBranch _ (.of_all rfl))
    (keep_setAni _ (.of_all rfl) (only_refl _ _)))))

theorem execAniseTick_canonical (h : Canonical s) : EndsIn Canonical (execAniseTick s) := by
  unfold execAniseTick
  split
  · exact .next h
  · refine .ite (.next h) ?_
    exact .next (canonical_signalCell _ _ (h.frame (only_forEach _ _ (fun _ _ => keep_raiseMain _ _ _ (.of_all rfl))
      (keep_setAni _ (.of_all rfl) (only_refl _ _)))))

theorem execStepEnd_canonical (q : Fin 9) (h : Canonical s) : EndsIn Canonical (execStepEnd q s) := by
  unfold execStepEnd
  refine .noted (fun _ => canonical_noteDegraded) ?_
  refine .ite ?_ (.next h)
  extract_lets +onlyGivenNames s0
  have hs0 : Canonical s0 := h.frame (keep_tickTo _ (.of_all rfl) (only_refl _ _))
  exact .ite (.next (hs0.frame (keep_upEnds _ (.of_all rfl) (only_refl _ _)))) (.next (canonical_downEnds _ hs0))

theorem execWaitTimeout_canonical (q : Fin 9) (h : Canonical s) : EndsIn Canonical (execWaitTimeout q s) := by
  unfold execWaitTimeout
  refine .noted (fun _ => canonical_noteDegraded) ?_
  split
  · exact .next (canonical_timedOut _ _ _ (h.frame (keep_tickTo _ (.of_all rfl) (only_refl _ _))))
  · exact .next (canonical_timedOut _ _ _ (h.frame (keep_tickTo _ (.of_all rfl) (only_refl _ _))))
  · exact .next h

theorem execPgTimeout_canonical (q : Fin 9) (h : Canonical s) : EndsIn Canonical (execPgTimeout q s) :=
  .noted (fun _ => canonical_noteDegraded) (.ite (.next h) (.next (canonical_seqFault _ _ _ (h.frame (keep_raiseSeq _
    _ (.of_all rfl) (keep_tickTo _ (.of_all rfl) (only_refl _ _)))))))

theorem execLevelDeglitchExpiry_canonical (q : Fin 9) (r : Fin 16) (l : Level) (v : Rat) (since : Nat) (h : Canonical
    s) : EndsIn Canonical (execLevelDeglitchExpiry q r l v since s) := by
  unfold execLevelDeglitchExpiry
  refine .noted (fun _ => canonical_noteDegraded) ?_
  refine .ite (.next h) ?_
  extract_lets +onlyGivenNames s0 s1 s2
  have hs0 : Canonical s0 := h.frame (keep_tickDeglitch _ _ _ _ (.of_all rfl) (only_refl _ _))
  have hs2 : Canonical s2 := Canonical.frame (canonical_ite (hs0.frame (keep_seePg _ _ _ (.of_all rfl) (only_refl _
    _))) hs0) (keep_dropRunning _ _ _ (.of_all rfl) (only_refl _ _))
  split
  · exact .ite (.next hs2) (.next (hs2.frame (keep_raiseRail _ _ _ (.of_all rfl) (keep_updRail _ _ _ (.of_all rfl)
      (only_refl _ _)))))
  · exact .ite (.next hs2) (.next (hs2.frame (keep_raiseRail _ _ _ (.of_all rfl) (keep_updRail _ _ _ (.of_all rfl)
      (only_refl _ _)))))
  · exact .next (canonical_levelFault _ _ _ hs2)

theorem execThermalShutdown_canonical (t : Rat) (kept : Bool) (since : Nat) (h : Canonical s) :
    EndsIn Canonical (execThermalShutdown t kept since s) := by
  unfold execThermalShutdown
  refine .noted (fun _ => canonical_noteDegraded) ?_
  refine .ite (.next h) ?_
  extract_lets +onlyGivenNames s0
  have hs0 : Canonical s0 := h.frame (keep_stands _ _ (.of_all rfl) (only_refl _ _))
  exact .ite (.next (canonical_ite (canonical_abandonRestart _ _ hs0) hs0)) (.next (canonical_shutDown _ _ hs0))

theorem execWardenSafe_canonical (h : Canonical s) : EndsIn Canonical (execWardenSafe s) := by
  unfold execWardenSafe
  refine .noted (fun _ => canonical_noteDegraded) ?_
  refine .ite (.next h) ?_
  extract_lets +onlyGivenNames s1
  have hs1 : Canonical s1 := canonical_releaseSteps (h.frame (keep_enterSafe _ (.of_all rfl) (only_refl _ _)))
  exact .next (canonical_ite (hs1.frame (keep_stopSafe (.of_all rfl) (only_refl _ _))) hs1)

theorem execWardenRelease_canonical (h : Canonical s) : EndsIn Canonical (execWardenRelease s) := by
  unfold execWardenRelease
  refine .ite (.next h) ?_
  extract_lets +onlyGivenNames run s1 s2
  have hs1 : Canonical s1 := h.frame (keep_setPart _ (.of_all rfl) (only_refl _ _))
  have hs2 : Canonical s2 := canonical_ite (hs1.frame (keep_setPart _ (.of_all rfl) (keep_restartAnise (.of_all rfl)
    (keep_stopSafe (.of_all rfl) (only_refl _ _))))) hs1
  refine .ite (.next (Canonical.frame (canonical_settleReady (hs2.frame (keep_enterPart _ (.of_all rfl) (only_refl _
    _)))) (keep_noteDegraded (.of_all rfl) (only_refl _ _)))) ?_
  exact .next (canonical_readyUp (hs2.frame (keep_setPart _ (.of_all rfl) (only_refl _ _))))

theorem execPartRestart_canonical (au : Auth) (kept : Bool) (h : Canonical s) :
    EndsIn Canonical (execPartRestart au kept s) :=
  .noted (fun _ => canonical_noteDegraded) (endsIn_canonical_writeStep (fun _ _ => canonical_mainReset _ _) h)

theorem execKeepaliveLoss_canonical (kept : Bool) (h : Canonical s) : EndsIn Canonical (execKeepaliveLoss kept s) :=
  .noted (fun _ => canonical_noteDegraded) (.ite (.next (canonical_mainReset _ _ h)) (.next h))

theorem execFwRestart_canonical (au : Auth) (h : Canonical s) : EndsIn Canonical (execFwRestart au s) :=
  endsIn_canonical_writeStep (fun _ _ => canonical_warmRestart) h

theorem execWatchdogExpiry_canonical (c : Fin 2) (kept : Bool) (h : Canonical s) :
    EndsIn Canonical (execWatchdogExpiry c kept s) := by
  unfold execWatchdogExpiry
  extract_lets +onlyGivenNames due
  split
  · exact .next (Canonical.frame (canonical_crashControl _ _ (h.frame (keep_tickTo _ (.of_all rfl) (only_refl _ _))))
      (keep_noteDegraded (.of_all rfl) (only_refl _ _)))
  · exact .next (Canonical.frame (canonical_crashShadow _ _ (h.frame (keep_tickTo _ (.of_all rfl) (only_refl _ _))))
      (keep_noteDegraded (.of_all rfl) (only_refl _ _)))
  · exact .next h

theorem execOdaRead_canonical (n txn key ty : Nat) (desc : Bool) (h : Canonical s) :
    EndsIn Canonical (execOdaRead n txn key ty desc s) := by
  unfold execOdaRead
  extract_lets body go
  have hgo (p : Pending) (u : State) (h : Canonical u) : Canonical (go p u) := by
    unfold go
    split
    · exact h.frame (keep_describeGo _ _ _ (.of_all rfl) (only_refl _ _))
    · exact canonical_readGo _ _ _ h
  exact .ite (.next (canonical_bareRequest (hgo _) h)) (endsIn_canonical_request hgo h)

theorem execOdaWrite_canonical (n txn key ty : Nat) (v : Value) (h : Canonical s) :
    EndsIn Canonical (execOdaWrite n txn key ty v s) :=
  endsIn_canonical_request (fun _ _ => canonical_runSteps _ _) h

theorem execReadMulti_canonical (n txn : Nat) (items : List (Nat × Nat)) (h : Canonical s) :
    EndsIn Canonical (execReadMulti n txn items s) := by
  unfold execReadMulti
  refine .ite (.next (h.frame (keep_answerBare _ (.of_all rfl) (keep_inc32 _ (.of_all rfl) (only_refl _ _))))) ?_
  refine .ite (.next (canonical_bareRequest (fun _ => canonical_multiGo _ _) h)) ?_
  exact endsIn_canonical_request (fun _ _ => canonical_multiGo _ _) h

theorem execWriteMulti_canonical (n txn : Nat) (steps : List (Nat × Nat × Value)) (h : Canonical s) :
    EndsIn Canonical (execWriteMulti n txn steps s) :=
  endsIn_canonical_request (fun _ _ => canonical_runSteps _ _) h

theorem execFwCompletion_canonical (tag result : Nat) (v : Value) (h : Canonical s) :
    EndsIn Canonical (execFwCompletion tag result v s) := by
  unfold execFwCompletion
  refine .ite (.next h) ?_
  extract_lets +onlyGivenNames s1
  have hs1 : Canonical s1 := h.frame (keep_setBar _ (.of_all rfl) (only_refl _ _))
  split
  · exact .next hs1
  · extract_lets +onlyGivenNames s2
    have hs2 : Canonical s2 := hs1.frame (keep_unpark _ (.of_all rfl) (only_refl _ _))
    split
    · exact .next (canonical_runItems _ _ hs2)
    · exact .next (canonical_finish _ _ hs2)
    · exact .ite (.next (canonical_finish _ _ hs2)) (.next (hs2.frame (keep_startRead _ _ _ (.of_all rfl) (only_refl
        _ _))))
    · refine .ite (.next (canonical_goOn (canonical_finish _ _ hs2))) ?_
      exact .next (canonical_goOn (canonical_runSteps _ _ (Canonical.frame (canonical_applyStep _ _ _ hs2)
        (keep_journal _ _ _ (.of_all rfl) (only_refl _ _)))))
    · exact .next (canonical_finish _ _ hs2)

theorem execNorCommitDone_canonical (ok : Bool) (h : Canonical s) : EndsIn Canonical (execNorCommitDone ok s) := by
  unfold execNorCommitDone
  split
  · exact .next (canonical_land _ _ h)
  · split
    · exact .next h
    · extract_lets +onlyGivenNames s1
      have hs1 : Canonical s1 := h.frame (keep_unpark _ (.of_all rfl) (only_refl _ _))
      split
      · exact .next (canonical_finish _ _ hs1)
      · refine .ite ?_ (.next (canonical_goOn (canonical_finish _ _ hs1)))
        refine .ite (.next (canonical_goOn (canonical_runSteps _ _ (canonical_applyStep _ _ _ hs1)))) ?_
        exact .next (canonical_applyStep _ _ _ hs1)

theorem execBlockReadStart_canonical (n txn key ty sel : Nat) (h : Canonical s) :
    EndsIn Canonical (execBlockReadStart n txn key ty sel s) :=
  endsIn_canonical_request (fun _ _ => canonical_readStartGo _ _ _ _) h

theorem execBlockWriteEnd_canonical (n txn blk crc : Nat) (h : Canonical s) :
    EndsIn Canonical (execBlockWriteEnd n txn blk crc s) :=
  endsIn_canonical_request (fun _ _ => canonical_writeEndGo _ _ _) h

theorem execTelemetryFrame_canonical (a : Fin 8) (etherType : Nat) (payload : List Byte) (bad oldEpoch : Bool) (delay
    : Nat) (h : Canonical s) : EndsIn Canonical (execTelemetryFrame a etherType payload bad oldEpoch delay s) := by
  unfold execTelemetryFrame
  refine .ite (.next h) ?_
  refine .ite (.next (h.frame (keep_updSb _ _ (.of_all rfl) (only_refl _ _)))) ?_
  refine .ite (.next (h.frame (keep_inc32 _ (.of_all rfl) (keep_noticeSpoiled _ (.of_all rfl) (only_refl _ _))))) ?_
  refine .ite (.next (h.frame (keep_takeSbSeq _ _ (.of_all rfl) (only_refl _ _)))) ?_
  exact .next (Canonical.frame (canonical_signalCell _ _ (h.frame (keep_takeSbSeq _ _ (.of_all rfl) (only_refl _
    _)))) (only_forEach _ _ (fun _ _ => keep_telemetryEntry _ _ _ _ _ _ (.of_all rfl)) (only_refl _ _)))

theorem execDmaGo_canonical (c : Fin 32) (ctrl srcList dstList srcCount dstCount compl : Nat) (src dst : List
    DmaEntry) (h : Canonical s) : EndsIn Canonical (execDmaGo c ctrl srcList dstList srcCount dstCount compl src dst
    s) := by
  unfold execDmaGo
  refine .ite (.next h) ?_
  extract_lets +onlyGivenNames s1
  have hs1 : Canonical s1 := canonical_updDma _ _ h
  refine .ite (.next (canonical_dropChan _ hs1)) ?_
  extract_lets +onlyGivenNames s2
  have hs2 : Canonical s2 := canonical_updDma _ _ hs1
  exact .ite (.next (canonical_updDma _ _ hs2)) (.ite (.next (canonical_goChan _ _ _ _ _ _ _ _ _ _ hs2)) (.next hs2))

theorem execDmaAck_canonical (c : Fin 32) (h : Canonical s) : EndsIn Canonical (execDmaAck c s) :=
  .ite (.next (canonical_updDma _ _ h)) (.next h)

theorem execDmaDisable_canonical (c : Fin 32) (h : Canonical s) : EndsIn Canonical (execDmaDisable c s) :=
  .ite (.next (canonical_dropChan _ h)) (.next h)

theorem execDmaRunStart_canonical (mb : Bool) (h : Canonical s) : EndsIn Canonical (execDmaRunStart mb s) :=
  .next (canonical_startNext _ h)

theorem execDmaRunComplete_canonical (mb : Bool) (h : Canonical s) : EndsIn Canonical (execDmaRunComplete mb s) := by
  unfold execDmaRunComplete
  split
  · exact .next h
  · refine .ite (.next (canonical_seqStep _ h)) ?_
    extract_lets +onlyGivenNames s1
    have hs1 : Canonical s1 := canonical_advance _ h
    exact .next (canonical_ite (canonical_completeRun _ hs1) hs1)

theorem execDmaSignalRelease_canonical (c : Fin 32) (h : Canonical s) :
    EndsIn Canonical (execDmaSignalRelease c s) := by
  unfold execDmaSignalRelease
  split
  · exact .next h
  · extract_lets +onlyGivenNames s1
    have hs1 : Canonical s1 := canonical_updDma _ _ h
    exact .ite (.next hs1) (.next (canonical_signalCell _ _ hs1))

theorem execDmaBusError_canonical (mb : Bool) (h : Canonical s) : EndsIn Canonical (execDmaBusError mb s) := by
  unfold execDmaBusError
  split
  · exact .next h
  · extract_lets +onlyGivenNames s1
    have hs1 : Canonical s1 := canonical_advance _ h
    split
    · exact .next hs1
    · split
      · exact .next (canonical_endRun _ (canonical_haltChan _ _ _ _ _ hs1))
      · exact .next hs1

theorem execSyncSet_canonical (cell : Fin 16384) (v : Nat) (h : Canonical s) :
    EndsIn Canonical (execSyncSet cell v s) :=
  .ite (.next h) (.next (canonical_setCell _ _ h))

theorem execSyncSignal_canonical (cell : Fin 16384) (v : Nat) (h : Canonical s) :
    EndsIn Canonical (execSyncSignal cell v s) :=
  .ite (.next h) (.next (canonical_signalCell _ _ h))

theorem execWaitSlotArm_canonical (k : Fin 256) (cell : Fin 16384) (irq event : Bool) (core : Fin 8) (threshold :
    Nat) (h : Canonical s) : EndsIn Canonical (execWaitSlotArm k cell irq event core threshold s) :=
  .ite (.next h) (.next (canonical_tryFire _ (canonical_putSlot _ _ h)))

theorem execWaitSlotDisarm_canonical (k : Fin 256) (h : Canonical s) : EndsIn Canonical (execWaitSlotDisarm k s) :=
  .next (canonical_putSlot _ _ h)

theorem execMemUe_canonical (addr : Nat) (h : Canonical s) : EndsIn Canonical (execMemUe addr s) :=
  .next (canonical_ite (canonical_memUe _ h) h)

theorem execPatrolScrubPass_canonical (h : Canonical s) : EndsIn Canonical (execPatrolScrubPass s) := by
  refine .ite (.next (Canonical.frame ?_ (keep_inc32 _ (.of_all rfl) (only_refl _ _)))) (.next h)
  exact canonical_setMem (fun _ => rfl) (h.frame (keep_tickTo _ (.of_all rfl) (only_refl _ _)))

theorem execLpddr4xRefresh_canonical (hot : Bool) (h : Canonical s) : EndsIn Canonical (execLpddr4xRefresh hot s) :=
  .next (canonical_ite (canonical_setMem (fun _ => rfl) h) h)

theorem execTakeover_canonical (h : Canonical s) : EndsIn Canonical (execTakeover s) := by
  unfold execTakeover
  refine .ite (.next h) ?_
  extract_lets +onlyGivenNames s1
  have hs1 : Canonical s1 := h.frame (keep_reachCount _ (.of_all rfl) (only_refl _ _))
  refine .ite (.next (Canonical.frame (canonical_takeOver hs1) (keep_noteDegraded (.of_all rfl) (only_refl _ _)))) ?_
  exact .next (canonical_releaseSteps (hs1.frame (keep_failShadow _ (.of_all rfl) (only_refl _ _))))

theorem execHealthFail_canonical (c : Fin 2) (kept : Bool) (h : Canonical s) :
    EndsIn Canonical (execHealthFail c kept s) :=
  .noted (fun _ => canonical_noteDegraded) (.next (canonical_handover (fun _ => canonical_trialFails _) h))

theorem execUpdateHealthDeadline_canonical (kept : Bool) (h : Canonical s) :
    EndsIn Canonical (execUpdateHealthDeadline kept s) :=
  .noted (fun _ => canonical_noteDegraded) (.ite (.next (canonical_trialFails _ (h.frame (keep_reachCount _ (.of_all
    rfl) (only_refl _ _))))) (.next h))

theorem execUpdateAbort_canonical (au : Auth) (kept : Bool) (h : Canonical s) :
    EndsIn Canonical (execUpdateAbort au kept s) :=
  .noted (fun _ => canonical_noteDegraded) (endsIn_canonical_writeStep (fun _ _ => canonical_abortUpdate _) h)

/-! ### Every command and every step -/

theorem exec_canonical_of_frame {c : Instr} (h : Canonical s)
    (hc : (touches c).all (fun a => decide (a ≠ .mem)) = true) : EndsIn Canonical (exec c s) := by
  obtain ⟨t, ht, hkeep⟩ := (everyCommandCompletesInItsFrame c s).1
  have hmem : Area.mem ∉ touches c := fun hm => of_decide_eq_true (List.all_eq_true.mp hc _ hm) rfl
  exact ⟨t, ht, h.of_ram (congrArg Mem.ram (hkeep .mem hmem))⟩

theorem exec_canonical (c : Instr) (h : Canonical s) : EndsIn Canonical (exec c s) := by
  have hframe := exec_canonical_of_frame (c := c) h
  cases c with
  | holdupEnd torn => exact execHoldupEnd_canonical torn h
  | vinLowSelfDown => exact execVinLowSelfDown_canonical h
  | firmwareStreamDone read => exact execFirmwareStreamDone_canonical read h
  | lpddr4xTrainingDone ok => exact execLpddr4xTrainingDone_canonical ok h
  | partReady => exact execPartReady_canonical h
  | tileSelfTestDone t pass => exact execTileSelfTestDone_canonical t pass h
  | frameStopAt au v => exact execFrameStopAt_canonical au v h
  | launch => exact execLaunch_canonical h
  | frameStart => exact execFrameStart_canonical h
  | p0Emit => exact execP0Emit_canonical h
  | mainEmit => exact execMainEmit_canonical h
  | checkpointCommit => exact execCheckpointCommit_canonical h
  | engineRejoin => exact execEngineRejoin_canonical h
  | checkpointRestoreDone lostNew lostOld badNew badOld =>
      exact execCheckpointRestoreDone_canonical lostNew lostOld badNew badOld h
  | correctedError t => exact execCorrectedError_canonical t h
  | uncorrectableWord t offset beat bundle => exact execUncorrectableWord_canonical t offset beat bundle h
  | tileRetiredSet au t => exact execTileRetiredSet_canonical au t h
  | stagingTimeout t => exact execStagingTimeout_canonical (s := s) t h
  | sessionOpenRequest au n d => exact execSessionOpenRequest_canonical au n d h
  | sessionCloseRequest au n d => exact execSessionCloseRequest_canonical au n d h
  | modelLoadDone done => exact execModelLoadDone_canonical done h
  | codebookWrite au c bytes => exact execCodebookWrite_canonical au c bytes h
  | replayStart au => exact execReplayStart_canonical au h
  | replayAbort au => exact execReplayAbort_canonical au h
  | replayFrame => exact execReplayFrame_canonical h
  | imageArm au i => exact execImageArm_canonical au i h
  | readyActivationDone => exact execReadyActivationDone_canonical h
  | hotActivation => exact execHotActivation_canonical h
  | coldActivationStop => exact execColdActivationStop_canonical h
  | coldActivationRejoin => exact execColdActivationRejoin_canonical h
  | planSwitch => exact execPlanSwitch_canonical h
  | aniseFrameJobs => exact execAniseFrameJobs_canonical h
  | antAdaptWindow => exact execAntAdaptWindow_canonical h
  | aniseTick => exact execAniseTick_canonical h
  | stepEnd q => exact execStepEnd_canonical q h
  | waitTimeout q => exact execWaitTimeout_canonical q h
  | pgTimeout q => exact execPgTimeout_canonical q h
  | levelDeglitchExpiry q r l v since => exact execLevelDeglitchExpiry_canonical q r l v since h
  | thermalShutdown t kept since => exact execThermalShutdown_canonical t kept since h
  | wardenSafe => exact execWardenSafe_canonical h
  | wardenRelease => exact execWardenRelease_canonical h
  | partRestart au kept => exact execPartRestart_canonical au kept h
  | keepaliveLoss kept => exact execKeepaliveLoss_canonical kept h
  | fwRestart au => exact execFwRestart_canonical au h
  | watchdogExpiry c kept => exact execWatchdogExpiry_canonical c kept h
  | odaRead n txn key ty desc => exact execOdaRead_canonical n txn key ty desc h
  | odaWrite n txn key ty v => exact execOdaWrite_canonical n txn key ty v h
  | readMulti n txn items => exact execReadMulti_canonical n txn items h
  | writeMulti n txn steps => exact execWriteMulti_canonical n txn steps h
  | fwCompletion tag result v => exact execFwCompletion_canonical tag result v h
  | norCommitDone ok => exact execNorCommitDone_canonical ok h
  | blockReadStart n txn key ty sel => exact execBlockReadStart_canonical n txn key ty sel h
  | blockWriteEnd n txn blk crc => exact execBlockWriteEnd_canonical n txn blk crc h
  | telemetryFrame a etherType payload bad oldEpoch delay =>
      exact execTelemetryFrame_canonical a etherType payload bad oldEpoch delay h
  | dmaGo c ctrl srcList dstList srcCount dstCount compl src dst =>
      exact execDmaGo_canonical c ctrl srcList dstList srcCount dstCount compl src dst h
  | dmaAck c => exact execDmaAck_canonical c h
  | dmaDisable c => exact execDmaDisable_canonical c h
  | dmaRunStart mb => exact execDmaRunStart_canonical mb h
  | dmaRunComplete mb => exact execDmaRunComplete_canonical mb h
  | dmaSignalRelease c => exact execDmaSignalRelease_canonical c h
  | dmaBusError mb => exact execDmaBusError_canonical (s := s) mb h
  | syncSet cell v => exact execSyncSet_canonical cell v h
  | syncSignal cell v => exact execSyncSignal_canonical cell v h
  | waitSlotArm k cell irq event core threshold => exact execWaitSlotArm_canonical k cell irq event core threshold h
  | waitSlotDisarm k => exact execWaitSlotDisarm_canonical k h
  | memUe addr => exact execMemUe_canonical addr h
  | patrolScrubPass => exact execPatrolScrubPass_canonical h
  | lpddr4xRefresh hot => exact execLpddr4xRefresh_canonical hot h
  | takeover => exact execTakeover_canonical h
  | healthFail c kept => exact execHealthFail_canonical c kept h
  | updateHealthDeadline kept => exact execUpdateHealthDeadline_canonical kept h
  | updateAbort au kept => exact execUpdateAbort_canonical au kept h
  | _ => exact hframe rfl

end

/-- Settles O5: the idle cycle and every command keep the canonical form, by the lemmas on the operations they run. -/
theorem stepKeepsMemoryCanonical : Obligations.StepKeepsMemoryCanonical := by
  unfold Obligations.StepKeepsMemoryCanonical
  intro s t h hstep
  cases hq : s.pending with
  | nil =>
    obtain rfl : idle s = t := by simpa [step_of_pending_nil hq] using hstep
    exact canonical_idle h
  | cons c rest =>
    obtain ⟨u, hu, hcanonical⟩ := exec_canonical (s := { s with pending := rest }) c h
    obtain rfl : u = t := by simpa [step_of_pending_cons hq, hu] using hstep
    exact hcanonical

/-! ## The front command and the reset state -/

/-- Settles O1: `step` matches on the queue. -/
theorem stepRunsFrontCommand : Obligations.StepRunsFrontCommand := by
  unfold Obligations.StepRunsFrontCommand
  exact fun _ _ _ => step_of_pending_cons rfl

/-- Settles O6: each part of `State.reset` is a literal, and each of its vectors repeats one entry. -/
theorem resetIsOffAndCanonical : Obligations.ResetIsOffAndCanonical := by
  unfold Obligations.ResetIsOffAndCanonical
  have hbr (b : Fin 12) : State.reset.br.get b = Branch.init := by simp [State.reset, Vector.get]
  have hsq (q : Fin 9) : State.reset.sq.get q = Seq.init := by simp [State.reset, Vector.get]
  have hrail (r : Fin 16) : Seq.init.rails.get r = Rail.init := by simp [Seq.init, Vector.get]
  refine ⟨rfl, rfl, rfl, rfl, fun b => ?_, fun q => ?_⟩
  · rw [hbr]
    exact ⟨rfl, rfl⟩
  · rw [hsq]
    exact ⟨rfl, rfl, fun r => by rw [hrail]; rfl⟩

/-! ## Writes and their answers -/

/-- The status of the last answer. -/
def answered (s : State) : Option Nat := s.oda.answer.map (fun x => x.status)

theorem answered_of_oda_eq {s t : State} (h : t.oda = s.oda) : answered t = answered s := by
  unfold answered
  rw [h]

/-- A write that passes its checks: its effect meets the state as it was, but for the accepting count and the answer of
status 0. -/
theorem answeredWrite_ends {s : State} {au : Auth} {key : Nat} {v : Value} {home : State → Nat}
    {eff : Count → State → State} {P : State → Prop} (hup : s.oda.serving = true) (hcheck : precheck s au key 0 v = 0)
    (hhome : home s = 0) (hP : ∀ u, Only [.clk, .oda] s u → answered u = some 0 → P (eff (acceptCount s) u)) :
    EndsIn P (.next (writeStep au key v home eff s)) := by
  rw [writeStep_of_accepted eff hup hcheck hhome]
  exact .next (hP _ (keep_mk_oda _ (.of_all rfl) (keep_mk_clk _ (.of_all rfl) (only_refl _ s))) rfl)

/-- A write that fails a check leaves all but the answer, which has the code of the check. -/
theorem refusedWrite_ends {s : State} {au : Auth} {key : Nat} {v : Value} {home : State → Nat}
    {eff : Count → State → State} {P : State → Prop} (hup : s.oda.serving = true) (hcheck : precheck s au key 0 v ≠ 0)
    (hP : ∀ t, Only [.oda] s t → answered t = some (precheck s au key 0 v) → P t) :
    EndsIn P (.next (writeStep au key v home eff s)) := by
  unfold writeStep
  rw [if_neg (by simp [hup]), if_pos hcheck]
  exact .next (hP _ (keep_refuse _ (.of_all rfl) (only_refl _ s)) rfl)

/-! ## The release of QUARANTINE (R339) -/

/-- An accelerator without quarantine and without a fault history. -/
def released (x : Accel) : Accel := { x with quarantined := false, faults := [] }

theorem releaseQuar_of_quarantined {a : Fin 8} {s : State} (h : (s.acc.get a).quarantined = true) :
    releaseQuar a s = storeNum (Obj.quarantine a.val) 0
      (updAcc a released s) := if_pos h

theorem releaseQuar_of_not_quarantined {a : Fin 8} {s : State} (h : (s.acc.get a).quarantined = false) :
    releaseQuar a s = s := if_neg (by simp [h])

/-- The write of an accelerator not quarantined leaves all but the accepting count and the answer. -/
theorem quarRelease_without_effect {au : Auth} {a : Fin 8} {s : State} {P : State → Prop} (hup : s.oda.serving = true)
    (hcheck : precheck s au (Obj.quarRelease a.val).key 0 (.num 1) = 0) (hquar : (s.acc.get a).quarantined = false)
    (hP : ∀ t, Only [.clk, .oda] s t → answered t = some 0 → P t) : Ends (.quarRelease au a) s P := by
  refine answeredWrite_ends (eff := fun _ => releaseQuar a) hup hcheck rfl fun u hu hanswer => ?_
  have hacc : u.acc = s.acc := hu .acc (by decide)
  rw [releaseQuar_of_not_quarantined (by rw [hacc]; exact hquar)]
  exact hP u hu hanswer

/-- The write of a quarantined accelerator clears QUARANTINE and the fault history, and changes no part beside. -/
theorem quarRelease_releases {au : Auth} {a : Fin 8} {s : State} {P : State → Prop} (hup : s.oda.serving = true)
    (hcheck : precheck s au (Obj.quarRelease a.val).key 0 (.num 1) = 0) (hquar : (s.acc.get a).quarantined = true)
    (hP : ∀ t, Only [.clk, .oda, .nums, .pow, .acc] s t → answered t = some 0 →
      t.acc = vupd s.acc a released →
      (∀ o : Obj, (Obj.quarantine a.val).key ≠ o.key → getN t o = getN s o) →
      getN t (Obj.quarantine a.val) = 0 → P t) : Ends (.quarRelease au a) s P := by
  refine answeredWrite_ends (eff := fun _ => releaseQuar a) hup hcheck rfl fun u hu hanswer => ?_
  have hacc : u.acc = s.acc := hu .acc (by decide)
  have hnums : u.nums = s.nums := hu .nums (by decide)
  rw [releaseQuar_of_quarantined (by rw [hacc]; exact hquar)]
  set v := updAcc a released u
  have hv : Only [.clk, .oda, .nums, .pow, .acc] s v := keep_updAcc _ _ (.of_all rfl) (only_mono hu (.of_all rfl))
  have hstored := keep_storeNum (L := [.nums, .pow]) (Obj.quarantine a.val) 0 (.of_all rfl) (only_refl _ v)
  refine hP _ (keep_storeNum _ _ (.of_all rfl) hv) ?_ ?_ (fun o ho => ?_) (getN_storeNum_same _ _ _)
  · exact (answered_of_oda_eq (hstored .oda (by decide))).trans hanswer
  · exact (storeNum_acc _ _ _).trans (congrArg (vupd · a released) hacc)
  · exact (getN_storeNum_other _ _ ho).trans (getN_of_nums_eq hnums o)

/-- Of the checks of QUAR_RELEASE, the access of FACILITY is the first that its write of 1 fails. -/
theorem entries_find_quarRelease : ∀ a : Fin 8, (entries.find? (fun e => e.covers ((Obj.quarRelease a.val).key / 256)
    ((Obj.quarRelease a.val).key % 256))).any (fun e => formStatus e.ty e.range (.num 1) == 0 && !bitSet e.accF 3 &&
      bitSet e.accH 1 && !bitSet e.accF 1) = true := by decide +kernel

theorem precheck_facility_quarRelease {a : Fin 8} {s : State} (h : s.bar.overrides = []) :
    precheck s .facility (Obj.quarRelease a.val).key 0 (.num 1) = 0x00060001 := by
  obtain ⟨e, he, hchecks⟩ := (Option.any_eq_true _ _).mp (entries_find_quarRelease a)
  simp only [Bool.and_eq_true, beq_iff_eq, Bool.not_eq_true'] at hchecks
  obtain ⟨⟨⟨hform, hrefused⟩, hhost⟩, hfacility⟩ := hchecks
  have heff : effEntry s (Obj.quarRelease a.val).key = some e := by
    unfold effEntry findEntry
    rw [he, h]
    rfl
  have hacc : bitSet (e.acc .facility) 1 = false := hfacility
  unfold precheck
  rw [heff]
  simp [hform, hrefused, hhost, hacc]

theorem quarRelease_facility_refused {a : Fin 8} {s : State} {P : State → Prop} (hup : s.oda.serving = true)
    (hover : s.bar.overrides = []) (hP : ∀ t, Only [.oda] s t → answered t = some 0x00060001 → P t) :
    Ends (.quarRelease .facility a) s P := by
  have hcode := precheck_facility_quarRelease (a := a) hover
  refine refusedWrite_ends hup ?_ fun t ht hanswer => hP t ht (hanswer.trans (congrArg some hcode))
  rw [hcode]
  decide

theorem branchEnable_key_ne_quarantine (a : Fin 8) (b : Fin 12) :
    (Obj.quarantine a.val).key ≠ (Obj.branchEnable b.val).key := by
  simp only [Obj.quarantine, Obj.branchEnable]
  omega

/-! ### Neither end of a module's insertion quarantines or releases -/

/-- Quarantine of accelerator b, and its object. -/
def quarOf (b : Fin 8) (s : State) : Bool × Nat := ((s.acc.get b).quarantined, getN s (Obj.quarantine b.val))

theorem quarOf_of_only {L : List Area} {b : Fin 8} {s t : State} (h : Only L s t) (hacc : Area.acc ∉ L)
    (hnums : Area.nums ∉ L) : quarOf b t = quarOf b s := by
  have h1 : t.acc = s.acc := h .acc hacc
  have h2 : t.nums = s.nums := h .nums hnums
  simp only [quarOf, getN, h1, h2]

theorem quarantined_updAcc (a b : Fin 8) {f : Accel → Accel} (hf : ∀ x, (f x).quarantined = x.quarantined) (s : State) :
    ((updAcc a f s).acc.get b).quarantined = (s.acc.get b).quarantined := by
  by_cases hab : a = b
  · rw [hab, updAcc_get_same, hf]
  · rw [updAcc_get_other _ _ _ _ hab]

theorem quarantined_recomputeCaps (b : Fin 8) (s : State) :
    ((recomputeCaps s).acc.get b).quarantined = (s.acc.get b).quarantined := by
  unfold recomputeCaps
  split
  · exact forAll_keeps (P := fun u => (u.acc.get b).quarantined = (s.acc.get b).quarantined)
      (fun a u hu => (quarantined_updAcc a b (by exact fun _ => rfl) u).trans hu) rfl
  · rfl

theorem quarOf_seqHeld (a b : Fin 8) (s : State) : quarOf b (seqHeld a s) = quarOf b s := by
  have hset (st : SeqState) : quarOf b (setSeq (seqOf a) st s) = quarOf b s := by
    refine Prod.ext (quarantined_recomputeCaps b _) (getN_of_nums_eq (setSeq_nums _ _ _) _)
  refine Eq.trans ?_ (hset .held)
  exact quarOf_of_only (L := [.sq]) (keep_updSeq _ _ (.of_all rfl) (keep_noteSeq _ _ _ (.of_all rfl) (only_refl _ _)))
    (by decide) (by decide)

theorem quarOf_setN (b : Fin 8) {o : Obj} (v : Nat) (s : State) (h : o.key ≠ (Obj.quarantine b.val).key) :
    quarOf b (setN s o v) = quarOf b s := Prod.ext rfl (getN_setN_other _ _ _ _ h)

theorem quarOf_maxF32 (b : Fin 8) {o : Obj} (v : Rat) (s : State) (h : o.key ≠ (Obj.quarantine b.val).key) :
    quarOf b (maxF32 o v s) = quarOf b s := by
  unfold maxF32
  extract_lets w
  split
  · exact quarOf_setN b w s h
  · rfl

theorem quarOf_moveBr_held (b : Fin 8) (c : Fin 12) (gate : Gate) (s : State) :
    quarOf b (moveBr c .held gate s) = quarOf b s := by
  have hinrush (old : BrState) (u : State) : quarOf b (endInrush c old .held u) = quarOf b u := by
    unfold endInrush
    split
    · refine quarOf_maxF32 b _ u ?_
      simp only [Obj.quarantine, Obj.peInrushJ]
      omega
    · rfl
  unfold moveBr
  extract_lets old cy pulls
  refine (hinrush old _).trans (quarOf_of_only (L := [.br, .sq]) ?_ (by decide) (by decide))
  exact keep_armOv _ _ (.of_all rfl) (keep_updBr _ _ (.of_all rfl) (keep_advInrush _ (.of_all rfl) (only_refl _ _)))

theorem quarOf_enterBr_held (b a : Fin 8) (gate : Gate) (s : State) :
    quarOf b (enterBr (branchOf a) .held gate s) = quarOf b s := by
  have hzero : branchOf a ≠ 0 := fun h => Nat.succ_ne_zero a.val (congrArg Fin.val h)
  unfold enterBr seqAfterBr
  rw [accelOfBranch_branchOf, if_neg hzero]
  exact (quarOf_seqHeld a b _).trans (quarOf_moveBr_held b _ gate s)

theorem presenceEdge_keeps_quarantine (a b : Fin 8) (seated : Bool) (began : Nat) (s : State) :
    Ends (.presenceEdge a seated began) s (fun t => quarOf b t = quarOf b s) := by
  change EndsIn _ (execPresenceEdge a seated began s)
  unfold execPresenceEdge
  extract_lets +onlyGivenNames c x
  refine .ite (.next rfl) ?_
  extract_lets s0 due s1 gone
  have hraised (e : Ev) : quarOf b (raiseBr e c s1) = quarOf b s := quarOf_of_only (L := [.clk, .br, .ev, .nut])
    (keep_raiseBr _ _ (.of_all rfl) (keep_updBr _ _ (.of_all rfl) (keep_stands _ _ (.of_all rfl) (only_refl _ s))))
    (by decide) (by decide)
  exact .ite (.next ((quarOf_enterBr_held b a _ _).trans (hraised _))) (.next (hraised _))

def withoutFaults (x : Accel) : Accel := { x with faults := [] }

/-- Admission does not read the fault history. -/
theorem admissible_congr {a : Fin 8} {t u : State} (hsq : t.sq = u.sq) (hbr : t.br = u.br) (hpart : t.part = u.part)
    (hacc : withoutFaults (t.acc.get a) = withoutFaults (u.acc.get a))
    (henable : getN t (Obj.branchEnable (branchOf a).val) = getN u (Obj.branchEnable (branchOf a).val)) :
    admissible t a = admissible u a := by
  have heffective : (t.acc.get a).effective = (u.acc.get a).effective := (congrArg Accel.effective hacc :)
  have hthermal : (t.acc.get a).thermalHold = (u.acc.get a).thermalHold := (congrArg Accel.thermalHold hacc :)
  have hleak : (t.acc.get a).leakHold = (u.acc.get a).leakHold := (congrArg Accel.leakHold hacc :)
  have hquar : (t.acc.get a).quarantined = (u.acc.get a).quarantined := (congrArg Accel.quarantined hacc :)
  simp only [admissible, hsq, hbr, hpart, henable, heffective, hthermal, hleak, hquar]

theorem wantsOn_of_facility_off {x : Accel} (h : x.reqF = .off) : (released x).wantsOn = false := by
  simp [Accel.wantsOn, Accel.someOff, released, h]

/-- Settles O54: by what the write leaves, and by the branch and the sequencer of a module's edge. -/
theorem quarantineRelease : Obligations.QuarantineRelease := by
  unfold Obligations.QuarantineRelease
  refine ⟨fun au a s hup _ hcheck hquar => ?_, fun au a s hup _ hcheck hquar => ?_, fun a s hup hover => ?_,
    fun a b seated began s => ?_⟩
  · refine quarRelease_releases hup hcheck hquar fun t ht hanswer hacc hnums hobj => ?_
    have hsame : t.acc.get a = released (s.acc.get a) := by rw [hacc, vupd_get_same]
    have hother (b : Fin 8) (hb : b ≠ a) : t.acc.get b = s.acc.get b := by rw [hacc, vupd_get_other _ _ _ _ hb.symm]
    refine ⟨hsame, hobj, ht .sq (by decide), ?_, fun hoff => ?_, hother, hanswer⟩
    · refine admissible_congr (ht .sq (by decide)) (ht .br (by decide)) (ht .part (by decide)) ?_
        (hnums _ (branchEnable_key_ne_quarantine a _))
      rw [hsame, vupd_get_same]
      rfl
    · rw [hsame]
      exact wantsOn_of_facility_off hoff
  · exact quarRelease_without_effect hup hcheck hquar fun t ht hanswer =>
      ⟨ht .acc (by decide), ht .sq (by decide), ht .br (by decide), ht .nums (by decide), hanswer⟩
  · exact quarRelease_facility_refused hup hover fun t ht hanswer =>
      ⟨ht .acc (by decide), ht .nums (by decide), ht .br (by decide), ht .sq (by decide), hanswer⟩
  · exact ends_mono (presenceEdge_keeps_quarantine a b seated began s) fun t ht =>
      ⟨congrArg Prod.fst ht, congrArg Prod.snd ht⟩

/-- Settles O60: the outcomes of the write, each by its lemma. -/
theorem quarantineReleaseOutcomes : Obligations.QuarantineReleaseOutcomes := by
  unfold Obligations.QuarantineReleaseOutcomes
  refine ⟨fun au a s hup hcheck hquar => ?_, fun au a s hup hcheck hquar => ?_, fun au a s hup hcheck => ?_,
    fun a s hup hover => ?_⟩
  · exact quarRelease_releases hup hcheck hquar fun t ht hanswer hacc _ hobj =>
      ⟨hacc, hobj, ht .sq (by decide), ht .br (by decide), ht .part (by decide), hanswer⟩
  · exact quarRelease_without_effect hup hcheck hquar fun t ht hanswer =>
      ⟨ht .acc (by decide), ht .sq (by decide), ht .br (by decide), ht .part (by decide), ht .nums (by decide), hanswer⟩
  · exact refusedWrite_ends hup hcheck fun t ht hanswer =>
      ⟨ht .acc (by decide), ht .sq (by decide), ht .br (by decide), ht .part (by decide), ht .nums (by decide), hanswer⟩
  · exact quarRelease_facility_refused hup hover fun t ht hanswer =>
      ⟨ht .acc (by decide), ht .nums (by decide), hanswer⟩

/-! ## Millet: a run seen through its channel's registers (R410, R417)

The registers of a channel stand in the memory map, in its page of Table 14.4: RUNS of channel c at offset 0x3C. -/

/-- A Warden region that lets channel 4 read and write the low LPDDR4X, and a run of one burst of eight bytes on it. -/
def oneBurstRun : State := { State.reset with
  clk := { Clock.init with running := true }
  bar := { Barley.init with regions := [(1, ⟨0x800000000, 0x10000000, 0xFFFFFFFF, 3, true⟩)] }
  mem := { Mem.init with
    st := .ready
    dma := vupd Mem.init.dma 4 (fun x => { x with
      st := .running, enable := true, src := [⟨0x804001000, 8, 0⟩], dst := [⟨0x804002000, 8, 0⟩] })
    runA := some 4 } }

/-- Where RUNS of channel 4 reads. -/
def runsOfChannel4 : Nat := pageWindow + 4 * 0x1000 + 0x3C

/-- Refutes O47: the end of a run changes a byte of the memory map outside its destination, for RUNS of its channel reads
one more. -/
theorem not_milletRuns : ¬ Obligations.MilletRuns := by
  unfold Obligations.MilletRuns
  intro h
  obtain ⟨-, -, -, -, hcopies, -⟩ := h
  obtain ⟨-, hkept, -⟩ := ends_stateAfter
    (hcopies false 4 0x804001000 0x804002000 8 runsOfChannel4 oneBurstRun
      (by decide +kernel) (by decide +kernel) (by decide +kernel) (by decide +kernel) (by decide +kernel)
      (by decide +kernel) (by decide +kernel) (by decide +kernel) (by decide) (by decide) (by decide)
      (by decide +kernel) (by decide +kernel) (by decide +kernel) (by decide +kernel))
  have hbefore : readByte oneBurstRun runsOfChannel4 = 0 := by decide +kernel
  have hafter : readByte (stateAfter (.dmaRunComplete false) oneBurstRun) runsOfChannel4 = 1 := by decide +kernel
  omega

/-! ## Clearing ENABLE of a channel (R421)

Bursts already under way may still arrive. What they touch beside memory are wait slots, sync cells and counters: the
channels, the engines' runs and the channels' interrupts stay. -/

/-- The channels, the runs of both engines and the interrupts of the channels are kept. Wait slots interrupt as 32 and up. -/
structure MilletKept (s t : State) : Prop where
  dma : t.mem.dma = s.mem.dma
  runA : t.mem.runA = s.mem.runA
  runB : t.mem.runB = s.mem.runB
  irqs : ∀ e ∈ t.bar.irqs, e.1 < 32 → e ∈ s.bar.irqs

theorem MilletKept.refl (s : State) : MilletKept s s := ⟨rfl, rfl, rfl, fun _ he _ => he⟩

theorem MilletKept.trans {s t u : State} (h : MilletKept s t) (k : MilletKept t u) : MilletKept s u :=
  ⟨k.dma.trans h.dma, k.runA.trans h.runA, k.runB.trans h.runB, fun e he hlt => h.irqs e (k.irqs e he hlt) hlt⟩

theorem MilletKept.of_only {L : List Area} {s t : State} (h : Only L s t) (hmem : Area.mem ∉ L) (hbar : Area.bar ∉ L) :
    MilletKept s t := by
  have h1 : t.mem = s.mem := h .mem hmem
  have h2 : t.bar = s.bar := h .bar hbar
  exact ⟨by rw [h1], by rw [h1], by rw [h1], fun e he _ => h2 ▸ he⟩

theorem MilletKept.ite {s a b : State} {c : Prop} [Decidable c] (ha : MilletKept s a) (hb : MilletKept s b) :
    MilletKept s (if c then a else b) := by
  split
  · exact ha
  · exact hb

theorem MilletKept.forEach {α : Type} (l : List α) {f : α → State → State} (hf : ∀ x u, MilletKept u (f x u))
    (s : State) : MilletKept s (forEach l f s) :=
  forEach_keeps (fun x u hu => hu.trans (hf x u)) (MilletKept.refl s)

theorem MilletKept.foldl {α : Type} (l : List α) {f : State → α → State} (hf : ∀ x u, MilletKept u (f u x))
    (s : State) : MilletKept s (l.foldl f s) :=
  List.foldlRecOn l f (MilletKept.refl s) (fun u hu x _ => hu.trans (hf x u))

theorem MilletKept.running {s t : State} (h : MilletKept s t) (mb : Bool) : running t mb = running s mb := by
  unfold Machine.running
  rw [h.runA, h.runB]

theorem milletKept_raiseIrq {source : Nat} (core : Nat) (s : State) (h : 32 ≤ source) :
    MilletKept s (raiseIrq source core s) := by
  unfold raiseIrq
  extract_lets e
  split
  · exact .refl s
  · refine ⟨rfl, rfl, rfl, fun x hx hlt => ?_⟩
    rcases List.mem_append.mp hx with hx | hx
    · exact hx
    · obtain rfl : x = e := List.mem_singleton.mp hx
      exact absurd hlt (Nat.not_lt.mpr h)

theorem milletKept_raiseMain (e : Ev) (source detail : Nat) (s : State) : MilletKept s (raiseMain e source detail s) :=
  .of_only (L := [.ev, .nut]) (keep_raiseMain _ _ _ (.of_all rfl) (only_refl _ s)) (by decide) (by decide)

theorem milletKept_putSlot (k : Nat) (x : WaitSlot) (s : State) : MilletKept s (putSlot k x s) :=
  ⟨rfl, rfl, rfl, fun _ he _ => he⟩

theorem milletKept_putCell (c v : Nat) (s : State) : MilletKept s (putCell c v s) := ⟨rfl, rfl, rfl, fun _ he _ => he⟩

theorem milletKept_tryFire (k : Nat) (s : State) : MilletKept s (tryFire k s) := by
  unfold tryFire
  extract_lets x v s1 s2
  have hs2 : MilletKept s s2 := (milletKept_putSlot _ _ s).trans
    (.ite (milletKept_raiseIrq _ _ (Nat.le_add_right 32 k)) (.refl _))
  exact .ite (.ite (hs2.trans (milletKept_raiseMain _ _ _ _)) hs2) (.refl s)

theorem milletKept_cellChanged (c : Nat) (s : State) : MilletKept s (cellChanged c s) := .forEach _ milletKept_tryFire s

theorem milletKept_signalCell (c n : Nat) (s : State) : MilletKept s (signalCell c n s) :=
  (milletKept_putCell _ _ s).trans (milletKept_cellChanged _ _)

theorem milletKept_setCell (c v : Nat) (s : State) : MilletKept s (setCell c v s) :=
  .ite ((milletKept_putCell _ _ s).trans (milletKept_cellChanged _ _)) (milletKept_putCell _ _ s)

theorem milletKept_waitWrite (k off w : Nat) (s : State) : MilletKept s (waitWrite k off w s) := by
  unfold waitWrite
  extract_lets x y
  exact .ite (.ite ((milletKept_putSlot _ _ s).trans (milletKept_tryFire _ _)) (milletKept_putSlot _ _ s))
    (.ite (milletKept_putSlot _ _ s) (.refl s))

theorem milletKept_putPlain (b : Burst) (ws : List Nat) (s : State) : MilletKept s (putPlain b ws s) := by
  refine .foldl _ (fun p u => ?_) s
  extract_lets a
  split
  · exact .ite (milletKept_waitWrite _ _ _ u) (.ite (.refl u) (.ite (milletKept_signalCell _ _ u)
      (.ite (milletKept_setCell _ _ u) (.refl u))))
  · exact .refl u

theorem milletKept_setMem {f : Mem → Mem} (s : State) (hdma : (f s.mem).dma = s.mem.dma)
    (hA : (f s.mem).runA = s.mem.runA) (hB : (f s.mem).runB = s.mem.runB) : MilletKept s (setMem f s) :=
  ⟨hdma, hA, hB, fun _ he _ => he⟩

theorem milletKept_updTile (t : Fin 68) (f : Tile → Tile) (s : State) : MilletKept s (updTile t f s) :=
  ⟨rfl, rfl, rfl, fun _ he _ => he⟩

theorem milletKept_clearPoison (a n : Nat) (s : State) : MilletKept s (clearPoison a n s) := by
  have drop (f : Nat → Bool) (k : Nat) :
      MilletKept s (incMax (setMem (fun m => { m with poison := m.poison.filter f }) s) Obj.memUeCount k u32) :=
    (milletKept_setMem s rfl rfl rfl).trans (.of_only (L := [.nums]) (keep_incMax _ _ _ (.of_all rfl) (only_refl _ _))
      (by decide) (by decide))
  unfold clearPoison
  split
  · exact drop _ _
  · exact drop _ _
  · exact milletKept_updTile _ _ s
  · exact .refl s

theorem milletKept_writeByte (a v : Nat) (s : State) : MilletKept s (writeByte a v s) := by
  unfold writeByte
  split
  · exact milletKept_setMem s rfl rfl rfl
  · exact milletKept_setMem s rfl rfl rfl
  · exact milletKept_setMem s rfl rfl rfl
  · exact milletKept_updTile _ _ s
  · exact milletKept_updTile _ _ s
  · exact .refl s

theorem milletKept_spill (c : Fin 32) (b : Burst) (s : State) : MilletKept s (spill c b s) := by
  unfold spill
  extract_lets x bs s0 s1 s2
  have hs0 : MilletKept s s0 := .ite ⟨rfl, rfl, rfl, fun _ he _ => he⟩ (.refl s)
  have hs1 : MilletKept s s1 := by
    unfold s1
    split
    · exact hs0.trans (milletKept_updTile _ _ _)
    · exact hs0
  have hs2 : MilletKept s s2 := by
    unfold s2
    split
    · exact hs1.trans (milletKept_putPlain _ _ _)
    · exact hs1.trans ((MilletKept.foldl _ (fun _ _ => milletKept_writeByte _ _ _) s1).trans (milletKept_clearPoison _ _ _))
  exact hs2.trans (.of_only (L := [.nums]) (keep_milletBytes _ _ (.of_all rfl) (only_refl _ _)) (by decide) (by decide))

theorem milletKept_takeFree (w : Nat) (s : State) : MilletKept s (takeFree w s).2 := ⟨rfl, rfl, rfl, fun _ he _ => he⟩

/-! ### The next run of an engine -/

/-- The lowest READY channel of an engine. -/
def nextReady (mb : Bool) (s : State) : Option (Fin 32) :=
  (List.finRange 32).find? (fun d => engineOf d == mb && (s.mem.dma.get d).st == .ready)

theorem running_setRun_same (mb : Bool) (c : Option (Fin 32)) (s : State) :
    running (setRun mb (c.map Fin.val) s) mb = c := by
  cases mb <;> cases c <;> simp [running, setRun]

theorem startNext_of_idle {mb : Bool} {s : State} (h : running s mb = none) :
    running (startNext mb s) mb = nextReady mb s := by
  unfold startNext
  rw [h]
  change running (match nextReady mb s with | some c => _ | none => s) mb = _
  cases hnext : nextReady mb s with
  | none => exact h
  | some d => exact running_setRun_same mb (some d) s

theorem running_endRun (c : Fin 32) (s : State) : running (endRun c s) (engineOf c) = nextReady (engineOf c) s := by
  refine (startNext_of_idle (running_setRun_same _ none s)).trans ?_
  unfold nextReady
  rw [setRun_dma]

theorem endRun_bar (c : Fin 32) (s : State) : (endRun c s).bar = s.bar :=
  keep_endRun (L := [.mem]) c (.of_all rfl) (only_refl _ s) .bar (by decide)

/-! ### The channel dropped -/

/-- The channel that DMA_DISABLE leaves: IDLE and not enabled. -/
def disabled (x : DmaCh) : DmaCh := { x with st := .idle, enable := false }

/-- A running channel has BYTES_DONE open. -/
theorem dropChan_of_running {c : Fin 32} {s : State} (h : (chanAt s c).st = .running) : ∃ n u, MilletKept s u ∧
    dropChan c s = endRun c (updDma c disabled (updDma c (fun x => { x with bytesDone := n }) u)) := by
  unfold dropChan
  extract_lets off s1
  rw [if_pos h]
  have hs1 : MilletKept s s1 := .forEach _ (fun b u => (milletKept_takeFree 1 u).trans
    (.ite (milletKept_spill _ _ _) (.refl _))) s
  refine ⟨_, _, ?_, rfl⟩
  exact hs1.trans ((milletKept_takeFree 64 s1).trans
    (forAll_keeps (fun t u hu => MilletKept.trans hu (milletKept_updTile _ _ _)) (.refl _)))

theorem nextReady_disabled (c : Fin 32) (f : DmaCh → DmaCh) {s u : State} (h : MilletKept s u) :
    nextReady (engineOf c) (updDma c disabled (updDma c f u)) =
      (List.finRange 32).find? (fun d => d != c && engineOf d == engineOf c && (chanAt s d).st == .ready) := by
  refine congrArg (List.find? · _) (funext fun d => ?_)
  by_cases hd : d = c
  · subst hd
    simp [disabled]
  · have hne : (d != c) = true := by simpa using hd
    simp [vupd_get_other _ _ _ _ (Ne.symm hd), h.dma, hne, chanAt]

/-- Settles O48: a running channel ends its run and the next READY one starts; any other is only marked. -/
theorem disableDropsTheChannel : Obligations.DisableDropsTheChannel := by
  unfold Obligations.DisableDropsTheChannel
  intro c s hup hfw _
  refine ends_of_next (t := dropChan c s) (if_pos (by simp [hup, hfw])) ?_
  by_cases hrun : (chanAt s c).st = .running
  · obtain ⟨n, u, hu, hdrop⟩ := dropChan_of_running hrun
    have hchan : chanAt (dropChan c s) c = { disabled (chanAt s c) with bytesDone := n } := by
      rw [hdrop, chanAt, endRun_keeps (by simp [disabled]), updDma_get_same, updDma_get_same, hu.dma]
      rfl
    have hnext := (congrArg (running · (engineOf c)) hdrop).trans ((running_endRun c _).trans (nextReady_disabled c _ hu))
    rw [hchan]
    refine ⟨rfl, rfl, rfl, fun k hk => ?_, rfl, rfl, rfl, rfl, fun _ => hnext, fun h => absurd hrun h⟩
    rw [hdrop, endRun_bar] at hk
    exact hu.irqs _ hk c.isLt
  · have hdrop : dropChan c s = updDma c disabled s := if_neg hrun
    have hchan : chanAt (dropChan c s) c = disabled (chanAt s c) := by
      rw [hdrop, chanAt, updDma_get_same, chanAt]
    rw [hchan]
    refine ⟨rfl, rfl, rfl, fun k hk => ?_, rfl, rfl, rfl, rfl, fun h => absurd h hrun, fun _ => ?_⟩
    · rw [hdrop] at hk
      exact hk
    · rw [hdrop]
      rfl

/-! ## A wait slot listed twice (R425, R426)

The wait slots are a list of numbers and slots, in which a slot is the first entry of its number. A change of a cell tries
the number of each entry that names the cell. Nothing in the statement keeps a state from listing a number twice. -/

/-- Slot 0 waits on cell 600 for a count that has come; a second entry of its number names cell 700. -/
def slotListedTwice : State := { State.reset with
  clk := { Clock.init with running := true }
  part := { Part.init with st := .ready, reset := false }
  mem := { Mem.init with slots := [(0, { WaitSlot.zero with cell := 600, arm := true }), (0, { WaitSlot.zero with cell := 700 })] } }

/-- Refutes O46: a write of cell 700 fires slot 0, whose cell is 600. -/
theorem not_memoryErrorsCellsAndRegions : ¬ Obligations.MemoryErrorsCellsAndRegions := by
  unfold Obligations.MemoryErrorsCellsAndRegions
  intro h
  obtain ⟨-, -, -, -, -, -, -, hother, -⟩ := h
  have hkept := ends_stateAfter (hother 700 1 0 { WaitSlot.zero with cell := 600, arm := true } slotListedTwice
    (by decide +kernel) (by decide +kernel) (.inr (by decide +kernel)))
  have hfired : (slotAt (stateAfter (.syncSet 700 1) slotListedTwice) 0).arm = false := by decide +kernel
  rw [hkept] at hfired
  exact absurd hfired (by decide)

/-! ## A codeword counter above its range (R383, R389)

FEC_CORRECTED is a count of 64 bits that a received frame raises up to its end. Nothing in the statement keeps a state
from holding a number above that end, and the count of no codeword then brings the number back to it. -/

/-- A duplicate: it carries the R-TAG number recovered last, and no codeword of it was corrected. -/
def replicatedFrame : FrameIn := ⟨80, 0, 0, none, some (4, 77), .icmp⟩

/-- Host port 1 is up, its FEC_CORRECTED stands one above 64 bits, and number 77 of stream 4 was just recovered. -/
def codewordsAboveRange : State := { State.reset with
  nums := [((Obj.fecCorrected 1).key, u64 + 1)]
  port := { Ports.init with recovered := [(4, ⟨77, [77], 0⟩)], host := Vector.replicate 2 { HostPort.init with link := .up200 } } }

/-- Refutes O44: a duplicate, of which nothing is to stay, changes FEC_CORRECTED. -/
theorem not_hostFramesAndMacsec : ¬ Obligations.HostFramesAndMacsec := by
  unfold Obligations.HostFramesAndMacsec
  intro h
  obtain ⟨-, -, -, -, hduplicate, -⟩ := h
  obtain ⟨-, -, hnums⟩ := ends_stateAfter (hduplicate 1 replicatedFrame 4 77 ⟨77, [77], 0⟩ codewordsAboveRange (by decide +kernel)
    (by decide +kernel) (by decide +kernel) (by decide +kernel) (by decide +kernel) (by decide +kernel) (by decide +kernel)
    (by decide +kernel) (by decide +kernel) (by decide +kernel))
  have hcount : getN (stateAfter (.hostFrameReceived 1 replicatedFrame) codewordsAboveRange) (Obj.fecCorrected 1) = u64 := by
    decide +kernel
  have hbefore : getN codewordsAboveRange (Obj.fecCorrected 1) = u64 + 1 := by decide +kernel
  have hkept : getN (stateAfter (.hostFrameReceived 1 replicatedFrame) codewordsAboveRange) (Obj.fecCorrected 1) = u64 + 1 :=
    (getN_of_nums_eq hnums _).trans hbefore
  omega

/-! ## The report of one channel (R495 to R499)

A sample, the end of a window or a block, and PEAK_RESET give each of the 13 channels one turn. The turn of a channel
changes its own sums and its own objects of the report, so the turns of the others leave them as they are. -/

@[simp] theorem updRep_get_same (c : Fin 13) (f : PowerCh → PowerCh) (s : State) :
    (updRep c f s).rep.get c = f (s.rep.get c) := vupd_get_same _ _ _

theorem updRep_get_other {j c : Fin 13} (f : PowerCh → PowerCh) (s : State) (h : j ≠ c) :
    (updRep j f s).rep.get c = s.rep.get c := vupd_get_other _ _ _ _ h

@[simp] theorem getN_updRep (c : Fin 13) (f : PowerCh → PowerCh) (s : State) (o : Obj) :
    getN (updRep c f s) o = getN s o := rfl

/-- The objects of the report of a channel, in the order of their indices: now, peak, count of the peak, the averages of
1 s, 1 min and 1 h, and the peak of 1 s (R495 to R499). -/
def reportObjects (c : Fin 13) : List Obj :=
  [Obj.powerNowW c.val, Obj.powerPeakW c.val, Obj.powerPeakCount c.val, Obj.avg1sW c.val, Obj.avg1mW c.val, Obj.avg1hW c.val,
    Obj.peak1sW c.val]

theorem report_keys_distinct : ∀ j c : Fin 13, j ≠ c → ∀ x ∈ reportObjects j, ∀ y ∈ reportObjects c, x.key ≠ y.key := by
  decide +kernel

/-- The channel's sums, its report and the clock are those of s. -/
def ReportKept (c : Fin 13) (s u : State) : Prop :=
  u.rep.get c = s.rep.get c ∧ (∀ o ∈ reportObjects c, getN u o = getN s o) ∧ u.clk = s.clk ∧
    getN u Obj.framePeriod = getN s Obj.framePeriod

theorem ReportKept.refl (c : Fin 13) (s : State) : ReportKept c s s := ⟨rfl, fun _ _ => rfl, rfl, rfl⟩

theorem ReportKept.trans {c : Fin 13} {s u v : State} (h1 : ReportKept c s u) (h2 : ReportKept c u v) : ReportKept c s v := by
  obtain ⟨hrep, hobj, hclk, hperiod⟩ := h1
  obtain ⟨hrep', hobj', hclk', hperiod'⟩ := h2
  exact ⟨hrep'.trans hrep, fun o ho => (hobj' o ho).trans (hobj o ho), hclk'.trans hclk, hperiod'.trans hperiod⟩

theorem framePeriod_key_ne_report : ∀ j : Fin 13, ∀ x ∈ reportObjects j, x.key ≠ Obj.framePeriod.key := by decide +kernel

theorem reportKept_setN {j c : Fin 13} (hj : j ≠ c) {o : Obj} (ho : o ∈ reportObjects j) (v : Nat) (u : State) :
    ReportKept c u (setN u o v) :=
  ⟨rfl, fun _ hq => getN_setN_other _ _ _ _ (report_keys_distinct j c hj o ho _ hq), rfl,
    getN_setN_other _ _ _ _ (framePeriod_key_ne_report j o ho)⟩

theorem reportKept_updRep {j c : Fin 13} (hj : j ≠ c) (f : PowerCh → PowerCh) (u : State) : ReportKept c u (updRep j f u) :=
  ⟨updRep_get_other _ _ hj, fun _ _ => rfl, rfl, rfl⟩

/-- What the turn of c makes of a state in which c is as it was before, no later turn changes. -/
theorem forAll_channel {c : Fin 13} {f : Fin 13 → State → State} {s : State} (hother : ∀ j, j ≠ c → ∀ u, ReportKept c u (f j u)) :
    ∃ u, ReportKept c s u ∧ ReportKept c (f c u) (forAll 13 f s) :=
  forAll_at (P := ReportKept c s) (Q := fun v => ∃ u, ReportKept c s u ∧ ReportKept c (f c u) v) c
    (fun j hj u hu => hu.trans (hother j hj u)) (fun u hu => ⟨u, hu, .refl _ _⟩)
    (fun j hj v ⟨u, hu, hv⟩ => ⟨u, hu, hv.trans (hother j hj v)⟩) (.refl c s)

/-! ### A sample -/

/-- A channel after a sample of p. -/
def sampled (p : Rat) (x : PowerCh) : PowerCh :=
  { x with p := p, win := x.win + p, winN := x.winN + 1, sec := x.sec + p, secN := x.secN + 1, mnt := x.mnt + p,
           mntN := x.mntN + 1, hour := x.hour + p, hourN := x.hourN + 1, energy := addEnergy x.energy p }

/-- The state of the power tree, which a sample reads and leaves. -/
def PowerTreeKept (s u : State) : Prop := u.br = s.br ∧ u.pow = s.pow ∧ u.pkgEnergy = s.pkgEnergy

theorem chPower_of_powerTreeKept {s u : State} (h : PowerTreeKept s u) (c : Fin 13) : chPower u c = chPower s c := by
  obtain ⟨hbr, hpow, -⟩ := h
  unfold chPower
  rw [hbr, hpow]

/-- The sample of one channel. -/
def sampleChannel (c : Fin 13) (u : State) : State := updRep c (sampled (chPower u c)) u

theorem execPowerSample_of_running {s : State} (pkg : Rat) (h : s.clk.running = true) :
    execPowerSample pkg s = .next { forAll 13 sampleChannel s with
      pkgEnergy := addEnergy (forAll 13 sampleChannel s).pkgEnergy pkg % 2 ^ 42 } := if_neg (by simp [h])

theorem forAll_sampleChannel (c : Fin 13) (s : State) :
    (forAll 13 sampleChannel s).rep.get c = sampled (chPower s c) (s.rep.get c) ∧ PowerTreeKept s (forAll 13 sampleChannel s) := by
  refine forAll_at (P := fun u => u.rep.get c = s.rep.get c ∧ PowerTreeKept s u)
    (Q := fun u => u.rep.get c = sampled (chPower s c) (s.rep.get c) ∧ PowerTreeKept s u) c
    (fun j hj u ⟨hrep, htree⟩ => ?_) (fun u ⟨hrep, htree⟩ => ?_) (fun j hj u ⟨hrep, htree⟩ => ?_) ⟨rfl, rfl, rfl, rfl⟩
  · exact ⟨(updRep_get_other _ _ hj).trans hrep, htree⟩
  · refine ⟨(updRep_get_same _ _ _).trans ?_, htree⟩
    rw [hrep, chPower_of_powerTreeKept htree]
  · exact ⟨(updRep_get_other _ _ hj).trans hrep, htree⟩

/-- A sample adds the power of each channel to its sums and its energy. -/
theorem powerSample_adds (pkg : Rat) (c : Fin 13) {s : State} (h : s.clk.running = true) :
    Ends (.powerSample pkg) s (fun t => t.rep.get c = sampled (chPower s c) (s.rep.get c) ∧
      t.pkgEnergy = addEnergy s.pkgEnergy pkg % 2 ^ 42 ∧ t.br = s.br) := by
  obtain ⟨hrep, hbr, -, henergy⟩ := forAll_sampleChannel c s
  exact ends_of_next (execPowerSample_of_running pkg h) ⟨hrep, congrArg (addEnergy · pkg % 2 ^ 42) henergy, hbr⟩

/-! ### The end of a window -/

/-- Makes the average of a window that ended at count e the power now, and the peak where it is the first or a higher one. -/
def reportWindow (e : Count) (c : Fin 13) (fresh : Bool) (avg : Nat) (s : State) : State :=
  if fresh || Fmt.f32.lt (getN (setN s (Obj.powerNowW c.val) avg) (Obj.powerPeakW c.val)) avg then
    setN (setN (setN s (Obj.powerNowW c.val) avg) (Obj.powerPeakW c.val) avg) (Obj.powerPeakCount c.val)
      (e - frameNs (setN s (Obj.powerNowW c.val) avg))
  else setN s (Obj.powerNowW c.val) avg

/-- The highest window of the second, after a window with the average avg. -/
def secondPeak (avg : Nat) : Option Nat → Nat
  | some v => if Fmt.f32.lt v avg then avg else v
  | none => avg

/-- A channel whose window from the count `start` ended in Rye cycle n. -/
def windowClosed (avg n : Nat) (start : Count) (peak : Option Nat) (y : PowerCh) : PowerCh :=
  { y with win := 0, winN := 0, winAt := some n, winFrom := start, fresh := false, peakSec := some (secondPeak avg peak) }

/-- The average of the samples of a window. -/
def windowMean (x : PowerCh) : Nat := f32OfRat (x.win / x.winN)

/-- The end of a window of one channel, at count e. -/
def closeWindow (e : Count) (c : Fin 13) (s : State) : State :=
  if (s.rep.get c).winN = 0 then s
  else updRep c (windowClosed (windowMean (s.rep.get c)) s.clk.cycles (e - frameNs (setN s (Obj.powerNowW c.val) (windowMean (s.rep.get c))))
    (s.rep.get c).peakSec) (reportWindow e c (s.rep.get c).fresh (windowMean (s.rep.get c)) s)

theorem execPowerWindowEnd_of_running {s : State} (h : s.clk.running = true) :
    execPowerWindowEnd s =
      .next (forAll 13 (closeWindow (Machine.windowEnd s)) (reachCount (Machine.windowEnd s) s)) := by
  unfold execPowerWindowEnd
  rw [if_neg (by simp [h])]
  refine congrArg Host.Outcome.next (congrFun (congrArg (forAll 13) ?_) _)
  funext c u
  by_cases hn : (u.rep.get c).winN = 0
  · exact (if_pos hn).trans (if_pos hn).symm
  · exact (if_neg hn).trans (if_neg hn).symm

theorem powerNowW_mem (c : Fin 13) : Obj.powerNowW c.val ∈ reportObjects c := by simp [reportObjects]
theorem powerPeakW_mem (c : Fin 13) : Obj.powerPeakW c.val ∈ reportObjects c := by simp [reportObjects]
theorem powerPeakCount_mem (c : Fin 13) : Obj.powerPeakCount c.val ∈ reportObjects c := by simp [reportObjects]
theorem avg1sW_mem (c : Fin 13) : Obj.avg1sW c.val ∈ reportObjects c := by simp [reportObjects]
theorem avg1mW_mem (c : Fin 13) : Obj.avg1mW c.val ∈ reportObjects c := by simp [reportObjects]
theorem avg1hW_mem (c : Fin 13) : Obj.avg1hW c.val ∈ reportObjects c := by simp [reportObjects]
theorem peak1sW_mem (c : Fin 13) : Obj.peak1sW c.val ∈ reportObjects c := by simp [reportObjects]

theorem reportKept_reportWindow (e : Count) (fresh : Bool) (avg : Nat) {j c : Fin 13} (hj : j ≠ c) (u : State) :
    ReportKept c u (reportWindow e j fresh avg u) := by
  have hnow := reportKept_setN hj (powerNowW_mem j) avg u
  unfold reportWindow
  split
  · exact (hnow.trans (reportKept_setN hj (powerPeakW_mem j) _ _)).trans (reportKept_setN hj (powerPeakCount_mem j) _ _)
  · exact hnow

theorem reportKept_closeWindow (e : Count) {j c : Fin 13} (hj : j ≠ c) (u : State) :
    ReportKept c u (closeWindow e j u) := by
  unfold closeWindow
  split
  · exact .refl _ _
  · exact (reportKept_reportWindow _ _ _ hj u).trans (reportKept_updRep hj _ _)

/-- What the report of a channel says after a window with the average avg, which began at the count `start`. -/
structure WindowReported (c : Fin 13) (fresh : Bool) (avg : Nat) (start : Count) (s t : State) : Prop where
  clk : t.clk = s.clk
  rep : t.rep = s.rep
  now : getN t (Obj.powerNowW c.val) = avg
  peak : if fresh = true ∨ Fmt.f32.lt (getN s (Obj.powerPeakW c.val)) avg = true then
      getN t (Obj.powerPeakW c.val) = avg ∧ getN t (Obj.powerPeakCount c.val) = start
    else getN t (Obj.powerPeakW c.val) = getN s (Obj.powerPeakW c.val) ∧
      getN t (Obj.powerPeakCount c.val) = getN s (Obj.powerPeakCount c.val)

theorem report_object_keys_distinct : ∀ c : Fin 13, (reportObjects c).Pairwise (fun x y => x.key ≠ y.key) := by decide +kernel

theorem framePeriod_setN_report {c : Fin 13} {o : Obj} (ho : o ∈ reportObjects c) (v : Nat) (s : State) :
    frameNs (setN s o v) = frameNs s := by
  unfold frameNs
  rw [getN_setN_other _ _ _ _ (framePeriod_key_ne_report c o ho)]

theorem reportWindow_reports (e : Count) (c : Fin 13) (fresh : Bool) (avg : Nat) (s : State) :
    WindowReported c fresh avg (e - frameNs s) s (reportWindow e c fresh avg s) := by
  have hkeys := report_object_keys_distinct c
  simp only [reportObjects, List.pairwise_cons, List.mem_cons, forall_eq_or_imp] at hkeys
  obtain ⟨⟨hnowPeak, hnowCount, -⟩, ⟨hpeakCount, -⟩, -⟩ := hkeys
  unfold reportWindow
  rw [framePeriod_setN_report (powerNowW_mem c), getN_setN_other _ _ _ _ hnowPeak]
  by_cases hnew : (fresh || Fmt.f32.lt (getN s (Obj.powerPeakW c.val)) avg) = true
  · rw [if_pos hnew]
    refine ⟨rfl, rfl, ?_, ?_⟩
    · rw [getN_setN_other _ _ _ _ hnowCount.symm, getN_setN_other _ _ _ _ hnowPeak.symm, getN_setN_same]
    · rw [if_pos (by simpa using hnew), getN_setN_other _ _ _ _ hpeakCount.symm]
      exact ⟨getN_setN_same _ _ _, getN_setN_same _ _ _⟩
  · rw [if_neg hnew]
    refine ⟨rfl, rfl, getN_setN_same _ _ _, ?_⟩
    rw [if_neg (by simpa using hnew), getN_setN_other _ _ _ _ hnowPeak, getN_setN_other _ _ _ _ hnowCount]
    exact ⟨rfl, rfl⟩

/-- The end of a window reports a channel that was sampled in it, and begins its next window. -/
theorem powerWindowEnd_reports (c : Fin 13) {s : State} (hrun : s.clk.running = true) (hn : (s.rep.get c).winN ≠ 0) :
    Ends .powerWindowEnd s (fun t => t.clk = (reachCount (Machine.windowEnd s) s).clk ∧
      t.rep.get c = windowClosed (windowMean (s.rep.get c)) (reachCount (Machine.windowEnd s) s).clk.cycles
        (Machine.windowEnd s - frameNs s) (s.rep.get c).peakSec
        (s.rep.get c) ∧
      getN t (Obj.powerNowW c.val) = windowMean (s.rep.get c) ∧
      if (s.rep.get c).fresh = true ∨ Fmt.f32.lt (getN s (Obj.powerPeakW c.val)) (windowMean (s.rep.get c)) = true then
        getN t (Obj.powerPeakW c.val) = windowMean (s.rep.get c) ∧
          getN t (Obj.powerPeakCount c.val) = Machine.windowEnd s - frameNs s
      else getN t (Obj.powerPeakW c.val) = getN s (Obj.powerPeakW c.val) ∧
        getN t (Obj.powerPeakCount c.val) = getN s (Obj.powerPeakCount c.val)) := by
  refine ends_of_next (execPowerWindowEnd_of_running hrun) ?_
  obtain ⟨k, hk⟩ := reachCount_eq_with_clk (Machine.windowEnd s) s
  obtain ⟨u, hu, ht⟩ := forAll_channel (c := c) (s := reachCount (Machine.windowEnd s) s)
    (f := closeWindow (Machine.windowEnd s)) (fun j hj u => reportKept_closeWindow _ hj u)
  obtain ⟨hrep, hobj, hclk, hperiod⟩ := hu
  obtain ⟨hrep', hobj', hclk', -⟩ := ht
  have hrep : u.rep.get c = s.rep.get c := by rw [hrep, hk]
  have hobj : ∀ o ∈ reportObjects c, getN u o = getN s o := fun o ho => by rw [hobj o ho, hk]; rfl
  have hframe : frameNs u = frameNs s := by
    unfold frameNs
    rw [hperiod, hk]
    rfl
  have hturn : closeWindow (Machine.windowEnd s) c u =
      updRep c (windowClosed (windowMean (s.rep.get c)) (reachCount (Machine.windowEnd s) s).clk.cycles
        (Machine.windowEnd s - frameNs s) (s.rep.get c).peakSec)
        (reportWindow (Machine.windowEnd s) c (s.rep.get c).fresh (windowMean (s.rep.get c)) u) := by
    unfold closeWindow
    rw [hrep, if_neg hn, framePeriod_setN_report (powerNowW_mem c), hframe, hclk]
  rw [hturn] at hrep' hobj' hclk'
  obtain ⟨wclk, wrep, wnow, wpeak⟩ := reportWindow_reports (Machine.windowEnd s) c (s.rep.get c).fresh (windowMean (s.rep.get c)) u
  refine ⟨hclk'.trans (wclk.trans hclk), ?_, (hobj' _ (powerNowW_mem c)).trans wnow, ?_⟩
  · rw [hrep', updRep_get_same, wrep, hrep]
  · rw [hobj' _ (powerPeakW_mem c), hobj' _ (powerPeakCount_mem c), ← hobj _ (powerPeakW_mem c), ← hobj _ (powerPeakCount_mem c), ← hframe]
    exact wpeak

/-! ### The end of a block -/

/-- The mean of the samples of a block. -/
def blockMean (sum : Rat) (n : Nat) : Nat := if n = 0 then nanF32 else f32OfRat (sum / n)

/-- Publishes a value of a block of channel c that was summed from its start. -/
def publish (k : Nat) (c : Fin 13) (x : PowerCh) (o : Fin 13 → Obj) (v : Nat) (s : State) : State :=
  if x.whole.contains k then setN s (o c) v else s

/-- The blocks of a channel that are summed from their start, once the next block of kind k has begun. -/
def wholeFrom (k : Nat) (x : PowerCh) : List Nat := if x.whole.contains k then x.whole else x.whole ++ [k]

/-- The end of a second, a minute and an hour for one channel. -/
def endSecond (c : Fin 13) (s : State) : State :=
  updRep c (fun y => { y with sec := 0, secN := 0, peakSec := none, whole := wholeFrom 0 (s.rep.get c) })
    (publish 0 c (s.rep.get c) (fun c => Obj.peak1sW c.val) ((s.rep.get c).peakSec.getD nanF32)
      (publish 0 c (s.rep.get c) (fun c => Obj.avg1sW c.val) (blockMean (s.rep.get c).sec (s.rep.get c).secN) s))

@[inherit_doc endSecond] def endMinute (c : Fin 13) (s : State) : State :=
  updRep c (fun y => { y with mnt := 0, mntN := 0, whole := wholeFrom 1 (s.rep.get c) })
    (publish 1 c (s.rep.get c) (fun c => Obj.avg1mW c.val) (blockMean (s.rep.get c).mnt (s.rep.get c).mntN) s)

@[inherit_doc endSecond] def endHour (c : Fin 13) (s : State) : State :=
  updRep c (fun y => { y with hour := 0, hourN := 0, whole := wholeFrom 2 (s.rep.get c) })
    (publish 2 c (s.rep.get c) (fun c => Obj.avg1hW c.val) (blockMean (s.rep.get c).hour (s.rep.get c).hourN) s)

/-- The state at the end of the running block of `len` ns. -/
def atBlockEnd (len : Nat) (s : State) : State := reachCount ((now s / len + 1) * len) s

theorem execAvgBlockEnd_second {s : State} (h : s.clk.running = true) :
    execAvgBlockEnd 0 s = .next (forAll 13 endSecond (atBlockEnd 1000000000 s)) := by
  unfold execAvgBlockEnd
  rw [if_neg (by simp [h])]
  rfl

theorem execAvgBlockEnd_minute {s : State} (h : s.clk.running = true) :
    execAvgBlockEnd 1 s = .next (forAll 13 endMinute (atBlockEnd 60000000000 s)) := by
  unfold execAvgBlockEnd
  rw [if_neg (by simp [h])]
  rfl

theorem execAvgBlockEnd_hour {s : State} (h : s.clk.running = true) :
    execAvgBlockEnd 2 s = .next (forAll 13 endHour (atBlockEnd 3600000000000 s)) := by
  unfold execAvgBlockEnd
  rw [if_neg (by simp [h])]
  rfl

theorem reportKept_publish (k : Nat) {j c : Fin 13} (hj : j ≠ c) (x : PowerCh) {o : Fin 13 → Obj} (ho : o j ∈ reportObjects j)
    (v : Nat) (u : State) : ReportKept c u (publish k j x o v u) := by
  unfold publish
  split
  · exact reportKept_setN hj ho v u
  · exact .refl _ _

theorem publish_rep (k : Nat) (c : Fin 13) (x : PowerCh) (o : Fin 13 → Obj) (v : Nat) (u : State) :
    (publish k c x o v u).rep = u.rep := by
  unfold publish
  split <;> rfl

theorem publish_of_whole {k : Nat} {x : PowerCh} (h : k ∈ x.whole) (c : Fin 13) (o : Fin 13 → Obj) (v : Nat) (u : State) :
    publish k c x o v u = setN u (o c) v := if_pos (by simpa using h)

theorem publish_of_partial {k : Nat} {x : PowerCh} (h : k ∉ x.whole) (c : Fin 13) (o : Fin 13 → Obj) (v : Nat) (u : State) :
    publish k c x o v u = u := if_neg (by simpa using h)

theorem reportKept_endSecond {j c : Fin 13} (hj : j ≠ c) (u : State) : ReportKept c u (endSecond j u) :=
  ((reportKept_publish 0 hj _ (avg1sW_mem j) _ u).trans (reportKept_publish 0 hj _ (peak1sW_mem j) _ _)).trans
    (reportKept_updRep hj _ _)

theorem reportKept_endMinute {j c : Fin 13} (hj : j ≠ c) (u : State) : ReportKept c u (endMinute j u) :=
  (reportKept_publish 1 hj _ (avg1mW_mem j) _ u).trans (reportKept_updRep hj _ _)

theorem reportKept_endHour {j c : Fin 13} (hj : j ≠ c) (u : State) : ReportKept c u (endHour j u) :=
  (reportKept_publish 2 hj _ (avg1hW_mem j) _ u).trans (reportKept_updRep hj _ _)

/-- The end of a block ends in a state that the turn of channel c decides, in a state where c is as before. -/
theorem blockEnd_ends {k : Fin 3} {len : Nat} {turn : Fin 13 → State → State} {c : Fin 13} {s : State} {P : State → Prop}
    (hexec : execAvgBlockEnd k s = .next (forAll 13 turn (atBlockEnd len s)))
    (hother : ∀ j, j ≠ c → ∀ u, ReportKept c u (turn j u))
    (hP : ∀ u t, u.rep.get c = s.rep.get c → (∀ o ∈ reportObjects c, getN u o = getN s o) → u.clk = (atBlockEnd len s).clk →
      ReportKept c (turn c u) t → P t) : Ends (.avgBlockEnd k) s P := by
  refine ends_of_next hexec ?_
  obtain ⟨clk, hclk⟩ := reachCount_eq_with_clk ((now s / len + 1) * len) s
  obtain ⟨u, ⟨hrep, hobj, huclk, -⟩, ht⟩ := forAll_channel (c := c) (s := atBlockEnd len s) hother
  exact hP u _ (by rw [hrep, atBlockEnd, hclk]) (fun o ho => by rw [hobj o ho, atBlockEnd, hclk]; rfl) huclk ht

theorem avg1sW_key_ne_peak1sW (c : Fin 13) : (Obj.peak1sW c.val).key ≠ (Obj.avg1sW c.val).key := by
  simp only [Obj.peak1sW, Obj.avg1sW]
  omega

theorem avgBlockEnd_second (c : Fin 13) {s : State} (hrun : s.clk.running = true) (hwhole : 0 ∈ (s.rep.get c).whole) :
    Ends (.avgBlockEnd 0) s (fun t => getN t (Obj.avg1sW c.val) = blockMean (s.rep.get c).sec (s.rep.get c).secN ∧
      getN t (Obj.peak1sW c.val) = (s.rep.get c).peakSec.getD nanF32 ∧
      t.rep.get c = { s.rep.get c with sec := 0, secN := 0, peakSec := none, whole := wholeFrom 0 (s.rep.get c) } ∧
      t.clk = (atBlockEnd 1000000000 s).clk) := by
  refine blockEnd_ends (c := c) (execAvgBlockEnd_second hrun) (fun j hj u => reportKept_endSecond hj u) fun u t hrep _ hclk ht => ?_
  obtain ⟨hrep', hobj', hclk', -⟩ := ht
  rw [endSecond, hrep, publish_of_whole hwhole, publish_of_whole hwhole] at hrep' hobj' hclk'
  refine ⟨(hobj' _ (avg1sW_mem c)).trans ?_, (hobj' _ (peak1sW_mem c)).trans ?_, ?_, hclk'.trans hclk⟩
  · rw [getN_updRep, getN_setN_other _ _ _ _ (avg1sW_key_ne_peak1sW c), getN_setN_same]
  · rw [getN_updRep, getN_setN_same]
  · rw [hrep', updRep_get_same]
    exact congrArg (fun x : PowerCh => { x with sec := 0, secN := 0, peakSec := none, whole := wholeFrom 0 (s.rep.get c) }) hrep

theorem avgBlockEnd_minute (c : Fin 13) {s : State} (hrun : s.clk.running = true) :
    Ends (.avgBlockEnd 1) s (fun t => getN t (Obj.avg1mW c.val) = (if 1 ∈ (s.rep.get c).whole then
        blockMean (s.rep.get c).mnt (s.rep.get c).mntN else getN s (Obj.avg1mW c.val)) ∧
      t.rep.get c = { s.rep.get c with mnt := 0, mntN := 0, whole := wholeFrom 1 (s.rep.get c) }) := by
  refine blockEnd_ends (c := c) (execAvgBlockEnd_minute hrun) (fun j hj u => reportKept_endMinute hj u) fun u t hrep hobj _ ht => ?_
  obtain ⟨hrep', hobj', -, -⟩ := ht
  rw [endMinute, hrep] at hrep' hobj'
  refine ⟨(hobj' _ (avg1mW_mem c)).trans ?_, ?_⟩
  · rw [getN_updRep]
    by_cases hwhole : 1 ∈ (s.rep.get c).whole
    · rw [publish_of_whole hwhole, if_pos hwhole, getN_setN_same]
    · rw [publish_of_partial hwhole, if_neg hwhole, hobj _ (avg1mW_mem c)]
  · rw [hrep', updRep_get_same, publish_rep]
    exact congrArg (fun x : PowerCh => { x with mnt := 0, mntN := 0, whole := wholeFrom 1 (s.rep.get c) }) hrep

theorem avgBlockEnd_hour (c : Fin 13) {s : State} (hrun : s.clk.running = true) (hwhole : 2 ∈ (s.rep.get c).whole) :
    Ends (.avgBlockEnd 2) s (fun t => getN t (Obj.avg1hW c.val) = blockMean (s.rep.get c).hour (s.rep.get c).hourN ∧
      t.rep.get c = { s.rep.get c with hour := 0, hourN := 0, whole := wholeFrom 2 (s.rep.get c) }) := by
  refine blockEnd_ends (c := c) (execAvgBlockEnd_hour hrun) (fun j hj u => reportKept_endHour hj u) fun u t hrep _ _ ht => ?_
  obtain ⟨hrep', hobj', -, -⟩ := ht
  rw [endHour, hrep, publish_of_whole hwhole] at hrep' hobj'
  refine ⟨(hobj' _ (avg1hW_mem c)).trans (getN_setN_same _ _ _), ?_⟩
  rw [hrep', updRep_get_same]
  exact congrArg (fun x : PowerCh => { x with hour := 0, hourN := 0, whole := wholeFrom 2 (s.rep.get c) }) hrep

theorem mem_wholeFrom (k : Nat) (x : PowerCh) : k ∈ wholeFrom k x := by
  unfold wholeFrom
  split
  · next h => exact List.contains_iff_mem.mp h
  · simp

/-! ### PEAK_RESET -/

/-- PEAK_RESET for one channel. -/
def resetPeak (c : Fin 13) (s : State) : State :=
  if (s.rep.get c).winAt = some s.clk.cycles then
    setN (setN s (Obj.powerPeakW c.val) (getN s (Obj.powerNowW c.val))) (Obj.powerPeakCount c.val) (s.rep.get c).winFrom
  else updRep c (fun y => { y with fresh := true }) (setN (setN s (Obj.powerPeakW c.val) 0) (Obj.powerPeakCount c.val) 0)

theorem reportKept_resetPeak {j c : Fin 13} (hj : j ≠ c) (u : State) : ReportKept c u (resetPeak j u) := by
  unfold resetPeak
  split
  · exact (reportKept_setN hj (powerPeakW_mem j) _ _).trans (reportKept_setN hj (powerPeakCount_mem j) _ _)
  · exact ((reportKept_setN hj (powerPeakW_mem j) _ _).trans (reportKept_setN hj (powerPeakCount_mem j) _ _)).trans
      (reportKept_updRep hj _ _)

theorem peakReset_eq_forAll (n : Count) (s : State) : peakReset n s = forAll 13 resetPeak s := rfl

theorem powerPeakCount_key_ne_powerPeakW (c : Fin 13) : (Obj.powerPeakCount c.val).key ≠ (Obj.powerPeakW c.val).key := by
  simp only [Obj.powerPeakCount, Obj.powerPeakW]
  omega

/-- What PEAK_RESET leaves of the peak of one channel. -/
def PeakReset (c : Fin 13) (s t : State) : Prop :=
  if (s.rep.get c).winAt = some s.clk.cycles then
    getN t (Obj.powerPeakW c.val) = getN s (Obj.powerNowW c.val) ∧ getN t (Obj.powerPeakCount c.val) = (s.rep.get c).winFrom ∧
      t.rep.get c = s.rep.get c
  else getN t (Obj.powerPeakW c.val) = 0 ∧ getN t (Obj.powerPeakCount c.val) = 0 ∧
    t.rep.get c = { s.rep.get c with fresh := true }

theorem peakReset_resets (n : Count) (c : Fin 13) (s : State) : PeakReset c s (peakReset n s) := by
  obtain ⟨u, ⟨hrep, hobj, hclk, -⟩, ⟨hrep', hobj', -, -⟩⟩ :=
    forAll_channel (c := c) (s := s) (fun j hj u => reportKept_resetPeak hj u)
  rw [peakReset_eq_forAll]
  rw [resetPeak, hrep, hclk] at hrep' hobj'
  unfold PeakReset
  rw [hobj' _ (powerPeakW_mem c), hobj' _ (powerPeakCount_mem c), hrep']
  split
  · refine ⟨?_, getN_setN_same _ _ _, hrep⟩
    rw [getN_setN_other _ _ _ _ (powerPeakCount_key_ne_powerPeakW c), getN_setN_same, hobj _ (powerNowW_mem c)]
  · refine ⟨?_, (getN_updRep _ _ _ _).trans (getN_setN_same _ _ _), ?_⟩
    · rw [getN_updRep, getN_setN_other _ _ _ _ (powerPeakCount_key_ne_powerPeakW c), getN_setN_same]
    · rw [updRep_get_same]
      exact congrArg (fun x : PowerCh => { x with fresh := true }) hrep

/-- The state in which an accepted write has its effect. -/
def acceptedState (s : State) : State :=
  { s with clk := { s.clk with lastAccept := acceptCount s }, oda := { s.oda with answer := some (answerOf 0 0 0 (acceptCount s)) } }

theorem accept_eq_eff_acceptedState (eff : Count → State → State) (s : State) :
    accept eff s = eff (acceptCount s) (acceptedState s) := rfl

theorem peakReset_ends {au : Auth} (c : Fin 13) {s : State} (hup : s.oda.serving = true)
    (hcheck : precheck s au Obj.peakReset.key 0 (.num 1) = 0) : Ends (.peakReset au) s (PeakReset c s) := by
  refine ends_of_next (congrArg Host.Outcome.next (writeStep_of_accepted _ hup hcheck rfl)) ?_
  rw [accept_eq_eff_acceptedState]
  exact peakReset_resets _ c (acceptedState s)

/-- Settles O53: every report of the channels is the turn of each of them, which reads and writes its own sums alone. -/
theorem powerReports : Obligations.PowerReports := by
  unfold Obligations.PowerReports
  refine ⟨fun pkg c s hrun => ?_, fun c s hrun hn => ?_, fun c s hrun hwhole => ?_, fun c s hrun hwhole => ?_,
    fun c s hrun hwhole => ?_, fun c s hrun hpartial => ?_, fun au c s hup hcheck => peakReset_ends c hup hcheck⟩
  · refine ends_mono (powerSample_adds pkg c hrun) fun t ⟨hrep, henergy, hbr⟩ => ?_
    rw [hrep]
    exact ⟨rfl, rfl, rfl, rfl, henergy, hbr⟩
  · refine ends_mono (powerWindowEnd_reports c hrun hn) fun t ⟨hclk, hrep, hnow, hpeak⟩ => ?_
    rw [hnow, hrep]
    exact ⟨rfl, rfl, rfl, hclk, rfl, hpeak, rfl, rfl⟩
  · refine ends_mono (avgBlockEnd_second c hrun hwhole) fun t ⟨hmean, hpeak, hrep, hclk⟩ => ?_
    rw [hrep]
    exact ⟨hmean, hpeak, rfl, rfl, rfl, hclk⟩
  · refine ends_mono (avgBlockEnd_minute c hrun) fun t ⟨hmean, hrep⟩ => ?_
    rw [hrep]
    rw [if_pos hwhole] at hmean
    exact ⟨hmean, rfl, rfl, rfl⟩
  · refine ends_mono (avgBlockEnd_hour c hrun hwhole) fun t ⟨hmean, hrep⟩ => ?_
    rw [hrep]
    exact ⟨hmean, rfl, rfl, rfl⟩
  · refine ends_mono (avgBlockEnd_minute c hrun) fun t ⟨hmean, hrep⟩ => ?_
    rw [hrep]
    rw [if_neg hpartial] at hmean
    exact ⟨hmean, rfl, rfl, mem_wholeFrom 1 _, rfl⟩

/-! ## Operating seconds (R483, R493)

A second adds one to OPERATING_S; then each position, and after them each branch, has one turn that touches objects of its
own. -/

theorem getN_inc32_of_eq {s u : State} {o : Obj} (h : getN u o = getN s o) : getN (inc32 u o) o = getN (inc32 s o) o := by
  rw [getN_inc32_same, getN_inc32_same, h]

theorem getN_inc32_other (s : State) {o q : Obj} (h : o.key ≠ q.key) : getN (inc32 s o) q = getN s q :=
  getN_setN_other _ _ _ _ h

/-- A position's counts, which its turn sets: the seconds of the position, and the count of its serial. -/
def setPositionCounts (a : Fin 8) (serial : Nat) (s : State) : State :=
  setN (inc32 s (Obj.posOnS a.val)) (Obj.serialInsertions a.val) serial

theorem only_setPositionCounts (a : Fin 8) (serial : Nat) (s : State) : Only [.nums] s (setPositionCounts a serial s) :=
  keep_setN _ _ (.of_all rfl) (keep_inc32 _ (.of_all rfl) (only_refl _ s))

theorem getN_setPositionCounts_other {a : Fin 8} (serial : Nat) (s : State) {o : Obj} (hpos : (Obj.posOnS a.val).key ≠ o.key)
    (hins : (Obj.serialInsertions a.val).key ≠ o.key) : getN (setPositionCounts a serial s) o = getN s o := by
  rw [setPositionCounts, getN_setN_other _ _ _ _ hins, getN_inc32_other _ hpos]

/-- One more second with the serial read last. -/
def addSince (a : Fin 8) (n : Nutmeg) : Nutmeg := { n with onSince := put n.onSince a.val (lookD n.onSince a.val 0 + 1) }

/-- The count of the serial of a position with one more second in its upper half. -/
def serialAfter (a : Fin 8) (s : State) : Nat :=
  min (getN s (Obj.serialInsertions a.val) / two32 + 1) u32 * two32 + getN s (Obj.serialInsertions a.val) % two32

/-- What the turns of the positions leave: the clock, the state of branches and sequencers, the next second, OPERATING_S and
the seconds of the branches. -/
structure BesidePositions (s u : State) : Prop where
  clk : u.clk = s.clk
  br : u.br = s.br
  sq : u.sq = s.sq
  acc : u.acc = s.acc
  second : u.nut.secondCycle = s.nut.secondCycle
  operating : getN u Obj.operatingS = getN s Obj.operatingS
  branch : ∀ b : Fin 12, getN u (Obj.peOnS b.val) = getN s (Obj.peOnS b.val)

theorem BesidePositions.refl (s : State) : BesidePositions s s := ⟨rfl, rfl, rfl, rfl, rfl, rfl, fun _ => rfl⟩

theorem BesidePositions.trans {s u v : State} (h1 : BesidePositions s u) (h2 : BesidePositions u v) : BesidePositions s v :=
  ⟨h2.clk.trans h1.clk, h2.br.trans h1.br, h2.sq.trans h1.sq, h2.acc.trans h1.acc, h2.second.trans h1.second,
    h2.operating.trans h1.operating, fun b => (h2.branch b).trans (h1.branch b)⟩

theorem accelOn_of_besidePositions {s u : State} (h : BesidePositions s u) (a : Fin 8) : accelOn u a = accelOn s a := by
  unfold accelOn accelState
  rw [h.sq, h.acc, h.br]

theorem getN_setNut (f : Nutmeg → Nutmeg) (s : State) (o : Obj) : getN (setNut f s) o = getN s o := rfl

theorem onSecond_of_on {a : Fin 8} {s : State} (h : accelOn s a = true) :
    onSecond a s = setNut (addSince a) (setPositionCounts a (serialAfter a s) s) := if_pos h

theorem onSecond_of_not_on {a : Fin 8} {s : State} (h : accelOn s a = false) : onSecond a s = s := if_neg (by simp [h])

theorem onSince_onSecond_of_on {a : Fin 8} {s : State} (h : accelOn s a = true) :
    (onSecond a s).nut.onSince = put s.nut.onSince a.val (lookD s.nut.onSince a.val 0 + 1) := by
  rw [onSecond_of_on h]
  show (addSince a (setPositionCounts a _ s).nut).onSince = _
  rw [show (setPositionCounts a (serialAfter a s) s).nut = s.nut from only_setPositionCounts a _ s .nut (by decide)]
  rfl

theorem getN_onSecond_other (a : Fin 8) (s : State) {o : Obj} (hpos : (Obj.posOnS a.val).key ≠ o.key)
    (hins : (Obj.serialInsertions a.val).key ≠ o.key) : getN (onSecond a s) o = getN s o := by
  cases h : accelOn s a with
  | true =>
    rw [onSecond_of_on h]
    rw [getN_setNut, getN_setPositionCounts_other _ _ hpos hins]
  | false => rw [onSecond_of_not_on h]

theorem secondCycle_onSecond (a : Fin 8) (s : State) : (onSecond a s).nut.secondCycle = s.nut.secondCycle := by
  cases h : accelOn s a with
  | true =>
    rw [onSecond_of_on h]
    show (addSince a (setPositionCounts a _ s).nut).secondCycle = _
    rw [show (setPositionCounts a (serialAfter a s) s).nut = s.nut from only_setPositionCounts a _ s .nut (by decide)]
    rfl
  | false => rw [onSecond_of_not_on h]

theorem besidePositions_onSecond (a : Fin 8) (s : State) : BesidePositions s (onSecond a s) := by
  have hframe := keep_onSecond (L := [.nums, .nut]) a (.of_all rfl) (only_refl _ s)
  refine ⟨hframe .clk (by decide), hframe .br (by decide), hframe .sq (by decide), hframe .acc (by decide),
    secondCycle_onSecond a s, getN_onSecond_other a s ?_ ?_, fun b => getN_onSecond_other a s ?_ ?_⟩ <;>
    simp only [Obj.posOnS, Obj.serialInsertions, Obj.operatingS, Obj.peOnS] <;> omega

/-- The seconds of position a in A_ON, and those of them with the serial read last. -/
def positionSeconds (a : Fin 8) (s : State) : Nat × Nat := (getN s (Obj.posOnS a.val), lookD s.nut.onSince a.val 0)

theorem lookD_put_same {α : Type} (m : Map α) (k : Nat) (v d : α) : lookD (put m k v) k d = v := by
  rw [lookD, look_put_same, Option.getD_some]

theorem lookD_put_other {α : Type} (m : Map α) {k j : Nat} (v d : α) (h : k ≠ j) : lookD (put m k v) j d = lookD m j d := by
  rw [lookD, look_put_other _ _ _ _ h, lookD]

theorem positionSeconds_onSecond_other {j a : Fin 8} (h : j ≠ a) (s : State) :
    positionSeconds a (onSecond j s) = positionSeconds a s := by
  have hval : j.val ≠ a.val := fun e => h (Fin.ext e)
  have hpos : getN (onSecond j s) (Obj.posOnS a.val) = getN s (Obj.posOnS a.val) := by
    refine getN_onSecond_other j s ?_ ?_ <;> simp only [Obj.posOnS, Obj.serialInsertions] <;> omega
  refine Prod.ext hpos ?_
  cases hon : accelOn s j with
  | true =>
    show lookD (onSecond j s).nut.onSince a.val 0 = lookD s.nut.onSince a.val 0
    rw [onSince_onSecond_of_on hon, lookD_put_other _ _ _ hval]
  | false => rw [onSecond_of_not_on hon]

/-- The seconds of a position after one more second. -/
def secondsAfter (a : Fin 8) (s : State) : Nat × Nat :=
  (if accelOn s a = true then getN (inc32 s (Obj.posOnS a.val)) (Obj.posOnS a.val) else getN s (Obj.posOnS a.val),
    lookD s.nut.onSince a.val 0 + if accelOn s a = true then 1 else 0)

theorem positionSeconds_onSecond (a : Fin 8) (s : State) : positionSeconds a (onSecond a s) = secondsAfter a s := by
  cases hon : accelOn s a with
  | true =>
    unfold positionSeconds secondsAfter
    rw [if_pos hon, if_pos hon, onSince_onSecond_of_on hon, lookD_put_same, onSecond_of_on hon, getN_setNut,
      setPositionCounts, getN_setN_other _ _ _ _ (by simp only [Obj.posOnS, Obj.serialInsertions]; omega)]
  | false =>
    rw [onSecond_of_not_on hon]
    unfold positionSeconds secondsAfter
    rw [if_neg (by simp [hon]), if_neg (by simp [hon]), Nat.add_zero]

theorem secondsAfter_congr {a : Fin 8} {s u : State} (h : BesidePositions s u) (hpos : positionSeconds a u = positionSeconds a s) :
    secondsAfter a u = secondsAfter a s := by
  obtain ⟨hcount, hsince⟩ := Prod.ext_iff.mp hpos
  unfold secondsAfter
  rw [accelOn_of_besidePositions h, getN_inc32_of_eq hcount]
  exact Prod.ext (congrArg (ite (accelOn s a = true) _) hcount) (congrArg (· + _) hsince)

theorem forAll_onSecond (a : Fin 8) (s : State) :
    BesidePositions s (forAll 8 onSecond s) ∧ positionSeconds a (forAll 8 onSecond s) = secondsAfter a s := by
  refine forAll_at (P := fun u => BesidePositions s u ∧ positionSeconds a u = positionSeconds a s)
    (Q := fun u => BesidePositions s u ∧ positionSeconds a u = secondsAfter a s) a
    (fun j hj u ⟨hbeside, hpos⟩ => ?_) (fun u ⟨hbeside, hpos⟩ => ?_) (fun j hj u ⟨hbeside, hpos⟩ => ?_) ⟨.refl s, rfl⟩
  · exact ⟨hbeside.trans (besidePositions_onSecond j u), (positionSeconds_onSecond_other hj u).trans hpos⟩
  · exact ⟨hbeside.trans (besidePositions_onSecond a u), (positionSeconds_onSecond a u).trans (secondsAfter_congr hbeside hpos)⟩
  · exact ⟨hbeside.trans (besidePositions_onSecond j u), (positionSeconds_onSecond_other hj u).trans hpos⟩

theorem only_branchSecond (b : Fin 12) (s : State) : Only [.nums] s (branchSecond b s) :=
  keep_branchSecond b (.of_all rfl) (only_refl _ s)

theorem getN_branchSecond_other (b : Fin 12) (s : State) {o : Obj} (h : (Obj.peOnS b.val).key ≠ o.key) :
    getN (branchSecond b s) o = getN s o := by
  unfold branchSecond
  split
  · exact getN_inc32_other _ h
  · rfl

/-- PE_ON_S of branch b after one more second. -/
def branchSecondsAfter (b : Fin 12) (s : State) : Nat :=
  if (s.br.get b).st = .on then getN (inc32 s (Obj.peOnS b.val)) (Obj.peOnS b.val) else getN s (Obj.peOnS b.val)

theorem getN_branchSecond (b : Fin 12) (s : State) : getN (branchSecond b s) (Obj.peOnS b.val) = branchSecondsAfter b s :=
  apply_ite (fun u => getN u (Obj.peOnS b.val)) _ _ _

theorem branchSecondsAfter_congr {b : Fin 12} {s u : State} (hbr : u.br = s.br)
    (hsec : getN u (Obj.peOnS b.val) = getN s (Obj.peOnS b.val)) : branchSecondsAfter b u = branchSecondsAfter b s := by
  unfold branchSecondsAfter
  rw [hbr, getN_inc32_of_eq hsec, hsec]

/-- Of the turns of the branches, only that of b touches the seconds of b. -/
theorem forAll_branchSecond (b : Fin 12) (s : State) :
    Only [.nums] s (forAll 12 branchSecond s) ∧ getN (forAll 12 branchSecond s) (Obj.peOnS b.val) = branchSecondsAfter b s := by
  have hkey {j : Fin 12} (hj : j ≠ b) : (Obj.peOnS j.val).key ≠ (Obj.peOnS b.val).key := by
    have hval : j.val ≠ b.val := fun e => hj (Fin.ext e)
    simp only [Obj.peOnS]
    omega
  refine forAll_at (P := fun u => Only [.nums] s u ∧ getN u (Obj.peOnS b.val) = getN s (Obj.peOnS b.val))
    (Q := fun u => Only [.nums] s u ∧ getN u (Obj.peOnS b.val) = branchSecondsAfter b s) b
    (fun j hj u ⟨hframe, hsec⟩ => ?_) (fun u ⟨hframe, hsec⟩ => ?_) (fun j hj u ⟨hframe, hsec⟩ => ?_) ⟨only_refl _ s, rfl⟩
  · exact ⟨only_trans hframe (only_branchSecond j u), (getN_branchSecond_other j u (hkey hj)).trans hsec⟩
  · exact ⟨only_trans hframe (only_branchSecond b u),
      (getN_branchSecond b u).trans (branchSecondsAfter_congr (hframe .br (by decide)) hsec)⟩
  · exact ⟨only_trans hframe (only_branchSecond j u), (getN_branchSecond_other j u (hkey hj)).trans hsec⟩

theorem getN_forAll_branchSecond_other (s : State) {o : Obj} (h : ∀ b : Fin 12, (Obj.peOnS b.val).key ≠ o.key) :
    getN (forAll 12 branchSecond s) o = getN s o :=
  forAll_keeps (P := fun u => getN u o = getN s o) (fun b u hu => (getN_branchSecond_other b u (h b)).trans hu) rfl

/-- The state at the next second, with OPERATING_S one more. -/
def secondReached (s : State) : State :=
  inc32 (setNut (fun n => { n with secondCycle := s.nut.secondCycle + sCycles 1 }) (tickTo (s.nut.secondCycle + sCycles 1) s))
    Obj.operatingS

/-- The next second moves the clock and the next second's cycle, and adds one to OPERATING_S. -/
theorem secondReached_eq (s : State) : ∃ k, (tickTo (s.nut.secondCycle + sCycles 1) s).clk = k ∧ secondReached s =
    inc32 { s with clk := k, nut := { s.nut with secondCycle := s.nut.secondCycle + sCycles 1 } } Obj.operatingS := by
  obtain ⟨k, hk⟩ := tickTo_eq_with_clk (s.nut.secondCycle + sCycles 1) s
  refine ⟨k, by rw [hk], ?_⟩
  rw [secondReached, hk]
  rfl

theorem secondReached_counts (s : State) : (secondReached s).nut.secondCycle = s.nut.secondCycle + sCycles 1 ∧
    (secondReached s).clk = (tickTo (s.nut.secondCycle + sCycles 1) s).clk ∧ (secondReached s).br = s.br ∧
    getN (secondReached s) Obj.operatingS = getN (inc32 s Obj.operatingS) Obj.operatingS ∧
    (∀ b : Fin 12, getN (secondReached s) (Obj.peOnS b.val) = getN s (Obj.peOnS b.val)) ∧
    ∀ a : Fin 8, secondsAfter a (secondReached s) = secondsAfter a s := by
  obtain ⟨k, hclk, hs⟩ := secondReached_eq s
  rw [hs, hclk]
  refine ⟨rfl, rfl, rfl, getN_inc32_of_eq rfl, fun b => ?_, fun a => ?_⟩
  · exact getN_inc32_other _ (by simp only [Obj.peOnS, Obj.operatingS]; omega)
  · have hpos : ∀ u : State, getN (inc32 u Obj.operatingS) (Obj.posOnS a.val) = getN u (Obj.posOnS a.val) := fun u =>
      getN_inc32_other _ (by simp only [Obj.posOnS, Obj.operatingS]; omega)
    unfold secondsAfter
    rw [getN_inc32_of_eq (hpos _), hpos]
    rfl

theorem execOperatingSecond_of_running {s : State} (h : s.clk.running = true) :
    execOperatingSecond s = .next (forAll 12 branchSecond (forAll 8 onSecond (secondReached s))) := if_neg (by simp [h])

/-- A second adds one to OPERATING_S, to each position in A_ON and to each branch in ON. -/
theorem operatingSecond_adds (a : Fin 8) (b : Fin 12) {s : State} (hrun : s.clk.running = true) :
    Ends .operatingSecond s (fun t => getN t Obj.operatingS = getN (inc32 s Obj.operatingS) Obj.operatingS ∧
      t.nut.secondCycle = s.nut.secondCycle + sCycles 1 ∧ t.clk = (tickTo (s.nut.secondCycle + sCycles 1) s).clk ∧
      getN t (Obj.peOnS b.val) = branchSecondsAfter b s ∧ positionSeconds a t = secondsAfter a s) := by
  refine ends_of_next (execOperatingSecond_of_running hrun) ?_
  obtain ⟨hpositions, hseconds⟩ := forAll_onSecond a (secondReached s)
  obtain ⟨hframe, hbranch⟩ := forAll_branchSecond b (forAll 8 onSecond (secondReached s))
  have hoperating := getN_forAll_branchSecond_other (forAll 8 onSecond (secondReached s)) (o := Obj.operatingS)
    (fun b => by simp only [Obj.peOnS, Obj.operatingS]; omega)
  have hposition := getN_forAll_branchSecond_other (forAll 8 onSecond (secondReached s)) (o := Obj.posOnS a.val)
    (fun b => by simp only [Obj.peOnS, Obj.posOnS]; omega)
  generalize forAll 12 branchSecond (forAll 8 onSecond (secondReached s)) = t at *
  generalize forAll 8 onSecond (secondReached s) = u at *
  have hnut : t.nut = u.nut := hframe .nut (by decide)
  obtain ⟨rnut, rclk, rbr, roperating, rseconds⟩ := secondReached_counts s
  refine ⟨?_, ?_, ?_, ?_, ?_⟩
  · rw [hoperating, hpositions.operating, roperating]
  · rw [hnut, hpositions.second, rnut]
  · exact (hframe .clk (by decide) : t.clk = u.clk).trans (hpositions.clk.trans rclk)
  · rw [hbranch]
    exact branchSecondsAfter_congr (hpositions.br.trans rbr) ((hpositions.branch b).trans (rseconds.1 b))
  · rw [← rseconds.2 a, ← hseconds]
    exact Prod.ext hposition (congrArg (fun n : Nutmeg => lookD n.onSince a.val 0) hnut)

/-! ## FRU reads and the records of pass elements (R492 to R494) -/

/-- The part is in READY or RUN, where FRU images are read. -/
theorem fru_read_states {s : State} (h : s.part.st = .ready ∨ s.part.st = .run) :
    (!(s.part.st == .ready || s.part.st == .run)) = false := by
  rcases h with h | h <;> rw [h] <;> rfl

/-- Position a as the FRU position of an accelerator. -/
def fruPosition (a : Fin 8) : Fin 9 := ⟨a.val, Nat.lt_succ_of_lt a.isLt⟩

theorem accelOfSeq_fruPosition (a : Fin 8) : accelOfSeq (fruPosition a) = some a := dif_pos a.isLt

theorem execFruRead_of_parsed {a : Fin 8} {image : Option (List Byte)} {f : Fru} {s : State}
    (hst : s.part.st = .ready ∨ s.part.st = .run) (hon : accelOn s a = true) (hf : image.bind parseFru = some f) :
    execFruRead (fruPosition a) image s = .next (setN (setBlob (setBlob (newSerial a f.serial s) (Blob.accelPartNumber a.val) f.part)
      (Blob.accelManufacturer a.val) f.maker) (Obj.accelFruState a.val) 1) := by
  unfold execFruRead
  rw [fru_read_states hst, accelOfSeq_fruPosition, hf]
  simp [hon]

theorem execFruRead_of_unreadable {a : Fin 8} {image : Option (List Byte)} {s : State}
    (hst : s.part.st = .ready ∨ s.part.st = .run) (hon : accelOn s a = true) (hf : image.bind parseFru = none) :
    execFruRead (fruPosition a) image s =
      .next (raiseMain .fruReadFailed 0x7213 (openDetail .fruReadFailed a.val) (setN s (Obj.accelFruState a.val) 2)) := by
  unfold execFruRead
  rw [fru_read_states hst, accelOfSeq_fruPosition, hf]
  simp [hon]

theorem getBlob_setN (s : State) (o : Obj) (v k : Nat) : getBlob (setN s o v) k = getBlob s k := rfl

theorem getN_setBlob (s : State) (k : Nat) (bs : List Byte) (o : Obj) : getN (setBlob s k bs) o = getN s o := rfl

theorem getN_raiseRye (e : Ev) (source detail : Nat) (s : State) (o : Obj) : getN (raiseRye e source detail s) o = getN s o := rfl

theorem getBlob_raiseRye (e : Ev) (source detail : Nat) (s : State) (k : Nat) :
    getBlob (raiseRye e source detail s) k = getBlob s k := rfl

theorem getN_raiseMain (e : Ev) (source detail : Nat) (s : State) (o : Obj) : getN (raiseMain e source detail s) o = getN s o := rfl

theorem newSerial_of_same {a : Fin 8} {serial : List Byte} {s : State} (h : getBlob s (Blob.accelSerial a.val) = serial) :
    newSerial a serial s = s := if_pos h

/-- The counts of a serial read for the first time: the insertions that wait for it, and the seconds since it came. -/
def firstInsertions (a : Fin 8) (s : State) : Nat :=
  lookD s.nut.insPending a.val 0 + min (lookD s.nut.onSince a.val 0) u32 * two32

theorem newSerial_of_new {a : Fin 8} {serial : List Byte} {s : State} (h : getBlob s (Blob.accelSerial a.val) ≠ serial) :
    newSerial a serial s = setN (setBlob (raiseRye .accelReplaced 0x7210 (a.val * 2 ^ 24) s) (Blob.accelSerial a.val) serial)
      (Obj.serialInsertions a.val) (firstInsertions a s) := if_neg h

theorem getBlob_newSerial (a : Fin 8) (serial : List Byte) (s : State) :
    getBlob (newSerial a serial s) (Blob.accelSerial a.val) = serial := by
  by_cases h : getBlob s (Blob.accelSerial a.val) = serial
  · rw [newSerial_of_same h, h]
  · rw [newSerial_of_new h, getBlob_setN, getBlob_setBlob_same]

theorem getN_newSerial (a : Fin 8) (serial : List Byte) (s : State) :
    getN (newSerial a serial s) (Obj.serialInsertions a.val) = if getBlob s (Blob.accelSerial a.val) = serial then
      getN s (Obj.serialInsertions a.val) else firstInsertions a s := by
  by_cases h : getBlob s (Blob.accelSerial a.val) = serial
  · rw [newSerial_of_same h, if_pos h]
  · rw [newSerial_of_new h, if_neg h, getN_setN_same]

theorem fruState_key_ne_serialInsertions (a : Fin 8) : (Obj.accelFruState a.val).key ≠ (Obj.serialInsertions a.val).key := by
  simp only [Obj.accelFruState, Obj.serialInsertions]
  omega

theorem fruRead_of_parsed {a : Fin 8} {image : List Byte} {f : Fru} {s : State}
    (hst : s.part.st = .ready ∨ s.part.st = .run) (hon : accelOn s a = true) (hf : parseFru image = some f) :
    Ends (.fruRead (fruPosition a) (some image)) s (fun t => getBlob t (Blob.accelSerial a.val) = f.serial ∧
      getBlob t (Blob.accelManufacturer a.val) = f.maker ∧ getBlob t (Blob.accelPartNumber a.val) = f.part ∧
      getN t (Obj.accelFruState a.val) = 1 ∧ getN t (Obj.serialInsertions a.val) =
        if getBlob s (Blob.accelSerial a.val) = f.serial then getN s (Obj.serialInsertions a.val) else firstInsertions a s) := by
  refine ends_of_next (execFruRead_of_parsed hst hon hf) ⟨?_, ?_, ?_, getN_setN_same _ _ _, ?_⟩
  · rw [getBlob_setN, getBlob_setBlob_other _ _ _ _ (by simp only [Blob.accelManufacturer, Blob.accelSerial]; omega),
      getBlob_setBlob_other _ _ _ _ (by simp only [Blob.accelPartNumber, Blob.accelSerial]; omega), getBlob_newSerial]
  · rw [getBlob_setN, getBlob_setBlob_same]
  · rw [getBlob_setN, getBlob_setBlob_other _ _ _ _ (by simp only [Blob.accelManufacturer, Blob.accelPartNumber]; omega),
      getBlob_setBlob_same]
  · rw [getN_setN_other _ _ _ _ (fruState_key_ne_serialInsertions a), getN_setBlob, getN_setBlob, getN_newSerial]

theorem fruRead_of_unreadable {a : Fin 8} {image : Option (List Byte)} {s : State}
    (hst : s.part.st = .ready ∨ s.part.st = .run) (hon : accelOn s a = true) (hf : image.bind parseFru = none) :
    Ends (.fruRead (fruPosition a) image) s (fun t => t.blobs = s.blobs ∧ getN t (Obj.accelFruState a.val) = 2 ∧
      getN t (Obj.serialInsertions a.val) = getN s (Obj.serialInsertions a.val)) := by
  refine ends_of_next (execFruRead_of_unreadable hst hon hf) ⟨rfl, ?_, ?_⟩
  · rw [getN_raiseMain, getN_setN_same]
  · rw [getN_raiseMain, getN_setN_other _ _ _ _ (fruState_key_ne_serialInsertions a)]

/-- The image of the tray is read at position 8. -/
theorem fruRead_tray {image : Option (List Byte)} {s : State} (hst : s.part.st = .ready ∨ s.part.st = .run) :
    Ends (.fruRead 8 image) s (fun t => getN t Obj.trayFruState = (if (image.bind parseFru).isSome then 1 else 2) ∧
      getBlob t Blob.traySerial = match image.bind parseFru with | some f => f.serial | none => getBlob s Blob.traySerial) := by
  have htray : accelOfSeq 8 = none := rfl
  cases hf : image.bind parseFru with
  | some f =>
    refine ends_of_next (t := setN (setBlob (setBlob s Blob.traySerial f.serial) Blob.trayPartNumber f.part) Obj.trayFruState 1)
      ?_ ⟨getN_setN_same _ _ _, ?_⟩
    · show execFruRead 8 image s = _
      unfold execFruRead
      rw [fru_read_states hst, htray, hf]
      rfl
    · rw [getBlob_setN, getBlob_setBlob_other _ _ _ _ (by decide), getBlob_setBlob_same]
  | none =>
    refine ends_of_next (t := raiseMain .fruReadFailed 0x7200 (openDetail .fruReadFailed 8) (setN s Obj.trayFruState 2))
      ?_ ⟨?_, rfl⟩
    · show execFruRead 8 image s = _
      unfold execFruRead
      rw [fru_read_states hst, htray, hf]
      rfl
    · rw [getN_raiseMain, getN_setN_same]
      rfl

/-- The counts of a pass element's record. -/
def passElementCounts (b : Fin 12) : List Obj :=
  [Obj.peOnS b.val, Obj.peInrushes b.val, Obj.peTrips b.val, Obj.peTfetMax b.val, Obj.peInrushJ b.val]

theorem passElement_keys_distinct : ∀ b k : Fin 12, k ≠ b → ∀ x ∈ passElementCounts b, x.key ≠ (Obj.peOnS k.val).key := by
  decide +kernel

theorem passElement_own_keys_distinct : ∀ b : Fin 12, (passElementCounts b).Pairwise (fun x y => y.key ≠ x.key) := by
  decide +kernel

/-- A new serial of a pass element leaves the record of any other. -/
theorem getN_peSerialEffect_other {b k : Fin 12} (hk : k ≠ b) (bytes : List Byte) (n : Count) (s : State) :
    getN (peSerialEffect b bytes n s) (Obj.peOnS k.val) = getN s (Obj.peOnS k.val) := by
  have hkeys := passElement_keys_distinct b k hk
  simp only [passElementCounts, List.mem_cons, forall_eq_or_imp] at hkeys
  obtain ⟨hon, hinrushes, htrips, hmax, henergy, -⟩ := hkeys
  unfold peSerialEffect
  rw [getN_raiseRye, getN_setN_other _ _ _ _ henergy, getN_setN_other _ _ _ _ hmax, getN_setN_other _ _ _ _ htrips,
    getN_setN_other _ _ _ _ hinrushes, getN_setN_other _ _ _ _ hon, getN_setBlob]

/-- A new serial of a pass element is stored, and the counts of its record begin at 0. -/
theorem peSerialEffect_own (b : Fin 12) (bytes : List Byte) (n : Count) (s : State) :
    getBlob (peSerialEffect b bytes n s) (Blob.peSerial b.val) = bytes ∧ getN (peSerialEffect b bytes n s) (Obj.peOnS b.val) = 0 ∧
    getN (peSerialEffect b bytes n s) (Obj.peInrushes b.val) = 0 ∧ getN (peSerialEffect b bytes n s) (Obj.peTrips b.val) = 0 ∧
    getN (peSerialEffect b bytes n s) (Obj.peInrushJ b.val) = 0 := by
  have hkeys := passElement_own_keys_distinct b
  simp only [passElementCounts, List.pairwise_cons, List.mem_cons, forall_eq_or_imp] at hkeys
  obtain ⟨⟨hon1, hon2, hon3, hon4, -⟩, ⟨hin2, hin3, hin4, -⟩, ⟨htr3, htr4, -⟩, -⟩ := hkeys
  unfold peSerialEffect
  simp only [getN_raiseRye, getBlob_raiseRye, getBlob_setN]
  refine ⟨getBlob_setBlob_same _ _ _, ?_, ?_, ?_, getN_setN_same _ _ _⟩
  · rw [getN_setN_other _ _ _ _ hon4, getN_setN_other _ _ _ _ hon3, getN_setN_other _ _ _ _ hon2, getN_setN_other _ _ _ _ hon1,
      getN_setN_same]
  · rw [getN_setN_other _ _ _ _ hin4, getN_setN_other _ _ _ _ hin3, getN_setN_other _ _ _ _ hin2, getN_setN_same]
  · rw [getN_setN_other _ _ _ _ htr4, getN_setN_other _ _ _ _ htr3, getN_setN_same]

theorem getBlob_peSerialEffect_other {b k : Fin 12} (hk : k ≠ b) (bytes : List Byte) (n : Count) (s : State) :
    getBlob (peSerialEffect b bytes n s) (Blob.peSerial k.val) = getBlob s (Blob.peSerial k.val) := by
  have hval : k.val ≠ b.val := fun e => hk (Fin.ext e)
  unfold peSerialEffect
  simp only [getBlob_raiseRye, getBlob_setN]
  exact getBlob_setBlob_other _ _ _ _ (by simp only [Blob.peSerial]; omega)

/-- Settles O52: a second gives each position and each branch one turn of its own, and a FRU image or a serial of a pass
element changes the record of its place. -/
theorem inventoryAndSeconds : Obligations.InventoryAndSeconds := by
  unfold Obligations.InventoryAndSeconds
  refine ⟨fun b s hrun => ?_, fun a s hrun => ?_, fun a image f s hst hon hf => ?_,
    fun a image s hst hon hf => fruRead_of_unreadable hst hon hf, fun image s hst => fruRead_tray hst,
    fun au b k bytes s hup hcheck hk => ?_⟩
  · exact ends_mono (operatingSecond_adds 0 b hrun) fun t ⟨hoperating, hsecond, hclk, hbranch, _⟩ =>
      ⟨hoperating, hsecond, hclk, hbranch⟩
  · exact ends_mono (operatingSecond_adds a 0 hrun) fun t ⟨_, _, _, _, hposition⟩ => Prod.ext_iff.mp hposition
  · refine ends_mono (fruRead_of_parsed hst hon hf) fun t ⟨hserial, hmaker, hpart, hstate, hins⟩ => ?_
    exact ⟨hserial, hmaker, hpart, hstate, fun h => hins.trans (if_neg h), fun h => hins.trans (if_pos h)⟩
  · refine write_ends_of_only hup hcheck rfl fun n u hu => ?_
    have hnums : u.nums = s.nums := hu .nums (by decide)
    have hblobs : u.blobs = s.blobs := hu .blobs (by decide)
    obtain ⟨hserial, hon, hinrushes, htrips, henergy⟩ := peSerialEffect_own b bytes n u
    refine ⟨hserial, hon, hinrushes, htrips, henergy, ?_, ?_⟩
    · rw [getN_peSerialEffect_other hk, getN_of_nums_eq hnums]
    · rw [getBlob_peSerialEffect_other hk, getBlob, hblobs]
      rfl

/-! ## Host ports (R382 to R387) -/

/-- The other host port, and the service port, are as before. -/
def BesideHost (p : Fin 2) (s u : State) : Prop :=
  (∀ q, q ≠ p → u.port.host.get q = s.port.host.get q) ∧ u.port.svcLine = s.port.svcLine

theorem BesideHost.refl (p : Fin 2) (s : State) : BesideHost p s s := ⟨fun _ _ => rfl, rfl⟩

theorem BesideHost.trans {p : Fin 2} {s u v : State} (h1 : BesideHost p s u) (h2 : BesideHost p u v) : BesideHost p s v :=
  ⟨fun q hq => (h2.1 q hq).trans (h1.1 q hq), h2.2.trans h1.2⟩

theorem besideHost_updHost (p : Fin 2) (f : HostPort → HostPort) (s : State) : BesideHost p s (updHost p f s) :=
  ⟨fun _ hq => updHost_get_other p f _ s (Ne.symm hq), rfl⟩

theorem BesideHost.of_port_eq {p : Fin 2} {s u : State} (h : u.port = s.port) : BesideHost p s u := by
  rw [BesideHost, h]
  exact ⟨fun _ _ => rfl, rfl⟩

/-- What frames of the queue go by: the link, the list in force and the one that waits, and the open classes. -/
structure GateView where
  link : Link
  gates : GateList
  gatesNext : Option (GateList × Count)
  open_ : Nat
  entry : Nat

/-- The gates of a host port. -/
def gateView (h : HostPort) : GateView := ⟨h.link, h.gates, h.gatesNext, h.open_, h.entry⟩

/-- Between s and u only what a frame put on port p's line changes: its line and its packet numbers, and records of events. -/
def LineOnly (p : Fin 2) (s u : State) : Prop :=
  u.clk = s.clk ∧ BesideHost p s u ∧ gateView (u.port.host.get p) = gateView (s.port.host.get p) ∧
    (u.port.host.get p).queue = (s.port.host.get p).queue

theorem LineOnly.refl (p : Fin 2) (s : State) : LineOnly p s s := ⟨rfl, .refl p s, rfl, rfl⟩

theorem LineOnly.trans {p : Fin 2} {s u v : State} (h1 : LineOnly p s u) (h2 : LineOnly p u v) : LineOnly p s v :=
  ⟨h2.1.trans h1.1, h1.2.1.trans h2.2.1, h2.2.2.1.trans h1.2.2.1, h2.2.2.2.trans h1.2.2.2⟩

theorem lineOnly_updHost (p : Fin 2) {f : HostPort → HostPort} (hview : ∀ h, gateView (f h) = gateView h)
    (hqueue : ∀ h, (f h).queue = h.queue) (s : State) : LineOnly p s (updHost p f s) := by
  refine ⟨rfl, besideHost_updHost p f s, ?_, ?_⟩ <;> rw [updHost_get_same]
  · exact hview _
  · exact hqueue _

theorem lineOnly_lineAdd (p : Fin 2) (cls : Nat) (m : Msg) (sec : Option (Nat × Nat × List Byte)) (s : State) :
    LineOnly p s (lineAdd p cls m sec s) := by
  unfold lineAdd
  refine lineOnly_updHost p ?_ ?_ s <;> (intro h; rfl)

theorem LineOnly.raiseMain {p : Fin 2} {s u : State} (e : Ev) (source detail : Nat) (h : LineOnly p s u) :
    LineOnly p s (raiseMain e source detail u) := h

theorem lineOnly_putLine (p : Fin 2) (cls : Nat) (m : Msg) (s : State) : LineOnly p s (putLine p cls m s) := by
  unfold putLine
  extract_lets h mode assoc low s1
  have hput : LineOnly p s s1 := (lineOnly_lineAdd p cls m _ s).trans (by
    unfold s1
    refine lineOnly_updHost p ?_ ?_ _ <;> (intro h; rfl))
  split
  · exact .refl p s
  split
  · exact .refl p s
  split
  · split
    · exact hput.raiseMain _ _ _
    · exact hput
  · exact lineOnly_lineAdd p cls m none s

theorem maySend_of_gateView {p : Fin 2} {s u : State} (hclk : u.clk = s.clk)
    (hview : gateView (u.port.host.get p) = gateView (s.port.host.get p)) (cls : Nat) (m : Msg) :
    maySend u p cls m = maySend s p cls m := by
  have hlink := congrArg GateView.link hview
  have hgates := congrArg GateView.gates hview
  have hopen := congrArg GateView.open_ hview
  simp only [gateView] at hlink hgates hopen
  have hnow : now u = now s := by rw [now, hclk, now]
  unfold maySend gateOpen gateFits
  simp only [hlink, hgates, hopen, hnow]

/-- A host port without the frames of its queue that may start. -/
def keepGated (p : Fin 2) (s : State) (h : HostPort) : HostPort :=
  { h with queue := h.queue.filter (fun q => !(maySend s p q.1 q.2)) }

theorem lineOnly_drainPort (p : Fin 2) (s : State) : LineOnly p (updHost p (keepGated p s) s) (drainPort p s) := by
  unfold drainPort
  exact forEach_keeps (fun q u hu => hu.trans (lineOnly_putLine p q.1 q.2 u)) (.refl p _)

/-- A port that drained its queue has its gates as before, and no frame left in the queue may start. -/
theorem drainPort_drains (p : Fin 2) (s : State) : (drainPort p s).clk = s.clk ∧ BesideHost p s (drainPort p s) ∧
    gateView ((drainPort p s).port.host.get p) = gateView (s.port.host.get p) ∧
    ∀ q ∈ ((drainPort p s).port.host.get p).queue, maySend (drainPort p s) p q.1 q.2 = false := by
  obtain ⟨hclk, hbeside, hview, hqueue⟩ := lineOnly_drainPort p s
  rw [updHost_get_same] at hview hqueue
  refine ⟨hclk, (besideHost_updHost p _ s).trans hbeside, hview, fun q hq => ?_⟩
  rw [hqueue] at hq
  rw [maySend_of_gateView (s := s) hclk hview]
  simpa using (List.mem_filter.mp hq).2

/-! ### The start of a gate entry -/

/-- A host port whose gates stand as its list has them at count n. -/
def gatesAt (n : Count) (h : HostPort) : HostPort :=
  if h.gates.entries = [] then { h with open_ := 0xFF, entry := 0 }
  else { h with entry := entryAt h.gates.entries (n % h.gates.cycle)
                open_ := (h.gates.entries.getD (entryAt h.gates.entries (n % h.gates.cycle)) ⟨0xFF, 0⟩).gates }

theorem openGates_eq (p : Fin 2) (s : State) : openGates p s = updHost p (gatesAt (now s)) s := rfl

theorem gatesAt_gates (n : Count) (h : HostPort) : (gatesAt n h).gates = h.gates ∧ (gatesAt n h).gatesNext = h.gatesNext := by
  unfold gatesAt
  split <;> exact ⟨rfl, rfl⟩

theorem gatesAt_entry {n : Count} {h : HostPort} (hlist : h.gates.entries ≠ []) :
    (gatesAt n h).entry = entryAt h.gates.entries (n % h.gates.cycle) := by
  rw [gatesAt, if_neg hlist]

/-- Gates that open and drain: the gates stand as the list has them, and no frame left in the queue may start. -/
theorem openGates_drainPort (p : Fin 2) (s : State) :
    (drainPort p (openGates p s)).clk = s.clk ∧ BesideHost p s (drainPort p (openGates p s)) ∧
    gateView ((drainPort p (openGates p s)).port.host.get p) = gateView (gatesAt (now s) (s.port.host.get p)) ∧
    ∀ q ∈ ((drainPort p (openGates p s)).port.host.get p).queue, maySend (drainPort p (openGates p s)) p q.1 q.2 = false := by
  obtain ⟨hclk, hbeside, hview, hqueue⟩ := drainPort_drains p (openGates p s)
  refine ⟨hclk, (besideHost_updHost p _ s).trans hbeside, ?_, hqueue⟩
  rw [hview, openGates_eq, updHost_get_same]

/-- The start of the next entry opens the classes of the list in force, at a later count. -/
theorem nextEntry_opens (p : Fin 2) {s : State} (hlist : (s.port.host.get p).gates.entries ≠ []) :
    ∃ k, nextEntry p s = drainPort p (openGates p { s with clk := k }) := by
  unfold nextEntry
  extract_lets h off s1
  have hs1 : ∃ k, s1 = { s with clk := k } := by
    unfold s1
    split
    · exact reachCount_eq_with_clk _ s
    · exact ⟨_, rfl⟩
  rw [if_neg hlist]
  split
  · obtain ⟨k, hk⟩ := reachCount_eq_with_clk h.gatesFrom s
    exact ⟨k, by rw [hk]⟩
  · obtain ⟨k, hk⟩ := hs1
    exact ⟨k, by rw [hk]⟩

/-! ### The links of the host ports and of the service port -/

/-- A host port with the link in a state. -/
def withLink (l : Link) (h : HostPort) : HostPort := { h with link := l }

/-- A frame handed to a host port is sent, queued or dropped. -/
theorem sendHost_keeps_link (p : Fin 2) (cls : Nat) (m : Msg) (s : State) :
    ((sendHost p cls m s).port.host.get p).link = (s.port.host.get p).link ∧ BesideHost p s (sendHost p cls m s) := by
  unfold sendHost
  split
  · exact ⟨rfl, .refl p s⟩
  split
  · obtain ⟨-, hbeside, hview, -⟩ := lineOnly_putLine p cls m s
    exact ⟨congrArg GateView.link hview, hbeside⟩
  · refine ⟨?_, besideHost_updHost p _ s⟩
    rw [updHost_get_same]

theorem noteDegraded_port (s : State) : (noteDegraded s).port = s.port :=
  keep_noteDegraded (L := [.part, .ev, .nut]) (.of_all rfl) (only_refl _ s) .port (by decide)

theorem hostLinkUp_ends {p : Fin 2} {fast : Bool} {s : State} (hup : s.oda.serving = true)
    (htraining : (s.port.host.get p).link = .training) (hspeed : speedAllowed (getN s (Obj.portMode p.val)) fast = true) :
    Ends (.hostLinkUp p fast) s (fun t => (t.port.host.get p).link = (if fast then .up200 else .up100) ∧
      BesideHost p s t ∧ t.nums = s.nums ∧ t.oda = s.oda) := by
  have hexec : execHostLinkUp p fast s =
      .next (noteDegraded (announceHost p (updHost p (withLink (if fast then .up200 else .up100)) s))) := by
    refine if_pos ?_
    rw [macsRun, hup, htraining, hspeed]
    rfl
  refine ends_of_next hexec ?_
  set v := updHost p (withLink (if fast then .up200 else .up100)) s
  have hv : (v.port.host.get p).link = (if fast then .up200 else .up100) := congrArg HostPort.link (updHost_get_same p _ s)
  obtain ⟨hlink, hbeside⟩ := sendHost_keeps_link p 2 (announceMsg v p.val) v
  have hframe : Only [.ev, .nut, .port, .part] s (noteDegraded (announceHost p v)) :=
    keep_noteDegraded (.of_all rfl) (keep_announceHost _ (.of_all rfl) (keep_updHost _ _ (.of_all rfl) (only_refl _ s)))
  have hport : (noteDegraded (announceHost p v)).port = (announceHost p v).port := noteDegraded_port _
  refine ⟨?_, ?_, hframe .nums (by decide), hframe .oda (by decide)⟩
  · rw [hport]
    exact hlink.trans hv
  · exact ((besideHost_updHost p _ s).trans hbeside).trans (.of_port_eq hport)

/-- A host port that left UP: no frame is queued, and it knows no grandmaster. -/
def linkLost (h : HostPort) : HostPort := { h with link := .down, queue := [], gm := none }

theorem leaveUp_of_up {p : Fin 2} {s : State} (h : hostUp s p = true) :
    leaveUp p s = raiseMain .hostLinkDown linkSrc (openDetail .hostLinkDown p.val)
      (follow (inc32 (updHost p linkLost s) (Obj.linkDowns p.val))) := if_pos h

theorem leaveUp_of_not_up {p : Fin 2} {s : State} (h : hostUp s p = false) : leaveUp p s = s := if_neg (by simp [h])

/-- Following another grandmaster changes what the servo averages and the port it follows. -/
theorem follow_keeps (s : State) : (follow s).port.host = s.port.host ∧ (follow s).port.svcLine = s.port.svcLine ∧
    (follow s).nums = s.nums ∧ (follow s).clk.cycles = s.clk.cycles := by
  unfold follow
  extract_lets b moved
  split
  · exact ⟨rfl, rfl, rfl, rfl⟩
  · exact ⟨rfl, rfl, rfl, rfl⟩

theorem hostLinkDown_ends {p : Fin 2} (began : Nat) {s : State} (hup : hostUp s p = true) :
    Ends (.hostLinkDown p began) s (fun t => t.port.host.get p = { linkLost (s.port.host.get p) with
        autonegDue := some (t.clk.cycles + msCycles 10) } ∧
      getN t (Obj.linkDowns p.val) = getN (inc32 s (Obj.linkDowns p.val)) (Obj.linkDowns p.val)) := by
  refine ends_of_next (if_pos hup) ?_
  obtain ⟨k, hk⟩ := tickTo_eq_with_clk (began + usCycles 100) s
  have hs : stands began (usCycles 100) s = { s with clk := k } := hk
  rw [hs]
  have hup' : hostUp { s with clk := k } p = true := hup
  rw [leaveUp_of_up hup']
  obtain ⟨fhost, -, fnums, fcycles⟩ := follow_keeps (inc32 (updHost p linkLost { s with clk := k }) (Obj.linkDowns p.val))
  set v := follow (inc32 (updHost p linkLost { s with clk := k }) (Obj.linkDowns p.val))
  set due : HostPort → HostPort := fun h => { h with autonegDue := some (k.cycles + msCycles 10) }
  have hcycles : (noteDegraded (updHost p due (raiseMain .hostLinkDown linkSrc (openDetail .hostLinkDown p.val) v))).clk.cycles =
      k.cycles := (congrArg Clock.cycles (noteDegraded_clk _)).trans fcycles
  refine ⟨?_, ?_⟩
  · rw [noteDegraded_port, updHost_get_same, hcycles]
    show due (v.port.host.get p) = _
    rw [fhost]
    exact congrArg due (updHost_get_same p linkLost _)
  · rw [getN_of_nums_eq (noteDegraded_nums _)]
    show getN v (Obj.linkDowns p.val) = _
    rw [getN_of_nums_eq fnums]
    exact getN_inc32_of_eq rfl

/-- A host port in auto-negotiation. -/
def training (h : HostPort) : HostPort := { h with autonegDue := none, link := .training }

theorem autonegRestart_ends {p : Fin 2} {d : Nat} {s : State} (hdue : (s.port.host.get p).autonegDue = some d) :
    Ends (.autonegRestart p) s (fun t => t.port.host.get p = training (s.port.host.get p) ∧ BesideHost p s t ∧
      t.clk = (tickTo d s).clk) := by
  have hexec : execAutonegRestart p s = .next (updHost p training (tickTo d s)) := by
    unfold execAutonegRestart
    rw [hdue]
    rfl
  obtain ⟨k, hk⟩ := tickTo_eq_with_clk d s
  refine ends_of_next hexec ?_
  rw [hk]
  exact ⟨updHost_get_same p _ _, besideHost_updHost p _ _, rfl⟩

/-! ### PORT_MODE -/

/-- A host port that PORT_MODE v takes down or retrains. -/
def modeSet (v : Nat) (h : HostPort) : HostPort := { h with autonegDue := none, link := if v = 0 then .down else .training }

theorem portModeEffect_eq (p : Fin 2) (v : Nat) (s : State) :
    portModeEffect p v s = noteDegraded (updHost p (modeSet v) (leaveUp p (storeNum (Obj.portMode p.val) v s))) := rfl

theorem portMode_key_ne_linkDowns (p : Fin 2) : (Obj.linkDowns p.val).key ≠ (Obj.portMode p.val).key := by
  simp only [Obj.linkDowns, Obj.portMode]
  omega

/-- A host port that leaves UP loses its queue; the service port and PORT_MODE are as before. -/
theorem leaveUp_keeps (p : Fin 2) (s : State) : (leaveUp p s).port.svcLine = s.port.svcLine ∧
    getN (leaveUp p s) (Obj.portMode p.val) = getN s (Obj.portMode p.val) ∧
    (hostUp s p = true → ((leaveUp p s).port.host.get p).queue = []) := by
  cases hup : hostUp s p with
  | true =>
    rw [leaveUp_of_up hup]
    obtain ⟨fhost, fline, fnums, -⟩ := follow_keeps (inc32 (updHost p linkLost s) (Obj.linkDowns p.val))
    refine ⟨fline, (getN_of_nums_eq fnums _).trans (getN_inc32_other _ (portMode_key_ne_linkDowns p)), fun _ => ?_⟩
    show ((follow _).port.host.get p).queue = []
    rw [fhost]
    exact congrArg HostPort.queue (updHost_get_same p linkLost s)
  | false =>
    rw [leaveUp_of_not_up hup]
    exact ⟨rfl, rfl, fun h => absurd h (by decide)⟩

theorem portModeEffect_sets (p : Fin 2) (v : Nat) (s : State) :
    ((portModeEffect p v s).port.host.get p).link = (if v = 0 then .down else .training) ∧
    getN (portModeEffect p v s) (Obj.portMode p.val) = v ∧
    (hostUp s p = true → ((portModeEffect p v s).port.host.get p).queue = []) ∧
    (portModeEffect p v s).port.svcLine = s.port.svcLine := by
  have hstored : (storeNum (Obj.portMode p.val) v s).port = s.port :=
    keep_storeNum (L := [.nums, .pow]) _ _ (.of_all rfl) (only_refl _ s) .port (by decide)
  have hup : hostUp (storeNum (Obj.portMode p.val) v s) p = hostUp s p := by rw [hostUp, hstored, hostUp]
  obtain ⟨hline, hmode, hqueue⟩ := leaveUp_keeps p (storeNum (Obj.portMode p.val) v s)
  rw [portModeEffect_eq, noteDegraded_port, updHost_get_same, getN_of_nums_eq (noteDegraded_nums _)]
  refine ⟨rfl, hmode.trans (getN_storeNum_same _ _ _), fun h => hqueue (hup.trans h), ?_⟩
  exact hline.trans (congrArg Ports.svcLine hstored)

theorem portMode_ends {au : Auth} {p : Fin 2} {v : Nat} {s : State} (hup : s.oda.serving = true)
    (hcheck : precheck s au (Obj.portMode p.val).key 0 (.num v) = 0) (hhome : portModeHome au p s = 0) :
    Ends (.portMode au p v) s (fun t => (t.port.host.get p).link = (if v = 0 then .down else .training) ∧
      getN t (Obj.portMode p.val) = v ∧ (hostUp s p = true → (t.port.host.get p).queue = []) ∧
      t.port.svcLine = s.port.svcLine) := by
  refine write_ends_of_only hup hcheck hhome fun _ u hu => ?_
  have hport : u.port = s.port := hu .port (by decide)
  obtain ⟨hlink, hmode, hqueue, hline⟩ := portModeEffect_sets p v u
  exact ⟨hlink, hmode, fun h => hqueue (by rw [hostUp, hport]; exact h), hline.trans (congrArg Ports.svcLine hport)⟩

theorem portMode_refused {p : Fin 2} {v : Nat} {s : State} (hup : s.oda.serving = true)
    (hcheck : precheck s .facility (Obj.portMode p.val).key 0 (.num v) = 0) (hother : hostUp s (1 - p) = false) :
    Ends (.portMode .facility p v) s (fun t => t.port = s.port ∧ t.nums = s.nums ∧
      t.oda.answer.map (·.status) = some 0x00071301) := by
  have hhome : portModeHome .facility p s = 0x00071301 := if_pos (by rw [hother]; rfl)
  have hstep : writeStep .facility (Obj.portMode p.val).key (.num v) (portModeHome .facility p)
      (fun _ => portModeEffect p v) s = refuse 0x00071301 s := by
    unfold writeStep
    rw [if_neg (by simp [hup]), if_neg (by simp [hcheck]), if_pos (by rw [hhome]; decide), hhome]
  exact ends_of_next (congrArg Host.Outcome.next hstep) ⟨rfl, rfl, rfl⟩

/-! ### The service port -/

theorem serviceLinkUp_ends {s : State} (hup : s.oda.serving = true) (hon : s.port.svcOn = true) (hdown : s.port.svcUp = false) :
    Ends .serviceLinkUp s (fun t => t.port.svcUp = true ∧ t.port.svcLine = s.port.svcLine ++ [(2, announceMsg s 2)] ∧
      t.port.host = s.port.host) := by
  refine ends_of_next (if_pos ?_) ⟨rfl, rfl, rfl⟩
  rw [macsRun, hup, hon, hdown]
  rfl

/-- The part has the address asked for on its service port. -/
def servicePortHas (kind : Nat) (target : List Byte) (s : State) : Bool :=
  (if kind % 2 = 0 then addresses4 s 2 else addresses6 s 2).contains target

theorem networkControlRequest_answered {kind : Nat} {target : List Byte} {s : State} (hup : s.oda.serving = true)
    (hopen : portOpen s 2 = true) (hkind : kind ≤ 3) (haddr : servicePortHas kind target s = true) :
    Ends (.networkControlRequest 2 kind target) s (fun t => t.port.svcLine = s.port.svcLine ++ [(0, .netReply kind)] ∧
      t.port.host = s.port.host ∧ t.oda = s.oda) := by
  have hguard : (!(macsRun s) || !(portOpen s 2) || decide (3 < kind)) = false := by simp [macsRun, hup, hopen, hkind]
  have hexec : execNetworkControlRequest 2 kind target s = .next (sendSvc 0 (.netReply kind) s) := by
    unfold execNetworkControlRequest
    rw [hguard]
    exact if_pos haddr
  have hsvc : s.port.svcUp = true := hopen
  have hsend : sendSvc 0 (.netReply kind) s =
      { s with port := { s.port with svcLine := s.port.svcLine ++ [(0, .netReply kind)] } } := if_pos hsvc
  refine ends_of_next (hexec.trans (congrArg Host.Outcome.next hsend)) ⟨rfl, rfl, rfl⟩

theorem networkControlRequest_unanswered {kind : Nat} {target : List Byte} {s : State}
    (haddr : servicePortHas kind target s = false) : Ends (.networkControlRequest 2 kind target) s (fun t => t = s) := by
  refine ends_of_next (t := s) ?_ rfl
  show execNetworkControlRequest 2 kind target s = _
  unfold execNetworkControlRequest
  split
  · rfl
  · exact if_neg (Bool.eq_false_iff.mp haddr)

/-! ### Gates -/

/-- A host port whose waiting list came into force. -/
def listTaken (g : GateList) (h : HostPort) : HostPort := { h with gates := g, gatesNext := none, gatesFrom := 0 }

theorem gateEntryStart_takes_list {p : Fin 2} {g : GateList} {c : Count} {s : State} (hup : s.oda.serving = true)
    (hnext : (s.port.host.get p).gatesNext = some (g, c)) (hnone : (s.port.host.get p).gates.entries = []) :
    Ends (.gateEntryStart p) s (fun t => (t.port.host.get p).gates = g ∧ (t.port.host.get p).gatesNext = none ∧
      t.clk = (reachCount c s).clk ∧ (∀ q ∈ (t.port.host.get p).queue, maySend t p q.1 q.2 = false) ∧ BesideHost p s t) := by
  have hexec : execGateEntryStart p s = .next (drainPort p (openGates p (updHost p (listTaken g) (reachCount c s)))) := by
    unfold execGateEntryStart
    rw [if_neg (by simp [macsRun, hup])]
    dsimp only
    rw [hnext]
    exact if_pos (.inl hnone)
  refine ends_of_next hexec ?_
  obtain ⟨k, hk⟩ := reachCount_eq_with_clk c s
  rw [hk]
  obtain ⟨hclk, hbeside, hview, hqueue⟩ := openGates_drainPort p (updHost p (listTaken g) { s with clk := k })
  rw [updHost_get_same] at hview
  obtain ⟨hgates, hwaiting⟩ := gatesAt_gates (now (updHost p (listTaken g) { s with clk := k })) (listTaken g (s.port.host.get p))
  refine ⟨(congrArg GateView.gates hview).trans hgates, (congrArg GateView.gatesNext hview).trans hwaiting, hclk, hqueue, ?_⟩
  exact (besideHost_updHost p (listTaken g) { s with clk := k }).trans hbeside

theorem gateEntryStart_next {p : Fin 2} {s : State} (hup : s.oda.serving = true)
    (hnext : (s.port.host.get p).gatesNext = none) (hlist : (s.port.host.get p).gates.entries ≠ []) :
    Ends (.gateEntryStart p) s (fun t => (t.port.host.get p).gates = (s.port.host.get p).gates ∧
      (t.port.host.get p).entry = entryAt (s.port.host.get p).gates.entries (now t % (s.port.host.get p).gates.cycle) ∧
      (∀ q ∈ (t.port.host.get p).queue, maySend t p q.1 q.2 = false) ∧ BesideHost p s t) := by
  have hexec : execGateEntryStart p s = .next (nextEntry p s) := by
    unfold execGateEntryStart
    rw [if_neg (by simp [macsRun, hup])]
    dsimp only
    rw [hnext]
  refine ends_of_next hexec ?_
  obtain ⟨k, hk⟩ := nextEntry_opens p hlist
  rw [hk]
  obtain ⟨hclk, hbeside, hview, hqueue⟩ := openGates_drainPort p { s with clk := k }
  have hnow : now (drainPort p (openGates p { s with clk := k })) = now { s with clk := k } := by rw [now, hclk, now]
  refine ⟨(congrArg GateView.gates hview).trans (gatesAt_gates _ _).1, ?_, hqueue, hbeside⟩
  rw [hnow]
  exact (congrArg GateView.entry hview).trans (gatesAt_entry hlist)

/-- Settles O43: each command changes the port it names, and a port that opens its gates drains its queue. -/
theorem hostLinksAndGates : Obligations.HostLinksAndGates := by
  unfold Obligations.HostLinksAndGates
  refine ⟨fun p fast s hup htraining hspeed => ?_, fun p began s hup => ?_, fun p d s hdue => ?_,
    fun au p v s hup hcheck hhome => portMode_ends hup hcheck hhome,
    fun p v s hup hcheck hother => portMode_refused hup hcheck hother,
    fun s hup hon hdown => serviceLinkUp_ends hup hon hdown, fun p g c s hup hnext hnone => ?_,
    fun p s hup hnext hlist => ?_, fun kind target s hup hopen hkind haddr => networkControlRequest_answered hup hopen hkind haddr,
    fun kind target s haddr => networkControlRequest_unanswered haddr⟩
  · exact ends_mono (hostLinkUp_ends hup htraining hspeed) fun t ⟨hlink, hbeside, hnums, hoda⟩ =>
      ⟨hlink, fun q hq => ⟨hbeside.1 q hq, hnums, hoda⟩⟩
  · refine ends_mono (hostLinkDown_ends began hup) fun t ⟨hport, hdowns⟩ => ?_
    rw [hport]
    exact ⟨rfl, rfl, rfl, hdowns, rfl⟩
  · exact ends_mono (autonegRestart_ends hdue) fun t ⟨hport, hbeside, hclk⟩ => ⟨hport, fun q hq => ⟨hbeside.1 q hq, hclk⟩⟩
  · exact ends_mono (gateEntryStart_takes_list hup hnext hnone) fun t ⟨hgates, hwaiting, hclk, hqueue, hbeside⟩ =>
      ⟨hgates, hwaiting, hclk, hqueue, hbeside.1⟩
  · exact ends_mono (gateEntryStart_next hup hnext hlist) fun t ⟨hgates, hentry, hqueue, hbeside⟩ =>
      ⟨hgates, hentry, hqueue, hbeside.1⟩

/-! ## Dropping the firmware's channels counts no crash (R336, R421)

Bursts that still arrive count bytes and lost granules, and no other object. -/

/-- The counts of Millet and of the memory that an arriving burst raises. -/
def milletCounts : List Nat := [Obj.memUeCount.key, Obj.milletBytesMa.key, Obj.milletBytesMb.key]

/-- Every number but those counts is as before. -/
def NumbersKept (s t : State) : Prop := ∀ o : Obj, o.key ∉ milletCounts → getN t o = getN s o

theorem NumbersKept.refl (s : State) : NumbersKept s s := fun _ _ => rfl

theorem NumbersKept.trans {s t u : State} (h : NumbersKept s t) (k : NumbersKept t u) : NumbersKept s u :=
  fun o ho => (k o ho).trans (h o ho)

theorem NumbersKept.of_only {L : List Area} {s t : State} (h : Only L s t) (hnums : Area.nums ∉ L) : NumbersKept s t :=
  fun o _ => getN_of_nums_eq (h .nums hnums) o

theorem NumbersKept.ite {s a b : State} {c : Prop} [Decidable c] (ha : NumbersKept s a) (hb : NumbersKept s b) :
    NumbersKept s (if c then a else b) := by
  split
  · exact ha
  · exact hb

theorem numbersKept_incMax {o : Obj} (ho : o.key ∈ milletCounts) (n top : Nat) (s : State) : NumbersKept s (incMax s o n top) :=
  fun _ hq => getN_setN_other _ _ _ _ (fun e => hq (e ▸ ho))

theorem numbersKept_milletBytes (mb : Bool) (n : Nat) (s : State) : NumbersKept s (milletBytes mb n s) := by
  unfold milletBytes
  cases mb with
  | true => exact fun _ hq => getN_setN_other _ _ _ _ (fun e => hq (e ▸ by decide))
  | false => exact fun _ hq => getN_setN_other _ _ _ _ (fun e => hq (e ▸ by decide))

theorem numbersKept_updTile (t : Fin 68) (f : Tile → Tile) (s : State) : NumbersKept s (updTile t f s) := fun _ _ => rfl

theorem numbersKept_clearPoison (a n : Nat) (s : State) : NumbersKept s (clearPoison a n s) := by
  unfold clearPoison
  split
  · exact numbersKept_incMax (by decide) _ _ _
  · exact numbersKept_incMax (by decide) _ _ _
  · exact numbersKept_updTile _ _ s
  · exact .refl s

theorem numbersKept_writeByte (a v : Nat) (s : State) : NumbersKept s (writeByte a v s) :=
  .of_only (L := [.eng, .mem]) (keep_writeByte _ _ (.of_all rfl) (only_refl _ s)) (by decide)

theorem numbersKept_spill (c : Fin 32) (b : Burst) (s : State) : NumbersKept s (spill c b s) := by
  unfold spill
  extract_lets x bs s0 s1 s2
  have hs0 : NumbersKept s s0 := .ite (fun _ _ => rfl) (.refl s)
  have hs1 : NumbersKept s s1 := by
    unfold s1
    split
    · exact hs0.trans (numbersKept_updTile _ _ _)
    · exact hs0
  have hs2 : NumbersKept s s2 := by
    unfold s2
    split
    · exact hs1.trans (.of_only (L := [.ev, .nut, .mem, .bar]) (keep_putPlain _ _ (.of_all rfl) (only_refl _ s1)) (by decide))
    · refine hs1.trans (NumbersKept.trans ?_ (numbersKept_clearPoison _ _ _))
      exact List.foldlRecOn _ _ (NumbersKept.refl s1) (fun u hu x _ => hu.trans (numbersKept_writeByte _ _ u))
  exact hs2.trans (numbersKept_milletBytes _ _ s2)

theorem numbersKept_dropChan (c : Fin 32) (s : State) : NumbersKept s (dropChan c s) := by
  unfold dropChan
  extract_lets off s1
  have hs1 : NumbersKept s s1 := forEach_keeps (fun b u hu => hu.trans (.ite (numbersKept_spill _ _ _) (fun _ _ => rfl))) (.refl s)
  refine .ite ?_ (fun _ _ => rfl)
  refine NumbersKept.trans (hs1.trans (fun _ _ => rfl : NumbersKept s1 (takeFree 64 s1).2)) ?_
  exact .of_only (L := [.mem, .eng]) (keep_endRun c (.of_all rfl) (keep_updDma _ _ (.of_all rfl) (keep_updDma _ _ (.of_all rfl)
    (only_forAll _ _ (fun t u hu => keep_updTile (L := [.mem, .eng]) _ _ (.of_all rfl) hu) (only_refl _ _))))) (by decide)

theorem numbersKept_dropFirmware (s : State) : NumbersKept s (dropFirmware s) := by
  unfold dropFirmware
  extract_lets s1
  have hs1 : NumbersKept s s1 :=
    forAll_keeps (P := NumbersKept s) (fun c u hu => hu.trans (.ite (numbersKept_dropChan c u) (.refl u))) (.refl s)
  exact hs1.trans (.of_only (L := [.mem]) (keep_setMem _ (.of_all rfl) (only_refl _ s1)) (by decide))

theorem numbersKept_fwDown (s : State) : NumbersKept s (fwDown s) :=
  NumbersKept.trans (.of_only (L := [.part, .ev, .nut, .oda, .port, .bar])
    (keep_abortFw (.of_all rfl) (keep_mk_part _ (.of_all rfl) (only_refl _ s))) (by decide)) (numbersKept_dropFirmware _)

/-! ## Watchdogs and firmware restarts (R335, R431 to R433) -/

/-- DEGRADED is the one thing in PART that its notice changes. -/
theorem noteDegraded_part (s : State) : (noteDegraded s).part = { s.part with degraded := degradedWord s } := by
  unfold noteDegraded
  extract_lets w s1
  split
  · next h => exact (congrArg (fun d => { s.part with degraded := d }) h : { s.part with degraded := s.part.degraded } = _)
  · split <;> rfl

theorem noteDegraded_bar (s : State) : (noteDegraded s).bar = s.bar :=
  keep_noteDegraded (L := [.part, .ev, .nut]) (.of_all rfl) (only_refl _ s) .bar (by decide)

theorem fwDown_part (s : State) : (fwDown s).part = { s.part with fwRestarting := true } := by
  have habort : (abortFw { s with part := { s.part with fwRestarting := true } }).part = { s.part with fwRestarting := true } :=
    keep_abortFw (L := [.ev, .nut, .oda, .port, .bar]) (.of_all rfl) (only_refl _ _) .part (by decide)
  exact (keep_dropFirmware (L := [.nums, .ev, .nut, .eng, .mem, .bar, .free]) (.of_all rfl) (only_refl _ _) .part
    (by decide)).trans habort

/-- A cluster's firmware in restart after a crash or a warm restart. -/
def restartingCluster (cause due : Nat) (x : Cluster) : Cluster :=
  { x with crashCause := cause, wdogDue := due, warned := false, cores := x.cores.map (fun h => { h with mode := .warden }) }

theorem restartFw_eq (c : Fin 2) (cause : Nat) (s : State) : restartFw c cause s =
    noteDegraded (updCluster c (restartingCluster cause (s.clk.cycles + wdogCycles)) (fwDown s)) := by
  unfold restartFw restartingCluster
  rfl

@[simp] theorem updCluster_clusters_same (c : Fin 2) (f : Cluster → Cluster) (s : State) :
    (updCluster c f s).bar.clusters.get c = f (s.bar.clusters.get c) := vupd_get_same _ _ _

/-- The restart of the firmware leaves the state of the part and its main die, and counts no crash. -/
theorem restartFw_restarts (c : Fin 2) (cause : Nat) (s : State) :
    (restartFw c cause s).part.fwRestarting = true ∧ (restartFw c cause s).part.st = s.part.st ∧
    (restartFw c cause s).part.reset = s.part.reset ∧ ((restartFw c cause s).bar.clusters.get c).crashCause = cause ∧
    getN (restartFw c cause s) Obj.fwCrashes = getN s Obj.fwCrashes := by
  rw [restartFw_eq, noteDegraded_part, noteDegraded_bar, getN_of_nums_eq (noteDegraded_nums _),
    getN_of_nums_eq (updCluster_nums _ _ _), updCluster_clusters_same]
  have hpart : (updCluster c (restartingCluster cause (s.clk.cycles + wdogCycles)) (fwDown s)).part =
      { s.part with fwRestarting := true } := (updCluster_part _ _ _).trans (fwDown_part s)
  rw [hpart]
  exact ⟨rfl, rfl, rfl, rfl, numbersKept_fwDown s Obj.fwCrashes (by decide)⟩

theorem crashEndsShadow_of_idle {s : State} (h : s.bar.upd = .idle) : crashEndsShadow s = s := by
  unfold crashEndsShadow
  rw [h]

theorem fwRestart_ends {au : Auth} {s : State} (hup : s.oda.serving = true)
    (hcheck : precheck s au Obj.fwRestart.key 0 (.num 1) = 0) (hidle : s.bar.upd = .idle) :
    Ends (.fwRestart au) s (fun t => t.part.fwRestarting = true ∧ (t.bar.clusters.get (ctrl s)).crashCause = 2 ∧
      getN t Obj.fwCrashes = getN s Obj.fwCrashes ∧ t.part.st = s.part.st) := by
  refine write_ends_of_only hup hcheck rfl fun _ u hu => ?_
  have hbar : u.bar = s.bar := hu .bar (by decide)
  have hnums : u.nums = s.nums := hu .nums (by decide)
  have hpart : u.part = s.part := hu .part (by decide)
  have hctrl : ctrl u = ctrl s := by rw [ctrl, hbar, ctrl]
  rw [warmRestart, crashEndsShadow_of_idle (by rw [hbar]; exact hidle), hctrl]
  obtain ⟨hrestarting, hst, -, hcause, hcrashes⟩ := restartFw_restarts (ctrl s) 2 u
  exact ⟨hrestarting, hcause, hcrashes.trans (getN_of_nums_eq hnums _), hst.trans (congrArg Part.st hpart)⟩

/-! ### A watchdog that expires -/

/-- The crashes of the last ten minutes with one more, now. -/
def crashTimesAfter (s : State) : List Nat :=
  s.part.crashTimes.filter (fun t => decide (s.clk.cycles - t ≤ tenMin)) ++ [s.clk.cycles]

theorem countCrash_part (c : Fin 2) (s : State) : (countCrash c s).part = { s.part with crashTimes := crashTimesAfter s } := rfl

theorem countCrash_counts (c : Fin 2) (s : State) :
    getN (countCrash c s) Obj.fwCrashes = min (getN s Obj.fwCrashes + 1) 0xFFFFFFFF :=
  getN_inc32_same _ _

theorem crashControl_restarts {c : Fin 2} (kept : Bool) {s : State} (hfew : (crashTimesAfter s).length < 4)
    (hidle : s.bar.upd = .idle) : crashControl c kept s = restartFw c 1 (countCrash c s) := by
  have hupd : (countCrash c s).bar.upd = .idle := hidle
  unfold crashControl
  extract_lets s1
  rw [if_neg (by rw [countCrash_part]; exact Nat.not_le.mpr hfew), if_neg (by simp [s1, hupd]), if_neg (by simp [s1, hupd]),
    crashEndsShadow_of_idle hupd]

theorem crashControl_resets {c : Fin 2} (kept : Bool) {s : State} (hmany : 4 ≤ (crashTimesAfter s).length) :
    crashControl c kept s = mainReset 2 kept (countCrash c s) := if_pos hmany

theorem execWatchdogExpiry_of_control {c : Fin 2} (kept : Bool) {s : State} (hrole : roleOf s c = .control) :
    execWatchdogExpiry c kept s = .next (noteDegraded (crashControl c kept (tickTo (s.bar.clusters.get c).wdogDue s))) := by
  unfold execWatchdogExpiry
  rw [hrole]

theorem watchdogExpiry_restarts {c : Fin 2} (kept : Bool) {s : State} (hrole : roleOf s c = .control)
    (hup : s.part.reset = false) (hfirst : s.part.crashTimes = []) (hidle : s.bar.upd = .idle) :
    Ends (.watchdogExpiry c kept) s (fun t => t.part.fwRestarting = true ∧ (t.bar.clusters.get c).crashCause = 1 ∧
      getN t Obj.fwCrashes = min (getN s Obj.fwCrashes + 1) 0xFFFFFFFF ∧ t.part.st = s.part.st ∧ t.part.reset = false) := by
  refine ends_of_next (execWatchdogExpiry_of_control kept hrole) ?_
  obtain ⟨k, hk⟩ := tickTo_eq_with_clk (s.bar.clusters.get c).wdogDue s
  rw [hk, crashControl_restarts (s := { s with clk := k }) kept (by rw [crashTimesAfter]; simp [hfirst]) hidle, noteDegraded_part, noteDegraded_bar,
    getN_of_nums_eq (noteDegraded_nums _)]
  obtain ⟨hrestarting, hst, hreset, hcause, hcrashes⟩ := restartFw_restarts c 1 (countCrash c { s with clk := k })
  have hbefore : getN { s with clk := k } Obj.fwCrashes = getN s Obj.fwCrashes := rfl
  rw [countCrash_part] at hst hreset
  dsimp only at hst hreset ⊢
  rw [countCrash_counts, hbefore] at hcrashes
  exact ⟨hrestarting, hcause, hcrashes, hst, hreset.trans hup⟩

/-! ### The reset of the main die -/

/-- The main die goes down: it is in reset, its boot is held, and the crashes counted so far are forgotten. -/
theorem mainDown_part (kept : Bool) {s : State} (hup : s.part.reset = false) : (mainDown kept s).part =
    { s.part with reset := true, boot := .held, fwRestarting := false, crashTimes := [], restorePending := true, restored := false } := by
  unfold mainDown
  rw [if_neg (by simp [hup])]
  have hbefore : Only [.nums, .clk, .acc, .heat, .ev, .nut, .oda, .port, .eng, .img, .ani, .mem, .bar, .cardamom] s
      (serializerDown (restartAnise (heatDown (limitsDown (engineDown (cardamomDown (barleyDown (memDown kept (portsDown
        (timeDown (odaDown s))))))))))) :=
    keep_serializerDown (.of_all rfl) (keep_restartAnise (.of_all rfl)
      (keep_heatDown (.of_all rfl) (keep_limitsDown (.of_all rfl) (keep_engineDown (.of_all rfl)
      (keep_cardamomDown (.of_all rfl) (keep_barleyDown (.of_all rfl) (keep_memDown kept (.of_all rfl)
      (keep_portsDown (.of_all rfl) (keep_timeDown (.of_all rfl) (keep_odaDown (.of_all rfl) (only_refl _ _)))))))))))
  have hpart : (serializerDown (restartAnise (heatDown (limitsDown (engineDown (cardamomDown (barleyDown (memDown kept (portsDown
        (timeDown (odaDown s))))))))))).part = s.part := hbefore .part (by decide)
  exact congrArg (fun p : Part => { p with
    reset := true, boot := .held, fwRestarting := false, crashTimes := [], restorePending := true, restored := false }) hpart

theorem enterPart_part (st : PartState) (s : State) :
    ∃ n, (enterPart st s).part = { s.part with st := st, stateCount := n } := by
  unfold enterPart
  split
  · next h => exact ⟨s.part.stateCount, by rw [← h]⟩
  · exact ⟨_, keep_announceAll (L := [.ev, .nut, .port]) (.of_all rfl) (only_refl _ _) .part (by decide)⟩

/-- A reset of the main die outside SAFE asserts the reset and enters BOOT. -/
theorem mainReset_of_not_safe (why : Nat) (kept : Bool) {s : State} (hup : s.part.reset = false) (hst : s.part.st ≠ .safe) :
    (mainReset why kept s).part.reset = true ∧ (mainReset why kept s).part.st = .boot ∧
      (mainReset why kept s).part.crashTimes = [] := by
  unfold mainReset
  extract_lets s1 s2 raised s3
  have hpart : s3.part = { (mainDown kept s).part with resetDue := s.clk.cycles + msCycles 200 } := rfl
  rw [mainDown_part kept hup] at hpart
  rw [if_neg (by simp [hup]), if_neg (by rw [hpart]; exact fun h => hst h.1)]
  obtain ⟨n, hn⟩ := enterPart_part .boot { s3 with part := { s3.part with safeCause := .none, safeFromRun := false } }
  rw [hn, hpart]
  exact ⟨rfl, rfl, rfl⟩

theorem watchdogExpiry_resets {c : Fin 2} (kept : Bool) {s : State} (hrole : roleOf s c = .control)
    (hup : s.part.reset = false) (hst : s.part.st ≠ .safe)
    (hthree : (s.part.crashTimes.filter
      (fun x => decide ((tickTo (s.bar.clusters.get c).wdogDue s).clk.cycles - x ≤ tenMin))).length = 3) :
    Ends (.watchdogExpiry c kept) s (fun t => t.part.reset = true ∧ t.part.st = .boot ∧ t.part.crashTimes = []) := by
  refine ends_of_next (execWatchdogExpiry_of_control kept hrole) ?_
  obtain ⟨k, hk⟩ := tickTo_eq_with_clk (s.bar.clusters.get c).wdogDue s
  rw [hk] at hthree ⊢
  have hfour : 4 ≤ (crashTimesAfter { s with clk := k }).length := by
    rw [crashTimesAfter, List.length_append, hthree, List.length_singleton]
  rw [crashControl_resets kept hfour, noteDegraded_part]
  exact mainReset_of_not_safe (s := countCrash c { s with clk := k }) 2 kept hup hst

/-! ### Watchdog, restart and L2 registers -/

theorem execWdogKick_of_up {c : Fin 2} {s : State} (h : wardenUp s c = true) : execWdogKick c 0x5A5A s =
    .next (updCluster c (fun x => { x with wdogDue := s.clk.cycles + wdogCycles, warned := false }) s) := if_pos (by rw [h]; rfl)

theorem wdogKick_other {c : Fin 2} {v : Nat} {s : State} (h : v ≠ 0x5A5A) : Ends (.wdogKick c v) s (fun t => t = s) :=
  ends_of_next (if_neg (by simp [h])) rfl

theorem clusterIrq_clusters (source : Nat) (c : Fin 2) (s : State) : (clusterIrq source c s).bar.clusters = s.bar.clusters := by
  unfold clusterIrq raiseIrq
  extract_lets w e
  split
  · split <;> rfl
  · rfl

theorem wdogWarn_ends {c : Fin 2} {s : State} (hup : wardenUp s c = true) (hfirst : (s.bar.clusters.get c).warned = false) :
    Ends (.wdogWarn c) s (fun t => (t.bar.clusters.get c).warned = true ∧
      (t.bar.clusters.get c).wdogDue = (s.bar.clusters.get c).wdogDue) := by
  refine ends_of_next (if_pos (by rw [hup, hfirst]; rfl)) ?_
  obtain ⟨k, hk⟩ := tickTo_eq_with_clk ((s.bar.clusters.get c).wdogDue - msCycles 50) s
  rw [clusterIrq_clusters, updCluster_clusters_same, hk]
  exact ⟨rfl, rfl⟩

theorem firmwareRestarted_ends {s : State} (h : s.part.fwRestarting = true) :
    Ends .firmwareRestarted s (fun t => t.part.fwRestarting = false ∧ t.part.st = s.part.st) := by
  refine ends_of_next (if_neg (by simp [h])) ?_
  rw [noteDegraded_part]
  exact ⟨rfl, rfl⟩

theorem l2Invalidate_ends {c : Fin 2} {s : State} (h : wardenUp s c = true) : Ends (.l2Invalidate c 1) s (fun t =>
    (t.bar.clusters.get c).l2Busy = true ∧ (t.bar.clusters.get c).l2Due = s.clk.cycles + usCycles 20) := by
  refine ends_of_next (if_pos (by rw [h]; rfl)) ?_
  rw [updCluster_clusters_same]
  exact ⟨rfl, rfl⟩

theorem l2InvalidateDone_ends (c : Fin 2) (s : State) : Ends (.l2InvalidateDone c) s (fun t =>
    (t.bar.clusters.get c).l2Busy = false ∧ (t.bar.clusters.get c).role = (s.bar.clusters.get c).role) := by
  cases h : (s.bar.clusters.get c).l2Busy with
  | true =>
    refine ends_of_next (if_pos h) ?_
    obtain ⟨k, hk⟩ := tickTo_eq_with_clk (s.bar.clusters.get c).l2Due s
    rw [updCluster_clusters_same, hk]
    exact ⟨rfl, rfl⟩
  | false => exact ends_of_next (if_neg (by simp [h])) ⟨h, rfl⟩

/-- Settles O12: a restart of the firmware drops its channels and requests but counts no crash; the fourth crash within
ten minutes resets the main die instead. -/
theorem firmwareRestartsAndWatchdogs : Obligations.FirmwareRestartsAndWatchdogs := by
  unfold Obligations.FirmwareRestartsAndWatchdogs
  refine ⟨fun c s hup => ?_, fun c v s hv => wdogKick_other hv, fun c s hup hfirst => wdogWarn_ends hup hfirst,
    fun au s hup hcheck hidle => fwRestart_ends hup hcheck hidle,
    fun c kept s hrole hup hfirst hidle => watchdogExpiry_restarts kept hrole hup hfirst hidle,
    fun c kept s hrole hup hst hthree => watchdogExpiry_resets kept hrole hup hst hthree,
    fun s h => firmwareRestarted_ends h, fun c s h => l2Invalidate_ends h, l2InvalidateDone_ends⟩
  refine ends_of_next (execWdogKick_of_up hup) ?_
  rw [updCluster_clusters_same]
  exact ⟨rfl, rfl, rfl⟩

/-! ## Steps released from a hold (R452)

Steps that waited for the end of a hold go to the firmware or end. In Barley they add requests and interrupts, and nothing
else. -/

/-- Barley without the requests to the firmware and the interrupts. -/
def besideRequests (b : Barley) : Barley := { b with outstanding := [], reqHead := 0, irqs := [] }

/-- Of Barley, at most requests and interrupts changed. -/
def RequestsOnly (s t : State) : Prop := besideRequests t.bar = besideRequests s.bar

theorem RequestsOnly.refl (s : State) : RequestsOnly s s := rfl

theorem RequestsOnly.trans {s t u : State} (h : RequestsOnly s t) (k : RequestsOnly t u) : RequestsOnly s u := Eq.trans k h

theorem RequestsOnly.of_only {L : List Area} {s t : State} (h : Only L s t) (hbar : Area.bar ∉ L) : RequestsOnly s t :=
  congrArg besideRequests (h .bar hbar : t.bar = s.bar)

theorem RequestsOnly.ite {s a b : State} {c : Prop} [Decidable c] (ha : RequestsOnly s a) (hb : RequestsOnly s b) :
    RequestsOnly s (if c then a else b) := by
  split
  · exact ha
  · exact hb

theorem requestsOnly_raiseIrq (source core : Nat) (s : State) : RequestsOnly s (raiseIrq source core s) := .ite (.refl s) rfl

theorem requestsOnly_routeIrq (source : Nat) (s : State) : RequestsOnly s (routeIrq source s) :=
  .ite (requestsOnly_raiseIrq _ _ s) (.refl s)

theorem requestsOnly_tryFire (k : Nat) (s : State) : RequestsOnly s (tryFire k s) := by
  unfold tryFire
  extract_lets x v s1 s2
  have hs2 : RequestsOnly s s2 := RequestsOnly.trans (t := s1) rfl (.ite (requestsOnly_raiseIrq _ _ s1) (.refl s1))
  exact .ite (.ite (RequestsOnly.trans hs2 (.of_only (keep_raiseMain (L := [.ev, .nut]) _ _ _ (.of_all rfl) (only_refl _ _))
    (by decide))) hs2) (.refl s)

theorem requestsOnly_signalCell (c n : Nat) (s : State) : RequestsOnly s (signalCell c n s) :=
  forEach_keeps (P := RequestsOnly s) (fun k u hu => hu.trans (requestsOnly_tryFire k u)) rfl

theorem requestsOnly_passFw (kind : Nat) (au : Auth) (place key : Nat) (v : Value) (s : State) :
    RequestsOnly s (passFw kind au place key v s).2 := by
  unfold passFw
  extract_lets tag s1 r s2 s3
  have hput : RequestsOnly s (putEntry r s1) :=
    .of_only (L := [.oda, .mem, .free]) (keep_putEntry r (.of_all rfl) (keep_setOda _ (.of_all rfl) (only_refl _ s))) (by decide)
  have hs2 : RequestsOnly s s2 := hput.trans rfl
  have hs3 : RequestsOnly s s3 := (hs2.trans (requestsOnly_signalCell _ _ s2)).trans (requestsOnly_routeIrq _ _)
  exact .ite (hs3.trans (requestsOnly_signalCell _ _ s3)) hs3

theorem requestsOnly_finish (p : Pending) (code : Nat) (s : State) : RequestsOnly s (finish p code s) :=
  .of_only (L := [.ev, .nut, .oda, .port]) (keep_finish p code (.of_all rfl) (only_refl _ s)) (by decide)

theorem requestsOnly_park (p : Pending) (s : State) : RequestsOnly s (park p s) :=
  .of_only (L := [.oda]) (keep_park p (.of_all rfl) (only_refl _ s)) (by decide)

theorem requestsOnly_passFront (p : Pending) (s : State) : RequestsOnly s (passFront p s) := by
  unfold passFront
  split
  · exact requestsOnly_finish p 0 s
  · exact .ite (requestsOnly_park _ s) ((requestsOnly_passFw _ _ _ _ _ s).trans (requestsOnly_park _ _))

theorem requestsOnly_runItems (steps : List (Nat × Nat × Value)) (p : Pending) (s : State) :
    RequestsOnly s (runItems p steps s) := by
  induction steps generalizing p s with
  | nil => exact requestsOnly_finish _ 0 s
  | cons step rest ih => exact .ite (ih _ s) (.ite (ih _ s) (requestsOnly_passFront _ s))

theorem requestsOnly_releaseOne (p : Pending) (s : State) : RequestsOnly s (releaseOne p s) := by
  unfold releaseOne
  extract_lets s1
  have hs1 : RequestsOnly s s1 := .of_only (L := [.oda]) (keep_unpark p (.of_all rfl) (only_refl _ s)) (by decide)
  refine .ite (hs1.trans (requestsOnly_runItems _ _ s1)) (.ite (hs1.trans (requestsOnly_finish _ _ s1)) ?_)
  split
  · exact hs1.trans (requestsOnly_finish _ _ s1)
  · exact .ite (hs1.trans (requestsOnly_finish _ _ s1)) (hs1.trans (requestsOnly_passFront _ s1))

theorem releaseSteps_bar (s : State) : besideRequests (releaseSteps s).bar = besideRequests { s.bar with holdOn := false } :=
  forEach_keeps (P := RequestsOnly (setBar (fun b => { b with holdOn := false }) s))
    (fun p u hu => hu.trans (requestsOnly_releaseOne p u)) (.refl _)

theorem releaseSteps_part (s : State) : (releaseSteps s).part = s.part :=
  keep_releaseSteps (L := [.ev, .nut, .oda, .port, .mem, .bar, .free]) (.of_all rfl) (only_refl _ s) .part (by decide)

/-! ## SAFE and the main-die reset (R321, R324, R325, R330) -/

/-- What a transition of the part sets, besides DEGRADED and its stamp. -/
structure PartView where
  st : PartState
  safeCause : SafeCause
  safeFromRun : Bool
  boot : BootStep
  reset : Bool
  resetDue : Nat

@[inherit_doc PartView] def partView (p : Part) : PartView := ⟨p.st, p.safeCause, p.safeFromRun, p.boot, p.reset, p.resetDue⟩

theorem partView_noteDegraded (s : State) : partView (noteDegraded s).part = partView s.part := by
  rw [noteDegraded_part]
  rfl

theorem partView_enterPart (st : PartState) (s : State) :
    partView (enterPart st s).part = partView { s.part with st := st } := by
  obtain ⟨n, hn⟩ := enterPart_part st s
  rw [hn]
  rfl

theorem EndsIn.noted_next {P : State → Prop} {t : State} (h : P (noteDegraded t)) : EndsIn P (Machine.noted (.next t)) := .next h

/-! ### SAFE by the Warden -/

theorem enterSafe_of_not_safe {c : SafeCause} {s : State} (hst : s.part.st ≠ .safe) :
    partView (enterSafe c s).part = partView { s.part with st := .safe, safeCause := c, safeFromRun := s.part.st == .run } := by
  have hnot : (s.part.st == .safe) = false := by simpa using hst
  unfold enterSafe
  extract_lets s0 left s1 s2
  have hs1 : s1.part = { s.part with safeCause := c, safeFromRun := s.part.st == .run } := by
    show ({ s.part with safeCause := c, safeFromRun := s.part.st == .run || (s.part.st == .safe && s.part.safeFromRun) } : Part) = _
    rw [hnot, Bool.false_and, Bool.or_false]
  have hlost : (updateLost s1).part = s1.part :=
    keep_updateLost (L := [.ev, .nut, .bar]) (.of_all rfl) (only_refl _ s1) .part (by decide)
  have hs2 : s2.part = (enterPart .safe (updateLost s1)).part := only_forAll (L := [.nums, .br, .sq, .acc, .eng]) 8 withdrawAdmit
    (fun a u hu => keep_withdrawAdmit a (.of_all rfl) hu) (only_refl _ _) .part (by decide)
  have hlast : (abandonTick s2).part = s2.part := keep_abandonTick (L := [.acc, .ani]) (.of_all rfl) (only_refl _ s2) .part (by decide)
  rw [if_neg (fun h => hst h.1), if_neg hst, hlast, hs2, partView_enterPart, hlost, hs1]

theorem wardenSafe_ends {s : State} (h : mayCommandSafe s = true) : Ends .wardenSafe s (fun t =>
    t.part.st = .safe ∧ t.part.safeCause = .warden ∧ t.part.safeFromRun = (s.part.st == .run) ∧ t.bar.holdOn = false) := by
  have hst : s.part.st ≠ .safe := by
    intro hsafe
    simp [mayCommandSafe, hsafe] at h
  change EndsIn _ (Machine.noted _)
  rw [if_neg (by simp [h])]
  set s1 := releaseSteps (enterSafe .warden s)
  set s2 := if s1.eng.running && s1.eng.mainDone then stopSafe s1 else s1
  have hstop : Only [.eng] s1 s2 := only_ite (fun _ => keep_stopSafe (.of_all rfl) (only_refl _ s1)) (fun _ => only_refl _ s1)
  have hpart : s2.part = (enterSafe .warden s).part := (hstop .part (by decide)).trans (releaseSteps_part _)
  have hview : partView (noteDegraded s2).part = partView { s.part with st := .safe, safeCause := .warden, safeFromRun := s.part.st == .run } := by
    rw [partView_noteDegraded, hpart, enterSafe_of_not_safe hst]
  have hhold : (noteDegraded s2).bar.holdOn = false := by
    rw [noteDegraded_bar, show s2.bar = s1.bar from hstop .bar (by decide)]
    exact congrArg Barley.holdOn (releaseSteps_bar (enterSafe .warden s))
  exact .noted_next ⟨congrArg PartView.st hview, congrArg PartView.safeCause hview, congrArg PartView.safeFromRun hview, hhold⟩

/-! ### The release from SAFE -/

/-- The part as WARDEN_RELEASE leaves SAFE. -/
def safeReleased (p : Part) : Part := { p with safeCause := .none, safeFromRun := false }

/-- The part whose boot is done. -/
def readyPart (p : Part) : Part := { p with st := .ready, boot := .done }

theorem partView_readyPart {p q : Part} (h : partView p = partView q) : partView (readyPart p) = partView (readyPart q) :=
  congrArg (fun v : PartView => { v with st := .ready, boot := .done }) h

theorem settleLevel_partView (s : State) : partView (settleLevel s).part = partView s.part := by
  unfold settleLevel
  extract_lets l s1 unmet
  split
  · rfl
  · rw [partView_noteDegraded]
    exact congrArg partView (keep_recompute (L := [.heat, .ev, .nut, .eng, .img, .free]) _ (.of_all rfl) (keep_raiseMain _ _ _ (.of_all rfl)
      (keep_setHeat _ (.of_all rfl) (only_refl _ s))) .part (by decide))

/-- The end of boot enters READY, outside SAFE. -/
theorem readyUp_partView {s : State} (hst : s.part.st ≠ .safe) : partView (readyUp s).part = partView (readyPart s.part) := by
  unfold readyUp
  extract_lets lost s0 s0' s1 s2 s3
  have hs0 : s0.part = { s.part with boot := .done } :=
    keep_serializerUp (L := [.ev]) (.of_all rfl) (only_refl _ _) .part (by decide)
  have hs1 : s1.part = { s.part with boot := .done } := by
    have hraised : Only [.ev, .nut, .oda, .port] s0 s1 :=
      only_forAll 8 startSb (fun a u hu => keep_startSb a (.of_all rfl) hu) (keep_startMacs (.of_all rfl) (keep_odaUp _ (.of_all rfl)
        (only_ite (fun _ => keep_raiseMain _ _ _ (.of_all rfl) (only_refl _ s0)) (fun _ => only_refl _ s0))))
    exact (hraised .part (by decide)).trans hs0
  have hs2 : partView s2.part = partView (readyPart s.part) := by
    unfold s2
    rw [if_neg (by rw [hs1]; exact hst), partView_enterPart, hs1]
    rfl
  have hs3 : partView s3.part = partView s2.part := by
    unfold s3
    split
    · have hlost : (memLost s2).part = s2.part :=
        keep_memLost (L := [.ev, .nut, .eng, .img, .mem]) (.of_all rfl) (only_refl _ s2) .part (by decide)
      exact (congrArg partView hlost :)
    · rfl
  have hcaps : (recomputeCaps s3).part = s3.part := keep_recomputeCaps (L := [.acc]) (.of_all rfl) (only_refl _ s3) .part (by decide)
  rw [partView_noteDegraded, settleLevel_partView, hcaps, hs3, hs2]

theorem wardenRelease_ends {s : State} (hst : s.part.st = .safe) (hcause : s.part.safeCause = .warden) (hup : s.part.reset = false) :
    Ends .wardenRelease s (fun t => partView t.part = partView (readyPart (safeReleased s.part))) := by
  change EndsIn _ (execWardenRelease s)
  unfold execWardenRelease
  rw [if_neg (by simp [hst, hcause, hup])]
  extract_lets run s1 s2
  have hs2 : partView s2.part = partView (safeReleased s.part) := by
    unfold s2
    split
    · have hstop : (restartAnise (stopSafe s1)).part = s1.part :=
        keep_restartAnise (L := [.eng, .ani]) (.of_all rfl) (keep_stopSafe (.of_all rfl) (only_refl _ s1)) .part (by decide)
      exact (congrArg partView hstop :)
    · rfl
  by_cases hboot : s2.part.boot = .done
  · rw [if_pos hboot]
    have hready : (settleReady (enterPart .ready s2)).part = (enterPart .ready s2).part :=
      keep_settleReady (L := [.nums, .pow, .ev, .nut, .eng, .img, .mem, .bar, .free]) (.of_all rfl) (only_refl _ _) .part (by decide)
    have hdone : partView { s2.part with st := .ready } = partView (readyPart s2.part) := by
      rw [readyPart, ← hboot]
    refine .next ?_
    rw [partView_noteDegraded, hready, partView_enterPart, hdone]
    exact partView_readyPart hs2
  · rw [if_neg hboot]
    exact .next ((readyUp_partView (show PartState.boot ≠ .safe by decide)).trans (partView_readyPart (p := { s2.part with st := .boot })
      (q := { safeReleased s.part with st := .boot }) (congrArg (fun v : PartView => { v with st := .boot }) hs2)))

/-! ### The reset and its end -/

theorem pushEvent_up (v : Events) (r : EvRec) : (pushEvent v r).up = v.up := by
  unfold pushEvent
  split
  · rfl
  split
  · rfl
  · rfl

/-- Raising an event does not turn the serializer on or off. -/
theorem raiseRec_up (e : Ev) (r : EvRec) (s : State) : (raiseRec e r s).ev.up = s.ev.up := by
  unfold raiseRec
  extract_lets v
  change v.up = _
  unfold v
  split
  · exact pushEvent_up _ _
  · rfl

theorem noteDegraded_up (s : State) : (noteDegraded s).ev.up = s.ev.up := by
  unfold noteDegraded
  extract_lets w s1
  split
  · rfl
  split
  · exact raiseRec_up _ _ _
  · exact raiseRec_up _ _ _

theorem putLine_up (p : Fin 2) (cls : Nat) (m : Msg) (s : State) : (putLine p cls m s).ev.up = s.ev.up := by
  unfold putLine
  extract_lets h mode assoc low s1
  split
  · rfl
  split
  · rfl
  split
  · split
    · exact raiseRec_up _ _ _
    · rfl
  · rfl

theorem announceHost_up (p : Fin 2) (s : State) : (announceHost p s).ev.up = s.ev.up := by
  unfold announceHost sendHost
  split
  · rfl
  split
  · exact putLine_up p _ _ s
  · rfl

theorem announceAll_up (s : State) : (announceAll s).ev.up = s.ev.up := by
  have hsvc (u : State) : (announceSvc u).ev = u.ev := keep_announceSvc (L := [.port]) (.of_all rfl) (only_refl _ u) .ev (by decide)
  rw [announceAll, hsvc, announceHost_up, announceHost_up]

theorem enterPart_up (st : PartState) (s : State) : (enterPart st s).ev.up = s.ev.up := by
  unfold enterPart
  split
  · rfl
  · exact announceAll_up _

/-- The dictionary is closed, the serializer off and the engine stopped. -/
def MainStopped (s : State) : Prop := s.oda.serving = false ∧ s.ev.up = false ∧ s.eng.running = false

theorem serializerDown_up (s : State) : (serializerDown s).ev.up = false := rfl

theorem engineDown_running (s : State) : (engineDown s).eng.running = false := rfl

/-- The main die's logic stops, from the dictionary to the serializer, which comes last. -/
def mainStops (kept : Bool) (s : State) : State :=
  serializerDown (restartAnise (heatDown (limitsDown (engineDown (cardamomDown (barleyDown (memDown kept (portsDown
    (timeDown (odaDown s))))))))))

/-- The flags of a main die in reset. -/
def resetPart (p : Part) : Part :=
  { p with reset := true, boot := .held, fwRestarting := false, crashTimes := [], restorePending := true, restored := false }

theorem mainDown_eq (kept : Bool) {s : State} (hup : s.part.reset = false) :
    mainDown kept s = { mainStops kept s with part := resetPart (mainStops kept s).part } := if_neg (by simp [hup])

theorem mainStops_stop (kept : Bool) (s : State) : MainStopped (mainStops kept s) := by
  have hoda : Only [.nums, .clk, .acc, .heat, .ev, .nut, .port, .eng, .img, .ani, .mem, .bar, .cardamom] (odaDown s)
      (mainStops kept s) :=
    keep_serializerDown (.of_all rfl) (keep_restartAnise (.of_all rfl)
      (keep_heatDown (.of_all rfl) (keep_limitsDown (.of_all rfl) (keep_engineDown (.of_all rfl)
      (keep_cardamomDown (.of_all rfl) (keep_barleyDown (.of_all rfl) (keep_memDown kept (.of_all rfl)
      (keep_portsDown (.of_all rfl) (keep_timeDown (.of_all rfl) (only_refl _ _))))))))))
  have heng (u : State) : Only [.acc, .heat, .ani, .ev, .nut] (engineDown u)
      (serializerDown (restartAnise (heatDown (limitsDown (engineDown u))))) :=
    keep_serializerDown (.of_all rfl) (keep_restartAnise (.of_all rfl)
      (keep_heatDown (.of_all rfl) (keep_limitsDown (.of_all rfl) (only_refl _ _))))
  have hserving : (mainStops kept s).oda = (odaDown s).oda := hoda .oda (by decide)
  have hrunning (u : State) : (serializerDown (restartAnise (heatDown (limitsDown (engineDown u))))).eng = (engineDown u).eng :=
    heng u .eng (by decide)
  refine ⟨by rw [hserving]; rfl, serializerDown_up _, ?_⟩
  rw [mainStops, hrunning, engineDown_running]

theorem mainStopped_mainDown (kept : Bool) {s : State} (hup : s.part.reset = false) : MainStopped (mainDown kept s) := by
  obtain ⟨hserving, hev, heng⟩ := mainStops_stop kept s
  rw [mainDown_eq kept hup]
  exact ⟨hserving, hev, heng⟩

/-- What a reset of the main die that enters BOOT leaves. -/
structure ResetEntered (n : Nat) (t : State) : Prop where
  reset : t.part.reset = true
  due : t.part.resetDue = n + msCycles 200
  st : t.part.st = .boot
  cause : t.part.safeCause = .none
  stopped : MainStopped t

theorem resetEntered_mainReset {why : Nat} (kept : Bool) {s : State} (hup : s.part.reset = false)
    (hboot : s.part.st ≠ .safe ∨ why = 1) : ResetEntered s.clk.cycles (mainReset why kept s) := by
  obtain ⟨hserving, hev, heng⟩ := mainStopped_mainDown kept hup
  have hpart := mainDown_part kept hup
  unfold mainReset
  extract_lets s1 s2 left s3
  have hs3 : s3.part = { (mainDown kept s).part with resetDue := s.clk.cycles + msCycles 200 } := rfl
  rw [if_neg (by simp [hup]), if_neg (by rw [hs3, hpart]; exact fun h => hboot.elim (fun hn => hn h.1) (fun hw => h.2 hw))]
  set s4 : State := { s3 with part := { s3.part with safeCause := .none, safeFromRun := false } }
  have hview := partView_enterPart .boot s4
  have hs4 : partView { s4.part with st := .boot } = ⟨.boot, .none, false, .held, true, s.clk.cycles + msCycles 200⟩ := by
    show partView { s3.part with safeCause := .none, safeFromRun := false, st := .boot } = _
    rw [hs3, hpart]
    rfl
  rw [hs4] at hview
  have hframe : Only [.part, .ev, .nut, .port] s4 (enterPart .boot s4) := keep_enterPart _ (.of_all rfl) (only_refl _ s4)
  refine ⟨congrArg PartView.reset hview, congrArg PartView.resetDue hview, congrArg PartView.st hview,
    congrArg PartView.safeCause hview, ?_, ?_, ?_⟩
  · exact (congrArg Oda.serving (hframe .oda (by decide))).trans hserving
  · rw [enterPart_up]
    exact (raiseRec_up _ _ _).trans hev
  · exact (congrArg Engine.running (hframe .eng (by decide))).trans heng

theorem ResetEntered.noteDegraded {n : Nat} {t : State} (h : ResetEntered n t) : ResetEntered n (noteDegraded t) := by
  obtain ⟨hreset, hdue, hst, hcause, hserving, hev, heng⟩ := h
  have hview := partView_noteDegraded t
  have hframe : Only [.part, .ev, .nut] t (Machine.noteDegraded t) := keep_noteDegraded (.of_all rfl) (only_refl _ t)
  exact ⟨(congrArg PartView.reset hview).trans hreset, (congrArg PartView.resetDue hview).trans hdue,
    (congrArg PartView.st hview).trans hst, (congrArg PartView.safeCause hview).trans hcause,
    (congrArg Oda.serving (hframe .oda (by decide))).trans hserving, (noteDegraded_up t).trans hev,
    (congrArg Engine.running (hframe .eng (by decide))).trans heng⟩

theorem partRestart_ends {au : Auth} (kept : Bool) {s : State} (hup : s.oda.serving = true)
    (hcheck : precheck s au Obj.partRestart.key 0 (.num 1) = 0) (hrunning : s.part.reset = false) :
    Ends (.partRestart au kept) s (ResetEntered s.clk.cycles) := by
  have hstep := writeStep_of_accepted (home := noHome) (fun _ => mainReset 1 kept) hup hcheck rfl
  refine ends_of_next (congrArg (fun u => Machine.noted (.next u)) hstep) ?_
  rw [accept_eq_eff_acceptedState]
  exact ResetEntered.noteDegraded (resetEntered_mainReset (s := acceptedState s) kept hrunning (.inr rfl))

theorem keepaliveLoss_ends (kept : Bool) {s : State} (hrun : s.clk.running = true) (hup : s.part.reset = false)
    (hst : s.part.st ≠ .safe) : Ends (.keepaliveLoss kept) s (ResetEntered s.clk.cycles) :=
  ends_of_next (congrArg Machine.noted (if_pos hrun)) (resetEntered_mainReset kept hup (.inl hst)).noteDegraded

theorem releaseMain_partView (s : State) : partView (releaseMain s).part =
    if s.part.st = .safe then partView { s.part with reset := false, resetDue := 0, boot := .puf }
    else ⟨.boot, .none, false, .puf, false, 0⟩ := by
  unfold releaseMain
  extract_lets s0 img heat s1 left s2
  have hs1 : s1.part = s.part :=
    keep_startCopy (L := [.nums, .blobs, .clk, .cardamom, .free]) (.of_all rfl) (keep_clearMeas (.of_all rfl)
      (keep_volatileReset (.of_all rfl) (only_refl _ s))) .part (by decide)
  have hs2 : s2.part = { s.part with reset := false, resetDue := 0, boot := .puf, slotTried := 0 } := by
    show ({ s1.part with reset := false, resetDue := 0, boot := .puf, slotTried := 0 } : Part) = _
    rw [hs1]
  rw [hs1]
  split
  · rw [hs2]
    rfl
  · rw [partView_enterPart]
    show partView { s2.part with safeCause := .none, safeFromRun := false, st := .boot } = _
    rw [hs2]
    rfl

theorem mainDieResetEnd_ends {s : State} (hreset : s.part.reset = true) (hdue : s.part.resetDue ≠ 0)
    (hself : (s.sq.get sSelf).st = .on) : Ends .mainDieResetEnd s (fun t => t.part.reset = false ∧ t.part.boot = .puf ∧
      t.part.st = (if s.part.st = .safe then .safe else .boot) ∧ t.part.resetDue = 0) := by
  have hexec : execMainDieResetEnd s = .next (noteDegraded (releaseMain (tickTo s.part.resetDue s))) :=
    congrArg Machine.noted (if_pos (by simp [hreset, hdue, hself]))
  refine ends_of_next hexec ?_
  obtain ⟨k, hk⟩ := tickTo_eq_with_clk s.part.resetDue s
  have hview := (partView_noteDegraded (releaseMain { s with clk := k })).trans (releaseMain_partView { s with clk := k })
  rw [hk]
  by_cases hsafe : s.part.st = .safe
  · rw [if_pos hsafe] at hview ⊢
    exact ⟨congrArg PartView.reset hview, congrArg PartView.boot hview, (congrArg PartView.st hview).trans hsafe,
      congrArg PartView.resetDue hview⟩
  · rw [if_neg hsafe] at hview ⊢
    exact ⟨congrArg PartView.reset hview, congrArg PartView.boot hview, congrArg PartView.st hview,
      congrArg PartView.resetDue hview⟩

/-! ### The service strap is asserted -/

theorem serviceStrapAsserted_ends (since : Nat) {s : State} (hrun : s.clk.running = true) (hoff : s.part.strap = false) :
    Ends (.serviceStrapAsserted since) s (fun t => t.part.strap = true ∧ t.port.svcOn = true) := by
  refine ends_of_next (if_neg (by simp [hrun, hoff])) ?_
  have hpump (u : State) : Only [.pow] u (notePump u) := keep_notePump (.of_all rfl) (only_refl _ u)
  rw [noteDegraded_part, noteDegraded_port, show (notePump _).part = _ from hpump _ .part (by decide),
    show (notePump _).port = _ from hpump _ .port (by decide)]
  exact ⟨rfl, rfl⟩

/-! ## The service strap is deasserted (R327, R400)

The requests and the caps of SERVICE are cleared first. What follows, from orders to switch off to the loss of B0, leaves
them as they are. -/

/-- The request and the cap of SERVICE for each accelerator, and its cap for the tray, are kept. -/
structure ServiceKept (s t : State) : Prop where
  request : ∀ a, (t.acc.get a).reqS = (s.acc.get a).reqS
  cap : ∀ a : Fin 8, getN t (Obj.serviceCapW a.val) = getN s (Obj.serviceCapW a.val)
  tray : getN t Obj.serviceTrayCapW = getN s Obj.serviceTrayCapW

theorem ServiceKept.refl (s : State) : ServiceKept s s := ⟨fun _ => rfl, fun _ => rfl, rfl⟩

theorem ServiceKept.trans {s t u : State} (h : ServiceKept s t) (k : ServiceKept t u) : ServiceKept s u :=
  ⟨fun a => (k.request a).trans (h.request a), fun a => (k.cap a).trans (h.cap a), k.tray.trans h.tray⟩

theorem ServiceKept.of_only {L : List Area} {s t : State} (h : Only L s t) (hacc : Area.acc ∉ L) (hnums : Area.nums ∉ L) :
    ServiceKept s t := by
  have h1 : t.acc = s.acc := h .acc hacc
  have h2 : t.nums = s.nums := h .nums hnums
  exact ⟨fun a => by rw [h1], fun a => getN_of_nums_eq h2 _, getN_of_nums_eq h2 _⟩

theorem ServiceKept.ite {s a b : State} {c : Prop} [Decidable c] (ha : ServiceKept s a) (hb : ServiceKept s b) :
    ServiceKept s (if c then a else b) := by
  split
  · exact ha
  · exact hb

theorem ServiceKept.forAll {n : Nat} {f : Fin n → State → State} (hf : ∀ j u, ServiceKept u (f j u)) (s : State) :
    ServiceKept s (forAll n f s) := forAll_keeps (fun j u hu => hu.trans (hf j u)) (.refl s)

/-- The keys of the caps of SERVICE. -/
def serviceCapKeys : List Nat := Obj.serviceTrayCapW.key :: (List.finRange 8).map (fun a => (Obj.serviceCapW a.val).key)

theorem serviceKept_setN {o : Obj} (ho : o.key ∉ serviceCapKeys) (v : Nat) (s : State) : ServiceKept s (setN s o v) := by
  have hcap (a : Fin 8) : (Obj.serviceCapW a.val).key ∈ serviceCapKeys :=
    List.mem_cons_of_mem _ (List.mem_map_of_mem (f := fun a : Fin 8 => (Obj.serviceCapW a.val).key) (List.mem_finRange a))
  exact ⟨fun _ => rfl, fun a => getN_setN_other _ _ _ _ (fun e => ho (e ▸ hcap a)),
    getN_setN_other _ _ _ _ (fun e => ho (e ▸ List.mem_cons_self))⟩

theorem serviceKept_updAcc (b : Fin 8) {f : Accel → Accel} (hf : ∀ x, (f x).reqS = x.reqS) (s : State) :
    ServiceKept s (updAcc b f s) := by
  refine ⟨fun a => ?_, fun _ => rfl, rfl⟩
  by_cases hab : b = a
  · rw [hab, updAcc_get_same, hf]
  · rw [updAcc_get_other _ _ _ _ hab]

theorem serviceKept_recomputeCaps (s : State) : ServiceKept s (recomputeCaps s) :=
  .ite (.forAll (fun a u => by
    unfold recomputeCap
    exact serviceKept_updAcc a (by exact fun _ => rfl) u) s) (.refl s)

theorem serviceKept_setSeq (q : Fin 9) (st : SeqState) (s : State) : ServiceKept s (setSeq q st s) :=
  ServiceKept.trans (.of_only (L := [.sq]) (keep_updSeq _ _ (.of_all rfl) (only_refl _ s)) (by decide) (by decide))
    (serviceKept_recomputeCaps _)

theorem inrush_keys_not_service : ∀ b : Fin 12, (Obj.peInrushJ b.val).key ∉ serviceCapKeys := by decide

theorem serviceKept_maxF32 (b : Fin 12) (v : Rat) (s : State) : ServiceKept s (maxF32 (Obj.peInrushJ b.val) v s) :=
  .ite (serviceKept_setN (inrush_keys_not_service b) _ s) (.refl s)

/-- A branch that goes OFF counts at most the energy of its inrush. -/
theorem serviceKept_moveBr_off (b : Fin 12) (gate : Gate) (s : State) : ServiceKept s (moveBr b .off gate s) := by
  unfold moveBr
  extract_lets old cy pulls
  have hinrush (u : State) : ServiceKept u (endInrush b old .off u) := .ite (serviceKept_maxF32 b _ u) (.refl u)
  refine ServiceKept.trans (.of_only (L := [.br, .sq]) ?_ (by decide) (by decide)) (hinrush _)
  exact keep_armOv _ _ (.of_all rfl) (keep_updBr _ _ (.of_all rfl) (keep_advInrush _ (.of_all rfl) (only_refl _ s)))

theorem serviceKept_updBr (b : Fin 12) (f : Branch → Branch) (s : State) : ServiceKept s (updBr b f s) :=
  ⟨fun _ => rfl, fun _ => rfl, rfl⟩

theorem serviceKept_dropDemand (a : Fin 8) (s : State) : ServiceKept s (dropDemand a s) :=
  .ite (serviceKept_moveBr_off _ _ s) (serviceKept_updBr _ _ s)

theorem serviceKept_sequencer {s t : State} (h : Only [.br, .sq, .ev, .nut, .eng] s t) : ServiceKept s t :=
  .of_only h (by decide) (by decide)

theorem serviceKept_noteSeq (q : Fin 9) (code rail : Nat) (s : State) : ServiceKept s (noteSeq q code rail s) :=
  serviceKept_sequencer (keep_noteSeq _ _ _ (.of_all rfl) (only_refl _ s))

theorem serviceKept_updSeq (q : Fin 9) (f : Seq → Seq) (s : State) : ServiceKept s (updSeq q f s) :=
  serviceKept_sequencer (keep_updSeq _ _ (.of_all rfl) (only_refl _ s))

theorem serviceKept_startList (q : Fin 9) (k : SeqList) (n : Nat) (s : State) : ServiceKept s (startList q k n s) :=
  serviceKept_sequencer (keep_startList _ _ _ (.of_all rfl) (only_refl _ s))

theorem serviceKept_raiseSeq (e : Ev) (q : Fin 9) (s : State) : ServiceKept s (raiseSeq e q s) :=
  serviceKept_sequencer (keep_raiseSeq _ _ (.of_all rfl) (only_refl _ s))

theorem serviceKept_enterOffWait (q : Fin 9) (s : State) : ServiceKept s (enterOffWait q s) :=
  (serviceKept_updSeq q _ s).trans (serviceKept_setSeq q _ _)

theorem serviceKept_offOrder (a : Fin 8) (code : Nat) (s : State) : ServiceKept s (offOrder a code s) := by
  have hdown (x : Seq) : ServiceKept s (startList (seqOf a) .down (downAt x s.clk.cycles) (updSeq (seqOf a)
      (fun y => { y with pgood := false }) (noteSeq (seqOf a) code 0xFF (setSeq (seqOf a) .down s)))) :=
    (((serviceKept_setSeq _ _ s).trans (serviceKept_noteSeq _ _ _ _)).trans (serviceKept_updSeq _ _ _)).trans
      (serviceKept_startList _ _ _ _)
  unfold offOrder
  extract_lets q x
  split
  · exact hdown x
  · exact hdown x
  · exact hdown x
  · exact ((serviceKept_dropDemand a s).trans (serviceKept_noteSeq _ _ _ _)).trans (serviceKept_enterOffWait _ _)
  · exact serviceKept_raiseSeq _ _ s
  · exact .refl s

theorem serviceKept_settleReq (a : Fin 8) (s : State) : ServiceKept s (settleReq a s) := by
  unfold settleReq
  extract_lets x s1 s2
  have hs1 : ServiceKept s s1 := by
    unfold s1
    exact serviceKept_updAcc a (by exact fun _ => rfl) s
  have hs2 : ServiceKept s s2 :=
    hs1.trans (serviceKept_sequencer (keep_raiseRye _ _ _ (.of_all rfl) (only_refl _ s1)))
  exact .ite (.refl s) (.ite hs2 (hs2.trans (serviceKept_offOrder a 16 s2)))

/-! ### The loss of B0 -/

theorem quarantine_keys_not_service : ∀ a : Fin 8, (Obj.quarantine a.val).key ∉ serviceCapKeys := by decide

theorem emergency_keys_not_service : ∀ q : Fin 9, (Obj.seqEmergencies q.val).key ∉ serviceCapKeys := by decide

theorem serviceKept_storeNum {o : Obj} (ho : o.key ∉ serviceCapKeys) (v : Nat) (s : State) : ServiceKept s (storeNum o v s) := by
  have hcap (a : Fin 8) : (Obj.serviceCapW a.val).key ∈ serviceCapKeys :=
    List.mem_cons_of_mem _ (List.mem_map_of_mem (f := fun a : Fin 8 => (Obj.serviceCapW a.val).key) (List.mem_finRange a))
  exact ⟨fun a => by rw [storeNum_acc], fun a => getN_storeNum_other _ _ (fun e => ho (e ▸ hcap a)),
    getN_storeNum_other _ _ (fun e => ho (e ▸ List.mem_cons_self))⟩

theorem serviceKept_countFault (a : Fin 8) (s : State) : ServiceKept s (countFault a s) := by
  unfold countFault
  extract_lets x cy n fs s1
  have hs1 : ServiceKept s s1 := by
    unfold s1
    exact serviceKept_updAcc a (by exact fun _ => rfl) s
  refine .ite (.refl s) (.ite ?_ hs1)
  refine ((hs1.trans ?_).trans (serviceKept_storeNum (quarantine_keys_not_service a) 1 _)).trans
    (serviceKept_sequencer (keep_raiseRye _ _ _ (.of_all rfl) (only_refl _ _)))
  exact serviceKept_updAcc a (by exact fun _ => rfl) s1

theorem serviceKept_countCode (q : Fin 9) (code : Nat) (s : State) : ServiceKept s (countCode q code s) := by
  unfold countCode
  split
  · exact .ite (serviceKept_countFault _ s) (.refl s)
  · exact .refl s

theorem serviceKept_startEmergency (q : Fin 9) (code rail : Nat) (s : State) : ServiceKept s (startEmergency q code rail s) := by
  have hlist : ServiceKept s (startList q .emergency s.clk.cycles (updSeq q (fun x => { x with pgood := false })
      (noteSeq q code rail (setSeq q .emergency s)))) :=
    (((serviceKept_setSeq _ _ s).trans (serviceKept_noteSeq _ _ _ _)).trans (serviceKept_updSeq _ _ _)).trans
      (serviceKept_startList _ _ _ _)
  exact (((hlist.trans (serviceKept_setN (emergency_keys_not_service q) _ _)).trans (serviceKept_raiseSeq _ _ _)).trans
    (serviceKept_sequencer (keep_ringTrigger 3 (.of_all rfl) (only_refl _ _)))).trans (serviceKept_countCode _ _ _)

theorem serviceKept_undoEnd (a : Fin 8) (s : State) : ServiceKept s (undoEnd a s) :=
  serviceKept_sequencer (keep_undoEnd a (.of_all rfl) (only_refl _ s))

theorem serviceKept_trigger (a : Fin 8) (code rail : Nat) (s : State) : ServiceKept s (trigger a code rail s) := by
  unfold trigger
  extract_lets q x s1
  have hs1 : ServiceKept s s1 := (serviceKept_noteSeq _ _ _ s).trans (serviceKept_raiseSeq _ _ _)
  refine .ite (serviceKept_startEmergency _ _ _ s) (.ite ((serviceKept_undoEnd a s).trans (serviceKept_startEmergency _ _ _ _))
    (.ite ?_ (.ite (.ite hs1 (hs1.trans (serviceKept_countCode _ _ s1))) (serviceKept_raiseSeq _ _ s))))
  exact (((serviceKept_dropDemand a s).trans (serviceKept_noteSeq _ _ _ _)).trans (serviceKept_enterOffWait _ _)).trans
    (serviceKept_countCode _ _ _)

theorem serviceKept_b0Lost (s : State) : ServiceKept s (b0Lost s) := by
  unfold b0Lost
  extract_lets s1 open1 s2
  have hs1 : ServiceKept s s1 := .forAll (fun a u => serviceKept_trigger a 9 0xFF u) s
  have hs2 : ServiceKept s s2 := hs1.trans (.forAll (fun b u => .ite (.refl u) (.ite (serviceKept_moveBr_off b _ u)
    (serviceKept_updBr b _ u))) s1)
  have hraised : ServiceKept s (raiseBr .b0Off 0 s2) :=
    hs2.trans (serviceKept_sequencer (keep_raiseBr _ _ (.of_all rfl) (only_refl _ s2)))
  exact forEach_keeps (fun b u hu => hu.trans (serviceKept_updBr b _ u)) hraised

theorem enterBr_tray (st : BrState) (gate : Gate) (s : State) :
    enterBr 0 st gate s = afterB0 (s.br.get 0).st st (moveBr 0 st gate s) := by
  have hnone : accelOfBranch 0 = none := by decide
  unfold enterBr seqAfterBr
  rw [hnone, if_pos rfl]

theorem serviceKept_openBlocked (s : State) : ServiceKept s (openBlocked s) := by
  have hmoved := serviceKept_moveBr_off 0 .pd100mA s
  refine .ite ?_ (.refl s)
  rw [enterBr_tray, afterB0, if_neg (by decide)]
  exact .ite (hmoved.trans (serviceKept_b0Lost _)) hmoved

/-! ### SERVICE is off -/

/-- No session of SERVICE is left, and it has no request and no cap. -/
structure ServiceOff (s : State) : Prop where
  sessions : ∀ p ∈ s.oda.sessions, p.2.auth ≠ .service
  request : ∀ a, (s.acc.get a).reqS = .none
  cap : ∀ a : Fin 8, getN s (Obj.serviceCapW a.val) = 0
  tray : getN s Obj.serviceTrayCapW = 0

theorem ServiceOff.of_kept {s t : State} (h : ServiceOff s) (hoda : t.oda = s.oda) (hkept : ServiceKept s t) : ServiceOff t :=
  ⟨by rw [hoda]; exact h.sessions, fun a => (hkept.request a).trans (h.request a), fun a => (hkept.cap a).trans (h.cap a),
    hkept.tray.trans h.tray⟩

theorem mem_del {α : Type} {m : Map α} {k : Nat} {p : Nat × α} (h : p ∈ del m k) : p ∈ m ∧ p.1 ≠ k := by
  induction m with
  | nil => simp [del] at h
  | cons q t ih =>
    obtain ⟨j, v⟩ := q
    by_cases hj : j = k
    · rw [del, if_pos hj] at h
      exact ⟨List.mem_cons_of_mem _ (ih h).1, (ih h).2⟩
    · rw [del, if_neg hj, List.mem_cons] at h
      rcases h with rfl | h
      · exact ⟨List.mem_cons_self, hj⟩
      · exact ⟨List.mem_cons_of_mem _ (ih h).1, (ih h).2⟩

theorem look_isSome_of_mem {α : Type} {m : Map α} {p : Nat × α} (h : p ∈ m) : (look m p.1).isSome = true := by
  induction m with
  | nil => cases h
  | cons q t ih =>
    obtain ⟨j, v⟩ := q
    by_cases hj : j = p.1
    · rw [look, if_pos hj]
      rfl
    · rw [look, if_neg hj]
      rcases List.mem_cons.mp h with rfl | h
      · exact absurd rfl hj
      · exact ih h

/-- A session that is closed is in the list no more, and no other session comes into it. -/
theorem mem_closeSession {n : Nat} {s : State} {p : Nat × Session} (h : p ∈ (closeSession n s).oda.sessions) :
    p ∈ s.oda.sessions ∧ p.1 ≠ n := by
  unfold closeSession at h
  split at h
  · exact mem_del h
  · next hlook =>
    refine ⟨h, fun e => ?_⟩
    have hsome := look_isSome_of_mem h
    rw [e, hlook] at hsome
    cases hsome

theorem mem_forEach_closeSession {ns : List Nat} {s : State} {p : Nat × Session}
    (h : p ∈ (forEach ns closeSession s).oda.sessions) : p ∈ s.oda.sessions ∧ p.1 ∉ ns := by
  induction ns generalizing s with
  | nil => exact ⟨h, List.not_mem_nil⟩
  | cons n t ih =>
    obtain ⟨hmem, hnot⟩ := ih (s := closeSession n s) h
    obtain ⟨hfirst, hne⟩ := mem_closeSession hmem
    exact ⟨hfirst, List.not_mem_cons_of_ne_of_not_mem hne hnot⟩

theorem mem_closeWhere {f : Session → Bool} {s : State} {p : Nat × Session} (h : p ∈ (closeWhere f s).oda.sessions) :
    f p.2 = false := by
  obtain ⟨hmem, hnot⟩ := mem_forEach_closeSession h
  by_contra hf
  exact hnot (List.mem_map.mpr ⟨p, List.mem_filter.mpr ⟨hmem, by simpa using hf⟩, rfl⟩)

/-- The request and the cap of SERVICE for one accelerator are cleared. -/
def clearService (a : Fin 8) (s : State) : State :=
  setN (updAcc a (fun x => { x with reqS := .none }) s) (Obj.serviceCapW a.val) 0

theorem forAll_clearService (a : Fin 8) (s : State) : ((forAll 8 clearService s).acc.get a).reqS = .none ∧
    getN (forAll 8 clearService s) (Obj.serviceCapW a.val) = 0 := by
  refine forAll_at (P := fun _ => True) (Q := fun u => (u.acc.get a).reqS = .none ∧ getN u (Obj.serviceCapW a.val) = 0) a
    (fun _ _ _ _ => trivial) (fun u _ => ?_) (fun j hj u ⟨hreq, hcap⟩ => ?_) trivial
  · exact ⟨congrArg Accel.reqS (updAcc_get_same a _ u), getN_setN_same _ _ _⟩
  · have hval : j.val ≠ a.val := fun e => hj (Fin.ext e)
    refine ⟨(congrArg Accel.reqS (updAcc_get_other j _ a u hj)).trans hreq, (getN_setN_other _ _ _ _ ?_).trans hcap⟩
    simp only [Obj.serviceCapW]
    omega

theorem only_clearService (a : Fin 8) {s u : State} (h : Only [.acc, .nums] s u) : Only [.acc, .nums] s (clearService a u) :=
  keep_setN _ _ (.of_all rfl) (keep_updAcc _ _ (.of_all rfl) h)

theorem serviceOff_off (s : State) : ServiceOff (serviceOff s) := by
  set s1 := closeWhere (fun x => x.auth == .service) s with hs1
  set s2 := forAll 8 clearService s1 with hs2
  set s3 := setN s2 Obj.serviceTrayCapW 0 with hs3
  have hframe : Only [.acc, .nums] s1 s3 :=
    keep_setN _ _ (.of_all rfl) (only_forAll 8 clearService (fun a u hu => only_clearService a hu) (only_refl _ s1))
  have hoff : ServiceOff s3 := by
    refine ⟨fun p hp => ?_, fun a => (forAll_clearService a s1).1, fun a => ?_, getN_setN_same _ _ _⟩
    · rw [show s3.oda = s1.oda from hframe .oda (by decide)] at hp
      simpa using mem_closeWhere hp
    · rw [hs3, getN_setN_other _ _ _ _ (by simp only [Obj.serviceCapW, Obj.serviceTrayCapW]; omega)]
      exact (forAll_clearService a s1).2
  have hlast : ServiceKept s3 (recomputeCaps (forAll 8 settleReq s3)) :=
    (ServiceKept.forAll serviceKept_settleReq s3).trans (serviceKept_recomputeCaps _)
  have hoda : Only [.nums, .br, .sq, .acc, .ev, .nut, .eng] s3 (recomputeCaps (forAll 8 settleReq s3)) :=
    keep_recomputeCaps (.of_all rfl) (only_forAll 8 settleReq (fun a u hu => keep_settleReq a (.of_all rfl) hu) (only_refl _ s3))
  exact hoff.of_kept (hoda .oda (by decide)) hlast

theorem serviceStrapDeasserted_ends (since : Nat) {s : State} (hon : s.part.strap = true) :
    Ends (.serviceStrapDeasserted since) s (fun t => t.part.strap = false ∧ t.port.svcOn = false ∧ ServiceOff t) := by
  refine ends_of_next (if_neg (by simp [hon])) ?_
  set s0 : State := { stands since (msCycles 10) s with
    part := { (stands since (msCycles 10) s).part with strap := false }
    port := { (stands since (msCycles 10) s).port with svcOn := false, svcUp := false } }
  have hframe : Only [.nums, .pow, .br, .sq, .acc, .ev, .nut, .oda, .eng] s0 (notePump (openBlocked (serviceOff s0))) :=
    keep_notePump (.of_all rfl) (keep_openBlocked (.of_all rfl) (keep_serviceOff (.of_all rfl) (only_refl _ s0)))
  have hlast : Only [.nums, .pow, .br, .sq, .acc, .ev, .nut, .eng, .part] (serviceOff s0)
      (noteDegraded (notePump (openBlocked (serviceOff s0)))) :=
    keep_noteDegraded (.of_all rfl) (keep_notePump (.of_all rfl) (keep_openBlocked (.of_all rfl) (only_refl _ _)))
  have hkept : ServiceKept (serviceOff s0) (noteDegraded (notePump (openBlocked (serviceOff s0)))) :=
    (serviceKept_openBlocked _).trans (.of_only (L := [.pow, .part, .ev, .nut])
      (keep_noteDegraded (.of_all rfl) (keep_notePump (.of_all rfl) (only_refl _ _))) (by decide) (by decide))
  refine ⟨?_, ?_, (serviceOff_off s0).of_kept (hlast .oda (by decide)) hkept⟩
  · rw [noteDegraded_part, show (notePump (openBlocked (serviceOff s0))).part = s0.part from hframe .part (by decide)]
  · rw [noteDegraded_port, show (notePump (openBlocked (serviceOff s0))).port = s0.port from hframe .port (by decide)]

/-- Settles O10: by the view of the part that each transition sets, and by what the end of SERVICE clears. -/
theorem partStatesAndRestarts : Obligations.PartStatesAndRestarts := by
  unfold Obligations.PartStatesAndRestarts
  refine ⟨fun s h => wardenSafe_ends h, fun s hst hcause hup => ?_, fun au kept s hup hcheck hrunning => ?_,
    fun kept s hrun hup hst => ?_, fun s hreset hdue hself _ => mainDieResetEnd_ends hreset hdue hself,
    fun since s hrun hoff => serviceStrapAsserted_ends since hrun hoff, fun since s hon => ?_⟩
  · exact ends_mono (wardenRelease_ends hst hcause hup) fun t hview => ⟨congrArg PartView.st hview,
      congrArg PartView.safeCause hview, congrArg PartView.safeFromRun hview, congrArg PartView.boot hview⟩
  · exact ends_mono (partRestart_ends kept hup hcheck hrunning) fun t ⟨hreset, hdue, hst, hcause, hserving, hev, _⟩ =>
      ⟨hreset, hdue, hst, hcause, hserving, hev⟩
  · exact ends_mono (keepaliveLoss_ends kept hrun hup hst) fun t ⟨hreset, hdue, hst, _, hserving, hev, heng⟩ =>
      ⟨hreset, hdue, hst, hserving, hev, heng⟩
  · exact ends_mono (serviceStrapDeasserted_ends since hon) fun t ⟨hstrap, hport, hoff⟩ =>
      ⟨hstrap, hport, hoff.sessions, fun a => ⟨hoff.request a, hoff.cap a⟩, hoff.tray⟩

/-! ## Session setup and its end (R471, R472, R475) -/

/-- The fragments kept of a setup message. -/
def keepFragment (id : Nat) (y : Setup) (s : State) : State := setOda (fun o => { o with setups := put o.setups id y }) s

/-- The message of a setup, from its fragments. -/
def setupBytes (y : Setup) : List Byte := (y.parts.map (·.2)).flatten

/-- What holds when a new fragment arrives on the open service port: `parts` came before it. -/
structure NewFragment (id frag frags : Nat) (data : List Byte) (parts : Map (List Byte)) (s : State) : Prop where
  serving : s.oda.serving = true
  opened : portOpen s 2 = true
  nonempty : data ≠ []
  fits : data.length ≤ 1384
  fragments_le : frags ≤ 16
  fragment_lt : frag < frags
  kept : lookD s.oda.setups id ⟨frags, []⟩ = ⟨frags, parts⟩
  new : look parts frag = none

theorem execSetupInit_of_new {id frag frags : Nat} {data : List Byte} {parts : Map (List Byte)} {s : State}
    (h : NewFragment id frag frags data parts s) (cs : List Cert) (r : Root) :
    execSetupInit 2 id frag frags data cs r s = if (put parts frag data).length < frags then
        .next (keepFragment id ⟨frags, put parts frag data⟩ s)
      else .next (beginSetup 2 id (setupBytes ⟨frags, put parts frag data⟩) cs r (keepFragment id ⟨frags, put parts frag data⟩ s)) := by
  obtain ⟨hserving, hopen, hsome, hlength, hfrags, hfrag, hkept, hnew⟩ := h
  unfold execSetupInit
  rw [if_neg (by simp [hserving, hopen]), if_neg (by simp only [hsome, false_or]; omega), hkept]
  dsimp only
  rw [if_neg (by simp), hnew]
  rfl

theorem setupInit_kept {id frag frags : Nat} {data : List Byte} {parts : Map (List Byte)} {s : State}
    (h : NewFragment id frag frags data parts s) (cs : List Cert) (r : Root) (hmissing : (put parts frag data).length < frags) :
    Ends (.setupInit 2 id frag frags data cs r) s (fun t => look t.oda.setups id = some ⟨frags, put parts frag data⟩ ∧
      t.oda.sessions = s.oda.sessions ∧ t.port = s.port ∧ t.nums = s.nums ∧ t.oda.peers = s.oda.peers) := by
  refine ends_of_next ((execSetupInit_of_new h cs r).trans (if_pos hmissing)) ⟨look_put_same _ _ _, rfl, rfl, rfl, rfl⟩

theorem setupInit_begins {id frag frags : Nat} {data : List Byte} {parts : Map (List Byte)} {s : State} {cs : List Cert} {r : Root}
    {P : State → Prop} (h : NewFragment id frag frags data parts s) (hall : frags ≤ (put parts frag data).length)
    (hP : P (beginSetup 2 id (setupBytes ⟨frags, put parts frag data⟩) cs r (keepFragment id ⟨frags, put parts frag data⟩ s))) :
    Ends (.setupInit 2 id frag frags data cs r) s P :=
  ends_of_next ((execSetupInit_of_new h cs r).trans (if_neg (Nat.not_lt.mpr hall))) hP

/-! ### The whole message -/

/-- The number of the next session. -/
def nextSession (s : State) : Nat := s.oda.nextSess % (two32 - 1) + 1

/-- The session that SETUP_REPLY leaves pending. -/
def pendingSession (p : Fin 3) (id : Nat) (ders : List (List Byte)) (cs : List Cert) (r : Root) (s : State) : Session where
  pending := true
  setupId := id
  peer := certDigest (ders.headD [])
  place := 0
  auth := leafAuth cs
  port := p.val
  redundant := false
  timeUnchecked := s.clk.state != .locked
  root := r
  chain := ders.map certDigest
  outstanding := 0
  lastRx := s.clk.cycles
  txSeq := 0
  rxHigh := 0
  rxSeen := []
  due := s.clk.cycles + sCycles 2
  subs := []
  blocks := []
  quote := none
  macsecReqs := 0
  ss := []
  h2 := []
  keyPd := []
  keyDp := []
  saltPd := []
  saltDp := []

/-- The state in which the next session is pending. -/
def sessionPending (p : Fin 3) (id : Nat) (init : List Byte) (ders : List (List Byte)) (cs : List Cert) (r : Root) (s : State) : State :=
  setOda (fun o => { o with
    nextSess := nextSession s
    sessions := put o.sessions (nextSession s) (agreeKeys init (formReply init (nextSession s) s).1.1
      (formReply init (nextSession s) s).1.2 (pendingSession p id ders cs r s)) }) (formReply init (nextSession s) s).2

theorem replySetup_eq (p : Fin 3) (id : Nat) (init : List Byte) (ders : List (List Byte)) (cs : List Cert) (r : Root) (s : State) :
    replySetup p id init ders cs r s = sendPort p 4 (.setupReply (nextSession s) id (formReply init (nextSession s) s).1.1)
      (sessionPending p id init ders cs r s) := rfl

theorem sendSvc_of_up {s : State} (h : s.port.svcUp = true) (cls : Nat) (m : Msg) :
    sendPort 2 cls m s = { s with port := { s.port with svcLine := s.port.svcLine ++ [(cls, m)] } } := if_pos h

theorem setupInit_replies {id frag frags : Nat} {data : List Byte} {parts : Map (List Byte)} {ders : List (List Byte)} {s : State}
    {cs : List Cert} {r : Root} (h : NewFragment id frag frags data parts s) (hall : frags ≤ (put parts frag data).length)
    (hders : parseInit (setupBytes ⟨frags, put parts frag data⟩) = some ders) (hchain : chainStatus s 2 ders cs r = 0)
    (hroom : s.oda.sessions.length < 32) :
    Ends (.setupInit 2 id frag frags data cs r) s (fun t =>
      (look t.oda.sessions (nextSession s)).map (fun x => (x.pending, x.setupId, x.auth, x.port, x.due)) =
        some (true, id, leafAuth cs, 2, s.clk.cycles + sCycles 2) ∧
      t.port.svcLine = s.port.svcLine ++ [(4, .setupReply (nextSession s) id
        (formReply (setupBytes ⟨frags, put parts frag data⟩) (nextSession s) s).1.1)] ∧
      t.oda.nextSess = nextSession s ∧ t.nums = s.nums ∧ t.oda.peers = s.oda.peers) := by
  refine setupInit_begins h hall ?_
  set bs := setupBytes ⟨frags, put parts frag data⟩
  set s1 := keepFragment id ⟨frags, put parts frag data⟩ s with hs1
  have hbegin : beginSetup 2 id bs cs r s1 = replySetup 2 id bs ders cs r s1 := by
    have hchain1 : chainStatus s1 2 ders cs r = 0 := hchain
    have hroom1 : ¬ 32 ≤ s1.oda.sessions.length := Nat.not_le.mpr hroom
    unfold beginSetup
    rw [hders]
    dsimp only
    rw [if_neg (not_not_intro hchain1), if_neg hroom1]
  have hup : (sessionPending 2 id bs ders cs r s1).port.svcUp = true := h.opened
  have hlook : look (sessionPending 2 id bs ders cs r s1).oda.sessions (nextSession s1) =
      some (agreeKeys bs _ _ (pendingSession 2 id ders cs r s1)) := look_put_same _ _ _
  rw [hbegin, replySetup_eq, sendSvc_of_up hup]
  refine ⟨?_, rfl, rfl, rfl, rfl⟩
  show (look (sessionPending 2 id bs ders cs r s1).oda.sessions (nextSession s1)).map _ = _
  rw [hlook]
  rfl

theorem setupFails_eq {s : State} (hup : s.port.svcUp = true) (code : Nat) : setupFails 2 code s =
    { inc32 s Obj.setupFailures with port := { s.port with svcLine := s.port.svcLine ++ [(4, .setupAbort code)] } } :=
  sendSvc_of_up (s := inc32 s Obj.setupFailures) hup 4 _

theorem setupInit_fails {id frag frags : Nat} {data : List Byte} {parts : Map (List Byte)} {ders : List (List Byte)} {s : State}
    {cs : List Cert} {r : Root} (h : NewFragment id frag frags data parts s) (hall : frags ≤ (put parts frag data).length)
    (hders : parseInit (setupBytes ⟨frags, put parts frag data⟩) = some ders) (hchain : chainStatus s 2 ders cs r ≠ 0) :
    Ends (.setupInit 2 id frag frags data cs r) s (fun t => t.oda.sessions = s.oda.sessions ∧
      t.port.svcLine = s.port.svcLine ++ [(4, .setupAbort (chainStatus s 2 ders cs r))] ∧
      t.nums = (inc32 s Obj.setupFailures).nums ∧ look t.oda.setups id = none) := by
  refine setupInit_begins h hall ?_
  set bs := setupBytes ⟨frags, put parts frag data⟩
  set s1 := keepFragment id ⟨frags, put parts frag data⟩ s
  have hbegin : beginSetup 2 id bs cs r s1 = setupFails 2 (chainStatus s 2 ders cs r)
      (setOda (fun o => { o with setups := del o.setups id }) s1) := by
    have hchain1 : chainStatus s1 2 ders cs r ≠ 0 := hchain
    unfold beginSetup
    rw [hders]
    dsimp only
    rw [if_pos hchain1]
    rfl
  rw [hbegin, setupFails_eq (s := setOda (fun o => { o with setups := del o.setups id }) s1) h.opened]
  exact ⟨rfl, rfl, rfl, look_del_same _ _⟩

/-! ### SETUP_FINISH -/

theorem setupFinish_bad {n id : Nat} {x : Session} {s : State} (hup : s.oda.serving = true) (hopen : portOpen s 2 = true)
    (hx : look s.oda.sessions n = some x) (hpending : x.pending = true) (hid : x.setupId = id) :
    Ends (.setupFinish n 2 id false) s (fun t => t.oda.sessions = s.oda.sessions ∧ t.oda.peers = s.oda.peers ∧
      t.port.svcLine = s.port.svcLine ++ [(4, .setupAbort 0x00091602)] ∧ t.nums = (inc32 s Obj.setupFailures).nums) := by
  have hexec : execSetupFinish n 2 id false s = .next (setupFails 2 0x00091602 s) := by
    unfold execSetupFinish
    rw [if_neg (by simp [hup, hopen]), hx]
    dsimp only
    rw [if_neg (by simp [hpending, hid]), if_pos (by decide)]
  refine ends_of_next hexec ?_
  rw [setupFails_eq hopen]
  exact ⟨rfl, rfl, rfl, rfl⟩

/-- A session opened for a peer at a place, on a port. -/
def opened (k port n : Nat) (x : Session) : Session := { x with pending := false, place := k, port := port, lastRx := n, txSeq := 1 }

/-- A session with a message received at n, idle from then to `due`. -/
def touched (n due : Nat) (x : Session) : Session := { x with lastRx := n, due := due }

theorem look_takePlace (k : Nat) (id : List Byte) (au : Auth) (s : State) :
    (look (takePlace k id au s).oda.peers k).map (fun p => (p.id, p.auth)) = some (id, au) := by
  unfold takePlace
  extract_lets fresh p
  show (look (put s.oda.peers k p) k).map _ = _
  have hp : (p.id, p.auth) = (id, au) := by
    unfold p
    split
    · split
      · next h => exact Prod.ext h rfl
      · rfl
    · rfl
  rw [look_put_same, Option.map_some, hp]

theorem updSession_of_some {n : Nat} {f : Session → Session} {x : Session} {s : State} (h : look s.oda.sessions n = some x) :
    updSession n f s = setOda (fun o => { o with sessions := put o.sessions n (f x) }) s := by
  unfold updSession
  rw [h]

theorem execSetupFinish_of_good {n id : Nat} {x : Session} {s : State} (hup : s.oda.serving = true) (hopen : portOpen s 2 = true)
    (hx : look s.oda.sessions n = some x) (hpending : x.pending = true) (hid : x.setupId = id) (hport : authOnPort s 2 x.auth = true) :
    execSetupFinish n 2 id true s = .next (touch n (sendPort 2 4 (.setupDone n x.auth)
      (updSession n (opened (placeFor s x.peer) 2 s.clk.cycles) (takePlace (placeFor s x.peer) x.peer x.auth s)))) := by
  unfold execSetupFinish
  rw [if_neg (by simp [hup, hopen]), hx]
  dsimp only
  rw [if_neg (by simp [hpending, hid]), if_neg (by simp), if_neg (by simp [hport])]
  rfl

theorem setupFinish_opens {n id : Nat} {x : Session} {s : State} (hup : s.oda.serving = true) (hopen : portOpen s 2 = true)
    (hx : look s.oda.sessions n = some x) (hpending : x.pending = true) (hid : x.setupId = id) (hport : authOnPort s 2 x.auth = true) :
    Ends (.setupFinish n 2 id true) s (fun t =>
      (odaSession t n).map (fun y => (y.auth, y.peer, y.place, y.port, y.lastRx, y.due)) =
        some (x.auth, x.peer, placeFor s x.peer, 2, s.clk.cycles, idleDue s) ∧
      (look t.oda.peers (placeFor s x.peer)).map (fun p => (p.id, p.auth)) = some (x.peer, x.auth) ∧
      t.port.svcLine = s.port.svcLine ++ [(4, .setupDone n x.auth)] ∧ t.nums = s.nums) := by
  refine ends_of_next (execSetupFinish_of_good hup hopen hx hpending hid hport) ?_
  set k := placeFor s x.peer
  have hpeers := look_takePlace k x.peer x.auth s
  have htake : ∃ ps, takePlace k x.peer x.auth s = setOda (fun o => { o with peers := ps }) s := ⟨_, rfl⟩
  obtain ⟨ps, hs1⟩ := htake
  rw [hs1] at hpeers ⊢
  set s1 := setOda (fun o => { o with peers := ps }) s
  set s2 := updSession n (opened k 2 s.clk.cycles) s1 with hs2
  have hs2 : s2 = setOda (fun o => { o with sessions := put o.sessions n (opened k 2 s.clk.cycles x) }) s1 :=
    updSession_of_some (s := s1) hx
  have hup2 : s2.port.svcUp = true := by rw [hs2]; exact hopen
  rw [sendSvc_of_up hup2]
  set s3 : State := { s2 with port := { s2.port with svcLine := s2.port.svcLine ++ [(4, .setupDone n x.auth)] } }
  have hlook : look s3.oda.sessions n = some (opened k 2 s.clk.cycles x) := by
    show look s2.oda.sessions n = _
    rw [hs2]
    exact look_put_same _ _ _
  set y := touched s3.clk.cycles (idleDue s3) (opened k 2 s.clk.cycles x)
  have htouch : touch n s3 = setOda (fun o => { o with sessions := put o.sessions n y }) s3 := updSession_of_some hlook
  have hodaSession : odaSession (touch n s3) n = some y := by
    unfold odaSession
    rw [htouch]
    show (match look (put s3.oda.sessions n _) n with | some x => if x.pending then none else some x | none => none) = _
    rw [look_put_same]
    rfl
  have hstate : s3.clk = s.clk ∧ s3.nums = s.nums ∧ s3.oda.peers = ps ∧ s3.port.svcLine = s.port.svcLine ++ [(4, .setupDone n x.auth)] := by
    show s2.clk = s.clk ∧ s2.nums = s.nums ∧ s2.oda.peers = ps ∧ s2.port.svcLine ++ _ = _
    rw [hs2]
    exact ⟨rfl, rfl, rfl, rfl⟩
  obtain ⟨hclk, hnums, hps, hline⟩ := hstate
  have hidle : idleDue s3 = idleDue s := by rw [idleDue, hclk, getN_of_nums_eq hnums, idleDue]
  have hy : y = touched s.clk.cycles (idleDue s) (opened k 2 s.clk.cycles x) := by
    unfold y
    rw [hclk, hidle]
  rw [hodaSession, htouch, hy]
  exact ⟨rfl, by rw [← hpeers]; exact congrArg (fun m => (look m k).map (fun p : Peer => (p.id, p.auth))) hps, hline, hnums⟩

/-! ### The ends of a session -/

theorem closeSession_of_some {n : Nat} {x : Session} {s : State} (h : look s.oda.sessions n = some x) : closeSession n s =
    setOda (fun o => { o with sessions := del o.sessions n, setups := del o.setups x.setupId }) s := by
  unfold closeSession
  rw [h]

/-- The session with number n is gone, and the others are as they were. -/
theorem closeSession_closes {n : Nat} {x : Session} {s : State} (h : look s.oda.sessions n = some x) {j : Nat} (hj : j ≠ n) :
    look (closeSession n s).oda.sessions n = none ∧ look (closeSession n s).oda.sessions j = look s.oda.sessions j ∧
    (closeSession n s).oda.waiting = s.oda.waiting ∧ (closeSession n s).nums = s.nums ∧
    (closeSession n s).oda.peers = s.oda.peers ∧ (closeSession n s).clk = s.clk := by
  rw [closeSession_of_some h]
  exact ⟨look_del_same _ _, look_del_other _ _ _ hj.symm, rfl, rfl, rfl, rfl⟩

theorem look_of_odaSession {n : Nat} {x : Session} {s : State} (h : odaSession s n = some x) :
    look s.oda.sessions n = some x := by
  unfold odaSession at h
  split at h
  · next y hy =>
    split at h
    · cases h
    · rw [hy, h]
  · cases h

theorem sessionClose_ends {n j : Nat} {x : Session} {s : State} (hup : s.oda.serving = true) (hx : odaSession s n = some x)
    (hj : j ≠ n) : Ends (.sessionClose n) s (fun t => look t.oda.sessions n = none ∧
      look t.oda.sessions j = look s.oda.sessions j ∧ t.oda.waiting = s.oda.waiting ∧ t.nums = s.nums ∧ t.oda.peers = s.oda.peers) := by
  refine ends_of_next (if_pos (by simp [hup, hx])) ?_
  obtain ⟨hgone, hother, hwaiting, hnums, hpeers, -⟩ := closeSession_closes (look_of_odaSession hx) hj
  exact ⟨hgone, hother, hwaiting, hnums, hpeers⟩

/-- A session that is closed at a deadline. -/
theorem closeSession_tickTo {n j due : Nat} {x : Session} {s : State} (hx : look s.oda.sessions n = some x) (hj : j ≠ n) :
    look (closeSession n (tickTo due s)).oda.sessions n = none ∧
    look (closeSession n (tickTo due s)).oda.sessions j = look s.oda.sessions j ∧
    (closeSession n (tickTo due s)).clk = (tickTo due s).clk ∧ (closeSession n (tickTo due s)).nums = s.nums ∧
    (closeSession n (tickTo due s)).oda.peers = s.oda.peers := by
  obtain ⟨k, hk⟩ := tickTo_eq_with_clk due s
  rw [hk]
  obtain ⟨hgone, hother, -, hnums, hpeers, hclk⟩ := closeSession_closes (s := { s with clk := k }) hx hj
  exact ⟨hgone, hother, hclk, hnums, hpeers⟩

theorem setupTimeout_ends {n j : Nat} {x : Session} {s : State} (hx : look s.oda.sessions n = some x) (hpending : x.pending = true)
    (hj : j ≠ n) : Ends (.setupTimeout n) s (fun t => look t.oda.sessions n = none ∧
      look t.oda.sessions j = look s.oda.sessions j ∧ t.clk = (tickTo x.due s).clk ∧ t.nums = s.nums ∧ t.oda.peers = s.oda.peers) := by
  have hexec : execSetupTimeout n s = .next (closeSession n (tickTo x.due s)) := by
    unfold execSetupTimeout
    rw [hx]
    exact if_pos hpending
  exact ends_of_next hexec (closeSession_tickTo hx hj)

theorem sessionIdleTimeout_ends {n j : Nat} {x : Session} {s : State} (hx : odaSession s n = some x) (hj : j ≠ n) :
    Ends (.sessionIdleTimeout n) s (fun t => look t.oda.sessions n = none ∧ look t.oda.sessions j = look s.oda.sessions j ∧
      t.clk = (tickTo (x.lastRx + sCycles (getN s Obj.sessionIdleS)) s).clk ∧ t.nums = s.nums ∧ t.oda.peers = s.oda.peers) := by
  have hexec : execSessionIdleTimeout n s =
      .next (closeSession n (tickTo (x.lastRx + sCycles (getN s Obj.sessionIdleS)) s)) := by
    unfold execSessionIdleTimeout
    rw [hx]
  exact ends_of_next hexec (closeSession_tickTo (look_of_odaSession hx) hj)

/-- Settles O41: a setup runs from its fragments to a reply or a failure, and each end closes one session. -/
theorem sessionSetupAndEnd : Obligations.SessionSetupAndEnd := by
  unfold Obligations.SessionSetupAndEnd
  refine ⟨fun id frag frags data cs r parts s h1 h2 h3 h4 h5 h6 h7 h8 => setupInit_kept ⟨h1, h2, h3, h4, h5, h6, h7, h8⟩ cs r,
    fun id frag frags data cs r parts ders s h1 h2 h3 h4 h5 h6 h7 h8 hall hders hchain hroom =>
      setupInit_replies ⟨h1, h2, h3, h4, h5, h6, h7, h8⟩ hall hders hchain hroom,
    fun id frag frags data cs r parts ders s h1 h2 h3 h4 h5 h6 h7 h8 hall hders hchain =>
      setupInit_fails ⟨h1, h2, h3, h4, h5, h6, h7, h8⟩ hall hders hchain,
    fun n id x s hup hopen hx hpending hid hport => setupFinish_opens hup hopen hx hpending hid hport,
    fun n id x s hup hopen hx hpending hid => setupFinish_bad hup hopen hx hpending hid,
    fun n j x s hup hx hj => sessionClose_ends hup hx hj,
    fun n j x s hx hpending hj => setupTimeout_ends hx hpending hj, fun n j x s hx hj => sessionIdleTimeout_ends hx hj⟩

/-! ## Requests and answers of the dictionary (R356, R357)

A request that passes the checks of its message goes on in a state that has counted it and noted its session as alive. An
answer leaves by its session's port. Both change of the dictionary the sessions, the count of requests and the last answer. -/

/-- The dictionary without its sessions and setups. -/
def besideSessions (o : Oda) : Oda := { o with sessions := [], setups := [] }

theorem updSession_oda (n : Nat) (f : Session → Session) (s : State) : besideSessions (updSession n f s).oda = besideSessions s.oda := by
  unfold updSession
  split <;> rfl

/-- A message to a session leaves the dictionary but for the session's message number. -/
theorem sendSession_oda (n cls : Nat) (m : Msg) (s : State) : besideSessions (sendSession n cls m s).oda = besideSessions s.oda := by
  have hnext : besideSessions (nextSeq n s).oda = besideSessions s.oda := by
    unfold nextSeq
    split
    · rfl
    · split <;> rfl
  have hsvc (u : State) : (sendSvc cls m u).oda = u.oda := keep_sendSvc (L := [.port]) _ _ (.of_all rfl) (only_refl _ u) .oda (by decide)
  have hhost (p : Fin 2) (m : Msg) (u : State) : (sendHost p cls m u).oda = u.oda :=
    keep_sendHost (L := [.ev, .nut, .port]) _ _ _ (.of_all rfl) (only_refl _ u) .oda (by decide)
  unfold sendSession
  split
  · exact hnext
  · extract_lets u copy p
    split
    · rw [hsvc]
      exact hnext
    split
    · rw [hhost, hhost]
      exact hnext
    split
    · rw [hhost]
      exact hnext
    · rw [hhost]
      exact hnext

/-- An answer is the last answer of the dictionary, whose other parts, sessions aside, it leaves. -/
theorem respond_oda (n : Nat) (a : Answer) (s : State) :
    besideSessions (respond n a s).oda = besideSessions { s.oda with answer := some a } := sendSession_oda n 4 _ _

theorem respond_only (n : Nat) (a : Answer) (s : State) : Only [.ev, .nut, .oda, .port] s (respond n a s) :=
  keep_respond n a (.of_all rfl) (only_refl _ s)

theorem touch_oda (n : Nat) (s : State) : besideSessions (touch n s).oda = besideSessions s.oda := updSession_oda n _ s

theorem touch_only (n : Nat) (s : State) : Only [.oda] s (touch n s) := keep_touch n (.of_all rfl) (only_refl _ s)

/-- The state in which the dictionary handles a request of session n. -/
def counted (n : Nat) (s : State) : State := setOda (fun o => { o with nextReq := o.nextReq + 1 }) (touch n s)

theorem counted_oda (n : Nat) (s : State) :
    besideSessions (counted n s).oda = besideSessions { s.oda with nextReq := s.oda.nextReq + 1 } :=
  congrArg (fun o : Oda => { o with nextReq := o.nextReq + 1 }) (touch_oda n s)

theorem counted_only (n : Nat) (s : State) : Only [.oda] s (counted n s) := keep_setOda _ (.of_all rfl) (touch_only n s)

/-- A request of session n as the dictionary notes it. -/
def pendingRequest (n txn op : Nat) (body : ReqBody) (x : Session) (s : State) : Pending :=
  ⟨n, x.place, x.auth, txn, op, body, [], [], [], false, .hold, s.oda.nextReq⟩

/-- What holds when a request of an open session n passes the checks of its message. -/
structure OpenRequest (n : Nat) (x : Session) (s : State) : Prop where
  serving : s.oda.serving = true
  numbered : n ≠ 0
  session : odaSession s n = some x
  idle : busy s x = false

theorem request_unrecorded {n txn op steps : Nat} {body : ReqBody} {inLedger : Bool} {go : Pending → State → State} {x : Session}
    {s : State} (h : OpenRequest n x s) :
    request n txn op steps body true false inLedger go s = go (pendingRequest n txn op body x s) (counted n s) := by
  obtain ⟨hserving, hn, hx, hidle⟩ := h
  unfold request
  rw [if_neg (by simp [hserving]), if_neg hn, hx]
  dsimp only
  rw [if_neg (by simp), if_neg (by simp [hidle]), if_pos (by decide)]
  rfl

theorem finish_unrecorded {p : Pending} (h : p.body.recorded = false) (code : Nat) (s : State) :
    finish p code s = respond p.sess (p.answer code (mainNow s)) s := by
  unfold finish
  extract_lets a s1
  unfold s1
  rw [if_neg (by simp [h])]

/-! ## LEDGER_QUERY (R379) -/

theorem counted_peers (n : Nat) (s : State) : (counted n s).oda.peers = s.oda.peers := (congrArg Oda.peers (counted_oda n s) :)

theorem queryTxn_congr {s u : State} {k : Nat} (h : look u.oda.peers k = look s.oda.peers k) (q : Nat) :
    queryTxn u k q = queryTxn s k q := by
  unfold queryTxn ledgerOf cachedOf floorOf
  rw [h]

/-- A transaction that LEDGER_QUERY fences: neither ledger nor cache holds it, and it lies above FLOOR. -/
theorem queryTxn_fences_iff {s : State} {k q : Nat} {e : Peer} (he : look s.oda.peers k = some e) :
    (queryTxn s k q).2 = true ↔ (∀ x ∈ e.ledger, x.txn ≠ q) ∧ (∀ c ∈ e.cache, c.txn ≠ q) ∧ e.floor < q := by
  have hledger : ledgerOf s k q = e.ledger.find? (fun x => x.txn == q) := by rw [ledgerOf, he]
  have hcache : cachedOf s k q = e.cache.find? (fun x => x.txn == q) := by rw [cachedOf, he]
  have hfloor : floorOf s k = e.floor := by rw [floorOf, he]
  unfold queryTxn
  rw [hledger, hcache, hfloor]
  split
  · next x hx =>
    have hmem := List.mem_of_find?_eq_some hx
    have htxn := List.find?_some hx
    simp only [beq_iff_eq] at htxn
    constructor
    · intro h
      cases h
    · rintro ⟨hno, -⟩
      exact absurd htxn (hno x hmem)
  · next hnone =>
    have hno : ∀ x ∈ e.ledger, x.txn ≠ q := by simpa using hnone
    split
    · next c hc =>
      have hmem := List.mem_of_find?_eq_some hc
      have htxn := List.find?_some hc
      simp only [beq_iff_eq] at htxn
      constructor
      · intro h
        split at h <;> cases h
      · rintro ⟨-, hnot, -⟩
        exact absurd htxn (hnot c hmem)
    · next hcnone =>
      have hcno : ∀ c ∈ e.cache, c.txn ≠ q := by simpa using hcnone
      split
      · next hle =>
        constructor
        · intro h
          cases h
        · rintro ⟨-, -, hlt⟩
          omega
      · next hgt => exact ⟨fun _ => ⟨hno, hcno, by omega⟩, fun _ => rfl⟩

/-- The entry of a fenced transaction. -/
def fenced (q : Nat) : Ledger := ⟨q, 0, .rejected, 0, 0, 0, 0x00080008, none⟩

/-- A peer whose record e grew by the entries of fenced transactions: of the ledger's earlier entries some may have left. -/
structure Fenced (e : Peer) (due : Nat) (qs : List Nat) (p : Peer) : Prop where
  ledger : ∃ old, (∀ x ∈ old, x ∈ e.ledger) ∧ p.ledger = old ++ qs.map fenced
  cache : p.cache = e.cache ++ qs.map (fun q => (fenced q).cached due)
  floor : p.floor = e.floor

theorem Fenced.refl (e : Peer) (due : Nat) : Fenced e due [] e :=
  ⟨⟨e.ledger, fun _ h => h, (List.append_nil _).symm⟩, (List.append_nil _).symm, rfl⟩

theorem cacheAdd_of_room {c : Cached} {p : Peer} (h : (p.cache ++ [c]).length ≤ 4096) :
    p.cacheAdd c = { p with cache := p.cache ++ [c] } := if_pos h

theorem ledgerAdd_ledger (x : Ledger) (p : Peer) :
    (p.ledgerAdd x).ledger = (p.ledger ++ [x]).drop ((p.ledger ++ [x]).length - 256) := by
  simp only [Peer.ledgerAdd]

theorem ledgerAdd_cache (x : Ledger) (p : Peer) : (p.ledgerAdd x).cache = p.cache := by simp only [Peer.ledgerAdd]

theorem ledgerAdd_floor (x : Ledger) (p : Peer) : (p.ledgerAdd x).floor = p.floor := by simp only [Peer.ledgerAdd]

/-- A peer with one more fenced transaction, where the cache has room for it. -/
theorem Fenced.add {e p : Peer} {due q : Nat} {qs : List Nat} (h : Fenced e due qs p) (hledger : qs.length < 256)
    (hcache : e.cache.length + qs.length < 4096) :
    Fenced e due (qs ++ [q]) ((p.ledgerAdd (fenced q)).cacheAdd ((fenced q).cached due)) := by
  obtain ⟨⟨old, hold, hledgers⟩, hcaches, hfloor⟩ := h
  have hroom : ((p.ledgerAdd (fenced q)).cache ++ [(fenced q).cached due]).length ≤ 4096 := by
    rw [ledgerAdd_cache, hcaches]
    simp only [List.length_append, List.length_map, List.length_singleton]
    omega
  have hgrown : ∃ old, (∀ x ∈ old, x ∈ e.ledger) ∧ (p.ledgerAdd (fenced q)).ledger = old ++ (qs ++ [q]).map fenced := by
    refine ⟨old.drop ((p.ledger ++ [fenced q]).length - 256), fun x hx => hold x (List.mem_of_mem_drop hx), ?_⟩
    have hall : p.ledger ++ [fenced q] = old ++ (qs ++ [q]).map fenced := by
      rw [hledgers, List.append_assoc, List.map_append, List.map_singleton]
    rw [ledgerAdd_ledger, hall, List.drop_append_of_le_length]
    simp only [List.length_append, List.length_map, List.length_singleton]
    omega
  have hcached : (p.ledgerAdd (fenced q)).cache ++ [(fenced q).cached due] =
      e.cache ++ (qs ++ [q]).map (fun q => (fenced q).cached due) := by
    rw [ledgerAdd_cache, hcaches, List.append_assoc, List.map_append, List.map_singleton]
  rw [cacheAdd_of_room hroom]
  have hkept := (ledgerAdd_floor (fenced q) p).trans hfloor
  generalize p.ledgerAdd (fenced q) = g at *
  exact ⟨hgrown, hcached, hkept⟩

/-- A transaction that a peer's record neither holds nor has forgotten. -/
def Unseen (e : Peer) (q : Nat) : Prop := (∀ x ∈ e.ledger, x.txn ≠ q) ∧ (∀ c ∈ e.cache, c.txn ≠ q) ∧ e.floor < q

/-- The record still does not hold a transaction that was not fenced since. -/
theorem Fenced.unseen {e p : Peer} {due q : Nat} {qs : List Nat} (h : Fenced e due qs p) (hq : Unseen e q) (hnot : q ∉ qs) :
    Unseen p q := by
  obtain ⟨⟨old, hold, hledger⟩, hcache, hfloor⟩ := h
  obtain ⟨hno, hcno, hlt⟩ := hq
  refine ⟨fun x hx => ?_, fun c hc => ?_, hfloor ▸ hlt⟩
  · rw [hledger, List.mem_append, List.mem_map] at hx
    rcases hx with hx | ⟨y, hy, rfl⟩
    · exact hno x (hold x hx)
    · exact fun e => hnot (e ▸ hy)
  · rw [hcache, List.mem_append, List.mem_map] at hc
    rcases hc with hc | ⟨y, hy, rfl⟩
    · exact hcno c hc
    · exact fun e => hnot (e ▸ hy)

/-- A fenced transaction is found as its fence. -/
theorem Fenced.find {e p : Peer} {due q : Nat} {qs : List Nat} (h : Fenced e due qs p) (hq : Unseen e q) (hmem : q ∈ qs) :
    p.ledger.find? (fun x => x.txn == q) = some (fenced q) := by
  obtain ⟨⟨old, hold, hledger⟩, -, -⟩ := h
  have hnone : old.find? (fun x => x.txn == q) = none :=
    List.find?_eq_none.mpr (fun x hx => by simpa using hq.1 x (hold x hx))
  have hfound : qs.find? (fun x => x == q) = some q := by
    obtain ⟨y, hy⟩ := Option.isSome_iff_exists.mp (List.find?_isSome.mpr ⟨q, hmem, beq_self_eq_true q⟩ : (qs.find? (fun x => x == q)).isSome)
    have hyq : y = q := by simpa using List.find?_some hy
    rw [hy, hyq]
  rw [hledger, List.find?_append, hnone, Option.none_or, List.find?_map]
  exact congrArg (Option.map fenced) hfound

/-- The state in which a peer's record has one more fenced transaction. -/
def withFence (k q : Nat) (p : Peer) (s : State) : State :=
  setOda (fun o => { o with
    peers := put o.peers k ((p.ledgerAdd (fenced q)).cacheAdd ((fenced q).cached (s.clk.cycles + sCycles 10))) }) s

theorem fence_of_unseen {k q : Nat} {p : Peer} {s : State} (hp : look s.oda.peers k = some p) (hq : Unseen p q) :
    fence k q s = withFence k q p s := by
  unfold fence
  rw [if_pos ((queryTxn_fences_iff hp).mpr hq)]
  unfold updPeer
  rw [hp]
  rfl

theorem fence_of_seen {k q : Nat} {p : Peer} {s : State} (hp : look s.oda.peers k = some p) (hq : ¬ Unseen p q) :
    fence k q s = s := if_neg (fun h => hq ((queryTxn_fences_iff hp).mp h))

/-- The fences of a query record each transaction that the peer's record e did not hold, and drop none of them. -/
theorem forEach_fence {k : Nat} {e : Peer} (txns qs : List Nat) (s : State) {p : Peer} (hp : look s.oda.peers k = some p)
    (hfenced : Fenced e (s.clk.cycles + sCycles 10) qs p) (hledger : qs.length + txns.length ≤ 256)
    (hcache : e.cache.length + qs.length + txns.length ≤ 4096) :
    ∃ qs' p', look (forEach txns (fence k) s).oda.peers k = some p' ∧ Fenced e (s.clk.cycles + sCycles 10) qs' p' ∧
      (∀ q ∈ qs, q ∈ qs') ∧ ∀ q ∈ txns, Unseen e q → q ∈ qs' := by
  induction txns generalizing qs s p with
  | nil => exact ⟨qs, p, hp, hfenced, fun _ h => h, fun _ h => absurd h List.not_mem_nil⟩
  | cons q t ih =>
    simp only [List.length_cons] at hledger hcache
    change ∃ qs' p', look (forEach t (fence k) (fence k q s)).oda.peers k = some p' ∧ _
    by_cases hq : Unseen p q
    · obtain ⟨qs', p', hp', hfenced', hsub, hall⟩ := ih (qs ++ [q])
        (withFence k q p s)
        (look_put_same _ _ _) (hfenced.add (by omega) (by omega)) (by simp only [List.length_append, List.length_singleton]; omega)
        (by simp only [List.length_append, List.length_singleton]; omega)
      rw [fence_of_unseen hp hq]
      refine ⟨qs', p', hp', hfenced', fun x hx => hsub x (List.mem_append_left _ hx), fun x hx hunseen => ?_⟩
      rcases List.mem_cons.mp hx with rfl | hx
      · exact hsub _ (List.mem_append_right _ (List.mem_singleton_self _))
      · exact hall x hx hunseen
    · obtain ⟨qs', p', hp', hfenced', hsub, hall⟩ := ih qs s hp hfenced (by omega) (by omega)
      rw [fence_of_seen hp hq]
      refine ⟨qs', p', hp', hfenced', hsub, fun x hx hunseen => ?_⟩
      rcases List.mem_cons.mp hx with rfl | hx
      · exact hsub _ (by by_contra hnot; exact hq (hfenced.unseen hunseen hnot))
      · exact hall x hx hunseen

/-- The dictionary without its peers. -/
def besidePeers (o : Oda) : Oda := { o with peers := [] }

theorem fence_oda (k q : Nat) (s : State) : besidePeers (fence k q s).oda = besidePeers s.oda := by
  unfold fence updPeer
  split
  · split <;> rfl
  · rfl

theorem forEach_fence_keeps (k : Nat) (txns : List Nat) (s : State) :
    besidePeers (forEach txns (fence k) s).oda = besidePeers s.oda ∧ Only [.oda] s (forEach txns (fence k) s) :=
  forEach_keeps (P := fun u => besidePeers u.oda = besidePeers s.oda ∧ Only [.oda] s u)
    (fun q u ⟨hoda, honly⟩ => ⟨(fence_oda k q u).trans hoda, keep_fence _ _ (.of_all rfl) honly⟩) ⟨rfl, only_refl _ s⟩

theorem ledgerOf_of_look {k : Nat} {p : Peer} {s : State} (h : look s.oda.peers k = some p) (q : Nat) :
    ledgerOf s k q = p.ledger.find? (fun e => e.txn == q) := by
  unfold ledgerOf
  rw [h]

/-- The end of a request that is not recorded: it is answered, and its peers and the requests that wait are kept. -/
theorem finish_answers {p : Pending} (h : p.body.recorded = false) (code : Nat) (s : State) :
    (finish p code s).oda.answer = some (p.answer code (mainNow s)) ∧ (finish p code s).oda.peers = s.oda.peers ∧
    (finish p code s).oda.waiting = s.oda.waiting ∧ Only [.ev, .nut, .oda, .port] s (finish p code s) := by
  rw [finish_unrecorded h]
  have hoda := respond_oda p.sess (p.answer code (mainNow s)) s
  exact ⟨(congrArg Oda.answer hoda :), (congrArg Oda.peers hoda :), (congrArg Oda.waiting hoda :), respond_only _ _ _⟩

/-- One item of the answer to a query: the transaction, the status and the bytes of its entry. -/
def queryItem (s : State) (k q : Nat) : Nat × Nat × Option Value :=
  (q, (queryTxn s k q).1.status.code, some (.bytes (Ledger.bytes (queryTxn s k q).1)))

theorem queryGo_own {peer : List Byte} (hown : ∀ b ∈ peer, b = 0) (txns : List Nat) (p : Pending) (s : State) :
    queryGo peer txns p s = finish { p with items := (floorOf s p.place, 0, none) :: txns.map (queryItem s p.place) } 0
      (forEach txns (fence p.place) s) := by
  have hall : peer.all (· == 0) = true := List.all_eq_true.mpr (fun b hb => by simpa using hown b hb)
  unfold queryGo
  rw [hall]
  rfl

theorem execLedgerQuery_of_open {n txn : Nat} {peer : List Byte} {txns : List Nat} {x : Session} {s : State} (h : OpenRequest n x s)
    (hpeer : peer.length = 32) (hone : 1 ≤ txns.length) (hmany : txns.length ≤ 56) :
    execLedgerQuery n txn peer txns s =
      .next (queryGo peer txns (pendingRequest n txn 8 (.readMulti []) x s) (counted n s)) := by
  have hform : (decide (1 ≤ txns.length) && decide (txns.length ≤ 56) && peer.length == 32) = true := by simp [hpeer, hone, hmany]
  unfold execLedgerQuery
  rw [hform, request_unrecorded h]

theorem ledgerQuery_own {n txn : Nat} {peer : List Byte} {txns : List Nat} {x : Session} {s : State} (h : OpenRequest n x s)
    (hpeer : peer.length = 32) (hown : ∀ b ∈ peer, b = 0) (hone : 1 ≤ txns.length) (hmany : txns.length ≤ 56)
    (hroom : ∀ e, look s.oda.peers x.place = some e → e.cache.length + txns.length ≤ 4096) :
    Ends (.ledgerQuery n txn peer txns) s (fun t =>
      t.oda.answer.map (fun a => (a.txn, a.status, a.items)) =
        some (txn, 0, (floorOf s x.place, 0, none) :: txns.map (queryItem s x.place)) ∧
      (∀ q ∈ txns, (queryTxn s x.place q).2 = true → (look s.oda.peers x.place).isSome = true →
        ledgerOf t x.place q = some (fenced q)) ∧ t.nums = s.nums ∧ t.oda.waiting = s.oda.waiting) := by
  refine ends_of_next (execLedgerQuery_of_open h hpeer hone hmany) ?_
  rw [queryGo_own hown]
  have hlook : look (counted n s).oda.peers x.place = look s.oda.peers x.place := by rw [counted_peers]
  have hitems : (floorOf (counted n s) x.place, 0, none) :: txns.map (queryItem (counted n s) x.place) =
      (floorOf s x.place, 0, none) :: txns.map (queryItem s x.place) := by
    have hfloor : floorOf (counted n s) x.place = floorOf s x.place := by rw [floorOf, hlook, floorOf]
    rw [hfloor]
    exact congrArg _ (List.map_congr_left (fun q _ => by rw [queryItem, queryTxn_congr hlook, queryItem]))
  obtain ⟨hoda, honly⟩ := forEach_fence_keeps x.place txns (counted n s)
  obtain ⟨hanswer, hpeers, hwaiting, hframe⟩ := finish_answers (p := { pendingRequest n txn 8 (.readMulti []) x s with
    items := (floorOf (counted n s) x.place, 0, none) :: txns.map (queryItem (counted n s) x.place) }) rfl 0
    (forEach txns (fence x.place) (counted n s))
  refine ⟨?_, fun q hq hfence hsome => ?_, ?_, ?_⟩
  · refine (congrArg (Option.map fun a => (a.txn, a.status, a.items)) hanswer).trans ?_
    rw [← hitems]
    rfl
  · obtain ⟨e, he⟩ := Option.isSome_iff_exists.mp hsome
    obtain ⟨qs, p', hp', hfenced, -, hall⟩ := forEach_fence txns [] (counted n s) (hlook.trans he) (Fenced.refl e _)
      (by simp only [List.length_nil]; omega) (by simpa using hroom e he)
    have hunseen : Unseen e q := (queryTxn_fences_iff he).mp hfence
    refine Eq.trans ?_ (hfenced.find hunseen (hall q hq hunseen))
    exact ledgerOf_of_look ((congrArg (look · x.place) hpeers).trans hp') q
  · exact (hframe .nums (by decide)).trans ((honly .nums (by decide) : _ = (counted n s).nums).trans
      (counted_only n s .nums (by decide)))
  · exact hwaiting.trans ((congrArg Oda.waiting hoda :).trans (congrArg Oda.waiting (counted_oda n s) :))

/-! ### The ledger of another peer -/

theorem ledgerQuery_refused {n txn : Nat} {peer : List Byte} {txns : List Nat} {x : Session} {s : State} (h : OpenRequest n x s)
    (hpeer : peer.length = 32) (hother : peer.any (· != 0) = true) (hplace : peerPlace s peer ≠ some x.place)
    (hauth : x.auth ≠ .service) (hone : 1 ≤ txns.length) (hmany : txns.length ≤ 56) :
    Ends (.ledgerQuery n txn peer txns) s (fun t =>
      t.oda.answer = some ⟨n, txn, 0x00060003, mainNow s, false, false, 0, 0, [], [], 0⟩ ∧ t.nums = s.nums ∧
      t.oda.peers = s.oda.peers ∧ t.oda.waiting = s.oda.waiting) := by
  have hown : peer.all (· == 0) = false := by
    obtain ⟨b, hb, hne⟩ := List.any_eq_true.mp hother
    exact List.all_eq_false.mpr ⟨b, hb, by simpa using hne⟩
  have hgo : queryGo peer txns (pendingRequest n txn 8 (.readMulti []) x s) (counted n s) =
      finish (pendingRequest n txn 8 (.readMulti []) x s) 0x00060003 (counted n s) := by
    have hplace1 : (peerPlace (counted n s) peer != some x.place) = true := by
      rw [peerPlace, counted_peers, ← peerPlace]
      simpa using hplace
    have hauth1 : (x.auth != .service) = true := by simpa using hauth
    unfold queryGo
    rw [hown]
    exact if_pos (by simp only [pendingRequest]; simp [hplace1, hauth1])
  refine ends_of_next ((execLedgerQuery_of_open h hpeer hone hmany).trans (congrArg Host.Outcome.next hgo)) ?_
  obtain ⟨hanswer, hpeers, hwaiting, hframe⟩ :=
    finish_answers (p := pendingRequest n txn 8 (.readMulti []) x s) rfl 0x00060003 (counted n s)
  have hnow : mainNow (counted n s) = mainNow s := by
    have hclk : (counted n s).clk = s.clk := counted_only n s .clk (by decide)
    have hpart : (counted n s).part = s.part := counted_only n s .part (by decide)
    unfold mainNow now
    rw [hclk, hpart]
  refine ⟨hanswer.trans ?_, ?_, hpeers.trans (counted_peers n s), ?_⟩
  · rw [hnow]
    rfl
  · exact (hframe .nums (by decide) : _ = (counted n s).nums).trans (counted_only n s .nums (by decide))
  · exact hwaiting.trans (congrArg Oda.waiting (counted_oda n s) :)

/-! ### The cache forgets -/

/-- A peer whose cache forgot a transaction. -/
def forgotten (txn : Nat) (p : Peer) : Peer :=
  { p with cache := p.cache.filter (fun d => d.txn != txn), floor := max p.floor txn }

theorem replayCacheExpiry_ends {k txn : Nat} (q : Nat) {c : Cached} {a : Answer} {s : State} (hc : cachedOf s k txn = some c)
    (ha : c.answer = some a) : Ends (.replayCacheExpiry k txn) s (fun t => cachedOf t k txn = none ∧
      floorOf t k = max (floorOf s k) txn ∧ ledgerOf t k q = ledgerOf s k q ∧ t.clk = (tickTo c.due s).clk ∧ t.nums = s.nums) := by
  have hexec : execReplayCacheExpiry k txn s = .next (updPeer k (forgotten txn) (tickTo c.due s)) := by
    unfold execReplayCacheExpiry
    rw [hc]
    exact if_neg (by simp [ha])
  refine ends_of_next hexec ?_
  obtain ⟨clk, hclk⟩ := tickTo_eq_with_clk c.due s
  obtain ⟨p, hp⟩ : ∃ p, look s.oda.peers k = some p := by
    unfold cachedOf at hc
    split at hc
    · next p hp => exact ⟨p, hp⟩
    · cases hc
  have hupd : updPeer k (forgotten txn) { s with clk := clk } =
      { s with clk := clk, oda := { s.oda with peers := put s.oda.peers k (forgotten txn p) } } := by
    unfold updPeer
    rw [show look ({ s with clk := clk } : State).oda.peers k = some p from hp]
  rw [hclk, hupd]
  simp only [cachedOf, floorOf, ledgerOf, look_put_same, hp, and_true]
  refine ⟨List.find?_eq_none.mpr (fun d hd => ?_), rfl, rfl⟩
  have hne := (List.mem_filter.mp hd).2
  simpa using hne

/-- Settles O40: a query fences each transaction its peer's record does not hold, and an expiry forgets one. -/
theorem ledgerQueriesAndCache : Obligations.LedgerQueriesAndCache := by
  unfold Obligations.LedgerQueriesAndCache
  exact ⟨fun n txn x peer txns s h1 h2 h3 h4 hpeer hown hone hmany hroom =>
      ledgerQuery_own ⟨h1, h2, h3, h4⟩ hpeer hown hone hmany hroom,
    fun n txn x peer txns s h1 h2 h3 h4 hpeer hother hplace hauth hone hmany =>
      ledgerQuery_refused ⟨h1, h2, h3, h4⟩ hpeer hother hplace hauth hone hmany,
    fun k txn q c a s hc ha => replayCacheExpiry_ends q hc ha⟩

/-! ## A notification under the last message number of a session (R364, R365)

A message takes the next SEQ of its session even where no port takes it, and a session whose SEQ is used up ends. A
notification under the last SEQ therefore leaves no subscription behind. -/

/-- Records are held for it since count 4000. -/
def heldSubscription : Subscr := ⟨2, 1, [], 8, [⟨5, 1005, 0, .vinLow, 0x5005, false, false, false, false, false, 7⟩], some 4000, none⟩

/-- A session of the service port that has sent its last message but one. -/
def lastSeqSession : Session where
  pending := false
  setupId := 4
  peer := [1]
  place := 0
  auth := .service
  port := 2
  redundant := false
  timeUnchecked := false
  root := .slot 0
  chain := []
  outstanding := 0
  lastRx := 0
  txSeq := two32 - 1
  rxHigh := 3
  rxSeen := []
  due := 999999
  subs := [(2, heldSubscription)]
  blocks := []
  quote := none
  macsecReqs := 0
  ss := []
  h2 := []
  keyPd := []
  keyDp := []
  saltPd := []
  saltDp := []

/-- The service port is down, and the session of the held records has one SEQ left. -/
def lastSeqState : State := { State.reset with
  oda := { Oda.init with serving := true, sessions := [(1, lastSeqSession)] } }

/-- Refutes O38: the notification that finds no port takes the session's last SEQ, and the subscription ends with the
session instead of being left empty. -/
theorem not_subscriptionsAndNotifications : ¬ Obligations.SubscriptionsAndNotifications := by
  unfold Obligations.SubscriptionsAndNotifications
  intro h
  obtain ⟨-, -, -, -, -, -, hdropped⟩ := h
  obtain ⟨-, hsub, -⟩ := ends_stateAfter (hdropped 1 2 lastSeqSession heldSubscription 4000 lastSeqState (by decide +kernel)
    (by decide +kernel) (by decide +kernel) (by decide +kernel) (by decide +kernel) (by decide +kernel))
  have hgone : (look (stateAfter (.eventNotify 1 2) lastSeqState).oda.sessions 1).isNone = true := by decide +kernel
  rw [Option.isNone_iff_eq_none.mp hgone] at hsub
  exact absurd hsub (by simp)

/-! ## Recorded requests (R372, R376, R377)

A write that is new to its peer is noted in the peer's record when it begins, counted there with each step and settled
there when it ends. What the record says of the transaction is followed through these three. -/

theorem request_recorded {n txn op steps : Nat} {body : ReqBody} {inLedger : Bool} {go : Pending → State → State} {x : Session}
    {s : State} (h : OpenRequest n x s) :
    request n txn op steps body true true inLedger go s =
      match seenTxn s n x.place txn body with
      | .again a => respond n a (counted n s)
      | .running => counted n s
      | .other => respond n (abortAnswer n txn 0x00080003) (counted n s)
      | .stale => respond n (abortAnswer n txn 0x00080002) (counted n s)
      | .fresh => go (pendingRequest n txn op body x s) (beginTxn x.place txn op steps body inLedger (counted n s)) := by
  obtain ⟨hserving, hn, hx, hidle⟩ := h
  unfold request
  rw [if_neg (by simp [hserving]), if_neg hn, hx]
  dsimp only
  rw [if_neg (by simp), if_neg (by simp [hidle]), if_neg (by decide)]
  rfl

theorem seenTxn_fresh {s : State} {n k txn : Nat} {body : ReqBody} (h : seenTxn s n k txn body = .fresh) : ledgerOf s k txn = none := by
  unfold seenTxn at h
  split at h
  · split at h
    · cases h
    · split at h <;> cases h
  · split at h
    · split at h
      · cases h
      · split at h <;> cases h
    · assumption

theorem seenTxn_again {s : State} {n k txn : Nat} {body : ReqBody} {a : Answer} (h : seenTxn s n k txn body = .again a) :
    a.duplicate = true := by
  unfold seenTxn at h
  split at h
  · split at h
    · cases h
    · split at h
      · cases h
        rfl
      · cases h
  · split at h
    · split at h
      · cases h
      · split at h
        · cases h
        · cases h
          rfl
    · split at h <;> cases h

/-! ### The peers -/

theorem updPeer_oda (k : Nat) (f : Peer → Peer) (s : State) : besidePeers (updPeer k f s).oda = besidePeers s.oda := by
  unfold updPeer
  split <;> rfl

theorem look_updPeer_same (k : Nat) (f : Peer → Peer) (s : State) :
    look (updPeer k f s).oda.peers k = (look s.oda.peers k).map f := by
  unfold updPeer
  split
  · next p hp =>
    rw [hp]
    exact look_put_same _ _ _
  · next hnone =>
    rw [hnone]
    rfl

theorem ledgerOf_eq (s : State) (k txn : Nat) :
    ledgerOf s k txn = (look s.oda.peers k).bind (fun p => p.ledger.find? (fun e => e.txn == txn)) := by
  unfold ledgerOf
  cases look s.oda.peers k <;> rfl

theorem ledgerOf_of_peers {s t : State} (h : t.oda.peers = s.oda.peers) (k txn : Nat) : ledgerOf t k txn = ledgerOf s k txn := by
  rw [ledgerOf_eq, ledgerOf_eq, h]

/-- A change that maps the entries of a ledger, their transactions kept, maps what the ledger says. -/
theorem ledgerOf_updPeer_map {k txn : Nat} {f : Peer → Peer} {g : Ledger → Ledger} (hf : ∀ p, (f p).ledger = p.ledger.map g)
    (hg : ∀ e : Ledger, (g e).txn = e.txn) (s : State) : ledgerOf (updPeer k f s) k txn = (ledgerOf s k txn).map g := by
  rw [ledgerOf_eq, ledgerOf_eq, look_updPeer_same]
  cases look s.oda.peers k with
  | none => rfl
  | some p =>
    simp only [Option.map_some, Option.bind_some, hf, List.find?_map]
    exact congrArg (Option.map g) (congrArg (fun q => p.ledger.find? q) (funext fun e => by simp [hg]))

/-! ### The start of a transaction -/

/-- The entry of a transaction that begins. -/
def begunEntry (txn op steps : Nat) (body : ReqBody) : Ledger := ⟨txn, 0, .inProgress, op, steps, 0, 0, some body⟩

theorem beginTxn_oda (k txn op steps : Nat) (body : ReqBody) (inLedger : Bool) (s : State) :
    besidePeers (beginTxn k txn op steps body inLedger s).oda = besidePeers s.oda := updPeer_oda k _ s

theorem ledgerAdd_find {p : Peer} {e : Ledger} (h : p.ledger.find? (fun x => x.txn == e.txn) = none) :
    (p.ledgerAdd e).ledger.find? (fun x => x.txn == e.txn) = some e := by
  have hold : (p.ledger.drop ((p.ledger ++ [e]).length - 256)).find? (fun x => x.txn == e.txn) = none :=
    List.find?_eq_none.mpr (fun x hx => List.find?_eq_none.mp h x (List.mem_of_mem_drop hx))
  rw [ledgerAdd_ledger, List.drop_append_of_le_length (by simp only [List.length_append, List.length_singleton]; omega),
    List.find?_append, hold, Option.none_or]
  exact List.find?_cons_of_pos (beq_self_eq_true e.txn)

theorem cacheAdd_ledger (c : Cached) (p : Peer) : (p.cacheAdd c).ledger = p.ledger := by
  simp only [Peer.cacheAdd]
  split <;> rfl

theorem ledgerOf_beginTxn {k txn : Nat} {s : State} (h : ledgerOf s k txn = none) (op steps : Nat) (body : ReqBody) :
    ledgerOf (beginTxn k txn op steps body true s) k txn =
      (look s.oda.peers k).map (fun _ => begunEntry txn op steps body) := by
  rw [ledgerOf_eq] at h
  unfold beginTxn
  rw [ledgerOf_eq, look_updPeer_same]
  cases hp : look s.oda.peers k with
  | none => rfl
  | some p =>
    rw [hp] at h
    simp only [Option.map_some, Option.bind_some, if_true]
    refine ledgerAdd_find (e := begunEntry txn op steps body) ?_
    rw [cacheAdd_ledger]
    exact h

/-! ### A step and the end of a transaction -/

/-- The entry of a transaction with one more step accepted at count c. -/
def Ledger.stepped (txn : Nat) (c : Count) (e : Ledger) : Ledger :=
  if e.txn = txn && e.status == .inProgress then { e with done := e.done + 1, count := if e.done = 0 then c else e.count } else e

theorem countStep_oda (k txn : Nat) (c : Count) (s : State) : besidePeers (countStep k txn c s).oda = besidePeers s.oda :=
  updPeer_oda k _ s

theorem countStep_only (k txn : Nat) (c : Count) (s : State) : Only [.oda] s (countStep k txn c s) :=
  keep_countStep _ _ _ (.of_all rfl) (only_refl _ s)

theorem ledgerOf_countStep (k txn : Nat) (c : Count) (s : State) :
    ledgerOf (countStep k txn c s) k txn = (ledgerOf s k txn).map (Ledger.stepped txn c) :=
  ledgerOf_updPeer_map (fun _ => rfl) (fun e => by unfold Ledger.stepped; split <;> rfl) s

/-- The entry of a transaction that the answer a ends. -/
def Ledger.settled (a : Answer) (e : Ledger) : Ledger :=
  if e.txn = a.txn then { e with count := a.accepted.headD 0, status := statusOf a, done := a.done, code := a.status } else e

theorem endTxn_oda (k : Nat) (a : Answer) (s : State) : besidePeers (endTxn k a s).oda = besidePeers s.oda := updPeer_oda k _ s

theorem ledgerOf_endTxn {a : Answer} (h : unrecorded a.status = false) (k txn : Nat) (s : State) :
    ledgerOf (endTxn k a s) k txn = (ledgerOf s k txn).map (Ledger.settled a) :=
  ledgerOf_updPeer_map (fun p => by rw [if_neg (by simp [h])]; rfl) (fun e => by unfold Ledger.settled; split <;> rfl) s

/-- The dictionary without its sessions, setups and peers. -/
def besideRecords (o : Oda) : Oda := { o with sessions := [], setups := [], peers := [] }

theorem records_of_sessions {o q : Oda} (h : besideSessions o = besideSessions q) : besideRecords o = besideRecords q :=
  (congrArg besidePeers h :)

theorem records_of_peers {o q : Oda} (h : besidePeers o = besidePeers q) : besideRecords o = besideRecords q :=
  (congrArg besideSessions h :)

/-- The end of any request: it is answered, and the requests that wait are kept. -/
theorem finish_oda (p : Pending) (code : Nat) (s : State) :
    besideRecords (finish p code s).oda = besideRecords { s.oda with answer := some (p.answer code (mainNow s)) } := by
  unfold finish
  extract_lets a s1
  refine (records_of_sessions (respond_oda _ _ _)).trans ?_
  have h1 : besideRecords s1.oda = besideRecords s.oda := by
    unfold s1
    split
    · exact records_of_peers (endTxn_oda _ _ s)
    · rfl
  exact (congrArg (fun o : Oda => { o with answer := some a }) h1 :)

theorem finish_only (p : Pending) (code : Nat) (s : State) : Only [.ev, .nut, .oda, .port] s (finish p code s) :=
  keep_finish p code (.of_all rfl) (only_refl _ s)

theorem finish_answer (p : Pending) (code : Nat) (s : State) :
    (finish p code s).oda.answer = some (p.answer code (mainNow s)) := (congrArg Oda.answer (finish_oda p code s) :)

theorem finish_waiting (p : Pending) (code : Nat) (s : State) : (finish p code s).oda.waiting = s.oda.waiting :=
  (congrArg Oda.waiting (finish_oda p code s) :)

theorem respond_peers (n : Nat) (a : Answer) (s : State) : (respond n a s).oda.peers = s.oda.peers :=
  (congrArg Oda.peers (respond_oda n a s) :)

/-- A recorded end settles the entry of its transaction. -/
theorem ledgerOf_finish {p : Pending} {code : Nat} (hbody : p.body.recorded = true) (hcode : unrecorded code = false) (s : State) :
    ledgerOf (finish p code s) p.place p.txn =
      (ledgerOf s p.place p.txn).map (Ledger.settled (p.answer code (mainNow s))) := by
  unfold finish
  extract_lets a s1
  have h1 : s1 = endTxn p.place a s := if_pos hbody
  rw [ledgerOf_of_peers (respond_peers p.sess a s1), h1]
  exact ledgerOf_endTxn hcode _ _ _

/-! ## The checks of a request (R351)

They read the entry of the object with its override, and of the state the part's state and whether firmware answers. -/

/-- What the checks of an access read of a state. -/
structure SameChecks (s u : State) : Prop where
  bar : u.bar = s.bar
  now : Machine.now u = Machine.now s
  part : u.part.st = s.part.st
  cause : u.part.safeCause = s.part.safeCause
  restarting : u.part.fwRestarting = s.part.fwRestarting
  bare : u.oda.bare = s.oda.bare
  secure : u.cardamom.identity = s.cardamom.identity
  ram : u.mem.st = s.mem.st

theorem SameChecks.trans {s t u : State} (h : SameChecks s t) (h' : SameChecks t u) : SameChecks s u :=
  ⟨h'.bar.trans h.bar, h'.now.trans h.now, h'.part.trans h.part, h'.cause.trans h.cause, h'.restarting.trans h.restarting,
    h'.bare.trans h.bare, h'.secure.trans h.secure, h'.ram.trans h.ram⟩

/-- A change of the dictionary that keeps its bareness, and of the ports, events and numbers, changes no check. -/
theorem sameChecks_of_only {L : List Area} {s u : State} (h : Only L s u)
    (hL : ∀ a ∈ [Area.bar, .clk, .part, .cardamom, .mem], a ∉ L) (hbare : u.oda.bare = s.oda.bare) : SameChecks s u := by
  have hbar : u.bar = s.bar := h .bar (hL _ (by decide))
  have hclk : u.clk = s.clk := h .clk (hL _ (by decide))
  have hpart : u.part = s.part := h .part (hL _ (by decide))
  have hcard : u.cardamom = s.cardamom := h .cardamom (hL _ (by decide))
  have hmem : u.mem = s.mem := h .mem (hL _ (by decide))
  exact ⟨hbar, by rw [now, hclk, ← now], by rw [hpart], by rw [hpart], by rw [hpart], hbare, by rw [hcard], by rw [hmem]⟩

theorem SameChecks.findEntry {s u : State} (h : SameChecks s u) (key : Nat) : findEntry u key = findEntry s key := by
  unfold Machine.findEntry
  rw [h.bar]

theorem SameChecks.effEntry {s u : State} (h : SameChecks s u) (key : Nat) : effEntry u key = effEntry s key := by
  unfold Machine.effEntry
  rw [h.findEntry, h.bar, h.now]

theorem SameChecks.indexUsed {s u : State} (h : SameChecks s u) (idx : Nat) : indexUsed u idx = indexUsed s idx := by
  unfold Machine.indexUsed
  rw [h.bar]

theorem SameChecks.existCode {s u : State} (h : SameChecks s u) (key : Nat) : existCode u key = existCode s key := by
  unfold Machine.existCode
  rw [h.indexUsed]

theorem SameChecks.fwAway {s u : State} (h : SameChecks s u) : fwAway u = fwAway s := by
  unfold Machine.fwAway
  rw [h.restarting, h.bare]

theorem SameChecks.stateStatus {s u : State} (h : SameChecks s u) (au : Auth) (key : Nat) (e : Entry) :
    stateStatus u au key e = stateStatus s au key e := by
  unfold Machine.stateStatus
  rw [h.part, h.cause, h.secure]

theorem SameChecks.precheck {s u : State} (h : SameChecks s u) (au : Auth) (key ty : Nat) (v : Value) :
    precheck u au key ty v = precheck s au key ty v := by
  unfold Machine.precheck
  simp only [h.effEntry, h.indexUsed, h.fwAway, h.stateStatus]

theorem SameChecks.readCheck {s u : State} (h : SameChecks s u) (au : Auth) (key ty : Nat) :
    readCheck u au key ty = readCheck s au key ty := by
  unfold Machine.readCheck
  simp only [h.effEntry, h.indexUsed, h.fwAway, h.ram]

theorem SameChecks.isFwKey {s u : State} (h : SameChecks s u) (key : Nat) : isFwKey u key = isFwKey s key := by
  unfold Machine.isFwKey
  rw [h.findEntry]

theorem SameChecks.readFits {s u : State} (h : SameChecks s u) (key : Nat) (v : Value) : readFits u key v = readFits s key v := by
  unfold Machine.readFits lenAt
  rw [h.findEntry]

/-! ### A request that begins -/

/-- The state in which the steps of a fresh recorded request of session n begin. -/
def begun (n k txn op steps : Nat) (body : ReqBody) (inLedger : Bool) (s : State) : State :=
  beginTxn k txn op steps body inLedger (counted n s)

theorem begun_oda (n k txn op steps : Nat) (body : ReqBody) (inLedger : Bool) (s : State) :
    besideRecords (begun n k txn op steps body inLedger s).oda = besideRecords { s.oda with nextReq := s.oda.nextReq + 1 } :=
  (records_of_peers (beginTxn_oda k txn op steps body inLedger (counted n s))).trans (records_of_sessions (counted_oda n s))

theorem begun_only (n k txn op steps : Nat) (body : ReqBody) (inLedger : Bool) (s : State) :
    Only [.oda] s (begun n k txn op steps body inLedger s) := keep_beginTxn _ _ _ _ _ _ (.of_all rfl) (counted_only n s)

theorem begun_waiting (n k txn op steps : Nat) (body : ReqBody) (inLedger : Bool) (s : State) :
    (begun n k txn op steps body inLedger s).oda.waiting = s.oda.waiting :=
  (congrArg Oda.waiting (begun_oda n k txn op steps body inLedger s) :)

theorem begun_serving (n k txn op steps : Nat) (body : ReqBody) (inLedger : Bool) (s : State) :
    (begun n k txn op steps body inLedger s).oda.serving = s.oda.serving :=
  (congrArg Oda.serving (begun_oda n k txn op steps body inLedger s) :)

theorem begun_checks (n k txn op steps : Nat) (body : ReqBody) (inLedger : Bool) (s : State) :
    SameChecks s (begun n k txn op steps body inLedger s) :=
  sameChecks_of_only (begun_only n k txn op steps body inLedger s) (by decide)
    (congrArg Oda.bare (begun_oda n k txn op steps body inLedger s) :)

theorem ledgerOf_begun {k txn : Nat} {s : State} (h : ledgerOf s k txn = none) (n op steps : Nat) (body : ReqBody) :
    ledgerOf (begun n k txn op steps body true s) k txn = (look s.oda.peers k).map (fun _ => begunEntry txn op steps body) := by
  unfold begun
  rw [ledgerOf_beginTxn (by rw [ledgerOf_of_peers (counted_peers n s), h]), counted_peers]

theorem acceptCount_of_only {L : List Area} {s u : State} (h : Only L s u) (hL : ∀ a ∈ [Area.clk, .part], a ∉ L) :
    acceptCount u = acceptCount s := by
  have hclk : u.clk = s.clk := h .clk (hL _ (by decide))
  have hpart : u.part = s.part := h .part (hL _ (by decide))
  unfold acceptCount mainNow now
  rw [hclk, hpart]

theorem mainNow_of_only {L : List Area} {s u : State} (h : Only L s u) (hL : ∀ a ∈ [Area.clk, .part], a ∉ L) :
    mainNow u = mainNow s := by
  have hclk : u.clk = s.clk := h .clk (hL _ (by decide))
  have hpart : u.part = s.part := h .part (hL _ (by decide))
  unfold mainNow now
  rw [hclk, hpart]

/-! ## The steps of a write (R352 to R354) -/

theorem runSteps_missing {s : State} {key : Nat} (h : findEntry s key = none) (p : Pending) (ty : Nat) (v : Value)
    (l : List (Nat × Nat × Value)) :
    runSteps p ((key, ty, v) :: l) s = finish { p with steps := [] } (existCode s key) s := by
  rw [runSteps, h]

/-- A step of an object that hardware holds, whose turn has come. -/
structure StepDue (s : State) (p : Pending) (key : Nat) (e : Entry) : Prop where
  entry : findEntry s key = some e
  hardware : e.fw = false
  turn : overtakes p key s = false

theorem overtakes_of_waiting {s : State} {key : Nat} (h : ∀ q ∈ s.oda.waiting, q.writes.contains key = false) (p : Pending) :
    overtakes p key s = false := by
  unfold overtakes
  rw [List.any_eq_false]
  intro q hq
  rw [h q hq, Bool.and_false]
  exact Bool.false_ne_true

theorem runSteps_refused {s : State} {p : Pending} {key ty : Nat} {v : Value} {e : Entry} (h : StepDue s p key e)
    (hst : stepStatus s p.auth key ty v ≠ 0) (l : List (Nat × Nat × Value)) :
    runSteps p ((key, ty, v) :: l) s = finish { p with steps := [] } (stepStatus s p.auth key ty v)
      (stepRefused s p.auth key v (stepStatus s p.auth key ty v) s) := by
  rw [runSteps, h.entry]
  dsimp only
  rw [if_neg (by simp [h.turn]), if_neg (by simp [h.hardware]), if_pos hst]

theorem runSteps_commits {s : State} {p : Pending} {key ty : Nat} {v : Value} {e : Entry} (h : StepDue s p key e)
    (hst : stepStatus s p.auth key ty v = 0) (hnor : commits key e = true) (l : List (Nat × Nat × Value)) :
    runSteps p ((key, ty, v) :: l) s = park { p with steps := (key, ty, v) :: l, waiting := .nor } s := by
  rw [runSteps, h.entry]
  dsimp only
  rw [if_neg (by simp [h.turn]), if_neg (by simp [h.hardware]), if_neg (by simp [hst]), if_pos hnor]

theorem runSteps_applied {s : State} {p : Pending} {key ty : Nat} {v : Value} {e : Entry} (h : StepDue s p key e)
    (hst : stepStatus s p.auth key ty v = 0) (hnor : commits key e = false)
    (hserving : (applyStep p key v s).2.oda.serving = true) (l : List (Nat × Nat × Value)) :
    runSteps p ((key, ty, v) :: l) s = runSteps (applyStep p key v s).1 l (applyStep p key v s).2 := by
  rw [runSteps, h.entry]
  dsimp only
  rw [if_neg (by simp [h.turn]), if_neg (by simp [h.hardware]), if_neg (by simp [hst]), if_neg (by simp [hnor]),
    if_pos hserving]

/-! ### An object that only holds its number -/

/-- An object of the main die whose write stores its number and does nothing else; `nor` is whether it commits to NOR. -/
structure PlainObject (o : Obj) (nor : Bool) : Prop where
  entry : ∃ e, entries.find? (fun e => e.covers (o.key / 256) (o.key % 256)) = some e ∧
    e.fw = false ∧ commits o.key e = nor ∧ e.dflt = o.dflt
  home : ∀ (au : Auth) (v : Nat) (s : State), writeHome au o.key (.num v) s = 0
  ram : inRam o.key = false
  effect : ∀ (au : Auth) (sess v c : Nat) (s : State), writeEffect au sess o.key (.num v) false c s = storeValue o.key (.num v) s
  free : ∀ s : State, keptFor o.key s = (false, s)

/-- What the list of entries says of the object. -/
theorem entry_of_map {o : Obj} {nor : Bool}
    (h : (entries.find? (fun e => e.covers (o.key / 256) (o.key % 256))).map (fun e => (e.fw, commits o.key e, e.dflt)) =
      some (false, nor, o.dflt)) :
    ∃ e, entries.find? (fun e => e.covers (o.key / 256) (o.key % 256)) = some e ∧
      e.fw = false ∧ commits o.key e = nor ∧ e.dflt = o.dflt := by
  obtain ⟨e, he, hfields⟩ := Option.map_eq_some_iff.mp h
  simp only [Prod.mk.injEq] at hfields
  exact ⟨e, he, hfields⟩

theorem plain_activateAt : PlainObject Obj.activateAt false where
  entry := entry_of_map (by decide +kernel)
  home _ _ _ := rfl
  ram := rfl
  effect _ _ _ _ _ := rfl
  free _ := rfl

theorem plain_updateAt : PlainObject Obj.updateAt false where
  entry := entry_of_map (by decide +kernel)
  home _ _ _ := rfl
  ram := rfl
  effect _ _ _ _ _ := rfl
  free _ := rfl

theorem plain_slewMaxPpm : PlainObject Obj.slewMaxPpm true where
  entry := entry_of_map (by decide +kernel)
  home _ _ _ := rfl
  ram := rfl
  effect _ _ _ _ _ := rfl
  free _ := rfl

theorem PlainObject.findEntry {o : Obj} {nor : Bool} (h : PlainObject o nor) (s : State) :
    ∃ e, findEntry s o.key = some e ∧ e.fw = false ∧ commits o.key e = nor ∧ e.dflt = o.dflt := by
  obtain ⟨e, he, hfields⟩ := h.entry
  refine ⟨e, ?_, hfields⟩
  unfold Machine.findEntry
  rw [he]

theorem storeValue_of_plain {o : Obj} {nor : Bool} (h : PlainObject o nor) (v : Nat) (s : State) :
    storeValue o.key (.num v) s = storeNum o v s := by
  obtain ⟨e, he, -, -, hdflt⟩ := h.findEntry s
  have hd : dfltOf s o.key = o.dflt := by
    unfold dfltOf
    rw [he]
    exact hdflt
  simp only [storeValue, hd]

theorem stepStatus_of_plain {o : Obj} {nor : Bool} (h : PlainObject o nor) {s : State} {au : Auth} {ty v : Nat}
    (hcheck : precheck s au o.key ty (.num v) = 0) : stepStatus s au o.key ty (.num v) = 0 := by
  unfold stepStatus
  rw [if_neg (by simp [hcheck]), if_neg (by simp [h.home]), if_neg (by simp [h.ram])]

theorem stepStatus_of_precheck {s : State} {au : Auth} {key ty : Nat} {v : Value} (h : precheck s au key ty v ≠ 0) :
    stepStatus s au key ty v = precheck s au key ty v := if_pos h

/-- The state in which a step of p has been accepted, before its effect. -/
def acceptedStep (p : Pending) (s : State) : State :=
  countStep p.place p.txn (acceptCount s) { s with clk := { s.clk with lastAccept := acceptCount s } }

theorem applyStep_of_plain {o : Obj} {nor : Bool} (h : PlainObject o nor) (p : Pending) (v : Nat) (s : State) :
    applyStep p o.key (.num v) s =
      ({ p with accepted := p.accepted ++ [acceptCount s] }, noteDegraded (storeNum o v (acceptedStep p s))) := by
  unfold applyStep
  extract_lets c clk k
  have hk : k = (false, { s with clk := { s.clk with lastAccept := acceptCount s } }) := h.free _
  rw [hk]
  exact congrArg (fun t => (_, noteDegraded t)) ((h.effect _ _ _ _ _).trans (storeValue_of_plain h v _))

/-- What an accepted step of p leaves that stores v in o. -/
structure Stored (o : Obj) (v : Nat) (p : Pending) (s u : State) : Prop where
  num : getN u o = v
  others : ∀ o' : Obj, o.key ≠ o'.key → getN u o' = getN s o'
  clk : u.clk = { s.clk with lastAccept := acceptCount s }
  reset : u.part.reset = s.part.reset
  records : besideRecords u.oda = besideRecords s.oda
  ledger : ledgerOf u p.place p.txn = (ledgerOf s p.place p.txn).map (Ledger.stepped p.txn (acceptCount s))
  checks : SameChecks s u

theorem acceptedStep_only (p : Pending) (s : State) : Only [.clk, .oda] s (acceptedStep p s) :=
  keep_countStep _ _ _ (.of_all rfl) (keep_mk_clk _ (.of_all rfl) (only_refl _ s))

theorem acceptedStep_clk (p : Pending) (s : State) : (acceptedStep p s).clk = { s.clk with lastAccept := acceptCount s } :=
  countStep_only p.place p.txn (acceptCount s) { s with clk := { s.clk with lastAccept := acceptCount s } } .clk (by decide)

/-- The accepted step before its effect: only the accepting count and the record of the peer moved. -/
theorem stepped_noteDegraded (o : Obj) (v : Nat) (p : Pending) (s : State) :
    Only [.nums, .pow, .part, .ev, .nut] (acceptedStep p s) (noteDegraded (storeNum o v (acceptedStep p s))) :=
  keep_noteDegraded (.of_all rfl) (keep_storeNum o v (.of_all rfl) (only_refl _ _))

theorem stored_of_plain (o : Obj) (v : Nat) (p : Pending) (s : State) :
    Stored o v p s (noteDegraded (storeNum o v (acceptedStep p s))) := by
  have hframe := stepped_noteDegraded o v p s
  have hstep := acceptedStep_only p s
  have hclk : (noteDegraded (storeNum o v (acceptedStep p s))).clk = { s.clk with lastAccept := acceptCount s } :=
    (hframe .clk (by decide)).trans (acceptedStep_clk p s)
  have hoda : (noteDegraded (storeNum o v (acceptedStep p s))).oda = (acceptedStep p s).oda := hframe .oda (by decide)
  have hpart : (noteDegraded (storeNum o v (acceptedStep p s))).part =
      { s.part with degraded := degradedWord (storeNum o v (acceptedStep p s)) } := by
    have hkept : (storeNum o v (acceptedStep p s)).part = s.part :=
      (keep_storeNum (L := [.nums, .pow]) o v (.of_all rfl) (only_refl _ (acceptedStep p s)) .part (by decide)).trans
        (hstep .part (by decide))
    rw [noteDegraded_part, hkept]
  have hrecords : besideRecords (noteDegraded (storeNum o v (acceptedStep p s))).oda = besideRecords s.oda := by
    rw [hoda]
    exact records_of_peers (countStep_oda _ _ _ _)
  have hnums : (acceptedStep p s).nums = s.nums := hstep .nums (by decide)
  refine ⟨?_, fun o' ho' => ?_, hclk, by rw [hpart], hrecords, ?_, ?_⟩
  · rw [getN_of_nums_eq (noteDegraded_nums _), getN_storeNum_same]
  · rw [getN_of_nums_eq (noteDegraded_nums _), getN_storeNum_other v _ ho', getN_of_nums_eq hnums]
  · rw [ledgerOf_of_peers (congrArg Oda.peers hoda)]
    exact ledgerOf_countStep _ _ _ _
  · refine ⟨(hframe .bar (by decide)).trans (hstep .bar (by decide)), ?_, by rw [hpart], by rw [hpart], by rw [hpart],
      (congrArg Oda.bare hrecords :), ?_, ?_⟩
    · rw [now, hclk, now]
    · rw [show (noteDegraded (storeNum o v (acceptedStep p s))).cardamom = s.cardamom from
        (hframe .cardamom (by decide)).trans (hstep .cardamom (by decide))]
    · rw [show (noteDegraded (storeNum o v (acceptedStep p s))).mem = s.mem from
        (hframe .mem (by decide)).trans (hstep .mem (by decide))]

/-- The next accepting count after an accepted step is the next count. -/
theorem Stored.acceptCount {o : Obj} {v : Nat} {p : Pending} {s u : State} (h : Stored o v p s u) :
    acceptCount u = acceptCount s + 1 := by
  have hmain : mainNow u = mainNow s := by
    unfold mainNow now
    rw [h.reset, h.clk]
  have hle : mainNow s ≤ Machine.acceptCount s := Nat.le_max_left _ _
  have hlast : u.clk.lastAccept = Machine.acceptCount s := by rw [h.clk]
  rw [Machine.acceptCount, hmain, hlast]
  exact Nat.max_eq_right (Nat.le_succ_of_le hle)

theorem Stored.waiting {o : Obj} {v : Nat} {p : Pending} {s u : State} (h : Stored o v p s u) : u.oda.waiting = s.oda.waiting :=
  (congrArg Oda.waiting h.records :)

theorem Stored.serving {o : Obj} {v : Nat} {p : Pending} {s u : State} (h : Stored o v p s u) : u.oda.serving = s.oda.serving :=
  (congrArg Oda.serving h.records :)

/-- A step of a plain object whose checks pass, whose turn has come, is applied, and the request goes on. -/
theorem runSteps_plain {o : Obj} (h : PlainObject o false) {p : Pending} {v : Nat} {s : State} (hserving : s.oda.serving = true)
    (hcheck : precheck s p.auth o.key 0 (.num v) = 0) (hturn : overtakes p o.key s = false) :
    ∃ u, Stored o v p s u ∧ ∀ l, runSteps p ((o.key, 0, .num v) :: l) s =
      runSteps { p with accepted := p.accepted ++ [Machine.acceptCount s] } l u := by
  obtain ⟨e, he, hfw, hnor, -⟩ := h.findEntry s
  have hstored := stored_of_plain o v p s
  have happly := applyStep_of_plain h p v s
  refine ⟨_, hstored, fun l => ?_⟩
  have hgo := runSteps_applied (l := l) ⟨he, hfw, hturn⟩ (stepStatus_of_plain h hcheck) hnor
    (by rw [happly]; exact hstored.serving.trans hserving)
  rw [hgo, happly]

/-! ## WRITE and WRITE_MULTI (R352, R359, R361, R372, R376, R377) -/

/-- What a query tells of a ledger entry: its status, its steps done, its code and its accepting count. -/
def ledgerView (e : Ledger) : TxStatus × Nat × Nat × Count := (e.status, e.done, e.code, e.count)

theorem ledgerOf_txn {s : State} {k txn : Nat} {e : Ledger} (h : ledgerOf s k txn = some e) : e.txn = txn := by
  rw [ledgerOf_eq, Option.bind_eq_some_iff] at h
  obtain ⟨p, -, hfind⟩ := h
  simpa using List.find?_some hfind

theorem settled_view {a : Answer} {e : Ledger} (h : e.txn = a.txn) :
    ledgerView (Ledger.settled a e) = (statusOf a, a.done, a.status, a.accepted.headD 0) := by
  unfold Ledger.settled
  rw [if_pos h]
  rfl

/-- What the ledger tells of a transaction after its end is what its answer told. -/
theorem ledgerView_finish {p : Pending} {code : Nat} (hbody : p.body.recorded = true) (hcode : unrecorded code = false) (s : State) :
    (ledgerOf (finish p code s) p.place p.txn).map ledgerView = (ledgerOf s p.place p.txn).map (fun _ =>
      (statusOf (p.answer code (mainNow s)), p.accepted.length, code, p.accepted.headD 0)) := by
  rw [ledgerOf_finish hbody hcode]
  cases h : ledgerOf s p.place p.txn with
  | none => rfl
  | some e => exact congrArg some (settled_view (ledgerOf_txn h))

theorem Stored.ledger_const {o : Obj} {v : Nat} {p : Pending} {s u : State} (h : Stored o v p s u) {α : Type} (c : α) :
    (ledgerOf u p.place p.txn).map (fun _ => c) = (ledgerOf s p.place p.txn).map (fun _ => c) := by
  rw [h.ledger, Option.map_map]
  rfl

theorem ledger_const_begun {k txn : Nat} {s : State} (h : ledgerOf s k txn = none) (n op steps : Nat) (body : ReqBody) {α : Type}
    (c : α) : (ledgerOf (begun n k txn op steps body true s) k txn).map (fun _ => c) = (look s.oda.peers k).map (fun _ => c) := by
  rw [ledgerOf_begun h, Option.map_map]
  rfl

/-- What an answer tells a writer. -/
def answerView (a : Answer) : Nat × Nat × Nat × List Count := (a.txn, a.status, a.done, a.accepted)

theorem answerView_finish (p : Pending) (code : Nat) (s : State) :
    (finish p code s).oda.answer.map answerView = some (p.txn, code, p.accepted.length, p.accepted) := by
  rw [finish_answer]
  rfl

/-! ### A write that begins -/

theorem execOdaWrite_of_fresh {n txn key ty : Nat} {v : Value} {x : Session} {s : State} (h : OpenRequest n x s)
    (hfresh : seenTxn s n x.place txn (.write key ty v) = .fresh) :
    execOdaWrite n txn key ty v s = .next (runSteps (pendingRequest n txn 2 (.write key ty v) x s) [(key, ty, v)]
      (begun n x.place txn 2 1 (.write key ty v) true s)) := by
  unfold execOdaWrite
  rw [request_recorded h, hfresh]
  rfl

theorem execWriteMulti_of_fresh {n txn : Nat} {steps : List (Nat × Nat × Value)} {x : Session} {s : State} (h : OpenRequest n x s)
    (hcount : countOk steps.length = true) (hfresh : seenTxn s n x.place txn (.writeMulti steps) = .fresh) :
    execWriteMulti n txn steps s = .next (runSteps (pendingRequest n txn 4 (.writeMulti steps) x s) steps
      (begun n x.place txn 4 steps.length (.writeMulti steps) true s)) := by
  unfold execWriteMulti
  rw [hcount, request_recorded h, hfresh]
  rfl

theorem begun_acceptCount (n k txn op steps : Nat) (body : ReqBody) (inLedger : Bool) (s : State) :
    acceptCount (begun n k txn op steps body inLedger s) = acceptCount s :=
  acceptCount_of_only (begun_only n k txn op steps body inLedger s) (by decide)

theorem begun_turn {n k txn op steps key : Nat} {body : ReqBody} {inLedger : Bool} {s : State}
    (h : ∀ q ∈ s.oda.waiting, q.writes.contains key = false) (p : Pending) :
    overtakes p key (begun n k txn op steps body inLedger s) = false :=
  overtakes_of_waiting (fun q hq => h q (begun_waiting n k txn op steps body inLedger s ▸ hq)) p

/-- A fresh request whose first step is that of a plain object applies it and goes on. -/
theorem begun_plain {o : Obj} (ho : PlainObject o false) {n txn op steps v : Nat} {body : ReqBody} {x : Session} {s : State}
    (hserving : s.oda.serving = true) (hcheck : precheck s x.auth o.key 0 (.num v) = 0)
    (hturn : ∀ q ∈ s.oda.waiting, q.writes.contains o.key = false) :
    ∃ u, Stored o v (pendingRequest n txn op body x s) (begun n x.place txn op steps body true s) u ∧
      ∀ l, runSteps (pendingRequest n txn op body x s) ((o.key, 0, .num v) :: l) (begun n x.place txn op steps body true s) =
        runSteps { pendingRequest n txn op body x s with accepted := [acceptCount s] } l u := by
  have hgo := runSteps_plain ho (p := pendingRequest n txn op body x s) (v := v)
    ((begun_serving n x.place txn op steps body true s).trans hserving)
    (((begun_checks n x.place txn op steps body true s).precheck x.auth o.key 0 (.num v)).trans hcheck) (begun_turn hturn _)
  rw [begun_acceptCount] at hgo
  exact hgo

/-- WRITE of a plain object. -/
theorem odaWrite_applied {o : Obj} (ho : PlainObject o false) {n txn v : Nat} {x : Session} {s : State} (h : OpenRequest n x s)
    (hfresh : seenTxn s n x.place txn (.write o.key 0 (.num v)) = .fresh) (hcheck : precheck s x.auth o.key 0 (.num v) = 0)
    (hturn : ∀ q ∈ s.oda.waiting, q.writes.contains o.key = false) :
    Ends (.odaWrite n txn o.key 0 (.num v)) s (fun t => getN t o = v ∧ t.clk.lastAccept = acceptCount s ∧
      s.clk.lastAccept < t.clk.lastAccept ∧ mainNow s ≤ t.clk.lastAccept ∧
      t.oda.answer.map answerView = some (txn, 0, 1, [acceptCount s]) ∧
      (ledgerOf t x.place txn).map ledgerView = (look s.oda.peers x.place).map (fun _ => (.applied, 1, 0, acceptCount s))) := by
  obtain ⟨u, hu, hrun⟩ := begun_plain ho (n := n) (txn := txn) (op := 2) (steps := 1) (body := .write o.key 0 (.num v))
    h.serving hcheck hturn
  have hend : execOdaWrite n txn o.key 0 (.num v) s =
      .next (finish { pendingRequest n txn 2 (.write o.key 0 (.num v)) x s with accepted := [acceptCount s] } 0 u) :=
    (execOdaWrite_of_fresh h hfresh).trans (congrArg Host.Outcome.next (hrun []))
  refine ends_of_next hend ?_
  have honly := finish_only { pendingRequest n txn 2 (.write o.key 0 (.num v)) x s with accepted := [acceptCount s] } 0 u
  have hlast : (finish { pendingRequest n txn 2 (.write o.key 0 (.num v)) x s with accepted := [acceptCount s] } 0 u).clk.lastAccept =
      acceptCount s := by
    rw [honly .clk (by decide), hu.clk]
    exact begun_acceptCount _ _ _ _ _ _ _ _
  refine ⟨(getN_of_nums_eq (honly .nums (by decide)) o).trans hu.num, hlast, ?_, ?_, answerView_finish _ _ _, ?_⟩
  · rw [hlast]
    exact Nat.lt_of_lt_of_le (Nat.lt_succ_self _) (Nat.le_max_right _ _)
  · rw [hlast]
    exact Nat.le_max_left _ _
  · refine (ledgerView_finish rfl rfl u).trans ((hu.ledger_const _).trans ?_)
    exact ledger_const_begun (seenTxn_fresh hfresh) _ _ _ _ _

/-- WRITE of an object whose checks fail. -/
theorem odaWrite_rejected {n txn key ty : Nat} {v : Value} {x : Session} {e : Entry} {s : State} (h : OpenRequest n x s)
    (hfresh : seenTxn s n x.place txn (.write key ty v) = .fresh) (he : findEntry s key = some e) (hfw : e.fw = false)
    (hcheck : precheck s x.auth key ty v ≠ 0) (hdesc : ¬ (0x4400 ≤ key / 256 ∧ key / 256 < 0x4428))
    (hturn : ∀ q ∈ s.oda.waiting, q.writes.contains key = false) :
    Ends (.odaWrite n txn key ty v) s (fun t => t.nums = s.nums ∧ t.blobs = s.blobs ∧ t.eng = s.eng ∧ t.clk = s.clk ∧
      t.oda.answer.map answerView = some (txn, precheck s x.auth key ty v, 0, []) ∧
      (unrecorded (precheck s x.auth key ty v) = false → (ledgerOf t x.place txn).map ledgerView =
        (look s.oda.peers x.place).map (fun _ => (.rejected, 0, precheck s x.auth key ty v, 0)))) := by
  have hchecks := begun_checks n x.place txn 2 1 (.write key ty v) true s
  have hcode : stepStatus (begun n x.place txn 2 1 (.write key ty v) true s) x.auth key ty v = precheck s x.auth key ty v := by
    rw [stepStatus_of_precheck (by rw [hchecks.precheck]; exact hcheck), hchecks.precheck]
  have hrun := runSteps_refused (p := pendingRequest n txn 2 (.write key ty v) x s) (ty := ty) (v := v)
    ⟨(hchecks.findEntry key).trans he, hfw, begun_turn hturn _⟩ (hcode ▸ hcheck) []
  have hend : execOdaWrite n txn key ty v s = .next (finish (pendingRequest n txn 2 (.write key ty v) x s)
      (precheck s x.auth key ty v) (begun n x.place txn 2 1 (.write key ty v) true s)) := by
    rw [execOdaWrite_of_fresh h hfresh, hrun]
    unfold stepRefused
    rw [if_neg hdesc, show (pendingRequest n txn 2 (.write key ty v) x s).auth = x.auth from rfl, hcode]
    rfl
  refine ends_of_next hend ?_
  have honly := keep_finish (pendingRequest n txn 2 (.write key ty v) x s) (precheck s x.auth key ty v)
    (L := [.ev, .nut, .oda, .port]) (.of_all rfl)
    (only_mono (begun_only n x.place txn 2 1 (.write key ty v) true s) (.of_all rfl))
  refine ⟨honly .nums (by decide), honly .blobs (by decide), honly .eng (by decide), honly .clk (by decide),
    answerView_finish _ _ _, fun hrecorded => ?_⟩
  refine (ledgerView_finish (p := pendingRequest n txn 2 (.write key ty v) x s) rfl hrecorded _).trans ?_
  have hstatus : statusOf ((pendingRequest n txn 2 (.write key ty v) x s).answer (precheck s x.auth key ty v)
      (mainNow (begun n x.place txn 2 1 (.write key ty v) true s))) = .rejected := (if_neg hcheck).trans (if_pos rfl)
  rw [hstatus]
  exact ledger_const_begun (seenTxn_fresh hfresh) _ _ _ _ _

/-! ### Two steps -/

/-- WRITE_MULTI of two plain objects: the second step has the next accepting count. -/
theorem writeMulti_applied {o o' : Obj} (ho : PlainObject o false) (ho' : PlainObject o' false) (hne : o'.key ≠ o.key)
    {n txn u v : Nat} {x : Session} {s : State} (h : OpenRequest n x s)
    (hfresh : seenTxn s n x.place txn (.writeMulti [(o.key, 0, .num u), (o'.key, 0, .num v)]) = .fresh)
    (hcheck : precheck s x.auth o.key 0 (.num u) = 0) (hcheck' : precheck s x.auth o'.key 0 (.num v) = 0)
    (hturn : ∀ q ∈ s.oda.waiting, q.writes.contains o.key = false ∧ q.writes.contains o'.key = false) :
    Ends (.writeMulti n txn [(o.key, 0, .num u), (o'.key, 0, .num v)]) s (fun t => getN t o = u ∧ getN t o' = v ∧
      t.clk.lastAccept = acceptCount s + 1 ∧
      t.oda.answer.map answerView = some (txn, 0, 2, [acceptCount s, acceptCount s + 1]) ∧
      (ledgerOf t x.place txn).map ledgerView = (look s.oda.peers x.place).map (fun _ => (.applied, 2, 0, acceptCount s))) := by
  obtain ⟨w, hw, hrun⟩ := begun_plain ho (n := n) (txn := txn) (op := 4) (steps := 2)
    (body := .writeMulti [(o.key, 0, .num u), (o'.key, 0, .num v)]) h.serving hcheck (fun q hq => (hturn q hq).1)
  have hchecks := (begun_checks n x.place txn 4 2 (.writeMulti [(o.key, 0, .num u), (o'.key, 0, .num v)]) true s).trans hw.checks
  have hwaiting := hw.waiting.trans (begun_waiting n x.place txn 4 2 (.writeMulti [(o.key, 0, .num u), (o'.key, 0, .num v)]) true s)
  have hcount : acceptCount w = acceptCount s + 1 := by rw [hw.acceptCount, begun_acceptCount]
  obtain ⟨z, hz, hrun'⟩ := runSteps_plain ho' (v := v)
    (p := { pendingRequest n txn 4 (.writeMulti [(o.key, 0, .num u), (o'.key, 0, .num v)]) x s with accepted := [acceptCount s] })
    (s := w) (hw.serving.trans ((begun_serving _ _ _ _ _ _ _ _).trans h.serving)) ((hchecks.precheck _ _ _ _).trans hcheck')
    (overtakes_of_waiting (fun q hq => (hturn q (hwaiting ▸ hq)).2) _)
  have hend : execWriteMulti n txn [(o.key, 0, .num u), (o'.key, 0, .num v)] s =
      .next (finish { pendingRequest n txn 4 (.writeMulti [(o.key, 0, .num u), (o'.key, 0, .num v)]) x s with
        accepted := [acceptCount s, acceptCount s + 1] } 0 z) := by
    rw [hcount] at hrun'
    exact (execWriteMulti_of_fresh h rfl hfresh).trans (congrArg Host.Outcome.next ((hrun _).trans (hrun' [])))
  refine ends_of_next hend ?_
  have honly := finish_only { pendingRequest n txn 4 (.writeMulti [(o.key, 0, .num u), (o'.key, 0, .num v)]) x s with
    accepted := [acceptCount s, acceptCount s + 1] } 0 z
  refine ⟨?_, ?_, ?_, answerView_finish _ _ _, ?_⟩
  · exact (getN_of_nums_eq (honly .nums (by decide)) o).trans ((hz.others o hne).trans hw.num)
  · exact (getN_of_nums_eq (honly .nums (by decide)) o').trans hz.num
  · rw [honly .clk (by decide), hz.clk]
    exact hcount
  · refine (ledgerView_finish rfl rfl z).trans ((hz.ledger_const _).trans ((hw.ledger_const _).trans ?_))
    exact ledger_const_begun (seenTxn_fresh hfresh) _ _ _ _ _

theorem unrecorded_existCode (s : State) (key : Nat) : unrecorded (existCode s key) = false := by
  unfold existCode
  split <;> rfl

theorem existCode_ne (s : State) (key : Nat) : existCode s key ≠ 0 := by
  unfold existCode
  split <;> decide

/-- WRITE_MULTI whose second step names no object. -/
theorem writeMulti_partial {o : Obj} (ho : PlainObject o false) {n txn u key ty : Nat} {v : Value} {x : Session} {s : State}
    (h : OpenRequest n x s) (hfresh : seenTxn s n x.place txn (.writeMulti [(o.key, 0, .num u), (key, ty, v)]) = .fresh)
    (hcheck : precheck s x.auth o.key 0 (.num u) = 0) (hnone : findEntry s key = none)
    (hturn : ∀ q ∈ s.oda.waiting, q.writes.contains o.key = false) :
    Ends (.writeMulti n txn [(o.key, 0, .num u), (key, ty, v)]) s (fun t => getN t o = u ∧
      t.oda.answer.map answerView = some (txn, existCode s key, 1, [acceptCount s]) ∧ t.oda.answer.map (·.failed) = some 1 ∧
      (ledgerOf t x.place txn).map ledgerView =
        (look s.oda.peers x.place).map (fun _ => (.partialDone, 1, existCode s key, acceptCount s))) := by
  obtain ⟨w, hw, hrun⟩ := begun_plain ho (n := n) (txn := txn) (op := 4) (steps := 2)
    (body := .writeMulti [(o.key, 0, .num u), (key, ty, v)]) h.serving hcheck hturn
  have hchecks := (begun_checks n x.place txn 4 2 (.writeMulti [(o.key, 0, .num u), (key, ty, v)]) true s).trans hw.checks
  have hend : execWriteMulti n txn [(o.key, 0, .num u), (key, ty, v)] s =
      .next (finish { pendingRequest n txn 4 (.writeMulti [(o.key, 0, .num u), (key, ty, v)]) x s with
        accepted := [acceptCount s] } (existCode s key) w) := by
    refine (execWriteMulti_of_fresh h rfl hfresh).trans (congrArg Host.Outcome.next ((hrun _).trans ?_))
    rw [runSteps_missing ((hchecks.findEntry key).trans hnone), hchecks.existCode]
    rfl
  refine ends_of_next hend ?_
  have honly := finish_only { pendingRequest n txn 4 (.writeMulti [(o.key, 0, .num u), (key, ty, v)]) x s with
    accepted := [acceptCount s] } (existCode s key) w
  refine ⟨(getN_of_nums_eq (honly .nums (by decide)) o).trans hw.num, answerView_finish _ _ _, ?_, ?_⟩
  · rw [finish_answer]
    exact congrArg some (if_neg (existCode_ne s key))
  · refine (ledgerView_finish (p := { pendingRequest n txn 4 (.writeMulti [(o.key, 0, .num u), (key, ty, v)]) x s with
      accepted := [acceptCount s] }) rfl (unrecorded_existCode s key) w).trans ?_
    have hstatus : statusOf (({ pendingRequest n txn 4 (.writeMulti [(o.key, 0, .num u), (key, ty, v)]) x s with
        accepted := [acceptCount s] } : Pending).answer (existCode s key) (mainNow w)) = .partialDone :=
      (if_neg (existCode_ne s key)).trans (if_neg Nat.one_ne_zero)
    rw [hstatus]
    exact (hw.ledger_const _).trans (ledger_const_begun (seenTxn_fresh hfresh) _ _ _ _ _)

/-! ### A transaction the peer has used -/

/-- The state in which a request of session n has been counted and answered with a. -/
theorem answered_counted (n : Nat) (a : Answer) (s : State) : (respond n a (counted n s)).oda.answer = some a ∧
    (respond n a (counted n s)).nums = s.nums ∧ (respond n a (counted n s)).oda.peers = s.oda.peers ∧
    (respond n a (counted n s)).oda.waiting = s.oda.waiting := by
  have hoda := respond_oda n a (counted n s)
  have hcounted := counted_oda n s
  exact ⟨(congrArg Oda.answer hoda :), (respond_only n a _ .nums (by decide)).trans (counted_only n s .nums (by decide)),
    (congrArg Oda.peers hoda :).trans (counted_peers n s), (congrArg Oda.waiting hoda :).trans (congrArg Oda.waiting hcounted :)⟩

/-- The end of a request of session n under a transaction that is not new. -/
def usedEnd (n txn : Nat) (s : State) : Seen → State
  | .again a => respond n a (counted n s)
  | .other => respond n (abortAnswer n txn 0x00080003) (counted n s)
  | .stale => respond n (abortAnswer n txn 0x00080002) (counted n s)
  | .running | .fresh => counted n s

theorem execOdaWrite_of_seen {n txn key ty : Nat} {v : Value} {x : Session} {s : State} (h : OpenRequest n x s) {seen : Seen}
    (hseen : seenTxn s n x.place txn (.write key ty v) = seen) (hused : seen ≠ .fresh) :
    execOdaWrite n txn key ty v s = .next (usedEnd n txn s seen) := by
  unfold execOdaWrite
  rw [request_recorded h, hseen]
  cases seen with
  | fresh => exact absurd rfl hused
  | _ => rfl

/-- Settles O36: the steps of a fresh request run in order, and a used transaction only gets its answer. -/
theorem odaWritesAndLedger : Obligations.OdaWritesAndLedger := by
  unfold Obligations.OdaWritesAndLedger
  refine ⟨fun n txn x v s h1 h2 h3 h4 hfresh hcheck hturn =>
      odaWrite_applied plain_activateAt ⟨h1, h2, h3, h4⟩ hfresh hcheck hturn,
    fun n txn x key ty v e s h1 h2 h3 h4 hfresh he hfw hcheck hdesc hturn =>
      odaWrite_rejected ⟨h1, h2, h3, h4⟩ hfresh he hfw hcheck hdesc hturn,
    fun n txn x u v s h1 h2 h3 h4 hfresh hcheck hcheck' hturn =>
      writeMulti_applied plain_activateAt plain_updateAt (by decide) ⟨h1, h2, h3, h4⟩ hfresh hcheck hcheck' hturn,
    fun n txn x u key ty v s h1 h2 h3 h4 hfresh hcheck hnone hturn =>
      writeMulti_partial plain_activateAt ⟨h1, h2, h3, h4⟩ hfresh hcheck hnone hturn, ?_, ?_, ?_, ?_⟩
  · intro n txn x key ty v a s h1 h2 h3 h4 hseen
    refine ends_of_next (execOdaWrite_of_seen ⟨h1, h2, h3, h4⟩ hseen (by simp)) ?_
    obtain ⟨hanswer, hrest⟩ := answered_counted n a s
    exact ⟨hanswer, seenTxn_again hseen, hrest⟩
  · intro n txn x key ty v s h1 h2 h3 h4 hseen
    refine ends_of_next (execOdaWrite_of_seen ⟨h1, h2, h3, h4⟩ hseen (by simp)) ?_
    have hcounted := counted_oda n s
    exact ⟨(congrArg Oda.answer hcounted :), counted_only n s .nums (by decide), counted_peers n s,
      (congrArg Oda.waiting hcounted :)⟩
  · intro n txn x key ty v s h1 h2 h3 h4 hseen
    exact ends_of_next (execOdaWrite_of_seen ⟨h1, h2, h3, h4⟩ hseen (by simp)) (answered_counted n _ s)
  · intro n txn x key ty v s h1 h2 h3 h4 hseen
    exact ends_of_next (execOdaWrite_of_seen ⟨h1, h2, h3, h4⟩ hseen (by simp)) (answered_counted n _ s)

/-! ## Steps that wait (R354, R436)

A step that commits to NOR, or that firmware carries out, leaves its request among those that wait; the end of the commit or
of the firmware's work takes it out again and goes on with it. Where no request waits behind another, nothing else moves. -/

theorem park_oda (p : Pending) (s : State) :
    besideSessions (park p s).oda = besideSessions { s.oda with waiting := s.oda.waiting ++ [p] } := updSession_oda p.sess _ _

theorem unpark_oda (p : Pending) (s : State) :
    besideSessions (unpark p s).oda = besideSessions { s.oda with waiting := s.oda.waiting.erase p } := updSession_oda p.sess _ _

theorem unpark_only (p : Pending) (s : State) : Only [.oda] s (unpark p s) := keep_unpark p (.of_all rfl) (only_refl _ s)

theorem unpark_waiting (p : Pending) (s : State) : (unpark p s).oda.waiting = s.oda.waiting.erase p :=
  (congrArg Oda.waiting (unpark_oda p s) :)

/-- Where no request waits behind another, none goes on. -/
theorem goOn_of_none_behind {s : State} (h : ∀ q ∈ s.oda.waiting, q.waiting ≠ .behind) : goOn s = s := by
  have hnone : s.oda.waiting.filter (fun p => p.waiting == .behind) = [] :=
    List.filter_eq_nil_iff.mpr (fun q hq => by simpa using h q hq)
  unfold goOn
  rw [hnone]
  rfl

theorem none_behind_erase {s u : State} {p : Pending} (h : ∀ q ∈ s.oda.waiting, q.waiting ≠ .behind)
    (hu : u.oda.waiting = s.oda.waiting.erase p) : ∀ q ∈ u.oda.waiting, q.waiting ≠ .behind :=
  fun q hq => h q (List.mem_of_mem_erase (hu ▸ hq))

/-! ### A commit to NOR -/

theorem odaWrite_waits {o : Obj} (ho : PlainObject o true) {n txn v : Nat} {x : Session} {s : State} (h : OpenRequest n x s)
    (hfresh : seenTxn s n x.place txn (.write o.key 0 (.num v)) = .fresh) (hcheck : precheck s x.auth o.key 0 (.num v) = 0)
    (hturn : ∀ q ∈ s.oda.waiting, q.writes.contains o.key = false) :
    Ends (.odaWrite n txn o.key 0 (.num v)) s (fun t => t.nums = s.nums ∧ t.clk = s.clk ∧ t.oda.answer = s.oda.answer ∧
      t.oda.waiting = s.oda.waiting ++ [⟨n, x.place, x.auth, txn, 2, .write o.key 0 (.num v), [(o.key, 0, .num v)], [], [], false,
        .nor, s.oda.nextReq⟩]) := by
  obtain ⟨e, he, hfw, hnor, -⟩ := ho.findEntry (begun n x.place txn 2 1 (.write o.key 0 (.num v)) true s)
  have hchecks := begun_checks n x.place txn 2 1 (.write o.key 0 (.num v)) true s
  have hrun := runSteps_commits (p := pendingRequest n txn 2 (.write o.key 0 (.num v)) x s) ⟨he, hfw, begun_turn hturn _⟩
    (stepStatus_of_plain ho ((hchecks.precheck _ _ _ _).trans hcheck)) hnor []
  refine ends_of_next ((execOdaWrite_of_fresh h hfresh).trans (congrArg Host.Outcome.next hrun)) ?_
  have hparked : ∀ p : Pending, Only [.oda] s (park p (begun n x.place txn 2 1 (.write o.key 0 (.num v)) true s)) :=
    fun p => keep_park p (.of_all rfl) (begun_only n x.place txn 2 1 (.write o.key 0 (.num v)) true s)
  have hbegun := begun_oda n x.place txn 2 1 (.write o.key 0 (.num v)) true s
  refine ⟨hparked _ .nums (by decide), hparked _ .clk (by decide), ?_, ?_⟩
  · exact (congrArg Oda.answer (park_oda _ _) :).trans (congrArg Oda.answer hbegun :)
  · refine (congrArg Oda.waiting (park_oda _ _) :).trans ?_
    exact congrArg (· ++ _) (congrArg Oda.waiting hbegun :)

/-- The commit that is under way, the first of them: that of request p. -/
structure Committing (p : Pending) (s : State) : Prop where
  settled : s.oda.landing = []
  first : s.oda.waiting.find? (fun p => p.waiting == .nor) = some p
  unordered : ∀ q ∈ s.oda.waiting, q.waiting ≠ .behind

theorem execNorCommitDone_true {p : Pending} {key ty : Nat} {v : Value} {s : State} (h : Committing p s)
    (hsteps : p.steps = [(key, ty, v)]) (hserving : (applyStep p key v (unpark p s)).2.oda.serving = true) :
    execNorCommitDone true s = .next (goOn (finish { (applyStep p key v (unpark p s)).1 with steps := [] } 0
      (applyStep p key v (unpark p s)).2)) := by
  unfold execNorCommitDone
  rw [h.settled, h.first]
  dsimp only
  rw [hsteps]
  dsimp only
  rw [if_pos rfl, if_pos hserving]
  rfl

theorem execNorCommitDone_false {p : Pending} {y : Nat × Nat × Value} {l : List (Nat × Nat × Value)} {s : State} (h : Committing p s)
    (hsteps : p.steps = y :: l) :
    execNorCommitDone false s = .next (goOn (finish { p with steps := [] } 0x00070041 (unpark p s))) := by
  unfold execNorCommitDone
  rw [h.settled, h.first]
  dsimp only
  rw [hsteps]
  rfl

/-- What an answer tells of the steps of a request. -/
def answerSteps (a : Answer) : Nat × Nat × List Count := (a.txn, a.status, a.accepted)

theorem answerSteps_finish (p : Pending) (code : Nat) (s : State) :
    (finish p code s).oda.answer.map answerSteps = some (p.txn, code, p.accepted) := by
  rw [finish_answer]
  rfl

theorem norCommitDone_applies {o : Obj} (ho : PlainObject o true) {p : Pending} {ty v : Nat} {s : State} (h : Committing p s)
    (hsteps : p.steps = [(o.key, ty, .num v)]) (hserving : s.oda.serving = true) :
    Ends (.norCommitDone true) s (fun t => getN t o = v ∧ t.oda.waiting = s.oda.waiting.erase p ∧
      t.oda.answer.map answerSteps = some (p.txn, 0, p.accepted ++ [acceptCount s])) := by
  have hstored := stored_of_plain o v p (unpark p s)
  have happly := applyStep_of_plain ho p v (unpark p s)
  have hcount : acceptCount (unpark p s) = acceptCount s := acceptCount_of_only (unpark_only p s) (by decide)
  have hexec := execNorCommitDone_true h hsteps (by
    rw [happly]
    exact hstored.serving.trans ((congrArg Oda.serving (unpark_oda p s) :).trans hserving))
  rw [happly, hcount] at hexec
  generalize noteDegraded (storeNum o v (acceptedStep p (unpark p s))) = u at hexec hstored
  have hwaiting : (finish { p with accepted := p.accepted ++ [acceptCount s], steps := [] } 0 u).oda.waiting =
      s.oda.waiting.erase p := by
    rw [finish_waiting, hstored.waiting, unpark_waiting]
  have hgo := goOn_of_none_behind (none_behind_erase h.unordered hwaiting)
  refine ends_of_next (hexec.trans (congrArg Host.Outcome.next hgo)) ⟨?_, hwaiting, answerSteps_finish _ _ _⟩
  rw [getN_of_nums_eq (finish_only _ 0 u .nums (by decide)), hstored.num]

/-- A request that was waiting and ends now leaves the numbers and the bytes. -/
theorem finish_unparked (p q : Pending) (code : Nat) (s : State) :
    Only [.ev, .nut, .oda, .port] s (finish q code (unpark p s)) :=
  keep_finish q code (.of_all rfl) (only_mono (unpark_only p s) (.of_all rfl))

theorem norCommitDone_fails {p : Pending} {y : Nat × Nat × Value} {l : List (Nat × Nat × Value)} {s : State} (h : Committing p s)
    (hsteps : p.steps = y :: l) : Ends (.norCommitDone false) s (fun t => t.nums = s.nums ∧ t.blobs = s.blobs ∧
      t.oda.waiting = s.oda.waiting.erase p ∧ t.oda.answer.map answerSteps = some (p.txn, 0x00070041, p.accepted)) := by
  have hwaiting : (finish { p with steps := [] } 0x00070041 (unpark p s)).oda.waiting = s.oda.waiting.erase p := by
    rw [finish_waiting, unpark_waiting]
  have hgo := goOn_of_none_behind (none_behind_erase h.unordered hwaiting)
  have honly := finish_unparked p { p with steps := [] } 0x00070041 s
  exact ends_of_next ((execNorCommitDone_false h hsteps).trans (congrArg Host.Outcome.next hgo))
    ⟨honly .nums (by decide), honly .blobs (by decide), hwaiting, answerSteps_finish _ _ _⟩

/-! ### A completion of the firmware -/

/-- The state in which the completion of a step has been taken from the ring. -/
def completed (tag : Nat) (s : State) : State := setBar (fun b =>
  { b with outstanding := b.outstanding.filter (fun r => r.tag != tag), cmpTail := (b.cmpTail + 1) % two32 }) s

theorem completed_only (tag : Nat) (s : State) : Only [.bar] s (completed tag s) := keep_setBar _ (.of_all rfl) (only_refl _ s)

theorem completed_outstanding (tag : Nat) (s : State) : ∀ q ∈ (completed tag s).bar.outstanding, q.tag ≠ tag :=
  fun q hq => by simpa using (List.mem_filter.mp hq).2

/-- Firmware is heard, and request p waits for the step of this tag. -/
structure Completing (tag : Nat) (p : Pending) (s : State) : Prop where
  heard : fwFrozen s = false
  known : ∃ r ∈ s.bar.outstanding, r.tag = tag
  waits : s.oda.waiting.find? (fun p => p.waiting == .fw tag) = some p

theorem completion_guard {tag : Nat} {p : Pending} {s : State} (h : Completing tag p s) :
    ¬ (fwFrozen s || !(s.bar.outstanding.any (fun r => r.tag == tag))) = true := by
  have hany : s.bar.outstanding.any (fun r => r.tag == tag) = true := by
    obtain ⟨r, hr, htag⟩ := h.known
    exact List.any_eq_true.mpr ⟨r, hr, by simpa using htag⟩
  rw [h.heard, hany]
  decide

theorem execFwCompletion_unknown {tag : Nat} {s : State} (h : ∀ r ∈ s.bar.outstanding, r.tag ≠ tag) (result : Nat) (v : Value) :
    execFwCompletion tag result v s = .next s := by
  have hnone : s.bar.outstanding.any (fun r => r.tag == tag) = false :=
    List.any_eq_false.mpr (fun r hr => by simpa using h r hr)
  unfold execFwCompletion
  rw [if_pos (by rw [hnone]; simp)]

theorem execFwCompletion_refused {tag result : Nat} {p : Pending} {s : State} (h : Completing tag p s) (hop : p.op = 2)
    (hne : p.steps ≠ []) (hresult : result ≠ 0) (v : Value) :
    execFwCompletion tag result v s = .next (goOn (finish { p with steps := [] } result (unpark p (completed tag s)))) := by
  obtain ⟨⟨key, ty, w⟩, l, hsteps⟩ := List.exists_cons_of_ne_nil hne
  unfold execFwCompletion
  rw [if_neg (completion_guard h), h.waits]
  extract_lets s1
  have hs1 : s1 = completed tag s := rfl
  clear_value s1
  subst hs1
  obtain ⟨sess, place, auth, txn, op, body, steps, accepted, items, held, waiting, arrival⟩ := p
  dsimp only at hop hsteps
  subst hop hsteps
  dsimp only
  split
  · next hop _ => exact absurd hop (by decide)
  · next hop => exact absurd hop (by decide)
  · next hop => exact absurd hop (by decide)
  · next hcons _ _ _ =>
    cases hcons
    rw [show fwResult _ auth key result w = result from if_pos hresult, if_pos hresult]
  · next hnil _ _ => cases hnil

theorem execFwCompletion_read {tag key ty : Nat} {d : Bool} {v : Value} {p : Pending} {s : State} (h : Completing tag p s)
    (hop : p.op = 1) (hbody : p.body = .read key ty d) (hown : 0x800000 ≤ key)
    (hfits : readFits (unpark p (completed tag s)) key v = 0) :
    execFwCompletion tag 0 v s = .next (finish { p with items := [(key, 0, some v)] } 0 (unpark p (completed tag s))) := by
  unfold execFwCompletion
  rw [if_neg (completion_guard h), h.waits]
  extract_lets s1
  have hs1 : s1 = completed tag s := rfl
  clear_value s1
  subst hs1
  have hvalue : fwValue (unpark p (completed tag s)) p key v = v := if_neg (by omega)
  have hcode : (if (0 : Nat) ≠ 0 then 0 else readFits (unpark p (completed tag s)) key v) = 0 := hfits
  obtain ⟨sess, place, auth, txn, op, body, steps, accepted, items, held, waiting, arrival⟩ := p
  dsimp only at hop hbody
  subst hop hbody
  dsimp only
  split
  · next hop => exact absurd hop (by decide)
  · next hread =>
    cases hread
    rw [hvalue, hcode, if_pos rfl]
  · next hblock => cases hblock
  · next hother _ => exact (hother _ _ _ rfl rfl).elim
  · next hother _ => exact (hother _ _ _ rfl rfl).elim

/-- A completed request leaves the numbers, and its tag is free. -/
theorem finish_completed (tag : Nat) (p q : Pending) (code : Nat) (s : State) :
    (finish q code (unpark p (completed tag s))).nums = s.nums ∧
    (finish q code (unpark p (completed tag s))).oda.waiting = s.oda.waiting.erase p ∧
    ∀ r ∈ (finish q code (unpark p (completed tag s))).bar.outstanding, r.tag ≠ tag := by
  have honly := finish_unparked p q code (completed tag s)
  refine ⟨(honly .nums (by decide)).trans (completed_only tag s .nums (by decide)), ?_, fun r hr => ?_⟩
  · rw [finish_waiting, unpark_waiting]
    rfl
  · have hbar : (finish q code (unpark p (completed tag s))).bar = (completed tag s).bar := honly .bar (by decide)
    rw [hbar] at hr
    exact completed_outstanding tag s r hr

theorem fwCompletion_refused {tag result : Nat} {p : Pending} {s : State} (h : Completing tag p s) (hop : p.op = 2)
    (hsteps : p.steps ≠ []) (hresult : result ≠ 0) (v : Value) (hbehind : ∀ q ∈ s.oda.waiting, q.waiting ≠ .behind) :
    Ends (.fwCompletion tag result v) s (fun t => t.nums = s.nums ∧ t.oda.waiting = s.oda.waiting.erase p ∧
      (∀ q ∈ t.bar.outstanding, q.tag ≠ tag) ∧ t.oda.answer.map answerSteps = some (p.txn, result, p.accepted)) := by
  obtain ⟨hnums, hwaiting, htags⟩ := finish_completed tag p { p with steps := [] } result s
  have hgo := goOn_of_none_behind (none_behind_erase hbehind hwaiting)
  exact ends_of_next ((execFwCompletion_refused h hop hsteps hresult v).trans (congrArg Host.Outcome.next hgo))
    ⟨hnums, hwaiting, htags, answerSteps_finish _ _ _⟩

theorem fwCompletion_read {tag key ty : Nat} {d : Bool} {v : Value} {p : Pending} {s : State} (h : Completing tag p s)
    (hop : p.op = 1) (hbody : p.body = .read key ty d) (hown : 0x800000 ≤ key) (hfits : readFits s key v = 0) :
    Ends (.fwCompletion tag 0 v) s (fun t => t.nums = s.nums ∧ t.oda.waiting = s.oda.waiting.erase p ∧
      (∀ q ∈ t.bar.outstanding, q.tag ≠ tag) ∧
      t.oda.answer.map (fun a => (a.txn, a.status, a.items)) = some (p.txn, 0, [(key, 0, some v)])) := by
  have hbar : (unpark p (completed tag s)).bar = (completed tag s).bar := unpark_only p _ .bar (by decide)
  have hfits' : readFits (unpark p (completed tag s)) key v = 0 := by
    refine Eq.trans ?_ hfits
    unfold readFits lenAt findEntry
    rw [hbar]
    rfl
  obtain ⟨hnums, hwaiting, htags⟩ := finish_completed tag p { p with items := [(key, 0, some v)] } 0 s
  refine ends_of_next (execFwCompletion_read h hop hbody hown hfits') ⟨hnums, hwaiting, htags, ?_⟩
  rw [finish_answer]
  rfl

/-- Settles O37: a step waits for its commit or its completion, whose end takes it from those that wait. -/
theorem odaCommitsAndCompletions : Obligations.OdaCommitsAndCompletions := by
  unfold Obligations.OdaCommitsAndCompletions
  exact ⟨fun n txn x v s h1 h2 h3 h4 hfresh hcheck hturn =>
      odaWrite_waits plain_slewMaxPpm ⟨h1, h2, h3, h4⟩ hfresh hcheck hturn,
    fun p v ty s hlanding hbehind hfind hsteps hserving =>
      norCommitDone_applies plain_slewMaxPpm ⟨hlanding, hfind, hbehind⟩ hsteps hserving,
    fun p y l s hlanding hbehind hfind hsteps => norCommitDone_fails ⟨hlanding, hfind, hbehind⟩ hsteps,
    fun tag result v s hnone => ends_of_next (execFwCompletion_unknown hnone result v) rfl,
    fun tag result v r p s hheard hbehind hr htag hfind hop hsteps hresult =>
      fwCompletion_refused ⟨hheard, ⟨r, hr, htag⟩, hfind⟩ hop hsteps hresult v hbehind,
    fun tag key ty d v r p s hheard hr htag hfind hop hbody hown hfits =>
      fwCompletion_read ⟨hheard, ⟨r, hr, htag⟩, hfind⟩ hop hbody hown hfits⟩

/-! ## The staging of blocks where the sessions are listed out of order (R370)

The room for a block counts what the sessions have staged. Nothing in the statement keeps the map of sessions in the order of
its numbers, and noting a session as alive in a list out of order lists it a second time: its blocks then count twice. -/

/-- A session of the service port with a write of 600 MiB under way. -/
def stagingSession : Session := { lastSeqSession with
  txSeq := 5
  subs := []
  blocks := [(3, ⟨0x413006, true, 629145600, [], [], 999999⟩)] }

/-- Session 1 stages 600 MiB and is listed after session 2. -/
def sessionsOutOfOrder : State := { State.reset with
  part := { Part.init with st := .ready }
  oda := { Oda.init with serving := true, sessions := [(2, lastSeqSession), (1, stagingSession)] } }

/-- Refutes O39: a write of 16 bytes fits beside the 600 MiB, yet it is refused. -/
theorem not_blockTransfers : ¬ Obligations.BlockTransfers := by
  unfold Obligations.BlockTransfers
  intro h
  obtain ⟨-, -, -, hstart, -⟩ := h
  obtain ⟨-, hanswer, -⟩ := ends_stateAfter (hstart 1 80 stagingSession 0x413005 0 16 sessionsOutOfOrder (by decide +kernel)
    (by decide +kernel) (by decide +kernel) (by decide +kernel) (by decide +kernel) (by decide +kernel) (by decide +kernel)
    (by decide +kernel))
  have hrefused : (stateAfter (.blockWriteStart 1 80 0x413005 0 16) sessionsOutOfOrder).oda.answer.map (·.status) =
      some 0x00070011 := by decide +kernel
  have hstatus := congrArg (Option.map (fun p : Nat × Nat × List (Nat × Nat × Option Value) => p.2.1)) hanswer
  rw [Option.map_map] at hstatus
  exact absurd (hrefused.symm.trans hstatus) (by decide)

/-! ## What the operations of an update do to Barley (R447)

Each of them sets fields of Barley; a change of UPDATE_STATE also raises an event and an interrupt. The equations below give
Barley's state after each, up to the interrupts. -/

/-- Barley without its pending interrupts. -/
def besideIrqs (b : Barley) : Barley := { b with irqs := [] }

theorem raiseIrq_bar (source core : Nat) (s : State) : besideIrqs (raiseIrq source core s).bar = besideIrqs s.bar := by
  unfold raiseIrq
  extract_lets e
  split <;> rfl

theorem routeIrq_bar (source : Nat) (s : State) : besideIrqs (routeIrq source s).bar = besideIrqs s.bar := by
  unfold routeIrq
  extract_lets w
  split
  · exact raiseIrq_bar _ _ s
  · rfl

/-- Barley in a state of the update. -/
def withUpd (st : UpdState) (b : Barley) : Barley := { b with upd := st }

/-- Barley in a state of the update with its error code. -/
def withError (st : UpdState) (code : Nat) (b : Barley) : Barley := { b with upd := st, updError := code }

theorem setUpd_bar (st : UpdState) (s : State) : besideIrqs (setUpd st s).bar = besideIrqs (withUpd st s.bar) :=
  routeIrq_bar 293 _

theorem updError_bar (st : UpdState) (code : Nat) (s : State) :
    besideIrqs (updError st code s).bar = besideIrqs (withError st code s.bar) := setUpd_bar st _

theorem setUpd_only (st : UpdState) (s : State) : Only [.ev, .nut, .bar] s (setUpd st s) :=
  keep_setUpd st (.of_all rfl) (only_refl _ s)

/-- Barley's state, of which a change of interrupts is known. -/
theorem bar_of_besideIrqs {b c : Barley} (h : besideIrqs b = besideIrqs c) : b = { c with irqs := b.irqs } :=
  (congrArg (fun x : Barley => { x with irqs := b.irqs }) h :)

/-- Barley after the update's data are dropped. -/
def droppedUpdate (b : Barley) : Barley :=
  { b with
    updImage := none
    updStarted := false
    takeT := none
    holdOn := false
    finalWritten := false
    acceptWritten := false
    healthPassed := false
    confirmed := false
    journal := [] }

/-- Barley with a slot replaced. -/
def withSlot (k : Nat) (x : FwSlot) (b : Barley) : Barley := if k = 0 then { b with slotA := x } else { b with slotB := x }

/-- The slot k of Barley's state. -/
def slotIn (b : Barley) (k : Nat) : FwSlot := if k = 0 then b.slotA else b.slotB

@[simp] theorem slotIn_withSlot (k : Nat) (x : FwSlot) (b : Barley) : slotIn (withSlot k x b) k = x := by
  unfold slotIn withSlot
  split <;> rfl

/-- A change of Barley that keeps the slots, and does not depend on them, comes before or after one of a slot. -/
theorem withSlot_comm (f : Barley → Barley) (hA : ∀ (b : Barley) (y : FwSlot), f { b with slotA := y } = { f b with slotA := y })
    (hB : ∀ (b : Barley) (y : FwSlot), f { b with slotB := y } = { f b with slotB := y }) (k : Nat) (x : FwSlot) (b : Barley) :
    f (withSlot k x b) = withSlot k x (f b) := by
  unfold withSlot
  split
  · exact hA b x
  · exact hB b x

theorem withUpd_withSlot (st : UpdState) (k : Nat) (x : FwSlot) (b : Barley) :
    withUpd st (withSlot k x b) = withSlot k x (withUpd st b) := withSlot_comm _ (fun _ _ => rfl) (fun _ _ => rfl) k x b

theorem withError_dropped_withSlot (st : UpdState) (code k : Nat) (x : FwSlot) (b : Barley) :
    withError st code (droppedUpdate (withSlot k x b)) = withSlot k x (withError st code (droppedUpdate b)) :=
  withSlot_comm (fun b => withError st code (droppedUpdate b)) (fun _ _ => rfl) (fun _ _ => rfl) k x b

/-- Barley without its pending interrupts and its slots. -/
def besideSlots (b : Barley) : Barley := { b with irqs := [], slotA := ⟨.valid, none⟩, slotB := ⟨.valid, none⟩ }

theorem besideSlots_withSlot (k : Nat) (x : FwSlot) (b : Barley) : besideSlots (withSlot k x b) = besideSlots b := by
  unfold besideSlots withSlot
  split <;> rfl

/-- A state in which Barley is b with slot k holding x. -/
theorem slotted {t : State} {k : Nat} {x : FwSlot} {b : Barley} (h : besideIrqs t.bar = besideIrqs (withSlot k x b)) :
    slotOf t k = x ∧ besideSlots t.bar = besideSlots b :=
  ⟨(congrArg (slotIn · k) h :).trans (slotIn_withSlot k x b), (congrArg besideSlots h :).trans (besideSlots_withSlot k x b)⟩

/-- A shadow and a parked cluster are turned off. -/
def idleOff (c : Cluster) : Cluster := if c.role = .shadow ∨ c.role = .parked then Cluster.init else c

theorem idleOff_role (c : Cluster) : (idleOff c).role ≠ .shadow ∧ (idleOff c).role ≠ .parked := by
  unfold idleOff
  split
  · exact ⟨by decide, by decide⟩
  · next h => exact ⟨fun e => h (.inl e), fun e => h (.inr e)⟩

theorem otherOff_role (s : State) (c : Fin 2) : roleOf (otherOff s) c ≠ .shadow ∧ roleOf (otherOff s) c ≠ .parked := by
  have hcluster : (otherOff s).bar.clusters.get c = idleOff (s.bar.clusters.get c) := Vector.getElem_map _ _
  unfold roleOf
  rw [hcluster]
  exact idleOff_role _

/-! ## An update is written and verified (R446, R447) -/

theorem startUpdate_bar (bs : List Byte) (s : State) : besideIrqs (startUpdate bs s).bar = besideIrqs
    (withSlot (otherSlot s.bar.bootSlot) ⟨.writing, none⟩
      (withUpd .writing { droppedUpdate s.bar with updImage := some (parseFw s bs), updError := 0 })) := by
  unfold startUpdate
  extract_lets s1 s2
  rw [noteDegraded_bar, setUpd_bar]
  exact congrArg besideIrqs (withUpd_withSlot _ _ _ _)

/-- An image that is accepted begins the update of the other slot. -/
theorem updateImage_starts {au : Auth} {image : List Byte} {s : State} (hup : s.oda.serving = true)
    (hcheck : precheck s au UpdateImageKey 0 (.bytes image) = 0) (hhome : updateHome image s = 0) :
    Ends (.updateImageWriteEnd au image) s (fun t => t.bar.upd = .writing ∧ t.bar.updImage = some (parseFw s image) ∧
      t.bar.updError = 0 ∧ slotOf t (otherSlot s.bar.bootSlot) = ⟨.writing, none⟩ ∧ t.bar.bootSlot = s.bar.bootSlot ∧
      t.bar.fwImage = s.bar.fwImage ∧ t.bar.control = s.bar.control) := by
  refine write_ends_of_only hup hcheck hhome (fun _ u hu => ?_)
  have hbar : u.bar = s.bar := hu .bar (by decide)
  have hparse : parseFw u image = parseFw s image := by
    unfold parseFw firmwareSigned
    rw [show u.ident = s.ident from hu .ident (by decide)]
  have hstart := startUpdate_bar image u
  rw [hbar, hparse] at hstart
  obtain ⟨hslot, hrest⟩ := slotted hstart
  exact ⟨(congrArg Barley.upd hrest :), (congrArg Barley.updImage hrest :), (congrArg Barley.updError hrest :), hslot,
    (congrArg Barley.bootSlot hrest :), (congrArg Barley.fwImage hrest :), (congrArg Barley.control hrest :)⟩

/-- The programming ends and verifying begins. -/
theorem programDone_verifies {s : State} (h : s.bar.upd = .writing) : Ends (.updateProgramDone true) s (fun t =>
    t.bar = { s.bar with upd := .verifying, irqs := t.bar.irqs } ∧ t.part = s.part) := by
  obtain ⟨n, hexec⟩ : ∃ n, execUpdateProgramDone true s = .next (setUpd .verifying (setN s Obj.updateProgress n)) := by
    unfold execUpdateProgramDone
    rw [if_neg (by simp [h]), if_pos rfl]
    exact ⟨_, rfl⟩
  refine ends_of_next hexec ?_
  exact ⟨bar_of_besideIrqs (c := withUpd .verifying s.bar) (setUpd_bar _ _), setUpd_only _ _ .part (by decide)⟩

theorem failSlot_bar (code : Nat) (s : State) : besideIrqs (failSlot code s).bar = besideIrqs
    (withSlot (otherSlot s.bar.bootSlot) ⟨.invalid, none⟩ (withError .failed code (droppedUpdate s.bar))) := by
  unfold failSlot
  rw [noteDegraded_bar, updError_bar]
  exact congrArg besideIrqs (withError_dropped_withSlot _ _ _ _ _)

/-- What a failed update leaves: its code, the slot it wrote, and the firmware in control and its boot selector. -/
structure UpdateFailed (code : Nat) (slot : FwSlot) (s t : State) : Prop where
  upd : t.bar.upd = .failed
  error : t.bar.updError = code
  control : t.bar.control = s.bar.control
  fwImage : t.bar.fwImage = s.bar.fwImage
  bootSlot : t.bar.bootSlot = s.bar.bootSlot
  slot : slotOf t (otherSlot s.bar.bootSlot) = slot

theorem updateFailed_failSlot (code : Nat) (s : State) : UpdateFailed code ⟨.invalid, none⟩ s (failSlot code s) := by
  obtain ⟨hslot, hrest⟩ := slotted (failSlot_bar code s)
  exact ⟨(congrArg Barley.upd hrest :), (congrArg Barley.updError hrest :), (congrArg Barley.control hrest :),
    (congrArg Barley.fwImage hrest :), (congrArg Barley.bootSlot hrest :), hslot⟩

theorem execUpdateProgramDone_false {s : State} (h : s.bar.upd = .writing) :
    execUpdateProgramDone false s = .next (failSlot 0x00071502 s) := by
  unfold execUpdateProgramDone
  rw [if_neg (by simp [h]), if_neg (by decide)]

/-! ### The outcomes of the verification -/

/-- The checks of an image that Cardamom and Barley make of it, in their order (Table 15.10). -/
def imageFault (s : State) (x : FwImage) : Nat :=
  if x.trusted = false then 0x00091501
  else if x.rollback < rollbackCtr s then 0x00091502
  else if x.layout ≠ Config.layoutDigest then 0x00041502
  else 0

theorem execUpdateVerifyDone_fails {x : FwImage} {s : State} (hupd : s.bar.upd = .verifying) (hx : s.bar.updImage = some x)
    (hfault : imageFault s x ≠ 0) : execUpdateVerifyDone s = .next (failSlot (imageFault s x) s) := by
  unfold execUpdateVerifyDone imageFault at *
  rw [hupd, hx]
  dsimp only
  split at hfault
  · next htrust => rw [if_pos (by simp [htrust]), if_pos htrust]
  · next htrust =>
    rw [if_neg (by simpa using htrust), if_neg htrust]
    split at hfault
    · next hold => rw [if_pos hold, if_pos hold]
    · next hold =>
      rw [if_neg hold, if_neg hold]
      split at hfault
      · next hlayout => rw [if_pos hlayout, if_pos hlayout]
      · exact absurd rfl hfault

/-- The state in which the slot of an update holds its verified image. -/
def verified (x : FwImage) (s : State) : State := setSlot (otherSlot s.bar.bootSlot) ⟨.valid, some x⟩ s

theorem execUpdateVerifyDone_passes {x : FwImage} {s : State} (hupd : s.bar.upd = .verifying) (hx : s.bar.updImage = some x)
    (hfault : imageFault s x = 0) : execUpdateVerifyDone s = .next
      (if getN s Obj.updateMode = 1 then noteDegraded (setUpd .pendingRestart (setBar (fun b =>
          { b with bootSlot := otherSlot s.bar.bootSlot, restartTrial := true }) (dropUpdate (verified x s))))
        else if formatsFit s x = false then noteDegraded (updError .failed 0x00041503 (dropUpdate (verified x s)))
        else setUpd .shadowBoot (verified x s)) := by
  unfold imageFault at hfault
  split at hfault
  · cases hfault
  next htrust =>
  split at hfault
  · cases hfault
  next hold =>
  split at hfault
  · cases hfault
  next hlayout =>
  unfold execUpdateVerifyDone
  rw [hupd, hx]
  dsimp only
  rw [if_neg (by simpa using htrust), if_neg hold, if_neg hlayout]
  split
  · rfl
  · cases formatsFit s x <;> rfl

/-! ### The image passed (R447) -/

theorem imageFault_of_fine {x : FwImage} {s : State} (htrust : x.trusted = true) (hlayout : x.layout = Config.layoutDigest)
    (hroll : rollbackCtr s ≤ x.rollback) : imageFault s x = 0 := by
  unfold imageFault
  rw [if_neg (by simp [htrust]), if_neg (Nat.not_lt.mpr hroll), if_neg (by simp [hlayout])]

theorem imageFault_of_bad {x : FwImage} {s : State} (h : x.trusted = false ∨ x.rollback < rollbackCtr s ∨ x.layout ≠ Config.layoutDigest) :
    imageFault s x = (if x.trusted = false then 0x00091501 else if x.rollback < rollbackCtr s then 0x00091502 else 0x00041502) ∧
    imageFault s x ≠ 0 := by
  unfold imageFault
  split
  · exact ⟨rfl, by decide⟩
  next htrust =>
  split
  · exact ⟨rfl, by decide⟩
  next hold =>
  rcases h with h | h | h
  · exact absurd h htrust
  · exact absurd h hold
  · rw [if_pos h]
    exact ⟨rfl, by decide⟩

/-- Barley where an image waits for the restart. -/
def awaitingRestart (b : Barley) : Barley :=
  withUpd .pendingRestart { droppedUpdate b with bootSlot := otherSlot b.bootSlot, restartTrial := true }

/-- The verified image waits for a restart under its slot. -/
theorem verifyDone_pending {x : FwImage} {s : State} (hupd : s.bar.upd = .verifying) (hx : s.bar.updImage = some x)
    (hfault : imageFault s x = 0) (hmode : getN s Obj.updateMode = 1) : Ends .updateVerifyDone s (fun t =>
      t.bar.upd = .pendingRestart ∧ t.bar.bootSlot = otherSlot s.bar.bootSlot ∧ slotOf t t.bar.bootSlot = ⟨.valid, some x⟩ ∧
      t.bar.restartTrial = true ∧ t.bar.fwImage = s.bar.fwImage ∧ t.bar.control = s.bar.control) := by
  have hexec := execUpdateVerifyDone_passes hupd hx hfault
  rw [if_pos hmode] at hexec
  refine ends_of_next hexec ?_
  have hbar : besideIrqs (noteDegraded (setUpd .pendingRestart (setBar (fun b =>
      { b with bootSlot := otherSlot s.bar.bootSlot, restartTrial := true }) (dropUpdate (verified x s))))).bar =
      besideIrqs (withSlot (otherSlot s.bar.bootSlot) ⟨.valid, some x⟩ (awaitingRestart s.bar)) := by
    rw [noteDegraded_bar, setUpd_bar]
    exact congrArg besideIrqs (withSlot_comm (fun b => withUpd .pendingRestart
      { droppedUpdate b with bootSlot := otherSlot s.bar.bootSlot, restartTrial := true }) (fun _ _ => rfl) (fun _ _ => rfl) _ _ _)
  obtain ⟨hslot, hrest⟩ := slotted hbar
  generalize noteDegraded _ = t at hslot hrest
  have hboot : t.bar.bootSlot = otherSlot s.bar.bootSlot := (congrArg Barley.bootSlot hrest :)
  exact ⟨(congrArg Barley.upd hrest :), hboot, hboot ▸ hslot, (congrArg Barley.restartTrial hrest :),
    (congrArg Barley.fwImage hrest :), (congrArg Barley.control hrest :)⟩

/-- The verified image goes on to a shadow that runs it. -/
theorem verifyDone_shadow {x : FwImage} {s : State} (hupd : s.bar.upd = .verifying) (hx : s.bar.updImage = some x)
    (hfault : imageFault s x = 0) (hmode : getN s Obj.updateMode ≠ 1) (hfits : formatsFit s x = true) :
    Ends .updateVerifyDone s (fun t => t.bar.upd = .shadowBoot ∧ slotOf t (otherSlot s.bar.bootSlot) = ⟨.valid, some x⟩ ∧
      t.bar.bootSlot = s.bar.bootSlot ∧ t.bar.fwImage = s.bar.fwImage) := by
  have hexec := execUpdateVerifyDone_passes hupd hx hfault
  rw [if_neg hmode, if_neg (by simp [hfits])] at hexec
  refine ends_of_next hexec ?_
  have hbar : besideIrqs (setUpd .shadowBoot (verified x s)).bar =
      besideIrqs (withSlot (otherSlot s.bar.bootSlot) ⟨.valid, some x⟩ (withUpd .shadowBoot s.bar)) := by
    rw [setUpd_bar]
    exact congrArg besideIrqs (withUpd_withSlot _ _ _ _)
  obtain ⟨hslot, hrest⟩ := slotted hbar
  exact ⟨(congrArg Barley.upd hrest :), hslot, (congrArg Barley.bootSlot hrest :), (congrArg Barley.fwImage hrest :)⟩

/-- The handover formats of the verified image do not fit: the update fails, its slot stays valid. -/
theorem verifyDone_unfit {x : FwImage} {s : State} (hupd : s.bar.upd = .verifying) (hx : s.bar.updImage = some x)
    (hfault : imageFault s x = 0) (hmode : getN s Obj.updateMode ≠ 1) (hfits : formatsFit s x = false) :
    Ends .updateVerifyDone s (UpdateFailed 0x00041503 ⟨.valid, some x⟩ s) := by
  have hexec := execUpdateVerifyDone_passes hupd hx hfault
  rw [if_neg hmode, if_pos hfits] at hexec
  refine ends_of_next hexec ?_
  have hbar : besideIrqs (noteDegraded (updError .failed 0x00041503 (dropUpdate (verified x s)))).bar = besideIrqs
      (withSlot (otherSlot s.bar.bootSlot) ⟨.valid, some x⟩ (withError .failed 0x00041503 (droppedUpdate s.bar))) := by
    rw [noteDegraded_bar, updError_bar]
    exact congrArg besideIrqs (withError_dropped_withSlot _ _ _ _ _)
  obtain ⟨hslot, hrest⟩ := slotted hbar
  exact ⟨(congrArg Barley.upd hrest :), (congrArg Barley.updError hrest :), (congrArg Barley.control hrest :),
    (congrArg Barley.fwImage hrest :), (congrArg Barley.bootSlot hrest :), hslot⟩

/-! ## The shadow (R447 to R449) -/

theorem other_ne_ctrl (s : State) : 1 - ctrl s ≠ ctrl s := by
  unfold ctrl
  split <;> decide

theorem roleOf_updCluster_same (c : Fin 2) (f : Cluster → Cluster) (s : State) :
    roleOf (updCluster c f s) c = (f (s.bar.clusters.get c)).role := by
  unfold roleOf
  rw [updCluster_clusters_same]

theorem roleOf_updCluster_other {c d : Fin 2} (h : c ≠ d) (f : Cluster → Cluster) (s : State) :
    roleOf (updCluster c f s) d = roleOf s d := congrArg Cluster.role (vupd_get_other s.bar.clusters c d f h)

/-- The streamed shadow is released. -/
theorem shadowStream_releases {s : State} (hupd : s.bar.upd = .shadowBoot) (hnot : s.bar.updStarted = false) :
    Ends .shadowStreamDone s (fun t => roleOf t (1 - ctrl s) = .shadow ∧ roleOf t (ctrl s) = roleOf s (ctrl s) ∧
      t.bar.updStarted = true ∧ t.bar.shadowDue = s.clk.cycles + sCycles 10 ∧ t.bar.upd = .shadowBoot) := by
  have hexec : execShadowStreamDone s = .next (setBar
      (fun b => { b with updStarted := true, shadowDue := s.clk.cycles + sCycles 10 })
      (updCluster (1 - ctrl s) (fun _ => { Cluster.init with role := .shadow, wdogDue := s.clk.cycles + wdogCycles }) s)) :=
    if_neg (by simp [hupd, hnot])
  exact ends_of_next hexec ⟨roleOf_updCluster_same _ _ s, roleOf_updCluster_other (other_ne_ctrl s) _ s, rfl, rfl, hupd⟩

theorem handover_of_right {c : Fin 2} {role : Role} {st : UpdState} {more : Bool} {s : State} (hup : s.part.reset = false)
    (hrole : roleOf s c = role) (hupd : s.bar.upd = st) (hmore : more = true) (f : State → State) :
    handover c role st more f s = f (routeIrq 293 s) := by
  unfold handover
  rw [if_neg (by simp [hup]), if_pos (by simp [hrole, hupd, hmore])]

theorem handover_of_wrong {c : Fin 2} {role : Role} {st : UpdState} {more : Bool} {s : State} (hup : s.part.reset = false)
    (h : (decide (roleOf s c = role) && decide (s.bar.upd = st) && more) = false) (f : State → State) :
    handover c role st more f s = ignored s := by
  unfold handover
  rw [if_neg (by simp [hup]), if_neg (by rw [h]; decide)]

theorem setUpd_routed_bar (st : UpdState) (s : State) :
    besideIrqs (setUpd st (routeIrq 293 s)).bar = besideIrqs (withUpd st s.bar) := by
  rw [setUpd_bar]
  exact (congrArg (withUpd st) (routeIrq_bar 293 s) :)

theorem shadowHello_syncs {c : Fin 2} {s : State} (hup : s.part.reset = false) (hrole : roleOf s c = .shadow)
    (hupd : s.bar.upd = .shadowBoot) : Ends (.shadowHello c) s (fun t => t.bar.upd = .shadowSync ∧
      t.bar.clusters = s.bar.clusters ∧ t.bar.fwImage = s.bar.fwImage) := by
  refine ends_of_next (congrArg Host.Outcome.next (handover_of_right hup hrole hupd rfl _)) ?_
  have hbar := setUpd_routed_bar .shadowSync s
  exact ⟨(congrArg Barley.upd hbar :), (congrArg Barley.clusters hbar :), (congrArg Barley.fwImage hbar :)⟩

theorem shadowHello_ignored {c : Fin 2} {s : State} (hup : s.part.reset = false)
    (h : roleOf s c ≠ .shadow ∨ s.bar.upd ≠ .shadowBoot) : Ends (.shadowHello c) s (fun t => t.bar = s.bar ∧
      getN t Obj.handoverIgnored = getN (inc32 s Obj.handoverIgnored) Obj.handoverIgnored ∧ t.part = s.part) := by
  have hwrong : (decide (roleOf s c = .shadow) && decide (s.bar.upd = .shadowBoot) && true) = false := by
    rcases h with h | h <;> simp [h]
  exact ends_of_next (congrArg Host.Outcome.next (handover_of_wrong hup hwrong _)) ⟨rfl, rfl, rfl⟩

/-- Barley with a shadow and a parked cluster turned off. -/
def idleOffBar (b : Barley) : Barley := { b with clusters := b.clusters.map idleOff }

theorem failShadow_bar (code : Nat) (s : State) : besideIrqs (failShadow code s).bar =
    besideIrqs (withError .failed code (droppedUpdate (idleOffBar s.bar))) := by
  unfold failShadow
  rw [noteDegraded_bar, updError_bar]
  rfl

theorem failShadow_role (code : Nat) (s : State) (c : Fin 2) : roleOf (failShadow code s) c ≠ .shadow := by
  have hrole : roleOf (failShadow code s) c = roleOf (otherOff s) c :=
    (congrArg (fun b : Barley => (b.clusters.get c).role) (failShadow_bar code s) :)
  rw [hrole]
  exact (otherOff_role s c).1

theorem failShadow_clk (code : Nat) (s : State) : (failShadow code s).clk = s.clk :=
  keep_failShadow (L := [.part, .ev, .nut, .bar]) code (.of_all rfl) (only_refl _ s) .clk (by decide)

theorem shadowTimeout_fails {s : State} (hupd : s.bar.upd = .shadowBoot) (hstarted : s.bar.updStarted = true) :
    Ends .shadowBootTimeout s (fun t => t.bar.upd = .failed ∧ t.bar.updError = 0x00071503 ∧ t.bar.control = s.bar.control ∧
      t.bar.fwImage = s.bar.fwImage ∧ t.bar.bootSlot = s.bar.bootSlot ∧ (∀ c : Fin 2, roleOf t c ≠ .shadow) ∧
      t.clk = (tickTo s.bar.shadowDue s).clk) := by
  have hexec : execShadowBootTimeout s = .next (failShadow 0x00071503 (tickTo s.bar.shadowDue s)) :=
    if_pos (by simp [hupd, hstarted])
  refine ends_of_next hexec ?_
  have hbar := failShadow_bar 0x00071503 (tickTo s.bar.shadowDue s)
  have hsame : (tickTo s.bar.shadowDue s).bar = s.bar := by
    obtain ⟨k, hk⟩ := tickTo_eq_with_clk s.bar.shadowDue s
    rw [hk]
  rw [hsame] at hbar
  exact ⟨(congrArg Barley.upd hbar :), (congrArg Barley.updError hbar :), (congrArg Barley.control hbar :),
    (congrArg Barley.fwImage hbar :), (congrArg Barley.bootSlot hbar :), failShadow_role _ _, failShadow_clk _ _⟩

/-! ### The frame of the take-over (R449) -/

theorem le_ceilDiv_mul (a : Nat) {b : Nat} (hb : b ≠ 0) : a ≤ ceilDiv a b * b := by
  have h := Nat.lt_div_mul_add (Nat.pos_of_ne_zero hb) (a := a + b - 1)
  unfold ceilDiv
  omega

theorem chooseT_of_routed (s : State) : chooseT (routeIrq 293 s) = chooseT s := by
  have honly : Only [.bar] s (routeIrq 293 s) := keep_routeIrq 293 (.of_all rfl) (only_refl _ s)
  have hnums : (routeIrq 293 s).nums = s.nums := honly .nums (by decide)
  have hclk : (routeIrq 293 s).clk = s.clk := honly .clk (by decide)
  have hpart : (routeIrq 293 s).part = s.part := honly .part (by decide)
  unfold chooseT startOf frameNs now getN
  rw [hnums, hclk, hpart]

theorem updateAt_le_chooseT (s : State) : getN s Obj.updateAt ≤ (chooseT s).1 := by
  unfold chooseT
  extract_lets f c n m
  split
  · exact Nat.le_max_left _ _
  · exact Nat.le_max_left _ _

/-- Outside RUN the take-over lies two frames away at least, at a multiple of the frame. -/
theorem chooseT_outside_run {s : State} (hst : s.part.st ≠ .run) (hf : frameNs s ≠ 0) :
    now s + 2 * frameNs s ≤ (chooseT s).2 ∧ (chooseT s).2 = (chooseT s).1 * frameNs s := by
  unfold chooseT
  extract_lets f c n m
  rw [if_neg hst]
  refine ⟨?_, rfl⟩
  calc now s + 2 * frameNs s ≤ ceilDiv c f * f := le_ceilDiv_mul _ hf
    _ ≤ m * f := Nat.mul_le_mul_right _ (Nat.le_max_right _ _)

theorem beginReady_bar (s : State) : besideIrqs (beginReady s).bar =
    besideIrqs (withUpd .shadowReady { s.bar with takeT := some (chooseT s).1, takeAt := (chooseT s).2 }) := setUpd_bar _ _

theorem beginReady_takeover (s : State) : getN (beginReady s) Obj.updateTakeoverFrame = (chooseT s).1 := by
  have hnums : (beginReady s).nums = (setN (setBar (fun b => { b with takeT := some (chooseT s).1, takeAt := (chooseT s).2 }) s)
      Obj.updateTakeoverFrame (chooseT s).1).nums := setUpd_only _ _ .nums (by decide)
  rw [getN_of_nums_eq hnums]
  exact getN_setN_same _ _ _

theorem shadowReady_chooses {c : Fin 2} {s : State} (hup : s.part.reset = false) (hrole : roleOf s c = .shadow)
    (hupd : s.bar.upd = .shadowSync) : Ends (.shadowReady c) s (fun t => t.bar.upd = .shadowReady ∧
      t.bar.takeT = some (chooseT s).1 ∧ t.bar.takeAt = (chooseT s).2 ∧ getN t Obj.updateTakeoverFrame = (chooseT s).1 ∧
      getN s Obj.updateAt ≤ (chooseT s).1 ∧ (s.part.st ≠ .run → frameNs s ≠ 0 →
        now s + 2 * frameNs s ≤ t.bar.takeAt ∧ t.bar.takeAt = (chooseT s).1 * frameNs s)) := by
  refine ends_of_next (congrArg Host.Outcome.next (handover_of_right hup hrole hupd rfl _)) ?_
  have hbar := beginReady_bar (routeIrq 293 s)
  have hframe := beginReady_takeover (routeIrq 293 s)
  rw [chooseT_of_routed] at hbar hframe
  have hat : (beginReady (routeIrq 293 s)).bar.takeAt = (chooseT s).2 := (congrArg Barley.takeAt hbar :)
  refine ⟨(congrArg Barley.upd hbar :), (congrArg Barley.takeT hbar :), hat, hframe, updateAt_le_chooseT s, fun hst hf => ?_⟩
  rw [hat]
  exact chooseT_outside_run hst hf

/-- Settles O49: each step of the update sets its part of Barley and leaves the firmware in control. -/
theorem updateToShadowReady : Obligations.UpdateToShadowReady := by
  unfold Obligations.UpdateToShadowReady
  refine ⟨fun au image s hup hcheck hhome => updateImage_starts hup hcheck hhome, fun s h => programDone_verifies h, fun s h => ?_,
    fun x s hupd hx htrust hlayout hroll hmode =>
      verifyDone_pending hupd hx (imageFault_of_fine htrust hlayout hroll) hmode,
    fun x s hupd hx htrust hlayout hroll hmode hfits =>
      verifyDone_shadow hupd hx (imageFault_of_fine htrust hlayout hroll) hmode hfits,
    fun x s hupd hx htrust hlayout hroll hmode hfits => ?_, fun x s hupd hx hbad => ?_,
    fun s hupd hnot => shadowStream_releases hupd hnot,
    fun c s hup hrole hupd => shadowHello_syncs hup hrole hupd, fun c s hup h => shadowHello_ignored hup h,
    fun s hupd hstarted => shadowTimeout_fails hupd hstarted,
    fun c s hup hrole hupd => shadowReady_chooses hup hrole hupd⟩
  · obtain ⟨hupd, herror, hcontrol, hfw, hboot, hslot⟩ := updateFailed_failSlot 0x00071502 s
    exact ends_of_next (execUpdateProgramDone_false h) ⟨hupd, herror, hcontrol, hfw, hboot, hslot⟩
  · exact ends_mono (verifyDone_unfit hupd hx (imageFault_of_fine htrust hlayout hroll) hmode hfits)
      (fun t ⟨hfailed, herror, hcontrol, hfw, hboot, hslot⟩ => ⟨hfailed, herror, hcontrol, hfw, hboot, hslot⟩)
  · obtain ⟨hcode, hfault⟩ := imageFault_of_bad hbad
    obtain ⟨hfailed, herror, -, hfw, hboot, hslot⟩ := updateFailed_failSlot (imageFault s x) s
    exact ends_of_next (execUpdateVerifyDone_fails hupd hx hfault) ⟨hfailed, herror.trans hcode, hslot, hfw, hboot⟩

/-! ## The firmware goes down (R335, R423)

Its outstanding steps abort and its channels and waits are dropped. A dropped channel may still write a sync cell, and a slot
that fires may interrupt a core; of Barley nothing else changes. -/

/-- Of Barley, at most the interrupts changed. -/
def IrqsOnly (s t : State) : Prop := besideIrqs t.bar = besideIrqs s.bar

theorem IrqsOnly.refl (s : State) : IrqsOnly s s := rfl

theorem IrqsOnly.trans {s t u : State} (h : IrqsOnly s t) (k : IrqsOnly t u) : IrqsOnly s u := Eq.trans k h

theorem IrqsOnly.of_only {L : List Area} {s t : State} (h : Only L s t) (hbar : Area.bar ∉ L) : IrqsOnly s t :=
  congrArg besideIrqs (h .bar hbar : t.bar = s.bar)

theorem IrqsOnly.ite {s a b : State} {c : Prop} [Decidable c] (ha : IrqsOnly s a) (hb : IrqsOnly s b) :
    IrqsOnly s (if c then a else b) := by
  split
  · exact ha
  · exact hb

theorem irqsOnly_tryFire (k : Nat) (s : State) : IrqsOnly s (tryFire k s) := by
  unfold tryFire
  extract_lets x v s1 s2
  have hs2 : IrqsOnly s s2 := IrqsOnly.trans (t := s1) rfl (.ite (raiseIrq_bar _ _ s1) (.refl s1))
  exact .ite (.ite (hs2.trans (.of_only (keep_raiseMain (L := [.ev, .nut]) _ _ _ (.of_all rfl) (only_refl _ _)) (by decide))) hs2)
    (.refl s)

theorem irqsOnly_cellChanged (c : Nat) (s : State) : IrqsOnly s (cellChanged c s) :=
  forEach_keeps (P := IrqsOnly s) (fun k u hu => hu.trans (irqsOnly_tryFire k u)) (.refl s)

theorem irqsOnly_signalCell (c n : Nat) (s : State) : IrqsOnly s (signalCell c n s) :=
  IrqsOnly.trans (t := putCell c (cellAt s c + n) s) rfl (irqsOnly_cellChanged c _)

theorem irqsOnly_setCell (c v : Nat) (s : State) : IrqsOnly s (setCell c v s) := by
  unfold setCell
  extract_lets s1
  exact .ite (IrqsOnly.trans (t := s1) rfl (irqsOnly_cellChanged c s1)) rfl

theorem irqsOnly_waitWrite (k off w : Nat) (s : State) : IrqsOnly s (waitWrite k off w s) := by
  unfold waitWrite
  extract_lets x y
  exact .ite (.ite (IrqsOnly.trans (t := putSlot k { y with arm := true, fired := false } s) rfl (irqsOnly_tryFire k _)) rfl)
    (.ite rfl (.refl s))

theorem irqsOnly_putPlain (b : Burst) (ws : List Nat) (s : State) : IrqsOnly s (putPlain b ws s) := by
  refine List.foldlRecOn _ _ (IrqsOnly.refl s) (fun u hu p _ => hu.trans ?_)
  dsimp only
  split
  · exact .ite (irqsOnly_waitWrite _ _ _ u) (.ite (.refl u) (.ite (irqsOnly_signalCell _ _ u) (.ite (irqsOnly_setCell _ _ u) (.refl u))))
  · exact .refl u

theorem irqsOnly_spill (c : Fin 32) (b : Burst) (s : State) : IrqsOnly s (spill c b s) := by
  unfold spill
  extract_lets x bs s0 s1 s2
  have hs0 : IrqsOnly s s0 := .ite rfl (.refl s)
  have hs1 : IrqsOnly s s1 := by
    unfold s1
    split
    · exact hs0
    · exact hs0
  have hs2 : IrqsOnly s s2 := by
    unfold s2
    split
    · exact hs1.trans (irqsOnly_putPlain _ _ s1)
    · refine hs1.trans (IrqsOnly.trans ?_ (.of_only (L := [.nums, .eng, .mem]) (keep_clearPoison _ _ (.of_all rfl) (only_refl _ _))
        (by decide)))
      exact List.foldlRecOn _ _ (IrqsOnly.refl s1) (fun u hu x _ => hu.trans
        (.of_only (L := [.eng, .mem]) (keep_writeByte _ _ (.of_all rfl) (only_refl _ u)) (by decide)))
  exact hs2.trans (.of_only (L := [.nums]) (keep_milletBytes _ _ (.of_all rfl) (only_refl _ s2)) (by decide))

theorem irqsOnly_dropChan (c : Fin 32) (s : State) : IrqsOnly s (dropChan c s) := by
  unfold dropChan
  extract_lets off s1
  have hs1 : IrqsOnly s s1 := forEach_keeps (fun b u hu => hu.trans (.ite (irqsOnly_spill _ _ _) rfl)) (.refl s)
  refine .ite ?_ rfl
  refine IrqsOnly.trans (hs1.trans (rfl : IrqsOnly s1 (takeFree 64 s1).2)) ?_
  exact .of_only (L := [.mem, .eng]) (keep_endRun c (.of_all rfl) (keep_updDma _ _ (.of_all rfl) (keep_updDma _ _ (.of_all rfl)
    (only_forAll _ _ (fun t u hu => keep_updTile (L := [.mem, .eng]) _ _ (.of_all rfl) hu) (only_refl _ _))))) (by decide)

theorem irqsOnly_dropFirmware (s : State) : IrqsOnly s (dropFirmware s) := by
  unfold dropFirmware
  extract_lets s1
  have hs1 : IrqsOnly s s1 :=
    forAll_keeps (P := IrqsOnly s) (fun c u hu => hu.trans (.ite (irqsOnly_dropChan c u) (.refl u))) (.refl s)
  exact hs1.trans (.of_only (L := [.mem]) (keep_setMem _ (.of_all rfl) (only_refl _ s1)) (by decide))

/-- Barley with no step outstanding at the firmware. -/
def withoutRequests (b : Barley) : Barley := { b with outstanding := [] }

theorem abortFw_bar (s : State) : (abortFw s).bar = withoutRequests s.bar := by
  have hlost : (forEach (s.oda.waiting.filter (fun p => isFw p.waiting)) loseFw s).bar = s.bar :=
    forEach_keeps (P := fun u => u.bar = s.bar) (fun p u hu =>
      (keep_loseFw (L := [.ev, .nut, .oda, .port]) p (.of_all rfl) (only_refl _ u) .bar (by decide)).trans hu) rfl
  exact congrArg withoutRequests hlost

theorem fwDown_bar (s : State) : besideIrqs (fwDown s).bar = besideIrqs (withoutRequests s.bar) := by
  have habort := abortFw_bar { s with part := { s.part with fwRestarting := true } }
  have hdrop := irqsOnly_dropFirmware (abortFw { s with part := { s.part with fwRestarting := true } })
  unfold IrqsOnly at hdrop
  rw [habort] at hdrop
  exact hdrop

theorem besideIrqs_withError {b c : Barley} (h : besideIrqs b = besideIrqs c) (st : UpdState) (code : Nat) :
    besideIrqs (withError st code b) = besideIrqs (withError st code c) := (congrArg (withError st code) h :)

theorem moveIrqs_bar (s : State) : besideIrqs (moveIrqs s).bar = besideIrqs s.bar := rfl

theorem measureFw_bar (kind extra : Nat) (s : State) : (measureFw kind extra s).bar = s.bar :=
  keep_measureFw (L := [.cardamom]) kind extra (.of_all rfl) (only_refl _ s) .bar (by decide)

/-- The role of a cluster in Barley's state, of which a change of interrupts is known. -/
theorem roleOf_of_bar {s : State} {b : Barley} (h : besideIrqs s.bar = besideIrqs b) (c : Fin 2) :
    roleOf s c = (b.clusters.get c).role := (congrArg (fun b : Barley => (b.clusters.get c).role) h :)

theorem outstanding_of_bar {b c : Barley} (h : besideIrqs b = besideIrqs c) : b.outstanding = c.outstanding :=
  (congrArg Barley.outstanding h :)

theorem bootSlot_of_bar {b c : Barley} (h : besideIrqs b = besideIrqs c) : b.bootSlot = c.bootSlot :=
  (congrArg Barley.bootSlot h :)

/-! ## A hand-back (R453) -/

/-- Barley after the cluster `new` gave CONTROL back: of the clusters, what the other was. -/
structure HandedBack (s t : State) : Prop where
  upd : t.bar.upd = .handedBack
  error : t.bar.updError = 0x00071505
  control : roleOf t (1 - ctrl s) = .control
  off : roleOf t (ctrl s) = .off
  number : t.bar.control = (1 - ctrl s).val
  outstanding : t.bar.outstanding = []
  restarting : t.part.fwRestarting = true
  bootSlot : t.bar.bootSlot = s.bar.bootSlot

theorem handBack_clk (s : State) : (handBack s).clk = s.clk :=
  keep_handBack (L := [.nums, .part, .ev, .nut, .oda, .port, .eng, .mem, .bar, .cardamom, .free]) (.of_all rfl) (only_refl _ s) .clk
    (by decide)

theorem handBack_ends (s : State) : HandedBack s (handBack s) := by
  unfold handBack
  extract_lets new old s1 s2 slot s3
  have hs1 : besideIrqs s1.bar = besideIrqs (withoutRequests (updCluster new (fun _ => Cluster.init) s).bar) := fwDown_bar _
  have hrole : roleOf s1 new = .off := (roleOf_of_bar hs1 new).trans (roleOf_updCluster_same _ _ s)
  have hdown : s1.part.fwRestarting = true := congrArg Part.fwRestarting (fwDown_part _)
  have hout : s1.bar.outstanding = [] := outstanding_of_bar hs1
  have hboot : s1.bar.bootSlot = s.bar.bootSlot := (bootSlot_of_bar hs1).trans rfl
  clear_value s1
  have hbar : besideIrqs (noteDegraded (measureFw 5 UpdState.handedBack.code
      (updError .handedBack 0x00071505 (moveIrqs (keepJournal s3))))).bar =
      besideIrqs (withError .handedBack 0x00071505 (keepJournal s3).bar) := by
    rw [noteDegraded_bar, measureFw_bar, updError_bar]
    exact besideIrqs_withError (moveIrqs_bar _) _ _
  have hpart : (noteDegraded (measureFw 5 UpdState.handedBack.code
      (updError .handedBack 0x00071505 (moveIrqs (keepJournal s3))))).part.fwRestarting = true := by
    rw [noteDegraded_part]
    have hkept : (measureFw 5 UpdState.handedBack.code (updError .handedBack 0x00071505 (moveIrqs (keepJournal s3)))).part =
        s1.part :=
      keep_measureFw (L := [.cardamom, .ev, .nut, .bar, .nums]) _ _ (.of_all rfl) (keep_updError _ _ (.of_all rfl)
        (keep_moveIrqs (.of_all rfl) (keep_keepJournal (.of_all rfl) (keep_setBar _ (.of_all rfl)
        (keep_updCluster _ _ (.of_all rfl) (only_refl _ s1)))))) .part (by decide)
    rw [hkept, hdown]
  generalize noteDegraded _ = t at hbar hpart
  have hroles (c : Fin 2) : roleOf t c = roleOf s2 c := roleOf_of_bar hbar c
  refine ⟨(congrArg Barley.upd hbar :), (congrArg Barley.updError hbar :), ?_, ?_, (congrArg Barley.control hbar :),
    (outstanding_of_bar hbar).trans hout, hpart, (bootSlot_of_bar hbar).trans hboot⟩
  · exact (hroles _).trans (roleOf_updCluster_same _ _ s1)
  · rw [hroles]
    exact (roleOf_updCluster_other (other_ne_ctrl s) _ s1).trans hrole

/-! ## Main-die reset and the update (R336, R447) -/

theorem mainDown_bar (kept : Bool) {s : State} (hup : s.part.reset = false) (hdone : s.bar.upd.running = false) :
    (mainDown kept s).bar.upd = s.bar.upd ∧ (mainDown kept s).bar.updError = s.bar.updError ∧
    (mainDown kept s).bar.bootSlot = s.bar.bootSlot := by
  have hbefore : (memDown kept (portsDown (timeDown (odaDown s)))).bar = s.bar :=
    keep_memDown (L := [.nums, .mem, .port, .clk, .oda]) kept (.of_all rfl) (keep_portsDown (.of_all rfl) (keep_timeDown (.of_all rfl)
      (keep_odaDown (.of_all rfl) (only_refl _ s)))) .bar (by decide)
  have hafter (u : State) : (serializerDown (restartAnise (heatDown (limitsDown (engineDown (cardamomDown u)))))).bar = u.bar :=
    keep_serializerDown (L := [.ev, .nut, .ani, .heat, .acc, .eng, .img, .cardamom]) (.of_all rfl) (keep_restartAnise (.of_all rfl)
      (keep_heatDown (.of_all rfl) (keep_limitsDown (.of_all rfl) (keep_engineDown (.of_all rfl)
      (keep_cardamomDown (.of_all rfl) (only_refl _ u)))))) .bar (by decide)
  have hlost (u : State) (hu : u.bar.upd.running = false) : (barleyDown u).bar.upd = u.bar.upd ∧
      (barleyDown u).bar.updError = u.bar.updError ∧ (barleyDown u).bar.bootSlot = u.bar.bootSlot := by
    have hsame : updateLost u = u := if_neg (by simp [hu])
    unfold barleyDown
    rw [hsame]
    exact ⟨rfl, rfl, rfl⟩
  have hbar : (mainDown kept s).bar = (barleyDown (memDown kept (portsDown (timeDown (odaDown s))))).bar := by
    have hstops : (mainStops kept s).bar = _ := hafter (barleyDown (memDown kept (portsDown (timeDown (odaDown s)))))
    rw [mainDown_eq kept hup, ← hstops]
  rw [hbar, ← hbefore]
  exact hlost _ (by rw [hbefore]; exact hdone)

theorem mainReset_bar (why : Nat) (kept : Bool) {s : State} (hup : s.part.reset = false) :
    (mainReset why kept s).bar = (mainDown kept s).bar := by
  have henter (u : State) : (enterPart .boot u).bar = u.bar :=
    keep_enterPart (L := [.part, .ev, .nut, .port]) _ (.of_all rfl) (only_refl _ u) .bar (by decide)
  unfold mainReset
  extract_lets s1 s2 left s3
  rw [if_neg (by simp [hup])]
  split
  · rfl
  · rw [henter]
    rfl

theorem mainReset_due (why : Nat) (kept : Bool) {s : State} (hup : s.part.reset = false) :
    (mainReset why kept s).part.reset = true ∧ (mainReset why kept s).part.resetDue = s.clk.cycles + msCycles 200 := by
  by_cases hboot : s.part.st ≠ .safe ∨ why = 1
  · have h := resetEntered_mainReset kept hup hboot
    exact ⟨h.reset, h.due⟩
  · obtain ⟨hsafe, hwhy⟩ := not_or.mp hboot
    have hpart := mainDown_part kept hup
    unfold mainReset
    extract_lets s1 s2 left s3
    have hs3 : s3.part = { (mainDown kept s).part with resetDue := s.clk.cycles + msCycles 200 } := rfl
    rw [if_neg (by simp [hup]), if_pos (by rw [hs3, hpart]; exact ⟨not_not.mp hsafe, hwhy⟩), hs3, hpart]
    exact ⟨rfl, rfl⟩

/-! ## The take-over (R450, R451) -/

/-- Barley in the hold of a take-over. -/
def held (b : Barley) : Barley := withUpd .takeover { b with holdOn := true, finalWritten := false, acceptWritten := false }

theorem holdStart_ends {s : State} (h : s.bar.upd = .shadowReady) : Ends .takeoverHoldStart s (fun t =>
    t.bar.upd = .takeover ∧ t.bar.holdOn = true ∧ t.bar.finalWritten = false ∧ t.bar.acceptWritten = false ∧
    t.clk = (reachCount (s.bar.takeAt - frameNs s) s).clk ∧ t.bar.clusters = s.bar.clusters) := by
  refine ends_of_next (if_neg (by simp [h])) ?_
  obtain ⟨k, hk⟩ := reachCount_eq_with_clk (s.bar.takeAt - frameNs s) s
  rw [hk]
  have hbar : besideIrqs (setUpd .takeover (setBar (fun b =>
      { b with holdOn := true, finalWritten := false, acceptWritten := false }) { s with clk := k })).bar = besideIrqs (held s.bar) :=
    setUpd_bar _ _
  exact ⟨(congrArg Barley.upd hbar :), (congrArg Barley.holdOn hbar :), (congrArg Barley.finalWritten hbar :),
    (congrArg Barley.acceptWritten hbar :), setUpd_only _ _ .clk (by decide), (congrArg Barley.clusters hbar :)⟩

theorem takeoverFinal_ends {c : Fin 2} {s : State} (hup : s.part.reset = false) (hrole : roleOf s c = .control)
    (hupd : s.bar.upd = .takeover) : Ends (.takeoverFinal c) s (fun t => t.bar.finalWritten = true ∧
      t.bar.acceptWritten = s.bar.acceptWritten ∧ t.bar.upd = .takeover ∧ t.bar.clusters = s.bar.clusters) := by
  refine ends_of_next (congrArg Host.Outcome.next (handover_of_right hup hrole hupd rfl _)) ?_
  have hbar := routeIrq_bar 293 s
  exact ⟨rfl, (congrArg Barley.acceptWritten hbar :), (congrArg Barley.upd hbar :).trans hupd, (congrArg Barley.clusters hbar :)⟩

theorem takeoverAccept_ends {c : Fin 2} {s : State} (hup : s.part.reset = false) (hrole : roleOf s c = .shadow)
    (hupd : s.bar.upd = .takeover) (hfinal : s.bar.finalWritten = true) : Ends (.takeoverAccept c) s (fun t =>
      t.bar.acceptWritten = true ∧ t.bar.finalWritten = true ∧ t.bar.upd = .takeover ∧ t.bar.clusters = s.bar.clusters) := by
  refine ends_of_next (congrArg Host.Outcome.next (handover_of_right hup hrole hupd hfinal _)) ?_
  have hbar := routeIrq_bar 293 s
  exact ⟨rfl, (congrArg Barley.finalWritten hbar :).trans hfinal, (congrArg Barley.upd hbar :).trans hupd,
    (congrArg Barley.clusters hbar :)⟩

theorem takeoverAccept_ignored {c : Fin 2} {s : State} (hup : s.part.reset = false) (hfinal : s.bar.finalWritten = false) :
    Ends (.takeoverAccept c) s (fun t => t.bar = s.bar ∧
      getN t Obj.handoverIgnored = getN (inc32 s Obj.handoverIgnored) Obj.handoverIgnored) :=
  ends_of_next (congrArg Host.Outcome.next (handover_of_wrong hup (by rw [hfinal, Bool.and_false]) _)) ⟨rfl, rfl⟩

/-- Barley where the shadow of cluster `old` runs the new image on trial. -/
def onTrial (old : Fin 2) (b : Barley) : Barley := withUpd .trial
  { b with
    clusters := vupd (vupd b.clusters (1 - old) (fun x => { x with role := .control })) old (fun x => { x with role := .parked })
    control := (1 - old).val
    fwImage := b.updImage
    fwSlot := otherSlot b.bootSlot
    fwAlt := !b.fwAlt
    journal := []
    healthPassed := false
    confirmed := false
    healthDue := b.takeAt + 60000000000
    finalWritten := false
    acceptWritten := false }

theorem besideRequests_of_irqs {b c : Barley} (h : besideIrqs b = besideIrqs c) : besideRequests b = besideRequests c :=
  (congrArg besideRequests h :)

theorem release_of_requests {b c : Barley} (h : besideRequests b = besideRequests c) :
    besideRequests { b with holdOn := false } = besideRequests { c with holdOn := false } :=
  (congrArg (fun x : Barley => { x with holdOn := false }) h :)

theorem takeOver_bar (s : State) :
    besideRequests (takeOver s).bar = besideRequests { onTrial (ctrl s) s.bar with holdOn := false } := by
  unfold takeOver
  extract_lets old new s1 s2 s3
  rw [measureFw_bar, releaseSteps_bar]
  have hbar : besideIrqs (moveIrqs (setUpd .trial s3)).bar = besideIrqs (onTrial (ctrl s) s.bar) :=
    (moveIrqs_bar _).trans (setUpd_bar .trial s3)
  exact release_of_requests (besideRequests_of_irqs hbar)

theorem takeOver_deadline (s : State) : getN (takeOver s) Obj.updateHealthDeadline = s.bar.takeAt + 60000000000 := by
  unfold takeOver
  extract_lets old new s1 s2 s3
  have hframe : Only [.cardamom, .ev, .nut, .oda, .port, .mem, .bar, .free] s3
      (measureFw 5 UpdState.trial.code (releaseSteps (moveIrqs (setUpd .trial s3)))) :=
    keep_measureFw _ _ (.of_all rfl) (keep_releaseSteps (.of_all rfl) (keep_moveIrqs (.of_all rfl)
      (keep_setUpd _ (.of_all rfl) (only_refl _ s3))))
  rw [getN_of_nums_eq (hframe .nums (by decide))]
  exact getN_setN_same _ _ _

theorem takeOver_clk (s : State) : (takeOver s).clk = s.clk :=
  keep_takeOver (L := [.nums, .ev, .nut, .oda, .port, .mem, .bar, .cardamom, .free]) (.of_all rfl) (only_refl _ s) .clk (by decide)

theorem roleOf_of_requests {s : State} {b : Barley} (h : besideRequests s.bar = besideRequests b) (c : Fin 2) :
    roleOf s c = (b.clusters.get c).role := (congrArg (fun b : Barley => (b.clusters.get c).role) h :)

/-- With FINAL and ACCEPT written, the shadow takes CONTROL at the start of frame T. -/
theorem takeover_taken {s : State} (hupd : s.bar.upd = .takeover) (hfinal : s.bar.finalWritten = true)
    (haccept : s.bar.acceptWritten = true) : Ends .takeover s (fun t => t.bar.upd = .trial ∧ roleOf t (1 - ctrl s) = .control ∧
      roleOf t (ctrl s) = .parked ∧ t.bar.control = (1 - ctrl s).val ∧ t.bar.fwImage = s.bar.updImage ∧
      t.bar.fwSlot = otherSlot s.bar.bootSlot ∧ t.bar.holdOn = false ∧ t.bar.healthDue = s.bar.takeAt + 60000000000 ∧
      getN t Obj.updateHealthDeadline = s.bar.takeAt + 60000000000 ∧ t.bar.bootSlot = s.bar.bootSlot ∧
      t.clk = (reachCount s.bar.takeAt s).clk) := by
  have hexec : execTakeover s = .next (noteDegraded (takeOver (reachCount s.bar.takeAt s))) := by
    unfold execTakeover
    rw [if_neg (by simp [hupd])]
    exact if_pos (by rw [hfinal, haccept]; rfl)
  refine ends_of_next hexec ?_
  obtain ⟨k, hk⟩ := reachCount_eq_with_clk s.bar.takeAt s
  rw [hk]
  have hbar : besideRequests (noteDegraded (takeOver { s with clk := k })).bar =
      besideRequests { onTrial (ctrl s) s.bar with holdOn := false } := by
    rw [noteDegraded_bar]
    exact takeOver_bar { s with clk := k }
  have hdeadline : getN (noteDegraded (takeOver { s with clk := k })) Obj.updateHealthDeadline = s.bar.takeAt + 60000000000 := by
    rw [getN_of_nums_eq (noteDegraded_nums _)]
    exact takeOver_deadline { s with clk := k }
  have hclk : (noteDegraded (takeOver { s with clk := k })).clk = k := by
    rw [noteDegraded_clk, takeOver_clk]
  generalize noteDegraded _ = t at hbar hdeadline hclk
  have hroles (c : Fin 2) := roleOf_of_requests hbar c
  refine ⟨(congrArg Barley.upd hbar :), ?_, ?_, (congrArg Barley.control hbar :), (congrArg Barley.fwImage hbar :),
    (congrArg Barley.fwSlot hbar :), (congrArg Barley.holdOn hbar :), (congrArg Barley.healthDue hbar :), hdeadline,
    (congrArg Barley.bootSlot hbar :), hclk⟩
  · refine (hroles _).trans (congrArg Cluster.role ((vupd_get_other _ (ctrl s) (1 - ctrl s) _ (other_ne_ctrl s).symm).trans
      (vupd_get_same _ _ _)))
  · exact (hroles _).trans (congrArg Cluster.role (vupd_get_same _ _ _))

/-- Without FINAL or ACCEPT the update fails, and the old firmware keeps control. -/
theorem takeover_missed {s : State} (hupd : s.bar.upd = .takeover) (hmiss : s.bar.finalWritten = false ∨ s.bar.acceptWritten = false) :
    Ends .takeover s (fun t => t.bar.upd = .failed ∧ t.bar.updError = 0x00071504 ∧ t.bar.control = s.bar.control ∧
      t.bar.fwImage = s.bar.fwImage ∧ t.bar.bootSlot = s.bar.bootSlot ∧ t.bar.holdOn = false ∧ ∀ c : Fin 2, roleOf t c ≠ .shadow) := by
  have hexec : execTakeover s = .next (releaseSteps (failShadow 0x00071504 (reachCount s.bar.takeAt s))) := by
    unfold execTakeover
    rw [if_neg (by simp [hupd])]
    exact if_neg (by rcases hmiss with h | h <;> simp [h])
  refine ends_of_next hexec ?_
  obtain ⟨k, hk⟩ := reachCount_eq_with_clk s.bar.takeAt s
  rw [hk]
  have hbar : besideRequests (releaseSteps (failShadow 0x00071504 { s with clk := k })).bar = besideRequests
      { withError .failed 0x00071504 (droppedUpdate (idleOffBar s.bar)) with holdOn := false } := by
    rw [releaseSteps_bar]
    exact release_of_requests (besideRequests_of_irqs (failShadow_bar 0x00071504 { s with clk := k }))
  generalize releaseSteps _ = t at hbar
  refine ⟨(congrArg Barley.upd hbar :), (congrArg Barley.updError hbar :), (congrArg Barley.control hbar :),
    (congrArg Barley.fwImage hbar :), (congrArg Barley.bootSlot hbar :), (congrArg Barley.holdOn hbar :), fun c => ?_⟩
  rw [roleOf_of_requests hbar c]
  exact (otherOff_role s c).1

/-! ## The trial (R452, R453) -/

theorem healthPass_ends {c : Fin 2} {s : State} (hup : s.part.reset = false) (hrole : roleOf s c = .control)
    (hupd : s.bar.upd = .trial) : Ends (.healthPass c) s (fun t =>
      t.bar.healthPassed = (s.bar.healthPassed || decide (now s < s.bar.healthDue)) ∧ t.bar.upd = .trial ∧
      t.bar.clusters = s.bar.clusters ∧ t.bar.bootSlot = s.bar.bootSlot) := by
  refine ends_of_next (congrArg Host.Outcome.next (handover_of_right hup hrole hupd rfl _)) ?_
  have hbar := routeIrq_bar 293 s
  have hpassed : (routeIrq 293 s).bar.healthPassed = s.bar.healthPassed := (congrArg Barley.healthPassed hbar :)
  have hdue : (routeIrq 293 s).bar.healthDue = s.bar.healthDue := (congrArg Barley.healthDue hbar :)
  refine ⟨?_, (congrArg Barley.upd hbar :).trans hupd, (congrArg Barley.clusters hbar :), (congrArg Barley.bootSlot hbar :)⟩
  exact congrArg₂ (fun a b => a || decide (now s < b)) hpassed hdue

/-- What a trial that fails leaves, where it did not begin with a restart. -/
theorem HandedBack.noteDegraded {s t : State} (h : HandedBack s t) : HandedBack s (noteDegraded t) := by
  obtain ⟨hupd, herror, hcontrol, hoff, hnumber, hout, hrestart, hboot⟩ := h
  have hbar := noteDegraded_bar t
  have hrole (c : Fin 2) : roleOf (Machine.noteDegraded t) c = roleOf t c := by rw [roleOf, hbar, ← roleOf]
  refine ⟨?_, ?_, (hrole _).trans hcontrol, (hrole _).trans hoff, ?_, ?_, ?_, ?_⟩
  · rw [hbar, hupd]
  · rw [hbar, herror]
  · rw [hbar, hnumber]
  · rw [hbar, hout]
  · rw [noteDegraded_part]
    exact hrestart
  · rw [hbar, hboot]

theorem trialFails_handsBack (kept : Bool) {s u : State} (hbar : besideIrqs u.bar = besideIrqs s.bar)
    (hplain : s.bar.restartTrial = false) : HandedBack s (noteDegraded (trialFails kept u)) := by
  have hrestart : u.bar.restartTrial = false := (congrArg Barley.restartTrial hbar :).trans hplain
  have hctrl : ctrl u = ctrl s := by
    unfold ctrl
    rw [show u.bar.control = s.bar.control from (congrArg Barley.control hbar :)]
  unfold trialFails
  rw [if_neg (by simp [hrestart])]
  obtain ⟨hupd, herror, hcontrol, hoff, hnumber, hout, hdown, hboot⟩ := handBack_ends u
  rw [hctrl] at hcontrol hoff hnumber
  exact HandedBack.noteDegraded ⟨hupd, herror, hcontrol, hoff, hnumber, hout, hdown, hboot.trans (bootSlot_of_bar hbar)⟩

theorem healthFail_handsBack {c : Fin 2} (kept : Bool) {s : State} (hup : s.part.reset = false) (hrole : roleOf s c = .control)
    (hupd : s.bar.upd = .trial) (hpassed : trialPassed s = false) (hplain : s.bar.restartTrial = false) :
    Ends (.healthFail c kept) s (HandedBack s) :=
  ends_of_next (congrArg (fun u => noted (.next u)) (handover_of_right hup hrole hupd (by rw [hpassed]; rfl) _))
    (trialFails_handsBack kept (routeIrq_bar 293 s) hplain)

/-- A trial after a restart that fails restores the boot selector and resets the main die. -/
theorem healthFail_resets {c : Fin 2} (kept : Bool) {s : State} (hup : s.part.reset = false) (hrole : roleOf s c = .control)
    (hupd : s.bar.upd = .trial) (hpassed : trialPassed s = false) (hrestart : s.bar.restartTrial = true) :
    Ends (.healthFail c kept) s (fun t => t.bar.upd = .handedBack ∧ t.bar.updError = 0x00071505 ∧
      t.bar.bootSlot = otherSlot s.bar.bootSlot ∧ t.part.reset = true ∧ t.part.resetDue = s.clk.cycles + msCycles 200) := by
  refine ends_of_next (congrArg (fun u => noted (.next u)) (handover_of_right hup hrole hupd (by rw [hpassed]; rfl) _)) ?_
  have hroute := routeIrq_bar 293 s
  have hrouted : Only [.bar] s (routeIrq 293 s) := keep_routeIrq 293 (.of_all rfl) (only_refl _ s)
  have hrestart' : (routeIrq 293 s).bar.restartTrial = true := (congrArg Barley.restartTrial hroute :).trans hrestart
  have hboot : (routeIrq 293 s).bar.bootSlot = s.bar.bootSlot := bootSlot_of_bar hroute
  generalize routeIrq 293 s = u at hrouted hrestart' hboot
  have hfails : trialFails kept u = mainReset 3 kept (updError .handedBack 0x00071505 (dropUpdate (restoreSelector u))) :=
    if_pos hrestart'
  have hbar : besideIrqs (updError .handedBack 0x00071505 (dropUpdate (restoreSelector u))).bar = besideIrqs
      (withError .handedBack 0x00071505 (droppedUpdate
        { u.bar with restartTrial := false, bootSlot := otherSlot u.bar.bootSlot })) := by
    rw [updError_bar, restoreSelector, if_pos hrestart']
    rfl
  have hframe : Only [.ev, .nut, .bar] s (updError .handedBack 0x00071505 (dropUpdate (restoreSelector u))) :=
    keep_updError _ _ (.of_all rfl) (keep_dropUpdate (.of_all rfl) (keep_restoreSelector (.of_all rfl) (only_mono hrouted (.of_all rfl))))
  rw [hfails]
  generalize updError .handedBack 0x00071505 (dropUpdate (restoreSelector u)) = v at hbar hframe
  have hpart : v.part = s.part := hframe .part (by decide)
  have hclk : v.clk = s.clk := hframe .clk (by decide)
  have hvup : v.part.reset = false := by rw [hpart, hup]
  have hvupd : v.bar.upd = .handedBack := (congrArg Barley.upd hbar :)
  obtain ⟨hupd', herror', hboot'⟩ := mainDown_bar kept hvup (by rw [hvupd]; rfl)
  obtain ⟨hreset, hdue⟩ := mainReset_due 3 kept hvup
  have hsame := mainReset_bar 3 kept hvup
  rw [← hsame] at hupd' herror' hboot'
  rw [noteDegraded_bar, noteDegraded_part]
  exact ⟨hupd'.trans hvupd, herror'.trans (congrArg Barley.updError hbar :),
    hboot'.trans ((bootSlot_of_bar hbar).trans (congrArg otherSlot hboot)), hreset, hdue.trans (by rw [hclk])⟩

theorem trialPassed_of_same {s u : State} (hbar : u.bar = s.bar) (hnums : u.nums = s.nums) : trialPassed u = trialPassed s := by
  unfold trialPassed getN
  rw [hbar, hnums]

theorem healthDeadline_ends (kept : Bool) {s : State} (hupd : s.bar.upd = .trial) (hpassed : trialPassed s = false)
    (hplain : s.bar.restartTrial = false) : Ends (.updateHealthDeadline kept) s (fun t =>
      HandedBack s t ∧ t.clk.cycles = (reachCount s.bar.healthDue s).clk.cycles) := by
  have hexec : execUpdateHealthDeadline kept s = .next (noteDegraded (trialFails kept (reachCount s.bar.healthDue s))) :=
    congrArg noted (if_pos (by rw [hupd, hpassed]; rfl))
  refine ends_of_next hexec ?_
  obtain ⟨k, hk⟩ := reachCount_eq_with_clk s.bar.healthDue s
  rw [hk]
  refine ⟨trialFails_handsBack kept rfl hplain, ?_⟩
  rw [noteDegraded_clk, trialFails, if_neg (by simp [hplain]), handBack_clk]

/-! ## ABORT and CONFIRM (Table 15.10, R452) -/

/-- Barley where the slot that was being written is no longer valid. -/
def spoiled (b : Barley) : Barley :=
  if (slotIn b (otherSlot b.bootSlot)).st = .writing then withSlot (otherSlot b.bootSlot) ⟨.invalid, none⟩ b else b

theorem spoilSlot_bar (s : State) : (spoilSlot s).bar = spoiled s.bar := by
  unfold spoilSlot spoiled
  extract_lets k
  exact apply_ite State.bar _ _ _

theorem besideSlots_spoiled (b : Barley) : besideSlots (spoiled b) = besideSlots b := by
  unfold spoiled
  split
  · exact besideSlots_withSlot _ _ _
  · rfl

theorem slotIn_spoiled (b : Barley) : (slotIn (spoiled b) (otherSlot b.bootSlot)).st ≠ .writing := by
  unfold spoiled
  split
  · rw [slotIn_withSlot]
    decide
  · assumption

theorem abortUpdate_early (kept : Bool) {s : State} (h : s.bar.upd = .writing ∨ s.bar.upd = .verifying ∨ s.bar.upd = .shadowBoot ∨
      s.bar.upd = .shadowSync ∨ s.bar.upd = .shadowReady) :
    abortUpdate kept s = noteDegraded (updError .failed 0x00071508 (dropUpdate (otherOff (spoilSlot s)))) := by
  unfold abortUpdate
  rcases h with h | h | h | h | h <;> rw [h]

/-- Barley after an update that ends with the code of ABORT. -/
def abortedEarly (b : Barley) : Barley := withError .failed 0x00071508 (droppedUpdate (idleOffBar (spoiled b)))

theorem besideSlots_withError {b c : Barley} (h : besideSlots b = besideSlots c) :
    besideSlots (withError .failed 0x00071508 (droppedUpdate (idleOffBar b))) =
      besideSlots (withError .failed 0x00071508 (droppedUpdate (idleOffBar c))) :=
  (congrArg (fun x => withError .failed 0x00071508 (droppedUpdate (idleOffBar x))) h :)

/-- An accepted write of UPDATE_CTRL meets the state as it was, but for the accepting count and the answer. -/
theorem execUpdateAbort_of_accepted {au : Auth} (kept : Bool) {s : State} (hup : s.oda.serving = true)
    (hcheck : precheck s au Obj.updateCtrl.key 0 (.num 1) = 0) :
    execUpdateAbort au kept s = .next (noteDegraded (abortUpdate kept (acceptedState s))) :=
  congrArg (fun u => noted (.next u)) (writeStep_of_accepted (home := noHome) (fun _ => abortUpdate kept) hup hcheck rfl)

theorem updateAbort_early {au : Auth} (kept : Bool) {s : State} (hup : s.oda.serving = true)
    (hcheck : precheck s au Obj.updateCtrl.key 0 (.num 1) = 0)
    (h : s.bar.upd = .writing ∨ s.bar.upd = .verifying ∨ s.bar.upd = .shadowBoot ∨ s.bar.upd = .shadowSync ∨
      s.bar.upd = .shadowReady) : Ends (.updateAbort au kept) s (fun t => t.bar.upd = .failed ∧ t.bar.updError = 0x00071508 ∧
      t.bar.control = s.bar.control ∧ t.bar.fwImage = s.bar.fwImage ∧ t.bar.bootSlot = s.bar.bootSlot ∧
      (∀ c : Fin 2, roleOf t c ≠ .shadow) ∧ (slotOf t (otherSlot s.bar.bootSlot)).st ≠ .writing) := by
  refine ends_of_next (execUpdateAbort_of_accepted kept hup hcheck) ?_
  have hbar : besideIrqs (noteDegraded (abortUpdate kept (acceptedState s))).bar = besideIrqs (abortedEarly s.bar) := by
    rw [noteDegraded_bar, abortUpdate_early kept (s := acceptedState s) h, noteDegraded_bar, updError_bar]
    exact (congrArg (fun b => besideIrqs (withError .failed 0x00071508 (droppedUpdate (idleOffBar b))))
      (spoilSlot_bar (acceptedState s)) :)
  generalize noteDegraded _ = t at hbar
  have hrest : besideSlots t.bar = besideSlots (withError .failed 0x00071508 (droppedUpdate (idleOffBar s.bar))) :=
    (congrArg besideSlots hbar :).trans (besideSlots_withError (besideSlots_spoiled s.bar))
  have hslot : slotOf t (otherSlot s.bar.bootSlot) = slotIn (spoiled s.bar) (otherSlot s.bar.bootSlot) :=
    (congrArg (slotIn · (otherSlot s.bar.bootSlot)) hbar :)
  have hrole (c : Fin 2) : roleOf t c = roleOf (otherOff s) c := (congrArg (fun b : Barley => (b.clusters.get c).role) hrest :)
  refine ⟨(congrArg Barley.upd hrest :), (congrArg Barley.updError hrest :), (congrArg Barley.control hrest :),
    (congrArg Barley.fwImage hrest :), (congrArg Barley.bootSlot hrest :), fun c => ?_, ?_⟩
  · rw [hrole]
    exact (otherOff_role s c).1
  · rw [hslot]
    exact slotIn_spoiled s.bar

/-- ABORT before the restart gives the boot selector back. -/
theorem updateAbort_pending {au : Auth} (kept : Bool) {s : State} (hup : s.oda.serving = true)
    (hcheck : precheck s au Obj.updateCtrl.key 0 (.num 1) = 0) (hupd : s.bar.upd = .pendingRestart)
    (hrestart : s.bar.restartTrial = true) : Ends (.updateAbort au kept) s (fun t => t.bar.upd = .failed ∧
      t.bar.updError = 0x00071508 ∧ t.bar.bootSlot = otherSlot s.bar.bootSlot ∧ t.bar.slotA = s.bar.slotA ∧
      t.bar.slotB = s.bar.slotB) := by
  refine ends_of_next (execUpdateAbort_of_accepted kept hup hcheck) ?_
  have habort : abortUpdate kept (acceptedState s) =
      noteDegraded (updError .failed 0x00071508 (dropUpdate (restoreSelector (acceptedState s)))) := by
    unfold abortUpdate
    rw [show (acceptedState s).bar.upd = .pendingRestart from hupd]
  have hbar : besideIrqs (noteDegraded (abortUpdate kept (acceptedState s))).bar = besideIrqs (withError .failed 0x00071508
      (droppedUpdate { s.bar with restartTrial := false, bootSlot := otherSlot s.bar.bootSlot })) := by
    rw [noteDegraded_bar, habort, noteDegraded_bar, updError_bar, restoreSelector,
      if_pos (show (acceptedState s).bar.restartTrial = true from hrestart)]
    rfl
  exact ⟨(congrArg Barley.upd hbar :), (congrArg Barley.updError hbar :), bootSlot_of_bar hbar, (congrArg Barley.slotA hbar :),
    (congrArg Barley.slotB hbar :)⟩

theorem updateAbort_trial {au : Auth} (kept : Bool) {s : State} (hup : s.oda.serving = true)
    (hcheck : precheck s au Obj.updateCtrl.key 0 (.num 1) = 0) (hupd : s.bar.upd = .trial) (hpassed : trialPassed s = false)
    (hplain : s.bar.restartTrial = false) : Ends (.updateAbort au kept) s (HandedBack s) := by
  refine ends_of_next (execUpdateAbort_of_accepted kept hup hcheck) ?_
  have habort : abortUpdate kept (acceptedState s) = trialFails kept (acceptedState s) := by
    unfold abortUpdate
    rw [show (acceptedState s).bar.upd = .trial from hupd]
    have hnot : trialPassed (acceptedState s) = false := (trialPassed_of_same (s := s) rfl rfl).trans hpassed
    exact if_neg (by simp [hnot])
  rw [habort]
  exact trialFails_handsBack kept rfl hplain

theorem confirmUpdate_of_trial {s : State} (hupd : s.bar.upd = .trial) : confirmUpdate s =
    setBar (fun b => { b with confirmed := b.confirmed || decide (now s < b.healthDue) }) s := by
  unfold confirmUpdate
  rw [decide_eq_true hupd, Bool.true_and]
  cases hdue : decide (now s < s.bar.healthDue) with
  | true => simp only [if_true, setBar, hdue, Bool.or_true]
  | false => simp only [Bool.false_eq_true, if_false, setBar, hdue, Bool.or_false]

/-- CONFIRM counts before the deadline. -/
theorem updateConfirm_ends {au : Auth} {s : State} (hup : s.oda.serving = true)
    (hcheck : precheck s au Obj.updateCtrl.key 0 (.num 2) = 0) (hupd : s.bar.upd = .trial) : Ends (.updateConfirm au) s (fun t =>
      t.bar = { s.bar with confirmed := s.bar.confirmed || decide (now s < s.bar.healthDue), irqs := t.bar.irqs } ∧
      t.clk.lastAccept = acceptCount s) := by
  have hexec : execUpdateConfirm au s = .next (confirmUpdate (acceptedState s)) :=
    congrArg Host.Outcome.next (writeStep_of_accepted (home := noHome) (fun _ => confirmUpdate) hup hcheck rfl)
  refine ends_of_next hexec ?_
  rw [confirmUpdate_of_trial (s := acceptedState s) hupd]
  exact ⟨rfl, rfl⟩

/-! ## The commit (R465) -/

theorem note_held (c : Security) (m : Meas) : (c.note m).held = c.held := by
  unfold Security.note
  dsimp only
  split
  · split <;> rfl
  · rfl

theorem rollbackCtr_measureFw (kind extra : Nat) (s : State) : rollbackCtr (measureFw kind extra s) = rollbackCtr s := by
  unfold measureFw
  split
  · exact congrArg (fun h : SecRecord => lookD h.counters 0 0) (note_held _ _)
  · rfl

theorem rollbackCtr_raiseCtr (v : Nat) (s : State) : rollbackCtr (raiseCtr 0 v s) = v :=
  (congrArg (fun h : SecRecord => lookD h.counters 0 0) (note_held _ _)).trans (lookD_putD_same _ _ _ _)

/-- The state in which the selector names the slot that runs and the parked cluster is off. -/
def selected (s : State) : State := setBar (fun b => { b with bootSlot := b.fwSlot, restartTrial := false }) (dropUpdate (otherOff s))

/-- The state in which rollback counter 0 is at least v. -/
def raisedTo (v : Nat) (s : State) : State := if rollbackCtr s < v then raiseCtr 0 v s else s

theorem rollbackCtr_raisedTo (v : Nat) (s : State) : rollbackCtr (raisedTo v s) = max (rollbackCtr s) v := by
  unfold raisedTo
  split
  · next h => rw [rollbackCtr_raiseCtr, Nat.max_eq_right (Nat.le_of_lt h)]
  · next h => exact (Nat.max_eq_left (Nat.not_lt.mp h)).symm

theorem raisedTo_only (v : Nat) (s : State) : Only [.cardamom] s (raisedTo v s) := by
  unfold raisedTo
  split
  · exact keep_raiseCtr 0 v (.of_all rfl) (only_refl _ s)
  · exact only_refl _ s

theorem updateCommit_ends {x : FwImage} {s : State} (hupd : s.bar.upd = .trial) (hpassed : trialPassed s = true)
    (hx : s.bar.fwImage = some x) : Ends .updateCommitDone s (fun t => t.bar.upd = .committed ∧ t.bar.bootSlot = s.bar.fwSlot ∧
      rollbackCtr t = max (rollbackCtr s) x.rollback ∧ (∀ c : Fin 2, roleOf t c ≠ .parked) ∧ t.bar.journal = [] ∧
      t.bar.control = s.bar.control ∧ t.bar.fwImage = s.bar.fwImage) := by
  have hexec : execUpdateCommitDone s =
      .next (noteDegraded (measureFw 5 UpdState.committed.code (setUpd .committed (raisedTo x.rollback (selected s))))) := by
    unfold execUpdateCommitDone
    rw [if_pos (by rw [hupd, hpassed]; rfl)]
    extract_lets s1 s2
    have hs2 : s2 = raisedTo x.rollback (selected s) := by
      unfold s2
      rw [show s1.bar.fwImage = some x from hx]
      rfl
    rw [hs2]
  refine ends_of_next hexec ?_
  have hraised := raisedTo_only x.rollback (selected s)
  have hctr := rollbackCtr_raisedTo x.rollback (selected s)
  generalize raisedTo x.rollback (selected s) = u at hraised hctr
  have hbar : besideIrqs (noteDegraded (measureFw 5 UpdState.committed.code (setUpd .committed u))).bar =
      besideIrqs (withUpd .committed (selected s).bar) := by
    rw [noteDegraded_bar, measureFw_bar, setUpd_bar, show u.bar = (selected s).bar from hraised .bar (by decide)]
  have hrollback : rollbackCtr (noteDegraded (measureFw 5 UpdState.committed.code (setUpd .committed u))) =
      max (rollbackCtr s) x.rollback := by
    have hcard : (noteDegraded (measureFw 5 UpdState.committed.code (setUpd .committed u))).cardamom =
        (measureFw 5 UpdState.committed.code (setUpd .committed u)).cardamom :=
      keep_noteDegraded (L := [.part, .ev, .nut]) (.of_all rfl) (only_refl _ _) .cardamom (by decide)
    have hset : (setUpd .committed u).cardamom = u.cardamom := setUpd_only _ _ .cardamom (by decide)
    rw [rollbackCtr, hcard, ← rollbackCtr, rollbackCtr_measureFw, rollbackCtr, hset, ← rollbackCtr, hctr]
    rfl
  generalize noteDegraded _ = t at hbar hrollback
  have hrole (c : Fin 2) : roleOf t c = roleOf (otherOff s) c := roleOf_of_bar hbar c
  refine ⟨(congrArg Barley.upd hbar :), bootSlot_of_bar hbar, hrollback, fun c => ?_, (congrArg Barley.journal hbar :),
    (congrArg Barley.control hbar :), (congrArg Barley.fwImage hbar :)⟩
  rw [hrole]
  exact (otherOff_role s c).2

/-! ## Codes of the firmware (R491) -/

theorem note_lastDetail (r : CodeRec) (i : CodeInfo) (seconds cycles epoch : Nat) (count : Count) (detail : Nat) :
    (r.note i seconds cycles epoch count detail).lastDetail = detail ∧
    (r.note i seconds cycles epoch count detail).count = min (r.count + 1) u64 := by
  unfold CodeRec.note
  extract_lets first r1
  split
  · exact ⟨rfl, rfl⟩
  · exact ⟨rfl, rfl⟩

/-- While the serializer runs an event does not pass through the queue, so the recorder notes its code alone. -/
theorem raiseMain_nut {e : Ev} {source detail : Nat} {s : State} (hup : s.ev.up = true) :
    (raiseMain e source detail s).nut = capture s e (mkRec s e source detail false) := by
  have hqueue : (if serialized s e then pushEvent s.ev (mkRec s e source detail false) else s.ev).queue = s.ev.queue := by
    unfold pushEvent
    rw [if_pos hup]
    split <;> rfl
  have hnut : (raiseMain e source detail s).nut = captureOverflow s s.ev.queue (capture s e (mkRec s e source detail false)) :=
    congrArg (captureOverflow s · _) hqueue
  rw [hnut]
  unfold captureOverflow
  extract_lets k i
  split
  · rfl
  · next hnone =>
    have hfind : s.ev.queue.find? (fun r => r.code == .queueOverflow) = none := by
      rw [List.find?_eq_none]
      exact fun r hr hcode => hnone (List.any_eq_true.mpr ⟨r, hr, hcode⟩)
    rw [hfind]

/-- The record of a code after an occurrence of it. -/
theorem capture_record (s : State) (e : Ev) (r : EvRec) :
    (lookD (capture s e r).records (evKey e) CodeRec.empty).lastDetail = r.detail ∧
    (lookD (capture s e r).records (evKey e) CodeRec.empty).count =
      min ((lookD s.nut.records (evKey e) CodeRec.empty).count + 1) u64 := by
  unfold capture
  extract_lets k i limited had ok o n
  obtain ⟨hdetail, hcount⟩ := note_lastDetail (lookD s.nut.records (evKey e) CodeRec.empty) (codeInfo s.nut e)
    (getN s Obj.operatingS) (getN s Obj.powerCycles) r.epoch r.count r.detail
  have hrecord : lookD n.records (evKey e) CodeRec.empty = _ := lookD_put_same _ _ _ _
  change (lookD n.records (evKey e) CodeRec.empty).lastDetail = _ ∧ (lookD n.records (evKey e) CodeRec.empty).count = _
  rw [hrecord]
  split
  · exact ⟨hdetail, hcount⟩
  · exact ⟨hdetail, hcount⟩

theorem fwCodeRaise_ends {c : Fin 512} {detail : Nat} {s : State} (hup : s.part.reset = false) (himage : s.bar.fwImage ≠ none)
    (hserial : s.ev.up = true) (hheard : fwFrozen s = false) : Ends (.fwCodeRaise c detail) s (fun t =>
      t.ev.held = (if serialized s (.fw c) then s.ev.held ++ [{ mkRec s (.fw c) 0x8000 (detail % two32) false with seq := 0 }]
        else s.ev.held) ∧
      (lookD t.nut.records (evKey (.fw c)) CodeRec.empty).lastDetail = detail % two32 ∧
      (lookD t.nut.records (evKey (.fw c)) CodeRec.empty).count =
        min ((lookD s.nut.records (evKey (.fw c)) CodeRec.empty).count + 1) u64 ∧ t.bar = s.bar) := by
  have hexec : execFwCodeRaise c detail s = .next (raiseMain (.fw c) 0x8000 (detail % two32) s) :=
    if_neg (by simp [hup, hheard, Option.isNone_iff_eq_none, himage])
  refine ends_of_next hexec ?_
  obtain ⟨hdetail, hcount⟩ := capture_record s (.fw c) (mkRec s (.fw c) 0x8000 (detail % two32) false)
  rw [raiseMain_nut hserial]
  refine ⟨?_, hdetail.trans (Nat.mod_mod_of_dvd _ (dvd_refl _)), hcount, rfl⟩
  have hev : (raiseMain (.fw c) 0x8000 (detail % two32) s).ev =
      if serialized s (.fw c) then pushEvent s.ev (mkRec s (.fw c) 0x8000 (detail % two32) false) else s.ev := rfl
  rw [hev]
  split
  · rw [pushEvent, if_pos hserial]
    rfl
  · rfl

/-- Settles O50: the hold, the take-over, the trial and its ends. -/
theorem updateTakeoverAndTrial : Obligations.UpdateTakeoverAndTrial := by
  unfold Obligations.UpdateTakeoverAndTrial
  have hback {s t : State} (h : HandedBack s t) : t.bar.upd = .handedBack ∧ t.bar.updError = 0x00071505 ∧
      roleOf t (1 - ctrl s) = .control ∧ roleOf t (ctrl s) = .off ∧ t.bar.control = (1 - ctrl s).val ∧ t.bar.outstanding = [] ∧
      t.part.fwRestarting = true ∧ t.bar.bootSlot = s.bar.bootSlot :=
    ⟨h.upd, h.error, h.control, h.off, h.number, h.outstanding, h.restarting, h.bootSlot⟩
  refine ⟨fun s h => holdStart_ends h, fun c s hup hrole hupd => takeoverFinal_ends hup hrole hupd,
    fun c s hup hrole hupd hfinal => takeoverAccept_ends hup hrole hupd hfinal,
    fun c s hup hfinal => takeoverAccept_ignored hup hfinal, fun s hupd hfinal haccept => takeover_taken hupd hfinal haccept,
    fun s hupd hmiss => takeover_missed hupd hmiss, fun c s hup hrole hupd => healthPass_ends hup hrole hupd,
    fun c kept s hup hrole hupd hpassed hplain =>
      ends_mono (healthFail_handsBack kept hup hrole hupd hpassed hplain) (fun t h => hback h),
    fun c kept s hup hrole hupd hpassed hrestart => healthFail_resets kept hup hrole hupd hpassed hrestart,
    fun kept s hupd hpassed hplain => ends_mono (healthDeadline_ends kept hupd hpassed hplain) (fun t h => ?_),
    fun au kept s hup hcheck h => updateAbort_early kept hup hcheck h,
    fun au kept s hup hcheck hupd hrestart => updateAbort_pending kept hup hcheck hupd hrestart,
    fun au kept s hup hcheck hupd hpassed hplain =>
      ends_mono (updateAbort_trial kept hup hcheck hupd hpassed hplain) (fun t h => hback h),
    fun au s hup hcheck hupd => updateConfirm_ends hup hcheck hupd,
    fun x s hupd hpassed hx => updateCommit_ends hupd hpassed hx,
    fun c detail s hup himage hserial hheard => fwCodeRaise_ends hup himage hserial hheard⟩
  obtain ⟨hhanded, hcycles⟩ := h
  exact ⟨hhanded.upd, hhanded.error, hhanded.control, hhanded.off, hhanded.number, hhanded.outstanding, hhanded.restarting,
    hhanded.bootSlot, hcycles⟩

/-! ## What a read reads

No object shows the count of requests, so a read of the dictionary answers the same whether or not its own request has been
counted. -/

/-- The state with one more request counted. -/
def requestCounted (s : State) : State := setOda (fun o => { o with nextReq := o.nextReq + 1 }) s

theorem counted_eq (n : Nat) (s : State) : counted n s = requestCounted (touch n s) := rfl

theorem codeRateOf_counted (s : State) (n : Nat) : codeRateOf (requestCounted s) n = codeRateOf s n := by
  unfold codeRateOf
  split <;> rfl

theorem secNum_counted (s : State) (idx sub : Nat) : secNum (requestCounted s) idx sub = secNum s idx sub := by
  unfold secNum
  rw [codeRateOf_counted, show (requestCounted s).cardamom = s.cardamom from rfl, show (requestCounted s).rep = s.rep from rfl,
    show (requestCounted s).nut = s.nut from rfl, show (requestCounted s).pkgEnergy = s.pkgEnergy from rfl]

theorem engNum_counted (s : State) (idx sub : Nat) : engNum (requestCounted s) idx sub = engNum s idx sub := rfl

theorem railsNum_counted (s : State) (idx sub : Nat) : railsNum (requestCounted s) idx sub = railsNum s idx sub := rfl

theorem heatNum_counted (s : State) (idx sub : Nat) : heatNum (requestCounted s) idx sub = heatNum s idx sub := rfl

theorem partNum_counted (s : State) (idx sub : Nat) : partNum (requestCounted s) idx sub = partNum s idx sub := rfl

theorem portNum_counted (s : State) (idx sub : Nat) : portNum (requestCounted s) idx sub = portNum s idx sub := rfl

theorem dfltOf_counted (s : State) (key : Nat) : dfltOf (requestCounted s) key = dfltOf s key := rfl

theorem readNum_counted (s : State) (key : Nat) : readNum (requestCounted s) key = readNum s key := by
  unfold readNum
  extract_lets idx sub
  rw [engNum_counted, railsNum_counted, heatNum_counted, partNum_counted, portNum_counted, secNum_counted, dfltOf_counted,
    show (requestCounted s).nums = s.nums from rfl]

theorem codeInfoBytes_counted (s : State) (n : Nat) : codeInfoBytes (requestCounted s) n = codeInfoBytes s n := by
  unfold codeInfoBytes
  split <;> rfl

theorem codeRecordBytes_counted (s : State) (n : Nat) : codeRecordBytes (requestCounted s) n = codeRecordBytes s n := by
  unfold codeRecordBytes
  rw [show (requestCounted s).nut = s.nut from rfl]

theorem partBytes_counted (s : State) (n place idx sub : Nat) :
    partBytes (requestCounted s) n place idx sub = partBytes s n place idx sub := by
  unfold partBytes
  rw [codeInfoBytes_counted, codeRecordBytes_counted]
  rfl

theorem engBytes_counted (s : State) (idx sub : Nat) : engBytes (requestCounted s) idx sub = engBytes s idx sub := rfl

theorem constBytes_counted (s : State) (key : Nat) : constBytes (requestCounted s) key = constBytes s key := rfl

theorem readBytes_counted (s : State) (n place key : Nat) : readBytes (requestCounted s) n place key = readBytes s n place key := by
  unfold readBytes
  rw [engBytes_counted, partBytes_counted, constBytes_counted, show getBlob (requestCounted s) key = getBlob s key from rfl]

theorem readValue_counted (s : State) (n place key : Nat) : readValue (requestCounted s) n place key = readValue s n place key := by
  unfold readValue
  rw [readNum_counted, readBytes_counted, show findEntry (requestCounted s) key = findEntry s key from rfl]

theorem defaultLen_counted (s : State) (key : Nat) : defaultLen (requestCounted s) key = defaultLen s key := rfl

theorem defaultOf_counted (s : State) (e : Entry) (key : Nat) : defaultOf (requestCounted s) e key = defaultOf s e key := by
  unfold defaultOf
  rw [defaultLen_counted, show (requestCounted s).nut = s.nut from rfl, show (requestCounted s).ani = s.ani from rfl]
  rfl

theorem entryFlagsOf_counted (s : State) (key : Nat) (e : Entry) : entryFlagsOf (requestCounted s) key e = entryFlagsOf s key e := rfl

theorem describe_counted (s : State) (key : Nat) (e : Entry) : describe (requestCounted s) key e = describe s key e := by
  unfold describe
  rw [defaultOf_counted, entryFlagsOf_counted]

theorem requestCounted_checks (s : State) : SameChecks s (requestCounted s) := ⟨rfl, rfl, rfl, rfl, rfl, rfl, rfl, rfl⟩

/-! ## READ (R348, R356 to R358) -/

theorem execOdaRead_of_open {n txn key ty : Nat} {desc : Bool} {x : Session} {s : State} (h : OpenRequest n x s) :
    execOdaRead n txn key ty desc s = .next ((if desc then describeGo key ty else readGo key ty)
      (pendingRequest n txn 1 (.read key ty desc) x s) (requestCounted (touch n s))) := by
  unfold execOdaRead
  extract_lets body go
  rw [if_neg (by simp [h.numbered]), request_unrecorded h]
  rfl

theorem readGo_refused {key ty : Nat} {p : Pending} {s : State} (h : readCheck s p.auth key ty ≠ 0) :
    readGo key ty p s = finish p (readCheck s p.auth key ty) s := if_pos h

theorem readGo_reads {key ty : Nat} {p : Pending} {s : State} (hcheck : readCheck s p.auth key ty = 0) (hfw : isFwKey s key = false)
    (hfits : readFits s key (readValue s p.sess p.place key) = 0) :
    readGo key ty p s = finish { p with items := [(key, 0, some (readValue s p.sess p.place key))] } 0 s := by
  unfold readGo
  rw [if_neg (by simp [hcheck]), if_neg (by simp [hfw])]
  exact if_neg (by simp [hfits])

theorem describeGo_describes {key ty : Nat} {p : Pending} {s : State} {e : Entry} (he : effEntry s key = some e)
    (hty : ty = 0 ∨ ty = e.ty.code) :
    describeGo key ty p s = finish { p with items := [(key, 0, some (.bytes (describe s key e)))] } 0 s := by
  unfold describeGo
  rw [he]
  exact if_neg (fun h => hty.elim h.1 h.2)

/-- The end of a read of an open session: its answer, and that of the rest of the dictionary nothing moved. -/
theorem finish_read {n : Nat} {p : Pending} (hbody : p.body.recorded = false) (code : Nat) (s : State) :
    (finish p code (requestCounted (touch n s))).oda.answer = some (p.answer code (mainNow s)) ∧
    (finish p code (requestCounted (touch n s))).nums = s.nums ∧
    (finish p code (requestCounted (touch n s))).oda.peers = s.oda.peers ∧
    (finish p code (requestCounted (touch n s))).oda.waiting = s.oda.waiting := by
  rw [← counted_eq]
  obtain ⟨hanswer, hpeers, hwaiting, hframe⟩ := finish_answers hbody code (counted n s)
  rw [mainNow_of_only (counted_only n s) (by decide)] at hanswer
  exact ⟨hanswer, (hframe .nums (by decide)).trans (counted_only n s .nums (by decide)), hpeers.trans (counted_peers n s),
    hwaiting.trans (congrArg Oda.waiting (counted_oda n s) :)⟩

theorem odaRead_value {n txn key ty : Nat} {x : Session} {s : State} (h : OpenRequest n x s)
    (hcheck : readCheck (touch n s) x.auth key ty = 0) (hfw : isFwKey (touch n s) key = false)
    (hfits : readFits (touch n s) key (readValue (touch n s) n x.place key) = 0) :
    Ends (.odaRead n txn key ty false) s (fun t =>
      t.oda.answer = some ⟨n, txn, 0, mainNow s, false, false, 0, 0xFFFF, [],
        [(key, 0, some (readValue (touch n s) n x.place key))], 0⟩ ∧
      t.nums = s.nums ∧ t.oda.peers = s.oda.peers ∧ t.oda.waiting = s.oda.waiting) := by
  have hchecks := requestCounted_checks (touch n s)
  have hgo := readGo_reads (p := pendingRequest n txn 1 (.read key ty false) x s) ((hchecks.readCheck _ _ _).trans hcheck)
    ((hchecks.isFwKey key).trans hfw) (by rw [readValue_counted, hchecks.readFits]; exact hfits)
  rw [readValue_counted] at hgo
  exact ends_of_next ((execOdaRead_of_open h).trans (congrArg Host.Outcome.next hgo)) (finish_read rfl 0 s)

theorem odaRead_refused {n txn key ty : Nat} {x : Session} {s : State} (h : OpenRequest n x s)
    (hcheck : readCheck (touch n s) x.auth key ty ≠ 0) : Ends (.odaRead n txn key ty false) s (fun t =>
      t.oda.answer = some ⟨n, txn, readCheck (touch n s) x.auth key ty, mainNow s, false, false, 0, 0, [], [], 0⟩ ∧
      t.nums = s.nums ∧ t.oda.peers = s.oda.peers ∧ t.oda.waiting = s.oda.waiting) := by
  have hchecks := requestCounted_checks (touch n s)
  have hgo := readGo_refused (p := pendingRequest n txn 1 (.read key ty false) x s) (by rw [hchecks.readCheck]; exact hcheck)
  rw [hchecks.readCheck] at hgo
  refine ends_of_next ((execOdaRead_of_open h).trans (congrArg Host.Outcome.next hgo)) ?_
  obtain ⟨hanswer, hrest⟩ := finish_read (n := n) (p := pendingRequest n txn 1 (.read key ty false) x s) rfl
    (readCheck (touch n s) x.auth key ty) s
  refine ⟨hanswer.trans ?_, hrest⟩
  unfold Pending.answer
  rw [if_neg hcheck]
  rfl

theorem odaRead_describes {n txn key ty : Nat} {x : Session} {e : Entry} {s : State} (h : OpenRequest n x s)
    (he : effEntry (touch n s) key = some e) (hty : ty = 0 ∨ ty = e.ty.code) : Ends (.odaRead n txn key ty true) s (fun t =>
      t.oda.answer = some ⟨n, txn, 0, mainNow s, false, false, 0, 0xFFFF, [],
        [(key, 0, some (.bytes (describe (touch n s) key e)))], 0⟩ ∧
      t.nums = s.nums ∧ t.oda.peers = s.oda.peers ∧ t.oda.waiting = s.oda.waiting) := by
  have hgo := describeGo_describes (p := pendingRequest n txn 1 (.read key ty true) x s)
    (((requestCounted_checks (touch n s)).effEntry key).trans he) hty
  rw [describe_counted] at hgo
  exact ends_of_next ((execOdaRead_of_open h).trans (congrArg Host.Outcome.next hgo)) (finish_read rfl 0 s)

/-- With sixteen requests outstanding a read is turned away. -/
theorem odaRead_busy {n txn key ty : Nat} {x : Session} {s : State} (hserving : s.oda.serving = true) (hn : n ≠ 0)
    (hx : odaSession s n = some x) (hbusy : busy s x = true) : Ends (.odaRead n txn key ty false) s (fun t =>
      t.oda.answer = some ⟨n, txn, 0x00070001, 0, false, false, 0, 0, [], [], 0⟩ ∧ t.oda.peers = s.oda.peers ∧
      t.oda.waiting = s.oda.waiting ∧ t.nums = (inc32 s Obj.odaBusy).nums) := by
  have hexec : execOdaRead n txn key ty false s =
      .next (respond n (abortAnswer n txn 0x00070001) (inc32 (counted n s) Obj.odaBusy)) := by
    unfold execOdaRead request
    rw [if_neg (by simp [hn]), if_neg (by simp [hserving]), if_neg hn, hx]
    dsimp only
    rw [if_neg (by simp), if_pos hbusy]
    rfl
  refine ends_of_next hexec ?_
  have hoda := respond_oda n (abortAnswer n txn 0x00070001) (inc32 (counted n s) Obj.odaBusy)
  have hkept : (inc32 (counted n s) Obj.odaBusy).oda = (counted n s).oda :=
    keep_inc32 (L := [.nums]) _ (.of_all rfl) (only_refl _ _) .oda (by decide)
  refine ⟨(congrArg Oda.answer hoda :), ?_, ?_, ?_⟩
  · rw [respond_peers, hkept, counted_peers]
  · refine (congrArg Oda.waiting hoda :).trans ?_
    rw [hkept]
    exact (congrArg Oda.waiting (counted_oda n s) :)
  · have hnums : (counted n s).nums = s.nums := counted_only n s .nums (by decide)
    refine (respond_only n _ _ .nums (by decide)).trans ?_
    change (incMax (counted n s) Obj.odaBusy 1 u32).nums = (incMax s Obj.odaBusy 1 u32).nums
    unfold incMax setN getN
    rw [hnums]

/-! ### Without a session (R356) -/

theorem odaRead_public {txn key ty : Nat} {s : State} (hserving : s.oda.serving = true) (hpublic : publicKey key = true)
    (hcheck : readCheck s .host key ty = 0) (hfw : isFwKey s key = false) (hfits : readFits s key (readValue s 0 0 key) = 0)
    (hroom : s.oda.waiting.length < 256) : Ends (.odaRead 0 txn key ty false) s (fun t =>
      t.oda.answer.map (fun a => (a.status, a.items)) = some (0, [(key, 0, some (readValue s 0 0 key))]) ∧ t.nums = s.nums ∧
      t.oda.peers = s.oda.peers ∧ t.oda.waiting = s.oda.waiting) := by
  have hexec : execOdaRead 0 txn key ty false s = .next (finish { barePending txn 1 (.read key ty false) with
      items := [(key, 0, some (readValue s 0 0 key))] } 0 s) := by
    unfold execOdaRead bareRequest
    rw [if_pos (by simp [hserving, hpublic]), if_neg (by omega)]
    exact congrArg Host.Outcome.next (readGo_reads (p := barePending txn 1 (.read key ty false)) hcheck hfw hfits)
  refine ends_of_next hexec ?_
  obtain ⟨hanswer, hpeers, hwaiting, hframe⟩ := finish_answers (p := { barePending txn 1 (.read key ty false) with
    items := [(key, 0, some (readValue s 0 0 key))] }) rfl 0 s
  exact ⟨congrArg (Option.map fun a => (a.status, a.items)) hanswer, hframe .nums (by decide), hpeers, hwaiting⟩

theorem odaRead_closed {txn key ty : Nat} {d : Bool} {s : State} (hserving : s.oda.serving = true) (hpublic : publicKey key = false) :
    execOdaRead 0 txn key ty d s = .next (answerBare (abortAnswer 0 txn 0x00090001) s) := by
  unfold execOdaRead request
  rw [if_neg (by simp [hpublic]), if_neg (by simp [hserving]), if_pos rfl]

/-! ## READ_MULTI (R359, R360) -/

/-- What one item of a READ_MULTI carries: a value exactly where its status is 0. -/
def FineItem (s : State) (n place : Nat) (z : Nat × Nat × Option Value) : Prop :=
  (z.2.1 = 0 → z.2.2 = some (readValue s n place z.1)) ∧ (z.2.1 ≠ 0 → z.2.2 = none)

theorem fineItem_failed (s : State) (n place key : Nat) {code : Nat} (h : code ≠ 0) : FineItem s n place (key, code, none) :=
  ⟨fun h0 => absurd h0 h, fun _ => rfl⟩

/-- The items of a READ_MULTI of objects that hardware holds: one for each address in their order, each fine, and each
failing check told. -/
theorem readItems_fine {s : State} {p : Pending} {items : List (Nat × Nat)} (used : Nat) (h : ∀ y ∈ items, isFwKey s y.1 = false) :
    (readItems s p items used).map (·.1) = items.map (·.1) ∧
    (∀ z ∈ readItems s p items used, FineItem s p.sess p.place z) ∧
    ∀ y ∈ items, readCheck s p.auth y.1 y.2 ≠ 0 → (y.1, readCheck s p.auth y.1 y.2, none) ∈ readItems s p items used := by
  induction items generalizing used with
  | nil => exact ⟨rfl, fun z hz => absurd hz List.not_mem_nil, fun y hy => absurd hy List.not_mem_nil⟩
  | cons y rest ih =>
    obtain ⟨key, ty⟩ := y
    have hrest : ∀ y ∈ rest, isFwKey s y.1 = false := fun y hy => h y (List.mem_cons_of_mem _ hy)
    have hfw : isFwKey s key = false := h (key, ty) List.mem_cons_self
    have hcons : ∃ (item : Nat × Nat × Option Value) (used' : Nat),
        readItems s p ((key, ty) :: rest) used = item :: readItems s p rest used' ∧ item.1 = key ∧
        FineItem s p.sess p.place item ∧
        (readCheck s p.auth key ty ≠ 0 → item = (key, readCheck s p.auth key ty, none)) := by
      rw [readItems]
      extract_lets v len
      split
      · next hcheck => exact ⟨_, _, rfl, rfl, fineItem_failed s _ _ _ hcheck, fun _ => rfl⟩
      next hcheck =>
      rw [if_neg (by simp [hfw])]
      split
      · exact ⟨_, _, rfl, rfl, fineItem_failed s _ _ _ (by decide), fun hne => absurd hne hcheck⟩
      · exact ⟨_, _, rfl, rfl, ⟨fun _ => rfl, fun hne => absurd rfl hne⟩, fun hne => absurd hne hcheck⟩
    obtain ⟨item, used', heq, hkey, hfine, hfailed⟩ := hcons
    obtain ⟨hkeys, hfines, hfails⟩ := ih used' hrest
    rw [heq]
    refine ⟨by rw [List.map_cons, List.map_cons, hkey, hkeys], fun z hz => ?_, fun y hy hne => ?_⟩
    · rcases List.mem_cons.mp hz with rfl | hz
      · exact hfine
      · exact hfines z hz
    · rcases List.mem_cons.mp hy with rfl | hy
      · exact hfailed hne ▸ List.mem_cons_self
      · exact List.mem_cons_of_mem _ (hfails y hy hne)

theorem fwItems_of_hardware {s : State} {items : List (Nat × Nat)} (h : ∀ y ∈ items, isFwKey s y.1 = false) (p : Pending) :
    fwItems s p items = [] := by
  unfold fwItems
  rw [List.filterMap_eq_nil_iff]
  intro q hq
  obtain ⟨i, hi, rfl⟩ := List.mem_mapIdx.mp hq
  have hfw : isFwKey s items[i].1 = false := h _ (List.getElem_mem hi)
  simp [hfw]

theorem multiGo_of_hardware {s : State} {items : List (Nat × Nat)} (h : ∀ y ∈ items, isFwKey s y.1 = false) (p : Pending) :
    multiGo items p s = finish { p with items := readItems s p items (8 * items.length), steps := [] } 0 s := by
  unfold multiGo
  rw [fwItems_of_hardware h]
  rfl

theorem readMulti_ends {n txn : Nat} {x : Session} {items : List (Nat × Nat)} {s : State} (h : OpenRequest n x s)
    (hone : 1 ≤ items.length) (hmany : items.length ≤ 64) (hfw : ∀ y ∈ items, isFwKey (touch n s) y.1 = false) :
    Ends (.readMulti n txn items) s (fun t =>
      t.oda.answer.map (fun a => (a.txn, a.status, a.done, a.accepted)) = some (txn, 0, 0, []) ∧
      t.oda.answer.map (fun a => a.items.map (·.1)) = some (items.map (·.1)) ∧
      (∀ z ∈ (t.oda.answer.map (·.items)).getD [], z.2.1 = 0 → z.2.2 = some (readValue (touch n s) n x.place z.1)) ∧
      (∀ z ∈ (t.oda.answer.map (·.items)).getD [], z.2.1 ≠ 0 → z.2.2 = none) ∧
      (∀ y ∈ items, readCheck (touch n s) x.auth y.1 y.2 ≠ 0 →
        (y.1, readCheck (touch n s) x.auth y.1 y.2, none) ∈ (t.oda.answer.map (·.items)).getD []) ∧
      t.nums = s.nums ∧ t.oda.peers = s.oda.peers ∧ t.oda.waiting = s.oda.waiting) := by
  have hchecks := requestCounted_checks (touch n s)
  have hfw' : ∀ y ∈ items, isFwKey (requestCounted (touch n s)) y.1 = false := fun y hy => (hchecks.isFwKey y.1).trans (hfw y hy)
  have hexec : execReadMulti n txn items s = .next (finish { pendingRequest n txn 3 (.readMulti items) x s with
      items := readItems (requestCounted (touch n s)) (pendingRequest n txn 3 (.readMulti items) x s) items (8 * items.length)
      steps := [] } 0 (requestCounted (touch n s))) := by
    unfold execReadMulti
    extract_lets body
    rw [if_neg (by simp [h.numbered]), if_neg (by simp [h.numbered]), show countOk items.length = true by simp [countOk, hone, hmany],
      request_unrecorded h]
    exact congrArg Host.Outcome.next (multiGo_of_hardware hfw' _)
  refine ends_of_next hexec ?_
  obtain ⟨hkeys, hfine, hfails⟩ := readItems_fine (p := pendingRequest n txn 3 (.readMulti items) x s) (8 * items.length) hfw'
  generalize readItems (requestCounted (touch n s)) (pendingRequest n txn 3 (.readMulti items) x s) items (8 * items.length) = read
    at hkeys hfine hfails
  obtain ⟨hanswer, hrest⟩ := finish_read (n := n)
    (p := { pendingRequest n txn 3 (.readMulti items) x s with items := read, steps := [] }) rfl 0 s
  refine ⟨?_, ?_, ?_, ?_, ?_, hrest⟩
  · rw [hanswer]
    rfl
  · rw [hanswer]
    exact congrArg some hkeys
  · rw [hanswer]
    intro z hz hzero
    exact ((hfine z hz).1 hzero).trans (congrArg some (readValue_counted (touch n s) n x.place z.1))
  · rw [hanswer]
    exact fun z hz hne => (hfine z hz).2 hne
  · rw [hanswer]
    intro y hy hne
    have hsame := hchecks.readCheck x.auth y.1 y.2
    exact hsame ▸ hfails y hy (by rw [← hsame] at hne; exact hne)

/-- Settles O35: a read answers what its checks and the object give, and moves nothing. -/
theorem odaReads : Obligations.OdaReads := by
  unfold Obligations.OdaReads
  refine ⟨fun n txn x key ty w s h1 h2 h3 h4 hw hcheck hfw hfits => ?_, fun n txn x key ty w s h1 h2 h3 h4 hw hcheck => ?_,
    fun n txn x key ty e w s h1 h2 h3 h4 hw he hty => ?_, fun n txn x items w s h1 h2 h3 h4 hw hone hmany hfw => ?_,
    fun n txn key ty x s h1 h2 h3 h4 => odaRead_busy h1 h2 h3 h4,
    fun txn key ty s h1 hpublic hcheck hfw hfits hroom => odaRead_public h1 hpublic hcheck hfw hfits hroom,
    fun txn key ty d s h1 hpublic => ends_of_next (odaRead_closed h1 hpublic) ⟨rfl, rfl, rfl, rfl, rfl⟩⟩
  · subst hw
    exact odaRead_value ⟨h1, h2, h3, h4⟩ hcheck hfw hfits
  · subst hw
    exact odaRead_refused ⟨h1, h2, h3, h4⟩ hcheck
  · subst hw
    exact odaRead_describes ⟨h1, h2, h3, h4⟩ he hty
  · subst hw
    exact readMulti_ends ⟨h1, h2, h3, h4⟩ hone hmany hfw

end Sys2Proof.Laws
